-- ==== Sys2Proof/Word.lean ====
section
/-! DEFINITION. The word types of the Soruri S4 and their plainest arithmetic (R1, R2). -/

namespace Sys2Proof

/-- A byte of any memory (R2). -/
abbrev Byte := BitVec 8

/-- A 64-bit word: scalar registers, command words, system registers (R25, R118). -/
abbrev Word := BitVec 64

/-- A 128-byte row of the accumulator file, of a runner or of a block port (R15, R25). -/
abbrev Row := BitVec 1024

/-- The low 64 bits of a number. -/
abbrev toWord (n : Nat) : Word := BitVec.ofNat 64 n

/-- `name[hi:lo]` of R2 on a number: `len` bits from bit `lo` up. -/
abbrev bits (n lo len : Nat) : Nat := n / 2 ^ lo % 2 ^ len

/-- A number of `w` bits read as two's complement. -/
abbrev asSigned (w n : Nat) : Int := if n < 2 ^ (w - 1) then (n : Int) else (n : Int) - 2 ^ w

end Sys2Proof
end

