-- ==== Sys2Proof/Syntax.lean ====
section
/-! DEFINITION. The operations of the part: one constructor of Instr per row of the operation table. The rows of the four
opcode maps (R145) carry their operand fields (R127-R140); the other rows are the machine's own steps and the acts of
outside parties, and carry whom they concern. -/

namespace Sys2Proof

/-- The four command streams, in stream-code order (R21, R121). -/
inductive Stream where
  | cc | cp | ve | ce
  deriving DecidableEq, Repr

/-- Element types, codes 0 to 13 (R123). -/
inductive Ty where
  | f64 | f32 | f16 | bf16 | nf | i64 | i32 | i16 | i8 | n64 | n32 | n16 | n8 | b1
  deriving DecidableEq, Repr

/-- Rounding modes, codes 0 to 4 (R41). -/
inductive Rm where
  | rne | rz | ru | rd | rs
  deriving DecidableEq, Repr

/-- Conditions of VCMP, codes 0 to 7 (R233). -/
inductive Cond where
  | eq | ne | lt | le | gt | ge | un | or
  deriving DecidableEq, Repr

/-- A predicate selector: m0-m15, k0-k7 or none (R124). -/
inductive Prd where
  | mask (m : BitVec 4)
  | count (k : BitVec 3)
  | all
  deriving DecidableEq, Repr

/-- Read modes of a crucible operand: n, t, g, x (R80). -/
inductive ReadMode where
  | n | t | g | x
  deriving DecidableEq, Repr

/-- A scalar register s0-s63. -/
abbrev SReg := BitVec 6
/-- A vector row v0-v511. -/
abbrev VReg := BitVec 9
/-- An SRAM block b0-b5 (R13, R122). -/
abbrev Blk := Fin 6
/-- A runner cw0-cw3, aw0-aw3 (R15). -/
abbrev Run := BitVec 3

/-- The operand fields of the moves CPLD, CPST, CPMOV, CPSET (R134, R194, R196). -/
structure MoveOps where
  sa : SReg
  sb : SReg
  sc : SReg
  lc : Option (BitVec 6)
  run : Run
  /-- DIM, 1 to 3 -/
  dim : BitVec 2
  deriving DecidableEq, Repr

/-- The operand fields of CPGTH and CPSCT (R134, R194, R199). -/
structure IndexOps where
  sa : SReg
  sb : SReg
  sc : SReg
  lc : Option (BitVec 6)
  run : Run
  ty : Ty
  mem : Bool
  /-- the sy entry when ORB is 1 -/
  sy : Option (BitVec 4)
  deriving DecidableEq, Repr

/-- The operand fields of a VE-A command with two sources (R131). -/
structure VOps where
  vd : VReg
  va : VReg
  vb : VReg
  prd : Prd
  z : Bool
  ty : Ty
  deriving DecidableEq, Repr

/-- The operand fields of a VE-A command with one source (R131). -/
structure VOps1 where
  vd : VReg
  va : VReg
  prd : Prd
  z : Bool
  ty : Ty
  deriving DecidableEq, Repr

/-- The operand fields of a VE-B command (R132). -/
structure VImm where
  vd : VReg
  imm : BitVec 16
  prd : Prd
  z : Bool
  ty : Ty
  deriving DecidableEq, Repr

/-- The operand fields of a ring-memory command (R133). -/
structure VMem where
  vd : VReg
  blk : Blk
  sa : SReg
  run : Run
  prd : Prd
  z : Bool
  ty : Ty
  deriving DecidableEq, Repr

/-- The operand fields of MMA and MMAS that both have (R137). -/
structure MmaOps where
  td : BitVec 4
  ca : BitVec 5
  cb : BitVec 5
  ty : Ty
  rma : ReadMode
  rmb : ReadMode
  sat : Bool
  deriving DecidableEq, Repr

/-- A reading of a die's thermal sensor, in degrees Celsius (R366). -/
structure SensorReading where
  pkg : Nat
  die : Nat
  temp : Nat
  deriving DecidableEq, Repr

/-- A partition as the hypervisor boots it (R11, R357, R359): number, image version, image and signature; its compute cores
and system cores by number, physical memory extents (base, limit), ASIDs, root RCB, range-list bases by ASID, exported
windows (BASE, LEN, ASID), offered features. -/
structure BootPart where
  no : Nat
  version : Nat
  image : List Byte
  signature : Nat
  cores : List Nat
  sysCores : List Nat
  mem : List (Nat × Nat)
  asids : List Nat
  root : Nat
  lists : List (Nat × Nat)
  exports : List (Nat × Nat × Nat)
  offer : BitVec 256
  /-- its share of every link, in units of 2^-16 -/
  linkShare : Nat
  deriving DecidableEq, Repr

/-- What BOOT finds in the fuses and images of one package (R359): the root key the image carries, the digest the fuses
hold, the hypervisor image with its signature, the hypervisor's configuration, and each partition's image. -/
structure BootImage where
  rootKey : List Byte
  fusedDigest : BitVec 512
  hyper : List Byte
  hyperSig : Nat
  hyperVersion : Nat
  config : List Byte
  /-- what the hypervisor's configuration gives each partition, beside its image -/
  parts : List BootPart
  deriving DecidableEq, Repr

/-- The operations. -/
inductive Instr where
  -- CC-A (R127, R165, R170, R175, R176)
  | add (rd ra rb : SReg) | sub (rd ra rb : SReg) | mul (rd ra rb : SReg) | mulh (rd ra rb : SReg)
  | mulhn (rd ra rb : SReg) | div (rd ra rb : SReg) | divn (rd ra rb : SReg) | rem (rd ra rb : SReg)
  | remn (rd ra rb : SReg) | and (rd ra rb : SReg) | or (rd ra rb : SReg) | xor (rd ra rb : SReg)
  | shl (rd ra rb : SReg) | shr (rd ra rb : SReg) | sar (rd ra rb : SReg) | sel (rd ra rb rc : SReg)
  | min (rd ra rb : SReg) | max (rd ra rb : SReg) | minn (rd ra rb : SReg) | maxn (rd ra rb : SReg)
  | seq (rd ra rb : SReg) | sne (rd ra rb : SReg) | slt (rd ra rb : SReg) | sltn (rd ra rb : SReg)
  | aadd (rd ra rb : SReg) | acas (rd ra rb rc : SReg) | aswp (rd ra rb : SReg)
  | patch (ra rb : SReg) | fqpush (ra : SReg)
  -- CC-B (R128, R167-R169)
  | addi (rd ra : SReg) (imm : BitVec 28) | andi (rd ra : SReg) (imm : BitVec 28)
  | ori (rd ra : SReg) (imm : BitVec 28) | xori (rd ra : SReg) (imm : BitVec 28)
  | shli (rd ra : SReg) (sh : BitVec 6) | shri (rd ra : SReg) (sh : BitVec 6) | sari (rd ra : SReg) (sh : BitVec 6)
  | slti (rd ra : SReg) (imm : BitVec 28) | lim (rd ra : SReg) (imm : BitVec 28) | movi (rd : SReg) (imm : BitVec 28)
  | lds (rd ra : SReg) (imm : BitVec 28) | sts (rd ra : SReg) (imm : BitVec 28)
  | ldm (rd ra : SReg) (imm : BitVec 28) | stm (rd ra : SReg) (imm : BitVec 28)
  -- CC-C (R129, R172, R173)
  | br (ra : SReg) (neg : Bool) (off jd : BitVec 16) | jmp (off : BitVec 16) | call (off : BitVec 16) | ret
  -- CC-D (R130, R177-R191)
  | sysrd (rd : SReg) (num : BitVec 12) | syswr (ra : SReg) (num : BitVec 12) | dccrd (rd : SReg)
  | lcset (ra : SReg) (lc : BitVec 6) | lcrd (rd : SReg) (lc : BitVec 6) | lcwait (lc : BitVec 6)
  | slack (n : BitVec 16) | arm (rd ra : SReg) | mpat (ra rb : SReg) (n : BitVec 4)
  | qprd (rd : SReg) (qp : BitVec 2) | qpwr (ra : SReg) (qp : BitVec 2) | fence (scope : BitVec 3)
  | watchAdd (ra : SReg) | watchClr | trap (n : BitVec 16) | halt
  | rload (ra : SReg) (n : BitVec 6) | rsplit (ra rb : SReg) (n : BitVec 6) | rmerge (ra : SReg) (n : BitVec 6)
  | rinv (ra : SReg) | yload (ra : SReg) (sy : BitVec 4)
  | eret | hvcall (n : BitVec 16) | rres (ra rb : SReg) (asid : BitVec 12) | rresClear (ra rb : SReg) (asid : BitVec 12)
  | rret (ra rb : SReg) (asid : BitVec 12)
  -- stream control (R139, R140)
  | nop | loop (id : BitVec 3) (stg : BitVec 3) (body : BitVec 14) (count mx : BitVec 32) | lend (id : BitVec 3)
  | join (d : BitVec 32) | endStream | mark (stage : BitVec 3)
  -- a word with no opcode of its stream's map (R146)
  | unassignedOpcode (op : BitVec 8)
  -- CP-A (R134, R196-R201)
  | cpld (o : MoveOps) | cpldCb (o : MoveOps) | cpst (o : MoveOps) | cpmov (o : MoveOps) | cpset (o : MoveOps) (mem : Bool)
  | cpgth (o : IndexOps) | cpsct (o : IndexOps) (comb : Bool) | cpdec (sa sb sc : SReg) (run : Run)
  -- CP-B (R135, R202-R208)
  | cpfill (sa sb : SReg) (slot : BitVec 5) (run : Run) (ty : Ty) (mem : Bool)
  | cppat (sa sb : SReg) (pm : BitVec 3) (run : Run) (mem : Bool)
  | cpcbk (sa sb : SReg) (k : BitVec 2) (run : Run) (mem : Bool)
  | cpvq (sa sb : SReg) (slot : BitVec 5) (run : Run) (ty : Ty) (rows : BitVec 6) (sp : Bool) (k : BitVec 2)
  | cpexp (sa sb : SReg) (slot : BitVec 5) (sy : BitVec 4) (run : Run) (ty : Ty) (rdim cdim : BitVec 3) (sp : Bool)
  | cpfld (sa sb : SReg) (tile : BitVec 4) (sy : BitVec 4) (run : Run) (ty : Ty) (rdim cdim : BitVec 3)
  -- CP-C (R136, R209-R217)
  | cpcini (sb sc : SReg) | cpatom (sa sb sc : SReg) (ty : Ty) (run : Run) (per : Bool)
  | cpcrd (sa sb : SReg) (ty : Ty) (run : Run) (raw : Bool)
  | cpput (sa sb sc : SReg) (lc : BitVec 6) (win : BitVec 8) (run : Run) | cpget (sa sb sc : SReg) (lc : BitVec 6) (win : BitVec 8)
  | cpxsnd (sa sb sc : SReg) (run : Run) | cpxrcv (sa sb sc : SReg) | cpxred (sa sb sc : SReg) (ty : Ty) (snd : BitVec 4)
  -- VE-A arithmetic (R131, R226-R230)
  | vadd (o : VOps) (rm : Rm) | vsub (o : VOps) (rm : Rm) | vmul (o : VOps) (rm : Rm) | vfma (o : VOps) (rm : Rm)
  | vfms (o : VOps) (rm : Rm) | vneg (o : VOps1) (rm : Rm) | vabs (o : VOps1) (rm : Rm) | vmin (o : VOps) (rm : Rm)
  | vmax (o : VOps) (rm : Rm) | vdiv (o : VOps) (rm : Rm) | vsqrt (o : VOps1) (rm : Rm) | vrcp (o : VOps1) (rm : Rm)
  | vrsq (o : VOps1) (rm : Rm) | vcvt (o : VOps1) (src : Ty) (part : BitVec 3) (rm : Rm)
  | vcmp (md : BitVec 4) (va vb : VReg) (prd : Prd) (z : Bool) (ty : Ty) (cc : Cond)
  | vsel (vd va vb : VReg) (m : BitVec 4) (ty : Ty)
  | vexp2 (o : VOps1) | vlog2 (o : VOps1) | vexp (o : VOps1) | vlog (o : VOps1) | vsinpi (o : VOps1) | vcospi (o : VOps1)
  | vtanh (o : VOps1) | vrand (vd : VReg) (prd : Prd) (z : Bool) (ty : Ty) | vmov (o : VOps1)
  -- VE-A bits (R235-R237)
  | vand (o : VOps) | vor (o : VOps) | vxor (o : VOps) | vlog3 (o : VOps) (tt : BitVec 8) | vshl (o : VOps) | vshr (o : VOps)
  | vsar (o : VOps) | vfsh (o : VOps) (sh : BitVec 7) | vpopc (o : VOps1) | vclz (o : VOps1) | vclmulLo (o : VOps)
  | vclmulHi (o : VOps)
  -- VE-A across lanes (R238-R242)
  | vperm (o : VOps) | vbcst (o : VOps1) (lane : BitVec 7) | viota (vd : VReg) (prd : Prd) (z : Bool) (ty : Ty)
  | vredAdd (o : VOps1) (rm : Rm) | vredMin (o : VOps1) (rm : Rm) | vredMax (o : VOps1) (rm : Rm)
  | vscanInc (o : VOps1) (rm : Rm) | vscanExc (o : VOps1) (rm : Rm)
  | vstep (vd va : VReg) (j k : BitVec 4) (ty : Ty) (dsc : Bool) | vcmpr (o : VOps1)
  -- masks and counts (R244)
  | mand (md ma mb : BitVec 4) | mor (md ma mb : BitVec 4) | mxor (md ma mb : BitVec 4) | mnot (md ma : BitVec 4)
  | mpop (vd : VReg) (ma : BitVec 4) (ty : Ty) | kmsk (kd : BitVec 3) (ma : BitVec 4) (ty : Ty)
  -- VE-B (R132, R225)
  | vimm (o : VImm) | kset (kd : BitVec 3) (imm : BitVec 16) (ty : Ty)
  | vaddImm (o : VImm) (rm : Rm) | vmulImm (o : VImm) (rm : Rm) | vminImm (o : VImm) (rm : Rm) | vmaxImm (o : VImm) (rm : Rm)
  | vandImm (o : VImm) | vorImm (o : VImm) | vxorImm (o : VImm) | vshlImm (o : VImm) | vshrImm (o : VImm) | vsarImm (o : VImm)
  | vcmpImm (o : VImm) (cc : Cond)
  -- VE-C (R133, R245-R248)
  | vld (o : VMem) | vldOrb (o : VMem) (sy : BitVec 4) | vst (o : VMem) | vstOrb (o : VMem) (sy : BitVec 4)
  | vcst (vd : VReg) (blk : Blk) (run : Run) (prd : Prd) (z : Bool) (ty : Ty) (qp : BitVec 2)
  -- CE-A, CE-B (R137, R138, R249)
  | mclm (ca : BitVec 5) | mrel (ca : BitVec 5) | mzero (td : BitVec 4) | mtrn (td ts : BitVec 4)
  | mma (o : MmaOps) | mmas (o : MmaOps) (pm : BitVec 3) (keep4 : Bool)
  | mlda (tile : BitVec 4) (sr : SReg) (blk : Blk) (run : Run) | msta (tile : BitVec 4) (sr : SReg) (blk : Blk) (run : Run)
  | ocon (row : VReg) (sya syb : BitVec 4) (ty : Ty) | oconp (sya syb : BitVec 4) (sr : SReg) (ty : Ty)
  -- the steps of cores and domains (cores and domains by number, see State)
  | commandFetch (core : Nat) (st : Stream) | dccAdvance (dom : Nat) | resultLanding (core : Nat) | fillLanding (core : Nat)
  | memorySample (dom : Nat) | memoryWriteLanding (dom : Nat) | atomicApply (dom : Nat) | sumCellAdd (dom : Nat)
  | cellInitLanding (dom : Nat) | beatLanding (core : Nat) | receiveWindowClose (core : Nat) | armPoolArrival (core : Nat)
  | mpatLanding (core : Nat) | rangeChangeReach (core : Nat) | holdEffect (dom : Nat) | holdRelease (dom : Nat)
  | holdBudgetExceeded (dom : Nat) | rateCreditRefill (core : Nat) | beatCreditRefill (core : Nat) | slackPoint (dom : Nat)
  -- alignment units, thermal monitor, debugger, trace (R113, R331, R344-R346, R366)
  | beaconInterval (pkg link : Nat) | beaconReceived (pkg link dom dcc : Nat) (lead : Int) (slack : Option (Nat × Nat))
  | thermalSignal (r : SensorReading) | thermalWithdraw (r : SensorReading) | thermalTrip (r : SensorReading)
  | debugStopRequest (dom : Nat) | debugRelease (dom : Nat) | traceSlot (core : Nat)
  -- scheduling (R302-R312)
  | schedulingRound (pkg die : Nat) | priorityAging (pkg pid : Nat) | pourStart (pkg pid : Nat) | pourEnd (dom : Nat)
  | schedulerStop (dom : Nat) | checkpointSave (dom : Nat) | pourKill (dom : Nat) | pourRestore (pkg pid : Nat)
  -- windows and host DMA (R293, R338, R355)
  | windowPutApply (id : Nat) | windowPutAck (id : Nat) | windowGetReturn (id : Nat) | parkedTransferRetry (id : Nat)
  | hostDmaDescriptor (pkg fn : Nat) (w0 w1 w2 w3 : Word) | hostDmaStart (id : Nat) | hostDmaUnit (id : Nat)
  -- compaction and links (R279, R329, R363, R365)
  | compactionMove (pkg part asid base dest : Nat) | compactionRelease (pkg part asid base : Nat)
  | flitCorrected (pkg link : Nat) | laneFailure (pkg link lane : Nat) | flitUncorrectable (pkg link : Nat)
  | linkTrained (pkg link pos : Nat) (pcbh : Bool) | channelSubstitution (pkg stack chan : Nat)
  -- service in steps (R364)
  | partitionUpdate (pkg part version : Nat) (image : List Byte) (signature : Nat)
  -- mailbox (R358)
  | build (pkg part no : Nat) (rec : List Word) | armx (pkg part no : Nat) | kill (pkg part pid : Nat) | ckpt (pkg part pid : Nat)
  | resume (pkg part pid : Nat) | restore (pkg part area : Nat) | rings (pkg part die trace wait : Nat)
  | window (pkg part w : Nat) (rec : List Word) | policy (pkg part die field : Nat) (value : Word) | repair (pkg part die core : Nat)
  | tload (pkg part pid core n : Nat) (image : List Word)
  -- host registers, boot, security, service (R350, R356, R359-R367)
  | featCommit (pkg fn : Nat) (accept : BitVec 256) | managementRegisterWrite (pkg addr : Nat) (value : Word)
  | boot (pkg : Nat) (img : BootImage) | unlockToken (pkg : Nat) (token : List Word) (signature : Nat) | retire (pkg : Nat)
  | spdmRequest (pkg : Nat) (rsa4096 sha512 : Bool)
  | hypervisorUpdate (pkg version : Nat) (image : List Byte) (signature : Nat)
  | debugSessionAttach (pkg part : Nat) (on : Bool) | lostBeaconPath (pkg : Nat) | packageForcedDetach (pkg : Nat)
  | linksTakenDown (pkg : Nat) | lifecycleFuseAdvance (pkg : Nat) | tenantKeyProvision (pkg part : Nat) (key : Word)
  deriving DecidableEq, Repr

/-- The common fields of a command word and its WAIT extension word (R96, R118, R119). -/
structure Header where
  wait : BitVec 8
  trc : Bool
  ibd : Bool
  cmp : Bool
  evt : BitVec 4
  /-- the WAIT extension word, present when WAIT is 0xFC or 0xFE -/
  ext : Option Word
  deriving DecidableEq, Repr

/-- A command: its header and its operation. -/
structure Cmd where
  hdr : Header
  instr : Instr
  deriving DecidableEq, Repr

end Sys2Proof
end

