-- ==== Sys2Proof/WellFormed.lean ====
section
/-! DEFINITION. Which instructions the encoding can express and accepts (R122 to R124, R126, R194, R226, R249): the checks of
steps 3 and 4 of R147 that no operand's type already makes. The machine's own steps and outside acts have no encoding. -/

namespace Sys2Proof

/-- F of R226. -/
def Ty.inF : Ty → Bool
  | .f64 | .f32 | .f16 | .bf16 | .nf => true
  | _ => false

/-- I of R226: codes 5 to 12. -/
def Ty.inI : Ty → Bool
  | .i64 | .i32 | .i16 | .i8 | .n64 | .n32 | .n16 | .n8 => true
  | _ => false

/-- S of R226. -/
def Ty.inS : Ty → Bool
  | .i64 | .i32 | .i16 | .i8 => true
  | _ => false

def Ty.inFI (t : Ty) : Bool := t.inF || t.inI
def Ty.inFS (t : Ty) : Bool := t.inF || t.inS
/-- A of R226. -/
def Ty.inA (t : Ty) : Bool := t != .b1
/-- The special functions' types (R226). -/
def Ty.inSpecial : Ty → Bool
  | .f32 | .f16 | .bf16 | .nf => true
  | _ => false
def Ty.inRand : Ty → Bool
  | .f64 | .f32 | .n64 | .n32 => true
  | _ => false
/-- Operand classes of MMA and MMAS (R252). -/
def Ty.inClass : Ty → Bool
  | .f64 | .f32 | .f16 | .bf16 | .nf | .i16 | .n16 | .i8 | .n8 => true
  | _ => false
/-- Sum-cell types (R210, R211). -/
def Ty.inCell : Ty → Bool
  | .f64 | .f32 | .f16 | .bf16 | .i64 => true
  | _ => false
/-- CPXRED's types (R217). -/
def Ty.inRed : Ty → Bool
  | .f64 | .f32 | .f16 | .bf16 | .i64 | .i32 | .n64 | .n32 => true
  | _ => false
def Ty.inVq : Ty → Bool
  | .f16 | .bf16 => true
  | _ => false

/-- "F 0-3, I 0" of R226. -/
def rmOk (t : Ty) (rm : Rm) : Bool := if t.inF then rm != .rs else rm == .rne

/-- The bits of a lane of a type (R218), for the width test of R42. -/
def Ty.width : Ty → Nat
  | .f64 | .i64 | .n64 => 64
  | .f32 | .i32 | .n32 => 32
  | .f16 | .bf16 | .i16 | .n16 => 16
  | _ => 8

/-- Stochastic rounding is legal on a VCVT to f32, f16, bf16 or nf from a wider source (R42). -/
def cvtRmOk (dst src : Ty) (rm : Rm) : Bool :=
  rm != .rs || (dst.inSpecial && dst.width < src.width)

/-- A group of `n` registers from `r` stays inside the file (R122). -/
def groupOk (r : SReg) (n : Nat) : Bool := r.toNat + n ≤ 64

/-- Registers of a strided move's shape group (R195). -/
def dimRegs (d : BitVec 2) : Nat := 3 * d.toNat - 2

def MoveOps.wf (o : MoveOps) : Bool := o.dim != 0 && groupOk o.sc (dimRegs o.dim)
def MoveOps.wfCast (o : MoveOps) : Bool := o.dim == 1 && groupOk o.sc 2
def IndexOps.wf (o : IndexOps) : Bool := o.ty.inA && groupOk o.sc 2 && (!o.mem || o.sy.isNone)

/-- The instruction has an encoding and passes steps 3 and 4 of R147. -/
def Instr.wf : Instr → Bool
  | .add _ _ _ | .sub _ _ _ | .mul _ _ _ | .mulh _ _ _ | .mulhn _ _ _ | .div _ _ _ | .divn _ _ _ | .rem _ _ _
  | .remn _ _ _ | .and _ _ _ | .or _ _ _ | .xor _ _ _ | .shl _ _ _ | .shr _ _ _ | .sar _ _ _ | .sel _ _ _ _
  | .min _ _ _ | .max _ _ _ | .minn _ _ _ | .maxn _ _ _ | .seq _ _ _ | .sne _ _ _ | .slt _ _ _ | .sltn _ _ _
  | .aadd _ _ _ | .acas _ _ _ _ | .aswp _ _ _ | .patch _ _ | .fqpush _
  | .addi _ _ _ | .andi _ _ _ | .ori _ _ _ | .xori _ _ _ | .shli _ _ _ | .shri _ _ _ | .sari _ _ _
  | .slti _ _ _ | .lim _ _ _ | .movi _ _ | .lds _ _ _ | .sts _ _ _ | .ldm _ _ _ | .stm _ _ _
  | .br _ _ _ _ | .jmp _ | .call _ | .ret
  | .sysrd _ _ | .syswr _ _ | .dccrd _ | .lcset _ _ | .lcrd _ _ | .lcwait _ | .slack _ | .arm _ _ | .mpat _ _ _
  | .qprd _ _ | .qpwr _ _ | .watchAdd _ | .watchClr | .trap _ | .halt | .rload _ _ | .rsplit _ _ _ | .rmerge _ _
  | .rinv _ | .yload _ _ | .eret | .hvcall _ | .rres _ _ _ | .rresClear _ _ _ | .rret _ _ _
  | .nop | .loop _ _ _ _ _ | .lend _ | .join _ | .endStream | .mark _ => true
  | .fence scope => scope.toNat < 5
  | .cpld o | .cpst o | .cpmov o | .cpset o _ => o.wf
  | .cpldCb o => o.wfCast
  | .cpgth o => o.wf && (o.sy.isNone || o.sa == 0)
  | .cpsct o comb => o.wf && (o.sy.isNone || o.sb == 0) && !(o.sy.isNone && comb && o.ty == .nf)
  | .cpdec _ _ sc _ => groupOk sc 2
  | .cpfill _ _ _ run ty mem => ty.inA && (!mem || run == 0)
  | .cppat _ _ _ run mem | .cpcbk _ _ _ run mem => !mem || run == 0
  | .cpvq _ sb slot _ ty rows sp _ => ty.inVq && (if sp then slot == 0 else sb == 0 && rows == 0)
  | .cpexp sa sb slot _ _ _ _ _ sp => groupOk sa 3 && (if sp then slot == 0 else sb == 0)
  | .cpfld sa _ _ _ _ _ _ _ => groupOk sa 3
  | .cpcini _ _ | .cpput _ _ _ _ _ _ | .cpget _ _ _ _ _ | .cpxsnd _ _ _ _ | .cpxrcv _ _ _ => true
  | .cpatom _ _ _ ty _ _ | .cpcrd _ _ ty _ _ => ty.inCell
  | .cpxred _ _ _ ty _ => ty.inRed
  | .vadd o rm | .vsub o rm | .vmul o rm | .vfma o rm | .vfms o rm | .vmin o rm | .vmax o rm => o.ty.inFI && rmOk o.ty rm
  | .vneg o rm | .vabs o rm => o.ty.inFS && rmOk o.ty rm
  | .vdiv o rm => o.ty.inF && rm != .rs
  | .vsqrt o rm | .vrcp o rm | .vrsq o rm => o.ty.inF && rm != .rs
  | .vcvt o src _ rm => o.ty.inA && src.inA && cvtRmOk o.ty src rm
  | .vcmp _ _ _ _ _ ty cc => ty.inFI && (ty.inF || (cc != .un && cc != .or))
  | .vsel _ _ _ _ ty => ty.inA
  | .vexp2 o | .vlog2 o | .vexp o | .vlog o | .vsinpi o | .vcospi o | .vtanh o => o.ty.inSpecial
  | .vrand _ _ _ ty => ty.inRand
  | .vmov _ | .vand _ | .vor _ | .vxor _ | .vlog3 _ _ => true
  | .vshl o | .vshr o | .vsar o | .vfsh o _ | .vclmulLo o | .vclmulHi o => o.ty.inI
  | .vpopc o | .vclz o => o.ty.inI
  | .vperm o => o.ty.inA
  | .vbcst o _ | .vcmpr o => o.ty.inA
  | .viota _ _ _ ty => ty.inI
  | .vredAdd o rm | .vredMin o rm | .vredMax o rm | .vscanInc o rm | .vscanExc o rm => o.ty.inFI && rmOk o.ty rm
  | .vstep _ _ _ _ ty _ => ty.inA
  | .mand _ _ _ | .mor _ _ _ | .mxor _ _ _ | .mnot _ _ => true
  | .mpop _ _ ty => ty.inI
  | .kmsk _ _ _ | .kset _ _ _ | .vimm _ => true
  | .vaddImm o rm | .vmulImm o rm | .vminImm o rm | .vmaxImm o rm => o.ty.inFI && rmOk o.ty rm
  | .vandImm _ | .vorImm _ | .vxorImm _ => true
  | .vshlImm o | .vshrImm o | .vsarImm o => o.ty.inI
  | .vcmpImm o cc => o.ty.inFI && (o.ty.inF || (cc != .un && cc != .or))
  | .vld _ | .vldOrb _ _ | .vst _ | .vstOrb _ _ => true
  | .vcst _ _ _ _ _ ty _ => ty.inA
  | .mclm _ | .mrel _ | .mzero _ | .mtrn _ _ => true
  | .mma o => o.ty.inClass && (!o.ty.inF || !o.sat)
  | .mmas o _ _ => o.ty.inClass && (!o.ty.inF || !o.sat)
  | .mlda _ _ _ _ | .msta _ _ _ _ | .ocon _ _ _ _ | .oconp _ _ _ _ => true
  | .commandFetch _ _ | .dccAdvance _ | .resultLanding _ | .fillLanding _ | .memorySample _ | .memoryWriteLanding _
  | .atomicApply _ | .sumCellAdd _ | .cellInitLanding _ | .beatLanding _ | .receiveWindowClose _ | .armPoolArrival _
  | .mpatLanding _ | .rangeChangeReach _ | .holdEffect _ | .holdRelease _ | .holdBudgetExceeded _ | .rateCreditRefill _
  | .beatCreditRefill _ | .slackPoint _ | .beaconInterval _ _ | .beaconReceived _ _ _ _ _ _ | .thermalSignal _
  | .thermalWithdraw _ | .thermalTrip _ | .debugStopRequest _ | .debugRelease _ | .traceSlot _ | .schedulingRound _ _
  | .priorityAging _ _ | .pourStart _ _ | .pourEnd _ | .schedulerStop _ | .checkpointSave _ | .pourKill _ | .pourRestore _ _
  | .windowPutApply _ | .windowPutAck _ | .windowGetReturn _ | .parkedTransferRetry _ | .hostDmaDescriptor _ _ _ _ _ _
  | .hostDmaStart _ | .hostDmaUnit _ | .compactionMove _ _ _ _ _ | .compactionRelease _ _ _ _ | .flitCorrected _ _
  | .laneFailure _ _ _ | .flitUncorrectable _ _ | .linkTrained _ _ _ _ | .channelSubstitution _ _ _ | .build _ _ _ _
  | .armx _ _ _ | .kill _ _ _ | .ckpt _ _ _ | .resume _ _ _ | .restore _ _ _ | .rings _ _ _ _ _ | .window _ _ _ _
  | .policy _ _ _ _ _ | .repair _ _ _ _ | .tload _ _ _ _ _ _ | .featCommit _ _ _ | .managementRegisterWrite _ _ _
  | .boot _ _ | .unlockToken _ _ _ | .retire _ | .spdmRequest _ _ _ | .partitionUpdate _ _ _ _ _ | .hypervisorUpdate _ _ _ _
  | .unassignedOpcode _ | .debugSessionAttach _ _ _ | .lostBeaconPath _ | .packageForcedDetach _ | .linksTakenDown _
  | .lifecycleFuseAdvance _ | .tenantKeyProvision _ _ _ => false

end Sys2Proof
end

