-- ==== Sys2Proof/Decode.lean ====
section
/-! DEFINITION. Command words (R118 to R146): reading a command from ring words, total and rejecting by name, and the
encoder, from the same tables of formats. -/

namespace Sys2Proof

/-- Why words are no command: every one of these raises illegal-encoding (R146, R147). -/
inductive Reject where
  /-- no opcode of the stream's map, or a reserved stream-control opcode -/
  | unassigned
  /-- a nonzero reserved or unused field -/
  | reserved
  /-- a field value that the instruction does not accept -/
  | value
  /-- fewer words than the command has -/
  | short
  deriving DecidableEq, Repr

/-- Cut a number into fields of the given widths, the highest field first. -/
def splitF : List Nat → Nat → List Nat
  | [], _ => []
  | w :: r, x => x / 2 ^ r.sum % 2 ^ w :: splitF r x

/-- Put fields of the given widths together, the highest field first. -/
def joinF : List Nat → List Nat → Nat
  | w :: r, v :: vs => v % 2 ^ w * 2 ^ r.sum + joinF r vs
  | _, _ => 0

/-- The field layouts of R118, R119, R127 to R138 and R140. -/
def lWord : List Nat := [8, 1, 1, 1, 1, 4, 8, 40]
def lCcA : List Nat := [6, 6, 6, 6, 16]
def lCcB : List Nat := [6, 6, 28]
def lCcC : List Nat := [6, 1, 1, 16, 16]
def lCcD : List Nat := [6, 6, 6, 16, 6]
def lVeA : List Nat := [9, 9, 9, 5, 1, 4, 3]
def lVeB : List Nat := [9, 16, 5, 1, 4, 3, 2]
def lVeC : List Nat := [9, 3, 6, 3, 5, 1, 4, 2, 4, 1, 2]
def lCpA : List Nat := [6, 6, 6, 6, 3, 4, 9]
def lCpB : List Nat := [6, 6, 5, 4, 3, 4, 12]
def lCpC : List Nat := [6, 6, 6, 6, 8, 4, 4]
def lCeA : List Nat := [4, 4, 5, 5, 4, 2, 2, 1, 3, 1, 9]
def lCeB : List Nat := [9, 4, 4, 4, 6, 3, 3, 4, 3]
def lLoop : List Nat := [3, 3, 14, 20]
def lId : List Nat := [3, 37]
def lJoin : List Nat := [8, 32]
def lLoopExt : List Nat := [32, 32]

/-- Field `i` of a cut number. -/
abbrev fld (v : List Nat) (i : Nat) : Nat := v.getD i 0

/-- Codes of R123. -/
def Ty.code : Ty → Nat
  | .f64 => 0 | .f32 => 1 | .f16 => 2 | .bf16 => 3 | .nf => 4 | .i64 => 5 | .i32 => 6 | .i16 => 7 | .i8 => 8
  | .n64 => 9 | .n32 => 10 | .n16 => 11 | .n8 => 12 | .b1 => 13
def Ty.ofCode : Nat → Ty
  | 0 => .f64 | 1 => .f32 | 2 => .f16 | 3 => .bf16 | 4 => .nf | 5 => .i64 | 6 => .i32 | 7 => .i16 | 8 => .i8
  | 9 => .n64 | 10 => .n32 | 11 => .n16 | 12 => .n8 | _ => .b1

/-- Codes of R41. -/
def Rm.code : Rm → Nat
  | .rne => 0 | .rz => 1 | .ru => 2 | .rd => 3 | .rs => 4
def Rm.ofCode : Nat → Rm
  | 0 => .rne | 1 => .rz | 2 => .ru | 3 => .rd | _ => .rs

/-- Codes of R233. -/
def Cond.code : Cond → Nat
  | .eq => 0 | .ne => 1 | .lt => 2 | .le => 3 | .gt => 4 | .ge => 5 | .un => 6 | .or => 7
def Cond.ofCode : Nat → Cond
  | 0 => .eq | 1 => .ne | 2 => .lt | 3 => .le | 4 => .gt | 5 => .ge | 6 => .un | _ => .or

/-- Codes of R124. -/
def Prd.code : Prd → Nat
  | .mask m => m.toNat
  | .count k => 16 + k.toNat
  | .all => 24
def Prd.ofCode (n : Nat) : Prd :=
  if n < 16 then .mask (BitVec.ofNat 4 n) else if n < 24 then .count (BitVec.ofNat 3 n) else .all

/-- Codes of R80. -/
def ReadMode.code : ReadMode → Nat
  | .n => 0 | .t => 1 | .g => 2 | .x => 3
def ReadMode.ofCode : Nat → ReadMode
  | 0 => .n | 1 => .t | 2 => .g | _ => .x

def boolCode (b : Bool) : Nat := if b then 1 else 0
def blkOfCode (n : Nat) : Blk := if h : n < 6 then ⟨n, h⟩ else 0

abbrev r6 (n : Nat) : SReg := BitVec.ofNat 6 n
abbrev r9 (n : Nat) : VReg := BitVec.ofNat 9 n

/-- The instruction, when its reserved fields are zero and its values accepted. -/
def accept (res val : Bool) (i : Instr) : Except Reject Instr :=
  if !res then .error .reserved else if !val then .error .value else .ok i

-- CC formats -----------------------------------------------------------------------------------------------------------

def ccThree (f : SReg → SReg → SReg → Instr) (x : Nat) : Except Reject Instr :=
  let v := splitF lCcA x
  accept (fld v 3 == 0 && fld v 4 == 0) true (f (r6 (fld v 0)) (r6 (fld v 1)) (r6 (fld v 2)))

def ccFour (f : SReg → SReg → SReg → SReg → Instr) (x : Nat) : Except Reject Instr :=
  let v := splitF lCcA x
  accept (fld v 4 == 0) true (f (r6 (fld v 0)) (r6 (fld v 1)) (r6 (fld v 2)) (r6 (fld v 3)))

def ccImm (f : SReg → SReg → BitVec 28 → Instr) (x : Nat) : Except Reject Instr :=
  let v := splitF lCcB x
  accept true true (f (r6 (fld v 0)) (r6 (fld v 1)) (BitVec.ofNat 28 (fld v 2)))

def ccShift (f : SReg → SReg → BitVec 6 → Instr) (x : Nat) : Except Reject Instr :=
  let v := splitF lCcB x
  accept (fld v 2 < 64) true (f (r6 (fld v 0)) (r6 (fld v 1)) (BitVec.ofNat 6 (fld v 2)))

/-- A CC-D command: which of RD, RA, RB it uses, and how many low bits of SEL. -/
def ccSys (uD uA uB : Bool) (sel : Nat) (f : SReg → SReg → SReg → Nat → Instr) (x : Nat) : Except Reject Instr :=
  let v := splitF lCcD x
  accept ((uD || fld v 0 == 0) && (uA || fld v 1 == 0) && (uB || fld v 2 == 0) && fld v 3 < 2 ^ sel && fld v 4 == 0) true
    (f (r6 (fld v 0)) (r6 (fld v 1)) (r6 (fld v 2)) (fld v 3))

def decodeBr (x : Nat) : Except Reject Instr :=
  let v := splitF lCcC x
  accept (fld v 2 == 0) true
    (.br (r6 (fld v 0)) (fld v 1 == 1) (BitVec.ofNat 16 (fld v 3)) (BitVec.ofNat 16 (fld v 4)))

def ccJump (f : BitVec 16 → Instr) (x : Nat) : Except Reject Instr :=
  let v := splitF lCcC x
  accept (fld v 0 == 0 && fld v 1 == 0 && fld v 2 == 0 && fld v 4 == 0) true (f (BitVec.ofNat 16 (fld v 3)))

def decodeFence (x : Nat) : Except Reject Instr :=
  let v := splitF lCcD x
  accept (fld v 0 == 0 && fld v 1 == 0 && fld v 2 == 0 && fld v 3 < 8 && fld v 4 == 0) (fld v 3 < 5)
    (.fence (BitVec.ofNat 3 (fld v 3)))

def decodeWatch (x : Nat) : Except Reject Instr :=
  let v := splitF lCcD x
  accept (fld v 0 == 0 && fld v 2 == 0 && fld v 3 < 2 && fld v 4 == 0 && (fld v 3 == 0 || fld v 1 == 0)) true
    (if fld v 3 = 0 then .watchAdd (r6 (fld v 1)) else .watchClr)

def decodeRres (x : Nat) : Except Reject Instr :=
  let v := splitF lCcD x
  accept (fld v 0 == 0 && fld v 3 < 2 ^ 13 && fld v 4 == 0) true
    (if fld v 3 < 4096 then .rres (r6 (fld v 1)) (r6 (fld v 2)) (BitVec.ofNat 12 (fld v 3))
     else .rresClear (r6 (fld v 1)) (r6 (fld v 2)) (BitVec.ofNat 12 (fld v 3)))

/-- The stream-control group (R140); `ext` is the operand extension word of LOOP. -/
def decodeControl (op x ext : Nat) : Except Reject Instr :=
  match op with
  | 0xF0 => accept (x == 0) true .nop
  | 0xF1 =>
    let v := splitF lLoop x
    let e := splitF lLoopExt ext
    accept (fld v 3 == 0) true (.loop (BitVec.ofNat 3 (fld v 0)) (BitVec.ofNat 3 (fld v 1)) (BitVec.ofNat 14 (fld v 2))
      (BitVec.ofNat 32 (fld e 0)) (BitVec.ofNat 32 (fld e 1)))
  | 0xF2 => let v := splitF lId x; accept (fld v 1 == 0) true (.lend (BitVec.ofNat 3 (fld v 0)))
  | 0xF3 => let v := splitF lJoin x; accept (fld v 0 == 0) true (.join (BitVec.ofNat 32 (fld v 1)))
  | 0xF4 => accept (x == 0) true .endStream
  | 0xF5 => let v := splitF lId x; accept (fld v 1 == 0) true (.mark (BitVec.ofNat 3 (fld v 0)))
  | _ => .error .unassigned

/-- The CC map (R145). -/
def decodeCc (op x ext : Nat) : Except Reject Instr :=
  match op with
  | 0x00 => ccThree .add x | 0x01 => ccThree .sub x | 0x02 => ccThree .mul x | 0x03 => ccThree .mulh x
  | 0x04 => ccThree .mulhn x | 0x05 => ccThree .div x | 0x06 => ccThree .divn x | 0x07 => ccThree .rem x
  | 0x08 => ccThree .remn x | 0x09 => ccThree .and x | 0x0A => ccThree .or x | 0x0B => ccThree .xor x
  | 0x0C => ccThree .shl x | 0x0D => ccThree .shr x | 0x0E => ccThree .sar x | 0x0F => ccFour .sel x
  | 0x10 => ccThree .min x | 0x11 => ccThree .max x | 0x12 => ccThree .minn x | 0x13 => ccThree .maxn x
  | 0x14 => ccThree .seq x | 0x15 => ccThree .sne x | 0x16 => ccThree .slt x | 0x17 => ccThree .sltn x
  | 0x18 => ccThree .aadd x | 0x19 => ccFour .acas x | 0x1A => ccThree .aswp x
  | 0x1B => let v := splitF lCcA x
            accept (fld v 0 == 0 && fld v 3 == 0 && fld v 4 == 0) true (.patch (r6 (fld v 1)) (r6 (fld v 2)))
  | 0x1C => let v := splitF lCcA x
            accept (fld v 0 == 0 && fld v 2 == 0 && fld v 3 == 0 && fld v 4 == 0) true (.fqpush (r6 (fld v 1)))
  | 0x20 => ccImm .addi x | 0x21 => ccImm .andi x | 0x22 => ccImm .ori x | 0x23 => ccImm .xori x
  | 0x24 => ccShift .shli x | 0x25 => ccShift .shri x | 0x26 => ccShift .sari x
  | 0x27 => ccImm .slti x | 0x28 => ccImm .lim x
  | 0x29 => let v := splitF lCcB x; accept (fld v 1 == 0) true (.movi (r6 (fld v 0)) (BitVec.ofNat 28 (fld v 2)))
  | 0x2A => ccImm .lds x | 0x2B => ccImm .sts x | 0x2C => ccImm .ldm x | 0x2D => ccImm .stm x
  | 0x30 => decodeBr x | 0x31 => ccJump .jmp x | 0x32 => ccJump .call x | 0x33 => accept (x == 0) true .ret
  | 0x40 => ccSys true false false 12 (fun d _ _ n => .sysrd d (BitVec.ofNat 12 n)) x
  | 0x41 => ccSys false true false 12 (fun _ a _ n => .syswr a (BitVec.ofNat 12 n)) x
  | 0x42 => ccSys true false false 0 (fun d _ _ _ => .dccrd d) x
  | 0x43 => ccSys false true false 6 (fun _ a _ n => .lcset a (BitVec.ofNat 6 n)) x
  | 0x44 => ccSys true false false 6 (fun d _ _ n => .lcrd d (BitVec.ofNat 6 n)) x
  | 0x45 => ccSys false false false 6 (fun _ _ _ n => .lcwait (BitVec.ofNat 6 n)) x
  | 0x46 => ccSys false false false 16 (fun _ _ _ n => .slack (BitVec.ofNat 16 n)) x
  | 0x47 => ccSys true true false 0 (fun d a _ _ => .arm d a) x
  | 0x48 => ccSys false true true 4 (fun _ a b n => .mpat a b (BitVec.ofNat 4 n)) x
  | 0x49 => ccSys true false false 2 (fun d _ _ n => .qprd d (BitVec.ofNat 2 n)) x
  | 0x4A => ccSys false true false 2 (fun _ a _ n => .qpwr a (BitVec.ofNat 2 n)) x
  | 0x4B => decodeFence x
  | 0x4C => decodeWatch x
  | 0x4D => ccSys false false false 16 (fun _ _ _ n => .trap (BitVec.ofNat 16 n)) x
  | 0x4E => ccSys false false false 0 (fun _ _ _ _ => .halt) x
  | 0x50 => ccSys false true false 6 (fun _ a _ n => .rload a (BitVec.ofNat 6 n)) x
  | 0x51 => ccSys false true true 6 (fun _ a b n => .rsplit a b (BitVec.ofNat 6 n)) x
  | 0x52 => ccSys false true false 6 (fun _ a _ n => .rmerge a (BitVec.ofNat 6 n)) x
  | 0x53 => ccSys false true false 0 (fun _ a _ _ => .rinv a) x
  | 0x54 => ccSys false true false 4 (fun _ a _ n => .yload a (BitVec.ofNat 4 n)) x
  | 0x55 => ccSys false false false 0 (fun _ _ _ _ => .eret) x
  | 0x56 => ccSys false false false 16 (fun _ _ _ n => .hvcall (BitVec.ofNat 16 n)) x
  | 0x57 => decodeRres x
  | 0x58 => ccSys false true true 12 (fun _ a b n => .rret a b (BitVec.ofNat 12 n)) x
  | op => decodeControl op x ext

-- CP formats -----------------------------------------------------------------------------------------------------------

/-- The moves (R194): MOD[1:0] DIM, [2] LCE, [3] CB of CPLD, [4] MEM of CPSET. `hi` are the bits above LCE. -/
def cpMove (f : MoveOps → Instr) (wf : MoveOps → Bool) (hi : Nat) (x : Nat) : Except Reject Instr :=
  let v := splitF lCpA x
  let m := splitF [6, 1, 2] (fld v 6)
  let o : MoveOps := ⟨r6 (fld v 0), r6 (fld v 1), r6 (fld v 2),
    if fld m 1 = 1 then some (BitVec.ofNat 6 (fld v 3)) else none, BitVec.ofNat 3 (fld v 4), BitVec.ofNat 2 (fld m 2)⟩
  accept (fld m 0 == hi && fld v 5 == 0 && (fld m 1 == 1 || fld v 3 == 0)) (wf o) (f o)

/-- CPGTH and CPSCT (R194): MOD[0] MEM, [1] ORB, [2] LCE, [3] DUP, [7:4] SY. -/
def cpIndex (f : IndexOps → Bool → Instr) (wf : IndexOps → Bool → Bool) (x : Nat) : Except Reject Instr :=
  let v := splitF lCpA x
  let m := splitF [1, 4, 1, 1, 1, 1] (fld v 6)
  let o : IndexOps := ⟨r6 (fld v 0), r6 (fld v 1), r6 (fld v 2),
    if fld m 3 = 1 then some (BitVec.ofNat 6 (fld v 3)) else none, BitVec.ofNat 3 (fld v 4), Ty.ofCode (fld v 5),
    fld m 5 == 1, if fld m 4 = 1 then some (BitVec.ofNat 4 (fld m 1)) else none⟩
  accept (fld m 0 == 0 && (fld m 3 == 1 || fld v 3 == 0) && (fld m 4 == 1 || fld m 1 == 0))
    (fld v 5 < 14 && wf o (fld m 2 == 1)) (f o (fld m 2 == 1))

def decodeCpld (x : Nat) : Except Reject Instr :=
  if x % 16 < 8 then cpMove .cpld MoveOps.wf 0 x else cpMove .cpldCb MoveOps.wfCast 1 x

def decodeCpset (x : Nat) : Except Reject Instr :=
  if x % 32 < 16 then cpMove (fun o => .cpset o false) MoveOps.wf 0 x
  else cpMove (fun o => .cpset o true) MoveOps.wf 2 x

def decodeCpdec (x : Nat) : Except Reject Instr :=
  let v := splitF lCpA x
  accept (fld v 3 == 0 && fld v 5 == 0 && fld v 6 == 0) (groupOk (r6 (fld v 2)) 2)
    (.cpdec (r6 (fld v 0)) (r6 (fld v 1)) (r6 (fld v 2)) (BitVec.ofNat 3 (fld v 4)))

def decodeCpfill (x : Nat) : Except Reject Instr :=
  let v := splitF lCpB x
  accept (fld v 3 == 0 && fld v 6 < 2 && (fld v 6 == 0 || fld v 4 == 0)) (fld v 5 < 14 && (Ty.ofCode (fld v 5)).inA)
    (.cpfill (r6 (fld v 0)) (r6 (fld v 1)) (BitVec.ofNat 5 (fld v 2)) (BitVec.ofNat 3 (fld v 4)) (Ty.ofCode (fld v 5))
      (fld v 6 == 1))

def decodeCppat (x : Nat) : Except Reject Instr :=
  let v := splitF lCpB x
  accept (fld v 2 < 8 && fld v 3 == 0 && fld v 5 == 0 && fld v 6 < 2 && (fld v 6 == 0 || fld v 4 == 0)) true
    (.cppat (r6 (fld v 0)) (r6 (fld v 1)) (BitVec.ofNat 3 (fld v 2)) (BitVec.ofNat 3 (fld v 4)) (fld v 6 == 1))

def decodeCpcbk (x : Nat) : Except Reject Instr :=
  let v := splitF lCpB x
  accept (fld v 2 < 4 && fld v 3 == 0 && fld v 5 == 0 && fld v 6 < 2 && (fld v 6 == 0 || fld v 4 == 0)) true
    (.cpcbk (r6 (fld v 0)) (r6 (fld v 1)) (BitVec.ofNat 2 (fld v 2)) (BitVec.ofNat 3 (fld v 4)) (fld v 6 == 1))

def decodeCpvq (x : Nat) : Except Reject Instr :=
  let v := splitF lCpB x
  let m := splitF [3, 2, 1, 6] (fld v 6)
  accept (fld v 3 == 0 && fld m 0 == 0 && (if fld m 2 = 1 then fld v 2 == 0 else fld v 1 == 0 && fld m 3 == 0))
    (fld v 5 < 14 && (Ty.ofCode (fld v 5)).inVq)
    (.cpvq (r6 (fld v 0)) (r6 (fld v 1)) (BitVec.ofNat 5 (fld v 2)) (BitVec.ofNat 3 (fld v 4)) (Ty.ofCode (fld v 5))
      (BitVec.ofNat 6 (fld m 3)) (fld m 2 == 1) (BitVec.ofNat 2 (fld m 1)))

def decodeCpexp (x : Nat) : Except Reject Instr :=
  let v := splitF lCpB x
  let m := splitF [5, 1, 3, 3] (fld v 6)
  accept (fld m 0 == 0 && (if fld m 1 = 1 then fld v 2 == 0 else fld v 1 == 0))
    (fld v 5 < 14 && groupOk (r6 (fld v 0)) 3)
    (.cpexp (r6 (fld v 0)) (r6 (fld v 1)) (BitVec.ofNat 5 (fld v 2)) (BitVec.ofNat 4 (fld v 3)) (BitVec.ofNat 3 (fld v 4))
      (Ty.ofCode (fld v 5)) (BitVec.ofNat 3 (fld m 3)) (BitVec.ofNat 3 (fld m 2)) (fld m 1 == 1))

def decodeCpfld (x : Nat) : Except Reject Instr :=
  let v := splitF lCpB x
  let m := splitF [6, 3, 3] (fld v 6)
  accept (fld v 2 < 16 && fld m 0 == 0) (fld v 5 < 14 && groupOk (r6 (fld v 0)) 3)
    (.cpfld (r6 (fld v 0)) (r6 (fld v 1)) (BitVec.ofNat 4 (fld v 2)) (BitVec.ofNat 4 (fld v 3)) (BitVec.ofNat 3 (fld v 4))
      (Ty.ofCode (fld v 5)) (BitVec.ofNat 3 (fld m 2)) (BitVec.ofNat 3 (fld m 1)))

/-- A CP-C command: which of SA, SC, LC and WIN, TYPE, and how many low bits of MOD it uses. -/
def cpEx (uA uC uL uT : Bool) (mod : Nat) (ok : Ty → Bool)
    (f : SReg → SReg → SReg → Nat → Nat → Ty → Nat → Instr) (x : Nat) : Except Reject Instr :=
  let v := splitF lCpC x
  accept ((uA || fld v 0 == 0) && (uC || fld v 2 == 0) && (uL || (fld v 3 == 0 && fld v 4 == 0)) && (uT || fld v 5 == 0) &&
      fld v 6 < 2 ^ mod)
    (!uT || (fld v 5 < 14 && ok (Ty.ofCode (fld v 5))))
    (f (r6 (fld v 0)) (r6 (fld v 1)) (r6 (fld v 2)) (fld v 3) (fld v 4) (Ty.ofCode (fld v 5)) (fld v 6))

def noTy (_ : Ty) : Bool := true

/-- The CP map (R145). -/
def decodeCp (op x ext : Nat) : Except Reject Instr :=
  match op with
  | 0x00 => decodeCpld x
  | 0x01 => cpMove .cpst MoveOps.wf 0 x
  | 0x02 => cpMove .cpmov MoveOps.wf 0 x
  | 0x03 => decodeCpset x
  | 0x04 => cpIndex (fun o _ => .cpgth o) (fun o d => o.wf && (o.sy.isNone || o.sa == 0) && !d) x
  | 0x05 => cpIndex .cpsct (fun o c => o.wf && (o.sy.isNone || o.sb == 0) && !(o.sy.isNone && c && o.ty == .nf)) x
  | 0x06 => decodeCpdec x
  | 0x10 => decodeCpfill x | 0x11 => decodeCppat x | 0x12 => decodeCpcbk x | 0x13 => decodeCpvq x
  | 0x14 => decodeCpexp x | 0x15 => decodeCpfld x
  | 0x20 => cpEx false true false false 0 noTy (fun _ b c _ _ _ _ => .cpcini b c) x
  | 0x21 => cpEx true true false true 4 Ty.inCell
      (fun a b c _ _ t m => .cpatom a b c t (BitVec.ofNat 3 m) (m / 8 == 1)) x
  | 0x22 => cpEx true false false true 4 Ty.inCell
      (fun a b _ _ _ t m => .cpcrd a b t (BitVec.ofNat 3 m) (m / 8 == 1)) x
  | 0x23 => cpEx true true true false 3 noTy
      (fun a b c l w _ m => .cpput a b c (BitVec.ofNat 6 l) (BitVec.ofNat 8 w) (BitVec.ofNat 3 m)) x
  | 0x24 => cpEx true true true false 0 noTy (fun a b c l w _ _ => .cpget a b c (BitVec.ofNat 6 l) (BitVec.ofNat 8 w)) x
  | 0x25 => cpEx true true false false 3 noTy (fun a b c _ _ _ m => .cpxsnd a b c (BitVec.ofNat 3 m)) x
  | 0x26 => cpEx true true false false 0 noTy (fun a b c _ _ _ _ => .cpxrcv a b c) x
  | 0x27 => cpEx true true false true 4 Ty.inRed (fun a b c _ _ t m => .cpxred a b c t (BitVec.ofNat 4 m)) x
  | op => decodeControl op x ext

-- VE formats -----------------------------------------------------------------------------------------------------------

/-- A VE-A command with two sources. -/
def veTwo (f : VOps → Rm → Instr) (ok : Ty → Rm → Bool) (x : Nat) : Except Reject Instr :=
  let v := splitF lVeA x
  let t := Ty.ofCode (fld v 5)
  let rm := Rm.ofCode (fld v 6)
  accept true (fld v 3 < 25 && fld v 5 < 14 && fld v 6 < 5 && ok t rm)
    (f ⟨r9 (fld v 0), r9 (fld v 1), r9 (fld v 2), Prd.ofCode (fld v 3), fld v 4 == 1, t⟩ rm)

/-- A VE-A command with one source; VB must be zero. -/
def veOne (f : VOps1 → Rm → Instr) (ok : Ty → Rm → Bool) (x : Nat) : Except Reject Instr :=
  let v := splitF lVeA x
  let t := Ty.ofCode (fld v 5)
  let rm := Rm.ofCode (fld v 6)
  accept (fld v 2 == 0) (fld v 3 < 25 && fld v 5 < 14 && fld v 6 < 5 && ok t rm)
    (f ⟨r9 (fld v 0), r9 (fld v 1), Prd.ofCode (fld v 3), fld v 4 == 1, t⟩ rm)

/-- No rounding mode: the field is zero. -/
def noRm (ok : Ty → Bool) (t : Ty) (rm : Rm) : Bool := ok t && rm == .rne
def fiRm (t : Ty) (rm : Rm) : Bool := t.inFI && rmOk t rm
def fsRm (t : Ty) (rm : Rm) : Bool := t.inFS && rmOk t rm
def fRm (t : Ty) (rm : Rm) : Bool := t.inF && rm != .rs
def anyTy (_ : Ty) : Bool := true

def decodeVcvt (x : Nat) : Except Reject Instr :=
  let v := splitF lVeA x
  let b := splitF [2, 3, 4] (fld v 2)
  let t := Ty.ofCode (fld v 5)
  let s := Ty.ofCode (fld b 2)
  let rm := Rm.ofCode (fld v 6)
  accept (fld b 0 == 0) (fld v 3 < 25 && fld v 5 < 14 && fld v 6 < 5 && fld b 2 < 14 && t.inA && s.inA && cvtRmOk t s rm)
    (.vcvt ⟨r9 (fld v 0), r9 (fld v 1), Prd.ofCode (fld v 3), fld v 4 == 1, t⟩ s (BitVec.ofNat 3 (fld b 1)) rm)

def cmpOk (t : Ty) (c : Cond) : Bool := t.inFI && (t.inF || (c != .un && c != .or))

def decodeVcmp (x : Nat) : Except Reject Instr :=
  let v := splitF lVeA x
  let t := Ty.ofCode (fld v 5)
  accept (fld v 0 < 16) (fld v 3 < 25 && fld v 5 < 14 && cmpOk t (Cond.ofCode (fld v 6)))
    (.vcmp (BitVec.ofNat 4 (fld v 0)) (r9 (fld v 1)) (r9 (fld v 2)) (Prd.ofCode (fld v 3)) (fld v 4 == 1) t
      (Cond.ofCode (fld v 6)))

def decodeVsel (x : Nat) : Except Reject Instr :=
  let v := splitF lVeA x
  let t := Ty.ofCode (fld v 5)
  accept (fld v 6 == 0) (fld v 3 < 16 && fld v 4 == 0 && fld v 5 < 14 && t.inA)
    (.vsel (r9 (fld v 0)) (r9 (fld v 1)) (r9 (fld v 2)) (BitVec.ofNat 4 (fld v 3)) t)

/-- VRAND and VIOTA: VD, predicate, Z, TYPE. -/
def veGen (f : VReg → Prd → Bool → Ty → Instr) (ok : Ty → Bool) (x : Nat) : Except Reject Instr :=
  let v := splitF lVeA x
  let t := Ty.ofCode (fld v 5)
  accept (fld v 1 == 0 && fld v 2 == 0 && fld v 6 == 0) (fld v 3 < 25 && fld v 5 < 14 && ok t)
    (f (r9 (fld v 0)) (Prd.ofCode (fld v 3)) (fld v 4 == 1) t)

def decodeVlog3 (x ext : Nat) : Except Reject Instr :=
  if 256 ≤ ext then .error .reserved
  else veTwo (fun o _ => .vlog3 o (BitVec.ofNat 8 ext)) (noRm anyTy) x

def decodeVfsh (x ext : Nat) : Except Reject Instr :=
  if 128 ≤ ext then .error .reserved
  else veTwo (fun o _ => .vfsh o (BitVec.ofNat 7 ext)) (noRm Ty.inI) x

def decodeVbcst (x : Nat) : Except Reject Instr :=
  let v := splitF lVeA x
  let t := Ty.ofCode (fld v 5)
  accept (fld v 2 < 128 && fld v 6 == 0) (fld v 3 < 25 && fld v 5 < 14 && t.inA)
    (.vbcst ⟨r9 (fld v 0), r9 (fld v 1), Prd.ofCode (fld v 3), fld v 4 == 1, t⟩ (BitVec.ofNat 7 (fld v 2)))

def decodeVstep (x : Nat) : Except Reject Instr :=
  let v := splitF lVeA x
  let b := splitF [1, 4, 4] (fld v 2)
  let t := Ty.ofCode (fld v 5)
  accept (fld b 0 == 0 && fld v 6 < 2) (fld v 3 == 24 && fld v 4 == 0 && fld v 5 < 14 && t.inA)
    (.vstep (r9 (fld v 0)) (r9 (fld v 1)) (BitVec.ofNat 4 (fld b 2)) (BitVec.ofNat 4 (fld b 1)) t (fld v 6 == 1))

/-- The mask instructions: VD, VA and VB name masks; PRD 24, Z 0. -/
def veMask (f : BitVec 4 → BitVec 4 → BitVec 4 → Instr) (two : Bool) (x : Nat) : Except Reject Instr :=
  let v := splitF lVeA x
  accept (fld v 0 < 16 && fld v 1 < 16 && (if two then fld v 2 < 16 else fld v 2 == 0) && fld v 5 == 0 && fld v 6 == 0)
    (fld v 3 == 24 && fld v 4 == 0)
    (f (BitVec.ofNat 4 (fld v 0)) (BitVec.ofNat 4 (fld v 1)) (BitVec.ofNat 4 (fld v 2)))

def decodeMpop (x : Nat) : Except Reject Instr :=
  let v := splitF lVeA x
  let t := Ty.ofCode (fld v 5)
  accept (fld v 1 < 16 && fld v 2 == 0 && fld v 6 == 0) (fld v 3 == 24 && fld v 4 == 0 && fld v 5 < 14 && t.inI)
    (.mpop (r9 (fld v 0)) (BitVec.ofNat 4 (fld v 1)) t)

def decodeKmsk (x : Nat) : Except Reject Instr :=
  let v := splitF lVeA x
  accept (fld v 0 < 8 && fld v 1 < 16 && fld v 2 == 0 && fld v 6 == 0) (fld v 3 == 24 && fld v 4 == 0 && fld v 5 < 14)
    (.kmsk (BitVec.ofNat 3 (fld v 0)) (BitVec.ofNat 4 (fld v 1)) (Ty.ofCode (fld v 5)))

def decodeKset (x : Nat) : Except Reject Instr :=
  let v := splitF lVeB x
  accept (fld v 0 < 8 && fld v 5 == 0 && fld v 6 == 0) (fld v 2 == 24 && fld v 3 == 0 && fld v 4 < 14)
    (.kset (BitVec.ofNat 3 (fld v 0)) (BitVec.ofNat 16 (fld v 1)) (Ty.ofCode (fld v 4)))

/-- A VE-B command. -/
def veImm (f : VImm → Nat → Instr) (ok : Ty → Nat → Bool) (x : Nat) : Except Reject Instr :=
  let v := splitF lVeB x
  let t := Ty.ofCode (fld v 4)
  accept (fld v 6 == 0) (fld v 2 < 25 && fld v 4 < 14 && ok t (fld v 5))
    (f ⟨r9 (fld v 0), BitVec.ofNat 16 (fld v 1), Prd.ofCode (fld v 2), fld v 3 == 1, t⟩ (fld v 5))

def immRm (t : Ty) (n : Nat) : Bool := n < 5 && fiRm t (Rm.ofCode n)
def immNo (ok : Ty → Bool) (t : Ty) (n : Nat) : Bool := ok t && n == 0
def immCmp (t : Ty) (n : Nat) : Bool := cmpOk t (Cond.ofCode n)

/-- VLD and VST (R133): `g` is the form with ORB set. -/
def veMem (f : VMem → Instr) (g : VMem → BitVec 4 → Instr) (x : Nat) : Except Reject Instr :=
  let v := splitF lVeC x
  let o : VMem := ⟨r9 (fld v 0), blkOfCode (fld v 1), r6 (fld v 2), BitVec.ofNat 3 (fld v 3), Prd.ofCode (fld v 4),
    fld v 5 == 1, Ty.ofCode (fld v 6)⟩
  accept (fld v 7 == 0 && (fld v 9 == 1 || fld v 8 == 0) && fld v 10 == 0) (fld v 1 < 6 && fld v 4 < 25 && fld v 6 < 14)
    (if fld v 9 = 1 then g o (BitVec.ofNat 4 (fld v 8)) else f o)

def decodeVcst (x : Nat) : Except Reject Instr :=
  let v := splitF lVeC x
  let t := Ty.ofCode (fld v 6)
  accept (fld v 2 == 0 && fld v 8 == 0 && fld v 9 == 0 && fld v 10 == 0)
    (fld v 1 < 6 && fld v 4 < 25 && fld v 6 < 14 && t.inA)
    (.vcst (r9 (fld v 0)) (blkOfCode (fld v 1)) (BitVec.ofNat 3 (fld v 3)) (Prd.ofCode (fld v 4)) (fld v 5 == 1) t
      (BitVec.ofNat 2 (fld v 7)))

/-- The VE map (R145). -/
def decodeVe (op x ext : Nat) : Except Reject Instr :=
  match op with
  | 0x00 => veTwo .vadd fiRm x | 0x01 => veTwo .vsub fiRm x | 0x02 => veTwo .vmul fiRm x | 0x03 => veTwo .vfma fiRm x
  | 0x04 => veTwo .vfms fiRm x | 0x05 => veOne .vneg fsRm x | 0x06 => veOne .vabs fsRm x | 0x07 => veTwo .vmin fiRm x
  | 0x08 => veTwo .vmax fiRm x | 0x09 => veTwo .vdiv fRm x | 0x0A => veOne .vsqrt fRm x | 0x0B => veOne .vrcp fRm x
  | 0x0C => veOne .vrsq fRm x | 0x0D => decodeVcvt x | 0x0E => decodeVcmp x | 0x0F => decodeVsel x
  | 0x10 => veOne (fun o _ => .vexp2 o) (noRm Ty.inSpecial) x | 0x11 => veOne (fun o _ => .vlog2 o) (noRm Ty.inSpecial) x
  | 0x12 => veOne (fun o _ => .vexp o) (noRm Ty.inSpecial) x | 0x13 => veOne (fun o _ => .vlog o) (noRm Ty.inSpecial) x
  | 0x14 => veOne (fun o _ => .vsinpi o) (noRm Ty.inSpecial) x | 0x15 => veOne (fun o _ => .vcospi o) (noRm Ty.inSpecial) x
  | 0x16 => veOne (fun o _ => .vtanh o) (noRm Ty.inSpecial) x | 0x17 => veGen .vrand Ty.inRand x
  | 0x18 => veOne (fun o _ => .vmov o) (noRm anyTy) x
  | 0x20 => veTwo (fun o _ => .vand o) (noRm anyTy) x | 0x21 => veTwo (fun o _ => .vor o) (noRm anyTy) x
  | 0x22 => veTwo (fun o _ => .vxor o) (noRm anyTy) x | 0x23 => decodeVlog3 x ext
  | 0x24 => veTwo (fun o _ => .vshl o) (noRm Ty.inI) x | 0x25 => veTwo (fun o _ => .vshr o) (noRm Ty.inI) x
  | 0x26 => veTwo (fun o _ => .vsar o) (noRm Ty.inI) x | 0x27 => decodeVfsh x ext
  | 0x28 => veOne (fun o _ => .vpopc o) (noRm Ty.inI) x | 0x29 => veOne (fun o _ => .vclz o) (noRm Ty.inI) x
  | 0x2A => veTwo (fun o _ => .vclmulLo o) (noRm Ty.inI) x | 0x2B => veTwo (fun o _ => .vclmulHi o) (noRm Ty.inI) x
  | 0x30 => veTwo (fun o _ => .vperm o) (noRm Ty.inA) x | 0x31 => decodeVbcst x | 0x32 => veGen .viota Ty.inI x
  | 0x33 => veOne .vredAdd fiRm x | 0x34 => veOne .vredMin fiRm x | 0x35 => veOne .vredMax fiRm x
  | 0x36 => veOne .vscanInc fiRm x | 0x37 => veOne .vscanExc fiRm x | 0x38 => decodeVstep x
  | 0x39 => veOne (fun o _ => .vcmpr o) (noRm Ty.inA) x
  | 0x40 => veMask .mand true x | 0x41 => veMask .mor true x | 0x42 => veMask .mxor true x
  | 0x43 => veMask (fun d a _ => .mnot d a) false x | 0x44 => decodeMpop x | 0x45 => decodeKmsk x
  | 0x50 => veImm (fun o _ => .vimm o) (immNo anyTy) x | 0x51 => decodeKset x
  | 0x52 => veImm (fun o n => .vaddImm o (Rm.ofCode n)) immRm x | 0x53 => veImm (fun o n => .vmulImm o (Rm.ofCode n)) immRm x
  | 0x54 => veImm (fun o n => .vminImm o (Rm.ofCode n)) immRm x | 0x55 => veImm (fun o n => .vmaxImm o (Rm.ofCode n)) immRm x
  | 0x56 => veImm (fun o _ => .vandImm o) (immNo anyTy) x | 0x57 => veImm (fun o _ => .vorImm o) (immNo anyTy) x
  | 0x58 => veImm (fun o _ => .vxorImm o) (immNo anyTy) x | 0x59 => veImm (fun o _ => .vshlImm o) (immNo Ty.inI) x
  | 0x5A => veImm (fun o _ => .vshrImm o) (immNo Ty.inI) x | 0x5B => veImm (fun o _ => .vsarImm o) (immNo Ty.inI) x
  | 0x5C => veImm (fun o n => .vcmpImm o (Cond.ofCode n)) immCmp x
  | 0x60 => veMem .vld .vldOrb x | 0x61 => veMem .vst .vstOrb x | 0x62 => decodeVcst x
  | op => decodeControl op x ext

-- CE formats -----------------------------------------------------------------------------------------------------------

/-- MCLM, MREL, MZERO and MTRN: which of TD, TS, CA they use. -/
def ceSlot (uD uS uA : Bool) (f : Nat → Nat → Nat → Instr) (x : Nat) : Except Reject Instr :=
  let v := splitF lCeA x
  accept ((uD || fld v 0 == 0) && (uS || fld v 1 == 0) && (uA || fld v 2 == 0) && fld v 3 == 0 && fld v 4 == 0 &&
      fld v 5 == 0 && fld v 6 == 0 && fld v 7 == 0 && fld v 8 == 0 && fld v 9 == 0 && fld v 10 == 0) true
    (f (fld v 0) (fld v 1) (fld v 2))

/-- MMA and MMAS: PM and KEEP are MMAS's own. -/
def ceMma (f : MmaOps → Nat → Nat → Instr) (sparse : Bool) (x : Nat) : Except Reject Instr :=
  let v := splitF lCeA x
  let t := Ty.ofCode (fld v 4)
  accept (fld v 1 == 0 && (sparse || (fld v 8 == 0 && fld v 9 == 0)) && fld v 10 == 0 && (!t.inF || fld v 7 == 0))
    (fld v 4 < 14 && t.inClass)
    (f ⟨BitVec.ofNat 4 (fld v 0), BitVec.ofNat 5 (fld v 2), BitVec.ofNat 5 (fld v 3), t, ReadMode.ofCode (fld v 5),
      ReadMode.ofCode (fld v 6), fld v 7 == 1⟩ (fld v 8) (fld v 9))

/-- MLDA and MSTA. -/
def ceMove (f : BitVec 4 → SReg → Blk → Run → Instr) (x : Nat) : Except Reject Instr :=
  let v := splitF lCeB x
  accept (fld v 0 == 0 && fld v 2 == 0 && fld v 3 == 0 && fld v 7 == 0 && fld v 8 == 0) (fld v 5 < 6)
    (f (BitVec.ofNat 4 (fld v 1)) (r6 (fld v 4)) (blkOfCode (fld v 5)) (BitVec.ofNat 3 (fld v 6)))

def decodeOcon (x : Nat) : Except Reject Instr :=
  let v := splitF lCeB x
  accept (fld v 1 == 0 && fld v 4 == 0 && fld v 5 == 0 && fld v 6 == 0 && fld v 8 == 0) (fld v 7 < 14)
    (.ocon (r9 (fld v 0)) (BitVec.ofNat 4 (fld v 2)) (BitVec.ofNat 4 (fld v 3)) (Ty.ofCode (fld v 7)))

def decodeOconp (x : Nat) : Except Reject Instr :=
  let v := splitF lCeB x
  accept (fld v 0 == 0 && fld v 1 == 0 && fld v 5 == 0 && fld v 6 == 0 && fld v 8 == 0) (fld v 7 < 14)
    (.oconp (BitVec.ofNat 4 (fld v 2)) (BitVec.ofNat 4 (fld v 3)) (r6 (fld v 4)) (Ty.ofCode (fld v 7)))

/-- The CE map (R145). -/
def decodeCe (op x ext : Nat) : Except Reject Instr :=
  match op with
  | 0x00 => ceSlot false false true (fun _ _ c => .mclm (BitVec.ofNat 5 c)) x
  | 0x01 => ceSlot false false true (fun _ _ c => .mrel (BitVec.ofNat 5 c)) x
  | 0x02 => ceSlot true false false (fun d _ _ => .mzero (BitVec.ofNat 4 d)) x
  | 0x03 => ceSlot true true false (fun d s _ => .mtrn (BitVec.ofNat 4 d) (BitVec.ofNat 4 s)) x
  | 0x04 => ceMma (fun o _ _ => .mma o) false x
  | 0x05 => ceMma (fun o p k => .mmas o (BitVec.ofNat 3 p) (k == 1)) true x
  | 0x10 => ceMove .mlda x | 0x11 => ceMove .msta x | 0x12 => decodeOcon x | 0x13 => decodeOconp x
  | op => decodeControl op x ext

/-- The operation of an opcode, operand field and operand extension word in a stream's map. -/
def decodeOp (st : Stream) (op x ext : Nat) : Except Reject Instr :=
  match st with
  | .cc => decodeCc op x ext
  | .cp => decodeCp op x ext
  | .ve => decodeVe op x ext
  | .ce => decodeCe op x ext

/-- The opcode has an operand extension word: LOOP, VLOG3, VFSH (R120). -/
def hasOperandExt (st : Stream) (op : Nat) : Bool := op == 0xF1 || (st == .ve && (op == 0x23 || op == 0x27))

/-- WAIT has an extension word (R120). -/
def hasWaitExt (wait : Nat) : Bool := wait == 0xFC || wait == 0xFE

/-- The words a command occupies, from its first word (R120). -/
def wordCount (st : Stream) (w : Nat) : Nat :=
  let v := splitF lWord w
  1 + (if hasWaitExt (fld v 0) then 1 else 0) + (if hasOperandExt st (fld v 6) then 1 else 0)

/-- Read a command from ring words (R118 to R120). -/
def decodeWords (st : Stream) (ws : List Nat) : Except Reject Cmd :=
  match ws with
  | [] => .error .short
  | w :: r =>
    let v := splitF lWord w
    let (e, r) := if hasWaitExt (fld v 0) then (r.head?, r.drop 1) else (none, r)
    let x := if hasOperandExt st (fld v 6) then r.headD 0 else 0
    if ws.length < wordCount st w then .error .short
    else
      match decodeOp st (fld v 6) (fld v 7) x with
      | .error e => .error e
      | .ok i =>
        if fld v 4 ≠ 0 then .error .reserved
        else .ok ⟨⟨BitVec.ofNat 8 (fld v 0), fld v 1 == 1, fld v 2 == 1, fld v 3 == 1, BitVec.ofNat 4 (fld v 5),
          e.map toWord⟩, i⟩

-- Encoding -------------------------------------------------------------------------------------------------------------

/-- Opcode, operand field and operand extension word. -/
abbrev Enc := Nat × Nat × Option Nat

def encA (op : Nat) (rd ra rb rc : SReg) : Enc := (op, joinF lCcA [rd.toNat, ra.toNat, rb.toNat, rc.toNat, 0], none)
def encB (op : Nat) (rd ra : SReg) (imm : Nat) : Enc := (op, joinF lCcB [rd.toNat, ra.toNat, imm], none)
def encD (op : Nat) (rd ra rb : SReg) (sel : Nat) : Enc := (op, joinF lCcD [rd.toNat, ra.toNat, rb.toNat, sel, 0], none)

def lcCode (lc : Option (BitVec 6)) : Nat := match lc with | some l => l.toNat | none => 0
def syCode (y : Option (BitVec 4)) : Nat := match y with | some l => l.toNat | none => 0

def encMove (op : Nat) (o : MoveOps) (hi : Nat) : Enc :=
  (op, joinF lCpA [o.sa.toNat, o.sb.toNat, o.sc.toNat, lcCode o.lc, o.run.toNat, 0,
    joinF [6, 1, 2] [hi, boolCode o.lc.isSome, o.dim.toNat]], none)

def encIndex (op : Nat) (o : IndexOps) (dup : Bool) : Enc :=
  (op, joinF lCpA [o.sa.toNat, o.sb.toNat, o.sc.toNat, lcCode o.lc, o.run.toNat, o.ty.code,
    joinF [1, 4, 1, 1, 1, 1] [0, syCode o.sy, boolCode dup, boolCode o.lc.isSome, boolCode o.sy.isSome, boolCode o.mem]], none)

def encCpB (op : Nat) (sa sb : SReg) (slot sy run ty mod : Nat) : Enc :=
  (op, joinF lCpB [sa.toNat, sb.toNat, slot, sy, run, ty, mod], none)
def encCpC (op : Nat) (sa sb sc : SReg) (lc win ty mod : Nat) : Enc :=
  (op, joinF lCpC [sa.toNat, sb.toNat, sc.toNat, lc, win, ty, mod], none)

def encVeA (op : Nat) (vd va vb : Nat) (p : Nat) (z : Bool) (t rm : Nat) (ext : Option Nat) : Enc :=
  (op, joinF lVeA [vd, va, vb, p, boolCode z, t, rm], ext)
def encV2 (op : Nat) (o : VOps) (rm : Rm) : Enc :=
  encVeA op o.vd.toNat o.va.toNat o.vb.toNat o.prd.code o.z o.ty.code rm.code none
def encV1 (op : Nat) (o : VOps1) (vb : Nat) (rm : Rm) : Enc :=
  encVeA op o.vd.toNat o.va.toNat vb o.prd.code o.z o.ty.code rm.code none
def encVi (op : Nat) (o : VImm) (rm : Nat) : Enc :=
  (op, joinF lVeB [o.vd.toNat, o.imm.toNat, o.prd.code, boolCode o.z, o.ty.code, rm, 0], none)
def encVm (op : Nat) (o : VMem) (sy : Option (BitVec 4)) : Enc :=
  (op, joinF lVeC [o.vd.toNat, o.blk.val, o.sa.toNat, o.run.toNat, o.prd.code, boolCode o.z, o.ty.code, 0, syCode sy,
    boolCode sy.isSome, 0], none)
def encCeA (op td ts ca cb ty rma rmb : Nat) (sat : Bool) (pm : Nat) (keep : Bool) : Enc :=
  (op, joinF lCeA [td, ts, ca, cb, ty, rma, rmb, boolCode sat, pm, boolCode keep, 0], none)
def encCeB (op row tile sya syb : Nat) (sr : SReg) (blk run ty : Nat) : Enc :=
  (op, joinF lCeB [row, tile, sya, syb, sr.toNat, blk, run, ty, 0], none)

/-- The opcode, operand field and extension word of an instruction that has an encoding. -/
def encodeOp : Instr → Option Enc
  | .add d a b => some (encA 0x00 d a b 0) | .sub d a b => some (encA 0x01 d a b 0) | .mul d a b => some (encA 0x02 d a b 0)
  | .mulh d a b => some (encA 0x03 d a b 0) | .mulhn d a b => some (encA 0x04 d a b 0) | .div d a b => some (encA 0x05 d a b 0)
  | .divn d a b => some (encA 0x06 d a b 0) | .rem d a b => some (encA 0x07 d a b 0) | .remn d a b => some (encA 0x08 d a b 0)
  | .and d a b => some (encA 0x09 d a b 0) | .or d a b => some (encA 0x0A d a b 0) | .xor d a b => some (encA 0x0B d a b 0)
  | .shl d a b => some (encA 0x0C d a b 0) | .shr d a b => some (encA 0x0D d a b 0) | .sar d a b => some (encA 0x0E d a b 0)
  | .sel d a b c => some (encA 0x0F d a b c)
  | .min d a b => some (encA 0x10 d a b 0) | .max d a b => some (encA 0x11 d a b 0) | .minn d a b => some (encA 0x12 d a b 0)
  | .maxn d a b => some (encA 0x13 d a b 0) | .seq d a b => some (encA 0x14 d a b 0) | .sne d a b => some (encA 0x15 d a b 0)
  | .slt d a b => some (encA 0x16 d a b 0) | .sltn d a b => some (encA 0x17 d a b 0) | .aadd d a b => some (encA 0x18 d a b 0)
  | .acas d a b c => some (encA 0x19 d a b c) | .aswp d a b => some (encA 0x1A d a b 0)
  | .patch a b => some (encA 0x1B 0 a b 0) | .fqpush a => some (encA 0x1C 0 a 0 0)
  | .addi d a i => some (encB 0x20 d a i.toNat) | .andi d a i => some (encB 0x21 d a i.toNat)
  | .ori d a i => some (encB 0x22 d a i.toNat) | .xori d a i => some (encB 0x23 d a i.toNat)
  | .shli d a i => some (encB 0x24 d a i.toNat) | .shri d a i => some (encB 0x25 d a i.toNat)
  | .sari d a i => some (encB 0x26 d a i.toNat) | .slti d a i => some (encB 0x27 d a i.toNat)
  | .lim d a i => some (encB 0x28 d a i.toNat) | .movi d i => some (encB 0x29 d 0 i.toNat)
  | .lds d a i => some (encB 0x2A d a i.toNat) | .sts d a i => some (encB 0x2B d a i.toNat)
  | .ldm d a i => some (encB 0x2C d a i.toNat) | .stm d a i => some (encB 0x2D d a i.toNat)
  | .br a n o j => some (0x30, joinF lCcC [a.toNat, boolCode n, 0, o.toNat, j.toNat], none)
  | .jmp o => some (0x31, joinF lCcC [0, 0, 0, o.toNat, 0], none)
  | .call o => some (0x32, joinF lCcC [0, 0, 0, o.toNat, 0], none)
  | .ret => some (0x33, 0, none)
  | .sysrd d n => some (encD 0x40 d 0 0 n.toNat) | .syswr a n => some (encD 0x41 0 a 0 n.toNat)
  | .dccrd d => some (encD 0x42 d 0 0 0) | .lcset a l => some (encD 0x43 0 a 0 l.toNat)
  | .lcrd d l => some (encD 0x44 d 0 0 l.toNat) | .lcwait l => some (encD 0x45 0 0 0 l.toNat)
  | .slack n => some (encD 0x46 0 0 0 n.toNat) | .arm d a => some (encD 0x47 d a 0 0)
  | .mpat a b n => some (encD 0x48 0 a b n.toNat) | .qprd d q => some (encD 0x49 d 0 0 q.toNat)
  | .qpwr a q => some (encD 0x4A 0 a 0 q.toNat) | .fence s => some (encD 0x4B 0 0 0 s.toNat)
  | .watchAdd a => some (encD 0x4C 0 a 0 0) | .watchClr => some (encD 0x4C 0 0 0 1)
  | .trap n => some (encD 0x4D 0 0 0 n.toNat) | .halt => some (encD 0x4E 0 0 0 0)
  | .rload a n => some (encD 0x50 0 a 0 n.toNat) | .rsplit a b n => some (encD 0x51 0 a b n.toNat)
  | .rmerge a n => some (encD 0x52 0 a 0 n.toNat) | .rinv a => some (encD 0x53 0 a 0 0)
  | .yload a y => some (encD 0x54 0 a 0 y.toNat) | .eret => some (encD 0x55 0 0 0 0)
  | .hvcall n => some (encD 0x56 0 0 0 n.toNat) | .rres a b n => some (encD 0x57 0 a b n.toNat)
  | .rresClear a b n => some (encD 0x57 0 a b (4096 + n.toNat)) | .rret a b n => some (encD 0x58 0 a b n.toNat)
  | .nop => some (0xF0, 0, none)
  | .loop i s b c m => some (0xF1, joinF lLoop [i.toNat, s.toNat, b.toNat, 0], some (joinF lLoopExt [c.toNat, m.toNat]))
  | .lend i => some (0xF2, joinF lId [i.toNat, 0], none)
  | .join d => some (0xF3, joinF lJoin [0, d.toNat], none)
  | .endStream => some (0xF4, 0, none)
  | .mark s => some (0xF5, joinF lId [s.toNat, 0], none)
  | .cpld o => some (encMove 0x00 o 0) | .cpldCb o => some (encMove 0x00 o 1) | .cpst o => some (encMove 0x01 o 0)
  | .cpmov o => some (encMove 0x02 o 0) | .cpset o m => some (encMove 0x03 o (if m then 2 else 0))
  | .cpgth o => some (encIndex 0x04 o false) | .cpsct o c => some (encIndex 0x05 o c)
  | .cpdec a b c r => some (0x06, joinF lCpA [a.toNat, b.toNat, c.toNat, 0, r.toNat, 0, 0], none)
  | .cpfill a b s r t m => some (encCpB 0x10 a b s.toNat 0 r.toNat t.code (boolCode m))
  | .cppat a b p r m => some (encCpB 0x11 a b p.toNat 0 r.toNat 0 (boolCode m))
  | .cpcbk a b k r m => some (encCpB 0x12 a b k.toNat 0 r.toNat 0 (boolCode m))
  | .cpvq a b s r t n sp k =>
    some (encCpB 0x13 a b s.toNat 0 r.toNat t.code (joinF [3, 2, 1, 6] [0, k.toNat, boolCode sp, n.toNat]))
  | .cpexp a b s y r t rd cd sp =>
    some (encCpB 0x14 a b s.toNat y.toNat r.toNat t.code (joinF [5, 1, 3, 3] [0, boolCode sp, cd.toNat, rd.toNat]))
  | .cpfld a b ti y r t rd cd =>
    some (encCpB 0x15 a b ti.toNat y.toNat r.toNat t.code (joinF [6, 3, 3] [0, cd.toNat, rd.toNat]))
  | .cpcini b c => some (encCpC 0x20 0 b c 0 0 0 0)
  | .cpatom a b c t r p => some (encCpC 0x21 a b c 0 0 t.code (8 * boolCode p + r.toNat))
  | .cpcrd a b t r w => some (encCpC 0x22 a b 0 0 0 t.code (8 * boolCode w + r.toNat))
  | .cpput a b c l w r => some (encCpC 0x23 a b c l.toNat w.toNat 0 r.toNat)
  | .cpget a b c l w => some (encCpC 0x24 a b c l.toNat w.toNat 0 0)
  | .cpxsnd a b c r => some (encCpC 0x25 a b c 0 0 0 r.toNat)
  | .cpxrcv a b c => some (encCpC 0x26 a b c 0 0 0 0)
  | .cpxred a b c t s => some (encCpC 0x27 a b c 0 0 t.code s.toNat)
  | .vadd o r => some (encV2 0x00 o r) | .vsub o r => some (encV2 0x01 o r) | .vmul o r => some (encV2 0x02 o r)
  | .vfma o r => some (encV2 0x03 o r) | .vfms o r => some (encV2 0x04 o r) | .vneg o r => some (encV1 0x05 o 0 r)
  | .vabs o r => some (encV1 0x06 o 0 r) | .vmin o r => some (encV2 0x07 o r) | .vmax o r => some (encV2 0x08 o r)
  | .vdiv o r => some (encV2 0x09 o r) | .vsqrt o r => some (encV1 0x0A o 0 r) | .vrcp o r => some (encV1 0x0B o 0 r)
  | .vrsq o r => some (encV1 0x0C o 0 r)
  | .vcvt o s p r => some (encV1 0x0D o (joinF [2, 3, 4] [0, p.toNat, s.code]) r)
  | .vcmp m a b p z t c => some (encVeA 0x0E m.toNat a.toNat b.toNat p.code z t.code c.code none)
  | .vsel d a b m t => some (encVeA 0x0F d.toNat a.toNat b.toNat m.toNat false t.code 0 none)
  | .vexp2 o => some (encV1 0x10 o 0 .rne) | .vlog2 o => some (encV1 0x11 o 0 .rne) | .vexp o => some (encV1 0x12 o 0 .rne)
  | .vlog o => some (encV1 0x13 o 0 .rne) | .vsinpi o => some (encV1 0x14 o 0 .rne) | .vcospi o => some (encV1 0x15 o 0 .rne)
  | .vtanh o => some (encV1 0x16 o 0 .rne)
  | .vrand d p z t => some (encVeA 0x17 d.toNat 0 0 p.code z t.code 0 none)
  | .vmov o => some (encV1 0x18 o 0 .rne)
  | .vand o => some (encV2 0x20 o .rne) | .vor o => some (encV2 0x21 o .rne) | .vxor o => some (encV2 0x22 o .rne)
  | .vlog3 o t => some (encVeA 0x23 o.vd.toNat o.va.toNat o.vb.toNat o.prd.code o.z o.ty.code 0 (some t.toNat))
  | .vshl o => some (encV2 0x24 o .rne) | .vshr o => some (encV2 0x25 o .rne) | .vsar o => some (encV2 0x26 o .rne)
  | .vfsh o n => some (encVeA 0x27 o.vd.toNat o.va.toNat o.vb.toNat o.prd.code o.z o.ty.code 0 (some n.toNat))
  | .vpopc o => some (encV1 0x28 o 0 .rne) | .vclz o => some (encV1 0x29 o 0 .rne)
  | .vclmulLo o => some (encV2 0x2A o .rne) | .vclmulHi o => some (encV2 0x2B o .rne)
  | .vperm o => some (encV2 0x30 o .rne) | .vbcst o l => some (encV1 0x31 o l.toNat .rne)
  | .viota d p z t => some (encVeA 0x32 d.toNat 0 0 p.code z t.code 0 none)
  | .vredAdd o r => some (encV1 0x33 o 0 r) | .vredMin o r => some (encV1 0x34 o 0 r) | .vredMax o r => some (encV1 0x35 o 0 r)
  | .vscanInc o r => some (encV1 0x36 o 0 r) | .vscanExc o r => some (encV1 0x37 o 0 r)
  | .vstep d a j k t s =>
    some (encVeA 0x38 d.toNat a.toNat (joinF [1, 4, 4] [0, k.toNat, j.toNat]) 24 false t.code (boolCode s) none)
  | .vcmpr o => some (encV1 0x39 o 0 .rne)
  | .mand d a b => some (encVeA 0x40 d.toNat a.toNat b.toNat 24 false 0 0 none)
  | .mor d a b => some (encVeA 0x41 d.toNat a.toNat b.toNat 24 false 0 0 none)
  | .mxor d a b => some (encVeA 0x42 d.toNat a.toNat b.toNat 24 false 0 0 none)
  | .mnot d a => some (encVeA 0x43 d.toNat a.toNat 0 24 false 0 0 none)
  | .mpop d a t => some (encVeA 0x44 d.toNat a.toNat 0 24 false t.code 0 none)
  | .kmsk k a t => some (encVeA 0x45 k.toNat a.toNat 0 24 false t.code 0 none)
  | .vimm o => some (encVi 0x50 o 0)
  | .kset k i t => some (0x51, joinF lVeB [k.toNat, i.toNat, 24, 0, t.code, 0, 0], none)
  | .vaddImm o r => some (encVi 0x52 o r.code) | .vmulImm o r => some (encVi 0x53 o r.code)
  | .vminImm o r => some (encVi 0x54 o r.code) | .vmaxImm o r => some (encVi 0x55 o r.code)
  | .vandImm o => some (encVi 0x56 o 0) | .vorImm o => some (encVi 0x57 o 0) | .vxorImm o => some (encVi 0x58 o 0)
  | .vshlImm o => some (encVi 0x59 o 0) | .vshrImm o => some (encVi 0x5A o 0) | .vsarImm o => some (encVi 0x5B o 0)
  | .vcmpImm o c => some (encVi 0x5C o c.code)
  | .vld o => some (encVm 0x60 o none) | .vldOrb o y => some (encVm 0x60 o (some y))
  | .vst o => some (encVm 0x61 o none) | .vstOrb o y => some (encVm 0x61 o (some y))
  | .vcst d b r p z t q =>
    some (0x62, joinF lVeC [d.toNat, b.val, 0, r.toNat, p.code, boolCode z, t.code, q.toNat, 0, 0, 0], none)
  | .mclm c => some (encCeA 0x00 0 0 c.toNat 0 0 0 0 false 0 false)
  | .mrel c => some (encCeA 0x01 0 0 c.toNat 0 0 0 0 false 0 false)
  | .mzero d => some (encCeA 0x02 d.toNat 0 0 0 0 0 0 false 0 false)
  | .mtrn d s => some (encCeA 0x03 d.toNat s.toNat 0 0 0 0 0 false 0 false)
  | .mma o => some (encCeA 0x04 o.td.toNat 0 o.ca.toNat o.cb.toNat o.ty.code o.rma.code o.rmb.code o.sat 0 false)
  | .mmas o p k => some (encCeA 0x05 o.td.toNat 0 o.ca.toNat o.cb.toNat o.ty.code o.rma.code o.rmb.code o.sat p.toNat k)
  | .mlda t r b n => some (encCeB 0x10 0 t.toNat 0 0 r b.val n.toNat 0)
  | .msta t r b n => some (encCeB 0x11 0 t.toNat 0 0 r b.val n.toNat 0)
  | .ocon r a b t => some (encCeB 0x12 r.toNat 0 a.toNat b.toNat 0 0 0 t.code)
  | .oconp a b r t => some (encCeB 0x13 0 0 a.toNat b.toNat r 0 0 t.code)
  | _ => none

/-- The map an instruction stands in; stream-control commands stand in every map, cc taken here. -/
def streamOf : Instr → Stream
  | .cpld _ | .cpldCb _ | .cpst _ | .cpmov _ | .cpset _ _ | .cpgth _ | .cpsct _ _ | .cpdec _ _ _ _
  | .cpfill _ _ _ _ _ _ | .cppat _ _ _ _ _ | .cpcbk _ _ _ _ _ | .cpvq _ _ _ _ _ _ _ _ | .cpexp _ _ _ _ _ _ _ _ _
  | .cpfld _ _ _ _ _ _ _ _ | .cpcini _ _ | .cpatom _ _ _ _ _ _ | .cpcrd _ _ _ _ _ | .cpput _ _ _ _ _ _
  | .cpget _ _ _ _ _ | .cpxsnd _ _ _ _ | .cpxrcv _ _ _ | .cpxred _ _ _ _ _ => .cp
  | .mclm _ | .mrel _ | .mzero _ | .mtrn _ _ | .mma _ | .mmas _ _ _ | .mlda _ _ _ _ | .msta _ _ _ _ | .ocon _ _ _ _
  | .oconp _ _ _ _ => .ce
  | .vadd _ _ | .vsub _ _ | .vmul _ _ | .vfma _ _ | .vfms _ _ | .vneg _ _ | .vabs _ _ | .vmin _ _ | .vmax _ _
  | .vdiv _ _ | .vsqrt _ _ | .vrcp _ _ | .vrsq _ _ | .vcvt _ _ _ _ | .vcmp _ _ _ _ _ _ _ | .vsel _ _ _ _ _ | .vexp2 _
  | .vlog2 _ | .vexp _ | .vlog _ | .vsinpi _ | .vcospi _ | .vtanh _ | .vrand _ _ _ _ | .vmov _ | .vand _ | .vor _ | .vxor _
  | .vlog3 _ _ | .vshl _ | .vshr _ | .vsar _ | .vfsh _ _ | .vpopc _ | .vclz _ | .vclmulLo _ | .vclmulHi _ | .vperm _
  | .vbcst _ _ | .viota _ _ _ _ | .vredAdd _ _ | .vredMin _ _ | .vredMax _ _ | .vscanInc _ _ | .vscanExc _ _
  | .vstep _ _ _ _ _ _ | .vcmpr _ | .mand _ _ _ | .mor _ _ _ | .mxor _ _ _ | .mnot _ _ | .mpop _ _ _ | .kmsk _ _ _
  | .vimm _ | .kset _ _ _ | .vaddImm _ _ | .vmulImm _ _ | .vminImm _ _ | .vmaxImm _ _ | .vandImm _ | .vorImm _ | .vxorImm _
  | .vshlImm _ | .vshrImm _ | .vsarImm _ | .vcmpImm _ _ | .vld _ | .vldOrb _ _ | .vst _ | .vstOrb _ _
  | .vcst _ _ _ _ _ _ _ => .ve
  | _ => .cc

/-- The words of a command: command word, WAIT extension, operand extension (R118 to R120); none without an encoding. -/
def encodeCmd (c : Cmd) : Option (List Nat) :=
  match encodeOp c.instr with
  | none => none
  | some (op, x, ext) =>
    let h := c.hdr
    let w := joinF lWord [h.wait.toNat, boolCode h.trc, boolCode h.ibd, boolCode h.cmp, 0, h.evt.toNat, op, x]
    let we := if hasWaitExt h.wait.toNat then [match h.ext with | some e => e.toNat | none => 0] else []
    some (w :: we ++ (match ext with | some e => [e] | none => []))

/-- A header whose WAIT extension word is there exactly when WAIT calls for it (R120). -/
def Header.wf (h : Header) : Bool := h.ext.isSome == hasWaitExt h.wait.toNat

/-- Try the four maps in stream-code order. -/
def decodeAny (ws : List Nat) : Option (Stream × Cmd) :=
  match decodeWords .cc ws with
  | .ok c => some (.cc, c)
  | .error _ =>
    match decodeWords .cp ws with
    | .ok c => some (.cp, c)
    | .error _ =>
      match decodeWords .ve ws with
      | .ok c => some (.ve, c)
      | .error _ =>
        match decodeWords .ce ws with
        | .ok c => some (.ce, c)
        | .error _ => none

/-- The ring words of an instruction given as one number: the first 64 bits are the command word, three words at most. -/
def tableWords (w : Nat) : List Nat := [w % 2 ^ 64, w / 2 ^ 64 % 2 ^ 64, w / 2 ^ 128 % 2 ^ 64]

/-- The instruction the decoder reads from an instruction whose bits are `w`; the bits above `nbits` are 0. The table gives
no word an opcode map, so the maps are tried in stream-code order (log 10). -/
def decodeTableWord (nbits w : Nat) : Option Instr := (decodeAny (tableWords (w % 2 ^ nbits))).map (fun p => p.2.instr)

end Sys2Proof
end

