-- ==== Sys2Proof/Config.lean ====
section
/-! DEFINITION. What is fixed for the machine (counts and latencies of R7, R92, R102, R104) and the free values: constants
without a body, so that no proof can see what they are. -/

namespace Sys2Proof.Config

/-- Cores of one package (R7, R9). -/
def coresPerPackage : Nat := 640
/-- Physical addresses are 39 bits (R268). -/
def physBits : Nat := 39
/-- The rate credit's start value and cap, in granules of 64 bytes (R104). -/
def creditCap : Nat := 768
/-- The unit of the region's RATE: 2^-24 granules per local clock (R297). -/
def creditUnit : Nat := 2 ^ 24
/-- Device memory: sampled at issue + 1,279, landed at issue + 1,280 (R102). -/
def memLatency : Nat := 1280
/-- An ARM or MPAT reaches the hub at issue + 96 (R177, R178). -/
def hubReach : Nat := 96
/-- Fetch precedes issue by 16 cycles (R24). -/
def fetchLead : Nat := 16
/-- Entries that fit a core's slot of the checkpoint area (R310, R369). -/
def slotEntries : Nat := 4096

/-- FREE VALUE (log 7): how many local clocks the memory side takes to serve a request, by the request's ordinal number
(R104 gives the rule of the limit of 768 and no serving time). -/
opaque memServe : Nat → Nat

/-- FREE VALUE (log 8): whether a signature of 512 bytes by the given key is valid for a SHA-512 digest (R359, R361 name
RSA-4096 and no padding). -/
opaque rsaVerify : (key digest signature : Nat) → Bool

/-- FREE VALUE (log 8): the device key's signature of a report's SHA-512 digest (R362). -/
opaque deviceSign : (digest : Nat) → Nat

/-- FREE VALUE (log 57): whether the hypervisor takes an HVCALL of a code, with the caller's scalar registers, for a system-image event
(R360), and then the register among MEAS5 to MEAS14, the image version and the digest (R191 and R360 give the path and no call). -/
opaque hvEvent : (code : Nat) → (regs : List (Nat × Word)) → Option (Nat × Nat × List Byte)

/-- A core of a pour image (R300, R304): the four ring registers and seeds in stream-code order, scratchpad bytes, symmetry
entries by number, pattern and codebook rows by number; how many parameter words its .mould gives (R158). -/
structure CoreImage where
  rings : List Word
  seeds : List Word
  spad : List (Nat × Byte)
  sy : List (Nat × BitVec 512)
  pm : List (Nat × Row)
  cb : List (Nat × Row)
  params : Nat
  deriving DecidableEq, Repr

/-- FREE VALUE (log 11): the pour image that a package's device memory holds at an address, in domain-relative order; `none`
where it holds none. The spec gives what an image provides (R300, R304) and no byte layout of it. -/
opaque pourImage : (mem : List (Nat × Byte)) → (key : Nat) → Option (List CoreImage)

/-- FREE VALUE (log 9): the value of a 64-bit quantity that the spec leaves open, by a counter of State. -/
opaque freeWord : Nat → Word

end Sys2Proof.Config
end

