-- ==== Sys2Proof/Machine/Num.lean ====
section
/-! DEFINITION. Number formats and the one rounding (R28-R44, R51): exact values, decoding a code, encoding a value under a
rounding mode with the flags it raises. -/

namespace Sys2Proof.Machine

/-- An exact value: a NaN (signalling or not), an infinity, or (-1)^neg * m * 2^e; m = 0 is a signed zero. -/
inductive Num where
  | nan (sig : Bool)
  | inf (neg : Bool)
  | fin (neg : Bool) (m : Nat) (e : Int)
  deriving DecidableEq, Repr

/-- The five sticky flags of R47, as bits INV 0, OVF 1, UFL 2, INX 3, SAT 4. -/
abbrev Flags := Nat
def fINV : Flags := 1
def fOVF : Flags := 2
def fUFL : Flags := 4
def fINX : Flags := 8
def fSAT : Flags := 16

/-- A number format: code width, sign, exponent width, mantissa width, bias and specials policy (R34-R37). The four standard
formats are formats of policy 2 with a sign (R28, R29). -/
structure Fmt where
  wid : Nat
  sgn : Bool
  ebits : Nat
  mbits : Nat
  bias : Int
  spec : Nat
  deriving DecidableEq, Repr

def fmtF64 : Fmt := ⟨64, true, 11, 52, 1023, 2⟩
def fmtF32 : Fmt := ⟨32, true, 8, 23, 127, 2⟩
def fmtF16 : Fmt := ⟨16, true, 5, 10, 15, 2⟩
def fmtBf16 : Fmt := ⟨16, true, 8, 7, 127, 2⟩

/-- The fields of a narrow format descriptor (R34). -/
def nfFmt (d : Nat) : Fmt :=
  let w := bits d 0 4
  let s := bits d 4 1
  let e := bits d 5 3
  ⟨w, s == 1, e, w - s - e, asSigned 8 (bits d 8 8), bits d 16 2⟩

/-- The scale of a narrow format descriptor (R34, R39). -/
def nfScale (d : Nat) : Int := asSigned 8 (bits d 18 8)

/-- A descriptor is valid (R35). -/
def nfValid (d : Nat) : Bool :=
  let w := bits d 0 4
  let s := bits d 4 1
  let e := bits d 5 3
  let sp := bits d 16 2
  d / 2 ^ 26 == 0 && 2 ≤ w && w ≤ 8 && s + e ≤ w && sp != 3 &&
    (e != 0 || sp ≤ 1) && (sp != 2 || (2 ≤ e && s + e + 1 ≤ w))

/-- The width in bits of a lane of the type, nf and b1 counted as 8 (R123, R218). -/
def Ty.bits : Ty → Nat
  | .f64 => 64 | .f32 => 32 | .f16 => 16 | .bf16 => 16 | .nf => 8 | .i64 => 64 | .i32 => 32 | .i16 => 16 | .i8 => 8
  | .n64 => 64 | .n32 => 32 | .n16 => 16 | .n8 => 8 | .b1 => 8

/-- The element size in bytes (R72). -/
def Ty.size (t : Ty) : Nat := Ty.bits t / 8

/-- The lane count of a row (R218). -/
def Ty.lanes (t : Ty) : Nat := 1024 / Ty.bits t

def Ty.isFloat : Ty → Bool
  | .f64 | .f32 | .f16 | .bf16 | .nf => true
  | _ => false

def Ty.isSigned : Ty → Bool
  | .i64 | .i32 | .i16 | .i8 => true
  | _ => false

/-- Codes 5 to 12 (R226). -/
def Ty.isInt : Ty → Bool
  | .i64 | .i32 | .i16 | .i8 | .n64 | .n32 | .n16 | .n8 => true
  | _ => false

/-- The format of a floating type; `d` is the descriptor in force for nf. -/
def fmtOf (t : Ty) (d : Nat) : Fmt :=
  match t with
  | .f64 => fmtF64
  | .f32 => fmtF32
  | .f16 => fmtF16
  | .bf16 => fmtBf16
  | _ => nfFmt d

/-- 2^ebits - 1: the exponent field of all ones. -/
def Fmt.eTop (f : Fmt) : Nat := 2 ^ f.ebits - 1

/-- The value of exponent field E and fraction F (R36). -/
def Fmt.magOf (f : Fmt) (E F : Nat) : Nat × Int :=
  if E = 0 then (F, 1 - f.bias - f.mbits) else (2 ^ f.mbits + F, (E : Int) - f.bias - f.mbits)

/-- The exponent and fraction code of the largest finite magnitude (R37), for EXP ≥ 1. The format of WID 2 with SGN 1, EXP 1 and SPEC 1
has no positive finite value; its range ends are taken as 0 (log 89). -/
def Fmt.topCode (f : Fmt) : Nat :=
  match f.spec with
  | 0 => 2 ^ (f.ebits + f.mbits) - 1
  | 1 => 2 ^ (f.ebits + f.mbits) - 2
  | _ => f.eTop * 2 ^ f.mbits - 1

/-- The largest and least integers of an EXP = 0 grid (R36, R37). -/
def Fmt.gridMax (f : Fmt) : Int :=
  if f.sgn then 2 ^ (f.wid - 1) - 1 else if f.spec = 1 then 2 ^ f.wid - 2 else 2 ^ f.wid - 1
def Fmt.gridMin (f : Fmt) : Int :=
  if f.sgn then (if f.spec = 1 then -(2 ^ (f.wid - 1) - 1) else -(2 ^ (f.wid - 1))) else 0

/-- The canonical NaN code (R30, R37); +0 under policy 0, which has none. -/
def Fmt.nanCode (f : Fmt) : Nat :=
  match f.spec with
  | 0 => 0
  | 1 => if f.ebits = 0 then (if f.sgn then 2 ^ (f.wid - 1) else 2 ^ f.wid - 1) else 2 ^ (f.ebits + f.mbits) - 1
  | _ => f.eTop * 2 ^ f.mbits + 2 ^ (f.mbits - 1)

/-- The sign bit as a code, where the format has one. -/
def Fmt.signCode (f : Fmt) (neg : Bool) : Nat := if neg && f.sgn then 2 ^ (f.wid - 1) else 0

/-- A code's value (R29, R36, R37); bits above the width are ignored. -/
def decodeNum (f : Fmt) (code : Nat) : Num :=
  let c := code % 2 ^ f.wid
  if f.ebits = 0 then
    if f.spec = 1 && c == f.nanCode then .nan false
    else
      let i : Int := if f.sgn then asSigned f.wid c else c
      .fin (i < 0) i.natAbs (-f.bias)
  else
    let neg := f.sgn && c / 2 ^ (f.wid - 1) == 1
    let E := bits c f.mbits f.ebits
    let F := c % 2 ^ f.mbits
    if E = f.eTop && f.spec = 2 then
      if F = 0 then .inf neg else .nan (F / 2 ^ (f.mbits - 1) == 0)
    else if E = f.eTop && f.spec = 1 && F = 2 ^ f.mbits - 1 then .nan false
    else
      let (m, e) := f.magOf E F
      .fin neg m e

/-- Whether a magnitude with remainder `r` over `d` (0 ≤ r < d) below it steps up under the mode (R41, R42). `rs` never
reaches this operation: R44 rounds by itself. -/
def stepUp (rm : Rm) (neg odd : Bool) (r d : Nat) : Bool :=
  match rm with
  | .rne => 2 * r > d || (2 * r == d && odd)
  | .rz | .rs => false
  | .ru => r != 0 && !neg
  | .rd => r != 0 && neg

/-- n/d * 2^s rounded to an integer magnitude, and whether it was inexact; `odd` tells whether the lower neighbour of a tie has
an odd code. -/
def roundRatBy (odd : Nat → Bool) (rm : Rm) (neg : Bool) (n d : Nat) (s : Int) : Nat × Bool :=
  let n' := if s ≥ 0 then n * 2 ^ s.toNat else n
  let d' := if s ≥ 0 then d else d * 2 ^ (-s).toNat
  let q := n' / d'
  let r := n' % d'
  (if stepUp rm neg (odd q) r d' then q + 1 else q, r != 0)

/-- The same where the magnitude is its own code. -/
def roundRat (rm : Rm) (neg : Bool) (n d : Nat) (s : Int) : Nat × Bool := roundRatBy (fun q => q % 2 == 1) rm neg n d s

/-- Is the code of magnitude `M` at exponent field `E` odd? With a fraction it is so when `M` is; with none (m = 0) the code of a
nonzero magnitude is its exponent field (R36), and ties go to the even code (R38). -/
def Fmt.oddCode (f : Fmt) (E : Int) (M : Nat) : Bool := if f.mbits = 0 then M != 0 && E % 2 == 1 else M % 2 == 1

/-- floor(log2 (n/d)) for n, d > 0. -/
def ilog2Rat (n d : Nat) : Int :=
  let k : Int := (n.log2 : Int) - d.log2
  let lt := if k ≥ 0 then n < d * 2 ^ k.toNat else n * 2 ^ (-k).toNat < d
  if lt then k - 1 else k

/-- m1 * 2^e1 > m2 * 2^e2. -/
def magGt (m1 : Nat) (e1 : Int) (m2 : Nat) (e2 : Int) : Bool :=
  let e := min e1 e2
  m1 * 2 ^ (e1 - e).toNat > m2 * 2 ^ (e2 - e).toNat

/-- The range end of the value's own sign (R37), as a code. -/
def Fmt.rangeEnd (f : Fmt) (neg : Bool) : Nat :=
  if f.ebits = 0 then ((if neg then f.gridMin else f.gridMax) % 2 ^ f.wid).toNat
  else if neg && !f.sgn then 0
  else f.topCode + f.signCode neg

/-- What a magnitude beyond the format gives under the mode (R37, R43). -/
def Fmt.overflow (f : Fmt) (neg : Bool) (rm : Rm) : Nat × Flags :=
  if f.spec = 2 then
    let toInf := match rm with | .rne => true | .ru => !neg | .rd => neg | _ => false
    ((if toInf then f.eTop * 2 ^ f.mbits else f.topCode) + f.signCode neg, fOVF + fINX)
  else (f.rangeEnd neg, fSAT + fINX)

/-- The exact magnitude n/d * 2^s with a sign, rounded once into the format (R28, R38, R43). -/
def roundInto (f : Fmt) (rm : Rm) (neg : Bool) (n d : Nat) (s : Int) : Nat × Flags :=
  if n = 0 then (if f.ebits = 0 then 0 else f.signCode neg, 0)
  else if f.ebits = 0 then
    let (q, inx) := roundRat rm neg n d (s + f.bias)
    let i : Int := if neg then -(q : Int) else q
    if i > f.gridMax then (f.rangeEnd false, fSAT + fINX)
    else if i < f.gridMin then (f.rangeEnd true, fSAT + fINX)
    else ((i % 2 ^ f.wid).toNat, if inx then (if q = 0 then fINX + fUFL else fINX) else 0)
  else
    let emin : Int := 1 - f.bias
    let k := ilog2Rat n d + s
    let q := max k emin - f.mbits
    let (M, inx) := roundRatBy (f.oddCode (q + f.mbits + f.bias)) rm neg n d (s - q)
    -- with its exponent unbounded the value would have exponent field k + BIAS
    let wide := (roundRatBy (f.oddCode (k + f.bias)) rm neg n d (s - k + f.mbits)).1
    let tiny := k < emin && (wide < 2 ^ (f.mbits + 1) || k < emin - 1)
    let fl := if inx then (if tiny then fINX + fUFL else fINX) else 0
    if neg && !f.sgn then (if M = 0 then (0, fl) else (0, fSAT + fINX))
    else
      let (tm, te) := f.magOf (f.topCode / 2 ^ f.mbits) (f.topCode % 2 ^ f.mbits)
      if magGt M q tm te then f.overflow neg rm
      else
        let code := if M < 2 ^ f.mbits then M else ((q + f.mbits + f.bias).toNat) * 2 ^ f.mbits + (M - 2 ^ f.mbits)
        (code + f.signCode neg, fl)

/-- Round(x, fmt, mode) of R6: any value written into a format (R28, R31, R37, R38). A signalling NaN sets invalid here, and
so does any NaN written under policy 0. -/
def encodeNum (f : Fmt) (rm : Rm) (x : Num) : Nat × Flags :=
  match x with
  | .nan sig => (f.nanCode, if sig || f.spec = 0 then fINV else 0)
  | .inf neg =>
    if neg && !f.sgn then (0, fSAT + fINX)
    else if f.spec = 2 then (f.eTop * 2 ^ f.mbits + f.signCode neg, 0)
    else (f.rangeEnd neg, fSAT + fINX)
  | .fin neg m e => roundInto f rm neg m 1 e

/-- The value of an operation that is invalid in itself (R31): its encoding gives the canonical NaN and sets invalid. -/
def invalidNum : Num := .nan true

def Num.isNan : Num → Bool
  | .nan _ => true
  | _ => false
def Num.isSig : Num → Bool
  | .nan s => s
  | _ => false
def Num.isInf : Num → Bool
  | .inf _ => true
  | _ => false
def Num.isZero : Num → Bool
  | .fin _ m _ => m == 0
  | _ => false
def Num.isNeg : Num → Bool
  | .inf n => n
  | .fin n _ _ => n
  | .nan _ => false

/-- The exact negative; a NaN stays (R80). -/
def Num.neg : Num → Num
  | .nan s => .nan s
  | .inf n => .inf (!n)
  | .fin n m e => .fin (!n) m e

/-- x * 2^k exactly (R39). -/
def Num.scale (x : Num) (k : Int) : Num :=
  match x with
  | .fin n m e => .fin n m (e + k)
  | y => y

/-- The exact product (R31). -/
def Num.mul (x y : Num) : Num :=
  match x, y with
  | .nan a, .nan b => .nan (a || b)
  | .nan a, _ => .nan a
  | _, .nan b => .nan b
  | .inf a, .inf b => .inf (a != b)
  | .inf a, .fin b m _ => if m = 0 then invalidNum else .inf (a != b)
  | .fin a m _, .inf b => if m = 0 then invalidNum else .inf (a != b)
  | .fin a m e, .fin b m' e' => .fin (a != b) (m * m') (e + e')

/-- A finite value as an integer multiple of 2^e0, where e0 is at most its exponent. -/
def Num.toIntAt (e0 : Int) : Num → Int
  | .fin n m e => if n then -((m * 2 ^ (e - e0).toNat : Nat) : Int) else ((m * 2 ^ (e - e0).toNat : Nat) : Int)
  | _ => 0

def Num.exponent : Num → Option Int
  | .fin _ m e => if m = 0 then none else some e
  | _ => none

/-- The least exponent of the nonzero finite values. -/
def minExp : List Num → Option Int
  | [] => none
  | x :: xs =>
    match x.exponent, minExp xs with
    | none, r => r
    | some e, none => some e
    | some e, some e' => some (min e e')

/-- The exact finite sum; `none` when it is zero. -/
def finSum (xs : List Num) : Option Num :=
  match minExp xs with
  | none => none
  | some e0 =>
    let t := (xs.map (Num.toIntAt e0)).foldl (· + ·) 0
    if t = 0 then none else some (.fin (t < 0) t.natAbs e0)

/-- An exact sum of terms with the specials of R51; `zneg` is the sign of an exact zero sum whose terms are not all -0. -/
def sumNum (zneg : Bool) (xs : List Num) : Num :=
  let p := xs.any (fun x => x.isInf && !x.isNeg)
  let n := xs.any (fun x => x.isInf && x.isNeg)
  if xs.any Num.isNan then .nan (xs.any Num.isSig || (p && n))
  else
    if p && n then invalidNum
    else if p then .inf false
    else if n then .inf true
    else match finSum xs with
      | some x => x
      | none => if !xs.isEmpty && xs.all (fun x => x.isZero && x.isNeg) then .fin true 0 0 else .fin zneg 0 0

/-- x + y under IEEE 754-2019: an exact zero sum of unlike signs is -0 only toward minus infinity (R227). -/
def Num.add (rm : Rm) (x y : Num) : Num :=
  let allPosZero := x.isZero && y.isZero && !x.isNeg && !y.isNeg
  sumNum (rm == .rd && !allPosZero) [x, y]

/-- Comparison of finite or infinite values by value: -1, 0 or 1. -/
def Num.cmp (x y : Num) : Int :=
  match x, y with
  | .inf a, .inf b => if a = b then 0 else if a then -1 else 1
  | .inf a, _ => if a then -1 else 1
  | _, .inf b => if b then 1 else -1
  | .fin a m e, .fin b m' e' =>
    let e0 := min e e'
    let u := Num.toIntAt e0 (.fin a m e)
    let v := Num.toIntAt e0 (.fin b m' e')
    if u < v then -1 else if v < u then 1 else 0
  | _, _ => 0

/-- The total order of VSTEP's keys (R241) and of VMIN and VMAX (R228): -0 below +0, every NaN above +infinity. -/
def Num.below (x y : Num) : Bool :=
  match x, y with
  | .nan _, _ => false
  | _, .nan _ => true
  | _, _ =>
    let c := x.cmp y
    c == -1 || (c == 0 && x.isZero && y.isZero && x.isNeg && !y.isNeg)

/-- The least and greatest value of an integer type (R32). -/
def Ty.intMin (t : Ty) : Int := if Ty.isSigned t then -(2 ^ (Ty.bits t - 1)) else 0
def Ty.intMax (t : Ty) : Int := if Ty.isSigned t then 2 ^ (Ty.bits t - 1) - 1 else 2 ^ Ty.bits t - 1

/-- A lane's bits read as its integer type. -/
def intOf (t : Ty) (c : Nat) : Int :=
  let c := c % 2 ^ Ty.bits t
  if Ty.isSigned t then asSigned (Ty.bits t) c else c

/-- An integer's code at a width: wrapping. -/
def intCode (w : Nat) (x : Int) : Nat := (x % 2 ^ w).toNat

/-- Clamped to the type's range, with saturation when it changes (R50, R232). -/
def clampInt (t : Ty) (x : Int) : Nat × Flags :=
  if x < Ty.intMin t then (intCode (Ty.bits t) (Ty.intMin t), fSAT)
  else if x > Ty.intMax t then (intCode (Ty.bits t) (Ty.intMax t), fSAT)
  else (intCode (Ty.bits t) x, 0)

/-- Floating to integer (R33). -/
def numToInt (t : Ty) (rm : Rm) (x : Num) : Nat × Flags :=
  match x with
  | .nan _ => (0, fINV)
  | .inf n => (intCode (Ty.bits t) (if n then Ty.intMin t else Ty.intMax t), fSAT + fINX)
  | .fin n m e =>
    let (q, inx) := roundRat rm n m 1 e
    let (c, fl) := clampInt t (if n then -(q : Int) else q)
    (c, if fl != 0 then fSAT + fINX else if inx then fINX else 0)

/-- An integer as an exact value. -/
def numOfInt (x : Int) : Num := .fin (x < 0) x.natAbs 0

/-- The negation of a stored code (R75): floating sign flip with NaN canonical, signed integers saturating. -/
def negCode (t : Ty) (d : Nat) (c : Nat) : Nat × Flags :=
  if Ty.isFloat t then
    let f := fmtOf t d
    let c := c % 2 ^ f.wid
    if f.ebits = 0 then
      let i := -(asSigned f.wid c)
      let top : Int := 2 ^ (f.wid - 1) - 1
      if i > top then (top.toNat, fSAT) else ((i % 2 ^ f.wid).toNat, 0)
    else match decodeNum f c with
    | .nan sig => (f.nanCode, if sig then fINV else 0)
    | _ => (if c / 2 ^ (f.wid - 1) = 1 then c - 2 ^ (f.wid - 1) else c + 2 ^ (f.wid - 1), 0)
  else clampInt t (-(intOf t c))

/-- The bits of an element that its type or format gives a meaning. -/
def codeBits (t : Ty) (d : Nat) : Nat := if t = .nf then (nfFmt d).wid else Ty.bits t

/-- An element's code: the upper bits of a narrow value are ignored on input and read as zero (the words before R34). -/
def elemCode (t : Ty) (d c : Nat) : Nat := c % 2 ^ codeBits t d

/-- An element under a character (R75): its code, or the negated one. -/
def signCode (neg : Bool) (t : Ty) (d c : Nat) : Nat × Flags := if neg then negCode t d c else (elemCode t d c, 0)

/-- Draw of R45: seed, pour identifier, sequence number and lane. The identifier is the low 64 bits of a pour's key. -/
def draw (seed pid q j : Nat) : Nat :=
  let m := 2 ^ 64
  let h0 := (seed ^^^ (pid % m)) ^^^ (((q * 128 + j + 1) * 0x9E3779B97F4A7C15) % m)
  let rnd := fun h : Nat =>
    let h := h ^^^ ((h * 2 ^ 13) % m)
    let h := h ^^^ (h / 2 ^ 7)
    h ^^^ ((h * 2 ^ 17) % m)
  rnd (rnd (rnd (rnd h0))) / 2 ^ 32

/-- The magnitude at the grid of a format just below or at n/d*2^s: its integer part and quantum exponent. -/
def floorGrid (f : Fmt) (n d : Nat) (s : Int) : Nat × Int :=
  let q := if f.ebits = 0 then -f.bias else max (ilog2Rat n d + s) (1 - f.bias) - f.mbits
  ((roundRat .rz false n d (s - q)).1, q)

/-- Stochastic rounding into a format (R44), with the draw `d24` = Draw >> 8. -/
def roundStoch (f : Fmt) (x : Num) (d24 : Nat) : Nat × Flags :=
  match x with
  | .fin neg m e =>
    let (c, fl) := roundInto f .rz neg m 1 e
    let exact := fl = 0
    if exact then (c, 0)
    else
      let (tm, te) := f.magOf (f.topCode / 2 ^ f.mbits) (f.topCode % 2 ^ f.mbits)
      let (em, ee) : Nat × Int :=
        if f.ebits = 0 then ((if neg then f.gridMin.natAbs else f.gridMax.natAbs), -f.bias)
        else if neg && !f.sgn then (0, 0) else (tm, te)
      if magGt m e em ee then encodeNum f .rne x
      else
        let (a, q) := floorGrid f m 1 e
        -- (|x| - a) * 2^24 > d * (b - a), with a and b = a + 1 in units of 2^q
        let up := magGt (m * 2 ^ 24) e (a * 2 ^ 24 + d24) q
        let (c, fl) := roundInto f .rz neg (if up then a + 1 else a) 1 q
        let v := decodeNum f c
        let sub := f.ebits != 0 && (match v with | .fin _ m' e' => m' != 0 && magGt 1 (1 - f.bias) m' e' | _ => false)
        (c, fl ||| (if v.isZero || sub then fINX + fUFL else fINX))
  | y => encodeNum f .rne y

end Sys2Proof.Machine
end

