-- ==== Sys2Proof/Machine/Sparse.lean ====
section
/-! DEFINITION. Sparse storage in one canonical form: a list of (key, value) pairs with strictly rising keys and no value
equal to what an unlisted key reads as. Every memory and every register file of the model is held so. -/

namespace Sys2Proof.Machine

/-- Values by number; an unlisted number reads as a default that the reader names. -/
abbrev Sparse (α : Type) := List (Nat × α)

/-- The value at a key. -/
def Sparse.get {α : Type} (d : α) : Sparse α → Nat → α
  | [], _ => d
  | (k, v) :: r, a => if a = k then v else Sparse.get d r a

/-- Put a pair in its place, or take the place's pair away. -/
def Sparse.put {α : Type} (o : Option α) : Sparse α → Nat → Sparse α
  | [], a => match o with | some v => [(a, v)] | none => []
  | (k, w) :: r, a =>
    if a < k then (match o with | some v => (a, v) :: (k, w) :: r | none => (k, w) :: r)
    else if a = k then (match o with | some v => (a, v) :: r | none => r)
    else (k, w) :: Sparse.put o r a

/-- Write a value: writing the default removes the entry, so equal contents are equal lists. -/
def Sparse.set {α : Type} [DecidableEq α] (d : α) (m : Sparse α) (a : Nat) (v : α) : Sparse α :=
  Sparse.put (if v = d then none else some v) m a

/-- The canonical form, above a least key: keys strictly rising, no entry equal to the default. -/
def Sparse.wfFrom {α : Type} [DecidableEq α] (d : α) (lo : Nat) : Sparse α → Bool
  | [] => true
  | (k, v) :: r => decide (lo ≤ k) && decide (v ≠ d) && Sparse.wfFrom d (k + 1) r

/-- A byte memory: sorted cells, no cell equal to the byte 0 that an unlisted address reads as (log 4). -/
abbrev Memory := List Host.Cell

/-- What a byte of memory that nothing has written reads as (log 4). -/
def Memory.blank : Byte := 0

/-- One byte of memory. -/
def Memory.read (m : Memory) (a : Nat) : Byte := Sparse.get Memory.blank m a

/-- Write one byte. -/
def Memory.write (m : Memory) (a : Nat) (b : Byte) : Memory := Sparse.set Memory.blank m a b

/-- The canonical form of a memory. -/
def Memory.wf (m : Memory) : Bool := Sparse.wfFrom Memory.blank 0 m

/-- Read `n` bytes as a little-endian number (R2). -/
def Memory.readNat (m : Memory) (a : Nat) : Nat → Nat
  | 0 => 0
  | n + 1 => (Memory.read m a).toNat + 256 * Memory.readNat m (a + 1) n

/-- Write the low `n` bytes of a number, least significant first (R2). -/
def Memory.writeNat (m : Memory) (a : Nat) : Nat → Nat → Memory
  | 0, _ => m
  | n + 1, v => Memory.writeNat (Memory.write m a (BitVec.ofNat 8 v)) (a + 1) n (v / 256)

/-- Write the bytes of a number whose enable bits are set. -/
def Memory.writeMasked (m : Memory) (a : Nat) (en v : Nat) : Nat → Memory
  | 0 => m
  | n + 1 =>
    Memory.writeMasked (if en % 2 = 1 then Memory.write m a (BitVec.ofNat 8 v) else m) (a + 1) (en / 2) (v / 256) n

/-- Put a run of `n` bytes, given as the cells of a memory from 0 on, in the place of what was there. -/
def Memory.splice (m : Memory) (lo n : Nat) (cells : Memory) : Memory :=
  cells.foldl (fun m x => if x.1 < n then Memory.write m (lo + x.1) x.2 else m)
    (m.filter (fun x => decide (x.1 < lo) || decide (lo + n ≤ x.1)))

/-- An aligned 64-bit word of memory. -/
def Memory.word (m : Memory) (a : Nat) : Word := toWord (Memory.readNat m a 8)

end Sys2Proof.Machine
end

