-- ==== Sys2Proof/Machine/State.lean ====
section
/-! DEFINITION. The state of the machine, as plain data: every piece of state the spec names (INVENTORY.md lists each with
its rule), the two ways a step can stop, and the machine after reset. -/

namespace Sys2Proof.Machine

/-- Why the machine stops. -/
inductive Fault where
  /-- An access whose virtual address plus OFFSET is no 39-bit physical address (R268); only an unchecked RRET offset leads
  there. Raised by `step` on a state that an access left so. Safe: the model stops where the spec gives no address. -/
  | noPhysicalAddress
  deriving DecidableEq, Repr

/-- Why the machine has no meaning for an instruction. -/
inductive Refusal where
  /-- The instruction has no meaning in the model. Raised by a dispatch arm. Safe: the model stops. -/
  | notModelled (mnemonic : String)
  deriving DecidableEq, Repr

/-- An agent as wait-log word 3 names it (R348): kind, package, core, stream, index, pour. -/
structure Agent where
  kind : Nat := 0
  pkg : Nat := 0
  core : Nat := 0
  stream : Nat := 0
  idx : Nat := 0
  pid : Nat := 0
  deriving DecidableEq, Repr

/-- Slot states (R250). -/
inductive SlotSt where
  | free | claimed | full
  deriving DecidableEq, Repr

/-- A crucible slot's state and shape record (R250). -/
structure Slot where
  st : SlotSt := .free
  rows : Nat := 0
  cols : Nat := 0
  ty : Ty := .f64
  deriving DecidableEq, Repr

/-- A count predicate: 10-bit count and width code (R244). -/
structure KPred where
  cnt : BitVec 10 := 0
  wid : BitVec 2 := 0
  deriving DecidableEq, Repr

/-- A symmetry entry: descriptor and valid bit (R68, R70). -/
structure SyEntry where
  valid : Bool := false
  desc : BitVec 512 := 0
  deriving DecidableEq, Repr

/-- A landing counter (R179). -/
structure LCtr where
  cnt : BitVec 40 := 0
  tgt : BitVec 40 := 0
  p : Bool := false
  a : Bool := false
  agent : Agent := {}
  deriving DecidableEq, Repr

/-- A range entry as the eight words of its image (R270). -/
structure RangeEntry where
  base : Word := 0
  limit : Word := 0
  off : Word := 0
  ctl : Word := 0
  res : Word := 0
  wmask : Word := 0
  wbm : Word := 0
  lidx : Word := 0
  deriving DecidableEq, Repr

/-- A loop of a stream (R141). -/
structure LoopSt where
  id : Nat
  count : Nat
  max : Nat
  pass : Nat
  stages : Nat
  stage : Nat
  /-- stage predicate of the LOOP itself in its enclosing loops -/
  outer : Bool
  /-- ring index of the body's first word, and the body's length in words -/
  first : Nat
  body : Nat
  deriving DecidableEq, Repr

/-- A command fetched and not yet issued: its ring index, its words as fetched, the index after it, its issue cycle, and a
WAIT fault charged at p (R96). -/
structure Fetched where
  idx : Nat
  words : List Word
  next : Nat
  issue : Nat
  waitFault : Option (Nat × Nat)
  deriving DecidableEq, Repr

/-- The fetch unit's place in a loop: identifier, passes left, first body word. -/
structure FetchLoop where
  id : Nat
  left : Nat
  first : Nat
  deriving DecidableEq, Repr

/-- One command stream (R21 to R25). -/
structure StreamSt where
  /-- SYS.RING -/
  ring : Word := 0
  /-- SYS.SEED -/
  seed : Word := 0
  /-- fetch pointer, as a ring index (R24) -/
  fetchIdx : Nat := 0
  /-- the word after the last one fetched, which SYS.FETCH shows (R24) -/
  fetchPtr : Nat := 0
  seq : Nat := 0
  joins : List (Nat × Nat) := []
  loops : List LoopSt := []
  /-- previous issue cycle (R96) -/
  prev : Nat := 0
  /-- issue cycle of the last command that is no stream-control command (R97) -/
  lastSlot : Option Nat := none
  ended : Bool := true
  /-- ring index of the next unissued command -/
  nextIdx : Nat := 0
  fetched : List Fetched := []
  fetchPrev : Nat := 0
  fetchLoops : List FetchLoop := []
  fetchCalls : List Nat := []
  /-- the fetch unit waits for a branch to issue, or has met an END or a word that is no command -/
  fetchHold : Bool := false
  /-- after a BR: the earliest cycle the next command may issue in (R172) -/
  brMin : Nat := 0
  deriving DecidableEq, Repr

/-- What a value is to its command: a row for its destination, or a row that its unit places again as it arrives (R196). -/
inductive Leg where
  | last | pass
  deriving DecidableEq, Repr

/-- A value on a runner (R15 to R20): runner code, station, hops left, its command, and the 128 bytes. -/
structure RunVal where
  run : Nat
  station : Nat
  left : Nat
  stream : Stream
  seq : Nat
  /-- issue cycle of the command -/
  issue : Nat
  /-- for a beat that a remote core sent, the address it will land at -/
  addr : Option Nat := none
  leg : Leg := .last
  /-- the row; none when an idle command placed it (R98), or while its unit has not got it yet (R196) -/
  row : Option Row := none
  /-- event tag of the command (R119) -/
  evt : Nat := 0
  deriving DecidableEq, Repr

/-- The use of a block's runner port in a cycle (R14), and the command that uses it. -/
structure PortUse where
  block : Nat
  stream : Stream
  seq : Nat
  issue : Nat
  /-- it serves a beat of another core's command -/
  remote : Bool
  /-- the row that a read took, which it places in the next cycle (R19) -/
  row : Option Row := none
  /-- event tag of the command (R119) -/
  evt : Nat := 0
  deriving DecidableEq, Repr

/-- How device-memory data is used once sampled. -/
inductive Then where
  /-- LDM: into a scalar register -/
  | reg (r : SReg)
  /-- a copy granule or gathered element into scratchpad at the address; counted into a landing counter -/
  | spad (a : Nat) (lc : Option Nat)
  /-- the same of an element of an entry under its character (R75): its type and descriptor format -/
  | spadSy (a : Nat) (lc : Option Nat) (neg : Bool) (ty : Ty) (nf : Nat)
  /-- compressed granule i of the CPLD.cb with this sequence number -/
  | cast (seq i : Nat)
  /-- byte position p of the buffer of the job with this stream and sequence number -/
  | job (st : Stream) (seq p : Nat)
  deriving DecidableEq, Repr

/-- The operations of the memory-side atomic unit (R170). -/
inductive AtomOp where
  | add (b : Word) | cas (b c : Word) | swp (b : Word)
  deriving DecidableEq, Repr

/-- Parties of the causal order (R286). -/
inductive Party where
  | core (key : Nat) | host (pkg fn : Nat) | dma (pkg fn : Nat)
  deriving DecidableEq, Repr

/-- The writer of a byte and its clock (R286). -/
structure WriteTag where
  party : Party
  clock : List Nat
  deriving DecidableEq, Repr

/-- How a landing in an accumulator row bears on its tile's tag (R82). -/
inductive TagEvent where
  /-- a landing with tag NONE: a vector write, MLDA, OCON -/
  | plain
  /-- an MMA or MMAS with its product tag -/
  | prod (tag : BitVec 2)
  | zero
  /-- an MTRN with the source tile's tag -/
  | trn (tag : BitVec 2)
  deriving DecidableEq, Repr

/-- What comes about in a cycle to come: a landing, a sample, a request at the hub. -/
inductive Effect where
  | sreg (r : SReg) (v : Word)
  /-- LDS: sample eight bytes of scratchpad -/
  | lds (r : SReg) (a : Nat)
  /-- `n` bytes with an enable mask into scratchpad -/
  | spad (a n en v : Nat) (lc : Option Nat)
  | row (r : Nat) (en : BitVec 128) (v : Row) (ev : TagEvent)
  | mask (m : Nat) (en v : BitVec 128)
  | kpred (k : Nat) (v : KPred)
  | qp (q : Nat) (v : Word)
  | slotSt (c : Nat) (st : SlotSt)
  /-- a fill: slot, rows of data, shape record (R203) -/
  | fill (c : Nat) (vals : List Row) (rows cols : Nat) (ty : Ty)
  | pmRows (p : Nat) (vals : List Row)
  | cbRows (k : Nat) (vals : List Row)
  | fqAppend (v : Word)
  | lcset (lc : Nat) (tgt : BitVec 40)
  | sysreg (n : Nat) (v : Word)
  /-- the symmetry-force flag (R85) -/
  | symForce
  /-- sticky flags of an engine (R47, R48) -/
  | flags (eng : Stream) (v : Nat)
  | watchAdd (a : Nat)
  | watchClr
  /-- YLOAD and RLOAD: the sample, and the write of the sampled image -/
  | yloadRead (y a : Nat) | yload (y : Nat) (image : BitVec 512)
  | rloadRead (n a : Nat) | rload (n : Nat) (image : BitVec 512)
  | rsplit (n m : Nat) (x : Word) (slot : Nat) | rmerge (n m : Nat)
  | rinv (asid a : Nat)
  | rres (asid a : Nat) (mask : Word) (clear : Bool) | rret (asid a : Nat) (off : Word)
  /-- the parameter word and the arm that reach the hub -/
  | mpat (mould n : Nat) (v : Word) | arm (rd : SReg) (mould : Nat)
  /-- MMA, MMAS: the accumulator sample (R256): tile, type, SAT, A by rows, B by columns, for each row of A the rows of B that
  its products take, and the product tag -/
  | mmaAcc (t : Nat) (ty : Ty) (sat : Bool) (a b : List (List Num)) (sel : List (List Nat)) (tag : BitVec 2)
  /-- device memory: a write of `n` bytes under a mask; a read; an atomic; sum-cell operations -/
  | memWrite (key n en v : Nat) (lc : Option Nat)
  | memRead (key n : Nat) (use : Then)
  | atom (key : Nat) (rd : SReg) (op : AtomOp)
  /-- the new word of an atomic (R170, R294), and the clock of that write (R286) -/
  | atomStore (key : Nat) (v : Word) (clock : List Nat)
  | cellInit (key : Nat) (grid : Int)
  | cellAdd (key : Nat) (ty : Ty) (v : Nat)
  | cellSum (key : Nat) (ty : Ty) (x : Num)
  | cellRead (key : Nat) (ty : Ty) (raw : Bool) (a run : Nat)
  /-- an exchange beat: address, 128 bytes, the sender (domain-relative) and its remote runner -/
  | beat (a : Nat) (v : Row) (sender run : Nat)
  /-- a fault that the command will raise in that cycle: code, detail words, progress -/
  | raise (code cause : Nat) (detail : List Word) (prog : Nat)
  /-- one of the two values of a pair mismatch, with its destination and address, kept for the frame's entries (R117, R319): it
  never lands -/
  | pairVal (dest addr v : Nat)
  /-- the header of a send, put or get as it leaves (R116): it never lands -/
  | header (words : List Nat)
  /-- `n` bytes that the memory side has sampled for the buffer of a command in progress, on their way there (R319, R337): the buffer
  has them -/
  | kept (use : Then) (n v : Nat)
  deriving DecidableEq, Repr

/-- An entry in flight (R319): its cycle, ORDER (station, stream, sequence number), the command's issue cycle and SIGNAL CMP,
a number within the command, and the effect. -/
structure Flight where
  at' : Nat
  station : Nat
  stream : Stream
  seq : Nat
  issue : Nat
  sub : Nat
  cmp : Bool
  eff : Effect
  /-- what the memory side has done for a core that has stopped before the entry's cycle: the value sampled (R283, R314) -/
  got : Option Nat := none
  /-- event tag of the command, for the holds that it raises (R119) -/
  evt : Nat := 0
  deriving DecidableEq, Repr

/-- A representative that a grouped store writes (R84). -/
structure FoldItem where
  /-- storage rank, address, code -/
  rank : Nat
  pos : Nat
  val : Nat
  /-- flags of its negations and rounding -/
  fl : Nat
  deriving DecidableEq, Repr

/-- The shape of a strided move (R195). -/
structure MoveShape where
  src : Nat
  dst : Nat
  len : Nat
  n1 : Nat
  ss1 : Int
  ds1 : Int
  n2 : Nat
  ss2 : Int
  ds2 : Int
  deriving DecidableEq, Repr

/-- One thing that a command does in one of its cycles. -/
inductive Micro where
  /-- the runner read port of a block, taking the row that holds an address; the runner write port (R14) -/
  | read (b a : Nat) | write (b : Nat)
  /-- place the command's value on its runner at a station, for a span (R15); the same of a row that the unit had at issue -/
  | place (src span : Nat) (leg : Leg)
  | placeRow (src span : Nat) (row : Option Row)
  /-- place again the value that arrives at a unit in this cycle (R196) -/
  | relay (src span : Nat)
  /-- tap the command's runner at a station (R18) -/
  | tap (st : Nat)
  /-- the same two for a remote beat that lands at address `a` (R214) -/
  | placeBeat (src span a : Nat) | writeBeat (b a : Nat)
  /-- sample 128 bytes of scratchpad; the row lands with the first enable, zeros with the second, `land` cycles after issue -/
  | rowIn (a row : Nat) (en zero : BitVec 128) (land : Nat)
  /-- sample an accumulator row; it lands in scratchpad `land` cycles after issue -/
  | rowOut (row a land : Nat)
  /-- sample 128 bytes of scratchpad into the command's buffer at a position -/
  | keep (a pos n : Nat)
  deriving DecidableEq, Repr

/-- What a command does after its issue cycle, cycle by cycle (see Machine/Jobs.lean). -/
inductive JobKind where
  | cpld (m : MoveShape)
  | cpst (m : MoveShape)
  | cpmov (m : MoveShape)
  | cpset (m : MoveShape) (pat : Word) (mem : Bool)
  | cast (src dst e b : Nat) (mem : Bool)
  | gather (src dst idx n : Nat) (ty : Ty) (mem : Bool)
  | gatherSy (y dst idx n : Nat) (desc : BitVec 512)
  | scatter (src dst idx n : Nat) (ty : Ty) (mem comb : Bool)
  | scatterSy (y src idx n : Nat) (desc : BitVec 512) (comb : Bool)
  | fill (kind : Nat) (num src : Nat) (stride : Int) (rows cols size : Nat) (ty : Ty) (mem : Bool)
  | vq (slot src dst rows : Nat) (ty : Ty) (sp : Bool) (k : Nat)
  | expand (slot y src0 dst rows cols : Nat) (tup : List Nat) (rdim cdim : Nat) (desc : BitVec 512) (sp : Bool)
  | fold (tile y rows cols row0 col0 : Nat) (tup : List Nat) (rdim cdim : Nat) (desc : BitVec 512) (tag : BitVec 2)
  | cpatom (src cell n : Nat) (ty : Ty) (per : Bool)
  | cpcrd (dst cell : Nat) (ty : Ty) (raw : Bool)
  | put (src off len win lc : Nat)
  | send (src rcore raddr rrun beats : Nat)
  | plan (ops : List (Nat × Micro))
  | vldSy (row y : Nat) (desc : BitVec 512) (en zero : BitVec 128) (idx : List Nat) (ty : Ty)
  | walk (ya yb : Nat) (da db : BitVec 512) (row : Option Nat) (cell : Option Nat) (ty : Ty)
  deriving DecidableEq, Repr

/-- A command in progress: who, when, and what it has gathered so far. -/
structure Job where
  kind : JobKind
  stream : Stream
  station : Nat
  seq : Nat
  issue : Nat
  cmp : Bool
  run : Nat
  lc : Option Nat
  active : Bool
  /-- event tag and ring address of the command, for records (R342) -/
  evt : Nat := 0
  ring : Nat := 0
  /-- first cycle whose requests are still to be made, whose samples and landings are to be done, and whose port and runner uses
  are; requests of the cycle that were made before a fault (R193) -/
  todo : Nat := 0
  smp : Nat := 0
  stat : Nat := 0
  made : Nat := 0
  /-- no element of a later cycle than this one -/
  last : Nat := 0
  /-- bytes collected so far, by position -/
  buf : Memory := []
  /-- indices, ranks or other numbers collected so far -/
  nums : List Nat := []
  /-- the representatives to be written, once known -/
  items : List FoldItem := []
  stopped : Bool := false
  deriving DecidableEq, Repr

/-- A receive window (R215 to R217): buffer, opening and closing cycle, bytes counted and expected, the reduction's type, the command. -/
structure RWin where
  addr : Nat
  len : Nat
  opens : Nat
  closes : Nat
  count : Nat
  expect : Nat
  red : Option Ty
  stream : Stream
  seq : Nat
  evt : Nat
  deriving DecidableEq, Repr

/-- A write that landed in scratchpad in this cycle (R284): address and enables; the domain-relative number of the core that sent it
as a beat, none for the core's own; its station, issue cycle and sequence number. -/
structure Wrote where
  a : Nat
  en : Nat
  sender : Option Nat
  station : Nat
  issue : Nat
  seq : Nat
  deriving DecidableEq, Repr

/-- A core's stop by a fault (R313, R318). -/
structure Stop where
  cycle : Nat
  code : Nat
  stream : Stream
  /-- the code that each stream raised, in stream-code order -/
  codes : List Nat
  cause : Nat
  detail : List Word
  prog : Nat
  w23 : Word
  w24 : Word
  deriving DecidableEq, Repr

/-- One compute core, or one system core (R11, R25). -/
structure CoreState where
  /-- the pour it runs, by its key: package * 2^64 + pour identifier (R301); 0 when it runs none -/
  pid : Nat := 0
  sregs : Sparse Word := []
  calls : List Nat := []
  cc : StreamSt := {}
  cp : StreamSt := {}
  ve : StreamSt := {}
  ce : StreamSt := {}
  spad : Memory := []
  rows : Sparse Row := []
  tags : Sparse (BitVec 2) := []
  slots : Sparse Slot := []
  cruc : Sparse Row := []
  fq : List Word := []
  /-- sequence number and event tag of the FQPUSH whose word landed last (R149: an overflow is charged to it) -/
  fqSeq : Nat := 0
  fqEvt : Nat := 0
  masks : Sparse (BitVec 128) := []
  kpreds : Sparse KPred := []
  qps : Sparse Word := []
  sy : Sparse SyEntry := []
  pm : Sparse Row := []
  cb : Sparse Row := []
  lcs : Sparse LCtr := []
  flagsCE : BitVec 5 := 0
  flagsVE : BitVec 5 := 0
  flagsCP : BitVec 5 := 0
  collision : Bool := false
  symForce : Bool := false
  /-- mirror of the domain cycle counter (R93) -/
  dcc : Nat := 0
  ranges : Sparse RangeEntry := []
  watch : BitVec 16384 := 0
  runners : List RunVal := []
  /-- blocks whose runner read port, and whose runner write port, is used in this cycle (R14) -/
  portReads : List PortUse := []
  portWrites : List PortUse := []
  /-- the rows that blocks read in the cycle before, placed on runners in this one (R19) -/
  readRows : List PortUse := []
  /-- addresses of remote beats that took a write port in this cycle (R217) -/
  beatPorts : List Nat := []
  /-- writes that landed in scratchpad in this cycle (R284) -/
  wrote : List Wrote := []
  inflight : List Flight := []
  /-- effects that leave the core in this cycle, for the comparison of a pair (R116) -/
  leaving : List Flight := []
  /-- the entries in flight after the core's stop cycle, which its frame and slot list (R313, R319) -/
  atStop : List Flight := []
  jobs : List Job := []
  /-- placements and landings at the XP of beats that other cores send (R214) -/
  remote : List Job := []
  /-- the first cycle in which CC, CP's CPI, CP's CPO, VE, CE is free, by station (R97) -/
  busy : Sparse Nat := []
  rwins : List RWin := []
  /-- rate credit in units of 2^-24 granules, and requests outstanding with the local clock that serves each (R104) -/
  credit : Int := 768 * 2 ^ 24
  outstanding : List Nat := []
  requests : Nat := 0
  /-- beat credit by link, in units of 2^-16 / 12 beats (R330) -/
  beatCredit : Sparse Int := []
  /-- slack points this core declared (R112) -/
  slackPts : List (Nat × Nat) := []
  /-- trace buffer, records of four words (R344), and how many of them earlier cycles left there (R343) -/
  trace : List (List Word) := []
  traceOld : Nat := 0
  /-- a debug stop requested by a watch hit (R345) -/
  stopReq : Bool := false
  /-- it has been taken up in this cycle -/
  stopTaken : Bool := false
  /-- IBD commands that issued in this cycle and took up no stop: record, stream, station, event tag (R345) -/
  ibdNow : List (List Word × Stream × Nat × Nat) := []
  stop : Option Stop := none
  /-- accesses that met a deferred fault since the last release: stream, sequence number, progress, address (R314) -/
  repaired : List (Nat × Nat × Nat × Nat) := []
  evcnt : Sparse Word := []
  evsel : Sparse Word := []
  /-- the scratchpad of the 16 cycles before, newest first: a fetch sees words as they stood 16 cycles before issue (R24) -/
  spadPast : List Memory := []
  /-- system cores only: exception level, saved address (a ring index), saved level, the code of the last HVCALL (R191;
  log 3) -/
  level : Nat := 0
  savedPc : Nat := 0
  savedLevel : Nat := 0
  hvCode : BitVec 16 := 0
  deriving DecidableEq, Repr

/-- A cause of a hold (R103, R109). -/
structure Cause where
  code : Nat
  core : Nat
  station : Nat
  stream : Stream
  evt : Nat
  lc : Nat
  agent : Agent
  cleared : Bool
  deriving DecidableEq, Repr

/-- Why a scheduler stop was raised (R308). -/
inductive StopWhy where
  /-- RTT index and P; the RCB whose token it spends plus one, 0 for none (R306) -/
  | checkpoint (rtt p : Nat) (token : Nat)
  | kill (token : Nat)
  deriving DecidableEq, Repr

/-- Whether a domain runs. -/
inductive Status where
  /-- running -/
  | run
  /-- before DCC S: local clocks still to spend (R113) -/
  | slack (left : Nat)
  /-- held, or frozen (R106) -/
  | held
  /-- catch-up of stopped cores (R314) -/
  | catchUp
  deriving DecidableEq, Repr

/-- A timing domain: one pour (R92). -/
structure Domain where
  /-- the pour's key, as CoreState.pid -/
  pid : Nat
  part : Nat
  asid : Nat
  mouldNo : Nat
  mould : List Word
  /-- cores by key, in domain-relative order; a pair counts as its primary (R340) -/
  cores : List Nat
  /-- (primary, secondary) -/
  pairs : List (Nat × Nat) := []
  span : Nat
  pkgs : List Nat
  h : Nat
  dcc : Nat := 0
  status : Status := .run
  /-- announced effect cycle of a hold (R105); while the domain is held, F -/
  freeze : Option Nat := none
  /-- announced effect cycle of a scheduler stop (R308) -/
  stopAt : Option Nat := none
  causes : List Cause := []
  /-- local clock of the freeze -/
  heldAt : Nat := 0
  /-- local clock in which the last cause cleared (R108) -/
  lastClear : Nat := 0
  holdClocks : Nat := 0
  schedStop : Option StopWhy := none
  /-- the head whose pre-emption decision stands, by its pour; 0 where none does (R306) -/
  decider : Nat := 0
  drain : Bool := false
  drainMarked : Bool := false
  /-- frames of the freeze are written -/
  framed : Bool := false
  /-- firmware has a checkpoint saved with cores at their stop cycles (R317) -/
  saveNow : Bool := false
  /-- debugger's stop request, pending (R345) -/
  debugReq : Bool := false
  debugTaken : Bool := false
  /-- the slack point S last spent, and declared ones (S, n) -/
  slackDone : Nat := 0
  slackPts : List (Nat × Nat) := []
  /-- Lead by package (R113) -/
  lead : Sparse Int := []
  priority : Nat := 0
  /-- killed, or ended by a stopping fault: ends at the freeze -/
  doomed : Bool := false
  deriving DecidableEq, Repr

/-- An armed pour in a pending pool or waiting list (R301, R303). -/
structure Armed where
  pid : Nat
  part : Nat
  mouldNo : Nat
  mould : List Word
  entry : Nat
  since : Nat
  /-- the priority it had, for a checkpointed pour that waits again (R311) -/
  floor : Nat := 0
  /-- key of the checkpoint area, for a pour to be restored (R312) -/
  restore : Option Nat := none
  /-- the cores reserved or admitted for it -/
  cores : List Nat := []
  admitted : Bool := false
  deriving DecidableEq, Repr

/-- A window put or get in transit (R212, R293). -/
structure Xfer where
  id : Nat
  get : Bool
  cast : Bool
  pkg : Nat
  part : Nat
  win : Nat
  core : Nat
  stream : Stream
  pid : Nat
  region : Nat
  lc : Nat
  /-- ASID and mould of the issuing pour, for its reports (R322) -/
  asid : Nat
  mouldNo : Nat
  /-- local scratchpad address; target physical key base (window offset applied on use) -/
  spad : Nat
  off : Nat
  len : Nat
  /-- local clock of its start -/
  start : Nat := 0
  /-- bytes read at the source, applied at the destination, acknowledged -/
  read : Nat := 0
  done : Nat := 0
  acked : Nat := 0
  parked : Bool := false
  data : Memory := []
  /-- the window's registration at its issue (R212, R292) -/
  record : List Word := []
  deriving DecidableEq, Repr

/-- A host DMA descriptor in its queue or running (R355). -/
structure Dma where
  id : Nat
  pkg : Nat
  fn : Nat
  haddr : Nat
  daddr : Nat
  toHost : Bool
  spad : Bool
  cnt : Bool
  core : Nat
  lc : Nat
  len : Nat
  asid : Nat
  started : Bool := false
  done : Nat := 0
  pid : Nat := 0
  parked : Bool := false
  /-- the 64 bytes of a parked unit, kept (R338) -/
  hold : Nat := 0
  deriving DecidableEq, Repr

/-- A compaction in progress (R279): range, new physical base, bytes copied; the local clock of its RRET; the cores that held the range
when that RRET reached them: core, its pour, its cycle. -/
structure Compaction where
  pkg : Nat
  part : Nat
  asid : Nat
  base : Nat
  oldPhys : Nat
  newPhys : Nat
  len : Nat
  copied : Nat
  moved : Option Nat
  applied : List (Nat × Nat × Nat) := []
  deriving DecidableEq, Repr

/-- What a beacon carries (R112): the domain, the sender's DCC, and the next declared slack point with its n. -/
structure Beacon where
  pid : Nat
  dcc : Nat
  slack : Option (Nat × Nat)
  deriving DecidableEq, Repr

/-- A Lumip link's block (R328); the beacons it sent last (R331). -/
structure Link where
  state : BitVec 3 := 0
  pcbh : Bool := false
  spare : BitVec 2 := 2
  lmap : BitVec 8 := 0
  pos : BitVec 8 := 255
  lcor : Word := 0
  lunc : Word := 0
  lswp : Word := 0
  sent : List Beacon := []
  /-- local clock, plus one, of the last flit that could not be corrected (R329) -/
  badFlit : Nat := 0
  deriving DecidableEq, Repr

/-- Lifecycle states (R361). -/
inductive Lifecycle where
  | manufacture | provisioned | deployed | debugUnlocked | retired
  deriving DecidableEq, Repr

/-- A partition of a package (R11, R357). -/
structure Part where
  /-- configured, and its system image started -/
  configured : Bool := false
  started : Bool := false
  arming : Bool := true
  /-- owned core numbers, physical memory extents (base, limit), ASIDs -/
  cores : List Nat := []
  sysCores : List Nat := []
  mem : List (Nat × Nat) := []
  asids : List Nat := []
  root : Nat := 0
  /-- its share of every link, in units of 2^-16 -/
  linkShare : Nat := 0
  pool : List Armed := []
  /-- mould number and the copy taken (R302) -/
  backlog : List (Nat × List Word) := []
  arms : Nat := 0
  /-- trace and wait-log ring bases by die, as (base + 1), 0 when not placed (R341) -/
  traceRings : Sparse Nat := []
  waitRings : Sparse Nat := []
  debug : Bool := false
  interrupts : Nat := 0
  key : Word := 0
  version : Nat := 0
  /-- last mailbox status word (R358) -/
  status : Nat := 0
  deriving DecidableEq, Repr

/-- A saved pour (R310): what the checkpoint's slots hold, as structures. -/
structure Saved where
  area : Nat
  pid : Nat
  dom : Domain
  /-- cores by domain-relative number; a pair counts as its primary (R340) -/
  cores : List (Nat × CoreState)
  /-- it has been restored, so that its entries are held by cores again (R319) -/
  restored : Bool := false
  deriving DecidableEq, Repr

/-- One package's hub and what hangs on it. -/
structure Pkg where
  pos : Nat := 0
  moulds : Sparse (List Word) := []
  parts : Sparse Part := []
  /-- window records, keyed partition * 256 + window (R292) -/
  windows : Sparse (List Word) := []
  /-- windows a partition exports: BASE, LEN, ASID -/
  exports : Sparse (List (Nat × Nat × Nat)) := []
  /-- range-list base by ASID, plus one (R275) -/
  lists : Sparse Nat := []
  waiting : List Armed := []
  policies : List (Nat × Nat × Word) := []
  powerBudget : Nat := 2600
  /-- firmware's power figure of a region, by RCB (R366) -/
  power : Sparse Nat := []
  /-- the head of each die's waiting list: pour and effective priority at the last decision (R303, R306) -/
  heads : Sparse (Nat × Nat) := []
  links : Sparse Link := []
  /-- beacons received per link since it was trained -/
  beacons : Sparse Nat := []
  featOffer : Sparse (BitVec 256) := []
  featAccept : Sparse (BitVec 256) := []
  featActive : Sparse (BitVec 256) := []
  meas : Sparse (BitVec 512) := []
  /-- the last extension's local clock plus one; events that wait for theirs: register and record (R360) -/
  measAt : Nat := 0
  measQueue : List (Nat × List Byte) := []
  lifecycle : Lifecycle := .manufacture
  deviceId : BitVec 128 := 0
  rootDigest : BitVec 512 := 0
  unlockFails : Nat := 0
  portOpen : Bool := true
  /-- an accepted token between the wiping of the keys and the fuse; a port that opens once MEAS15 has been extended (R361) -/
  unlocking : Option (List Word) := none
  portDue : Bool := false
  hubReset : Bool := true
  bootStage : Nat := 0
  hyperVersion : Nat := 0
  /-- spares used per die; cores repaired; channels substituted per stack (R363) -/
  sparesUsed : Sparse Nat := []
  failedCores : List Nat := []
  chansUsed : Sparse Nat := []
  /-- each die's sensor and the emergency threshold, in degrees Celsius; the monitor's signal (R366) -/
  sensors : Sparse Nat := []
  emergency : Nat := 105
  thermal : Bool := false
  poweredOff : Bool := false
  dma : List Dma := []
  compactions : List Compaction := []
  /-- the last SPDM answer: a signed report, or an error (R362) -/
  report : List Nat := []
  reportSig : Nat := 0
  spdmError : Bool := false
  traceTurn : Sparse Nat := []
  /-- the old word that a host function's last atomic returned, by function (R294) -/
  hostOld : Sparse Word := []
  deriving DecidableEq, Repr

/-- A sum cell's metadata (R53, R295). -/
structure CellMeta where
  grid : Int := 0
  err : BitVec 8 := 0
  deriving DecidableEq, Repr

/-- The command being executed. -/
structure Ctx where
  core : Nat := 0
  stream : Stream := .cc
  hdr : Header := ⟨0, false, false, false, 0, none⟩
  seq : Nat := 0
  /-- ring index of the command word and of the word after its last word -/
  idx : Nat := 0
  next : Nat := 0
  /-- its stage predicate holds (R141) -/
  active : Bool := true
  /-- executed by a system core (R11) -/
  sys : Bool := false
  /-- set when the command has faulted at issue -/
  faulted : Bool := false
  /-- the station that it drives (R21) -/
  unit : Nat := 0
  deriving DecidableEq, Repr

/-- An atomic of a host function on a word of device memory, asked for at a local clock (R294; log 92). -/
structure HostAtomic where
  clock : Nat
  pkg : Nat
  fn : Nat
  addr : Nat
  op : AtomOp
  deriving DecidableEq, Repr

/-- What the machine does next within the present local clock. -/
inductive Act where
  | ev (i : Instr)
  | issue (core : Nat) (st : Stream)
  | elements (core : Nat)
  /-- a system core's command; its atomic at the memory side (R294) -/
  | sys (core : Nat) (i : Instr)
  /-- a record that a system core writes into its partition's mailbox (R358) -/
  | mail (core : Nat) (i : Instr)
  | sysAtoms (core : Nat)
  /-- a host function's atomic at the memory side (R294) -/
  | hostAtom (x : HostAtomic)
  /-- the security block's next step (R360, R361) -/
  | secure (pkg : Nat)
  deriving DecidableEq, Repr

/-- An act of an outside party, due at a local clock; a system core's command, or its mailbox record, names the core. -/
structure Input where
  clock : Nat
  sys : Option Nat
  instr : Instr
  deriving DecidableEq, Repr

/-- The state of the machine. -/
structure State where
  clock : Nat := 0
  agenda : List Act := []
  inputs : List Input := []
  /-- host functions' atomics that are still to be executed (R294) -/
  hostAtoms : List HostAtomic := []
  ctx : Ctx := {}
  dead : Bool := false
  /-- cores by key = package * 1024 + number; numbers 640 to 647 are the system cores -/
  cores : Sparse CoreState := []
  domains : List Domain := []
  pkgs : Sparse Pkg := []
  /-- device memory by key = package * 2^39 + physical address (R268) -/
  mem : Memory := []
  cells : Sparse CellMeta := []
  /-- host memory, for host DMA (R355) -/
  host : Memory := []
  /-- granules of device memory that hold an uncorrectable error (R316, R320) -/
  badMem : List Nat := []
  saved : List Saved := []
  xfers : List Xfer := []
  nextId : Nat := 0
  /-- atomics applied in this local clock: key, word, and who wrote it (R171, R286) -/
  atomNow : List (Nat × Word × WriteTag) := []
  /-- vector clocks of parties, last writers of bytes, writes observed and not yet merged (R286, R287) -/
  clocks : List (Party × List Nat) := []
  writers : List (Nat × WriteTag) := []
  seen : List (Party × WriteTag) := []
  /-- writes counted into a landing counter since its last LCSET: core key, counter, write (R291) -/
  counted : List (Nat × Nat × WriteTag) := []
  /-- the counter of free values (log 9); the model's own -/
  free : Nat := 0
  deriving DecidableEq, Repr

/-- The machine right after reset: no pour, nothing listed (R27, R328, R360; logs 1 to 7). -/
def State.reset : State := {}

end Sys2Proof.Machine
end

