-- ==== Sys2Proof/Machine/Ops.lean ====
section
/-! DEFINITION. The named operations on the state: cores and domains, registers, memory bytes, entries in flight, holds,
taking a fault and clearing it, trace and log records, the range lookup, device-memory requests. -/

namespace Sys2Proof.Machine

/-- What a step answers. -/
abbrev Out := Host.Outcome State Fault Refusal

-- Cores and domains ----------------------------------------------------------------------------------------------------

/-- A core by its key. -/
def getCore (s : State) (k : Nat) : CoreState := Sparse.get {} s.cores k

/-- Put a core back. -/
def setCore (s : State) (k : Nat) (c : CoreState) : State := { s with cores := Sparse.set {} s.cores k c }

/-- Change one core. -/
def modCore (s : State) (k : Nat) (f : CoreState → CoreState) : State := setCore s k (f (getCore s k))

/-- The core of the command being executed. -/
def cur (s : State) : CoreState := getCore s s.ctx.core

/-- Change the core of the command being executed. -/
def modCur (s : State) (f : CoreState → CoreState) : State := modCore s s.ctx.core f

/-- The package of a core key (R9). -/
def pkgOf (k : Nat) : Nat := k / 1024

/-- The core number of a core key (R9); a system core's number is 640 to 647. -/
def numOf (k : Nat) : Nat := k % 1024

/-- The die of a core key (R9). -/
def dieOf (k : Nat) : Nat := numOf k / 160

def getPkg (s : State) (p : Nat) : Pkg := Sparse.get {} s.pkgs p
def setPkg (s : State) (p : Nat) (x : Pkg) : State := { s with pkgs := Sparse.set {} s.pkgs p x }
def modPkg (s : State) (p : Nat) (f : Pkg → Pkg) : State := setPkg s p (f (getPkg s p))
def getPart (s : State) (p part : Nat) : Part := Sparse.get {} (getPkg s p).parts part
def modPart (s : State) (p part : Nat) (f : Part → Part) : State :=
  modPkg s p (fun x => { x with parts := Sparse.set {} x.parts part (f (Sparse.get {} x.parts part)) })

/-- The domain of a pour identifier. -/
def findDom (s : State) (pid : Nat) : Option Domain := s.domains.find? (fun d => d.pid == pid)

/-- Change the domain of a pour identifier. -/
def modDom (s : State) (pid : Nat) (f : Domain → Domain) : State :=
  { s with domains := s.domains.map (fun d => if d.pid = pid then f d else d) }

/-- The domain a core runs in. -/
def domOf (s : State) (k : Nat) : Option Domain := findDom s (getCore s k).pid

/-- Primary of a core in its domain: itself unless it is a secondary (R115). -/
def primaryOf (d : Domain) (k : Nat) : Nat :=
  match d.pairs.find? (fun p => p.2 == k) with
  | some p => p.1
  | none => k

/-- The pair partner of a core (R115). -/
def partnerOf (d : Domain) (k : Nat) : Option Nat :=
  match d.pairs.find? (fun p => p.1 == k || p.2 == k) with
  | some p => some (if p.1 = k then p.2 else p.1)
  | none => none

/-- Every core of a domain, secondaries too. -/
def Domain.all (d : Domain) : List Nat := d.cores ++ d.pairs.map Prod.snd

/-- A pour's home package: it was armed there, its region and image lie there, and in a group it is the timebase package
(R113, R340). -/
def Domain.home (d : Domain) : Nat := pkgOf (d.cores.headD 0)

/-- The domain-relative number of a core (R340). -/
def relOf (d : Domain) (k : Nat) : Nat := d.cores.idxOf (primaryOf d k)

-- Streams --------------------------------------------------------------------------------------------------------------

/-- Stream code (R121). -/
def Stream.code : Stream → Nat
  | .cc => 0 | .cp => 1 | .ve => 2 | .ce => 3

def getStream (c : CoreState) : Stream → StreamSt
  | .cc => c.cc | .cp => c.cp | .ve => c.ve | .ce => c.ce

def setStream (c : CoreState) (st : Stream) (x : StreamSt) : CoreState :=
  match st with
  | .cc => { c with cc := x }
  | .cp => { c with cp := x }
  | .ve => { c with ve := x }
  | .ce => { c with ce := x }

def modStream (c : CoreState) (st : Stream) (f : StreamSt → StreamSt) : CoreState :=
  setStream c st (f (getStream c st))

/-- The ring's length in words (R22). -/
def ringLen (ring : Word) : Nat := 2 ^ (bits ring.toNat 21 4 + 6)

/-- The scratchpad address of ring word `i` (R22): the low SIZE + 9 bits of BASE are taken as zero. -/
def ringAddr (ring : Word) (i : Nat) : Nat :=
  let n := ringLen ring * 8
  bits ring.toNat 0 21 / n * n + 8 * (i % ringLen ring)

/-- The stations of R12. -/
def ccSt : Nat := 0
def ceSt : Nat := 2
def veSt : Nat := 4
def cpiSt : Nat := 6
def cpoSt : Nat := 8
def xpSt : Nat := 10

/-- The station of an SRAM block (R12). -/
def blkSt (b : Nat) : Nat := 2 * b + 1

/-- The block of a scratchpad address (R13). -/
def blkOf (a : Nat) : Nat := a / 2 ^ 18 % 8

/-- A runner value's span (R16). -/
def spanOf (run src dst : Nat) : Nat :=
  if run < 4 then (dst + 12 - src) % 12 else (src + 12 - dst) % 12

-- Registers ------------------------------------------------------------------------------------------------------------

/-- Read a scalar register: s0 reads zero (R25). -/
def sget (c : CoreState) (r : SReg) : Word := if r = 0 then 0 else Sparse.get 0 c.sregs r.toNat

/-- Write a scalar register: a write to s0 is discarded (R25, R164). -/
def sput (c : CoreState) (r : SReg) (v : Word) : CoreState :=
  if r = 0 then c else { c with sregs := Sparse.set 0 c.sregs r.toNat v }

/-- A scalar register of the core of the command being executed. -/
def rd (s : State) (r : SReg) : Word := sget (cur s) r

/-- The same as a number. -/
def rdN (s : State) (r : SReg) : Nat := (sget (cur s) r).toNat

/-- The scalar register `i` places on in a group (R122). -/
def rdG (s : State) (r : SReg) (i : Nat) : Nat := (sget (cur s) (r + BitVec.ofNat 6 i)).toNat

/-- An accumulator-file row. -/
def getRow (c : CoreState) (r : Nat) : Row := Sparse.get 0 c.rows r

def setRow (c : CoreState) (r : Nat) (v : Row) : CoreState := { c with rows := Sparse.set 0 c.rows r v }

/-- Spread a 128-bit byte enable over the 1,024 bits of a row. -/
def spreadFrom (en : Nat) : Nat → Nat
  | 0 => 0
  | n + 1 => (if en % 2 = 1 then 255 else 0) + 256 * spreadFrom (en / 2) n

/-- The bit mask of a byte enable. -/
def byteMask (en : BitVec 128) : Row := BitVec.ofNat 1024 (spreadFrom en.toNat 128)

/-- A row with the enabled bytes of another put in. -/
def mergeRow (old new : Row) (en : BitVec 128) : Row := (old &&& ~~~(byteMask en)) ||| (new &&& byteMask en)

/-- Every byte of a row. -/
def allBytes : BitVec 128 := BitVec.allOnes 128

-- Scratchpad -----------------------------------------------------------------------------------------------------------

/-- 128 bytes of scratchpad from an address. -/
def spadRow (c : CoreState) (a : Nat) : Row := BitVec.ofNat 1024 (Memory.readNat c.spad a 128)

/-- A run of bytes lies in blocks 0 to 5 and inside one block (R193). -/
def spadRunOk (a n : Nat) : Bool :=
  a < 6 * 2 ^ 18 && (n = 0 || (a + n - 1) / 2 ^ 18 = a / 2 ^ 18)

/-- Two byte runs meet. -/
def runsMeet (a n b m : Nat) : Bool := a < b + m && b < a + n && 0 < n && 0 < m

/-- An address lies in one of the core's four command rings (R168, R175). -/
def inRings (c : CoreState) (a : Nat) : Bool :=
  [c.cc, c.cp, c.ve, c.ce].any (fun t =>
    let b := ringAddr t.ring 0
    b ≤ a && a < b + 8 * ringLen t.ring)

/-- A run meets the buffer of a receive window open in the cycle (R215): open from its opening through its closing cycle. -/
def inOpenWindow (c : CoreState) (a n cyc : Nat) : Bool :=
  c.rwins.any (fun w => w.opens ≤ cyc && cyc ≤ w.closes && runsMeet a n w.addr w.len)

/-- The address conditions of R168 on eight-byte scratchpad accesses, without those of stores. -/
def spadWordOk (a : Nat) (align : Nat) : Bool := a < 2 ^ 21 && blkOf a < 6 && a % align == 0

-- Entries in flight ----------------------------------------------------------------------------------------------------

/-- The station that a command of a stream drives; cp commands name theirs (R21). -/
def stationOf : Stream → Nat
  | .cc => ccSt | .cp => cpoSt | .ve => veSt | .ce => ceSt

/-- An entry of the command being executed: it falls due `delay` cycles after issue. -/
def flightOf (s : State) (delay station : Nat) (e : Effect) : Flight :=
  ⟨(cur s).dcc + delay, station, s.ctx.stream, s.ctx.seq, (cur s).dcc, 0, s.ctx.hdr.cmp, e, none, s.ctx.hdr.evt.toNat⟩

/-- Two flights are one entry: of one command, due in one cycle. -/
def Flight.same (f g : Flight) : Bool := f.stream == g.stream && f.seq == g.seq && f.sub == g.sub && f.at' == g.at'

/-- Effects that leave a core through its memory port (R116). -/
def isOutward : Effect → Bool
  | .memWrite .. | .memRead .. | .atom .. | .cellInit .. | .cellAdd .. | .cellSum .. | .cellRead .. => true
  | _ => false

/-- Put an entry in flight on a core; one that leaves the core is noted for the comparison of a pair (R116). -/
def addFlight (s : State) (k : Nat) (f : Flight) : State :=
  modCore s k (fun c =>
    { c with inflight := c.inflight ++ [f], leaving := if isOutward f.eff then c.leaving ++ [f] else c.leaving })

/-- ORDER among entries of one cycle: station, then issue cycle, then sequence number, then the place within the command
(R284). -/
def Flight.before (f g : Flight) : Bool :=
  if f.station ≠ g.station then f.station < g.station
  else if f.issue ≠ g.issue then f.issue < g.issue
  else if f.seq ≠ g.seq then f.seq < g.seq
  else f.sub ≤ g.sub

/-- Put one entry in its place of an ordered list. -/
def insFlight (f : Flight) : List Flight → List Flight
  | [] => [f]
  | g :: r => if f.before g then f :: g :: r else g :: insFlight f r

/-- Entries in their order. -/
def sortFlights : List Flight → List Flight
  | [] => []
  | f :: r => insFlight f (sortFlights r)

/-- Take the entries that fall due in a cycle and meet a test out of a core's queue, in order. -/
def dueOf (c : CoreState) (cyc : Nat) (p : Effect → Bool) : List Flight × CoreState :=
  let due := c.inflight.filter (fun f => f.at' == cyc && p f.eff)
  (sortFlights due, { c with inflight := c.inflight.filter (fun f => !(f.at' == cyc && p f.eff)) })

-- Event counters -------------------------------------------------------------------------------------------------------

/-- Count `n` events of a kind on a core (R350, R351). -/
def countEvent (c : CoreState) (ev : Nat) (st : Stream) (n : Nat) : CoreState :=
  if c.evsel.isEmpty then c
  else
    { c with evcnt := (List.range 8).foldl (fun m i =>
        let sel := (Sparse.get 0 c.evsel i).toNat
        if bits sel 0 8 = ev ∧ (bits sel 10 1 = 1 ∨ bits sel 8 2 = Stream.code st)
        then Sparse.set 0 m i (Sparse.get 0 m i + toWord n) else m) c.evcnt }

-- Compaction (R279) ------------------------------------------------------------------------------------------------------

/-- The keys that a write reaches: its own, and under compaction the other backing too (R279). -/
def mirrorKeys (s : State) (key : Nat) : List Nat :=
  let pkg := key / 2 ^ 39
  let pa := key % 2 ^ 39
  (getPkg s pkg).compactions.foldl (fun l c =>
    if c.oldPhys ≤ pa ∧ pa < c.oldPhys + c.len then l ++ [pkg * 2 ^ 39 + c.newPhys + (pa - c.oldPhys)]
    else if c.newPhys ≤ pa ∧ pa < c.newPhys + c.len then l ++ [pkg * 2 ^ 39 + c.oldPhys + (pa - c.newPhys)] else l) [key]

/-- The addresses whose bytes differ between two memories. -/
def changedKeys (m m' : Memory) : List Nat :=
  (m.map Prod.fst ++ m'.map Prod.fst).filter (fun a => decide (Memory.read m' a ≠ Memory.read m a))

/-- The hub's own write to memory: every byte that it changes is changed in both backings while a range moves (R279). -/
def hubWrite (s : State) (m : Memory) : State :=
  if s.pkgs.all (fun p => p.2.compactions.isEmpty) then { s with mem := m }
  else { s with mem := (changedKeys s.mem m).foldl (fun mm a =>
      (mirrorKeys s a).foldl (fun mm b => Memory.write mm b (Memory.read m a)) mm) m }

-- Records --------------------------------------------------------------------------------------------------------------

/-- Words 13 to 16 of a fault frame for one stream (R318): depth, innermost identifier, stage predicates, iteration. -/
def loopWord (t : StreamSt) : Word :=
  match t.loops with
  | [] => 0
  | l :: r =>
    let preds := (List.range 8).foldl (fun a g =>
      if g < l.stages ∧ l.outer ∧ l.pass ≥ g ∧ l.pass - g < l.count then a + 2 ^ g else a) 0
    toWord ((r.length + 1) * 2 ^ 60 + l.id * 2 ^ 57 + preds * 2 ^ 48 + l.pass % 2 ^ 32)

/-- The header word of a trace record (R342). -/
def traceHead (s : State) (kind : Nat) (st evt k ring : Nat) : Word :=
  toWord (kind * 2 ^ 56 + st * 2 ^ 54 + evt * 2 ^ 48 + (getPkg s (pkgOf k)).pos * 2 ^ 40 + numOf k * 2 ^ 30 + ring)

/-- The base of a partition's trace ring or wait-log ring on a die, if placed (R341), as a memory key. -/
def ringBase (s : State) (k part : Nat) (wait : Bool) (die : Nat) : Option Nat :=
  let p := getPart s (pkgOf k) part
  match Sparse.get 0 (if wait then p.waitRings else p.traceRings) die with
  | 0 => none
  | n + 1 => some (pkgOf k * 2 ^ 39 + n)

/-- Write one 32-byte record into a ring (R341): dropped, with LOST counted, when the ring is full. -/
def ringPut (m : Memory) (base : Nat) (ws : List Word) : Memory :=
  let head := (Memory.word m base).toNat
  let tail := (Memory.word m (base + 8)).toNat
  let size := (Memory.word m (base + 16)).toNat
  if size = 0 ∨ (head - tail) ≥ size then
    Memory.writeNat m (base + 24) 8 ((Memory.word m (base + 24)).toNat + 1)
  else
    let at' := base + 64 + 32 * (head % size)
    let m := (List.range ws.length).foldl (fun m i => Memory.writeNat m (at' + 8 * i) 8 (ws.getD i 0).toNat) m
    Memory.writeNat m base 8 (head + 1)

/-- The partition and ASID of a core's pour. -/
def partOfCore (s : State) (k : Nat) : Nat := match domOf s k with | some d => d.part | none => 0
def asidOfCore (s : State) (k : Nat) : Nat := match domOf s k with | some d => d.asid | none => 0

/-- Word 4 of a core's trace ring: EN bit 0, WSTOP bit 1 (R341). -/
def traceCtl (s : State) (k : Nat) : Nat :=
  match ringBase s k (partOfCore s k) false (dieOf k) with
  | some b => (Memory.word s.mem (b + 32)).toNat
  | none => 0

/-- Put a record into the core's trace buffer; a full buffer drops it and counts LOST (R344). -/
def traceRecord (s : State) (k : Nat) (ws : List Word) : State :=
  let c := getCore s k
  if c.trace.length < 64 then setCore s k { c with trace := c.trace ++ [ws] }
  else
    match ringBase s k (partOfCore s k) false (dieOf k) with
    | some b => hubWrite s (Memory.writeNat s.mem (b + 24) 8 ((Memory.word s.mem (b + 24)).toNat + 1))
    | none => s

/-- The four words of a record about a command of a stream (R342). -/
def commandRecord (s : State) (k kind : Nat) (st : Stream) (evt ring seq : Nat) (w2 : Word) : List Word :=
  [toWord (getCore s k).dcc, traceHead s kind (Stream.code st) evt k ring, w2,
   toWord (asidOfCore s k * 2 ^ 52 + seq % 2 ^ 52)]

/-- Write a wait-log entry (R348). -/
def waitLog (s : State) (k part : Nat) (eff clk pid lc : Nat) (c : Cause) : State :=
  match ringBase s k part true (dieOf k) with
  | none => s
  | some b =>
    let pos := (getPkg s (pkgOf k)).pos
    let w1 := toWord (c.code * 2 ^ 56 + Stream.code c.stream * 2 ^ 54 + c.evt * 2 ^ 48 + pos * 2 ^ 40 + numOf k * 2 ^ 30 + lc)
    let w2 := toWord ((pid % 2 ^ 24) * 2 ^ 40 + clk % 2 ^ 40)
    let a := c.agent
    let w3 := toWord (a.kind * 2 ^ 60 + a.pkg * 2 ^ 52 + a.core * 2 ^ 42 + a.stream * 2 ^ 40 + a.idx * 2 ^ 32 + a.pid % 2 ^ 24)
    hubWrite s (ringPut s.mem b [toWord eff, w1, w2, w3])

/-- A region's effective field (R298): the RCB, from the region to the root, whose OVR bit is set; the level is bounded by 8. -/
def effRcb (m : Memory) (pkg : Nat) (bit : Nat) : Nat → Nat → Option Nat
  | 0, _ => none
  | n + 1, rcb =>
    let key := pkg * 2 ^ 39 + rcb
    if bits (Memory.word m (key + 8)).toNat (36 + bit) 1 = 1 then some rcb
    else
      let parent := bits (Memory.word m key).toNat 0 39
      if parent = 0 then none else effRcb m pkg bit n parent

/-- A word of the block that holds a region's field; 0 where none does. -/
def effWord (s : State) (pkg rcb bit word : Nat) : Nat :=
  match effRcb s.mem pkg bit 8 rcb with
  | some r => (Memory.word s.mem (pkg * 2 ^ 39 + r + 8 * word)).toNat
  | none => 0

/-- The RCB that a domain's mould names. -/
def Domain.region (d : Domain) : Nat := bits (d.mould.getD 1 0).toNat 0 39

/-- Write a 256-byte record of 32 words into a region's fault log and interrupt the system core (R322). -/
def faultLog (s : State) (pkg part rcb : Nat) (ws : List Word) : State :=
  match effRcb s.mem pkg 9 8 rcb with
  | none => s
  | some r =>
    let b := pkg * 2 ^ 39 + (Memory.word s.mem (pkg * 2 ^ 39 + r + 48)).toNat % 2 ^ 39
    let m := s.mem
    let head := (Memory.word m b).toNat
    let tail := (Memory.word m (b + 8)).toNat
    let size := (Memory.word m (b + 16)).toNat
    if size = 0 ∨ head - tail ≥ size then
      hubWrite s (Memory.writeNat m (b + 24) 8 ((Memory.word m (b + 24)).toNat + 1))
    else
      let at' := b + 64 + 256 * (head % size)
      let m := (List.range 32).foldl (fun m i => Memory.writeNat m (at' + 8 * i) 8 (ws.getD i 0).toNat) m
      modPart (hubWrite s (Memory.writeNat m b 8 (head + 1))) pkg part
        (fun p => { p with interrupts := p.interrupts + 1 })

/-- A log record of kinds 2 to 7: words 0 to 4 and the DETAIL words (R318, R322); `f` is the DCC at which a pour's cores stopped, for
a kill or a checkpoint. -/
def logRecord (s : State) (kind code pkg core pid asid mould : Nat) (detail : List Word) (f : Nat := 0) : List Word :=
  let head := toWord (kind * 2 ^ 56 + code * 2 ^ 48 + (getPkg s pkg).pos * 2 ^ 24 + core * 2 ^ 8)
  [head, toWord pid, toWord f, toWord f, toWord (asid * 2 ^ 12 + mould)] ++ List.replicate 12 0 ++ detail

-- Holds ----------------------------------------------------------------------------------------------------------------

/-- Two raises of one cause: one condition of one station of a core (R109). -/
def sameCause (c x : Cause) : Bool := x.code == c.code && x.core == c.core && x.station == c.station && x.lc == c.lc

/-- The causes with one raised (R107): a condition that is a cause of the hold already stays one cause, uncleared again. -/
def addCause (l : List Cause) (c : Cause) : List Cause :=
  if l.any (sameCause c) then l.map (fun x => if sameCause c x then { x with cleared := false } else x) else l ++ [c]

/-- Raise a cause of a hold on a domain (R103, R105, R107): it takes effect H cycles on, an earlier announced effect standing;
while the domain is held the cause joins, and so puts off the release. -/
def raiseCause (s : State) (pid : Nat) (c : Cause) : State :=
  modDom s pid (fun d =>
    match d.status with
    | .held | .catchUp => { d with causes := addCause d.causes c, framed := d.framed && c.code != 6 }
    | _ =>
      { d with causes := addCause d.causes c
               freeze := some (match d.freeze with | some f => min f (d.dcc + d.h) | none => d.dcc + d.h) })

/-- A hold raised by the command being executed. In a pair both cores execute it, so each raises the cause under its own number and
writes its own wait-log entry (log 78). -/
def raiseHold (s : State) (code lc : Nat) (agent : Agent) : State :=
  let k := s.ctx.core
  raiseCause s (cur s).pid
    ⟨code, k, s.ctx.unit, s.ctx.stream, s.ctx.hdr.evt.toNat, lc, agent, false⟩

-- Faults ---------------------------------------------------------------------------------------------------------------

/-- The fault codes of R320. -/
def fEncoding : Nat := 0x01
def fSchedule : Nat := 0x02
def fCrucible : Nat := 0x03
def fShape : Nat := 0x04
def fFqUnder : Nat := 0x05
def fFqOver : Nat := 0x06
def fRangeMiss : Nat := 0x07
def fPermission : Nat := 0x08
def fResidency : Nat := 0x09
def fSymBreak : Nat := 0x0A
def fSymClaim : Nat := 0x0B
def fExpansion : Nat := 0x0C
def fJoin : Nat := 0x0D
def fHoldBudget : Nat := 0x0E
def fPair : Nat := 0x0F
def fLink : Nat := 0x10
def fMemory : Nat := 0x11
def fBroken : Nat := 0x12
def fTrap : Nat := 0x13
def fCallDepth : Nat := 0x14

/-- Range-miss and partial-residency are the deferred faults (R320). -/
def isDeferred (code : Nat) : Bool := code == fRangeMiss || code == fResidency

/-- The stop record of a core that takes a fault. Of faults of one cycle the stream with the lowest code is the faulting one, and each
stream's code is recorded (R147, R313); of two faults of one stream in one cycle, such as an issue fault and the overflow of an earlier
FQPUSH, the first raised stays (log 79). A stopping fault of a later cycle takes the place of the deferred fault that had stopped the
core, and of none (R313). -/
def joinStop (c : CoreState) (later : Bool) (st : Stream) (code cause : Nat) (detail : List Word) (prog : Nat) (w23 w24 : Word) : Stop :=
  match c.stop with
  | none => ⟨c.dcc, code, st, (List.replicate 4 0).set (Stream.code st) code, cause, detail, prog, w23, w24⟩
  | some p =>
    if later then
      if code ≠ 0 ∧ (p.code = 0 ∨ (isDeferred p.code = true ∧ isDeferred code = false)) then
        ⟨p.cycle, code, st, p.codes.set (Stream.code st) code, cause, detail, prog, w23, w24⟩
      else p
    else
      let codes := if p.codes.getD (Stream.code st) 0 = 0 then p.codes.set (Stream.code st) code else p.codes
      if p.code = 0 ∨ (code ≠ 0 ∧ Stream.code st < Stream.code p.stream) then
        ⟨p.cycle, code, st, codes, cause, detail, prog, w23, w24⟩
      else { p with codes := codes }

/-- A core has stopped in an earlier cycle than its domain's present one. -/
def stoppedBefore (c : CoreState) (d : Domain) : Bool := match c.stop with | some p => decide (p.cycle < d.dcc) | none => false

/-- The accesses that a stop names, for the failure of a repaired one (R314): stream, sequence number, progress, address. -/
def accessOf (st : Stream) (detail : List Word) (prog : Nat) : Nat × Nat × Nat × Nat :=
  (Stream.code st, (detail.getD 2 0).toNat, prog, (detail.getD 0 0).toNat)

/-- TAKING A FAULT (R313): in its cycle the core and its pair partner stop, all four streams at that cycle; the fault raises a
hold with cause 6, of the station that the command drives (R109); a stopping fault ends the pour at the freeze. A second failure of a
repaired access stops for good (R314). The hold names the event tag of the command that raised it (R119, R348). -/
def takeFaultFull (s : State) (k : Nat) (st : Stream) (station evt code cause : Nat) (detail : List Word) (prog : Nat) (w23 w24 : Word) :
    State :=
  match domOf s k with
  | none => modCore s k (fun c => { c with stop := some (joinStop c false st code cause detail prog w23 w24) })
  | some d =>
    let s1 := modCore s k (fun c => { c with stop := some (joinStop c (stoppedBefore c d) st code cause detail prog w23 w24) })
    let s2 := match partnerOf d k with
      | some q => modCore s1 q (fun c => { c with stop := some (joinStop c (stoppedBefore c d) st 0 0 [] 0 0 0) })
      | none => s1
    let sig := accessOf st detail prog
    let again := (getCore s k).repaired.contains sig
    let s2 := modCore s2 k (fun c => { c with repaired := sig :: c.repaired })
    let s3 := if ((getCore s k).stop.map Stop.code).getD 0 ≠ 0 then s2 else raiseCause s2 d.pid ⟨6, k, station, st, evt, 0, {}, false⟩
    if isDeferred code && !again then s3 else modDom s3 d.pid (fun d => { d with doomed := true })

/-- The same with no progress index and no second member. -/
def takeFault (s : State) (k : Nat) (st : Stream) (station evt code cause : Nat) (detail : List Word) : State :=
  takeFaultFull s k st station evt code cause detail 0 0 0

/-- A fault of the command being executed, raised at its issue: it has no effect and stays its stream's next unissued command
(R147). -/
def faultNow (s : State) (code cause : Nat) (detail : List Word) : State :=
  let s := takeFault s s.ctx.core s.ctx.stream s.ctx.unit s.ctx.hdr.evt.toNat code cause detail
  { s with ctx := { s.ctx with faulted := true } }

/-- The exception entry of a system core (R191; log 3): the address of the next command and the level are saved, the code is
recorded, the level becomes 1, and the core goes on at the given address. -/
def enterHypervisor (c : CoreState) (next at' : Nat) (code : BitVec 16) : CoreState :=
  { c with savedPc := next, savedLevel := c.level, level := 1, hvCode := code, cc := { c.cc with nextIdx := at' } }

/-- The return from it: to the address and level saved at entry (R191). -/
def leaveHypervisor (c : CoreState) : CoreState :=
  { c with level := c.savedLevel, cc := { c.cc with nextIdx := c.savedPc } }

/-- RESUME of a deferred fault (R314, R326): catch-up begins at the earliest stop cycle. -/
def beginCatchUp (s : State) (pid : Nat) (agent : Agent) : State :=
  match findDom s pid with
  | none => s
  | some d =>
    let stops := d.all.filterMap (fun k => (getCore s k).stop.map Stop.cycle)
    let first := stops.foldl min d.dcc
    let s := d.all.foldl (fun s k => modCore s k (fun c => { c with stop := none })) s
    modDom s pid (fun d =>
      { d with status := .catchUp, dcc := first, lastClear := s.clock
               causes := d.causes.map (fun c => if c.code = 6 then { c with cleared := true, agent := agent } else c) })

-- Range lookup (R273) --------------------------------------------------------------------------------------------------

/-- An entry matches an address under an ASID. -/
def RangeEntry.holds (e : RangeEntry) (asid a : Nat) : Bool :=
  bits e.ctl.toNat 0 1 == 1 && bits e.ctl.toNat 8 12 == asid && e.base.toNat ≤ a && a < e.limit.toNat

/-- Sector length and sector (R272). -/
def RangeEntry.sigma (e : RangeEntry) : Nat := 256 * ((e.limit.toNat - e.base.toNat + 16383) / 16384)
def RangeEntry.sector (e : RangeEntry) (a : Nat) : Nat := (a - e.base.toNat) / e.sigma

/-- The first entry that matches, with its number. -/
def findRange (t : Sparse RangeEntry) (asid a : Nat) : Option (Nat × RangeEntry) :=
  t.find? (fun p => p.2.holds asid a)

/-- What a lookup gives: an entry and a memory key, or a fault with its DETAIL words. -/
inductive Lookup where
  | ok (e : RangeEntry) (key : Nat)
  | fault (code : Nat) (detail : List Word)
  /-- no 39-bit physical address -/
  | nowhere
  deriving DecidableEq, Repr

/-- The permission bits of the control word (R270). -/
def pRD : Nat := 1
def pWR : Nat := 2
def pAT : Nat := 3
def pCH : Nat := 4

/-- The lookup of an access (R273): range-miss, then permission, then partial-residency. `perms` are the bits it needs. -/
def lookup (c : CoreState) (pkg asid a : Nat) (perms : List Nat) (seq : Nat) : Lookup :=
  let detail := fun sec => [toWord a, toWord (asid + sec * 2 ^ 16), toWord seq, (0 : Word)]
  match findRange c.ranges asid a with
  | none => .fault fRangeMiss (detail 0)
  | some (_, e) =>
    if perms.any (fun b => bits e.ctl.toNat b 1 = 0) then .fault fPermission (detail (e.sector a))
    else if bits e.res.toNat (e.sector a) 1 = 0 then .fault fResidency (detail (e.sector a))
    else
      let pa := (a + e.off.toNat) % 2 ^ 64
      if pa < 2 ^ Config.physBits then .ok e (pkg * 2 ^ 39 + pa) else .nowhere

/-- The three bits of the watch filter for an address (R280). -/
def watchHashes (a : Nat) : List Nat :=
  let g := bits a 8 49
  let g0 := bits g 0 14
  let g1 := bits g 14 14
  let g2 := bits g 28 14
  [g0 ^^^ g2, g1 ^^^ bits g 42 7, (g0 + g1 + g2) % 2 ^ 14]

/-- The access meets the native filter (R280). -/
def nativeHit (c : CoreState) (a : Nat) : Bool := (watchHashes a).all (fun h => c.watch.getLsbD h)

/-- The access of `n` bytes meets the compatibility watch of its entry (R281). -/
def compatHit (e : RangeEntry) (a n : Nat) : Bool :=
  bits e.ctl.toNat 5 1 == 1 && bits e.wmask.toNat (e.sector a) 1 == 1 &&
    (List.range 64).any (fun u => bits e.wbm.toNat u 1 == 1 && runsMeet (a % 256) n (4 * u) 4)

/-- The watch test of an access that is looked up, whatever the lookup gives (R280, R281): records, native before compatibility, and
the stop that a hit requests (R282, R345). -/
def watchTest (s : State) (k : Nat) (st : Stream) (evt ring seq a n kind : Nat) : State :=
  let c := getCore s k
  let nat := nativeHit c a
  let com := match findRange c.ranges (asidOfCore s k) a with
    | some (_, e) => compatHit e a n
    | none => false
  let w2 := toWord (kind * 2 ^ 60 + a)
  let s := if nat then traceRecord s k (commandRecord s k 0x02 st evt ring seq w2) else s
  let s := if com then traceRecord s k (commandRecord s k 0x03 st evt ring seq w2) else s
  if (nat || com) && bits (traceCtl s k) 1 1 == 1 && (getPart s (pkgOf k) (partOfCore s k)).debug
  then modCore s k (fun c => { c with stopReq := true }) else s

/-- A request against the rate credit (R104), made from a station: one granule of credit; a hold with cause 2 when the credit is
negative or more than 768 requests are outstanding. -/
def rateUse (s : State) (k : Nat) (st : Stream) (station evt : Nat) : State :=
  let c := getCore s k
  let credit := c.credit - Config.creditUnit
  let out := c.outstanding ++ [s.clock + Config.memServe c.requests]
  let c := countEvent { c with credit := credit, outstanding := out, requests := c.requests + 1 } 7 st 1
  let s := setCore s k c
  if credit < 0 ∨ out.length > Config.creditCap then
    raiseCause s c.pid ⟨2, k, station, st, evt, 0, ⟨1, (getPkg s (pkgOf k)).pos, numOf k, Stream.code st, 0, c.pid⟩, false⟩
  else s

-- Causal order (R286, R287) --------------------------------------------------------------------------------------------

/-- A party's clock: four counts, one for each compute die. -/
def clockOf (s : State) (p : Party) : List Nat :=
  match s.clocks.find? (fun x => x.1 = p) with
  | some x => x.2
  | none => [0, 0, 0, 0]

def setClock (s : State) (p : Party) (v : List Nat) : State :=
  { s with clocks := (p, v) :: s.clocks.filter (fun x => x.1 ≠ p) }

/-- The owning die of a memory key (R268). -/
def memDie (key : Nat) : Nat := bits key 37 2

/-- A party's write to memory that a die owns takes its clock with that die's entry increased by one (R286); a write to another
package's memory raises the entry of the same die number (log 80). -/
def nextClock (s : State) (p : Party) (key : Nat) : List Nat :=
  let v := clockOf s p
  v.set (memDie key) (v.getD (memDie key) 0 + 1)

/-- Bytes carry the write that stored them last (R286), in both backings while a range moves (R279). -/
def tagBytes (s : State) (t : WriteTag) (key n : Nat) : State :=
  { s with writers := (mirrorKeys s key).foldl (fun l a =>
      (List.range n).map (fun i => (a + i, t)) ++ l.filter (fun w => w.1 < a ∨ a + n ≤ w.1)) s.writers }

/-- A party's write of `n` bytes: its clock, and the bytes' writer (R286). -/
def noteWrite (s : State) (p : Party) (key n : Nat) : State :=
  let v := nextClock s p key
  tagBytes (setClock s p v) ⟨p, v⟩ key n

/-- A party observes a write (R287): its own count for nothing. -/
def observe (s : State) (p : Party) (ts : List WriteTag) : State :=
  { s with seen := s.seen ++ ((ts.filter (fun t => t.party ≠ p)).map (fun t => (p, t))).filter (fun x => x ∉ s.seen) }

/-- A party observes the writes whose bytes its read returns (R287). -/
def noteRead (s : State) (p : Party) (key n : Nat) : State :=
  observe s p ((s.writers.filter (fun w => key ≤ w.1 ∧ w.1 < key + n)).map Prod.snd)

/-- Merge the observed writes that meet a test (R287). -/
def mergeSeen (s : State) (p : Party) (t : Party → Bool) : State :=
  let mine := s.seen.filter (fun x => x.1 = p && t x.2.party)
  let v := mine.foldl (fun v x => List.zipWith max v x.2.clock) (clockOf s p)
  if mine.isEmpty then s
  else setClock { s with seen := s.seen.filter (fun x => !(x.1 = p && t x.2.party)) } p v

-- Device memory --------------------------------------------------------------------------------------------------------

/-- Store `n` enabled bytes into device memory, in both backings while a range moves (R279). -/
def memStore (s : State) (key n en v : Nat) : State :=
  { s with mem := (mirrorKeys s key).foldl (fun m a => Memory.writeMasked m a en v n) s.mem }

/-- Load `n` bytes of device memory. -/
def memLoad (s : State) (key n : Nat) : Nat := Memory.readNat s.mem key n

end Sys2Proof.Machine
end

