-- ==== Sys2Proof/Machine/Flags.lean ====
section
/-! DEFINITION. Sticky flags (R47, R48): which are raised, and how they are put into an engine's flags register. -/

namespace Sys2Proof.Machine

/-- The flags of a list of results, put together. -/
def orFlags (l : List (Nat × Flags)) : Flags := l.foldl (fun a x => a ||| x.2) 0

/-- Set sticky flags of an engine: they only accumulate (R47). The engines with flags are the CE, the VE and the CP. -/
def stickFlags (c : CoreState) (eng : Stream) (v : Nat) : CoreState :=
  match eng with
  | .ce => { c with flagsCE := c.flagsCE ||| BitVec.ofNat 5 v }
  | .ve => { c with flagsVE := c.flagsVE ||| BitVec.ofNat 5 v }
  | .cp => { c with flagsCP := c.flagsCP ||| BitVec.ofNat 5 v }
  | .cc => c

/-- Post flags for a landing cycle; raising none posts nothing. -/
def postFlags (s : State) (delay station : Nat) (eng : Stream) (v : Nat) : State :=
  if v = 0 then s else addFlight s s.ctx.core (flightOf s delay station (.flags eng v))

/-- The flags of an integer clamp (R50, R232): saturation when the value changes. -/
def clampFlags (t : Ty) (x : Int) : Flags := (clampInt t x).2

end Sys2Proof.Machine
end

