-- ==== Sys2Proof/Machine/Operands.lean ====
section
/-! DEFINITION. Operand forms of the vector engine (R218 to R225): lanes, groups, predicates, format words, immediates, and how
a command's results are posted; and the order in which a command's issue checks are made (R147). -/

namespace Sys2Proof.Machine

/-- The first failing check of a list, as its fault code (R147). -/
def firstFault : List (Bool × Nat) → Option Nat
  | [] => none
  | (ok, code) :: r => if ok then firstFault r else some code

/-- Run a command's effect when its issue checks pass; else its first fault is taken (R147, R313). -/
def checked (s : State) (checks : List (Bool × Nat)) (f : State → State) : Host.Outcome State Fault Refusal :=
  match firstFault checks with
  | some code => .next (faultNow s code 0 [])
  | none => .next (f s)

/-- Lane `j` of width `w` of a row (R218). -/
def laneAt (w : Nat) (r : Row) (j : Nat) : Nat := bits r.toNat (w * j) w

/-- Element `e` of the group that starts at row `r` (R218). -/
def elemAt (c : CoreState) (t : Ty) (r e : Nat) : Nat :=
  laneAt (Ty.bits t) (getRow c (r + e / Ty.lanes t)) (e % Ty.lanes t)

/-- Lanes of width `w` packed into a number, lane 0 lowest. -/
def packLanes (w : Nat) : List Nat → Nat
  | [] => 0
  | v :: r => v % 2 ^ w + 2 ^ w * packLanes w r

/-- Width code of a count predicate (R244). -/
def widCode (t : Ty) : BitVec 2 :=
  match Ty.bits t with
  | 64 => 3 | 32 => 2 | 16 => 1 | _ => 0

/-- A sampled predicate: group size, and element activity (R220). -/
structure VPred where
  g : Nat
  act : List Bool
  deriving DecidableEq, Repr

/-- A mask register. -/
def getMask (c : CoreState) (m : Nat) : BitVec 128 := Sparse.get 0 c.masks m

/-- Sample a predicate (R220); none when a count predicate's width field differs from the lane width. -/
def predOf (c : CoreState) (p : Prd) (t : Ty) : Option VPred :=
  let L := Ty.lanes t
  match p with
  | .all => some ⟨1, List.replicate L true⟩
  | .mask m => some ⟨1, (List.range L).map (fun e => (getMask c m.toNat).getLsbD e)⟩
  | .count k =>
    let kp := Sparse.get {} c.kpreds k.toNat
    if kp.wid = widCode t then
      let g := max 1 ((kp.cnt.toNat + L - 1) / L)
      some ⟨g, (List.range (g * L)).map (fun e => decide (e < kp.cnt.toNat))⟩
    else none

/-- The predicate to work with: an idle command has no active element (R98). -/
def VPred.under (p : VPred) (active : Bool) : VPred := if active then p else ⟨p.g, p.act.map (fun _ => false)⟩

def VPred.any (p : VPred) : Bool := p.act.any (fun b => b)

/-- The format word a decoding command reads: the head of the format queue (R219). -/
def headWord (c : CoreState) : Nat := match c.fq with | [] => 0 | w :: _ => w.toNat
/-- Descriptor A and descriptor B of the head word. -/
def descA (c : CoreState) : Nat := headWord c / 2 ^ 32
def descB (c : CoreState) : Nat := headWord c % 2 ^ 32

/-- Step 1 of R223: the format word of a decoding command. -/
def fmtChecks (c : CoreState) (needs : Bool) : List (Bool × Nat) :=
  [(!needs || !c.fq.isEmpty, fFqUnder), (!needs || (nfValid (descA c) && nfValid (descB c)), fEncoding)]

/-- Step 2 of R223: the predicate's width, G, and groups that stay within v511. `many` accepts G > 1 on `rows`, and
`singles` are operands of one register. -/
def predChecks (c : CoreState) (p : Prd) (t : Ty) (many : Bool) (rows : List Nat) : List (Bool × Nat) :=
  match predOf c p t with
  | none => [(false, fEncoding)]
  | some q => [(many || q.g == 1, fEncoding), (rows.all (fun r => r + q.g ≤ 512), fEncoding)]

/-- The sampled predicate, once its check has passed. -/
def predNow (s : State) (p : Prd) (t : Ty) : VPred :=
  match predOf (cur s) p t with
  | some q => q.under s.ctx.active
  | none => ⟨1, []⟩

/-- Byte enables of a list of lanes that are written (`some`) or left alone. -/
def laneEnables (bytes : Nat) : List (Option Nat) → Nat
  | [] => 0
  | v :: r => (if v.isSome then 2 ^ bytes - 1 else 0) + 2 ^ bytes * laneEnables bytes r

/-- Post an entry of the vector engine. -/
def vePost (s : State) (delay : Nat) (e : Effect) : State :=
  addFlight s s.ctx.core (flightOf s delay veSt e)

/-- Post one row: lanes with a value are written. -/
def postRow (s : State) (delay r : Nat) (t : Ty) (vals : List (Option Nat)) : State :=
  if vals.any Option.isSome then
    vePost s delay (.row r (BitVec.ofNat 128 (laneEnables (Ty.size t) vals))
      (BitVec.ofNat 1024 (packLanes (Ty.bits t) (vals.map (fun v => v.getD 0)))) .plain)
  else s

/-- Post the rows of a group. -/
def postRows (s : State) (delay : Nat) (t : Ty) (vals : List (Option Nat)) : Nat → Nat → State
  | _, 0 => s
  | r, g + 1 => postRows (postRow s delay r t (vals.take (Ty.lanes t))) delay t (vals.drop (Ty.lanes t)) (r + 1) g

/-- R221: active elements take their result, inactive ones are left or zeroed; with none active nothing is written and no
flag raised. -/
def postGroup (s : State) (delay vd : Nat) (t : Ty) (z : Bool) (p : VPred) (res : Nat → Nat × Flags) : State :=
  if p.any then
    let out := (List.range p.act.length).map (fun e => if p.act.getD e false then some (res e) else none)
    let vals := out.map (fun o => match o with | some x => some x.1 | none => if z then some 0 else none)
    postFlags (postRows s delay t vals vd p.g) delay veSt .ve (orFlags (out.filterMap id))
  else s

/-- A lane-wise command (R220 to R223): its checks, then `f` on each active element. -/
def veLanes (s : State) (vd : VReg) (p : Prd) (z : Bool) (t : Ty) (needsFmt many : Bool) (rows : List VReg)
    (own : List (Bool × Nat)) (delay : Nat) (f : CoreState → Nat → Nat × Flags) : Host.Outcome State Fault Refusal :=
  let c := cur s
  checked s (fmtChecks c needsFmt ++ predChecks c p t many (vd.toNat :: rows.map BitVec.toNat) ++ own)
    (fun s => postGroup s delay vd.toNat t z (predNow s p t) (f c))

/-- Immediates (R225): the lane value at lane `j`. -/
def immLane (t : Ty) (imm : BitVec 16) (j : Nat) : Nat :=
  match t with
  | .nf => if j % 2 = 0 then imm.toNat % 256 else imm.toNat / 256
  | .i8 | .n8 => imm.toNat % 256
  | .i64 | .i32 => intCode (Ty.bits t) imm.toInt
  | _ => imm.toNat

/-- The types of the VE-B forms (R225). -/
def immTypeOk (t : Ty) : Bool :=
  match t with
  | .f64 | .f32 | .b1 => false
  | _ => true

/-- The exact value of a lane of a floating type. -/
def laneNum (t : Ty) (d : Nat) (c : Nat) : Num := decodeNum (fmtOf t d) c

/-- A value rounded into a lane of a floating type. -/
def numLane (t : Ty) (d : Nat) (rm : Rm) (x : Num) : Nat × Flags := encodeNum (fmtOf t d) rm x

end Sys2Proof.Machine
end

