-- ==== Sys2Proof/Machine/Special.lean ====
section
/-! DEFINITION. Division, roots and the special functions (R57 to R67): correctly rounded by exact rational and root
arithmetic with a sticky bit; the f32 algorithms step for step; the transcendental functions of f16, bf16 and nf by fixed
point with 1,024 fraction bits and a sticky bit. -/

namespace Sys2Proof.Machine

/-- x / y rounded once (R58). -/
def divNum (f : Fmt) (rm : Rm) (x y : Num) : Nat × Flags :=
  match x, y with
  | .nan a, .nan b => encodeNum f rm (.nan (a || b))
  | .nan a, _ => encodeNum f rm (.nan a)
  | _, .nan b => encodeNum f rm (.nan b)
  | .inf _, .inf _ => encodeNum f rm invalidNum
  | .inf a, .fin b _ _ => encodeNum f rm (.inf (a != b))
  | .fin a _ _, .inf b => encodeNum f rm (.fin (a != b) 0 0)
  | .fin a m e, .fin b n d =>
    if n = 0 then encodeNum f rm (if m = 0 then invalidNum else .inf (a != b))
    else if m = 0 then encodeNum f rm (.fin (a != b) 0 0)
    else roundInto f rm (a != b) m n (e - d)

/-- The integer square root of `n`, found from bit `k` down, with `r` found so far. -/
def isqrtFrom (n : Nat) : Nat → Nat → Nat
  | 0, r => r
  | k + 1, r => isqrtFrom n k (if (r + 2 ^ k) * (r + 2 ^ k) ≤ n then r + 2 ^ k else r)

def isqrt (n : Nat) : Nat := isqrtFrom n (n.log2 / 2 + 1) 0

/-- The square root rounded once (R58). -/
def sqrtNum (f : Fmt) (rm : Rm) (x : Num) : Nat × Flags :=
  match x with
  | .nan s => encodeNum f rm (.nan s)
  | .inf n => encodeNum f rm (if n then invalidNum else .inf false)
  | .fin n m e =>
    if m = 0 then encodeNum f rm (.fin n 0 0)
    else if n then encodeNum f rm invalidNum
    else
      let t : Nat := if e % 2 = 0 then 200 else 201
      let N := m * 2 ^ t
      let q := isqrt N
      roundInto f rm false (2 * q + (if q * q = N then 0 else 1)) 1 ((e - t) / 2 - 1)

/-- One over the square root, rounded once (R58). -/
def rsqNum (f : Fmt) (rm : Rm) (x : Num) : Nat × Flags :=
  match x with
  | .nan s => encodeNum f rm (.nan s)
  | .inf n => encodeNum f rm (if n then invalidNum else .fin false 0 0)
  | .fin n m e =>
    if m = 0 then encodeNum f rm (.inf n)
    else if n then encodeNum f rm invalidNum
    else
      let t0 := m.log2 + 220
      let t : Nat := if (e + t0) % 2 = 0 then t0 else t0 + 1
      let q := isqrt (2 ^ t / m)
      roundInto f rm false (2 * q + (if q * q * m = 2 ^ t then 0 else 1)) 1 (-((e + t) / 2) - 1)

/-- 1 / x (R229). -/
def rcpNum (f : Fmt) (rm : Rm) (x : Num) : Nat × Flags := divNum f rm (.fin false 1 0) x

/-- The seven functions. -/
inductive Fn where
  | exp2 | log2 | exp | log | sinpi | cospi | tanh
  deriving DecidableEq, Repr

/-- m * 2^e as an integer multiple of one half, when it is one. -/
def halves (m : Nat) (e : Int) : Option Nat :=
  if e + 1 ≥ 0 then some (m * 2 ^ (e + 1).toNat)
  else let k := (-(e + 1)).toNat
    if m % 2 ^ k = 0 then some (m / 2 ^ k) else none

/-- m * 2^e as an integer, when it is one. -/
def asInteger (m : Nat) (e : Int) : Option Nat :=
  if e ≥ 0 then some (m * 2 ^ e.toNat)
  else let k := (-e).toNat
    if m % 2 ^ k = 0 then some (m / 2 ^ k) else none

/-- Special operands and exact cases (R67): the listed result, written by R37 and R38. -/
def exactCase (fn : Fn) (x : Num) : Option Num :=
  match x with
  | .nan s => some (.nan s)
  | .inf n =>
    match fn with
    | .exp2 | .exp => some (if n then .fin false 0 0 else .inf false)
    | .log2 | .log => some (if n then invalidNum else .inf false)
    | .sinpi | .cospi => some invalidNum
    | .tanh => some (.fin n 1 0)
  | .fin n m e =>
    match fn with
    | .exp2 =>
      if m = 0 then some (.fin false 1 0)
      else match asInteger m e with
        | some k => if k ≤ 1024 then some (.fin false 1 (if n then -(k : Int) else k)) else none
        | none => none
    | .exp => if m = 0 then some (.fin false 1 0) else none
    | .log2 =>
      if m = 0 then some (.inf true)
      else if n then some invalidNum
      else if 2 ^ m.log2 = m then
        let k : Int := (m.log2 : Int) + e
        some (.fin (k < 0) k.natAbs 0)
      else none
    | .log =>
      if m = 0 then some (.inf true)
      else if n then some invalidNum
      else if 2 ^ m.log2 = m && (m.log2 : Int) + e == 0 then some (.fin false 0 0) else none
    | .sinpi =>
      if m = 0 then some (.fin n 0 0)
      else match halves m e with
        | some k => some (if k % 4 = 1 then .fin n 1 0 else if k % 4 = 3 then .fin (!n) 1 0 else .fin n 0 0)
        | none => none
    | .cospi =>
      if m = 0 then some (.fin false 1 0)
      else match halves m e with
        | some k => some (if k % 4 = 0 then .fin false 1 0 else if k % 4 = 2 then .fin true 1 0 else .fin false 0 0)
        | none => none
    | .tanh => if m = 0 then some (.fin n 0 0) else none

-- The f32 algorithms (R60 to R66) ---------------------------------------------------------------------------------------

/-- Rounded to f32, to nearest even. -/
def rd32 (x : Num) : Num := decodeNum fmtF32 (encodeNum fmtF32 .rne x).1
def fma32 (a b c : Num) : Num := rd32 (Num.add .rne (Num.mul a b) c)
def k32 (h : Nat) : Num := decodeNum fmtF32 h
def intNum (k : Int) : Num := .fin (k < 0) k.natAbs 0

/-- Rint of R60. -/
def rint (x : Num) : Int :=
  match x with
  | .fin n m e => let q := (roundRat .rne n m 1 e).1; if n then -(q : Int) else q
  | _ => 0

/-- The table T of R61. -/
def tabT : List Nat :=
  [0x3F800000, 0x3F82CD87, 0x3F85AAC3, 0x3F88980F, 0x3F8B95C2, 0x3F8EA43A, 0x3F91C3D3, 0x3F94F4F0,
   0x3F9837F0, 0x3F9B8D3A, 0x3F9EF532, 0x3FA27043, 0x3FA5FED7, 0x3FA9A15B, 0x3FAD583F, 0x3FB123F6,
   0x3FB504F3, 0x3FB8FBAF, 0x3FBD08A4, 0x3FC12C4D, 0x3FC5672A, 0x3FC9B9BE, 0x3FCE248C, 0x3FD2A81E,
   0x3FD744FD, 0x3FDBFBB8, 0x3FE0CCDF, 0x3FE5B907, 0x3FEAC0C7, 0x3FEFE4BA, 0x3FF5257D, 0x3FFA83B3]

/-- 2^n (T[j] + T[j] p), exactly, for k = 32 n + j. -/
def expTail (k : Int) (p : Num) : Num :=
  let T := k32 (tabT.getD (k % 32).toNat 0)
  Num.scale (Num.add .rne T (Num.mul T p)) (k / 32)

/-- The final rounding's overflow and underflow, with inexact (R60). -/
def final32 (x : Num) : Nat × Flags :=
  let (c, fl) := encodeNum fmtF32 .rne x
  (c, (fl &&& (fOVF + fUFL)) ||| fINX)

/-- The kf and p of VEXP (R63). -/
def expParts (x : Num) : Int × Num :=
  let kf := rint (rd32 (Num.mul x (k32 0x4238AA3B)))
  let r := fma32 (intNum kf) (Num.neg (k32 0x3CB17218)) x
  let r := fma32 (intNum kf) (Num.neg (k32 0xAE82E308)) r
  let p := fma32 r (k32 0x3E2AAAAB) (k32 0x3F000000)
  let p := rd32 (Num.mul p r)
  (kf, fma32 p r r)

def exp2F32 (x : Num) : Nat × Flags :=
  if x.cmp (intNum 129) = 1 then (0x7F800000, fOVF + fINX)
  else if x.cmp (intNum (-152)) = -1 then (0, fUFL + fINX)
  else
    let kf := rint (x.scale 5)
    let r := Num.add .rne x (Num.neg ((intNum kf).scale (-5)))
    let p := fma32 r (k32 0x3D635847) (k32 0x3E75FDF0)
    let p := fma32 p r (k32 0x3F317218)
    final32 (expTail kf (rd32 (Num.mul p r)))

def expF32 (x : Num) : Nat × Flags :=
  if x.cmp (intNum 89) = 1 then (0x7F800000, fOVF + fINX)
  else if x.cmp (intNum (-104)) = -1 then (0, fUFL + fINX)
  else let (kf, p) := expParts x; final32 (expTail kf p)

/-- |x|. -/
def absNum : Num → Num
  | .fin _ m e => .fin false m e
  | .inf _ => .inf false
  | y => y

/-- Give a value a sign. -/
def signNum (n : Bool) : Num → Num
  | .fin _ m e => .fin n m e
  | .inf _ => .inf n
  | y => y

def tanhF32 (x : Num) : Nat × Flags :=
  let a := absNum x
  let n := x.isNeg
  if a.cmp (.fin false 1 (-12)) = -1 then
    let sub := a.cmp (.fin false 1 (-126)) = -1
    ((encodeNum fmtF32 .rne x).1, if sub then fINX + fUFL else fINX)
  else if a.cmp (intNum 10) ≠ -1 then ((encodeNum fmtF32 .rne (.fin n 1 0)).1, fINX)
  else
    let (kf, p) := expParts (a.scale 1)
    let em := rd32 (Num.add .rne (expTail kf p) (.fin true 1 0))
    let d := rd32 (Num.add .rne em (intNum 2))
    let (c, fl) := divNum fmtF32 .rne (signNum n em) d
    (c, (fl &&& (fOVF + fUFL)) ||| fINX)

/-- m0 or m0/2 and the exponent (R65). -/
def logReduce (m : Nat) (e : Int) : Num × Int :=
  let k : Int := m.log2
  let m0 : Num := .fin false m (-k)
  if m0.cmp (k32 0x3FB504F3) = 1 then (m0.scale (-1), e + k + 1) else (m0, e + k)

/-- lnm of R65. -/
def lnm32 (m : Num) : Num :=
  let f := Num.add .rne m (.fin true 1 0)
  let d := rd32 (Num.add .rne (intNum 2) f)
  let s := decodeNum fmtF32 (divNum fmtF32 .rne f d).1
  let w := rd32 (Num.mul s s)
  let q := fma32 (k32 0x3E3A2E8C) w (k32 0x3E638E39)
  let q := fma32 q w (k32 0x3E924925)
  let q := fma32 q w (k32 0x3ECCCCCD)
  let q := fma32 q w (k32 0x3F2AAAAB)
  let q := rd32 (Num.mul q w)
  fma32 s q (s.scale 1)

def logF32 (m : Nat) (e : Int) : Nat × Flags :=
  let (mm, ee) := logReduce m e
  let y := fma32 (intNum ee) (k32 0xB102E308) (lnm32 mm)
  final32 (Num.add .rne (Num.mul (intNum ee) (k32 0x3F317218)) y)

def log2F32 (m : Nat) (e : Int) : Nat × Flags :=
  let (mm, ee) := logReduce m e
  final32 (Num.add .rne (Num.mul (lnm32 mm) (k32 0x3FB8AA3B)) (intNum ee))

/-- sn and cs of R66, each with its final, unrounded expression. -/
def sinCos32 (r : Num) : Num × Num :=
  let w := rd32 (Num.mul r r)
  let ps := fma32 (k32 0x3DA83C1A) w (k32 0xBF196966)
  let ps := fma32 ps w (k32 0x402335E3)
  let ps := fma32 ps w (k32 0xC0A55DE7)
  let ps := fma32 ps w (k32 0x40490FDB)
  let pc := fma32 (k32 0xBCD368F9) w (k32 0x3E70FA83)
  let pc := fma32 pc w (k32 0xBFAAE9E4)
  let pc := fma32 pc w (k32 0x4081E0F8)
  let pc := fma32 pc w (k32 0xC09DE9E6)
  (Num.mul ps r, Num.add .rne (Num.mul pc w) (intNum 1))

def trigF32 (cos : Bool) (x : Num) : Nat × Flags :=
  let z := Num.add .rne x (Num.neg (intNum (2 * rint (x.scale (-1)))))
  let jj := rint (z.scale 1)
  let r := Num.add .rne z (Num.neg ((intNum jj).scale (-1)))
  let qd := (jj % 4).toNat
  let (sn, cs) := sinCos32 r
  let k := if cos then (qd + 1) % 4 else qd
  final32 (match k with
    | 0 => sn | 1 => cs | 2 => Num.neg sn | _ => Num.neg cs)

/-- The seven functions on f32 (R59). -/
def fnF32 (fn : Fn) (x : Num) : Nat × Flags :=
  match exactCase fn x with
  | some y => encodeNum fmtF32 .rne y
  | none =>
    match fn, x with
    | .exp2, _ => exp2F32 x
    | .exp, _ => expF32 x
    | .tanh, _ => tanhF32 x
    | .log, .fin _ m e => logF32 m e
    | .log2, .fin _ m e => log2F32 m e
    | .sinpi, _ => trigF32 false x
    | .cospi, _ => trigF32 true x
    | _, _ => (0, 0)

-- Correct rounding in f16, bf16 and nf (R57) -----------------------------------------------------------------------------

/-- Fraction bits of the fixed point. -/
def fxP : Nat := 1024
def fxOne : Nat := 2 ^ fxP

/-- sum of x^k / k! from term `t` = x^k/k! on. -/
def expSeries (x : Nat) : Nat → Nat → Nat → Nat
  | 0, _, _ => 0
  | n + 1, k, t => t + expSeries x n (k + 1) (t * x / fxOne / (k + 1))

/-- e^x for a fixed-point x from 0 to 1. -/
def fxExp (x : Nat) : Nat := expSeries x 220 0 fxOne

/-- sum of t^(2k+1)/(2k+1), alternating when `alt`, from power `p` = t^(2k+1). -/
def atanSeries (alt : Bool) (t2 : Nat) : Nat → Nat → Nat → Int
  | 0, _, _ => 0
  | n + 1, k, p =>
    let term : Int := ((p / (2 * k + 1) : Nat) : Int)
    (if alt && k % 2 == 1 then -term else term) + atanSeries alt t2 n (k + 1) (p * t2 / fxOne)

/-- 2 artanh t = ln ((1+t)/(1-t)) for 0 ≤ t ≤ 1/3. -/
def fxLn1 (t : Nat) : Nat := 2 * (atanSeries false (t * t / fxOne) 340 0 t).toNat
def fxLn2 : Nat := fxLn1 (fxOne / 3)
/-- arctan of 1/n, alternating series. -/
def fxAtanInv (n : Nat) : Int := atanSeries true (fxOne / (n * n)) 240 0 (fxOne / n)
/-- pi by Machin's formula. -/
def fxPi : Nat := (16 * fxAtanInv 5 - 4 * fxAtanInv 239).toNat

/-- A dyadic magnitude as fixed point. -/
def toFx (m : Nat) (e : Int) : Nat :=
  if e + fxP ≥ 0 then m * 2 ^ (e + fxP).toNat else m / 2 ^ (-(e + fxP)).toNat

/-- A fixed-point magnitude that stands for a value just above it: odd in one bit more. -/
def fxNum (neg : Bool) (v : Nat) (k : Int) : Num := .fin neg (2 * v + 1) (k - fxP - 1)

/-- 2^(q) e^(r) for the fixed-point number x = q ln 2 + r; `y` is x as a signed fixed point. -/
def fxExpOf (y : Int) : Num :=
  let q := y / (fxLn2 : Int)
  fxNum false (fxExp (y - q * fxLn2).toNat) q

/-- sum of the sine or cosine series from term `t`. -/
def trigSeries (x2 : Nat) : Nat → Nat → Nat → Int
  | 0, _, _ => 0
  | n + 1, k, t => (t : Int) - trigSeries x2 n (k + 2) (t * x2 / fxOne / ((k + 1) * (k + 2)))

/-- sin of a fixed-point angle from 0 to pi/2, and its cosine. -/
def fxSin (a : Nat) : Nat := (trigSeries (a * a / fxOne) 120 1 a).toNat
def fxCos (a : Nat) : Nat := (trigSeries (a * a / fxOne) 120 0 fxOne).toNat

/-- m * 2^e is more than 2^10. -/
def isHuge (m : Nat) (e : Int) : Bool := (m.log2 : Int) + e ≥ 10

/-- A value of the function that lies strictly between representable neighbours as the true value does. -/
def fnReal (fn : Fn) (neg : Bool) (m : Nat) (e : Int) : Num :=
  match fn with
  | .exp2 =>
    if isHuge m e then .fin false 3 (if neg then -3000 else 3000)
    else
      let y : Int := if neg then -(toFx m e : Int) else toFx m e
      let q := y / (fxOne : Int)
      fxNum false (fxExp ((y - q * fxOne).toNat * fxLn2 / fxOne)) q
  | .exp =>
    if isHuge m e then .fin false 3 (if neg then -3000 else 3000)
    else fxExpOf (if neg then -(toFx m e : Int) else toFx m e)
  | .log2 | .log =>
    let k : Int := m.log2
    let mf := toFx m (-k)
    let ln := fxLn1 ((mf - fxOne) * fxOne / (mf + fxOne))
    let v : Int := match fn with
      | .log => (ln : Int) + (k + e) * fxLn2
      | _ => ((ln * fxOne / fxLn2 : Nat) : Int) + (k + e) * fxOne
    fxNum (v < 0) v.natAbs 0
  | .sinpi | .cospi =>
    -- |x| = h/2 + f/2 with 0 < f < 1: the quadrant and the angle in it
    let two := toFx m (e + 1)
    let h := two / fxOne
    let a := (two % fxOne) * fxPi / (2 * fxOne)
    let k := match fn with | .cospi => (h + 1) % 4 | _ => h % 4
    let n := match fn with | .cospi => false | _ => neg
    match k with
    | 0 => fxNum n (fxSin a) 0
    | 1 => fxNum n (fxCos a) 0
    | 2 => fxNum (!n) (fxSin a) 0
    | _ => fxNum (!n) (fxCos a) 0
  | .tanh =>
    if isHuge m e then .fin neg (2 ^ 900 - 1) (-900)
    else
      let y := toFx m (e + 1)
      let q := y / fxLn2
      let E := fxExp (y - q * fxLn2) * 2 ^ q
      fxNum neg ((E - fxOne) * fxOne / (E + fxOne)) 0

/-- The seven functions in f16, bf16 and nf: rounded once, to nearest even (R57). -/
def fnSmall (f : Fmt) (fn : Fn) (x : Num) : Nat × Flags :=
  match exactCase fn x with
  | some y => encodeNum f .rne y
  | none =>
    match x with
    | .fin n m e => encodeNum f .rne (fnReal fn n m e)
    | _ => (0, 0)

end Sys2Proof.Machine
end

