-- ==== Sys2Proof/Machine/Symmetry.lean ====
section
/-! DEFINITION. Symmetry descriptors (R68 to R75), orbits and their weights (R76 to R79), grouped stores (R83 to R86) and the
tag rules (R82, R90), as functions of descriptors and values alone. -/

namespace Sys2Proof.Machine

/-- Word `n` of a descriptor (R68). -/
def symWord (d : BitVec 512) (n : Nat) : Nat := bits d.toNat (64 * n) 64

def symBase (d : BitVec 512) : Nat := symWord d 0
def symExt (d : BitVec 512) (i : Nat) : Nat := bits d.toNat (64 + 16 * i) 16
def symRank (d : BitVec 512) : Nat := bits (symWord d 3) 0 4
def symTyCode (d : BitVec 512) : Nat := bits (symWord d 3) 4 4
def symTy (d : BitVec 512) : Ty := Ty.ofCode (symTyCode d)
def symSpad (d : BitVec 512) : Bool := bits (symWord d 3) 10 1 == 1
def symMode (d : BitVec 512) : Nat := bits (symWord d 3) 11 2
def symNblk (d : BitVec 512) : Nat := bits (symWord d 3) 13 3
def symNf (d : BitVec 512) : Nat := bits (symWord d 3) 32 32
def symSize (d : BitVec 512) : Nat := Ty.size (symTy d)

/-- A block (R68): kind, sigma, the dimensions acted on. -/
structure SymBlk where
  kind : Nat
  sigma : Nat
  arity : Nat
  dims : List Nat
  deriving DecidableEq, Repr

def symBlk (d : BitVec 512) (b : Nat) : SymBlk :=
  let w := symWord d (4 + b)
  let k := bits w 5 3
  ⟨bits w 0 3, bits w 4 1, k, (List.range (min k 4)).map (fun i => bits w (8 + 3 * i) 3)⟩

def symBlks (d : BitVec 512) : List SymBlk := (List.range (min (symNblk d) 4)).map (symBlk d)

/-- The common extent of a block. -/
def blkN (d : BitVec 512) (b : SymBlk) : Nat := symExt d (b.dims.headD 0)

/-- n (n-1) … (n-k+1) / k!, 0 when n < k (R73). -/
def chooseN (n : Nat) : Nat → Nat
  | 0 => 1
  | k + 1 => if n ≤ k then 0 else chooseN n k * (n - k) / (k + 1)

def factN : Nat → Nat
  | 0 => 1
  | n + 1 => (n + 1) * factN n

/-- Slots of a block (R73). -/
def blkSlots (d : BitVec 512) (b : SymBlk) : Nat :=
  let n := blkN d b
  match b.kind with
  | 1 => chooseN (n + b.arity - 1) b.arity
  | 2 => chooseN n b.arity
  | 3 => n
  | _ => if b.sigma = 1 then n / 2 else (n + 1) / 2

/-- The dimensions in no block, in increasing order. -/
def freeDims (d : BitVec 512) : List Nat :=
  (List.range (symRank d)).filter (fun i => !(symBlks d).any (fun b => b.dims.contains i))

/-- The total slot count (R73). -/
def slotCount (d : BitVec 512) : Nat :=
  ((symBlks d).map (blkSlots d)).foldl (· * ·) 1 * ((freeDims d).map (symExt d)).foldl (· * ·) 1

/-- Put a number in its place of a list in non-decreasing order, counting the numbers it passes. -/
def insCount (x : Nat) : List Nat → List Nat × Nat
  | [] => ([x], 0)
  | y :: r => if y < x then let (l, k) := insCount x r; (y :: l, k + 1) else (x :: y :: r, 0)

/-- Sorted, with the parity of the inversions. -/
def sortParity : List Nat → List Nat × Nat
  | [] => ([], 0)
  | x :: r => let (l, k) := sortParity r; let (l', j) := insCount x l; (l', (k + j) % 2)

def hasRepeat : List Nat → Bool
  | [] => false
  | x :: r => r.contains x || hasRepeat r

/-- sum of C(z[m-1] + shift (m-1), m) from m on. -/
def rankFrom (shift : Nat) : Nat → List Nat → Nat
  | _, [] => 0
  | m, z :: r => chooseN (z + shift * m) (m + 1) + rankFrom shift (m + 1) r

/-- BlockRank of R73: rank, slots, character, forced zero, and whether the block's tuple is its representative. -/
def blockRank (d : BitVec 512) (b : SymBlk) (x : List Nat) : Nat × Nat × Bool × Bool × Bool :=
  let y := b.dims.map (fun i => x.getD i 0)
  let n := blkN d b
  let S := blkSlots d b
  match b.kind with
  | 1 => let z := (sortParity y).1; (rankFrom 1 0 z, S, false, false, y == z)
  | 2 => let (z, p) := sortParity y; (rankFrom 0 0 z, S, p == 1, hasRepeat y, y == z)
  | 3 =>
    let y0 := y.getD 0 0
    let r := (y.getD 1 0 + n - y0) % n
    (r, S, false, false, y0 == 0)
  | _ =>
    let i := y.getD 0 0
    let j := n - 1 - i
    (min i j, S, b.sigma == 1 && i > j, b.sigma == 1 && i == j, i ≤ j)

/-- Canon of R73: slot, negative character, forced zero, and whether the index is the orbit's canonical position. -/
def canon (d : BitVec 512) (x : List Nat) : Nat × Bool × Bool × Bool :=
  let (s, c, f, k) := (symBlks d).foldl (fun a b =>
    let (r, S, c, f, k) := blockRank d b x
    (a.1 * S + r, a.2.1 != c, a.2.2.1 || f, a.2.2.2 && k)) (0, false, false, true)
  let s := (freeDims d).foldl (fun a i => a * symExt d i + x.getD i 0) s
  if f then (0, false, true, k) else (s, c, false, k)

/-- An index within the extents (R74). -/
def inExtents (d : BitVec 512) (x : List Nat) : Bool :=
  (List.range (symRank d)).all (fun i => decide (x.getD i 0 < symExt d i))

/-- Dimensions from `i` on of a linear index over the full extents, dimension 0 slowest; `none` beyond the extents (R201). -/
def unlinear (d : BitVec 512) (i : Nat) : Option (List Nat) :=
  let exts := (List.range (symRank d)).map (symExt d)
  if i < exts.foldl (· * ·) 1 then
    some ((exts.foldr (fun e a => (a.1 / e, (a.1 % e) :: a.2)) (i, [])).2)
  else none

/-- The address of a slot (R72). -/
def slotAddr (d : BitVec 512) (s : Nat) : Nat := symBase d + s * symSize d

/-- The conditions of a block (R69). -/
def blkValid (d : BitVec 512) (w : Nat) (b : SymBlk) : Bool :=
  let unsignedTy := match symTy d with
    | .n64 | .n32 | .n16 | .n8 => true
    | .nf => bits (symNf d) 4 1 == 0
    | _ => false
  let arityOk := match b.kind with
    | 1 | 2 => 2 ≤ b.arity && b.arity ≤ 4
    | 3 => b.arity == 2
    | 4 => b.arity == 1
    | _ => false
  w / 2 ^ 20 == 0 && bits w 3 1 == 0 && arityOk && (b.kind == 4 || b.sigma == 0) &&
    (List.range 4).all (fun i => i < b.arity || bits w (8 + 3 * i) 3 == 0) &&
    b.dims.all (fun i => i < symRank d && symExt d i == blkN d b) &&
    (List.range (b.arity - 1)).all (fun i => b.dims.getD i 0 < b.dims.getD (i + 1) 0) &&
    !(unsignedTy && (b.kind == 2 || (b.kind == 4 && b.sigma == 1)))

/-- A descriptor is valid (R69). -/
def symValid (d : BitVec 512) : Bool :=
  let h := symWord d 3
  let bs := symBlks d
  let size := symSize d
  let base := symBase d
  bits h 16 16 == 0 && bits h 8 2 == 0 && 1 ≤ symRank d && symRank d ≤ 8 && symTyCode d ≤ 12 && symNblk d ≤ 4 &&
    (List.range 8).all (fun i => if i < symRank d then 1 ≤ symExt d i else symExt d i == 0) &&
    (if symTy d = .nf then nfValid (symNf d) else symNf d == 0) &&
    (List.range 4).all (fun b => b < symNblk d || symWord d (4 + b) == 0) &&
    (List.range (symNblk d)).all (fun b => blkValid d (symWord d (4 + b)) (symBlk d b)) &&
    !hasRepeat ((bs.map SymBlk.dims).flatten) &&
    slotCount d < 2 ^ 40 && base % size == 0 &&
    (if symSpad d then base < 6 * 2 ^ 18 && base % 2 ^ 18 + slotCount d * size ≤ 2 ^ 18 else base < 2 ^ 57)

-- Orbits and weights (R76 to R79) ----------------------------------------------------------------------------------------

/-- Two block kinds may be contracted (R77). -/
def kindsPair (a b : Nat) : Bool :=
  (a == b) || (a == 1 && b == 2) || (a == 2 && b == 1)

/-- The entries match (R77). -/
def symMatch (a b : BitVec 512) : Bool :=
  symRank a == symRank b && (List.range 8).all (fun i => symExt a i == symExt b i) && symTyCode a == symTyCode b &&
    symNblk a == symNblk b &&
    (List.range (symNblk a)).all (fun i =>
      let p := symBlk a i
      let q := symBlk b i
      p.arity == q.arity && p.dims == q.dims && kindsPair p.kind q.kind)

/-- N_c (R79): every orbit contributes when kinds and sigmas agree in every block, and none does otherwise. -/
def orbitCount (a b : BitVec 512) : Nat :=
  if (List.range (symNblk a)).all (fun i =>
      (symBlk a i).kind == (symBlk b i).kind && (symBlk a i).sigma == (symBlk b i).sigma) then slotCount a else 0

/-- The largest c ≤ `n` with C(c, m) ≤ r. -/
def unrankTop (m r : Nat) : Nat → Nat
  | 0 => 0
  | n + 1 => if chooseN (n + 1) m ≤ r then n + 1 else unrankTop m r n

/-- The non-decreasing tuple of a SYM rank (R73), entries for m = k down to 1, kept in that order. -/
def unrankSym (bound : Nat) : Nat → Nat → List Nat
  | 0, _ => []
  | m + 1, r => let c := unrankTop (m + 1) r bound; (c - m) :: unrankSym bound m (r - chooseN c (m + 1))

/-- Product of the factorials of the repeat counts of a sorted list; `n` is the run so far. -/
def repeatProd : Nat → List Nat → Nat
  | n, [] => factN n
  | n, [_] => factN (n + 1)
  | n, x :: y :: r => if x = y then repeatProd (n + 1) (y :: r) else factN (n + 1) * repeatProd 0 (y :: r)

/-- The weight of a block at a rank, for equal kinds and sigmas (R76). -/
def blkWeight (d : BitVec 512) (b : SymBlk) (r : Nat) : Nat :=
  let n := blkN d b
  match b.kind with
  | 1 => factN b.arity / repeatProd 0 (unrankSym (n + b.arity) b.arity r)
  | 2 => factN b.arity
  | 3 => n
  | _ => if r = n - 1 - r then 1 else 2

/-- The weight of the orbit with a slot number (R76): the blocks are the high digits, block 0 the highest. -/
def orbitWeight (d : BitVec 512) (slot : Nat) : Nat :=
  let dense := ((freeDims d).map (symExt d)).foldl (· * ·) 1
  ((symBlks d).foldr (fun b a =>
    let S := blkSlots d b
    (a.1 / S, a.2 * blkWeight d b (a.1 % S))) (slot / dense, 1)).2

/-- An element as an exact value: floating, narrow with its SCALE, or integer (R78). -/
def symNum (d : BitVec 512) (c : Nat) : Num :=
  let t := symTy d
  if Ty.isFloat t then (if t = .nf then (laneOf t c).scale (nfScale (symNf d)) else laneOf t c) else numOfInt (intOf t c)
where
  laneOf (t : Ty) (c : Nat) : Num := decodeNum (fmtOf t (symNf d)) c

/-- The exact sum of the weighted products (R78); a NaN in it is invalid. -/
def orbitSum (ts : List (Nat × Num × Num)) : Num :=
  match sumNum false (ts.map (fun t => (Num.fin false t.1 0).mul (t.2.1.mul t.2.2))) with
  | .nan _ => invalidNum
  | .fin _ 0 _ => .fin false 0 0
  | x => x

/-- The result of OCON (R78): its code, its width in bytes, and the flags of the one rounding. -/
def orbitResult (t : Ty) (x : Num) : Nat × Nat × Flags :=
  if Ty.isFloat t then
    if t = .f64 then let r := encodeNum fmtF64 .rne x; (r.1, 8, r.2) else let r := encodeNum fmtF32 .rne x; (r.1, 4, r.2)
  else
    let v := match x with | .fin n m _ => (if n then -(m : Int) else (m : Int)) | _ => 0
    let r := clampInt (if Ty.isSigned t then .i64 else .n64) v
    (r.1, 8, r.2)

-- Tags (R82, R90) --------------------------------------------------------------------------------------------------------

/-- Tags: 0 NONE, 1 SYM, 2 ZERO (R81). -/
def tagMeet (a b : BitVec 2) : BitVec 2 :=
  if a = 2 then b else if b = 2 then a else if a = 1 ∧ b = 1 then 1 else 0

/-- The product tag of an MMA (R82). -/
def productTag (ca cb : BitVec 5) (ma mb : ReadMode) : BitVec 2 :=
  let tr := fun m => m == ReadMode.t || m == ReadMode.x
  if ca = cb ∧ tr ma ≠ tr mb then 1 else 0

/-- A source tag implies the destination's symmetry (R90): `dims` are the tile's row and column dimension and origins. -/
def tagImplies (d : BitVec 512) (tag : BitVec 2) (rdim cdim row0 col0 : Nat) : Bool :=
  tag == 2 || (tag == 1 && row0 == col0 &&
    (symBlks d).any (fun b => b.kind == 1 && b.arity == 2 && b.dims.contains rdim && b.dims.contains cdim) &&
    !(symBlks d).any (fun b => !(b.kind == 1 && b.arity == 2 && b.dims.contains rdim && b.dims.contains cdim) &&
      (b.dims.contains rdim || b.dims.contains cdim)))

-- Grouped stores (R83 to R86) --------------------------------------------------------------------------------------------

/-- A member of a store: its index and its element. -/
abbrev Member := List Nat × Nat

/-- What a violation records (R368): code, FIND, rank, first and second member. -/
structure SymFault where
  code : Nat
  find : Nat
  rank : Nat
  one : List Nat
  two : Option (List Nat)
  deriving DecidableEq, Repr

/-- A code whose value is plus or minus zero (R85). -/
def isZeroCode (d : BitVec 512) (c : Nat) : Bool :=
  let t := symTy d
  if Ty.isFloat t then (decodeNum (fmtOf t (symNf d)) c).isZero else c % 2 ^ Ty.bits t == 0

/-- The slots touched, in increasing rank, without repeats. -/
def insRank (x : Nat) : List Nat → List Nat
  | [] => [x]
  | y :: r => if x < y then x :: y :: r else if x = y then y :: r else y :: insRank x r
def ranksOf (d : BitVec 512) (ms : List Member) : List Nat :=
  ms.foldl (fun a m => let k := canon d m.1; if k.2.2.1 then a else insRank k.1 a) []

/-- u of R83, with its flags. -/
def signAdjust (d : BitVec 512) (m : Member) : Nat × Flags := signCode (canon d m.1).2.1 (symTy d) (symNf d) m.2

/-- The exact mean rounded once (R84, AVG). -/
def meanOf (d : BitVec 512) (us : List Nat) : Nat × Flags :=
  let t := symTy d
  if Ty.isFloat t then
    let f := fmtOf t (symNf d)
    match sumNum false (us.map (decodeNum f)) with
    | .nan _ => encodeNum f .rne invalidNum
    | .fin n m e => if m = 0 then encodeNum f .rne (.fin n 0 0) else roundInto f .rne n m us.length e
    | x => encodeNum f .rne x
  else
    let x := (us.map (intOf t)).foldl (· + ·) 0
    let (q, inx) := roundRat .rne (x < 0) x.natAbs us.length 0
    (intCode (Ty.bits t) (if x < 0 then -(q : Int) else q), if inx then fINX else 0)

/-- The representative written for one orbit, or its violation (R84). Of an orbit with more than two members the frame names the first
two (CANON), or the first and the first that differs from it (CHECK); the spec says only that they are the two in conflict (R86; log
93). -/
def orbitWrite (d : BitVec 512) (implies : Bool) (rank : Nat) (w : List Member) : Except SymFault FoldItem :=
  let us := w.map (signAdjust d)
  let fl := orFlags' us
  let first := us.headD (0, 0)
  let item := fun v f => FoldItem.mk rank (slotAddr d rank) v f
  let canonical := match w.find? (fun m => (canon d m.1).2.2.2) with
    | some m => signAdjust d m
    | none => first
  let second := fun i => (w.getD i ([], 0)).1
  match symMode d with
  | 0 =>
    if 2 ≤ w.length ∧ !implies then .error ⟨0x0B, 0, rank, second 0, some (second 1)⟩ else .ok (item canonical.1 fl)
  | 1 => let m := meanOf d (us.map Prod.fst); .ok (item m.1 (fl ||| m.2))
  | 2 =>
    match (List.range us.length).find? (fun i => (us.getD i (0, 0)).1 != first.1) with
    | some i => .error ⟨0x0A, 0, rank, second 0, some (second i)⟩
    | none => .ok (item first.1 fl)
  | _ => .ok (item canonical.1 fl)
where
  orFlags' (l : List (Nat × Flags)) : Flags := l.foldl (fun a x => a ||| x.2) 0

/-- Every orbit in rank order, the first violation ending it. -/
def orbitWrites (d : BitVec 512) (implies : Bool) (ms : List Member) : List Nat → Except SymFault (List FoldItem)
  | [] => .ok []
  | r :: rs =>
    let w := ms.filter (fun m => let k := canon d m.1; !k.2.2.1 && k.1 == r)
    match orbitWrite d implies r w with
    | .error e => .error e
    | .ok x =>
      match orbitWrites d implies ms rs with
      | .error e => .error e
      | .ok xs => .ok (x :: xs)

/-- A grouped store (R83 to R86): forced-zero writes first, then the orbits. The answer is the representatives in storage
rank, and whether a forced-zero write was dropped under FORCE. -/
def foldStore (d : BitVec 512) (implies : Bool) (ms : List Member) : Except SymFault (List FoldItem × Bool) :=
  let bad := ms.filter (fun m => (canon d m.1).2.2.1 && !isZeroCode d m.2)
  match bad, symMode d == 3 with
  | m :: _, false => .error ⟨0x0A, 1, 0, m.1, none⟩
  | b, _ =>
    match orbitWrites d implies ms (ranksOf d ms) with
    | .error e => .error e
    | .ok l => .ok (l, !b.isEmpty)

/-- An index tuple packed 16 bits a dimension: dimensions 0 to 3, and 4 to 7 (R368). -/
def packTuple (x : List Nat) (from' : Nat) : Word :=
  toWord ((List.range 4).foldl (fun a i => a + x.getD (from' + i) 0 % 2 ^ 16 * 2 ^ (16 * i)) 0)

/-- DETAIL0 to DETAIL3 of a violation (R368). -/
def symDetail (ya yb seq : Nat) (f : SymFault) : List Word :=
  [toWord (ya + yb * 16 + f.find * 256 + (if f.two.isSome then 1024 else 0) + f.rank * 2 ^ 24), toWord seq,
   packTuple f.one 0, packTuple f.one 4]

end Sys2Proof.Machine
end

