-- ==== Sys2Proof/Machine/Ce.lean ====
section
/-! DEFINITION. The contraction engine (R249 to R267): slots, tile products, tile moves, orbit contractions at their issue. What
they do in later cycles stands in Machine/Jobs.lean and Machine/Landing.lean. -/

namespace Sys2Proof.Machine

/-- Post an entry of the contraction engine. -/
def cePost (s : State) (delay : Nat) (e : Effect) : State := addFlight s s.ctx.core (flightOf s delay ceSt e)

/-- A slot's state and record. -/
def getSlot (c : CoreState) (n : Nat) : Slot := Sparse.get {} c.slots n

/-- MCLM (R250): a FREE slot becomes CLAIMED. -/
def execMclm (ca : BitVec 5) (s : State) : Host.Outcome State Fault Refusal :=
  checked s [((getSlot (cur s) ca.toNat).st == .free, fCrucible)]
    (fun s => if s.ctx.active then cePost s 1 (.slotSt ca.toNat .claimed) else s)

/-- MREL (R250): a CLAIMED or FULL slot becomes FREE. -/
def execMrel (ca : BitVec 5) (s : State) : Host.Outcome State Fault Refusal :=
  checked s [((getSlot (cur s) ca.toNat).st != .free, fCrucible)]
    (fun s => if s.ctx.active then cePost s 1 (.slotSt ca.toNat .free) else s)

/-- Post 32 rows of a tile. -/
def postTile (s : State) (delay t : Nat) (ev : TagEvent) (f : Nat → Row) : State :=
  (List.range 32).foldl (fun s i => cePost s delay (.row (32 * t + i) allBytes (f i) ev)) s

/-- MZERO (R261). -/
def execMzero (td : BitVec 4) (s : State) : Host.Outcome State Fault Refusal :=
  .next (if s.ctx.active then postTile s 2 td.toNat .zero (fun _ => 0) else s)

/-- Row `i` of a tile read as 32 x 32 elements of four bytes, transposed (R262). -/
def trnRow (c : CoreState) (ts i : Nat) : Row :=
  BitVec.ofNat 1024 (packLanes 32 ((List.range 32).map (fun j => laneAt 32 (getRow c (32 * ts + j)) i)))

/-- MTRN (R262). -/
def execMtrn (td ts : BitVec 4) (s : State) : Host.Outcome State Fault Refusal :=
  let c := cur s
  .next (if s.ctx.active then
    postTile s 36 td.toNat (.trn (Sparse.get 2 c.tags ts.toNat)) (trnRow c ts.toNat) else s)

-- Operand views and shapes (R252 to R254) ---------------------------------------------------------------------------------

def modeT (m : ReadMode) : Bool := m == .t || m == .x
def modeNeg (m : ReadMode) : Bool := m == .g || m == .x

/-- Effective rows and columns (R252). -/
def effRows (sl : Slot) (m : ReadMode) : Nat := if modeT m then sl.cols else sl.rows
def effCols (sl : Slot) (m : ReadMode) : Nat := if modeT m then sl.rows else sl.cols

/-- The element's code at (i, j) of a slot's data (R80). -/
def slotCode (c : CoreState) (n : Nat) (t : Ty) (m : ReadMode) (i j : Nat) : Nat :=
  let (r, k) := if modeT m then (j, i) else (i, j)
  laneAt (Ty.bits t) (Sparse.get 0 c.cruc (32 * n + r)) k

/-- The element as an exact value, negated exactly by its mode (R80), scaled for nf (R39). The negation of a zero is a zero of the other
sign, also in a narrow format with EXP = 0, which has no code for it (R36; log 99). -/
def slotNum (c : CoreState) (n : Nat) (t : Ty) (d : Nat) (m : ReadMode) (i j : Nat) : Num :=
  let code := slotCode c n t m i j
  let x := if Ty.isFloat t then (decodeNum (fmtOf t d) code).scale (if t = .nf then nfScale d else 0) else numOfInt (intOf t code)
  if modeNeg m then x.neg else x

/-- The k limit of a class, and B's column limit (R252). -/
def classK : Ty → Nat
  | .nf | .i8 | .n8 => 64
  | .f32 | .f64 => 16
  | _ => 32
def classCols : Ty → Nat
  | .f64 => 16
  | _ => 32

/-- The view of operand A: rows, columns and elements; in the f64 class over two slots (R253). -/
def viewA (c : CoreState) (o : MmaOps) (d : Nat) : Nat × Nat × (Nat → Nat → Num) :=
  let n := o.ca.toNat
  let s0 := getSlot c n
  if o.ty = .f64 then
    let s1 := getSlot c (n + 1)
    (16 + effRows s1 o.rma, effCols s0 o.rma, fun i k =>
      if i < 16 then slotNum c n o.ty d o.rma i k else slotNum c (n + 1) o.ty d o.rma (i - 16) k)
  else (effRows s0 o.rma, effCols s0 o.rma, slotNum c n o.ty d o.rma)

/-- The encoding checks of the f64 class (R253). -/
def f64Checks (o : MmaOps) : List (Bool × Nat) :=
  [(o.ty != .f64 || (o.ca != 31 && !modeT o.rma && o.cb != o.ca && o.cb.toNat != o.ca.toNat + 1), fEncoding)]

/-- The pop, and for nf the descriptors (R40, R149, R255 step 1). -/
def popChecks (c : CoreState) (t : Ty) : List (Bool × Nat) :=
  [(!c.fq.isEmpty, fFqUnder), (t != .nf || (nfValid (descA c) && nfValid (descB c)), fEncoding)]

/-- Every slot read is FULL (R255). -/
def slotsFull (c : CoreState) (o : MmaOps) : Bool :=
  (getSlot c o.ca.toNat).st == .full && (getSlot c o.cb.toNat).st == .full &&
    (o.ty != .f64 || (getSlot c (o.ca.toNat + 1)).st == .full)

/-- The records pass R254; `n8` is how many of eight MMAS keeps, 8 for MMA. -/
def shapesOk (c : CoreState) (o : MmaOps) (n8 : Nat) : Bool :=
  let a := viewA c o 0
  let sa := getSlot c o.ca.toNat
  let sb := getSlot c o.cb.toNat
  let kb := effRows sb o.rmb
  let cb := effCols sb o.rmb
  sa.ty == o.ty && sb.ty == o.ty && a.1 ≤ 32 && a.2.1 ≤ classK o.ty && kb ≤ classK o.ty && cb ≤ classCols o.ty &&
    a.2.1 * 8 == kb * n8 && (n8 == 8 || kb % 8 == 0) &&
    (o.ty != .f64 || (let s1 := getSlot c (o.ca.toNat + 1)
      s1.ty == o.ty && effRows sa o.rma == 16 && effCols s1 o.rma == effCols sa o.rma))

/-- Pop the format word (R149); an idle command pops too (R98). -/
def popWord (s : State) : State := modCur s (fun c => countEvent { c with fq := c.fq.drop 1 } 4 .ce 1)

/-- The products of a tile command (R256, R260): A by rows, B by columns, and the rows of B that each product takes. -/
def startMma (s : State) (o : MmaOps) (c : CoreState) (sel : Nat → List Nat) (tag : BitVec 2) : State :=
  let (ra, ka, view) := viewA c o (descA c)
  let sb := getSlot c o.cb.toNat
  let a := (List.range ra).map (fun i => (List.range ka).map (view i))
  let b := (List.range (effCols sb o.rmb)).map (fun j =>
    (List.range (effRows sb o.rmb)).map (fun k => slotNum c o.cb.toNat o.ty (descB c) o.rmb k j))
  cePost s 8 (.mmaAcc o.td.toNat o.ty o.sat a b ((List.range ra).map sel) tag)

/-- A tile command: the checks of R255 in order, the pop, and for an active command the products. -/
def tileCommand (s : State) (o : MmaOps) (own : List (Bool × Nat)) (n8 : Nat) (sel : CoreState → Nat → List Nat)
    (tag : BitVec 2) : Host.Outcome State Fault Refusal :=
  let c := cur s
  match firstFault (popChecks c o.ty ++ own) with
  | some code => .next (faultNow s code 0 [])
  | none =>
    if s.ctx.active ∧ slotsFull c o = false then .next (faultNow s fSchedule 4 [])
    else if s.ctx.active ∧ shapesOk c o n8 = false then .next (faultNow s fShape 0 [])
    else .next (if s.ctx.active then startMma (popWord s) o c (sel c) tag else popWord s)

/-- MMA (R256). -/
def execMma (o : MmaOps) (s : State) : Host.Outcome State Fault Refusal :=
  tileCommand s o (f64Checks o) 8 (fun c _ => List.range (viewA c o 0).2.1) (productTag o.ca o.cb o.rma o.rmb)

/-- IDXq of row `i` of a pattern memory (R259). -/
def patIdx (c : CoreState) (pm i q : Nat) : Nat :=
  bits (laneAt 128 (Sparse.get 0 c.pm (8 * pm + i / 8)) (i % 8)) (3 * q) 3

/-- MMAS (R258 to R260): keeps 2 or 4 of each 8. -/
def execMmas (o : MmaOps) (pm : BitVec 3) (keep4 : Bool) (s : State) : Host.Outcome State Fault Refusal :=
  let n := if keep4 then 4 else 2
  tileCommand s o [(o.ty != .f32 && o.ty != .f64 && !modeT o.rma, fEncoding)] n
    (fun c i => (List.range (viewA c o 0).2.1).map (fun q => 8 * (q / n) + patIdx c pm.toNat i q)) 0

-- Moves (R263) -----------------------------------------------------------------------------------------------------------

/-- Start the later cycles of a command. -/
def startJob (s : State) (kind : JobKind) (station run last : Nat) (lc : Option Nat) : State :=
  let k := s.ctx.core
  let job : Job := { kind := kind, stream := s.ctx.stream, station := station, seq := s.ctx.seq, issue := (cur s).dcc
                     cmp := s.ctx.hdr.cmp, run := run, lc := lc, active := s.ctx.active, todo := (cur s).dcc
                     smp := (cur s).dcc, stat := (cur s).dcc, evt := s.ctx.hdr.evt.toNat
                     ring := ringAddr (getStream (cur s) s.ctx.stream).ring s.ctx.idx
                     last := (cur s).dcc + last }
  modCore s k (fun c => { c with jobs := c.jobs ++ [job] })

/-- The address checks of MLDA and MSTA. -/
def tileMoveChecks (s : State) (sr : SReg) : List (Bool × Nat) :=
  let a := rdN s sr
  [(decide (a < 2 ^ 18) && a % 128 == 0 && decide (a + 4096 ≤ 2 ^ 18), fPermission)]

/-- MLDA (R263). -/
def execMlda (tile : BitVec 4) (sr : SReg) (blk : Blk) (run : Run) (s : State) : Host.Outcome State Fault Refusal :=
  let b := blk.val
  let sp := spanOf run.toNat (blkSt b) ceSt
  let a := b * 2 ^ 18 + rdN s sr
  checked s (tileMoveChecks s sr)
    (fun s => startJob s (.plan ((List.range 32).flatMap (fun i =>
      [(2 + i, .place (blkSt b) sp .last), (1 + i, .read b (a + 128 * i)), (2 + i + sp, .tap ceSt),
       (1 + i, .rowIn (a + 128 * i) (32 * tile.toNat + i) allBytes 0 (3 + i + sp))]))) ceSt run.toNat (34 + sp) none)

/-- MSTA (R263, R215). -/
def execMsta (tile : BitVec 4) (sr : SReg) (blk : Blk) (run : Run) (s : State) : Host.Outcome State Fault Refusal :=
  let b := blk.val
  let sp := spanOf run.toNat ceSt (blkSt b)
  let a := b * 2 ^ 18 + rdN s sr
  checked s (tileMoveChecks s sr ++ [(!inOpenWindow (cur s) a 4096 (cur s).dcc, fPermission)])
    (fun s => startJob s (.plan ((List.range 32).flatMap (fun i =>
      [(1 + i, .place ceSt sp .last), (i, .rowOut (32 * tile.toNat + i) (a + 128 * i) (2 + i + sp)), (2 + i + sp, .write b)])))
      ceSt run.toNat (34 + sp) none)

-- Orbit contraction (R264 to R267) ----------------------------------------------------------------------------------------

/-- A symmetry entry. -/
def getSy (c : CoreState) (y : Nat) : SyEntry := Sparse.get {} c.sy y

/-- The issue checks of OCON and OCONP that come before the cell's: type, match (R264). -/
def oconFault (s : State) (ya yb : BitVec 4) (t : Ty) : Option (Nat × List Word) :=
  let a := (getSy (cur s) ya.toNat).desc
  let b := (getSy (cur s) yb.toNat).desc
  let rec' := fun find => symDetail ya.toNat yb.toNat s.ctx.seq ⟨fSymClaim, find, 0, [], none⟩
  if t = .b1 ∨ (getSy (cur s) ya.toNat).valid = false ∨ (getSy (cur s) yb.toNat).valid = false then some (fEncoding, [])
  else if symTy a ≠ t ∨ symTy b ≠ t then some (fSymClaim, rec' 3)
  else if symMatch a b = false then some (fSymClaim, rec' 2)
  else none

/-- Where the arrays lie: in scratchpad both, or one in device memory (R265). -/
def walkMem (a b : BitVec 512) : Bool := !symSpad a || !symSpad b

/-- The result cycle after issue (R265, R266). -/
def walkResult (a b : BitVec 512) : Nat :=
  let n := orbitCount a b
  if n = 0 ∨ walkMem a b = false then 48 + n else 1328 + n

/-- OCON (R264 to R266). -/
def execOcon (row : VReg) (ya yb : BitVec 4) (t : Ty) (s : State) : Host.Outcome State Fault Refusal :=
  let a := (getSy (cur s) ya.toNat).desc
  let b := (getSy (cur s) yb.toNat).desc
  match oconFault s ya yb t with
  | some (code, d) => .next (faultNow s code 0 d)
  | none => .next (startJob s (.walk ya.toNat yb.toNat a b (some row.toNat) none t) ceSt 0 (walkResult a b) none)

/-- An access that has no physical address: the model stops (Fault.noPhysicalAddress). -/
def deadEnd (s : State) : State := { s with dead := true }

/-- The watch test of an access that the command being executed makes at its issue (R280). -/
def watchNow (s : State) (a n kind : Nat) : State :=
  watchTest s s.ctx.core s.ctx.stream s.ctx.hdr.evt.toNat (ringAddr (getStream (cur s) s.ctx.stream).ring s.ctx.idx) s.ctx.seq a n kind

/-- The lookup of an access that the command being executed makes at its issue (R273). -/
def lookupNow (s : State) (a : Nat) (perms : List Nat) : Lookup :=
  lookup (cur s) (pkgOf s.ctx.core) (asidOfCore s s.ctx.core) a perms s.ctx.seq

/-- The credit of a request that the command being executed makes at its issue, from its station (R104). -/
def requestNow (s : State) (station : Nat) : State := rateUse s s.ctx.core s.ctx.stream station s.ctx.hdr.evt.toNat

/-- The cell of OCONP (R164's order): its address form, then the watch test and the lookup for AT; `f` has the memory key. The add spends
its one granule of rate credit at this lookup: R104 and R273 give its request no cycle of its own (log 100). -/
def withOconCell (s : State) (a : Nat) (f : Nat → State → State) : Host.Outcome State Fault Refusal :=
  if a % 64 = 0 ∧ a < 2 ^ 57 then
    let s := watchNow s a 64 6
    match lookupNow s a [pAT] with
    | .ok _ key => .next (f key (requestNow s ceSt))
    | .fault code d => .next (faultNow s code 0 d)
    | .nowhere => .next (deadEnd s)
  else .next (faultNow s fPermission 0 [])

/-- Does FEAT_ACTIVE of the core's partition have a bit (R356)? Virtual function i serves partition i - 1. -/
def featOn (s : State) (k part bit : Nat) : Bool :=
  (Sparse.get 0 (getPkg s (pkgOf k)).featActive (part + 1)).getLsbD bit

/-- OCONP (R264, R265, R267); without the feature bit the opcode raises illegal-encoding (R356). -/
def execOconp (ya yb : BitVec 4) (sr : SReg) (t : Ty) (s : State) : Host.Outcome State Fault Refusal :=
  let a := (getSy (cur s) ya.toNat).desc
  let b := (getSy (cur s) yb.toNat).desc
  let addr := rdN s sr
  if featOn s s.ctx.core (partOfCore s s.ctx.core) 4 = false then .next (faultNow s fEncoding 0 [])
  else match oconFault s ya yb t with
  | some (code, d) => .next (faultNow s code 0 d)
  | none =>
    if s.ctx.active then
      withOconCell s addr (fun key s => startJob s (.walk ya.toNat yb.toNat a b none (some key) t) ceSt 0 (walkResult a b) none)
    else .next (startJob s (.walk ya.toNat yb.toNat a b none none t) ceSt 0 (walkResult a b) none)

end Sys2Proof.Machine
end

