-- ==== Sys2Proof/Machine/Entries.lean ====
section
/-! DEFINITION. In-flight entries as a fault frame and a checkpoint slot lay them out (R20, R313, R319, R324, R337, R369). -/

namespace Sys2Proof.Machine

/-- An entry: KIND, DEST, AUX, ADDR, OP, ENABLE, SRC, value; its landing or sample cycle, and ORDER's parts, are the flight's. -/
structure Entry where
  kind : Nat
  dest : Nat
  aux : Nat := 0
  addr : Nat
  op : Nat := 0
  en : Nat
  src : Nat := 0
  val : Nat
  /-- cycles that the landing lies after the flight's own cycle -/
  later : Nat := 0
  deriving DecidableEq, Repr

/-- DEST of a scratchpad row (R324). -/
def rowDest (a : Nat) : Nat := blkOf a * 2 ^ 11 + a / 128 % 2 ^ 11

/-- The rows that a masked run of scratchpad meets: row address, enables and value at row offsets. -/
def rowParts (a n en v : Nat) : List (Nat × Nat × Nat) :=
  let lo := a / 128 * 128
  (List.range ((a - lo + n + 127) / 128)).map (fun i =>
    (lo + 128 * i, bits (en * 2 ^ (a - lo)) (128 * i) 128, bits (v * 2 ^ (8 * (a - lo))) (1024 * i) 1024))

/-- Entries of a masked run of scratchpad, row by row (R324). -/
def rowEntries (kind aux src later op a n en v : Nat) : List Entry :=
  (rowParts a n en v).map (fun p =>
    { kind := kind, dest := rowDest p.1, aux := aux, addr := p.1, op := op, en := p.2.1, src := src, val := p.2.2, later := later })

/-- Entries of a memory return that no case of R324 names: it goes to the buffer of a command in progress at byte `p`, with the value
`v` once it is sampled. DEST names blocks 6 and 7, which no scratchpad row has (log 62). -/
def bufferEntries (st : Stream) (src p n v later : Nat) : List Entry :=
  (rowParts p n (2 ^ n - 1) v).map (fun q =>
    { kind := 5, dest := (if st = .ce then 6 else 7) * 2 ^ 11 + q.1 / 128 % 2 ^ 11, addr := q.1, en := q.2.1, src := src, val := q.2.2, later := later })

/-- The value on a runner that carries a landing in scratchpad: it reaches its block one cycle before (R19). -/
def carrier (c : CoreState) (f : Flight) : Option RunVal :=
  c.runners.find? (fun v => v.stream == f.stream && v.seq == f.seq && f.at' == c.dcc + v.left + 1)

/-- AUX (R319): station and runner. -/
def runnerAux (v : RunVal) : Nat := v.station * 16 + v.run * 2

/-- The station at which a value ends (R16). -/
def RunVal.goal (v : RunVal) : Nat := (if v.run < 4 then v.station + v.left else v.station + 12 - v.left) % 12

/-- The physical address of a memory key (R268). -/
def physOf (key : Nat) : Nat := key % 2 ^ 39

/-- A landing in scratchpad: a memory return (5), a value that is or comes on a runner (4), or a store of the CC (9). -/
def spadEntries (c : CoreState) (f : Flight) (a n en v : Nat) : List Entry :=
  if f.got.isSome then rowEntries 5 0 0 0 0 a n en v
  else if f.station = ccSt then rowEntries 9 0 0 0 0 a n en v
  else rowEntries 4 (match carrier c f with | some r => runnerAux r | none => f.station * 16) 0 0 0 a n en v

/-- The value that an effect carries, as a number. -/
def effValue : Effect → Nat
  | .sreg _ v | .qp _ v | .fqAppend v | .sysreg _ v | .atomStore _ v _ | .mpat _ _ v => v.toNat
  | .spad _ _ _ v _ | .memWrite _ _ _ v _ | .cellAdd _ _ v | .flags _ v => v
  | .row _ _ v _ | .beat _ v _ _ => v.toNat
  | .mask _ _ v => v.toNat
  | .kpred _ v => v.cnt.toNat + v.wid.toNat * 2 ^ 16
  | .atom _ _ (.add b) | .atom _ _ (.swp b) => b.toNat
  | .atom _ _ (.cas b c) => b.toNat + c.toNat * 2 ^ 64
  | .lcset _ t => t.toNat
  | .fill _ vals .. | .pmRows _ vals | .cbRows _ vals => (vals.headD 0).toNat
  | .yload _ im | .rload _ im => im.toNat
  | .cellInit _ g => (g % 2 ^ 64).toNat
  | .watchAdd a | .yloadRead _ a | .rloadRead _ a | .rinv _ a | .memRead a _ _ | .cellRead a .. => a
  | .rsplit _ _ x slot => x.toNat + slot * 2 ^ 64
  | .rres _ a m _ | .rret _ a m => a + m.toNat * 2 ^ 64
  | .slotSt _ st => match st with | .free => 0 | .claimed => 1 | .full => 2
  | .header ws => ws.foldr (fun w a => w + 2 ^ 64 * a) 0
  | .pairVal _ _ v => v
  | _ => 0

/-- The operation code of an atomic in OP (R319; log 62). -/
def atomCode : AtomOp → Nat
  | .add _ => 1 | .cas _ _ => 2 | .swp _ => 3

/-- OP of an atomic: its operation and as much of its operand as the word takes; the value holds the operands whole (log 62). -/
def atomWord0 (op : AtomOp) (v : Nat) : Nat := atomCode op + 16 * (v % 2 ^ 60)

/-- OP of an arrival beat: the type of the CPXRED window that takes it (R217, R319). -/
def beatOp (c : CoreState) (a : Nat) : Nat :=
  match c.rwins.find? (fun w => w.red.isSome && runsMeet a 128 w.addr w.len) with
  | some w => match w.red with | some t => 7 + 16 * Ty.code t | none => 0
  | none => 0

/-- An entry of other core state, under the model's numbering of DEST (log 62). -/
def stateEntry (group n en v : Nat) : Entry := { kind := 9, dest := 256 * group + n, addr := n, en := en, val := v }

/-- Rows of a row file, one entry each. -/
def fileEntries (group base n : Nat) (vals : List Row) : List Entry :=
  (List.range vals.length).map (fun i =>
    { kind := if group = 0 then 3 else 9, dest := 2 ^ 12 * group + base + i, addr := n, en := 2 ^ 128 - 1, val := (vals.getD i 0).toNat })

/-- The entries of one flight. -/
def entriesOf (c : CoreState) (f : Flight) : List Entry :=
  match f.eff with
  | .sreg r v => [{ kind := if f.got.isSome then 5 else 0, dest := (if f.got.isSome then 2 ^ 18 else 0) + r.toNat, addr := r.toNat,
                    en := 255, val := v.toNat }]
  | .lds r _ => [{ kind := 0, dest := r.toNat, addr := r.toNat, en := 255, val := 0, later := 1 }]
  | .spad a n en v _ => spadEntries c f a n en v
  | .row r en v ev => [{ kind := if ev = .plain then 1 else 2, dest := r, addr := r, en := en.toNat, val := v.toNat }]
  | .fill n vals .. => fileEntries 0 (32 * n) n vals
  | .pmRows n vals => fileEntries 1 (8 * n) n vals
  | .cbRows n vals => fileEntries 2 (16 * n) n vals
  | .memWrite key n en v _ => [{ kind := 6, dest := 0, addr := physOf key, en := en % 2 ^ n, val := v }]
  | .atomStore key v _ => [{ kind := 6, dest := 0, addr := physOf key, en := 255, val := v.toNat }]
  | .memRead key n u =>
    let src := physOf key
    match u with
    | .reg r => [{ kind := 5, dest := 2 ^ 18 + r.toNat, addr := r.toNat, en := 255, src := src, val := 0, later := 1 }]
    | .spad a _ | .spadSy a .. => rowEntries 5 0 src 1 0 a n (2 ^ n - 1) 0
    | .cast _ i => [{ kind := 5, dest := 2 ^ 19 + i, addr := 0, en := 2 ^ 64 - 1, src := src, val := 0, later := 1 }]
    | .job st _ p => bufferEntries st src p n 0 1
  | .cellRead key _ raw a run =>
    let n := if raw then 80 else 16
    rowEntries 5 0 (physOf key) (2 + spanOf run cpiSt (blkSt (blkOf a))) 0 a n (2 ^ n - 1) 0
  | .atom key r op => [{ kind := 7, dest := r.toNat, addr := physOf key, op := atomWord0 op (effValue f.eff), en := 0, val := effValue f.eff }]
  | .cellInit key _ => [{ kind := 7, dest := 0, addr := physOf key, op := 4, en := 0, val := effValue f.eff }]
  | .cellAdd key ty v => [{ kind := 7, dest := 0, addr := physOf key, op := 5 + 16 * Ty.code ty, en := 2 ^ Ty.size ty - 1, val := v }]
  | .cellSum key ty _ => [{ kind := 7, dest := 0, addr := physOf key, op := 6 + 16 * Ty.code ty, en := 0, val := 0 }]
  | .beat a v _ _ => rowEntries 8 0 0 0 (beatOp c a) a 128 (2 ^ 128 - 1) v.toNat
  | .pairVal d a v => [{ kind := 10, dest := d, addr := a, en := 0, val := v }]
  | .mask m en v => [stateEntry 0 m en.toNat v.toNat]
  | .kpred n _ => [stateEntry 1 n 7 (effValue f.eff)]
  | .qp n v => [stateEntry 2 n 255 v.toNat]
  | .fqAppend v => [stateEntry 3 0 255 v.toNat]
  | .slotSt n _ => [stateEntry 4 n 1 (effValue f.eff)]
  | .lcset n t => [stateEntry 5 n 31 t.toNat]
  | .yload n im => [stateEntry 6 n (2 ^ 64 - 1) im.toNat]
  | .rload n im => [stateEntry 7 n (2 ^ 64 - 1) im.toNat]
  | .sysreg n v => [stateEntry 8 (n % 256) 255 v.toNat]
  | .flags e v => [stateEntry 9 (Stream.code e) 1 v]
  | .kept u n v =>
    match u with
    | .cast _ i => [{ kind := 5, dest := 2 ^ 19 + i, addr := 0, en := 2 ^ 64 - 1, val := v }]
    | .job st _ p => bufferEntries st 0 p n v 0
    | _ => []
  | .rres .. | .rret .. => []
  | e => [stateEntry 10 0 0 (effValue e)]

/-- A value on a runner that none of the flights' entries stands for: it rides to a unit, or its command is idle (R20, R98). Its
DELAY runs to its arrival at the unit. -/
def riderEntry (v : RunVal) : Entry :=
  { kind := 4, dest := if v.goal % 2 = 1 then (v.goal / 2) * 2 ^ 11 else 2 ^ 15 + v.goal, aux := runnerAux v, addr := 0
    en := if v.row.isSome then 2 ^ 128 - 1 else 0, val := (v.row.getD 0).toNat, later := v.left }

/-- A runner value is the carrier of a landing, sampled or not, that an entry stands for already. -/
def carried (c : CoreState) (l : List Flight) (v : RunVal) : Bool :=
  l.any (fun f => f.stream == v.stream && f.seq == v.seq &&
    (match f.eff with
      | .spad .. | .beat .. => f.at' == c.dcc + v.left + 1
      | .memRead _ _ (.spad ..) | .memRead _ _ (.spadSy ..) => f.at' == c.dcc + v.left
      | _ => false))

/-- A runner value's entry as one in flight. -/
def riderFlight (c : CoreState) (v : RunVal) : Flight :=
  ⟨c.dcc, v.station, v.stream, v.seq, v.issue, 0, false, .pairVal 0 0 0, none, 0⟩

/-- Entries that a frame counts (R313, R319): everything in flight. A core that has stopped holds what it held after its stop
cycle, and the arrivals that have come since (R106). -/
def frameFlights (c : CoreState) : List Flight :=
  if c.stop.isSome then
    c.atStop ++ c.inflight.filter (fun f => (match f.eff with | .beat .. => true | _ => false) && !c.atStop.contains f)
  else c.inflight

/-- ORDER (R319). -/
def orderWord (f : Flight) : Nat := f.station * 2 ^ 60 + Stream.code f.stream * 2 ^ 58 + f.seq % 2 ^ 58

/-- The 192 bytes of an entry, as one number (R319). -/
def entryBytes (f : Flight) (stop : Nat) (e : Entry) : Nat :=
  let w0 := e.kind * 2 ^ 60 + e.dest * 2 ^ 40 + e.aux * 2 ^ 32 + (f.at' + e.later - stop) % 2 ^ 32
  w0 + e.addr * 2 ^ 64 + orderWord f * 2 ^ 128 + e.op * 2 ^ 192 + e.en % 2 ^ 128 * 2 ^ 256 + e.src * 2 ^ 384 + e.val % 2 ^ 1024 * 2 ^ 512

/-- An entry's landing cycle. -/
def entryAt (x : Flight × Entry) : Nat := x.1.at' + x.2.later

/-- Landing order, ties by ORDER (R369). -/
def insEntry (x : Flight × Entry) : List (Flight × Entry) → List (Flight × Entry)
  | [] => [x]
  | y :: r => if entryAt x < entryAt y ∨ (entryAt x = entryAt y ∧ orderWord x.1 ≤ orderWord y.1) then x :: y :: r else y :: insEntry x r

end Sys2Proof.Machine
end

