-- ==== Sys2Proof/Machine/Landing.lean ====
section
/-! DEFINITION. What lands and what is sampled in a cycle: core-local results with tags, collisions and receive-window checks
(R82, R100, R101, R164, R216, R224, R257, R283, R284), fills (R203, R251), landing counters (R179), range-table changes
(R187 to R189, R277), device-memory writes, atomics, sum cells and samples (R54, R56, R171, R283, R284, R295), beats (R214 to
R217), pair comparison (R116, R117). -/

namespace Sys2Proof.Machine

-- Landing counters (R179) ------------------------------------------------------------------------------------------------

def getLc (c : CoreState) (n : Nat) : LCtr := Sparse.get {} c.lcs n
def setLc (c : CoreState) (n : Nat) (v : LCtr) : CoreState := { c with lcs := Sparse.set {} c.lcs n v }

/-- A completion of `n` bytes: the count saturates; reaching the target while P = A flips P and records the agent. -/
def LCtr.add (x : LCtr) (n : Nat) (g : Agent) : LCtr :=
  let cnt := min (x.cnt.toNat + n) (2 ^ 40 - 1)
  if x.p = x.a ∧ x.tgt.toNat ≤ cnt then { x with cnt := BitVec.ofNat 40 cnt, p := !x.p, agent := g }
  else { x with cnt := BitVec.ofNat 40 cnt }

/-- LCSET: count 0, a new target, A := P; a target of 0 flips P at once. -/
def LCtr.reset (x : LCtr) (tgt : BitVec 40) (g : Agent) : LCtr :=
  if tgt = 0 then { cnt := 0, tgt := tgt, a := x.p, p := !x.p, agent := g }
  else { cnt := 0, tgt := tgt, a := x.p, p := x.p, agent := x.agent }

/-- The agent that a core's stream is (R348). -/
def coreAgent (s : State) (k : Nat) (st : Stream) : Agent :=
  ⟨1, (getPkg s (pkgOf k)).pos, numOf k, Stream.code st, 0, (getCore s k).pid⟩

/-- The number of 1 bits among the lowest `n`. -/
def countOnes (a : Nat) : Nat → Nat
  | 0 => 0
  | n + 1 => a % 2 + countOnes (a / 2) n

-- Range tables (R187 to R189, R271, R276, R277) -----------------------------------------------------------------------------

/-- Words of a 64-byte image (R270). -/
def entryOf (im : BitVec 512) : RangeEntry :=
  let w := fun n => toWord (bits im.toNat (64 * n) 64)
  ⟨w 0, w 1, w 2, w 3, w 4, w 5, w 6, w 7⟩

def entryImage (e : RangeEntry) : Nat :=
  [e.base, e.limit, e.off, e.ctl, e.res, e.wmask, e.wbm, e.lidx].foldr (fun w a => w.toNat + 2 ^ 64 * a) 0

def RangeEntry.valid (e : RangeEntry) : Bool := bits e.ctl.toNat 0 1 == 1
def RangeEntry.asid (e : RangeEntry) : Nat := bits e.ctl.toNat 8 12

/-- An image is valid (R271). -/
def imageValid (e : RangeEntry) : Bool :=
  bits e.ctl.toNat 20 44 == 0 && bits e.ctl.toNat 7 1 == 0 && bits e.lidx.toNat 12 52 == 0 &&
    (!e.valid || (e.base.toNat % 256 == 0 && e.limit.toNat % 256 == 0 && e.off.toNat % 256 == 0 && e.base.toNat < 2 ^ 57 &&
      e.base.toNat < e.limit.toNat && e.limit.toNat ≤ 2 ^ 57))

/-- What is left of [x.1, x.2) without [y.1, y.2). -/
def cutRange (x y : Nat × Nat) : List (Nat × Nat) := [(x.1, min x.2 y.1), (max x.1 y.2, x.2)].filter (fun p => decide (p.1 < p.2))

/-- Every physical address of the range lies below 2^39 and inside the partition's memory, whose extents leave nothing of it (R271). -/
def extentOk (p : Part) (e : RangeEntry) : Bool :=
  let lo := (e.base.toNat + e.off.toNat) % 2 ^ 64
  let hi := lo + (e.limit.toNat - e.base.toNat)
  decide (hi ≤ 2 ^ 39) && (p.mem.foldl (fun l m => l.flatMap (fun x => cutRange x m)) [(lo, hi)]).isEmpty

/-- The checks of R187 on an image for entry `n` of a table: a fault code, or none. -/
def rloadFault (t : Sparse RangeEntry) (n asid : Nat) (p : Part) (watchOk : Bool) (e : RangeEntry) : Option Nat :=
  if imageValid e = false ∨ (bits e.ctl.toNat 5 1 = 1 ∧ watchOk = false) then some fEncoding
  else if e.valid = false then none
  else if e.asid ≠ asid ∨ extentOk p e = false ∨
      t.any (fun x => x.1 ≠ n && x.2.valid && x.2.asid == e.asid && x.2.base.toNat < e.limit.toNat &&
        e.base.toNat < x.2.limit.toNat) then some fPermission
  else none

def getRange (c : CoreState) (n : Nat) : RangeEntry := Sparse.get {} c.ranges n
def setRange (c : CoreState) (n : Nat) (e : RangeEntry) : CoreState := { c with ranges := Sparse.set {} c.ranges n e }

/-- A new entry over [lo, hi) from old ones: a sector is resident when every old sector it overlaps was, and watched when any
was (R188). -/
def reSector (new : RangeEntry) (olds : List RangeEntry) : RangeEntry :=
  let cover := fun (k : Nat) (f : RangeEntry → Nat → Bool) (all : Bool) =>
    let lo := new.base.toNat + k * new.sigma
    let hi := min (lo + new.sigma) new.limit.toNat
    let hits := olds.flatMap (fun o => (List.range 64).filterMap (fun j =>
      let l := o.base.toNat + j * o.sigma
      let h := min (l + o.sigma) o.limit.toNat
      if l < h ∧ lo < h ∧ l < hi ∧ lo < hi then some (f o j) else none))
    if hits.isEmpty then false else if all then hits.all id else hits.any id
  let pack := fun g => (List.range 64).foldl (fun a k => if g k then a + 2 ^ k else a) 0
  { new with res := toWord (pack (fun k => cover k (fun o j => bits o.res.toNat j 1 == 1) true))
             wmask := toWord (pack (fun k => cover k (fun o j => bits o.wmask.toNat j 1 == 1) false)) }

/-- The memory key of slot `i` of an ASID's range list, if the hub holds its base (R275). -/
def listSlot (s : State) (pkg asid i : Nat) : Option Nat :=
  match Sparse.get 0 (getPkg s pkg).lists asid with
  | 0 => none
  | b + 1 => some (pkg * 2 ^ 39 + b + 64 * (i % 4096))

/-- Post the write of an entry's image into the range list, landing as an STM's (R188, R276). -/
def listWrite (s : State) (k : Nat) (f : Flight) (slot : Nat) (e : RangeEntry) (sub : Nat) : State :=
  match listSlot s (pkgOf k) (asidOfCore s k) slot with
  | some key => addFlight s k { f with at' := f.issue + 1280, sub := sub, eff := .memWrite key 64 (2 ^ 64 - 1) (entryImage e) none }
  | none => s

-- Core-local effects -------------------------------------------------------------------------------------------------------

/-- System registers that SYSWR writes (R182). -/
def sysWrite (c : CoreState) (n : Nat) (v : Word) : CoreState :=
  match n with
  | 0x020 => { c with cc := { c.cc with seed := v } }
  | 0x021 => { c with cp := { c.cp with seed := v } }
  | 0x022 => { c with ve := { c.ve with seed := v } }
  | 0x023 => { c with ce := { c.ce with seed := v } }
  | 0x030 => { c with flagsCE := BitVec.ofNat 5 v.toNat }
  | 0x031 => { c with flagsVE := BitVec.ofNat 5 v.toNat }
  | 0x032 => { c with flagsCP := BitVec.ofNat 5 v.toNat }
  | 0x033 => { c with collision := v.getLsbD 0, symForce := v.getLsbD 1 }
  | _ => c

/-- Count bytes that landed in scratchpad or memory into the command's counter (R194). -/
def countDone (s : State) (k : Nat) (st : Stream) (lc : Option Nat) (n : Nat) : State :=
  match lc with
  | none => s
  | some l => let g := coreAgent s k st; modCore s k (fun c => setLc c l ((getLc c l).add n g))

/-- A fault that is raised after its command's issue (R321): the detail names the command. -/
def lateFault (s : State) (k : Nat) (f : Flight) (code cause : Nat) (detail : List Word) (prog : Nat) : State :=
  takeFaultFull s k f.stream f.station f.evt code cause (if detail.isEmpty then [toWord f.seq, 0, 0, 0] else detail) prog 0 0

/-- A queue pointer's reserved bits 62:50 read zero (R247). -/
def qpMask (v : Word) : Word := toWord (bits v.toNat 63 1 * 2 ^ 63 + bits v.toNat 0 50)

/-- Set bits of the watch filter (R280). -/
def watchPut (w : BitVec 16384) (hs : List Nat) : BitVec 16384 :=
  hs.foldl (fun w h => w ||| BitVec.ofNat 16384 (2 ^ h)) w

/-- Rows put into a row file from a row on. -/
def putRows (m : Sparse Row) : Nat → List Row → Sparse Row
  | _, [] => m
  | a, v :: r => putRows (Sparse.set 0 m a v) (a + 1) r

/-- One core-local effect at its landing. An entry that RMERGE makes keeps the byte mask of the first of the two (log 81). -/
def applyLocal (s : State) (k : Nat) (f : Flight) : State :=
  match f.eff with
  | .sreg r v => modCore s k (fun c => sput c r v)
  | .spad a n en v lc =>
    countDone (modCore s k (fun c => { c with spad := Memory.writeMasked c.spad a en v n, wrote := ⟨a, en, none, f.station, f.issue, f.seq⟩ :: c.wrote })) k
      f.stream lc (countOnes en n)
  | .row r en v _ => modCore s k (fun c => setRow c r (mergeRow (getRow c r) v en))
  | .mask m en v => modCore s k (fun c =>
      { c with masks := Sparse.set 0 c.masks m ((getMask c m &&& ~~~en) ||| (v &&& en)) })
  | .kpred n v => modCore s k (fun c => { c with kpreds := Sparse.set {} c.kpreds n v })
  | .qp q v => modCore s k (fun c => { c with qps := Sparse.set 0 c.qps q (qpMask v) })
  | .slotSt n st => modCore s k (fun c => { c with slots := Sparse.set {} c.slots n { getSlot c n with st := st } })
  | .pmRows p vals => modCore s k (fun c => { c with pm := putRows c.pm (8 * p) vals })
  | .cbRows p vals => modCore s k (fun c => { c with cb := putRows c.cb (16 * p) vals })
  | .fqAppend v => modCore s k (fun c => { c with fq := c.fq ++ [v], fqSeq := f.seq, fqEvt := f.evt })
  | .lcset l t =>
    let g := coreAgent s k .cc
    let s := { s with counted := s.counted.filter (fun x => !(x.1 = k && x.2.1 = l)) }
    modCore s k (fun c => setLc c l ((getLc c l).reset t g))
  | .sysreg n v => modCore s k (fun c => sysWrite c n v)
  | .flags e v => modCore s k (fun c => stickFlags c e v)
  | .symForce => modCore s k (fun c => { c with symForce := true })
  | .watchAdd a => modCore s k (fun c => { c with watch := watchPut c.watch (watchHashes a) })
  | .watchClr => modCore s k (fun c => { c with watch := 0 })
  | .yload y im =>
    if symValid im then modCore s k (fun c => { c with sy := Sparse.set {} c.sy y ⟨true, im⟩ })
    else lateFault s k f fEncoding 0 [] 0
  | .rload n im =>
    let e := entryOf im
    let part := partOfCore s k
    match rloadFault (getCore s k).ranges n (asidOfCore s k) (getPart s (pkgOf k) part) (featOn s k part 1) e with
    | some code => lateFault s k f code 0 [] 0
    | none => modCore s k (fun c => setRange c n (if e.valid then e else {}))
  | .rsplit n m x slot =>
    let e := getRange (getCore s k) n
    let lo := reSector { e with limit := x } [e]
    let hi := reSector { e with base := x, lidx := toWord slot } [e]
    let s := modCore s k (fun c => setRange (setRange c n lo) m hi)
    listWrite (listWrite s k f e.lidx.toNat lo 0) k f slot hi 1
  | .rmerge n m =>
    let e := getRange (getCore s k) n
    let g := getRange (getCore s k) m
    let new := reSector { e with limit := g.limit } [e, g]
    let s := modCore s k (fun c => setRange (setRange c n new) m {})
    listWrite (listWrite s k f e.lidx.toNat new 0) k f g.lidx.toNat {} 1
  | .raise code cause d prog => takeFaultFull s k f.stream f.station f.evt code cause (d.take 4) prog (d.getD 4 0) (d.getD 5 0)
  | _ => s

/-- The effects that RESULT_LANDING lands. -/
def isLocal : Effect → Bool
  | .sreg .. | .spad .. | .row .. | .mask .. | .kpred .. | .qp .. | .slotSt .. | .pmRows .. | .cbRows .. | .fqAppend ..
  | .lcset .. | .sysreg .. | .flags .. | .symForce | .watchAdd .. | .watchClr | .yload .. | .rload .. | .rsplit .. | .rmerge ..
  | .kept .. | .raise .. => true
  | _ => false

/-- Two masked runs share a byte. -/
def masksMeet (a en b en' : Nat) : Bool :=
  let lo := min a b
  (en * 2 ^ (a - lo)) &&& (en' * 2 ^ (b - lo)) != 0

/-- Two core-local effects write one destination (R101, R164, R183, R224, R257, R284). -/
def effMeet (e g : Effect) : Bool :=
  match e, g with
  | .sreg r _, .sreg q _ => r == q && r != 0
  | .spad a _ en _ _, .spad b _ en' _ _ => masksMeet a en b en'
  | .row r en _ _, .row q en' _ _ => r == q && (en &&& en') != 0
  | .mask m en _, .mask q en' _ => m == q && (en &&& en') != 0
  | .kpred n _, .kpred q _ => n == q
  | .qp n _, .qp q _ => n == q
  | .pmRows p v, .pmRows q w => decide (8 * p < 8 * q + w.length) && decide (8 * q < 8 * p + v.length)
  | .cbRows p v, .cbRows q w => decide (16 * p < 16 * q + w.length) && decide (16 * q < 16 * p + v.length)
  | _, _ => false

/-- Some entry meets a later one of another command: duplicates within one command are no collision (R200, R284). -/
def anyCollision : List Flight → Bool
  | [] => false
  | f :: r => r.any (fun g => effMeet f.eff g.eff && !(f.stream == g.stream && f.seq == g.seq)) || anyCollision r

/-- The tile of a row event. -/
def tileEvents (l : List Flight) (t : Nat) : List TagEvent :=
  l.filterMap (fun f => match f.eff with
    | .row r en _ ev => if r / 32 = t ∧ en ≠ 0 then some ev else none
    | _ => none)

/-- The tag after a cycle's events (R82). -/
def tagAfter (old : BitVec 2) (evs : List TagEvent) : BitVec 2 :=
  let start := if evs.any (fun e => e == .zero) then 2
    else match evs.find? (fun e => match e with | .trn _ => true | _ => false) with
      | some (.trn t) => t
      | _ => old
  evs.foldl (fun a e => match e with
    | .plain => tagMeet a 0
    | .prod t => tagMeet a t
    | .trn t => tagMeet a t
    | .zero => a) start

/-- The tags after the landings of a cycle. -/
def tagsAfter (c : CoreState) (l : List Flight) : Sparse (BitVec 2) :=
  (List.range 16).foldl (fun m t =>
    let evs := tileEvents l t
    if evs.isEmpty then m else Sparse.set 2 m t (tagAfter (Sparse.get 2 m t) evs)) c.tags

/-- Enabled bytes of a run of `n` from `a` lie in [b, b + m). -/
def bytesMeet (a n en b m : Nat) : Bool :=
  let lo := max a b
  let hi := min (a + n) (b + m)
  decide (lo < hi) && bits en (lo - a) (hi - lo) != 0

/-- A local write that was issued before a window opened, bytes of which land inside its buffer while it is open (R216). -/
def windowHit (c : CoreState) (f : Flight) : Bool :=
  match f.eff with
  | .spad a n en _ _ =>
    c.rwins.any (fun w => f.issue < w.opens && w.opens ≤ c.dcc && c.dcc ≤ w.closes && bytesMeet a n en w.addr w.len)
  | _ => false

/-- Bytes that one command lands in scratchpad in one cycle: none of them lands when some are kept out of a window (R216). -/
def sameStore (f g : Flight) : Bool :=
  (match f.eff with | .spad .. => true | _ => false) && f.stream == g.stream && f.seq == g.seq

/-- DEST and ADDR of what an effect reaches, as its entry gives them (R319). -/
def effPlace (c : CoreState) (f : Flight) : Nat × Nat :=
  match entriesOf c f with
  | e :: _ => (e.dest, e.addr)
  | [] => (0, 0)

/-- An effect differs between the partners of a pair (R117): pair-mismatch, with the command, the place and both values kept. -/
def pairFault (s : State) (k : Nat) (f : Flight) (other : List Flight) : State :=
  let (dest, addr) := effPlace (getCore s k) f
  let theirs := match other.find? (fun g => g.stream == f.stream && g.seq == f.seq && g.sub == f.sub) with
    | some g => effValue g.eff
    | none => 0
  let keep := fun (s : State) (n v : Nat) => addFlight s k { f with sub := n, eff := .pairVal dest addr v, got := none }
  lateFault (keep (keep s 0 (effValue f.eff)) 1 theirs) k f fPair 0 [toWord f.seq, toWord addr, toWord dest, 0] 0

/-- A pair's partner lands a different result under SIGNAL CMP (R116): its due entries are given. -/
def pairDiffers (partner : List Flight) (f : Flight) : Bool :=
  f.cmp && !partner.any (fun g => g.stream == f.stream && g.seq == f.seq && g.sub == f.sub && g.station == f.station && g.eff == f.eff)

/-- The landings of a core's cycle (R100): tags, then every entry in its order, then collisions: one in the cycle in which a
SYSWR of SYS.CFLAGS takes effect is set in the written value, as R48 has it of the flags registers (log 63). A pair partner's due
entries are given for the comparison of R116. -/
def landResults (s : State) (k : Nat) (partner : Option (List Flight)) : State :=
  let c := getCore s k
  let (due, c') := dueOf c c.dcc isLocal
  let differs := fun f => match partner with | some l => pairDiffers l f | none => false
  let bad := due.filter differs
  let good := due.filter (fun f => !differs f)
  let clash := good.filter (windowHit c')
  let good := good.filter (fun f => !(clash.any (sameStore f)))
  let s := good.foldl (fun s f => applyLocal s k f) (setCore s k { c' with tags := tagsAfter c' good })
  let s := if anyCollision good then modCore s k (fun c => { c with collision := true }) else s
  let s := clash.foldl (fun s f => lateFault s k f fPermission 0 [] 0) s
  bad.foldl (fun s f => pairFault s k f (partner.getD [])) s

-- Fills (R203, R251) ---------------------------------------------------------------------------------------------------------

def isFill : Effect → Bool
  | .fill .. => true
  | _ => false

/-- A fill becomes FULL: the slot must be CLAIMED, or crucible-state is raised and nothing changes. A row's bytes beyond COLS elements
are zero in a fill from scratchpad and the rest of the granule in a .mem fill (log 82). -/
def applyFill (s : State) (k : Nat) (f : Flight) : State :=
  match f.eff with
  | .fill n vals rows cols ty =>
    if (getSlot (getCore s k) n).st = .claimed then
      modCore s k (fun c =>
        { c with slots := Sparse.set {} c.slots n ⟨.full, rows, cols, ty⟩
                 cruc := putRows c.cruc (32 * n) vals })
    else lateFault s k f fCrucible 0 [] 0
  | _ => s

/-- The fills of a core's cycle, by station and then by issue: of two that land on one CLAIMED slot in one cycle the first is accepted and
the second raises crucible-state (R251; log 98). -/
def landFills (s : State) (k : Nat) (partner : Option (List Flight)) : State :=
  let c := getCore s k
  let (due, c') := dueOf c c.dcc isFill
  let differs := fun f => match partner with | some l => pairDiffers l f | none => false
  let s := (due.filter (fun f => !differs f)).foldl (fun s f => applyFill s k f) (setCore s k c')
  (due.filter differs).foldl (fun s f => pairFault s k f (partner.getD [])) s

-- Samples of core-local memory ----------------------------------------------------------------------------------------------

def isLocalSample : Effect → Bool
  | .lds .. | .yloadRead .. | .rloadRead .. | .mmaAcc .. => true
  | _ => false

/-- Update of R50: one accumulator element by the products of row i and column j. -/
def updateAcc (ty : Ty) (sat : Bool) (acc : Nat) (ps : List (Num × Num)) : Nat × Flags :=
  let num := fun f => decodeNum f acc
  let prods := ps.map (fun p => p.1.mul p.2)
  match ty with
  | .f16 | .bf16 | .nf => encodeNum fmtF32 .rne (sumNum false (num fmtF32 :: prods))
  | .f32 =>
    (List.range 4).foldl (fun a g =>
      let l := (prods.drop (4 * g)).take 4
      if l.isEmpty then a
      else let r := encodeNum fmtF32 .rne (sumNum false (decodeNum fmtF32 a.1 :: l)); (r.1, a.2 ||| r.2)) (acc, 0)
  | .f64 =>
    prods.foldl (fun a p =>
      let r := encodeNum fmtF64 .rne (sumNum false [decodeNum fmtF64 a.1, p]); (r.1, a.2 ||| r.2)) (acc, 0)
  | _ =>
    let r := prods.foldl (fun (a : Int × Flags) p =>
      let v := a.1 + Num.toIntAt 0 p
      if sat then (let cl := clampInt .i32 v; (intOf .i32 cl.1, a.2 ||| cl.2)) else (intOf .i32 (intCode 32 v), a.2))
      (intOf .i32 acc, 0)
    (intCode 32 r.1, r.2)

/-- The accumulator sample of a tile command: the updated elements land 32 cycles on (R256). -/
def sampleMma (s : State) (k : Nat) (f : Flight) : State :=
  match f.eff with
  | .mmaAcc t ty sat a b sel tag =>
    let c := getCore s k
    let w := if ty = .f64 then 64 else 32
    let row := fun i =>
      let ai := a.getD i []
      let si := sel.getD i []
      (List.range b.length).map (fun j =>
        let bj := b.getD j []
        updateAcc ty sat (laneAt w (getRow c (32 * t + i)) j)
          ((List.range ai.length).map (fun q => (ai.getD q (.fin false 0 0), bj.getD (si.getD q 0) (.fin false 0 0)))))
    let rows := (List.range a.length).map row
    let s := (List.range a.length).foldl (fun s i =>
      let vals := rows.getD i []
      let e : Effect := .row (32 * t + i) (BitVec.ofNat 128 (2 ^ (w / 8 * vals.length) - 1))
        (BitVec.ofNat 1024 (packLanes w (vals.map Prod.fst))) (.prod tag)
      addFlight s k { f with at' := f.at' + 32, sub := i, eff := e }) s
    let fl := orFlags rows.flatten
    if fl = 0 then s else addFlight s k { f with at' := f.at' + 32, sub := 32, eff := .flags .ce fl }
  | _ => s

/-- One sample of the core's own memory. -/
def sampleLocal (s : State) (k : Nat) (f : Flight) : State :=
  let c := getCore s k
  match f.eff with
  | .lds r a => addFlight s k { f with at' := f.at' + 1, eff := .sreg r (Memory.word c.spad a) }
  | .yloadRead y a => addFlight s k { f with at' := f.at' + 1, eff := .yload y (BitVec.ofNat 512 (Memory.readNat c.spad a 64)) }
  | .rloadRead n a => addFlight s k { f with at' := f.at' + 1, eff := .rload n (BitVec.ofNat 512 (Memory.readNat c.spad a 64)) }
  | _ => sampleMma s k f

def sampleLocals (s : State) (k : Nat) : State :=
  let c := getCore s k
  let (due, c') := dueOf c c.dcc isLocalSample
  due.foldl (fun s f => sampleLocal s k f) (setCore s k c')

-- Domain phases --------------------------------------------------------------------------------------------------------------

/-- The domain runs a cycle now: running, or catching up (R314). -/
def Domain.cycling (d : Domain) : Bool := d.status == .run || d.status == .catchUp

/-- A core runs the domain's present cycle. -/
def liveIn (s : State) (d : Domain) (k : Nat) : Bool := (getCore s k).dcc == d.dcc && (getCore s k).pid == d.pid

/-- Do something for a domain that runs a cycle. -/
def inCycle (s : State) (pid : Nat) (f : State → Domain → State) : State :=
  match findDom s pid with
  | some d => if d.cycling then f s d else s
  | none => s

/-- A core and its pair partner: what comes to one comes to both (R115). -/
def bothOf (d : Domain) (k : Nat) : List Nat := k :: (partnerOf d k).toList

/-- Give an entry to a core and to its pair partner (R115). -/
def addBoth (s : State) (d : Domain) (k : Nat) (f : Flight) : State := (bothOf d k).foldl (fun s q => addFlight s q f) s

/-- The entries of a kind that fall due in the cycle for one core, taken out of its queue; of a pair only the primary's copy
proceeds (R116). A core that has stopped before the cycle is no exception: what its commands asked of the memory side goes on
(R283; log 64). -/
def takeDue (s : State) (d : Domain) (k : Nat) (p : Effect → Bool) : List Flight × State :=
  if (getCore s k).pid = d.pid then
    let (due, c) := dueOf (getCore s k) d.dcc p
    let s := setCore s k c
    match partnerOf d k with
    | none => (due, s)
    | some q => (due, setCore s q (dueOf (getCore s q) d.dcc p).2)
  else ([], s)

/-- The due entries of every core of the domain, in domain-relative order. -/
def takeDueAll (s : State) (d : Domain) (p : Effect → Bool) : List (Nat × Flight) × State :=
  d.cores.foldl (fun a k =>
    let (l, s) := takeDue a.2 d k p
    (a.1 ++ l.map (fun f => (k, f)), s)) ([], s)

-- Device-memory writes (R283, R284, R286) --------------------------------------------------------------------------------------

def isMemWrite : Effect → Bool
  | .memWrite .. | .atomStore .. => true
  | _ => false

/-- The masked run that a write stores. -/
def writeRun : Effect → Option (Nat × Nat)
  | .memWrite key _ en _ _ => some (key, en)
  | .atomStore key _ _ => some (key, 255)
  | _ => none

/-- Two writes of one cycle collide (R284); two atomics do not (R171), nor duplicates of one CPSCT (R200). -/
def memClash (x y : Nat × Flight) : Bool :=
  let atoms := match x.2.eff, y.2.eff with | .atomStore .., .atomStore .. => true | _, _ => false
  let same := x.1 == y.1 && x.2.stream == y.2.stream && x.2.seq == y.2.seq
  match writeRun x.2.eff, writeRun y.2.eff with
  | some (a, en), some (b, en') => !atoms && !same && masksMeet a en b en'
  | _, _ => false

/-- The cores that took part in a collision. -/
def clashCores : List (Nat × Flight) → List Nat
  | [] => []
  | x :: r => (r.filter (memClash x)).flatMap (fun y => [x.1, y.1]) ++ clashCores r

-- Atomics (R170, R171, R294) ---------------------------------------------------------------------------------------------------

def isAtom : Effect → Bool
  | .atom .. => true
  | _ => false

/-- The new word of an atomic (R170). -/
def atomNew (op : AtomOp) (old : Word) : Word :=
  match op with
  | .add b => old + b
  | .cas b c => if old = c then b else old
  | .swp b => b

/-- The entry is an atomic's store on a word. -/
def storesWord (key : Nat) (f : Flight) : Bool := match f.eff with | .atomStore a .. => a == key | _ => false

/-- An atomic has sampled the word, in either backing (R279), and its store is still to reach it. -/
def storePending (s : State) (key : Nat) (f : Flight) : Bool := f.got.isNone && (mirrorKeys s key).any (fun a => storesWord a f)

/-- The store of an atomic at the memory side (R170, R279, R286). -/
def storeAtom (s : State) (k : Nat) (f : Flight) : State :=
  match f.eff with
  | .atomStore a v clock => tagBytes (memStore s a 8 255 v.toNat) ⟨.core k, clock⟩ a 8
  | _ => s

/-- One core's atomics on a word that have sampled it and not stored yet reach it now (R171, R294): the next atomic finds them applied,
and their landing cycle, whenever it comes, stores nothing more. -/
def landHeld (s : State) (k key : Nat) : State :=
  ((getCore s k).inflight.filter (storePending s key)).foldl (fun s f => storeAtom s k f)
    (modCore s k (fun c => { c with inflight := c.inflight.map (fun f => if storePending s key f then { f with got := some 0 } else f) }))

/-- A word as the atomics of this local clock and of earlier ones leave it, and the writes that its reader observes (R171, R287,
R294). -/
def atomWord (s : State) (p : Party) (key : Nat) : Word × State :=
  let s := ((s.cores.filter (fun x => x.2.inflight.any (storePending s key))).map Prod.fst).foldl (fun s k => landHeld s k key) s
  (toWord (memLoad s key 8), noteRead s p key 8)

/-- An atomic samples its word (R170, R171, R294): the old word, the new one as the clock's next atomic on it finds it, and the
clock of the write. -/
def atomSample (s : State) (p : Party) (key : Nat) (op : AtomOp) : Word × Word × List Nat × State :=
  let (old, s) := atomWord s p key
  let new := atomNew op old
  let v := nextClock s p key
  let s := setClock s p v
  (old, new, v, { s with atomNow := (key, new, ⟨p, v⟩) :: s.atomNow.filter (fun x => x.1 != key) })

/-- An atomic of a party without a timetable (R294): it samples and stores at once, a write by its clock (R286); the answer is the old
word. -/
def untimedAtom (s : State) (p : Party) (key : Nat) (op : AtomOp) : Word × State :=
  let (old, new, clock, s) := atomSample s p key op
  (old, tagBytes (memStore s key 8 255 new.toNat) ⟨p, clock⟩ key 8)

/-- An atomic has sampled the word, in either backing, in this local clock (R279, R294). -/
def atomTaken (s : State) (key : Nat) : Bool := s.atomNow.any (fun x => (mirrorKeys s key).contains x.1)

-- Sum cells (R53 to R56, R209 to R211, R295) --------------------------------------------------------------------------------------

def isCellInit : Effect → Bool
  | .cellInit .. => true
  | _ => false
def isCellAdd : Effect → Bool
  | .cellAdd .. | .cellSum .. => true
  | _ => false

def getCell (s : State) (key : Nat) : CellMeta := Sparse.get {} s.cells key
def setCell (s : State) (key : Nat) (m : CellMeta) : State := { s with cells := Sparse.set {} s.cells key m }

/-- The backings' cell keys. -/
def cellKeys (s : State) (key : Nat) : List Nat := mirrorKeys s key

/-- The contribution of a value to I (R54): `none` sets ERR; the flag is inexact from the FP64 rounding, whose bullet makes no
exception of a value too large to add (log 65). -/
def cellContribution (ty : Ty) (grid : Int) (x : Num) : Option Int × Flags :=
  match x with
  | .nan _ | .inf _ => (none, 0)
  | .fin n m e =>
    if ty = .f64 then
      let (q, inx) := roundRat .rne n m 1 (e - grid)
      let v : Int := if n then -(q : Int) else q
      let fl := if inx then fINX else 0
      if magGt (q + 1) grid 1 320 ∧ ¬ magGt 1 320 q grid then (none, fl)
      else (some (v * 2 ^ (grid + 149).toNat), fl)
    else (some (Num.toIntAt (-149) x), 0)

/-- The contribution of OCONP's exact sum (R267): rounded to 2^-149, or for f64 to the cell's grid; a sum too large to add sets ERR
and no flag. -/
def sumContribution (ty : Ty) (grid : Int) (x : Num) : Option Int × Flags :=
  match x with
  | .nan _ => (none, fINV)
  | .inf _ => (none, 0)
  | .fin n m e =>
    if ty = .f64 then
      match cellContribution .f64 grid x with
      | (none, _) => (none, 0)
      | r => r
    else
      let (q, inx) := roundRat .rne n m 1 (e + 149)
      (some (if n then -(q : Int) else (q : Int)), if inx then fINX else 0)

/-- Add a contribution to I modulo 2^512, or set ERR (R54), in both backings while a range moves (R279). -/
def addToCell (s : State) (key : Nat) (c : Option Int) : State :=
  (cellKeys s key).foldl (fun s a =>
    match c with
    | some v => { s with mem := Memory.writeNat s.mem a 64 (((Memory.readNat s.mem a 64 : Int) + v) % 2 ^ 512).toNat }
    | none => setCell s a { getCell s a with err := 1 }) s

/-- The value of a cell's integer (R53). -/
def cellNum (i : Nat) : Num :=
  let x := asSigned 512 i
  .fin (x < 0) x.natAbs (-149)

/-- A cell converted (R56). To i64, inexact is set as well when the rounding changes V, and saturation with it on every clamp
(R47; log 65). -/
def cellConvert (t : Ty) (i : Nat) : Nat × Flags :=
  if t = .i64 then numToInt .i64 .rne (cellNum i)
  else match cellNum i with
    | .fin _ 0 _ => (0, 0)
    | x => encodeNum (fmtOf t 0) .rne x

-- The memory side and the core's side of an access ---------------------------------------------------------------------------------

/-- What the memory side does with an entry in its cycle (R54, R170, R209, R267, R283, R286), and what it answers: the bytes or the
old word of a read, the flags of an add. -/
def memSide (s : State) (k : Nat) (f : Flight) : State × Nat :=
  let p := Party.core k
  match f.eff with
  | .memWrite key n en v _ => (noteWrite (memStore s key n en v) p key n, 0)
  | .atomStore .. => (storeAtom s k f, 0)
  | .atom key _ op =>
    let (old, new, clock, s) := atomSample s p key op
    (addFlight s k { f with at' := f.at' + 1, eff := .atomStore key new clock }, old.toNat)
  | .cellInit key g =>
    (noteWrite (memStore ((cellKeys s key).foldl (fun s a => setCell s a ⟨g, 0⟩) s) key 64 (2 ^ 64 - 1) 0) p key 64, 0)
  | .cellAdd key ty v =>
    let x := if Ty.isFloat ty then decodeNum (fmtOf ty 0) v else numOfInt (intOf ty v)
    let (c, fl) := cellContribution ty (getCell s key).grid x
    (addToCell (noteWrite s p key 64) key c, fl)
  | .cellSum key ty x =>
    let (c, fl) := sumContribution ty (getCell s key).grid x
    (addToCell (noteWrite s p key 64) key c, fl)
  | .memRead key n _ => (noteRead s p key n, memLoad s key n)
  | .cellRead key .. => (noteRead s p key 64, Memory.readNat s.mem key 64 + (getCell s key).err.toNat * 2 ^ 512)
  | _ => (s, 0)

/-- Put sampled bytes into the buffer of a command in progress. -/
def fillJob (c : CoreState) (st : Stream) (seq p n v : Nat) : CoreState :=
  { c with jobs := c.jobs.map (fun j =>
      if j.stream = st ∧ j.seq = seq then { j with buf := Memory.writeNat j.buf p n v } else j) }

/-- What the sampled bytes of a core become (R102, R115): the landing is one cycle on; a copy's bytes go to scratchpad, other
uses to the register or to the buffer of the command, where nothing reads them before that. -/
def useSample (s : State) (k : Nat) (f : Flight) (n v : Nat) (u : Then) : State :=
  let next := fun (s : State) (sub : Nat) (e : Effect) => addFlight s k { f with at' := f.at' + 1, sub := sub, eff := e, got := some 0 }
  match u with
  | .reg r => next s f.sub (.sreg r (toWord v))
  | .spad a lc => next s f.sub (.spad a n (2 ^ n - 1) v lc)
  | .spadSy a lc neg t nf =>
    let (w, fl) := signCode neg t nf v
    let s := next s f.sub (.spad a n (2 ^ n - 1) w lc)
    if fl = 0 then s else next s (f.sub + 1) (.flags .cp fl)
  | .cast seq i => next (modCore s k (fun c => fillJob c .cp seq (64 * i) 64 v)) f.sub (.kept u n v)
  | .job st seq p => next (modCore s k (fun c => fillJob c st seq p n v)) f.sub (.kept u n v)

/-- What the memory side's answer `v` brings to a core (R48, R54, R56, R115, R170, R211, R290): bytes counted, flags, the landing
of what was read. A write's answer is 1 when it took part in a collision (R284). -/
def ownSide (s : State) (k : Nat) (f : Flight) (v : Nat) : State :=
  match f.eff with
  | .memWrite _ n en _ lc =>
    let s := if v = 1 then modCore s k (fun c => { c with collision := true }) else s
    countDone s k f.stream lc (countOnes en n)
  | .atomStore .. => if v = 1 then modCore s k (fun c => { c with collision := true }) else s
  | .atom _ r _ => addFlight s k { f with at' := f.at' + 1, eff := .sreg r (toWord v), got := some 0 }
  | .cellAdd .. => modCore s k (fun c => stickFlags c f.stream v)
  | .cellSum .. => modCore s k (fun c => stickFlags c .ce v)
  | .memRead _ n u => useSample s k f n v u
  | .cellRead _ t raw a run =>
    let (x, fl) := cellConvert t (v % 2 ^ 512)
    let err := v / 2 ^ 512
    let g : Flight := { f with at' := f.at' + 2 + spanOf run cpiSt (blkSt (blkOf a)), got := some 0 }
    let e : Effect := if raw then .spad a 80 (2 ^ 80 - 1) v none else .spad a 16 (2 ^ 16 - 1) (x % 2 ^ 64 + err * 2 ^ 64) none
    let s := addFlight s k { g with eff := e }
    if raw ∨ fl = 0 then s else addFlight s k { g with sub := f.sub + 1, eff := .flags .cp fl }
  | _ => s

/-- One entry at the memory side. A core that has stopped before this cycle has its part when catch-up brings it there (R313, R314;
log 64). `clash` is 1 for a write that took part in a collision. -/
def settle (s : State) (d : Domain) (k : Nat) (f : Flight) (clash : Nat) : State :=
  let own := fun (s : State) (v : Nat) => (bothOf d k).foldl (fun s q => ownSide s q f v) s
  match f.got with
  | some v => own s (max v clash)
  | none =>
    let (s, v) := memSide s k f
    let v := v + clash
    if (getCore s k).dcc = d.dcc then own s v
    else (bothOf d k).foldl (fun s q => modCore s q (fun c => { c with inflight := c.inflight ++ [{ f with got := some v }] })) s

def landMemWrites (s : State) (d : Domain) : State :=
  let (l, s) := takeDueAll s d isMemWrite
  let hit := clashCores l
  l.foldl (fun s x => settle s d x.1 x.2 (if hit.contains x.1 then 1 else 0)) s

/-- The CPCINIs of a cycle, in increasing core number, before its ordinary writes and adds (R295): where two, or one and an ordinary write,
reach one cell, the later prevails and none is a collision (log 102). -/
def landCellInits (s : State) (d : Domain) : State :=
  let (l, s) := takeDueAll s d isCellInit
  l.foldl (fun s x => settle s d x.1 x.2 0) s

def landCellAdds (s : State) (d : Domain) : State :=
  let (l, s) := takeDueAll s d isCellAdd
  l.foldl (fun s x => settle s d x.1 x.2 0) s

end Sys2Proof.Machine
end

