-- ==== Sys2Proof/Machine/Arrive.lean ====
section
/-! DEFINITION. What comes to a core from outside it in a cycle: samples of device memory (R283), conversions of sum cells (R56,
R211), beats of timed exchange and the closing of receive windows (R214 to R217), and range changes (R277). -/

namespace Sys2Proof.Machine

-- Samples of device memory ------------------------------------------------------------------------------------------------

def isMemSample : Effect → Bool
  | .memRead .. | .cellRead .. => true
  | _ => false

/-- A range of the core's table is backed by a memory key. -/
def holdsKey (c : CoreState) (pkg key : Nat) : Bool :=
  c.ranges.any (fun p =>
    let lo := pkg * 2 ^ 39 + (p.2.base.toNat + p.2.off.toNat) % 2 ^ 64
    p.2.valid && decide (lo ≤ key) && decide (key < lo + (p.2.limit.toNat - p.2.base.toNat)))

/-- A read of a granule with an uncorrectable error (R316, R320): memory-uncorrectable in every pour that holds the range. -/
def memoryError (s : State) (k : Nat) (f : Flight) (key : Nat) : State :=
  let own := (getCore s k).pid
  let s := lateFault s k f fMemory 0 [] 0
  s.domains.foldl (fun s d =>
    if d.pid = own then s
    else match d.all.find? (fun q => holdsKey (getCore s q) (pkgOf q) key) with
      | some q => takeFault s q .cc ccSt 0 fMemory 0 []
      | none => s) s

/-- The key that a sample reads, when its granule holds an uncorrectable error. -/
def badRead (s : State) (f : Flight) : Option Nat :=
  match f.eff with
  | .memRead key .. | .cellRead key .. | .atom key .. => if s.badMem.contains (key / 64) then some key else none
  | _ => none

/-- The reads of a kind that the memory side samples in the cycle (R171, R283): each core's in increasing core number. -/
def sampleDue (s : State) (d : Domain) (p : Effect → Bool) : State :=
  let (l, s) := takeDueAll s d p
  l.foldl (fun s x => match badRead s x.2 with
    | some key => memoryError s x.1 x.2 key
    | none => settle s d x.1 x.2 0) s

def sampleMemory (s : State) (d : Domain) : State := sampleDue s d isMemSample

/-- ATOMICS (R171): read and write in one cycle, before any other access of the next. -/
def landAtoms (s : State) (d : Domain) : State := sampleDue s d isAtom

-- Beats (R214 to R217, R284) ------------------------------------------------------------------------------------------------

def isBeat : Effect → Bool
  | .beat .. => true
  | _ => false

def beatSender (f : Flight) : Nat := match f.eff with | .beat _ _ x _ => x | _ => 0

/-- Beats of one cycle in increasing sender. -/
def insBeat (f : Flight) : List Flight → List Flight
  | [] => [f]
  | g :: r => if beatSender f < beatSender g then f :: g :: r else g :: insBeat f r

/-- The bytes of a 128-byte run that lie in [lo, lo + len). -/
def insideMask (a lo len : Nat) : Nat :=
  (List.range 128).foldl (fun m i => if lo ≤ a + i ∧ a + i < lo + len then m + 2 ^ i else m) 0

/-- The windows that a beat meets while they are open. -/
def windowsOf (c : CoreState) (a : Nat) : List RWin :=
  c.rwins.filter (fun w => w.opens ≤ c.dcc && c.dcc ≤ w.closes && runsMeet a 128 w.addr w.len)

/-- A reduction of one element: rounded to nearest even, or wrapping (R217). -/
def reduceElem (t : Ty) (old new : Nat) : Nat × Flags :=
  if Ty.isFloat t then
    let f := fmtOf t 0
    encodeNum f .rne (Num.add .rne (decodeNum f old) (decodeNum f new))
  else ((old + new) % 2 ^ Ty.bits t, 0)

/-- The bytes of a beat that lie in a reducing window, reduced into the buffer. -/
def reduceBeat (c : CoreState) (t : Ty) (a : Nat) (v : Row) (mask : Nat) : CoreState :=
  let n := Ty.size t
  (List.range (128 / n)).foldl (fun c e =>
    if bits mask (n * e) 1 = 1 then
      let (x, fl) := reduceElem t (Memory.readNat c.spad (a + n * e) n) (laneAt' t v e)
      stickFlags { c with spad := Memory.writeNat c.spad (a + n * e) n x } .cp fl
    else c) c
where
  laneAt' (t : Ty) (v : Row) (e : Nat) : Nat := bits v.toNat (Ty.bits t * e) (Ty.bits t)

/-- A write of this cycle prevails over a beat from a core, to a core with domain-relative number `me` (R284): the higher origin core,
then the higher station, then the later command. -/
def Wrote.over (w : Wrote) (me sender : Nat) (f : Flight) : Bool :=
  let o := w.sender.getD me
  if o ≠ sender then decide (sender < o)
  else if w.station ≠ f.station then decide (f.station < w.station)
  else if w.issue ≠ f.issue then decide (f.issue < w.issue) else decide (f.seq < w.seq)

/-- Bytes of a 128-byte run that some of the given writes wrote (R284). -/
def wroteMask (l : List Wrote) (a : Nat) : Nat :=
  (List.range 128).foldl (fun m i => if l.any (fun w => w.a ≤ a + i && bits w.en (a + i - w.a) 1 == 1) then m + 2 ^ i else m) 0

/-- The cores whose writes of this cycle share bytes with a beat (R284). -/
def metBy (d : Domain) (k a plain : Nat) (l : List Wrote) : List Nat :=
  (l.filter (fun w => wroteMask [w] a &&& plain != 0)).map (fun w => match w.sender with | some x => d.cores.getD x k | none => k)

/-- One beat lands: over-delivery raises schedule-miss cause 5 and nothing lands; bytes inside a window are counted, and reduced
by CPXRED's; the rest are an ordinary write, in which the higher origin core prevails (R216, R217, R284). -/
def applyBeat (s : State) (d : Domain) (k : Nat) (f : Flight) : State :=
  match f.eff with
  | .beat a v sender _ =>
    let c := getCore s k
    let ws := windowsOf c a
    let inside := fun (w : RWin) => insideMask a w.addr w.len
    if ws.any (fun w => w.expect < w.count + countOnes (inside w) 128) then
      takeFault s k .cp f.station f.evt fSchedule 5 [toWord f.seq]
    else
      let reds := ws.filter (fun w => w.red.isSome)
      let redMask := reds.foldl (fun m w => m ||| inside w) 0
      let plain := (2 ^ 128 - 1) ^^^ redMask
      let lost := wroteMask (c.wrote.filter (fun w => w.over (relOf d k) sender f)) a &&& plain
      let c' := { c with rwins := c.rwins.map (fun w => if ws.contains w then { w with count := w.count + countOnes (inside w) 128 } else w) }
      let c' := reds.foldl (fun c w => match w.red with | some t => reduceBeat c t a v (inside w) | none => c) c'
      let c' := { c' with spad := Memory.writeMasked c'.spad a (plain ^^^ lost) v.toNat 128
                          wrote := ⟨a, plain, some sender, f.station, f.issue, f.seq⟩ :: c.wrote }
      let met := metBy d k a plain c.wrote
      let hit := if met.isEmpty then [] else (d.cores.getD sender k :: met).flatMap (fun q => q :: (partnerOf d q).toList)
      hit.foldl (fun s q => modCore s q (fun c => { c with collision := true })) (setCore s k c')
  | _ => s

def landBeats (s : State) (d : Domain) (k : Nat) : State :=
  let c := getCore s k
  let (due, c') := dueOf c c.dcc isBeat
  (due.foldr insBeat []).foldl (fun s f => applyBeat s d k f) (setCore s k c')

/-- A window closes: without its full arrival schedule-miss cause 5 is raised (R215). -/
def closeWindows (s : State) (k : Nat) : State :=
  let c := getCore s k
  let done := c.rwins.filter (fun w => w.closes == c.dcc)
  let s := setCore s k { c with rwins := c.rwins.filter (fun w => w.closes != c.dcc) }
  (done.filter (fun w => w.count < w.expect)).foldl (fun s w => takeFault s k w.stream cpiSt w.evt fSchedule 5 [toWord w.seq]) s

-- Range changes (R189, R191, R277) --------------------------------------------------------------------------------------------

def isRinv : Effect → Bool | .rinv .. => true | _ => false
def isRres : Effect → Bool | .rres .. => true | _ => false
def isRret : Effect → Bool | .rret .. => true | _ => false

/-- RRES on an entry (R191). -/
def resEdit (asid base : Nat) (mask : Word) (clear : Bool) (e : RangeEntry) : RangeEntry :=
  if e.valid ∧ e.asid = asid ∧ e.base.toNat = base then
    { e with res := if clear then e.res &&& ~~~mask else e.res ||| mask } else e

/-- RRET on an entry (R191). -/
def retEdit (asid base : Nat) (off : Word) (e : RangeEntry) : RangeEntry :=
  if e.valid ∧ e.asid = asid ∧ e.base.toNat = base then { e with off := off } else e

def editTable (f : RangeEntry → RangeEntry) (c : CoreState) : CoreState :=
  { c with ranges := c.ranges.map (fun p => (p.1, f p.2)) }

/-- One change reaches the core's table. -/
def applyReach (c : CoreState) (e : Effect) : CoreState :=
  match e with
  | .rinv asid a => { c with ranges := c.ranges.filter (fun p => !p.2.holds asid a) }
  | .rres asid a m cl => editTable (resEdit asid a m cl) c
  | .rret asid a off => editTable (retEdit asid a off) c
  | _ => c

/-- A change of residency or offset that a system core sends: it is no entry of the core's own (R191). -/
def isReach : Effect → Bool | .rres .. | .rret .. => true | _ => false

/-- The changes of a cycle in the order of R277. -/
def reachRanges (s : State) (k : Nat) : State :=
  let c := getCore s k
  let (a, c) := dueOf c c.dcc isRinv
  let (b, c) := dueOf c c.dcc isRres
  let (r, c) := dueOf c c.dcc isRret
  setCore s k ((a ++ b ++ r).foldl (fun c f => applyReach c f.eff) c)

end Sys2Proof.Machine
end

