-- ==== Sys2Proof/Machine/Jobs.lean ====
section
/-! DEFINITION. Commands that go on after their issue cycle: the runner placements and port uses of each cycle (R14 to R19, R192),
their samples and requests (R193), and what they land (R195 to R217, R245, R246, R263 to R267). -/

namespace Sys2Proof.Machine

-- Shapes -----------------------------------------------------------------------------------------------------------------

/-- Granules of a strided move (R195). -/
def MoveShape.count (m : MoveShape) : Nat := m.len / 64 * m.n1 * m.n2

/-- Where granule `j` lies from a base (R195): row fastest, plane slowest, modulo 2^64. -/
def granuleAt (m : MoveShape) (base : Nat) (s1 s2 : Int) (j : Nat) : Nat :=
  let per := m.len / 64
  (((base + 64 * (j % per) : Nat) + (j / per % m.n1 : Nat) * s1 + (j / per / m.n1 : Nat) * s2 : Int) % 2 ^ 64).toNat

def MoveShape.srcAt (m : MoveShape) (j : Nat) : Nat := granuleAt m m.src m.ss1 m.ss2 j
def MoveShape.dstAt (m : MoveShape) (j : Nat) : Nat := granuleAt m m.dst m.ds1 m.ds2 j

/-- Cast stream timing (R197): the first landing of block 0. -/
def castBase (mem : Bool) : Nat := if mem then 1300 else 32

/-- R207's Q. -/
def expandQ (spad : Bool) : Nat := if spad then 24 else 1290

/-- Rows of 128 bytes that hold `n` bytes. -/
def rowsOf (n : Nat) : Nat := (n + 127) / 128

-- Placements and port uses -------------------------------------------------------------------------------------------------

/-- Something done in each of `n` cycles from a first one. -/
def during (t first n : Nat) (m : List Micro) : List Micro := if first ≤ t ∧ t < first + n then m else []

/-- A leg out of a block (R19, R196): the row at an address read in a cycle, on the runner at the block in the next, tapped at its
end (R18) unless the unit places it again. -/
def legOut (t first n b : Nat) (addr : Nat → Nat) (run dst : Nat) (leg : Leg) : List Micro :=
  let sp := spanOf run (blkSt b) dst
  during t first n [.read b (addr (t - first))] ++ during t (first + 1) n [.place (blkSt b) sp leg] ++
    (if leg = .pass then [] else during t (first + 1 + sp) n [.tap dst])

/-- A leg into a block that lands from a cycle on (R19): placed span + 1 cycles before. -/
def legIn (t land n src b run : Nat) : List Micro :=
  let sp := spanOf run src (blkSt b)
  during t (land - 1 - sp) n [.place src sp .last] ++ during t land n [.write b]

/-- Both legs of a move from block to block through a unit (R196, R199): what arrives there is placed again. -/
def legBoth (t first n b1 : Nat) (addr : Nat → Nat) (unit b2 run : Nat) : List Micro :=
  let mid := first + 1 + spanOf run (blkSt b1) unit
  let sp := spanOf run unit (blkSt b2)
  legOut t first n b1 addr run unit .pass ++ during t mid n [.relay unit sp] ++ during t (mid + sp + 1) n [.write b2]

/-- An expanded granule of a cast stream lands in a cycle (R197). -/
def castLands (t first E : Nat) : Bool := first ≤ t && (t - first) % 5 < 4 && (t - first) / 5 < E / 256

/-- A row of CPEXP is placed in a cycle (R207). -/
def expandPlaces (t q rows cols : Nat) : Bool := q + cols ≤ t && (t - q) % cols == 0 && (t - q) / cols ≤ rows

/-- The representatives of a walk lie in these blocks of scratchpad (R265). -/
def walkBlocks (a b : BitVec 512) : List Nat :=
  let l := (if symSpad a then [blkOf (symBase a)] else []) ++ (if symSpad b then [blkOf (symBase b)] else [])
  l.dedup

/-- The rows of an index list (R199). -/
def legIndex (t n idx run unit : Nat) : List Micro := legOut t 1 (rowsOf (8 * n)) (blkOf idx) (fun r => idx + 128 * r) run unit .last

/-- Where an indexed element lies (R199). -/
def indexedAt (j : Job) (base z i : Nat) : Nat := (base + j.nums.getD i 0 * z) % 2 ^ 64

/-- Where the representative of an indexed element lies (R201). -/
def canonAt (d : BitVec 512) (j : Job) (i : Nat) : Nat := slotAddr d (canon d ((unlinear d (j.nums.getD i 0)).getD [])).1

/-- The index of tile element (i, j): x with the row and column dimensions set. -/
def tileIndex (tup : List Nat) (rdim cdim row0 col0 i j : Nat) : List Nat := (tup.set rdim (row0 + i)).set cdim (col0 + j)

/-- Element `e` of CPEXP: its index is formed from `tup`, whose row and column entries hold the origins. -/
def expandIndex (tup : List Nat) (rdim cdim cols e : Nat) : List Nat :=
  tileIndex tup rdim cdim (tup.getD rdim 0) (tup.getD cdim 0) (e / cols) (e % cols)

/-- The source address of row `i` of a fill. -/
def fillRowAt (src : Nat) (stride : Int) (i : Nat) : Nat := (((src : Int) + i * stride) % 2 ^ 64).toNat

/-- What a command places and which ports it uses, `t` cycles after its issue. An idle command does the same, and a scatter through a
symmetry entry does it for N representatives, so that no conflict depends on data (R98, R192, R201; log 29). For the same reason the
forced-zero elements of a CPEXP from scratchpad use the block's port and a runner place (R207; log 87). -/
def staticOps (j : Job) (t : Nat) : List Micro :=
  match j.kind with
  | .cpld m => legIn t 1280 m.count cpiSt (blkOf m.dst) j.run
  | .cpst m => legOut t 1 m.count (blkOf m.src) m.srcAt j.run cpoSt .last
  | .cpmov m => legBoth t 1 m.count (blkOf m.src) m.srcAt cpoSt (blkOf m.dst) j.run
  | .cpset m _ mem => if mem then [] else legIn t (2 + spanOf j.run cpoSt (blkSt (blkOf m.dst))) m.count cpoSt (blkOf m.dst) j.run
  | .cast src dst E B mem =>
    let st := if mem then cpiSt else cpoSt
    let sp := spanOf j.run st (blkSt (blkOf dst))
    (if mem then [] else legOut t 1 (B / 64) (blkOf src) (fun i => src + 64 * i) j.run cpoSt .last) ++
      (if castLands (t + 1 + sp) (castBase mem) E then [.place st sp .last] else []) ++
      (if castLands t (castBase mem) E then [.write (blkOf dst)] else [])
  | .gather src dst idx n ty mem =>
    let st := if mem then cpiSt else cpoSt
    legIndex t n idx j.run st ++
      (if mem then legIn t 1296 n cpiSt (blkOf dst) j.run
       else legBoth t 17 n (blkOf src) (indexedAt j src (Ty.size ty)) cpoSt (blkOf dst) j.run)
  | .gatherSy _ dst idx n d =>
    legIndex t n idx j.run cpiSt ++
      (if symSpad d then legBoth t 17 n (blkOf (symBase d)) (canonAt d j) cpiSt (blkOf dst) j.run
       else legIn t 1296 n cpiSt (blkOf dst) j.run)
  | .scatter src dst idx n ty mem _ =>
    let addr := fun i => src + Ty.size ty * i
    legIndex t n idx j.run cpoSt ++
      (if mem then legOut t 16 n (blkOf src) addr j.run cpoSt .last else legBoth t 17 n (blkOf src) addr cpoSt (blkOf dst) j.run)
  | .scatterSy _ src idx n d _ =>
    legIndex t n idx j.run cpoSt ++ legOut t 17 n (blkOf src) (fun i => src + symSize d * i) j.run cpoSt .last ++
      (if symSpad d then legIn t (n + 48) n cpoSt (blkOf (symBase d)) j.run else [])
  | .fill _ _ src stride rows _ _ _ mem => if mem then [] else legOut t 1 rows (blkOf src) (fillRowAt src stride) j.run ceSt .last
  | .vq _ src dst rows _ sp _ =>
    legOut t 1 (rowsOf (if sp then 16 * rows else 256)) (blkOf src) (fun r => src + 128 * r) j.run ceSt .last ++
      (if sp then legIn t (17 + spanOf j.run ceSt (blkSt (blkOf dst))) rows ceSt (blkOf dst) j.run else [])
  | .expand _ _ _ dst rows cols tup rdim cdim d sp =>
    let q := expandQ (symSpad d)
    let span := spanOf j.run cpiSt (if sp then blkSt (blkOf dst) else ceSt)
    (if symSpad d then legOut t 1 (rows * cols) (blkOf (symBase d)) (fun e => slotAddr d (canon d (expandIndex tup rdim cdim cols e)).1)
        j.run cpiSt .last else []) ++
      (if expandPlaces t q rows cols then [.place cpiSt span .last] else []) ++
      (if sp then (if expandPlaces (t - 1 - span) q rows cols && 1 + span ≤ t then [.write (blkOf dst)] else [])
       else if expandPlaces (t - span) q rows cols && span ≤ t then [.tap ceSt] else [])
  | .fold _ _ rows _ _ _ _ _ _ d _ =>
    let sp := spanOf j.run ceSt cpoSt
    during t 1 rows [.place ceSt sp .last] ++ during t (1 + sp) rows [.tap cpoSt] ++
      (if symSpad d then legIn t (rows + 24) j.nums.length cpoSt (blkOf (symBase d)) j.run else [])
  | .cpatom src _ n ty _ => legOut t 1 n (blkOf src) (fun i => src + Ty.size ty * i) j.run cpoSt .last
  | .cpcrd dst _ _ _ => legIn t (1281 + spanOf j.run cpiSt (blkSt (blkOf dst))) 1 cpiSt (blkOf dst) j.run
  | .put src _ len _ _ => legOut t 1 (len / 64) (blkOf src) (fun i => src + 64 * i) j.run cpoSt .last
  | .send src _ _ _ beats => legOut t 1 beats (blkOf src) (fun i => src + 128 * i) j.run xpSt .last
  | .plan ops => (ops.filter (fun o => o.1 == t)).map Prod.snd
  | .vldSy _ _ d _ _ _ _ => legOut t 17 1 (blkOf (symBase d)) (fun _ => symBase d) j.run veSt .last
  | .walk _ _ a b _ _ _ =>
    let n := orbitCount a b
    let first := if walkMem a b then 1304 else 24
    if first ≤ t ∧ t < first + n then (walkBlocks a b).map (fun q => Micro.read q (q * 2 ^ 18)) else []

-- Samples, requests, landings --------------------------------------------------------------------------------------------------

/-- What a command's cycle gives: it goes on, or it stops on a fault with DETAIL words and progress. -/
inductive JobRes where
  | ok (s : State) (j : Job)
  | fault (s : State) (j : Job) (code : Nat) (detail : List Word) (prog : Nat)
  deriving DecidableEq, Repr

/-- An entry of a command in progress, `t` cycles after its issue. -/
def jobFlight (j : Job) (t sub : Nat) (e : Effect) : Flight := ⟨j.issue + t, j.station, j.stream, j.seq, j.issue, sub, j.cmp, e, none, j.evt⟩

/-- Put it in flight. -/
def jobPost (s : State) (k : Nat) (j : Job) (t sub : Nat) (e : Effect) : State := addFlight s k (jobFlight j t sub e)

/-- Post the flags of a result; none posts nothing. -/
def jobFlags (s : State) (k : Nat) (j : Job) (t sub : Nat) (eng : Stream) (fl : Flags) : State :=
  if fl = 0 then s else jobPost s k j t sub (.flags eng fl)

/-- A request (R193, R273): the watch test of every access that is looked up (R280), the lookup, then credit. A form that no lookup
can take, an address beyond 57 bits or off its alignment, raises permission (log 66). The continuation has the key. -/
def request (s : State) (k : Nat) (j : Job) (A n align : Nat) (perms : List Nat) (kind prog : Nat) (f : Nat → State → JobRes) :
    JobRes :=
  if A < 2 ^ 57 ∧ A % align = 0 then
    let s := watchTest s k j.stream j.evt j.ring j.seq A n kind
    match lookup (getCore s k) (pkgOf k) (asidOfCore s k) A perms j.seq with
    | .ok _ key => f key (rateUse s k j.stream j.station j.evt)
    | .fault code d => .fault s j code d prog
    | .nowhere => .ok (deadEnd s) { j with stopped := true }
  else .fault s j fPermission [toWord A, toWord (asidOfCore s k), toWord j.seq, 0] prog

/-- An address for bytes of scratchpad as a number. -/
def spadNat (s : State) (k a n : Nat) : Nat := Memory.readNat (getCore s k).spad a n

/-- Indices of row `r` of an index list, as many as the list has (R199). -/
def indexRow (s : State) (k idx n r : Nat) : List Nat :=
  (List.range (min 16 (n - 16 * r))).map (fun i => spadNat s k (idx + 128 * r + 8 * i) 8)

/-- Read an index row in its cycle. -/
def readIndices (s : State) (k idx n t : Nat) (j : Job) : Job :=
  if 1 ≤ t ∧ t ≤ rowsOf (8 * n) then { j with nums := j.nums ++ indexRow s k idx n (t - 1) } else j

/-- The first index of a row that lies beyond the extents (R74). -/
def badIndex (d : BitVec 512) (j : Job) (from' : Nat) : Option Nat :=
  ((List.range j.nums.length).drop from').find? (fun i => (unlinear d (j.nums.getD i 0)).isNone)

/-- A scratchpad element address is aligned and inside the block that the operand names (R193). -/
def elementOk (base a n : Nat) : Bool := a % n == 0 && decide (a < 2 ^ 21) && blkOf a == blkOf base && spadRunOk a n

-- Strided moves (R196)

def cpldRequest (s : State) (k : Nat) (j : Job) (m : MoveShape) (t : Nat) : JobRes :=
  if t < m.count then
    request s k j (m.srcAt t) 64 64 [pRD] 3 t (fun key s =>
      .ok (jobPost s k j (t + 1279) t (.memRead key 64 (.spad (m.dstAt t) j.lc))) j)
  else .ok s j

/-- A granule of CPST is sampled one cycle after its request, whose key waits in `nums`. -/
def cpstSample (s : State) (k : Nat) (j : Job) (m : MoveShape) (t : Nat) : JobRes :=
  if 1 ≤ t ∧ t ≤ m.count then
    .ok (jobPost s k j (t + 1279) (t - 1) (.memWrite (j.nums.headD 0) 64 (2 ^ 64 - 1) (spadNat s k (m.srcAt (t - 1)) 64) j.lc))
      { j with nums := j.nums.drop 1 }
  else .ok s j

def cpstRequest (s : State) (k : Nat) (j : Job) (m : MoveShape) (t : Nat) : JobRes :=
  if t < m.count then request s k j (m.dstAt t) 64 64 [pWR] 4 t (fun key s => .ok s { j with nums := j.nums ++ [key] }) else .ok s j

def cpmovCycle (s : State) (k : Nat) (j : Job) (m : MoveShape) (t : Nat) : JobRes :=
  if 1 ≤ t ∧ t ≤ m.count then
    let land := t + 2 + spanOf j.run (blkSt (blkOf m.src)) cpoSt + spanOf j.run cpoSt (blkSt (blkOf m.dst))
    .ok (jobPost s k j land (t - 1) (.spad (m.dstAt (t - 1)) 64 (2 ^ 64 - 1) (spadNat s k (m.srcAt (t - 1)) 64) j.lc)) j
  else .ok s j

/-- A granule of CPSET: the pattern eight times. -/
def patternNat (p : Word) : Nat := (List.range 8).foldl (fun a i => a + p.toNat * 2 ^ (64 * i)) 0

def cpsetCycle (s : State) (k : Nat) (j : Job) (m : MoveShape) (p : Word) (t : Nat) : JobRes :=
  if 1 ≤ t ∧ t ≤ m.count then
    .ok (jobPost s k j (t + 1 + spanOf j.run cpoSt (blkSt (blkOf m.dst))) (t - 1)
      (.spad (m.dstAt (t - 1)) 64 (2 ^ 64 - 1) (patternNat p) j.lc)) j
  else .ok s j

def cpsetRequest (s : State) (k : Nat) (j : Job) (m : MoveShape) (p : Word) (t : Nat) : JobRes :=
  if t < m.count then
    request s k j (m.dstAt t) 64 64 [pWR] 4 t (fun key s =>
      .ok (jobPost s k j (t + 1280) t (.memWrite key 64 (2 ^ 64 - 1) (patternNat p) j.lc)) j)
  else .ok s j

-- Cast blocks (R197, R198, R332 to R335)

/-- The delta bits of a BDELTA block, as one number. -/
def castElement (es dw base bits' i : Nat) : Nat :=
  ((base : Int) + asSigned dw (bits bits' (i * dw) dw)).emod (2 ^ (8 * es)) |>.toNat

/-- CLEN that a method requires (R334); none for an invalid method or header. -/
def castClen (h : Nat) : Option Nat :=
  let mth := bits h 0 3
  let es := 2 ^ bits h 3 2
  let dw := bits h 5 6
  if bits h 29 35 ≠ 0 then none
  else if mth = 3 then
    let c := 2 + (256 / es * dw + 63) / 64
    if dw = 0 ∨ dw > 8 * es ∨ dw > 32 ∨ c > 33 then none else some c
  else if bits h 3 8 ≠ 0 then none
  else if mth = 1 then some 1 else if mth = 2 then some 2 else if mth = 4 then some 33 else none

/-- Decode the block at byte `p` of a compressed run of `B` bytes: 256 bytes as a number, and the block's length; none raises
expansion-length (R198), as does a BDELTA base wider than its element (log 86). -/
def castBlock (m : Memory) (p B : Nat) : Option (Nat × Nat) :=
  let h := Memory.readNat m p 8
  match castClen h with
  | none => none
  | some c =>
    if p + 8 > B ∨ bits h 11 9 ≠ c ∨ bits h 20 9 ≠ 256 ∨ p + 8 * c > B then none
    else
      let w0 := Memory.readNat m (p + 8) 8
      match bits h 0 3 with
      | 1 => some (0, 8)
      | 2 => some ((List.range 32).foldl (fun a i => a + w0 * 2 ^ (64 * i)) 0, 16)
      | 4 => some (Memory.readNat m (p + 8) 256, 264)
      | _ =>
        let es := 2 ^ bits h 3 2
        let dw := bits h 5 6
        if es < 8 ∧ w0 / 2 ^ (8 * es) ≠ 0 then none
        else
          let ds := Memory.readNat m (p + 16) (8 * (c - 2))
          some ((List.range (256 / es)).foldl (fun a i => a + castElement es dw w0 ds i * 2 ^ (8 * es * i)) 0, 8 * c)

/-- Every byte of a run is zero. -/
def zeroRun (m : Memory) (a n : Nat) : Bool := Memory.readNat m a n == 0

/-- A block is decoded one cycle before its first landing; `nums` holds the next block's offset. Decoding is over (`made`) after the
last block or a bad one; the requests go on until the bad block's fault stops the core (R104, R197, R198). What CPLD.cb has decoded is
a memory return on its way (R337). -/
def castDecode (s : State) (k : Nat) (j : Job) (dst E B first t : Nat) : JobRes :=
  if j.made = 1 then .ok s j
  else if first ≤ t + 1 ∧ (t + 1 - first) % 5 = 0 ∧ (t + 1 - first) / 5 ≤ E / 256 then
    let b := (t + 1 - first) / 5
    let p := j.nums.headD 0
    let fail := fun (u : Unit) =>
      let _ := u
      JobRes.ok (jobPost s k j (t + 1) 0 (.raise fExpansion 0 [toWord b, toWord j.seq, 0, 0] b)) { j with made := 1 }
    if b = E / 256 then (if p ≤ B ∧ zeroRun j.buf p (B - p) then .ok s { j with made := 1, nums := [B] } else fail ())
    else
      match castBlock j.buf p B with
      | none => fail ()
      | some (v, len) =>
        let s := modCore s k (fun c => countEvent c 9 j.stream 1)
        .ok ((List.range 4).foldl (fun s q =>
            addFlight s k { jobFlight j (t + 1 + q) (4 * b + q) (.spad (dst + 256 * b + 64 * q) 64 (2 ^ 64 - 1) (bits v (512 * q) 512) j.lc) with
              got := if j.station = cpiSt then some 0 else none }) s)
          { j with nums := [p + len] }
  else .ok s j

/-- Compressed granule `t` of CPLD.cb is requested in cycle `t` (R197). -/
def castRequest (s : State) (k : Nat) (j : Job) (src B t : Nat) : JobRes :=
  if t < B / 64 then
    request s k j (src + 64 * t) 64 64 [pRD, pCH] 3 t (fun key s =>
      .ok (jobPost s k j (t + 1279) t (.memRead key 64 (.cast j.seq t))) j)
  else .ok s j

def castCycle (s : State) (k : Nat) (j : Job) (src dst E B : Nat) (mem : Bool) (t : Nat) : JobRes :=
  let j := if !mem && 1 ≤ t && t ≤ B / 64 then
    { j with buf := Memory.writeNat j.buf (64 * (t - 1)) 64 (spadNat s k (src + 64 * (t - 1)) 64) } else j
  castDecode s k j dst E B (castBase mem) t

-- Gathers (R199, R201)

def gatherCycle (s : State) (k : Nat) (j : Job) (src dst idx n : Nat) (ty : Ty) (mem : Bool) (t : Nat) : JobRes :=
  let j := readIndices s k idx n t j
  let z := Ty.size ty
  if !mem && 17 ≤ t && t < 17 + n then
    let i := t - 17
    let a := indexedAt j src z i
    if elementOk src a z then
      let land := t + 2 + spanOf j.run (blkSt (blkOf src)) cpoSt + spanOf j.run cpoSt (blkSt (blkOf dst))
      .ok (jobPost s k j land i (.spad (dst + i * z) z (2 ^ z - 1) (spadNat s k a z) j.lc)) j
    else .fault s j fPermission [toWord a, 0, toWord j.seq, 0] i
  else .ok s j

def gatherRequest (s : State) (k : Nat) (j : Job) (src dst n : Nat) (ty : Ty) (t : Nat) : JobRes :=
  let z := Ty.size ty
  if 16 ≤ t ∧ t < 16 + n then
    let i := t - 16
    request s k j (indexedAt j src z i) z z [pRD] 3 i (fun key s =>
      .ok (jobPost s k j (t + 1279) i (.memRead key z (.spad (dst + i * z) j.lc))) j)
  else .ok s j

/-- A read of a slot of an entry in scratchpad (R75): the value, negated under a negative character. -/
def symRead (s : State) (k : Nat) (d : BitVec 512) (slot : Nat) (neg : Bool) : Nat × Flags :=
  signCode neg (symTy d) (symNf d) (spadNat s k (slotAddr d slot) (symSize d))

/-- A gather through an entry stops in the read cycle of a row with an index beyond the extents; an element that is due for its
request or sample in that very cycle is not taken (R74, R201; log 67). -/
def gatherSyCycle (s : State) (k : Nat) (j : Job) (dst idx n : Nat) (d : BitVec 512) (t : Nat) : JobRes :=
  let had := j.nums.length
  let j := readIndices s k idx n t j
  match badIndex d j had with
  | some i => .fault s { j with stopped := true } fPermission [toWord (j.nums.getD i 0), 0, toWord j.seq, 0] i
  | none =>
    let z := symSize d
    let first := if symSpad d then 17 else 16
    if first ≤ t ∧ t < first + n then
      let i := t - first
      let (slot, neg, zero, _) := canon d ((unlinear d (j.nums.getD i 0)).getD [])
      let land := if symSpad d then
        t + 2 + spanOf j.run (blkSt (blkOf (symBase d))) cpiSt + spanOf j.run cpiSt (blkSt (blkOf dst)) else t + 1280
      if zero then .ok (jobPost s k j land (2 * i) (.spad (dst + i * z) z (2 ^ z - 1) 0 j.lc)) j
      else if symSpad d then
        let (v, fl) := symRead s k d slot neg
        .ok (jobFlags (jobPost s k j land (2 * i) (.spad (dst + i * z) z (2 ^ z - 1) v j.lc)) k j land (2 * i + 1) .cp fl) j
      else .ok s j
    else .ok s j

def gatherSyRequest (s : State) (k : Nat) (j : Job) (dst n : Nat) (d : BitVec 512) (t : Nat) : JobRes :=
  let z := symSize d
  if 16 ≤ t ∧ t < 16 + n then
    let i := t - 16
    let (slot, neg, zero, _) := canon d ((unlinear d (j.nums.getD i 0)).getD [])
    if zero then .ok s j
    else
      request s k j (slotAddr d slot) z z [pRD] 3 i (fun key s =>
        .ok (jobPost s k j (t + 1279) (2 * i) (.memRead key z (.spadSy (dst + i * z) j.lc neg (symTy d) (symNf d)))) j)
  else .ok s j

-- Scatters (R199 to R201)

/-- The combination of several occurrences (R200): the exact sum rounded once, or the wrapping sum. -/
def combine (t : Ty) (nf : Nat) (codes : List Nat) : Nat × Flags :=
  if Ty.isFloat t then
    let f := fmtOf t nf
    encodeNum f .rne (sumNum false (codes.map (decodeNum f)))
  else ((codes.foldl (· + ·) 0) % 2 ^ Ty.bits t, 0)

/-- The element codes sampled so far, in `buf` by position; those of the occurrences of an index up to element `i`. -/
def occurrences (j : Job) (z i : Nat) : List Nat :=
  let ix := j.nums.getD i 0
  ((List.range (i + 1)).filter (fun q => j.nums.getD q 0 == ix)).map (fun q => Memory.readNat j.buf (z * q) z)

/-- What occurrence `i` lands. -/
def occurrenceValue (j : Job) (ty : Ty) (nf : Nat) (comb : Bool) (z i : Nat) : Nat × Flags :=
  if comb then combine ty nf (occurrences j z i) else (Memory.readNat j.buf (z * i) z, 0)

/-- Sample element `i` of the source into the buffer. -/
def keepElement (s : State) (k : Nat) (j : Job) (src z i : Nat) : Job :=
  { j with buf := Memory.writeNat j.buf (z * i) z (spadNat s k (src + z * i) z) }

def scatterCycle (s : State) (k : Nat) (j : Job) (src dst idx n : Nat) (ty : Ty) (mem comb : Bool) (t : Nat) : JobRes :=
  let j := readIndices s k idx n t j
  let z := Ty.size ty
  let first := if mem then 16 else 17
  if first ≤ t ∧ t < first + n then
    let i := t - first
    let a := indexedAt j dst z i
    let j' := keepElement s k j src z i
    let (v, fl) := occurrenceValue j' ty 0 comb z i
    if mem then .ok s j'
    else if elementOk dst a z ∧ inOpenWindow (getCore s k) a z j.issue = false then
      let land := t + 2 + spanOf j.run (blkSt (blkOf src)) cpoSt + spanOf j.run cpoSt (blkSt (blkOf dst))
      .ok (jobFlags (jobPost s k j land (2 * i) (.spad a z (2 ^ z - 1) v j.lc)) k j land (2 * i + 1) .cp fl) j'
    else .fault s j fPermission [toWord a, 0, toWord j.seq, 0] i
  else .ok s j

def scatterRequest (s : State) (k : Nat) (j : Job) (dst n : Nat) (ty : Ty) (comb : Bool) (t : Nat) : JobRes :=
  let z := Ty.size ty
  if 16 ≤ t ∧ t < 16 + n then
    let i := t - 16
    request s k j (indexedAt j dst z i) z z [pWR] 4 i (fun key s =>
      let (v, fl) := occurrenceValue j ty 0 comb z i
      .ok (jobFlags (jobPost s k j (t + 1280) (2 * i) (.memWrite key z (2 ^ z - 1) v j.lc)) k j (t + 1280) (2 * i + 1) .cp fl) j)
  else .ok s j

/-- A representative with the flags of what its members' codes come from: those of their combinations (R48, R200). A member at a forced
zero has no representative, so that what FORCE drops sets no flags (log 68). -/
def gatherFlags (d : BitVec 512) (ms : List (Member × Flags)) (it : FoldItem) : FoldItem :=
  { it with fl := it.fl ||| orFlags ((ms.filter (fun m => !(canon d m.1.1).2.2.1 && (canon d m.1.1).1 == it.rank)).map (fun m => (0, m.2))) }

/-- The `q`-th representative lands, with its flags (R48, R201, R208). -/
def landItem (s : State) (k : Nat) (j : Job) (land q : Nat) (it : FoldItem) (e : Effect) : State :=
  jobFlags (jobPost s k j (land + q) (2 * q + 2) e) k j (land + q) (2 * q + 3) .cp it.fl

/-- The grouped store of a list of members (R83 to R86), each with the flags of its code: the violation at the first landing, or what is to
be written. Representatives in scratchpad are on their way from then on, one a cycle from the first landing (R201, R208). -/
def groupStore (s : State) (k : Nat) (j : Job) (y : Nat) (d : BitVec 512) (implies : Bool) (ms : List (Member × Flags)) (land : Nat) :
    State × Job :=
  match foldStore d implies (ms.map Prod.fst) with
  | .error e =>
    let two := e.two.getD []
    -- words 23 and 24 travel behind the DETAIL words
    let det := symDetail y 0 j.seq e ++ [packTuple two 0, packTuple two 4]
    (jobPost s k j land 0 (.raise e.code 0 det 0), { j with items := [], stopped := true })
  | .ok (items, forced) =>
    let z := symSize d
    let items := items.map (gatherFlags d ms)
    let s := if forced then jobPost s k j land 1 .symForce else s
    let s := if symSpad d then (List.zip (List.range items.length) items).foldl (fun s x =>
      landItem s k j land x.1 x.2 (.spad x.2.pos z (2 ^ z - 1) x.2.val j.lc)) s else s
    (s, { j with items := items })

/-- Representatives in device memory: the k-th is looked up at `look` + k and lands at `land` + k (R201, R208). -/
def requestItems (s : State) (k : Nat) (j : Job) (d : BitVec 512) (land look t : Nat) : JobRes :=
  let z := symSize d
  if symSpad d = false ∧ look ≤ t ∧ t < look + j.items.length then
    match j.items[t - look]? with
    | some it =>
      request s k j it.pos z z [pWR] 4 (t - look) (fun key s =>
        .ok (landItem s k j land (t - look) it (.memWrite key z (2 ^ z - 1) it.val j.lc)) j)
    | none => .ok s j
  else .ok s j

/-- The first landing of a scatter through an entry (R201). -/
def scatterLand (d : BitVec 512) (n : Nat) : Nat := if symSpad d then n + 48 else n + 1320

def scatterSyCycle (s : State) (k : Nat) (j : Job) (y src idx n : Nat) (d : BitVec 512) (comb : Bool) (t : Nat) : JobRes :=
  let had := j.nums.length
  let j := readIndices s k idx n t j
  match badIndex d j had with
  | some i => .fault s { j with stopped := true } fPermission [toWord (j.nums.getD i 0), 0, toWord j.seq, 0] i
  | none =>
    let z := symSize d
    let j := if 17 ≤ t ∧ t < 17 + n then keepElement s k j src z (t - 17) else j
    if t = n + 39 then
      let lastOf := (List.range n).filter (fun i => !((j.nums.drop (i + 1)).contains (j.nums.getD i 0)))
      let vals := lastOf.map (fun i => (i, occurrenceValue j (symTy d) (symNf d) comb z i))
      let ms := vals.map (fun v => (((unlinear d (j.nums.getD v.1 0)).getD [], v.2.1), v.2.2))
      let (s', j') := groupStore s k j y d false ms (scatterLand d n)
      if symSpad d ∧ j'.items.any (fun it => inOpenWindow (getCore s k) it.pos z j.issue) then
        .fault s { j with stopped := true } fPermission [0, 0, toWord j.seq, 0] 0
      else .ok s' j'
    else .ok s j

-- Fills (R202 to R205)

/-- Rows collected in the buffer at 128 bytes each. -/
def bufRows (j : Job) (rows : Nat) : List Row := (List.range rows).map (fun i => BitVec.ofNat 1024 (Memory.readNat j.buf (128 * i) 128))

/-- What a fill lands. -/
def fillEffect (kind num rows cols : Nat) (ty : Ty) (vals : List Row) : Effect :=
  match kind with
  | 0 => .fill num vals rows cols ty
  | 1 => .pmRows num vals
  | _ => .cbRows num vals

/-- Requests of a .mem fill, all at its issue: row by row, granule by granule; the position is the buffer's (R202). After a fault the
command goes on with the granule that faulted (R193). -/
def fillRequests (s : State) (k : Nat) (j : Job) : List (Nat × Nat) → Nat → JobRes
  | [], _ => .ok s { j with made := 0 }
  | (a, p) :: r, g =>
    if g < j.made then fillRequests s k j r (g + 1)
    else
      request s k { j with made := g } a 64 64 [pRD] 3 g (fun key s =>
        fillRequests (jobPost s k j 1279 g (.memRead key 64 (.job j.stream j.seq p))) k j r (g + 1))

/-- The granules of a .mem fill: address and buffer position. -/
def fillGranules (src : Nat) (stride : Int) (rows bytes : Nat) : List (Nat × Nat) :=
  (List.range rows).flatMap (fun i =>
    (List.range ((bytes + 63) / 64)).map (fun g => ((fillRowAt src stride i + 64 * g) % 2 ^ 64, 128 * i + 64 * g)))

def fillCycle (s : State) (k : Nat) (j : Job) (kind num src : Nat) (stride : Int) (rows cols size : Nat) (ty : Ty) (mem : Bool)
    (t : Nat) : JobRes :=
  let bytes := cols * size
  let full := if mem then 1296 else 40
  let j := if !mem && 1 ≤ t && t ≤ rows then
    { j with buf := Memory.writeNat j.buf (128 * (t - 1)) bytes (spadNat s k (fillRowAt src stride (t - 1)) bytes) } else j
  if t + 1 = full then .ok (jobPost s k j full 0 (fillEffect kind num rows cols ty (bufRows j rows))) j else .ok s j

def fillRequest (s : State) (k : Nat) (j : Job) (src : Nat) (stride : Int) (rows cols size t : Nat) : JobRes :=
  if t = 0 then fillRequests s k j (fillGranules src stride rows (cols * size)) 0 else .ok s j

/-- Row `i` of CPVQ: `per` indices, each expanded to the four elements of its codebook entry (R205, R339). -/
def vqRow (c : CoreState) (j : Job) (book per i : Nat) : Nat :=
  (List.range per).foldl (fun a q =>
    let v := Memory.readNat j.buf (per * i + q) 1
    a + bits (Sparse.get 0 c.cb (16 * book + v / 16)).toNat (64 * (v % 16)) 64 * 2 ^ (64 * q)) 0

def vqCycle (s : State) (k : Nat) (j : Job) (slot src dst rows : Nat) (ty : Ty) (sp : Bool) (book t : Nat) : JobRes :=
  let total := if sp then 16 * rows else 256
  let j := if 1 ≤ t ∧ t ≤ rowsOf total then
    let n := min 128 (total - 128 * (t - 1))
    { j with buf := Memory.writeNat j.buf (128 * (t - 1)) n (spadNat s k (src + 128 * (t - 1)) n) } else j
  if 16 ≤ t ∧ t < 16 + rows then
    let i := t - 16
    let c := getCore s k
    if sp then
      .ok (jobPost s k j (t + 1 + spanOf j.run ceSt (blkSt (blkOf dst))) i
        (.spad (dst + 128 * i) 128 (2 ^ 128 - 1) (vqRow c j book 16 i) j.lc)) j
    else
      -- output rows are kept as numbers until the slot is full
      let j := { j with nums := j.nums ++ [vqRow c j book 8 i] }
      if t + 1 = 48 then .ok (jobPost s k j 48 0 (.fill slot (j.nums.map (BitVec.ofNat 1024)) 32 32 ty)) j else .ok s j
  else .ok s j

-- Expansion and folds (R206 to R208)

/-- Row `i` of an expanded tile from the buffer of stored elements (R207, R75). -/
def expandRow (j : Job) (d : BitVec 512) (tup : List Nat) (rdim cdim cols i : Nat) : List (Nat × Flags) :=
  (List.range cols).map (fun q =>
    let e := i * cols + q
    let (_, neg, zero, _) := canon d (expandIndex tup rdim cdim cols e)
    let z := symSize d
    if zero then (0, 0) else signCode neg (symTy d) (symNf d) (Memory.readNat j.buf (z * e) z))

/-- Rows that are placed: they land in scratchpad, or fill the slot with the last of them. -/
def expandOut (s : State) (k : Nat) (j : Job) (slot dst rows cols : Nat) (tup : List Nat) (rdim cdim : Nat) (d : BitVec 512)
    (sp : Bool) (t : Nat) : JobRes :=
  let q := expandQ (symSpad d)
  let z := symSize d
  if expandPlaces t q rows cols then
    let i := (t - q) / cols - 1
    if sp then
      let row := expandRow j d tup rdim cdim cols i
      let land := t + 1 + spanOf j.run cpiSt (blkSt (blkOf dst))
      .ok (jobFlags (jobPost s k j land (2 * i)
        (.spad (dst + 128 * i) (z * cols) (2 ^ (z * cols) - 1) (packLanes (8 * z) (row.map Prod.fst)) j.lc))
        k j land (2 * i + 1) .cp (orFlags row)) j
    else if i + 1 = rows then
      let all := (List.range rows).map (expandRow j d tup rdim cdim cols)
      let full := q + 16 + rows * cols
      .ok (jobFlags (jobPost s k j full 0
        (.fill slot (all.map (fun r => BitVec.ofNat 1024 (packLanes (8 * z) (r.map Prod.fst)))) rows cols (symTy d)))
        k j full 1 .cp (orFlags all.flatten)) j
    else .ok s j
  else .ok s j

def expandCycle (s : State) (k : Nat) (j : Job) (slot dst rows cols : Nat) (tup : List Nat) (rdim cdim : Nat) (d : BitVec 512)
    (sp : Bool) (t : Nat) : JobRes :=
  let z := symSize d
  let e := t - 1
  let (slot', _, zero, _) := canon d (expandIndex tup rdim cdim cols e)
  let j := if symSpad d && 1 ≤ t && t < 1 + rows * cols && !zero then
    { j with buf := Memory.writeNat j.buf (z * e) z (spadNat s k (slotAddr d slot') z) } else j
  expandOut s k j slot dst rows cols tup rdim cdim d sp t

def expandRequest (s : State) (k : Nat) (j : Job) (rows cols : Nat) (tup : List Nat) (rdim cdim : Nat) (d : BitVec 512) (t : Nat) :
    JobRes :=
  let z := symSize d
  let (slot', _, zero, _) := canon d (expandIndex tup rdim cdim cols t)
  if symSpad d = false ∧ t < rows * cols ∧ zero = false then
    request s k j (slotAddr d slot') z z [pRD] 3 t (fun key s =>
      .ok (jobPost s k j (t + 1279) t (.memRead key z (.job j.stream j.seq (z * t)))) j)
  else .ok s j

/-- The members of a fold: tile element (i, j) is element j of row i, read at TYPE's size (R208). -/
def foldMembers (j : Job) (d : BitVec 512) (tup : List Nat) (rdim cdim row0 col0 rows cols : Nat) : List Member :=
  let z := symSize d
  (List.range (rows * cols)).map (fun e =>
    (tileIndex tup rdim cdim row0 col0 (e / cols) (e % cols), Memory.readNat j.buf (128 * (e / cols) + z * (e % cols)) z))

/-- The first landing of a fold (R208). -/
def foldLand (d : BitVec 512) (rows : Nat) : Nat := if symSpad d then rows + 24 else rows + 1292

def foldCycle (s : State) (k : Nat) (j : Job) (tile y rows cols row0 col0 : Nat) (tup : List Nat) (rdim cdim : Nat)
    (d : BitVec 512) (tag : BitVec 2) (t : Nat) : JobRes :=
  if t < rows then
    .ok s { j with buf := Memory.writeNat j.buf (128 * t) 128 (getRow (getCore s k) (32 * tile + t)).toNat }
  else if t = rows then
    let (s, j) := groupStore s k j y d (tagImplies d tag rdim cdim row0 col0)
      ((foldMembers j d tup rdim cdim row0 col0 rows cols).map (fun m => (m, 0))) (foldLand d rows)
    .ok s j
  else .ok s j

-- Sum cells, windows, exchange (R210 to R214)

def cpatomSample (s : State) (k : Nat) (j : Job) (src n : Nat) (ty : Ty) (t : Nat) : JobRes :=
  if 1 ≤ t ∧ t ≤ n then
    let z := Ty.size ty
    .ok (jobPost s k j (t + 1279) (t - 1) (.cellAdd (j.nums.headD 0) ty (spadNat s k (src + z * (t - 1)) z)))
      { j with nums := j.nums.drop 1 }
  else .ok s j

def cpatomRequest (s : State) (k : Nat) (j : Job) (cell n : Nat) (per : Bool) (t : Nat) : JobRes :=
  if t < n then
    request s k j (if per then (cell + 64 * t) % 2 ^ 64 else cell) 64 64 [pAT] 6 t (fun key s => .ok s { j with nums := j.nums ++ [key] })
  else .ok s j

/-- Note an effect of a command in progress that leaves the core in this cycle (R116). -/
def leaveNow (s : State) (k : Nat) (j : Job) (t sub : Nat) (e : Effect) : State :=
  modCore s k (fun c => { c with leaving := c.leaving ++ [jobFlight j t sub e] })

/-- Source granules of a CPPUT go to its transfer as they are read (R212); `nums` holds the transfer's number, and nothing in a
secondary, whose copy does not proceed (R116). -/
def putCycle (s : State) (k : Nat) (j : Job) (src len t : Nat) : JobRes :=
  if 1 ≤ t ∧ t ≤ len / 64 then
    let a := src + 64 * (t - 1)
    let v := spadNat s k a 64
    let s := leaveNow s k j t t (.spad a 64 (2 ^ 64 - 1) v none)
    .ok { s with xfers := s.xfers.map (fun x =>
      if j.nums.head? = some x.id then { x with data := Memory.writeNat x.data (64 * (t - 1)) 64 v, read := 64 * t } else x) } j
  else .ok s j

/-- The exchange latency L between two cores (R214). -/
def exchangeLatency (a b : Nat) : Nat := if pkgOf a ≠ pkgOf b then 560 else if dieOf a ≠ dieOf b then 96 else 48

/-- The link that beat `i` of a core leaves on (R327). -/
def linkOf (k i : Nat) : Nat := 8 * dieOf k + (numOf k % 8 + i) % 8

/-- The beat credit's unit is 2^-16 / 12 beats (R330); a link's entry holds its credit minus the 64 beats of its start. -/
def beatUnit : Nat := 12 * 2 ^ 16
def beatCreditOf (c : CoreState) (link : Nat) : Int := 64 * beatUnit + Sparse.get 0 c.beatCredit link

def getLink (s : State) (pkg link : Nat) : Link := Sparse.get {} (getPkg s pkg).links link

/-- A beat to another package spends the credit of its link; left negative, it raises a hold with cause 2 (R330). -/
def spendBeat (s : State) (k rcore i : Nat) (j : Job) : State :=
  if pkgOf k = pkgOf rcore then s
  else
    let l := linkOf k i
    let s := modCore s k (fun c => { c with beatCredit := Sparse.set 0 c.beatCredit l (Sparse.get 0 c.beatCredit l - beatUnit) })
    if beatCreditOf (getCore s k) l < 0 then
      raiseCause s (getCore s k).pid ⟨2, k, j.station, j.stream, j.evt, l + 1, coreAgent s k j.stream, false⟩
    else s

/-- A link that has FAILED delivers nothing, and neither does a flit that could not be corrected (R329); a link joins link n of one
package to link n of the other (R327). -/
def linkLost (s : State) (pkg link : Nat) : Bool :=
  let l := getLink s pkg link
  l.state == 3 || l.badFlit == s.clock + 1

def beatLost (s : State) (k rcore i : Nat) : Bool :=
  pkgOf k != pkgOf rcore && (linkLost s (pkgOf k) (linkOf k i) || linkLost s (pkgOf rcore) (linkOf k i))

/-- Beat `i` of a send from domain-relative core `rel`, as it comes to a receiver. -/
def beatFlight (j : Job) (rel lat raddr rrun i v : Nat) : Flight :=
  ⟨j.issue + lat + i, cpoSt, .cp, j.seq, j.issue, i, false, .beat (raddr + 128 * i) (BitVec.ofNat 1024 v) rel rrun, none, j.evt⟩

/-- Take a beat back from the cores it goes to. -/
def dropBeat (s : State) (d : Domain) (rel rcore : Nat) (j : Job) (i : Nat) : State :=
  (bothOf d rcore).foldl (fun s q => modCore s q (fun c => { c with inflight := c.inflight.filter (fun f =>
    match f.eff with
    | .beat _ _ x _ => !(x == rel && f.seq == j.seq && f.sub == i)
    | _ => true) })) s

/-- A beat leaves at the XP (R116, R214): the credit of its link, the comparison of a pair; a lost one never lands (R329). -/
def sendBeat (s : State) (d : Domain) (k : Nat) (j : Job) (rcore raddr t i : Nat) : State :=
  let v := Memory.readNat j.buf (128 * i) 128
  let s := leaveNow s k j t i (.beat (raddr + 128 * i) (BitVec.ofNat 1024 v) (relOf d k) 0)
  let s := modCore s k (fun c => countEvent c 10 j.stream 1)
  if primaryOf d k = k then
    let s := spendBeat s k rcore i j
    if beatLost s k rcore i then dropBeat s d (relOf d k) rcore j i else s
  else s

/-- A send's cycle (R214): beat `t` - 1 is read and is on its way to its landing; the beat that reaches the XP leaves. A beat read in
catch-up that would land before F cannot be delivered (R315). -/
def sendCycle (s : State) (k : Nat) (j : Job) (src rcore raddr rrun beats t : Nat) : JobRes :=
  match domOf s k with
  | none => .ok s j
  | some d =>
    let lat := exchangeLatency k rcore
    let reads := decide (1 ≤ t) && decide (t ≤ beats)
    if reads ∧ d.status = .catchUp ∧ j.issue + lat + (t - 1) < d.freeze.getD 0 then
      .fault s j fBroken [toWord j.seq, 0, 0, 0] (t - 1)
    else
      let v := spadNat s k (src + 128 * (t - 1)) 128
      let j := if reads then { j with buf := Memory.writeNat j.buf (128 * (t - 1)) 128 v } else j
      let s := if reads && primaryOf d k == k then addBoth s d rcore (beatFlight j (relOf d k) lat raddr rrun (t - 1) v) else s
      let first := 2 + spanOf j.run (blkSt (blkOf src)) xpSt
      if first ≤ t ∧ t < first + beats then .ok (sendBeat s d k j rcore raddr t (t - first)) j else .ok s j

-- Vector and contraction engine (R245, R246, R263 to R267)

/-- One planned operation. -/
def planOp (s : State) (k : Nat) (j : Job) (o : Micro) : State :=
  match o with
  | .rowIn a r en zero land =>
    jobPost s k j land r (.row r (en ||| zero) ((spadRow (getCore s k) a) &&& ~~~(byteMask zero)) .plain)
  | .rowOut r a land => jobPost s k j land r (.spad a 128 (2 ^ 128 - 1) (getRow (getCore s k) r).toNat j.lc)
  | _ => s

def planCycle (s : State) (k : Nat) (j : Job) (ops : List (Nat × Micro)) (t : Nat) : JobRes :=
  .ok ((ops.filter (fun o => o.1 == t)).foldl (fun s o => planOp s k j o.2) s) j

/-- The gathered row of an orbit VLD (R246): lane by lane; `idx` holds the linear index of each active lane plus one. -/
def vldSyCycle (s : State) (k : Nat) (j : Job) (row : Nat) (d : BitVec 512) (en : BitVec 128) (idx : List Nat) (ty : Ty)
    (t : Nat) : JobRes :=
  if t = 17 ∧ en ≠ 0 then
    let vals := idx.map (fun i =>
      match i with
      | 0 => (0, 0)
      | i + 1 =>
        let (slot, neg, zero, _) := canon d ((unlinear d i).getD [])
        if zero then (0, 0) else symRead s k d slot neg)
    let land := 19 + spanOf j.run (blkSt (blkOf (symBase d))) veSt
    .ok (jobFlags (jobPost s k j land 0 (.row row en (BitVec.ofNat 1024 (packLanes (Ty.bits ty) (vals.map Prod.fst))) .plain))
      k j land 1 .ve (orFlags vals)) j
  else .ok s j

/-- The representatives of the walk so far, in `nums` newest first; the exact sum over them (R78). -/
def walkSum (j : Job) (a b : BitVec 512) : Num :=
  let rec go : List Nat → Nat → List (Nat × Num × Num)
    | x :: y :: r, i => (orbitWeight a i, symNum a x, symNum b y) :: go r (i + 1)
    | _, _ => []
  orbitSum (go j.nums.reverse 0)

/-- A representative: from scratchpad now, or sampled by the memory side in this cycle. -/
def walkRep (s : State) (k : Nat) (j : Job) (d : BitVec 512) (i p : Nat) : Nat :=
  if symSpad d then spadNat s k (slotAddr d i) (symSize d) else Memory.readNat j.buf (16 * i + p) (symSize d)

/-- The walk's result lands, or leaves for the sum cell (R266, R267). -/
def walkEnd (s : State) (k : Nat) (j : Job) (a b : BitVec 512) (row : Option Nat) (cell : Option Nat) (ty : Ty) (t : Nat) : State :=
  let finish := walkResult a b
  match row, cell with
  | some r, _ =>
    if t + 1 = finish then
      let (v, n, fl) := orbitResult ty (walkSum j a b)
      jobFlags (jobPost s k j finish 0 (.row r (BitVec.ofNat 128 (2 ^ n - 1)) (BitVec.ofNat 1024 v) .plain)) k j finish 1 .ce fl
    else s
  | none, some key => if t + 1 = finish then jobPost s k j (finish + 1280) 0 (.cellSum key ty (walkSum j a b)) else s
  | none, none => s

/-- Samples of orbit `i` in its cycle, and the result. -/
def walkCycle (s : State) (k : Nat) (j : Job) (a b : BitVec 512) (row : Option Nat) (cell : Option Nat) (ty : Ty) (t : Nat) : JobRes :=
  let first := if walkMem a b then 1304 else 24
  let n := orbitCount a b
  let s := if t = 0 then modCore s k (fun c => countEvent c 6 j.stream (slotCount a - n)) else s
  let (s, j) := if first ≤ t ∧ t < first + n then
      (modCore s k (fun c => countEvent c 5 j.stream 1),
        { j with nums := walkRep s k j b (t - first) 8 :: walkRep s k j a (t - first) 0 :: j.nums })
    else (s, j)
  .ok (walkEnd s k j a b row cell ty t) j

/-- Requests of an orbit, at most one for each array in device memory (R265); after a fault the walker goes on with the one that
faulted. -/
def walkRequest (s : State) (k : Nat) (j : Job) (a b : BitVec 512) (t : Nat) : JobRes :=
  let n := orbitCount a b
  if walkMem a b ∧ 25 ≤ t ∧ t < 25 + n then
    let i := t - 25
    let ask := fun (d : BitVec 512) (p : Nat) (s : State) (j : Job) (f : State → Job → JobRes) =>
      if symSpad d ∨ p / 8 < j.made then f s j
      else request s k j (slotAddr d i) (symSize d) (symSize d) [pRD] 5 i (fun key s =>
        f (jobPost s k j (1304 + i) (2 * i + p / 8) (.memRead key (symSize d) (.job j.stream j.seq (16 * i + p)))) j)
    ask a 0 s j (fun s j => ask b 8 s { j with made := 1 } (fun s j => .ok s { j with made := 0 }))
  else .ok s j

/-- What an active command samples and lands in a cycle. -/
def sampleCycle (s : State) (k : Nat) (j : Job) (t : Nat) : JobRes :=
  match j.kind with
  | .cpld _ | .cpcrd .. => .ok s j
  | .cpst m => cpstSample s k j m t
  | .cpmov m => cpmovCycle s k j m t
  | .cpset m p mem => if mem then .ok s j else cpsetCycle s k j m p t
  | .cast src dst E B mem => castCycle s k j src dst E B mem t
  | .gather src dst idx n ty mem => gatherCycle s k j src dst idx n ty mem t
  | .gatherSy _ dst idx n d => gatherSyCycle s k j dst idx n d t
  | .scatter src dst idx n ty mem comb => scatterCycle s k j src dst idx n ty mem comb t
  | .scatterSy y src idx n d comb => scatterSyCycle s k j y src idx n d comb t
  | .fill kind num src stride rows cols size ty mem => fillCycle s k j kind num src stride rows cols size ty mem t
  | .vq slot src dst rows ty sp book => vqCycle s k j slot src dst rows ty sp book t
  | .expand slot _ _ dst rows cols tup rdim cdim d sp => expandCycle s k j slot dst rows cols tup rdim cdim d sp t
  | .fold tile y rows cols row0 col0 tup rdim cdim d tag => foldCycle s k j tile y rows cols row0 col0 tup rdim cdim d tag t
  | .cpatom src _ n ty _ => cpatomSample s k j src n ty t
  | .put src _ len _ _ => putCycle s k j src len t
  | .send src rcore raddr rrun beats => sendCycle s k j src rcore raddr rrun beats t
  | .plan ops => planCycle s k j ops t
  | .vldSy row _ d en _ idx ty => vldSyCycle s k j row d en idx ty t
  | .walk _ _ a b row cell ty => walkCycle s k j a b row cell ty t

/-- What an active command requests of device memory in a cycle (R193, R273). -/
def requestCycle (s : State) (k : Nat) (j : Job) (t : Nat) : JobRes :=
  match j.kind with
  | .cpld m => cpldRequest s k j m t
  | .cpst m => cpstRequest s k j m t
  | .cpset m p mem => if mem then cpsetRequest s k j m p t else .ok s j
  | .cast src _ _ B mem => if mem then castRequest s k j src B t else .ok s j
  | .gather src dst _ n ty mem => if mem then gatherRequest s k j src dst n ty t else .ok s j
  | .gatherSy _ dst _ n d => if symSpad d then .ok s j else gatherSyRequest s k j dst n d t
  | .scatter _ dst _ n ty mem comb => if mem then scatterRequest s k j dst n ty comb t else .ok s j
  | .scatterSy _ _ _ n d _ => requestItems s k j d (scatterLand d n) (n + 40) t
  | .fill _ _ src stride rows cols size _ mem => if mem then fillRequest s k j src stride rows cols size t else .ok s j
  | .expand _ _ _ _ rows cols tup rdim cdim d _ => expandRequest s k j rows cols tup rdim cdim d t
  | .fold _ _ rows _ _ _ _ _ _ d _ => requestItems s k j d (foldLand d rows) (rows + 12) t
  | .cpatom _ cell n _ per => cpatomRequest s k j cell n per t
  | .walk _ _ a b _ _ _ => walkRequest s k j a b t
  | _ => .ok s j

/-- The last cycle after its issue in which an active command has something to do. -/
def lastElement (j : Job) : Nat :=
  match j.kind with
  | .cpld m => m.count - 1
  | .cpst m => m.count
  | .cpmov m => m.count
  | .cpset m _ mem => if mem then m.count - 1 else m.count
  | .cast _ _ E B mem => max (castBase mem + 5 * (E / 256) - 1) (B / 64)
  | .gather _ _ _ n _ mem => if mem then n + 15 else n + 16
  | .gatherSy _ _ _ n d => if symSpad d then n + 16 else n + 15
  | .scatter _ _ _ n _ mem _ => if mem then n + 15 else n + 16
  | .scatterSy _ _ _ n d _ => if symSpad d then n + 39 else n + 39 + j.items.length
  | .fill _ _ _ _ _ _ _ _ mem => if mem then 1295 else 39
  | .vq _ _ _ rows _ sp _ => if sp then rows + 15 else 47
  | .expand _ _ _ _ rows cols _ _ _ d _ => expandQ (symSpad d) + rows * cols
  | .fold _ _ rows _ _ _ _ _ _ d _ => if symSpad d || j.items.isEmpty then rows else rows + 11 + j.items.length
  | .cpatom _ _ n _ _ => n
  | .cpcrd .. => 0
  | .put _ _ len _ _ => len / 64
  | .send src _ _ _ beats => 1 + spanOf j.run (blkSt (blkOf src)) xpSt + beats
  | .plan ops => ops.foldl (fun a o => match o.2 with | .rowIn .. | .rowOut .. => max a o.1 | _ => a) 0
  | .vldSy .. => 17
  | .walk _ _ a b _ _ _ => walkResult a b - 1

/-- A command with elements still to be done. -/
def Job.pending (j : Job) : Bool := j.active && !j.stopped && decide (j.todo ≤ j.issue + lastElement j)

-- One cycle of a core's commands ---------------------------------------------------------------------------------------------------

/-- An open CPXRED window of the core takes the 128 bytes from an address: senders' beats of one cycle share its port (R217). -/
def reducing (c : CoreState) (a : Nat) : Bool :=
  c.rwins.any (fun w => w.red.isSome && w.opens ≤ c.dcc && c.dcc ≤ w.closes && runsMeet a 128 w.addr w.len)

/-- The plan of a send on the receiving core: its beats come from the exchange port. -/
def Job.remote (j : Job) : Bool := j.station == xpSt

/-- The station of a command in progress, by stream and sequence number (R21). -/
def unitOf (c : CoreState) (st : Stream) (seq : Nat) : Nat :=
  match (c.jobs ++ c.remote).find? (fun j => j.stream == st && j.seq == seq) with
  | some j => j.station
  | none => stationOf st

/-- A schedule-miss of a cycle that names two commands (R14, R17, R318): charged to the one issued later, in a tie to the higher
stream code (log 21); its DETAIL words hold both sequence numbers, then both stream codes, the other command's first. -/
def conflict (s : State) (k : Nat) (j : Job) (cause : Nat) (st : Stream) (seq issue evt : Nat) : State :=
  let later := fun (own other : Stream) (station a b evt : Nat) =>
    takeFault s k own station evt fSchedule cause [toWord b, toWord a, toWord (Stream.code other), toWord (Stream.code own)]
  if j.issue < issue ∨ (j.issue = issue ∧ Stream.code j.stream < Stream.code st) then
    later st j.stream (unitOf (getCore s k) st seq) seq j.seq evt
  else later j.stream st j.station j.seq seq j.evt

/-- The use that a command makes of a block's port. -/
def portUse (j : Job) (b : Nat) (row : Option Row) : PortUse := ⟨b, j.stream, j.seq, j.issue, j.remote, row, j.evt⟩

/-- A second use of a block's runner port in one cycle (R14). -/
def portMet (s : State) (k : Nat) (j : Job) (l : List PortUse) (b : Nat) : State :=
  match l.find? (fun u => u.block == b) with
  | some u => conflict s k j 3 u.stream u.seq u.issue u.evt
  | none => s

/-- A runner value of the command itself. -/
def RunVal.ownedBy (v : RunVal) (j : Job) : Bool := v.stream == j.stream && v.seq == j.seq && v.addr.isNone && !j.remote

/-- The value that a unit taps off a command's runner (R18). -/
def tapped (c : CoreState) (run st : Nat) (p : RunVal → Bool) : Option RunVal :=
  c.runners.find? (fun v => v.run == run && v.station == st && p v)

/-- Raise the runner conflict with a value, if there is one (R17). -/
def raiseMet (s : State) (k : Nat) (j : Job) (v : Option RunVal) : State :=
  match v with
  | some v => conflict s k j 1 v.stream v.seq v.issue v.evt
  | none => s

/-- The 128-byte image of a masked run inside its row. -/
def rowImage (a n en v : Nat) : Option Row := (rowParts a n en v).head?.map (fun p => BitVec.ofNat 1024 p.2.2)

/-- The row of a value that carries a landing of its command, once its unit has got it (R196). -/
def carriedRow (c : CoreState) (v : RunVal) (land : Nat) : Option Row :=
  (c.inflight.find? (fun f => f.stream == v.stream && f.seq == v.seq && f.at' == land &&
    (match f.eff with | .spad .. => true | .beat a .. => v.addr == some a | _ => false))).bind (fun f =>
      match f.eff with
      | .spad a n en w _ => rowImage a n en w
      | .beat _ w _ _ => some w
      | _ => none)

/-- The row that a unit places: a tile's row on its way to be folded, an expanded row, or what the command lands. -/
def unitRow (c : CoreState) (j : Job) (t : Nat) : Option Row :=
  match j.kind with
  | .fold _ _ rows .. => if t ≤ rows then some (BitVec.ofNat 1024 (Memory.readNat j.buf (128 * (t - 1)) 128)) else none
  | .expand _ _ _ _ _ cols tup rdim cdim d _ =>
    some (BitVec.ofNat 1024 (packLanes (8 * symSize d) ((expandRow j d tup rdim cdim cols ((t - expandQ (symSpad d)) / cols - 1)).map Prod.fst)))
  | _ => none

/-- The row that an orbit VLD has gathered and places as its block's one read (R246); none while no lane is active. -/
def gatheredRow (c : CoreState) (j : Job) : Option Row :=
  (c.inflight.find? (fun f => f.stream == j.stream && f.seq == j.seq && (match f.eff with | .row .. => true | _ => false))).bind
    (fun f => match f.eff with | .row _ _ v _ => some v | _ => none)

/-- What the block read for the command in the cycle before (R19). -/
def blockRow (c : CoreState) (j : Job) (b : Nat) : Option Row :=
  (c.readRows.find? (fun u => u.block == b && u.stream == j.stream && u.seq == j.seq)).bind PortUse.row

/-- A command's value at a station, with a span to go (R15, R18). -/
def runVal (j : Job) (src span : Nat) (addr : Option Nat) (leg : Leg) (row : Option Row) : RunVal :=
  ⟨j.run, src, span, j.stream, j.seq, j.issue, addr, leg, row, j.evt⟩

/-- The row of a command's placement (R19, R98): what the block read in the cycle before, or the unit's; an idle command's value
carries none. -/
def placedRow (c : CoreState) (j : Job) (t src span : Nat) : Option Row :=
  if j.active = false then none
  else if src % 2 = 1 then (match j.kind with | .vldSy .. => gatheredRow c j | _ => blockRow c j (src / 2))
  else
    match unitRow c j t with
    | some r => some r
    | none => carriedRow c (runVal j src span none .last none) (c.dcc + span + 1)

/-- Put a value on a runner. -/
def putOnRunner (c : CoreState) (j : Job) (src span : Nat) (addr : Option Nat) (leg : Leg) (row : Option Row) : CoreState :=
  countEvent { c with runners := c.runners ++ [runVal j src span addr leg row] } 8 j.stream 1

/-- A tap that finds the runner empty (R18, R111): schedule-miss cause 2. -/
def tapEmpty (s : State) (k : Nat) (j : Job) : State := takeFault s k j.stream j.station j.evt fSchedule 2 [toWord j.seq]

/-- One placement, tap or port use. -/
def doStatic (s : State) (k : Nat) (j : Job) (t : Nat) (o : Micro) : State :=
  let c := getCore s k
  match o with
  | .read b a =>
    let row := if j.active then some (spadRow c (a / 128 * 128)) else none
    modCore (portMet s k j c.portReads b) k (fun c => { c with portReads := portUse j b row :: c.portReads })
  | .write b => modCore (portMet s k j c.portWrites b) k (fun c => { c with portWrites := portUse j b none :: c.portWrites })
  | .place src span leg =>
    modCore (raiseMet s k j (tapped c j.run src (fun _ => true))) k (fun c =>
      putOnRunner c j src span none leg (placedRow c j t src span))
  | .placeRow src span row =>
    modCore (raiseMet s k j (tapped c j.run src (fun _ => true))) k (fun c =>
      putOnRunner c j src span none .last (if j.active then row else none))
  | .relay src span =>
    let own := fun (v : RunVal) => v.ownedBy j && v.leg == .pass && v.left == 0
    let s := raiseMet s k j (tapped c j.run src (fun v => !own v))
    match tapped c j.run src own with
    | some v => modCore s k (fun c => putOnRunner c j src span none .last v.row)
    | none => tapEmpty s k j
  | .tap st => if (tapped c j.run st (fun _ => true)).isSome then s else tapEmpty s k j
  | .placeBeat src span a =>
    modCore (raiseMet s k j (tapped c j.run src (fun _ => true))) k (fun c => putOnRunner c j src span (some a) .last
      (carriedRow c (runVal j src span (some a) .last none) (c.dcc + span + 1)))
  | .writeBeat b a =>
    if c.beatPorts.contains a && reducing c a then s
    else
      modCore (portMet s k j c.portWrites b) k (fun c =>
        { c with portWrites := portUse j b none :: c.portWrites, beatPorts := a :: c.beatPorts })
  | _ => s

/-- A command's placements, taps and port uses of the present cycle, once. -/
def staticCycle (s : State) (k : Nat) (j : Job) : State :=
  let t := (getCore s k).dcc - j.issue
  (staticOps j t).foldl (fun s o => doStatic s k j t o) s

/-- Put a command back. -/
def putJob (c : CoreState) (j : Job) : CoreState :=
  { c with jobs := c.jobs.map (fun x => if x.stream = j.stream ∧ x.seq = j.seq then j else x) }

/-- What a part of a command's cycle gave: the command goes on, or its core stops on the fault, which leaves the part to be done
(R193). -/
def jobDone (k : Nat) (r : JobRes) (ok : Job → Job) : State :=
  match r with
  | .ok s j => modCore s k (fun c => putJob c (ok j))
  | .fault s j code d prog => takeFaultFull (modCore s k (fun c => putJob c j)) k j.stream j.station j.evt code 0 d prog 0 0

/-- A command of the core, by stream and sequence number. -/
def jobNow (s : State) (k : Nat) (j : Job) : Option Job := (getCore s k).jobs.find? (fun x => x.stream == j.stream && x.seq == j.seq)

/-- A command's cycle: its placements, taps and port uses; its samples and landings; its requests. Each part is done once. -/
def jobCycle (s : State) (k : Nat) (j : Job) : State :=
  let now := (getCore s k).dcc
  let t := now - j.issue
  let s := if j.stat ≤ now then modCore (staticCycle s k j) k (fun c => putJob c { j with stat := now + 1 }) else s
  let j := { j with stat := now + 1 }
  let s := if j.active ∧ j.stopped = false ∧ j.smp ≤ now then jobDone k (sampleCycle s k j t) (fun j => { j with smp := now + 1 }) else s
  match jobNow s k j with
  | none => s
  | some j =>
    if j.active ∧ j.stopped = false ∧ j.todo ≤ now ∧ now < j.smp then
      jobDone k (requestCycle s k j t) (fun j => { j with todo := now + 1 })
    else s

/-- The elements of a core's cycle, command by command; commands whose last cycle has passed are over. Values that other cores
send are placed by their remote plans. -/
def coreElements (s : State) (k : Nat) : State :=
  let s := (getCore s k).jobs.foldl (fun s j =>
    match jobNow s k j with
    | some j => jobCycle s k j
    | none => s) s
  let c := getCore s k
  let s := (c.remote.filter (fun j => j.stat ≤ c.dcc)).foldl (fun s j => staticCycle s k j) s
  modCore s k (fun c =>
    { c with jobs := c.jobs.filter (fun j => c.dcc < j.last || (j.todo ≤ c.dcc && j.active && !j.stopped))
             remote := (c.remote.filter (fun j => c.dcc < j.last)).map (fun j => { j with stat := c.dcc + 1 }) })

end Sys2Proof.Machine
end

