-- ==== Sys2Proof/Machine/CcArith.lean ====
section
/-! DEFINITION. The control core's integer arithmetic (R164 to R167). -/

namespace Sys2Proof.Machine

/-- Post an entry of the control core; an idle command lands nothing (R98, R164). -/
def ccPost (s : State) (delay : Nat) (e : Effect) : State :=
  if s.ctx.active then addFlight s s.ctx.core (flightOf s delay ccSt e) else s

/-- A register result (R164). -/
def ccResult (s : State) (delay : Nat) (r : SReg) (v : Word) : Out := .next (ccPost s delay (.sreg r v))

/-- MULH: bits 127:64 of the signed product (R165). -/
def mulHigh (a b : Word) : Word := BitVec.ofInt 64 (a.toInt * b.toInt / 2 ^ 64)

/-- MULHN: bits 127:64 of the unsigned product (R165). -/
def mulHighN (a b : Word) : Word := toWord (a.toNat * b.toNat / 2 ^ 64)

/-- DIV: signed quotient toward zero; by zero all ones (R165, R166). -/
def divSigned (a b : Word) : Word := if b = 0 then BitVec.allOnes 64 else BitVec.ofInt 64 (a.toInt.tdiv b.toInt)

/-- DIVN: unsigned quotient; by zero all ones (R165, R166). -/
def divUnsigned (a b : Word) : Word := if b = 0 then BitVec.allOnes 64 else toWord (a.toNat / b.toNat)

/-- REM and REMN: a minus b times the quotient; by zero a (R165, R166). -/
def remSigned (a b : Word) : Word := if b = 0 then a else a - b * divSigned a b
def remUnsigned (a b : Word) : Word := if b = 0 then a else a - b * divUnsigned a b

/-- Shifts by the low six bits of the count (R165, R166). -/
def shiftLeft (a b : Word) : Word := a <<< (b.toNat % 64)
def shiftRight (a b : Word) : Word := a >>> (b.toNat % 64)
def shiftArith (a b : Word) : Word := a.sshiftRight (b.toNat % 64)

/-- 1 for true (R165). -/
def truth (b : Bool) : Word := if b then 1 else 0

/-- A signed 28-bit immediate (R167). -/
def signedImm (imm : BitVec 28) : Word := imm.signExtend 64
/-- An unsigned 28-bit immediate (R167). -/
def unsignedImm (imm : BitVec 28) : Word := imm.setWidth 64

def execAdd (d a b : SReg) (s : State) : Out := ccResult s 1 d (rd s a + rd s b)
def execSub (d a b : SReg) (s : State) : Out := ccResult s 1 d (rd s a - rd s b)
def execMul (d a b : SReg) (s : State) : Out := ccResult s 3 d (rd s a * rd s b)
def execMulh (d a b : SReg) (s : State) : Out := ccResult s 3 d (mulHigh (rd s a) (rd s b))
def execMulhn (d a b : SReg) (s : State) : Out := ccResult s 3 d (mulHighN (rd s a) (rd s b))
def execDiv (d a b : SReg) (s : State) : Out := ccResult s 12 d (divSigned (rd s a) (rd s b))
def execDivn (d a b : SReg) (s : State) : Out := ccResult s 12 d (divUnsigned (rd s a) (rd s b))
def execRem (d a b : SReg) (s : State) : Out := ccResult s 12 d (remSigned (rd s a) (rd s b))
def execRemn (d a b : SReg) (s : State) : Out := ccResult s 12 d (remUnsigned (rd s a) (rd s b))
def execAnd (d a b : SReg) (s : State) : Out := ccResult s 1 d (rd s a &&& rd s b)
def execOr (d a b : SReg) (s : State) : Out := ccResult s 1 d (rd s a ||| rd s b)
def execXor (d a b : SReg) (s : State) : Out := ccResult s 1 d (rd s a ^^^ rd s b)
def execShl (d a b : SReg) (s : State) : Out := ccResult s 1 d (shiftLeft (rd s a) (rd s b))
def execShr (d a b : SReg) (s : State) : Out := ccResult s 1 d (shiftRight (rd s a) (rd s b))
def execSar (d a b : SReg) (s : State) : Out := ccResult s 1 d (shiftArith (rd s a) (rd s b))
def execSel (d a b c : SReg) (s : State) : Out := ccResult s 1 d (if rd s c = 0 then rd s b else rd s a)
def execMin (d a b : SReg) (s : State) : Out := ccResult s 1 d (if (rd s a).slt (rd s b) then rd s a else rd s b)
def execMax (d a b : SReg) (s : State) : Out := ccResult s 1 d (if (rd s a).slt (rd s b) then rd s b else rd s a)
def execMinn (d a b : SReg) (s : State) : Out := ccResult s 1 d (if (rd s a).ult (rd s b) then rd s a else rd s b)
def execMaxn (d a b : SReg) (s : State) : Out := ccResult s 1 d (if (rd s a).ult (rd s b) then rd s b else rd s a)
def execSeq (d a b : SReg) (s : State) : Out := ccResult s 1 d (truth (rd s a == rd s b))
def execSne (d a b : SReg) (s : State) : Out := ccResult s 1 d (truth (rd s a != rd s b))
def execSlt (d a b : SReg) (s : State) : Out := ccResult s 1 d (truth ((rd s a).slt (rd s b)))
def execSltn (d a b : SReg) (s : State) : Out := ccResult s 1 d (truth ((rd s a).ult (rd s b)))

def execAddi (d a : SReg) (imm : BitVec 28) (s : State) : Out := ccResult s 1 d (rd s a + signedImm imm)
def execAndi (d a : SReg) (imm : BitVec 28) (s : State) : Out := ccResult s 1 d (rd s a &&& unsignedImm imm)
def execOri (d a : SReg) (imm : BitVec 28) (s : State) : Out := ccResult s 1 d (rd s a ||| unsignedImm imm)
def execXori (d a : SReg) (imm : BitVec 28) (s : State) : Out := ccResult s 1 d (rd s a ^^^ unsignedImm imm)
def execShli (d a : SReg) (n : BitVec 6) (s : State) : Out := ccResult s 1 d (rd s a <<< n.toNat)
def execShri (d a : SReg) (n : BitVec 6) (s : State) : Out := ccResult s 1 d (rd s a >>> n.toNat)
def execSari (d a : SReg) (n : BitVec 6) (s : State) : Out := ccResult s 1 d ((rd s a).sshiftRight n.toNat)
def execSlti (d a : SReg) (imm : BitVec 28) (s : State) : Out :=
  ccResult s 1 d (truth ((rd s a).slt (signedImm imm)))
/-- LIM: shift up by 28 and put the immediate beneath (R167). -/
def execLim (d a : SReg) (imm : BitVec 28) (s : State) : Out :=
  ccResult s 1 d ((rd s a <<< 28) ||| unsignedImm imm)
def execMovi (d : SReg) (imm : BitVec 28) (s : State) : Out := ccResult s 1 d (signedImm imm)

end Sys2Proof.Machine
end

