-- ==== Sys2Proof/Machine/CcMem.lean ====
section
/-! DEFINITION. Scalar memory, memory-side atomics, and what the control core feeds to the other engines (R168 to R171, R175,
R176). -/

namespace Sys2Proof.Machine

/-- The address of LDS, STS, LDM and STM (R168): s[RA] plus the sign-extended immediate, modulo 2^64. -/
def memAddr (s : State) (a : SReg) (imm : BitVec 28) : Nat := (rd s a + signedImm imm).toNat

/-- A store of eight bytes of scratchpad meets no buffer of an open receive window (R168, R215). -/
def windowFree (s : State) (a : Nat) : Bool := !inOpenWindow (cur s) a 8 (cur s).dcc

/-- LDS (R168). -/
def execLds (d a : SReg) (imm : BitVec 28) (s : State) : Out :=
  let A := memAddr s a imm
  checked s [(spadWordOk A 8, fPermission)] (fun s => ccPost s 7 (.lds d A))

/-- STS (R168). -/
def execSts (d a : SReg) (imm : BitVec 28) (s : State) : Out :=
  let A := memAddr s a imm
  checked s [(spadWordOk A 8 && !inRings (cur s) A && windowFree s A, fPermission)]
    (fun s => ccPost s 8 (.spad A 8 255 (rdN s d) none))

/-- PATCH (R175). -/
def execPatch (a b : SReg) (s : State) : Out :=
  let A := rdN s b
  checked s [(spadWordOk A 8 && inRings (cur s) A && windowFree s A, fPermission)]
    (fun s => ccPost s 8 (.spad A 8 255 (rdN s a) none))

/-- FQPUSH (R149, R176). -/
def execFqpush (a : SReg) (s : State) : Out := .next (ccPost s 1 (.fqAppend (rd s a)))

/-- A device access of the control core: its address form, then, for an active command, the watch test and the lookup (R164, R169,
R98, R280) and the request (R104); `f` has the memory key. -/
def ccDevice (s : State) (A kind : Nat) (perm : Nat) (f : Nat → State → State) : Out :=
  if A < 2 ^ 57 ∧ A % 8 = 0 then
    if s.ctx.active then
      let s := watchNow s A 8 kind
      match lookupNow s A [perm] with
      | .ok _ key => .next (f key (requestNow s ccSt))
      | .fault code d => .next (faultNow s code 0 d)
      | .nowhere => .next (deadEnd s)
    else .next s
  else .next (faultNow s fPermission 0 [])

/-- LDM (R169): sampled at issue + 1,279, landing at issue + 1,280. -/
def execLdm (d a : SReg) (imm : BitVec 28) (s : State) : Out :=
  ccDevice s (memAddr s a imm) 0 pRD (fun key s => ccPost s (Config.memLatency - 1) (.memRead key 8 (.reg d)))

/-- STM (R169). -/
def execStm (d a : SReg) (imm : BitVec 28) (s : State) : Out :=
  ccDevice s (memAddr s a imm) 1 pWR (fun key s => ccPost s Config.memLatency (.memWrite key 8 255 (rdN s d) none))

/-- An atomic (R170); its request, like every device access, counts one granule against the credit (R104). -/
def ccAtomic (d a : SReg) (op : AtomOp) (s : State) : Out :=
  ccDevice s (rdN s a) 2 pAT (fun key s => ccPost s (Config.memLatency - 1) (.atom key d op))

def execAadd (d a b : SReg) (s : State) : Out := ccAtomic d a (.add (rd s b)) s
def execAcas (d a b c : SReg) (s : State) : Out := ccAtomic d a (.cas (rd s b) (rd s c)) s
def execAswp (d a b : SReg) (s : State) : Out := ccAtomic d a (.swp (rd s b)) s

end Sys2Proof.Machine
end

