-- ==== Sys2Proof/Machine/Sha512.lean ====
section
/-! DEFINITION. SHA-512 (FIPS 180-4; log 8), which R359 to R361 name, over bytes; bytes as numbers. The constants are what that
standard says they are: fractional parts of roots of primes. -/

namespace Sys2Proof.Machine

-- Bytes and numbers ----------------------------------------------------------------------------------------------------------

/-- Bytes as one number, the first byte highest, and `n` bytes of a number so. -/
def bigEndian (l : List Byte) : Nat := l.foldl (fun a b => 256 * a + b.toNat) 0
def bigBytes (n v : Nat) : List Byte := (List.range n).map (fun i => BitVec.ofNat 8 (v / 256 ^ (n - 1 - i)))

/-- Bytes as a little-endian number (R2), the form in which digests stand in registers and records, and `n` bytes of one. -/
def littleEndian (l : List Byte) : Nat := l.foldr (fun b a => b.toNat + 256 * a) 0
def littleBytes (n v : Nat) : List Byte := (List.range n).map (fun i => BitVec.ofNat 8 (v / 256 ^ i))

-- Constants -------------------------------------------------------------------------------------------------------------------

/-- The first primes; the eightieth is 409. -/
def shaPrimes : List Nat := (List.range 410).filter (fun p => 2 ≤ p && (List.range 21).all (fun q => q < 2 || p ≤ q || p % q != 0))

/-- The `k`-th root of a number, rounded down, from the bits found so far and `b` bits to come. -/
def rootBits (k n : Nat) : Nat → Nat → Nat
  | 0, r => r
  | b + 1, r => rootBits k n b (if (r + 2 ^ b) ^ k ≤ n then r + 2 ^ b else r)

/-- The first 64 bits of the fractional part of a prime's `k`-th root. -/
def rootWord (k p : Nat) : Word := BitVec.ofNat 64 (rootBits k (p * 2 ^ (64 * k)) 70 0)

/-- The key of each of the 80 rounds. -/
def shaKeys : List Word := shaPrimes.map (rootWord 3)

-- Rounds ----------------------------------------------------------------------------------------------------------------------

/-- The eight working words. -/
structure Sha where
  a : Word
  b : Word
  c : Word
  d : Word
  e : Word
  f : Word
  g : Word
  h : Word
  deriving DecidableEq, Repr

/-- The hash value before the first block: from the square roots of the first eight primes. -/
def Sha.start : Sha :=
  let x := fun i => rootWord 2 (shaPrimes.getD i 0)
  ⟨x 0, x 1, x 2, x 3, x 4, x 5, x 6, x 7⟩

/-- The exclusive or of a word turned right by three amounts, and of one turned by two and shifted by the third. -/
def turn3 (i j k : Nat) (w : Word) : Word := w.rotateRight i ^^^ w.rotateRight j ^^^ w.rotateRight k
def turn2 (i j k : Nat) (w : Word) : Word := w.rotateRight i ^^^ w.rotateRight j ^^^ w >>> k

/-- A round: `x` is its key plus its message word. -/
def Sha.round (v : Sha) (x : Word) : Sha :=
  let up := x + v.h + turn3 14 18 41 v.e + (v.g ^^^ v.e &&& (v.f ^^^ v.g))
  { a := up + turn3 28 34 39 v.a + (v.a &&& v.b ||| v.c &&& (v.a ||| v.b)), b := v.a, c := v.b, d := v.c
    e := v.d + up, f := v.e, g := v.f, h := v.g }

/-- The message word that follows sixteen, oldest first. -/
def nextWord (w : List Word) : Word := w.getD 0 0 + turn2 1 8 7 (w.getD 1 0) + w.getD 9 0 + turn2 19 61 6 (w.getD 14 0)

/-- The rounds of a block: one for each key, over the last sixteen message words. -/
def Sha.rounds : List Word → List Word → Sha → Sha
  | [], _, v => v
  | k :: ks, w, v => Sha.rounds ks (w.drop 1 ++ [nextWord w]) (v.round (k + w.headD 0))

/-- A block joins the hash value. -/
def Sha.block (v : Sha) (w : List Word) : Sha :=
  let r := Sha.rounds shaKeys w v
  ⟨v.a + r.a, v.b + r.b, v.c + r.c, v.d + r.d, v.e + r.e, v.f + r.f, v.g + r.g, v.h + r.h⟩

-- Messages ----------------------------------------------------------------------------------------------------------------------

/-- Blocks of 1,024 bits that a message of `n` bytes fills, with the closing 1 bit and its length in 128 bits. -/
def shaBlocks (n : Nat) : Nat := (n + 144) / 128

/-- The padded message as one number. -/
def shaPadded (m : List Byte) : Nat :=
  (2 * bigEndian m + 1) * 2 ^ (1024 * shaBlocks m.length - 8 * m.length - 1) + 8 * m.length

/-- The words of block `i` of `n`. -/
def blockWords (p n i : Nat) : List Word :=
  (List.range 16).map (fun j => BitVec.ofNat 64 (p / 2 ^ (64 * (16 * n - 1 - (16 * i + j)))))

/-- The digest's 64 bytes. -/
def sha512 (m : List Byte) : List Byte :=
  let n := shaBlocks m.length
  let v := (List.range n).foldl (fun v i => v.block (blockWords (shaPadded m) n i)) Sha.start
  [v.a, v.b, v.c, v.d, v.e, v.f, v.g, v.h].flatMap (fun w => bigBytes 8 w.toNat)

/-- A digest as a number. -/
def digest (m : List Byte) : Nat := littleEndian (sha512 m)

end Sys2Proof.Machine
end

