-- ==== Sys2Proof/Machine/Measure.lean ====
section
/-! DEFINITION. The measurement registers (R360): extension, one at a time. -/

namespace Sys2Proof.Machine

/-- The 128-byte event record (R360), from a digest of 64 bytes. -/
def measEvent (type part version : Nat) (dig : List Byte) : List Byte :=
  littleBytes 8 type ++ littleBytes 8 (part % 16 * 2 ^ 60 + version % 2 ^ 60) ++ dig ++ List.replicate 48 0

/-- A register extended by an event: SHA-512 of its old bytes and the record (R360). -/
def extended (old : BitVec 512) (event : List Byte) : BitVec 512 := BitVec.ofNat 512 (digest (littleBytes 64 old.toNat ++ event))

/-- The security block extends a register in the present local clock (R360). -/
def measNow (s : State) (pkg n : Nat) (event : List Byte) : State :=
  modPkg s pkg (fun p =>
    { p with meas := Sparse.set 0 p.meas n (extended (Sparse.get 0 p.meas n) event), measAt := s.clock + 1 })

/-- An event reaches the security block (R360): it extends its register at once, or after those before it, when one has been extended
in this clock already. -/
def extendMeas (s : State) (pkg n type part version : Nat) (dig : List Byte) : State :=
  let e := measEvent type part version dig
  if (getPkg s pkg).measAt = s.clock + 1 ∨ (getPkg s pkg).measQueue ≠ [] then
    modPkg s pkg (fun p => { p with measQueue := p.measQueue ++ [(n, e)] })
  else measNow s pkg n e

/-- The oldest event that waits, if the clock's extension has not been made (R360). The debug port opens after MEAS15 has been extended
(R361). -/
def measNext (s : State) (pkg : Nat) : State :=
  match (getPkg s pkg).measQueue with
  | x :: r =>
    if (getPkg s pkg).measAt = s.clock + 1 then s
    else modPkg (measNow s pkg x.1 x.2) pkg (fun p =>
      { p with measQueue := r, portOpen := p.portOpen || (p.portDue && x.1 == 15), portDue := p.portDue && x.1 != 15 })
  | [] => s

end Sys2Proof.Machine
end

