-- ==== Sys2Proof/Machine/CcSys.lean ====
section
/-! DEFINITION. System commands of the control core: system registers, landing counters, slack, launch, queue pointers, fences,
watch, traps, ranges and the symmetry table (R177 to R191). -/

namespace Sys2Proof.Machine

-- System registers (R95, R182) --------------------------------------------------------------------------------------------

/-- SYS.DOMAIN of a core of a domain (R95). -/
def domainWord (s : State) (k : Nat) : Word :=
  match domOf s k with
  | none => 0
  | some d =>
    let (partner, role) := match partnerOf d k with
      | some q => (numOf q, if primaryOf d k = k then 1 else 2)
      | none => (0, 0)
    toWord (partner * 2 ^ 32 + role * 2 ^ 30 + d.span * 2 ^ 28 + d.pkgs.length * 2 ^ 20 + d.cores.length)

/-- SYS.CORE: the primary's number in a pair (R182). -/
def coreWord (s : State) (k : Nat) : Word :=
  match domOf s k with
  | some d => toWord (numOf (primaryOf d k))
  | none => toWord (numOf k)

/-- SYS.YTAG (R81). -/
def ytagWord (c : CoreState) : Word :=
  toWord ((List.range 16).foldl (fun a n => a + (Sparse.get 2 c.tags n).toNat * 4 ^ n) 0)

/-- SYS.CFLAGS (R182). -/
def cflagsWord (c : CoreState) : Word := toWord ((if c.collision then 1 else 0) + (if c.symForce then 2 else 0))

/-- The content of a system register; none for an unassigned number. SYS.FQCOUNT counts the words that have landed and are not
popped yet, a pop of the same cycle not counted (log 83). -/
def sysRead (s : State) (k n : Nat) : Option Word :=
  let c := getCore s k
  match n with
  | 0x000 => some (coreWord s k)
  | 0x001 => some (domainWord s k)
  | 0x002 => some (toWord c.pid)
  | 0x003 => some (toWord (asidOfCore s k))
  | 0x010 => some c.cc.ring
  | 0x011 => some c.cp.ring
  | 0x012 => some c.ve.ring
  | 0x013 => some c.ce.ring
  | 0x014 => some (toWord (ringAddr c.cc.ring c.cc.fetchPtr))
  | 0x015 => some (toWord (ringAddr c.cp.ring c.cp.fetchPtr))
  | 0x016 => some (toWord (ringAddr c.ve.ring c.ve.fetchPtr))
  | 0x017 => some (toWord (ringAddr c.ce.ring c.ce.fetchPtr))
  | 0x020 => some c.cc.seed
  | 0x021 => some c.cp.seed
  | 0x022 => some c.ve.seed
  | 0x023 => some c.ce.seed
  | 0x030 => some (c.flagsCE.setWidth 64)
  | 0x031 => some (c.flagsVE.setWidth 64)
  | 0x032 => some (c.flagsCP.setWidth 64)
  | 0x033 => some (cflagsWord c)
  | 0x034 => some (toWord (min 16 c.fq.length))
  | 0x040 => some (ytagWord c)
  | _ => none

/-- The registers that SYSWR may write (R182). -/
def sysWritable (n : Nat) : Bool := (0x020 ≤ n && n ≤ 0x023) || (0x030 ≤ n && n ≤ 0x033)

/-- SYSRD (R182). -/
def execSysrd (d : SReg) (n : BitVec 12) (s : State) : Out :=
  match sysRead s s.ctx.core n.toNat with
  | some v => ccResult s 1 d v
  | none => .next (faultNow s fEncoding 0 [])

/-- SYSWR (R182): an unassigned number is illegal, a read-only register raises permission. -/
def execSyswr (a : SReg) (n : BitVec 12) (s : State) : Out :=
  checked s [((sysRead s s.ctx.core n.toNat).isSome, fEncoding), (sysWritable n.toNat, fPermission)]
    (fun s => ccPost s 1 (.sysreg n.toNat (rd s a)))

/-- DCCRD (R93, R181). -/
def execDccrd (d : SReg) (s : State) : Out := ccResult s 1 d (toWord (cur s).dcc)

-- Landing counters (R179, R180, R291) ----------------------------------------------------------------------------------------

/-- LCSET (R179). -/
def execLcset (a : SReg) (lc : BitVec 6) (s : State) : Out :=
  .next (ccPost s 1 (.lcset lc.toNat ((rd s a).setWidth 40)))

/-- What LCRD reads (R180). -/
def lcWord (x : LCtr) : Word :=
  toWord (x.cnt.toNat + (if x.p then 2 ^ 40 else 0) + (if x.p = x.a then 0 else 2 ^ 63))

/-- An acquire merges the clocks of the counted bytes' writers (R287, R291). -/
def acquire (s : State) (k lc : Nat) : State :=
  let tags := (s.counted.filter (fun x => x.1 = k && x.2.1 = lc)).map (fun x => x.2.2)
  if tags.isEmpty then s
  else setClock s (.core k) (tags.foldl (fun v t => List.zipWith max v t.clock) (clockOf s (.core k)))

/-- LCRD (R180): returning bit 63 set, it acquires. -/
def execLcrd (d : SReg) (lc : BitVec 6) (s : State) : Out :=
  let x := getLc (cur s) lc.toNat
  let s := if s.ctx.active ∧ x.p ≠ x.a then acquire s s.ctx.core lc.toNat else s
  ccResult s 1 d (lcWord x)

/-- LCWAIT (R180): a hold with cause 1 while the phase has not flipped; else it acquires and writes its wait-log entry (R349). -/
def execLcwait (lc : BitVec 6) (s : State) : Out :=
  let k := s.ctx.core
  let x := getLc (cur s) lc.toNat
  if s.ctx.active = false then .next s
  else if x.p = x.a then .next (raiseHold s 1 lc.toNat {})
  else .next (waitLog (acquire s k lc.toNat) k (partOfCore s k) (cur s).dcc 0 (cur s).pid lc.toNat
    ⟨1, k, ccSt, .cc, s.ctx.hdr.evt.toNat, lc.toNat, x.agent, true⟩)

-- Slack (R112, R181) ---------------------------------------------------------------------------------------------------------

/-- SLACK (R112): an idle one declares its slack point too (R98). -/
def execSlack (n : BitVec 16) (s : State) : Out :=
  .next (modCur s (fun c => { c with slackPts := c.slackPts ++ [(c.dcc + 1, n.toNat)] }))

-- Launch (R177, R178) --------------------------------------------------------------------------------------------------------

/-- A mould record of a package's hub. -/
def getMould (s : State) (pkg n : Nat) : List Word := Sparse.get [] (getPkg s pkg).moulds n

/-- The partition that a core belongs to: its pour's, or for a system core the one that owns it. -/
def ownPart (s : State) (k : Nat) : Nat :=
  match domOf s k with
  | some d => d.part
  | none =>
    match (getPkg s (pkgOf k)).parts.find? (fun p => p.2.cores.contains (numOf k) || p.2.sysCores.contains (numOf k)) with
    | some p => p.1
    | none => 0

/-- A mould is built (header bit V) and owned by the partition (R300). -/
def mouldOwned (m : List Word) (part : Nat) : Bool :=
  let h := (m.getD 0 0).toNat
  bits h 63 1 == 1 && bits h 56 4 == part

/-- ARM (R177): the request reaches the pool 96 cycles on. -/
def execArm (d a : SReg) (s : State) : Out :=
  .next (ccPost s Config.hubReach (.arm d (bits (rdN s a) 0 12)))

/-- MPAT (R178): permission unless the mould is built and owned. -/
def execMpat (a b : SReg) (n : BitVec 4) (s : State) : Out :=
  let mould := bits (rdN s a) 0 12
  checked s [(mouldOwned (getMould s (pkgOf s.ctx.core) mould) (ownPart s s.ctx.core), fPermission)]
    (fun s => ccPost s Config.hubReach (.mpat mould n.toNat (rd s b)))

-- Queue pointers (R183, R247) -------------------------------------------------------------------------------------------------

def execQprd (d : SReg) (qp : BitVec 2) (s : State) : Out := ccResult s 1 d (Sparse.get 0 (cur s).qps qp.toNat)
def execQpwr (a : SReg) (qp : BitVec 2) (s : State) : Out := .next (ccPost s 1 (.qp qp.toNat (rd s a)))

-- Fences (R184, R287) ----------------------------------------------------------------------------------------------------------

/-- The parties of a scope, seen from a core (R287). -/
def inScope (s : State) (k : Nat) (scope : Nat) (p : Party) : Bool :=
  match p with
  | .core q =>
    match scope with
    | 0 => q == k || (match domOf s k with | some d => partnerOf d k == some q | none => false)
    | 1 => (match domOf s k with | some d => d.all.contains q | none => q == k)
    | 2 => pkgOf q == pkgOf k && numOf q < 640 && numOf k < 640 && dieOf q == dieOf k
    | 3 => pkgOf q == pkgOf k
    | _ => true
  | _ => scope ≥ 4

/-- FENCE (R184): scopes 5 to 7 are no encoding; it lands nothing and merges the observed writes of its scope. -/
def execFence (scope : BitVec 3) (s : State) : Out :=
  checked s [(decide (scope.toNat ≤ 4), fEncoding)]
    (fun s => if s.ctx.active then mergeSeen s (.core s.ctx.core) (inScope s s.ctx.core scope.toNat) else s)

-- Watch, traps (R185, R186) ------------------------------------------------------------------------------------------------------

def execWatchAdd (a : SReg) (s : State) : Out := .next (ccPost s 1 (.watchAdd (rdN s a)))
def execWatchClr (s : State) : Out := .next (ccPost s 1 .watchClr)

/-- TRAP (R186): takes the trap fault with its number recorded; idle, it raises none (R98). -/
def execTrap (n : BitVec 16) (s : State) : Out :=
  .next (if s.ctx.active then faultNow s fTrap 0 [toWord n.toNat] else s)

/-- A debug session is attached to the partition of the core's pour (R186). -/
def debugAttached (s : State) (k : Nat) : Bool := (getPart s (pkgOf k) (partOfCore s k)).debug

/-- HALT (R186): a hold with cause 5 while a session is attached. -/
def execHalt (s : State) : Out :=
  .next (if s.ctx.active ∧ debugAttached s s.ctx.core then raiseHold s 5 0 { kind := 6 } else s)

-- Ranges and the symmetry table (R187 to R190) ------------------------------------------------------------------------------------

/-- A 64-byte image in scratchpad (R187, R190). -/
def imageOk (a : Nat) : Bool := spadWordOk a 64

/-- RLOAD (R187). -/
def execRload (a : SReg) (n : BitVec 6) (s : State) : Out :=
  checked s [(imageOk (rdN s a), fPermission)] (fun s => ccPost s 7 (.rloadRead n.toNat (rdN s a)))

/-- YLOAD (R190). -/
def execYload (a : SReg) (y : BitVec 4) (s : State) : Out :=
  checked s [(imageOk (rdN s a), fPermission)] (fun s => ccPost s 7 (.yloadRead y.toNat (rdN s a)))

/-- The conditions of RSPLIT (R188). -/
def rsplitOk (c : CoreState) (n m x : Nat) : Bool :=
  let e := getRange c n
  x % 256 == 0 && e.base.toNat < x && x < e.limit.toNat && !(getRange c m).valid && e.valid

/-- RSPLIT (R188, R276). -/
def execRsplit (a b : SReg) (n : BitVec 6) (s : State) : Out :=
  let m := bits (rdN s b) 0 6
  checked s [(rsplitOk (cur s) n.toNat m (rdN s a), fPermission)]
    (fun s => ccPost s 1 (.rsplit n.toNat m (rd s a) (bits (rdN s b) 16 12)))

/-- The conditions of RMERGE (R188); both entries are valid. -/
def rmergeOk (c : CoreState) (n m : Nat) : Bool :=
  let e := getRange c n
  let g := getRange c m
  e.valid && g.valid && g.base == e.limit && e.asid == g.asid && e.off == g.off &&
    bits e.ctl.toNat 1 6 == bits g.ctl.toNat 1 6

/-- RMERGE (R188, R276). -/
def execRmerge (a : SReg) (n : BitVec 6) (s : State) : Out :=
  let m := bits (rdN s a) 0 6
  checked s [(rmergeOk (cur s) n.toNat m, fPermission)] (fun s => ccPost s 1 (.rmerge n.toNat m))

/-- The reach of a range change over the cores of a domain (R189). -/
def reachOf (d : Domain) : Nat := if d.span = 2 then 560 else 96

/-- RINV (R189): reaches every core of the domain in one cycle. In catch-up one that would arrive before F breaks the domain
(R315). -/
def execRinv (a : SReg) (s : State) : Out :=
  if s.ctx.active = false then .next s
  else
    let e : Effect := .rinv (asidOfCore s s.ctx.core) (rdN s a)
    match domOf s s.ctx.core with
    | none => .next (ccPost s 0 e)
    | some d =>
      let at' := (cur s).dcc + reachOf d
      if d.status = .catchUp ∧ at' < d.freeze.getD 0 then .next (faultNow s fBroken 0 [])
      else .next (d.all.foldl (fun s k => addFlight s k { flightOf s 0 ccSt e with at' := at' }) s)

-- System cores only (R191) -------------------------------------------------------------------------------------------------------

/-- A command that executes only on system cores raises illegal-encoding elsewhere (R146). -/
def sysOnly (s : State) (f : State → State) : Out :=
  .next (if s.ctx.sys then f s else faultNow s fEncoding 0 [])

/-- ERET (R191). -/
def execEret (s : State) : Out := sysOnly s (fun s => modCur s leaveHypervisor)

/-- A system-image event that the hypervisor has taken from a call extends one of MEAS5 to MEAS14 (R360; log 57). -/
def systemEvent (s : State) (k : Nat) (e : Option (Nat × Nat × List Byte)) : State :=
  match e with
  | some (n, version, dig) =>
    extendMeas s (pkgOf k) (5 + n % 10) 6 (ownPart s k) version ((dig ++ List.replicate 64 0).take 64)
  | none => s

/-- HVCALL (R191): the hypervisor's entry address is an open value (log 9), and so is what it takes the call for (log 57). -/
def execHvcall (n : BitVec 16) (s : State) : Out :=
  sysOnly s (fun s =>
    let e := Config.hvEvent n.toNat (cur s).sregs
    systemEvent { modCur s (fun c => enterHypervisor c s.ctx.next (Config.freeWord s.free).toNat n) with free := s.free + 1 }
      s.ctx.core e)

/-- The keys of a package's compute cores: those that State lists. -/
def computeCores (s : State) (pkg : Nat) : List Nat :=
  (s.cores.map Prod.fst).filter (fun k => pkgOf k = pkg && numOf k < Config.coresPerPackage)

/-- The range with an ASID and base. -/
def isRange (asid base : Nat) (e : RangeEntry) : Bool := e.valid && e.asid == asid && e.base.toNat == base

/-- An entry in flight names a physical address of a range's backing (R319). -/
def namesBacking (pkg : Nat) (e : RangeEntry) (f : Flight) : Bool :=
  let lo := pkg * 2 ^ 39 + (e.base.toNat + e.off.toNat) % 2 ^ 64
  let hi := lo + (e.limit.toNat - e.base.toNat)
  match f.eff with
  | .memWrite key _ _ _ _ | .memRead key _ _ | .atom key _ _ | .atomStore key _ _ | .cellInit key _ | .cellAdd key _ _
  | .cellSum key _ _ | .cellRead key _ _ _ _ => decide (lo ≤ key) && decide (key < hi)
  | _ => false

/-- The entries that a core held at a stop and has not landed since (R319). -/
def heldEntries (c : CoreState) : List Flight := c.inflight.filter (fun f => c.atStop.any f.same)

/-- The slots of a range list that hold anything. -/
def listedSlots (s : State) (pkg asid : Nat) : List Nat :=
  match Sparse.get 0 (getPkg s pkg).lists asid with
  | 0 => []
  | b + 1 =>
    let base := pkg * 2 ^ 39 + b
    ((s.mem.filter (fun x => decide (base ≤ x.1 ∧ x.1 < base + 64 * 4096))).map (fun x => (x.1 - base) / 64)).dedup

/-- The valid ranges of an ASID's list, in slot order (R275). -/
def listRanges (s : State) (pkg asid : Nat) : List RangeEntry :=
  (listedSlots s pkg asid).filterMap (fun i =>
    match listSlot s pkg asid i with
    | some key =>
      let e := entryOf (BitVec.ofNat 512 (Memory.readNat s.mem key 64))
      if e.valid ∧ e.asid = asid then some e else none
    | none => none)

/-- The slot of a partition's list that holds the range with an ASID and base. -/
def findSlot (s : State) (pkg asid base : Nat) : Option Nat :=
  (List.range 4096).find? (fun i =>
    match listSlot s pkg asid i with
    | some key =>
      let e := entryOf (BitVec.ofNat 512 (Memory.readNat s.mem key 64))
      e.valid && e.asid == asid && e.base.toNat == base
    | none => false)

/-- The entries of a core's table for the range with an ASID and base. -/
def rangesOf (asid base : Nat) (c : CoreState) : List RangeEntry := (c.ranges.map Prod.snd).filter (isRange asid base)

/-- What the range with an ASID and base is, by the partition's list and by the compute cores' tables: an entry in flight goes on naming
the backing that its core's table has lost since (R319). -/
def rangeBackings (s : State) (pkg asid base : Nat) : List RangeEntry :=
  (listRanges s pkg asid).filter (isRange asid base) ++ (computeCores s pkg).flatMap (fun k => rangesOf asid base (getCore s k))

/-- A running pour's core holds the range pinned (R278), or an in-flight entry not yet landed, held in place at a stop or saved in
a checkpoint, names a physical address of its backing (R319). -/
def rangePinned (s : State) (pkg asid base : Nat) : Bool :=
  let named := rangeBackings s pkg asid base
  (computeCores s pkg).any (fun k =>
    let c := getCore s k
    (findDom s c.pid).isSome && (c.ranges.any (fun p => isRange asid base p.2 && bits p.2.ctl.toNat 6 1 == 1) ||
      (heldEntries c).any (fun f => named.any (fun e => namesBacking pkg e f)))) ||
  s.saved.any (fun v => !v.restored && v.cores.any (fun c =>
    (named ++ rangesOf asid base c.2).any (fun e => c.2.inflight.any (namesBacking pkg e))))

/-- Change the list's image of a range. -/
def editList (s : State) (pkg asid base : Nat) (f : RangeEntry → RangeEntry) : State :=
  match findSlot s pkg asid base with
  | none => s
  | some i =>
    match listSlot s pkg asid i with
    | none => s
    | some key =>
      let e := entryOf (BitVec.ofNat 512 (Memory.readNat s.mem key 64))
      hubWrite s (Memory.writeNat s.mem key 64 (entryImage (f e)))

/-- Another partition of the package owns an ASID, a physical address, or a part of a run of them (R357). -/
def foreignAsid (s : State) (pkg part asid : Nat) : Bool :=
  (getPkg s pkg).parts.any (fun p => p.1 != part && p.2.asids.contains asid)
def foreignAddr (s : State) (pkg part a : Nat) : Bool :=
  (getPkg s pkg).parts.any (fun p => p.1 != part && p.2.mem.any (fun m => decide (m.1 ≤ a ∧ a < m.2)))
def foreignRun (s : State) (pkg part a n : Nat) : Bool :=
  (getPkg s pkg).parts.any (fun p => p.1 != part && p.2.mem.any (fun m => decide (m.1 < a + n ∧ a < m.2)))

/-- What a system core may do to a range: its ASID is not another partition's (R357). -/
def ownAsid (s : State) (asid : Nat) (f : State → State) : State :=
  if foreignAsid s (pkgOf s.ctx.core) (ownPart s s.ctx.core) asid then s else f s

/-- The packages that a system core's change to a range of an ASID reaches (R102, R191): its own, and every other one of the group in
which the ASID is not another partition's. -/
def reachedPkgs (s : State) (asid : Nat) : List Nat :=
  pkgOf s.ctx.core :: (s.pkgs.map Prod.fst).filter (fun p =>
    p != pkgOf s.ctx.core && !foreignAsid s p (ownPart s s.ctx.core) asid)

/-- Cycles from a system core's command to the cycle of a compute core in which its change reaches that core: 96 for RRET in a package
and 560 across the group (R102); for RRES the spec gives none, and it is the core's next cycle (log 3). -/
def reachDelay (e : Effect) (own : Bool) : Nat :=
  match e with
  | .rret .. => if own then 96 else 560
  | _ => 0

/-- A change that reaches every compute core, each in a cycle of its own (R102, R191, R277); a core that runs no pour has no cycles and
applies it at once. -/
def reachAll (s : State) (asid : Nat) (e : Effect) (now : CoreState → CoreState) : State :=
  ((reachedPkgs s asid).flatMap (computeCores s)).foldl (fun s k =>
    match domOf s k with
    | some _ => addFlight s k { flightOf s 0 ccSt e with
        at' := (getCore s k).dcc + reachDelay e (pkgOf k == pkgOf s.ctx.core), cmp := false }
    | none => modCore s k now) s

/-- The partition's lists that the change reaches. -/
def editLists (s : State) (asid base : Nat) (f : RangeEntry → RangeEntry) : State :=
  (reachedPkgs s asid).foldl (fun s p => editList s p asid base f) s

/-- The range is pinned where the change would reach (R278). -/
def pinnedThere (s : State) (asid base : Nat) : Bool := (reachedPkgs s asid).any (fun p => rangePinned s p asid base)

/-- A refusal record of kind 5 to the partition's fault log: the log of its root region (R278, R322). -/
def refuse (s : State) (pkg asid base : Nat) : State :=
  let part := match (getPkg s pkg).parts.find? (fun p => p.2.asids.contains asid) with | some p => p.1 | none => 0
  faultLog s pkg part (getPart s pkg part).root (logRecord s 5 0 pkg 0 0 0 0 [toWord base, toWord asid])

/-- RRES (R191): sets bits of the residency map; with SEL[12] = 1 see `execRresClear`. Refused for another partition's ASID (R357). -/
def execRres (a b : SReg) (asid : BitVec 12) (s : State) : Out :=
  sysOnly s (fun s => ownAsid s asid.toNat fun s =>
    let e := resEdit asid.toNat (rdN s a) (rd s b) false
    reachAll (editLists s asid.toNat (rdN s a) e) asid.toNat (.rres asid.toNat (rdN s a) (rd s b) false) (editTable e))

/-- RRES with SEL[12] = 1 (R191): clears bits; refused for a pinned range (R278). -/
def execRresClear (a b : SReg) (asid : BitVec 12) (s : State) : Out :=
  sysOnly s (fun s => ownAsid s asid.toNat fun s =>
    let pkg := pkgOf s.ctx.core
    if pinnedThere s asid.toNat (rdN s a) then refuse s pkg asid.toNat (rdN s a)
    else
      let e := resEdit asid.toNat (rdN s a) (rd s b) true
      reachAll (editLists s asid.toNat (rdN s a) e) asid.toNat (.rres asid.toNat (rdN s a) (rd s b) true) (editTable e))

/-- The compaction of a range takes the local clock of the RRET that completes it (R279). -/
def markMoved (s : State) (pkg asid base : Nat) : State :=
  modPkg s pkg (fun p => { p with compactions := p.compactions.map (fun c =>
    if c.asid = asid ∧ c.base = base ∧ c.moved.isNone then { c with moved := some s.clock } else c) })

/-- An offset would map a range, as a list or a table holds it, onto another partition's memory (R357). -/
def foreignMap (s : State) (asid base off : Nat) : Bool :=
  (reachedPkgs s asid).any (fun p => (rangeBackings s p asid base).any (fun e =>
    foreignRun s p (ownPart s s.ctx.core) ((base + off) % 2 ^ 64) (e.limit.toNat - e.base.toNat)))

/-- RRET (R191): sets the offset; refused for a pinned range (R278), and where it maps onto another partition's memory (R357). -/
def execRret (a b : SReg) (asid : BitVec 12) (s : State) : Out :=
  sysOnly s (fun s => ownAsid s asid.toNat fun s =>
    let pkg := pkgOf s.ctx.core
    if foreignMap s asid.toNat (rdN s a) (rdN s b) then s
    else if pinnedThere s asid.toNat (rdN s a) then refuse s pkg asid.toNat (rdN s a)
    else
      let e := retEdit asid.toNat (rdN s a) (rd s b)
      markMoved (reachAll (editLists s asid.toNat (rdN s a) e) asid.toNat (.rret asid.toNat (rdN s a) (rd s b)) (editTable e))
        pkg asid.toNat (rdN s a))

end Sys2Proof.Machine
end

