-- ==== Sys2Proof/Machine/StreamCtl.lean ====
section
/-! DEFINITION. Control transfer and joins of the cc stream (R172 to R174) and the stream-control commands (R140 to R144). -/

namespace Sys2Proof.Machine

/-- The stream of the command being executed. -/
def curStream (s : State) : StreamSt := getStream (cur s) s.ctx.stream

/-- Change the stream of the command being executed. -/
def modCurStream (s : State) (f : StreamSt → StreamSt) : State := modCur s (fun c => modStream c s.ctx.stream f)

/-- The position of a ring index in the body of a loop, from 0 (R140). -/
def bodyPos (ring : Word) (l : LoopSt) (i : Nat) : Nat := (i + ringLen ring - l.first % ringLen ring) % ringLen ring

/-- The innermost loop contains a destination, or there is no loop (R142). -/
def insideLoop (t : StreamSt) (i : Nat) : Bool :=
  match t.loops with
  | [] => true
  | l :: _ => bodyPos t.ring l i < l.body

/-- The destination w + OFF modulo the ring length (R172). -/
def target (s : State) (off : BitVec 16) : Nat :=
  (((s.ctx.next : Int) + off.toInt) % (ringLen (curStream s).ring : Int)).toNat

/-- Go on at a ring index. -/
def goTo (s : State) (i : Nat) : State := modCurStream s (fun t => { t with nextIdx := i })

/-- BR (R172, R174): the fetch unit waits for it and goes on along the chosen path; the next command issues 16 cycles on at the
earliest; a JD pushes a pending join. An idle BR takes its untaken path and still pushes (R98). -/
def execBr (a : SReg) (neg : Bool) (off jd : BitVec 16) (s : State) : Out :=
  let t := curStream s
  let dest := target s off
  checked s [(jd == 0 || decide (t.joins.length < 8), fEncoding), (insideLoop t dest, fEncoding)]
    (fun s =>
      let taken := s.ctx.active && ((rd s a != 0) != neg)
      let path := if taken then dest else s.ctx.next
      let join := (s.ctx.next + ringLen t.ring - 1 + jd.toNat) % ringLen t.ring
      modCurStream s (fun t =>
        { t with nextIdx := path, fetchIdx := path, fetchHold := false, brMin := (cur s).dcc + 16
                 joins := if jd = 0 then t.joins else (join, (cur s).dcc) :: t.joins }))

/-- JMP (R173). -/
def execJmp (off : BitVec 16) (s : State) : Out :=
  let dest := target s off
  checked s [(insideLoop (curStream s) dest, fEncoding)] (fun s => goTo s dest)

/-- CALL (R173): a ninth entry raises call-depth. -/
def execCall (off : BitVec 16) (s : State) : Out :=
  let dest := target s off
  checked s [(decide ((cur s).calls.length < 8), fCallDepth), (insideLoop (curStream s) dest, fEncoding)]
    (fun s => goTo (modCur s (fun c => { c with calls := s.ctx.next :: c.calls })) dest)

/-- RET (R173): an empty stack raises call-depth. -/
def execRet (s : State) : Out :=
  match (cur s).calls with
  | [] => .next (faultNow s fCallDepth 0 [])
  | w :: r =>
    checked s [(insideLoop (curStream s) w, fEncoding)] (fun s => goTo (modCur s (fun c => { c with calls := r })) w)

/-- NOP (R140). -/
def execNop (s : State) : Out := .next s

/-- LOOP (R141, R142). -/
def execLoop (id stg : BitVec 3) (body : BitVec 14) (count mx : BitVec 32) (s : State) : Out :=
  let t := curStream s
  checked s
    [(!t.loops.any (fun l => l.id == id.toNat), fEncoding),
     (mx != 0 && decide (count.toNat ≤ mx.toNat) && body != 0 && decide (body.toNat ≤ ringLen t.ring), fEncoding)]
    (fun s => modCurStream s (fun t => { t with loops :=
      ⟨id.toNat, count.toNat, mx.toNat, 0, stg.toNat + 1, 0, s.ctx.active, s.ctx.next, body.toNat⟩ :: t.loops }))

/-- How many words the command being executed has (R120). -/
def commandLen (ring : Word) (s : State) : Nat := (s.ctx.next + ringLen ring - s.ctx.idx % ringLen ring) % ringLen ring

/-- LEND (R141, R142): the next pass, or on past the body. -/
def execLend (id : BitVec 3) (s : State) : Out :=
  let t := curStream s
  match t.loops with
  | [] => .next (faultNow s fEncoding 0 [])
  | l :: r =>
    checked s [(l.id == id.toNat, fEncoding), (bodyPos t.ring l s.ctx.idx + commandLen t.ring s == l.body, fEncoding)]
      (fun s => modCurStream s (fun t =>
        if l.pass + 1 < l.max + l.stages - 1 then
          { t with nextIdx := l.first, loops := { l with pass := l.pass + 1, stage := 0 } :: r }
        else { t with loops := r }))

/-- JOIN (R143, R174): matched by the top entry that names its own word. -/
def execJoin (d : BitVec 32) (s : State) : Out :=
  match (curStream s).joins with
  | [] => .next (faultNow s fJoin 0 [])
  | (w, c) :: r =>
    checked s [(w == s.ctx.idx && (cur s).dcc == c + d.toNat, fJoin)] (fun s => modCurStream s (fun t => { t with joins := r }))

/-- END (R142, R144): inside a loop body it is illegal. -/
def execEndStream (s : State) : Out :=
  checked s [((curStream s).loops.isEmpty, fEncoding)] (fun s => modCurStream s (fun t => { t with ended := true }))

/-- MARK (R141, R142). -/
def execMark (stage : BitVec 3) (s : State) : Out :=
  match (curStream s).loops with
  | [] => checked s [(stage == 0, fEncoding)] (fun s => s)
  | l :: r =>
    checked s [(decide (stage.toNat < l.stages), fEncoding)]
      (fun s => modCurStream s (fun t => { t with loops := { l with stage := stage.toNat } :: r }))

end Sys2Proof.Machine
end

