-- ==== Sys2Proof/Machine/CpMove.lean ====
section
/-! DEFINITION. Copy-engine moves, gathers and scatters at their issue (R192 to R201). What they do in later cycles stands in
Machine/Jobs.lean. -/

namespace Sys2Proof.Machine

/-- A scratchpad operand's run (R193): inside one of blocks 0 to 5, aligned to its element size. -/
def runOk (a n align : Nat) : Bool := a % align == 0 && spadRunOk a n

/-- A scratchpad destination's run: also outside the buffers of open receive windows (R215). -/
def destOk (s : State) (a n align : Nat) : Bool := runOk a n align && !inOpenWindow (cur s) a n (cur s).dcc

/-- Requests of a command's issue cycle: their addresses, size and alignment, permissions, access kind (R193, R273, R282). -/
structure Asks where
  addrs : List Nat := []
  n : Nat := 64
  align : Nat := 64
  perms : List Nat := []
  kind : Nat := 3

/-- What the requests of an active command's issue cycle do before the first that fails (R273, R280): that fault with its DETAIL
words, and the state after the watch tests up to it. -/
def Asks.fail (q : Asks) (s : State) : List Nat → Option (Nat × List Word × State)
  | [] => none
  | a :: r =>
    if a < 2 ^ 57 ∧ a % q.align = 0 then
      let s := watchNow s a q.n q.kind
      match lookupNow s a q.perms with
      | .fault code d => some (code, d, s)
      | _ => q.fail s r
    else some (fPermission, [], s)

/-- A cp command: its checks in order, then, for an active command, the requests of its issue cycle, whose failure is a fault at
issue (R147, R164, R193); then it starts. -/
def cpIssue (s : State) (checks : List (Bool × Nat)) (asks : Asks) (start : State → State) : Out :=
  match firstFault checks with
  | some code => .next (faultNow s code 0 [])
  | none =>
    match if s.ctx.active then asks.fail s asks.addrs else none with
    | some (code, d, s) => .next (faultNow s code 0 d)
    | none => .next (start s)

-- Strided moves (R194 to R196) ------------------------------------------------------------------------------------------------

/-- A register of a group read as a signed number. -/
def rdInt (s : State) (r : SReg) (i : Nat) : Int := asSigned 64 (rdG s r i)

/-- The shape that s[SC] gives (R195): missing registers are one row, one plane. -/
def moveShape (s : State) (o : MoveOps) : MoveShape :=
  let d := o.dim.toNat
  let two := decide (2 ≤ d)
  let three := decide (3 ≤ d)
  { src := rdN s o.sa, dst := rdN s o.sb, len := rdG s o.sc 0
    n1 := if two then rdG s o.sc 1 else 1
    ss1 := if two then rdInt s o.sc 2 else 0
    ds1 := if two then rdInt s o.sc 3 else 0
    n2 := if three then rdG s o.sc 4 else 1
    ss2 := if three then rdInt s o.sc 5 else 0
    ds2 := if three then rdInt s o.sc 6 else 0 }

/-- The limits of R195; CPSET ignores the source strides (R196). -/
def MoveShape.limits (m : MoveShape) (src : Bool) : Bool :=
  m.len % 64 == 0 && decide (64 ≤ m.len ∧ m.len ≤ 2 ^ 24 ∧ 1 ≤ m.n1 ∧ m.n1 ≤ 2 ^ 24 ∧ 1 ≤ m.n2 ∧ m.n2 ≤ 2 ^ 24 ∧ m.count ≤ 2 ^ 24) &&
    m.ds1 % 64 == 0 && m.ds2 % 64 == 0 && (!src || (m.ss1 % 64 == 0 && m.ss2 % 64 == 0))

/-- The run from the lowest to the highest byte of a strided operand. -/
def stridedRun (m : MoveShape) (base : Nat) (s1 s2 : Int) : Int × Nat :=
  let e1 := (m.n1 - 1 : Nat) * s1
  let e2 := (m.n2 - 1 : Nat) * s2
  let lo := (base : Int) + min 0 e1 + min 0 e2
  let hi := (base : Int) + max 0 e1 + max 0 e2 + m.len
  (lo, (hi - lo).toNat)

/-- A strided scratchpad operand: aligned to 64 bytes, a granule taken as its element (R193; log 66), its whole run inside one block
(log 27). -/
def stridedOk (m : MoveShape) (base : Nat) (s1 s2 : Int) : Bool :=
  let (lo, n) := stridedRun m base s1 s2
  decide (0 ≤ lo) && base % 64 == 0 && spadRunOk lo.toNat n

/-- No granule of a destination lies in an open receive window (R215). -/
def granulesFree (s : State) (m : MoveShape) : Bool :=
  let c := cur s
  c.rwins.isEmpty || (List.range m.count).all (fun j => !inOpenWindow c (m.dstAt j) 64 c.dcc)

def srcSpad (m : MoveShape) : Bool := stridedOk m m.src m.ss1 m.ss2
def dstSpad (s : State) (m : MoveShape) : Bool := stridedOk m m.dst m.ds1 m.ds2 && granulesFree s m

/-- The cycles that a move's last granule takes to land. -/
def moveLast (m : MoveShape) : Nat := m.count + 1290

/-- CPLD (R196). -/
def execCpld (o : MoveOps) (s : State) : Out :=
  let m := moveShape s o
  cpIssue s [(m.limits true, fEncoding), (m.src % 64 == 0 && dstSpad s m, fPermission)]
    { addrs := [m.src], perms := [pRD] }
    (fun s => startJob s (.cpld m) cpiSt o.run.toNat (moveLast m) (o.lc.map BitVec.toNat))

/-- CPST (R196). -/
def execCpst (o : MoveOps) (s : State) : Out :=
  let m := moveShape s o
  cpIssue s [(m.limits true, fEncoding), (m.dst % 64 == 0 && srcSpad m, fPermission)]
    { addrs := [m.dst], perms := [pWR], kind := 4 }
    (fun s => startJob s (.cpst m) cpoSt o.run.toNat (moveLast m) (o.lc.map BitVec.toNat))

/-- CPMOV (R196). -/
def execCpmov (o : MoveOps) (s : State) : Out :=
  let m := moveShape s o
  cpIssue s [(m.limits true, fEncoding), (srcSpad m && dstSpad s m, fPermission)] {}
    (fun s => startJob s (.cpmov m) cpoSt o.run.toNat (m.count + 30) (o.lc.map BitVec.toNat))

/-- CPSET (R196). -/
def execCpset (o : MoveOps) (mem : Bool) (s : State) : Out :=
  let m := moveShape s o
  cpIssue s [(m.limits false, fEncoding), (if mem then m.dst % 64 == 0 else dstSpad s m, fPermission)]
    { addrs := if mem then [m.dst] else [], perms := [pWR], kind := 4 }
    (fun s => startJob s (.cpset m (rd s o.sa) mem) cpoSt o.run.toNat (moveLast m) (o.lc.map BitVec.toNat))

-- Cast streams (R197) ----------------------------------------------------------------------------------------------------------

/-- E and B of a cast stream (R197). -/
def castLimits (E B : Nat) : Bool := E % 256 == 0 && B % 64 == 0 && decide (B ≤ 264 * E / 256)

/-- The last cycle of a cast stream. -/
def castLast (mem : Bool) (E : Nat) : Nat := castBase mem + 5 * (E / 256) + 30

/-- CPLD.cb (R197, R198). -/
def execCpldCb (o : MoveOps) (s : State) : Out :=
  let E := rdG s o.sc 0
  let B := rdG s o.sc 1
  let src := rdN s o.sa
  let dst := rdN s o.sb
  cpIssue s [(castLimits E B, fEncoding), (src % 64 == 0 && destOk s dst E 64, fPermission)]
    { addrs := if B = 0 then [] else [src], perms := [pRD, pCH] }
    (fun s => startJob s (.cast src dst E B true) cpiSt o.run.toNat (castLast true E) (o.lc.map BitVec.toNat))

/-- CPDEC (R197). -/
def execCpdec (sa sb sc : SReg) (run : Run) (s : State) : Out :=
  let E := rdG s sc 0
  let B := rdG s sc 1
  let src := rdN s sa
  let dst := rdN s sb
  cpIssue s [(castLimits E B, fEncoding), (runOk src B 64 && destOk s dst E 64, fPermission)] {}
    (fun s => startJob s (.cast src dst E B false) cpoSt run.toNat (castLast false E) none)

-- Gathers and scatters (R199 to R201) ----------------------------------------------------------------------------------------------

/-- The entry an ORB command names is valid, and of the command's type (R70, R91): the fault, if not. -/
def syFault (s : State) (y : BitVec 4) (t : Ty) : Option (Nat × List Word) :=
  let e := getSy (cur s) y.toNat
  if e.valid = false then some (fEncoding, [])
  else if symTy e.desc ≠ t then some (fSymClaim, symDetail y.toNat 0 s.ctx.seq ⟨fSymClaim, 3, 0, [], none⟩)
  else none

/-- The index list of s[SC] (R199): its length's limits, and its run. -/
def indexLimits (n : Nat) : Bool := decide (1 ≤ n ∧ n ≤ 2 ^ 20)
def indexRun (a n : Nat) : Bool := runOk a (8 * n) 8

/-- CPGTH (R199, R201). -/
def execCpgth (o : IndexOps) (s : State) : Out :=
  let idx := rdG s o.sc 0
  let n := rdG s o.sc 1
  let z := Ty.size o.ty
  let src := rdN s o.sa
  let dst := rdN s o.sb
  let last := n + 1340
  let lc := o.lc.map BitVec.toNat
  match o.sy with
  | some y =>
    if indexLimits n = false then .next (faultNow s fEncoding 0 [])
    else
      match syFault s y o.ty with
      | some (code, d) => .next (faultNow s code 0 d)
      | none =>
        let d := (getSy (cur s) y.toNat).desc
        cpIssue s [(indexRun idx n && destOk s dst (n * z) z, fPermission)] {}
          (fun s => startJob s (.gatherSy y.toNat dst idx n d) cpiSt o.run.toNat last lc)
  | none =>
    cpIssue s [(indexLimits n, fEncoding),
      (indexRun idx n && destOk s dst (n * z) z && (if o.mem then decide (src < 2 ^ 57) && src % z == 0 else runOk src z z),
        fPermission)] {}
      (fun s => startJob s (.gather src dst idx n o.ty o.mem) (if o.mem then cpiSt else cpoSt) o.run.toNat last lc)

/-- No slot that the index list names, as it stands at issue, lies in an open receive window (R215). -/
def scatterClear (s : State) (d : BitVec 512) (idx n z : Nat) : Bool :=
  let c := cur s
  !symSpad d || c.rwins.isEmpty || (List.range n).all (fun i =>
    match unlinear d (Memory.readNat c.spad (idx + 8 * i) 8) with
    | none => true
    | some x =>
      let (slot, _, zero, _) := canon d x
      zero || !inOpenWindow c (slotAddr d slot) z c.dcc)

/-- A scatter without an entry into scratchpad hits no window open at its issue, by the indices that its list then holds (R215; log 19). -/
def plainClear (c : CoreState) (dst idx n z : Nat) : Bool :=
  (List.range n).all (fun i => !inOpenWindow c ((dst + Memory.readNat c.spad (idx + 8 * i) 8 * z) % 2 ^ 64) z c.dcc)

/-- CPSCT (R199 to R201). -/
def execCpsct (o : IndexOps) (comb : Bool) (s : State) : Out :=
  let idx := rdG s o.sc 0
  let n := rdG s o.sc 1
  let z := Ty.size o.ty
  let src := rdN s o.sa
  let dst := rdN s o.sb
  let lc := o.lc.map BitVec.toNat
  match o.sy with
  | some y =>
    if indexLimits n = false then .next (faultNow s fEncoding 0 [])
    else
      match syFault s y o.ty with
      | some (code, d) => .next (faultNow s code 0 d)
      | none =>
        let d := (getSy (cur s) y.toNat).desc
        cpIssue s [(indexRun idx n && runOk src (n * z) z, fPermission), (scatterClear s d idx n z, fPermission)] {}
          (fun s => startJob s (.scatterSy y.toNat src idx n d comb) cpoSt o.run.toNat (2 * n + 1360) lc)
  | none =>
    cpIssue s [(indexLimits n && !(comb && o.ty == .nf), fEncoding),
      (indexRun idx n && runOk src (n * z) z && (if o.mem then decide (dst < 2 ^ 57) && dst % z == 0 else runOk dst z z),
        fPermission), (o.mem || plainClear (cur s) dst idx n z, fPermission)] {}
      (fun s => startJob s (.scatter src dst idx n o.ty o.mem comb) cpoSt o.run.toNat (n + 1340) lc)

end Sys2Proof.Machine
end

