-- ==== Sys2Proof/Machine/CpFill.lean ====
section
/-! DEFINITION. Fills of the crucible, pattern memory and codebooks, codebook expansion, symmetric expansion and folds at their
issue (R202 to R208). -/

namespace Sys2Proof.Machine

/-- The run from the lowest to the highest byte of a fill's source rows. -/
def fillRunOk (src : Nat) (stride : Int) (rows bytes align : Nat) : Bool :=
  let e := (rows - 1 : Nat) * stride
  let lo := (src : Int) + min 0 e
  let hi := (src : Int) + max 0 e + bytes
  decide (0 ≤ lo) && src % align == 0 && (rows == 1 || stride % align == 0) && spadRunOk lo.toNat (hi - lo).toNat

/-- The source side of a fill (R193, R202): its address checks, then the span to the CE; a CPFILL's slot is looked at last. Where more
than one of the three fails at once, the order is the model's (log 97). -/
def fillChecks (src : Nat) (stride : Int) (rows bytes align : Nat) (run : Run) (mem : Bool) : List (Bool × Nat) :=
  if mem then [(src % 64 == 0 && stride % 64 == 0 && decide (src < 2 ^ 57), fPermission)]
  else [(fillRunOk src stride rows bytes align, fPermission), (decide (spanOf run.toNat (blkSt (blkOf src)) ceSt ≤ 7), fEncoding)]

/-- The stride of a fill: s[SB][63:32], signed. -/
def fillStride (s : State) (sb : SReg) : Int := asSigned 32 (bits (rdN s sb) 32 32)

/-- A slot is CLAIMED (R203). -/
def slotClaimed (s : State) (n : Nat) : Bool := (getSlot (cur s) n).st == .claimed

/-- A fill of one of the CE-side memories (R202, R204). -/
def cpFill (s : State) (kind num : Nat) (sa sb : SReg) (run : Run) (mem : Bool) (rows cols size : Nat) (ty : Ty)
    (own : List (Bool × Nat)) (late : List (Bool × Nat)) : Out :=
  let src := rdN s sa
  let stride := fillStride s sb
  cpIssue s (own ++ fillChecks src stride rows (cols * size) size run mem ++ late)
    { addrs := if mem then (fillGranules src stride rows (cols * size)).map Prod.fst else [], perms := [pRD] }
    (fun s => startJob s (.fill kind num src stride rows cols size ty mem) (if mem then cpiSt else cpoSt) run.toNat
      (if mem then 1300 else 60) none)

/-- CPFILL (R202, R203). -/
def execCpfill (sa sb : SReg) (slot : BitVec 5) (run : Run) (ty : Ty) (mem : Bool) (s : State) : Out :=
  let rows := bits (rdN s sb) 0 5 + 1
  let cols := bits (rdN s sb) 5 6 + 1
  let z := Ty.size ty
  cpFill s 0 slot.toNat sa sb run mem rows cols z ty
    [(ty != .b1 && decide (cols * z ≤ 128) && decide (rows * (cols * z) ≤ 2048), fEncoding)]
    [(slotClaimed s slot.toNat, fCrucible)]

/-- CPPAT (R204). -/
def execCppat (sa sb : SReg) (pm : BitVec 3) (run : Run) (mem : Bool) (s : State) : Out :=
  cpFill s 1 pm.toNat sa sb run mem 8 128 1 .n8 [] []

/-- CPCBK (R204). -/
def execCpcbk (sa sb : SReg) (k : BitVec 2) (run : Run) (mem : Bool) (s : State) : Out :=
  cpFill s 2 k.toNat sa sb run mem 16 128 1 .n8 [] []

/-- CPVQ (R205). -/
def execCpvq (sa sb : SReg) (slot : BitVec 5) (run : Run) (ty : Ty) (rows : BitVec 6) (sp : Bool) (k : BitVec 2) (s : State) : Out :=
  let src := rdN s sa
  let dst := rdN s sb
  let n := if sp then rows.toNat + 1 else 32
  cpIssue s
    [(ty == .f16 || ty == .bf16, fEncoding),
     (runOk src (if sp then 16 * n else 256) 1 && (!sp || destOk s dst (128 * n) 2), fPermission),
     (sp || slotClaimed s slot.toNat, fCrucible)] {}
    (fun s => startJob s (.vq slot.toNat src dst n ty sp k.toNat) cpoSt run.toNat 110 none)

-- Expansion and folds (R206 to R208) ------------------------------------------------------------------------------------------

/-- What the origin group gives (R206): row0, ROWS, COLS, the column origin, and the indices of the other dimensions. -/
structure Origin where
  row0 : Nat
  rows : Nat
  cols : Nat
  col0 : Nat
  tup : List Nat
  deriving DecidableEq, Repr

/-- The indices of the dimensions other than RDIM and CDIM, 16 bits each from s[SA+1] on, in increasing order. -/
def otherIndices (s : State) (sa : SReg) (rank rdim cdim : Nat) : List Nat :=
  let others := (List.range rank).filter (fun d => d ≠ rdim ∧ d ≠ cdim)
  (List.range rank).map (fun d =>
    let p := others.idxOf d
    if p < others.length then bits (rdG s sa (1 + p / 4)) (16 * (p % 4)) 16 else 0)

/-- Read the origin group. -/
def originOf (s : State) (sa : SReg) (rank rdim cdim : Nat) : Origin :=
  let g := rdG s sa 0
  ⟨bits g 0 16, bits g 16 5 + 1, bits g 21 6 + 1, bits g 32 16, otherIndices s sa rank rdim cdim⟩

/-- The checks of R206. -/
def originOk (o : Origin) (d : BitVec 512) (rdim cdim z : Nat) : Bool :=
  rdim != cdim && decide (rdim < symRank d) && decide (cdim < symRank d) && decide (o.cols * z ≤ 128) &&
    decide (o.rows * (o.cols * z) ≤ 2048)

/-- Every index of the tile lies within the extents (R74). -/
def tileInside (o : Origin) (d : BitVec 512) (rdim cdim col0 : Nat) : Bool :=
  inExtents d (tileIndex o.tup rdim cdim (o.row0 + o.rows - 1) (col0 + o.cols - 1) 0 0)

/-- The entry's validity comes first, then the checks of R206, the type (R91), the extents (R74). -/
def tileFault (s : State) (y : BitVec 4) (t : Ty) (o : Origin) (rdim cdim col0 : Nat) : Option (Nat × List Word) :=
  let e := getSy (cur s) y.toNat
  if e.valid = false ∨ originOk o e.desc rdim cdim (Ty.size t) = false then some (fEncoding, [])
  else
    match syFault s y t with
    | some f => some f
    | none => if tileInside o e.desc rdim cdim col0 then none else some (fPermission, [])

/-- Every row of an expansion's scratchpad destination (R193, R207): one run of rows at 128 bytes. -/
def expandDest (s : State) (dst : Nat) (o : Origin) (z : Nat) : Bool :=
  runOk dst (128 * (o.rows - 1) + o.cols * z) z &&
    (List.range o.rows).all (fun i => !inOpenWindow (cur s) (dst + 128 * i) (o.cols * z) (cur s).dcc)

/-- CPEXP (R206, R207). -/
def execCpexp (sa sb : SReg) (slot : BitVec 5) (y : BitVec 4) (run : Run) (ty : Ty) (rdim cdim : BitVec 3) (sp : Bool) (s : State) : Out :=
  let d := (getSy (cur s) y.toNat).desc
  let o := originOf s sa (symRank d) rdim.toNat cdim.toNat
  let dst := rdN s sb
  let z := Ty.size ty
  match tileFault s y ty o rdim.toNat cdim.toNat o.col0 with
  | some (code, det) => .next (faultNow s code 0 det)
  | none =>
    let tup := (o.tup.set rdim.toNat o.row0).set cdim.toNat o.col0
    let (slot0, _, zero, _) := canon d (tileIndex tup rdim.toNat cdim.toNat o.row0 o.col0 0 0)
    cpIssue s [(!sp || expandDest s dst o z, fPermission), (sp || slotClaimed s slot.toNat, fCrucible)]
      { addrs := if symSpad d || zero then [] else [slotAddr d slot0], n := z, align := z, perms := [pRD] }
      (fun s => startJob s (.expand slot.toNat y.toNat 0 dst o.rows o.cols tup rdim.toNat cdim.toNat d sp) cpiSt run.toNat
        (expandQ (symSpad d) + o.rows * o.cols + 40) none)

/-- The members of a fold's region, with no data: they fix the ranks that are written (R208). -/
def foldShape (o : Origin) (rdim cdim col0 : Nat) : List Member :=
  (List.range (o.rows * o.cols)).map (fun e => (tileIndex o.tup rdim cdim o.row0 col0 (e / o.cols) (e % o.cols), 0))

/-- The ranks that a CPFLD writes (R208): K of them. -/
def foldRanks (s : State) (sa sb : SReg) (y : BitVec 4) (rdim cdim : Nat) : List Nat :=
  let d := (getSy (cur s) y.toNat).desc
  ranksOf d (foldShape (originOf s sa (symRank d) rdim cdim) rdim cdim (bits (rdN s sb) 0 16))

/-- CPFLD (R206, R208). -/
def execCpfld (sa sb : SReg) (tile y : BitVec 4) (run : Run) (ty : Ty) (rdim cdim : BitVec 3) (s : State) : Out :=
  let d := (getSy (cur s) y.toNat).desc
  let o := originOf s sa (symRank d) rdim.toNat cdim.toNat
  let col0 := bits (rdN s sb) 0 16
  match tileFault s y ty o rdim.toNat cdim.toNat col0 with
  | some (code, det) => .next (faultNow s code 0 det)
  | none =>
    let ranks := foldRanks s sa sb y rdim.toNat cdim.toNat
    let z := Ty.size ty
    cpIssue s [(!symSpad d || ranks.all (fun r => destOk s (slotAddr d r) z z), fPermission)] {}
      (fun s =>
        let s' := startJob s (.fold tile.toNat y.toNat o.rows o.cols o.row0 col0 o.tup rdim.toNat cdim.toNat d
          (Sparse.get 2 (cur s).tags tile.toNat)) cpoSt run.toNat (o.rows + 1320 + ranks.length) none
        modCur s' (fun c => { c with jobs := c.jobs.map (fun j => if j.stream = .cp ∧ j.seq = s.ctx.seq then { j with nums := ranks } else j) }))

end Sys2Proof.Machine
end

