-- ==== Sys2Proof/Machine/CpExchange.lean ====
section
/-! DEFINITION. Sum cells, windows and timed exchange of the copy engine at their issue (R209 to R217). -/

namespace Sys2Proof.Machine

/-- The address form of a cell (R209): a multiple of 64 with bits 63:57 zero. -/
def cellForm (a : Nat) : Bool := a % 64 == 0 && decide (a < 2 ^ 57)

/-- The request that an active command makes for its cell at issue. -/
def cellAsk (a : Nat) : Asks := { addrs := [a], perms := [pAT], kind := 6 }

/-- The same once it has not failed: the watch test, and the request from a station (R104, R280). -/
def withCell (s : State) (station a : Nat) (f : Nat → State → State) : State :=
  let s := watchNow s a 64 6
  match lookupNow s a [pAT] with
  | .ok _ key => f key (requestNow s station)
  | .nowhere => deadEnd s
  | .fault .. => s

/-- CPCINI (R209): GRID first, then the address form, then the lookup. -/
def execCpcini (sb sc : SReg) (s : State) : Out :=
  let a := rdN s sb
  let g := rdInt s sc 0
  cpIssue s [(decide (-149 ≤ g ∧ g ≤ 319), fEncoding), (cellForm a, fPermission)] (cellAsk a)
    (fun s => if s.ctx.active then
      withCell s cpoSt a (fun key s => addFlight s s.ctx.core (flightOf s Config.memLatency cpoSt (.cellInit key g))) else s)

/-- CPATOM (R210). -/
def execCpatom (sa sb sc : SReg) (ty : Ty) (run : Run) (per : Bool) (s : State) : Out :=
  let n := rdN s sc
  let src := rdN s sa
  let cell := rdN s sb
  let z := Ty.size ty
  cpIssue s [(decide (1 ≤ n ∧ n ≤ 65536), fEncoding), (runOk src (n * z) z && cellForm cell, fPermission)]
    (cellAsk cell)
    (fun s => startJob s (.cpatom src cell n ty per) cpoSt run.toNat (n + 20) none)

/-- CPCRD (R211). -/
def execCpcrd (sa sb : SReg) (ty : Ty) (run : Run) (raw : Bool) (s : State) : Out :=
  let dst := rdN s sa
  let cell := rdN s sb
  cpIssue s [((if raw then destOk s dst 80 64 else destOk s dst 16 16) && cellForm cell, fPermission)]
    (cellAsk cell)
    (fun s =>
      let s := startJob s (.cpcrd dst cell ty raw) cpiSt run.toNat 1300 none
      if s.ctx.active then
        withCell s cpiSt cell (fun key s => addFlight s s.ctx.core (flightOf s (Config.memLatency - 1) cpiSt (.cellRead key ty raw dst run.toNat)))
      else s)

-- Windows (R212, R292) ---------------------------------------------------------------------------------------------------------

/-- The window record that a core's partition holds. -/
def windowOf (s : State) (k w : Nat) : List Word := Sparse.get [] (getPkg s (pkgOf k)).windows (ownPart s k * 256 + w)

/-- A window is registered, and a run at an offset stays inside it (R212); offsets are multiples of 64 (R193). -/
def windowHolds (r : List Word) (off n : Nat) : Bool :=
  bits (r.getD 2 0).toNat 63 1 == 1 && off % 64 == 0 && decide (off + n ≤ bits (r.getD 1 0).toNat 0 40)

/-- The length of a window transfer (R212). -/
def windowLength (n : Nat) : Bool := n % 64 == 0 && decide (n ≤ 2 ^ 24)

/-- A transfer in transit for the command being executed. -/
def newXfer (s : State) (get : Bool) (win lc : Nat) (spad off len : Nat) : Xfer :=
  let k := s.ctx.core
  { id := s.nextId, get := get, cast := false, pkg := pkgOf k, part := ownPart s k, win := win, core := k
    stream := s.ctx.stream, pid := (cur s).pid
    region := match domOf s k with | some d => d.region | none => (getPart s (pkgOf k) (ownPart s k)).root
    asid := asidOfCore s k, mouldNo := match domOf s k with | some d => d.mouldNo | none => 0
    lc := lc, spad := spad, off := off, len := len, start := s.clock, record := windowOf s k win }

/-- The header of a send, put or get leaves with the command (R116): what a pair's copies are compared on. -/
def leaveHeader (s : State) (station : Nat) (words : List Nat) : State :=
  modCur s (fun c => { c with leaving := c.leaving ++ [{ flightOf s 0 station (.header words) with cmp := false }] })

/-- The transfer of the command being executed: a length of 0 moves nothing (R212). -/
def startXfer (s : State) (x : Xfer) : State :=
  if x.len = 0 then s else { s with xfers := s.xfers ++ [x], nextId := x.id + 1 }

/-- The secondary of a pair starts no transfer of its own (R115, R116). -/
def ownsTraffic (s : State) : Bool :=
  match domOf s s.ctx.core with
  | some d => primaryOf d s.ctx.core == s.ctx.core
  | none => true

/-- CPPUT (R212); its granules are 64 bytes of scratchpad (R193; log 66). -/
def execCpput (sa sb sc : SReg) (lc : BitVec 6) (win : BitVec 8) (run : Run) (s : State) : Out :=
  let src := rdN s sa
  let off := rdN s sb
  let n := rdN s sc
  cpIssue s [(windowLength n, fEncoding), (windowHolds (windowOf s s.ctx.core win.toNat) off n && runOk src n 64, fPermission)]
    {}
    (fun s =>
      let own := if s.ctx.active ∧ ownsTraffic s then [s.nextId] else []
      let s := if s.ctx.active then leaveHeader s cpoSt [1, win.toNat, off, n] else s
      let s := if own.isEmpty then s else startXfer s (newXfer s false win.toNat lc.toNat src off n)
      let s := startJob s (.put src off n win.toNat lc.toNat) cpoSt run.toNat (n / 64 + 20) none
      modCur s (fun c => { c with jobs := c.jobs.map (fun j => if j.stream = .cp ∧ j.seq = s.ctx.seq then { j with nums := own } else j) }))

/-- CPGET (R212): the request leaves at issue; it has no landing cycle. -/
def execCpget (sa sb sc : SReg) (lc : BitVec 6) (win : BitVec 8) (s : State) : Out :=
  let dst := rdN s sa
  let off := rdN s sb
  let n := rdN s sc
  cpIssue s [(windowLength n, fEncoding), (windowHolds (windowOf s s.ctx.core win.toNat) off n && runOk dst n 64, fPermission)]
    {}
    (fun s =>
      let s := if s.ctx.active then leaveHeader s cpiSt [2, win.toNat, off, n] else s
      if s.ctx.active ∧ ownsTraffic s then startXfer s (newXfer s true win.toNat lc.toNat dst off n) else s)

-- Timed exchange (R214 to R217) ---------------------------------------------------------------------------------------------------

/-- The length of a send or a buffer (R214, R215). -/
def exchangeLength (n : Nat) : Bool := n % 128 == 0 && decide (128 ≤ n ∧ n ≤ 2 ^ 20)

/-- Sends and receive buffers are aligned to 8 bytes, the widest element of R217, so that no element is split (R193, R216; log 66). -/
def beatAlign : Nat := 8

/-- The remote XP's placements and landings for the beats of a send (R214), on the receiving core. -/
def remotePlan (s : State) (k : Nat) (addr run first beats : Nat) : State :=
  let b := blkOf addr
  let sp := spanOf run xpSt (blkSt b)
  let job : Job :=
    { kind := .plan ((List.range beats).flatMap (fun i => [(first + i - sp - 1, .placeBeat xpSt sp (addr + 128 * i)), (first + i, .writeBeat b (addr + 128 * i))]))
      stream := s.ctx.stream, station := xpSt, seq := s.ctx.seq, issue := (cur s).dcc, cmp := false, run := run, lc := none
      active := false, last := (cur s).dcc + first + beats, todo := (cur s).dcc, stat := (cur s).dcc }
  modCore s k (fun c => { c with remote := c.remote ++ [job] })

/-- CPXSND (R214). -/
def execCpxsnd (sa sb sc : SReg) (run : Run) (s : State) : Out :=
  let src := rdN s sa
  let g := rdN s sb
  let n := rdN s sc
  let raddr := bits g 32 21
  let rrun := bits g 56 3
  match domOf s s.ctx.core with
  | none => .next (faultNow s fPermission 0 [])
  | some d =>
    let rcore := d.cores[bits g 0 17]?
    cpIssue s [(exchangeLength n, fEncoding), (runOk src n beatAlign && rcore.isSome && runOk raddr n beatAlign, fPermission)] {}
      (fun s =>
        let r := rcore.getD 0
        let beats := n / 128
        let s := if s.ctx.active then leaveHeader s cpoSt [3, r, raddr, rrun, n] else s
        let s := startJob s (.send src r raddr rrun beats) cpoSt run.toNat (beats + 40) none
        if ownsTraffic s then
          let s := remotePlan s r raddr rrun (exchangeLatency s.ctx.core r) beats
          match partnerOf d r with
          | some q => remotePlan s q raddr rrun (exchangeLatency s.ctx.core r) beats
          | none => s
        else s)

/-- A new window overlaps no window open from issue + 1 on, and is not a seventeenth (R216). -/
def windowRoom (c : CoreState) (a n : Nat) : Bool :=
  let live := c.rwins.filter (fun w => c.dcc + 1 ≤ w.closes)
  decide (live.length < 16) && !live.any (fun w => runsMeet a n w.addr w.len)

/-- Open a receive window (R215); one that closes in its issue cycle closes without an arrival. -/
def openWindow (s : State) (a n close expect : Nat) (red : Option Ty) : State :=
  let c := cur s
  if close = c.dcc then takeFault s s.ctx.core s.ctx.stream s.ctx.unit s.ctx.hdr.evt.toNat fSchedule 5 [toWord s.ctx.seq]
  else modCur s (fun c => { c with rwins := c.rwins ++ [⟨a, n, c.dcc + 1, close, 0, expect, red, s.ctx.stream, s.ctx.seq, s.ctx.hdr.evt.toNat⟩] })

/-- CPXRCV and CPXRED (R215 to R217). -/
def receive (s : State) (sa sb sc : SReg) (senders align : Nat) (red : Option Ty) : Out :=
  let a := rdN s sa
  let n := rdN s sb
  let close := rdN s sc
  cpIssue s [(exchangeLength n && decide ((cur s).dcc ≤ close), fEncoding), (runOk a n align && windowRoom (cur s) a n, fPermission)]
    {} (fun s => if s.ctx.active then openWindow s a n close (senders * n) red else s)

/-- CPXRCV (R215). -/
def execCpxrcv (sa sb sc : SReg) (s : State) : Out := receive s sa sb sc 1 beatAlign none

/-- CPXRED (R217). -/
def execCpxred (sa sb sc : SReg) (ty : Ty) (snd : BitVec 4) (s : State) : Out :=
  receive s sa sb sc (snd.toNat + 1) (Ty.size ty) (some ty)

end Sys2Proof.Machine
end

