-- ==== Sys2Proof/Machine/VecArith.lean ====
section
/-! DEFINITION. Vector arithmetic, conversion, comparison, selection, special functions and draws (R226 to R234, R243), with
their immediate forms (R225). -/

namespace Sys2Proof.Machine

/-- The low bits of an integer result (R227). -/
def wrapLane (t : Ty) (x : Int) : Nat × Flags := (intCode (Ty.bits t) x, 0)

/-- a + b (R227); `d` holds the descriptors of nf operands and results. -/
def addLane (dA dB : Nat) (t : Ty) (rm : Rm) (a b : Nat) : Nat × Flags :=
  if Ty.isFloat t then numLane t dB rm (Num.add rm (laneNum t dA a) (laneNum t dA b))
  else wrapLane t (intOf t a + intOf t b)

/-- a - b (R227). -/
def subLane (dA dB : Nat) (t : Ty) (rm : Rm) (a b : Nat) : Nat × Flags :=
  if Ty.isFloat t then numLane t dB rm (Num.add rm (laneNum t dA a) (laneNum t dA b).neg)
  else wrapLane t (intOf t a - intOf t b)

/-- a * b (R227). -/
def mulLane (dA dB : Nat) (t : Ty) (rm : Rm) (a b : Nat) : Nat × Flags :=
  if Ty.isFloat t then numLane t dB rm ((laneNum t dA a).mul (laneNum t dA b))
  else wrapLane t (intOf t a * intOf t b)

/-- a * b + c, or a * b - c, with one rounding (R227). -/
def fmaLane (sub : Bool) (dA dB : Nat) (t : Ty) (rm : Rm) (a b c : Nat) : Nat × Flags :=
  if Ty.isFloat t then
    let z := laneNum t dA c
    numLane t dB rm (Num.add rm ((laneNum t dA a).mul (laneNum t dA b)) (if sub then z.neg else z))
  else wrapLane t (if sub then intOf t a * intOf t b - intOf t c else intOf t a * intOf t b + intOf t c)

/-- The smaller or larger of two values by R228; with one NaN the other, with two a NaN. -/
def pickNum (max : Bool) (x y : Num) : Num × Flags :=
  let inv := if x.isSig || y.isSig then fINV else 0
  (match x, y with
    | .nan _, .nan _ => .nan false
    | .nan _, b => b
    | a, .nan _ => a
    | a, b => if (if max then a.below b else b.below a) then b else a, inv)

/-- VMIN and VMAX (R228). -/
def minMaxLane (max : Bool) (dA dB : Nat) (t : Ty) (rm : Rm) (a b : Nat) : Nat × Flags :=
  if Ty.isFloat t then
    let (v, inv) := pickNum max (laneNum t dA a) (laneNum t dA b)
    let (c, fl) := numLane t dB rm v
    (c, fl ||| inv)
  else
    let x := intOf t a
    let y := intOf t b
    (intCode (Ty.bits t) (if max then (if x < y then y else x) else (if y < x then y else x)), 0)

/-- VNEG (R228). -/
def negLane (dA dB : Nat) (t : Ty) (rm : Rm) (a : Nat) : Nat × Flags :=
  if t = .nf then numLane t dB rm (laneNum t dA a).neg else negCode t 0 a

/-- VABS (R228). -/
def absLane (dA dB : Nat) (t : Ty) (rm : Rm) (a : Nat) : Nat × Flags :=
  if Ty.isFloat t then numLane t dB rm (absNum (laneNum t dA a))
  else clampInt t ((intOf t a).natAbs : Int)

/-- VDIV, VSQRT, VRCP, VRSQ (R229). -/
def divLane (dA dB : Nat) (t : Ty) (rm : Rm) (a b : Nat) : Nat × Flags :=
  divNum (fmtOf t dB) rm (laneNum t dA a) (laneNum t dA b)
def sqrtLane (dA dB : Nat) (t : Ty) (rm : Rm) (a : Nat) : Nat × Flags := sqrtNum (fmtOf t dB) rm (laneNum t dA a)
def rcpLane (dA dB : Nat) (t : Ty) (rm : Rm) (a : Nat) : Nat × Flags := rcpNum (fmtOf t dB) rm (laneNum t dA a)
def rsqLane (dA dB : Nat) (t : Ty) (rm : Rm) (a : Nat) : Nat × Flags := rsqNum (fmtOf t dB) rm (laneNum t dA a)

/-- The special functions (R230). -/
def fnLane (fn : Fn) (dA dB : Nat) (t : Ty) (a : Nat) : Nat × Flags :=
  if t = .f32 then fnF32 fn (laneNum t dA a) else fnSmall (fmtOf t dB) fn (laneNum t dA a)

/-- Whether a comparison holds (R233), with its invalid flag. -/
def condNum (cc : Cond) (x y : Num) : Bool × Flags :=
  let un := x.isNan || y.isNan
  let sig := x.isSig || y.isSig
  let c := x.cmp y
  match cc with
  | .eq => (!un && c == 0, if sig then fINV else 0)
  | .ne => (un || c != 0, if sig then fINV else 0)
  | .lt => (!un && c == -1, if un then fINV else 0)
  | .le => (!un && c != 1, if un then fINV else 0)
  | .gt => (!un && c == 1, if un then fINV else 0)
  | .ge => (!un && c != -1, if un then fINV else 0)
  | .un => (un, if sig then fINV else 0)
  | .or => (!un, if sig then fINV else 0)

/-- The mask bit of a lane (R233). -/
def cmpLane (dA : Nat) (t : Ty) (cc : Cond) (a b : Nat) : Bool × Flags :=
  if Ty.isFloat t then condNum cc (laneNum t dA a) (laneNum t dA b)
  else condNum cc (numOfInt (intOf t a)) (numOfInt (intOf t b))

/-- Conversion of one value (R232): source type, destination type, mode, and the draw for R44. -/
def cvtLane (dA dB : Nat) (src dst : Ty) (rm : Rm) (d24 a : Nat) : Nat × Flags :=
  if Ty.isFloat src then
    let x := laneNum src dA a
    if Ty.isFloat dst then
      if rm = .rs then roundStoch (fmtOf dst dB) x d24 else numLane dst dB rm x
    else numToInt dst rm x
  else if Ty.isFloat dst then
    let x := numOfInt (intOf src a)
    if rm = .rs then roundStoch (fmtOf dst dB) x d24 else numLane dst dB rm x
  else clampInt dst (intOf src a)

-- Shapes of command ----------------------------------------------------------------------------------------------------

/-- The format word is read for nf (R219). -/
def isNf (t : Ty) : Bool := t == .nf

/-- A lane-wise command of two sources. -/
def arith2 (o : VOps) (delay : Nat) (f : Nat → Nat → Nat → Nat → Nat × Flags) (s : State) : Host.Outcome State Fault Refusal :=
  veLanes s o.vd o.prd o.z o.ty (isNf o.ty) true [o.va, o.vb] [] delay (fun c e =>
    f (descA c) (descB c) (elemAt c o.ty o.va.toNat e) (elemAt c o.ty o.vb.toNat e))

/-- A lane-wise command of two sources and the destination. -/
def arith3 (o : VOps) (delay : Nat) (f : Nat → Nat → Nat → Nat → Nat → Nat × Flags) (s : State) :
    Host.Outcome State Fault Refusal :=
  veLanes s o.vd o.prd o.z o.ty (isNf o.ty) true [o.va, o.vb] [] delay (fun c e =>
    f (descA c) (descB c) (elemAt c o.ty o.va.toNat e) (elemAt c o.ty o.vb.toNat e) (elemAt c o.ty o.vd.toNat e))

/-- A lane-wise command of one source. -/
def arith1 (o : VOps1) (delay : Nat) (f : Nat → Nat → Nat → Nat × Flags) (s : State) : Host.Outcome State Fault Refusal :=
  veLanes s o.vd o.prd o.z o.ty (isNf o.ty) true [o.va] [] delay (fun c e =>
    f (descA c) (descB c) (elemAt c o.ty o.va.toNat e))

/-- An immediate form: VD is the first source, the broadcast immediate the second (R225). -/
def arithImm (o : VImm) (delay : Nat) (f : Nat → Nat → Nat → Nat → Nat × Flags) (s : State) :
    Host.Outcome State Fault Refusal :=
  veLanes s o.vd o.prd o.z o.ty (isNf o.ty) true [] [(immTypeOk o.ty, fEncoding)] delay (fun c e =>
    f (descA c) (descB c) (elemAt c o.ty o.vd.toNat e) (immLane o.ty o.imm (e % Ty.lanes o.ty)))

/-- A comparison posts its mask bits and flags (R233). -/
def postCmp (s : State) (md : Nat) (t : Ty) (z : Bool) (p : VPred) (f : Nat → Bool × Flags) : State :=
  if p.any then
    let L := Ty.lanes t
    let out := (List.range L).map (fun e => if p.act.getD e false then some (f e) else none)
    let v := out.map (fun o => match o with | some x => if x.1 then 1 else 0 | none => 0)
    -- bits at and beyond L are cleared; an inactive bit is cleared under Z = 1 and else kept
    let en := (List.range 128).map (fun e => if e ≥ L ∨ z ∨ p.act.getD e false then 1 else 0)
    let s := vePost s 2 (.mask md (BitVec.ofNat 128 (packLanes 1 en)) (BitVec.ofNat 128 (packLanes 1 v)))
    postFlags s 2 veSt .ve (orFlags ((out.filterMap id).map (fun x => (0, x.2))))
  else s

-- The meanings ---------------------------------------------------------------------------------------------------------

/-- VADD (R227). -/
def execVadd (o : VOps) (rm : Rm) (s : State) : Host.Outcome State Fault Refusal :=
  arith2 o 2 (fun dA dB a b => addLane dA dB o.ty rm a b) s
/-- VSUB (R227). -/
def execVsub (o : VOps) (rm : Rm) (s : State) : Host.Outcome State Fault Refusal :=
  arith2 o 2 (fun dA dB a b => subLane dA dB o.ty rm a b) s
/-- VMUL (R227). -/
def execVmul (o : VOps) (rm : Rm) (s : State) : Host.Outcome State Fault Refusal :=
  arith2 o 4 (fun dA dB a b => mulLane dA dB o.ty rm a b) s
/-- VFMA (R227). -/
def execVfma (o : VOps) (rm : Rm) (s : State) : Host.Outcome State Fault Refusal :=
  arith3 o 4 (fun dA dB a b c => fmaLane false dA dB o.ty rm a b c) s
/-- VFMS (R227). -/
def execVfms (o : VOps) (rm : Rm) (s : State) : Host.Outcome State Fault Refusal :=
  arith3 o 4 (fun dA dB a b c => fmaLane true dA dB o.ty rm a b c) s
/-- VNEG (R228). -/
def execVneg (o : VOps1) (rm : Rm) (s : State) : Host.Outcome State Fault Refusal :=
  arith1 o 2 (fun dA dB a => negLane dA dB o.ty rm a) s
/-- VABS (R228). -/
def execVabs (o : VOps1) (rm : Rm) (s : State) : Host.Outcome State Fault Refusal :=
  arith1 o 2 (fun dA dB a => absLane dA dB o.ty rm a) s
/-- VMIN (R228). -/
def execVmin (o : VOps) (rm : Rm) (s : State) : Host.Outcome State Fault Refusal :=
  arith2 o 2 (fun dA dB a b => minMaxLane false dA dB o.ty rm a b) s
/-- VMAX (R228). -/
def execVmax (o : VOps) (rm : Rm) (s : State) : Host.Outcome State Fault Refusal :=
  arith2 o 2 (fun dA dB a b => minMaxLane true dA dB o.ty rm a b) s
/-- VDIV (R229). -/
def execVdiv (o : VOps) (rm : Rm) (s : State) : Host.Outcome State Fault Refusal :=
  arith2 o 12 (fun dA dB a b => divLane dA dB o.ty rm a b) s
/-- VSQRT (R229). -/
def execVsqrt (o : VOps1) (rm : Rm) (s : State) : Host.Outcome State Fault Refusal :=
  arith1 o 12 (fun dA dB a => sqrtLane dA dB o.ty rm a) s
/-- VRCP (R229). -/
def execVrcp (o : VOps1) (rm : Rm) (s : State) : Host.Outcome State Fault Refusal :=
  arith1 o 12 (fun dA dB a => rcpLane dA dB o.ty rm a) s
/-- VRSQ (R229). -/
def execVrsq (o : VOps1) (rm : Rm) (s : State) : Host.Outcome State Fault Refusal :=
  arith1 o 12 (fun dA dB a => rsqLane dA dB o.ty rm a) s

/-- PART's bound and the lanes of a conversion (R231): the source lane of a destination lane that takes part. -/
def cvtSource (src dst : Ty) (part j : Nat) : Option Nat :=
  let Ls := Ty.lanes src
  let Ld := Ty.lanes dst
  if Ls < Ld then (if part * Ls ≤ j ∧ j < part * Ls + Ls then some (j - part * Ls) else none)
  else some (part * Ld + j)

def cvtParts (src dst : Ty) : Nat := max (Ty.lanes src) (Ty.lanes dst) / min (Ty.lanes src) (Ty.lanes dst)

/-- VCVT (R231, R232). A destination lane outside the converted set is never written. -/
def execVcvt (o : VOps1) (src : Ty) (part : BitVec 3) (rm : Rm) (s : State) : Host.Outcome State Fault Refusal :=
  let c := cur s
  checked s (fmtChecks c (isNf o.ty || isNf src) ++ predChecks c o.prd o.ty false [o.vd.toNat, o.va.toNat] ++
      [(decide (part.toNat < cvtParts src o.ty), fEncoding)])
    (fun s =>
      let p := predNow s o.prd o.ty
      if p.any then
        let lane := fun j src' => cvtLane (descA c) (descB c) src o.ty rm
          (draw c.ve.seed.toNat c.pid s.ctx.seq j / 256) (laneAt (Ty.bits src) (getRow c o.va.toNat) src')
        let out := (List.range (Ty.lanes o.ty)).map (fun j =>
          match cvtSource src o.ty part.toNat j with
          | none => (none, none)
          | some k => if p.act.getD j false then (some (lane j k).1, some (lane j k)) else (if o.z then some 0 else none, none))
        postFlags (postRow s 4 o.vd.toNat o.ty (out.map Prod.fst)) 4 veSt .ve (orFlags (out.filterMap Prod.snd))
      else s)

/-- VCMP (R233). -/
def execVcmp (md : BitVec 4) (va vb : VReg) (prd : Prd) (z : Bool) (ty : Ty) (cc : Cond) (s : State) :
    Host.Outcome State Fault Refusal :=
  let c := cur s
  checked s (fmtChecks c (isNf ty) ++ predChecks c prd ty false [va.toNat, vb.toNat])
    (fun s => postCmp s md.toNat ty z (predNow s prd ty) (fun e =>
      cmpLane (descA c) ty cc (elemAt c ty va.toNat e) (elemAt c ty vb.toNat e)))

/-- VSEL (R234): the mask selects and does not predicate. -/
def execVsel (vd va vb : VReg) (m : BitVec 4) (ty : Ty) (s : State) : Host.Outcome State Fault Refusal :=
  let c := cur s
  checked s [] (fun s =>
    if s.ctx.active then
      postRow s 2 vd.toNat ty ((List.range (Ty.lanes ty)).map (fun e =>
        some (if (getMask c m.toNat).getLsbD e then elemAt c ty va.toNat e else elemAt c ty vb.toNat e)))
    else s)

/-- VEXP2 (R230). -/
def execVexp2 (o : VOps1) (s : State) : Host.Outcome State Fault Refusal :=
  arith1 o 12 (fun dA dB a => fnLane .exp2 dA dB o.ty a) s
/-- VLOG2 (R230). -/
def execVlog2 (o : VOps1) (s : State) : Host.Outcome State Fault Refusal :=
  arith1 o 12 (fun dA dB a => fnLane .log2 dA dB o.ty a) s
/-- VEXP (R230). -/
def execVexp (o : VOps1) (s : State) : Host.Outcome State Fault Refusal :=
  arith1 o 12 (fun dA dB a => fnLane .exp dA dB o.ty a) s
/-- VLOG (R230). -/
def execVlog (o : VOps1) (s : State) : Host.Outcome State Fault Refusal :=
  arith1 o 12 (fun dA dB a => fnLane .log dA dB o.ty a) s
/-- VSINPI (R230). -/
def execVsinpi (o : VOps1) (s : State) : Host.Outcome State Fault Refusal :=
  arith1 o 12 (fun dA dB a => fnLane .sinpi dA dB o.ty a) s
/-- VCOSPI (R230). -/
def execVcospi (o : VOps1) (s : State) : Host.Outcome State Fault Refusal :=
  arith1 o 12 (fun dA dB a => fnLane .cospi dA dB o.ty a) s
/-- VTANH (R230). -/
def execVtanh (o : VOps1) (s : State) : Host.Outcome State Fault Refusal :=
  arith1 o 12 (fun dA dB a => fnLane .tanh dA dB o.ty a) s

/-- A draw read by type (R243). -/
def drawLane (t : Ty) (d : Nat) : Nat :=
  match t with
  | .f32 | .f64 => (numLane t 0 .rne (.fin false (d / 256) (-24))).1
  | _ => d

/-- VRAND (R243). -/
def execVrand (vd : VReg) (prd : Prd) (z : Bool) (ty : Ty) (s : State) : Host.Outcome State Fault Refusal :=
  veLanes s vd prd z ty false false [] [] 4 (fun c e => (drawLane ty (draw c.ve.seed.toNat c.pid s.ctx.seq e), 0))

/-- VMOV (R226). -/
def execVmov (o : VOps1) (s : State) : Host.Outcome State Fault Refusal :=
  veLanes s o.vd o.prd o.z o.ty false true [o.va] [] 2 (fun c e => (elemAt c o.ty o.va.toNat e, 0))

/-- VIMM (R225): the codes as they stand. -/
def execVimm (o : VImm) (s : State) : Host.Outcome State Fault Refusal :=
  veLanes s o.vd o.prd o.z o.ty false true [] [(immTypeOk o.ty, fEncoding)] 2
    (fun _ e => (immLane o.ty o.imm (e % Ty.lanes o.ty), 0))

/-- VADD with an immediate (R225, R227). Both nf codes decode under descriptor A. -/
def execVaddImm (o : VImm) (rm : Rm) (s : State) : Host.Outcome State Fault Refusal :=
  arithImm o 2 (fun dA dB a b => addLane dA dB o.ty rm a b) s
/-- VMUL with an immediate. -/
def execVmulImm (o : VImm) (rm : Rm) (s : State) : Host.Outcome State Fault Refusal :=
  arithImm o 4 (fun dA dB a b => mulLane dA dB o.ty rm a b) s
/-- VMIN with an immediate. -/
def execVminImm (o : VImm) (rm : Rm) (s : State) : Host.Outcome State Fault Refusal :=
  arithImm o 2 (fun dA dB a b => minMaxLane false dA dB o.ty rm a b) s
/-- VMAX with an immediate. -/
def execVmaxImm (o : VImm) (rm : Rm) (s : State) : Host.Outcome State Fault Refusal :=
  arithImm o 2 (fun dA dB a b => minMaxLane true dA dB o.ty rm a b) s

/-- VCMP with an immediate (R225): the source is row VD, the mask VD[3:0]. -/
def execVcmpImm (o : VImm) (cc : Cond) (s : State) : Host.Outcome State Fault Refusal :=
  let c := cur s
  checked s (fmtChecks c (isNf o.ty) ++ predChecks c o.prd o.ty false [o.vd.toNat] ++ [(immTypeOk o.ty, fEncoding)])
    (fun s => postCmp s (o.vd.toNat % 16) o.ty o.z (predNow s o.prd o.ty) (fun e =>
      cmpLane (descA c) o.ty cc (elemAt c o.ty o.vd.toNat e) (immLane o.ty o.imm e)))

end Sys2Proof.Machine
end

