-- ==== Sys2Proof/Machine/VecCross.lean ====
section
/-! DEFINITION. Vector commands across lanes (R238 to R242), masks and count predicates (R244). -/

namespace Sys2Proof.Machine

/-- VPERM (R238): the index lane is an unsigned number whatever TYPE is. -/
def execVperm (o : VOps) (s : State) : Host.Outcome State Fault Refusal :=
  veLanes s o.vd o.prd o.z o.ty false false [o.va, o.vb] [] 3 (fun c e =>
    (elemAt c o.ty o.va.toNat (elemAt c o.ty o.vb.toNat e % Ty.lanes o.ty), 0))

/-- VBCST (R238): LANE must be below L. -/
def execVbcst (o : VOps1) (lane : BitVec 7) (s : State) : Host.Outcome State Fault Refusal :=
  veLanes s o.vd o.prd o.z o.ty false false [o.va] [(decide (lane.toNat < Ty.lanes o.ty), fEncoding)] 3 (fun c _ =>
    (elemAt c o.ty o.va.toNat lane.toNat, 0))

/-- VIOTA (R238). -/
def execViota (vd : VReg) (prd : Prd) (z : Bool) (ty : Ty) (s : State) : Host.Outcome State Fault Refusal :=
  veLanes s vd prd z ty false true [] [] 2 (fun _ e => (e % 2 ^ Ty.bits ty, 0))

/-- The active elements of a group, in order. -/
def activeElems (c : CoreState) (p : VPred) (t : Ty) (r : Nat) : List Nat :=
  ((List.range p.act.length).filter (fun e => p.act.getD e false)).map (elemAt c t r)

/-- The sum of lanes (R239, R240): exact, rounded once under RM; integers wrap. -/
def sumLanes (dA dB : Nat) (t : Ty) (rm : Rm) (l : List Nat) : Nat × Flags :=
  if Ty.isFloat t then
    (match l with
      | [] => numLane t dB rm (.fin false 0 0)
      | _ => numLane t dB rm (sumNum false (l.map (laneNum t dA))))
  else wrapLane t ((l.map (intOf t)).foldl (· + ·) 0)

/-- R228 applied across lanes (R239). -/
def pickLanes (max : Bool) (dA dB : Nat) (t : Ty) (rm : Rm) (l : List Nat) : Nat × Flags :=
  if Ty.isFloat t then
    let xs := l.map (laneNum t dA)
    let v := match xs with
      | [] => Num.fin false 0 0
      | x :: r => r.foldl (fun a b => (pickNum max a b).1) x
    let v := match v with | .nan _ => Num.nan false | y => y
    let (c, fl) := numLane t dB rm v
    (c, if xs.any Num.isSig then fl ||| fINV else fl)
  else
    match l.map (intOf t) with
    | [] => (0, 0)
    | x :: r => (intCode (Ty.bits t) (r.foldl (fun a b => if max then (if a < b then b else a) else (if b < a then b else a)) x), 0)

/-- VRED (R239): lane 0 of one register, from a source group. -/
def reduce (o : VOps1) (f : Nat → Nat → List Nat → Nat × Flags) (s : State) : Host.Outcome State Fault Refusal :=
  let c := cur s
  checked s (fmtChecks c (isNf o.ty) ++ predChecks c o.prd o.ty true [o.va.toNat])
    (fun s =>
      let p := predNow s o.prd o.ty
      if p.any then
        let r := f (descA c) (descB c) (activeElems c p o.ty o.va.toNat)
        postFlags (postRow s 8 o.vd.toNat o.ty (some r.1 :: List.replicate (Ty.lanes o.ty - 1) (if o.z then some 0 else none)))
          8 veSt .ve r.2
      else s)

/-- VRED.add. -/
def execVredAdd (o : VOps1) (rm : Rm) (s : State) : Host.Outcome State Fault Refusal :=
  reduce o (fun dA dB l => sumLanes dA dB o.ty rm l) s
/-- VRED.min. -/
def execVredMin (o : VOps1) (rm : Rm) (s : State) : Host.Outcome State Fault Refusal :=
  reduce o (fun dA dB l => pickLanes false dA dB o.ty rm l) s
/-- VRED.max. -/
def execVredMax (o : VOps1) (rm : Rm) (s : State) : Host.Outcome State Fault Refusal :=
  reduce o (fun dA dB l => pickLanes true dA dB o.ty rm l) s

/-- VSCAN (R240): `inc` takes in the element itself. -/
def scan (o : VOps1) (rm : Rm) (inc : Bool) (s : State) : Host.Outcome State Fault Refusal :=
  let p := predNow s o.prd o.ty
  veLanes s o.vd o.prd o.z o.ty (isNf o.ty) true [o.va] [] 8 (fun c e =>
    sumLanes (descA c) (descB c) o.ty rm
      (((List.range (if inc then e + 1 else e)).filter (fun i => p.act.getD i false)).map (elemAt c o.ty o.va.toNat)))

/-- VSCAN.inc. -/
def execVscanInc (o : VOps1) (rm : Rm) (s : State) : Host.Outcome State Fault Refusal := scan o rm true s
/-- VSCAN.exc. -/
def execVscanExc (o : VOps1) (rm : Rm) (s : State) : Host.Outcome State Fault Refusal := scan o rm false s

/-- Less of R241: a total order of keys. -/
def keyLess (dA : Nat) (t : Ty) (a b : Nat) : Bool :=
  if Ty.isFloat t then (laneNum t dA a).below (laneNum t dA b) else decide (intOf t a < intOf t b)

/-- Whether the pair that element `i` belongs to is exchanged (R241). -/
def stepSwaps (dA : Nat) (t : Ty) (j k : Nat) (dsc : Bool) (key : Nat → Nat) (i : Nat) : Bool :=
  let e := if bits i j 1 = 1 then i - 2 ^ j else i
  let f := e + 2 ^ j
  let up := (bits e k 1 == 0) != dsc
  if up then keyLess dA t (key f) (key e) else keyLess dA t (key e) (key f)

/-- Element `i`'s partner in the step. -/
def stepPartner (j i : Nat) : Nat := if bits i j 1 = 1 then i - 2 ^ j else i + 2 ^ j

/-- VSTEP (R241). -/
def execVstep (vd va : VReg) (j k : BitVec 4) (ty : Ty) (dsc : Bool) (s : State) : Host.Outcome State Fault Refusal :=
  let c := cur s
  let L := Ty.lanes ty
  checked s ((decide (vd.toNat + 4 ≤ 512 ∧ va.toNat + 4 ≤ 512), fEncoding) :: fmtChecks c (isNf ty) ++ [
      (decide (j.toNat < k.toNat ∧ k.toNat ≤ L.log2 + 1), fEncoding)])
    (fun s =>
      if s.ctx.active then
        let key := fun e => elemAt c ty va.toNat e
        let pay := fun e => elemAt c ty (va.toNat + 2) e
        let src := fun i => if stepSwaps (descA c) ty j.toNat k.toNat dsc key i then stepPartner j.toNat i else i
        let vals := (List.range (2 * L)).map (fun i => some (key (src i))) ++ (List.range (2 * L)).map (fun i => some (pay (src i)))
        postRows s 4 ty vals vd.toNat 4
      else s)

/-- VCMPR (R242). -/
def execVcmpr (o : VOps1) (s : State) : Host.Outcome State Fault Refusal :=
  let c := cur s
  checked s (predChecks c o.prd o.ty false [o.vd.toNat, o.va.toNat])
    (fun s =>
      let p := predNow s o.prd o.ty
      if p.any then
        let l := activeElems c p o.ty o.va.toNat
        postRow s 3 o.vd.toNat o.ty
          (l.map some ++ List.replicate (Ty.lanes o.ty - l.length) (if o.z then some 0 else none))
      else s)

/-- A whole mask lands (R244). -/
def postMask (s : State) (m : Nat) (v : BitVec 128) : State :=
  if s.ctx.active then vePost s 2 (.mask m allBytes v) else s

/-- MAND (R244). -/
def execMand (md ma mb : BitVec 4) (s : State) : Host.Outcome State Fault Refusal :=
  .next (postMask s md.toNat (getMask (cur s) ma.toNat &&& getMask (cur s) mb.toNat))
/-- MOR. -/
def execMor (md ma mb : BitVec 4) (s : State) : Host.Outcome State Fault Refusal :=
  .next (postMask s md.toNat (getMask (cur s) ma.toNat ||| getMask (cur s) mb.toNat))
/-- MXOR. -/
def execMxor (md ma mb : BitVec 4) (s : State) : Host.Outcome State Fault Refusal :=
  .next (postMask s md.toNat (getMask (cur s) ma.toNat ^^^ getMask (cur s) mb.toNat))
/-- MNOT. -/
def execMnot (md ma : BitVec 4) (s : State) : Host.Outcome State Fault Refusal :=
  .next (postMask s md.toNat (~~~getMask (cur s) ma.toNat))

/-- The 1 bits among the lowest L of a mask (R244). -/
def maskCount (c : CoreState) (m : Nat) (t : Ty) : Nat := popFromMask (getMask c m).toNat (Ty.lanes t)
where
  popFromMask (a : Nat) : Nat → Nat
    | 0 => 0
    | n + 1 => a % 2 + popFromMask (a / 2) n

/-- MPOP (R244): the count in lane 0, zeros in the others. -/
def execMpop (vd : VReg) (ma : BitVec 4) (ty : Ty) (s : State) : Host.Outcome State Fault Refusal :=
  .next (if s.ctx.active then
    postRow s 2 vd.toNat ty (some (maskCount (cur s) ma.toNat ty) :: List.replicate (Ty.lanes ty - 1) (some 0)) else s)

/-- KMSK (R244). -/
def execKmsk (kd : BitVec 3) (ma : BitVec 4) (ty : Ty) (s : State) : Host.Outcome State Fault Refusal :=
  .next (if s.ctx.active then
    vePost s 2 (.kpred kd.toNat ⟨BitVec.ofNat 10 (maskCount (cur s) ma.toNat ty), widCode ty⟩) else s)

/-- KSET (R244): IMM above 6 L raises illegal-encoding. -/
def execKset (kd : BitVec 3) (imm : BitVec 16) (ty : Ty) (s : State) : Host.Outcome State Fault Refusal :=
  checked s [(decide (imm.toNat ≤ 6 * Ty.lanes ty), fEncoding)]
    (fun s => if s.ctx.active then vePost s 2 (.kpred kd.toNat ⟨BitVec.ofNat 10 imm.toNat, widCode ty⟩) else s)

end Sys2Proof.Machine
end

