-- ==== Sys2Proof/Machine/VecMem.lean ====
section
/-! DEFINITION. Ring-memory commands of the vector engine (R245 to R248). -/

namespace Sys2Proof.Machine

/-- The offset of VLD and VST (R245): below 2^18 and a multiple of 128. -/
def rowOffsetOk (a : Nat) : Bool := decide (a < 2 ^ 18) && a % 128 == 0

/-- Byte enables of the active lanes of a predicate over one row. -/
def predBytes (t : Ty) (p : VPred) : Nat := laneEnables (Ty.size t) (p.act.map (fun b => if b then some 0 else none))

/-- Byte enables that VLD and VST write: the active lanes, with Z every lane, and none when no lane is active (R221). -/
def moveBytes (t : Ty) (p : VPred) (z : Bool) : Nat := if p.any then (if z then 2 ^ 128 - 1 else predBytes t p) else 0

/-- VLD (R245). -/
def execVld (o : VMem) (s : State) : Out :=
  let b := o.blk.val
  let a := rdN s o.sa
  checked s (predChecks (cur s) o.prd o.ty false [o.vd.toNat] ++ [(rowOffsetOk a, fPermission)]) (fun s =>
    let p := predNow s o.prd o.ty
    let sp := spanOf o.run.toNat (blkSt b) veSt
    let en := BitVec.ofNat 128 (predBytes o.ty p)
    let all := BitVec.ofNat 128 (moveBytes o.ty p o.z)
    startJob s (.plan ((if p.any then [(1, .rowIn (b * 2 ^ 18 + a) o.vd.toNat en (all &&& ~~~en) (3 + sp))] else []) ++
      [(1, .read b (b * 2 ^ 18 + a)), (2, .place (blkSt b) sp .last), (2 + sp, .tap veSt)])) veSt o.run.toNat 20 none)

/-- The row that VST sends: the active lanes, with zeros elsewhere. -/
def storeRow (c : CoreState) (t : Ty) (p : VPred) (r : Nat) : Nat :=
  (getRow c r &&& byteMask (BitVec.ofNat 128 (predBytes t p))).toNat

/-- VST (R245). -/
def execVst (o : VMem) (s : State) : Out :=
  let b := o.blk.val
  let a := b * 2 ^ 18 + rdN s o.sa
  checked s (predChecks (cur s) o.prd o.ty false [o.vd.toNat] ++
      [(rowOffsetOk (rdN s o.sa), fPermission), (!inOpenWindow (cur s) a 128 (cur s).dcc, fPermission)]) (fun s =>
    let p := predNow s o.prd o.ty
    let sp := spanOf o.run.toNat veSt (blkSt b)
    let s := startJob s (.plan [(1, .place veSt sp .last), (2 + sp, .write b)]) veSt o.run.toNat 20 none
    if p.any then vePost s (2 + sp) (.spad a 128 (moveBytes o.ty p o.z) (storeRow (cur s) o.ty p o.vd.toNat) none) else s)

/-- The linear index of each lane plus one, 0 for an inactive lane (R246). -/
def laneIndices (p : VPred) (base : Nat) : List Nat :=
  (List.range p.act.length).map (fun e => if p.act.getD e false then base + e + 1 else 0)

/-- The checks of an orbit VLD or VST in the order of R223 and R246, with the permission checks that a store adds: the fault, if
any. -/
def orbFault (s : State) (o : VMem) (y : BitVec 4) (more : List (Bool × Nat)) : Option (Nat × List Word) :=
  let c := cur s
  let e := getSy c y.toNat
  let p := predNow s o.prd o.ty
  match firstFault ([(e.valid, fEncoding)] ++ predChecks c o.prd o.ty false [o.vd.toNat] ++
      [(!o.z, fEncoding), (symSpad e.desc && blkOf (symBase e.desc) == o.blk.val, fPermission),
       ((laneIndices p (rdN s o.sa)).all (fun i => match i with | 0 => true | i + 1 => (unlinear e.desc i).isSome), fPermission)] ++ more) with
  | some code => some (code, [])
  | none => syFault s y o.ty

/-- VLD with ORB = 1 (R246). -/
def execVldOrb (o : VMem) (y : BitVec 4) (s : State) : Out :=
  match orbFault s o y [] with
  | some (code, d) => .next (faultNow s code 0 d)
  | none =>
    let p := predNow s o.prd o.ty
    .next (startJob s (.vldSy o.vd.toNat y.toNat (getSy (cur s) y.toNat).desc (BitVec.ofNat 128 (predBytes o.ty p)) 0
      (laneIndices p (rdN s o.sa)) o.ty) veSt o.run.toNat 40 none)

/-- The members of an orbit VST, in lane order (R246). -/
def laneMembers (s : State) (o : VMem) (d : BitVec 512) (p : VPred) : List Member :=
  (List.range p.act.length).filterMap (fun e =>
    if p.act.getD e false then some ((unlinear d (rdN s o.sa + e)).getD [], laneAt (Ty.bits o.ty) (getRow (cur s) o.vd.toNat) e)
    else none)

/-- No slot that an orbit VST names lies in an open receive window (R215). -/
def slotsFree (s : State) (o : VMem) (y : BitVec 4) : Bool :=
  let d := (getSy (cur s) y.toNat).desc
  !(ranksOf d (laneMembers s o d (predNow s o.prd o.ty))).any (fun r => inOpenWindow (cur s) (slotAddr d r) (symSize d) (cur s).dcc)

/-- VST with ORB = 1 (R246): its row is placed, grouped and checked with source tag NONE; its representatives land together. -/
def execVstOrb (o : VMem) (y : BitVec 4) (s : State) : Out :=
  match orbFault s o y [(slotsFree s o y, fPermission)] with
  | some (code, d) => .next (faultNow s code 0 d)
  | none =>
    let b := o.blk.val
    let d := (getSy (cur s) y.toNat).desc
    let z := symSize d
    let p := predNow s o.prd o.ty
    let sp := spanOf o.run.toNat veSt (blkSt b)
    let land := 18 + sp
    let ms := laneMembers s o d p
    let row := if p.any then some (BitVec.ofNat 1024 (storeRow (cur s) o.ty p o.vd.toNat)) else none
    let s := startJob s (.plan [(1, .placeRow veSt sp row), (land, .write b)]) veSt o.run.toNat 40 none
    match foldStore d false ms with
    | .error e =>
      let two := e.two.getD []
      .next (vePost s land (.raise e.code 0 (symDetail y.toNat 0 s.ctx.seq e ++ [packTuple two 0, packTuple two 4]) 0))
    | .ok (items, forced) =>
      let s := items.foldl (fun s i => vePost s land (.spad i.pos z (2 ^ z - 1) i.val none)) s
      let s := if forced then vePost s land .symForce else s
      .next (postFlags s land veSt .ve (items.foldl (fun a i => a ||| i.fl) 0))

/-- Fields of a queue pointer (R247). -/
def qpPtr (q : Word) : Nat := bits q.toNat 0 21
def qpEnd (q : Word) : Nat := bits q.toNat 21 21

/-- The address checks of VCST (R248). -/
def vcstOk (c : CoreState) (q : Word) (b size : Nat) : Bool :=
  blkOf (qpPtr q) == b && blkOf (qpEnd q) == b && decide (qpPtr q ≤ qpEnd q) && qpPtr q % size == 0 && qpEnd q % size == 0 &&
    !inOpenWindow c (qpPtr q) (qpEnd q - qpPtr q) c.dcc

/-- VCST (R248). Its form has no .z; a set Z bit is accepted and ignored, since R226 names Z reserved for other commands only (log 88). -/
def execVcst (vd : VReg) (blk : Blk) (run : Run) (prd : Prd) (z : Bool) (ty : Ty) (qp : BitVec 2) (s : State) : Out :=
  let b := blk.val
  let size := Ty.size ty
  let q := Sparse.get 0 (cur s).qps qp.toNat
  let _ := z
  checked s (predChecks (cur s) prd ty false [vd.toNat] ++ [(vcstOk (cur s) q b size, fPermission)]) (fun s =>
    let p := predNow s prd ty
    let sp := spanOf run.toNat veSt (blkSt b)
    let s := startJob s (.plan [(3, .place veSt sp .last), (4 + sp, .write b)]) veSt run.toNat 20 none
    if p.any then
      let vals := activeElems (cur s) p ty vd.toNat
      let n := min vals.length ((qpEnd q - qpPtr q) / size)
      let ovf := q.getLsbD 63 || decide (n < vals.length)
      let q' := toWord ((if ovf then 2 ^ 63 else 0) + n * 2 ^ 42 + qpEnd q * 2 ^ 21 + (qpPtr q + n * size))
      let s := vePost s 3 (.qp qp.toNat q')
      vePost s (4 + sp) (.spad (qpPtr q) 128 (2 ^ (n * size) - 1) (packLanes (Ty.bits ty) (vals.take n)) none)
    else s)

end Sys2Proof.Machine
end

