-- ==== Sys2Proof/Machine/Fetch.lean ====
section
/-! DEFINITION. Fetching commands (R22 to R24, R96, R112, R120, R141, R172, R173): COMMAND_FETCH, one command at a time. -/

namespace Sys2Proof.Machine

/-- The ring words of the command at a ring index, as a scratchpad holds them (R120). -/
def readCommand (m : Memory) (t : StreamSt) (st : Stream) (i : Nat) : List Word :=
  let w0 := Memory.word m (ringAddr t.ring i)
  (List.range (wordCount st w0.toNat)).map (fun n => Memory.word m (ringAddr t.ring (i + n)))

/-- The scratchpad as it stood in a cycle at or before the present one (R24): before DCC 0, as the pour found it. -/
def spadAt (c : CoreState) (f : Int) : Memory :=
  if (c.dcc : Int) ≤ f then c.spad
  else match c.spadPast[((c.dcc : Int) - 1 - f).toNat]? with
    | some m => m
    | none => c.spadPast.getLastD c.spad

/-- What the WAIT byte says (R96): an issue cycle, the first slack point after p, or a fault charged at p. -/
inductive WaitRes where
  | at' (n : Nat)
  | slack
  | fault (code cause : Nat)
  deriving DecidableEq, Repr

/-- R96. -/
def waitOf (p : Nat) (ws : List Word) : WaitRes :=
  let wait := bits (ws.getD 0 0).toNat 56 8
  let ext := (ws.getD 1 0).toNat
  if wait ≤ 0xFB then .at' (p + wait)
  else if wait = 0xFC then (if ext / 2 ^ 32 = 0 then .at' (p + ext) else .fault fEncoding 0)
  else if wait = 0xFD then .slack
  else if wait = 0xFE then (if ext < p then .fault fSchedule 8 else .at' ext)
  else .fault fEncoding 0

/-- The least of a list of numbers. -/
def least : List Nat → Option Nat
  | [] => none
  | a :: r => match least r with | some b => some (min a b) | none => some a

/-- Slack points that the cores of a domain declared. -/
def declared (s : State) (d : Domain) : List (Nat × Nat) := d.all.flatMap (fun k => (getCore s k).slackPts)

/-- The first slack point after p that has come (R96, R112). -/
def slackAfter (s : State) (k p : Nat) : Option Nat :=
  match domOf s k with
  | some d => least ((declared s d).filterMap (fun x => if p < x.1 ∧ x.1 ≤ (getCore s k).dcc then some x.1 else none))
  | none => none

/-- The issue cycle that the words of the next command give as they stand in cycle `f`, if its fetch cycle is `f` or earlier (R24,
R96, R172), and a fault charged at p. -/
def dueAt (s : State) (k : Nat) (t : StreamSt) (ws : List Word) (f : Int) : Option (Nat × Option (Nat × Nat)) :=
  let p := t.fetchPrev
  let due := fun (n : Nat) => decide ((n : Int) ≤ f + Config.fetchLead)
  let early := fun (n : Nat) => if n < t.brMin then (p, some (fEncoding, 0)) else (n, none)
  match waitOf p ws with
  | .at' n => let r := early n; if due r.1 then some r else none
  | .slack => match slackAfter s k p with
    | some n => if due n then some (early n) else none
    | none => none
  | .fault code cause => if due p then some (p, some (code, cause)) else none

/-- The cycles whose words the fetch unit looks at, oldest first: the present one and those up to 16 back, none before the fetch cycle
of the command before. The present one decides unless what comes next was not known in its own cycle: at the start, after a BR, and
behind a slack point (R24, R112, R172). -/
def fetchCycles (c : CoreState) (t : StreamSt) : List Int :=
  ((List.range (Config.fetchLead + 1)).map (fun (i : Nat) => (c.dcc : Int) - Config.fetchLead + i)).filter (fun f =>
    decide ((t.fetchPrev : Int) - Config.fetchLead ≤ f))

/-- The fetch of the next command, if its cycle has come: its words, every one as it stood in that cycle (R24), its issue cycle, a
fault charged at p. A write that shortens a WAIT after the cycle in which the shorter one would have been fetched is seen with it:
the command issues at the new cycle, or in the present one if that is past (log 69). -/
def fetchDue (s : State) (k : Nat) (t : StreamSt) (st : Stream) : Option (List Word × Nat × Option (Nat × Nat)) :=
  let c := getCore s k
  (fetchCycles c t).findSome? (fun f =>
    let ws := readCommand (spadAt c f) t st t.fetchIdx
    (dueAt s k t ws f).map (fun r => (ws, max r.1 c.dcc, r.2)))

/-- The fetch unit's next place after a command (R24, R141, R173): index, loops, calls, and whether it waits. -/
def fetchNext (t : StreamSt) (next : Nat) (i : Option Instr) : StreamSt :=
  let L := ringLen t.ring
  let jump := fun (off : BitVec 16) => (((next : Int) + off.toInt) % (L : Int)).toNat
  match i with
  | none | some .endStream | some (.br ..) => { t with fetchIdx := next, fetchHold := true }
  | some (.jmp off) => { t with fetchIdx := jump off }
  | some (.call off) => { t with fetchIdx := jump off, fetchCalls := next :: t.fetchCalls }
  | some .ret =>
    match t.fetchCalls with
    | [] => { t with fetchIdx := next, fetchHold := true }
    | w :: r => { t with fetchIdx := w, fetchCalls := r }
  | some (.loop id stg _ _ mx) =>
    { t with fetchIdx := next
             fetchLoops := ⟨id.toNat, mx.toNat + stg.toNat, next⟩ :: t.fetchLoops }
  | some (.lend _) =>
    match t.fetchLoops with
    | [] => { t with fetchIdx := next, fetchHold := true }
    | l :: r =>
      if 1 < l.left then { t with fetchIdx := l.first, fetchLoops := { l with left := l.left - 1 } :: r }
      else { t with fetchIdx := next, fetchLoops := r }
  | some _ => { t with fetchIdx := next }

/-- A command as decoded, if it is one. -/
def decoded (st : Stream) (ws : List Word) : Option Instr :=
  match decodeWords st (ws.map BitVec.toNat) with
  | .ok c => some c.instr
  | .error _ => none

/-- Fetch the next command of a stream, if its cycle has come: every word as it stood in that cycle (R24). -/
def fetchOne (s : State) (k : Nat) (st : Stream) : Option State :=
  let c := getCore s k
  let t := getStream c st
  if t.ended || t.fetchHold then none
  else
    match fetchDue s k t st with
    | none => none
    | some (ws, n, fault) =>
      let next := (t.fetchIdx + ws.length) % ringLen t.ring
      let f : Fetched := ⟨t.fetchIdx, ws, next, n, fault⟩
      let t := fetchNext { t with fetched := t.fetched ++ [f], fetchPrev := n, brMin := 0, fetchPtr := next } next
        (if fault.isSome then none else decoded st ws)
      some (setCore s k (setStream c st t))

/-- The core runs the present cycle of a domain that runs one. -/
def cyclesNow (s : State) (k : Nat) : Bool :=
  match domOf s k with
  | some d => d.cycling && liveIn s d k
  | none => false

/-- COMMAND_FETCH (R24), in a cycle that the core runs: fetches one command, and looks again for the one after it. -/
def execCommandFetch (k : Nat) (st : Stream) (s : State) : Out :=
  match if cyclesNow s k then fetchOne s k st else none with
  | some s => .next { s with agenda := .ev (.commandFetch k st) :: s.agenda }
  | none => .next s

/-- A stream waits for a slack point and has nothing else to issue (R112). -/
def waitsForSlack (s : State) (k : Nat) (st : Stream) : Bool :=
  let c := getCore s k
  let t := getStream c st
  !t.ended && !t.fetchHold && t.fetched.isEmpty && t.fetchPrev ≤ c.dcc &&
    waitOf t.fetchPrev (readCommand c.spad t st t.fetchIdx) == .slack

end Sys2Proof.Machine
end

