-- ==== Sys2Proof/Machine/Issue.lean ====
section
/-! DEFINITION. Issuing a command: the checks of R147 that every command has, stage predicates (R141), occupancy (R97, R192),
what an issued command leaves behind in its stream (R96, R144), event counts (R350), issue records and debug stops (R342,
R345), drain records (R308). -/

namespace Sys2Proof.Machine

/-- Stream-control commands (R140). -/
def isControl : Instr → Bool
  | .nop | .loop .. | .lend _ | .join _ | .endStream | .mark _ => true
  | _ => false

/-- Opcodes that only system cores execute (R146). -/
def isSystemOnly : Instr → Bool
  | .eret | .hvcall _ | .rres .. | .rresClear .. | .rret .. => true
  | _ => false

/-- The symmetry entries that a command names in fields (R122). -/
def symFields : Instr → List (BitVec 4)
  | .cpgth o | .cpsct o _ => o.sy.toList
  | .cpexp _ _ _ y _ _ _ _ _ | .cpfld _ _ _ y _ _ _ _ | .vldOrb _ y | .vstOrb _ y => [y]
  | .ocon _ a b _ | .oconp a b _ _ => [a, b]
  | _ => []

/-- The opcode is permitted on the core (R146, R356), every entry a field names is valid (R70, R122), and a fixed group of vector
rows stays inside the file (R122, R240). -/
def fieldsOk (s : State) (k : Nat) (i : Instr) : Bool :=
  !isSystemOnly i && (symFields i).all (fun y => (getSy (getCore s k) y.toNat).valid) &&
    (match i with
      | .oconp .. => featOn s k (partOfCore s k) 4
      | .vstep vd va .. => decide (vd.toNat + 4 ≤ 512) && decide (va.toNat + 4 ≤ 512)
      | _ => true)

/-- The station a command occupies and for how many cycles (R97, R102, R192); the state is that of its issue. -/
def occupies (s : State) (i : Instr) : Nat × Nat :=
  let sy := fun (y : BitVec 4) => (getSy (cur s) y.toNat).desc
  match i with
  | .cpld o => (cpiSt, (moveShape s o).count)
  | .cpst o | .cpmov o | .cpset o _ => (cpoSt, (moveShape s o).count)
  | .cpldCb o => (cpiSt, 5 * rdG s o.sc 0 / 256)
  | .cpdec _ _ sc _ => (cpoSt, 5 * rdG s sc 0 / 256)
  | .cpgth o => (if o.mem || o.sy.isSome then cpiSt else cpoSt, 16 + rdG s o.sc 1)
  | .cpsct o _ => (cpoSt, if o.sy.isSome then 2 * rdG s o.sc 1 + 48 else 16 + rdG s o.sc 1)
  | .cpfill _ _ _ _ _ mem | .cppat _ _ _ _ mem | .cpcbk _ _ _ _ mem => (if mem then cpiSt else cpoSt, 1)
  | .cpvq _ _ _ _ _ rows sp _ => (cpoSt, if sp then 16 + (rows.toNat + 1) else 48)
  | .cpexp sa _ _ y _ _ rdim cdim _ =>
    let o := originOf s sa (symRank (sy y)) rdim.toNat cdim.toNat
    (cpiSt, o.rows * o.cols)
  | .cpfld sa sb _ y _ _ rdim cdim =>
    let o := originOf s sa (symRank (sy y)) rdim.toNat cdim.toNat
    (cpoSt, o.rows + 24 + (foldRanks s sa sb y rdim.toNat cdim.toNat).length)
  | .cpatom _ _ sc _ _ _ => (cpoSt, rdN s sc)
  | .cpput _ _ sc _ _ _ => (cpoSt, rdN s sc / 64)
  | .cpxsnd _ _ sc _ => (cpoSt, rdN s sc / 128)
  | .cpcini .. => (cpoSt, 1)
  | .cpcrd .. | .cpget .. | .cpxrcv .. | .cpxred .. => (cpiSt, 1)
  | .mma _ | .mmas .. | .mtrn .. | .mlda .. | .msta .. => (ceSt, 32)
  | .ocon _ a b _ | .oconp a b _ _ => (ceSt, 24 + orbitCount (sy a) (sy b))
  | _ => (stationOf s.ctx.stream, 1)

/-- The predicate field of a vector command, with its lane type. -/
def lanePredicate : Instr → Option (Prd × Ty)
  | .vadd o _ | .vsub o _ | .vmul o _ | .vfma o _ | .vfms o _ | .vmin o _ | .vmax o _ | .vdiv o _ | .vand o | .vor o | .vxor o
  | .vlog3 o _ | .vshl o | .vshr o | .vsar o | .vfsh o _ | .vclmulLo o | .vclmulHi o | .vperm o => some (o.prd, o.ty)
  | .vneg o _ | .vabs o _ | .vsqrt o _ | .vrcp o _ | .vrsq o _ | .vcvt o _ _ _ | .vexp2 o | .vlog2 o | .vexp o | .vlog o
  | .vsinpi o | .vcospi o | .vtanh o | .vmov o | .vpopc o | .vclz o | .vbcst o _ | .vredAdd o _ | .vredMin o _ | .vredMax o _
  | .vscanInc o _ | .vscanExc o _ | .vcmpr o => some (o.prd, o.ty)
  | .vcmp _ _ _ p _ t _ | .vrand _ p _ t | .viota _ p _ t => some (p, t)
  | .vimm o | .vaddImm o _ | .vmulImm o _ | .vminImm o _ | .vmaxImm o _ | .vandImm o | .vorImm o | .vxorImm o | .vshlImm o
  | .vshrImm o | .vsarImm o | .vcmpImm o _ => some (o.prd, o.ty)
  | .vld o | .vldOrb o _ | .vst o | .vstOrb o _ => some (o.prd, o.ty)
  | .vcst _ _ _ p _ t _ => some (p, t)
  | _ => none

/-- No lane of the command is active (R98). -/
def predicatedOff (c : CoreState) (i : Instr) : Bool :=
  match lanePredicate i with
  | some (p, t) => match predOf c p t with | some q => !q.any | none => false
  | none => false

/-- The stage predicate of a stream's next command (R141). -/
def stageActive (t : StreamSt) : Bool :=
  match t.loops with
  | [] => true
  | l :: _ => l.outer && decide (l.stage ≤ l.pass) && decide (l.pass - l.stage < l.count)

/-- A command that reaches the last word of the innermost loop's body is that loop's LEND (R142). -/
def lastPlaceOk (t : StreamSt) (f : Fetched) (i : Instr) : Bool :=
  match t.loops with
  | [] => true
  | l :: _ =>
    if l.body ≤ bodyPos t.ring l f.idx + f.words.length then
      (match i with | .lend id => id.toNat == l.id | _ => false)
    else true

/-- The checks of R147, steps 1 to 5, in order: the first fault with its cause. A word that is no command raises its fault as
`unassignedOpcode` (R146). -/
def issueFault (s : State) (f : Fetched) (i : Option Instr) : Option (Nat × Nat) :=
  let c := cur s
  let t := getStream c s.ctx.stream
  match f.waitFault, i with
  | some w, _ => some w
  | none, none => none
  | none, some i =>
    if fieldsOk s s.ctx.core i = false ∨ lastPlaceOk t f i = false then some (fEncoding, 0)
    else if isControl i then none
    else if t.lastSlot = some c.dcc then some (fSchedule, 6)
    else if c.dcc < Sparse.get 0 c.busy (occupies s i).1 then some (fSchedule, 7)
    else none

/-- The command that a stream issues in the present cycle, if one is due. -/
def issueDue (s : State) (k : Nat) (st : Stream) : Option Fetched :=
  let c := getCore s k
  match (getStream c st).fetched with
  | [] => none
  | f :: _ => if f.issue = c.dcc then some f else none

/-- The state in which a command executes: whose it is, its header, whether it is active, where its stream goes on, the station that it
drives (R21; a stream-control command of cp counts for the CPO: log 104). -/
def enterIssue (s : State) (k : Nat) (st : Stream) (f : Fetched) : State :=
  let c := getCore s k
  let t := getStream c st
  let hdr := match decodeWords st (f.words.map BitVec.toNat) with | .ok x => x.hdr | .error _ => ⟨0, false, false, false, 0, none⟩
  let s := { s with ctx := ⟨k, st, hdr, t.seq, f.idx, f.next, stageActive t, false, false, stationOf st⟩ }
  let unit := match decoded st f.words with | some i => (occupies s i).1 | none => stationOf st
  setCore { s with ctx := { s.ctx with unit := unit } } k (setStream c st { t with nextIdx := f.next })

/-- The instruction that executes: a command that fails the checks of R147 does not (its fault is taken). -/
def issueInstr (st : Stream) (f : Fetched) : Instr :=
  match decoded st f.words with
  | some i => i
  | none => .unassignedOpcode (BitVec.ofNat 8 (bits (f.words.headD 0).toNat 40 8))

/-- What leaves a faulted command its stream's next unissued one (R147). -/
def leaveUnissued (s : State) (f : Fetched) : State := modCurStream s (fun t => { t with nextIdx := f.idx })

/-- Insert a record into a core's trace buffer, before the records that its command's accesses wrote (R343, R344). -/
def insertRecord (s : State) (k pos : Nat) (r : List Word) : State :=
  let c := getCore s k
  let l := c.trace.take pos ++ r :: c.trace.drop pos
  match l.drop 64 with
  | [] => setCore s k { c with trace := l }
  | x :: _ => traceRecord (setCore s k { c with trace := l.take 64 }) k x

/-- The record of a command being executed, with its loop state (R342). -/
def loopRecord (s : State) (kind : Nat) (loops : Word) : List Word :=
  commandRecord s s.ctx.core kind s.ctx.stream s.ctx.hdr.evt.toNat (ringAddr (curStream s).ring s.ctx.idx) s.ctx.seq loops

/-- A pending debug stop that an IBD command takes up (R345): a hold with cause 5 and a stop record; none in catch-up, before the
release takes effect (R346). A command that finds none is remembered for a hit later in its cycle. -/
def takeDebugStop (s : State) (pos : Nat) (loops : Word) : State :=
  let k := s.ctx.core
  let c := cur s
  let port := match findDom s c.pid with | some d => d.debugReq | none => false
  let now := match findDom s c.pid with | some d => d.status == .run | none => true
  if !now then s
  else if port || c.stopReq then
    let s := insertRecord s k pos (loopRecord s 0x05 loops)
    let s := raiseHold s 5 0 { kind := 6 }
    modDom (modCore s k (fun c => { c with stopTaken := true })) c.pid (fun d => { d with debugTaken := true })
  else
    modCore s k (fun c => { c with ibdNow := c.ibdNow ++ [(loopRecord s 0x05 loops, s.ctx.stream, s.ctx.unit, s.ctx.hdr.evt.toNat)] })

/-- The first IBD command after a drain decision writes a drain record when trace is enabled (R308, R342). -/
def takeDrainMark (s : State) (pos : Nat) (loops : Word) : State :=
  let k := s.ctx.core
  match domOf s k with
  | none => s
  | some d =>
    if d.drain && !d.drainMarked then
      let s := modDom s d.pid (fun d => { d with drainMarked := true })
      if bits (traceCtl s k) 0 1 = 1 then insertRecord s k pos (loopRecord s 0x04 loops) else s
    else s

/-- The records of an issued command: its issue record, then a drain record, then a stop record (R342, R343). -/
def issueRecords (s : State) (pos : Nat) (loops : Word) : State :=
  let k := s.ctx.core
  let s := if s.ctx.hdr.ibd then takeDrainMark (takeDebugStop s pos loops) pos loops else s
  if s.ctx.hdr.trc && bits (traceCtl s k) 0 1 == 1 then insertRecord s k pos (loopRecord s 0x01 loops) else s

/-- What an issued command leaves in its stream and core (R96, R97, R144, R350). -/
def afterIssue (s0 s : State) (i : Instr) : State :=
  let st := s.ctx.stream
  let c0 := cur s0
  let (station, n) := occupies s0 i
  modCur s (fun c =>
    let c := modStream c st (fun t =>
      { t with fetched := t.fetched.drop 1, seq := t.seq + 1, prev := c.dcc
               lastSlot := if isControl i then t.lastSlot else some c.dcc })
    let c := if isControl i then c else { c with busy := Sparse.set 0 c.busy station (c.dcc + n) }
    countEvent c (if isControl i then 3 else if s.ctx.active && !predicatedOff c0 i then 1 else 2) st 1)

/-- After the meaning of a command: a fault leaves it unissued; else it has issued. A branch lets the fetch unit go on at once
(R172). -/
def issueDone (s0 s : State) (f : Fetched) (i : Instr) : State :=
  if s.ctx.faulted then leaveUnissued s f
  else
    let k := s.ctx.core
    let st := s.ctx.stream
    let s := issueRecords (afterIssue s0 s i) (cur s0).trace.length (loopWord (curStream s0))
    let more := match i with | .br .. => [Act.ev (.commandFetch k st)] | _ => []
    { s with agenda := more ++ .issue k st :: s.agenda }

/-- UNASSIGNED_OPCODE (R146): raises illegal-encoding at its issue. -/
def execUnassignedOpcode (_ : BitVec 8) (s : State) : Out := .next (faultNow s fEncoding 0 [])

end Sys2Proof.Machine
end

