-- ==== Sys2Proof/Machine/Frames.lean ====
section
/-! DEFINITION. Fault frames and in-flight entries (R318, R319, R323 to R325, R368, R369), the end of a pour, and the killing of
a fault domain (R309, R316). -/

namespace Sys2Proof.Machine

/-- A word of a frame about one stream: the code it raised and the ring address of its next unissued command (R318). -/
def cutWord (t : StreamSt) (code : Nat) : Word := toWord (code * 2 ^ 32 + ringAddr t.ring t.nextIdx)

/-- The 32 words of a core's frame (R318); `f` is F. -/
def frameWords (s : State) (d : Domain) (k f entries : Nat) : List Word :=
  let c := getCore s k
  let x := c.stop.getD ⟨f, 0, .cc, [0, 0, 0, 0], 0, [], 0, 0, 0⟩
  let own := decide (x.code ≠ 0)
  let cause := if x.code = fSchedule then x.cause else 0
  let head := toWord (2 ^ 56 + x.code * 2 ^ 48 + (if own then Stream.code x.stream else 0) * 2 ^ 46 + cause * 2 ^ 32 +
    (getPkg s (pkgOf k)).pos * 2 ^ 24 + numOf k * 2 ^ 8)
  let ts := [c.cc, c.cp, c.ve, c.ce]
  let ovf := decide (Config.slotEntries < entries)
  [head, toWord d.pid, toWord x.cycle, toWord f, toWord (d.asid * 2 ^ 12 + d.mouldNo)] ++
    ts.map (fun t => toWord t.seq) ++
    (List.range 4).map (fun i => cutWord (ts.getD i {}) (x.codes.getD i 0)) ++
    ts.map loopWord ++
    (List.range 4).map (fun i => x.detail.getD i 0) ++
    [toWord ((if ovf then 2 ^ 13 else 0) + min entries Config.slotEntries), toWord x.prog, x.w23, x.w24] ++ List.replicate 7 0

/-- The first cycle after the issue of a command whose samples are still to be done. -/
def Job.reached (j : Job) : Nat := j.smp - j.issue

/-- Rows of a fill that its unit has, before it posts them in the cycle before the slot is FULL (R202, R203, R205, R207): first row, the
rows, the cycles from issue to FULL, the slot or file and its kind. -/
def fillHeld (j : Job) : Option (Nat × Nat × Nat × List Row) :=
  match j.kind with
  | .fill kind num src _ rows _ _ _ mem =>
    let full := if mem then 1296 else 40
    let sp := spanOf j.run (blkSt (blkOf src)) ceSt
    let n := if mem then (if 1279 < j.reached then rows else 0) else min rows (j.reached - 2 - sp)
    if j.reached < full then some (kind, num, full, (bufRows j rows).take n) else none
  | .vq slot _ _ _ _ false _ => if j.reached < 48 then some (0, slot, 48, j.nums.map (BitVec.ofNat 1024)) else none
  | .expand slot _ _ _ rows cols tup rdim cdim d false =>
    let q := expandQ (symSpad d)
    let n := (j.reached - q - spanOf j.run cpiSt ceSt - 1) / cols
    if j.reached ≤ q + rows * cols then
      some (0, slot, q + 16 + rows * cols, (List.range (min n rows)).map (fun i =>
        BitVec.ofNat 1024 (packLanes (8 * symSize d) ((expandRow j d tup rdim cdim cols i).map Prod.fst))))
    else none
  | _ => none

/-- What the unit of a command in progress has got and not used yet: the cycle after issue in which it came, its byte position in the
command's buffer, its length and value. Granules of a cast stream wait to be decoded (R197, R337), elements of an expansion for their row
(R207), a tile's rows and a scatter's elements for their grouping (R201, R208), and representatives for device memory for their request. -/
def unitHeld (j : Job) : List (Nat × Nat × Nat × Nat) :=
  let r := j.reached
  let pieces := fun (z lag first n : Nat) =>
    ((List.range n).filter (fun i => decide (first ≤ i ∧ i + lag < r))).map (fun i => (i + lag, z * i, z, Memory.readNat j.buf (z * i) z))
  let items := fun (d : BitVec 512) (known look : Nat) =>
    if symSpad d then []
    else ((List.range j.items.length).filter (fun i => decide (j.todo ≤ j.issue + look + i))).map (fun i =>
      (known, symSize d * i, symSize d, ((j.items[i]?).map FoldItem.val).getD 0))
  match j.kind with
  | .cast src _ _ B mem =>
    pieces 64 (if mem then 1280 else 2 + spanOf j.run (blkSt (blkOf src)) cpoSt) (j.nums.headD 0 / 64) (B / 64)
  | .scatterSy _ src _ n d _ =>
    if r ≤ n + 39 then pieces (symSize d) (18 + spanOf j.run (blkSt (blkOf src)) cpoSt) 0 n else items d (n + 39) (n + 40)
  | .expand _ _ _ _ rows cols tup rdim cdim d _ =>
    let lag := if symSpad d then 2 + spanOf j.run (blkSt (blkOf (symBase d))) cpiSt else 1280
    let used := (r - 1 - expandQ (symSpad d)) / cols * cols
    (pieces (symSize d) lag used (rows * cols)).filter (fun x => !(canon d (expandIndex tup rdim cdim cols (x.2.1 / symSize d))).2.2.1)
  | .fold _ _ rows _ _ _ _ _ _ d _ => if r ≤ rows then pieces 128 (1 + spanOf j.run ceSt cpoSt) 0 rows else items d rows (rows + 12)
  | _ => []

/-- The entries of one such piece (R319, R337): a memory return that has come, or other core state under the model's numbering (log
62). -/
def heldEntry (j : Job) (x : Nat × Nat × Nat × Nat) : List Entry :=
  match j.kind with
  | .cast _ _ _ _ true => [{ kind := 5, dest := 2 ^ 19 + x.2.1 / 64, addr := 0, en := 2 ^ 64 - 1, val := x.2.2.2 }]
  | .expand _ _ _ _ _ _ _ _ _ d _ =>
    if symSpad d then [{ kind := 9, dest := 2 ^ 18 + j.station, addr := x.2.1, en := 2 ^ x.2.2.1 - 1, val := x.2.2.2 }]
    else bufferEntries j.stream 0 x.2.1 x.2.2.1 x.2.2.2 0
  | _ => [{ kind := 9, dest := 2 ^ 18 + j.station, addr := x.2.1, en := 2 ^ x.2.2.1 - 1, val := x.2.2.2 }]

/-- A flight that stands for what a command in progress holds: the cycle and ORDER of its entries. -/
def heldFlight (j : Job) (t sub : Nat) : Flight := jobFlight j t sub .watchClr

/-- Entries of what the commands in progress hold (R319): for a fill, and in a unit. -/
def jobEntries (c : CoreState) : List (Flight × Entry) :=
  c.jobs.flatMap (fun j =>
    if !j.active || j.stopped then []
    else
      (match fillHeld j with
        | none => []
        | some (kind, num, full, vals) =>
          (fileEntries kind ((if kind = 0 then 32 else if kind = 1 then 8 else 16) * num) num vals).map (fun e => (heldFlight j full 0, e))) ++
        (unitHeld j).flatMap (fun x => (heldEntry j x).map (fun e => (heldFlight j x.1 (x.2.1 + 1), e))))

/-- Every entry of a core, with the flight that gives its cycle and ORDER (R319, R20). -/
def allEntries (c : CoreState) : List (Flight × Entry) :=
  let l := frameFlights c
  l.flatMap (fun f => (entriesOf c f).map (fun e => (f, e))) ++
    (c.runners.filter (fun v => !carried c l v)).map (fun v => (riderFlight c v, riderEntry v)) ++ jobEntries c

/-- A core's entries in landing order (R369). -/
def sortedEntries (c : CoreState) : List (Flight × Entry) := (allEntries c).foldr insEntry []

/-- The same as numbers of 192 bytes (R319, R369). -/
def coreEntries (c : CoreState) (stop : Nat) : List Nat := (sortedEntries c).map (fun x => entryBytes x.1 stop x.2)

/-- The checkpoint area of a domain's region as a memory key (R310). -/
def ckptArea (s : State) (d : Domain) (pkg : Nat) : Nat := pkg * 2 ^ 39 + effWord s pkg d.region 10 7 % 2 ^ 39

/-- The slot of a domain-relative core (R310). -/
def slotAt (area rel : Nat) : Nat := area + 0x1000 + rel * 0x280000

/-- Write numbers of `n` bytes one after another. -/
def writeRun' (m : Memory) (a n : Nat) : List Nat → Memory
  | [] => m
  | v :: r => writeRun' (Memory.writeNat m a n v) (a + n) n r

/-- Write a core's frame and its in-flight entries into its slot (R310, R323, R369); the slot of a pair is its primary's. -/
def writeSlot (s : State) (d : Domain) (k : Nat) (frame : List Word) (entries : List Nat) : State :=
  if primaryOf d k = k then
    let slot := slotAt (ckptArea s d d.home) (relOf d k)
    let m := writeRun' s.mem (slot + 0x1A4000) 8 (frame.map BitVec.toNat)
    hubWrite s (writeRun' m (slot + 0x1B4000) 192 (entries.take Config.slotEntries))
  else s

/-- A core's frame: a kind 1 record, and, when `copy`, its slot (R318, R322, R323, R316). -/
def writeFrame (s : State) (d : Domain) (f k : Nat) (copy : Bool) : State :=
  let c := getCore s k
  let stop := match c.stop with | some x => x.cycle | none => f
  let es := coreEntries c stop
  let w := frameWords s d k f es.length
  let s := faultLog s d.home d.part d.region w
  if copy then writeSlot s d k w es else s

/-- FAULT_FRAME_WRITE: every core of a faulted domain writes its frame (R318); the slots of the stopped cores are written too
(R323), and of all cores at a stopping fault (R316). What a core without a fault has in flight at F it holds in place too (R319). -/
def writeFrames (s : State) (d : Domain) : State :=
  let f := d.freeze.getD d.dcc
  let s := d.all.foldl (fun s k => modCore s k (fun c => if c.stop.isSome then c else { c with atStop := c.inflight })) s
  modDom ((d.all.filter (fun k => (getCore s k).pid == d.pid)).foldl (fun s k => writeFrame s d f k (d.doomed || (getCore s k).stop.isSome)) s) d.pid
    (fun d => { d with framed := true })

-- The end of a pour -------------------------------------------------------------------------------------------------------------

/-- The changes of range tables that are on their way to a core apply at once when it runs a pour no more (R191). -/
def reachedTable (c : CoreState) : CoreState :=
  (c.inflight.filter (fun f => isReach f.eff)).foldl (fun c f => applyReach c f.eff) c

/-- A core that runs no pour: range table, watch filter, event counters and trace buffer stay (R25, R351). -/
def idleCore (c : CoreState) : CoreState :=
  { ({} : CoreState) with ranges := (reachedTable c).ranges, watch := c.watch, evcnt := c.evcnt, evsel := c.evsel, trace := c.trace, traceOld := c.trace.length }

/-- A CPPUT that the freeze has cut short has the rest of its source read there, since a transfer that was started completes (R309,
R311; log 70). -/
def finishPut (c : CoreState) (x : Xfer) : Xfer :=
  match c.jobs.find? (fun j => j.nums.head? == some x.id) with
  | some j =>
    match j.kind with
    | .put src _ len _ _ =>
      { x with data := Memory.writeNat x.data x.read (len - x.read) (Memory.readNat c.spad (src + x.read) (len - x.read)), read := len }
    | _ => x
  | none => x

/-- The CPPUTs of a domain's cores (R309, R311). -/
def finishPuts (s : State) (d : Domain) : State :=
  { s with xfers := s.xfers.map (fun x => if d.all.contains x.core then finishPut (getCore s x.core) x else x) }

/-- The domain is no more; its cores are free. -/
def removeDomain (s : State) (pid : Nat) : State :=
  match findDom s pid with
  | none => s
  | some d =>
    let s := finishPuts s d
    let s := d.all.foldl (fun s k => modCore s k idleCore) s
    { s with domains := s.domains.filter (fun d => d.pid ≠ pid) }

/-- Kill a running pour (R308, R309): a domain that is frozen ends at the existing freeze (R317); the tick carries it out. -/
def requestKill (s : State) (pid token : Nat) : State := modDom s pid (fun d => { d with schedStop := some (.kill token) })

/-- Does the RCB `a` lie on the path from `rcb` to the root (R297)? -/
def onPath (m : Memory) (pkg a : Nat) : Nat → Nat → Bool
  | 0, _ => false
  | n + 1, rcb => rcb == a || (let p := bits (Memory.word m (pkg * 2 ^ 39 + rcb)).toNat 0 39; p != 0 && onPath m pkg a n p)

/-- Does a region have FDOM = 1 (R298)? -/
def isFaultDomain (s : State) (pkg rcb : Nat) : Bool := bits (effWord s pkg rcb 8 1) 8 1 == 1

/-- The nearest region, from a first one upward, with effective FDOM = 1; the root if none has it (R316). -/
def faultTop (s : State) (pkg : Nat) : Nat → Nat → Nat
  | 0, rcb => rcb
  | n + 1, rcb =>
    let p := bits (Memory.word s.mem (pkg * 2 ^ 39 + rcb)).toNat 0 39
    if isFaultDomain s pkg rcb || p == 0 then rcb else faultTop s pkg n p

/-- FAULT_DOMAIN_KILL (R316): a stopping fault outside a fault domain kills every running pour of the enclosing subtree. -/
def killFaultDomain (s : State) (d : Domain) : State :=
  let pkg := d.home
  if isFaultDomain s pkg d.region then s
  else
    let parent := bits (Memory.word s.mem (pkg * 2 ^ 39 + d.region)).toNat 0 39
    let top := faultTop s pkg 8 (if parent = 0 then d.region else parent)
    s.domains.foldl (fun s x =>
      if x.pid ≠ d.pid ∧ x.home = pkg ∧ onPath s.mem pkg top 8 x.region then requestKill s x.pid 0 else s) s

/-- A stopping fault ends the pour at the freeze (R313, R316): frames, the fault domain, no successor. -/
def endFaulted (s : State) (d : Domain) : State :=
  let s := writeFrames s d
  removeDomain (killFaultDomain s d) d.pid

end Sys2Proof.Machine
end

