-- ==== Sys2Proof/Machine/Time.lean ====
section
/-! DEFINITION. The steps of cores and domains in a local clock: landings and samples, holds, slack points, credits, and the
advance of the domain cycle counter (R93 to R117, R283, R299, R313 to R318, R330). -/

namespace Sys2Proof.Machine

/-- A core's part of the present cycle of its domain. -/
def coreCycle (s : State) (k : Nat) (f : State → Domain → State) : Out :=
  .next (inCycle s (getCore s k).pid (fun s d => if liveIn s d k then f s d else s))

/-- Landings of a core's cycle; a pair lands together, each core compared with the other (R115, R116). -/
def withPair (s : State) (d : Domain) (k : Nat) (p : Effect → Bool) (f : State → Nat → Option (List Flight) → State) : State :=
  match partnerOf d k with
  | none => f s k none
  | some q =>
    if primaryOf d k = k then
      f (f s k (some (dueOf (getCore s q) d.dcc p).1)) q (some (dueOf (getCore s k) d.dcc p).1)
    else s

/-- RESULT_LANDING (R100). -/
def execResultLanding (k : Nat) (s : State) : Out := coreCycle s k (fun s d => withPair s d k isLocal landResults)

/-- FILL_LANDING (R203). -/
def execFillLanding (k : Nat) (s : State) : Out := coreCycle s k (fun s d => withPair s d k isFill landFills)

/-- MEMORY_SAMPLE (R283). -/
def execMemorySample (pid : Nat) (s : State) : Out := .next (inCycle s pid sampleMemory)

/-- MEMORY_WRITE_LANDING (R283, R284). -/
def execMemoryWriteLanding (pid : Nat) (s : State) : Out := .next (inCycle s pid landMemWrites)

/-- ATOMIC_APPLY (R171). -/
def execAtomicApply (pid : Nat) (s : State) : Out := .next (inCycle s pid landAtoms)

/-- SUM_CELL_ADD (R54). -/
def execSumCellAdd (pid : Nat) (s : State) : Out := .next (inCycle s pid landCellAdds)

/-- CELL_INIT_LANDING (R209, R295). -/
def execCellInitLanding (pid : Nat) (s : State) : Out := .next (inCycle s pid landCellInits)

/-- BEAT_LANDING (R216). -/
def execBeatLanding (k : Nat) (s : State) : Out := coreCycle s k (fun s d => landBeats s d k)

/-- RECEIVE_WINDOW_CLOSE (R215): a window is open through its closing cycle, to the end of it. -/
def execReceiveWindowClose (k : Nat) (s : State) : Out := coreCycle s k (fun s _ => closeWindows s k)

/-- The changes of a core's cycle that set an offset in its table: the compaction of the range notes a core that holds it, with its
pour and the cycle (R279). -/
def noteMoved (s : State) (k : Nat) : State :=
  let c := getCore s k
  (dueOf c c.dcc isRret).1.foldl (fun s f => match f.eff with
    | .rret asid a _ => if c.ranges.all (fun p => !isRange asid a p.2) then s else modPkg s (pkgOf k) (fun p => { p with compactions := p.compactions.map (fun m =>
        if m.asid = asid ∧ m.base = a then { m with applied := (k, c.pid, c.dcc) :: m.applied.filter (fun x => x.1 != k) } else m) })
    | _ => s) s

/-- RANGE_CHANGE_REACH (R277). -/
def execRangeChangeReach (k : Nat) (s : State) : Out := coreCycle s k (fun s _ => reachRanges (noteMoved s k) k)

-- Holds (R103 to R110) ----------------------------------------------------------------------------------------------------------

/-- The announced cycle before which a domain freezes: the earlier of a hold's and a scheduler stop's (R105, R107, R317). -/
def effectOf (d : Domain) : Option Nat :=
  match d.freeze, d.stopAt with
  | some a, some b => some (min a b)
  | some a, none => some a
  | none, b => b

/-- The condition that clears a cause, and the agent that cleared it (R103, R349). -/
def clearedBy (s : State) (c : Cause) : Option Agent :=
  let x := getLc (getCore s c.core) c.lc
  match c.code with
  | 1 => if x.p ≠ x.a then some x.agent else none
  | 2 =>
    let k := getCore s c.core
    if (match c.lc with
        | 0 => decide (0 ≤ k.credit) && decide (k.outstanding.length ≤ Config.creditCap)
        | l + 1 => decide (0 ≤ beatCreditOf k l)) then some c.agent else none
  | 3 => if (getPkg s (pkgOf c.core)).thermal then none else some { kind := 7 }
  | _ => none

/-- The causes of a domain whose condition holds now clear; a cleared landing-counter wait acquires (R103, R291). -/
def clearMet (s : State) (pid : Nat) : State :=
  match findDom s pid with
  | none => s
  | some d =>
    let new := d.causes.filter (fun c => !c.cleared && (clearedBy s c).isSome)
    if new.isEmpty then s
    else
      let s1 := modDom s pid (fun d =>
        { d with lastClear := s.clock
                 causes := d.causes.map (fun c => match clearedBy s c with
                   | some g => if c.cleared then c else { c with cleared := true, agent := g }
                   | none => c) })
      (new.filter (fun c => c.code == 1)).foldl (fun s c => acquire s c.core c.lc) s1

/-- A slack overrun clears as the release is announced, with no further condition (R103): once every other cause has cleared, be that
in the local clock of its raise, before the hold has taken effect (log 17). -/
def clearOverrun (d : Domain) (clock : Nat) : Domain :=
  if d.causes.any (fun c => c.code == 4 && !c.cleared) && d.causes.all (fun c => c.code == 4 || c.cleared) then
    { d with lastClear := clock
             causes := d.causes.map (fun c => if c.code = 4 then { c with cleared := true, agent := { kind := 8 } } else c) }
  else d

/-- The causes that clear in a local clock. -/
def clearCauses (s : State) (pid : Nat) : State :=
  let s := clearMet s pid
  modDom s pid (fun d => clearOverrun d s.clock)

/-- The domain freezes before DCC F (R105, R106). -/
def freezeDomain (s : State) (d : Domain) : State :=
  modDom s d.pid (fun d => { d with status := .held, freeze := some d.dcc, heldAt := s.clock, framed := false })

/-- How many entries a core has in flight (R319, R369). -/
def entryCount (c : CoreState) : Nat := (allEntries c).length

/-- The memory key of the RCB that a stop spends its token from, plus one. -/
def tokenOf : Option StopWhy → Nat
  | some (.checkpoint _ _ t) => t
  | some (.kill t) => t
  | none => 0

/-- A priority token is spent in the cycle its stop takes effect (R306). -/
def spendToken (s : State) (d : Domain) : State :=
  match tokenOf d.schedStop with
  | 0 => s
  | r + 1 =>
    let w := (Memory.word s.mem (r + 8)).toNat
    if bits w 0 8 = 0 then s else hubWrite s (Memory.writeNat s.mem (r + 8) 8 (w - 1))

/-- A checkpoint whose stop has frozen the domain spends its token, or is cancelled with its token when a core holds more entries than its slot
takes; the decision becomes a drain (R308, R369). -/
def keepCheckpoint (s : State) (d : Domain) : State :=
  match d.schedStop with
  | some (.checkpoint ..) =>
    if d.doomed then s
    else if d.stopAt.isSome ∧ d.all.any (fun k => decide (Config.slotEntries < entryCount (getCore s k))) then
      modDom s d.pid (fun d => { d with schedStop := none, stopAt := none, drain := true, drainMarked := false, lastClear := s.clock })
    else if d.stopAt.isSome then spendToken s d else s
  | _ => s

/-- A scheduler stop keeps the domain frozen (R308). -/
def stopsDomain (d : Domain) : Bool :=
  match d.schedStop with
  | some (.kill _) => true
  | some (.checkpoint ..) => d.stopAt.isSome
  | none => false

/-- What a frozen domain does: a stopping fault ends the pour; stopped cores' frames are written, before a kill too, which then ends it
(R309, R316 to R318, R323). -/
def atFreeze (s : State) (d : Domain) : State :=
  if d.doomed then endFaulted s d
  else
    let frames := fun (s : State) => if !d.framed && d.all.any (fun k => (getCore s k).stop.isSome) then writeFrames s d else s
    match d.schedStop with
    | some (.kill _) => let s := frames s; { s with agenda := .ev (.pourKill d.pid) :: s.agenda }
    | _ => frames (if stopsDomain d then finishPuts s d else s)

/-- HOLD_EFFECT (R105, R313, R317). -/
def execHoldEffect (pid : Nat) (s : State) : Out :=
  .next (match findDom s pid with
    | none => s
    | some d =>
      match d.status with
      | .run =>
        if effectOf d = some d.dcc then
          let s := keepCheckpoint (freezeDomain s d) d
          match findDom s pid with
          | some d => atFreeze s d
          | none => s
        else s
      | .held | .catchUp => atFreeze s d
      | .slack _ => s)

-- Slack points (R94, R112 to R114) --------------------------------------------------------------------------------------------

/-- The clocks that a package spends at a slack point before clamping (R113). -/
def slackClocks (d : Domain) (n pkg : Nat) : Int :=
  if d.pkgs.headD pkg = pkg then ((n / 2 : Nat) : Int) else ((n / 2 : Nat) : Int) + Sparse.get 0 d.lead pkg

/-- The first core of a domain in a package: the one that wait-log entries of causes 3, 4 and 7 name, where the spec speaks of the
package alone (log 94). -/
def coreIn (d : Domain) (pkg : Nat) : Nat := (d.cores.find? (fun k => pkgOf k == pkg)).getD (d.cores.headD 0)

/-- One package at a slack point: an overrun raises its hold, and d > 0 writes a wait-log entry (R113, R114). -/
def packageSlack (s : State) (d : Domain) (n pkg : Nat) : State :=
  let x := slackClocks d n pkg
  let k := coreIn d pkg
  let s := if x < 0 ∨ (n : Int) < x then raiseCause s d.pid ⟨4, k, ccSt, .cc, 0, 0, { kind := 8 }, false⟩ else s
  let spent := min x.toNat n
  if spent = 0 then s else waitLog s k d.part d.dcc spent d.pid 0 ⟨7, k, ccSt, .cc, 0, 0, { kind := 8 }, true⟩

/-- The domain reaches a slack point with allowance n: agreement of its cores (R112), then, in group span, the clocks. Cause 10 is raised on
the cc stream of the first core that has not declared the point, where the spec says only that the package raises it (log 95). -/
def spendSlack (s : State) (d : Domain) (n : Nat) : State :=
  let s := modDom s d.pid (fun d => { d with slackDone := d.dcc + 1 })
  let live := d.all.filter (fun k => liveIn s d k && (getCore s k).stop.isNone)
  let s := match (if d.slackPts.contains (d.dcc, n) then none else live.find? (fun k => !(getCore s k).slackPts.contains (d.dcc, n))) with
    | some k => takeFault s k .cc ccSt 0 fSchedule 10 []
    | none => s
  if d.span ≠ 2 then s
  else
    let s := d.pkgs.foldl (fun s p => packageSlack s d n p) s
    if n / 2 = 0 then s else modDom s d.pid (fun d => { d with status := .slack (n / 2 - 1) })

/-- A running domain before a DCC that is a slack point not spent yet (R94, R113). -/
def reachSlack (s : State) (d : Domain) : State :=
  if d.dcc < d.slackDone then s
  else match (d.slackPts ++ declared s d).find? (fun x => x.1 == d.dcc) with
    | some x => spendSlack s d x.2
    | none => s

/-- SLACK_POINT (R113): before DCC S the clocks pass; S then runs. -/
def execSlackPoint (pid : Nat) (s : State) : Out :=
  .next (match findDom s pid with
    | none => s
    | some d =>
      match d.status with
      | .slack 0 => modDom s pid (fun d => { d with status := .run })
      | .slack (n + 1) => modDom s pid (fun d => { d with status := .slack n })
      | .run => reachSlack s d
      | _ => s)

-- The release (R108, R109, R299) --------------------------------------------------------------------------------------------

/-- Causes in the order of their wait-log entries: by core, then by station (R109). -/
def insCause (c : Cause) : List Cause → List Cause
  | [] => [c]
  | g :: r => if c.core < g.core ∨ (c.core = g.core ∧ c.station ≤ g.station) then c :: g :: r else g :: insCause c r

/-- A held domain may run again: every cause has cleared H local clocks ago, no core is stopped, nothing else stops it (R108). -/
def mayRelease (s : State) (d : Domain) : Bool :=
  d.status == .held && d.causes.all (fun c => c.cleared) && !d.doomed && !stopsDomain d &&
    d.all.all (fun k => (getCore s k).stop.isNone) && decide (d.lastClear + d.h ≤ s.clock)

/-- The release: one wait-log entry per cause; Lead is reset after a slack overrun (R109, R113). -/
def releaseDomain (s : State) (d : Domain) : State :=
  let clk := s.clock - d.heldAt
  let s := (d.causes.foldr insCause []).foldl (fun s c =>
    waitLog s c.core d.part d.dcc clk d.pid (if c.code = 1 then c.lc else 0) c) s
  let s := d.all.foldl (fun s k => modCore s k (fun c => { c with repaired := [] })) s
  modDom s d.pid (fun d =>
    { d with status := .run, freeze := none, stopAt := none, causes := [], framed := false
             holdClocks := d.holdClocks + (if d.causes.isEmpty then 0 else clk)
             lead := if d.causes.any (fun c => c.code == 4) then [] else d.lead })

/-- HOLD_RELEASE (R108, R109): a domain released before a slack point spends it first (R94). -/
def execHoldRelease (pid : Nat) (s : State) : Out :=
  let s := clearCauses s pid
  .next (match findDom s pid with
    | some d =>
      if mayRelease s d then
        let s := releaseDomain s d
        match findDom s pid with
        | some d => reachSlack s d
        | none => s
      else s
    | none => s)

/-- The hold clocks of a pour, the present local clock and hold included (R109); a scheduler stop counts against no budget (R308). -/
def holdClocksNow (s : State) (d : Domain) : Nat :=
  d.holdClocks + (if (d.status == .held || d.status == .catchUp) && !d.causes.isEmpty then s.clock - d.heldAt + 1 else 0)

/-- The effective HOLDB of a domain's region (R297, R298). -/
def holdBudget (s : State) (d : Domain) : Nat := bits (effWord s d.home d.region 4 5) 0 48

/-- HOLD_BUDGET_EXCEEDED (R299): the pour takes hold-budget, in the local clock that is one too many, and ends at its freeze. It is raised
on the core and stream of the hold's first cause: the rule speaks of the pour alone (log 101). -/
def execHoldBudgetExceeded (pid : Nat) (s : State) : Out :=
  .next (match findDom s pid with
    | none => s
    | some d =>
      match d.causes with
      | [] => s
      | c :: _ =>
        if (d.status = .held ∨ d.status = .catchUp) ∧ holdBudget s d < holdClocksNow s d then
          let s := takeFault s c.core c.stream c.station c.evt fHoldBudget 0 []
          match findDom s pid with
          | some d => endFaulted s d
          | none => s
        else s)

-- Credits (R104, R330) --------------------------------------------------------------------------------------------------------

/-- The granule rate of a core's region: RATE, in units of 2^-24 granules (R297). -/
def rateOf (s : State) (k : Nat) : Nat :=
  match domOf s k with
  | some d => min (bits (effWord s d.home d.region 2 4) 0 32) (2 ^ 24)
  | none => 0

/-- RATE_CREDIT_REFILL (R104): the credit gains the rate up to 768; requests that the memory side has served are no longer
outstanding. -/
def execRateCreditRefill (k : Nat) (s : State) : Out :=
  let r := rateOf s k
  .next (modCore s k (fun c =>
    { c with credit := min (c.credit + r) (Config.creditCap * Config.creditUnit : Nat)
             outstanding := c.outstanding.filter (fun t => decide (s.clock < t)) }))

/-- BEAT_CREDIT_REFILL (R330): every link's credit gains LINK / 2^16 times 11/12 beats up to 64. -/
def execBeatCreditRefill (k : Nat) (s : State) : Out :=
  let share := match domOf s k with
    | some d => bits (effWord s d.home d.region 3 4) 32 16
    | none => 0
  .next (modCore s k (fun c =>
    { c with beatCredit := c.beatCredit.filterMap (fun x =>
        let v := x.2 + ((11 * share : Nat) : Int)
        if v < 0 then some (x.1, v) else none) }))

-- The advance (R93) -------------------------------------------------------------------------------------------------------------

/-- Runner values move one station; a value at its destination leaves the runner (R15, R18). A value whose unit has its row by now
carries it (R196). -/
def moveRunners (c : CoreState) : List RunVal :=
  c.runners.filterMap (fun v =>
    match v.left with
    | 0 => none
    | n + 1 => some { v with
        station := (if v.run < 4 then v.station + 1 else v.station + 11) % 12, left := n
        row := match v.row with | some r => some r | none => carriedRow c v (c.dcc + v.left + 1) })

/-- The stream code of a trace record (R342). -/
def recordStream (r : List Word) : Nat := bits (r.getD 1 0).toNat 54 2

/-- The kind of a trace record (R342). -/
def recordKind (r : List Word) : Nat := bits (r.getD 1 0).toNat 56 8

/-- Records of one DCC follow increasing stream code (R343). -/
def insRecord (r : List Word) : List (List Word) → List (List Word)
  | [] => [r]
  | q :: l => if recordStream r ≤ recordStream q then r :: q :: l else q :: insRecord r l

/-- The records of the present DCC in their order, behind those that earlier cycles left in the buffer (R343). -/
def orderRecords (c : CoreState) : CoreState :=
  { c with trace := c.trace.take c.traceOld ++ (c.trace.drop c.traceOld).foldr insRecord [], traceOld := c.trace.length }

/-- A core's mirror advances; what it held at a stop is held until it lands (R319). -/
def advanceCore (c : CoreState) : CoreState :=
  { c with dcc := c.dcc + 1, runners := moveRunners c, readRows := c.portReads, portReads := [], portWrites := [], beatPorts := []
           wrote := [], spadPast := (c.spad :: c.spadPast).take 16
           slackPts := c.slackPts.filter (fun x => decide (c.dcc < x.1 + 4096))
           atStop := c.atStop.filter (fun f => c.inflight.any f.same) }

/-- A core that stops in its cycle keeps its mirror (R313): what is in flight after the cycle is what its frame lists. -/
def stopCore (c : CoreState) : CoreState := { c with atStop := c.inflight }

/-- The end of a core's cycle. -/
def endCore (c : CoreState) : CoreState :=
  let c := orderRecords { c with leaving := [], ibdNow := [] }
  if c.stop.isSome then stopCore c else advanceCore c

-- Pairs (R116, R117) ----------------------------------------------------------------------------------------------------------------

/-- Two effects of one place in their commands. -/
def samePlace (f g : Flight) : Bool := f.stream == g.stream && f.seq == g.seq && f.sub == g.sub

/-- The effects of a first list that a second has not got, and those that only the second has. -/
def pairDifference (a b : List Flight) : List Flight :=
  a.filter (fun f => !b.any (fun g => samePlace f g && g.eff == f.eff)) ++ b.filter (fun g => !a.any (samePlace g))

/-- An effect that differs goes no further (R117): it is taken back from both cores, a beat from the cores it was sent to, a
transfer from its window. -/
def suppress (s : State) (d : Domain) (p q : Nat) (f : Flight) : State :=
  let out := fun (c : CoreState) => { c with inflight := c.inflight.filter (fun g => !(samePlace f g && isOutward g.eff)) }
  let s := modCore (modCore s p out) q out
  let job := (getCore s p).jobs.find? (fun j => j.stream == f.stream && j.seq == f.seq)
  match f.eff with
  | .beat _ _ rel _ =>
    match job with
    | some j => match j.kind with | .send _ rcore _ _ _ => dropBeat s d rel rcore j f.sub | _ => s
    | none => s
  | .header _ | .spad .. =>
    { s with xfers := s.xfers.filter (fun x =>
        !(x.core == p && (x.start == s.clock || (match job with | some j => j.nums.head? == some x.id | none => false)))) }
  | _ => s

/-- The comparison of the effects that leave a pair in a cycle, in that cycle (R116). -/
def comparePair (s : State) (d : Domain) (p q : Nat) : State :=
  let a := (getCore s p).leaving
  let b := (getCore s q).leaving
  (pairDifference a b).foldl (fun s f => pairFault (suppress s d p q f) p f b) s

def comparePairs (s : State) (d : Domain) : State :=
  d.pairs.foldl (fun s x => if liveIn s d x.1 && liveIn s d x.2 then comparePair s d x.1 x.2 else s) s

/-- An append beyond 16 entries is not made and raises fq-overflow at its landing (R149). -/
def checkQueue (s : State) (k : Nat) : State :=
  let c := getCore s k
  if c.fq.length ≤ 16 then s
  else
    takeFault (setCore s k { c with fq := c.fq.take 16 }) k .cc ccSt c.fqEvt fFqOver 0 [toWord c.fqSeq, 0, 0, 0]

/-- A stream that waits for a slack point when every other stream of the domain has ended raises schedule-miss cause 9 (R111). A pair
runs one set of streams (R115). -/
def checkWaits (s : State) (d : Domain) : State :=
  let open' := d.cores.flatMap (fun k => [Stream.cc, .cp, .ve, .ce].filterMap (fun st =>
    if (getStream (getCore s k) st).ended then none else some (k, st)))
  match open' with
  | [x] =>
    if liveIn s d x.1 && (getCore s x.1).stop.isNone && waitsForSlack s x.1 x.2 && !(declared s d).any (fun p => decide (d.dcc < p.1))
    then takeFault s x.1 x.2 (stationOf x.2) 0 fSchedule 9 [] else s
  | _ => s

/-- A stop record's place: before the watch records of its command in this cycle (R353), or else at the end. -/
def stopIndex (c : CoreState) (r : List Word) : Nat :=
  c.traceOld + (c.trace.drop c.traceOld).findIdx (fun q =>
    q.getD 3 0 == r.getD 3 0 && recordStream q == recordStream r && (recordKind q == 2 || recordKind q == 3))

/-- A watch hit later in the cycle is taken up by the core's IBD commands of that cycle that found none pending, each with its record
(R345, R346); in catch-up it stays pending (R346). -/
def takeLateStop (s : State) (d : Domain) (k : Nat) : State :=
  let c := getCore s k
  if c.stopReq && d.status == .run then
    c.ibdNow.foldl (fun s x =>
      let s := raiseCause (insertRecord s k (stopIndex (getCore s k) x.1) x.1) d.pid ⟨5, k, x.2.2.1, x.2.1, x.2.2.2, 0, { kind := 6 }, false⟩
      modCore s k (fun c => { c with stopTaken := true })) s
  else s

/-- Debug stops taken up in this cycle are pending no more (R345). -/
def settleStops (s : State) (d : Domain) : State :=
  let s := d.all.foldl (fun s k => takeLateStop s d k) s
  let s := d.all.foldl (fun s k => modCore s k (fun c => { c with stopReq := c.stopReq && !c.stopTaken, stopTaken := false })) s
  modDom s d.pid (fun d => { d with debugReq := d.debugReq && !d.debugTaken, debugTaken := false })

/-- Every mirror of the domain that runs the cycle advances; catch-up ends at F (R93, R313, R314). -/
def advanceDomain (s : State) (d : Domain) : State :=
  let live := d.all.filter (fun k => liveIn s d k)
  let s := live.foldl checkQueue s
  let s := settleStops (checkWaits (comparePairs s d) d) d
  let s := clearCauses s d.pid
  let s := live.foldl (fun s k => modCore s k endCore) s
  modDom s d.pid (fun d =>
    { d with dcc := d.dcc + 1, slackPts := d.slackPts.filter (fun x => decide (d.dcc < x.1 + 4096))
             status := if d.status = .catchUp ∧ d.freeze.getD 0 ≤ d.dcc + 1 then .held else d.status })

/-- DCC_ADVANCE (R93). -/
def execDccAdvance (pid : Nat) (s : State) : Out := .next (inCycle s pid advanceDomain)

end Sys2Proof.Machine
end

