-- ==== Sys2Proof/Machine/Launch.lean ====
section
/-! DEFINITION. Moulds and the pending pool (R177, R178, R300 to R302). -/

namespace Sys2Proof.Machine

/-- A pool entry that is free (R177, R301): the lowest (log 91). -/
def freeEntry (p : Part) : Option Nat := (List.range 64).find? (fun e => !p.pool.any (fun a => a.entry == e))

/-- The name of a pour in the model: its identifier (R301), with the number of the package that armed it above bit 63. -/
def pourKey (pkg pid : Nat) : Nat := pkg * 2 ^ 64 + pid % 2 ^ 64

/-- The identifier of a partition's next armed pour: PART in bits 63:60, its arm count below (R301). -/
def nextPid (p : Part) (part : Nat) : Nat := part * 2 ^ 60 + (p.arms + 1) % 2 ^ 60

/-- A copy of a mould takes a pool entry (R301). -/
def poolAdd (s : State) (pkg part no e : Nat) (m : List Word) : State :=
  modPart s pkg part (fun p =>
    { p with arms := p.arms + 1
             pool := p.pool ++ [{ pid := pourKey pkg (nextPid p part), part := part, mouldNo := no, mould := m, entry := e, since := s.clock }] })

/-- Arm a mould (R177, R301): the state, and the status word. -/
def armMould (s : State) (pkg part no : Nat) : State × Word :=
  let m := getMould s pkg no
  let p := getPart s pkg part
  if mouldOwned m part = false then (s, 2)
  else if p.arming = false then (s, 1)
  else match freeEntry p with
    | none => (s, 1)
    | some e => (poolAdd s pkg part no e m, toWord (e * 2 ^ 8))

/-- A freed pool entry goes to the backlog, oldest first (R302). -/
def refillPool (s : State) (pkg part : Nat) : State :=
  (getPart s pkg part).backlog.foldl (fun s b =>
    let p := getPart s pkg part
    match freeEntry p with
    | some e => if p.arming then modPart (poolAdd s pkg part b.1 e b.2) pkg part (fun p => { p with backlog := p.backlog.drop 1 }) else s
    | none => s) s

/-- The parameter words of a mould are its words 8 to 23 (R300). -/
def setParam (m : List Word) (n : Nat) (v : Word) : List Word := m.set (8 + n) v

def isArm : Effect → Bool | .arm .. => true | _ => false
def isMpat : Effect → Bool | .mpat .. => true | _ => false

/-- A request of a core at the hub: an arm, whose status goes to the core and its pair partner (R115, R177), or a parameter
word (R178). -/
def hubRequest (s : State) (k : Nat) (f : Flight) : State :=
  match f.eff with
  | .arm r no =>
    let (s, v) := armMould s (pkgOf k) (ownPart s k) no
    let e : Flight := { f with eff := .sreg r v }
    match domOf s k with
    | some d => addBoth s d k e
    | none => modCore s k (fun c => sput c r v)
  | .mpat no n v =>
    modPkg s (pkgOf k) (fun p => { p with moulds := Sparse.set [] p.moulds no (setParam (Sparse.get [] p.moulds no) n v) })
  | _ => s

/-- A system core's key (R11): numbers 640 to 647. -/
def isSystemCore (k : Nat) : Bool := decide (640 ≤ numOf k) && decide (numOf k < 648)

/-- A system core's requests of a kind, in the local clock in which it made them (log 3). -/
def sysRequests (s : State) (k : Nat) (p : Effect → Bool) : State :=
  let c := getCore s k
  (c.inflight.filter (fun f => p f.eff)).foldl (fun s f => hubRequest s k f)
    (setCore s k { c with inflight := c.inflight.filter (fun f => !p f.eff) })

/-- The requests of a kind that a core's cycle brings to the hub; a secondary's never proceed (R116). -/
def hubRequests (s : State) (d : Domain) (k : Nat) (p : Effect → Bool) : State :=
  let c := getCore s k
  let (due, c) := dueOf c d.dcc p
  let s := setCore s k c
  if primaryOf d k = k then due.foldl (fun s f => hubRequest s k f) s else s

/-- ARM_POOL_ARRIVAL (R177): requests of one cycle are taken in increasing core number, as the clock's order of these steps
gives. -/
def execArmPoolArrival (k : Nat) (s : State) : Out :=
  if isSystemCore k then .next (sysRequests s k isArm) else coreCycle s k (fun s d => hubRequests s d k isArm)

/-- MPAT_LANDING (R178). -/
def execMpatLanding (k : Nat) (s : State) : Out :=
  if isSystemCore k then .next (sysRequests s k isMpat) else coreCycle s k (fun s d => hubRequests s d k isMpat)

end Sys2Proof.Machine
end

