-- ==== Sys2Proof/Machine/Sched.lean ====
section
/-! DEFINITION. Regions, admission, and pre-emption (R297 to R299, R303, R306 to R308, R366). -/

namespace Sys2Proof.Machine

-- Regions (R297, R298) -----------------------------------------------------------------------------------------------------------

/-- A word of an RCB. -/
def rcbWord (m : Memory) (pkg rcb n : Nat) : Nat := (Memory.word m (pkg * 2 ^ 39 + rcb + 8 * n)).toNat

/-- PARENT. -/
def parentRcb (m : Memory) (pkg rcb : Nat) : Nat := bits (rcbWord m pkg rcb 0) 0 39

/-- The RCBs from a region towards the root, at most as many as the first number says. -/
def rcbPath (m : Memory) (pkg : Nat) : Nat → Nat → List Nat
  | 0, _ => []
  | n + 1, rcb => rcb :: (if parentRcb m pkg rcb = 0 then [] else rcbPath m pkg n (parentRcb m pkg rcb))

/-- The reserved fields of an RCB are zero (R297). -/
def rcbClean (m : Memory) (pkg rcb : Nat) : Bool :=
  let w := rcbWord m pkg rcb
  bits (w 0) 39 25 == 0 && bits (w 1) 48 16 == 0 && bits (w 1) 20 16 == 0 && bits (w 1) 9 3 == 0 && bits (w 2) 17 47 == 0 &&
    bits (w 3) 40 24 == 0 && bits (w 4) 48 16 == 0 && bits (w 5) 48 16 == 0 && bits (w 8) 48 16 == 0 &&
    (List.range 7).all (fun i => w (9 + i) == 0)

/-- A root sets all twelve OVR bits (R298). -/
def rootFull (m : Memory) (pkg rcb : Nat) : Bool := bits (rcbWord m pkg rcb 1) 36 12 == 0xFFF

/-- A region at level 8 at the deepest, without a nonzero reserved field, under a full root (R298). -/
def regionValid (m : Memory) (pkg rcb : Nat) : Bool :=
  let p := rcbPath m pkg 8 rcb
  let root := p.getLastD rcb
  parentRcb m pkg root == 0 && p.all (rcbClean m pkg) && rootFull m pkg root

/-- Where a start failure is reported: the region itself, or the nearest valid ancestor (R298). A path of blocks that hold anything has no
more of them than memory has cells; with none valid nothing is reported (log 26). -/
def reportRcb (m : Memory) (pkg rcb : Nat) : Option Nat := (rcbPath m pkg (m.length + 1) rcb).find? (regionValid m pkg)

-- Shapes (R300) --------------------------------------------------------------------------------------------------------------------

def mouldWord (m : List Word) (n : Nat) : Nat := (m.getD n 0).toNat
def mSpan (m : List Word) : Nat := bits (mouldWord m 0) 54 2
def mPkgs (m : List Word) : Nat := bits (mouldWord m 0) 46 8
def mCpp (m : List Word) : Nat := bits (mouldWord m 0) 36 10
def mPair (m : List Word) : Bool := bits (mouldWord m 0) 60 1 == 1
def mAsid (m : List Word) : Nat := bits (mouldWord m 0) 24 12
def mRegion (m : List Word) : Nat := bits (mouldWord m 1) 0 39

/-- Cores that the pour takes in each of its packages. -/
def mNeed (m : List Word) : Nat := if mPair m then 2 * mCpp m else mCpp m

/-- A shape that a domain can have (R92, R300). -/
def shapeOk (m : List Word) : Bool :=
  decide (1 ≤ mCpp m ∧ mCpp m ≤ 640) &&
    (match mSpan m with
     | 0 | 1 => mPkgs m == 1
     | 2 => decide (2 ≤ mPkgs m ∧ mPkgs m ≤ 144)
     | _ => false)

-- Members of a pour (R303, R340, R365) ---------------------------------------------------------------------------------------------

/-- A number in its place of a rising list. -/
def insNat (x : Nat) : List Nat → List Nat
  | [] => [x]
  | y :: r => if x ≤ y then x :: y :: r else y :: insNat x r

/-- The package that armed a pour, by the pour's key: its home. -/
def homeOf (pid : Nat) : Nat := pid / 2 ^ 64

/-- A package in service: it has power, and its links' beacons have all been received for a group-span pour (R365). -/
def powered (s : State) (pkg : Nat) : Bool := !(getPkg s pkg).poweredOff
def attached (s : State) (pkg : Nat) : Bool :=
  powered s pkg && (List.range 32).all (fun n =>
    (getLink s pkg n).state == 2 && Sparse.get 0 (getPkg s pkg).beacons n != 0)

/-- Packages by rack-group position. -/
def insPos (s : State) (p : Nat) : List Nat → List Nat
  | [] => [p]
  | q :: r => if (getPkg s p).pos ≤ (getPkg s q).pos then p :: q :: r else q :: insPos s p r

/-- The member packages of a group-span pour, restored ones included, by position (R312, R340, R365; log 13): its home, which is the
timebase, and the attached packages that follow it. -/
def members (s : State) (a : Armed) : List Nat :=
  let all := (s.pkgs.map Prod.fst).filter (attached s)
  if all.contains (homeOf a.pid) then
    ((all.foldr (insPos s) []).dropWhile (fun p => p != homeOf a.pid)).take (mPkgs a.mould)
  else []

/-- A pour whose start must fail waits for no cores (R298, R300). -/
def startDoomed (s : State) (a : Armed) : Bool :=
  !shapeOk a.mould || !regionValid s.mem (homeOf a.pid) (mRegion a.mould) || (mSpan a.mould == 2 && (members s a).length != mPkgs a.mould)

-- Waiting pours (R303) ---------------------------------------------------------------------------------------------------------------

/-- A waiting pour's effective priority (R303). -/
def effPriority (s : State) (a : Armed) : Nat :=
  let prio := bits (effWord s (homeOf a.pid) (mRegion a.mould) 5 1) 12 4
  let cap := bits (effWord s (homeOf a.pid) (mRegion a.mould) 6 1) 16 4
  max a.floor (if cap < prio then prio else min cap (prio + (s.clock - a.since) / 2 ^ 20))

/-- The armed pours of a package: its pools and the restored ones. -/
def armedOn (s : State) (pkg : Nat) : List Armed :=
  let p := getPkg s pkg
  p.parts.flatMap (fun x => x.2.pool) ++ p.waiting

/-- The pours that wait in a package's schedulers: its own, and the group-span pours of other packages that it is a member of. -/
def waitingOn (s : State) (pkg : Nat) : List Armed :=
  (armedOn s pkg).filter (fun a => !a.admitted) ++
    s.pkgs.flatMap (fun q => if q.1 = pkg then [] else (armedOn s q.1).filter (fun a =>
      !a.admitted && mSpan a.mould == 2 && !startDoomed s a && (members s a).contains pkg))

/-- The ranking of a round (R303). -/
def insArmed (x : Nat × Armed) : List (Nat × Armed) → List (Nat × Armed)
  | [] => [x]
  | y :: r => if y.1 < x.1 ∨ (y.1 = x.1 ∧ x.2.pid % 2 ^ 64 ≤ y.2.pid % 2 ^ 64) then x :: y :: r else y :: insArmed x r

def findArmed (s : State) (pkg pid : Nat) : Option Armed := (armedOn s pkg).find? (fun a => a.pid == pid)

def modArmed (s : State) (pkg pid : Nat) (f : Armed → Armed) : State :=
  let g := fun (a : Armed) => if a.pid = pid then f a else a
  modPkg s pkg (fun p =>
    { p with parts := p.parts.map (fun x => (x.1, { x.2 with pool := x.2.pool.map g })), waiting := p.waiting.map g })

/-- An armed pour leaves the pool or the waiting list; the backlog takes the freed entry (R301, R302). -/
def dropArmed (s : State) (pkg : Nat) (a : Armed) : State :=
  let keep := fun (x : Armed) => x.pid != a.pid
  let s := modPkg s pkg (fun p =>
    { p with parts := p.parts.map (fun x => (x.1, { x.2 with pool := x.2.pool.filter keep })), waiting := p.waiting.filter keep })
  refillPool s pkg a.part

-- Places (R303) ------------------------------------------------------------------------------------------------------------------------

/-- Cores reserved for, or admitted to, other armed pours. -/
def reservedCores (s : State) (pid : Nat) : List Nat :=
  s.pkgs.flatMap (fun p => (armedOn s p.1).flatMap (fun a => if a.pid = pid then [] else a.cores))

/-- The cores of a partition in a package that are not reserved for others, rising: the free ones, and the ones that run. -/
def openCores (s : State) (pid pkg part : Nat) (busy : Bool) : List Nat :=
  let res := reservedCores s pid
  (((getPart s pkg part).cores.map (fun n => pkg * 1024 + n)).foldr insNat []).filter
    (fun k => powered s pkg && !res.contains k && ((getCore s k).pid != 0) == busy)
def freeCores (s : State) (pid pkg part : Nat) : List Nat := openCores s pid pkg part false
def busyCores (s : State) (pid pkg part : Nat) : List Nat := openCores s pid pkg part true

/-- `n` cores of a list, on two dies where there are two or more (R92). -/
def pickSpread (l : List Nat) (n : Nat) : Option (List Nat) :=
  if l.length < n then none
  else
    let a := l.take n
    if n < 2 ∨ a.any (fun k => dieOf k != dieOf (a.headD 0)) then some a
    else match l.find? (fun k => dieOf k != dieOf (a.headD 0)) with
      | some k => some (l.take (n - 1) ++ [k])
      | none => none

/-- The pair partner of a core out of a list: the first on another die, or else the first (R115). -/
def mate (x : Nat) (l : List Nat) : Option Nat := (l.find? (fun y => dieOf y != dieOf x)) <|> l.head?

/-- `n` pairs out of a list, the lower number the primary (R115). -/
def pickPairs : Nat → List Nat → Option (List (Nat × Nat))
  | 0, _ => some []
  | _ + 1, [] => none
  | n + 1, x :: r => (mate x r).bind (fun y => (pickPairs n (r.erase y)).map (fun l => (min x y, max x y) :: l))

/-- A pour's cores in one package out of a list: any, or on two dies in package span (R92, R115). -/
def pickCores (m : List Word) (l : List Nat) : Option (List Nat) :=
  if mPair m then
    (pickPairs (mCpp m) l).bind (fun ps =>
      let a := ps.flatMap (fun p => [p.1, p.2])
      if mSpan m = 1 ∧ a.all (fun k => dieOf k == dieOf (a.headD 0)) then none else some a)
  else if mSpan m = 1 then pickSpread l (mCpp m)
  else if l.length < mCpp m then none else some (l.take (mCpp m))

/-- The concrete cores for a pour in a package out of a list, rising; a die-span pour's are all of one die. -/
def place (die : Nat) (a : Armed) (l : List Nat) : Option (List Nat) :=
  (pickCores a.mould (if mSpan a.mould = 0 then l.filter (fun k => dieOf k == die) else l)).map (fun l => l.foldr insNat [])

/-- On free cores; and, for a head's reservation, on any. -/
def placeFree (s : State) (pkg die : Nat) (a : Armed) : Option (List Nat) := place die a (freeCores s a.pid pkg a.part)
def placeAny (s : State) (pkg die : Nat) (a : Armed) : Option (List Nat) :=
  place die a (freeCores s a.pid pkg a.part ++ busyCores s a.pid pkg a.part)

/-- The shape of a waiting pour needs cores of a die (R303): its partition has some there, and for die span enough of them; a pour whose
start must fail stands in every list. -/
def needsDie (s : State) (pkg die : Nat) (a : Armed) : Bool :=
  let l := ((getPart s pkg a.part).cores.map (fun n => pkg * 1024 + n)).foldr insNat []
  startDoomed s a || (l.any (fun k => dieOf k == die) && (mSpan a.mould != 0 || (place die a l).isSome))

/-- A die's waiting list, ranked (R303). -/
def ranking (s : State) (pkg die : Nat) : List (Nat × Armed) :=
  (((waitingOn s pkg).filter (needsDie s pkg die)).map (fun a => (effPriority s a, a))).foldr insArmed []

/-- The cores reserved for a pour in a package. -/
def reservedIn (a : Armed) (pkg : Nat) : List Nat := a.cores.filter (fun k => pkgOf k == pkg)

/-- A pour's cores in a package are all reserved, and free. -/
def readyIn (s : State) (a : Armed) (pkg : Nat) : Bool :=
  (reservedIn a pkg).length == mNeed a.mould && (reservedIn a pkg).all (fun k => (getCore s k).pid == 0)

-- Budgets (R299, R366) --------------------------------------------------------------------------------------------------------------------

/-- The table that a core has at a pour's start: the valid ranges of the list in slot order, at most 64; with no list, what it
holds (R27, R275). -/
def startTable (s : State) (k asid : Nat) : Sparse RangeEntry :=
  match Sparse.get 0 (getPkg s (pkgOf k)).lists asid with
  | 0 => (getCore s k).ranges
  | _ =>
    let l := (listRanges s (pkgOf k) asid).take 64
    (List.range l.length).map (fun i => (i, l.getD i {}))

/-- The bytes that intervals cover together. -/
def coverBytes : List (Nat × Nat) → Nat
  | [] => 0
  | x :: r => (((r.foldl (fun ps y => ps.flatMap (fun p => cutRange p y)) [x]).map (fun p => p.2 - p.1)).foldl (· + ·) 0) + coverBytes r

/-- The bytes of the valid entries of cores' tables, each byte of a package's ranges once (R299; log 71). -/
def tableBytes (l : List (Nat × Sparse RangeEntry)) : Nat :=
  (((l.map (fun x => pkgOf x.1)).dedup).map (fun p =>
    coverBytes (((l.filter (fun x => pkgOf x.1 == p)).flatMap (fun x =>
      (x.2.filter (fun e => e.2.valid)).map (fun e => (e.2.base.toNat, e.2.limit.toNat)))).dedup))).foldl (· + ·) 0

def sumNat (l : List Nat) : Nat := l.foldl (· + ·) 0

/-- What a pour holds that budgets count: one that runs, or one that is admitted and about to start. -/
structure Holder where
  home : Nat
  region : Nat
  span : Nat
  cores : List Nat
  bytes : Nat
  deriving DecidableEq, Repr

/-- An armed pour on the cores given. -/
def armedHolder (s : State) (a : Armed) (cores : List Nat) : Holder :=
  ⟨homeOf a.pid, mRegion a.mould, mSpan a.mould, cores, tableBytes (cores.map (fun k => (k, startTable s k (mAsid a.mould))))⟩

/-- The pours that run or are about to. -/
def holders (s : State) : List Holder :=
  s.domains.map (fun d => ⟨d.home, d.region, d.span, d.all, tableBytes (d.all.map (fun k => (k, (getCore s k).ranges)))⟩) ++
    s.pkgs.flatMap (fun p => ((armedOn s p.1).filter (fun a => a.admitted)).map (fun a => armedHolder s a a.cores))

/-- A die of a package on which a group-span pour has a core uses the die's eight links (R327). -/
def usesDie (cores : List Nat) (pkg die : Nat) : Bool := cores.any (fun k => pkgOf k == pkg && dieOf k == die)

/-- The budgets of one RCB over the pours given (R299). -/
def budgetOk (s : State) (pkg rcb : Nat) (hs : List Holder) : Bool :=
  let ovr := fun b => bits (rcbWord s.mem pkg rcb 1) (36 + b) 1 == 1
  let run := hs.filter (fun h => h.home == pkg && onPath s.mem pkg rcb 8 h.region)
  (!ovr 0 || decide (sumNat (run.map (fun h => h.cores.length)) ≤ bits (rcbWord s.mem pkg rcb 2) 0 17)) &&
  (!ovr 1 || decide (sumNat (run.map (fun h => h.bytes)) ≤ bits (rcbWord s.mem pkg rcb 3) 0 40)) &&
  (!ovr 3 || (run.flatMap (fun h => h.cores.map (fun k => (pkgOf k, dieOf k)))).dedup.all (fun x =>
    decide (sumNat ((run.filter (fun h => h.span == 2 && usesDie h.cores x.1 x.2)).map (fun h => bits (effWord s pkg h.region 3 4) 32 16))
      ≤ 2 ^ 16)))

/-- A pour's effective granule rate (R297, R298). -/
def Holder.rate (s : State) (h : Holder) : Nat := min (bits (effWord s h.home h.region 2 4) 0 32) (2 ^ 24)

/-- The granule rates of the cores on a die (R299). -/
def dieRate (s : State) (hs : List Holder) (pkg die : Nat) : Nat :=
  sumNat (hs.map (fun h => h.rate s * (h.cores.filter (fun k => pkgOf k == pkg && dieOf k == die)).length))

/-- The power figures of the pours in a package (R366). -/
def powerUsed (s : State) (hs : List Holder) (pkg : Nat) : Nat :=
  sumNat ((hs.filter (fun h => h.cores.any (fun k => pkgOf k == pkg))).map (fun h => Sparse.get 0 (getPkg s pkg).power h.region))

/-- A pour's cores fit into their dies' rates and their packages' power beside what runs (R299, R366). -/
def fitsDies (s : State) (h : Holder) : Bool :=
  let hs := h :: holders s
  (h.cores.map (fun k => (pkgOf k, dieOf k))).dedup.all (fun x => decide (dieRate s hs x.1 x.2 ≤ 64 * 2 ^ 24)) &&
    (h.cores.map pkgOf).dedup.all (fun p => decide (powerUsed s hs p ≤ (getPkg s p).powerBudget))

/-- A pour fits on the cores given (R299, R303, R366). -/
def fits (s : State) (a : Armed) (cores : List Nat) : Bool :=
  let h := armedHolder s a cores
  (rcbPath s.mem h.home 8 h.region).all (fun rcb => budgetOk s h.home rcb (h :: holders s)) && fitsDies s h

-- Pre-emption (R306 to R308) -----------------------------------------------------------------------------------------------------------------

/-- The first RTT entry whose P lies at least H beyond the DCC: index, P, remaining cycles (R300, R306). -/
def usableRtt (s : State) (d : Domain) : Option (Nat × Nat × Nat) :=
  let base := d.home * 2 ^ 39 + mouldWord d.mould 4 % 2 ^ 39
  if mouldWord d.mould 4 = 0 then none
  else
    let rec go : Nat → Nat → Option (Nat × Nat × Nat)
      | 0, _ => none
      | n + 1, i =>
        let p := (Memory.word s.mem (base + 16 * i)).toNat
        if d.dcc + d.h ≤ p then some (i, p, (Memory.word s.mem (base + 16 * i + 8)).toNat) else go n (i + 1)
    go (bits (mouldWord d.mould 5) 0 16) 0

/-- The checkpoint cost (R307). -/
def checkpointCost (s : State) (d : Domain) : Nat :=
  let n := (d.all.map (fun k => entryCount (getCore s k))).foldl max 0
  2 * (d.h + 1280 + (5 * (27904 + 3 * n) + 1) / 2)

/-- A region's TOKENS that no pending decision has claimed, with the key of the block that holds them (R298, R306). -/
def tokensLeft (s : State) (pkg region : Nat) : Nat × Nat :=
  match effRcb s.mem pkg 7 8 region with
  | none => (0, 0)
  | some r =>
    let key := pkg * 2 ^ 39 + r
    (bits (rcbWord s.mem pkg r 1) 0 8 - (s.domains.filter (fun d => tokenOf d.schedStop == key + 1)).length, key)

/-- The victim drains (R308); it marks its next IBD command once. -/
def drainVictim (s : State) (d : Domain) : State :=
  modDom s d.pid (fun d => { d with schedStop := none, stopAt := none, drain := true, drainMarked := d.drain && d.drainMarked })

/-- A stop of a pre-emption takes the place of what was decided before. -/
def stopVictim (s : State) (d : Domain) (w : Option StopWhy) : State :=
  modDom s d.pid (fun d => { d with schedStop := w, stopAt := none, drain := false, drainMarked := false })

/-- A mailbox command stops the pour, or the stop has frozen it, its token spent: no decision changes it. -/
def stopFixed (d : Domain) : Bool :=
  (d.status == .held && stopsDomain d) || d.status == .catchUp || (d.schedStop.isSome && tokenOf d.schedStop == 0)

/-- A head, by its pour, ranks above a running pour and has cores of it reserved: its decision about it applies (R306). -/
def headOver (s : State) (d : Domain) (pid : Nat) : Bool :=
  s.pkgs.any (fun p => p.2.heads.any (fun x =>
    decide (x.2.1 = pid ∧ d.priority < x.2.2) && (match findArmed s (homeOf pid) pid with
      | some a => d.all.any (fun k => (reservedIn a p.1).contains k)
      | none => false)))

/-- Another head's decision about the victim stands (R306). -/
def decidedBefore (s : State) (d : Domain) (pid : Nat) : Bool := d.decider != 0 && d.decider != pid && headOver s d d.decider

/-- The decision for one victim: the first rule that applies (R306). An earlier decision of the same head, and its token, give way to
it; another head's that still applies stands, but for a drain, which a stop overtakes. -/
def decideVictim (s : State) (h : Armed) (prio : Nat) (d : Domain) : State :=
  if stopFixed d ∨ (decidedBefore s d h.pid ∧ d.schedStop.isSome) then s
  else
    let other := decidedBefore s d h.pid
    let s := modDom s d.pid (fun d => { d with schedStop := none, decider := if other then d.decider else h.pid })
    let stop := fun (w : Option StopWhy) => stopVictim (modDom s d.pid (fun d => { d with decider := h.pid })) d w
    let (t, block) := tokensLeft s (homeOf h.pid) (mRegion h.mould)
    let rtt := usableRtt s d
    let r := match rtt with | some x => x.2.2 | none => 0
    let drainAt := bits (effWord s d.home d.region 11 8) 0 48
    if prio ≤ d.priority then (if other then s else stopVictim s d none)
    else if r ≤ drainAt ∨ t = 0 then drainVictim s d
    else if bits (mouldWord d.mould 0) 62 1 = 1 ∧ checkpointCost s d < r then
      stop (rtt.map (fun x => .checkpoint x.1 x.2.1 (block + 1)))
    else if bits (mouldWord d.mould 0) 61 1 = 1 then stop (some (.kill (block + 1)))
    else drainVictim s d

/-- Victims in increasing priority (R306). -/
def insVictim (d : Domain) : List Domain → List Domain
  | [] => [d]
  | e :: r => if d.priority ≤ e.priority then d :: e :: r else e :: insVictim d r

/-- PRE_EMPTION_DECISION (R306): for every running pour that holds a core that the package has reserved for the head. -/
def preempt (s : State) (pkg : Nat) (h : Armed) (prio : Nat) : State :=
  ((s.domains.filter (fun d => d.all.any (fun k => (reservedIn h pkg).contains k))).foldr insVictim []).foldl
    (fun s d => decideVictim s h prio d) s

/-- The heads that have cores of a running pour reserved, with their priorities (R306). -/
def headsOver (s : State) (d : Domain) : List (Armed × Nat) :=
  (s.pkgs.flatMap (fun p => p.2.heads.filterMap (fun x =>
    match findArmed s (homeOf x.2.1) x.2.1 with
    | some a => if d.all.any (fun k => (reservedIn a p.1).contains k) then some (a, x.2.2) else none
    | none => none))).dedup

/-- A decision that no longer applies is cancelled, and so is its token; what the other heads decide then stands (R306). -/
def cancelDecision (s : State) (d : Domain) : State :=
  if (tokenOf d.schedStop ≠ 0 ∨ d.drain) ∧ d.status ≠ .held ∧ headOver s d d.decider = false then
    let s := modDom s d.pid (fun d =>
      { d with schedStop := if tokenOf d.schedStop ≠ 0 then none else d.schedStop
               stopAt := if tokenOf d.schedStop ≠ 0 then none else d.stopAt, drain := false, decider := 0 })
    (headsOver s d).foldl (fun s h => match findDom s d.pid with | some d => decideVictim s h.1 h.2 d | none => s) s
  else s

def cancelDecisions (s : State) : State := s.domains.foldl cancelDecision s

-- Rounds (R303) ----------------------------------------------------------------------------------------------------------------------------------

/-- A pour is admitted onto cores; its start follows. -/
def admitOn (s : State) (a : Armed) (cores : List Nat) : State :=
  let pkg := homeOf a.pid
  let s := modArmed s pkg a.pid (fun a => { a with cores := cores, admitted := true })
  { s with agenda := (if a.restore.isSome then .ev (.pourRestore pkg a.pid) else .ev (.pourStart pkg a.pid)) :: s.agenda }

/-- Reserve cores of a package for a pour, in the place of those it had there. -/
def reserveIn (s : State) (pkg : Nat) (a : Armed) (cores : List Nat) : State :=
  modArmed s (homeOf a.pid) a.pid (fun a => { a with cores := a.cores.filter (fun k => pkgOf k != pkg) ++ cores })

/-- A group-span pour in the walk of one member package: its cores there are reserved as soon as they are free, and its home
admits it when every member has it reserved in full (R303). `none`: it does not fit. -/
def walkGroup (s : State) (pkg die : Nat) (a : Armed) : Option State :=
  match (if readyIn s a pkg then some (reservedIn a pkg) else placeFree s pkg die a) with
  | none => none
  | some mine =>
    if fitsDies s (armedHolder s a mine) = false then none
    else
      let s := reserveIn s pkg a mine
      let a := (findArmed s (homeOf a.pid) a.pid).getD a
      let ps := members s a
      if pkg ≠ homeOf a.pid ∨ ps.all (readyIn s a) = false then some s
      else
        let cores := ps.flatMap (reservedIn a)
        if fits s a cores then some (admitOn s a cores) else none

/-- One waiting pour of a walk: admitted, or the head, or neither. -/
def walkOne (pkg die : Nat) (x : State × Option (Nat × Armed)) (y : Nat × Armed) : State × Option (Nat × Armed) :=
  let (s, head) := x
  let a := (findArmed s (homeOf y.2.pid) y.2.pid).getD y.2
  if (getPart s (homeOf a.pid) a.part).arming = false then x
  else if startDoomed s a then (admitOn s a [], head)
  else if mSpan a.mould = 2 then
    match walkGroup s pkg die a with
    | some s => (s, head)
    | none => (s, head <|> some (y.1, a))
  else
    match placeFree s pkg die a with
    | some cores => if fits s a cores then (admitOn s a cores, head) else (s, head <|> some (y.1, a))
    | none =>
      let elsewhere := mSpan a.mould == 0 && (List.range 4).any (fun q => (placeFree s pkg q a).isSome)
      if elsewhere then (s, head) else (s, head <|> some (y.1, a))

/-- The head's concrete cores are reserved; a head that stays keeps its own (R303). -/
def reserve (s : State) (pkg die : Nat) (h : Armed) : State :=
  if (reservedIn h pkg).isEmpty then reserveIn s pkg h ((placeAny s pkg die h).getD []) else s

/-- A head that is one no longer gives its reservation up, but for the cores that a group-span pour has in full (R303). -/
def unreserve (s : State) (pkg pid : Nat) : State :=
  match findArmed s (homeOf pid) pid with
  | none => s
  | some a => if a.admitted || (mSpan a.mould == 2 && readyIn s a pkg) then s else reserveIn s pkg a []

/-- SCHEDULING_ROUND (R303, R306): rank, walk, reserve for the head; a new head, or one whose priority has risen, decides about its
victims. -/
def execSchedulingRound (pkg die : Nat) (s : State) : Out :=
  let old := Sparse.get (0, 0) (getPkg s pkg).heads die
  let (s, head) := (ranking s pkg die).foldl (walkOne pkg die) (s, none)
  let now := match head with | some h => (h.2.pid, h.1) | none => (0, 0)
  let others := (List.range 4).any (fun q => q != die && (Sparse.get (0, 0) (getPkg s pkg).heads q).1 == old.1)
  let s := if old.1 ≠ now.1 ∧ others = false then unreserve s pkg old.1 else s
  let s := modPkg s pkg (fun p => { p with heads := Sparse.set (0, 0) p.heads die now })
  .next (match head with
    | none => cancelDecisions s
    | some h =>
      let s := cancelDecisions (reserve s pkg die h.2)
      if old.1 ≠ now.1 ∨ old.2 < now.2 then preempt s pkg ((findArmed s (homeOf h.2.pid) h.2.pid).getD h.2) h.1 else s)

/-- PRIORITY_AGING (R303, R306): a head whose effective priority has risen decides again. -/
def execPriorityAging (pkg pid : Nat) (s : State) : Out :=
  .next (match findArmed s (homeOf pid) pid with
    | none => s
    | some a =>
      let prio := effPriority s a
      (List.range 4).foldl (fun s die =>
        let h := Sparse.get (0, 0) (getPkg s pkg).heads die
        if h.1 = pid ∧ h.2 < prio then
          preempt (modPkg s pkg (fun p => { p with heads := Sparse.set (0, 0) p.heads die (pid, prio) })) pkg a prio
        else s) s)

/-- A stop's token is gone: the block that held it has none left (R306). -/
def tokenGone (s : State) (w : StopWhy) : Bool :=
  match tokenOf (some w) with
  | 0 => false
  | key + 1 => bits (Memory.word s.mem (key + 8)).toNat 0 8 == 0

/-- SCHEDULER_STOP (R308): announces a decided stop: for a checkpoint at DCC P - H, so that the freeze falls before P; for a kill
at the next cycle. A stop whose token is gone is a drain (R306). -/
def execSchedulerStop (pid : Nat) (s : State) : Out :=
  .next (match findDom s pid with
    | none => s
    | some d =>
      match d.schedStop with
      | none => s
      | some w =>
        let due := match w with | .checkpoint _ p _ => decide (p ≤ d.dcc + d.h) | .kill _ => true
        if d.status ≠ .run ∨ d.stopAt.isSome ∨ due = false then s
        else if tokenGone s w then drainVictim s d
        else modDom s pid (fun d => { d with stopAt := some (d.dcc + d.h) }))

end Sys2Proof.Machine
end

