-- ==== Sys2Proof/Machine/Pours.lean ====
section
/-! DEFINITION. The life of a pour: start, end, kill, checkpoint and restore (R22, R23, R27, R70, R94, R301, R302, R304, R308 to
R312, R340, R342, R356, R365, R369). -/

namespace Sys2Proof.Machine

-- Start (R304) ---------------------------------------------------------------------------------------------------------------------

/-- A ring register that may start: its block 0 to 5, SIZE to 9, reserved bits zero (R22, R23). -/
def ringOk (r : Word) : Bool := bits r.toNat 25 39 == 0 && decide (bits r.toNat 21 4 ≤ 9) && decide (bits r.toNat 18 3 < 6)

/-- Why a start fails (R23, R70, R92, R298, R304, R356, R365): the code of its record; permission for what R23 describes. -/
def startFault (s : State) (pkg : Nat) (a : Armed) (image : Option (List Config.CoreImage)) : Option Nat :=
  let m := a.mould
  let feature := fun bit => (Sparse.get 0 (getPkg s pkg).featActive (a.part + 1)).getLsbD bit
  if startDoomed s a then some 0
  else if (mPair m && !feature 0) || (mSpan m == 2 && !feature 3) then some 0
  else match image with
    | none => some 0
    | some l =>
      if l.length ≠ mPkgs m * mCpp m ∨ a.cores.length ≠ mPkgs m * mNeed m ∨ l.any (fun c => c.rings.length != 4) then some 0
      else if l.any (fun c => c.rings.any (fun r => !ringOk r) || c.sy.any (fun y => !symValid y.2)) then some fPermission
      else none

/-- A stream at a pour's start: nothing fetched, its ring and seed (R22, R24, R27). -/
def freshStream (ring seed : Word) : StreamSt := { ring := ring, seed := seed, ended := false }

/-- Scratchpad as an image loads it, then as many parameter words at PADDR as the image's .mould gives, sixteen at the most; a word
that the scratchpad has no room for is dropped (R158, R304; log 72). -/
def loadSpad (bytes : List (Nat × Byte)) (n : Nat) (m : List Word) : Memory :=
  let base := (bytes.filter (fun x => decide (x.1 < 6 * 2 ^ 18))).foldl (fun mem x => Memory.write mem x.1 x.2) []
  (List.range (min 16 n)).foldl (fun mem i =>
    let a := bits (mouldWord m 6) 0 21 + 8 * i
    if a + 8 ≤ 6 * 2 ^ 18 then Memory.writeNat mem a 8 (mouldWord m (8 + i)) else mem) base

/-- A core at a pour's start (R27, R304): what is not loaded is zero; range table, watch filter, selectors and trace buffer are
not the pour's. -/
def loadCore (old : CoreState) (pid : Nat) (im : Config.CoreImage) (m : List Word) (ranges : Sparse RangeEntry) : CoreState :=
  let st := fun i => freshStream (im.rings.getD i 0) (im.seeds.getD i 0)
  { ({} : CoreState) with
    pid := pid, cc := st 0, cp := st 1, ve := st 2, ce := st 3, spad := loadSpad im.spad im.params m
    sy := (im.sy.filter (fun y => decide (y.1 < 16))).foldl (fun t y => Sparse.set {} t y.1 ⟨true, y.2⟩) []
    pm := (im.pm.filter (fun x => decide (x.1 < 64))).foldl (fun t x => Sparse.set 0 t x.1 x.2) []
    cb := (im.cb.filter (fun x => decide (x.1 < 64))).foldl (fun t x => Sparse.set 0 t x.1 x.2) []
    ranges := ranges, watch := old.watch, evsel := old.evsel, trace := old.trace, traceOld := old.trace.length }

/-- The packages of a list of cores, in its order. -/
def packagesOf (cores : List Nat) : List Nat :=
  cores.foldl (fun l k => if l.contains (pkgOf k) then l else l ++ [pkgOf k]) []

/-- The domain of a pour on the cores given (R92, R115, R340): in each package the primaries, rising. Lead starts at 0 in every
package (R113; log 73). -/
def newDomain (s : State) (pkg : Nat) (a : Armed) : Domain :=
  let ps := packagesOf a.cores
  let part := fun p => reservedIn a p
  let pairs := fun p => if mPair a.mould then (pickPairs (mCpp a.mould) (part p)).getD [] else []
  { pid := a.pid, part := a.part, asid := mAsid a.mould, mouldNo := a.mouldNo, mould := a.mould
    cores := ps.flatMap (fun p => if mPair a.mould then ((pairs p).map Prod.fst).foldr insNat [] else part p)
    pairs := ps.flatMap pairs
    span := mSpan a.mould, pkgs := ps, h := if mSpan a.mould = 2 then 1280 else 128
    slackPts := if mSpan a.mould = 2 then [(0, 4096)] else []
    priority := effPriority s a }

/-- How many records at the end of a trace buffer are of a DCC and of a stream above 0: a record of stream 0 of that DCC stands before them
(R343). -/
def laterStreams (dcc : Nat) (l : List (List Word)) : Nat :=
  (l.reverse.takeWhile (fun r => r.getD 0 0 == toWord dcc && recordStream r != 0)).length

/-- A start or end record of a core (R342), before the records of the same DCC that higher streams have written (R343). -/
def pourRecord (s : State) (kind : Nat) (d : Domain) (dcc k : Nat) : State :=
  if bits (traceCtl s k) 0 1 = 1 then
    let l := (getCore s k).trace
    insertRecord s k (l.length - laterStreams dcc l) [toWord dcc, traceHead s kind 0 0 k 0, toWord d.pid, toWord (d.asid * 2 ^ 52)]
  else s

/-- A start that fails writes a kind 7 record, frees the entry and runs nothing (R298, R304). -/
def failStart (s : State) (pkg : Nat) (a : Armed) (code : Nat) : State :=
  dropArmed (match reportRcb s.mem pkg (mRegion a.mould) with
    | some rcb => faultLog s pkg a.part rcb (logRecord s 7 code pkg 0 a.pid (mAsid a.mould) a.mouldNo [])
    | none => s) pkg a

/-- The cores of a domain load, and the pool entry is free. A thermal signal that stands is a cause from DCC 0 (R103, R366). -/
def beginPour (s : State) (pkg : Nat) (a : Armed) (images : List Config.CoreImage) : State :=
  let d := newDomain s pkg a
  let load := fun (s : State) (k : Nat) =>
    setCore s k (loadCore (getCore s k) d.pid (images.getD (relOf d k) ⟨[], [], [], [], [], [], 0⟩) a.mould (startTable s k d.asid))
  let s := d.all.foldl load s
  let s := d.all.foldl (fun s k => pourRecord s 6 d 0 k) { s with domains := s.domains ++ [d] }
  let s := (d.pkgs.filter (fun p => (getPkg s p).thermal)).foldl (fun s p =>
    raiseCause s d.pid ⟨3, coreIn d p, ccSt, .cc, 0, 0, { kind := 7 }, false⟩) s
  dropArmed s pkg a

/-- POUR_START (R304): DCC 0 runs in the next local clock; a group-span pour takes its slack point first (R94). -/
def execPourStart (pkg pid : Nat) (s : State) : Out :=
  .next (match findArmed s pkg pid with
    | none => s
    | some a =>
      if a.admitted = false ∨ a.restore.isSome then s
      else
        let image := Config.pourImage s.mem (pkg * 2 ^ 39 + mouldWord a.mould 2 % 2 ^ 39)
        match startFault s pkg a image with
        | some code => failStart s pkg a code
        | none => beginPour s pkg a (image.getD []))

-- End (R302) -------------------------------------------------------------------------------------------------------------------------

/-- A core has issued its last command, and its last landing has taken place; a change on its way from a system core is no landing of
its own. -/
def coreDone (c : CoreState) : Bool :=
  c.cc.ended && c.cp.ended && c.ve.ended && c.ce.ended && c.inflight.all (fun f => isReach f.eff) && !c.jobs.any Job.pending && c.rwins.isEmpty &&
    c.stop.isNone

/-- SUCCESSOR_ARM (R302): armed, put into the backlog, or reported lost in a record of kind 6. -/
def armSuccessor (s : State) (d : Domain) (no : Nat) : State :=
  let pkg := d.home
  let report := fun (s : State) (why : Nat) =>
    faultLog s pkg d.part d.region (logRecord s 6 0 pkg 0 d.pid d.asid d.mouldNo [toWord no, toWord why])
  let m := getMould s pkg no
  if mouldOwned m d.part = false then report s 2
  else
    let (s1, v) := armMould s pkg d.part no
    if v ≠ 1 then s1
    else if (getPart s pkg d.part).backlog.length < 64 then modPart s pkg d.part (fun p => { p with backlog := p.backlog ++ [(no, m)] })
    else report s 1

/-- The valid successors of a mould, SUCC0 first (R300). -/
def successors (m : List Word) : List Nat :=
  (List.range 4).filterMap (fun i => if bits (mouldWord m 7) (48 + i) 1 = 1 then some (bits (mouldWord m 7) (12 * i) 12) else none)

/-- POUR_END (R302): a normal end arms the successors. -/
def execPourEnd (pid : Nat) (s : State) : Out :=
  .next (match findDom s pid with
    | none => s
    | some d =>
      if d.status = .run ∧ d.all.all (fun k => coreDone (getCore s k)) then
        let s := d.all.foldl (fun s k => pourRecord s 7 d (d.dcc - 1) k) s
        (successors d.mould).foldl (fun s no => armSuccessor s d no) (removeDomain s pid)
      else s)

-- Kill (R309) --------------------------------------------------------------------------------------------------------------------------

/-- POUR_KILL (R309): at the freeze everything in flight is discarded; a kind 3 record. -/
def execPourKill (pid : Nat) (s : State) : Out :=
  .next (match findDom s pid with
    | none => s
    | some d =>
      match d.schedStop with
      | some (.kill _) =>
        if d.status = .held ∨ d.status = .catchUp then
          let pkg := d.home
          let s := faultLog (spendToken s d) pkg d.part d.region (logRecord s 3 0 pkg 0 pid d.asid d.mouldNo [] d.dcc)
          removeDomain s pid
        else s
      | _ => s)

-- Checkpoint (R310, R311) -----------------------------------------------------------------------------------------------------------------

/-- Untimed transfers that count into the pour's counters or write its cores' scratchpad, and have started (R311). -/
def transfersPending (s : State) (d : Domain) : Bool :=
  s.xfers.any (fun x =>
    decide (x.start ≤ d.heldAt) && (x.pid == d.pid ||
      (!x.get && d.all.any (fun k => (getPkg s (pkgOf k)).pos == bits (x.record.getD 2 0).toNat 12 8 &&
        numOf k == bits (x.record.getD 2 0).toNat 20 10)))) ||
  s.pkgs.any (fun p => p.2.dma.any (fun x => x.started && (x.cnt || x.spad) && d.all.contains x.core))

/-- A row file as the cells of a memory, and back. -/
def rowCells (m : Sparse Row) : Memory := m.foldl (fun mem x => Memory.writeNat mem (128 * x.1) 128 x.2.toNat) []
def rowsAt (m : Memory) (a n : Nat) : Sparse Row :=
  (List.range n).foldl (fun t i => Sparse.set 0 t i (BitVec.ofNat 1024 (Memory.readNat m (a + 128 * i) 128))) []

/-- Bytes from one row of a crucible slot to the next in its 2 KiB: 128 (R202), or for more rows than that has room for the row's
own bytes (log 12). -/
def slotPitch (sl : Slot) : Nat := if sl.rows ≤ 16 then 128 else (Ty.bits sl.ty * sl.cols + 7) / 8

/-- The crucible as the cells of a memory, and back (R310); a row that an earlier, longer fill left past a slot's 2 KiB is no part of it. -/
def slotCells (c : CoreState) : Memory :=
  c.cruc.foldl (fun mem x =>
    let w := slotPitch (getSlot c (x.1 / 32))
    if 2048 < w * (x.1 % 32 + 1) then mem else Memory.writeNat mem (2048 * (x.1 / 32) + w * (x.1 % 32)) w x.2.toNat) []
def slotsAt (m : Memory) (a : Nat) (c : CoreState) : Sparse Row :=
  (List.range 32).foldl (fun t n =>
    let sl := getSlot c n
    (List.range sl.rows).foldl (fun t r =>
      Sparse.set 0 t (32 * n + r) (BitVec.ofNat 1024 (Memory.readNat m (a + 2048 * n + slotPitch sl * r) (slotPitch sl)))) t) []

/-- Bytes that the spec lays out nowhere (log 12): free values. -/
def freeCells (first n : Nat) : Memory :=
  (List.range n).filterMap (fun i =>
    let b := BitVec.ofNat 8 (Config.freeWord (first + i)).toNat
    if b = 0 then none else some (i, b))

/-- One core's slot (R310): the stores, the frame at the start of the state block, the entries; the state block's further bytes
have no layout. -/
def saveSlot (s : State) (d : Domain) (area k : Nat) : State :=
  let c := getCore s k
  let f := d.freeze.getD d.dcc
  let stop := match c.stop with | some x => x.cycle | none => f
  let es := coreEntries c stop
  let slot := slotAt area (relOf d k)
  let m := Memory.splice s.mem slot 0x180000 c.spad
  let m := Memory.splice m (slot + 0x180000) 0x10000 (rowCells c.rows)
  let m := Memory.splice m (slot + 0x190000) 0x10000 (slotCells c)
  let m := Memory.splice m (slot + 0x1A0000) 0x2000 (rowCells c.pm)
  let m := Memory.splice m (slot + 0x1A2000) 0x2000 (rowCells c.cb)
  let m := Memory.splice m (slot + 0x1A4100) 0xFF00 (freeCells s.free 0xFF00)
  let m := writeRun' m (slot + 0x1A4000) 8 ((frameWords s d k f es.length).map BitVec.toNat)
  hubWrite { s with free := s.free + 0xFF00 } (writeRun' m (slot + 0x1B4000) 192 (es.take Config.slotEntries))

/-- The header of a checkpoint area (R310). -/
def saveHeader (s : State) (d : Domain) (area rtt : Nat) : State :=
  let causes := (d.causes.filter (fun c => !c.cleared)).map (fun c => c.code)
  let mask := (List.range 8).foldl (fun a i => if causes.contains i then a + 2 ^ i else a) 0
  hubWrite s (writeRun' s.mem area 8 [d.pid, d.mouldNo, d.freeze.getD d.dcc, mouldWord d.mould 0, rtt, mask])

/-- Firmware has still to repair a stopped core, or to have the checkpoint saved with it as it is (R317; log 74). -/
def awaitsRepair (s : State) (d : Domain) : Bool := !d.saveNow && d.all.any (fun k => (getCore s k).stop.isSome)

/-- A core as it is saved; a change that is on its way to it from a system core is none of its entries (R191). -/
def savedCore (c : CoreState) : CoreState := { c with inflight := c.inflight.filter (fun f => !isReach f.eff) }

/-- The freeze cycle that a checkpoint's header holds (R310). -/
def Saved.f (v : Saved) : Nat := v.dom.freeze.getD v.dom.dcc

/-- What is kept beside the bytes of checkpoints (log 12): one record for a pour and a freeze cycle; the record whose area another
checkpoint has taken pins nothing any more (R319). -/
def keepSaved (l : List Saved) (v : Saved) : List Saved :=
  v :: (l.filter (fun x => !(x.pid == v.pid && x.f == v.f))).map (fun x => if x.area = v.area then { x with restored := true } else x)

/-- CHECKPOINT_SAVE (R311): every slot is saved, a kind 4 record written, the cores are free, and the pour waits again at its
identifier and priority. -/
def execCheckpointSave (pid : Nat) (s : State) : Out :=
  .next (match findDom s pid with
    | none => s
    | some d =>
      match d.schedStop with
      | some (.checkpoint rtt _ _) =>
        let pkg := d.home
        let area := ckptArea s d pkg
        if d.status ≠ .held ∨ d.stopAt.isNone ∨ d.doomed ∨ transfersPending s d ∨ awaitsRepair s d then s
        else
          let s := saveHeader s d area rtt
          let s := d.cores.foldl (fun s k => saveSlot s d area k) s
          let v : Saved := ⟨area, pid, d, (List.range d.cores.length).map (fun i => (i, savedCore (getCore s (d.cores.getD i 0)))), false⟩
          let s := { s with saved := keepSaved s.saved v }
          let s := faultLog s pkg d.part d.region (logRecord s 4 0 pkg 0 pid d.asid d.mouldNo [] (d.freeze.getD d.dcc))
          let s := removeDomain s pid
          modPkg s pkg (fun p => { p with waiting := p.waiting ++
            [{ pid := pid, part := d.part, mouldNo := d.mouldNo, mould := d.mould, entry := 64, since := s.clock, floor := d.priority
               restore := some area }] })
      | _ => s)

-- Restore (R312) ------------------------------------------------------------------------------------------------------------------------------

/-- A send in progress names its receiver by its domain-relative number across the restore. -/
def moveJob (old new : Domain) (j : Job) : Job :=
  match j.kind with
  | .send src r addr run beats => { j with kind := .send src (new.cores.getD (relOf old r) r) addr run beats }
  | _ => j

/-- The checkpoint that an area's bytes hold, wherever they have been moved to: the record with the pour and the freeze cycle of their
header (R310, R312; log 12). -/
def savedAt (s : State) (area : Nat) : Option Saved :=
  s.saved.find? (fun v => v.area / 2 ^ 39 == area / 2 ^ 39 && v.pid % 2 ^ 64 == (Memory.word s.mem area).toNat &&
    v.f % 2 ^ 64 == (Memory.word s.mem (area + 16)).toNat)

/-- A word of the frame in a slot (R310, R318). -/
def slotWord (m : Memory) (slot n : Nat) : Nat := (Memory.word m (slot + 0x1A4000 + 8 * n)).toNat

/-- A stream's part of the cut, from the frame's words about stream `i` (R318): sequence number, ring address of the next unissued command,
iteration of the innermost loop. A command other than the saved one is fetched anew. -/
def restoreCut (m : Memory) (slot i : Nat) (t : StreamSt) : StreamSt :=
  let next := slotWord m slot (9 + i) % 2 ^ 21
  let t := { t with
    seq := slotWord m slot (5 + i)
    loops := match t.loops with
      | l :: r => { l with pass := l.pass / 2 ^ 32 * 2 ^ 32 + slotWord m slot (13 + i) % 2 ^ 32 } :: r
      | [] => [] }
  if ringAddr t.ring t.nextIdx = next then t
  else
    let n := (next - ringAddr t.ring 0) / 8
    { t with nextIdx := n, fetchIdx := n, fetchPtr := n, fetched := [], fetchHold := false }

/-- The parts of a slot's 192-byte entry, as a number: ADDR, OP, ENABLE, SRC, value (R319). -/
def inAddr (w : Nat) : Nat := bits w 64 64
def inOp (w : Nat) : Nat := bits w 192 64
def inEn (w : Nat) : Nat := bits w 256 128
def inSrc (w : Nat) : Nat := bits w 384 64
def inVal (w : Nat) : Nat := bits w 512 1024

/-- The operation of an atomic from OP and value, and the element type of an add from OP: entriesOf writes them (R319; log 62). -/
def atomOfEntry (w : Nat) : AtomOp :=
  match inOp w % 16 with
  | 1 => .add (toWord (inVal w))
  | 2 => .cas (toWord (inVal w)) (toWord (inVal w / 2 ^ 64))
  | _ => .swp (toWord (inVal w))
def typeOfEntry (w : Nat) : Ty := Ty.ofCode (inOp w / 16)

/-- A slot state from its number. -/
def slotStateOf : Nat → SlotSt
  | 0 => .free
  | 1 => .claimed
  | _ => .full

/-- What an effect carries, as its entries in a slot give it: for each of them ADDR, OP, ENABLE, SRC and value (R319). An exact sum of
OCONP, an accumulator's products and a fault on its way have no bytes there (log 12). -/
def entryEffect (e : Effect) (ws : List Nat) : Effect :=
  let w := ws.headD 0
  let val := inVal w
  let whole := fun (n : Nat) (g : Nat → Nat) => ws.foldr (fun w a => g w + 2 ^ n * a) 0
  let moved := fun (key at' : Nat) => key / 2 ^ 39 * 2 ^ 39 + at' % 2 ^ 39
  let rows := ws.map (fun w => BitVec.ofNat 1024 (inVal w))
  match e with
  | .sreg r _ => .sreg r (toWord val)
  | .row r _ _ ev => .row r (BitVec.ofNat 128 (inEn w)) (BitVec.ofNat 1024 val) ev
  | .spad a n _ _ lc => .spad a n (whole 128 inEn / 2 ^ (a % 128)) (whole 1024 inVal / 2 ^ (8 * (a % 128))) lc
  | .mask m _ _ => .mask m (BitVec.ofNat 128 (inEn w)) (BitVec.ofNat 128 val)
  | .kpred n _ => .kpred n ⟨BitVec.ofNat 10 val, BitVec.ofNat 2 (val / 2 ^ 16)⟩
  | .qp q _ => .qp q (toWord val)
  | .slotSt n _ => .slotSt n (slotStateOf val)
  | .fqAppend _ => .fqAppend (toWord val)
  | .fill n _ r c t => .fill n rows r c t
  | .pmRows n _ => .pmRows n rows
  | .cbRows n _ => .cbRows n rows
  | .lcset n _ => .lcset n (BitVec.ofNat 40 val)
  | .sysreg n _ => .sysreg n (toWord val)
  | .flags g _ => .flags g val
  | .watchAdd _ => .watchAdd val
  | .yloadRead n _ => .yloadRead n val
  | .yload n _ => .yload n (BitVec.ofNat 512 val)
  | .rloadRead n _ => .rloadRead n val
  | .rload n _ => .rload n (BitVec.ofNat 512 val)
  | .rsplit n m _ _ => .rsplit n m (toWord val) (val / 2 ^ 64)
  | .rinv asid _ => .rinv asid val
  | .mpat mould n _ => .mpat mould n (toWord val)
  | .memWrite key n _ _ lc => .memWrite (moved key (inAddr w)) n (inEn w) val lc
  | .memRead key n u => .memRead (moved key (inSrc w)) n u
  | .cellRead key ty raw a run => .cellRead (moved key (inSrc w)) ty raw a run
  | .atom key r _ => .atom (moved key (inAddr w)) r (atomOfEntry w)
  | .atomStore key _ clock => .atomStore (moved key (inAddr w)) (toWord val) clock
  | .cellInit key _ => .cellInit (moved key (inAddr w)) (asSigned 64 (val % 2 ^ 64))
  | .cellAdd key _ _ => .cellAdd (moved key (inAddr w)) (typeOfEntry w) val
  | .cellSum key _ x => .cellSum (moved key (inAddr w)) (typeOfEntry w) x
  | .kept (.job st seq p) n _ => .kept (.job st seq p) n (whole 1024 inVal / 2 ^ (8 * (p % 128)))
  | .kept u n _ => .kept u n val
  | .beat a _ d r => .beat a (BitVec.ofNat 1024 val) d r
  | e => e

/-- The entries of a slot that bear on a test, as numbers; a slot holds no more than its frame counts (R318, R319). -/
def slotEntriesOf (m : Memory) (slot : Nat) (l : List (Flight × Entry)) (p : Flight × Entry → Bool) : List Nat :=
  ((List.range (min (slotWord m slot 21 % 2 ^ 13) l.length)).filter (fun i => match l[i]? with | some x => p x | none => false)).map (fun i =>
    Memory.readNat m (slot + 0x1B4000 + 192 * i) 192)

/-- An entry is re-injected as its slot gives it (R312, R319): it lands in the stop cycle + DELAY. -/
def reinject (m : Memory) (slot stop : Nat) (l : List (Flight × Entry)) (f : Flight) : Flight :=
  match slotEntriesOf m slot l (fun x => x.1 == f) with
  | [] => f
  | ws =>
    let later := match l.find? (fun x => x.1 == f) with | some x => x.2.later | none => 0
    { f with at' := stop + bits (ws.headD 0) 0 32 - later, eff := entryEffect f.eff ws }

/-- A runner value carries the row that its entry gives (R20, R319). -/
def reinjectRun (m : Memory) (slot : Nat) (l : List (Flight × Entry)) (c : CoreState) (v : RunVal) : RunVal :=
  match slotEntriesOf m slot l (fun x => x == (riderFlight c v, riderEntry v)) with
  | [] => v
  | w :: _ => if v.row.isSome then { v with row := some (BitVec.ofNat 1024 (inVal w)) } else v

/-- A piece that a command in progress holds is what its entries give (R319, R337): a representative, or bytes of its buffer. -/
def refillPiece (m : Memory) (slot : Nat) (l : List (Flight × Entry)) (j : Job) (x : Nat × Nat × Nat × Nat) : Job :=
  (heldEntry j x).foldl (fun j' e =>
    match slotEntriesOf m slot l (fun y => y == (heldFlight j x.1 (x.2.1 + 1), e)) with
    | [] => j'
    | w :: _ =>
      if j.items.isEmpty = false then
        { j' with items := j'.items.modify (x.2.1 / x.2.2.1) (fun it => { it with val := inVal w }) }
      else
        let at' := match j.kind with | .cast .. => x.2.1 | _ => e.addr
        { j' with buf := Memory.writeMasked j'.buf at' (inEn w) (inVal w) 128 }) j

/-- The rows of a fill from scratchpad or memory, and of a CPVQ, that its unit holds are what their entries give; rows of an expansion are
made again from its elements (R203, R205, R319; log 12). -/
def refillRows (m : Memory) (slot : Nat) (l : List (Flight × Entry)) (j : Job) : Job :=
  match fillHeld j with
  | none => j
  | some (_, _, full, rows) =>
    let ws := slotEntriesOf m slot l (fun x => x.1 == heldFlight j full 0)
    let n := min rows.length ws.length
    match j.kind with
    | .fill .. =>
      { j with buf := (List.range n).foldl (fun b i => Memory.writeNat b (128 * i) 128 (inVal (ws.getD i 0))) j.buf }
    | .vq .. => { j with nums := (List.range n).foldl (fun v i => v.set i (inVal (ws.getD i 0))) j.nums }
    | _ => j

/-- A command in progress as its slot brings it back (R312). -/
def refillJob (m : Memory) (slot : Nat) (l : List (Flight × Entry)) (j : Job) : Job :=
  if !j.active || j.stopped then j else (unitHeld j).foldl (refillPiece m slot l) (refillRows m slot l j)

/-- Memory returns on their way to a command's buffer are in it (R319). -/
def keepReturned (c : CoreState) (f : Flight) : CoreState :=
  match f.eff with
  | .kept (.cast seq i) n v => fillJob c .cp seq (64 * i) n v
  | .kept (.job st seq p) n v => fillJob c st seq p n v
  | _ => c

/-- What a core has in flight, as its slot brings it back (R312, R319). -/
def returnedFlights (m : Memory) (slot : Nat) (c : CoreState) : List Flight :=
  c.inflight.map (reinject m slot (slotWord m slot 2) (sortedEntries c))

/-- Its commands in progress and its runners, and what was on its way to them (R20, R312, R319). -/
def returnedUnits (m : Memory) (slot : Nat) (c : CoreState) : CoreState :=
  let l := sortedEntries c
  (returnedFlights m slot c).foldl keepReturned
    { c with jobs := c.jobs.map (refillJob m slot l), runners := c.runners.map (reinjectRun m slot l c) }

/-- A core as its slot brings it back (R312): what the slot lays out comes from its bytes, stores, cut, mirror and entries, and what has
no layout as it was saved (log 12). What it has in flight goes on pinning its ranges (R319). Tables and filter are the partition's,
counters of events count from zero (R351). -/
def restoreCore (m : Memory) (slot : Nat) (old : CoreState) (d0 d : Domain) (c : CoreState) (ranges : Sparse RangeEntry) : CoreState :=
  let flights := returnedFlights m slot c
  let c := returnedUnits m slot c
  { c with spad := (m.filter (fun x => decide (slot ≤ x.1 ∧ x.1 < slot + 0x180000))).map (fun x => (x.1 - slot, x.2))
           rows := rowsAt m (slot + 0x180000) 512, cruc := slotsAt m (slot + 0x190000) c
           pm := rowsAt m (slot + 0x1A0000) 64, cb := rowsAt m (slot + 0x1A2000) 64
           cc := restoreCut m slot 0 c.cc, cp := restoreCut m slot 1 c.cp, ve := restoreCut m slot 2 c.ve, ce := restoreCut m slot 3 c.ce
           dcc := slotWord m slot 2, inflight := flights, atStop := flights, leaving := [], traceOld := old.trace.length
           stop := none, ranges := ranges, watch := old.watch, evsel := old.evsel, evcnt := [], trace := old.trace
           credit := Config.creditCap * Config.creditUnit, outstanding := [], beatCredit := [], stopReq := false, stopTaken := false
           repaired := [], jobs := c.jobs.map (moveJob d0 d) }

/-- The uncleared causes 1 and 2 that a restore raises again, by the header's bits (R310, R312). -/
def restoredCauses (v : Saved) (n : Domain) (mask : Nat) : List Cause :=
  (v.dom.causes.filter (fun c => !c.cleared && (c.code == 1 || c.code == 2) && bits mask c.code 1 == 1)).map (fun c =>
    { c with core := n.cores.getD (relOf v.dom c.core) c.core })

/-- The domain that is restored: held at F, with its causes raised again and that of a thermal signal that stands, and catching up where
a core stopped before F (R103, R312, R366). -/
def restoredDomain (s : State) (a : Armed) (v : Saved) (n : Domain) (f mask : Nat) : Domain :=
  let first := (n.all.map (fun k => (getCore s k).dcc)).foldl min f
  { n with
    dcc := first, status := if first < f then .catchUp else .held, freeze := some f
    causes := restoredCauses v n mask ++ (n.pkgs.filter (fun p => (getPkg s p).thermal)).map (fun p =>
      ⟨3, coreIn n p, ccSt, .cc, 0, 0, { kind := 7 }, false⟩)
    heldAt := s.clock, lastClear := s.clock, holdClocks := v.dom.holdClocks, slackDone := v.dom.slackDone
    slackPts := if n.span = 2 then [(f, 4096)] else [], priority := a.floor, drain := false }

/-- POUR_RESTORE (R312). Where the area holds no checkpoint that the model keeps, or another pour's, the pour is dropped with a record of
kind 7 and CODE 0: the spec gives no outcome (log 103). -/
def execPourRestore (pkg pid : Nat) (s : State) : Out :=
  .next (match findArmed s pkg pid with
    | none => s
    | some a =>
      if a.admitted = false then s
      else match a.restore with
        | none => s
        | some area =>
          match savedAt s area with
          | none => failStart s pkg a 0
          | some v =>
            if v.pid ≠ pid ∨ a.cores.length ≠ mPkgs a.mould * mNeed a.mould then failStart s pkg a 0
            else
              let n := newDomain s pkg a
              let s := { s with saved := s.saved.map (fun x => if x.pid = pid ∧ x.f = v.f then { x with restored := true } else x) }
              let s := n.all.foldl (fun s k =>
                let saved := ((v.cores.find? (fun x => x.1 == relOf n k)).map Prod.snd).getD {}
                setCore s k (restoreCore s.mem (slotAt area (relOf n k)) (getCore s k) v.dom n saved (startTable s k n.asid))) s
              let d := restoredDomain s a v n (Memory.word s.mem (area + 16)).toNat (Memory.word s.mem (area + 40)).toNat
              dropArmed { s with domains := s.domains ++ [{ d with slackDone := d.freeze.getD 0 }] } pkg a)

end Sys2Proof.Machine
end

