-- ==== Sys2Proof/Machine/Mailbox.lean ====
section
/-! DEFINITION. The pour-scheduler mailbox (R177, R292, R300, R308 to R312, R326, R341, R357, R358, R363, R366). -/

namespace Sys2Proof.Machine

/-- One record of a partition's mailbox: a partition that is not configured accepts none (R354); the status word is kept
(R358). -/
def mailbox (s : State) (pkg part : Nat) (f : State → State × Word) : Out :=
  .next (if (getPart s pkg part).configured then
      let (s, v) := f s
      modPart s pkg part (fun p => { p with status := v.toNat })
    else s)

/-- A record as a number of words, missing ones zero. -/
def recordWords (n : Nat) (l : List Word) : List Word := (List.range n).map (fun i => l.getD i 0)

/-- BUILD (R300, R357, R358): refused for a mould or an ASID of another partition, and where its region, image or RTT
lies in another's memory; an RTT word of 0 names no table. -/
def execBuild (pkg part no : Nat) (record : List Word) (s : State) : Out :=
  mailbox s pkg part (fun s =>
    let m := recordWords 32 record
    let old := mouldWord (getMould s pkg no) 0
    if 4096 ≤ no ∨ bits (mouldWord m 0) 56 4 ≠ part ∨ (bits old 63 1 = 1 ∧ bits old 56 4 ≠ part) ∨
        foreignAsid s pkg part (mAsid m) ∨ foreignAddr s pkg part (mRegion m) ∨
        foreignAddr s pkg part (mouldWord m 2 % 2 ^ 39) ∨ (mouldWord m 4 ≠ 0 ∧ foreignAddr s pkg part (mouldWord m 4 % 2 ^ 39)) then (s, 1)
    else (modPkg s pkg (fun p => { p with moulds := Sparse.set [] p.moulds no m }), 0))

/-- ARMX (R177, R358): arms as ARM does, with its status. -/
def execArmx (pkg part no : Nat) (s : State) : Out := mailbox s pkg part (fun s => armMould s pkg part no)

/-- The running pour of a partition with an identifier. -/
def partDom (s : State) (pkg part pid : Nat) : Option Domain :=
  match findDom s (pourKey pkg pid) with
  | some d => if d.part = part then some d else none
  | none => none

/-- The waiting pour of a partition with an identifier. -/
def partArmed (s : State) (pkg part pid : Nat) : Option Armed :=
  match findArmed s pkg (pourKey pkg pid) with
  | some a => if a.part = part then some a else none
  | none => none

/-- KILL (R309, R358): a running pour is killed at its freeze; a waiting one leaves its list with the same record. -/
def execKill (pkg part pid : Nat) (s : State) : Out :=
  mailbox s pkg part (fun s =>
    match partDom s pkg part pid, partArmed s pkg part pid with
    | some d, _ => (requestKill s d.pid 0, 0)
    | none, some a =>
      (dropArmed (faultLog s pkg part (mRegion a.mould) (logRecord s 3 0 pkg 0 a.pid (mAsid a.mould) a.mouldNo [])) pkg a, 0)
    | none, none => (s, 1))

/-- CKPT (R308, R358): at the next usable RTT point, with no priority check and no token; refused without CKP or without such a
point; busy while another stop is decided. For a pour that its checkpoint's stop holds with cores at their stop cycles it is
firmware's choice to save it so (R317; log 74). -/
def execCkpt (pkg part pid : Nat) (s : State) : Out :=
  mailbox s pkg part (fun s =>
    match partDom s pkg part pid with
    | none => (s, 1)
    | some d =>
      if (d.status == .held && d.stopAt.isSome && awaitsRepair s d && (match d.schedStop with | some (.checkpoint ..) => true | _ => false)) then
        (modDom s d.pid (fun d => { d with saveNow := true }), 0)
      else if d.schedStop.isSome then (s, 2)
      else if bits (mouldWord d.mould 0) 62 1 = 0 then (s, 1)
      else match usableRtt s d with
        | some (i, p, _) => (modDom s d.pid (fun d => { d with schedStop := some (.checkpoint i p 0) }), 0)
        | none => (s, 1))

/-- The agent that signals resume (R349): the system core that wrote the record; of a record that the host's function wrote, the lowest
system core of the partition (log 13). -/
def systemAgent (s : State) (pkg part : Nat) : Agent :=
  { kind := 5, core := if s.ctx.sys then numOf s.ctx.core else (least (getPart s pkg part).sysCores).getD 640 }

/-- RESUME (R314, R326, R358): refused unless the domain is frozen with a core that a deferred fault has stopped. -/
def execResume (pkg part pid : Nat) (s : State) : Out :=
  mailbox s pkg part (fun s =>
    match partDom s pkg part pid with
    | none => (s, 1)
    | some d =>
      if (d.status = .held ∨ d.status = .catchUp) ∧ d.doomed = false ∧ d.all.any (fun k => (getCore s k).stop.isSome) then
        (beginCatchUp s d.pid (systemAgent s pkg part), 0)
      else (s, 1))

/-- RESTORE (R312, R358): the pour that the area holds re-enters the waiting list, unless it runs or waits, or the area is another
partition's memory (R357). -/
def execRestore (pkg part area : Nat) (s : State) : Out :=
  mailbox s pkg part (fun s =>
    let key := pkg * 2 ^ 39 + area % 2 ^ 39
    match savedAt s key with
    | none => (s, 1)
    | some v =>
      if foreignAddr s pkg part (area % 2 ^ 39) ∨ v.dom.part ≠ part ∨ (findDom s v.pid).isSome ∨ (findArmed s pkg v.pid).isSome then (s, 1)
      else (modPkg s pkg (fun p => { p with waiting := p.waiting ++
        [{ pid := v.pid, part := part, mouldNo := v.dom.mouldNo, mould := v.dom.mould, entry := 64, since := s.clock
           floor := v.dom.priority, restore := some key }] }), 0))

/-- RINGS (R341, R358): places a die's rings. -/
def execRings (pkg part die trace wait : Nat) (s : State) : Out :=
  mailbox s pkg part (fun s =>
    if 4 ≤ die ∨ 2 ^ 39 ≤ trace ∨ 2 ^ 39 ≤ wait ∨ foreignAddr s pkg part trace ∨ foreignAddr s pkg part wait then (s, 1)
    else (modPart s pkg part (fun p =>
      { p with traceRings := Sparse.set 0 p.traceRings die (trace + 1), waitRings := Sparse.set 0 p.waitRings die (wait + 1) }), 0))

/-- The package at a rack-group position, seen from a package. -/
def packageAt (s : State) (pkg pos : Nat) : Option Nat :=
  if (getPkg s pkg).pos = pos then some pkg
  else (s.pkgs.find? (fun p => p.2.pos == pos)).map Prod.fst

/-- The partition of a package that an ASID belongs to (R268). -/
def asidOwner (s : State) (pkg asid : Nat) : Option Nat :=
  ((getPkg s pkg).parts.find? (fun p => p.2.asids.contains asid)).map Prod.fst

/-- A window's registration holds (R292): reserved fields, multiples of 64, and an export of the target partition. -/
def windowValid (s : State) (pkg : Nat) (r : List Word) : Bool :=
  let w := fun n => (r.getD n 0).toNat
  let asid := bits (w 2) 0 12
  bits (w 0) 57 7 == 0 && bits (w 1) 40 24 == 0 && bits (w 2) 36 27 == 0 && w 3 == 0 && bits (w 0) 0 57 % 64 == 0 && bits (w 1) 0 40 % 64 == 0 &&
    (match packageAt s pkg (bits (w 2) 12 8) with
     | none => false
     | some t =>
       match asidOwner s t asid with
       | none => false
       | some q => (Sparse.get [] (getPkg s t).exports q).contains (bits (w 0) 0 57, bits (w 1) 0 40, asid))

/-- WINDOW (R292, R358): registers or clears a window; a registration that fails leaves V at 0. -/
def execWindow (pkg part w : Nat) (record : List Word) (s : State) : Out :=
  mailbox s pkg part (fun s =>
    let r := recordWords 4 record
    let put := fun (v : List Word) => modPkg s pkg (fun p => { p with windows := Sparse.set [] p.windows (part * 256 + w) v })
    if 256 ≤ w then (s, 1)
    else if bits (r.getD 2 0).toNat 63 1 = 0 then (put [], 0)
    else if windowValid s pkg r then (put r, 0)
    else (put [], 1))

/-- Some die's sensor exceeds a temperature (R366). -/
def anyAbove (s : State) (pkg t : Nat) : Bool := (getPkg s pkg).sensors.any (fun x => decide (t < x.2))

/-- The monitor's signal begins: hold cause 3 in every pour with cores in the package. -/
def raiseThermal (s : State) (pkg : Nat) : State :=
  (s.domains.filter (fun d => d.pkgs.contains pkg)).foldl (fun s d =>
    raiseCause s d.pid ⟨3, coreIn d pkg, ccSt, .cc, 0, 0, { kind := 7 }, false⟩)
    (modPkg s pkg (fun p => { p with thermal := true }))

/-- The thermal monitor (R366): it signals while a die's sensor exceeds the emergency threshold, and withdraws the signal when every one is
at the threshold minus 5 °C or below. -/
def thermalCheck (s : State) (pkg : Nat) : State :=
  let p := getPkg s pkg
  if p.thermal = false ∧ anyAbove s pkg p.emergency = true then raiseThermal s pkg
  else if p.thermal = true ∧ anyAbove s pkg (p.emergency - 5) = false then modPkg s pkg (fun p => { p with thermal := false })
  else s

/-- POLICY (R357, R358, R366): every value is kept; field 0 is the package's power budget, field 2^39 + 1 the emergency threshold,
field n + 1 the power figure of the region whose RCB lies at n (log 13), refused where that is another partition's memory. The thermal
monitor compares the sensors with a new threshold at once. -/
def execPolicy (pkg part die field : Nat) (value : Word) (s : State) : Out :=
  mailbox s pkg part (fun s =>
    if field ≠ 0 ∧ foreignAddr s pkg part (field - 1) then (s, 1)
    else
      let s := modPkg s pkg (fun p =>
      { p with policies := (die, field, value) :: p.policies.filter (fun x => !(x.1 == die && x.2.1 == field))
               powerBudget := if field = 0 then value.toNat else p.powerBudget
               emergency := if field = 2 ^ 39 + 1 then value.toNat else p.emergency
               power := match field with | 0 => p.power | n + 1 => Sparse.set 0 p.power n value.toNat })
      (if field = 2 ^ 39 + 1 then thermalCheck s pkg else s, 0))

/-- An armed or running pour holds a core (R363). -/
def coreHeld (s : State) (k : Nat) : Bool := (getCore s k).pid != 0 || (reservedCores s 0).contains k

/-- REPAIR (R9, R363): one of the die's eight spares takes the core's number; busy while a pour holds the core. -/
def execRepair (pkg part die core : Nat) (s : State) : Out :=
  mailbox s pkg part (fun s =>
    if 640 ≤ core ∨ core / 160 ≠ die ∨ (getPart s pkg part).cores.contains core = false then (s, 1)
    else if coreHeld s (pkg * 1024 + core) then (s, 2)
    else if 8 ≤ Sparse.get 0 (getPkg s pkg).sparesUsed die then (s, 1)
    else
      let s := setCore s (pkg * 1024 + core) {}
      (modPkg s pkg (fun p =>
        { p with sparesUsed := Sparse.set 0 p.sparesUsed die (Sparse.get 0 p.sparesUsed die + 1)
                 failedCores := p.failedCores ++ [core] }), 0))

/-- The image that a list of eight words is. -/
def imageOf (ws : List Word) : BitVec 512 := BitVec.ofNat 512 ((recordWords 8 ws).foldr (fun w a => w.toNat + 2 ^ 64 * a) 0)

/-- The core of a pour that a number names: of the member packages' cores with it, the first that has stopped (log 84). -/
def memberCore (s : State) (d : Domain) (core : Nat) : Nat :=
  ((d.all.filter (fun k => numOf k == core)).find? (fun k => (getCore s k).stop.isSome)).getD (d.home * 1024 + core)

/-- A deferred fault has stopped the core: not one that its repaired access has met again, which stops it for good (R314). -/
def deferredStop (c : CoreState) : Bool :=
  match c.stop with
  | some x => isDeferred x.code && decide (c.repaired.count (accessOf x.stream x.detail x.prog) ≤ 1)
  | none => false

/-- TLOAD (R187, R271, R358): an entry of the table of a core, and of its pair partner's, that a deferred fault of the pour has
stopped. -/
def execTload (pkg part pid core n : Nat) (image : List Word) (s : State) : Out :=
  mailbox s pkg part (fun s =>
    match partDom s pkg part pid with
    | none => (s, 1)
    | some d =>
      let k := memberCore s d core
      let c := getCore s k
      let e := entryOf (imageOf image)
      if d.all.contains k = false ∨ deferredStop c = false ∨ 64 ≤ n then (s, 1)
      else match rloadFault c.ranges n d.asid (getPart s (pkgOf k) part) (featOn s k part 1) e with
        | some _ => (s, 1)
        | none =>
          let put := fun (s : State) (q : Nat) => modCore s q (fun c => setRange c n (if e.valid then e else {}))
          ((match partnerOf d k with | some q => put (put s k) q | none => put s k), 0))

end Sys2Proof.Machine
end

