-- ==== Sys2Proof/Machine/Untimed.lean ====
section
/-! DEFINITION. Traffic without a timetable: window puts and gets (R212, R213, R290 to R293, R336, R338, R367), host DMA (R355),
compaction (R279). Each step is one unit of a transfer; when it happens is the outside world's choice. -/

namespace Sys2Proof.Machine

/-- The valid range of an ASID's list that holds an address: the memory side and the DMA channels walk the list (R293, R355). -/
def listLookup (s : State) (pkg asid a : Nat) : Option RangeEntry := (listRanges s pkg asid).find? (fun e => e.holds asid a)

/-- The memory side's answer for one unit: a key, a failure, or a sector that is not resident. -/
inductive UnitCheck where
  | ok (key : Nat)
  | fail (code : Nat)
  | park
  deriving DecidableEq, Repr

/-- The check of one unit against its range (R293, R355). -/
def unitCheck (s : State) (pkg asid a perm : Nat) : UnitCheck :=
  match listLookup s pkg asid a with
  | none => .fail fRangeMiss
  | some e =>
    if bits e.ctl.toNat perm 1 = 0 then .fail fPermission
    else if bits e.res.toNat (e.sector a) 1 = 0 then .park
    else
      let pa := (a + e.off.toNat) % 2 ^ 64
      if pa < 2 ^ Config.physBits then .ok (pkg * 2 ^ 39 + pa) else .fail fRangeMiss

/-- DETAIL0 and DETAIL1 of a failed access (R325): its address; its ASID and, where a range holds it, the sector. -/
def accessDetail (s : State) (pkg asid a : Nat) : List Word :=
  let sec := match listLookup s pkg asid a with | some e => e.sector a | none => 0
  [toWord a, toWord (asid + sec * 2 ^ 16)]

/-- An asynchronous failure: a record of kind 2 to the log of a region, whose block lies in the package given, about a core (R322). Words
1 and 4 name the issuing pour, whether or not it still runs. -/
def asyncReport (s : State) (pkg part rcb code k pid asid mould : Nat) (detail : List Word) : State :=
  faultLog s pkg part rcb (logRecord s 2 code (pkgOf k) (numOf k) pid asid mould detail)

/-- The domain that runs on a core under an ASID. -/
def runningUnder (s : State) (k asid : Nat) : Option Domain :=
  match domOf s k with
  | some d => if d.asid = asid then some d else none
  | none => none

/-- Bytes counted into a core's landing counter, in both cores of a pair (R115, R290); the write is what an acquire gives
(R291). -/
def countUnit (s : State) (d : Domain) (k lc n : Nat) (g : Agent) (tag : Option WriteTag) : State :=
  let one := fun (s : State) (q : Nat) =>
    let s := modCore s q (fun c => setLc c lc ((getLc c lc).add n g))
    match tag with
    | some t => { s with counted := s.counted ++ [(q, lc, t)] }
    | none => s
  match partnerOf d k with
  | some q => one (one s k) q
  | none => one s k

/-- A block's runner port is taken, in this cycle of a core or its pair partner, where bytes without a landing cycle want to go
(R213, R355). -/
def portTaken (s : State) (d : Domain) (k a n : Nat) (ports : CoreState → List PortUse) : Bool :=
  d.cycling && (bothOf d k).any (fun q => liveIn s d q && (ports (getCore s q)).any (fun u => u.block == blkOf a || u.block == blkOf (a + n - 1)))

/-- An outside act is put off to the next local clock. -/
def actLater (s : State) (i : Instr) : State := { s with inputs := s.inputs ++ [⟨s.clock + 1, none, i⟩] }

/-- Bytes into a core's scratchpad without a landing cycle, in both cores of a pair (R115, R213). -/
def spadUnit (s : State) (d : Domain) (k a n v : Nat) : State :=
  let one := fun (s : State) (q : Nat) => modCore s q (fun c => { c with spad := Memory.writeNat c.spad a n v })
  match partnerOf d k with
  | some q => one (one s k) q
  | none => one s k

-- Windows (R212, R292, R293) ------------------------------------------------------------------------------------------------------

def findXfer (s : State) (id : Nat) : Option Xfer := s.xfers.find? (fun x => x.id == id)
def modXfer (s : State) (id : Nat) (f : Xfer → Xfer) : State :=
  { s with xfers := s.xfers.map (fun x => if x.id = id then f x else x) }

/-- Transfers with nothing left to do are over. -/
def sweepXfers (s : State) : State :=
  { s with xfers := s.xfers.filter (fun x => !(x.done == x.len && (x.get || x.acked == x.len))) }

/-- A transfer stops where it is: what was applied stays applied and counted at both ends (R293). -/
def stopXfer (s : State) (x : Xfer) : State := sweepXfers (modXfer s x.id (fun x => { x with len := x.done, parked := false }))

/-- A record about a transfer, to its issuer's region, which lies in the pour's home package (R212, R322). -/
def xferReport (s : State) (x : Xfer) (code : Nat) (detail : List Word) : State :=
  asyncReport s (homeOf x.pid) x.part x.region code x.core x.pid x.asid x.mouldNo detail

/-- A part whose target sector is not resident parks the transfer; it is reported once (R293, R338). -/
def parkXfer (s : State) (x : Xfer) (t asid va : Nat) : State :=
  if x.parked then s else modXfer (xferReport s x fResidency (accessDetail s t asid va)) x.id (fun x => { x with parked := true })

/-- The agent of a window put's completions (R348). -/
def putAgent (s : State) (x : Xfer) : Agent :=
  ⟨4, (getPkg s x.pkg).pos, numOf x.core, Stream.code x.stream, x.win, x.pid⟩

/-- The window of a transfer: as it was registered at its issue (R212), while a registration stands (log 85). -/
def xferWindow (s : State) (x : Xfer) : List Word :=
  if bits ((Sparse.get [] (getPkg s x.pkg).windows (x.part * 256 + x.win)).getD 2 0).toNat 63 1 = 1 then x.record else []

/-- A domain is frozen for a checkpoint or a kill, cores that catch up before the save among them (R308, R311, R317). -/
def frozenToStop (d : Domain) : Bool := (d.status == .held || d.status == .catchUp) && stopsDomain d

/-- A domain frozen for a checkpoint takes no transfer that started after the freeze (R311). -/
def refusesNew (d : Domain) (start : Nat) : Bool := frozenToStop d && decide (d.heldAt < start)

/-- One 64-byte part of a put is applied in the target memory and counted there (R293). -/
def putUnit (s : State) (x : Xfer) : State :=
  let r := xferWindow s x
  let w := fun n => (r.getD n 0).toNat
  let asid := bits (w 2) 0 12
  match packageAt s x.pkg (bits (w 2) 12 8) with
  | none => stopXfer (xferReport s x fPermission []) x
  | some t =>
    let k := t * 1024 + bits (w 2) 20 10
    let target := runningUnder s k asid
    let va := bits (w 0) 0 57 + x.off + x.done
    let late : Bool := match target with | some d => refusesNew d x.start | none => false
    if bits (w 2) 63 1 = 0 ∨ bits (w 1) 0 40 < x.off + x.done + 64 ∨ late then
      stopXfer (xferReport s x fPermission (accessDetail s t asid va)) x
    else match unitCheck s t asid va pWR with
      | .fail code => stopXfer (xferReport s x code (accessDetail s t asid va)) x
      | .park => parkXfer s x t asid va
      | .ok key =>
        let s := noteWrite (memStore s key 64 (2 ^ 64 - 1) (Memory.readNat x.data x.done 64)) (.core x.core) key 64
        let tag : WriteTag := ⟨.core x.core, clockOf s (.core x.core)⟩
        let s := match target with
          | some d => countUnit s d k (bits (w 2) 30 6) 64 (putAgent s x) (some tag)
          | none => s
        modXfer s x.id (fun x => { x with done := x.done + 64, parked := false })

/-- WINDOW_PUT_APPLY (R293). -/
def execWindowPutApply (id : Nat) (s : State) : Out :=
  .next (match findXfer s id with
    | none => s
    | some x => if x.get ∨ x.parked ∨ x.len ≤ x.done ∨ x.read < x.done + 64 then s else putUnit s x)

/-- WINDOW_PUT_ACK (R212, R293): bytes applied and counted at the target count locally. -/
def execWindowPutAck (id : Nat) (s : State) : Out :=
  .next (match findXfer s id with
    | none => s
    | some x =>
      if x.get ∨ x.done ≤ x.acked then s
      else
        let s := match findDom s x.pid with
          | some d => countUnit s d x.core x.lc (x.done - x.acked) (putAgent s x) none
          | none => s
        sweepXfers (modXfer s id (fun x => { x with acked := x.done })))

/-- Bytes of a get land in the getter's scratchpad and are counted (R212, R213). -/
def getLand (s : State) (d : Domain) (x : Xfer) (n v : Nat) : State :=
  countUnit (spadUnit s d x.core (x.spad + x.done) n v) d x.core x.lc n (coreAgent s x.core x.stream) none

/-- The 8-byte words of a compressed block's longest run that lie inside the window and can be read: their keys, or why not
(R336). -/
def blockKeys (s : State) (t asid va left : Nat) : List UnitCheck :=
  (List.range 33).filterMap (fun i => if 8 * i + 8 ≤ left then some (unitCheck s t asid (va + 8 * i) pRD) else none)

/-- One block of a cast transfer (R336): read compressed, expanded on the way, landed. -/
def getBlock (s : State) (d : Domain) (x : Xfer) (t asid va left : Nat) : State :=
  let keys := blockKeys s t asid va left
  let buf : Memory := (List.range keys.length).foldl (fun m i => match keys.getD i .park with
    | .ok key => Memory.writeNat m (8 * i) 8 (memLoad s key 8)
    | _ => m) []
  let bad := fun (s : State) (code : Nat) => stopXfer (xferReport s x code [toWord (x.done / 256)]) x
  match keys.head? with
  | none => bad s fExpansion
  | some (.fail code) => bad s code
  | some .park => parkXfer s x t asid va
  | some (.ok _) =>
    let need := keys.take ((castClen (Memory.readNat buf 0 8)).getD 1)
    if need.contains .park then parkXfer s x t asid va
    else match need.find? (fun u => match u with | .fail _ => true | _ => false), castBlock buf 0 left with
      | some (.fail code), _ => bad s code
      | _, none => bad s fExpansion
      | _, some (v, len) =>
        let n := min 256 (x.len - x.done)
        let s := (keys.take (len / 8)).foldl (fun s u => match u with | .ok key => noteRead s (.core x.core) key 8 | _ => s) s
        sweepXfers (modXfer (getLand s d x n v) x.id (fun x => { x with done := x.done + n, read := x.read + len, parked := false }))

/-- A get is a cast transfer: its window's range grants c, and the feature is on (R336, R356). -/
def isCastGet (s : State) (x : Xfer) (t : Nat) : Bool :=
  let w := fun n => ((xferWindow s x).getD n 0).toNat
  featOn s x.core x.part 2 && (match listLookup s t (bits (w 2) 0 12) (bits (w 0) 0 57 + x.off) with
    | some e => bits e.ctl.toNat pCH 1 == 1
    | none => false)

/-- The bytes that the next part of a get brings. -/
def getBytes (s : State) (x : Xfer) : Nat :=
  match packageAt s x.pkg (bits ((xferWindow s x).getD 2 0).toNat 12 8) with
  | some t => if isCastGet s x t then min 256 (x.len - x.done) else 64
  | none => 64

/-- One part of a get: a cast block where the target range grants c and the feature is on (R336, R356), else 64 bytes. -/
def getUnit (s : State) (d : Domain) (x : Xfer) : State :=
  let r := xferWindow s x
  let w := fun n => (r.getD n 0).toNat
  let asid := bits (w 2) 0 12
  match packageAt s x.pkg (bits (w 2) 12 8) with
  | none => stopXfer (xferReport s x fPermission []) x
  | some t =>
    let base := bits (w 0) 0 57
    let size := bits (w 1) 0 40
    if bits (w 2) 63 1 = 0 then stopXfer (xferReport s x fPermission []) x
    else
      if isCastGet s x t then getBlock s d x t asid (base + x.off + x.read) (size - (x.off + x.read))
      else
        let va := base + x.off + x.done
        if size < x.off + x.done + 64 then stopXfer (xferReport s x fPermission (accessDetail s t asid va)) x
        else match unitCheck s t asid va pRD with
          | .fail code => stopXfer (xferReport s x code (accessDetail s t asid va)) x
          | .park => parkXfer s x t asid va
          | .ok key =>
            let s := getLand (noteRead s (.core x.core) key 64) d x 64 (memLoad s key 64)
            sweepXfers (modXfer s x.id (fun x => { x with done := x.done + 64, parked := false }))

/-- A part of a get, in a cycle in which no runner landing takes the block's port (R213); when the getting pour has ended, the
remainder is discarded and reported (R336). -/
def getStep (s : State) (x : Xfer) (i : Instr) : State :=
  match findDom s x.pid with
  | none => stopXfer (xferReport s x 0 []) x
  | some d => if portTaken s d x.core (x.spad + x.done) (getBytes s x) (·.portWrites) then actLater s i else getUnit s d x

/-- WINDOW_GET_RETURN (R213, R336). -/
def execWindowGetReturn (id : Nat) (s : State) : Out :=
  .next (match findXfer s id with
    | none => s
    | some x => if x.get = false ∨ x.parked ∨ x.len ≤ x.done then s else getStep s x (.windowGetReturn id))

-- Host DMA (R355) ------------------------------------------------------------------------------------------------------------------------

def findDma (s : State) (id : Nat) : Option Dma := (s.pkgs.flatMap (fun p => p.2.dma)).find? (fun x => x.id == id)
def modDma (s : State) (x : Dma) (f : Dma → Dma) : State :=
  modPkg s x.pkg (fun p => { p with dma := p.dma.map (fun y => if y.id = x.id then f y else y) })
def dropDma (s : State) (x : Dma) : State := modPkg s x.pkg (fun p => { p with dma := p.dma.filter (fun y => y.id != x.id) })

/-- A record about a descriptor (R355): to the region of the pour on its core, or the partition's root region. -/
def dmaReport (s : State) (x : Dma) (code : Nat) (detail : List Word) : State :=
  let part := x.fn - 1
  let (home, rcb) := match domOf s x.core with | some d => (d.home, d.region) | none => (x.pkg, (getPart s x.pkg part).root)
  let (asid, mould) := match domOf s x.core with | some d => (d.asid, d.mouldNo) | none => (x.asid, 0)
  asyncReport s home part rcb code x.core (getCore s x.core).pid asid mould detail

/-- The fields of a descriptor are in order, and its ASID and core are the partition's (R355). -/
def dmaOk (p : Part) (w0 w1 w2 w3 : Word) : Bool :=
  let b := fun (w : Word) (i n : Nat) => bits w.toNat i n
  let spad := b w2 62 1 == 1
  let len := b w2 0 40
  w0.toNat % 64 == 0 && b w1 57 7 == 0 && w1.toNat % 64 == 0 && b w2 56 5 == 0 && b w3 12 52 == 0 && len % 64 == 0 && decide (64 ≤ len) &&
    p.asids.contains (b w3 0 12) && p.cores.contains (b w2 46 10) &&
    (!spad || (b w1 21 36 == 0 && spadRunOk (b w1 0 21) len))

/-- HOST_DMA_DESCRIPTOR (R355): refused whole, or queued; one with CNT = 0 and SPAD = 0 starts at once. -/
def execHostDmaDescriptor (pkg fn : Nat) (w0 w1 w2 w3 : Word) (s : State) : Out :=
  let p := getPart s pkg (fn - 1)
  let cnt := bits w2.toNat 61 1 == 1
  let spad := bits w2.toNat 62 1 == 1
  let x : Dma := { id := s.nextId, pkg := pkg, fn := fn, haddr := w0.toNat, daddr := bits w1.toNat 0 57, toHost := bits w2.toNat 63 1 == 1
                   spad := spad, cnt := cnt, core := pkg * 1024 + bits w2.toNat 46 10, lc := bits w2.toNat 40 6
                   len := bits w2.toNat 0 40, asid := bits w3.toNat 0 12, started := !(cnt || spad) }
  .next (if fn = 0 ∨ p.configured = false then s
    else if dmaOk p w0 w1 w2 w3 then modPkg { s with nextId := s.nextId + 1 } pkg (fun p => { p with dma := p.dma ++ [x] })
    else dmaReport s x 0 [toWord x.daddr, toWord x.asid])

/-- An earlier descriptor of the queue still waits; those with CNT = 0 and SPAD = 0 have started at once (R355). -/
def queuedBehind (s : State) (x : Dma) : Bool :=
  (getPkg s x.pkg).dma.any (fun y => y.fn == x.fn && decide (y.id < x.id) && !y.started)

/-- HOST_DMA_START (R355): the first that waits in its queue, once a pour under the ASID runs on the core and has passed DCC 0; refused
where a checkpoint has frozen it (R311). -/
def execHostDmaStart (id : Nat) (s : State) : Out :=
  .next (match findDma s id with
    | none => s
    | some x =>
      match runningUnder s x.core x.asid with
      | none => s
      | some d =>
        if x.started ∨ d.dcc = 0 ∨ queuedBehind s x then s
        else if frozenToStop d then dropDma (dmaReport s x 0 [toWord x.daddr, toWord x.asid]) x
        else modDma s x (fun x => { x with started := true, pid := d.pid }))

/-- A unit is done; a descriptor with none left is over. -/
def dmaNext (s : State) (x : Dma) : State :=
  if x.len ≤ x.done + 64 then dropDma s x else modDma s x (fun x => { x with done := x.done + 64, parked := false })

/-- The pour that a descriptor counts for, while it runs. -/
def dmaPour (s : State) (x : Dma) : Option Domain := if (getCore s x.core).pid = x.pid then findDom s x.pid else none

/-- A unit's count (R290); only host-to-device units count. -/
def dmaCount (s : State) (x : Dma) (tag : Option WriteTag) : State :=
  match dmaPour s x with
  | some d => if x.cnt && !x.toHost then countUnit s d x.core x.lc 64 { kind := 2, idx := x.fn } tag else s
  | none => s

/-- A unit of a descriptor on scratchpad (R213, R355), in a cycle that no runner read or landing takes; a counted unit is a write of the
channel's, by its clock (R287, R291). -/
def dmaSpadUnit (s : State) (x : Dma) (d : Domain) : State :=
  let a := x.daddr + x.done
  let p : Party := .dma x.pkg x.fn
  if portTaken s d x.core a 64 (if x.toHost then (·.portReads) else (·.portWrites)) then actLater s (.hostDmaUnit x.id)
  else if x.toHost then
    dmaNext { s with host := Memory.writeNat s.host (x.haddr + x.done) 64 (Memory.readNat (getCore s x.core).spad a 64) } x
  else
    let s := mergeSeen s p (fun _ => true)
    dmaNext (dmaCount (spadUnit s d x.core a 64 (Memory.readNat s.host (x.haddr + x.done) 64)) x (some ⟨p, clockOf s p⟩)) x

/-- A unit of a descriptor on device memory. What a device-to-host unit reads, its channel and its function observe, and each merges it
before its next write (R287). A unit with no resident destination is parked, keeps its bytes and is written from them (R338); one with
no resident source fails its check. -/
def dmaMemUnit (s : State) (x : Dma) : State :=
  let va := x.daddr + x.done
  let p : Party := .dma x.pkg x.fn
  let v := if x.parked then x.hold else Memory.readNat s.host (x.haddr + x.done) 64
  match unitCheck s x.pkg x.asid va (if x.toHost then pRD else pWR) with
  | .fail code => dropDma (dmaReport s x code (accessDetail s x.pkg x.asid va)) x
  | .park =>
    if x.parked then s
    else if x.toHost then dropDma (dmaReport s x fResidency (accessDetail s x.pkg x.asid va)) x
    else modDma (dmaReport s x fResidency (accessDetail s x.pkg x.asid va)) x (fun x => { x with parked := true, hold := v })
  | .ok key =>
    if x.toHost then
      let s := { s with host := Memory.writeNat s.host (x.haddr + x.done) 64 (memLoad s key 64) }
      dmaNext (noteRead (noteRead s p key 64) (.host x.pkg x.fn) key 64) x
    else
      let s := mergeSeen s p (fun _ => true)
      let s := noteWrite (memStore s key 64 (2 ^ 64 - 1) v) p key 64
      dmaNext (dmaCount s x (some ⟨p, clockOf s p⟩)) x

/-- One unit; when the pour has ended, the remainder is reported: memory units go on uncounted, scratchpad units are
discarded (R355). -/
def dmaUnit (s : State) (x : Dma) : State :=
  match dmaPour s x with
  | some d => if x.spad then dmaSpadUnit s x d else dmaMemUnit s x
  | none =>
    if x.spad then dropDma (dmaReport s x 0 [toWord (x.daddr + x.done), toWord x.asid]) x
    else if x.cnt then
      let s := modDma (dmaReport s x 0 [toWord (x.daddr + x.done), toWord x.asid]) x (fun x => { x with cnt := false })
      dmaMemUnit s { x with cnt := false }
    else dmaMemUnit s x

/-- HOST_DMA_UNIT (R355). -/
def execHostDmaUnit (id : Nat) (s : State) : Out :=
  .next (match findDma s id with
    | none => s
    | some x => if x.started = false ∨ x.parked then s else dmaUnit s x)

/-- PARKED_TRANSFER_RETRY (R293, R338, R355): the parked unit is done again from its first byte. -/
def execParkedTransferRetry (id : Nat) (s : State) : Out :=
  .next (match findXfer s id, findDma s id with
    | some x, _ =>
      if x.parked = false then s
      else if x.get then getStep s x (.parkedTransferRetry id)
      else putUnit s x
    | none, some x => if x.parked = false then s else dmaUnit s x
    | none, none => s)

-- Compaction (R279) ------------------------------------------------------------------------------------------------------------------------

/-- The range of a partition's list that a compaction names. -/
def compactRange (s : State) (pkg asid base : Nat) : Option RangeEntry :=
  (listRanges s pkg asid).find? (fun e => e.base.toNat == base)

/-- The writers of `n` bytes go with them to another place (R286). -/
def copyWriters (s : State) (a b n : Nat) : State :=
  { s with writers := (s.writers.filter (fun w => decide (a ≤ w.1 ∧ w.1 < a + n))).map (fun w => (b + (w.1 - a), w.2)) ++
      s.writers.filter (fun w => decide (w.1 < b ∨ b + n ≤ w.1)) }

/-- Copy 64 bytes, their sum-cell metadata and their writers from one backing to the other. -/
def copyGranule (s : State) (a b : Nat) : State :=
  copyWriters (setCell { s with mem := Memory.writeNat s.mem b 64 (Memory.readNat s.mem a 64) } b (getCell s a)) a b 64

/-- One granule of a move; sectors that are not resident are skipped. -/
def compactStep (s : State) (pkg : Nat) (e : RangeEntry) (c : Compaction) : State :=
  let off := c.copied
  let s := if off < c.len ∧ bits e.res.toNat (e.sector (c.base + off)) 1 = 1 then
      copyGranule s (pkg * 2 ^ 39 + c.oldPhys + off) (pkg * 2 ^ 39 + c.newPhys + off) else s
  modPkg s pkg (fun p => { p with compactions := p.compactions.map (fun x =>
    if x.asid = c.asid ∧ x.base = c.base ∧ x.copied < x.len then { x with copied := x.copied + 64 } else x) })

/-- COMPACTION_MOVE (R279): begins the move of an unpinned range, or copies its next granule; a pin halts it. Refused for another
partition's ASID or memory (R357). -/
def execCompactionMove (pkg part asid base dest : Nat) (s : State) : Out :=
  .next (match compactRange s pkg asid base with
    | none => s
    | some e =>
      if rangePinned s pkg asid base ∨ 2 ^ 39 < dest + (e.limit.toNat - base) ∨ foreignAsid s pkg part asid ∨
          foreignRun s pkg part dest (e.limit.toNat - base) then s
      else match (getPkg s pkg).compactions.find? (fun c => c.asid == asid && c.base == base) with
        | some c => if c.moved.isSome then s else compactStep s pkg e c
        | none =>
          let c : Compaction := ⟨pkg, part, asid, base, (base + e.off.toNat) % 2 ^ 64 % 2 ^ 39, dest, e.limit.toNat - base, 0, none, []⟩
          compactStep (modPkg s pkg (fun p => { p with compactions := p.compactions ++ [c] })) pkg e c)

/-- The RRET of a range is on its way to a core that holds it (R279). -/
def moveUnderway (s : State) (pkg asid base : Nat) : Bool :=
  (computeCores s pkg).any (fun k => (getCore s k).ranges.any (fun p => isRange asid base p.2) &&
    (getCore s k).inflight.any (fun f => match f.eff with
      | .rret x a _ => x == asid && a == base
      | _ => false))

/-- A physical address of the old backing is named by an entry that has not landed: one of a core, restored ones among them, or one saved
in a checkpoint (R319). -/
def namedInOld (s : State) (c : Compaction) : Bool :=
  let e : RangeEntry := { base := toWord c.oldPhys, limit := toWord (c.oldPhys + c.len) }
  let named := fun (x : CoreState) => x.inflight.any (namesBacking c.pkg e)
  s.cores.any (fun x => named x.2) || s.saved.any (fun v => !v.restored && v.cores.any (fun x => named x.2))

/-- The old backing is free (R279): the RRET has been given and is under way to no core that holds the range, and every core that held
the range has run 1,280 cycles since it applied the change, or runs the pour no more. -/
def moveDone (s : State) (c : Compaction) : Bool :=
  (match c.moved with | some t => decide (t + 1280 ≤ s.clock) | none => false) && !moveUnderway s c.pkg c.asid c.base && !namedInOld s c &&
    c.applied.all (fun x => (getCore s x.1).pid != x.2.1 || decide (x.2.2 + 1280 ≤ (getCore s x.1).dcc))

/-- COMPACTION_RELEASE (R279): the old backing is released 1,280 cycles after the last core that holds the range has applied the
RRET. -/
def execCompactionRelease (pkg part asid base : Nat) (s : State) : Out :=
  .next (modPkg s pkg (fun p => { p with compactions := p.compactions.filter (fun c =>
    !(c.part == part && c.asid == asid && c.base == base && moveDone s c)) }))

end Sys2Proof.Machine
end

