-- ==== Sys2Proof/Machine/Fabric.lean ====
section
/-! DEFINITION. Links, beacons, the thermal monitor, the debugger and the trace slots (R112, R113, R328, R329, R331, R341, R344 to
R346, R363, R365, R366). -/

namespace Sys2Proof.Machine

-- Links (R327 to R331) ---------------------------------------------------------------------------------------------------------------

/-- Change one link's block. -/
def modLink (s : State) (pkg link : Nat) (f : Link → Link) : State :=
  modPkg s pkg (fun p => { p with links := Sparse.set {} p.links link (f (Sparse.get {} p.links link)) })

/-- The link status register (R328). -/
def linkStatus (l : Link) : Word :=
  toWord (l.pos.toNat * 2 ^ 24 + l.lmap.toNat * 2 ^ 16 + l.spare.toNat * 2 ^ 8 + (if l.pcbh then 8 else 0) + l.state.toNat)

/-- A domain uses link n of a package (R327): a group-span pour of the package, whose core on the link's die sends over it, or whose
core on that die of another member sends to link n of this one. -/
def usesLink (d : Domain) (pkg link : Nat) : Bool :=
  d.span == 2 && d.pkgs.contains pkg && d.pkgs.any (fun p => usesDie d.all p (link / 8))

/-- The core of a package that a link's fault is raised on: the first on the link's die, or else the first. -/
def coreOnLink (d : Domain) (pkg link : Nat) : Nat :=
  (d.all.find? (fun k => pkgOf k == pkg && dieOf k == link / 8)).getD (coreIn d pkg)

/-- Link-uncorrectable in every domain that uses the link, at its sending or its receiving end (R320, R327, R329). -/
def linkFault (s : State) (pkg link : Nat) : State :=
  s.domains.foldl (fun s d => if usesLink d pkg link then takeFault s (coreOnLink d pkg link) .cp cpoSt 0 fLink 0 [] else s) s

/-- FLIT_CORRECTED (R328, R329): counts, and changes no timing and no data. -/
def execFlitCorrected (pkg link : Nat) (s : State) : Out := .next (modLink s pkg link (fun l => { l with lcor := l.lcor + 1 }))

/-- LANE_FAILURE (R329): a spare lane takes the lane's place; with none left the link has FAILED. -/
def execLaneFailure (pkg link lane : Nat) (s : State) : Out :=
  let l := getLink s pkg link
  .next (if l.state = 3 ∨ 8 ≤ lane then s
    else if l.spare = 0 then linkFault (modLink s pkg link (fun l => { l with state := 3 })) pkg link
    else modLink s pkg link (fun l =>
      { l with spare := l.spare - 1, lmap := l.lmap ||| BitVec.ofNat 8 (2 ^ lane), lswp := l.lswp + 1 }))

/-- FLIT_UNCORRECTABLE (R329): its beats are not delivered. -/
def execFlitUncorrectable (pkg link : Nat) (s : State) : Out :=
  .next (linkFault (modLink s pkg link (fun l => { l with lunc := l.lunc + 1, badFlit := s.clock + 1 })) pkg link)

/-- LINK_TRAINED (R328, R365): UP, with the position and the holding capability that the plane reports; its beacons are still to
come. -/
def execLinkTrained (pkg link pos : Nat) (pcbh : Bool) (s : State) : Out :=
  let s := modLink s pkg link (fun l => { l with state := 2, pos := BitVec.ofNat 8 pos, pcbh := pcbh })
  .next (modPkg s pkg (fun p => { p with pos := pos, beacons := Sparse.set 0 p.beacons link 0 }))

/-- All 32 links DOWN (R365). -/
def linksDown (s : State) (pkg : Nat) : State :=
  (List.range 32).foldl (fun s n =>
    modLink s pkg n (fun l => { l with state := 0, pos := 255, pcbh := false, sent := [] }))
    (modPkg s pkg (fun p => { p with beacons := [] }))

/-- LINKS_TAKEN_DOWN (R365). -/
def execLinksTakenDown (pkg : Nat) (s : State) : Out := .next (linksDown s pkg)

/-- Domain-broken in every group-span pour with cores in a package (R320). -/
def breakGroups (s : State) (pkg : Nat) : State :=
  s.domains.foldl (fun s d =>
    if d.span = 2 ∧ d.pkgs.contains pkg then takeFault s (coreIn d pkg) .cc ccSt 0 fBroken 0 [] else s) s

/-- LOST_BEACON_PATH (R320). -/
def execLostBeaconPath (pkg : Nat) (s : State) : Out := .next (breakGroups s pkg)

/-- PACKAGE_FORCED_DETACH (R320, R365): its links are down. -/
def execPackageForcedDetach (pkg : Nat) (s : State) : Out := .next (linksDown (breakGroups s pkg) pkg)

-- Beacons (R112, R113, R331) -----------------------------------------------------------------------------------------------------------

/-- The slack points that a domain's cores in a package declared. -/
def packagePoints (s : State) (d : Domain) (pkg : Nat) : List (Nat × Nat) :=
  (d.all.filter (fun k => pkgOf k == pkg)).flatMap (fun k => (getCore s k).slackPts)

/-- The earliest of a list of slack points. -/
def earliest (l : List (Nat × Nat)) : Option (Nat × Nat) :=
  match least (l.map Prod.fst) with
  | some n => l.find? (fun x => x.1 == n)
  | none => none

/-- BEACON_INTERVAL (R331): every 4,096 local clocks a beacon leaves on each link that is UP, with the DCC and the next declared
slack point of every group-span domain of the package (R112). -/
def execBeaconInterval (pkg link : Nat) (s : State) : Out :=
  .next (if (getLink s pkg link).state = 2 then
      modLink s pkg link (fun l => { l with sent := (s.domains.filter (fun d => d.span == 2 && d.pkgs.contains pkg)).map (fun d =>
        ⟨d.pid, d.dcc, earliest ((packagePoints s d pkg).filter (fun x => decide (d.dcc < x.1)))⟩) })
    else s)

/-- The cycle at which two packages' slack points differ (R112): the sender's next one after its DCC against the receiver's. -/
def slackClash (own : List (Nat × Nat)) (dcc senderDcc : Nat) (next : Option (Nat × Nat)) : Option Nat :=
  match next with
  | none => none
  | some x =>
    match (earliest (own.filter (fun y => decide (senderDcc < y.1)))) with
    | some y => if y = x then none else if y.1 < x.1 then some y.1 else if own.contains x then none else some x.1
    | none => if x.1 ≤ dcc ∧ dcc < x.1 + 4096 then some x.1 else none

/-- Schedule-miss cause 10 at a cycle to come, or at once (R112). -/
def clashAt (s : State) (d : Domain) (pkg at' : Nat) : State :=
  let k := coreIn d pkg
  if at' ≤ d.dcc then takeFault s k .cc ccSt 0 fSchedule 10 []
  else addFlight s k ⟨at', ccSt, .cc, (getCore s k).cc.seq, (getCore s k).dcc, 0, false, .raise fSchedule 10 [] 0, none, 0⟩

/-- BEACON_RECEIVED (R112, R113, R365): the alignment unit takes its estimate of Lead; the timebase package keeps none. -/
def execBeaconReceived (pkg link pid dcc : Nat) (lead : Int) (slack : Option (Nat × Nat)) (s : State) : Out :=
  .next (if (getLink s pkg link).state ≠ 2 then s
    else
      let s := modPkg s pkg (fun p => { p with beacons := Sparse.set 0 p.beacons link (Sparse.get 0 p.beacons link + 1) })
      match findDom s pid with
      | none => s
      | some d =>
        if d.span ≠ 2 ∨ d.pkgs.contains pkg = false then s
        else
          let s := if d.pkgs.headD pkg = pkg then s else modDom s pid (fun d => { d with lead := Sparse.set 0 d.lead pkg lead })
          match slackClash (packagePoints s d pkg) d.dcc dcc slack with
          | some n => clashAt s d pkg n
          | none => s)

/-- CHANNEL_SUBSTITUTION (R363): one of the stack's eight spares takes the place of a failing channel; no calendar slot moves. -/
def execChannelSubstitution (pkg stack _chan : Nat) (s : State) : Out :=
  .next (modPkg s pkg (fun p =>
    { p with chansUsed := Sparse.set 0 p.chansUsed stack (min 8 (Sparse.get 0 p.chansUsed stack + 1)) }))

-- The thermal monitor (R103, R366) -------------------------------------------------------------------------------------------------------

/-- A die's sensor takes a reading, in degrees Celsius (R366; log 75). -/
def setSensor (s : State) (r : SensorReading) : State := modPkg s r.pkg (fun p => { p with sensors := Sparse.set 0 p.sensors r.die r.temp })

/-- A pour when a package loses power (R366): alone there it ends with no frame; one that spans other packages takes
domain-broken in another. -/
def tripPour (s : State) (pkg : Nat) (d : Domain) : State :=
  if d.pkgs.contains pkg = false then s
  else match d.all.find? (fun k => pkgOf k != pkg) with
    | none => removeDomain s d.pid
    | some k => takeFault s k .cc ccSt 0 fBroken 0 []

/-- The compute dies lose power: every pour of the package ends. -/
def losePower (s : State) (pkg : Nat) : State :=
  let s := s.domains.foldl (fun s d => tripPour s pkg d) s
  { modPkg s pkg (fun p => { p with poweredOff := true }) with
    cores := s.cores.filter (fun x => !(pkgOf x.1 == pkg && decide (numOf x.1 < Config.coresPerPackage))) }

/-- What the monitor does after a sensor's reading (R366): it signals or withdraws; at the trip point of 115 °C the hub removes power from
the compute dies. -/
def monitor (s : State) (r : SensorReading) : State :=
  let s := thermalCheck s r.pkg
  if 115 ≤ r.temp then losePower s r.pkg else s

/-- THERMAL_SIGNAL (R366): a die's sensor rises to a reading. -/
def execThermalSignal (r : SensorReading) (s : State) : Out := .next (monitor (setSensor s r) r)

/-- THERMAL_WITHDRAW (R366): a die's sensor falls to a reading; with every die at the threshold minus 5 °C or below the signal is
withdrawn, and the cause clears. -/
def execThermalWithdraw (r : SensorReading) (s : State) : Out :=
  .next (monitor (setSensor s r) r)

/-- THERMAL_TRIP (R366): a die's sensor reaches a reading, at the trip point where power is to go. -/
def execThermalTrip (r : SensorReading) (s : State) : Out := .next (monitor (setSensor s r) r)

-- The debugger (R186, R345, R346, R361) ----------------------------------------------------------------------------------------------------

/-- DEBUG_SESSION_ATTACH: through an open debug port (R361); `on` false detaches. -/
def execDebugSessionAttach (pkg part : Nat) (on : Bool) (s : State) : Out :=
  .next (modPart s pkg part (fun p => { p with debug := on && (getPkg s pkg).portOpen }))

/-- DEBUG_STOP_REQUEST (R345): pending until the first IBD command on any core of the domain. -/
def execDebugStopRequest (pid : Nat) (s : State) : Out :=
  .next (match findDom s pid with
    | none => s
    | some d => if (getPart s d.home d.part).debug then modDom s pid (fun d => { d with debugReq := true }) else s)

/-- DEBUG_RELEASE (R346): the debugger clears cause 5, be the hold in effect or only announced; release follows by R108. -/
def execDebugRelease (pid : Nat) (s : State) : Out :=
  .next (modDom s pid (fun d =>
    if d.causes.any (fun c => c.code == 5 && !c.cleared) then
      { d with lastClear := s.clock, causes := d.causes.map (fun c =>
          if c.code = 5 then { c with cleared := true, agent := { kind := 6 } } else c) }
    else d))

-- Trace slots (R341, R344) -----------------------------------------------------------------------------------------------------------------

/-- TRACE_SLOT (R344): one 32-byte record leaves a core's buffer for the partition's ring on its die; no range table, no credit, no
counter takes part. -/
def execTraceSlot (k : Nat) (s : State) : Out :=
  let c := getCore s k
  .next (match c.trace, ringBase s k (ownPart s k) false (dieOf k) with
    | r :: rest, some b =>
      let s := setCore (hubWrite s (ringPut s.mem b r)) k { c with trace := rest, traceOld := c.traceOld - 1 }
      modPkg s (pkgOf k) (fun p => { p with traceTurn := Sparse.set 0 p.traceTurn (dieOf k) (numOf k + 1) })
    | _, _ => s)

end Sys2Proof.Machine
end

