-- ==== Sys2Proof/Machine/Service.lean ====
section
/-! DEFINITION. Feature registers, management registers, boot and measurement, lifecycle, attestation, update in service (R328,
R350, R354, R356, R359 to R362, R364, R367). -/

namespace Sys2Proof.Machine

-- Features (R354, R356) --------------------------------------------------------------------------------------------------------------

/-- A partition has a pour that is armed or running (R356). -/
def partBusy (s : State) (pkg part : Nat) : Bool :=
  !(getPart s pkg part).pool.isEmpty || (getPkg s pkg).waiting.any (fun a => a.part == part) ||
    s.domains.any (fun d => d.home == pkg && d.part == part)

/-- A function has BARs: function 0 is the hypervisor's, function i serves partition i - 1 and has none while that is not configured
(R354). -/
def hasBar (s : State) (pkg fn : Nat) : Bool := fn == 0 || (decide (fn ≤ 16) && (getPart s pkg (fn - 1)).configured)

/-- The word of device memory that a function reaches at an address: aligned, and no other partition's (R354, R357). -/
def hostReaches (s : State) (pkg fn pa : Nat) : Bool :=
  decide (pa < 2 ^ 39) && pa % 8 == 0 && hasBar s pkg fn && (fn == 0 || !foreignAddr s pkg (fn - 1) pa)

/-- FEAT_ACCEPT takes a value (R356). -/
def setAccept (s : State) (pkg fn : Nat) (v : BitVec 256) : State :=
  modPkg s pkg (fun p => { p with featAccept := Sparse.set 0 p.featAccept fn v })

/-- The commit (R356): ignored while a pour of the function's partition is armed or running. -/
def commitFeat (s : State) (pkg fn : Nat) : State :=
  if fn ≠ 0 ∧ partBusy s pkg (fn - 1) = true then s
  else modPkg s pkg (fun p =>
    { p with featActive := Sparse.set 0 p.featActive fn (Sparse.get 0 p.featAccept fn &&& Sparse.get 0 p.featOffer fn) })

/-- FEAT_COMMIT (R356): the four words of FEAT_ACCEPT are written and committed. -/
def execFeatCommit (pkg fn : Nat) (accept : BitVec 256) (s : State) : Out :=
  .next (if hasBar s pkg fn then commitFeat (setAccept s pkg fn accept) pkg fn else s)

/-- A write of one word of a function's FEAT_ACCEPT: word 3 commits the four (R356). -/
def writeAccept (s : State) (pkg fn w : Nat) (v : Word) : State :=
  if hasBar s pkg fn then
    let old := (Sparse.get 0 (getPkg s pkg).featAccept fn).toNat
    let s := setAccept s pkg fn (BitVec.ofNat 256 (old - bits old (64 * w) 64 * 2 ^ (64 * w) + v.toNat * 2 ^ (64 * w)))
    if w = 3 then commitFeat s pkg fn else s
  else s

-- Management space (R328, R350) -----------------------------------------------------------------------------------------------------------

/-- Which register an address is: an event counter or selector of a core, a word of a link's block, or a word of a function's
FEAT_OFFER, FEAT_ACCEPT or FEAT_ACTIVE (0, 1, 2). -/
inductive MgmtReg where
  | counter (core n : Nat) | selector (core n : Nat) | link (n word : Nat) | feat (fn reg word : Nat) | none
  deriving DecidableEq, Repr

/-- A function's copy of the feature registers begins at 2^41 times the function (R354, R356; log 14). -/
def featReg (a : Nat) : MgmtReg :=
  let o := a % 2 ^ 41
  if 0x100 ≤ o ∧ o < 0x160 then .feat (a / 2 ^ 41) ((o - 0x100) / 0x20) ((o - 0x100) % 0x20 / 8) else .none

/-- The address map (R328, R350, R356). -/
def mgmtReg (a : Nat) : MgmtReg :=
  let c := (a - 0x80000) / 0x80
  let o := (a - 0x80000) % 0x80
  if a % 8 ≠ 0 then .none
  else if 0x80000 ≤ a ∧ c < Config.coresPerPackage then (if o < 0x40 then .counter c (o / 8) else .selector c ((o - 0x40) / 8))
  else if 0x40000 ≤ a ∧ a < 0x40800 then .link ((a - 0x40000) / 0x40) ((a - 0x40000) % 0x40 / 8)
  else featReg a

/-- What a driver reads (R328, R350, R356). -/
def managementRead (s : State) (pkg a : Nat) : Word :=
  match mgmtReg a with
  | .counter c n => Sparse.get 0 (getCore s (pkg * 1024 + c)).evcnt n
  | .selector c n => Sparse.get 0 (getCore s (pkg * 1024 + c)).evsel n
  | .link n w =>
    let l := getLink s pkg n
    match w with
    | 0 => linkStatus l
    | 1 => l.lcor
    | 2 => l.lunc
    | 3 => l.lswp
    | _ => 0
  | .feat fn r w =>
    let p := getPkg s pkg
    if hasBar s pkg fn then
      toWord (bits (match r with | 0 => Sparse.get 0 p.featOffer fn | 1 => Sparse.get 0 p.featAccept fn | _ => Sparse.get 0 p.featActive fn).toNat
        (64 * w) 64)
    else 0
  | .none => 0

/-- MANAGEMENT_REGISTER_WRITE (R350, R356): an event selector keeps its eleven bits, FEAT_ACCEPT takes its word; other registers are
read-only. An address from 2^39 on in a function's BAR is a word of device memory, such as a ring's TAIL (R341; log 14), no other
partition's (R357), which the function writes after what it has observed (R287). -/
def execManagementRegisterWrite (pkg a : Nat) (value : Word) (s : State) : Out :=
  .next (match mgmtReg a with
    | .selector c n => modCore s (pkg * 1024 + c) (fun x => { x with evsel := Sparse.set 0 x.evsel n (value &&& 0x7FF) })
    | .feat fn 1 w => writeAccept s pkg fn w value
    | _ =>
      let fn := a / 2 ^ 41
      let pa := a % 2 ^ 41 - 2 ^ 39
      if 2 ^ 39 ≤ a % 2 ^ 41 ∧ hostReaches s pkg fn pa then
        let key := pkg * 2 ^ 39 + pa
        noteWrite (memStore (mergeSeen s (.host pkg fn) (fun _ => true)) key 8 255 value.toNat) (.host pkg fn) key 8
      else s)

-- Boot (R359) -----------------------------------------------------------------------------------------------------------------------------------

/-- An image's signature by the root key holds for its SHA-512 digest (R359; log 8). -/
def signedByRoot (s : State) (pkg : Nat) (image : List Byte) (signature : Nat) : Bool :=
  Config.rsaVerify (getPkg s pkg).rootDigest.toNat (digest image) signature

/-- A partition as the hypervisor's configuration gives it (R11, R357). -/
def configurePart (s : State) (pkg : Nat) (b : BootPart) (started : Bool) : State :=
  modPkg s pkg (fun p =>
    { p with
      parts := Sparse.set {} p.parts b.no
        { configured := true, started := started, arming := started, cores := b.cores, sysCores := b.sysCores, mem := b.mem
          asids := b.asids, root := b.root, linkShare := b.linkShare, version := b.version, key := (Sparse.get {} p.parts b.no).key }
      lists := b.lists.foldl (fun m x => Sparse.set 0 m x.1 (x.2 + 1)) p.lists
      exports := Sparse.set [] p.exports b.no b.exports
      featOffer := Sparse.set 0 p.featOffer (b.no + 1) (b.offer &&& Sparse.get 0 p.featOffer 0) })

/-- One partition image: verified, measured and started; one that fails is not started, and the others still boot (R359). -/
def bootPart (pkg : Nat) (s : State) (b : BootPart) : State :=
  if signedByRoot s pkg b.image b.signature then
    configurePart (extendMeas s pkg 2 3 b.no b.version (sha512 b.image)) pkg b true
  else configurePart s pkg b false

/-- A failing stage is reported, and the hub stays in reset (R359). -/
def bootFails (s : State) (pkg stage : Nat) : State := modPkg s pkg (fun p => { p with bootStage := stage })

/-- The hub as it comes out of reset: registers zero, failures forgotten, the fuses read (R360, R361). -/
def fuseRead (s : State) (pkg : Nat) (img : BootImage) : State :=
  modPkg s pkg (fun p =>
    { p with meas := [], measAt := 0, measQueue := [], unlocking := none, portDue := false, unlockFails := 0, bootStage := 0, rootDigest := if p.rootDigest = 0 then img.fusedDigest else p.rootDigest })

/-- The debug port is closed in PROVISIONED and DEPLOYED (R361). -/
def portOf : Lifecycle → Bool
  | .provisioned | .deployed => false
  | _ => true

/-- A package that loses power or is reset while its hub runs (R361; log 76): its pours and transfers end, and only the fuses, the key
store, the substitutions made and device memory stay. A token that was being acted on leaves no more than the wiped keys. -/
def resetPackage (s : State) (pkg : Nat) : State :=
  let s := losePower s pkg
  modPkg { s with cores := s.cores.filter (fun x => pkgOf x.1 != pkg), xfers := s.xfers.filter (fun x => x.pkg != pkg) } pkg (fun p =>
    { ({} : Pkg) with
      lifecycle := p.lifecycle, deviceId := p.deviceId, rootDigest := p.rootDigest, portOpen := portOf p.lifecycle
      parts := p.parts.map (fun x => (x.1, { ({} : Part) with key := x.2.key }))
      sparesUsed := p.sparesUsed, failedCores := p.failedCores, chansUsed := p.chansUsed })

/-- BOOT (R359): the stages in order; of a hub that runs, after its reset (log 76). A package has at most 16 partitions, 0 to 15 (R11). -/
def execBoot (pkg : Nat) (img : BootImage) (s : State) : Out :=
  .next (if (getPkg s pkg).lifecycle = .retired then s
    else
      let s := fuseRead (if (getPkg s pkg).hubReset then s else resetPackage s pkg) pkg img
      if BitVec.ofNat 512 (digest img.rootKey) ≠ (getPkg s pkg).rootDigest then bootFails s pkg 1
      else if signedByRoot s pkg img.hyper img.hyperSig = false then bootFails s pkg 2
      else
        let s := extendMeas s pkg 0 1 0 img.hyperVersion (sha512 img.hyper)
        let s := extendMeas s pkg 1 2 0 img.hyperVersion (sha512 img.config)
        let s := modPkg s pkg (fun p =>
          { p with hubReset := false, hyperVersion := img.hyperVersion, featOffer := Sparse.set 0 p.featOffer 0 0x1F })
        (img.parts.filter (fun b => decide (b.no < 16))).foldl (bootPart pkg) s)

-- Lifecycle (R361) --------------------------------------------------------------------------------------------------------------------------------

/-- Every tenant key is wiped. -/
def wipeKeys (s : State) (pkg : Nat) : State :=
  modPkg s pkg (fun p => { p with parts := p.parts.map (fun x => (x.1, { x.2 with key := 0 })) })

/-- The number of a lifecycle state: 1 PROVISIONED and 2 DEPLOYED as tokens name them (R361). -/
def Lifecycle.code : Lifecycle → Nat
  | .manufacture => 0 | .provisioned => 1 | .deployed => 2 | .debugUnlocked => 3 | .retired => 4

/-- The bytes of a token's words. -/
def tokenBytes (token : List Word) : List Byte := token.flatMap (fun w => littleBytes 8 w.toNat)

/-- The checks on a token (R361). -/
def tokenOk (s : State) (pkg : Nat) (token : List Word) (signature : Nat) : Bool :=
  let p := getPkg s pkg
  let w := fun n => (token.getD n 0).toNat
  token.length == 16 && w 0 == 0x44454255474B0001 && w 1 + 2 ^ 64 * w 2 == p.deviceId.toNat && w 3 == Lifecycle.code p.lifecycle &&
    (w 3 == 1 || w 3 == 2) && (token.drop 4).all (fun x => x == 0) &&
    Config.rsaVerify p.rootDigest.toNat (digest (tokenBytes token)) signature

/-- The steps after the keys are wiped (R361): the fuse, which moves the state only forward, MEAS15, the port, which opens once MEAS15 has
been extended. -/
def finishUnlock (s : State) (pkg : Nat) (token : List Word) : State :=
  let s := modPkg s pkg (fun p => { p with lifecycle := if p.lifecycle = .retired then .retired else .debugUnlocked })
  modPkg (extendMeas s pkg 15 7 0 0 (sha512 (tokenBytes token))) pkg (fun p =>
    { p with unlocking := none, portOpen := p.portOpen || p.measQueue.isEmpty, portDue := !p.measQueue.isEmpty })

/-- UNLOCK_TOKEN (R361): after 16 failures since reset a token is refused unread; one that passes wipes the tenant keys first, and the
security block goes on in the next local clock, or before it takes the next token. -/
def execUnlockToken (pkg : Nat) (token : List Word) (signature : Nat) (s : State) : Out :=
  let s := match (getPkg s pkg).unlocking with | some t => finishUnlock s pkg t | none => s
  .next (if 16 ≤ (getPkg s pkg).unlockFails then s
    else if tokenOk s pkg token signature then modPkg (wipeKeys s pkg) pkg (fun p => { p with unlocking := some token })
    else modPkg s pkg (fun p => { p with unlockFails := p.unlockFails + 1 }))

/-- The security block's step of a local clock (R360, R361). -/
def secureStep (s : State) (pkg : Nat) : State :=
  measNext (match (getPkg s pkg).unlocking with
    | some token => finishUnlock s pkg token
    | none => s) pkg

/-- RETIRE (R361): keys wiped, the port open, no boot any more; a token that the security block has accepted and not carried out has no
further effect. -/
def execRetire (pkg : Nat) (s : State) : Out :=
  .next (modPkg (wipeKeys s pkg) pkg (fun p => { p with lifecycle := .retired, portOpen := true, unlocking := none, portDue := false }))

/-- A state in which the debug port is closed; sessions end with it (R361). -/
def closePort (s : State) (pkg : Nat) (l : Lifecycle) : State :=
  modPkg s pkg (fun p =>
    { p with lifecycle := l, portOpen := false, parts := p.parts.map (fun x => (x.1, { x.2 with debug := false })) })

/-- LIFECYCLE_FUSE_ADVANCE (R361): one fuse at a time, forward. -/
def execLifecycleFuseAdvance (pkg : Nat) (s : State) : Out :=
  .next (match (getPkg s pkg).lifecycle with
    | .manufacture => closePort s pkg .provisioned
    | .provisioned => closePort s pkg .deployed
    | _ => s)

/-- TENANT_KEY_PROVISION (R361): only in PROVISIONED and DEPLOYED; a package that is acting on a token has wiped its keys and takes
none. -/
def execTenantKeyProvision (pkg part : Nat) (key : Word) (s : State) : Out :=
  .next (match (getPkg s pkg).lifecycle, (getPkg s pkg).unlocking with
    | .provisioned, none | .deployed, none => modPart s pkg part (fun p => { p with key := key })
    | _, _ => s)

-- Attestation (R362) ----------------------------------------------------------------------------------------------------------------------------------

/-- Measurement blocks 1 to 17 (R362): MEAS0 to MEAS15, then the lifecycle state above the device identifier. -/
def reportBlocks (p : Pkg) : List Nat :=
  (List.range 16).map (fun n => (Sparse.get 0 p.meas n).toNat) ++ [Lifecycle.code p.lifecycle * 2 ^ 128 + p.deviceId.toNat]

/-- SPDM_REQUEST (R362): a report signed by the device key, or an error where the requester does not offer the algorithms, or no
device key is left (R361). -/
def execSpdmRequest (pkg : Nat) (rsa4096 sha : Bool) (s : State) : Out :=
  .next (modPkg s pkg (fun p =>
    if rsa4096 && sha && p.lifecycle != .retired then
      let l := reportBlocks p
      { p with report := l, spdmError := false, reportSig := Config.deviceSign (digest (l.flatMap (littleBytes 64))) }
    else { p with spdmError := true }))

-- Update (R364, R367) -------------------------------------------------------------------------------------------------------------------------------------

/-- A window record's target is a partition of a package. -/
def targets (s : State) (q : Nat) (r : List Word) (pkg part : Nat) : Bool :=
  let w2 := (r.getD 2 0).toNat
  packageAt s q (bits w2 12 8) == some pkg && asidOwner s pkg (bits w2 0 12) == some part

/-- What a restart refuses and clears (R367): transfers towards the partition that are not applied, by the registration they were issued
under, and every window registration that names it as owner or target. -/
def clearWindows (s : State) (pkg part : Nat) : State :=
  let s := s.xfers.foldl (fun s x =>
    if targets s x.pkg x.record pkg part ∧ x.done < x.len then stopXfer (xferReport s x fPermission []) x else s) s
  { s with pkgs := s.pkgs.map (fun q =>
      (q.1, { q.2 with windows := q.2.windows.filter (fun w => !((q.1 == pkg && w.1 / 256 == part) || targets s q.1 w.2 pkg part)) })) }

/-- The partition starts again on its new image: no pour is armed (R356, R364). -/
def restartPart (s : State) (pkg part version : Nat) : State :=
  modPkg (modPart s pkg part (fun p => { p with pool := [], backlog := [], arming := true, started := true, version := version })) pkg
    (fun p => { p with waiting := p.waiting.filter (fun a => a.part != part) })

/-- PARTITION_UPDATE (R364, R367): arming stops; once no pour of the partition runs, the image is verified and measured and the
partition restarts. While one runs the update waits for the next local clock. -/
def execPartitionUpdate (pkg part version : Nat) (image : List Byte) (signature : Nat) (s : State) : Out :=
  let s := modPart s pkg part (fun p => { p with arming := false })
  .next (if (getPart s pkg part).configured = false then s
    else if s.domains.any (fun d => d.home == pkg && d.part == part) then
      { s with inputs := s.inputs ++ [⟨s.clock + 1, none, .partitionUpdate pkg part version image signature⟩] }
    else if signedByRoot s pkg image signature then
      restartPart (clearWindows (extendMeas s pkg 3 4 part version (sha512 image)) pkg part) pkg part version
    else modPart s pkg part (fun p => { p with started := false }))

/-- HYPERVISOR_UPDATE (R364): the running hypervisor verifies the image, extends MEAS4 and hands over. -/
def execHypervisorUpdate (pkg version : Nat) (image : List Byte) (signature : Nat) (s : State) : Out :=
  .next (if signedByRoot s pkg image signature then
      modPkg (extendMeas s pkg 4 5 0 version (sha512 image)) pkg (fun p => { p with hyperVersion := version })
    else s)

end Sys2Proof.Machine
end

