-- ==== Sys2Proof/Machine/Tick.lean ====
section
/-! DEFINITION. What happens in one local clock, and in which order (R93, R100, R103 to R109, R171, R177, R178, R277, R283, R302,
R303, R331, R344, R358); the glue around a stream's command and around a system core's (R11, R147, R191). -/

namespace Sys2Proof.Machine

-- Outside acts ------------------------------------------------------------------------------------------------------------------------

/-- Acts of parties without a timetable, and of the hub's host side. -/
def isOutside : Instr → Bool
  | .beaconReceived .. | .thermalSignal .. | .thermalWithdraw .. | .thermalTrip .. | .debugStopRequest _ | .debugRelease _
  | .windowPutApply _ | .windowPutAck _ | .windowGetReturn _ | .parkedTransferRetry _ | .hostDmaDescriptor .. | .hostDmaStart _
  | .hostDmaUnit _ | .compactionMove .. | .compactionRelease .. | .flitCorrected .. | .laneFailure .. | .flitUncorrectable ..
  | .linkTrained .. | .channelSubstitution .. | .build .. | .armx .. | .kill .. | .ckpt .. | .resume .. | .restore .. | .rings ..
  | .window .. | .policy .. | .repair .. | .tload .. | .featCommit .. | .managementRegisterWrite .. | .boot .. | .unlockToken ..
  | .retire _ | .spdmRequest .. | .partitionUpdate .. | .hypervisorUpdate .. | .debugSessionAttach .. | .lostBeaconPath _
  | .packageForcedDetach _ | .linksTakenDown _ | .lifecycleFuseAdvance _ | .tenantKeyProvision .. => true
  | _ => false

/-- A system core executes the cc map (R11). -/
def isSystemCommand (i : Instr) : Bool := (encodeOp i).isSome && streamOf i == .cc

/-- The mailbox that a record goes to: package and partition (R358). -/
def mailboxOf : Instr → Option (Nat × Nat)
  | .build pkg part .. | .armx pkg part _ | .kill pkg part _ | .ckpt pkg part _ | .resume pkg part _ | .restore pkg part _
  | .rings pkg part .. | .window pkg part .. | .policy pkg part .. | .repair pkg part .. | .tload pkg part .. => some (pkg, part)
  | _ => none

/-- What a due input brings about: a system core's command, or its mailbox record (R358); an act of another party. -/
def inputAct (x : Input) : List Act :=
  match x.sys with
  | some k =>
    if !isSystemCore k then []
    else if isSystemCommand x.instr then [.sys k x.instr]
    else if (mailboxOf x.instr).isSome then [.mail k x.instr] else []
  | none => if isOutside x.instr then [.ev x.instr] else []

/-- Acts that move bytes without a landing cycle: they come after what the cycle's commands do (R213). -/
def isMover : Instr → Bool
  | .windowPutApply _ | .windowPutAck _ | .windowGetReturn _ | .parkedTransferRetry _ | .hostDmaUnit _ => true
  | _ => false

/-- What takes one input in a local clock: a system core, which executes one command after another (log 3), and a partition's mailbox,
whose records are completed one at a time (R358). -/
def inputQueue (x : Input) : List (Nat × Nat) :=
  (x.sys.map (fun k => (0, k))).toList ++ ((mailboxOf x.instr).map (fun p => (1 + p.1, p.2))).toList

/-- A system core waits for its own atomic and hub requests before its next command (log 3). -/
def inputReady (s : State) (x : Input) : Bool :=
  match x.sys with
  | some k => (getCore s k).inflight.isEmpty
  | none => true

/-- The inputs of a local clock, and those left for later ones. -/
def splitInputs (s : State) : List Input → List (Nat × Nat) → List Input × List Input
  | [], _ => ([], [])
  | x :: r, used =>
    let q := inputQueue x
    if x.clock ≤ s.clock ∧ inputReady s x = true ∧ q.all (fun q => !used.contains q) = true then
      let (a, b) := splitInputs s r (q ++ used)
      (x :: a, b)
    else
      let (a, b) := splitInputs s r used
      (a, x :: b)

-- The order of a local clock -------------------------------------------------------------------------------------------------------------

/-- The compute cores that State lists, rising. -/
def listedCores (s : State) : List (Nat × CoreState) := s.cores.filter (fun x => decide (numOf x.1 < Config.coresPerPackage))

/-- Packages of the state. -/
def packages (s : State) : List Nat := ((s.pkgs.map Prod.fst ++ (listedCores s).map (fun x => pkgOf x.1)).foldr insNat []).dedup

/-- Credits that are not full (R104, R330). -/
def creditActs (s : State) : List Act :=
  (listedCores s).flatMap (fun x =>
    (if x.2.pid ≠ 0 ∧ (x.2.credit < ((Config.creditCap * Config.creditUnit : Nat) : Int) ∨ x.2.outstanding.isEmpty = false) then
      [Act.ev (.rateCreditRefill x.1)] else []) ++
    (if x.2.beatCredit.isEmpty then [] else [Act.ev (.beatCreditRefill x.1)]))

/-- The core of a die whose trace buffer is served next (R344): the first with records from the turn on, in rotation. -/
def traceNext (s : State) (pkg die : Nat) : Option Nat :=
  let l := ((listedCores s).filter (fun x => pkgOf x.1 == pkg && dieOf x.1 == die && !x.2.trace.isEmpty &&
    (ringBase s x.1 (ownPart s x.1) false die).isSome)).map Prod.fst
  match l.find? (fun k => decide (Sparse.get 0 (getPkg s pkg).traceTurn die ≤ numOf k)) with
  | some k => some k
  | none => l.head?

/-- One trace slot a die and local clock (R344). -/
def traceActs (s : State) : List Act :=
  (packages s).flatMap (fun p => (List.range 4).filterMap (fun die => (traceNext s p die).map (fun k => Act.ev (.traceSlot k))))

/-- Priorities that rise in this clock (R303). -/
def agingActs (s : State) : List Act :=
  (packages s).flatMap (fun p => (waitingOn s p).filterMap (fun a =>
    if a.since < s.clock ∧ (s.clock - a.since) % 2 ^ 20 = 0 then some (Act.ev (.priorityAging p a.pid)) else none))

/-- Rounds of the dies' schedulers where a pour waits, or where one waited last (R303). -/
def roundActs (s : State) : List Act :=
  (packages s).flatMap (fun p =>
    if (waitingOn s p).isEmpty && (getPkg s p).heads.isEmpty then []
    else (List.range 4).map (fun die => Act.ev (.schedulingRound p die)))

/-- Beacons, every 4,096 local clocks (R331). -/
def beaconActs (s : State) : List Act :=
  if s.clock % 4096 = 0 then
    (packages s).flatMap (fun p => ((getPkg s p).links.filter (fun l => l.2.state == 2)).map (fun l => Act.ev (.beaconInterval p l.1)))
  else []

/-- The order between domains (R9, R171): by the lowest core number; two packages' equal numbers by package (log 77). -/
def domainKey (d : Domain) : Nat := ((least (d.all.map (fun k => numOf k * 2 ^ 32 + pkgOf k))).getD 0)

def insDomain (d : Domain) : List Domain → List Domain
  | [] => [d]
  | e :: r => if domainKey d ≤ domainKey e then d :: e :: r else e :: insDomain d r

/-- Holds, slack points and stops of a domain before its cycle (R103 to R109, R113, R299, R308). -/
def holdActs (d : Domain) : List Act :=
  [.ev (.slackPoint d.pid), .ev (.holdEffect d.pid), .ev (.holdRelease d.pid), .ev (.holdBudgetExceeded d.pid), .ev (.schedulerStop d.pid)]

/-- What reaches cores and hub in a cycle: range changes at its start, then parameter words, then arms in increasing core number
(R177, R178, R277), those of the system cores given with them. -/
def reachActs (ds : List Domain) (sys : List Nat) : List Act :=
  let ks := (ds.flatMap Domain.all).foldr insNat []
  let hub := (sys.foldr insNat ks)
  ks.map (fun k => Act.ev (.rangeChangeReach k)) ++ hub.map (fun k => Act.ev (.mpatLanding k)) ++
    hub.map (fun k => Act.ev (.armPoolArrival k))

/-- A core's four streams, in stream-code order. The cycle's fetches come before its issues, so a SYSRD of a FETCH register shows the
pointer after the fetch of its own cycle (log 69). -/
def streamActs (k : Nat) : List Act :=
  [Stream.cc, .cp, .ve, .ce].map (fun st => Act.ev (.commandFetch k st)) ++ [Stream.cc, .cp, .ve, .ce].map (fun st => Act.issue k st)

/-- What lands and what samples in a cycle, over all domains (R48, R54, R100, R171, R251, R283, R284, R294, R295): results, fills and
beats at the cores; at the memory side cell initialisations, writes, adds, samples, and then the atomics, the system cores' last; the host
functions' follow them. -/
def landingActs (ds : List Domain) (sys : List Nat) : List Act :=
  let ks := ds.flatMap Domain.all
  let ps := ds.map Domain.pid
  ks.map (fun k => Act.ev (.resultLanding k)) ++ ks.map (fun k => Act.ev (.fillLanding k)) ++ ks.map (fun k => Act.ev (.beatLanding k)) ++
  ps.map (fun p => Act.ev (.cellInitLanding p)) ++ ps.map (fun p => Act.ev (.memoryWriteLanding p)) ++
  ps.map (fun p => Act.ev (.sumCellAdd p)) ++ ps.map (fun p => Act.ev (.memorySample p)) ++
  ps.map (fun p => Act.ev (.atomicApply p)) ++ sys.map Act.sysAtoms

/-- What issues and what commands in progress do, in increasing core number, which is the order of the wait-log entries of a cycle's
LCWAITs (R109, R349); then receive windows close, at the end of their closing cycle (R215). -/
def commandActs (ds : List Domain) : List Act :=
  let ks := (ds.flatMap Domain.all).foldr insNat []
  ks.flatMap streamActs ++ ks.map Act.elements ++ ks.map (fun k => Act.ev (.receiveWindowClose k))

/-- What may end in a cycle (R302, R311). -/
def endActs (d : Domain) : List Act := [.ev (.pourEnd d.pid), .ev (.checkpointSave d.pid)]

/-- Packages whose security block has a step to do (R360, R361). -/
def secureActs (s : State) : List Act :=
  ((packages s).filter (fun p => (getPkg s p).unlocking.isSome || !(getPkg s p).measQueue.isEmpty)).map Act.secure

/-- The system cores that have a command in a local clock, or one whose atomic or request is still to come about. -/
def systemNow (s : State) (l : List Input) : List Nat :=
  ((l.filterMap Input.sys ++ (s.cores.filter (fun x => isSystemCore x.1 && !x.2.inflight.isEmpty)).map Prod.fst).dedup).foldr insNat []

/-- A LOCAL CLOCK (R93): the clock advances, and everything it brings is put in its order. -/
def tick (s : State) : State :=
  let s := { s with clock := s.clock + 1, atomNow := [] }
  let (due, left) := splitInputs s s.inputs []
  let sys := systemNow s due
  let ds := s.domains.foldr insDomain []
  { s with
    inputs := left
    hostAtoms := s.hostAtoms.filter (fun x => decide (s.clock < x.clock))
    agenda := (due.filter (fun x => !isMover x.instr)).flatMap inputAct ++ secureActs s ++ creditActs s ++ traceActs s ++ agingActs s ++
      roundActs s ++ beaconActs s ++ ds.flatMap holdActs ++ reachActs ds sys ++ landingActs ds sys ++
      (s.hostAtoms.filter (fun x => decide (x.clock ≤ s.clock))).map Act.hostAtom ++ commandActs ds ++
      (due.filter (fun x => isMover x.instr)).flatMap inputAct ++ ds.map (fun d => Act.ev (.dccAdvance d.pid)) ++ ds.flatMap endActs }

-- A stream's command ------------------------------------------------------------------------------------------------------------------------

/-- The command that a stream issues in the present cycle of its domain, if one is due. -/
def issueOf (s : State) (k : Nat) (st : Stream) : Option Fetched :=
  match domOf s k with
  | some d => if d.cycling && liveIn s d k then issueDue s k st else none
  | none => none

/-- A core's elements of the cycle: its own samples, then its commands in progress. -/
def doElements (k : Nat) (s : State) : State :=
  match domOf s k with
  | some d => if d.cycling && liveIn s d k then coreElements (sampleLocals s k) k else s
  | none => s

-- A system core's command (R11, R191) --------------------------------------------------------------------------------------------------------

/-- The state in which a system core executes a command: at its own next word. -/
def sysEnter (k : Nat) (s : State) : State :=
  let c := getCore s k
  let i := c.cc.nextIdx
  setCore { s with ctx := ⟨k, .cc, ⟨0, false, false, false, 0, none⟩, c.cc.seq, i, i + 1, true, true, false, ccSt⟩ } k
    { c with cc := { c.cc with nextIdx := i + 1 } }

/-- What of a system core's command comes about only in its place of the local clock: its atomic and its requests to the hub
(R177, R178, R294). -/
def isLater (e : Effect) : Bool := isAtom e || isArm e || isMpat e

/-- One effect of a system core's command, which has no timetable and comes about at once (log 3). An FQPUSH appends to the system core's
own queue, which no rule limits: it has no cycle in which an overflow would be raised (R149; log 96). -/
def sysEffect (k : Nat) (s : State) (f : Flight) : State :=
  match f.eff with
  | .memRead .. | .memWrite .. =>
    let (s, v) := memSide s k f
    ownSide s k f v
  | .rinv .. => modCore s k (fun c => applyReach c f.eff)
  | .lds .. | .yloadRead .. | .rloadRead .. => sampleLocal s k f
  | _ => applyLocal s k f

/-- What is in flight on a system core comes about, what a sample brings after it. -/
def sysDrain (k : Nat) : Nat → State → State
  | 0, s => s
  | n + 1, s =>
    let c := getCore s k
    let now := c.inflight.filter (fun f => !isLater f.eff)
    if now.isEmpty then s
    else sysDrain k n ((sortFlights now).foldl (sysEffect k) (setCore s k { c with inflight := c.inflight.filter (fun f => isLater f.eff) }))

/-- After a system core's command: its effects, and its sequence number. A command that faults has no effect. -/
def sysDone (k : Nat) (s : State) : State :=
  let s := modCore (sysDrain k 4 s) k (fun c => { c with stop := none, leaving := [], cc := { c.cc with seq := c.cc.seq + 1 } })
  { s with ctx := {} }

/-- A system core's atomic: it samples and stores at once, in a clock in which no other atomic samples the word (R294). -/
def sysAtom (k : Nat) (s : State) (f : Flight) : State :=
  match f.eff with
  | .atom key r op =>
    if atomTaken s key then s
    else
      let (old, s) := untimedAtom (modCore s k (fun c => { c with inflight := c.inflight.filter (fun g => !g.same f) })) (.core k) key op
      modCore s k (fun c => sput c r old)
  | _ => s

/-- The atomics that a system core has asked for. -/
def sysAtoms (k : Nat) (s : State) : State := ((getCore s k).inflight.filter (fun f => isAtom f.eff)).foldl (sysAtom k) s

/-- A host function's atomic (R294; log 92): in a clock in which another atomic has sampled the word it waits for the next. The function
first merges what it has observed, as before each write (R287), and then has the old word. -/
def hostAtom (x : HostAtomic) (s : State) : State :=
  let key := x.pkg * 2 ^ 39 + x.addr
  if hostReaches s x.pkg x.fn x.addr = false then s
  else if atomTaken s key then { s with hostAtoms := s.hostAtoms ++ [{ x with clock := s.clock + 1 }] }
  else
    let (old, s) := untimedAtom (mergeSeen s (.host x.pkg x.fn) (fun _ => true)) (.host x.pkg x.fn) key x.op
    modPkg s x.pkg (fun p => { p with hostOld := Sparse.set 0 p.hostOld x.fn old })

end Sys2Proof.Machine
end

