-- ==== Sys2Proof/Machine/VecBits.lean ====
section
/-! DEFINITION. Vector bits and shifts (R235 to R237) with their immediate forms (R225). -/

namespace Sys2Proof.Machine

/-- A lane-wise command of two sources that decodes no nf code. -/
def bits2 (o : VOps) (delay : Nat) (f : Nat → Nat → Nat) (s : State) : Host.Outcome State Fault Refusal :=
  veLanes s o.vd o.prd o.z o.ty false true [o.va, o.vb] [] delay (fun c e =>
    (f (elemAt c o.ty o.va.toNat e) (elemAt c o.ty o.vb.toNat e), 0))

/-- The same of one source. -/
def bits1 (o : VOps1) (delay : Nat) (f : Nat → Nat) (s : State) : Host.Outcome State Fault Refusal :=
  veLanes s o.vd o.prd o.z o.ty false true [o.va] [] delay (fun c e => (f (elemAt c o.ty o.va.toNat e), 0))

/-- The same with an immediate (R225). -/
def bitsImm (o : VImm) (f : Nat → Nat → Nat) (s : State) : Host.Outcome State Fault Refusal :=
  veLanes s o.vd o.prd o.z o.ty false true [] [(immTypeOk o.ty, fEncoding)] 2 (fun c e =>
    (f (elemAt c o.ty o.vd.toNat e) (immLane o.ty o.imm (e % Ty.lanes o.ty)), 0))

/-- VLOG3's bit `i` on (R235). -/
def log3From (tt d a b : Nat) : Nat → Nat
  | 0 => 0
  | n + 1 => bits tt (4 * (d % 2) + 2 * (a % 2) + b % 2) 1 + 2 * log3From tt (d / 2) (a / 2) (b / 2) n

/-- VSHL on a lane of width `w`: a count of `w` or more gives zero (R236). -/
def shlLane (w a n : Nat) : Nat := if n < w then a * 2 ^ n % 2 ^ w else 0
/-- VSHR. -/
def shrLane (w a n : Nat) : Nat := if n < w then a / 2 ^ n else 0
/-- VSAR: fills with the top bit in every integer type. -/
def sarLane (w a n : Nat) : Nat := intCode w (asSigned w a / 2 ^ min n w)

/-- VFSH (R236). -/
def fshLane (w a b sh : Nat) : Nat := (a * 2 ^ sh + b / 2 ^ (w - sh)) % 2 ^ w

/-- 1 bits of a number of `n` bits. -/
def popFrom (a : Nat) : Nat → Nat
  | 0 => 0
  | n + 1 => a % 2 + popFrom (a / 2) n

/-- VCLZ: `w` for zero (R237). -/
def clzLane (w a : Nat) : Nat := if a = 0 then w else w - 1 - a.log2

/-- The carry-less product (R237). -/
def clmulFrom (a b : Nat) : Nat → Nat
  | 0 => 0
  | n + 1 => (if b % 2 = 1 then a else 0) ^^^ clmulFrom (2 * a) (b / 2) n

/-- VAND (R235). -/
def execVand (o : VOps) (s : State) : Host.Outcome State Fault Refusal := bits2 o 2 (fun a b => a &&& b) s
/-- VOR. -/
def execVor (o : VOps) (s : State) : Host.Outcome State Fault Refusal := bits2 o 2 (fun a b => a ||| b) s
/-- VXOR. -/
def execVxor (o : VOps) (s : State) : Host.Outcome State Fault Refusal := bits2 o 2 (fun a b => a ^^^ b) s

/-- VLOG3 (R235): the destination is read too. -/
def execVlog3 (o : VOps) (tt : BitVec 8) (s : State) : Host.Outcome State Fault Refusal :=
  veLanes s o.vd o.prd o.z o.ty false true [o.va, o.vb] [] 2 (fun c e =>
    (log3From tt.toNat (elemAt c o.ty o.vd.toNat e) (elemAt c o.ty o.va.toNat e) (elemAt c o.ty o.vb.toNat e)
      (Ty.bits o.ty), 0))

/-- VSHL (R236). -/
def execVshl (o : VOps) (s : State) : Host.Outcome State Fault Refusal := bits2 o 2 (shlLane (Ty.bits o.ty)) s
/-- VSHR. -/
def execVshr (o : VOps) (s : State) : Host.Outcome State Fault Refusal := bits2 o 2 (shrLane (Ty.bits o.ty)) s
/-- VSAR. -/
def execVsar (o : VOps) (s : State) : Host.Outcome State Fault Refusal := bits2 o 2 (sarLane (Ty.bits o.ty)) s

/-- VFSH (R236): SH must be below w. -/
def execVfsh (o : VOps) (sh : BitVec 7) (s : State) : Host.Outcome State Fault Refusal :=
  veLanes s o.vd o.prd o.z o.ty false true [o.va, o.vb] [(decide (sh.toNat < Ty.bits o.ty), fEncoding)] 2 (fun c e =>
    (fshLane (Ty.bits o.ty) (elemAt c o.ty o.va.toNat e) (elemAt c o.ty o.vb.toNat e) sh.toNat, 0))

/-- VPOPC (R237). -/
def execVpopc (o : VOps1) (s : State) : Host.Outcome State Fault Refusal := bits1 o 2 (fun a => popFrom a (Ty.bits o.ty)) s
/-- VCLZ. -/
def execVclz (o : VOps1) (s : State) : Host.Outcome State Fault Refusal := bits1 o 2 (clzLane (Ty.bits o.ty)) s
/-- VCLMUL.lo. -/
def execVclmulLo (o : VOps) (s : State) : Host.Outcome State Fault Refusal :=
  bits2 o 4 (fun a b => clmulFrom a b (Ty.bits o.ty) % 2 ^ Ty.bits o.ty) s
/-- VCLMUL.hi. -/
def execVclmulHi (o : VOps) (s : State) : Host.Outcome State Fault Refusal :=
  bits2 o 4 (fun a b => clmulFrom a b (Ty.bits o.ty) / 2 ^ Ty.bits o.ty) s

/-- VAND with an immediate (R225). -/
def execVandImm (o : VImm) (s : State) : Host.Outcome State Fault Refusal := bitsImm o (fun a b => a &&& b) s
/-- VOR with an immediate. -/
def execVorImm (o : VImm) (s : State) : Host.Outcome State Fault Refusal := bitsImm o (fun a b => a ||| b) s
/-- VXOR with an immediate. -/
def execVxorImm (o : VImm) (s : State) : Host.Outcome State Fault Refusal := bitsImm o (fun a b => a ^^^ b) s
/-- VSHL with an immediate count. -/
def execVshlImm (o : VImm) (s : State) : Host.Outcome State Fault Refusal := bitsImm o (shlLane (Ty.bits o.ty)) s
/-- VSHR with an immediate count. -/
def execVshrImm (o : VImm) (s : State) : Host.Outcome State Fault Refusal := bitsImm o (shrLane (Ty.bits o.ty)) s
/-- VSAR with an immediate count. -/
def execVsarImm (o : VImm) (s : State) : Host.Outcome State Fault Refusal := bitsImm o (sarLane (Ty.bits o.ty)) s

end Sys2Proof.Machine
end

