-- ==== Sys2Proof/Machine/Dispatch.lean ====
section
/-! DEFINITION. The meaning of every instruction: one arm per constructor, each a direct call of the definition that gives it. -/

namespace Sys2Proof.Machine

/-- What an instruction does. -/
def exec (i : Instr) (s : State) : Host.Outcome State Fault Refusal :=
  match i with
  | .add a b c => Sys2Proof.Machine.execAdd a b c s
  | .sub a b c => Sys2Proof.Machine.execSub a b c s
  | .mul a b c => Sys2Proof.Machine.execMul a b c s
  | .mulh a b c => Sys2Proof.Machine.execMulh a b c s
  | .mulhn a b c => Sys2Proof.Machine.execMulhn a b c s
  | .div a b c => Sys2Proof.Machine.execDiv a b c s
  | .divn a b c => Sys2Proof.Machine.execDivn a b c s
  | .rem a b c => Sys2Proof.Machine.execRem a b c s
  | .remn a b c => Sys2Proof.Machine.execRemn a b c s
  | .and a b c => Sys2Proof.Machine.execAnd a b c s
  | .or a b c => Sys2Proof.Machine.execOr a b c s
  | .xor a b c => Sys2Proof.Machine.execXor a b c s
  | .shl a b c => Sys2Proof.Machine.execShl a b c s
  | .shr a b c => Sys2Proof.Machine.execShr a b c s
  | .sar a b c => Sys2Proof.Machine.execSar a b c s
  | .sel a b c d => Sys2Proof.Machine.execSel a b c d s
  | .min a b c => Sys2Proof.Machine.execMin a b c s
  | .max a b c => Sys2Proof.Machine.execMax a b c s
  | .minn a b c => Sys2Proof.Machine.execMinn a b c s
  | .maxn a b c => Sys2Proof.Machine.execMaxn a b c s
  | .seq a b c => Sys2Proof.Machine.execSeq a b c s
  | .sne a b c => Sys2Proof.Machine.execSne a b c s
  | .slt a b c => Sys2Proof.Machine.execSlt a b c s
  | .sltn a b c => Sys2Proof.Machine.execSltn a b c s
  | .aadd a b c => Sys2Proof.Machine.execAadd a b c s
  | .acas a b c d => Sys2Proof.Machine.execAcas a b c d s
  | .aswp a b c => Sys2Proof.Machine.execAswp a b c s
  | .patch a b => Sys2Proof.Machine.execPatch a b s
  | .fqpush a => Sys2Proof.Machine.execFqpush a s
  | .addi a b c => Sys2Proof.Machine.execAddi a b c s
  | .andi a b c => Sys2Proof.Machine.execAndi a b c s
  | .ori a b c => Sys2Proof.Machine.execOri a b c s
  | .xori a b c => Sys2Proof.Machine.execXori a b c s
  | .shli a b c => Sys2Proof.Machine.execShli a b c s
  | .shri a b c => Sys2Proof.Machine.execShri a b c s
  | .sari a b c => Sys2Proof.Machine.execSari a b c s
  | .slti a b c => Sys2Proof.Machine.execSlti a b c s
  | .lim a b c => Sys2Proof.Machine.execLim a b c s
  | .movi a b => Sys2Proof.Machine.execMovi a b s
  | .lds a b c => Sys2Proof.Machine.execLds a b c s
  | .sts a b c => Sys2Proof.Machine.execSts a b c s
  | .ldm a b c => Sys2Proof.Machine.execLdm a b c s
  | .stm a b c => Sys2Proof.Machine.execStm a b c s
  | .br a b c d => Sys2Proof.Machine.execBr a b c d s
  | .jmp a => Sys2Proof.Machine.execJmp a s
  | .call a => Sys2Proof.Machine.execCall a s
  | .ret => Sys2Proof.Machine.execRet s
  | .sysrd a b => Sys2Proof.Machine.execSysrd a b s
  | .syswr a b => Sys2Proof.Machine.execSyswr a b s
  | .dccrd a => Sys2Proof.Machine.execDccrd a s
  | .lcset a b => Sys2Proof.Machine.execLcset a b s
  | .lcrd a b => Sys2Proof.Machine.execLcrd a b s
  | .lcwait a => Sys2Proof.Machine.execLcwait a s
  | .slack a => Sys2Proof.Machine.execSlack a s
  | .arm a b => Sys2Proof.Machine.execArm a b s
  | .mpat a b c => Sys2Proof.Machine.execMpat a b c s
  | .qprd a b => Sys2Proof.Machine.execQprd a b s
  | .qpwr a b => Sys2Proof.Machine.execQpwr a b s
  | .fence a => Sys2Proof.Machine.execFence a s
  | .watchAdd a => Sys2Proof.Machine.execWatchAdd a s
  | .watchClr => Sys2Proof.Machine.execWatchClr s
  | .trap a => Sys2Proof.Machine.execTrap a s
  | .halt => Sys2Proof.Machine.execHalt s
  | .rload a b => Sys2Proof.Machine.execRload a b s
  | .rsplit a b c => Sys2Proof.Machine.execRsplit a b c s
  | .rmerge a b => Sys2Proof.Machine.execRmerge a b s
  | .rinv a => Sys2Proof.Machine.execRinv a s
  | .yload a b => Sys2Proof.Machine.execYload a b s
  | .eret => Sys2Proof.Machine.execEret s
  | .hvcall a => Sys2Proof.Machine.execHvcall a s
  | .rres a b c => Sys2Proof.Machine.execRres a b c s
  | .rresClear a b c => Sys2Proof.Machine.execRresClear a b c s
  | .rret a b c => Sys2Proof.Machine.execRret a b c s
  | .nop => Sys2Proof.Machine.execNop s
  | .loop a b c d e => Sys2Proof.Machine.execLoop a b c d e s
  | .lend a => Sys2Proof.Machine.execLend a s
  | .join a => Sys2Proof.Machine.execJoin a s
  | .endStream => Sys2Proof.Machine.execEndStream s
  | .mark a => Sys2Proof.Machine.execMark a s
  | .unassignedOpcode a => Sys2Proof.Machine.execUnassignedOpcode a s
  | .cpld a => Sys2Proof.Machine.execCpld a s
  | .cpldCb a => Sys2Proof.Machine.execCpldCb a s
  | .cpst a => Sys2Proof.Machine.execCpst a s
  | .cpmov a => Sys2Proof.Machine.execCpmov a s
  | .cpset a b => Sys2Proof.Machine.execCpset a b s
  | .cpgth a => Sys2Proof.Machine.execCpgth a s
  | .cpsct a b => Sys2Proof.Machine.execCpsct a b s
  | .cpdec a b c d => Sys2Proof.Machine.execCpdec a b c d s
  | .cpfill a b c d e f => Sys2Proof.Machine.execCpfill a b c d e f s
  | .cppat a b c d e => Sys2Proof.Machine.execCppat a b c d e s
  | .cpcbk a b c d e => Sys2Proof.Machine.execCpcbk a b c d e s
  | .cpvq a b c d e f g h => Sys2Proof.Machine.execCpvq a b c d e f g h s
  | .cpexp a b c d e f g h j => Sys2Proof.Machine.execCpexp a b c d e f g h j s
  | .cpfld a b c d e f g h => Sys2Proof.Machine.execCpfld a b c d e f g h s
  | .cpcini a b => Sys2Proof.Machine.execCpcini a b s
  | .cpatom a b c d e f => Sys2Proof.Machine.execCpatom a b c d e f s
  | .cpcrd a b c d e => Sys2Proof.Machine.execCpcrd a b c d e s
  | .cpput a b c d e f => Sys2Proof.Machine.execCpput a b c d e f s
  | .cpget a b c d e => Sys2Proof.Machine.execCpget a b c d e s
  | .cpxsnd a b c d => Sys2Proof.Machine.execCpxsnd a b c d s
  | .cpxrcv a b c => Sys2Proof.Machine.execCpxrcv a b c s
  | .cpxred a b c d e => Sys2Proof.Machine.execCpxred a b c d e s
  | .vadd a b => Sys2Proof.Machine.execVadd a b s
  | .vsub a b => Sys2Proof.Machine.execVsub a b s
  | .vmul a b => Sys2Proof.Machine.execVmul a b s
  | .vfma a b => Sys2Proof.Machine.execVfma a b s
  | .vfms a b => Sys2Proof.Machine.execVfms a b s
  | .vneg a b => Sys2Proof.Machine.execVneg a b s
  | .vabs a b => Sys2Proof.Machine.execVabs a b s
  | .vmin a b => Sys2Proof.Machine.execVmin a b s
  | .vmax a b => Sys2Proof.Machine.execVmax a b s
  | .vdiv a b => Sys2Proof.Machine.execVdiv a b s
  | .vsqrt a b => Sys2Proof.Machine.execVsqrt a b s
  | .vrcp a b => Sys2Proof.Machine.execVrcp a b s
  | .vrsq a b => Sys2Proof.Machine.execVrsq a b s
  | .vcvt a b c d => Sys2Proof.Machine.execVcvt a b c d s
  | .vcmp a b c d e f g => Sys2Proof.Machine.execVcmp a b c d e f g s
  | .vsel a b c d e => Sys2Proof.Machine.execVsel a b c d e s
  | .vexp2 a => Sys2Proof.Machine.execVexp2 a s
  | .vlog2 a => Sys2Proof.Machine.execVlog2 a s
  | .vexp a => Sys2Proof.Machine.execVexp a s
  | .vlog a => Sys2Proof.Machine.execVlog a s
  | .vsinpi a => Sys2Proof.Machine.execVsinpi a s
  | .vcospi a => Sys2Proof.Machine.execVcospi a s
  | .vtanh a => Sys2Proof.Machine.execVtanh a s
  | .vrand a b c d => Sys2Proof.Machine.execVrand a b c d s
  | .vmov a => Sys2Proof.Machine.execVmov a s
  | .vand a => Sys2Proof.Machine.execVand a s
  | .vor a => Sys2Proof.Machine.execVor a s
  | .vxor a => Sys2Proof.Machine.execVxor a s
  | .vlog3 a b => Sys2Proof.Machine.execVlog3 a b s
  | .vshl a => Sys2Proof.Machine.execVshl a s
  | .vshr a => Sys2Proof.Machine.execVshr a s
  | .vsar a => Sys2Proof.Machine.execVsar a s
  | .vfsh a b => Sys2Proof.Machine.execVfsh a b s
  | .vpopc a => Sys2Proof.Machine.execVpopc a s
  | .vclz a => Sys2Proof.Machine.execVclz a s
  | .vclmulLo a => Sys2Proof.Machine.execVclmulLo a s
  | .vclmulHi a => Sys2Proof.Machine.execVclmulHi a s
  | .vperm a => Sys2Proof.Machine.execVperm a s
  | .vbcst a b => Sys2Proof.Machine.execVbcst a b s
  | .viota a b c d => Sys2Proof.Machine.execViota a b c d s
  | .vredAdd a b => Sys2Proof.Machine.execVredAdd a b s
  | .vredMin a b => Sys2Proof.Machine.execVredMin a b s
  | .vredMax a b => Sys2Proof.Machine.execVredMax a b s
  | .vscanInc a b => Sys2Proof.Machine.execVscanInc a b s
  | .vscanExc a b => Sys2Proof.Machine.execVscanExc a b s
  | .vstep a b c d e f => Sys2Proof.Machine.execVstep a b c d e f s
  | .vcmpr a => Sys2Proof.Machine.execVcmpr a s
  | .mand a b c => Sys2Proof.Machine.execMand a b c s
  | .mor a b c => Sys2Proof.Machine.execMor a b c s
  | .mxor a b c => Sys2Proof.Machine.execMxor a b c s
  | .mnot a b => Sys2Proof.Machine.execMnot a b s
  | .mpop a b c => Sys2Proof.Machine.execMpop a b c s
  | .kmsk a b c => Sys2Proof.Machine.execKmsk a b c s
  | .vimm a => Sys2Proof.Machine.execVimm a s
  | .kset a b c => Sys2Proof.Machine.execKset a b c s
  | .vaddImm a b => Sys2Proof.Machine.execVaddImm a b s
  | .vmulImm a b => Sys2Proof.Machine.execVmulImm a b s
  | .vminImm a b => Sys2Proof.Machine.execVminImm a b s
  | .vmaxImm a b => Sys2Proof.Machine.execVmaxImm a b s
  | .vandImm a => Sys2Proof.Machine.execVandImm a s
  | .vorImm a => Sys2Proof.Machine.execVorImm a s
  | .vxorImm a => Sys2Proof.Machine.execVxorImm a s
  | .vshlImm a => Sys2Proof.Machine.execVshlImm a s
  | .vshrImm a => Sys2Proof.Machine.execVshrImm a s
  | .vsarImm a => Sys2Proof.Machine.execVsarImm a s
  | .vcmpImm a b => Sys2Proof.Machine.execVcmpImm a b s
  | .vld a => Sys2Proof.Machine.execVld a s
  | .vldOrb a b => Sys2Proof.Machine.execVldOrb a b s
  | .vst a => Sys2Proof.Machine.execVst a s
  | .vstOrb a b => Sys2Proof.Machine.execVstOrb a b s
  | .vcst a b c d e f g => Sys2Proof.Machine.execVcst a b c d e f g s
  | .mclm a => Sys2Proof.Machine.execMclm a s
  | .mrel a => Sys2Proof.Machine.execMrel a s
  | .mzero a => Sys2Proof.Machine.execMzero a s
  | .mtrn a b => Sys2Proof.Machine.execMtrn a b s
  | .mma a => Sys2Proof.Machine.execMma a s
  | .mmas a b c => Sys2Proof.Machine.execMmas a b c s
  | .mlda a b c d => Sys2Proof.Machine.execMlda a b c d s
  | .msta a b c d => Sys2Proof.Machine.execMsta a b c d s
  | .ocon a b c d => Sys2Proof.Machine.execOcon a b c d s
  | .oconp a b c d => Sys2Proof.Machine.execOconp a b c d s
  | .commandFetch a b => Sys2Proof.Machine.execCommandFetch a b s
  | .dccAdvance a => Sys2Proof.Machine.execDccAdvance a s
  | .resultLanding a => Sys2Proof.Machine.execResultLanding a s
  | .fillLanding a => Sys2Proof.Machine.execFillLanding a s
  | .memorySample a => Sys2Proof.Machine.execMemorySample a s
  | .memoryWriteLanding a => Sys2Proof.Machine.execMemoryWriteLanding a s
  | .atomicApply a => Sys2Proof.Machine.execAtomicApply a s
  | .sumCellAdd a => Sys2Proof.Machine.execSumCellAdd a s
  | .cellInitLanding a => Sys2Proof.Machine.execCellInitLanding a s
  | .beatLanding a => Sys2Proof.Machine.execBeatLanding a s
  | .receiveWindowClose a => Sys2Proof.Machine.execReceiveWindowClose a s
  | .armPoolArrival a => Sys2Proof.Machine.execArmPoolArrival a s
  | .mpatLanding a => Sys2Proof.Machine.execMpatLanding a s
  | .rangeChangeReach a => Sys2Proof.Machine.execRangeChangeReach a s
  | .holdEffect a => Sys2Proof.Machine.execHoldEffect a s
  | .holdRelease a => Sys2Proof.Machine.execHoldRelease a s
  | .holdBudgetExceeded a => Sys2Proof.Machine.execHoldBudgetExceeded a s
  | .rateCreditRefill a => Sys2Proof.Machine.execRateCreditRefill a s
  | .beatCreditRefill a => Sys2Proof.Machine.execBeatCreditRefill a s
  | .slackPoint a => Sys2Proof.Machine.execSlackPoint a s
  | .beaconInterval a b => Sys2Proof.Machine.execBeaconInterval a b s
  | .beaconReceived a b c d e f => Sys2Proof.Machine.execBeaconReceived a b c d e f s
  | .thermalSignal a => Sys2Proof.Machine.execThermalSignal a s
  | .thermalWithdraw a => Sys2Proof.Machine.execThermalWithdraw a s
  | .thermalTrip a => Sys2Proof.Machine.execThermalTrip a s
  | .debugStopRequest a => Sys2Proof.Machine.execDebugStopRequest a s
  | .debugRelease a => Sys2Proof.Machine.execDebugRelease a s
  | .traceSlot a => Sys2Proof.Machine.execTraceSlot a s
  | .schedulingRound a b => Sys2Proof.Machine.execSchedulingRound a b s
  | .priorityAging a b => Sys2Proof.Machine.execPriorityAging a b s
  | .pourStart a b => Sys2Proof.Machine.execPourStart a b s
  | .pourEnd a => Sys2Proof.Machine.execPourEnd a s
  | .schedulerStop a => Sys2Proof.Machine.execSchedulerStop a s
  | .checkpointSave a => Sys2Proof.Machine.execCheckpointSave a s
  | .pourKill a => Sys2Proof.Machine.execPourKill a s
  | .pourRestore a b => Sys2Proof.Machine.execPourRestore a b s
  | .windowPutApply a => Sys2Proof.Machine.execWindowPutApply a s
  | .windowPutAck a => Sys2Proof.Machine.execWindowPutAck a s
  | .windowGetReturn a => Sys2Proof.Machine.execWindowGetReturn a s
  | .parkedTransferRetry a => Sys2Proof.Machine.execParkedTransferRetry a s
  | .hostDmaDescriptor a b c d e f => Sys2Proof.Machine.execHostDmaDescriptor a b c d e f s
  | .hostDmaStart a => Sys2Proof.Machine.execHostDmaStart a s
  | .hostDmaUnit a => Sys2Proof.Machine.execHostDmaUnit a s
  | .compactionMove a b c d e => Sys2Proof.Machine.execCompactionMove a b c d e s
  | .compactionRelease a b c d => Sys2Proof.Machine.execCompactionRelease a b c d s
  | .flitCorrected a b => Sys2Proof.Machine.execFlitCorrected a b s
  | .laneFailure a b c => Sys2Proof.Machine.execLaneFailure a b c s
  | .flitUncorrectable a b => Sys2Proof.Machine.execFlitUncorrectable a b s
  | .linkTrained a b c d => Sys2Proof.Machine.execLinkTrained a b c d s
  | .channelSubstitution a b c => Sys2Proof.Machine.execChannelSubstitution a b c s
  | .partitionUpdate a b c d e => Sys2Proof.Machine.execPartitionUpdate a b c d e s
  | .build a b c d => Sys2Proof.Machine.execBuild a b c d s
  | .armx a b c => Sys2Proof.Machine.execArmx a b c s
  | .kill a b c => Sys2Proof.Machine.execKill a b c s
  | .ckpt a b c => Sys2Proof.Machine.execCkpt a b c s
  | .resume a b c => Sys2Proof.Machine.execResume a b c s
  | .restore a b c => Sys2Proof.Machine.execRestore a b c s
  | .rings a b c d e => Sys2Proof.Machine.execRings a b c d e s
  | .window a b c d => Sys2Proof.Machine.execWindow a b c d s
  | .policy a b c d e => Sys2Proof.Machine.execPolicy a b c d e s
  | .repair a b c d => Sys2Proof.Machine.execRepair a b c d s
  | .tload a b c d e f => Sys2Proof.Machine.execTload a b c d e f s
  | .featCommit a b c => Sys2Proof.Machine.execFeatCommit a b c s
  | .managementRegisterWrite a b c => Sys2Proof.Machine.execManagementRegisterWrite a b c s
  | .boot a b => Sys2Proof.Machine.execBoot a b s
  | .unlockToken a b c => Sys2Proof.Machine.execUnlockToken a b c s
  | .retire a => Sys2Proof.Machine.execRetire a s
  | .spdmRequest a b c => Sys2Proof.Machine.execSpdmRequest a b c s
  | .hypervisorUpdate a b c d => Sys2Proof.Machine.execHypervisorUpdate a b c d s
  | .debugSessionAttach a b c => Sys2Proof.Machine.execDebugSessionAttach a b c s
  | .lostBeaconPath a => Sys2Proof.Machine.execLostBeaconPath a s
  | .packageForcedDetach a => Sys2Proof.Machine.execPackageForcedDetach a s
  | .linksTakenDown a => Sys2Proof.Machine.execLinksTakenDown a s
  | .lifecycleFuseAdvance a => Sys2Proof.Machine.execLifecycleFuseAdvance a s
  | .tenantKeyProvision a b c => Sys2Proof.Machine.execTenantKeyProvision a b c s

end Sys2Proof.Machine
end

