-- ==== Sys2Proof/Machine/Step.lean ====
section
/-! DEFINITION. One step of the machine: the next act of the agenda, or, when it is empty, the next local clock; and the state in
which a given instruction is the next to run. -/

namespace Sys2Proof.Machine

/-- A stream issues the command that is due, if one is (R147): it executes as decoded, unless a check of the issue stage faults
first. -/
def issueStep (k : Nat) (st : Stream) (s : State) : Out :=
  match issueOf s k st with
  | none => .next s
  | some f =>
    let i := issueInstr st f
    let s0 := enterIssue s k st f
    match issueFault s0 f (decoded st f.words) with
    | some (code, cause) => .next (issueDone s0 (faultNow s0 code cause []) f i)
    | none =>
      match exec i s0 with
      | .next s1 => .next (issueDone s0 s1 f i)
      | .fault r => .fault r
      | .refused r => .refused r

/-- A system core executes a command (R11). -/
def systemStep (k : Nat) (i : Instr) (s : State) : Out :=
  match exec i (sysEnter k s) with
  | .next s1 => .next (sysDone k s1)
  | .fault r => .fault r
  | .refused r => .refused r

/-- A record that a system core writes into a mailbox (R358): its partition's own, where it names none of another's (R357). -/
def mailStep (k : Nat) (i : Instr) (s : State) : Out :=
  match mailboxOf i with
  | none => .next s
  | some (pkg, part) =>
    if pkgOf k = pkg ∧ (getPart s pkg part).sysCores.contains (numOf k) = true then
      match exec i { s with ctx := { core := k, sys := true } } with
      | .next s1 => .next { s1 with ctx := {} }
      | .fault r => .fault r
      | .refused r => .refused r
    else .next s

/-- One act. -/
def act (a : Act) (s : State) : Out :=
  match a with
  | .ev i => exec i s
  | .issue k st => issueStep k st s
  | .elements k => .next (doElements k s)
  | .sys k i => systemStep k i s
  | .mail k i => mailStep k i s
  | .sysAtoms k => .next (sysAtoms k s)
  | .hostAtom x => .next (hostAtom x s)
  | .secure p => .next (secureStep s p)

/-- ONE STEP: an access that left the machine without a physical address stops it (R268); else the agenda's next act, or the next
local clock. -/
def step (s : State) : Host.Outcome State Fault Refusal :=
  if s.dead then .fault .noPhysicalAddress
  else
    match s.agenda with
    | [] => .next (tick s)
    | a :: r => act a { s with agenda := r }

/-- The ring of a stream in `withFetchWord`: 64 words, at 512 times its stream code. -/
def fetchRing (st : Stream) : Word := BitVec.ofNat 64 (512 * Stream.code st)

/-- `s` in which the instruction whose bits are `w` is the next to run (log 10): core 0 of package 0 runs a pour of one core at its
present DCC, the words stand in the command ring of the stream whose map decodes them, fetched and due in this cycle. -/
def State.withFetchWord (s : State) (nbits w : Nat) : State :=
  let ws := tableWords (w % 2 ^ nbits)
  let st := match decodeAny ws with
    | some (st, _) => st
    | none => .cc
  let n := wordCount st (ws.headD 0)
  let c := getCore s 0
  let f : Fetched := ⟨0, (ws.take n).map toWord, n, c.dcc, none⟩
  let t : StreamSt := { ring := fetchRing st, ended := false, fetched := [f], fetchIdx := n, fetchPtr := n, fetchPrev := c.dcc }
  let spad := (List.range n).foldl (fun m i => Memory.writeNat m (512 * Stream.code st + 8 * i) 8 (ws.getD i 0)) c.spad
  let d : Domain := { pid := 1, part := 0, asid := 0, mouldNo := 0, mould := [], cores := [0], span := 0, pkgs := [0], h := 128, dcc := c.dcc }
  setCore { s with domains := d :: s.domains.filter (fun x => x.pid ≠ 1), agenda := [.issue 0 st] } 0
    (setStream { c with pid := 1, stop := none, spad := spad } st t)

end Sys2Proof.Machine
end

