-- ==== Sys2Proof/Safety.lean ====
section
/-! DEFINITION. What counts as a safe run, and the terms in which claims about the machine are stated: the canonical form of its
tables, the entries that a command puts in flight, and what the entries that fall due in a cycle bring. -/

namespace Sys2Proof.Claims

open Sys2Proof Sys2Proof.Machine

-- Safe runs ------------------------------------------------------------------------------------------------------------------

/-- A step that neither faults nor is refused. -/
def safeStep (s : State) : Prop := ∃ t, step s = .next t

/-- A run of `n` steps that neither faults nor is refused. -/
def safeRun : Nat → State → Prop
  | 0, _ => True
  | n + 1, s => ∃ t, step s = .next t ∧ safeRun n t

-- Canonical form -------------------------------------------------------------------------------------------------------------

/-- The tables of a core are in canonical form: keys rising, no entry equal to what an unlisted key reads as. -/
def tidyCore (c : CoreState) : Bool :=
  Memory.wf c.spad && Sparse.wfFrom 0 0 c.sregs && Sparse.wfFrom 0 0 c.rows && Sparse.wfFrom 0 0 c.masks &&
    Sparse.wfFrom {} 0 c.kpreds && Sparse.wfFrom 0 0 c.qps && Sparse.wfFrom {} 0 c.slots && Sparse.wfFrom 2 0 c.tags &&
    Sparse.wfFrom 0 0 c.cruc && Sparse.wfFrom {} 0 c.lcs && Sparse.wfFrom {} 0 c.sy && Sparse.wfFrom 0 0 c.pm &&
    Sparse.wfFrom 0 0 c.cb

/-- Device memory, the sum cells' metadata, the table of cores and the tables of every core, saved ones too, are in canonical form. -/
def tidy (s : State) : Bool :=
  Memory.wf s.mem && Sparse.wfFrom {} 0 s.cells && Sparse.wfFrom {} 0 s.cores && s.cores.all (fun x => tidyCore x.2) &&
    s.saved.all (fun v => v.cores.all (fun x => tidyCore x.2))

-- Entries in flight ------------------------------------------------------------------------------------------------------------

/-- The executing command puts one entry in flight on its core: due `delay` cycles after its issue, at a station. -/
def posts (s : State) (delay station : Nat) (e : Effect) : State := addFlight s s.ctx.core (flightOf s delay station e)

/-- It puts several in flight, in order. -/
def postsAll (s : State) (l : List (Nat × Nat × Effect)) : State :=
  l.foldl (fun t x => addFlight t s.ctx.core (flightOf s x.1 x.2.1 x.2.2)) s

/-- It faults at issue (R147): no effect but the fault that is taken (R313). -/
def faults (s : State) (code cause : Nat) (detail : List Word) : State := faultNow s code cause detail

/-- The integer wrapped to 64 bits. -/
def wrap64 (x : Int) : Word := BitVec.ofInt 64 x

-- What falls due ----------------------------------------------------------------------------------------------------------------

/-- The core-local entries of a core that fall due in its present cycle, in their order (R284). -/
def dueNow (s : State) (k : Nat) : List Flight := (dueOf (getCore s k) (getCore s k).dcc isLocal).1

/-- The last element of a list, or a value where it has none. -/
def lastOr {α : Type} (x : α) (l : List α) : α := l.getLast?.getD x

/-- A landing that only puts a value in its destination: no fault raised, no entry of the range or symmetry table edited. -/
def plainLanding : Effect → Bool
  | .raise .. | .yload .. | .rload .. | .rsplit .. | .rmerge .. => false
  | _ => true

/-- The bit that an entry lands in a mask. -/
def maskBitOf (e : Effect) (m b : Nat) : Option Bool :=
  match e with | .mask q en v => if q = m ∧ en.getLsbD b = true then some (v.getLsbD b) else none | _ => none

/-- The count predicate, the slot state, the queue pointer, the row of pattern memory and of the codebooks that an entry lands. -/
def kpredOf (e : Effect) (n : Nat) : Option KPred := match e with | .kpred q v => if q = n then some v else none | _ => none
def slotStOf (e : Effect) (n : Nat) : Option SlotSt := match e with | .slotSt q st => if q = n then some st else none | _ => none
def qpOf (e : Effect) (n : Nat) : Option Word := match e with | .qp q v => if q = n then some v else none | _ => none
def pmRowOf (e : Effect) (r : Nat) : Option Row := match e with | .pmRows p l => if 8 * p ≤ r then l[r - 8 * p]? else none | _ => none
def cbRowOf (e : Effect) (r : Nat) : Option Row := match e with | .cbRows k l => if 16 * k ≤ r then l[r - 16 * k]? else none | _ => none

/-- An entry raises flag `b` of an engine. -/
def raises (e : Effect) (eng : Stream) (b : Nat) : Prop := ∃ v, e = .flags eng v ∧ v.testBit b = true

/-- An entry writes a system register. -/
def writesSys : Effect → Bool
  | .sysreg .. => true
  | _ => false

/-- The value that an entry lands in a scalar register. -/
def regOf (e : Effect) (r : SReg) : Option Word := match e with | .sreg q v => if q = r then some v else none | _ => none

/-- The byte enables and value that an entry lands in an accumulator row. -/
def rowOf (e : Effect) (r : Nat) : Option (BitVec 128 × Row) :=
  match e with | .row q en v _ => if q = r then some (en, v) else none | _ => none

/-- The byte that an entry lands at a scratchpad address. -/
def spadByteOf (e : Effect) (a : Nat) : Option Byte :=
  match e with
  | .spad b n en v _ => if b ≤ a ∧ a < b + n ∧ en / 2 ^ (a - b) % 2 = 1 then some (BitVec.ofNat 8 (v / 256 ^ (a - b))) else none
  | _ => none

/-- The word that an entry pushes onto the format queue. -/
def pushOf (e : Effect) : Option Word := match e with | .fqAppend v => some v | _ => none

-- Accesses ------------------------------------------------------------------------------------------------------------------------

/-- What a core's access to a device address comes to: a memory key, or a fault's code and the sector it names. -/
inductive Access where
  | reaches (key : Nat)
  | stops (code sector : Nat)
  | nowhere
  deriving DecidableEq, Repr

/-- The range rules (R270 to R273) for permission bits (1 r, 2 w, 3 a, 4 c), on a core's table: the first valid entry of the pour's ASID
that holds the address decides. -/
def accessAt (s : State) (k x : Nat) (perms : List Nat) : Access :=
  let asid := asidOfCore s k
  match (getCore s k).ranges.find? (fun p => decide (p.2.ctl.toNat % 2 = 1 ∧ p.2.ctl.toNat / 2 ^ 8 % 2 ^ 12 = asid ∧
      p.2.base.toNat ≤ x ∧ x < p.2.limit.toNat)) with
  | none => .stops 0x07 0
  | some (_, e) =>
    let sector := (x - e.base.toNat) / (256 * ((e.limit.toNat - e.base.toNat + 16383) / 16384))
    if perms.any (fun p => decide (e.ctl.toNat / 2 ^ p % 2 = 0)) then .stops 0x08 sector
    else if e.res.toNat / 2 ^ sector % 2 = 0 then .stops 0x09 sector
    else if (x + e.off.toNat) % 2 ^ 64 < 2 ^ 39 then .reaches (pkgOf k * 2 ^ 39 + (x + e.off.toNat) % 2 ^ 64)
    else .nowhere

/-- The same for the executing core. -/
def accessOutcome (s : State) (x : Nat) (perms : List Nat) : Access := accessAt s s.ctx.core x perms

/-- The DETAIL words of a core's failed access (R321): the address, the ASID with the sector, the command's sequence number. -/
def accessWordsAt (s : State) (k x sector seq : Nat) : List Word :=
  [toWord x, toWord (asidOfCore s k + sector * 2 ^ 16), toWord seq, 0]
def accessWords (s : State) (x sector : Nat) : List Word := accessWordsAt s s.ctx.core x sector s.ctx.seq

/-- After the watch test of an access of `n` bytes that the executing command makes at its issue (R280 to R282). -/
def watched (s : State) (x n kind : Nat) : State := watchNow s x n kind

/-- A request that an active command makes at its issue fails: the fault's code, its DETAIL words, and the state it is taken in. -/
structure Failure where
  code : Nat
  detail : List Word
  seen : State
  deriving DecidableEq, Repr

/-- Why a request of `n` bytes fails (R193, R273), none where it does not: an address that no lookup takes, or what the lookup gives after
the watch test. -/
def requestOutcome (s : State) (x n align kind : Nat) (perms : List Nat) : Option Failure :=
  if x < 2 ^ 57 ∧ x % align = 0 then
    match accessOutcome s x perms with
    | .stops code sector => some ⟨code, accessWords s x sector, watched s x n kind⟩
    | _ => none
  else some ⟨0x08, [], s⟩

/-- The first of several requests of 64 bytes that fails, each tested against the watch after those before it. -/
def firstFailure (s : State) (kind : Nat) (perms : List Nat) : List Nat → Option Failure
  | [] => none
  | x :: r =>
    match requestOutcome s x 64 64 kind perms with
    | some f => some f
    | none => firstFailure (watched s x 64 kind) kind perms r

/-- A run of `n` bytes lies in one of the blocks 0 to 5 (R193); an empty one has its address there. -/
def inRun (x n : Nat) : Prop := x < 6 * 2 ^ 18 ∧ (n = 0 ∨ (x + n - 1) / 2 ^ 18 = x / 2 ^ 18)

/-- A run of scratchpad bytes meets the buffer of a receive window that is open in the present cycle (R215). -/
def shut (s : State) (x n : Nat) : Prop :=
  ∃ w ∈ (cur s).rwins, w.opens ≤ (cur s).dcc ∧ (cur s).dcc ≤ w.closes ∧ 0 < w.len ∧ 0 < n ∧ x < w.addr + w.len ∧ w.addr < x + n

/-- The bytes from `lo` up to `hi` lie in one of the blocks 0 to 5 (R193). -/
def inBlock (lo hi : Int) : Prop := 0 ≤ lo ∧ lo < 6 * 2 ^ 18 ∧ (hi - 1) / 2 ^ 18 = lo / 2 ^ 18

-- Commands of the copy engine, which go on after their issue --------------------------------------------------------------------------

/-- The command in progress that an executing command becomes. -/
def progress (s : State) (kind : JobKind) (station run last : Nat) (lc : Option Nat) : Job :=
  { kind := kind, stream := s.ctx.stream, station := station, seq := s.ctx.seq, issue := (cur s).dcc, cmp := s.ctx.hdr.cmp, run := run
    lc := lc, active := s.ctx.active, evt := s.ctx.hdr.evt.toNat, ring := ringAddr (curStream s).ring s.ctx.idx, todo := (cur s).dcc
    smp := (cur s).dcc, stat := (cur s).dcc, last := (cur s).dcc + last }

/-- The core has one more command in progress; nothing else changes. -/
def begins (s : State) (j : Job) : State := modCur s (fun c => { c with jobs := c.jobs ++ [j] })

/-- A command in progress puts an entry in flight, due `t` cycles after its issue. -/
def puts (s : State) (k : Nat) (j : Job) (t sub : Nat) (e : Effect) : State :=
  addFlight s k ⟨j.issue + t, j.station, j.stream, j.seq, j.issue, sub, j.cmp, e, none, j.evt⟩

/-- It raises flags with a result; none where there are none. -/
def putsFlags (s : State) (k : Nat) (j : Job) (t sub : Nat) (eng : Stream) (fl : Flags) : State :=
  if fl = 0 then s else puts s k j t sub (.flags eng fl)

/-- What a command in progress does in a cycle is to request `n` bytes of device memory (R104, R193, R273, R280): an address that no
lookup takes raises permission; else, after the watch test, the lookup's fault is raised, or the request spends credit and `go` says what it
brings, given the memory key. `at'` is the command as a fault leaves it. -/
def requestsAt (s : State) (k : Nat) (j at' : Job) (t x n align kind prog : Nat) (perms : List Nat) (go : Nat → State → JobRes) : Prop :=
  let u := watchTest s k j.stream j.evt j.ring j.seq x n kind
  let form := x < 2 ^ 57 ∧ x % align = 0
  (¬ form → requestCycle s k j t = .fault s at' 0x08 (accessWordsAt s k x 0 j.seq) prog) ∧
  (form → ∀ code sec, accessAt s k x perms = .stops code sec → requestCycle s k j t = .fault u at' code (accessWordsAt s k x sec j.seq) prog) ∧
  (form → ∀ key, accessAt s k x perms = .reaches key → requestCycle s k j t = go key (rateUse u k j.stream j.station j.evt)) ∧
  (form → accessAt s k x perms = .nowhere → requestCycle s k j t = .ok { u with dead := true } { at' with stopped := true })

/-- The same of a request before which the command has done nothing in the cycle. -/
def requests (s : State) (k : Nat) (j : Job) (t x n align kind prog : Nat) (perms : List Nat) (go : Nat → State → JobRes) : Prop :=
  requestsAt s k j j t x n align kind prog perms go

/-- How a command issues (R147, R164): the first check in order that does not hold takes its fault; then, for an active command, the
failure of a request it makes at issue; else the machine is in state `t`. -/
def issuesTo (s : State) (i : Instr) (checks : List (Prop × Nat)) (request : Option Failure) (t : State) : Prop :=
  (∀ l r p c, checks = l ++ (p, c) :: r → (∀ x ∈ l, x.1) → ¬ p → exec i s = .next (faults s c 0 [])) ∧
  ((∀ x ∈ checks, x.1) → s.ctx.active = true → ∀ x, request = some x → exec i s = .next (faults x.seen x.code 0 x.detail)) ∧
  ((∀ x ∈ checks, x.1) → (s.ctx.active = true → request = none) → exec i s = .next t)

-- Cast blocks, symmetric storage, records ------------------------------------------------------------------------------------------------

/-- The block at byte `p` of a compressed run of `B` bytes is a valid cast block of `len` bytes that stands for the 256 bytes of `v`
(R333 to R335). -/
def castBlockIs (m : Memory) (p B v len : Nat) : Prop :=
  let h := Memory.readNat m p 8
  let size := 2 ^ (h / 2 ^ 3 % 4)
  let dw := h / 2 ^ 5 % 2 ^ 6
  let clen := h / 2 ^ 11 % 2 ^ 9
  let word := Memory.readNat m (p + 8) 8
  let deltas := Memory.readNat m (p + 16) (8 * (clen - 2))
  let signed := fun (x : Nat) => if 2 ^ (dw - 1) ≤ x then (x : Int) - (2 : Int) ^ dw else x
  h / 2 ^ 29 = 0 ∧ h / 2 ^ 20 % 2 ^ 9 = 256 ∧ len = 8 * clen ∧ p + len ≤ B ∧ v < 2 ^ 2048 ∧
  ((h % 8 = 1 ∧ h / 8 % 2 ^ 8 = 0 ∧ clen = 1 ∧ v = 0) ∨
   (h % 8 = 2 ∧ h / 8 % 2 ^ 8 = 0 ∧ clen = 2 ∧ ∀ i, i < 32 → v / 2 ^ (64 * i) % 2 ^ 64 = word) ∨
   (h % 8 = 3 ∧ 1 ≤ dw ∧ dw ≤ 8 * size ∧ dw ≤ 32 ∧ clen = 2 + (256 / size * dw + 63) / 64 ∧ clen ≤ 33 ∧ word < 2 ^ (8 * size) ∧
     ∀ i, i < 256 / size →
       ((v / 2 ^ (8 * size * i) % 2 ^ (8 * size) : Nat) : Int) = (word + signed (deltas / 2 ^ (i * dw) % 2 ^ dw)) % 2 ^ (8 * size)) ∨
   (h % 8 = 4 ∧ h / 8 % 2 ^ 8 = 0 ∧ clen = 33 ∧ v = Memory.readNat m (p + 8) 256))

/-- The linear index of an index over the full extents, dimension 0 slowest (R201). -/
def linearOf (d : BitVec 512) (x : List Nat) : Nat := (List.range (symRank d)).foldl (fun a i => a * symExt d i + x.getD i 0) 0

/-- A landing of the `q`-th representative of a store, and of its flags, `q` cycles after the first (R48, R201, R208). -/
def landsItem (s : State) (k : Nat) (j : Job) (land q : Nat) (it : FoldItem) (e : Effect) : State :=
  putsFlags (puts s k j (land + q) (2 * q + 2) e) k j (land + q) (2 * q + 3) .cp it.fl

/-- Bit `b` is among the flags of the codes that an orbit's representative comes from: no forced zero is among them (log 68). -/
def memberFlag (d : BitVec 512) (ms : List (Member × Flags)) (rank b : Nat) : Prop :=
  ∃ m ∈ ms, (canon d m.1.1).1 = rank ∧ (canon d m.1.1).2.2.1 = false ∧ m.2.testBit b = true

/-- A store through an entry, grouped by orbit (R83 to R86), of members with the flags of their codes: a violation is raised at the first
landing cycle, with the fault's words (R368), and nothing is written; else each representative has the flags of its rounding and of its
members' codes, the symmetry-force flag lands, and in scratchpad the representatives land, one a cycle. `q` says what follows. -/
def storesGroup (s : State) (k : Nat) (j : Job) (y : Nat) (d : BitVec 512) (implies : Bool) (ms : List (Member × Flags)) (land : Nat)
    (q : State → Job → Prop) : Prop :=
  let z := symSize d
  (∀ f, foldStore d implies (ms.map Prod.fst) = .error f →
    q (puts s k j land 0 (.raise f.code 0
      (symDetail y 0 j.seq f ++ [packTuple (f.two.getD []) 0, packTuple (f.two.getD []) 4]) 0)) { j with items := [], stopped := true }) ∧
  (∀ items forced, foldStore d implies (ms.map Prod.fst) = .ok (items, forced) → ∃ its : List FoldItem, its.length = items.length ∧
    (∀ i, i < items.length →
      (its.getD i ⟨0, 0, 0, 0⟩).rank = (items.getD i ⟨0, 0, 0, 0⟩).rank ∧ (its.getD i ⟨0, 0, 0, 0⟩).pos = (items.getD i ⟨0, 0, 0, 0⟩).pos ∧
      (its.getD i ⟨0, 0, 0, 0⟩).val = (items.getD i ⟨0, 0, 0, 0⟩).val ∧
      ∀ b, (its.getD i ⟨0, 0, 0, 0⟩).fl.testBit b = true ↔
        (items.getD i ⟨0, 0, 0, 0⟩).fl.testBit b = true ∨ memberFlag d ms (items.getD i ⟨0, 0, 0, 0⟩).rank b) ∧
    let s := if forced then puts s k j land 1 .symForce else s
    q (if symSpad d then (List.zip (List.range its.length) its).foldl (fun s x =>
        landsItem s k j land x.1 x.2 (.spad x.2.pos z (2 ^ z - 1) x.2.val j.lc)) s else s) { j with items := its })

/-- A code as it is read through an entry (R75): the upper bits of a narrow value read as zero; negated under a negative character. -/
def underSign (d : BitVec 512) (neg : Bool) (code : Nat) : Nat × Flags :=
  if neg then negCode (symTy d) (symNf d) code else (code % 2 ^ codeBits (symTy d) (symNf d), 0)

/-- The element at an index of an expanded tile (R75, R207): its slot's code under the character; zero where the index is a forced
zero. -/
def expanded (d : BitVec 512) (x : List Nat) (code : Nat) : Nat × Flags :=
  if (canon d x).2.2.1 then (0, 0) else underSign d (canon d x).2.1 code

/-- A record of a command (R342): DCC, header, the word of its kind, ASID and sequence number. -/
def recordOf (s : State) (k kind : Nat) (st : Stream) (evt ring seq w2 : Nat) : List Word :=
  [toWord (getCore s k).dcc,
   toWord (kind * 2 ^ 56 + Stream.code st * 2 ^ 54 + evt * 2 ^ 48 + (getPkg s (pkgOf k)).pos * 2 ^ 40 + numOf k * 2 ^ 30 + ring),
   toWord w2, toWord (asidOfCore s k * 2 ^ 52 + seq % 2 ^ 52)]

/-- A ring that holds `size` records of `n` words from byte 64 on (R322, R341) after a record: a full one is as it was, with LOST counted;
another has the record in its slot and HEAD one higher. `f` reads the bytes after. -/
def ringTakes (m : Memory) (base n : Nat) (ws : List Word) (f : Nat → Byte) : Prop :=
  let word := fun (i : Nat) => (Memory.word m (base + 8 * i)).toNat
  let byte := fun (w i : Nat) => BitVec.ofNat 8 (w / 256 ^ i)
  let slot := base + 64 + 8 * n * (word 0 % word 2)
  if word 2 = 0 ∨ word 2 ≤ word 0 - word 1 then
    ∀ a, f a = if base + 24 ≤ a ∧ a < base + 32 then byte (word 3 + 1) (a - base - 24) else Memory.read m a
  else ∀ a, f a = if base ≤ a ∧ a < base + 8 then byte (word 0 + 1) (a - base)
    else if slot ≤ a ∧ a < slot + 8 * n then byte (ws.getD ((a - slot) / 8) 0).toNat ((a - slot) % 8) else Memory.read m a

-- Commands of the vector engine ----------------------------------------------------------------------------------------------------------

/-- Entries of the executing command put in flight, in order. -/
def putAll (s : State) (l : List Flight) : State := l.foldl (fun t x => addFlight t s.ctx.core x) s

/-- A predicate as it stands (R220, R244): the group size, and the activity of each element; none where a count predicate's width field is
not the lane width. -/
def predicateOf (c : CoreState) (p : Prd) (t : Ty) : Option (Nat × (Nat → Bool)) :=
  match p with
  | .all => some (1, fun _ => true)
  | .mask m => some (1, fun e => (Sparse.get 0 c.masks m.toNat).getLsbD e)
  | .count k =>
    let v := Sparse.get {} c.kpreds k.toNat
    if 8 * 2 ^ v.wid.toNat = Ty.bits t then
      some (Nat.max 1 ((v.cnt.toNat + Ty.lanes t - 1) / Ty.lanes t), fun e => decide (e < v.cnt.toNat))
    else none

/-- The group size of a command. -/
def groupOf (s : State) (p : Prd) (t : Ty) : Nat := match predicateOf (cur s) p t with | some x => x.1 | none => 1

/-- Element `e` of the executing command is active (R98, R220). -/
def activeAt (s : State) (p : Prd) (t : Ty) (e : Nat) : Bool :=
  s.ctx.active && (match predicateOf (cur s) p t with | some x => x.2 e | none => false)

/-- Some element is active. -/
def anyActive (s : State) (p : Prd) (t : Ty) : Bool := (List.range (groupOf s p t * Ty.lanes t)).any (activeAt s p t)

/-- The code of element `e` of the group that starts at row `r` (R218). -/
def elem (s : State) (t : Ty) (r e : Nat) : Nat :=
  (Sparse.get 0 (cur s).rows (r + e / Ty.lanes t)).toNat / 2 ^ (Ty.bits t * (e % Ty.lanes t)) % 2 ^ Ty.bits t

/-- A lane's code as an integer of its type, and an integer's code: wrapping (R226, R227). -/
def laneInt (t : Ty) (c : Nat) : Int := if Ty.isSigned t = true ∧ 2 ^ (Ty.bits t - 1) ≤ c then (c : Int) - 2 ^ Ty.bits t else c
def laneWrap (t : Ty) (x : Int) : Nat × Flags := ((x % 2 ^ Ty.bits t).toNat, 0)

/-- The smaller or larger of two floating values (R228): -0 below +0, and of a NaN and a number the number. -/
def pickFloat (mx : Bool) (a b : Machine.Num) : Machine.Num :=
  if a.isNan then (if b.isNan then .nan false else b) else if b.isNan then a
  else if (if mx then a.below b else b.below a) then b else a

/-- What VMIN and VMAX give of two codes (R228), `put` the encoding of a result. -/
def minMaxOf (mx : Bool) (t : Ty) (x : Nat → Machine.Num) (put : Machine.Num → Nat × Flags) (a b : Nat) : Nat × Flags :=
  if Ty.isFloat t then
    let r := put (pickFloat mx (x a) (x b))
    (r.1, r.2 ||| (if (x a).isSig || (x b).isSig then fINV else 0))
  else laneWrap t (if mx then max (laneInt t a) (laneInt t b) else min (laneInt t a) (laneInt t b))

/-- An exact sum rounded once, to nearest even, with the specials of R51. -/
def sumInto (f : Fmt) (l : List Machine.Num) : Nat × Flags :=
  let exponent := fun (x : Machine.Num) => match x with | .fin _ _ e => e | _ => 0
  let up := Machine.Num.inf false ∈ l
  let down := Machine.Num.inf true ∈ l
  if l.any Num.isNan = true ∨ (up ∧ down) then (f.nanCode, if l.any Num.isSig = true ∨ (up ∧ down) then fINV else 0)
  else if up then encodeNum f .rne (.inf false)
  else if down then encodeNum f .rne (.inf true)
  else
    let e := (l.map exponent).foldl min 0
    let t := (l.map (Num.toIntAt e)).foldl (fun a b => a + b) 0
    if t = 0 then (if l.all Num.isNeg then f.signCode true else 0, 0) else roundInto f .rne (t < 0) t.natAbs 1 e

/-- An accumulator's code after the products of one update (R50), with the flags raised. -/
def accumulate (t : Ty) (sat : Bool) (acc : Nat) (l : List Machine.Num) : Nat × Flags :=
  match t with
  | .f16 | .bf16 | .nf => sumInto fmtF32 (decodeNum fmtF32 acc :: l)
  | .f32 => [0, 1, 2, 3].foldl (fun a g =>
      let part := (l.drop (4 * g)).take 4
      if part = [] then a else
        let r := sumInto fmtF32 (decodeNum fmtF32 a.1 :: part)
        (r.1, a.2 ||| r.2)) (acc, 0)
  | .f64 => l.foldl (fun a p =>
      let r := sumInto fmtF64 [decodeNum fmtF64 a.1, p]
      (r.1, a.2 ||| r.2)) (acc, 0)
  | _ =>
    let r : Int × Flags := l.foldl (fun a p =>
      let v := a.1 + Num.toIntAt 0 p
      if sat = false then ((v + 2 ^ 31) % 2 ^ 32 - 2 ^ 31, a.2)
      else if v < -(2 ^ 31) then (-(2 ^ 31), a.2 ||| fSAT)
      else if 2 ^ 31 - 1 < v then (2 ^ 31 - 1, a.2 ||| fSAT)
      else (v, a.2)) (laneInt .i32 acc, 0)
    ((r.1 % 2 ^ 32).toNat, r.2)

/-- The head of the format queue, its descriptors A and B (R219). -/
def formatA (s : State) : Nat := (((cur s).fq.headD 0).toNat) / 2 ^ 32
def formatB (s : State) : Nat := (((cur s).fq.headD 0).toNat) % 2 ^ 32

/-- What a list of entries puts into lane `j` of row `r`: byte enables and code. -/
def lanePuts (l : List Flight) (t : Ty) (r j : Nat) : List (Nat × Nat) :=
  l.filterMap (fun x => match x.eff with
    | .row q en v _ =>
      let m := en.toNat / 2 ^ (Ty.size t * j) % 2 ^ Ty.size t
      if q = r ∧ m ≠ 0 then some (m, v.toNat / 2 ^ (Ty.bits t * j) % 2 ^ Ty.bits t) else none
    | _ => none)

/-- What it puts into bit `b` of mask `m`. -/
def maskPuts (l : List Flight) (m b : Nat) : List Bool :=
  l.filterMap (fun x => match x.eff with
    | .mask q en v => if q = m ∧ en.getLsbD b = true then some (v.getLsbD b) else none
    | _ => none)

/-- Flag `b` of an engine is among what it raises. -/
def raisesFlag (l : List Flight) (eng : Stream) (b : Nat) : Prop := ∃ x ∈ l, ∃ v, x.eff = .flags eng v ∧ v.testBit b = true

/-- A vector command's results: entries `delay` cycles on and no others, which put `out e` into element `e` of the group at row `vd` of
`g` rows, or leave it, and raise the flags of `fl` (R221, R224). -/
def landsLanes (s : State) (i : Instr) (delay vd g : Nat) (t : Ty) (out : Nat → Option Nat) (fl : Nat → Prop) : Prop :=
  ∃ l, exec i s = .next (putAll s l) ∧
    (∀ x ∈ l, x = flightOf s delay veSt x.eff ∧
      ((∃ r en v, x.eff = .row r en v .plain ∧ vd ≤ r ∧ r < vd + g) ∨ ∃ v, x.eff = .flags .ve v)) ∧
    (∀ e, e < g * Ty.lanes t → lanePuts l t (vd + e / Ty.lanes t) (e % Ty.lanes t) =
      (match out e with | some v => [(2 ^ Ty.size t - 1, v % 2 ^ Ty.bits t)] | none => [])) ∧
    (∀ b, raisesFlag l .ve b ↔ fl b)

/-- A vector command's checks in the order of R223: the format word, the predicate, the group, then its own. -/
def vectorChecks (s : State) (fmt many : Bool) (p : Prd) (t : Ty) (rows : List VReg) (own : List (Prop × Nat)) : List (Prop × Nat) :=
  [(fmt = true → (cur s).fq ≠ [], 0x05), (fmt = true → nfValid (formatA s) = true ∧ nfValid (formatB s) = true, 0x01),
   ((predicateOf (cur s) p t).isSome = true, 0x01), (many = true ∨ groupOf s p t = 1, 0x01),
   (∀ r ∈ rows, r.toNat + groupOf s p t ≤ 512, 0x01)] ++ own

/-- Its first failing check takes the fault; otherwise `q` holds. -/
def unlessFault (s : State) (i : Instr) (checks : List (Prop × Nat)) (q : Prop) : Prop :=
  (∀ l r p c, checks = l ++ (p, c) :: r → (∀ x ∈ l, x.1) → ¬ p → exec i s = .next (faults s c 0 [])) ∧ ((∀ x ∈ checks, x.1) → q)

/-- A lane-wise command (R220 to R223): each active element takes its result, an inactive one zero under Z and else nothing; with none
active nothing is written and no flag is raised. -/
def laneWise (s : State) (i : Instr) (fmt many : Bool) (vd : VReg) (srcs : List VReg) (p : Prd) (z : Bool) (t : Ty)
    (own : List (Prop × Nat)) (delay : Nat) (f : Nat → Nat × Flags) : Prop :=
  unlessFault s i (vectorChecks s fmt many p t (vd :: srcs) own)
    (landsLanes s i delay vd.toNat (groupOf s p t) t
      (fun e => if activeAt s p t e = true then some (f e).1 else if z = true ∧ anyActive s p t = true then some 0 else none)
      (fun b => ∃ e, e < groupOf s p t * Ty.lanes t ∧ activeAt s p t e = true ∧ (f e).2.testBit b = true))

/-- The immediate at a lane (R225), and the types that an immediate form has. -/
def immediate (t : Ty) (imm : BitVec 16) (j : Nat) : Nat :=
  match t with
  | .nf => imm.toNat / 256 ^ (j % 2) % 256
  | .i8 | .n8 => imm.toNat % 256
  | .i64 | .i32 => (imm.toInt % 2 ^ Ty.bits t).toNat
  | _ => imm.toNat
def immediateType (t : Ty) : Prop := t ≠ .f64 ∧ t ≠ .f32 ∧ t ≠ .b1

-- Landings in device memory --------------------------------------------------------------------------------------------------------------

/-- The bytes that an entry stores at a memory key, in every backing of its range (R279). -/
def storedAt (s : State) (e : Effect) (a : Nat) : List Byte :=
  let one := fun (key n en v : Nat) => (mirrorKeys s key).filterMap (fun b =>
    if b ≤ a ∧ a < b + n ∧ en / 2 ^ (a - b) % 2 = 1 then some (BitVec.ofNat 8 (v / 256 ^ (a - b))) else none)
  match e with
  | .memWrite key n en v _ => one key n en v
  | .atomStore key v _ => one key 8 255 v.toNat
  | _ => []

/-- What stays in flight when the entries that fall due in a cycle and meet a test are taken out. -/
def stays (c : CoreState) (cyc : Nat) (p : Effect → Bool) : List Flight := c.inflight.filter (fun f => !(f.at' == cyc && p f.eff))

/-- The instructions of the control core's map whose idle form changes nothing (R98): all but the branch, the transfers, SLACK and
the stream-control commands, and those that system cores alone execute. -/
def idleClass : Instr → Bool
  | .br .. | .jmp _ | .call _ | .ret | .slack _ | .eret | .hvcall _ | .rres .. | .rresClear .. | .rret .. => false
  | i => (encodeOp i).isSome && streamOf i == .cc && !isControl i

/-- The memory side's check of one unit (R293, R355), against the first valid range of the ASID's list that holds its address: its
memory key, or the code of the failure with the sector; 0x09 parks. -/
def unitAt (s : State) (pkg asid x perm : Nat) : Access :=
  match (listRanges s pkg asid).find? (fun e => decide (e.ctl.toNat % 2 = 1 ∧ e.ctl.toNat / 2 ^ 8 % 2 ^ 12 = asid ∧
      e.base.toNat ≤ x ∧ x < e.limit.toNat)) with
  | none => .stops 0x07 0
  | some e =>
    let sector := (x - e.base.toNat) / (256 * ((e.limit.toNat - e.base.toNat + 16383) / 16384))
    if e.ctl.toNat / 2 ^ perm % 2 = 0 then .stops 0x08 sector
    else if e.res.toNat / 2 ^ sector % 2 = 0 then .stops 0x09 sector
    else if (x + e.off.toNat) % 2 ^ 64 < 2 ^ 39 then .reaches (pkg * 2 ^ 39 + (x + e.off.toNat) % 2 ^ 64)
    else .stops 0x07 sector

/-- A landing counter after `n` more bytes (R290): the count saturates. -/
def countAfter (x : LCtr) (n : Nat) : Nat := min (x.cnt.toNat + n) (2 ^ 40 - 1)

/-- The machine with a record of kind 2 about a transfer in its issuer's log (R212, R322): DETAIL names the address, the ASID and the
sector. -/
def reported (s : State) (x : Xfer) (code asid va sector : Nat) : State :=
  xferReport s x code [toWord va, toWord (asid + sector * 2 ^ 16)]

/-- A word of the window under which a transfer was issued (R212, R292), and the target's address of its next part. -/
def windowWord (x : Xfer) (n : Nat) : Nat := (x.record.getD n 0).toNat
def partAddr (x : Xfer) : Nat := windowWord x 0 % 2 ^ 57 + x.off + x.done

/-- A transfer goes on under its window: it was registered at the issue, and a registration stands there now (R367; log 85). -/
def windowStands (s : State) (x : Xfer) : Prop :=
  windowWord x 2 / 2 ^ 63 = 1 ∧ ((Sparse.get [] (getPkg s x.pkg).windows (x.part * 256 + x.win)).getD 2 0).toNat / 2 ^ 63 = 1

end Sys2Proof.Claims
end

