-- ==== Sys2Proof/Certificates/Slice0/Obligations.lean ====
section
/-! DEFINITION. The statements about the machine, for the provers: each names the rules it rests on and the numbers of
OBLIGATIONS.json. -/

open Sys2Proof Sys2Proof.Machine Sys2Proof.Claims

-- Words ------------------------------------------------------------------------------------------------------------------------

/-- O1 (R118 to R120, R127 to R140, R145). Decoding the words of a well-formed command gives the command back, with every field at
every value that the encoding admits. -/
def Obligations.CommandRoundTrip : Prop :=
  ∀ c : Cmd, c.hdr.wf = true → c.instr.wf = true →
    ∃ ws, encodeCmd c = some ws ∧ decodeWords (streamOf c.instr) ws = .ok c

/-- O2 (R4, R118 to R146). Each run of words has one meaning: words that a stream's map accepts are exactly the words of the command
they are read as, and that command is well formed. The stream-control commands are read alike in the maps of all four streams. -/
def Obligations.DecodedWordsEncodeBack : Prop :=
  (∀ (st : Stream) (ws : List Nat) (c : Cmd), (∀ w ∈ ws, w < 2 ^ 64) → ws.length = wordCount st (ws.headD 0) →
    decodeWords st ws = .ok c → c.instr.wf = true ∧ c.hdr.wf = true ∧ encodeCmd c = some ws) ∧
  (∀ (st : Stream) (c : Cmd), isControl c.instr = true → c.hdr.wf = true →
    ∃ ws, encodeCmd c = some ws ∧ decodeWords st ws = .ok c)

/-- O3 (R119, R145, R146, R191). Words with SIGNAL bit 4 set, and words with one of the opcodes 0xF6 to 0xFF, are commands of no stream;
the issue of a word that is no command of its stream's map runs UNASSIGNED_OPCODE, which takes illegal-encoding. So do, on a compute core,
ERET, HVCALL, RRES and RRET, which execute on system cores only. -/
def Obligations.ReservedWordsAreRefused : Prop :=
  (∀ (st : Stream) (w : Nat) (r : List Nat), bits w 52 1 = 1 ∨ 0xF6 ≤ bits w 40 8 →
    (∃ e, decodeWords st (w :: r) = .error e) ∧
    (∀ (v : Word) (q : List Word) (f : Fetched), f.words = v :: q → v.toNat = w → q.map BitVec.toNat = r →
      ∃ op, issueInstr st f = .unassignedOpcode op)) ∧
  (∀ (s : State) (a b : SReg) (n : BitVec 16) (asid : BitVec 12) (op : BitVec 8),
    exec (.unassignedOpcode op) s = .next (faults s 0x01 0 []) ∧
    (s.ctx.sys = false → ∀ i ∈ [Instr.eret, .hvcall n, .rres a b asid, .rresClear a b asid, .rret a b asid],
      exec i s = .next (faults s 0x01 0 [])))

/-- O4 (R120, R127 to R140, R145). Words written out from the encodings, each of another format, are read as the commands they stand
for. -/
def Obligations.WorkedWordsDecode : Prop :=
  (decodeWords .ve [0x0340001402012288] =
    .ok ⟨⟨3, false, true, false, 0, none⟩, .vadd ⟨40, 8, 9, .mask 2, true, .f32⟩ .rne⟩) ∧
  (decodeWords .ce [0xFE020430210C4000, 0x1000] =
    .ok ⟨⟨0xFE, false, false, false, 2, some 0x1000⟩, .mma ⟨3, 4, 4, .bf16, .n, .t, false⟩⟩) ∧
  (decodeWords .ce [0xFE020430210C6000, 0x1000] = .error .reserved) ∧
  (decodeWords .cp [0x0000F12400600000, 0x0000000A0000000C] =
    .ok ⟨⟨0, false, false, false, 0, none⟩, .loop 1 1 6 10 12⟩) ∧
  (decodeWords .cc [0x000029140000009E] = .ok ⟨⟨0, false, false, false, 0, none⟩, .movi 5 0x9E⟩) ∧
  (decodeWords .cc [0x0100281453779B97] = .ok ⟨⟨1, false, false, false, 0, none⟩, .lim 5 5 0x3779B97⟩) ∧
  (decodeWords .cc [0xFE00300C00020005, 0xC8] =
    .ok ⟨⟨0xFE, false, false, false, 0, some 0xC8⟩, .br 3 false 2 5⟩) ∧
  (decodeWords .ce [0x0000F60000000000] = .error .unassigned) ∧ (decodeWords .ce [0x0000610000000000] = .error .unassigned) ∧
  (decodeWords .ve [0x0000610000000000] = .ok ⟨⟨0, false, false, false, 0, none⟩, .vst ⟨0, 0, 0, 0, .mask 0, false, .f64⟩⟩)

-- The machine's step ---------------------------------------------------------------------------------------------------------------

/-- O5 (R96, R97, R146, R147). When a stream's next act is an issue and a command is due, its words read as `c`, and no check of the issue
stage faults, then the step runs `c` in the state of its issue, with the command's own header, and what `issueDone` adds follows
(IssueAdvancesTheStream). The checks come in R147's order: the fault of the WAIT byte; words that are no command raise illegal-encoding; then
fields out of order do; then a command of the stream in this cycle, and an engine still occupied, raise schedule-miss with causes 6 and 7.
That the place of a loop body's last word (R142) is held against the loop with the fields, before the slot and the engine, is the model's
reading (log 35). A command that faults so leaves nothing but its fault, and stays the stream's next unissued one. -/
def Obligations.StepRunsTheDecodedCommand : Prop :=
  ∀ (s : State) (k : Nat) (st : Stream) (r : List Act) (f : Fetched),
    s.dead = false → s.agenda = .issue k st :: r → issueOf { s with agenda := r } k st = some f →
    let s0 := enterIssue { s with agenda := r } k st f
    let words := decodeWords st (f.words.map BitVec.toNat)
    let faulty := fun (code cause : Nat) => step s = .next (leaveUnissued (faultNow s0 code cause []) f)
    (∀ (t : State) (c : Cmd), words = .ok c → issueFault s0 f (some c.instr) = none → exec c.instr s0 = .next t →
      step s = .next (issueDone s0 t f c.instr) ∧ s0.ctx.core = k ∧ s0.ctx.stream = st ∧ s0.ctx.hdr = c.hdr ∧ s0.mem = s.mem) ∧
    (∀ code cause, f.waitFault = some (code, cause) → faulty code cause) ∧
    (f.waitFault = none → (∀ c, words ≠ .ok c) → faulty 0x01 0) ∧
    (∀ (c : Cmd), f.waitFault = none → words = .ok c →
      let inOrder := fieldsOk s0 k c.instr = true ∧ lastPlaceOk (curStream s0) f c.instr = true
      let busy := Sparse.get 0 (cur s0).busy (occupies s0 c.instr).1
      (¬ inOrder → faulty 0x01 0) ∧
      (inOrder → isControl c.instr = true → issueFault s0 f (some c.instr) = none) ∧
      (inOrder → isControl c.instr = false →
        ((curStream s0).lastSlot = some (cur s0).dcc → faulty 0x02 6) ∧
        ((curStream s0).lastSlot ≠ some (cur s0).dcc → (cur s0).dcc < busy → faulty 0x02 7) ∧
        ((curStream s0).lastSlot ≠ some (cur s0).dcc → busy ≤ (cur s0).dcc → issueFault s0 f (some c.instr) = none)))

/-- O6 (R96, R97, R144, R147). After a command that has not faulted, its stream's sequence number has grown by one, the stream's
previous issue cycle is the present one, the command is no longer among the fetched, a command that is no stream-control command
has taken the stream's issue slot and occupies its engine, and the stream issues again; one that has faulted stays the stream's
next unissued command, and its sequence number does not grow. -/
def Obligations.IssueAdvancesTheStream : Prop :=
  ∀ (s0 s : State) (f : Fetched) (i : Instr),
    let t := issueDone s0 s f i
    let old := curStream s
    let x := getStream (getCore t s.ctx.core) s.ctx.stream
    (s.ctx.faulted = false → x.seq = old.seq + 1 ∧ x.prev = (cur s).dcc ∧ x.fetched = old.fetched.drop 1 ∧
      (isControl i = false → x.lastSlot = some (cur s).dcc ∧
        (0 < (cur s).dcc + (occupies s0 i).2 →
          Sparse.get 0 (getCore t s.ctx.core).busy (occupies s0 i).1 = (cur s).dcc + (occupies s0 i).2)) ∧
      (isControl i = true → x.lastSlot = old.lastSlot) ∧ ∃ l, t.agenda = l ++ .issue s.ctx.core s.ctx.stream :: s.agenda) ∧
    (s.ctx.faulted = true → (cur s).pid ≠ 0 → x.nextIdx = f.idx ∧ x.seq = old.seq ∧ x.fetched = old.fetched ∧ t.agenda = s.agenda)

/-- O7 (R93, R177, R178, R268, R287, R294, R357, R358). With no act left, a step is the next local clock; an act of the machine or of an outside party runs as its own
instruction; a system core's command runs, and what it brings about follows (log 3), and so does a record that it writes into its
partition's mailbox, while one for another partition's is not taken (R357, R358); a core's commands in progress have their cycle. A host function's atomic
stores at once and answers the old word, or waits for the next clock where another atomic has sampled the word (R294; its form is the
model's, log 92). A step answers a next state from every state but one that an access has left without a physical address, which stops the machine (R268; log 56): no
instruction and no event is refused, whatever the state. -/
def Obligations.StepTakesTheAgendaInOrder : Prop :=
  (∀ s : State, (s.dead = true → step s = .fault .noPhysicalAddress) ∧ (s.dead = false → ∃ t, step s = .next t) ∧
    ∀ i : Instr, ∃ t, exec i s = .next t) ∧
  ∀ s : State, s.dead = false →
    (s.agenda = [] → ∃ t, step s = .next t ∧ t.clock = s.clock + 1 ∧ t.domains = s.domains ∧ t.cores = s.cores ∧ t.mem = s.mem) ∧
    (∀ (i : Instr) (r : List Act), s.agenda = .ev i :: r → step s = exec i { s with agenda := r }) ∧
    (∀ (k : Nat) (i : Instr) (r : List Act) (t : State), s.agenda = .sys k i :: r →
      exec i (sysEnter k { s with agenda := r }) = .next t → step s = .next (sysDone k t)) ∧
    (∀ (k pkg part : Nat) (i : Instr) (r : List Act), s.agenda = .mail k i :: r → mailboxOf i = some (pkg, part) →
      (∀ t, pkgOf k = pkg → numOf k ∈ (getPart s pkg part).sysCores →
        exec i { s with agenda := r, ctx := { core := k, sys := true } } = .next t → step s = .next { t with ctx := {} }) ∧
      (¬ (pkgOf k = pkg ∧ numOf k ∈ (getPart s pkg part).sysCores) → step s = .next { s with agenda := r })) ∧
    (∀ (k : Nat) (r : List Act), s.agenda = .elements k :: r → step s = .next (doElements k { s with agenda := r })) ∧
    (∀ (x : HostAtomic) (r : List Act), s.agenda = .hostAtom x :: r →
      let u := { s with agenda := r }
      let key := x.pkg * 2 ^ 39 + x.addr
      let reaches := x.addr < 2 ^ 39 ∧ x.addr % 8 = 0 ∧
        (x.fn = 0 ∨ (x.fn ≤ 16 ∧ (getPart s x.pkg (x.fn - 1)).configured = true ∧ foreignAddr s x.pkg (x.fn - 1) x.addr = false))
      let taken := ∃ y ∈ s.atomNow, y.1 ∈ mirrorKeys s key
      let old := toWord (Memory.readNat s.mem key 8)
      let new := match x.op with | .add b => old + b | .cas b c => if old = c then b else old | .swp b => b
      (¬ reaches → step s = .next u) ∧
      (reaches → taken → step s = .next { u with hostAtoms := s.hostAtoms ++ [{ x with clock := s.clock + 1 }] }) ∧
      (reaches → ¬ taken → tidy s = true → Sparse.wfFrom {} 0 s.pkgs = true → Sparse.wfFrom 0 0 (getPkg s x.pkg).hostOld = true →
        (∀ q ∈ s.cores, ∀ g ∈ q.2.inflight, ∀ b ∈ mirrorKeys s key, ∀ v clock, ¬ (g.got = none ∧ g.eff = .atomStore b v clock)) → ∃ t : State,
        step s = .next t ∧ (∀ a, Memory.read t.mem a = lastOr (Memory.read s.mem a) (storedAt s (.memWrite key 8 255 new.toNat none) a)) ∧
        Sparse.get 0 (getPkg t x.pkg).hostOld x.fn = old ∧ t.cores = s.cores ∧ t.domains = s.domains ∧ t.agenda = r))

/-- O8. After reset no pour, transfer or saved pour is held and nothing is in memory. Of every core every scalar register, accumulator row,
mask, count predicate, queue pointer, landing counter, event counter and its selection, row of pattern memory, codebooks and slots, byte of
scratchpad and symmetry entry reads zero or invalid; every slot is FREE, every tile's tag is 2; the format queue, the call stack, and each
stream's join stack, loops and fetched commands are empty, its ring, seed and sequence number zero; the sticky flags of all three engines, the
collision and the symmetry-force flag are clear; nothing is in flight, in progress, on a runner, in a window or in the trace buffer; no range,
no watch bit and no stop is set. The measurement registers are zero and the links DOWN (R328, R360; the registers' reset values are the
model's choice, log 1, and so is that unwritten memory reads 0, log 4). -/
def Obligations.ResetLeavesNothing : Prop :=
  let s := State.reset
  s.domains = [] ∧ s.mem = [] ∧ (∀ a, Memory.read s.mem a = 0) ∧ tidy s = true ∧ s.xfers = [] ∧ s.saved = [] ∧ s.agenda = [] ∧
  (∀ k r, sget (getCore s k) r = 0) ∧ (∀ k r, getRow (getCore s k) r = 0) ∧ (∀ k n, (getSlot (getCore s k) n).st = .free) ∧
  (∀ k n, let c := getCore s k
    Sparse.get 0 c.masks n = 0 ∧ Sparse.get {} c.kpreds n = ⟨0, 0⟩ ∧ Sparse.get 0 c.qps n = 0 ∧ Sparse.get 2 c.tags n = 2 ∧
    (getLc c n).cnt = 0 ∧ (getLc c n).tgt = 0 ∧ (getLc c n).p = false ∧ (getLc c n).a = false ∧ (Sparse.get {} c.sy n).valid = false ∧
    Sparse.get 0 c.pm n = 0 ∧ Sparse.get 0 c.cb n = 0 ∧ Sparse.get 0 c.cruc n = 0 ∧ Memory.read c.spad n = 0 ∧
    Sparse.get 0 c.evcnt n = 0 ∧ Sparse.get 0 c.evsel n = 0) ∧
  (∀ k st, let x := getStream (getCore s k) st
    x.joins = [] ∧ x.loops = [] ∧ x.fetched = [] ∧ x.seq = 0 ∧ x.ring = 0 ∧ x.seed = 0 ∧ x.ended = true) ∧
  (∀ k, let c := getCore s k
    c.fq = [] ∧ c.calls = [] ∧ c.dcc = 0 ∧ c.pid = 0 ∧ c.flagsCE = 0 ∧ c.flagsVE = 0 ∧ c.flagsCP = 0 ∧ c.collision = false ∧
    c.symForce = false ∧ c.inflight = [] ∧ c.jobs = [] ∧ c.runners = [] ∧ c.rwins = [] ∧ c.trace = [] ∧ c.ranges = [] ∧ c.watch = 0 ∧
    c.stop = none) ∧
  (∀ p n, Sparse.get 0 (getPkg s p).meas n = 0) ∧ (∀ p l, (getLink s p l).state = 0 ∧ (getLink s p l).pos = 255)

/-- O9 (log 4). EVERY STEP KEEPS THE CANONICAL FORM of device memory, of the table of cores and of every core's scratchpad, scalar
registers, accumulator rows, masks, count predicates, queue pointers and slots, so that equal contents are equal data. -/
def Obligations.EveryStepKeepsTablesTidy : Prop :=
  ∀ s t : State, tidy s = true → step s = .next t → tidy t = true

-- Scalar arithmetic -------------------------------------------------------------------------------------------------------------------

/-- O10 (R164 to R167). The 24 integer instructions and the ten immediate ones: the 64-bit result, by exact integer arithmetic on the
signed (`z`) and unsigned (`u`) readings of the operands, an immediate read signed (`zi`) or unsigned (`ui`), lands in s[RD] 1, 3 or 12
cycles after issue; nothing else changes, no value faults. An idle command of the control core's map, but for the transfers, SLACK and the
stream-control commands, changes nothing at all, or it faults in a check of its issue (R98, R148). -/
def Obligations.ScalarArithmetic : Prop :=
  ∀ (s : State) (d a b c : SReg) (imm : BitVec 28) (n : BitVec 6),
    (∀ i, idleClass i = true → s.ctx.active = false → exec i s = .next s ∨ ∃ code, exec i s = .next (faults s code 0 [])) ∧
    (s.ctx.active = true →
    let u := fun (r : SReg) => ((rd s r).toNat : Int)
    let z := fun (r : SReg) => (rd s r).toInt
    let sh := (rd s b).toNat % 64
    let gives := fun (i : Instr) (n : Nat) (x : Int) => exec i s = .next (posts s n ccSt (.sreg d (wrap64 x)))
    gives (.add d a b) 1 (u a + u b) ∧ gives (.sub d a b) 1 (u a - u b) ∧ gives (.mul d a b) 3 (u a * u b) ∧
    gives (.mulh d a b) 3 (z a * z b / 2 ^ 64) ∧ gives (.mulhn d a b) 3 (u a * u b / 2 ^ 64) ∧
    gives (.div d a b) 12 (if u b = 0 then -1 else (z a).tdiv (z b)) ∧
    gives (.divn d a b) 12 (if u b = 0 then -1 else u a / u b) ∧
    gives (.rem d a b) 12 (if u b = 0 then u a else z a - z b * (z a).tdiv (z b)) ∧
    gives (.remn d a b) 12 (if u b = 0 then u a else u a - u b * (u a / u b)) ∧
    gives (.shl d a b) 1 (u a * 2 ^ sh) ∧ gives (.shr d a b) 1 (u a / 2 ^ sh) ∧ gives (.sar d a b) 1 (z a / 2 ^ sh) ∧
    gives (.sel d a b c) 1 (if u c ≠ 0 then u a else u b) ∧
    gives (.min d a b) 1 (min (z a) (z b)) ∧ gives (.max d a b) 1 (max (z a) (z b)) ∧
    gives (.minn d a b) 1 (min (u a) (u b)) ∧ gives (.maxn d a b) 1 (max (u a) (u b)) ∧
    gives (.seq d a b) 1 (if u a = u b then 1 else 0) ∧ gives (.sne d a b) 1 (if u a = u b then 0 else 1) ∧
    gives (.slt d a b) 1 (if z a < z b then 1 else 0) ∧ gives (.sltn d a b) 1 (if u a < u b then 1 else 0) ∧
    (∃ v, exec (.and d a b) s = .next (posts s 1 ccSt (.sreg d v)) ∧
      ∀ i, v.getLsbD i = ((rd s a).getLsbD i && (rd s b).getLsbD i)) ∧
    (∃ v, exec (.or d a b) s = .next (posts s 1 ccSt (.sreg d v)) ∧
      ∀ i, v.getLsbD i = ((rd s a).getLsbD i || (rd s b).getLsbD i)) ∧
    (∃ v, exec (.xor d a b) s = .next (posts s 1 ccSt (.sreg d v)) ∧
      ∀ i, v.getLsbD i = ((rd s a).getLsbD i != (rd s b).getLsbD i)) ∧
    let zi := imm.toInt
    let ui := (imm.toNat : Int)
    gives (.addi d a imm) 1 (u a + zi) ∧ gives (.shli d a n) 1 (u a * 2 ^ n.toNat) ∧ gives (.shri d a n) 1 (u a / 2 ^ n.toNat) ∧
    gives (.sari d a n) 1 (z a / 2 ^ n.toNat) ∧ gives (.slti d a imm) 1 (if z a < zi then 1 else 0) ∧
    gives (.lim d a imm) 1 (u a * 2 ^ 28 + ui) ∧ gives (.movi d imm) 1 zi ∧
    (∃ v, exec (.andi d a imm) s = .next (posts s 1 ccSt (.sreg d v)) ∧
      ∀ i, v.getLsbD i = ((rd s a).getLsbD i && imm.getLsbD i)) ∧
    (∃ v, exec (.ori d a imm) s = .next (posts s 1 ccSt (.sreg d v)) ∧
      ∀ i, v.getLsbD i = ((rd s a).getLsbD i || imm.getLsbD i)) ∧
    (∃ v, exec (.xori d a imm) s = .next (posts s 1 ccSt (.sreg d v)) ∧
      ∀ i, v.getLsbD i = ((rd s a).getLsbD i != imm.getLsbD i)))

-- Landings ------------------------------------------------------------------------------------------------------------------------------

/-- O11 (R25, R100, R164, R284). RESULT_LANDING on a core without a pair partner, when nothing that falls due raises a fault or edits
a table of entries, and no local write meets a receive window: every scalar register but s0 holds the last value that landed in it, or
is as it was, and s0 reads zero; rows, masks and scratchpad hold every enabled byte or bit of the last entry that wrote it; count
predicates, queue pointers, slot states, pattern memory and codebooks hold the last value landed; the format queue has the words pushed
behind its own. A flag of an engine is set by every entry that raises it, and no flag is lost, in a cycle in which no SYSWR lands. Device
memory, other cores and the domains are as they were. -/
def Obligations.ResultsLandInTheirDestinations : Prop :=
  ∀ (s : State) (k : Nat) (d : Domain), tidy s = true → findDom s (getCore s k).pid = some d → d.cycling = true →
    liveIn s d k = true → partnerOf d k = none →
    (∀ f ∈ dueNow s k, plainLanding f.eff = true) → (∀ f ∈ dueNow s k, windowHit (getCore s k) f = false) →
    ∃ t, exec (.resultLanding k) s = .next t ∧
      (∀ r, r ≠ 0 → sget (getCore t k) r = lastOr (sget (getCore s k) r) ((dueNow s k).filterMap (fun f => regOf f.eff r))) ∧
      sget (getCore t k) 0 = 0 ∧
      (∀ r, getRow (getCore t k) r = ((dueNow s k).filterMap (fun f => rowOf f.eff r)).foldl (fun a x => mergeRow a x.2 x.1)
        (getRow (getCore s k) r)) ∧
      (∀ a, Memory.read (getCore t k).spad a =
        lastOr (Memory.read (getCore s k).spad a) ((dueNow s k).filterMap (fun f => spadByteOf f.eff a))) ∧
      (∀ m b, (Sparse.get 0 (getCore t k).masks m).getLsbD b =
        lastOr ((Sparse.get 0 (getCore s k).masks m).getLsbD b) ((dueNow s k).filterMap (fun f => maskBitOf f.eff m b))) ∧
      (∀ n, Sparse.get {} (getCore t k).kpreds n =
        lastOr (Sparse.get {} (getCore s k).kpreds n) ((dueNow s k).filterMap (fun f => kpredOf f.eff n))) ∧
      (∀ n, (Sparse.get 0 (getCore t k).qps n).toNat = lastOr (Sparse.get 0 (getCore s k).qps n).toNat
        ((dueNow s k).filterMap (fun f => (qpOf f.eff n).map (fun v => v.toNat % 2 ^ 50 + v.toNat / 2 ^ 63 * 2 ^ 63)))) ∧
      (∀ n, getSlot (getCore t k) n = { getSlot (getCore s k) n with
        st := lastOr (getSlot (getCore s k) n).st ((dueNow s k).filterMap (fun f => slotStOf f.eff n)) }) ∧
      (∀ r, Sparse.get 0 (getCore t k).pm r =
        lastOr (Sparse.get 0 (getCore s k).pm r) ((dueNow s k).filterMap (fun f => pmRowOf f.eff r))) ∧
      (∀ r, Sparse.get 0 (getCore t k).cb r =
        lastOr (Sparse.get 0 (getCore s k).cb r) ((dueNow s k).filterMap (fun f => cbRowOf f.eff r))) ∧
      ((∀ f ∈ dueNow s k, writesSys f.eff = false) → ∀ b, b < 5 →
        ((getCore t k).flagsCE.getLsbD b = true ↔ (getCore s k).flagsCE.getLsbD b = true ∨ ∃ f ∈ dueNow s k, raises f.eff .ce b) ∧
        ((getCore t k).flagsVE.getLsbD b = true ↔ (getCore s k).flagsVE.getLsbD b = true ∨ ∃ f ∈ dueNow s k, raises f.eff .ve b) ∧
        ((getCore t k).flagsCP.getLsbD b = true ↔ (getCore s k).flagsCP.getLsbD b = true ∨ ∃ f ∈ dueNow s k, raises f.eff .cp b)) ∧
      (getCore t k).fq = (getCore s k).fq ++ (dueNow s k).filterMap (fun f => pushOf f.eff) ∧
      (getCore t k).dcc = (getCore s k).dcc ∧ t.mem = s.mem ∧ t.domains = s.domains ∧ (∀ q, q ≠ k → getCore t q = getCore s q)

/-- O12 (R82, R100, R101, R284). In the same landing the collision flag is set when two entries of different commands write one
destination, and is else as it was; each tile's tag is the old one met with the events of the rows that land, a MZERO's or MTRN's
landing taken first. -/
def Obligations.LandingsSetCollisionAndTags : Prop :=
  ∀ (s : State) (k : Nat) (d : Domain), tidy s = true → findDom s (getCore s k).pid = some d → d.cycling = true →
    liveIn s d k = true → partnerOf d k = none →
    (∀ f ∈ dueNow s k, plainLanding f.eff = true) → (∀ f ∈ dueNow s k, windowHit (getCore s k) f = false) →
    (∀ f ∈ dueNow s k, ∀ n v, f.eff ≠ .sysreg n v) →
    ∃ t, exec (.resultLanding k) s = .next t ∧
      ((getCore t k).collision = true ↔ (getCore s k).collision = true ∨
        ∃ i j, ∃ (hi : i < (dueNow s k).length) (hj : j < (dueNow s k).length), i < j ∧
          effMeet ((dueNow s k)[i]'hi).eff ((dueNow s k)[j]'hj).eff = true ∧
          ¬ (((dueNow s k)[i]'hi).stream = ((dueNow s k)[j]'hj).stream ∧ ((dueNow s k)[i]'hi).seq = ((dueNow s k)[j]'hj).seq)) ∧
      (∀ n, n < 16 → tileEvents (dueNow s k) n ≠ [] →
        Sparse.get 2 (getCore t k).tags n = tagAfter (Sparse.get 2 (getCore s k).tags n) (tileEvents (dueNow s k) n)) ∧
      (∀ n, tileEvents (dueNow s k) n = [] → Sparse.get 2 (getCore t k).tags n = Sparse.get 2 (getCore s k).tags n)

-- Scalar memory ---------------------------------------------------------------------------------------------------------------------------

/-- O13 (R168, R175). LDS, STS and PATCH: the address is s[RA] plus the immediate (PATCH: s[RB]), modulo 2^64. An address beyond 2^21,
in block 6 or 7, or no multiple of 8 raises permission; so does an STS into a command ring, a PATCH outside every ring, and either into
an open receive window. Otherwise LDS samples at issue + 7, and the others land their register's eight bytes at issue + 8. The sample takes the
eight bytes as they stand in its cycle and lands in s[RD] one cycle later. -/
def Obligations.ScratchpadWordCommands : Prop :=
  ∀ (s : State) (d a : SReg) (imm : BitVec 28), s.ctx.active = true →
    let A := ((((rd s a).toNat : Int) + imm.toInt) % 2 ^ 64).toNat
    let P := (rd s d).toNat
    let form := fun (x : Nat) => x < 2 ^ 21 ∧ x / 2 ^ 18 % 8 < 6 ∧ x % 8 = 0
    (form A → exec (.lds d a imm) s = .next (posts s 7 ccSt (.lds d A))) ∧
    (¬ form A → exec (.lds d a imm) s = .next (faults s 0x08 0 [])) ∧
    (form A ∧ inRings (cur s) A = false ∧ ¬ shut s A 8 →
      exec (.sts d a imm) s = .next (posts s 8 ccSt (.spad A 8 255 P none))) ∧
    (¬ (form A ∧ inRings (cur s) A = false ∧ ¬ shut s A 8) → exec (.sts d a imm) s = .next (faults s 0x08 0 [])) ∧
    (form P ∧ inRings (cur s) P = true ∧ ¬ shut s P 8 →
      exec (.patch a d) s = .next (posts s 8 ccSt (.spad P 8 255 (rd s a).toNat none))) ∧
    (¬ (form P ∧ inRings (cur s) P = true ∧ ¬ shut s P 8) → exec (.patch a d) s = .next (faults s 0x08 0 [])) ∧
    (∀ (k : Nat) (f : Flight) (r : SReg) (x : Nat), tidy s = true → f.eff = .lds r x → ∃ v : Word,
      sampleLocal s k f = addFlight s k { f with at' := f.at' + 1, eff := .sreg r v } ∧
      ∀ i, i < 8 → ∀ j, j < 8 → v.getLsbD (8 * i + j) = (Memory.read (getCore s k).spad (x + i)).getLsbD j)

/-- O14 (R104, R164, R169, R170, R273, R280). LDM, STM and the atomics AADD, ACAS and ASWP: an address that is no multiple of 8 or has a
bit at or above 57 raises permission; then the access is tested against the watch, and the first matching range decides: none raises
range-miss, a missing permission (r, w, a) permission, a sector that is not resident partial-residency, each with the address, the ASID
with the sector, and the sequence number as DETAIL (of a permission fault that is the model's choice, log 26). Otherwise one 64-byte
request is made, and the read is sampled at issue + 1,279, the write lands at issue + 1,280, the atomic samples at issue + 1,279. A
physical address beyond 39 bits is none, and the model's next step stops: the model's choice too (log 56). -/
def Obligations.DeviceWordCommands : Prop :=
  ∀ (s : State) (d a b c : SReg) (imm : BitVec 28), s.ctx.active = true →
    let A := ((((rd s a).toNat : Int) + imm.toInt) % 2 ^ 64).toNat
    let T := (rd s a).toNat
    let miss := fun (x p : Nat) (code sec : Nat) => code ≠ 0 ∧ x < 2 ^ 57 ∧ x % 8 = 0 ∧ accessOutcome s x [p] = .stops code sec
    let does := fun (i : Instr) (x p kind delay : Nat) (e : Nat → Effect) =>
      (¬ (x < 2 ^ 57 ∧ x % 8 = 0) → exec i s = .next (faults s 0x08 0 [])) ∧
      (∀ code sec, miss x p code sec → exec i s = .next (faults (watched s x 8 kind) code 0 (accessWords s x sec))) ∧
      (∀ key, x < 2 ^ 57 → x % 8 = 0 → accessOutcome s x [p] = .reaches key →
        exec i s = .next (posts (requestNow (watched s x 8 kind) ccSt) delay ccSt (e key))) ∧
      (x < 2 ^ 57 → x % 8 = 0 → accessOutcome s x [p] = .nowhere → exec i s = .next { watched s x 8 kind with dead := true })
    does (.ldm d a imm) A 1 0 1279 (fun key => .memRead key 8 (.reg d)) ∧
    does (.stm d a imm) A 2 1 1280 (fun key => .memWrite key 8 255 (rd s d).toNat none) ∧
    does (.aadd d a b) T 3 2 1279 (fun key => .atom key d (.add (rd s b))) ∧
    does (.acas d a b c) T 3 2 1279 (fun key => .atom key d (.cas (rd s b) (rd s c))) ∧
    does (.aswp d a b) T 3 2 1279 (fun key => .atom key d (.swp (rd s b)))

/-- O15 (R104, R297, R330). A device-memory request costs the core one granule of rate credit and makes one request outstanding; when the
credit is negative, or more than 768 requests are outstanding, it raises a hold with cause 2 on the domain, which names the core and the
station that made it (R109), and else no hold. In each
local clock the credit gains RATE of the region up to 768 granules, and a link's beat credit 11 of 12 parts of its share up to 64 beats.
When the memory side serves a request is a free value (log 7); that a pair's secondary is named by its own core number is the model's choice
(log 78). -/
def Obligations.RequestAndBeatCredit : Prop :=
  ∀ (s : State) (k : Nat) (st : Stream) (station evt : Nat),
    let c := getCore s k
    let t := rateUse s k st station evt
    (getCore t k).credit = c.credit - 2 ^ 24 ∧ (getCore t k).outstanding.length = c.outstanding.length + 1 ∧
    (getCore t k).inflight = c.inflight ∧ t.mem = s.mem ∧ (∀ q, q ≠ k → getCore t q = getCore s q) ∧
    (2 ^ 24 ≤ c.credit → c.outstanding.length < 768 → t.domains = s.domains) ∧
    (∀ d, findDom s c.pid = some d → d.status = .run → c.credit < 2 ^ 24 ∨ 768 ≤ c.outstanding.length →
      ∃ e, findDom t c.pid = some e ∧ e.freeze = some (match d.freeze with | some f => min f (d.dcc + d.h) | none => d.dcc + d.h) ∧
        e.causes.any (fun x => x.code == 2 && x.core == k && x.station == station && !x.cleared) = true ∧ e.dcc = d.dcc ∧ e.status = d.status) ∧
    (tidy s = true → ∀ d, findDom s c.pid = some d →
      (∃ u, exec (.rateCreditRefill k) s = .next u ∧ u.domains = s.domains ∧ u.mem = s.mem ∧ (∀ q, q ≠ k → getCore u q = getCore s q) ∧
        (getCore u k).credit = min (c.credit + ((min (effWord s d.home d.region 2 4 % 2 ^ 32) (2 ^ 24) : Nat) : Int)) (768 * 2 ^ 24) ∧
        (getCore u k).outstanding = c.outstanding.filter (fun x => decide (s.clock < x)) ∧ (getCore u k).dcc = c.dcc) ∧
      (∃ u, exec (.beatCreditRefill k) s = .next u ∧ u.domains = s.domains ∧ u.mem = s.mem ∧ (∀ q, q ≠ k → getCore u q = getCore s q) ∧
        (getCore u k).credit = c.credit ∧ (getCore u k).beatCredit = c.beatCredit.filterMap (fun x =>
          let v := x.2 + ((11 * (effWord s d.home d.region 3 4 / 2 ^ 32 % 2 ^ 16) : Nat) : Int)
          if v < 0 then some (x.1, v) else none)))
-- System commands ---------------------------------------------------------------------------------------------------------------------------

/-- O16 (R95, R182). SYSRD lands the named register's content in s[RD] at issue + 1, SYSWR lands s[RA] in a read-write register at issue +
1; an unassigned number raises illegal-encoding, and a SYSWR of a read-only register permission. That SYS.FETCH_x shows the word after the
last one fetched, those of the present cycle included, is the model's reading (logs 15, 69), and so is that SYS.FQCOUNT does not count the
pops of its own cycle and stays at 16 (log 83). -/
def Obligations.SystemRegisterCommands : Prop :=
  ∀ (s : State) (dm : Domain) (d a : SReg) (n : BitVec 12), s.ctx.active = true → domOf s s.ctx.core = some dm →
    let c := cur s
    let reads := fun (m : Nat) (v : Word) => n.toNat = m → exec (.sysrd d n) s = .next (posts s 1 ccSt (.sreg d v))
    let ring := fun (t : StreamSt) (i : Nat) => toWord (t.ring.toNat % 2 ^ 21 / (ringLen t.ring * 8) * (ringLen t.ring * 8) + 8 * (i % ringLen t.ring))
    let assigned := n.toNat ≤ 3 ∨ (0x10 ≤ n.toNat ∧ n.toNat ≤ 0x17) ∨ (0x20 ≤ n.toNat ∧ n.toNat ≤ 0x23) ∨
      (0x30 ≤ n.toNat ∧ n.toNat ≤ 0x34) ∨ n.toNat = 0x40
    let writable := (0x20 ≤ n.toNat ∧ n.toNat ≤ 0x23) ∨ (0x30 ≤ n.toNat ∧ n.toNat ≤ 0x33)
    reads 0 (toWord (numOf (primaryOf dm s.ctx.core))) ∧
    (partnerOf dm s.ctx.core = none → reads 1 (toWord (dm.span * 2 ^ 28 + dm.pkgs.length * 2 ^ 20 + dm.cores.length))) ∧
    (∀ q, partnerOf dm s.ctx.core = some q → reads 1 (toWord (numOf q * 2 ^ 32 +
      (if primaryOf dm s.ctx.core = s.ctx.core then 1 else 2) * 2 ^ 30 + dm.span * 2 ^ 28 + dm.pkgs.length * 2 ^ 20 + dm.cores.length))) ∧
    reads 2 (toWord c.pid) ∧ reads 3 (toWord dm.asid) ∧
    reads 0x10 c.cc.ring ∧ reads 0x11 c.cp.ring ∧ reads 0x12 c.ve.ring ∧ reads 0x13 c.ce.ring ∧
    reads 0x14 (ring c.cc c.cc.fetchPtr) ∧ reads 0x15 (ring c.cp c.cp.fetchPtr) ∧ reads 0x16 (ring c.ve c.ve.fetchPtr) ∧
    reads 0x17 (ring c.ce c.ce.fetchPtr) ∧
    reads 0x20 c.cc.seed ∧ reads 0x21 c.cp.seed ∧ reads 0x22 c.ve.seed ∧ reads 0x23 c.ce.seed ∧
    reads 0x30 (toWord c.flagsCE.toNat) ∧ reads 0x31 (toWord c.flagsVE.toNat) ∧ reads 0x32 (toWord c.flagsCP.toNat) ∧
    reads 0x33 (toWord ((if c.collision then 1 else 0) + 2 * (if c.symForce then 1 else 0))) ∧ reads 0x34 (toWord (min 16 c.fq.length)) ∧
    (∃ v, reads 0x40 v ∧ ∀ t, t < 16 → v.toNat / 4 ^ t % 4 = (Sparse.get 2 c.tags t).toNat) ∧
    (¬ assigned → exec (.sysrd d n) s = .next (faults s 0x01 0 []) ∧ exec (.syswr a n) s = .next (faults s 0x01 0 [])) ∧
    (assigned ∧ ¬ writable → exec (.syswr a n) s = .next (faults s 0x08 0 [])) ∧
    (writable → exec (.syswr a n) s = .next (posts s 1 ccSt (.sysreg n.toNat (rd s a))))

/-- O17 (R93, R176 to R180, R183, R185). Reads and writes of the counters, pointers and filter of a core: DCCRD lands the DCC of its
issue, LCRD the count, the phase and in bit 63 whether the phases differ, QPRD the queue pointer, each at issue + 1; FQPUSH, LCSET,
QPWR and WATCH act at issue + 1, ARM and MPAT reach the hub at issue + 96. MPAT raises permission unless the mould is built and
owned by the partition. -/
def Obligations.CounterAndPointerCommands : Prop :=
  ∀ (s : State) (d a b : SReg) (lc : BitVec 6) (qp : BitVec 2) (n : BitVec 4), s.ctx.active = true →
    let x := getLc (cur s) lc.toNat
    let head := ((getMould s (pkgOf s.ctx.core) ((rd s a).toNat % 2 ^ 12)).getD 0 0).toNat
    let owned := head / 2 ^ 63 % 2 = 1 ∧ head / 2 ^ 56 % 2 ^ 4 = ownPart s s.ctx.core
    exec (.dccrd d) s = .next (posts s 1 ccSt (.sreg d (toWord (cur s).dcc))) ∧
    (x.p = x.a → exec (.lcrd d lc) s =
      .next (posts s 1 ccSt (.sreg d (toWord (x.cnt.toNat + 2 ^ 40 * (if x.p then 1 else 0)))))) ∧
    (x.p ≠ x.a → exec (.lcrd d lc) s = .next (posts (acquire s s.ctx.core lc.toNat) 1 ccSt
      (.sreg d (toWord (2 ^ 63 + x.cnt.toNat + 2 ^ 40 * (if x.p then 1 else 0)))))) ∧
    exec (.qprd d qp) s = .next (posts s 1 ccSt (.sreg d (Sparse.get 0 (cur s).qps qp.toNat))) ∧
    exec (.fqpush a) s = .next (posts s 1 ccSt (.fqAppend (rd s a))) ∧
    exec (.lcset a lc) s = .next (posts s 1 ccSt (.lcset lc.toNat (BitVec.ofNat 40 (rd s a).toNat))) ∧
    exec (.qpwr a qp) s = .next (posts s 1 ccSt (.qp qp.toNat (rd s a))) ∧
    exec (.watchAdd a) s = .next (posts s 1 ccSt (.watchAdd (rd s a).toNat)) ∧
    exec .watchClr s = .next (posts s 1 ccSt .watchClr) ∧
    exec (.arm d a) s = .next (posts s 96 ccSt (.arm d ((rd s a).toNat % 2 ^ 12))) ∧
    (owned → exec (.mpat a b n) s = .next (posts s 96 ccSt (.mpat ((rd s a).toNat % 2 ^ 12) n.toNat (rd s b)))) ∧
    (¬ owned → exec (.mpat a b n) s = .next (faults s 0x08 0 []))

/-- O18 (R47, R48, R179, R182, R183, R185, R247, R280). What an entry of SYSWR, QPWR, LCSET, WATCH.add or WATCH.clr, and one that raises
flags, does where it is all that falls due: SYSWR writes its register; flags are ORed into their engine's; QPWR writes the pointer but its
reserved bits; LCSET zeroes the count, takes the target, sets A to P and, for a target of 0, flips P; WATCH.add sets the three bits that hash
the address's granule, WATCH.clr clears all. -/
def Obligations.SystemStateLandings : Prop :=
  ∀ (s : State) (k : Nat) (d : Domain) (f : Flight), tidy s = true → findDom s (getCore s k).pid = some d → d.cycling = true →
    liveIn s d k = true → partnerOf d k = none → dueNow s k = [f] →
    ∃ t, exec (.resultLanding k) s = .next t ∧
      let c := getCore s k
      let c' := getCore t k
      (∀ v, f.eff = .sysreg 0x20 v → c'.cc.seed = v ∧ c'.cp = c.cp) ∧ (∀ v, f.eff = .sysreg 0x21 v → c'.cp.seed = v ∧ c'.cc = c.cc) ∧
      (∀ v, f.eff = .sysreg 0x22 v → c'.ve.seed = v ∧ c'.ce = c.ce) ∧ (∀ v, f.eff = .sysreg 0x23 v → c'.ce.seed = v ∧ c'.ve = c.ve) ∧
      (∀ v, f.eff = .sysreg 0x30 v → c'.flagsCE.toNat = v.toNat % 32 ∧ c'.flagsVE = c.flagsVE) ∧
      (∀ v, f.eff = .sysreg 0x31 v → c'.flagsVE.toNat = v.toNat % 32 ∧ c'.flagsCP = c.flagsCP) ∧
      (∀ v, f.eff = .sysreg 0x32 v → c'.flagsCP.toNat = v.toNat % 32 ∧ c'.flagsCE = c.flagsCE) ∧
      (∀ v, f.eff = .sysreg 0x33 v → (c'.collision = true ↔ v.toNat % 2 = 1) ∧ (c'.symForce = true ↔ v.toNat / 2 % 2 = 1)) ∧
      (∀ v, f.eff = .flags .ce v → c'.flagsCE = c.flagsCE ||| BitVec.ofNat 5 v ∧ c'.flagsVE = c.flagsVE ∧ c'.flagsCP = c.flagsCP) ∧
      (∀ v, f.eff = .flags .ve v → c'.flagsVE = c.flagsVE ||| BitVec.ofNat 5 v ∧ c'.flagsCE = c.flagsCE ∧ c'.flagsCP = c.flagsCP) ∧
      (∀ v, f.eff = .flags .cp v → c'.flagsCP = c.flagsCP ||| BitVec.ofNat 5 v ∧ c'.flagsCE = c.flagsCE ∧ c'.flagsVE = c.flagsVE) ∧
      (∀ q v, f.eff = .qp q v → (Sparse.get 0 c'.qps q).toNat = v.toNat % 2 ^ 50 + v.toNat / 2 ^ 63 * 2 ^ 63 ∧
        ∀ p, p ≠ q → Sparse.get 0 c'.qps p = Sparse.get 0 c.qps p) ∧
      (∀ l v, f.eff = .lcset l v → (getLc c' l).cnt = 0 ∧ (getLc c' l).tgt = v ∧ (getLc c' l).a = (getLc c l).p ∧
        ((getLc c' l).p = if v = 0 then !(getLc c l).p else (getLc c l).p) ∧ ∀ m, m ≠ l → getLc c' m = getLc c m) ∧
      (∀ a, f.eff = .watchAdd a →
        let g := a / 2 ^ 8 % 2 ^ 49
        let low := g % 2 ^ 14
        let mid := g / 2 ^ 14 % 2 ^ 14
        let high := g / 2 ^ 28 % 2 ^ 14
        ∀ h, h < 2 ^ 14 → (c'.watch.getLsbD h = true ↔ c.watch.getLsbD h = true ∨ h = low ^^^ high ∨ h = mid ^^^ (g / 2 ^ 42) ∨
          h = (low + mid + high) % 2 ^ 14)) ∧
      (f.eff = .watchClr → c'.watch = 0) ∧ t.mem = s.mem

/-- O19 (R142, R172 to R174). Control transfer: a destination outside the innermost loop's body raises illegal-encoding. BR goes on at
(w + OFF) mod L when taken and at w when not, w being the word after its last word; its path's next command issues 16 cycles on at
the earliest; with JD it pushes the join word and its issue cycle, and a ninth pending join raises illegal-encoding. JMP goes on at the
destination, CALL pushes w besides, RET pops its destination, which must lie in the innermost loop's body too; a ninth entry and an empty
stack raise call-depth. -/
def Obligations.ControlTransferCommands : Prop :=
  ∀ (s : State) (a : SReg) (neg : Bool) (off jd : BitVec 16), s.ctx.stream = .cc → (cur s).pid ≠ 0 →
    let c := cur s
    let L : Int := ringLen c.cc.ring
    let w := s.ctx.next
    let dest := (((w : Int) + off.toInt) % L).toNat
    let after := fun (i : Instr) (p : CoreState → Prop) => ∃ t, exec i s = .next t ∧ p (cur t) ∧ t.mem = s.mem ∧ t.ctx = s.ctx ∧
      (cur t).inflight = c.inflight ∧ (cur t).sregs = c.sregs ∧ t.domains = s.domains
    let same := fun (x : CoreState) => x.cc.loops = c.cc.loops ∧ x.cc.fetched = c.cc.fetched ∧ x.cc.seq = c.cc.seq
    (insideLoop c.cc dest = true → (jd = 0 ∨ c.cc.joins.length < 8) → after (.br a neg off jd) (fun x =>
      x.cc.nextIdx = (if s.ctx.active = true ∧ ((neg = false ∧ rd s a ≠ 0) ∨ (neg = true ∧ rd s a = 0)) then dest else w) ∧
      x.cc.brMin = c.dcc + 16 ∧ x.cc.fetchIdx = x.cc.nextIdx ∧ x.cc.fetchHold = false ∧ x.calls = c.calls ∧ same x ∧
      x.cc.joins = (if jd = 0 then c.cc.joins else
        ((((w : Int) - 1 + jd.toNat) % L).toNat, c.dcc) :: c.cc.joins))) ∧
    (jd ≠ 0 → 8 ≤ c.cc.joins.length → exec (.br a neg off jd) s = .next (faults s 0x01 0 [])) ∧
    (insideLoop c.cc dest = true → after (.jmp off) (fun x => x.cc.nextIdx = dest ∧ x.cc.joins = c.cc.joins ∧ x.calls = c.calls ∧ same x)) ∧
    (insideLoop c.cc dest = true → c.calls.length < 8 → after (.call off) (fun x =>
      x.cc.nextIdx = dest ∧ x.cc.joins = c.cc.joins ∧ x.calls = w :: c.calls ∧ same x)) ∧
    (8 ≤ c.calls.length → exec (.call off) s = .next (faults s 0x14 0 [])) ∧
    (∀ v r, c.calls = v :: r → insideLoop c.cc v = true → after .ret (fun x =>
      x.cc.nextIdx = v ∧ x.cc.joins = c.cc.joins ∧ x.calls = r ∧ same x)) ∧
    (∀ v q, c.calls = v :: q → insideLoop c.cc v = false → exec .ret s = .next (faults s 0x01 0 [])) ∧
    (c.calls = [] → exec .ret s = .next (faults s 0x14 0 [])) ∧
    (insideLoop c.cc dest = false → exec (.jmp off) s = .next (faults s 0x01 0 []) ∧
      (c.calls.length < 8 → exec (.call off) s = .next (faults s 0x01 0 [])) ∧
      exec (.br a neg off jd) s = .next (faults s 0x01 0 []))

/-- O20 (R140 to R144, R174). Stream control: NOP changes nothing; LOOP opens a loop whose pass is 0 and whose stage is 0, unless its
identifier is active or its counts break R142; LEND closes the innermost loop at its last word, going back to the body's first word until
MAX + S - 1 passes are done; MARK sets the stage; JOIN pops the pending join that names its own word and whose elapsed cycles are D, else
it raises join-mismatch; END outside every loop ends the stream. That the body's length is held against the ring's with the field checks
is the model's reading (log 35). -/
def Obligations.StreamControlCommands : Prop :=
  ∀ (s : State) (id stg mk : BitVec 3) (body : BitVec 14) (count mx : BitVec 32) (dj : BitVec 32), (cur s).pid ≠ 0 →
    let t := curStream s
    let after := fun (i : Instr) (p : StreamSt → Prop) => ∃ u, exec i s = .next u ∧ p (curStream u) ∧ u.mem = s.mem ∧ u.ctx = s.ctx ∧
      (cur u).inflight = (cur s).inflight ∧ (cur u).sregs = (cur s).sregs ∧ u.domains = s.domains
    let good := t.loops.any (fun l => l.id == id.toNat) = false ∧ 0 < mx.toNat ∧ count.toNat ≤ mx.toNat ∧ 0 < body.toNat ∧
      body.toNat ≤ ringLen t.ring
    exec .nop s = .next s ∧
    (good → after (.loop id stg body count mx) (fun x => x.loops =
      ⟨id.toNat, count.toNat, mx.toNat, 0, stg.toNat + 1, 0, s.ctx.active, s.ctx.next, body.toNat⟩ :: t.loops ∧ x.nextIdx = t.nextIdx ∧
      x.joins = t.joins)) ∧
    (¬ good → exec (.loop id stg body count mx) s = .next (faults s 0x01 0 [])) ∧
    (∀ l r, t.loops = l :: r → l.id = id.toNat → bodyPos t.ring l s.ctx.idx + commandLen t.ring s = l.body →
      after (.lend id) (fun x =>
        (l.pass + 1 < l.max + l.stages - 1 → x.nextIdx = l.first ∧ x.loops = { l with pass := l.pass + 1, stage := 0 } :: r) ∧
        (¬ l.pass + 1 < l.max + l.stages - 1 → x.nextIdx = t.nextIdx ∧ x.loops = r))) ∧
    ((t.loops = [] ∨ ∃ l r, t.loops = l :: r ∧ (l.id ≠ id.toNat ∨ bodyPos t.ring l s.ctx.idx + commandLen t.ring s ≠ l.body)) →
      exec (.lend id) s = .next (faults s 0x01 0 [])) ∧
    (∀ l r, t.loops = l :: r → mk.toNat < l.stages → after (.mark mk) (fun x => x.loops = { l with stage := mk.toNat } :: r ∧
      x.nextIdx = t.nextIdx)) ∧
    (∀ l r, t.loops = l :: r → l.stages ≤ mk.toNat → exec (.mark mk) s = .next (faults s 0x01 0 [])) ∧
    (t.loops = [] → (mk = 0 → exec (.mark mk) s = .next s) ∧ (mk ≠ 0 → exec (.mark mk) s = .next (faults s 0x01 0 []))) ∧
    (∀ w c r, t.joins = (w, c) :: r → w = s.ctx.idx → (cur s).dcc = c + dj.toNat → after (.join dj) (fun x => x.joins = r ∧
      x.loops = t.loops ∧ x.nextIdx = t.nextIdx)) ∧
    ((∀ w c r, t.joins = (w, c) :: r → w ≠ s.ctx.idx ∨ (cur s).dcc ≠ c + dj.toNat) →
      exec (.join dj) s = .next (faults s 0x0D 0 [])) ∧
    (t.loops = [] → after .endStream (fun x => x.ended = true ∧ x.joins = t.joins)) ∧
    (t.loops ≠ [] → exec .endStream s = .next (faults s 0x01 0 []))

/-- O21 (R103, R105, R112, R180, R184, R186, R287, R291, R348, R349). LCWAIT raises a hold with cause 1 while its counter's phase has not
flipped, and else holds nothing, acquires (the clocks of the writes whose bytes the counter counted are merged into the core's) and puts
an entry into the wait-log ring of the core's die: the issue cycle, cause 1, its event tag, core and counter, no clocks, the agent that
the counter recorded. HALT raises a hold with cause 5 where a session is attached, and else has no effect; SLACK declares the next cycle as a
slack point, an idle one too; an active FENCE with a scope up to 4 takes into the core's clock, entry by entry the larger, the clocks of all
that it has observed of the scope's parties, and lands nothing (that a core observes at its reads, and merges nothing else, is the model's
reading, log 55); TRAP takes the trap fault with its number as DETAIL; idle, all but SLACK change nothing (R98). A hold takes effect H cycles
on; that one raised on a pair's secondary names the secondary's own core number is the model's choice (log 78). -/
def Obligations.WaitsHoldsFencesAndTraps : Prop :=
  ∀ (s : State) (dm : Domain) (lc : BitVec 6) (n : BitVec 16) (scope : BitVec 3), domOf s s.ctx.core = some dm → dm.status = .run →
    let me := s.ctx.core
    let within := fun (p : Party) => match p with
      | .core q => match scope.toNat with
        | 0 => q = me ∨ partnerOf dm me = some q
        | 1 => q ∈ dm.all
        | 2 => q / 1024 = me / 1024 ∧ q % 1024 < 640 ∧ me % 1024 < 640 ∧ q % 1024 / 160 = me % 1024 / 160
        | 3 => q / 1024 = me / 1024
        | _ => True
      | _ => 4 ≤ scope.toNat
    let x := getLc (cur s) lc.toNat
    let holds := fun (i : Instr) (code l : Nat) => ∃ t e, exec i s = .next t ∧ domOf t s.ctx.core = some e ∧
      e.freeze = some (match dm.freeze with | some f => min f (dm.dcc + dm.h) | none => dm.dcc + dm.h) ∧
      e.causes.any (fun c => c.code == code && c.core == s.ctx.core && c.lc == l && !c.cleared) = true ∧ e.dcc = dm.dcc ∧
      e.status = dm.status ∧ t.cores = s.cores ∧ t.mem = s.mem
    (s.ctx.active = true → x.p = x.a → holds (.lcwait lc) 1 lc.toNat) ∧
    (s.ctx.active = true → x.p ≠ x.a → ∃ t, exec (.lcwait lc) s = .next t ∧ t.domains = s.domains ∧ t.cores = s.cores ∧
      (let k := s.ctx.core
       clockOf t (.core k) = ((s.counted.filter (fun y => decide (y.1 = k ∧ y.2.1 = lc.toNat))).map (fun y => y.2.2.clock)).foldl
         (fun v w => List.zipWith max v w) (clockOf s (.core k)) ∧
       (ringBase s k dm.part true (dieOf k) = none → t.mem = s.mem) ∧
       ∀ b, ringBase s k dm.part true (dieOf k) = some b → t.mem = (hubWrite s (ringPut s.mem b
         [toWord (cur s).dcc,
          toWord (1 * 2 ^ 56 + s.ctx.hdr.evt.toNat * 2 ^ 48 + (getPkg s (pkgOf k)).pos * 2 ^ 40 + numOf k * 2 ^ 30 + lc.toNat),
          toWord ((cur s).pid % 2 ^ 24 * 2 ^ 40),
          toWord (x.agent.kind * 2 ^ 60 + x.agent.pkg * 2 ^ 52 + x.agent.core * 2 ^ 42 + x.agent.stream * 2 ^ 40 + x.agent.idx * 2 ^ 32 +
            x.agent.pid % 2 ^ 24)])).mem)) ∧
    (s.ctx.active = true → debugAttached s s.ctx.core = true → holds .halt 5 0) ∧
    (debugAttached s s.ctx.core = false → exec .halt s = .next s) ∧
    exec (.slack n) s = .next (modCur s (fun c => { c with slackPts := c.slackPts ++ [(c.dcc + 1, n.toNat)] })) ∧
    (∀ p, inScope s me scope.toNat p = true ↔ within p) ∧
    (scope.toNat ≤ 4 → s.ctx.active = true → ∃ t, exec (.fence scope) s = .next t ∧
      clockOf t (.core me) = ((s.seen.filter (fun y => decide (y.1 = .core me) && inScope s me scope.toNat y.2.party)).map
        (fun y => y.2.clock)).foldl (fun v w => List.zipWith max v w) (clockOf s (.core me)) ∧
      (∀ p, p ≠ .core me → clockOf t p = clockOf s p) ∧
      t.seen = s.seen.filter (fun y => !(decide (y.1 = .core me) && inScope s me scope.toNat y.2.party)) ∧
      t.cores = s.cores ∧ t.domains = s.domains ∧ t.mem = s.mem) ∧
    (4 < scope.toNat → exec (.fence scope) s = .next (faults s 0x01 0 [])) ∧
    (s.ctx.active = true → exec (.trap n) s = .next (faults s 0x13 0 [toWord n.toNat])) ∧
    (s.ctx.active = false → exec (.lcwait lc) s = .next s ∧ exec .halt s = .next s ∧ exec (.trap n) s = .next s ∧
      (scope.toNat ≤ 4 → exec (.fence scope) s = .next s))

/-- O22 (R70, R187 to R190, R270 to R272, R276). RLOAD and YLOAD sample their image at issue + 7, RSPLIT and RMERGE edit at issue + 1, where their
conditions hold; else they raise permission. RINV reaches every core of the domain at issue + 96, or at issue + 560 in group span. One cycle
after its sample an image is written into its entry: a descriptor that is valid, a range entry with no reserved bit set and its bounds in
order, with COMPAT on where it asks for the compatibility watch, else illegal-encoding; a valid range entry of the pour's ASID inside the
partition's memory that overlaps no other of the table, else permission. A split leaves two entries that share the old one's bytes, a merge one and an
invalid one; a sector is resident where all its bytes were, and watched where some were; both entries' images land in the ASID's list at
issue + 1,280. A merged entry keeps the byte mask of the first (log 81). -/
def Obligations.TableEditCommands : Prop :=
  (∀ (s : State) (a b : SReg) (n : BitVec 6) (y : BitVec 4), s.ctx.active = true →
    let A := (rd s a).toNat
    let image := A < 2 ^ 21 ∧ A / 2 ^ 18 % 8 < 6 ∧ A % 64 = 0
    let e := getRange (cur s) n.toNat
    let valid := fun (x : RangeEntry) => x.ctl.toNat % 2 = 1
    let ms := (rd s b).toNat % 2 ^ 6
    let mm := (rd s a).toNat % 2 ^ 6
    let g := getRange (cur s) mm
    let splits := A % 256 = 0 ∧ e.base.toNat < A ∧ A < e.limit.toNat ∧ ¬ valid (getRange (cur s) ms) ∧ valid e
    let merges := valid e ∧ valid g ∧ g.base = e.limit ∧ e.ctl.toNat / 2 ^ 8 % 2 ^ 12 = g.ctl.toNat / 2 ^ 8 % 2 ^ 12 ∧ e.off = g.off ∧
      e.ctl.toNat / 2 % 2 ^ 6 = g.ctl.toNat / 2 % 2 ^ 6
    (image → exec (.rload a n) s = .next (posts s 7 ccSt (.rloadRead n.toNat A)) ∧
      exec (.yload a y) s = .next (posts s 7 ccSt (.yloadRead y.toNat A))) ∧
    (¬ image → exec (.rload a n) s = .next (faults s 0x08 0 []) ∧ exec (.yload a y) s = .next (faults s 0x08 0 [])) ∧
    (splits → exec (.rsplit a b n) s = .next (posts s 1 ccSt (.rsplit n.toNat ms (rd s a) ((rd s b).toNat / 2 ^ 16 % 2 ^ 12)))) ∧
    (¬ splits → exec (.rsplit a b n) s = .next (faults s 0x08 0 [])) ∧
    (merges → exec (.rmerge a n) s = .next (posts s 1 ccSt (.rmerge n.toNat mm))) ∧
    (¬ merges → exec (.rmerge a n) s = .next (faults s 0x08 0 [])) ∧
    (∀ d, domOf s s.ctx.core = some d → d.status = .run → d.all.Nodup →
      ∃ t, exec (.rinv a) s = .next t ∧ t.mem = s.mem ∧ t.domains = s.domains ∧ (∀ k, k ∉ d.all → getCore t k = getCore s k) ∧
        ∀ k ∈ d.all, getCore t k = { getCore s k with inflight := (getCore s k).inflight ++
          [{ flightOf s (if d.span = 2 then 560 else 96) ccSt (.rinv d.asid A) with at' := (cur s).dcc + (if d.span = 2 then 560 else 96) }] })) ∧
  (∀ e : RangeEntry, entryOf (BitVec.ofNat 512 (entryImage e)) = e) ∧
  (∀ (s : State) (k : Nat) (f : Flight) (n a : Nat), tidy s = true → f.eff = .yloadRead n a ∨ f.eff = .rloadRead n a → ∃ im : BitVec 512,
    sampleLocal s k f = addFlight s k { f with at' := f.at' + 1, eff := if f.eff = .yloadRead n a then .yload n im else .rload n im } ∧
    ∀ i, i < 64 → im.toNat / 256 ^ i % 256 = (Memory.read (getCore s k).spad (a + i)).toNat) ∧
  ∀ (s : State) (k : Nat) (d : Domain) (f : Flight), tidy s = true → findDom s (getCore s k).pid = some d → d.cycling = true →
    liveIn s d k = true → partnerOf d k = none → dueNow s k = [f] → Sparse.wfFrom {} 0 (getCore s k).ranges = true →
    ∃ t, exec (.resultLanding k) s = .next t ∧
      let c := getCore s k
      let c' := getCore t k
      let range := fun (x : CoreState) (n : Nat) => Sparse.get ({} : RangeEntry) x.ranges n
      let asid := asidOfCore s k
      let part := getPart s (pkgOf k) (partOfCore s k)
      let fails := fun (code : Nat) => ∃ x, c'.stop = some x ∧ (c.stop = none → x.code = code)
      let asidOf := fun (e : RangeEntry) => e.ctl.toNat / 2 ^ 8 % 2 ^ 12
      let valid := fun (e : RangeEntry) => e.ctl.toNat % 2 = 1
      let lies := fun (e : RangeEntry) (a : Nat) => e.base.toNat ≤ a ∧ a < e.limit.toNat
      let sectorOf := fun (e : RangeEntry) (a : Nat) => (a - e.base.toNat) / (256 * ((e.limit.toNat - e.base.toNat + 16383) / 16384))
      let sectors := fun (q : RangeEntry) (resident watched : Nat → Prop) => ∀ i, i < 64 →
        (q.res.getLsbD i = true ↔ (∃ a, lies q a ∧ sectorOf q a = i) ∧ ∀ a, lies q a → sectorOf q a = i → resident a) ∧
        (q.wmask.getLsbD i = true ↔ ∃ a, lies q a ∧ sectorOf q a = i ∧ watched a)
      let lists := fun (slot sub : Nat) (e : RangeEntry) => match Sparse.get 0 (getPkg s (pkgOf k)).lists asid with
        | 0 => ([] : List Flight)
        | b + 1 => [{ f with at' := f.issue + 1280, sub := sub, eff :=
                      .memWrite (pkgOf k * 2 ^ 39 + b + 64 * (slot % 4096)) 64 (2 ^ 64 - 1) (entryImage e) none }]
      let others := fun (l : List Nat) => ∀ m, m ∉ l → range c' m = range c m
      (∀ y im, f.eff = .yload y im →
        (symValid im = true → Sparse.get {} c'.sy y = ⟨true, im⟩ ∧ (∀ z, z ≠ y → Sparse.get {} c'.sy z = Sparse.get {} c.sy z) ∧ c'.stop = c.stop) ∧
        (symValid im = false → c'.sy = c.sy ∧ fails 0x01)) ∧
      (∀ n im, f.eff = .rload n im →
        let e := entryOf im
        let bad := 2 ^ 20 ≤ e.ctl.toNat ∨ e.ctl.toNat / 2 ^ 7 % 2 = 1 ∨ 2 ^ 12 ≤ e.lidx.toNat ∨
          (e.ctl.toNat / 2 ^ 5 % 2 = 1 ∧ featOn s k (partOfCore s k) 1 = false) ∨
          (valid e ∧ ¬ (e.base.toNat % 256 = 0 ∧ e.limit.toNat % 256 = 0 ∧ e.off.toNat % 256 = 0 ∧ e.base.toNat < e.limit.toNat ∧ e.limit.toNat ≤ 2 ^ 57))
        let inside := ∀ a, lies e a → ∃ m ∈ part.mem, m.1 ≤ (a + e.off.toNat) % 2 ^ 64 ∧ (a + e.off.toNat) % 2 ^ 64 < m.2
        let below := (e.base.toNat + e.off.toNat) % 2 ^ 64 + (e.limit.toNat - e.base.toNat) ≤ 2 ^ 39
        let clear := ∀ x ∈ c.ranges, x.1 ≠ n → valid x.2 → asidOf x.2 = asid → ¬ (x.2.base.toNat < e.limit.toNat ∧ e.base.toNat < x.2.limit.toNat)
        (bad → c'.ranges = c.ranges ∧ fails 0x01) ∧
        (¬ bad → ¬ valid e → range c' n = {} ∧ others [n] ∧ c'.stop = c.stop) ∧
        (¬ bad → valid e → asidOf e = asid ∧ inside ∧ below ∧ clear → range c' n = e ∧ others [n] ∧ c'.stop = c.stop) ∧
        (¬ bad → valid e → asidOf e ≠ asid ∨ ¬ inside ∨ ¬ below → c'.ranges = c.ranges ∧ fails 0x08) ∧
        (¬ bad → valid e → ¬ clear → c'.ranges = c.ranges ∧ fails 0x08)) ∧
      (∀ n m x slot, f.eff = .rsplit n m x slot → n ≠ m → (range c n).base.toNat < x.toNat → x.toNat < (range c n).limit.toNat → slot < 4096 →
        let e := range c n
        let lo := range c' n
        let hi := range c' m
        let old := fun (w : RangeEntry → Word) (a : Nat) => (w e).getLsbD (sectorOf e a) = true
        lo.base = e.base ∧ lo.limit = x ∧ hi.base = x ∧ hi.limit = e.limit ∧ lo.lidx = e.lidx ∧ hi.lidx.toNat = slot ∧
        (∀ q ∈ [lo, hi], q.off = e.off ∧ q.ctl = e.ctl ∧ q.wbm = e.wbm ∧ sectors q (old (·.res)) (old (·.wmask))) ∧ others [n, m] ∧
        c'.inflight = stays c d.dcc isLocal ++ (lists e.lidx.toNat 0 lo ++ lists slot 1 hi) ∧ c'.stop = c.stop) ∧
      (∀ n m, f.eff = .rmerge n m → n ≠ m → (range c n).base.toNat < (range c n).limit.toNat → (range c m).base = (range c n).limit →
        (range c m).base.toNat < (range c m).limit.toNat →
        let e := range c n
        let g := range c m
        let new := range c' n
        let old := fun (w : RangeEntry → Word) (a : Nat) =>
          if a < e.limit.toNat then (w e).getLsbD (sectorOf e a) = true else (w g).getLsbD (sectorOf g a) = true
        new.base = e.base ∧ new.limit = g.limit ∧ new.off = e.off ∧ new.ctl = e.ctl ∧ new.wbm = e.wbm ∧ new.lidx = e.lidx ∧
        sectors new (old (·.res)) (old (·.wmask)) ∧ range c' m = {} ∧ others [n, m] ∧
        c'.inflight = stays c d.dcc isLocal ++ (lists e.lidx.toNat 0 new ++ lists g.lidx.toNat 1 {}) ∧ c'.stop = c.stop) ∧
      t.mem = s.mem

/-- O23 (R102, R146, R191, R278, R357). On a system core: ERET goes back to the address and level saved at entry, HVCALL saves its next
address and its level, takes its code and enters level 1 (the entry address is a free value, log 9; the entry's form is the model's, log
3). RRES and RRET edit the range at s[RA] of the ASID, RRES the residency map, RRET the offset, in the partition's list and in the table of
every compute core they reach: at once where a core runs no pour; else RRET 96 cycles on in the package and 560 across the group, and RRES in
the core's next cycle (the model's choice, log 3, as is which packages they reach). An ASID of another partition is refused; a clear or a
move that meets a pinned range changes nothing and leaves a record of kind 5 in the partition's fault log. A range is pinned where a core of
a running pour holds it with PIN; that its backing as named by entries in flight counts too is the model's reading (log 22). A move onto
another partition's memory has no effect (R357). -/
def Obligations.SystemCoreCommands : Prop :=
  ∀ (s : State) (a b : SReg) (n : BitVec 16) (asid : BitVec 12), s.ctx.sys = true → (cur s).pid = 0 → tidy s = true →
    let c := cur s
    let k := s.ctx.core
    let pkg := pkgOf k
    let A := (rd s a).toNat
    (∃ t, exec .eret s = .next t ∧ (cur t).cc.nextIdx = c.savedPc ∧ (cur t).level = c.savedLevel ∧ (cur t).sregs = c.sregs ∧
      t.mem = s.mem ∧ t.domains = s.domains) ∧
    (∃ t, exec (.hvcall n) s = .next t ∧ (cur t).savedPc = s.ctx.next ∧ (cur t).savedLevel = c.level ∧ (cur t).level = 1 ∧
      (cur t).hvCode = n ∧ (cur t).cc.nextIdx = (Config.freeWord s.free).toNat ∧ (cur t).sregs = c.sregs ∧ t.mem = s.mem) ∧
    let mine := foreignAsid s pkg (ownPart s k) asid.toNat = false
    let is := fun (e : RangeEntry) => e.ctl.toNat % 2 = 1 ∧ e.ctl.toNat / 2 ^ 8 % 2 ^ 12 = asid.toNat ∧ e.base.toNat = A
    let reached := fun (q : Nat) => q % 1024 < 640 ∧
      (q / 1024 = pkg ∨ (q / 1024 ∈ s.pkgs.map Prod.fst ∧ foreignAsid s (q / 1024) (ownPart s k) asid.toNat = false))
    let edits := fun (i : Instr) (f : RangeEntry → RangeEntry) (word : Nat) (v : Word → Word) (e : Effect) (near far : Nat) =>
      ∃ t, exec i s = .next t ∧ t.domains = s.domains ∧ (∀ q, ¬ reached q → getCore t q = getCore s q) ∧
        (∀ q, reached q → domOf s q = none →
          getCore t q = { getCore s q with ranges := (getCore s q).ranges.map (fun p => (p.1, if is p.2 then f p.2 else p.2)) }) ∧
        (∀ q d, reached q → q ∈ s.cores.map Prod.fst → domOf s q = some d →
          getCore t q = { getCore s q with inflight := (getCore s q).inflight ++
            [{ flightOf s 0 ccSt e with at' := (getCore s q).dcc + (if q / 1024 = pkg then near else far), cmp := false }] }) ∧
        (s.pkgs.map Prod.fst = [pkg] → (getPkg s pkg).compactions = [] →
          (findSlot s pkg asid.toNat A = none → t.mem = s.mem) ∧
          ∀ i key, findSlot s pkg asid.toNat A = some i → listSlot s pkg asid.toNat i = some key →
            Memory.word t.mem (key + 8 * word) = v (Memory.word s.mem (key + 8 * word)) ∧
            ∀ x, x < key + 8 * word ∨ key + 8 * word + 8 ≤ x → Memory.read t.mem x = Memory.read s.mem x)
    let part := match (getPkg s pkg).parts.find? (fun p => p.2.asids.contains asid.toNat) with | some p => p.1 | none => 0
    let refused := fun (i : Instr) => exec i s = .next (faultLog s pkg part (getPart s pkg part).root
      (logRecord s 5 0 pkg 0 0 0 0 [toWord A, toWord asid.toNat]))
    (¬ mine → exec (.rres a b asid) s = .next s ∧ exec (.rresClear a b asid) s = .next s ∧ exec (.rret a b asid) s = .next s) ∧
    (mine → (s.pkgs.map Prod.fst).Nodup → edits (.rres a b asid) (fun e => { e with res := e.res ||| rd s b }) 4 (fun w => w ||| rd s b)
      (.rres asid.toNat A (rd s b) false) 0 0) ∧
    let abroad := ∃ q ∈ reachedPkgs s asid.toNat, ∃ e ∈ rangeBackings s q asid.toNat A,
      foreignRun s q (ownPart s k) ((A + (rd s b).toNat) % 2 ^ 64) (e.limit.toNat - e.base.toNat) = true
    (mine → abroad → exec (.rret a b asid) s = .next s) ∧
    (mine → (s.pkgs.map Prod.fst).Nodup → pinnedThere s asid.toNat A = false →
      edits (.rresClear a b asid) (fun e => { e with res := e.res &&& ~~~(rd s b) }) 4 (fun w => w &&& ~~~(rd s b))
        (.rres asid.toNat A (rd s b) true) 0 0) ∧
    (mine → ¬ abroad → (s.pkgs.map Prod.fst).Nodup → pinnedThere s asid.toNat A = false →
      edits (.rret a b asid) (fun e => { e with off := rd s b }) 2 (fun _ => rd s b) (.rret asid.toNat A (rd s b)) 96 560) ∧
    (mine → pinnedThere s asid.toNat A = true → refused (.rresClear a b asid) ∧ (¬ abroad → refused (.rret a b asid))) ∧
    (∀ q p, q ∈ s.cores.map Prod.fst → q % 1024 < 640 → q / 1024 = pkg → (domOf s q).isSome = true → p ∈ (getCore s q).ranges → is p.2 →
      p.2.ctl.toNat / 2 ^ 6 % 2 = 1 → pinnedThere s asid.toNat A = true)

/-- O24 (R105, R107, R147, R313, R317, R320). Taking a fault, on a core that no fault has stopped: the core stops at its present cycle
with the code, the stream and the DETAIL recorded, and so does its pair partner; the domain takes a hold with cause 6, F being the
earlier of H cycles on and an effect announced already; a stopping fault also dooms the pour, a range-miss or partial-residency met
for the first time does not. On a core that a deferred fault of an earlier cycle has stopped, a stopping fault takes that fault's place (R313),
and any other leaves it. Nothing else of either core changes, no memory and no other core, and the command is marked as faulted. -/
def Obligations.TakingAFault : Prop :=
  ∀ (s : State) (d : Domain) (code cause : Nat) (detail : List Word), domOf s s.ctx.core = some d → d.status = .run →
    partnerOf d s.ctx.core ≠ some s.ctx.core → 0 < code →
    let k := s.ctx.core
    let t := faults s code cause detail
    let deferred := code = 0x07 ∨ code = 0x09
    (∀ p, (cur s).stop = some p → p.cycle < d.dcc → 0 < p.code → ∃ x, (getCore t k).stop = some x ∧ x.cycle = p.cycle ∧
      ((p.code = 0x07 ∨ p.code = 0x09) ∧ ¬ deferred → x.code = code ∧ x.stream = s.ctx.stream ∧ x.detail = detail) ∧
      (¬ ((p.code = 0x07 ∨ p.code = 0x09) ∧ ¬ deferred) → x = p)) ∧
    ((cur s).stop = none →
    t.ctx = { s.ctx with faulted := true } ∧ t.mem = s.mem ∧ t.pkgs = s.pkgs ∧
    (∃ x, (getCore t k).stop = some x ∧ x.cycle = (cur s).dcc ∧ x.code = code ∧ x.stream = s.ctx.stream ∧ x.detail = detail ∧
      x.codes = (List.replicate 4 0).set (Stream.code s.ctx.stream) code) ∧
    (getCore t k).inflight = (cur s).inflight ∧ (getCore t k).sregs = (cur s).sregs ∧ (getCore t k).spad = (cur s).spad ∧
    (getCore t k).dcc = (cur s).dcc ∧ (getCore t k).fq = (cur s).fq ∧ (getCore t k).rows = (cur s).rows ∧
    (∀ q, partnerOf d k = some q → ∃ x, (getCore t q).stop = some x ∧ ((getCore s q).stop = none → x.cycle = (getCore s q).dcc) ∧
      (getCore t q).inflight = (getCore s q).inflight) ∧
    (∀ q, q ≠ k → partnerOf d k ≠ some q → getCore t q = getCore s q) ∧
    (∃ e, findDom t d.pid = some e ∧ e.dcc = d.dcc ∧ e.status = .run ∧
      e.freeze = some (match d.freeze with | some f => min f (d.dcc + d.h) | none => d.dcc + d.h) ∧
      e.causes.any (fun c => c.code == 6 && c.core == k && !c.cleared) = true ∧
      (¬ deferred → e.doomed = true) ∧
      (deferred → (cur s).repaired.contains (Stream.code s.ctx.stream, (detail.getD 2 0).toNat, 0, (detail.getD 0 0).toNat) = false → e.doomed = d.doomed)) ∧
    (∀ p, p ≠ d.pid → findDom t p = findDom s p))

-- The copy engine ---------------------------------------------------------------------------------------------------------------------------

/-- O25 (R122, R193 to R198, R215). The strided moves CPLD, CPST, CPMOV and CPSET and the cast streams CPLD.cb and CPDEC at their issue: the
group s[SC] gives the length, the counts and the strides; lengths, counts or strides out of their limits raise illegal-encoding, then an
address that is not aligned, a run that leaves its block or meets an open receive window permission, then, in an active command, the
request of its first granule its own fault, after its watch test (a permission fault's DETAIL words are the model's choice, log 26, and
that an address at or above 2^57 raises permission is its reading, log 66); else the
command is in progress and nothing else changes. That a strided operand's whole span lies in one block is the model's reading (log 27), and
so is that a granule is the element of scratchpad operands (log 66). -/
def Obligations.CopyMovesStart : Prop :=
  ∀ (s : State) (o : MoveOps) (sa sb sc : SReg) (run : Run),
    let reg := fun (i : Nat) => (sget (cur s) (o.sc + BitVec.ofNat 6 i)).toNat
    let sreg := fun (i : Nat) => (sget (cur s) (o.sc + BitVec.ofNat 6 i)).toInt
    let two := 2 ≤ o.dim.toNat
    let three := 3 ≤ o.dim.toNat
    let m : MoveShape :=
      { src := (rd s o.sa).toNat, dst := (rd s o.sb).toNat, len := reg 0
        n1 := if two then reg 1 else 1, ss1 := if two then sreg 2 else 0, ds1 := if two then sreg 3 else 0
        n2 := if three then reg 4 else 1, ss2 := if three then sreg 5 else 0, ds2 := if three then sreg 6 else 0 }
    let count := m.len / 64 * m.n1 * m.n2
    let sizes := m.len % 64 = 0 ∧ 64 ≤ m.len ∧ m.len ≤ 2 ^ 24 ∧ 1 ≤ m.n1 ∧ m.n1 ≤ 2 ^ 24 ∧ 1 ≤ m.n2 ∧ m.n2 ≤ 2 ^ 24 ∧ count ≤ 2 ^ 24 ∧
      m.ds1 % 64 = 0 ∧ m.ds2 % 64 = 0
    let strides := m.ss1 % 64 = 0 ∧ m.ss2 % 64 = 0
    let run1 := fun (base : Nat) (s1 s2 : Int) => base % 64 = 0 ∧
      inBlock (base + min 0 (((m.n1 : Int) - 1) * s1) + min 0 (((m.n2 : Int) - 1) * s2))
        (base + max 0 (((m.n1 : Int) - 1) * s1) + max 0 (((m.n2 : Int) - 1) * s2) + m.len)
    let open' := ∀ a b c, a < m.len / 64 → b < m.n1 → c < m.n2 →
      ¬ shut s ((m.dst : Int) + 64 * a + b * m.ds1 + c * m.ds2).toNat 64
    let lc := o.lc.map BitVec.toNat
    let r := o.run.toNat
    issuesTo s (.cpld o) [(sizes ∧ strides, 0x01), (m.src % 64 = 0 ∧ run1 m.dst m.ds1 m.ds2 ∧ open', 0x08)]
      (requestOutcome s m.src 64 64 3 [1]) (begins s (progress s (.cpld m) cpiSt r (count + 1290) lc)) ∧
    issuesTo s (.cpst o) [(sizes ∧ strides, 0x01), (m.dst % 64 = 0 ∧ run1 m.src m.ss1 m.ss2, 0x08)]
      (requestOutcome s m.dst 64 64 4 [2]) (begins s (progress s (.cpst m) cpoSt r (count + 1290) lc)) ∧
    issuesTo s (.cpmov o) [(sizes ∧ strides, 0x01), (run1 m.src m.ss1 m.ss2 ∧ run1 m.dst m.ds1 m.ds2 ∧ open', 0x08)]
      none (begins s (progress s (.cpmov m) cpoSt r (count + 30) lc)) ∧
    issuesTo s (.cpset o false) [(sizes, 0x01), (run1 m.dst m.ds1 m.ds2 ∧ open', 0x08)]
      none (begins s (progress s (.cpset m (rd s o.sa) false) cpoSt r (count + 1290) lc)) ∧
    issuesTo s (.cpset o true) [(sizes, 0x01), (m.dst % 64 = 0, 0x08)]
      (requestOutcome s m.dst 64 64 4 [2]) (begins s (progress s (.cpset m (rd s o.sa) true) cpoSt r (count + 1290) lc)) ∧
    let cast := fun (E B : Nat) => E % 256 = 0 ∧ B % 64 = 0 ∧ B ≤ 264 * E / 256
    let whole := fun (a n : Nat) => a % 64 = 0 ∧ inRun a n ∧ ¬ shut s a n
    issuesTo s (.cpldCb o) [(cast (reg 0) (reg 1), 0x01), (m.src % 64 = 0 ∧ whole m.dst (reg 0), 0x08)]
      (if reg 1 = 0 then none else requestOutcome s m.src 64 64 3 [1, 4])
      (begins s (progress s (.cast m.src m.dst (reg 0) (reg 1) true) cpiSt r (1330 + 5 * (reg 0 / 256)) lc)) ∧
    let E := (rd s sc).toNat
    let B := (sget (cur s) (sc + 1)).toNat
    issuesTo s (.cpdec sa sb sc run)
      [(cast E B, 0x01), ((rd s sa).toNat % 64 = 0 ∧ inRun (rd s sa).toNat B ∧ whole (rd s sb).toNat E, 0x08)]
      none (begins s (progress s (.cast (rd s sa).toNat (rd s sb).toNat E B false) cpoSt run.toNat (62 + 5 * (E / 256)) none))

/-- O26 (R70, R91, R193, R199 to R201). Gathers and scatters at their issue: the index list's length lies in 1 to 2^20, its run and that of
the packed operand inside a block, each aligned; the other operand is aligned. With ORB the entry is valid, of the command's type. A scatter
into scratchpad, through an entry or not, meets no open receive window: that its elements are tested at issue, by the index list as it then
stands, is the model's choice (log 19). That a base at or above 2^57 raises permission is the model's reading (log 66). -/
def Obligations.GathersAndScattersStart : Prop :=
  ∀ (s : State) (o : IndexOps) (comb : Bool),
    let idx := (rd s o.sc).toNat
    let n := (sget (cur s) (o.sc + 1)).toNat
    let z := Ty.size o.ty
    let src := (rd s o.sa).toNat
    let dst := (rd s o.sb).toNat
    let lc := o.lc.map BitVec.toNat
    let r := o.run.toNat
    let len := 1 ≤ n ∧ n ≤ 2 ^ 20
    let list := idx % 8 = 0 ∧ inBlock idx (idx + 8 * n)
    let packed := fun (a : Nat) => a % z = 0 ∧ inBlock a (a + n * z)
    let table := fun (a : Nat) => if o.mem = true then a < 2 ^ 57 ∧ a % z = 0 else a % z = 0 ∧ inBlock a (a + z)
    (o.sy = none →
      issuesTo s (.cpgth o) [(len, 0x01), (list ∧ packed dst ∧ ¬ shut s dst (n * z) ∧ table src, 0x08)] none
        (begins s (progress s (.gather src dst idx n o.ty o.mem) (if o.mem then cpiSt else cpoSt) r (n + 1340) lc)) ∧
      issuesTo s (.cpsct o comb) [(len ∧ ¬ (comb = true ∧ o.ty = .nf), 0x01), (list ∧ packed src ∧ table dst, 0x08),
        (o.mem = true ∨ ∀ q, q < n → ¬ shut s ((dst + Memory.readNat (cur s).spad (idx + 8 * q) 8 * z) % 2 ^ 64) z, 0x08)] none
        (begins s (progress s (.scatter src dst idx n o.ty o.mem comb) cpoSt r (n + 1340) lc))) ∧
    (∀ y, o.sy = some y →
      let e := getSy (cur s) y.toNat
      let d := e.desc
      (¬ (len ∧ e.valid = true) → exec (.cpgth o) s = .next (faults s 0x01 0 []) ∧ exec (.cpsct o comb) s = .next (faults s 0x01 0 [])) ∧
      (len → e.valid = true → symTy d ≠ o.ty →
        let det := symDetail y.toNat 0 s.ctx.seq ⟨0x0B, 3, 0, [], none⟩
        exec (.cpgth o) s = .next (faults s 0x0B 0 det) ∧ exec (.cpsct o comb) s = .next (faults s 0x0B 0 det)) ∧
      (len → e.valid = true → symTy d = o.ty →
        issuesTo s (.cpgth o) [(list ∧ packed dst ∧ ¬ shut s dst (n * z), 0x08)] none
          (begins s (progress s (.gatherSy y.toNat dst idx n d) cpiSt r (n + 1340) lc)) ∧
        issuesTo s (.cpsct o comb) [(list ∧ packed src, 0x08), (scatterClear s d idx n z = true, 0x08)] none
          (begins s (progress s (.scatterSy y.toNat src idx n d comb) cpoSt r (2 * n + 1360) lc))))

/-- O27 (R193, R202 to R205). CPFILL, CPPAT, CPCBK and CPVQ at their issue: the shape first, then the addresses, then the span to the
contraction engine, then for CPFILL and CPVQ the slot, which must be CLAIMED; a .mem fill makes all its requests at issue, each after its
watch test. That the rows' whole span lies in one block (log 27), that a fill that does not name its slot's state last (log 29), a
permission fault's DETAIL words (log 26), the order of a CPFILL's address, span and slot (log 97), and permission for an address at or above
2^57 (log 66) are the model's choices. -/
def Obligations.FillsStart : Prop :=
  ∀ (s : State) (sa sb : SReg) (slot : BitVec 5) (pm : BitVec 3) (k : BitVec 2) (run : Run) (ty : Ty) (mem : Bool) (rows : BitVec 6)
    (sp : Bool),
    let g := (rd s sb).toNat
    let src := (rd s sa).toNat
    let R := g % 32 + 1
    let C := g / 32 % 64 + 1
    let z := Ty.size ty
    let stride : Int := (BitVec.ofNat 32 (g / 2 ^ 32)).toInt
    let spans : Prop := if run.toNat < 4 then (2 + 12 - (2 * (src / 2 ^ 18) + 1)) % 12 ≤ 7 else (2 * (src / 2 ^ 18) + 1 + 12 - 2) % 12 ≤ 7
    let inSpad := fun (r bytes align : Nat) => src % align = 0 ∧ (r = 1 ∨ stride % align = 0) ∧
      inBlock (src + min 0 (((r : Int) - 1) * stride)) (src + max 0 (((r : Int) - 1) * stride) + bytes)
    let side := fun (r bytes align : Nat) => if mem = true then [(src % 64 = 0 ∧ stride % 64 = 0 ∧ src < 2 ^ 57, 0x08)]
      else [(inSpad r bytes align, 0x08), (spans, 0x01)]
    let asks := fun (r bytes : Nat) => if mem = true then firstFailure s 3 [1] ((List.range r).flatMap (fun i =>
      (List.range ((bytes + 63) / 64)).map (fun q => (((src : Int) + i * stride + 64 * q) % 2 ^ 64).toNat))) else none
    let starts := fun (kind num r c size : Nat) (t : Ty) => begins s (progress s (.fill kind num src stride r c size t mem)
      (if mem then cpiSt else cpoSt) run.toNat (if mem then 1300 else 60) none)
    issuesTo s (.cpfill sa sb slot run ty mem)
      ((ty ≠ .b1 ∧ C * z ≤ 128 ∧ R * (C * z) ≤ 2048, 0x01) :: side R (C * z) z ++ [((getSlot (cur s) slot.toNat).st = .claimed, 0x03)])
      (asks R (C * z)) (starts 0 slot.toNat R C z ty) ∧
    issuesTo s (.cppat sa sb pm run mem) (side 8 128 1) (asks 8 128) (starts 1 pm.toNat 8 128 1 .n8) ∧
    issuesTo s (.cpcbk sa sb k run mem) (side 16 128 1) (asks 16 128) (starts 2 k.toNat 16 128 1 .n8) ∧
    let dst := (rd s sb).toNat
    let n := if sp = true then rows.toNat + 1 else 32
    issuesTo s (.cpvq sa sb slot run ty rows sp k)
      [(ty = .f16 ∨ ty = .bf16, 0x01),
       (inBlock src (src + if sp = true then 16 * n else 256) ∧
        (sp = true → dst % 2 = 0 ∧ inBlock dst (dst + 128 * n) ∧ ¬ shut s dst (128 * n)), 0x08),
       (sp = true ∨ (getSlot (cur s) slot.toNat).st = .claimed, 0x03)]
      none (begins s (progress s (.vq slot.toNat src dst n ty sp k.toNat) cpoSt run.toNat 110 none))

/-- O28 (R70, R74, R91, R206 to R208). CPEXP and CPFLD at their issue: an entry that is not valid and a tile that does not fit raise
illegal-encoding, then another type symmetry-claim, then a tile that leaves the extents permission; then CPEXP checks its destination or
its slot, CPFLD, for an entry in scratchpad, every representative it will write. A permission fault's DETAIL words, of CPEXP's first
element in device memory, are the model's choice (log 26). So are permission for an address at or above 2^57 (log 66), the test of the
fold's slots against receive windows and the whole span of a destination in one block (logs 19, 27). -/
def Obligations.ExpansionsAndFoldsStart : Prop :=
  ∀ (s : State) (sa sb : SReg) (slot : BitVec 5) (tile y : BitVec 4) (run : Run) (ty : Ty) (rdim cdim : BitVec 3) (sp : Bool),
    let e := getSy (cur s) y.toNat
    let d := e.desc
    let g := (rd s sa).toNat
    let R := g / 2 ^ 16 % 32 + 1
    let C := g / 2 ^ 21 % 64 + 1
    let row0 := g % 2 ^ 16
    let col0 := g / 2 ^ 32 % 2 ^ 16
    let fcol := (rd s sb).toNat % 2 ^ 16
    let z := Ty.size ty
    let tup := otherIndices s sa (symRank d) rdim.toNat cdim.toNat
    let fit := e.valid = true ∧ rdim ≠ cdim ∧ rdim.toNat < symRank d ∧ cdim.toNat < symRank d ∧ C * z ≤ 128 ∧ R * (C * z) ≤ 2048
    let lies := fun (c0 : Nat) => inExtents d ((tup.set rdim.toNat (row0 + R - 1)).set cdim.toNat (c0 + C - 1)) = true
    let det := symDetail y.toNat 0 s.ctx.seq ⟨0x0B, 3, 0, [], none⟩
    let i := Instr.cpexp sa sb slot y run ty rdim cdim sp
    let j := Instr.cpfld sa sb tile y run ty rdim cdim
    (¬ fit → exec i s = .next (faults s 0x01 0 []) ∧ exec j s = .next (faults s 0x01 0 [])) ∧
    (fit → symTy d ≠ ty → exec i s = .next (faults s 0x0B 0 det) ∧ exec j s = .next (faults s 0x0B 0 det)) ∧
    (fit → symTy d = ty →
      (¬ lies col0 → exec i s = .next (faults s 0x08 0 [])) ∧ (¬ lies fcol → exec j s = .next (faults s 0x08 0 [])) ∧
      (lies col0 →
        let first := (tup.set rdim.toNat row0).set cdim.toNat col0
        let dst := (rd s sb).toNat
        issuesTo s i
          [(sp = true → dst % z = 0 ∧ inBlock dst (dst + 128 * (R - 1) + C * z) ∧ ∀ q, q < R → ¬ shut s (dst + 128 * q) (C * z), 0x08),
           (sp = true ∨ (getSlot (cur s) slot.toNat).st = .claimed, 0x03)]
          (if symSpad d = true ∨ (canon d first).2.2.1 = true then none else requestOutcome s (slotAddr d (canon d first).1) z z 3 [1])
          (begins s (progress s (.expand slot.toNat y.toNat 0 dst R C first rdim.toNat cdim.toNat d sp) cpiSt run.toNat
            ((if symSpad d then 24 else 1290) + R * C + 40) none))) ∧
      (lies fcol →
        let ranks := foldRanks s sa sb y rdim.toNat cdim.toNat
        (symSpad d = true ∧ ¬ (∀ q ∈ ranks, slotAddr d q % z = 0 ∧ inBlock (slotAddr d q) (slotAddr d q + z) ∧ ¬ shut s (slotAddr d q) z) →
          exec j s = .next (faults s 0x08 0 [])) ∧
        (¬ (symSpad d = true ∧ ¬ (∀ q ∈ ranks, slotAddr d q % z = 0 ∧ inBlock (slotAddr d q) (slotAddr d q + z) ∧ ¬ shut s (slotAddr d q) z)) →
          ∃ t, exec j s = .next t ∧
            t = modCur (begins s (progress s (.fold tile.toNat y.toNat R C row0 fcol tup rdim.toNat cdim.toNat d
              (Sparse.get 2 (cur s).tags tile.toNat)) cpoSt run.toNat (R + 1320 + ranks.length) none))
              (fun c => { c with jobs := c.jobs.map (fun x => if x.stream = .cp ∧ x.seq = s.ctx.seq then { x with nums := ranks } else x) }))))

/-- O29 (R104, R193, R209 to R211). The sum-cell commands at their issue: a GRID outside -149 to 319 (CPCINI) and a count outside 1 to 65,536
(CPATOM) raise illegal-encoding; a cell address that is no multiple of 64 or lies at or above 2^57 and a misplaced operand permission;
then the watch test, and the lookup for a decides (a permission fault's DETAIL words are the model's choice, log 26; so is permission
above 2^57, log 66; a physical address beyond 39 bits stops the model, log 56). CPCINI reaches its cell 1,280 cycles after issue, CPCRD samples it at 1,279. -/
def Obligations.SumCellCommandsStart : Prop :=
  ∀ (s : State) (sa sb sc : SReg) (ty : Ty) (run : Run) (per raw : Bool),
    let cell := (rd s sb).toNat
    let form := cell % 64 = 0 ∧ cell < 2 ^ 57
    let ask := requestOutcome s cell 64 64 6 [3]
    let grid := (rd s sc).toInt
    let n := (rd s sc).toNat
    let src := (rd s sa).toNat
    let z := Ty.size ty
    let reach := fun (t : State) (station : Nat) (f : Nat → State → State) => if s.ctx.active = true then
      (match accessOutcome s cell [3] with
       | .reaches key => f key (requestNow (watched t cell 64 6) station)
       | _ => { watched t cell 64 6 with dead := true }) else t
    issuesTo s (.cpcini sb sc) [(-149 ≤ grid ∧ grid ≤ 319, 0x01), (form, 0x08)] ask
      (reach s cpoSt (fun key t => posts t 1280 cpoSt (.cellInit key grid))) ∧
    issuesTo s (.cpatom sa sb sc ty run per)
      [(1 ≤ n ∧ n ≤ 65536, 0x01), (src % z = 0 ∧ inBlock src (src + n * z) ∧ form, 0x08)] ask
      (begins s (progress s (.cpatom src cell n ty per) cpoSt run.toNat (n + 20) none)) ∧
    let b := begins s (progress s (.cpcrd src cell ty raw) cpiSt run.toNat 1300 none)
    issuesTo s (.cpcrd sa sb ty run raw)
      [((if raw = true then src % 64 = 0 ∧ inBlock src (src + 80) ∧ ¬ shut s src 80 else src % 16 = 0 ∧ inBlock src (src + 16) ∧ ¬ shut s src 16) ∧
        form, 0x08)] ask
      (reach b cpiSt (fun key t => posts t 1279 cpiSt (.cellRead key ty raw src run.toNat)))

/-- O30 (R115, R116, R193, R212, R214 to R217). Windows and timed exchange at their issue. CPPUT and CPGET put one transfer in transit,
whose issuer is the core's pour, none for a length of 0; a pair's secondary puts none. CPXSND reaches the receiving core's exchange port L
cycles after issue, L being 48 on one die, 96 in one package, 560 between packages. CPXRCV and CPXRED open a window in the next cycle.
Sends, puts and gets leave a header, on which a pair's cores are compared. The alignments of the windows' scratchpad runs (64) and of the
beats' (8) are the model's choice (log 66), and so is the place of the sequence number in the DETAIL words of a window that closes in its own
issue cycle (log 25). Which agent a transfer names is log 47, and that it goes by its window as registered now is
log 85. -/
def Obligations.WindowAndExchangeCommandsStart : Prop :=
  ∀ (s : State) (sa sb sc : SReg) (lc : BitVec 6) (win : BitVec 8) (run : Run) (ty : Ty) (snd : BitVec 4) (d : Domain),
    domOf s s.ctx.core = some d →
    let k := s.ctx.core
    let a := (rd s sa).toNat
    let b := (rd s sb).toNat
    let n := (rd s sc).toNat
    let w := Sparse.get [] (getPkg s (pkgOf k)).windows (ownPart s k * 256 + win.toNat)
    let holds := (w.getD 2 0).toNat / 2 ^ 63 % 2 = 1 ∧ b % 64 = 0 ∧ b + n ≤ (w.getD 1 0).toNat % 2 ^ 40
    let len := n % 64 = 0 ∧ n ≤ 2 ^ 24
    let leaves := fun (station : Nat) (words : List Nat) => if s.ctx.active = true then modCur s (fun c => { c with leaving :=
      c.leaving ++ [{ flightOf s 0 station (.header words) with cmp := false }] }) else s
    let x : Bool → Xfer := fun get =>
      { id := s.nextId, get := get, cast := false, pkg := pkgOf k, part := ownPart s k, win := win.toNat, core := k, stream := s.ctx.stream
        pid := (cur s).pid, region := d.region, asid := d.asid, mouldNo := d.mouldNo, lc := lc.toNat, spad := a, off := b, len := n
        start := s.clock, record := w }
    let first := s.ctx.active = true ∧ primaryOf d k = k
    let sends : State → Bool → State := fun t get => if first ∧ n ≠ 0 then { t with xfers := t.xfers ++ [x get], nextId := s.nextId + 1 } else t
    let put := sends (leaves cpoSt [1, win.toNat, b, n]) false
    issuesTo s (.cpput sa sb sc lc win run) [(len, 0x01), (holds ∧ a % 64 = 0 ∧ inRun a n, 0x08)] none
      (modCur (begins put (progress put (.put a b n win.toNat lc.toNat) cpoSt run.toNat (n / 64 + 20) none))
        (fun c => { c with jobs := c.jobs.map (fun j => if j.stream = .cp ∧ j.seq = s.ctx.seq then
          { j with nums := if first then [s.nextId] else [] } else j) })) ∧
    issuesTo s (.cpget sa sb sc lc win) [(len, 0x01), (holds ∧ a % 64 = 0 ∧ inRun a n, 0x08)] none (sends (leaves cpiSt [2, win.toNat, b, n]) true) ∧
    let raddr := b / 2 ^ 32 % 2 ^ 21
    let rrun := b / 2 ^ 56 % 8
    let r := d.cores.getD (b % 2 ^ 17) 0
    let L := if pkgOf k ≠ pkgOf r then 560 else if dieOf k ≠ dieOf r then 96 else 48
    let t0 := leaves cpoSt [3, r, raddr, rrun, n]
    let t := begins t0 (progress t0 (.send a r raddr rrun (n / 128)) cpoSt run.toNat (n / 128 + 40) none)
    let t1 := remotePlan t r raddr rrun L (n / 128)
    issuesTo s (.cpxsnd sa sb sc run) [(n % 128 = 0 ∧ 128 ≤ n ∧ n ≤ 2 ^ 20, 0x01),
        (a % 8 = 0 ∧ inRun a n ∧ b % 2 ^ 17 < d.cores.length ∧ raddr % 8 = 0 ∧ inRun raddr n, 0x08)] none
      (if primaryOf d k = k then (match partnerOf d r with | some q => remotePlan t1 q raddr rrun L (n / 128) | none => t1) else t) ∧
    let now := (cur s).dcc
    let live := (cur s).rwins.filter (fun w => decide (now + 1 ≤ w.closes))
    let room := live.length < 16 ∧ ∀ w ∈ live, ¬ (a < w.addr + w.len ∧ w.addr < a + b ∧ 0 < w.len)
    let buffer := b % 128 = 0 ∧ 128 ≤ b ∧ b ≤ 2 ^ 20 ∧ now ≤ n
    let opened : Nat → Option Ty → State := fun senders red => if s.ctx.active = true then
      (if n = now then takeFault s k s.ctx.stream s.ctx.unit s.ctx.hdr.evt.toNat 0x02 5 [toWord s.ctx.seq]
       else modCur s (fun c => { c with rwins := c.rwins ++
         [⟨a, b, now + 1, n, 0, senders * b, red, s.ctx.stream, s.ctx.seq, s.ctx.hdr.evt.toNat⟩] })) else s
    issuesTo s (.cpxrcv sa sb sc) [(buffer, 0x01), (a % 8 = 0 ∧ inRun a b ∧ room, 0x08)] none (opened 1 none) ∧
    issuesTo s (.cpxred sa sb sc ty snd) [(buffer, 0x01), (a % Ty.size ty = 0 ∧ inRun a b ∧ room, 0x08)] none
      (opened (snd.toNat + 1) (some ty))

/-- O31 (R100, R104, R195, R196, R210, R212, R214, R273). What strided moves, CPATOM, CPPUT and CPXSND do `t` cycles after their issue. Granule t - 1 of a
CPMOV is read as it stands and lands, the runner's two spans and two cycles later; a granule of CPSET is its pattern eight times. Granule t of
a CPLD, a CPST and a CPSET.mem is requested: what the memory side samples 1,279 cycles later lands in a CPLD's destination; the granule of a
CPST is read one cycle after its request, and it and that of CPSET.mem are written 1,280 cycles after the request. Element t of a CPATOM
requests its cell; it is read in the next cycle and added 1,280 cycles after the request. Granule t - 1 of a CPPUT is read into its transfer,
and beat t - 1 of a CPXSND: the beat lands at the receiving core, and at its pair partner, L cycles after its turn. The DETAIL words of a
request's permission fault are the model's choice (log 26), as are permission off the form (log 66) and the stop beyond 39 bits (log 56). -/
def Obligations.CopyCyclesMoveTheirGranules : Prop :=
  ∀ (s : State) (k : Nat) (j : Job) (m : MoveShape) (t a b c : Nat), 0 < m.len / 64 → a < m.len / 64 → b < m.n1 → c < m.n2 →
    let g := a + m.len / 64 * (b + m.n1 * c)
    let at' := fun (base : Nat) (s1 s2 : Int) => (((base : Int) + 64 * a + b * s1 + c * s2) % 2 ^ 64).toNat
    let src := at' m.src m.ss1 m.ss2
    let dst := at' m.dst m.ds1 m.ds2
    let bytes := fun (x n : Nat) => Memory.readNat (getCore s k).spad x n
    let pattern := fun (p : Word) (v : Nat) => ∀ i, i < 8 → v / 2 ^ (64 * i) % 2 ^ 64 = p.toNat
    (j.kind = .cpmov m → t = g + 1 → sampleCycle s k j t = .ok (puts s k j (t + 2 + spanOf j.run (blkSt (m.src / 2 ^ 18 % 8)) cpoSt +
      spanOf j.run cpoSt (blkSt (m.dst / 2 ^ 18 % 8))) g (.spad dst 64 (2 ^ 64 - 1) (bytes src 64) j.lc)) j) ∧
    (∀ p, j.kind = .cpset m p false → t = g + 1 → ∃ v, pattern p v ∧ sampleCycle s k j t =
      .ok (puts s k j (t + 1 + spanOf j.run cpoSt (blkSt (m.dst / 2 ^ 18 % 8))) g (.spad dst 64 (2 ^ 64 - 1) v j.lc)) j) ∧
    (j.kind = .cpld m → t = g → requests s k j t src 64 64 3 t [1] (fun key u =>
      .ok (puts u k j (t + 1279) t (.memRead key 64 (.spad dst j.lc))) j)) ∧
    (∀ p, j.kind = .cpset m p true → t = g → ∃ v, pattern p v ∧ requests s k j t dst 64 64 4 t [2] (fun key u =>
      .ok (puts u k j (t + 1280) t (.memWrite key 64 (2 ^ 64 - 1) v j.lc)) j)) ∧
    (j.kind = .cpst m → t = g → requests s k j t dst 64 64 4 t [2] (fun key u => .ok u { j with nums := j.nums ++ [key] })) ∧
    (∀ key r, j.kind = .cpst m → t = g + 1 → j.nums = key :: r → sampleCycle s k j t =
      .ok (puts s k j (t + 1279) g (.memWrite key 64 (2 ^ 64 - 1) (bytes src 64) j.lc)) { j with nums := r }) ∧
    (∀ x cell n ty per, j.kind = .cpatom x cell n ty per →
      (t < n → requests s k j t (if per = true then (cell + 64 * t) % 2 ^ 64 else cell) 64 64 6 t [3]
        (fun key u => .ok u { j with nums := j.nums ++ [key] })) ∧
      (∀ i key r, t = i + 1 → i < n → j.nums = key :: r → sampleCycle s k j t =
        .ok (puts s k j (t + 1279) i (.cellAdd key ty (bytes (x + Ty.size ty * i) (Ty.size ty)))) { j with nums := r })) ∧
    (∀ x off len win lc i, j.kind = .put x off len win lc → t = i + 1 → i < len / 64 → ∃ u, sampleCycle s k j t = .ok u j ∧
      u.xfers = s.xfers.map (fun y => if j.nums.head? = some y.id then
        { y with data := Memory.writeNat y.data (64 * i) 64 (bytes (x + 64 * i) 64), read := 64 * (i + 1) } else y) ∧
      u.mem = s.mem ∧ u.domains = s.domains ∧ (∀ q, q ≠ k → getCore u q = getCore s q) ∧ (getCore u k).spad = (getCore s k).spad ∧
      (getCore u k).inflight = (getCore s k).inflight) ∧
    (∀ x r raddr rrun beats i d, j.kind = .send x r raddr rrun beats → domOf s k = some d → d.status ≠ .catchUp → t = i + 1 → i < beats →
      let L := if pkgOf k ≠ pkgOf r then 560 else if dieOf k ≠ dieOf r then 96 else 48
      let v := bytes (x + 128 * i) 128
      let f : Flight := ⟨j.issue + L + i, cpoSt, .cp, j.seq, j.issue, i, false, .beat (raddr + 128 * i) (BitVec.ofNat 1024 v) (relOf d k) rrun, none, j.evt⟩
      let now := { j with buf := Memory.writeNat j.buf (128 * i) 128 v }
      let u := if primaryOf d k = k then (match partnerOf d r with | some q => addFlight (addFlight s r f) q f | none => addFlight s r f) else s
      let first := 2 + spanOf j.run (blkSt (x / 2 ^ 18 % 8)) xpSt
      (t < first → sampleCycle s k j t = .ok u now) ∧
      (first ≤ t → sampleCycle s k j t = .ok (sendBeat u d k now r raddr t (t - first)) now))

/-- O32 (R104, R197, R198, R333 to R335, R337). What a cast stream does in a cycle `t` after its issue. Compressed granule t of a CPLD.cb is requested,
its range granting r and c, and sampled 1,279 cycles later; granule t - 1 of a CPDEC is read. Block b is decoded one cycle before its first
granule lands, at 1,300 + 5b, for CPDEC at 32 + 5b: a valid block's four granules land in four cycles, those of CPLD.cb as memory returns, and
the next begins after its bytes; any other raises expansion-length with b in its first landing cycle, and so do, after the last, bytes that
are not zero padding: no further block is decoded, and requests go on till that fault. In other cycles nothing lands. A BDELTA base wider than
its element raises it too, by the model's choice (log 86); the place of the sequence number in the fault's DETAIL words is log 25; the requests' permission faults and the stop beyond 39 bits are logs 26, 66, 56. -/
def Obligations.CastStreamsDecodeTheirBlocks : Prop :=
  ∀ (s : State) (k : Nat) (j : Job) (src dst E B t : Nat) (mem : Bool), j.kind = .cast src dst E B mem →
    let now := if mem = false ∧ 1 ≤ t ∧ t ≤ B / 64 then
        { j with buf := Memory.writeNat j.buf (64 * (t - 1)) 64 (Memory.readNat (getCore s k).spad (src + 64 * (t - 1)) 64) } else j
    let first := if mem then 1300 else 32
    let p := j.nums.headD 0
    let fails := fun (b : Nat) => sampleCycle s k j t =
      .ok (puts s k j (t + 1) 0 (.raise 0x0C 0 [toWord b, toWord j.seq, 0, 0] b)) { now with made := 1 }
    (mem = true → t < B / 64 → requests s k j t (src + 64 * t) 64 64 3 t [1, 4] (fun key u =>
      .ok (puts u k j (t + 1279) t (.memRead key 64 (.cast j.seq t))) j)) ∧
    (j.made = 1 ∨ (∀ b, b ≤ E / 256 → t + 1 ≠ first + 5 * b) → sampleCycle s k j t = .ok s now) ∧
    (∀ b, j.made ≠ 1 → b < E / 256 → t + 1 = first + 5 * b →
      (∀ v len, castBlockIs now.buf p B v len → sampleCycle s k j t =
        .ok ([0, 1, 2, 3].foldl (fun u q =>
            addFlight u k ⟨j.issue + (t + 1 + q), j.station, j.stream, j.seq, j.issue, 4 * b + q, j.cmp,
              .spad (dst + 256 * b + 64 * q) 64 (2 ^ 64 - 1) (v / 2 ^ (512 * q) % 2 ^ 512) j.lc, if j.station = cpiSt then some 0 else none, j.evt⟩)
          (modCore s k (fun c => countEvent c 9 j.stream 1))) { now with nums := [p + len] }) ∧
      ((¬ ∃ v len, castBlockIs now.buf p B v len) → fails b)) ∧
    (j.made ≠ 1 → t + 1 = first + 5 * (E / 256) →
      if p ≤ B ∧ ∀ a, p ≤ a → a < B → Memory.read now.buf a = 0 then sampleCycle s k j t = .ok s { now with made := 1, nums := [B] }
      else fails (E / 256))

/-- O33 (R74, R75, R83, R193, R199 to R201, R283). What gathers and scatters in progress do in a cycle `t` after their issue. Row t - 1 of
the index list is read, sixteen indices, as it stands. Element i of a gather or scatter of device memory is requested at 16 + i; between
blocks it is read at 17 + i, an address off its alignment or outside the operand's block raising permission. A gather's element lands as
read; a scatter's is the element itself, or under .comb the combination of the occurrences of its index so far: the exact sum rounded
once, or the wrapping sum. Through an entry each index is mapped by Canon: a forced zero lands zero with no read, a negative character
negates; an index beyond the extents raises permission in its row's cycle, which the model lets stop an element due in that cycle too (log
67). A scatter through an entry groups its positions at N + 39, and item k lands at N + 48 + k, or is written at N + 1,320 + k. The test of a
scatter's slots against receive windows is the model's choice (log 19). So are the block of an operand's elements (log 27), the rounding and
the order of combined members (log 28), the DETAIL words of a later cycle's fault (logs 25, 26), permission above 2^57 (log 66) and the stop
beyond 39 bits (log 56). Each representative of a scatter through an entry lands with the flags of its rounding and of its members' combined
codes; what a forced zero under FORCE drops sets none (log 68). -/
def Obligations.IndexedCyclesMoveElements : Prop :=
  ∀ (s : State) (k : Nat) (j : Job) (src dst idx n i t : Nat) (ty : Ty) (comb : Bool) (y : Nat) (d : BitVec 512),
    let bytes := fun (x m : Nat) => Memory.readNat (getCore s k).spad x m
    let now := { j with nums := j.nums ++ (if 1 ≤ t ∧ 16 * (t - 1) < n then
      (List.range (min 16 (n - 16 * (t - 1)))).map (fun q => bytes (idx + 128 * (t - 1) + 8 * q) 8) else []) }
    let z := Ty.size ty
    let ix := fun (u : Job) => u.nums.getD i 0
    let at' := fun (u : Job) (base : Nat) => (base + ix u * z) % 2 ^ 64
    let lies := fun (base a m : Nat) => a % m = 0 ∧ inRun a m ∧ a / 2 ^ 18 = base / 2 ^ 18 % 8
    let shutTo := fun (a m : Nat) => ∃ w ∈ (getCore s k).rwins,
      w.opens ≤ j.issue ∧ j.issue ≤ w.closes ∧ 0 < w.len ∧ 0 < m ∧ a < w.addr + w.len ∧ w.addr < a + m
    let kept := { now with buf := Memory.writeNat now.buf (z * i) z (bytes (src + z * i) z) }
    let codes := fun (u : Job) => ((List.range (i + 1)).filter (fun q => u.nums.getD q 0 = ix u)).map (fun q => Memory.readNat u.buf (z * q) z)
    let value := fun (u : Job) => if comb = false then (Memory.readNat u.buf (z * i) z, (0 : Flags))
      else if Ty.isFloat ty = true then sumInto (fmtOf ty 0) ((codes u).map (decodeNum (fmtOf ty 0)))
      else ((codes u).sum % 2 ^ Ty.bits ty, 0)
    let spans := fun (unit : Nat) (a b : Nat) => spanOf j.run (blkSt (a / 2 ^ 18 % 8)) unit + spanOf j.run unit (blkSt (b / 2 ^ 18 % 8))
    let zs := symSize d
    let tup := fun (u : Job) (x : List Nat) => x.length = symRank d ∧ (∀ q, q < symRank d → x.getD q 0 < symExt d q) ∧ linearOf d x = ix u
    let beyond := fun (q : Nat) => ((List.range (symRank d)).map (symExt d)).foldl (fun a b => a * b) 1 ≤ now.nums.getD q 0
    let stray := ∃ q, j.nums.length ≤ q ∧ q < now.nums.length ∧ beyond q
    (j.kind = .gather src dst idx n ty true →
      sampleCycle s k j t = .ok s now ∧
      (t = 16 + i → i < n → requests s k j t (at' j src) z z 3 i [1] (fun key u =>
        .ok (puts u k j (t + 1279) i (.memRead key z (.spad (dst + i * z) j.lc))) j))) ∧
    (j.kind = .gather src dst idx n ty false →
      (t < 17 → sampleCycle s k j t = .ok s now) ∧
      (t = 17 + i → i < n →
        (lies src (at' now src) z → sampleCycle s k j t =
          .ok (puts s k j (t + 2 + spans cpoSt src dst) i (.spad (dst + i * z) z (2 ^ z - 1) (bytes (at' now src) z) j.lc)) now) ∧
        (¬ lies src (at' now src) z → sampleCycle s k j t = .fault s now 0x08 [toWord (at' now src), 0, toWord j.seq, 0] i))) ∧
    ((comb = true → ty ≠ .nf) → j.kind = .scatter src dst idx n ty true comb → t = 16 + i → i < n →
      sampleCycle s k j t = .ok s kept ∧
      requests s k j t (at' j dst) z z 4 i [2] (fun key u =>
        .ok (putsFlags (puts u k j (t + 1280) (2 * i) (.memWrite key z (2 ^ z - 1) (value j).1 j.lc)) k j (t + 1280) (2 * i + 1) .cp (value j).2) j)) ∧
    ((comb = true → ty ≠ .nf) → j.kind = .scatter src dst idx n ty false comb → t = 17 + i → i < n →
      (lies dst (at' now dst) z → ¬ shutTo (at' now dst) z →
        let land := t + 2 + spans cpoSt src dst
        sampleCycle s k j t = .ok (putsFlags (puts s k j land (2 * i) (.spad (at' now dst) z (2 ^ z - 1) (value kept).1 j.lc))
          k j land (2 * i + 1) .cp (value kept).2) kept) ∧
      (¬ (lies dst (at' now dst) z ∧ ¬ shutTo (at' now dst) z) →
        sampleCycle s k j t = .fault s now 0x08 [toWord (at' now dst), 0, toWord j.seq, 0] i)) ∧
    (∀ q, j.kind = .gatherSy y dst idx n d ∨ j.kind = .scatterSy y src idx n d comb → j.nums.length ≤ q → q < now.nums.length → beyond q →
      (∀ r, j.nums.length ≤ r → r < q → ¬ beyond r) →
      sampleCycle s k j t = .fault s { now with stopped := true } 0x08 [toWord (now.nums.getD q 0), 0, toWord j.seq, 0] q) ∧
    (j.kind = .gatherSy y dst idx n d → ¬ stray →
      (∀ x, symSpad d = true → t = 17 + i → i < n → tup now x →
        let land := t + 2 + spans cpiSt (symBase d) dst
        let e := expanded d x (bytes (symBase d + (canon d x).1 * zs) zs)
        sampleCycle s k j t = .ok (putsFlags (puts s k j land (2 * i) (.spad (dst + i * zs) zs (2 ^ zs - 1) e.1 j.lc)) k j land (2 * i + 1) .cp e.2) now) ∧
      (∀ x, symSpad d = false → t = 16 + i → i < n →
        (tup now x → (canon d x).2.2.1 = true → sampleCycle s k j t =
          .ok (puts s k j (t + 1280) (2 * i) (.spad (dst + i * zs) zs (2 ^ zs - 1) 0 j.lc)) now) ∧
        (tup now x → (canon d x).2.2.1 = false → sampleCycle s k j t = .ok s now) ∧
        (tup j x → (canon d x).2.2.1 = true → requestCycle s k j t = .ok s j) ∧
        (tup j x → (canon d x).2.2.1 = false → requests s k j t (symBase d + (canon d x).1 * zs) zs zs 3 i [1] (fun key u =>
          .ok (puts u k j (t + 1279) (2 * i)
            (.memRead key zs (.spadSy (dst + i * zs) j.lc (canon d x).2.1 (symTy d) (symNf d)))) j)))) ∧
    (j.kind = .scatterSy y src idx n d comb → ty = symTy d → j.nums.length = n → 1 ≤ n → t = n + 39 → ¬ stray →
      ∀ (xs : Nat → List Nat), (∀ q, q < n → (xs q).length = symRank d ∧ (∀ r, r < symRank d → (xs q).getD r 0 < symExt d r) ∧
          linearOf d (xs q) = j.nums.getD q 0) →
      let last := (List.range n).filter (fun q => (List.range n).all (fun r => decide (q < r → j.nums.getD r 0 ≠ j.nums.getD q 0)))
      let same := fun (q : Nat) => ((List.range (q + 1)).filter (fun r => j.nums.getD r 0 = j.nums.getD q 0)).map (fun r => Memory.readNat j.buf (z * r) z)
      let val := fun (q : Nat) => if comb = false then (Memory.readNat j.buf (z * q) z, (0 : Flags))
        else if Ty.isFloat ty = true then sumInto (fmtOf ty (symNf d)) ((same q).map (decodeNum (fmtOf ty (symNf d))))
        else ((same q).sum % 2 ^ Ty.bits ty, 0)
      storesGroup s k j y d false (last.map (fun q => ((xs q, (val q).1), (val q).2)))
        (if symSpad d then n + 48 else n + 1320) (fun u v => sampleCycle s k j t =
          (if symSpad d = true ∧ ∃ it ∈ v.items, shutTo it.pos zs then .fault s { j with stopped := true } 0x08 [0, 0, toWord j.seq, 0] 0
          else .ok u v))) ∧
    (∀ it, j.kind = .scatterSy y src idx n d comb → symSpad d = false → t = n + 40 + i → j.items[i]? = some it →
      requests s k j t it.pos zs zs 4 i [2] (fun key u =>
        .ok (landsItem u k j (n + 1320) i it (.memWrite key zs (2 ^ zs - 1) it.val j.lc)) j)) ∧
    (j.kind = .scatterSy y src idx n d comb → ¬ stray → t = 17 + i → i < n →
      sampleCycle s k j t = .ok s { now with buf := Memory.writeNat now.buf (zs * i) zs (bytes (src + zs * i) zs) })

/-- O34 (R48, R75, R83 to R86, R90, R202 to R208). What fills, CPVQ, CPEXP and CPFLD in progress do in a cycle `t` after their issue. Row i of a
fill from scratchpad is read at 1 + i; the rows fill their slot, or land in their pattern memory or codebook, at issue + 40, from device memory
at 1,296. CPVQ reads index rows and forms output row i at 16 + i, each index giving the 64 bits of its codebook entry: the rows land in
scratchpad, or fill the slot at 48. CPEXP samples element e at 1 + e, or requests it at e, a forced zero not at all; row i is placed at
Q + (i + 1) COLS and lands, or the tile fills its slot. CPFLD samples row t of its tile, groups the elements when all are read, and lands the
representatives in rank order, each with its flags; what a forced zero under FORCE drops sets none (log 68). The bytes of a fill's or CPEXP's
row beyond its columns are given as zero (log 82); the requests' permission faults and the stop beyond 39 bits are logs 26, 66 and 56. -/
def Obligations.FillExpansionAndFoldCycles : Prop :=
  ∀ (s : State) (k : Nat) (j : Job) (t i e : Nat),
    let bytes := fun (x m : Nat) => Memory.readNat (getCore s k).spad x m
    let row := fun (u : Job) (q : Nat) => BitVec.ofNat 1024 (Memory.readNat u.buf (128 * q) 128)
    let filling := fun (kind num rows cols : Nat) (ty : Ty) (vals : List Row) =>
      if kind = 0 then Effect.fill num vals rows cols ty else if kind = 1 then .pmRows num vals else .cbRows num vals
    let spanTo := fun (src dst : Nat) => spanOf j.run src (blkSt (dst / 2 ^ 18 % 8))
    (∀ kind num src stride rows cols size ty mem, j.kind = .fill kind num src stride rows cols size ty mem →
      (mem = false → t = i + 1 → i < rows → t ≠ 39 → sampleCycle s k j t =
        .ok s { j with buf := Memory.writeNat j.buf (128 * i) (cols * size) (bytes (((src : Int) + i * stride) % 2 ^ 64).toNat (cols * size)) }) ∧
      (t + 1 = (if mem then 1296 else 40) → rows ≤ 32 → sampleCycle s k j t =
        .ok (puts s k j (t + 1) 0 (filling kind num rows cols ty ((List.range rows).map (row j)))) j)) ∧
    (∀ slot src dst rows ty sp book, j.kind = .vq slot src dst rows ty sp book →
      let total := if sp then 16 * rows else 256
      let m := min 128 (total - 128 * i)
      let entry := fun (q per : Nat) =>
        let v := Memory.readNat j.buf (per * i + q) 1
        (Sparse.get 0 (getCore s k).cb (16 * book + v / 16)).toNat / 2 ^ (64 * (v % 16)) % 2 ^ 64
      (t = i + 1 → 128 * i < total → t < 16 → sampleCycle s k j t =
        .ok s { j with buf := Memory.writeNat j.buf (128 * i) m (bytes (src + 128 * i) m) }) ∧
      (sp = true → t = 16 + i → i < rows → total + 128 ≤ 128 * t → ∃ w, (∀ q, q < 16 → w / 2 ^ (64 * q) % 2 ^ 64 = entry q 16) ∧
        sampleCycle s k j t = .ok (puts s k j (t + 1 + spanTo ceSt dst) i (.spad (dst + 128 * i) 128 (2 ^ 128 - 1) w j.lc)) j) ∧
      (sp = false → t = 16 + i → i < rows → ∃ w, w < 2 ^ 512 ∧ (∀ q, q < 8 → w / 2 ^ (64 * q) % 2 ^ 64 = entry q 8) ∧
        let all := j.nums ++ [w]
        sampleCycle s k j t = .ok (if t = 47 then puts s k j 48 0 (.fill slot (all.map (BitVec.ofNat 1024)) 32 32 ty) else s) { j with nums := all })) ∧
    (∀ slot y dst rows cols tup rdim cdim d sp, j.kind = .expand slot y 0 dst rows cols tup rdim cdim d sp → 1 ≤ cols →
      let x := fun (p : Nat) => (tup.set rdim (tup.getD rdim 0 + p / cols)).set cdim (tup.getD cdim 0 + p % cols)
      let zero := fun (p : Nat) => (canon d (x p)).2.2.1 = true
      let z := symSize d
      let addr := symBase d + (canon d (x e)).1 * z
      let Q := if symSpad d then 24 else 1290
      let now := if symSpad d = true ∧ t = e + 1 ∧ e < rows * cols ∧ ¬ zero e then
        { j with buf := Memory.writeNat j.buf (z * e) z (bytes addr z) } else j
      let elem := fun (p : Nat) => expanded d (x p) (Memory.readNat now.buf (z * p) z)
      let tile := fun (r : Nat) => (List.range cols).map (fun q => elem (r * cols + q))
      let flags := fun (l : List (Nat × Flags)) => l.foldl (fun a b => a ||| b.2) 0
      let codes := fun (l : List (Nat × Flags)) => packLanes (8 * z) (l.map Prod.fst)
      (symSpad d = false → t < rows * cols → e = t →
        (zero e → requestCycle s k j t = .ok s j) ∧
        (¬ zero e → requests s k j t addr z z 3 t [1] (fun key u =>
          .ok (puts u k j (t + 1279) t (.memRead key z (.job j.stream j.seq (z * t)))) j))) ∧
      (t = e + 1 → (∀ r, r < rows → t ≠ Q + (r + 1) * cols) → sampleCycle s k j t = .ok s now) ∧
      (t = e + 1 → t = Q + (i + 1) * cols → i < rows →
        (sp = true → let land := t + 1 + spanTo cpiSt dst
          sampleCycle s k j t = .ok (putsFlags (puts s k j land (2 * i) (.spad (dst + 128 * i) (z * cols) (2 ^ (z * cols) - 1) (codes (tile i)) j.lc))
            k j land (2 * i + 1) .cp (flags (tile i))) now) ∧
        (sp = false → i + 1 < rows → sampleCycle s k j t = .ok s now) ∧
        (sp = false → i + 1 = rows → let full := Q + 16 + rows * cols
          sampleCycle s k j t = .ok (putsFlags (puts s k j full 0
              (.fill slot ((List.range rows).map (fun r => BitVec.ofNat 1024 (codes (tile r)))) rows cols (symTy d)))
            k j full 1 .cp (flags ((List.range rows).map tile).flatten)) now))) ∧
    (∀ tile y rows cols row0 col0 tup rdim cdim d tag, j.kind = .fold tile y rows cols row0 col0 tup rdim cdim d tag →
      let z := symSize d
      let land := if symSpad d then rows + 24 else rows + 1292
      let x := fun (p : Nat) => (tup.set rdim (row0 + p / cols)).set cdim (col0 + p % cols)
      (t < rows → sampleCycle s k j t =
        .ok s { j with buf := Memory.writeNat j.buf (128 * t) 128 (Sparse.get 0 (getCore s k).rows (32 * tile + t)).toNat }) ∧
      (t = rows → storesGroup s k j y d (tagImplies d tag rdim cdim row0 col0)
        ((List.range (rows * cols)).map (fun p => ((x p, Memory.readNat j.buf (128 * (p / cols) + z * (p % cols)) z), 0))) land
        (fun u v => sampleCycle s k j t = .ok u v)) ∧
      (∀ it, symSpad d = false → t = rows + 12 + i → j.items[i]? = some it → requests s k j t it.pos z z 4 i [2] (fun key u =>
        .ok (landsItem u k j land i it (.memWrite key z (2 ^ z - 1) it.val j.lc)) j)))


-- The vector engine ---------------------------------------------------------------------------------------------------------------------------

/-- O35 (R219 to R228). Vector arithmetic: the integer types by exact arithmetic, wrapping (VABS clamps), the floating types by the exact
value of the operands rounded once; an nf operand decodes under descriptor A of the head format word, its result rounds into descriptor
B. Results land 2 cycles after issue, those of VMUL, VFMA and VFMS 4. -/
def Obligations.VectorArithmetic : Prop :=
  ∀ (s : State) (o : VOps) (q : VOps1) (rm : Rm),
    let x := fun (t : Ty) (c : Nat) => decodeNum (fmtOf t (formatA s)) c
    let put := fun (t : Ty) (v : Machine.Num) => encodeNum (fmtOf t (formatB s)) rm v
    let z := laneInt o.ty
    let two := fun (i : Instr) (delay : Nat) (fl : Machine.Num → Machine.Num → Machine.Num) (it : Int → Int → Int) =>
      laneWise s i (o.ty == .nf) true o.vd [o.va, o.vb] o.prd o.z o.ty [] delay (fun e =>
        let a := elem s o.ty o.va.toNat e
        let b := elem s o.ty o.vb.toNat e
        if Ty.isFloat o.ty then put o.ty (fl (x o.ty a) (x o.ty b)) else laneWrap o.ty (it (z a) (z b)))
    let three := fun (i : Instr) (fl : Machine.Num → Machine.Num → Machine.Num → Machine.Num) (it : Int → Int → Int → Int) =>
      laneWise s i (o.ty == .nf) true o.vd [o.va, o.vb] o.prd o.z o.ty [] 4 (fun e =>
        let a := elem s o.ty o.va.toNat e
        let b := elem s o.ty o.vb.toNat e
        let c := elem s o.ty o.vd.toNat e
        if Ty.isFloat o.ty then put o.ty (fl (x o.ty a) (x o.ty b) (x o.ty c)) else laneWrap o.ty (it (z a) (z b) (z c)))
    let one := fun (i : Instr) (f : Nat → Nat × Flags) =>
      laneWise s i (q.ty == .nf) true q.vd [q.va] q.prd q.z q.ty [] 2 (fun e => f (elem s q.ty q.va.toNat e))
    two (.vadd o rm) 2 (fun a b => Machine.Num.add rm a b) (fun a b => a + b) ∧
    two (.vsub o rm) 2 (fun a b => Machine.Num.add rm a b.neg) (fun a b => a - b) ∧
    two (.vmul o rm) 4 Machine.Num.mul (fun a b => a * b) ∧
    three (.vfma o rm) (fun a b c => Machine.Num.add rm (a.mul b) c) (fun a b c => a * b + c) ∧
    three (.vfms o rm) (fun a b c => Machine.Num.add rm (a.mul b) c.neg) (fun a b c => a * b - c) ∧
    (let go := fun (i : Instr) (mx : Bool) => laneWise s i (o.ty == .nf) true o.vd [o.va, o.vb] o.prd o.z o.ty [] 2 (fun e =>
        minMaxOf mx o.ty (x o.ty) (put o.ty) (elem s o.ty o.va.toNat e) (elem s o.ty o.vb.toNat e))
     go (.vmin o rm) false ∧ go (.vmax o rm) true) ∧
    one (.vneg q rm) (fun a => if q.ty = .nf then put q.ty (x q.ty a).neg else negCode q.ty 0 a) ∧
    one (.vabs q rm) (fun a => if Ty.isFloat q.ty then put q.ty (absNum (x q.ty a)) else
      (if (laneInt q.ty a).natAbs < 2 ^ (Ty.bits q.ty - 1) ∨ Ty.isSigned q.ty = false then ((laneInt q.ty a).natAbs, 0)
       else (2 ^ (Ty.bits q.ty - 1) - 1, fSAT))) ∧
    laneWise s (.vmov q) false true q.vd [q.va] q.prd q.z q.ty [] 2 (fun e => (elem s q.ty q.va.toNat e, 0))

/-- O36 (R219, R220, R225). The immediate forms: VD is the first source, the immediate the second, in both nf lanes of its bytes, sign
extended in the wider signed types; a type of f64, f32 or b1 raises illegal-encoding after the other checks. -/
def Obligations.VectorImmediates : Prop :=
  ∀ (s : State) (o : VImm) (rm : Rm),
    let x := fun (c : Nat) => decodeNum (fmtOf o.ty (formatA s)) c
    let put := fun (v : Machine.Num) => encodeNum (fmtOf o.ty (formatB s)) rm v
    let z := laneInt o.ty
    let w := Ty.bits o.ty
    let form := fun (i : Instr) (fmt : Bool) (delay : Nat) (f : Nat → Nat → Nat × Flags) =>
      laneWise s i fmt true o.vd [] o.prd o.z o.ty [(immediateType o.ty, 0x01)] delay (fun e =>
        f (elem s o.ty o.vd.toNat e) (immediate o.ty o.imm (e % Ty.lanes o.ty)))
    let nf := o.ty == .nf
    form (.vaddImm o rm) nf 2 (fun a b => if Ty.isFloat o.ty then put (Machine.Num.add rm (x a) (x b)) else laneWrap o.ty (z a + z b)) ∧
    form (.vmulImm o rm) nf 4 (fun a b => if Ty.isFloat o.ty then put ((x a).mul (x b)) else laneWrap o.ty (z a * z b)) ∧
    form (.vminImm o rm) nf 2 (minMaxOf false o.ty x put) ∧
    form (.vmaxImm o rm) nf 2 (minMaxOf true o.ty x put) ∧
    form (.vandImm o) false 2 (fun a b => (a &&& b, 0)) ∧ form (.vorImm o) false 2 (fun a b => (a ||| b, 0)) ∧
    form (.vxorImm o) false 2 (fun a b => (a ^^^ b, 0)) ∧
    form (.vshlImm o) false 2 (fun a b => (if b < w then a * 2 ^ b else 0, 0)) ∧
    form (.vshrImm o) false 2 (fun a b => (if b < w then a / 2 ^ b else 0, 0)) ∧
    form (.vsarImm o) false 2 (fun a b => (((if 2 ^ (w - 1) ≤ a then (a : Int) - 2 ^ w else a) / 2 ^ (min b w) % 2 ^ w).toNat, 0)) ∧
    form (.vimm o) false 2 (fun _ b => (b, 0))

/-- O37 (R57 to R67, R229, R230, R243). Division, roots, the special functions and draws, 12 cycles after issue, a draw 4. A quotient of finite
nonzero operands is rounded once from its exact value, x / 0 is an infinity, 0 / 0 invalid; a root is rounded once from its value to any
number of bits of 60 or more with a sticky bit; a NaN gives the canonical NaN, invalid where one is signalling; x / inf and 1 / inf are
zeros, inf / x and the root of +inf infinities, inf / inf and the roots of -inf invalid. The special functions give the listed result on the special operands and the exact
cases (R67); on f32 the algorithms of R63 to R66; on f16, bf16 and nf one value of function and operand, whatever the destination format
is, rounded once into it (R57): how near to the exact value the model's own value lies is not stated. -/
def Obligations.VectorDivisionAndFunctions : Prop :=
  ∀ (s : State) (o : VOps) (q : VOps1) (rm : Rm) (vd : VReg) (prd : Prd) (zz : Bool) (ty : Ty),
    let A := formatA s
    let B := formatB s
    let two := fun (i : Instr) (f : Nat → Nat → Nat × Flags) =>
      laneWise s i (o.ty == .nf) true o.vd [o.va, o.vb] o.prd o.z o.ty [] 12 (fun e =>
        f (elem s o.ty o.va.toNat e) (elem s o.ty o.vb.toNat e))
    let one := fun (i : Instr) (f : Nat → Nat × Flags) =>
      laneWise s i (q.ty == .nf) true q.vd [q.va] q.prd q.z q.ty [] 12 (fun e => f (elem s q.ty q.va.toNat e))
    let x := fun (a : Nat) => decodeNum (fmtOf q.ty A) a
    let F := fmtOf q.ty B
    (∃ f, two (.vdiv o rm) f ∧ ∀ a b m n (d e : Int) (u v : Bool), decodeNum (fmtOf o.ty A) a = .fin u m d →
      decodeNum (fmtOf o.ty A) b = .fin v n e →
      f a b = if n = 0 then encodeNum (fmtOf o.ty B) rm (if m = 0 then .nan true else .inf (u != v))
        else if m = 0 then encodeNum (fmtOf o.ty B) rm (.fin (u != v) 0 0) else roundInto (fmtOf o.ty B) rm (u != v) m n (d - e)) ∧
    (∃ f, two (.vdiv o rm) f ∧ ∀ a b, let x := decodeNum (fmtOf o.ty A) a
      let y := decodeNum (fmtOf o.ty A) b
      let out := fun (z : Machine.Num) => encodeNum (fmtOf o.ty B) rm z
      (x.isNan = true ∨ y.isNan = true → f a b = out (.nan (x.isSig || y.isSig))) ∧
      (∀ u v, x = .inf u → y = .inf v → f a b = out (.nan true)) ∧
      (∀ u v n (e : Int), x = .inf u → y = .fin v n e → f a b = out (.inf (u != v))) ∧
      (∀ u v m (d : Int), x = .fin u m d → y = .inf v → f a b = out (.fin (u != v) 0 0))) ∧
    (∃ f g h, one (.vrcp q rm) f ∧ one (.vsqrt q rm) g ∧ one (.vrsq q rm) h ∧ ∀ a,
      let out := fun (z : Machine.Num) => encodeNum F rm z
      (∀ b, x a = .nan b → f a = out (.nan b) ∧ g a = out (.nan b) ∧ h a = out (.nan b)) ∧
      (∀ u, x a = .inf u → f a = out (.fin u 0 0) ∧ g a = out (if u then .nan true else .inf false) ∧
        h a = out (if u then .nan true else .fin false 0 0))) ∧
    (∃ f, one (.vrcp q rm) f ∧ ∀ b n (e : Int) (v : Bool), x b = .fin v n e →
      f b = if n = 0 then encodeNum F rm (.inf v) else roundInto F rm v 1 n (-e)) ∧
    (∃ f, one (.vsqrt q rm) f ∧ ∀ a m (e : Int) (u : Bool), x a = .fin u m e →
      (m = 0 → f a = encodeNum F rm (.fin u 0 0)) ∧ (m ≠ 0 → u = true → f a = encodeNum F rm (.nan true)) ∧
      (u = false → ∀ t r : Nat, (e - t) % 2 = 0 → r * r ≤ m * 2 ^ t → m * 2 ^ t < (r + 1) * (r + 1) → 2 ^ 60 ≤ r →
        f a = roundInto F rm false (2 * r + (if r * r = m * 2 ^ t then 0 else 1)) 1 ((e - t) / 2 - 1))) ∧
    (∃ f, one (.vrsq q rm) f ∧ ∀ a m (e : Int) (u : Bool), x a = .fin u m e →
      (m = 0 → f a = encodeNum F rm (.inf u)) ∧ (m ≠ 0 → u = true → f a = encodeNum F rm (.nan true)) ∧
      (u = false → ∀ t r : Nat, (e + t) % 2 = 0 → r * r * m ≤ 2 ^ t → 2 ^ t < (r + 1) * (r + 1) * m → 2 ^ 60 ≤ r →
        f a = roundInto F rm false (2 * r + (if r * r * m = 2 ^ t then 0 else 1)) 1 (-((e + t) / 2) - 1))) ∧
    (∃ φ : Fn → Nat → Nat × Flags,
      one (.vexp2 q) (φ .exp2) ∧ one (.vlog2 q) (φ .log2) ∧ one (.vexp q) (φ .exp) ∧ one (.vlog q) (φ .log) ∧
      one (.vsinpi q) (φ .sinpi) ∧ one (.vcospi q) (φ .cospi) ∧ one (.vtanh q) (φ .tanh) ∧
      (let out := fun (y : Machine.Num) => encodeNum F .rne y
       (∀ g a b, x a = .nan b → φ g a = out (.nan b)) ∧
       (∀ a u, x a = .inf u → φ .exp2 a = out (if u then .fin false 0 0 else .inf false) ∧ φ .exp a = φ .exp2 a ∧
         φ .log2 a = out (if u then .nan true else .inf false) ∧ φ .log a = φ .log2 a ∧ φ .sinpi a = out (.nan true) ∧
         φ .cospi a = out (.nan true) ∧ φ .tanh a = out (.fin u 1 0)) ∧
       (∀ a u e, x a = .fin u 0 e → φ .exp2 a = out (.fin false 1 0) ∧ φ .exp a = out (.fin false 1 0) ∧ φ .log2 a = out (.inf true) ∧
         φ .log a = out (.inf true) ∧ φ .sinpi a = out (.fin u 0 0) ∧ φ .cospi a = out (.fin false 1 0) ∧ φ .tanh a = out (.fin u 0 0)) ∧
       (∀ a u m (e : Int), x a = .fin u m e → m ≠ 0 →
         (u = true → φ .log2 a = out (.nan true) ∧ φ .log a = out (.nan true)) ∧
         (∀ p : Nat, u = false → m = 2 ^ p → φ .log2 a = out (.fin (p + e < 0) (p + e).natAbs 0) ∧
           (p + e = 0 → φ .log a = out (.fin false 0 0))) ∧
         (∀ k : Nat, m * 2 ^ e.toNat = k * 2 ^ (-e).toNat → k ≤ 1024 → φ .exp2 a = out (.fin false 1 (if u then -(k : Int) else k))) ∧
         (∀ h : Nat, 2 * m * 2 ^ e.toNat = h * 2 ^ (-e).toNat →
           φ .sinpi a = out (if h % 2 = 0 then .fin u 0 0 else .fin (u != decide (h % 4 = 3)) 1 0) ∧
           φ .cospi a = out (if h % 2 = 1 then .fin false 0 0 else .fin (decide (h % 4 = 2)) 1 0)) ∧
         (q.ty ≠ .f32 → ∀ g, φ g a = fnSmall F g (x a) ∧ ∃ y : Machine.Num, ∀ D : Fmt, fnSmall D g (x a) = encodeNum D .rne y) ∧
         (q.ty = .f32 →
           let v := x a
           let fma := fma32
           let poly := fun (w : Machine.Num) (c : Nat) (l : List Nat) => l.foldl (fun p c => fma p w (k32 c)) (k32 c)
           let parts := fun (y : Machine.Num) =>
             let kf := rint (rd32 (y.mul (k32 0x4238AA3B)))
             let r := fma (intNum kf) (k32 0xAE82E308).neg (fma (intNum kf) (k32 0x3CB17218).neg y)
             (kf, fma (rd32 ((fma r (k32 0x3E2AAAAB) (k32 0x3F000000)).mul r)) r r)
           ((∀ k : Nat, m * 2 ^ e.toNat ≠ k * 2 ^ (-e).toNat) → φ .exp2 a =
             if v.cmp (intNum 129) = 1 then (0x7F800000, fOVF + fINX) else if v.cmp (intNum (-152)) = -1 then (0, fUFL + fINX)
             else
               let kf := rint (v.scale 5)
               let r := Machine.Num.add .rne v ((intNum kf).scale (-5)).neg
               final32 (expTail kf (rd32 ((poly r 0x3D635847 [0x3E75FDF0, 0x3F317218]).mul r)))) ∧
           (φ .exp a = if v.cmp (intNum 89) = 1 then (0x7F800000, fOVF + fINX) else if v.cmp (intNum (-104)) = -1 then (0, fUFL + fINX)
             else final32 (expTail (parts v).1 (parts v).2)) ∧
           (let y : Machine.Num := .fin false m e
            φ .tanh a = if y.cmp (.fin false 1 (-12)) = -1 then
                ((out v).1, if y.cmp (.fin false 1 (-126)) = -1 then fINX + fUFL else fINX)
              else if y.cmp (intNum 10) ≠ -1 then ((out (.fin u 1 0)).1, fINX)
              else
                let em := rd32 (Machine.Num.add .rne (expTail (parts (y.scale 1)).1 (parts (y.scale 1)).2) (.fin true 1 0))
                let r := divNum fmtF32 .rne (signNum u em) (rd32 (Machine.Num.add .rne em (intNum 2)))
                (r.1, (r.2 &&& (fOVF + fUFL)) ||| fINX)) ∧
           (u = false → m ≠ 2 ^ m.log2 ∨ (m.log2 : Int) + e ≠ 0 →
             let m0 : Machine.Num := .fin false m (-m.log2)
             let half := m0.cmp (k32 0x3FB504F3) = 1
             let mm := if half then m0.scale (-1) else m0
             let ee := intNum ((m.log2 : Int) + e + (if half then 1 else 0))
             let f := Machine.Num.add .rne mm (.fin true 1 0)
             let t := decodeNum fmtF32 (divNum fmtF32 .rne f (rd32 (Machine.Num.add .rne (intNum 2) f))).1
             let w := rd32 (t.mul t)
             let ln := fma t (rd32 ((poly w 0x3E3A2E8C [0x3E638E39, 0x3E924925, 0x3ECCCCCD, 0x3F2AAAAB]).mul w)) (t.scale 1)
             φ .log a = final32 (Machine.Num.add .rne (ee.mul (k32 0x3F317218)) (fma ee (k32 0xB102E308) ln)) ∧
             (m ≠ 2 ^ m.log2 → φ .log2 a = final32 (Machine.Num.add .rne (ln.mul (k32 0x3FB8AA3B)) ee))) ∧
           ((∀ h : Nat, 2 * m * 2 ^ e.toNat ≠ h * 2 ^ (-e).toNat) →
             let z := Machine.Num.add .rne v (intNum (2 * rint (v.scale (-1)))).neg
             let jj := rint (z.scale 1)
             let r := Machine.Num.add .rne z ((intNum jj).scale (-1)).neg
             let w := rd32 (r.mul r)
             let sn := (poly w 0x3DA83C1A [0xBF196966, 0x402335E3, 0xC0A55DE7, 0x40490FDB]).mul r
             let cs := Machine.Num.add .rne ((poly w 0xBCD368F9 [0x3E70FA83, 0xBFAAE9E4, 0x4081E0F8, 0xC09DE9E6]).mul w) (intNum 1)
             let turn := fun (n : Int) => if n % 4 = 0 then sn else if n % 4 = 1 then cs else if n % 4 = 2 then sn.neg else cs.neg
             φ .sinpi a = final32 (turn jj) ∧ φ .cospi a = final32 (turn (jj + 1))))))) ∧
    laneWise s (.vrand vd prd zz ty) false false vd [] prd zz ty [] 4 (fun e =>
      let r := draw (cur s).ve.seed.toNat (cur s).pid s.ctx.seq e
      (if ty = .f32 ∨ ty = .f64 then (encodeNum (fmtOf ty 0) .rne (.fin false (r / 256) (-24))).1 else r, 0))

/-- O38 (R235 to R237). Bits and shifts: a shift of the lane width or more gives zero, of VSAR the sign; VFSH takes the high half of the
pair shifted, its count below the width; the carry-less product's two halves. -/
def Obligations.VectorBitsAndShifts : Prop :=
  ∀ (s : State) (o : VOps) (q : VOps1) (tt : BitVec 8) (sh : BitVec 7),
    let w := Ty.bits o.ty
    let own := fun (i : Instr) (chk : List (Prop × Nat)) (delay : Nat) (f : Nat → Nat → Nat → Nat) =>
      laneWise s i false true o.vd [o.va, o.vb] o.prd o.z o.ty chk delay (fun e =>
        (f (elem s o.ty o.vd.toNat e) (elem s o.ty o.va.toNat e) (elem s o.ty o.vb.toNat e), 0))
    let two := fun (i : Instr) (delay : Nat) (f : Nat → Nat → Nat) => own i [] delay (fun _ a b => f a b)
    let one := fun (i : Instr) (f : Nat → Nat) =>
      laneWise s i false true q.vd [q.va] q.prd q.z q.ty [] 2 (fun e => (f (elem s q.ty q.va.toNat e), 0))
    two (.vand o) 2 (fun a b => a &&& b) ∧ two (.vor o) 2 (fun a b => a ||| b) ∧ two (.vxor o) 2 (fun a b => a ^^^ b) ∧
    (∃ f, own (.vlog3 o tt) [] 2 f ∧ ∀ d a b i, i < w →
      (f d a b).testBit i = tt.getLsbD (4 * (d.testBit i).toNat + 2 * (a.testBit i).toNat + (b.testBit i).toNat)) ∧
    two (.vshl o) 2 (fun a n => if n < w then a * 2 ^ n else 0) ∧ two (.vshr o) 2 (fun a n => if n < w then a / 2 ^ n else 0) ∧
    two (.vsar o) 2 (fun a n => ((if 2 ^ (w - 1) ≤ a then (a : Int) - 2 ^ w else a) / 2 ^ (min n w) % 2 ^ w).toNat) ∧
    own (.vfsh o sh) [(sh.toNat < w, 0x01)] 2 (fun _ a b => a * 2 ^ sh.toNat + b / 2 ^ (w - sh.toNat)) ∧
    one (.vpopc q) (fun a => ((List.range (Ty.bits q.ty)).filter (fun i => a.testBit i)).length) ∧
    (∃ f, one (.vclz q) f ∧ ∀ a, a < 2 ^ Ty.bits q.ty → f a ≤ Ty.bits q.ty ∧ (∀ i, Ty.bits q.ty - f a ≤ i → a.testBit i = false) ∧
      (f a < Ty.bits q.ty → a.testBit (Ty.bits q.ty - 1 - f a) = true)) ∧
    (∃ f g, two (.vclmulLo o) 4 f ∧ two (.vclmulHi o) 4 g ∧ ∀ a b i, a < 2 ^ w → b < 2 ^ w → i < w →
      (f a b).testBit i = ((List.range (i + 1)).foldl (fun p k => p != (a.testBit (i - k) && b.testBit k)) false) ∧
      (g a b).testBit i = ((List.range w).foldl (fun p k => p != (decide (k ≤ w + i) && (a.testBit (w + i - k) && b.testBit k))) false))

/-- O39 (R44, R45, R49, R225, R231 to R234). Conversions, comparisons, selection. VCVT converts the lanes that PART names, PART out of its
bound raises illegal-encoding; a comparison lands its mask bits, clears those at and beyond L, and under Z those of inactive lanes; the
ordered conditions on a NaN are invalid. -/
def Obligations.VectorConvertCompareSelect : Prop :=
  ∀ (s : State) (q : VOps1) (src : Ty) (part : BitVec 3) (rm : Rm) (md : BitVec 4) (va vb vd : VReg) (prd : Prd) (z : Bool) (ty : Ty)
    (cc : Cond) (m : BitVec 4) (o : VImm),
    let A := formatA s
    let Ls := Ty.lanes src
    let Ld := Ty.lanes q.ty
    let P := part.toNat
    let from' := fun (j : Nat) => if Ls < Ld then (if P * Ls ≤ j ∧ j < P * Ls + Ls then some (j - P * Ls) else none) else some (P * Ld + j)
    let row := (Sparse.get 0 (cur s).rows q.va.toNat).toNat
    let clamp := fun (v : Int) (fl lim : Flags) => if v < Ty.intMin q.ty then ((Ty.intMin q.ty % 2 ^ Ty.bits q.ty).toNat, lim)
      else if Ty.intMax q.ty < v then ((Ty.intMax q.ty % 2 ^ Ty.bits q.ty).toNat, lim) else ((laneWrap q.ty v).1, fl)
    let conv := fun (j i : Nat) =>
      let c := row / 2 ^ (Ty.bits src * i) % 2 ^ Ty.bits src
      let x := if Ty.isFloat src then decodeNum (fmtOf src A) c else numOfInt (laneInt src c)
      if Ty.isFloat q.ty then
        (if rm = .rs then roundStoch (fmtOf q.ty (formatB s)) x (draw (cur s).ve.seed.toNat (cur s).pid s.ctx.seq j / 256)
         else encodeNum (fmtOf q.ty (formatB s)) rm x)
      else if Ty.isFloat src then (match x with
        | .nan _ => (0, fINV)
        | .inf u => clamp (if u then Ty.intMin q.ty - 1 else Ty.intMax q.ty + 1) 0 (fSAT + fINX)
        | .fin u m e =>
          let r := roundRat rm u m 1 e
          clamp (if u then -(r.1 : Int) else r.1) (if r.2 then fINX else 0) (fSAT + fINX))
      else clamp (laneInt src c) 0 fSAT
    unlessFault s (.vcvt q src part rm) (vectorChecks s (q.ty == .nf || src == .nf) false q.prd q.ty [q.vd, q.va]
        [(P < (max Ls Ld) / (min Ls Ld), 0x01)])
      (landsLanes s (.vcvt q src part rm) 4 q.vd.toNat 1 q.ty
        (fun j => if anyActive s q.prd q.ty = true then (match from' j with
          | none => none
          | some i => if activeAt s q.prd q.ty j = true then some (conv j i).1 else if q.z = true then some 0 else none) else none)
        (fun b => ∃ j i, j < Ld ∧ from' j = some i ∧ activeAt s q.prd q.ty j = true ∧ (conv j i).2.testBit b = true)) ∧
    let compares := fun (i : Instr) (to' : Nat) (rows : List VReg) (p : Prd) (zz : Bool) (t : Ty) (chk : List (Prop × Nat))
        (hold : Nat → Bool × Flags) =>
      unlessFault s i (vectorChecks s (t == .nf) false p t rows chk)
        (∃ l, exec i s = .next (putAll s l) ∧
          (∀ x ∈ l, x = flightOf s 2 veSt x.eff ∧ ((∃ en v, x.eff = .mask to' en v) ∨ ∃ v, x.eff = .flags .ve v)) ∧
          (∀ b, b < 128 → maskPuts l to' b = if anyActive s p t = true then
            (if Ty.lanes t ≤ b then [false] else if activeAt s p t b = true then [(hold b).1] else if zz = true then [false] else []) else []) ∧
          (∀ b, raisesFlag l .ve b ↔ ∃ e, e < Ty.lanes t ∧ activeAt s p t e = true ∧ (hold e).2.testBit b = true))
    let holds := fun (t : Ty) (a b : Nat) => if Ty.isFloat t then
        let x := decodeNum (fmtOf t A) a
        let y := decodeNum (fmtOf t A) b
        let un := x.isNan || y.isNan
        let c := x.cmp y
        let ordered := cc = .lt ∨ cc = .le ∨ cc = .gt ∨ cc = .ge
        ((match cc with
          | .eq => !un && c == 0 | .ne => un || c != 0 | .lt => !un && c == -1 | .le => !un && c != 1 | .gt => !un && c == 1
          | .ge => !un && c != -1 | .un => un | .or => !un),
         if (ordered ∧ un = true) ∨ (x.isSig || y.isSig) = true then fINV else 0)
      else ((match cc with
          | .eq => decide (laneInt t a = laneInt t b) | .ne => decide (laneInt t a ≠ laneInt t b)
          | .lt => decide (laneInt t a < laneInt t b) | .le => decide (laneInt t a ≤ laneInt t b)
          | .gt => decide (laneInt t b < laneInt t a) | .ge => decide (laneInt t b ≤ laneInt t a) | .un => false | .or => true), 0)
    compares (.vcmp md va vb prd z ty cc) md.toNat [va, vb] prd z ty []
      (fun e => holds ty (elem s ty va.toNat e) (elem s ty vb.toNat e)) ∧
    compares (.vcmpImm o cc) (o.vd.toNat % 16) [o.vd] o.prd o.z o.ty [(immediateType o.ty, 0x01)]
      (fun e => holds o.ty (elem s o.ty o.vd.toNat e) (immediate o.ty o.imm e)) ∧
    landsLanes s (.vsel vd va vb m ty) 2 vd.toNat 1 ty
      (fun e => if s.ctx.active = true then
        some (if (Sparse.get 0 (cur s).masks m.toNat).getLsbD e = true then elem s ty va.toNat e else elem s ty vb.toNat e) else none)
      (fun _ => False)

/-- O40 (R220, R223, R238 to R242). Commands across lanes: permutation, broadcast, index, reductions, scans, the compare-exchange step and
compression, with their landing delays. -/
def Obligations.VectorAcrossLanes : Prop :=
  ∀ (s : State) (o : VOps) (q : VOps1) (rm : Rm) (lane : BitVec 7) (vd va : VReg) (prd : Prd) (z : Bool) (ty : Ty) (j k : BitVec 4) (dsc : Bool),
    let A := formatA s
    let put := fun (t : Ty) (v : Machine.Num) => encodeNum (fmtOf t (formatB s)) rm v
    let n := groupOf s q.prd q.ty * Ty.lanes q.ty
    let act := activeAt s q.prd q.ty
    let at' := elem s q.ty q.va.toNat
    let live := ((List.range n).filter act).map at'
    let sum := fun (l : List Nat) => if Ty.isFloat q.ty then
        (if l = [] then put q.ty (.fin false 0 0) else put q.ty (sumNum false (l.map (decodeNum (fmtOf q.ty A)))))
      else laneWrap q.ty ((l.map (laneInt q.ty)).foldl (fun a b => a + b) 0)
    let reduces := fun (i : Instr) (f : List Nat → Nat × Flags) =>
      unlessFault s i (vectorChecks s (q.ty == .nf) true q.prd q.ty [q.va] [])
        (landsLanes s i 8 q.vd.toNat 1 q.ty
          (fun e => if anyActive s q.prd q.ty = true then (if e = 0 then some (f live).1 else if q.z = true then some 0 else none) else none)
          (fun b => anyActive s q.prd q.ty = true ∧ (f live).2.testBit b = true))
    laneWise s (.vperm o) false false o.vd [o.va, o.vb] o.prd o.z o.ty [] 3
      (fun e => (elem s o.ty o.va.toNat (elem s o.ty o.vb.toNat e % Ty.lanes o.ty), 0)) ∧
    laneWise s (.vbcst q lane) false false q.vd [q.va] q.prd q.z q.ty [(lane.toNat < Ty.lanes q.ty, 0x01)] 3
      (fun _ => (elem s q.ty q.va.toNat lane.toNat, 0)) ∧
    laneWise s (.viota vd prd z ty) false true vd [] prd z ty [] 2 (fun e => (e, 0)) ∧
    reduces (.vredAdd q rm) sum ∧
    (Ty.isFloat q.ty = false →
      reduces (.vredMin q rm) (fun l => laneWrap q.ty ((l.map (laneInt q.ty)).foldl min (laneInt q.ty (l.headD 0)))) ∧
      reduces (.vredMax q rm) (fun l => laneWrap q.ty ((l.map (laneInt q.ty)).foldl max (laneInt q.ty (l.headD 0))))) ∧
    (Ty.isFloat q.ty = true →
      let pick := fun (mx : Bool) (l : List Nat) =>
        let xs := l.map (decodeNum (fmtOf q.ty A))
        let v := (xs.drop 1).foldl (pickFloat mx) (xs.headD (.fin false 0 0))
        let r := put q.ty (if v.isNan then .nan false else v)
        (r.1, r.2 ||| (if xs.any Num.isSig then fINV else 0))
      reduces (.vredMin q rm) (pick false) ∧ reduces (.vredMax q rm) (pick true)) ∧
    laneWise s (.vscanInc q rm) (q.ty == .nf) true q.vd [q.va] q.prd q.z q.ty [] 8
      (fun e => sum (((List.range (e + 1)).filter act).map at')) ∧
    laneWise s (.vscanExc q rm) (q.ty == .nf) true q.vd [q.va] q.prd q.z q.ty [] 8
      (fun e => sum (((List.range e).filter act).map at')) ∧
    (let L := Ty.lanes ty
     let key := elem s ty va.toNat
     let pay := elem s ty (va.toNat + 2)
     let less := fun (a b : Nat) => if Ty.isFloat ty then (decodeNum (fmtOf ty A) a).below (decodeNum (fmtOf ty A) b)
       else decide (laneInt ty a < laneInt ty b)
     let partner := fun (i : Nat) => if i / 2 ^ j.toNat % 2 = 1 then i - 2 ^ j.toNat else i + 2 ^ j.toNat
     let low := fun (i : Nat) => if i / 2 ^ j.toNat % 2 = 1 then i - 2 ^ j.toNat else i
     let swaps := fun (i : Nat) => if (low i / 2 ^ k.toNat % 2 = 0) ↔ dsc = false then less (key (low i + 2 ^ j.toNat)) (key (low i))
       else less (key (low i)) (key (low i + 2 ^ j.toNat))
     let src := fun (i : Nat) => if swaps i = true then partner i else i
     unlessFault s (.vstep vd va j k ty dsc)
       [(ty = .nf → (cur s).fq ≠ [], 0x05), (ty = .nf → nfValid A = true ∧ nfValid (formatB s) = true, 0x01),
        (vd.toNat + 4 ≤ 512 ∧ va.toNat + 4 ≤ 512, 0x01), (j.toNat < k.toNat ∧ 2 ^ k.toNat ≤ 2 * L, 0x01)]
       (landsLanes s (.vstep vd va j k ty dsc) 4 vd.toNat 4 ty
         (fun i => if s.ctx.active = true then (if i < 2 * L then some (key (src i)) else some (pay (src (i - 2 * L)))) else none)
         (fun _ => False))) ∧
    unlessFault s (.vcmpr q) (vectorChecks s false false q.prd q.ty [q.vd, q.va] [])
      (landsLanes s (.vcmpr q) 3 q.vd.toNat 1 q.ty
        (fun e => if anyActive s q.prd q.ty = true then (if e < live.length then some (live.getD e 0) else if q.z = true then some 0 else none)
          else none)
        (fun _ => False))

/-- O41 (R98, R220, R244). Masks and count predicates: bitwise results of whole masks, the population count of the lowest L bits, and a
count that KSET takes up to 6 L; an idle command writes nothing. -/
def Obligations.MaskAndCountCommands : Prop :=
  ∀ (s : State) (md ma mb : BitVec 4) (kd : BitVec 3) (vd : VReg) (imm : BitVec 16) (ty : Ty),
    let g := fun (m : BitVec 4) => Sparse.get 0 (cur s).masks m.toNat
    let L := Ty.lanes ty
    let count := ((List.range L).filter (fun b => (g ma).getLsbD b)).length
    let masks := fun (i : Instr) (f : Nat → Bool) =>
      (s.ctx.active = true → ∃ v, exec i s = .next (posts s 2 veSt (.mask md.toNat (BitVec.allOnes 128) v)) ∧ ∀ b, b < 128 → v.getLsbD b = f b) ∧
      (s.ctx.active = false → exec i s = .next s)
    let counts := fun (i : Instr) (n : Nat) =>
      (s.ctx.active = true → ∃ v, exec i s = .next (posts s 2 veSt (.kpred kd.toNat v)) ∧ v.cnt.toNat = n % 1024 ∧ 8 * 2 ^ v.wid.toNat = Ty.bits ty) ∧
      (s.ctx.active = false → exec i s = .next s)
    masks (.mand md ma mb) (fun b => (g ma).getLsbD b && (g mb).getLsbD b) ∧
    masks (.mor md ma mb) (fun b => (g ma).getLsbD b || (g mb).getLsbD b) ∧
    masks (.mxor md ma mb) (fun b => (g ma).getLsbD b != (g mb).getLsbD b) ∧
    masks (.mnot md ma) (fun b => !(g ma).getLsbD b) ∧
    landsLanes s (.mpop vd ma ty) 2 vd.toNat 1 ty
      (fun e => if s.ctx.active = true then (if e = 0 then some count else some 0) else none) (fun _ => False) ∧
    counts (.kmsk kd ma ty) count ∧
    (imm.toNat ≤ 6 * L → counts (.kset kd imm ty) imm.toNat) ∧
    (6 * L < imm.toNat → exec (.kset kd imm ty) s = .next (faults s 0x01 0 []))

/-- O42 (R14, R17, R18, R111, R215, R221, R223, R245, R247, R248, R263). VLD, VST and VCST at their issue: the offset lies below 2^18 and is a multiple of 128; a VST or VCST
into an open receive window raises permission. VLD reads its 128 bytes in the next cycle, which land span + 3 cycles after issue; VST
writes its row span + 2 cycles after issue, inactive lanes as zeros under Z and else not; VCST packs its active elements at the queue
pointer, advances it and counts them, or sets its overflow bit. In each cycle such a command, like an MLDA or MSTA, makes its uses of
ports and its placements, or schedule-miss stops the core: cause 3 for a port already used, 1 for a runner's place already taken, 2 for a
tap that finds nothing; the row that a block places is the one that it read the cycle before. A VLD row is read, and an MSTA row taken,
in the cycle that its plan names. That a VCST with Z = 1 is accepted, and Z without effect, is the model's reading (log 88). -/
def Obligations.RingMemoryCommands : Prop :=
  ∀ (s : State) (o : VMem) (vd : VReg) (blk : Blk) (run : Run) (prd : Prd) (z : Bool) (ty : Ty) (qp : BitVec 2),
    let b := o.blk.val
    let off := (rd s o.sa).toNat
    let a := b * 2 ^ 18 + off
    let form := off < 2 ^ 18 ∧ off % 128 = 0
    let size := Ty.size o.ty
    let act := activeAt s o.prd o.ty
    let any := anyActive s o.prd o.ty
    let r := o.run.toNat
    let span := fun (r src dst : Nat) => if r < 4 then (dst + 12 - src) % 12 else (src + 12 - dst) % 12
    let sp := span r (2 * b + 1) 4
    let wp := span r 4 (2 * b + 1)
    unlessFault s (.vld o) (vectorChecks s false false o.prd o.ty [o.vd] [(form, 0x08)])
      (∃ en zero : BitVec 128, (∀ i, i < 128 → en.getLsbD i = act (i / size) ∧ zero.getLsbD i = (any && o.z && !act (i / size))) ∧
        exec (.vld o) s = .next (begins s (progress s (.plan ((if any = true then [(1, .rowIn a o.vd.toNat en zero (3 + sp))] else []) ++
          [(1, .read b a), (2, .place (2 * b + 1) sp .last), (2 + sp, .tap veSt)])) veSt r 20 none))) ∧
    (let j := progress s (.plan [(1, .place 4 wp .last), (2 + wp, .write b)]) veSt r 20 none
     unlessFault s (.vst o) (vectorChecks s false false o.prd o.ty [o.vd] [(form, 0x08), (¬ shut s a 128, 0x08)])
      (if any = true then ∃ en v, exec (.vst o) s = .next (posts (begins s j) (2 + wp) veSt (.spad a 128 en v none)) ∧
          (∀ i, i < 128 → en.testBit i = (o.z || act (i / size))) ∧ v < 2 ^ 1024 ∧
          ∀ i, i < 128 → v / 256 ^ i % 256 = if act (i / size) = true then (Sparse.get 0 (cur s).rows o.vd.toNat).toNat / 256 ^ i % 256 else 0
        else exec (.vst o) s = .next (begins s j))) ∧
    (let q := (Sparse.get 0 (cur s).qps qp.toNat).toNat
     let ptr := q % 2 ^ 21
     let stopAddr := q / 2 ^ 21 % 2 ^ 21
     let w := Ty.size ty
     let vb := blk.val
     let sp := span run.toNat 4 (2 * vb + 1)
     let j := progress s (.plan [(3, .place 4 sp .last), (4 + sp, .write vb)]) veSt run.toNat 20 none
     let live := ((List.range (Ty.lanes ty)).filter (activeAt s prd ty)).map (elem s ty vd.toNat)
     let n := min live.length ((stopAddr - ptr) / w)
     unlessFault s (.vcst vd blk run prd z ty qp) (vectorChecks s false false prd ty [vd]
        [(ptr / 2 ^ 18 = vb ∧ stopAddr / 2 ^ 18 = vb ∧ ptr ≤ stopAddr ∧ ptr % w = 0 ∧ stopAddr % w = 0 ∧ ¬ shut s ptr (stopAddr - ptr), 0x08)])
      (if anyActive s prd ty = true then
        ∃ p v, exec (.vcst vd blk run prd z ty qp) s =
            .next (posts (posts (begins s j) 3 veSt (.qp qp.toNat p)) (4 + sp) veSt (.spad ptr 128 (2 ^ (n * w) - 1) v none)) ∧
          p.toNat % 2 ^ 21 = ptr + n * w ∧ p.toNat / 2 ^ 21 % 2 ^ 21 = stopAddr ∧ p.toNat / 2 ^ 42 % 2 ^ 8 = n ∧
          p.toNat / 2 ^ 50 % 2 ^ 13 = 0 ∧
          (p.getLsbD 63 = true ↔ q / 2 ^ 63 % 2 = 1 ∨ n < live.length) ∧
          (∀ e, e < n → v / 2 ^ (8 * w * e) % 2 ^ (8 * w) = live.getD e 0)
        else exec (.vcst vd blk run prd z ty qp) s = .next (begins s j))) ∧
    ∀ (k : Nat) (p : Job) (ops : List (Nat × Micro)) (t : Nat), p.kind = .plan ops →
      let c := getCore s k
      let now := (ops.filter (fun x => x.1 = t)).map Prod.snd
      let stops := fun (u : State) (cause : Nat) => c.stop = none → ∃ y, (getCore u k).stop = some y ∧ y.code = 0x02 ∧ y.cause = cause
      let portOf := fun (b : Nat) (row : Option Row) => PortUse.mk b p.stream p.seq p.issue p.remote row p.evt
      let taken := fun (st : Nat) => ∃ v ∈ c.runners, v.run = p.run ∧ v.station = st
      let puts' := fun (src span : Nat) (leg : Leg) (row : Option Row) => modCore s k (fun c => countEvent
        { c with runners := c.runners ++ [⟨p.run, src, span, p.stream, p.seq, p.issue, none, leg, row, p.evt⟩] } 8 p.stream 1)
      (c.dcc - p.issue = t → staticCycle s k p = now.foldl (fun u x => doStatic u k p t x) s) ∧
      (∀ b a, ((∀ v ∈ c.portReads, v.block ≠ b) → doStatic s k p t (.read b a) =
          (let row := if p.active = true then some (BitVec.ofNat 1024 (Memory.readNat c.spad (a / 128 * 128) 128)) else none
           modCore s k (fun c => { c with portReads := portOf b row :: c.portReads }))) ∧
        ((∃ v ∈ c.portReads, v.block = b) → stops (doStatic s k p t (.read b a)) 3)) ∧
      (∀ b, ((∀ v ∈ c.portWrites, v.block ≠ b) →
          doStatic s k p t (.write b) = modCore s k (fun c => { c with portWrites := portOf b none :: c.portWrites })) ∧
        ((∃ v ∈ c.portWrites, v.block = b) → stops (doStatic s k p t (.write b)) 3)) ∧
      (∀ src span leg, (¬ taken src → ∃ row, doStatic s k p t (.place src span leg) = puts' src span leg row ∧ (p.active = false → row = none) ∧
          (p.active = true → src % 2 = 1 → ∀ u, c.readRows = [u] → u.stream = p.stream → u.seq = p.seq → u.block = src / 2 → row = u.row)) ∧
        (taken src → stops (doStatic s k p t (.place src span leg)) 1)) ∧
      (∀ src span row, (¬ taken src → doStatic s k p t (.placeRow src span row) = puts' src span .last (if p.active = true then row else none)) ∧
        (taken src → stops (doStatic s k p t (.placeRow src span row)) 1)) ∧
      (∀ st, (taken st → doStatic s k p t (.tap st) = s) ∧ (¬ taken st → stops (doStatic s k p t (.tap st)) 2)) ∧
      (let takes := now.filter (fun x => match x with | .rowIn .. | .rowOut .. => true | _ => false)
       (takes = [] → sampleCycle s k p t = .ok s p) ∧
       (∀ a r en zero land, takes = [.rowIn a r en zero land] → ∃ v : Row,
         sampleCycle s k p t = .ok (puts s k p land r (.row r (en ||| zero) v .plain)) p ∧
         ∀ i, i < 128 → v.toNat / 256 ^ i % 256 = if zero.getLsbD i = true then 0 else (Memory.read c.spad (a + i)).toNat) ∧
       (∀ r a land, takes = [.rowOut r a land] → sampleCycle s k p t =
         .ok (puts s k p land r (.spad a 128 (2 ^ 128 - 1) (Sparse.get 0 c.rows r).toNat p.lc)) p))

/-- O43 (R70, R74, R84, R91, R223, R246). The orbit forms of VLD and VST: the entry must be valid, Z 0, the entry's base in the named
block, every active lane's linear index within the extents, a VST's representatives outside every open receive window, and, last, the type
the entry's. A VLD
samples in the cycle 17 after issue and lands each active lane's element span + 19 cycles after issue, its slot's code with the index's
character; with no active lane it lands nothing. A VST places its row, zero in inactive lanes; its representatives land together, or its
violation is raised in their cycle. The flags of its representatives land with them. -/
def Obligations.OrbitRingMemoryCommands : Prop :=
  ∀ (s : State) (o : VMem) (y : BitVec 4),
    let e := getSy (cur s) y.toNat
    let d := e.desc
    let base := (rd s o.sa).toNat
    let act := activeAt s o.prd o.ty
    let checks : List (Prop × Nat) := (e.valid = true, 0x01) :: (vectorChecks s false false o.prd o.ty [o.vd]
      [(o.z = false, 0x01), (symSpad d = true ∧ symBase d / 2 ^ 18 % 8 = o.blk.val, 0x08),
       (∀ j, j < Ty.lanes o.ty → act j = true → (unlinear d (base + j)).isSome = true, 0x08)])
    let det := symDetail y.toNat 0 s.ctx.seq ⟨0x0B, 3, 0, [], none⟩
    let b := o.blk.val
    let r := o.run.toNat
    let sp := spanOf r 4 (2 * b + 1)
    let ms : List (List Nat × Nat) := ((List.range (Ty.lanes o.ty)).filter act).map (fun j =>
      ((unlinear d (base + j)).getD [], elem s o.ty o.vd.toNat j))
    let z := symSize d
    let any := anyActive s o.prd o.ty
    let plan := fun (row : Option Row) => begins s (progress s (.plan [(1, .placeRow 4 sp row), (18 + sp, .write b)]) veSt r 40 none)
    let free := ∀ q ∈ ranksOf d ms, ¬ shut s (slotAddr d q) z
    (∀ l r p c, checks = l ++ (p, c) :: r → (∀ x ∈ l, x.1) → ¬ p →
      exec (.vldOrb o y) s = .next (faults s c 0 []) ∧ exec (.vstOrb o y) s = .next (faults s c 0 [])) ∧
    ((∀ x ∈ checks, x.1) → ¬ free → exec (.vstOrb o y) s = .next (faults s 0x08 0 [])) ∧
    ((∀ x ∈ checks, x.1) → symTy d ≠ o.ty →
      exec (.vldOrb o y) s = .next (faults s 0x0B 0 det) ∧ (free → exec (.vstOrb o y) s = .next (faults s 0x0B 0 det))) ∧
    ((∀ x ∈ checks, x.1) → symTy d = o.ty →
      (∃ en : BitVec 128, (∀ i, i < 128 → en.getLsbD i = act (i / Ty.size o.ty)) ∧
        exec (.vldOrb o y) s = .next (begins s (progress s (.vldSy o.vd.toNat y.toNat d en 0
          ((List.range (Ty.lanes o.ty)).map (fun j => if act j = true then base + j + 1 else 0)) o.ty) veSt r 40 none))) ∧
      (free → ∃ row : Option Row, (any = false → row = none) ∧
        (any = true → ∃ w : Row, row = some w ∧ ∀ i, i < 128 → w.toNat / 256 ^ i % 256 =
          if act (i / Ty.size o.ty) = true then (Sparse.get 0 (cur s).rows o.vd.toNat).toNat / 256 ^ i % 256 else 0) ∧
        (∀ f, foldStore d false ms = .error f → exec (.vstOrb o y) s = .next (posts (plan row) (18 + sp) veSt
          (.raise f.code 0 (symDetail y.toNat 0 s.ctx.seq f ++ [packTuple (f.two.getD []) 0, packTuple (f.two.getD []) 4]) 0))) ∧
        (∀ items forced, foldStore d false ms = .ok (items, forced) →
          ∃ fl, exec (.vstOrb o y) s = .next (postsAll (plan row)
            (items.map (fun i => (18 + sp, veSt, .spad i.pos z (2 ^ z - 1) i.val none)) ++
              (if forced = true then [(18 + sp, veSt, .symForce)] else []) ++ fl)) ∧
            (∀ x ∈ fl, ∃ v, x = (18 + sp, veSt, .flags .ve v)) ∧
            ∀ b, (∃ x ∈ fl, ∃ v, x.2.2 = .flags .ve v ∧ v.testBit b = true) ↔ ∃ i ∈ items, i.fl.testBit b = true))) ∧
    ∀ (k : Nat) (j : Job) (v ye : Nat) (D : BitVec 512) (en : BitVec 128) (q : Nat) (idx : List Nat) (ty : Ty) (t : Nat),
      j.kind = .vldSy v ye D en q idx ty → symTy D = ty → idx.length = Ty.lanes ty →
      let land := 19 + spanOf j.run (2 * (symBase D / 2 ^ 18 % 8) + 1) 4
      let x := fun (l : Nat) => (unlinear D (idx.getD l 0 - 1)).getD []
      let code := fun (l : Nat) => Memory.readNat (getCore s k).spad (symBase D + (canon D (x l)).1 * symSize D) (symSize D)
      (t ≠ 17 ∨ en = 0 → sampleCycle s k j t = .ok s j) ∧
      (t = 17 → en ≠ 0 → ∃ (w : Row) (fl : Flags),
        sampleCycle s k j t = .ok (putsFlags (puts s k j land 0 (.row v en w .plain)) k j land 1 .ve fl) j ∧
        (∀ l, l < Ty.lanes ty → w.toNat / 2 ^ (Ty.bits ty * l) % 2 ^ Ty.bits ty =
          if idx.getD l 0 = 0 then 0 else (expanded D (x l) (code l)).1 % 2 ^ Ty.bits ty) ∧
        ∀ f, fl.testBit f = true ↔ ∃ l, l < Ty.lanes ty ∧ idx.getD l 0 ≠ 0 ∧ (expanded D (x l) (code l)).2.testBit f = true)

-- The contraction engine ----------------------------------------------------------------------------------------------------------------------

/-- O44 (R13, R82, R193, R215, R250, R261 to R263). Slots and tile moves: MCLM claims a FREE slot, MREL frees one that is not, else
crucible-state; MZERO lands zeros in 32 rows after 2 cycles, MTRN the transposed tile of 32 x 32 four-byte elements after 36; MLDA and MSTA
move 32 rows of 128 bytes from or to a block, one a cycle, at an offset that is a multiple of 128 and leaves room, else permission. -/
def Obligations.SlotAndTileCommands : Prop :=
  ∀ (s : State) (ca : BitVec 5) (td ts : BitVec 4) (sr : SReg) (blk : Blk) (run : Run),
    let st := (getSlot (cur s) ca.toNat).st
    let idle := fun (i : Instr) (t : State) => (s.ctx.active = true → exec i s = .next t) ∧ (s.ctx.active = false → exec i s = .next s)
    (st = .free → idle (.mclm ca) (posts s 1 ceSt (.slotSt ca.toNat .claimed))) ∧
    (st ≠ .free → exec (.mclm ca) s = .next (faults s 0x03 0 [])) ∧
    (st ≠ .free → idle (.mrel ca) (posts s 1 ceSt (.slotSt ca.toNat .free))) ∧
    (st = .free → exec (.mrel ca) s = .next (faults s 0x03 0 [])) ∧
    idle (.mzero td) (postsAll s ((List.range 32).map (fun i => (2, ceSt, .row (32 * td.toNat + i) (BitVec.allOnes 128) 0 .zero)))) ∧
    (∃ f : Nat → Row, idle (.mtrn td ts) (postsAll s ((List.range 32).map (fun i =>
        (36, ceSt, .row (32 * td.toNat + i) (BitVec.allOnes 128) (f i) (.trn (Sparse.get 2 (cur s).tags ts.toNat)))))) ∧
      ∀ i j, i < 32 → j < 32 → (f i).toNat / 2 ^ (32 * j) % 2 ^ 32 =
        (Sparse.get 0 (cur s).rows (32 * ts.toNat + j)).toNat / 2 ^ (32 * i) % 2 ^ 32) ∧
    (let off := (rd s sr).toNat
     let b := blk.val
     let a := b * 2 ^ 18 + off
     let form := off % 128 = 0 ∧ off + 4096 ≤ 2 ^ 18
     let sp := if run.toNat < 4 then (2 + 12 - (2 * b + 1)) % 12 else (2 * b + 1 + 12 - 2) % 12
     let tp := if run.toNat < 4 then (2 * b + 1 + 12 - 2) % 12 else (2 + 12 - (2 * b + 1)) % 12
     unlessFault s (.mlda td sr blk run) [(form, 0x08)] (exec (.mlda td sr blk run) s = .next (begins s (progress s
       (.plan ((List.range 32).flatMap (fun i => [(2 + i, .place (2 * b + 1) sp .last), (1 + i, .read b (a + 128 * i)),
         (2 + i + sp, .tap ceSt), (1 + i, .rowIn (a + 128 * i) (32 * td.toNat + i) (BitVec.allOnes 128) 0 (3 + i + sp))]))) ceSt run.toNat (34 + sp) none))) ∧
     unlessFault s (.msta td sr blk run) [(form, 0x08), (¬ shut s a 4096, 0x08)] (exec (.msta td sr blk run) s = .next (begins s (progress s
       (.plan ((List.range 32).flatMap (fun i => [(1 + i, .place 2 tp .last), (i, .rowOut (32 * td.toNat + i) (a + 128 * i) (2 + i + tp)),
         (2 + i + tp, .write b)]))) ceSt run.toNat (34 + tp) none))))

/-- O45 (R39, R40, R52, R80, R149, R250 to R260). MMA and MMAS: an empty format queue raises fq-underflow, a bad nf word, a class's own
condition illegal-encoding; an active command then needs FULL slots, or schedule-miss cause 4, and shapes that fit, or shape. The command
takes the format word, idle too, and counts as one event 4; its products, of row i of A with column j of B over the kept rows k, are taken up at issue, and the
accumulator is sampled 8 cycles after. That a zero negated under mode g or x is -0 in a narrow format too is the model's choice (log 99). -/
def Obligations.TileProductCommands : Prop :=
  ∀ (s : State) (o : MmaOps) (pm : BitVec 3) (keep4 : Bool),
    let c := cur s
    let slot := fun (n : Nat) => getSlot c n
    let turned := fun (m : ReadMode) => m = .t ∨ m = .x
    let minus := fun (m : ReadMode) => m = .g ∨ m = .x
    let rowsIn := fun (sl : Slot) (m : ReadMode) => if turned m then sl.cols else sl.rows
    let colsIn := fun (sl : Slot) (m : ReadMode) => if turned m then sl.rows else sl.cols
    let a := o.ca.toNat
    let b := o.cb.toNat
    let elemIn := fun (n d : Nat) (m : ReadMode) (i k : Nat) =>
      let r := if turned m then k else i
      let q := if turned m then i else k
      let code := (Sparse.get 0 c.cruc (32 * n + r)).toNat / 2 ^ (Ty.bits o.ty * q) % 2 ^ Ty.bits o.ty
      let x := if Ty.isFloat o.ty then (decodeNum (fmtOf o.ty d) code).scale (if o.ty = .nf then nfScale d else 0)
        else numOfInt (laneInt o.ty code)
      if minus m then x.neg else x
    let M := if o.ty = .f64 then 16 + rowsIn (slot (a + 1)) o.rma else rowsIn (slot a) o.rma
    let K := colsIn (slot a) o.rma
    let A := fun (i k : Nat) => if o.ty = .f64 ∧ 16 ≤ i then elemIn (a + 1) (formatA s) o.rma (i - 16) k else elemIn a (formatA s) o.rma i k
    let KB := rowsIn (slot b) o.rmb
    let N := colsIn (slot b) o.rmb
    let kmax := if o.ty = .nf ∨ o.ty = .i8 ∨ o.ty = .n8 then 64 else if o.ty = .f32 ∨ o.ty = .f64 then 16 else 32
    let full := (slot a).st = .full ∧ (slot b).st = .full ∧ (o.ty = .f64 → (slot (a + 1)).st = .full)
    let shapes := fun (keep : Nat) => (slot a).ty = o.ty ∧ (slot b).ty = o.ty ∧ M ≤ 32 ∧ K ≤ kmax ∧ KB ≤ kmax ∧
      N ≤ (if o.ty = .f64 then 16 else 32) ∧ K * 8 = KB * keep ∧ (keep ≠ 8 → KB % 8 = 0) ∧
      (o.ty = .f64 → (slot (a + 1)).ty = .f64 ∧ rowsIn (slot a) o.rma = 16 ∧ colsIn (slot (a + 1)) o.rma = K)
    let products := fun (i : Instr) (own : Prop) (keep : Nat) (sel : Nat → List Nat) (tag : BitVec 2) =>
      let word := (cur s).fq ≠ [] ∧ (o.ty = .nf → nfValid (formatA s) = true ∧ nfValid (formatB s) = true) ∧ own
      let popped := modCur s (fun c => countEvent { c with fq := c.fq.drop 1 } 4 .ce 1)
      ((cur s).fq = [] → exec i s = .next (faults s 0x05 0 [])) ∧
      ((cur s).fq ≠ [] → ¬ word → exec i s = .next (faults s 0x01 0 [])) ∧
      (word → s.ctx.active = true → ¬ full → exec i s = .next (faults s 0x02 4 [])) ∧
      (word → s.ctx.active = true → full → ¬ shapes keep → exec i s = .next (faults s 0x04 0 [])) ∧
      (word → s.ctx.active = true → full → shapes keep → exec i s = .next (posts popped 8 ceSt (.mmaAcc o.td.toNat o.ty o.sat
        ((List.range M).map (fun i => (List.range K).map (A i)))
        ((List.range N).map (fun j => (List.range KB).map (fun k => elemIn b (formatB s) o.rmb k j))) ((List.range M).map sel) tag))) ∧
      (word → s.ctx.active = false → exec i s = .next popped)
    products (.mma o) (o.ty = .f64 → a ≠ 31 ∧ ¬ turned o.rma ∧ b ≠ a ∧ b ≠ a + 1) 8 (fun _ => List.range K)
      (productTag o.ca o.cb o.rma o.rmb) ∧
    (let n := if keep4 = true then 4 else 2
     let idx := fun (i q : Nat) => (Sparse.get 0 c.pm (8 * pm.toNat + i / 8)).toNat / 2 ^ (128 * (i % 8)) % 2 ^ 128 / 2 ^ (3 * q) % 8
     products (.mmas o pm keep4) (o.ty ≠ .f32 ∧ o.ty ≠ .f64 ∧ ¬ turned o.rma) n
       (fun i => (List.range K).map (fun q => 8 * (q / n) + idx i q)) 0)

/-- O46 (R50, R51, R256). Where a tile command samples its accumulators: element (i, j) of the tile takes up the products of row i of A with
the rows of column j of B that the command keeps, as its class adds them (one exact sum rounded once, groups of four, one product at a time,
or integers that wrap or saturate), and lands 32 cycles on; every row of A lands one row, and the flags that any element raises land
with them. -/
def Obligations.TileSamplesAccumulate : Prop :=
  ∀ (s : State) (k t : Nat) (ty : Ty) (sat : Bool) (f : Flight) (a b : List (List Machine.Num)) (sel : List (List Nat)) (tag : BitVec 2),
    let w := if ty = .f64 then 64 else 32
    f.eff = .mmaAcc t ty sat a b sel tag → a.length ≤ 32 → w * b.length ≤ 1024 →
    ∃ (v : Nat → Row) (fl : Nat → Nat → Flags) (u : Flags),
      let e := fun (i : Nat) => Effect.row (32 * t + i) (BitVec.ofNat 128 (2 ^ (w / 8 * b.length) - 1)) (v i) (.prod tag)
      let s' := (List.range a.length).foldl (fun s i => addFlight s k { f with at' := f.at' + 32, sub := i, eff := e i }) s
      sampleMma s k f = (if u = 0 then s' else addFlight s' k { f with at' := f.at' + 32, sub := 32, eff := .flags .ce u }) ∧
      (∀ n, u.testBit n = true ↔ ∃ i j, i < a.length ∧ j < b.length ∧ (fl i j).testBit n = true) ∧
      ∀ i j, i < a.length → j < b.length →
        let ai := a.getD i []
        let none' := Machine.Num.fin false 0 0
        let term := fun (q : Nat) => (ai.getD q none').mul ((b.getD j []).getD ((sel.getD i []).getD q 0) none')
        ((v i).toNat / 2 ^ (w * j) % 2 ^ w, fl i j) =
          accumulate ty sat ((getRow (getCore s k) (32 * t + i)).toNat / 2 ^ (w * j) % 2 ^ w) ((List.range ai.length).map term)

/-- O47 (R70, R91, R104, R164, R264 to R267, R356). Orbit contraction at its issue: OCONP without its feature bit raises illegal-encoding;
b1 or an entry that is not valid does too; then the types, then the match of the entries raise symmetry-claim; then OCONP's cell decides
as an atomic's address does. The walk of n orbits lands its result 48 + n cycles after issue, or 1,328 + n where an array lies in device
memory. A permission fault's DETAIL words are the model's choice (log 26), and so is that the cell's add spends its credit at issue (log 100); a
physical address beyond 39 bits stops the model (log 56). -/
def Obligations.OrbitContractionsStart : Prop :=
  ∀ (s : State) (row : VReg) (ya yb : BitVec 4) (sr : SReg) (t : Ty),
    let ea := getSy (cur s) ya.toNat
    let eb := getSy (cur s) yb.toNat
    let n := orbitCount ea.desc eb.desc
    let mem := symSpad ea.desc = false ∨ symSpad eb.desc = false
    let last := if n ≠ 0 ∧ mem then 1328 + n else 48 + n
    let legal := t ≠ .b1 ∧ ea.valid = true ∧ eb.valid = true
    let typed := symTy ea.desc = t ∧ symTy eb.desc = t
    let fits := symMatch ea.desc eb.desc = true
    let det := fun (find : Nat) => symDetail ya.toNat yb.toNat s.ctx.seq ⟨0x0B, find, 0, [], none⟩
    let i := Instr.ocon row ya yb t
    let p := Instr.oconp ya yb sr t
    let on := (Sparse.get 0 (getPkg s (pkgOf s.ctx.core)).featActive (partOfCore s s.ctx.core + 1)).getLsbD 4 = true
    let walk := fun (u : State) (r cell : Option Nat) =>
      begins u (progress u (.walk ya.toNat yb.toNat ea.desc eb.desc r cell t) ceSt 0 last none)
    (¬ on → exec p s = .next (faults s 0x01 0 [])) ∧
    (¬ legal → exec i s = .next (faults s 0x01 0 []) ∧ (on → exec p s = .next (faults s 0x01 0 []))) ∧
    (legal → ¬ typed → exec i s = .next (faults s 0x0B 0 (det 3)) ∧ (on → exec p s = .next (faults s 0x0B 0 (det 3)))) ∧
    (legal → typed → ¬ fits → exec i s = .next (faults s 0x0B 0 (det 2)) ∧ (on → exec p s = .next (faults s 0x0B 0 (det 2)))) ∧
    (legal → typed → fits → exec i s = .next (walk s (some row.toNat) none) ∧
      (on → s.ctx.active = false → exec p s = .next (walk s none none)) ∧
      (on → s.ctx.active = true → let x := (rd s sr).toNat
        let u := watched s x 64 6
        (∀ y, requestOutcome s x 64 64 6 [3] = some y → exec p s = .next (faults y.seen y.code 0 y.detail)) ∧
        (requestOutcome s x 64 64 6 [3] = none → (∀ key, accessOutcome s x [3] = .reaches key →
            exec p s = .next (walk (requestNow u ceSt) none (some key))) ∧
          (accessOutcome s x [3] = .nowhere → exec p s = .next { u with dead := true }))))

/-- O48 (R73, R75, R76, R79, R83 to R86). Symmetric storage. A block's tuple maps to its rank, slot count, character and forced zero as R73's table
has it, for SYM and ASYM through the sorted tuple; Canon takes block 0 as the highest digit and the free dimensions innermost; the weight of
an orbit is the product of its blocks' multiplicities, and no orbit contributes unless kinds and sigmas agree. A grouped store meets first a
nonzero write to a forced zero, then the orbits in rank order, and writes for each touched orbit the representative that SMODE decides:
under AVG the exact mean rounded once, of a floating type with a NaN or unlike infinities the canonical NaN, with an infinity that infinity. The bits of an
nf byte above its width count for nothing. Which two of more than two members a violation names is the model's choice (log 93). -/
def Obligations.SymmetricStorage : Prop :=
  ∀ (d : BitVec 512) (x : List Nat), symValid d = true → inExtents d x = true →
    let tupleOf := fun (b : SymBlk) => b.dims.map (fun i => x.getD i 0)
    (∀ b ∈ symBlks d,
      let y := tupleOf b
      let n := symExt d (b.dims.headD 0)
      let k := b.arity
      let i := y.getD 0 0
      let inversions := ((List.range k).map (fun p => ((List.range p).filter (fun q => y.getD p 0 < y.getD q 0)).length)).sum
      (∀ z, b.kind = 1 → z.Perm y → z.Pairwise (· ≤ ·) → blockRank d b x =
        (((List.range k).map (fun m => (z.getD m 0 + m).choose (m + 1))).sum, (n + k - 1).choose k, false, false, y == z)) ∧
      (∀ z, b.kind = 2 → z.Perm y → z.Pairwise (· ≤ ·) → blockRank d b x =
        (((List.range k).map (fun m => (z.getD m 0).choose (m + 1))).sum, n.choose k, decide (inversions % 2 = 1), decide (¬ y.Nodup), y == z)) ∧
      (b.kind = 3 → blockRank d b x = ((((y.getD 1 0 : Nat) : Int) - i) % n |>.toNat, n, false, false, i == 0)) ∧
      (b.kind = 4 → blockRank d b x = (min i (n - 1 - i), if b.sigma = 1 then n / 2 else (n + 1) / 2,
        decide (b.sigma = 1 ∧ n - 1 - i < i), decide (b.sigma = 1 ∧ i = n - 1 - i), decide (i ≤ n - 1 - i)))) ∧
    (let ps := (symBlks d).map (fun b => blockRank d b x)
     let slot := (freeDims d).foldl (fun a q => a * symExt d q + x.getD q 0) (ps.foldl (fun a p => a * p.2.1 + p.1) 0)
     let forced := ps.any (fun p => p.2.2.2.1)
     canon d x = (if forced then 0 else slot, !forced && decide ((ps.filter (fun p => p.2.2.1)).length % 2 = 1), forced, ps.all (fun p => p.2.2.2.2))) ∧
    ((canon d x).2.2.1 = false → orbitWeight d (canon d x).1 = ((symBlks d).map (fun b =>
      let y := tupleOf b
      let n := symExt d (b.dims.headD 0)
      if b.kind = 1 then b.arity.factorial / (y.dedup.map (fun v => (y.count v).factorial)).prod
      else if b.kind = 2 then b.arity.factorial else if b.kind = 3 then n else if 2 * y.getD 0 0 + 1 = n then 1 else 2)).prod) ∧
    (∀ e : BitVec 512, orbitCount d e = if ∀ b, b < symNblk d → (symBlk d b).kind = (symBlk e b).kind ∧ (symBlk d b).sigma = (symBlk e b).sigma
      then slotCount d else 0) ∧
    (∀ (implies : Bool) (ms : List Member), (∀ m ∈ ms, inExtents d m.1 = true) →
      let forced := fun (m : Member) => (canon d m.1).2.2.1
      let zero := fun (m : Member) => if Ty.isFloat (symTy d) then (decodeNum (fmtOf (symTy d) (symNf d)) m.2).isZero else m.2 % 2 ^ Ty.bits (symTy d) == 0
      let u := fun (m : Member) => if (canon d m.1).2.1 then (negCode (symTy d) (symNf d) m.2).1 else m.2 % 2 ^ codeBits (symTy d) (symNf d)
      let W := fun (r : Nat) => ms.filter (fun m => !forced m && (canon d m.1).1 == r)
      let index := fun (r i : Nat) => ((W r).getD i ([], 0)).1
      let clash := fun (r : Nat) => symMode d = 0 ∧ implies = false ∧ 2 ≤ (W r).length ∨ symMode d = 2 ∧ ∃ m ∈ W r, ∃ m' ∈ W r, u m ≠ u m'
      (∀ m, symMode d ≠ 3 → ms.find? (fun m => forced m && !zero m) = some m → foldStore d implies ms = .error ⟨0x0A, 1, 0, m.1, none⟩) ∧
      ((symMode d = 3 ∨ ∀ m ∈ ms, forced m = true → zero m = true) →
        (∀ r, clash r → (∀ q, q < r → ¬ clash q) →
          (symMode d = 0 → foldStore d implies ms = .error ⟨0x0B, 0, r, index r 0, some (index r 1)⟩) ∧
          (symMode d = 2 → ∀ i, i < (W r).length → u ((W r).getD i ([], 0)) ≠ u ((W r).getD 0 ([], 0)) →
            (∀ q, q < i → u ((W r).getD q ([], 0)) = u ((W r).getD 0 ([], 0))) →
            foldStore d implies ms = .error ⟨0x0A, 0, r, index r 0, some (index r i)⟩)) ∧
        ((∀ r, ¬ clash r) → ∃ items, foldStore d implies ms = .ok (items, ms.any (fun m => forced m && !zero m)) ∧
          (items.map FoldItem.rank).Pairwise (· < ·) ∧ (∀ r, r ∈ items.map FoldItem.rank ↔ W r ≠ []) ∧
          ∀ it ∈ items, it.pos = symBase d + it.rank * symSize d ∧
            (symMode d ≠ 1 → it.val = u (match (W it.rank).find? (fun m => (canon d m.1).2.2.2) with
              | some m => m
              | none => (W it.rank).getD 0 ([], 0))) ∧
            (symMode d = 1 → Ty.isFloat (symTy d) = false →
              let total := ((W it.rank).map (fun m => laneInt (symTy d) (u m))).sum
              let n := (W it.rank).length
              ∃ q : Int, it.val = (q % 2 ^ Ty.bits (symTy d)).toNat ∧ 2 * (q * n - total).natAbs ≤ n ∧ (2 * (q * n - total).natAbs = n → q % 2 = 0)) ∧
            (symMode d = 1 → Ty.isFloat (symTy d) = true →
              let f := fmtOf (symTy d) (symNf d)
              let xs := (W it.rank).map (fun m => decodeNum f (u m))
              let up := Machine.Num.inf false ∈ xs
              let down := Machine.Num.inf true ∈ xs
              let least := (xs.map (fun x => match x with | .fin _ _ e => e | _ => 0)).foldl min 0
              let total := (xs.map (Num.toIntAt least)).sum
              ((xs.any Num.isNan = true ∨ (up ∧ down)) → it.val = (encodeNum f .rne (.nan true)).1) ∧
              (xs.any Num.isNan = false → ¬ (up ∧ down) → (up → it.val = (encodeNum f .rne (.inf false)).1) ∧
                (down → it.val = (encodeNum f .rne (.inf true)).1) ∧
                (¬ up → ¬ down → it.val = if total = 0 then (encodeNum f .rne (.fin (xs.all Num.isNeg) 0 0)).1
                  else (roundInto f .rne (total < 0) total.natAbs (W it.rank).length least).1))))))

/-- O49 (R76 to R79, R104, R264 to R267). What a walk over two matching arrays does in a cycle `t` after its issue. An array in device memory
is asked for orbit i at 25 + i, the first array first, and a request that a fault stopped begins with its own array again; an address that
no lookup takes raises permission (log 66), whose DETAIL words are the model's choice (log 26), and one without a physical address stops the
model (log 56). Orbit i is sampled at 24 + i, with an array in device memory at 1,304 + i, and what is there then joins the sum. One cycle before the result cycle the exact sum is complete: of
weighted products, none for a walk of no orbit; a NaN or unlike infinities make it an invalid NaN, an infinity makes it that infinity, and
zero is +0. OCON's result lands at the result cycle, rounded once, 8 bytes of the row for f64 and the integer types, clamped, and 4 for the
others; OCONP's exact sum reaches its cell 1,280 cycles later. -/
def Obligations.WalksSumTheirOrbits : Prop :=
  ∀ (s : State) (k : Nat) (j : Job) (ya yb : Nat) (a b : BitVec 512) (row cell : Option Nat) (ty : Ty) (t i : Nat),
    symValid a = true → symValid b = true → symMatch a b = true → symTy a = ty → j.kind = .walk ya yb a b row cell ty →
    let n := orbitCount a b
    let mem := symSpad a = false ∨ symSpad b = false
    let first := if mem then 1304 else 24
    let finish := if n ≠ 0 ∧ mem then 1328 + n else 48 + n
    let rep := fun (d : BitVec 512) (p : Nat) => if symSpad d then Memory.readNat (getCore s k).spad (symBase d + i * symSize d) (symSize d)
      else Memory.readNat j.buf (16 * i + p) (symSize d)
    let value := fun (d : BitVec 512) (c : Nat) => if Ty.isFloat ty = false then Machine.Num.fin (decide (laneInt ty c < 0)) (laneInt ty c).natAbs 0
      else if ty = .nf then (decodeNum (fmtOf ty (symNf d)) c).scale (nfScale (symNf d)) else decodeNum (fmtOf ty 0) c
    (t = 25 + i → i < n →
      let asked := { j with made := 1 }
      (symSpad a = false → j.made = 0 → requests s k j t (slotAddr a i) (symSize a) (symSize a) 5 i [1] (fun key u =>
        requestCycle (puts u k j (1304 + i) (2 * i) (.memRead key (symSize a) (.job j.stream j.seq (16 * i)))) k asked t)) ∧
      (symSpad a = true ∨ j.made = 1 → symSpad b = false → requestsAt s k j asked t (slotAddr b i) (symSize b) (symSize b) 5 i [1]
        (fun key u => .ok (puts u k asked (1304 + i) (2 * i + 1) (.memRead key (symSize b) (.job j.stream j.seq (16 * i + 8))))
          { j with made := 0 })) ∧
      (symSpad b = true → (symSpad a = true → requestCycle s k j t = .ok s j) ∧
        (symSpad a = false → j.made = 1 → requestCycle s k j t = .ok s { j with made := 0 }))) ∧
    (t = first + i → i < n → sampleCycle s k j t =
      .ok (modCore s k (fun c => countEvent c 5 j.stream 1)) { j with nums := rep b 8 :: rep a 0 :: j.nums }) ∧
    (∀ reps : List (Nat × Nat), t + 1 = finish → reps.length = n → (∀ p ∈ reps, p.1 < 2 ^ Ty.bits ty ∧ p.2 < 2 ^ Ty.bits ty) → j.nums = (reps.flatMap (fun p => [p.1, p.2])).reverse →
      let terms := (List.range n).map (fun q =>
        (Machine.Num.fin false (orbitWeight a q) 0).mul ((value a (reps.getD q (0, 0)).1).mul (value b (reps.getD q (0, 0)).2)))
      let up := Machine.Num.inf false ∈ terms
      let down := Machine.Num.inf true ∈ terms
      let least := (terms.map (fun x => match x with | .fin _ _ e => e | _ => 0)).foldl min 0
      let total := (terms.map (Num.toIntAt least)).sum
      let wide := ty = .f64 ∨ Ty.isFloat ty = false
      let land := fun (r code : Nat) (fl : Flags) =>
        sampleCycle s k j t = .ok (putsFlags (puts s k j finish 0
          (.row r (if wide then 255 else 15) (BitVec.ofNat 1024 code) .plain)) k j finish 1 .ce fl) j
      let f := if ty = .f64 then fmtF64 else fmtF32
      (∀ r, row = some r →
        ((terms.any Num.isNan = true ∨ (up ∧ down)) → land r f.nanCode fINV) ∧
        (terms.any Num.isNan = false → up → ¬ down → land r (encodeNum f .rne (.inf false)).1 0) ∧
        (terms.any Num.isNan = false → down → ¬ up → land r (encodeNum f .rne (.inf true)).1 0) ∧
        (terms.any Num.isNan = false → ¬ up → ¬ down →
          (Ty.isFloat ty = true → total = 0 → land r 0 0) ∧
          (Ty.isFloat ty = true → total ≠ 0 →
            land r (roundInto f .rne (total < 0) total.natAbs 1 least).1 (roundInto f .rne (total < 0) total.natAbs 1 least).2) ∧
          (Ty.isFloat ty = false →
            let lo : Int := if Ty.isSigned ty then -(2 ^ 63) else 0
            let hi : Int := if Ty.isSigned ty then 2 ^ 63 - 1 else 2 ^ 64 - 1
            if total < lo then land r (lo % 2 ^ 64).toNat fSAT else if hi < total then land r hi.toNat fSAT else land r (total % 2 ^ 64).toNat 0))) ∧
      (∀ key, row = none → cell = some key → ∃ S, sampleCycle s k j t = .ok (puts s k j (finish + 1280) 0 (.cellSum key ty S)) j ∧
        ((terms.any Num.isNan = true ∨ (up ∧ down)) → S.isNan = true) ∧
        (terms.any Num.isNan = false → ¬ (up ∧ down) → (up → S = .inf false) ∧ (down → S = .inf true) ∧
          (¬ up → ¬ down → ∃ neg m e, S = .fin neg m e ∧ (total = 0 → m = 0) ∧ least ≤ e ∧ total = Num.toIntAt least S))))

-- Landings in a cycle ----------------------------------------------------------------------------------------------------------------------------

/-- O50 (R53, R54, R56, R102, R170, R171, R203, R209, R211, R251, R283, R284). The memory-side events of a domain's cycle. Every byte of
device memory holds what the last landing write put there, or is as it was, and colliding writes flag both cores; a sample's bytes land in
the next cycle in its register or scratchpad; an atomic's old value and new word do, and an atomic that has sampled the word and not yet
stored, the only one, stores first; a sum cell is initialised, and an integer added to it is exact modulo 2^512, a NaN setting ERR; a cell
that CPCRD reads lands raw or converted, rounded once, with ERR (i64 sets saturation on a clamp, and inexact beside it: log 65); a fill makes a CLAIMED slot FULL, its rows whole as the fill brought them
(log 82), and else raises crucible-state. An entry whose memory side has been
served already, as the model has it of a core that stopped before (log 64), stores nothing again. -/
def Obligations.MemoryEvents : Prop :=
  ∀ (s : State) (pid : Nat) (d : Domain), tidy s = true → findDom s pid = some d → d.cycling = true →
    let writes := (takeDueAll s d isMemWrite).1
    (∃ t : State, exec (.memoryWriteLanding pid) s = .next t ∧
      (∀ a, Memory.read t.mem a = lastOr (Memory.read s.mem a) ((writes.filter (fun x => x.2.got == none)).flatMap (fun x => storedAt s x.2.eff a))) ∧
      ∀ i j (h1 : i < writes.length) (h2 : j < writes.length), i < j → memClash (writes[i]'h1) (writes[j]'h2) = true →
        ∀ x ∈ [writes[i]'h1, writes[j]'h2], x.2.got = none → liveIn s d x.1 = true → (getCore t x.1).collision = true) ∧
    (∀ k f key n u, (takeDueAll s d isMemSample).1 = [(k, f)] → partnerOf d k = none → liveIn s d k = true →
      f.got = none → f.eff = .memRead key n u → s.badMem.contains (key / 64) = false →
      ∃ t : State, exec (.memorySample pid) s = .next t ∧ t.mem = s.mem ∧
        let v := Memory.readNat s.mem key n
        (∀ i, i < n → v / 256 ^ i % 256 = (Memory.read s.mem (key + i)).toNat) ∧
        (∀ r, u = .reg r → (getCore t k).inflight = stays (getCore s k) d.dcc isMemSample ++
          [{ f with at' := f.at' + 1, eff := .sreg r (toWord v), got := some 0 }]) ∧
        (∀ a lc, u = .spad a lc → (getCore t k).inflight = stays (getCore s k) d.dcc isMemSample ++
          [{ f with at' := f.at' + 1, eff := .spad a n (2 ^ n - 1) v lc, got := some 0 }]) ∧
        (∀ a lc neg ty nf, u = .spadSy a lc neg ty nf →
          let e := if neg then negCode ty nf v else (v % 2 ^ codeBits ty nf, (0 : Flags))
          (getCore t k).inflight = stays (getCore s k) d.dcc isMemSample ++
            ({ f with at' := f.at' + 1, eff := .spad a n (2 ^ n - 1) e.1 lc, got := some 0 } ::
              (if e.2 = 0 then [] else [{ f with at' := f.at' + 1, sub := f.sub + 1, eff := .flags .cp e.2, got := some 0 }])))) ∧
    (∀ k f key r op, (takeDueAll s d isAtom).1 = [(k, f)] → partnerOf d k = none → liveIn s d k = true → f.got = none →
      f.eff = .atom key r op → s.badMem.contains (key / 64) = false →
      let new := fun (old : Word) => match op with | .add b => old + b | .cas b c => if old = c then b else old | .swp b => b
      let brings := fun (old : Word) (clock : List Nat) =>
        [{ f with at' := f.at' + 1, eff := .atomStore key (new old) clock }, { f with at' := f.at' + 1, eff := .sreg r old, got := some 0 }]
      let pending := fun (g : Flight) (v : Word) => g.got = none ∧ ∃ b ∈ mirrorKeys s key, ∃ clock, g.eff = .atomStore b v clock
      ((∀ x ∈ s.cores, ∀ g ∈ x.2.inflight, ∀ v, ¬ pending g v) → ∃ (t : State) (clock : List Nat), exec (.atomicApply pid) s = .next t ∧
        t.mem = s.mem ∧
        (getCore t k).inflight = stays (getCore s k) d.dcc isAtom ++ brings (toWord (Memory.readNat s.mem key 8)) clock) ∧
      (∀ q g v, g ∈ (getCore s q).inflight → pending g v → mirrorKeys s key = [key] →
        (∀ x ∈ s.cores, ∀ h ∈ x.2.inflight, ∀ u, pending h u → x.1 = q ∧ h = g) → ∃ (t : State) (clock : List Nat),
        exec (.atomicApply pid) s = .next t ∧ Memory.readNat t.mem key 8 = v.toNat ∧ { g with got := some 0 } ∈ (getCore t q).inflight ∧
        (∀ a, a < key ∨ key + 8 ≤ a → Memory.read t.mem a = Memory.read s.mem a) ∧ ∀ h ∈ brings v clock, h ∈ (getCore t k).inflight)) ∧
    (∀ k f key ty raw a run, (takeDueAll s d isMemSample).1 = [(k, f)] → partnerOf d k = none → liveIn s d k = true →
      f.got = none → f.eff = .cellRead key ty raw a run → s.badMem.contains (key / 64) = false →
      ∃ t : State, exec (.memorySample pid) s = .next t ∧ t.mem = s.mem ∧
        let I := Memory.readNat s.mem key 64
        let err := (getCell s key).err.toNat
        let V : Int := if I < 2 ^ 511 then I else (I : Int) - 2 ^ 512
        let lands := fun (l : List (Nat × Effect)) => (getCore t k).inflight = stays (getCore s k) d.dcc isMemSample ++
          l.map (fun x => { f with at' := f.at' + 2 + spanOf run cpiSt (2 * (a / 2 ^ 18 % 8) + 1), sub := f.sub + x.1, eff := x.2, got := some 0 })
        (raw = true → lands [(0, .spad a 80 (2 ^ 80 - 1) (I + err * 2 ^ 512) none)]) ∧
        (raw = false → ∃ (x : Nat) (fl : Flags),
          lands ((0, .spad a 16 (2 ^ 16 - 1) (x % 2 ^ 64 + err * 2 ^ 64) none) :: (if fl = 0 then [] else [(1, .flags .cp fl)])) ∧
          (ty ≠ .i64 → (x, fl) = if V = 0 then (0, 0) else roundInto (fmtOf ty 0) .rne (V < 0) V.natAbs 1 (-149)) ∧
          (ty = .i64 → ∃ q : Int, 2 * (q * 2 ^ 149 - V).natAbs ≤ 2 ^ 149 ∧ (2 * (q * 2 ^ 149 - V).natAbs = 2 ^ 149 → q % 2 = 0) ∧
            (x, fl) = if q < -(2 ^ 63) then (2 ^ 63, fSAT + fINX) else if 2 ^ 63 ≤ q then (2 ^ 63 - 1, fSAT + fINX)
              else ((q % 2 ^ 64).toNat, if q * 2 ^ 149 = V then 0 else fINX)))) ∧
    (∀ k f key g, (takeDueAll s d isCellInit).1 = [(k, f)] → f.got = none → f.eff = .cellInit key g → mirrorKeys s key = [key] →
      ∃ t : State, exec (.cellInitLanding pid) s = .next t ∧ (getCell t key).grid = g ∧ (getCell t key).err = 0 ∧
        (∀ i, i < 64 → Memory.read t.mem (key + i) = 0) ∧ ∀ a, a < key ∨ key + 64 ≤ a → Memory.read t.mem a = Memory.read s.mem a) ∧
    (∀ k f key ty v, (takeDueAll s d isCellAdd).1 = [(k, f)] → f.got = none → f.eff = .cellAdd key ty v → mirrorKeys s key = [key] →
      (Ty.isFloat ty = false → v < 2 ^ Ty.bits ty → ∃ t : State, exec (.sumCellAdd pid) s = .next t ∧
        (Memory.readNat t.mem key 64 : Int) = ((Memory.readNat s.mem key 64 : Int) + laneInt ty v * 2 ^ 149) % 2 ^ 512 ∧
        ∀ a, a < key ∨ key + 64 ≤ a → Memory.read t.mem a = Memory.read s.mem a) ∧
      (Ty.isFloat ty = true → (decodeNum (fmtOf ty 0) v).isNan = true → ∃ t : State, exec (.sumCellAdd pid) s = .next t ∧ t.mem = s.mem ∧
        (getCell t key).err = 1 ∧ (getCell t key).grid = (getCell s key).grid)) ∧
    (∀ k f n vals rows cols ty, (getCore s k).pid = pid → liveIn s d k = true → partnerOf d k = none →
      (dueOf (getCore s k) d.dcc isFill).1 = [f] → f.eff = .fill n vals rows cols ty →
      ((getSlot (getCore s k) n).st = .claimed → ∃ t : State, exec (.fillLanding k) s = .next t ∧ getSlot (getCore t k) n = ⟨.full, rows, cols, ty⟩ ∧
        (∀ i, i < vals.length → Sparse.get 0 (getCore t k).cruc (32 * n + i) = vals.getD i 0) ∧
        (∀ r, r < 32 * n ∨ 32 * n + vals.length ≤ r → Sparse.get 0 (getCore t k).cruc r = Sparse.get 0 (getCore s k).cruc r)) ∧
      ((getSlot (getCore s k) n).st ≠ .claimed → ∃ t x, exec (.fillLanding k) s = .next t ∧ (getCore t k).slots = (getCore s k).slots ∧
        (getCore t k).cruc = (getCore s k).cruc ∧ (getCore t k).stop = some x ∧ ((getCore s k).stop = none → x.code = 0x03)))

/-- O51 (R215 to R217, R284). Beats of timed exchange: one that no open window meets is a write of its 128 bytes; one that would bring a
window above what it expects raises schedule-miss cause 5 and lands nothing; in a CPXRCV window it lands and its bytes inside are counted; in
a CPXRED window it is added element by element, integers wrapping, floating elements rounded once with their flags on the copy engine, and
of a beat that overlaps the buffer in part the elements inside are so counted and added and the others are written. A local write issued
before a window opened, an enabled byte of which lands inside its buffer while it is open, raises permission in that cycle, and none of the
bytes that its command lands in it do. A window that closes is gone, and without its full arrival raises schedule-miss cause 5. -/
def Obligations.BeatsAndReceiveWindows : Prop :=
  ∀ (s : State) (k : Nat) (d : Domain), tidy s = true → findDom s (getCore s k).pid = some d → d.cycling = true → liveIn s d k = true →
    let c := getCore s k
    (∀ f a v sender run, (dueOf c c.dcc isBeat).1 = [f] → f.eff = .beat a v sender run →
      let ws := c.rwins.filter (fun w => decide (w.opens ≤ c.dcc ∧ c.dcc ≤ w.closes ∧ 0 < w.len ∧ a < w.addr + w.len ∧ w.addr < a + 128))
      let inside := fun (w : RWin) => min (a + 128) (w.addr + w.len) - max a w.addr
      (ws = [] → c.wrote = [] → ∃ t : State, exec (.beatLanding k) s = .next t ∧ (getCore t k).collision = c.collision ∧
        (getCore t k).rwins = c.rwins ∧ t.mem = s.mem ∧
        ∀ x, Memory.read (getCore t k).spad x = if a ≤ x ∧ x < a + 128 then BitVec.ofNat 8 (v.toNat / 256 ^ (x - a)) else Memory.read c.spad x) ∧
      ((∃ w ∈ ws, w.expect < w.count + inside w) → ∃ t x, exec (.beatLanding k) s = .next t ∧ (getCore t k).spad = c.spad ∧
        (getCore t k).rwins = c.rwins ∧ (getCore t k).stop = some x ∧ (c.stop = none → x.code = 0x02 ∧ x.cause = 5)) ∧
      (∀ w ty, ws = [w] → w.red = some ty → Ty.isFloat ty = false → w.addr ≤ a → a + 128 ≤ w.addr + w.len → w.count + 128 ≤ w.expect →
        ∃ t : State, exec (.beatLanding k) s = .next t ∧ (getCore t k).collision = c.collision ∧
          (∀ e, e < Ty.lanes ty → Memory.readNat (getCore t k).spad (a + Ty.size ty * e) (Ty.size ty) =
            (Memory.readNat c.spad (a + Ty.size ty * e) (Ty.size ty) + v.toNat / 2 ^ (Ty.bits ty * e) % 2 ^ Ty.bits ty) % 2 ^ Ty.bits ty) ∧
          (∀ x, x < a ∨ a + 128 ≤ x → Memory.read (getCore t k).spad x = Memory.read c.spad x) ∧
          (getCore t k).rwins = c.rwins.map (fun u => if u = w then { u with count := u.count + 128 } else u)) ∧
      (∀ w ty, ws = [w] → w.red = some ty → Ty.isFloat ty = true → ty ≠ .nf → w.addr ≤ a → a + 128 ≤ w.addr + w.len → w.count + 128 ≤ w.expect →
        let sum := fun (e : Nat) => sumInto (fmtOf ty 0) [decodeNum (fmtOf ty 0) (Memory.readNat c.spad (a + Ty.size ty * e) (Ty.size ty)),
          decodeNum (fmtOf ty 0) (v.toNat / 2 ^ (Ty.bits ty * e) % 2 ^ Ty.bits ty)]
        ∃ t : State, exec (.beatLanding k) s = .next t ∧ (getCore t k).collision = c.collision ∧
          (∀ e, e < Ty.lanes ty → Memory.readNat (getCore t k).spad (a + Ty.size ty * e) (Ty.size ty) = (sum e).1) ∧
          (∀ x, x < a ∨ a + 128 ≤ x → Memory.read (getCore t k).spad x = Memory.read c.spad x) ∧
          (∀ i, i < 5 → ((getCore t k).flagsCP.getLsbD i = true ↔
            c.flagsCP.getLsbD i = true ∨ ∃ e, e < Ty.lanes ty ∧ (sum e).2.testBit i = true)) ∧
          (getCore t k).rwins = c.rwins.map (fun u => if u = w then { u with count := u.count + 128 } else u)) ∧
      (∀ w, ws = [w] → w.red = none → c.wrote = [] → w.count + inside w ≤ w.expect →
        ∃ t : State, exec (.beatLanding k) s = .next t ∧ (getCore t k).collision = c.collision ∧ (getCore t k).stop = c.stop ∧ t.mem = s.mem ∧
          (∀ x, Memory.read (getCore t k).spad x = if a ≤ x ∧ x < a + 128 then BitVec.ofNat 8 (v.toNat / 256 ^ (x - a)) else Memory.read c.spad x) ∧
          (getCore t k).rwins = c.rwins.map (fun u => if u = w then { u with count := u.count + inside w } else u)) ∧
      (∀ w ty, ws = [w] → w.red = some ty → ty ≠ .nf → Ty.bits ty = 8 * Ty.size ty → c.wrote = [] → w.count + inside w ≤ w.expect →
        a % Ty.size ty = 0 → w.addr % Ty.size ty = 0 → w.len % Ty.size ty = 0 →
        let within := fun (e : Nat) => w.addr ≤ a + Ty.size ty * e ∧ a + Ty.size ty * e < w.addr + w.len
        let old := fun (e : Nat) => Memory.readNat c.spad (a + Ty.size ty * e) (Ty.size ty)
        let new := fun (e : Nat) => v.toNat / 2 ^ (Ty.bits ty * e) % 2 ^ Ty.bits ty
        let sum := fun (e : Nat) => if Ty.isFloat ty = true then
          sumInto (fmtOf ty 0) [decodeNum (fmtOf ty 0) (old e), decodeNum (fmtOf ty 0) (new e)] else ((old e + new e) % 2 ^ Ty.bits ty, (0 : Flags))
        ∃ t : State, exec (.beatLanding k) s = .next t ∧ (getCore t k).collision = c.collision ∧
          (∀ e, e < Ty.lanes ty → (within e → Memory.readNat (getCore t k).spad (a + Ty.size ty * e) (Ty.size ty) = (sum e).1) ∧
            (¬ within e → Memory.readNat (getCore t k).spad (a + Ty.size ty * e) (Ty.size ty) = new e)) ∧
          (∀ x, x < a ∨ a + 128 ≤ x → Memory.read (getCore t k).spad x = Memory.read c.spad x) ∧
          (∀ i, i < 5 → ((getCore t k).flagsCP.getLsbD i = true ↔
            c.flagsCP.getLsbD i = true ∨ ∃ e, e < Ty.lanes ty ∧ within e ∧ (sum e).2.testBit i = true)) ∧
          (getCore t k).rwins = c.rwins.map (fun u => if u = w then { u with count := u.count + inside w } else u))) ∧
    (∀ (f : Flight) (x n en v : Nat) (lc : Option Nat), f.eff = .spad x n en v lc → (windowHit c f = true ↔ ∃ w ∈ c.rwins, f.issue < w.opens ∧
      w.opens ≤ c.dcc ∧ c.dcc ≤ w.closes ∧ ∃ i, i < n ∧ en.testBit i = true ∧ w.addr ≤ x + i ∧ x + i < w.addr + w.len)) ∧
    (let hits := (dueNow s k).filter (windowHit c)
     let kept := (dueNow s k).filter (fun f => !hits.any (fun g => f.stream == g.stream && f.seq == g.seq &&
       (match f.eff with | .spad .. => true | _ => false)))
     partnerOf d k = none → (∀ f ∈ dueNow s k, plainLanding f.eff = true) → hits ≠ [] →
      ∃ t y, exec (.resultLanding k) s = .next t ∧ (getCore t k).stop = some y ∧ (c.stop = none → y.code = 0x08 ∧ y.cycle = c.dcc) ∧
        (∀ f, hits = [f] → c.stop = none → y.stream = f.stream) ∧ (getCore t k).rwins = c.rwins ∧ t.mem = s.mem ∧
        ∀ a, Memory.read (getCore t k).spad a = lastOr (Memory.read c.spad a) (kept.filterMap (fun f => spadByteOf f.eff a))) ∧
    (∃ t : State, exec (.receiveWindowClose k) s = .next t ∧ (getCore t k).rwins = c.rwins.filter (fun w => decide (w.closes ≠ c.dcc)) ∧
      (getCore t k).spad = c.spad ∧ t.mem = s.mem ∧
      ((∀ w ∈ c.rwins, w.closes = c.dcc → w.expect ≤ w.count) → (getCore t k).stop = c.stop ∧ t.domains = s.domains) ∧
      (c.stop = none → (∃ w ∈ c.rwins, w.closes = c.dcc ∧ w.count < w.expect) →
        ∃ x, (getCore t k).stop = some x ∧ x.code = 0x02 ∧ x.cause = 5))

/-- O52 (R23, R24, R93, R96, R149, R313). In a cycle that its core runs, a stream fetches its next command 16 cycles before the cycle that its
WAIT byte, up to 0xFB, gives after the previous one, reading its words as they then stand (none of the 16 cycles before having brought it
with other words), and looks again; earlier it fetches nothing, and
an ended or waiting stream nothing at all; where the fetch cycle is past, the command issues at once if its cycle is (log 69). The domain's counter advances by one, and with it every mirror of the cycle that no fault has stopped; a format queue
longer than 16 words raises fq-overflow (R149), and of its words the first 16 stay (log 59). -/
def Obligations.FetchAndAdvance : Prop :=
  ∀ (s : State) (k : Nat) (st : Stream),
    let c := getCore s k
    let x := getStream c st
    let ws := readCommand c.spad x st x.fetchIdx
    let n := x.fetchPrev + (ws.getD 0 0).toNat / 2 ^ 56 % 256
    (x.ended = true ∨ x.fetchHold = true ∨ (∀ d, domOf s k = some d → ¬ (d.cycling = true ∧ liveIn s d k = true)) →
      exec (.commandFetch k st) s = .next s) ∧
    (x.ended = false → x.fetchHold = false → (∃ d, domOf s k = some d ∧ d.cycling = true ∧ liveIn s d k = true) →
      (∀ i m, i < 16 → c.spadPast[i]? = some m →
        let us := readCommand m x st x.fetchIdx
        let wait := (us.getD 0 0).toNat / 2 ^ 56 % 256
        us = ws ∨ (wait ≤ 0xFB ∧ x.brMin ≤ x.fetchPrev + wait ∧ c.dcc + 16 < x.fetchPrev + wait + 1 + i)) → (ws.getD 0 0).toNat / 2 ^ 56 % 256 ≤ 0xFB → x.brMin ≤ n →
      (c.dcc + 16 < n → exec (.commandFetch k st) s = .next s) ∧
      (n ≤ c.dcc + 16 → ∃ t : State, exec (.commandFetch k st) s = .next t ∧ t.agenda = .ev (.commandFetch k st) :: s.agenda ∧ t.mem = s.mem ∧
        let y := getStream (getCore t k) st
        y.fetched = x.fetched ++ [⟨x.fetchIdx, ws, (x.fetchIdx + ws.length) % ringLen x.ring, max n c.dcc, none⟩] ∧ y.fetchPrev = max n c.dcc ∧
        y.fetchPtr = (x.fetchIdx + ws.length) % ringLen x.ring ∧ y.seq = x.seq ∧ y.nextIdx = x.nextIdx ∧ y.loops = x.loops)) ∧
    (∀ pid d, tidy s = true → findDom s pid = some d → d.cycling = true →
      ∃ (t : State) (e : Domain), exec (.dccAdvance pid) s = .next t ∧ findDom t pid = some e ∧ e.dcc = d.dcc + 1 ∧
        (∀ q, d.all.count q = 1 → liveIn s d q = true →
          (getCore t q).dcc = (if (getCore t q).stop = none then (getCore s q).dcc + 1 else (getCore s q).dcc) ∧
          (getCore t q).fq = (getCore s q).fq.take 16 ∧ (16 < (getCore s q).fq.length → (getCore t q).stop ≠ none ∧
            ((getCore s q).stop = none → ∃ y, (getCore t q).stop = some y ∧ y.code = 0x06 ∧ y.stream = .cc)) ∧
          (d.pairs = [] → (getCore t q).inflight = (getCore s q).inflight) ∧ (getCore t q).sregs = (getCore s q).sregs) ∧
        (∀ q, q ∉ d.all → (getCore t q).dcc = (getCore s q).dcc))

-- Hubs, holds, stops --------------------------------------------------------------------------------------------------------------------------------

/-- O53 (R177, R178, R189, R191, R276, R277, R300, R301). What reaches the hub and the table of a core: a parameter word replaces word 8 +
n of its mould; an ARM answers 2 for a mould that is not the partition's, 1 while arming is stopped or all 64 entries are taken, and else
takes the lowest free entry, whose number is bits 15:8 of the answer, in the same cycle; range changes apply in the order RINV, RRES,
RRET. Answer 1 while arming is stopped is the model's reading (log 39), and that the lowest free entry is taken its choice (log 91). -/
def Obligations.RequestsReachTheHub : Prop :=
  ∀ (s : State) (k : Nat) (d : Domain), tidy s = true → findDom s (getCore s k).pid = some d → d.cycling = true → liveIn s d k = true →
    isSystemCore k = false →
    let c := getCore s k
    let pkg := pkgOf k
    let part := getPart s pkg d.part
    (∀ f no n v, primaryOf d k = k → (dueOf c d.dcc isMpat).1 = [f] → f.eff = .mpat no n v → getMould s pkg no ≠ [] →
      ∃ t : State, exec (.mpatLanding k) s = .next t ∧ getMould t pkg no = (getMould s pkg no).set (8 + n) v ∧
        (∀ m, m ≠ no → getMould t pkg m = getMould s pkg m) ∧ (getCore t k).sregs = c.sregs ∧ t.mem = s.mem) ∧
    (∀ f r no, primaryOf d k = k → partnerOf d k = none → (dueOf c d.dcc isArm).1 = [f] → f.eff = .arm r no →
      let head := ((getMould s pkg no).getD 0 0).toNat
      let owned := head / 2 ^ 63 % 2 = 1 ∧ head / 2 ^ 56 % 2 ^ 4 = d.part
      let taken := fun (e : Nat) => ∃ a ∈ part.pool, a.entry = e
      let answers := fun (t : State) (v : Word) => exec (.armPoolArrival k) s = .next t ∧
        (getCore t k).inflight = stays c d.dcc isArm ++ [{ f with eff := .sreg r v }] ∧ t.mem = s.mem ∧ t.domains = s.domains
      (¬ owned → ∃ t : State, answers t 2 ∧ t.pkgs = s.pkgs) ∧
      (owned → part.arming = false ∨ (∀ e, e < 64 → taken e) → ∃ t : State, answers t 1 ∧ t.pkgs = s.pkgs) ∧
      (∀ e, owned → part.arming = true → e < 64 → ¬ taken e → (∀ q, q < e → taken q) → ∃ t : State, answers t (toWord (e * 2 ^ 8)) ∧
        (getPart t pkg d.part).arms = part.arms + 1 ∧
        ∃ a, (getPart t pkg d.part).pool = part.pool ++ [a] ∧ a.entry = e ∧ a.mouldNo = no ∧ a.mould = getMould s pkg no ∧
          a.pid = pkg * 2 ^ 64 + (d.part * 2 ^ 60 + (part.arms + 1) % 2 ^ 60) % 2 ^ 64 ∧ a.admitted = false)) ∧
    (let invs := (dueOf c c.dcc isRinv).1.filterMap (fun f => match f.eff with | .rinv x a => some (x, a) | _ => none)
     let ress := (dueOf c c.dcc isRres).1.filterMap (fun f => match f.eff with | .rres x a m z => some (x, a, m, z) | _ => none)
     let rets := (dueOf c c.dcc isRret).1.filterMap (fun f => match f.eff with | .rret x a o => some (x, a, o) | _ => none)
     let named := fun (e : RangeEntry) (x a : Nat) => e.ctl.toNat % 2 = 1 ∧ e.ctl.toNat / 2 ^ 8 % 2 ^ 12 = x ∧ e.base.toNat = a
     ∃ t : State, exec (.rangeChangeReach k) s = .next t ∧ t.mem = s.mem ∧ (getCore t k).ranges =
       (c.ranges.filter (fun p => !invs.any (fun x => p.2.holds x.1 x.2))).map (fun p => (p.1,
         rets.foldl (fun e x => if named e x.1 x.2.1 then { e with off := x.2.2 } else e)
           (ress.foldl (fun e x => if named e x.1 x.2.1 then
             { e with res := if x.2.2.2 then e.res &&& ~~~x.2.2.1 else e.res ||| x.2.2.1 } else e) p.2))))

/-- O54 (R103, R105 to R109, R112, R113, R299, R302, R308, R313, R316). Holds: before its announced cycle a domain freezes, keeping its
causes; a doomed pour ends there. It stays held while a cause stands or fewer than H clocks have passed since the last cleared, and is
released else with no cause left. A pour whose hold clocks, the present clock among them, exceed its budget ends (that the hold's first cause names core and stream is log 101). The clocks of a slack point pass one by one, and its
cycle runs after them. A decided stop is announced H cycles ahead, a checkpoint's so that it freezes before its cycle P; a kill whose
token is gone by then is a drain. That an overrun of slack clears at once, that one condition is one cause, and how the packages' slack
points come together is the model's reading (logs 17, 18, 32). -/
def Obligations.HoldsAndStops : Prop :=
  ∀ (s : State) (pid : Nat) (d : Domain), tidy s = true → findDom s pid = some d →
    let same := fun (e : Domain) => e.dcc = d.dcc ∧ e.cores = d.cores ∧ e.h = d.h
    let points := d.slackPts ++ d.all.flatMap (fun k => (getCore s k).slackPts)
    let slackFor := fun (n : Nat) => if d.span = 2 ∧ n / 2 ≠ 0 then Status.slack (n / 2 - 1) else .run
    let gone := fun (tok : Nat) => ∃ key, tok = key + 1 ∧ (Memory.word s.mem (key + 8)).toNat % 256 = 0
    (d.status = .run → effectOf d ≠ some d.dcc → exec (.holdEffect pid) s = .next s) ∧
    (d.status = .run → effectOf d = some d.dcc → d.doomed = false → d.schedStop = none → (∀ k ∈ d.all, (getCore s k).stop = none) →
      ∃ (t : State) (e : Domain), exec (.holdEffect pid) s = .next t ∧ findDom t pid = some e ∧ same e ∧ e.status = .held ∧ e.freeze = some d.dcc ∧
        e.heldAt = s.clock ∧ e.causes = d.causes ∧ t.cores = s.cores ∧ t.mem = s.mem) ∧
    (d.status = .run → effectOf d = some d.dcc → d.doomed = true → ∃ t : State, exec (.holdEffect pid) s = .next t ∧ findDom t pid = none ∧
      ∀ k ∈ d.all, (getCore t k).pid = 0) ∧
    (d.status = .held → d.doomed = false → d.schedStop = none → (∀ k ∈ d.all, (getCore s k).stop = none) →
      (∀ c ∈ d.causes, c.cleared = true) → d.lastClear + d.h ≤ s.clock → ∃ (t : State) (e : Domain), exec (.holdRelease pid) s = .next t ∧
        findDom t pid = some e ∧ same e ∧
        (d.dcc < d.slackDone ∨ (∀ x ∈ points, x.1 ≠ d.dcc) → e.status = .run ∧ e.causes = [] ∧ e.freeze = none) ∧
        (∀ n r, d.slackDone ≤ d.dcc → d.slackPts = (d.dcc, n) :: r → e.status = slackFor n)) ∧
    (d.status = .held → ((∃ c ∈ d.causes, c.cleared = false ∧ c.code ≠ 4 ∧ clearedBy s c = none) ∨
        (0 < d.h ∧ s.clock < d.lastClear + d.h)) →
      ∃ (t : State) (e : Domain), exec (.holdRelease pid) s = .next t ∧ findDom t pid = some e ∧ same e ∧ e.status = .held ∧ t.mem = s.mem) ∧
    (d.status = .held → d.causes ≠ [] →
      let spent := d.holdClocks + (s.clock - d.heldAt + 1)
      (spent ≤ holdBudget s d → exec (.holdBudgetExceeded pid) s = .next s) ∧
      (holdBudget s d < spent → ∃ t : State, exec (.holdBudgetExceeded pid) s = .next t ∧ findDom t pid = none)) ∧
    (∀ n, d.status = .slack n → ∃ (t : State) (e : Domain), exec (.slackPoint pid) s = .next t ∧ findDom t pid = some e ∧ same e ∧ t.cores = s.cores ∧
      e.status = match n with | 0 => .run | m + 1 => .slack m) ∧
    (d.status = .run → (∀ x ∈ points, x.1 ≠ d.dcc) →
      exec (.slackPoint pid) s = .next s) ∧
    (∀ n r, d.status = .run → d.slackDone ≤ d.dcc → d.slackPts = (d.dcc, n) :: r → ∃ (t : State) (e : Domain), exec (.slackPoint pid) s = .next t ∧
      findDom t pid = some e ∧ same e ∧ e.slackDone = d.dcc + 1 ∧ e.status = slackFor n) ∧
    (d.status = .run → d.stopAt = none →
      (∀ tok, d.schedStop = some (.kill tok) → ¬ gone tok → ∃ (t : State) (e : Domain), exec (.schedulerStop pid) s = .next t ∧
        findDom t pid = some e ∧ same e ∧ e.stopAt = some (d.dcc + d.h) ∧ t.cores = s.cores) ∧
      (∀ tok, d.schedStop = some (.kill tok) → gone tok → ∃ (t : State) (e : Domain), exec (.schedulerStop pid) s = .next t ∧
        findDom t pid = some e ∧ same e ∧ e.stopAt = none ∧ e.schedStop = none ∧ e.drain = true) ∧
      (∀ i p tok, d.schedStop = some (.checkpoint i p tok) →
        (d.dcc + d.h < p → exec (.schedulerStop pid) s = .next s) ∧
        (p ≤ d.dcc + d.h → ¬ gone tok → ∃ (t : State) (e : Domain), exec (.schedulerStop pid) s = .next t ∧ findDom t pid = some e ∧ same e ∧
          e.stopAt = some (d.dcc + d.h) ∧ t.cores = s.cores)))

/-- O55 (R105, R112, R113, R320, R327 to R329, R331, R344 to R346, R361, R363, R365, R366). Links, beacons, spares, the thermal monitor,
the debugger and the trace slots. A flit that could not be corrected and the loss of a link's last spare lane raise link-uncorrectable in
the group-span pours that send or receive over the link, a lost beacon path and a forced detach domain-broken in those of the package.
Sensor readings come with the thermal acts (log 75): by any of them a reading above the threshold signals, which raises cause 3 in every
pour there, and one of 115 takes the power away, which ends the pours that lie there alone; with every reading 5 degrees below the
threshold or lower the signal ends. The debugger clears cause 5 whether the hold is in effect or only announced. The core that such a
fault names is the model's choice where the pour has several (log 40). So are the events of a link in a state that they do not fit and the end of links
at a forced detach (log 50), and the port that a debug session needs (log 48). -/
def Obligations.FabricEvents : Prop :=
  ∀ (s : State) (pkg l pos n : Nat) (up : Bool), tidy s = true →
    let L := getLink s pkg l
    let onDie := fun (d : Domain) (k : Nat) => k ∈ d.all ∧ pkgOf k = pkg ∧ dieOf k = l / 8
    let uses := fun (d : Domain) => d.span = 2 ∧ pkg ∈ d.pkgs ∧ ∃ k ∈ d.all, pkgOf k ∈ d.pkgs ∧ dieOf k = l / 8
    let member := fun (d : Domain) => d.span = 2 ∧ pkg ∈ d.pkgs
    let stops := fun (d : Domain) (u : State) (k code : Nat) (st : Stream) =>
      (∃ y, (getCore u k).stop = some y ∧ ((getCore s k).stop = none → y.code = code ∧ y.stream = st)) ∧
      ((getCore s k).pid = d.pid → findDom s d.pid = some d → ∃ e, findDom u d.pid = some e ∧ e.doomed = true ∧
        e.causes.any (fun c => c.code == 6) = true)
    let fails := fun (i : Instr) (t : State) =>
      (∃ u : State, exec i s = .next u ∧ u.mem = t.mem ∧ u.pkgs = t.pkgs ∧ ∀ d ∈ s.domains, uses d → (∃ q ∈ d.cores, pkgOf q = pkg) →
        ∃ k ∈ d.all, pkgOf k = pkg ∧ ((∃ q, onDie d q) → onDie d k) ∧ stops d u k 0x10 .cp) ∧
      ((∀ d ∈ s.domains, ¬ uses d) → exec i s = .next t) ∧
      (∀ (d : Domain), s.domains = [d] → uses d → ∃ k, exec i s = .next (takeFault t k .cp cpoSt 0 0x10 0 []) ∧
        ((∃ q, onDie d q) → onDie d k) ∧ ((∀ q, ¬ onDie d q) → (∃ q ∈ d.cores, pkgOf q = pkg) → k ∈ d.cores ∧ pkgOf k = pkg))
    exec (.flitCorrected pkg l) s = .next (modLink s pkg l (fun x => { x with lcor := x.lcor + 1 })) ∧
    fails (.flitUncorrectable pkg l) (modLink s pkg l (fun x => { x with lunc := x.lunc + 1, badFlit := s.clock + 1 })) ∧
    (L.state = 3 ∨ 8 ≤ n → exec (.laneFailure pkg l n) s = .next s) ∧
    (L.state ≠ 3 → n < 8 → L.spare ≠ 0 → exec (.laneFailure pkg l n) s = .next (modLink s pkg l (fun x =>
      { x with spare := x.spare - 1, lmap := x.lmap ||| BitVec.ofNat 8 (2 ^ n), lswp := x.lswp + 1 }))) ∧
    (L.state ≠ 3 → n < 8 → L.spare = 0 → fails (.laneFailure pkg l n) (modLink s pkg l (fun x => { x with state := 3 }))) ∧
    (∃ t : State, exec (.linkTrained pkg l pos up) s = .next t ∧ (getLink t pkg l).state = 2 ∧ (getLink t pkg l).pos = BitVec.ofNat 8 pos ∧
      (getLink t pkg l).pcbh = up ∧ (getLink t pkg l).lcor = L.lcor ∧ t.cores = s.cores ∧ t.domains = s.domains) ∧
    (let down := (List.range 32).foldl (fun t i => modLink t pkg i (fun x => { x with state := 0, pos := 255, pcbh := false, sent := [] }))
     let none' := fun (t : State) => modPkg t pkg (fun p => { p with beacons := [] })
     exec (.linksTakenDown pkg) s = .next (down (none' s)) ∧
     ((∀ d ∈ s.domains, ¬ member d) → exec (.lostBeaconPath pkg) s = .next s ∧ exec (.packageForcedDetach pkg) s = .next (down (none' s))) ∧
     (∀ i ∈ [Instr.lostBeaconPath pkg, .packageForcedDetach pkg], ∃ u : State, exec i s = .next u ∧ u.mem = s.mem ∧
       ∀ d ∈ s.domains, member d → (∃ k ∈ d.cores, pkgOf k = pkg) → ∃ k ∈ d.cores, pkgOf k = pkg ∧ stops d u k 0x12 .cc) ∧
     (∀ (d : Domain), s.domains = [d] → member d → (∃ k ∈ d.cores, pkgOf k = pkg) → ∃ k, k ∈ d.cores ∧ pkgOf k = pkg ∧
       exec (.lostBeaconPath pkg) s = .next (takeFault s k .cc ccSt 0 0x12 0 []) ∧
       exec (.packageForcedDetach pkg) s = .next (down (none' (takeFault s k .cc ccSt 0 0x12 0 []))))) ∧
    (L.state ≠ 2 → exec (.beaconInterval pkg l) s = .next s ∧ ∀ p x y z, exec (.beaconReceived pkg l p x y z) s = .next s) ∧
    (L.state = 2 → ∃ b, exec (.beaconInterval pkg l) s = .next (modLink s pkg l (fun x => { x with sent := b })) ∧
      b.map (fun x => (x.pid, x.dcc)) = (s.domains.filter (fun d => d.span == 2 && d.pkgs.contains pkg)).map (fun d => (d.pid, d.dcc))) ∧
    (∀ d x lead, L.state = 2 → findDom s d.pid = some d → member d → d.pkgs.headD pkg ≠ pkg → ∃ (t : State) (e : Domain),
      exec (.beaconReceived pkg l d.pid x lead none) s = .next t ∧ findDom t d.pid = some e ∧ e.lead = Sparse.set 0 d.lead pkg lead ∧
      e.dcc = d.dcc ∧ t.cores = s.cores) ∧
    exec (.channelSubstitution pkg l n) s = .next (modPkg s pkg (fun p =>
      { p with chansUsed := Sparse.set 0 p.chansUsed l (min 8 (Sparse.get 0 p.chansUsed l + 1)) })) ∧
    (∀ die temp, Sparse.wfFrom {} 0 s.pkgs = true →
     let u := modPkg s pkg (fun p => { p with sensors := Sparse.set 0 p.sensors die temp })
     let above := fun (n : Nat) => ∃ x ∈ Sparse.set 0 (getPkg s pkg).sensors die temp, n < x.2
     let limit := (getPkg s pkg).emergency
     let acts := [Instr.thermalSignal ⟨pkg, die, temp⟩, .thermalWithdraw ⟨pkg, die, temp⟩, .thermalTrip ⟨pkg, die, temp⟩]
     (temp < 115 → (getPkg s pkg).thermal = true ∨ ¬ above limit →
       ∀ i ∈ acts, ((getPkg s pkg).thermal = false ∨ above (limit - 5) → exec i s = .next u) ∧
         ((getPkg s pkg).thermal = true → ¬ above (limit - 5) → exec i s = .next (modPkg u pkg (fun p => { p with thermal := false })))) ∧
     (temp < 115 → (getPkg s pkg).thermal = false → above limit → ∀ i ∈ acts, ∃ t : State, exec i s = .next t ∧
      (getPkg t pkg).thermal = true ∧ t.cores = s.cores ∧ ∀ d, findDom s d.pid = some d → pkg ∈ d.pkgs → d.status = .run → ∃ e, findDom t d.pid = some e ∧ e.dcc = d.dcc ∧
        e.freeze = some (match d.freeze with | some f => min f (d.dcc + d.h) | none => d.dcc + d.h) ∧
        e.causes.any (fun x => x.code == 3 && !x.cleared) = true) ∧
     (115 ≤ temp → ∀ i ∈ acts, ∃ t : State, exec i s = .next t ∧ (getPkg t pkg).poweredOff = true ∧
      (∀ k, pkgOf k = pkg → numOf k < 640 → getCore t k = {}) ∧
      ∀ d ∈ s.domains, pkg ∈ d.pkgs → (∀ k ∈ d.all, pkgOf k = pkg) → findDom t d.pid = none)) ∧
    exec (.debugSessionAttach pkg n up) s = .next (modPart s pkg n (fun p => { p with debug := up && (getPkg s pkg).portOpen })) ∧
    (∀ (d : Domain), findDom s d.pid = some d →
      ((getPart s d.home d.part).debug = false → exec (.debugStopRequest d.pid) s = .next s) ∧
      ((getPart s d.home d.part).debug = true →
        exec (.debugStopRequest d.pid) s = .next (modDom s d.pid (fun d => { d with debugReq := true }))) ∧
      (d.causes.any (fun c => c.code == 5 && !c.cleared) = true → ∃ (t : State) (e : Domain), exec (.debugRelease d.pid) s = .next t ∧
        findDom t d.pid = some e ∧ e.lastClear = s.clock ∧ e.status = d.status ∧ (∀ c ∈ e.causes, c.code = 5 → c.cleared = true) ∧
        e.causes.filter (fun c => c.code != 5) = d.causes.filter (fun c => c.code != 5))) ∧
    (∀ k r rest b, (getCore s k).trace = r :: rest → ringBase s k (ownPart s k) false (dieOf k) = some b → ∃ t : State,
      exec (.traceSlot k) s = .next t ∧ t.mem = (hubWrite s (ringPut s.mem b r)).mem ∧
      ((∀ p ∈ s.pkgs, p.2.compactions = []) → t.mem = ringPut s.mem b r) ∧ (getCore t k).trace = rest ∧ (getCore t k).credit = (getCore s k).credit ∧
      (getCore t k).ranges = (getCore s k).ranges ∧ t.domains = s.domains)

/-- O56 (R27, R94, R301 to R306, R308 to R312). Scheduling. A round admits a waiting pour whose cores are free and whose budgets fit, and
its start follows; a start loads every core, its registers zero, its parameter words at PADDR, its DCC 0; a pour whose cores have all
ended and landed ends; a kill ends a frozen pour; a checkpoint saves it, unless a stopped core waits for its repair (log 74), and lets it
wait again; a restore brings it back held at F. In a member package a group-span pour has its cores reserved as they are free (log 13).
The words at PADDR are as many as the image says (log 72); the saved structures, and by which of them an area's bytes are
restored, are log 12's. Which cores are free to take, what a restored core begins
with, when a pour with an announced hold or an open window ends, and that a round comes in every clock are the model's reading (logs 23,
38, 40, 42, 45). -/
def Obligations.SchedulingEvents : Prop :=
  ∀ (s : State) (pkg die pid : Nat), tidy s = true →
    (∀ prio a cores, ranking s pkg die = [(prio, a)] → findArmed s pkg a.pid = some a → homeOf a.pid = pkg → (getPart s pkg a.part).arming = true →
      startDoomed s a = false → mSpan a.mould ≠ 2 → placeFree s pkg die a = some cores → fits s a cores = true → ∃ t : State,
      exec (.schedulingRound pkg die) s = .next t ∧
      t.agenda = (if a.restore.isSome then .ev (.pourRestore pkg a.pid) else .ev (.pourStart pkg a.pid)) :: s.agenda ∧
      t.cores = s.cores ∧ t.mem = s.mem ∧ (∃ b, findArmed t pkg a.pid = some b ∧ b.admitted = true ∧ b.cores = cores ∧ b.mould = a.mould)) ∧
    (∀ prio a mine, ranking s pkg die = [(prio, a)] → findArmed s (homeOf a.pid) a.pid = some a → homeOf a.pid ≠ pkg →
      (getPart s (homeOf a.pid) a.part).arming = true → startDoomed s a = false → mSpan a.mould = 2 → readyIn s a pkg = false →
      placeFree s pkg die a = some mine → fitsDies s (armedHolder s a mine) = true →
      (Sparse.get (0, 0) (getPkg s pkg).heads die).1 ≠ a.pid → ∃ (t : State) (b : Armed),
      exec (.schedulingRound pkg die) s = .next t ∧ t.agenda = s.agenda ∧ t.cores = s.cores ∧ findArmed t (homeOf a.pid) a.pid = some b ∧
      b.admitted = a.admitted ∧ b.cores = a.cores.filter (fun k => pkgOf k != pkg) ++ mine) ∧
    (∀ a cores, bits (mouldWord a.mould 0) 54 2 = 0 → placeFree s pkg die a = some cores → cores.length = mNeed a.mould ∧
      ∀ k ∈ cores, (getCore s k).pid = 0 ∧ dieOf k = die ∧ ∃ n ∈ (getPart s pkg a.part).cores, k = pkg * 1024 + n) ∧
    (ranking s pkg die = [] → ∃ t : State, exec (.schedulingRound pkg die) s = .next t ∧ t.agenda = s.agenda ∧ t.cores = s.cores ∧ t.mem = s.mem) ∧
    (∀ a, findArmed s (homeOf pid) pid = some a → ∃ t : State, exec (.priorityAging pkg pid) s = .next t ∧ t.cores = s.cores ∧ t.mem = s.mem ∧
      ∀ q, q < 4 → Sparse.get (0, 0) (getPkg t pkg).heads q =
        let h := Sparse.get (0, 0) (getPkg s pkg).heads q
        if h.1 = pid ∧ h.2 < effPriority s a then (pid, effPriority s a) else h) ∧
    (∀ a, findArmed s pkg pid = some a → a.admitted = false → exec (.pourStart pkg pid) s = .next s ∧ exec (.pourRestore pkg pid) s = .next s) ∧
    (∀ a, findArmed s pkg pid = some a → a.admitted = true → a.restore = none →
      let image := Config.pourImage s.mem (pkg * 2 ^ 39 + mouldWord a.mould 2 % 2 ^ 39)
      let d := newDomain s pkg a
      (∀ l, image = some l → startFault s pkg a image = none → ∃ t : State, exec (.pourStart pkg pid) s = .next t ∧ t.clock = s.clock ∧
        (∃ e ∈ t.domains, e.pid = a.pid ∧ e.dcc = 0 ∧ e.cores = d.cores ∧ e.pairs = d.pairs ∧ e.mould = a.mould ∧ e.h = d.h) ∧
        ∀ k ∈ d.all, let c := getCore t k
          c.pid = a.pid ∧ c.dcc = 0 ∧ c.sregs = [] ∧ c.calls = [] ∧ c.rows = [] ∧ c.tags = [] ∧ c.slots = [] ∧ c.fq = [] ∧ c.masks = [] ∧
          c.kpreds = [] ∧ c.qps = [] ∧ c.lcs = [] ∧ c.flagsCE = 0 ∧ c.flagsVE = 0 ∧ c.flagsCP = 0 ∧ c.collision = false ∧ c.inflight = [] ∧
          c.jobs = [] ∧ c.stop = none ∧ c.cc.seq = 0 ∧ c.cc.fetchIdx = 0 ∧ c.cc.ended = false ∧ c.watch = (getCore s k).watch ∧
          (mouldWord a.mould 6 % 2 ^ 21 + 128 ≤ 6 * 2 ^ 18 → ∀ i, i < 16 → i < (l.getD (relOf d k) ⟨[], [], [], [], [], [], 0⟩).params →
            Memory.readNat c.spad (mouldWord a.mould 6 % 2 ^ 21 + 8 * i) 8 = mouldWord a.mould (8 + i))) ∧
      (∀ code, startFault s pkg a image = some code → ∃ t : State, exec (.pourStart pkg pid) s = .next t ∧ t.domains = s.domains ∧ t.cores = s.cores)) ∧
    (∀ (d : Domain), findDom s pid = some d →
      let gone := fun (t : State) => findDom t pid = none ∧ ∀ k ∈ d.all, (getCore t k).pid = 0
      let done := d.status = .run ∧ ∀ k ∈ d.all, coreDone (getCore s k) = true
      (done → ∃ t : State, exec (.pourEnd pid) s = .next t ∧ gone t) ∧ (¬ done → exec (.pourEnd pid) s = .next s) ∧
      (∀ tok, d.schedStop = some (.kill tok) → (d.status = .held → ∃ t : State, exec (.pourKill pid) s = .next t ∧ gone t) ∧
        (d.status = .run → exec (.pourKill pid) s = .next s)) ∧
      (∀ i p tok, d.schedStop = some (.checkpoint i p tok) → d.status = .held → d.stopAt ≠ none → d.doomed = false →
        transfersPending s d = false → (d.saveNow = true ∨ ∀ k ∈ d.all, (getCore s k).stop = none) → ∃ t : State, exec (.checkpointSave pid) s = .next t ∧ gone t ∧
        (∃ v r, t.saved = v :: r ∧ v.area = ckptArea s d d.home ∧ v.pid = pid ∧ v.dom = d ∧
          v.restored = false ∧ (∀ x ∈ s.saved, x.pid ≠ pid → x.area ≠ v.area → x ∈ r) ∧
          ∀ n, n < d.cores.length → let c := getCore s (d.cores.getD n 0)
            (v.cores.getD n (0, {})).2 = { c with inflight := c.inflight.filter (fun f => !isReach f.eff) }) ∧
        ∃ a l, (getPkg t d.home).waiting = l ++ [a] ∧ a.pid = pid ∧ a.restore = some (ckptArea s d d.home) ∧ a.floor = d.priority ∧
          a.admitted = false)) ∧
    (∀ a area v, findArmed s pkg pid = some a → a.admitted = true → a.restore = some area →
      savedAt s area = some v → v.pid = pid → a.cores.length = mPkgs a.mould * mNeed a.mould →
      let d := newDomain s pkg a
      ∃ t : State, exec (.pourRestore pkg pid) s = .next t ∧ t.mem = s.mem ∧
        (∃ e ∈ t.domains, e.pid = pid ∧ e.freeze = some (Memory.word s.mem (area + 16)).toNat ∧
          e.holdClocks = v.dom.holdClocks ∧ e.heldAt = s.clock ∧ (e.status = .held ∨ e.status = .catchUp)) ∧
        ∀ k ∈ d.all, let slot := slotAt area (relOf d k)
          (getCore t k).dcc = (Memory.word s.mem (slot + 0x1A4010)).toNat ∧
          ∀ x, x < 0x180000 → Memory.read (getCore t k).spad x = Memory.read s.mem (slot + x))

/-- O57 (R212, R213, R279, R290, R292, R293, R311, R322, R338, R355). Traffic without a timetable. A part of a put is applied at the
address that its window and the target's range give, and counted there; a part of a get, of a cast get a block expanded, lands in the
getter's scratchpad and is counted; a failing part stops the transfer with a record, as does a window whose registration is gone; a sector
that is not resident parks it. The window is the one registered at the issue, while a registration stands (log 85). Host DMA is refused
whole, or its units move, each queue in its order; a unit without a resident destination parks, one without a resident source fails.
Compaction of an unpinned range (log 22) of the partition's own copies 64 bytes from the old backing to the new; the old one stays until
every core that held the range has run 1,280 cycles since the change reached it and no entry in flight, held or saved names it. Bytes wait for the next local clock where a runner has the
block's port. Which ASID list decides is log 37, what a parked unit keeps is R338's. A host transfer that fails moves nothing more (log
44), and one that a frozen pour meets before it started is dropped (R311); the agents of counted bytes are log 47's, the CODE and DETAIL
words of a failed transfer's record log 26's. -/
def Obligations.Transfers : Prop :=
  ∀ (s : State) (id : Nat), tidy s = true →
    (∀ (x : Xfer) (tp : Nat) (i : Instr), findXfer s id = some x → x.get = false → x.done < x.len →
      (i = .windowPutApply id ∧ x.parked = false ∧ x.done + 64 ≤ x.read) ∨ (i = .parkedTransferRetry id ∧ x.parked = true) →
      packageAt s x.pkg (windowWord x 2 / 2 ^ 12 % 2 ^ 8) = some tp → windowStands s x →
      x.off + x.done + 64 ≤ windowWord x 1 % 2 ^ 40 →
      let asid := windowWord x 2 % 2 ^ 12
      let k := tp * 1024 + windowWord x 2 / 2 ^ 20 % 2 ^ 10
      let lc := windowWord x 2 / 2 ^ 30 % 2 ^ 6
      let runs := fun (d : Domain) => findDom s (getCore s k).pid = some d ∧ d.asid = asid
      (∀ (d : Domain), runs d → ¬ ((d.status = .held ∨ d.status = .catchUp) ∧ stopsDomain d = true ∧ d.heldAt < x.start)) →
      (∀ (key : Nat), unitAt s tp asid (partAddr x) 2 = .reaches key → ∃ (u : State) (y : Xfer), exec i s = .next u ∧
        (∀ (a : Nat), Memory.read u.mem a = lastOr (Memory.read s.mem a)
          (storedAt s (.memWrite key 64 (2 ^ 64 - 1) (Memory.readNat x.data x.done 64) none) a)) ∧
        findXfer u id = some y ∧ y.done = x.done + 64 ∧ y.acked = x.acked ∧ y.len = x.len ∧ y.parked = false ∧ u.domains = s.domains ∧
        ((∀ (d : Domain), ¬ runs d) → u.cores = s.cores) ∧
        (∀ (d : Domain), runs d → partnerOf d k ≠ some k →
          (getLc (getCore u k) lc).cnt = BitVec.ofNat 40 (countAfter (getLc (getCore s k) lc) 64) ∧
          (getCore u k).spad = (getCore s k).spad ∧ ∀ q, q ≠ k → partnerOf d k ≠ some q → getCore u q = getCore s q)) ∧
      (∀ (code sector : Nat), unitAt s tp asid (partAddr x) 2 = .stops code sector → code ≠ 0x09 → ∃ u : State, exec i s = .next u ∧
        u.mem = (reported s x code asid (partAddr x) sector).mem ∧ u.cores = s.cores ∧ ∀ y, findXfer u id = some y → y.len = y.done) ∧
      (∀ (sector : Nat), unitAt s tp asid (partAddr x) 2 = .stops 0x09 sector → (x.parked = true → exec i s = .next s) ∧
        (x.parked = false → ∃ u : State, exec i s = .next u ∧ u.mem = (reported s x 0x09 asid (partAddr x) sector).mem ∧ u.cores = s.cores ∧
          findXfer u id = some { x with parked := true }))) ∧
    (∀ (x : Xfer) (i : Instr), findXfer s id = some x → x.done < x.len → ¬ windowStands s x →
      (i = .windowPutApply id ∧ x.get = false ∧ x.parked = false ∧ x.done + 64 ≤ x.read) ∨ (i = .parkedTransferRetry id ∧ x.get = false ∧ x.parked = true) ∨
        (i = .windowGetReturn id ∧ x.get = true ∧ x.parked = false ∧ featOn s x.core x.part 2 = false ∧
          ∃ d, findDom s x.pid = some d ∧ portTaken s d x.core (x.spad + x.done) 64 (·.portWrites) = false) →
      ∃ (u : State) (detail : List Word), exec i s = .next u ∧ u.mem = (xferReport s x 0x08 detail).mem ∧ u.cores = s.cores ∧
        ∀ y, findXfer u id = some y → y.len = y.done) ∧
    (∀ (x : Xfer) (d : Domain), findXfer s id = some x → x.get = false → x.acked < x.done → findDom s x.pid = some d → partnerOf d x.core ≠ some x.core → ∃ u : State,
      exec (.windowPutAck id) s = .next u ∧ u.mem = s.mem ∧
      (getLc (getCore u x.core) x.lc).cnt = BitVec.ofNat 40 (countAfter (getLc (getCore s x.core) x.lc) (x.done - x.acked)) ∧
      ∀ y, findXfer u id = some y → y.acked = y.done) ∧
    (∀ (x : Xfer) (d : Domain) (tp : Nat) (i : Instr), findXfer s id = some x → x.get = true → x.done < x.len → findDom s x.pid = some d → partnerOf d x.core ≠ some x.core →
      (i = .windowGetReturn id ∧ x.parked = false) ∨ (i = .parkedTransferRetry id ∧ x.parked = true) →
      packageAt s x.pkg (windowWord x 2 / 2 ^ 12 % 2 ^ 8) = some tp → windowStands s x →
      x.off + x.done + 64 ≤ windowWord x 1 % 2 ^ 40 → featOn s x.core x.part 2 = false →
      (portTaken s d x.core (x.spad + x.done) 64 (·.portWrites) = true → exec i s = .next (actLater s i)) ∧
      (portTaken s d x.core (x.spad + x.done) 64 (·.portWrites) = false →
      let asid := windowWord x 2 % 2 ^ 12
      (∀ (key : Nat), unitAt s tp asid (partAddr x) 1 = .reaches key → ∃ u : State, exec i s = .next u ∧ u.mem = s.mem ∧
        (∀ n, n < 64 → Memory.read (getCore u x.core).spad (x.spad + x.done + n) = Memory.read s.mem (key + n)) ∧
        (∀ a, a < x.spad + x.done ∨ x.spad + x.done + 64 ≤ a → Memory.read (getCore u x.core).spad a = Memory.read (getCore s x.core).spad a) ∧
        (getLc (getCore u x.core) x.lc).cnt = BitVec.ofNat 40 (countAfter (getLc (getCore s x.core) x.lc) 64)) ∧
      (∀ (code sector : Nat), unitAt s tp asid (partAddr x) 1 = .stops code sector → code ≠ 0x09 → ∃ u : State, exec i s = .next u ∧
        u.mem = (reported s x code asid (partAddr x) sector).mem ∧ u.cores = s.cores ∧ ∀ y, findXfer u id = some y → y.len = y.done))) ∧
    (∀ (x : Xfer) (d : Domain) (tp : Nat) (e : RangeEntry), findXfer s id = some x → x.get = true → x.parked = false → x.done < x.len →
      findDom s x.pid = some d → partnerOf d x.core ≠ some x.core → packageAt s x.pkg (windowWord x 2 / 2 ^ 12 % 2 ^ 8) = some tp →
      windowStands s x → featOn s x.core x.part 2 = true →
      let asid := windowWord x 2 % 2 ^ 12
      let va := windowWord x 0 % 2 ^ 57 + x.off + x.read
      let left := windowWord x 1 % 2 ^ 40 - (x.off + x.read)
      let n := min 256 (x.len - x.done)
      (listRanges s tp asid).find? (fun e => decide (e.ctl.toNat % 2 = 1 ∧ e.ctl.toNat / 2 ^ 8 % 2 ^ 12 = asid ∧
        e.base.toNat ≤ windowWord x 0 % 2 ^ 57 + x.off ∧ windowWord x 0 % 2 ^ 57 + x.off < e.limit.toNat)) = some e →
      e.ctl.toNat / 2 ^ 4 % 2 = 1 →
      (portTaken s d x.core (x.spad + x.done) n (·.portWrites) = true →
        exec (.windowGetReturn id) s = .next (actLater s (.windowGetReturn id))) ∧
      (portTaken s d x.core (x.spad + x.done) n (·.portWrites) = false →
        (∀ key v len, (∀ i, 8 * i < len → unitAt s tp asid (va + 8 * i) 1 = .reaches (key + 8 * i)) → castBlockIs s.mem key (key + left) v len →
          ∃ u : State, exec (.windowGetReturn id) s = .next u ∧ u.mem = s.mem ∧
          (∀ b, b < n → Memory.read (getCore u x.core).spad (x.spad + x.done + b) = BitVec.ofNat 8 (v / 256 ^ b)) ∧
          (∀ a, a < x.spad + x.done ∨ x.spad + x.done + n ≤ a → Memory.read (getCore u x.core).spad a = Memory.read (getCore s x.core).spad a) ∧
          (getLc (getCore u x.core) x.lc).cnt = BitVec.ofNat 40 (countAfter (getLc (getCore s x.core) x.lc) n) ∧
          ∀ y, findXfer u id = some y → y.done = x.done + n ∧ y.read = x.read + len) ∧
        (∀ code sector, 8 ≤ left → unitAt s tp asid va 1 = .stops code sector → code ≠ 0x09 → ∃ u : State,
          exec (.windowGetReturn id) s = .next u ∧ u.mem = (xferReport s x code [toWord (x.done / 256)]).mem ∧ u.cores = s.cores ∧
          ∀ y, findXfer u id = some y → y.len = y.done))) ∧
    (∀ (pkg fn : Nat) (w0 w1 w2 w3 : Word),
      let p := getPart s pkg (fn - 1)
      let len := w2.toNat % 2 ^ 40
      let core := w2.toNat / 2 ^ 46 % 2 ^ 10
      let moves := w2.toNat / 2 ^ 62 % 2 = 1
      let counts := w2.toNat / 2 ^ 61 % 2 = 1
      let good := w0.toNat % 64 = 0 ∧ w1.toNat < 2 ^ 57 ∧ w1.toNat % 64 = 0 ∧ w2.toNat / 2 ^ 56 % 2 ^ 5 = 0 ∧ w3.toNat < 2 ^ 12 ∧ len % 64 = 0 ∧
        0 < len ∧ w3.toNat ∈ p.asids ∧ core ∈ p.cores ∧
        (moves → w1.toNat < 2 ^ 21 ∧ inBlock (w1.toNat : Int) ((w1.toNat + len : Nat) : Int))
      (fn = 0 ∨ p.configured = false → exec (.hostDmaDescriptor pkg fn w0 w1 w2 w3) s = .next s) ∧
      (fn ≠ 0 → p.configured = true → good → ∃ (u : State) (x : Dma), exec (.hostDmaDescriptor pkg fn w0 w1 w2 w3) s = .next u ∧
        (getPkg u pkg).dma = (getPkg s pkg).dma ++ [x] ∧ x.id = s.nextId ∧ x.haddr = w0.toNat ∧ x.daddr = w1.toNat ∧ x.len = len ∧
        x.asid = w3.toNat ∧ x.core = pkg * 1024 + core ∧ x.done = 0 ∧ (x.toHost = true ↔ w2.toNat / 2 ^ 63 = 1) ∧ (x.spad = true ↔ moves) ∧
        (x.started = true ↔ ¬ moves ∧ ¬ counts) ∧ u.mem = s.mem ∧ u.cores = s.cores ∧ u.host = s.host) ∧
      (fn ≠ 0 → p.configured = true → ¬ good → ∃ u : State, exec (.hostDmaDescriptor pkg fn w0 w1 w2 w3) s = .next u ∧ u.nextId = s.nextId ∧
        u.cores = s.cores ∧ u.host = s.host)) ∧
    (∀ (x : Dma), findDma s id = some x → x ∈ (getPkg s x.pkg).dma →
      let pour := fun (d : Domain) => findDom s (getCore s x.core).pid = some d ∧ d.asid = x.asid
      let behind := ∃ y ∈ (getPkg s x.pkg).dma, y.fn = x.fn ∧ y.id < x.id ∧ y.started = false
      (((∀ (d : Domain), ¬ pour d) ∨ (∃ d, pour d ∧ d.dcc = 0) ∨ x.started = true ∨ behind) → exec (.hostDmaStart id) s = .next s) ∧
      (∀ (d : Domain), Sparse.wfFrom {} 0 s.pkgs = true → pour d → d.dcc ≠ 0 → x.started = false → ¬ behind →
          (d.status = .held ∨ d.status = .catchUp) ∧ stopsDomain d = true → ∃ u : State,
        exec (.hostDmaStart id) s = .next u ∧ (∀ y ∈ (getPkg u x.pkg).dma, y.id ≠ id) ∧ u.cores = s.cores ∧ u.host = s.host) ∧
      (∀ (d : Domain), pour d → d.dcc ≠ 0 → x.started = false → ¬ behind → ¬ ((d.status = .held ∨ d.status = .catchUp) ∧ stopsDomain d = true) → ∃ u : State, exec (.hostDmaStart id) s = .next u ∧
        (getPkg u x.pkg).dma = (getPkg s x.pkg).dma.map (fun y => if y.id = id then { y with started := true, pid := d.pid } else y) ∧
        u.mem = s.mem ∧ u.cores = s.cores ∧ u.host = s.host) ∧
      (x.started = false ∨ x.parked = true → exec (.hostDmaUnit id) s = .next s) ∧
      (x.started = true → x.parked = false → x.spad = false → x.cnt = false →
        (∀ (key : Nat), unitAt s x.pkg x.asid (x.daddr + x.done) (if x.toHost = true then 1 else 2) = .reaches key → ∃ u : State,
          exec (.hostDmaUnit id) s = .next u ∧ u.cores = s.cores ∧
          (x.toHost = true → Memory.wf s.host = true → u.mem = s.mem ∧
            Memory.readNat u.host (x.haddr + x.done) 64 = Memory.readNat s.mem key 64) ∧
          (x.toHost = false → u.host = s.host ∧ ∀ a, Memory.read u.mem a = lastOr (Memory.read s.mem a)
            (storedAt s (.memWrite key 64 (2 ^ 64 - 1) (Memory.readNat s.host (x.haddr + x.done) 64) none) a)) ∧
          (x.done + 64 < x.len → { x with done := x.done + 64, parked := false } ∈ (getPkg u x.pkg).dma)) ∧
        (∀ (code sector : Nat), unitAt s x.pkg x.asid (x.daddr + x.done) (if x.toHost = true then 1 else 2) = .stops code sector → ∃ u : State,
          exec (.hostDmaUnit id) s = .next u ∧ u.cores = s.cores ∧ u.host = s.host ∧
          (code ≠ 0x09 ∨ x.toHost = true → ∀ y ∈ (getPkg u x.pkg).dma, y.id ≠ id) ∧
          (code = 0x09 → x.toHost = false → { x with parked := true, hold := Memory.readNat s.host (x.haddr + x.done) 64 } ∈ (getPkg u x.pkg).dma))) ∧
      (x.parked = true → findXfer s id = none → x.spad = false → x.cnt = false → x.toHost = false →
        ∀ (key : Nat), unitAt s x.pkg x.asid (x.daddr + x.done) 2 = .reaches key → ∃ u : State, exec (.parkedTransferRetry id) s = .next u ∧
          u.cores = s.cores ∧ u.host = s.host ∧ ∀ a, Memory.read u.mem a = lastOr (Memory.read s.mem a)
            (storedAt s (.memWrite key 64 (2 ^ 64 - 1) x.hold none) a)) ∧
      (∀ (d : Domain), x.started = true → x.parked = false → x.spad = true → (getCore s x.core).pid = x.pid → findDom s x.pid = some d →
        let taken := portTaken s d x.core (x.daddr + x.done) 64 (if x.toHost = true then (·.portReads) else (·.portWrites))
        (taken = true → exec (.hostDmaUnit id) s = .next (actLater s (.hostDmaUnit id))) ∧ (taken = false → ∃ u : State,
        exec (.hostDmaUnit id) s = .next u ∧ u.mem = s.mem ∧
        (x.toHost = true → Memory.wf s.host = true →
          Memory.readNat u.host (x.haddr + x.done) 64 = Memory.readNat (getCore s x.core).spad (x.daddr + x.done) 64 ∧
          u.cores = s.cores) ∧
        (x.toHost = false → u.host = s.host ∧
          Memory.readNat (getCore u x.core).spad (x.daddr + x.done) 64 = Memory.readNat s.host (x.haddr + x.done) 64)))) ∧
    (∀ (pkg part asid base dest : Nat) (e : RangeEntry), (listRanges s pkg asid).find? (fun e => e.base.toNat == base) = some e →
      let foreign := foreignAsid s pkg part asid = true ∨ foreignRun s pkg part dest (e.limit.toNat - base) = true
      (rangePinned s pkg asid base = true ∨ foreign → exec (.compactionMove pkg part asid base dest) s = .next s) ∧
      (rangePinned s pkg asid base = false → ¬ foreign → dest + (e.limit.toNat - base) ≤ 2 ^ 39 →
        (∀ (c : Compaction), (getPkg s pkg).compactions.find? (fun c => c.asid == asid && c.base == base) = some c → c.moved = none → c.copied < c.len →
          e.res.toNat / 2 ^ e.sector (c.base + c.copied) % 2 = 1 → ∃ u : State, exec (.compactionMove pkg part asid base dest) s = .next u ∧
          Memory.readNat u.mem (pkg * 2 ^ 39 + c.newPhys + c.copied) 64 = Memory.readNat s.mem (pkg * 2 ^ 39 + c.oldPhys + c.copied) 64 ∧
          (∀ a, a < pkg * 2 ^ 39 + c.newPhys + c.copied ∨ pkg * 2 ^ 39 + c.newPhys + c.copied + 64 ≤ a →
            Memory.read u.mem a = Memory.read s.mem a) ∧
          { c with copied := c.copied + 64 } ∈ (getPkg u pkg).compactions ∧ u.cores = s.cores) ∧
        ((getPkg s pkg).compactions.find? (fun c => c.asid == asid && c.base == base) = none → ∃ (u : State) (c : Compaction),
          exec (.compactionMove pkg part asid base dest) s = .next u ∧ c ∈ (getPkg u pkg).compactions ∧ c.asid = asid ∧ c.base = base ∧
          c.newPhys = dest ∧ c.len = e.limit.toNat - base ∧ c.moved = none ∧ c.applied = [] ∧ u.cores = s.cores))) ∧
    (∀ (pkg part asid base : Nat), ∃ u : State, exec (.compactionRelease pkg part asid base) s = .next u ∧ u.mem = s.mem ∧ u.cores = s.cores ∧
      ∀ c ∈ (getPkg s pkg).compactions, c.moved = none ∨
          (∃ y, (y ∈ s.cores ∨ ∃ v ∈ s.saved, v.restored = false ∧ y ∈ v.cores) ∧ ∃ f ∈ y.2.inflight,
            namesBacking c.pkg { base := toWord c.oldPhys, limit := toWord (c.oldPhys + c.len) } f = true) ∨ (∃ t, c.moved = some t ∧ s.clock < t + 1280) ∨
          (∃ a ∈ c.applied, (getCore s a.1).pid = a.2.1 ∧ (getCore s a.1).dcc < a.2.2 + 1280) → c ∈ (getPkg u pkg).compactions) ∧
    (∀ (pkg part asid base : Nat) (c : Compaction) (t : Nat), Sparse.wfFrom {} 0 s.pkgs = true → c.part = part → c.asid = asid → c.base = base →
      c.moved = some t → t + 1280 ≤ s.clock → (∀ k, (∃ p ∈ (getCore s k).ranges, isRange asid base p.2 = true) →
        ∀ f ∈ (getCore s k).inflight, ∀ n, f.eff ≠ .rret asid base n) →
      (∀ a ∈ c.applied, (getCore s a.1).pid ≠ a.2.1 ∨ a.2.2 + 1280 ≤ (getCore s a.1).dcc) →
      (∀ y, y ∈ s.cores ∨ (∃ v ∈ s.saved, v.restored = false ∧ y ∈ v.cores) → ∀ f ∈ y.2.inflight,
        namesBacking c.pkg { base := toWord c.oldPhys, limit := toWord (c.oldPhys + c.len) } f = false) → ∃ u : State,
      exec (.compactionRelease pkg part asid base) s = .next u ∧ c ∉ (getPkg u pkg).compactions)

/-- O58 (R177, R292, R300, R301, R306, R308, R312, R326, R341, R357, R358, R363, R366). The mailbox of a partition: each command's effects
and its status, 0 done, 1 refused, 2 busy. A partition that is not configured has no effect; KILL and CKPT decide a stop, RESUME begins
the catch-up, and TLOAD writes an entry of a stopped core's table. The POLICY fields and the operands of RESTORE and REPAIR are the
model's (log 13), and so is CKPT as the word that a frozen pour is saved with its cores stopped (log 74). ARMX with arming stopped is log
39, that a free entry is the lowest log 91, KILL without KIL log 43, the core of a WINDOW log 50; that RESTORE goes by the header in the
area's bytes is log 12, and which of several member packages' cores TLOAD means log 84, and that it
writes the table of the core's pair partner too log 46. RESTORE takes no area in another partition's memory (R357), TLOAD no core that a
deferred fault has not stopped or has stopped for good (R314, R358), and a new threshold is held against the sensors at once (R366). -/
def Obligations.MailboxCommands : Prop :=
  ∀ (s : State) (pkg part : Nat),
    let p := getPart s pkg part
    let answers := fun (i : Instr) (t : State) (v : Nat) => exec i s = .next (modPart t pkg part (fun p => { p with status := v }))
    let owned := fun (m : List Word) => (m.getD 0 0).toNat / 2 ^ 63 = 1 ∧ (m.getD 0 0).toNat / 2 ^ 56 % 2 ^ 4 = part
    let key := fun (pid : Nat) => pkg * 2 ^ 64 + pid % 2 ^ 64
    let runs := fun (pid : Nat) (d : Domain) => findDom s (key pid) = some d ∧ d.part = part
    (p.configured = false → ∀ (no : Nat) (rec : List Word) (area die a b : Nat) (v : Word) (pid core n : Nat), ∀ i ∈ [Instr.build pkg part no rec, .armx pkg part no, .kill pkg part pid,
      .ckpt pkg part pid, .resume pkg part pid, .restore pkg part area, .rings pkg part die a b, .window pkg part n rec, .policy pkg part die n v,
      .repair pkg part die core, .tload pkg part pid core n rec], exec i s = .next s) ∧
    (p.configured = true →
      (∀ (no : Nat) (rec : List Word), let m := (List.range 32).map (fun i => rec.getD i 0)
        let old := (getPkg s pkg).moulds
        let bad := 4096 ≤ no ∨ (m.getD 0 0).toNat / 2 ^ 56 % 2 ^ 4 ≠ part ∨ ((Sparse.get [] old no).getD 0 0).toNat / 2 ^ 63 = 1 ∧
          ((Sparse.get [] old no).getD 0 0).toNat / 2 ^ 56 % 2 ^ 4 ≠ part ∨
          foreignAsid s pkg part ((m.getD 0 0).toNat / 2 ^ 24 % 2 ^ 12) = true ∨ (∃ n ∈ [1, 2], foreignAddr s pkg part ((m.getD n 0).toNat % 2 ^ 39) = true) ∨
          (m.getD 4 0 ≠ 0 ∧ foreignAddr s pkg part ((m.getD 4 0).toNat % 2 ^ 39) = true)
        (bad → answers (.build pkg part no rec) s 1) ∧
        (¬ bad → answers (.build pkg part no rec) (modPkg s pkg (fun q => { q with moulds := Sparse.set [] q.moulds no m })) 0)) ∧
      (∀ (no : Nat), let m := Sparse.get [] (getPkg s pkg).moulds no
        (¬ owned m → answers (.armx pkg part no) s 2) ∧
        (owned m → p.arming = false ∨ (∀ (e : Nat), e < 64 → ∃ a ∈ p.pool, a.entry = e) → answers (.armx pkg part no) s 1) ∧
        (∀ (e : Nat), owned m → p.arming = true → e < 64 → (∀ a ∈ p.pool, a.entry ≠ e) → (∀ x : Nat, x < e → ∃ a ∈ p.pool, a.entry = x) → ∃ (u : State) (a : Armed),
          exec (.armx pkg part no) s = .next u ∧ (getPart u pkg part).status = e * 2 ^ 8 ∧ (getPart u pkg part).pool = p.pool ++ [a] ∧
          a.entry = e ∧ a.mould = m ∧ a.mouldNo = no ∧ a.part = part ∧ a.pid = key (part * 2 ^ 60 + (p.arms + 1) % 2 ^ 60) ∧
          a.admitted = false ∧ (getPart u pkg part).arms = p.arms + 1 ∧ u.domains = s.domains ∧ u.cores = s.cores ∧ u.mem = s.mem)) ∧
      (∀ (pid : Nat) (d : Domain), runs pid d →
        answers (.kill pkg part pid) (modDom s d.pid (fun d => { d with schedStop := some (.kill 0) })) 0 ∧
        (let asks := d.status = .held ∧ d.stopAt ≠ none ∧ d.saveNow = false ∧ (∃ k ∈ d.all, (getCore s k).stop ≠ none) ∧
           ∃ i q tok, d.schedStop = some (.checkpoint i q tok)
         (asks → answers (.ckpt pkg part pid) (modDom s d.pid (fun d => { d with saveNow := true })) 0) ∧
         (¬ asks → d.schedStop ≠ none → answers (.ckpt pkg part pid) s 2)) ∧
        (d.schedStop = none → (d.mould.getD 0 0).toNat / 2 ^ 62 % 2 = 0 ∨ usableRtt s d = none →
          answers (.ckpt pkg part pid) s 1) ∧
        (∀ (i q r : Nat), d.schedStop = none → (d.mould.getD 0 0).toNat / 2 ^ 62 % 2 = 1 → usableRtt s d = some (i, q, r) →
          answers (.ckpt pkg part pid) (modDom s d.pid (fun d => { d with schedStop := some (.checkpoint i q 0) })) 0) ∧
        (∀ (i q r : Nat), usableRtt s d = some (i, q, r) →
          let base := d.home * 2 ^ 39 + (d.mould.getD 4 0).toNat % 2 ^ 39
          q = (Memory.word s.mem (base + 16 * i)).toNat ∧ d.dcc + d.h ≤ q ∧ i < (d.mould.getD 5 0).toNat % 2 ^ 16 ∧
          ∀ j, j < i → (Memory.word s.mem (base + 16 * j)).toNat < d.dcc + d.h) ∧
        (let stopped := (d.status = .held ∨ d.status = .catchUp) ∧ d.doomed = false ∧ ∃ k ∈ d.all, (getCore s k).stop ≠ none
         (¬ stopped → answers (.resume pkg part pid) s 1) ∧
         (stopped → tidy s = true → ∃ (u : State) (e : Domain), exec (.resume pkg part pid) s = .next u ∧ (getPart u pkg part).status = 0 ∧
           findDom u d.pid = some e ∧ e.status = .catchUp ∧ e.dcc ≤ d.dcc ∧ (∀ c ∈ e.causes, c.code = 6 → c.cleared = true ∧ c.agent.kind = 5 ∧ (s.ctx.sys = true → c.agent.core = numOf s.ctx.core)) ∧
           (∀ k ∈ d.all, (getCore u k).stop = none ∧ ∀ x : Stop, (getCore s k).stop = some x → e.dcc ≤ x.cycle) ∧
           e.causes.filter (fun c => c.code != 6) = d.causes.filter (fun c => c.code != 6) ∧ u.mem = s.mem))) ∧
      (∀ (pid : Nat), (∀ (d : Domain), ¬ runs pid d) → answers (.ckpt pkg part pid) s 1 ∧ answers (.resume pkg part pid) s 1 ∧
        (∀ (a : Armed), findArmed s pkg (key pid) = some a → a.part = part → ∃ t : State, answers (.kill pkg part pid) t 0 ∧ t.domains = s.domains ∧
          t.cores = s.cores) ∧
        ((∀ (a : Armed), findArmed s pkg (key pid) = some a → a.part ≠ part) → answers (.kill pkg part pid) s 1)) ∧
      (∀ (area : Nat), let at' := pkg * 2 ^ 39 + area % 2 ^ 39
        (∀ (v : Saved), savedAt s at' = some v → v ∈ s.saved ∧ v.area / 2 ^ 39 = pkg ∧ v.pid % 2 ^ 64 = (Memory.word s.mem at').toNat ∧
          v.dom.freeze.getD v.dom.dcc % 2 ^ 64 = (Memory.word s.mem (at' + 16)).toNat) ∧
        (∀ (v : Saved), savedAt s at' = some v →
          (foreignAddr s pkg part (area % 2 ^ 39) = true ∨ v.dom.part ≠ part ∨ findDom s v.pid ≠ none ∨ findArmed s pkg v.pid ≠ none → answers (.restore pkg part area) s 1) ∧
          (foreignAddr s pkg part (area % 2 ^ 39) = false → v.dom.part = part → findDom s v.pid = none → findArmed s pkg v.pid = none → ∃ a : Armed, a.pid = v.pid ∧ a.part = part ∧
            a.mouldNo = v.dom.mouldNo ∧ a.mould = v.dom.mould ∧ a.floor = v.dom.priority ∧ a.restore = some at' ∧ a.admitted = false ∧
            answers (.restore pkg part area) (modPkg s pkg (fun q => { q with waiting := q.waiting ++ [a] })) 0)) ∧
        (savedAt s at' = none → answers (.restore pkg part area) s 1)) ∧
      (∀ (die a b : Nat), let bad := 4 ≤ die ∨ 2 ^ 39 ≤ a ∨ 2 ^ 39 ≤ b ∨ foreignAddr s pkg part a = true ∨ foreignAddr s pkg part b = true
        (bad → answers (.rings pkg part die a b) s 1) ∧
        (¬ bad → answers (.rings pkg part die a b) (modPart s pkg part (fun q => { q with
          traceRings := Sparse.set 0 q.traceRings die (a + 1), waitRings := Sparse.set 0 q.waitRings die (b + 1) })) 0)) ∧
      (∀ (w : Nat) (rec : List Word), let r := (List.range 4).map (fun i => rec.getD i 0)
        let x := fun (n : Nat) => (r.getD n 0).toNat
        let put := fun (v : List Word) => modPkg s pkg (fun q => { q with windows := Sparse.set [] q.windows (part * 256 + w) v })
        let exported := ∃ t q : Nat, packageAt s pkg (x 2 / 2 ^ 12 % 2 ^ 8) = some t ∧ asidOwner s t (x 2 % 2 ^ 12) = some q ∧
          (x 0 % 2 ^ 57, x 1 % 2 ^ 40, x 2 % 2 ^ 12) ∈ Sparse.get [] (getPkg s t).exports q
        let good := x 0 < 2 ^ 57 ∧ x 0 % 64 = 0 ∧ x 1 < 2 ^ 40 ∧ x 1 % 64 = 0 ∧ x 2 / 2 ^ 36 % 2 ^ 27 = 0 ∧ x 3 = 0 ∧ exported
        (256 ≤ w → answers (.window pkg part w rec) s 1) ∧ (w < 256 → x 2 < 2 ^ 63 → answers (.window pkg part w rec) (put []) 0) ∧
        (w < 256 → 2 ^ 63 ≤ x 2 → good → answers (.window pkg part w rec) (put r) 0) ∧
        (w < 256 → 2 ^ 63 ≤ x 2 → ¬ good → answers (.window pkg part w rec) (put []) 1)) ∧
      (∀ (die field : Nat) (value : Word), field ≠ 0 → foreignAddr s pkg part (field - 1) = true → answers (.policy pkg part die field value) s 1) ∧
      (∀ (die field : Nat) (value : Word), field = 0 ∨ foreignAddr s pkg part (field - 1) = false → Sparse.wfFrom 0 0 (getPkg s pkg).power = true →
        ∃ u : State, exec (.policy pkg part die field value) s = .next u ∧ (getPart u pkg part).status = 0 ∧
        (getPkg u pkg).emergency = (if field = 2 ^ 39 + 1 then value.toNat else (getPkg s pkg).emergency) ∧
        (∀ n, Sparse.get 0 (getPkg u pkg).power n = if field = n + 1 then value.toNat else Sparse.get 0 (getPkg s pkg).power n) ∧
        (die, field, value) ∈ (getPkg u pkg).policies ∧ (getPkg u pkg).powerBudget = (if field = 0 then value.toNat else (getPkg s pkg).powerBudget) ∧
        u.cores = s.cores ∧ u.mem = s.mem ∧
        let above := fun (n : Nat) => ∃ x ∈ (getPkg s pkg).sensors, n < x.2
        let th := (getPkg s pkg).thermal
        (field ≠ 2 ^ 39 + 1 ∨ th = true ∨ ¬ above value.toNat → u.domains = s.domains) ∧
        (field ≠ 2 ^ 39 + 1 → (getPkg u pkg).thermal = th) ∧
        (field = 2 ^ 39 + 1 → ((getPkg u pkg).thermal = true ↔ (th = false ∧ above value.toNat) ∨ (th = true ∧ above (value.toNat - 5))) ∧
          (th = false → above value.toNat → ∀ d, findDom s d.pid = some d → pkg ∈ d.pkgs → d.status = .run → ∃ e, findDom u d.pid = some e ∧
            e.dcc = d.dcc ∧ e.causes.any (fun x => x.code == 3 && !x.cleared) = true))) ∧
      (∀ (die core : Nat), let k := pkg * 1024 + core
        let held := (getCore s k).pid ≠ 0 ∨ k ∈ reservedCores s 0
        let mine := core < 640 ∧ core / 160 = die ∧ core ∈ p.cores
        (¬ mine → answers (.repair pkg part die core) s 1) ∧ (mine → held → answers (.repair pkg part die core) s 2) ∧
        (mine → ¬ held → 8 ≤ Sparse.get 0 (getPkg s pkg).sparesUsed die → answers (.repair pkg part die core) s 1) ∧
        (mine → ¬ held → Sparse.get 0 (getPkg s pkg).sparesUsed die < 8 → tidy s = true → ∃ u : State, exec (.repair pkg part die core) s = .next u ∧
          (getPart u pkg part).status = 0 ∧ getCore u k = {} ∧ (∀ (q : Nat), q ≠ k → getCore u q = getCore s q) ∧
          (getPkg u pkg).sparesUsed = Sparse.set 0 (getPkg s pkg).sparesUsed die (Sparse.get 0 (getPkg s pkg).sparesUsed die + 1) ∧
          core ∈ (getPkg u pkg).failedCores ∧ u.mem = s.mem ∧ u.domains = s.domains)) ∧
      (∀ (pid core n : Nat) (image : List Word) (d : Domain), runs pid d →
        let k := memberCore s d core
        let e := entryOf (BitVec.ofNat 512 ((List.range 8).foldr (fun i a => (image.getD i (0 : Word)).toNat + 2 ^ 64 * a) 0))
        let stopped := ∃ x : Stop, (getCore s k).stop = some x ∧ isDeferred x.code = true ∧
          (getCore s k).repaired.count (Stream.code x.stream, (x.detail.getD 2 0).toNat, x.prog, (x.detail.getD 0 0).toNat) ≤ 1
        let ok := k ∈ d.all ∧ stopped ∧ n < 64 ∧ rloadFault (getCore s k).ranges n d.asid (getPart s (pkgOf k) part) (featOn s k part 1) e = none
        ((∃ q ∈ d.all, numOf q = core ∧ (getCore s q).stop ≠ none) → k ∈ d.all ∧ numOf k = core ∧ (getCore s k).stop ≠ none) ∧
        (¬ ok → answers (.tload pkg part pid core n image) s 1) ∧
        (ok → tidy s = true → ∃ u : State, exec (.tload pkg part pid core n image) s = .next u ∧ (getPart u pkg part).status = 0 ∧
          (∀ (q : Nat), q = k ∨ partnerOf d k = some q → Sparse.wfFrom {} 0 (getCore s q).ranges = true →
            Sparse.get {} (getCore u q).ranges n = (if e.valid = true then e else {})) ∧
          (∀ (q : Nat), q ≠ k → partnerOf d k ≠ some q → getCore u q = getCore s q) ∧ u.mem = s.mem ∧ u.domains = s.domains)))

/-- O59 (R328, R350, R354, R356, R359 to R362, R364, R367). Features, management registers, boot and measurement, lifecycle, attestation
and update in service. A measurement register changes only by SHA-512 of its old bytes and a 128-byte event record; a stage of the boot
that fails leaves the hub in reset; the boot of a hub that runs is its reset first (log 76). A token unlocks only with its words and its
signature right, in two steps, the keys wiped in the first and none taken till the second, and a retirement between the two stands; the port opens
once MEAS15 has been extended; the seventeenth after 16 failures is
not read. A commit that is ignored keeps the word in FEAT_ACCEPT (log 5). A function writes words of device memory through its BAR, none of
another partition's; the functions' addresses are log 14's, the SHA-512 and the signature checks log 8's. Boot, the debug port and the lifecycle are as log 48 has them, and the events of
type 6 as log 57 has them. -/
def Obligations.ServiceEvents : Prop :=
  ∀ (s : State) (pkg : Nat), Sparse.wfFrom {} 0 s.pkgs = true → let p := getPkg s pkg
    let event := fun (type part version : Nat) (image : List Byte) =>
      littleBytes 8 type ++ littleBytes 8 (part % 16 * 2 ^ 60 + version % 2 ^ 60) ++ sha512 image ++ List.replicate 48 (0 : Byte)
    let extends' := fun (q : Pkg) (n type part version : Nat) (image : List Byte) => Sparse.set 0 q.meas n
      (BitVec.ofNat 512 (digest (littleBytes 64 (Sparse.get 0 q.meas n).toNat ++ event type part version image)))
    let free := fun (q : Pkg) => q.measQueue = [] ∧ q.measAt ≠ s.clock + 1
    let reaches := fun (q : Pkg) (n type part version : Nat) (image : List Byte) =>
      (free p → q.meas = extends' p n type part version image ∧ q.measQueue = []) ∧
      (¬ free p → q.meas = p.meas ∧ q.measQueue = p.measQueue ++ [(n, event type part version image)])
    let signed := fun (root : BitVec 512) (image : List Byte) (signature : Nat) => Config.rsaVerify root.toNat (digest image) signature = true
    let runs := fun (part : Nat) => ∃ d ∈ s.domains, d.home = pkg ∧ d.part = part
    (∀ fn accept, let off := 17 ≤ fn ∨ fn ≠ 0 ∧ (getPart s pkg (fn - 1)).configured = false
      let busy := fn ≠ 0 ∧ ((getPart s pkg (fn - 1)).pool ≠ [] ∨ (∃ a ∈ p.waiting, a.part = fn - 1) ∨ runs (fn - 1))
      (off → exec (.featCommit pkg fn accept) s = .next s) ∧
      (¬ off → busy → exec (.featCommit pkg fn accept) s = .next (modPkg s pkg (fun q =>
        { q with featAccept := Sparse.set 0 q.featAccept fn accept }))) ∧
      (¬ off → ¬ busy → Sparse.wfFrom 0 0 p.featActive = true → Sparse.wfFrom 0 0 p.featAccept = true → ∃ u, exec (.featCommit pkg fn accept) s = .next u ∧
        Sparse.get 0 (getPkg u pkg).featActive fn = accept &&& Sparse.get 0 p.featOffer fn ∧
        (∀ g, g ≠ fn → Sparse.get 0 (getPkg u pkg).featActive g = Sparse.get 0 p.featActive g) ∧ u.cores = s.cores ∧ u.domains = s.domains)) ∧
    (∀ fn w v, w < 4 → (fn ≠ 0 → fn < 17 ∧ (getPart s pkg (fn - 1)).configured = true) →
      let at' := 2 ^ 41 * fn + 8 * w
      let word := fun (x : BitVec 256) => x.toNat / 2 ^ (64 * w) % 2 ^ 64
      (managementRead s pkg (at' + 0x100)).toNat = word (Sparse.get 0 p.featOffer fn) ∧
      (managementRead s pkg (at' + 0x120)).toNat = word (Sparse.get 0 p.featAccept fn) ∧
      (managementRead s pkg (at' + 0x140)).toNat = word (Sparse.get 0 p.featActive fn) ∧
      exec (.managementRegisterWrite pkg (at' + 0x100) v) s = .next s ∧ exec (.managementRegisterWrite pkg (at' + 0x140) v) s = .next s ∧
      (w < 3 → ∃ x : BitVec 256, exec (.managementRegisterWrite pkg (at' + 0x120) v) s =
          .next (modPkg s pkg (fun q => { q with featAccept := Sparse.set 0 q.featAccept fn x })) ∧
        ∀ i, i < 256 → x.getLsbD i = if i / 64 = w then v.getLsbD (i % 64) else (Sparse.get 0 p.featAccept fn).getLsbD i)) ∧
    (∀ c n v, c < 640 → n < 8 → exec (.managementRegisterWrite pkg (0x80000 + 0x80 * c + 0x40 + 8 * n) v) s =
      .next (modCore s (pkg * 1024 + c) (fun x => { x with evsel := Sparse.set 0 x.evsel n (v &&& 0x7FF) }))) ∧
    (∀ c n v, c < 640 → n < 8 → exec (.managementRegisterWrite pkg (0x80000 + 0x80 * c + 8 * n) v) s = .next s ∧
      managementRead s pkg (0x80000 + 0x80 * c + 8 * n) = Sparse.get 0 (getCore s (pkg * 1024 + c)).evcnt n ∧
      managementRead s pkg (0x80000 + 0x80 * c + 0x40 + 8 * n) = Sparse.get 0 (getCore s (pkg * 1024 + c)).evsel n) ∧
    (∀ fn pa v, pa < 2 ^ 39 → pa % 8 = 0 → (fn = 0 ∨ (fn < 17 ∧ (getPart s pkg (fn - 1)).configured = true)) →
      (fn ≠ 0 → foreignAddr s pkg (fn - 1) pa = true → exec (.managementRegisterWrite pkg (2 ^ 41 * fn + 2 ^ 39 + pa) v) s = .next s) ∧
      (fn = 0 ∨ foreignAddr s pkg (fn - 1) pa = false → Memory.wf s.mem = true → ∃ u : State,
        exec (.managementRegisterWrite pkg (2 ^ 41 * fn + 2 ^ 39 + pa) v) s = .next u ∧ u.cores = s.cores ∧ u.domains = s.domains ∧
        ∀ a, Memory.read u.mem a = lastOr (Memory.read s.mem a) (storedAt s (.memWrite (pkg * 2 ^ 39 + pa) 8 255 v.toNat none) a))) ∧
    (∀ l, l < 32 → let L := getLink s pkg l
      managementRead s pkg (0x40000 + 0x40 * l + 8) = L.lcor ∧ managementRead s pkg (0x40000 + 0x40 * l + 16) = L.lunc ∧
      managementRead s pkg (0x40000 + 0x40 * l + 24) = L.lswp ∧
      (managementRead s pkg (0x40000 + 0x40 * l)).toNat % 2 ^ 3 = L.state.toNat ∧
      (managementRead s pkg (0x40000 + 0x40 * l)).toNat / 2 ^ 3 % 2 = (if L.pcbh = true then 1 else 0) ∧
      (managementRead s pkg (0x40000 + 0x40 * l)).toNat / 2 ^ 8 % 2 ^ 8 = L.spare.toNat ∧
      (managementRead s pkg (0x40000 + 0x40 * l)).toNat / 2 ^ 16 % 2 ^ 8 = L.lmap.toNat ∧
      (managementRead s pkg (0x40000 + 0x40 * l)).toNat / 2 ^ 24 % 2 ^ 8 = L.pos.toNat) ∧
    (∀ img, (p.lifecycle = .retired → exec (.boot pkg img) s = .next s) ∧
      (p.hubReset = false → p.lifecycle ≠ .retired → let r := resetPackage s pkg
        exec (.boot pkg img) s = exec (.boot pkg img) r ∧ (getPkg r pkg).hubReset = true ∧ (getPkg r pkg).unlockFails = 0 ∧
        (getPkg r pkg).lifecycle = p.lifecycle ∧ (getPkg r pkg).rootDigest = p.rootDigest ∧ (∀ k, pkgOf k = pkg → getCore r k = {}) ∧
        (∀ d ∈ s.domains, (∀ k ∈ d.all, pkgOf k = pkg) → pkg ∈ d.pkgs → findDom r d.pid = none) ∧ r.mem = s.mem) ∧
      (p.hubReset = true → p.lifecycle ≠ .retired →
        let root := if p.rootDigest = 0 then img.fusedDigest else p.rootDigest
        (BitVec.ofNat 512 (digest img.rootKey) ≠ root ∨ ¬ signed root img.hyper img.hyperSig → ∃ u, exec (.boot pkg img) s = .next u ∧
          (getPkg u pkg).hubReset = true ∧ (getPkg u pkg).meas = [] ∧ (getPkg u pkg).parts = p.parts ∧ (getPkg u pkg).bootStage =
            (if BitVec.ofNat 512 (digest img.rootKey) ≠ root then 1 else 2)) ∧
        (BitVec.ofNat 512 (digest img.rootKey) = root → signed root img.hyper img.hyperSig → ∃ u, exec (.boot pkg img) s = .next u ∧
          (getPkg u pkg).hubReset = false ∧ (getPkg u pkg).bootStage = 0 ∧ (getPkg u pkg).unlockFails = 0 ∧ u.domains = s.domains ∧
          Sparse.get 0 (getPkg u pkg).meas 0 = BitVec.ofNat 512 (digest (littleBytes 64 0 ++ event 1 0 img.hyperVersion img.hyper)) ∧
          (getPkg u pkg).measQueue.head? = some (1, event 2 0 img.hyperVersion img.config) ∧
          ∀ b, img.parts = [b] → (16 ≤ b.no → (getPkg u pkg).parts = p.parts ∧ (getPkg u pkg).measQueue.drop 1 = []) ∧
           (b.no < 16 → (getPart u pkg b.no).configured = true ∧ (getPart u pkg b.no).cores = b.cores ∧ (getPart u pkg b.no).sysCores = b.sysCores ∧
            (getPart u pkg b.no).mem = b.mem ∧ (getPart u pkg b.no).root = b.root ∧ (getPart u pkg b.no).linkShare = b.linkShare ∧
            (signed root b.image b.signature → (getPart u pkg b.no).started = true ∧ (getPart u pkg b.no).arming = true ∧
              (getPkg u pkg).measQueue.drop 1 = [(2, event 3 b.no b.version b.image)]) ∧
            (¬ signed root b.image b.signature → (getPart u pkg b.no).started = false ∧ (getPart u pkg b.no).arming = false ∧
              (getPkg u pkg).measQueue.drop 1 = []))))) ∧
    (∀ n e r, p.unlocking = none → p.measQueue = (n, e) :: r → p.measAt ≠ s.clock + 1 → ∃ u, act (.secure pkg) s = .next u ∧
      (getPkg u pkg).meas = Sparse.set 0 p.meas n (BitVec.ofNat 512 (digest (littleBytes 64 (Sparse.get 0 p.meas n).toNat ++ e))) ∧
      (getPkg u pkg).measQueue = r ∧ ((getPkg u pkg).portOpen = true ↔ p.portOpen = true ∨ (p.portDue = true ∧ n = 15)) ∧ u.cores = s.cores) ∧
    (∀ token signature, let w := fun n => (token.getD n 0).toNat
      let state := match p.lifecycle with | .provisioned => 1 | .deployed => 2 | _ => 0
      let good := token.length = 16 ∧ w 0 = 0x44454255474B0001 ∧ w 1 + 2 ^ 64 * w 2 = p.deviceId.toNat ∧ state ≠ 0 ∧ w 3 = state ∧
        (∀ n, 4 ≤ n → n < 16 → w n = 0) ∧ signed p.rootDigest (token.flatMap (fun x => littleBytes 8 x.toNat)) signature
      (p.unlocking = none → 16 ≤ p.unlockFails → exec (.unlockToken pkg token signature) s = .next s) ∧
      (p.unlocking = none → p.unlockFails < 16 → ¬ good → exec (.unlockToken pkg token signature) s =
        .next (modPkg s pkg (fun q => { q with unlockFails := q.unlockFails + 1 }))) ∧
      (p.unlocking = none → p.unlockFails < 16 → good → ∃ u, exec (.unlockToken pkg token signature) s = .next u ∧
        (getPkg u pkg).lifecycle = p.lifecycle ∧ (getPkg u pkg).portOpen = p.portOpen ∧ (∀ x ∈ (getPkg u pkg).parts, x.2.key = 0) ∧
        (getPkg u pkg).unlocking = some token ∧ (getPkg u pkg).meas = p.meas ∧ u.cores = s.cores) ∧
      (p.unlocking = some token → ∃ u, act (.secure pkg) s = .next u ∧
        (getPkg u pkg).lifecycle = (if p.lifecycle = .retired then .retired else .debugUnlocked) ∧
        (getPkg u pkg).unlocking = none ∧ u.cores = s.cores ∧
        let image := token.flatMap (fun x => littleBytes 8 x.toNat)
        (free p → (getPkg u pkg).meas = extends' p 15 7 0 0 image ∧ (getPkg u pkg).measQueue = [] ∧ (getPkg u pkg).portOpen = true) ∧
        (p.measAt = s.clock + 1 → (getPkg u pkg).meas = p.meas ∧ (getPkg u pkg).measQueue = p.measQueue ++ [(15, event 7 0 0 image)] ∧
          (getPkg u pkg).portOpen = p.portOpen ∧ (getPkg u pkg).portDue = true) ∧
        (∀ n e r, p.measAt ≠ s.clock + 1 → p.measQueue = (n, e) :: r → n ≠ 15 →
          (getPkg u pkg).meas = Sparse.set 0 p.meas n (BitVec.ofNat 512 (digest (littleBytes 64 (Sparse.get 0 p.meas n).toNat ++ e))) ∧
          (getPkg u pkg).measQueue = r ++ [(15, event 7 0 0 image)] ∧ (getPkg u pkg).portOpen = p.portOpen ∧ (getPkg u pkg).portDue = true))) ∧
    (∃ u, exec (.retire pkg) s = .next u ∧ (getPkg u pkg).lifecycle = .retired ∧ (getPkg u pkg).portOpen = true ∧
      (∀ x ∈ (getPkg u pkg).parts, x.2.key = 0) ∧ (∀ img, exec (.boot pkg img) u = .next u) ∧
      ∀ v, act (.secure pkg) u = .next v → (getPkg v pkg).lifecycle = .retired) ∧
    (∀ rsa sha, ∃ u, exec (.spdmRequest pkg rsa sha) s = .next u ∧ u.cores = s.cores ∧ u.domains = s.domains ∧
      ((rsa = false ∨ sha = false ∨ p.lifecycle = .retired) → (getPkg u pkg).spdmError = true) ∧
      (rsa = true → sha = true → p.lifecycle ≠ .retired →
        let l := (List.range 16).map (fun n => (Sparse.get 0 p.meas n).toNat) ++ [Lifecycle.code p.lifecycle * 2 ^ 128 + p.deviceId.toNat]
        (getPkg u pkg).report = l ∧ (getPkg u pkg).reportSig = Config.deviceSign (digest (l.flatMap (littleBytes 64))))) ∧
    (∀ version image signature,
      (¬ signed p.rootDigest image signature → exec (.hypervisorUpdate pkg version image signature) s = .next s) ∧
      (signed p.rootDigest image signature → ∃ u, exec (.hypervisorUpdate pkg version image signature) s = .next u ∧
        reaches (getPkg u pkg) 4 5 0 version image ∧ (getPkg u pkg).hyperVersion = version ∧ u.cores = s.cores ∧ u.domains = s.domains)) ∧
    (∀ part version image signature, (getPart s pkg part).configured = true →
      (runs part → ∃ u, exec (.partitionUpdate pkg part version image signature) s = .next u ∧ (getPart u pkg part).arming = false ∧
        u.domains = s.domains ∧ (⟨s.clock + 1, none, .partitionUpdate pkg part version image signature⟩ : Input) ∈ u.inputs) ∧
      (¬ runs part → ¬ signed p.rootDigest image signature → ∃ u, exec (.partitionUpdate pkg part version image signature) s = .next u ∧
        (getPart u pkg part).started = false ∧ (getPart u pkg part).arming = false ∧ u.domains = s.domains) ∧
      (¬ runs part → signed p.rootDigest image signature → s.xfers = [] → ∃ u,
        exec (.partitionUpdate pkg part version image signature) s = .next u ∧ (getPart u pkg part).started = true ∧
        (getPart u pkg part).arming = true ∧ (getPart u pkg part).pool = [] ∧ (getPart u pkg part).version = version ∧
        reaches (getPkg u pkg) 3 4 part version image ∧ (∀ a ∈ (getPkg u pkg).waiting, a.part ≠ part) ∧
        (∀ w ∈ (getPkg u pkg).windows, w.1 / 256 ≠ part) ∧ u.domains = s.domains ∧ u.cores = s.cores ∧ u.mem = s.mem)) ∧
    exec (.lifecycleFuseAdvance pkg) s = (match p.lifecycle with
      | .manufacture => .next (closePort s pkg .provisioned)
      | .provisioned => .next (closePort s pkg .deployed)
      | _ => .next s) ∧
    (∀ l, (getPkg (closePort s pkg l) pkg).lifecycle = l ∧ (getPkg (closePort s pkg l) pkg).portOpen = false ∧
      (∀ x ∈ (getPkg (closePort s pkg l) pkg).parts, x.2.debug = false) ∧ (closePort s pkg l).cores = s.cores) ∧
    (∀ part key, (p.unlocking = none → p.lifecycle = .provisioned ∨ p.lifecycle = .deployed →
        exec (.tenantKeyProvision pkg part key) s = .next (modPart s pkg part (fun q => { q with key := key }))) ∧
      (p.unlocking ≠ none → exec (.tenantKeyProvision pkg part key) s = .next s) ∧
      (p.lifecycle ≠ .provisioned → p.lifecycle ≠ .deployed → exec (.tenantKeyProvision pkg part key) s = .next s))

/-- O60 (R279 to R282, R322, R341 to R344, R348). Records. An access that is looked up meets the native filter where its three hashes are
set, and the compatibility watch where its range entry watches its sector and a unit it touches: each hit leaves a record in the core's
trace buffer, native before compatibility, and asks for a stop where the ring's WSTOP and a debug session do; nothing else changes. A ring
takes a record in its slot, HEAD one higher, or counts it in LOST when it is full; so does the fault log of the region whose FLOG is
effective, which interrupts the partition's system core. A wait-log entry has the words of R348. A command with TRC set leaves a record
where the ring's EN is set; a trace buffer of 64 records drops what comes and counts LOST. What the hub writes reaches both backings of a
range that moves. A die without a ring keeps its records in the
buffers (log 52). -/
def Obligations.RecordsReachTheirRings : Prop :=
  (∀ (s : State) (k : Nat) (st : Stream) (evt ring seq x n kind : Nat), x < 2 ^ 57 → kind < 8 → (getCore s k).trace.length + 2 ≤ 64 → tidy s = true →
    let c := getCore s k
    let g := x / 2 ^ 8
    let h0 := g % 2 ^ 14 ^^^ g / 2 ^ 28 % 2 ^ 14
    let h1 := g / 2 ^ 14 % 2 ^ 14 ^^^ g / 2 ^ 42 % 2 ^ 7
    let h2 := (g % 2 ^ 14 + g / 2 ^ 14 % 2 ^ 14 + g / 2 ^ 28 % 2 ^ 14) % 2 ^ 14
    let native := c.watch.getLsbD h0 = true ∧ c.watch.getLsbD h1 = true ∧ c.watch.getLsbD h2 = true
    let watches := fun (e : RangeEntry) => e.ctl.toNat / 2 ^ 5 % 2 = 1 ∧
      e.wmask.toNat / 2 ^ ((x - e.base.toNat) / (256 * ((e.limit.toNat - e.base.toNat + 16383) / 16384))) % 2 = 1 ∧
      ∃ u, u < 64 ∧ e.wbm.toNat / 2 ^ u % 2 = 1 ∧ 0 < n ∧ x % 256 < 4 * u + 4 ∧ 4 * u < x % 256 + n
    let compat := match c.ranges.find? (fun p => decide (p.2.ctl.toNat % 2 = 1 ∧ p.2.ctl.toNat / 2 ^ 8 % 2 ^ 12 = asidOfCore s k ∧
        p.2.base.toNat ≤ x ∧ x < p.2.limit.toNat)) with
      | some p => watches p.2
      | none => False
    let record := fun (y : Nat) => recordOf s k y st evt ring seq (kind * 2 ^ 60 + x)
    let asks := (native ∨ compat) ∧ traceCtl s k / 2 % 2 = 1 ∧ (getPart s (pkgOf k) (partOfCore s k)).debug = true
    ∃ (l : List (List Word)) (stop : Bool), watchTest s k st evt ring seq x n kind = modCore s k (fun c => { c with trace := c.trace ++ l, stopReq := stop }) ∧
      (native → compat → l = [record 2, record 3]) ∧ (native → ¬ compat → l = [record 2]) ∧ (¬ native → compat → l = [record 3]) ∧
      (¬ native → ¬ compat → l = []) ∧ (asks → stop = true) ∧ (¬ asks → stop = c.stopReq)) ∧
  (∀ (m : Memory) (base : Nat) (ws : List Word), Memory.wf m = true → ws.length = 4 → ringTakes m base 4 ws (Memory.read (ringPut m base ws))) ∧
  (∀ (s : State) (pkg part rcb r : Nat) (ws : List Word), Memory.wf s.mem = true → effRcb s.mem pkg 9 8 rcb = some r →
    let base := pkg * 2 ^ 39 + (Memory.word s.mem (pkg * 2 ^ 39 + r + 48)).toNat % 2 ^ 39
    let t := faultLog s pkg part rcb ws
    let full := (Memory.word s.mem (base + 16)).toNat = 0 ∨
      (Memory.word s.mem (base + 16)).toNat ≤ (Memory.word s.mem base).toNat - (Memory.word s.mem (base + 8)).toNat
    (∃ m, ringTakes s.mem base 32 ws (Memory.read m) ∧ t.mem = (hubWrite s m).mem) ∧ t.cores = s.cores ∧ t.domains = s.domains ∧
      (full → t.pkgs = s.pkgs) ∧ (¬ full → t.pkgs = (modPart s pkg part (fun p => { p with interrupts := p.interrupts + 1 })).pkgs)) ∧
  (∀ (s : State) (k part eff clk pid lc base : Nat) (c : Cause), ringBase s k part true (dieOf k) = some base →
    waitLog s k part eff clk pid lc c = hubWrite s (ringPut s.mem base [toWord eff,
      toWord (c.code * 2 ^ 56 + Stream.code c.stream * 2 ^ 54 + c.evt * 2 ^ 48 + (getPkg s (pkgOf k)).pos * 2 ^ 40 + numOf k * 2 ^ 30 + lc),
      toWord ((pid % 2 ^ 24) * 2 ^ 40 + clk % 2 ^ 40),
      toWord (c.agent.kind * 2 ^ 60 + c.agent.pkg * 2 ^ 52 + c.agent.core * 2 ^ 42 + c.agent.stream * 2 ^ 40 + c.agent.idx * 2 ^ 32 +
        c.agent.pid % 2 ^ 24)])) ∧
  (∀ (s : State) (pos : Nat) (loops : Word), s.ctx.hdr.ibd = false → (cur s).trace.length < 64 →
    let record := recordOf s s.ctx.core 1 s.ctx.stream s.ctx.hdr.evt.toNat (ringAddr (curStream s).ring s.ctx.idx) s.ctx.seq loops.toNat
    let on := s.ctx.hdr.trc = true ∧ traceCtl s s.ctx.core % 2 = 1
    (on → issueRecords s pos loops = modCur s (fun c => { c with trace := c.trace.take pos ++ record :: c.trace.drop pos })) ∧
    (¬ on → issueRecords s pos loops = s)) ∧
  (∀ (s : State) (k base : Nat) (ws : List Word), 64 ≤ (getCore s k).trace.length → ringBase s k (partOfCore s k) false (dieOf k) = some base →
    traceRecord s k ws = hubWrite s (Memory.writeNat s.mem (base + 24) 8 ((Memory.word s.mem (base + 24)).toNat + 1))) ∧
  (∀ (s : State) (m : Memory), ((∀ p ∈ s.pkgs, p.2.compactions = []) → hubWrite s m = { s with mem := m }) ∧
    (∃ m', hubWrite s m = { s with mem := m' }) ∧
    (∀ a, (∀ b, a ∈ mirrorKeys s b → Memory.read m b = Memory.read s.mem b) → Memory.read (hubWrite s m).mem a = Memory.read s.mem a) ∧
    ∀ a b, Memory.wf m = true → b ∈ mirrorKeys s a → Memory.read m a ≠ Memory.read s.mem a →
      (∀ x, x ≠ a → b ∈ mirrorKeys s x → Memory.read m x = Memory.read s.mem x) → Memory.read (hubWrite s m).mem b = Memory.read m a)
end

