-- ==== Sys2Proof/Laws/Encoding.lean ====
section
/-! SUPPORT. Laws of command words: fields put together are cut apart again, and one law per format: what its decoder reads from
its encoder's words. -/

namespace Sys2Proof.Laws

/-- Every value fits its field. -/
def fits : List Nat → List Nat → Prop
  | [], [] => True
  | w :: r, v :: vs => v < 2 ^ w ∧ fits r vs
  | _, _ => False

theorem joinF_lt : ∀ (ws vs : List Nat), joinF ws vs < 2 ^ ws.sum
  | [], _ => by simp [joinF]
  | w :: r, [] => by simp [joinF]
  | w :: r, v :: vs => by
    have h := joinF_lt r vs
    have hv : v % 2 ^ w < 2 ^ w := Nat.mod_lt _ (by positivity)
    simp only [joinF, List.sum_cons, Nat.pow_add]
    calc v % 2 ^ w * 2 ^ r.sum + joinF r vs < v % 2 ^ w * 2 ^ r.sum + 2 ^ r.sum := by omega
      _ = (v % 2 ^ w + 1) * 2 ^ r.sum := by ring
      _ ≤ 2 ^ w * 2 ^ r.sum := Nat.mul_le_mul_right _ hv

theorem splitF_add (ws : List Nat) (a x : Nat) : splitF ws (a * 2 ^ ws.sum + x) = splitF ws x := by
  induction ws generalizing a x with
  | nil => rfl
  | cons w r ih =>
    have e : a * 2 ^ (w :: r).sum + x = a * 2 ^ w * 2 ^ r.sum + x := by
      simp only [List.sum_cons, Nat.pow_add]; ring
    simp only [splitF, e, ih]
    congr 1
    rw [Nat.add_comm, Nat.add_mul_div_right _ _ (by positivity), Nat.add_mul_mod_self_right]

/-- What was put together is cut apart again. -/
theorem splitF_joinF : ∀ (ws vs : List Nat), fits ws vs → splitF ws (joinF ws vs) = vs
  | [], [], _ => rfl
  | [], _ :: _, h => h.elim
  | _ :: _, [], h => h.elim
  | w :: r, v :: vs, h => by
    have hl := joinF_lt r vs
    simp only [joinF, splitF, splitF_add, splitF_joinF r vs h.2, Nat.mod_eq_of_lt h.1]
    congr 1
    rw [Nat.add_comm, Nat.add_mul_div_right _ _ (by positivity), Nat.div_eq_of_lt hl, Nat.zero_add, Nat.mod_eq_of_lt h.1]

theorem Ty.code_lt (t : Ty) : t.code < 14 := by cases t <;> decide
theorem Ty.code_lt16 (t : Ty) : t.code < 2 ^ 4 := by cases t <;> decide
@[simp] theorem Ty.ofCode_code (t : Ty) : Ty.ofCode t.code = t := by cases t <;> rfl
theorem Rm.code_lt (r : Rm) : r.code < 5 := by cases r <;> decide
theorem Rm.code_lt8 (r : Rm) : r.code < 2 ^ 3 := by cases r <;> decide
@[simp] theorem Rm.ofCode_code (r : Rm) : Rm.ofCode r.code = r := by cases r <;> rfl
theorem Cond.code_lt8 (c : Cond) : c.code < 2 ^ 3 := by cases c <;> decide
@[simp] theorem Cond.ofCode_code (c : Cond) : Cond.ofCode c.code = c := by cases c <;> rfl
theorem ReadMode.code_lt4 (m : ReadMode) : m.code < 2 ^ 2 := by cases m <;> decide
@[simp] theorem ReadMode.ofCode_code (m : ReadMode) : ReadMode.ofCode m.code = m := by cases m <;> rfl
theorem boolCode_lt2 (b : Bool) : boolCode b < 2 ^ 1 := by cases b <;> decide
@[simp] theorem boolCode_false : boolCode false = 0 := rfl
@[simp] theorem boolCode_true : boolCode true = 1 := rfl
@[simp] theorem boolCode_beq (b : Bool) : (boolCode b == 1) = b := by cases b <;> rfl
@[simp] theorem boolCode_eq (b : Bool) : (boolCode b = 1) = (b = true) := by cases b <;> simp [boolCode]

theorem Prd.code_lt (p : Prd) : p.code < 25 := by
  cases p with
  | mask m => have := m.isLt; simp only [Prd.code]; omega
  | count k => have := k.isLt; simp only [Prd.code]; omega
  | all => decide

@[simp] theorem Prd.ofCode_code (p : Prd) : Prd.ofCode p.code = p := by
  cases p with
  | mask m => have := m.isLt; simp [Prd.code, Prd.ofCode, this]
  | count k =>
    have := k.isLt
    have h1 : ¬ 16 + k.toNat < 16 := by omega
    have h2 : 16 + k.toNat < 24 := by omega
    simp [Prd.code, Prd.ofCode, h2]
    apply BitVec.eq_of_toNat_eq
    simp; omega
  | all => rfl

@[simp] theorem blkOfCode_val (b : Blk) : blkOfCode b.val = b := by
  have := b.isLt
  simp [blkOfCode, this]

@[simp] theorem lcCode_none : lcCode none = 0 := rfl
@[simp] theorem lcCode_some (l : BitVec 6) : lcCode (some l) = l.toNat := rfl
@[simp] theorem syCode_none : syCode none = 0 := rfl
@[simp] theorem syCode_some (l : BitVec 4) : syCode (some l) = l.toNat := rfl
theorem lcCode_lt (l : Option (BitVec 6)) : lcCode l < 2 ^ 6 := by cases l <;> simp [lcCode]; omega
theorem syCode_lt (l : Option (BitVec 4)) : syCode l < 2 ^ 4 := by cases l <;> simp [syCode]; omega

theorem lt_of_bv {w : Nat} (x : BitVec w) : x.toNat < 2 ^ w := x.isLt

end Sys2Proof.Laws
end

