-- ==== Sys2Proof/Laws/Formats.lean ====
section
/-! SUPPORT. One law per command format: its decoder reads back what its encoder wrote. -/

namespace Sys2Proof.Laws

-- CC -------------------------------------------------------------------------------------------------------------------

theorem cutA (d a b c : SReg) (x : Nat) (hx : x < 2 ^ 16) :
    splitF lCcA (joinF lCcA [d.toNat, a.toNat, b.toNat, c.toNat, x]) = [d.toNat, a.toNat, b.toNat, c.toNat, x] :=
  splitF_joinF _ _ ⟨d.isLt, a.isLt, b.isLt, c.isLt, hx, trivial⟩

theorem ccThree_law (f : SReg → SReg → SReg → Instr) (d a b : SReg) :
    ccThree f (joinF lCcA [d.toNat, a.toNat, b.toNat, (0 : SReg).toNat, 0]) = .ok (f d a b) := by
  simp only [ccThree, cutA d a b 0 0 (by decide)]
  simp [fld, accept]

theorem ccFour_law (f : SReg → SReg → SReg → SReg → Instr) (d a b c : SReg) :
    ccFour f (joinF lCcA [d.toNat, a.toNat, b.toNat, c.toNat, 0]) = .ok (f d a b c) := by
  simp only [ccFour, cutA d a b c 0 (by decide)]
  simp [fld, accept]

theorem cutB (d a : SReg) (i : BitVec 28) :
    splitF lCcB (joinF lCcB [d.toNat, a.toNat, i.toNat]) = [d.toNat, a.toNat, i.toNat] :=
  splitF_joinF _ _ ⟨d.isLt, a.isLt, i.isLt, trivial⟩

theorem cutB6 (d a : SReg) (i : BitVec 6) :
    splitF lCcB (joinF lCcB [d.toNat, a.toNat, i.toNat]) = [d.toNat, a.toNat, i.toNat] :=
  splitF_joinF _ _ ⟨d.isLt, a.isLt, by have := i.isLt; omega, trivial⟩

theorem ccImm_law (f : SReg → SReg → BitVec 28 → Instr) (d a : SReg) (i : BitVec 28) :
    ccImm f (joinF lCcB [d.toNat, a.toNat, i.toNat]) = .ok (f d a i) := by
  simp only [ccImm, cutB]
  simp [fld, accept]

theorem ccShift_law (f : SReg → SReg → BitVec 6 → Instr) (d a : SReg) (i : BitVec 6) :
    ccShift f (joinF lCcB [d.toNat, a.toNat, i.toNat]) = .ok (f d a i) := by
  have := i.isLt
  simp only [ccShift, cutB6]
  simp [fld, accept, this]

theorem cutD (d a b : SReg) (n : Nat) (hn : n < 2 ^ 16) :
    splitF lCcD (joinF lCcD [d.toNat, a.toNat, b.toNat, n, 0]) = [d.toNat, a.toNat, b.toNat, n, 0] :=
  splitF_joinF _ _ ⟨d.isLt, a.isLt, b.isLt, hn, by decide, trivial⟩

/-- A CC-D command: unused registers are zero, and SEL fits its bits. -/
theorem ccSys_law (uD uA uB : Bool) (sel : Nat) (f : SReg → SReg → SReg → Nat → Instr) (d a b : SReg) (n : Nat)
    (hs : sel ≤ 16) (hn : n < 2 ^ sel) (hd : uD = false → d = 0) (ha : uA = false → a = 0) (hb : uB = false → b = 0) :
    ccSys uD uA uB sel f (joinF lCcD [d.toNat, a.toNat, b.toNat, n, 0]) = .ok (f d a b n) := by
  have h16 : n < 2 ^ 16 := lt_of_lt_of_le hn (Nat.pow_le_pow_right (by decide) hs)
  simp only [ccSys, cutD d a b n h16]
  cases uD <;> cases uA <;> cases uB <;> simp_all [fld, accept]

theorem br_law (a : SReg) (n : Bool) (o j : BitVec 16) :
    decodeBr (joinF lCcC [a.toNat, boolCode n, 0, o.toNat, j.toNat]) = .ok (.br a n o j) := by
  have h := splitF_joinF lCcC [a.toNat, boolCode n, 0, o.toNat, j.toNat]
    ⟨a.isLt, boolCode_lt2 n, by decide, o.isLt, j.isLt, trivial⟩
  simp only [decodeBr, h]
  simp [fld, accept]

theorem ccJump_law (f : BitVec 16 → Instr) (o : BitVec 16) :
    ccJump f (joinF lCcC [0, 0, 0, o.toNat, 0]) = .ok (f o) := by
  have h := splitF_joinF lCcC [0, 0, 0, o.toNat, 0] ⟨by decide, by decide, by decide, o.isLt, by decide, trivial⟩
  simp only [ccJump, h]
  simp [fld, accept]

theorem fence_law (n : BitVec 3) (h5 : n.toNat < 5) :
    decodeFence (joinF lCcD [(0 : SReg).toNat, (0 : SReg).toNat, (0 : SReg).toNat, n.toNat, 0]) = .ok (.fence n) := by
  have := n.isLt
  simp only [decodeFence, cutD 0 0 0 n.toNat (by omega)]
  simp [fld, accept, h5]; omega

theorem watchAdd_law (a : SReg) :
    decodeWatch (joinF lCcD [(0 : SReg).toNat, a.toNat, (0 : SReg).toNat, 0, 0]) = .ok (.watchAdd a) := by
  simp only [decodeWatch, cutD 0 a 0 0 (by decide)]
  simp [fld, accept]

theorem watchClr_law :
    decodeWatch (joinF lCcD [(0 : SReg).toNat, (0 : SReg).toNat, (0 : SReg).toNat, 1, 0]) = .ok .watchClr := by
  simp only [decodeWatch, cutD 0 0 0 1 (by decide)]
  simp [fld, accept]

theorem rres_law (a b : SReg) (n : BitVec 12) :
    decodeRres (joinF lCcD [(0 : SReg).toNat, a.toNat, b.toNat, n.toNat, 0]) = .ok (.rres a b n) := by
  have h : n.toNat < 4096 := n.isLt
  have h2 : n.toNat < 8192 := by omega
  simp only [decodeRres, cutD 0 a b n.toNat (by omega)]
  simp [fld, accept, h, h2]

theorem rresClear_law (a b : SReg) (n : BitVec 12) :
    decodeRres (joinF lCcD [(0 : SReg).toNat, a.toNat, b.toNat, 4096 + n.toNat, 0]) = .ok (.rresClear a b n) := by
  have h : n.toNat < 4096 := n.isLt
  have h2 : 4096 + n.toNat < 8192 := by omega
  simp only [decodeRres, cutD 0 a b (4096 + n.toNat) (by omega)]
  simp [fld, accept, h2]
  apply BitVec.eq_of_toNat_eq
  simp; omega

theorem loop_law (i s : BitVec 3) (b : BitVec 14) (c m : BitVec 32) :
    decodeCc 0xF1 (joinF lLoop [i.toNat, s.toNat, b.toNat, 0]) (joinF lLoopExt [c.toNat, m.toNat]) =
      .ok (.loop i s b c m) := by
  have h := splitF_joinF lLoop [i.toNat, s.toNat, b.toNat, 0] ⟨i.isLt, s.isLt, b.isLt, by decide, trivial⟩
  have e := splitF_joinF lLoopExt [c.toNat, m.toNat] ⟨c.isLt, m.isLt, trivial⟩
  simp only [decodeCc, decodeControl, h, e]
  simp [fld, accept]

theorem lend_law (i : BitVec 3) : decodeCc 0xF2 (joinF lId [i.toNat, 0]) 0 = .ok (.lend i) := by
  have h := splitF_joinF lId [i.toNat, 0] ⟨i.isLt, by decide, trivial⟩
  simp only [decodeCc, decodeControl, h]
  simp [fld, accept]

theorem mark_law (i : BitVec 3) : decodeCc 0xF5 (joinF lId [i.toNat, 0]) 0 = .ok (.mark i) := by
  have h := splitF_joinF lId [i.toNat, 0] ⟨i.isLt, by decide, trivial⟩
  simp only [decodeCc, decodeControl, h]
  simp [fld, accept]

theorem join_law (d : BitVec 32) : decodeCc 0xF3 (joinF lJoin [0, d.toNat]) 0 = .ok (.join d) := by
  have h := splitF_joinF lJoin [0, d.toNat] ⟨by decide, d.isLt, trivial⟩
  simp only [decodeCc, decodeControl, h]
  simp [fld, accept]

theorem patch_law (a b : SReg) :
    decodeCc 0x1B (joinF lCcA [(0 : SReg).toNat, a.toNat, b.toNat, (0 : SReg).toNat, 0]) 0 = .ok (.patch a b) := by
  simp only [decodeCc, cutA 0 a b 0 0 (by decide)]
  simp [fld, accept]

theorem fqpush_law (a : SReg) :
    decodeCc 0x1C (joinF lCcA [(0 : SReg).toNat, a.toNat, (0 : SReg).toNat, (0 : SReg).toNat, 0]) 0 = .ok (.fqpush a) := by
  simp only [decodeCc, cutA 0 a 0 0 0 (by decide)]
  simp [fld, accept]

theorem movi_law (d : SReg) (i : BitVec 28) :
    decodeCc 0x29 (joinF lCcB [d.toNat, (0 : SReg).toNat, i.toNat]) 0 = .ok (.movi d i) := by
  simp only [decodeCc, cutB d 0 i]
  simp [fld, accept]

-- CP -------------------------------------------------------------------------------------------------------------------

theorem move_low (o : MoveOps) (hi : Nat) :
    joinF lCpA [o.sa.toNat, o.sb.toNat, o.sc.toNat, lcCode o.lc, o.run.toNat, 0,
      joinF [6, 1, 2] [hi, boolCode o.lc.isSome, o.dim.toNat]] % 32 =
      4 * boolCode o.lc.isSome + o.dim.toNat + 8 * (hi % 4) := by
  have h1 := o.dim.isLt
  have h2 := boolCode_lt2 o.lc.isSome
  simp only [joinF, lCpA, List.sum_cons, List.sum_nil]
  omega

theorem cutMove (o : MoveOps) (hi : Nat) (_ : hi < 64) :
    splitF lCpA (joinF lCpA [o.sa.toNat, o.sb.toNat, o.sc.toNat, lcCode o.lc, o.run.toNat, 0,
      joinF [6, 1, 2] [hi, boolCode o.lc.isSome, o.dim.toNat]]) =
    [o.sa.toNat, o.sb.toNat, o.sc.toNat, lcCode o.lc, o.run.toNat, 0, joinF [6, 1, 2] [hi, boolCode o.lc.isSome, o.dim.toNat]] :=
  splitF_joinF _ _ ⟨o.sa.isLt, o.sb.isLt, o.sc.isLt, lcCode_lt _, o.run.isLt, by decide,
    joinF_lt [6, 1, 2] [hi, boolCode o.lc.isSome, o.dim.toNat], trivial⟩

theorem cpMove_law (f : MoveOps → Instr) (wf : MoveOps → Bool) (o : MoveOps) (hi : Nat) (hh : hi < 64) (hw : wf o = true) :
    cpMove f wf hi (joinF lCpA [o.sa.toNat, o.sb.toNat, o.sc.toNat, lcCode o.lc, o.run.toNat, 0,
      joinF [6, 1, 2] [hi, boolCode o.lc.isSome, o.dim.toNat]]) = .ok (f o) := by
  have h2 := splitF_joinF [6, 1, 2] [hi, boolCode o.lc.isSome, o.dim.toNat]
    ⟨by omega, boolCode_lt2 _, o.dim.isLt, trivial⟩
  simp only [cpMove, cutMove o hi hh, fld, List.getD_cons_zero, List.getD_cons_succ, h2]
  obtain ⟨sa, sb, sc, lc, run, dim⟩ := o
  cases lc <;> simp_all [accept, lcCode, boolCode]

theorem cpIndex_law (f : IndexOps → Bool → Instr) (wf : IndexOps → Bool → Bool) (o : IndexOps) (d : Bool) (hw : wf o d = true) :
    cpIndex f wf (joinF lCpA [o.sa.toNat, o.sb.toNat, o.sc.toNat, lcCode o.lc, o.run.toNat, o.ty.code,
      joinF [1, 4, 1, 1, 1, 1] [0, syCode o.sy, boolCode d, boolCode o.lc.isSome, boolCode o.sy.isSome, boolCode o.mem]]) =
      .ok (f o d) := by
  have h1 := splitF_joinF lCpA [o.sa.toNat, o.sb.toNat, o.sc.toNat, lcCode o.lc, o.run.toNat, o.ty.code,
      joinF [1, 4, 1, 1, 1, 1] [0, syCode o.sy, boolCode d, boolCode o.lc.isSome, boolCode o.sy.isSome, boolCode o.mem]]
    ⟨o.sa.isLt, o.sb.isLt, o.sc.isLt, lcCode_lt _, o.run.isLt, Ty.code_lt16 _, joinF_lt _ _, trivial⟩
  have h2 := splitF_joinF [1, 4, 1, 1, 1, 1]
    [0, syCode o.sy, boolCode d, boolCode o.lc.isSome, boolCode o.sy.isSome, boolCode o.mem]
    ⟨by decide, syCode_lt _, boolCode_lt2 _, boolCode_lt2 _, boolCode_lt2 _, boolCode_lt2 _, trivial⟩
  have h3 := Ty.code_lt o.ty
  simp only [cpIndex, h1, fld, List.getD_cons_zero, List.getD_cons_succ, h2]
  obtain ⟨sa, sb, sc, lc, run, ty, mem, sy⟩ := o
  cases mem <;> cases d <;> cases lc <;> cases sy <;> simp_all [accept, lcCode, syCode, boolCode]

theorem cpB_cut (sa sb : SReg) (slot sy run ty mod : Nat) (h1 : slot < 2 ^ 5) (h2 : sy < 2 ^ 4) (h3 : run < 2 ^ 3)
    (h4 : ty < 2 ^ 4) (h5 : mod < 2 ^ 12) :
    splitF lCpB (joinF lCpB [sa.toNat, sb.toNat, slot, sy, run, ty, mod]) = [sa.toNat, sb.toNat, slot, sy, run, ty, mod] :=
  splitF_joinF _ _ ⟨sa.isLt, sb.isLt, h1, h2, h3, h4, h5, trivial⟩

theorem cpdec_law (a b c : SReg) (r : Run) (hw : groupOk c 2 = true) :
    decodeCpdec (joinF lCpA [a.toNat, b.toNat, c.toNat, 0, r.toNat, 0, 0]) = .ok (.cpdec a b c r) := by
  have h := splitF_joinF lCpA [a.toNat, b.toNat, c.toNat, 0, r.toNat, 0, 0]
    ⟨a.isLt, b.isLt, c.isLt, by decide, r.isLt, by decide, by decide, trivial⟩
  simp only [decodeCpdec, h]
  simp [fld, accept, hw]

theorem cpfill_law (a b : SReg) (s : BitVec 5) (r : Run) (t : Ty) (m : Bool) (ht : t.inA = true) (hm : m = true → r = 0) :
    decodeCpfill (joinF lCpB [a.toNat, b.toNat, s.toNat, 0, r.toNat, t.code, boolCode m]) = .ok (.cpfill a b s r t m) := by
  have h := cpB_cut a b s.toNat 0 r.toNat t.code (boolCode m) s.isLt (by decide) r.isLt (Ty.code_lt16 t) (by cases m <;> decide)
  have := Ty.code_lt t
  simp only [decodeCpfill, h]
  cases m <;> simp_all [fld, accept, boolCode]

theorem cppat_law (a b : SReg) (p : BitVec 3) (r : Run) (m : Bool) (hm : m = true → r = 0) :
    decodeCppat (joinF lCpB [a.toNat, b.toNat, p.toNat, 0, r.toNat, 0, boolCode m]) = .ok (.cppat a b p r m) := by
  have hp := p.isLt
  have h := cpB_cut a b p.toNat 0 r.toNat 0 (boolCode m) (by omega) (by decide) r.isLt (by decide) (by cases m <;> decide)
  simp only [decodeCppat, h]
  cases m <;> simp_all [fld, accept, boolCode]

theorem cpcbk_law (a b : SReg) (p : BitVec 2) (r : Run) (m : Bool) (hm : m = true → r = 0) :
    decodeCpcbk (joinF lCpB [a.toNat, b.toNat, p.toNat, 0, r.toNat, 0, boolCode m]) = .ok (.cpcbk a b p r m) := by
  have hp := p.isLt
  have h := cpB_cut a b p.toNat 0 r.toNat 0 (boolCode m) (by omega) (by decide) r.isLt (by decide) (by cases m <;> decide)
  simp only [decodeCpcbk, h]
  cases m <;> simp_all [fld, accept, boolCode]

theorem cpvq_law (a b : SReg) (s : BitVec 5) (r : Run) (t : Ty) (n : BitVec 6) (sp : Bool) (k : BitVec 2) (ht : t.inVq = true)
    (hw : (if sp then s == 0 else b == 0 && n == 0) = true) :
    decodeCpvq (joinF lCpB [a.toNat, b.toNat, s.toNat, 0, r.toNat, t.code, joinF [3, 2, 1, 6] [0, k.toNat, boolCode sp, n.toNat]]) =
      .ok (.cpvq a b s r t n sp k) := by
  have h := cpB_cut a b s.toNat 0 r.toNat t.code (joinF [3, 2, 1, 6] [0, k.toNat, boolCode sp, n.toNat]) s.isLt (by decide)
    r.isLt (Ty.code_lt16 t) (joinF_lt _ _)
  have h2 := splitF_joinF [3, 2, 1, 6] [0, k.toNat, boolCode sp, n.toNat] ⟨by decide, k.isLt, boolCode_lt2 _, n.isLt, trivial⟩
  have := Ty.code_lt t
  simp only [decodeCpvq, h, fld, List.getD_cons_zero, List.getD_cons_succ, h2]
  cases sp <;> simp_all [accept, boolCode]

theorem cpexp_law (a b : SReg) (s : BitVec 5) (y : BitVec 4) (r : Run) (t : Ty) (rd cd : BitVec 3) (sp : Bool)
    (hg : groupOk a 3 = true) (hw : (if sp then s == 0 else b == 0) = true) :
    decodeCpexp (joinF lCpB [a.toNat, b.toNat, s.toNat, y.toNat, r.toNat, t.code,
      joinF [5, 1, 3, 3] [0, boolCode sp, cd.toNat, rd.toNat]]) = .ok (.cpexp a b s y r t rd cd sp) := by
  have h := cpB_cut a b s.toNat y.toNat r.toNat t.code (joinF [5, 1, 3, 3] [0, boolCode sp, cd.toNat, rd.toNat]) s.isLt y.isLt
    r.isLt (Ty.code_lt16 t) (joinF_lt _ _)
  have h2 := splitF_joinF [5, 1, 3, 3] [0, boolCode sp, cd.toNat, rd.toNat] ⟨by decide, boolCode_lt2 _, cd.isLt, rd.isLt, trivial⟩
  have := Ty.code_lt t
  simp only [decodeCpexp, h, fld, List.getD_cons_zero, List.getD_cons_succ, h2]
  cases sp <;> simp_all [accept, boolCode]

theorem cpfld_law (a b : SReg) (ti y : BitVec 4) (r : Run) (t : Ty) (rd cd : BitVec 3) (hg : groupOk a 3 = true) :
    decodeCpfld (joinF lCpB [a.toNat, b.toNat, ti.toNat, y.toNat, r.toNat, t.code,
      joinF [6, 3, 3] [0, cd.toNat, rd.toNat]]) = .ok (.cpfld a b ti y r t rd cd) := by
  have hti := ti.isLt
  have h := cpB_cut a b ti.toNat y.toNat r.toNat t.code (joinF [6, 3, 3] [0, cd.toNat, rd.toNat]) (by omega) y.isLt
    r.isLt (Ty.code_lt16 t) (joinF_lt _ _)
  have h2 := splitF_joinF [6, 3, 3] [0, cd.toNat, rd.toNat] ⟨by decide, cd.isLt, rd.isLt, trivial⟩
  have := Ty.code_lt t
  simp only [decodeCpfld, h, fld, List.getD_cons_zero, List.getD_cons_succ, h2]
  simp_all [accept]

/-- A CP-C command: unused fields are zero, MOD fits its bits, the type is accepted. -/
theorem cpEx_law (uA uC uL uT : Bool) (mod : Nat) (ok : Ty → Bool) (f : SReg → SReg → SReg → Nat → Nat → Ty → Nat → Instr)
    (a b c : SReg) (l w : Nat) (t : Ty) (m : Nat) (hl : l < 2 ^ 6) (hw : w < 2 ^ 8) (hmod : mod ≤ 4) (hm : m < 2 ^ mod)
    (ha : uA = false → a = 0) (hc : uC = false → c = 0) (hL : uL = false → l = 0 ∧ w = 0) (hT : uT = false → t = .f64)
    (hok : uT = true → ok t = true) :
    cpEx uA uC uL uT mod ok f (joinF lCpC [a.toNat, b.toNat, c.toNat, l, w, t.code, m]) = .ok (f a b c l w t m) := by
  have h4 : m < 2 ^ 4 := lt_of_lt_of_le hm (Nat.pow_le_pow_right (by decide) hmod)
  have h := splitF_joinF lCpC [a.toNat, b.toNat, c.toNat, l, w, t.code, m]
    ⟨a.isLt, b.isLt, c.isLt, hl, hw, Ty.code_lt16 t, h4, trivial⟩
  have := Ty.code_lt t
  simp only [cpEx, h]
  have ha' : (uA || a.toNat == 0) = true := by cases uA <;> simp_all
  have hc' : (uC || c.toNat == 0) = true := by cases uC <;> simp_all
  have hL' : (uL || (l == 0 && w == 0)) = true := by cases uL <;> simp_all
  have hT' : (uT || t.code == 0) = true := by cases uT <;> simp_all [Ty.code]
  have hk' : (!uT || (decide (t.code < 14) && ok t)) = true := by cases uT <;> simp_all
  simp only [accept, fld, List.getD_cons_zero, List.getD_cons_succ, Ty.ofCode_code, ha', hc', hL', hT', hk', hm]
  simp

-- VE -------------------------------------------------------------------------------------------------------------------

theorem cutVeA (a b c : VReg) (p : Prd) (z : Bool) (t : Ty) (n : Nat) (hn : n < 8) :
    splitF lVeA (joinF lVeA [a.toNat, b.toNat, c.toNat, p.code, boolCode z, t.code, n]) =
      [a.toNat, b.toNat, c.toNat, p.code, boolCode z, t.code, n] :=
  splitF_joinF _ _ ⟨a.isLt, b.isLt, c.isLt, by have := Prd.code_lt p; omega, boolCode_lt2 z, Ty.code_lt16 t, hn, trivial⟩

theorem cutVe (a b c p : Nat) (z : Bool) (t : Ty) (n : Nat) (ha : a < 512) (hb : b < 512) (hc : c < 512) (hp : p < 32) (hn : n < 8) :
    splitF lVeA (joinF lVeA [a, b, c, p, boolCode z, t.code, n]) = [a, b, c, p, boolCode z, t.code, n] :=
  splitF_joinF _ _ ⟨ha, hb, hc, hp, boolCode_lt2 z, Ty.code_lt16 t, hn, trivial⟩

theorem veTwo_law (f : VOps → Rm → Instr) (ok : Ty → Rm → Bool) (o : VOps) (r : Rm) (h : ok o.ty r = true) :
    veTwo f ok (joinF lVeA [o.vd.toNat, o.va.toNat, o.vb.toNat, o.prd.code, boolCode o.z, o.ty.code, r.code]) = .ok (f o r) := by
  have h1 := Prd.code_lt o.prd
  have h2 := Ty.code_lt o.ty
  have h3 := Rm.code_lt r
  simp only [veTwo, cutVeA _ _ _ _ _ _ _ (Rm.code_lt8 r)]
  simp [fld, accept, h1, h2, h3, h]

theorem veOne_law (f : VOps1 → Rm → Instr) (ok : Ty → Rm → Bool) (o : VOps1) (r : Rm) (h : ok o.ty r = true) :
    veOne f ok (joinF lVeA [o.vd.toNat, o.va.toNat, 0, o.prd.code, boolCode o.z, o.ty.code, r.code]) = .ok (f o r) := by
  have h1 := Prd.code_lt o.prd
  have h2 := Ty.code_lt o.ty
  have h3 := Rm.code_lt r
  have h4 := cutVe o.vd.toNat o.va.toNat 0 o.prd.code o.z o.ty r.code o.vd.isLt o.va.isLt (by decide) (by omega) (Rm.code_lt8 r)
  simp only [veOne, h4]
  simp [fld, accept, h1, h2, h3, h]

theorem vcvt_law (o : VOps1) (s : Ty) (p : BitVec 3) (r : Rm) (ht : o.ty.inA = true) (hs : s.inA = true)
    (hr : cvtRmOk o.ty s r = true) :
    decodeVcvt (joinF lVeA [o.vd.toNat, o.va.toNat, joinF [2, 3, 4] [0, p.toNat, s.code], o.prd.code, boolCode o.z, o.ty.code,
      r.code]) = .ok (.vcvt o s p r) := by
  have h1 := Prd.code_lt o.prd
  have h2 := Ty.code_lt o.ty
  have h3 := Rm.code_lt r
  have h4 := Ty.code_lt s
  have h5 := splitF_joinF [2, 3, 4] [0, p.toNat, s.code] ⟨by decide, p.isLt, Ty.code_lt16 s, trivial⟩
  simp only [decodeVcvt, cutVe _ _ _ _ _ _ _ o.vd.isLt o.va.isLt (joinF_lt [2, 3, 4] _) (show o.prd.code < 32 by omega) (Rm.code_lt8 r), fld,
    List.getD_cons_zero, List.getD_cons_succ, h5]
  simp [accept, h1, h2, h3, h4, ht, hs, hr]

theorem vcmp_law (m : BitVec 4) (a b : VReg) (p : Prd) (z : Bool) (t : Ty) (c : Cond) (h : cmpOk t c = true) :
    decodeVcmp (joinF lVeA [m.toNat, a.toNat, b.toNat, p.code, boolCode z, t.code, c.code]) = .ok (.vcmp m a b p z t c) := by
  have h1 := Prd.code_lt p
  have h2 := Ty.code_lt t
  have h3 := m.isLt
  simp only [decodeVcmp, cutVe _ _ _ _ _ _ _ (show m.toNat < 512 by omega) a.isLt b.isLt (show p.code < 32 by omega) (Cond.code_lt8 c)]
  simp [fld, accept, h1, h2, h]; omega

theorem vsel_law (d a b : VReg) (m : BitVec 4) (t : Ty) (h : t.inA = true) :
    decodeVsel (joinF lVeA [d.toNat, a.toNat, b.toNat, m.toNat, boolCode false, t.code, 0]) = .ok (.vsel d a b m t) := by
  have h2 := Ty.code_lt t
  have h3 : m.toNat < 16 := m.isLt
  simp only [decodeVsel, cutVe _ _ _ _ _ _ _ d.isLt a.isLt b.isLt (show m.toNat < 32 by omega) (show 0 < 8 by decide)]
  simp [fld, accept, h2, h3, h, boolCode]

theorem veGen_law (f : VReg → Prd → Bool → Ty → Instr) (ok : Ty → Bool) (d : VReg) (p : Prd) (z : Bool) (t : Ty) (h : ok t = true) :
    veGen f ok (joinF lVeA [d.toNat, 0, 0, p.code, boolCode z, t.code, 0]) = .ok (f d p z t) := by
  have h1 := Prd.code_lt p
  have h2 := Ty.code_lt t
  simp only [veGen, cutVe _ _ _ _ _ _ _ d.isLt (show 0 < 512 by decide) (show 0 < 512 by decide) (show p.code < 32 by omega) (show 0 < 8 by decide)]
  simp [fld, accept, h1, h2, h]

theorem vbcst_law (o : VOps1) (l : BitVec 7) (h : o.ty.inA = true) :
    decodeVbcst (joinF lVeA [o.vd.toNat, o.va.toNat, l.toNat, o.prd.code, boolCode o.z, o.ty.code, 0]) = .ok (.vbcst o l) := by
  have h1 := Prd.code_lt o.prd
  have h2 := Ty.code_lt o.ty
  have h3 : l.toNat < 128 := l.isLt
  simp only [decodeVbcst, cutVe _ _ _ _ _ _ _ o.vd.isLt o.va.isLt (show l.toNat < 512 by omega) (show o.prd.code < 32 by omega) (show 0 < 8 by decide)]
  simp [fld, accept, h1, h2, h3, h]

theorem vstep_law (d a : VReg) (j k : BitVec 4) (t : Ty) (s : Bool) (h : t.inA = true) :
    decodeVstep (joinF lVeA [d.toNat, a.toNat, joinF [1, 4, 4] [0, k.toNat, j.toNat], 24, boolCode false, t.code, boolCode s]) =
      .ok (.vstep d a j k t s) := by
  have h2 := Ty.code_lt t
  have h5 := splitF_joinF [1, 4, 4] [0, k.toNat, j.toNat] ⟨by decide, k.isLt, j.isLt, trivial⟩
  simp only [decodeVstep, cutVe _ _ _ _ _ _ _ d.isLt a.isLt (joinF_lt [1, 4, 4] _) (show 24 < 32 by decide)
    (show boolCode s < 8 by cases s <;> decide), fld, List.getD_cons_zero, List.getD_cons_succ, h5]
  cases s <;> simp [accept, h2, h, boolCode]

theorem veMask_law (f : BitVec 4 → BitVec 4 → BitVec 4 → Instr) (two : Bool) (d a b : BitVec 4) (hb : two = false → b = 0) :
    veMask f two (joinF lVeA [d.toNat, a.toNat, b.toNat, 24, boolCode false, 0, 0]) = .ok (f d a b) := by
  have h3 : d.toNat < 16 := d.isLt
  have h4 : a.toNat < 16 := a.isLt
  have h5 : b.toNat < 16 := b.isLt
  have h := cutVe d.toNat a.toNat b.toNat 24 false .f64 0 (by omega) (by omega) (by omega) (by decide) (by decide)
  simp only [Ty.code] at h
  simp only [veMask, h]
  cases two <;> simp_all [fld, accept, boolCode]

theorem mpop_law (d : VReg) (a : BitVec 4) (t : Ty) (h : t.inI = true) :
    decodeMpop (joinF lVeA [d.toNat, a.toNat, 0, 24, boolCode false, t.code, 0]) = .ok (.mpop d a t) := by
  have h2 := Ty.code_lt t
  have h4 : a.toNat < 16 := a.isLt
  simp only [decodeMpop, cutVe _ _ _ _ _ _ _ d.isLt (show a.toNat < 512 by omega) (show 0 < 512 by decide) (show 24 < 32 by decide) (show 0 < 8 by decide)]
  simp [fld, accept, h2, h4, h, boolCode]

theorem kmsk_law (k : BitVec 3) (a : BitVec 4) (t : Ty) :
    decodeKmsk (joinF lVeA [k.toNat, a.toNat, 0, 24, boolCode false, t.code, 0]) = .ok (.kmsk k a t) := by
  have h2 := Ty.code_lt t
  have h3 : k.toNat < 8 := k.isLt
  have h4 : a.toNat < 16 := a.isLt
  simp only [decodeKmsk, cutVe _ _ _ _ _ _ _ (show k.toNat < 512 by omega) (show a.toNat < 512 by omega) (show 0 < 512 by decide) (show 24 < 32 by decide) (show 0 < 8 by decide)]
  simp [fld, accept, h2, h3, h4, boolCode]

theorem cutVeB (d i p : Nat) (z : Bool) (t : Ty) (n : Nat) (hd : d < 512) (hi : i < 2 ^ 16) (hp : p < 32) (hn : n < 8) :
    splitF lVeB (joinF lVeB [d, i, p, boolCode z, t.code, n, 0]) = [d, i, p, boolCode z, t.code, n, 0] :=
  splitF_joinF _ _ ⟨hd, hi, hp, boolCode_lt2 z, Ty.code_lt16 t, hn, by decide, trivial⟩

theorem kset_law (k : BitVec 3) (i : BitVec 16) (t : Ty) :
    decodeKset (joinF lVeB [k.toNat, i.toNat, 24, boolCode false, t.code, 0, 0]) = .ok (.kset k i t) := by
  have h2 := Ty.code_lt t
  have h3 : k.toNat < 8 := k.isLt
  simp only [decodeKset, cutVeB _ _ _ _ _ _ (show k.toNat < 512 by omega) i.isLt (show 24 < 32 by decide) (show 0 < 8 by decide)]
  simp [fld, accept, h2, h3, boolCode]

theorem veImm_law (f : VImm → Nat → Instr) (ok : Ty → Nat → Bool) (o : VImm) (n : Nat) (hn : n < 8) (h : ok o.ty n = true) :
    veImm f ok (joinF lVeB [o.vd.toNat, o.imm.toNat, o.prd.code, boolCode o.z, o.ty.code, n, 0]) = .ok (f o n) := by
  have h1 := Prd.code_lt o.prd
  have h2 := Ty.code_lt o.ty
  simp only [veImm, cutVeB _ _ _ _ _ _ o.vd.isLt o.imm.isLt (show o.prd.code < 32 by omega) hn]
  simp [fld, accept, h1, h2, h]

theorem veMem_law (f : VMem → Instr) (g : VMem → BitVec 4 → Instr) (o : VMem) (y : Option (BitVec 4)) :
    veMem f g (joinF lVeC [o.vd.toNat, o.blk.val, o.sa.toNat, o.run.toNat, o.prd.code, boolCode o.z, o.ty.code, 0, syCode y,
      boolCode y.isSome, 0]) = .ok (match y with | some s => g o s | none => f o) := by
  have h1 := Prd.code_lt o.prd
  have h2 := Ty.code_lt o.ty
  have h3 := o.blk.isLt
  have h := splitF_joinF lVeC [o.vd.toNat, o.blk.val, o.sa.toNat, o.run.toNat, o.prd.code, boolCode o.z, o.ty.code, 0, syCode y,
      boolCode y.isSome, 0] ⟨o.vd.isLt, by omega, o.sa.isLt, o.run.isLt, by omega, boolCode_lt2 _, Ty.code_lt16 _, by decide,
      syCode_lt _, boolCode_lt2 _, by decide, trivial⟩
  simp only [veMem, h]
  cases y <;> simp [fld, accept, h1, h2, h3]

theorem vcst_law (d : VReg) (b : Blk) (r : Run) (p : Prd) (z : Bool) (t : Ty) (q : BitVec 2) (ht : t.inA = true) :
    decodeVcst (joinF lVeC [d.toNat, b.val, 0, r.toNat, p.code, boolCode z, t.code, q.toNat, 0, 0, 0]) =
      .ok (.vcst d b r p z t q) := by
  have h1 := Prd.code_lt p
  have h2 := Ty.code_lt t
  have h3 := b.isLt
  have h := splitF_joinF lVeC [d.toNat, b.val, 0, r.toNat, p.code, boolCode z, t.code, q.toNat, 0, 0, 0]
    ⟨d.isLt, by omega, by decide, r.isLt, by omega, boolCode_lt2 _, Ty.code_lt16 _, q.isLt, by decide, by decide, by decide, trivial⟩
  simp only [decodeVcst, h]
  simp [fld, accept, h1, h2, h3, ht]

-- CE -------------------------------------------------------------------------------------------------------------------

theorem ceSlot_law (uD uS uA : Bool) (f : Nat → Nat → Nat → Instr) (d s c : Nat) (hd : d < 16) (hs : s < 16) (hc : c < 32)
    (zd : uD = false → d = 0) (zs : uS = false → s = 0) (zc : uA = false → c = 0) :
    ceSlot uD uS uA f (joinF lCeA [d, s, c, 0, 0, 0, 0, boolCode false, 0, boolCode false, 0]) = .ok (f d s c) := by
  have h := splitF_joinF lCeA [d, s, c, 0, 0, 0, 0, boolCode false, 0, boolCode false, 0]
    ⟨hd, hs, hc, by decide, by decide, by decide, by decide, by decide, by decide, by decide, by decide, trivial⟩
  simp only [ceSlot, h]
  cases uD <;> cases uS <;> cases uA <;> simp_all [fld, accept, boolCode]

theorem ceMma_law (f : MmaOps → Nat → Nat → Instr) (sparse : Bool) (o : MmaOps) (p k : Nat) (hp : p < 8) (hk : k < 2)
    (hs : sparse = false → p = 0 ∧ k = 0) (hc : o.ty.inClass = true) (ht : o.ty.inF = true → o.sat = false) :
    ceMma f sparse (joinF lCeA [o.td.toNat, 0, o.ca.toNat, o.cb.toNat, o.ty.code, o.rma.code, o.rmb.code, boolCode o.sat, p, k, 0]) =
      .ok (f o p k) := by
  have h2 := Ty.code_lt o.ty
  have h := splitF_joinF lCeA [o.td.toNat, 0, o.ca.toNat, o.cb.toNat, o.ty.code, o.rma.code, o.rmb.code, boolCode o.sat, p, k, 0]
    ⟨o.td.isLt, by decide, o.ca.isLt, o.cb.isLt, Ty.code_lt16 _, ReadMode.code_lt4 _, ReadMode.code_lt4 _, boolCode_lt2 _, hp, hk,
      by decide, trivial⟩
  simp only [ceMma, h]
  obtain ⟨td, ca, cb, ty, rma, rmb, sat⟩ := o
  cases sparse <;> cases hf : ty.inF <;> simp_all [fld, accept, boolCode] <;> cases sat <;> simp_all

theorem ceMove_law (f : BitVec 4 → SReg → Blk → Run → Instr) (t : BitVec 4) (r : SReg) (b : Blk) (n : Run) :
    ceMove f (joinF lCeB [0, t.toNat, 0, 0, r.toNat, b.val, n.toNat, 0, 0]) = .ok (f t r b n) := by
  have h3 := b.isLt
  have h := splitF_joinF lCeB [0, t.toNat, 0, 0, r.toNat, b.val, n.toNat, 0, 0]
    ⟨by decide, t.isLt, by decide, by decide, r.isLt, by omega, n.isLt, by decide, by decide, trivial⟩
  simp only [ceMove, h]
  simp [fld, accept, h3]

theorem ocon_law (r : VReg) (a b : BitVec 4) (t : Ty) :
    decodeOcon (joinF lCeB [r.toNat, 0, a.toNat, b.toNat, 0, 0, 0, t.code, 0]) = .ok (.ocon r a b t) := by
  have h2 := Ty.code_lt t
  have h := splitF_joinF lCeB [r.toNat, 0, a.toNat, b.toNat, 0, 0, 0, t.code, 0]
    ⟨r.isLt, by decide, a.isLt, b.isLt, by decide, by decide, by decide, Ty.code_lt16 _, by decide, trivial⟩
  simp only [decodeOcon, h]
  simp [fld, accept, h2]

theorem oconp_law (a b : BitVec 4) (r : SReg) (t : Ty) :
    decodeOconp (joinF lCeB [0, 0, a.toNat, b.toNat, r.toNat, 0, 0, t.code, 0]) = .ok (.oconp a b r t) := by
  have h2 := Ty.code_lt t
  have h := splitF_joinF lCeB [0, 0, a.toNat, b.toNat, r.toNat, 0, 0, t.code, 0]
    ⟨by decide, by decide, a.isLt, b.isLt, r.isLt, by decide, by decide, Ty.code_lt16 _, by decide, trivial⟩
  simp only [decodeOconp, h]
  simp [fld, accept, h2]

end Sys2Proof.Laws
end

