-- ==== Sys2Proof/Laws/Memory.lean ====
section
/-! SUPPORT. Laws of sparse storage: what a read gives after a write, and that every operation keeps the canonical form. -/

set_option Elab.async false

namespace Sys2Proof.Laws

open Sys2Proof.Machine

variable {α : Type}

/-- A write leaves every other key's value. -/
theorem get_put_ne (d : α) (o : Option α) (m : Sparse α) {a b : Nat} (h : b ≠ a) :
    Sparse.get d (Sparse.put o m a) b = Sparse.get d m b := by
  induction m with
  | nil => cases o <;> simp [Sparse.put, Sparse.get, h]
  | cons x r ih =>
    obtain ⟨k, w⟩ := x
    simp only [Sparse.put]
    split
    · cases o <;> simp [Sparse.get, h]
    · split
      · rename_i hk; subst hk; cases o <;> simp [Sparse.get, h]
      · simp only [Sparse.get]; split
        · rfl
        · exact ih

/-- A value put is read back. -/
theorem get_put_some (d v : α) (m : Sparse α) (a : Nat) : Sparse.get d (Sparse.put (some v) m a) a = v := by
  induction m with
  | nil => simp [Sparse.put, Sparse.get]
  | cons x r ih =>
    obtain ⟨k, w⟩ := x
    simp only [Sparse.put]
    split
    · simp [Sparse.get]
    · split
      · simp [Sparse.get]
      · rename_i hk; simp only [Sparse.get, if_neg hk]; exact ih

/-- Two puts at one key are the second, when the first put a value. -/
theorem put_put_some (o : Option α) (v : α) (m : Sparse α) (a : Nat) :
    Sparse.put o (Sparse.put (some v) m a) a = (match o with
      | some w => Sparse.put (some w) m a
      | none => Sparse.put none (Sparse.put (some v) m a) a) := by
  cases o with
  | none => rfl
  | some w =>
    induction m with
    | nil => simp [Sparse.put]
    | cons x r ih =>
      obtain ⟨k, u⟩ := x
      simp only [Sparse.put]
      by_cases h1 : a < k
      · simp [h1, Sparse.put]
      · by_cases h2 : a = k
        · simp [h2, Sparse.put]
        · simp only [h1, h2, if_false, Sparse.put]; rw [ih]

variable [DecidableEq α]

theorem get_set_ne (d v : α) (m : Sparse α) {a b : Nat} (h : b ≠ a) :
    Sparse.get d (Sparse.set d m a v) b = Sparse.get d m b := get_put_ne d _ m h

/-- A value other than the default is read back. -/
theorem get_set_same (d v : α) (m : Sparse α) (a : Nat) (h : v ≠ d) : Sparse.get d (Sparse.set d m a v) a = v := by
  simp only [Sparse.set, if_neg h]; exact get_put_some d v m a

theorem set_set_same (d u v : α) (m : Sparse α) (a : Nat) (hu : u ≠ d) (hv : v ≠ d) :
    Sparse.set d (Sparse.set d m a u) a v = Sparse.set d m a v := by
  simp only [Sparse.set, if_neg hu, if_neg hv, put_put_some]

theorem wfFrom_mono (d : α) {lo lo' : Nat} (m : Sparse α) (h : lo' ≤ lo) (hw : Sparse.wfFrom d lo m = true) :
    Sparse.wfFrom d lo' m = true := by
  cases m with
  | nil => rfl
  | cons x r =>
    obtain ⟨k, v⟩ := x
    simp only [Sparse.wfFrom, Bool.and_eq_true, decide_eq_true_eq] at hw ⊢
    exact ⟨⟨h.trans hw.1.1, hw.1.2⟩, hw.2⟩

/-- Keys below the least one read as the default. -/
theorem get_below (d : α) (m : Sparse α) {lo a : Nat} (hw : Sparse.wfFrom d lo m = true) (ha : a < lo) :
    Sparse.get d m a = d := by
  induction m generalizing lo with
  | nil => rfl
  | cons x r ih =>
    obtain ⟨k, v⟩ := x
    simp only [Sparse.wfFrom, Bool.and_eq_true, decide_eq_true_eq] at hw
    have hk : a ≠ k := by omega
    simp only [Sparse.get, if_neg hk]
    exact ih hw.2 (by omega)

/-- A put keeps the canonical form: of a value that is not the default, or of no value. -/
theorem wfFrom_put (d : α) (o : Option α) (m : Sparse α) {lo a : Nat} (ho : o ≠ some d) (ha : lo ≤ a)
    (hw : Sparse.wfFrom d lo m = true) : Sparse.wfFrom d lo (Sparse.put o m a) = true := by
  induction m generalizing lo with
  | nil =>
    cases o with
    | none => rfl
    | some v =>
      have : v ≠ d := fun h => ho (by rw [h])
      simp [Sparse.put, Sparse.wfFrom, ha, this]
  | cons x r ih =>
    obtain ⟨k, v⟩ := x
    have hw' := hw
    simp only [Sparse.wfFrom, Bool.and_eq_true, decide_eq_true_eq] at hw
    simp only [Sparse.put]
    split
    · rename_i hak
      cases o with
      | none => exact hw'
      | some u =>
        have hu : u ≠ d := fun h => ho (by rw [h])
        have hr := hw.1.2
        simp only [Sparse.wfFrom, Bool.and_eq_true, decide_eq_true_eq]
        exact ⟨⟨ha, hu⟩, ⟨by omega, hr⟩, hw.2⟩
    · split
      · rename_i hak; subst hak
        cases o with
        | none => exact wfFrom_mono d r (by omega) hw.2
        | some u =>
          have hu : u ≠ d := fun h => ho (by rw [h])
          simp only [Sparse.wfFrom, Bool.and_eq_true, decide_eq_true_eq]
          exact ⟨⟨ha, hu⟩, hw.2⟩
      · simp only [Sparse.wfFrom, Bool.and_eq_true, decide_eq_true_eq]
        exact ⟨hw.1, ih (by omega) hw.2⟩

theorem wfFrom_set (d v : α) (m : Sparse α) {lo a : Nat} (ha : lo ≤ a) (hw : Sparse.wfFrom d lo m = true) :
    Sparse.wfFrom d lo (Sparse.set d m a v) = true := by
  unfold Sparse.set
  apply wfFrom_put d _ m _ ha hw
  split
  · simp
  · rename_i h; simpa using h

/-- In canonical form every value written is read back, the default too. -/
theorem get_set_wf (d v : α) (m : Sparse α) {lo a : Nat} (hw : Sparse.wfFrom d lo m = true) :
    Sparse.get d (Sparse.set d m a v) a = v := by
  by_cases h : v = d
  · subst h
    simp only [Sparse.set, if_true]
    induction m generalizing lo with
    | nil => rfl
    | cons x r ih =>
      obtain ⟨k, w⟩ := x
      have hw' := hw
      simp only [Sparse.wfFrom, Bool.and_eq_true, decide_eq_true_eq] at hw
      simp only [Sparse.put]
      split
      · rename_i hak
        have : a ≠ k := by omega
        simp only [Sparse.get, if_neg this]
        exact get_below v r hw.2 (by omega)
      · split
        · rename_i hak; subst hak; exact get_below v r hw.2 (by omega)
        · rename_i hak; simp only [Sparse.get, if_neg hak]; exact ih hw.2
  · exact get_set_same d v m a h

/-- Equal contents are equal lists. -/
theorem wf_ext (d : α) (m n : Sparse α) {lo : Nat} (hm : Sparse.wfFrom d lo m = true) (hn : Sparse.wfFrom d lo n = true)
    (h : ∀ a, Sparse.get d m a = Sparse.get d n a) : m = n := by
  induction m generalizing n lo with
  | nil =>
    cases n with
    | nil => rfl
    | cons y r =>
      obtain ⟨k, v⟩ := y
      simp only [Sparse.wfFrom, Bool.and_eq_true, decide_eq_true_eq] at hn
      have := h k
      simp [Sparse.get] at this
      exact absurd this.symm hn.1.2
  | cons x q ih =>
    obtain ⟨i, u⟩ := x
    have hm' := hm
    simp only [Sparse.wfFrom, Bool.and_eq_true, decide_eq_true_eq] at hm
    cases n with
    | nil =>
      have := h i
      simp [Sparse.get] at this
      exact absurd this hm.1.2
    | cons y r =>
      obtain ⟨k, v⟩ := y
      have hn' := hn
      simp only [Sparse.wfFrom, Bool.and_eq_true, decide_eq_true_eq] at hn
      have hik : i = k := by
        rcases Nat.lt_trichotomy i k with hlt | he | hgt
        · have h1 := h i
          have hne : i ≠ k := by omega
          simp only [Sparse.get, if_true, if_neg hne] at h1
          rw [get_below d r hn.2 (by omega)] at h1
          exact absurd h1 hm.1.2
        · exact he
        · have h1 := h k
          have hne : k ≠ i := by omega
          simp only [Sparse.get, if_true, if_neg hne] at h1
          rw [get_below d q hm.2 (by omega)] at h1
          exact absurd h1.symm hn.1.2
      subst hik
      have huv : u = v := by have := h i; simpa [Sparse.get] using this
      subst huv
      congr 1
      refine ih r hm.2 hn.2 (fun a => ?_)
      by_cases ha : a = i
      · subst ha; rw [get_below d q hm.2 (by omega), get_below d r hn.2 (by omega)]
      · have := h a; simpa [Sparse.get, ha] using this

-- Memories --------------------------------------------------------------------------------------------------------------

/-- A write leaves every other byte. -/
theorem read_write_ne (m : Memory) (a b : Nat) (v : Byte) (h : b ≠ a) : Memory.read (Memory.write m a v) b = Memory.read m b :=
  get_set_ne _ v m h

/-- A written byte is read back. -/
theorem read_write (m : Memory) (a : Nat) (v : Byte) (h : Memory.wf m = true) : Memory.read (Memory.write m a v) a = v :=
  get_set_wf _ v m h

theorem wf_write (m : Memory) (a : Nat) (v : Byte) (h : Memory.wf m = true) : Memory.wf (Memory.write m a v) = true :=
  wfFrom_set _ v m (Nat.zero_le a) h

theorem wf_writeNat (n : Nat) (m : Memory) (a v : Nat) (h : Memory.wf m = true) : Memory.wf (Memory.writeNat m a n v) = true := by
  induction n generalizing m a v with
  | zero => exact h
  | succ n ih => exact ih _ _ _ (wf_write m a _ h)

theorem wf_writeMasked (n : Nat) (m : Memory) (a en v : Nat) (h : Memory.wf m = true) :
    Memory.wf (Memory.writeMasked m a en v n) = true := by
  induction n generalizing m a en v with
  | zero => exact h
  | succ n ih =>
    refine ih _ _ _ _ ?_
    split
    · exact wf_write m a _ h
    · exact h

theorem wfFrom_filter {α : Type} [DecidableEq α] (d : α) (p : Nat × α → Bool) (m : Sparse α) {lo : Nat} (h : Sparse.wfFrom d lo m = true) :
    Sparse.wfFrom d lo (m.filter p) = true := by
  induction m generalizing lo with
  | nil => rfl
  | cons x r ih =>
    obtain ⟨k, v⟩ := x
    simp only [Sparse.wfFrom, Bool.and_eq_true, decide_eq_true_eq] at h
    simp only [List.filter]
    split
    · simp only [Sparse.wfFrom, Bool.and_eq_true, decide_eq_true_eq]
      exact ⟨h.1, ih h.2⟩
    · exact ih (wfFrom_mono d r (by omega) h.2)

theorem wf_splice (m : Memory) (lo n : Nat) (cells : Memory) (h : Memory.wf m = true) :
    Memory.wf (Memory.splice m lo n cells) = true := by
  unfold Memory.splice
  generalize hm : m.filter (fun x => decide (x.1 < lo) || decide (lo + n ≤ x.1)) = m'
  have h' : Memory.wf m' = true := by rw [← hm]; exact wfFrom_filter _ _ m h
  clear hm h
  induction cells generalizing m' with
  | nil => exact h'
  | cons x r ih =>
    refine ih _ ?_
    by_cases hx : x.1 < n
    · simp only [hx, if_true]; exact wf_write m' _ _ h'
    · simp only [hx, if_false]; exact h'

/-- Bytes below or beyond a run are left. -/
theorem read_writeNat_out (n : Nat) (m : Memory) (a v b : Nat) (h : b < a ∨ a + n ≤ b) :
    Memory.read (Memory.writeNat m a n v) b = Memory.read m b := by
  induction n generalizing m a v with
  | zero => rfl
  | succ n ih =>
    simp only [Memory.writeNat]
    rw [ih _ _ _ (by omega), read_write_ne _ _ _ _ (by omega)]

/-- Byte `i` of a run written. -/
theorem read_writeNat (n : Nat) (m : Memory) (a v i : Nat) (hw : Memory.wf m = true) (h : i < n) :
    Memory.read (Memory.writeNat m a n v) (a + i) = BitVec.ofNat 8 (v / 256 ^ i) := by
  induction n generalizing m a v i with
  | zero => omega
  | succ n ih =>
    simp only [Memory.writeNat]
    cases i with
    | zero =>
      rw [read_writeNat_out _ _ _ _ _ (by omega)]
      simp [read_write m a _ hw]
    | succ i =>
      have := ih (Memory.write m a (BitVec.ofNat 8 v)) (a + 1) (v / 256) i (wf_write _ _ _ hw) (by omega)
      rw [show a + (i + 1) = a + 1 + i by omega, this, Nat.div_div_eq_div_mul, Nat.pow_succ, Nat.mul_comm]

/-- A masked write leaves every byte outside its run, and every byte whose enable is clear. -/
theorem read_writeMasked_out (n : Nat) (m : Memory) (a en v b : Nat) (h : b < a ∨ a + n ≤ b ∨ en / 2 ^ (b - a) % 2 = 0) :
    Memory.read (Memory.writeMasked m a en v n) b = Memory.read m b := by
  induction n generalizing m a en v with
  | zero => rfl
  | succ n ih =>
    simp only [Memory.writeMasked]
    have h' : b < a + 1 ∨ a + 1 + n ≤ b ∨ en / 2 / 2 ^ (b - (a + 1)) % 2 = 0 := by
      by_cases hb : b ≤ a
      · left; omega
      · rcases h with h | h | h
        · omega
        · right; left; omega
        · right; right
          rw [Nat.div_div_eq_div_mul]
          have : 2 * 2 ^ (b - (a + 1)) = 2 ^ (b - a) := by
            rw [← Nat.pow_succ']; congr 1; omega
          rw [this]; exact h
    rw [ih _ _ _ _ h']
    split
    · rename_i he
      by_cases hb : b = a
      · subst hb
        rcases h with h | h | h
        · omega
        · omega
        · simp at h; omega
      · exact read_write_ne _ _ _ _ hb
    · rfl

/-- A masked write puts every byte whose enable is set. -/
theorem read_writeMasked (n : Nat) (m : Memory) (a en v i : Nat) (hw : Memory.wf m = true) (h : i < n)
    (he : en / 2 ^ i % 2 = 1) : Memory.read (Memory.writeMasked m a en v n) (a + i) = BitVec.ofNat 8 (v / 256 ^ i) := by
  induction n generalizing m a en v i with
  | zero => omega
  | succ n ih =>
    simp only [Memory.writeMasked]
    cases i with
    | zero =>
      rw [read_writeMasked_out _ _ _ _ _ _ (by omega)]
      have : en % 2 = 1 := by simpa using he
      simp [this, read_write m a _ hw]
    | succ i =>
      have hw' : Memory.wf (if en % 2 = 1 then Memory.write m a (BitVec.ofNat 8 v) else m) = true := by
        split
        · exact wf_write _ _ _ hw
        · exact hw
      have he' : en / 2 / 2 ^ i % 2 = 1 := by
        rw [Nat.div_div_eq_div_mul, ← Nat.pow_succ']; exact he
      have := ih _ (a + 1) (en / 2) (v / 256) i hw' (by omega) he'
      rw [show a + (i + 1) = a + 1 + i by omega, this, Nat.div_div_eq_div_mul, Nat.pow_succ, Nat.mul_comm]

end Sys2Proof.Laws
end

