-- ==== Sys2Proof/Laws/State.lean ====
section
/-! SUPPORT. The state after each named operation, field by field, and the reads of cores and packages after their writes. -/

set_option Elab.async false

namespace Sys2Proof.Laws

open Sys2Proof Sys2Proof.Machine

-- setCore

@[simp] theorem setCore_clock (s : State) (k : Nat) (c : CoreState) : (setCore s k c).clock = s.clock := rfl
@[simp] theorem setCore_agenda (s : State) (k : Nat) (c : CoreState) : (setCore s k c).agenda = s.agenda := rfl
@[simp] theorem setCore_inputs (s : State) (k : Nat) (c : CoreState) : (setCore s k c).inputs = s.inputs := rfl
@[simp] theorem setCore_hostAtoms (s : State) (k : Nat) (c : CoreState) : (setCore s k c).hostAtoms = s.hostAtoms := rfl
@[simp] theorem setCore_ctx (s : State) (k : Nat) (c : CoreState) : (setCore s k c).ctx = s.ctx := rfl
@[simp] theorem setCore_dead (s : State) (k : Nat) (c : CoreState) : (setCore s k c).dead = s.dead := rfl
@[simp] theorem setCore_domains (s : State) (k : Nat) (c : CoreState) : (setCore s k c).domains = s.domains := rfl
@[simp] theorem setCore_pkgs (s : State) (k : Nat) (c : CoreState) : (setCore s k c).pkgs = s.pkgs := rfl
@[simp] theorem setCore_mem (s : State) (k : Nat) (c : CoreState) : (setCore s k c).mem = s.mem := rfl
@[simp] theorem setCore_cells (s : State) (k : Nat) (c : CoreState) : (setCore s k c).cells = s.cells := rfl
@[simp] theorem setCore_host (s : State) (k : Nat) (c : CoreState) : (setCore s k c).host = s.host := rfl
@[simp] theorem setCore_badMem (s : State) (k : Nat) (c : CoreState) : (setCore s k c).badMem = s.badMem := rfl
@[simp] theorem setCore_saved (s : State) (k : Nat) (c : CoreState) : (setCore s k c).saved = s.saved := rfl
@[simp] theorem setCore_xfers (s : State) (k : Nat) (c : CoreState) : (setCore s k c).xfers = s.xfers := rfl
@[simp] theorem setCore_nextId (s : State) (k : Nat) (c : CoreState) : (setCore s k c).nextId = s.nextId := rfl
@[simp] theorem setCore_atomNow (s : State) (k : Nat) (c : CoreState) : (setCore s k c).atomNow = s.atomNow := rfl
@[simp] theorem setCore_clocks (s : State) (k : Nat) (c : CoreState) : (setCore s k c).clocks = s.clocks := rfl
@[simp] theorem setCore_writers (s : State) (k : Nat) (c : CoreState) : (setCore s k c).writers = s.writers := rfl
@[simp] theorem setCore_seen (s : State) (k : Nat) (c : CoreState) : (setCore s k c).seen = s.seen := rfl
@[simp] theorem setCore_counted (s : State) (k : Nat) (c : CoreState) : (setCore s k c).counted = s.counted := rfl
@[simp] theorem setCore_free (s : State) (k : Nat) (c : CoreState) : (setCore s k c).free = s.free := rfl

-- modCore

@[simp] theorem modCore_clock (s : State) (k : Nat) (f : CoreState → CoreState) : (modCore s k f).clock = s.clock := rfl
@[simp] theorem modCore_agenda (s : State) (k : Nat) (f : CoreState → CoreState) : (modCore s k f).agenda = s.agenda := rfl
@[simp] theorem modCore_inputs (s : State) (k : Nat) (f : CoreState → CoreState) : (modCore s k f).inputs = s.inputs := rfl
@[simp] theorem modCore_hostAtoms (s : State) (k : Nat) (f : CoreState → CoreState) : (modCore s k f).hostAtoms = s.hostAtoms := rfl
@[simp] theorem modCore_ctx (s : State) (k : Nat) (f : CoreState → CoreState) : (modCore s k f).ctx = s.ctx := rfl
@[simp] theorem modCore_dead (s : State) (k : Nat) (f : CoreState → CoreState) : (modCore s k f).dead = s.dead := rfl
@[simp] theorem modCore_domains (s : State) (k : Nat) (f : CoreState → CoreState) : (modCore s k f).domains = s.domains := rfl
@[simp] theorem modCore_pkgs (s : State) (k : Nat) (f : CoreState → CoreState) : (modCore s k f).pkgs = s.pkgs := rfl
@[simp] theorem modCore_mem (s : State) (k : Nat) (f : CoreState → CoreState) : (modCore s k f).mem = s.mem := rfl
@[simp] theorem modCore_cells (s : State) (k : Nat) (f : CoreState → CoreState) : (modCore s k f).cells = s.cells := rfl
@[simp] theorem modCore_host (s : State) (k : Nat) (f : CoreState → CoreState) : (modCore s k f).host = s.host := rfl
@[simp] theorem modCore_badMem (s : State) (k : Nat) (f : CoreState → CoreState) : (modCore s k f).badMem = s.badMem := rfl
@[simp] theorem modCore_saved (s : State) (k : Nat) (f : CoreState → CoreState) : (modCore s k f).saved = s.saved := rfl
@[simp] theorem modCore_xfers (s : State) (k : Nat) (f : CoreState → CoreState) : (modCore s k f).xfers = s.xfers := rfl
@[simp] theorem modCore_nextId (s : State) (k : Nat) (f : CoreState → CoreState) : (modCore s k f).nextId = s.nextId := rfl
@[simp] theorem modCore_atomNow (s : State) (k : Nat) (f : CoreState → CoreState) : (modCore s k f).atomNow = s.atomNow := rfl
@[simp] theorem modCore_clocks (s : State) (k : Nat) (f : CoreState → CoreState) : (modCore s k f).clocks = s.clocks := rfl
@[simp] theorem modCore_writers (s : State) (k : Nat) (f : CoreState → CoreState) : (modCore s k f).writers = s.writers := rfl
@[simp] theorem modCore_seen (s : State) (k : Nat) (f : CoreState → CoreState) : (modCore s k f).seen = s.seen := rfl
@[simp] theorem modCore_counted (s : State) (k : Nat) (f : CoreState → CoreState) : (modCore s k f).counted = s.counted := rfl
@[simp] theorem modCore_free (s : State) (k : Nat) (f : CoreState → CoreState) : (modCore s k f).free = s.free := rfl

-- modCur

@[simp] theorem modCur_clock (s : State) (f : CoreState → CoreState) : (modCur s f).clock = s.clock := rfl
@[simp] theorem modCur_agenda (s : State) (f : CoreState → CoreState) : (modCur s f).agenda = s.agenda := rfl
@[simp] theorem modCur_inputs (s : State) (f : CoreState → CoreState) : (modCur s f).inputs = s.inputs := rfl
@[simp] theorem modCur_hostAtoms (s : State) (f : CoreState → CoreState) : (modCur s f).hostAtoms = s.hostAtoms := rfl
@[simp] theorem modCur_ctx (s : State) (f : CoreState → CoreState) : (modCur s f).ctx = s.ctx := rfl
@[simp] theorem modCur_dead (s : State) (f : CoreState → CoreState) : (modCur s f).dead = s.dead := rfl
@[simp] theorem modCur_domains (s : State) (f : CoreState → CoreState) : (modCur s f).domains = s.domains := rfl
@[simp] theorem modCur_pkgs (s : State) (f : CoreState → CoreState) : (modCur s f).pkgs = s.pkgs := rfl
@[simp] theorem modCur_mem (s : State) (f : CoreState → CoreState) : (modCur s f).mem = s.mem := rfl
@[simp] theorem modCur_cells (s : State) (f : CoreState → CoreState) : (modCur s f).cells = s.cells := rfl
@[simp] theorem modCur_host (s : State) (f : CoreState → CoreState) : (modCur s f).host = s.host := rfl
@[simp] theorem modCur_badMem (s : State) (f : CoreState → CoreState) : (modCur s f).badMem = s.badMem := rfl
@[simp] theorem modCur_saved (s : State) (f : CoreState → CoreState) : (modCur s f).saved = s.saved := rfl
@[simp] theorem modCur_xfers (s : State) (f : CoreState → CoreState) : (modCur s f).xfers = s.xfers := rfl
@[simp] theorem modCur_nextId (s : State) (f : CoreState → CoreState) : (modCur s f).nextId = s.nextId := rfl
@[simp] theorem modCur_atomNow (s : State) (f : CoreState → CoreState) : (modCur s f).atomNow = s.atomNow := rfl
@[simp] theorem modCur_clocks (s : State) (f : CoreState → CoreState) : (modCur s f).clocks = s.clocks := rfl
@[simp] theorem modCur_writers (s : State) (f : CoreState → CoreState) : (modCur s f).writers = s.writers := rfl
@[simp] theorem modCur_seen (s : State) (f : CoreState → CoreState) : (modCur s f).seen = s.seen := rfl
@[simp] theorem modCur_counted (s : State) (f : CoreState → CoreState) : (modCur s f).counted = s.counted := rfl
@[simp] theorem modCur_free (s : State) (f : CoreState → CoreState) : (modCur s f).free = s.free := rfl

-- addFlight

@[simp] theorem addFlight_clock (s : State) (k : Nat) (f : Flight) : (addFlight s k f).clock = s.clock := rfl
@[simp] theorem addFlight_agenda (s : State) (k : Nat) (f : Flight) : (addFlight s k f).agenda = s.agenda := rfl
@[simp] theorem addFlight_inputs (s : State) (k : Nat) (f : Flight) : (addFlight s k f).inputs = s.inputs := rfl
@[simp] theorem addFlight_hostAtoms (s : State) (k : Nat) (f : Flight) : (addFlight s k f).hostAtoms = s.hostAtoms := rfl
@[simp] theorem addFlight_ctx (s : State) (k : Nat) (f : Flight) : (addFlight s k f).ctx = s.ctx := rfl
@[simp] theorem addFlight_dead (s : State) (k : Nat) (f : Flight) : (addFlight s k f).dead = s.dead := rfl
@[simp] theorem addFlight_domains (s : State) (k : Nat) (f : Flight) : (addFlight s k f).domains = s.domains := rfl
@[simp] theorem addFlight_pkgs (s : State) (k : Nat) (f : Flight) : (addFlight s k f).pkgs = s.pkgs := rfl
@[simp] theorem addFlight_mem (s : State) (k : Nat) (f : Flight) : (addFlight s k f).mem = s.mem := rfl
@[simp] theorem addFlight_cells (s : State) (k : Nat) (f : Flight) : (addFlight s k f).cells = s.cells := rfl
@[simp] theorem addFlight_host (s : State) (k : Nat) (f : Flight) : (addFlight s k f).host = s.host := rfl
@[simp] theorem addFlight_badMem (s : State) (k : Nat) (f : Flight) : (addFlight s k f).badMem = s.badMem := rfl
@[simp] theorem addFlight_saved (s : State) (k : Nat) (f : Flight) : (addFlight s k f).saved = s.saved := rfl
@[simp] theorem addFlight_xfers (s : State) (k : Nat) (f : Flight) : (addFlight s k f).xfers = s.xfers := rfl
@[simp] theorem addFlight_nextId (s : State) (k : Nat) (f : Flight) : (addFlight s k f).nextId = s.nextId := rfl
@[simp] theorem addFlight_atomNow (s : State) (k : Nat) (f : Flight) : (addFlight s k f).atomNow = s.atomNow := rfl
@[simp] theorem addFlight_clocks (s : State) (k : Nat) (f : Flight) : (addFlight s k f).clocks = s.clocks := rfl
@[simp] theorem addFlight_writers (s : State) (k : Nat) (f : Flight) : (addFlight s k f).writers = s.writers := rfl
@[simp] theorem addFlight_seen (s : State) (k : Nat) (f : Flight) : (addFlight s k f).seen = s.seen := rfl
@[simp] theorem addFlight_counted (s : State) (k : Nat) (f : Flight) : (addFlight s k f).counted = s.counted := rfl
@[simp] theorem addFlight_free (s : State) (k : Nat) (f : Flight) : (addFlight s k f).free = s.free := rfl

-- setPkg

@[simp] theorem setPkg_clock (s : State) (p : Nat) (x : Pkg) : (setPkg s p x).clock = s.clock := rfl
@[simp] theorem setPkg_agenda (s : State) (p : Nat) (x : Pkg) : (setPkg s p x).agenda = s.agenda := rfl
@[simp] theorem setPkg_inputs (s : State) (p : Nat) (x : Pkg) : (setPkg s p x).inputs = s.inputs := rfl
@[simp] theorem setPkg_hostAtoms (s : State) (p : Nat) (x : Pkg) : (setPkg s p x).hostAtoms = s.hostAtoms := rfl
@[simp] theorem setPkg_ctx (s : State) (p : Nat) (x : Pkg) : (setPkg s p x).ctx = s.ctx := rfl
@[simp] theorem setPkg_dead (s : State) (p : Nat) (x : Pkg) : (setPkg s p x).dead = s.dead := rfl
@[simp] theorem setPkg_cores (s : State) (p : Nat) (x : Pkg) : (setPkg s p x).cores = s.cores := rfl
@[simp] theorem setPkg_domains (s : State) (p : Nat) (x : Pkg) : (setPkg s p x).domains = s.domains := rfl
@[simp] theorem setPkg_mem (s : State) (p : Nat) (x : Pkg) : (setPkg s p x).mem = s.mem := rfl
@[simp] theorem setPkg_cells (s : State) (p : Nat) (x : Pkg) : (setPkg s p x).cells = s.cells := rfl
@[simp] theorem setPkg_host (s : State) (p : Nat) (x : Pkg) : (setPkg s p x).host = s.host := rfl
@[simp] theorem setPkg_badMem (s : State) (p : Nat) (x : Pkg) : (setPkg s p x).badMem = s.badMem := rfl
@[simp] theorem setPkg_saved (s : State) (p : Nat) (x : Pkg) : (setPkg s p x).saved = s.saved := rfl
@[simp] theorem setPkg_xfers (s : State) (p : Nat) (x : Pkg) : (setPkg s p x).xfers = s.xfers := rfl
@[simp] theorem setPkg_nextId (s : State) (p : Nat) (x : Pkg) : (setPkg s p x).nextId = s.nextId := rfl
@[simp] theorem setPkg_atomNow (s : State) (p : Nat) (x : Pkg) : (setPkg s p x).atomNow = s.atomNow := rfl
@[simp] theorem setPkg_clocks (s : State) (p : Nat) (x : Pkg) : (setPkg s p x).clocks = s.clocks := rfl
@[simp] theorem setPkg_writers (s : State) (p : Nat) (x : Pkg) : (setPkg s p x).writers = s.writers := rfl
@[simp] theorem setPkg_seen (s : State) (p : Nat) (x : Pkg) : (setPkg s p x).seen = s.seen := rfl
@[simp] theorem setPkg_counted (s : State) (p : Nat) (x : Pkg) : (setPkg s p x).counted = s.counted := rfl
@[simp] theorem setPkg_free (s : State) (p : Nat) (x : Pkg) : (setPkg s p x).free = s.free := rfl

-- modPkg

@[simp] theorem modPkg_clock (s : State) (p : Nat) (f : Pkg → Pkg) : (modPkg s p f).clock = s.clock := rfl
@[simp] theorem modPkg_agenda (s : State) (p : Nat) (f : Pkg → Pkg) : (modPkg s p f).agenda = s.agenda := rfl
@[simp] theorem modPkg_inputs (s : State) (p : Nat) (f : Pkg → Pkg) : (modPkg s p f).inputs = s.inputs := rfl
@[simp] theorem modPkg_hostAtoms (s : State) (p : Nat) (f : Pkg → Pkg) : (modPkg s p f).hostAtoms = s.hostAtoms := rfl
@[simp] theorem modPkg_ctx (s : State) (p : Nat) (f : Pkg → Pkg) : (modPkg s p f).ctx = s.ctx := rfl
@[simp] theorem modPkg_dead (s : State) (p : Nat) (f : Pkg → Pkg) : (modPkg s p f).dead = s.dead := rfl
@[simp] theorem modPkg_cores (s : State) (p : Nat) (f : Pkg → Pkg) : (modPkg s p f).cores = s.cores := rfl
@[simp] theorem modPkg_domains (s : State) (p : Nat) (f : Pkg → Pkg) : (modPkg s p f).domains = s.domains := rfl
@[simp] theorem modPkg_mem (s : State) (p : Nat) (f : Pkg → Pkg) : (modPkg s p f).mem = s.mem := rfl
@[simp] theorem modPkg_cells (s : State) (p : Nat) (f : Pkg → Pkg) : (modPkg s p f).cells = s.cells := rfl
@[simp] theorem modPkg_host (s : State) (p : Nat) (f : Pkg → Pkg) : (modPkg s p f).host = s.host := rfl
@[simp] theorem modPkg_badMem (s : State) (p : Nat) (f : Pkg → Pkg) : (modPkg s p f).badMem = s.badMem := rfl
@[simp] theorem modPkg_saved (s : State) (p : Nat) (f : Pkg → Pkg) : (modPkg s p f).saved = s.saved := rfl
@[simp] theorem modPkg_xfers (s : State) (p : Nat) (f : Pkg → Pkg) : (modPkg s p f).xfers = s.xfers := rfl
@[simp] theorem modPkg_nextId (s : State) (p : Nat) (f : Pkg → Pkg) : (modPkg s p f).nextId = s.nextId := rfl
@[simp] theorem modPkg_atomNow (s : State) (p : Nat) (f : Pkg → Pkg) : (modPkg s p f).atomNow = s.atomNow := rfl
@[simp] theorem modPkg_clocks (s : State) (p : Nat) (f : Pkg → Pkg) : (modPkg s p f).clocks = s.clocks := rfl
@[simp] theorem modPkg_writers (s : State) (p : Nat) (f : Pkg → Pkg) : (modPkg s p f).writers = s.writers := rfl
@[simp] theorem modPkg_seen (s : State) (p : Nat) (f : Pkg → Pkg) : (modPkg s p f).seen = s.seen := rfl
@[simp] theorem modPkg_counted (s : State) (p : Nat) (f : Pkg → Pkg) : (modPkg s p f).counted = s.counted := rfl
@[simp] theorem modPkg_free (s : State) (p : Nat) (f : Pkg → Pkg) : (modPkg s p f).free = s.free := rfl

-- modPart

@[simp] theorem modPart_clock (s : State) (p q : Nat) (f : Part → Part) : (modPart s p q f).clock = s.clock := rfl
@[simp] theorem modPart_agenda (s : State) (p q : Nat) (f : Part → Part) : (modPart s p q f).agenda = s.agenda := rfl
@[simp] theorem modPart_inputs (s : State) (p q : Nat) (f : Part → Part) : (modPart s p q f).inputs = s.inputs := rfl
@[simp] theorem modPart_hostAtoms (s : State) (p q : Nat) (f : Part → Part) : (modPart s p q f).hostAtoms = s.hostAtoms := rfl
@[simp] theorem modPart_ctx (s : State) (p q : Nat) (f : Part → Part) : (modPart s p q f).ctx = s.ctx := rfl
@[simp] theorem modPart_dead (s : State) (p q : Nat) (f : Part → Part) : (modPart s p q f).dead = s.dead := rfl
@[simp] theorem modPart_cores (s : State) (p q : Nat) (f : Part → Part) : (modPart s p q f).cores = s.cores := rfl
@[simp] theorem modPart_domains (s : State) (p q : Nat) (f : Part → Part) : (modPart s p q f).domains = s.domains := rfl
@[simp] theorem modPart_mem (s : State) (p q : Nat) (f : Part → Part) : (modPart s p q f).mem = s.mem := rfl
@[simp] theorem modPart_cells (s : State) (p q : Nat) (f : Part → Part) : (modPart s p q f).cells = s.cells := rfl
@[simp] theorem modPart_host (s : State) (p q : Nat) (f : Part → Part) : (modPart s p q f).host = s.host := rfl
@[simp] theorem modPart_badMem (s : State) (p q : Nat) (f : Part → Part) : (modPart s p q f).badMem = s.badMem := rfl
@[simp] theorem modPart_saved (s : State) (p q : Nat) (f : Part → Part) : (modPart s p q f).saved = s.saved := rfl
@[simp] theorem modPart_xfers (s : State) (p q : Nat) (f : Part → Part) : (modPart s p q f).xfers = s.xfers := rfl
@[simp] theorem modPart_nextId (s : State) (p q : Nat) (f : Part → Part) : (modPart s p q f).nextId = s.nextId := rfl
@[simp] theorem modPart_atomNow (s : State) (p q : Nat) (f : Part → Part) : (modPart s p q f).atomNow = s.atomNow := rfl
@[simp] theorem modPart_clocks (s : State) (p q : Nat) (f : Part → Part) : (modPart s p q f).clocks = s.clocks := rfl
@[simp] theorem modPart_writers (s : State) (p q : Nat) (f : Part → Part) : (modPart s p q f).writers = s.writers := rfl
@[simp] theorem modPart_seen (s : State) (p q : Nat) (f : Part → Part) : (modPart s p q f).seen = s.seen := rfl
@[simp] theorem modPart_counted (s : State) (p q : Nat) (f : Part → Part) : (modPart s p q f).counted = s.counted := rfl
@[simp] theorem modPart_free (s : State) (p q : Nat) (f : Part → Part) : (modPart s p q f).free = s.free := rfl

-- modDom

@[simp] theorem modDom_clock (s : State) (p : Nat) (f : Domain → Domain) : (modDom s p f).clock = s.clock := rfl
@[simp] theorem modDom_agenda (s : State) (p : Nat) (f : Domain → Domain) : (modDom s p f).agenda = s.agenda := rfl
@[simp] theorem modDom_inputs (s : State) (p : Nat) (f : Domain → Domain) : (modDom s p f).inputs = s.inputs := rfl
@[simp] theorem modDom_hostAtoms (s : State) (p : Nat) (f : Domain → Domain) : (modDom s p f).hostAtoms = s.hostAtoms := rfl
@[simp] theorem modDom_ctx (s : State) (p : Nat) (f : Domain → Domain) : (modDom s p f).ctx = s.ctx := rfl
@[simp] theorem modDom_dead (s : State) (p : Nat) (f : Domain → Domain) : (modDom s p f).dead = s.dead := rfl
@[simp] theorem modDom_cores (s : State) (p : Nat) (f : Domain → Domain) : (modDom s p f).cores = s.cores := rfl
@[simp] theorem modDom_pkgs (s : State) (p : Nat) (f : Domain → Domain) : (modDom s p f).pkgs = s.pkgs := rfl
@[simp] theorem modDom_mem (s : State) (p : Nat) (f : Domain → Domain) : (modDom s p f).mem = s.mem := rfl
@[simp] theorem modDom_cells (s : State) (p : Nat) (f : Domain → Domain) : (modDom s p f).cells = s.cells := rfl
@[simp] theorem modDom_host (s : State) (p : Nat) (f : Domain → Domain) : (modDom s p f).host = s.host := rfl
@[simp] theorem modDom_badMem (s : State) (p : Nat) (f : Domain → Domain) : (modDom s p f).badMem = s.badMem := rfl
@[simp] theorem modDom_saved (s : State) (p : Nat) (f : Domain → Domain) : (modDom s p f).saved = s.saved := rfl
@[simp] theorem modDom_xfers (s : State) (p : Nat) (f : Domain → Domain) : (modDom s p f).xfers = s.xfers := rfl
@[simp] theorem modDom_nextId (s : State) (p : Nat) (f : Domain → Domain) : (modDom s p f).nextId = s.nextId := rfl
@[simp] theorem modDom_atomNow (s : State) (p : Nat) (f : Domain → Domain) : (modDom s p f).atomNow = s.atomNow := rfl
@[simp] theorem modDom_clocks (s : State) (p : Nat) (f : Domain → Domain) : (modDom s p f).clocks = s.clocks := rfl
@[simp] theorem modDom_writers (s : State) (p : Nat) (f : Domain → Domain) : (modDom s p f).writers = s.writers := rfl
@[simp] theorem modDom_seen (s : State) (p : Nat) (f : Domain → Domain) : (modDom s p f).seen = s.seen := rfl
@[simp] theorem modDom_counted (s : State) (p : Nat) (f : Domain → Domain) : (modDom s p f).counted = s.counted := rfl
@[simp] theorem modDom_free (s : State) (p : Nat) (f : Domain → Domain) : (modDom s p f).free = s.free := rfl

-- memStore

@[simp] theorem memStore_clock (s : State) (key n en v : Nat) : (memStore s key n en v).clock = s.clock := rfl
@[simp] theorem memStore_agenda (s : State) (key n en v : Nat) : (memStore s key n en v).agenda = s.agenda := rfl
@[simp] theorem memStore_inputs (s : State) (key n en v : Nat) : (memStore s key n en v).inputs = s.inputs := rfl
@[simp] theorem memStore_hostAtoms (s : State) (key n en v : Nat) : (memStore s key n en v).hostAtoms = s.hostAtoms := rfl
@[simp] theorem memStore_ctx (s : State) (key n en v : Nat) : (memStore s key n en v).ctx = s.ctx := rfl
@[simp] theorem memStore_dead (s : State) (key n en v : Nat) : (memStore s key n en v).dead = s.dead := rfl
@[simp] theorem memStore_cores (s : State) (key n en v : Nat) : (memStore s key n en v).cores = s.cores := rfl
@[simp] theorem memStore_domains (s : State) (key n en v : Nat) : (memStore s key n en v).domains = s.domains := rfl
@[simp] theorem memStore_pkgs (s : State) (key n en v : Nat) : (memStore s key n en v).pkgs = s.pkgs := rfl
@[simp] theorem memStore_cells (s : State) (key n en v : Nat) : (memStore s key n en v).cells = s.cells := rfl
@[simp] theorem memStore_host (s : State) (key n en v : Nat) : (memStore s key n en v).host = s.host := rfl
@[simp] theorem memStore_badMem (s : State) (key n en v : Nat) : (memStore s key n en v).badMem = s.badMem := rfl
@[simp] theorem memStore_saved (s : State) (key n en v : Nat) : (memStore s key n en v).saved = s.saved := rfl
@[simp] theorem memStore_xfers (s : State) (key n en v : Nat) : (memStore s key n en v).xfers = s.xfers := rfl
@[simp] theorem memStore_nextId (s : State) (key n en v : Nat) : (memStore s key n en v).nextId = s.nextId := rfl
@[simp] theorem memStore_atomNow (s : State) (key n en v : Nat) : (memStore s key n en v).atomNow = s.atomNow := rfl
@[simp] theorem memStore_clocks (s : State) (key n en v : Nat) : (memStore s key n en v).clocks = s.clocks := rfl
@[simp] theorem memStore_writers (s : State) (key n en v : Nat) : (memStore s key n en v).writers = s.writers := rfl
@[simp] theorem memStore_seen (s : State) (key n en v : Nat) : (memStore s key n en v).seen = s.seen := rfl
@[simp] theorem memStore_counted (s : State) (key n en v : Nat) : (memStore s key n en v).counted = s.counted := rfl
@[simp] theorem memStore_free (s : State) (key n en v : Nat) : (memStore s key n en v).free = s.free := rfl

-- setClock

@[simp] theorem setClock_clock (s : State) (p : Party) (v : List Nat) : (setClock s p v).clock = s.clock := rfl
@[simp] theorem setClock_agenda (s : State) (p : Party) (v : List Nat) : (setClock s p v).agenda = s.agenda := rfl
@[simp] theorem setClock_inputs (s : State) (p : Party) (v : List Nat) : (setClock s p v).inputs = s.inputs := rfl
@[simp] theorem setClock_hostAtoms (s : State) (p : Party) (v : List Nat) : (setClock s p v).hostAtoms = s.hostAtoms := rfl
@[simp] theorem setClock_ctx (s : State) (p : Party) (v : List Nat) : (setClock s p v).ctx = s.ctx := rfl
@[simp] theorem setClock_dead (s : State) (p : Party) (v : List Nat) : (setClock s p v).dead = s.dead := rfl
@[simp] theorem setClock_cores (s : State) (p : Party) (v : List Nat) : (setClock s p v).cores = s.cores := rfl
@[simp] theorem setClock_domains (s : State) (p : Party) (v : List Nat) : (setClock s p v).domains = s.domains := rfl
@[simp] theorem setClock_pkgs (s : State) (p : Party) (v : List Nat) : (setClock s p v).pkgs = s.pkgs := rfl
@[simp] theorem setClock_mem (s : State) (p : Party) (v : List Nat) : (setClock s p v).mem = s.mem := rfl
@[simp] theorem setClock_cells (s : State) (p : Party) (v : List Nat) : (setClock s p v).cells = s.cells := rfl
@[simp] theorem setClock_host (s : State) (p : Party) (v : List Nat) : (setClock s p v).host = s.host := rfl
@[simp] theorem setClock_badMem (s : State) (p : Party) (v : List Nat) : (setClock s p v).badMem = s.badMem := rfl
@[simp] theorem setClock_saved (s : State) (p : Party) (v : List Nat) : (setClock s p v).saved = s.saved := rfl
@[simp] theorem setClock_xfers (s : State) (p : Party) (v : List Nat) : (setClock s p v).xfers = s.xfers := rfl
@[simp] theorem setClock_nextId (s : State) (p : Party) (v : List Nat) : (setClock s p v).nextId = s.nextId := rfl
@[simp] theorem setClock_atomNow (s : State) (p : Party) (v : List Nat) : (setClock s p v).atomNow = s.atomNow := rfl
@[simp] theorem setClock_writers (s : State) (p : Party) (v : List Nat) : (setClock s p v).writers = s.writers := rfl
@[simp] theorem setClock_seen (s : State) (p : Party) (v : List Nat) : (setClock s p v).seen = s.seen := rfl
@[simp] theorem setClock_counted (s : State) (p : Party) (v : List Nat) : (setClock s p v).counted = s.counted := rfl
@[simp] theorem setClock_free (s : State) (p : Party) (v : List Nat) : (setClock s p v).free = s.free := rfl

-- noteWrite

@[simp] theorem noteWrite_clock (s : State) (p : Party) (key n : Nat) : (noteWrite s p key n).clock = s.clock := rfl
@[simp] theorem noteWrite_agenda (s : State) (p : Party) (key n : Nat) : (noteWrite s p key n).agenda = s.agenda := rfl
@[simp] theorem noteWrite_inputs (s : State) (p : Party) (key n : Nat) : (noteWrite s p key n).inputs = s.inputs := rfl
@[simp] theorem noteWrite_hostAtoms (s : State) (p : Party) (key n : Nat) : (noteWrite s p key n).hostAtoms = s.hostAtoms := rfl
@[simp] theorem noteWrite_ctx (s : State) (p : Party) (key n : Nat) : (noteWrite s p key n).ctx = s.ctx := rfl
@[simp] theorem noteWrite_dead (s : State) (p : Party) (key n : Nat) : (noteWrite s p key n).dead = s.dead := rfl
@[simp] theorem noteWrite_cores (s : State) (p : Party) (key n : Nat) : (noteWrite s p key n).cores = s.cores := rfl
@[simp] theorem noteWrite_domains (s : State) (p : Party) (key n : Nat) : (noteWrite s p key n).domains = s.domains := rfl
@[simp] theorem noteWrite_pkgs (s : State) (p : Party) (key n : Nat) : (noteWrite s p key n).pkgs = s.pkgs := rfl
@[simp] theorem noteWrite_mem (s : State) (p : Party) (key n : Nat) : (noteWrite s p key n).mem = s.mem := rfl
@[simp] theorem noteWrite_cells (s : State) (p : Party) (key n : Nat) : (noteWrite s p key n).cells = s.cells := rfl
@[simp] theorem noteWrite_host (s : State) (p : Party) (key n : Nat) : (noteWrite s p key n).host = s.host := rfl
@[simp] theorem noteWrite_badMem (s : State) (p : Party) (key n : Nat) : (noteWrite s p key n).badMem = s.badMem := rfl
@[simp] theorem noteWrite_saved (s : State) (p : Party) (key n : Nat) : (noteWrite s p key n).saved = s.saved := rfl
@[simp] theorem noteWrite_xfers (s : State) (p : Party) (key n : Nat) : (noteWrite s p key n).xfers = s.xfers := rfl
@[simp] theorem noteWrite_nextId (s : State) (p : Party) (key n : Nat) : (noteWrite s p key n).nextId = s.nextId := rfl
@[simp] theorem noteWrite_atomNow (s : State) (p : Party) (key n : Nat) : (noteWrite s p key n).atomNow = s.atomNow := rfl
@[simp] theorem noteWrite_seen (s : State) (p : Party) (key n : Nat) : (noteWrite s p key n).seen = s.seen := rfl
@[simp] theorem noteWrite_counted (s : State) (p : Party) (key n : Nat) : (noteWrite s p key n).counted = s.counted := rfl
@[simp] theorem noteWrite_free (s : State) (p : Party) (key n : Nat) : (noteWrite s p key n).free = s.free := rfl

-- noteRead

@[simp] theorem noteRead_clock (s : State) (p : Party) (key n : Nat) : (noteRead s p key n).clock = s.clock := rfl
@[simp] theorem noteRead_agenda (s : State) (p : Party) (key n : Nat) : (noteRead s p key n).agenda = s.agenda := rfl
@[simp] theorem noteRead_inputs (s : State) (p : Party) (key n : Nat) : (noteRead s p key n).inputs = s.inputs := rfl
@[simp] theorem noteRead_hostAtoms (s : State) (p : Party) (key n : Nat) : (noteRead s p key n).hostAtoms = s.hostAtoms := rfl
@[simp] theorem noteRead_ctx (s : State) (p : Party) (key n : Nat) : (noteRead s p key n).ctx = s.ctx := rfl
@[simp] theorem noteRead_dead (s : State) (p : Party) (key n : Nat) : (noteRead s p key n).dead = s.dead := rfl
@[simp] theorem noteRead_cores (s : State) (p : Party) (key n : Nat) : (noteRead s p key n).cores = s.cores := rfl
@[simp] theorem noteRead_domains (s : State) (p : Party) (key n : Nat) : (noteRead s p key n).domains = s.domains := rfl
@[simp] theorem noteRead_pkgs (s : State) (p : Party) (key n : Nat) : (noteRead s p key n).pkgs = s.pkgs := rfl
@[simp] theorem noteRead_mem (s : State) (p : Party) (key n : Nat) : (noteRead s p key n).mem = s.mem := rfl
@[simp] theorem noteRead_cells (s : State) (p : Party) (key n : Nat) : (noteRead s p key n).cells = s.cells := rfl
@[simp] theorem noteRead_host (s : State) (p : Party) (key n : Nat) : (noteRead s p key n).host = s.host := rfl
@[simp] theorem noteRead_badMem (s : State) (p : Party) (key n : Nat) : (noteRead s p key n).badMem = s.badMem := rfl
@[simp] theorem noteRead_saved (s : State) (p : Party) (key n : Nat) : (noteRead s p key n).saved = s.saved := rfl
@[simp] theorem noteRead_xfers (s : State) (p : Party) (key n : Nat) : (noteRead s p key n).xfers = s.xfers := rfl
@[simp] theorem noteRead_nextId (s : State) (p : Party) (key n : Nat) : (noteRead s p key n).nextId = s.nextId := rfl
@[simp] theorem noteRead_atomNow (s : State) (p : Party) (key n : Nat) : (noteRead s p key n).atomNow = s.atomNow := rfl
@[simp] theorem noteRead_clocks (s : State) (p : Party) (key n : Nat) : (noteRead s p key n).clocks = s.clocks := rfl
@[simp] theorem noteRead_writers (s : State) (p : Party) (key n : Nat) : (noteRead s p key n).writers = s.writers := rfl
@[simp] theorem noteRead_counted (s : State) (p : Party) (key n : Nat) : (noteRead s p key n).counted = s.counted := rfl
@[simp] theorem noteRead_free (s : State) (p : Party) (key n : Nat) : (noteRead s p key n).free = s.free := rfl

-- Registers of a core

@[simp] theorem sput_pid (c : CoreState) (r : SReg) (v : Word) : (sput c r v).pid = c.pid := by unfold sput; split <;> rfl
@[simp] theorem sput_calls (c : CoreState) (r : SReg) (v : Word) : (sput c r v).calls = c.calls := by unfold sput; split <;> rfl
@[simp] theorem sput_cc (c : CoreState) (r : SReg) (v : Word) : (sput c r v).cc = c.cc := by unfold sput; split <;> rfl
@[simp] theorem sput_cp (c : CoreState) (r : SReg) (v : Word) : (sput c r v).cp = c.cp := by unfold sput; split <;> rfl
@[simp] theorem sput_ve (c : CoreState) (r : SReg) (v : Word) : (sput c r v).ve = c.ve := by unfold sput; split <;> rfl
@[simp] theorem sput_ce (c : CoreState) (r : SReg) (v : Word) : (sput c r v).ce = c.ce := by unfold sput; split <;> rfl
@[simp] theorem sput_spad (c : CoreState) (r : SReg) (v : Word) : (sput c r v).spad = c.spad := by unfold sput; split <;> rfl
@[simp] theorem sput_rows (c : CoreState) (r : SReg) (v : Word) : (sput c r v).rows = c.rows := by unfold sput; split <;> rfl
@[simp] theorem sput_tags (c : CoreState) (r : SReg) (v : Word) : (sput c r v).tags = c.tags := by unfold sput; split <;> rfl
@[simp] theorem sput_slots (c : CoreState) (r : SReg) (v : Word) : (sput c r v).slots = c.slots := by unfold sput; split <;> rfl
@[simp] theorem sput_cruc (c : CoreState) (r : SReg) (v : Word) : (sput c r v).cruc = c.cruc := by unfold sput; split <;> rfl
@[simp] theorem sput_fq (c : CoreState) (r : SReg) (v : Word) : (sput c r v).fq = c.fq := by unfold sput; split <;> rfl
@[simp] theorem sput_fqSeq (c : CoreState) (r : SReg) (v : Word) : (sput c r v).fqSeq = c.fqSeq := by unfold sput; split <;> rfl
@[simp] theorem sput_masks (c : CoreState) (r : SReg) (v : Word) : (sput c r v).masks = c.masks := by unfold sput; split <;> rfl
@[simp] theorem sput_kpreds (c : CoreState) (r : SReg) (v : Word) : (sput c r v).kpreds = c.kpreds := by unfold sput; split <;> rfl
@[simp] theorem sput_qps (c : CoreState) (r : SReg) (v : Word) : (sput c r v).qps = c.qps := by unfold sput; split <;> rfl
@[simp] theorem sput_sy (c : CoreState) (r : SReg) (v : Word) : (sput c r v).sy = c.sy := by unfold sput; split <;> rfl
@[simp] theorem sput_pm (c : CoreState) (r : SReg) (v : Word) : (sput c r v).pm = c.pm := by unfold sput; split <;> rfl
@[simp] theorem sput_cb (c : CoreState) (r : SReg) (v : Word) : (sput c r v).cb = c.cb := by unfold sput; split <;> rfl
@[simp] theorem sput_lcs (c : CoreState) (r : SReg) (v : Word) : (sput c r v).lcs = c.lcs := by unfold sput; split <;> rfl
@[simp] theorem sput_flagsCE (c : CoreState) (r : SReg) (v : Word) : (sput c r v).flagsCE = c.flagsCE := by unfold sput; split <;> rfl
@[simp] theorem sput_flagsVE (c : CoreState) (r : SReg) (v : Word) : (sput c r v).flagsVE = c.flagsVE := by unfold sput; split <;> rfl
@[simp] theorem sput_flagsCP (c : CoreState) (r : SReg) (v : Word) : (sput c r v).flagsCP = c.flagsCP := by unfold sput; split <;> rfl
@[simp] theorem sput_collision (c : CoreState) (r : SReg) (v : Word) : (sput c r v).collision = c.collision := by unfold sput; split <;> rfl
@[simp] theorem sput_symForce (c : CoreState) (r : SReg) (v : Word) : (sput c r v).symForce = c.symForce := by unfold sput; split <;> rfl
@[simp] theorem sput_dcc (c : CoreState) (r : SReg) (v : Word) : (sput c r v).dcc = c.dcc := by unfold sput; split <;> rfl
@[simp] theorem sput_ranges (c : CoreState) (r : SReg) (v : Word) : (sput c r v).ranges = c.ranges := by unfold sput; split <;> rfl
@[simp] theorem sput_watch (c : CoreState) (r : SReg) (v : Word) : (sput c r v).watch = c.watch := by unfold sput; split <;> rfl
@[simp] theorem sput_runners (c : CoreState) (r : SReg) (v : Word) : (sput c r v).runners = c.runners := by unfold sput; split <;> rfl
@[simp] theorem sput_portReads (c : CoreState) (r : SReg) (v : Word) : (sput c r v).portReads = c.portReads := by unfold sput; split <;> rfl
@[simp] theorem sput_portWrites (c : CoreState) (r : SReg) (v : Word) : (sput c r v).portWrites = c.portWrites := by unfold sput; split <;> rfl
@[simp] theorem sput_beatPorts (c : CoreState) (r : SReg) (v : Word) : (sput c r v).beatPorts = c.beatPorts := by unfold sput; split <;> rfl
@[simp] theorem sput_wrote (c : CoreState) (r : SReg) (v : Word) : (sput c r v).wrote = c.wrote := by unfold sput; split <;> rfl
@[simp] theorem sput_inflight (c : CoreState) (r : SReg) (v : Word) : (sput c r v).inflight = c.inflight := by unfold sput; split <;> rfl
@[simp] theorem sput_jobs (c : CoreState) (r : SReg) (v : Word) : (sput c r v).jobs = c.jobs := by unfold sput; split <;> rfl
@[simp] theorem sput_remote (c : CoreState) (r : SReg) (v : Word) : (sput c r v).remote = c.remote := by unfold sput; split <;> rfl
@[simp] theorem sput_busy (c : CoreState) (r : SReg) (v : Word) : (sput c r v).busy = c.busy := by unfold sput; split <;> rfl
@[simp] theorem sput_rwins (c : CoreState) (r : SReg) (v : Word) : (sput c r v).rwins = c.rwins := by unfold sput; split <;> rfl
@[simp] theorem sput_credit (c : CoreState) (r : SReg) (v : Word) : (sput c r v).credit = c.credit := by unfold sput; split <;> rfl
@[simp] theorem sput_outstanding (c : CoreState) (r : SReg) (v : Word) : (sput c r v).outstanding = c.outstanding := by unfold sput; split <;> rfl
@[simp] theorem sput_requests (c : CoreState) (r : SReg) (v : Word) : (sput c r v).requests = c.requests := by unfold sput; split <;> rfl
@[simp] theorem sput_beatCredit (c : CoreState) (r : SReg) (v : Word) : (sput c r v).beatCredit = c.beatCredit := by unfold sput; split <;> rfl
@[simp] theorem sput_slackPts (c : CoreState) (r : SReg) (v : Word) : (sput c r v).slackPts = c.slackPts := by unfold sput; split <;> rfl
@[simp] theorem sput_trace (c : CoreState) (r : SReg) (v : Word) : (sput c r v).trace = c.trace := by unfold sput; split <;> rfl
@[simp] theorem sput_stopReq (c : CoreState) (r : SReg) (v : Word) : (sput c r v).stopReq = c.stopReq := by unfold sput; split <;> rfl
@[simp] theorem sput_stopTaken (c : CoreState) (r : SReg) (v : Word) : (sput c r v).stopTaken = c.stopTaken := by unfold sput; split <;> rfl
@[simp] theorem sput_stop (c : CoreState) (r : SReg) (v : Word) : (sput c r v).stop = c.stop := by unfold sput; split <;> rfl
@[simp] theorem sput_repaired (c : CoreState) (r : SReg) (v : Word) : (sput c r v).repaired = c.repaired := by unfold sput; split <;> rfl
@[simp] theorem sput_evcnt (c : CoreState) (r : SReg) (v : Word) : (sput c r v).evcnt = c.evcnt := by unfold sput; split <;> rfl
@[simp] theorem sput_evsel (c : CoreState) (r : SReg) (v : Word) : (sput c r v).evsel = c.evsel := by unfold sput; split <;> rfl
@[simp] theorem sput_spadPast (c : CoreState) (r : SReg) (v : Word) : (sput c r v).spadPast = c.spadPast := by unfold sput; split <;> rfl
@[simp] theorem sput_level (c : CoreState) (r : SReg) (v : Word) : (sput c r v).level = c.level := by unfold sput; split <;> rfl
@[simp] theorem sput_savedPc (c : CoreState) (r : SReg) (v : Word) : (sput c r v).savedPc = c.savedPc := by unfold sput; split <;> rfl
@[simp] theorem sput_savedLevel (c : CoreState) (r : SReg) (v : Word) : (sput c r v).savedLevel = c.savedLevel := by unfold sput; split <;> rfl
@[simp] theorem sput_hvCode (c : CoreState) (r : SReg) (v : Word) : (sput c r v).hvCode = c.hvCode := by unfold sput; split <;> rfl

@[simp] theorem setRow_pid (c : CoreState) (r : Nat) (v : Row) : (setRow c r v).pid = c.pid := rfl
@[simp] theorem setRow_sregs (c : CoreState) (r : Nat) (v : Row) : (setRow c r v).sregs = c.sregs := rfl
@[simp] theorem setRow_calls (c : CoreState) (r : Nat) (v : Row) : (setRow c r v).calls = c.calls := rfl
@[simp] theorem setRow_cc (c : CoreState) (r : Nat) (v : Row) : (setRow c r v).cc = c.cc := rfl
@[simp] theorem setRow_cp (c : CoreState) (r : Nat) (v : Row) : (setRow c r v).cp = c.cp := rfl
@[simp] theorem setRow_ve (c : CoreState) (r : Nat) (v : Row) : (setRow c r v).ve = c.ve := rfl
@[simp] theorem setRow_ce (c : CoreState) (r : Nat) (v : Row) : (setRow c r v).ce = c.ce := rfl
@[simp] theorem setRow_spad (c : CoreState) (r : Nat) (v : Row) : (setRow c r v).spad = c.spad := rfl
@[simp] theorem setRow_tags (c : CoreState) (r : Nat) (v : Row) : (setRow c r v).tags = c.tags := rfl
@[simp] theorem setRow_slots (c : CoreState) (r : Nat) (v : Row) : (setRow c r v).slots = c.slots := rfl
@[simp] theorem setRow_cruc (c : CoreState) (r : Nat) (v : Row) : (setRow c r v).cruc = c.cruc := rfl
@[simp] theorem setRow_fq (c : CoreState) (r : Nat) (v : Row) : (setRow c r v).fq = c.fq := rfl
@[simp] theorem setRow_fqSeq (c : CoreState) (r : Nat) (v : Row) : (setRow c r v).fqSeq = c.fqSeq := rfl
@[simp] theorem setRow_masks (c : CoreState) (r : Nat) (v : Row) : (setRow c r v).masks = c.masks := rfl
@[simp] theorem setRow_kpreds (c : CoreState) (r : Nat) (v : Row) : (setRow c r v).kpreds = c.kpreds := rfl
@[simp] theorem setRow_qps (c : CoreState) (r : Nat) (v : Row) : (setRow c r v).qps = c.qps := rfl
@[simp] theorem setRow_sy (c : CoreState) (r : Nat) (v : Row) : (setRow c r v).sy = c.sy := rfl
@[simp] theorem setRow_pm (c : CoreState) (r : Nat) (v : Row) : (setRow c r v).pm = c.pm := rfl
@[simp] theorem setRow_cb (c : CoreState) (r : Nat) (v : Row) : (setRow c r v).cb = c.cb := rfl
@[simp] theorem setRow_lcs (c : CoreState) (r : Nat) (v : Row) : (setRow c r v).lcs = c.lcs := rfl
@[simp] theorem setRow_flagsCE (c : CoreState) (r : Nat) (v : Row) : (setRow c r v).flagsCE = c.flagsCE := rfl
@[simp] theorem setRow_flagsVE (c : CoreState) (r : Nat) (v : Row) : (setRow c r v).flagsVE = c.flagsVE := rfl
@[simp] theorem setRow_flagsCP (c : CoreState) (r : Nat) (v : Row) : (setRow c r v).flagsCP = c.flagsCP := rfl
@[simp] theorem setRow_collision (c : CoreState) (r : Nat) (v : Row) : (setRow c r v).collision = c.collision := rfl
@[simp] theorem setRow_symForce (c : CoreState) (r : Nat) (v : Row) : (setRow c r v).symForce = c.symForce := rfl
@[simp] theorem setRow_dcc (c : CoreState) (r : Nat) (v : Row) : (setRow c r v).dcc = c.dcc := rfl
@[simp] theorem setRow_ranges (c : CoreState) (r : Nat) (v : Row) : (setRow c r v).ranges = c.ranges := rfl
@[simp] theorem setRow_watch (c : CoreState) (r : Nat) (v : Row) : (setRow c r v).watch = c.watch := rfl
@[simp] theorem setRow_runners (c : CoreState) (r : Nat) (v : Row) : (setRow c r v).runners = c.runners := rfl
@[simp] theorem setRow_portReads (c : CoreState) (r : Nat) (v : Row) : (setRow c r v).portReads = c.portReads := rfl
@[simp] theorem setRow_portWrites (c : CoreState) (r : Nat) (v : Row) : (setRow c r v).portWrites = c.portWrites := rfl
@[simp] theorem setRow_beatPorts (c : CoreState) (r : Nat) (v : Row) : (setRow c r v).beatPorts = c.beatPorts := rfl
@[simp] theorem setRow_wrote (c : CoreState) (r : Nat) (v : Row) : (setRow c r v).wrote = c.wrote := rfl
@[simp] theorem setRow_inflight (c : CoreState) (r : Nat) (v : Row) : (setRow c r v).inflight = c.inflight := rfl
@[simp] theorem setRow_jobs (c : CoreState) (r : Nat) (v : Row) : (setRow c r v).jobs = c.jobs := rfl
@[simp] theorem setRow_remote (c : CoreState) (r : Nat) (v : Row) : (setRow c r v).remote = c.remote := rfl
@[simp] theorem setRow_busy (c : CoreState) (r : Nat) (v : Row) : (setRow c r v).busy = c.busy := rfl
@[simp] theorem setRow_rwins (c : CoreState) (r : Nat) (v : Row) : (setRow c r v).rwins = c.rwins := rfl
@[simp] theorem setRow_credit (c : CoreState) (r : Nat) (v : Row) : (setRow c r v).credit = c.credit := rfl
@[simp] theorem setRow_outstanding (c : CoreState) (r : Nat) (v : Row) : (setRow c r v).outstanding = c.outstanding := rfl
@[simp] theorem setRow_requests (c : CoreState) (r : Nat) (v : Row) : (setRow c r v).requests = c.requests := rfl
@[simp] theorem setRow_beatCredit (c : CoreState) (r : Nat) (v : Row) : (setRow c r v).beatCredit = c.beatCredit := rfl
@[simp] theorem setRow_slackPts (c : CoreState) (r : Nat) (v : Row) : (setRow c r v).slackPts = c.slackPts := rfl
@[simp] theorem setRow_trace (c : CoreState) (r : Nat) (v : Row) : (setRow c r v).trace = c.trace := rfl
@[simp] theorem setRow_stopReq (c : CoreState) (r : Nat) (v : Row) : (setRow c r v).stopReq = c.stopReq := rfl
@[simp] theorem setRow_stopTaken (c : CoreState) (r : Nat) (v : Row) : (setRow c r v).stopTaken = c.stopTaken := rfl
@[simp] theorem setRow_stop (c : CoreState) (r : Nat) (v : Row) : (setRow c r v).stop = c.stop := rfl
@[simp] theorem setRow_repaired (c : CoreState) (r : Nat) (v : Row) : (setRow c r v).repaired = c.repaired := rfl
@[simp] theorem setRow_evcnt (c : CoreState) (r : Nat) (v : Row) : (setRow c r v).evcnt = c.evcnt := rfl
@[simp] theorem setRow_evsel (c : CoreState) (r : Nat) (v : Row) : (setRow c r v).evsel = c.evsel := rfl
@[simp] theorem setRow_spadPast (c : CoreState) (r : Nat) (v : Row) : (setRow c r v).spadPast = c.spadPast := rfl
@[simp] theorem setRow_level (c : CoreState) (r : Nat) (v : Row) : (setRow c r v).level = c.level := rfl
@[simp] theorem setRow_savedPc (c : CoreState) (r : Nat) (v : Row) : (setRow c r v).savedPc = c.savedPc := rfl
@[simp] theorem setRow_savedLevel (c : CoreState) (r : Nat) (v : Row) : (setRow c r v).savedLevel = c.savedLevel := rfl
@[simp] theorem setRow_hvCode (c : CoreState) (r : Nat) (v : Row) : (setRow c r v).hvCode = c.hvCode := rfl

-- Cores and packages read back

/-- Another core is as it was. -/
@[simp] theorem getCore_setCore_ne (s : State) {k q : Nat} (c : CoreState) (h : q ≠ k) : getCore (setCore s k c) q = getCore s q :=
  get_set_ne _ c s.cores h

theorem getCore_setCore (s : State) (k : Nat) (c : CoreState) (h : c ≠ {}) : getCore (setCore s k c) k = c :=
  get_set_same _ c s.cores k h

@[simp] theorem getCore_modCore_ne (s : State) {k q : Nat} (f : CoreState → CoreState) (h : q ≠ k) :
    getCore (modCore s k f) q = getCore s q := getCore_setCore_ne s _ h

theorem getCore_modCore (s : State) (k : Nat) (f : CoreState → CoreState) (h : f (getCore s k) ≠ {}) :
    getCore (modCore s k f) k = f (getCore s k) := getCore_setCore s k _ h

/-- In canonical form every write of a core is read back. -/
theorem getCore_setCore_wf (s : State) (k : Nat) (c : CoreState) (hw : Sparse.wfFrom {} 0 s.cores = true) :
    getCore (setCore s k c) k = c := get_set_wf _ c s.cores hw

@[simp] theorem getCore_addFlight_ne (s : State) {k q : Nat} (f : Flight) (h : q ≠ k) : getCore (addFlight s k f) q = getCore s q :=
  getCore_setCore_ne s _ h

/-- An entry put in flight stands last in its core's queue, and among those that leave the core if it does; nothing else of the core
changes. -/
@[simp] theorem getCore_addFlight (s : State) (k : Nat) (f : Flight) :
    getCore (addFlight s k f) k = { getCore s k with
      inflight := (getCore s k).inflight ++ [f]
      leaving := if isOutward f.eff then (getCore s k).leaving ++ [f] else (getCore s k).leaving } := by
  refine getCore_setCore s k _ (fun h => ?_)
  have := congrArg CoreState.inflight h
  simp at this

@[simp] theorem getPkg_setPkg_ne (s : State) {p q : Nat} (x : Pkg) (h : q ≠ p) : getPkg (setPkg s p x) q = getPkg s q :=
  get_set_ne _ x s.pkgs h

theorem getPkg_setPkg (s : State) (p : Nat) (x : Pkg) (h : x ≠ {}) : getPkg (setPkg s p x) p = x :=
  get_set_same _ x s.pkgs p h

theorem getPkg_setPkg_wf (s : State) (p : Nat) (x : Pkg) (hw : Sparse.wfFrom {} 0 s.pkgs = true) : getPkg (setPkg s p x) p = x :=
  get_set_wf _ x s.pkgs hw

/-- s0 reads zero, and a write to it is discarded (R25). -/
@[simp] theorem sget_zero (c : CoreState) : sget c 0 = 0 := by simp [sget]
@[simp] theorem sput_zero (c : CoreState) (v : Word) : sput c 0 v = c := by simp [sput]

/-- Another register is as it was. -/
theorem sget_sput_ne (c : CoreState) {r q : SReg} (v : Word) (h : q ≠ r) : sget (sput c r v) q = sget c q := by
  unfold sput sget
  by_cases hr : r = 0
  · simp [hr]
  · by_cases hq : q = 0
    · simp [hq]
    · have : q.toNat ≠ r.toNat := fun e => h (BitVec.eq_of_toNat_eq e)
      simp only [if_neg hr, if_neg hq]
      exact get_set_ne _ v c.sregs this

/-- A register written reads back, s0 excepted. -/
theorem sget_sput (c : CoreState) (r : SReg) (v : Word) (hr : r ≠ 0) (hw : Sparse.wfFrom 0 0 c.sregs = true) :
    sget (sput c r v) r = v := by
  simp only [sput, sget, if_neg hr]
  exact get_set_wf _ v c.sregs hw

theorem getRow_setRow_ne (c : CoreState) {r q : Nat} (v : Row) (h : q ≠ r) : getRow (setRow c r v) q = getRow c q :=
  get_set_ne _ v c.rows h

theorem getRow_setRow (c : CoreState) (r : Nat) (v : Row) (hw : Sparse.wfFrom 0 0 c.rows = true) : getRow (setRow c r v) r = v :=
  get_set_wf _ v c.rows hw

/-- Changing a domain changes no domain with another identifier, and keeps identifiers apart. -/
theorem findDom_modDom_ne (s : State) {p q : Nat} (f : Domain → Domain) (hf : ∀ d, (f d).pid = d.pid) (h : q ≠ p) :
    findDom (modDom s p f) q = findDom s q := by
  unfold findDom modDom
  simp only
  induction s.domains with
  | nil => rfl
  | cons d r ih =>
    simp only [List.map_cons, List.find?_cons]
    by_cases hd : d.pid = p
    · have h1 : (f d).pid ≠ q := by rw [hf, hd]; exact fun e => h e.symm
      have h2 : d.pid ≠ q := by rw [hd]; exact fun e => h e.symm
      simp only [hd, if_true]
      have e1 : ((f d).pid == q) = false := by simpa using h1
      have e2 : (p == q) = false := by simpa using fun e => h (Eq.symm e)
      simp [e1, e2, ih]
    · simp only [if_neg hd]
      cases hq : (d.pid == q) <;> simp [ih]

theorem findDom_modDom (s : State) (p : Nat) (f : Domain → Domain) (hf : ∀ d, (f d).pid = d.pid) :
    findDom (modDom s p f) p = (findDom s p).map f := by
  unfold findDom modDom
  simp only
  induction s.domains with
  | nil => rfl
  | cons d r ih =>
    simp only [List.map_cons, List.find?_cons]
    by_cases hd : d.pid = p
    · have e1 : ((f d).pid == p) = true := by simp [hf, hd]
      have e2 : (d.pid == p) = true := by simp [hd]
      simp [hd, e1]
    · have e2 : (d.pid == p) = false := by simpa using hd
      simp only [if_neg hd, e2, ih]

/-- The pair found has the identifier asked for. -/
theorem findDom_pid {s : State} {p : Nat} {d : Domain} (h : findDom s p = some d) : d.pid = p := by
  have := List.find?_some h
  simpa using this

end Sys2Proof.Laws
end

