-- ==== Sys2Proof/Laws/Issue.lean ====
section
/-! SUPPORT. What the shared operations of a command's issue answer: one law for each, said once. A command either takes the fault
of its first failing check, or has its effect; every meaning answers a next state. -/

set_option Elab.async false

namespace Sys2Proof.Laws

open Sys2Proof Sys2Proof.Machine

-- The order of checks (R147) -----------------------------------------------------------------------------------------------------

@[simp] theorem firstFault_nil : firstFault [] = none := rfl

/-- A list of checks that hold has no fault. -/
theorem firstFault_none (l : List (Bool × Nat)) : firstFault l = none ↔ ∀ x ∈ l, x.1 = true := by
  induction l with
  | nil => simp
  | cons x r ih =>
    obtain ⟨b, c⟩ := x
    cases b <;> simp [firstFault, ih]

/-- The first check that fails gives the code. -/
theorem firstFault_some (l r : List (Bool × Nat)) (c : Nat) (h : ∀ x ∈ l, x.1 = true) :
    firstFault (l ++ (false, c) :: r) = some c := by
  induction l with
  | nil => rfl
  | cons x q ih =>
    obtain ⟨b, d⟩ := x
    have hb : b = true := h (b, d) (by simp)
    subst hb
    simpa [firstFault] using ih (fun y hy => h y (by simp [hy]))

/-- Checks one after the other. -/
theorem firstFault_append (l r : List (Bool × Nat)) :
    firstFault (l ++ r) = match firstFault l with | some c => some c | none => firstFault r := by
  induction l with
  | nil => rfl
  | cons x q ih =>
    obtain ⟨b, d⟩ := x
    cases b <;> simp [firstFault, ih]

/-- A command with checks: its effect, when all hold. -/
theorem checked_ok (s : State) (l : List (Bool × Nat)) (f : State → State) (h : ∀ x ∈ l, x.1 = true) :
    checked s l f = .next (f s) := by
  rw [checked, (firstFault_none l).2 h]

/-- A command with checks: the fault of the first that fails. -/
theorem checked_fails (s : State) (l r : List (Bool × Nat)) (c : Nat) (f : State → State) (h : ∀ x ∈ l, x.1 = true) :
    checked s (l ++ (false, c) :: r) f = .next (faultNow s c 0 []) := by
  rw [checked, firstFault_some l r c h]

/-- A command with checks answers a next state, which is its effect or a fault at issue. -/
theorem checked_next (s : State) (l : List (Bool × Nat)) (f : State → State) :
    ∃ t, checked s l f = .next t ∧ (t = f s ∨ ∃ c, t = faultNow s c 0 []) := by
  unfold checked
  split
  · exact ⟨_, rfl, .inr ⟨_, rfl⟩⟩
  · exact ⟨_, rfl, .inl rfl⟩

/-- A command of the copy engine: its effect, when its checks hold and no request of its issue fails. -/
theorem cpIssue_ok (s : State) (l : List (Bool × Nat)) (q : Asks) (f : State → State)
    (h : ∀ x ∈ l, x.1 = true) (hq : s.ctx.active = true → q.fail s q.addrs = none) : cpIssue s l q f = .next (f s) := by
  rw [cpIssue, (firstFault_none l).2 h]
  cases ha : s.ctx.active <;> simp [ha, hq]

/-- A command of the copy engine one of whose requests fails at issue: the fault is taken after the watch tests up to it. -/
theorem cpIssue_request (s : State) (l : List (Bool × Nat)) (q : Asks) (f : State → State)
    (x : Nat × List Word × State) (h : ∀ x ∈ l, x.1 = true) (ha : s.ctx.active = true) (hq : q.fail s q.addrs = some x) :
    cpIssue s l q f = .next (faultNow x.2.2 x.1 0 x.2.1) := by
  rw [cpIssue, (firstFault_none l).2 h]
  simp [ha, hq]

/-- A command of the copy engine: the fault of the first check that fails. -/
theorem cpIssue_fails (s : State) (l r : List (Bool × Nat)) (c : Nat) (q : Asks) (f : State → State)
    (h : ∀ x ∈ l, x.1 = true) : cpIssue s (l ++ (false, c) :: r) q f = .next (faultNow s c 0 []) := by
  rw [cpIssue, firstFault_some l r c h]

/-- A command of the copy engine answers a next state, which is its effect or a fault at issue. -/
theorem cpIssue_next (s : State) (l : List (Bool × Nat)) (q : Asks) (f : State → State) :
    ∃ t, cpIssue s l q f = .next t ∧ (t = f s ∨ ∃ u c d, t = faultNow u c 0 d) := by
  unfold cpIssue
  split
  · exact ⟨_, rfl, .inr ⟨_, _, _, rfl⟩⟩
  · split
    · exact ⟨_, rfl, .inr ⟨_, _, _, rfl⟩⟩
    · exact ⟨_, rfl, .inl rfl⟩

-- What a command posts ---------------------------------------------------------------------------------------------------------

/-- An active command of the control core puts its entry in flight. -/
theorem ccPost_active (s : State) (n : Nat) (e : Effect) (h : s.ctx.active = true) :
    ccPost s n e = addFlight s s.ctx.core (flightOf s n ccSt e) := by simp [ccPost, h]

/-- An idle one does nothing (R98). -/
theorem ccPost_idle (s : State) (n : Nat) (e : Effect) (h : s.ctx.active = false) : ccPost s n e = s := by simp [ccPost, h]

theorem ccResult_active (s : State) (n : Nat) (d : SReg) (v : Word) (h : s.ctx.active = true) :
    ccResult s n d v = .next (addFlight s s.ctx.core (flightOf s n ccSt (.sreg d v))) := by simp [ccResult, ccPost, h]

theorem ccResult_idle (s : State) (n : Nat) (d : SReg) (v : Word) (h : s.ctx.active = false) : ccResult s n d v = .next s := by
  simp [ccResult, ccPost, h]

/-- A device access of the control core (R169, R273): a fault at issue, nothing when idle, or, after the watch test, its request and its
effect; where no physical address exists the machine stops at its next step. -/
theorem ccDevice_next (s : State) (A kind perm : Nat) (f : Nat → State → State) :
    ∃ t, ccDevice s A kind perm f = .next t ∧ ((∃ u c d, t = faultNow u c 0 d) ∨ t = s ∨ t = deadEnd (watchNow s A 8 kind) ∨
      ∃ key, t = f key (requestNow (watchNow s A 8 kind) ccSt)) := by
  unfold ccDevice
  split
  · split
    · dsimp only
      split
      · exact ⟨_, rfl, .inr (.inr (.inr ⟨_, rfl⟩))⟩
      · exact ⟨_, rfl, .inl ⟨_, _, _, rfl⟩⟩
      · exact ⟨_, rfl, .inr (.inr (.inl rfl))⟩
    · exact ⟨_, rfl, .inr (.inl rfl)⟩
  · exact ⟨_, rfl, .inl ⟨_, _, _, rfl⟩⟩

/-- A lane-wise command answers its group's results or a fault at issue. -/
theorem veLanes_next (s : State) (vd : VReg) (p : Prd) (z : Bool) (t : Ty) (fmt many : Bool) (rows : List VReg)
    (own : List (Bool × Nat)) (n : Nat) (f : CoreState → Nat → Nat × Flags) :
    ∃ u, veLanes s vd p z t fmt many rows own n f = .next u ∧
      (u = postGroup s n vd.toNat t z (predNow s p t) (f (cur s)) ∨ ∃ c, u = faultNow s c 0 []) :=
  checked_next _ _ _

-- Every meaning answers a next state ------------------------------------------------------------------------------------------------

/-- An outcome that is a next state. -/
def Answers (o : Out) : Prop := ∃ t, o = .next t

@[simp] theorem answers_next (t : State) : Answers (.next t) := ⟨t, rfl⟩
@[simp] theorem answers_checked (s : State) (l : List (Bool × Nat)) (f : State → State) : Answers (checked s l f) :=
  let ⟨t, h, _⟩ := checked_next s l f
  ⟨t, h⟩
@[simp] theorem answers_cpIssue (s : State) (l : List (Bool × Nat)) (q : Asks) (f : State → State) :
    Answers (cpIssue s l q f) :=
  let ⟨t, h, _⟩ := cpIssue_next s l q f
  ⟨t, h⟩
@[simp] theorem answers_ccDevice (s : State) (A kind perm : Nat) (f : Nat → State → State) : Answers (ccDevice s A kind perm f) :=
  let ⟨t, h, _⟩ := ccDevice_next s A kind perm f
  ⟨t, h⟩
@[simp] theorem answers_veLanes (s : State) (vd : VReg) (p : Prd) (z : Bool) (t : Ty) (fmt many : Bool) (rows : List VReg)
    (own : List (Bool × Nat)) (n : Nat) (f : CoreState → Nat → Nat × Flags) : Answers (veLanes s vd p z t fmt many rows own n f) :=
  answers_checked _ _ _
@[simp] theorem answers_ccResult (s : State) (n : Nat) (d : SReg) (v : Word) : Answers (ccResult s n d v) := answers_next _

@[simp] theorem answers_ccAtomic (d a : SReg) (op : AtomOp) (s : State) : Answers (ccAtomic d a op s) := answers_ccDevice ..

@[simp] theorem answers_arith2 (o : VOps) (delay : Nat) (f : Nat → Nat → Nat → Nat → Nat × Flags) (s : State) : Answers (arith2 o delay f s) := answers_veLanes ..

@[simp] theorem answers_arith3 (o : VOps) (delay : Nat) (f : Nat → Nat → Nat → Nat → Nat → Nat × Flags) (s : State) : Answers (arith3 o delay f s) := answers_veLanes ..

@[simp] theorem answers_arith1 (o : VOps1) (delay : Nat) (f : Nat → Nat → Nat → Nat × Flags) (s : State) : Answers (arith1 o delay f s) := answers_veLanes ..

@[simp] theorem answers_arithImm (o : VImm) (delay : Nat) (f : Nat → Nat → Nat → Nat → Nat × Flags) (s : State) : Answers (arithImm o delay f s) := answers_veLanes ..

@[simp] theorem answers_bits2 (o : VOps) (delay : Nat) (f : Nat → Nat → Nat) (s : State) : Answers (bits2 o delay f s) := answers_veLanes ..

@[simp] theorem answers_bits1 (o : VOps1) (delay : Nat) (f : Nat → Nat) (s : State) : Answers (bits1 o delay f s) := answers_veLanes ..

@[simp] theorem answers_bitsImm (o : VImm) (f : Nat → Nat → Nat) (s : State) : Answers (bitsImm o f s) := answers_veLanes ..

@[simp] theorem answers_reduce (o : VOps1) (f : Nat → Nat → List Nat → Nat × Flags) (s : State) : Answers (reduce o f s) := by
  unfold reduce
  exact answers_checked ..

@[simp] theorem answers_scan (o : VOps1) (rm : Rm) (inc : Bool) (s : State) : Answers (scan o rm inc s) := by
  unfold scan
  exact answers_veLanes ..

@[simp] theorem answers_cpFill (s : State) (kind num : Nat) (sa sb : SReg) (run : Run) (mem : Bool) (rows cols size : Nat) (ty : Ty) (own : List (Bool × Nat)) (late : List (Bool × Nat)) : Answers (cpFill s kind num sa sb run mem rows cols size ty own late) := by
  unfold cpFill
  exact answers_cpIssue ..

@[simp] theorem answers_receive (s : State) (sa sb sc : SReg) (senders align : Nat) (red : Option Ty) : Answers (receive s sa sb sc senders align red) := by
  unfold receive
  exact answers_cpIssue ..

@[simp] theorem answers_execVredAdd (o : VOps1) (rm : Rm) (s : State) : Answers (execVredAdd o rm s) := answers_reduce ..

theorem execAadd_answers (d a b : SReg) (s : State) : Answers (execAadd d a b s) := answers_ccAtomic ..

theorem execAcas_answers (d a b c : SReg) (s : State) : Answers (execAcas d a b c s) := answers_ccAtomic ..

theorem execAswp_answers (d a b : SReg) (s : State) : Answers (execAswp d a b s) := answers_ccAtomic ..

theorem execBr_answers (a : SReg) (neg : Bool) (off jd : BitVec 16) (s : State) : Answers (execBr a neg off jd s) := by
  unfold execBr
  repeat' (first | exact answers_next _ | exact answers_checked ..)

theorem execCall_answers (off : BitVec 16) (s : State) : Answers (execCall off s) := by
  unfold execCall
  repeat' (first | exact answers_next _ | exact answers_checked ..)

theorem execCpatom_answers (sa sb sc : SReg) (ty : Ty) (run : Run) (per : Bool) (s : State) : Answers (execCpatom sa sb sc ty run per s) := by
  unfold execCpatom
  exact answers_cpIssue ..

theorem execCpcbk_answers (sa sb : SReg) (k : BitVec 2) (run : Run) (mem : Bool) (s : State) : Answers (execCpcbk sa sb k run mem s) := answers_cpFill ..

theorem execCpcini_answers (sb sc : SReg) (s : State) : Answers (execCpcini sb sc s) := by
  unfold execCpcini
  exact answers_cpIssue ..

theorem execCpcrd_answers (sa sb : SReg) (ty : Ty) (run : Run) (raw : Bool) (s : State) : Answers (execCpcrd sa sb ty run raw s) := by
  unfold execCpcrd
  exact answers_cpIssue ..

theorem execCpdec_answers (sa sb sc : SReg) (run : Run) (s : State) : Answers (execCpdec sa sb sc run s) := by
  unfold execCpdec
  exact answers_cpIssue ..

theorem execCpexp_answers (sa sb : SReg) (slot : BitVec 5) (y : BitVec 4) (run : Run) (ty : Ty) (rdim cdim : BitVec 3) (sp : Bool) (s : State) : Answers (execCpexp sa sb slot y run ty rdim cdim sp s) := by
  unfold execCpexp
  repeat' (first | exact answers_next _ | exact answers_cpIssue .. | split | dsimp only)

theorem execCpfill_answers (sa sb : SReg) (slot : BitVec 5) (run : Run) (ty : Ty) (mem : Bool) (s : State) : Answers (execCpfill sa sb slot run ty mem s) := by
  unfold execCpfill
  exact answers_cpFill ..

theorem execCpfld_answers (sa sb : SReg) (tile y : BitVec 4) (run : Run) (ty : Ty) (rdim cdim : BitVec 3) (s : State) : Answers (execCpfld sa sb tile y run ty rdim cdim s) := by
  unfold execCpfld
  repeat' (first | exact answers_next _ | exact answers_cpIssue .. | split | dsimp only)

theorem execCpget_answers (sa sb sc : SReg) (lc : BitVec 6) (win : BitVec 8) (s : State) : Answers (execCpget sa sb sc lc win s) := by
  unfold execCpget
  repeat' (first | exact answers_next _ | exact answers_cpIssue ..)

theorem execCpgth_answers (o : IndexOps) (s : State) : Answers (execCpgth o s) := by
  unfold execCpgth
  repeat' (first | exact answers_next _ | exact answers_cpIssue .. | split | dsimp only)

theorem execCpld_answers (o : MoveOps) (s : State) : Answers (execCpld o s) := by
  unfold execCpld
  exact answers_cpIssue ..

theorem execCpldCb_answers (o : MoveOps) (s : State) : Answers (execCpldCb o s) := by
  unfold execCpldCb
  exact answers_cpIssue ..

theorem execCpmov_answers (o : MoveOps) (s : State) : Answers (execCpmov o s) := by
  unfold execCpmov
  exact answers_cpIssue ..

theorem execCppat_answers (sa sb : SReg) (pm : BitVec 3) (run : Run) (mem : Bool) (s : State) : Answers (execCppat sa sb pm run mem s) := answers_cpFill ..

theorem execCpput_answers (sa sb sc : SReg) (lc : BitVec 6) (win : BitVec 8) (run : Run) (s : State) : Answers (execCpput sa sb sc lc win run s) := by
  unfold execCpput
  repeat' (first | exact answers_next _ | exact answers_cpIssue ..)

theorem execCpsct_answers (o : IndexOps) (comb : Bool) (s : State) : Answers (execCpsct o comb s) := by
  unfold execCpsct
  repeat' (first | exact answers_next _ | exact answers_cpIssue .. | split | dsimp only)

theorem execCpset_answers (o : MoveOps) (mem : Bool) (s : State) : Answers (execCpset o mem s) := by
  unfold execCpset
  exact answers_cpIssue ..

theorem execCpst_answers (o : MoveOps) (s : State) : Answers (execCpst o s) := by
  unfold execCpst
  exact answers_cpIssue ..

theorem execCpvq_answers (sa sb : SReg) (slot : BitVec 5) (run : Run) (ty : Ty) (rows : BitVec 6) (sp : Bool) (k : BitVec 2) (s : State) : Answers (execCpvq sa sb slot run ty rows sp k s) := by
  unfold execCpvq
  exact answers_cpIssue ..

theorem execCpxrcv_answers (sa sb sc : SReg) (s : State) : Answers (execCpxrcv sa sb sc s) := answers_receive ..

theorem execCpxred_answers (sa sb sc : SReg) (ty : Ty) (snd : BitVec 4) (s : State) : Answers (execCpxred sa sb sc ty snd s) := answers_receive ..

theorem execCpxsnd_answers (sa sb sc : SReg) (run : Run) (s : State) : Answers (execCpxsnd sa sb sc run s) := by
  unfold execCpxsnd
  repeat' (first | exact answers_next _ | exact answers_cpIssue .. | split)

theorem execEndStream_answers (s : State) : Answers (execEndStream s) := answers_checked ..

theorem execFence_answers (scope : BitVec 3) (s : State) : Answers (execFence scope s) := answers_checked ..

theorem execJmp_answers (off : BitVec 16) (s : State) : Answers (execJmp off s) := by
  unfold execJmp
  exact answers_checked ..

theorem execJoin_answers (d : BitVec 32) (s : State) : Answers (execJoin d s) := by
  unfold execJoin
  repeat' (first | exact answers_next _ | exact answers_checked .. | split)

theorem execKset_answers (kd : BitVec 3) (imm : BitVec 16) (ty : Ty) (s : State) : Answers (execKset kd imm ty s) := answers_checked ..

theorem execLcwait_answers (lc : BitVec 6) (s : State) : Answers (execLcwait lc s) := by
  unfold execLcwait
  repeat' (first | exact answers_next _ | split | dsimp only)

theorem execLdm_answers (d a : SReg) (imm : BitVec 28) (s : State) : Answers (execLdm d a imm s) := answers_ccDevice ..

theorem execLds_answers (d a : SReg) (imm : BitVec 28) (s : State) : Answers (execLds d a imm s) := by
  unfold execLds
  exact answers_checked ..

theorem execLend_answers (id : BitVec 3) (s : State) : Answers (execLend id s) := by
  unfold execLend
  repeat' (first | exact answers_next _ | exact answers_checked .. | split | dsimp only)

theorem execLoop_answers (id stg : BitVec 3) (body : BitVec 14) (count mx : BitVec 32) (s : State) : Answers (execLoop id stg body count mx s) := by
  unfold execLoop
  repeat' (first | exact answers_next _ | exact answers_checked ..)

theorem execMark_answers (stage : BitVec 3) (s : State) : Answers (execMark stage s) := by
  unfold execMark
  repeat' (first | exact answers_checked .. | split)

theorem execMpat_answers (a b : SReg) (n : BitVec 4) (s : State) : Answers (execMpat a b n s) := by
  unfold execMpat
  exact answers_checked ..

theorem execPatch_answers (a b : SReg) (s : State) : Answers (execPatch a b s) := by
  unfold execPatch
  exact answers_checked ..

theorem execRet_answers (s : State) : Answers (execRet s) := by
  unfold execRet
  repeat' (first | exact answers_next _ | exact answers_checked .. | split)

theorem execRinv_answers (a : SReg) (s : State) : Answers (execRinv a s) := by
  unfold execRinv
  repeat' (first | exact answers_next _ | split | dsimp only)

theorem execRload_answers (a : SReg) (n : BitVec 6) (s : State) : Answers (execRload a n s) := answers_checked ..

theorem execRmerge_answers (a : SReg) (n : BitVec 6) (s : State) : Answers (execRmerge a n s) := by
  unfold execRmerge
  exact answers_checked ..

theorem execRsplit_answers (a b : SReg) (n : BitVec 6) (s : State) : Answers (execRsplit a b n s) := by
  unfold execRsplit
  exact answers_checked ..

theorem execStm_answers (d a : SReg) (imm : BitVec 28) (s : State) : Answers (execStm d a imm s) := answers_ccDevice ..

theorem execSts_answers (d a : SReg) (imm : BitVec 28) (s : State) : Answers (execSts d a imm s) := by
  unfold execSts
  exact answers_checked ..

theorem execSysrd_answers (d : SReg) (n : BitVec 12) (s : State) : Answers (execSysrd d n s) := by
  unfold execSysrd
  repeat' (first | exact answers_next _ | exact answers_ccResult .. | split)

theorem execSyswr_answers (a : SReg) (n : BitVec 12) (s : State) : Answers (execSyswr a n s) := answers_checked ..

theorem execVabs_answers (o : VOps1) (rm : Rm) (s : State) : Answers (execVabs o rm s) := answers_arith1 ..

theorem execVadd_answers (o : VOps) (rm : Rm) (s : State) : Answers (execVadd o rm s) := answers_arith2 ..

theorem execVaddImm_answers (o : VImm) (rm : Rm) (s : State) : Answers (execVaddImm o rm s) := answers_arithImm ..

theorem execVand_answers (o : VOps) (s : State) : Answers (execVand o s) := answers_bits2 ..

theorem execVbcst_answers (o : VOps1) (lane : BitVec 7) (s : State) : Answers (execVbcst o lane s) := answers_veLanes ..

theorem execVclmulHi_answers (o : VOps) (s : State) : Answers (execVclmulHi o s) := answers_bits2 ..

theorem execVclmulLo_answers (o : VOps) (s : State) : Answers (execVclmulLo o s) := answers_bits2 ..

theorem execVclz_answers (o : VOps1) (s : State) : Answers (execVclz o s) := answers_bits1 ..

theorem execVcmp_answers (md : BitVec 4) (va vb : VReg) (prd : Prd) (z : Bool) (ty : Ty) (cc : Cond) (s : State) : Answers (execVcmp md va vb prd z ty cc s) := by
  unfold execVcmp
  exact answers_checked ..

theorem execVcmpr_answers (o : VOps1) (s : State) : Answers (execVcmpr o s) := by
  unfold execVcmpr
  exact answers_checked ..

theorem execVcospi_answers (o : VOps1) (s : State) : Answers (execVcospi o s) := answers_arith1 ..

theorem execVcvt_answers (o : VOps1) (src : Ty) (part : BitVec 3) (rm : Rm) (s : State) : Answers (execVcvt o src part rm s) := by
  unfold execVcvt
  exact answers_checked ..

theorem execVdiv_answers (o : VOps) (rm : Rm) (s : State) : Answers (execVdiv o rm s) := answers_arith2 ..

theorem execVexp_answers (o : VOps1) (s : State) : Answers (execVexp o s) := answers_arith1 ..

theorem execVexp2_answers (o : VOps1) (s : State) : Answers (execVexp2 o s) := answers_arith1 ..

theorem execVfma_answers (o : VOps) (rm : Rm) (s : State) : Answers (execVfma o rm s) := answers_arith3 ..

theorem execVfms_answers (o : VOps) (rm : Rm) (s : State) : Answers (execVfms o rm s) := answers_arith3 ..

theorem execVfsh_answers (o : VOps) (sh : BitVec 7) (s : State) : Answers (execVfsh o sh s) := answers_veLanes ..

theorem execVimm_answers (o : VImm) (s : State) : Answers (execVimm o s) := answers_veLanes ..

theorem execViota_answers (vd : VReg) (prd : Prd) (z : Bool) (ty : Ty) (s : State) : Answers (execViota vd prd z ty s) := answers_veLanes ..

theorem execVlog_answers (o : VOps1) (s : State) : Answers (execVlog o s) := answers_arith1 ..

theorem execVlog2_answers (o : VOps1) (s : State) : Answers (execVlog2 o s) := answers_arith1 ..

theorem execVlog3_answers (o : VOps) (tt : BitVec 8) (s : State) : Answers (execVlog3 o tt s) := answers_veLanes ..

theorem execVmax_answers (o : VOps) (rm : Rm) (s : State) : Answers (execVmax o rm s) := answers_arith2 ..

theorem execVmin_answers (o : VOps) (rm : Rm) (s : State) : Answers (execVmin o rm s) := answers_arith2 ..

theorem execVminImm_answers (o : VImm) (rm : Rm) (s : State) : Answers (execVminImm o rm s) := answers_arithImm ..

theorem execVmov_answers (o : VOps1) (s : State) : Answers (execVmov o s) := answers_veLanes ..

theorem execVmul_answers (o : VOps) (rm : Rm) (s : State) : Answers (execVmul o rm s) := answers_arith2 ..

theorem execVmulImm_answers (o : VImm) (rm : Rm) (s : State) : Answers (execVmulImm o rm s) := answers_arithImm ..

theorem execVneg_answers (o : VOps1) (rm : Rm) (s : State) : Answers (execVneg o rm s) := answers_arith1 ..

theorem execVor_answers (o : VOps) (s : State) : Answers (execVor o s) := answers_bits2 ..

theorem execVperm_answers (o : VOps) (s : State) : Answers (execVperm o s) := answers_veLanes ..

theorem execVpopc_answers (o : VOps1) (s : State) : Answers (execVpopc o s) := answers_bits1 ..

theorem execVrand_answers (vd : VReg) (prd : Prd) (z : Bool) (ty : Ty) (s : State) : Answers (execVrand vd prd z ty s) := answers_veLanes ..

theorem execVrcp_answers (o : VOps1) (rm : Rm) (s : State) : Answers (execVrcp o rm s) := answers_arith1 ..

theorem execVredAdd_answers (o : VOps1) (rm : Rm) (s : State) : Answers (execVredAdd o rm s) := answers_reduce ..

theorem execVredMax_answers (o : VOps1) (rm : Rm) (s : State) : Answers (execVredMax o rm s) := answers_reduce ..

theorem execVredMin_answers (o : VOps1) (rm : Rm) (s : State) : Answers (execVredMin o rm s) := answers_reduce ..

theorem execVrsq_answers (o : VOps1) (rm : Rm) (s : State) : Answers (execVrsq o rm s) := answers_arith1 ..

theorem execVsar_answers (o : VOps) (s : State) : Answers (execVsar o s) := answers_bits2 ..

theorem execVscanExc_answers (o : VOps1) (rm : Rm) (s : State) : Answers (execVscanExc o rm s) := answers_scan ..

theorem execVscanInc_answers (o : VOps1) (rm : Rm) (s : State) : Answers (execVscanInc o rm s) := answers_scan ..

theorem execVshl_answers (o : VOps) (s : State) : Answers (execVshl o s) := answers_bits2 ..

theorem execVshr_answers (o : VOps) (s : State) : Answers (execVshr o s) := answers_bits2 ..

theorem execVsinpi_answers (o : VOps1) (s : State) : Answers (execVsinpi o s) := answers_arith1 ..

theorem execVsqrt_answers (o : VOps1) (rm : Rm) (s : State) : Answers (execVsqrt o rm s) := answers_arith1 ..

theorem execVstep_answers (vd va : VReg) (j k : BitVec 4) (ty : Ty) (dsc : Bool) (s : State) : Answers (execVstep vd va j k ty dsc s) := by
  unfold execVstep
  exact answers_checked ..

theorem execVsub_answers (o : VOps) (rm : Rm) (s : State) : Answers (execVsub o rm s) := answers_arith2 ..

theorem execVtanh_answers (o : VOps1) (s : State) : Answers (execVtanh o s) := answers_arith1 ..

theorem execVxor_answers (o : VOps) (s : State) : Answers (execVxor o s) := answers_bits2 ..

theorem execYload_answers (a : SReg) (y : BitVec 4) (s : State) : Answers (execYload a y s) := answers_checked ..

end Sys2Proof.Laws
end

