-- ==== Sys2Proof/Laws/PerInstr.lean ====
section
/-! SUPPORT. The statement that is made per instruction: RoundTrip, that the decoder reads an encoded instruction back, with one
lemma for each constructor of Instr. -/

set_option Elab.async false

namespace Sys2Proof.Laws

/-- A well-formed instruction has an opcode, an operand field of 40 bits and an operand extension word where its opcode calls for
one (R118 to R120, R139), and the decoder of its map reads the instruction back from them. -/
def RoundTrip.Statement (i : Instr) : Prop :=
  i.wf = true → ∃ op x ext, encodeOp i = some (op, x, ext) ∧ op < 256 ∧ x < 2 ^ 40 ∧
    ext.isSome = hasOperandExt (streamOf i) op ∧ ext.getD 0 < 2 ^ 64 ∧ decodeOp (streamOf i) op x (ext.getD 0) = .ok i

/-- A hypothesis about a field that is used. -/
theorem used {p : Prop} (h : true = false) : p := absurd h (by decide)

theorem ofNat_self {w : Nat} (x : BitVec w) : BitVec.ofNat w x.toNat = x := by simp

theorem lt40 {ws vs : List Nat} (h : ws.sum = 40) : joinF ws vs < 2 ^ 40 := h ▸ joinF_lt ws vs

/-- The parts of the statement for an instruction without an extension word. -/
theorem roundTrip_of {i : Instr} {op x : Nat} (e : encodeOp i = some (op, x, none)) (ho : op < 256) (hx : x < 2 ^ 40)
    (hn : hasOperandExt (streamOf i) op = false) (hd : decodeOp (streamOf i) op x 0 = .ok i) : RoundTrip.Statement i :=
  fun _ => ⟨op, x, none, e, ho, hx, hn.symm, by decide, hd⟩

/-- The same with one. -/
theorem roundTrip_ext {i : Instr} {op x v : Nat} (e : encodeOp i = some (op, x, some v)) (ho : op < 256) (hx : x < 2 ^ 40)
    (hn : hasOperandExt (streamOf i) op = true) (hv : v < 2 ^ 64) (hd : decodeOp (streamOf i) op x v = .ok i) :
    RoundTrip.Statement i :=
  fun _ => ⟨op, x, some v, e, ho, hx, hn.symm, hv, hd⟩

theorem RoundTrip.add (rd ra rb : SReg) : RoundTrip.Statement (.add rd ra rb) :=
  fun h => roundTrip_of rfl (by decide) (lt40 rfl) rfl
    ((@id (∀ x, decodeOp (streamOf (.add rd ra rb)) 0x00 x 0 = ccThree .add x) (fun _ => rfl) _).trans
      (ccThree_law .add rd ra rb)) h

theorem RoundTrip.sub (rd ra rb : SReg) : RoundTrip.Statement (.sub rd ra rb) :=
  fun h => roundTrip_of rfl (by decide) (lt40 rfl) rfl
    ((@id (∀ x, decodeOp (streamOf (.sub rd ra rb)) 0x01 x 0 = ccThree .sub x) (fun _ => rfl) _).trans
      (ccThree_law .sub rd ra rb)) h

theorem RoundTrip.mul (rd ra rb : SReg) : RoundTrip.Statement (.mul rd ra rb) :=
  fun h => roundTrip_of rfl (by decide) (lt40 rfl) rfl
    ((@id (∀ x, decodeOp (streamOf (.mul rd ra rb)) 0x02 x 0 = ccThree .mul x) (fun _ => rfl) _).trans
      (ccThree_law .mul rd ra rb)) h

theorem RoundTrip.mulh (rd ra rb : SReg) : RoundTrip.Statement (.mulh rd ra rb) :=
  fun h => roundTrip_of rfl (by decide) (lt40 rfl) rfl
    ((@id (∀ x, decodeOp (streamOf (.mulh rd ra rb)) 0x03 x 0 = ccThree .mulh x) (fun _ => rfl) _).trans
      (ccThree_law .mulh rd ra rb)) h

theorem RoundTrip.mulhn (rd ra rb : SReg) : RoundTrip.Statement (.mulhn rd ra rb) :=
  fun h => roundTrip_of rfl (by decide) (lt40 rfl) rfl
    ((@id (∀ x, decodeOp (streamOf (.mulhn rd ra rb)) 0x04 x 0 = ccThree .mulhn x) (fun _ => rfl) _).trans
      (ccThree_law .mulhn rd ra rb)) h

theorem RoundTrip.div (rd ra rb : SReg) : RoundTrip.Statement (.div rd ra rb) :=
  fun h => roundTrip_of rfl (by decide) (lt40 rfl) rfl
    ((@id (∀ x, decodeOp (streamOf (.div rd ra rb)) 0x05 x 0 = ccThree .div x) (fun _ => rfl) _).trans
      (ccThree_law .div rd ra rb)) h

theorem RoundTrip.divn (rd ra rb : SReg) : RoundTrip.Statement (.divn rd ra rb) :=
  fun h => roundTrip_of rfl (by decide) (lt40 rfl) rfl
    ((@id (∀ x, decodeOp (streamOf (.divn rd ra rb)) 0x06 x 0 = ccThree .divn x) (fun _ => rfl) _).trans
      (ccThree_law .divn rd ra rb)) h

theorem RoundTrip.rem (rd ra rb : SReg) : RoundTrip.Statement (.rem rd ra rb) :=
  fun h => roundTrip_of rfl (by decide) (lt40 rfl) rfl
    ((@id (∀ x, decodeOp (streamOf (.rem rd ra rb)) 0x07 x 0 = ccThree .rem x) (fun _ => rfl) _).trans
      (ccThree_law .rem rd ra rb)) h

theorem RoundTrip.remn (rd ra rb : SReg) : RoundTrip.Statement (.remn rd ra rb) :=
  fun h => roundTrip_of rfl (by decide) (lt40 rfl) rfl
    ((@id (∀ x, decodeOp (streamOf (.remn rd ra rb)) 0x08 x 0 = ccThree .remn x) (fun _ => rfl) _).trans
      (ccThree_law .remn rd ra rb)) h

theorem RoundTrip.and (rd ra rb : SReg) : RoundTrip.Statement (.and rd ra rb) :=
  fun h => roundTrip_of rfl (by decide) (lt40 rfl) rfl
    ((@id (∀ x, decodeOp (streamOf (.and rd ra rb)) 0x09 x 0 = ccThree .and x) (fun _ => rfl) _).trans
      (ccThree_law .and rd ra rb)) h

theorem RoundTrip.or (rd ra rb : SReg) : RoundTrip.Statement (.or rd ra rb) :=
  fun h => roundTrip_of rfl (by decide) (lt40 rfl) rfl
    ((@id (∀ x, decodeOp (streamOf (.or rd ra rb)) 0x0A x 0 = ccThree .or x) (fun _ => rfl) _).trans (ccThree_law .or rd ra rb)) h

theorem RoundTrip.xor (rd ra rb : SReg) : RoundTrip.Statement (.xor rd ra rb) :=
  fun h => roundTrip_of rfl (by decide) (lt40 rfl) rfl
    ((@id (∀ x, decodeOp (streamOf (.xor rd ra rb)) 0x0B x 0 = ccThree .xor x) (fun _ => rfl) _).trans
      (ccThree_law .xor rd ra rb)) h

theorem RoundTrip.shl (rd ra rb : SReg) : RoundTrip.Statement (.shl rd ra rb) :=
  fun h => roundTrip_of rfl (by decide) (lt40 rfl) rfl
    ((@id (∀ x, decodeOp (streamOf (.shl rd ra rb)) 0x0C x 0 = ccThree .shl x) (fun _ => rfl) _).trans
      (ccThree_law .shl rd ra rb)) h

theorem RoundTrip.shr (rd ra rb : SReg) : RoundTrip.Statement (.shr rd ra rb) :=
  fun h => roundTrip_of rfl (by decide) (lt40 rfl) rfl
    ((@id (∀ x, decodeOp (streamOf (.shr rd ra rb)) 0x0D x 0 = ccThree .shr x) (fun _ => rfl) _).trans
      (ccThree_law .shr rd ra rb)) h

theorem RoundTrip.sar (rd ra rb : SReg) : RoundTrip.Statement (.sar rd ra rb) :=
  fun h => roundTrip_of rfl (by decide) (lt40 rfl) rfl
    ((@id (∀ x, decodeOp (streamOf (.sar rd ra rb)) 0x0E x 0 = ccThree .sar x) (fun _ => rfl) _).trans
      (ccThree_law .sar rd ra rb)) h

theorem RoundTrip.sel (rd ra rb rc : SReg) : RoundTrip.Statement (.sel rd ra rb rc) :=
  fun h => roundTrip_of rfl (by decide) (lt40 rfl) rfl
    ((@id (∀ x, decodeOp (streamOf (.sel rd ra rb rc)) 0x0F x 0 = ccFour .sel x) (fun _ => rfl) _).trans
      (ccFour_law .sel rd ra rb rc)) h

theorem RoundTrip.min (rd ra rb : SReg) : RoundTrip.Statement (.min rd ra rb) :=
  fun h => roundTrip_of rfl (by decide) (lt40 rfl) rfl
    ((@id (∀ x, decodeOp (streamOf (.min rd ra rb)) 0x10 x 0 = ccThree .min x) (fun _ => rfl) _).trans
      (ccThree_law .min rd ra rb)) h

theorem RoundTrip.max (rd ra rb : SReg) : RoundTrip.Statement (.max rd ra rb) :=
  fun h => roundTrip_of rfl (by decide) (lt40 rfl) rfl
    ((@id (∀ x, decodeOp (streamOf (.max rd ra rb)) 0x11 x 0 = ccThree .max x) (fun _ => rfl) _).trans
      (ccThree_law .max rd ra rb)) h

theorem RoundTrip.minn (rd ra rb : SReg) : RoundTrip.Statement (.minn rd ra rb) :=
  fun h => roundTrip_of rfl (by decide) (lt40 rfl) rfl
    ((@id (∀ x, decodeOp (streamOf (.minn rd ra rb)) 0x12 x 0 = ccThree .minn x) (fun _ => rfl) _).trans
      (ccThree_law .minn rd ra rb)) h

theorem RoundTrip.maxn (rd ra rb : SReg) : RoundTrip.Statement (.maxn rd ra rb) :=
  fun h => roundTrip_of rfl (by decide) (lt40 rfl) rfl
    ((@id (∀ x, decodeOp (streamOf (.maxn rd ra rb)) 0x13 x 0 = ccThree .maxn x) (fun _ => rfl) _).trans
      (ccThree_law .maxn rd ra rb)) h

theorem RoundTrip.seq (rd ra rb : SReg) : RoundTrip.Statement (.seq rd ra rb) :=
  fun h => roundTrip_of rfl (by decide) (lt40 rfl) rfl
    ((@id (∀ x, decodeOp (streamOf (.seq rd ra rb)) 0x14 x 0 = ccThree .seq x) (fun _ => rfl) _).trans
      (ccThree_law .seq rd ra rb)) h

theorem RoundTrip.sne (rd ra rb : SReg) : RoundTrip.Statement (.sne rd ra rb) :=
  fun h => roundTrip_of rfl (by decide) (lt40 rfl) rfl
    ((@id (∀ x, decodeOp (streamOf (.sne rd ra rb)) 0x15 x 0 = ccThree .sne x) (fun _ => rfl) _).trans
      (ccThree_law .sne rd ra rb)) h

theorem RoundTrip.slt (rd ra rb : SReg) : RoundTrip.Statement (.slt rd ra rb) :=
  fun h => roundTrip_of rfl (by decide) (lt40 rfl) rfl
    ((@id (∀ x, decodeOp (streamOf (.slt rd ra rb)) 0x16 x 0 = ccThree .slt x) (fun _ => rfl) _).trans
      (ccThree_law .slt rd ra rb)) h

theorem RoundTrip.sltn (rd ra rb : SReg) : RoundTrip.Statement (.sltn rd ra rb) :=
  fun h => roundTrip_of rfl (by decide) (lt40 rfl) rfl
    ((@id (∀ x, decodeOp (streamOf (.sltn rd ra rb)) 0x17 x 0 = ccThree .sltn x) (fun _ => rfl) _).trans
      (ccThree_law .sltn rd ra rb)) h

theorem RoundTrip.aadd (rd ra rb : SReg) : RoundTrip.Statement (.aadd rd ra rb) :=
  fun h => roundTrip_of rfl (by decide) (lt40 rfl) rfl
    ((@id (∀ x, decodeOp (streamOf (.aadd rd ra rb)) 0x18 x 0 = ccThree .aadd x) (fun _ => rfl) _).trans
      (ccThree_law .aadd rd ra rb)) h

theorem RoundTrip.acas (rd ra rb rc : SReg) : RoundTrip.Statement (.acas rd ra rb rc) :=
  fun h => roundTrip_of rfl (by decide) (lt40 rfl) rfl
    ((@id (∀ x, decodeOp (streamOf (.acas rd ra rb rc)) 0x19 x 0 = ccFour .acas x) (fun _ => rfl) _).trans
      (ccFour_law .acas rd ra rb rc)) h

theorem RoundTrip.aswp (rd ra rb : SReg) : RoundTrip.Statement (.aswp rd ra rb) :=
  fun h => roundTrip_of rfl (by decide) (lt40 rfl) rfl
    ((@id (∀ x, decodeOp (streamOf (.aswp rd ra rb)) 0x1A x 0 = ccThree .aswp x) (fun _ => rfl) _).trans
      (ccThree_law .aswp rd ra rb)) h

theorem RoundTrip.patch (ra rb : SReg) : RoundTrip.Statement (.patch ra rb) :=
  fun h => roundTrip_of rfl (by decide) (lt40 rfl) rfl
    ((@id (∀ x, decodeOp (streamOf (.patch ra rb)) 0x1B x 0 = decodeCc 0x1B x 0) (fun _ => rfl) _).trans (patch_law ra rb)) h

theorem RoundTrip.fqpush (ra : SReg) : RoundTrip.Statement (.fqpush ra) :=
  fun h => roundTrip_of rfl (by decide) (lt40 rfl) rfl
    ((@id (∀ x, decodeOp (streamOf (.fqpush ra)) 0x1C x 0 = decodeCc 0x1C x 0) (fun _ => rfl) _).trans (fqpush_law ra)) h

theorem RoundTrip.addi (rd ra : SReg) (imm : BitVec 28) : RoundTrip.Statement (.addi rd ra imm) :=
  fun h => roundTrip_of rfl (by decide) (lt40 rfl) rfl
    ((@id (∀ x, decodeOp (streamOf (.addi rd ra imm)) 0x20 x 0 = ccImm .addi x) (fun _ => rfl) _).trans
      (ccImm_law .addi rd ra imm)) h

theorem RoundTrip.andi (rd ra : SReg) (imm : BitVec 28) : RoundTrip.Statement (.andi rd ra imm) :=
  fun h => roundTrip_of rfl (by decide) (lt40 rfl) rfl
    ((@id (∀ x, decodeOp (streamOf (.andi rd ra imm)) 0x21 x 0 = ccImm .andi x) (fun _ => rfl) _).trans
      (ccImm_law .andi rd ra imm)) h

theorem RoundTrip.ori (rd ra : SReg) (imm : BitVec 28) : RoundTrip.Statement (.ori rd ra imm) :=
  fun h => roundTrip_of rfl (by decide) (lt40 rfl) rfl
    ((@id (∀ x, decodeOp (streamOf (.ori rd ra imm)) 0x22 x 0 = ccImm .ori x) (fun _ => rfl) _).trans (ccImm_law .ori rd ra imm)) h

theorem RoundTrip.xori (rd ra : SReg) (imm : BitVec 28) : RoundTrip.Statement (.xori rd ra imm) :=
  fun h => roundTrip_of rfl (by decide) (lt40 rfl) rfl
    ((@id (∀ x, decodeOp (streamOf (.xori rd ra imm)) 0x23 x 0 = ccImm .xori x) (fun _ => rfl) _).trans
      (ccImm_law .xori rd ra imm)) h

theorem RoundTrip.shli (rd ra : SReg) (sh : BitVec 6) : RoundTrip.Statement (.shli rd ra sh) :=
  fun h => roundTrip_of rfl (by decide) (lt40 rfl) rfl
    ((@id (∀ x, decodeOp (streamOf (.shli rd ra sh)) 0x24 x 0 = ccShift .shli x) (fun _ => rfl) _).trans
      (ccShift_law .shli rd ra sh)) h

theorem RoundTrip.shri (rd ra : SReg) (sh : BitVec 6) : RoundTrip.Statement (.shri rd ra sh) :=
  fun h => roundTrip_of rfl (by decide) (lt40 rfl) rfl
    ((@id (∀ x, decodeOp (streamOf (.shri rd ra sh)) 0x25 x 0 = ccShift .shri x) (fun _ => rfl) _).trans
      (ccShift_law .shri rd ra sh)) h

theorem RoundTrip.sari (rd ra : SReg) (sh : BitVec 6) : RoundTrip.Statement (.sari rd ra sh) :=
  fun h => roundTrip_of rfl (by decide) (lt40 rfl) rfl
    ((@id (∀ x, decodeOp (streamOf (.sari rd ra sh)) 0x26 x 0 = ccShift .sari x) (fun _ => rfl) _).trans
      (ccShift_law .sari rd ra sh)) h

theorem RoundTrip.slti (rd ra : SReg) (imm : BitVec 28) : RoundTrip.Statement (.slti rd ra imm) :=
  fun h => roundTrip_of rfl (by decide) (lt40 rfl) rfl
    ((@id (∀ x, decodeOp (streamOf (.slti rd ra imm)) 0x27 x 0 = ccImm .slti x) (fun _ => rfl) _).trans
      (ccImm_law .slti rd ra imm)) h

theorem RoundTrip.lim (rd ra : SReg) (imm : BitVec 28) : RoundTrip.Statement (.lim rd ra imm) :=
  fun h => roundTrip_of rfl (by decide) (lt40 rfl) rfl
    ((@id (∀ x, decodeOp (streamOf (.lim rd ra imm)) 0x28 x 0 = ccImm .lim x) (fun _ => rfl) _).trans (ccImm_law .lim rd ra imm)) h

theorem RoundTrip.movi (rd : SReg) (imm : BitVec 28) : RoundTrip.Statement (.movi rd imm) :=
  fun h => roundTrip_of rfl (by decide) (lt40 rfl) rfl
    ((@id (∀ x, decodeOp (streamOf (.movi rd imm)) 0x29 x 0 = decodeCc 0x29 x 0) (fun _ => rfl) _).trans (movi_law rd imm)) h

theorem RoundTrip.lds (rd ra : SReg) (imm : BitVec 28) : RoundTrip.Statement (.lds rd ra imm) :=
  fun h => roundTrip_of rfl (by decide) (lt40 rfl) rfl
    ((@id (∀ x, decodeOp (streamOf (.lds rd ra imm)) 0x2A x 0 = ccImm .lds x) (fun _ => rfl) _).trans (ccImm_law .lds rd ra imm)) h

theorem RoundTrip.sts (rd ra : SReg) (imm : BitVec 28) : RoundTrip.Statement (.sts rd ra imm) :=
  fun h => roundTrip_of rfl (by decide) (lt40 rfl) rfl
    ((@id (∀ x, decodeOp (streamOf (.sts rd ra imm)) 0x2B x 0 = ccImm .sts x) (fun _ => rfl) _).trans (ccImm_law .sts rd ra imm)) h

theorem RoundTrip.ldm (rd ra : SReg) (imm : BitVec 28) : RoundTrip.Statement (.ldm rd ra imm) :=
  fun h => roundTrip_of rfl (by decide) (lt40 rfl) rfl
    ((@id (∀ x, decodeOp (streamOf (.ldm rd ra imm)) 0x2C x 0 = ccImm .ldm x) (fun _ => rfl) _).trans (ccImm_law .ldm rd ra imm)) h

theorem RoundTrip.stm (rd ra : SReg) (imm : BitVec 28) : RoundTrip.Statement (.stm rd ra imm) :=
  fun h => roundTrip_of rfl (by decide) (lt40 rfl) rfl
    ((@id (∀ x, decodeOp (streamOf (.stm rd ra imm)) 0x2D x 0 = ccImm .stm x) (fun _ => rfl) _).trans (ccImm_law .stm rd ra imm)) h

theorem RoundTrip.br (ra : SReg) (neg : Bool) (off jd : BitVec 16) : RoundTrip.Statement (.br ra neg off jd) :=
  fun h => roundTrip_of rfl (by decide) (lt40 rfl) rfl
    ((@id (∀ x, decodeOp (streamOf (.br ra neg off jd)) 0x30 x 0 = decodeBr x) (fun _ => rfl) _).trans (br_law ra neg off jd)) h

theorem RoundTrip.jmp (off : BitVec 16) : RoundTrip.Statement (.jmp off) :=
  fun h => roundTrip_of rfl (by decide) (lt40 rfl) rfl
    ((@id (∀ x, decodeOp (streamOf (.jmp off)) 0x31 x 0 = ccJump .jmp x) (fun _ => rfl) _).trans (ccJump_law .jmp off)) h

theorem RoundTrip.call (off : BitVec 16) : RoundTrip.Statement (.call off) :=
  fun h => roundTrip_of rfl (by decide) (lt40 rfl) rfl
    ((@id (∀ x, decodeOp (streamOf (.call off)) 0x32 x 0 = ccJump .call x) (fun _ => rfl) _).trans (ccJump_law .call off)) h

theorem RoundTrip.ret : RoundTrip.Statement (.ret) :=
  fun h => roundTrip_of rfl (by decide) (by decide) rfl (rfl) h

theorem RoundTrip.sysrd (rd : SReg) (num : BitVec 12) : RoundTrip.Statement (.sysrd rd num) :=
  fun h => roundTrip_of rfl (by decide) (lt40 rfl) rfl
    ((@id (∀ x, decodeOp (streamOf (.sysrd rd num)) 0x40 x 0 = ccSys true false false 12 (fun d _ _ n => .sysrd d (BitVec.ofNat 12 n)) x) (fun _ => rfl) _).trans
      ((by simpa only [ofNat_self] using ccSys_law true false false 12 (fun d _ _ n => .sysrd d (BitVec.ofNat 12 n)) rd 0 0 num.toNat (by decide) num.isLt used (fun _ => rfl) (fun _ => rfl)))) h

theorem RoundTrip.syswr (ra : SReg) (num : BitVec 12) : RoundTrip.Statement (.syswr ra num) :=
  fun h => roundTrip_of rfl (by decide) (lt40 rfl) rfl
    ((@id (∀ x, decodeOp (streamOf (.syswr ra num)) 0x41 x 0 = ccSys false true false 12 (fun _ a _ n => .syswr a (BitVec.ofNat 12 n)) x) (fun _ => rfl) _).trans
      ((by simpa only [ofNat_self] using ccSys_law false true false 12 (fun _ a _ n => .syswr a (BitVec.ofNat 12 n)) 0 ra 0 num.toNat (by decide) num.isLt (fun _ => rfl) used (fun _ => rfl)))) h

theorem RoundTrip.dccrd (rd : SReg) : RoundTrip.Statement (.dccrd rd) :=
  fun h => roundTrip_of rfl (by decide) (lt40 rfl) rfl
    ((@id (∀ x, decodeOp (streamOf (.dccrd rd)) 0x42 x 0 = ccSys true false false 0 (fun d _ _ _ => .dccrd d) x) (fun _ => rfl) _).trans
      ((by simpa only [ofNat_self] using ccSys_law true false false 0 (fun d _ _ _ => .dccrd d) rd 0 0 0 (by decide) (by decide) used (fun _ => rfl) (fun _ => rfl)))) h

theorem RoundTrip.lcset (ra : SReg) (lc : BitVec 6) : RoundTrip.Statement (.lcset ra lc) :=
  fun h => roundTrip_of rfl (by decide) (lt40 rfl) rfl
    ((@id (∀ x, decodeOp (streamOf (.lcset ra lc)) 0x43 x 0 = ccSys false true false 6 (fun _ a _ n => .lcset a (BitVec.ofNat 6 n)) x) (fun _ => rfl) _).trans
      ((by simpa only [ofNat_self] using ccSys_law false true false 6 (fun _ a _ n => .lcset a (BitVec.ofNat 6 n)) 0 ra 0 lc.toNat (by decide) lc.isLt (fun _ => rfl) used (fun _ => rfl)))) h

theorem RoundTrip.lcrd (rd : SReg) (lc : BitVec 6) : RoundTrip.Statement (.lcrd rd lc) :=
  fun h => roundTrip_of rfl (by decide) (lt40 rfl) rfl
    ((@id (∀ x, decodeOp (streamOf (.lcrd rd lc)) 0x44 x 0 = ccSys true false false 6 (fun d _ _ n => .lcrd d (BitVec.ofNat 6 n)) x) (fun _ => rfl) _).trans
      ((by simpa only [ofNat_self] using ccSys_law true false false 6 (fun d _ _ n => .lcrd d (BitVec.ofNat 6 n)) rd 0 0 lc.toNat (by decide) lc.isLt used (fun _ => rfl) (fun _ => rfl)))) h

theorem RoundTrip.lcwait (lc : BitVec 6) : RoundTrip.Statement (.lcwait lc) :=
  fun h => roundTrip_of rfl (by decide) (lt40 rfl) rfl
    ((@id (∀ x, decodeOp (streamOf (.lcwait lc)) 0x45 x 0 = ccSys false false false 6 (fun _ _ _ n => .lcwait (BitVec.ofNat 6 n)) x) (fun _ => rfl) _).trans
      ((by simpa only [ofNat_self] using ccSys_law false false false 6 (fun _ _ _ n => .lcwait (BitVec.ofNat 6 n)) 0 0 0 lc.toNat (by decide) lc.isLt (fun _ => rfl) (fun _ => rfl) (fun _ => rfl)))) h

theorem RoundTrip.slack (n : BitVec 16) : RoundTrip.Statement (.slack n) :=
  fun h => roundTrip_of rfl (by decide) (lt40 rfl) rfl
    ((@id (∀ x, decodeOp (streamOf (.slack n)) 0x46 x 0 = ccSys false false false 16 (fun _ _ _ n => .slack (BitVec.ofNat 16 n)) x) (fun _ => rfl) _).trans
      ((by simpa only [ofNat_self] using ccSys_law false false false 16 (fun _ _ _ n => .slack (BitVec.ofNat 16 n)) 0 0 0 n.toNat (by decide) n.isLt (fun _ => rfl) (fun _ => rfl) (fun _ => rfl)))) h

theorem RoundTrip.arm (rd ra : SReg) : RoundTrip.Statement (.arm rd ra) :=
  fun h => roundTrip_of rfl (by decide) (lt40 rfl) rfl
    ((@id (∀ x, decodeOp (streamOf (.arm rd ra)) 0x47 x 0 = ccSys true true false 0 (fun d a _ _ => .arm d a) x) (fun _ => rfl) _).trans
      ((by simpa only [ofNat_self] using ccSys_law true true false 0 (fun d a _ _ => .arm d a) rd ra 0 0 (by decide) (by decide) used used (fun _ => rfl)))) h

theorem RoundTrip.mpat (ra rb : SReg) (n : BitVec 4) : RoundTrip.Statement (.mpat ra rb n) :=
  fun h => roundTrip_of rfl (by decide) (lt40 rfl) rfl
    ((@id (∀ x, decodeOp (streamOf (.mpat ra rb n)) 0x48 x 0 = ccSys false true true 4 (fun _ a b n => .mpat a b (BitVec.ofNat 4 n)) x) (fun _ => rfl) _).trans
      ((by simpa only [ofNat_self] using ccSys_law false true true 4 (fun _ a b n => .mpat a b (BitVec.ofNat 4 n)) 0 ra rb n.toNat (by decide) n.isLt (fun _ => rfl) used used))) h

theorem RoundTrip.qprd (rd : SReg) (qp : BitVec 2) : RoundTrip.Statement (.qprd rd qp) :=
  fun h => roundTrip_of rfl (by decide) (lt40 rfl) rfl
    ((@id (∀ x, decodeOp (streamOf (.qprd rd qp)) 0x49 x 0 = ccSys true false false 2 (fun d _ _ n => .qprd d (BitVec.ofNat 2 n)) x) (fun _ => rfl) _).trans
      ((by simpa only [ofNat_self] using ccSys_law true false false 2 (fun d _ _ n => .qprd d (BitVec.ofNat 2 n)) rd 0 0 qp.toNat (by decide) qp.isLt used (fun _ => rfl) (fun _ => rfl)))) h

theorem RoundTrip.qpwr (ra : SReg) (qp : BitVec 2) : RoundTrip.Statement (.qpwr ra qp) :=
  fun h => roundTrip_of rfl (by decide) (lt40 rfl) rfl
    ((@id (∀ x, decodeOp (streamOf (.qpwr ra qp)) 0x4A x 0 = ccSys false true false 2 (fun _ a _ n => .qpwr a (BitVec.ofNat 2 n)) x) (fun _ => rfl) _).trans
      ((by simpa only [ofNat_self] using ccSys_law false true false 2 (fun _ a _ n => .qpwr a (BitVec.ofNat 2 n)) 0 ra 0 qp.toNat (by decide) qp.isLt (fun _ => rfl) used (fun _ => rfl)))) h

theorem RoundTrip.fence (scope : BitVec 3) : RoundTrip.Statement (.fence scope) :=
  fun h => roundTrip_of rfl (by decide) (lt40 rfl) rfl
    ((@id (∀ x, decodeOp (streamOf (.fence scope)) 0x4B x 0 = decodeFence x) (fun _ => rfl) _).trans
      (fence_law scope (by simpa [Instr.wf] using h))) h

theorem RoundTrip.watchAdd (ra : SReg) : RoundTrip.Statement (.watchAdd ra) :=
  fun h => roundTrip_of rfl (by decide) (lt40 rfl) rfl
    ((@id (∀ x, decodeOp (streamOf (.watchAdd ra)) 0x4C x 0 = decodeWatch x) (fun _ => rfl) _).trans (watchAdd_law ra)) h

theorem RoundTrip.watchClr : RoundTrip.Statement (.watchClr) :=
  fun h => roundTrip_of rfl (by decide) (lt40 rfl) rfl
    ((@id (∀ x, decodeOp (streamOf (.watchClr)) 0x4C x 0 = decodeWatch x) (fun _ => rfl) _).trans (watchClr_law)) h

theorem RoundTrip.trap (n : BitVec 16) : RoundTrip.Statement (.trap n) :=
  fun h => roundTrip_of rfl (by decide) (lt40 rfl) rfl
    ((@id (∀ x, decodeOp (streamOf (.trap n)) 0x4D x 0 = ccSys false false false 16 (fun _ _ _ n => .trap (BitVec.ofNat 16 n)) x) (fun _ => rfl) _).trans
      ((by simpa only [ofNat_self] using ccSys_law false false false 16 (fun _ _ _ n => .trap (BitVec.ofNat 16 n)) 0 0 0 n.toNat (by decide) n.isLt (fun _ => rfl) (fun _ => rfl) (fun _ => rfl)))) h

theorem RoundTrip.halt : RoundTrip.Statement (.halt) :=
  fun h => roundTrip_of rfl (by decide) (lt40 rfl) rfl
    ((@id (∀ x, decodeOp (streamOf (.halt)) 0x4E x 0 = ccSys false false false 0 (fun _ _ _ _ => .halt) x) (fun _ => rfl) _).trans
      ((by simpa only [ofNat_self] using ccSys_law false false false 0 (fun _ _ _ _ => .halt) 0 0 0 0 (by decide) (by decide) (fun _ => rfl) (fun _ => rfl) (fun _ => rfl)))) h

theorem RoundTrip.rload (ra : SReg) (n : BitVec 6) : RoundTrip.Statement (.rload ra n) :=
  fun h => roundTrip_of rfl (by decide) (lt40 rfl) rfl
    ((@id (∀ x, decodeOp (streamOf (.rload ra n)) 0x50 x 0 = ccSys false true false 6 (fun _ a _ n => .rload a (BitVec.ofNat 6 n)) x) (fun _ => rfl) _).trans
      ((by simpa only [ofNat_self] using ccSys_law false true false 6 (fun _ a _ n => .rload a (BitVec.ofNat 6 n)) 0 ra 0 n.toNat (by decide) n.isLt (fun _ => rfl) used (fun _ => rfl)))) h

theorem RoundTrip.rsplit (ra rb : SReg) (n : BitVec 6) : RoundTrip.Statement (.rsplit ra rb n) :=
  fun h => roundTrip_of rfl (by decide) (lt40 rfl) rfl
    ((@id (∀ x, decodeOp (streamOf (.rsplit ra rb n)) 0x51 x 0 = ccSys false true true 6 (fun _ a b n => .rsplit a b (BitVec.ofNat 6 n)) x) (fun _ => rfl) _).trans
      ((by simpa only [ofNat_self] using ccSys_law false true true 6 (fun _ a b n => .rsplit a b (BitVec.ofNat 6 n)) 0 ra rb n.toNat (by decide) n.isLt (fun _ => rfl) used used))) h

theorem RoundTrip.rmerge (ra : SReg) (n : BitVec 6) : RoundTrip.Statement (.rmerge ra n) :=
  fun h => roundTrip_of rfl (by decide) (lt40 rfl) rfl
    ((@id (∀ x, decodeOp (streamOf (.rmerge ra n)) 0x52 x 0 = ccSys false true false 6 (fun _ a _ n => .rmerge a (BitVec.ofNat 6 n)) x) (fun _ => rfl) _).trans
      ((by simpa only [ofNat_self] using ccSys_law false true false 6 (fun _ a _ n => .rmerge a (BitVec.ofNat 6 n)) 0 ra 0 n.toNat (by decide) n.isLt (fun _ => rfl) used (fun _ => rfl)))) h

theorem RoundTrip.rinv (ra : SReg) : RoundTrip.Statement (.rinv ra) :=
  fun h => roundTrip_of rfl (by decide) (lt40 rfl) rfl
    ((@id (∀ x, decodeOp (streamOf (.rinv ra)) 0x53 x 0 = ccSys false true false 0 (fun _ a _ _ => .rinv a) x) (fun _ => rfl) _).trans
      ((by simpa only [ofNat_self] using ccSys_law false true false 0 (fun _ a _ _ => .rinv a) 0 ra 0 0 (by decide) (by decide) (fun _ => rfl) used (fun _ => rfl)))) h

theorem RoundTrip.yload (ra : SReg) (sy : BitVec 4) : RoundTrip.Statement (.yload ra sy) :=
  fun h => roundTrip_of rfl (by decide) (lt40 rfl) rfl
    ((@id (∀ x, decodeOp (streamOf (.yload ra sy)) 0x54 x 0 = ccSys false true false 4 (fun _ a _ n => .yload a (BitVec.ofNat 4 n)) x) (fun _ => rfl) _).trans
      ((by simpa only [ofNat_self] using ccSys_law false true false 4 (fun _ a _ n => .yload a (BitVec.ofNat 4 n)) 0 ra 0 sy.toNat (by decide) sy.isLt (fun _ => rfl) used (fun _ => rfl)))) h

theorem RoundTrip.eret : RoundTrip.Statement (.eret) :=
  fun h => roundTrip_of rfl (by decide) (lt40 rfl) rfl
    ((@id (∀ x, decodeOp (streamOf (.eret)) 0x55 x 0 = ccSys false false false 0 (fun _ _ _ _ => .eret) x) (fun _ => rfl) _).trans
      ((by simpa only [ofNat_self] using ccSys_law false false false 0 (fun _ _ _ _ => .eret) 0 0 0 0 (by decide) (by decide) (fun _ => rfl) (fun _ => rfl) (fun _ => rfl)))) h

theorem RoundTrip.hvcall (n : BitVec 16) : RoundTrip.Statement (.hvcall n) :=
  fun h => roundTrip_of rfl (by decide) (lt40 rfl) rfl
    ((@id (∀ x, decodeOp (streamOf (.hvcall n)) 0x56 x 0 = ccSys false false false 16 (fun _ _ _ n => .hvcall (BitVec.ofNat 16 n)) x) (fun _ => rfl) _).trans
      ((by simpa only [ofNat_self] using ccSys_law false false false 16 (fun _ _ _ n => .hvcall (BitVec.ofNat 16 n)) 0 0 0 n.toNat (by decide) n.isLt (fun _ => rfl) (fun _ => rfl) (fun _ => rfl)))) h

theorem RoundTrip.rres (ra rb : SReg) (asid : BitVec 12) : RoundTrip.Statement (.rres ra rb asid) :=
  fun h => roundTrip_of rfl (by decide) (lt40 rfl) rfl
    ((@id (∀ x, decodeOp (streamOf (.rres ra rb asid)) 0x57 x 0 = decodeRres x) (fun _ => rfl) _).trans (rres_law ra rb asid)) h

theorem RoundTrip.rresClear (ra rb : SReg) (asid : BitVec 12) : RoundTrip.Statement (.rresClear ra rb asid) :=
  fun h => roundTrip_of rfl (by decide) (lt40 rfl) rfl
    ((@id (∀ x, decodeOp (streamOf (.rresClear ra rb asid)) 0x57 x 0 = decodeRres x) (fun _ => rfl) _).trans
      (rresClear_law ra rb asid)) h

theorem RoundTrip.rret (ra rb : SReg) (asid : BitVec 12) : RoundTrip.Statement (.rret ra rb asid) :=
  fun h => roundTrip_of rfl (by decide) (lt40 rfl) rfl
    ((@id (∀ x, decodeOp (streamOf (.rret ra rb asid)) 0x58 x 0 = ccSys false true true 12 (fun _ a b n => .rret a b (BitVec.ofNat 12 n)) x) (fun _ => rfl) _).trans
      ((by simpa only [ofNat_self] using ccSys_law false true true 12 (fun _ a b n => .rret a b (BitVec.ofNat 12 n)) 0 ra rb asid.toNat (by decide) asid.isLt (fun _ => rfl) used used))) h

theorem RoundTrip.nop : RoundTrip.Statement (.nop) :=
  fun h => roundTrip_of rfl (by decide) (by decide) rfl (rfl) h

theorem RoundTrip.loop (num stg : BitVec 3) (body : BitVec 14) (count mx : BitVec 32) : RoundTrip.Statement (.loop num stg body count mx) :=
  fun h => roundTrip_ext rfl (by decide) (lt40 rfl) rfl (joinF_lt lLoopExt _) ((@id (∀ x v, decodeOp (streamOf (.loop num stg body count mx)) 0xF1 x v = decodeCc 0xF1 x v) (fun _ _ => rfl) _ _).trans
      (loop_law num stg body count mx)) h

theorem RoundTrip.lend (num : BitVec 3) : RoundTrip.Statement (.lend num) :=
  fun h => roundTrip_of rfl (by decide) (lt40 rfl) rfl
    ((@id (∀ x, decodeOp (streamOf (.lend num)) 0xF2 x 0 = decodeCc 0xF2 x 0) (fun _ => rfl) _).trans (lend_law num)) h

theorem RoundTrip.join (d : BitVec 32) : RoundTrip.Statement (.join d) :=
  fun h => roundTrip_of rfl (by decide) (lt40 rfl) rfl
    ((@id (∀ x, decodeOp (streamOf (.join d)) 0xF3 x 0 = decodeCc 0xF3 x 0) (fun _ => rfl) _).trans (join_law d)) h

theorem RoundTrip.endStream : RoundTrip.Statement (.endStream) :=
  fun h => roundTrip_of rfl (by decide) (by decide) rfl (rfl) h

theorem RoundTrip.mark (stage : BitVec 3) : RoundTrip.Statement (.mark stage) :=
  fun h => roundTrip_of rfl (by decide) (lt40 rfl) rfl
    ((@id (∀ x, decodeOp (streamOf (.mark stage)) 0xF5 x 0 = decodeCc 0xF5 x 0) (fun _ => rfl) _).trans (mark_law stage)) h

theorem RoundTrip.unassignedOpcode (op : BitVec 8) : RoundTrip.Statement (.unassignedOpcode op) :=
  fun h => absurd h (by simp [Instr.wf])

theorem RoundTrip.cpld (o : MoveOps) : RoundTrip.Statement (.cpld o) :=
  fun h => roundTrip_of rfl (by decide) (lt40 rfl) rfl (by
    have hl := move_low o 0
    have hd := o.dim.isLt
    have hb := boolCode_lt2 o.lc.isSome
    refine (@id (∀ x, decodeOp (streamOf (.cpld o)) 0x00 x 0 = decodeCpld x) (fun _ => rfl) _).trans ?_
    unfold decodeCpld
    rw [if_pos (by omega)]
    exact cpMove_law .cpld MoveOps.wf o 0 (by decide) (by simpa [Instr.wf] using h)) h

theorem RoundTrip.cpldCb (o : MoveOps) : RoundTrip.Statement (.cpldCb o) :=
  fun h => roundTrip_of rfl (by decide) (lt40 rfl) rfl (by
    have hl := move_low o 1
    have hd := o.dim.isLt
    have hb := boolCode_lt2 o.lc.isSome
    refine (@id (∀ x, decodeOp (streamOf (.cpldCb o)) 0x00 x 0 = decodeCpld x) (fun _ => rfl) _).trans ?_
    unfold decodeCpld
    rw [if_neg (by omega)]
    exact cpMove_law .cpldCb MoveOps.wfCast o 1 (by decide) (by simpa [Instr.wf] using h)) h

theorem RoundTrip.cpst (o : MoveOps) : RoundTrip.Statement (.cpst o) :=
  fun h => roundTrip_of rfl (by decide) (lt40 rfl) rfl
    ((@id (∀ x, decodeOp (streamOf (.cpst o)) 0x01 x 0 = cpMove .cpst MoveOps.wf 0 x) (fun _ => rfl) _).trans
      (cpMove_law .cpst MoveOps.wf o 0 (by decide) (by simpa [Instr.wf, fiRm, fsRm, fRm, noRm, anyTy, cmpOk, immRm, immNo, immCmp] using h))) h

theorem RoundTrip.cpmov (o : MoveOps) : RoundTrip.Statement (.cpmov o) :=
  fun h => roundTrip_of rfl (by decide) (lt40 rfl) rfl
    ((@id (∀ x, decodeOp (streamOf (.cpmov o)) 0x02 x 0 = cpMove .cpmov MoveOps.wf 0 x) (fun _ => rfl) _).trans
      (cpMove_law .cpmov MoveOps.wf o 0 (by decide) (by simpa [Instr.wf, fiRm, fsRm, fRm, noRm, anyTy, cmpOk, immRm, immNo, immCmp] using h))) h

theorem RoundTrip.cpset (o : MoveOps) (mem : Bool) : RoundTrip.Statement (.cpset o mem) :=
  fun h => roundTrip_of rfl (by decide) (lt40 rfl) rfl (by
    have hl := move_low o (if mem then 2 else 0)
    have hd := o.dim.isLt
    have hb := boolCode_lt2 o.lc.isSome
    have hw : MoveOps.wf o = true := by simpa [Instr.wf] using h
    refine (@id (∀ x, decodeOp (streamOf (.cpset o mem)) 0x03 x 0 = decodeCpset x) (fun _ => rfl) _).trans ?_
    unfold decodeCpset
    cases mem with
    | false =>
      simp only [Bool.false_eq_true, if_false] at hl
      rw [if_pos (by simp only [Bool.false_eq_true, if_false]; omega)]
      exact cpMove_law (fun o => .cpset o false) MoveOps.wf o 0 (by decide) hw
    | true =>
      simp only [if_true] at hl
      rw [if_neg (by simp only [if_true]; omega)]
      exact cpMove_law (fun o => .cpset o true) MoveOps.wf o 2 (by decide) hw) h

theorem RoundTrip.cpgth (o : IndexOps) : RoundTrip.Statement (.cpgth o) :=
  fun h => roundTrip_of rfl (by decide) (lt40 rfl) rfl
    ((@id (∀ x, decodeOp (streamOf (.cpgth o)) 0x04 x 0 = cpIndex (fun o _ => .cpgth o) (fun o d => o.wf && (o.sy.isNone || o.sa == 0) && !d) x) (fun _ => rfl) _).trans
      (cpIndex_law (fun o _ => .cpgth o) (fun o d => o.wf && (o.sy.isNone || o.sa == 0) && !d) o false (by simpa [Instr.wf, fiRm, fsRm, fRm, noRm, anyTy, cmpOk, immRm, immNo, immCmp] using h))) h

theorem RoundTrip.cpsct (o : IndexOps) (comb : Bool) : RoundTrip.Statement (.cpsct o comb) :=
  fun h => roundTrip_of rfl (by decide) (lt40 rfl) rfl
    ((@id (∀ x, decodeOp (streamOf (.cpsct o comb)) 0x05 x 0 = cpIndex .cpsct (fun o c => o.wf && (o.sy.isNone || o.sb == 0) && !(o.sy.isNone && c && o.ty == .nf)) x) (fun _ => rfl) _).trans
      (cpIndex_law .cpsct (fun o c => o.wf && (o.sy.isNone || o.sb == 0) && !(o.sy.isNone && c && o.ty == .nf)) o comb h)) h

theorem RoundTrip.cpdec (sa sb sc : SReg) (run : Run) : RoundTrip.Statement (.cpdec sa sb sc run) :=
  fun h => roundTrip_of rfl (by decide) (lt40 rfl) rfl
    ((@id (∀ x, decodeOp (streamOf (.cpdec sa sb sc run)) 0x06 x 0 = decodeCpdec x) (fun _ => rfl) _).trans
      (cpdec_law sa sb sc run (by simpa [Instr.wf, fiRm, fsRm, fRm, noRm, anyTy, cmpOk, immRm, immNo, immCmp] using h))) h

theorem RoundTrip.cpfill (sa sb : SReg) (slot : BitVec 5) (run : Run) (ty : Ty) (mem : Bool) : RoundTrip.Statement (.cpfill sa sb slot run ty mem) :=
  fun h => roundTrip_of rfl (by decide) (lt40 rfl) rfl
    ((@id (∀ x, decodeOp (streamOf (.cpfill sa sb slot run ty mem)) 0x10 x 0 = decodeCpfill x) (fun _ => rfl) _).trans
      ((by simp only [Instr.wf, Bool.and_eq_true] at h; exact cpfill_law sa sb slot run ty mem h.1 (fun e => by have := h.2; simp_all)))) h

theorem RoundTrip.cppat (sa sb : SReg) (pm : BitVec 3) (run : Run) (mem : Bool) : RoundTrip.Statement (.cppat sa sb pm run mem) :=
  fun h => roundTrip_of rfl (by decide) (lt40 rfl) rfl
    ((@id (∀ x, decodeOp (streamOf (.cppat sa sb pm run mem)) 0x11 x 0 = decodeCppat x) (fun _ => rfl) _).trans
      (cppat_law sa sb pm run mem (fun e => by simpa [Instr.wf, e] using h))) h

theorem RoundTrip.cpcbk (sa sb : SReg) (k : BitVec 2) (run : Run) (mem : Bool) : RoundTrip.Statement (.cpcbk sa sb k run mem) :=
  fun h => roundTrip_of rfl (by decide) (lt40 rfl) rfl
    ((@id (∀ x, decodeOp (streamOf (.cpcbk sa sb k run mem)) 0x12 x 0 = decodeCpcbk x) (fun _ => rfl) _).trans
      (cpcbk_law sa sb k run mem (fun e => by simpa [Instr.wf, e] using h))) h

theorem RoundTrip.cpvq (sa sb : SReg) (slot : BitVec 5) (run : Run) (ty : Ty) (rows : BitVec 6) (sp : Bool) (k : BitVec 2) : RoundTrip.Statement (.cpvq sa sb slot run ty rows sp k) :=
  fun h => roundTrip_of rfl (by decide) (lt40 rfl) rfl
    ((@id (∀ x, decodeOp (streamOf (.cpvq sa sb slot run ty rows sp k)) 0x13 x 0 = decodeCpvq x) (fun _ => rfl) _).trans
      ((by simp only [Instr.wf, Bool.and_eq_true] at h; exact cpvq_law sa sb slot run ty rows sp k h.1 h.2))) h

theorem RoundTrip.cpexp (sa sb : SReg) (slot : BitVec 5) (sy : BitVec 4) (run : Run) (ty : Ty) (rdim cdim : BitVec 3) (sp : Bool) : RoundTrip.Statement (.cpexp sa sb slot sy run ty rdim cdim sp) :=
  fun h => roundTrip_of rfl (by decide) (lt40 rfl) rfl
    ((@id (∀ x, decodeOp (streamOf (.cpexp sa sb slot sy run ty rdim cdim sp)) 0x14 x 0 = decodeCpexp x) (fun _ => rfl) _).trans
      ((by simp only [Instr.wf, Bool.and_eq_true] at h; exact cpexp_law sa sb slot sy run ty rdim cdim sp h.1 h.2))) h

theorem RoundTrip.cpfld (sa sb : SReg) (tile sy : BitVec 4) (run : Run) (ty : Ty) (rdim cdim : BitVec 3) : RoundTrip.Statement (.cpfld sa sb tile sy run ty rdim cdim) :=
  fun h => roundTrip_of rfl (by decide) (lt40 rfl) rfl
    ((@id (∀ x, decodeOp (streamOf (.cpfld sa sb tile sy run ty rdim cdim)) 0x15 x 0 = decodeCpfld x) (fun _ => rfl) _).trans
      (cpfld_law sa sb tile sy run ty rdim cdim (by simpa [Instr.wf, fiRm, fsRm, fRm, noRm, anyTy, cmpOk, immRm, immNo, immCmp] using h))) h

theorem RoundTrip.cpcini (sb sc : SReg) : RoundTrip.Statement (.cpcini sb sc) :=
  fun h => roundTrip_of rfl (by decide) (lt40 rfl) rfl
    ((@id (∀ x, decodeOp (streamOf (.cpcini sb sc)) 0x20 x 0 = cpEx false true false false 0 noTy (fun _ b c _ _ _ _ => .cpcini b c) x) (fun _ => rfl) _).trans
      (cpEx_law false true false false 0 noTy (fun _ b c _ _ _ _ => .cpcini b c) 0 sb sc 0 0 .f64 0 (by decide) (by decide) (by decide) (by decide) (fun _ => rfl) used (fun _ => ⟨rfl, rfl⟩) (fun _ => rfl) (fun _ => rfl))) h

theorem RoundTrip.cpatom (sa sb sc : SReg) (ty : Ty) (run : Run) (per : Bool) : RoundTrip.Statement (.cpatom sa sb sc ty run per) :=
  fun h => roundTrip_of rfl (by decide) (lt40 rfl) rfl (by
    have hr := run.isLt
    have hb := boolCode_lt2 per
    have e := cpEx_law true true false true 4 Ty.inCell (fun a b c _ _ t m => .cpatom a b c t (BitVec.ofNat 3 m) (m / 8 == 1)) sa sb sc 0 0 ty (8 * boolCode per + run.toNat) (by decide) (by decide)
      (by decide) (by omega) used used (fun _ => ⟨rfl, rfl⟩) used (fun _ => by simpa [Instr.wf] using h)
    have h1 : BitVec.ofNat 3 (8 * boolCode per + run.toNat) = run := by
      apply BitVec.eq_of_toNat_eq
      simp only [BitVec.toNat_ofNat]
      omega
    have h2 : ((8 * boolCode per + run.toNat) / 8 == 1) = per := by
      rw [show (8 * boolCode per + run.toNat) / 8 = boolCode per by omega]
      exact boolCode_beq per
    simp only [h1, h2] at e
    exact (@id (∀ x, decodeOp (streamOf (.cpatom sa sb sc ty run per)) 0x21 x 0 = cpEx true true false true 4 Ty.inCell (fun a b c _ _ t m => .cpatom a b c t (BitVec.ofNat 3 m) (m / 8 == 1)) x) (fun _ => rfl) _).trans e) h

theorem RoundTrip.cpcrd (sa sb : SReg) (ty : Ty) (run : Run) (raw : Bool) : RoundTrip.Statement (.cpcrd sa sb ty run raw) :=
  fun h => roundTrip_of rfl (by decide) (lt40 rfl) rfl (by
    have hr := run.isLt
    have hb := boolCode_lt2 raw
    have e := cpEx_law true false false true 4 Ty.inCell (fun a b _ _ _ t m => .cpcrd a b t (BitVec.ofNat 3 m) (m / 8 == 1)) sa sb 0 0 0 ty (8 * boolCode raw + run.toNat) (by decide) (by decide)
      (by decide) (by omega) used (fun _ => rfl) (fun _ => ⟨rfl, rfl⟩) used (fun _ => by simpa [Instr.wf] using h)
    have h1 : BitVec.ofNat 3 (8 * boolCode raw + run.toNat) = run := by
      apply BitVec.eq_of_toNat_eq
      simp only [BitVec.toNat_ofNat]
      omega
    have h2 : ((8 * boolCode raw + run.toNat) / 8 == 1) = raw := by
      rw [show (8 * boolCode raw + run.toNat) / 8 = boolCode raw by omega]
      exact boolCode_beq raw
    simp only [h1, h2] at e
    exact (@id (∀ x, decodeOp (streamOf (.cpcrd sa sb ty run raw)) 0x22 x 0 = cpEx true false false true 4 Ty.inCell (fun a b _ _ _ t m => .cpcrd a b t (BitVec.ofNat 3 m) (m / 8 == 1)) x) (fun _ => rfl) _).trans e) h

theorem RoundTrip.cpput (sa sb sc : SReg) (lc : BitVec 6) (win : BitVec 8) (run : Run) : RoundTrip.Statement (.cpput sa sb sc lc win run) :=
  fun h => roundTrip_of rfl (by decide) (lt40 rfl) rfl
    ((@id (∀ x, decodeOp (streamOf (.cpput sa sb sc lc win run)) 0x23 x 0 = cpEx true true true false 3 noTy (fun a b c l w _ m => .cpput a b c (BitVec.ofNat 6 l) (BitVec.ofNat 8 w) (BitVec.ofNat 3 m)) x) (fun _ => rfl) _).trans
      ((by simpa only [ofNat_self, Ty.code] using cpEx_law true true true false 3 noTy (fun a b c l w _ m => .cpput a b c (BitVec.ofNat 6 l) (BitVec.ofNat 8 w) (BitVec.ofNat 3 m)) sa sb sc lc.toNat win.toNat .f64 run.toNat lc.isLt win.isLt (by decide) run.isLt used used used (fun _ => rfl) (fun _ => rfl)))) h

theorem RoundTrip.cpget (sa sb sc : SReg) (lc : BitVec 6) (win : BitVec 8) : RoundTrip.Statement (.cpget sa sb sc lc win) :=
  fun h => roundTrip_of rfl (by decide) (lt40 rfl) rfl
    ((@id (∀ x, decodeOp (streamOf (.cpget sa sb sc lc win)) 0x24 x 0 = cpEx true true true false 0 noTy (fun a b c l w _ _ => .cpget a b c (BitVec.ofNat 6 l) (BitVec.ofNat 8 w)) x) (fun _ => rfl) _).trans
      ((by simpa only [ofNat_self, Ty.code] using cpEx_law true true true false 0 noTy (fun a b c l w _ _ => .cpget a b c (BitVec.ofNat 6 l) (BitVec.ofNat 8 w)) sa sb sc lc.toNat win.toNat .f64 0 lc.isLt win.isLt (by decide) (by decide) used used used (fun _ => rfl) (fun _ => rfl)))) h

theorem RoundTrip.cpxsnd (sa sb sc : SReg) (run : Run) : RoundTrip.Statement (.cpxsnd sa sb sc run) :=
  fun h => roundTrip_of rfl (by decide) (lt40 rfl) rfl
    ((@id (∀ x, decodeOp (streamOf (.cpxsnd sa sb sc run)) 0x25 x 0 = cpEx true true false false 3 noTy (fun a b c _ _ _ m => .cpxsnd a b c (BitVec.ofNat 3 m)) x) (fun _ => rfl) _).trans
      ((by simpa only [ofNat_self, Ty.code] using cpEx_law true true false false 3 noTy (fun a b c _ _ _ m => .cpxsnd a b c (BitVec.ofNat 3 m)) sa sb sc 0 0 .f64 run.toNat (by decide) (by decide) (by decide) run.isLt used used (fun _ => ⟨rfl, rfl⟩) (fun _ => rfl) (fun _ => rfl)))) h

theorem RoundTrip.cpxrcv (sa sb sc : SReg) : RoundTrip.Statement (.cpxrcv sa sb sc) :=
  fun h => roundTrip_of rfl (by decide) (lt40 rfl) rfl
    ((@id (∀ x, decodeOp (streamOf (.cpxrcv sa sb sc)) 0x26 x 0 = cpEx true true false false 0 noTy (fun a b c _ _ _ _ => .cpxrcv a b c) x) (fun _ => rfl) _).trans
      (cpEx_law true true false false 0 noTy (fun a b c _ _ _ _ => .cpxrcv a b c) sa sb sc 0 0 .f64 0 (by decide) (by decide) (by decide) (by decide) used used (fun _ => ⟨rfl, rfl⟩) (fun _ => rfl) (fun _ => rfl))) h

theorem RoundTrip.cpxred (sa sb sc : SReg) (ty : Ty) (snd : BitVec 4) : RoundTrip.Statement (.cpxred sa sb sc ty snd) :=
  fun h => roundTrip_of rfl (by decide) (lt40 rfl) rfl
    ((@id (∀ x, decodeOp (streamOf (.cpxred sa sb sc ty snd)) 0x27 x 0 = cpEx true true false true 4 Ty.inRed (fun a b c _ _ t m => .cpxred a b c t (BitVec.ofNat 4 m)) x) (fun _ => rfl) _).trans
      ((by simpa only [ofNat_self] using cpEx_law true true false true 4 Ty.inRed (fun a b c _ _ t m => .cpxred a b c t (BitVec.ofNat 4 m)) sa sb sc 0 0 ty snd.toNat (by decide) (by decide) (by decide) snd.isLt used used (fun _ => ⟨rfl, rfl⟩) used (fun _ => (by simpa [Instr.wf, fiRm, fsRm, fRm, noRm, anyTy, cmpOk, immRm, immNo, immCmp] using h))))) h

theorem RoundTrip.vadd (o : VOps) (rm : Rm) : RoundTrip.Statement (.vadd o rm) :=
  fun h => roundTrip_of rfl (by decide) (lt40 rfl) rfl
    ((@id (∀ x, decodeOp (streamOf (.vadd o rm)) 0x00 x 0 = veTwo .vadd fiRm x) (fun _ => rfl) _).trans
      (veTwo_law .vadd fiRm o rm (by simpa [Instr.wf, fiRm, fsRm, fRm, noRm, anyTy, cmpOk, immRm, immNo, immCmp] using h))) h

theorem RoundTrip.vsub (o : VOps) (rm : Rm) : RoundTrip.Statement (.vsub o rm) :=
  fun h => roundTrip_of rfl (by decide) (lt40 rfl) rfl
    ((@id (∀ x, decodeOp (streamOf (.vsub o rm)) 0x01 x 0 = veTwo .vsub fiRm x) (fun _ => rfl) _).trans
      (veTwo_law .vsub fiRm o rm (by simpa [Instr.wf, fiRm, fsRm, fRm, noRm, anyTy, cmpOk, immRm, immNo, immCmp] using h))) h

theorem RoundTrip.vmul (o : VOps) (rm : Rm) : RoundTrip.Statement (.vmul o rm) :=
  fun h => roundTrip_of rfl (by decide) (lt40 rfl) rfl
    ((@id (∀ x, decodeOp (streamOf (.vmul o rm)) 0x02 x 0 = veTwo .vmul fiRm x) (fun _ => rfl) _).trans
      (veTwo_law .vmul fiRm o rm (by simpa [Instr.wf, fiRm, fsRm, fRm, noRm, anyTy, cmpOk, immRm, immNo, immCmp] using h))) h

theorem RoundTrip.vfma (o : VOps) (rm : Rm) : RoundTrip.Statement (.vfma o rm) :=
  fun h => roundTrip_of rfl (by decide) (lt40 rfl) rfl
    ((@id (∀ x, decodeOp (streamOf (.vfma o rm)) 0x03 x 0 = veTwo .vfma fiRm x) (fun _ => rfl) _).trans
      (veTwo_law .vfma fiRm o rm (by simpa [Instr.wf, fiRm, fsRm, fRm, noRm, anyTy, cmpOk, immRm, immNo, immCmp] using h))) h

theorem RoundTrip.vfms (o : VOps) (rm : Rm) : RoundTrip.Statement (.vfms o rm) :=
  fun h => roundTrip_of rfl (by decide) (lt40 rfl) rfl
    ((@id (∀ x, decodeOp (streamOf (.vfms o rm)) 0x04 x 0 = veTwo .vfms fiRm x) (fun _ => rfl) _).trans
      (veTwo_law .vfms fiRm o rm (by simpa [Instr.wf, fiRm, fsRm, fRm, noRm, anyTy, cmpOk, immRm, immNo, immCmp] using h))) h

theorem RoundTrip.vneg (o : VOps1) (rm : Rm) : RoundTrip.Statement (.vneg o rm) :=
  fun h => roundTrip_of rfl (by decide) (lt40 rfl) rfl
    ((@id (∀ x, decodeOp (streamOf (.vneg o rm)) 0x05 x 0 = veOne .vneg fsRm x) (fun _ => rfl) _).trans
      (veOne_law .vneg fsRm o rm (by simpa [Instr.wf, fiRm, fsRm, fRm, noRm, anyTy, cmpOk, immRm, immNo, immCmp] using h))) h

theorem RoundTrip.vabs (o : VOps1) (rm : Rm) : RoundTrip.Statement (.vabs o rm) :=
  fun h => roundTrip_of rfl (by decide) (lt40 rfl) rfl
    ((@id (∀ x, decodeOp (streamOf (.vabs o rm)) 0x06 x 0 = veOne .vabs fsRm x) (fun _ => rfl) _).trans
      (veOne_law .vabs fsRm o rm (by simpa [Instr.wf, fiRm, fsRm, fRm, noRm, anyTy, cmpOk, immRm, immNo, immCmp] using h))) h

theorem RoundTrip.vmin (o : VOps) (rm : Rm) : RoundTrip.Statement (.vmin o rm) :=
  fun h => roundTrip_of rfl (by decide) (lt40 rfl) rfl
    ((@id (∀ x, decodeOp (streamOf (.vmin o rm)) 0x07 x 0 = veTwo .vmin fiRm x) (fun _ => rfl) _).trans
      (veTwo_law .vmin fiRm o rm (by simpa [Instr.wf, fiRm, fsRm, fRm, noRm, anyTy, cmpOk, immRm, immNo, immCmp] using h))) h

theorem RoundTrip.vmax (o : VOps) (rm : Rm) : RoundTrip.Statement (.vmax o rm) :=
  fun h => roundTrip_of rfl (by decide) (lt40 rfl) rfl
    ((@id (∀ x, decodeOp (streamOf (.vmax o rm)) 0x08 x 0 = veTwo .vmax fiRm x) (fun _ => rfl) _).trans
      (veTwo_law .vmax fiRm o rm (by simpa [Instr.wf, fiRm, fsRm, fRm, noRm, anyTy, cmpOk, immRm, immNo, immCmp] using h))) h

theorem RoundTrip.vdiv (o : VOps) (rm : Rm) : RoundTrip.Statement (.vdiv o rm) :=
  fun h => roundTrip_of rfl (by decide) (lt40 rfl) rfl
    ((@id (∀ x, decodeOp (streamOf (.vdiv o rm)) 0x09 x 0 = veTwo .vdiv fRm x) (fun _ => rfl) _).trans
      (veTwo_law .vdiv fRm o rm (by simpa [Instr.wf, fiRm, fsRm, fRm, noRm, anyTy, cmpOk, immRm, immNo, immCmp] using h))) h

theorem RoundTrip.vsqrt (o : VOps1) (rm : Rm) : RoundTrip.Statement (.vsqrt o rm) :=
  fun h => roundTrip_of rfl (by decide) (lt40 rfl) rfl
    ((@id (∀ x, decodeOp (streamOf (.vsqrt o rm)) 0x0A x 0 = veOne .vsqrt fRm x) (fun _ => rfl) _).trans
      (veOne_law .vsqrt fRm o rm (by simpa [Instr.wf, fiRm, fsRm, fRm, noRm, anyTy, cmpOk, immRm, immNo, immCmp] using h))) h

theorem RoundTrip.vrcp (o : VOps1) (rm : Rm) : RoundTrip.Statement (.vrcp o rm) :=
  fun h => roundTrip_of rfl (by decide) (lt40 rfl) rfl
    ((@id (∀ x, decodeOp (streamOf (.vrcp o rm)) 0x0B x 0 = veOne .vrcp fRm x) (fun _ => rfl) _).trans
      (veOne_law .vrcp fRm o rm (by simpa [Instr.wf, fiRm, fsRm, fRm, noRm, anyTy, cmpOk, immRm, immNo, immCmp] using h))) h

theorem RoundTrip.vrsq (o : VOps1) (rm : Rm) : RoundTrip.Statement (.vrsq o rm) :=
  fun h => roundTrip_of rfl (by decide) (lt40 rfl) rfl
    ((@id (∀ x, decodeOp (streamOf (.vrsq o rm)) 0x0C x 0 = veOne .vrsq fRm x) (fun _ => rfl) _).trans
      (veOne_law .vrsq fRm o rm (by simpa [Instr.wf, fiRm, fsRm, fRm, noRm, anyTy, cmpOk, immRm, immNo, immCmp] using h))) h

theorem RoundTrip.vcvt (o : VOps1) (src : Ty) (part : BitVec 3) (rm : Rm) : RoundTrip.Statement (.vcvt o src part rm) :=
  fun h => roundTrip_of rfl (by decide) (lt40 rfl) rfl
    ((@id (∀ x, decodeOp (streamOf (.vcvt o src part rm)) 0x0D x 0 = decodeVcvt x) (fun _ => rfl) _).trans
      ((by simp only [Instr.wf, Bool.and_eq_true] at h; exact vcvt_law o src part rm h.1.1 h.1.2 h.2))) h

theorem RoundTrip.vcmp (md : BitVec 4) (va vb : VReg) (prd : Prd) (z : Bool) (ty : Ty) (cc : Cond) : RoundTrip.Statement (.vcmp md va vb prd z ty cc) :=
  fun h => roundTrip_of rfl (by decide) (lt40 rfl) rfl
    ((@id (∀ x, decodeOp (streamOf (.vcmp md va vb prd z ty cc)) 0x0E x 0 = decodeVcmp x) (fun _ => rfl) _).trans
      (vcmp_law md va vb prd z ty cc (by simpa [Instr.wf, fiRm, fsRm, fRm, noRm, anyTy, cmpOk, immRm, immNo, immCmp] using h))) h

theorem RoundTrip.vsel (vd va vb : VReg) (m : BitVec 4) (ty : Ty) : RoundTrip.Statement (.vsel vd va vb m ty) :=
  fun h => roundTrip_of rfl (by decide) (lt40 rfl) rfl
    ((@id (∀ x, decodeOp (streamOf (.vsel vd va vb m ty)) 0x0F x 0 = decodeVsel x) (fun _ => rfl) _).trans
      (vsel_law vd va vb m ty (by simpa [Instr.wf, fiRm, fsRm, fRm, noRm, anyTy, cmpOk, immRm, immNo, immCmp] using h))) h

theorem RoundTrip.vexp2 (o : VOps1) : RoundTrip.Statement (.vexp2 o) :=
  fun h => roundTrip_of rfl (by decide) (lt40 rfl) rfl
    ((@id (∀ x, decodeOp (streamOf (.vexp2 o)) 0x10 x 0 = veOne (fun o _ => .vexp2 o) (noRm Ty.inSpecial) x) (fun _ => rfl) _).trans
      (veOne_law (fun o _ => .vexp2 o) (noRm Ty.inSpecial) o .rne (by simpa [Instr.wf, fiRm, fsRm, fRm, noRm, anyTy, cmpOk, immRm, immNo, immCmp] using h))) h

theorem RoundTrip.vlog2 (o : VOps1) : RoundTrip.Statement (.vlog2 o) :=
  fun h => roundTrip_of rfl (by decide) (lt40 rfl) rfl
    ((@id (∀ x, decodeOp (streamOf (.vlog2 o)) 0x11 x 0 = veOne (fun o _ => .vlog2 o) (noRm Ty.inSpecial) x) (fun _ => rfl) _).trans
      (veOne_law (fun o _ => .vlog2 o) (noRm Ty.inSpecial) o .rne (by simpa [Instr.wf, fiRm, fsRm, fRm, noRm, anyTy, cmpOk, immRm, immNo, immCmp] using h))) h

theorem RoundTrip.vexp (o : VOps1) : RoundTrip.Statement (.vexp o) :=
  fun h => roundTrip_of rfl (by decide) (lt40 rfl) rfl
    ((@id (∀ x, decodeOp (streamOf (.vexp o)) 0x12 x 0 = veOne (fun o _ => .vexp o) (noRm Ty.inSpecial) x) (fun _ => rfl) _).trans
      (veOne_law (fun o _ => .vexp o) (noRm Ty.inSpecial) o .rne (by simpa [Instr.wf, fiRm, fsRm, fRm, noRm, anyTy, cmpOk, immRm, immNo, immCmp] using h))) h

theorem RoundTrip.vlog (o : VOps1) : RoundTrip.Statement (.vlog o) :=
  fun h => roundTrip_of rfl (by decide) (lt40 rfl) rfl
    ((@id (∀ x, decodeOp (streamOf (.vlog o)) 0x13 x 0 = veOne (fun o _ => .vlog o) (noRm Ty.inSpecial) x) (fun _ => rfl) _).trans
      (veOne_law (fun o _ => .vlog o) (noRm Ty.inSpecial) o .rne (by simpa [Instr.wf, fiRm, fsRm, fRm, noRm, anyTy, cmpOk, immRm, immNo, immCmp] using h))) h

theorem RoundTrip.vsinpi (o : VOps1) : RoundTrip.Statement (.vsinpi o) :=
  fun h => roundTrip_of rfl (by decide) (lt40 rfl) rfl
    ((@id (∀ x, decodeOp (streamOf (.vsinpi o)) 0x14 x 0 = veOne (fun o _ => .vsinpi o) (noRm Ty.inSpecial) x) (fun _ => rfl) _).trans
      (veOne_law (fun o _ => .vsinpi o) (noRm Ty.inSpecial) o .rne (by simpa [Instr.wf, fiRm, fsRm, fRm, noRm, anyTy, cmpOk, immRm, immNo, immCmp] using h))) h

theorem RoundTrip.vcospi (o : VOps1) : RoundTrip.Statement (.vcospi o) :=
  fun h => roundTrip_of rfl (by decide) (lt40 rfl) rfl
    ((@id (∀ x, decodeOp (streamOf (.vcospi o)) 0x15 x 0 = veOne (fun o _ => .vcospi o) (noRm Ty.inSpecial) x) (fun _ => rfl) _).trans
      (veOne_law (fun o _ => .vcospi o) (noRm Ty.inSpecial) o .rne (by simpa [Instr.wf, fiRm, fsRm, fRm, noRm, anyTy, cmpOk, immRm, immNo, immCmp] using h))) h

theorem RoundTrip.vtanh (o : VOps1) : RoundTrip.Statement (.vtanh o) :=
  fun h => roundTrip_of rfl (by decide) (lt40 rfl) rfl
    ((@id (∀ x, decodeOp (streamOf (.vtanh o)) 0x16 x 0 = veOne (fun o _ => .vtanh o) (noRm Ty.inSpecial) x) (fun _ => rfl) _).trans
      (veOne_law (fun o _ => .vtanh o) (noRm Ty.inSpecial) o .rne (by simpa [Instr.wf, fiRm, fsRm, fRm, noRm, anyTy, cmpOk, immRm, immNo, immCmp] using h))) h

theorem RoundTrip.vrand (vd : VReg) (prd : Prd) (z : Bool) (ty : Ty) : RoundTrip.Statement (.vrand vd prd z ty) :=
  fun h => roundTrip_of rfl (by decide) (lt40 rfl) rfl
    ((@id (∀ x, decodeOp (streamOf (.vrand vd prd z ty)) 0x17 x 0 = veGen .vrand Ty.inRand x) (fun _ => rfl) _).trans
      (veGen_law .vrand Ty.inRand vd prd z ty (by simpa [Instr.wf, fiRm, fsRm, fRm, noRm, anyTy, cmpOk, immRm, immNo, immCmp] using h))) h

theorem RoundTrip.vmov (o : VOps1) : RoundTrip.Statement (.vmov o) :=
  fun h => roundTrip_of rfl (by decide) (lt40 rfl) rfl
    ((@id (∀ x, decodeOp (streamOf (.vmov o)) 0x18 x 0 = veOne (fun o _ => .vmov o) (noRm anyTy) x) (fun _ => rfl) _).trans
      (veOne_law (fun o _ => .vmov o) (noRm anyTy) o .rne (by simpa [Instr.wf, fiRm, fsRm, fRm, noRm, anyTy, cmpOk, immRm, immNo, immCmp] using h))) h

theorem RoundTrip.vand (o : VOps) : RoundTrip.Statement (.vand o) :=
  fun h => roundTrip_of rfl (by decide) (lt40 rfl) rfl
    ((@id (∀ x, decodeOp (streamOf (.vand o)) 0x20 x 0 = veTwo (fun o _ => .vand o) (noRm anyTy) x) (fun _ => rfl) _).trans
      (veTwo_law (fun o _ => .vand o) (noRm anyTy) o .rne (by simpa [Instr.wf, fiRm, fsRm, fRm, noRm, anyTy, cmpOk, immRm, immNo, immCmp] using h))) h

theorem RoundTrip.vor (o : VOps) : RoundTrip.Statement (.vor o) :=
  fun h => roundTrip_of rfl (by decide) (lt40 rfl) rfl
    ((@id (∀ x, decodeOp (streamOf (.vor o)) 0x21 x 0 = veTwo (fun o _ => .vor o) (noRm anyTy) x) (fun _ => rfl) _).trans
      (veTwo_law (fun o _ => .vor o) (noRm anyTy) o .rne (by simpa [Instr.wf, fiRm, fsRm, fRm, noRm, anyTy, cmpOk, immRm, immNo, immCmp] using h))) h

theorem RoundTrip.vxor (o : VOps) : RoundTrip.Statement (.vxor o) :=
  fun h => roundTrip_of rfl (by decide) (lt40 rfl) rfl
    ((@id (∀ x, decodeOp (streamOf (.vxor o)) 0x22 x 0 = veTwo (fun o _ => .vxor o) (noRm anyTy) x) (fun _ => rfl) _).trans
      (veTwo_law (fun o _ => .vxor o) (noRm anyTy) o .rne (by simpa [Instr.wf, fiRm, fsRm, fRm, noRm, anyTy, cmpOk, immRm, immNo, immCmp] using h))) h

theorem RoundTrip.vlog3 (o : VOps) (tt : BitVec 8) : RoundTrip.Statement (.vlog3 o tt) :=
  fun h => roundTrip_ext rfl (by decide) (lt40 rfl) rfl (by have := tt.isLt; omega) (by
    have hl : tt.toNat < 256 := tt.isLt
    have := veTwo_law (fun o _ => .vlog3 o (BitVec.ofNat 8 tt.toNat)) (noRm anyTy) o .rne (by simpa [Instr.wf, noRm, anyTy] using h)
    simp only [ofNat_self] at this
    refine (@id (∀ x v, decodeOp (streamOf (.vlog3 o tt)) 0x23 x v = decodeVlog3 x v) (fun _ _ => rfl) _ _).trans ?_
    simp only [decodeVlog3, Nat.not_le.mpr hl, if_false, ofNat_self]
    exact this) h

theorem RoundTrip.vshl (o : VOps) : RoundTrip.Statement (.vshl o) :=
  fun h => roundTrip_of rfl (by decide) (lt40 rfl) rfl
    ((@id (∀ x, decodeOp (streamOf (.vshl o)) 0x24 x 0 = veTwo (fun o _ => .vshl o) (noRm Ty.inI) x) (fun _ => rfl) _).trans
      (veTwo_law (fun o _ => .vshl o) (noRm Ty.inI) o .rne (by simpa [Instr.wf, fiRm, fsRm, fRm, noRm, anyTy, cmpOk, immRm, immNo, immCmp] using h))) h

theorem RoundTrip.vshr (o : VOps) : RoundTrip.Statement (.vshr o) :=
  fun h => roundTrip_of rfl (by decide) (lt40 rfl) rfl
    ((@id (∀ x, decodeOp (streamOf (.vshr o)) 0x25 x 0 = veTwo (fun o _ => .vshr o) (noRm Ty.inI) x) (fun _ => rfl) _).trans
      (veTwo_law (fun o _ => .vshr o) (noRm Ty.inI) o .rne (by simpa [Instr.wf, fiRm, fsRm, fRm, noRm, anyTy, cmpOk, immRm, immNo, immCmp] using h))) h

theorem RoundTrip.vsar (o : VOps) : RoundTrip.Statement (.vsar o) :=
  fun h => roundTrip_of rfl (by decide) (lt40 rfl) rfl
    ((@id (∀ x, decodeOp (streamOf (.vsar o)) 0x26 x 0 = veTwo (fun o _ => .vsar o) (noRm Ty.inI) x) (fun _ => rfl) _).trans
      (veTwo_law (fun o _ => .vsar o) (noRm Ty.inI) o .rne (by simpa [Instr.wf, fiRm, fsRm, fRm, noRm, anyTy, cmpOk, immRm, immNo, immCmp] using h))) h

theorem RoundTrip.vfsh (o : VOps) (sh : BitVec 7) : RoundTrip.Statement (.vfsh o sh) :=
  fun h => roundTrip_ext rfl (by decide) (lt40 rfl) rfl (by have := sh.isLt; omega) (by
    have hl : sh.toNat < 128 := sh.isLt
    have := veTwo_law (fun o _ => .vfsh o (BitVec.ofNat 7 sh.toNat)) (noRm Ty.inI) o .rne (by simpa [Instr.wf, noRm, anyTy] using h)
    simp only [ofNat_self] at this
    refine (@id (∀ x v, decodeOp (streamOf (.vfsh o sh)) 0x27 x v = decodeVfsh x v) (fun _ _ => rfl) _ _).trans ?_
    simp only [decodeVfsh, Nat.not_le.mpr hl, if_false, ofNat_self]
    exact this) h

theorem RoundTrip.vpopc (o : VOps1) : RoundTrip.Statement (.vpopc o) :=
  fun h => roundTrip_of rfl (by decide) (lt40 rfl) rfl
    ((@id (∀ x, decodeOp (streamOf (.vpopc o)) 0x28 x 0 = veOne (fun o _ => .vpopc o) (noRm Ty.inI) x) (fun _ => rfl) _).trans
      (veOne_law (fun o _ => .vpopc o) (noRm Ty.inI) o .rne (by simpa [Instr.wf, fiRm, fsRm, fRm, noRm, anyTy, cmpOk, immRm, immNo, immCmp] using h))) h

theorem RoundTrip.vclz (o : VOps1) : RoundTrip.Statement (.vclz o) :=
  fun h => roundTrip_of rfl (by decide) (lt40 rfl) rfl
    ((@id (∀ x, decodeOp (streamOf (.vclz o)) 0x29 x 0 = veOne (fun o _ => .vclz o) (noRm Ty.inI) x) (fun _ => rfl) _).trans
      (veOne_law (fun o _ => .vclz o) (noRm Ty.inI) o .rne (by simpa [Instr.wf, fiRm, fsRm, fRm, noRm, anyTy, cmpOk, immRm, immNo, immCmp] using h))) h

theorem RoundTrip.vclmulLo (o : VOps) : RoundTrip.Statement (.vclmulLo o) :=
  fun h => roundTrip_of rfl (by decide) (lt40 rfl) rfl
    ((@id (∀ x, decodeOp (streamOf (.vclmulLo o)) 0x2A x 0 = veTwo (fun o _ => .vclmulLo o) (noRm Ty.inI) x) (fun _ => rfl) _).trans
      (veTwo_law (fun o _ => .vclmulLo o) (noRm Ty.inI) o .rne (by simpa [Instr.wf, fiRm, fsRm, fRm, noRm, anyTy, cmpOk, immRm, immNo, immCmp] using h))) h

theorem RoundTrip.vclmulHi (o : VOps) : RoundTrip.Statement (.vclmulHi o) :=
  fun h => roundTrip_of rfl (by decide) (lt40 rfl) rfl
    ((@id (∀ x, decodeOp (streamOf (.vclmulHi o)) 0x2B x 0 = veTwo (fun o _ => .vclmulHi o) (noRm Ty.inI) x) (fun _ => rfl) _).trans
      (veTwo_law (fun o _ => .vclmulHi o) (noRm Ty.inI) o .rne (by simpa [Instr.wf, fiRm, fsRm, fRm, noRm, anyTy, cmpOk, immRm, immNo, immCmp] using h))) h

theorem RoundTrip.vperm (o : VOps) : RoundTrip.Statement (.vperm o) :=
  fun h => roundTrip_of rfl (by decide) (lt40 rfl) rfl
    ((@id (∀ x, decodeOp (streamOf (.vperm o)) 0x30 x 0 = veTwo (fun o _ => .vperm o) (noRm Ty.inA) x) (fun _ => rfl) _).trans
      (veTwo_law (fun o _ => .vperm o) (noRm Ty.inA) o .rne (by simpa [Instr.wf, fiRm, fsRm, fRm, noRm, anyTy, cmpOk, immRm, immNo, immCmp] using h))) h

theorem RoundTrip.vbcst (o : VOps1) (lane : BitVec 7) : RoundTrip.Statement (.vbcst o lane) :=
  fun h => roundTrip_of rfl (by decide) (lt40 rfl) rfl
    ((@id (∀ x, decodeOp (streamOf (.vbcst o lane)) 0x31 x 0 = decodeVbcst x) (fun _ => rfl) _).trans
      (vbcst_law o lane (by simpa [Instr.wf, fiRm, fsRm, fRm, noRm, anyTy, cmpOk, immRm, immNo, immCmp] using h))) h

theorem RoundTrip.viota (vd : VReg) (prd : Prd) (z : Bool) (ty : Ty) : RoundTrip.Statement (.viota vd prd z ty) :=
  fun h => roundTrip_of rfl (by decide) (lt40 rfl) rfl
    ((@id (∀ x, decodeOp (streamOf (.viota vd prd z ty)) 0x32 x 0 = veGen .viota Ty.inI x) (fun _ => rfl) _).trans
      (veGen_law .viota Ty.inI vd prd z ty (by simpa [Instr.wf, fiRm, fsRm, fRm, noRm, anyTy, cmpOk, immRm, immNo, immCmp] using h))) h

theorem RoundTrip.vredAdd (o : VOps1) (rm : Rm) : RoundTrip.Statement (.vredAdd o rm) :=
  fun h => roundTrip_of rfl (by decide) (lt40 rfl) rfl
    ((@id (∀ x, decodeOp (streamOf (.vredAdd o rm)) 0x33 x 0 = veOne .vredAdd fiRm x) (fun _ => rfl) _).trans
      (veOne_law .vredAdd fiRm o rm (by simpa [Instr.wf, fiRm, fsRm, fRm, noRm, anyTy, cmpOk, immRm, immNo, immCmp] using h))) h

theorem RoundTrip.vredMin (o : VOps1) (rm : Rm) : RoundTrip.Statement (.vredMin o rm) :=
  fun h => roundTrip_of rfl (by decide) (lt40 rfl) rfl
    ((@id (∀ x, decodeOp (streamOf (.vredMin o rm)) 0x34 x 0 = veOne .vredMin fiRm x) (fun _ => rfl) _).trans
      (veOne_law .vredMin fiRm o rm (by simpa [Instr.wf, fiRm, fsRm, fRm, noRm, anyTy, cmpOk, immRm, immNo, immCmp] using h))) h

theorem RoundTrip.vredMax (o : VOps1) (rm : Rm) : RoundTrip.Statement (.vredMax o rm) :=
  fun h => roundTrip_of rfl (by decide) (lt40 rfl) rfl
    ((@id (∀ x, decodeOp (streamOf (.vredMax o rm)) 0x35 x 0 = veOne .vredMax fiRm x) (fun _ => rfl) _).trans
      (veOne_law .vredMax fiRm o rm (by simpa [Instr.wf, fiRm, fsRm, fRm, noRm, anyTy, cmpOk, immRm, immNo, immCmp] using h))) h

theorem RoundTrip.vscanInc (o : VOps1) (rm : Rm) : RoundTrip.Statement (.vscanInc o rm) :=
  fun h => roundTrip_of rfl (by decide) (lt40 rfl) rfl
    ((@id (∀ x, decodeOp (streamOf (.vscanInc o rm)) 0x36 x 0 = veOne .vscanInc fiRm x) (fun _ => rfl) _).trans
      (veOne_law .vscanInc fiRm o rm (by simpa [Instr.wf, fiRm, fsRm, fRm, noRm, anyTy, cmpOk, immRm, immNo, immCmp] using h))) h

theorem RoundTrip.vscanExc (o : VOps1) (rm : Rm) : RoundTrip.Statement (.vscanExc o rm) :=
  fun h => roundTrip_of rfl (by decide) (lt40 rfl) rfl
    ((@id (∀ x, decodeOp (streamOf (.vscanExc o rm)) 0x37 x 0 = veOne .vscanExc fiRm x) (fun _ => rfl) _).trans
      (veOne_law .vscanExc fiRm o rm (by simpa [Instr.wf, fiRm, fsRm, fRm, noRm, anyTy, cmpOk, immRm, immNo, immCmp] using h))) h

theorem RoundTrip.vstep (vd va : VReg) (j k : BitVec 4) (ty : Ty) (dsc : Bool) : RoundTrip.Statement (.vstep vd va j k ty dsc) :=
  fun h => roundTrip_of rfl (by decide) (lt40 rfl) rfl
    ((@id (∀ x, decodeOp (streamOf (.vstep vd va j k ty dsc)) 0x38 x 0 = decodeVstep x) (fun _ => rfl) _).trans
      (vstep_law vd va j k ty dsc (by simpa [Instr.wf, fiRm, fsRm, fRm, noRm, anyTy, cmpOk, immRm, immNo, immCmp] using h))) h

theorem RoundTrip.vcmpr (o : VOps1) : RoundTrip.Statement (.vcmpr o) :=
  fun h => roundTrip_of rfl (by decide) (lt40 rfl) rfl
    ((@id (∀ x, decodeOp (streamOf (.vcmpr o)) 0x39 x 0 = veOne (fun o _ => .vcmpr o) (noRm Ty.inA) x) (fun _ => rfl) _).trans
      (veOne_law (fun o _ => .vcmpr o) (noRm Ty.inA) o .rne (by simpa [Instr.wf, fiRm, fsRm, fRm, noRm, anyTy, cmpOk, immRm, immNo, immCmp] using h))) h

theorem RoundTrip.mand (md ma mb : BitVec 4) : RoundTrip.Statement (.mand md ma mb) :=
  fun h => roundTrip_of rfl (by decide) (lt40 rfl) rfl
    ((@id (∀ x, decodeOp (streamOf (.mand md ma mb)) 0x40 x 0 = veMask .mand true x) (fun _ => rfl) _).trans
      (veMask_law .mand true md ma mb used)) h

theorem RoundTrip.mor (md ma mb : BitVec 4) : RoundTrip.Statement (.mor md ma mb) :=
  fun h => roundTrip_of rfl (by decide) (lt40 rfl) rfl
    ((@id (∀ x, decodeOp (streamOf (.mor md ma mb)) 0x41 x 0 = veMask .mor true x) (fun _ => rfl) _).trans
      (veMask_law .mor true md ma mb used)) h

theorem RoundTrip.mxor (md ma mb : BitVec 4) : RoundTrip.Statement (.mxor md ma mb) :=
  fun h => roundTrip_of rfl (by decide) (lt40 rfl) rfl
    ((@id (∀ x, decodeOp (streamOf (.mxor md ma mb)) 0x42 x 0 = veMask .mxor true x) (fun _ => rfl) _).trans
      (veMask_law .mxor true md ma mb used)) h

theorem RoundTrip.mnot (md ma : BitVec 4) : RoundTrip.Statement (.mnot md ma) :=
  fun h => roundTrip_of rfl (by decide) (lt40 rfl) rfl
    ((@id (∀ x, decodeOp (streamOf (.mnot md ma)) 0x43 x 0 = veMask (fun d a _ => .mnot d a) false x) (fun _ => rfl) _).trans
      (veMask_law (fun d a _ => .mnot d a) false md ma 0 (fun _ => rfl))) h

theorem RoundTrip.mpop (vd : VReg) (ma : BitVec 4) (ty : Ty) : RoundTrip.Statement (.mpop vd ma ty) :=
  fun h => roundTrip_of rfl (by decide) (lt40 rfl) rfl
    ((@id (∀ x, decodeOp (streamOf (.mpop vd ma ty)) 0x44 x 0 = decodeMpop x) (fun _ => rfl) _).trans
      (mpop_law vd ma ty (by simpa [Instr.wf, fiRm, fsRm, fRm, noRm, anyTy, cmpOk, immRm, immNo, immCmp] using h))) h

theorem RoundTrip.kmsk (kd : BitVec 3) (ma : BitVec 4) (ty : Ty) : RoundTrip.Statement (.kmsk kd ma ty) :=
  fun h => roundTrip_of rfl (by decide) (lt40 rfl) rfl
    ((@id (∀ x, decodeOp (streamOf (.kmsk kd ma ty)) 0x45 x 0 = decodeKmsk x) (fun _ => rfl) _).trans (kmsk_law kd ma ty)) h

theorem RoundTrip.vimm (o : VImm) : RoundTrip.Statement (.vimm o) :=
  fun h => roundTrip_of rfl (by decide) (lt40 rfl) rfl
    ((@id (∀ x, decodeOp (streamOf (.vimm o)) 0x50 x 0 = veImm (fun o _ => .vimm o) (immNo anyTy) x) (fun _ => rfl) _).trans
      (veImm_law (fun o _ => .vimm o) (immNo anyTy) o 0 (by decide) (by simpa [Instr.wf, fiRm, fsRm, fRm, noRm, anyTy, cmpOk, immRm, immNo, immCmp] using h))) h

theorem RoundTrip.kset (kd : BitVec 3) (imm : BitVec 16) (ty : Ty) : RoundTrip.Statement (.kset kd imm ty) :=
  fun h => roundTrip_of rfl (by decide) (lt40 rfl) rfl
    ((@id (∀ x, decodeOp (streamOf (.kset kd imm ty)) 0x51 x 0 = decodeKset x) (fun _ => rfl) _).trans (kset_law kd imm ty)) h

theorem RoundTrip.vaddImm (o : VImm) (rm : Rm) : RoundTrip.Statement (.vaddImm o rm) :=
  fun h => roundTrip_of rfl (by decide) (lt40 rfl) rfl
    ((@id (∀ x, decodeOp (streamOf (.vaddImm o rm)) 0x52 x 0 = veImm (fun o n => .vaddImm o (Rm.ofCode n)) immRm x) (fun _ => rfl) _).trans
      ((by have hr := Rm.code_lt rm; have := veImm_law (fun o n => .vaddImm o (Rm.ofCode n)) immRm o rm.code (by omega) (by simpa [Instr.wf, immRm, fiRm, hr] using h); simpa only [Rm.ofCode_code] using this))) h

theorem RoundTrip.vmulImm (o : VImm) (rm : Rm) : RoundTrip.Statement (.vmulImm o rm) :=
  fun h => roundTrip_of rfl (by decide) (lt40 rfl) rfl
    ((@id (∀ x, decodeOp (streamOf (.vmulImm o rm)) 0x53 x 0 = veImm (fun o n => .vmulImm o (Rm.ofCode n)) immRm x) (fun _ => rfl) _).trans
      ((by have hr := Rm.code_lt rm; have := veImm_law (fun o n => .vmulImm o (Rm.ofCode n)) immRm o rm.code (by omega) (by simpa [Instr.wf, immRm, fiRm, hr] using h); simpa only [Rm.ofCode_code] using this))) h

theorem RoundTrip.vminImm (o : VImm) (rm : Rm) : RoundTrip.Statement (.vminImm o rm) :=
  fun h => roundTrip_of rfl (by decide) (lt40 rfl) rfl
    ((@id (∀ x, decodeOp (streamOf (.vminImm o rm)) 0x54 x 0 = veImm (fun o n => .vminImm o (Rm.ofCode n)) immRm x) (fun _ => rfl) _).trans
      ((by have hr := Rm.code_lt rm; have := veImm_law (fun o n => .vminImm o (Rm.ofCode n)) immRm o rm.code (by omega) (by simpa [Instr.wf, immRm, fiRm, hr] using h); simpa only [Rm.ofCode_code] using this))) h

theorem RoundTrip.vmaxImm (o : VImm) (rm : Rm) : RoundTrip.Statement (.vmaxImm o rm) :=
  fun h => roundTrip_of rfl (by decide) (lt40 rfl) rfl
    ((@id (∀ x, decodeOp (streamOf (.vmaxImm o rm)) 0x55 x 0 = veImm (fun o n => .vmaxImm o (Rm.ofCode n)) immRm x) (fun _ => rfl) _).trans
      ((by have hr := Rm.code_lt rm; have := veImm_law (fun o n => .vmaxImm o (Rm.ofCode n)) immRm o rm.code (by omega) (by simpa [Instr.wf, immRm, fiRm, hr] using h); simpa only [Rm.ofCode_code] using this))) h

theorem RoundTrip.vandImm (o : VImm) : RoundTrip.Statement (.vandImm o) :=
  fun h => roundTrip_of rfl (by decide) (lt40 rfl) rfl
    ((@id (∀ x, decodeOp (streamOf (.vandImm o)) 0x56 x 0 = veImm (fun o _ => .vandImm o) (immNo anyTy) x) (fun _ => rfl) _).trans
      (veImm_law (fun o _ => .vandImm o) (immNo anyTy) o 0 (by decide) (by simpa [Instr.wf, fiRm, fsRm, fRm, noRm, anyTy, cmpOk, immRm, immNo, immCmp] using h))) h

theorem RoundTrip.vorImm (o : VImm) : RoundTrip.Statement (.vorImm o) :=
  fun h => roundTrip_of rfl (by decide) (lt40 rfl) rfl
    ((@id (∀ x, decodeOp (streamOf (.vorImm o)) 0x57 x 0 = veImm (fun o _ => .vorImm o) (immNo anyTy) x) (fun _ => rfl) _).trans
      (veImm_law (fun o _ => .vorImm o) (immNo anyTy) o 0 (by decide) (by simpa [Instr.wf, fiRm, fsRm, fRm, noRm, anyTy, cmpOk, immRm, immNo, immCmp] using h))) h

theorem RoundTrip.vxorImm (o : VImm) : RoundTrip.Statement (.vxorImm o) :=
  fun h => roundTrip_of rfl (by decide) (lt40 rfl) rfl
    ((@id (∀ x, decodeOp (streamOf (.vxorImm o)) 0x58 x 0 = veImm (fun o _ => .vxorImm o) (immNo anyTy) x) (fun _ => rfl) _).trans
      (veImm_law (fun o _ => .vxorImm o) (immNo anyTy) o 0 (by decide) (by simpa [Instr.wf, fiRm, fsRm, fRm, noRm, anyTy, cmpOk, immRm, immNo, immCmp] using h))) h

theorem RoundTrip.vshlImm (o : VImm) : RoundTrip.Statement (.vshlImm o) :=
  fun h => roundTrip_of rfl (by decide) (lt40 rfl) rfl
    ((@id (∀ x, decodeOp (streamOf (.vshlImm o)) 0x59 x 0 = veImm (fun o _ => .vshlImm o) (immNo Ty.inI) x) (fun _ => rfl) _).trans
      (veImm_law (fun o _ => .vshlImm o) (immNo Ty.inI) o 0 (by decide) (by simpa [Instr.wf, fiRm, fsRm, fRm, noRm, anyTy, cmpOk, immRm, immNo, immCmp] using h))) h

theorem RoundTrip.vshrImm (o : VImm) : RoundTrip.Statement (.vshrImm o) :=
  fun h => roundTrip_of rfl (by decide) (lt40 rfl) rfl
    ((@id (∀ x, decodeOp (streamOf (.vshrImm o)) 0x5A x 0 = veImm (fun o _ => .vshrImm o) (immNo Ty.inI) x) (fun _ => rfl) _).trans
      (veImm_law (fun o _ => .vshrImm o) (immNo Ty.inI) o 0 (by decide) (by simpa [Instr.wf, fiRm, fsRm, fRm, noRm, anyTy, cmpOk, immRm, immNo, immCmp] using h))) h

theorem RoundTrip.vsarImm (o : VImm) : RoundTrip.Statement (.vsarImm o) :=
  fun h => roundTrip_of rfl (by decide) (lt40 rfl) rfl
    ((@id (∀ x, decodeOp (streamOf (.vsarImm o)) 0x5B x 0 = veImm (fun o _ => .vsarImm o) (immNo Ty.inI) x) (fun _ => rfl) _).trans
      (veImm_law (fun o _ => .vsarImm o) (immNo Ty.inI) o 0 (by decide) (by simpa [Instr.wf, fiRm, fsRm, fRm, noRm, anyTy, cmpOk, immRm, immNo, immCmp] using h))) h

theorem RoundTrip.vcmpImm (o : VImm) (cc : Cond) : RoundTrip.Statement (.vcmpImm o cc) :=
  fun h => roundTrip_of rfl (by decide) (lt40 rfl) rfl
    ((@id (∀ x, decodeOp (streamOf (.vcmpImm o cc)) 0x5C x 0 = veImm (fun o n => .vcmpImm o (Cond.ofCode n)) immCmp x) (fun _ => rfl) _).trans
      ((by have := veImm_law (fun o n => .vcmpImm o (Cond.ofCode n)) immCmp o cc.code (Cond.code_lt8 cc) (by simpa [Instr.wf, immCmp, cmpOk] using h); simpa only [Cond.ofCode_code] using this))) h

theorem RoundTrip.vld (o : VMem) : RoundTrip.Statement (.vld o) :=
  fun h => roundTrip_of rfl (by decide) (lt40 rfl) rfl
    ((@id (∀ x, decodeOp (streamOf (.vld o)) 0x60 x 0 = veMem .vld .vldOrb x) (fun _ => rfl) _).trans
      (veMem_law .vld .vldOrb o none)) h

theorem RoundTrip.vldOrb (o : VMem) (sy : BitVec 4) : RoundTrip.Statement (.vldOrb o sy) :=
  fun h => roundTrip_of rfl (by decide) (lt40 rfl) rfl
    ((@id (∀ x, decodeOp (streamOf (.vldOrb o sy)) 0x60 x 0 = veMem .vld .vldOrb x) (fun _ => rfl) _).trans
      (veMem_law .vld .vldOrb o (some sy))) h

theorem RoundTrip.vst (o : VMem) : RoundTrip.Statement (.vst o) :=
  fun h => roundTrip_of rfl (by decide) (lt40 rfl) rfl
    ((@id (∀ x, decodeOp (streamOf (.vst o)) 0x61 x 0 = veMem .vst .vstOrb x) (fun _ => rfl) _).trans
      (veMem_law .vst .vstOrb o none)) h

theorem RoundTrip.vstOrb (o : VMem) (sy : BitVec 4) : RoundTrip.Statement (.vstOrb o sy) :=
  fun h => roundTrip_of rfl (by decide) (lt40 rfl) rfl
    ((@id (∀ x, decodeOp (streamOf (.vstOrb o sy)) 0x61 x 0 = veMem .vst .vstOrb x) (fun _ => rfl) _).trans
      (veMem_law .vst .vstOrb o (some sy))) h

theorem RoundTrip.vcst (vd : VReg) (blk : Blk) (run : Run) (prd : Prd) (z : Bool) (ty : Ty) (qp : BitVec 2) : RoundTrip.Statement (.vcst vd blk run prd z ty qp) :=
  fun h => roundTrip_of rfl (by decide) (lt40 rfl) rfl
    ((@id (∀ x, decodeOp (streamOf (.vcst vd blk run prd z ty qp)) 0x62 x 0 = decodeVcst x) (fun _ => rfl) _).trans
      (vcst_law vd blk run prd z ty qp (by simpa [Instr.wf, fiRm, fsRm, fRm, noRm, anyTy, cmpOk, immRm, immNo, immCmp] using h))) h

theorem RoundTrip.mclm (ca : BitVec 5) : RoundTrip.Statement (.mclm ca) :=
  fun h => roundTrip_of rfl (by decide) (lt40 rfl) rfl
    ((@id (∀ x, decodeOp (streamOf (.mclm ca)) 0x00 x 0 = ceSlot false false true (fun _ _ c => .mclm (BitVec.ofNat 5 c)) x) (fun _ => rfl) _).trans
      ((by simpa only [ofNat_self] using ceSlot_law false false true (fun _ _ c => .mclm (BitVec.ofNat 5 c)) 0 0 ca.toNat (by decide) (by decide) ca.isLt (fun _ => rfl) (fun _ => rfl) used))) h

theorem RoundTrip.mrel (ca : BitVec 5) : RoundTrip.Statement (.mrel ca) :=
  fun h => roundTrip_of rfl (by decide) (lt40 rfl) rfl
    ((@id (∀ x, decodeOp (streamOf (.mrel ca)) 0x01 x 0 = ceSlot false false true (fun _ _ c => .mrel (BitVec.ofNat 5 c)) x) (fun _ => rfl) _).trans
      ((by simpa only [ofNat_self] using ceSlot_law false false true (fun _ _ c => .mrel (BitVec.ofNat 5 c)) 0 0 ca.toNat (by decide) (by decide) ca.isLt (fun _ => rfl) (fun _ => rfl) used))) h

theorem RoundTrip.mzero (td : BitVec 4) : RoundTrip.Statement (.mzero td) :=
  fun h => roundTrip_of rfl (by decide) (lt40 rfl) rfl
    ((@id (∀ x, decodeOp (streamOf (.mzero td)) 0x02 x 0 = ceSlot true false false (fun d _ _ => .mzero (BitVec.ofNat 4 d)) x) (fun _ => rfl) _).trans
      ((by simpa only [ofNat_self] using ceSlot_law true false false (fun d _ _ => .mzero (BitVec.ofNat 4 d)) td.toNat 0 0 td.isLt (by decide) (by decide) used (fun _ => rfl) (fun _ => rfl)))) h

theorem RoundTrip.mtrn (td ts : BitVec 4) : RoundTrip.Statement (.mtrn td ts) :=
  fun h => roundTrip_of rfl (by decide) (lt40 rfl) rfl
    ((@id (∀ x, decodeOp (streamOf (.mtrn td ts)) 0x03 x 0 = ceSlot true true false (fun d s _ => .mtrn (BitVec.ofNat 4 d) (BitVec.ofNat 4 s)) x) (fun _ => rfl) _).trans
      ((by simpa only [ofNat_self] using ceSlot_law true true false (fun d s _ => .mtrn (BitVec.ofNat 4 d) (BitVec.ofNat 4 s)) td.toNat ts.toNat 0 td.isLt ts.isLt (by decide) used used (fun _ => rfl)))) h

theorem RoundTrip.mma (o : MmaOps) : RoundTrip.Statement (.mma o) :=
  fun h => roundTrip_of rfl (by decide) (lt40 rfl) rfl (by
    simp only [Instr.wf, Bool.and_eq_true, Bool.or_eq_true, Bool.not_eq_true'] at h
    exact (@id (∀ x, decodeOp (streamOf (.mma o)) 0x04 x 0 = ceMma (fun o _ _ => .mma o) false x) (fun _ => rfl) _).trans
      (ceMma_law (fun o _ _ => .mma o) false o 0 0 (by decide) (by decide) (fun _ => ⟨rfl, rfl⟩) h.1
        (fun hf => by have := h.2; simp_all))) h

theorem RoundTrip.mmas (o : MmaOps) (pm : BitVec 3) (keep4 : Bool) : RoundTrip.Statement (.mmas o pm keep4) :=
  fun h => roundTrip_of rfl (by decide) (lt40 rfl) rfl (by
    simp only [Instr.wf, Bool.and_eq_true, Bool.or_eq_true, Bool.not_eq_true'] at h
    have e := ceMma_law (fun o p k => .mmas o (BitVec.ofNat 3 p) (k == 1)) true o pm.toNat (boolCode keep4) pm.isLt
      (boolCode_lt2 keep4) used h.1 (fun hf => by have := h.2; simp_all)
    simp only [ofNat_self, boolCode_beq] at e
    exact (@id (∀ x, decodeOp (streamOf (.mmas o pm keep4)) 0x05 x 0 =
      ceMma (fun o p k => .mmas o (BitVec.ofNat 3 p) (k == 1)) true x) (fun _ => rfl) _).trans e) h

theorem RoundTrip.mlda (tile : BitVec 4) (sr : SReg) (blk : Blk) (run : Run) : RoundTrip.Statement (.mlda tile sr blk run) :=
  fun h => roundTrip_of rfl (by decide) (lt40 rfl) rfl
    ((@id (∀ x, decodeOp (streamOf (.mlda tile sr blk run)) 0x10 x 0 = ceMove .mlda x) (fun _ => rfl) _).trans
      (ceMove_law .mlda tile sr blk run)) h

theorem RoundTrip.msta (tile : BitVec 4) (sr : SReg) (blk : Blk) (run : Run) : RoundTrip.Statement (.msta tile sr blk run) :=
  fun h => roundTrip_of rfl (by decide) (lt40 rfl) rfl
    ((@id (∀ x, decodeOp (streamOf (.msta tile sr blk run)) 0x11 x 0 = ceMove .msta x) (fun _ => rfl) _).trans
      (ceMove_law .msta tile sr blk run)) h

theorem RoundTrip.ocon (row : VReg) (sya syb : BitVec 4) (ty : Ty) : RoundTrip.Statement (.ocon row sya syb ty) :=
  fun h => roundTrip_of rfl (by decide) (lt40 rfl) rfl
    ((@id (∀ x, decodeOp (streamOf (.ocon row sya syb ty)) 0x12 x 0 = decodeOcon x) (fun _ => rfl) _).trans
      (ocon_law row sya syb ty)) h

theorem RoundTrip.oconp (sya syb : BitVec 4) (sr : SReg) (ty : Ty) : RoundTrip.Statement (.oconp sya syb sr ty) :=
  fun h => roundTrip_of rfl (by decide) (lt40 rfl) rfl
    ((@id (∀ x, decodeOp (streamOf (.oconp sya syb sr ty)) 0x13 x 0 = decodeOconp x) (fun _ => rfl) _).trans
      (oconp_law sya syb sr ty)) h

theorem RoundTrip.commandFetch (core : Nat) (st : Stream) : RoundTrip.Statement (.commandFetch core st) :=
  fun h => absurd h (by simp [Instr.wf])

theorem RoundTrip.dccAdvance (dom : Nat) : RoundTrip.Statement (.dccAdvance dom) :=
  fun h => absurd h (by simp [Instr.wf])

theorem RoundTrip.resultLanding (core : Nat) : RoundTrip.Statement (.resultLanding core) :=
  fun h => absurd h (by simp [Instr.wf])

theorem RoundTrip.fillLanding (core : Nat) : RoundTrip.Statement (.fillLanding core) :=
  fun h => absurd h (by simp [Instr.wf])

theorem RoundTrip.memorySample (dom : Nat) : RoundTrip.Statement (.memorySample dom) :=
  fun h => absurd h (by simp [Instr.wf])

theorem RoundTrip.memoryWriteLanding (dom : Nat) : RoundTrip.Statement (.memoryWriteLanding dom) :=
  fun h => absurd h (by simp [Instr.wf])

theorem RoundTrip.atomicApply (dom : Nat) : RoundTrip.Statement (.atomicApply dom) :=
  fun h => absurd h (by simp [Instr.wf])

theorem RoundTrip.sumCellAdd (dom : Nat) : RoundTrip.Statement (.sumCellAdd dom) :=
  fun h => absurd h (by simp [Instr.wf])

theorem RoundTrip.cellInitLanding (dom : Nat) : RoundTrip.Statement (.cellInitLanding dom) :=
  fun h => absurd h (by simp [Instr.wf])

theorem RoundTrip.beatLanding (core : Nat) : RoundTrip.Statement (.beatLanding core) :=
  fun h => absurd h (by simp [Instr.wf])

theorem RoundTrip.receiveWindowClose (core : Nat) : RoundTrip.Statement (.receiveWindowClose core) :=
  fun h => absurd h (by simp [Instr.wf])

theorem RoundTrip.armPoolArrival (core : Nat) : RoundTrip.Statement (.armPoolArrival core) :=
  fun h => absurd h (by simp [Instr.wf])

theorem RoundTrip.mpatLanding (core : Nat) : RoundTrip.Statement (.mpatLanding core) :=
  fun h => absurd h (by simp [Instr.wf])

theorem RoundTrip.rangeChangeReach (core : Nat) : RoundTrip.Statement (.rangeChangeReach core) :=
  fun h => absurd h (by simp [Instr.wf])

theorem RoundTrip.holdEffect (dom : Nat) : RoundTrip.Statement (.holdEffect dom) :=
  fun h => absurd h (by simp [Instr.wf])

theorem RoundTrip.holdRelease (dom : Nat) : RoundTrip.Statement (.holdRelease dom) :=
  fun h => absurd h (by simp [Instr.wf])

theorem RoundTrip.holdBudgetExceeded (dom : Nat) : RoundTrip.Statement (.holdBudgetExceeded dom) :=
  fun h => absurd h (by simp [Instr.wf])

theorem RoundTrip.rateCreditRefill (core : Nat) : RoundTrip.Statement (.rateCreditRefill core) :=
  fun h => absurd h (by simp [Instr.wf])

theorem RoundTrip.beatCreditRefill (core : Nat) : RoundTrip.Statement (.beatCreditRefill core) :=
  fun h => absurd h (by simp [Instr.wf])

theorem RoundTrip.slackPoint (dom : Nat) : RoundTrip.Statement (.slackPoint dom) :=
  fun h => absurd h (by simp [Instr.wf])

theorem RoundTrip.beaconInterval (pkg link : Nat) : RoundTrip.Statement (.beaconInterval pkg link) :=
  fun h => absurd h (by simp [Instr.wf])

theorem RoundTrip.beaconReceived (pkg link dom dcc : Nat) (lead : Int) (slack : Option (Nat × Nat)) : RoundTrip.Statement (.beaconReceived pkg link dom dcc lead slack) :=
  fun h => absurd h (by simp [Instr.wf])

theorem RoundTrip.thermalSignal (r : SensorReading) : RoundTrip.Statement (.thermalSignal r) :=
  fun h => absurd h (by simp [Instr.wf])

theorem RoundTrip.thermalWithdraw (r : SensorReading) : RoundTrip.Statement (.thermalWithdraw r) :=
  fun h => absurd h (by simp [Instr.wf])

theorem RoundTrip.thermalTrip (r : SensorReading) : RoundTrip.Statement (.thermalTrip r) :=
  fun h => absurd h (by simp [Instr.wf])

theorem RoundTrip.debugStopRequest (dom : Nat) : RoundTrip.Statement (.debugStopRequest dom) :=
  fun h => absurd h (by simp [Instr.wf])

theorem RoundTrip.debugRelease (dom : Nat) : RoundTrip.Statement (.debugRelease dom) :=
  fun h => absurd h (by simp [Instr.wf])

theorem RoundTrip.traceSlot (core : Nat) : RoundTrip.Statement (.traceSlot core) :=
  fun h => absurd h (by simp [Instr.wf])

theorem RoundTrip.schedulingRound (pkg die : Nat) : RoundTrip.Statement (.schedulingRound pkg die) :=
  fun h => absurd h (by simp [Instr.wf])

theorem RoundTrip.priorityAging (pkg pid : Nat) : RoundTrip.Statement (.priorityAging pkg pid) :=
  fun h => absurd h (by simp [Instr.wf])

theorem RoundTrip.pourStart (pkg pid : Nat) : RoundTrip.Statement (.pourStart pkg pid) :=
  fun h => absurd h (by simp [Instr.wf])

theorem RoundTrip.pourEnd (dom : Nat) : RoundTrip.Statement (.pourEnd dom) :=
  fun h => absurd h (by simp [Instr.wf])

theorem RoundTrip.schedulerStop (dom : Nat) : RoundTrip.Statement (.schedulerStop dom) :=
  fun h => absurd h (by simp [Instr.wf])

theorem RoundTrip.checkpointSave (dom : Nat) : RoundTrip.Statement (.checkpointSave dom) :=
  fun h => absurd h (by simp [Instr.wf])

theorem RoundTrip.pourKill (dom : Nat) : RoundTrip.Statement (.pourKill dom) :=
  fun h => absurd h (by simp [Instr.wf])

theorem RoundTrip.pourRestore (pkg pid : Nat) : RoundTrip.Statement (.pourRestore pkg pid) :=
  fun h => absurd h (by simp [Instr.wf])

theorem RoundTrip.windowPutApply (num : Nat) : RoundTrip.Statement (.windowPutApply num) :=
  fun h => absurd h (by simp [Instr.wf])

theorem RoundTrip.windowPutAck (num : Nat) : RoundTrip.Statement (.windowPutAck num) :=
  fun h => absurd h (by simp [Instr.wf])

theorem RoundTrip.windowGetReturn (num : Nat) : RoundTrip.Statement (.windowGetReturn num) :=
  fun h => absurd h (by simp [Instr.wf])

theorem RoundTrip.parkedTransferRetry (num : Nat) : RoundTrip.Statement (.parkedTransferRetry num) :=
  fun h => absurd h (by simp [Instr.wf])

theorem RoundTrip.hostDmaDescriptor (pkg fn : Nat) (w0 w1 w2 w3 : Word) : RoundTrip.Statement (.hostDmaDescriptor pkg fn w0 w1 w2 w3) :=
  fun h => absurd h (by simp [Instr.wf])

theorem RoundTrip.hostDmaStart (num : Nat) : RoundTrip.Statement (.hostDmaStart num) :=
  fun h => absurd h (by simp [Instr.wf])

theorem RoundTrip.hostDmaUnit (num : Nat) : RoundTrip.Statement (.hostDmaUnit num) :=
  fun h => absurd h (by simp [Instr.wf])

theorem RoundTrip.compactionMove (pkg part asid base dest : Nat) : RoundTrip.Statement (.compactionMove pkg part asid base dest) :=
  fun h => absurd h (by simp [Instr.wf])

theorem RoundTrip.compactionRelease (pkg part asid base : Nat) : RoundTrip.Statement (.compactionRelease pkg part asid base) :=
  fun h => absurd h (by simp [Instr.wf])

theorem RoundTrip.flitCorrected (pkg link : Nat) : RoundTrip.Statement (.flitCorrected pkg link) :=
  fun h => absurd h (by simp [Instr.wf])

theorem RoundTrip.laneFailure (pkg link lane : Nat) : RoundTrip.Statement (.laneFailure pkg link lane) :=
  fun h => absurd h (by simp [Instr.wf])

theorem RoundTrip.flitUncorrectable (pkg link : Nat) : RoundTrip.Statement (.flitUncorrectable pkg link) :=
  fun h => absurd h (by simp [Instr.wf])

theorem RoundTrip.linkTrained (pkg link pos : Nat) (pcbh : Bool) : RoundTrip.Statement (.linkTrained pkg link pos pcbh) :=
  fun h => absurd h (by simp [Instr.wf])

theorem RoundTrip.channelSubstitution (pkg stack chan : Nat) : RoundTrip.Statement (.channelSubstitution pkg stack chan) :=
  fun h => absurd h (by simp [Instr.wf])

theorem RoundTrip.partitionUpdate (pkg part version : Nat) (image : List Byte) (signature : Nat) : RoundTrip.Statement (.partitionUpdate pkg part version image signature) :=
  fun h => absurd h (by simp [Instr.wf])

theorem RoundTrip.build (pkg part no : Nat) (rec : List Word) : RoundTrip.Statement (.build pkg part no rec) :=
  fun h => absurd h (by simp [Instr.wf])

theorem RoundTrip.armx (pkg part no : Nat) : RoundTrip.Statement (.armx pkg part no) :=
  fun h => absurd h (by simp [Instr.wf])

theorem RoundTrip.kill (pkg part pid : Nat) : RoundTrip.Statement (.kill pkg part pid) :=
  fun h => absurd h (by simp [Instr.wf])

theorem RoundTrip.ckpt (pkg part pid : Nat) : RoundTrip.Statement (.ckpt pkg part pid) :=
  fun h => absurd h (by simp [Instr.wf])

theorem RoundTrip.resume (pkg part pid : Nat) : RoundTrip.Statement (.resume pkg part pid) :=
  fun h => absurd h (by simp [Instr.wf])

theorem RoundTrip.restore (pkg part area : Nat) : RoundTrip.Statement (.restore pkg part area) :=
  fun h => absurd h (by simp [Instr.wf])

theorem RoundTrip.rings (pkg part die trace wait : Nat) : RoundTrip.Statement (.rings pkg part die trace wait) :=
  fun h => absurd h (by simp [Instr.wf])

theorem RoundTrip.window (pkg part w : Nat) (rec : List Word) : RoundTrip.Statement (.window pkg part w rec) :=
  fun h => absurd h (by simp [Instr.wf])

theorem RoundTrip.policy (pkg part die field : Nat) (value : Word) : RoundTrip.Statement (.policy pkg part die field value) :=
  fun h => absurd h (by simp [Instr.wf])

theorem RoundTrip.repair (pkg part die core : Nat) : RoundTrip.Statement (.repair pkg part die core) :=
  fun h => absurd h (by simp [Instr.wf])

theorem RoundTrip.tload (pkg part pid core n : Nat) (image : List Word) : RoundTrip.Statement (.tload pkg part pid core n image) :=
  fun h => absurd h (by simp [Instr.wf])

theorem RoundTrip.featCommit (pkg fn : Nat) (accept : BitVec 256) : RoundTrip.Statement (.featCommit pkg fn accept) :=
  fun h => absurd h (by simp [Instr.wf])

theorem RoundTrip.managementRegisterWrite (pkg addr : Nat) (value : Word) : RoundTrip.Statement (.managementRegisterWrite pkg addr value) :=
  fun h => absurd h (by simp [Instr.wf])

theorem RoundTrip.boot (pkg : Nat) (img : BootImage) : RoundTrip.Statement (.boot pkg img) :=
  fun h => absurd h (by simp [Instr.wf])

theorem RoundTrip.unlockToken (pkg : Nat) (token : List Word) (signature : Nat) : RoundTrip.Statement (.unlockToken pkg token signature) :=
  fun h => absurd h (by simp [Instr.wf])

theorem RoundTrip.retire (pkg : Nat) : RoundTrip.Statement (.retire pkg) :=
  fun h => absurd h (by simp [Instr.wf])

theorem RoundTrip.spdmRequest (pkg : Nat) (rsa4096 sha512 : Bool) : RoundTrip.Statement (.spdmRequest pkg rsa4096 sha512) :=
  fun h => absurd h (by simp [Instr.wf])

theorem RoundTrip.hypervisorUpdate (pkg version : Nat) (image : List Byte) (signature : Nat) : RoundTrip.Statement (.hypervisorUpdate pkg version image signature) :=
  fun h => absurd h (by simp [Instr.wf])

theorem RoundTrip.debugSessionAttach (pkg part : Nat) (on : Bool) : RoundTrip.Statement (.debugSessionAttach pkg part on) :=
  fun h => absurd h (by simp [Instr.wf])

theorem RoundTrip.lostBeaconPath (pkg : Nat) : RoundTrip.Statement (.lostBeaconPath pkg) :=
  fun h => absurd h (by simp [Instr.wf])

theorem RoundTrip.packageForcedDetach (pkg : Nat) : RoundTrip.Statement (.packageForcedDetach pkg) :=
  fun h => absurd h (by simp [Instr.wf])

theorem RoundTrip.linksTakenDown (pkg : Nat) : RoundTrip.Statement (.linksTakenDown pkg) :=
  fun h => absurd h (by simp [Instr.wf])

theorem RoundTrip.lifecycleFuseAdvance (pkg : Nat) : RoundTrip.Statement (.lifecycleFuseAdvance pkg) :=
  fun h => absurd h (by simp [Instr.wf])

theorem RoundTrip.tenantKeyProvision (pkg part : Nat) (key : Word) : RoundTrip.Statement (.tenantKeyProvision pkg part key) :=
  fun h => absurd h (by simp [Instr.wf])

end Sys2Proof.Laws
end

