-- ==== Sys2Proof/Laws/Tidy.lean ====
section
/-! SUPPORT. The named operations keep the canonical form of device memory and of every table (Claims.tidy): one law for each. -/

set_option Elab.async false

namespace Sys2Proof.Laws

open Sys2Proof Sys2Proof.Machine Sys2Proof.Claims

-- The parts of the form ---------------------------------------------------------------------------------------------------------

@[simp] theorem tidyCore_empty : tidyCore {} = true := by decide

/-- A table whose entries all have a property: every read has it, if the default has. -/
theorem all_get {α : Type} (d : α) (p : α → Bool) (hd : p d = true) (m : Sparse α) (k : Nat)
    (h : m.all (fun x => p x.2) = true) : p (Sparse.get d m k) = true := by
  induction m with
  | nil => exact hd
  | cons x r ih =>
    simp only [List.all_cons, Bool.and_eq_true] at h
    unfold Sparse.get
    split
    · exact h.1
    · exact ih h.2

theorem all_put {α : Type} (p : α → Bool) (o : Option α) (ho : ∀ v, o = some v → p v = true) (m : Sparse α) (k : Nat)
    (h : m.all (fun x => p x.2) = true) : (Sparse.put o m k).all (fun x => p x.2) = true := by
  induction m with
  | nil => cases o <;> simp_all [Sparse.put]
  | cons x r ih =>
    rw [List.all_cons, Bool.and_eq_true] at h
    have h' : ((x.1, x.2) :: r).all (fun x => p x.2) = true := by rw [List.all_cons, Bool.and_eq_true]; exact h
    unfold Sparse.put
    split
    · cases o with
      | none => exact h'
      | some v => rw [List.all_cons, Bool.and_eq_true]; exact ⟨ho v rfl, h'⟩
    · split
      · cases o with
        | none => exact h.2
        | some v => rw [List.all_cons, Bool.and_eq_true]; exact ⟨ho v rfl, h.2⟩
      · rw [List.all_cons, Bool.and_eq_true]; exact ⟨h.1, ih h.2⟩

/-- Writing an entry with the property keeps it. -/
theorem all_set {α : Type} [DecidableEq α] (d : α) (p : α → Bool) (m : Sparse α) (k : Nat) (v : α) (hv : p v = true)
    (h : m.all (fun x => p x.2) = true) : (Sparse.set d m k v).all (fun x => p x.2) = true := by
  refine all_put p _ ?_ m k h
  intro w hw
  split at hw
  · cases hw
  · cases hw; exact hv

/-- A core whose tables are in canonical form. -/
structure TidyCore (c : CoreState) : Prop where
  form : tidyCore c = true

/-- A state whose memory and tables are in canonical form. -/
structure Tidy (s : State) : Prop where
  form : tidy s = true

/-- The other fields of a state are of no account. -/
theorem Tidy.lit {s : State} {x0 : Nat} {x1 : List Act} {x2 : List Input} {y : List HostAtomic} {x3 : Ctx} {x4 : Bool} {x6 : List Domain} {x7 : Sparse Pkg}
    {x10 : Memory} {x11 : List Nat} {x13 : List Xfer} {x14 : Nat} {x15 : List (Nat × Word × WriteTag)} {x16 : List (Party × List Nat)}
    {x17 : List (Nat × WriteTag)} {x18 : List (Party × WriteTag)} {x19 : List (Nat × Nat × WriteTag)} {x20 : Nat}
    (h : Tidy s) : Tidy (State.mk x0 x1 x2 y x3 x4 s.cores x6 x7 s.mem s.cells x10 x11 s.saved x13 x14 x15 x16 x17 x18 x19
      x20) := ⟨h.form⟩

/-- The other fields of a core are of no account. -/
theorem TidyCore.lit {c : CoreState} {x0 : Nat} {x2 : List Nat} {x3 : StreamSt} {x4 : StreamSt} {x5 : StreamSt} {x6 : StreamSt}
    {x12 : List Word} {x13 : Nat} {x14 : Nat} {x22 : BitVec 5} {x23 : BitVec 5} {x24 : BitVec 5} {x25 : Bool} {x26 : Bool} {x27 : Nat}
    {x28 : Sparse RangeEntry} {x29 : BitVec 16384} {x30 : List RunVal} {x31 : List PortUse} {x32 : List PortUse} {x33 : List PortUse}
    {x34 : List Nat} {x35 : List Wrote} {x36 : List Flight} {x37 : List Flight} {x38 : List Flight} {x39 : List Job} {x40 : List Job}
    {x41 : Sparse Nat} {x42 : List RWin} {x43 : Int} {x44 : List Nat} {x45 : Nat} {x46 : Sparse Int} {x47 : List (Nat × Nat)}
    {x48 : List (List Word)} {x49 : Nat} {x50 : Bool} {x51 : Bool} {x52 : List (List Word × Stream × Nat × Nat)} {x53 : Option Stop}
    {x54 : List (Nat × Nat × Nat × Nat)} {x55 : Sparse Word} {x56 : Sparse Word} {x57 : List Memory} {x58 : Nat} {x59 : Nat} {x60 : Nat}
    {x61 : BitVec 16}
    (h : TidyCore c) : TidyCore (CoreState.mk x0 c.sregs x2 x3 x4 x5 x6 c.spad c.rows c.tags c.slots c.cruc x12 x13 x14 c.masks c.kpreds
      c.qps c.sy c.pm c.cb c.lcs x22 x23 x24 x25 x26 x27 x28 x29 x30 x31 x32 x33 x34 x35 x36 x37 x38 x39 x40 x41 x42 x43 x44 x45 x46 x47
      x48 x49 x50 x51 x52 x53 x54 x55 x56 x57 x58 x59 x60 x61) := ⟨h.form⟩

/-- The form of a state, part by part. -/
theorem tidy_iff (s : State) : Tidy s ↔
    Memory.wf s.mem = true ∧ Sparse.wfFrom {} 0 s.cells = true ∧ Sparse.wfFrom {} 0 s.cores = true ∧
      s.cores.all (fun x => tidyCore x.2) = true ∧ s.saved.all (fun v => v.cores.all (fun x => tidyCore x.2)) = true := by
  constructor
  · intro h
    have q := h.form
    unfold tidy at q
    rw [Bool.and_eq_true, Bool.and_eq_true, Bool.and_eq_true, Bool.and_eq_true, and_assoc, and_assoc, and_assoc] at q
    exact q
  · intro h
    constructor
    unfold tidy
    rw [Bool.and_eq_true, Bool.and_eq_true, Bool.and_eq_true, Bool.and_eq_true, and_assoc, and_assoc, and_assoc]
    exact h

/-- The form of a core, table by table. -/
theorem tidyCore_iff (c : CoreState) : TidyCore c ↔
    Memory.wf c.spad = true ∧ Sparse.wfFrom 0 0 c.sregs = true ∧ Sparse.wfFrom 0 0 c.rows = true ∧ Sparse.wfFrom 0 0 c.masks = true ∧
    Sparse.wfFrom {} 0 c.kpreds = true ∧ Sparse.wfFrom 0 0 c.qps = true ∧ Sparse.wfFrom {} 0 c.slots = true ∧
    Sparse.wfFrom 2 0 c.tags = true ∧ Sparse.wfFrom 0 0 c.cruc = true ∧ Sparse.wfFrom {} 0 c.lcs = true ∧
    Sparse.wfFrom {} 0 c.sy = true ∧ Sparse.wfFrom 0 0 c.pm = true ∧ Sparse.wfFrom 0 0 c.cb = true := by
  constructor
  · intro h
    have q := h.form
    simp only [tidyCore, Bool.and_eq_true, and_assoc] at q
    exact q
  · intro h
    constructor
    simp only [tidyCore, Bool.and_eq_true, and_assoc]
    exact h

theorem TidyCore.empty : TidyCore {} := ⟨tidyCore_empty⟩

theorem Tidy.mem {s : State} (h : Tidy s) : Memory.wf s.mem = true := ((tidy_iff s).1 h).1

theorem Tidy.cores {s : State} (h : Tidy s) : Sparse.wfFrom {} 0 s.cores = true := ((tidy_iff s).1 h).2.2.1

theorem Tidy.core {s : State} (h : Tidy s) (k : Nat) : TidyCore (getCore s k) :=
  ⟨all_get ({} : CoreState) tidyCore tidyCore_empty s.cores k ((tidy_iff s).1 h).2.2.2.1⟩

theorem Tidy.cur {s : State} (h : Tidy s) : TidyCore (cur s) := h.core _

theorem TidyCore.wfSpad {c : CoreState} (h : TidyCore c) : Memory.wf c.spad = true := ((tidyCore_iff c).1 h).1

/-- A memory put in its place. -/
theorem Tidy.setMem {s : State} (h : Tidy s) {m : Memory} (hm : Memory.wf m = true) : Tidy { s with mem := m } := by
  rw [tidy_iff] at *
  exact ⟨hm, h.2⟩

/-- A memory put in its place; the other fields are of no account. -/
theorem Tidy.litMem {s : State} {m : Memory} {x0 : Nat} {x1 : List Act} {x2 : List Input} {y : List HostAtomic} {x3 : Ctx} {x4 : Bool} {x6 : List Domain} {x7 : Sparse Pkg}
    {x10 : Memory} {x11 : List Nat} {x13 : List Xfer} {x14 : Nat} {x15 : List (Nat × Word × WriteTag)} {x16 : List (Party × List Nat)}
    {x17 : List (Nat × WriteTag)} {x18 : List (Party × WriteTag)} {x19 : List (Nat × Nat × WriteTag)} {x20 : Nat}
    (h : Tidy s) (hm : Memory.wf m = true) : Tidy (State.mk x0 x1 x2 y x3 x4 s.cores x6 x7 m s.cells x10 x11 s.saved x13 x14 x15 x16 x17 x18 x19
      x20) := ⟨(h.setMem hm).form⟩

theorem Tidy.saved {s : State} (h : Tidy s) : ∀ v ∈ s.saved, v.cores.all (fun x => tidyCore x.2) = true :=
  List.all_eq_true.1 ((tidy_iff s).1 h).2.2.2.2

/-- Saved pours put in their place. -/
theorem Tidy.setSaved {s : State} (h : Tidy s) {l : List Saved} (hl : ∀ v ∈ l, v.cores.all (fun x => tidyCore x.2) = true) :
    Tidy { s with saved := l } := by
  rw [tidy_iff] at *
  exact ⟨h.1, h.2.1, h.2.2.1, h.2.2.2.1, List.all_eq_true.2 hl⟩

theorem tidy_setCore {s : State} {k : Nat} {c : CoreState} (h : Tidy s) (hc : TidyCore c) : Tidy (setCore s k c) := by
  rw [tidy_iff] at *
  have q := all_set ({} : CoreState) tidyCore s.cores k c hc.form h.2.2.2.1
  have w := wfFrom_set ({} : CoreState) c s.cores (Nat.zero_le k) h.2.2.1
  exact ⟨h.1, h.2.1, w, q, h.2.2.2.2⟩

theorem tidy_modCore {s : State} {k : Nat} {f : CoreState → CoreState} (h : Tidy s) (hf : ∀ c, TidyCore c → TidyCore (f c)) :
    Tidy (modCore s k f) := tidy_setCore h (hf _ (h.core k))

theorem tidy_modCur {s : State} {f : CoreState → CoreState} (h : Tidy s) (hf : ∀ c, TidyCore c → TidyCore (f c)) :
    Tidy (modCur s f) := tidy_modCore h hf

theorem tidy_foldl {α : Type} {f : State → α → State} (hf : ∀ s a, Tidy s → Tidy (f s a)) {l : List α} {s : State} (h : Tidy s) :
    Tidy (l.foldl f s) := by
  induction l generalizing s with
  | nil => exact h
  | cons a r ih => exact ih (hf s a h)

/-- Cores that lose their power (R366). -/
theorem Tidy.dropCores {s : State} {p : Nat × CoreState → Bool} (h : Tidy s) : Tidy { s with cores := s.cores.filter p } := by
  rw [tidy_iff] at *
  refine ⟨h.1, h.2.1, wfFrom_filter _ _ _ h.2.2.1, List.all_eq_true.2 fun x hx => ?_, h.2.2.2.2⟩
  exact List.all_eq_true.1 h.2.2.2.1 x (List.mem_of_mem_filter hx)

theorem tidy_modPkg {s : State} {p : Nat} {f : Pkg → Pkg} (h : Tidy s) : Tidy (modPkg s p f) := ⟨h.form⟩
theorem tidy_setPkg {s : State} {p : Nat} {x : Pkg} (h : Tidy s) : Tidy (setPkg s p x) := ⟨h.form⟩
theorem tidy_modPart {s : State} {p q : Nat} {f : Part → Part} (h : Tidy s) : Tidy (modPart s p q f) := ⟨h.form⟩
theorem tidy_modDom {s : State} {p : Nat} {f : Domain → Domain} (h : Tidy s) : Tidy (modDom s p f) := ⟨h.form⟩

/-- A part of a command's cycle leaves a state in form, also where it stops on a fault. -/
structure TidyRes (r : JobRes) : Prop where
  ofOk : ∀ s j, r = .ok s j → Tidy s
  ofFault : ∀ s j code d prog, r = .fault s j code d prog → Tidy s

theorem TidyRes.ok {s : State} {j : Job} (h : Tidy s) : TidyRes (.ok s j) :=
  ⟨fun _ _ e => (by cases e; exact h), fun _ _ _ _ _ e => (by cases e)⟩
theorem TidyRes.fault {s : State} {j : Job} {code : Nat} {d : List Word} {prog : Nat} (h : Tidy s) : TidyRes (.fault s j code d prog) :=
  ⟨fun _ _ e => (by cases e), fun _ _ _ _ _ e => (by cases e; exact h)⟩

/-- An answer whose next state, if it is one, is in form. -/
structure TidyOut (o : Out) : Prop where
  form : ∀ t, o = .next t → Tidy t

theorem TidyOut.next {s : State} (h : Tidy s) : TidyOut (.next s) := ⟨fun _ e => by cases e; exact h⟩
theorem TidyOut.fault {f : Fault} : TidyOut (.fault f) := ⟨fun _ e => nomatch e⟩
theorem TidyOut.refused {r : Refusal} : TidyOut (.refused r) := ⟨fun _ e => nomatch e⟩

-- Tables of a core -----------------------------------------------------------------------------------------------------------------

theorem foldl_keeps {α β : Type} (p : β → Prop) (f : β → α → β) (hf : ∀ b a, p b → p (f b a)) (l : List α) :
    ∀ b, p b → p (l.foldl f b) := by
  induction l with
  | nil => exact fun b h => h
  | cons a r ih => exact fun b h => ih _ (hf b a h)

theorem wf_set0 {α : Type} [DecidableEq α] {d v : α} {m : Sparse α} {a : Nat} (h : Sparse.wfFrom d 0 m = true) :
    Sparse.wfFrom d 0 (Sparse.set d m a v) = true := wfFrom_set d v m (Nat.zero_le _) h

theorem wf_foldSet {α β : Type} [DecidableEq α] (d : α) (g : β → Nat) (v : β → α) (l : List β) :
    Sparse.wfFrom d 0 (l.foldl (fun t x => Sparse.set d t (g x) (v x)) []) = true :=
  foldl_keeps (fun t => Sparse.wfFrom d 0 t = true) _ (fun _ _ ht => wf_set0 ht) l [] rfl

theorem tidyCore_modStream {c : CoreState} {st : Stream} {f : StreamSt → StreamSt} (h : TidyCore c) :
    TidyCore (modStream c st f) := by cases st <;> exact ⟨h.form⟩
theorem tidyCore_setStream {c : CoreState} {st : Stream} {x : StreamSt} (h : TidyCore c) :
    TidyCore (setStream c st x) := by cases st <;> exact ⟨h.form⟩

theorem tidyCore_sput {c : CoreState} {r : SReg} {v : Word} (h : TidyCore c) : TidyCore (sput c r v) := by
  unfold sput
  split
  · exact h
  · rw [tidyCore_iff] at *
    exact ⟨h.1, wf_set0 h.2.1, h.2.2⟩

theorem tidyCore_setRow {c : CoreState} {r : Nat} {v : Row} (h : TidyCore c) : TidyCore (setRow c r v) := by
  rw [tidyCore_iff] at *
  exact ⟨h.1, h.2.1, wf_set0 h.2.2.1, h.2.2.2⟩

theorem tidyCore_setLc {c : CoreState} {n : Nat} {v : LCtr} (h : TidyCore c) : TidyCore (setLc c n v) := by
  rw [tidyCore_iff] at *
  simp_all only [setLc, wf_set0, and_self]

theorem tidyCore_setRange {c : CoreState} {n : Nat} {e : RangeEntry} (h : TidyCore c) : TidyCore (setRange c n e) := ⟨h.form⟩

theorem tidyCore_stickFlags {c : CoreState} {g : Stream} {v : Nat} (h : TidyCore c) : TidyCore (stickFlags c g v) := by
  cases g <;> exact ⟨h.form⟩

theorem tidyCore_countEvent {c : CoreState} {ev : Nat} {st : Stream} {n : Nat} (h : TidyCore c) :
    TidyCore (countEvent c ev st n) := by
  unfold countEvent
  split <;> exact ⟨h.form⟩

/-- Scratchpad put in its place. -/
theorem TidyCore.setSpad {c : CoreState} (h : TidyCore c) {m : Memory} (hm : Memory.wf m = true) : TidyCore { c with spad := m } := by
  rw [tidyCore_iff] at *
  exact ⟨hm, h.2⟩

/-- Scratchpad put in its place; the other fields are of no account. -/
theorem TidyCore.litSpad {c : CoreState} {m : Memory} {x0 : Nat} {x2 : List Nat} {x3 : StreamSt} {x4 : StreamSt} {x5 : StreamSt} {x6 : StreamSt}
    {x12 : List Word} {x13 : Nat} {x14 : Nat} {x22 : BitVec 5} {x23 : BitVec 5} {x24 : BitVec 5} {x25 : Bool} {x26 : Bool} {x27 : Nat}
    {x28 : Sparse RangeEntry} {x29 : BitVec 16384} {x30 : List RunVal} {x31 : List PortUse} {x32 : List PortUse} {x33 : List PortUse}
    {x34 : List Nat} {x35 : List Wrote} {x36 : List Flight} {x37 : List Flight} {x38 : List Flight} {x39 : List Job} {x40 : List Job}
    {x41 : Sparse Nat} {x42 : List RWin} {x43 : Int} {x44 : List Nat} {x45 : Nat} {x46 : Sparse Int} {x47 : List (Nat × Nat)}
    {x48 : List (List Word)} {x49 : Nat} {x50 : Bool} {x51 : Bool} {x52 : List (List Word × Stream × Nat × Nat)} {x53 : Option Stop}
    {x54 : List (Nat × Nat × Nat × Nat)} {x55 : Sparse Word} {x56 : Sparse Word} {x57 : List Memory} {x58 : Nat} {x59 : Nat} {x60 : Nat}
    {x61 : BitVec 16}
    (h : TidyCore c) (hm : Memory.wf m = true) : TidyCore (CoreState.mk x0 c.sregs x2 x3 x4 x5 x6 m c.rows c.tags c.slots c.cruc x12 x13 x14 c.masks c.kpreds
      c.qps c.sy c.pm c.cb c.lcs x22 x23 x24 x25 x26 x27 x28 x29 x30 x31 x32 x33 x34 x35 x36 x37 x38 x39 x40 x41 x42 x43 x44 x45 x46 x47
      x48 x49 x50 x51 x52 x53 x54 x55 x56 x57 x58 x59 x60 x61) := ⟨(h.setSpad hm).form⟩

theorem tidyCore_foldl {α : Type} {f : CoreState → α → CoreState} (hf : ∀ c a, TidyCore c → TidyCore (f c a)) {l : List α}
    {c : CoreState} (h : TidyCore c) : TidyCore (l.foldl f c) := foldl_keeps TidyCore f hf l c h

theorem TidyCore.setRows {c : CoreState} (h : TidyCore c) {m : Sparse Row} (hm : Sparse.wfFrom 0 0 m = true) :
    TidyCore { c with rows := m } := by
  rw [tidyCore_iff] at *
  exact ⟨h.1, h.2.1, hm, h.2.2.2⟩

theorem TidyCore.setMasks {c : CoreState} (h : TidyCore c) {m : Sparse (BitVec 128)} (hm : Sparse.wfFrom 0 0 m = true) :
    TidyCore { c with masks := m } := by
  rw [tidyCore_iff] at *
  simp_all only [and_self]

theorem TidyCore.wfMasks {c : CoreState} (h : TidyCore c) : Sparse.wfFrom 0 0 c.masks = true := by
  rw [tidyCore_iff] at h
  simp only [h]

theorem TidyCore.setKpreds {c : CoreState} (h : TidyCore c) {m : Sparse KPred} (hm : Sparse.wfFrom {} 0 m = true) :
    TidyCore { c with kpreds := m } := by
  rw [tidyCore_iff] at *
  simp_all only [and_self]

theorem TidyCore.wfKpreds {c : CoreState} (h : TidyCore c) : Sparse.wfFrom {} 0 c.kpreds = true := by
  rw [tidyCore_iff] at h
  simp only [h]

theorem TidyCore.setQps {c : CoreState} (h : TidyCore c) {m : Sparse Word} (hm : Sparse.wfFrom 0 0 m = true) :
    TidyCore { c with qps := m } := by
  rw [tidyCore_iff] at *
  simp_all only [and_self]

theorem TidyCore.wfQps {c : CoreState} (h : TidyCore c) : Sparse.wfFrom 0 0 c.qps = true := by
  rw [tidyCore_iff] at h
  simp only [h]

theorem TidyCore.setSlots {c : CoreState} (h : TidyCore c) {m : Sparse Slot} (hm : Sparse.wfFrom {} 0 m = true) :
    TidyCore { c with slots := m } := by
  rw [tidyCore_iff] at *
  simp_all only [and_self]

theorem TidyCore.wfSlots {c : CoreState} (h : TidyCore c) : Sparse.wfFrom {} 0 c.slots = true := by
  rw [tidyCore_iff] at h
  simp only [h]

theorem TidyCore.setTags {c : CoreState} (h : TidyCore c) {m : Sparse (BitVec 2)} (hm : Sparse.wfFrom 2 0 m = true) :
    TidyCore { c with tags := m } := by
  rw [tidyCore_iff] at *
  simp_all only [and_self]

theorem TidyCore.wfTags {c : CoreState} (h : TidyCore c) : Sparse.wfFrom 2 0 c.tags = true := by
  rw [tidyCore_iff] at h
  simp only [h]

theorem TidyCore.setCruc {c : CoreState} (h : TidyCore c) {m : Sparse Row} (hm : Sparse.wfFrom 0 0 m = true) :
    TidyCore { c with cruc := m } := by
  rw [tidyCore_iff] at *
  simp_all only [and_self]

theorem TidyCore.wfCruc {c : CoreState} (h : TidyCore c) : Sparse.wfFrom 0 0 c.cruc = true := by
  rw [tidyCore_iff] at h
  simp only [h]

theorem TidyCore.setSy {c : CoreState} (h : TidyCore c) {m : Sparse SyEntry} (hm : Sparse.wfFrom {} 0 m = true) :
    TidyCore { c with sy := m } := by
  rw [tidyCore_iff] at *
  simp_all only [and_self]

theorem TidyCore.wfSy {c : CoreState} (h : TidyCore c) : Sparse.wfFrom {} 0 c.sy = true := by
  rw [tidyCore_iff] at h
  simp only [h]

theorem TidyCore.setPm {c : CoreState} (h : TidyCore c) {m : Sparse Row} (hm : Sparse.wfFrom 0 0 m = true) :
    TidyCore { c with pm := m } := by
  rw [tidyCore_iff] at *
  simp_all only [and_self]

theorem TidyCore.wfPm {c : CoreState} (h : TidyCore c) : Sparse.wfFrom 0 0 c.pm = true := by
  rw [tidyCore_iff] at h
  simp only [h]

theorem TidyCore.setCb {c : CoreState} (h : TidyCore c) {m : Sparse Row} (hm : Sparse.wfFrom 0 0 m = true) :
    TidyCore { c with cb := m } := by
  rw [tidyCore_iff] at *
  simp_all only [and_self]

theorem TidyCore.wfCb {c : CoreState} (h : TidyCore c) : Sparse.wfFrom 0 0 c.cb = true := by
  rw [tidyCore_iff] at h
  simp only [h]

/-- Taking what falls due out of a core's queue touches no table. -/
theorem tidyCore_dueOf {c : CoreState} {cyc : Nat} {p : Effect → Bool} (h : TidyCore c) : TidyCore (dueOf c cyc p).2 := ⟨h.form⟩

theorem wf_tagsAfter {c : CoreState} {l : List Flight} (h : TidyCore c) : Sparse.wfFrom 2 0 (tagsAfter c l) = true := by
  unfold tagsAfter
  refine foldl_keeps (fun m => Sparse.wfFrom 2 0 m = true) _ (fun m t hm => ?_) _ _ h.wfTags
  dsimp only
  split
  · exact hm
  · exact wf_set0 hm

theorem tidy_setCell {s : State} {key : Nat} {m : CellMeta} (h : Tidy s) : Tidy (setCell s key m) := by
  rw [tidy_iff] at *
  exact ⟨h.1, wf_set0 h.2.1, h.2.2⟩

theorem wf_putRows (m : Sparse Row) (a : Nat) (l : List Row) (h : Sparse.wfFrom 0 0 m = true) :
    Sparse.wfFrom 0 0 (putRows m a l) = true := by
  induction l generalizing m a with
  | nil => exact h
  | cons v r ih => exact ih _ _ (wf_set0 h)

theorem wf_ringPut (m : Memory) (b : Nat) (ws : List Word) (h : Memory.wf m = true) : Memory.wf (ringPut m b ws) = true := by
  unfold ringPut
  dsimp only
  split
  · exact wf_writeNat _ _ _ _ h
  · refine wf_writeNat _ _ _ _ ?_
    exact foldl_keeps (fun m => Memory.wf m = true) _ (fun m i hm => wf_writeNat _ _ _ _ hm) _ _ h

theorem wf_writeRun (m : Memory) (a n : Nat) (l : List Nat) (h : Memory.wf m = true) : Memory.wf (writeRun' m a n l) = true := by
  induction l generalizing m a with
  | nil => exact h
  | cons v r ih => exact ih _ _ (wf_writeNat _ _ _ _ h)

end Sys2Proof.Laws
end

