-- ==== Sys2Proof/Laws/TidyOps.lean ====
section
/-! SUPPORT. The named operations keep the canonical form (Laws/Tidy.lean): the operations, the flags and the vector and compute meanings. -/

set_option Elab.async false

namespace Sys2Proof.Laws

open Sys2Proof Sys2Proof.Machine Sys2Proof.Claims

-- Machine/Ops.lean ------------------------------------------------------------

theorem tidy_addFlight {s : State} {k : Nat} {f : Flight} (h : Tidy s) : Tidy (addFlight s k f) := by
  unfold addFlight
  repeat' (first | (with_reducible first | assumption | refine tidy_modCore ?_ (fun c hc => ?_) | apply wf_set0 | apply TidyCore.empty) | dsimp only | split | with_reducible apply TidyCore.lit)

theorem tidy_hubWrite {s : State} {m : Memory} (h : Tidy s) (hm : Memory.wf m = true) : Tidy (hubWrite s m) := by
  unfold hubWrite
  split
  · exact h.setMem hm
  · exact h.setMem (foldl_keeps (fun m => Memory.wf m = true) _ (fun m a hm =>
      foldl_keeps (fun m => Memory.wf m = true) _ (fun m b hm => wf_write _ _ _ hm) _ _ hm) _ _ hm)

theorem tidy_traceRecord {s : State} {k : Nat} {ws : List Word} (h : Tidy s) : Tidy (traceRecord s k ws) := by
  unfold traceRecord
  repeat' (first | (with_reducible first | assumption | refine tidy_hubWrite ?_ ?_ | apply tidy_setCore | apply Tidy.core | apply wf_writeNat | refine foldl_keeps (fun m => Memory.wf m = true) _ (fun m a hm => ?_) _ _ ?_ | apply Tidy.mem | apply wf_set0 | apply TidyCore.empty) | dsimp only | split | with_reducible refine Tidy.setMem ?_ ?_ | with_reducible apply TidyCore.lit)

theorem tidy_waitLog {s : State} {k part : Nat} {eff clk pid lc : Nat} {c : Cause} (h : Tidy s) : Tidy (waitLog s k part eff clk pid lc c) := by
  unfold waitLog
  repeat' (first | (with_reducible first | assumption | refine tidy_hubWrite ?_ ?_ | apply wf_ringPut | apply Tidy.mem | apply wf_set0 | apply TidyCore.empty) | dsimp only | split | with_reducible refine Tidy.setMem ?_ ?_)

theorem tidy_faultLog {s : State} {pkg part rcb : Nat} {ws : List Word} (h : Tidy s) : Tidy (faultLog s pkg part rcb ws) := by
  unfold faultLog
  repeat' (first | (with_reducible first | assumption | refine tidy_hubWrite ?_ ?_ | apply tidy_modPart | refine tidy_foldl (fun s a h => ?_) ?_ | apply wf_writeNat | refine foldl_keeps (fun m => Memory.wf m = true) _ (fun m a hm => ?_) _ _ ?_ | apply Tidy.mem | apply wf_set0 | apply TidyCore.empty) | dsimp only | split | with_reducible refine Tidy.setMem ?_ ?_)

theorem tidy_raiseCause {s : State} {pid : Nat} {c : Cause} (h : Tidy s) : Tidy (raiseCause s pid c) := by
  unfold raiseCause
  repeat' (first | (with_reducible first | assumption | apply tidy_modDom))

theorem tidy_raiseHold {s : State} {code lc : Nat} {agent : Agent} (h : Tidy s) : Tidy (raiseHold s code lc agent) := by
  unfold raiseHold
  repeat' (first | (with_reducible first | assumption | apply tidy_raiseCause))

theorem tidy_takeFaultFull {s : State} {k : Nat} {st : Stream} {station evt code cause : Nat} {detail : List Word} {prog : Nat} {w23 w24 : Word} (h : Tidy s) : Tidy (takeFaultFull s k st station evt code cause detail prog w23 w24) := by
  unfold takeFaultFull
  repeat' (first | (with_reducible first | assumption | apply tidy_modDom | apply tidy_raiseCause | refine tidy_modCore ?_ (fun c hc => ?_) | apply Tidy.core | apply wf_set0 | apply TidyCore.empty) | dsimp only | split | with_reducible apply TidyCore.lit)

theorem tidy_takeFault {s : State} {k : Nat} {st : Stream} {station evt code cause : Nat} {detail : List Word} (h : Tidy s) : Tidy (takeFault s k st station evt code cause detail) := by
  unfold takeFault
  repeat' (first | (with_reducible first | assumption | apply tidy_takeFaultFull))

theorem tidy_faultNow {s : State} {code cause : Nat} {detail : List Word} (h : Tidy s) : Tidy (faultNow s code cause detail) := by
  unfold faultNow
  repeat' (first | (with_reducible first | assumption | apply tidy_takeFault | apply wf_set0 | apply TidyCore.empty) | dsimp only | split | with_reducible apply TidyCore.lit | with_reducible apply Tidy.lit)

theorem tidyCore_enterHypervisor {c : CoreState} {next at' : Nat} {code : BitVec 16} (h : TidyCore c) : TidyCore (enterHypervisor c next at' code) := by
  unfold enterHypervisor
  repeat' (first | (with_reducible first | assumption | apply wf_set0 | apply TidyCore.empty) | dsimp only | split | with_reducible apply TidyCore.lit)

theorem tidyCore_leaveHypervisor {c : CoreState} (h : TidyCore c) : TidyCore (leaveHypervisor c) := by
  unfold leaveHypervisor
  repeat' (first | (with_reducible first | assumption | apply wf_set0 | apply TidyCore.empty) | dsimp only | split | with_reducible apply TidyCore.lit)

theorem tidy_beginCatchUp {s : State} {pid : Nat} {agent : Agent} (h : Tidy s) : Tidy (beginCatchUp s pid agent) := by
  unfold beginCatchUp
  repeat' (first | (with_reducible first | assumption | apply tidy_modDom | refine tidy_modCore ?_ (fun c hc => ?_) | refine tidy_foldl (fun s a h => ?_) ?_ | apply Tidy.core | apply wf_set0 | apply TidyCore.empty) | dsimp only | split | with_reducible apply TidyCore.lit)

theorem tidy_watchTest {s : State} {k : Nat} {st : Stream} {evt ring seq a n kind : Nat} (h : Tidy s) : Tidy (watchTest s k st evt ring seq a n kind) := by
  unfold watchTest
  repeat' (first | (with_reducible first | assumption | apply tidy_traceRecord | refine tidy_modCore ?_ (fun c hc => ?_) | apply Tidy.core | apply wf_set0 | apply TidyCore.empty) | dsimp only | split | with_reducible apply TidyCore.lit)

theorem tidy_rateUse {s : State} {k : Nat} {st : Stream} {station evt : Nat} (h : Tidy s) : Tidy (rateUse s k st station evt) := by
  unfold rateUse
  repeat' (first | (with_reducible first | assumption | apply tidy_setCore | apply tidyCore_countEvent | apply tidy_raiseCause | apply Tidy.core | apply wf_set0 | apply TidyCore.empty) | dsimp only | split | with_reducible apply TidyCore.lit)

theorem tidy_setClock {s : State} {p : Party} {v : List Nat} (h : Tidy s) : Tidy (setClock s p v) := by
  unfold setClock
  repeat' (first | (with_reducible first | assumption | apply wf_set0 | apply TidyCore.empty) | dsimp only | split | with_reducible apply TidyCore.lit | with_reducible apply Tidy.lit)

theorem tidy_tagBytes {s : State} {t : WriteTag} {key n : Nat} (h : Tidy s) : Tidy (tagBytes s t key n) := by
  unfold tagBytes
  repeat' (first | (with_reducible first | assumption | refine tidy_foldl (fun s a h => ?_) ?_ | apply wf_set0 | apply TidyCore.empty) | dsimp only | split | with_reducible apply TidyCore.lit | with_reducible apply Tidy.lit)

theorem tidy_noteWrite {s : State} {p : Party} {key n : Nat} (h : Tidy s) : Tidy (noteWrite s p key n) := by
  unfold noteWrite
  repeat' (first | (with_reducible first | assumption | apply tidy_setClock | apply tidy_tagBytes))

theorem tidy_observe {s : State} {p : Party} {ts : List WriteTag} (h : Tidy s) : Tidy (observe s p ts) := by
  unfold observe
  repeat' (first | (with_reducible first | assumption | apply wf_set0 | apply TidyCore.empty) | dsimp only | split | with_reducible apply TidyCore.lit | with_reducible apply Tidy.lit)

theorem tidy_noteRead {s : State} {p : Party} {key n : Nat} (h : Tidy s) : Tidy (noteRead s p key n) := by
  unfold noteRead
  repeat' (first | (with_reducible first | assumption | apply tidy_observe))

theorem tidy_mergeSeen {s : State} {p : Party} {t : Party → Bool} (h : Tidy s) : Tidy (mergeSeen s p t) := by
  unfold mergeSeen
  repeat' (first | (with_reducible first | assumption | apply tidy_setClock | refine tidy_foldl (fun s a h => ?_) ?_ | apply wf_set0 | apply TidyCore.empty) | dsimp only | split | with_reducible apply TidyCore.lit | with_reducible apply Tidy.lit)

theorem tidy_memStore {s : State} {key n en v : Nat} (h : Tidy s) : Tidy (memStore s key n en v) := by
  unfold memStore
  repeat' (first | (with_reducible first | assumption | refine tidy_foldl (fun s a h => ?_) ?_ | apply wf_writeMasked | refine foldl_keeps (fun m => Memory.wf m = true) _ (fun m a hm => ?_) _ _ ?_ | apply Tidy.mem | apply wf_set0 | apply TidyCore.empty) | dsimp only | split | with_reducible refine Tidy.setMem ?_ ?_)

-- Machine/Flags.lean ------------------------------------------------------------

theorem tidy_postFlags {s : State} {delay station : Nat} {eng : Stream} {v : Nat} (h : Tidy s) : Tidy (postFlags s delay station eng v) := by
  unfold postFlags
  repeat' (first | (with_reducible first | assumption | apply tidy_addFlight | apply wf_set0 | apply TidyCore.empty) | dsimp only | split)

-- Machine/Operands.lean ------------------------------------------------------------

theorem tidyOut_checked {s : State} {l : List (Bool × Nat)} {f : State → State} (h : Tidy s) (hf : ∀ s, Tidy s → Tidy (f s)) :
    TidyOut (checked s l f) := by
  unfold checked
  split
  · exact .next (tidy_faultNow h)
  · exact .next (hf _ h)

theorem tidy_vePost {s : State} {delay : Nat} {e : Effect} (h : Tidy s) : Tidy (vePost s delay e) := by
  unfold vePost
  repeat' (first | (with_reducible first | assumption | apply tidy_addFlight))

theorem tidy_postRow {s : State} {delay r : Nat} {t : Ty} {vals : List (Option Nat)} (h : Tidy s) : Tidy (postRow s delay r t vals) := by
  unfold postRow
  repeat' (first | (with_reducible first | assumption | apply tidy_vePost | apply wf_set0 | apply TidyCore.empty) | dsimp only | split)

theorem tidy_postRows {s : State} {delay : Nat} {t : Ty} {vals : List (Option Nat)} {r g : Nat} (h : Tidy s) :
    Tidy (postRows s delay t vals r g) := by
  induction g generalizing s vals r with
  | zero => exact h
  | succ g ih => exact ih (tidy_postRow h)

theorem tidy_postGroup {s : State} {delay vd : Nat} {t : Ty} {z : Bool} {p : VPred} {res : Nat → Nat × Flags} (h : Tidy s) :
    Tidy (postGroup s delay vd t z p res) := by
  unfold postGroup
  split
  · exact tidy_postFlags (tidy_postRows h)
  · exact h

theorem tidyOut_veLanes {s : State} {vd : VReg} {p : Prd} {z : Bool} {t : Ty} {needsFmt many : Bool} {rows : List VReg} {own : List (Bool × Nat)} {delay : Nat} {f : CoreState → Nat → Nat × Flags} (h : Tidy s) : TidyOut (veLanes s vd p z t needsFmt many rows own delay f) := by
  unfold veLanes
  repeat' (first | (with_reducible first | assumption | apply tidy_postGroup | apply Tidy.core | apply TidyOut.next | apply TidyOut.fault | apply TidyOut.refused | refine tidyOut_checked ?_ (fun s h => ?_)))

-- Machine/VecArith.lean ------------------------------------------------------------

theorem tidyOut_arith2 {o : VOps} {delay : Nat} {f : Nat → Nat → Nat → Nat → Nat × Flags} {s : State} (h : Tidy s) : TidyOut (arith2 o delay f s) := by
  unfold arith2
  repeat' (first | (with_reducible first | assumption | apply tidyOut_veLanes))

theorem tidyOut_arith3 {o : VOps} {delay : Nat} {f : Nat → Nat → Nat → Nat → Nat → Nat × Flags} {s : State} (h : Tidy s) : TidyOut (arith3 o delay f s) := by
  unfold arith3
  repeat' (first | (with_reducible first | assumption | apply tidyOut_veLanes))

theorem tidyOut_arith1 {o : VOps1} {delay : Nat} {f : Nat → Nat → Nat → Nat × Flags} {s : State} (h : Tidy s) : TidyOut (arith1 o delay f s) := by
  unfold arith1
  repeat' (first | (with_reducible first | assumption | apply tidyOut_veLanes))

theorem tidyOut_arithImm {o : VImm} {delay : Nat} {f : Nat → Nat → Nat → Nat → Nat × Flags} {s : State} (h : Tidy s) : TidyOut (arithImm o delay f s) := by
  unfold arithImm
  repeat' (first | (with_reducible first | assumption | apply tidyOut_veLanes))

theorem tidy_postCmp {s : State} {md : Nat} {t : Ty} {z : Bool} {p : VPred} {f : Nat → Bool × Flags} (h : Tidy s) : Tidy (postCmp s md t z p f) := by
  unfold postCmp
  repeat' (first | (with_reducible first | assumption | apply tidy_postFlags | apply tidy_vePost | apply wf_set0 | apply TidyCore.empty) | dsimp only | split)

theorem tidyOut_execVadd {o : VOps} {rm : Rm} {s : State} (h : Tidy s) : TidyOut (execVadd o rm s) := by
  unfold execVadd
  repeat' (first | (with_reducible first | assumption | apply tidyOut_arith2))

theorem tidyOut_execVsub {o : VOps} {rm : Rm} {s : State} (h : Tidy s) : TidyOut (execVsub o rm s) := by
  unfold execVsub
  repeat' (first | (with_reducible first | assumption | apply tidyOut_arith2))

theorem tidyOut_execVmul {o : VOps} {rm : Rm} {s : State} (h : Tidy s) : TidyOut (execVmul o rm s) := by
  unfold execVmul
  repeat' (first | (with_reducible first | assumption | apply tidyOut_arith2))

theorem tidyOut_execVfma {o : VOps} {rm : Rm} {s : State} (h : Tidy s) : TidyOut (execVfma o rm s) := by
  unfold execVfma
  repeat' (first | (with_reducible first | assumption | apply tidyOut_arith3))

theorem tidyOut_execVfms {o : VOps} {rm : Rm} {s : State} (h : Tidy s) : TidyOut (execVfms o rm s) := by
  unfold execVfms
  repeat' (first | (with_reducible first | assumption | apply tidyOut_arith3))

theorem tidyOut_execVneg {o : VOps1} {rm : Rm} {s : State} (h : Tidy s) : TidyOut (execVneg o rm s) := by
  unfold execVneg
  repeat' (first | (with_reducible first | assumption | apply tidyOut_arith1))

theorem tidyOut_execVabs {o : VOps1} {rm : Rm} {s : State} (h : Tidy s) : TidyOut (execVabs o rm s) := by
  unfold execVabs
  repeat' (first | (with_reducible first | assumption | apply tidyOut_arith1))

theorem tidyOut_execVmin {o : VOps} {rm : Rm} {s : State} (h : Tidy s) : TidyOut (execVmin o rm s) := by
  unfold execVmin
  repeat' (first | (with_reducible first | assumption | apply tidyOut_arith2))

theorem tidyOut_execVmax {o : VOps} {rm : Rm} {s : State} (h : Tidy s) : TidyOut (execVmax o rm s) := by
  unfold execVmax
  repeat' (first | (with_reducible first | assumption | apply tidyOut_arith2))

theorem tidyOut_execVdiv {o : VOps} {rm : Rm} {s : State} (h : Tidy s) : TidyOut (execVdiv o rm s) := by
  unfold execVdiv
  repeat' (first | (with_reducible first | assumption | apply tidyOut_arith2))

theorem tidyOut_execVsqrt {o : VOps1} {rm : Rm} {s : State} (h : Tidy s) : TidyOut (execVsqrt o rm s) := by
  unfold execVsqrt
  repeat' (first | (with_reducible first | assumption | apply tidyOut_arith1))

theorem tidyOut_execVrcp {o : VOps1} {rm : Rm} {s : State} (h : Tidy s) : TidyOut (execVrcp o rm s) := by
  unfold execVrcp
  repeat' (first | (with_reducible first | assumption | apply tidyOut_arith1))

theorem tidyOut_execVrsq {o : VOps1} {rm : Rm} {s : State} (h : Tidy s) : TidyOut (execVrsq o rm s) := by
  unfold execVrsq
  repeat' (first | (with_reducible first | assumption | apply tidyOut_arith1))

theorem tidyOut_execVcvt {o : VOps1} {src : Ty} {part : BitVec 3} {rm : Rm} {s : State} (h : Tidy s) : TidyOut (execVcvt o src part rm s) := by
  unfold execVcvt
  repeat' (first | (with_reducible first | assumption | apply tidy_postFlags | apply tidy_postRow | apply Tidy.core | apply TidyOut.next | apply TidyOut.fault | apply TidyOut.refused | refine tidyOut_checked ?_ (fun s h => ?_) | apply wf_set0 | apply TidyCore.empty) | dsimp only | split)

theorem tidyOut_execVcmp {md : BitVec 4} {va vb : VReg} {prd : Prd} {z : Bool} {ty : Ty} {cc : Cond} {s : State} (h : Tidy s) : TidyOut (execVcmp md va vb prd z ty cc s) := by
  unfold execVcmp
  repeat' (first | (with_reducible first | assumption | apply tidy_postCmp | apply Tidy.core | apply TidyOut.next | apply TidyOut.fault | apply TidyOut.refused | refine tidyOut_checked ?_ (fun s h => ?_)))

theorem tidyOut_execVsel {vd va vb : VReg} {m : BitVec 4} {ty : Ty} {s : State} (h : Tidy s) : TidyOut (execVsel vd va vb m ty s) := by
  unfold execVsel
  repeat' (first | (with_reducible first | assumption | apply tidy_postRow | apply Tidy.core | apply TidyOut.next | apply TidyOut.fault | apply TidyOut.refused | refine tidyOut_checked ?_ (fun s h => ?_) | apply wf_set0 | apply TidyCore.empty) | dsimp only | split)

theorem tidyOut_execVexp2 {o : VOps1} {s : State} (h : Tidy s) : TidyOut (execVexp2 o s) := by
  unfold execVexp2
  repeat' (first | (with_reducible first | assumption | apply tidyOut_arith1))

theorem tidyOut_execVlog2 {o : VOps1} {s : State} (h : Tidy s) : TidyOut (execVlog2 o s) := by
  unfold execVlog2
  repeat' (first | (with_reducible first | assumption | apply tidyOut_arith1))

theorem tidyOut_execVexp {o : VOps1} {s : State} (h : Tidy s) : TidyOut (execVexp o s) := by
  unfold execVexp
  repeat' (first | (with_reducible first | assumption | apply tidyOut_arith1))

theorem tidyOut_execVlog {o : VOps1} {s : State} (h : Tidy s) : TidyOut (execVlog o s) := by
  unfold execVlog
  repeat' (first | (with_reducible first | assumption | apply tidyOut_arith1))

theorem tidyOut_execVsinpi {o : VOps1} {s : State} (h : Tidy s) : TidyOut (execVsinpi o s) := by
  unfold execVsinpi
  repeat' (first | (with_reducible first | assumption | apply tidyOut_arith1))

theorem tidyOut_execVcospi {o : VOps1} {s : State} (h : Tidy s) : TidyOut (execVcospi o s) := by
  unfold execVcospi
  repeat' (first | (with_reducible first | assumption | apply tidyOut_arith1))

theorem tidyOut_execVtanh {o : VOps1} {s : State} (h : Tidy s) : TidyOut (execVtanh o s) := by
  unfold execVtanh
  repeat' (first | (with_reducible first | assumption | apply tidyOut_arith1))

theorem tidyOut_execVrand {vd : VReg} {prd : Prd} {z : Bool} {ty : Ty} {s : State} (h : Tidy s) : TidyOut (execVrand vd prd z ty s) := by
  unfold execVrand
  repeat' (first | (with_reducible first | assumption | apply tidyOut_veLanes))

theorem tidyOut_execVmov {o : VOps1} {s : State} (h : Tidy s) : TidyOut (execVmov o s) := by
  unfold execVmov
  repeat' (first | (with_reducible first | assumption | apply tidyOut_veLanes))

theorem tidyOut_execVimm {o : VImm} {s : State} (h : Tidy s) : TidyOut (execVimm o s) := by
  unfold execVimm
  repeat' (first | (with_reducible first | assumption | apply tidyOut_veLanes))

theorem tidyOut_execVaddImm {o : VImm} {rm : Rm} {s : State} (h : Tidy s) : TidyOut (execVaddImm o rm s) := by
  unfold execVaddImm
  repeat' (first | (with_reducible first | assumption | apply tidyOut_arithImm))

theorem tidyOut_execVmulImm {o : VImm} {rm : Rm} {s : State} (h : Tidy s) : TidyOut (execVmulImm o rm s) := by
  unfold execVmulImm
  repeat' (first | (with_reducible first | assumption | apply tidyOut_arithImm))

theorem tidyOut_execVminImm {o : VImm} {rm : Rm} {s : State} (h : Tidy s) : TidyOut (execVminImm o rm s) := by
  unfold execVminImm
  repeat' (first | (with_reducible first | assumption | apply tidyOut_arithImm))

theorem tidyOut_execVmaxImm {o : VImm} {rm : Rm} {s : State} (h : Tidy s) : TidyOut (execVmaxImm o rm s) := by
  unfold execVmaxImm
  repeat' (first | (with_reducible first | assumption | apply tidyOut_arithImm))

theorem tidyOut_execVcmpImm {o : VImm} {cc : Cond} {s : State} (h : Tidy s) : TidyOut (execVcmpImm o cc s) := by
  unfold execVcmpImm
  repeat' (first | (with_reducible first | assumption | apply tidy_postCmp | apply Tidy.core | apply TidyOut.next | apply TidyOut.fault | apply TidyOut.refused | refine tidyOut_checked ?_ (fun s h => ?_)))

-- Machine/VecBits.lean ------------------------------------------------------------

theorem tidyOut_bits2 {o : VOps} {delay : Nat} {f : Nat → Nat → Nat} {s : State} (h : Tidy s) : TidyOut (bits2 o delay f s) := by
  unfold bits2
  repeat' (first | (with_reducible first | assumption | apply tidyOut_veLanes))

theorem tidyOut_bits1 {o : VOps1} {delay : Nat} {f : Nat → Nat} {s : State} (h : Tidy s) : TidyOut (bits1 o delay f s) := by
  unfold bits1
  repeat' (first | (with_reducible first | assumption | apply tidyOut_veLanes))

theorem tidyOut_bitsImm {o : VImm} {f : Nat → Nat → Nat} {s : State} (h : Tidy s) : TidyOut (bitsImm o f s) := by
  unfold bitsImm
  repeat' (first | (with_reducible first | assumption | apply tidyOut_veLanes))

theorem tidyOut_execVand {o : VOps} {s : State} (h : Tidy s) : TidyOut (execVand o s) := by
  unfold execVand
  repeat' (first | (with_reducible first | assumption | apply tidyOut_bits2))

theorem tidyOut_execVor {o : VOps} {s : State} (h : Tidy s) : TidyOut (execVor o s) := by
  unfold execVor
  repeat' (first | (with_reducible first | assumption | apply tidyOut_bits2))

theorem tidyOut_execVxor {o : VOps} {s : State} (h : Tidy s) : TidyOut (execVxor o s) := by
  unfold execVxor
  repeat' (first | (with_reducible first | assumption | apply tidyOut_bits2))

theorem tidyOut_execVlog3 {o : VOps} {tt : BitVec 8} {s : State} (h : Tidy s) : TidyOut (execVlog3 o tt s) := by
  unfold execVlog3
  repeat' (first | (with_reducible first | assumption | apply tidyOut_veLanes))

theorem tidyOut_execVshl {o : VOps} {s : State} (h : Tidy s) : TidyOut (execVshl o s) := by
  unfold execVshl
  repeat' (first | (with_reducible first | assumption | apply tidyOut_bits2))

theorem tidyOut_execVshr {o : VOps} {s : State} (h : Tidy s) : TidyOut (execVshr o s) := by
  unfold execVshr
  repeat' (first | (with_reducible first | assumption | apply tidyOut_bits2))

theorem tidyOut_execVsar {o : VOps} {s : State} (h : Tidy s) : TidyOut (execVsar o s) := by
  unfold execVsar
  repeat' (first | (with_reducible first | assumption | apply tidyOut_bits2))

theorem tidyOut_execVfsh {o : VOps} {sh : BitVec 7} {s : State} (h : Tidy s) : TidyOut (execVfsh o sh s) := by
  unfold execVfsh
  repeat' (first | (with_reducible first | assumption | apply tidyOut_veLanes))

theorem tidyOut_execVpopc {o : VOps1} {s : State} (h : Tidy s) : TidyOut (execVpopc o s) := by
  unfold execVpopc
  repeat' (first | (with_reducible first | assumption | apply tidyOut_bits1))

theorem tidyOut_execVclz {o : VOps1} {s : State} (h : Tidy s) : TidyOut (execVclz o s) := by
  unfold execVclz
  repeat' (first | (with_reducible first | assumption | apply tidyOut_bits1))

theorem tidyOut_execVclmulLo {o : VOps} {s : State} (h : Tidy s) : TidyOut (execVclmulLo o s) := by
  unfold execVclmulLo
  repeat' (first | (with_reducible first | assumption | apply tidyOut_bits2))

theorem tidyOut_execVclmulHi {o : VOps} {s : State} (h : Tidy s) : TidyOut (execVclmulHi o s) := by
  unfold execVclmulHi
  repeat' (first | (with_reducible first | assumption | apply tidyOut_bits2))

theorem tidyOut_execVandImm {o : VImm} {s : State} (h : Tidy s) : TidyOut (execVandImm o s) := by
  unfold execVandImm
  repeat' (first | (with_reducible first | assumption | apply tidyOut_bitsImm))

theorem tidyOut_execVorImm {o : VImm} {s : State} (h : Tidy s) : TidyOut (execVorImm o s) := by
  unfold execVorImm
  repeat' (first | (with_reducible first | assumption | apply tidyOut_bitsImm))

theorem tidyOut_execVxorImm {o : VImm} {s : State} (h : Tidy s) : TidyOut (execVxorImm o s) := by
  unfold execVxorImm
  repeat' (first | (with_reducible first | assumption | apply tidyOut_bitsImm))

theorem tidyOut_execVshlImm {o : VImm} {s : State} (h : Tidy s) : TidyOut (execVshlImm o s) := by
  unfold execVshlImm
  repeat' (first | (with_reducible first | assumption | apply tidyOut_bitsImm))

theorem tidyOut_execVshrImm {o : VImm} {s : State} (h : Tidy s) : TidyOut (execVshrImm o s) := by
  unfold execVshrImm
  repeat' (first | (with_reducible first | assumption | apply tidyOut_bitsImm))

theorem tidyOut_execVsarImm {o : VImm} {s : State} (h : Tidy s) : TidyOut (execVsarImm o s) := by
  unfold execVsarImm
  repeat' (first | (with_reducible first | assumption | apply tidyOut_bitsImm))

-- Machine/VecCross.lean ------------------------------------------------------------

theorem tidyOut_execVperm {o : VOps} {s : State} (h : Tidy s) : TidyOut (execVperm o s) := by
  unfold execVperm
  repeat' (first | (with_reducible first | assumption | apply tidyOut_veLanes))

theorem tidyOut_execVbcst {o : VOps1} {lane : BitVec 7} {s : State} (h : Tidy s) : TidyOut (execVbcst o lane s) := by
  unfold execVbcst
  repeat' (first | (with_reducible first | assumption | apply tidyOut_veLanes))

theorem tidyOut_execViota {vd : VReg} {prd : Prd} {z : Bool} {ty : Ty} {s : State} (h : Tidy s) : TidyOut (execViota vd prd z ty s) := by
  unfold execViota
  repeat' (first | (with_reducible first | assumption | apply tidyOut_veLanes))

theorem tidyOut_reduce {o : VOps1} {f : Nat → Nat → List Nat → Nat × Flags} {s : State} (h : Tidy s) : TidyOut (reduce o f s) := by
  unfold reduce
  repeat' (first | (with_reducible first | assumption | apply tidy_postFlags | apply tidy_postRow | apply Tidy.core | apply TidyOut.next | apply TidyOut.fault | apply TidyOut.refused | refine tidyOut_checked ?_ (fun s h => ?_) | apply wf_set0 | apply TidyCore.empty) | dsimp only | split)

theorem tidyOut_execVredAdd {o : VOps1} {rm : Rm} {s : State} (h : Tidy s) : TidyOut (execVredAdd o rm s) := by
  unfold execVredAdd
  repeat' (first | (with_reducible first | assumption | apply tidyOut_reduce))

theorem tidyOut_execVredMin {o : VOps1} {rm : Rm} {s : State} (h : Tidy s) : TidyOut (execVredMin o rm s) := by
  unfold execVredMin
  repeat' (first | (with_reducible first | assumption | apply tidyOut_reduce))

theorem tidyOut_execVredMax {o : VOps1} {rm : Rm} {s : State} (h : Tidy s) : TidyOut (execVredMax o rm s) := by
  unfold execVredMax
  repeat' (first | (with_reducible first | assumption | apply tidyOut_reduce))

theorem tidyOut_scan {o : VOps1} {rm : Rm} {inc : Bool} {s : State} (h : Tidy s) : TidyOut (scan o rm inc s) := by
  unfold scan
  repeat' (first | (with_reducible first | assumption | apply tidyOut_veLanes))

theorem tidyOut_execVscanInc {o : VOps1} {rm : Rm} {s : State} (h : Tidy s) : TidyOut (execVscanInc o rm s) := by
  unfold execVscanInc
  repeat' (first | (with_reducible first | assumption | apply tidyOut_scan))

theorem tidyOut_execVscanExc {o : VOps1} {rm : Rm} {s : State} (h : Tidy s) : TidyOut (execVscanExc o rm s) := by
  unfold execVscanExc
  repeat' (first | (with_reducible first | assumption | apply tidyOut_scan))

theorem tidyOut_execVstep {vd va : VReg} {j k : BitVec 4} {ty : Ty} {dsc : Bool} {s : State} (h : Tidy s) : TidyOut (execVstep vd va j k ty dsc s) := by
  unfold execVstep
  refine tidyOut_checked h (fun s h => ?_)
  split
  · exact tidy_postRows h
  · exact h

theorem tidyOut_execVcmpr {o : VOps1} {s : State} (h : Tidy s) : TidyOut (execVcmpr o s) := by
  unfold execVcmpr
  repeat' (first | (with_reducible first | assumption | apply tidy_postRow | apply Tidy.core | apply TidyOut.next | apply TidyOut.fault | apply TidyOut.refused | refine tidyOut_checked ?_ (fun s h => ?_) | apply wf_set0 | apply TidyCore.empty) | dsimp only | split)

theorem tidy_postMask {s : State} {m : Nat} {v : BitVec 128} (h : Tidy s) : Tidy (postMask s m v) := by
  unfold postMask
  repeat' (first | (with_reducible first | assumption | apply tidy_vePost | apply wf_set0 | apply TidyCore.empty) | dsimp only | split)

theorem tidyOut_execMand {md ma mb : BitVec 4} {s : State} (h : Tidy s) : TidyOut (execMand md ma mb s) := by
  unfold execMand
  repeat' (first | (with_reducible first | assumption | apply tidy_postMask | apply Tidy.core | apply TidyOut.next))

theorem tidyOut_execMor {md ma mb : BitVec 4} {s : State} (h : Tidy s) : TidyOut (execMor md ma mb s) := by
  unfold execMor
  repeat' (first | (with_reducible first | assumption | apply tidy_postMask | apply Tidy.core | apply TidyOut.next))

theorem tidyOut_execMxor {md ma mb : BitVec 4} {s : State} (h : Tidy s) : TidyOut (execMxor md ma mb s) := by
  unfold execMxor
  repeat' (first | (with_reducible first | assumption | apply tidy_postMask | apply Tidy.core | apply TidyOut.next))

theorem tidyOut_execMnot {md ma : BitVec 4} {s : State} (h : Tidy s) : TidyOut (execMnot md ma s) := by
  unfold execMnot
  repeat' (first | (with_reducible first | assumption | apply tidy_postMask | apply Tidy.core | apply TidyOut.next))

theorem tidyOut_execMpop {vd : VReg} {ma : BitVec 4} {ty : Ty} {s : State} (h : Tidy s) : TidyOut (execMpop vd ma ty s) := by
  unfold execMpop
  repeat' (first | (with_reducible first | assumption | apply tidy_postRow | apply Tidy.core | apply TidyOut.next | apply TidyOut.fault | apply TidyOut.refused | apply wf_set0 | apply TidyCore.empty) | dsimp only | split)

theorem tidyOut_execKmsk {kd : BitVec 3} {ma : BitVec 4} {ty : Ty} {s : State} (h : Tidy s) : TidyOut (execKmsk kd ma ty s) := by
  unfold execKmsk
  repeat' (first | (with_reducible first | assumption | apply tidy_vePost | apply Tidy.core | apply TidyOut.next | apply TidyOut.fault | apply TidyOut.refused | apply wf_set0 | apply TidyCore.empty) | dsimp only | split)

theorem tidyOut_execKset {kd : BitVec 3} {imm : BitVec 16} {ty : Ty} {s : State} (h : Tidy s) : TidyOut (execKset kd imm ty s) := by
  unfold execKset
  repeat' (first | (with_reducible first | assumption | apply tidy_vePost | apply TidyOut.next | apply TidyOut.fault | apply TidyOut.refused | refine tidyOut_checked ?_ (fun s h => ?_) | apply wf_set0 | apply TidyCore.empty) | dsimp only | split)

-- Machine/Ce.lean ------------------------------------------------------------

theorem tidy_cePost {s : State} {delay : Nat} {e : Effect} (h : Tidy s) : Tidy (cePost s delay e) := by
  unfold cePost
  repeat' (first | (with_reducible first | assumption | apply tidy_addFlight))

theorem tidyOut_execMclm {ca : BitVec 5} {s : State} (h : Tidy s) : TidyOut (execMclm ca s) := by
  unfold execMclm
  repeat' (first | (with_reducible first | assumption | apply tidy_cePost | apply Tidy.core | apply TidyOut.next | apply TidyOut.fault | apply TidyOut.refused | refine tidyOut_checked ?_ (fun s h => ?_) | apply wf_set0 | apply TidyCore.empty) | dsimp only | split)

theorem tidyOut_execMrel {ca : BitVec 5} {s : State} (h : Tidy s) : TidyOut (execMrel ca s) := by
  unfold execMrel
  repeat' (first | (with_reducible first | assumption | apply tidy_cePost | apply Tidy.core | apply TidyOut.next | apply TidyOut.fault | apply TidyOut.refused | refine tidyOut_checked ?_ (fun s h => ?_) | apply wf_set0 | apply TidyCore.empty) | dsimp only | split)

theorem tidy_postTile {s : State} {delay t : Nat} {ev : TagEvent} {f : Nat → Row} (h : Tidy s) : Tidy (postTile s delay t ev f) := by
  unfold postTile
  repeat' (first | (with_reducible first | assumption | apply tidy_cePost | refine tidy_foldl (fun s a h => ?_) ?_))

theorem tidyOut_execMzero {td : BitVec 4} {s : State} (h : Tidy s) : TidyOut (execMzero td s) := by
  unfold execMzero
  repeat' (first | (with_reducible first | assumption | apply tidy_postTile | apply TidyOut.next | apply TidyOut.fault | apply TidyOut.refused | apply wf_set0 | apply TidyCore.empty) | dsimp only | split)

theorem tidyOut_execMtrn {td ts : BitVec 4} {s : State} (h : Tidy s) : TidyOut (execMtrn td ts s) := by
  unfold execMtrn
  repeat' (first | (with_reducible first | assumption | apply tidy_postTile | apply Tidy.core | apply TidyOut.next | apply TidyOut.fault | apply TidyOut.refused | apply wf_set0 | apply TidyCore.empty) | dsimp only | split)

theorem tidy_popWord {s : State} (h : Tidy s) : Tidy (popWord s) := by
  unfold popWord
  repeat' (first | (with_reducible first | assumption | apply tidyCore_countEvent | refine tidy_modCur ?_ (fun c hc => ?_) | apply wf_set0 | apply TidyCore.empty) | dsimp only | split | with_reducible apply TidyCore.lit)

theorem tidy_startMma {s : State} {o : MmaOps} {c : CoreState} {sel : Nat → List Nat} {tag : BitVec 2} (h : Tidy s) : Tidy (startMma s o c sel tag) := by
  unfold startMma
  repeat' (first | (with_reducible first | assumption | apply tidy_cePost))

theorem tidyOut_tileCommand {s : State} {o : MmaOps} {own : List (Bool × Nat)} {n8 : Nat} {sel : CoreState → Nat → List Nat} {tag : BitVec 2} (h : Tidy s) : TidyOut (tileCommand s o own n8 sel tag) := by
  unfold tileCommand
  repeat' (first | (with_reducible first | assumption | apply tidy_faultNow | apply tidy_popWord | apply tidy_startMma | apply Tidy.core | apply TidyOut.next | apply TidyOut.fault | apply TidyOut.refused | apply wf_set0 | apply TidyCore.empty) | dsimp only | split)

theorem tidyOut_execMma {o : MmaOps} {s : State} (h : Tidy s) : TidyOut (execMma o s) := by
  unfold execMma
  repeat' (first | (with_reducible first | assumption | apply tidyOut_tileCommand))

theorem tidyOut_execMmas {o : MmaOps} {pm : BitVec 3} {keep4 : Bool} {s : State} (h : Tidy s) : TidyOut (execMmas o pm keep4 s) := by
  unfold execMmas
  repeat' (first | (with_reducible first | assumption | apply tidyOut_tileCommand))

theorem tidy_startJob {s : State} {kind : JobKind} {station run last : Nat} {lc : Option Nat} (h : Tidy s) : Tidy (startJob s kind station run last lc) := by
  unfold startJob
  repeat' (first | (with_reducible first | assumption | refine tidy_modCore ?_ (fun c hc => ?_) | apply Tidy.core | apply wf_set0 | apply TidyCore.empty) | dsimp only | split | with_reducible apply TidyCore.lit)

theorem tidyOut_execMlda {tile : BitVec 4} {sr : SReg} {blk : Blk} {run : Run} {s : State} (h : Tidy s) : TidyOut (execMlda tile sr blk run s) := by
  unfold execMlda
  repeat' (first | (with_reducible first | assumption | apply tidy_startJob | apply TidyOut.next | apply TidyOut.fault | apply TidyOut.refused | refine tidyOut_checked ?_ (fun s h => ?_)))

theorem tidyOut_execMsta {tile : BitVec 4} {sr : SReg} {blk : Blk} {run : Run} {s : State} (h : Tidy s) : TidyOut (execMsta tile sr blk run s) := by
  unfold execMsta
  repeat' (first | (with_reducible first | assumption | apply tidy_startJob | apply Tidy.core | apply TidyOut.next | apply TidyOut.fault | apply TidyOut.refused | refine tidyOut_checked ?_ (fun s h => ?_)))

theorem tidyOut_execOcon {row : VReg} {ya yb : BitVec 4} {t : Ty} {s : State} (h : Tidy s) : TidyOut (execOcon row ya yb t s) := by
  unfold execOcon
  repeat' (first | (with_reducible first | assumption | apply tidy_faultNow | apply tidy_startJob | apply Tidy.core | apply TidyOut.next | apply TidyOut.fault | apply TidyOut.refused | apply wf_set0 | apply TidyCore.empty) | dsimp only | split)

theorem tidy_deadEnd {s : State} (h : Tidy s) : Tidy (deadEnd s) := by
  unfold deadEnd
  repeat' (first | (with_reducible first | assumption | apply wf_set0 | apply TidyCore.empty) | dsimp only | split | with_reducible apply TidyCore.lit | with_reducible apply Tidy.lit)

theorem tidy_watchNow {s : State} {a n kind : Nat} (h : Tidy s) : Tidy (watchNow s a n kind) := by
  unfold watchNow
  repeat' (first | (with_reducible first | assumption | apply tidy_watchTest))

theorem tidy_requestNow {s : State} {n : Nat} (h : Tidy s) : Tidy (requestNow s n) := by
  unfold requestNow
  repeat' (first | (with_reducible first | assumption | apply tidy_rateUse))

theorem tidyOut_withOconCell {s : State} {a : Nat} {f : Nat → State → State} (h : Tidy s) (hf : ∀ key s, Tidy s → Tidy (f key s)) :
    TidyOut (withOconCell s a f) := by
  unfold withOconCell
  split
  · dsimp only
    split
    · exact .next (hf _ _ (tidy_requestNow (tidy_watchNow h)))
    · exact .next (tidy_faultNow (tidy_watchNow h))
    · exact .next (tidy_deadEnd (tidy_watchNow h))
  · exact .next (tidy_faultNow h)

theorem tidyOut_execOconp {ya yb : BitVec 4} {sr : SReg} {t : Ty} {s : State} (h : Tidy s) : TidyOut (execOconp ya yb sr t s) := by
  unfold execOconp
  repeat' (first | (with_reducible first | assumption | apply tidy_faultNow | apply tidy_startJob | apply Tidy.core | apply TidyOut.next | apply TidyOut.fault | apply TidyOut.refused | refine tidyOut_withOconCell ?_ (fun key s h => ?_) | apply wf_set0 | apply TidyCore.empty) | dsimp only | split)

end Sys2Proof.Laws
end

