-- ==== Sys2Proof/Laws/TidyLanding.lean ====
section
/-! SUPPORT. The named operations keep the canonical form (Laws/Tidy.lean): landings and commands in progress. -/

set_option Elab.async false

namespace Sys2Proof.Laws

open Sys2Proof Sys2Proof.Machine Sys2Proof.Claims

-- Machine/Landing.lean ------------------------------------------------------------

theorem tidy_listWrite {s : State} {k : Nat} {f : Flight} {slot : Nat} {e : RangeEntry} {sub : Nat} (h : Tidy s) : Tidy (listWrite s k f slot e sub) := by
  unfold listWrite
  repeat' (first | (with_reducible first | assumption | apply tidy_addFlight | apply wf_set0 | apply TidyCore.empty) | dsimp only | split)

theorem tidyCore_sysWrite {c : CoreState} {n : Nat} {v : Word} (h : TidyCore c) : TidyCore (sysWrite c n v) := by
  unfold sysWrite
  repeat' (first | (with_reducible first | assumption | apply wf_set0 | apply TidyCore.empty) | dsimp only | split | with_reducible apply TidyCore.lit)

theorem tidy_countDone {s : State} {k : Nat} {st : Stream} {lc : Option Nat} {n : Nat} (h : Tidy s) : Tidy (countDone s k st lc n) := by
  unfold countDone
  repeat' (first | (with_reducible first | assumption | apply tidyCore_setLc | refine tidy_modCore ?_ (fun c hc => ?_) | apply wf_set0 | apply TidyCore.empty) | dsimp only | split)

theorem tidy_lateFault {s : State} {k : Nat} {f : Flight} {code cause : Nat} {detail : List Word} {prog : Nat} (h : Tidy s) : Tidy (lateFault s k f code cause detail prog) := by
  unfold lateFault
  repeat' (first | (with_reducible first | assumption | apply tidy_takeFaultFull))

theorem tidy_applyLocal {s : State} {k : Nat} {f : Flight} (h : Tidy s) : Tidy (applyLocal s k f) := by
  unfold applyLocal
  cases f.eff with
  | sreg => exact tidy_modCore h fun c hc => tidyCore_sput hc
  | spad => exact tidy_countDone (tidy_modCore h fun c hc => ⟨(hc.setSpad (wf_writeMasked _ _ _ _ _ hc.wfSpad)).form⟩)
  | row => exact tidy_modCore h fun c hc => tidyCore_setRow hc
  | mask => exact tidy_modCore h fun c hc => hc.setMasks (wf_set0 hc.wfMasks)
  | kpred => exact tidy_modCore h fun c hc => hc.setKpreds (wf_set0 hc.wfKpreds)
  | qp => exact tidy_modCore h fun c hc => hc.setQps (wf_set0 hc.wfQps)
  | slotSt => exact tidy_modCore h fun c hc => hc.setSlots (wf_set0 hc.wfSlots)
  | pmRows => exact tidy_modCore h fun c hc => hc.setPm (wf_putRows _ _ _ hc.wfPm)
  | cbRows => exact tidy_modCore h fun c hc => hc.setCb (wf_putRows _ _ _ hc.wfCb)
  | fqAppend => exact tidy_modCore h fun c hc => ⟨hc.form⟩
  | lcset => exact tidy_modCore ⟨h.form⟩ fun c hc => tidyCore_setLc hc
  | sysreg => exact tidy_modCore h fun c hc => tidyCore_sysWrite hc
  | flags => exact tidy_modCore h fun c hc => tidyCore_stickFlags hc
  | symForce => exact tidy_modCore h fun c hc => ⟨hc.form⟩
  | watchAdd => exact tidy_modCore h fun c hc => ⟨hc.form⟩
  | watchClr => exact tidy_modCore h fun c hc => ⟨hc.form⟩
  | yload =>
    dsimp only
    split
    · exact tidy_modCore h fun c hc => hc.setSy (wf_set0 hc.wfSy)
    · exact tidy_lateFault h
  | rload =>
    dsimp only
    split
    · exact tidy_lateFault h
    · exact tidy_modCore h fun c hc => tidyCore_setRange hc
  | rsplit => exact tidy_listWrite (tidy_listWrite (tidy_modCore h fun c hc => tidyCore_setRange (tidyCore_setRange hc)))
  | rmerge => exact tidy_listWrite (tidy_listWrite (tidy_modCore h fun c hc => tidyCore_setRange (tidyCore_setRange hc)))
  | raise => exact tidy_takeFaultFull h
  | _ => exact h

theorem tidy_pairFault {s : State} {k : Nat} {f : Flight} {other : List Flight} (h : Tidy s) : Tidy (pairFault s k f other) := by
  unfold pairFault
  repeat' (first | (with_reducible first | assumption | apply tidy_addFlight | apply tidy_lateFault))

theorem tidy_landResults {s : State} {k : Nat} {partner : Option (List Flight)} (h : Tidy s) : Tidy (landResults s k partner) := by
  unfold landResults
  dsimp only
  have r : ∀ {s : State} {p : Prop} [Decidable p], Tidy s → Tidy (if p then modCore s k (fun c => { c with collision := true }) else s) := by
    intro s p _ h
    split
    · exact tidy_modCore h fun c hc => ⟨hc.form⟩
    · exact h
  refine tidy_foldl (fun s f h => tidy_pairFault h) (tidy_foldl (fun s f h => tidy_lateFault h)
    (r (tidy_foldl (fun s f h => tidy_applyLocal h) (tidy_setCore h ?_))))
  exact ⟨((tidyCore_dueOf (h.core k)).setTags (wf_tagsAfter (tidyCore_dueOf (h.core k)))).form⟩

theorem tidy_applyFill {s : State} {k : Nat} {f : Flight} (h : Tidy s) : Tidy (applyFill s k f) := by
  unfold applyFill
  split
  · split
    · exact tidy_modCore h fun c hc => (hc.setSlots (wf_set0 hc.wfSlots)).setCruc (wf_putRows _ _ _ hc.wfCruc)
    · exact tidy_lateFault h
  · exact h

theorem tidy_landFills {s : State} {k : Nat} {partner : Option (List Flight)} (h : Tidy s) : Tidy (landFills s k partner) := by
  unfold landFills
  dsimp only
  exact tidy_foldl (fun s f h => tidy_pairFault h) (tidy_foldl (fun s f h => tidy_applyFill h)
    (tidy_setCore h (tidyCore_dueOf (h.core k))))

theorem tidy_sampleMma {s : State} {k : Nat} {f : Flight} (h : Tidy s) : Tidy (sampleMma s k f) := by
  unfold sampleMma
  repeat' (first | (with_reducible first | assumption | apply tidy_addFlight | refine tidy_foldl (fun s a h => ?_) ?_ | apply Tidy.core | apply wf_set0 | apply TidyCore.empty) | dsimp only | split)

theorem tidy_sampleLocal {s : State} {k : Nat} {f : Flight} (h : Tidy s) : Tidy (sampleLocal s k f) := by
  unfold sampleLocal
  repeat' (first | (with_reducible first | assumption | apply tidy_addFlight | apply tidy_sampleMma | apply Tidy.core | apply wf_set0 | apply TidyCore.empty) | dsimp only | split)

theorem tidy_sampleLocals {s : State} {k : Nat} (h : Tidy s) : Tidy (sampleLocals s k) := by
  unfold sampleLocals
  exact tidy_foldl (fun s f h => tidy_sampleLocal h) (tidy_setCore h (tidyCore_dueOf (h.core k)))

theorem tidy_inCycle {s : State} {pid : Nat} {f : State → Domain → State} (h : Tidy s) (hf : ∀ s d, Tidy s → Tidy (f s d)) :
    Tidy (inCycle s pid f) := by
  unfold inCycle
  split
  · split
    · exact hf _ _ h
    · exact h
  · exact h

theorem tidy_takeDue {s : State} {d : Domain} {k : Nat} {p : Effect → Bool} (h : Tidy s) : Tidy (takeDue s d k p).2 := by
  have h1 : ∀ {s : State} {k : Nat}, Tidy s → Tidy (setCore s k (dueOf (getCore s k) d.dcc p).2) :=
    fun h => tidy_setCore h (tidyCore_dueOf (h.core _))
  unfold takeDue
  split
  · dsimp only
    split
    · exact h1 h
    · exact h1 (h1 h)
  · exact h

theorem tidy_takeDueAll {s : State} {d : Domain} {p : Effect → Bool} (h : Tidy s) : Tidy (takeDueAll s d p).2 :=
  foldl_keeps (fun a : List (Nat × Flight) × State => Tidy a.2) _ (fun _ _ hb => tidy_takeDue hb) _ _ h

theorem tidy_addBoth {s : State} {d : Domain} {k : Nat} {f : Flight} (h : Tidy s) : Tidy (addBoth s d k f) := by
  unfold addBoth
  repeat' (first | (with_reducible first | assumption | apply tidy_addFlight | refine tidy_foldl (fun s a h => ?_) ?_))

theorem tidy_storeAtom {s : State} {k : Nat} {f : Flight} (h : Tidy s) : Tidy (storeAtom s k f) := by
  unfold storeAtom
  split
  · exact tidy_tagBytes (tidy_memStore h)
  · exact h

theorem tidy_landHeld {s : State} {k key : Nat} (h : Tidy s) : Tidy (landHeld s k key) := by
  exact tidy_foldl (fun s f h => tidy_storeAtom h) (tidy_modCore h fun c hc => ⟨hc.form⟩)

theorem tidy_addToCell {s : State} {key : Nat} {c : Option Int} (h : Tidy s) : Tidy (addToCell s key c) := by
  unfold addToCell
  repeat' (first | (with_reducible first | assumption | apply tidy_setCell | refine tidy_foldl (fun s a h => ?_) ?_ | apply wf_writeNat | refine foldl_keeps (fun m => Memory.wf m = true) _ (fun m a hm => ?_) _ _ ?_ | apply Tidy.mem | apply wf_set0 | apply TidyCore.empty) | dsimp only | split | with_reducible refine Tidy.setMem ?_ ?_)

theorem tidyCore_fillJob {c : CoreState} {st : Stream} {seq p n v : Nat} (h : TidyCore c) : TidyCore (fillJob c st seq p n v) := by
  unfold fillJob
  repeat' (first | (with_reducible first | assumption | apply wf_writeNat | refine foldl_keeps (fun m => Memory.wf m = true) _ (fun m a hm => ?_) _ _ ?_ | apply Tidy.mem | apply wf_set0 | apply TidyCore.empty) | dsimp only | split | with_reducible apply TidyCore.lit)

theorem tidy_useSample {s : State} {k : Nat} {f : Flight} {n v : Nat} {u : Then} (h : Tidy s) : Tidy (useSample s k f n v u) := by
  unfold useSample
  repeat' (first | (with_reducible first | assumption | apply tidy_addFlight | apply tidyCore_fillJob | refine tidy_modCore ?_ (fun c hc => ?_) | apply wf_set0 | apply TidyCore.empty) | dsimp only | split)

theorem tidy_ownSide {s : State} {k : Nat} {f : Flight} {v : Nat} (h : Tidy s) : Tidy (ownSide s k f v) := by
  unfold ownSide
  repeat' (first | (with_reducible first | assumption | apply tidyCore_stickFlags | apply tidy_addFlight | apply tidy_countDone | apply tidy_useSample | refine tidy_modCore ?_ (fun c hc => ?_) | apply wf_set0 | apply TidyCore.empty) | dsimp only | split | with_reducible apply TidyCore.lit)

theorem tidy_atomWord {s : State} {p : Party} {key : Nat} (h : Tidy s) : Tidy (atomWord s p key).2 := by
  exact tidy_noteRead (tidy_foldl (fun s k h => tidy_landHeld h) h)

theorem tidy_atomSample {s : State} {p : Party} {key : Nat} {op : AtomOp} (h : Tidy s) : Tidy (atomSample s p key op).2.2.2 := by
  unfold atomSample
  have q := @tidy_atomWord s p key h
  exact ⟨(tidy_setClock (p := p) (v := nextClock (atomWord s p key).2 p key) q).form⟩

theorem tidy_memSide {s : State} {k : Nat} {f : Flight} (h : Tidy s) : Tidy (memSide s k f).1 := by
  unfold memSide
  split
  · exact tidy_noteWrite (tidy_memStore h)
  · exact tidy_storeAtom h
  · exact tidy_addFlight (tidy_atomSample h)
  · exact tidy_noteWrite (tidy_memStore (tidy_foldl (fun s a h => tidy_setCell h) h))
  · exact tidy_addToCell (tidy_noteWrite h)
  · exact tidy_addToCell (tidy_noteWrite h)
  · exact tidy_noteRead h
  · exact tidy_noteRead h
  · exact h

theorem tidy_settle {s : State} {d : Domain} {k clash : Nat} {f : Flight} (h : Tidy s) : Tidy (settle s d k f clash) := by
  have own : ∀ {s : State} {v : Nat}, Tidy s → Tidy ((bothOf d k).foldl (fun s q => ownSide s q f v) s) :=
    fun h => tidy_foldl (fun s q h => tidy_ownSide h) h
  unfold settle
  split
  · exact own h
  · dsimp only
    split
    · exact own (tidy_memSide h)
    · refine tidy_foldl (fun s q h => ?_) (tidy_memSide h)
      exact tidy_modCore h fun c hc => ⟨hc.form⟩

theorem tidy_landMemWrites {s : State} {d : Domain} (h : Tidy s) : Tidy (landMemWrites s d) := by
  unfold landMemWrites
  dsimp only
  exact tidy_foldl (fun s x h => tidy_settle h) (tidy_takeDueAll h)

theorem tidy_landCellInits {s : State} {d : Domain} (h : Tidy s) : Tidy (landCellInits s d) := by
  unfold landCellInits
  dsimp only
  exact tidy_foldl (fun s x h => tidy_settle h) (tidy_takeDueAll h)

theorem tidy_landCellAdds {s : State} {d : Domain} (h : Tidy s) : Tidy (landCellAdds s d) := by
  unfold landCellAdds
  dsimp only
  exact tidy_foldl (fun s x h => tidy_settle h) (tidy_takeDueAll h)

-- Machine/Arrive.lean ------------------------------------------------------------

theorem tidy_memoryError {s : State} {k : Nat} {f : Flight} {key : Nat} (h : Tidy s) : Tidy (memoryError s k f key) := by
  unfold memoryError
  repeat' (first | (with_reducible first | assumption | apply tidy_takeFault | apply tidy_lateFault | refine tidy_foldl (fun s a h => ?_) ?_ | apply Tidy.core | apply wf_set0 | apply TidyCore.empty) | dsimp only | split)

theorem tidy_sampleDue {s : State} {d : Domain} {p : Effect → Bool} (h : Tidy s) : Tidy (sampleDue s d p) := by
  unfold sampleDue
  dsimp only
  refine tidy_foldl (fun s x h => ?_) (tidy_takeDueAll h)
  split
  · exact tidy_memoryError h
  · exact tidy_settle h

theorem tidy_sampleMemory {s : State} {d : Domain} (h : Tidy s) : Tidy (sampleMemory s d) := by
  exact tidy_sampleDue h

theorem tidy_landAtoms {s : State} {d : Domain} (h : Tidy s) : Tidy (landAtoms s d) := by
  exact tidy_sampleDue h

theorem tidyCore_reduceBeat {c : CoreState} {t : Ty} {a : Nat} {v : Row} {mask : Nat} (h : TidyCore c) : TidyCore (reduceBeat c t a v mask) := by
  unfold reduceBeat
  dsimp only
  refine tidyCore_foldl (fun c e h => ?_) h
  split
  · exact tidyCore_stickFlags (h.setSpad (wf_writeNat _ _ _ _ h.wfSpad))
  · exact h

theorem tidy_applyBeat {s : State} {d : Domain} {k : Nat} {f : Flight} (h : Tidy s) : Tidy (applyBeat s d k f) := by
  unfold applyBeat
  split
  · rename_i a v sender run he
    dsimp only
    split
    · exact tidy_takeFault h
    · have q := tidyCore_foldl (f := fun c (w : RWin) => match w.red with
          | some t => reduceBeat c t a v (insideMask a w.addr w.len) | none => c)
        (fun c w hc => by split; exacts [tidyCore_reduceBeat hc, hc])
        (l := (windowsOf (getCore s k) a).filter (fun w => w.red.isSome)) (c := { getCore s k with rwins := (getCore s k).rwins.map (fun w =>
            if (windowsOf (getCore s k) a).contains w then
              { w with count := w.count + countOnes (insideMask a w.addr w.len) 128 } else w) }) ⟨(h.core k).form⟩
      refine tidy_foldl (fun s q h => ?_) (tidy_setCore h (q.litSpad (wf_writeMasked _ _ _ _ _ q.wfSpad)))
      exact tidy_modCore h fun c hc => ⟨hc.form⟩
  · exact h

theorem tidy_landBeats {s : State} {d : Domain} {k : Nat} (h : Tidy s) : Tidy (landBeats s d k) := by
  unfold landBeats
  dsimp only
  exact tidy_foldl (fun s f h => tidy_applyBeat h) (tidy_setCore h (tidyCore_dueOf (h.core k)))

theorem tidy_closeWindows {s : State} {k : Nat} (h : Tidy s) : Tidy (closeWindows s k) := by
  unfold closeWindows
  repeat' (first | (with_reducible first | assumption | apply tidy_setCore | apply tidy_takeFault | refine tidy_foldl (fun s a h => ?_) ?_ | apply Tidy.core | apply wf_set0 | apply TidyCore.empty) | dsimp only | split | with_reducible apply TidyCore.lit)

theorem tidyCore_editTable {f : RangeEntry → RangeEntry} {c : CoreState} (h : TidyCore c) : TidyCore (editTable f c) := by
  unfold editTable
  repeat' (first | (with_reducible first | assumption | apply wf_set0 | apply TidyCore.empty) | dsimp only | split | with_reducible apply TidyCore.lit)

theorem tidyCore_applyReach {c : CoreState} {e : Effect} (h : TidyCore c) : TidyCore (applyReach c e) := by
  unfold applyReach
  repeat' (first | (with_reducible first | assumption | apply tidyCore_editTable | apply wf_set0 | apply TidyCore.empty) | dsimp only | split | with_reducible apply TidyCore.lit)

theorem tidy_reachRanges {s : State} {k : Nat} (h : Tidy s) : Tidy (reachRanges s k) := by
  unfold reachRanges
  dsimp only
  exact tidy_setCore h (tidyCore_foldl (fun c f hc => tidyCore_applyReach hc)
    (tidyCore_dueOf (tidyCore_dueOf (tidyCore_dueOf (h.core k)))))

-- Machine/Jobs.lean ------------------------------------------------------------

theorem tidy_jobPost {s : State} {k : Nat} {j : Job} {t sub : Nat} {e : Effect} (h : Tidy s) : Tidy (jobPost s k j t sub e) := by
  unfold jobPost
  repeat' (first | (with_reducible first | assumption | apply tidy_addFlight))

theorem tidy_jobFlags {s : State} {k : Nat} {j : Job} {t sub : Nat} {eng : Stream} {fl : Flags} (h : Tidy s) : Tidy (jobFlags s k j t sub eng fl) := by
  unfold jobFlags
  repeat' (first | (with_reducible first | assumption | apply tidy_jobPost | apply wf_set0 | apply TidyCore.empty) | dsimp only | split)

theorem tidyRes_request {s : State} {k : Nat} {j : Job} {A n align : Nat} {perms : List Nat} {kind prog : Nat} {f : Nat → State → JobRes}
    (h : Tidy s) (hf : ∀ key s, Tidy s → TidyRes (f key s)) : TidyRes (request s k j A n align perms kind prog f) := by
  unfold request
  split
  · have q := tidy_watchTest (k := k) (st := j.stream) (evt := j.evt) (ring := j.ring) (seq := j.seq) (a := A) (n := n) (kind := kind) h
    dsimp only
    split
    · exact hf _ _ (tidy_rateUse q)
    · exact .fault q
    · exact .ok (tidy_deadEnd q)
  · exact .fault h

theorem tidyRes_cpldRequest {s : State} {k : Nat} {j : Job} {m : MoveShape} {t : Nat} (h : Tidy s) : TidyRes (cpldRequest s k j m t) := by
  unfold cpldRequest
  repeat' (first | (with_reducible first | assumption | apply tidy_jobPost | apply TidyRes.ok | apply TidyRes.fault | refine tidyRes_request ?_ (fun key s h => ?_) | apply wf_set0 | apply TidyCore.empty) | dsimp only | split)

theorem tidyRes_cpstSample {s : State} {k : Nat} {j : Job} {m : MoveShape} {t : Nat} (h : Tidy s) : TidyRes (cpstSample s k j m t) := by
  unfold cpstSample
  repeat' (first | (with_reducible first | assumption | apply tidy_jobPost | apply TidyRes.ok | apply TidyRes.fault | apply wf_set0 | apply TidyCore.empty) | dsimp only | split)

theorem tidyRes_cpstRequest {s : State} {k : Nat} {j : Job} {m : MoveShape} {t : Nat} (h : Tidy s) : TidyRes (cpstRequest s k j m t) := by
  unfold cpstRequest
  repeat' (first | (with_reducible first | assumption | apply TidyRes.ok | apply TidyRes.fault | refine tidyRes_request ?_ (fun key s h => ?_) | apply wf_set0 | apply TidyCore.empty) | dsimp only | split)

theorem tidyRes_cpmovCycle {s : State} {k : Nat} {j : Job} {m : MoveShape} {t : Nat} (h : Tidy s) : TidyRes (cpmovCycle s k j m t) := by
  unfold cpmovCycle
  repeat' (first | (with_reducible first | assumption | apply tidy_jobPost | apply TidyRes.ok | apply TidyRes.fault | apply wf_set0 | apply TidyCore.empty) | dsimp only | split)

theorem tidyRes_cpsetCycle {s : State} {k : Nat} {j : Job} {m : MoveShape} {p : Word} {t : Nat} (h : Tidy s) : TidyRes (cpsetCycle s k j m p t) := by
  unfold cpsetCycle
  repeat' (first | (with_reducible first | assumption | apply tidy_jobPost | apply TidyRes.ok | apply TidyRes.fault | apply wf_set0 | apply TidyCore.empty) | dsimp only | split)

theorem tidyRes_cpsetRequest {s : State} {k : Nat} {j : Job} {m : MoveShape} {p : Word} {t : Nat} (h : Tidy s) : TidyRes (cpsetRequest s k j m p t) := by
  unfold cpsetRequest
  repeat' (first | (with_reducible first | assumption | apply tidy_jobPost | apply TidyRes.ok | apply TidyRes.fault | refine tidyRes_request ?_ (fun key s h => ?_) | apply wf_set0 | apply TidyCore.empty) | dsimp only | split)

theorem tidyRes_castDecode {s : State} {k : Nat} {j : Job} {dst E B first t : Nat} (h : Tidy s) : TidyRes (castDecode s k j dst E B first t) := by
  unfold castDecode
  repeat' (first | (with_reducible first | assumption | apply tidyCore_countEvent | apply tidy_jobPost | apply tidy_addFlight | refine tidy_modCore ?_ (fun c hc => ?_) | refine tidy_foldl (fun s a h => ?_) ?_ | apply TidyRes.ok | apply TidyRes.fault | apply wf_set0 | apply TidyCore.empty) | dsimp only | split)

theorem tidyRes_castRequest {s : State} {k : Nat} {j : Job} {src B t : Nat} (h : Tidy s) : TidyRes (castRequest s k j src B t) := by
  unfold castRequest
  repeat' (first | (with_reducible first | assumption | apply tidy_jobPost | apply TidyRes.ok | apply TidyRes.fault | refine tidyRes_request ?_ (fun key s h => ?_) | apply wf_set0 | apply TidyCore.empty) | dsimp only | split)

theorem tidyRes_castCycle {s : State} {k : Nat} {j : Job} {src dst E B : Nat} {mem : Bool} {t : Nat} (h : Tidy s) : TidyRes (castCycle s k j src dst E B mem t) := by
  unfold castCycle
  repeat' (first | (with_reducible first | assumption | apply tidyRes_castDecode))

theorem tidyRes_gatherCycle {s : State} {k : Nat} {j : Job} {src dst idx n : Nat} {ty : Ty} {mem : Bool} {t : Nat} (h : Tidy s) : TidyRes (gatherCycle s k j src dst idx n ty mem t) := by
  unfold gatherCycle
  repeat' (first | (with_reducible first | assumption | apply tidy_jobPost | apply TidyRes.ok | apply TidyRes.fault | apply wf_set0 | apply TidyCore.empty) | dsimp only | split)

theorem tidyRes_gatherRequest {s : State} {k : Nat} {j : Job} {src dst n : Nat} {ty : Ty} {t : Nat} (h : Tidy s) : TidyRes (gatherRequest s k j src dst n ty t) := by
  unfold gatherRequest
  repeat' (first | (with_reducible first | assumption | apply tidy_jobPost | apply TidyRes.ok | apply TidyRes.fault | refine tidyRes_request ?_ (fun key s h => ?_) | apply wf_set0 | apply TidyCore.empty) | dsimp only | split)

theorem tidyRes_gatherSyCycle {s : State} {k : Nat} {j : Job} {dst idx n : Nat} {d : BitVec 512} {t : Nat} (h : Tidy s) : TidyRes (gatherSyCycle s k j dst idx n d t) := by
  unfold gatherSyCycle
  repeat' (first | (with_reducible first | assumption | apply tidy_jobPost | apply tidy_jobFlags | apply TidyRes.ok | apply TidyRes.fault | apply wf_set0 | apply TidyCore.empty) | dsimp only | split)

theorem tidyRes_gatherSyRequest {s : State} {k : Nat} {j : Job} {dst n : Nat} {d : BitVec 512} {t : Nat} (h : Tidy s) : TidyRes (gatherSyRequest s k j dst n d t) := by
  unfold gatherSyRequest
  repeat' (first | (with_reducible first | assumption | apply tidy_jobPost | apply TidyRes.ok | apply TidyRes.fault | refine tidyRes_request ?_ (fun key s h => ?_) | apply wf_set0 | apply TidyCore.empty) | dsimp only | split)

theorem tidyRes_scatterCycle {s : State} {k : Nat} {j : Job} {src dst idx n : Nat} {ty : Ty} {mem comb : Bool} {t : Nat} (h : Tidy s) : TidyRes (scatterCycle s k j src dst idx n ty mem comb t) := by
  unfold scatterCycle
  repeat' (first | (with_reducible first | assumption | apply tidy_jobPost | apply tidy_jobFlags | apply Tidy.core | apply TidyRes.ok | apply TidyRes.fault | apply wf_set0 | apply TidyCore.empty) | dsimp only | split)

theorem tidyRes_scatterRequest {s : State} {k : Nat} {j : Job} {dst n : Nat} {ty : Ty} {comb : Bool} {t : Nat} (h : Tidy s) : TidyRes (scatterRequest s k j dst n ty comb t) := by
  unfold scatterRequest
  repeat' (first | (with_reducible first | assumption | apply tidy_jobPost | apply tidy_jobFlags | apply TidyRes.ok | apply TidyRes.fault | refine tidyRes_request ?_ (fun key s h => ?_) | apply wf_set0 | apply TidyCore.empty) | dsimp only | split)

theorem tidy_landItem {s : State} {k : Nat} {j : Job} {land q : Nat} {it : FoldItem} {e : Effect} (h : Tidy s) :
    Tidy (landItem s k j land q it e) := tidy_jobFlags (tidy_jobPost h)

theorem tidy_groupStore {s : State} {k : Nat} {j : Job} {y : Nat} {d : BitVec 512} {implies : Bool} {ms : List (Member × Flags)} {land : Nat}
    (h : Tidy s) : Tidy (groupStore s k j y d implies ms land).1 := by
  unfold groupStore
  split
  · exact tidy_jobPost h
  · dsimp only
    split <;> split
    all_goals first | exact tidy_foldl (fun s a h => tidy_landItem h) (tidy_jobPost h) | exact tidy_foldl (fun s a h => tidy_landItem h) h | exact tidy_jobPost h | exact h

theorem tidyRes_requestItems {s : State} {k : Nat} {j : Job} {d : BitVec 512} {land look t : Nat} (h : Tidy s) : TidyRes (requestItems s k j d land look t) := by
  unfold requestItems
  repeat' (first | (with_reducible first | assumption | apply tidy_landItem | apply TidyRes.ok | apply TidyRes.fault | refine tidyRes_request ?_ (fun key s h => ?_) | apply wf_set0 | apply TidyCore.empty) | dsimp only | split)

theorem tidyRes_scatterSyCycle {s : State} {k : Nat} {j : Job} {y src idx n : Nat} {d : BitVec 512} {comb : Bool} {t : Nat} (h : Tidy s) : TidyRes (scatterSyCycle s k j y src idx n d comb t) := by
  unfold scatterSyCycle
  repeat' (first | (with_reducible first | assumption | apply Tidy.core | apply TidyRes.ok | apply TidyRes.fault | apply tidy_groupStore | apply wf_set0 | apply TidyCore.empty) | dsimp only | split)

theorem tidyRes_fillCycle {s : State} {k : Nat} {j : Job} {kind num src : Nat} {stride : Int} {rows cols size : Nat} {ty : Ty} {mem : Bool} {t : Nat} (h : Tidy s) : TidyRes (fillCycle s k j kind num src stride rows cols size ty mem t) := by
  unfold fillCycle
  repeat' (first | (with_reducible first | assumption | apply tidy_jobPost | apply wf_writeNat | refine foldl_keeps (fun m => Memory.wf m = true) _ (fun m a hm => ?_) _ _ ?_ | apply Tidy.mem | apply TidyRes.ok | apply TidyRes.fault | apply wf_set0 | apply TidyCore.empty) | dsimp only | split)

theorem tidyRes_fillRequests {k : Nat} {l : List (Nat × Nat)} : ∀ {s : State} {j : Job} {g : Nat}, Tidy s →
    TidyRes (fillRequests s k j l g) := by
  induction l with
  | nil => exact fun h => .ok h
  | cons x r ih =>
    intro s j g h
    unfold fillRequests
    split
    · exact ih h
    · exact tidyRes_request h fun key s h => ih (tidy_jobPost h)

theorem tidyRes_fillRequest {s : State} {k : Nat} {j : Job} {src : Nat} {stride : Int} {rows cols size t : Nat} (h : Tidy s) :
    TidyRes (fillRequest s k j src stride rows cols size t) := by
  unfold fillRequest
  split
  · exact tidyRes_fillRequests h
  · exact .ok h

theorem tidyRes_vqCycle {s : State} {k : Nat} {j : Job} {slot src dst rows : Nat} {ty : Ty} {sp : Bool} {book t : Nat} (h : Tidy s) : TidyRes (vqCycle s k j slot src dst rows ty sp book t) := by
  unfold vqCycle
  repeat' (first | (with_reducible first | assumption | apply tidy_jobPost | apply Tidy.core | apply wf_writeNat | refine foldl_keeps (fun m => Memory.wf m = true) _ (fun m a hm => ?_) _ _ ?_ | apply Tidy.mem | apply TidyRes.ok | apply TidyRes.fault | apply wf_set0 | apply TidyCore.empty) | dsimp only | split)

theorem tidyRes_expandOut {s : State} {k : Nat} {j : Job} {slot dst rows cols : Nat} {tup : List Nat} {rdim cdim : Nat} {d : BitVec 512} {sp : Bool} {t : Nat} (h : Tidy s) : TidyRes (expandOut s k j slot dst rows cols tup rdim cdim d sp t) := by
  unfold expandOut
  repeat' (first | (with_reducible first | assumption | apply tidy_jobPost | apply tidy_jobFlags | apply TidyRes.ok | apply TidyRes.fault | apply wf_set0 | apply TidyCore.empty) | dsimp only | split)

theorem tidyRes_expandCycle {s : State} {k : Nat} {j : Job} {slot dst rows cols : Nat} {tup : List Nat} {rdim cdim : Nat} {d : BitVec 512} {sp : Bool} {t : Nat} (h : Tidy s) : TidyRes (expandCycle s k j slot dst rows cols tup rdim cdim d sp t) := by
  unfold expandCycle
  repeat' (first | (with_reducible first | assumption | apply tidyRes_expandOut))

theorem tidyRes_expandRequest {s : State} {k : Nat} {j : Job} {rows cols : Nat} {tup : List Nat} {rdim cdim : Nat} {d : BitVec 512} {t : Nat} (h : Tidy s) : TidyRes (expandRequest s k j rows cols tup rdim cdim d t) := by
  unfold expandRequest
  repeat' (first | (with_reducible first | assumption | apply tidy_jobPost | apply TidyRes.ok | apply TidyRes.fault | refine tidyRes_request ?_ (fun key s h => ?_) | apply wf_set0 | apply TidyCore.empty) | dsimp only | split)

theorem tidyRes_foldCycle {s : State} {k : Nat} {j : Job} {tile y rows cols row0 col0 : Nat} {tup : List Nat} {rdim cdim : Nat} {d : BitVec 512} {tag : BitVec 2} {t : Nat} (h : Tidy s) : TidyRes (foldCycle s k j tile y rows cols row0 col0 tup rdim cdim d tag t) := by
  unfold foldCycle
  repeat' (first | (with_reducible first | assumption | apply Tidy.core | apply wf_writeNat | refine foldl_keeps (fun m => Memory.wf m = true) _ (fun m a hm => ?_) _ _ ?_ | apply Tidy.mem | apply TidyRes.ok | apply TidyRes.fault | apply tidy_groupStore | apply wf_set0 | apply TidyCore.empty) | dsimp only | split)

theorem tidyRes_cpatomSample {s : State} {k : Nat} {j : Job} {src n : Nat} {ty : Ty} {t : Nat} (h : Tidy s) : TidyRes (cpatomSample s k j src n ty t) := by
  unfold cpatomSample
  repeat' (first | (with_reducible first | assumption | apply tidy_jobPost | apply TidyRes.ok | apply TidyRes.fault | apply wf_set0 | apply TidyCore.empty) | dsimp only | split)

theorem tidyRes_cpatomRequest {s : State} {k : Nat} {j : Job} {cell n : Nat} {per : Bool} {t : Nat} (h : Tidy s) : TidyRes (cpatomRequest s k j cell n per t) := by
  unfold cpatomRequest
  repeat' (first | (with_reducible first | assumption | apply TidyRes.ok | apply TidyRes.fault | refine tidyRes_request ?_ (fun key s h => ?_) | apply wf_set0 | apply TidyCore.empty) | dsimp only | split)

theorem tidy_leaveNow {s : State} {k : Nat} {j : Job} {t sub : Nat} {e : Effect} (h : Tidy s) : Tidy (leaveNow s k j t sub e) := by
  unfold leaveNow
  repeat' (first | (with_reducible first | assumption | refine tidy_modCore ?_ (fun c hc => ?_) | apply wf_set0 | apply TidyCore.empty) | dsimp only | split | with_reducible apply TidyCore.lit)

theorem tidyRes_putCycle {s : State} {k : Nat} {j : Job} {src len t : Nat} (h : Tidy s) : TidyRes (putCycle s k j src len t) := by
  unfold putCycle
  repeat' (first | (with_reducible first | assumption | apply tidy_leaveNow | apply wf_writeNat | refine foldl_keeps (fun m => Memory.wf m = true) _ (fun m a hm => ?_) _ _ ?_ | apply Tidy.mem | apply TidyRes.ok | apply TidyRes.fault | apply wf_set0 | apply TidyCore.empty) | dsimp only | split | with_reducible apply TidyCore.lit | with_reducible apply Tidy.lit)

theorem tidy_spendBeat {s : State} {k rcore i : Nat} {j : Job} (h : Tidy s) : Tidy (spendBeat s k rcore i j) := by
  unfold spendBeat
  repeat' (first | (with_reducible first | assumption | apply tidy_raiseCause | refine tidy_modCore ?_ (fun c hc => ?_) | apply Tidy.core | apply wf_set0 | apply TidyCore.empty) | dsimp only | split | with_reducible apply TidyCore.lit)

theorem tidy_dropBeat {s : State} {d : Domain} {rel rcore : Nat} {j : Job} {i : Nat} (h : Tidy s) : Tidy (dropBeat s d rel rcore j i) := by
  unfold dropBeat
  repeat' (first | (with_reducible first | assumption | refine tidy_modCore ?_ (fun c hc => ?_) | refine tidy_foldl (fun s a h => ?_) ?_ | apply wf_set0 | apply TidyCore.empty) | dsimp only | split | with_reducible apply TidyCore.lit)

theorem tidy_sendBeat {s : State} {d : Domain} {k : Nat} {j : Job} {rcore raddr t i : Nat} (h : Tidy s) : Tidy (sendBeat s d k j rcore raddr t i) := by
  unfold sendBeat
  repeat' (first | (with_reducible first | assumption | apply tidyCore_countEvent | apply tidy_leaveNow | apply tidy_spendBeat | apply tidy_dropBeat | refine tidy_modCore ?_ (fun c hc => ?_) | apply wf_set0 | apply TidyCore.empty) | dsimp only | split)

theorem tidyRes_sendCycle {s : State} {k : Nat} {j : Job} {src rcore raddr rrun beats t : Nat} (h : Tidy s) : TidyRes (sendCycle s k j src rcore raddr rrun beats t) := by
  unfold sendCycle
  repeat' (first | (with_reducible first | assumption | apply tidy_addBoth | apply tidy_sendBeat | apply wf_writeNat | refine foldl_keeps (fun m => Memory.wf m = true) _ (fun m a hm => ?_) _ _ ?_ | apply Tidy.mem | apply TidyRes.ok | apply TidyRes.fault | apply wf_set0 | apply TidyCore.empty) | dsimp only | split)

theorem tidy_planOp {s : State} {k : Nat} {j : Job} {o : Micro} (h : Tidy s) : Tidy (planOp s k j o) := by
  unfold planOp
  repeat' (first | (with_reducible first | assumption | apply tidy_jobPost | apply Tidy.core | apply wf_set0 | apply TidyCore.empty) | dsimp only | split)

theorem tidyRes_planCycle {s : State} {k : Nat} {j : Job} {ops : List (Nat × Micro)} {t : Nat} (h : Tidy s) : TidyRes (planCycle s k j ops t) := by
  unfold planCycle
  repeat' (first | (with_reducible first | assumption | apply tidy_planOp | refine tidy_foldl (fun s a h => ?_) ?_ | apply TidyRes.ok))

theorem tidyRes_vldSyCycle {s : State} {k : Nat} {j : Job} {row : Nat} {d : BitVec 512} {en : BitVec 128} {idx : List Nat} {ty : Ty} {t : Nat} (h : Tidy s) : TidyRes (vldSyCycle s k j row d en idx ty t) := by
  unfold vldSyCycle
  repeat' (first | (with_reducible first | assumption | apply tidy_jobPost | apply tidy_jobFlags | apply TidyRes.ok | apply TidyRes.fault | apply wf_set0 | apply TidyCore.empty) | dsimp only | split)

theorem tidy_walkEnd {s : State} {k : Nat} {j : Job} {a b : BitVec 512} {row : Option Nat} {cell : Option Nat} {ty : Ty} {t : Nat} (h : Tidy s) : Tidy (walkEnd s k j a b row cell ty t) := by
  unfold walkEnd
  repeat' (first | (with_reducible first | assumption | apply tidy_jobPost | apply tidy_jobFlags | apply wf_set0 | apply TidyCore.empty) | dsimp only | split)

theorem tidyRes_walkCycle {s : State} {k : Nat} {j : Job} {a b : BitVec 512} {row : Option Nat} {cell : Option Nat} {ty : Ty} {t : Nat} (h : Tidy s) : TidyRes (walkCycle s k j a b row cell ty t) := by
  unfold walkCycle
  repeat' (first | (with_reducible first | assumption | apply tidyCore_countEvent | apply tidy_walkEnd | refine tidy_modCore ?_ (fun c hc => ?_) | apply TidyRes.ok | apply TidyRes.fault | apply wf_set0 | apply TidyCore.empty) | dsimp only | split)

theorem tidyRes_walkRequest {s : State} {k : Nat} {j : Job} {a b : BitVec 512} {t : Nat} (h : Tidy s) : TidyRes (walkRequest s k j a b t) := by
  unfold walkRequest
  repeat' (first | (with_reducible first | assumption | apply tidy_jobPost | apply TidyRes.ok | apply TidyRes.fault | refine tidyRes_request ?_ (fun key s h => ?_) | apply wf_set0 | apply TidyCore.empty) | dsimp only | split)

theorem tidyRes_sampleCycle {s : State} {k : Nat} {j : Job} {t : Nat} (h : Tidy s) : TidyRes (sampleCycle s k j t) := by
  unfold sampleCycle
  repeat' (first | (with_reducible first | assumption | apply tidyRes_cpstSample | apply tidyRes_cpmovCycle | apply tidyRes_cpsetCycle | apply tidyRes_castCycle | apply tidyRes_gatherCycle | apply tidyRes_gatherSyCycle | apply tidyRes_scatterCycle | apply tidyRes_scatterSyCycle | apply tidyRes_fillCycle | apply tidyRes_vqCycle | apply tidyRes_expandCycle | apply tidyRes_foldCycle | apply tidyRes_cpatomSample | apply tidyRes_putCycle | apply tidyRes_sendCycle | apply tidyRes_planCycle | apply tidyRes_vldSyCycle | apply tidyRes_walkCycle | apply TidyRes.ok | apply TidyRes.fault | apply wf_set0 | apply TidyCore.empty) | dsimp only | split)

theorem tidyRes_requestCycle {s : State} {k : Nat} {j : Job} {t : Nat} (h : Tidy s) : TidyRes (requestCycle s k j t) := by
  unfold requestCycle
  repeat' (first | (with_reducible first | assumption | apply tidyRes_cpldRequest | apply tidyRes_cpstRequest | apply tidyRes_cpsetRequest | apply tidyRes_castRequest | apply tidyRes_gatherRequest | apply tidyRes_gatherSyRequest | apply tidyRes_scatterRequest | apply tidyRes_requestItems | apply tidyRes_fillRequest | apply tidyRes_expandRequest | apply tidyRes_cpatomRequest | apply tidyRes_walkRequest | apply TidyRes.ok | apply TidyRes.fault | apply wf_set0 | apply TidyCore.empty) | dsimp only | split)

theorem tidy_conflict {s : State} {k : Nat} {j : Job} {cause : Nat} {st : Stream} {seq issue evt : Nat} (h : Tidy s) : Tidy (conflict s k j cause st seq issue evt) := by
  unfold conflict
  repeat' (first | (with_reducible first | assumption | apply tidy_takeFault | apply wf_set0 | apply TidyCore.empty) | dsimp only | split)

theorem tidy_portMet {s : State} {k : Nat} {j : Job} {l : List PortUse} {b : Nat} (h : Tidy s) : Tidy (portMet s k j l b) := by
  unfold portMet
  repeat' (first | (with_reducible first | assumption | apply tidy_conflict | apply wf_set0 | apply TidyCore.empty) | dsimp only | split)

theorem tidy_raiseMet {s : State} {k : Nat} {j : Job} {v : Option RunVal} (h : Tidy s) : Tidy (raiseMet s k j v) := by
  unfold raiseMet
  repeat' (first | (with_reducible first | assumption | apply tidy_conflict | apply wf_set0 | apply TidyCore.empty) | dsimp only | split)

theorem tidyCore_putOnRunner {c : CoreState} {j : Job} {src span : Nat} {addr : Option Nat} {leg : Leg} {row : Option Row} (h : TidyCore c) : TidyCore (putOnRunner c j src span addr leg row) := by
  unfold putOnRunner
  repeat' (first | (with_reducible first | assumption | apply tidyCore_countEvent | apply wf_set0 | apply TidyCore.empty) | dsimp only | split | with_reducible apply TidyCore.lit)

theorem tidy_tapEmpty {s : State} {k : Nat} {j : Job} (h : Tidy s) : Tidy (tapEmpty s k j) := by
  unfold tapEmpty
  repeat' (first | (with_reducible first | assumption | apply tidy_takeFault))

theorem tidy_doStatic {s : State} {k : Nat} {j : Job} {t : Nat} {o : Micro} (h : Tidy s) : Tidy (doStatic s k j t o) := by
  unfold doStatic
  repeat' (first | (with_reducible first | assumption | apply tidy_conflict | apply tidy_portMet | apply tidy_raiseMet | apply tidyCore_putOnRunner | apply tidy_tapEmpty | refine tidy_modCore ?_ (fun c hc => ?_) | apply Tidy.core | apply wf_set0 | apply TidyCore.empty) | dsimp only | split | with_reducible apply TidyCore.lit)

theorem tidy_staticCycle {s : State} {k : Nat} {j : Job} (h : Tidy s) : Tidy (staticCycle s k j) := by
  exact tidy_foldl (fun s o h => tidy_doStatic h) h

theorem tidyCore_putJob {c : CoreState} {j : Job} (h : TidyCore c) : TidyCore (putJob c j) := by
  unfold putJob
  repeat' (first | (with_reducible first | assumption | apply wf_set0 | apply TidyCore.empty) | dsimp only | split | with_reducible apply TidyCore.lit)

theorem tidy_jobDone {k : Nat} {r : JobRes} {ok : Job → Job} (h : TidyRes r) : Tidy (jobDone k r ok) := by
  unfold jobDone
  split
  · exact tidy_modCore (h.ofOk _ _ rfl) fun c hc => tidyCore_putJob hc
  · exact tidy_takeFaultFull (tidy_modCore (h.ofFault _ _ _ _ _ rfl) fun c hc => tidyCore_putJob hc)

theorem tidy_jobCycle {s : State} {k : Nat} {j : Job} (h : Tidy s) : Tidy (jobCycle s k j) := by
  unfold jobCycle
  have done : ∀ {r : JobRes} {ok : Job → Job}, TidyRes r → Tidy (jobDone k r ok) := fun h => tidy_jobDone h
  have st : ∀ {s : State} {p : Prop} [Decidable p] {x : Job}, Tidy s →
      Tidy (if p then modCore (staticCycle s k j) k (fun c => putJob c x) else s) := by
    intro s p _ x h
    split
    · exact tidy_modCore (tidy_staticCycle h) fun c hc => tidyCore_putJob hc
    · exact h
  have sm : ∀ {s : State} {p : Prop} [Decidable p] {r : JobRes} {ok : Job → Job}, Tidy s → TidyRes r →
      Tidy (if p then jobDone k r ok else s) := by
    intro s p _ r ok h hr
    split
    · exact done hr
    · exact h
  dsimp only
  split
  · exact sm (st h) (tidyRes_sampleCycle (st h))
  · split
    · exact done (tidyRes_requestCycle (sm (st h) (tidyRes_sampleCycle (st h))))
    · exact sm (st h) (tidyRes_sampleCycle (st h))

theorem tidy_coreElements {s : State} {k : Nat} (h : Tidy s) : Tidy (coreElements s k) := by
  unfold coreElements
  dsimp only
  refine tidy_modCore (tidy_foldl (fun s j h => tidy_staticCycle h) (tidy_foldl (fun s j h => ?_) h)) fun c hc => ⟨hc.form⟩
  split
  · exact tidy_jobCycle h
  · exact h

end Sys2Proof.Laws
end

