-- ==== Sys2Proof/Laws/TidyCommands.lean ====
section
/-! SUPPORT. The named operations keep the canonical form (Laws/Tidy.lean): the meanings of the control core, the copy engine and the vector memory commands, fetch and issue. -/

set_option Elab.async false

namespace Sys2Proof.Laws

open Sys2Proof Sys2Proof.Machine Sys2Proof.Claims

-- Machine/CcArith.lean ------------------------------------------------------------

theorem tidy_ccPost {s : State} {delay : Nat} {e : Effect} (h : Tidy s) : Tidy (ccPost s delay e) := by
  unfold ccPost
  repeat' (first | (with_reducible first | assumption | apply tidy_addFlight | apply wf_set0 | apply TidyCore.empty) | dsimp only | split)

theorem tidyOut_ccResult {s : State} {delay : Nat} {r : SReg} {v : Word} (h : Tidy s) : TidyOut (ccResult s delay r v) := by
  unfold ccResult
  repeat' (first | (with_reducible first | assumption | apply tidy_ccPost | apply TidyOut.next))

theorem tidyOut_execAdd {d a b : SReg} {s : State} (h : Tidy s) : TidyOut (execAdd d a b s) := by
  unfold execAdd
  repeat' (first | (with_reducible first | assumption | apply tidyOut_ccResult))

theorem tidyOut_execSub {d a b : SReg} {s : State} (h : Tidy s) : TidyOut (execSub d a b s) := by
  unfold execSub
  repeat' (first | (with_reducible first | assumption | apply tidyOut_ccResult))

theorem tidyOut_execMul {d a b : SReg} {s : State} (h : Tidy s) : TidyOut (execMul d a b s) := by
  unfold execMul
  repeat' (first | (with_reducible first | assumption | apply tidyOut_ccResult))

theorem tidyOut_execMulh {d a b : SReg} {s : State} (h : Tidy s) : TidyOut (execMulh d a b s) := by
  unfold execMulh
  repeat' (first | (with_reducible first | assumption | apply tidyOut_ccResult))

theorem tidyOut_execMulhn {d a b : SReg} {s : State} (h : Tidy s) : TidyOut (execMulhn d a b s) := by
  unfold execMulhn
  repeat' (first | (with_reducible first | assumption | apply tidyOut_ccResult))

theorem tidyOut_execDiv {d a b : SReg} {s : State} (h : Tidy s) : TidyOut (execDiv d a b s) := by
  unfold execDiv
  repeat' (first | (with_reducible first | assumption | apply tidyOut_ccResult))

theorem tidyOut_execDivn {d a b : SReg} {s : State} (h : Tidy s) : TidyOut (execDivn d a b s) := by
  unfold execDivn
  repeat' (first | (with_reducible first | assumption | apply tidyOut_ccResult))

theorem tidyOut_execRem {d a b : SReg} {s : State} (h : Tidy s) : TidyOut (execRem d a b s) := by
  unfold execRem
  repeat' (first | (with_reducible first | assumption | apply tidyOut_ccResult))

theorem tidyOut_execRemn {d a b : SReg} {s : State} (h : Tidy s) : TidyOut (execRemn d a b s) := by
  unfold execRemn
  repeat' (first | (with_reducible first | assumption | apply tidyOut_ccResult))

theorem tidyOut_execAnd {d a b : SReg} {s : State} (h : Tidy s) : TidyOut (execAnd d a b s) := by
  unfold execAnd
  repeat' (first | (with_reducible first | assumption | apply tidyOut_ccResult))

theorem tidyOut_execOr {d a b : SReg} {s : State} (h : Tidy s) : TidyOut (execOr d a b s) := by
  unfold execOr
  repeat' (first | (with_reducible first | assumption | apply tidyOut_ccResult))

theorem tidyOut_execXor {d a b : SReg} {s : State} (h : Tidy s) : TidyOut (execXor d a b s) := by
  unfold execXor
  repeat' (first | (with_reducible first | assumption | apply tidyOut_ccResult))

theorem tidyOut_execShl {d a b : SReg} {s : State} (h : Tidy s) : TidyOut (execShl d a b s) := by
  unfold execShl
  repeat' (first | (with_reducible first | assumption | apply tidyOut_ccResult))

theorem tidyOut_execShr {d a b : SReg} {s : State} (h : Tidy s) : TidyOut (execShr d a b s) := by
  unfold execShr
  repeat' (first | (with_reducible first | assumption | apply tidyOut_ccResult))

theorem tidyOut_execSar {d a b : SReg} {s : State} (h : Tidy s) : TidyOut (execSar d a b s) := by
  unfold execSar
  repeat' (first | (with_reducible first | assumption | apply tidyOut_ccResult))

theorem tidyOut_execSel {d a b c : SReg} {s : State} (h : Tidy s) : TidyOut (execSel d a b c s) := by
  unfold execSel
  repeat' (first | (with_reducible first | assumption | apply tidyOut_ccResult))

theorem tidyOut_execMin {d a b : SReg} {s : State} (h : Tidy s) : TidyOut (execMin d a b s) := by
  unfold execMin
  repeat' (first | (with_reducible first | assumption | apply tidyOut_ccResult))

theorem tidyOut_execMax {d a b : SReg} {s : State} (h : Tidy s) : TidyOut (execMax d a b s) := by
  unfold execMax
  repeat' (first | (with_reducible first | assumption | apply tidyOut_ccResult))

theorem tidyOut_execMinn {d a b : SReg} {s : State} (h : Tidy s) : TidyOut (execMinn d a b s) := by
  unfold execMinn
  repeat' (first | (with_reducible first | assumption | apply tidyOut_ccResult))

theorem tidyOut_execMaxn {d a b : SReg} {s : State} (h : Tidy s) : TidyOut (execMaxn d a b s) := by
  unfold execMaxn
  repeat' (first | (with_reducible first | assumption | apply tidyOut_ccResult))

theorem tidyOut_execSeq {d a b : SReg} {s : State} (h : Tidy s) : TidyOut (execSeq d a b s) := by
  unfold execSeq
  repeat' (first | (with_reducible first | assumption | apply tidyOut_ccResult))

theorem tidyOut_execSne {d a b : SReg} {s : State} (h : Tidy s) : TidyOut (execSne d a b s) := by
  unfold execSne
  repeat' (first | (with_reducible first | assumption | apply tidyOut_ccResult))

theorem tidyOut_execSlt {d a b : SReg} {s : State} (h : Tidy s) : TidyOut (execSlt d a b s) := by
  unfold execSlt
  repeat' (first | (with_reducible first | assumption | apply tidyOut_ccResult))

theorem tidyOut_execSltn {d a b : SReg} {s : State} (h : Tidy s) : TidyOut (execSltn d a b s) := by
  unfold execSltn
  repeat' (first | (with_reducible first | assumption | apply tidyOut_ccResult))

theorem tidyOut_execAddi {d a : SReg} {imm : BitVec 28} {s : State} (h : Tidy s) : TidyOut (execAddi d a imm s) := by
  unfold execAddi
  repeat' (first | (with_reducible first | assumption | apply tidyOut_ccResult))

theorem tidyOut_execAndi {d a : SReg} {imm : BitVec 28} {s : State} (h : Tidy s) : TidyOut (execAndi d a imm s) := by
  unfold execAndi
  repeat' (first | (with_reducible first | assumption | apply tidyOut_ccResult))

theorem tidyOut_execOri {d a : SReg} {imm : BitVec 28} {s : State} (h : Tidy s) : TidyOut (execOri d a imm s) := by
  unfold execOri
  repeat' (first | (with_reducible first | assumption | apply tidyOut_ccResult))

theorem tidyOut_execXori {d a : SReg} {imm : BitVec 28} {s : State} (h : Tidy s) : TidyOut (execXori d a imm s) := by
  unfold execXori
  repeat' (first | (with_reducible first | assumption | apply tidyOut_ccResult))

theorem tidyOut_execShli {d a : SReg} {n : BitVec 6} {s : State} (h : Tidy s) : TidyOut (execShli d a n s) := by
  unfold execShli
  repeat' (first | (with_reducible first | assumption | apply tidyOut_ccResult))

theorem tidyOut_execShri {d a : SReg} {n : BitVec 6} {s : State} (h : Tidy s) : TidyOut (execShri d a n s) := by
  unfold execShri
  repeat' (first | (with_reducible first | assumption | apply tidyOut_ccResult))

theorem tidyOut_execSari {d a : SReg} {n : BitVec 6} {s : State} (h : Tidy s) : TidyOut (execSari d a n s) := by
  unfold execSari
  repeat' (first | (with_reducible first | assumption | apply tidyOut_ccResult))

theorem tidyOut_execSlti {d a : SReg} {imm : BitVec 28} {s : State} (h : Tidy s) : TidyOut (execSlti d a imm s) := by
  unfold execSlti
  repeat' (first | (with_reducible first | assumption | apply tidyOut_ccResult))

theorem tidyOut_execLim {d a : SReg} {imm : BitVec 28} {s : State} (h : Tidy s) : TidyOut (execLim d a imm s) := by
  unfold execLim
  repeat' (first | (with_reducible first | assumption | apply tidyOut_ccResult))

theorem tidyOut_execMovi {d : SReg} {imm : BitVec 28} {s : State} (h : Tidy s) : TidyOut (execMovi d imm s) := by
  unfold execMovi
  repeat' (first | (with_reducible first | assumption | apply tidyOut_ccResult))

-- Machine/CcMem.lean ------------------------------------------------------------

theorem tidyOut_execLds {d a : SReg} {imm : BitVec 28} {s : State} (h : Tidy s) : TidyOut (execLds d a imm s) := by
  unfold execLds
  repeat' (first | (with_reducible first | assumption | apply tidy_ccPost | apply TidyOut.next | apply TidyOut.fault | apply TidyOut.refused | refine tidyOut_checked ?_ (fun s h => ?_)))

theorem tidyOut_execSts {d a : SReg} {imm : BitVec 28} {s : State} (h : Tidy s) : TidyOut (execSts d a imm s) := by
  unfold execSts
  repeat' (first | (with_reducible first | assumption | apply tidy_ccPost | apply Tidy.core | apply TidyOut.next | apply TidyOut.fault | apply TidyOut.refused | refine tidyOut_checked ?_ (fun s h => ?_)))

theorem tidyOut_execPatch {a b : SReg} {s : State} (h : Tidy s) : TidyOut (execPatch a b s) := by
  unfold execPatch
  repeat' (first | (with_reducible first | assumption | apply tidy_ccPost | apply Tidy.core | apply TidyOut.next | apply TidyOut.fault | apply TidyOut.refused | refine tidyOut_checked ?_ (fun s h => ?_)))

theorem tidyOut_execFqpush {a : SReg} {s : State} (h : Tidy s) : TidyOut (execFqpush a s) := by
  unfold execFqpush
  repeat' (first | (with_reducible first | assumption | apply tidy_ccPost | apply TidyOut.next))

theorem tidyOut_ccDevice {s : State} {A kind perm : Nat} {f : Nat → State → State} (h : Tidy s)
    (hf : ∀ key s, Tidy s → Tidy (f key s)) : TidyOut (ccDevice s A kind perm f) := by
  unfold ccDevice
  split
  · split
    · dsimp only
      split
      · exact .next (hf _ _ (tidy_requestNow (tidy_watchNow h)))
      · exact .next (tidy_faultNow (tidy_watchNow h))
      · exact .next (tidy_deadEnd (tidy_watchNow h))
    · exact .next h
  · exact .next (tidy_faultNow h)

theorem tidyOut_execLdm {d a : SReg} {imm : BitVec 28} {s : State} (h : Tidy s) : TidyOut (execLdm d a imm s) := by
  unfold execLdm
  repeat' (first | (with_reducible first | assumption | apply tidy_ccPost | apply TidyOut.next | apply TidyOut.fault | apply TidyOut.refused | refine tidyOut_ccDevice ?_ (fun key s h => ?_)))

theorem tidyOut_execStm {d a : SReg} {imm : BitVec 28} {s : State} (h : Tidy s) : TidyOut (execStm d a imm s) := by
  unfold execStm
  repeat' (first | (with_reducible first | assumption | apply tidy_ccPost | apply TidyOut.next | apply TidyOut.fault | apply TidyOut.refused | refine tidyOut_ccDevice ?_ (fun key s h => ?_)))

theorem tidyOut_ccAtomic {d a : SReg} {op : AtomOp} {s : State} (h : Tidy s) : TidyOut (ccAtomic d a op s) := by
  unfold ccAtomic
  repeat' (first | (with_reducible first | assumption | apply tidy_ccPost | apply TidyOut.next | apply TidyOut.fault | apply TidyOut.refused | refine tidyOut_ccDevice ?_ (fun key s h => ?_)))

theorem tidyOut_execAadd {d a b : SReg} {s : State} (h : Tidy s) : TidyOut (execAadd d a b s) := by
  unfold execAadd
  repeat' (first | (with_reducible first | assumption | apply tidyOut_ccAtomic))

theorem tidyOut_execAcas {d a b c : SReg} {s : State} (h : Tidy s) : TidyOut (execAcas d a b c s) := by
  unfold execAcas
  repeat' (first | (with_reducible first | assumption | apply tidyOut_ccAtomic))

theorem tidyOut_execAswp {d a b : SReg} {s : State} (h : Tidy s) : TidyOut (execAswp d a b s) := by
  unfold execAswp
  repeat' (first | (with_reducible first | assumption | apply tidyOut_ccAtomic))

-- Machine/Measure.lean ------------------------------------------------------------

theorem tidy_measNow {s : State} {pkg n : Nat} {event : List Byte} (h : Tidy s) : Tidy (measNow s pkg n event) := by
  unfold measNow
  repeat' (first | (with_reducible first | assumption | apply tidy_modPkg))

theorem tidy_extendMeas {s : State} {pkg n type part version : Nat} {dig : List Byte} (h : Tidy s) : Tidy (extendMeas s pkg n type part version dig) := by
  unfold extendMeas
  repeat' (first | (with_reducible first | assumption | apply tidy_modPkg | apply tidy_measNow | apply wf_set0 | apply TidyCore.empty) | dsimp only | split)

theorem tidy_measNext {s : State} {pkg : Nat} (h : Tidy s) : Tidy (measNext s pkg) := by
  unfold measNext
  repeat' (first | (with_reducible first | assumption | apply tidy_modPkg | apply tidy_measNow | apply wf_set0 | apply TidyCore.empty) | dsimp only | split)

-- Machine/CcSys.lean ------------------------------------------------------------

theorem tidyOut_execSysrd {d : SReg} {n : BitVec 12} {s : State} (h : Tidy s) : TidyOut (execSysrd d n s) := by
  unfold execSysrd
  repeat' (first | (with_reducible first | assumption | apply tidy_faultNow | apply tidyOut_ccResult | apply TidyOut.next | apply TidyOut.fault | apply TidyOut.refused | apply wf_set0 | apply TidyCore.empty) | dsimp only | split)

theorem tidyOut_execSyswr {a : SReg} {n : BitVec 12} {s : State} (h : Tidy s) : TidyOut (execSyswr a n s) := by
  unfold execSyswr
  repeat' (first | (with_reducible first | assumption | apply tidy_ccPost | apply TidyOut.next | apply TidyOut.fault | apply TidyOut.refused | refine tidyOut_checked ?_ (fun s h => ?_)))

theorem tidyOut_execDccrd {d : SReg} {s : State} (h : Tidy s) : TidyOut (execDccrd d s) := by
  unfold execDccrd
  repeat' (first | (with_reducible first | assumption | apply tidyOut_ccResult))

theorem tidyOut_execLcset {a : SReg} {lc : BitVec 6} {s : State} (h : Tidy s) : TidyOut (execLcset a lc s) := by
  unfold execLcset
  repeat' (first | (with_reducible first | assumption | apply tidy_ccPost | apply TidyOut.next))

theorem tidy_acquire {s : State} {k lc : Nat} (h : Tidy s) : Tidy (acquire s k lc) := by
  unfold acquire
  repeat' (first | (with_reducible first | assumption | apply tidy_setClock | refine tidy_foldl (fun s a h => ?_) ?_ | apply wf_set0 | apply TidyCore.empty) | dsimp only | split)

theorem tidyOut_execLcrd {d : SReg} {lc : BitVec 6} {s : State} (h : Tidy s) : TidyOut (execLcrd d lc s) := by
  unfold execLcrd
  repeat' (first | (with_reducible first | assumption | apply tidyOut_ccResult | apply tidy_acquire | apply Tidy.core | apply TidyOut.next | apply TidyOut.fault | apply TidyOut.refused | apply wf_set0 | apply TidyCore.empty) | dsimp only | split)

theorem tidyOut_execLcwait {lc : BitVec 6} {s : State} (h : Tidy s) : TidyOut (execLcwait lc s) := by
  unfold execLcwait
  repeat' (first | (with_reducible first | assumption | apply tidy_waitLog | apply tidy_raiseHold | apply tidy_acquire | apply Tidy.core | apply TidyOut.next | apply TidyOut.fault | apply TidyOut.refused | apply wf_set0 | apply TidyCore.empty) | dsimp only | split)

theorem tidyOut_execSlack {n : BitVec 16} {s : State} (h : Tidy s) : TidyOut (execSlack n s) := by
  unfold execSlack
  repeat' (first | (with_reducible first | assumption | refine tidy_modCur ?_ (fun c hc => ?_) | apply TidyOut.next | apply TidyOut.fault | apply TidyOut.refused | apply wf_set0 | apply TidyCore.empty) | dsimp only | split | with_reducible apply TidyCore.lit)

theorem tidyOut_execArm {d a : SReg} {s : State} (h : Tidy s) : TidyOut (execArm d a s) := by
  unfold execArm
  repeat' (first | (with_reducible first | assumption | apply tidy_ccPost | apply TidyOut.next))

theorem tidyOut_execMpat {a b : SReg} {n : BitVec 4} {s : State} (h : Tidy s) : TidyOut (execMpat a b n s) := by
  unfold execMpat
  repeat' (first | (with_reducible first | assumption | apply tidy_ccPost | apply TidyOut.next | apply TidyOut.fault | apply TidyOut.refused | refine tidyOut_checked ?_ (fun s h => ?_)))

theorem tidyOut_execQprd {d : SReg} {qp : BitVec 2} {s : State} (h : Tidy s) : TidyOut (execQprd d qp s) := by
  unfold execQprd
  repeat' (first | (with_reducible first | assumption | apply tidyOut_ccResult))

theorem tidyOut_execQpwr {a : SReg} {qp : BitVec 2} {s : State} (h : Tidy s) : TidyOut (execQpwr a qp s) := by
  unfold execQpwr
  repeat' (first | (with_reducible first | assumption | apply tidy_ccPost | apply TidyOut.next))

theorem tidyOut_execFence {scope : BitVec 3} {s : State} (h : Tidy s) : TidyOut (execFence scope s) := by
  unfold execFence
  repeat' (first | (with_reducible first | assumption | apply tidy_mergeSeen | apply TidyOut.next | apply TidyOut.fault | apply TidyOut.refused | refine tidyOut_checked ?_ (fun s h => ?_) | apply wf_set0 | apply TidyCore.empty) | dsimp only | split)

theorem tidyOut_execWatchAdd {a : SReg} {s : State} (h : Tidy s) : TidyOut (execWatchAdd a s) := by
  unfold execWatchAdd
  repeat' (first | (with_reducible first | assumption | apply tidy_ccPost | apply TidyOut.next))

theorem tidyOut_execWatchClr {s : State} (h : Tidy s) : TidyOut (execWatchClr s) := by
  unfold execWatchClr
  repeat' (first | (with_reducible first | assumption | apply tidy_ccPost | apply TidyOut.next))

theorem tidyOut_execTrap {n : BitVec 16} {s : State} (h : Tidy s) : TidyOut (execTrap n s) := by
  unfold execTrap
  repeat' (first | (with_reducible first | assumption | apply tidy_faultNow | apply TidyOut.next | apply TidyOut.fault | apply TidyOut.refused | apply wf_set0 | apply TidyCore.empty) | dsimp only | split)

theorem tidyOut_execHalt {s : State} (h : Tidy s) : TidyOut (execHalt s) := by
  unfold execHalt
  repeat' (first | (with_reducible first | assumption | apply tidy_raiseHold | apply TidyOut.next | apply TidyOut.fault | apply TidyOut.refused | apply wf_set0 | apply TidyCore.empty) | dsimp only | split)

theorem tidyOut_execRload {a : SReg} {n : BitVec 6} {s : State} (h : Tidy s) : TidyOut (execRload a n s) := by
  unfold execRload
  repeat' (first | (with_reducible first | assumption | apply tidy_ccPost | apply TidyOut.next | apply TidyOut.fault | apply TidyOut.refused | refine tidyOut_checked ?_ (fun s h => ?_)))

theorem tidyOut_execYload {a : SReg} {y : BitVec 4} {s : State} (h : Tidy s) : TidyOut (execYload a y s) := by
  unfold execYload
  repeat' (first | (with_reducible first | assumption | apply tidy_ccPost | apply TidyOut.next | apply TidyOut.fault | apply TidyOut.refused | refine tidyOut_checked ?_ (fun s h => ?_)))

theorem tidyOut_execRsplit {a b : SReg} {n : BitVec 6} {s : State} (h : Tidy s) : TidyOut (execRsplit a b n s) := by
  unfold execRsplit
  repeat' (first | (with_reducible first | assumption | apply tidy_ccPost | apply Tidy.core | apply TidyOut.next | apply TidyOut.fault | apply TidyOut.refused | refine tidyOut_checked ?_ (fun s h => ?_)))

theorem tidyOut_execRmerge {a : SReg} {n : BitVec 6} {s : State} (h : Tidy s) : TidyOut (execRmerge a n s) := by
  unfold execRmerge
  repeat' (first | (with_reducible first | assumption | apply tidy_ccPost | apply Tidy.core | apply TidyOut.next | apply TidyOut.fault | apply TidyOut.refused | refine tidyOut_checked ?_ (fun s h => ?_)))

theorem tidyOut_execRinv {a : SReg} {s : State} (h : Tidy s) : TidyOut (execRinv a s) := by
  unfold execRinv
  repeat' (first | (with_reducible first | assumption | apply tidy_addFlight | apply tidy_faultNow | apply tidy_ccPost | refine tidy_foldl (fun s a h => ?_) ?_ | apply Tidy.core | apply TidyOut.next | apply TidyOut.fault | apply TidyOut.refused | apply wf_set0 | apply TidyCore.empty) | dsimp only | split)

theorem tidyOut_sysOnly {s : State} {f : State → State} (h : Tidy s) (hf : ∀ s, Tidy s → Tidy (f s)) :
    TidyOut (sysOnly s f) := by
  unfold sysOnly
  refine .next ?_
  split
  · exact hf _ h
  · exact tidy_faultNow h

theorem tidyOut_execEret {s : State} (h : Tidy s) : TidyOut (execEret s) := by
  unfold execEret
  repeat' (first | (with_reducible first | assumption | apply tidyCore_leaveHypervisor | refine tidy_modCur ?_ (fun c hc => ?_) | apply TidyOut.next | apply TidyOut.fault | apply TidyOut.refused | refine tidyOut_sysOnly ?_ (fun s h => ?_)))

theorem tidy_systemEvent {s : State} {k : Nat} {e : Option (Nat × Nat × List Byte)} (h : Tidy s) : Tidy (systemEvent s k e) := by
  unfold systemEvent
  repeat' (first | (with_reducible first | assumption | apply tidy_extendMeas | apply wf_set0 | apply TidyCore.empty) | dsimp only | split)

theorem tidyOut_execHvcall {n : BitVec 16} {s : State} (h : Tidy s) : TidyOut (execHvcall n s) := by
  unfold execHvcall
  repeat' (first | (with_reducible first | assumption | apply tidyCore_enterHypervisor | apply tidy_systemEvent | refine tidy_modCur ?_ (fun c hc => ?_) | apply Tidy.core | apply TidyOut.next | apply TidyOut.fault | apply TidyOut.refused | refine tidyOut_sysOnly ?_ (fun s h => ?_) | apply wf_set0 | apply TidyCore.empty) | dsimp only | split | with_reducible apply TidyCore.lit | with_reducible apply Tidy.lit)

theorem tidy_editList {s : State} {pkg asid base : Nat} {f : RangeEntry → RangeEntry} (h : Tidy s) : Tidy (editList s pkg asid base f) := by
  unfold editList
  repeat' (first | (with_reducible first | assumption | refine tidy_hubWrite ?_ ?_ | apply wf_writeNat | apply Tidy.mem) | dsimp only | split)

theorem tidy_editLists {s : State} {asid base : Nat} {f : RangeEntry → RangeEntry} (h : Tidy s) : Tidy (editLists s asid base f) :=
  tidy_foldl (fun s p h => tidy_editList h) h

/-- What a system core does to a range of its own partition. -/
theorem tidy_ownAsid {s : State} {asid : Nat} {f : State → State} (h : Tidy s) (hf : ∀ s, Tidy s → Tidy (f s)) : Tidy (ownAsid s asid f) := by
  unfold ownAsid
  split
  · exact h
  · exact hf s h

theorem tidy_reachAll {s : State} {asid : Nat} {e : Effect} {now : CoreState → CoreState} (h : Tidy s)
    (hn : ∀ c, TidyCore c → TidyCore (now c)) : Tidy (reachAll s asid e now) := by
  unfold reachAll
  refine tidy_foldl (fun s k h => ?_) h
  split
  · exact tidy_addFlight h
  · exact tidy_modCore h hn

theorem tidy_refuse {s : State} {pkg asid base : Nat} (h : Tidy s) : Tidy (refuse s pkg asid base) := by
  unfold refuse
  repeat' (first | (with_reducible first | assumption | apply tidy_faultLog))

theorem tidyOut_execRres {a b : SReg} {asid : BitVec 12} {s : State} (h : Tidy s) : TidyOut (execRres a b asid s) := by
  unfold execRres
  repeat' (first | (with_reducible first | assumption | apply tidyCore_editTable | apply tidy_editLists | apply TidyOut.next | apply TidyOut.fault | apply TidyOut.refused | refine tidyOut_sysOnly ?_ (fun s h => ?_) | refine tidy_ownAsid ?_ (fun s h => ?_) | refine tidy_reachAll ?_ (fun c hc => ?_)))

theorem tidyOut_execRresClear {a b : SReg} {asid : BitVec 12} {s : State} (h : Tidy s) : TidyOut (execRresClear a b asid s) := by
  unfold execRresClear
  repeat' (first | (with_reducible first | assumption | apply tidyCore_editTable | apply tidy_editLists | apply tidy_refuse | apply TidyOut.next | apply TidyOut.fault | apply TidyOut.refused | refine tidyOut_sysOnly ?_ (fun s h => ?_) | refine tidy_ownAsid ?_ (fun s h => ?_) | refine tidy_reachAll ?_ (fun c hc => ?_) | apply wf_set0 | apply TidyCore.empty) | dsimp only | split)

theorem tidy_markMoved {s : State} {pkg asid base : Nat} (h : Tidy s) : Tidy (markMoved s pkg asid base) := by
  unfold markMoved
  repeat' (first | (with_reducible first | assumption | apply tidy_modPkg))

theorem tidyOut_execRret {a b : SReg} {asid : BitVec 12} {s : State} (h : Tidy s) : TidyOut (execRret a b asid s) := by
  unfold execRret
  repeat' (first | (with_reducible first | assumption | apply tidyCore_editTable | apply tidy_editLists | apply tidy_refuse | apply tidy_markMoved | apply TidyOut.next | apply TidyOut.fault | apply TidyOut.refused | refine tidyOut_sysOnly ?_ (fun s h => ?_) | refine tidy_ownAsid ?_ (fun s h => ?_) | refine tidy_reachAll ?_ (fun c hc => ?_) | apply wf_set0 | apply TidyCore.empty) | dsimp only | split)

-- Machine/StreamCtl.lean ------------------------------------------------------------

theorem tidy_modCurStream {s : State} {f : StreamSt → StreamSt} (h : Tidy s) : Tidy (modCurStream s f) := by
  unfold modCurStream
  repeat' (first | (with_reducible first | assumption | apply tidyCore_modStream | refine tidy_modCur ?_ (fun c hc => ?_)))

theorem tidy_goTo {s : State} {i : Nat} (h : Tidy s) : Tidy (goTo s i) := by
  unfold goTo
  repeat' (first | (with_reducible first | assumption | apply tidy_modCurStream))

theorem tidyOut_execBr {a : SReg} {neg : Bool} {off jd : BitVec 16} {s : State} (h : Tidy s) : TidyOut (execBr a neg off jd s) := by
  unfold execBr
  repeat' (first | (with_reducible first | assumption | apply tidy_modCurStream | apply Tidy.core | apply TidyOut.next | apply TidyOut.fault | apply TidyOut.refused | refine tidyOut_checked ?_ (fun s h => ?_)))

theorem tidyOut_execJmp {off : BitVec 16} {s : State} (h : Tidy s) : TidyOut (execJmp off s) := by
  unfold execJmp
  repeat' (first | (with_reducible first | assumption | apply tidy_goTo | apply TidyOut.next | apply TidyOut.fault | apply TidyOut.refused | refine tidyOut_checked ?_ (fun s h => ?_)))

theorem tidyOut_execCall {off : BitVec 16} {s : State} (h : Tidy s) : TidyOut (execCall off s) := by
  unfold execCall
  repeat' (first | (with_reducible first | assumption | apply tidy_goTo | refine tidy_modCur ?_ (fun c hc => ?_) | apply Tidy.core | apply TidyOut.next | apply TidyOut.fault | apply TidyOut.refused | refine tidyOut_checked ?_ (fun s h => ?_) | apply wf_set0 | apply TidyCore.empty) | dsimp only | split | with_reducible apply TidyCore.lit)

theorem tidyOut_execRet {s : State} (h : Tidy s) : TidyOut (execRet s) := by
  unfold execRet
  repeat' (first | (with_reducible first | assumption | apply tidy_faultNow | apply tidy_goTo | refine tidy_modCur ?_ (fun c hc => ?_) | apply Tidy.core | apply TidyOut.next | apply TidyOut.fault | apply TidyOut.refused | refine tidyOut_checked ?_ (fun s h => ?_) | apply wf_set0 | apply TidyCore.empty) | dsimp only | split | with_reducible apply TidyCore.lit)

theorem tidyOut_execNop {s : State} (h : Tidy s) : TidyOut (execNop s) := by
  unfold execNop
  repeat' (first | (with_reducible first | assumption | apply TidyOut.next))

theorem tidyOut_execLoop {id stg : BitVec 3} {body : BitVec 14} {count mx : BitVec 32} {s : State} (h : Tidy s) : TidyOut (execLoop id stg body count mx s) := by
  unfold execLoop
  repeat' (first | (with_reducible first | assumption | apply tidy_modCurStream | apply TidyOut.next | apply TidyOut.fault | apply TidyOut.refused | refine tidyOut_checked ?_ (fun s h => ?_)))

theorem tidyOut_execLend {id : BitVec 3} {s : State} (h : Tidy s) : TidyOut (execLend id s) := by
  unfold execLend
  repeat' (first | (with_reducible first | assumption | apply tidy_faultNow | apply tidy_modCurStream | apply TidyOut.next | apply TidyOut.fault | apply TidyOut.refused | refine tidyOut_checked ?_ (fun s h => ?_) | apply wf_set0 | apply TidyCore.empty) | dsimp only | split)

theorem tidyOut_execJoin {d : BitVec 32} {s : State} (h : Tidy s) : TidyOut (execJoin d s) := by
  unfold execJoin
  repeat' (first | (with_reducible first | assumption | apply tidy_faultNow | apply tidy_modCurStream | apply Tidy.core | apply TidyOut.next | apply TidyOut.fault | apply TidyOut.refused | refine tidyOut_checked ?_ (fun s h => ?_) | apply wf_set0 | apply TidyCore.empty) | dsimp only | split)

theorem tidyOut_execEndStream {s : State} (h : Tidy s) : TidyOut (execEndStream s) := by
  unfold execEndStream
  repeat' (first | (with_reducible first | assumption | apply tidy_modCurStream | apply TidyOut.next | apply TidyOut.fault | apply TidyOut.refused | refine tidyOut_checked ?_ (fun s h => ?_)))

theorem tidyOut_execMark {stage : BitVec 3} {s : State} (h : Tidy s) : TidyOut (execMark stage s) := by
  unfold execMark
  repeat' (first | (with_reducible first | assumption | apply tidy_modCurStream | apply TidyOut.next | apply TidyOut.fault | apply TidyOut.refused | refine tidyOut_checked ?_ (fun s h => ?_) | apply wf_set0 | apply TidyCore.empty) | dsimp only | split)

-- Machine/CpMove.lean ------------------------------------------------------------

theorem tidy_asksFail {q : Asks} {l : List Nat} : ∀ {s t : State} {code : Nat} {d : List Word}, Tidy s →
    q.fail s l = some (code, d, t) → Tidy t := by
  induction l with
  | nil => intro s t code d _ e; cases e
  | cons a r ih =>
    intro s t code d h e
    unfold Asks.fail at e
    dsimp only at e
    split at e
    · split at e
      · cases e
        exact tidy_watchNow h
      · exact ih (tidy_watchNow h) e
    · cases e
      exact h

theorem tidyOut_cpIssue {s : State} {l : List (Bool × Nat)} {q : Asks} {f : State → State}
    (h : Tidy s) (hf : ∀ s, Tidy s → Tidy (f s)) : TidyOut (cpIssue s l q f) := by
  unfold cpIssue
  split
  · exact .next (tidy_faultNow h)
  · split
    · rename_i e
      split at e
      · exact .next (tidy_faultNow (tidy_asksFail h e))
      · cases e
    · exact .next (hf _ h)

theorem tidyOut_execCpld {o : MoveOps} {s : State} (h : Tidy s) : TidyOut (execCpld o s) := by
  unfold execCpld
  repeat' (first | (with_reducible first | assumption | apply tidy_startJob | apply TidyOut.next | apply TidyOut.fault | apply TidyOut.refused | refine tidyOut_cpIssue ?_ (fun s h => ?_)))

theorem tidyOut_execCpst {o : MoveOps} {s : State} (h : Tidy s) : TidyOut (execCpst o s) := by
  unfold execCpst
  repeat' (first | (with_reducible first | assumption | apply tidy_startJob | apply TidyOut.next | apply TidyOut.fault | apply TidyOut.refused | refine tidyOut_cpIssue ?_ (fun s h => ?_)))

theorem tidyOut_execCpmov {o : MoveOps} {s : State} (h : Tidy s) : TidyOut (execCpmov o s) := by
  unfold execCpmov
  repeat' (first | (with_reducible first | assumption | apply tidy_startJob | apply TidyOut.next | apply TidyOut.fault | apply TidyOut.refused | refine tidyOut_cpIssue ?_ (fun s h => ?_)))

theorem tidyOut_execCpset {o : MoveOps} {mem : Bool} {s : State} (h : Tidy s) : TidyOut (execCpset o mem s) := by
  unfold execCpset
  repeat' (first | (with_reducible first | assumption | apply tidy_startJob | apply TidyOut.next | apply TidyOut.fault | apply TidyOut.refused | refine tidyOut_cpIssue ?_ (fun s h => ?_)))

theorem tidyOut_execCpldCb {o : MoveOps} {s : State} (h : Tidy s) : TidyOut (execCpldCb o s) := by
  unfold execCpldCb
  repeat' (first | (with_reducible first | assumption | apply tidy_startJob | apply TidyOut.next | apply TidyOut.fault | apply TidyOut.refused | refine tidyOut_cpIssue ?_ (fun s h => ?_)))

theorem tidyOut_execCpdec {sa sb sc : SReg} {run : Run} {s : State} (h : Tidy s) : TidyOut (execCpdec sa sb sc run s) := by
  unfold execCpdec
  repeat' (first | (with_reducible first | assumption | apply tidy_startJob | apply TidyOut.next | apply TidyOut.fault | apply TidyOut.refused | refine tidyOut_cpIssue ?_ (fun s h => ?_)))

theorem tidyOut_execCpgth {o : IndexOps} {s : State} (h : Tidy s) : TidyOut (execCpgth o s) := by
  unfold execCpgth
  repeat' (first | (with_reducible first | assumption | apply tidy_faultNow | apply tidy_startJob | apply Tidy.core | apply TidyOut.next | apply TidyOut.fault | apply TidyOut.refused | refine tidyOut_cpIssue ?_ (fun s h => ?_) | apply wf_set0 | apply TidyCore.empty) | dsimp only | split)

theorem tidyOut_execCpsct {o : IndexOps} {comb : Bool} {s : State} (h : Tidy s) : TidyOut (execCpsct o comb s) := by
  unfold execCpsct
  repeat' (first | (with_reducible first | assumption | apply tidy_faultNow | apply tidy_startJob | apply Tidy.core | apply TidyOut.next | apply TidyOut.fault | apply TidyOut.refused | refine tidyOut_cpIssue ?_ (fun s h => ?_) | apply wf_set0 | apply TidyCore.empty) | dsimp only | split)

-- Machine/CpFill.lean ------------------------------------------------------------

theorem tidyOut_cpFill {s : State} {kind num : Nat} {sa sb : SReg} {run : Run} {mem : Bool} {rows cols size : Nat} {ty : Ty} {own : List (Bool × Nat)} {late : List (Bool × Nat)} (h : Tidy s) : TidyOut (cpFill s kind num sa sb run mem rows cols size ty own late) := by
  unfold cpFill
  repeat' (first | (with_reducible first | assumption | apply tidy_startJob | apply TidyOut.next | apply TidyOut.fault | apply TidyOut.refused | refine tidyOut_cpIssue ?_ (fun s h => ?_)))

theorem tidyOut_execCpfill {sa sb : SReg} {slot : BitVec 5} {run : Run} {ty : Ty} {mem : Bool} {s : State} (h : Tidy s) : TidyOut (execCpfill sa sb slot run ty mem s) := by
  unfold execCpfill
  repeat' (first | (with_reducible first | assumption | apply tidyOut_cpFill))

theorem tidyOut_execCppat {sa sb : SReg} {pm : BitVec 3} {run : Run} {mem : Bool} {s : State} (h : Tidy s) : TidyOut (execCppat sa sb pm run mem s) := by
  unfold execCppat
  repeat' (first | (with_reducible first | assumption | apply tidyOut_cpFill))

theorem tidyOut_execCpcbk {sa sb : SReg} {k : BitVec 2} {run : Run} {mem : Bool} {s : State} (h : Tidy s) : TidyOut (execCpcbk sa sb k run mem s) := by
  unfold execCpcbk
  repeat' (first | (with_reducible first | assumption | apply tidyOut_cpFill))

theorem tidyOut_execCpvq {sa sb : SReg} {slot : BitVec 5} {run : Run} {ty : Ty} {rows : BitVec 6} {sp : Bool} {k : BitVec 2} {s : State} (h : Tidy s) : TidyOut (execCpvq sa sb slot run ty rows sp k s) := by
  unfold execCpvq
  repeat' (first | (with_reducible first | assumption | apply tidy_startJob | apply TidyOut.next | apply TidyOut.fault | apply TidyOut.refused | refine tidyOut_cpIssue ?_ (fun s h => ?_)))

theorem tidyOut_execCpexp {sa sb : SReg} {slot : BitVec 5} {y : BitVec 4} {run : Run} {ty : Ty} {rdim cdim : BitVec 3} {sp : Bool} {s : State} (h : Tidy s) : TidyOut (execCpexp sa sb slot y run ty rdim cdim sp s) := by
  unfold execCpexp
  repeat' (first | (with_reducible first | assumption | apply tidy_faultNow | apply tidy_startJob | apply Tidy.core | apply TidyOut.next | apply TidyOut.fault | apply TidyOut.refused | refine tidyOut_cpIssue ?_ (fun s h => ?_) | apply wf_set0 | apply TidyCore.empty) | dsimp only | split)

theorem tidyOut_execCpfld {sa sb : SReg} {tile y : BitVec 4} {run : Run} {ty : Ty} {rdim cdim : BitVec 3} {s : State} (h : Tidy s) : TidyOut (execCpfld sa sb tile y run ty rdim cdim s) := by
  unfold execCpfld
  repeat' (first | (with_reducible first | assumption | apply tidy_faultNow | apply tidy_startJob | refine tidy_modCur ?_ (fun c hc => ?_) | apply Tidy.core | apply TidyOut.next | apply TidyOut.fault | apply TidyOut.refused | refine tidyOut_cpIssue ?_ (fun s h => ?_) | apply wf_set0 | apply TidyCore.empty) | dsimp only | split | with_reducible apply TidyCore.lit)

-- Machine/CpExchange.lean ------------------------------------------------------------

theorem tidy_withCell {s : State} {n a : Nat} {f : Nat → State → State} (h : Tidy s) (hf : ∀ key s, Tidy s → Tidy (f key s)) :
    Tidy (withCell s n a f) := by
  unfold withCell
  dsimp only
  split
  · exact hf _ _ (tidy_requestNow (tidy_watchNow h))
  · exact tidy_deadEnd (tidy_watchNow h)
  · exact tidy_watchNow h

theorem tidyOut_execCpcini {sb sc : SReg} {s : State} (h : Tidy s) : TidyOut (execCpcini sb sc s) := by
  unfold execCpcini
  repeat' (first | (with_reducible first | assumption | apply tidy_addFlight | apply TidyOut.next | apply TidyOut.fault | apply TidyOut.refused | refine tidyOut_cpIssue ?_ (fun s h => ?_) | refine tidy_withCell ?_ (fun key s h => ?_) | apply wf_set0 | apply TidyCore.empty) | dsimp only | split)

theorem tidyOut_execCpatom {sa sb sc : SReg} {ty : Ty} {run : Run} {per : Bool} {s : State} (h : Tidy s) : TidyOut (execCpatom sa sb sc ty run per s) := by
  unfold execCpatom
  repeat' (first | (with_reducible first | assumption | apply tidy_startJob | apply TidyOut.next | apply TidyOut.fault | apply TidyOut.refused | refine tidyOut_cpIssue ?_ (fun s h => ?_)))

theorem tidyOut_execCpcrd {sa sb : SReg} {ty : Ty} {run : Run} {raw : Bool} {s : State} (h : Tidy s) : TidyOut (execCpcrd sa sb ty run raw s) := by
  unfold execCpcrd
  repeat' (first | (with_reducible first | assumption | apply tidy_addFlight | apply tidy_startJob | apply TidyOut.next | apply TidyOut.fault | apply TidyOut.refused | refine tidyOut_cpIssue ?_ (fun s h => ?_) | refine tidy_withCell ?_ (fun key s h => ?_) | apply wf_set0 | apply TidyCore.empty) | dsimp only | split)

theorem tidy_leaveHeader {s : State} {station : Nat} {words : List Nat} (h : Tidy s) : Tidy (leaveHeader s station words) := by
  unfold leaveHeader
  repeat' (first | (with_reducible first | assumption | refine tidy_modCur ?_ (fun c hc => ?_) | apply wf_set0 | apply TidyCore.empty) | dsimp only | split | with_reducible apply TidyCore.lit)

theorem tidy_startXfer {s : State} {x : Xfer} (h : Tidy s) : Tidy (startXfer s x) := by
  unfold startXfer
  repeat' (first | (with_reducible first | assumption | apply wf_set0 | apply TidyCore.empty) | dsimp only | split | with_reducible apply TidyCore.lit | with_reducible apply Tidy.lit)

theorem tidyOut_execCpput {sa sb sc : SReg} {lc : BitVec 6} {win : BitVec 8} {run : Run} {s : State} (h : Tidy s) : TidyOut (execCpput sa sb sc lc win run s) := by
  unfold execCpput
  repeat' (first | (with_reducible first | assumption | apply tidy_startJob | apply tidy_leaveHeader | apply tidy_startXfer | refine tidy_modCur ?_ (fun c hc => ?_) | apply TidyOut.next | apply TidyOut.fault | apply TidyOut.refused | refine tidyOut_cpIssue ?_ (fun s h => ?_) | apply wf_set0 | apply TidyCore.empty) | dsimp only | split | with_reducible apply TidyCore.lit)

theorem tidyOut_execCpget {sa sb sc : SReg} {lc : BitVec 6} {win : BitVec 8} {s : State} (h : Tidy s) : TidyOut (execCpget sa sb sc lc win s) := by
  unfold execCpget
  repeat' (first | (with_reducible first | assumption | apply tidy_leaveHeader | apply tidy_startXfer | apply TidyOut.next | apply TidyOut.fault | apply TidyOut.refused | refine tidyOut_cpIssue ?_ (fun s h => ?_) | apply wf_set0 | apply TidyCore.empty) | dsimp only | split)

theorem tidy_remotePlan {s : State} {k : Nat} {addr run first beats : Nat} (h : Tidy s) : Tidy (remotePlan s k addr run first beats) := by
  unfold remotePlan
  repeat' (first | (with_reducible first | assumption | refine tidy_modCore ?_ (fun c hc => ?_) | apply Tidy.core | apply wf_set0 | apply TidyCore.empty) | dsimp only | split | with_reducible apply TidyCore.lit)

theorem tidyOut_execCpxsnd {sa sb sc : SReg} {run : Run} {s : State} (h : Tidy s) : TidyOut (execCpxsnd sa sb sc run s) := by
  unfold execCpxsnd
  repeat' (first | (with_reducible first | assumption | apply tidy_faultNow | apply tidy_startJob | apply tidy_leaveHeader | apply tidy_remotePlan | apply TidyOut.next | apply TidyOut.fault | apply TidyOut.refused | refine tidyOut_cpIssue ?_ (fun s h => ?_) | apply wf_set0 | apply TidyCore.empty) | dsimp only | split)

theorem tidy_openWindow {s : State} {a n close expect : Nat} {red : Option Ty} (h : Tidy s) : Tidy (openWindow s a n close expect red) := by
  unfold openWindow
  repeat' (first | (with_reducible first | assumption | apply tidy_takeFault | refine tidy_modCur ?_ (fun c hc => ?_) | apply Tidy.core | apply wf_set0 | apply TidyCore.empty) | dsimp only | split | with_reducible apply TidyCore.lit)

theorem tidyOut_receive {s : State} {sa sb sc : SReg} {senders align : Nat} {red : Option Ty} (h : Tidy s) : TidyOut (receive s sa sb sc senders align red) := by
  unfold receive
  repeat' (first | (with_reducible first | assumption | apply tidy_openWindow | apply Tidy.core | apply TidyOut.next | apply TidyOut.fault | apply TidyOut.refused | refine tidyOut_cpIssue ?_ (fun s h => ?_) | apply wf_set0 | apply TidyCore.empty) | dsimp only | split)

theorem tidyOut_execCpxrcv {sa sb sc : SReg} {s : State} (h : Tidy s) : TidyOut (execCpxrcv sa sb sc s) := by
  unfold execCpxrcv
  repeat' (first | (with_reducible first | assumption | apply tidyOut_receive))

theorem tidyOut_execCpxred {sa sb sc : SReg} {ty : Ty} {snd : BitVec 4} {s : State} (h : Tidy s) : TidyOut (execCpxred sa sb sc ty snd s) := by
  unfold execCpxred
  repeat' (first | (with_reducible first | assumption | apply tidyOut_receive))

-- Machine/VecMem.lean ------------------------------------------------------------

theorem tidyOut_execVld {o : VMem} {s : State} (h : Tidy s) : TidyOut (execVld o s) := by
  unfold execVld
  repeat' (first | (with_reducible first | assumption | apply tidy_startJob | apply Tidy.core | apply TidyOut.next | apply TidyOut.fault | apply TidyOut.refused | refine tidyOut_checked ?_ (fun s h => ?_)))

theorem tidyOut_execVst {o : VMem} {s : State} (h : Tidy s) : TidyOut (execVst o s) := by
  unfold execVst
  repeat' (first | (with_reducible first | assumption | apply tidy_vePost | apply tidy_startJob | apply Tidy.core | apply TidyOut.next | apply TidyOut.fault | apply TidyOut.refused | refine tidyOut_checked ?_ (fun s h => ?_) | apply wf_set0 | apply TidyCore.empty) | dsimp only | split)

theorem tidyOut_execVldOrb {o : VMem} {y : BitVec 4} {s : State} (h : Tidy s) : TidyOut (execVldOrb o y s) := by
  unfold execVldOrb
  repeat' (first | (with_reducible first | assumption | apply tidy_faultNow | apply tidy_startJob | apply Tidy.core | apply TidyOut.next | apply TidyOut.fault | apply TidyOut.refused | apply wf_set0 | apply TidyCore.empty) | dsimp only | split)

theorem tidyOut_execVstOrb {o : VMem} {y : BitVec 4} {s : State} (h : Tidy s) : TidyOut (execVstOrb o y s) := by
  unfold execVstOrb
  repeat' (first | (with_reducible first | assumption | apply tidy_faultNow | apply tidy_postFlags | apply tidy_vePost | apply tidy_startJob | refine tidy_foldl (fun s a h => ?_) ?_ | apply Tidy.core | apply TidyOut.next | apply TidyOut.fault | apply TidyOut.refused | apply wf_set0 | apply TidyCore.empty) | dsimp only | split)

theorem tidyOut_execVcst {vd : VReg} {blk : Blk} {run : Run} {prd : Prd} {z : Bool} {ty : Ty} {qp : BitVec 2} {s : State} (h : Tidy s) : TidyOut (execVcst vd blk run prd z ty qp s) := by
  unfold execVcst
  repeat' (first | (with_reducible first | assumption | apply tidy_vePost | apply tidy_startJob | apply Tidy.core | apply TidyOut.next | apply TidyOut.fault | apply TidyOut.refused | refine tidyOut_checked ?_ (fun s h => ?_) | apply wf_set0 | apply TidyCore.empty) | dsimp only | split)

-- Machine/Fetch.lean ------------------------------------------------------------

theorem tidy_fetchOne {s t : State} {k : Nat} {st : Stream} (h : Tidy s) (e : fetchOne s k st = some t) : Tidy t := by
  unfold fetchOne at e
  dsimp only at e
  split at e
  · cases e
  · split at e
    · cases e
    · cases e
      exact tidy_setCore h (tidyCore_setStream (h.core k))

theorem tidyOut_execCommandFetch {k : Nat} {st : Stream} {s : State} (h : Tidy s) : TidyOut (execCommandFetch k st s) := by
  unfold execCommandFetch
  split
  · rename_i e
    split at e
    · exact .next ⟨(tidy_fetchOne h e).form⟩
    · cases e
  · exact .next h

-- Machine/Issue.lean ------------------------------------------------------------

theorem tidy_enterIssue {s : State} {k : Nat} {st : Stream} {f : Fetched} (h : Tidy s) : Tidy (enterIssue s k st f) := by
  unfold enterIssue
  repeat' (first | (with_reducible first | assumption | apply tidy_setCore | apply tidyCore_setStream | apply Tidy.core | apply wf_set0 | apply TidyCore.empty) | dsimp only | split | with_reducible apply TidyCore.lit | with_reducible apply Tidy.lit)

theorem tidy_leaveUnissued {s : State} {f : Fetched} (h : Tidy s) : Tidy (leaveUnissued s f) := by
  unfold leaveUnissued
  repeat' (first | (with_reducible first | assumption | apply tidy_modCurStream))

theorem tidy_insertRecord {s : State} {k pos : Nat} {r : List Word} (h : Tidy s) : Tidy (insertRecord s k pos r) := by
  unfold insertRecord
  repeat' (first | (with_reducible first | assumption | apply tidy_setCore | apply tidy_traceRecord | apply Tidy.core | apply wf_set0 | apply TidyCore.empty) | dsimp only | split | with_reducible apply TidyCore.lit)

theorem tidy_takeDebugStop {s : State} {pos : Nat} {loops : Word} (h : Tidy s) : Tidy (takeDebugStop s pos loops) := by
  unfold takeDebugStop
  repeat' (first | (with_reducible first | assumption | apply tidy_modDom | apply tidy_raiseHold | apply tidy_insertRecord | refine tidy_modCore ?_ (fun c hc => ?_) | apply Tidy.core | apply wf_set0 | apply TidyCore.empty) | dsimp only | split | with_reducible apply TidyCore.lit)

theorem tidy_takeDrainMark {s : State} {pos : Nat} {loops : Word} (h : Tidy s) : Tidy (takeDrainMark s pos loops) := by
  unfold takeDrainMark
  repeat' (first | (with_reducible first | assumption | apply tidy_modDom | apply tidy_insertRecord | apply wf_set0 | apply TidyCore.empty) | dsimp only | split)

theorem tidy_issueRecords {s : State} {pos : Nat} {loops : Word} (h : Tidy s) : Tidy (issueRecords s pos loops) := by
  unfold issueRecords
  repeat' (first | (with_reducible first | assumption | apply tidy_insertRecord | apply tidy_takeDebugStop | apply tidy_takeDrainMark | apply wf_set0 | apply TidyCore.empty) | dsimp only | split)

theorem tidy_afterIssue {s0 s : State} {i : Instr} (h : Tidy s) : Tidy (afterIssue s0 s i) := by
  unfold afterIssue
  repeat' (first | (with_reducible first | assumption | apply tidyCore_modStream | apply tidyCore_countEvent | refine tidy_modCur ?_ (fun c hc => ?_) | apply Tidy.core | apply wf_set0 | apply TidyCore.empty) | dsimp only | split | with_reducible apply TidyCore.lit)

theorem tidy_issueDone {s0 s : State} {f : Fetched} {i : Instr} (h : Tidy s) : Tidy (issueDone s0 s f i) := by
  unfold issueDone
  repeat' (first | (with_reducible first | assumption | apply tidy_leaveUnissued | apply tidy_issueRecords | apply tidy_afterIssue | apply Tidy.core | apply wf_set0 | apply TidyCore.empty) | dsimp only | split | with_reducible apply TidyCore.lit | with_reducible apply Tidy.lit)

theorem tidyOut_execUnassignedOpcode {x : BitVec 8} {s : State} (h : Tidy s) : TidyOut (execUnassignedOpcode x s) := by
  unfold execUnassignedOpcode
  repeat' (first | (with_reducible first | assumption | apply tidy_faultNow | apply TidyOut.next))

end Sys2Proof.Laws
end

