-- ==== Sys2Proof/Laws/TidyMachine.lean ====
section
/-! SUPPORT. The named operations keep the canonical form (Laws/Tidy.lean): frames, time, scheduling, pours, the mailbox, the fabric and services. -/

set_option Elab.async false

namespace Sys2Proof.Laws

open Sys2Proof Sys2Proof.Machine Sys2Proof.Claims

-- Machine/Frames.lean ------------------------------------------------------------

theorem tidy_writeSlot {s : State} {d : Domain} {k : Nat} {frame : List Word} {entries : List Nat} (h : Tidy s) : Tidy (writeSlot s d k frame entries) := by
  unfold writeSlot
  split
  · exact tidy_hubWrite h (wf_writeRun _ _ _ _ (wf_writeRun _ _ _ _ h.mem))
  · exact h

theorem tidy_writeFrame {s : State} {d : Domain} {f k : Nat} {copy : Bool} (h : Tidy s) : Tidy (writeFrame s d f k copy) := by
  unfold writeFrame
  repeat' (first | (with_reducible first | assumption | apply tidy_faultLog | apply tidy_writeSlot | apply Tidy.core | apply wf_set0 | apply TidyCore.empty) | dsimp only | split)

theorem tidy_writeFrames {s : State} {d : Domain} (h : Tidy s) : Tidy (writeFrames s d) := by
  unfold writeFrames
  repeat' (first | (with_reducible first | assumption | apply tidy_modDom | apply tidy_writeFrame | refine tidy_modCore ?_ (fun c hc => ?_) | refine tidy_foldl (fun s a h => ?_) ?_ | apply Tidy.core | apply wf_set0 | apply TidyCore.empty) | dsimp only | split | with_reducible apply TidyCore.lit)

theorem tidyCore_idleCore {c : CoreState} (_h : TidyCore c) : TidyCore (idleCore c) := ⟨TidyCore.empty.form⟩

theorem tidy_finishPuts {s : State} {d : Domain} (h : Tidy s) : Tidy (finishPuts s d) := by
  unfold finishPuts
  repeat' (first | (with_reducible first | assumption | apply Tidy.core | apply wf_set0 | apply TidyCore.empty) | dsimp only | split | with_reducible apply TidyCore.lit | with_reducible apply Tidy.lit)

theorem tidy_removeDomain {s : State} {pid : Nat} (h : Tidy s) : Tidy (removeDomain s pid) := by
  unfold removeDomain
  repeat' (first | (with_reducible first | assumption | apply tidyCore_idleCore | apply tidy_finishPuts | refine tidy_modCore ?_ (fun c hc => ?_) | refine tidy_foldl (fun s a h => ?_) ?_ | apply wf_set0 | apply TidyCore.empty) | dsimp only | split | with_reducible apply TidyCore.lit | with_reducible apply Tidy.lit)

theorem tidy_requestKill {s : State} {pid token : Nat} (h : Tidy s) : Tidy (requestKill s pid token) := by
  unfold requestKill
  repeat' (first | (with_reducible first | assumption | apply tidy_modDom))

theorem tidy_killFaultDomain {s : State} {d : Domain} (h : Tidy s) : Tidy (killFaultDomain s d) := by
  unfold killFaultDomain
  repeat' (first | (with_reducible first | assumption | apply tidy_requestKill | refine tidy_foldl (fun s a h => ?_) ?_ | apply wf_set0 | apply TidyCore.empty) | dsimp only | split)

theorem tidy_endFaulted {s : State} {d : Domain} (h : Tidy s) : Tidy (endFaulted s d) := by
  unfold endFaulted
  repeat' (first | (with_reducible first | assumption | apply tidy_writeFrames | apply tidy_removeDomain | apply tidy_killFaultDomain))

-- Machine/Time.lean ------------------------------------------------------------

theorem tidyOut_coreCycle {s : State} {k : Nat} {f : State → Domain → State} (h : Tidy s) (hf : ∀ s d, Tidy s → Tidy (f s d)) :
    TidyOut (coreCycle s k f) := by
  unfold coreCycle
  refine .next (tidy_inCycle h fun s d hs => ?_)
  split
  · exact hf _ _ hs
  · exact hs

theorem tidy_withPair {s : State} {d : Domain} {k : Nat} {p : Effect → Bool} {f : State → Nat → Option (List Flight) → State}
    (h : Tidy s) (hf : ∀ s k o, Tidy s → Tidy (f s k o)) : Tidy (withPair s d k p f) := by
  unfold withPair
  split
  · exact hf _ _ _ h
  · split
    · exact hf _ _ _ (hf _ _ _ h)
    · exact h

theorem tidyOut_execResultLanding {k : Nat} {s : State} (h : Tidy s) : TidyOut (execResultLanding k s) := by
  unfold execResultLanding
  repeat' (first | (with_reducible first | assumption | apply tidy_landResults | apply TidyOut.next | apply TidyOut.fault | apply TidyOut.refused | refine tidyOut_coreCycle ?_ (fun s d h => ?_) | refine tidy_withPair ?_ (fun s k o h => ?_)))

theorem tidyOut_execFillLanding {k : Nat} {s : State} (h : Tidy s) : TidyOut (execFillLanding k s) := by
  unfold execFillLanding
  repeat' (first | (with_reducible first | assumption | apply tidy_landFills | apply TidyOut.next | apply TidyOut.fault | apply TidyOut.refused | refine tidyOut_coreCycle ?_ (fun s d h => ?_) | refine tidy_withPair ?_ (fun s k o h => ?_)))

theorem tidyOut_execMemorySample {pid : Nat} {s : State} (h : Tidy s) : TidyOut (execMemorySample pid s) := by
  unfold execMemorySample
  repeat' (first | (with_reducible first | assumption | apply tidy_sampleMemory | apply TidyOut.next | apply TidyOut.fault | apply TidyOut.refused | refine tidy_inCycle ?_ (fun s d h => ?_)))

theorem tidyOut_execMemoryWriteLanding {pid : Nat} {s : State} (h : Tidy s) : TidyOut (execMemoryWriteLanding pid s) := by
  unfold execMemoryWriteLanding
  repeat' (first | (with_reducible first | assumption | apply tidy_landMemWrites | apply TidyOut.next | apply TidyOut.fault | apply TidyOut.refused | refine tidy_inCycle ?_ (fun s d h => ?_)))

theorem tidyOut_execAtomicApply {pid : Nat} {s : State} (h : Tidy s) : TidyOut (execAtomicApply pid s) := by
  unfold execAtomicApply
  repeat' (first | (with_reducible first | assumption | apply tidy_landAtoms | apply TidyOut.next | apply TidyOut.fault | apply TidyOut.refused | refine tidy_inCycle ?_ (fun s d h => ?_)))

theorem tidyOut_execSumCellAdd {pid : Nat} {s : State} (h : Tidy s) : TidyOut (execSumCellAdd pid s) := by
  unfold execSumCellAdd
  repeat' (first | (with_reducible first | assumption | apply tidy_landCellAdds | apply TidyOut.next | apply TidyOut.fault | apply TidyOut.refused | refine tidy_inCycle ?_ (fun s d h => ?_)))

theorem tidyOut_execCellInitLanding {pid : Nat} {s : State} (h : Tidy s) : TidyOut (execCellInitLanding pid s) := by
  unfold execCellInitLanding
  repeat' (first | (with_reducible first | assumption | apply tidy_landCellInits | apply TidyOut.next | apply TidyOut.fault | apply TidyOut.refused | refine tidy_inCycle ?_ (fun s d h => ?_)))

theorem tidyOut_execBeatLanding {k : Nat} {s : State} (h : Tidy s) : TidyOut (execBeatLanding k s) := by
  unfold execBeatLanding
  repeat' (first | (with_reducible first | assumption | apply tidy_landBeats | apply TidyOut.next | apply TidyOut.fault | apply TidyOut.refused | refine tidyOut_coreCycle ?_ (fun s d h => ?_)))

theorem tidyOut_execReceiveWindowClose {k : Nat} {s : State} (h : Tidy s) : TidyOut (execReceiveWindowClose k s) := by
  unfold execReceiveWindowClose
  repeat' (first | (with_reducible first | assumption | apply tidy_closeWindows | apply TidyOut.next | apply TidyOut.fault | apply TidyOut.refused | refine tidyOut_coreCycle ?_ (fun s d h => ?_)))

theorem tidy_noteMoved {s : State} {k : Nat} (h : Tidy s) : Tidy (noteMoved s k) := by
  refine tidy_foldl (fun s f h => ?_) h
  repeat' (first | (with_reducible first | assumption | apply tidy_modPkg) | dsimp only | split)

theorem tidyOut_execRangeChangeReach {k : Nat} {s : State} (h : Tidy s) : TidyOut (execRangeChangeReach k s) := by
  unfold execRangeChangeReach
  repeat' (first | (with_reducible first | assumption | apply tidy_reachRanges | apply tidy_noteMoved | apply TidyOut.next | apply TidyOut.fault | apply TidyOut.refused | refine tidyOut_coreCycle ?_ (fun s d h => ?_)))

theorem tidy_clearMet {s : State} {pid : Nat} (h : Tidy s) : Tidy (clearMet s pid) := by
  unfold clearMet
  repeat' (first | (with_reducible first | assumption | apply tidy_modDom | apply tidy_acquire | refine tidy_foldl (fun s a h => ?_) ?_ | apply wf_set0 | apply TidyCore.empty) | dsimp only | split)

theorem tidy_clearCauses {s : State} {pid : Nat} (h : Tidy s) : Tidy (clearCauses s pid) := by
  unfold clearCauses
  repeat' (first | (with_reducible first | assumption | apply tidy_modDom | apply tidy_clearMet))

theorem tidy_freezeDomain {s : State} {d : Domain} (h : Tidy s) : Tidy (freezeDomain s d) := by
  unfold freezeDomain
  repeat' (first | (with_reducible first | assumption | apply tidy_modDom))

theorem tidy_spendToken {s : State} {d : Domain} (h : Tidy s) : Tidy (spendToken s d) := by
  unfold spendToken
  repeat' (first | (with_reducible first | assumption | refine tidy_hubWrite ?_ ?_ | apply wf_writeNat | apply Tidy.mem) | dsimp only | split)

theorem tidy_keepCheckpoint {s : State} {d : Domain} (h : Tidy s) : Tidy (keepCheckpoint s d) := by
  unfold keepCheckpoint
  repeat' (first | (with_reducible first | assumption | apply tidy_modDom | apply tidy_spendToken | apply Tidy.core | apply wf_set0 | apply TidyCore.empty) | dsimp only | split)

theorem tidy_atFreeze {s : State} {d : Domain} (h : Tidy s) : Tidy (atFreeze s d) := by
  unfold atFreeze
  repeat' (first | (with_reducible first | assumption | apply tidy_writeFrames | apply tidy_finishPuts | apply tidy_endFaulted | apply Tidy.core | apply wf_set0 | apply TidyCore.empty) | dsimp only | split | with_reducible apply TidyCore.lit | with_reducible apply Tidy.lit)

theorem tidyOut_execHoldEffect {pid : Nat} {s : State} (h : Tidy s) : TidyOut (execHoldEffect pid s) := by
  unfold execHoldEffect
  repeat' (first | (with_reducible first | assumption | apply tidy_freezeDomain | apply tidy_keepCheckpoint | apply tidy_atFreeze | apply TidyOut.next | apply TidyOut.fault | apply TidyOut.refused | apply wf_set0 | apply TidyCore.empty) | dsimp only | split)

theorem tidy_packageSlack {s : State} {d : Domain} {n pkg : Nat} (h : Tidy s) : Tidy (packageSlack s d n pkg) := by
  unfold packageSlack
  repeat' (first | (with_reducible first | assumption | apply tidy_waitLog | apply tidy_raiseCause | apply wf_set0 | apply TidyCore.empty) | dsimp only | split)

theorem tidy_spendSlack {s : State} {d : Domain} {n : Nat} (h : Tidy s) : Tidy (spendSlack s d n) := by
  unfold spendSlack
  repeat' (first | (with_reducible first | assumption | apply tidy_modDom | apply tidy_takeFault | apply tidy_packageSlack | refine tidy_foldl (fun s a h => ?_) ?_ | apply Tidy.core | apply wf_set0 | apply TidyCore.empty) | dsimp only | split)

theorem tidy_reachSlack {s : State} {d : Domain} (h : Tidy s) : Tidy (reachSlack s d) := by
  unfold reachSlack
  repeat' (first | (with_reducible first | assumption | apply tidy_spendSlack | apply wf_set0 | apply TidyCore.empty) | dsimp only | split)

theorem tidyOut_execSlackPoint {pid : Nat} {s : State} (h : Tidy s) : TidyOut (execSlackPoint pid s) := by
  unfold execSlackPoint
  repeat' (first | (with_reducible first | assumption | apply tidy_modDom | apply tidy_reachSlack | apply TidyOut.next | apply TidyOut.fault | apply TidyOut.refused | apply wf_set0 | apply TidyCore.empty) | dsimp only | split)

theorem tidy_releaseDomain {s : State} {d : Domain} (h : Tidy s) : Tidy (releaseDomain s d) := by
  unfold releaseDomain
  repeat' (first | (with_reducible first | assumption | apply tidy_modDom | apply tidy_waitLog | refine tidy_modCore ?_ (fun c hc => ?_) | refine tidy_foldl (fun s a h => ?_) ?_ | apply wf_set0 | apply TidyCore.empty) | dsimp only | split | with_reducible apply TidyCore.lit)

theorem tidyOut_execHoldRelease {pid : Nat} {s : State} (h : Tidy s) : TidyOut (execHoldRelease pid s) := by
  unfold execHoldRelease
  repeat' (first | (with_reducible first | assumption | apply tidy_clearCauses | apply tidy_reachSlack | apply tidy_releaseDomain | apply TidyOut.next | apply TidyOut.fault | apply TidyOut.refused | apply wf_set0 | apply TidyCore.empty) | dsimp only | split)

theorem tidyOut_execHoldBudgetExceeded {pid : Nat} {s : State} (h : Tidy s) : TidyOut (execHoldBudgetExceeded pid s) := by
  unfold execHoldBudgetExceeded
  repeat' (first | (with_reducible first | assumption | apply tidy_takeFault | apply tidy_endFaulted | apply TidyOut.next | apply TidyOut.fault | apply TidyOut.refused | apply wf_set0 | apply TidyCore.empty) | dsimp only | split)

theorem tidyOut_execRateCreditRefill {k : Nat} {s : State} (h : Tidy s) : TidyOut (execRateCreditRefill k s) := by
  unfold execRateCreditRefill
  repeat' (first | (with_reducible first | assumption | refine tidy_modCore ?_ (fun c hc => ?_) | apply TidyOut.next | apply TidyOut.fault | apply TidyOut.refused | apply wf_set0 | apply TidyCore.empty) | dsimp only | split | with_reducible apply TidyCore.lit)

theorem tidyOut_execBeatCreditRefill {k : Nat} {s : State} (h : Tidy s) : TidyOut (execBeatCreditRefill k s) := by
  unfold execBeatCreditRefill
  repeat' (first | (with_reducible first | assumption | refine tidy_modCore ?_ (fun c hc => ?_) | apply TidyOut.next | apply TidyOut.fault | apply TidyOut.refused | apply wf_set0 | apply TidyCore.empty) | dsimp only | split | with_reducible apply TidyCore.lit)

theorem tidyCore_orderRecords {c : CoreState} (h : TidyCore c) : TidyCore (orderRecords c) := by
  unfold orderRecords
  repeat' (first | (with_reducible first | assumption | apply wf_set0 | apply TidyCore.empty) | dsimp only | split | with_reducible apply TidyCore.lit)

theorem tidyCore_advanceCore {c : CoreState} (h : TidyCore c) : TidyCore (advanceCore c) := by
  unfold advanceCore
  repeat' (first | (with_reducible first | assumption | apply wf_set0 | apply TidyCore.empty) | dsimp only | split | with_reducible apply TidyCore.lit)

theorem tidyCore_stopCore {c : CoreState} (h : TidyCore c) : TidyCore (stopCore c) := by
  unfold stopCore
  repeat' (first | (with_reducible first | assumption | apply wf_set0 | apply TidyCore.empty) | dsimp only | split | with_reducible apply TidyCore.lit)

theorem tidyCore_endCore {c : CoreState} (h : TidyCore c) : TidyCore (endCore c) := by
  unfold endCore
  repeat' (first | (with_reducible first | assumption | apply tidyCore_orderRecords | apply tidyCore_advanceCore | apply tidyCore_stopCore | apply wf_set0 | apply TidyCore.empty) | dsimp only | split | with_reducible apply TidyCore.lit)

theorem tidy_suppress {s : State} {d : Domain} {p q : Nat} {f : Flight} (h : Tidy s) : Tidy (suppress s d p q f) := by
  unfold suppress
  repeat' (first | (with_reducible first | assumption | apply tidy_dropBeat | refine tidy_modCore ?_ (fun c hc => ?_) | apply Tidy.core | apply wf_set0 | apply TidyCore.empty) | dsimp only | split | with_reducible apply TidyCore.lit | with_reducible apply Tidy.lit)

theorem tidy_comparePair {s : State} {d : Domain} {p q : Nat} (h : Tidy s) : Tidy (comparePair s d p q) := by
  unfold comparePair
  repeat' (first | (with_reducible first | assumption | apply tidy_pairFault | apply tidy_suppress | refine tidy_foldl (fun s a h => ?_) ?_))

theorem tidy_comparePairs {s : State} {d : Domain} (h : Tidy s) : Tidy (comparePairs s d) := by
  unfold comparePairs
  repeat' (first | (with_reducible first | assumption | apply tidy_comparePair | refine tidy_foldl (fun s a h => ?_) ?_ | apply wf_set0 | apply TidyCore.empty) | dsimp only | split)

theorem tidy_checkQueue {s : State} {k : Nat} (h : Tidy s) : Tidy (checkQueue s k) := by
  unfold checkQueue
  repeat' (first | (with_reducible first | assumption | apply tidy_setCore | apply tidy_takeFault | apply Tidy.core | apply wf_set0 | apply TidyCore.empty) | dsimp only | split | with_reducible apply TidyCore.lit)

theorem tidy_checkWaits {s : State} {d : Domain} (h : Tidy s) : Tidy (checkWaits s d) := by
  unfold checkWaits
  repeat' (first | (with_reducible first | assumption | apply tidy_takeFault | apply Tidy.core | apply wf_set0 | apply TidyCore.empty) | dsimp only | split)

theorem tidy_takeLateStop {s : State} {d : Domain} {k : Nat} (h : Tidy s) : Tidy (takeLateStop s d k) := by
  unfold takeLateStop
  repeat' (first | (with_reducible first | assumption | apply tidy_insertRecord | refine tidy_foldl (fun s a h => ?_) ?_ | apply tidy_raiseCause | refine tidy_modCore ?_ (fun c hc => ?_) | apply Tidy.core | apply wf_set0 | apply TidyCore.empty) | dsimp only | split | with_reducible apply TidyCore.lit)

theorem tidy_settleStops {s : State} {d : Domain} (h : Tidy s) : Tidy (settleStops s d) := by
  unfold settleStops
  repeat' (first | (with_reducible first | assumption | apply tidy_modDom | apply tidy_takeLateStop | refine tidy_modCore ?_ (fun c hc => ?_) | refine tidy_foldl (fun s a h => ?_) ?_ | apply wf_set0 | apply TidyCore.empty) | dsimp only | split | with_reducible apply TidyCore.lit)

theorem tidy_advanceDomain {s : State} {d : Domain} (h : Tidy s) : Tidy (advanceDomain s d) := by
  unfold advanceDomain
  repeat' (first | (with_reducible first | assumption | apply tidy_modDom | apply tidy_clearCauses | apply tidyCore_endCore | apply tidy_comparePairs | apply tidy_checkQueue | apply tidy_checkWaits | apply tidy_settleStops | refine tidy_modCore ?_ (fun c hc => ?_) | refine tidy_foldl (fun s a h => ?_) ?_))

theorem tidyOut_execDccAdvance {pid : Nat} {s : State} (h : Tidy s) : TidyOut (execDccAdvance pid s) := by
  unfold execDccAdvance
  repeat' (first | (with_reducible first | assumption | apply tidy_advanceDomain | apply TidyOut.next | apply TidyOut.fault | apply TidyOut.refused | refine tidy_inCycle ?_ (fun s d h => ?_)))

-- Machine/Launch.lean ------------------------------------------------------------

theorem tidy_poolAdd {s : State} {pkg part no e : Nat} {m : List Word} (h : Tidy s) : Tidy (poolAdd s pkg part no e m) := by
  unfold poolAdd
  repeat' (first | (with_reducible first | assumption | apply tidy_modPart))

theorem tidy_refillPool {s : State} {pkg part : Nat} (h : Tidy s) : Tidy (refillPool s pkg part) := by
  unfold refillPool
  repeat' (first | (with_reducible first | assumption | apply tidy_modPart | apply tidy_poolAdd | refine tidy_foldl (fun s a h => ?_) ?_ | apply wf_set0 | apply TidyCore.empty) | dsimp only | split)

theorem tidy_armMould {s : State} {pkg part no : Nat} (h : Tidy s) : Tidy (armMould s pkg part no).1 := by
  unfold armMould
  dsimp only
  split
  · exact h
  · split
    · exact h
    · split
      · exact h
      · exact tidy_poolAdd h

theorem tidy_hubRequest {s : State} {k : Nat} {f : Flight} (h : Tidy s) : Tidy (hubRequest s k f) := by
  unfold hubRequest
  split
  · dsimp only
    split
    · exact tidy_addBoth (tidy_armMould h)
    · exact tidy_modCore (tidy_armMould h) fun c hc => tidyCore_sput hc
  · exact tidy_modPkg h
  · exact h

theorem tidy_sysRequests {s : State} {k : Nat} {p : Effect → Bool} (h : Tidy s) : Tidy (sysRequests s k p) := by
  exact tidy_foldl (fun s f h => tidy_hubRequest h) (tidy_setCore h ⟨(h.core k).form⟩)

theorem tidy_hubRequests {s : State} {d : Domain} {k : Nat} {p : Effect → Bool} (h : Tidy s) : Tidy (hubRequests s d k p) := by
  unfold hubRequests
  dsimp only
  split
  · exact tidy_foldl (fun s f h => tidy_hubRequest h) (tidy_setCore h (tidyCore_dueOf (h.core k)))
  · exact tidy_setCore h (tidyCore_dueOf (h.core k))

theorem tidyOut_execArmPoolArrival {k : Nat} {s : State} (h : Tidy s) : TidyOut (execArmPoolArrival k s) := by
  unfold execArmPoolArrival
  split
  · exact .next (tidy_sysRequests h)
  · exact tidyOut_coreCycle h fun s d h => tidy_hubRequests h

theorem tidyOut_execMpatLanding {k : Nat} {s : State} (h : Tidy s) : TidyOut (execMpatLanding k s) := by
  unfold execMpatLanding
  split
  · exact .next (tidy_sysRequests h)
  · exact tidyOut_coreCycle h fun s d h => tidy_hubRequests h

-- Machine/Sched.lean ------------------------------------------------------------

theorem tidy_modArmed {s : State} {pkg pid : Nat} {f : Armed → Armed} (h : Tidy s) : Tidy (modArmed s pkg pid f) := by
  unfold modArmed
  repeat' (first | (with_reducible first | assumption | apply tidy_modPkg))

theorem tidy_dropArmed {s : State} {pkg : Nat} {a : Armed} (h : Tidy s) : Tidy (dropArmed s pkg a) := by
  unfold dropArmed
  repeat' (first | (with_reducible first | assumption | apply tidy_modPkg | apply tidy_refillPool))

theorem tidy_drainVictim {s : State} {d : Domain} (h : Tidy s) : Tidy (drainVictim s d) := by
  unfold drainVictim
  repeat' (first | (with_reducible first | assumption | apply tidy_modDom))

theorem tidy_stopVictim {s : State} {d : Domain} {w : Option StopWhy} (h : Tidy s) : Tidy (stopVictim s d w) := by
  unfold stopVictim
  repeat' (first | (with_reducible first | assumption | apply tidy_modDom))

theorem tidy_decideVictim {s : State} {h : Armed} {prio : Nat} {d : Domain} (hT : Tidy s) : Tidy (decideVictim s h prio d) := by
  unfold decideVictim
  repeat' (first | (with_reducible first | assumption | apply tidy_modDom | apply tidy_drainVictim | apply tidy_stopVictim | apply wf_set0 | apply TidyCore.empty) | dsimp only | split)

theorem tidy_preempt {s : State} {pkg : Nat} {h : Armed} {prio : Nat} (hT : Tidy s) : Tidy (preempt s pkg h prio) := by
  unfold preempt
  repeat' (first | (with_reducible first | assumption | apply tidy_decideVictim | refine tidy_foldl (fun s a h => ?_) ?_))

theorem tidy_cancelDecision {s : State} {d : Domain} (h : Tidy s) : Tidy (cancelDecision s d) := by
  unfold cancelDecision
  split
  · refine tidy_foldl (fun s x h => ?_) (tidy_modDom h)
    split
    · exact tidy_decideVictim h
    · exact h
  · exact h

theorem tidy_cancelDecisions {s : State} (h : Tidy s) : Tidy (cancelDecisions s) := tidy_foldl (fun s d h => tidy_cancelDecision h) h

theorem tidy_admitOn {s : State} {a : Armed} {cores : List Nat} (h : Tidy s) : Tidy (admitOn s a cores) := by
  unfold admitOn
  repeat' (first | (with_reducible first | assumption | apply tidy_modArmed | apply wf_set0 | apply TidyCore.empty) | dsimp only | split | with_reducible apply TidyCore.lit | with_reducible apply Tidy.lit)

theorem tidy_reserveIn {s : State} {pkg : Nat} {a : Armed} {cores : List Nat} (h : Tidy s) : Tidy (reserveIn s pkg a cores) := by
  unfold reserveIn
  repeat' (first | (with_reducible first | assumption | apply tidy_modArmed))

theorem tidy_reserve {s : State} {pkg die : Nat} {h : Armed} (hT : Tidy s) : Tidy (reserve s pkg die h) := by
  unfold reserve
  repeat' (first | (with_reducible first | assumption | apply tidy_reserveIn | apply wf_set0 | apply TidyCore.empty) | dsimp only | split)

theorem tidy_unreserve {s : State} {pkg pid : Nat} (h : Tidy s) : Tidy (unreserve s pkg pid) := by
  unfold unreserve
  repeat' (first | (with_reducible first | assumption | apply tidy_reserveIn | apply wf_set0 | apply TidyCore.empty) | dsimp only | split)

theorem tidy_walkGroup {s t : State} {pkg die : Nat} {a : Armed} (h : Tidy s) (e : walkGroup s pkg die a = some t) : Tidy t := by
  unfold walkGroup at e
  split at e
  · cases e
  · split at e
    · cases e
    · dsimp only at e
      split at e
      · cases e
        exact tidy_reserveIn h
      · split at e
        · cases e
          exact tidy_admitOn (tidy_reserveIn h)
        · cases e

theorem tidy_walkOne {pkg die : Nat} {x : State × Option (Nat × Armed)} {y : Nat × Armed} (h : Tidy x.1) :
    Tidy (walkOne pkg die x y).1 := by
  obtain ⟨s, head⟩ := x
  unfold walkOne
  dsimp only
  split
  · exact h
  · split
    · exact tidy_admitOn h
    · split
      · split
        · rename_i e
          exact tidy_walkGroup h e
        · exact h
      · split
        · split
          · exact tidy_admitOn h
          · exact h
        · split <;> exact h

theorem tidyOut_execSchedulingRound {pkg die : Nat} {s : State} (h : Tidy s) : TidyOut (execSchedulingRound pkg die s) := by
  unfold execSchedulingRound
  have q := foldl_keeps (fun x : State × Option (Nat × Armed) => Tidy x.1) (walkOne pkg die) (fun x y hx => tidy_walkOne hx)
    (ranking s pkg die) (s, none) h
  generalize List.foldl (walkOne pkg die) (s, none) (ranking s pkg die) = x at q
  obtain ⟨t, head⟩ := x
  dsimp only at q
  generalize hold : Sparse.get (0, 0) (getPkg s pkg).heads die = old
  have r : ∀ {p : Prop} [Decidable p] {i : Nat}, Tidy (if p then unreserve t pkg i else t) := by
    intro p _ i
    split
    · exact tidy_unreserve q
    · exact q
  refine .next ?_
  cases head with
  | none => exact tidy_cancelDecisions (tidy_modPkg r)
  | some x =>
    dsimp only
    split
    · exact tidy_preempt (tidy_cancelDecisions (tidy_reserve (tidy_modPkg r)))
    · exact tidy_cancelDecisions (tidy_reserve (tidy_modPkg r))

theorem tidyOut_execPriorityAging {pkg pid : Nat} {s : State} (h : Tidy s) : TidyOut (execPriorityAging pkg pid s) := by
  unfold execPriorityAging
  refine .next ?_
  split
  · exact h
  · refine tidy_foldl (fun s die h => ?_) h
    dsimp only
    split
    · exact tidy_preempt (tidy_modPkg h)
    · exact h

theorem tidyOut_execSchedulerStop {pid : Nat} {s : State} (h : Tidy s) : TidyOut (execSchedulerStop pid s) := by
  unfold execSchedulerStop
  repeat' (first | (with_reducible first | assumption | apply tidy_modDom | apply tidy_drainVictim | apply TidyOut.next | apply TidyOut.fault | apply TidyOut.refused | apply wf_set0 | apply TidyCore.empty) | dsimp only | split)

-- Machine/Pours.lean ------------------------------------------------------------

theorem wf_loadSpad (bytes : List (Nat × Byte)) (n : Nat) (m : List Word) : Memory.wf (loadSpad bytes n m) = true := by
  unfold loadSpad
  refine foldl_keeps (fun m => Memory.wf m = true) _ (fun b i hb => ?_) _ _
    (foldl_keeps (fun m => Memory.wf m = true) _ (fun b x hb => wf_write _ _ _ hb) _ _ (by decide))
  dsimp only
  split
  · exact wf_writeNat _ _ _ _ hb
  · exact hb

theorem tidyCore_loadCore {old : CoreState} {pid : Nat} {im : Config.CoreImage} {m : List Word} {ranges : Sparse RangeEntry} :
    TidyCore (loadCore old pid im m ranges) := by
  have sy := wf_foldSet ({} : SyEntry) Prod.fst (fun y : Nat × BitVec 512 => ⟨true, y.2⟩) (im.sy.filter (fun y => decide (y.1 < 16)))
  have pm := wf_foldSet (0 : Row) Prod.fst Prod.snd (im.pm.filter (fun x => decide (x.1 < 64)))
  have cb := wf_foldSet (0 : Row) Prod.fst Prod.snd (im.cb.filter (fun x => decide (x.1 < 64)))
  exact ⟨((((TidyCore.empty.setSpad (wf_loadSpad im.spad im.params m)).setSy sy).setPm pm).setCb cb).form⟩

theorem tidy_pourRecord {s : State} {kind : Nat} {d : Domain} {dcc k : Nat} (h : Tidy s) : Tidy (pourRecord s kind d dcc k) := by
  unfold pourRecord
  repeat' (first | (with_reducible first | assumption | apply tidy_insertRecord | apply wf_set0 | apply TidyCore.empty) | dsimp only | split)

theorem tidy_failStart {s : State} {pkg : Nat} {a : Armed} {code : Nat} (h : Tidy s) : Tidy (failStart s pkg a code) := by
  unfold failStart
  refine tidy_dropArmed ?_
  split
  · exact tidy_faultLog h
  · exact h

theorem tidy_beginPour {s : State} {pkg : Nat} {a : Armed} {images : List Config.CoreImage} (h : Tidy s) : Tidy (beginPour s pkg a images) := by
  unfold beginPour
  repeat' (first | (with_reducible first | assumption | apply tidy_setCore | apply tidy_raiseCause | apply tidy_dropArmed | apply tidyCore_loadCore | apply tidy_pourRecord | refine tidy_foldl (fun s a h => ?_) ?_ | apply Tidy.core | apply wf_set0 | apply TidyCore.empty) | dsimp only | split | with_reducible apply TidyCore.lit | with_reducible apply Tidy.lit)

theorem tidyOut_execPourStart {pkg pid : Nat} {s : State} (h : Tidy s) : TidyOut (execPourStart pkg pid s) := by
  unfold execPourStart
  repeat' (first | (with_reducible first | assumption | apply tidy_failStart | apply tidy_beginPour | apply TidyOut.next | apply TidyOut.fault | apply TidyOut.refused | apply wf_set0 | apply TidyCore.empty) | dsimp only | split)

theorem tidy_armSuccessor {s : State} {d : Domain} {no : Nat} (h : Tidy s) : Tidy (armSuccessor s d no) := by
  unfold armSuccessor
  repeat' (first | (with_reducible first | assumption | apply tidy_modPart | apply tidy_faultLog | apply tidy_armMould | apply wf_set0 | apply TidyCore.empty) | dsimp only | split)

theorem tidyOut_execPourEnd {pid : Nat} {s : State} (h : Tidy s) : TidyOut (execPourEnd pid s) := by
  unfold execPourEnd
  repeat' (first | (with_reducible first | assumption | apply tidy_removeDomain | apply tidy_pourRecord | apply tidy_armSuccessor | refine tidy_foldl (fun s a h => ?_) ?_ | apply Tidy.core | apply TidyOut.next | apply TidyOut.fault | apply TidyOut.refused | apply wf_set0 | apply TidyCore.empty) | dsimp only | split)

theorem tidyOut_execPourKill {pid : Nat} {s : State} (h : Tidy s) : TidyOut (execPourKill pid s) := by
  unfold execPourKill
  repeat' (first | (with_reducible first | assumption | apply tidy_faultLog | apply tidy_removeDomain | apply tidy_spendToken | apply TidyOut.next | apply TidyOut.fault | apply TidyOut.refused | apply wf_set0 | apply TidyCore.empty) | dsimp only | split)

theorem tidy_saveSlot {s : State} {d : Domain} {area k : Nat} (h : Tidy s) : Tidy (saveSlot s d area k) := by
  unfold saveSlot
  exact tidy_hubWrite ⟨h.form⟩ (wf_writeRun _ _ _ _ (wf_writeRun _ _ _ _ (wf_splice _ _ _ _ (wf_splice _ _ _ _ (wf_splice _ _ _ _
    (wf_splice _ _ _ _ (wf_splice _ _ _ _ (wf_splice _ _ _ _ h.mem))))))))

theorem tidy_saveHeader {s : State} {d : Domain} {area rtt : Nat} (h : Tidy s) : Tidy (saveHeader s d area rtt) := by
  unfold saveHeader
  exact tidy_hubWrite h (wf_writeRun _ _ _ _ h.mem)

theorem tidyCore_savedCore {c : CoreState} (h : TidyCore c) : TidyCore (savedCore c) := ⟨h.form⟩

theorem tidyOut_execCheckpointSave {pid : Nat} {s : State} (h : Tidy s) : TidyOut (execCheckpointSave pid s) := by
  unfold execCheckpointSave
  refine .next ?_
  split
  · exact h
  · split
    · dsimp only
      split
      · exact h
      · rename_i d _ _ rtt _ _ _ _
        have r := tidy_foldl (f := fun x k => saveSlot x d (ckptArea s d d.home) k) (fun s k h => tidy_saveSlot h) (l := d.cores)
          (tidy_saveHeader (d := d) (area := ckptArea s d d.home) (rtt := rtt) h)
        refine tidy_modPkg (tidy_removeDomain (tidy_faultLog (r.setSaved ?_)))
        intro v hv
        rcases List.mem_cons.1 hv with rfl | hv
        · refine List.all_eq_true.2 fun x hx => ?_
          obtain ⟨i, -, rfl⟩ := List.mem_map.1 hx
          exact (tidyCore_savedCore (r.core _)).form
        · obtain ⟨x, hx, rfl⟩ := List.mem_map.1 hv
          have q := r.saved x (List.mem_of_mem_filter hx)
          split <;> exact q
    · exact h

theorem wf_shift (m : Memory) (a n : Nat) (h : Memory.wf m = true) :
    Memory.wf ((m.filter (fun x => decide (a ≤ x.1 ∧ x.1 < a + n))).map (fun x => (x.1 - a, x.2))) = true := by
  have q : ∀ (l : Memory) (lo : Nat), Sparse.wfFrom Memory.blank lo l = true → (∀ x ∈ l, a ≤ x.1) →
      Sparse.wfFrom Memory.blank (lo - a) (l.map (fun x => (x.1 - a, x.2))) = true := by
    intro l
    induction l with
    | nil => intros; rfl
    | cons x r ih =>
      intro lo h hl
      obtain ⟨k, v⟩ := x
      have hk : a ≤ k := hl (k, v) (by simp)
      simp only [Sparse.wfFrom, Bool.and_eq_true, decide_eq_true_eq, List.map_cons] at h ⊢
      refine ⟨⟨by omega, h.1.2⟩, ?_⟩
      have := ih (k + 1) h.2 (fun x hx => hl x (by simp [hx]))
      rwa [show k + 1 - a = k - a + 1 by omega] at this
  have := q (m.filter (fun x => decide (a ≤ x.1 ∧ x.1 < a + n))) 0 (wfFrom_filter Memory.blank _ m h) (fun x hx => by
    have := (List.mem_filter.1 hx).2
    simp only [decide_eq_true_eq] at this
    exact this.1)
  rwa [Nat.zero_sub] at this

theorem wf_rowsAt (m : Memory) (a n : Nat) : Sparse.wfFrom 0 0 (rowsAt m a n) = true :=
  wf_foldSet 0 id (fun i => BitVec.ofNat 1024 (Memory.readNat m (a + 128 * i) 128)) (List.range n)

theorem wf_slotsAt (m : Memory) (a : Nat) (c : CoreState) : Sparse.wfFrom 0 0 (slotsAt m a c) = true := by
  refine foldl_keeps (fun t => Sparse.wfFrom 0 0 t = true) _ (fun t n ht => ?_) _ _ rfl
  exact foldl_keeps (fun t => Sparse.wfFrom 0 0 t = true) _ (fun t r ht => wf_set0 ht) _ _ ht

theorem tidyCore_keepReturned {c : CoreState} {f : Flight} (h : TidyCore c) : TidyCore (keepReturned c f) := by
  unfold keepReturned
  split
  · exact ⟨h.form⟩
  · exact ⟨h.form⟩
  · exact h

theorem tidyCore_returnedUnits {m : Memory} {slot : Nat} {c : CoreState} (h : TidyCore c) : TidyCore (returnedUnits m slot c) :=
  tidyCore_foldl (fun c f h => tidyCore_keepReturned h) ⟨h.form⟩

theorem tidyCore_restoreCore {m : Memory} {slot : Nat} {old c : CoreState} {d0 d : Domain} {ranges : Sparse RangeEntry}
    (hm : Memory.wf m = true) (h : TidyCore c) : TidyCore (restoreCore m slot old d0 d c ranges) := by
  have hx := tidyCore_returnedUnits (m := m) (slot := slot) h
  rw [tidyCore_iff] at *
  simp only [restoreCore]
  generalize returnedUnits m slot c = x at hx ⊢
  obtain ⟨-, h1, -, h2, h3, h4, h5, h6, -, h7, h8, -, -⟩ := hx
  exact ⟨wf_shift m slot 0x180000 hm, h1, wf_rowsAt m _ _, h2, h3, h4, h5, h6, wf_slotsAt m _ x, h7, h8, wf_rowsAt m _ _, wf_rowsAt m _ _⟩

theorem tidyOut_execPourRestore {pkg pid : Nat} {s : State} (h : Tidy s) : TidyOut (execPourRestore pkg pid s) := by
  unfold execPourRestore
  refine .next ?_
  split
  · exact h
  · split
    · exact h
    · split
      · exact h
      · split
        · exact tidy_failStart h
        · rename_i v hv
          have hc : ∀ x ∈ v.cores, tidyCore x.2 = true := List.all_eq_true.1 (h.saved v (List.mem_of_find?_eq_some hv))
          split
          · exact tidy_failStart h
          · dsimp only
            have hs : Tidy { s with saved := s.saved.map (fun x => if x.pid = pid ∧ x.f = v.f then { x with restored := true } else x) } :=
              h.setSaved fun x hx => by
                obtain ⟨y, hy, rfl⟩ := List.mem_map.1 hx
                have q := h.saved y hy
                split <;> exact q
            refine tidy_dropArmed (Tidy.lit (tidy_foldl (fun s k h => tidy_setCore h (tidyCore_restoreCore h.mem ?_)) hs))
            generalize hf : v.cores.find? (fun x => x.1 == relOf (newDomain _ pkg _) k) = o
            cases o with
            | none => exact TidyCore.empty
            | some x => exact ⟨hc x (List.mem_of_find?_eq_some hf)⟩

-- Machine/Mailbox.lean ------------------------------------------------------------

theorem tidy_raiseThermal {s : State} {pkg : Nat} (h : Tidy s) : Tidy (raiseThermal s pkg) := by
  unfold raiseThermal
  repeat' (first | (with_reducible first | assumption | apply tidy_modPkg | apply tidy_raiseCause | refine tidy_foldl (fun s a h => ?_) ?_))

theorem tidy_thermalCheck {s : State} {pkg : Nat} (h : Tidy s) : Tidy (thermalCheck s pkg) := by
  unfold thermalCheck
  repeat' (first | (with_reducible first | assumption | apply tidy_modPkg | apply tidy_raiseThermal) | dsimp only | split)

theorem tidyOut_mailbox {s : State} {pkg part : Nat} {f : State → State × Word} (h : Tidy s) (hf : ∀ s, Tidy s → Tidy (f s).1) :
    TidyOut (mailbox s pkg part f) := by
  unfold mailbox
  refine .next ?_
  split
  · exact tidy_modPart (hf _ h)
  · exact h

theorem tidyOut_execBuild {pkg part no : Nat} {record : List Word} {s : State} (h : Tidy s) : TidyOut (execBuild pkg part no record s) := by
  unfold execBuild
  repeat' (first | (with_reducible first | assumption | apply tidy_modPkg | apply TidyOut.next | apply TidyOut.fault | apply TidyOut.refused | refine tidyOut_mailbox ?_ (fun s h => ?_) | apply wf_set0 | apply TidyCore.empty) | dsimp only | split)

theorem tidyOut_execArmx {pkg part no : Nat} {s : State} (h : Tidy s) : TidyOut (execArmx pkg part no s) := by
  unfold execArmx
  repeat' (first | (with_reducible first | assumption | apply TidyOut.next | apply TidyOut.fault | apply TidyOut.refused | refine tidyOut_mailbox ?_ (fun s h => ?_) | apply tidy_armMould))

theorem tidyOut_execKill {pkg part pid : Nat} {s : State} (h : Tidy s) : TidyOut (execKill pkg part pid s) := by
  unfold execKill
  repeat' (first | (with_reducible first | assumption | apply tidy_faultLog | apply tidy_requestKill | apply tidy_dropArmed | apply TidyOut.next | apply TidyOut.fault | apply TidyOut.refused | refine tidyOut_mailbox ?_ (fun s h => ?_) | apply wf_set0 | apply TidyCore.empty) | dsimp only | split)

theorem tidyOut_execCkpt {pkg part pid : Nat} {s : State} (h : Tidy s) : TidyOut (execCkpt pkg part pid s) := by
  unfold execCkpt
  repeat' (first | (with_reducible first | assumption | apply tidy_modDom | apply TidyOut.next | apply TidyOut.fault | apply TidyOut.refused | refine tidyOut_mailbox ?_ (fun s h => ?_) | apply wf_set0 | apply TidyCore.empty) | dsimp only | split)

theorem tidyOut_execResume {pkg part pid : Nat} {s : State} (h : Tidy s) : TidyOut (execResume pkg part pid s) := by
  unfold execResume
  repeat' (first | (with_reducible first | assumption | apply tidy_beginCatchUp | apply Tidy.core | apply TidyOut.next | apply TidyOut.fault | apply TidyOut.refused | refine tidyOut_mailbox ?_ (fun s h => ?_) | apply wf_set0 | apply TidyCore.empty) | dsimp only | split)

theorem tidyOut_execRestore {pkg part area : Nat} {s : State} (h : Tidy s) : TidyOut (execRestore pkg part area s) := by
  unfold execRestore
  repeat' (first | (with_reducible first | assumption | apply tidy_modPkg | apply TidyOut.next | apply TidyOut.fault | apply TidyOut.refused | refine tidyOut_mailbox ?_ (fun s h => ?_) | apply wf_set0 | apply TidyCore.empty) | dsimp only | split)

theorem tidyOut_execRings {pkg part die trace wait : Nat} {s : State} (h : Tidy s) : TidyOut (execRings pkg part die trace wait s) := by
  unfold execRings
  repeat' (first | (with_reducible first | assumption | apply tidy_modPart | apply TidyOut.next | apply TidyOut.fault | apply TidyOut.refused | refine tidyOut_mailbox ?_ (fun s h => ?_) | apply wf_set0 | apply TidyCore.empty) | dsimp only | split)

theorem tidyOut_execWindow {pkg part w : Nat} {record : List Word} {s : State} (h : Tidy s) : TidyOut (execWindow pkg part w record s) := by
  unfold execWindow
  repeat' (first | (with_reducible first | assumption | apply tidy_modPkg | apply TidyOut.next | apply TidyOut.fault | apply TidyOut.refused | refine tidyOut_mailbox ?_ (fun s h => ?_) | apply wf_set0 | apply TidyCore.empty) | dsimp only | split)

theorem tidyOut_execPolicy {pkg part die field : Nat} {value : Word} {s : State} (h : Tidy s) : TidyOut (execPolicy pkg part die field value s) := by
  unfold execPolicy
  refine tidyOut_mailbox h (fun s h => ?_)
  by_cases hf : field ≠ 0 ∧ foreignAddr s pkg part (field - 1) = true
  · rw [if_pos hf]; exact h
  · rw [if_neg hf]
    by_cases hp : field = 2 ^ 39 + 1
    · simp only [if_pos hp]; exact tidy_thermalCheck (tidy_modPkg h)
    · simp only [if_neg hp]; exact tidy_modPkg h

theorem tidyOut_execRepair {pkg part die core : Nat} {s : State} (h : Tidy s) : TidyOut (execRepair pkg part die core s) := by
  unfold execRepair
  repeat' (first | (with_reducible first | assumption | apply tidy_modPkg | apply tidy_setCore | apply TidyOut.next | apply TidyOut.fault | apply TidyOut.refused | refine tidyOut_mailbox ?_ (fun s h => ?_) | apply wf_set0 | apply TidyCore.empty) | dsimp only | split)

theorem tidyOut_execTload {pkg part pid core n : Nat} {image : List Word} {s : State} (h : Tidy s) : TidyOut (execTload pkg part pid core n image s) := by
  unfold execTload
  repeat' (first | (with_reducible first | assumption | apply tidyCore_setRange | refine tidy_modCore ?_ (fun c hc => ?_) | apply Tidy.core | apply TidyOut.next | apply TidyOut.fault | apply TidyOut.refused | refine tidyOut_mailbox ?_ (fun s h => ?_) | apply wf_set0 | apply TidyCore.empty) | dsimp only | split)

-- Machine/Untimed.lean ------------------------------------------------------------

theorem tidy_asyncReport {s : State} {pkg part rcb code core pid asid mould : Nat} {detail : List Word} (h : Tidy s) : Tidy (asyncReport s pkg part rcb code core pid asid mould detail) := by
  unfold asyncReport
  repeat' (first | (with_reducible first | assumption | apply tidy_faultLog))

theorem tidy_countUnit {s : State} {d : Domain} {k lc n : Nat} {g : Agent} {tag : Option WriteTag} (h : Tidy s) : Tidy (countUnit s d k lc n g tag) := by
  unfold countUnit
  repeat' (first | (with_reducible first | assumption | apply tidyCore_setLc | refine tidy_modCore ?_ (fun c hc => ?_) | apply wf_set0 | apply TidyCore.empty) | dsimp only | split | with_reducible apply TidyCore.lit | with_reducible apply Tidy.lit)

theorem tidy_actLater {s : State} {i : Instr} (h : Tidy s) : Tidy (actLater s i) := by
  unfold actLater
  repeat' (first | (with_reducible first | assumption | apply wf_set0 | apply TidyCore.empty) | dsimp only | split | with_reducible apply TidyCore.lit | with_reducible apply Tidy.lit)

theorem tidy_spadUnit {s : State} {d : Domain} {k a n v : Nat} (h : Tidy s) : Tidy (spadUnit s d k a n v) := by
  unfold spadUnit
  dsimp only
  have q : ∀ {s : State} {k : Nat}, Tidy s → Tidy (modCore s k (fun c => { c with spad := Memory.writeNat c.spad a n v })) :=
    fun h => tidy_modCore h fun c hc => hc.setSpad (wf_writeNat _ _ _ _ hc.wfSpad)
  split
  · exact q (q h)
  · exact q h

theorem tidy_modXfer {s : State} {id : Nat} {f : Xfer → Xfer} (h : Tidy s) : Tidy (modXfer s id f) := by
  unfold modXfer
  repeat' (first | (with_reducible first | assumption | apply wf_set0 | apply TidyCore.empty) | dsimp only | split | with_reducible apply TidyCore.lit | with_reducible apply Tidy.lit)

theorem tidy_sweepXfers {s : State} (h : Tidy s) : Tidy (sweepXfers s) := by
  unfold sweepXfers
  repeat' (first | (with_reducible first | assumption | apply wf_set0 | apply TidyCore.empty) | dsimp only | split | with_reducible apply TidyCore.lit | with_reducible apply Tidy.lit)

theorem tidy_stopXfer {s : State} {x : Xfer} (h : Tidy s) : Tidy (stopXfer s x) := by
  unfold stopXfer
  repeat' (first | (with_reducible first | assumption | apply tidy_modXfer | apply tidy_sweepXfers))

theorem tidy_xferReport {s : State} {x : Xfer} {code : Nat} {detail : List Word} (h : Tidy s) : Tidy (xferReport s x code detail) := by
  unfold xferReport
  repeat' (first | (with_reducible first | assumption | apply tidy_asyncReport))

theorem tidy_parkXfer {s : State} {x : Xfer} {t asid va : Nat} (h : Tidy s) : Tidy (parkXfer s x t asid va) := by
  unfold parkXfer
  repeat' (first | (with_reducible first | assumption | apply tidy_modXfer | apply tidy_xferReport | apply wf_set0 | apply TidyCore.empty) | dsimp only | split)

theorem tidy_putUnit {s : State} {x : Xfer} (h : Tidy s) : Tidy (putUnit s x) := by
  unfold putUnit
  repeat' (first | (with_reducible first | assumption | apply tidy_noteWrite | apply tidy_memStore | apply tidy_countUnit | apply tidy_modXfer | apply tidy_stopXfer | apply tidy_xferReport | apply tidy_parkXfer | apply wf_set0 | apply TidyCore.empty) | dsimp only | split)

theorem tidyOut_execWindowPutApply {id : Nat} {s : State} (h : Tidy s) : TidyOut (execWindowPutApply id s) := by
  unfold execWindowPutApply
  repeat' (first | (with_reducible first | assumption | apply tidy_putUnit | apply TidyOut.next | apply TidyOut.fault | apply TidyOut.refused | apply wf_set0 | apply TidyCore.empty) | dsimp only | split)

theorem tidyOut_execWindowPutAck {id : Nat} {s : State} (h : Tidy s) : TidyOut (execWindowPutAck id s) := by
  unfold execWindowPutAck
  repeat' (first | (with_reducible first | assumption | apply tidy_countUnit | apply tidy_modXfer | apply tidy_sweepXfers | apply TidyOut.next | apply TidyOut.fault | apply TidyOut.refused | apply wf_set0 | apply TidyCore.empty) | dsimp only | split)

theorem tidy_getLand {s : State} {d : Domain} {x : Xfer} {n v : Nat} (h : Tidy s) : Tidy (getLand s d x n v) := by
  unfold getLand
  repeat' (first | (with_reducible first | assumption | apply tidy_countUnit | apply tidy_spadUnit))

theorem tidy_getBlock {s : State} {d : Domain} {x : Xfer} {t asid va left : Nat} (h : Tidy s) : Tidy (getBlock s d x t asid va left) := by
  unfold getBlock
  repeat' (first | (with_reducible first | assumption | apply tidy_noteRead | apply tidy_modXfer | apply tidy_sweepXfers | apply tidy_stopXfer | apply tidy_xferReport | apply tidy_parkXfer | apply tidy_getLand | refine tidy_foldl (fun s a h => ?_) ?_ | apply wf_writeNat | refine foldl_keeps (fun m => Memory.wf m = true) _ (fun m a hm => ?_) _ _ ?_ | apply Tidy.mem | apply wf_set0 | apply TidyCore.empty) | dsimp only | split)

theorem tidy_getUnit {s : State} {d : Domain} {x : Xfer} (h : Tidy s) : Tidy (getUnit s d x) := by
  unfold getUnit
  repeat' (first | (with_reducible first | assumption | apply tidy_noteRead | apply tidy_modXfer | apply tidy_sweepXfers | apply tidy_stopXfer | apply tidy_xferReport | apply tidy_parkXfer | apply tidy_getLand | apply tidy_getBlock | apply wf_set0 | apply TidyCore.empty) | dsimp only | split)

theorem tidy_getStep {s : State} {x : Xfer} {i : Instr} (h : Tidy s) : Tidy (getStep s x i) := by
  unfold getStep
  repeat' (first | (with_reducible first | assumption | apply tidy_actLater | apply tidy_stopXfer | apply tidy_xferReport | apply tidy_getUnit | apply wf_set0 | apply TidyCore.empty) | dsimp only | split)

theorem tidyOut_execWindowGetReturn {id : Nat} {s : State} (h : Tidy s) : TidyOut (execWindowGetReturn id s) := by
  unfold execWindowGetReturn
  repeat' (first | (with_reducible first | assumption | apply tidy_getStep | apply TidyOut.next | apply TidyOut.fault | apply TidyOut.refused | apply wf_set0 | apply TidyCore.empty) | dsimp only | split)

theorem tidy_modDma {s : State} {x : Dma} {f : Dma → Dma} (h : Tidy s) : Tidy (modDma s x f) := by
  unfold modDma
  repeat' (first | (with_reducible first | assumption | apply tidy_modPkg))

theorem tidy_dropDma {s : State} {x : Dma} (h : Tidy s) : Tidy (dropDma s x) := by
  unfold dropDma
  repeat' (first | (with_reducible first | assumption | apply tidy_modPkg))

theorem tidy_dmaReport {s : State} {x : Dma} {code : Nat} {detail : List Word} (h : Tidy s) : Tidy (dmaReport s x code detail) := by
  unfold dmaReport
  repeat' (first | (with_reducible first | assumption | apply tidy_asyncReport))

theorem tidyOut_execHostDmaDescriptor {pkg fn : Nat} {w0 w1 w2 w3 : Word} {s : State} (h : Tidy s) : TidyOut (execHostDmaDescriptor pkg fn w0 w1 w2 w3 s) := by
  unfold execHostDmaDescriptor
  repeat' (first | (with_reducible first | assumption | apply tidy_modPkg | apply tidy_dmaReport | apply TidyOut.next | apply TidyOut.fault | apply TidyOut.refused | apply wf_set0 | apply TidyCore.empty) | dsimp only | split | with_reducible apply TidyCore.lit | with_reducible apply Tidy.lit)

theorem tidyOut_execHostDmaStart {id : Nat} {s : State} (h : Tidy s) : TidyOut (execHostDmaStart id s) := by
  unfold execHostDmaStart
  repeat' (first | (with_reducible first | assumption | apply tidy_modDma | apply tidy_dropDma | apply tidy_dmaReport | apply TidyOut.next | apply TidyOut.fault | apply TidyOut.refused | apply wf_set0 | apply TidyCore.empty) | dsimp only | split)

theorem tidy_dmaNext {s : State} {x : Dma} (h : Tidy s) : Tidy (dmaNext s x) := by
  unfold dmaNext
  repeat' (first | (with_reducible first | assumption | apply tidy_modDma | apply tidy_dropDma | apply wf_set0 | apply TidyCore.empty) | dsimp only | split)

theorem tidy_dmaCount {s : State} {x : Dma} {tag : Option WriteTag} (h : Tidy s) : Tidy (dmaCount s x tag) := by
  unfold dmaCount
  repeat' (first | (with_reducible first | assumption | apply tidy_countUnit | apply wf_set0 | apply TidyCore.empty) | dsimp only | split)

theorem tidy_dmaSpadUnit {s : State} {x : Dma} {d : Domain} (h : Tidy s) : Tidy (dmaSpadUnit s x d) := by
  unfold dmaSpadUnit
  repeat' (first | (with_reducible first | assumption | apply tidy_mergeSeen | apply tidy_actLater | apply tidy_spadUnit | apply tidy_dmaNext | apply tidy_dmaCount | apply Tidy.core | apply wf_writeNat | refine foldl_keeps (fun m => Memory.wf m = true) _ (fun m a hm => ?_) _ _ ?_ | apply Tidy.mem | apply wf_set0 | apply TidyCore.empty) | dsimp only | split | with_reducible apply TidyCore.lit | with_reducible apply Tidy.lit)

theorem tidy_dmaMemUnit {s : State} {x : Dma} (h : Tidy s) : Tidy (dmaMemUnit s x) := by
  unfold dmaMemUnit
  repeat' (first | (with_reducible first | assumption | apply tidy_noteWrite | apply tidy_noteRead | apply tidy_mergeSeen | apply tidy_memStore | apply tidy_modDma | apply tidy_dropDma | apply tidy_dmaReport | apply tidy_dmaNext | apply tidy_dmaCount | apply wf_writeNat | refine foldl_keeps (fun m => Memory.wf m = true) _ (fun m a hm => ?_) _ _ ?_ | apply Tidy.mem | apply wf_set0 | apply TidyCore.empty) | dsimp only | split | with_reducible apply TidyCore.lit | with_reducible apply Tidy.lit)

theorem tidy_dmaUnit {s : State} {x : Dma} (h : Tidy s) : Tidy (dmaUnit s x) := by
  unfold dmaUnit
  repeat' (first | (with_reducible first | assumption | apply tidy_modDma | apply tidy_dropDma | apply tidy_dmaReport | apply tidy_dmaSpadUnit | apply tidy_dmaMemUnit | apply wf_set0 | apply TidyCore.empty) | dsimp only | split)

theorem tidyOut_execHostDmaUnit {id : Nat} {s : State} (h : Tidy s) : TidyOut (execHostDmaUnit id s) := by
  unfold execHostDmaUnit
  repeat' (first | (with_reducible first | assumption | apply tidy_dmaUnit | apply TidyOut.next | apply TidyOut.fault | apply TidyOut.refused | apply wf_set0 | apply TidyCore.empty) | dsimp only | split)

theorem tidyOut_execParkedTransferRetry {id : Nat} {s : State} (h : Tidy s) : TidyOut (execParkedTransferRetry id s) := by
  unfold execParkedTransferRetry
  repeat' (first | (with_reducible first | assumption | apply tidy_putUnit | apply tidy_getStep | apply tidy_dmaUnit | apply TidyOut.next | apply TidyOut.fault | apply TidyOut.refused | apply wf_set0 | apply TidyCore.empty) | dsimp only | split)

theorem tidy_copyWriters {s : State} {a b n : Nat} (h : Tidy s) : Tidy (copyWriters s a b n) := by
  unfold copyWriters
  repeat' (first | (with_reducible first | assumption | apply wf_set0 | apply TidyCore.empty) | dsimp only | split | with_reducible apply TidyCore.lit | with_reducible apply Tidy.lit)

theorem tidy_copyGranule {s : State} {a b : Nat} (h : Tidy s) : Tidy (copyGranule s a b) := by
  unfold copyGranule
  repeat' (first | (with_reducible first | assumption | apply tidy_setCell | apply tidy_copyWriters | apply wf_writeNat | refine foldl_keeps (fun m => Memory.wf m = true) _ (fun m a hm => ?_) _ _ ?_ | apply Tidy.mem | apply wf_set0 | apply TidyCore.empty) | dsimp only | split | with_reducible refine Tidy.setMem ?_ ?_)

theorem tidy_compactStep {s : State} {pkg : Nat} {e : RangeEntry} {c : Compaction} (h : Tidy s) : Tidy (compactStep s pkg e c) := by
  unfold compactStep
  repeat' (first | (with_reducible first | assumption | apply tidy_modPkg | apply tidy_copyGranule | apply wf_set0 | apply TidyCore.empty) | dsimp only | split)

theorem tidyOut_execCompactionMove {pkg part asid base dest : Nat} {s : State} (h : Tidy s) : TidyOut (execCompactionMove pkg part asid base dest s) := by
  unfold execCompactionMove
  repeat' (first | (with_reducible first | assumption | apply tidy_modPkg | apply tidy_compactStep | apply TidyOut.next | apply TidyOut.fault | apply TidyOut.refused | apply wf_set0 | apply TidyCore.empty) | dsimp only | split)

theorem tidyOut_execCompactionRelease {pkg part asid base : Nat} {s : State} (h : Tidy s) : TidyOut (execCompactionRelease pkg part asid base s) := by
  unfold execCompactionRelease
  repeat' (first | (with_reducible first | assumption | apply tidy_modPkg | apply Tidy.core | apply TidyOut.next))

-- Machine/Fabric.lean ------------------------------------------------------------

theorem tidy_modLink {s : State} {pkg link : Nat} {f : Link → Link} (h : Tidy s) : Tidy (modLink s pkg link f) := by
  unfold modLink
  repeat' (first | (with_reducible first | assumption | apply tidy_modPkg))

theorem tidy_linkFault {s : State} {pkg link : Nat} (h : Tidy s) : Tidy (linkFault s pkg link) := by
  unfold linkFault
  repeat' (first | (with_reducible first | assumption | apply tidy_takeFault | refine tidy_foldl (fun s a h => ?_) ?_ | apply wf_set0 | apply TidyCore.empty) | dsimp only | split)

theorem tidyOut_execFlitCorrected {pkg link : Nat} {s : State} (h : Tidy s) : TidyOut (execFlitCorrected pkg link s) := by
  unfold execFlitCorrected
  repeat' (first | (with_reducible first | assumption | apply tidy_modLink | apply TidyOut.next))

theorem tidyOut_execLaneFailure {pkg link lane : Nat} {s : State} (h : Tidy s) : TidyOut (execLaneFailure pkg link lane s) := by
  unfold execLaneFailure
  repeat' (first | (with_reducible first | assumption | apply tidy_modLink | apply tidy_linkFault | apply TidyOut.next | apply TidyOut.fault | apply TidyOut.refused | apply wf_set0 | apply TidyCore.empty) | dsimp only | split)

theorem tidyOut_execFlitUncorrectable {pkg link : Nat} {s : State} (h : Tidy s) : TidyOut (execFlitUncorrectable pkg link s) := by
  unfold execFlitUncorrectable
  repeat' (first | (with_reducible first | assumption | apply tidy_modLink | apply tidy_linkFault | apply TidyOut.next))

theorem tidyOut_execLinkTrained {pkg link pos : Nat} {pcbh : Bool} {s : State} (h : Tidy s) : TidyOut (execLinkTrained pkg link pos pcbh s) := by
  unfold execLinkTrained
  repeat' (first | (with_reducible first | assumption | apply tidy_modPkg | apply tidy_modLink | apply TidyOut.next))

theorem tidy_linksDown {s : State} {pkg : Nat} (h : Tidy s) : Tidy (linksDown s pkg) := by
  unfold linksDown
  repeat' (first | (with_reducible first | assumption | apply tidy_modPkg | apply tidy_modLink | refine tidy_foldl (fun s a h => ?_) ?_))

theorem tidyOut_execLinksTakenDown {pkg : Nat} {s : State} (h : Tidy s) : TidyOut (execLinksTakenDown pkg s) := by
  unfold execLinksTakenDown
  repeat' (first | (with_reducible first | assumption | apply tidy_linksDown | apply TidyOut.next))

theorem tidy_breakGroups {s : State} {pkg : Nat} (h : Tidy s) : Tidy (breakGroups s pkg) := by
  unfold breakGroups
  repeat' (first | (with_reducible first | assumption | apply tidy_takeFault | refine tidy_foldl (fun s a h => ?_) ?_ | apply wf_set0 | apply TidyCore.empty) | dsimp only | split)

theorem tidyOut_execLostBeaconPath {pkg : Nat} {s : State} (h : Tidy s) : TidyOut (execLostBeaconPath pkg s) := by
  unfold execLostBeaconPath
  repeat' (first | (with_reducible first | assumption | apply tidy_breakGroups | apply TidyOut.next))

theorem tidyOut_execPackageForcedDetach {pkg : Nat} {s : State} (h : Tidy s) : TidyOut (execPackageForcedDetach pkg s) := by
  unfold execPackageForcedDetach
  repeat' (first | (with_reducible first | assumption | apply tidy_linksDown | apply tidy_breakGroups | apply TidyOut.next))

theorem tidyOut_execBeaconInterval {pkg link : Nat} {s : State} (h : Tidy s) : TidyOut (execBeaconInterval pkg link s) := by
  unfold execBeaconInterval
  repeat' (first | (with_reducible first | assumption | apply tidy_modLink | apply TidyOut.next | apply TidyOut.fault | apply TidyOut.refused | apply wf_set0 | apply TidyCore.empty) | dsimp only | split)

theorem tidy_clashAt {s : State} {d : Domain} {pkg at' : Nat} (h : Tidy s) : Tidy (clashAt s d pkg at') := by
  unfold clashAt
  repeat' (first | (with_reducible first | assumption | apply tidy_addFlight | apply tidy_takeFault | apply Tidy.core | apply wf_set0 | apply TidyCore.empty) | dsimp only | split)

theorem tidyOut_execBeaconReceived {pkg link pid dcc : Nat} {lead : Int} {slack : Option (Nat × Nat)} {s : State} (h : Tidy s) : TidyOut (execBeaconReceived pkg link pid dcc lead slack s) := by
  unfold execBeaconReceived
  repeat' (first | (with_reducible first | assumption | apply tidy_modPkg | apply tidy_modDom | apply tidy_clashAt | apply TidyOut.next | apply TidyOut.fault | apply TidyOut.refused | apply wf_set0 | apply TidyCore.empty) | dsimp only | split)

theorem tidyOut_execChannelSubstitution {pkg stack _chan : Nat} {s : State} (h : Tidy s) : TidyOut (execChannelSubstitution pkg stack _chan s) := by
  unfold execChannelSubstitution
  repeat' (first | (with_reducible first | assumption | apply tidy_modPkg | apply TidyOut.next))

theorem tidy_setSensor {s : State} {r : SensorReading} (h : Tidy s) : Tidy (setSensor s r) := by
  unfold setSensor
  repeat' (first | (with_reducible first | assumption | apply tidy_modPkg))

theorem tidy_tripPour {s : State} {pkg : Nat} {d : Domain} (h : Tidy s) : Tidy (tripPour s pkg d) := by
  unfold tripPour
  repeat' (first | (with_reducible first | assumption | apply tidy_takeFault | apply tidy_removeDomain | apply wf_set0 | apply TidyCore.empty) | dsimp only | split)

theorem tidy_losePower {s : State} {pkg : Nat} (h : Tidy s) : Tidy (losePower s pkg) := by
  unfold losePower
  exact ⟨(tidy_foldl (fun s d h => tidy_tripPour h) h).dropCores.form⟩

theorem tidy_monitor {s : State} {r : SensorReading} (h : Tidy s) : Tidy (monitor s r) := by
  unfold monitor
  dsimp only
  split
  · exact tidy_losePower (tidy_thermalCheck h)
  · exact tidy_thermalCheck h

theorem tidyOut_execThermalSignal {r : SensorReading} {s : State} (h : Tidy s) : TidyOut (execThermalSignal r s) :=
  .next (tidy_monitor (tidy_setSensor h))

theorem tidyOut_execThermalWithdraw {r : SensorReading} {s : State} (h : Tidy s) : TidyOut (execThermalWithdraw r s) :=
  .next (tidy_monitor (tidy_setSensor h))

theorem tidyOut_execThermalTrip {r : SensorReading} {s : State} (h : Tidy s) : TidyOut (execThermalTrip r s) :=
  .next (tidy_monitor (tidy_setSensor h))

theorem tidyOut_execDebugSessionAttach {pkg part : Nat} {on : Bool} {s : State} (h : Tidy s) : TidyOut (execDebugSessionAttach pkg part on s) := by
  unfold execDebugSessionAttach
  repeat' (first | (with_reducible first | assumption | apply tidy_modPart | apply TidyOut.next))

theorem tidyOut_execDebugStopRequest {pid : Nat} {s : State} (h : Tidy s) : TidyOut (execDebugStopRequest pid s) := by
  unfold execDebugStopRequest
  repeat' (first | (with_reducible first | assumption | apply tidy_modDom | apply TidyOut.next | apply TidyOut.fault | apply TidyOut.refused | apply wf_set0 | apply TidyCore.empty) | dsimp only | split)

theorem tidyOut_execDebugRelease {pid : Nat} {s : State} (h : Tidy s) : TidyOut (execDebugRelease pid s) := by
  unfold execDebugRelease
  repeat' (first | (with_reducible first | assumption | apply tidy_modDom | apply TidyOut.next))

theorem tidyOut_execTraceSlot {k : Nat} {s : State} (h : Tidy s) : TidyOut (execTraceSlot k s) := by
  unfold execTraceSlot
  repeat' (first | (with_reducible first | assumption | apply tidy_modPkg | apply tidy_setCore | apply Tidy.core | apply wf_ringPut | apply Tidy.mem | apply TidyOut.next | apply TidyOut.fault | apply TidyOut.refused | apply wf_set0 | apply TidyCore.empty) | dsimp only | split | refine tidy_hubWrite ?_ ?_ | with_reducible apply TidyCore.lit)

-- Machine/Service.lean ------------------------------------------------------------

theorem tidy_setAccept {s : State} {pkg fn : Nat} {v : BitVec 256} (h : Tidy s) : Tidy (setAccept s pkg fn v) := by
  unfold setAccept
  repeat' (first | (with_reducible first | assumption | apply tidy_modPkg))

theorem tidy_commitFeat {s : State} {pkg fn : Nat} (h : Tidy s) : Tidy (commitFeat s pkg fn) := by
  unfold commitFeat
  repeat' (first | (with_reducible first | assumption | apply tidy_modPkg | apply wf_set0 | apply TidyCore.empty) | dsimp only | split)

theorem tidyOut_execFeatCommit {pkg fn : Nat} {accept : BitVec 256} {s : State} (h : Tidy s) : TidyOut (execFeatCommit pkg fn accept s) := by
  unfold execFeatCommit
  repeat' (first | (with_reducible first | assumption | apply tidy_setAccept | apply tidy_commitFeat | apply TidyOut.next | apply TidyOut.fault | apply TidyOut.refused | apply wf_set0 | apply TidyCore.empty) | dsimp only | split)

theorem tidy_writeAccept {s : State} {pkg fn w : Nat} {v : Word} (h : Tidy s) : Tidy (writeAccept s pkg fn w v) := by
  unfold writeAccept
  repeat' (first | (with_reducible first | assumption | apply tidy_setAccept | apply tidy_commitFeat | apply wf_set0 | apply TidyCore.empty) | dsimp only | split)

theorem tidyOut_execManagementRegisterWrite {pkg a : Nat} {value : Word} {s : State} (h : Tidy s) : TidyOut (execManagementRegisterWrite pkg a value s) := by
  unfold execManagementRegisterWrite
  repeat' (first | (with_reducible first | assumption | apply tidy_noteWrite | apply tidy_mergeSeen | apply tidy_memStore | apply tidy_writeAccept | refine tidy_modCore ?_ (fun c hc => ?_) | apply TidyOut.next | apply TidyOut.fault | apply TidyOut.refused | apply wf_set0 | apply TidyCore.empty) | dsimp only | split | with_reducible apply TidyCore.lit)

theorem tidy_configurePart {s : State} {pkg : Nat} {b : BootPart} {started : Bool} (h : Tidy s) : Tidy (configurePart s pkg b started) := by
  unfold configurePart
  repeat' (first | (with_reducible first | assumption | apply tidy_modPkg))

theorem tidy_bootPart {pkg : Nat} {s : State} {b : BootPart} (h : Tidy s) : Tidy (bootPart pkg s b) := by
  unfold bootPart
  repeat' (first | (with_reducible first | assumption | apply tidy_extendMeas | apply tidy_configurePart | apply wf_set0 | apply TidyCore.empty) | dsimp only | split)

theorem tidy_bootFails {s : State} {pkg stage : Nat} (h : Tidy s) : Tidy (bootFails s pkg stage) := by
  unfold bootFails
  repeat' (first | (with_reducible first | assumption | apply tidy_modPkg))

theorem tidy_fuseRead {s : State} {pkg : Nat} {img : BootImage} (h : Tidy s) : Tidy (fuseRead s pkg img) := by
  unfold fuseRead
  repeat' (first | (with_reducible first | assumption | apply tidy_modPkg))

theorem tidy_resetPackage {s : State} {pkg : Nat} (h : Tidy s) : Tidy (resetPackage s pkg) := by
  unfold resetPackage
  exact tidy_modPkg ⟨(tidy_losePower h).dropCores.form⟩

theorem tidyOut_execBoot {pkg : Nat} {img : BootImage} {s : State} (h : Tidy s) : TidyOut (execBoot pkg img s) := by
  unfold execBoot
  repeat' (first | (with_reducible first | assumption | apply tidy_modPkg | apply tidy_extendMeas | apply tidy_bootPart | apply tidy_bootFails | apply tidy_fuseRead | apply tidy_resetPackage | refine tidy_foldl (fun s a h => ?_) ?_ | apply TidyOut.next | apply TidyOut.fault | apply TidyOut.refused | apply wf_set0 | apply TidyCore.empty) | dsimp only | split)

theorem tidy_wipeKeys {s : State} {pkg : Nat} (h : Tidy s) : Tidy (wipeKeys s pkg) := by
  unfold wipeKeys
  repeat' (first | (with_reducible first | assumption | apply tidy_modPkg))

theorem tidy_finishUnlock {s : State} {pkg : Nat} {token : List Word} (h : Tidy s) : Tidy (finishUnlock s pkg token) := by
  unfold finishUnlock
  repeat' (first | (with_reducible first | assumption | apply tidy_modPkg | apply tidy_extendMeas))

theorem tidyOut_execUnlockToken {pkg : Nat} {token : List Word} {signature : Nat} {s : State} (h : Tidy s) : TidyOut (execUnlockToken pkg token signature s) := by
  unfold execUnlockToken
  repeat' (first | (with_reducible first | assumption | apply tidy_modPkg | apply tidy_wipeKeys | apply tidy_finishUnlock | apply TidyOut.next | apply TidyOut.fault | apply TidyOut.refused | apply wf_set0 | apply TidyCore.empty) | dsimp only | split)

theorem tidy_secureStep {s : State} {pkg : Nat} (h : Tidy s) : Tidy (secureStep s pkg) := by
  unfold secureStep
  refine tidy_measNext ?_
  split
  · exact tidy_finishUnlock h
  · exact h

theorem tidyOut_execRetire {pkg : Nat} {s : State} (h : Tidy s) : TidyOut (execRetire pkg s) := by
  unfold execRetire
  repeat' (first | (with_reducible first | assumption | apply tidy_modPkg | apply tidy_wipeKeys | apply TidyOut.next))

theorem tidy_closePort {s : State} {pkg : Nat} {l : Lifecycle} (h : Tidy s) : Tidy (closePort s pkg l) := by
  unfold closePort
  repeat' (first | (with_reducible first | assumption | apply tidy_modPkg))

theorem tidyOut_execLifecycleFuseAdvance {pkg : Nat} {s : State} (h : Tidy s) : TidyOut (execLifecycleFuseAdvance pkg s) := by
  unfold execLifecycleFuseAdvance
  repeat' (first | (with_reducible first | assumption | apply tidy_closePort | apply TidyOut.next | apply TidyOut.fault | apply TidyOut.refused | apply wf_set0 | apply TidyCore.empty) | dsimp only | split)

theorem tidyOut_execTenantKeyProvision {pkg part : Nat} {key : Word} {s : State} (h : Tidy s) : TidyOut (execTenantKeyProvision pkg part key s) := by
  unfold execTenantKeyProvision
  repeat' (first | (with_reducible first | assumption | apply tidy_modPart | apply TidyOut.next | apply TidyOut.fault | apply TidyOut.refused | apply wf_set0 | apply TidyCore.empty) | dsimp only | split)

theorem tidyOut_execSpdmRequest {pkg : Nat} {rsa4096 sha : Bool} {s : State} (h : Tidy s) : TidyOut (execSpdmRequest pkg rsa4096 sha s) := by
  unfold execSpdmRequest
  repeat' (first | (with_reducible first | assumption | apply tidy_modPkg | apply TidyOut.next))

theorem tidy_clearWindows {s : State} {pkg part : Nat} (h : Tidy s) : Tidy (clearWindows s pkg part) := by
  unfold clearWindows
  repeat' (first | (with_reducible first | assumption | apply tidy_stopXfer | apply tidy_xferReport | refine tidy_foldl (fun s a h => ?_) ?_ | apply wf_set0 | apply TidyCore.empty) | dsimp only | split | with_reducible apply TidyCore.lit | with_reducible apply Tidy.lit)

theorem tidy_restartPart {s : State} {pkg part version : Nat} (h : Tidy s) : Tidy (restartPart s pkg part version) := by
  unfold restartPart
  repeat' (first | (with_reducible first | assumption | apply tidy_modPkg | apply tidy_modPart))

theorem tidyOut_execPartitionUpdate {pkg part version : Nat} {image : List Byte} {signature : Nat} {s : State} (h : Tidy s) : TidyOut (execPartitionUpdate pkg part version image signature s) := by
  unfold execPartitionUpdate
  repeat' (first | (with_reducible first | assumption | apply tidy_modPart | apply tidy_extendMeas | apply tidy_clearWindows | apply tidy_restartPart | apply TidyOut.next | apply TidyOut.fault | apply TidyOut.refused | apply wf_set0 | apply TidyCore.empty) | dsimp only | split | with_reducible apply TidyCore.lit | with_reducible apply Tidy.lit)

theorem tidyOut_execHypervisorUpdate {pkg version : Nat} {image : List Byte} {signature : Nat} {s : State} (h : Tidy s) : TidyOut (execHypervisorUpdate pkg version image signature s) := by
  unfold execHypervisorUpdate
  repeat' (first | (with_reducible first | assumption | apply tidy_modPkg | apply tidy_extendMeas | apply TidyOut.next | apply TidyOut.fault | apply TidyOut.refused | apply wf_set0 | apply TidyCore.empty) | dsimp only | split)

-- Machine/Tick.lean ------------------------------------------------------------

theorem tidy_tick {s : State} (h : Tidy s) : Tidy (tick s) := by
  unfold tick
  repeat' (first | (with_reducible first | assumption | apply wf_set0 | apply TidyCore.empty) | dsimp only | split | with_reducible apply TidyCore.lit | with_reducible apply Tidy.lit)

theorem tidy_doElements {k : Nat} {s : State} (h : Tidy s) : Tidy (doElements k s) := by
  unfold doElements
  repeat' (first | (with_reducible first | assumption | apply tidy_sampleLocals | apply tidy_coreElements | apply wf_set0 | apply TidyCore.empty) | dsimp only | split)

theorem tidy_sysEnter {k : Nat} {s : State} (h : Tidy s) : Tidy (sysEnter k s) := by
  unfold sysEnter
  repeat' (first | (with_reducible first | assumption | apply tidy_setCore | apply Tidy.core | apply wf_set0 | apply TidyCore.empty) | dsimp only | split | with_reducible apply TidyCore.lit | with_reducible apply Tidy.lit)

theorem tidy_sysEffect {k : Nat} {s : State} {f : Flight} (h : Tidy s) : Tidy (sysEffect k s f) := by
  unfold sysEffect
  split
  · exact tidy_ownSide (tidy_memSide h)
  · exact tidy_ownSide (tidy_memSide h)
  · exact tidy_modCore h fun c hc => tidyCore_applyReach hc
  · exact tidy_sampleLocal h
  · exact tidy_sampleLocal h
  · exact tidy_sampleLocal h
  · exact tidy_applyLocal h

theorem tidy_sysDrain {k n : Nat} {s : State} (h : Tidy s) : Tidy (sysDrain k n s) := by
  induction n generalizing s with
  | zero => exact h
  | succ n ih =>
    unfold sysDrain
    dsimp only
    split
    · exact h
    · exact ih (tidy_foldl (fun s f h => tidy_sysEffect h) (tidy_setCore h ⟨(h.core k).form⟩))

theorem tidy_sysDone {k : Nat} {s : State} (h : Tidy s) : Tidy (sysDone k s) := by
  unfold sysDone
  exact Tidy.lit (tidy_modCore (tidy_sysDrain h) fun c hc => ⟨hc.form⟩)

theorem tidy_untimedAtom {s : State} {p : Party} {key : Nat} {op : AtomOp} (h : Tidy s) : Tidy (untimedAtom s p key op).2 :=
  tidy_tagBytes (tidy_memStore (tidy_atomSample h))

theorem tidy_sysAtom {k : Nat} {s : State} {f : Flight} (h : Tidy s) : Tidy (sysAtom k s f) := by
  unfold sysAtom
  split
  · split
    · exact h
    · exact tidy_modCore (tidy_untimedAtom (tidy_modCore h fun c hc => ⟨hc.form⟩)) fun c hc => tidyCore_sput hc
  · exact h

theorem tidy_hostAtom {x : HostAtomic} {s : State} (h : Tidy s) : Tidy (hostAtom x s) := by
  unfold hostAtom
  dsimp only
  split
  · exact h
  · split
    · exact Tidy.lit h
    · exact tidy_modPkg (tidy_untimedAtom (tidy_mergeSeen h))

theorem tidy_sysAtoms {k : Nat} {s : State} (h : Tidy s) : Tidy (sysAtoms k s) := by
  exact tidy_foldl (fun s f h => tidy_sysAtom h) h

end Sys2Proof.Laws
end

