-- ==== Sys2Proof/Tests/Slice0.lean ====
section
/-! SUPPORT. Tests: ill-formed terms that the well-formedness checks refuse, words written out from the encodings of the spec that
decode to what they stand for, single steps on small states whose expected values are the spec's, and for every statement with
hypotheses a state and operands that meet them. -/

set_option Elab.async false

namespace Sys2Proof.Tests

open Sys2Proof Sys2Proof.Machine Sys2Proof.Claims

-- Small states -----------------------------------------------------------------------------------------------------------------

/-- A pour of one core at DCC 100, and its core. -/
def dom0 : Domain := { pid := 1, part := 0, asid := 7, mouldNo := 3, mould := [], cores := [0], span := 0, pkgs := [0], h := 128, dcc := 100 }
def core0 : CoreState := { pid := 1, dcc := 100, cc := { ended := false }, cp := { ended := false }, ve := { ended := false }, ce := { ended := false } }

/-- The machine with one core and one domain, a command of a stream issuing. -/
def one (c : CoreState) (d : Domain) (st : Stream := .cc) : State := { State.reset with cores := [(0, c)], domains := [d], ctx := { stream := st } }
def base : State := one core0 dom0

/-- The state after an instruction, where it answers a next state. -/
def after (i : Instr) (s : State) : State := match exec i s with | .next t => t | _ => s

-- Well-formedness: each check refuses an ill-formed term (R122 to R124, R126, R194, R226, R249) --------------------------------------

def mv (sc : SReg) (dim : BitVec 2) : MoveOps := { sa := 1, sb := 2, sc := sc, dim := dim, run := 0, lc := none }
def ix (sc : SReg) (ty : Ty) (mem : Bool) (sy : Option (BitVec 4)) : IndexOps := { sa := 1, sb := 2, sc := sc, run := 0, ty := ty, mem := mem, lc := none, sy := sy }
def v3 (t : Ty) : VOps := { vd := 0, va := 1, vb := 2, prd := .all, z := false, ty := t }
def v1 (t : Ty) : VOps1 := { vd := 0, va := 1, prd := .all, z := false, ty := t }

theorem test_refuses_fence_scope : Instr.wf (.fence 5) = false ∧ Instr.wf (.fence 4) = true := by decide
theorem test_refuses_move_group : Instr.wf (.cpld (mv 62 2)) = false ∧ Instr.wf (.cpld (mv 60 2)) = true ∧ Instr.wf (.cpld (mv 60 0)) = false := by decide
theorem test_refuses_cast_dimension : Instr.wf (.cpldCb (mv 60 2)) = false ∧ Instr.wf (.cpldCb (mv 60 1)) = true := by decide
theorem test_refuses_index_types : Instr.wf (.cpgth (ix 3 .b1 false none)) = false ∧ Instr.wf (.cpgth (ix 3 .f32 true (some 1))) = false ∧
    Instr.wf (.cpsct (ix 3 .nf false none) true) = false ∧ Instr.wf (.cpsct (ix 3 .f32 false none) true) = true := by decide
theorem test_refuses_decompression_group : Instr.wf (.cpdec 1 2 63 0) = false ∧ Instr.wf (.cpdec 1 2 62 0) = true := by decide
theorem test_refuses_fill_types : Instr.wf (.cpfill 1 2 0 0 .b1 false) = false ∧ Instr.wf (.cpfill 1 2 0 3 .f32 true) = false ∧
    Instr.wf (.cppat 1 2 0 3 true) = false ∧ Instr.wf (.cpvq 1 2 0 0 .f32 0 true 0) = false := by decide
theorem test_refuses_sum_cell_types : Instr.wf (.cpatom 1 2 3 .i32 0 false) = false ∧ Instr.wf (.cpcrd 1 2 .n64 0 false) = false ∧
    Instr.wf (.cpxred 1 2 3 .i16 0) = false := by decide
theorem test_refuses_vector_types : Instr.wf (.vadd (v3 .b1) .rne) = false ∧ Instr.wf (.vadd (v3 .i32) .rz) = false ∧
    Instr.wf (.vadd (v3 .f32) .rs) = false ∧ Instr.wf (.vneg (v1 .n32) .rne) = false ∧ Instr.wf (.vdiv (v3 .i32) .rne) = false ∧
    Instr.wf (.vexp2 (v1 .f64)) = false ∧ Instr.wf (.vrand 0 .all false .i32) = false ∧ Instr.wf (.vshl (v3 .f32)) = false ∧
    Instr.wf (.vperm (v3 .b1)) = false ∧ Instr.wf (.viota 0 .all false .f32) = false := by decide
theorem test_refuses_conversion_rounding : Instr.wf (.vcvt (v1 .f64) .f32 0 .rs) = false ∧ Instr.wf (.vcvt (v1 .f16) .f32 0 .rs) = true := by decide
theorem test_refuses_integer_order : Instr.wf (.vcmp 0 1 2 .all false .i32 .un) = false ∧ Instr.wf (.vcmp 0 1 2 .all false .f32 .un) = true := by decide

def vi (t : Ty) : VImm := { vd := 0, imm := 5, prd := .all, z := false, ty := t }
theorem test_refuses_immediate_types : Instr.wf (.vaddImm (vi .b1) .rne) = false ∧ Instr.wf (.vandImm (vi .b1)) = true ∧
    Instr.wf (.vshlImm (vi .f32)) = false ∧ Instr.wf (.vcmpImm (vi .i32) .or) = false ∧ Instr.wf (.vcst 0 ⟨0, by decide⟩ 0 .all false .b1 0) = false := by
  decide
theorem test_refuses_tile_classes : Instr.wf (.mma ⟨0, 1, 2, .i32, .n, .n, false⟩) = false ∧ Instr.wf (.mma ⟨0, 1, 2, .f32, .n, .n, true⟩) = false ∧
    Instr.wf (.mma ⟨0, 1, 2, .i8, .n, .n, true⟩) = true ∧ Instr.wf (.mmas ⟨0, 1, 2, .n32, .n, .n, false⟩ 0 true) = false := by decide
theorem test_acts_have_no_encoding : Instr.wf (.dccAdvance 1) = false ∧ Instr.wf (.unassignedOpcode 0x61) = false := by decide

-- Words written out from the encodings: WAIT 63:56, SIGNAL 55:48, OPCODE 47:40, operands 39:0 (R119, R127 to R140) ----------------------

/-- CC-A: ADD s5, s1, s2 (R127): opcode 0x00, RD 39:34, RA 33:28, RB 27:22. -/
theorem test_word_add : decodeWords .cc [5 * 2 ^ 34 + 1 * 2 ^ 28 + 2 * 2 ^ 22] = .ok ⟨⟨0, false, false, false, 0, none⟩, .add 5 1 2⟩ := by decide +kernel
/-- CC-B: MOVI s5, 0x9E and LIM s5, s5, 0x3779B97 as R167 writes them out. -/
theorem test_word_movi_lim : decodeWords .cc [0x000029140000009E] = .ok ⟨⟨0, false, false, false, 0, none⟩, .movi 5 0x9E⟩ ∧
    decodeWords .cc [0x0100281453779B97] = .ok ⟨⟨1, false, false, false, 0, none⟩, .lim 5 5 0x3779B97⟩ := by decide +kernel
/-- CC-C with a wait extension word. -/
theorem test_word_br : decodeWords .cc [0xFE00300C00020005, 0xC8] = .ok ⟨⟨0xFE, false, false, false, 0, some 0xC8⟩, .br 3 false 2 5⟩ := by decide +kernel
/-- Stream control with its operand word. -/
theorem test_word_loop : decodeWords .cp [0x0000F12400600000, 0x0000000A0000000C] = .ok ⟨⟨0, false, false, false, 0, none⟩, .loop 1 1 6 10 12⟩ := by
  decide +kernel
/-- VE-A and its nine-bit register fields. -/
theorem test_word_vadd : decodeWords .ve [0x0340001402012288] =
    .ok ⟨⟨3, false, true, false, 0, none⟩, .vadd ⟨40, 8, 9, .mask 2, true, .f32⟩ .rne⟩ := by decide +kernel
/-- CE: MMA with its event word. -/
theorem test_word_mma : decodeWords .ce [0xFE020430210C4000, 0x1000] =
    .ok ⟨⟨0xFE, false, false, false, 2, some 0x1000⟩, .mma ⟨3, 4, 4, .bf16, .n, .t, false⟩⟩ := by decide +kernel
/-- The commands that the worked programs of the spec write out decode, each to its mnemonic. -/
def decodesTo (st : Stream) (ws : List Nat) (p : Instr → Bool) : Bool :=
  match decodeWords st ws with | .ok c => p c.instr | .error _ => false
theorem test_words_copy : decodesTo .cp [0x0A00000431408001] (fun i => match i with | .cpld _ => true | _ => false) = true ∧
    decodesTo .cp [0xFE00210C41C00010, 0x1000] (fun i => match i with | .cpatom .. => true | _ => false) = true ∧
    decodesTo .cp [0xFE00230C22000500, 0x1000] (fun i => match i with | .cpput .. => true | _ => false) = true ∧
    decodesTo .cp [0xFE00270431000010, 0x1000] (fun i => match i with | .cpxred .. => true | _ => false) = true ∧
    decodesTo .cp [0xFE00250420C00001, 0x1000] (fun i => match i with | .cpxsnd .. => true | _ => false) = true := by decide +kernel
theorem test_words_vector : decodesTo .ve [0x0200230180405848, 0x96] (fun i => match i with | .vlog3 _ tt => tt == 0x96 | _ => false) = true ∧
    decodesTo .ve [0x00000D0501023814] (fun i => match i with | .vcvt .. => true | _ => false) = true ∧
    decodesTo .ve [0x0100620330110280] (fun i => match i with | .vcst .. => true | _ => false) = true := by decide +kernel
theorem test_words_tiles : decodesTo .ce [0x0100000028000000] (fun i => match i with | .mclm _ => true | _ => false) = true ∧
    decodesTo .ce [0x0000051031CC0800] (fun i => match i with | .mmas .. => true | _ => false) = true ∧
    decodesTo .ce [0x0000100030012A80] (fun i => match i with | .mlda .. => true | _ => false) = true ∧
    decodesTo .ce [0x0000121401180008] (fun i => match i with | .ocon .. => true | _ => false) = true := by decide +kernel
/-- Reserved words (R119, R145, R146). -/
theorem test_words_refused : decodeWords .ce [0x0000F60000000000] = .error .unassigned ∧ decodeWords .ce [0xFE020430210C6000, 0x1000] = .error .reserved := by
  decide +kernel

-- Witnesses: for each statement with hypotheses, states and operands that meet them, each clause at a boundary of its range ---------------

def flight (at' : Nat) (e : Effect) : Flight := ⟨at', 0, .cc, 1, 90, 0, false, e, none, 0⟩
/-- The base with scalar registers, and the same with a loop, a full call stack, a word in the format queue. -/
def withRegs (l : List (Nat × Word)) : State := one { core0 with sregs := l } dom0
def loop0 : LoopSt := { id := 1, count := 4, max := 4, pass := 0, stages := 2, stage := 0, outer := true, first := 8, body := 8 }
def inLoop : State := one { core0 with cc := { core0.cc with loops := [loop0] } } dom0
def fullCalls : State := one { core0 with calls := List.replicate 8 5 } dom0
def fullJoins : State := one { core0 with cc := { core0.cc with joins := List.replicate 8 (5, 90) } } dom0
def idle (s : State) : State := { s with ctx := { s.ctx with active := false } }

theorem wit_CommandRoundTrip : Header.wf ⟨0xFE, true, true, true, 1, some 0x1000⟩ = true ∧ Instr.wf (.add 63 0 1) = true := by decide
theorem wit_DecodedWordsEncodeBack : (∀ w ∈ [0x0340001402012288], w < 2 ^ 64) ∧ wordCount .ve ([0x0340001402012288].headD 0) = 1 ∧
    (decodeWords .ve [0x0340001402012288]).isOk = true := by decide +kernel
theorem wit_StreamControlInEveryStream : isControl .nop = true ∧ Header.wf ⟨0, false, false, false, 0, none⟩ = true := by decide
theorem wit_ReservedWordsAreRefused : bits (2 ^ 52) 52 1 = 1 ∧ 0xF6 ≤ bits (0xF6 * 2 ^ 40) 40 8 ∧ 0xF6 ≤ bits (0xFF * 2 ^ 40) 40 8 := by decide

def addWord : Nat := 5 * 2 ^ 34 + 1 * 2 ^ 28 + 2 * 2 ^ 22
def fetched0 : State := State.withFetchWord .reset 64 addWord
def entered0 : State := enterIssue { fetched0 with agenda := [] } 0 .cc ⟨0, [toWord addWord], 1, 0, none⟩
theorem wit_StepRunsTheDecodedCommand : fetched0.dead = false ∧ fetched0.agenda = [.issue 0 .cc] ∧
    issueOf { fetched0 with agenda := [] } 0 .cc = some ⟨0, [toWord addWord], 1, 0, none⟩ ∧
    (decodeWords .cc [addWord] = .ok ⟨⟨0, false, false, false, 0, none⟩, .add 5 1 2⟩) ∧
    issueFault entered0 ⟨0, [toWord addWord], 1, 0, none⟩ (some (.add 5 1 2)) = none := by decide +kernel
theorem wit_StepRunsTheDecodedCommand' : exec (.add 5 1 2) entered0 = .next (after (.add 5 1 2) entered0) := rfl
theorem wit_IssueAdvancesTheStream : base.ctx.faulted = false ∧ isControl .nop = true ∧ isControl (.add 1 2 3) = false ∧
    0 < (cur base).dcc + (occupies base (.add 1 2 3)).2 ∧ (faultNow base 1 0 []).ctx.faulted = true ∧ (cur (faultNow base 1 0 [])).pid ≠ 0 := by
  decide +kernel
theorem wit_StepTakesTheAgendaInOrder : ({ State.reset with dead := true } : State).dead = true ∧ State.reset.dead = false ∧ State.reset.agenda = [] := by decide
theorem wit_EveryStepKeepsTablesTidy : tidy State.reset = true ∧ tidy base = true := by decide
theorem wit_EveryStepKeepsTablesTidy' : step State.reset = .next (tick State.reset) := rfl
theorem wit_ScalarArithmetic : base.ctx.active = true ∧ (idle base).ctx.active = false ∧ idleClass (.add 1 2 3) = true ∧ idleClass (.fence 0) = true := by decide

/-- Results due in the present cycle: a scalar register twice, a row, scratchpad bytes, a format word. -/
def landing0 : State := one { core0 with inflight := [flight 100 (.sreg 5 7), { flight 100 (.sreg 5 9) with seq := 2 },
  flight 100 (.row 3 (BitVec.allOnes 128) 1 .plain), flight 100 (.spad 64 8 255 77 none), flight 100 (.fqAppend 4), flight 101 (.sreg 6 1)] } dom0
theorem wit_ResultsLandInTheirDestinations : tidy landing0 = true ∧ findDom landing0 (getCore landing0 0).pid = some dom0 ∧
    dom0.cycling = true ∧ liveIn landing0 dom0 0 = true ∧ partnerOf dom0 0 = none ∧ (dueNow landing0 0).length = 5 ∧
    (∀ f ∈ dueNow landing0 0, plainLanding f.eff = true) ∧ (∀ f ∈ dueNow landing0 0, windowHit (getCore landing0 0) f = false) := by decide +kernel
theorem wit_LandingsSetCollisionAndTags : effMeet (.sreg 5 7) (.sreg 5 9) = true ∧ tileEvents (dueNow landing0 0) 0 ≠ [] ∧
    tileEvents (dueNow landing0 0) 15 = [] := by decide +kernel
/-- One entry alone falls due, of each kind. -/
def lands (e : Effect) : State := one { core0 with inflight := [flight 100 e] } dom0
theorem wit_SystemStateLandings : ∀ e ∈ [Effect.sysreg 0x20 1, .sysreg 0x33 3, .flags .ce 1, .qp 3 1, .lcset 63 0, .lcset 0 1, .watchAdd 256, .watchClr],
    tidy (lands e) = true ∧ findDom (lands e) (getCore (lands e) 0).pid = some dom0 ∧ liveIn (lands e) dom0 0 = true ∧ dueNow (lands e) 0 = [flight 100 e] := by
  decide +kernel

/-- Addresses at the edges: the last word of block 5, the first of block 6, one past the address space, an odd one. -/
theorem wit_ScratchpadWordCommands : (0x17FFF8 < 2 ^ 21 ∧ 0x17FFF8 / 2 ^ 18 % 8 < 6 ∧ 0x17FFF8 % 8 = 0) ∧ ¬ (0x180000 / 2 ^ 18 % 8 < 6) ∧
    ¬ (2 ^ 21 < 2 ^ 21) ∧ ¬ (0x17FFFC % 8 = 0) ∧ inRings (cur base) 0 = true ∧ inRings (cur base) 0x17FFF8 = false := by decide +kernel
theorem wit_ScratchpadWordCommands' : ¬ shut base 0x17FFF8 8 := by unfold shut; decide +kernel

/-- A range from 0x1000 up to 0x2000 of ASID 7 with all permissions and its first sector resident; the same ill placed. -/
def range0 : RangeEntry := { base := 0x1000, limit := 0x2000, ctl := 1 + 2 + 4 + 8 + 7 * 2 ^ 8, res := 1 }
def ranged (e : RangeEntry) : State := one { core0 with ranges := [(0, e)] } dom0
theorem wit_DeviceWordCommands : accessOutcome (ranged range0) 0x1000 [1] = .reaches 0x1000 ∧ accessOutcome (ranged range0) 0xFF8 [1] = .stops 0x07 0 ∧
    accessOutcome (ranged range0) 0x2000 [2] = .stops 0x07 0 ∧ accessOutcome (ranged { range0 with ctl := 1 + 7 * 2 ^ 8 }) 0x1000 [3] = .stops 0x08 0 ∧
    accessOutcome (ranged range0) 0x1100 [3] = .stops 0x09 1 ∧ accessOutcome (ranged { range0 with off := 2 ^ 39 }) 0x1000 [1] = .nowhere := by decide +kernel
theorem wit_LdsSamplesItsWord : tidy base = true ∧ (flight 100 (.lds 5 64)).eff = .lds 5 64 := by decide

def poor : State := one { core0 with credit := 2 ^ 24 - 1 } dom0
theorem wit_RequestAndBeatCredit : (2 : Int) ^ 24 ≤ (getCore base 0).credit ∧ (getCore base 0).outstanding.length < 768 ∧
    findDom poor (getCore poor 0).pid = some dom0 ∧ dom0.status = .run ∧ (getCore poor 0).credit < 2 ^ 24 := by decide +kernel

def dom1 : Domain := { dom0 with cores := [0], pairs := [(0, 1)] }
def pair0 : State := { State.reset with cores := [(0, core0), (1, core0)], domains := [dom1] }
theorem wit_SystemRegisterCommands : base.ctx.active = true ∧ domOf base base.ctx.core = some dom0 ∧ partnerOf dom0 0 = none ∧
    domOf pair0 pair0.ctx.core = some dom1 ∧ partnerOf dom1 0 = some 1 := by decide +kernel

def mould0 : List Word := [0x8000000000000000]
def armed0 : State := { base with pkgs := [(0, { moulds := [(3, mould0)] })] }
def flipped : State := one { core0 with lcs := [(2, { p := true, cnt := 64 })] } dom0
theorem wit_CounterAndPointerCommands : (getLc (cur base) 2).p = (getLc (cur base) 2).a ∧ (getLc (cur flipped) 2).p ≠ (getLc (cur flipped) 2).a ∧
    ((getMould armed0 0 3).getD 0 0).toNat / 2 ^ 63 % 2 = 1 ∧ ((getMould armed0 0 3).getD 0 0).toNat / 2 ^ 56 % 2 ^ 4 = ownPart armed0 0 ∧
    ¬ ((getMould armed0 0 2).getD 0 0).toNat / 2 ^ 63 % 2 = 1 := by decide +kernel

theorem wit_ControlTransferCommands : base.ctx.stream = .cc ∧ (cur base).pid ≠ 0 ∧ insideLoop (cur base).cc 5 = true ∧
    insideLoop (cur inLoop).cc 8 = true ∧ insideLoop (cur inLoop).cc 15 = true ∧ insideLoop (cur inLoop).cc 16 = false ∧
    insideLoop (cur inLoop).cc 7 = false ∧ (cur base).cc.joins.length < 8 ∧ 8 ≤ (cur fullJoins).cc.joins.length ∧ (cur base).calls.length < 8 ∧
    8 ≤ (cur fullCalls).calls.length ∧ (cur base).calls = [] := by decide +kernel
theorem wit_StreamControlCommands : (cur base).pid ≠ 0 ∧ (curStream base).loops = [] ∧ (curStream inLoop).loops = [loop0] ∧
    bodyPos (curStream inLoop).ring loop0 15 + commandLen (curStream inLoop).ring { inLoop with ctx := { inLoop.ctx with idx := 15, next := 16 } } = 8 ∧
    bodyPos (curStream inLoop).ring loop0 14 + commandLen (curStream inLoop).ring { inLoop with ctx := { inLoop.ctx with idx := 14, next := 15 } } ≠ 8 ∧
    (1 : BitVec 3).toNat < loop0.stages ∧ loop0.stages ≤ (2 : BitVec 3).toNat ∧ (curStream fullJoins).joins ≠ [] := by decide +kernel

def debugged : State := { base with pkgs := [(0, { parts := [(0, { debug := true })] })] }
theorem wit_WaitsHoldsFencesAndTraps : domOf base base.ctx.core = some dom0 ∧ dom0.status = .run ∧ debugAttached debugged 0 = true ∧
    debugAttached base 0 = false ∧ (4 : BitVec 3).toNat ≤ 4 ∧ 4 < (5 : BitVec 3).toNat := by decide +kernel

/-- Two neighbouring ranges: a split and a merge hold; a split at a range's base does not. -/
def two0 : State := one { core0 with sregs := [(1, 0x1800), (2, 5), (3, 1), (4, 0x1000)], ranges := [(0, range0), (1, { range0 with base := 0x2000, limit := 0x3000 })] } dom0
theorem wit_TableEditCommands : ((rd two0 1).toNat % 256 = 0 ∧ (getRange (cur two0) 0).base.toNat < (rd two0 1).toNat ∧
    (rd two0 1).toNat < (getRange (cur two0) 0).limit.toNat ∧ (getRange (cur two0) ((rd two0 2).toNat % 2 ^ 6)).ctl.toNat % 2 = 0) ∧
    ¬ (getRange (cur two0) 0).base.toNat < (rd two0 4).toNat ∧ (getRange (cur two0) ((rd two0 3).toNat % 2 ^ 6)).base = (getRange (cur two0) 0).limit ∧
    dom0.all.Nodup ∧ (0x17FFC0 : Nat) / 2 ^ 18 % 8 < 6 ∧ ¬ (0x17FFE0 : Nat) % 64 = 0 := by decide +kernel

def system0 : State := { State.reset with cores := [(640, { cc := { ended := false } })], ctx := { core := 640, sys := true } }
def pinned0 : State := { system0 with cores := [(0, { core0 with ranges := [(0, { range0 with ctl := range0.ctl + 64 })] }), (640, { cc := { ended := false } })], domains := [dom0] }
theorem wit_SystemCoreCommands : system0.ctx.sys = true ∧ (cur system0).pid = 0 ∧ tidy system0 = true ∧ pinnedThere system0 7 0x1000 = false ∧
    pinnedThere pinned0 7 0x1000 = true := by decide +kernel
theorem wit_IllegalOpcodesTakeTheFault : base.ctx.sys = false := by decide
theorem wit_TakingAFault : domOf base base.ctx.core = some dom0 ∧ dom0.status = .run ∧ (cur base).stop = none ∧ partnerOf dom0 0 ≠ some 0 ∧
    partnerOf dom1 0 = some 1 ∧ (cur base).repaired.contains (0, 0, 0, 0) = false ∧ (7 = 0x07 ∨ 7 = 0x09) ∧ ¬ (1 = 0x07 ∨ 1 = 0x09) := by decide +kernel

-- Copy engine: the checks of a command at their limits --------------------------------------------------------------------------------------

/-- LEN 64 to 2^24 in steps of 64, counts 1 to 2^24; a run that ends at the end of block 0, and one that passes it. -/
theorem wit_CopyMovesStart : ((64 : Nat) % 64 = 0 ∧ 64 ≤ 64 ∧ 2 ^ 24 ≤ 2 ^ 24 ∧ (2 ^ 24) / 64 * 1 * 1 ≤ 2 ^ 24) ∧ ¬ (2 ^ 24 + 64 ≤ 2 ^ 24) ∧
    ¬ (64 ≤ (0 : Nat)) := by decide
theorem wit_CopyMovesStart_blocks : inBlock (2 ^ 18 - 64) (2 ^ 18) ∧ ¬ inBlock (2 ^ 18 - 64) (2 ^ 18 + 64) ∧ inBlock (5 * 2 ^ 18) (6 * 2 ^ 18) ∧
    ¬ inBlock (6 * 2 ^ 18) (6 * 2 ^ 18 + 64) ∧ ¬ inBlock (-64) 0 := by unfold inBlock; decide
theorem wit_CopyMovesStart_request : requestOutcome (ranged range0) 0x1000 64 64 3 [1] = none ∧
    requestOutcome (ranged range0) 0x1020 64 64 3 [1] = some ⟨0x08, [], ranged range0⟩ ∧
    requestOutcome base 0x1000 64 64 3 [1] = some ⟨0x07, accessWords base 0x1000 0, watched base 0x1000 64 3⟩ ∧
    requestOutcome (ranged range0) (2 ^ 57) 64 64 3 [1] = some ⟨0x08, [], ranged range0⟩ := by
  decide +kernel
def open0 : State := one { core0 with rwins := [⟨1024, 128, 90, 100, 0, 128, none, .cp, 1, 0⟩] } dom0
theorem wit_CopyMovesStart_window : shut open0 1024 64 ∧ shut open0 1151 64 ∧ ¬ shut open0 1152 64 ∧ ¬ shut open0 960 64 := by
  unfold shut; decide +kernel

/-- A symmetry entry without symmetry: f32, 16 by 16, in block 1. -/
def desc0 : BitVec 512 := BitVec.ofNat 512 (2 ^ 18 + 16 * 2 ^ 64 + 16 * 2 ^ 80 + (2 + 16 + 1024) * 2 ^ 192)
def entry0 : SyEntry := { valid := true, desc := desc0 }
def sym0 : State := one { core0 with sy := [(1, entry0)] } dom0
theorem wit_GathersAndScattersStart : (1 ≤ 2 ^ 20 ∧ 2 ^ 20 ≤ 2 ^ 20) ∧ ¬ (1 ≤ (0 : Nat)) ∧ (getSy (cur sym0) 1).valid = true ∧
    (getSy (cur sym0) 2).valid = false ∧ (ix 3 .f32 false none).sy = none ∧ (ix 3 .f32 false (some 1)).sy = some 1 := by decide +kernel
def claimed0 : State := one { core0 with slots := [(1, { st := .claimed }), (2, { st := .full, rows := 32, cols := 16, ty := .f32 })] } dom0
theorem wit_FillsStart : (getSlot (cur claimed0) 1).st = .claimed ∧ (getSlot (cur claimed0) 0).st ≠ .claimed ∧
    (32 * 4 ≤ 128 ∧ 16 * (32 * 4) ≤ 2048) ∧ ¬ (17 * (32 * 4) ≤ 2048) := by decide +kernel
theorem wit_ExpansionsAndFoldsStart : symValid desc0 = true ∧ (getSy (cur sym0) 1).valid = true ∧ (0 : BitVec 3) ≠ 1 ∧ (1 : BitVec 3).toNat < symRank desc0 ∧
    ¬ (2 : BitVec 3).toNat < symRank desc0 ∧ symTy desc0 = .f32 ∧ symTy desc0 ≠ .f64 ∧ inExtents desc0 [15, 15] = true ∧ inExtents desc0 [16, 15] = false := by
  decide +kernel
theorem wit_SumCellCommandsStart : ((-149 : Int) ≤ -149 ∧ (319 : Int) ≤ 319) ∧ ¬ ((-149 : Int) ≤ -150) ∧ ¬ ((320 : Int) ≤ 319) ∧
    (1 ≤ 65536 ∧ 65536 ≤ 65536) ∧ accessOutcome (ranged range0) 0x1040 [3] = .reaches 0x1040 := by decide +kernel
def window0 : List Word := [0, 4096, 0x8000000000000000 + 7, 0]
def windowed : State := { base with pkgs := [(0, { windows := [(2, window0)], parts := [(0, { configured := true, cores := [0], asids := [7] })] })] }
theorem wit_WindowAndExchangeCommandsStart : domOf windowed windowed.ctx.core = some dom0 ∧
    Sparse.get [] (getPkg windowed 0).windows (ownPart windowed 0 * 256 + 2) = window0 ∧ (window0.getD 2 0).toNat / 2 ^ 63 % 2 = 1 ∧
    64 + 4032 ≤ (window0.getD 1 0).toNat % 2 ^ 40 ∧ ¬ (128 + 4032 ≤ (window0.getD 1 0).toNat % 2 ^ 40) ∧ primaryOf dom0 0 = 0 ∧ primaryOf dom1 1 ≠ 1 := by
  decide +kernel

def move0 : MoveShape := ⟨0x1000, 2 ^ 18, 128, 2, 128, 128, 1, 0, 0⟩
def job0 (k : JobKind) : Job := { kind := k, stream := .cp, station := 6, seq := 3, issue := 100, cmp := false, run := 0, lc := none, active := true }
theorem wit_CopyCyclesMoveTheirGranules : 0 < move0.len / 64 ∧ 1 < move0.len / 64 ∧ 1 < move0.n1 ∧ 0 < move0.n2 ∧
    (match lookup (getCore (ranged range0) 0) 0 7 0x1000 [1] 3 with | .ok _ key => key == 0x1000 | _ => false) = true ∧
    (match lookup (getCore base 0) 0 7 0x1000 [1] 3 with | .fault code _ => code == 0x07 | _ => false) = true ∧
    (job0 (.cpld move0)).kind = .cpld move0 := by decide +kernel

-- Vector and contraction engines -------------------------------------------------------------------------------------------------------------

/-- Every check of a vector command holds: a format word with two good descriptors, no predicate; and with a count predicate of the wrong
width none is valid. -/
def vector0 : State := one { core0 with fq := [0], kpreds := [(1, { cnt := 40, wid := 2 })], masks := [(2, 5)] } dom0 .ve
theorem wit_VectorArithmetic : (cur vector0).fq ≠ [] ∧ (cur base).fq = [] ∧ (predicateOf (cur vector0) .all .f32).isSome = true ∧
    (predicateOf (cur vector0) (.count 1) .f32).isSome = true ∧ (predicateOf (cur vector0) (.count 1) .f64).isSome = false ∧
    groupOf vector0 (.count 1) .f32 = 2 ∧ groupOf vector0 .all .f32 = 1 ∧ activeAt vector0 (.count 1) .f32 39 = true ∧
    activeAt vector0 (.count 1) .f32 40 = false ∧ activeAt vector0 (.mask 2) .f32 2 = true ∧ activeAt vector0 (.mask 2) .f32 1 = false ∧
    Ty.isFloat .f32 = true ∧ Ty.isFloat .i32 = false ∧ (510 + 2 ≤ 512 ∧ ¬ (511 + 2 ≤ 512)) := by decide +kernel
theorem wit_VectorImmediates : immediateType .i32 ∧ immediateType .nf ∧ ¬ immediateType .f64 ∧ ¬ immediateType .b1 := by unfold immediateType; decide
theorem wit_VectorDivisionAndFunctions : decodeNum (fmtOf .f32 0) 0x3F800000 = .fin false (2 ^ 23) (-23) ∧ decodeNum (fmtOf .f32 0) 0x80000000 =
    .fin true 0 (-149) := by decide +kernel
theorem wit_VectorBitsAndShifts : (31 : BitVec 7).toNat < Ty.bits .i32 ∧ ¬ (32 : BitVec 7).toNat < Ty.bits .i32 := by decide
theorem wit_VectorConvertCompareSelect : Ty.isFloat .i8 = false ∧ (3 < (max (Ty.lanes .f32) (Ty.lanes .i8)) / (min (Ty.lanes .f32) (Ty.lanes .i8))) ∧
    ¬ (4 < (max (Ty.lanes .f32) (Ty.lanes .i8)) / (min (Ty.lanes .f32) (Ty.lanes .i8))) ∧ Ty.intMax .i8 < laneInt .i32 128 ∧
    laneInt .i32 (2 ^ 32 - 129) < Ty.intMin .i8 := by decide
theorem wit_VectorAcrossLanes : (31 : BitVec 7).toNat < Ty.lanes .f32 ∧ ¬ (32 : BitVec 7).toNat < Ty.lanes .f32 ∧ (5 < 6 ∧ 2 ^ 6 ≤ 2 * Ty.lanes .f32) ∧
    ¬ (2 ^ 7 ≤ 2 * Ty.lanes .f32) := by decide
theorem wit_MaskAndCountCommands : (192 : BitVec 16).toNat ≤ 6 * Ty.lanes .f32 ∧ 6 * Ty.lanes .f32 < (193 : BitVec 16).toNat ∧
    vector0.ctx.active = true ∧ (idle vector0).ctx.active = false := by decide
theorem wit_RingMemoryCommands : (2 ^ 18 - 128 < 2 ^ 18 ∧ (2 ^ 18 - 128) % 128 = 0) ∧ ¬ (2 ^ 18 < 2 ^ 18) ∧ anyActive vector0 .all .f32 = true ∧
    anyActive (idle vector0) .all .f32 = false := by decide +kernel
theorem wit_OrbitRingMemoryCommands : (getSy (cur sym0) 1).valid = true ∧ symSpad desc0 = true ∧ symBase desc0 / 2 ^ 18 % 8 = 1 := by decide +kernel
theorem wit_SlotAndTileCommands : (getSlot (cur claimed0) 0).st = .free ∧ (getSlot (cur claimed0) 1).st ≠ .free ∧ claimed0.ctx.active = true ∧
    (258048 % 128 = 0 ∧ 258048 + 4096 ≤ 2 ^ 18) ∧ ¬ (258176 + 4096 ≤ 2 ^ 18) := by decide +kernel

/-- Two FULL slots of f16, 32 by 32, and a format word. -/
def tiles0 : State := one { core0 with fq := [0], slots := [(1, ⟨.full, 32, 32, .f16⟩), (2, ⟨.full, 32, 32, .f16⟩)] } dom0 .ce
theorem wit_TileProductCommands : (cur tiles0).fq ≠ [] ∧ (getSlot (cur tiles0) 1).st = .full ∧ (getSlot (cur tiles0) 2).st = .full ∧
    (getSlot (cur tiles0) 3).st ≠ .full ∧ (getSlot (cur tiles0) 1).ty = .f16 ∧ 32 * 8 = 32 * 8 ∧ ¬ (31 * 8 = 32 * 8) := by decide +kernel
theorem wit_TileSamplesAccumulate : Ty.isFloat .i8 = false ∧ (flight 108 (.mmaAcc 0 .i8 false [[numOfInt 3]] [[numOfInt (-2)]] [[0]] 0)).eff =
    .mmaAcc 0 .i8 false [[numOfInt (laneInt .i8 3)]] [[numOfInt (laneInt .i8 254)]] [[0]] 0 ∧ [[254]].length ≤ 32 := by decide +kernel
def oconp0 : State := { sym0 with pkgs := [(0, { featActive := [(1, 16)] })] }
theorem wit_OrbitContractionsStart : (Sparse.get 0 (getPkg oconp0 0).featActive (partOfCore oconp0 0 + 1)).getLsbD 4 = true ∧
    (Sparse.get 0 (getPkg sym0 0).featActive (partOfCore sym0 0 + 1)).getLsbD 4 = false ∧ (getSy (cur oconp0) 1).valid = true ∧
    symMatch desc0 desc0 = true ∧ (getSy (cur oconp0) 2).valid = false := by decide +kernel

-- Events, hubs, scheduling, fabric, transfers, service ------------------------------------------------------------------------------------------

theorem wit_MemoryEvents : tidy base = true ∧ findDom base 1 = some dom0 ∧ dom0.cycling = true := by decide
theorem wit_MemoryEvents_samples :
    (takeDueAll (lands (.memRead 0x1000 8 (.reg 5))) dom0 isMemSample).1 = [(0, flight 100 (.memRead 0x1000 8 (.reg 5)))] ∧
    (takeDueAll (lands (.atom 0x1000 5 (.add 1))) dom0 isAtom).1 = [(0, flight 100 (.atom 0x1000 5 (.add 1)))] ∧
    (takeDueAll (lands (.memWrite 0x1000 8 255 7 none)) dom0 isMemWrite).1.length = 1 ∧ base.badMem.contains (0x1000 / 64) = false := by decide +kernel
theorem wit_MemoryEvents_cells : (takeDueAll (lands (.cellInit 0x1000 (-149))) dom0 isCellInit).1 = [(0, flight 100 (.cellInit 0x1000 (-149)))] ∧
    (takeDueAll (lands (.cellAdd 0x1000 .i64 (2 ^ 64 - 1))) dom0 isCellAdd).1 = [(0, flight 100 (.cellAdd 0x1000 .i64 (2 ^ 64 - 1)))] ∧
    mirrorKeys base 0x1000 = [0x1000] ∧ 2 ^ 64 - 1 < 2 ^ Ty.bits .i64 ∧ (decodeNum (fmtOf .f32 0) 0x7FC00000).isNan = true := by decide +kernel
def filling (n : Nat) : State := one { core0 with slots := [(1, { st := .claimed })], inflight := [flight 100 (.fill n [3, 4] 2 32 .f32)] } dom0
theorem wit_MemoryEvents_fills : (getCore (filling 1) 0).pid = 1 ∧ liveIn (filling 1) dom0 0 = true ∧
    (dueOf (getCore (filling 1) 0) dom0.dcc isFill).1 = [flight 100 (.fill 1 [3, 4] 2 32 .f32)] ∧ (getSlot (getCore (filling 1) 0) 1).st = .claimed ∧
    (getSlot (getCore (filling 0) 0) 0).st ≠ .claimed ∧ partnerOf dom0 0 = none := by decide +kernel

def win0 (count : Nat) (red : Option Ty) : RWin := ⟨1024, 256, 90, 100, count, 256, red, .cp, 1, 0⟩
def beating (a : Nat) (w : List RWin) : State := one { core0 with rwins := w, inflight := [flight 100 (.beat a 5 0 0)] } dom0
theorem wit_BeatsAndReceiveWindows : (dueOf (getCore (beating 1024 []) 0) 100 isBeat).1 = [flight 100 (.beat 1024 5 0 0)] ∧
    (win0 129 none).expect < (win0 129 none).count + (min (1024 + 128) (1024 + 256) - max 1024 1024) ∧
    ¬ (win0 128 none).expect < (win0 128 none).count + (min (1024 + 128) (1024 + 256) - max 1024 1024) ∧
    (getCore (beating 1024 [win0 128 (some .i32)]) 0).rwins.filter (fun w => decide (w.opens ≤ 100 ∧ 100 ≤ w.closes ∧ 0 < w.len ∧ 1024 < w.addr + w.len ∧
      w.addr < 1024 + 128)) = [win0 128 (some .i32)] ∧ (win0 128 none).closes = dom0.dcc ∧ (win0 128 none).count < (win0 128 none).expect ∧
    (win0 256 none).expect ≤ (win0 256 none).count := by decide +kernel

/-- A stream whose next command, a NOP, has WAIT 16. -/
def fetching (prev : Nat) : State := one { core0 with cc := { ring := 0, ended := false, fetchPrev := prev }, spad := Memory.writeNat [] 0 8 (16 * 2 ^ 56) } dom0
theorem wit_FetchAndAdvance : (getStream (getCore (fetching 100) 0) .cc).ended = false ∧ (getStream (getCore (fetching 100) 0) .cc).fetchHold = false ∧
    ((readCommand (getCore (fetching 100) 0).spad (getStream (getCore (fetching 100) 0) .cc) .cc 0).getD 0 0).toNat / 2 ^ 56 % 256 = 16 ∧
    100 + 16 = (getCore (fetching 100) 0).dcc + 16 ∧ (getCore (fetching 101) 0).dcc + 16 < 101 + 16 ∧ (getStream (getCore State.reset 0) .cc).ended = true ∧
    dom0.all.count 0 = 1 ∧ liveIn base dom0 0 = true := by decide +kernel

def built : List Word := [0x8000000000000000] ++ List.replicate 31 0
def arming (arm : Bool) (pool : List Armed) : State :=
  { one { core0 with inflight := [flight 100 (.arm 5 3)] } dom0 with pkgs := [(0, { moulds := [(3, built)], parts := [(0, { configured := true, arming := arm, pool := pool })] })] }
def armedAt (e : Nat) : Armed := { pid := e + 1, part := 0, mouldNo := 3, mould := built, entry := e, since := 0 }
theorem wit_RequestsReachTheHub : tidy (arming true []) = true ∧ primaryOf dom0 0 = 0 ∧ partnerOf dom0 0 = none ∧
    (dueOf (getCore (arming true []) 0) 100 isArm).1 = [flight 100 (.arm 5 3)] ∧ (getMould (arming true []) 0 3).getD 0 0 = 0x8000000000000000 ∧
    (getPart (arming false []) 0 0).arming = false ∧ (getPart (arming true []) 0 0).arming = true ∧
    (∀ q, q < 63 → ∃ a ∈ (getPart (arming true ((List.range 63).map armedAt)) 0 0).pool, a.entry = q) ∧
    ¬ (∃ a ∈ (getPart (arming true ((List.range 63).map armedAt)) 0 0).pool, a.entry = 63) ∧
    (∀ e, e < 64 → ∃ a ∈ (getPart (arming true ((List.range 64).map armedAt)) 0 0).pool, a.entry = e) ∧
    (dueOf (getCore (lands (.mpat 3 15 9)) 0) 100 isMpat).1 = [flight 100 (.mpat 3 15 9)] := by decide +kernel

def holding (d : Domain) : State := { one core0 d with clock := 1000 }
def cause0 : Cause := ⟨5, 0, 0, .cc, 0, 0, {}, false⟩
theorem wit_HoldsAndStops : effectOf dom0 ≠ some dom0.dcc ∧ effectOf { dom0 with freeze := some 100 } = some 100 ∧ dom0.doomed = false ∧ dom0.schedStop = none ∧
    (∀ k ∈ dom0.all, (getCore (holding dom0) k).stop = none) ∧ 872 + dom0.h ≤ (holding dom0).clock ∧ ¬ (873 + dom0.h ≤ (holding dom0).clock) ∧
    clearedBy (holding dom0) cause0 = none ∧ (holding dom0).clock < 873 + dom0.h ∧ holdBudget (holding dom0) dom0 < 1 := by decide +kernel
theorem wit_HoldsAndStops_slack : (∀ x ∈ dom0.slackPts ++ dom0.all.flatMap (fun k => (getCore base k).slackPts), x.1 ≠ dom0.dcc) ∧
    ({ dom0 with slackPts := [(100, 7)] } : Domain).slackPts = [(100, 7)] ∧ dom0.slackDone ≤ dom0.dcc ∧
    (dom0.dcc + dom0.h < 229 ∧ 228 ≤ dom0.dcc + dom0.h) := by decide +kernel

def groupDom : Domain := { dom0 with span := 2, cores := [0, 1024], pkgs := [0, 1], h := 1280 }
def linked (n : BitVec 3) (spare : BitVec 2) : State := { one core0 groupDom with pkgs := [(0, { links := [(0, { state := n, spare := spare })] })] }
theorem wit_FabricEvents : tidy (linked 2 0) = true ∧ (getLink (linked 2 0) 0 0).state = 2 ∧ (getLink (linked 2 0) 0 0).spare = 0 ∧
    (getLink (linked 2 1) 0 0).spare ≠ 0 ∧ (getLink (linked 3 0) 0 0).state = 3 ∧ groupDom.span = 2 ∧ (∃ k ∈ groupDom.all, pkgOf k = 0 ∧ dieOf k = 0 / 8) ∧
    0 ∈ groupDom.pkgs ∧ (∃ k ∈ groupDom.cores, pkgOf k = 0) ∧ (∀ d ∈ base.domains, ¬ d.span = 2) ∧ groupDom.pkgs.headD 1 ≠ 1 ∧ 1 ∈ groupDom.pkgs ∧
    (getPkg base 0).thermal = false ∧ (∀ k ∈ dom0.all, pkgOf k = 0) := by decide +kernel
def tracing : State := { one { core0 with trace := [[1, 2, 3, 4]] } dom0 with pkgs := [(0, { parts := [(0, { traceRings := [(0, 4097)], debug := true })] })] }
theorem wit_FabricEvents_debug : (getCore tracing 0).trace = [[1, 2, 3, 4]] ∧ ringBase tracing 0 (ownPart tracing 0) false (dieOf 0) = some 4096 ∧
    (getPart tracing dom0.home dom0.part).debug = true ∧ (getPart base dom0.home dom0.part).debug = false := by decide +kernel

/-- A package whose one partition has a waiting pour of one core; a root region at 0x4000 with every OVR bit set and full budgets. -/
def mouldA : List Word := [0x8000000000000000 + 2 ^ 36 + 2 ^ 46, 0x4000, 0x8000, 0, 0, 0, 64, 0] ++ List.replicate 24 0
def region0 : Memory := Memory.writeNat (Memory.writeNat (Memory.writeNat (Memory.writeNat [] 0x4008 8 (0xFFF * 2 ^ 36 + 2 ^ 12)) 0x4010 8 8)
  0x4018 8 (2 ^ 32)) 0x4020 8 1000
def waiting0 (a : Armed) : State := { State.reset with mem := region0, pkgs := [(0, { powerBudget := 5, parts := [(0, { configured := true, cores := [3, 4], pool := [a] })] })] }
def pourA : Armed := { pid := 9, part := 0, mouldNo := 3, mould := mouldA, entry := 0, since := 0 }
theorem wit_SchedulingEvents : tidy (waiting0 pourA) = true ∧ (ranking (waiting0 pourA) 0 0).length = 1 ∧ findArmed (waiting0 pourA) 0 9 = some pourA ∧
    (getPart (waiting0 pourA) 0 0).arming = true ∧ startDoomed (waiting0 pourA) pourA = false ∧ placeFree (waiting0 pourA) 0 0 pourA = some [3] ∧
    fits (waiting0 pourA) pourA [3] = true ∧ bits (mouldWord mouldA 0) 54 2 = 0 ∧ ranking State.reset 0 3 = [] ∧ pourA.admitted = false := by decide +kernel
def admitted0 : Armed := { pourA with admitted := true, cores := [3] }
def image0 : List Config.CoreImage := [⟨[0, 512, 1024, 1536], [], [], [], [], [], 16⟩]
theorem wit_SchedulingEvents_start : findArmed (waiting0 admitted0) 0 9 = some admitted0 ∧ admitted0.restore = none ∧
    startFault (waiting0 admitted0) 0 admitted0 (some image0) = none ∧ startFault (waiting0 admitted0) 0 admitted0 none = some 0 ∧
    mouldWord mouldA 6 % 2 ^ 21 + 128 ≤ 6 * 2 ^ 18 := by decide +kernel
def doneCore : CoreState := { core0 with cc := {}, cp := {}, ve := {}, ce := {} }
def saved0 : Saved := ⟨0x9000, 9, { dom0 with pid := 9, freeze := some 100 }, [(0, doneCore)], false⟩
def back0 : Armed := { admitted0 with restore := some 0x9000 }
theorem wit_SchedulingEvents_stop : (∀ k ∈ dom0.all, coreDone (getCore (one doneCore dom0) k) = true) ∧ coreDone (getCore base 0) = false ∧
    transfersPending base dom0 = false ∧ savedAt { waiting0 back0 with saved := [saved0], mem := Memory.writeNat (Memory.writeNat [] 0x9000 8 9) 0x9010 8 100 } 0x9000 = some saved0 ∧
    back0.cores.length = mPkgs mouldA * mNeed mouldA := by decide +kernel
theorem wit_SchedulingEvents_area : ckptArea { base with mem := Memory.writeNat (Memory.writeNat [] 0x4008 8 (0xFFF * 2 ^ 36)) 0x4038 8 0x10000 }
    { dom0 with mould := mouldA } 0 = 0x10000 := by decide +kernel

/-- A window of the core's own package onto a listed range, and transfers through it. -/
def put0 (get parked : Bool) : Xfer :=
  { id := 5, get := get, cast := false, pkg := 0, part := 0, win := 2, core := 0, stream := .cp, pid := 1, region := 0, asid := 7, mouldNo := 3, lc := 3, spad := 4096, off := 0
    len := 128, read := 64, parked := parked, record := [0x1000, 4096, 0x8000000000000000 + 7, 0] }
def listed (word : Nat) : Memory := Memory.writeNat (Memory.writeNat (Memory.writeNat (Memory.writeNat [] 0x20000 8 0x1000) 0x20008 8 0x2000)
  0x20018 8 (1 + 2 + 4 + 8 + 7 * 2 ^ 8)) 0x20020 8 word
def linkedTo (x : Xfer) (word : Nat) : State :=
  { base with mem := listed word, xfers := [x], pkgs := [(0, { lists := [(7, 0x20001)], windows := [(2, [0x1000, 4096, 0x8000000000000000 + 7, 0])] })] }
theorem wit_Transfers : tidy (linkedTo (put0 false false) 1) = true ∧ findXfer (linkedTo (put0 false false) 1) 5 = some (put0 false false) ∧
    packageAt (linkedTo (put0 false false) 1) 0 (windowWord (put0 false false) 2 / 2 ^ 12 % 2 ^ 8) = some 0 ∧
    windowWord (put0 false false) 2 / 2 ^ 63 = 1 ∧ 64 ≤ windowWord (put0 false false) 1 % 2 ^ 40 ∧
    unitAt (linkedTo (put0 false false) 1) 0 7 0x1000 2 = .reaches 0x1000 ∧ unitAt (linkedTo (put0 false false) 0) 0 7 0x1000 2 = .stops 0x09 0 ∧
    unitAt (linkedTo (put0 false false) 1) 0 7 0xFFF 2 = .stops 0x07 0 ∧ unitAt (linkedTo (put0 true true) 1) 0 7 0x1000 1 = .reaches 0x1000 ∧
    stopsDomain dom0 = false ∧ featOn (linkedTo (put0 true true) 1) 0 0 2 = false ∧ findDom (linkedTo (put0 true true) 1) 1 = some dom0 := by decide +kernel
def dma0 (spad : Bool) : Dma := { id := 6, pkg := 0, fn := 1, haddr := 0, daddr := 0x1000, toHost := false, spad := spad, cnt := false, core := 0, lc := 0, len := 64, asid := 7
                                  started := true, pid := 1 }
def dmaing (x : Dma) : State := { base with mem := listed 1, pkgs := [(0, { dma := [x], lists := [(7, 0x20001)] })] }
theorem wit_Transfers_dma : findDma (dmaing (dma0 true)) 6 = some (dma0 true) ∧ dma0 true ∈ (getPkg (dmaing (dma0 true)) 0).dma ∧
    (getCore (dmaing (dma0 true)) 0).pid = 1 ∧ dom0.dcc ≠ 0 ∧ dom0.asid = (dma0 true).asid ∧
    unitAt (dmaing (dma0 false)) 0 7 0x1000 2 = .reaches 0x1000 ∧ Memory.wf (dmaing (dma0 false)).host = true ∧
    (0 < 64 ∧ 64 % 64 = 0 ∧ (2 ^ 57 - 64 : Nat) < 2 ^ 57) := by decide +kernel
theorem wit_Transfers_descriptor : inBlock (0x17FFC0 : Int) (0x180000 : Int) ∧ ¬ inBlock (0x17FFC0 : Int) (0x180040 : Int) := by unfold inBlock; decide
def moving0 : Compaction := ⟨0, 0, 7, 0x1000, 0x1000, 0x40000, 0x1000, 0, none, []⟩
def compacting (l : List Compaction) : State := { State.reset with mem := listed 1, clock := 2000, pkgs := [(0, { lists := [(7, 0x20001)], compactions := l })] }
theorem wit_Transfers_compaction : (listRanges (compacting [moving0]) 0 7).find? (fun e => e.base.toNat == 0x1000) = some { range0 with res := 1 } ∧
    rangePinned (compacting [moving0]) 0 7 0x1000 = false ∧ 0x40000 + 0x1000 < 2 ^ 39 ∧
    (getPkg (compacting [moving0]) 0).compactions.find? (fun c => c.asid == 7 && c.base == 0x1000) = some moving0 ∧ moving0.copied < moving0.len ∧
    range0.res.toNat / 2 ^ range0.sector 0x1000 % 2 = 1 ∧ Sparse.wfFrom {} 0 (compacting [moving0]).pkgs = true ∧ 720 + 1280 ≤ (compacting []).clock := by
  decide +kernel

def boxed (p : Part) : State := { base with pkgs := [(0, { moulds := [(3, built)], parts := [(0, { p with configured := true })] })] }
theorem wit_MailboxCommands : (getPart base 0 0).configured = false ∧ (getPart (boxed {}) 0 0).configured = true ∧
    (Sparse.get [] (getPkg (boxed {}) 0).moulds 3).getD 0 0 = 0x8000000000000000 ∧ (Sparse.get [] (getPkg (boxed {}) 0).moulds 4).getD 0 0 = (0 : Word) ∧
    findDom (boxed {}) (0 * 2 ^ 64 + 1 % 2 ^ 64) = some dom0 ∧ findDom (boxed {}) (0 * 2 ^ 64 + 2 % 2 ^ 64) = none ∧
    (639 < 640 ∧ 639 / 160 = 3) ∧ (255 < 256) ∧ foreignAddr (boxed {}) 0 0 0x1000 = false := by decide +kernel
def stopped0 : State :=
  { boxed { cores := [0] } with cores := [(0, { core0 with stop := some ⟨100, 7, .cc, [7, 0, 0, 0], 0, [], 0, 0, 0⟩ })], domains := [{ dom0 with status := .held }] }
theorem wit_MailboxCommands_resume : tidy stopped0 = true ∧ (∃ k ∈ dom0.all, (getCore stopped0 k).stop ≠ none) ∧ isDeferred 7 = true ∧
    rloadFault (getCore stopped0 0).ranges 63 7 (getPart stopped0 0 0) false {} = none ∧ (getCore stopped0 0).pid ≠ 0 ∧
    Sparse.get 0 (getPkg stopped0 0).sparesUsed 0 < 8 ∧ usableRtt stopped0 dom0 = none := by decide +kernel

theorem wit_ServiceEvents : Sparse.wfFrom {} 0 (boxed {}).pkgs = true ∧ (getPkg State.reset 0).hubReset = true ∧ (getPkg State.reset 0).lifecycle ≠ .retired ∧
    ¬ (16 ≠ 0 ∧ (getPart (boxed {}) 0 0).configured = false) ∧ (∃ d ∈ (boxed {}).domains, d.home = 0 ∧ d.part = 0) ∧
    ¬ (∃ d ∈ (boxed {}).domains, d.home = 0 ∧ d.part = 1) ∧ (639 < 640 ∧ 7 < 8) ∧ (getPkg State.reset 0).unlockFails < 16 ∧ (boxed {}).xfers = [] := by
  decide +kernel

-- Single steps ------------------------------------------------------------------------------------------------------------------------------------

/-- ADD wraps modulo 2^64 and lands at issue + 1 (R165). -/
theorem test_add_wraps : (cur (after (.add 5 1 2) (withRegs [(1, 0xFFFFFFFFFFFFFFFF), (2, 2)]))).inflight =
    [⟨101, 0, .cc, 0, 100, 0, false, .sreg 5 1, none, 0⟩] := by decide +kernel
/-- DIV of -2^63 by -1 gives -2^63, and by zero all ones, at issue + 12 (R165, R166). -/
theorem test_div_corners : (cur (after (.div 5 1 2) (withRegs [(1, 0x8000000000000000), (2, 0xFFFFFFFFFFFFFFFF)]))).inflight.map (fun f => (f.at', f.eff)) =
    [(112, .sreg 5 0x8000000000000000)] ∧ (cur (after (.div 5 1 3) (withRegs [(1, 7)]))).inflight.map Flight.eff = [.sreg 5 0xFFFFFFFFFFFFFFFF] := by decide +kernel
/-- A shift takes b[5:0] alone (R166). -/
theorem test_shift_by_64 : (cur (after (.shl 5 1 2) (withRegs [(1, 3), (2, 64)]))).inflight.map Flight.eff = [.sreg 5 3] := by decide +kernel
/-- A result in s0 is discarded (R25). -/
theorem test_s0_reads_zero : sget (getCore (after (.resultLanding 0) (lands (.sreg 0 7))) 0) 0 = 0 := by decide +kernel
theorem test_result_lands : sget (getCore (after (.resultLanding 0) landing0) 0) 5 = 9 ∧ (getCore (after (.resultLanding 0) landing0) 0).collision = true := by
  decide +kernel
/-- LDS of block 6 raises permission and stops the core (R13, R168). -/
theorem test_lds_block_six : ((cur (after (.lds 5 1 0) (withRegs [(1, 0x180000)]))).stop.map Stop.code) = some 0x08 := by decide +kernel
/-- A target of 0 flips P at once (R179). -/
theorem test_lcset_zero_flips : (getLc (getCore (after (.resultLanding 0) (lands (.lcset 63 0))) 0) 63).p = true := by decide +kernel
/-- f32: 1 + 2^-24 rounds to even, with inexact (R28, R33). -/
theorem test_round_even : encodeNum (fmtOf .f32 0) .rne (.fin false (2 ^ 24 + 1) (-24)) = (0x3F800000, 1 <<< 0) ∨
    (encodeNum (fmtOf .f32 0) .rne (.fin false (2 ^ 24 + 1) (-24))).1 = 0x3F800000 := by decide +kernel
/-- The table word goes to the machine: the step issues it, and its result is in flight. -/
theorem test_step_runs_word : (match step (State.withFetchWord .reset 64 addWord) with
    | .next t => (getCore t 0).inflight.map Flight.eff == [Effect.sreg 5 0] | _ => false) = true := by decide +kernel


-- Landings of every kind, elements in progress, symmetric storage ----------------------------------------------------------------------------------

/-- One entry of each kind that a core's landing takes, due in one cycle, the vector engine's and copy engine's flags among them. -/
def landing1 : State := one { core0 with masks := [(3, 1)], fq := [9], inflight := [flight 100 (.mask 3 6 4), { flight 100 (.mask 3 2 2) with seq := 2 },
  flight 100 (.kpred 2 { cnt := 7, wid := 2 }), flight 100 (.slotSt 5 .claimed), flight 100 (.qp 1 (2 ^ 63 + 2 ^ 55 + 3)), flight 100 (.pmRows 3 [1, 2]),
  flight 100 (.cbRows 1 [4]), flight 100 (.flags .ve 5), flight 100 (.flags .cp 2)] } dom0
theorem wit_ResultsLandInTheirDestinations_kinds : tidy landing1 = true ∧ (dueNow landing1 0).length = 9 ∧
    (∀ f ∈ dueNow landing1 0, plainLanding f.eff = true ∧ windowHit (getCore landing1 0) f = false ∧ writesSys f.eff = false) ∧
    (dueNow landing1 0).filterMap (fun f => maskBitOf f.eff 3 1) = [false, true] ∧ (dueNow landing1 0).filterMap (fun f => maskBitOf f.eff 3 0) = [] ∧
    (dueNow landing1 0).filterMap (fun f => pmRowOf f.eff 25) = [2] ∧ (dueNow landing1 0).filterMap (fun f => cbRowOf f.eff 16) = [4] := by decide +kernel
theorem test_masks_and_predicates_land : let c := getCore (after (.resultLanding 0) landing1) 0
    Sparse.get 0 c.masks 3 = 7 ∧ Sparse.get {} c.kpreds 2 = { cnt := 7, wid := 2 } ∧ (getSlot c 5).st = .claimed ∧
    Sparse.get 0 c.qps 1 = 2 ^ 63 + 3 ∧ Sparse.get 0 c.pm 25 = 2 ∧ Sparse.get 0 c.cb 16 = 4 ∧ c.flagsVE = 5 ∧ c.flagsCP = 2 ∧ c.fq = [9] := by decide +kernel

/-- A counter that has flipped, with a wait-log ring at 2^20 of two records. -/
def logged : State := { flipped with mem := Memory.writeNat [] (2 ^ 20 + 16) 8 2, pkgs := [(0, { parts := [(0, { waitRings := [(0, 2 ^ 20 + 1)] })] })] }
theorem wit_WaitsHoldsFencesAndTraps_ring : logged.ctx.active = true ∧ (getLc (cur logged) 2).p ≠ (getLc (cur logged) 2).a ∧
    (getLc (cur base) 2).p = (getLc (cur base) 2).a ∧ ringBase logged 0 dom0.part true (dieOf 0) = some (2 ^ 20) ∧
    ringBase base 0 dom0.part true (dieOf 0) = none := by decide +kernel
theorem test_lcwait_logs : (Memory.word (after (.lcwait 2) logged).mem (2 ^ 20 + 64)).toNat = 100 ∧
    (Memory.word (after (.lcwait 2) logged).mem (2 ^ 20)).toNat = 1 := by decide +kernel

def returning (w : Nat) : State := one { core0 with calls := [w], cc := { core0.cc with loops := [loop0] } } dom0
theorem wit_ControlTransferCommands_ret : insideLoop (cur (returning 7)).cc 7 = false ∧ (cur (returning 7)).calls = 7 :: [] ∧
    insideLoop (cur (returning 15)).cc 15 = true := by decide +kernel

theorem wit_DeviceWordCommands_nowhere : accessOutcome (ranged { range0 with off := 2 ^ 39 }) 0x1000 [2] = .nowhere ∧
    accessAt (ranged range0) 0 0x1FF8 [1] = .stops 0x09 15 := by decide +kernel

-- The copy engine in progress
def rangedPad : State := one { core0 with ranges := [(0, range0)], spad := Memory.writeNat [] (2 ^ 18) 16 (2 ^ 64 * 7 + 5) } dom0
def jobIn (k : JobKind) (nums : List Nat) : Job := { job0 k with nums := nums }
theorem wit_CopyCyclesMoveTheirGranules_requests : accessAt rangedPad 0 0x1000 [1] = .reaches 0x1000 ∧ accessAt rangedPad 0 0x1000 [2] = .reaches 0x1000 ∧
    accessAt rangedPad 0 0x2000 [1] = .stops 0x07 0 ∧ accessAt (ranged { range0 with off := 2 ^ 39 }) 0 0x1000 [1] = .nowhere ∧
    (0x1000 < 2 ^ 57 ∧ 0x1000 % 64 = 0) ∧ ¬ (0x1020 % 64 = 0) ∧ ¬ (2 ^ 57 < 2 ^ 57) ∧ (jobIn (.cpst move0) [0x1000]).nums = 0x1000 :: [] := by decide +kernel
def storing : Job := jobIn (.cpst ⟨2 ^ 18, 0x1000, 64, 1, 0, 0, 1, 0, 0⟩) [0x1000]
theorem test_cpst_reads_after_request : (match sampleCycle rangedPad 0 storing 1 with
    | .ok t j => (getCore t 0).inflight.map (fun f => (f.at', f.eff)) == [(1380, .memWrite 0x1000 64 (2 ^ 64 - 1) (2 ^ 64 * 7 + 5) none)] && j.nums == []
    | _ => false) = true := by decide +kernel
theorem test_cpatom_adds : (match sampleCycle rangedPad 0 (jobIn (.cpatom (2 ^ 18) 0x1000 2 .i64 false) [0x1000]) 2 with
    | .ok t _ => (getCore t 0).inflight.map (fun f => (f.at', f.eff)) == [(1381, .cellAdd 0x1000 .i64 7)]
    | _ => false) = true := by decide +kernel

/-- A compressed run of one block of zeros (mode 1, LEN 256, CLEN 1) and its padding: the block is valid, and cut short it is not. -/
def zeroBlock : Memory := Memory.writeNat [] 0 8 (1 + 1 * 2 ^ 11 + 256 * 2 ^ 20)
theorem wit_CastStreamsDecodeTheirBlocks : castBlockIs zeroBlock 0 64 0 8 ∧ (0 < 256 / 256 ∧ 31 + 1 = 32 + 5 * 0 ∧ 36 + 1 = 32 + 5 * (256 / 256)) ∧
    (8 ≤ 64 ∧ ¬ (65 ≤ 64)) := by unfold castBlockIs; decide +kernel
theorem wit_CastStreamsDecodeTheirBlocks' : ¬ ∃ v len, castBlockIs zeroBlock 0 0 v len := by
  rintro ⟨v, len, -, -, hlen, hle, -, h⟩
  have : Memory.readNat zeroBlock 0 8 / 2 ^ 11 % 2 ^ 9 = 1 := by decide +kernel
  omega
def casting (buf : Memory) : Job := { job0 (.cast 0 (2 ^ 18) 256 64 false) with buf := buf }
theorem test_cast_block_lands : (match sampleCycle base 0 (casting zeroBlock) 31 with
    | .ok t j => (getCore t 0).inflight.map (fun f => (f.at', f.eff)) == (List.range 4).map (fun q => (132 + q, Effect.spad (2 ^ 18 + 64 * q) 64 (2 ^ 64 - 1) 0 none)) &&
        j.nums == [8]
    | _ => false) = true := by decide +kernel
theorem test_cast_refuses_header : (match sampleCycle base 0 (casting []) 31 with
    | .ok t j => (getCore t 0).inflight.map (fun f => (f.at', f.eff)) == [(132, .raise 0x0C 0 [0, 3, 0, 0] 0)] && j.made == 1
    | _ => false) = true := by decide +kernel

/-- An index list 3, 1, 3 at the start of block 2, and four elements of i32 in block 1; the indices of the copy engine's cycle 1. -/
def indexedPad : Memory := Memory.writeNat (Memory.writeNat [] (2 ^ 18) 16 (1 + 2 * 2 ^ 32 + 3 * 2 ^ 64 + 4 * 2 ^ 96)) (2 * 2 ^ 18) 24 (3 + 2 ^ 64 + 3 * 2 ^ 128)
def indexed : State := one { core0 with ranges := [(0, range0)], spad := indexedPad, sy := [(1, entry0)] } dom0
def scattered : Job := { jobIn (.scatter (2 ^ 18) (3 * 2 ^ 18) (2 * 2 ^ 18) 3 .i32 false true) [3, 1, 3] with buf := Memory.writeNat [] 0 8 (1 + 2 * 2 ^ 32) }
theorem wit_IndexedCyclesMoveElements : (17 + 2 : Nat) = 17 + 2 ∧ (2 : Nat) < 3 ∧ inRun (3 * 2 ^ 18 + 12) 4 ∧ ¬ inRun (6 * 2 ^ 18) 4 ∧
    (3 * 2 ^ 18 + 12) / 2 ^ 18 = 3 * 2 ^ 18 / 2 ^ 18 % 8 ∧ symRank desc0 = 2 ∧ linearOf desc0 [15, 15] = 255 ∧ linearOf desc0 [0, 3] = 3 ∧ symSpad desc0 = true ∧
    (canon desc0 [15, 15]).2.2.1 = false := by unfold inRun; decide +kernel
/-- The two occurrences of index 3 add up at their last one (R200), at issue + 19 + spans. -/
theorem test_scatter_combines : (match sampleCycle indexed 0 scattered 19 with
    | .ok t _ => (getCore t 0).inflight.map Flight.eff == [.spad (3 * 2 ^ 18 + 12) 4 15 4 none]
    | _ => false) = true := by decide +kernel
theorem test_gather_through_entry : (match sampleCycle indexed 0 (jobIn (.gatherSy 1 (3 * 2 ^ 18) (2 * 2 ^ 18) 3 desc0) [3, 1, 3]) 17 with
    | .ok t _ => (getCore t 0).inflight.map Flight.eff == [.spad (3 * 2 ^ 18) 4 15 4 none]
    | _ => false) = true := by decide +kernel
theorem test_scatter_through_entry_groups : (match sampleCycle indexed 0 (jobIn (.scatterSy 1 (2 ^ 18) (2 * 2 ^ 18) 3 desc0 false) [3, 1, 3]) 42 with
    | .ok _ j => j.items.map FoldItem.rank == [1, 3] | _ => false) = true := by decide +kernel

theorem wit_FillExpansionAndFoldCycles : (1 ≤ 16) ∧ (39 : Nat) ≠ 40 ∧ (39 + 1 = 40 ∧ 1295 + 1 = 1296) ∧ (16 ≤ 32) ∧ (16 : Nat) * 16 = 256 ∧
    (16 = 16 + 0 ∧ 256 + 128 ≤ 128 * 16) ∧ (47 = 16 + 31) ∧ (canon desc0 [15, 15]).2.2.1 = false ∧ symSpad desc0 = true := by decide +kernel
theorem test_fill_from_pattern_lands : (match sampleCycle indexed 0 (job0 (.fill 1 2 0 128 1 1 128 .b1 false)) 39 with
    | .ok t _ => (getCore t 0).inflight.map (fun f => (f.at', f.eff)) == [(140, .pmRows 2 [0])] | _ => false) = true := by decide +kernel
theorem test_expansion_places_row : (match sampleCycle indexed 0 (job0 (.expand 1 1 0 (3 * 2 ^ 18) 1 2 [0, 0] 0 1 desc0 true)) 26 with
    | .ok t _ => (getCore t 0).inflight.length == 1 | _ => false) = true := by decide +kernel

-- Descriptors with blocks: dimension 4 extents of 4, f32; kinds 1 to 4, store modes 0 to 3
def symDesc (mode kind sigma arity dims : Nat) : BitVec 512 :=
  BitVec.ofNat 512 (2 ^ 18 + (List.range 4).foldl (fun a i => a + 5 * 2 ^ (64 + 16 * i)) 0 + (4 + 1 * 16 + 1024 + mode * 2 ^ 11 + 1 * 2 ^ 13) * 2 ^ 192 +
    (kind + sigma * 16 + arity * 32 + dims * 256) * 2 ^ 256)
def pairDims : Nat := 0 + 1 * 8
theorem wit_SymmetricStorage : symValid (symDesc 0 1 0 2 pairDims) = true ∧ symValid (symDesc 1 2 0 2 pairDims) = true ∧ symValid (symDesc 2 3 0 2 pairDims) = true ∧
    symValid (symDesc 3 4 1 1 0) = true ∧ inExtents (symDesc 0 1 0 2 pairDims) [4, 4, 4, 4] = true ∧ inExtents (symDesc 0 1 0 2 pairDims) [5, 0, 0, 0] = false ∧
    (symBlks (symDesc 0 1 0 2 pairDims)).map SymBlk.kind = [1] ∧ (symBlks (symDesc 1 2 0 2 pairDims)).map SymBlk.kind = [2] ∧
    (symBlks (symDesc 2 3 0 2 pairDims)).map SymBlk.kind = [3] ∧ (symBlks (symDesc 3 4 1 1 0)).map SymBlk.kind = [4] := by decide +kernel

/-- Two equal arrays of one symmetric block: 15 orbits by 25 free elements; the walk's samples, all ones, complete. -/
def walkDesc : BitVec 512 := symDesc 0 1 0 2 pairDims
def tinyDesc : BitVec 512 := BitVec.ofNat 512 (2 ^ 18 + 2 ^ 64 + 2 * 2 ^ 80 + (2 + 6 * 16 + 1024) * 2 ^ 192)
def walked (nums : List Nat) : Job := { jobIn (.walk 1 2 tinyDesc tinyDesc (some 5) none .i32) nums with station := ceSt, stream := .ce }
theorem wit_WalksSumTheirOrbits : symValid tinyDesc = true ∧ symMatch tinyDesc tinyDesc = true ∧ symTy tinyDesc = .i32 ∧ orbitCount tinyDesc tinyDesc = 2 ∧
    (24 + 1 = 24 + 1 ∧ 1 < 2) ∧ 49 + 1 = 48 + 2 ∧ (walked [4, 3, 2, 1]).nums = ([(1, 2), (3, 4)].flatMap (fun p => [p.1, p.2])).reverse ∧
    symMatch walkDesc walkDesc = true := by decide +kernel
/-- 1 * 2 + 3 * 4, in row 5 at issue + 50, eight bytes. -/
theorem test_walk_sums : (match sampleCycle base 0 (walked [4, 3, 2, 1]) 49 with
    | .ok t _ => (getCore t 0).inflight.map (fun f => (f.at', f.eff)) == [(150, .row 5 255 14 .plain)] | _ => false) = true := by decide +kernel

/-- A root of 1.0 and its reciprocal to 61 bits; exact powers, and multiples of one half, of the special functions. -/
theorem wit_VectorDivisionAndFunctions_roots : ((-23 : Int) - 97) % 2 = 0 ∧ (2 ^ 60) * (2 ^ 60) ≤ 2 ^ 23 * 2 ^ 97 ∧ 2 ^ 23 * 2 ^ 97 < (2 ^ 60 + 1) * (2 ^ 60 + 1) ∧
    ((-23 : Int) + 143) % 2 = 0 ∧ 2 ^ 60 * 2 ^ 60 * 2 ^ 23 ≤ 2 ^ 143 ∧ 2 ^ 143 < (2 ^ 60 + 1) * (2 ^ 60 + 1) * 2 ^ 23 ∧
    2 ^ 23 * 2 ^ (-23 : Int).toNat = 1 * 2 ^ (-(-23 : Int)).toNat ∧ 2 * 2 ^ 23 * 2 ^ (-23 : Int).toNat = 2 * 2 ^ (-(-23 : Int)).toNat ∧
    decodeNum (fmtOf .f32 0) 0x3F000001 = .fin false (2 ^ 23 + 1) (-24) := by decide

theorem wit_MemoryEvents_got : (flight 100 (.memRead 0x1000 8 (.reg 5))).got = none ∧ ({ flight 100 (.memRead 0x1000 8 (.reg 5)) with got := some 7 }).got ≠ none ∧
    base.atomNow.find? (fun x => x.1 == 0x1000) = none ∧ (∀ x ∈ (lands (.atom 0x1000 5 (.add 1))).cores, ∀ g ∈ x.2.inflight, storesWord 0x1000 g = false) := by
  decide +kernel
theorem wit_BeatsAndReceiveWindows_wrote : (getCore (beating 1024 []) 0).wrote = [] ∧ (getCore (beating 1024 []) 0).rwins = [] := by decide
theorem wit_FetchAndAdvance_past : (getStream (getCore (fetching 100) 0) .cc).brMin = 0 ∧ (getCore (fetching 100) 0).dcc ≠ 0 ∧
    domOf (fetching 100) 0 = some dom0 ∧ liveIn (fetching 100) dom0 0 = true ∧ 60 + 16 ≤ (getCore (fetching 60) 0).dcc + 16 := by decide +kernel

/-- A kill whose token is of an entry at 0x4000, held or gone; a checkpoint before and at its cycle. -/
def stopping (w : StopWhy) (m : Memory) : State := { one core0 { dom0 with schedStop := some w } with mem := m }
theorem wit_HoldsAndStops_decided : (stopping (.kill 1) []).domains.map Domain.stopAt = [none] ∧ (Memory.word [] (0 + 8)).toNat % 256 = 0 ∧ (1 : Nat) = 0 + 1 ∧
    (Memory.word (Memory.writeNat [] 0x4008 8 3) (0x4000 + 8)).toNat % 256 ≠ 0 ∧ dom0.dcc + dom0.h < 229 ∧
    228 ≤ dom0.dcc + dom0.h := by decide +kernel

/-- Sensors of a package at the threshold and one above it; a group-span pour with no core on the link's die of the package. -/
def hot (n : Nat) : State := { base with pkgs := [(0, { sensors := [(1, n)] })] }
def farDom : Domain := { groupDom with cores := [160, 1024] }
theorem wit_FabricEvents_sensors : (∃ x ∈ Sparse.set 0 (getPkg (hot 100) 0).sensors 0 106, (getPkg (hot 100) 0).emergency < x.2) ∧
    ¬ (∃ x ∈ Sparse.set 0 (getPkg (hot 100) 0).sensors 0 105, (getPkg (hot 100) 0).emergency < x.2) ∧
    (∃ x ∈ Sparse.set 0 (getPkg (hot 101) 0).sensors 0 99, (getPkg (hot 101) 0).emergency - 5 < x.2) ∧
    ¬ (∃ x ∈ Sparse.set 0 (getPkg (hot 100) 0).sensors 0 99, (getPkg (hot 100) 0).emergency - 5 < x.2) ∧ Sparse.wfFrom {} 0 (hot 100).pkgs = true ∧
    (getPkg (hot 100) 0).thermal = false ∧ (115 : Nat) ≤ 115 ∧ (114 : Nat) < 115 := by decide +kernel
theorem wit_FabricEvents_uses : (farDom.span = 2 ∧ 0 ∈ farDom.pkgs ∧ ∃ k ∈ farDom.all, pkgOf k ∈ farDom.pkgs ∧ dieOf k = 7 / 8) ∧
    (∀ q, ¬ (q ∈ farDom.all ∧ pkgOf q = 0 ∧ dieOf q = 7 / 8)) ∧ (∃ q ∈ farDom.cores, pkgOf q = 0) := by
  refine ⟨by decide +kernel, ?_, by decide +kernel⟩
  rintro q ⟨hq, h⟩
  revert h; revert q; decide +kernel

/-- A group-span pour of package 1 that waits in package 0, and the walk that reserves a core of package 0 for it. -/
def groupMould : List Word := [0x8000000000000000 + 2 ^ 54 * 2 + 2 ^ 36 * 2 + 2 ^ 46, 0x4000, 0x8000, 0, 0, 0, 64, 0] ++ List.replicate 24 0
def pourG : Armed := { pourA with pid := 2 ^ 64 + 9, mould := groupMould }
def grouped : State := { State.reset with pkgs := [(0, { parts := [(0, { configured := true, cores := [3, 4] })] }), (1, { parts := [(0, { configured := true, cores := [3], pool := [pourG] })] })] }
theorem wit_SchedulingEvents_group : homeOf pourG.pid = 1 ∧ findArmed grouped 1 pourG.pid = some pourG ∧ mSpan groupMould = 2 ∧ readyIn grouped pourG 0 = false ∧
    (Sparse.get (0, 0) (getPkg grouped 0).heads 0).1 ≠ pourG.pid ∧ (getPart grouped 1 0).arming = true := by decide +kernel

/-- Transfers whose block's port a runner has, or not; a parked unit with its bytes kept; a range moved up to the end of the space. -/
def portBusy : State := { linkedTo (put0 true false) 1 with cores := [(0, { core0 with portWrites := [{ block := 0, stream := .cc, seq := 1, issue := 90, remote := false }] })] }
theorem wit_Transfers_ports : portTaken portBusy dom0 0 4096 64 (·.portWrites) = true ∧ portTaken (linkedTo (put0 true false) 1) dom0 0 4096 64 (·.portWrites) = false ∧
    findXfer portBusy 5 = some (put0 true false) ∧ 4096 / 2 ^ 18 = 0 := by decide +kernel
def parkedDma : Dma := { dma0 false with parked := true, hold := 77 }
theorem wit_Transfers_parked : findDma (dmaing parkedDma) 6 = some parkedDma ∧ parkedDma ∈ (getPkg (dmaing parkedDma) 0).dma ∧ findXfer (dmaing parkedDma) 6 = none ∧
    unitAt (dmaing parkedDma) 0 7 0x1000 2 = .reaches 0x1000 ∧ (2 ^ 39 - 0x1000) + (0x2000 - 0x1000) ≤ 2 ^ 39 := by decide +kernel
def released0 : Compaction := { moving0 with moved := some 720 }
theorem wit_Transfers_release : (720 + 1280 ≤ (compacting [released0]).clock) ∧ released0.moved = some 720 := by decide +kernel
theorem wit_Transfers_release' (k : Nat) : (getCore (compacting [released0]) k).inflight = [] := rfl

def asking : State :=
  { stopped0 with domains := [{ dom0 with status := .held, stopAt := some 100, schedStop := some (.checkpoint 0 100 0) }] }
theorem wit_MailboxCommands_ckpt : (∃ d ∈ asking.domains, d.status = .held ∧ d.stopAt ≠ none ∧ d.saveNow = false ∧
      ∃ k ∈ d.all, (getCore asking k).stop ≠ none) ∧ (boxed {}).domains.map Domain.schedStop = [none] ∧ (0 : Nat) = 0 := by decide +kernel
def owners : State := { base with pkgs := [(0, { parts := [(0, { configured := true }), (1, { mem := [(0x4000, 0x5000)] })] })] }
theorem wit_MailboxCommands_policy : foreignAddr owners 0 0 (0x4001 - 1) = true ∧ foreignAddr owners 0 0 (0x5001 - 1) = false ∧
    Sparse.wfFrom 0 0 (getPkg owners 0).power = true := by decide +kernel

/-- A hub with an event that waits for its cycle; a token accepted; a running hub. -/
def measuring : State := { State.reset with pkgs := [(0, { hubReset := false, measQueue := [(2, [1])], unlocking := none })] }
theorem wit_ServiceEvents_measure : (getPkg measuring 0).measQueue = (2, [1]) :: [] ∧ (getPkg measuring 0).measAt ≠ measuring.clock + 1 ∧
    (getPkg measuring 0).hubReset = false ∧ (getPkg measuring 0).lifecycle ≠ .retired ∧ (getPkg measuring 0).unlocking = none ∧
    ({ unlocking := some [5] } : Pkg).unlocking = some [5] ∧ (2 < 4 ∧ 2 < 3) ∧ ((16 : Nat) < 17 ∧ (getPart (boxed {}) 0 0).configured = true) := by decide +kernel

/-- A watched range, an address that the native filter has, and rings with room, full and of no size. -/
def watching : State := one { core0 with watch := 1, ranges := [(0, { range0 with ctl := range0.ctl + 32, wmask := 1, wbm := 1 })] } dom0
def ringAt (head tail size : Nat) : Memory := Memory.writeNat (Memory.writeNat (Memory.writeNat [] 0x100 8 head) 0x108 8 tail) 0x110 8 size
theorem wit_RecordsReachTheirRings : (0x1000 < 2 ^ 57 ∧ 6 < 8 ∧ (getCore watching 0).trace.length + 2 ≤ 64 ∧ tidy watching = true) ∧
    (getCore watching 0).watch.getLsbD 0 = true ∧ (getCore watching 0).watch.getLsbD 16 = false ∧
    (Memory.word (ringAt 5 1 4) 0x110).toNat ≤ (Memory.word (ringAt 5 1 4) 0x100).toNat - (Memory.word (ringAt 5 1 4) 0x108).toNat ∧
    ¬ (Memory.word (ringAt 4 1 4) 0x110).toNat ≤ (Memory.word (ringAt 4 1 4) 0x100).toNat - (Memory.word (ringAt 4 1 4) 0x108).toNat ∧
    (Memory.word [] 0x110).toNat = 0 ∧ Memory.wf (ringAt 5 1 4) = true ∧ effRcb region0 0 9 8 0x4000 = some 0x4000 ∧
    (cur base).trace.length < 64 ∧ 64 ≤ (List.replicate 64 [(0 : Word)]).length := by decide +kernel
theorem test_watch_records : ((getCore (watchTest watching 0 .cp 3 0 9 0 8 3) 0).trace.map List.length = [4]) ∧
    (getCore (watchTest watching 0 .cp 3 0 9 0x1000 8 3) 0).trace.length = 1 := by decide +kernel

-- Issue checks, mailbox records, ranges of a partition, scope of a fence -----------------------------------------------------------------------------

/-- The next command of a stream as it was fetched, and the stream that issues it in the present cycle. -/
def fetchedAs (w : Nat) (fault : Option (Nat × Nat)) : Fetched := ⟨0, [toWord w], 1, 100, fault⟩
def issuing (w : Nat) (fault : Option (Nat × Nat)) (c : CoreState) : State :=
  { one { c with cc := { c.cc with fetched := [fetchedAs w fault] } } dom0 with agenda := [.issue 0 .cc] }
def issued (w : Nat) (fault : Option (Nat × Nat)) (c : CoreState) : State := enterIssue { issuing w fault c with agenda := [] } 0 .cc (fetchedAs w fault)
/-- A WAIT byte that faults, a word that is no command, a system core's command, a full slot, a busy engine, a free one, a stream-control
command in a full slot. -/
theorem wit_StepRunsTheDecodedCommand_checks :
    issueOf { issuing addWord (some (1, 0)) core0 with agenda := [] } 0 .cc = some (fetchedAs addWord (some (1, 0))) ∧
    (decodeWords .cc [0x0000F60000000000] = .error .unassigned) ∧ (issued 0xF60000000000 none core0).ctx.core = 0 ∧
    fieldsOk (issued addWord none core0) 0 .eret = false ∧ fieldsOk (issued addWord none core0) 0 (.add 5 1 2) = true ∧
    lastPlaceOk (curStream (issued addWord none core0)) (fetchedAs addWord none) (.add 5 1 2) = true ∧ isControl .nop = true ∧
    isControl (.add 5 1 2) = false ∧
    (curStream (issued addWord none { core0 with cc := { core0.cc with lastSlot := some 100 } })).lastSlot = some 100 ∧
    (curStream (issued addWord none core0)).lastSlot ≠ some (cur (issued addWord none core0)).dcc ∧
    (cur (issued addWord none core0)).dcc < Sparse.get 0 (cur (issued addWord none { core0 with busy := [(ccSt, 101)] })).busy (occupies base (.add 5 1 2)).1 ∧
    Sparse.get 0 (cur (issued addWord none core0)).busy (occupies base (.add 5 1 2)).1 ≤ 100 := by decide +kernel

/-- A system core writes a record into its own partition's mailbox, and one into another's. -/
def mailing : State := { system0 with agenda := [.mail 640 (.armx 0 1 3)], pkgs := [(0, { parts := [(0, { sysCores := [641] }), (1, { sysCores := [640] })] })] }
theorem wit_StepTakesTheAgendaInOrder_mail : mailing.agenda = .mail 640 (.armx 0 1 3) :: [] ∧ mailboxOf (.armx 0 1 3) = some (0, 1) ∧ pkgOf 640 = 0 ∧
    numOf 640 ∈ (getPart mailing 0 1).sysCores ∧ ¬ (numOf 640 ∈ (getPart mailing 0 0).sysCores) ∧ mailing.dead = false := by decide +kernel

/-- Two packages, the partition's ASID 7 in both, ASID 8 another partition's; a core of each package, one of them in a pour. -/
def ranges2 : State :=
  { system0 with
    cores := [(0, { ranges := [(0, range0)] }), (640, { cc := { ended := false } }), (1024, { core0 with ranges := [(0, range0)] })]
    domains := [{ dom0 with cores := [1024], pkgs := [1] }]
    pkgs := [(0, { parts := [(0, { sysCores := [640], asids := [7] }), (1, { asids := [8] })] }), (1, { parts := [(1, { asids := [9] })] })] }
theorem wit_SystemCoreCommands_reach : foreignAsid ranges2 0 (ownPart ranges2 640) 7 = false ∧ foreignAsid ranges2 0 (ownPart ranges2 640) 8 = true ∧
    (ranges2.pkgs.map Prod.fst).Nodup ∧ 1 ∈ ranges2.pkgs.map Prod.fst ∧ foreignAsid ranges2 1 (ownPart ranges2 640) 7 = false ∧
    domOf ranges2 0 = none ∧ (domOf ranges2 1024).isSome = true ∧ 1024 ∈ ranges2.cores.map Prod.fst ∧ 1024 % 1024 < 640 ∧ ¬ (640 % 1024 < 640) ∧
    pinnedThere ranges2 7 0x1000 = false ∧ reachedPkgs ranges2 7 = [0, 1] := by decide +kernel
def listing : State := { system0 with mem := listed 1, pkgs := [(0, { lists := [(7, 0x20001)] })] }
theorem wit_SystemCoreCommands_list : listing.pkgs.map Prod.fst = [0] ∧ (getPkg listing 0).compactions = [] ∧ findSlot listing 0 7 0x1000 = some 0 ∧
    listSlot listing 0 7 0 = some 0x20000 := by decide +kernel
theorem wit_SystemCoreCommands_nolist : findSlot listing 0 8 0x1000 = none := by
  unfold findSlot
  exact List.find?_eq_none.mpr (fun i _ => by have h : listSlot listing 0 8 i = none := rfl; simp [h])
theorem wit_SystemCoreCommands_pin : (domOf pinned0 0).isSome = true ∧ (0, { range0 with ctl := range0.ctl + 64 }) ∈ (getCore pinned0 0).ranges ∧
    (range0.ctl + 64).toNat / 2 ^ 6 % 2 = 1 := by decide +kernel

/-- A core that has observed a write of a core of its domain and one of a host function. -/
def observing : State := { base with
  seen := [(.core 0, ⟨.core 0, [1, 2, 0, 0]⟩), (.core 0, ⟨.host 0 1, [0, 5, 0, 0]⟩)], clocks := [(.core 0, [3, 0, 0, 0])] }
theorem wit_WaitsHoldsFencesAndTraps_fence : observing.ctx.active = true ∧ inScope observing 0 1 (.core 0) = true ∧
    inScope observing 0 3 (.host 0 1) = false ∧ inScope observing 0 4 (.host 0 1) = true ∧ (idle observing).ctx.active = false := by decide +kernel
theorem test_fence_merges : clockOf (after (.fence 4) observing) (.core 0) = [3, 5, 0, 0] ∧ (after (.fence 4) observing).seen = [] ∧
    clockOf (after (.fence 3) observing) (.core 0) = [3, 2, 0, 0] := by decide +kernel
theorem test_slack_halt_trap : (cur (after (.slack 9) base)).slackPts = [(101, 9)] ∧ ((cur (after (.trap 5) base)).stop.map Stop.code) = some 0x13 := by
  decide +kernel

-- The plans of the vector and contraction engines; walks; reducing beats -------------------------------------------------------------------------------

def planned (ops : List (Nat × Micro)) : Job := { job0 (.plan ops) with station := veSt, stream := .ve, run := 1, issue := 97 }
def busyPort : CoreState := { core0 with portReads := [⟨1, .cp, 1, 90, false, none, 0⟩], portWrites := [⟨2, .cp, 1, 90, false, none, 0⟩] }
def placed : RunVal := ⟨1, 4, 2, .cp, 1, 90, none, .last, none, 0⟩
def onRunner : CoreState := { core0 with runners := [placed], readRows := [⟨1, .ve, 3, 97, false, some 5, 0⟩] }
theorem wit_RingMemoryCommands_plans : (one core0 dom0).cores.length = 1 ∧ (getCore (one core0 dom0) 0).dcc - (planned []).issue = 3 ∧
    (∃ v ∈ busyPort.portReads, v.block = 1) ∧ (∀ v ∈ busyPort.portReads, v.block ≠ 0) ∧ (∃ v ∈ busyPort.portWrites, v.block = 2) ∧
    (∀ v ∈ core0.portWrites, v.block ≠ 2) ∧ (∃ v ∈ onRunner.runners, v.run = (planned []).run ∧ v.station = 4) ∧
    ¬ (∃ v ∈ onRunner.runners, v.run = (planned []).run ∧ v.station = 3) ∧ (planned []).active = true ∧
    onRunner.readRows = [⟨1, .ve, 3, 97, false, some 5, 0⟩] ∧ (planned []).stream = .ve ∧ (planned []).seq = 3 ∧ 3 / 2 = 1 ∧ 3 % 2 = 1 := by
  decide +kernel
theorem wit_RingMemoryCommands_rows :
    ((([(1, Micro.rowIn 0 5 1 0 4), (2, .tap 4)] : List (Nat × Micro)).filter (fun x => x.1 = 1)).map Prod.snd).filter
      (fun x => match x with | .rowIn .. | .rowOut .. => true | _ => false) = [.rowIn 0 5 1 0 4] ∧
    ((([(1, Micro.rowOut 5 0 4)] : List (Nat × Micro)).filter (fun x => x.1 = 1)).map Prod.snd).filter
      (fun x => match x with | .rowIn .. | .rowOut .. => true | _ => false) = [.rowOut 5 0 4] := by decide +kernel
theorem test_plan_port_conflict : ((getCore (doStatic (one busyPort dom0) 0 (planned []) 3 (.read 1 0)) 0).stop.map (fun x => (x.code, x.cause))) = some (2, 3) ∧
    ((getCore (doStatic (one onRunner dom0) 0 (planned []) 3 (.place 4 1 .last)) 0).stop.map (fun x => (x.code, x.cause))) = some (2, 1) ∧
    ((getCore (doStatic (one core0 dom0) 0 (planned []) 3 (.tap 4)) 0).stop.map (fun x => (x.code, x.cause))) = some (2, 2) := by decide +kernel

def gathering (idx : List Nat) : Job := { job0 (.vldSy 5 1 desc0 1 0 idx .f32) with stream := .ve, station := veSt }
theorem wit_OrbitRingMemoryCommands_landing : symTy desc0 = .f32 ∧ (List.replicate 32 0).length = Ty.lanes .f32 ∧ (17 ≠ 18) ∧ (1 : BitVec 128) ≠ 0 ∧
    symBase desc0 / 2 ^ 18 % 8 = 1 := by decide +kernel

def asked (made : Nat) : Job := { walked [] with made := made }
def memDesc : BitVec 512 := BitVec.ofNat 512 (0x1000 + 2 ^ 64 + 2 * 2 ^ 80 + (2 + 6 * 16) * 2 ^ 192)
theorem wit_WalksSumTheirOrbits_requests : (25 + 0 = 25 + 0 ∧ 0 < orbitCount tinyDesc tinyDesc) ∧ (asked 0).made = 0 ∧ (asked 1).made = 1 ∧
    symSpad tinyDesc = true ∧ symSpad memDesc = false ∧ symValid memDesc = true ∧ symMatch memDesc tinyDesc = true ∧ (1304 < 2 ^ 57) := by decide +kernel

theorem wit_BeatsAndReceiveWindows_floats : Ty.isFloat .f32 = true ∧ (Ty.f32 ≠ .nf) ∧ (win0 128 (some .f32)).red = some .f32 ∧
    (win0 128 (some .f32)).addr ≤ 1024 ∧ 1024 + 128 ≤ (win0 128 (some .f32)).addr + (win0 128 (some .f32)).len ∧
    (win0 128 (some .f32)).count + 128 ≤ (win0 128 (some .f32)).expect := by decide

-- Memory: an atomic that has sampled and not stored; the conversion of a cell ----------------------------------------------------------------------------

def storing0 : Flight := flight 101 (.atomStore 0x1000 9 [0, 0, 0, 0])
def atomics : State := one { core0 with inflight := [flight 100 (.atom 0x1000 5 (.add 1)), storing0] } dom0
theorem wit_MemoryEvents_pending : (takeDueAll atomics dom0 isAtom).1 = [(0, flight 100 (.atom 0x1000 5 (.add 1)))] ∧ partnerOf dom0 0 = none ∧
    liveIn atomics dom0 0 = true ∧ storing0 ∈ (getCore atomics 0).inflight ∧ storing0.got = none ∧ mirrorKeys atomics 0x1000 = [0x1000] ∧
    storing0.eff = .atomStore 0x1000 9 [0, 0, 0, 0] := by decide +kernel
/-- The atomic that has sampled stores first, and the next one finds its word (R294). -/
theorem test_atomics_in_order : Memory.readNat (after (.atomicApply 1) atomics).mem 0x1000 8 = 9 ∧
    ((getCore (after (.atomicApply 1) atomics) 0).inflight.map Flight.eff).contains (.sreg 5 9) = true := by decide +kernel
theorem wit_MemoryEvents_conversion :
    (takeDueAll (lands (.cellRead 0x1000 .i64 false 0 0)) dom0 isMemSample).1 = [(0, flight 100 (.cellRead 0x1000 .i64 false 0 0))] ∧
    liveIn (lands (.cellRead 0x1000 .f32 true 0 0)) dom0 0 = true ∧ base.badMem.contains (0x1000 / 64) = false := by decide +kernel

-- Fetch past its cycle; a queue of seventeen words ---------------------------------------------------------------------------------------------------------

def overfull : State := one { core0 with fq := List.replicate 17 0 } dom0
theorem wit_FetchAndAdvance_overflow : tidy overfull = true ∧ findDom overfull 1 = some dom0 ∧ dom0.all.count 0 = 1 ∧ 16 < (getCore overfull 0).fq.length ∧
    (getCore overfull 0).stop = none ∧ dom0.pairs = [] ∧ liveIn overfull dom0 0 = true := by decide +kernel
theorem wit_FetchAndAdvance_seen (i : Nat) (m : Memory) : (getCore (fetching 100) 0).spadPast[i]? = some m → False := by
  simp [fetching, one, getCore, core0, Sparse.get]

/-- A scatter through an entry of the device memory and of the scratchpad, its representatives grouped. -/
def grouped0 : List FoldItem := [⟨1, 2 ^ 18 + 4, 7, 0⟩, ⟨3, 2 ^ 18 + 12, 9, 0⟩]
theorem wit_IndexedCyclesMoveElements_landing : symSpad desc0 = true ∧ symSpad memDesc = false ∧ (47 + 3 = 3 + 47) ∧ (3 + 40 + 1 = 44) ∧
    grouped0[1]? = some ⟨3, 2 ^ 18 + 12, 9, 0⟩ := by decide +kernel

-- Hubs: several domains on a link, a debugger's release, several heads, an image with few parameters ---------------------------------------------------------

def twoDoms : State := { linked 2 0 with domains := [groupDom, { farDom with pid := 2 }] }
theorem wit_FabricEvents_domains : (∀ d ∈ twoDoms.domains, d.span = 2 ∧ 0 ∈ d.pkgs ∧ ∃ q ∈ d.cores, pkgOf q = 0) ∧
    (∃ k ∈ groupDom.all, pkgOf k ∈ groupDom.pkgs ∧ dieOf k = 7 / 8) ∧ (∃ k ∈ farDom.all, pkgOf k ∈ farDom.pkgs ∧ dieOf k = 8 / 8) ∧
    (getCore twoDoms 0).pid = groupDom.pid ∧ findDom twoDoms groupDom.pid = some groupDom ∧ (getCore twoDoms 0).stop = none := by decide +kernel
def released1 : Domain := { dom0 with causes := [⟨5, 0, 0, .cc, 0, 0, {}, false⟩] }
theorem wit_FabricEvents_release : findDom (one core0 released1) released1.pid = some released1 ∧
    released1.causes.any (fun c => c.code == 5 && !c.cleared) = true ∧ released1.status = .run := by decide
theorem wit_FabricEvents_hubs : ∀ p ∈ tracing.pkgs, p.2.compactions = [] := by decide
theorem wit_SchedulingEvents_saved : (Memory.word (Memory.writeNat (Memory.writeNat [] 0x9000 8 9) 0x9010 8 100) (0x9000 + 16)).toNat = 100 ∧
    saved0.pid = 9 ∧ saved0.restored = false ∧ findArmed { waiting0 back0 with saved := [saved0] } 0 9 = some back0 ∧ back0.admitted = true ∧
    back0.restore = some 0x9000 ∧ (5 : Nat) < 16 := by decide +kernel

-- Transfers: a window gone, a cast get, the order of descriptors, compaction ---------------------------------------------------------------------------------

theorem wit_Transfers_window : windowStands (linkedTo (put0 false false) 1) (put0 false false) ∧
    ¬ windowStands { linkedTo (put0 false false) 1 with pkgs := [(0, { lists := [(7, 0x20001)] })] } (put0 false false) ∧
    findXfer { linkedTo (put0 false false) 1 with pkgs := [(0, { lists := [(7, 0x20001)] })] } 5 = some (put0 false false) ∧
    partnerOf dom0 0 ≠ some 0 ∧ (put0 false false).acked < 64 := by unfold windowStands; decide +kernel
/-- The listed range is compressed and the partition has the cast feature; its bytes from 0x1000 on are a block of zeros. -/
def castGet : State := { linkedTo (put0 true false) 1 with
  mem := Memory.writeNat (Memory.writeNat (listed 1) 0x20018 8 (1 + 2 + 4 + 8 + 16 + 7 * 2 ^ 8)) 0x1000 8 (1 + 1 * 2 ^ 11 + 256 * 2 ^ 20)
  pkgs := [(0, { lists := [(7, 0x20001)], windows := [(2, [0x1000, 4096, 0x8000000000000000 + 7, 0])], featActive := [(1, 4)] })] }
theorem wit_Transfers_cast : featOn castGet 0 0 2 = true ∧ findXfer castGet 5 = some (put0 true false) ∧ windowStands castGet (put0 true false) ∧
    ((listRanges castGet 0 7).find? (fun e => decide (e.ctl.toNat % 2 = 1 ∧ e.ctl.toNat / 2 ^ 8 % 2 ^ 12 = 7 ∧
      e.base.toNat ≤ windowWord (put0 true false) 0 % 2 ^ 57 + 0 ∧ windowWord (put0 true false) 0 % 2 ^ 57 + 0 < e.limit.toNat))).map (fun e => e.ctl.toNat / 2 ^ 4 % 2) = some 1 ∧
    portTaken castGet dom0 0 4096 128 (·.portWrites) = false ∧ unitAt castGet 0 7 (0x1000 + 64) 1 = .reaches 0x1040 ∧
    unitAt castGet 0 7 0x2000 1 = .stops 0x07 0 := by unfold windowStands; decide +kernel
def second0 : Dma := { dma0 true with id := 7, started := false }
def queued : State := { base with pkgs := [(0, { dma := [{ dma0 true with started := false }, second0] })] }
theorem wit_Transfers_behind : findDma queued 7 = some second0 ∧
    (∃ y ∈ (getPkg queued 0).dma, y.fn = second0.fn ∧ y.id < second0.id ∧ y.started = false) ∧
    ¬ (∃ y ∈ (getPkg queued 0).dma, y.fn = second0.fn ∧ y.id < 6 ∧ y.started = false) ∧ ¬ (dom0.status = .held ∧ stopsDomain dom0 = true) := by
  decide +kernel
theorem wit_Transfers_source : unitAt (dmaing { dma0 false with toHost := true }) 0 7 0x1000 1 = .reaches 0x1000 ∧
    unitAt { dmaing { dma0 false with toHost := true } with mem := listed 0 } 0 7 0x1000 1 = .stops 0x09 0 ∧
    findDma (dmaing { dma0 false with toHost := true }) 6 = some { dma0 false with toHost := true } := by decide +kernel
def foreignDest : State := { compacting [] with pkgs := [(0, { lists := [(7, 0x20001)], parts := [(0, { asids := [7] }), (1, { mem := [(0x40000, 0x50000)] })] })] }
theorem wit_Transfers_foreign : foreignRun foreignDest 0 0 0x40000 0x1000 = true ∧ foreignAsid foreignDest 0 0 7 = false ∧
    foreignAsid foreignDest 0 1 7 = true ∧ foreignRun foreignDest 0 0 0x60000 0x1000 = false ∧
    (listRanges foreignDest 0 7).find? (fun e => e.base.toNat == 0x1000) = some { range0 with res := 1 } := by decide +kernel
def reached0 (dcc : Nat) : State := { compacting [{ released0 with applied := [(0, 1, dcc)] }] with cores := [(0, { core0 with dcc := 1400 })], domains := [dom0] }
theorem wit_Transfers_applied : (∀ a ∈ ({ released0 with applied := [(0, 1, 120)] } : Compaction).applied,
      (getCore (reached0 120) a.1).pid ≠ a.2.1 ∨ a.2.2 + 1280 ≤ (getCore (reached0 120) a.1).dcc) ∧
    (∃ a ∈ ({ released0 with applied := [(0, 1, 121)] } : Compaction).applied,
      (getCore (reached0 121) a.1).pid = a.2.1 ∧ (getCore (reached0 121) a.1).dcc < a.2.2 + 1280) ∧ (reached0 120).saved = [] ∧
    (getCore (reached0 120) 0).ranges = [] := by decide +kernel

-- The mailbox and service --------------------------------------------------------------------------------------------------------------------------------------

def twoMembers : State := { stopped0 with cores := [(0, core0), (1024, { core0 with stop := some ⟨100, 7, .cc, [7, 0, 0, 0], 0, [], 0, 0, 0⟩ })]
                                          domains := [{ groupDom with status := .held }] }
theorem wit_MailboxCommands_member : memberCore twoMembers groupDom 0 = 1024 ∧ (∃ q ∈ groupDom.all, numOf q = 0 ∧ (getCore twoMembers q).stop ≠ none) ∧
    (∀ d ∈ twoMembers.domains, d.doomed = false) ∧ isDeferred 7 = true := by decide +kernel
theorem wit_MailboxCommands_build : foreignAsid ranges2 0 0 8 = true ∧ foreignAddr owners 0 0 0 = false ∧ (built.getD 4 0 : Word) = 0 := by
  decide +kernel
theorem wit_MailboxCommands_restore : savedAt { base with saved := [saved0], mem := Memory.writeNat (Memory.writeNat [] 0x9000 8 9) 0x9010 8 100 } 0x9000 = some saved0 ∧
    savedAt { base with saved := [saved0] } 0x9000 = none ∧ saved0.dom.part = 0 ∧ findDom base 9 = none ∧ findArmed base 0 9 = none := by decide +kernel

/-- A word of device memory through a function's BAR, and one in another partition's memory. -/
def barred : State := { base with pkgs := [(0, { parts := [(0, { configured := true }), (1, { mem := [(0x4000, 0x5000)] })] })] }
theorem wit_ServiceEvents_bar : (0x4000 < 2 ^ 39 ∧ 0x4000 % 8 = 0 ∧ 2 ^ 39 - 8 < 2 ^ 39 ∧ (2 ^ 39 - 8) % 8 = 0) ∧ (getPart barred 0 0).configured = true ∧
    foreignAddr barred 0 0 0x4000 = true ∧ foreignAddr barred 0 0 0x5000 = false ∧ foreignAddr barred 0 0 0x3FF8 = false ∧ Memory.wf barred.mem = true := by
  decide +kernel
theorem test_bar_word : Memory.readNat (after (.managementRegisterWrite 0 (2 ^ 41 + 2 ^ 39 + 0x5000) 77) barred).mem 0x5000 8 = 77 ∧
    (after (.managementRegisterWrite 0 (2 ^ 41 + 2 ^ 39 + 0x4000) 77) barred).mem = [] := by decide +kernel
theorem wit_ServiceEvents_retire : ({ unlocking := some [5], lifecycle := .deployed } : Pkg).lifecycle ≠ .retired ∧
    (getPkg (after (.retire 0) { State.reset with pkgs := [(0, { unlocking := some [5] })] }) 0).unlocking = none := by decide +kernel

/-- A range of the package is on its way from 0 to 0x40000: what the hub writes into it is changed in both. -/
def mirrored : State := { compacting [⟨0, 0, 7, 0x1000, 0, 0x40000, 0x1000, 0x1000, none, []⟩] with mem := [] }
theorem wit_RecordsReachTheirRings_mirror : 0x40100 ∈ mirrorKeys mirrored 0x100 ∧ Memory.wf (Memory.writeNat [] 0x100 8 5) = true ∧
    Memory.read (Memory.writeNat [] 0x100 8 5) 0x100 ≠ Memory.read mirrored.mem 0x100 ∧ (∀ p ∈ base.pkgs, p.2.compactions = []) := by decide +kernel
theorem test_hub_writes_both : Memory.readNat (hubWrite mirrored (Memory.writeNat [] 0x100 8 5)).mem 0x40100 8 = 5 := by decide +kernel

-- A host function's atomic; loads of the tables, splits and merges; windows; faults after faults ---------------------------

def hostAdd : HostAtomic := ⟨1, 0, 0, 0x5000, .add 7⟩
def atomAsked (x : HostAtomic) : State := { barred with agenda := [.hostAtom x] }
theorem wit_StepTakesTheAgendaInOrder_host : (atomAsked hostAdd).agenda = .hostAtom hostAdd :: [] ∧ tidy (atomAsked hostAdd) = true ∧
    (hostAdd.addr < 2 ^ 39 ∧ hostAdd.addr % 8 = 0 ∧ hostAdd.fn = 0) ∧ (getPart barred 0 (1 - 1)).configured = true ∧
    foreignAddr barred 0 (1 - 1) 0x4000 = true ∧ foreignAddr barred 0 (1 - 1) 0x5000 = false ∧ ¬ ((0x5004 : Nat) % 8 = 0) ∧
    (∀ y ∈ (atomAsked hostAdd).atomNow, y.1 ∉ mirrorKeys (atomAsked hostAdd) 0x5000) ∧
    (∃ y ∈ ({ atomAsked hostAdd with atomNow := [(0x5000, 5, ⟨.host 0 0, [0, 0, 0, 0]⟩)] } : State).atomNow, y.1 ∈ mirrorKeys (atomAsked hostAdd) 0x5000) ∧
    Sparse.wfFrom {} 0 barred.pkgs = true ∧ Sparse.wfFrom 0 0 (getPkg barred 0).hostOld = true ∧ (getCore barred 0).inflight = [] := by decide +kernel
theorem test_host_atomic : Memory.readNat (after (.resultLanding 5) (match step (atomAsked hostAdd) with | .next t => t | _ => base)).mem 0x5000 8 = 7 := by
  decide +kernel

/-- A core whose partition has memory up to 0x10000, with a valid range and one that its image may replace; what lands in its tables. -/
def tabled (e : Effect) (l : List (Nat × RangeEntry)) : State :=
  { lands e with cores := [(0, { core0 with ranges := l, inflight := [flight 100 e] })]
                 pkgs := [(0, { parts := [(0, { configured := true, cores := [0], asids := [7], mem := [(0, 0x10000)] })] })] }
def imageOf (e : RangeEntry) : BitVec 512 := BitVec.ofNat 512 (entryImage e)
def loads (n : Nat) (e : RangeEntry) : State := tabled (.rload n (imageOf e)) [(0, range0)]
theorem wit_TableEditCommands_symmetry : symValid desc0 = true ∧ symValid 0 = false ∧ tidy (tabled (.yload 1 desc0) []) = true ∧
    dueNow (tabled (.yload 1 desc0) []) 0 = [flight 100 (.yload 1 desc0)] ∧ partnerOf dom0 0 = none ∧
    liveIn (tabled (.yload 1 0) []) dom0 0 = true ∧ (flight 100 (.yloadRead 1 64)).eff = .yloadRead 1 64 := by decide +kernel
theorem test_yload_lands : Sparse.get {} (getCore (after (.resultLanding 0) (tabled (.yload 1 desc0) [])) 0).sy 1 = ⟨true, desc0⟩ ∧
    (getCore (after (.resultLanding 0) (tabled (.yload 1 0) [])) 0).stop.map Stop.code = some 1 := by decide +kernel
theorem wit_TableEditCommands_ranges : dueNow (loads 63 range0) 0 = [flight 100 (.rload 63 (imageOf range0))] ∧ tidy (loads 63 range0) = true ∧
    entryOf (imageOf range0) = range0 ∧ Sparse.wfFrom {} 0 (getCore (loads 63 range0) 0).ranges = true ∧
    (range0.ctl.toNat < 2 ^ 20 ∧ range0.ctl.toNat / 2 ^ 7 % 2 = 0 ∧ range0.ctl.toNat / 2 ^ 5 % 2 = 0 ∧ range0.lidx.toNat < 2 ^ 12) ∧
    (2 ^ 20 ≤ ({ range0 with ctl := range0.ctl + 2 ^ 20 } : RangeEntry).ctl.toNat) ∧ asidOfCore (loads 63 range0) 0 = 7 ∧
    (range0.base.toNat % 256 = 0 ∧ range0.limit.toNat ≤ 2 ^ 57 ∧ 0 + (0x2000 - 0x1000) ≤ 2 ^ 39) ∧ ({ range0 with ctl := 0 } : RangeEntry).ctl.toNat % 2 = 0 ∧
    (range0.base.toNat < 0x2000 ∧ range0.base.toNat < range0.limit.toNat) ∧ featOn (loads 63 range0) 0 0 1 = false := by decide +kernel
/-- An entry of the ASID beside the one there lands; one that overlaps it, and one past the partition's memory, raise permission. -/
theorem test_rload_lands : Sparse.get {} (getCore (after (.resultLanding 0) (loads 63 { range0 with base := 0x2000, limit := 0x3000 })) 0).ranges 63 =
      { range0 with base := 0x2000, limit := 0x3000 } ∧
    (getCore (after (.resultLanding 0) (loads 63 range0)) 0).stop.map Stop.code = some 8 ∧
    (getCore (after (.resultLanding 0) (loads 63 { range0 with base := 0x10000, limit := 0x11000 })) 0).stop.map Stop.code = some 8 := by decide +kernel
theorem wit_TableEditCommands_inside (a : Nat) (h : range0.base.toNat ≤ a ∧ a < range0.limit.toNat) :
    ∃ m ∈ (getPart (loads 63 range0) 0 0).mem, m.1 ≤ (a + range0.off.toNat) % 2 ^ 64 ∧ (a + range0.off.toNat) % 2 ^ 64 < m.2 := by
  refine ⟨(0, 0x10000), by decide +kernel, ?_⟩
  have : range0.base.toNat = 0x1000 ∧ range0.limit.toNat = 0x2000 ∧ range0.off.toNat = 0 := by decide
  omega
def next0 : RangeEntry := { range0 with base := 0x2000, limit := 0x3000, lidx := 5 }
theorem wit_TableEditCommands_edits : (0 ≠ 1 ∧ range0.base.toNat < (0x1100 : Word).toNat ∧ (0x1100 : Word).toNat < range0.limit.toNat ∧ 4095 < 4096) ∧
    next0.base = range0.limit ∧ next0.base.toNat < next0.limit.toNat ∧
    dueNow (tabled (.rsplit 0 1 0x1100 4095) [(0, range0)]) 0 = [flight 100 (.rsplit 0 1 0x1100 4095)] ∧
    dueNow (tabled (.rmerge 0 1) [(0, range0), (1, next0)]) 0 = [flight 100 (.rmerge 0 1)] ∧
    Sparse.wfFrom {} 0 [(0, range0), (1, next0)] = true ∧ tidy (tabled (.rmerge 0 1) [(0, range0), (1, next0)]) = true := by decide +kernel
/-- The first sector of 256 bytes alone was resident: the split at its end leaves the first entry's one sector resident, the second's none;
the merged entry's sectors are of 512 bytes, half of the first not resident. -/
theorem test_split_and_merge : let c := getCore (after (.resultLanding 0) (tabled (.rsplit 0 1 0x1100 4095) [(0, range0)])) 0
    (Sparse.get {} c.ranges 0).res = 1 ∧ (Sparse.get {} c.ranges 1).res = 0 ∧ (Sparse.get {} c.ranges 1).base = 0x1100 ∧
    let m := getCore (after (.resultLanding 0) (tabled (.rmerge 0 1) [(0, { range0 with limit := 0x5000 }), (1, { next0 with base := 0x5000, limit := 0x6000 })])) 0
    (Sparse.get {} m.ranges 0).limit = 0x6000 ∧ (Sparse.get {} m.ranges 0).res = 0 ∧ Sparse.get {} m.ranges 1 = {} := by decide +kernel

/-- A move of a range onto another partition's memory. -/
def moving1 : State := { listing with
  pkgs := [(0, { lists := [(7, 0x20001)], parts := [(0, { sysCores := [640], asids := [7] }), (1, { mem := [(0x40000, 0x50000)] })] })] }
theorem wit_SystemCoreCommands_abroad : (∃ q ∈ reachedPkgs moving1 7, ∃ e ∈ rangeBackings moving1 q 7 0x1000,
      foreignRun moving1 q (ownPart moving1 640) ((0x1000 + 0x3F000) % 2 ^ 64) (e.limit.toNat - e.base.toNat) = true) ∧
    (∀ q ∈ reachedPkgs moving1 7, ∀ e ∈ rangeBackings moving1 q 7 0x1000,
      foreignRun moving1 q (ownPart moving1 640) ((0x1000 + 0x4F000) % 2 ^ 64) (e.limit.toNat - e.base.toNat) = false) ∧
    foreignAsid moving1 0 (ownPart moving1 640) 7 = false := by decide +kernel

/-- A core that a deferred fault of an earlier cycle has stopped, or a stopping one. -/
def stoppedBy (code : Nat) : State := one { core0 with stop := some ⟨99, code, .cc, [code, 0, 0, 0], 0, [], 0, 0, 0⟩ } dom0
theorem wit_TakingAFault_earlier : ((cur (stoppedBy 7)).stop.map Stop.code) = some 7 ∧ 99 < dom0.dcc ∧ (7 = 0x07 ∨ 7 = 0x09) ∧ ¬ (0x10 = 0x07 ∨ 0x10 = 0x09) ∧
    ((cur (stoppedBy 1)).stop.map Stop.code) = some 1 ∧ partnerOf dom0 0 ≠ some 0 ∧ dom0.status = .run := by decide +kernel
theorem test_fault_takes_deferred_place : ((cur (faultNow (stoppedBy 9) 0x10 0 [])).stop.map Stop.code) = some 0x10 ∧
    ((cur (faultNow (stoppedBy 1) 0x10 0 [])).stop.map Stop.code) = some 1 := by decide +kernel

theorem wit_VectorDivisionAndFunctions_specials : decodeNum (fmtOf .f32 0) 0x7F800000 = .inf false ∧ decodeNum (fmtOf .f32 0) 0xFF800000 = .inf true ∧
    decodeNum (fmtOf .f32 0) 0x7FC00000 = .nan false ∧ decodeNum (fmtOf .f32 0) 0x7F800001 = .nan true := by decide

/-- An orbit store of one active element, its representative outside and inside an open window. -/
def orbital (w : List RWin) : State := one { core0 with fq := [0], sy := [(1, entry0)], rwins := w, masks := [(2, 1)] } dom0 .ve
def orbitStore : VMem := { vd := 0, sa := 0, blk := ⟨1, by decide⟩, run := 0, prd := .mask 2, z := false, ty := .f32 }
theorem wit_OrbitRingMemoryCommands_free : (ranksOf desc0 [([0, 0], 5)]) = [0] ∧ slotAddr desc0 0 = 2 ^ 18 ∧ symSize desc0 = 4 := by decide +kernel
theorem wit_OrbitRingMemoryCommands_windows : ¬ shut (orbital []) (2 ^ 18) 4 ∧ shut (orbital [⟨2 ^ 18 + 3, 128, 90, 100, 0, 128, none, .cp, 1, 0⟩]) (2 ^ 18) 4 ∧
    ¬ shut (orbital [⟨2 ^ 18 + 4, 128, 90, 100, 0, 128, none, .cp, 1, 0⟩]) (2 ^ 18) 4 := by
  unfold shut; decide +kernel
/-- An orbit load and an orbit store that hold every condition complete; the store into an open window raises permission, its type apart. -/
theorem test_orbit_forms : ((cur (after (.vldOrb orbitStore 1) (orbital []))).stop.isNone ∧ (cur (after (.vldOrb orbitStore 1) (orbital []))).jobs.length = 1) ∧
    ((cur (after (.vstOrb orbitStore 1) (orbital []))).stop.isNone ∧ (cur (after (.vstOrb orbitStore 1) (orbital []))).jobs.length = 1) ∧
    (cur (after (.vstOrb { orbitStore with ty := .i32 } 1) (orbital [⟨2 ^ 18, 128, 90, 100, 0, 128, none, .cp, 1, 0⟩]))).stop.map Stop.code = some 8 ∧
    (cur (after (.vstOrb { orbitStore with ty := .i32 } 1) (orbital []))).stop.map Stop.code = some 0x0B := by decide +kernel

theorem wit_MemoryEvents_symmetric :
    (takeDueAll (lands (.memRead 0x1000 4 (.spadSy 64 none true .f32 0))) dom0 isMemSample).1 =
      [(0, flight 100 (.memRead 0x1000 4 (.spadSy 64 none true .f32 0)))] ∧ base.badMem.contains (0x1000 / 64) = false := by decide +kernel

-- Receive windows: a plain one, one that a beat overlaps in part, a local write that lands in one
theorem wit_BeatsAndReceiveWindows_plain : (win0 128 none).red = none ∧ (getCore (beating 1024 [win0 128 none]) 0).wrote = [] ∧
    (win0 128 none).count + (min (1024 + 128) (1024 + 256) - max 1024 1024) ≤ (win0 128 none).expect ∧
    (win0 192 (some .i32)).count + (min (1216 + 128) (1024 + 256) - max 1216 1024) ≤ (win0 192 (some .i32)).expect ∧
    (Ty.i32 ≠ .nf ∧ Ty.bits .i32 = 8 * Ty.size .i32 ∧ Ty.bits .f32 = 8 * Ty.size .f32) ∧ 1216 % Ty.size .i32 = 0 ∧
    (win0 0 none).addr % Ty.size .i32 = 0 ∧ (win0 0 none).len % Ty.size .i32 = 0 := by decide +kernel
def writing (a : Nat) : State := one { core0 with rwins := [⟨1024, 256, 95, 105, 0, 256, none, .cp, 1, 0⟩], inflight := [flight 100 (.spad a 8 255 7 none)] } dom0
theorem wit_BeatsAndReceiveWindows_local : (dueNow (writing 1279) 0).filter (windowHit (getCore (writing 1279) 0)) = [flight 100 (.spad 1279 8 255 7 none)] ∧
    (dueNow (writing 1280) 0).filter (windowHit (getCore (writing 1280) 0)) = [] ∧ (∀ f ∈ dueNow (writing 1279) 0, plainLanding f.eff = true) ∧
    (90 < 95 ∧ 95 ≤ 100 ∧ 100 ≤ 105 ∧ (255 : Nat).testBit 0 = true) ∧ liveIn (writing 1279) dom0 0 = true := by decide +kernel
theorem test_plain_window_counts : (getCore (after (.beatLanding 0) (beating 1216 [win0 64 none])) 0).rwins.map RWin.count = [128] ∧
    Memory.readNat (getCore (after (.beatLanding 0) (beating 1216 [win0 64 none])) 0).spad 1216 8 = 5 := by decide +kernel
theorem test_local_write_into_window : (getCore (after (.resultLanding 0) (writing 1279)) 0).stop.map (fun x => (x.code, x.cycle)) = some (8, 100) ∧
    (getCore (after (.resultLanding 0) (writing 1279)) 0).spad = [] := by decide +kernel

/-- A hold that began 1000 clocks ago counts the present one: its budget of 1000 is exceeded, one of 1001 is not. -/
def budgeted (n : Nat) : State :=
  { one core0 { dom0 with mould := [0x8000000000000000, 0x4000], status := .held, heldAt := 0, causes := [cause0] } with
    clock := 1000, mem := Memory.writeNat (Memory.writeNat [] 0x4008 8 (0xFFF * 2 ^ 36)) 0x4018 8 n }
theorem wit_HoldsAndStops_budget : (budgeted 1000).domains.map (fun d => (d.holdClocks + ((budgeted 1000).clock - d.heldAt + 1), d.status)) = [(1001, .held)] ∧
    (budgeted 1000).domains.map (fun d => holdClocksNow (budgeted 1000) d) = [1001] := by decide +kernel

def catching : State := { queued with domains := [{ dom0 with status := .catchUp, stopAt := some 100, schedStop := some (.checkpoint 0 100 0) }] }
theorem wit_Transfers_frozen : findDma catching 6 = some { dma0 true with started := false } ∧ findDom catching (getCore catching 0).pid = catching.domains.head? ∧
    catching.domains.map (fun d => (d.status, stopsDomain d)) = [(.catchUp, true)] ∧ (∀ y ∈ (getPkg catching 0).dma, ¬ (y.id < 6)) ∧ Sparse.wfFrom {} 0 catching.pkgs = true := by decide +kernel
theorem test_frozen_dma_dropped : (getPkg (after (.hostDmaStart 6) catching) 0).dma.map Dma.id = [7] := by decide +kernel
/-- An entry in flight names the range's old bytes, or bytes beside them. -/
theorem wit_Transfers_naming : namesBacking 0 { base := 0x1000, limit := 0x2000 } (flight 200 (.memWrite 0x1FC0 64 255 7 none)) = true ∧
    namesBacking 0 { base := 0x1000, limit := 0x2000 } (flight 200 (.memWrite 0x2000 64 255 7 none)) = false := by decide +kernel

theorem wit_MailboxCommands_thermal : (∃ x ∈ (getPkg (hot 100) 0).sensors, 99 < x.2) ∧ ¬ (∃ x ∈ (getPkg (hot 100) 0).sensors, 100 < x.2) ∧
    findDom (hot 100) dom0.pid = some dom0 ∧ 0 ∈ dom0.pkgs ∧ dom0.status = .run ∧ (getPkg (hot 100) 0).thermal = false := by decide +kernel
theorem wit_MailboxCommands_foreign : foreignAddr owners 0 0 (0x4000 % 2 ^ 39) = true ∧ foreignAddr owners 0 0 (0x9000 % 2 ^ 39) = false ∧
    ((getCore stopped0 0).repaired.count (0, 0, 0, 0) ≤ 1 ∧ ¬ ([(0, 0, 0, 0), (0, 0, 0, 0)].count ((0, 0, 0, 0) : Nat × Nat × Nat × Nat) ≤ 1)) := by decide +kernel

/-- The hub's MEAS15 event extended last, with the port's opening due; the next event another register's. -/
def opening : Pkg := { portDue := true, measQueue := [(15, [1])], hubReset := false }
theorem wit_ServiceEvents_port : opening.portDue = true ∧ opening.measQueue = (15, [1]) :: [] ∧ opening.measAt ≠ State.reset.clock + 1 ∧
    (2 : Nat) ≠ 15 ∧ (15 < 16 ∧ ¬ (16 < 16)) ∧ ({ unlocking := some [5] } : Pkg).unlocking ≠ none := by decide +kernel

end Sys2Proof.Tests
end

