-- ==== Sys2Proof/Proofs/ControlIdle.lean ====
section
/-! PROOF. What an idle command of the control core's map comes to (R98, R148): nothing, or the fault of a check of its issue. -/

namespace Sys2Proof.Proofs

open Sys2Proof Sys2Proof.Machine Sys2Proof.Claims Sys2Proof.Laws

/-- An outcome that leaves a state as it is, or takes a fault of an issue check in it. -/
def UnchangedOrFault (s : State) (o : Out) : Prop := o = .next s ∨ ∃ code, o = .next (faults s code 0 [])

theorem unchangedOrFault_same (s : State) : UnchangedOrFault s (.next s) := .inl rfl

theorem unchangedOrFault_fault (s : State) (code : Nat) : UnchangedOrFault s (.next (faultNow s code 0 [])) := .inr ⟨code, rfl⟩

/-- A command with checks whose effect is nothing. -/
theorem unchangedOrFault_checked {s : State} (l : List (Bool × Nat)) {f : State → State} (hf : f s = s) :
    UnchangedOrFault s (checked s l f) := by
  obtain ⟨t, ht, rfl | ⟨c, rfl⟩⟩ := checked_next s l f
  · exact .inl (ht.trans (congrArg _ hf))
  · exact .inr ⟨c, ht⟩

section
variable {s : State} (hidle : s.ctx.active = false)
include hidle

theorem unchangedOrFault_ccPost (n : Nat) (e : Effect) : UnchangedOrFault s (.next (ccPost s n e)) :=
  .inl (congrArg _ (ccPost_idle s n e hidle))

theorem unchangedOrFault_ccResult (n : Nat) (d : SReg) (v : Word) : UnchangedOrFault s (ccResult s n d v) :=
  .inl (ccResult_idle s n d v hidle)

/-- An idle device access checks the form of its address alone. -/
theorem unchangedOrFault_ccDevice (A kind perm : Nat) (f : Nat → State → State) :
    UnchangedOrFault s (ccDevice s A kind perm f) := by
  unfold ccDevice
  split
  · simpa [hidle] using unchangedOrFault_same s
  · exact unchangedOrFault_fault s _

theorem unchangedOrFault_execSysrd (d : SReg) (n : BitVec 12) : UnchangedOrFault s (execSysrd d n s) := by
  unfold execSysrd
  split
  · exact unchangedOrFault_ccResult hidle ..
  · exact unchangedOrFault_fault s _

theorem unchangedOrFault_execLcrd (d : SReg) (lc : BitVec 6) : UnchangedOrFault s (execLcrd d lc s) := by
  simpa [execLcrd, hidle] using unchangedOrFault_ccResult hidle ..

theorem unchangedOrFault_execLcwait (lc : BitVec 6) : UnchangedOrFault s (execLcwait lc s) := by
  simpa [execLcwait, hidle] using unchangedOrFault_same s

theorem unchangedOrFault_execFence (scope : BitVec 3) : UnchangedOrFault s (execFence scope s) :=
  unchangedOrFault_checked _ (by simp [hidle])

theorem unchangedOrFault_execTrap (n : BitVec 16) : UnchangedOrFault s (execTrap n s) := by
  simpa [execTrap, hidle] using unchangedOrFault_same s

theorem unchangedOrFault_execHalt : UnchangedOrFault s (execHalt s) := by
  simpa [execHalt, hidle] using unchangedOrFault_same s

theorem unchangedOrFault_execRinv (a : SReg) : UnchangedOrFault s (execRinv a s) := by
  simpa [execRinv, hidle] using unchangedOrFault_same s

/-- Every command of `idleClass`, by the shared operation that its meaning is. -/
theorem unchangedOrFault_exec (i : Instr) (hi : idleClass i = true) : UnchangedOrFault s (exec i s) := by
  cases i with
  | add | sub | mul | mulh | mulhn | div | divn | rem | remn | and | or | xor | shl | shr | sar | sel | min | max | minn | maxn
  | seq | sne | slt | sltn | addi | andi | ori | xori | shli | shri | sari | slti | lim | movi | dccrd | qprd =>
    exact unchangedOrFault_ccResult hidle ..
  | fqpush | lcset | arm | qpwr | watchAdd | watchClr => exact unchangedOrFault_ccPost hidle ..
  | lds | sts | patch | syswr | mpat | rload | rsplit | rmerge | yload => 
    exact unchangedOrFault_checked _ (ccPost_idle _ _ _ hidle)
  | aadd | acas | aswp | ldm | stm => exact unchangedOrFault_ccDevice hidle ..
  | sysrd => exact unchangedOrFault_execSysrd hidle ..
  | lcrd => exact unchangedOrFault_execLcrd hidle ..
  | lcwait => exact unchangedOrFault_execLcwait hidle ..
  | fence => exact unchangedOrFault_execFence hidle ..
  | trap => exact unchangedOrFault_execTrap hidle ..
  | halt => exact unchangedOrFault_execHalt hidle
  | rinv => exact unchangedOrFault_execRinv hidle ..
  | _ => contradiction

end

end Sys2Proof.Proofs
end

