-- ==== Sys2Proof/Proofs/WordArith.lean ====
section
/-! PROOF. The control core's word operations as exact integer arithmetic wrapped to 64 bits (R165 to R167). -/

namespace Sys2Proof.Proofs

open Sys2Proof Sys2Proof.Machine Sys2Proof.Claims Sys2Proof.Laws

-- Wrapping ---------------------------------------------------------------------------------------------------------------------

@[simp] theorem wrap64_toNat (v : Word) : wrap64 v.toNat = v := by simp [wrap64]

@[simp] theorem wrap64_toInt (v : Word) : wrap64 v.toInt = v := BitVec.ofInt_toInt

theorem wrap64_natCast (n : Nat) : wrap64 n = toWord n := BitVec.ofInt_natCast 64 n

theorem wrap64_add (x y : Int) : wrap64 (x + y) = wrap64 x + wrap64 y := BitVec.ofInt_add x y

theorem wrap64_mul (x y : Int) : wrap64 (x * y) = wrap64 x * wrap64 y := BitVec.ofInt_mul x y

theorem wrap64_sub (x y : Int) : wrap64 (x - y) = wrap64 x - wrap64 y := by
  rw [Int.sub_eq_add_neg, wrap64_add, BitVec.sub_eq_add_neg]
  exact congrArg _ BitVec.ofInt_neg

-- Sums, products and quotients ---------------------------------------------------------------------------------------------------

theorem mulHighN_eq_wrap64 (a b : Word) : mulHighN a b = wrap64 ((a.toNat : Int) * b.toNat / 2 ^ 64) :=
  (wrap64_natCast (a.toNat * b.toNat / 2 ^ 64)).symm

/-- A word is zero when its unsigned reading is (the test of R166). -/
theorem natCast_toNat_eq_zero_iff (b : Word) : (b.toNat : Int) = 0 ↔ b = 0 := by simp [BitVec.toNat_eq]

theorem divSigned_eq_wrap64 (a b : Word) :
    divSigned a b = wrap64 (if (b.toNat : Int) = 0 then -1 else a.toInt.tdiv b.toInt) := by
  simp only [divSigned, natCast_toNat_eq_zero_iff]
  split <;> rfl

theorem divUnsigned_eq_wrap64 (a b : Word) :
    divUnsigned a b = wrap64 (if (b.toNat : Int) = 0 then -1 else (a.toNat : Int) / b.toNat) := by
  simp only [divUnsigned, natCast_toNat_eq_zero_iff]
  split
  · rfl
  · exact (wrap64_natCast (a.toNat / b.toNat)).symm

theorem remSigned_eq_wrap64 (a b : Word) :
    remSigned a b = wrap64 (if (b.toNat : Int) = 0 then (a.toNat : Int) else a.toInt - b.toInt * a.toInt.tdiv b.toInt) := by
  simp only [remSigned, divSigned_eq_wrap64, natCast_toNat_eq_zero_iff]
  split <;> simp [wrap64_sub, wrap64_mul]

theorem remUnsigned_eq_wrap64 (a b : Word) :
    remUnsigned a b = wrap64 (if (b.toNat : Int) = 0 then (a.toNat : Int) else a.toNat - b.toNat * (a.toNat / b.toNat)) := by
  simp only [remUnsigned, divUnsigned_eq_wrap64, natCast_toNat_eq_zero_iff]
  split <;> simp [wrap64_sub, wrap64_mul]

-- Shifts ---------------------------------------------------------------------------------------------------------------------------

theorem shiftLeft_eq_wrap64 (a : Word) (n : Nat) : a <<< n = wrap64 (a.toNat * 2 ^ n) := by
  have h := wrap64_natCast (a.toNat * 2 ^ n)
  push_cast at h
  rw [h]
  exact BitVec.eq_of_toNat_eq (by simp [Nat.shiftLeft_eq])

theorem shiftRight_eq_wrap64 (a : Word) (n : Nat) : a >>> n = wrap64 (a.toNat / 2 ^ n) := by
  have h := wrap64_natCast (a.toNat / 2 ^ n)
  push_cast at h
  rw [h, ← Nat.shiftRight_eq_div_pow, ← BitVec.toNat_ushiftRight, toWord, BitVec.ofNat_toNat, BitVec.setWidth_eq]

theorem sshiftRight_eq_wrap64 (a : Word) (n : Nat) : a.sshiftRight n = wrap64 (a.toInt / 2 ^ n) := by
  rw [← wrap64_toInt (a.sshiftRight n), BitVec.toInt_sshiftRight, Int.shiftRight_eq_div_pow]
  push_cast
  rfl

-- Choices and tests ------------------------------------------------------------------------------------------------------------------

theorem select_eq_wrap64 (a b c : Word) :
    (if c = 0 then b else a) = wrap64 (if (c.toNat : Int) ≠ 0 then (a.toNat : Int) else b.toNat) := by
  simp only [ne_eq, natCast_toNat_eq_zero_iff, ite_not, apply_ite wrap64, wrap64_toNat]

/-- Of two words the one with the lower reading, whatever the reading is, and the one with the higher. -/
theorem ite_lt_eq_wrap64_min {a b : Word} {x y : Int} (ha : wrap64 x = a) (hb : wrap64 y = b) :
    (if x < y then a else b) = wrap64 (min x y) := by
  rcases lt_or_ge x y with h | h
  · rw [if_pos h, min_eq_left h.le, ha]
  · rw [if_neg h.not_gt, min_eq_right h, hb]

theorem ite_lt_eq_wrap64_max {a b : Word} {x y : Int} (ha : wrap64 x = a) (hb : wrap64 y = b) :
    (if x < y then b else a) = wrap64 (max x y) := by
  rcases lt_or_ge x y with h | h
  · rw [if_pos h, max_eq_right h.le, hb]
  · rw [if_neg h.not_gt, max_eq_left h, ha]

theorem minSigned_eq_wrap64 (a b : Word) : (if a.slt b then a else b) = wrap64 (min a.toInt b.toInt) := by
  simpa only [BitVec.slt_iff_toInt_lt] using ite_lt_eq_wrap64_min (wrap64_toInt a) (wrap64_toInt b)

theorem maxSigned_eq_wrap64 (a b : Word) : (if a.slt b then b else a) = wrap64 (max a.toInt b.toInt) := by
  simpa only [BitVec.slt_iff_toInt_lt] using ite_lt_eq_wrap64_max (wrap64_toInt a) (wrap64_toInt b)

theorem minUnsigned_eq_wrap64 (a b : Word) : (if a.ult b then a else b) = wrap64 (min (a.toNat : Int) b.toNat) := by
  simpa only [BitVec.ult_iff_lt, BitVec.lt_def, Nat.cast_lt] using ite_lt_eq_wrap64_min (wrap64_toNat a) (wrap64_toNat b)

theorem maxUnsigned_eq_wrap64 (a b : Word) : (if a.ult b then b else a) = wrap64 (max (a.toNat : Int) b.toNat) := by
  simpa only [BitVec.ult_iff_lt, BitVec.lt_def, Nat.cast_lt] using ite_lt_eq_wrap64_max (wrap64_toNat a) (wrap64_toNat b)

theorem truth_eq_wrap64 (p : Prop) [Decidable p] : truth (decide p) = wrap64 (if p then 1 else 0) := by
  by_cases h : p <;> simp [truth, wrap64, h]

theorem truth_beq_eq_wrap64 (a b : Word) : truth (a == b) = wrap64 (if (a.toNat : Int) = b.toNat then 1 else 0) := by
  have h : (a == b) = decide ((a.toNat : Int) = b.toNat) := by
    rw [Bool.eq_iff_iff]
    simp [BitVec.toNat_eq]
  rw [h, truth_eq_wrap64]

theorem truth_bne_eq_wrap64 (a b : Word) : truth (a != b) = wrap64 (if (a.toNat : Int) = b.toNat then 0 else 1) := by
  have h : (a != b) = decide (¬ (a.toNat : Int) = b.toNat) := by
    rw [Bool.eq_iff_iff]
    simp [BitVec.toNat_eq]
  rw [h, truth_eq_wrap64, ite_not]

theorem truth_slt_eq_wrap64 (a b : Word) : truth (a.slt b) = wrap64 (if a.toInt < b.toInt then 1 else 0) := truth_eq_wrap64 _

theorem truth_ult_eq_wrap64 (a b : Word) : truth (a.ult b) = wrap64 (if (a.toNat : Int) < b.toNat then 1 else 0) := by
  simpa only [BitVec.ult_eq_decide, Nat.cast_lt] using truth_eq_wrap64 (a.toNat < b.toNat)

-- Immediates ---------------------------------------------------------------------------------------------------------------------------

theorem signedImm_eq_wrap64 (imm : BitVec 28) : signedImm imm = wrap64 imm.toInt := rfl

theorem toInt_signedImm (imm : BitVec 28) : (signedImm imm).toInt = imm.toInt :=
  BitVec.toInt_signExtend_of_le (by decide)

theorem unsignedImm_eq_wrap64 (imm : BitVec 28) : unsignedImm imm = wrap64 imm.toNat := by
  rw [wrap64_natCast, toWord, BitVec.ofNat_toNat, unsignedImm]

theorem getLsbD_unsignedImm (imm : BitVec 28) (i : Nat) : (unsignedImm imm).getLsbD i = imm.getLsbD i := by
  rw [unsignedImm, BitVec.getLsbD_setWidth]
  by_cases h : i < 64
  · simp [h]
  · simp [h, BitVec.getLsbD_of_ge imm i (by omega)]

/-- LIM puts the immediate where the shift has left zeros (R167), so nothing is carried. -/
theorem shiftLeft_or_unsignedImm (a : Word) (imm : BitVec 28) :
    a <<< 28 ||| unsignedImm imm = wrap64 (a.toNat * 2 ^ 28 + imm.toNat) := by
  have h : a <<< 28 &&& unsignedImm imm = 0 := by
    apply BitVec.eq_of_getLsbD_eq
    intro i hi
    by_cases h : i < 28
    · simp [h]
    · simp [getLsbD_unsignedImm, BitVec.getLsbD_of_ge imm i (by omega)]
  rw [← BitVec.add_eq_or_of_and_eq_zero _ _ h, wrap64_add, shiftLeft_eq_wrap64, unsignedImm_eq_wrap64]

end Sys2Proof.Proofs
end

