-- ==== Sys2Proof/Proofs/ScalarArithmetic.lean ====
section
/-! PROOF. The scalar arithmetic of the control core (R164 to R167): each result posted is the exact one, wrapped. -/

namespace Sys2Proof.Proofs

open Sys2Proof Sys2Proof.Machine Sys2Proof.Claims Sys2Proof.Laws

section
variable {s : State} (hactive : s.ctx.active = true)
include hactive

/-- An active command's register result is the entry of the value that it is shown to have. -/
theorem ccResult_posts (n : Nat) (d : SReg) {v w : Word} (h : v = w) :
    ccResult s n d v = .next (posts s n ccSt (.sreg d w)) :=
  h ▸ ccResult_active s n d v hactive

/-- The same for a bitwise result, given by its bits. -/
theorem ccResult_posts_bits (n : Nat) (d : SReg) (v : Word) {p : Nat → Bool} (h : ∀ i, v.getLsbD i = p i) :
    ∃ w, ccResult s n d v = .next (posts s n ccSt (.sreg d w)) ∧ ∀ i, w.getLsbD i = p i :=
  ⟨v, ccResult_posts hactive n d rfl, h⟩

end

/-- Settles O10: an idle command by the shared operation that it is, an active one by the exact value of its result. -/
theorem scalarArithmetic : Obligations.ScalarArithmetic := by
  intro s d a b c imm n
  refine ⟨fun i hi hidle => unchangedOrFault_exec hidle i hi, fun hactive => ?_⟩
  have gives (k : Nat) {v w : Word} (h : v = w) := ccResult_posts hactive k d h
  refine ⟨gives 1 ?add, gives 1 ?sub, gives 3 ?mul, gives 3 ?mulh, gives 3 (mulHighN_eq_wrap64 ..), gives 12 (divSigned_eq_wrap64 ..),
    gives 12 (divUnsigned_eq_wrap64 ..), gives 12 (remSigned_eq_wrap64 ..), gives 12 (remUnsigned_eq_wrap64 ..),
    gives 1 (shiftLeft_eq_wrap64 ..), gives 1 (shiftRight_eq_wrap64 ..), gives 1 (sshiftRight_eq_wrap64 ..),
    gives 1 (select_eq_wrap64 ..), gives 1 (minSigned_eq_wrap64 ..), gives 1 (maxSigned_eq_wrap64 ..),
    gives 1 (minUnsigned_eq_wrap64 ..), gives 1 (maxUnsigned_eq_wrap64 ..), gives 1 (truth_beq_eq_wrap64 ..),
    gives 1 (truth_bne_eq_wrap64 ..), gives 1 (truth_slt_eq_wrap64 ..), gives 1 (truth_ult_eq_wrap64 ..),
    ccResult_posts_bits hactive 1 d _ ?and, ccResult_posts_bits hactive 1 d _ ?or, ccResult_posts_bits hactive 1 d _ ?xor,
    gives 1 ?addi, gives 1 (shiftLeft_eq_wrap64 ..), gives 1 (shiftRight_eq_wrap64 ..), gives 1 (sshiftRight_eq_wrap64 ..),
    gives 1 ?slti, gives 1 (shiftLeft_or_unsignedImm ..), gives 1 (signedImm_eq_wrap64 imm),
    ccResult_posts_bits hactive 1 d _ ?andi, ccResult_posts_bits hactive 1 d _ ?ori, ccResult_posts_bits hactive 1 d _ ?xori⟩
  case add => rw [wrap64_add, wrap64_toNat, wrap64_toNat]
  case sub => rw [wrap64_sub, wrap64_toNat, wrap64_toNat]
  case mul => rw [wrap64_mul, wrap64_toNat, wrap64_toNat]
  case mulh => rfl
  case addi => rw [wrap64_add, wrap64_toNat, signedImm_eq_wrap64]
  case slti => rw [truth_slt_eq_wrap64, toInt_signedImm]
  case and => exact fun i => BitVec.getLsbD_and
  case or => exact fun i => BitVec.getLsbD_or
  case xor => exact fun i => BitVec.getLsbD_xor
  case andi => exact fun i => by rw [BitVec.getLsbD_and, getLsbD_unsignedImm]
  case ori => exact fun i => by rw [BitVec.getLsbD_or, getLsbD_unsignedImm]
  case xori => exact fun i => by rw [BitVec.getLsbD_xor, getLsbD_unsignedImm]

end Sys2Proof.Proofs
end

