-- ==== Sys2Proof/Proofs/ScratchpadWords.lean ====
section
/-! PROOF. LDS, STS and PATCH (R168, R175): the address form, the checks at issue, and the bytes that an LDS samples. -/

namespace Sys2Proof.Proofs

open Sys2Proof Sys2Proof.Machine Sys2Proof.Claims Sys2Proof.Laws

-- Words of memory ----------------------------------------------------------------------------------------------------------------

/-- A run of bytes read as a little-endian number has the bits of its bytes in their places (R2). -/
theorem testBit_readNat (m : Memory) (n : Nat) : ∀ (a i j : Nat), i < n → j < 8 →
    (Memory.readNat m a n).testBit (8 * i + j) = (Memory.read m (a + i)).getLsbD j := by
  induction n with
  | zero => intro a i j hi; omega
  | succ n ih =>
    intro a i j hi hj
    have hsplit : Memory.readNat m a (n + 1) = 2 ^ 8 * Memory.readNat m (a + 1) n + (Memory.read m a).toNat := by
      exact Nat.add_comm _ _
    rw [hsplit, Nat.testBit_two_pow_mul_add _ (Memory.read m a).isLt]
    cases i with
    | zero => simp [hj, BitVec.testBit_toNat]
    | succ i =>
      rw [if_neg (by omega), show 8 * (i + 1) + j - 8 = 8 * i + j by omega, ih (a + 1) i j (by omega) hj,
        Nat.add_right_comm a 1 i, Nat.add_assoc]

theorem getLsbD_word (m : Memory) (a i j : Nat) (hi : i < 8) (hj : j < 8) :
    (Memory.word m a).getLsbD (8 * i + j) = (Memory.read m (a + i)).getLsbD j := by
  rw [Memory.word, toWord, BitVec.getLsbD_ofNat, testBit_readNat m 8 a i j hi hj, decide_eq_true (by omega), Bool.true_and]

-- Addresses and windows ----------------------------------------------------------------------------------------------------------

theorem memAddr_eq (s : State) (a : SReg) (imm : BitVec 28) :
    memAddr s a imm = ((((rd s a).toNat : Int) + imm.toInt) % 2 ^ 64).toNat := by
  rw [memAddr, signedImm_eq_wrap64, ← wrap64_toNat (rd s a), ← wrap64_add, wrap64_toNat]
  exact BitVec.toNat_ofInt _

theorem spadWordOk_iff (x n : Nat) : spadWordOk x n = true ↔ x < 2 ^ 21 ∧ x / 2 ^ 18 % 8 < 6 ∧ x % n = 0 := by
  simp only [spadWordOk, Bool.and_eq_true, decide_eq_true_eq, beq_iff_eq, and_assoc]
  exact Iff.rfl

theorem inOpenWindow_iff_shut (s : State) (x n : Nat) : inOpenWindow (cur s) x n (cur s).dcc = true ↔ shut s x n := by
  simp only [inOpenWindow, shut, runsMeet, List.any_eq_true, Bool.and_eq_true, decide_eq_true_eq]
  constructor
  · rintro ⟨w, hw, ⟨hopens, hcloses⟩, ⟨⟨hlo, hhi⟩, hn⟩, hlen⟩
    exact ⟨w, hw, hopens, hcloses, hlen, hn, hlo, hhi⟩
  · rintro ⟨w, hw, hopens, hcloses, hlen, hn, hlo, hhi⟩
    exact ⟨w, hw, ⟨hopens, hcloses⟩, ⟨⟨hlo, hhi⟩, hn⟩, hlen⟩

theorem windowFree_iff (s : State) (x : Nat) : windowFree s x = true ↔ ¬ shut s x 8 := by
  rw [windowFree, Bool.not_eq_true', ← inOpenWindow_iff_shut, Bool.not_eq_true]

/-- The condition on the address of a STS (R168). -/
theorem stsCheck_iff (s : State) (x : Nat) : (spadWordOk x 8 && !inRings (cur s) x && windowFree s x) = true ↔
    (x < 2 ^ 21 ∧ x / 2 ^ 18 % 8 < 6 ∧ x % 8 = 0) ∧ inRings (cur s) x = false ∧ ¬ shut s x 8 := by
  rw [Bool.and_eq_true, Bool.and_eq_true, spadWordOk_iff, Bool.not_eq_true', windowFree_iff, and_assoc]

/-- The condition on the address of a PATCH (R175). -/
theorem patchCheck_iff (s : State) (x : Nat) : (spadWordOk x 8 && inRings (cur s) x && windowFree s x) = true ↔
    (x < 2 ^ 21 ∧ x / 2 ^ 18 % 8 < 6 ∧ x % 8 = 0) ∧ inRings (cur s) x = true ∧ ¬ shut s x 8 := by
  rw [Bool.and_eq_true, Bool.and_eq_true, spadWordOk_iff, windowFree_iff, and_assoc]

-- Commands with one check --------------------------------------------------------------------------------------------------------

/-- An active command with one check posts its entry where the check's condition holds. -/
theorem checked_posts {s : State} {b : Bool} {p : Prop} (hactive : s.ctx.active = true) (hb : b = true ↔ p) (code n : Nat)
    (e : State → Effect) (hp : p) : checked s [(b, code)] (fun t => ccPost t n (e t)) = .next (posts s n ccSt (e s)) := by
  rw [checked_ok s _ _ (by simpa using hb.2 hp), ccPost_active s n (e s) hactive]
  rfl

/-- It takes the check's fault where the condition fails. -/
theorem checked_faults {s : State} {b : Bool} {p : Prop} (hb : b = true ↔ p) (code : Nat) (f : State → State) (hp : ¬ p) :
    checked s [(b, code)] f = .next (faults s code 0 []) := by
  obtain rfl : b = false := Bool.eq_false_iff.2 (mt hb.1 hp)
  exact checked_fails s [] [] code f (by simp)

theorem sampleLocal_lds (s : State) (k : Nat) (f : Flight) {r : SReg} {x : Nat} (h : f.eff = .lds r x) :
    sampleLocal s k f = addFlight s k { f with at' := f.at' + 1, eff := .sreg r (Memory.word (getCore s k).spad x) } := by
  simp only [sampleLocal, h]

/-- Settles O13: each command has one check, which is the condition stated; an LDS samples a little-endian word. -/
theorem scratchpadWordCommands : Obligations.ScratchpadWordCommands := by
  intro s d a imm hactive
  rw [← memAddr_eq]
  refine ⟨?lds, ?ldsFault, ?sts, ?stsFault, ?patch, ?patchFault, ?sample⟩
  case lds => exact checked_posts hactive (spadWordOk_iff _ 8) _ 7 (fun _ => .lds d (memAddr s a imm))
  case ldsFault => exact checked_faults (spadWordOk_iff _ 8) _ _
  case sts => exact checked_posts hactive (stsCheck_iff s _) _ 8 (fun t => .spad (memAddr s a imm) 8 255 (rdN t d) none)
  case stsFault => exact checked_faults (stsCheck_iff s _) _ _
  case patch => exact checked_posts hactive (patchCheck_iff s _) _ 8 (fun t => .spad (rdN s d) 8 255 (rdN t a) none)
  case patchFault => exact checked_faults (patchCheck_iff s _) _ _
  case sample => exact fun k f r x _ hf => ⟨_, sampleLocal_lds s k f hf, fun i hi j hj => getLsbD_word _ x i j hi hj⟩

end Sys2Proof.Proofs
end

