-- ==== Sys2Proof/Proofs/VectorChecks.lean ====
section
/-! PROOF. The issue checks of a vector command in the order of R223, as the model runs them and as they are stated; the predicate that
it samples (R220) and the format word that it reads (R219). -/

namespace Sys2Proof.Proofs

open Sys2Proof Sys2Proof.Machine Sys2Proof.Claims Sys2Proof.Laws

-- Checks ---------------------------------------------------------------------------------------------------------------------------

/-- A check that the model runs decides a condition, with the same fault. -/
def Decides (x : Bool × Nat) (c : Prop × Nat) : Prop := (x.1 = true ↔ c.1) ∧ x.2 = c.2

theorem Decides.of_iff {b : Bool} {p : Prop} {code : Nat} (h : b = true ↔ p) : Decides (b, code) (p, code) := ⟨h, rfl⟩

theorem firstFault_of_all_hold {l : List (Bool × Nat)} {checks : List (Prop × Nat)} (h : List.Forall₂ Decides l checks)
    (hall : ∀ x ∈ checks, x.1) : firstFault l = none := by
  induction h with
  | nil => rfl
  | cons hx _ ih =>
    obtain ⟨hhead, htail⟩ := List.forall_mem_cons.1 hall
    simp [firstFault, hx.1.2 hhead, ih htail]

theorem firstFault_of_first_fails {before after : List (Prop × Nat)} {p : Prop} {code : Nat} (hbefore : ∀ x ∈ before, x.1) (hp : ¬ p) :
    ∀ {l : List (Bool × Nat)}, List.Forall₂ Decides l (before ++ (p, code) :: after) → firstFault l = some code := by
  induction before with
  | nil =>
    rintro _ (_ | @⟨⟨b, c⟩, _, _, _, ⟨hb, rfl⟩, _⟩)
    obtain rfl : b = false := Bool.eq_false_iff.2 (mt hb.1 hp)
    rfl
  | cons y before ih =>
    rintro _ (_ | ⟨hx, hrest⟩)
    obtain ⟨hhead, htail⟩ := List.forall_mem_cons.1 hbefore
    simp [firstFault, hx.1.2 hhead, ih htail hrest]

/-- A command whose checks decide the stated conditions takes the fault of the first that does not hold, and else has its effect. -/
theorem unlessFault_of_checked {s : State} {i : Instr} {run l : List (Bool × Nat)} {checks : List (Prop × Nat)} {f : State → State}
    {q : Prop} (hexec : exec i s = checked s run f) (hrun : firstFault run = firstFault l) (hl : List.Forall₂ Decides l checks)
    (hq : (∀ x ∈ checks, x.1) → exec i s = .next (f s) → q) : unlessFault s i checks q := by
  constructor
  · rintro before after p code rfl hbefore hp
    rw [hexec, checked, hrun, firstFault_of_first_fails hbefore hp hl]
    rfl
  · intro hall
    refine hq hall ?_
    rw [hexec, checked, hrun, firstFault_of_all_hold hl hall]

-- Predicates -----------------------------------------------------------------------------------------------------------------------

theorem lanes_pos (t : Ty) : 0 < Ty.lanes t := by cases t <;> decide

theorem widCode_eq_iff (w : BitVec 2) (t : Ty) : w = widCode t ↔ 8 * 2 ^ w.toNat = Ty.bits t := by
  revert w
  cases t <;> decide

/-- The predicate as the model samples it, from what it is at each element (R220). -/
theorem predOf_eq (c : CoreState) (p : Prd) (t : Ty) :
    predOf c p t = (predicateOf c p t).map (fun x => ⟨x.1, (List.range (x.1 * Ty.lanes t)).map x.2⟩) := by
  cases p with
  | mask m => simp [predOf, predicateOf, getMask]
  | all => simp [predOf, predicateOf, List.map_const']
  | count k =>
    simp only [predOf, predicateOf, widCode_eq_iff]
    split <;> rfl

theorem groupOf_eq {s : State} {p : Prd} {t : Ty} {x : Nat × (Nat → Bool)} (h : predicateOf (cur s) p t = some x) :
    groupOf s p t = x.1 := by
  rw [groupOf, h]

theorem activeAt_eq {s : State} {p : Prd} {t : Ty} {x : Nat × (Nat → Bool)} (h : predicateOf (cur s) p t = some x) :
    activeAt s p t = fun e => s.ctx.active && x.2 e := by
  funext e
  rw [activeAt, h]

/-- The sampled predicate of a command whose predicate check holds: an idle one has no active element (R98). -/
theorem predNow_eq {s : State} {p : Prd} {t : Ty} (h : (predicateOf (cur s) p t).isSome = true) :
    predNow s p t = ⟨groupOf s p t, (List.range (groupOf s p t * Ty.lanes t)).map (activeAt s p t)⟩ := by
  obtain ⟨x, hx⟩ := Option.isSome_iff_exists.1 h
  rw [predNow, predOf_eq, hx, groupOf_eq hx, activeAt_eq hx]
  cases hactive : s.ctx.active <;> simp [VPred.under]

/-- The checks of the predicate, none of which depends on another's outcome (R220, R222). -/
theorem firstFault_predChecks (s : State) (p : Prd) (t : Ty) (many : Bool) (rows : List Nat) (before after : List (Bool × Nat)) :
    firstFault (before ++ predChecks (cur s) p t many rows ++ after) =
      firstFault (before ++ [((predicateOf (cur s) p t).isSome, fEncoding), (many || groupOf s p t == 1, fEncoding),
        (rows.all (fun r => r + groupOf s p t ≤ 512), fEncoding)] ++ after) := by
  cases hx : predicateOf (cur s) p t with
  | none => simp [predChecks, predOf_eq, hx, firstFault_append, firstFault]
  | some x => simp [predChecks, predOf_eq, hx, groupOf_eq hx, firstFault_append, firstFault]

-- Format words -----------------------------------------------------------------------------------------------------------------------

@[simp] theorem headWord_cur (s : State) : headWord (cur s) = ((cur s).fq.headD 0).toNat := by
  rw [headWord]
  cases (cur s).fq <;> rfl

@[simp] theorem descA_cur (s : State) : descA (cur s) = formatA s := by rw [descA, headWord_cur, formatA]

@[simp] theorem descB_cur (s : State) : descB (cur s) = formatB s := by rw [descB, headWord_cur, formatB]

/-- The checks that vector commands share, in their order, before a command's own (R223). -/
theorem decides_vectorChecks {s : State} (fmt many : Bool) (p : Prd) (t : Ty) (rows : List VReg) {ownRun : List (Bool × Nat)}
    {own : List (Prop × Nat)} (hown : List.Forall₂ Decides ownRun own) :
    List.Forall₂ Decides (fmtChecks (cur s) fmt ++ [((predicateOf (cur s) p t).isSome, fEncoding), (many || groupOf s p t == 1, fEncoding),
      ((rows.map BitVec.toNat).all (fun r => r + groupOf s p t ≤ 512), fEncoding)] ++ ownRun) (vectorChecks s fmt many p t rows own) := by
  refine .cons (.of_iff ?queued) (.cons (.of_iff ?valid) (.cons (.of_iff .rfl) (.cons (.of_iff ?group) (.cons (.of_iff ?rows) hown))))
  case queued => cases fmt <;> simp
  case valid => cases fmt <;> simp
  case group => simp
  case rows => simp

end Sys2Proof.Proofs
end

