-- ==== Sys2Proof/Proofs/LaneResults.lean ====
section
/-! PROOF. The results of vector commands as lists of effects: what the packed rows of a group put into each lane (R218, R221), and the
flags that go with them (R224). -/

namespace Sys2Proof.Proofs

open Sys2Proof Sys2Proof.Machine Sys2Proof.Claims Sys2Proof.Laws

-- Packed lanes -----------------------------------------------------------------------------------------------------------------------

theorem packLanes_lt (w : Nat) (l : List Nat) : packLanes w l < 2 ^ (w * l.length) := by
  induction l with
  | nil => exact Nat.one_pos
  | cons v r ih =>
    rw [packLanes, List.length_cons, Nat.mul_succ, Nat.add_comm (w * r.length), Nat.pow_add]
    calc v % 2 ^ w + 2 ^ w * packLanes w r < 2 ^ w + 2 ^ w * packLanes w r := by
          exact Nat.add_lt_add_right (Nat.mod_lt _ (Nat.two_pow_pos w)) _
      _ = 2 ^ w * (packLanes w r + 1) := by ring
      _ ≤ 2 ^ w * 2 ^ (w * r.length) := Nat.mul_le_mul_left _ ih

/-- A lane is cut out of the packed number as it was put in. -/
theorem packLanes_lane (w : Nat) : ∀ (l : List Nat) (j : Nat), packLanes w l / 2 ^ (w * j) % 2 ^ w = l[j]?.getD 0 % 2 ^ w
  | [], j => by simp [packLanes]
  | v :: r, 0 => by simp [packLanes]
  | v :: r, j + 1 => by
    rw [packLanes, Nat.mul_succ, Nat.add_comm (w * j), Nat.pow_add, ← Nat.div_div_eq_div_mul,
      Nat.add_mul_div_left _ _ (Nat.two_pow_pos w), Nat.div_eq_of_lt (Nat.mod_lt _ (Nat.two_pow_pos w)), Nat.zero_add,
      packLanes_lane w r j, List.getElem?_cons_succ]

/-- Byte enables are packed as lanes are, a written lane as all ones. -/
theorem laneEnables_eq_packLanes (n : Nat) (l : List (Option Nat)) :
    laneEnables n l = packLanes n (l.map (fun v => if v.isSome then 2 ^ n - 1 else 0)) := by
  induction l with
  | nil => rfl
  | cons v r ih =>
    have hmod : (if v.isSome then 2 ^ n - 1 else 0) % 2 ^ n = if v.isSome then 2 ^ n - 1 else 0 :=
      Nat.mod_eq_of_lt (by have := Nat.two_pow_pos n; split <;> omega)
    rw [laneEnables, List.map_cons, packLanes, hmod, ih]

theorem laneEnables_lane (n : Nat) (l : List (Option Nat)) (j : Nat) :
    laneEnables n l / 2 ^ (n * j) % 2 ^ n = if (l[j]?.getD none).isSome then 2 ^ n - 1 else 0 := by
  have hlt : 2 ^ n - 1 < 2 ^ n := Nat.sub_lt (Nat.two_pow_pos n) Nat.one_pos
  rw [laneEnables_eq_packLanes, packLanes_lane, List.getElem?_map]
  obtain _ | _ | v := l[j]?
  · rfl
  · rfl
  · exact Nat.mod_eq_of_lt hlt

theorem bits_mul_lanes (t : Ty) : Ty.bits t * Ty.lanes t = 1024 := by cases t <;> rfl
theorem size_mul_lanes (t : Ty) : Ty.size t * Ty.lanes t = 128 := by cases t <;> rfl
theorem size_pos (t : Ty) : 0 < Ty.size t := by cases t <;> decide

-- Rows and groups ----------------------------------------------------------------------------------------------------------------------

/-- The entry of a row whose lanes with a value are written; none where no lane has one. -/
def rowEffects (t : Ty) (r : Nat) (vals : List (Option Nat)) : List Effect :=
  if vals.any Option.isSome then
    [.row r (BitVec.ofNat 128 (laneEnables (Ty.size t) vals))
      (BitVec.ofNat 1024 (packLanes (Ty.bits t) (vals.map (fun v => v.getD 0)))) .plain]
  else []

/-- The entries of the rows of a group, from row `r` on. -/
def groupEffects (t : Ty) : List (Option Nat) → Nat → Nat → List Effect
  | _, _, 0 => []
  | vals, r, g + 1 => rowEffects t r (vals.take (Ty.lanes t)) ++ groupEffects t (vals.drop (Ty.lanes t)) (r + 1) g

/-- The entry of the flags of a result; none where it raises none. -/
def flagEffects (v : Flags) : List Effect := if v = 0 then [] else [.flags .ve v]

/-- What an effect puts into lane `j` of row `r`, as `lanePuts` reads it. -/
def lanePut (t : Ty) (r j : Nat) : Effect → Option (Nat × Nat)
  | .row q en v _ =>
    let m := en.toNat / 2 ^ (Ty.size t * j) % 2 ^ Ty.size t
    if q = r ∧ m ≠ 0 then some (m, v.toNat / 2 ^ (Ty.bits t * j) % 2 ^ Ty.bits t) else none
  | _ => none

/-- The whole of a lane that has a value. -/
def wholeLane (t : Ty) : Option Nat → List (Nat × Nat)
  | some v => [(2 ^ Ty.size t - 1, v % 2 ^ Ty.bits t)]
  | none => []

theorem mem_rowEffects {t : Ty} {r : Nat} {vals : List (Option Nat)} {x : Effect} (h : x ∈ rowEffects t r vals) :
    ∃ en v, x = .row r en v .plain := by
  unfold rowEffects at h
  split at h
  · exact ⟨_, _, List.mem_singleton.1 h⟩
  · exact absurd h List.not_mem_nil

theorem mem_groupEffects {t : Ty} {x : Effect} : ∀ {g r : Nat} {vals : List (Option Nat)}, x ∈ groupEffects t vals r g →
    ∃ q en v, x = .row q en v .plain ∧ r ≤ q ∧ q < r + g
  | g + 1, r, vals, h => by
    obtain h | h := List.mem_append.1 h
    · obtain ⟨en, v, rfl⟩ := mem_rowEffects h
      exact ⟨r, en, v, rfl, by omega⟩
    · obtain ⟨q, en, v, rfl, hlo, hhi⟩ := mem_groupEffects h
      exact ⟨q, en, v, rfl, by omega⟩

theorem lanePut_row_ne {t : Ty} {q r : Nat} (h : q ≠ r) (j : Nat) (en : BitVec 128) (v : Row) (ev : TagEvent) :
    lanePut t r j (.row q en v ev) = none := if_neg fun hq => h hq.1

theorem lanePut_rowEffects_ne {t : Ty} {q r : Nat} (h : q ≠ r) (j : Nat) (vals : List (Option Nat)) :
    (rowEffects t q vals).filterMap (lanePut t r j) = [] := by
  refine List.filterMap_eq_nil_iff.2 fun x hx => ?_
  obtain ⟨en, v, rfl⟩ := mem_rowEffects hx
  exact lanePut_row_ne h j en v .plain

theorem lanePut_groupEffects_below {t : Ty} {q r : Nat} (h : r < q) (j g : Nat) (vals : List (Option Nat)) :
    (groupEffects t vals q g).filterMap (lanePut t r j) = [] := by
  refine List.filterMap_eq_nil_iff.2 fun x hx => ?_
  obtain ⟨p, en, v, rfl, hlo, -⟩ := mem_groupEffects hx
  exact lanePut_row_ne (by omega) j en v .plain

theorem toNat_laneEnables {t : Ty} {vals : List (Option Nat)} (hlen : vals.length ≤ Ty.lanes t) :
    (BitVec.ofNat 128 (laneEnables (Ty.size t) vals)).toNat = laneEnables (Ty.size t) vals := by
  have hwidth : Ty.size t * vals.length ≤ 128 := (Nat.mul_le_mul_left _ hlen).trans (size_mul_lanes t).le
  rw [laneEnables_eq_packLanes, BitVec.toNat_ofNat]
  exact Nat.mod_eq_of_lt ((packLanes_lt _ _).trans_le (Nat.pow_le_pow_right Nat.two_pos (by rwa [List.length_map])))

theorem toNat_packLanes {t : Ty} {vals : List Nat} (hlen : vals.length ≤ Ty.lanes t) :
    (BitVec.ofNat 1024 (packLanes (Ty.bits t) vals)).toNat = packLanes (Ty.bits t) vals := by
  have hwidth : Ty.bits t * vals.length ≤ 1024 := (Nat.mul_le_mul_left _ hlen).trans (bits_mul_lanes t).le
  have hbound := Nat.pow_le_pow_right Nat.two_pos hwidth
  rw [BitVec.toNat_ofNat]
  exact Nat.mod_eq_of_lt ((packLanes_lt _ _).trans_le hbound)

/-- A row's entry puts each lane's own value into it, whole, and leaves the lanes without one. -/
theorem lanePut_rowEffects {t : Ty} {vals : List (Option Nat)} (hlen : vals.length ≤ Ty.lanes t) (r j : Nat) :
    (rowEffects t r vals).filterMap (lanePut t r j) = wholeLane t (vals[j]?.getD none) := by
  have hones : 2 ^ Ty.size t - 1 ≠ 0 := by
    have := Nat.one_lt_two_pow (size_pos t).ne'
    omega
  have hput : lanePut t r j (.row r (BitVec.ofNat 128 (laneEnables (Ty.size t) vals))
      (BitVec.ofNat 1024 (packLanes (Ty.bits t) (vals.map (fun v => v.getD 0)))) .plain) =
      (vals[j]?.getD none).map (fun v => (2 ^ Ty.size t - 1, v % 2 ^ Ty.bits t)) := by
    rw [lanePut, toNat_laneEnables hlen, toNat_packLanes (by rwa [List.length_map]), laneEnables_lane, packLanes_lane, List.getElem?_map]
    obtain _ | _ | v := vals[j]?
    · simp
    · simp
    · simp [hones]
  unfold rowEffects
  split
  case isTrue =>
    rw [List.filterMap_cons, hput]
    obtain _ | v := vals[j]?.getD none <;> rfl
  case isFalse hany =>
    rcases hlane : vals[j]? with _ | _ | v
    · rfl
    · rfl
    · exact absurd (List.any_eq_true.2 ⟨some v, List.mem_of_getElem? hlane, rfl⟩) hany

/-- The entries of a group put each element's own value into its lane. -/
theorem lanePut_groupEffects (t : Ty) : ∀ (g r e : Nat) (vals : List (Option Nat)), e < g * Ty.lanes t →
    (groupEffects t vals r g).filterMap (lanePut t (r + e / Ty.lanes t) (e % Ty.lanes t)) = wholeLane t (vals[e]?.getD none)
  | 0, _, _, _, h => by omega
  | g + 1, r, e, vals, h => by
    have hpos := lanes_pos t
    rw [groupEffects, List.filterMap_append]
    rcases Nat.lt_or_ge e (Ty.lanes t) with he | he
    · rw [Nat.div_eq_of_lt he, Nat.mod_eq_of_lt he, Nat.add_zero, lanePut_groupEffects_below (Nat.lt_succ_self r), List.append_nil,
        lanePut_rowEffects (List.length_take_le _ _), List.getElem?_take_of_lt he]
    · obtain ⟨d, rfl⟩ := Nat.exists_eq_add_of_le he
      have hrow : r ≠ r + (d / Ty.lanes t).succ := (Nat.lt_add_of_pos_right (Nat.succ_pos _)).ne
      rw [Nat.add_div_left d hpos, Nat.add_mod_left, lanePut_rowEffects_ne hrow, List.nil_append,
        Nat.add_succ, ← Nat.succ_add,
        lanePut_groupEffects t g (r + 1) d _ (by rw [Nat.add_one_mul] at h; omega), List.getElem?_drop]

-- Effects put in flight ------------------------------------------------------------------------------------------------------------------

/-- The executing command puts effects in flight, in order, all due `delay` cycles on. -/
def putEffects (s : State) (delay : Nat) (l : List Effect) : State := putAll s (l.map (flightOf s delay veSt))

theorem flightOf_addFlight (s : State) (f : Flight) : flightOf (addFlight s s.ctx.core f) = flightOf s := by
  funext delay station e
  simp [flightOf, cur]

theorem putEffects_cons (s : State) (delay : Nat) (e : Effect) (l : List Effect) :
    putEffects s delay (e :: l) = putEffects (vePost s delay e) delay l := by
  rw [putEffects, putEffects, vePost, flightOf_addFlight]
  rfl

theorem putEffects_append (s : State) (delay : Nat) (l l' : List Effect) :
    putEffects s delay (l ++ l') = putEffects (putEffects s delay l) delay l' := by
  induction l generalizing s with
  | nil => rfl
  | cons e l ih => rw [List.cons_append, putEffects_cons, putEffects_cons, ih]

theorem postRow_eq (s : State) (delay r : Nat) (t : Ty) (vals : List (Option Nat)) :
    postRow s delay r t vals = putEffects s delay (rowEffects t r vals) := by
  unfold postRow rowEffects
  split <;> rfl

theorem postRows_eq (t : Ty) (delay : Nat) : ∀ (g r : Nat) (s : State) (vals : List (Option Nat)),
    postRows s delay t vals r g = putEffects s delay (groupEffects t vals r g)
  | 0, _, _, _ => rfl
  | g + 1, r, s, vals => by rw [postRows, postRows_eq, postRow_eq, groupEffects, putEffects_append]

theorem postFlags_eq (s : State) (delay : Nat) (v : Flags) : postFlags s delay veSt .ve v = putEffects s delay (flagEffects v) := by
  unfold postFlags flagEffects
  split <;> rfl

-- What lands -------------------------------------------------------------------------------------------------------------------------------

theorem mem_flagEffects {x : Effect} {v : Flags} : x ∈ flagEffects v ↔ x = .flags .ve v ∧ v ≠ 0 := by
  unfold flagEffects
  split <;> simp [*]

theorem testBit_orFlags (l : List (Nat × Flags)) (b : Nat) : (orFlags l).testBit b = true ↔ ∃ x ∈ l, x.2.testBit b = true := by
  have hfold : ∀ (l : List (Nat × Flags)) (a : Flags), (l.foldl (fun a x => a ||| x.2) a).testBit b = true ↔
      a.testBit b = true ∨ ∃ x ∈ l, x.2.testBit b = true := by
    intro l
    induction l with
    | nil => simp
    | cons x l ih => intro a; simp [ih, or_assoc]
  rw [orFlags, hfold]
  simp

theorem lanePuts_map_flightOf (s : State) (delay : Nat) (l : List Effect) (t : Ty) (r j : Nat) :
    lanePuts (l.map (flightOf s delay veSt)) t r j = l.filterMap (lanePut t r j) := by
  rw [lanePuts, List.filterMap_map]
  rfl

theorem raisesFlag_map_flightOf (s : State) (delay : Nat) (l : List Effect) (b : Nat) :
    raisesFlag (l.map (flightOf s delay veSt)) .ve b ↔ ∃ v : Flags, .flags .ve v ∈ l ∧ v.testBit b = true := by
  constructor
  · rintro ⟨x, hx, v, hv, hb⟩
    obtain ⟨e, he, rfl⟩ := List.mem_map.1 hx
    exact ⟨v, hv ▸ he, hb⟩
  · rintro ⟨v, hv, hb⟩
    exact ⟨_, List.mem_map.2 ⟨_, hv, rfl⟩, v, rfl, hb⟩

/-- A command whose effect is the entries of a group's rows and of flags lands those values and flags. -/
theorem landsLanes_of_group {s : State} {i : Instr} {delay vd g : Nat} {t : Ty} {vals : List (Option Nat)} {v : Flags}
    {out : Nat → Option Nat} {fl : Nat → Prop} (hexec : exec i s = .next (putEffects s delay (groupEffects t vals vd g ++ flagEffects v)))
    (hvals : ∀ e, e < g * Ty.lanes t → wholeLane t (vals[e]?.getD none) = wholeLane t (out e)) (hfl : ∀ b, v.testBit b = true ↔ fl b) :
    landsLanes s i delay vd g t out fl := by
  refine ⟨_, hexec, ?form, ?lanes, ?flags⟩
  case form =>
    intro x hx
    obtain ⟨e, he, rfl⟩ := List.mem_map.1 hx
    refine ⟨rfl, ?_⟩
    obtain he | he := List.mem_append.1 he
    · obtain ⟨r, en, w, rfl, hlo, hhi⟩ := mem_groupEffects he
      exact .inl ⟨r, en, w, rfl, hlo, hhi⟩
    · exact .inr ⟨v, (mem_flagEffects.1 he).1⟩
  case lanes =>
    intro e he
    have hflags (r j : Nat) : (flagEffects v).filterMap (lanePut t r j) = [] :=
      List.filterMap_eq_nil_iff.2 fun x hx => by rw [(mem_flagEffects.1 hx).1]; rfl
    rw [lanePuts_map_flightOf, List.filterMap_append, hflags, List.append_nil, lanePut_groupEffects t g vd e vals he, hvals e he]
    rfl
  case flags =>
    intro b
    rw [raisesFlag_map_flightOf, ← hfl b]
    constructor
    · rintro ⟨w, hw, hb⟩
      obtain hw | hw := List.mem_append.1 hw
      · obtain ⟨_, _, _, hrow, -⟩ := mem_groupEffects hw
        cases hrow
      · obtain ⟨hw, -⟩ := mem_flagEffects.1 hw
        cases hw
        exact hb
    · intro hb
      refine ⟨v, List.mem_append_right _ (mem_flagEffects.2 ⟨rfl, ?_⟩), hb⟩
      rintro rfl
      simp at hb

/-- A command without effect lands nothing. -/
theorem landsLanes_nothing {s : State} {i : Instr} {delay vd g : Nat} {t : Ty} {out : Nat → Option Nat} {fl : Nat → Prop}
    (hexec : exec i s = .next s) (hout : ∀ e, e < g * Ty.lanes t → out e = none) (hfl : ∀ b, ¬ fl b) :
    landsLanes s i delay vd g t out fl :=
  ⟨[], hexec, by simp, fun e he => by rw [hout e he]; rfl, fun b => by simp [raisesFlag, hfl b]⟩

end Sys2Proof.Proofs
end

