-- ==== Sys2Proof/Proofs/LaneWise.lean ====
section
/-! PROOF. The lane-wise commands (R220 to R223): one lemma for the operation that gives them their meaning. -/

namespace Sys2Proof.Proofs

open Sys2Proof Sys2Proof.Machine Sys2Proof.Claims Sys2Proof.Laws

/-- What lands in an element of a group (R221): its result, or zero where an inactive one is zeroed, or nothing. -/
def laneOut (act : Nat → Bool) (z : Bool) (res : Nat → Nat × Flags) (e : Nat) : Option Nat :=
  if act e = true then some (res e).1 else if z = true then some 0 else none

/-- The results of the active elements among the first `n`. -/
def activeResults (act : Nat → Bool) (res : Nat → Nat × Flags) (n : Nat) : List (Nat × Flags) := ((List.range n).filter act).map res

theorem any_map_id_range (n : Nat) (act : Nat → Bool) : ((List.range n).map act).any (fun b => b) = (List.range n).any act := by
  rw [List.any_map]
  rfl

/-- The effects of a group's results: its rows and its flags, where some element is active. -/
theorem postGroup_eq (s : State) (delay vd : Nat) (t : Ty) (z : Bool) (g : Nat) (act : Nat → Bool) (res : Nat → Nat × Flags) :
    postGroup s delay vd t z ⟨g, (List.range (g * Ty.lanes t)).map act⟩ res =
      if (List.range (g * Ty.lanes t)).any act = true then
        putEffects s delay (groupEffects t ((List.range (g * Ty.lanes t)).map (laneOut act z res)) vd g ++
          flagEffects (orFlags (activeResults act res (g * Ty.lanes t))))
      else s := by
  generalize hn : g * Ty.lanes t = n
  have hout : (List.range n).map (fun e => if ((List.range n).map act).getD e false = true then some (res e) else none) =
      (List.range n).map (fun e => if act e = true then some (res e) else none) := by
    refine List.map_congr_left fun e he => ?_
    simp [List.mem_range.1 he]
  rw [postGroup]
  simp only [VPred.any, any_map_id_range, List.length_map, List.length_range, hout]
  split
  · rw [postFlags_eq, postRows_eq, putEffects_append, List.map_map, List.filterMap_map]
    refine congrArg₂ (fun vals l => putEffects (putEffects s delay (groupEffects t vals vd g)) delay (flagEffects (orFlags l)))
      (List.map_congr_left fun e _ => ?lane) ?results
    case lane =>
      cases hact : act e <;> simp [laneOut, hact]
    case results =>
      rw [activeResults, ← List.filterMap_eq_map, ← List.filterMap_eq_filter, List.filterMap_filterMap]
      refine List.filterMap_congr fun e _ => ?_
      cases hact : act e <;> simp [hact, Option.guard]
  · rfl

/-- Two results put the same code into a lane and raise the same flags. -/
def SameLane (t : Ty) (x y : Nat × Flags) : Prop := x.1 % 2 ^ Ty.bits t = y.1 % 2 ^ Ty.bits t ∧ x.2 = y.2

theorem predicate_of_vectorChecks {s : State} {fmt many : Bool} {p : Prd} {t : Ty} {rows : List VReg} {own : List (Prop × Nat)}
    (hall : ∀ x ∈ vectorChecks s fmt many p t rows own, x.1) : (predicateOf (cur s) p t).isSome = true :=
  hall (_, 0x01) (.tail _ (.tail _ (.head _)))

/-- A command that is a lane-wise operation of the model, its own checks and its results as they are stated. -/
theorem laneWise_of_veLanes {s : State} {i : Instr} {fmt many : Bool} {vd : VReg} {srcs : List VReg} {p : Prd} {z : Bool} {t : Ty}
    {ownRun : List (Bool × Nat)} {own : List (Prop × Nat)} {delay : Nat} {res : CoreState → Nat → Nat × Flags} {f : Nat → Nat × Flags}
    (hexec : exec i s = veLanes s vd p z t fmt many srcs ownRun delay res) (hown : List.Forall₂ Decides ownRun own)
    (hres : ∀ e, SameLane t (res (cur s) e) (f e)) : laneWise s i fmt many vd srcs p z t own delay f := by
  refine unlessFault_of_checked (f := fun s' => postGroup s' delay vd.toNat t z (predNow s' p t) (res (cur s))) hexec
    (firstFault_predChecks s p t many ((vd :: srcs).map BitVec.toNat) _ _)
    (decides_vectorChecks fmt many p t (vd :: srcs) hown) fun hall hgo => ?_
  rw [predNow_eq (predicate_of_vectorChecks hall), postGroup_eq] at hgo
  split at hgo
  case isTrue hany =>
    refine landsLanes_of_group hgo (fun e he => ?_) (fun b => ?_)
    · have hlane : SameLane t (res (cur s) e) (f e) := hres e
      simp only [List.getElem?_map, List.getElem?_range he, Option.map_some, Option.getD_some, laneOut, hany, anyActive, and_true]
      split
      · exact congrArg (fun v => [(2 ^ Ty.size t - 1, v)]) hlane.1
      · rfl
    · rw [testBit_orFlags]
      simp only [activeResults, List.mem_map, List.mem_filter, List.mem_range]
      constructor
      · rintro ⟨_, ⟨e, ⟨he, hact⟩, rfl⟩, hb⟩
        exact ⟨e, he, hact, (hres e).2 ▸ hb⟩
      · rintro ⟨e, he, hact, hb⟩
        exact ⟨_, ⟨e, ⟨he, hact⟩, rfl⟩, (hres e).2 ▸ hb⟩
  case isFalse hnone =>
    have hidle : ∀ e, e < groupOf s p t * Ty.lanes t → activeAt s p t e = false := by
      simpa [List.any_eq_true] using hnone
    refine landsLanes_nothing hgo (fun e he => ?_) ?_
    · simp [hidle e he, anyActive, hnone]
    · rintro b ⟨e, he, hact, -⟩
      rw [hidle e he] at hact
      contradiction

end Sys2Proof.Proofs
end

