-- ==== Sys2Proof/Proofs/MaskCommands.lean ====
section
/-! PROOF. Masks and count predicates (R244). -/

namespace Sys2Proof.Proofs

open Sys2Proof Sys2Proof.Machine Sys2Proof.Claims Sys2Proof.Laws

-- Counts of 1 bits -------------------------------------------------------------------------------------------------------------------

/-- The 1 bits among the lowest `n` of a number. -/
def bitCount (a n : Nat) : Nat := ((List.range n).filter (fun i => a.testBit i)).length

theorem bitCount_succ (a n : Nat) : bitCount a (n + 1) = a % 2 + bitCount (a / 2) n := by
  have hrest : (fun i => a.testBit i) ∘ Nat.succ = fun i => (a / 2).testBit i := funext fun i => Nat.testBit_succ a i
  rw [bitCount, bitCount, List.range_succ_eq_map, List.filter_cons, List.filter_map, hrest, Nat.testBit_zero]
  obtain h | h := Nat.mod_two_eq_zero_or_one a <;> simp [h, Nat.add_comm]

theorem popFromMask_eq_bitCount (n : Nat) : ∀ a, maskCount.popFromMask a n = bitCount a n := by
  induction n with
  | zero => exact fun _ => rfl
  | succ n ih => exact fun a => by rw [maskCount.popFromMask, ih, bitCount_succ]

theorem maskCount_eq (c : CoreState) (m : Nat) (t : Ty) :
    maskCount c m t = ((List.range (Ty.lanes t)).filter (fun b => (Sparse.get 0 c.masks m).getLsbD b)).length :=
  popFromMask_eq_bitCount _ _

-- Whole masks and count predicates -----------------------------------------------------------------------------------------------------

/-- A command that lands a whole mask, given by its bits; an idle one does nothing. -/
theorem postMask_bits {s : State} {i : Instr} {m : Nat} {v : BitVec 128} {f : Nat → Bool} (hexec : exec i s = .next (postMask s m v))
    (hbits : ∀ b, b < 128 → v.getLsbD b = f b) :
    (s.ctx.active = true →
      ∃ v, exec i s = .next (posts s 2 veSt (.mask m (BitVec.allOnes 128) v)) ∧ ∀ b, b < 128 → v.getLsbD b = f b) ∧
    (s.ctx.active = false → exec i s = .next s) := by
  refine ⟨fun hactive => ⟨v, ?_, hbits⟩, fun hidle => ?_⟩
  · rw [hexec, postMask, if_pos hactive]
    rfl
  · simp [hexec, postMask, hidle]

/-- A command that lands a count predicate of a type's lane width; an idle one does nothing. -/
theorem kpred_count {s : State} {i : Instr} {k n : Nat} {t : Ty}
    (hexec : exec i s = .next (if s.ctx.active then vePost s 2 (.kpred k ⟨BitVec.ofNat 10 n, widCode t⟩) else s)) :
    (s.ctx.active = true →
      ∃ v, exec i s = .next (posts s 2 veSt (.kpred k v)) ∧ v.cnt.toNat = n % 1024 ∧ 8 * 2 ^ v.wid.toNat = Ty.bits t) ∧
    (s.ctx.active = false → exec i s = .next s) := by
  refine ⟨fun hactive => ⟨⟨BitVec.ofNat 10 n, widCode t⟩, ?_, rfl, (widCode_eq_iff _ t).1 rfl⟩, fun hidle => ?_⟩
  · rw [hexec, if_pos hactive]
    rfl
  · simp [hexec, hidle]

/-- One row without flags is a group of one. -/
theorem rowEffects_eq_group {t : Ty} {vals : List (Option Nat)} (hlen : vals.length = Ty.lanes t) (r : Nat) :
    rowEffects t r vals = groupEffects t vals r 1 ++ flagEffects 0 := by
  simp [groupEffects, flagEffects, List.take_of_length_le hlen.le]

/-- MPOP puts the count in lane 0 and zeros in the others. -/
theorem mpop_landsLanes (s : State) (vd : VReg) (ma : BitVec 4) (ty : Ty) :
    landsLanes s (.mpop vd ma ty) 2 vd.toNat 1 ty
      (fun e => if s.ctx.active = true then (if e = 0 then some (maskCount (cur s) ma.toNat ty) else some 0) else none) (fun _ => False) := by
  have hexec : exec (.mpop vd ma ty) s = .next (if s.ctx.active then postRow s 2 vd.toNat ty
    (some (maskCount (cur s) ma.toNat ty) :: List.replicate (Ty.lanes ty - 1) (some 0)) else s) := rfl
  have hlen : (some (maskCount (cur s) ma.toNat ty) :: List.replicate (Ty.lanes ty - 1) (some 0)).length = Ty.lanes ty := by
    rw [List.length_cons, List.length_replicate]
    exact Nat.sub_add_cancel (lanes_pos ty)
  cases hactive : s.ctx.active with
  | false =>
    rw [hactive] at hexec
    exact landsLanes_nothing hexec (fun _ _ => rfl) (fun _ => id)
  | true =>
    rw [hactive, if_pos rfl, postRow_eq, rowEffects_eq_group hlen] at hexec
    refine landsLanes_of_group hexec (fun e he => congrArg _ ?_) (fun b => by simp)
    cases e with
    | zero => rfl
    | succ e => simp [show e < Ty.lanes ty - 1 by omega]

/-- Settles O41: a mask by its bits, a count by the number of 1 bits; KSET by its one check. -/
theorem maskAndCountCommands : Obligations.MaskAndCountCommands := by
  intro s md ma mb kd vd imm ty
  dsimp only
  rw [← maskCount_eq]
  refine ⟨postMask_bits rfl ?and, postMask_bits rfl ?or, postMask_bits rfl ?xor, postMask_bits rfl ?not, mpop_landsLanes s vd ma ty,
    kpred_count rfl, fun hfits => kpred_count ?kset, fun habove => ?fault⟩
  case and => exact fun b _ => BitVec.getLsbD_and
  case or => exact fun b _ => BitVec.getLsbD_or
  case xor => exact fun b _ => BitVec.getLsbD_xor
  case not => exact fun b hb => by simp [getMask, hb]
  case kset => exact checked_ok s _ _ (by simpa using hfits)
  case fault => exact checked_faults (decide_eq_true_iff (p := imm.toNat ≤ 6 * Ty.lanes ty)) _ _ (Nat.not_le.2 habove)

end Sys2Proof.Proofs
end

