-- ==== Sys2Proof/Proofs/VectorBits.lean ====
section
/-! PROOF. Vector bits and shifts (R235 to R237): the lanes of each command by their bits. -/

namespace Sys2Proof.Proofs

open Sys2Proof Sys2Proof.Machine Sys2Proof.Claims Sys2Proof.Laws

-- Shapes of command --------------------------------------------------------------------------------------------------------------------

theorem elem_lt (s : State) (t : Ty) (r e : Nat) : elem s t r e < 2 ^ Ty.bits t := Nat.mod_lt _ (Nat.two_pow_pos _)

theorem laneWise_bits2 {s : State} {i : Instr} {o : VOps} {delay : Nat} {run f : Nat → Nat → Nat} (hexec : exec i s = bits2 o delay run s)
    (hf : ∀ a n, a < 2 ^ Ty.bits o.ty → run a n % 2 ^ Ty.bits o.ty = f a n % 2 ^ Ty.bits o.ty) :
    laneWise s i false true o.vd [o.va, o.vb] o.prd o.z o.ty [] delay
      (fun e => (f (elem s o.ty o.va.toNat e) (elem s o.ty o.vb.toNat e), 0)) :=
  laneWise_of_veLanes hexec .nil fun e => ⟨hf _ _ (elem_lt s o.ty o.va.toNat e), rfl⟩

theorem laneWise_bits1 {s : State} {i : Instr} {q : VOps1} {run f : Nat → Nat} (hexec : exec i s = bits1 q 2 run s)
    (hf : ∀ a, run a = f a) :
    laneWise s i false true q.vd [q.va] q.prd q.z q.ty [] 2 (fun e => (f (elem s q.ty q.va.toNat e), 0)) :=
  laneWise_of_veLanes hexec .nil fun _ => ⟨congrArg (· % _) (hf _), rfl⟩

-- Bits ---------------------------------------------------------------------------------------------------------------------------------

theorem toNat_testBit_zero (x : Nat) : (x.testBit 0).toNat = x % 2 := by
  rw [Nat.testBit_zero]
  obtain h | h := Nat.mod_two_eq_zero_or_one x <;> simp [h]

/-- VLOG3 looks each bit up in its table (R235). -/
theorem testBit_log3From (tt : Nat) : ∀ (n d a b i : Nat), i < n → (log3From tt d a b n).testBit i =
    tt.testBit (4 * (d.testBit i).toNat + 2 * (a.testBit i).toNat + (b.testBit i).toNat)
  | n + 1, d, a, b, 0, _ => by
    simp only [toNat_testBit_zero]
    rw [log3From, Nat.testBit_zero, Nat.add_mul_mod_self_left, bits, Nat.pow_one, Nat.mod_mod, Nat.testBit_eq_decide_div_mod_eq]
  | n + 1, d, a, b, i + 1, h => by
    have hbit (x : Nat) : bits tt x 1 / 2 = 0 := Nat.div_eq_of_lt (Nat.mod_lt _ Nat.two_pos)
    rw [log3From, Nat.testBit_succ, Nat.add_mul_div_left _ _ Nat.two_pos, hbit, Nat.zero_add,
      testBit_log3From tt n _ _ _ i (Nat.lt_of_succ_lt_succ h)]
    simp only [Nat.testBit_succ]

theorem popFrom_eq_bitCount (n : Nat) : ∀ a, popFrom a n = bitCount a n := by
  induction n with
  | zero => exact fun _ => rfl
  | succ n ih => exact fun a => by rw [popFrom, ih, bitCount_succ]

/-- VCLZ counts the zeros above the highest 1 bit (R237). -/
theorem clzLane_spec {w a : Nat} (ha : a < 2 ^ w) : clzLane w a ≤ w ∧ (∀ i, w - clzLane w a ≤ i → a.testBit i = false) ∧
    (clzLane w a < w → a.testBit (w - 1 - clzLane w a) = true) := by
  unfold clzLane
  split
  case isTrue hzero => simp [hzero]
  case isFalse hne =>
    have hlog : a.log2 < w := (Nat.log2_lt hne).2 ha
    refine ⟨by omega, fun i hi => Nat.testBit_lt_two_pow ?_, fun _ => ?_⟩
    · exact Nat.lt_log2_self.trans_le (Nat.pow_le_pow_right Nat.two_pos (by omega))
    · rw [show w - 1 - (w - 1 - a.log2) = a.log2 by omega]
      exact Nat.testBit_log2 hne

-- Shifts -------------------------------------------------------------------------------------------------------------------------------

theorem shlLane_mod (w a n : Nat) : shlLane w a n % 2 ^ w = (if n < w then a * 2 ^ n else 0) % 2 ^ w := by
  unfold shlLane
  split
  · exact Nat.mod_mod _ _
  · rfl

/-- VSAR divides the signed lane, by 2^w at most. -/
theorem sarLane_eq (w a n : Nat) :
    sarLane w a n = ((if 2 ^ (w - 1) ≤ a then (a : Int) - 2 ^ w else a) / 2 ^ (min n w) % 2 ^ w).toNat := by
  have hsigned : asSigned w a = if 2 ^ (w - 1) ≤ a then (a : Int) - 2 ^ w else a := by
    simp only [asSigned, ← Nat.not_lt, ite_not]
  rw [sarLane, hsigned, intCode]

-- The carry-less product ---------------------------------------------------------------------------------------------------------------

/-- Bit `j` of the carry-less product with the lowest `n` bits of `b`: the parity of its terms. -/
def clmulBit (a b n j : Nat) : Bool :=
  (List.range n).foldl (fun p k => p != (decide (k ≤ j) && (a.testBit (j - k) && b.testBit k))) false

theorem foldl_bne_start {α : Type} (f : α → Bool) (l : List α) (p : Bool) :
    l.foldl (fun q x => q != f x) p = (p != l.foldl (fun q x => q != f x) false) := by
  induction l generalizing p with
  | nil => simp
  | cons x l ih => rw [List.foldl_cons, List.foldl_cons, ih, ih (false != f x), Bool.false_bne, Bool.bne_assoc]

theorem clmulBit_succ (a b n j : Nat) :
    clmulBit a b (n + 1) j = ((a.testBit j && b.testBit 0) != clmulBit (2 * a) (b / 2) n j) := by
  have hterm (k : Nat) : (decide (k + 1 ≤ j) && (a.testBit (j - (k + 1)) && b.testBit (k + 1))) =
      (decide (k ≤ j) && ((2 * a).testBit (j - k) && (b / 2).testBit k)) := by
    rcases Nat.lt_trichotomy j k with h | rfl | h
    · simp [Nat.not_le.2 h, show ¬ k < j by omega]
    · simp
    · obtain ⟨d, rfl⟩ := Nat.exists_eq_add_of_lt h
      have hguard : decide (k + 1 ≤ k + d + 1) = decide (k ≤ k + d + 1) := by
        rw [decide_eq_true (by omega), decide_eq_true (by omega)]
      rw [hguard, show k + d + 1 - (k + 1) = d by omega, show k + d + 1 - k = d + 1 by omega, Nat.testBit_succ (2 * a),
        Nat.mul_div_cancel_left _ Nat.two_pos, Nat.testBit_succ b]
  have hfirst : (decide (0 ≤ j) && (a.testBit (j - 0) && b.testBit 0)) = (a.testBit j && b.testBit 0) := by simp
  rw [clmulBit, List.range_succ_eq_map, List.foldl_cons, List.foldl_map, foldl_bne_start, hfirst, Bool.false_bne, clmulBit]
  simp only [Nat.succ_eq_add_one, hterm]

theorem testBit_clmulFrom (n : Nat) : ∀ (a b j : Nat), (clmulFrom a b n).testBit j = clmulBit a b n j := by
  induction n with
  | zero => exact fun _ _ _ => Nat.zero_testBit _
  | succ n ih =>
    intro a b j
    rw [clmulFrom, Nat.testBit_xor, ih, clmulBit_succ, Nat.testBit_zero]
    obtain h | h := Nat.mod_two_eq_zero_or_one b <;> simp [h]

/-- Terms above bit `j` are zero. -/
theorem clmulBit_of_le {j n : Nat} (h : j < n) (a b : Nat) : clmulBit a b n j = clmulBit a b (j + 1) j := by
  induction n, h using Nat.le_induction with
  | base => rfl
  | succ n hn ih =>
    rw [← ih, clmulBit, List.range_succ, List.foldl_append]
    simp [show ¬ n ≤ j by omega, clmulBit]

theorem testBit_clmulLo {w i : Nat} (hi : i < w) (a b : Nat) : (clmulFrom a b w % 2 ^ w).testBit i =
    (List.range (i + 1)).foldl (fun p k => p != (a.testBit (i - k) && b.testBit k)) false := by
  rw [Nat.testBit_mod_two_pow, decide_eq_true hi, Bool.true_and, testBit_clmulFrom, clmulBit_of_le hi]
  refine List.foldl_ext _ _ _ fun p k hk => ?_
  rw [decide_eq_true (Nat.le_of_lt_succ (List.mem_range.1 hk)), Bool.true_and]

theorem testBit_clmulHi (w i a b : Nat) : (clmulFrom a b w / 2 ^ w).testBit i =
    (List.range w).foldl (fun p k => p != (decide (k ≤ w + i) && (a.testBit (w + i - k) && b.testBit k))) false := by
  rw [Nat.testBit_div_two_pow, Nat.add_comm, testBit_clmulFrom, clmulBit]

/-- Settles O38: each command is a lane-wise operation whose lanes are as stated, up to the width that lands. -/
theorem vectorBitsAndShifts : Obligations.VectorBitsAndShifts := by
  intro s o q tt sh
  dsimp only
  have hlo := laneWise_bits2 (s := s) (i := .vclmulLo o) (f := fun a b => clmulFrom a b (Ty.bits o.ty) % 2 ^ Ty.bits o.ty) rfl
    fun _ _ _ => rfl
  have hhi := laneWise_bits2 (s := s) (i := .vclmulHi o) (f := fun a b => clmulFrom a b (Ty.bits o.ty) / 2 ^ Ty.bits o.ty) rfl
    fun _ _ _ => rfl
  refine ⟨laneWise_bits2 (f := fun a b => a &&& b) rfl fun _ _ _ => rfl, laneWise_bits2 (f := fun a b => a ||| b) rfl fun _ _ _ => rfl,
    laneWise_bits2 (f := fun a b => a ^^^ b) rfl fun _ _ _ => rfl, ⟨fun d a b => log3From tt.toNat d a b (Ty.bits o.ty), ?log3, ?log3Bits⟩,
    laneWise_bits2 (f := fun a n => if n < Ty.bits o.ty then a * 2 ^ n else 0) rfl fun a n _ => shlLane_mod _ a n,
    laneWise_bits2 (f := shrLane (Ty.bits o.ty)) rfl fun _ _ _ => rfl, ?sar, ?fsh,
    laneWise_bits1 (f := fun a => bitCount a (Ty.bits q.ty)) rfl fun a => popFrom_eq_bitCount _ a,
    ⟨clzLane (Ty.bits q.ty), laneWise_bits1 rfl fun _ => rfl, fun a ha => clzLane_spec ha⟩,
    ⟨_, _, hlo, hhi, fun a b i _ _ hi => ⟨testBit_clmulLo hi a b, testBit_clmulHi _ i a b⟩⟩⟩
  case log3 =>
    refine laneWise_of_veLanes (show execVlog3 o tt s = _ from rfl) .nil ?_
    exact fun _ => ⟨rfl, rfl⟩
  case log3Bits => exact fun d a b i hi => testBit_log3From _ _ d a b i hi
  case sar =>
    exact laneWise_bits2 (f := fun a n => ((if 2 ^ (Ty.bits o.ty - 1) ≤ a then (a : Int) - 2 ^ Ty.bits o.ty else a) /
      2 ^ (min n (Ty.bits o.ty)) % 2 ^ Ty.bits o.ty).toNat) rfl fun a n _ => congrArg (· % 2 ^ Ty.bits o.ty) (sarLane_eq _ a n)
  case fsh =>
    refine laneWise_of_veLanes (show execVfsh o sh s = _ from rfl) (.cons (.of_iff decide_eq_true_iff) .nil) ?_
    exact fun _ => ⟨Nat.mod_mod _ _, rfl⟩

end Sys2Proof.Proofs
end

