-- ==== Sys2Proof/Proofs/RootRounding.lean ====
section
/-! PROOF. The one rounding of a root (R58): the root to some number of bits with a sticky bit below rounds to the same code from 60 bits
on, so the number of bits that the model takes does not matter. -/

namespace Sys2Proof.Proofs

open Sys2Proof Sys2Proof.Machine Sys2Proof.Claims Sys2Proof.Laws

-- Integer roots --------------------------------------------------------------------------------------------------------------------------

/-- `r` is the integer part of the root of N / D. -/
def IsRoot (D N r : Nat) : Prop := r * r * D ≤ N ∧ N < (r + 1) * (r + 1) * D

theorem isqrtFrom_isRoot (n k : Nat) : ∀ r, r * r ≤ n → n < (r + 2 ^ k) * (r + 2 ^ k) → IsRoot 1 n (isqrtFrom n k r) := by
  induction k with
  | zero => exact fun r hlo hhi => ⟨by simpa [isqrtFrom] using hlo, by simpa [isqrtFrom] using hhi⟩
  | succ k ih =>
    intro r hlo hhi
    rw [isqrtFrom]
    split
    case isTrue hbit => exact ih _ hbit (by rwa [Nat.add_assoc, ← Nat.two_mul, ← Nat.pow_succ'])
    case isFalse hbit => exact ih _ hlo (Nat.not_le.1 hbit)

theorem isqrt_isRoot (n : Nat) : IsRoot 1 n (isqrt n) := by
  refine isqrtFrom_isRoot n _ 0 (Nat.zero_le n) ?_
  rw [Nat.zero_add, ← Nat.pow_add]
  exact Nat.lt_log2_self.trans_le (Nat.pow_le_pow_right Nat.two_pos (by omega))

theorem isqrt_div_isRoot {D : Nat} (hD : 0 < D) (n : Nat) : IsRoot D n (isqrt (n / D)) := by
  obtain ⟨hlo, hhi⟩ := isqrt_isRoot (n / D)
  rw [Nat.mul_one] at hlo hhi
  exact ⟨(Nat.le_div_iff_mul_le hD).1 hlo, (Nat.div_lt_iff_lt_mul hD).1 hhi⟩

theorem IsRoot.le_of_sq_le {D N r x : Nat} (h : IsRoot D N r) (hx : x * x * D ≤ N) : x ≤ r := by
  by_contra hlt
  have hsq : (r + 1) * (r + 1) * D ≤ x * x * D :=
    Nat.mul_le_mul_right D (Nat.mul_le_mul (Nat.not_le.1 hlt) (Nat.not_le.1 hlt))
  exact absurd (hsq.trans hx) (Nat.not_le.2 h.2)

theorem IsRoot.unique {D N r x : Nat} (h : IsRoot D N r) (hx : IsRoot D N x) : x = r :=
  (h.le_of_sq_le hx.1).antisymm (hx.le_of_sq_le h.1)

/-- A root to `j` bits more has the root as its upper bits. -/
theorem IsRoot.div_two_pow {D N r r' j : Nat} (h : IsRoot D N r) (h' : IsRoot D (N * 4 ^ j) r') : r' / 2 ^ j = r := by
  have hfour (x : Nat) : (x * 2 ^ j) * (x * 2 ^ j) * D = x * x * D * 4 ^ j := by
    rw [show (4 : Nat) = 2 * 2 by rfl, Nat.mul_pow]
    ring
  have hpos : 0 < 4 ^ j := Nat.pow_pos (by decide)
  refine h.unique ⟨?_, ?_⟩
  · have hle : r' / 2 ^ j * 2 ^ j ≤ r' := Nat.div_mul_le_self r' (2 ^ j)
    refine Nat.le_of_mul_le_mul_right ?_ hpos
    rw [← hfour]
    exact (Nat.mul_le_mul_right D (Nat.mul_le_mul hle hle)).trans h'.1
  · have hlt : r' + 1 ≤ (r' / 2 ^ j + 1) * 2 ^ j := Nat.lt_mul_of_div_lt (Nat.lt_succ_self _) (Nat.two_pow_pos j)
    refine Nat.lt_of_mul_lt_mul_right (a := 4 ^ j) ?_
    rw [← hfour]
    exact h'.2.trans_le (Nat.mul_le_mul_right D (Nat.mul_le_mul hlt hlt))

-- Sticky bits ----------------------------------------------------------------------------------------------------------------------------

/-- A number without its lowest `j` bits, the last of what is left a sticky bit for them. -/
def narrow (j x : Nat) : Nat := 2 * (x / 2 ^ (j + 1)) + (if x % 2 ^ (j + 1) = 0 then 0 else 1)

/-- A root with a sticky bit below. -/
def stickyRoot (D N r : Nat) : Nat := 2 * r + (if r * r * D = N then 0 else 1)

/-- A narrowed root is the root to as many bits fewer: it is exact where the root has no lower bits and is exact itself. -/
theorem narrow_stickyRoot {D N r r' j : Nat} (hD : 0 < D) (h : IsRoot D N r) (h' : IsRoot D (N * 4 ^ j) r') :
    narrow j (stickyRoot D (N * 4 ^ j) r') = stickyRoot D N r := by
  have hsquare : (r * 2 ^ j) * (r * 2 ^ j) * D = r * r * D * 4 ^ j := by
    rw [show (4 : Nat) = 2 * 2 by rfl, Nat.mul_pow]
    ring
  have hexact : (r' * r' * D = N * 4 ^ j ∧ r' % 2 ^ j = 0) ↔ r * r * D = N := by
    constructor
    · rintro ⟨hsq, hlow⟩
      have hr : r' = r * 2 ^ j := by rw [← h.div_two_pow h', Nat.div_mul_cancel (Nat.dvd_of_mod_eq_zero hlow)]
      rw [hr, hsquare] at hsq
      exact Nat.eq_of_mul_eq_mul_right (Nat.pow_pos (by decide)) hsq
    · intro hsq
      have hroot : IsRoot D (N * 4 ^ j) (r * 2 ^ j) := by
        rw [← hsq, ← hsquare]
        exact ⟨le_rfl, Nat.mul_lt_mul_of_pos_right (Nat.mul_self_lt_mul_self (Nat.lt_succ_self _)) hD⟩
      rw [hroot.unique h', hsquare, hsq]
      exact ⟨rfl, Nat.mul_mod_left r (2 ^ j)⟩
  have hhalf : stickyRoot D (N * 4 ^ j) r' / 2 = r' := by
    rw [stickyRoot]
    split <;> omega
  have hodd : stickyRoot D (N * 4 ^ j) r' % 2 = if r' * r' * D = N * 4 ^ j then 0 else 1 := by
    rw [stickyRoot]
    split <;> omega
  have hlow : stickyRoot D (N * 4 ^ j) r' % 2 ^ (j + 1) = 0 ↔ r * r * D = N := by
    rw [← hexact, Nat.pow_succ', Nat.mod_mul, hhalf, hodd]
    split <;> simp [*]
  have hhigh : stickyRoot D (N * 4 ^ j) r' / 2 ^ (j + 1) = r := by
    rw [Nat.pow_succ', ← Nat.div_div_eq_div_mul, hhalf, h.div_two_pow h']
  rw [narrow, hhigh]
  simp only [hlow]
  rfl

-- Roundings that do not see the bits below -------------------------------------------------------------------------------------------------

theorem stepUp_congr (rm : Rm) (neg odd : Bool) {r d r' d' : Nat} (hzero : r = 0 ↔ r' = 0) (hgt : d < 2 * r ↔ d' < 2 * r')
    (heq : 2 * r = d ↔ 2 * r' = d') : stepUp rm neg odd r d = stepUp rm neg odd r' d' := by
  have hzero' : (r == 0) = (r' == 0) := by rw [Bool.eq_iff_iff, beq_iff_eq, beq_iff_eq, hzero]
  have heq' : (2 * r == d) = (2 * r' == d') := by rw [Bool.eq_iff_iff, beq_iff_eq, beq_iff_eq, heq]
  cases rm <;> simp only [stepUp, bne, hzero', gt_iff_lt, hgt, heq']

/-- The rounding of a number to a multiple of 2^c. -/
theorem roundRatBy_neg (odd : Nat → Bool) (rm : Rm) (neg : Bool) (n : Nat) {c : Nat} (hc : 0 < c) :
    roundRatBy odd rm neg n 1 (-(c : Int)) =
      (if stepUp rm neg (odd (n / 2 ^ c)) (n % 2 ^ c) (2 ^ c) then n / 2 ^ c + 1 else n / 2 ^ c, n % 2 ^ c != 0) := by
  simp [roundRatBy, hc.ne']

/-- A sticky bit stands for the bits `v` below P in the comparisons of a rounding at P * 2 * H. -/
theorem sticky_compare {P v : Nat} (hv : v < P) (H w : Nat) :
    (v + P * w = 0 ↔ (if v = 0 then 0 else 1) + 2 * w = 0) ∧
    (P * (2 * H) < 2 * (v + P * w) ↔ 2 * (2 * H) < 2 * ((if v = 0 then 0 else 1) + 2 * w)) ∧
    (2 * (v + P * w) = P * (2 * H) ↔ 2 * ((if v = 0 then 0 else 1) + 2 * w) = 2 * (2 * H)) := by
  have hdouble : P * (2 * H) = 2 * (P * H) := by ring
  have hzero : P * w = 0 ↔ w = 0 := by simp [(Nat.zero_lt_of_lt hv).ne']
  rw [hdouble]
  rcases Nat.lt_trichotomy w H with h | rfl | h
  · have hstep : P * w + P ≤ P * H := by rw [← Nat.mul_succ]; exact Nat.mul_le_mul_left P h
    split <;> omega
  · split <;> omega
  · have hstep : P * H + P ≤ P * w := by rw [← Nat.mul_succ]; exact Nat.mul_le_mul_left P h
    split <;> omega

/-- Narrowed, a number rounds to the same multiple of a power of two that is 2 bits or more above its sticky bit. -/
theorem roundRatBy_narrow (odd : Nat → Bool) (rm : Rm) (neg : Bool) (x j : Nat) {c : Nat} (hc : 2 ≤ c) :
    roundRatBy odd rm neg x 1 (-((c + j : Nat) : Int)) = roundRatBy odd rm neg (narrow j x) 1 (-(c : Int)) := by
  obtain ⟨b, rfl⟩ := Nat.exists_eq_add_of_le' hc
  -- `u` of the upper bits, `w` of those that the rounding looks at, `v` of those that only the sticky bit stands for
  let P := 2 ^ (j + 1)
  let H := 2 ^ b
  let v := x % P
  let w := x / P % (2 * H)
  let u := x / P / (2 * H)
  have hP : 0 < P := Nat.two_pow_pos _
  have hH : 0 < H := Nat.two_pow_pos _
  have hv : v < P := Nat.mod_lt _ hP
  have hw : w < 2 * H := Nat.mod_lt _ (by omega)
  have hpow : 2 ^ (b + 2 + j) = P * (2 * H) := by simp only [P, H]; ring
  have hpow' : 2 ^ (b + 2) = 2 * (2 * H) := by simp only [H]; ring
  have hxq : x / 2 ^ (b + 2 + j) = u := by rw [hpow, ← Nat.div_div_eq_div_mul]
  have hxr : x % 2 ^ (b + 2 + j) = v + P * w := by rw [hpow, Nat.mod_mul]
  have hy : narrow j x = 2 * (x / P) + if v = 0 then 0 else 1 := rfl
  have hyhalf : narrow j x / 2 = x / P := by rw [hy]; split <;> omega
  have hyodd : narrow j x % 2 = if v = 0 then 0 else 1 := by rw [hy]; split <;> omega
  have hyq : narrow j x / 2 ^ (b + 2) = u := by rw [hpow', ← Nat.div_div_eq_div_mul, hyhalf]
  have hyr : narrow j x % 2 ^ (b + 2) = (if v = 0 then 0 else 1) + 2 * w := by rw [hpow', Nat.mod_mul, hyhalf, hyodd]
  rw [roundRatBy_neg odd rm neg x (by omega), roundRatBy_neg odd rm neg _ (by omega), hxq, hxr, hyq, hyr, hpow, hpow']
  obtain ⟨hzero, hgt, heq⟩ := sticky_compare hv H w
  have hinexact : (v + P * w != 0) = ((if v = 0 then 0 else 1) + 2 * w != 0) := by
    rw [Bool.eq_iff_iff, bne_iff_ne, bne_iff_ne, ne_eq, hzero]
  rw [stepUp_congr rm neg (odd u) hzero hgt heq, hinexact]

-- The one rounding into a format -----------------------------------------------------------------------------------------------------------

theorem log2_of_div_two_pow {x u m : Nat} (hu : u ≠ 0) (h : x / 2 ^ m = u) : x.log2 = u.log2 + m := by
  have hx : x ≠ 0 := by rintro rfl; simp at h; exact hu h.symm
  subst h
  rw [Nat.log2_eq_iff hx, Nat.add_right_comm, Nat.pow_add, Nat.pow_add]
  constructor
  · exact (Nat.mul_le_mul_right _ (Nat.log2_self_le hu)).trans (Nat.div_mul_le_self _ _)
  · exact Nat.lt_mul_of_div_lt Nat.lt_log2_self (Nat.two_pow_pos m)

theorem ilog2Rat_one {n : Nat} (hn : n ≠ 0) : ilog2Rat n 1 = n.log2 := by
  have hle : ¬ n < 2 ^ n.log2 := Nat.not_lt.2 (Nat.log2_self_le hn)
  simp [ilog2Rat, hle, show Nat.log2 1 = 0 by decide]

/-- A format has fewer than 52 bits of fraction, or is a grid of small integers. -/
structure Narrower (f : Fmt) : Prop where
  mbits_le : f.mbits ≤ 52
  gridMax_lt : f.ebits = 0 → f.gridMax < 2 ^ 60

theorem gridMax_lt (f : Fmt) (h : f.wid < 16) : f.gridMax < 2 ^ 60 := by
  have hbound {w : Nat} (hw : w < 16) : (2 : Int) ^ w ≤ 2 ^ 16 := pow_le_pow_right₀ (by decide) hw.le
  have hsigned := hbound (w := f.wid - 1) (by omega)
  have hunsigned := hbound h
  unfold Fmt.gridMax
  split
  · omega
  · split <;> omega

theorem narrower_fmtOf (t : Ty) (d : Nat) : Narrower (fmtOf t d) := by
  have hnf : Narrower (nfFmt d) := by
    have hwid : (nfFmt d).wid < 16 := Nat.mod_lt _ (by decide)
    refine ⟨?_, fun _ => gridMax_lt _ hwid⟩
    have hmbits : (nfFmt d).mbits ≤ (nfFmt d).wid := (Nat.sub_le _ _).trans (Nat.sub_le _ _)
    omega
  cases t with
  | f64 => exact (⟨by decide, by decide⟩ : Narrower fmtF64)
  | f32 => exact (⟨by decide, by decide⟩ : Narrower fmtF32)
  | f16 => exact (⟨by decide, by decide⟩ : Narrower fmtF16)
  | bf16 => exact (⟨by decide, by decide⟩ : Narrower fmtBf16)
  | _ => exact hnf

/-- A rounding is at least the number without its fraction. -/
theorem le_roundRat (rm : Rm) (neg : Bool) {n j : Nat} {a : Int} (ha : -(j : Int) ≤ a) : n / 2 ^ j ≤ (roundRat rm neg n 1 a).1 := by
  have hround {b : Bool} {q : Nat} : q ≤ if b then q + 1 else q := by split <;> omega
  rcases lt_or_ge a 0 with hneg | hpos
  · obtain ⟨c, rfl⟩ : ∃ c : Nat, a = -c := ⟨(-a).toNat, by omega⟩
    rw [roundRat, roundRatBy_neg _ rm neg n (by omega)]
    exact (Nat.div_le_div_left (Nat.pow_le_pow_right Nat.two_pos (by omega)) (Nat.two_pow_pos c)).trans hround
  · obtain ⟨c, rfl⟩ := Int.eq_ofNat_of_zero_le hpos
    simp only [roundRat, roundRatBy]
    refine le_trans ?_ hround
    simpa using (Nat.div_le_self n (2 ^ j)).trans (Nat.le_mul_of_pos_right n (Nat.two_pow_pos c))

/-- Beyond a grid's largest integer the range end is written (R37). -/
theorem roundInto_beyond_grid {f : Fmt} (hgrid : f.ebits = 0) {rm : Rm} {n : Nat} {a : Int} (hn : n ≠ 0)
    (hbeyond : f.gridMax < (roundRat rm false n 1 (a + f.bias)).1) : roundInto f rm false n 1 a = (f.rangeEnd false, fSAT + fINX) := by
  rw [roundInto, if_neg hn, if_pos hgrid]
  exact if_pos hbeyond

theorem narrow_div_two (j x : Nat) : narrow j x / 2 ^ 1 = x / 2 ^ (j + 1) := by
  rw [narrow]
  split <;> omega

section
variable {f : Fmt} (hf : Narrower f) (rm : Rm) {x j : Nat} (hbig : 2 ^ 61 ≤ narrow j x) (a : Int)
include hbig

theorem le_div_of_le_narrow : 2 ^ 60 ≤ x / 2 ^ (j + 1) := by
  have := narrow_div_two j x
  omega

theorem ne_zero_of_le_narrow : x ≠ 0 := by
  have := le_div_of_le_narrow hbig
  rintro rfl
  simp at this

theorem log2_eq_log2_narrow : x.log2 = (narrow j x).log2 + j := by
  have hhigh := le_div_of_le_narrow hbig
  rw [log2_of_div_two_pow (by omega) (rfl : x / 2 ^ (j + 1) = _), log2_of_div_two_pow (by omega) (narrow_div_two j x)]
  omega

include hf

/-- Onto a grid a number of 61 bits and more rounds as it does narrowed: both are beyond the grid, or its step is above the sticky bit. -/
theorem roundInto_narrow_grid (hgrid : f.ebits = 0) : roundInto f rm false x 1 a = roundInto f rm false (narrow j x) 1 (a + j) := by
  have hx := ne_zero_of_le_narrow hbig
  have hy : narrow j x ≠ 0 := by omega
  rcases lt_or_ge (a + j + f.bias + 1) 0 with hfine | hcoarse
  · obtain ⟨c, hc⟩ : ∃ c : Nat, a + j + f.bias = -c := ⟨(-(a + j + f.bias)).toNat, by omega⟩
    have hsame : roundRat rm false x 1 (a + f.bias) = roundRat rm false (narrow j x) 1 (a + j + f.bias) := by
      rw [hc, roundRat, roundRat, ← roundRatBy_narrow _ rm false x j (by omega : 2 ≤ c)]
      exact congrArg _ (by push_cast; omega)
    rw [roundInto, roundInto, if_neg hx, if_neg hy, if_pos hgrid, if_pos hgrid, hsame]
  · have hhigh := le_div_of_le_narrow hbig
    have hmax := hf.gridMax_lt hgrid
    have hxmax := le_roundRat rm false (n := x) (j := j + 1) (a := a + f.bias) (by push_cast; omega)
    have hymax := le_roundRat rm false (n := narrow j x) (j := 1) (a := a + j + f.bias) (by push_cast; omega)
    rw [narrow_div_two j x] at hymax
    rw [roundInto_beyond_grid hgrid hx (by omega), roundInto_beyond_grid hgrid hy (by omega)]

/-- With an exponent field likewise: every step that the rounding looks at is 9 bits and more above the sticky bit. -/
theorem roundInto_narrow_exponent (hexp : f.ebits ≠ 0) : roundInto f rm false x 1 a = roundInto f rm false (narrow j x) 1 (a + j) := by
  have hx := ne_zero_of_le_narrow hbig
  have hy : narrow j x ≠ 0 := by omega
  have hlog := log2_eq_log2_narrow hbig
  have hbits : 61 ≤ (narrow j x).log2 := (Nat.le_log2 hy).2 hbig
  have hfraction := hf.mbits_le
  have hk : ilog2Rat x 1 + a = ilog2Rat (narrow j x) 1 + (a + j) := by
    rw [ilog2Rat_one hx, ilog2Rat_one hy]
    omega
  have hround (odd : Nat → Bool) {b b' : Int} (hb : b' = b + j) (hstep : b' + (narrow j x).log2 ≤ f.mbits) :
      roundRatBy odd rm false x 1 b = roundRatBy odd rm false (narrow j x) 1 b' := by
    obtain ⟨c, hc⟩ : ∃ c : Nat, b' = -c := ⟨(-b').toNat, by omega⟩
    rw [hc, ← roundRatBy_narrow odd rm false x j (by omega : 2 ≤ c)]
    exact congrArg _ (by push_cast; omega)
  have hquantum (odd : Nat → Bool) (q : Int) (hq : ilog2Rat (narrow j x) 1 + (a + j) - f.mbits ≤ q) :
      roundRatBy odd rm false x 1 (a - q) = roundRatBy odd rm false (narrow j x) 1 (a + j - q) := by
    rw [ilog2Rat_one hy] at hq
    exact hround odd (by omega) (by omega)
  have hwide (odd : Nat → Bool) : roundRatBy odd rm false x 1 (a - (ilog2Rat (narrow j x) 1 + (a + j)) + f.mbits) =
      roundRatBy odd rm false (narrow j x) 1 (a + j - (ilog2Rat (narrow j x) 1 + (a + j)) + f.mbits) := by
    rw [ilog2Rat_one hy]
    exact hround odd (by omega) (by omega)
  rw [roundInto, roundInto, if_neg hx, if_neg hy, if_neg hexp, if_neg hexp]
  dsimp only
  rw [hk, hquantum _ _ (Int.sub_le_sub_right (le_max_left _ _) _), hwide]

/-- Into a format a number of 61 bits and more rounds as it does narrowed. -/
theorem roundInto_narrow : roundInto f rm false x 1 a = roundInto f rm false (narrow j x) 1 (a + j) := by
  by_cases hgrid : f.ebits = 0
  · exact roundInto_narrow_grid hf rm hbig a hgrid
  · exact roundInto_narrow_exponent hf rm hbig a hgrid

end

/-- Roots to different numbers of bits, 60 and more, round alike. -/
theorem roundInto_stickyRoot {f : Fmt} (hf : Narrower f) (rm : Rm) {D N r r' j : Nat} (hD : 0 < D) (h : IsRoot D N r)
    (h' : IsRoot D (N * 4 ^ j) r') (hbits : 2 ^ 60 ≤ r) (a : Int) :
    roundInto f rm false (stickyRoot D (N * 4 ^ j) r') 1 (a - j) = roundInto f rm false (stickyRoot D N r) 1 a := by
  have hnarrow := narrow_stickyRoot hD h h'
  have hbig : 2 ^ 61 ≤ narrow j (stickyRoot D (N * 4 ^ j) r') := by
    rw [hnarrow, stickyRoot]
    omega
  rw [roundInto_narrow hf rm hbig, hnarrow, Int.sub_add_cancel]

/-- The rounding of the root of (n / D) * 2^t, times 2^(a - t/2): the same from every precision of 60 bits on. -/
theorem roundInto_root_precision {f : Fmt} (hf : Narrower f) (rm : Rm) {D n t t' r r' : Nat} {a : Int} (hD : 0 < D)
    (ht : (a - t) % 2 = 0) (ht' : (a - t') % 2 = 0) (h : IsRoot D (n * 2 ^ t) r) (h' : IsRoot D (n * 2 ^ t') r')
    (hbits : 2 ^ 60 ≤ r) (hbits' : 2 ^ 60 ≤ r') :
    roundInto f rm false (stickyRoot D (n * 2 ^ t) r) 1 ((a - t) / 2 - 1) =
      roundInto f rm false (stickyRoot D (n * 2 ^ t') r') 1 ((a - t') / 2 - 1) := by
  wlog hle : t ≤ t' generalizing t t' r r'
  · exact (this ht' ht h' h hbits' hbits (by omega)).symm
  obtain ⟨j, rfl⟩ : ∃ j, t' = t + 2 * j := ⟨(t' - t) / 2, by omega⟩
  have hN : n * 2 ^ (t + 2 * j) = n * 2 ^ t * 4 ^ j := by rw [Nat.pow_add, Nat.pow_mul, Nat.mul_assoc]
  rw [hN] at h' ⊢
  rw [← roundInto_stickyRoot hf rm hD h h' hbits]
  exact congrArg _ (by push_cast; omega)

-- The roots of the model -------------------------------------------------------------------------------------------------------------------

theorem IsRoot.le_of_bits {D N r b : Nat} (h : IsRoot D N r) (hb : 4 ^ b * D ≤ N) : 2 ^ b ≤ r := by
  refine h.le_of_sq_le (hb.trans' (le_of_eq ?_))
  rw [show (4 : Nat) = 2 * 2 by rfl, Nat.mul_pow]

/-- The bits that the model adds for a root, and for the root of an inverse (R58): to an even exponent. -/
def sqrtShift (e : Int) : Nat := if e % 2 = 0 then 200 else 201
def rsqShift (m : Nat) (e : Int) : Nat := if (e + (m.log2 + 220 : Nat)) % 2 = 0 then m.log2 + 220 else m.log2 + 220 + 1

theorem sqrtNum_pos (f : Fmt) (rm : Rm) {m : Nat} (hm : m ≠ 0) (e : Int) : sqrtNum f rm (.fin false m e) =
    roundInto f rm false (stickyRoot 1 (m * 2 ^ sqrtShift e) (isqrt (m * 2 ^ sqrtShift e))) 1 ((e - sqrtShift e) / 2 - 1) := by
  simp [sqrtNum, hm, stickyRoot, sqrtShift]

theorem sqrtNum_neg (f : Fmt) (rm : Rm) {m : Nat} (hm : m ≠ 0) (e : Int) : sqrtNum f rm (.fin true m e) = encodeNum f rm (.nan true) := by
  simp [sqrtNum, hm, invalidNum]

theorem rsqNum_neg (f : Fmt) (rm : Rm) {m : Nat} (hm : m ≠ 0) (e : Int) : rsqNum f rm (.fin true m e) = encodeNum f rm (.nan true) := by
  simp [rsqNum, hm, invalidNum]

theorem rsqNum_pos (f : Fmt) (rm : Rm) {m : Nat} (hm : m ≠ 0) (e : Int) : rsqNum f rm (.fin false m e) =
    roundInto f rm false (stickyRoot m (2 ^ rsqShift m e) (isqrt (2 ^ rsqShift m e / m))) 1 (-((e + rsqShift m e) / 2) - 1) := by
  simp [rsqNum, hm, stickyRoot, rsqShift]

/-- The model's root rounds as one of any other 60 bits or more. -/
theorem sqrtNum_eq_of_root {f : Fmt} (hf : Narrower f) (rm : Rm) {m t r : Nat} {e : Int} (ht : (e - t) % 2 = 0)
    (hlo : r * r ≤ m * 2 ^ t) (hhi : m * 2 ^ t < (r + 1) * (r + 1)) (hbits : 2 ^ 60 ≤ r) :
    sqrtNum f rm (.fin false m e) = roundInto f rm false (2 * r + if r * r = m * 2 ^ t then 0 else 1) 1 ((e - t) / 2 - 1) := by
  have hm : m ≠ 0 := by
    rintro rfl
    rw [Nat.zero_mul, Nat.le_zero, mul_self_eq_zero] at hlo
    omega
  have hroot : IsRoot 1 (m * 2 ^ t) r := ⟨by rwa [Nat.mul_one], by rwa [Nat.mul_one]⟩
  have heven : (e - sqrtShift e) % 2 = 0 := by
    unfold sqrtShift
    split <;> omega
  have henough : 4 ^ 60 * 1 ≤ m * 2 ^ sqrtShift e := by
    have hshift : 200 ≤ sqrtShift e := by unfold sqrtShift; split <;> omega
    calc 4 ^ 60 * 1 ≤ 2 ^ 200 := by decide
      _ ≤ 2 ^ sqrtShift e := Nat.pow_le_pow_right Nat.two_pos hshift
      _ ≤ m * 2 ^ sqrtShift e := Nat.le_mul_of_pos_left _ (Nat.pos_of_ne_zero hm)
  have hmodel := isqrt_isRoot (m * 2 ^ sqrtShift e)
  have hround := roundInto_root_precision hf rm Nat.one_pos heven ht hmodel hroot (hmodel.le_of_bits henough) hbits
  rw [sqrtNum_pos f rm hm, hround, stickyRoot, Nat.mul_one]

theorem rsqNum_eq_of_root {f : Fmt} (hf : Narrower f) (rm : Rm) {m t r : Nat} {e : Int} (ht : (e + t) % 2 = 0)
    (hlo : r * r * m ≤ 2 ^ t) (hhi : 2 ^ t < (r + 1) * (r + 1) * m) (hbits : 2 ^ 60 ≤ r) :
    rsqNum f rm (.fin false m e) = roundInto f rm false (2 * r + if r * r * m = 2 ^ t then 0 else 1) 1 (-((e + t) / 2) - 1) := by
  have hm : m ≠ 0 := by
    rintro rfl
    exact Nat.not_lt_zero _ hhi
  have hroot : IsRoot m (2 ^ t) r := ⟨hlo, hhi⟩
  have heven : (e + rsqShift m e) % 2 = 0 := by
    unfold rsqShift
    split <;> omega
  have henough : 4 ^ 60 * m ≤ 2 ^ rsqShift m e := by
    have hshift : 120 + (m.log2 + 1) ≤ rsqShift m e := by unfold rsqShift; split <;> omega
    calc 4 ^ 60 * m ≤ 2 ^ 120 * 2 ^ (m.log2 + 1) := Nat.mul_le_mul (by decide) Nat.lt_log2_self.le
      _ = 2 ^ (120 + (m.log2 + 1)) := (Nat.pow_add ..).symm
      _ ≤ 2 ^ rsqShift m e := Nat.pow_le_pow_right Nat.two_pos hshift
  have hmodel := isqrt_div_isRoot (Nat.pos_of_ne_zero hm) (2 ^ rsqShift m e)
  have hhalf {u : Nat} (hu : (e + u) % 2 = 0) : -((e + u) / 2) - 1 = (-e - u) / 2 - 1 := by omega
  have hround := roundInto_root_precision hf rm (n := 1) (a := -e) (Nat.pos_of_ne_zero hm) (by omega : (-e - rsqShift m e) % 2 = 0)
    (by omega : (-e - t) % 2 = 0) (by rwa [Nat.one_mul]) (by rwa [Nat.one_mul]) (hmodel.le_of_bits henough) hbits
  rw [rsqNum_pos f rm hm, hhalf heven, hhalf ht]
  simpa only [Nat.one_mul, stickyRoot] using hround

end Sys2Proof.Proofs
end

