-- ==== Sys2Proof/Proofs/SpecialFunctions.lean ====
section
/-! PROOF. The special functions on one lane (R57 to R67): the exact cases and, on f32, the algorithms as they are stated. -/

namespace Sys2Proof.Proofs

open Sys2Proof Sys2Proof.Machine Sys2Proof.Claims Sys2Proof.Laws

-- Division ---------------------------------------------------------------------------------------------------------------------------------

theorem divNum_nan (f : Fmt) (rm : Rm) {x y : Machine.Num} (h : x.isNan = true ∨ y.isNan = true) :
    divNum f rm x y = encodeNum f rm (.nan (x.isSig || y.isSig)) := by
  cases x with
  | nan a => cases y <;> simp [divNum, Machine.Num.isSig]
  | inf _ | fin _ _ _ => cases y <;> simp_all [divNum, Machine.Num.isNan, Machine.Num.isSig]

theorem rcpNum_fin (f : Fmt) (rm : Rm) (v : Bool) (n : Nat) (e : Int) :
    rcpNum f rm (.fin v n e) = if n = 0 then encodeNum f rm (.inf v) else roundInto f rm v 1 n (-e) := by
  simp [rcpNum, divNum]

theorem rcpNum_inf (f : Fmt) (rm : Rm) (u : Bool) : rcpNum f rm (.inf u) = encodeNum f rm (.fin u 0 0) := by simp [rcpNum, divNum]

-- Exact arguments --------------------------------------------------------------------------------------------------------------------------

theorem exactQuotient_eq_some_iff {P : Nat} (hP : 0 < P) (m k : Nat) :
    (if m % P = 0 then some (m / P) else none) = some k ↔ m = k * P := by
  split
  case isTrue h =>
    rw [Option.some_inj]
    exact Nat.div_eq_iff_eq_mul_left hP (Nat.dvd_of_mod_eq_zero h)
  case isFalse h =>
    refine ⟨fun hnone => (Option.some_ne_none k hnone.symm).elim, ?_⟩
    rintro rfl
    exact (h (Nat.mul_mod_left k P)).elim

/-- m * 2^e is the integer k. -/
theorem asInteger_eq_some_iff (m : Nat) (e : Int) (k : Nat) : asInteger m e = some k ↔ m * 2 ^ e.toNat = k * 2 ^ (-e).toNat := by
  unfold asInteger
  split
  case isTrue hpos => simp [show (-e).toNat = 0 by omega]
  case isFalse hneg =>
    rw [show e.toNat = 0 by omega, Nat.pow_zero, Nat.mul_one]
    exact exactQuotient_eq_some_iff (Nat.two_pow_pos _) m k

/-- m * 2^e is h halves. -/
theorem halves_eq_some_iff (m : Nat) (e : Int) (h : Nat) : halves m e = some h ↔ 2 * m * 2 ^ e.toNat = h * 2 ^ (-e).toNat := by
  unfold halves
  rcases lt_trichotomy e (-1) with hlow | rfl | hhigh
  · have hexp : (-e).toNat = (-(e + 1)).toNat + 1 := by omega
    rw [if_neg (by omega), hexp, show e.toNat = 0 by omega, Nat.pow_zero, Nat.mul_one, Nat.pow_succ', Nat.mul_left_comm,
      Nat.mul_right_inj two_ne_zero]
    exact exactQuotient_eq_some_iff (Nat.two_pow_pos _) m h
  · simp [Nat.mul_comm 2]
  · have hexp : (e + 1).toNat = e.toNat + 1 := by omega
    rw [if_pos (by omega), hexp, show (-e).toNat = 0 by omega, Nat.pow_zero, Nat.mul_one, Nat.pow_succ', Option.some_inj,
      Nat.mul_left_comm, Nat.mul_assoc]

theorem asInteger_eq_none {m : Nat} {e : Int} (h : ∀ k : Nat, m * 2 ^ e.toNat ≠ k * 2 ^ (-e).toNat) : asInteger m e = none :=
  Option.eq_none_iff_forall_ne_some.2 fun k hk => h k ((asInteger_eq_some_iff m e k).1 hk)

theorem halves_eq_none {m : Nat} {e : Int} (h : ∀ k : Nat, 2 * m * 2 ^ e.toNat ≠ k * 2 ^ (-e).toNat) : halves m e = none :=
  Option.eq_none_iff_forall_ne_some.2 fun k hk => h k ((halves_eq_some_iff m e k).1 hk)

-- Exact cases (R67) ------------------------------------------------------------------------------------------------------------------------

section
variable {u : Bool} {m : Nat} {e : Int} (hm : m ≠ 0)
include hm

theorem exactCase_log2_neg : exactCase .log2 (.fin true m e) = some (.nan true) := by simp [exactCase, hm, invalidNum]

theorem exactCase_log_neg : exactCase .log (.fin true m e) = some (.nan true) := by simp [exactCase, hm, invalidNum]

theorem exactCase_exp2_integer {k : Nat} (hk : m * 2 ^ e.toNat = k * 2 ^ (-e).toNat) (hle : k ≤ 1024) :
    exactCase .exp2 (.fin u m e) = some (.fin false 1 (if u then -(k : Int) else k)) := by
  simp [exactCase, hm, (asInteger_eq_some_iff m e k).2 hk, hle]

theorem exactCase_sinpi_halves {h : Nat} (hh : 2 * m * 2 ^ e.toNat = h * 2 ^ (-e).toNat) :
    exactCase .sinpi (.fin u m e) = some (if h % 2 = 0 then .fin u 0 0 else .fin (u != decide (h % 4 = 3)) 1 0) := by
  have hquarter : h % 4 = 0 ∨ h % 4 = 1 ∨ h % 4 = 2 ∨ h % 4 = 3 := by omega
  rw [← Nat.mod_mod_of_dvd h (by decide : 2 ∣ 4)]
  rcases hquarter with hq | hq | hq | hq <;> simp [exactCase, hm, (halves_eq_some_iff m e h).2 hh, hq]

theorem exactCase_cospi_halves {h : Nat} (hh : 2 * m * 2 ^ e.toNat = h * 2 ^ (-e).toNat) :
    exactCase .cospi (.fin u m e) = some (if h % 2 = 1 then .fin false 0 0 else .fin (decide (h % 4 = 2)) 1 0) := by
  have hquarter : h % 4 = 0 ∨ h % 4 = 1 ∨ h % 4 = 2 ∨ h % 4 = 3 := by omega
  rw [← Nat.mod_mod_of_dvd h (by decide : 2 ∣ 4)]
  rcases hquarter with hq | hq | hq | hq <;> simp [exactCase, hm, (halves_eq_some_iff m e h).2 hh, hq]

theorem exactCase_exp2_none (h : ∀ k : Nat, m * 2 ^ e.toNat ≠ k * 2 ^ (-e).toNat) : exactCase .exp2 (.fin u m e) = none := by
  simp [exactCase, hm, asInteger_eq_none h]

theorem exactCase_exp_none : exactCase .exp (.fin u m e) = none := by simp [exactCase, hm]

theorem exactCase_tanh_none : exactCase .tanh (.fin u m e) = none := by simp [exactCase, hm]

theorem exactCase_sinpi_none (h : ∀ k : Nat, 2 * m * 2 ^ e.toNat ≠ k * 2 ^ (-e).toNat) : exactCase .sinpi (.fin u m e) = none := by
  simp [exactCase, hm, halves_eq_none h]

theorem exactCase_cospi_none (h : ∀ k : Nat, 2 * m * 2 ^ e.toNat ≠ k * 2 ^ (-e).toNat) : exactCase .cospi (.fin u m e) = none := by
  simp [exactCase, hm, halves_eq_none h]

theorem exactCase_log_none (h : m ≠ 2 ^ m.log2 ∨ (m.log2 : Int) + e ≠ 0) : exactCase .log (.fin false m e) = none := by
  rcases h with h | h <;> simp [exactCase, hm, h, Ne.symm h]

theorem exactCase_log2_none (h : m ≠ 2 ^ m.log2) : exactCase .log2 (.fin false m e) = none := by
  simp [exactCase, hm, h.symm]

end

theorem exactCase_log2_pow (p : Nat) (e : Int) :
    exactCase .log2 (.fin false (2 ^ p) e) = some (.fin (p + e < 0) (p + e).natAbs 0) := by
  simp [exactCase, Nat.log2_two_pow]

theorem exactCase_log_one {p : Nat} {e : Int} (h : p + e = 0) : exactCase .log (.fin false (2 ^ p) e) = some (.fin false 0 0) := by
  simp [exactCase, Nat.log2_two_pow, h]

-- One lane ---------------------------------------------------------------------------------------------------------------------------------

theorem fnF32_of_exact {g : Fn} {x y : Machine.Num} (h : exactCase g x = some y) : fnF32 g x = encodeNum fmtF32 .rne y := by
  unfold fnF32
  rw [h]

theorem fnSmall_of_exact (D : Fmt) {g : Fn} {x y : Machine.Num} (h : exactCase g x = some y) : fnSmall D g x = encodeNum D .rne y := by
  unfold fnSmall
  rw [h]

theorem fnSmall_of_inexact (D : Fmt) {g : Fn} {u : Bool} {m : Nat} {e : Int} (h : exactCase g (.fin u m e) = none) :
    fnSmall D g (.fin u m e) = encodeNum D .rne (fnReal g u m e) := by
  unfold fnSmall
  rw [h]

/-- In an exact case the listed result is written, in every type. -/
theorem fnLane_of_exact {g : Fn} {dA dB a : Nat} {t : Ty} {x y : Machine.Num} (hx : decodeNum (fmtOf t dA) a = x)
    (hexact : exactCase g x = some y) : fnLane g dA dB t a = encodeNum (fmtOf t dB) .rne y := by
  unfold fnLane laneNum
  split
  case isTrue hf32 =>
    subst hf32
    rw [hx]
    exact fnF32_of_exact hexact
  case isFalse => rw [hx, fnSmall_of_exact _ hexact]

/-- Outside f32 the model rounds one value of function and operand, whatever the destination format is (R57). -/
theorem fnSmall_rounds_one_value (g : Fn) (u : Bool) (m : Nat) (e : Int) :
    ∃ y : Machine.Num, ∀ D : Fmt, fnSmall D g (.fin u m e) = encodeNum D .rne y := by
  cases hexact : exactCase g (.fin u m e) with
  | some y => exact ⟨y, fun D => fnSmall_of_exact D hexact⟩
  | none => exact ⟨fnReal g u m e, fun D => fnSmall_of_inexact D hexact⟩

-- Inexact cases on f32 ---------------------------------------------------------------------------------------------------------------------

theorem fnF32_exp2 {x : Machine.Num} (h : exactCase .exp2 x = none) : fnF32 .exp2 x = exp2F32 x := by
  unfold fnF32
  rw [h]

theorem fnF32_exp {x : Machine.Num} (h : exactCase .exp x = none) : fnF32 .exp x = expF32 x := by
  unfold fnF32
  rw [h]

theorem fnF32_tanh {x : Machine.Num} (h : exactCase .tanh x = none) : fnF32 .tanh x = tanhF32 x := by
  unfold fnF32
  rw [h]

theorem fnF32_sinpi {x : Machine.Num} (h : exactCase .sinpi x = none) : fnF32 .sinpi x = trigF32 false x := by
  unfold fnF32
  rw [h]

theorem fnF32_cospi {x : Machine.Num} (h : exactCase .cospi x = none) : fnF32 .cospi x = trigF32 true x := by
  unfold fnF32
  rw [h]

theorem fnF32_log {u : Bool} {m : Nat} {e : Int} (h : exactCase .log (.fin u m e) = none) : fnF32 .log (.fin u m e) = logF32 m e := by
  unfold fnF32
  rw [h]

theorem fnF32_log2 {u : Bool} {m : Nat} {e : Int} (h : exactCase .log2 (.fin u m e) = none) : fnF32 .log2 (.fin u m e) = log2F32 m e := by
  unfold fnF32
  rw [h]

-- The algorithms on f32 (R60 to R66) --------------------------------------------------------------------------------------------------------

theorem mul_comm_num (x y : Machine.Num) : x.mul y = y.mul x := by
  cases x <;> cases y <;> simp [Machine.Num.mul, Bool.or_comm, bne_comm, Nat.mul_comm, Int.add_comm]

theorem fma32_comm (a b c : Machine.Num) : fma32 a b c = fma32 b a c := by rw [fma32, mul_comm_num, fma32]

/-- A polynomial in `w` by Horner's rule, each step a fused multiply-add, from the highest coefficient on. -/
def horner32 (w : Machine.Num) (c : Nat) (l : List Nat) : Machine.Num := l.foldl (fun p c => fma32 p w (k32 c)) (k32 c)

theorem exp2F32_eq (v : Machine.Num) : exp2F32 v =
    if v.cmp (intNum 129) = 1 then (0x7F800000, fOVF + fINX) else if v.cmp (intNum (-152)) = -1 then (0, fUFL + fINX)
    else
      let kf := rint (v.scale 5)
      let r := Machine.Num.add .rne v ((intNum kf).scale (-5)).neg
      final32 (expTail kf (rd32 ((horner32 r 0x3D635847 [0x3E75FDF0, 0x3F317218]).mul r))) := by
  simp only [exp2F32, horner32, List.foldl_cons, List.foldl_nil]
  rw [fma32_comm _ (k32 0x3D635847)]

/-- VTANH by its ranges (R64): a small operand is its own result, from 10 on the result is 1, and between them it is a quotient. -/
theorem tanhF32_eq (x : Machine.Num) : tanhF32 x =
    let y := absNum x
    if y.cmp (.fin false 1 (-12)) = -1 then
      ((encodeNum fmtF32 .rne x).1, if y.cmp (.fin false 1 (-126)) = -1 then fINX + fUFL else fINX)
    else if y.cmp (intNum 10) ≠ -1 then ((encodeNum fmtF32 .rne (.fin x.isNeg 1 0)).1, fINX)
    else
      let em := rd32 (Machine.Num.add .rne (expTail (expParts (y.scale 1)).1 (expParts (y.scale 1)).2) (.fin true 1 0))
      let r := divNum fmtF32 .rne (signNum x.isNeg em) (rd32 (Machine.Num.add .rne em (intNum 2)))
      (r.1, (r.2 &&& (fOVF + fUFL)) ||| fINX) := by
  simp only [tanhF32]

/-- The mantissa's reduction to the middle of its octave, with its exponent (R65). -/
theorem logReduce_eq (m : Nat) (e : Int) :
    let m0 : Machine.Num := .fin false m (-m.log2)
    let half := m0.cmp (k32 0x3FB504F3) = 1
    logReduce m e = (if half then m0.scale (-1) else m0, (m.log2 : Int) + e + (if half then 1 else 0)) := by
  dsimp only [logReduce]
  split
  · rw [Int.add_comm e]
  · rw [Int.add_comm e, Int.add_zero]

/-- The quarter turn that a sine comes from, of the sine and the cosine of the angle left (R66). -/
def quarterTurn (sc : Machine.Num × Machine.Num) (n : Int) : Machine.Num :=
  if n % 4 = 0 then sc.1 else if n % 4 = 1 then sc.2 else if n % 4 = 2 then sc.1.neg else sc.2.neg

theorem trigF32_eq (cos : Bool) (v : Machine.Num) :
    let z := Machine.Num.add .rne v (intNum (2 * rint (v.scale (-1)))).neg
    let jj := rint (z.scale 1)
    let r := Machine.Num.add .rne z ((intNum jj).scale (-1)).neg
    trigF32 cos v = final32 (quarterTurn (sinCos32 r) (if cos then jj + 1 else jj)) := by
  intro z jj r
  have hquarter : jj % 4 = 0 ∨ jj % 4 = 1 ∨ jj % 4 = 2 ∨ jj % 4 = 3 := by omega
  have hmodel : trigF32 cos v = final32 (match (if cos then ((jj % 4).toNat + 1) % 4 else (jj % 4).toNat) with
      | 0 => (sinCos32 r).1 | 1 => (sinCos32 r).2 | 2 => (sinCos32 r).1.neg | _ => (sinCos32 r).2.neg) := rfl
  rw [hmodel]
  cases cos <;> rcases hquarter with hq | hq | hq | hq <;> simp [quarterTurn, hq, Int.add_emod]

end Sys2Proof.Proofs
end

