-- ==== Sys2Proof/Proofs/VectorFunctions.lean ====
section
/-! PROOF. Division, roots, the special functions and draws of the vector engine (R229, R230, R243). -/

namespace Sys2Proof.Proofs

open Sys2Proof Sys2Proof.Machine Sys2Proof.Claims Sys2Proof.Laws

-- Shapes of command ------------------------------------------------------------------------------------------------------------------------

theorem laneWise_arith2 {s : State} {i : Instr} {o : VOps} {delay : Nat} {run : Nat → Nat → Nat → Nat → Nat × Flags}
    (hexec : exec i s = arith2 o delay run s) : laneWise s i (o.ty == .nf) true o.vd [o.va, o.vb] o.prd o.z o.ty [] delay
      (fun e => run (formatA s) (formatB s) (elem s o.ty o.va.toNat e) (elem s o.ty o.vb.toNat e)) :=
  laneWise_of_veLanes hexec .nil fun e => by rw [descA_cur, descB_cur]; exact ⟨rfl, rfl⟩

theorem laneWise_arith1 {s : State} {i : Instr} {q : VOps1} {delay : Nat} {run : Nat → Nat → Nat → Nat × Flags}
    (hexec : exec i s = arith1 q delay run s) : laneWise s i (q.ty == .nf) true q.vd [q.va] q.prd q.z q.ty [] delay
      (fun e => run (formatA s) (formatB s) (elem s q.ty q.va.toNat e)) :=
  laneWise_of_veLanes hexec .nil fun e => by rw [descA_cur, descB_cur]; exact ⟨rfl, rfl⟩

theorem laneWise_fn {s : State} {i : Instr} {q : VOps1} (g : Fn) (hexec : exec i s = arith1 q 12 (fun dA dB a => fnLane g dA dB q.ty a) s) :
    laneWise s i (q.ty == .nf) true q.vd [q.va] q.prd q.z q.ty [] 12
      (fun e => fnLane g (formatA s) (formatB s) q.ty (elem s q.ty q.va.toNat e)) :=
  laneWise_arith1 hexec

-- One lane ---------------------------------------------------------------------------------------------------------------------------------

section
variable {t : Ty} {dA dB a b : Nat} {rm : Rm} {x y : Machine.Num} (hx : decodeNum (fmtOf t dA) a = x)
include hx

theorem divLane_of_values (hy : decodeNum (fmtOf t dA) b = y) : divLane dA dB t rm a b = divNum (fmtOf t dB) rm x y := by
  rw [divLane, laneNum, laneNum, hx, hy]

theorem rcpLane_of_value : rcpLane dA dB t rm a = rcpNum (fmtOf t dB) rm x := by rw [rcpLane, laneNum, hx]

theorem sqrtLane_of_value : sqrtLane dA dB t rm a = sqrtNum (fmtOf t dB) rm x := by rw [sqrtLane, laneNum, hx]

theorem rsqLane_of_value : rsqLane dA dB t rm a = rsqNum (fmtOf t dB) rm x := by rw [rsqLane, laneNum, hx]

theorem fnLane_f32 (ht : t = .f32) (g : Fn) : fnLane g dA dB t a = fnF32 g x := by rw [fnLane, if_pos ht, laneNum, hx]

theorem fnLane_small (ht : t ≠ .f32) (g : Fn) : fnLane g dA dB t a = fnSmall (fmtOf t dB) g x := by rw [fnLane, if_neg ht, laneNum, hx]

end

/-- Settles O37: each command is a lane-wise operation; a root by its independence of the precision, a function by its exact cases and,
on f32, its algorithm. -/
theorem vectorDivisionAndFunctions : Obligations.VectorDivisionAndFunctions := by
  intro s o q rm vd prd zz ty
  dsimp only
  have hformat : Narrower (fmtOf q.ty (formatB s)) := narrower_fmtOf _ _
  have hdiv := laneWise_arith2 (s := s) (i := .vdiv o rm) (run := fun dA dB a b => divLane dA dB o.ty rm a b) rfl
  have hrcp := laneWise_arith1 (s := s) (i := .vrcp q rm) (run := fun dA dB a => rcpLane dA dB q.ty rm a) rfl
  have hsqrt := laneWise_arith1 (s := s) (i := .vsqrt q rm) (run := fun dA dB a => sqrtLane dA dB q.ty rm a) rfl
  have hrsq := laneWise_arith1 (s := s) (i := .vrsq q rm) (run := fun dA dB a => rsqLane dA dB q.ty rm a) rfl
  refine ⟨⟨_, hdiv, fun a b m n d e u v ha hb => divLane_of_values ha hb⟩,
    ⟨_, hdiv, fun a b => ⟨fun h => divNum_nan _ _ h, fun u v ha hb => divLane_of_values ha hb, fun u v n e ha hb => divLane_of_values ha hb,
      fun u v m d ha hb => divLane_of_values ha hb⟩⟩,
    ⟨_, _, _, hrcp, hsqrt, hrsq, fun a => ⟨?rootNan, ?rootInf⟩⟩, ⟨_, hrcp, ?rcp⟩, ⟨_, hsqrt, ?sqrt⟩, ⟨_, hrsq, ?rsq⟩,
    ⟨fun g a => fnLane g (formatA s) (formatB s) q.ty a, laneWise_fn .exp2 rfl, laneWise_fn .log2 rfl, laneWise_fn .exp rfl,
      laneWise_fn .log rfl, laneWise_fn .sinpi rfl, laneWise_fn .cospi rfl, laneWise_fn .tanh rfl,
      fun g a b hx => fnLane_of_exact hx rfl, ?fnInf, ?fnZero, ?fnFinite⟩, ?rand⟩
  case rootNan => exact fun b hx => ⟨rcpLane_of_value hx, sqrtLane_of_value hx, rsqLane_of_value hx⟩
  case rootInf => exact fun u hx => ⟨(rcpLane_of_value hx).trans (rcpNum_inf _ _ u), sqrtLane_of_value hx, rsqLane_of_value hx⟩
  case rcp => exact fun b n e v hx => (rcpLane_of_value hx).trans (rcpNum_fin _ _ v n e)
  case sqrt =>
    intro a m e u hx
    rw [sqrtLane_of_value hx]
    refine ⟨?_, ?_, ?_⟩
    · rintro rfl
      rfl
    · rintro hm rfl
      exact sqrtNum_neg _ _ hm e
    · rintro rfl t r
      exact sqrtNum_eq_of_root hformat rm
  case rsq =>
    intro a m e u hx
    rw [rsqLane_of_value hx]
    refine ⟨?_, ?_, ?_⟩
    · rintro rfl
      rfl
    · rintro hm rfl
      exact rsqNum_neg _ _ hm e
    · rintro rfl t r
      exact rsqNum_eq_of_root hformat rm
  case fnInf =>
    intro a u hx
    dsimp only
    have lands {g : Fn} {y : Machine.Num} (h : exactCase g (.inf u) = some y) := fnLane_of_exact (dB := formatB s) hx h
    have hexp2 := lands (g := .exp2) rfl
    have hlog2 := lands (g := .log2) rfl
    exact ⟨hexp2, (lands (g := .exp) rfl).trans hexp2.symm, hlog2, (lands (g := .log) rfl).trans hlog2.symm, lands rfl, lands rfl, lands rfl⟩
  case fnZero =>
    intro a u e hx
    dsimp only
    have lands {g : Fn} {y : Machine.Num} (h : exactCase g (.fin u 0 e) = some y) := fnLane_of_exact (dB := formatB s) hx h
    exact ⟨lands rfl, lands rfl, lands rfl, lands rfl, lands rfl, lands rfl, lands rfl⟩
  case rand =>
    refine laneWise_of_veLanes (show execVrand vd prd zz ty s = _ from rfl) .nil fun e => ?_
    cases ty <;> exact ⟨rfl, rfl⟩
  case fnFinite =>
    intro a u m e hx hm
    dsimp only
    have lands {g : Fn} {y : Machine.Num} (h : exactCase g (.fin u m e) = some y) := fnLane_of_exact (dB := formatB s) hx h
    refine ⟨?negative, ?power, ?integer, ?halves, ?small, ?single⟩
    case negative =>
      rintro rfl
      exact ⟨lands (exactCase_log2_neg hm), lands (exactCase_log_neg hm)⟩
    case power =>
      rintro p rfl rfl
      exact ⟨lands (exactCase_log2_pow p e), fun hone => lands (exactCase_log_one hone)⟩
    case integer => exact fun k hk hle => lands (exactCase_exp2_integer hm hk hle)
    case halves => exact fun h hh => ⟨lands (exactCase_sinpi_halves hm hh), lands (exactCase_cospi_halves hm hh)⟩
    case small =>
      intro ht g
      rw [hx]
      exact ⟨fnLane_small hx ht g, fnSmall_rounds_one_value g u m e⟩
    case single =>
      intro ht
      have hf32 : fmtOf q.ty (formatB s) = fmtF32 := by
        rw [ht]
        rfl
      simp only [hx, fnLane_f32 hx ht, hf32]
      refine ⟨?exp2, ?exp, ?tanh, ?log, ?trig⟩
      case exp2 =>
        intro h
        rw [fnF32_exp2 (exactCase_exp2_none hm h), exp2F32_eq]
        rfl
      case exp =>
        rw [fnF32_exp (exactCase_exp_none hm)]
        rfl
      case tanh =>
        rw [fnF32_tanh (exactCase_tanh_none hm)]
        exact tanhF32_eq _
      case log =>
        rintro rfl h
        rw [fnF32_log (exactCase_log_none hm h), logF32, logReduce_eq]
        refine ⟨rfl, fun h2 => ?_⟩
        rw [fnF32_log2 (exactCase_log2_none hm h2), log2F32, logReduce_eq]
        rfl
      case trig =>
        intro h
        rw [fnF32_sinpi (exactCase_sinpi_none hm h), fnF32_cospi (exactCase_cospi_none hm h), trigF32_eq, trigF32_eq]
        exact ⟨rfl, rfl⟩

end Sys2Proof.Proofs
end

