-- ==== Sys2Proof/Proofs/VectorAcrossLanes.lean ====
section
/-! PROOF. VSTEP checks its groups of four rows before the format word (R223, R241), against the order that O40 states. -/

namespace Sys2Proof.Proofs

open Sys2Proof Sys2Proof.Machine Sys2Proof.Claims Sys2Proof.Laws

/-- VSTEP whose destination group starts at v511 and so runs past the file, its keys nf codes. -/
def stepPastFile : Instr := .vstep 511 0 0 1 .nf false

/-- At reset no format word is queued either; the model raises illegal-encoding for the group. -/
theorem exec_stepPastFile_reset : exec stepPastFile State.reset = .next (faults State.reset 0x01 0 []) := rfl

/-- The code of the fault that stopped the executing core. -/
def stopCode (s : State) : Option Nat := (cur s).stop.map Stop.code

/-- Where taking a fault only changes the executing core, that core reads as it was changed. -/
theorem cur_faults {s : State} {code cause : Nat} {detail : List Word} {f : CoreState → CoreState}
    (htake : takeFault s s.ctx.core s.ctx.stream s.ctx.unit s.ctx.hdr.evt.toNat code cause detail = modCore s s.ctx.core f)
    (hf : f (cur s) ≠ {}) : cur (faults s code cause detail) = f (cur s) := by
  rw [faults, faultNow, htake]
  exact getCore_modCore s s.ctx.core f hf

/-- A core that no pour holds takes its fault by its stop record alone (R313). -/
theorem stop_faults {s : State} (hdom : domOf s s.ctx.core = none) (code cause : Nat) (detail : List Word) :
    (cur (faults s code cause detail)).stop = some (joinStop (cur s) false s.ctx.stream code cause detail 0 0 0) := by
  rw [cur_faults (by rw [takeFault, takeFaultFull, hdom])]
  exact fun h => Option.some_ne_none _ (congrArg CoreState.stop h)

theorem stopCode_faults_reset (code : Nat) : stopCode (faults State.reset code 0 []) = some code :=
  congrArg (Option.map Stop.code) (stop_faults (s := State.reset) rfl code 0 [])

/-- Refutes O40: a VSTEP.nf whose group runs past v511, with no format word queued. The statement puts the check of the format word
(0x05) first; the model answers the check of the group (0x01). -/
theorem not_vectorAcrossLanes : ¬ Obligations.VectorAcrossLanes := by
  unfold Obligations.VectorAcrossLanes
  intro h
  obtain ⟨-, -, -, -, -, -, -, -, ⟨hfaults, -⟩, -⟩ :=
    h State.reset ⟨0, 0, 0, .all, false, .nf⟩ ⟨0, 0, .all, false, .nf⟩ .rne 0 511 0 .all false .nf 0 1 false
  have hformat : exec stepPastFile State.reset = .next (faults State.reset 0x05 0 []) :=
    hfaults [] _ _ _ rfl (by simp) (fun hword => hword rfl rfl)
  have hsame : faults State.reset 0x01 0 [] = faults State.reset 0x05 0 [] :=
    Host.Outcome.next.inj (exec_stepPastFile_reset.symm.trans hformat)
  have hcodes := congrArg stopCode hsame
  rw [stopCode_faults_reset, stopCode_faults_reset] at hcodes
  exact absurd hcodes (by decide)

end Sys2Proof.Proofs
end

