-- ==== Sys2Proof/Proofs/TidyStep.lean ====
section
/-! PROOF. Every step keeps the canonical form (log 4): the laws of the meanings put together for exec, and for each act of the agenda. -/

namespace Sys2Proof.Proofs

open Sys2Proof Sys2Proof.Machine Sys2Proof.Claims Sys2Proof.Laws

/-- The answer of every instruction is in canonical form, by the law of its meaning. -/
theorem tidyOut_exec {s : State} (i : Instr) (h : Tidy s) : TidyOut (exec i s) := by
  cases i with
  | add => exact tidyOut_execAdd h
  | sub => exact tidyOut_execSub h
  | mul => exact tidyOut_execMul h
  | mulh => exact tidyOut_execMulh h
  | mulhn => exact tidyOut_execMulhn h
  | div => exact tidyOut_execDiv h
  | divn => exact tidyOut_execDivn h
  | rem => exact tidyOut_execRem h
  | remn => exact tidyOut_execRemn h
  | and => exact tidyOut_execAnd h
  | or => exact tidyOut_execOr h
  | xor => exact tidyOut_execXor h
  | shl => exact tidyOut_execShl h
  | shr => exact tidyOut_execShr h
  | sar => exact tidyOut_execSar h
  | sel => exact tidyOut_execSel h
  | min => exact tidyOut_execMin h
  | max => exact tidyOut_execMax h
  | minn => exact tidyOut_execMinn h
  | maxn => exact tidyOut_execMaxn h
  | seq => exact tidyOut_execSeq h
  | sne => exact tidyOut_execSne h
  | slt => exact tidyOut_execSlt h
  | sltn => exact tidyOut_execSltn h
  | aadd => exact tidyOut_execAadd h
  | acas => exact tidyOut_execAcas h
  | aswp => exact tidyOut_execAswp h
  | patch => exact tidyOut_execPatch h
  | fqpush => exact tidyOut_execFqpush h
  | addi => exact tidyOut_execAddi h
  | andi => exact tidyOut_execAndi h
  | ori => exact tidyOut_execOri h
  | xori => exact tidyOut_execXori h
  | shli => exact tidyOut_execShli h
  | shri => exact tidyOut_execShri h
  | sari => exact tidyOut_execSari h
  | slti => exact tidyOut_execSlti h
  | lim => exact tidyOut_execLim h
  | movi => exact tidyOut_execMovi h
  | lds => exact tidyOut_execLds h
  | sts => exact tidyOut_execSts h
  | ldm => exact tidyOut_execLdm h
  | stm => exact tidyOut_execStm h
  | br => exact tidyOut_execBr h
  | jmp => exact tidyOut_execJmp h
  | call => exact tidyOut_execCall h
  | ret => exact tidyOut_execRet h
  | sysrd => exact tidyOut_execSysrd h
  | syswr => exact tidyOut_execSyswr h
  | dccrd => exact tidyOut_execDccrd h
  | lcset => exact tidyOut_execLcset h
  | lcrd => exact tidyOut_execLcrd h
  | lcwait => exact tidyOut_execLcwait h
  | slack => exact tidyOut_execSlack h
  | arm => exact tidyOut_execArm h
  | mpat => exact tidyOut_execMpat h
  | qprd => exact tidyOut_execQprd h
  | qpwr => exact tidyOut_execQpwr h
  | fence => exact tidyOut_execFence h
  | watchAdd => exact tidyOut_execWatchAdd h
  | watchClr => exact tidyOut_execWatchClr h
  | trap => exact tidyOut_execTrap h
  | halt => exact tidyOut_execHalt h
  | rload => exact tidyOut_execRload h
  | rsplit => exact tidyOut_execRsplit h
  | rmerge => exact tidyOut_execRmerge h
  | rinv => exact tidyOut_execRinv h
  | yload => exact tidyOut_execYload h
  | eret => exact tidyOut_execEret h
  | hvcall => exact tidyOut_execHvcall h
  | rres => exact tidyOut_execRres h
  | rresClear => exact tidyOut_execRresClear h
  | rret => exact tidyOut_execRret h
  | nop => exact tidyOut_execNop h
  | loop => exact tidyOut_execLoop h
  | lend => exact tidyOut_execLend h
  | join => exact tidyOut_execJoin h
  | endStream => exact tidyOut_execEndStream h
  | mark => exact tidyOut_execMark h
  | unassignedOpcode op => exact tidyOut_execUnassignedOpcode (x := op) h
  | cpld => exact tidyOut_execCpld h
  | cpldCb => exact tidyOut_execCpldCb h
  | cpst => exact tidyOut_execCpst h
  | cpmov => exact tidyOut_execCpmov h
  | cpset => exact tidyOut_execCpset h
  | cpgth => exact tidyOut_execCpgth h
  | cpsct => exact tidyOut_execCpsct h
  | cpdec => exact tidyOut_execCpdec h
  | cpfill => exact tidyOut_execCpfill h
  | cppat => exact tidyOut_execCppat h
  | cpcbk => exact tidyOut_execCpcbk h
  | cpvq => exact tidyOut_execCpvq h
  | cpexp => exact tidyOut_execCpexp h
  | cpfld => exact tidyOut_execCpfld h
  | cpcini => exact tidyOut_execCpcini h
  | cpatom => exact tidyOut_execCpatom h
  | cpcrd => exact tidyOut_execCpcrd h
  | cpput => exact tidyOut_execCpput h
  | cpget => exact tidyOut_execCpget h
  | cpxsnd => exact tidyOut_execCpxsnd h
  | cpxrcv => exact tidyOut_execCpxrcv h
  | cpxred => exact tidyOut_execCpxred h
  | vadd => exact tidyOut_execVadd h
  | vsub => exact tidyOut_execVsub h
  | vmul => exact tidyOut_execVmul h
  | vfma => exact tidyOut_execVfma h
  | vfms => exact tidyOut_execVfms h
  | vneg => exact tidyOut_execVneg h
  | vabs => exact tidyOut_execVabs h
  | vmin => exact tidyOut_execVmin h
  | vmax => exact tidyOut_execVmax h
  | vdiv => exact tidyOut_execVdiv h
  | vsqrt => exact tidyOut_execVsqrt h
  | vrcp => exact tidyOut_execVrcp h
  | vrsq => exact tidyOut_execVrsq h
  | vcvt => exact tidyOut_execVcvt h
  | vcmp => exact tidyOut_execVcmp h
  | vsel => exact tidyOut_execVsel h
  | vexp2 => exact tidyOut_execVexp2 h
  | vlog2 => exact tidyOut_execVlog2 h
  | vexp => exact tidyOut_execVexp h
  | vlog => exact tidyOut_execVlog h
  | vsinpi => exact tidyOut_execVsinpi h
  | vcospi => exact tidyOut_execVcospi h
  | vtanh => exact tidyOut_execVtanh h
  | vrand => exact tidyOut_execVrand h
  | vmov => exact tidyOut_execVmov h
  | vand => exact tidyOut_execVand h
  | vor => exact tidyOut_execVor h
  | vxor => exact tidyOut_execVxor h
  | vlog3 => exact tidyOut_execVlog3 h
  | vshl => exact tidyOut_execVshl h
  | vshr => exact tidyOut_execVshr h
  | vsar => exact tidyOut_execVsar h
  | vfsh => exact tidyOut_execVfsh h
  | vpopc => exact tidyOut_execVpopc h
  | vclz => exact tidyOut_execVclz h
  | vclmulLo => exact tidyOut_execVclmulLo h
  | vclmulHi => exact tidyOut_execVclmulHi h
  | vperm => exact tidyOut_execVperm h
  | vbcst => exact tidyOut_execVbcst h
  | viota => exact tidyOut_execViota h
  | vredAdd => exact tidyOut_execVredAdd h
  | vredMin => exact tidyOut_execVredMin h
  | vredMax => exact tidyOut_execVredMax h
  | vscanInc => exact tidyOut_execVscanInc h
  | vscanExc => exact tidyOut_execVscanExc h
  | vstep => exact tidyOut_execVstep h
  | vcmpr => exact tidyOut_execVcmpr h
  | mand => exact tidyOut_execMand h
  | mor => exact tidyOut_execMor h
  | mxor => exact tidyOut_execMxor h
  | mnot => exact tidyOut_execMnot h
  | mpop => exact tidyOut_execMpop h
  | kmsk => exact tidyOut_execKmsk h
  | vimm => exact tidyOut_execVimm h
  | kset => exact tidyOut_execKset h
  | vaddImm => exact tidyOut_execVaddImm h
  | vmulImm => exact tidyOut_execVmulImm h
  | vminImm => exact tidyOut_execVminImm h
  | vmaxImm => exact tidyOut_execVmaxImm h
  | vandImm => exact tidyOut_execVandImm h
  | vorImm => exact tidyOut_execVorImm h
  | vxorImm => exact tidyOut_execVxorImm h
  | vshlImm => exact tidyOut_execVshlImm h
  | vshrImm => exact tidyOut_execVshrImm h
  | vsarImm => exact tidyOut_execVsarImm h
  | vcmpImm => exact tidyOut_execVcmpImm h
  | vld => exact tidyOut_execVld h
  | vldOrb => exact tidyOut_execVldOrb h
  | vst => exact tidyOut_execVst h
  | vstOrb => exact tidyOut_execVstOrb h
  | vcst vd blk run prd z => exact tidyOut_execVcst (z := z) h
  | mclm => exact tidyOut_execMclm h
  | mrel => exact tidyOut_execMrel h
  | mzero => exact tidyOut_execMzero h
  | mtrn => exact tidyOut_execMtrn h
  | mma => exact tidyOut_execMma h
  | mmas => exact tidyOut_execMmas h
  | mlda => exact tidyOut_execMlda h
  | msta => exact tidyOut_execMsta h
  | ocon => exact tidyOut_execOcon h
  | oconp => exact tidyOut_execOconp h
  | commandFetch => exact tidyOut_execCommandFetch h
  | dccAdvance => exact tidyOut_execDccAdvance h
  | resultLanding => exact tidyOut_execResultLanding h
  | fillLanding => exact tidyOut_execFillLanding h
  | memorySample => exact tidyOut_execMemorySample h
  | memoryWriteLanding => exact tidyOut_execMemoryWriteLanding h
  | atomicApply => exact tidyOut_execAtomicApply h
  | sumCellAdd => exact tidyOut_execSumCellAdd h
  | cellInitLanding => exact tidyOut_execCellInitLanding h
  | beatLanding => exact tidyOut_execBeatLanding h
  | receiveWindowClose => exact tidyOut_execReceiveWindowClose h
  | armPoolArrival => exact tidyOut_execArmPoolArrival h
  | mpatLanding => exact tidyOut_execMpatLanding h
  | rangeChangeReach => exact tidyOut_execRangeChangeReach h
  | holdEffect => exact tidyOut_execHoldEffect h
  | holdRelease => exact tidyOut_execHoldRelease h
  | holdBudgetExceeded => exact tidyOut_execHoldBudgetExceeded h
  | rateCreditRefill => exact tidyOut_execRateCreditRefill h
  | beatCreditRefill => exact tidyOut_execBeatCreditRefill h
  | slackPoint => exact tidyOut_execSlackPoint h
  | beaconInterval => exact tidyOut_execBeaconInterval h
  | beaconReceived => exact tidyOut_execBeaconReceived h
  | thermalSignal => exact tidyOut_execThermalSignal h
  | thermalWithdraw => exact tidyOut_execThermalWithdraw h
  | thermalTrip => exact tidyOut_execThermalTrip h
  | debugStopRequest => exact tidyOut_execDebugStopRequest h
  | debugRelease => exact tidyOut_execDebugRelease h
  | traceSlot => exact tidyOut_execTraceSlot h
  | schedulingRound => exact tidyOut_execSchedulingRound h
  | priorityAging => exact tidyOut_execPriorityAging h
  | pourStart => exact tidyOut_execPourStart h
  | pourEnd => exact tidyOut_execPourEnd h
  | schedulerStop => exact tidyOut_execSchedulerStop h
  | checkpointSave => exact tidyOut_execCheckpointSave h
  | pourKill => exact tidyOut_execPourKill h
  | pourRestore => exact tidyOut_execPourRestore h
  | windowPutApply => exact tidyOut_execWindowPutApply h
  | windowPutAck => exact tidyOut_execWindowPutAck h
  | windowGetReturn => exact tidyOut_execWindowGetReturn h
  | parkedTransferRetry => exact tidyOut_execParkedTransferRetry h
  | hostDmaDescriptor => exact tidyOut_execHostDmaDescriptor h
  | hostDmaStart => exact tidyOut_execHostDmaStart h
  | hostDmaUnit => exact tidyOut_execHostDmaUnit h
  | compactionMove => exact tidyOut_execCompactionMove h
  | compactionRelease => exact tidyOut_execCompactionRelease h
  | flitCorrected => exact tidyOut_execFlitCorrected h
  | laneFailure => exact tidyOut_execLaneFailure h
  | flitUncorrectable => exact tidyOut_execFlitUncorrectable h
  | linkTrained => exact tidyOut_execLinkTrained h
  | channelSubstitution pkg stack chan => exact tidyOut_execChannelSubstitution (_chan := chan) h
  | partitionUpdate => exact tidyOut_execPartitionUpdate h
  | build => exact tidyOut_execBuild h
  | armx => exact tidyOut_execArmx h
  | kill => exact tidyOut_execKill h
  | ckpt => exact tidyOut_execCkpt h
  | resume => exact tidyOut_execResume h
  | restore => exact tidyOut_execRestore h
  | rings => exact tidyOut_execRings h
  | window => exact tidyOut_execWindow h
  | policy => exact tidyOut_execPolicy h
  | repair => exact tidyOut_execRepair h
  | tload => exact tidyOut_execTload h
  | featCommit => exact tidyOut_execFeatCommit h
  | managementRegisterWrite => exact tidyOut_execManagementRegisterWrite h
  | boot => exact tidyOut_execBoot h
  | unlockToken => exact tidyOut_execUnlockToken h
  | retire => exact tidyOut_execRetire h
  | spdmRequest => exact tidyOut_execSpdmRequest h
  | hypervisorUpdate => exact tidyOut_execHypervisorUpdate h
  | debugSessionAttach => exact tidyOut_execDebugSessionAttach h
  | lostBeaconPath => exact tidyOut_execLostBeaconPath h
  | packageForcedDetach => exact tidyOut_execPackageForcedDetach h
  | linksTakenDown => exact tidyOut_execLinksTakenDown h
  | lifecycleFuseAdvance => exact tidyOut_execLifecycleFuseAdvance h
  | tenantKeyProvision => exact tidyOut_execTenantKeyProvision h

/-- What follows an answer keeps the form, where it keeps it of a next state. -/
theorem tidyOut_andThen {o : Out} {f : State → State} (ho : TidyOut o) (hf : ∀ t, Tidy t → Tidy (f t)) :
    TidyOut (match (generalizing := false) o with | .next t => .next (f t) | .fault r => .fault r | .refused r => .refused r) := by
  cases o with
  | next t => exact .next (hf t (ho.form t rfl))
  | fault r => exact .fault
  | refused r => exact .refused

theorem tidyOut_issueStep {k : Nat} {st : Stream} {s : State} (h : Tidy s) : TidyOut (issueStep k st s) := by
  unfold issueStep
  split
  · exact .next h
  · have h0 := tidy_enterIssue (k := k) (st := st) (f := ‹Fetched›) h
    dsimp only
    split
    · exact .next (tidy_issueDone (tidy_faultNow h0))
    · exact tidyOut_andThen (tidyOut_exec _ h0) fun _ ht => tidy_issueDone ht

theorem tidyOut_systemStep {k : Nat} {i : Instr} {s : State} (h : Tidy s) : TidyOut (systemStep k i s) :=
  tidyOut_andThen (tidyOut_exec i (tidy_sysEnter h)) fun _ ht => tidy_sysDone ht

theorem tidyOut_mailStep {k : Nat} {i : Instr} {s : State} (h : Tidy s) : TidyOut (mailStep k i s) := by
  unfold mailStep
  split
  · exact .next h
  · split
    · exact tidyOut_andThen (tidyOut_exec i (Tidy.lit h)) fun _ ht => Tidy.lit ht
    · exact .next h

theorem tidyOut_act {a : Act} {s : State} (h : Tidy s) : TidyOut (act a s) := by
  cases a with
  | ev i => exact tidyOut_exec i h
  | issue k st => exact tidyOut_issueStep h
  | elements k => exact .next (tidy_doElements h)
  | sys k i => exact tidyOut_systemStep h
  | mail k i => exact tidyOut_mailStep h
  | sysAtoms k => exact .next (tidy_sysAtoms h)
  | hostAtom x => exact .next (tidy_hostAtom h)
  | secure p => exact .next (tidy_secureStep h)

theorem tidyOut_step {s : State} (h : Tidy s) : TidyOut (step s) := by
  unfold step
  split
  · exact .fault
  · split
    · exact .next (tidy_tick h)
    · exact tidyOut_act (Tidy.lit h)

/-- Settles O9: a step takes one act, and every act keeps the form. -/
theorem everyStepKeepsTablesTidy : Obligations.EveryStepKeepsTablesTidy := by
  unfold Obligations.EveryStepKeepsTablesTidy
  intro s t hs hst
  exact ((tidyOut_step ⟨hs⟩).form t hst).form

end Sys2Proof.Proofs
end

