-- ==== Sys2Proof/Proofs/CommandWords.lean ====
section
/-! PROOF. Command words (R118 to R120): the round trip of every instruction of the four maps lifted to the words of a command. -/

namespace Sys2Proof.Proofs

open Sys2Proof Sys2Proof.Machine Sys2Proof.Claims Sys2Proof.Laws

/-- Every instruction's own round trip. -/
theorem roundTrip (i : Instr) : RoundTrip.Statement i := by
  cases i with
  | add => exact RoundTrip.add _ _ _
  | sub => exact RoundTrip.sub _ _ _
  | mul => exact RoundTrip.mul _ _ _
  | mulh => exact RoundTrip.mulh _ _ _
  | mulhn => exact RoundTrip.mulhn _ _ _
  | div => exact RoundTrip.div _ _ _
  | divn => exact RoundTrip.divn _ _ _
  | rem => exact RoundTrip.rem _ _ _
  | remn => exact RoundTrip.remn _ _ _
  | and => exact RoundTrip.and _ _ _
  | or => exact RoundTrip.or _ _ _
  | xor => exact RoundTrip.xor _ _ _
  | shl => exact RoundTrip.shl _ _ _
  | shr => exact RoundTrip.shr _ _ _
  | sar => exact RoundTrip.sar _ _ _
  | sel => exact RoundTrip.sel _ _ _ _
  | min => exact RoundTrip.min _ _ _
  | max => exact RoundTrip.max _ _ _
  | minn => exact RoundTrip.minn _ _ _
  | maxn => exact RoundTrip.maxn _ _ _
  | seq => exact RoundTrip.seq _ _ _
  | sne => exact RoundTrip.sne _ _ _
  | slt => exact RoundTrip.slt _ _ _
  | sltn => exact RoundTrip.sltn _ _ _
  | aadd => exact RoundTrip.aadd _ _ _
  | acas => exact RoundTrip.acas _ _ _ _
  | aswp => exact RoundTrip.aswp _ _ _
  | patch => exact RoundTrip.patch _ _
  | fqpush => exact RoundTrip.fqpush _
  | addi => exact RoundTrip.addi _ _ _
  | andi => exact RoundTrip.andi _ _ _
  | ori => exact RoundTrip.ori _ _ _
  | xori => exact RoundTrip.xori _ _ _
  | shli => exact RoundTrip.shli _ _ _
  | shri => exact RoundTrip.shri _ _ _
  | sari => exact RoundTrip.sari _ _ _
  | slti => exact RoundTrip.slti _ _ _
  | lim => exact RoundTrip.lim _ _ _
  | movi => exact RoundTrip.movi _ _
  | lds => exact RoundTrip.lds _ _ _
  | sts => exact RoundTrip.sts _ _ _
  | ldm => exact RoundTrip.ldm _ _ _
  | stm => exact RoundTrip.stm _ _ _
  | br => exact RoundTrip.br _ _ _ _
  | jmp => exact RoundTrip.jmp _
  | call => exact RoundTrip.call _
  | ret => exact RoundTrip.ret 
  | sysrd => exact RoundTrip.sysrd _ _
  | syswr => exact RoundTrip.syswr _ _
  | dccrd => exact RoundTrip.dccrd _
  | lcset => exact RoundTrip.lcset _ _
  | lcrd => exact RoundTrip.lcrd _ _
  | lcwait => exact RoundTrip.lcwait _
  | slack => exact RoundTrip.slack _
  | arm => exact RoundTrip.arm _ _
  | mpat => exact RoundTrip.mpat _ _ _
  | qprd => exact RoundTrip.qprd _ _
  | qpwr => exact RoundTrip.qpwr _ _
  | fence => exact RoundTrip.fence _
  | watchAdd => exact RoundTrip.watchAdd _
  | watchClr => exact RoundTrip.watchClr 
  | trap => exact RoundTrip.trap _
  | halt => exact RoundTrip.halt 
  | rload => exact RoundTrip.rload _ _
  | rsplit => exact RoundTrip.rsplit _ _ _
  | rmerge => exact RoundTrip.rmerge _ _
  | rinv => exact RoundTrip.rinv _
  | yload => exact RoundTrip.yload _ _
  | eret => exact RoundTrip.eret 
  | hvcall => exact RoundTrip.hvcall _
  | rres => exact RoundTrip.rres _ _ _
  | rresClear => exact RoundTrip.rresClear _ _ _
  | rret => exact RoundTrip.rret _ _ _
  | nop => exact RoundTrip.nop 
  | loop => exact RoundTrip.loop _ _ _ _ _
  | lend => exact RoundTrip.lend _
  | join => exact RoundTrip.join _
  | endStream => exact RoundTrip.endStream 
  | mark => exact RoundTrip.mark _
  | unassignedOpcode => exact RoundTrip.unassignedOpcode _
  | cpld => exact RoundTrip.cpld _
  | cpldCb => exact RoundTrip.cpldCb _
  | cpst => exact RoundTrip.cpst _
  | cpmov => exact RoundTrip.cpmov _
  | cpset => exact RoundTrip.cpset _ _
  | cpgth => exact RoundTrip.cpgth _
  | cpsct => exact RoundTrip.cpsct _ _
  | cpdec => exact RoundTrip.cpdec _ _ _ _
  | cpfill => exact RoundTrip.cpfill _ _ _ _ _ _
  | cppat => exact RoundTrip.cppat _ _ _ _ _
  | cpcbk => exact RoundTrip.cpcbk _ _ _ _ _
  | cpvq => exact RoundTrip.cpvq _ _ _ _ _ _ _ _
  | cpexp => exact RoundTrip.cpexp _ _ _ _ _ _ _ _ _
  | cpfld => exact RoundTrip.cpfld _ _ _ _ _ _ _ _
  | cpcini => exact RoundTrip.cpcini _ _
  | cpatom => exact RoundTrip.cpatom _ _ _ _ _ _
  | cpcrd => exact RoundTrip.cpcrd _ _ _ _ _
  | cpput => exact RoundTrip.cpput _ _ _ _ _ _
  | cpget => exact RoundTrip.cpget _ _ _ _ _
  | cpxsnd => exact RoundTrip.cpxsnd _ _ _ _
  | cpxrcv => exact RoundTrip.cpxrcv _ _ _
  | cpxred => exact RoundTrip.cpxred _ _ _ _ _
  | vadd => exact RoundTrip.vadd _ _
  | vsub => exact RoundTrip.vsub _ _
  | vmul => exact RoundTrip.vmul _ _
  | vfma => exact RoundTrip.vfma _ _
  | vfms => exact RoundTrip.vfms _ _
  | vneg => exact RoundTrip.vneg _ _
  | vabs => exact RoundTrip.vabs _ _
  | vmin => exact RoundTrip.vmin _ _
  | vmax => exact RoundTrip.vmax _ _
  | vdiv => exact RoundTrip.vdiv _ _
  | vsqrt => exact RoundTrip.vsqrt _ _
  | vrcp => exact RoundTrip.vrcp _ _
  | vrsq => exact RoundTrip.vrsq _ _
  | vcvt => exact RoundTrip.vcvt _ _ _ _
  | vcmp => exact RoundTrip.vcmp _ _ _ _ _ _ _
  | vsel => exact RoundTrip.vsel _ _ _ _ _
  | vexp2 => exact RoundTrip.vexp2 _
  | vlog2 => exact RoundTrip.vlog2 _
  | vexp => exact RoundTrip.vexp _
  | vlog => exact RoundTrip.vlog _
  | vsinpi => exact RoundTrip.vsinpi _
  | vcospi => exact RoundTrip.vcospi _
  | vtanh => exact RoundTrip.vtanh _
  | vrand => exact RoundTrip.vrand _ _ _ _
  | vmov => exact RoundTrip.vmov _
  | vand => exact RoundTrip.vand _
  | vor => exact RoundTrip.vor _
  | vxor => exact RoundTrip.vxor _
  | vlog3 => exact RoundTrip.vlog3 _ _
  | vshl => exact RoundTrip.vshl _
  | vshr => exact RoundTrip.vshr _
  | vsar => exact RoundTrip.vsar _
  | vfsh => exact RoundTrip.vfsh _ _
  | vpopc => exact RoundTrip.vpopc _
  | vclz => exact RoundTrip.vclz _
  | vclmulLo => exact RoundTrip.vclmulLo _
  | vclmulHi => exact RoundTrip.vclmulHi _
  | vperm => exact RoundTrip.vperm _
  | vbcst => exact RoundTrip.vbcst _ _
  | viota => exact RoundTrip.viota _ _ _ _
  | vredAdd => exact RoundTrip.vredAdd _ _
  | vredMin => exact RoundTrip.vredMin _ _
  | vredMax => exact RoundTrip.vredMax _ _
  | vscanInc => exact RoundTrip.vscanInc _ _
  | vscanExc => exact RoundTrip.vscanExc _ _
  | vstep => exact RoundTrip.vstep _ _ _ _ _ _
  | vcmpr => exact RoundTrip.vcmpr _
  | mand => exact RoundTrip.mand _ _ _
  | mor => exact RoundTrip.mor _ _ _
  | mxor => exact RoundTrip.mxor _ _ _
  | mnot => exact RoundTrip.mnot _ _
  | mpop => exact RoundTrip.mpop _ _ _
  | kmsk => exact RoundTrip.kmsk _ _ _
  | vimm => exact RoundTrip.vimm _
  | kset => exact RoundTrip.kset _ _ _
  | vaddImm => exact RoundTrip.vaddImm _ _
  | vmulImm => exact RoundTrip.vmulImm _ _
  | vminImm => exact RoundTrip.vminImm _ _
  | vmaxImm => exact RoundTrip.vmaxImm _ _
  | vandImm => exact RoundTrip.vandImm _
  | vorImm => exact RoundTrip.vorImm _
  | vxorImm => exact RoundTrip.vxorImm _
  | vshlImm => exact RoundTrip.vshlImm _
  | vshrImm => exact RoundTrip.vshrImm _
  | vsarImm => exact RoundTrip.vsarImm _
  | vcmpImm => exact RoundTrip.vcmpImm _ _
  | vld => exact RoundTrip.vld _
  | vldOrb => exact RoundTrip.vldOrb _ _
  | vst => exact RoundTrip.vst _
  | vstOrb => exact RoundTrip.vstOrb _ _
  | vcst => exact RoundTrip.vcst _ _ _ _ _ _ _
  | mclm => exact RoundTrip.mclm _
  | mrel => exact RoundTrip.mrel _
  | mzero => exact RoundTrip.mzero _
  | mtrn => exact RoundTrip.mtrn _ _
  | mma => exact RoundTrip.mma _
  | mmas => exact RoundTrip.mmas _ _ _
  | mlda => exact RoundTrip.mlda _ _ _ _
  | msta => exact RoundTrip.msta _ _ _ _
  | ocon => exact RoundTrip.ocon _ _ _ _
  | oconp => exact RoundTrip.oconp _ _ _ _
  | commandFetch => exact RoundTrip.commandFetch _ _
  | dccAdvance => exact RoundTrip.dccAdvance _
  | resultLanding => exact RoundTrip.resultLanding _
  | fillLanding => exact RoundTrip.fillLanding _
  | memorySample => exact RoundTrip.memorySample _
  | memoryWriteLanding => exact RoundTrip.memoryWriteLanding _
  | atomicApply => exact RoundTrip.atomicApply _
  | sumCellAdd => exact RoundTrip.sumCellAdd _
  | cellInitLanding => exact RoundTrip.cellInitLanding _
  | beatLanding => exact RoundTrip.beatLanding _
  | receiveWindowClose => exact RoundTrip.receiveWindowClose _
  | armPoolArrival => exact RoundTrip.armPoolArrival _
  | mpatLanding => exact RoundTrip.mpatLanding _
  | rangeChangeReach => exact RoundTrip.rangeChangeReach _
  | holdEffect => exact RoundTrip.holdEffect _
  | holdRelease => exact RoundTrip.holdRelease _
  | holdBudgetExceeded => exact RoundTrip.holdBudgetExceeded _
  | rateCreditRefill => exact RoundTrip.rateCreditRefill _
  | beatCreditRefill => exact RoundTrip.beatCreditRefill _
  | slackPoint => exact RoundTrip.slackPoint _
  | beaconInterval => exact RoundTrip.beaconInterval _ _
  | beaconReceived => exact RoundTrip.beaconReceived _ _ _ _ _ _
  | thermalSignal => exact RoundTrip.thermalSignal _
  | thermalWithdraw => exact RoundTrip.thermalWithdraw _
  | thermalTrip => exact RoundTrip.thermalTrip _
  | debugStopRequest => exact RoundTrip.debugStopRequest _
  | debugRelease => exact RoundTrip.debugRelease _
  | traceSlot => exact RoundTrip.traceSlot _
  | schedulingRound => exact RoundTrip.schedulingRound _ _
  | priorityAging => exact RoundTrip.priorityAging _ _
  | pourStart => exact RoundTrip.pourStart _ _
  | pourEnd => exact RoundTrip.pourEnd _
  | schedulerStop => exact RoundTrip.schedulerStop _
  | checkpointSave => exact RoundTrip.checkpointSave _
  | pourKill => exact RoundTrip.pourKill _
  | pourRestore => exact RoundTrip.pourRestore _ _
  | windowPutApply => exact RoundTrip.windowPutApply _
  | windowPutAck => exact RoundTrip.windowPutAck _
  | windowGetReturn => exact RoundTrip.windowGetReturn _
  | parkedTransferRetry => exact RoundTrip.parkedTransferRetry _
  | hostDmaDescriptor => exact RoundTrip.hostDmaDescriptor _ _ _ _ _ _
  | hostDmaStart => exact RoundTrip.hostDmaStart _
  | hostDmaUnit => exact RoundTrip.hostDmaUnit _
  | compactionMove => exact RoundTrip.compactionMove _ _ _ _ _
  | compactionRelease => exact RoundTrip.compactionRelease _ _ _ _
  | flitCorrected => exact RoundTrip.flitCorrected _ _
  | laneFailure => exact RoundTrip.laneFailure _ _ _
  | flitUncorrectable => exact RoundTrip.flitUncorrectable _ _
  | linkTrained => exact RoundTrip.linkTrained _ _ _ _
  | channelSubstitution => exact RoundTrip.channelSubstitution _ _ _
  | partitionUpdate => exact RoundTrip.partitionUpdate _ _ _ _ _
  | build => exact RoundTrip.build _ _ _ _
  | armx => exact RoundTrip.armx _ _ _
  | kill => exact RoundTrip.kill _ _ _
  | ckpt => exact RoundTrip.ckpt _ _ _
  | resume => exact RoundTrip.resume _ _ _
  | restore => exact RoundTrip.restore _ _ _
  | rings => exact RoundTrip.rings _ _ _ _ _
  | window => exact RoundTrip.window _ _ _ _
  | policy => exact RoundTrip.policy _ _ _ _ _
  | repair => exact RoundTrip.repair _ _ _ _
  | tload => exact RoundTrip.tload _ _ _ _ _ _
  | featCommit => exact RoundTrip.featCommit _ _ _
  | managementRegisterWrite => exact RoundTrip.managementRegisterWrite _ _ _
  | boot => exact RoundTrip.boot _ _
  | unlockToken => exact RoundTrip.unlockToken _ _ _
  | retire => exact RoundTrip.retire _
  | spdmRequest => exact RoundTrip.spdmRequest _ _ _
  | hypervisorUpdate => exact RoundTrip.hypervisorUpdate _ _ _ _
  | debugSessionAttach => exact RoundTrip.debugSessionAttach _ _ _
  | lostBeaconPath => exact RoundTrip.lostBeaconPath _
  | packageForcedDetach => exact RoundTrip.packageForcedDetach _
  | linksTakenDown => exact RoundTrip.linksTakenDown _
  | lifecycleFuseAdvance => exact RoundTrip.lifecycleFuseAdvance _
  | tenantKeyProvision => exact RoundTrip.tenantKeyProvision _ _ _

/-- The first word of a command is cut into the header's fields, the opcode and the operand field (R118). -/
theorem splitF_commandWord (h : Header) {op x : Nat} (hop : op < 256) (hx : x < 2 ^ 40) :
    splitF lWord (joinF lWord [h.wait.toNat, boolCode h.trc, boolCode h.ibd, boolCode h.cmp, 0, h.evt.toNat, op, x]) =
      [h.wait.toNat, boolCode h.trc, boolCode h.ibd, boolCode h.cmp, 0, h.evt.toNat, op, x] :=
  splitF_joinF _ _ ⟨h.wait.isLt, boolCode_lt2 _, boolCode_lt2 _, boolCode_lt2 _, by decide, h.evt.isLt, hop, hx, trivial⟩

/-- A header reads back from its fields. -/
theorem header_ofFields (h : Header) : (⟨BitVec.ofNat 8 h.wait.toNat, boolCode h.trc == 1, boolCode h.ibd == 1, boolCode h.cmp == 1,
    BitVec.ofNat 4 h.evt.toNat, h.ext⟩ : Header) = h := by
  simp

/-- The words of a command whose operation has an encoding (R120). -/
theorem encodeCmd_eq {h : Header} {i : Instr} {op x : Nat} {ext : Option Nat} (he : encodeOp i = some (op, x, ext)) :
    encodeCmd ⟨h, i⟩ = some (joinF lWord [h.wait.toNat, boolCode h.trc, boolCode h.ibd, boolCode h.cmp, 0, h.evt.toNat, op, x] ::
      (if hasWaitExt h.wait.toNat then [(h.ext.map BitVec.toNat).getD 0] else []) ++ ext.toList) := by
  obtain ⟨wait, trc, ibd, cmp, evt, hext⟩ := h
  rw [encodeCmd, he]
  cases hext <;> cases ext <;> rfl

/-- What the decoder reads, by the fields of the first word (R118 to R120). -/
theorem decodeWords_cons (st : Stream) (w : Nat) (r : List Nat) : decodeWords st (w :: r) =
    (let v := splitF lWord w
     let b := hasWaitExt (fld v 0)
     if (w :: r).length < wordCount st w then .error .short
     else
      match decodeOp st (fld v 6) (fld v 7) (if hasOperandExt st (fld v 6) then (if b then r.drop 1 else r).headD 0 else 0) with
      | .error e => .error e
      | .ok i =>
        if fld v 4 ≠ 0 then .error .reserved
        else .ok ⟨⟨BitVec.ofNat 8 (fld v 0), fld v 1 == 1, fld v 2 == 1, fld v 3 == 1, BitVec.ofNat 4 (fld v 5),
          (if b then r.head? else none).map toWord⟩, i⟩) := by
  rw [decodeWords]
  dsimp only
  by_cases h : hasWaitExt (fld (splitF lWord w) 0) = true
  · rw [if_pos h, if_pos h, if_pos h] <;> rfl
  · rw [if_neg h, if_neg h, if_neg h] <;> rfl

/-- An accepted run of words: there are enough of them, the operation decodes, SIGNAL bit 4 is 0, and the header is that of the fields. -/
theorem decodeWords_ok_iff {st : Stream} {w : Nat} {r : List Nat} {c : Cmd} : decodeWords st (w :: r) = .ok c ↔
    wordCount st w ≤ r.length + 1 ∧ fld (splitF lWord w) 4 = 0 ∧
    decodeOp st (fld (splitF lWord w) 6) (fld (splitF lWord w) 7)
      (if hasOperandExt st (fld (splitF lWord w) 6) then
        (if hasWaitExt (fld (splitF lWord w) 0) then r.drop 1 else r).headD 0 else 0) = .ok c.instr ∧
    c.hdr = ⟨BitVec.ofNat 8 (fld (splitF lWord w) 0), fld (splitF lWord w) 1 == 1, fld (splitF lWord w) 2 == 1,
      fld (splitF lWord w) 3 == 1, BitVec.ofNat 4 (fld (splitF lWord w) 5),
      (if hasWaitExt (fld (splitF lWord w) 0) then r.head? else none).map toWord⟩ := by
  rw [decodeWords_cons]
  obtain ⟨h, i⟩ := c
  dsimp only
  generalize decodeOp st _ _ _ = o
  rw [List.length_cons]
  split
  · simp; omega
  · have hlen : wordCount st w ≤ r.length + 1 := by omega
    cases o with
    | error e => simp
    | ok j =>
      dsimp only
      by_cases h4 : fld (splitF lWord w) 4 = 0
      · rw [if_neg (not_not.2 h4), Except.ok.injEq, Cmd.mk.injEq, Except.ok.injEq]
        exact ⟨fun ⟨hh, hi⟩ => ⟨hlen, h4, hi, hh.symm⟩, fun ⟨_, _, hi, hh⟩ => ⟨hh.symm, hi⟩⟩
      · rw [if_pos h4]
        exact ⟨(fun h => nomatch h), fun h => absurd h.2.1 h4⟩

/-- The words of a command are read as the command, in every map whose decoder reads its operation back. -/
theorem decodeWords_encodeCmd {st : Stream} {h : Header} {i : Instr} {op x : Nat} {ext : Option Nat} (hh : h.wf = true)
    (he : encodeOp i = some (op, x, ext)) (hop : op < 256) (hx : x < 2 ^ 40) (hn : ext.isSome = hasOperandExt st op)
    (hd : decodeOp st op x (ext.getD 0) = .ok i) :
    ∃ ws, encodeCmd ⟨h, i⟩ = some ws ∧ decodeWords st ws = .ok ⟨h, i⟩ := by
  have hwait : hasWaitExt h.wait.toNat = h.ext.isSome := (beq_iff_eq.1 hh).symm
  have hhdr := header_ofFields h
  refine ⟨_, encodeCmd_eq he, ?_⟩
  rw [List.cons_append, decodeWords_ok_iff, wordCount, splitF_commandWord h hop hx]
  simp only [fld, List.getD_cons_zero, List.getD_cons_succ, hwait, ← hn]
  cases hext : h.ext <;> cases ext <;> simp_all

/-- Settles O1: the round trip of the instruction, with the header around it. -/
theorem commandRoundTrip : Obligations.CommandRoundTrip := by
  unfold Obligations.CommandRoundTrip
  rintro ⟨h, i⟩ hh hi
  obtain ⟨op, x, ext, he, hop, hx, hn, -, hd⟩ := roundTrip i hi
  exact decodeWords_encodeCmd hh he hop hx hn hd

end Sys2Proof.Proofs
end

