-- ==== Sys2Proof/Proofs/DecodedFormats.lean ====
section
/-! PROOF. The converse of the round trip (R118 to R146), by command format: what a format's decoder accepts is what its encoder writes. Each lemma
is said of every instruction that the format stands for. -/

namespace Sys2Proof.Proofs

open Sys2Proof Sys2Proof.Machine Sys2Proof.Claims Sys2Proof.Laws

-- Fields and codes -------------------------------------------------------------------------------------------------------------------

/-- A number is its fields put together. -/
theorem joinF_splitF_mod (ws : List Nat) (x : Nat) : joinF ws (splitF ws x) = x % 2 ^ ws.sum := by
  induction ws with
  | nil => simp [joinF, Nat.mod_one]
  | cons w r ih =>
    rw [splitF, joinF, ih, Nat.mod_mod, List.sum_cons, Nat.add_comm w, Nat.pow_add, Nat.mod_mul, Nat.mul_comm, Nat.add_comm]

/-- Every field fits its width. -/
theorem fits_splitF (ws : List Nat) (x : Nat) : fits ws (splitF ws x) := by
  induction ws with
  | nil => trivial
  | cons w r ih => exact ⟨Nat.mod_lt _ (Nat.two_pow_pos w), ih⟩

/-- The fields of a number fit, and put together they are the number. -/
theorem fields_of {ws v : List Nat} {x : Nat} (hv : splitF ws x = v) (hx : x < 2 ^ ws.sum) : fits ws v ∧ joinF ws v = x := by
  subst hv
  exact ⟨fits_splitF ws x, by rw [joinF_splitF_mod, Nat.mod_eq_of_lt hx]⟩

theorem toNat_field {w n : Nat} (h : n < 2 ^ w) : (BitVec.ofNat w n).toNat = n := by
  rw [BitVec.toNat_ofNat, Nat.mod_eq_of_lt h]

theorem toNat_s0 : BitVec.toNat (0 : SReg) = 0 := rfl

theorem accept_ok {res val : Bool} {i j : Instr} : accept res val i = .ok j ↔ res = true ∧ val = true ∧ i = j := by
  cases res <;> cases val <;> simp [accept]

theorem tyCode_ofCode {n : Nat} (h : n < 14) : (Ty.ofCode n).code = n := by
  revert n; decide

theorem rmCode_ofCode {n : Nat} (h : n < 5) : (Rm.ofCode n).code = n := by
  revert n; decide

theorem condCode_ofCode {n : Nat} (h : n < 2 ^ 3) : (Cond.ofCode n).code = n := by
  revert n; decide

theorem readModeCode_ofCode {n : Nat} (h : n < 2 ^ 2) : (ReadMode.ofCode n).code = n := by
  revert n; decide

theorem prdCode_ofCode {n : Nat} (h : n < 25) : (Prd.ofCode n).code = n := by
  revert n; decide

theorem boolCode_ofCode {n : Nat} (h : n < 2 ^ 1) : boolCode (n == 1) = n := by
  revert n; decide

theorem blkOfCode_toNat {n : Nat} (h : n < 6) : (blkOfCode n).val = n := by
  rw [blkOfCode, dif_pos h]

/-- An optional field whose bit says whether it is there: the code is 0 without it. -/
theorem lcCode_of {b n : Nat} (hn : n < 2 ^ 6) (h : b = 1 ∨ n = 0) :
    lcCode (if b = 1 then some (BitVec.ofNat 6 n) else none) = n := by
  by_cases hb : b = 1
  · rw [if_pos hb, lcCode_some, toNat_field hn]
  · rw [if_neg hb, lcCode_none, h.resolve_left hb]

theorem syCode_of {b n : Nat} (hn : n < 2 ^ 4) (h : b = 1 ∨ n = 0) :
    syCode (if b = 1 then some (BitVec.ofNat 4 n) else none) = n := by
  by_cases hb : b = 1
  · rw [if_pos hb, syCode_some, toNat_field hn]
  · rw [if_neg hb, syCode_none, h.resolve_left hb]

theorem isSome_of {α : Type} {b : Nat} {v : α} (hb : b < 2 ^ 1) : boolCode (if b = 1 then some v else none).isSome = b := by
  obtain rfl | rfl : b = 0 ∨ b = 1 := by omega
  · rfl
  · rfl

/-- The bit of a memory form, whose runner field is 0. -/
theorem noRun_of {m r : Nat} (h : m = 0 ∨ r = 0) : (!(m == 1) || BitVec.ofNat 3 r == 0) = true := by
  rcases h with rfl | rfl
  · rfl
  · simp

/-- Without a rounding mode the field is 0. -/
theorem noRm_iff {ok : Ty → Bool} {t : Ty} {r : Rm} : noRm ok t r = true ↔ ok t = true ∧ r = .rne := by
  simp [noRm]

/-- A format's decoder stands for the instructions of an opcode: what it accepts is well formed and encodes to the words read. -/
def Reads (op x : Nat) (ext : Option Nat) (i : Instr) : Prop := i.wf = true ∧ encodeOp i = some (op, x, ext)

theorem Reads.of_enc {op x y : Nat} {ext : Option Nat} {i : Instr} (hw : i.wf = true) (he : encodeOp i = some (op, y, ext)) (hy : y = x) :
    Reads op x ext i := ⟨hw, hy ▸ he⟩

theorem Reads.of_encExt {op x y e ext : Nat} {i : Instr} (hw : i.wf = true) (he : encodeOp i = some (op, y, some e)) (hy : y = x)
    (hext : e = ext) : Reads op x (some ext) i := ⟨hw, hy ▸ hext ▸ he⟩

-- The control core's formats -----------------------------------------------------------------------------------------------------------

section
variable {op x : Nat} {i : Instr} (hx : x < 2 ^ 40)
include hx

theorem ccFour_reads {f : SReg → SReg → SReg → SReg → Instr} (h : ccFour f x = .ok i)
    (hf : ∀ d a b c, (f d a b c).wf = true ∧ encodeOp (f d a b c) = some (encA op d a b c)) : Reads op x none i := by
  obtain ⟨a, b, c, d, e, hv⟩ : ∃ a b c d e, splitF lCcA x = [a, b, c, d, e] := ⟨_, _, _, _, _, rfl⟩
  obtain ⟨⟨ha, hb, hc, hd, -⟩, hj⟩ := fields_of hv hx
  simp only [ccFour, hv, accept_ok, fld, List.getD_cons_zero, List.getD_cons_succ, beq_iff_eq] at h
  obtain ⟨rfl, -, rfl⟩ := h
  refine ⟨(hf _ _ _ _).1, (hf _ _ _ _).2.trans ?_⟩
  simp only [encA, toNat_field ha, toNat_field hb, toNat_field hc, toNat_field hd, hj]

theorem ccThree_reads {f : SReg → SReg → SReg → Instr} (h : ccThree f x = .ok i)
    (hf : ∀ d a b, (f d a b).wf = true ∧ encodeOp (f d a b) = some (encA op d a b 0)) : Reads op x none i := by
  obtain ⟨a, b, c, d, e, hv⟩ : ∃ a b c d e, splitF lCcA x = [a, b, c, d, e] := ⟨_, _, _, _, _, rfl⟩
  obtain ⟨⟨ha, hb, hc, -⟩, hj⟩ := fields_of hv hx
  simp only [ccThree, hv, accept_ok, fld, List.getD_cons_zero, List.getD_cons_succ, Bool.and_eq_true, beq_iff_eq] at h
  obtain ⟨⟨rfl, rfl⟩, -, rfl⟩ := h
  refine ⟨(hf _ _ _).1, (hf _ _ _).2.trans ?_⟩
  simp only [encA, toNat_field ha, toNat_field hb, toNat_field hc, toNat_s0, hj]

theorem ccImm_reads {f : SReg → SReg → BitVec 28 → Instr} (h : ccImm f x = .ok i)
    (hf : ∀ d a n, (f d a n).wf = true ∧ encodeOp (f d a n) = some (encB op d a n.toNat)) : Reads op x none i := by
  obtain ⟨a, b, c, hv⟩ : ∃ a b c, splitF lCcB x = [a, b, c] := ⟨_, _, _, rfl⟩
  obtain ⟨⟨ha, hb, hc, -⟩, hj⟩ := fields_of hv hx
  simp only [ccImm, hv, accept_ok, fld, List.getD_cons_zero, List.getD_cons_succ] at h
  obtain ⟨-, -, rfl⟩ := h
  refine ⟨(hf _ _ _).1, (hf _ _ _).2.trans ?_⟩
  simp only [encB, toNat_field ha, toNat_field hb, toNat_field hc, hj]

theorem ccShift_reads {f : SReg → SReg → BitVec 6 → Instr} (h : ccShift f x = .ok i)
    (hf : ∀ d a n, (f d a n).wf = true ∧ encodeOp (f d a n) = some (encB op d a n.toNat)) : Reads op x none i := by
  obtain ⟨a, b, c, hv⟩ : ∃ a b c, splitF lCcB x = [a, b, c] := ⟨_, _, _, rfl⟩
  obtain ⟨⟨ha, hb, -⟩, hj⟩ := fields_of hv hx
  simp only [ccShift, hv, accept_ok, fld, List.getD_cons_zero, List.getD_cons_succ, decide_eq_true_eq] at h
  obtain ⟨hc, -, rfl⟩ := h
  refine ⟨(hf _ _ _).1, (hf _ _ _).2.trans ?_⟩
  simp only [encB, toNat_field ha, toNat_field hb, toNat_field (w := 6) hc, hj]

/-- A CC-D command: unused registers are zero, and SEL fits its bits. -/
theorem ccSys_reads {uD uA uB : Bool} {sel : Nat} {f : SReg → SReg → SReg → Nat → Instr} (h : ccSys uD uA uB sel f x = .ok i)
    (hf : ∀ d a b n, n < 2 ^ sel → (uD = false → d = 0) → (uA = false → a = 0) → (uB = false → b = 0) →
      (f d a b n).wf = true ∧ encodeOp (f d a b n) = some (encD op d a b n)) : Reads op x none i := by
  obtain ⟨a, b, c, d, e, hv⟩ : ∃ a b c d e, splitF lCcD x = [a, b, c, d, e] := ⟨_, _, _, _, _, rfl⟩
  obtain ⟨⟨ha, hb, hc, -⟩, hj⟩ := fields_of hv hx
  simp only [ccSys, hv, accept_ok, fld, List.getD_cons_zero, List.getD_cons_succ, Bool.and_eq_true, Bool.or_eq_true, beq_iff_eq,
    decide_eq_true_eq] at h
  obtain ⟨⟨⟨⟨⟨hD, hA⟩, hB⟩, hd⟩, rfl⟩, -, rfl⟩ := h
  have hz : ∀ {u : Bool} {n : Nat}, u = true ∨ n = 0 → u = false → r6 n = 0 := by
    rintro u n (rfl | rfl) hu
    · exact absurd hu (by decide)
    · rfl
  have hg := hf (r6 a) (r6 b) (r6 c) d hd (hz hD) (hz hA) (hz hB)
  refine ⟨hg.1, hg.2.trans ?_⟩
  simp only [encD, toNat_field ha, toNat_field hb, toNat_field hc, hj]

theorem ccJump_reads {f : BitVec 16 → Instr} (h : ccJump f x = .ok i)
    (hf : ∀ n, (f n).wf = true ∧ encodeOp (f n) = some (op, joinF lCcC [0, 0, 0, n.toNat, 0], none)) : Reads op x none i := by
  obtain ⟨a, b, c, d, e, hv⟩ : ∃ a b c d e, splitF lCcC x = [a, b, c, d, e] := ⟨_, _, _, _, _, rfl⟩
  obtain ⟨⟨-, -, -, hd, -⟩, hj⟩ := fields_of hv hx
  simp only [ccJump, hv, accept_ok, fld, List.getD_cons_zero, List.getD_cons_succ, Bool.and_eq_true, beq_iff_eq] at h
  obtain ⟨⟨⟨⟨rfl, rfl⟩, rfl⟩, rfl⟩, -, rfl⟩ := h
  refine ⟨(hf _).1, (hf _).2.trans ?_⟩
  simp only [toNat_field hd, hj]

theorem br_reads (h : decodeBr x = .ok i) : Reads 0x30 x none i := by
  obtain ⟨a, b, c, d, e, hv⟩ : ∃ a b c d e, splitF lCcC x = [a, b, c, d, e] := ⟨_, _, _, _, _, rfl⟩
  obtain ⟨⟨ha, hb, -, hd, he, -⟩, hj⟩ := fields_of hv hx
  simp only [decodeBr, hv, accept_ok, fld, List.getD_cons_zero, List.getD_cons_succ, beq_iff_eq] at h
  obtain ⟨rfl, -, rfl⟩ := h
  refine .of_enc rfl rfl ?_
  simp only [toNat_field ha, toNat_field hd, toNat_field he, boolCode_ofCode hb, hj]

theorem patch_reads (h : decodeCc 0x1B x 0 = .ok i) : Reads 0x1B x none i := by
  obtain ⟨a, b, c, d, e, hv⟩ : ∃ a b c d e, splitF lCcA x = [a, b, c, d, e] := ⟨_, _, _, _, _, rfl⟩
  obtain ⟨⟨-, hb, hc, -⟩, hj⟩ := fields_of hv hx
  simp only [decodeCc, hv, accept_ok, fld, List.getD_cons_zero, List.getD_cons_succ, Bool.and_eq_true, beq_iff_eq] at h
  obtain ⟨⟨⟨rfl, rfl⟩, rfl⟩, -, rfl⟩ := h
  refine .of_enc rfl rfl ?_
  simp only [toNat_field hb, toNat_field hc, toNat_s0, hj]

theorem fqpush_reads (h : decodeCc 0x1C x 0 = .ok i) : Reads 0x1C x none i := by
  obtain ⟨a, b, c, d, e, hv⟩ : ∃ a b c d e, splitF lCcA x = [a, b, c, d, e] := ⟨_, _, _, _, _, rfl⟩
  obtain ⟨⟨-, hb, -⟩, hj⟩ := fields_of hv hx
  simp only [decodeCc, hv, accept_ok, fld, List.getD_cons_zero, List.getD_cons_succ, Bool.and_eq_true, beq_iff_eq] at h
  obtain ⟨⟨⟨⟨rfl, rfl⟩, rfl⟩, rfl⟩, -, rfl⟩ := h
  refine .of_enc rfl rfl ?_
  simp only [toNat_field hb, toNat_s0, hj]

theorem movi_reads (h : decodeCc 0x29 x 0 = .ok i) : Reads 0x29 x none i := by
  obtain ⟨a, b, c, hv⟩ : ∃ a b c, splitF lCcB x = [a, b, c] := ⟨_, _, _, rfl⟩
  obtain ⟨⟨ha, -, hc, -⟩, hj⟩ := fields_of hv hx
  simp only [decodeCc, hv, accept_ok, fld, List.getD_cons_zero, List.getD_cons_succ, beq_iff_eq] at h
  obtain ⟨rfl, -, rfl⟩ := h
  refine .of_enc rfl rfl ?_
  simp only [toNat_field ha, toNat_field hc, toNat_s0, hj]

theorem fence_reads (h : decodeFence x = .ok i) : Reads 0x4B x none i := by
  obtain ⟨a, b, c, d, e, hv⟩ : ∃ a b c d e, splitF lCcD x = [a, b, c, d, e] := ⟨_, _, _, _, _, rfl⟩
  obtain ⟨-, hj⟩ := fields_of hv hx
  simp only [decodeFence, hv, accept_ok, fld, List.getD_cons_zero, List.getD_cons_succ, Bool.and_eq_true, beq_iff_eq,
    decide_eq_true_eq] at h
  obtain ⟨⟨⟨⟨⟨rfl, rfl⟩, rfl⟩, hd⟩, rfl⟩, h5, rfl⟩ := h
  have hn : (BitVec.ofNat 3 d).toNat = d := toNat_field hd
  refine .of_enc (decide_eq_true (hn.symm ▸ h5)) rfl ?_
  simp only [hn, toNat_s0, hj]

theorem watch_reads (h : decodeWatch x = .ok i) : Reads 0x4C x none i := by
  obtain ⟨a, b, c, d, e, hv⟩ : ∃ a b c d e, splitF lCcD x = [a, b, c, d, e] := ⟨_, _, _, _, _, rfl⟩
  obtain ⟨⟨-, hb, -⟩, hj⟩ := fields_of hv hx
  simp only [decodeWatch, hv, accept_ok, fld, List.getD_cons_zero, List.getD_cons_succ, Bool.and_eq_true, Bool.or_eq_true, beq_iff_eq,
    decide_eq_true_eq] at h
  obtain ⟨⟨⟨⟨⟨rfl, rfl⟩, hd⟩, rfl⟩, hz⟩, -, rfl⟩ := h
  obtain rfl | rfl : d = 0 ∨ d = 1 := by omega
  · refine .of_enc rfl rfl ?_
    simp only [toNat_field hb, toNat_s0, hj]
  · obtain rfl : b = 0 := hz.resolve_left (by decide)
    exact .of_enc rfl rfl hj

theorem rres_reads (h : decodeRres x = .ok i) : Reads 0x57 x none i := by
  obtain ⟨a, b, c, d, e, hv⟩ : ∃ a b c d e, splitF lCcD x = [a, b, c, d, e] := ⟨_, _, _, _, _, rfl⟩
  obtain ⟨⟨-, hb, hc, -⟩, hj⟩ := fields_of hv hx
  simp only [decodeRres, hv, accept_ok, fld, List.getD_cons_zero, List.getD_cons_succ, Bool.and_eq_true, beq_iff_eq,
    decide_eq_true_eq] at h
  obtain ⟨⟨⟨rfl, hd⟩, rfl⟩, -, rfl⟩ := h
  by_cases h12 : d < 4096
  · rw [if_pos h12]
    refine .of_enc rfl rfl ?_
    simp only [toNat_field hb, toNat_field hc, toNat_field (w := 12) h12, toNat_s0, hj]
  · rw [if_neg h12]
    have hn : 4096 + (BitVec.ofNat 12 d).toNat = d := by
      rw [BitVec.toNat_ofNat]
      omega
    refine .of_enc rfl rfl ?_
    simp only [toNat_field hb, toNat_field hc, hn, toNat_s0, hj]

-- Stream control -----------------------------------------------------------------------------------------------------------------------

/-- The stream-control group stands in every map; LOOP alone has an operand extension word (R120, R140). -/
theorem control_reads {st : Stream} {ext : Nat} (hext : ext < 2 ^ 64) (h : decodeControl op x ext = .ok i) :
    Reads op x (if hasOperandExt st op then some ext else none) i := by
  have hno : ∀ n ∈ [0xF0, 0xF2, 0xF3, 0xF4, 0xF5], hasOperandExt st n = false := by cases st <;> decide
  have plain : ∀ n ∈ [0xF0, 0xF2, 0xF3, 0xF4, 0xF5], Reads n x none i →
      Reads n x (if hasOperandExt st n then some ext else none) i := by
    intro n hn hr
    rwa [hno n hn, if_neg Bool.false_ne_true]
  unfold decodeControl at h
  split at h
  · simp only [accept_ok, beq_iff_eq] at h
    obtain ⟨rfl, -, rfl⟩ := h
    exact plain _ (by decide) ⟨rfl, rfl⟩
  · obtain ⟨a, b, c, d, hv⟩ : ∃ a b c d, splitF lLoop x = [a, b, c, d] := ⟨_, _, _, _, rfl⟩
    obtain ⟨e, g, hw⟩ : ∃ e g, splitF lLoopExt ext = [e, g] := ⟨_, _, rfl⟩
    obtain ⟨⟨ha, hb, hc, -⟩, hj⟩ := fields_of hv hx
    obtain ⟨⟨he, hg, -⟩, hk⟩ := fields_of hw hext
    simp only [hv, hw, accept_ok, fld, List.getD_cons_zero, List.getD_cons_succ, beq_iff_eq] at h
    obtain ⟨rfl, -, rfl⟩ := h
    have hlong : hasOperandExt st 0xF1 = true := rfl
    rw [hlong, if_pos rfl]
    refine .of_encExt rfl rfl ?_ ?_
    · simp only [toNat_field ha, toNat_field hb, toNat_field hc, hj]
    · simp only [toNat_field he, toNat_field hg, hk]
  · obtain ⟨a, b, hv⟩ : ∃ a b, splitF lId x = [a, b] := ⟨_, _, rfl⟩
    obtain ⟨⟨ha, -⟩, hj⟩ := fields_of hv hx
    simp only [hv, accept_ok, fld, List.getD_cons_zero, List.getD_cons_succ, beq_iff_eq] at h
    obtain ⟨rfl, -, rfl⟩ := h
    refine plain _ (by decide) (.of_enc rfl rfl ?_)
    simp only [toNat_field ha, hj]
  · obtain ⟨a, b, hv⟩ : ∃ a b, splitF lJoin x = [a, b] := ⟨_, _, rfl⟩
    obtain ⟨⟨-, hb, -⟩, hj⟩ := fields_of hv hx
    simp only [hv, accept_ok, fld, List.getD_cons_zero, List.getD_cons_succ, beq_iff_eq] at h
    obtain ⟨rfl, -, rfl⟩ := h
    refine plain _ (by decide) (.of_enc rfl rfl ?_)
    simp only [toNat_field hb, hj]
  · simp only [accept_ok, beq_iff_eq] at h
    obtain ⟨rfl, -, rfl⟩ := h
    exact plain _ (by decide) ⟨rfl, rfl⟩
  · obtain ⟨a, b, hv⟩ : ∃ a b, splitF lId x = [a, b] := ⟨_, _, rfl⟩
    obtain ⟨⟨ha, -⟩, hj⟩ := fields_of hv hx
    simp only [hv, accept_ok, fld, List.getD_cons_zero, List.getD_cons_succ, beq_iff_eq] at h
    obtain ⟨rfl, -, rfl⟩ := h
    refine plain _ (by decide) (.of_enc rfl rfl ?_)
    simp only [toNat_field ha, hj]
  · exact nomatch h

-- The copy engine's formats --------------------------------------------------------------------------------------------------------------

theorem cpMove_reads {f : MoveOps → Instr} {wf : MoveOps → Bool} {hi : Nat} (h : cpMove f wf hi x = .ok i)
    (hf : ∀ o, wf o = true → (f o).wf = true ∧ encodeOp (f o) = some (encMove op o hi)) : Reads op x none i := by
  obtain ⟨a, b, c, d, e, g, k, hv⟩ : ∃ a b c d e g k, splitF lCpA x = [a, b, c, d, e, g, k] := ⟨_, _, _, _, _, _, _, rfl⟩
  obtain ⟨⟨ha, hb, hc, hd, he, -, hk, -⟩, hj⟩ := fields_of hv hx
  obtain ⟨l, m, n, hw⟩ : ∃ l m n, splitF [6, 1, 2] k = [l, m, n] := ⟨_, _, _, rfl⟩
  obtain ⟨⟨-, hm, hn, -⟩, hjm⟩ := fields_of hw hk
  simp only [cpMove, hv, hw, accept_ok, fld, List.getD_cons_zero, List.getD_cons_succ, Bool.and_eq_true, Bool.or_eq_true, beq_iff_eq] at h
  obtain ⟨⟨⟨rfl, rfl⟩, hz⟩, hwf, rfl⟩ := h
  refine .of_enc (hf _ hwf).1 (hf _ hwf).2 ?_
  simp only [toNat_field ha, toNat_field hb, toNat_field hc, toNat_field he, toNat_field hn, lcCode_of hd hz, isSome_of hm, hjm, hj]

theorem cpIndex_reads {f : IndexOps → Bool → Instr} {wf : IndexOps → Bool → Bool} (h : cpIndex f wf x = .ok i)
    (hf : ∀ o d, wf o d = true → (f o d).wf = true ∧ encodeOp (f o d) = some (encIndex op o d)) : Reads op x none i := by
  obtain ⟨a, b, c, d, e, g, k, hv⟩ : ∃ a b c d e g k, splitF lCpA x = [a, b, c, d, e, g, k] := ⟨_, _, _, _, _, _, _, rfl⟩
  obtain ⟨⟨ha, hb, hc, hd, he, -, hk, -⟩, hj⟩ := fields_of hv hx
  obtain ⟨l, m, n, o, p, q, hw⟩ : ∃ l m n o p q, splitF [1, 4, 1, 1, 1, 1] k = [l, m, n, o, p, q] := ⟨_, _, _, _, _, _, rfl⟩
  obtain ⟨⟨-, hm, hn, ho, hp, hq, -⟩, hjm⟩ := fields_of hw hk
  simp only [cpIndex, hv, hw, accept_ok, fld, List.getD_cons_zero, List.getD_cons_succ, Bool.and_eq_true, Bool.or_eq_true, beq_iff_eq, decide_eq_true_eq] at h
  obtain ⟨⟨⟨rfl, hz⟩, hy⟩, ⟨ht, hwf⟩, rfl⟩ := h
  refine .of_enc (hf _ _ hwf).1 (hf _ _ hwf).2 ?_
  simp only [toNat_field ha, toNat_field hb, toNat_field hc, toNat_field he, tyCode_ofCode ht, lcCode_of hd hz, syCode_of hm hy,
    isSome_of ho, isSome_of hp, boolCode_ofCode hn, boolCode_ofCode hq, hjm, hj]

theorem cpdec_reads (h : decodeCpdec x = .ok i) : Reads 0x06 x none i := by
  obtain ⟨a, b, c, d, e, g, k, hv⟩ : ∃ a b c d e g k, splitF lCpA x = [a, b, c, d, e, g, k] := ⟨_, _, _, _, _, _, _, rfl⟩
  obtain ⟨⟨ha, hb, hc, -, he, -⟩, hj⟩ := fields_of hv hx
  simp only [decodeCpdec, hv, accept_ok, fld, List.getD_cons_zero, List.getD_cons_succ, Bool.and_eq_true, beq_iff_eq] at h
  obtain ⟨⟨⟨rfl, rfl⟩, rfl⟩, hg, rfl⟩ := h
  refine .of_enc hg rfl ?_
  simp only [toNat_field ha, toNat_field hb, toNat_field hc, toNat_field he, hj]

theorem cpfill_reads (h : decodeCpfill x = .ok i) : Reads 0x10 x none i := by
  obtain ⟨a, b, c, d, e, g, k, hv⟩ : ∃ a b c d e g k, splitF lCpB x = [a, b, c, d, e, g, k] := ⟨_, _, _, _, _, _, _, rfl⟩
  obtain ⟨⟨ha, hb, hc, -, he, -⟩, hj⟩ := fields_of hv hx
  simp only [decodeCpfill, hv, accept_ok, fld, List.getD_cons_zero, List.getD_cons_succ, Bool.and_eq_true, Bool.or_eq_true, beq_iff_eq, decide_eq_true_eq] at h
  obtain ⟨⟨⟨rfl, hk⟩, hz⟩, ⟨ht, hA⟩, rfl⟩ := h
  refine .of_enc (Bool.and_eq_true_iff.2 ⟨hA, noRun_of hz⟩) rfl ?_
  simp only [toNat_field ha, toNat_field hb, toNat_field hc, toNat_field he, tyCode_ofCode ht, boolCode_ofCode hk, hj]

theorem cppat_reads (h : decodeCppat x = .ok i) : Reads 0x11 x none i := by
  obtain ⟨a, b, c, d, e, g, k, hv⟩ : ∃ a b c d e g k, splitF lCpB x = [a, b, c, d, e, g, k] := ⟨_, _, _, _, _, _, _, rfl⟩
  obtain ⟨⟨ha, hb, -, -, he, -⟩, hj⟩ := fields_of hv hx
  simp only [decodeCppat, hv, accept_ok, fld, List.getD_cons_zero, List.getD_cons_succ, Bool.and_eq_true, Bool.or_eq_true, beq_iff_eq, decide_eq_true_eq] at h
  obtain ⟨⟨⟨⟨⟨hc, rfl⟩, rfl⟩, hk⟩, hz⟩, -, rfl⟩ := h
  refine .of_enc (noRun_of hz) rfl ?_
  simp only [toNat_field ha, toNat_field hb, toNat_field (w := 3) hc, toNat_field he, boolCode_ofCode hk, hj]

theorem cpcbk_reads (h : decodeCpcbk x = .ok i) : Reads 0x12 x none i := by
  obtain ⟨a, b, c, d, e, g, k, hv⟩ : ∃ a b c d e g k, splitF lCpB x = [a, b, c, d, e, g, k] := ⟨_, _, _, _, _, _, _, rfl⟩
  obtain ⟨⟨ha, hb, -, -, he, -⟩, hj⟩ := fields_of hv hx
  simp only [decodeCpcbk, hv, accept_ok, fld, List.getD_cons_zero, List.getD_cons_succ, Bool.and_eq_true, Bool.or_eq_true, beq_iff_eq, decide_eq_true_eq] at h
  obtain ⟨⟨⟨⟨⟨hc, rfl⟩, rfl⟩, hk⟩, hz⟩, -, rfl⟩ := h
  refine .of_enc (noRun_of hz) rfl ?_
  simp only [toNat_field ha, toNat_field hb, toNat_field (w := 2) hc, toNat_field he, boolCode_ofCode hk, hj]

theorem cpvq_reads (h : decodeCpvq x = .ok i) : Reads 0x13 x none i := by
  obtain ⟨a, b, c, d, e, g, k, hv⟩ : ∃ a b c d e g k, splitF lCpB x = [a, b, c, d, e, g, k] := ⟨_, _, _, _, _, _, _, rfl⟩
  obtain ⟨⟨ha, hb, hc, -, he, -, hk, -⟩, hj⟩ := fields_of hv hx
  obtain ⟨l, m, n, o, hw⟩ : ∃ l m n o, splitF [3, 2, 1, 6] k = [l, m, n, o] := ⟨_, _, _, _, rfl⟩
  obtain ⟨⟨-, hm, hn, ho, -⟩, hjm⟩ := fields_of hw hk
  simp only [decodeCpvq, hv, hw, accept_ok, fld, List.getD_cons_zero, List.getD_cons_succ, Bool.and_eq_true, beq_iff_eq, decide_eq_true_eq] at h
  obtain ⟨⟨⟨rfl, rfl⟩, hs⟩, ⟨ht, hq⟩, rfl⟩ := h
  have hsp : (if (n == 1) = true then BitVec.ofNat 5 c == 0 else r6 b == 0 && BitVec.ofNat 6 o == 0) = true := by
    by_cases hn1 : n = 1
    · rw [if_pos hn1, beq_iff_eq] at hs
      simp [hn1, hs]
    · rw [if_neg hn1, Bool.and_eq_true, beq_iff_eq, beq_iff_eq] at hs
      simp [hn1, hs]
  refine .of_enc (Bool.and_eq_true_iff.2 ⟨hq, hsp⟩) rfl ?_
  simp only [toNat_field ha, toNat_field hb, toNat_field hc, toNat_field he, toNat_field hm, toNat_field ho, tyCode_ofCode ht,
    boolCode_ofCode hn, hjm, hj]

theorem cpexp_reads (h : decodeCpexp x = .ok i) : Reads 0x14 x none i := by
  obtain ⟨a, b, c, d, e, g, k, hv⟩ : ∃ a b c d e g k, splitF lCpB x = [a, b, c, d, e, g, k] := ⟨_, _, _, _, _, _, _, rfl⟩
  obtain ⟨⟨ha, hb, hc, hd, he, -, hk, -⟩, hj⟩ := fields_of hv hx
  obtain ⟨l, m, n, o, hw⟩ : ∃ l m n o, splitF [5, 1, 3, 3] k = [l, m, n, o] := ⟨_, _, _, _, rfl⟩
  obtain ⟨⟨-, hm, hn, ho, -⟩, hjm⟩ := fields_of hw hk
  simp only [decodeCpexp, hv, hw, accept_ok, fld, List.getD_cons_zero, List.getD_cons_succ, Bool.and_eq_true, beq_iff_eq, decide_eq_true_eq] at h
  obtain ⟨⟨rfl, hs⟩, ⟨ht, hg⟩, rfl⟩ := h
  have hsp : (if (m == 1) = true then BitVec.ofNat 5 c == 0 else r6 b == 0) = true := by
    by_cases hm1 : m = 1
    · rw [if_pos hm1, beq_iff_eq] at hs
      simp [hm1, hs]
    · rw [if_neg hm1, beq_iff_eq] at hs
      simp [hm1, hs]
  refine .of_enc (Bool.and_eq_true_iff.2 ⟨hg, hsp⟩) rfl ?_
  simp only [toNat_field ha, toNat_field hb, toNat_field hc, toNat_field hd, toNat_field he, toNat_field hn, toNat_field ho,
    tyCode_ofCode ht, boolCode_ofCode hm, hjm, hj]

theorem cpfld_reads (h : decodeCpfld x = .ok i) : Reads 0x15 x none i := by
  obtain ⟨a, b, c, d, e, g, k, hv⟩ : ∃ a b c d e g k, splitF lCpB x = [a, b, c, d, e, g, k] := ⟨_, _, _, _, _, _, _, rfl⟩
  obtain ⟨⟨ha, hb, -, hd, he, -, hk, -⟩, hj⟩ := fields_of hv hx
  obtain ⟨l, m, n, hw⟩ : ∃ l m n, splitF [6, 3, 3] k = [l, m, n] := ⟨_, _, _, rfl⟩
  obtain ⟨⟨-, hm, hn, -⟩, hjm⟩ := fields_of hw hk
  simp only [decodeCpfld, hv, hw, accept_ok, fld, List.getD_cons_zero, List.getD_cons_succ, Bool.and_eq_true, beq_iff_eq, decide_eq_true_eq] at h
  obtain ⟨⟨hc, rfl⟩, ⟨ht, hg⟩, rfl⟩ := h
  refine .of_enc hg rfl ?_
  simp only [toNat_field ha, toNat_field hb, toNat_field (w := 4) hc, toNat_field hd, toNat_field he, toNat_field hm, toNat_field hn,
    tyCode_ofCode ht, hjm, hj]

/-- A CP-C command: unused fields are zero, MOD fits its bits, the type is accepted. -/
theorem cpEx_reads {uA uC uL uT : Bool} {mod : Nat} {ok : Ty → Bool} {f : SReg → SReg → SReg → Nat → Nat → Ty → Nat → Instr}
    (h : cpEx uA uC uL uT mod ok f x = .ok i)
    (hf : ∀ a b c l w t m, l < 2 ^ 6 → w < 2 ^ 8 → m < 2 ^ mod → (uA = false → a = 0) → (uC = false → c = 0) →
      (uL = false → l = 0 ∧ w = 0) → (uT = false → t = .f64) → (uT = true → ok t = true) →
      (f a b c l w t m).wf = true ∧ encodeOp (f a b c l w t m) = some (encCpC op a b c l w t.code m)) : Reads op x none i := by
  obtain ⟨a, b, c, d, e, g, k, hv⟩ : ∃ a b c d e g k, splitF lCpC x = [a, b, c, d, e, g, k] := ⟨_, _, _, _, _, _, _, rfl⟩
  obtain ⟨⟨ha, hb, hc, hd, he, -⟩, hj⟩ := fields_of hv hx
  simp only [cpEx, hv, accept_ok, fld, List.getD_cons_zero, List.getD_cons_succ, Bool.and_eq_true, Bool.or_eq_true, Bool.not_eq_true', beq_iff_eq, decide_eq_true_eq] at h
  obtain ⟨⟨⟨⟨⟨hA, hC⟩, hL⟩, hT⟩, hk⟩, hok, rfl⟩ := h
  have hz : ∀ {u : Bool} {n : Nat}, u = true ∨ n = 0 → u = false → r6 n = 0 := by
    rintro u n (rfl | rfl) hu
    · exact absurd hu (by decide)
    · rfl
  have ht : g < 14 := by
    rcases hok with rfl | hok
    · rw [hT.resolve_left Bool.false_ne_true]
      decide
    · exact hok.1
  have hg := hf (r6 a) (r6 b) (r6 c) d e (Ty.ofCode g) k hd he hk (hz hA) (hz hC) (fun hu => hL.resolve_left (by simp [hu]))
    (fun hu => by rw [hT.resolve_left (by simp [hu])]; rfl) (fun hu => (hok.resolve_left (by simp [hu])).2)
  refine .of_enc hg.1 hg.2 ?_
  simp only [toNat_field ha, toNat_field hb, toNat_field hc, tyCode_ofCode ht, hj]

-- The vector engine's formats --------------------------------------------------------------------------------------------------------------

theorem veTwo_reads {f : VOps → Rm → Instr} {ok : Ty → Rm → Bool} {e : Option Nat} (h : veTwo f ok x = .ok i)
    (hf : ∀ o r, ok o.ty r = true → (f o r).wf = true ∧
      encodeOp (f o r) = some (encVeA op o.vd.toNat o.va.toNat o.vb.toNat o.prd.code o.z o.ty.code r.code e)) : Reads op x e i := by
  obtain ⟨a, b, c, d, g, k, m, hv⟩ : ∃ a b c d g k m, splitF lVeA x = [a, b, c, d, g, k, m] := ⟨_, _, _, _, _, _, _, rfl⟩
  obtain ⟨⟨ha, hb, hc, -, hg, -⟩, hj⟩ := fields_of hv hx
  simp only [veTwo, hv, accept_ok, fld, List.getD_cons_zero, List.getD_cons_succ, Bool.and_eq_true, decide_eq_true_eq] at h
  obtain ⟨-, ⟨⟨⟨hd, hk⟩, hm⟩, hok⟩, rfl⟩ := h
  refine .of_enc (hf _ _ hok).1 (hf _ _ hok).2 ?_
  simp only [toNat_field ha, toNat_field hb, toNat_field hc, prdCode_ofCode hd, boolCode_ofCode hg, tyCode_ofCode hk, rmCode_ofCode hm,
    hj]

theorem veOne_reads {f : VOps1 → Rm → Instr} {ok : Ty → Rm → Bool} (h : veOne f ok x = .ok i)
    (hf : ∀ o r, ok o.ty r = true → (f o r).wf = true ∧ encodeOp (f o r) = some (encV1 op o 0 r)) : Reads op x none i := by
  obtain ⟨a, b, c, d, g, k, m, hv⟩ : ∃ a b c d g k m, splitF lVeA x = [a, b, c, d, g, k, m] := ⟨_, _, _, _, _, _, _, rfl⟩
  obtain ⟨⟨ha, hb, -, -, hg, -⟩, hj⟩ := fields_of hv hx
  simp only [veOne, hv, accept_ok, fld, List.getD_cons_zero, List.getD_cons_succ, Bool.and_eq_true, beq_iff_eq, decide_eq_true_eq] at h
  obtain ⟨rfl, ⟨⟨⟨hd, hk⟩, hm⟩, hok⟩, rfl⟩ := h
  refine .of_enc (hf _ _ hok).1 (hf _ _ hok).2 ?_
  simp only [toNat_field ha, toNat_field hb, prdCode_ofCode hd, boolCode_ofCode hg, tyCode_ofCode hk, rmCode_ofCode hm, hj]

theorem vcvt_reads (h : decodeVcvt x = .ok i) : Reads 0x0D x none i := by
  obtain ⟨a, b, c, d, g, k, m, hv⟩ : ∃ a b c d g k m, splitF lVeA x = [a, b, c, d, g, k, m] := ⟨_, _, _, _, _, _, _, rfl⟩
  obtain ⟨⟨ha, hb, hc, -, hg, -⟩, hj⟩ := fields_of hv hx
  obtain ⟨n, o, p, hw⟩ : ∃ n o p, splitF [2, 3, 4] c = [n, o, p] := ⟨_, _, _, rfl⟩
  obtain ⟨⟨-, ho, -⟩, hjm⟩ := fields_of hw hc
  simp only [decodeVcvt, hv, hw, accept_ok, fld, List.getD_cons_zero, List.getD_cons_succ, Bool.and_eq_true, beq_iff_eq, decide_eq_true_eq] at h
  obtain ⟨rfl, ⟨⟨⟨⟨⟨⟨hd, hk⟩, hm⟩, hp⟩, htA⟩, hsA⟩, hr⟩, rfl⟩ := h
  refine .of_enc (Bool.and_eq_true_iff.2 ⟨Bool.and_eq_true_iff.2 ⟨htA, hsA⟩, hr⟩) rfl ?_
  simp only [toNat_field ha, toNat_field hb, toNat_field ho, prdCode_ofCode hd, boolCode_ofCode hg, tyCode_ofCode hk, tyCode_ofCode hp,
    rmCode_ofCode hm, hjm, hj]

theorem vcmp_reads (h : decodeVcmp x = .ok i) : Reads 0x0E x none i := by
  obtain ⟨a, b, c, d, g, k, m, hv⟩ : ∃ a b c d g k m, splitF lVeA x = [a, b, c, d, g, k, m] := ⟨_, _, _, _, _, _, _, rfl⟩
  obtain ⟨⟨-, hb, hc, -, hg, -, hm, -⟩, hj⟩ := fields_of hv hx
  simp only [decodeVcmp, hv, accept_ok, fld, List.getD_cons_zero, List.getD_cons_succ, Bool.and_eq_true, decide_eq_true_eq] at h
  obtain ⟨ha, ⟨⟨hd, hk⟩, hok⟩, rfl⟩ := h
  refine .of_enc hok rfl ?_
  simp only [toNat_field (w := 4) ha, toNat_field hb, toNat_field hc, prdCode_ofCode hd, boolCode_ofCode hg, tyCode_ofCode hk,
    condCode_ofCode hm, hj]

theorem vsel_reads (h : decodeVsel x = .ok i) : Reads 0x0F x none i := by
  obtain ⟨a, b, c, d, g, k, m, hv⟩ : ∃ a b c d g k m, splitF lVeA x = [a, b, c, d, g, k, m] := ⟨_, _, _, _, _, _, _, rfl⟩
  obtain ⟨⟨ha, hb, hc, -⟩, hj⟩ := fields_of hv hx
  simp only [decodeVsel, hv, accept_ok, fld, List.getD_cons_zero, List.getD_cons_succ, Bool.and_eq_true, beq_iff_eq, decide_eq_true_eq] at h
  obtain ⟨rfl, ⟨⟨⟨hd, rfl⟩, hk⟩, hA⟩, rfl⟩ := h
  refine .of_enc hA rfl ?_
  simp only [toNat_field ha, toNat_field hb, toNat_field hc, toNat_field (w := 4) hd, tyCode_ofCode hk, boolCode_false, hj]

theorem veGen_reads {f : VReg → Prd → Bool → Ty → Instr} {ok : Ty → Bool} (h : veGen f ok x = .ok i)
    (hf : ∀ d p z t, ok t = true → (f d p z t).wf = true ∧
      encodeOp (f d p z t) = some (encVeA op d.toNat 0 0 p.code z t.code 0 none)) : Reads op x none i := by
  obtain ⟨a, b, c, d, g, k, m, hv⟩ : ∃ a b c d g k m, splitF lVeA x = [a, b, c, d, g, k, m] := ⟨_, _, _, _, _, _, _, rfl⟩
  obtain ⟨⟨ha, -, -, -, hg, -⟩, hj⟩ := fields_of hv hx
  simp only [veGen, hv, accept_ok, fld, List.getD_cons_zero, List.getD_cons_succ, Bool.and_eq_true, beq_iff_eq, decide_eq_true_eq] at h
  obtain ⟨⟨⟨rfl, rfl⟩, rfl⟩, ⟨⟨hd, hk⟩, hok⟩, rfl⟩ := h
  refine .of_enc (hf _ _ _ _ hok).1 (hf _ _ _ _ hok).2 ?_
  simp only [toNat_field ha, prdCode_ofCode hd, boolCode_ofCode hg, tyCode_ofCode hk, hj]

theorem vlog3_reads {ext : Nat} (h : decodeVlog3 x ext = .ok i) : Reads 0x23 x (some ext) i := by
  unfold decodeVlog3 at h
  split at h
  · exact nomatch h
  · have hext : (BitVec.ofNat 8 ext).toNat = ext := toNat_field (by omega)
    refine veTwo_reads hx h fun o r hok => ?_
    obtain ⟨-, rfl⟩ := noRm_iff.1 hok
    exact ⟨rfl, congrArg (fun e => some (_, _, some e)) hext⟩

theorem vfsh_reads {ext : Nat} (h : decodeVfsh x ext = .ok i) : Reads 0x27 x (some ext) i := by
  unfold decodeVfsh at h
  split at h
  · exact nomatch h
  · have hext : (BitVec.ofNat 7 ext).toNat = ext := toNat_field (by omega)
    refine veTwo_reads hx h fun o r hok => ?_
    obtain ⟨hI, rfl⟩ := noRm_iff.1 hok
    exact ⟨hI, congrArg (fun e => some (_, _, some e)) hext⟩

theorem vbcst_reads (h : decodeVbcst x = .ok i) : Reads 0x31 x none i := by
  obtain ⟨a, b, c, d, g, k, m, hv⟩ : ∃ a b c d g k m, splitF lVeA x = [a, b, c, d, g, k, m] := ⟨_, _, _, _, _, _, _, rfl⟩
  obtain ⟨⟨ha, hb, -, -, hg, -⟩, hj⟩ := fields_of hv hx
  simp only [decodeVbcst, hv, accept_ok, fld, List.getD_cons_zero, List.getD_cons_succ, Bool.and_eq_true, beq_iff_eq, decide_eq_true_eq] at h
  obtain ⟨⟨hc, rfl⟩, ⟨⟨hd, hk⟩, hA⟩, rfl⟩ := h
  refine .of_enc hA rfl ?_
  simp only [toNat_field ha, toNat_field hb, toNat_field (w := 7) hc, prdCode_ofCode hd, boolCode_ofCode hg, tyCode_ofCode hk, Rm.code,
    hj]

theorem vstep_reads (h : decodeVstep x = .ok i) : Reads 0x38 x none i := by
  obtain ⟨a, b, c, d, g, k, m, hv⟩ : ∃ a b c d g k m, splitF lVeA x = [a, b, c, d, g, k, m] := ⟨_, _, _, _, _, _, _, rfl⟩
  obtain ⟨⟨ha, hb, hc, -⟩, hj⟩ := fields_of hv hx
  obtain ⟨n, o, p, hw⟩ : ∃ n o p, splitF [1, 4, 4] c = [n, o, p] := ⟨_, _, _, rfl⟩
  obtain ⟨⟨-, ho, hp, -⟩, hjm⟩ := fields_of hw hc
  simp only [decodeVstep, hv, hw, accept_ok, fld, List.getD_cons_zero, List.getD_cons_succ, Bool.and_eq_true, beq_iff_eq, decide_eq_true_eq] at h
  obtain ⟨⟨rfl, hm⟩, ⟨⟨⟨rfl, rfl⟩, hk⟩, hA⟩, rfl⟩ := h
  refine .of_enc hA rfl ?_
  simp only [toNat_field ha, toNat_field hb, toNat_field ho, toNat_field hp, tyCode_ofCode hk, boolCode_false, boolCode_ofCode hm, hjm, hj]

theorem veMask_reads {f : BitVec 4 → BitVec 4 → BitVec 4 → Instr} {two : Bool} (h : veMask f two x = .ok i)
    (hf : ∀ d a b, (two = false → b = 0) → (f d a b).wf = true ∧
      encodeOp (f d a b) = some (encVeA op d.toNat a.toNat b.toNat 24 false 0 0 none)) : Reads op x none i := by
  obtain ⟨a, b, c, d, g, k, m, hv⟩ : ∃ a b c d g k m, splitF lVeA x = [a, b, c, d, g, k, m] := ⟨_, _, _, _, _, _, _, rfl⟩
  obtain ⟨-, hj⟩ := fields_of hv hx
  simp only [veMask, hv, accept_ok, fld, List.getD_cons_zero, List.getD_cons_succ, Bool.and_eq_true, beq_iff_eq, decide_eq_true_eq] at h
  obtain ⟨⟨⟨⟨⟨ha, hb⟩, hc⟩, rfl⟩, rfl⟩, ⟨rfl, rfl⟩, rfl⟩ := h
  have hc4 : c < 2 ^ 4 ∧ (two = false → c = 0) := by
    cases two
    · simp_all
    · simp_all
  have hg := hf (BitVec.ofNat 4 a) (BitVec.ofNat 4 b) (BitVec.ofNat 4 c) (fun ht => by rw [hc4.2 ht]; rfl)
  refine .of_enc hg.1 hg.2 ?_
  simp only [toNat_field (w := 4) ha, toNat_field (w := 4) hb, toNat_field hc4.1, boolCode_false, hj]

theorem mpop_reads (h : decodeMpop x = .ok i) : Reads 0x44 x none i := by
  obtain ⟨a, b, c, d, g, k, m, hv⟩ : ∃ a b c d g k m, splitF lVeA x = [a, b, c, d, g, k, m] := ⟨_, _, _, _, _, _, _, rfl⟩
  obtain ⟨⟨ha, -⟩, hj⟩ := fields_of hv hx
  simp only [decodeMpop, hv, accept_ok, fld, List.getD_cons_zero, List.getD_cons_succ, Bool.and_eq_true, beq_iff_eq, decide_eq_true_eq] at h
  obtain ⟨⟨⟨hb, rfl⟩, rfl⟩, ⟨⟨⟨rfl, rfl⟩, hk⟩, hI⟩, rfl⟩ := h
  refine .of_enc hI rfl ?_
  simp only [toNat_field ha, toNat_field (w := 4) hb, tyCode_ofCode hk, boolCode_false, hj]

theorem kmsk_reads (h : decodeKmsk x = .ok i) : Reads 0x45 x none i := by
  obtain ⟨a, b, c, d, g, k, m, hv⟩ : ∃ a b c d g k m, splitF lVeA x = [a, b, c, d, g, k, m] := ⟨_, _, _, _, _, _, _, rfl⟩
  obtain ⟨-, hj⟩ := fields_of hv hx
  simp only [decodeKmsk, hv, accept_ok, fld, List.getD_cons_zero, List.getD_cons_succ, Bool.and_eq_true, beq_iff_eq, decide_eq_true_eq] at h
  obtain ⟨⟨⟨⟨ha, hb⟩, rfl⟩, rfl⟩, ⟨⟨rfl, rfl⟩, hk⟩, rfl⟩ := h
  refine .of_enc rfl rfl ?_
  simp only [toNat_field (w := 3) ha, toNat_field (w := 4) hb, tyCode_ofCode hk, boolCode_false, hj]

theorem kset_reads (h : decodeKset x = .ok i) : Reads 0x51 x none i := by
  obtain ⟨a, b, c, d, e, g, k, hv⟩ : ∃ a b c d e g k, splitF lVeB x = [a, b, c, d, e, g, k] := ⟨_, _, _, _, _, _, _, rfl⟩
  obtain ⟨⟨-, hb, -⟩, hj⟩ := fields_of hv hx
  simp only [decodeKset, hv, accept_ok, fld, List.getD_cons_zero, List.getD_cons_succ, Bool.and_eq_true, beq_iff_eq, decide_eq_true_eq] at h
  obtain ⟨⟨⟨ha, rfl⟩, rfl⟩, ⟨⟨rfl, rfl⟩, he⟩, rfl⟩ := h
  refine .of_enc rfl rfl ?_
  simp only [toNat_field (w := 3) ha, toNat_field hb, tyCode_ofCode he, hj]

theorem veImm_reads {f : VImm → Nat → Instr} {ok : Ty → Nat → Bool} (h : veImm f ok x = .ok i)
    (hf : ∀ o n, n < 2 ^ 3 → ok o.ty n = true → (f o n).wf = true ∧ encodeOp (f o n) = some (encVi op o n)) : Reads op x none i := by
  obtain ⟨a, b, c, d, e, g, k, hv⟩ : ∃ a b c d e g k, splitF lVeB x = [a, b, c, d, e, g, k] := ⟨_, _, _, _, _, _, _, rfl⟩
  obtain ⟨⟨ha, hb, -, hd, -, hg, -⟩, hj⟩ := fields_of hv hx
  simp only [veImm, hv, accept_ok, fld, List.getD_cons_zero, List.getD_cons_succ, Bool.and_eq_true, beq_iff_eq, decide_eq_true_eq] at h
  obtain ⟨rfl, ⟨⟨hc, he⟩, hok⟩, rfl⟩ := h
  refine .of_enc (hf _ _ hg hok).1 (hf _ _ hg hok).2 ?_
  simp only [toNat_field ha, toNat_field hb, prdCode_ofCode hc, boolCode_ofCode hd, tyCode_ofCode he, hj]

theorem veMem_reads {f : VMem → Instr} {g : VMem → BitVec 4 → Instr} (h : veMem f g x = .ok i)
    (hf : ∀ o, (f o).wf = true ∧ encodeOp (f o) = some (encVm op o none))
    (hg : ∀ o y, (g o y).wf = true ∧ encodeOp (g o y) = some (encVm op o (some y))) : Reads op x none i := by
  obtain ⟨a, b, c, d, e, k, l, m, n, o, p, hv⟩ :
    ∃ a b c d e k l m n o p, splitF lVeC x = [a, b, c, d, e, k, l, m, n, o, p] := ⟨_, _, _, _, _, _, _, _, _, _, _, rfl⟩
  obtain ⟨⟨ha, -, hc, hd, -, hk, -, -, hn, ho, -⟩, hj⟩ := fields_of hv hx
  simp only [veMem, hv, accept_ok, fld, List.getD_cons_zero, List.getD_cons_succ, Bool.and_eq_true, Bool.or_eq_true, beq_iff_eq, decide_eq_true_eq] at h
  obtain ⟨⟨⟨rfl, hy⟩, rfl⟩, ⟨⟨hb, he⟩, hl⟩, rfl⟩ := h
  obtain rfl | rfl : o = 0 ∨ o = 1 := by omega
  · rw [if_neg Nat.zero_ne_one]
    obtain rfl : n = 0 := hy.resolve_left (by decide)
    refine .of_enc (hf _).1 (hf _).2 ?_
    simp only [toNat_field ha, blkOfCode_toNat hb, toNat_field hc, toNat_field hd, prdCode_ofCode he, boolCode_ofCode hk, tyCode_ofCode hl,
      syCode_none, Option.isSome_none, boolCode_false, hj]
  · rw [if_pos rfl]
    refine .of_enc (hg _ _).1 (hg _ _).2 ?_
    simp only [toNat_field ha, blkOfCode_toNat hb, toNat_field hc, toNat_field hd, prdCode_ofCode he, boolCode_ofCode hk, tyCode_ofCode hl,
      syCode_some, toNat_field hn, Option.isSome_some, boolCode_true, hj]

theorem vcst_reads (h : decodeVcst x = .ok i) : Reads 0x62 x none i := by
  obtain ⟨a, b, c, d, e, k, l, m, n, o, p, hv⟩ :
    ∃ a b c d e k l m n o p, splitF lVeC x = [a, b, c, d, e, k, l, m, n, o, p] := ⟨_, _, _, _, _, _, _, _, _, _, _, rfl⟩
  obtain ⟨⟨ha, -, -, hd, -, hk, -, hm, -⟩, hj⟩ := fields_of hv hx
  simp only [decodeVcst, hv, accept_ok, fld, List.getD_cons_zero, List.getD_cons_succ, Bool.and_eq_true, beq_iff_eq, decide_eq_true_eq] at h
  obtain ⟨⟨⟨⟨rfl, rfl⟩, rfl⟩, rfl⟩, ⟨⟨⟨hb, he⟩, hl⟩, hA⟩, rfl⟩ := h
  refine .of_enc hA rfl ?_
  simp only [toNat_field ha, blkOfCode_toNat hb, toNat_field hd, prdCode_ofCode he, boolCode_ofCode hk, tyCode_ofCode hl, toNat_field hm, hj]

-- The contraction engine's formats --------------------------------------------------------------------------------------------------------

theorem ceSlot_reads {uD uS uA : Bool} {f : Nat → Nat → Nat → Instr} (h : ceSlot uD uS uA f x = .ok i)
    (hf : ∀ d s c, d < 2 ^ 4 → s < 2 ^ 4 → c < 2 ^ 5 → (uD = false → d = 0) → (uS = false → s = 0) → (uA = false → c = 0) →
      (f d s c).wf = true ∧ encodeOp (f d s c) = some (encCeA op d s c 0 0 0 0 false 0 false)) : Reads op x none i := by
  obtain ⟨a, b, c, d, e, k, l, m, n, o, p, hv⟩ :
    ∃ a b c d e k l m n o p, splitF lCeA x = [a, b, c, d, e, k, l, m, n, o, p] := ⟨_, _, _, _, _, _, _, _, _, _, _, rfl⟩
  obtain ⟨⟨ha, hb, hc, -⟩, hj⟩ := fields_of hv hx
  simp only [ceSlot, hv, accept_ok, fld, List.getD_cons_zero, List.getD_cons_succ, Bool.and_eq_true, Bool.or_eq_true, beq_iff_eq] at h
  obtain ⟨⟨⟨⟨⟨⟨⟨⟨⟨⟨⟨hD, hS⟩, hA⟩, rfl⟩, rfl⟩, rfl⟩, rfl⟩, rfl⟩, rfl⟩, rfl⟩, rfl⟩, -, rfl⟩ := h
  have hz : ∀ {u : Bool} {n : Nat}, u = true ∨ n = 0 → u = false → n = 0 := fun h hu => h.resolve_left (by simp [hu])
  have hg := hf a b c ha hb hc (hz hD) (hz hS) (hz hA)
  exact .of_enc hg.1 hg.2 hj

theorem ceMma_reads {f : MmaOps → Nat → Nat → Instr} {sparse : Bool} (h : ceMma f sparse x = .ok i)
    (hf : ∀ o p k, p < 2 ^ 3 → k < 2 ^ 1 → (sparse = false → p = 0 ∧ k = 0) → o.ty.inClass = true → (o.ty.inF = true → o.sat = false) →
      (f o p k).wf = true ∧ encodeOp (f o p k) = some (encCeA op o.td.toNat 0 o.ca.toNat o.cb.toNat o.ty.code o.rma.code o.rmb.code o.sat
        p (k == 1))) : Reads op x none i := by
  obtain ⟨a, b, c, d, e, k, l, m, n, o, p, hv⟩ :
    ∃ a b c d e k l m n o p, splitF lCeA x = [a, b, c, d, e, k, l, m, n, o, p] := ⟨_, _, _, _, _, _, _, _, _, _, _, rfl⟩
  obtain ⟨⟨ha, -, hc, hd, -, hk, hl, hm, hn, ho, -⟩, hj⟩ := fields_of hv hx
  simp only [ceMma, hv, accept_ok, fld, List.getD_cons_zero, List.getD_cons_succ, Bool.and_eq_true, Bool.or_eq_true, Bool.not_eq_true', beq_iff_eq, decide_eq_true_eq] at h
  obtain ⟨⟨⟨⟨rfl, hsp⟩, rfl⟩, hsat⟩, ⟨he, hcls⟩, rfl⟩ := h
  have hg := hf ⟨BitVec.ofNat 4 a, BitVec.ofNat 5 c, BitVec.ofNat 5 d, Ty.ofCode e, ReadMode.ofCode k, ReadMode.ofCode l, m == 1⟩ n o hn ho
    (fun hs => hsp.resolve_left (by simp [hs])) hcls (fun hF => by rw [hsat.resolve_left (by simpa using hF)]; rfl)
  refine .of_enc hg.1 hg.2 ?_
  simp only [toNat_field ha, toNat_field hc, toNat_field hd, tyCode_ofCode he, readModeCode_ofCode hk, readModeCode_ofCode hl,
    boolCode_ofCode hm, boolCode_ofCode ho, hj]

theorem ceMove_reads {f : BitVec 4 → SReg → Blk → Run → Instr} (h : ceMove f x = .ok i)
    (hf : ∀ t r b n, (f t r b n).wf = true ∧ encodeOp (f t r b n) = some (encCeB op 0 t.toNat 0 0 r b.val n.toNat 0)) :
    Reads op x none i := by
  obtain ⟨a, b, c, d, e, k, l, m, n, hv⟩ :
    ∃ a b c d e k l m n, splitF lCeB x = [a, b, c, d, e, k, l, m, n] := ⟨_, _, _, _, _, _, _, _, _, rfl⟩
  obtain ⟨⟨-, hb, -, -, he, -, hl, -⟩, hj⟩ := fields_of hv hx
  simp only [ceMove, hv, accept_ok, fld, List.getD_cons_zero, List.getD_cons_succ, Bool.and_eq_true, beq_iff_eq, decide_eq_true_eq] at h
  obtain ⟨⟨⟨⟨⟨rfl, rfl⟩, rfl⟩, rfl⟩, rfl⟩, hk, rfl⟩ := h
  refine .of_enc (hf _ _ _ _).1 (hf _ _ _ _).2 ?_
  simp only [toNat_field hb, toNat_field he, toNat_field hl, blkOfCode_toNat hk, hj]

theorem ocon_reads (h : decodeOcon x = .ok i) : Reads 0x12 x none i := by
  obtain ⟨a, b, c, d, e, k, l, m, n, hv⟩ :
    ∃ a b c d e k l m n, splitF lCeB x = [a, b, c, d, e, k, l, m, n] := ⟨_, _, _, _, _, _, _, _, _, rfl⟩
  obtain ⟨⟨ha, -, hc, hd, -⟩, hj⟩ := fields_of hv hx
  simp only [decodeOcon, hv, accept_ok, fld, List.getD_cons_zero, List.getD_cons_succ, Bool.and_eq_true, beq_iff_eq, decide_eq_true_eq] at h
  obtain ⟨⟨⟨⟨⟨rfl, rfl⟩, rfl⟩, rfl⟩, rfl⟩, hm, rfl⟩ := h
  refine .of_enc rfl rfl ?_
  simp only [toNat_field ha, toNat_field hc, toNat_field hd, tyCode_ofCode hm, toNat_s0, hj]

theorem oconp_reads (h : decodeOconp x = .ok i) : Reads 0x13 x none i := by
  obtain ⟨a, b, c, d, e, k, l, m, n, hv⟩ :
    ∃ a b c d e k l m n, splitF lCeB x = [a, b, c, d, e, k, l, m, n] := ⟨_, _, _, _, _, _, _, _, _, rfl⟩
  obtain ⟨⟨-, -, hc, hd, he, -⟩, hj⟩ := fields_of hv hx
  simp only [decodeOconp, hv, accept_ok, fld, List.getD_cons_zero, List.getD_cons_succ, Bool.and_eq_true, beq_iff_eq, decide_eq_true_eq] at h
  obtain ⟨⟨⟨⟨⟨rfl, rfl⟩, rfl⟩, rfl⟩, rfl⟩, hm, rfl⟩ := h
  refine .of_enc rfl rfl ?_
  simp only [toNat_field hc, toNat_field hd, toNat_field he, tyCode_ofCode hm, hj]

end

end Sys2Proof.Proofs
end

