-- ==== Sys2Proof/Proofs/DecodedWords.lean ====
section
/-! PROOF. The converse of the round trip (R118 to R146), by the four maps: what a map accepts is what the encoder writes. -/

namespace Sys2Proof.Proofs

open Sys2Proof Sys2Proof.Machine Sys2Proof.Claims Sys2Proof.Laws

-- The four maps ------------------------------------------------------------------------------------------------------------------------------

theorem encD_field {op w n : Nat} {d a b : SReg} (hn : n < 2 ^ w) : encD op d a b (BitVec.ofNat w n).toNat = encD op d a b n := by
  rw [toNat_field hn]

theorem encCpC_per {op l w t m : Nat} {a b c : SReg} (hm : m < 2 ^ 4) :
    encCpC op a b c l w t (8 * boolCode (m / 8 == 1) + (BitVec.ofNat 3 m).toNat) = encCpC op a b c l w t m := by
  rw [boolCode_ofCode (by omega), BitVec.toNat_ofNat, show 8 * (m / 8) + m % 2 ^ 3 = m by omega]

theorem immRm_iff {t : Ty} {n : Nat} : immRm t n = true ↔ n < 5 ∧ fiRm t (Rm.ofCode n) = true := by
  simp [immRm]

theorem immNo_iff {ok : Ty → Bool} {t : Ty} {n : Nat} : immNo ok t n = true ↔ ok t = true ∧ n = 0 := by
  simp [immNo]

theorem encVi_rm {op n : Nat} {o : VImm} (hn : n < 5) : encVi op o (Rm.ofCode n).code = encVi op o n := by
  rw [rmCode_ofCode hn]

theorem encVi_cond {op n : Nat} {o : VImm} (hn : n < 2 ^ 3) : encVi op o (Cond.ofCode n).code = encVi op o n := by
  rw [condCode_ofCode hn]

/-- CPGTH has no DUP: its bit is 0. -/
theorem cpgth_form {o : IndexOps} {d : Bool} (h : (o.wf && (o.sy.isNone || o.sa == 0) && !d) = true) :
    (Instr.cpgth o).wf = true ∧ encodeOp (.cpgth o) = some (encIndex 0x04 o d) := by
  rw [Bool.and_eq_true, Bool.not_eq_true'] at h
  obtain ⟨hwf, rfl⟩ := h
  exact ⟨hwf, rfl⟩

theorem encCeA_slot {op c : Nat} (hc : c < 2 ^ 5) : encCeA op 0 0 (BitVec.ofNat 5 c).toNat 0 0 0 0 false 0 false =
    encCeA op 0 0 c 0 0 0 0 false 0 false := by
  rw [toNat_field hc]

theorem encCeA_tile {op d : Nat} (hd : d < 2 ^ 4) : encCeA op (BitVec.ofNat 4 d).toNat 0 0 0 0 0 0 false 0 false =
    encCeA op d 0 0 0 0 0 0 false 0 false := by
  rw [toNat_field hd]

/-- The class condition of MMA and MMAS: no saturation on a floating type. -/
theorem mma_wf {o : MmaOps} (hcls : o.ty.inClass = true) (hsat : o.ty.inF = true → o.sat = false) :
    (o.ty.inClass && (!o.ty.inF || !o.sat)) = true := by
  rw [hcls, Bool.true_and]
  cases hF : o.ty.inF with
  | false => rfl
  | true => rw [hsat hF]; rfl

section
variable {op x ext : Nat} {i : Instr} (hx : x < 2 ^ 40)
include hx

/-- CPLD and CPLD.cb share an opcode; the bit above LCE tells them apart. -/
theorem cpld_reads (h : decodeCpld x = .ok i) : Reads 0x00 x none i := by
  unfold decodeCpld at h
  split at h
  · exact cpMove_reads hx h fun _ ho => ⟨ho, rfl⟩
  · exact cpMove_reads hx h fun _ ho => ⟨ho, rfl⟩

theorem cpset_reads (h : decodeCpset x = .ok i) : Reads 0x03 x none i := by
  unfold decodeCpset at h
  split at h
  · exact cpMove_reads hx h fun _ ho => ⟨ho, rfl⟩
  · exact cpMove_reads hx h fun _ ho => ⟨ho, rfl⟩

theorem decodeCc_reads (hext : ext < 2 ^ 64) (h : decodeCc op x ext = .ok i) :
    Reads op x (if hasOperandExt .cc op then some ext else none) i := by
  unfold decodeCc at h
  split at h
  · exact ccThree_reads hx h fun _ _ _ => ⟨rfl, rfl⟩
  · exact ccThree_reads hx h fun _ _ _ => ⟨rfl, rfl⟩
  · exact ccThree_reads hx h fun _ _ _ => ⟨rfl, rfl⟩
  · exact ccThree_reads hx h fun _ _ _ => ⟨rfl, rfl⟩
  · exact ccThree_reads hx h fun _ _ _ => ⟨rfl, rfl⟩
  · exact ccThree_reads hx h fun _ _ _ => ⟨rfl, rfl⟩
  · exact ccThree_reads hx h fun _ _ _ => ⟨rfl, rfl⟩
  · exact ccThree_reads hx h fun _ _ _ => ⟨rfl, rfl⟩
  · exact ccThree_reads hx h fun _ _ _ => ⟨rfl, rfl⟩
  · exact ccThree_reads hx h fun _ _ _ => ⟨rfl, rfl⟩
  · exact ccThree_reads hx h fun _ _ _ => ⟨rfl, rfl⟩
  · exact ccThree_reads hx h fun _ _ _ => ⟨rfl, rfl⟩
  · exact ccThree_reads hx h fun _ _ _ => ⟨rfl, rfl⟩
  · exact ccThree_reads hx h fun _ _ _ => ⟨rfl, rfl⟩
  · exact ccThree_reads hx h fun _ _ _ => ⟨rfl, rfl⟩
  · exact ccFour_reads hx h fun _ _ _ _ => ⟨rfl, rfl⟩
  · exact ccThree_reads hx h fun _ _ _ => ⟨rfl, rfl⟩
  · exact ccThree_reads hx h fun _ _ _ => ⟨rfl, rfl⟩
  · exact ccThree_reads hx h fun _ _ _ => ⟨rfl, rfl⟩
  · exact ccThree_reads hx h fun _ _ _ => ⟨rfl, rfl⟩
  · exact ccThree_reads hx h fun _ _ _ => ⟨rfl, rfl⟩
  · exact ccThree_reads hx h fun _ _ _ => ⟨rfl, rfl⟩
  · exact ccThree_reads hx h fun _ _ _ => ⟨rfl, rfl⟩
  · exact ccThree_reads hx h fun _ _ _ => ⟨rfl, rfl⟩
  · exact ccThree_reads hx h fun _ _ _ => ⟨rfl, rfl⟩
  · exact ccFour_reads hx h fun _ _ _ _ => ⟨rfl, rfl⟩
  · exact ccThree_reads hx h fun _ _ _ => ⟨rfl, rfl⟩
  · exact patch_reads hx h
  · exact fqpush_reads hx h
  · exact ccImm_reads hx h fun _ _ _ => ⟨rfl, rfl⟩
  · exact ccImm_reads hx h fun _ _ _ => ⟨rfl, rfl⟩
  · exact ccImm_reads hx h fun _ _ _ => ⟨rfl, rfl⟩
  · exact ccImm_reads hx h fun _ _ _ => ⟨rfl, rfl⟩
  · exact ccShift_reads hx h fun _ _ _ => ⟨rfl, rfl⟩
  · exact ccShift_reads hx h fun _ _ _ => ⟨rfl, rfl⟩
  · exact ccShift_reads hx h fun _ _ _ => ⟨rfl, rfl⟩
  · exact ccImm_reads hx h fun _ _ _ => ⟨rfl, rfl⟩
  · exact ccImm_reads hx h fun _ _ _ => ⟨rfl, rfl⟩
  · exact movi_reads hx h
  · exact ccImm_reads hx h fun _ _ _ => ⟨rfl, rfl⟩
  · exact ccImm_reads hx h fun _ _ _ => ⟨rfl, rfl⟩
  · exact ccImm_reads hx h fun _ _ _ => ⟨rfl, rfl⟩
  · exact ccImm_reads hx h fun _ _ _ => ⟨rfl, rfl⟩
  · exact br_reads hx h
  · exact ccJump_reads hx h fun _ => ⟨rfl, rfl⟩
  · exact ccJump_reads hx h fun _ => ⟨rfl, rfl⟩
  · simp only [accept_ok, beq_iff_eq] at h
    obtain ⟨rfl, -, rfl⟩ := h
    exact ⟨rfl, rfl⟩
  · exact ccSys_reads hx h (by rintro d a b n hn - ha hb; cases ha rfl; cases hb rfl; exact ⟨rfl, congrArg some (encD_field hn)⟩)
  · exact ccSys_reads hx h (by rintro d a b n hn hd - hb; cases hd rfl; cases hb rfl; exact ⟨rfl, congrArg some (encD_field hn)⟩)
  · exact ccSys_reads hx h (by rintro d a b n hn - ha hb; cases ha rfl; cases hb rfl; cases Nat.lt_one_iff.1 hn; exact ⟨rfl, rfl⟩)
  · exact ccSys_reads hx h (by rintro d a b n hn hd - hb; cases hd rfl; cases hb rfl; exact ⟨rfl, congrArg some (encD_field hn)⟩)
  · exact ccSys_reads hx h (by rintro d a b n hn - ha hb; cases ha rfl; cases hb rfl; exact ⟨rfl, congrArg some (encD_field hn)⟩)
  · exact ccSys_reads hx h (by rintro d a b n hn hd ha hb; cases hd rfl; cases ha rfl; cases hb rfl; exact ⟨rfl, congrArg some (encD_field hn)⟩)
  · exact ccSys_reads hx h (by rintro d a b n hn hd ha hb; cases hd rfl; cases ha rfl; cases hb rfl; exact ⟨rfl, congrArg some (encD_field hn)⟩)
  · exact ccSys_reads hx h (by rintro d a b n hn - - hb; cases hb rfl; cases Nat.lt_one_iff.1 hn; exact ⟨rfl, rfl⟩)
  · exact ccSys_reads hx h (by rintro d a b n hn hd - -; cases hd rfl; exact ⟨rfl, congrArg some (encD_field hn)⟩)
  · exact ccSys_reads hx h (by rintro d a b n hn - ha hb; cases ha rfl; cases hb rfl; exact ⟨rfl, congrArg some (encD_field hn)⟩)
  · exact ccSys_reads hx h (by rintro d a b n hn hd - hb; cases hd rfl; cases hb rfl; exact ⟨rfl, congrArg some (encD_field hn)⟩)
  · exact fence_reads hx h
  · exact watch_reads hx h
  · exact ccSys_reads hx h (by rintro d a b n hn hd ha hb; cases hd rfl; cases ha rfl; cases hb rfl; exact ⟨rfl, congrArg some (encD_field hn)⟩)
  · exact ccSys_reads hx h (by rintro d a b n hn hd ha hb; cases hd rfl; cases ha rfl; cases hb rfl; cases Nat.lt_one_iff.1 hn; exact ⟨rfl, rfl⟩)
  · exact ccSys_reads hx h (by rintro d a b n hn hd - hb; cases hd rfl; cases hb rfl; exact ⟨rfl, congrArg some (encD_field hn)⟩)
  · exact ccSys_reads hx h (by rintro d a b n hn hd - -; cases hd rfl; exact ⟨rfl, congrArg some (encD_field hn)⟩)
  · exact ccSys_reads hx h (by rintro d a b n hn hd - hb; cases hd rfl; cases hb rfl; exact ⟨rfl, congrArg some (encD_field hn)⟩)
  · exact ccSys_reads hx h (by rintro d a b n hn hd - hb; cases hd rfl; cases hb rfl; cases Nat.lt_one_iff.1 hn; exact ⟨rfl, rfl⟩)
  · exact ccSys_reads hx h (by rintro d a b n hn hd - hb; cases hd rfl; cases hb rfl; exact ⟨rfl, congrArg some (encD_field hn)⟩)
  · exact ccSys_reads hx h (by rintro d a b n hn hd ha hb; cases hd rfl; cases ha rfl; cases hb rfl; cases Nat.lt_one_iff.1 hn; exact ⟨rfl, rfl⟩)
  · exact ccSys_reads hx h (by rintro d a b n hn hd ha hb; cases hd rfl; cases ha rfl; cases hb rfl; exact ⟨rfl, congrArg some (encD_field hn)⟩)
  · exact rres_reads hx h
  · exact ccSys_reads hx h (by rintro d a b n hn hd - -; cases hd rfl; exact ⟨rfl, congrArg some (encD_field hn)⟩)
  · exact control_reads hx hext h

theorem decodeCp_reads (hext : ext < 2 ^ 64) (h : decodeCp op x ext = .ok i) :
    Reads op x (if hasOperandExt .cp op then some ext else none) i := by
  unfold decodeCp at h
  split at h
  · exact cpld_reads hx h
  · exact cpMove_reads hx h fun _ ho => ⟨ho, rfl⟩
  · exact cpMove_reads hx h fun _ ho => ⟨ho, rfl⟩
  · exact cpset_reads hx h
  · exact cpIndex_reads hx h fun o d ho => cpgth_form ho
  · exact cpIndex_reads hx h fun _ _ ho => ⟨ho, rfl⟩
  · exact cpdec_reads hx h
  · exact cpfill_reads hx h
  · exact cppat_reads hx h
  · exact cpcbk_reads hx h
  · exact cpvq_reads hx h
  · exact cpexp_reads hx h
  · exact cpfld_reads hx h
  · exact cpEx_reads hx h (by rintro a b c l w t m hl hw hm ha - hL hT -; cases ha rfl; obtain ⟨rfl, rfl⟩ := hL rfl; cases hT rfl; cases Nat.lt_one_iff.1 hm; exact ⟨rfl, rfl⟩)
  · exact cpEx_reads hx h (by rintro a b c l w t m hl hw hm - - hL - hok; obtain ⟨rfl, rfl⟩ := hL rfl; exact ⟨hok rfl, congrArg some (encCpC_per hm)⟩)
  · exact cpEx_reads hx h (by rintro a b c l w t m hl hw hm - hc hL - hok; cases hc rfl; obtain ⟨rfl, rfl⟩ := hL rfl; exact ⟨hok rfl, congrArg some (encCpC_per hm)⟩)
  · exact cpEx_reads hx h (by rintro a b c l w t m hl hw hm - - - hT -; cases hT rfl; exact ⟨rfl, congrArg some (by rw [toNat_field hl, toNat_field hw, toNat_field hm]; rfl)⟩)
  · exact cpEx_reads hx h (by rintro a b c l w t m hl hw hm - - - hT -; cases hT rfl; cases Nat.lt_one_iff.1 hm; exact ⟨rfl, congrArg some (by rw [toNat_field hl, toNat_field hw]; rfl)⟩)
  · exact cpEx_reads hx h (by rintro a b c l w t m hl hw hm - - hL hT -; obtain ⟨rfl, rfl⟩ := hL rfl; cases hT rfl; exact ⟨rfl, congrArg some (by rw [toNat_field hm]; rfl)⟩)
  · exact cpEx_reads hx h (by rintro a b c l w t m hl hw hm - - hL hT -; obtain ⟨rfl, rfl⟩ := hL rfl; cases hT rfl; cases Nat.lt_one_iff.1 hm; exact ⟨rfl, rfl⟩)
  · exact cpEx_reads hx h (by rintro a b c l w t m hl hw hm - - hL - hok; obtain ⟨rfl, rfl⟩ := hL rfl; exact ⟨hok rfl, congrArg some (by rw [toNat_field hm])⟩)
  · exact control_reads hx hext h

theorem decodeVe_reads (hext : ext < 2 ^ 64) (h : decodeVe op x ext = .ok i) :
    Reads op x (if hasOperandExt .ve op then some ext else none) i := by
  unfold decodeVe at h
  split at h
  · exact veTwo_reads hx h fun _ _ hok => ⟨hok, rfl⟩
  · exact veTwo_reads hx h fun _ _ hok => ⟨hok, rfl⟩
  · exact veTwo_reads hx h fun _ _ hok => ⟨hok, rfl⟩
  · exact veTwo_reads hx h fun _ _ hok => ⟨hok, rfl⟩
  · exact veTwo_reads hx h fun _ _ hok => ⟨hok, rfl⟩
  · exact veOne_reads hx h fun _ _ hok => ⟨hok, rfl⟩
  · exact veOne_reads hx h fun _ _ hok => ⟨hok, rfl⟩
  · exact veTwo_reads hx h fun _ _ hok => ⟨hok, rfl⟩
  · exact veTwo_reads hx h fun _ _ hok => ⟨hok, rfl⟩
  · exact veTwo_reads hx h fun _ _ hok => ⟨hok, rfl⟩
  · exact veOne_reads hx h fun _ _ hok => ⟨hok, rfl⟩
  · exact veOne_reads hx h fun _ _ hok => ⟨hok, rfl⟩
  · exact veOne_reads hx h fun _ _ hok => ⟨hok, rfl⟩
  · exact vcvt_reads hx h
  · exact vcmp_reads hx h
  · exact vsel_reads hx h
  · exact veOne_reads hx h fun o r hok => ⟨(noRm_iff.1 hok).1, by rw [(noRm_iff.1 hok).2]; rfl⟩
  · exact veOne_reads hx h fun o r hok => ⟨(noRm_iff.1 hok).1, by rw [(noRm_iff.1 hok).2]; rfl⟩
  · exact veOne_reads hx h fun o r hok => ⟨(noRm_iff.1 hok).1, by rw [(noRm_iff.1 hok).2]; rfl⟩
  · exact veOne_reads hx h fun o r hok => ⟨(noRm_iff.1 hok).1, by rw [(noRm_iff.1 hok).2]; rfl⟩
  · exact veOne_reads hx h fun o r hok => ⟨(noRm_iff.1 hok).1, by rw [(noRm_iff.1 hok).2]; rfl⟩
  · exact veOne_reads hx h fun o r hok => ⟨(noRm_iff.1 hok).1, by rw [(noRm_iff.1 hok).2]; rfl⟩
  · exact veOne_reads hx h fun o r hok => ⟨(noRm_iff.1 hok).1, by rw [(noRm_iff.1 hok).2]; rfl⟩
  · exact veGen_reads hx h fun _ _ _ _ hok => ⟨hok, rfl⟩
  · exact veOne_reads hx h fun o r hok => ⟨rfl, by rw [(noRm_iff.1 hok).2]; rfl⟩
  · exact veTwo_reads hx h fun o r hok => ⟨rfl, by rw [(noRm_iff.1 hok).2]; rfl⟩
  · exact veTwo_reads hx h fun o r hok => ⟨rfl, by rw [(noRm_iff.1 hok).2]; rfl⟩
  · exact veTwo_reads hx h fun o r hok => ⟨rfl, by rw [(noRm_iff.1 hok).2]; rfl⟩
  · exact vlog3_reads hx h
  · exact veTwo_reads hx h fun o r hok => ⟨(noRm_iff.1 hok).1, by rw [(noRm_iff.1 hok).2]; rfl⟩
  · exact veTwo_reads hx h fun o r hok => ⟨(noRm_iff.1 hok).1, by rw [(noRm_iff.1 hok).2]; rfl⟩
  · exact veTwo_reads hx h fun o r hok => ⟨(noRm_iff.1 hok).1, by rw [(noRm_iff.1 hok).2]; rfl⟩
  · exact vfsh_reads hx h
  · exact veOne_reads hx h fun o r hok => ⟨(noRm_iff.1 hok).1, by rw [(noRm_iff.1 hok).2]; rfl⟩
  · exact veOne_reads hx h fun o r hok => ⟨(noRm_iff.1 hok).1, by rw [(noRm_iff.1 hok).2]; rfl⟩
  · exact veTwo_reads hx h fun o r hok => ⟨(noRm_iff.1 hok).1, by rw [(noRm_iff.1 hok).2]; rfl⟩
  · exact veTwo_reads hx h fun o r hok => ⟨(noRm_iff.1 hok).1, by rw [(noRm_iff.1 hok).2]; rfl⟩
  · exact veTwo_reads hx h fun o r hok => ⟨(noRm_iff.1 hok).1, by rw [(noRm_iff.1 hok).2]; rfl⟩
  · exact vbcst_reads hx h
  · exact veGen_reads hx h fun _ _ _ _ hok => ⟨hok, rfl⟩
  · exact veOne_reads hx h fun _ _ hok => ⟨hok, rfl⟩
  · exact veOne_reads hx h fun _ _ hok => ⟨hok, rfl⟩
  · exact veOne_reads hx h fun _ _ hok => ⟨hok, rfl⟩
  · exact veOne_reads hx h fun _ _ hok => ⟨hok, rfl⟩
  · exact veOne_reads hx h fun _ _ hok => ⟨hok, rfl⟩
  · exact vstep_reads hx h
  · exact veOne_reads hx h fun o r hok => ⟨(noRm_iff.1 hok).1, by rw [(noRm_iff.1 hok).2]; rfl⟩
  · exact veMask_reads hx h fun _ _ _ _ => ⟨rfl, rfl⟩
  · exact veMask_reads hx h fun _ _ _ _ => ⟨rfl, rfl⟩
  · exact veMask_reads hx h fun _ _ _ _ => ⟨rfl, rfl⟩
  · exact veMask_reads hx h (by rintro d a b hb; cases hb rfl; exact ⟨rfl, rfl⟩)
  · exact mpop_reads hx h
  · exact kmsk_reads hx h
  · exact veImm_reads hx h fun o n _ hok => ⟨rfl, by rw [(immNo_iff.1 hok).2]; rfl⟩
  · exact kset_reads hx h
  · exact veImm_reads hx h fun o n _ hok => ⟨(immRm_iff.1 hok).2, congrArg some (encVi_rm (immRm_iff.1 hok).1)⟩
  · exact veImm_reads hx h fun o n _ hok => ⟨(immRm_iff.1 hok).2, congrArg some (encVi_rm (immRm_iff.1 hok).1)⟩
  · exact veImm_reads hx h fun o n _ hok => ⟨(immRm_iff.1 hok).2, congrArg some (encVi_rm (immRm_iff.1 hok).1)⟩
  · exact veImm_reads hx h fun o n _ hok => ⟨(immRm_iff.1 hok).2, congrArg some (encVi_rm (immRm_iff.1 hok).1)⟩
  · exact veImm_reads hx h fun o n _ hok => ⟨rfl, by rw [(immNo_iff.1 hok).2]; rfl⟩
  · exact veImm_reads hx h fun o n _ hok => ⟨rfl, by rw [(immNo_iff.1 hok).2]; rfl⟩
  · exact veImm_reads hx h fun o n _ hok => ⟨rfl, by rw [(immNo_iff.1 hok).2]; rfl⟩
  · exact veImm_reads hx h fun o n _ hok => ⟨(immNo_iff.1 hok).1, by rw [(immNo_iff.1 hok).2]; rfl⟩
  · exact veImm_reads hx h fun o n _ hok => ⟨(immNo_iff.1 hok).1, by rw [(immNo_iff.1 hok).2]; rfl⟩
  · exact veImm_reads hx h fun o n _ hok => ⟨(immNo_iff.1 hok).1, by rw [(immNo_iff.1 hok).2]; rfl⟩
  · exact veImm_reads hx h fun o n hn hok => ⟨hok, congrArg some (encVi_cond hn)⟩
  · exact veMem_reads hx h (fun _ => ⟨rfl, rfl⟩) (fun _ _ => ⟨rfl, rfl⟩)
  · exact veMem_reads hx h (fun _ => ⟨rfl, rfl⟩) (fun _ _ => ⟨rfl, rfl⟩)
  · exact vcst_reads hx h
  · exact control_reads hx hext h

theorem decodeCe_reads (hext : ext < 2 ^ 64) (h : decodeCe op x ext = .ok i) :
    Reads op x (if hasOperandExt .ce op then some ext else none) i := by
  unfold decodeCe at h
  split at h
  · exact ceSlot_reads hx h (by rintro d s c - - hc hd hs -; cases hd rfl; cases hs rfl; exact ⟨rfl, congrArg some (encCeA_slot hc)⟩)
  · exact ceSlot_reads hx h (by rintro d s c - - hc hd hs -; cases hd rfl; cases hs rfl; exact ⟨rfl, congrArg some (encCeA_slot hc)⟩)
  · exact ceSlot_reads hx h (by rintro d s c hd - - - hs hc; cases hs rfl; cases hc rfl; exact ⟨rfl, congrArg some (encCeA_tile hd)⟩)
  · exact ceSlot_reads hx h
      (by rintro d s c hd hs - - - hc; cases hc rfl; exact ⟨rfl, congrArg some (by rw [toNat_field hd, toNat_field hs])⟩)
  · refine ceMma_reads hx h fun o p k _ _ hs hcls hsat => ?_
    obtain ⟨rfl, rfl⟩ := hs rfl
    exact ⟨mma_wf hcls hsat, rfl⟩
  · exact ceMma_reads hx h fun o p k hp _ _ hcls hsat => ⟨mma_wf hcls hsat, congrArg some (by rw [toNat_field hp])⟩
  · exact ceMove_reads hx h fun _ _ _ _ => ⟨rfl, rfl⟩
  · exact ceMove_reads hx h fun _ _ _ _ => ⟨rfl, rfl⟩
  · exact ocon_reads hx h
  · exact oconp_reads hx h
  · exact control_reads hx hext h

theorem decodeOp_reads {st : Stream} (hext : ext < 2 ^ 64) (h : decodeOp st op x ext = .ok i) :
    Reads op x (if hasOperandExt st op then some ext else none) i := by
  cases st with
  | cc => exact decodeCc_reads hx hext h
  | cp => exact decodeCp_reads hx hext h
  | ve => exact decodeVe_reads hx hext h
  | ce => exact decodeCe_reads hx hext h

end

/-- The converse of the round trip, for the words of a command: the operation's encoding and the header's fields are the words. -/
theorem encodeCmd_decodeWords {st : Stream} {ws : List Nat} {c : Cmd} (hws : ∀ w ∈ ws, w < 2 ^ 64)
    (hlen : ws.length = wordCount st (ws.headD 0)) (h : decodeWords st ws = .ok c) :
    c.instr.wf = true ∧ c.hdr.wf = true ∧ encodeCmd c = some ws := by
  cases ws with
  | nil => exact nomatch h
  | cons w r =>
    obtain ⟨-, h4, hop, hhdr⟩ := decodeWords_ok_iff.1 h
    obtain ⟨a0, a1, a2, a3, a4, a5, a6, a7, hv⟩ :
      ∃ a0 a1 a2 a3 a4 a5 a6 a7, splitF lWord w = [a0, a1, a2, a3, a4, a5, a6, a7] := ⟨_, _, _, _, _, _, _, _, rfl⟩
    obtain ⟨⟨h0, h1, h2, h3, -, h5, h6, h7, -⟩, hj⟩ := fields_of hv (hws w List.mem_cons_self)
    simp only [wordCount, hv, fld, List.getD_cons_zero, List.getD_cons_succ, List.headD_cons, List.length_cons] at h4 hop hhdr hlen
    subst h4
    have hfirst : ∀ e ext, encodeOp c.instr = some (a6, a7, ext) → c.hdr.ext = e →
        encodeCmd c = some (w :: ((if hasWaitExt a0 then [(e.map BitVec.toNat).getD 0] else []) ++ ext.toList)) := by
      rintro e ext he rfl
      obtain ⟨hdr, i⟩ := c
      subst hhdr
      rw [encodeCmd_eq he, List.cons_append]
      simp only [toNat_field h0, toNat_field h5, boolCode_ofCode h1, boolCode_ofCode h2, boolCode_ofCode h3, hj]
    have hwf : c.hdr.wf = (c.hdr.ext.isSome == hasWaitExt a0) := by rw [Header.wf, hhdr, toNat_field h0]
    have hsize : ∀ n ∈ r, n < 2 ^ 64 := fun n hn => hws n (List.mem_cons_of_mem w hn)
    have hext : c.hdr.ext = (if hasWaitExt a0 then r.head? else none).map toWord := by rw [hhdr]
    cases hb : hasWaitExt a0 <;> cases ho : hasOperandExt st a6 <;>
      simp only [hb, ho, if_true, if_false, Bool.false_eq_true, Nat.add_zero, Option.map_none] at hlen hop hfirst hwf hext
    · obtain rfl : r = [] := List.eq_nil_of_length_eq_zero (by omega)
      obtain ⟨hi, he⟩ := decodeOp_reads h7 (Nat.two_pow_pos 64) hop
      rw [ho, if_neg Bool.false_ne_true] at he
      exact ⟨hi, by rw [hwf, hext]; rfl, hfirst _ _ he hext⟩
    · obtain ⟨v, rfl⟩ := List.length_eq_one_iff.1 (show r.length = 1 by omega)
      obtain ⟨hi, he⟩ := decodeOp_reads h7 (hsize v (by simp)) hop
      rw [ho, if_pos rfl] at he
      exact ⟨hi, by rw [hwf, hext]; rfl, hfirst _ _ he hext⟩
    · obtain ⟨e, rfl⟩ := List.length_eq_one_iff.1 (show r.length = 1 by omega)
      obtain ⟨hi, he⟩ := decodeOp_reads h7 (Nat.two_pow_pos 64) hop
      rw [ho, if_neg Bool.false_ne_true] at he
      refine ⟨hi, by rw [hwf, hext]; rfl, (hfirst _ _ he hext).trans ?_⟩
      simpa using hsize e (by simp)
    · obtain ⟨e, v, rfl⟩ := List.length_eq_two.1 (show r.length = 2 by omega)
      obtain ⟨hi, he⟩ := decodeOp_reads h7 (hsize v (by simp)) hop
      rw [ho, if_pos rfl] at he
      refine ⟨hi, by rw [hwf, hext]; rfl, (hfirst _ _ he hext).trans ?_⟩
      simpa using hsize e (by simp)

/-- The stream-control commands have their opcode and operand field in every map (R140). -/
theorem control_roundTrip (st : Stream) {i : Instr} (hi : isControl i = true) : ∃ op x ext, encodeOp i = some (op, x, ext) ∧ op < 256 ∧
    x < 2 ^ 40 ∧ ext.isSome = hasOperandExt st op ∧ decodeOp st op x (ext.getD 0) = .ok i := by
  have hmap : ∀ op ∈ [0xF0, 0xF1, 0xF2, 0xF3, 0xF4, 0xF5], ∀ x e, decodeOp st op x e = decodeOp .cc op x e ∧
      hasOperandExt st op = hasOperandExt .cc op := by
    intro op hop x e
    fin_cases hop <;> cases st <;> exact ⟨rfl, rfl⟩
  have lift : ∀ op ∈ [0xF0, 0xF1, 0xF2, 0xF3, 0xF4, 0xF5], ∀ y ext', encodeOp i = some (op, y, ext') → streamOf i = .cc → i.wf = true →
      ∃ op x ext, encodeOp i = some (op, x, ext) ∧ op < 256 ∧ x < 2 ^ 40 ∧ ext.isSome = hasOperandExt st op ∧
        decodeOp st op x (ext.getD 0) = .ok i := by
    intro op hop y ext' he hs hw
    obtain ⟨op', x, ext, he', h1, h2, h3, -, h5⟩ := roundTrip i hw
    obtain ⟨rfl, rfl, rfl⟩ : op = op' ∧ y = x ∧ ext' = ext := by simpa using he.symm.trans he'
    rw [hs] at h3 h5
    exact ⟨op, y, ext', he, h1, h2, h3.trans (hmap op hop y 0).2.symm, (hmap op hop y _).1.trans h5⟩
  cases i with
  | nop => exact lift _ (by simp) _ _ rfl rfl rfl
  | loop => exact lift _ (by simp) _ _ rfl rfl rfl
  | lend => exact lift _ (by simp) _ _ rfl rfl rfl
  | join => exact lift _ (by simp) _ _ rfl rfl rfl
  | endStream => exact lift _ (by simp) _ _ rfl rfl rfl
  | mark => exact lift _ (by simp) _ _ rfl rfl rfl
  | _ => exact absurd hi Bool.false_ne_true

/-- Settles O2: the converse by the formats; a stream-control command by the one group that all four maps share. -/
theorem decodedWordsEncodeBack : Obligations.DecodedWordsEncodeBack := by
  unfold Obligations.DecodedWordsEncodeBack
  refine ⟨fun st ws c hws hlen h => encodeCmd_decodeWords hws hlen h, ?_⟩
  rintro st ⟨h, i⟩ hi hh
  obtain ⟨op, x, ext, he, hop, hx, hn, hd⟩ := control_roundTrip st hi
  exact decodeWords_encodeCmd hh he hop hx hn hd

end Sys2Proof.Proofs
end

