-- ==== Sys2Proof/Proofs/IssueStage.lean ====
section
/-! PROOF. The issue stage: reserved words (R119, R146, R191), the checks of R147 in order, and what an issued command leaves behind
(R96, R97, R144). -/

namespace Sys2Proof.Proofs

open Sys2Proof Sys2Proof.Machine Sys2Proof.Claims Sys2Proof.Laws

-- Reserved words -----------------------------------------------------------------------------------------------------------------------

theorem decodeOp_reserved (st : Stream) {op : Nat} (x ext : Nat) (h : 0xF6 ≤ op) (h8 : op < 256) :
    decodeOp st op x ext = .error .unassigned := by
  interval_cases op <;> cases st <;> rfl

/-- SIGNAL bit 4 and the opcode are fields of the first word (R118, R119). -/
theorem reserved_fields (w : Nat) : fld (splitF lWord w) 4 = bits w 52 1 ∧ fld (splitF lWord w) 6 = bits w 40 8 := ⟨rfl, rfl⟩

theorem decodeWords_reserved {st : Stream} {w : Nat} {r : List Nat} (h : bits w 52 1 = 1 ∨ 0xF6 ≤ bits w 40 8) :
    ∃ e, decodeWords st (w :: r) = .error e := by
  cases hd : decodeWords st (w :: r) with
  | error e => exact ⟨e, rfl⟩
  | ok c =>
    obtain ⟨-, h4, hop, -⟩ := decodeWords_ok_iff.1 hd
    rw [(reserved_fields w).1] at h4
    rw [(reserved_fields w).2] at hop
    rcases h with h | h
    · exact absurd (h4.symm.trans h) (by decide)
    · rw [decodeOp_reserved st _ _ h (Nat.mod_lt _ (by decide))] at hop
      exact nomatch hop

theorem issueInstr_noCommand {st : Stream} {f : Fetched} {e : Reject} (h : decodeWords st (f.words.map BitVec.toNat) = .error e) :
    issueInstr st f = .unassignedOpcode (BitVec.ofNat 8 (bits (f.words.headD 0).toNat 40 8)) := by
  simp only [issueInstr, decoded, h]

/-- A command of system cores alone takes illegal-encoding on a compute core (R191). -/
theorem sysOnly_compute {s : State} (f : State → State) (h : s.ctx.sys = false) : sysOnly s f = .next (faults s 0x01 0 []) := by
  rw [sysOnly, h]
  rfl

/-- Settles O3: the two fields make the decoder refuse; the commands of system cores share one check. -/
theorem reservedWordsAreRefused : Obligations.ReservedWordsAreRefused := by
  unfold Obligations.ReservedWordsAreRefused
  constructor
  · intro st w r h
    refine ⟨decodeWords_reserved h, fun v q f hf hv hq => ?_⟩
    obtain ⟨e, he⟩ := decodeWords_reserved (st := st) (r := r) h
    refine ⟨_, issueInstr_noCommand (e := e) ?_⟩
    rw [hf, List.map_cons, hv, hq, he]
  · intro s a b n asid op
    refine ⟨rfl, fun h i hi => ?_⟩
    simp only [List.mem_cons, List.not_mem_nil, or_false] at hi
    obtain rfl | rfl | rfl | rfl | rfl := hi
    · exact sysOnly_compute (fun s => modCur s leaveHypervisor) h
    · change execHvcall n s = _
      rw [execHvcall, sysOnly_compute _ h]
    · change execRres a b asid s = _
      rw [execRres, sysOnly_compute _ h]
    · change execRresClear a b asid s = _
      rw [execRresClear, sysOnly_compute _ h]
    · change execRret a b asid s = _
      rw [execRret, sysOnly_compute _ h]

/-- Settles O4: the decoder evaluates the words. -/
theorem workedWordsDecode : Obligations.WorkedWordsDecode := by
  unfold Obligations.WorkedWordsDecode
  exact ⟨rfl, rfl, rfl, rfl, rfl, rfl, rfl, rfl, rfl, rfl⟩

-- The checks of R147 ---------------------------------------------------------------------------------------------------------------------

theorem issueFault_wait {s : State} {f : Fetched} {w : Nat × Nat} (i : Option Instr) (h : f.waitFault = some w) :
    issueFault s f i = some w := by
  simp only [issueFault, h]

theorem issueFault_noCommand {s : State} {f : Fetched} (h : f.waitFault = none) : issueFault s f none = none := by
  simp only [issueFault, h]

/-- With an act left, a step is that act. -/
theorem step_act {s : State} {a : Act} {r : List Act} (hdead : s.dead = false) (hag : s.agenda = a :: r) :
    step s = act a { s with agenda := r } := by
  rw [step, if_neg (by rw [hdead]; exact Bool.false_ne_true), hag]

/-- The issue of a command that is due: the first fault of its checks, or its meaning, and what follows. -/
theorem issueStep_due {s : State} {k : Nat} {st : Stream} {f : Fetched} (hf : issueOf s k st = some f) :
    issueStep k st s = (match issueFault (enterIssue s k st f) f (decoded st f.words) with
      | some (code, cause) =>
        .next (issueDone (enterIssue s k st f) (faultNow (enterIssue s k st f) code cause []) f (issueInstr st f))
      | none =>
        match exec (issueInstr st f) (enterIssue s k st f) with
        | .next s1 => .next (issueDone (enterIssue s k st f) s1 f (issueInstr st f))
        | .fault r => .fault r
        | .refused r => .refused r) := by
  rw [issueStep, hf] <;> rfl

/-- A command that faulted leaves nothing but its fault (R147). -/
theorem issueDone_faultNow (s0 s : State) (code cause : Nat) (detail : List Word) (f : Fetched) (i : Instr) :
    issueDone s0 (faultNow s code cause detail) f i = leaveUnissued (faultNow s code cause detail) f := rfl

theorem enterIssue_ctx (s : State) (k : Nat) (st : Stream) (f : Fetched) :
    (enterIssue s k st f).ctx.core = k ∧ (enterIssue s k st f).ctx.stream = st ∧ (enterIssue s k st f).mem = s.mem := ⟨rfl, rfl, rfl⟩

theorem enterIssue_hdr {s : State} {k : Nat} {st : Stream} {f : Fetched} {c : Cmd}
    (h : decodeWords st (f.words.map BitVec.toNat) = .ok c) : (enterIssue s k st f).ctx.hdr = c.hdr := by
  simp only [enterIssue, h, setCore_ctx]

/-- Settles O5: each check of the issue stage in its order, by the definition of the first fault. -/
theorem stepRunsTheDecodedCommand : Obligations.StepRunsTheDecodedCommand := by
  unfold Obligations.StepRunsTheDecodedCommand
  intro s k st r f hdead hag hf
  dsimp only
  have hstep := (step_act hdead hag).trans (issueStep_due hf)
  have hfault : ∀ {code cause : Nat} {i : Option Instr}, decoded st f.words = i →
      issueFault (enterIssue { s with agenda := r } k st f) f i = some (code, cause) →
      step s = .next (leaveUnissued (faultNow (enterIssue { s with agenda := r } k st f) code cause []) f) := by
    intro code cause i hi hw
    rw [hstep, hi, hw, ← issueDone_faultNow]
  have hdec : ∀ {c : Cmd}, decodeWords st (f.words.map BitVec.toNat) = .ok c → decoded st f.words = some c.instr := by
    intro c hc
    rw [decoded, hc]
  generalize hs0 : enterIssue { s with agenda := r } k st f = s0 at hstep hfault ⊢
  have hk : s0.ctx.core = k := hs0 ▸ rfl
  refine ⟨?_, ?_, ?_, ?_⟩
  · intro t c hc hnone hexec
    refine ⟨?_, hk, hs0 ▸ rfl, hs0 ▸ enterIssue_hdr hc, hs0 ▸ rfl⟩
    have hi : issueInstr st f = c.instr := by rw [issueInstr, hdec hc]
    rw [hstep, hdec hc, hnone, hi, hexec]
  · intro code cause hw
    exact hfault rfl (issueFault_wait _ hw)
  · intro hw hno
    obtain ⟨e, he⟩ : ∃ e, decodeWords st (f.words.map BitVec.toNat) = .error e := by
      cases hd : decodeWords st (f.words.map BitVec.toNat) with
      | ok c => exact absurd hd (hno c)
      | error e => exact ⟨e, rfl⟩
    have hnone : issueFault s0 f (decoded st f.words) = none := by rw [decoded, he, issueFault_noCommand hw]
    rw [hstep, hnone, issueInstr_noCommand he]
    rfl
  · intro c hw hc
    have hnext : issueFault s0 f (some c.instr) =
        if fieldsOk s0 k c.instr = false ∨ lastPlaceOk (curStream s0) f c.instr = false then some (fEncoding, 0)
        else if isControl c.instr then none
        else if (curStream s0).lastSlot = some (cur s0).dcc then some (fSchedule, 6)
        else if (cur s0).dcc < Sparse.get 0 (cur s0).busy (occupies s0 c.instr).1 then some (fSchedule, 7)
        else none := by
      simp only [issueFault, hw, hk]
      rfl
    have hok : (fieldsOk s0 k c.instr = true ∧ lastPlaceOk (curStream s0) f c.instr = true) →
        ¬ (fieldsOk s0 k c.instr = false ∨ lastPlaceOk (curStream s0) f c.instr = false) := by
      rintro ⟨h1, h2⟩
      simp [h1, h2]
    refine ⟨fun hbad => hfault (hdec hc) ?_, fun hin hctl => ?_, fun hin hctl => ⟨fun hslot => hfault (hdec hc) ?_,
      fun hslot hbusy => hfault (hdec hc) ?_, fun hslot hbusy => ?_⟩⟩
    · rw [hnext, if_pos]
      · rfl
      · simpa [or_iff_not_imp_left] using hbad
    · rw [hnext, if_neg (hok hin), if_pos hctl]
    · rw [hnext, if_neg (hok hin), hctl, if_neg Bool.false_ne_true, if_pos hslot]
      rfl
    · rw [hnext, if_neg (hok hin), hctl, if_neg Bool.false_ne_true, if_neg hslot, if_pos hbusy]
      rfl
    · rw [hnext, if_neg (hok hin), hctl, if_neg Bool.false_ne_true, if_neg hslot, if_neg (Nat.not_lt.2 hbusy)]

-- What an issued command leaves (R96, R97, R144) -----------------------------------------------------------------------------------------------

@[simp] theorem getStream_setStream_same (c : CoreState) (st : Stream) (x : StreamSt) : getStream (setStream c st x) st = x := by
  cases st <;> rfl

@[simp] theorem setStream_busy (c : CoreState) (st : Stream) (x : StreamSt) : (setStream c st x).busy = c.busy := by
  cases st <;> rfl

@[simp] theorem setStream_dcc (c : CoreState) (st : Stream) (x : StreamSt) : (setStream c st x).dcc = c.dcc := by
  cases st <;> rfl

@[simp] theorem setStream_pid (c : CoreState) (st : Stream) (x : StreamSt) : (setStream c st x).pid = c.pid := by
  cases st <;> rfl

/-- An event count leaves the streams of its core and what its units are busy with. -/
theorem countEvent_streams (c : CoreState) (ev : Nat) (st q : Stream) (n : Nat) :
    getStream (countEvent c ev st n) q = getStream c q ∧ (countEvent c ev st n).busy = c.busy := by
  unfold countEvent
  split
  · exact ⟨rfl, rfl⟩
  · exact ⟨by cases q <;> rfl, rfl⟩

/-- A core of which some stream has issued a command. -/
def HasIssued (s : State) (k : Nat) : Prop := ∃ st, (getStream (getCore s k) st).seq ≠ 0

/-- What concerns the issue of commands on core `k` is the same: the executing command, the agenda, the core's streams and units. -/
structure SameIssue (k : Nat) (s t : State) : Prop where
  ctx : t.ctx = s.ctx
  agenda : t.agenda = s.agenda
  streams : ∀ st, getStream (getCore t k) st = getStream (getCore s k) st
  busy : (getCore t k).busy = (getCore s k).busy

theorem SameIssue.refl (k : Nat) (s : State) : SameIssue k s s := ⟨rfl, rfl, fun _ => rfl, rfl⟩

theorem SameIssue.trans {k : Nat} {s t u : State} (h : SameIssue k s t) (g : SameIssue k t u) : SameIssue k s u :=
  ⟨g.ctx.trans h.ctx, g.agenda.trans h.agenda, fun st => (g.streams st).trans (h.streams st), g.busy.trans h.busy⟩

theorem SameIssue.hasIssued {k : Nat} {s t : State} (h : SameIssue k s t) (hs : HasIssued s k) : HasIssued t k :=
  hs.imp fun st hst => by rwa [h.streams st]

theorem SameIssue.ite {k : Nat} {s t u : State} {c : Prop} [Decidable c] (h : SameIssue k s t) (g : SameIssue k s u) :
    SameIssue k s (if c then t else u) := by
  split
  · exact h
  · exact g

/-- Where the table of cores is the same. -/
theorem SameIssue.of_cores {k : Nat} {s t : State} (hctx : t.ctx = s.ctx) (hag : t.agenda = s.agenda) (hc : t.cores = s.cores) :
    SameIssue k s t := by
  have hk : getCore t k = getCore s k := by rw [getCore, getCore, hc]
  exact ⟨hctx, hag, fun st => by rw [hk], by rw [hk]⟩

/-- A core that has issued is not the blank one, so that what is put there is read back. -/
theorem SameIssue.setCore {k q : Nat} {s : State} {c : CoreState} (hs : HasIssued s k)
    (hst : ∀ st, getStream c st = getStream (getCore s q) st) (hbusy : c.busy = (getCore s q).busy) : SameIssue k s (setCore s q c) := by
  by_cases hq : k = q
  · subst hq
    have hc : c ≠ {} := by
      rintro rfl
      obtain ⟨st, h⟩ := hs
      rw [← hst st] at h
      cases st <;> exact h rfl
    have hget := getCore_setCore s k c hc
    exact ⟨rfl, rfl, fun st => by rw [hget, hst st], by rw [hget, hbusy]⟩
  · have hget := getCore_setCore_ne s c hq
    exact ⟨rfl, rfl, fun st => by rw [hget], by rw [hget]⟩

theorem SameIssue.modCore {k q : Nat} {s : State} {f : CoreState → CoreState} (hs : HasIssued s k)
    (hst : ∀ c st, getStream (f c) st = getStream c st) (hbusy : ∀ c, (f c).busy = c.busy) : SameIssue k s (modCore s q f) :=
  .setCore hs (hst _) (hbusy _)

theorem sameIssue_hubWrite (k : Nat) (s : State) (m : Memory) : SameIssue k s (hubWrite s m) := by
  unfold hubWrite
  split
  · exact .of_cores rfl rfl rfl
  · exact .of_cores rfl rfl rfl

theorem sameIssue_traceRecord {k q : Nat} {s : State} {ws : List Word} (hs : HasIssued s k) : SameIssue k s (traceRecord s q ws) := by
  unfold traceRecord
  dsimp only
  split
  · exact .setCore hs (fun st => by cases st <;> rfl) rfl
  · split
    · exact sameIssue_hubWrite _ _ _
    · exact .refl _ _

theorem sameIssue_insertRecord {k q pos : Nat} {s : State} {ws : List Word} (hs : HasIssued s k) :
    SameIssue k s (insertRecord s q pos ws) := by
  unfold insertRecord
  dsimp only
  split
  · exact .setCore hs (fun st => by cases st <;> rfl) rfl
  · have h1 : SameIssue k s (setCore s q { getCore s q with
        trace := List.take 64 ((getCore s q).trace.take pos ++ ws :: (getCore s q).trace.drop pos) }) :=
      .setCore hs (fun st => by cases st <;> rfl) rfl
    exact h1.trans (sameIssue_traceRecord (h1.hasIssued hs))

theorem sameIssue_takeDebugStop {k pos : Nat} {s : State} {loops : Word} (hs : HasIssued s k) :
    SameIssue k s (takeDebugStop s pos loops) := by
  have hnote : ∀ l, SameIssue k s (modCore s s.ctx.core fun c => { c with ibdNow := c.ibdNow ++ l }) := fun l =>
    .modCore hs (fun _ st => by cases st <;> rfl) fun _ => rfl
  have hstop : ∀ r g, SameIssue k s (modDom (modCore (raiseHold (insertRecord s s.ctx.core pos r) 5 0 { kind := 6 }) s.ctx.core
      fun c => { c with stopTaken := true }) (cur s).pid g) := by
    intro r g
    have h1 := (sameIssue_insertRecord (q := s.ctx.core) (pos := pos) (ws := r) hs).trans
      (.of_cores (t := raiseHold (insertRecord s s.ctx.core pos r) 5 0 { kind := 6 }) rfl rfl rfl)
    have h2 := h1.trans (.modCore (q := s.ctx.core) (f := fun c => { c with stopTaken := true }) (h1.hasIssued hs)
      (fun _ st => by cases st <;> rfl) fun _ => rfl)
    exact h2.trans (.of_cores rfl rfl rfl)
  exact .ite (.refl _ _) (.ite (hstop _ _) (hnote _))

theorem sameIssue_takeDrainMark {k pos : Nat} {s : State} {loops : Word} (hs : HasIssued s k) :
    SameIssue k s (takeDrainMark s pos loops) := by
  have hmark : ∀ p g, SameIssue k s (modDom s p g) := fun _ _ => .of_cores rfl rfl rfl
  unfold takeDrainMark
  dsimp only
  cases domOf s s.ctx.core with
  | none => exact .refl _ _
  | some d =>
    dsimp only
    split
    · split
      · exact (hmark _ _).trans (sameIssue_insertRecord ((hmark _ _).hasIssued hs))
      · exact hmark _ _
    · exact .refl _ _

theorem sameIssue_issueRecords {k pos : Nat} {s : State} {loops : Word} (hs : HasIssued s k) :
    SameIssue k s (issueRecords s pos loops) := by
  unfold issueRecords
  dsimp only
  have h1 : SameIssue k s (if s.ctx.hdr.ibd then takeDrainMark (takeDebugStop s pos loops) pos loops else s) := by
    split
    · have h := sameIssue_takeDebugStop (pos := pos) (loops := loops) hs
      exact h.trans (sameIssue_takeDrainMark (h.hasIssued hs))
    · exact .refl _ _
  generalize (if s.ctx.hdr.ibd then takeDrainMark (takeDebugStop s pos loops) pos loops else s) = t at h1 ⊢
  split
  · exact h1.trans (sameIssue_insertRecord (h1.hasIssued hs))
  · exact h1

/-- The core of a command that has issued, before its records. -/
theorem getCore_afterIssue (s0 s : State) (i : Instr) :
    (getStream (getCore (afterIssue s0 s i) s.ctx.core) s.ctx.stream = { curStream s with
      fetched := (curStream s).fetched.drop 1, seq := (curStream s).seq + 1, prev := (cur s).dcc
      lastSlot := if isControl i then (curStream s).lastSlot else some (cur s).dcc }) ∧
    (isControl i = false → (getCore (afterIssue s0 s i) s.ctx.core).busy =
      Sparse.set 0 (cur s).busy (occupies s0 i).1 ((cur s).dcc + (occupies s0 i).2)) := by
  have hcore : ∀ {f : CoreState → CoreState}, (getStream (f (cur s)) s.ctx.stream).seq ≠ 0 →
      getCore (modCur s f) s.ctx.core = f (cur s) := by
    intro f hf
    refine getCore_modCore s _ f fun h => hf ?_
    rw [show f (cur s) = _ from h]
    cases s.ctx.stream <;> rfl
  rw [afterIssue]
  dsimp only
  cases hc : isControl i with
  | true =>
    simp only [if_true]
    rw [hcore]
    · exact ⟨by rw [(countEvent_streams _ _ _ _ _).1, modStream, getStream_setStream_same]; rfl, fun h => nomatch h⟩
    · rw [(countEvent_streams _ _ _ _ _).1, modStream, getStream_setStream_same]
      exact Nat.succ_ne_zero _
  | false =>
    simp only [Bool.false_eq_true, if_false]
    have hset : ∀ (c : CoreState) (b : Sparse Nat), getStream { c with busy := b } s.ctx.stream = getStream c s.ctx.stream := by
      intro c b
      cases s.ctx.stream <;> rfl
    rw [hcore]
    · refine ⟨by rw [(countEvent_streams _ _ _ _ _).1, hset, modStream, getStream_setStream_same]; rfl, fun _ => ?_⟩
      rw [(countEvent_streams _ _ _ .cc _).2]
      simp only [modStream, setStream_busy, setStream_dcc]
    · rw [(countEvent_streams _ _ _ _ _).1, hset, modStream, getStream_setStream_same]
      exact Nat.succ_ne_zero _

/-- Settles O6: the stream after the issue, which the records of the command leave alone; a faulted one only goes back. -/
theorem issueAdvancesTheStream : Obligations.IssueAdvancesTheStream := by
  unfold Obligations.IssueAdvancesTheStream
  intro s0 s f i
  dsimp only
  constructor
  · intro hf
    obtain ⟨hst, hbusy⟩ := getCore_afterIssue s0 s i
    have hiss : HasIssued (afterIssue s0 s i) s.ctx.core := ⟨s.ctx.stream, by rw [hst]; exact Nat.succ_ne_zero _⟩
    have hrec := sameIssue_issueRecords (pos := (cur s0).trace.length) (loops := loopWord (curStream s0)) hiss
    have hdone : ∃ l, issueDone s0 s f i = { issueRecords (afterIssue s0 s i) (cur s0).trace.length (loopWord (curStream s0)) with
        agenda := l ++ .issue s.ctx.core s.ctx.stream :: s.agenda } := by
      rw [issueDone, if_neg (by rw [hf]; exact Bool.false_ne_true)]
      dsimp only
      rw [hrec.agenda]
      exact ⟨_, rfl⟩
    obtain ⟨l, hl⟩ := hdone
    have hget : getCore (issueDone s0 s f i) s.ctx.core =
        getCore (issueRecords (afterIssue s0 s i) (cur s0).trace.length (loopWord (curStream s0))) s.ctx.core := by rw [hl]; rfl
    rw [hget, hrec.streams, hrec.busy, hst]
    refine ⟨rfl, rfl, rfl, fun hc => ⟨?_, fun hpos => ?_⟩, fun hc => ?_, l, by rw [hl]⟩
    · simp only [hc, Bool.false_eq_true, if_false]
    · rw [hbusy hc, get_set_same _ _ _ _ (by omega)]
    · simp only [hc, if_true]
  · intro hf hpid
    have hdone : issueDone s0 s f i = leaveUnissued s f := by rw [issueDone, if_pos hf]
    have hne : modStream (cur s) s.ctx.stream (fun t => { t with nextIdx := f.idx }) ≠ {} := by
      intro h
      refine hpid ?_
      have := congrArg CoreState.pid h
      rwa [modStream, setStream_pid] at this
    have hget : getCore (leaveUnissued s f) s.ctx.core = modStream (cur s) s.ctx.stream (fun t => { t with nextIdx := f.idx }) :=
      getCore_modCore s _ _ hne
    rw [hdone, hget, modStream, getStream_setStream_same]
    exact ⟨rfl, rfl, rfl, rfl⟩

end Sys2Proof.Proofs
end

