-- ==== Sys2Proof/Proofs/DeviceAccess.lean ====
section
/-! PROOF. Accesses to device memory: what the watch test leaves as it was (R280), what a lookup gives (R273), and the requests that a
command makes at its issue (R104, R164, R193). -/

namespace Sys2Proof.Proofs

open Sys2Proof Sys2Proof.Machine Sys2Proof.Claims Sys2Proof.Laws

-- What the watch test leaves ---------------------------------------------------------------------------------------------------------

/-- `t` is `s` but for memory and for the trace buffers and stop requests of cores: what an access's watch test may change. -/
structure AfterWatch (s t : State) : Prop where
  rest : ∃ cores mem, t = { s with cores := cores, mem := mem }
  core : ∀ q, ∃ l b, getCore t q = { getCore s q with trace := l, stopReq := b }

theorem AfterWatch.refl (s : State) : AfterWatch s s := ⟨⟨_, _, rfl⟩, fun _ => ⟨_, _, rfl⟩⟩

theorem AfterWatch.trans {s t u : State} (h : AfterWatch s t) (g : AfterWatch t u) : AfterWatch s u := by
  obtain ⟨c, m, rfl⟩ := h.rest
  obtain ⟨c', m', rfl⟩ := g.rest
  refine ⟨⟨c', m', rfl⟩, fun q => ?_⟩
  obtain ⟨l, b, hs⟩ := h.core q
  obtain ⟨l', b', ht⟩ := g.core q
  exact ⟨l', b', by rw [ht, hs]⟩

section
variable {s t : State} (h : AfterWatch s t)
include h

theorem AfterWatch.ctx : t.ctx = s.ctx := by
  obtain ⟨c, m, rfl⟩ := h.rest
  rfl

theorem AfterWatch.domains : t.domains = s.domains := by
  obtain ⟨c, m, rfl⟩ := h.rest
  rfl

theorem AfterWatch.pkgs : t.pkgs = s.pkgs := by
  obtain ⟨c, m, rfl⟩ := h.rest
  rfl

theorem AfterWatch.clock : t.clock = s.clock := by
  obtain ⟨c, m, rfl⟩ := h.rest
  rfl

theorem AfterWatch.ranges (q : Nat) : (getCore t q).ranges = (getCore s q).ranges := by
  obtain ⟨l, b, hq⟩ := h.core q
  rw [hq]

theorem AfterWatch.pid (q : Nat) : (getCore t q).pid = (getCore s q).pid := by
  obtain ⟨l, b, hq⟩ := h.core q
  rw [hq]

theorem AfterWatch.asidOfCore (q : Nat) : asidOfCore t q = asidOfCore s q := by
  rw [Machine.asidOfCore, Machine.asidOfCore, domOf, domOf, findDom, findDom, h.domains, h.pid]

theorem AfterWatch.accessAt (q x : Nat) (perms : List Nat) : accessAt t q x perms = accessAt s q x perms := by
  rw [Claims.accessAt, Claims.accessAt, h.asidOfCore, h.ranges]

theorem AfterWatch.accessOutcome (x : Nat) (perms : List Nat) : accessOutcome t x perms = accessOutcome s x perms := by
  rw [Claims.accessOutcome, Claims.accessOutcome, h.ctx, h.accessAt]

theorem AfterWatch.accessWords (x sector : Nat) : accessWords t x sector = accessWords s x sector := by
  rw [Claims.accessWords, Claims.accessWords, accessWordsAt, accessWordsAt, h.ctx, h.asidOfCore]

end

/-- A core whose trace buffer or stop request alone has changed. -/
theorem afterWatch_setCore (s : State) (k : Nat) (l : List (List Word)) (b : Bool) (hne : l ≠ [] ∨ b = true) :
    AfterWatch s (setCore s k { getCore s k with trace := l, stopReq := b }) := by
  refine ⟨⟨_, _, rfl⟩, fun q => ?_⟩
  by_cases hq : q = k
  · subst hq
    refine ⟨l, b, getCore_setCore s q _ fun h => ?_⟩
    obtain h' | h' := hne
    · exact h' (congrArg CoreState.trace h)
    · exact absurd (h'.symm.trans (congrArg CoreState.stopReq h)) (by decide)
  · exact ⟨_, _, getCore_setCore_ne s _ hq⟩

theorem afterWatch_hubWrite (s : State) (m : Memory) : AfterWatch s (hubWrite s m) := by
  unfold hubWrite
  split
  · exact ⟨⟨_, _, rfl⟩, fun _ => ⟨_, _, rfl⟩⟩
  · exact ⟨⟨_, _, rfl⟩, fun _ => ⟨_, _, rfl⟩⟩

theorem afterWatch_traceRecord (s : State) (k : Nat) (ws : List Word) : AfterWatch s (traceRecord s k ws) := by
  unfold traceRecord
  dsimp only
  split
  · exact afterWatch_setCore s k _ _ (.inl (by simp))
  · split
    · exact afterWatch_hubWrite _ _
    · exact .refl s

theorem AfterWatch.ite {s t u : State} {p : Prop} [Decidable p] (h : AfterWatch s t) (g : AfterWatch s u) :
    AfterWatch s (if p then t else u) := by
  split
  · exact h
  · exact g

theorem afterWatch_watchTest (s : State) (k : Nat) (st : Stream) (evt ring seq a n kind : Nat) :
    AfterWatch s (watchTest s k st evt ring seq a n kind) := by
  have hrec : ∀ (u : State) (p : Bool) (ws : List Word), AfterWatch s u →
      AfterWatch s (if p then traceRecord u k ws else u) := fun u p ws hu => .ite (hu.trans (afterWatch_traceRecord u k ws)) hu
  have hstop : ∀ u, AfterWatch s u → AfterWatch s (modCore u k fun c => { c with stopReq := true }) := fun u hu =>
    hu.trans (afterWatch_setCore u k _ _ (.inr rfl))
  exact .ite (hstop _ (hrec _ _ _ (hrec _ _ _ (.refl s)))) (hrec _ _ _ (hrec _ _ _ (.refl s)))

theorem afterWatch_watchNow (s : State) (a n kind : Nat) : AfterWatch s (watchNow s a n kind) := afterWatch_watchTest ..

-- The lookup (R273) -----------------------------------------------------------------------------------------------------------------

theorem holds_iff (e : RangeEntry) (asid x : Nat) : e.holds asid x = true ↔
    e.ctl.toNat % 2 = 1 ∧ e.ctl.toNat / 2 ^ 8 % 2 ^ 12 = asid ∧ e.base.toNat ≤ x ∧ x < e.limit.toNat := by
  simp only [RangeEntry.holds, bits, Bool.and_eq_true, beq_iff_eq, decide_eq_true_eq, and_assoc, Nat.pow_zero, Nat.div_one, Nat.pow_one]

/-- What a lookup gives, in the terms of the claims. -/
def Lookup.is (l : Lookup) (a : Access) (words : Nat → List Word) : Prop :=
  match a with
  | .stops code sec => l = .fault code (words sec)
  | .reaches key => ∃ e, l = .ok e key
  | .nowhere => l = .nowhere

theorem lookup_is (s : State) (k x : Nat) (perms : List Nat) (seq : Nat) :
    Lookup.is (lookup (getCore s k) (pkgOf k) (asidOfCore s k) x perms seq) (accessAt s k x perms)
      (fun sec => accessWordsAt s k x sec seq) := by
  have hfind : (getCore s k).ranges.find? (fun p => decide (p.2.ctl.toNat % 2 = 1 ∧ p.2.ctl.toNat / 2 ^ 8 % 2 ^ 12 = asidOfCore s k ∧
      p.2.base.toNat ≤ x ∧ x < p.2.limit.toNat)) = findRange (getCore s k).ranges (asidOfCore s k) x := by
    rw [findRange]
    congr 1
    funext p
    rw [Bool.eq_iff_iff, decide_eq_true_eq, holds_iff]
  rw [lookup, accessAt, hfind]
  cases findRange (getCore s k).ranges (asidOfCore s k) x with
  | none => exact rfl
  | some p =>
    obtain ⟨n, e⟩ := p
    dsimp only
    have hperm : (perms.any fun b => decide (bits e.ctl.toNat b 1 = 0)) = perms.any fun p => decide (e.ctl.toNat / 2 ^ p % 2 = 0) := rfl
    have hsec : (x - e.base.toNat) / (256 * ((e.limit.toNat - e.base.toNat + 16383) / 16384)) = e.sector x := rfl
    have hres : bits e.res.toNat (e.sector x) 1 = e.res.toNat / 2 ^ e.sector x % 2 := rfl
    rw [hperm, hsec, hres]
    split
    · exact rfl
    · split
      · exact rfl
      · by_cases hpa : (x + e.off.toNat) % 2 ^ 64 < 2 ^ 39
        · rw [if_pos hpa, if_pos (show (x + e.off.toNat) % 2 ^ 64 < 2 ^ Config.physBits from hpa)]
          exact ⟨e, rfl⟩
        · rw [if_neg hpa, if_neg (show ¬ (x + e.off.toNat) % 2 ^ 64 < 2 ^ Config.physBits from hpa)]
          exact rfl

/-- The same of an access of the executing command, after its watch test. -/
theorem lookupNow_watchNow_is (s : State) (x n kind : Nat) (perms : List Nat) :
    Lookup.is (lookupNow (watchNow s x n kind) x perms) (accessOutcome s x perms) (accessWords s x) := by
  have h := afterWatch_watchNow s x n kind
  have hw : accessWords s x = fun sec => accessWordsAt (watchNow s x n kind) s.ctx.core x sec s.ctx.seq := by
    funext sec
    rw [← h.accessWords, accessWords, h.ctx]
  rw [lookupNow, cur, h.ctx, hw, ← h.accessOutcome, accessOutcome, h.ctx]
  exact lookup_is _ _ _ _ _

-- Requests at issue (R164, R193) -------------------------------------------------------------------------------------------------------

/-- A device access of an active command of the control core (R169, R170, R273). -/
theorem ccDevice_does {s : State} (hactive : s.ctx.active = true) (x kind perm : Nat) (f : Nat → State → State) :
    (¬ (x < 2 ^ 57 ∧ x % 8 = 0) → ccDevice s x kind perm f = .next (faults s 0x08 0 [])) ∧
    (∀ code sec, x < 2 ^ 57 → x % 8 = 0 → accessOutcome s x [perm] = .stops code sec →
      ccDevice s x kind perm f = .next (faults (watched s x 8 kind) code 0 (accessWords s x sec))) ∧
    (∀ key, x < 2 ^ 57 → x % 8 = 0 → accessOutcome s x [perm] = .reaches key →
      ccDevice s x kind perm f = .next (f key (requestNow (watched s x 8 kind) ccSt))) ∧
    (x < 2 ^ 57 → x % 8 = 0 → accessOutcome s x [perm] = .nowhere →
      ccDevice s x kind perm f = .next { watched s x 8 kind with dead := true }) := by
  have hl := lookupNow_watchNow_is s x 8 kind [perm]
  have hform : x < 2 ^ 57 → x % 8 = 0 → ccDevice s x kind perm f = (match lookupNow (watchNow s x 8 kind) x [perm] with
      | .ok _ key => .next (f key (requestNow (watchNow s x 8 kind) ccSt))
      | .fault code d => .next (faultNow (watchNow s x 8 kind) code 0 d)
      | .nowhere => .next (deadEnd (watchNow s x 8 kind))) := by
    intro hx h8
    rw [ccDevice, if_pos ⟨hx, h8⟩, if_pos hactive] <;> rfl
  refine ⟨fun h => if_neg h, fun code sec hx h8 ha => ?_, fun key hx h8 ha => ?_, fun hx h8 ha => ?_⟩
  · rw [ha] at hl
    rw [hform hx h8, show lookupNow _ _ _ = _ from hl] <;> rfl
  · rw [ha] at hl
    obtain ⟨e, he⟩ := hl
    rw [hform hx h8, he] <;> rfl
  · rw [ha] at hl
    rw [hform hx h8, show lookupNow _ _ _ = _ from hl] <;> rfl

/-- A failure in the form in which the copy engine's issue has it. -/
def failureParts (f : Failure) : Nat × List Word × State := (f.code, f.detail, f.seen)

/-- The requests of a command's issue, one by one. -/
theorem Asks.fail_cons (q : Asks) (s : State) (x : Nat) (r : List Nat) :
    q.fail s (x :: r) = (match requestOutcome s x q.n q.align q.kind q.perms with
      | some f => some (failureParts f)
      | none => q.fail (watched s x q.n q.kind) r) := by
  rw [Asks.fail, requestOutcome]
  by_cases hform : x < 2 ^ 57 ∧ x % q.align = 0
  · rw [if_pos hform, if_pos hform]
    have hl := lookupNow_watchNow_is s x q.n q.kind q.perms
    dsimp only
    cases ha : accessOutcome s x q.perms with
    | stops code sec =>
      rw [ha] at hl
      rw [show lookupNow _ _ _ = _ from hl] <;> rfl
    | reaches key =>
      rw [ha] at hl
      obtain ⟨e, he⟩ := hl
      rw [he] <;> rfl
    | nowhere =>
      rw [ha] at hl
      rw [show lookupNow _ _ _ = _ from hl] <;> rfl
  · rw [if_neg hform, if_neg hform] <;> rfl

/-- Requests of 64 aligned bytes: the first that fails. -/
theorem Asks.fail_eq_firstFailure {q : Asks} (hn : q.n = 64) (halign : q.align = 64) :
    ∀ (l : List Nat) (s : State), q.fail s l = (firstFailure s q.kind q.perms l).map failureParts
  | [], _ => rfl
  | x :: r, s => by
    rw [Asks.fail_cons, firstFailure, hn, halign]
    cases requestOutcome s x 64 64 q.kind q.perms with
    | some f => rfl
    | none => exact Asks.fail_eq_firstFailure hn halign r _

/-- One request: its own failure. -/
theorem Asks.fail_single (q : Asks) (s : State) (x : Nat) :
    q.fail s [x] = (requestOutcome s x q.n q.align q.kind q.perms).map failureParts := by
  rw [Asks.fail_cons]
  cases requestOutcome s x q.n q.align q.kind q.perms <;> rfl

/-- The checks that the model runs decide the stated ones, each of them where those before it hold. -/
def DecideInOrder : List (Bool × Nat) → List (Prop × Nat) → Prop
  | [], [] => True
  | x :: l, c :: r => x.2 = c.2 ∧ (x.1 = true ↔ c.1) ∧ (c.1 → DecideInOrder l r)
  | _, _ => False

theorem decideInOrder_nil : DecideInOrder [] [] := trivial

theorem decideInOrder_cons {b : Bool} {p : Prop} {code : Nat} {l : List (Bool × Nat)} {r : List (Prop × Nat)} (h : b = true ↔ p)
    (hr : p → DecideInOrder l r) : DecideInOrder ((b, code) :: l) ((p, code) :: r) := ⟨rfl, h, hr⟩

theorem firstFault_of_inOrder : ∀ {l : List (Bool × Nat)} {checks : List (Prop × Nat)}, DecideInOrder l checks →
    (∀ x ∈ checks, x.1) → firstFault l = none
  | [], [], _, _ => rfl
  | (b, n) :: l, c :: r, ⟨_, hb, hr⟩, hall => by
    obtain ⟨hc, hrest⟩ := List.forall_mem_cons.1 hall
    rw [firstFault, if_pos (hb.2 hc), firstFault_of_inOrder (hr hc) hrest]

theorem firstFault_of_inOrder_fails {p : Prop} {code : Nat} {after : List (Prop × Nat)} (hp : ¬ p) :
    ∀ {before : List (Prop × Nat)} {l : List (Bool × Nat)}, (∀ x ∈ before, x.1) → DecideInOrder l (before ++ (p, code) :: after) →
      firstFault l = some code
  | [], (b, n) :: l, _, ⟨hn, hb, _⟩ => by
    rw [firstFault, if_neg (mt hb.1 hp)]
    exact congrArg some hn
  | c :: r, (b, n) :: l, hall, ⟨_, hb, hr⟩ => by
    obtain ⟨hc, hrest⟩ := List.forall_mem_cons.1 hall
    rw [firstFault, if_pos (hb.2 hc), firstFault_of_inOrder_fails hp hrest (hr hc)]

/-- A command of the copy engine issues as its checks and requests decide. -/
theorem issuesTo_of_cpIssue {s t : State} {i : Instr} {l : List (Bool × Nat)} {checks : List (Prop × Nat)} {q : Asks}
    {request : Option Failure} {f : State → State} (hexec : exec i s = cpIssue s l q f) (hl : DecideInOrder l checks)
    (hq : q.fail s q.addrs = request.map failureParts) (ht : (∀ x ∈ checks, x.1) → (s.ctx.active = true → request = none) → f s = t) :
    issuesTo s i checks request t := by
  have hok : (∀ x ∈ checks, x.1) → ∀ x ∈ l, x.1 = true := fun h => (firstFault_none l).1 (firstFault_of_inOrder hl h)
  refine ⟨?_, fun hall hactive x hx => ?_, fun hall hnone => ?_⟩
  · rintro before after p code rfl hbefore hp
    rw [hexec, cpIssue, firstFault_of_inOrder_fails hp hbefore hl]
    rfl
  · rw [hexec, cpIssue_request s l q f (failureParts x) (hok hall) hactive (by rw [hq, hx]; rfl)]
    rfl
  · rw [hexec, cpIssue_ok s l q f (hok hall) fun hactive => by rw [hq, hnone hactive]; rfl, ht hall hnone]

-- The request (R104) --------------------------------------------------------------------------------------------------------------------

theorem countEvent_eq (c : CoreState) (ev : Nat) (st : Stream) (n : Nat) : ∃ m, countEvent c ev st n = { c with evcnt := m } := by
  unfold countEvent
  split
  · exact ⟨_, rfl⟩
  · exact ⟨_, rfl⟩

/-- A core after a request: one granule of credit less, one request more outstanding. -/
def requestCore (s : State) (k : Nat) (st : Stream) : CoreState :=
  countEvent { getCore s k with
    credit := (getCore s k).credit - 2 ^ 24, outstanding := (getCore s k).outstanding ++ [s.clock + Config.memServe (getCore s k).requests]
    requests := (getCore s k).requests + 1 } 7 st 1

/-- It differs from the core before it in four fields. -/
theorem requestCore_eq (s : State) (k : Nat) (st : Stream) : ∃ m, requestCore s k st = { getCore s k with
    credit := (getCore s k).credit - 2 ^ 24, outstanding := (getCore s k).outstanding ++ [s.clock + Config.memServe (getCore s k).requests]
    requests := (getCore s k).requests + 1, evcnt := m } := countEvent_eq _ 7 st 1

/-- The cause that a request without credit raises (R104, R109). -/
def requestCause (s : State) (k : Nat) (st : Stream) (station evt : Nat) : Cause :=
  ⟨2, k, station, st, evt, 0, ⟨1, (getPkg s (pkgOf k)).pos, numOf k, Stream.code st, 0, (getCore s k).pid⟩, false⟩

theorem rateUse_eq (s : State) (k : Nat) (st : Stream) (station evt : Nat) : rateUse s k st station evt =
    if (getCore s k).credit < 2 ^ 24 ∨ 768 ≤ (getCore s k).outstanding.length then
      raiseCause (setCore s k (requestCore s k st)) (getCore s k).pid (requestCause s k st station evt)
    else setCore s k (requestCore s k st) := by
  have hpid : (requestCore s k st).pid = (getCore s k).pid := by
    obtain ⟨m, hm⟩ := requestCore_eq s k st
    rw [hm]
  have hcond : ((getCore s k).credit - (Config.creditUnit : Int) < 0 ∨
      ((getCore s k).outstanding ++ [s.clock + Config.memServe (getCore s k).requests]).length > Config.creditCap) ↔
      ((getCore s k).credit < 2 ^ 24 ∨ 768 ≤ (getCore s k).outstanding.length) := by
    rw [List.length_append, List.length_singleton, Config.creditUnit, Config.creditCap]
    omega
  rw [requestCause, ← hpid]
  exact if_congr hcond rfl rfl

theorem rateUse_rest (s : State) (k : Nat) (st : Stream) (station evt : Nat) :
    ∃ cores domains, rateUse s k st station evt = { s with cores := cores, domains := domains } := by
  rw [rateUse_eq]
  split
  · exact ⟨_, _, rfl⟩
  · exact ⟨_, _, rfl⟩

theorem getCore_rateUse (s : State) (k : Nat) (st : Stream) (station evt : Nat) :
    getCore (rateUse s k st station evt) k = requestCore s k st := by
  have hne : requestCore s k st ≠ {} := by
    obtain ⟨m, hm⟩ := requestCore_eq s k st
    intro h
    have := congrArg CoreState.requests (hm.symm.trans h)
    exact Nat.succ_ne_zero _ this
  rw [rateUse_eq]
  split
  · exact getCore_setCore s k _ hne
  · exact getCore_setCore s k _ hne

theorem getCore_rateUse_ne (s : State) {k q : Nat} (st : Stream) (station evt : Nat) (h : q ≠ k) :
    getCore (rateUse s k st station evt) q = getCore s q := by
  rw [rateUse_eq]
  split
  · exact getCore_setCore_ne s _ h
  · exact getCore_setCore_ne s _ h

/-- After the watch test and the request, the scalar registers and the executing command are as they were. -/
theorem requestNow_watched (s : State) (x n kind station : Nat) (r : SReg) :
    (requestNow (watched s x n kind) station).ctx = s.ctx ∧ rd (requestNow (watched s x n kind) station) r = rd s r := by
  have hw := afterWatch_watchNow s x n kind
  have hctx : (requestNow (watched s x n kind) station).ctx = (watchNow s x n kind).ctx := by
    obtain ⟨c, d, h⟩ := rateUse_rest (watched s x n kind) (watched s x n kind).ctx.core (watched s x n kind).ctx.stream station
      (watched s x n kind).ctx.hdr.evt.toNat
    rw [requestNow, h]
    rfl
  refine ⟨hctx.trans hw.ctx, ?_⟩
  obtain ⟨m, hm⟩ := requestCore_eq (watched s x n kind) (watched s x n kind).ctx.core (watched s x n kind).ctx.stream
  obtain ⟨l, b, hl⟩ := hw.core s.ctx.core
  rw [rd, cur, hctx, requestNow, watched, getCore_rateUse, ← watched, hm, watched, hw.ctx, hl]
  rfl

/-- Settles O14: the five commands are one device access each. -/
theorem deviceWordCommands : Obligations.DeviceWordCommands := by
  unfold Obligations.DeviceWordCommands
  intro s d a b c imm hactive
  dsimp only
  rw [← memAddr_eq]
  have hpost : ∀ (x kind n : Nat) (e : Effect), ccPost (requestNow (watched s x 8 kind) ccSt) n e =
      posts (requestNow (watched s x 8 kind) ccSt) n ccSt e := fun x kind n e =>
    ccPost_active _ n e (by rw [(requestNow_watched s x 8 kind ccSt 0).1, hactive])
  have hdoes : ∀ {i : Instr} {x kind perm n : Nat} {f : Nat → State → State} {e : Nat → Effect},
      exec i s = ccDevice s x kind perm f → (∀ key, f key (requestNow (watched s x 8 kind) ccSt) =
        ccPost (requestNow (watched s x 8 kind) ccSt) n (e key)) →
      (¬ (x < 2 ^ 57 ∧ x % 8 = 0) → exec i s = .next (faults s 0x08 0 [])) ∧
      (∀ code sec, code ≠ 0 ∧ x < 2 ^ 57 ∧ x % 8 = 0 ∧ accessOutcome s x [perm] = .stops code sec →
        exec i s = .next (faults (watched s x 8 kind) code 0 (accessWords s x sec))) ∧
      (∀ key, x < 2 ^ 57 → x % 8 = 0 → accessOutcome s x [perm] = .reaches key →
        exec i s = .next (posts (requestNow (watched s x 8 kind) ccSt) n ccSt (e key))) ∧
      (x < 2 ^ 57 → x % 8 = 0 → accessOutcome s x [perm] = .nowhere → exec i s = .next { watched s x 8 kind with dead := true }) := by
    intro i x kind perm n f e hexec hf
    obtain ⟨hform, hstops, hreaches, hnowhere⟩ := ccDevice_does hactive x kind perm f
    rw [hexec]
    refine ⟨hform, fun code sec ⟨_, hx, h8, ha⟩ => hstops code sec hx h8 ha, fun key hx h8 ha => ?_, hnowhere⟩
    rw [hreaches key hx h8 ha, hf, hpost]
  exact ⟨hdoes rfl fun _ => rfl, hdoes rfl fun key => congrArg (fun v => ccPost _ 1280 (.memWrite key 8 255 (BitVec.toNat v) none))
    (requestNow_watched s _ 8 1 ccSt d).2, hdoes rfl fun _ => rfl, hdoes rfl fun _ => rfl, hdoes rfl fun _ => rfl⟩

end Sys2Proof.Proofs
end

