-- ==== Sys2Proof/Proofs/SystemRegisters.lean ====
section
/-! PROOF. The reset state (R27), the rate credit (R104, R297), and the commands that read and write system registers, counters and
pointers (R176 to R183). -/

namespace Sys2Proof.Proofs

open Sys2Proof Sys2Proof.Machine Sys2Proof.Claims Sys2Proof.Laws

/-- Settles O8: every table of the reset state is empty, and reads as its default. -/
theorem resetLeavesNothing : Obligations.ResetLeavesNothing := by
  unfold Obligations.ResetLeavesNothing
  refine ⟨rfl, rfl, fun _ => rfl, rfl, rfl, rfl, rfl, fun k r => ?_, fun _ _ => rfl, fun _ _ => rfl, fun _ _ => ?_, fun _ st => ?_, fun _ => ?_,
    fun _ _ => rfl, fun _ _ => ⟨rfl, rfl⟩⟩
  · exact ite_self _
  · exact ⟨rfl, rfl, rfl, rfl, rfl, rfl, rfl, rfl, rfl, rfl, rfl, rfl, rfl, rfl, rfl⟩
  · cases st <;> exact ⟨rfl, rfl, rfl, rfl, rfl, rfl, rfl⟩
  · exact ⟨rfl, rfl, rfl, rfl, rfl, rfl, rfl, rfl, rfl, rfl, rfl, rfl, rfl, rfl, rfl, rfl, rfl⟩

-- Holds and the rate credit --------------------------------------------------------------------------------------------------------------

/-- A raised cause is among the causes, uncleared. -/
theorem any_addCause (l : List Cause) {c : Cause} (hc : c.cleared = false) :
    (addCause l c).any (fun x => sameCause c x && !x.cleared) = true := by
  rw [addCause]
  split
  · rename_i h
    obtain ⟨x, hx, hs⟩ := List.any_eq_true.1 h
    refine List.any_eq_true.2 ⟨{ x with cleared := false }, List.mem_map.2 ⟨x, hx, if_pos hs⟩, ?_⟩
    rw [Bool.and_eq_true]
    exact ⟨hs, rfl⟩
  · refine List.any_eq_true.2 ⟨c, by simp, ?_⟩
    simp [sameCause, hc]

/-- A cause raised on a running domain announces a hold H cycles on, an earlier one standing (R105). -/
theorem findDom_raiseCause {s : State} {pid : Nat} {d : Domain} (c : Cause) (hd : findDom s pid = some d) (hrun : d.status = .run) :
    findDom (raiseCause s pid c) pid = some { d with
      causes := addCause d.causes c, freeze := some (match d.freeze with | some f => min f (d.dcc + d.h) | none => d.dcc + d.h) } := by
  rw [raiseCause, findDom_modDom, hd, Option.map_some]
  · simp only [hrun] <;> rfl
  · intro e
    split <;> rfl

theorem rateOf_eq {s : State} {k : Nat} {d : Domain} (hd : domOf s k = some d) :
    rateOf s k = min (effWord s d.home d.region 2 4 % 2 ^ 32) (2 ^ 24) := by
  simp only [rateOf, hd, bits, Nat.pow_zero, Nat.div_one]

/-- Settles O15: the request's rules, and the refills as they change their one core. -/
theorem requestAndBeatCredit : Obligations.RequestAndBeatCredit := by
  unfold Obligations.RequestAndBeatCredit
  intro s k st station evt
  dsimp only
  obtain ⟨m, hm⟩ := requestCore_eq s k st
  obtain ⟨cs, ds, hrest⟩ := rateUse_rest s k st station evt
  rw [getCore_rateUse, hm]
  refine ⟨rfl, by simp, rfl, by rw [hrest], fun q hq => getCore_rateUse_ne s st station evt hq, fun hc hn => ?_, fun d hd hrun hlow => ?_,
    fun htidy d hd => ⟨⟨_, rfl, rfl, rfl, fun q hq => getCore_modCore_ne s _ hq, ?_⟩, _, rfl, rfl, rfl, fun q hq => getCore_modCore_ne s _ hq, ?_⟩⟩
  · rw [rateUse_eq, if_neg (by omega)]
    rfl
  · rw [rateUse_eq, if_pos hlow]
    refine ⟨_, findDom_raiseCause (s := setCore s k (requestCore s k st)) _ hd hrun, rfl, ?_, rfl, rfl⟩
    refine List.any_eq_true.2 ?_
    obtain ⟨x, hx, hs⟩ := List.any_eq_true.1 (any_addCause d.causes (c := requestCause s k st station evt) rfl)
    refine ⟨x, hx, ?_⟩
    simp only [sameCause, requestCause, Bool.and_eq_true] at hs ⊢
    exact ⟨hs.1.1, hs.2⟩
  · have hcores := (show Tidy s from ⟨htidy⟩).cores
    rw [modCore, getCore_setCore_wf _ _ _ hcores, rateOf_eq hd]
    exact ⟨rfl, rfl, rfl⟩
  · have hcores := (show Tidy s from ⟨htidy⟩).cores
    rw [modCore, getCore_setCore_wf _ _ _ hcores, show domOf s k = some d from hd]
    exact ⟨rfl, rfl⟩

-- System registers (R95, R182) -------------------------------------------------------------------------------------------------------------

theorem sysrd_reads {s : State} (hactive : s.ctx.active = true) {d : SReg} {n : BitVec 12} {m : Nat} {v : Word}
    (h : sysRead s s.ctx.core m = some v) (hn : n.toNat = m) : exec (.sysrd d n) s = .next (posts s 1 ccSt (.sreg d v)) := by
  change execSysrd d n s = _
  rw [execSysrd, hn, h]
  exact ccResult_active s 1 d v hactive

/-- The numbers that R182 assigns. -/
def sysAssigned (n : Nat) : Prop :=
  n ≤ 3 ∨ (0x10 ≤ n ∧ n ≤ 0x17) ∨ (0x20 ≤ n ∧ n ≤ 0x23) ∨ (0x30 ≤ n ∧ n ≤ 0x34) ∨ n = 0x40

theorem isSome_sysRead_iff (s : State) (k n : Nat) : (sysRead s k n).isSome = true ↔ sysAssigned n := by
  constructor
  · unfold sysRead sysAssigned
    split
    case h_23 => exact fun h => nomatch h
    all_goals exact fun _ => by omega
  · rintro (h | h | h | h | rfl)
    · interval_cases n <;> rfl
    · obtain ⟨hlo, hhi⟩ := h
      interval_cases n <;> rfl
    · obtain ⟨hlo, hhi⟩ := h
      interval_cases n <;> rfl
    · obtain ⟨hlo, hhi⟩ := h
      interval_cases n <;> rfl
    · rfl

theorem sysWritable_iff (n : Nat) : sysWritable n = true ↔ (0x20 ≤ n ∧ n ≤ 0x23) ∨ (0x30 ≤ n ∧ n ≤ 0x33) := by
  simp [sysWritable]

/-- A sum of base-4 digits. -/
theorem foldl_digits4 (f : Nat → Nat) (hf : ∀ i, f i < 4) (n : Nat) :
    (List.range n).foldl (fun a i => a + f i * 4 ^ i) 0 < 4 ^ n ∧
      ∀ t, t < n → (List.range n).foldl (fun a i => a + f i * 4 ^ i) 0 / 4 ^ t % 4 = f t := by
  induction n with
  | zero => exact ⟨by simp, fun t ht => absurd ht (Nat.not_lt_zero t)⟩
  | succ n ih =>
    obtain ⟨hlt, hdig⟩ := ih
    rw [List.range_succ, List.foldl_append, List.foldl_cons, List.foldl_nil]
    generalize (List.range n).foldl (fun a i => a + f i * 4 ^ i) 0 = x at hlt hdig ⊢
    have hn := hf n
    refine ⟨?_, fun t ht => ?_⟩
    · rw [pow_succ]
      nlinarith
    · obtain h | rfl := Nat.lt_succ_iff_lt_or_eq.1 ht
      · rw [← hdig t h]
        obtain ⟨c, rfl⟩ := Nat.exists_eq_add_of_lt h
        have hpow : f (t + c + 1) * 4 ^ (t + c + 1) = 4 ^ t * (4 * (f (t + c + 1) * 4 ^ c)) := by ring
        rw [hpow, Nat.add_mul_div_left _ _ (by positivity), Nat.add_mul_mod_self_left]
      · rw [Nat.add_mul_div_right _ _ (by positivity), Nat.div_eq_of_lt hlt, Nat.zero_add, Nat.mod_eq_of_lt hn]

theorem ytagWord_digit (c : CoreState) {t : Nat} (ht : t < 16) :
    (ytagWord c).toNat / 4 ^ t % 4 = (Sparse.get 2 c.tags t).toNat := by
  obtain ⟨hlt, hdig⟩ := foldl_digits4 (fun i => (Sparse.get 2 c.tags i).toNat) (fun i => (Sparse.get 2 c.tags i).isLt) 16
  rw [ytagWord, BitVec.toNat_ofNat, Nat.mod_eq_of_lt (hlt.trans (by decide)), hdig t ht]

theorem ringAddr_eq (ring : Word) (i : Nat) : ringAddr ring i =
    ring.toNat % 2 ^ 21 / (ringLen ring * 8) * (ringLen ring * 8) + 8 * (i % ringLen ring) := by
  simp only [ringAddr, bits, Nat.pow_zero, Nat.div_one]

theorem cflagsWord_eq (c : CoreState) :
    cflagsWord c = toWord ((if c.collision then 1 else 0) + 2 * (if c.symForce then 1 else 0)) := by
  rw [cflagsWord]
  cases c.symForce <;> rfl

theorem domainWord_eq {s : State} {k : Nat} {d : Domain} (hd : domOf s k = some d) :
    (partnerOf d k = none → domainWord s k = toWord (d.span * 2 ^ 28 + d.pkgs.length * 2 ^ 20 + d.cores.length)) ∧
    ∀ q, partnerOf d k = some q → domainWord s k = toWord (numOf q * 2 ^ 32 + (if primaryOf d k = k then 1 else 2) * 2 ^ 30 +
      d.span * 2 ^ 28 + d.pkgs.length * 2 ^ 20 + d.cores.length) := by
  constructor
  · intro h
    simp only [domainWord, hd, h, Nat.zero_mul, Nat.zero_add]
  · intro q h
    simp only [domainWord, hd, h]

/-- Settles O16: each register's content, and the two checks of SYSWR. -/
theorem systemRegisterCommands : Obligations.SystemRegisterCommands := by
  unfold Obligations.SystemRegisterCommands
  intro s dm d a n hactive hdom
  dsimp only
  have hreads : ∀ {m : Nat} {v : Word}, sysRead s s.ctx.core m = some v → n.toNat = m →
      exec (.sysrd d n) s = .next (posts s 1 ccSt (.sreg d v)) := sysrd_reads hactive
  have hcore : coreWord s s.ctx.core = toWord (numOf (primaryOf dm s.ctx.core)) := by simp only [coreWord, hdom]
  have hasid : asidOfCore s s.ctx.core = dm.asid := by simp only [asidOfCore, hdom]
  obtain ⟨halone, hpair⟩ := domainWord_eq hdom
  have hwr : exec (.syswr a n) s = checked s [((sysRead s s.ctx.core n.toNat).isSome, fEncoding), (sysWritable n.toNat, fPermission)]
      fun s => ccPost s 1 (.sysreg n.toNat (rd s a)) := rfl
  refine ⟨hreads (congrArg some hcore), fun h => hreads (congrArg some (halone h)), fun q h => hreads (congrArg some (hpair q h)), hreads rfl,
    hreads (congrArg (fun x => some (toWord x)) hasid), hreads rfl, hreads rfl, hreads rfl, hreads rfl,
    hreads (congrArg (fun x => some (toWord x)) (ringAddr_eq _ _)), hreads (congrArg (fun x => some (toWord x)) (ringAddr_eq _ _)),
    hreads (congrArg (fun x => some (toWord x)) (ringAddr_eq _ _)), hreads (congrArg (fun x => some (toWord x)) (ringAddr_eq _ _)),
    hreads rfl, hreads rfl, hreads rfl, hreads rfl, hreads (congrArg some (BitVec.ofNat_toNat 64 _).symm),
    hreads (congrArg some (BitVec.ofNat_toNat 64 _).symm), hreads (congrArg some (BitVec.ofNat_toNat 64 _).symm),
    hreads (congrArg some (cflagsWord_eq _)), hreads rfl,
    ⟨_, hreads rfl, fun t ht => ytagWord_digit _ ht⟩, fun hun => ⟨?_, ?_⟩, fun ⟨has, hro⟩ => ?_, fun hw => ?_⟩
  · have hnone : sysRead s s.ctx.core n.toNat = none := by
      rw [← Option.not_isSome_iff_eq_none, isSome_sysRead_iff]
      exact hun
    change execSysrd d n s = _
    rw [execSysrd, hnone]
    rfl
  · have hbad : (sysRead s s.ctx.core n.toNat).isSome = false := Bool.eq_false_iff.2 (mt (isSome_sysRead_iff _ _ _).1 hun)
    rw [hwr, hbad]
    rfl
  · rw [hwr, (isSome_sysRead_iff _ _ _).2 has, Bool.eq_false_iff.2 (mt (sysWritable_iff _).1 hro)]
    rfl
  · have has : sysAssigned n.toNat := by
      unfold sysAssigned
      omega
    rw [hwr, (isSome_sysRead_iff _ _ _).2 has, (sysWritable_iff _).2 hw]
    exact congrArg _ (ccPost_active s 1 _ hactive)

-- Counters, pointers, launch (R176 to R185) ----------------------------------------------------------------------------------------------------

theorem acquire_ctx (s : State) (k lc : Nat) : (acquire s k lc).ctx = s.ctx := by
  rw [acquire]
  split
  · rfl
  · rfl

theorem mouldOwned_iff (m : List Word) (part : Nat) : mouldOwned m part = true ↔
    (m.getD 0 0).toNat / 2 ^ 63 % 2 = 1 ∧ (m.getD 0 0).toNat / 2 ^ 56 % 2 ^ 4 = part := by
  rw [mouldOwned, Bool.and_eq_true, beq_iff_eq, beq_iff_eq]
  exact Iff.rfl

theorem bits_low (n len : Nat) : bits n 0 len = n % 2 ^ len := by rw [bits, Nat.pow_zero, Nat.div_one]

/-- Settles O17: each command posts its entry; the check of MPAT. -/
theorem counterAndPointerCommands : Obligations.CounterAndPointerCommands := by
  unfold Obligations.CounterAndPointerCommands
  intro s d a b lc qp n hactive
  dsimp only
  have hpost : ∀ (m : Nat) (e : Effect), Host.Outcome.next (ccPost s m e) = (.next (posts s m ccSt e) : Out) := fun m e =>
    congrArg _ (ccPost_active s m e hactive)
  have hmpat : exec (.mpat a b n) s = checked s [(mouldOwned (getMould s (pkgOf s.ctx.core) ((rd s a).toNat % 2 ^ 12))
      (ownPart s s.ctx.core), fPermission)] fun s => ccPost s 96 (.mpat (bits (rdN s a) 0 12) n.toNat (rd s b)) := by
    rw [← bits_low]
    rfl
  refine ⟨hpost _ _, fun h => ?_, fun h => ?_, hpost _ _, hpost _ _, (hpost _ _).trans ?_, hpost _ _, hpost _ _, hpost _ _, ?_, fun h => ?_,
    fun h => ?_⟩
  · have hw : lcWord (getLc (cur s) lc.toNat) = toWord ((getLc (cur s) lc.toNat).cnt.toNat +
        2 ^ 40 * (if (getLc (cur s) lc.toNat).p then 1 else 0)) := by
      rw [lcWord, if_pos h, mul_ite, mul_one, mul_zero, Nat.add_zero]
    change execLcrd d lc s = _
    rw [execLcrd, hw]
    simp only [h, ne_eq, not_true_eq_false, and_false, if_false]
    exact ccResult_active s 1 d _ hactive
  · have hw : lcWord (getLc (cur s) lc.toNat) = toWord (2 ^ 63 + (getLc (cur s) lc.toNat).cnt.toNat +
        2 ^ 40 * (if (getLc (cur s) lc.toNat).p then 1 else 0)) := by
      rw [lcWord, if_neg h, mul_ite, mul_one, mul_zero, Nat.add_comm, ← Nat.add_assoc]
    change execLcrd d lc s = _
    rw [execLcrd, hw]
    simp only [hactive, h, ne_eq, not_false_eq_true, and_self, if_true]
    exact ccResult_active _ 1 d _ (by rw [acquire_ctx, hactive])
  · rw [BitVec.ofNat_toNat]
  · change Host.Outcome.next (ccPost s 96 (.arm d (bits (rdN s a) 0 12))) = _
    rw [bits_low]
    exact hpost _ _
  · rw [hmpat, checked_posts hactive (mouldOwned_iff _ _) fPermission 96 _ h, bits_low]
    rfl
  · rw [hmpat]
    exact checked_faults (mouldOwned_iff _ _) fPermission _ h

end Sys2Proof.Proofs
end

