-- ==== Sys2Proof/Proofs/StreamControl.lean ====
section
/-! PROOF. Control transfer (R172 to R174) and stream control (R140 to R144). -/

namespace Sys2Proof.Proofs

open Sys2Proof Sys2Proof.Machine Sys2Proof.Claims Sys2Proof.Laws

-- The executing core and its stream after a change ----------------------------------------------------------------------------------------

/-- A core of a pour is not the blank one: what is put there is read back. -/
theorem cur_modCur {s : State} {f : CoreState → CoreState} (hpid : (f (cur s)).pid ≠ 0) : cur (modCur s f) = f (cur s) :=
  getCore_modCore s _ f fun h => hpid (congrArg CoreState.pid h)

theorem cur_modCurStream {s : State} (hpid : (cur s).pid ≠ 0) (f : StreamSt → StreamSt) :
    cur (modCurStream s f) = modStream (cur s) s.ctx.stream f :=
  cur_modCur (by rwa [modStream, setStream_pid])

theorem curStream_modCurStream {s : State} (hpid : (cur s).pid ≠ 0) (f : StreamSt → StreamSt) :
    curStream (modCurStream s f) = f (curStream s) := by
  rw [curStream, cur_modCurStream hpid, modCurStream, modCur, modCore, setCore_ctx, modStream, getStream_setStream_same, curStream]

@[simp] theorem modStream_inflight (c : CoreState) (st : Stream) (f : StreamSt → StreamSt) : (modStream c st f).inflight = c.inflight := by
  cases st <;> rfl

@[simp] theorem modStream_sregs (c : CoreState) (st : Stream) (f : StreamSt → StreamSt) : (modStream c st f).sregs = c.sregs := by
  cases st <;> rfl

@[simp] theorem modStream_calls (c : CoreState) (st : Stream) (f : StreamSt → StreamSt) : (modStream c st f).calls = c.calls := by
  cases st <;> rfl

/-- Memory, the executing command, the domains, and the core's registers and entries in flight are as they were. -/
def LeavesRest (s t : State) : Prop :=
  t.mem = s.mem ∧ t.ctx = s.ctx ∧ (cur t).inflight = (cur s).inflight ∧ (cur t).sregs = (cur s).sregs ∧ t.domains = s.domains

theorem leavesRest_modCurStream {s : State} (hpid : (cur s).pid ≠ 0) (f : StreamSt → StreamSt) : LeavesRest s (modCurStream s f) :=
  ⟨rfl, rfl, by rw [cur_modCurStream hpid, modStream_inflight], by rw [cur_modCurStream hpid, modStream_sregs], rfl⟩

/-- The core after a change of its call stack, going on at a ring index (R173). -/
theorem cur_goTo_calls {s : State} (hpid : (cur s).pid ≠ 0) (l : CoreState → List Nat) (d : Nat) :
    cur (goTo (modCur s fun c => { c with calls := l c }) d) = modStream { cur s with calls := l (cur s) } s.ctx.stream fun t => { t with nextIdx := d } := by
  have hcur : cur (modCur s fun c => { c with calls := l c }) = { cur s with calls := l (cur s) } := cur_modCur hpid
  rw [goTo, cur_modCurStream (by rw [hcur]; exact hpid), hcur]
  rfl

theorem leavesRest_goTo_calls {s : State} (hpid : (cur s).pid ≠ 0) (l : CoreState → List Nat) (d : Nat) :
    LeavesRest s (goTo (modCur s fun c => { c with calls := l c }) d) :=
  ⟨rfl, rfl, by rw [cur_goTo_calls hpid, modStream_inflight], by rw [cur_goTo_calls hpid, modStream_sregs], rfl⟩

-- Control transfer (R172 to R174) ----------------------------------------------------------------------------------------------------------

theorem ringLen_pos (ring : Word) : 0 < ringLen ring := by
  rw [ringLen]
  positivity

/-- The word before `w`, `n` words on. -/
theorem joinWord_eq (ring : Word) (w n : Nat) :
    (w + ringLen ring - 1 + n) % ringLen ring = (((w : Int) - 1 + n) % (ringLen ring : Int)).toNat := by
  have hpos := ringLen_pos ring
  have h : ((w : Int) - 1 + n) % (ringLen ring : Int) = ((w + ringLen ring - 1 + n : Nat) : Int) % (ringLen ring : Int) := by
    rw [← Int.add_emod_right ((w : Int) - 1 + n)]
    congr 1
    omega
  rw [h, ← Int.natCast_emod, Int.toNat_natCast]

theorem taken_iff (active neg : Bool) (v : Word) :
    (active && ((v != 0) != neg)) = true ↔ active = true ∧ ((neg = false ∧ v ≠ 0) ∨ (neg = true ∧ v = 0)) := by
  cases neg <;> simp

/-- Settles O19: each transfer's checks, and the change of its stream. -/
theorem controlTransferCommands : Obligations.ControlTransferCommands := by
  unfold Obligations.ControlTransferCommands
  intro s a neg off jd hst hpid
  have hcs : curStream s = (cur s).cc := by rw [curStream, hst]; rfl
  have htarget : target s off = (((s.ctx.next : Int) + off.toInt) % (ringLen (cur s).cc.ring : Int)).toNat := by rw [target, hcs]
  dsimp only
  rw [← htarget]
  rw [← hcs]
  generalize htarget' : target s off = dest
  have hbr : exec (.br a neg off jd) s = checked s
      [(jd == 0 || decide ((curStream s).joins.length < 8), fEncoding), (insideLoop (curStream s) dest, fEncoding)] (fun s' =>
        modCurStream s' fun t => { t with
          nextIdx := if s'.ctx.active && ((rd s' a != 0) != neg) then dest else s'.ctx.next
          fetchIdx := if s'.ctx.active && ((rd s' a != 0) != neg) then dest else s'.ctx.next
          fetchHold := false, brMin := (cur s').dcc + 16
          joins := if jd = 0 then t.joins else
            ((s'.ctx.next + ringLen (curStream s).ring - 1 + jd.toNat) % ringLen (curStream s).ring, (cur s').dcc) :: t.joins }) := by
    rw [← htarget']
    rfl
  have hjmp : exec (.jmp off) s = checked s [(insideLoop (curStream s) dest, fEncoding)] (fun s => goTo s dest) := by
    rw [← htarget']
    rfl
  have hcall : exec (.call off) s = checked s [(decide ((cur s).calls.length < 8), fCallDepth), (insideLoop (curStream s) dest, fEncoding)]
      (fun s => goTo (modCur s (fun c => { c with calls := s.ctx.next :: c.calls })) dest) := by
    rw [← htarget']
    rfl
  have hcc : ∀ f : StreamSt → StreamSt, (cur (modCurStream s f)).cc = f (curStream s) := fun f => by
    rw [cur_modCurStream hpid, hst, curStream, hst]
    rfl
  have hcalls : ∀ f : StreamSt → StreamSt, (cur (modCurStream s f)).calls = (cur s).calls := fun f => by
    rw [cur_modCurStream hpid, modStream_calls]
  have hstack : ∀ (l : CoreState → List Nat) (d : Nat), (cur (goTo (modCur s fun c => { c with calls := l c }) d)).calls = l (cur s) ∧
      (cur (goTo (modCur s fun c => { c with calls := l c }) d)).cc = { curStream s with nextIdx := d } := fun l d => by
    rw [cur_goTo_calls hpid, hst, hcs]
    exact ⟨rfl, rfl⟩
  have hret : ∀ v r, (cur s).calls = v :: r → exec .ret s =
      checked s [(insideLoop (curStream s) v, fEncoding)] fun s => goTo (modCur s fun c => { c with calls := r }) v := fun v r hv => by
    change execRet s = _
    rw [execRet, hv]
  refine ⟨fun hin hj => ⟨_, hbr.trans (checked_ok s _ _ (by simpa [hin] using hj)), ?_, leavesRest_modCurStream hpid _⟩, fun hj h8 => ?_,
    fun hin => ⟨_, hjmp.trans (checked_ok s _ _ (by simpa using hin)), ?_, leavesRest_modCurStream hpid _⟩,
    fun hin h8 => ⟨_, hcall.trans (checked_ok s _ _ (by simp [hin, h8])), ?_, leavesRest_goTo_calls hpid _ _⟩, fun h8 => ?_,
    fun v r hv hin => ⟨_, (hret v r hv).trans (checked_ok s _ _ (by simpa using hin)), ?_, leavesRest_goTo_calls hpid _ _⟩,
    fun v q hv hout => ?_, fun hv => ?_, fun hout => ⟨?_, fun h8 => ?_, ?_⟩⟩
  · rw [hcc, hcalls]
    refine ⟨if_congr (taken_iff _ _ _) rfl rfl, rfl, rfl, rfl, rfl, ⟨rfl, rfl, rfl⟩, ?_⟩
    rw [← joinWord_eq]
  · have hno : (jd == 0 || decide ((curStream s).joins.length < 8)) = false := by
      rw [beq_false_of_ne hj, decide_eq_false (Nat.not_lt.2 h8)]
      rfl
    rw [hbr, hno]
    rfl
  · rw [goTo, hcc, hcalls]
    exact ⟨rfl, rfl, rfl, rfl, rfl, rfl⟩
  · rw [(hstack (fun c => s.ctx.next :: c.calls) _).1, (hstack (fun c => s.ctx.next :: c.calls) _).2]
    exact ⟨rfl, rfl, rfl, rfl, rfl, rfl⟩
  · rw [hcall, decide_eq_false (Nat.not_lt.2 h8)]
    rfl
  · rw [(hstack (fun _ => r) _).1, (hstack (fun _ => r) _).2]
    exact ⟨rfl, rfl, rfl, rfl, rfl, rfl⟩
  · rw [hret v q hv, hout]
    rfl
  · change execRet s = _
    rw [execRet, hv] <;> rfl
  · rw [hjmp, hout]
    rfl
  · rw [hcall, hout, decide_eq_true h8]
    rfl
  · rw [hbr, hout]
    cases (jd == 0 || decide ((curStream s).joins.length < 8)) <;> rfl

-- Stream control (R140 to R144) ------------------------------------------------------------------------------------------------------------------

/-- The conditions of LOOP (R142). -/
theorem loopCounts_iff (mx count : BitVec 32) (body : BitVec 14) (n : Nat) :
    (mx != 0 && decide (count.toNat ≤ mx.toNat) && body != 0 && decide (body.toNat ≤ n)) = true ↔
      0 < mx.toNat ∧ count.toNat ≤ mx.toNat ∧ 0 < body.toNat ∧ body.toNat ≤ n := by
  have hpos : ∀ {w : Nat} (x : BitVec w), (x != 0) = true ↔ 0 < x.toNat := fun x => by
    rw [bne_iff_ne, Ne, ← BitVec.toNat_inj, Nat.pos_iff_ne_zero]
    rfl
  rw [Bool.and_eq_true, Bool.and_eq_true, Bool.and_eq_true, hpos, hpos, decide_eq_true_eq, decide_eq_true_eq, and_assoc, and_assoc]

/-- Settles O20: each command's checks, and the change of its stream. -/
theorem streamControlCommands : Obligations.StreamControlCommands := by
  unfold Obligations.StreamControlCommands
  intro s id stg mk body count mx dj hpid
  dsimp only
  have hlend : ∀ l r, (curStream s).loops = l :: r → exec (.lend id) s = checked s [(l.id == id.toNat, fEncoding),
      (bodyPos (curStream s).ring l s.ctx.idx + commandLen (curStream s).ring s == l.body, fEncoding)] (fun s => modCurStream s (fun t =>
        if l.pass + 1 < l.max + l.stages - 1 then
          { t with nextIdx := l.first, loops := { l with pass := l.pass + 1, stage := 0 } :: r }
        else { t with loops := r })) := fun l r hl => by
    change execLend id s = _
    rw [execLend, hl]
  have hmark : ∀ l r, (curStream s).loops = l :: r → exec (.mark mk) s = checked s [(decide (mk.toNat < l.stages), fEncoding)]
      (fun s => modCurStream s (fun t => { t with loops := { l with stage := mk.toNat } :: r })) := fun l r hl => by
    change execMark mk s = _
    rw [execMark, hl]
  have hmark0 : (curStream s).loops = [] → exec (.mark mk) s = checked s [(mk == 0, fEncoding)] (fun s => s) := fun hl => by
    change execMark mk s = _
    rw [execMark, hl]
  have hjoin : ∀ w c r, (curStream s).joins = (w, c) :: r → exec (.join dj) s =
      checked s [(w == s.ctx.idx && (cur s).dcc == c + dj.toNat, fJoin)] (fun s => modCurStream s (fun t => { t with joins := r })) :=
    fun w c r hj => by
    change execJoin dj s = _
    rw [execJoin, hj]
  have hloop : exec (.loop id stg body count mx) s = checked s
    [(!(curStream s).loops.any (fun l => l.id == id.toNat), fEncoding),
     (mx != 0 && decide (count.toNat ≤ mx.toNat) && body != 0 && decide (body.toNat ≤ ringLen (curStream s).ring), fEncoding)]
    (fun s => modCurStream s (fun t => { t with loops :=
      ⟨id.toNat, count.toNat, mx.toNat, 0, stg.toNat + 1, 0, s.ctx.active, s.ctx.next, body.toNat⟩ :: t.loops })) := rfl
  have hend : exec .endStream s = checked s [((curStream s).loops.isEmpty, fEncoding)] (fun s => modCurStream s (fun t => { t with ended := true })) :=
    rfl
  refine ⟨rfl, fun ⟨hid, hcounts⟩ => ⟨_, hloop.trans (checked_ok s _ _ ?_), ?_, leavesRest_modCurStream hpid _⟩, fun hbad => ?_,
    fun l r hl hid hplace => ⟨_, (hlend l r hl).trans (checked_ok s _ _ (by simp [hid, hplace])), ?_, leavesRest_modCurStream hpid _⟩,
    fun h => ?_, fun l r hl hmk => ⟨_, (hmark l r hl).trans (checked_ok s _ _ (by simp [hmk])), ?_, leavesRest_modCurStream hpid _⟩,
    fun l r hl hmk => ?_, fun hl => ⟨fun hmk => ?_, fun hmk => ?_⟩,
    fun w c r hj hw hd => ⟨_, (hjoin w c r hj).trans (checked_ok s _ _ (by simp [hw, hd])), ?_, leavesRest_modCurStream hpid _⟩, fun h => ?_,
    fun hl => ⟨_, hend.trans (checked_ok s _ _ (by simp [hl])), ?_, leavesRest_modCurStream hpid _⟩, fun hl => ?_⟩
  · simp only [List.forall_mem_cons, List.not_mem_nil, false_implies, implies_true, and_true]
    exact ⟨by rw [hid]; rfl, (loopCounts_iff _ _ _ _).2 hcounts⟩
  · rw [curStream_modCurStream hpid]
    exact ⟨rfl, rfl, rfl⟩
  · rw [hloop]
    cases hid : (curStream s).loops.any fun l => l.id == id.toNat with
    | true => rfl
    | false =>
      rw [Bool.eq_false_iff.2 (mt (loopCounts_iff _ _ _ _).1 fun hcounts => hbad ⟨hid, hcounts⟩)]
      rfl
  · rw [curStream_modCurStream hpid]
    refine ⟨fun h => ?_, fun h => ?_⟩
    · rw [if_pos h]
      exact ⟨rfl, rfl⟩
    · rw [if_neg h]
      exact ⟨rfl, rfl⟩
  · obtain hl | ⟨l, r, hl, h⟩ := h
    · change execLend id s = _
      rw [execLend, hl] <;> rfl
    · rw [hlend l r hl]
      by_cases hid : l.id = id.toNat
      · rw [beq_false_of_ne (h.resolve_left (not_not_intro hid))]
        cases l.id == id.toNat <;> rfl
      · rw [beq_false_of_ne hid]
        rfl
  · rw [curStream_modCurStream hpid]
    exact ⟨rfl, rfl⟩
  · rw [hmark l r hl, decide_eq_false (Nat.not_lt.2 hmk)]
    rfl
  · rw [hmark0 hl, hmk]
    rfl
  · rw [hmark0 hl, beq_false_of_ne hmk]
    rfl
  · rw [curStream_modCurStream hpid]
    exact ⟨rfl, rfl, rfl⟩
  · cases hj : (curStream s).joins with
    | nil =>
      change execJoin dj s = _
      rw [execJoin, hj] <;> rfl
    | cons e r =>
      obtain ⟨w, c⟩ := e
      have hno : (w == s.ctx.idx && (cur s).dcc == c + dj.toNat) = false := by
        rw [Bool.and_eq_false_iff, beq_eq_false_iff_ne, beq_eq_false_iff_ne]
        exact h w c r hj
      rw [hjoin w c r hj, hno]
      rfl
  · rw [curStream_modCurStream hpid]
    exact ⟨rfl, rfl⟩
  · rw [hend, List.isEmpty_eq_false_iff.2 hl]
    rfl

end Sys2Proof.Proofs
end

