-- ==== Sys2Proof/Proofs/WaitsAndHolds.lean ====
section
/-! PROOF. Waits, holds, fences and traps (R180 to R186), with the rules of the hub's writes (R279) and of the parties' clocks (R286,
R287). -/

namespace Sys2Proof.Proofs

open Sys2Proof Sys2Proof.Machine Sys2Proof.Claims Sys2Proof.Laws

-- The hub's writes ---------------------------------------------------------------------------------------------------------------------------

theorem mirrorKeys_congr {s t : State} (h : t.pkgs = s.pkgs) (key : Nat) : mirrorKeys t key = mirrorKeys s key := by
  rw [mirrorKeys, mirrorKeys, getPkg, getPkg, h]

/-- A write of the hub changes memory alone. -/
theorem hubWrite_eq (s : State) (m : Memory) : hubWrite s m = { s with mem := (hubWrite s m).mem } := by
  unfold hubWrite
  split <;> rfl

/-- What it leaves in memory rests on memory and the packages. -/
theorem hubWrite_mem_congr {s t : State} (hpkgs : t.pkgs = s.pkgs) (hmem : t.mem = s.mem) (m : Memory) :
    (hubWrite t m).mem = (hubWrite s m).mem := by
  have hkeys : mirrorKeys t = mirrorKeys s := funext (mirrorKeys_congr hpkgs)
  unfold hubWrite
  rw [hpkgs, hmem, hkeys]
  split <;> rfl

-- Clocks (R286, R287) --------------------------------------------------------------------------------------------------------------------------

theorem clockOf_setClock (s : State) (p : Party) (v : List Nat) : clockOf (setClock s p v) p = v := by
  simp [clockOf, setClock]

theorem clockOf_setClock_ne (s : State) {p q : Party} (v : List Nat) (h : q ≠ p) : clockOf (setClock s p v) q = clockOf s q := by
  have hfind : ∀ l : List (Party × List Nat), (l.filter (fun x => decide (x.1 ≠ p))).find? (fun x => decide (x.1 = q)) =
      l.find? (fun x => decide (x.1 = q)) := by
    intro l
    rw [List.find?_filter]
    congr 1
    funext x
    by_cases hx : x.1 = q
    · simp [hx, h]
    · simp [hx]
  simp only [clockOf, setClock, List.find?_cons, hfind]
  rw [decide_eq_false (Ne.symm h)]

/-- An acquire changes the core's clock alone. -/
theorem acquire_rest (s : State) (k lc : Nat) : ∃ v, acquire s k lc = { s with clocks := v } := by
  unfold acquire
  dsimp only
  split
  · exact ⟨_, rfl⟩
  · exact ⟨_, rfl⟩

theorem clockOf_acquire (s : State) (k lc : Nat) : clockOf (acquire s k lc) (.core k) =
    ((s.counted.filter (fun y => decide (y.1 = k ∧ y.2.1 = lc))).map (fun y => y.2.2.clock)).foldl (fun v w => List.zipWith max v w)
      (clockOf s (.core k)) := by
  have hfilter : (s.counted.filter fun x => decide (x.1 = k) && decide (x.2.1 = lc)) =
      s.counted.filter fun y => decide (y.1 = k ∧ y.2.1 = lc) := by
    congr 1
    funext x
    rw [Bool.decide_and]
  rw [acquire, hfilter, List.foldl_map, List.foldl_map]
  generalize s.counted.filter (fun y => decide (y.1 = k ∧ y.2.1 = lc)) = l
  cases l with
  | nil => rfl
  | cons x r => exact clockOf_setClock s _ _

/-- A merge changes the party's clock and what it has observed alone. -/
theorem mergeSeen_rest (s : State) (p : Party) (t : Party → Bool) : ∃ v, mergeSeen s p t =
    { s with seen := s.seen.filter (fun x => !(decide (x.1 = p) && t x.2.party)), clocks := v } := by
  unfold mergeSeen
  dsimp only
  split
  · rename_i h
    refine ⟨s.clocks, ?_⟩
    have hnone : ∀ x ∈ s.seen, (decide (x.1 = p) && t x.2.party) = false := fun x hx =>
      Bool.eq_false_iff.2 (List.filter_eq_nil_iff.1 (List.isEmpty_iff.1 h) x hx)
    rw [List.filter_eq_self.2 fun x hx => by rw [hnone x hx]; rfl]
  · exact ⟨_, rfl⟩

theorem clockOf_mergeSeen (s : State) (p : Party) (t : Party → Bool) : clockOf (mergeSeen s p t) p =
    ((s.seen.filter (fun y => decide (y.1 = p) && t y.2.party)).map (fun y => y.2.clock)).foldl (fun v w => List.zipWith max v w)
      (clockOf s p) := by
  rw [mergeSeen, List.foldl_map]
  generalize s.seen.filter (fun y => decide (y.1 = p) && t y.2.party) = l
  cases l with
  | nil => rfl
  | cons x r => exact clockOf_setClock _ _ _

theorem clockOf_mergeSeen_ne (s : State) {p q : Party} (t : Party → Bool) (h : q ≠ p) : clockOf (mergeSeen s p t) q = clockOf s q := by
  rw [mergeSeen]
  generalize s.seen.filter (fun y => decide (y.1 = p) && t y.2.party) = l
  cases l with
  | nil => rfl
  | cons x r => exact clockOf_setClock_ne _ _ h

-- Holds (R105, R109) ---------------------------------------------------------------------------------------------------------------------------

/-- A hold that the executing command raises on its running domain. -/
theorem raiseHold_holds {s : State} {d : Domain} (code lc : Nat) (agent : Agent) (hd : domOf s s.ctx.core = some d) (hrun : d.status = .run) :
    ∃ e, domOf (raiseHold s code lc agent) s.ctx.core = some e ∧
      e.freeze = some (match d.freeze with | some f => min f (d.dcc + d.h) | none => d.dcc + d.h) ∧
      e.causes.any (fun c => c.code == code && c.core == s.ctx.core && c.lc == lc && !c.cleared) = true ∧ e.dcc = d.dcc ∧
      e.status = d.status ∧ (raiseHold s code lc agent).cores = s.cores ∧ (raiseHold s code lc agent).mem = s.mem := by
  refine ⟨_, findDom_raiseCause _ hd hrun, rfl, ?_, rfl, rfl, rfl, rfl⟩
  obtain ⟨x, hx, hs⟩ := List.any_eq_true.1 (any_addCause d.causes
    (c := ⟨code, s.ctx.core, s.ctx.unit, s.ctx.stream, s.ctx.hdr.evt.toNat, lc, agent, false⟩) rfl)
  refine List.any_eq_true.2 ⟨x, hx, ?_⟩
  simp only [sameCause, Bool.and_eq_true] at hs ⊢
  exact ⟨⟨hs.1.1.1, hs.1.2⟩, hs.2⟩

/-- The wait-log entry of a wait that holds nothing (R348, R349). -/
theorem waitLog_rest (s : State) (k part eff clk pid lc : Nat) (c : Cause) :
    ∃ m, waitLog s k part eff clk pid lc c = { s with mem := m } := by
  unfold waitLog
  split
  · exact ⟨_, rfl⟩
  · exact ⟨_, hubWrite_eq _ _⟩

/-- The parties of a scope (R287), seen from a core that runs a pour. -/
theorem inScope_iff {s : State} {k : Nat} {d : Domain} (hd : domOf s k = some d) (scope : Nat) (p : Party) : inScope s k scope p = true ↔
    (match p with
      | .core q => match scope with
        | 0 => q = k ∨ partnerOf d k = some q
        | 1 => q ∈ d.all
        | 2 => q / 1024 = k / 1024 ∧ q % 1024 < 640 ∧ k % 1024 < 640 ∧ q % 1024 / 160 = k % 1024 / 160
        | 3 => q / 1024 = k / 1024
        | _ => True
      | _ => 4 ≤ scope) := by
  unfold inScope
  cases p with
  | core q =>
    dsimp only
    split
    · simp [hd]
    · simp [hd]
    · simp only [Bool.and_eq_true, beq_iff_eq, decide_eq_true_eq, and_assoc]
      exact Iff.rfl
    · simp [pkgOf]
    · simp
  | _ => simp

/-- Settles O21: holds by the rule of the causes, acquires and fences by the rules of the clocks. -/
theorem waitsHoldsFencesAndTraps : Obligations.WaitsHoldsFencesAndTraps := by
  unfold Obligations.WaitsHoldsFencesAndTraps
  intro s dm lc n scope hdom hrun
  dsimp only
  refine ⟨fun ha hp => ?_, fun ha hp => ?_, fun ha hs => ?_, fun hs => ?_, rfl, fun p => ?_, fun hsc ha => ?_, fun hsc => ?_, fun ha => ?_,
    fun ha => ⟨?_, ?_, ?_, fun hsc => ?_⟩⟩
  · obtain ⟨e, he⟩ := raiseHold_holds 1 lc.toNat {} hdom hrun
    refine ⟨_, e, ?_, he⟩
    change execLcwait lc s = _
    simp only [execLcwait, ha, hp, if_true, Bool.true_eq_false, if_false]
  · have hexec : exec (.lcwait lc) s = .next (waitLog (acquire s s.ctx.core lc.toNat) s.ctx.core (partOfCore s s.ctx.core) (cur s).dcc 0
        (cur s).pid lc.toNat ⟨1, s.ctx.core, ccSt, .cc, s.ctx.hdr.evt.toNat, lc.toNat, (getLc (cur s) lc.toNat).agent, true⟩) := by
      change execLcwait lc s = _
      simp only [execLcwait, ha, hp, Bool.true_eq_false, if_false]
    have hpart : partOfCore s s.ctx.core = dm.part := by simp only [partOfCore, hdom]
    rw [hpart] at hexec
    obtain ⟨v, hv⟩ := acquire_rest s s.ctx.core lc.toNat
    obtain ⟨m, hm⟩ := waitLog_rest (acquire s s.ctx.core lc.toNat) s.ctx.core dm.part (cur s).dcc 0
        (cur s).pid lc.toNat ⟨1, s.ctx.core, ccSt, .cc, s.ctx.hdr.evt.toNat, lc.toNat, (getLc (cur s) lc.toNat).agent, true⟩
    have hring : ∀ {t : State}, t.pkgs = s.pkgs → ringBase t s.ctx.core dm.part true (dieOf s.ctx.core) =
        ringBase s s.ctx.core dm.part true (dieOf s.ctx.core) := fun h => by rw [ringBase, ringBase, getPart, getPart, getPkg, getPkg, h]
    refine ⟨_, hexec, by rw [hm, hv], by rw [hm, hv], ?_, fun hb => ?_, fun b hb => ?_⟩
    · rw [← clockOf_acquire, hm]
      rfl
    · rw [waitLog, hring (by rw [hv]), hb, hv]
    · have hpkg : getPkg (acquire s s.ctx.core lc.toNat) (pkgOf s.ctx.core) = getPkg s (pkgOf s.ctx.core) := by rw [getPkg, getPkg, hv]
      rw [waitLog, hring (by rw [hv]), hb, hpkg]
      dsimp only
      rw [hubWrite_mem_congr (s := s) (by rw [hv]) (by rw [hv]), hv]
      simp only [Stream.code, Nat.zero_mul, Nat.add_zero, Nat.zero_mod]
  · obtain ⟨e, he⟩ := raiseHold_holds 5 0 { kind := 6 } hdom hrun
    refine ⟨_, e, ?_, he⟩
    change execHalt s = _
    rw [execHalt, if_pos ⟨ha, hs⟩]
  · change execHalt s = _
    rw [execHalt, if_neg fun h => Bool.false_ne_true (hs.symm.trans h.2)]
  · exact inScope_iff hdom _ p
  · obtain ⟨v, hv⟩ := mergeSeen_rest s (.core s.ctx.core) (inScope s s.ctx.core scope.toNat)
    refine ⟨mergeSeen s (.core s.ctx.core) (inScope s s.ctx.core scope.toNat), ?_, clockOf_mergeSeen _ _ _,
      fun p hp => clockOf_mergeSeen_ne _ _ hp, by rw [hv], by rw [hv], by rw [hv], by rw [hv]⟩
    change execFence scope s = _
    rw [execFence, checked_ok _ _ _ (by simp [hsc]), if_pos ha]
  · change execFence scope s = _
    rw [execFence, decide_eq_false (Nat.not_le.2 hsc)]
    rfl
  · change execTrap n s = _
    rw [execTrap, if_pos ha]
    rfl
  · change execLcwait lc s = _
    rw [execLcwait, if_pos ha]
  · change execHalt s = _
    rw [execHalt, if_neg fun h => Bool.false_ne_true (ha.symm.trans h.1)]
  · change execTrap n s = _
    rw [execTrap, if_neg (by rw [ha]; exact Bool.false_ne_true)]
  · change execFence scope s = _
    rw [execFence, checked_ok _ _ _ (by simp [hsc]), if_neg (by rw [ha]; exact Bool.false_ne_true)]

end Sys2Proof.Proofs
end

