-- ==== Sys2Proof/Proofs/Agenda.lean ====
section
/-! PROOF. The agenda's acts (R93), that every meaning answers a next state, and the rule of stores in device memory (R170, R279, R294). -/

namespace Sys2Proof.Proofs

open Sys2Proof Sys2Proof.Machine Sys2Proof.Claims Sys2Proof.Laws

-- Every meaning answers a next state -----------------------------------------------------------------------------------------------------------

theorem answers_ite {p : Prop} [Decidable p] {a b : Out} (ha : Answers a) (hb : Answers b) : Answers (if p then a else b) := by
  split
  · exact ha
  · exact hb

theorem tileCommand_answers (s : State) (o : MmaOps) (own : List (Bool × Nat)) (n : Nat) (sel : CoreState → Nat → List Nat)
    (tag : BitVec 2) : Answers (tileCommand s o own n sel tag) := by
  rw [tileCommand]
  cases firstFault (popChecks (cur s) o.ty ++ own) with
  | some code => exact answers_next _
  | none => exact answers_ite (answers_next _) (answers_ite (answers_next _) (answers_next _))

theorem coreCycle_answers (s : State) (k : Nat) (f : State → Domain → State) : Answers (coreCycle s k f) := answers_next _

theorem execVmaxImm_answers (o : VImm) (rm : Rm) (s : State) : Answers (execVmaxImm o rm s) := answers_arithImm ..

theorem execVld_answers (o : VMem) (s : State) : Answers (execVld o s) := by
  unfold execVld
  exact answers_checked ..

theorem execVst_answers (o : VMem) (s : State) : Answers (execVst o s) := by
  unfold execVst
  exact answers_checked ..

theorem execVcst_answers (vd : VReg) (blk : Blk) (run : Run) (prd : Prd) (z : Bool) (ty : Ty) (qp : BitVec 2) (s : State) :
    Answers (execVcst vd blk run prd z ty qp s) := by
  unfold execVcst
  exact answers_checked ..

theorem execMlda_answers (tile : BitVec 4) (sr : SReg) (blk : Blk) (run : Run) (s : State) : Answers (execMlda tile sr blk run s) := by
  unfold execMlda
  exact answers_checked ..

theorem execMsta_answers (tile : BitVec 4) (sr : SReg) (blk : Blk) (run : Run) (s : State) : Answers (execMsta tile sr blk run s) := by
  unfold execMsta
  exact answers_checked ..

theorem execMma_answers (o : MmaOps) (s : State) : Answers (execMma o s) := tileCommand_answers ..

theorem execMmas_answers (o : MmaOps) (pm : BitVec 3) (keep4 : Bool) (s : State) : Answers (execMmas o pm keep4 s) := by
  unfold execMmas
  exact tileCommand_answers ..

theorem execVldOrb_answers (o : VMem) (y : BitVec 4) (s : State) : Answers (execVldOrb o y s) := by
  rw [execVldOrb]
  cases orbFault s o y [] with
  | some x => exact answers_next _
  | none => exact answers_next _

theorem execVstOrb_answers (o : VMem) (y : BitVec 4) (s : State) : Answers (execVstOrb o y s) := by
  rw [execVstOrb]
  cases orbFault s o y [(slotsFree s o y, fPermission)] with
  | some x => exact answers_next _
  | none =>
    dsimp only
    split
    · exact answers_next _
    · exact answers_next _

theorem execOcon_answers (row : VReg) (a b : BitVec 4) (t : Ty) (s : State) : Answers (execOcon row a b t s) := by
  rw [execOcon]
  cases oconFault s a b t with
  | some x => exact answers_next _
  | none => exact answers_next _

theorem withOconCell_answers (s : State) (a : Nat) (f : Nat → State → State) : Answers (withOconCell s a f) := by
  unfold withOconCell
  refine answers_ite ?_ (answers_next _)
  dsimp only
  split
  · exact answers_next _
  · exact answers_next _
  · exact answers_next _

theorem execOconp_answers (a b : BitVec 4) (sr : SReg) (t : Ty) (s : State) : Answers (execOconp a b sr t s) := by
  unfold execOconp
  refine answers_ite (answers_next _) ?_
  cases oconFault s a b t with
  | some x => exact answers_next _
  | none => exact answers_ite (withOconCell_answers ..) (answers_next _)

theorem execCommandFetch_answers (k : Nat) (st : Stream) (s : State) : Answers (execCommandFetch k st s) := by
  unfold execCommandFetch
  split
  · exact answers_next _
  · exact answers_next _

theorem execArmPoolArrival_answers (k : Nat) (s : State) : Answers (execArmPoolArrival k s) :=
  answers_ite (answers_next _) (answers_next _)

theorem execMpatLanding_answers (k : Nat) (s : State) : Answers (execMpatLanding k s) :=
  answers_ite (answers_next _) (answers_next _)

theorem answers_exec (i : Instr) (s : State) : Answers (exec i s) := by
  cases i with
  | add => exact answers_next _
  | sub => exact answers_next _
  | mul => exact answers_next _
  | mulh => exact answers_next _
  | mulhn => exact answers_next _
  | div => exact answers_next _
  | divn => exact answers_next _
  | rem => exact answers_next _
  | remn => exact answers_next _
  | and => exact answers_next _
  | or => exact answers_next _
  | xor => exact answers_next _
  | shl => exact answers_next _
  | shr => exact answers_next _
  | sar => exact answers_next _
  | sel => exact answers_next _
  | min => exact answers_next _
  | max => exact answers_next _
  | minn => exact answers_next _
  | maxn => exact answers_next _
  | seq => exact answers_next _
  | sne => exact answers_next _
  | slt => exact answers_next _
  | sltn => exact answers_next _
  | aadd => exact execAadd_answers ..
  | acas => exact execAcas_answers ..
  | aswp => exact execAswp_answers ..
  | patch => exact execPatch_answers ..
  | fqpush => exact answers_next _
  | addi => exact answers_next _
  | andi => exact answers_next _
  | ori => exact answers_next _
  | xori => exact answers_next _
  | shli => exact answers_next _
  | shri => exact answers_next _
  | sari => exact answers_next _
  | slti => exact answers_next _
  | lim => exact answers_next _
  | movi => exact answers_next _
  | lds => exact execLds_answers ..
  | sts => exact execSts_answers ..
  | ldm => exact execLdm_answers ..
  | stm => exact execStm_answers ..
  | br => exact execBr_answers ..
  | jmp => exact execJmp_answers ..
  | call => exact execCall_answers ..
  | ret => exact execRet_answers ..
  | sysrd => exact execSysrd_answers ..
  | syswr => exact execSyswr_answers ..
  | dccrd => exact answers_next _
  | lcset => exact answers_next _
  | lcrd => exact answers_next _
  | lcwait => exact execLcwait_answers ..
  | slack => exact answers_next _
  | arm => exact answers_next _
  | mpat => exact execMpat_answers ..
  | qprd => exact answers_next _
  | qpwr => exact answers_next _
  | fence => exact execFence_answers ..
  | watchAdd => exact answers_next _
  | watchClr => exact answers_next _
  | trap => exact answers_next _
  | halt => exact answers_next _
  | rload => exact execRload_answers ..
  | rsplit => exact execRsplit_answers ..
  | rmerge => exact execRmerge_answers ..
  | rinv => exact execRinv_answers ..
  | yload => exact execYload_answers ..
  | eret => exact answers_next _
  | hvcall => exact answers_next _
  | rres => exact answers_next _
  | rresClear => exact answers_next _
  | rret => exact answers_next _
  | nop => exact answers_next _
  | loop => exact execLoop_answers ..
  | lend => exact execLend_answers ..
  | join => exact execJoin_answers ..
  | endStream => exact execEndStream_answers ..
  | mark => exact execMark_answers ..
  | unassignedOpcode => exact answers_next _
  | cpld => exact execCpld_answers ..
  | cpldCb => exact execCpldCb_answers ..
  | cpst => exact execCpst_answers ..
  | cpmov => exact execCpmov_answers ..
  | cpset => exact execCpset_answers ..
  | cpgth => exact execCpgth_answers ..
  | cpsct => exact execCpsct_answers ..
  | cpdec => exact execCpdec_answers ..
  | cpfill => exact execCpfill_answers ..
  | cppat => exact execCppat_answers ..
  | cpcbk => exact execCpcbk_answers ..
  | cpvq => exact execCpvq_answers ..
  | cpexp => exact execCpexp_answers ..
  | cpfld => exact execCpfld_answers ..
  | cpcini => exact execCpcini_answers ..
  | cpatom => exact execCpatom_answers ..
  | cpcrd => exact execCpcrd_answers ..
  | cpput => exact execCpput_answers ..
  | cpget => exact execCpget_answers ..
  | cpxsnd => exact execCpxsnd_answers ..
  | cpxrcv => exact execCpxrcv_answers ..
  | cpxred => exact execCpxred_answers ..
  | vadd => exact execVadd_answers ..
  | vsub => exact execVsub_answers ..
  | vmul => exact execVmul_answers ..
  | vfma => exact execVfma_answers ..
  | vfms => exact execVfms_answers ..
  | vneg => exact execVneg_answers ..
  | vabs => exact execVabs_answers ..
  | vmin => exact execVmin_answers ..
  | vmax => exact execVmax_answers ..
  | vdiv => exact execVdiv_answers ..
  | vsqrt => exact execVsqrt_answers ..
  | vrcp => exact execVrcp_answers ..
  | vrsq => exact execVrsq_answers ..
  | vcvt => exact execVcvt_answers ..
  | vcmp => exact execVcmp_answers ..
  | vsel => exact answers_next _
  | vexp2 => exact execVexp2_answers ..
  | vlog2 => exact execVlog2_answers ..
  | vexp => exact execVexp_answers ..
  | vlog => exact execVlog_answers ..
  | vsinpi => exact execVsinpi_answers ..
  | vcospi => exact execVcospi_answers ..
  | vtanh => exact execVtanh_answers ..
  | vrand => exact execVrand_answers ..
  | vmov => exact execVmov_answers ..
  | vand => exact execVand_answers ..
  | vor => exact execVor_answers ..
  | vxor => exact execVxor_answers ..
  | vlog3 => exact execVlog3_answers ..
  | vshl => exact execVshl_answers ..
  | vshr => exact execVshr_answers ..
  | vsar => exact execVsar_answers ..
  | vfsh => exact execVfsh_answers ..
  | vpopc => exact execVpopc_answers ..
  | vclz => exact execVclz_answers ..
  | vclmulLo => exact execVclmulLo_answers ..
  | vclmulHi => exact execVclmulHi_answers ..
  | vperm => exact execVperm_answers ..
  | vbcst => exact execVbcst_answers ..
  | viota => exact execViota_answers ..
  | vredAdd => exact execVredAdd_answers ..
  | vredMin => exact execVredMin_answers ..
  | vredMax => exact execVredMax_answers ..
  | vscanInc => exact execVscanInc_answers ..
  | vscanExc => exact execVscanExc_answers ..
  | vstep => exact execVstep_answers ..
  | vcmpr => exact execVcmpr_answers ..
  | mand => exact answers_next _
  | mor => exact answers_next _
  | mxor => exact answers_next _
  | mnot => exact answers_next _
  | mpop => exact answers_next _
  | kmsk => exact answers_next _
  | vimm => exact execVimm_answers ..
  | kset => exact execKset_answers ..
  | vaddImm => exact execVaddImm_answers ..
  | vmulImm => exact execVmulImm_answers ..
  | vminImm => exact execVminImm_answers ..
  | vmaxImm => exact execVmaxImm_answers ..
  | vandImm => exact answers_bitsImm ..
  | vorImm => exact answers_bitsImm ..
  | vxorImm => exact answers_bitsImm ..
  | vshlImm => exact answers_bitsImm ..
  | vshrImm => exact answers_bitsImm ..
  | vsarImm => exact answers_bitsImm ..
  | vcmpImm => exact answers_checked ..
  | vld => exact execVld_answers ..
  | vldOrb => exact execVldOrb_answers ..
  | vst => exact execVst_answers ..
  | vstOrb => exact execVstOrb_answers ..
  | vcst vd blk run prd z => exact execVcst_answers (z := z) ..
  | mclm => exact answers_checked ..
  | mrel => exact answers_checked ..
  | mzero => exact answers_next _
  | mtrn => exact answers_next _
  | mma => exact execMma_answers ..
  | mmas => exact execMmas_answers ..
  | mlda => exact execMlda_answers ..
  | msta => exact execMsta_answers ..
  | ocon => exact execOcon_answers ..
  | oconp => exact execOconp_answers ..
  | commandFetch => exact execCommandFetch_answers ..
  | dccAdvance => exact answers_next _
  | resultLanding => exact answers_next _
  | fillLanding => exact answers_next _
  | memorySample => exact answers_next _
  | memoryWriteLanding => exact answers_next _
  | atomicApply => exact answers_next _
  | sumCellAdd => exact answers_next _
  | cellInitLanding => exact answers_next _
  | beatLanding => exact answers_next _
  | receiveWindowClose => exact answers_next _
  | armPoolArrival => exact execArmPoolArrival_answers ..
  | mpatLanding => exact execMpatLanding_answers ..
  | rangeChangeReach => exact answers_next _
  | holdEffect => exact answers_next _
  | holdRelease => exact answers_next _
  | holdBudgetExceeded => exact answers_next _
  | rateCreditRefill => exact answers_next _
  | beatCreditRefill => exact answers_next _
  | slackPoint => exact answers_next _
  | beaconInterval => exact answers_next _
  | beaconReceived => exact answers_next _
  | thermalSignal => exact answers_next _
  | thermalWithdraw => exact answers_next _
  | thermalTrip => exact answers_next _
  | debugStopRequest => exact answers_next _
  | debugRelease => exact answers_next _
  | traceSlot => exact answers_next _
  | schedulingRound => exact answers_next _
  | priorityAging => exact answers_next _
  | pourStart => exact answers_next _
  | pourEnd => exact answers_next _
  | schedulerStop => exact answers_next _
  | checkpointSave => exact answers_next _
  | pourKill => exact answers_next _
  | pourRestore => exact answers_next _
  | windowPutApply => exact answers_next _
  | windowPutAck => exact answers_next _
  | windowGetReturn => exact answers_next _
  | parkedTransferRetry => exact answers_next _
  | hostDmaDescriptor => exact answers_next _
  | hostDmaStart => exact answers_next _
  | hostDmaUnit => exact answers_next _
  | compactionMove => exact answers_next _
  | compactionRelease => exact answers_next _
  | flitCorrected => exact answers_next _
  | laneFailure => exact answers_next _
  | flitUncorrectable => exact answers_next _
  | linkTrained => exact answers_next _
  | channelSubstitution => exact answers_next _
  | partitionUpdate => exact answers_next _
  | build => exact answers_next _
  | armx => exact answers_next _
  | kill => exact answers_next _
  | ckpt => exact answers_next _
  | resume => exact answers_next _
  | restore => exact answers_next _
  | rings => exact answers_next _
  | window => exact answers_next _
  | policy => exact answers_next _
  | repair => exact answers_next _
  | tload => exact answers_next _
  | featCommit => exact answers_next _
  | managementRegisterWrite => exact answers_next _
  | boot => exact answers_next _
  | unlockToken => exact answers_next _
  | retire => exact answers_next _
  | spdmRequest => exact answers_next _
  | hypervisorUpdate => exact answers_next _
  | debugSessionAttach => exact answers_next _
  | lostBeaconPath => exact answers_next _
  | packageForcedDetach => exact answers_next _
  | linksTakenDown => exact answers_next _
  | lifecycleFuseAdvance => exact answers_next _
  | tenantKeyProvision => exact answers_next _

-- Stores in device memory ---------------------------------------------------------------------------------------------------------------------------

@[simp] theorem lastOr_nil {α : Type} (x : α) : lastOr x [] = x := rfl

@[simp] theorem lastOr_cons {α : Type} (x y : α) (l : List α) : lastOr x (y :: l) = lastOr y l := by
  rw [lastOr, lastOr, List.getLast?_cons, Option.getD_some]

/-- The byte that a masked write of `n` bytes at `b` puts at `a`. -/
def maskedByte (n en v b a : Nat) : Option Byte :=
  if b ≤ a ∧ a < b + n ∧ en / 2 ^ (a - b) % 2 = 1 then some (BitVec.ofNat 8 (v / 256 ^ (a - b))) else none

theorem read_writeMasked_eq {m : Memory} (hm : Memory.wf m = true) (n en v b a : Nat) :
    Memory.read (Memory.writeMasked m b en v n) a = (maskedByte n en v b a).getD (Memory.read m a) := by
  rw [maskedByte]
  split
  · rename_i h
    obtain ⟨hle, hlt, hen⟩ := h
    obtain ⟨i, rfl⟩ := Nat.exists_eq_add_of_le hle
    rw [Nat.add_sub_cancel_left] at hen ⊢
    rw [read_writeMasked n m b en v i hm (by omega) hen]
    rfl
  · rw [read_writeMasked_out n m b en v a (by omega)]
    rfl

/-- After masked writes at several keys, each byte is what the last of them put there, or as it was. -/
theorem read_foldl_writeMasked (n en v a : Nat) : ∀ (keys : List Nat) {m : Memory}, Memory.wf m = true →
    Memory.read (keys.foldl (fun m b => Memory.writeMasked m b en v n) m) a =
      lastOr (Memory.read m a) (keys.filterMap fun b => maskedByte n en v b a)
  | [], _, _ => rfl
  | b :: r, m, hm => by
    rw [List.foldl_cons, read_foldl_writeMasked n en v a r (wf_writeMasked n m b en v hm), read_writeMasked_eq hm, List.filterMap_cons]
    cases maskedByte n en v b a with
    | none => rfl
    | some x => exact (lastOr_cons _ _ _).symm

/-- A store in device memory, in every backing of its range (R279). -/
theorem read_memStore {s : State} (hs : Memory.wf s.mem = true) (key n en v a : Nat) (tag : Option Nat) :
    Memory.read (memStore s key n en v).mem a = lastOr (Memory.read s.mem a) (storedAt s (.memWrite key n en v tag) a) :=
  read_foldl_writeMasked n en v a (mirrorKeys s key) hs

-- The acts ---------------------------------------------------------------------------------------------------------------------------------------------

theorem systemStep_answers (k : Nat) (i : Instr) (s : State) : Answers (systemStep k i s) := by
  obtain ⟨t, ht⟩ := answers_exec i (sysEnter k s)
  rw [systemStep, ht]
  exact answers_next _

theorem mailStep_answers (k : Nat) (i : Instr) (s : State) : Answers (mailStep k i s) := by
  rw [mailStep]
  cases mailboxOf i with
  | none => exact answers_next _
  | some x =>
    refine answers_ite ?_ (answers_next _)
    obtain ⟨t, ht⟩ := answers_exec i { s with ctx := { core := k, sys := true } }
    rw [ht]
    exact answers_next _

theorem issueStep_answers (k : Nat) (st : Stream) (s : State) : Answers (issueStep k st s) := by
  cases hf : issueOf s k st with
  | none =>
    rw [issueStep, hf]
    exact answers_next _
  | some f =>
    rw [issueStep_due hf]
    obtain ⟨t, ht⟩ := answers_exec (issueInstr st f) (enterIssue s k st f)
    cases issueFault (enterIssue s k st f) f (decoded st f.words) with
    | some x => exact answers_next _
    | none =>
      rw [ht]
      exact answers_next _

theorem act_answers (a : Act) (s : State) : Answers (act a s) := by
  cases a with
  | ev i => exact answers_exec i s
  | issue k st => exact issueStep_answers k st s
  | elements k => exact answers_next _
  | sys k i => exact systemStep_answers k i s
  | mail k i => exact mailStep_answers k i s
  | sysAtoms k => exact answers_next _
  | hostAtom x => exact answers_next _
  | secure p => exact answers_next _

/-- A machine that no access has stopped answers a next state. -/
theorem step_answers {s : State} (h : s.dead = false) : ∃ t, step s = .next t := by
  cases hag : s.agenda with
  | nil =>
    refine ⟨tick s, ?_⟩
    rw [step, h, hag] <;> rfl
  | cons a r =>
    rw [step_act h hag]
    exact act_answers a _

-- A host function's atomic (R294) --------------------------------------------------------------------------------------------------------------------

theorem hostReaches_iff (s : State) (pkg fn a : Nat) : hostReaches s pkg fn a = true ↔ a < 2 ^ 39 ∧ a % 8 = 0 ∧
    (fn = 0 ∨ (fn ≤ 16 ∧ (getPart s pkg (fn - 1)).configured = true ∧ foreignAddr s pkg (fn - 1) a = false)) := by
  by_cases hfn : fn = 0
  · simp [hostReaches, hasBar, hfn]
  · simp [hostReaches, hasBar, hfn, and_assoc]

theorem atomTaken_iff (s : State) (key : Nat) : atomTaken s key = true ↔ ∃ y ∈ s.atomNow, y.1 ∈ mirrorKeys s key := by
  simp [atomTaken]

/-- No atomic of a core has sampled the word and not stored yet. -/
def NoStorePending (s : State) (key : Nat) : Prop :=
  ∀ q ∈ s.cores, ∀ g ∈ q.2.inflight, ∀ b ∈ mirrorKeys s key, ∀ v clock, ¬ (g.got = none ∧ g.eff = .atomStore b v clock)

/-- The word is then as memory holds it, and reading it changes what its reader has observed alone. -/
theorem atomWord_noPending {s : State} {key : Nat} (p : Party) (h : NoStorePending s key) :
    atomWord s p key = (toWord (Memory.readNat s.mem key 8), noteRead s p key 8) := by
  have hnone : (s.cores.filter fun x => x.2.inflight.any (storePending s key)) = [] := by
    refine List.filter_eq_nil_iff.2 fun q hq hany => ?_
    obtain ⟨g, hg, hp⟩ := List.any_eq_true.1 hany
    rw [storePending, Bool.and_eq_true, Option.isNone_iff_eq_none] at hp
    obtain ⟨hgot, hst⟩ := hp
    obtain ⟨b, hb, hw⟩ := List.any_eq_true.1 hst
    rw [storesWord] at hw
    split at hw
    · rename_i a v clock heff
      exact h q hq g hg b hb v clock ⟨hgot, by rw [heff, eq_of_beq hw]⟩
    · exact Bool.false_ne_true hw
  rw [atomWord, hnone]
  rfl

/-- An atomic without a timetable, on a word that none has sampled: the old word, and the store of the new one. -/
theorem untimedAtom_noPending {s : State} {key : Nat} (p : Party) (op : AtomOp) (h : NoStorePending s key) :
    (untimedAtom s p key op).1 = toWord (Memory.readNat s.mem key 8) ∧
    ∃ clocks atoms writers seen, (untimedAtom s p key op).2 = { memStore s key 8 255
      (atomNew op (toWord (Memory.readNat s.mem key 8))).toNat with clocks := clocks, atomNow := atoms, writers := writers, seen := seen } := by
  rw [untimedAtom, atomSample, atomWord_noPending p h]
  exact ⟨rfl, _, _, _, _, rfl⟩

theorem hostAtom_unreached {s : State} {x : HostAtomic} (hre : hostReaches s x.pkg x.fn x.addr = false) : hostAtom x s = s := if_pos hre

theorem hostAtom_waits {s : State} {x : HostAtomic} (hre : hostReaches s x.pkg x.fn x.addr = true)
    (htaken : atomTaken s (x.pkg * 2 ^ 39 + x.addr) = true) :
    hostAtom x s = { s with hostAtoms := s.hostAtoms ++ [{ x with clock := s.clock + 1 }] } := by
  rw [hostAtom, hre, htaken]
  rfl

theorem hostAtom_now {s : State} {x : HostAtomic} (hre : hostReaches s x.pkg x.fn x.addr = true)
    (hfree : atomTaken s (x.pkg * 2 ^ 39 + x.addr) = false) {a : Word × State}
    (ha : untimedAtom (mergeSeen s (.host x.pkg x.fn) fun _ => true) (.host x.pkg x.fn) (x.pkg * 2 ^ 39 + x.addr) x.op = a) :
    hostAtom x s = modPkg a.2 x.pkg fun p => { p with hostOld := Sparse.set 0 p.hostOld x.fn a.1 } := by
  rw [hostAtom, hre, hfree, ← ha]
  rfl

/-- The atomic of a host function whose word is free: it stores at once, and the function's slot has the old word. -/
theorem hostAtom_stores {s : State} {x : HostAtomic} (hre : hostReaches s x.pkg x.fn x.addr = true)
    (hfree : atomTaken s (x.pkg * 2 ^ 39 + x.addr) = false) (hmem : Memory.wf s.mem = true) (hpkgs : Sparse.wfFrom {} 0 s.pkgs = true)
    (hold : Sparse.wfFrom 0 0 (getPkg s x.pkg).hostOld = true) (hpend : NoStorePending s (x.pkg * 2 ^ 39 + x.addr)) :
    (∀ a, Memory.read (hostAtom x s).mem a = lastOr (Memory.read s.mem a) (storedAt s (.memWrite (x.pkg * 2 ^ 39 + x.addr) 8 255
      (atomNew x.op (toWord (Memory.readNat s.mem (x.pkg * 2 ^ 39 + x.addr) 8))).toNat none) a)) ∧
    Sparse.get 0 (getPkg (hostAtom x s) x.pkg).hostOld x.fn = toWord (Memory.readNat s.mem (x.pkg * 2 ^ 39 + x.addr) 8) ∧
    (hostAtom x s).cores = s.cores ∧ (hostAtom x s).domains = s.domains ∧ (hostAtom x s).agenda = s.agenda := by
  obtain ⟨v, hv⟩ := mergeSeen_rest s (.host x.pkg x.fn) fun _ => true
  have hpend' : NoStorePending (mergeSeen s (.host x.pkg x.fn) fun _ => true) (x.pkg * 2 ^ 39 + x.addr) := by
    rw [hv]
    exact hpend
  obtain ⟨hword, clocks, atoms, writers, seen, hstate⟩ := untimedAtom_noPending (.host x.pkg x.fn) x.op hpend'
  rw [hostAtom_now hre hfree rfl, hword, hstate, hv]
  refine ⟨fun a => read_memStore hmem _ 8 255 _ a none, ?_, rfl, rfl, rfl⟩
  exact (congrArg (fun p : Pkg => Sparse.get 0 p.hostOld x.fn) (getPkg_setPkg_wf _ _ _ (by exact hpkgs))).trans (get_set_wf _ _ _ hold)

/-- Settles O7: each act is its own definition; no meaning is refused. -/
theorem stepTakesTheAgendaInOrder : Obligations.StepTakesTheAgendaInOrder := by
  unfold Obligations.StepTakesTheAgendaInOrder
  refine ⟨fun s => ⟨fun h => by rw [step, if_pos h], step_answers, fun i => answers_exec i s⟩, fun s hdead => ?_⟩
  dsimp only
  refine ⟨fun hag => ⟨tick s, ?_, rfl, rfl, rfl, rfl⟩, fun i r hag => step_act hdead hag, fun k i r t hag ht => ?_,
    fun k pkg part i r hag hbox => ⟨fun t hpkg hsys ht => ?_, fun hno => ?_⟩, fun k r hag => step_act hdead hag,
    fun x r hag => ⟨fun hno => ?_, fun hre htaken => ?_, fun hre hfree htidy hpkgs hold hpend => ?_⟩⟩
  · rw [step, hdead, hag] <;> rfl
  · rw [step_act hdead hag]
    change systemStep k i _ = _
    rw [systemStep, ht]
  · rw [step_act hdead hag]
    change mailStep k i _ = _
    rw [mailStep, hbox]
    dsimp only
    rw [if_pos ⟨hpkg, List.contains_iff_mem.2 hsys⟩, ht]
  · rw [step_act hdead hag]
    change mailStep k i _ = _
    rw [mailStep, hbox]
    dsimp only
    rw [if_neg fun h => hno ⟨h.1, List.contains_iff_mem.1 h.2⟩]
  · rw [step_act hdead hag]
    exact congrArg _ (hostAtom_unreached (s := { s with agenda := r }) (Bool.eq_false_iff.2 (mt (hostReaches_iff _ _ _ _).1 hno)))
  · rw [step_act hdead hag]
    exact congrArg _ (hostAtom_waits (s := { s with agenda := r }) ((hostReaches_iff _ _ _ _).2 hre) ((atomTaken_iff _ _).2 htaken))
  · refine ⟨hostAtom x { s with agenda := r }, step_act hdead hag, ?_⟩
    obtain ⟨hread, hslot, hcores, hdomains, hagenda⟩ := hostAtom_stores (s := { s with agenda := r }) ((hostReaches_iff _ _ _ _).2 hre)
      (Bool.eq_false_iff.2 (mt (atomTaken_iff _ _).1 hfree)) (show Tidy s from ⟨htidy⟩).mem hpkgs hold hpend
    exact ⟨hread, hslot, hcores, hdomains, hagenda⟩

end Sys2Proof.Proofs
end

