-- ==== Sys2Proof/Proofs/Faults.lean ====
section
/-! PROOF. Taking a fault (R105, R107, R313, R317, R320): the stop records of the core and its pair partner, and the hold. -/

namespace Sys2Proof.Proofs

open Sys2Proof Sys2Proof.Machine Sys2Proof.Claims Sys2Proof.Laws

section
variable {s : State} {k : Nat} {d : Domain} (st : Stream) (station evt code cause : Nat) (detail : List Word) (prog : Nat) (w23 w24 : Word)

/-- The cores once the core and its pair partner have stopped (R313). -/
def stoppedCores (s : State) (k : Nat) (d : Domain) (st : Stream) (code cause : Nat) (detail : List Word) (prog : Nat) (w23 w24 : Word) :
    State :=
  let s1 := modCore s k (fun c => { c with stop := some (joinStop c (stoppedBefore c d) st code cause detail prog w23 w24) })
  let s2 := match partnerOf d k with
    | some q => modCore s1 q (fun c => { c with stop := some (joinStop c (stoppedBefore c d) st 0 0 [] 0 0 0) })
    | none => s1
  modCore s2 k (fun c => { c with repaired := accessOf st detail prog :: c.repaired })

/-- The faulting core after the fault. -/
def faultedCore (c : CoreState) (d : Domain) (st : Stream) (code cause : Nat) (detail : List Word) (prog : Nat) (w23 w24 : Word) : CoreState :=
  { c with stop := some (joinStop c (stoppedBefore c d) st code cause detail prog w23 w24)
           repaired := accessOf st detail prog :: c.repaired }

/-- Its pair partner after it. -/
def partnerCore (c : CoreState) (d : Domain) (st : Stream) : CoreState :=
  { c with stop := some (joinStop c (stoppedBefore c d) st 0 0 [] 0 0 0) }

theorem ne_blank_of_stop {c : CoreState} {x : Stop} (h : c.stop = some x) : c ≠ {} := by
  rintro rfl
  exact nomatch h

theorem stoppedCores_rest : ∃ cores, stoppedCores s k d st code cause detail prog w23 w24 = { s with cores := cores } := by
  unfold stoppedCores
  cases partnerOf d k with
  | none => exact ⟨_, rfl⟩
  | some q => exact ⟨_, rfl⟩

theorem getCore_stoppedCores (hk : partnerOf d k ≠ some k) : getCore (stoppedCores s k d st code cause detail prog w23 w24) k =
    faultedCore (getCore s k) d st code cause detail prog w23 w24 := by
  have h1 := getCore_modCore s k (fun c => { c with stop := some (joinStop c (stoppedBefore c d) st code cause detail prog w23 w24) })
    (ne_blank_of_stop rfl)
  have hlast : ∀ u : State, getCore u k = { getCore s k with
      stop := some (joinStop (getCore s k) (stoppedBefore (getCore s k) d) st code cause detail prog w23 w24) } →
      getCore (modCore u k fun c => { c with repaired := accessOf st detail prog :: c.repaired }) k =
        faultedCore (getCore s k) d st code cause detail prog w23 w24 := by
    intro u hu
    rw [getCore_modCore, hu]
    · rfl
    · rw [hu]
      exact ne_blank_of_stop rfl
  unfold stoppedCores
  cases hq : partnerOf d k with
  | none => exact hlast _ h1
  | some q =>
    have hne : k ≠ q := fun h => hk (h ▸ hq)
    exact hlast _ ((getCore_modCore_ne _ _ hne).trans h1)

theorem getCore_stoppedCores_partner {q : Nat} (hk : partnerOf d k ≠ some k) (hq : partnerOf d k = some q) :
    getCore (stoppedCores s k d st code cause detail prog w23 w24) q = partnerCore (getCore s q) d st := by
  have hne : q ≠ k := fun h => hk (h ▸ hq)
  unfold stoppedCores
  rw [hq]
  dsimp only
  rw [getCore_modCore_ne _ _ hne, getCore_modCore _ _ _ (ne_blank_of_stop rfl), getCore_modCore_ne _ _ hne]
  rfl

theorem getCore_stoppedCores_ne {q : Nat} (hne : q ≠ k) (hq : partnerOf d k ≠ some q) :
    getCore (stoppedCores s k d st code cause detail prog w23 w24) q = getCore s q := by
  unfold stoppedCores
  cases hp : partnerOf d k with
  | none =>
    dsimp only
    rw [getCore_modCore_ne _ _ hne, getCore_modCore_ne _ _ hne]
  | some p =>
    have hpq : q ≠ p := fun h => hq (h ▸ hp)
    dsimp only
    rw [getCore_modCore_ne _ _ hne, getCore_modCore_ne _ _ hpq, getCore_modCore_ne _ _ hne]

/-- A fault on a core of a domain: the cores stop, a first one raises a hold, and one that is not deferred dooms the pour. -/
theorem takeFaultFull_eq (hd : domOf s k = some d) : takeFaultFull s k st station evt code cause detail prog w23 w24 =
    let s2 := stoppedCores s k d st code cause detail prog w23 w24
    let s3 := if ((getCore s k).stop.map Stop.code).getD 0 ≠ 0 then s2 else raiseCause s2 d.pid ⟨6, k, station, st, evt, 0, {}, false⟩
    if isDeferred code && !(getCore s k).repaired.contains (accessOf st detail prog) then s3
    else modDom s3 d.pid (fun d => { d with doomed := true }) := by
  unfold takeFaultFull
  rw [hd]
  rfl

/-- Beyond the cores a fault changes the domains alone. -/
theorem takeFaultFull_rest (hd : domOf s k = some d) : ∃ domains, takeFaultFull s k st station evt code cause detail prog w23 w24 =
    { stoppedCores s k d st code cause detail prog w23 w24 with domains := domains } := by
  rw [takeFaultFull_eq st station evt code cause detail prog w23 w24 hd]
  dsimp only
  generalize stoppedCores s k d st code cause detail prog w23 w24 = u
  split <;> split <;> exact ⟨_, rfl⟩

/-- A first fault on a running domain: the hold that it raises, and what it does to the pour. -/
theorem findDom_takeFaultFull (hd : domOf s k = some d) (hrun : d.status = .run) (hstop : (getCore s k).stop = none) :
    findDom (takeFaultFull s k st station evt code cause detail prog w23 w24) d.pid = some { d with
      causes := addCause d.causes ⟨6, k, station, st, evt, 0, {}, false⟩
      freeze := some (match d.freeze with | some f => min f (d.dcc + d.h) | none => d.dcc + d.h)
      doomed := d.doomed || !(isDeferred code && !(getCore s k).repaired.contains (accessOf st detail prog)) } := by
  obtain ⟨cs, hcs⟩ := stoppedCores_rest (s := s) (k := k) (d := d) st code cause detail prog w23 w24
  have hpid : d.pid = (getCore s k).pid := findDom_pid hd
  have hfind : findDom (stoppedCores s k d st code cause detail prog w23 w24) d.pid = some d := by
    rw [hcs, hpid]
    exact hd
  have hraise := findDom_raiseCause ⟨6, k, station, st, evt, 0, {}, false⟩ hfind hrun
  rw [takeFaultFull_eq st station evt code cause detail prog w23 w24 hd, hstop]
  dsimp only [Option.map_none, Option.getD_none, ne_eq, not_true_eq_false, if_false]
  cases isDeferred code && !(getCore s k).repaired.contains (accessOf st detail prog) with
  | true =>
    simp only [if_true, not_true_eq_false, if_false, Bool.not_true, Bool.or_false]
    exact hraise
  | false =>
    simp only [Bool.false_eq_true, if_false, not_true_eq_false, Bool.not_false, Bool.or_true]
    rw [findDom_modDom _ _ (fun d : Domain => { d with doomed := true }) fun _ => rfl, hraise]
    rfl

theorem findDom_takeFaultFull_ne {p : Nat} (hd : domOf s k = some d) (hp : p ≠ d.pid) :
    findDom (takeFaultFull s k st station evt code cause detail prog w23 w24) p = findDom s p := by
  obtain ⟨cs, hcs⟩ := stoppedCores_rest (s := s) (k := k) (d := d) st code cause detail prog w23 w24
  have hraise : ∀ (u : State) (c : Cause), findDom (raiseCause u d.pid c) p = findDom u p := fun u c =>
    findDom_modDom_ne u _ (fun e => by split <;> rfl) hp
  have hdoom : ∀ u : State, findDom (modDom u d.pid fun d => { d with doomed := true }) p = findDom u p := fun u =>
    findDom_modDom_ne u (fun d : Domain => { d with doomed := true }) (fun _ => rfl) hp
  have hs2 : findDom (stoppedCores s k d st code cause detail prog w23 w24) p = findDom s p := by
    rw [hcs]
    rfl
  rw [takeFaultFull_eq st station evt code cause detail prog w23 w24 hd]
  have hs3 : ∀ (b : Prop) [Decidable b], findDom (if b then stoppedCores s k d st code cause detail prog w23 w24 else
      raiseCause (stoppedCores s k d st code cause detail prog w23 w24) d.pid ⟨6, k, station, st, evt, 0, {}, false⟩) p = findDom s p := by
    intro b _
    split
    · exact hs2
    · exact (hraise _ _).trans hs2
  dsimp only
  generalize (isDeferred code && !(getCore s k).repaired.contains (accessOf st detail prog)) = again
  cases again with
  | true => exact hs3 _
  | false => exact (hdoom _).trans (hs3 _)

end

-- The stop record (R313) -----------------------------------------------------------------------------------------------------------------------

theorem joinStop_first {c : CoreState} (h : c.stop = none) (later : Bool) (st : Stream) (code cause : Nat) (detail : List Word) (prog : Nat)
    (w23 w24 : Word) : joinStop c later st code cause detail prog w23 w24 =
      ⟨c.dcc, code, st, (List.replicate 4 0).set (Stream.code st) code, cause, detail, prog, w23, w24⟩ := by
  rw [joinStop, h]

theorem joinStop_later {c : CoreState} {p : Stop} (h : c.stop = some p) (st : Stream) (code cause : Nat) (detail : List Word) (prog : Nat)
    (w23 w24 : Word) : joinStop c true st code cause detail prog w23 w24 =
      if code ≠ 0 ∧ (p.code = 0 ∨ (isDeferred p.code = true ∧ isDeferred code = false)) then
        ⟨p.cycle, code, st, p.codes.set (Stream.code st) code, cause, detail, prog, w23, w24⟩ else p := by
  rw [joinStop, h] <;> rfl

theorem isDeferred_iff (code : Nat) : isDeferred code = true ↔ code = 0x07 ∨ code = 0x09 := by
  simp [isDeferred, fRangeMiss, fResidency]

/-- Settles O24: the stop records, and the domain of the fault. -/
theorem takingAFault : Obligations.TakingAFault := by
  unfold Obligations.TakingAFault
  intro s d code cause detail hd hrun hk hcode
  dsimp only
  have hfaults : faults s code cause detail = { takeFaultFull s s.ctx.core s.ctx.stream s.ctx.unit s.ctx.hdr.evt.toNat code cause detail 0 0 0
      with ctx := { s.ctx with faulted := true } } := by
    obtain ⟨ds, hds⟩ := takeFaultFull_rest s.ctx.stream s.ctx.unit s.ctx.hdr.evt.toNat code cause detail 0 0 0 hd
    obtain ⟨cs, hcs⟩ := stoppedCores_rest (s := s) (k := s.ctx.core) (d := d) s.ctx.stream code cause detail 0 0 0
    rw [faults, faultNow, takeFault, hds, hcs]
  obtain ⟨ds, hds⟩ := takeFaultFull_rest s.ctx.stream s.ctx.unit s.ctx.hdr.evt.toNat code cause detail 0 0 0 hd
  obtain ⟨cs, hcs⟩ := stoppedCores_rest (s := s) (k := s.ctx.core) (d := d) s.ctx.stream code cause detail 0 0 0
  have hcore : getCore (faults s code cause detail) s.ctx.core = faultedCore (cur s) d s.ctx.stream code cause detail 0 0 0 := by
    rw [hfaults, hds]
    exact getCore_stoppedCores s.ctx.stream code cause detail 0 0 0 hk
  have hother : ∀ {q}, getCore (faults s code cause detail) q = getCore (stoppedCores s s.ctx.core d s.ctx.stream code cause detail 0 0 0) q := by
    intro q
    rw [hfaults, hds]
    rfl
  have hdom : ∀ p, findDom (faults s code cause detail) p =
      findDom (takeFaultFull s s.ctx.core s.ctx.stream s.ctx.unit s.ctx.hdr.evt.toNat code cause detail 0 0 0) p := fun p => by
    rw [hfaults]
    rfl
  refine ⟨fun p hp hbefore hpc => ⟨_, congrArg CoreState.stop hcore, ?_⟩, fun hstop => ⟨?_, ?_, ?_, ⟨_, congrArg CoreState.stop hcore, ?_⟩, ?_⟩⟩
  · have hlater : stoppedBefore (cur s) d = true := by simp only [stoppedBefore, hp, decide_eq_true_eq, hbefore]
    rw [hlater, joinStop_later hp]
    by_cases hdef : (p.code = 0x07 ∨ p.code = 0x09) ∧ ¬ (code = 0x07 ∨ code = 0x09)
    · rw [if_pos ⟨hcode.ne', .inr ⟨(isDeferred_iff _).2 hdef.1, Bool.eq_false_iff.2 (mt (isDeferred_iff _).1 hdef.2)⟩⟩]
      exact ⟨rfl, fun _ => ⟨rfl, rfl, rfl⟩, fun h => absurd hdef h⟩
    · rw [if_neg]
      · exact ⟨rfl, fun h => absurd h hdef, fun _ => rfl⟩
      · rintro ⟨-, h | ⟨h1, h2⟩⟩
        · exact hpc.ne' h
        · exact hdef ⟨(isDeferred_iff _).1 h1, fun h => by rw [(isDeferred_iff _).2 h] at h2; exact Bool.noConfusion h2⟩
  · rw [hfaults]
  · rw [hfaults, hds, hcs]
  · rw [hfaults, hds, hcs]
  · rw [joinStop_first hstop]
    exact ⟨rfl, rfl, rfl, rfl, rfl⟩
  · rw [hcore]
    refine ⟨rfl, rfl, rfl, rfl, rfl, rfl, fun q hq => ?_, fun q hne hq => ?_, ?_, fun p hp => ?_⟩
    · rw [hother, getCore_stoppedCores_partner _ _ _ _ _ _ _ hk hq]
      exact ⟨_, rfl, fun h => by rw [joinStop_first h], rfl⟩
    · rw [hother, getCore_stoppedCores_ne _ _ _ _ _ _ _ hne hq]
    · refine ⟨_, (hdom _).trans (findDom_takeFaultFull _ _ _ _ _ _ _ _ _ hd hrun hstop), rfl, hrun, rfl, ?_, fun hdef => ?_, fun hdef hnew => ?_⟩
      · obtain ⟨x, hx, hs⟩ := List.any_eq_true.1 (any_addCause d.causes
          (c := ⟨6, s.ctx.core, s.ctx.unit, s.ctx.stream, s.ctx.hdr.evt.toNat, 0, {}, false⟩) rfl)
        refine List.any_eq_true.2 ⟨x, hx, ?_⟩
        simp only [sameCause, Bool.and_eq_true] at hs ⊢
        exact ⟨hs.1.1.1, hs.2⟩
      · rw [Bool.eq_false_iff.2 (mt (isDeferred_iff _).1 hdef)]
        exact Bool.or_true _
      · have hnew' : (getCore s s.ctx.core).repaired.contains (accessOf s.ctx.stream detail 0) = false := hnew
        dsimp only
        rw [(isDeferred_iff _).2 hdef, hnew']
        exact Bool.or_false _
    · exact (hdom p).trans (findDom_takeFaultFull_ne _ _ _ _ _ _ _ _ _ hd hp)

end Sys2Proof.Proofs
end

