-- ==== Sys2Proof/Proofs/CopyMoves.lean ====
section
/-! PROOF. The copy engine's moves, gathers and scatters at their issue (R193 to R201): what their checks decide, and the command in
progress that they become. -/

namespace Sys2Proof.Proofs

open Sys2Proof Sys2Proof.Machine Sys2Proof.Claims Sys2Proof.Laws

-- Runs of scratchpad (R193, R215) ----------------------------------------------------------------------------------------------------------

theorem startJob_eq_begins (s : State) (kind : JobKind) (station run last : Nat) (lc : Option Nat) :
    startJob s kind station run last lc = begins s (progress s kind station run last lc) := rfl

theorem spadRunOk_iff_inRun (x n : Nat) : spadRunOk x n = true ↔ inRun x n := by
  simp only [spadRunOk, inRun, Bool.and_eq_true, Bool.or_eq_true, decide_eq_true_eq]

/-- A run of at least one byte lies in a block. -/
theorem inRun_iff_inBlock {x n : Nat} (hn : 0 < n) : inRun x n ↔ inBlock x (x + n) := by
  have hcast : ((x : Int) + n - 1) = ((x + n - 1 : Nat) : Int) := by omega
  rw [inRun, inBlock, hcast]
  constructor
  · rintro ⟨hx, h | h⟩
    · omega
    · exact ⟨by omega, by omega, by exact_mod_cast h⟩
  · rintro ⟨-, hx, h⟩
    exact ⟨by omega, .inr (by exact_mod_cast h)⟩

/-- The same of a run between signed ends. -/
theorem spadRunOk_toNat_iff {lo hi : Int} (h : lo < hi) :
    (decide (0 ≤ lo) && spadRunOk lo.toNat (hi - lo).toNat) = true ↔ inBlock lo hi := by
  rw [Bool.and_eq_true, decide_eq_true_eq, spadRunOk_iff_inRun, inRun_iff_inBlock (by omega)]
  constructor
  · rintro ⟨h0, h⟩
    rwa [Int.toNat_of_nonneg h0, Int.toNat_of_nonneg (by omega), add_sub_cancel] at h
  · intro hb
    have h0 : 0 ≤ lo := hb.1
    rw [Int.toNat_of_nonneg h0, Int.toNat_of_nonneg (by omega), add_sub_cancel]
    exact ⟨h0, hb⟩

theorem runOk_iff (x n align : Nat) : runOk x n align = true ↔ x % align = 0 ∧ inRun x n := by
  rw [runOk, Bool.and_eq_true, beq_iff_eq, spadRunOk_iff_inRun]

theorem notOpen_iff (s : State) (x n : Nat) : (!inOpenWindow (cur s) x n (cur s).dcc) = true ↔ ¬ shut s x n := by
  rw [Bool.not_eq_true', ← inOpenWindow_iff_shut, Bool.not_eq_true]

theorem destOk_iff (s : State) (x n align : Nat) : destOk s x n align = true ↔ x % align = 0 ∧ inRun x n ∧ ¬ shut s x n := by
  rw [destOk, Bool.and_eq_true, runOk_iff, notOpen_iff, and_assoc]

-- Strided moves (R195, R196) ---------------------------------------------------------------------------------------------------------------------

theorem asSigned_toNat (x : Word) : asSigned 64 x.toNat = x.toInt := by
  rw [asSigned, BitVec.toInt_eq_toNat_cond]
  split <;> split <;> omega

theorem rdInt_eq (s : State) (r : SReg) (i : Nat) : rdInt s r i = (sget (cur s) (r + BitVec.ofNat 6 i)).toInt := asSigned_toNat _

/-- The shape of s[SC] (R195). -/
theorem moveShape_eq (s : State) (o : MoveOps) : moveShape s o =
    { src := (rd s o.sa).toNat, dst := (rd s o.sb).toNat, len := (sget (cur s) (o.sc + BitVec.ofNat 6 0)).toNat
      n1 := if 2 ≤ o.dim.toNat then (sget (cur s) (o.sc + BitVec.ofNat 6 1)).toNat else 1
      ss1 := if 2 ≤ o.dim.toNat then (sget (cur s) (o.sc + BitVec.ofNat 6 2)).toInt else 0
      ds1 := if 2 ≤ o.dim.toNat then (sget (cur s) (o.sc + BitVec.ofNat 6 3)).toInt else 0
      n2 := if 3 ≤ o.dim.toNat then (sget (cur s) (o.sc + BitVec.ofNat 6 4)).toNat else 1
      ss2 := if 3 ≤ o.dim.toNat then (sget (cur s) (o.sc + BitVec.ofNat 6 5)).toInt else 0
      ds2 := if 3 ≤ o.dim.toNat then (sget (cur s) (o.sc + BitVec.ofNat 6 6)).toInt else 0 } := by
  simp only [moveShape, rdInt_eq, decide_eq_true_eq]
  rfl

/-- The limits of a strided move's length, counts and destination strides, and of its source strides (R195). -/
def MoveSizes (m : MoveShape) : Prop :=
  m.len % 64 = 0 ∧ 64 ≤ m.len ∧ m.len ≤ 2 ^ 24 ∧ 1 ≤ m.n1 ∧ m.n1 ≤ 2 ^ 24 ∧ 1 ≤ m.n2 ∧ m.n2 ≤ 2 ^ 24 ∧ m.len / 64 * m.n1 * m.n2 ≤ 2 ^ 24 ∧
    m.ds1 % 64 = 0 ∧ m.ds2 % 64 = 0

theorem limits_false_iff (m : MoveShape) : m.limits false = true ↔ MoveSizes m := by
  simp only [MoveShape.limits, Bool.and_eq_true, beq_iff_eq, decide_eq_true_eq, Bool.not_false, Bool.true_or, and_true, and_assoc]
  exact Iff.rfl

theorem limits_true_iff (m : MoveShape) : m.limits true = true ↔ MoveSizes m ∧ m.ss1 % 64 = 0 ∧ m.ss2 % 64 = 0 := by
  rw [← limits_false_iff]
  simp only [MoveShape.limits, Bool.and_eq_true, beq_iff_eq, Bool.not_false, Bool.not_true, Bool.true_or, Bool.false_or, and_true]

/-- The span of a strided operand lies in one block, from a granule's boundary on (R193; logs 27, 66). -/
def StridedRun (m : MoveShape) (base : Nat) (s1 s2 : Int) : Prop := base % 64 = 0 ∧
  inBlock (base + min 0 (((m.n1 : Int) - 1) * s1) + min 0 (((m.n2 : Int) - 1) * s2))
    (base + max 0 (((m.n1 : Int) - 1) * s1) + max 0 (((m.n2 : Int) - 1) * s2) + m.len)

theorem stridedOk_iff {m : MoveShape} (h : MoveSizes m) (base : Nat) (s1 s2 : Int) : stridedOk m base s1 s2 = true ↔ StridedRun m base s1 s2 := by
  obtain ⟨-, hlen, -, hn1, -, hn2, -, -, -, -⟩ := h
  have h1 : ((m.n1 - 1 : Nat) : Int) = (m.n1 : Int) - 1 := by omega
  have h2 : ((m.n2 - 1 : Nat) : Int) = (m.n2 : Int) - 1 := by omega
  have hlt : (base : Int) + min 0 (((m.n1 : Int) - 1) * s1) + min 0 (((m.n2 : Int) - 1) * s2) <
      base + max 0 (((m.n1 : Int) - 1) * s1) + max 0 (((m.n2 : Int) - 1) * s2) + m.len := by omega
  rw [StridedRun, ← spadRunOk_toNat_iff hlt, stridedOk, stridedRun, h1, h2]
  simp only [Bool.and_eq_true, beq_iff_eq]
  tauto

/-- A multiple between the ends of a range. -/
theorem mul_mem_range {b n : Nat} (hb : b < n) (s : Int) :
    min 0 (((n : Int) - 1) * s) ≤ b * s ∧ (b : Int) * s ≤ max 0 (((n : Int) - 1) * s) := by
  have hb' : (b : Int) ≤ (n : Int) - 1 := by omega
  obtain hs | hs := le_total 0 s
  · have h1 := mul_le_mul_of_nonneg_right hb' hs
    have h2 : 0 ≤ (b : Int) * s := by positivity
    omega
  · have h1 := mul_le_mul_of_nonpos_right hb' hs
    have h2 : (b : Int) * s ≤ 0 := mul_nonpos_of_nonneg_of_nonpos (by positivity) hs
    omega

/-- Within its span a granule's address is as it is given. -/
theorem dstAt_eq {m : MoveShape} (hrun : StridedRun m m.dst m.ds1 m.ds2) {a b c : Nat} (ha : a < m.len / 64) (hb : b < m.n1) (hc : c < m.n2) :
    m.dstAt (a + m.len / 64 * (b + m.n1 * c)) = ((m.dst : Int) + 64 * a + b * m.ds1 + c * m.ds2).toNat := by
  obtain ⟨-, h0, hlo, hhi⟩ := hrun
  obtain ⟨hb1, hb2⟩ := mul_mem_range hb m.ds1
  obtain ⟨hc1, hc2⟩ := mul_mem_range hc m.ds2
  have hper : 0 < m.len / 64 := by omega
  have hmod : (a + m.len / 64 * (b + m.n1 * c)) % (m.len / 64) = a := by rw [Nat.add_mul_mod_self_left, Nat.mod_eq_of_lt ha]
  have hdiv : (a + m.len / 64 * (b + m.n1 * c)) / (m.len / 64) = b + m.n1 * c := by
    rw [Nat.add_mul_div_left _ _ hper, Nat.div_eq_of_lt ha, Nat.zero_add]
  have hdiv' : (b + m.n1 * c) / m.n1 = c := by rw [Nat.add_mul_div_left _ _ (by omega), Nat.div_eq_of_lt hb, Nat.zero_add]
  rw [MoveShape.dstAt, granuleAt, hmod, hdiv, hdiv', Nat.add_mul_mod_self_left, Nat.mod_eq_of_lt hb, Int.emod_eq_of_lt]
  · push_cast
    rfl
  · push_cast
    omega
  · push_cast
    omega

/-- Every granule's number is that of a granule, a row and a plane. -/
theorem granule_split {m : MoveShape} (hn1 : 1 ≤ m.n1) {j : Nat} (hj : j < m.count) : ∃ a b c, a < m.len / 64 ∧ b < m.n1 ∧ c < m.n2 ∧
    j = a + m.len / 64 * (b + m.n1 * c) := by
  rw [MoveShape.count] at hj
  have hper : 0 < m.len / 64 := by
    by_contra h
    rw [show m.len / 64 = 0 by omega, Nat.zero_mul, Nat.zero_mul] at hj
    exact absurd hj (Nat.not_lt_zero j)
  refine ⟨j % (m.len / 64), j / (m.len / 64) % m.n1, j / (m.len / 64) / m.n1, Nat.mod_lt _ hper, Nat.mod_lt _ hn1, ?_, ?_⟩
  · rw [Nat.div_div_eq_div_mul]
    exact Nat.div_lt_of_lt_mul hj
  · rw [Nat.mod_add_div, Nat.mod_add_div]

/-- The granules of a destination meet no open receive window (R215). -/
def GranulesFree (s : State) (m : MoveShape) : Prop := ∀ a b c, a < m.len / 64 → b < m.n1 → c < m.n2 →
  ¬ shut s ((m.dst : Int) + 64 * a + b * m.ds1 + c * m.ds2).toNat 64

theorem granulesFree_iff {s : State} {m : MoveShape} (hn1 : 1 ≤ m.n1) (hrun : StridedRun m m.dst m.ds1 m.ds2) :
    granulesFree s m = true ↔ GranulesFree s m := by
  have hall : granulesFree s m = true ↔ ∀ j, j < m.count → ¬ shut s (m.dstAt j) 64 := by
    rw [granulesFree]
    simp only [Bool.or_eq_true, List.all_eq_true, List.mem_range, notOpen_iff]
    refine ⟨fun h j hj => ?_, .inr⟩
    obtain h | h := h
    · rintro ⟨w, hw, -⟩
      rw [List.isEmpty_iff.1 h] at hw
      exact absurd hw List.not_mem_nil
    · exact h j hj
  rw [hall, GranulesFree]
  constructor
  · intro h a b c ha hb hc
    rw [← dstAt_eq hrun ha hb hc]
    refine h _ ?_
    have h1 : b + m.n1 * c < m.n1 * m.n2 := by nlinarith
    rw [MoveShape.count]
    nlinarith
  · intro h j hj
    obtain ⟨a, b, c, ha, hb, hc, rfl⟩ := granule_split hn1 hj
    rw [dstAt_eq hrun ha hb hc]
    exact h a b c ha hb hc

theorem dstSpad_iff {s : State} {m : MoveShape} (h : MoveSizes m) : dstSpad s m = true ↔ StridedRun m m.dst m.ds1 m.ds2 ∧ GranulesFree s m := by
  rw [dstSpad, Bool.and_eq_true, stridedOk_iff h]
  exact and_congr_right fun hrun => granulesFree_iff h.2.2.2.1 hrun

-- Cast streams (R197) ----------------------------------------------------------------------------------------------------------------------------------

theorem castLimits_iff (E B : Nat) : castLimits E B = true ↔ E % 256 = 0 ∧ B % 64 = 0 ∧ B ≤ 264 * E / 256 := by
  simp only [castLimits, Bool.and_eq_true, beq_iff_eq, decide_eq_true_eq, and_assoc]

theorem castLast_eq (E : Nat) : castLast true E = 1330 + 5 * (E / 256) ∧ castLast false E = 62 + 5 * (E / 256) := by
  simp only [castLast, castBase, if_true, Bool.false_eq_true, if_false]
  omega

/-- A check of two conditions, the first of a granule's alignment. -/
theorem and_aligned_iff (x n : Nat) {b : Bool} {p : Prop} (h : b = true ↔ p) : (x % n == 0 && b) = true ↔ x % n = 0 ∧ p := by
  rw [Bool.and_eq_true, beq_iff_eq, h]

section
variable (s : State) (o : MoveOps)

theorem cpld_issuesTo : issuesTo s (.cpld o)
    [(MoveSizes (moveShape s o) ∧ (moveShape s o).ss1 % 64 = 0 ∧ (moveShape s o).ss2 % 64 = 0, 0x01),
     ((moveShape s o).src % 64 = 0 ∧ StridedRun (moveShape s o) (moveShape s o).dst (moveShape s o).ds1 (moveShape s o).ds2 ∧
       GranulesFree s (moveShape s o), 0x08)]
    (requestOutcome s (moveShape s o).src 64 64 3 [1])
    (begins s (progress s (.cpld (moveShape s o)) cpiSt o.run.toNat ((moveShape s o).count + 1290) (o.lc.map BitVec.toNat))) := by
  refine issuesTo_of_cpIssue (show execCpld o s = _ by unfold execCpld; exact rfl) ?_ (Asks.fail_single _ s _) fun _ _ => rfl
  exact decideInOrder_cons (limits_true_iff _) fun h => decideInOrder_cons (and_aligned_iff _ _ (dstSpad_iff h.1)) fun _ => decideInOrder_nil

theorem cpst_issuesTo : issuesTo s (.cpst o)
    [(MoveSizes (moveShape s o) ∧ (moveShape s o).ss1 % 64 = 0 ∧ (moveShape s o).ss2 % 64 = 0, 0x01),
     ((moveShape s o).dst % 64 = 0 ∧ StridedRun (moveShape s o) (moveShape s o).src (moveShape s o).ss1 (moveShape s o).ss2, 0x08)]
    (requestOutcome s (moveShape s o).dst 64 64 4 [2])
    (begins s (progress s (.cpst (moveShape s o)) cpoSt o.run.toNat ((moveShape s o).count + 1290) (o.lc.map BitVec.toNat))) := by
  refine issuesTo_of_cpIssue (show execCpst o s = _ by unfold execCpst; exact rfl) ?_ (Asks.fail_single _ s _) fun _ _ => rfl
  exact decideInOrder_cons (limits_true_iff _) fun h =>
    decideInOrder_cons (and_aligned_iff _ _ (stridedOk_iff h.1 _ _ _)) fun _ => decideInOrder_nil

theorem cpmov_issuesTo : issuesTo s (.cpmov o)
    [(MoveSizes (moveShape s o) ∧ (moveShape s o).ss1 % 64 = 0 ∧ (moveShape s o).ss2 % 64 = 0, 0x01),
     (StridedRun (moveShape s o) (moveShape s o).src (moveShape s o).ss1 (moveShape s o).ss2 ∧
       StridedRun (moveShape s o) (moveShape s o).dst (moveShape s o).ds1 (moveShape s o).ds2 ∧ GranulesFree s (moveShape s o), 0x08)]
    none (begins s (progress s (.cpmov (moveShape s o)) cpoSt o.run.toNat ((moveShape s o).count + 30) (o.lc.map BitVec.toNat))) := by
  refine issuesTo_of_cpIssue (show execCpmov o s = _ by unfold execCpmov; exact rfl) ?_ rfl fun _ _ => rfl
  exact decideInOrder_cons (limits_true_iff _) fun h => decideInOrder_cons
    (Bool.and_eq_true_iff.trans (and_congr (stridedOk_iff h.1 _ _ _) (dstSpad_iff h.1))) fun _ => decideInOrder_nil

theorem cpset_spad_issuesTo : issuesTo s (.cpset o false)
    [(MoveSizes (moveShape s o), 0x01),
     (StridedRun (moveShape s o) (moveShape s o).dst (moveShape s o).ds1 (moveShape s o).ds2 ∧ GranulesFree s (moveShape s o), 0x08)]
    none (begins s (progress s (.cpset (moveShape s o) (rd s o.sa) false) cpoSt o.run.toNat ((moveShape s o).count + 1290)
      (o.lc.map BitVec.toNat))) := by
  refine issuesTo_of_cpIssue (show execCpset o false s = _ by unfold execCpset; exact rfl) ?_ rfl fun _ _ => rfl
  exact decideInOrder_cons (limits_false_iff _) fun h => decideInOrder_cons (dstSpad_iff h) fun _ => decideInOrder_nil

theorem cpset_mem_issuesTo : issuesTo s (.cpset o true)
    [(MoveSizes (moveShape s o), 0x01), ((moveShape s o).dst % 64 = 0, 0x08)]
    (requestOutcome s (moveShape s o).dst 64 64 4 [2])
    (begins s (progress s (.cpset (moveShape s o) (rd s o.sa) true) cpoSt o.run.toNat ((moveShape s o).count + 1290)
      (o.lc.map BitVec.toNat))) := by
  refine issuesTo_of_cpIssue (show execCpset o true s = _ by unfold execCpset; exact rfl) ?_ (Asks.fail_single _ s _) fun _ _ => rfl
  exact decideInOrder_cons (limits_false_iff _) fun _ => decideInOrder_cons beq_iff_eq fun _ => decideInOrder_nil

/-- The conditions of a cast stream's lengths, and of its destination (R193, R197). -/
def CastSizes (E B : Nat) : Prop := E % 256 = 0 ∧ B % 64 = 0 ∧ B ≤ 264 * E / 256
def WholeRun (s : State) (x n : Nat) : Prop := x % 64 = 0 ∧ inRun x n ∧ ¬ shut s x n

theorem cpldCb_issuesTo : issuesTo s (.cpldCb o)
    [(CastSizes (rdG s o.sc 0) (rdG s o.sc 1), 0x01), ((rd s o.sa).toNat % 64 = 0 ∧ WholeRun s (rd s o.sb).toNat (rdG s o.sc 0), 0x08)]
    (if rdG s o.sc 1 = 0 then none else requestOutcome s (rd s o.sa).toNat 64 64 3 [1, 4])
    (begins s (progress s (.cast (rd s o.sa).toNat (rd s o.sb).toNat (rdG s o.sc 0) (rdG s o.sc 1) true) cpiSt o.run.toNat
      (1330 + 5 * (rdG s o.sc 0 / 256)) (o.lc.map BitVec.toNat))) := by
  refine issuesTo_of_cpIssue (show execCpldCb o s = _ by unfold execCpldCb; exact rfl) ?_ ?_ fun _ _ => ?_
  · exact decideInOrder_cons (castLimits_iff _ _) fun _ => decideInOrder_cons (and_aligned_iff _ _ (destOk_iff s _ _ 64)) fun _ =>
      decideInOrder_nil
  · dsimp only
    split
    · rfl
    · exact Asks.fail_single _ s _
  · rw [(castLast_eq _).1]
    rfl

theorem cpdec_issuesTo (sa sb sc : SReg) (run : Run) : issuesTo s (.cpdec sa sb sc run)
    [(CastSizes (rdG s sc 0) (rdG s sc 1), 0x01),
     ((rd s sa).toNat % 64 = 0 ∧ inRun (rd s sa).toNat (rdG s sc 1) ∧ WholeRun s (rd s sb).toNat (rdG s sc 0), 0x08)]
    none (begins s (progress s (.cast (rd s sa).toNat (rd s sb).toNat (rdG s sc 0) (rdG s sc 1) false) cpoSt run.toNat
      (62 + 5 * (rdG s sc 0 / 256)) none)) := by
  refine issuesTo_of_cpIssue (show execCpdec sa sb sc run s = _ by unfold execCpdec; exact rfl) ?_ rfl fun _ _ => ?_
  · refine decideInOrder_cons (castLimits_iff _ _) fun _ => decideInOrder_cons ?_ fun _ => decideInOrder_nil
    rw [Bool.and_eq_true, runOk_iff, destOk_iff, and_assoc]
    exact Iff.rfl
  · rw [(castLast_eq _).2]
    rfl

end

theorem add_zero_reg (r : SReg) : r + BitVec.ofNat 6 0 = r := BitVec.add_zero r

/-- Settles O25: the seven commands, each by its checks and its one request. -/
theorem copyMovesStart : Obligations.CopyMovesStart := by
  unfold Obligations.CopyMovesStart
  intro s o sa sb sc run
  have hcpld := cpld_issuesTo s o
  have hcpst := cpst_issuesTo s o
  have hcpmov := cpmov_issuesTo s o
  have hcpset := cpset_spad_issuesTo s o
  have hcpsetMem := cpset_mem_issuesTo s o
  have hcpdec := cpdec_issuesTo s sa sb sc run
  rw [moveShape_eq] at hcpld hcpst hcpmov hcpset hcpsetMem
  rw [rdG, rdG, add_zero_reg] at hcpdec
  exact ⟨hcpld, hcpst, hcpmov, hcpset, hcpsetMem, cpldCb_issuesTo s o, hcpdec⟩

end Sys2Proof.Proofs
end

