-- ==== Sys2Proof/Proofs/IndexedCopies.lean ====
section
/-! PROOF. Gathers and scatters at their issue (R199 to R201): the plain forms' checks, and the entry's before those of the orbit forms. -/

namespace Sys2Proof.Proofs

open Sys2Proof Sys2Proof.Machine Sys2Proof.Claims Sys2Proof.Laws

-- Runs and lists (R193, R199) -------------------------------------------------------------------------------------------------------------------------

/-- A run of one or more bytes is aligned, in a block. -/
theorem runOk_iff_inBlock (x : Nat) {n : Nat} (align : Nat) (hn : 0 < n) : runOk x n align = true ↔ x % align = 0 ∧ inBlock x (x + n) := by
  rw [runOk_iff, inRun_iff_inBlock hn]

theorem destOk_iff_inBlock (s : State) (x : Nat) {n : Nat} (align : Nat) (hn : 0 < n) :
    destOk s x n align = true ↔ x % align = 0 ∧ inBlock x (x + n) ∧ ¬ shut s x n := by
  rw [destOk_iff, inRun_iff_inBlock hn]

theorem indexLimits_iff (n : Nat) : indexLimits n = true ↔ 1 ≤ n ∧ n ≤ 2 ^ 20 := decide_eq_true_iff

theorem indexRun_iff (x : Nat) {n : Nat} (hn : 1 ≤ n) : indexRun x n = true ↔ x % 8 = 0 ∧ inBlock x (x + 8 * n) := by
  rw [indexRun, runOk_iff_inBlock _ _ (by omega)]
  push_cast
  rfl

/-- The packed operand of `n` elements (R199). -/
theorem packedRun_iff (x : Nat) {n : Nat} (t : Ty) (hn : 1 ≤ n) :
    runOk x (n * Ty.size t) (Ty.size t) = true ↔ x % Ty.size t = 0 ∧ inBlock x (x + n * Ty.size t) := by
  rw [runOk_iff_inBlock _ _ (Nat.mul_pos hn (size_pos t))]
  push_cast
  rfl

theorem packedDest_iff (s : State) (x : Nat) {n : Nat} (t : Ty) (hn : 1 ≤ n) : destOk s x (n * Ty.size t) (Ty.size t) = true ↔
    (x % Ty.size t = 0 ∧ inBlock x (x + n * Ty.size t)) ∧ ¬ shut s x (n * Ty.size t) := by
  rw [destOk, Bool.and_eq_true, packedRun_iff x t hn, notOpen_iff]

/-- The operand that the indices lead into, in device memory or in a block (R199; log 66). -/
def TableAt (o : IndexOps) (x : Nat) : Prop :=
  if o.mem = true then x < 2 ^ 57 ∧ x % Ty.size o.ty = 0 else x % Ty.size o.ty = 0 ∧ inBlock x (x + Ty.size o.ty)

theorem tableAt_iff (o : IndexOps) (x : Nat) :
    (if o.mem then decide (x < 2 ^ 57) && x % Ty.size o.ty == 0 else runOk x (Ty.size o.ty) (Ty.size o.ty)) = true ↔ TableAt o x := by
  rw [TableAt]
  split
  · rw [Bool.and_eq_true, decide_eq_true_eq, beq_iff_eq]
  · exact runOk_iff_inBlock _ _ (size_pos _)

theorem plainClear_iff (s : State) (dst idx n z : Nat) : plainClear (cur s) dst idx n z = true ↔
    ∀ q, q < n → ¬ shut s ((dst + Memory.readNat (cur s).spad (idx + 8 * q) 8 * z) % 2 ^ 64) z := by
  simp only [plainClear, List.all_eq_true, List.mem_range, notOpen_iff]

-- Without an entry (R199) -----------------------------------------------------------------------------------------------------------------------------------

section
variable (s : State) (o : IndexOps)

theorem cpgth_plain_issuesTo (hsy : o.sy = none) : issuesTo s (.cpgth o)
    [(1 ≤ rdG s o.sc 1 ∧ rdG s o.sc 1 ≤ 2 ^ 20, 0x01),
     ((rdG s o.sc 0 % 8 = 0 ∧ inBlock (rdG s o.sc 0) (rdG s o.sc 0 + 8 * rdG s o.sc 1)) ∧
      ((rdN s o.sb) % Ty.size o.ty = 0 ∧ inBlock (rdN s o.sb) (rdN s o.sb + rdG s o.sc 1 * Ty.size o.ty)) ∧
      ¬ shut s (rdN s o.sb) (rdG s o.sc 1 * Ty.size o.ty) ∧ TableAt o (rdN s o.sa), 0x08)] none
    (begins s (progress s (.gather (rdN s o.sa) (rdN s o.sb) (rdG s o.sc 0) (rdG s o.sc 1) o.ty o.mem) (if o.mem then cpiSt else cpoSt)
      o.run.toNat (rdG s o.sc 1 + 1340) (o.lc.map BitVec.toNat))) := by
  refine issuesTo_of_cpIssue (show execCpgth o s = _ by unfold execCpgth; rw [hsy]) ?_ rfl fun _ _ => rfl
  refine decideInOrder_cons (indexLimits_iff _) fun h => decideInOrder_cons ?_ fun _ => decideInOrder_nil
  rw [Bool.and_eq_true, Bool.and_eq_true, indexRun_iff _ h.1, packedDest_iff s _ _ h.1, tableAt_iff]
  tauto

theorem cpsct_plain_issuesTo (hsy : o.sy = none) (comb : Bool) : issuesTo s (.cpsct o comb)
    [((1 ≤ rdG s o.sc 1 ∧ rdG s o.sc 1 ≤ 2 ^ 20) ∧ ¬ (comb = true ∧ o.ty = .nf), 0x01),
     ((rdG s o.sc 0 % 8 = 0 ∧ inBlock (rdG s o.sc 0) (rdG s o.sc 0 + 8 * rdG s o.sc 1)) ∧
      ((rdN s o.sa) % Ty.size o.ty = 0 ∧ inBlock (rdN s o.sa) (rdN s o.sa + rdG s o.sc 1 * Ty.size o.ty)) ∧ TableAt o (rdN s o.sb), 0x08),
     (o.mem = true ∨ ∀ q, q < rdG s o.sc 1 →
        ¬ shut s ((rdN s o.sb + Memory.readNat (cur s).spad (rdG s o.sc 0 + 8 * q) 8 * Ty.size o.ty) % 2 ^ 64) (Ty.size o.ty), 0x08)] none
    (begins s (progress s (.scatter (rdN s o.sa) (rdN s o.sb) (rdG s o.sc 0) (rdG s o.sc 1) o.ty o.mem comb) cpoSt
      o.run.toNat (rdG s o.sc 1 + 1340) (o.lc.map BitVec.toNat))) := by
  refine issuesTo_of_cpIssue (show execCpsct o comb s = _ by unfold execCpsct; rw [hsy]) ?_ rfl fun _ _ => rfl
  refine decideInOrder_cons ?_ fun h => decideInOrder_cons ?_ fun _ => decideInOrder_cons ?_ fun _ => decideInOrder_nil
  · rw [Bool.and_eq_true, indexLimits_iff, Bool.not_eq_true', ← Bool.not_eq_true, Bool.and_eq_true, beq_iff_eq]
  · rw [Bool.and_eq_true, Bool.and_eq_true, indexRun_iff _ h.1.1, packedRun_iff _ _ h.1.1, tableAt_iff]
    tauto
  · rw [Bool.or_eq_true, plainClear_iff]

-- Through an entry (R70, R91, R201) ---------------------------------------------------------------------------------------------------------------------------

/-- The DETAIL words of an entry of another type. -/
def typeDetail (s : State) (y : BitVec 4) : List Word := symDetail y.toNat 0 s.ctx.seq ⟨0x0B, 3, 0, [], none⟩

variable {s} {o} {y : BitVec 4}

theorem syFault_invalid {t : Ty} (h : (getSy (cur s) y.toNat).valid ≠ true) : syFault s y t = some (0x01, []) :=
  if_pos (by simpa using h)

theorem syFault_type {t : Ty} (h : (getSy (cur s) y.toNat).valid = true) (ht : symTy (getSy (cur s) y.toNat).desc ≠ t) :
    syFault s y t = some (0x0B, typeDetail s y) :=
  (if_neg (by simp [h])).trans (if_pos ht)

theorem syFault_none {t : Ty} (h : (getSy (cur s) y.toNat).valid = true) (ht : symTy (getSy (cur s) y.toNat).desc = t) :
    syFault s y t = none :=
  (if_neg (by simp [h])).trans (if_neg (by simp [ht]))

/-- A list of no length that R199 admits. -/
theorem orbit_length_faults (hsy : o.sy = some y) (comb : Bool) (h : indexLimits (rdG s o.sc 1) = false) :
    exec (.cpgth o) s = .next (faults s 0x01 0 []) ∧ exec (.cpsct o comb) s = .next (faults s 0x01 0 []) := by
  constructor
  · change execCpgth o s = _
    unfold execCpgth
    rw [hsy]
    exact if_pos h
  · change execCpsct o comb s = _
    unfold execCpsct
    rw [hsy]
    exact if_pos h

/-- A fault of the entry is the command's. -/
theorem orbit_entry_faults (hsy : o.sy = some y) (comb : Bool) (h : indexLimits (rdG s o.sc 1) = true) {code : Nat} {d : List Word}
    (hf : syFault s y o.ty = some (code, d)) :
    exec (.cpgth o) s = .next (faults s code 0 d) ∧ exec (.cpsct o comb) s = .next (faults s code 0 d) := by
  constructor
  · change execCpgth o s = _
    unfold execCpgth
    rw [hsy]
    simp only [h, hf, Bool.true_eq_false, if_false]
    rfl
  · change execCpsct o comb s = _
    unfold execCpsct
    rw [hsy]
    simp only [h, hf, Bool.true_eq_false, if_false]
    rfl

theorem cpgth_orbit_issuesTo (hsy : o.sy = some y) (h : indexLimits (rdG s o.sc 1) = true) (hf : syFault s y o.ty = none) :
    issuesTo s (.cpgth o)
      [((rdG s o.sc 0 % 8 = 0 ∧ inBlock (rdG s o.sc 0) (rdG s o.sc 0 + 8 * rdG s o.sc 1)) ∧
        ((rdN s o.sb) % Ty.size o.ty = 0 ∧ inBlock (rdN s o.sb) (rdN s o.sb + rdG s o.sc 1 * Ty.size o.ty)) ∧
        ¬ shut s (rdN s o.sb) (rdG s o.sc 1 * Ty.size o.ty), 0x08)] none
      (begins s (progress s (.gatherSy y.toNat (rdN s o.sb) (rdG s o.sc 0) (rdG s o.sc 1) (getSy (cur s) y.toNat).desc) cpiSt
        o.run.toNat (rdG s o.sc 1 + 1340) (o.lc.map BitVec.toNat))) := by
  have hn : 1 ≤ rdG s o.sc 1 := ((indexLimits_iff _).1 h).1
  refine issuesTo_of_cpIssue (show execCpgth o s = _ by unfold execCpgth; rw [hsy]; simp only [h, hf, Bool.true_eq_false, if_false]; exact rfl)
    ?_ rfl fun _ _ => rfl
  refine decideInOrder_cons ?_ fun _ => decideInOrder_nil
  rw [Bool.and_eq_true, indexRun_iff _ hn, packedDest_iff s _ _ hn]

theorem cpsct_orbit_issuesTo (hsy : o.sy = some y) (comb : Bool) (h : indexLimits (rdG s o.sc 1) = true) (hf : syFault s y o.ty = none) :
    issuesTo s (.cpsct o comb)
      [((rdG s o.sc 0 % 8 = 0 ∧ inBlock (rdG s o.sc 0) (rdG s o.sc 0 + 8 * rdG s o.sc 1)) ∧
        (rdN s o.sa) % Ty.size o.ty = 0 ∧ inBlock (rdN s o.sa) (rdN s o.sa + rdG s o.sc 1 * Ty.size o.ty), 0x08),
       (scatterClear s (getSy (cur s) y.toNat).desc (rdG s o.sc 0) (rdG s o.sc 1) (Ty.size o.ty) = true, 0x08)] none
      (begins s (progress s (.scatterSy y.toNat (rdN s o.sa) (rdG s o.sc 0) (rdG s o.sc 1) (getSy (cur s) y.toNat).desc comb) cpoSt
        o.run.toNat (2 * rdG s o.sc 1 + 1360) (o.lc.map BitVec.toNat))) := by
  have hn : 1 ≤ rdG s o.sc 1 := ((indexLimits_iff _).1 h).1
  refine issuesTo_of_cpIssue
    (show execCpsct o comb s = _ by unfold execCpsct; rw [hsy]; simp only [h, hf, Bool.true_eq_false, if_false]; exact rfl) ?_ rfl fun _ _ => rfl
  refine decideInOrder_cons ?_ fun _ => decideInOrder_cons Iff.rfl fun _ => decideInOrder_nil
  rw [Bool.and_eq_true, indexRun_iff _ hn, packedRun_iff _ _ hn]

end

/-- Settles O26: the plain forms by their checks, the orbit forms by the entry first. -/
theorem gathersAndScattersStart : Obligations.GathersAndScattersStart := by
  unfold Obligations.GathersAndScattersStart
  intro s o comb idx n z src dst lc r len list packed table
  have hidx : rdG s o.sc 0 = idx := congrArg (fun q => (rd s q).toNat) (add_zero_reg o.sc)
  refine ⟨fun hsy => ?_, fun y hsy => ⟨fun h => ?_, fun hlen hv ht => ?_, fun hlen hv ht => ?_⟩⟩
  · have hg := cpgth_plain_issuesTo s o hsy
    have hs := cpsct_plain_issuesTo s o hsy comb
    rw [hidx] at hg hs
    exact ⟨hg, hs⟩
  · by_cases hlen : len
    · exact orbit_entry_faults hsy comb ((indexLimits_iff _).2 hlen) (syFault_invalid fun hv => h ⟨hlen, hv⟩)
    · exact orbit_length_faults hsy comb (Bool.eq_false_iff.2 fun hl => hlen ((indexLimits_iff _).1 hl))
  · exact orbit_entry_faults hsy comb ((indexLimits_iff _).2 hlen) (syFault_type hv ht)
  · have hg := cpgth_orbit_issuesTo hsy ((indexLimits_iff _).2 hlen) (syFault_none hv ht)
    have hs := cpsct_orbit_issuesTo hsy comb ((indexLimits_iff _).2 hlen) (syFault_none hv ht)
    rw [hidx] at hg hs
    exact ⟨hg, hs⟩

end Sys2Proof.Proofs
end

