-- ==== Sys2Proof/Proofs/Fills.lean ====
section
/-! PROOF. CPFILL, CPPAT, CPCBK and CPVQ at their issue (R202 to R205): the source side's checks and requests, shared by the three fills. -/

namespace Sys2Proof.Proofs

open Sys2Proof Sys2Proof.Machine Sys2Proof.Claims Sys2Proof.Laws

/-- Checks that follow others. -/
theorem decideInOrder_append : ∀ {l : List (Bool × Nat)} {r : List (Prop × Nat)} {l' : List (Bool × Nat)} {r' : List (Prop × Nat)},
    DecideInOrder l r → ((∀ x ∈ r, x.1) → DecideInOrder l' r') → DecideInOrder (l ++ l') (r ++ r')
  | [], [], _, _, _, h' => h' fun _ hx => absurd hx List.not_mem_nil
  | _ :: _, _ :: _, _, _, ⟨hn, hb, h⟩, h' =>
    ⟨hn, hb, fun hc => decideInOrder_append (h hc) fun hr => h' (List.forall_mem_cons.2 ⟨hc, hr⟩)⟩

-- The source side of a fill (R193, R202) ------------------------------------------------------------------------------------------------------

theorem fillStride_eq (s : State) (sb : SReg) : fillStride s sb = (BitVec.ofNat 32 ((rd s sb).toNat / 2 ^ 32)).toInt := by
  change asSigned 32 ((rd s sb).toNat / 2 ^ 32 % 2 ^ 32) = _
  rw [asSigned, BitVec.toInt_eq_toNat_cond, BitVec.toNat_ofNat]
  split <;> split <;> omega

/-- The rows of a fill lie in one block, aligned to their elements. -/
def RowsRun (src : Nat) (stride : Int) (rows bytes align : Nat) : Prop := src % align = 0 ∧ (rows = 1 ∨ stride % align = 0) ∧
  inBlock (src + min 0 (((rows : Int) - 1) * stride)) (src + max 0 (((rows : Int) - 1) * stride) + bytes)

theorem fillRunOk_iff (src : Nat) (stride : Int) {rows bytes : Nat} (align : Nat) (hrows : 1 ≤ rows) (hbytes : 0 < bytes) :
    fillRunOk src stride rows bytes align = true ↔ RowsRun src stride rows bytes align := by
  have hcast : ((rows - 1 : Nat) : Int) = (rows : Int) - 1 := by omega
  rw [RowsRun, ← spadRunOk_toNat_iff (by omega), fillRunOk, hcast]
  simp only [Bool.and_eq_true, Bool.or_eq_true, beq_iff_eq]
  tauto

/-- The span from a block to the contraction engine is at most 7 (R16, R202). -/
def SpanFits (run src : Nat) : Prop :=
  if run < 4 then (2 + 12 - (2 * (src / 2 ^ 18) + 1)) % 12 ≤ 7 else (2 * (src / 2 ^ 18) + 1 + 12 - 2) % 12 ≤ 7

theorem rowsRun_block {src : Nat} {stride : Int} {rows bytes align : Nat} (hbytes : 0 < bytes) (h : RowsRun src stride rows bytes align) :
    src / 2 ^ 18 < 6 := by
  obtain ⟨-, -, h0, hlo, hhi⟩ := h
  omega

theorem spanFits_iff {run src : Nat} (h : src / 2 ^ 18 < 6) : decide (spanOf run (blkSt (blkOf src)) ceSt ≤ 7) = true ↔ SpanFits run src := by
  rw [decide_eq_true_eq, spanOf, SpanFits, blkSt, blkOf, ceSt, Nat.mod_eq_of_lt (by omega : src / 2 ^ 18 < 8)]
  split <;> exact Iff.rfl

/-- The checks of a fill's source side. -/
def FillSide (src : Nat) (stride : Int) (rows bytes align run : Nat) (mem : Bool) : List (Prop × Nat) :=
  if mem = true then [(src % 64 = 0 ∧ stride % 64 = 0 ∧ src < 2 ^ 57, 0x08)]
  else [(RowsRun src stride rows bytes align, 0x08), (SpanFits run src, 0x01)]

theorem fillChecks_decide (src : Nat) (stride : Int) {rows bytes : Nat} (align : Nat) (run : Run) (mem : Bool) (hrows : 1 ≤ rows)
    (hbytes : 0 < bytes) : DecideInOrder (fillChecks src stride rows bytes align run mem) (FillSide src stride rows bytes align run.toNat mem) := by
  cases mem
  · exact decideInOrder_cons (fillRunOk_iff _ _ _ hrows hbytes) fun h =>
      decideInOrder_cons (spanFits_iff (rowsRun_block hbytes h)) fun _ => decideInOrder_nil
  · refine decideInOrder_cons ?_ fun _ => decideInOrder_nil
    simp only [Bool.and_eq_true, beq_iff_eq, decide_eq_true_eq, and_assoc]

/-- The granules of a fill from device memory, row by row. -/
def rowGranules (src : Nat) (stride : Int) (rows bytes : Nat) : List Nat := (List.range rows).flatMap fun i =>
  (List.range ((bytes + 63) / 64)).map fun q => (((src : Int) + i * stride + 64 * q) % 2 ^ 64).toNat

theorem fillGranules_fst (src : Nat) (stride : Int) (rows bytes : Nat) :
    (fillGranules src stride rows bytes).map Prod.fst = rowGranules src stride rows bytes := by
  simp only [fillGranules, rowGranules, List.map_flatMap, List.map_map]
  refine congrArg (fun f => (List.range rows).flatMap f) (funext fun i => List.map_congr_left fun q _ => ?_)
  simp only [Function.comp_apply, fillRowAt]
  omega

/-- The first of a fill's requests that fails (R202). -/
def fillFailure (s : State) (src : Nat) (stride : Int) (rows bytes : Nat) (mem : Bool) : Option Failure :=
  if mem = true then firstFailure s 3 [1] (rowGranules src stride rows bytes) else none

/-- A fill issues as its own checks, those of its source side, its last ones, and its requests decide. -/
theorem cpFill_issuesTo {s : State} {i : Instr} {kind num rows cols size : Nat} {sa sb : SReg} {run : Run} {mem : Bool} {ty : Ty}
    {own late : List (Bool × Nat)} {own' late' : List (Prop × Nat)} (hexec : exec i s = cpFill s kind num sa sb run mem rows cols size ty own late)
    (hrows : 1 ≤ rows) (hbytes : 0 < cols * size) (hown : DecideInOrder own own') (hlate : DecideInOrder late late') :
    issuesTo s i (own' ++ FillSide (rd s sa).toNat (fillStride s sb) rows (cols * size) size run.toNat mem ++ late')
      (fillFailure s (rd s sa).toNat (fillStride s sb) rows (cols * size) mem)
      (begins s (progress s (.fill kind num (rd s sa).toNat (fillStride s sb) rows cols size ty mem) (if mem then cpiSt else cpoSt) run.toNat
        (if mem then 1300 else 60) none)) := by
  refine issuesTo_of_cpIssue (hexec.trans (by unfold cpFill; exact rfl)) ?_ ?_ fun _ _ => rfl
  · exact decideInOrder_append (decideInOrder_append hown fun _ => fillChecks_decide _ _ _ _ _ hrows hbytes) fun _ => hlate
  · cases mem
    · rfl
    · exact (Asks.fail_eq_firstFailure rfl rfl _ s).trans (congrArg (fun l => Option.map failureParts (firstFailure s 3 [1] l))
        (fillGranules_fst _ _ _ _))

theorem slotClaimed_iff (s : State) (n : Nat) : slotClaimed s n = true ↔ (getSlot (cur s) n).st = .claimed := beq_iff_eq

section
variable (s : State) (sa sb : SReg) (slot : BitVec 5) (run : Run) (ty : Ty) (mem : Bool)

/-- The rows and columns of a CPFILL (R202). -/
theorem cpfill_issuesTo : issuesTo s (.cpfill sa sb slot run ty mem)
    ((ty ≠ .b1 ∧ ((rd s sb).toNat / 32 % 64 + 1) * Ty.size ty ≤ 128 ∧
        ((rd s sb).toNat % 32 + 1) * (((rd s sb).toNat / 32 % 64 + 1) * Ty.size ty) ≤ 2048, 0x01) ::
      (FillSide (rd s sa).toNat (fillStride s sb) ((rd s sb).toNat % 32 + 1) (((rd s sb).toNat / 32 % 64 + 1) * Ty.size ty) (Ty.size ty)
        run.toNat mem ++ [((getSlot (cur s) slot.toNat).st = .claimed, 0x03)]))
    (fillFailure s (rd s sa).toNat (fillStride s sb) ((rd s sb).toNat % 32 + 1) (((rd s sb).toNat / 32 % 64 + 1) * Ty.size ty) mem)
    (begins s (progress s (.fill 0 slot.toNat (rd s sa).toNat (fillStride s sb) ((rd s sb).toNat % 32 + 1) ((rd s sb).toNat / 32 % 64 + 1)
      (Ty.size ty) ty mem) (if mem then cpiSt else cpoSt) run.toNat (if mem then 1300 else 60) none)) := by
  have hrows : bits (rdN s sb) 0 5 + 1 = (rd s sb).toNat % 32 + 1 := by simp only [bits, rdN, pow_zero, Nat.div_one]; rfl
  have hcols : bits (rdN s sb) 5 6 + 1 = (rd s sb).toNat / 32 % 64 + 1 := rfl
  have hexec : exec (.cpfill sa sb slot run ty mem) s = _ := show execCpfill sa sb slot run ty mem s = _ by unfold execCpfill; exact rfl
  rw [hrows, hcols] at hexec
  refine cpFill_issuesTo hexec (Nat.le_add_left _ _) (Nat.mul_pos (Nat.succ_pos _) (size_pos ty))
    (decideInOrder_cons ?_ fun _ => decideInOrder_nil) (decideInOrder_cons (slotClaimed_iff s _) fun _ => decideInOrder_nil)
  simp only [Bool.and_eq_true, bne_iff_ne, ne_eq, decide_eq_true_eq, and_assoc]

/-- The index rows of a CPVQ, and its rows where they go to scratchpad (R205). -/
theorem cpvq_issuesTo (rows : BitVec 6) (sp : Bool) (k : BitVec 2) : issuesTo s (.cpvq sa sb slot run ty rows sp k)
    [(ty = .f16 ∨ ty = .bf16, 0x01),
     (inBlock (rd s sa).toNat ((rd s sa).toNat + if sp = true then 16 * (if sp = true then rows.toNat + 1 else 32 : Nat) else 256) ∧
      (sp = true → (rd s sb).toNat % 2 = 0 ∧
        inBlock (rd s sb).toNat ((rd s sb).toNat + 128 * (if sp = true then rows.toNat + 1 else 32 : Nat)) ∧
        ¬ shut s (rd s sb).toNat (128 * (if sp = true then rows.toNat + 1 else 32))), 0x08),
     (sp = true ∨ (getSlot (cur s) slot.toNat).st = .claimed, 0x03)] none
    (begins s (progress s (.vq slot.toNat (rd s sa).toNat (rd s sb).toNat (if sp = true then rows.toNat + 1 else 32) ty sp k.toNat)
      cpoSt run.toNat 110 none)) := by
  refine issuesTo_of_cpIssue (show execCpvq sa sb slot run ty rows sp k s = _ by unfold execCpvq; exact rfl) ?_ rfl fun _ _ => rfl
  refine decideInOrder_cons ?_ fun _ => decideInOrder_cons ?_ fun _ => decideInOrder_cons ?_ fun _ => decideInOrder_nil
  · rw [Bool.or_eq_true, beq_iff_eq, beq_iff_eq]
  · cases sp
    · rw [Bool.and_eq_true, runOk_iff_inBlock _ _ (by simp)]
      simp [Nat.mod_one]
      rfl
    · rw [Bool.and_eq_true, runOk_iff_inBlock _ _ (by simp), Bool.or_eq_true, destOk_iff_inBlock _ _ _ (by simp)]
      simp [Nat.mod_one]
      rfl
  · rw [Bool.or_eq_true, slotClaimed_iff]

end

/-- Settles O27: the three fills by their shared source side, and CPVQ. -/
theorem fillsStart : Obligations.FillsStart := by
  unfold Obligations.FillsStart
  intro s sa sb slot pm k run ty mem rows sp
  have hfill := cpfill_issuesTo s sa sb slot run ty mem
  have hpat : issuesTo s (.cppat sa sb pm run mem) _ _ _ :=
    cpFill_issuesTo (own' := []) (late' := []) (show execCppat sa sb pm run mem s = _ from rfl) (by decide) (by decide) trivial trivial
  have hcbk : issuesTo s (.cpcbk sa sb k run mem) _ _ _ :=
    cpFill_issuesTo (own' := []) (late' := []) (show execCpcbk sa sb k run mem s = _ from rfl) (by decide) (by decide) trivial trivial
  rw [List.nil_append, List.append_nil] at hpat hcbk
  rw [fillStride_eq] at hfill hpat hcbk
  exact ⟨hfill, hpat, hcbk, cpvq_issuesTo s sa sb slot run ty rows sp k⟩

end Sys2Proof.Proofs
end

