-- ==== Sys2Proof/Proofs/ExpansionsFolds.lean ====
section
/-! PROOF. CPEXP and CPFLD at their issue (R206 to R208): the checks of a tile of a symmetric array, shared by both, and then their own. -/

namespace Sys2Proof.Proofs

open Sys2Proof Sys2Proof.Machine Sys2Proof.Claims Sys2Proof.Laws

/-- Two entries of a list, set again to the same values. -/
theorem set_set_again {α : Type} (l : List α) (a b : Nat) (x y : α) :
    (((l.set a x).set b y).set a x).set b y = (l.set a x).set b y := by
  by_cases h : a = b
  · subst h
    simp only [List.set_set]
  · rw [List.set_comm y x (Ne.symm h), List.set_set, List.set_set]

/-- A request that is made unless a condition holds. -/
theorem askUnless_fail (s : State) {b : Bool} {p : Prop} [Decidable p] (h : b = true ↔ p) (x n align : Nat) (perms : List Nat) :
    Asks.fail { addrs := if b then [] else [x], n := n, align := align, perms := perms } s (if b then [] else [x]) =
      (if p then none else requestOutcome s x n align 3 perms).map failureParts := by
  by_cases hp : p
  · rw [if_pos hp, if_pos (h.2 hp)]
    rfl
  · rw [if_neg hp, if_neg (mt h.1 hp)]
    exact Asks.fail_single _ s _

-- The tile (R206) -------------------------------------------------------------------------------------------------------------------------------

section
variable (s : State) (sa : SReg) (y : BitVec 4) (ty : Ty) (rdim cdim : BitVec 3)

/-- The origin group of s[SA]. -/
abbrev tileOrigin (d : BitVec 512) : Origin := originOf s sa (symRank d) rdim.toNat cdim.toNat

theorem tileOrigin_eq (d : BitVec 512) : tileOrigin s sa rdim cdim d =
    ⟨(rd s sa).toNat % 2 ^ 16, (rd s sa).toNat / 2 ^ 16 % 32 + 1, (rd s sa).toNat / 2 ^ 21 % 64 + 1, (rd s sa).toNat / 2 ^ 32 % 2 ^ 16,
      otherIndices s sa (symRank d) rdim.toNat cdim.toNat⟩ := by
  have hg : rdG s sa 0 = (rd s sa).toNat := congrArg (fun q => (rd s q).toNat) (add_zero_reg sa)
  simp only [tileOrigin, originOf, hg, bits, pow_zero, Nat.div_one]
  rfl

/-- The tile of an entry fits its row and dimensions (R206). -/
def TileFits (s : State) (y : BitVec 4) (ty : Ty) (rdim cdim : BitVec 3) (o : Origin) : Prop :=
  (getSy (cur s) y.toNat).valid = true ∧ rdim ≠ cdim ∧ rdim.toNat < symRank (getSy (cur s) y.toNat).desc ∧
    cdim.toNat < symRank (getSy (cur s) y.toNat).desc ∧ o.cols * Ty.size ty ≤ 128 ∧ o.rows * (o.cols * Ty.size ty) ≤ 2048

variable {s y ty rdim cdim} {o : Origin}

theorem tileFits_iff : TileFits s y ty rdim cdim o ↔
    ¬ ((getSy (cur s) y.toNat).valid = false ∨ originOk o (getSy (cur s) y.toNat).desc rdim.toNat cdim.toNat (Ty.size ty) = false) := by
  simp only [TileFits, originOk, not_or, Bool.not_eq_false, Bool.and_eq_true, bne_iff_ne, ne_eq, decide_eq_true_eq, BitVec.toNat_inj, and_assoc]

theorem tileFault_misfit {col0 : Nat} (h : ¬ TileFits s y ty rdim cdim o) : tileFault s y ty o rdim.toNat cdim.toNat col0 = some (0x01, []) :=
  if_pos (not_not.1 (mt tileFits_iff.2 h))

theorem tileFault_type {col0 : Nat} (h : TileFits s y ty rdim cdim o) (ht : symTy (getSy (cur s) y.toNat).desc ≠ ty) :
    tileFault s y ty o rdim.toNat cdim.toNat col0 = some (0x0B, typeDetail s y) := by
  unfold tileFault
  rw [if_neg (tileFits_iff.1 h), syFault_type h.1 ht]

theorem tileFault_inside {col0 : Nat} (h : TileFits s y ty rdim cdim o) (ht : symTy (getSy (cur s) y.toNat).desc = ty) :
    tileFault s y ty o rdim.toNat cdim.toNat col0 =
      if tileInside o (getSy (cur s) y.toNat).desc rdim.toNat cdim.toNat col0 then none else some (0x08, []) := by
  unfold tileFault
  rw [if_neg (tileFits_iff.1 h), syFault_none h.1 ht] <;> rfl

end

section
variable {s : State} {sa sb : SReg} {slot : BitVec 5} {tile y : BitVec 4} {run : Run} {ty : Ty} {rdim cdim : BitVec 3} {sp : Bool}

/-- A fault of the tile is the expansion's. -/
theorem cpexp_tile_faults {code : Nat} {det : List Word}
    (h : tileFault s y ty (tileOrigin s sa rdim cdim (getSy (cur s) y.toNat).desc) rdim.toNat cdim.toNat
      (tileOrigin s sa rdim cdim (getSy (cur s) y.toNat).desc).col0 = some (code, det)) :
    exec (.cpexp sa sb slot y run ty rdim cdim sp) s = .next (faults s code 0 det) := by
  change execCpexp sa sb slot y run ty rdim cdim sp s = _
  unfold execCpexp
  simp only [h]
  rfl

/-- A fault of the tile is the fold's. -/
theorem cpfld_tile_faults {code : Nat} {det : List Word}
    (h : tileFault s y ty (tileOrigin s sa rdim cdim (getSy (cur s) y.toNat).desc) rdim.toNat cdim.toNat ((rd s sb).toNat % 2 ^ 16) =
      some (code, det)) : exec (.cpfld sa sb tile y run ty rdim cdim) s = .next (faults s code 0 det) := by
  have hcol : bits (rdN s sb) 0 16 = (rd s sb).toNat % 2 ^ 16 := by simp only [bits, pow_zero, Nat.div_one]; rfl
  change execCpfld sa sb tile y run ty rdim cdim s = _
  unfold execCpfld
  simp only [hcol, h]
  rfl

/-- The rows of an expansion's destination (R193, R207; log 27). -/
def ExpandRows (s : State) (dst rows cols z : Nat) : Prop := dst % z = 0 ∧
  inBlock dst (dst + 128 * ((rows : Int) - 1) + cols * z) ∧ ∀ q, q < rows → ¬ shut s (dst + 128 * q) (cols * z)

theorem expandDest_iff (o : Origin) (dst : Nat) (ty : Ty) (hr : 1 ≤ o.rows) (hc : 1 ≤ o.cols) :
    expandDest s dst o (Ty.size ty) = true ↔ ExpandRows s dst o.rows o.cols (Ty.size ty) := by
  have hpos : 0 < o.cols * Ty.size ty := Nat.mul_pos hc (size_pos ty)
  have hcast : ((128 * (o.rows - 1) + o.cols * Ty.size ty : Nat) : Int) = 128 * ((o.rows : Int) - 1) + o.cols * Ty.size ty := by
    push_cast [Nat.cast_sub hr]
    rfl
  rw [expandDest, Bool.and_eq_true, runOk_iff_inBlock _ _ (by omega), hcast, ← add_assoc, ExpandRows, and_assoc]
  simp only [List.all_eq_true, List.mem_range, notOpen_iff]

/-- An expansion whose tile lies in the extents (R207). -/
theorem cpexp_issuesTo {o : Origin} {d : BitVec 512} {first : List Nat} (hd : (getSy (cur s) y.toNat).desc = d)
    (ho : tileOrigin s sa rdim cdim d = o) (hfirst : (o.tup.set rdim.toNat o.row0).set cdim.toNat o.col0 = first) (hr : 1 ≤ o.rows) (hc : 1 ≤ o.cols)
    (h : tileFault s y ty o rdim.toNat cdim.toNat o.col0 = none) :
    issuesTo s (.cpexp sa sb slot y run ty rdim cdim sp)
      [(sp = true → ExpandRows s (rd s sb).toNat o.rows o.cols (Ty.size ty), 0x08),
       (sp = true ∨ (getSlot (cur s) slot.toNat).st = .claimed, 0x03)]
      (if symSpad d = true ∨ (canon d first).2.2.1 = true then none
       else requestOutcome s (slotAddr d (canon d first).1) (Ty.size ty) (Ty.size ty) 3 [1])
      (begins s (progress s (.expand slot.toNat y.toNat 0 (rd s sb).toNat o.rows o.cols first rdim.toNat cdim.toNat d sp) cpiSt run.toNat
        ((if symSpad d then 24 else 1290) + o.rows * o.cols + 40) none)) := by
  subst hd ho
  have hagain : tileIndex first rdim.toNat cdim.toNat (tileOrigin s sa rdim cdim (getSy (cur s) y.toNat).desc).row0
      (tileOrigin s sa rdim cdim (getSy (cur s) y.toNat).desc).col0 0 0 = first := by
    subst hfirst
    exact set_set_again _ _ _ _ _
  refine issuesTo_of_cpIssue (show execCpexp sa sb slot y run ty rdim cdim sp s = _ by
    unfold execCpexp; simp only [h, hfirst, hagain]; exact rfl) ?_ ?_ fun _ _ => rfl
  · refine decideInOrder_cons ?_ fun _ => decideInOrder_cons ?_ fun _ => decideInOrder_nil
    · rw [Bool.or_eq_true, expandDest_iff _ _ _ hr hc, Bool.not_eq_true', ← Bool.not_eq_true, imp_iff_not_or]
      rfl
    · rw [Bool.or_eq_true, slotClaimed_iff]
  · exact askUnless_fail s Bool.or_eq_true_iff _ _ _ _

/-- The representatives that a fold will write can be written (R208; log 19). -/
def FoldSlots (s : State) (d : BitVec 512) (z : Nat) (ranks : List Nat) : Prop :=
  ∀ q ∈ ranks, slotAddr d q % z = 0 ∧ inBlock (slotAddr d q) (slotAddr d q + z) ∧ ¬ shut s (slotAddr d q) z

/-- A fold whose tile lies in the extents (R208). -/
theorem cpfld_issuesTo {o : Origin} {d : BitVec 512} {fcol : Nat} (hd : (getSy (cur s) y.toNat).desc = d)
    (ho : tileOrigin s sa rdim cdim d = o) (hcol : (rd s sb).toNat % 2 ^ 16 = fcol)
    (h : tileFault s y ty o rdim.toNat cdim.toNat fcol = none) :
    issuesTo s (.cpfld sa sb tile y run ty rdim cdim)
      [(symSpad d = true → FoldSlots s d (Ty.size ty) (foldRanks s sa sb y rdim.toNat cdim.toNat), 0x08)] none
      (modCur (begins s (progress s (.fold tile.toNat y.toNat o.rows o.cols o.row0 fcol o.tup rdim.toNat cdim.toNat d
          (Sparse.get 2 (cur s).tags tile.toNat)) cpoSt run.toNat (o.rows + 1320 + (foldRanks s sa sb y rdim.toNat cdim.toNat).length) none))
        (fun c => { c with jobs := c.jobs.map fun x =>
          if x.stream = .cp ∧ x.seq = s.ctx.seq then { x with nums := foldRanks s sa sb y rdim.toNat cdim.toNat } else x })) := by
  subst hd ho
  have hbits : bits (rdN s sb) 0 16 = fcol := by
    rw [← hcol]
    simp only [bits, pow_zero, Nat.div_one]
    rfl
  refine issuesTo_of_cpIssue (show execCpfld sa sb tile y run ty rdim cdim s = _ by
    unfold execCpfld; simp only [hbits, h]; exact rfl) ?_ rfl fun _ _ => rfl
  refine decideInOrder_cons ?_ fun _ => decideInOrder_nil
  rw [Bool.or_eq_true, Bool.not_eq_true', ← Bool.not_eq_true, imp_iff_not_or, List.all_eq_true]
  simp only [destOk_iff_inBlock _ _ _ (size_pos ty)]
  rfl

end

/-- Settles O28: the tile's checks, then each command's own. -/
theorem expansionsAndFoldsStart : Obligations.ExpansionsAndFoldsStart := by
  unfold Obligations.ExpansionsAndFoldsStart
  intro s sa sb slot tile y run ty rdim cdim sp e d g R C row0 col0 fcol z tup fit lies det i j
  let o : Origin := ⟨row0, R, C, col0, tup⟩
  have ho : tileOrigin s sa rdim cdim d = o := tileOrigin_eq s sa rdim cdim d
  have hmisfit : ∀ {c0 : Nat}, ¬ fit → tileFault s y ty (tileOrigin s sa rdim cdim d) rdim.toNat cdim.toNat c0 = some (0x01, []) :=
    fun h => by rw [ho]; exact tileFault_misfit h
  have htype : ∀ {c0 : Nat}, fit → symTy d ≠ ty →
      tileFault s y ty (tileOrigin s sa rdim cdim d) rdim.toNat cdim.toNat c0 = some (0x0B, typeDetail s y) :=
    fun h ht => by rw [ho]; exact tileFault_type h ht
  have hlies : ∀ {c0 : Nat}, fit → symTy d = ty → tileFault s y ty o rdim.toNat cdim.toNat c0 =
      if tileInside o d rdim.toNat cdim.toNat c0 then none else some (0x08, []) := fun h ht => tileFault_inside h ht
  refine ⟨fun h => ⟨cpexp_tile_faults (hmisfit h), cpfld_tile_faults (hmisfit h)⟩,
    fun hf ht => ⟨cpexp_tile_faults (htype hf ht), cpfld_tile_faults (htype hf ht)⟩,
    fun hf ht => ⟨fun h => ?_, fun h => ?_, fun h => ?_, fun h => ?_⟩⟩
  · exact cpexp_tile_faults (by rw [ho]; exact (hlies hf ht).trans (if_neg h))
  · exact cpfld_tile_faults (by rw [ho]; exact (hlies hf ht).trans (if_neg h))
  · exact cpexp_issuesTo (o := o) (d := d) rfl ho rfl (Nat.succ_pos _) (Nat.succ_pos _) ((hlies hf ht).trans (if_pos h))
  · obtain ⟨hfail, -, hok⟩ := cpfld_issuesTo (tile := tile) (run := run) (o := o) (d := d) rfl ho rfl ((hlies hf ht).trans (if_pos h))
    refine ⟨fun hbad => hfail [] [] _ _ rfl (by simp) fun hc => hbad.2 (hc hbad.1), fun hgood => ⟨_, hok ?_ fun _ => rfl, rfl⟩⟩
    exact List.forall_mem_singleton.2 fun hspad => not_not.1 fun hc => hgood ⟨hspad, hc⟩

end Sys2Proof.Proofs
end

