-- ==== Sys2Proof/Proofs/SumCells.lean ====
section
/-! PROOF. CPCINI, CPATOM and CPCRD at their issue (R209 to R211): the checks of a cell's address, and how a command reaches its cell. -/

namespace Sys2Proof.Proofs

open Sys2Proof Sys2Proof.Machine Sys2Proof.Claims Sys2Proof.Laws

/-- The form of a cell's address (R209; log 66). -/
def CellAt (x : Nat) : Prop := x % 64 = 0 ∧ x < 2 ^ 57

theorem cellForm_iff (x : Nat) : cellForm x = true ↔ CellAt x := by
  rw [cellForm, Bool.and_eq_true, beq_iff_eq, decide_eq_true_eq]
  rfl

/-- What the executing command does at a cell that its access reaches, or without a physical address (R268; log 56). -/
def atCell (s t : State) (station x : Nat) (f : Nat → State → State) : State :=
  match accessOutcome s x [3] with
  | .reaches key => f key (requestNow (watched t x 64 6) station)
  | _ => { watched t x 64 6 with dead := true }

/-- An access that does not fail in `s` does the same in a state `t` in which it comes to the same. -/
theorem withCell_eq_atCell {s t : State} {x : Nat} (station : Nat) (f : Nat → State → State)
    (hsame : accessOutcome t x [3] = accessOutcome s x [3]) (hform : CellAt x) (hnot : requestOutcome s x 64 64 6 [3] = none) :
    withCell t station x f = atCell s t station x f := by
  have hl := lookupNow_watchNow_is t x 64 6 [3]
  rw [hsame] at hl
  rw [requestOutcome, if_pos ⟨hform.2, hform.1⟩] at hnot
  unfold withCell atCell
  cases ha : accessOutcome s x [3] with
  | stops code sec => simp [ha] at hnot
  | reaches key =>
    rw [ha] at hl
    obtain ⟨e, he⟩ := hl
    dsimp only
    rw [show lookupNow (watchNow t x 64 6) x [pAT] = _ from he] <;> rfl
  | nowhere =>
    rw [ha] at hl
    dsimp only
    rw [show lookupNow (watchNow t x 64 6) x [pAT] = _ from hl] <;> rfl

/-- A command more in progress changes no access. -/
theorem accessOutcome_begins (s : State) (j : Job) (x : Nat) (perms : List Nat) :
    accessOutcome (begins s j) x perms = accessOutcome s x perms := by
  have hc : getCore (begins s j) s.ctx.core = { cur s with jobs := (cur s).jobs ++ [j] } :=
    getCore_modCore s s.ctx.core _ fun h => by simpa using congrArg CoreState.jobs h
  have hdom : domOf (begins s j) s.ctx.core = domOf s s.ctx.core := by
    rw [domOf, hc] <;> rfl
  change accessAt (begins s j) s.ctx.core x perms = accessAt s s.ctx.core x perms
  rw [accessAt, asidOfCore, hdom, hc] <;> rfl

section
variable (s : State) (sa sb sc : SReg) (ty : Ty) (run : Run)

theorem cpcini_issuesTo : issuesTo s (.cpcini sb sc)
    [(-149 ≤ (rd s sc).toInt ∧ (rd s sc).toInt ≤ 319, 0x01), (CellAt (rd s sb).toNat, 0x08)]
    (requestOutcome s (rd s sb).toNat 64 64 6 [3])
    (if s.ctx.active = true then
      atCell s s cpoSt (rd s sb).toNat (fun key t => posts t 1280 cpoSt (.cellInit key (rd s sc).toInt)) else s) := by
  have hgrid : rdInt s sc 0 = (rd s sc).toInt := (rdInt_eq s sc 0).trans (congrArg (fun q => (rd s q).toInt) (add_zero_reg sc))
  refine issuesTo_of_cpIssue (show execCpcini sb sc s = _ by unfold execCpcini; rw [hgrid]) ?_ (Asks.fail_single _ s _)
    fun hall hnone => ?_
  · exact decideInOrder_cons decide_eq_true_iff fun _ => decideInOrder_cons (cellForm_iff _) fun _ => decideInOrder_nil
  · exact ite_congr rfl (fun hactive => withCell_eq_atCell _ _ rfl (hall _ (List.mem_cons_of_mem _ (List.mem_singleton_self _))) (hnone hactive)) fun _ => rfl

theorem cpatom_issuesTo (per : Bool) : issuesTo s (.cpatom sa sb sc ty run per)
    [(1 ≤ (rd s sc).toNat ∧ (rd s sc).toNat ≤ 65536, 0x01),
     ((rd s sa).toNat % Ty.size ty = 0 ∧ inBlock (rd s sa).toNat ((rd s sa).toNat + (rd s sc).toNat * Ty.size ty) ∧ CellAt (rd s sb).toNat, 0x08)]
    (requestOutcome s (rd s sb).toNat 64 64 6 [3])
    (begins s (progress s (.cpatom (rd s sa).toNat (rd s sb).toNat (rd s sc).toNat ty per) cpoSt run.toNat ((rd s sc).toNat + 20) none)) := by
  refine issuesTo_of_cpIssue (show execCpatom sa sb sc ty run per s = _ by unfold execCpatom; exact rfl) ?_ (Asks.fail_single _ s _)
    fun _ _ => rfl
  refine decideInOrder_cons decide_eq_true_iff fun h => decideInOrder_cons ?_ fun _ => decideInOrder_nil
  exact Bool.and_eq_true_iff.trans ((and_congr (packedRun_iff _ _ h.1) (cellForm_iff _)).trans and_assoc)

/-- The scratchpad operand of a CPCRD (R211). -/
def CellCopyAt (s : State) (raw : Bool) (x : Nat) : Prop :=
  if raw = true then x % 64 = 0 ∧ inBlock x (x + 80) ∧ ¬ shut s x 80 else x % 16 = 0 ∧ inBlock x (x + 16) ∧ ¬ shut s x 16

theorem cpcrd_issuesTo (raw : Bool) : issuesTo s (.cpcrd sa sb ty run raw)
    [(CellCopyAt s raw (rd s sa).toNat ∧ CellAt (rd s sb).toNat, 0x08)] (requestOutcome s (rd s sb).toNat 64 64 6 [3])
    (if s.ctx.active = true then
      atCell s (begins s (progress s (.cpcrd (rd s sa).toNat (rd s sb).toNat ty raw) cpiSt run.toNat 1300 none)) cpiSt (rd s sb).toNat
        (fun key t => posts t 1279 cpiSt (.cellRead key ty raw (rd s sa).toNat run.toNat))
     else begins s (progress s (.cpcrd (rd s sa).toNat (rd s sb).toNat ty raw) cpiSt run.toNat 1300 none)) := by
  refine issuesTo_of_cpIssue (show execCpcrd sa sb ty run raw s = _ by unfold execCpcrd; exact rfl) ?_ (Asks.fail_single _ s _)
    fun hall hnone => ?_
  · refine decideInOrder_cons ?_ fun _ => decideInOrder_nil
    rw [Bool.and_eq_true, cellForm_iff]
    refine and_congr_left fun _ => ?_
    cases raw
    · exact destOk_iff_inBlock s _ 16 (by decide)
    · exact destOk_iff_inBlock s _ 64 (by decide)
  · refine ite_congr rfl (fun hactive => withCell_eq_atCell _ _ (accessOutcome_begins s _ _ _) ?_ (hnone hactive)) fun _ => rfl
    exact (hall (_, 8) (List.mem_singleton_self _)).2

end

/-- Settles O29: the three commands by their checks and their cell's one request. -/
theorem sumCellCommandsStart : Obligations.SumCellCommandsStart := by
  unfold Obligations.SumCellCommandsStart
  intro s sa sb sc ty run per raw
  exact ⟨cpcini_issuesTo s sb sc, cpatom_issuesTo s sa sb sc ty run per, cpcrd_issuesTo s sa sb ty run raw⟩

end Sys2Proof.Proofs
end

