-- ==== Sys2Proof/Proofs/Exchange.lean ====
section
/-! PROOF. Windows and timed exchange at their issue (R212, R214 to R217): the header that leaves, the transfer or the beats' places at the
receiving core, and the receive window. -/

namespace Sys2Proof.Proofs

open Sys2Proof Sys2Proof.Machine Sys2Proof.Claims Sys2Proof.Laws

-- Headers and transfers (R115, R116, R212) ------------------------------------------------------------------------------------------------------

/-- A command that begins, or whose header leaves, changes its core, but not the pour that runs there. -/
theorem domOf_modCur (s : State) (f : CoreState → CoreState) (h : f (cur s) ≠ {}) (hpid : (f (cur s)).pid = (cur s).pid) :
    domOf (modCur s f) s.ctx.core = domOf s s.ctx.core := by
  have hc : getCore (modCur s f) s.ctx.core = f (cur s) := getCore_modCore s s.ctx.core f h
  rw [domOf, hc, hpid]
  rfl

theorem leaving_ne_blank (c : CoreState) (e : Flight) : ({ c with leaving := c.leaving ++ [e] } : CoreState) ≠ {} := fun h => by
  simpa using congrArg CoreState.leaving h

theorem jobs_ne_blank (c : CoreState) (j : Job) : ({ c with jobs := c.jobs ++ [j] } : CoreState) ≠ {} := fun h => by
  simpa using congrArg CoreState.jobs h

theorem cur_leaveHeader (s : State) (station : Nat) (words : List Nat) : cur (leaveHeader s station words) =
    { cur s with leaving := (cur s).leaving ++ [{ flightOf s 0 station (.header words) with cmp := false }] } :=
  getCore_modCore s s.ctx.core (fun c => { c with leaving := c.leaving ++ [{ flightOf s 0 station (.header words) with cmp := false }] })
    (leaving_ne_blank _ _)

theorem domOf_leaveHeader (s : State) (station : Nat) (words : List Nat) :
    domOf (leaveHeader s station words) s.ctx.core = domOf s s.ctx.core := domOf_modCur s _ (leaving_ne_blank _ _) rfl

theorem domOf_begins (s : State) (j : Job) : domOf (begins s j) s.ctx.core = domOf s s.ctx.core :=
  domOf_modCur s _ (jobs_ne_blank _ _) rfl

/-- A header leaves with an active command. -/
def leaves (s : State) (station : Nat) (words : List Nat) : State := if s.ctx.active = true then leaveHeader s station words else s

theorem leaves_ctx (s : State) (station : Nat) (words : List Nat) : (leaves s station words).ctx = s.ctx := by
  rw [leaves]
  split <;> rfl

theorem domOf_leaves (s : State) (station : Nat) (words : List Nat) : domOf (leaves s station words) s.ctx.core = domOf s s.ctx.core := by
  rw [leaves]
  split
  · exact domOf_leaveHeader s station words
  · rfl

theorem ownsTraffic_iff {s t : State} {d : Domain} (hctx : t.ctx = s.ctx) (hd : domOf t s.ctx.core = some d) :
    ownsTraffic t = true ↔ primaryOf d s.ctx.core = s.ctx.core := by
  rw [ownsTraffic, hctx, hd]
  exact beq_iff_eq

/-- The transfer of the executing command, whose issuer is the pour of its core (R212; logs 47, 85). -/
def issuedXfer (s : State) (d : Domain) (get : Bool) (win lc spad off len : Nat) : Xfer :=
  { id := s.nextId, get := get, cast := false, pkg := pkgOf s.ctx.core, part := ownPart s s.ctx.core, win := win, core := s.ctx.core
    stream := s.ctx.stream, pid := (cur s).pid, region := d.region, asid := d.asid, mouldNo := d.mouldNo, lc := lc, spad := spad, off := off
    len := len, start := s.clock
    record := Sparse.get [] (getPkg s (pkgOf s.ctx.core)).windows (ownPart s s.ctx.core * 256 + win) }

theorem newXfer_leaveHeader {s : State} {d : Domain} (hd : domOf s s.ctx.core = some d) (station : Nat) (words : List Nat) (get : Bool)
    (win lc spad off len : Nat) : newXfer (leaveHeader s station words) get win lc spad off len = issuedXfer s d get win lc spad off len := by
  have hd' := (domOf_leaveHeader s station words).trans hd
  have hpid : (cur (leaveHeader s station words)).pid = (cur s).pid := by
    rw [cur_leaveHeader]
  have hpart : ownPart (leaveHeader s station words) s.ctx.core = ownPart s s.ctx.core := by
    rw [ownPart, ownPart, hd', hd]
  have hasid : asidOfCore (leaveHeader s station words) s.ctx.core = d.asid := by
    rw [asidOfCore, hd']
  change Xfer.mk _ _ _ _ (ownPart (leaveHeader s station words) s.ctx.core) _ _ _ (cur (leaveHeader s station words)).pid
    (match domOf (leaveHeader s station words) s.ctx.core with
      | some d => d.region
      | none => (getPart (leaveHeader s station words) (pkgOf s.ctx.core) (ownPart (leaveHeader s station words) s.ctx.core)).root) _
    (asidOfCore (leaveHeader s station words) s.ctx.core)
    (match domOf (leaveHeader s station words) s.ctx.core with
      | some d => d.mouldNo
      | none => 0) _ _ _ _ _ _ _ _ _
    (Sparse.get [] (getPkg s (pkgOf s.ctx.core)).windows (ownPart (leaveHeader s station words) s.ctx.core * 256 + win)) = _
  rw [hpart, hpid, hasid, hd'] <;> rfl

/-- The state that a put or get leaves: with its header gone, and one transfer more where it is the pour's own and moves something. -/
def sends (s : State) (d : Domain) (station : Nat) (words : List Nat) (x : Xfer) : State :=
  if (s.ctx.active = true ∧ primaryOf d s.ctx.core = s.ctx.core) ∧ x.len ≠ 0 then
    { leaves s station words with xfers := (leaves s station words).xfers ++ [x], nextId := s.nextId + 1 } else leaves s station words

theorem startXfer_eq_sends {s : State} {d : Domain} (hd : domOf s s.ctx.core = some d) (station : Nat) (words : List Nat) (get : Bool)
    (win lc spad off len : Nat) (hfirst : s.ctx.active = true ∧ primaryOf d s.ctx.core = s.ctx.core) :
    startXfer (leaves s station words) (newXfer (leaves s station words) get win lc spad off len) =
      sends s d station words (issuedXfer s d get win lc spad off len) := by
  have hl : leaves s station words = leaveHeader s station words := if_pos hfirst.1
  rw [sends, hl, newXfer_leaveHeader hd, startXfer]
  by_cases hlen : (issuedXfer s d get win lc spad off len).len = 0
  · rw [if_pos hlen, if_neg fun h => h.2 hlen]
  · rw [if_neg hlen, if_pos ⟨hfirst, hlen⟩]
    rfl

/-- The same, as a put decides it by whether it has a transfer of its own. -/
theorem ownXfer_eq_sends {s : State} {d : Domain} (hd : domOf s s.ctx.core = some d) (station : Nat) (words : List Nat) (get : Bool)
    (win lc spad off len : Nat) :
    (if (if s.ctx.active = true ∧ primaryOf d s.ctx.core = s.ctx.core then [s.nextId] else []).isEmpty = true then leaves s station words
      else startXfer (leaves s station words) (newXfer (leaves s station words) get win lc spad off len)) =
      sends s d station words (issuedXfer s d get win lc spad off len) := by
  by_cases hfirst : s.ctx.active = true ∧ primaryOf d s.ctx.core = s.ctx.core
  · rw [if_pos hfirst]
    exact startXfer_eq_sends hd station words get win lc spad off len hfirst
  · rw [if_neg hfirst]
    exact (if_pos rfl).trans (if_neg fun h => hfirst h.1).symm

theorem sends_ctx (s : State) (d : Domain) (station : Nat) (words : List Nat) (x : Xfer) : (sends s d station words x).ctx = s.ctx := by
  rw [sends]
  split
  · exact leaves_ctx s station words
  · exact leaves_ctx s station words

theorem exchangeLength_iff (n : Nat) : exchangeLength n = true ↔ n % 128 = 0 ∧ 128 ≤ n ∧ n ≤ 2 ^ 20 := by
  rw [exchangeLength, Bool.and_eq_true, beq_iff_eq, decide_eq_true_eq]

section
variable (s : State) (sa sb sc : SReg)

/-- The window record that a core's partition holds. -/
def windowWords (s : State) (win : Nat) : List Word :=
  Sparse.get [] (getPkg s (pkgOf s.ctx.core)).windows (ownPart s s.ctx.core * 256 + win)

/-- A registered window holds a run at an offset (R193, R212). -/
def WindowHolds (w : List Word) (off n : Nat) : Prop :=
  (w.getD 2 0).toNat / 2 ^ 63 % 2 = 1 ∧ off % 64 = 0 ∧ off + n ≤ (w.getD 1 0).toNat % 2 ^ 40

theorem windowHolds_iff (w : List Word) (off n : Nat) : windowHolds w off n = true ↔ WindowHolds w off n := by
  simp only [windowHolds, bits, Bool.and_eq_true, beq_iff_eq, decide_eq_true_eq, pow_zero, Nat.div_one, and_assoc]
  exact Iff.rfl

theorem windowLength_iff (n : Nat) : windowLength n = true ↔ n % 64 = 0 ∧ n ≤ 2 ^ 24 := by
  rw [windowLength, Bool.and_eq_true, beq_iff_eq, decide_eq_true_eq]

/-- The window's and the scratchpad's side of a put or get. -/
theorem windowChecks_decide (w : List Word) (x off n : Nat) : DecideInOrder
    [(windowLength n, fEncoding), (windowHolds w off n && runOk x n 64, fPermission)]
    [(n % 64 = 0 ∧ n ≤ 2 ^ 24, 0x01), (WindowHolds w off n ∧ x % 64 = 0 ∧ inRun x n, 0x08)] := by
  refine decideInOrder_cons (windowLength_iff n) fun _ => decideInOrder_cons ?_ fun _ => decideInOrder_nil
  rw [Bool.and_eq_true, windowHolds_iff, runOk_iff]

variable {d : Domain} (hd : domOf s s.ctx.core = some d)
include hd

theorem cpput_issuesTo (lc : BitVec 6) (win : BitVec 8) (run : Run) :
    let put := sends s d cpoSt [1, win.toNat, (rd s sb).toNat, (rd s sc).toNat]
      (issuedXfer s d false win.toNat lc.toNat (rd s sa).toNat (rd s sb).toNat (rd s sc).toNat)
    issuesTo s (.cpput sa sb sc lc win run)
      [((rd s sc).toNat % 64 = 0 ∧ (rd s sc).toNat ≤ 2 ^ 24, 0x01),
       (WindowHolds (windowWords s win.toNat) (rd s sb).toNat (rd s sc).toNat ∧ (rd s sa).toNat % 64 = 0 ∧ inRun (rd s sa).toNat (rd s sc).toNat, 0x08)]
      none (modCur (begins put (progress put (.put (rd s sa).toNat (rd s sb).toNat (rd s sc).toNat win.toNat lc.toNat) cpoSt run.toNat
          ((rd s sc).toNat / 64 + 20) none))
        (fun c => { c with jobs := c.jobs.map fun j => if j.stream = .cp ∧ j.seq = s.ctx.seq then
          { j with nums := if s.ctx.active = true ∧ primaryOf d s.ctx.core = s.ctx.core then [s.nextId] else [] } else j })) := by
  intro put
  refine issuesTo_of_cpIssue (show execCpput sa sb sc lc win run s = _ by unfold execCpput; exact rfl) (windowChecks_decide _ _ _ _) rfl
    fun _ _ => ?_
  have hown : (if s.ctx.active = true ∧ ownsTraffic s = true then [s.nextId] else []) =
      if s.ctx.active = true ∧ primaryOf d s.ctx.core = s.ctx.core then [s.nextId] else [] :=
    if_congr (and_congr_right fun _ => ownsTraffic_iff rfl hd) rfl rfl
  have hput := ownXfer_eq_sends hd cpoSt [1, win.toNat, (rd s sb).toNat, (rd s sc).toNat] false win.toNat lc.toNat (rd s sa).toNat
    (rd s sb).toNat (rd s sc).toNat
  rw [← hown] at hput ⊢
  refine Eq.trans (congrArg (fun t => modCur (startJob t (.put (rd s sa).toNat (rd s sb).toNat (rd s sc).toNat win.toNat lc.toNat) cpoSt run.toNat
    ((rd s sc).toNat / 64 + 20) none) (fun c => { c with jobs := c.jobs.map fun j => if j.stream = .cp ∧ j.seq = t.ctx.seq then
      { j with nums := if s.ctx.active = true ∧ ownsTraffic s = true then [s.nextId] else [] } else j })) hput) ?_
  rw [sends_ctx]
  rfl

theorem cpget_issuesTo (lc : BitVec 6) (win : BitVec 8) : issuesTo s (.cpget sa sb sc lc win)
    [((rd s sc).toNat % 64 = 0 ∧ (rd s sc).toNat ≤ 2 ^ 24, 0x01),
     (WindowHolds (windowWords s win.toNat) (rd s sb).toNat (rd s sc).toNat ∧ (rd s sa).toNat % 64 = 0 ∧ inRun (rd s sa).toNat (rd s sc).toNat, 0x08)]
    none (sends s d cpiSt [2, win.toNat, (rd s sb).toNat, (rd s sc).toNat]
      (issuedXfer s d true win.toNat lc.toNat (rd s sa).toNat (rd s sb).toNat (rd s sc).toNat)) := by
  refine issuesTo_of_cpIssue (show execCpget sa sb sc lc win s = _ by unfold execCpget; exact rfl) (windowChecks_decide _ _ _ _) rfl
    fun _ _ => ?_
  have hown : ownsTraffic (leaves s cpiSt [2, win.toNat, (rd s sb).toNat, (rd s sc).toNat]) = true ↔ primaryOf d s.ctx.core = s.ctx.core :=
    ownsTraffic_iff (leaves_ctx s _ _) ((domOf_leaves s _ _).trans hd)
  have hiff : ((leaves s cpiSt [2, win.toNat, (rd s sb).toNat, (rd s sc).toNat]).ctx.active = true ∧
      ownsTraffic (leaves s cpiSt [2, win.toNat, (rd s sb).toNat, (rd s sc).toNat]) = true) ↔
      s.ctx.active = true ∧ primaryOf d s.ctx.core = s.ctx.core := by
    rw [hown, leaves_ctx]
  by_cases hfirst : s.ctx.active = true ∧ primaryOf d s.ctx.core = s.ctx.core
  · exact (if_pos (hiff.2 hfirst)).trans (startXfer_eq_sends hd _ _ _ _ _ _ _ _ hfirst)
  · exact (if_neg (mt hiff.1 hfirst)).trans (if_neg fun h => hfirst h.1).symm

-- Sends (R214) --------------------------------------------------------------------------------------------------------------------------------------

/-- The beats' places at the receiving core, and at its pair partner. -/
def planBeats (s t : State) (d : Domain) (r raddr rrun beats : Nat) : State :=
  match partnerOf d r with
  | some q => remotePlan (remotePlan t r raddr rrun (exchangeLatency s.ctx.core r) beats) q raddr rrun (exchangeLatency s.ctx.core r) beats
  | none => remotePlan t r raddr rrun (exchangeLatency s.ctx.core r) beats

theorem cpxsnd_issuesTo (run : Run) :
    let n := (rd s sc).toNat
    let b := (rd s sb).toNat
    let raddr := b / 2 ^ 32 % 2 ^ 21
    let rrun := b / 2 ^ 56 % 8
    let r := d.cores.getD (b % 2 ^ 17) 0
    let t0 := leaves s cpoSt [3, r, raddr, rrun, n]
    let t := begins t0 (progress t0 (.send (rd s sa).toNat r raddr rrun (n / 128)) cpoSt run.toNat (n / 128 + 40) none)
    issuesTo s (.cpxsnd sa sb sc run)
      [(n % 128 = 0 ∧ 128 ≤ n ∧ n ≤ 2 ^ 20, 0x01),
       ((rd s sa).toNat % 8 = 0 ∧ inRun (rd s sa).toNat n ∧ b % 2 ^ 17 < d.cores.length ∧ raddr % 8 = 0 ∧ inRun raddr n, 0x08)]
      none (if primaryOf d s.ctx.core = s.ctx.core then planBeats s t d r raddr rrun (n / 128) else t) := by
  intro n b raddr rrun r t0 t
  have hrecv : bits (rdN s sb) 0 17 = b % 2 ^ 17 := by simp only [bits, pow_zero, Nat.div_one]; rfl
  have hr : d.cores[b % 2 ^ 17]?.getD 0 = r := (List.getD_eq_getElem?_getD ..).symm
  have htctx : t.ctx = s.ctx := leaves_ctx s _ _
  have hown : ownsTraffic t = true ↔ primaryOf d s.ctx.core = s.ctx.core := by
    refine ownsTraffic_iff htctx ?_
    rw [← hd, ← domOf_leaves s cpoSt [3, r, raddr, rrun, n], ← leaves_ctx s cpoSt [3, r, raddr, rrun, n]]
    exact domOf_begins t0 _
  refine issuesTo_of_cpIssue (show execCpxsnd sa sb sc run s = _ by unfold execCpxsnd; simp only [hd, hrecv, hr]; exact rfl) ?_ rfl
    fun _ _ => ?_
  · refine decideInOrder_cons (exchangeLength_iff _) fun _ => decideInOrder_cons ?_ fun _ => decideInOrder_nil
    rw [Bool.and_eq_true, Bool.and_eq_true, runOk_iff, runOk_iff, Option.isSome_iff_ne_none, ne_eq, List.getElem?_eq_none_iff, not_le, and_assoc,
      and_assoc]
    exact Iff.rfl
  · by_cases hp : primaryOf d s.ctx.core = s.ctx.core
    · rw [if_pos hp]
      refine (if_pos (hown.2 hp)).trans ?_
      change planBeats t t d r raddr rrun (n / 128) = _
      rw [planBeats, planBeats, htctx]
    · rw [if_neg hp]
      exact if_neg (mt hown.1 hp)

end

-- Receive windows (R215 to R217) --------------------------------------------------------------------------------------------------------------------

section
variable (s : State) (sa sb sc : SReg)

/-- Room for one more window, which overlaps none that is still open then (R216). -/
def WindowRoom (s : State) (x n : Nat) : Prop := ((cur s).rwins.filter fun w => decide ((cur s).dcc + 1 ≤ w.closes)).length < 16 ∧
  ∀ w ∈ (cur s).rwins.filter fun w => decide ((cur s).dcc + 1 ≤ w.closes), ¬ (x < w.addr + w.len ∧ w.addr < x + n ∧ 0 < w.len)

theorem windowRoom_iff (x : Nat) {n : Nat} (hn : 0 < n) : windowRoom (cur s) x n = true ↔ WindowRoom s x n := by
  rw [windowRoom, WindowRoom, Bool.and_eq_true, decide_eq_true_eq, Bool.not_eq_true', List.any_eq_false]
  refine and_congr_right fun _ => forall₂_congr fun w _ => ?_
  simp only [runsMeet, Bool.and_eq_true, decide_eq_true_eq, hn, and_true, and_assoc]

/-- An active command opens its window, or has it close without an arrival (R215; log 25). -/
def opensWindow (s : State) (x n closes expect : Nat) (red : Option Ty) : State :=
  if s.ctx.active = true then
    (if closes = (cur s).dcc then takeFault s s.ctx.core s.ctx.stream s.ctx.unit s.ctx.hdr.evt.toNat 0x02 5 [toWord s.ctx.seq]
     else modCur s (fun c => { c with rwins := c.rwins ++
       [⟨x, n, (cur s).dcc + 1, closes, 0, expect, red, s.ctx.stream, s.ctx.seq, s.ctx.hdr.evt.toNat⟩] })) else s

/-- A receive command of either kind issues as its buffer and its run decide. -/
theorem receive_issuesTo {i : Instr} {senders align : Nat} {red : Option Ty} (hexec : exec i s = receive s sa sb sc senders align red) :
    issuesTo s i
      [((rd s sb).toNat % 128 = 0 ∧ 128 ≤ (rd s sb).toNat ∧ (rd s sb).toNat ≤ 2 ^ 20 ∧ (cur s).dcc ≤ (rd s sc).toNat, 0x01),
       ((rd s sa).toNat % align = 0 ∧ inRun (rd s sa).toNat (rd s sb).toNat ∧ WindowRoom s (rd s sa).toNat (rd s sb).toNat, 0x08)]
      none (opensWindow s (rd s sa).toNat (rd s sb).toNat (rd s sc).toNat (senders * (rd s sb).toNat) red) := by
  refine issuesTo_of_cpIssue (hexec.trans (by unfold receive; exact rfl)) ?_ rfl fun _ _ => rfl
  refine decideInOrder_cons ?_ fun h => decideInOrder_cons ?_ fun _ => decideInOrder_nil
  · exact Bool.and_eq_true_iff.trans ((and_congr (exchangeLength_iff _) decide_eq_true_iff).trans (by rw [and_assoc, and_assoc]; exact Iff.rfl))
  · exact Bool.and_eq_true_iff.trans ((and_congr (runOk_iff _ _ _) (windowRoom_iff s _ (Nat.lt_of_lt_of_le (by decide) h.2.1))).trans and_assoc)

end

/-- Settles O30: the five commands, sends by the places at the receiving core. -/
theorem windowAndExchangeCommandsStart : Obligations.WindowAndExchangeCommandsStart := by
  unfold Obligations.WindowAndExchangeCommandsStart
  intro s sa sb sc lc win run ty snd d hd
  exact ⟨cpput_issuesTo s sa sb sc hd lc win run, cpget_issuesTo s sa sb sc hd lc win, cpxsnd_issuesTo s sa sb sc hd run,
    receive_issuesTo s sa sb sc rfl, receive_issuesTo s sa sb sc rfl⟩

end Sys2Proof.Proofs
end

