-- ==== Sys2Proof/Proofs/CopyCycles.lean ====
section
/-! PROOF. What strided moves, CPATOM, CPPUT and CPXSND do in a cycle after their issue (R195, R196, R210, R212, R214), and, for all commands
in progress, how a request of device memory goes (R104, R193, R273). -/

namespace Sys2Proof.Proofs

open Sys2Proof Sys2Proof.Machine Sys2Proof.Claims Sys2Proof.Laws

-- Requests of a command in progress (R193, R273) -------------------------------------------------------------------------------------------------

/-- The commands whose accesses are those of `j`: the same stream, place and number. -/
def SameIssuer (j i : Job) : Prop := i.stream = j.stream ∧ i.station = j.station ∧ i.evt = j.evt ∧ i.ring = j.ring ∧ i.seq = j.seq

/-- A cycle that is one request goes as the lookup decides. -/
theorem requestsAt_of_request {s : State} {k : Nat} {j at' : Job} {t x n align kind prog : Nat} {perms : List Nat} {go : Nat → State → JobRes}
    (hsame : SameIssuer j at') (h : requestCycle s k j t = request s k at' x n align perms kind prog go) :
    requestsAt s k j at' t x n align kind prog perms go := by
  obtain ⟨hstream, hstation, hevt, hring, hseq⟩ := hsame
  have hw := afterWatch_watchTest s k j.stream j.evt j.ring j.seq x n kind
  have hwords : (fun sec => accessWordsAt (watchTest s k j.stream j.evt j.ring j.seq x n kind) k x sec j.seq) =
      fun sec => accessWordsAt s k x sec j.seq := by
    funext sec
    rw [accessWordsAt, accessWordsAt, hw.asidOfCore]
  have hl := lookup_is (watchTest s k j.stream j.evt j.ring j.seq x n kind) k x perms j.seq
  rw [hw.accessAt, hwords] at hl
  have hform : x < 2 ^ 57 ∧ x % align = 0 → requestCycle s k j t =
      (match lookup (getCore (watchTest s k j.stream j.evt j.ring j.seq x n kind) k) (pkgOf k)
          (asidOfCore (watchTest s k j.stream j.evt j.ring j.seq x n kind) k) x perms j.seq with
        | .ok _ key => go key (rateUse (watchTest s k j.stream j.evt j.ring j.seq x n kind) k j.stream j.station j.evt)
        | .fault code d => .fault (watchTest s k j.stream j.evt j.ring j.seq x n kind) at' code d prog
        | .nowhere => .ok (deadEnd (watchTest s k j.stream j.evt j.ring j.seq x n kind)) { at' with stopped := true }) := by
    intro hx
    rw [h, request, if_pos hx, hstream, hstation, hevt, hring, hseq] <;> rfl
  refine ⟨fun hx => ?_, fun hx code sec ha => ?_, fun hx key ha => ?_, fun hx ha => ?_⟩
  · rw [h, request, if_neg hx, hseq, accessWordsAt, Nat.zero_mul, Nat.add_zero]
    rfl
  · rw [ha] at hl
    rw [hform hx, show lookup _ _ _ _ _ _ = _ from hl]
  · rw [ha] at hl
    obtain ⟨e, he⟩ := hl
    rw [hform hx, he]
  · rw [ha] at hl
    rw [hform hx, show lookup _ _ _ _ _ _ = _ from hl] <;> rfl

theorem requests_of_request {s : State} {k : Nat} {j : Job} {t x n align kind prog : Nat} {perms : List Nat} {go : Nat → State → JobRes}
    (h : requestCycle s k j t = request s k j x n align perms kind prog go) : requests s k j t x n align kind prog perms go :=
  requestsAt_of_request ⟨rfl, rfl, rfl, rfl, rfl⟩ h

-- Strided moves (R195, R196) -----------------------------------------------------------------------------------------------------------------------

/-- The place of granule (a, b, c) of a strided operand. -/
theorem granuleAt_eq (m : MoveShape) (base : Nat) (s1 s2 : Int) {a b : Nat} (c : Nat) (ha : a < m.len / 64) (hb : b < m.n1) :
    granuleAt m base s1 s2 (a + m.len / 64 * (b + m.n1 * c)) = (((base : Int) + 64 * a + b * s1 + c * s2) % 2 ^ 64).toNat := by
  have hmod : (a + m.len / 64 * (b + m.n1 * c)) % (m.len / 64) = a := by rw [Nat.add_mul_mod_self_left, Nat.mod_eq_of_lt ha]
  have hdiv : (a + m.len / 64 * (b + m.n1 * c)) / (m.len / 64) = b + m.n1 * c := by
    rw [Nat.add_mul_div_left _ _ (by omega), Nat.div_eq_of_lt ha, Nat.zero_add]
  have hdiv' : (b + m.n1 * c) / m.n1 = c := by rw [Nat.add_mul_div_left _ _ (by omega), Nat.div_eq_of_lt hb, Nat.zero_add]
  rw [granuleAt, hmod, hdiv, hdiv', Nat.add_mul_mod_self_left, Nat.mod_eq_of_lt hb]
  push_cast
  rfl

theorem granule_lt_count {m : MoveShape} {a b c : Nat} (ha : a < m.len / 64) (hb : b < m.n1) (hc : c < m.n2) :
    a + m.len / 64 * (b + m.n1 * c) < m.count := by
  have h1 : b + m.n1 * c < m.n1 * m.n2 := by nlinarith
  rw [MoveShape.count]
  nlinarith

/-- Values placed side by side, `w` bits each. -/
def placedSum (w : Nat) (f : Nat → Nat) (n : Nat) : Nat := (List.range n).foldl (fun x i => x + f i * 2 ^ (w * i)) 0

theorem placedSum_succ (w : Nat) (f : Nat → Nat) (n : Nat) : placedSum w f (n + 1) = placedSum w f n + f n * 2 ^ (w * n) := by
  rw [placedSum, List.range_succ, List.foldl_append]
  rfl

theorem placedSum_lt {w : Nat} {f : Nat → Nat} (hf : ∀ i, f i < 2 ^ w) : ∀ n, placedSum w f n < 2 ^ (w * n)
  | 0 => by simp [placedSum]
  | n + 1 => by
    have h := placedSum_lt hf n
    have hn : (f n + 1) * 2 ^ (w * n) ≤ 2 ^ w * 2 ^ (w * n) := Nat.mul_le_mul_right _ (hf n)
    rw [placedSum_succ, Nat.mul_succ, pow_add, Nat.mul_comm (2 ^ (w * n))]
    linarith

theorem placedSum_part {w : Nat} {f : Nat → Nat} (hf : ∀ i, f i < 2 ^ w) : ∀ {n i : Nat}, i < n → placedSum w f n / 2 ^ (w * i) % 2 ^ w = f i
  | n + 1, i, hi => by
    rw [placedSum_succ]
    obtain rfl | hlt := Nat.eq_or_lt_of_le (Nat.lt_succ_iff.1 hi)
    · rw [Nat.add_mul_div_right _ _ (Nat.two_pow_pos _), Nat.div_eq_of_lt (placedSum_lt hf i), Nat.zero_add, Nat.mod_eq_of_lt (hf i)]
    · obtain ⟨q, rfl⟩ := Nat.exists_eq_add_of_lt hlt
      have hsplit : f (i + q + 1) * 2 ^ (w * (i + q + 1)) = f (i + q + 1) * 2 ^ (w * q) * 2 ^ w * 2 ^ (w * i) := by
        rw [mul_assoc, mul_assoc, ← pow_add, ← pow_add]
        ring_nf
      rw [hsplit, Nat.add_mul_div_right _ _ (Nat.two_pow_pos _), Nat.add_mul_mod_self_right]
      exact placedSum_part hf hlt

/-- A CPSET's granule is its pattern eight times (R196). -/
theorem patternNat_word (p : Word) {i : Nat} (hi : i < 8) : patternNat p / 2 ^ (64 * i) % 2 ^ 64 = p.toNat :=
  placedSum_part (f := fun _ => p.toNat) (fun _ => p.isLt) hi

section
variable {s : State} {k : Nat} {j : Job} {m : MoveShape} {g : Nat} (hg : g < m.count)
include hg

theorem sampleCycle_cpmov (hkind : j.kind = .cpmov m) : sampleCycle s k j (g + 1) =
    .ok (puts s k j (g + 1 + 2 + spanOf j.run (blkSt (m.src / 2 ^ 18 % 8)) cpoSt + spanOf j.run cpoSt (blkSt (m.dst / 2 ^ 18 % 8))) g
      (.spad (m.dstAt g) 64 (2 ^ 64 - 1) (Memory.readNat (getCore s k).spad (m.srcAt g) 64) j.lc)) j := by
  have hcycle : sampleCycle s k j (g + 1) = cpmovCycle s k j m (g + 1) := by rw [sampleCycle, hkind]
  exact hcycle.trans (if_pos ⟨Nat.le_add_left 1 g, hg⟩)

theorem sampleCycle_cpset {p : Word} (hkind : j.kind = .cpset m p false) : sampleCycle s k j (g + 1) =
    .ok (puts s k j (g + 1 + 1 + spanOf j.run cpoSt (blkSt (m.dst / 2 ^ 18 % 8))) g (.spad (m.dstAt g) 64 (2 ^ 64 - 1) (patternNat p) j.lc)) j := by
  have hcycle : sampleCycle s k j (g + 1) = cpsetCycle s k j m p (g + 1) := by simp [sampleCycle, hkind]
  exact hcycle.trans (if_pos ⟨Nat.le_add_left 1 g, hg⟩)

theorem sampleCycle_cpst {key : Nat} {r : List Nat} (hkind : j.kind = .cpst m) (hnums : j.nums = key :: r) : sampleCycle s k j (g + 1) =
    .ok (puts s k j (g + 1 + 1279) g (.memWrite key 64 (2 ^ 64 - 1) (Memory.readNat (getCore s k).spad (m.srcAt g) 64) j.lc))
      { j with nums := r } := by
  have hcycle : sampleCycle s k j (g + 1) = cpstSample s k j m (g + 1) := by rw [sampleCycle, hkind]
  refine hcycle.trans ((if_pos ⟨Nat.le_add_left 1 g, hg⟩).trans ?_)
  rw [hnums]
  rfl

theorem requests_cpld (hkind : j.kind = .cpld m) : requests s k j g (m.srcAt g) 64 64 3 g [1] fun key u =>
    .ok (puts u k j (g + 1279) g (.memRead key 64 (.spad (m.dstAt g) j.lc))) j := by
  have hcycle : requestCycle s k j g = cpldRequest s k j m g := by rw [requestCycle, hkind]
  exact requests_of_request (hcycle.trans (if_pos hg))

theorem requests_cpset {p : Word} (hkind : j.kind = .cpset m p true) : requests s k j g (m.dstAt g) 64 64 4 g [2] fun key u =>
    .ok (puts u k j (g + 1280) g (.memWrite key 64 (2 ^ 64 - 1) (patternNat p) j.lc)) j := by
  have hcycle : requestCycle s k j g = cpsetRequest s k j m p g := by simp [requestCycle, hkind]
  exact requests_of_request (hcycle.trans (if_pos hg))

theorem requests_cpst (hkind : j.kind = .cpst m) : requests s k j g (m.dstAt g) 64 64 4 g [2] fun key u =>
    .ok u { j with nums := j.nums ++ [key] } := by
  have hcycle : requestCycle s k j g = cpstRequest s k j m g := by rw [requestCycle, hkind]
  exact requests_of_request (hcycle.trans (if_pos hg))

end

-- Sum cells and puts (R210, R212) ----------------------------------------------------------------------------------------------------------------------

section
variable {s : State} {k : Nat} {j : Job} {x n : Nat} {ty : Ty}

theorem requests_cpatom {cell : Nat} {per : Bool} {t : Nat} (hkind : j.kind = .cpatom x cell n ty per) (ht : t < n) :
    requests s k j t (if per = true then (cell + 64 * t) % 2 ^ 64 else cell) 64 64 6 t [3] fun key u => .ok u { j with nums := j.nums ++ [key] } := by
  have hcycle : requestCycle s k j t = cpatomRequest s k j cell n per t := by rw [requestCycle, hkind]
  exact requests_of_request (hcycle.trans (if_pos ht))

theorem sampleCycle_cpatom {cell i key : Nat} {r : List Nat} {per : Bool} (hkind : j.kind = .cpatom x cell n ty per) (hi : i < n)
    (hnums : j.nums = key :: r) : sampleCycle s k j (i + 1) =
      .ok (puts s k j (i + 1 + 1279) i (.cellAdd key ty (Memory.readNat (getCore s k).spad (x + Ty.size ty * i) (Ty.size ty))))
        { j with nums := r } := by
  have hcycle : sampleCycle s k j (i + 1) = cpatomSample s k j x n ty (i + 1) := by rw [sampleCycle, hkind]
  refine hcycle.trans ((if_pos ⟨Nat.le_add_left 1 i, hi⟩).trans ?_)
  rw [hnums]
  rfl

theorem getCore_leaveNow (s : State) (k : Nat) (j : Job) (t sub : Nat) (e : Effect) : getCore (leaveNow s k j t sub e) k =
    { getCore s k with leaving := (getCore s k).leaving ++ [jobFlight j t sub e] } :=
  getCore_modCore s k (fun c => { c with leaving := c.leaving ++ [jobFlight j t sub e] }) (leaving_ne_blank _ _)

theorem getCore_leaveNow_ne (s : State) {k q : Nat} (j : Job) (t sub : Nat) (e : Effect) (h : q ≠ k) :
    getCore (leaveNow s k j t sub e) q = getCore s q :=
  getCore_modCore_ne s (fun c => { c with leaving := c.leaving ++ [jobFlight j t sub e] }) h

/-- A granule of a put goes into its transfer, and is noted as leaving the core; nothing else changes. -/
theorem sampleCycle_put {off win lc i : Nat} (hkind : j.kind = .put x off n win lc) (hi : i < n / 64) : ∃ u, sampleCycle s k j (i + 1) = .ok u j ∧
    u.xfers = s.xfers.map (fun y => if j.nums.head? = some y.id then
      { y with data := Memory.writeNat y.data (64 * i) 64 (Memory.readNat (getCore s k).spad (x + 64 * i) 64), read := 64 * (i + 1) } else y) ∧
    u.mem = s.mem ∧ u.domains = s.domains ∧ (∀ q, q ≠ k → getCore u q = getCore s q) ∧ (getCore u k).spad = (getCore s k).spad ∧
    (getCore u k).inflight = (getCore s k).inflight := by
  have hcore := getCore_leaveNow s k j (i + 1) (i + 1) (.spad (x + 64 * i) 64 (2 ^ 64 - 1) (spadNat s k (x + 64 * i) 64) none)
  have hcycle : sampleCycle s k j (i + 1) = putCycle s k j x n (i + 1) := by rw [sampleCycle, hkind]
  refine ⟨_, hcycle.trans (if_pos ⟨Nat.le_add_left 1 i, hi⟩), rfl, rfl, rfl, fun q hq => getCore_leaveNow_ne s j _ _ _ hq, (congrArg CoreState.spad hcore).trans rfl,
    (congrArg CoreState.inflight hcore).trans rfl⟩

end

-- Sends (R214) --------------------------------------------------------------------------------------------------------------------------------------

/-- A beat is given to the receiving core and to its pair partner. -/
theorem addBoth_eq (s : State) (d : Domain) (r : Nat) (f : Flight) : addBoth s d r f =
    match partnerOf d r with
    | some q => addFlight (addFlight s r f) q f
    | none => addFlight s r f := by
  rw [addBoth, bothOf]
  cases partnerOf d r <;> rfl

/-- Beat `i` as the exchange of the core delivers it. -/
def beatOf (k : Nat) (j : Job) (d : Domain) (r raddr rrun i v : Nat) : Flight :=
  ⟨j.issue + exchangeLatency k r + i, cpoSt, .cp, j.seq, j.issue, i, false, .beat (raddr + 128 * i) (BitVec.ofNat 1024 v) (relOf d k) rrun, none, j.evt⟩

/-- The beat read in a cycle is on its way, and the one that reaches the exchange port leaves (R214). -/
theorem sampleCycle_send {s : State} {k : Nat} {j : Job} {x r raddr rrun beats i : Nat} {d : Domain} (hkind : j.kind = .send x r raddr rrun beats)
    (hd : domOf s k = some d) (hst : d.status ≠ .catchUp) (hi : i < beats) :
    let v := Memory.readNat (getCore s k).spad (x + 128 * i) 128
    let now := { j with buf := Memory.writeNat j.buf (128 * i) 128 v }
    let u := if primaryOf d k = k then addBoth s d r (beatOf k j d r raddr rrun i v) else s
    let first := 2 + spanOf j.run (blkSt (x / 2 ^ 18 % 8)) xpSt
    sampleCycle s k j (i + 1) = if first ≤ i + 1 then .ok (sendBeat u d k now r raddr (i + 1) (i + 1 - first)) now else .ok u now := by
  intro v now u first
  have hreads : (decide (1 ≤ i + 1) && decide (i + 1 ≤ beats)) = true := by
    rw [Bool.and_eq_true, decide_eq_true_eq, decide_eq_true_eq]
    omega
  have hlate : (first ≤ i + 1 ∧ i + 1 < first + beats) ↔ first ≤ i + 1 := by omega
  have hu : (if (true && primaryOf d k == k) = true then addBoth s d r (beatFlight now (relOf d k) (exchangeLatency k r) raddr rrun i v) else s) = u :=
    if_congr (by rw [Bool.true_and, beq_iff_eq]) rfl rfl
  rw [sampleCycle, hkind]
  change sendCycle s k j x r raddr rrun beats (i + 1) = _
  unfold sendCycle
  rw [hd]
  dsimp only
  rw [hreads]
  rw [if_neg fun h => hst h.2.1]
  simp only [if_true, Nat.add_sub_cancel]
  exact if_congr hlate (congrArg (fun u => JobRes.ok (sendBeat u d k now r raddr (i + 1) (i + 1 - first)) now) hu)
    (congrArg (fun u => JobRes.ok u now) hu)

/-- Settles O31: each kind's cycle and its request, by the place of its granule. -/
theorem copyCyclesMoveTheirGranules : Obligations.CopyCyclesMoveTheirGranules := by
  unfold Obligations.CopyCyclesMoveTheirGranules
  intro s k j m t a b c _ ha hb hc g at' src dst bytes pattern
  have hg : g < m.count := granule_lt_count ha hb hc
  have hsrc : m.srcAt g = src := granuleAt_eq m m.src m.ss1 m.ss2 c ha hb
  have hdst : m.dstAt g = dst := granuleAt_eq m m.dst m.ds1 m.ds2 c ha hb
  refine ⟨?_, ?_, ?_, ?_, ?_, ?_, ?_, ?_, ?_⟩
  · rintro hkind rfl
    have h := sampleCycle_cpmov (s := s) (k := k) hg hkind
    rwa [hsrc, hdst] at h
  · rintro p hkind rfl
    have h := sampleCycle_cpset (s := s) (k := k) hg hkind
    rw [hdst] at h
    exact ⟨patternNat p, fun i hi => patternNat_word p hi, h⟩
  · rintro hkind rfl
    have h := requests_cpld (s := s) (k := k) hg hkind
    rwa [hsrc, hdst] at h
  · rintro p hkind rfl
    have h := requests_cpset (s := s) (k := k) hg hkind
    rw [hdst] at h
    exact ⟨patternNat p, fun i hi => patternNat_word p hi, h⟩
  · rintro hkind rfl
    have h := requests_cpst (s := s) (k := k) hg hkind
    rwa [hdst] at h
  · rintro key r hkind rfl hnums
    have h := sampleCycle_cpst (s := s) (k := k) hg hkind hnums
    rwa [hsrc] at h
  · intro x cell n ty per hkind
    refine ⟨fun ht => requests_cpatom hkind ht, ?_⟩
    rintro i key r rfl hi hnums
    exact sampleCycle_cpatom hkind hi hnums
  · rintro x off len win lc i hkind rfl hi
    exact sampleCycle_put hkind hi
  · rintro x r raddr rrun beats i d hkind hd hst rfl hi L v f now u first
    have h := sampleCycle_send hkind hd hst hi
    simp only [addBoth_eq] at h
    exact ⟨fun ht => h.trans (if_neg (Nat.not_le.2 ht)), fun ht => h.trans (if_pos ht)⟩

end Sys2Proof.Proofs
end

