-- ==== Sys2Proof/Proofs/CastStreams.lean ====
section
/-! PROOF. Cast streams in progress (R197, R198): the model's decoder gives exactly the valid cast blocks (R333 to R335), and what a cycle
requests, reads, lands and raises. -/

namespace Sys2Proof.Proofs

open Sys2Proof Sys2Proof.Machine Sys2Proof.Claims Sys2Proof.Laws

-- Bytes and parts of numbers ---------------------------------------------------------------------------------------------------------------------

theorem readNat_lt (m : Memory) : ∀ (x n : Nat), Memory.readNat m x n < 2 ^ (8 * n)
  | _, 0 => Nat.one_pos
  | x, n + 1 => by
    have h := readNat_lt m (x + 1) n
    have hb := (Memory.read m x).isLt
    rw [Memory.readNat, Nat.mul_succ, pow_add]
    omega

theorem readNat_eq_zero_iff (m : Memory) : ∀ (x n : Nat), Memory.readNat m x n = 0 ↔ ∀ q, x ≤ q → q < x + n → Memory.read m q = 0
  | x, 0 => iff_of_true rfl fun q hq hlt => absurd hlt (Nat.not_lt.2 hq)
  | x, n + 1 => by
    have ih := readNat_eq_zero_iff m (x + 1) n
    have hb : (Memory.read m x).toNat = 0 ↔ Memory.read m x = 0 := BitVec.toNat_inj (y := 0)
    rw [Memory.readNat, Nat.add_eq_zero_iff, Nat.mul_eq_zero, or_iff_right (by decide), ih, hb]
    constructor
    · rintro ⟨h0, h⟩ q hq hlt
      obtain rfl | hne := Nat.eq_or_lt_of_le hq
      · exact h0
      · exact h q hne (by omega)
    · exact fun h => ⟨h x le_rfl (by omega), fun q hq hlt => h q (by omega) (by omega)⟩

/-- A number is its parts, placed side by side. -/
theorem placedSum_parts (w v : Nat) : ∀ n, placedSum w (fun i => v / 2 ^ (w * i) % 2 ^ w) n = v % 2 ^ (w * n)
  | 0 => by simp [placedSum, Nat.mod_one]
  | n + 1 => by
    rw [placedSum_succ, placedSum_parts w v n, Nat.mul_succ, pow_add, Nat.mod_mul]
    ring

theorem placedSum_congr {w : Nat} {f g : Nat → Nat} : ∀ {n : Nat}, (∀ i, i < n → f i = g i) → placedSum w f n = placedSum w g n
  | 0, _ => rfl
  | n + 1, h => by
    rw [placedSum_succ, placedSum_succ, placedSum_congr fun i hi => h i (Nat.lt_succ_of_lt hi), h n (Nat.lt_succ_self n)]

theorem eq_placedSum_iff {w : Nat} {f : Nat → Nat} (hf : ∀ i, f i < 2 ^ w) (n v : Nat) :
    v = placedSum w f n ↔ v < 2 ^ (w * n) ∧ ∀ i, i < n → v / 2 ^ (w * i) % 2 ^ w = f i := by
  constructor
  · rintro rfl
    exact ⟨placedSum_lt hf n, fun i hi => placedSum_part hf hi⟩
  · rintro ⟨hv, hparts⟩
    rw [← placedSum_congr hparts, placedSum_parts, Nat.mod_eq_of_lt hv]

-- Cast blocks (R333 to R335) ---------------------------------------------------------------------------------------------------------------------

/-- The methods of a header, and the length in words that each requires. -/
def CastMethod (h c : Nat) : Prop := h / 2 ^ 29 = 0 ∧
  ((h % 8 = 1 ∧ h / 8 % 2 ^ 8 = 0 ∧ c = 1) ∨ (h % 8 = 2 ∧ h / 8 % 2 ^ 8 = 0 ∧ c = 2) ∨
   (h % 8 = 3 ∧ 1 ≤ h / 2 ^ 5 % 2 ^ 6 ∧ h / 2 ^ 5 % 2 ^ 6 ≤ 8 * 2 ^ (h / 2 ^ 3 % 4) ∧ h / 2 ^ 5 % 2 ^ 6 ≤ 32 ∧
    c = 2 + (256 / 2 ^ (h / 2 ^ 3 % 4) * (h / 2 ^ 5 % 2 ^ 6) + 63) / 64 ∧ c ≤ 33) ∨
   (h % 8 = 4 ∧ h / 8 % 2 ^ 8 = 0 ∧ c = 33))

theorem castClen_eq_some_iff {h : Nat} (hh : h < 2 ^ 64) (c : Nat) : castClen h = some c ↔ CastMethod h c := by
  have h29 : bits h 29 35 = h / 2 ^ 29 := by
    simp only [bits]
    omega
  have h0 : bits h 0 3 = h % 8 := by simp only [bits]; omega
  have h3 : bits h 3 8 = h / 8 % 2 ^ 8 := rfl
  have hw : bits h 5 6 = h / 2 ^ 5 % 2 ^ 6 := rfl
  have he : bits h 3 2 = h / 2 ^ 3 % 4 := rfl
  unfold castClen CastMethod
  rw [h29, h0, h3, hw, he]
  generalize h / 2 ^ 29 = r, h % 8 = mth, h / 8 % 2 ^ 8 = rest, h / 2 ^ 5 % 2 ^ 6 = dw, 2 ^ (h / 2 ^ 3 % 4) = es
  dsimp only
  generalize 2 + (256 / es * dw + 63) / 64 = k
  by_cases hm : mth = 3
  · rw [if_pos hm]
    split_ifs <;> simp only [Option.some.injEq, false_iff] <;> omega
  · rw [if_neg hm]
    split_ifs <;> simp only [Option.some.injEq, false_iff] <;> omega

/-- The element of a BDELTA block is its base and its delta, wrapped (R335). -/
theorem castElement_lt (es dw base ds i : Nat) : castElement es dw base ds i < 2 ^ (8 * es) := by
  have h := Int.emod_lt_of_pos ((base : Int) + asSigned dw (bits ds (i * dw) dw)) (b := 2 ^ (8 * es)) (by positivity)
  have h0 := Int.emod_nonneg ((base : Int) + asSigned dw (bits ds (i * dw) dw)) (b := 2 ^ (8 * es)) (by positivity)
  have hcast : (castElement es dw base ds i : Int) < ((2 ^ (8 * es) : Nat) : Int) := by
    push_cast
    exact (Int.toNat_of_nonneg h0).trans_lt h
  exact_mod_cast hcast

theorem eq_castElement_iff (es dw base ds i x : Nat) : x = castElement es dw base ds i ↔
    (x : Int) = ((base : Int) + if 2 ^ (dw - 1) ≤ ds / 2 ^ (i * dw) % 2 ^ dw then
      ((ds / 2 ^ (i * dw) % 2 ^ dw : Nat) : Int) - (2 : Int) ^ dw else (ds / 2 ^ (i * dw) % 2 ^ dw : Nat)) % 2 ^ (8 * es) := by
  have hs : asSigned dw (bits ds (i * dw) dw) = if 2 ^ (dw - 1) ≤ ds / 2 ^ (i * dw) % 2 ^ dw then
      ((ds / 2 ^ (i * dw) % 2 ^ dw : Nat) : Int) - (2 : Int) ^ dw else (ds / 2 ^ (i * dw) % 2 ^ dw : Nat) := by
    by_cases hneg : 2 ^ (dw - 1) ≤ ds / 2 ^ (i * dw) % 2 ^ dw
    · rw [if_pos hneg]
      exact if_neg (Nat.not_lt.2 hneg)
    · rw [if_neg hneg]
      exact if_pos (Nat.lt_of_not_le hneg)
  have h0 := Int.emod_nonneg ((base : Int) + asSigned dw (bits ds (i * dw) dw)) (b := 2 ^ (8 * es)) (by positivity)
  rw [← hs, ← Int.toNat_of_nonneg h0, castElement, Nat.cast_inj]
  rfl

/-- The bytes of 256 in elements of 1, 2, 4 or 8 bytes. -/
theorem elements_fill {q : Nat} (hq : q < 4) : 8 * 2 ^ q * (256 / 2 ^ q) = 2048 := by
  interval_cases q <;> rfl

/-- What a block's method makes of its words (R334, R335): the 256 bytes. -/
def castContentIs (m : Memory) (p h c v : Nat) : Prop :=
  (h % 8 = 1 ∧ v = 0) ∨ (h % 8 = 2 ∧ v < 2 ^ 2048 ∧ ∀ i, i < 32 → v / 2 ^ (64 * i) % 2 ^ 64 = Memory.readNat m (p + 8) 8) ∨
  (h % 8 = 4 ∧ v = Memory.readNat m (p + 8) 256) ∨
  (h % 8 = 3 ∧ Memory.readNat m (p + 8) 8 < 2 ^ (8 * 2 ^ (h / 2 ^ 3 % 4)) ∧ v < 2 ^ 2048 ∧ ∀ i, i < 256 / 2 ^ (h / 2 ^ 3 % 4) →
    v / 2 ^ (8 * 2 ^ (h / 2 ^ 3 % 4) * i) % 2 ^ (8 * 2 ^ (h / 2 ^ 3 % 4)) = castElement (2 ^ (h / 2 ^ 3 % 4)) (h / 2 ^ 5 % 2 ^ 6)
      (Memory.readNat m (p + 8) 8) (Memory.readNat m (p + 16) (8 * (c - 2))) i)

/-- A repeated word fills the 256 bytes. -/
theorem repeated_word_iff (m : Memory) (p v : Nat) :
    some ((List.range 32).foldl (fun a i => a + Memory.readNat m p 8 * 2 ^ (64 * i)) 0, 16) = some (v, 16) ↔
      v < 2 ^ 2048 ∧ ∀ i, i < 32 → v / 2 ^ (64 * i) % 2 ^ 64 = Memory.readNat m p 8 := by
  rw [← eq_placedSum_iff (w := 64) (f := fun _ => Memory.readNat m p 8) (fun _ => readNat_lt m p 8) 32 v, Option.some_inj, Prod.mk.injEq,
    and_iff_left rfl, eq_comm]
  rfl

/-- The deltas of a block fill the 256 bytes. -/
theorem deltas_iff {q : Nat} (hq : q < 4) (dw base ds v len : Nat) :
    some ((List.range (256 / 2 ^ q)).foldl (fun a i => a + castElement (2 ^ q) dw base ds i * 2 ^ (8 * 2 ^ q * i)) 0, len) = some (v, len) ↔
      v < 2 ^ 2048 ∧ ∀ i, i < 256 / 2 ^ q → v / 2 ^ (8 * 2 ^ q * i) % 2 ^ (8 * 2 ^ q) = castElement (2 ^ q) dw base ds i := by
  rw [← elements_fill hq, ← eq_placedSum_iff (fun i => castElement_lt _ _ _ _ i), Option.some_inj, Prod.mk.injEq, and_iff_left rfl, eq_comm]
  rfl

theorem castContentIs_lt {m : Memory} {p h c v : Nat} (hv : castContentIs m p h c v) : v < 2 ^ 2048 := by
  obtain ⟨-, h0⟩ | ⟨-, hlt, -⟩ | ⟨-, hword⟩ | ⟨-, -, hlt, -⟩ := hv
  · exact h0 ▸ Nat.two_pow_pos 2048
  · exact hlt
  · rw [hword]
    exact readNat_lt m (p + 8) 256
  · exact hlt

section
variable {m : Memory} {p h c v : Nat}

theorem castContent_of_clear (hm : h % 8 = 1) : castContentIs m p h c v ↔ v = 0 := by
  simp only [castContentIs, hm, Nat.reduceEqDiff, false_and, true_and, or_false]

theorem castContent_of_repeat (hm : h % 8 = 2) : castContentIs m p h c v ↔
    v < 2 ^ 2048 ∧ ∀ i, i < 32 → v / 2 ^ (64 * i) % 2 ^ 64 = Memory.readNat m (p + 8) 8 := by
  simp only [castContentIs, hm, Nat.reduceEqDiff, false_and, true_and, false_or, or_false]

theorem castContent_of_raw (hm : h % 8 = 4) : castContentIs m p h c v ↔ v = Memory.readNat m (p + 8) 256 := by
  simp only [castContentIs, hm, Nat.reduceEqDiff, false_and, true_and, false_or, or_false]

theorem castContent_of_deltas (hm : h % 8 = 3) : castContentIs m p h c v ↔
    Memory.readNat m (p + 8) 8 < 2 ^ (8 * 2 ^ (h / 2 ^ 3 % 4)) ∧ v < 2 ^ 2048 ∧ ∀ i, i < 256 / 2 ^ (h / 2 ^ 3 % 4) →
      v / 2 ^ (8 * 2 ^ (h / 2 ^ 3 % 4) * i) % 2 ^ (8 * 2 ^ (h / 2 ^ 3 % 4)) = castElement (2 ^ (h / 2 ^ 3 % 4)) (h / 2 ^ 5 % 2 ^ 6)
        (Memory.readNat m (p + 8) 8) (Memory.readNat m (p + 16) (8 * (c - 2))) i := by
  simp only [castContentIs, hm, Nat.reduceEqDiff, false_and, true_and, false_or]

end

/-- A valid block: a method with its length, the framing, and the content. -/
theorem castBlockIs_iff (m : Memory) (p B v len : Nat) : castBlockIs m p B v len ↔
    CastMethod (Memory.readNat m p 8) (Memory.readNat m p 8 / 2 ^ 11 % 2 ^ 9) ∧ Memory.readNat m p 8 / 2 ^ 20 % 2 ^ 9 = 256 ∧
      len = 8 * (Memory.readNat m p 8 / 2 ^ 11 % 2 ^ 9) ∧ p + len ≤ B ∧
      castContentIs m p (Memory.readNat m p 8) (Memory.readNat m p 8 / 2 ^ 11 % 2 ^ 9) v := by
  unfold castBlockIs CastMethod
  simp only [← eq_castElement_iff]
  generalize Memory.readNat m p 8 = h
  constructor
  · rintro ⟨hr, h256, hlen, hB, hv, ⟨h1, h2, h3, h4⟩ | ⟨h1, h2, h3, h4⟩ | ⟨h1, h2, h3, h4, h5, h6, h7, h8⟩ | ⟨h1, h2, h3, h4⟩⟩
    · exact ⟨⟨hr, .inl ⟨h1, h2, h3⟩⟩, h256, hlen, hB, (castContent_of_clear h1).2 h4⟩
    · exact ⟨⟨hr, .inr (.inl ⟨h1, h2, h3⟩)⟩, h256, hlen, hB, (castContent_of_repeat h1).2 ⟨hv, h4⟩⟩
    · exact ⟨⟨hr, .inr (.inr (.inl ⟨h1, h2, h3, h4, h5, h6⟩))⟩, h256, hlen, hB, (castContent_of_deltas h1).2 ⟨h7, hv, h8⟩⟩
    · exact ⟨⟨hr, .inr (.inr (.inr ⟨h1, h2, h3⟩))⟩, h256, hlen, hB, (castContent_of_raw h1).2 h4⟩
  · rintro ⟨⟨hr, hm⟩, h256, hlen, hB, hc⟩
    refine ⟨hr, h256, hlen, hB, castContentIs_lt hc, ?_⟩
    obtain ⟨h1, h2, h3⟩ | ⟨h1, h2, h3⟩ | ⟨h1, hd, hd8, hd32, hclen, hmax⟩ | ⟨h1, h2, h3⟩ := hm
    · exact .inl ⟨h1, h2, h3, (castContent_of_clear h1).1 hc⟩
    · exact .inr (.inl ⟨h1, h2, h3, ((castContent_of_repeat h1).1 hc).2⟩)
    · obtain ⟨hword, -, hd⟩ := (castContent_of_deltas h1).1 hc
      exact .inr (.inr (.inl ⟨h1, ‹_›, hd8, hd32, hclen, hmax, hword, hd⟩))
    · exact .inr (.inr (.inr ⟨h1, h2, h3, (castContent_of_raw h1).1 hc⟩))

/-- A base that is no wider than its element (log 86). -/
theorem base_fits {q w : Nat} (hq : q < 4) (hw : w < 2 ^ 64) (h : ¬ (2 ^ q < 8 ∧ w / 2 ^ (8 * 2 ^ q) ≠ 0)) : w < 2 ^ (8 * 2 ^ q) := by
  obtain rfl | hlt := Nat.eq_or_lt_of_le (Nat.lt_succ_iff.1 hq)
  · exact hw
  · refine Nat.lt_of_div_eq_zero (Nat.two_pow_pos _) (not_not.1 fun hne => h ⟨?_, hne⟩)
    exact Nat.pow_lt_pow_right (by decide) hlt

theorem some_pair_iff {α β : Type} (a v : α) (b len : β) : some (a, b) = some (v, len) ↔ len = b ∧ v = a := by
  rw [Option.some_inj, Prod.mk.injEq, and_comm, eq_comm, eq_comm (a := a)]

/-- The content that the model gives for a method. -/
theorem castBlock_content {m : Memory} {p B c : Nat} (hclen : castClen (Memory.readNat m p 8) = some c)
    (hframe : ¬ (p + 8 > B ∨ bits (Memory.readNat m p 8) 11 9 ≠ c ∨ bits (Memory.readNat m p 8) 20 9 ≠ 256 ∨ p + 8 * c > B)) (v len : Nat) :
    castBlock m p B = some (v, len) ↔ len = 8 * c ∧ castContentIs m p (Memory.readNat m p 8) c v := by
  have hh : Memory.readNat m p 8 < 2 ^ 64 := readNat_lt m p 8
  obtain ⟨-, hm⟩ := (castClen_eq_some_iff hh c).1 hclen
  have hmth : bits (Memory.readNat m p 8) 0 3 = Memory.readNat m p 8 % 8 := by simp only [bits]; omega
  unfold castBlock
  dsimp only
  rw [hclen]
  dsimp only
  rw [if_neg hframe, hmth]
  obtain ⟨h1, -, rfl⟩ | ⟨h1, -, rfl⟩ | ⟨h1, -, -, -, -, -⟩ | ⟨h1, -, rfl⟩ := hm
  · rw [castContent_of_clear h1, h1]
    exact some_pair_iff _ _ _ _
  · rw [castContent_of_repeat h1, h1, ← repeated_word_iff m (p + 8) v]
    change some (_, 16) = some (v, len) ↔ _
    rw [some_pair_iff, some_pair_iff, and_iff_right rfl]
  · have hbits : bits (Memory.readNat m p 8) 3 2 = Memory.readNat m p 8 / 2 ^ 3 % 4 := rfl
    have hq : Memory.readNat m p 8 / 2 ^ 3 % 4 < 4 := Nat.mod_lt _ (by decide)
    rw [castContent_of_deltas h1, h1, hbits, ← deltas_iff hq _ _ _ v (8 * c)]
    change (if _ then none else some (_, 8 * c)) = some (v, len) ↔ _
    split
    next hbase =>
      refine iff_of_false (by simp) ?_
      rintro ⟨-, hword, -⟩
      exact hbase.2 (Nat.div_eq_of_lt hword)
    next hbase =>
      rw [some_pair_iff, some_pair_iff, and_iff_right rfl, and_iff_right (base_fits hq (readNat_lt m (p + 8) 8) hbase)]
  · rw [castContent_of_raw h1, h1]
    exact some_pair_iff _ _ _ _

/-- The model decodes exactly the valid blocks. -/
theorem castBlock_eq_some_iff (m : Memory) (p B v len : Nat) : castBlock m p B = some (v, len) ↔ castBlockIs m p B v len := by
  have hiff := castClen_eq_some_iff (readNat_lt m p 8)
  rw [castBlockIs_iff, ← hiff]
  cases hc : castClen (Memory.readNat m p 8) with
  | none =>
    refine iff_of_false ?_ fun h => absurd h.1 (by simp)
    unfold castBlock
    dsimp only
    rw [hc]
    simp
  | some c =>
    by_cases hframe : p + 8 > B ∨ bits (Memory.readNat m p 8) 11 9 ≠ c ∨ bits (Memory.readNat m p 8) 20 9 ≠ 256 ∨ p + 8 * c > B
    · refine iff_of_false ?_ ?_
      · unfold castBlock
        dsimp only
        rw [hc]
        dsimp only
        rw [if_pos hframe]
        simp
      · rintro ⟨hclen, h256, rfl, hB, -⟩
        obtain rfl := Option.some_inj.1 hclen
        have hpos : 1 ≤ Memory.readNat m p 8 / 2 ^ 11 % 2 ^ 9 := by
          obtain ⟨-, h⟩ := (hiff _).1 hc
          omega
        obtain h | h | h | h := hframe
        · omega
        · exact h rfl
        · exact h h256
        · omega
    · rw [castBlock_content hc hframe, Option.some_inj]
      have hclen : c = Memory.readNat m p 8 / 2 ^ 11 % 2 ^ 9 := by
        by_contra hne
        exact hframe (.inr (.inl (Ne.symm hne)))
      have h256 : Memory.readNat m p 8 / 2 ^ 20 % 2 ^ 9 = 256 := by
        by_contra hne
        exact hframe (.inr (.inr (.inl hne)))
      have hB : p + 8 * c ≤ B := Nat.le_of_not_lt fun hlt => hframe (.inr (.inr (.inr hlt)))
      subst hclen
      exact ⟨fun ⟨h1, h2⟩ => ⟨rfl, h256, h1, h1 ▸ hB, h2⟩, fun ⟨_, _, h1, _, h2⟩ => ⟨h1, h2⟩⟩

theorem zeroRun_iff {m : Memory} {p B : Nat} (h : p ≤ B) : zeroRun m p (B - p) = true ↔ ∀ q, p ≤ q → q < B → Memory.read m q = 0 := by
  rw [zeroRun, beq_iff_eq, readNat_eq_zero_iff, Nat.add_sub_cancel' h]

-- A cycle of a cast stream (R197, R198) ------------------------------------------------------------------------------------------------------------

section
variable {s : State} {k : Nat} {j : Job} {src dst E B t : Nat} {mem : Bool}

/-- The command after the granule that the cycle reads, one of a CPDEC. -/
def castRead (s : State) (k : Nat) (j : Job) (src B t : Nat) (mem : Bool) : Job :=
  if mem = false ∧ 1 ≤ t ∧ t ≤ B / 64 then
    { j with buf := Memory.writeNat j.buf (64 * (t - 1)) 64 (Memory.readNat (getCore s k).spad (src + 64 * (t - 1)) 64) } else j

theorem sampleCycle_cast (hkind : j.kind = .cast src dst E B mem) :
    sampleCycle s k j t = castDecode s k (castRead s k j src B t mem) dst E B (if mem then 1300 else 32) t := by
  have hcycle : sampleCycle s k j t = castCycle s k j src dst E B mem t := by rw [sampleCycle, hkind]
  have hread : (if (!mem && decide (1 ≤ t) && decide (t ≤ B / 64)) = true then
      { j with buf := Memory.writeNat j.buf (64 * (t - 1)) 64 (spadNat s k (src + 64 * (t - 1)) 64) } else j) = castRead s k j src B t mem :=
    if_congr (by simp [and_assoc]) rfl rfl
  rw [hcycle, ← hread]
  rfl

theorem castRead_rest : (castRead s k j src B t mem).nums = j.nums ∧ (castRead s k j src B t mem).made = j.made := by
  rw [castRead]
  split
  · exact ⟨rfl, rfl⟩
  · exact ⟨rfl, rfl⟩

theorem puts_castRead (u : State) (n sub : Nat) (e : Effect) : puts u k (castRead s k j src B t mem) n sub e = puts u k j n sub e := by
  unfold puts castRead
  split <;> rfl

theorem requests_cast (hkind : j.kind = .cast src dst E B true) (ht : t < B / 64) : requests s k j t (src + 64 * t) 64 64 3 t [1, 4]
    fun key u => .ok (puts u k j (t + 1279) t (.memRead key 64 (.cast j.seq t))) j := by
  have hcycle : requestCycle s k j t = castRequest s k j src B t := by simp [requestCycle, hkind]
  exact requests_of_request (hcycle.trans (if_pos ht))

end

section
variable {s : State} {k : Nat} {j : Job} {dst E B t first : Nat}

/-- Decoding is over, or no block is due. -/
theorem castDecode_idle (h : j.made = 1 ∨ ∀ b, b ≤ E / 256 → t + 1 ≠ first + 5 * b) : castDecode s k j dst E B first t = .ok s j := by
  rw [castDecode]
  by_cases hmade : j.made = 1
  · exact if_pos hmade
  · refine (if_neg hmade).trans (if_neg ?_)
    rintro ⟨hfirst, hmod, hle⟩
    exact h.resolve_left hmade _ hle (by omega)

/-- A bad block, or bytes left over, end the decoding with a fault. -/
def castFails (s : State) (k : Nat) (j : Job) (t b : Nat) : JobRes :=
  .ok (puts s k j (t + 1) 0 (.raise 0x0C 0 [toWord b, toWord j.seq, 0, 0] b)) { j with made := 1 }

theorem castFails_castRead {src : Nat} {mem : Bool} (b : Nat) : castFails s k (castRead s k j src B t mem) t b =
    .ok (puts s k j (t + 1) 0 (.raise 0x0C 0 [toWord b, toWord j.seq, 0, 0] b)) { castRead s k j src B t mem with made := 1 } := by
  have hseq : (castRead s k j src B t mem).seq = j.seq := by
    rw [castRead]
    split <;> rfl
  rw [castFails, puts_castRead]
  exact congrArg (fun n => JobRes.ok (puts s k j (t + 1) 0 (.raise 0x0C 0 [toWord b, toWord n, 0, 0] b))
    { castRead s k j src B t mem with made := 1 }) hseq

/-- What a decoded block lands (R197). -/
def castLandings (s : State) (k : Nat) (j : Job) (dst t b v : Nat) : State :=
  [0, 1, 2, 3].foldl (fun u q =>
      addFlight u k ⟨j.issue + (t + 1 + q), j.station, j.stream, j.seq, j.issue, 4 * b + q, j.cmp,
        .spad (dst + 256 * b + 64 * q) 64 (2 ^ 64 - 1) (v / 2 ^ (512 * q) % 2 ^ 512) j.lc, if j.station = cpiSt then some 0 else none, j.evt⟩)
    (modCore s k (fun c => countEvent c 9 j.stream 1))

theorem castLandings_castRead {src : Nat} {mem : Bool} (b v : Nat) :
    castLandings s k (castRead s k j src B t mem) dst t b v = castLandings s k j dst t b v := by
  unfold castLandings castRead
  split <;> rfl

theorem castDecode_block {b : Nat} (hmade : j.made ≠ 1) (hb : b < E / 256) (ht : t + 1 = first + 5 * b) :
    castDecode s k j dst E B first t = match castBlock j.buf (j.nums.headD 0) B with
      | none => castFails s k j t b
      | some (v, len) => .ok (castLandings s k j dst t b v) { j with nums := [j.nums.headD 0 + len] } := by
  have hdue : first ≤ t + 1 ∧ (t + 1 - first) % 5 = 0 ∧ (t + 1 - first) / 5 ≤ E / 256 := by omega
  have hb' : (t + 1 - first) / 5 = b := by omega
  rw [castDecode, if_neg hmade, if_pos hdue]
  dsimp only
  rw [hb', if_neg (Nat.ne_of_lt hb)] <;> rfl

theorem castDecode_end (hmade : j.made ≠ 1) (ht : t + 1 = first + 5 * (E / 256)) :
    castDecode s k j dst E B first t = if j.nums.headD 0 ≤ B ∧ zeroRun j.buf (j.nums.headD 0) (B - j.nums.headD 0) = true then
      .ok s { j with made := 1, nums := [B] } else castFails s k j t (E / 256) := by
  have hdue : first ≤ t + 1 ∧ (t + 1 - first) % 5 = 0 ∧ (t + 1 - first) / 5 ≤ E / 256 := by omega
  have hb' : (t + 1 - first) / 5 = E / 256 := by omega
  rw [castDecode, if_neg hmade, if_pos hdue]
  dsimp only
  rw [hb', if_pos rfl]
  rfl

end

/-- Settles O32: the decoder's blocks are the valid ones, and each cycle's granule, landings and fault follow. -/
theorem castStreamsDecodeTheirBlocks : Obligations.CastStreamsDecodeTheirBlocks := by
  unfold Obligations.CastStreamsDecodeTheirBlocks
  intro s k j src dst E B t mem hkind now first p fails
  have hcycle : sampleCycle s k j t = castDecode s k now dst E B first t := sampleCycle_cast hkind
  obtain ⟨hnums, hmade⟩ : now.nums = j.nums ∧ now.made = j.made := castRead_rest
  have hp : now.nums.headD 0 = p := congrArg (fun l => List.headD l 0) hnums
  have hfails : ∀ b, castFails s k now t b =
      .ok (puts s k j (t + 1) 0 (.raise 0x0C 0 [toWord b, toWord j.seq, 0, 0] b)) { now with made := 1 } := fun b => castFails_castRead b
  refine ⟨fun hmem ht => ?_, fun h => ?_, fun b hm hb ht => ⟨fun v len hv => ?_, fun hno => ?_⟩, fun hm ht => ?_⟩
  · subst hmem
    exact requests_cast hkind ht
  · exact hcycle.trans (castDecode_idle (h.imp_left hmade.trans))
  · have hblock := (castBlock_eq_some_iff _ _ _ _ _).2 hv
    rw [hcycle, castDecode_block (hmade ▸ hm) hb ht, hp, hblock]
    exact congrArg (fun u => JobRes.ok u { now with nums := [p + len] }) (castLandings_castRead b v)
  · have hblock : castBlock now.buf p B = none := Option.eq_none_iff_forall_ne_some.2 fun x hx =>
      hno ⟨x.1, x.2, (castBlock_eq_some_iff _ _ _ _ _).1 hx⟩
    refine hcycle.trans (Eq.trans ?_ (hfails b))
    rw [castDecode_block (hmade ▸ hm) hb ht, hp, hblock]
  · have hend := hcycle.trans (castDecode_end (hmade ▸ hm) ht)
    rw [hp] at hend
    by_cases hgood : p ≤ B ∧ ∀ a, p ≤ a → a < B → Memory.read now.buf a = 0
    · rw [if_pos hgood]
      exact hend.trans (if_pos ⟨hgood.1, (zeroRun_iff hgood.1).2 hgood.2⟩)
    · rw [if_neg hgood]
      exact hend.trans ((if_neg fun h => hgood ⟨h.1, (zeroRun_iff h.1).1 h.2⟩).trans (hfails (E / 256)))

end Sys2Proof.Proofs
end

