-- ==== Sys2Proof/Proofs/ExactSums.lean ====
section
/-! PROOF. The model's exact sum, encoded, is the exact sum rounded once (R31, R51): rounding takes a number as it is, whatever power of
two is split off it, so the common exponent of the sum's terms does not matter. -/

namespace Sys2Proof.Proofs

open Sys2Proof Sys2Proof.Machine Sys2Proof.Claims Sys2Proof.Laws

-- Rounding a scaled number -----------------------------------------------------------------------------------------------------------------------

theorem stepUp_scale (rm : Rm) (neg odd : Bool) (r d : Nat) {c : Nat} (hc : 0 < c) : stepUp rm neg odd (r * c) (d * c) = stepUp rm neg odd r d := by
  have hgt : 2 * (r * c) > d * c ↔ 2 * r > d := by rw [← Nat.mul_assoc]; exact Nat.mul_lt_mul_right hc
  have heq : (2 * (r * c) == d * c) = (2 * r == d) := by
    rw [Bool.eq_iff_iff, beq_iff_eq, beq_iff_eq, ← Nat.mul_assoc, Nat.mul_left_inj hc.ne']
  have hzero : (r * c == 0) = (r == 0) := by
    rw [Bool.eq_iff_iff, beq_iff_eq, beq_iff_eq, Nat.mul_eq_zero, or_iff_left hc.ne']
  cases rm <;> simp only [stepUp, bne, hzero, hgt, heq]

/-- A quotient rounded, and whether it was inexact. -/
def roundQuot (odd : Nat → Bool) (rm : Rm) (neg : Bool) (n d : Nat) : Nat × Bool :=
  (if stepUp rm neg (odd (n / d)) (n % d) d then n / d + 1 else n / d, n % d != 0)

theorem roundQuot_scale (odd : Nat → Bool) (rm : Rm) (neg : Bool) (n d : Nat) {c : Nat} (hc : 0 < c) :
    roundQuot odd rm neg (n * c) (d * c) = roundQuot odd rm neg n d := by
  have hzero : (n % d * c != 0) = (n % d != 0) := by
    rw [Bool.eq_iff_iff, bne_iff_ne, bne_iff_ne, ne_eq, ne_eq, Nat.mul_eq_zero, or_iff_left hc.ne']
  rw [roundQuot, roundQuot, Nat.mul_div_mul_right _ _ hc, Nat.mul_mod_mul_right, stepUp_scale _ _ _ _ _ hc, hzero]

theorem roundRatBy_eq_roundQuot (odd : Nat → Bool) (rm : Rm) (neg : Bool) (n : Nat) (s : Int) :
    roundRatBy odd rm neg n 1 s = roundQuot odd rm neg (n * 2 ^ s.toNat) (2 ^ (-s).toNat) := by
  rw [roundRatBy, roundQuot]
  by_cases hs : s ≥ 0
  · simp [hs, Int.toNat_of_nonpos (Int.neg_nonpos_of_nonneg hs)]
  · simp [hs, Int.toNat_of_nonpos (Int.le_of_lt (Int.not_le.1 hs))]

/-- A power of two in the number counts as one in the exponent. -/
theorem roundRatBy_shift (odd : Nat → Bool) (rm : Rm) (neg : Bool) (n k : Nat) (s : Int) :
    roundRatBy odd rm neg (n * 2 ^ k) 1 s = roundRatBy odd rm neg n 1 (s + k) := by
  rw [roundRatBy_eq_roundQuot, roundRatBy_eq_roundQuot]
  have hn : n * 2 ^ k * 2 ^ s.toNat = n * 2 ^ (s + k).toNat * 2 ^ (k + s.toNat - (s + k).toNat) := by
    rw [Nat.mul_assoc, Nat.mul_assoc, ← Nat.pow_add, ← Nat.pow_add]
    congr 2
    omega
  have hd : 2 ^ (-s).toNat = 2 ^ (-(s + k)).toNat * 2 ^ (k + s.toNat - (s + k).toNat) := by
    rw [← Nat.pow_add]
    congr 1
    omega
  rw [hn, hd, roundQuot_scale _ _ _ _ _ (Nat.two_pow_pos _)]

theorem log2_mul_two_pow {n : Nat} (hn : n ≠ 0) (k : Nat) : (n * 2 ^ k).log2 = n.log2 + k := by
  refine log2_of_div_two_pow hn ?_
  exact Nat.mul_div_cancel n (Nat.two_pow_pos k)

/-- Rounding takes the number, not its form. -/
theorem roundInto_shift (f : Fmt) (rm : Rm) (neg : Bool) (n k : Nat) (s : Int) :
    roundInto f rm neg (n * 2 ^ k) 1 s = roundInto f rm neg n 1 (s + k) := by
  by_cases hn : n = 0
  · subst hn
    rw [Nat.zero_mul, roundInto, roundInto, if_pos rfl, if_pos rfl]
  have hn' : n * 2 ^ k ≠ 0 := Nat.mul_ne_zero hn (Nat.two_pow_pos k).ne'
  have hbias : s + k + f.bias = s + f.bias + k := by ring
  have hlog : ilog2Rat (n * 2 ^ k) 1 + s = ilog2Rat n 1 + (s + k) := by
    rw [ilog2Rat_one hn, ilog2Rat_one hn', log2_mul_two_pow hn]
    push_cast
    ring
  have hq : ∀ x : Int, s + k - x = s - x + k := fun x => by ring
  have hwide : ∀ x : Int, s - x + k + f.mbits = s - x + f.mbits + k := fun x => by ring
  unfold roundInto
  rw [if_neg hn, if_neg hn']
  simp only [roundRat, hlog, hbias, hq, hwide, roundRatBy_shift _ rm neg n k]

-- Exact sums (R51) -------------------------------------------------------------------------------------------------------------------------------

/-- The exponent that a value brings to the common one. -/
def termExponent (x : Machine.Num) : Int := match x with | .fin _ _ e => e | _ => 0

theorem foldl_min_le (l : List Int) (b : Int) : l.foldl min b ≤ b ∧ ∀ x ∈ l, l.foldl min b ≤ x := by
  induction l generalizing b with
  | nil => exact ⟨le_rfl, fun x hx => absurd hx List.not_mem_nil⟩
  | cons y l ih =>
    obtain ⟨hb, hl⟩ := ih (min b y)
    exact ⟨hb.trans (min_le_left b y), List.forall_mem_cons.2 ⟨hb.trans (min_le_right b y), hl⟩⟩

/-- Where no term has an exponent, all are zero. -/
theorem eq_zero_of_minExp_none : ∀ {l : List Machine.Num}, minExp l = none → ∀ n m q, Machine.Num.fin n m q ∈ l → m = 0
  | x :: l, h, n, m, q, hx => by
    rw [minExp] at h
    cases hy : x.exponent with
    | none =>
      simp only [hy] at h
      obtain rfl | hl := List.mem_cons.1 hx
      · by_contra hm
        simp [Num.exponent, hm] at hy
      · exact eq_zero_of_minExp_none h n m q hl
    | some y => cases hr : minExp l <;> simp [hy, hr] at h

/-- The least exponent of the nonzero values lies at or below each of theirs. -/
theorem minExp_le : ∀ {l : List Machine.Num} {e : Int}, minExp l = some e → ∀ n m q, Machine.Num.fin n m q ∈ l → m ≠ 0 → e ≤ q
  | x :: l, e, h, n, m, q, hx, hm => by
    rw [minExp] at h
    obtain rfl | hl := List.mem_cons.1 hx
    · rw [show Num.exponent (.fin n m q) = some q from if_neg hm] at h
      cases hr : minExp l with
      | none => simp [hr] at h; omega
      | some r => simp [hr] at h; omega
    · cases hr : minExp l with
      | none => exact absurd (eq_zero_of_minExp_none hr n m q hl) hm
      | some r =>
        have hle := minExp_le hr n m q hl hm
        cases hy : x.exponent with
        | none => simp [hr, hy] at h; omega
        | some y => simp [hr, hy] at h; omega

/-- It is the exponent of one of them. -/
theorem minExp_mem : ∀ {l : List Machine.Num} {e : Int}, minExp l = some e → ∃ n m, Machine.Num.fin n m e ∈ l
  | x :: l, e, h => by
    have hown : x.exponent = some e → ∃ n m, Machine.Num.fin n m e ∈ x :: l := fun hy => by
      cases x with
      | fin n m q =>
        rw [Num.exponent] at hy
        split at hy
        · simp at hy
        · obtain rfl := Option.some_inj.1 hy
          exact ⟨n, m, List.mem_cons_self⟩
      | inf n => simp [Num.exponent] at hy
      | nan n => simp [Num.exponent] at hy
    have hrest : minExp l = some e → ∃ n m, Machine.Num.fin n m e ∈ x :: l := fun hr => by
      obtain ⟨n, m, hmem⟩ := minExp_mem hr
      exact ⟨n, m, List.mem_cons_of_mem _ hmem⟩
    rw [minExp] at h
    cases hy : x.exponent with
    | none =>
      simp only [hy] at h
      exact hrest h
    | some y =>
      cases hr : minExp l with
      | none =>
        simp only [hy, hr] at h
        exact hown (hy.trans h)
      | some r =>
        simp only [hy, hr, Option.some.injEq] at h
        obtain hmin | hmin := min_choice y r
        · exact hown (hy.trans (congrArg some (hmin.symm.trans h)))
        · exact hrest (hr.trans (congrArg some (hmin.symm.trans h)))

theorem toIntAt_shift {x : Machine.Num} {e e0 : Int} (he : e ≤ e0) (hx : ∀ n m q, x = .fin n m q → m ≠ 0 → e0 ≤ q) :
    Num.toIntAt e x = Num.toIntAt e0 x * 2 ^ (e0 - e).toNat := by
  cases x with
  | fin n m q =>
    by_cases hm : m = 0
    · subst hm
      simp [Num.toIntAt]
    · have hq := hx n m q rfl hm
      have hsplit : (q - e).toNat = (q - e0).toNat + (e0 - e).toNat := by omega
      simp only [Num.toIntAt, hsplit, pow_add]
      split <;> push_cast <;> ring
  | inf n => simp [Num.toIntAt]
  | nan n => simp [Num.toIntAt]

theorem foldl_add_eq_sum (l : List Int) : l.foldl (fun a b => a + b) 0 = l.sum := List.sum_eq_foldl.symm

/-- The sum of terms at a lower common exponent. -/
theorem sum_toIntAt_shift {l : List Machine.Num} {e e0 : Int} (he : e ≤ e0) (hl : ∀ n m q, Machine.Num.fin n m q ∈ l → m ≠ 0 → e0 ≤ q) :
    (l.map (Num.toIntAt e)).sum = (l.map (Num.toIntAt e0)).sum * 2 ^ (e0 - e).toNat := by
  rw [← List.sum_map_mul_right]
  exact congrArg List.sum (List.map_congr_left fun x hx => toIntAt_shift he fun n m q hq => hl n m q (hq ▸ hx))

theorem toIntAt_nonpos {x : Machine.Num} (e : Int) (hx : x.isNeg = true) : Num.toIntAt e x ≤ 0 := by
  cases x with
  | fin n m q =>
    rw [Num.toIntAt, if_pos (show n = true from hx)]
    omega
  | inf n => exact le_rfl
  | nan n => exact le_rfl

theorem isZero_of_toIntAt {n : Bool} {m : Nat} {q e : Int} (h : Num.toIntAt e (.fin n m q) = 0) : Num.isZero (.fin n m q) = true := by
  have hpos : 2 ^ (q - e).toNat ≠ 0 := (Nat.two_pow_pos _).ne'
  have h0 : m * 2 ^ (q - e).toNat = 0 := by
    rw [Num.toIntAt] at h
    split at h <;> omega
  exact beq_iff_eq.2 ((Nat.mul_eq_zero.1 h0).resolve_right hpos)

theorem toIntAt_of_isZero {x : Machine.Num} (e : Int) (hx : x.isZero = true) : Num.toIntAt e x = 0 := by
  cases x with
  | fin n m q =>
    rw [show m = 0 from beq_iff_eq.1 hx]
    simp [Num.toIntAt]
  | inf n => rfl
  | nan n => rfl

/-- Terms none of which is positive cancel only where all are zero. -/
theorem sum_of_nonpos {l : List Int} (hneg : ∀ x ∈ l, x ≤ 0) : l.sum ≤ 0 ∧ (l.sum = 0 → ∀ x ∈ l, x = 0) := by
  induction l with
  | nil => exact ⟨le_rfl, fun _ x hx => absurd hx List.not_mem_nil⟩
  | cons y l ih =>
    obtain ⟨hy, hl⟩ := List.forall_mem_cons.1 hneg
    obtain ⟨hle, hzero⟩ := ih hl
    rw [List.sum_cons]
    exact ⟨by omega, fun h => List.forall_mem_cons.2 ⟨by omega, hzero (by omega)⟩⟩

/-- What a sum must meet to be encoded as R51 has it: no NaN where the format has none, no negative zero among the terms of a grid. -/
def Summable (f : Fmt) (l : List Machine.Num) : Prop :=
  (f.spec = 0 → ∀ x ∈ l, x.isNan = false) ∧ (f.ebits = 0 → ∀ x ∈ l, x.isNeg = true → x.isZero = false)

/-- The finite part of the statement's sum. -/
def finiteSum (f : Fmt) (l : List Machine.Num) : Nat × Flags :=
  if (l.map (Num.toIntAt ((l.map termExponent).foldl min 0))).sum = 0 then (if l.all Num.isNeg then f.signCode true else 0, 0)
  else roundInto f .rne ((l.map (Num.toIntAt ((l.map termExponent).foldl min 0))).sum < 0)
    (l.map (Num.toIntAt ((l.map termExponent).foldl min 0))).sum.natAbs 1 ((l.map termExponent).foldl min 0)

/-- A zero sum: its sign is that of its terms where all agree. -/
theorem zeroSum_sign {f : Fmt} {l : List Machine.Num} (hl : l ≠ []) (hfin : ∀ x ∈ l, ∃ n m q, x = .fin n m q) (hsum : Summable f l) {e : Int}
    (h0 : (l.map (Num.toIntAt e)).sum = 0) :
    encodeNum f .rne (if !l.isEmpty && l.all (fun x => x.isZero && x.isNeg) then .fin true 0 0 else .fin false 0 0) =
      (if l.all Num.isNeg then f.signCode true else 0, 0) := by
  have hzero : l.all Num.isNeg = true → ∀ x ∈ l, x.isZero = true := fun hneg x hx => by
    obtain ⟨n, m, q, rfl⟩ := hfin x hx
    refine isZero_of_toIntAt ((sum_of_nonpos ?_).2 h0 _ (List.mem_map_of_mem hx))
    simp only [List.mem_map]
    rintro _ ⟨y, hy, rfl⟩
    exact toIntAt_nonpos e (List.all_eq_true.1 hneg y hy)
  by_cases hneg : l.all Num.isNeg = true
  · have hcond : (!l.isEmpty && l.all (fun x => x.isZero && x.isNeg)) = true := by
      rw [Bool.and_eq_true, Bool.not_eq_true', List.isEmpty_eq_false_iff, List.all_eq_true]
      exact ⟨hl, fun x hx => by rw [hzero hneg x hx, List.all_eq_true.1 hneg x hx]; rfl⟩
    have hgrid : f.ebits ≠ 0 := fun hg => by
      obtain ⟨x, hx⟩ := List.exists_mem_of_ne_nil l hl
      exact absurd (hzero hneg x hx) (by rw [hsum.2 hg x hx (List.all_eq_true.1 hneg x hx)]; simp)
    rw [if_pos hcond, if_pos hneg, encodeNum, roundInto, if_pos rfl, if_neg hgrid]
  · have hcond : ¬ (!l.isEmpty && l.all (fun x => x.isZero && x.isNeg)) = true := fun h => hneg (List.all_eq_true.2 fun x hx => by
      have := List.all_eq_true.1 (Bool.and_eq_true_iff.1 h).2 x hx
      exact (Bool.and_eq_true_iff.1 this).2)
    rw [if_neg hcond, if_neg hneg, encodeNum, roundInto, if_pos rfl]
    simp [Fmt.signCode]

/-- The sum of finite terms, encoded. -/
theorem encodeNum_finSum {f : Fmt} {l : List Machine.Num} (hl : l ≠ []) (hfin : ∀ x ∈ l, ∃ n m q, x = .fin n m q) (hsum : Summable f l) :
    encodeNum f .rne (match finSum l with
      | some x => x
      | none => if !l.isEmpty && l.all (fun x => x.isZero && x.isNeg) then .fin true 0 0 else .fin false 0 0) = finiteSum f l := by
  have hmin : ∀ n m q, Machine.Num.fin n m q ∈ l → (l.map termExponent).foldl min 0 ≤ q := fun n m q hx =>
    (foldl_min_le (l.map termExponent) 0).2 _ (List.mem_map_of_mem (f := termExponent) hx)
  rw [finiteSum]
  generalize (l.map termExponent).foldl min 0 = e at hmin
  cases hexp : minExp l with
  | none =>
    have h0 : (l.map (Num.toIntAt e)).sum = 0 := List.sum_eq_zero fun y hy => by
      obtain ⟨x, hx, rfl⟩ := List.mem_map.1 hy
      obtain ⟨n, m, q, rfl⟩ := hfin x hx
      exact toIntAt_of_isZero e (beq_iff_eq.2 (eq_zero_of_minExp_none hexp n m q hx))
    rw [finSum, hexp, if_pos h0]
    exact zeroSum_sign hl hfin hsum h0
  | some e0 =>
    have hle : e ≤ e0 := by
      obtain ⟨n, m, hmem⟩ := minExp_mem hexp
      exact hmin n m e0 hmem
    have hshift := sum_toIntAt_shift hle (minExp_le hexp)
    rw [finSum, hexp, hshift]
    dsimp only
    rw [foldl_add_eq_sum]
    by_cases h0 : (l.map (Num.toIntAt e0)).sum = 0
    · rw [if_pos h0, h0, Int.zero_mul, if_pos rfl]
      exact zeroSum_sign hl hfin hsum h0
    · have hpow : (0 : Int) < 2 ^ (e0 - e).toNat := by positivity
      have hsign : decide ((l.map (Num.toIntAt e0)).sum * 2 ^ (e0 - e).toNat < 0) = decide ((l.map (Num.toIntAt e0)).sum < 0) :=
        decide_eq_decide.2 (by rw [mul_neg_iff]; simp [hpow, not_lt.2 hpow.le])
      have habs : ((l.map (Num.toIntAt e0)).sum * 2 ^ (e0 - e).toNat).natAbs = (l.map (Num.toIntAt e0)).sum.natAbs * 2 ^ (e0 - e).toNat := by
        rw [Int.natAbs_mul, Int.natAbs_pow]
        rfl
      have hexact : e + ((e0 - e).toNat : Int) = e0 := by omega
      rw [if_neg h0, if_neg (Int.mul_ne_zero h0 hpow.ne'), encodeNum, hsign, habs, roundInto_shift, hexact]

/-- The model's exact sum, encoded, is the exact sum rounded once with the specials of R51. -/
theorem encodeNum_sumNum {f : Fmt} {l : List Machine.Num} (hl : l ≠ []) (hsum : Summable f l) :
    encodeNum f .rne (sumNum false l) = sumInto f l := by
  have hup : (l.any fun x => x.isInf && !x.isNeg) = true ↔ Machine.Num.inf false ∈ l := by
    rw [List.any_eq_true]
    constructor
    · rintro ⟨x, hx, h⟩
      cases x <;> simp_all [Num.isInf, Num.isNeg]
    · exact fun h => ⟨_, h, rfl⟩
  have hdown : (l.any fun x => x.isInf && x.isNeg) = true ↔ Machine.Num.inf true ∈ l := by
    rw [List.any_eq_true]
    constructor
    · rintro ⟨x, hx, h⟩
      cases x <;> simp_all [Num.isInf, Num.isNeg]
    · exact fun h => ⟨_, h, rfl⟩
  unfold sumNum sumInto
  dsimp only
  by_cases hnan : l.any Num.isNan = true
  · have hspec : f.spec ≠ 0 := fun h0 => by
      obtain ⟨x, hx, hxn⟩ := List.any_eq_true.1 hnan
      exact absurd hxn (by rw [hsum.1 h0 x hx]; simp)
    rw [if_pos hnan, if_pos (Or.inl hnan), encodeNum]
    refine congrArg (Prod.mk f.nanCode) (if_congr ?_ rfl rfl)
    rw [Bool.or_eq_true, Bool.or_eq_true, Bool.and_eq_true, decide_eq_true_eq, or_iff_left hspec, hup, hdown]
  · rw [if_neg hnan]
    have hboth : ((l.any fun x => x.isInf && !x.isNeg) && l.any fun x => x.isInf && x.isNeg) = true ↔
        (l.any Num.isNan = true ∨ Machine.Num.inf false ∈ l ∧ Machine.Num.inf true ∈ l) := by
      rw [Bool.and_eq_true, hup, hdown, or_iff_right hnan]
    by_cases hinv : l.any Num.isNan = true ∨ Machine.Num.inf false ∈ l ∧ Machine.Num.inf true ∈ l
    · rw [if_pos (hboth.2 hinv), if_pos hinv, if_pos (Or.inr (hinv.resolve_left hnan))]
      rfl
    · rw [if_neg (mt hboth.1 hinv), if_neg hinv]
      by_cases hp : Machine.Num.inf false ∈ l
      · rw [if_pos (hup.2 hp), if_pos hp]
      · rw [if_neg (mt hup.1 hp), if_neg hp]
        by_cases hn : Machine.Num.inf true ∈ l
        · rw [if_pos (hdown.2 hn), if_pos hn]
        · rw [if_neg (mt hdown.1 hn), if_neg hn]
          have hfin : ∀ x ∈ l, ∃ n m q, x = .fin n m q := fun x hx => by
            cases x with
            | fin n m q => exact ⟨n, m, q, rfl⟩
            | inf n => cases n <;> contradiction
            | nan n => exact absurd (List.any_eq_true.2 ⟨_, hx, rfl⟩) hnan
          refine (encodeNum_finSum hl hfin hsum).trans ?_
          rw [finiteSum, foldl_add_eq_sum] <;> rfl

/-- A format without specials has no NaN (R37). -/
theorem decodeNum_not_nan {f : Fmt} (hspec : f.spec = 0) (c : Nat) : (decodeNum f c).isNan = false := by
  unfold decodeNum
  dsimp only
  by_cases hgrid : f.ebits = 0
  · rw [if_pos hgrid, hspec]
    rfl
  · rw [if_neg hgrid, hspec]
    simp [Num.isNan]

/-- A negative number of a grid is not zero (R36). -/
theorem decodeNum_neg_not_zero {f : Fmt} (hgrid : f.ebits = 0) (c : Nat) (hneg : (decodeNum f c).isNeg = true) : (decodeNum f c).isZero = false := by
  unfold decodeNum at hneg ⊢
  dsimp only at hneg ⊢
  rw [if_pos hgrid] at hneg ⊢
  split at hneg
  · exact absurd hneg (by simp [Num.isNeg])
  · rename_i hcode
    rw [if_neg hcode]
    have hlt : (if f.sgn then asSigned f.wid (c % 2 ^ f.wid) else (c % 2 ^ f.wid : Nat) : Int) < 0 := of_decide_eq_true hneg
    exact beq_eq_false_iff_ne.2 (Int.natAbs_ne_zero.2 hlt.ne)

/-- Decoded terms can be summed as R51 has it. -/
theorem summable_decoded {f : Fmt} {l : List Machine.Num} (h : ∀ x ∈ l, ∃ c, x = decodeNum f c) : Summable f l := by
  refine ⟨fun hspec x hx => ?_, fun hgrid x hx hneg => ?_⟩
  · obtain ⟨c, rfl⟩ := h x hx
    exact decodeNum_not_nan hspec c
  · obtain ⟨c, rfl⟩ := h x hx
    exact decodeNum_neg_not_zero hgrid c hneg

end Sys2Proof.Proofs
end

