-- ==== Sys2Proof/Proofs/IndexedCycles.lean ====
section
/-! PROOF. Gathers and scatters in progress (R199 to R201): linear indices, index rows, elements, combinations, and grouped stores. -/

namespace Sys2Proof.Proofs

open Sys2Proof Sys2Proof.Machine Sys2Proof.Claims Sys2Proof.Laws

-- Linear indices (R201) --------------------------------------------------------------------------------------------------------------------------

/-- Digits over a list of radices, the first slowest. -/
def digits (n : Nat) (radices : List Nat) : Nat × List Nat := radices.foldr (fun e a => (a.1 / e, (a.1 % e) :: a.2)) (n, [])

/-- The number that they stand for, from a leading part on. -/
def undigits (a : Nat) : List Nat → List Nat → Nat
  | e :: es, x :: xs => undigits (a * e + x) es xs
  | _, _ => a

theorem digits_undigits : ∀ {es xs : List Nat} (a : Nat), List.Forall₂ (fun x e => x < e) xs es → digits (undigits a es xs) es = (a, xs)
  | [], [], a, _ => rfl
  | e :: es, x :: xs, a, .cons hx h => by
    rw [digits, List.foldr_cons, undigits, ← digits, digits_undigits (a * e + x) h]
    dsimp only
    rw [Nat.mul_comm a e, Nat.mul_add_div (by omega), Nat.div_eq_of_lt hx, Nat.add_zero, Nat.mul_add_mod, Nat.mod_eq_of_lt hx]

theorem undigits_lt : ∀ {es xs : List Nat} (a : Nat), List.Forall₂ (fun x e => x < e) xs es → undigits a es xs < (a + 1) * es.prod
  | [], [], a, _ => by simp [undigits]
  | e :: es, x :: xs, a, .cons hx h => by
    have ih := undigits_lt (a * e + x) h
    have hle : a * e + x + 1 ≤ (a + 1) * e := by
      rw [Nat.add_mul]
      omega
    rw [undigits, List.prod_cons, ← Nat.mul_assoc]
    exact ih.trans_le (Nat.mul_le_mul_right _ hle)

theorem undigits_eq_foldl : ∀ (l : List Nat) (f g : Nat → Nat) (a : Nat), undigits a (l.map f) (l.map g) = l.foldl (fun a i => a * f i + g i) a
  | [], _, _, _ => rfl
  | i :: l, f, g, a => undigits_eq_foldl l f g (a * f i + g i)

/-- An index within the extents is what its linear index stands for. -/
theorem unlinear_linearOf {d : BitVec 512} {x : List Nat} (hlen : x.length = symRank d) (hext : ∀ q, q < symRank d → x.getD q 0 < symExt d q) :
    unlinear d (linearOf d x) = some x := by
  have hx : (List.range (symRank d)).map (fun q => x.getD q 0) = x := by
    refine List.ext_getElem (by simp [hlen]) fun i h1 h2 => ?_
    simp [h2]
  have hlt : List.Forall₂ (fun x e => x < e) x ((List.range (symRank d)).map (symExt d)) := by
    rw [← hx, List.forall₂_map_left_iff, List.forall₂_map_right_iff, List.forall₂_same]
    exact fun q hq => hext q (List.mem_range.1 hq)
  have hlin : linearOf d x = undigits 0 ((List.range (symRank d)).map (symExt d)) x := by
    conv_rhs => rw [← hx]
    exact (undigits_eq_foldl _ _ _ _).symm
  have hbound : linearOf d x < ((List.range (symRank d)).map (symExt d)).foldl (· * ·) 1 := by
    rw [hlin, ← List.prod_eq_foldl]
    simpa using undigits_lt 0 hlt
  rw [unlinear, if_pos hbound, hlin]
  exact congrArg (fun p => some p.2) (digits_undigits 0 hlt)

/-- An index that stands for none lies beyond the extents (R74). -/
theorem unlinear_eq_none_iff (d : BitVec 512) (i : Nat) :
    unlinear d i = none ↔ ((List.range (symRank d)).map (symExt d)).foldl (fun a b => a * b) 1 ≤ i := by
  unfold unlinear
  dsimp only
  split
  · exact iff_of_false (by simp) (by omega)
  · exact iff_of_true rfl (by omega)

-- Index rows (R199) --------------------------------------------------------------------------------------------------------------------------------

/-- The command after the row of indices that it reads in the cycle. -/
def withIndices (s : State) (k : Nat) (j : Job) (idx n t : Nat) : Job :=
  { j with nums := j.nums ++ (if 1 ≤ t ∧ 16 * (t - 1) < n then
    (List.range (min 16 (n - 16 * (t - 1)))).map (fun q => Memory.readNat (getCore s k).spad (idx + 128 * (t - 1) + 8 * q) 8) else []) }

theorem readIndices_eq (s : State) (k : Nat) (j : Job) (idx n t : Nat) : readIndices s k idx n t j = withIndices s k j idx n t := by
  have hrow : (1 ≤ t ∧ t ≤ rowsOf (8 * n)) ↔ 1 ≤ t ∧ 16 * (t - 1) < n := by
    rw [rowsOf]
    omega
  rw [readIndices, withIndices]
  by_cases h : 1 ≤ t ∧ 16 * (t - 1) < n
  · rw [if_pos (hrow.2 h), if_pos h]
    rfl
  · rw [if_neg (mt hrow.1 h), if_neg h, List.append_nil]

-- Elements (R193, R199, R200) ------------------------------------------------------------------------------------------------------------------------

/-- An element lies aligned in the block of its operand (R193; log 27). -/
def LiesIn (base x m : Nat) : Prop := x % m = 0 ∧ inRun x m ∧ x / 2 ^ 18 = base / 2 ^ 18 % 8

theorem elementOk_iff (base x m : Nat) : elementOk base x m = true ↔ LiesIn base x m := by
  simp only [elementOk, LiesIn, Bool.and_eq_true, beq_iff_eq, decide_eq_true_eq, spadRunOk_iff_inRun, blkOf]
  constructor
  · rintro ⟨⟨⟨hm, hlt⟩, hb⟩, hrun⟩
    exact ⟨hm, hrun, by omega⟩
  · rintro ⟨hm, hrun, hb⟩
    have hlt := hrun.1
    exact ⟨⟨⟨hm, by omega⟩, by omega⟩, hrun⟩

/-- A run meets a receive window that was open at the command's issue (R215). -/
abbrev shutAt (s : State) (k c x m : Nat) : Prop := ∃ w ∈ (getCore s k).rwins,
  w.opens ≤ c ∧ c ≤ w.closes ∧ 0 < w.len ∧ 0 < m ∧ x < w.addr + w.len ∧ w.addr < x + m

theorem inOpenWindow_iff_shutAt (s : State) (k c x m : Nat) : inOpenWindow (getCore s k) x m c = true ↔ shutAt s k c x m := by
  simp only [inOpenWindow, shutAt, runsMeet, List.any_eq_true, Bool.and_eq_true, decide_eq_true_eq]
  constructor
  · rintro ⟨w, hw, ⟨hopens, hcloses⟩, ⟨⟨hlo, hhi⟩, hn⟩, hlen⟩
    exact ⟨w, hw, hopens, hcloses, hlen, hn, hlo, hhi⟩
  · rintro ⟨w, hw, hopens, hcloses, hlen, hn, hlo, hhi⟩
    exact ⟨w, hw, ⟨hopens, hcloses⟩, ⟨⟨hlo, hhi⟩, hn⟩, hlen⟩

/-- The codes of the occurrences of an index up to an element. -/
def codesOf (u : Job) (z i : Nat) : List Nat :=
  ((List.range (i + 1)).filter (fun q => u.nums.getD q 0 = u.nums.getD i 0)).map (fun q => Memory.readNat u.buf (z * q) z)

/-- What an occurrence of an index stores: its code, or the combination so far (R200; log 28). -/
def storedValue (u : Job) (ty : Ty) (nf : Nat) (comb : Bool) (z i : Nat) : Nat × Flags :=
  if comb = false then (Memory.readNat u.buf (z * i) z, (0 : Flags))
  else if Ty.isFloat ty = true then sumInto (fmtOf ty nf) ((codesOf u z i).map (decodeNum (fmtOf ty nf)))
  else ((codesOf u z i).sum % 2 ^ Ty.bits ty, 0)

theorem occurrenceValue_eq (u : Job) (ty : Ty) (nf : Nat) (comb : Bool) (z i : Nat) :
    occurrenceValue u ty nf comb z i = storedValue u ty nf comb z i := by
  have hcodes : occurrences u z i = codesOf u z i := by
    rw [occurrences, codesOf]
    refine congrArg (List.map _) (List.filter_congr fun q _ => ?_)
    rfl
  have hne : (codesOf u z i).map (decodeNum (fmtOf ty nf)) ≠ [] := by
    have hmem : i ∈ (List.range (i + 1)).filter (fun q => u.nums.getD q 0 = u.nums.getD i 0) :=
      List.mem_filter.2 ⟨List.self_mem_range_succ, decide_eq_true rfl⟩
    rw [codesOf, ne_eq, List.map_eq_nil_iff, List.map_eq_nil_iff]
    exact List.ne_nil_of_mem hmem
  rw [occurrenceValue, storedValue]
  cases comb
  · rfl
  · rw [if_pos rfl, if_neg (by simp), combine, hcodes]
    split
    · exact encodeNum_sumNum hne (summable_decoded fun x hx => by
        obtain ⟨c, -, rfl⟩ := List.mem_map.1 hx
        exact ⟨c, rfl⟩)
    · rw [List.sum_eq_foldl]

-- Without an entry (R199, R200) --------------------------------------------------------------------------------------------------------------------

/-- The span to a unit and on to a block. -/
def spansOf (j : Job) (unit a b : Nat) : Nat := spanOf j.run (blkSt (a / 2 ^ 18 % 8)) unit + spanOf j.run unit (blkSt (b / 2 ^ 18 % 8))

section
variable {s : State} {k : Nat} {j : Job} {src dst idx n i t : Nat} {ty : Ty} {comb : Bool}

theorem sampleCycle_gather {mem : Bool} (hkind : j.kind = .gather src dst idx n ty mem) :
    sampleCycle s k j t = gatherCycle s k j src dst idx n ty mem t := by rw [sampleCycle, hkind]

theorem sampleCycle_scatter {mem : Bool} (hkind : j.kind = .scatter src dst idx n ty mem comb) :
    sampleCycle s k j t = scatterCycle s k j src dst idx n ty mem comb t := by rw [sampleCycle, hkind]

/-- No element is read in the cycle: from device memory, or before the first. -/
theorem gather_reads_row {mem : Bool} (hkind : j.kind = .gather src dst idx n ty mem) (h : mem = true ∨ t < 17) :
    sampleCycle s k j t = .ok s (withIndices s k j idx n t) := by
  rw [sampleCycle_gather hkind, gatherCycle, readIndices_eq]
  refine if_neg ?_
  rw [Bool.and_eq_true, Bool.and_eq_true, decide_eq_true_eq, Bool.not_eq_true']
  rintro ⟨⟨hmem, ht⟩, -⟩
  obtain h | h := h
  · simp [h] at hmem
  · omega

theorem requests_gather (hkind : j.kind = .gather src dst idx n ty true) (ht : t = 16 + i) (hi : i < n) :
    requests s k j t (indexedAt j src (Ty.size ty) i) (Ty.size ty) (Ty.size ty) 3 i [1] fun key u =>
      .ok (puts u k j (t + 1279) i (.memRead key (Ty.size ty) (.spad (dst + i * Ty.size ty) j.lc))) j := by
  have hcycle : requestCycle s k j t = gatherRequest s k j src dst n ty t := by simp [requestCycle, hkind]
  have hti : t - 16 = i := by omega
  refine requests_of_request (hcycle.trans ?_)
  rw [gatherRequest]
  refine (if_pos (by omega)).trans ?_
  rw [hti]
  rfl

/-- The element of a gather between blocks. -/
theorem gather_element (hkind : j.kind = .gather src dst idx n ty false) (ht : t = 17 + i) (hi : i < n) {now : Job}
    (hnow : withIndices s k j idx n t = now) : sampleCycle s k j t =
      if elementOk src (indexedAt now src (Ty.size ty) i) (Ty.size ty) = true then
        .ok (jobPost s k now (t + 2 + spanOf now.run (blkSt (blkOf src)) cpoSt + spanOf now.run cpoSt (blkSt (blkOf dst))) i
          (.spad (dst + i * Ty.size ty) (Ty.size ty) (2 ^ Ty.size ty - 1) (spadNat s k (indexedAt now src (Ty.size ty) i) (Ty.size ty)) now.lc)) now
      else .fault s now 0x08 [toWord (indexedAt now src (Ty.size ty) i), 0, toWord now.seq, 0] i := by
  have hti : t - 17 = i := by omega
  have hdue : (!false && decide (17 ≤ t) && decide (t < 17 + n)) = true := by simp; omega
  rw [sampleCycle_gather hkind, gatherCycle, readIndices_eq, hnow]
  refine (if_pos hdue).trans ?_
  rw [hti]
  rfl

theorem gather_element_lands (hkind : j.kind = .gather src dst idx n ty false) (ht : t = 17 + i) (hi : i < n) {now : Job}
    (hnow : withIndices s k j idx n t = now) (hlies : LiesIn src (indexedAt now src (Ty.size ty) i) (Ty.size ty)) : sampleCycle s k j t =
      .ok (puts s k now (t + 2 + spansOf now cpoSt src dst) i
        (.spad (dst + i * Ty.size ty) (Ty.size ty) (2 ^ Ty.size ty - 1) (Memory.readNat (getCore s k).spad (indexedAt now src (Ty.size ty) i) (Ty.size ty))
          now.lc)) now := by
  rw [gather_element hkind ht hi hnow, if_pos ((elementOk_iff _ _ _).2 hlies), Nat.add_assoc (t + 2)]
  rfl

theorem gather_element_faults (hkind : j.kind = .gather src dst idx n ty false) (ht : t = 17 + i) (hi : i < n) {now : Job}
    (hnow : withIndices s k j idx n t = now) (hlies : ¬ LiesIn src (indexedAt now src (Ty.size ty) i) (Ty.size ty)) : sampleCycle s k j t =
      .fault s now 0x08 [toWord (indexedAt now src (Ty.size ty) i), 0, toWord now.seq, 0] i := by
  rw [gather_element hkind ht hi hnow, if_neg (mt (elementOk_iff _ _ _).1 hlies)]

/-- The element of a scatter, kept in its buffer. -/
def withElement (s : State) (k : Nat) (u : Job) (src z i : Nat) : Job :=
  { u with buf := Memory.writeNat u.buf (z * i) z (Memory.readNat (getCore s k).spad (src + z * i) z) }

theorem scatter_mem_element (hkind : j.kind = .scatter src dst idx n ty true comb) (ht : t = 16 + i) (hi : i < n) :
    sampleCycle s k j t = .ok s (withElement s k (withIndices s k j idx n t) src (Ty.size ty) i) := by
  have hti : t - 16 = i := by omega
  rw [sampleCycle_scatter hkind, scatterCycle, readIndices_eq]
  refine (if_pos (show 16 ≤ t ∧ t < 16 + n by omega)).trans ?_
  simp only [if_true, hti]
  rfl

theorem requests_scatter (hkind : j.kind = .scatter src dst idx n ty true comb) (ht : t = 16 + i) (hi : i < n) :
    requests s k j t (indexedAt j dst (Ty.size ty) i) (Ty.size ty) (Ty.size ty) 4 i [2] fun key u =>
      .ok (putsFlags (puts u k j (t + 1280) (2 * i) (.memWrite key (Ty.size ty) (2 ^ Ty.size ty - 1) (storedValue j ty 0 comb (Ty.size ty) i).1 j.lc))
        k j (t + 1280) (2 * i + 1) .cp (storedValue j ty 0 comb (Ty.size ty) i).2) j := by
  have hcycle : requestCycle s k j t = scatterRequest s k j dst n ty comb t := by simp [requestCycle, hkind]
  have hti : t - 16 = i := by omega
  refine requests_of_request (hcycle.trans ?_)
  rw [scatterRequest]
  refine (if_pos (by omega)).trans ?_
  rw [hti]
  simp only [occurrenceValue_eq]
  rfl

theorem scatter_spad_element (hkind : j.kind = .scatter src dst idx n ty false comb) (ht : t = 17 + i) (hi : i < n) {now kept : Job}
    (hnow : withIndices s k j idx n t = now) (hkept : withElement s k now src (Ty.size ty) i = kept) : sampleCycle s k j t =
      if elementOk dst (indexedAt now dst (Ty.size ty) i) (Ty.size ty) = true ∧
          inOpenWindow (getCore s k) (indexedAt now dst (Ty.size ty) i) (Ty.size ty) now.issue = false then
        .ok (jobFlags (jobPost s k now (t + 2 + spanOf now.run (blkSt (blkOf src)) cpoSt + spanOf now.run cpoSt (blkSt (blkOf dst))) (2 * i)
            (.spad (indexedAt now dst (Ty.size ty) i) (Ty.size ty) (2 ^ Ty.size ty - 1) (storedValue kept ty 0 comb (Ty.size ty) i).1 now.lc))
          k now (t + 2 + spanOf now.run (blkSt (blkOf src)) cpoSt + spanOf now.run cpoSt (blkSt (blkOf dst))) (2 * i + 1) .cp
          (storedValue kept ty 0 comb (Ty.size ty) i).2) kept
      else .fault s now 0x08 [toWord (indexedAt now dst (Ty.size ty) i), 0, toWord now.seq, 0] i := by
  have hti : t - 17 = i := by omega
  rw [sampleCycle_scatter hkind, scatterCycle, readIndices_eq, hnow]
  refine (if_pos (show 17 ≤ t ∧ t < 17 + n by omega)).trans ?_
  simp only [Bool.false_eq_true, if_false, hti, occurrenceValue_eq]
  have hkept' : keepElement s k now src (Ty.size ty) i = kept := hkept
  rw [hkept']
  rfl

theorem scatter_element_lands (hkind : j.kind = .scatter src dst idx n ty false comb) (ht : t = 17 + i) (hi : i < n) {now kept : Job}
    (hnow : withIndices s k j idx n t = now) (hkept : withElement s k now src (Ty.size ty) i = kept)
    (hlies : LiesIn dst (indexedAt now dst (Ty.size ty) i) (Ty.size ty))
    (hshut : ¬ shutAt s k now.issue (indexedAt now dst (Ty.size ty) i) (Ty.size ty)) {land : Nat} (hland : t + 2 + spansOf now cpoSt src dst = land) :
    sampleCycle s k j t =
      .ok (putsFlags (puts s k now land (2 * i)
        (.spad (indexedAt now dst (Ty.size ty) i) (Ty.size ty) (2 ^ Ty.size ty - 1) (storedValue kept ty 0 comb (Ty.size ty) i).1 now.lc))
        k now land (2 * i + 1) .cp (storedValue kept ty 0 comb (Ty.size ty) i).2) kept := by
  have hopen := Bool.eq_false_iff.2 (mt (inOpenWindow_iff_shutAt s k _ _ _).1 hshut)
  rw [scatter_spad_element hkind ht hi hnow hkept, if_pos ⟨(elementOk_iff _ _ _).2 hlies, hopen⟩, ← hland, spansOf, ← Nat.add_assoc (t + 2)]
  rfl

theorem scatter_element_faults (hkind : j.kind = .scatter src dst idx n ty false comb) (ht : t = 17 + i) (hi : i < n) {now : Job}
    (hnow : withIndices s k j idx n t = now) (hbad : ¬ (LiesIn dst (indexedAt now dst (Ty.size ty) i) (Ty.size ty) ∧
      ¬ shutAt s k now.issue (indexedAt now dst (Ty.size ty) i) (Ty.size ty))) : sampleCycle s k j t =
      .fault s now 0x08 [toWord (indexedAt now dst (Ty.size ty) i), 0, toWord now.seq, 0] i := by
  rw [scatter_spad_element hkind ht hi hnow rfl, if_neg ?_]
  rintro ⟨hok, hopen⟩
  exact hbad ⟨(elementOk_iff _ _ _).1 hok, mt (inOpenWindow_iff_shutAt s k _ _ _).2 (by simp [hopen])⟩

end

-- Through an entry (R74, R75, R201) -------------------------------------------------------------------------------------------------------------------

/-- An index beyond the extents of an entry. -/
def Beyond (d : BitVec 512) (u : Job) (q : Nat) : Prop :=
  ((List.range (symRank d)).map (symExt d)).foldl (fun a b => a * b) 1 ≤ u.nums.getD q 0

theorem badIndex_eq_none_iff (d : BitVec 512) (u : Job) (c : Nat) :
    badIndex d u c = none ↔ ¬ ∃ q, c ≤ q ∧ q < u.nums.length ∧ Beyond d u q := by
  simp only [badIndex, List.find?_eq_none, List.range_eq_range', List.drop_range', List.mem_range'_1, Option.isNone_iff_eq_none,
    unlinear_eq_none_iff, Beyond]
  constructor
  · rintro h ⟨q, hc, hq, hb⟩
    exact h q ⟨by omega, by omega⟩ hb
  · rintro h q ⟨hc, hq⟩ hb
    exact h ⟨q, by omega, by omega, hb⟩

/-- The first of the row's indices that lies beyond the extents. -/
theorem badIndex_eq_some {d : BitVec 512} {u : Job} {c q : Nat} (hc : c ≤ q) (hq : q < u.nums.length) (hb : Beyond d u q)
    (hfirst : ∀ r, c ≤ r → r < q → ¬ Beyond d u r) : badIndex d u c = some q := by
  rw [badIndex, List.range_eq_range', List.drop_range', List.find?_range'_eq_some]
  refine ⟨Option.isNone_iff_eq_none.2 ((unlinear_eq_none_iff d _).2 hb), List.mem_range'_1.2 (by omega), fun r hcr hrq => ?_⟩
  rw [Bool.not_eq_true', Option.isNone_eq_false_iff, ← Option.not_isNone, Bool.not_eq_true', ← Bool.not_eq_true, Option.isNone_iff_eq_none,
    unlinear_eq_none_iff]
  exact hfirst r (by omega) hrq

section
variable {s : State} {k : Nat} {j : Job} {src dst idx n i t y : Nat} {d : BitVec 512} {comb : Bool}

theorem sampleCycle_gatherSy (hkind : j.kind = .gatherSy y dst idx n d) : sampleCycle s k j t = gatherSyCycle s k j dst idx n d t := by
  rw [sampleCycle, hkind]

theorem sampleCycle_scatterSy (hkind : j.kind = .scatterSy y src idx n d comb) :
    sampleCycle s k j t = scatterSyCycle s k j y src idx n d comb t := by rw [sampleCycle, hkind]

/-- An index beyond the extents stops the command in its row's cycle (R74; log 67). -/
theorem orbit_index_faults {q : Nat} (hkind : j.kind = .gatherSy y dst idx n d ∨ j.kind = .scatterSy y src idx n d comb)
    (hbad : badIndex d (withIndices s k j idx n t) j.nums.length = some q) : sampleCycle s k j t =
      .fault s { withIndices s k j idx n t with stopped := true } 0x08 [toWord ((withIndices s k j idx n t).nums.getD q 0), 0, toWord j.seq, 0] q := by
  obtain hkind | hkind := hkind
  · rw [sampleCycle_gatherSy hkind, gatherSyCycle, readIndices_eq, hbad] <;> rfl
  · rw [sampleCycle_scatterSy hkind, scatterSyCycle, readIndices_eq, hbad] <;> rfl

/-- What the element of a gather through an entry does in its cycle, its index one of the extents. -/
theorem gatherSy_element (hkind : j.kind = .gatherSy y dst idx n d) {now : Job} (hnow : withIndices s k j idx n t = now)
    (hstray : badIndex d now j.nums.length = none) (ht : t = (if symSpad d then 17 else 16) + i) (hi : i < n) {x : List Nat}
    (hx : unlinear d (now.nums.getD i 0) = some x) {land : Nat}
    (hland : (if symSpad d then t + 2 + spanOf now.run (blkSt (blkOf (symBase d))) cpiSt + spanOf now.run cpiSt (blkSt (blkOf dst))
      else t + 1280) = land) : sampleCycle s k j t =
      if (canon d x).2.2.1 = true then
        .ok (jobPost s k now land (2 * i) (.spad (dst + i * symSize d) (symSize d) (2 ^ symSize d - 1) 0 now.lc)) now
      else if symSpad d = true then
        .ok (jobFlags (jobPost s k now land (2 * i)
            (.spad (dst + i * symSize d) (symSize d) (2 ^ symSize d - 1) (symRead s k d (canon d x).1 (canon d x).2.1).1 now.lc))
          k now land (2 * i + 1) .cp (symRead s k d (canon d x).1 (canon d x).2.1).2) now
      else .ok s now := by
  have hti : t - (if symSpad d then 17 else 16) = i := by omega
  rw [sampleCycle_gatherSy hkind, gatherSyCycle, readIndices_eq, hnow, hstray]
  refine (if_pos (show (if symSpad d then 17 else 16) ≤ t ∧ t < (if symSpad d then 17 else 16) + n by omega)).trans ?_
  dsimp only
  rw [hti, hx, hland, Option.getD_some]

theorem requestCycle_gatherSy (hkind : j.kind = .gatherSy y dst idx n d) (hspad : symSpad d = false) (ht : t = 16 + i) (hi : i < n) {x : List Nat}
    (hx : unlinear d (j.nums.getD i 0) = some x) : requestCycle s k j t =
      if (canon d x).2.2.1 = true then .ok s j
      else request s k j (slotAddr d (canon d x).1) (symSize d) (symSize d) [pRD] 3 i fun key u =>
        .ok (jobPost u k j (t + 1279) (2 * i)
          (.memRead key (symSize d) (.spadSy (dst + i * symSize d) j.lc (canon d x).2.1 (symTy d) (symNf d)))) j := by
  have hcycle : requestCycle s k j t = gatherSyRequest s k j dst n d t := by simp [requestCycle, hkind, hspad]
  have hti : t - 16 = i := by omega
  rw [hcycle, gatherSyRequest]
  refine (if_pos (show 16 ≤ t ∧ t < 16 + n by omega)).trans ?_
  dsimp only
  rw [hti, hx, Option.getD_some]

theorem requests_gatherSy (hkind : j.kind = .gatherSy y dst idx n d) (hspad : symSpad d = false) (ht : t = 16 + i) (hi : i < n) {x : List Nat}
    (hx : unlinear d (j.nums.getD i 0) = some x) (hzero : (canon d x).2.2.1 = false) :
    requests s k j t (symBase d + (canon d x).1 * symSize d) (symSize d) (symSize d) 3 i [1] fun key u =>
      .ok (puts u k j (t + 1279) (2 * i) (.memRead key (symSize d) (.spadSy (dst + i * symSize d) j.lc (canon d x).2.1 (symTy d) (symNf d)))) j :=
  requests_of_request ((requestCycle_gatherSy hkind hspad ht hi hx).trans (if_neg (by simp [hzero])))

/-- What a gathered element is read as (R75). -/
theorem expanded_of_zero {x : List Nat} (hzero : (canon d x).2.2.1 = true) (code : Nat) : expanded d x code = (0, 0) := if_pos hzero

theorem expanded_eq_symRead {x : List Nat} (hzero : (canon d x).2.2.1 = false) :
    expanded d x (Memory.readNat (getCore s k).spad (symBase d + (canon d x).1 * symSize d) (symSize d)) =
      symRead s k d (canon d x).1 (canon d x).2.1 := if_neg (by simp [hzero])

theorem gatherSy_spad_element (hkind : j.kind = .gatherSy y dst idx n d) {now : Job} (hnow : withIndices s k j idx n t = now)
    (hstray : badIndex d now j.nums.length = none) (hspad : symSpad d = true) (ht : t = 17 + i) (hi : i < n) {x : List Nat}
    (hx : unlinear d (now.nums.getD i 0) = some x) {land : Nat}
    (hland : t + 2 + spanOf now.run (blkSt (blkOf (symBase d))) cpiSt + spanOf now.run cpiSt (blkSt (blkOf dst)) = land) {e : Nat × Flags}
    (he : expanded d x (Memory.readNat (getCore s k).spad (symBase d + (canon d x).1 * symSize d) (symSize d)) = e) : sampleCycle s k j t =
      .ok (putsFlags (puts s k now land (2 * i) (.spad (dst + i * symSize d) (symSize d) (2 ^ symSize d - 1) e.1 now.lc)) k now land (2 * i + 1)
        .cp e.2) now := by
  refine (gatherSy_element hkind hnow hstray (by rw [ht, hspad, if_pos rfl]) hi hx ((if_pos hspad).trans hland)).trans ?_
  subst he
  by_cases hzero : (canon d x).2.2.1 = true
  · rw [if_pos hzero, expanded_of_zero hzero]
    rfl
  · rw [if_neg hzero, if_pos hspad, expanded_eq_symRead (Bool.eq_false_iff.2 hzero)]
    rfl

theorem gatherSy_mem_element (hkind : j.kind = .gatherSy y dst idx n d) {now : Job} (hnow : withIndices s k j idx n t = now)
    (hstray : badIndex d now j.nums.length = none) (hspad : symSpad d = false) (ht : t = 16 + i) (hi : i < n) {x : List Nat}
    (hx : unlinear d (now.nums.getD i 0) = some x) : sampleCycle s k j t =
      if (canon d x).2.2.1 = true then
        .ok (puts s k now (t + 1280) (2 * i) (.spad (dst + i * symSize d) (symSize d) (2 ^ symSize d - 1) 0 now.lc)) now
      else .ok s now := by
  refine (gatherSy_element hkind hnow hstray (by rw [ht, hspad, if_neg (by simp)]) hi hx (if_neg (by simp [hspad]))).trans ?_
  rw [hspad, if_neg (show ¬ false = true by simp)]
  rfl

-- Scatters through an entry (R201) ----------------------------------------------------------------------------------------------------------------------

/-- The flags of a representative: of its rounding and of its members' codes. -/
theorem testBit_gatherFlags (ms : List (Member × Flags)) (it : FoldItem) (b : Nat) :
    (gatherFlags d ms it).fl.testBit b = true ↔ it.fl.testBit b = true ∨ memberFlag d ms it.rank b := by
  simp only [gatherFlags, Nat.testBit_or, Bool.or_eq_true, testBit_orFlags, memberFlag, List.mem_map, List.mem_filter, Bool.and_eq_true,
    Bool.not_eq_true', beq_iff_eq]
  refine or_congr_right ⟨?_, ?_⟩
  · rintro ⟨_, ⟨m, ⟨hm, hzero, hrank⟩, rfl⟩, hb⟩
    exact ⟨m, hm, hrank, hzero, hb⟩
  · rintro ⟨m, hm, hrank, hzero, hb⟩
    exact ⟨_, ⟨m, ⟨hm, hzero, hrank⟩, rfl⟩, hb⟩

/-- What a grouped store leaves is what `storesGroup` says. -/
theorem storesGroup_of_groupStore {ms : List (Member × Flags)} {implies : Bool} {land : Nat} {q : State → Job → Prop}
    (h : q (groupStore s k j y d implies ms land).1 (groupStore s k j y d implies ms land).2) : storesGroup s k j y d implies ms land q := by
  rw [groupStore] at h
  constructor
  · intro f hf
    rw [hf] at h
    exact h
  · intro items forced hf
    rw [hf] at h
    refine ⟨items.map (gatherFlags d ms), List.length_map _, fun i hi => ?_, h⟩
    have hit : (items.map (gatherFlags d ms)).getD i ⟨0, 0, 0, 0⟩ = gatherFlags d ms (items.getD i ⟨0, 0, 0, 0⟩) := by
      simp [List.getD_eq_getElem?_getD, hi]
    rw [hit]
    exact ⟨rfl, rfl, rfl, testBit_gatherFlags ms _⟩

/-- The `i`-th representative in device memory is looked up in its cycle. -/
theorem requestItems_requests {j : Job} {land look : Nat} (hcycle : requestCycle s k j t = requestItems s k j d land look t) (hspad : symSpad d = false)
    (ht : t = look + i) {it : FoldItem} (hit : j.items[i]? = some it) :
    requests s k j t it.pos (symSize d) (symSize d) 4 i [2] fun key u =>
      .ok (landsItem u k j land i it (.memWrite key (symSize d) (2 ^ symSize d - 1) it.val j.lc)) j := by
  have hi : i < j.items.length := (List.getElem?_eq_some_iff.1 hit).1
  have hti : t - look = i := by omega
  refine requests_of_request (hcycle.trans ?_)
  rw [requestItems]
  refine (if_pos ⟨hspad, by omega, by omega⟩).trans ?_
  rw [hti, hit]
  rfl

theorem requestCycle_scatterSy (hkind : j.kind = .scatterSy y src idx n d comb) (hspad : symSpad d = false) :
    requestCycle s k j t = requestItems s k j d (n + 1320) (n + 40) t := by
  simp [requestCycle, hkind, scatterLand, hspad]

/-- The element of a scatter through an entry is kept. -/
theorem scatterSy_element (hkind : j.kind = .scatterSy y src idx n d comb) {now : Job} (hnow : withIndices s k j idx n t = now)
    (hstray : badIndex d now j.nums.length = none) (ht : t = 17 + i) (hi : i < n) :
    sampleCycle s k j t = .ok s (withElement s k now src (symSize d) i) := by
  have hti : t - 17 = i := by omega
  rw [sampleCycle_scatterSy hkind, scatterSyCycle, readIndices_eq, hnow, hstray]
  dsimp only
  rw [if_pos (show 17 ≤ t ∧ t < 17 + n by omega), if_neg (show ¬ t = n + 39 by omega), hti]
  rfl

/-- The last occurrences of the indices. -/
def lastOccurrences (j : Job) (n : Nat) : List Nat :=
  (List.range n).filter fun q => (List.range n).all fun r => decide (q < r → j.nums.getD r 0 ≠ j.nums.getD q 0)

theorem lastOccurrences_eq (hn : j.nums.length = n) :
    (List.range n).filter (fun i => !((j.nums.drop (i + 1)).contains (j.nums.getD i 0))) = lastOccurrences j n := by
  refine List.filter_congr fun q hq => ?_
  rw [Bool.eq_iff_iff]
  simp only [Bool.not_eq_true', List.contains_eq_mem, decide_eq_false_iff_not, List.all_eq_true, List.mem_range, decide_eq_true_eq]
  simp only [List.mem_iff_getElem, List.length_drop, List.getElem_drop]
  constructor
  · intro h r hr hqr heq
    exact h ⟨r - (q + 1), by omega, by rw [← heq, List.getD_eq_getElem _ _ (by omega)]; congr 1; omega⟩
  · rintro h ⟨r, hr, heq⟩
    exact h (q + 1 + r) (by omega) (by omega) (by rw [← heq, List.getD_eq_getElem _ _ (by omega)])

/-- The members of the grouped store: the last occurrences, each with its combination. -/
def scatterMembers (j : Job) (d : BitVec 512) (n : Nat) (comb : Bool) (xs : Nat → List Nat) : List (Member × Flags) :=
  (lastOccurrences j n).map fun q => ((xs q, (storedValue j (symTy d) (symNf d) comb (symSize d) q).1),
    (storedValue j (symTy d) (symNf d) comb (symSize d) q).2)

theorem withIndices_after (hn : 1 ≤ n) (ht : t = n + 39) : withIndices s k j idx n t = j := by
  rw [withIndices, if_neg (by omega), List.append_nil]

theorem scatterSy_groups (hkind : j.kind = .scatterSy y src idx n d comb) (hlen : j.nums.length = n) (hn : 1 ≤ n) (ht : t = n + 39)
    {xs : Nat → List Nat} (hxs : ∀ q, q < n → unlinear d (j.nums.getD q 0) = some (xs q)) :
    storesGroup s k j y d false (scatterMembers j d n comb xs) (if symSpad d then n + 48 else n + 1320) fun u v => sampleCycle s k j t =
      if symSpad d = true ∧ ∃ it ∈ v.items, shutAt s k j.issue it.pos (symSize d) then
        .fault s { j with stopped := true } 0x08 [0, 0, toWord j.seq, 0] 0
      else .ok u v := by
  have hstray : badIndex d j j.nums.length = none := by
    rw [badIndex_eq_none_iff]
    rintro ⟨q, hq, hlt, -⟩
    omega
  have hms : (((List.range n).filter (fun i => !((j.nums.drop (i + 1)).contains (j.nums.getD i 0)))).map
      (fun i => (i, occurrenceValue j (symTy d) (symNf d) comb (symSize d) i))).map
      (fun v => (((unlinear d (j.nums.getD v.1 0)).getD [], v.2.1), v.2.2)) = scatterMembers j d n comb xs := by
    rw [lastOccurrences_eq hlen, List.map_map, scatterMembers]
    refine List.map_congr_left fun q hq => ?_
    have hqn : q < n := List.mem_range.1 (List.mem_filter.1 hq).1
    simp only [Function.comp_apply, occurrenceValue_eq, hxs q hqn, Option.getD_some]
  refine storesGroup_of_groupStore ?_
  rw [sampleCycle_scatterSy hkind, scatterSyCycle, readIndices_eq, withIndices_after hn ht, hstray]
  dsimp only
  rw [if_neg (show ¬ (17 ≤ t ∧ t < 17 + n) by omega), if_pos ht, hms]
  refine if_congr ?_ rfl rfl
  simp only [List.any_eq_true, inOpenWindow_iff_shutAt]
  rfl

end

/-- What the indices of the model stand for, as the claim has them. -/
theorem unlinear_of_tuple {d : BitVec 512} {u : Job} {i : Nat} {x : List Nat}
    (h : x.length = symRank d ∧ (∀ q, q < symRank d → x.getD q 0 < symExt d q) ∧ linearOf d x = u.nums.getD i 0) :
    unlinear d (u.nums.getD i 0) = some x := by
  obtain ⟨hlen, hext, hlin⟩ := h
  rw [← hlin, unlinear_linearOf hlen hext]

/-- Settles O33: each element is computed from the row just read; through an entry the linear index is undone digit by digit, and a grouped
store is what `groupStore` leaves. -/
theorem indexedCyclesMoveElements : Obligations.IndexedCyclesMoveElements := by
  intro s k j src dst idx n i t ty comb y d
  have hstray {now : Job} (h : ¬ ∃ q, j.nums.length ≤ q ∧ q < now.nums.length ∧ Beyond d now q) : badIndex d now j.nums.length = none :=
    (badIndex_eq_none_iff d now _).2 h
  refine ⟨fun hkind => ⟨gather_reads_row hkind (.inl rfl), fun ht hi => requests_gather hkind ht hi⟩,
    fun hkind => ⟨fun ht => gather_reads_row hkind (.inr ht),
      fun ht hi => ⟨gather_element_lands hkind ht hi rfl, gather_element_faults hkind ht hi rfl⟩⟩,
    fun _ hkind ht hi => ⟨scatter_mem_element hkind ht hi, requests_scatter hkind ht hi⟩,
    fun _ hkind ht hi => ⟨fun hlies hshut => scatter_element_lands hkind ht hi rfl rfl hlies hshut rfl, scatter_element_faults hkind ht hi rfl⟩,
    fun q hkind hge hlt hbeyond hfirst => orbit_index_faults hkind (badIndex_eq_some hge hlt hbeyond hfirst),
    fun hkind hno => ⟨fun x hspad ht hi htup => ?_, fun x hspad ht hi => ⟨fun htup hzero => ?_, fun htup hzero => ?_, fun htup hzero => ?_,
      fun htup hzero => requests_gatherSy hkind hspad ht hi (unlinear_of_tuple htup) hzero⟩⟩,
    fun hkind hty hlen hn ht _ xs hxs => ?_, fun it hkind hspad ht hit => requestItems_requests (requestCycle_scatterSy hkind hspad) hspad ht hit,
    fun hkind hno ht hi => scatterSy_element hkind rfl (hstray hno) ht hi⟩
  · exact gatherSy_spad_element hkind rfl (hstray hno) hspad ht hi (unlinear_of_tuple htup) (Nat.add_assoc _ _ _) rfl
  · exact (gatherSy_mem_element hkind rfl (hstray hno) hspad ht hi (unlinear_of_tuple htup)).trans (if_pos hzero)
  · exact (gatherSy_mem_element hkind rfl (hstray hno) hspad ht hi (unlinear_of_tuple htup)).trans (if_neg (by simp [hzero]))
  · exact (requestCycle_gatherSy hkind hspad ht hi (unlinear_of_tuple htup)).trans (if_pos hzero)
  · subst hty
    exact scatterSy_groups hkind hlen hn ht fun q hq => unlinear_of_tuple (hxs q hq)

end Sys2Proof.Proofs
end

