-- ==== Sys2Proof/Proofs/FillCycles.lean ====
section
/-! PROOF. Fills, codebook expansion, expanded tiles and folds in progress (R202 to R208). -/

namespace Sys2Proof.Proofs

open Sys2Proof Sys2Proof.Machine Sys2Proof.Claims Sys2Proof.Laws

/-- A command that keeps `n` bytes of scratchpad at a place of its buffer. -/
def withBytes (s : State) (k : Nat) (j : Job) (p a n : Nat) : Job :=
  { j with buf := Memory.writeNat j.buf p n (Memory.readNat (getCore s k).spad a n) }

-- Fills (R202 to R204) -----------------------------------------------------------------------------------------------------------------------------

section
variable {s : State} {k : Nat} {j : Job} {kind num src rows cols size i t : Nat} {stride : Int} {ty : Ty}

/-- A fill keeps the row that it reads from scratchpad. -/
theorem fill_reads_row (hkind : j.kind = .fill kind num src stride rows cols size ty false) (ht : t = i + 1) (hi : i < rows) (hlast : t ≠ 39) :
    sampleCycle s k j t = .ok s (withBytes s k j (128 * i) (((src : Int) + i * stride) % 2 ^ 64).toNat (cols * size)) := by
  have hcycle : sampleCycle s k j t = fillCycle s k j kind num src stride rows cols size ty false t := by rw [sampleCycle, hkind]
  subst ht
  have hread : (!false && decide (1 ≤ i + 1) && decide (i + 1 ≤ rows)) = true := by simp; omega
  rw [hcycle, fillCycle, if_pos hread, if_neg (show ¬ i + 1 + 1 = if false = true then 1296 else 40 by simp; omega), Nat.add_sub_cancel]
  rfl

/-- Its rows land when all are there. -/
theorem fill_lands {mem : Bool} (hkind : j.kind = .fill kind num src stride rows cols size ty mem) (ht : t + 1 = if mem then 1296 else 40)
    (hrows : rows ≤ 32) : sampleCycle s k j t = .ok (puts s k j (t + 1) 0 (fillEffect kind num rows cols ty (bufRows j rows))) j := by
  have hcycle : sampleCycle s k j t = fillCycle s k j kind num src stride rows cols size ty mem t := by rw [sampleCycle, hkind]
  have hnone : ¬ (!mem && decide (1 ≤ t) && decide (t ≤ rows)) = true := by
    cases mem <;> simp at ht ⊢ <;> omega
  rw [hcycle, fillCycle, if_neg hnone, if_pos ht, ← ht]
  rfl

theorem fillEffect_eq (kind num rows cols : Nat) (ty : Ty) (vals : List Row) : fillEffect kind num rows cols ty vals =
    if kind = 0 then .fill num vals rows cols ty else if kind = 1 then .pmRows num vals else .cbRows num vals :=
  match kind with
  | 0 => rfl
  | 1 => rfl
  | _ + 2 => rfl

end

-- Codebook expansion (R205) --------------------------------------------------------------------------------------------------------------------------

/-- The codebook entry that index `q` of row `i` names. -/
def bookEntry (c : CoreState) (j : Job) (book per i q : Nat) : Nat :=
  bits (Sparse.get 0 c.cb (16 * book + Memory.readNat j.buf (per * i + q) 1 / 16)).toNat (64 * (Memory.readNat j.buf (per * i + q) 1 % 16)) 64

theorem vqRow_eq (c : CoreState) (j : Job) (book per i : Nat) : vqRow c j book per i = placedSum 64 (bookEntry c j book per i) per := rfl

theorem vqRow_lt (c : CoreState) (j : Job) (book i : Nat) : vqRow c j book 8 i < 2 ^ 512 := by
  have h := placedSum_lt (fun q => Nat.mod_lt _ (Nat.two_pow_pos 64) : ∀ q, bookEntry c j book 8 i q < 2 ^ 64) 8
  rwa [show 64 * 8 = 512 from rfl] at h

theorem bookEntry_lt (c : CoreState) (j : Job) (book per i q : Nat) : bookEntry c j book per i q < 2 ^ 64 := Nat.mod_lt _ (Nat.two_pow_pos _)

section
variable {s : State} {k : Nat} {j : Job} {slot src dst rows book i t : Nat} {ty : Ty}

theorem sampleCycle_vq {sp : Bool} (hkind : j.kind = .vq slot src dst rows ty sp book) :
    sampleCycle s k j t = vqCycle s k j slot src dst rows ty sp book t := by rw [sampleCycle, hkind]

/-- A row of indices is kept. -/
theorem vq_reads_row {sp : Bool} {total : Nat} (hkind : j.kind = .vq slot src dst rows ty sp book) (htotal : (if sp then 16 * rows else 256) = total)
    (ht : t = i + 1) (hi : 128 * i < total) (hearly : t < 16) : sampleCycle s k j t =
      .ok s (withBytes s k j (128 * i) (src + 128 * i) (min 128 (total - 128 * i))) := by
  subst ht
  rw [sampleCycle_vq hkind, vqCycle, htotal]
  dsimp only
  rw [if_pos (show 1 ≤ i + 1 ∧ i + 1 ≤ rowsOf total by rw [rowsOf]; omega), if_neg (show ¬ (16 ≤ i + 1 ∧ i + 1 < 16 + rows) by omega),
    Nat.add_sub_cancel]
  rfl

/-- An output row lands in scratchpad. -/
theorem vq_spad_row (hkind : j.kind = .vq slot src dst rows ty true book) (ht : t = 16 + i) (hi : i < rows) (hread : 16 * rows + 128 ≤ 128 * t) :
    sampleCycle s k j t = .ok (puts s k j (t + 1 + spanOf j.run ceSt (blkSt (dst / 2 ^ 18 % 8))) i
      (.spad (dst + 128 * i) 128 (2 ^ 128 - 1) (vqRow (getCore s k) j book 16 i) j.lc)) j := by
  have hti : t - 16 = i := by omega
  rw [sampleCycle_vq hkind, vqCycle]
  simp only [if_true]
  rw [if_neg (show ¬ (1 ≤ t ∧ t ≤ rowsOf (16 * rows)) by rw [rowsOf]; omega), if_pos (show 16 ≤ t ∧ t < 16 + rows by omega), hti]
  rfl

/-- An output row is kept for its slot, which the last of them fills. -/
theorem vq_slot_row (hkind : j.kind = .vq slot src dst rows ty false book) (ht : t = 16 + i) (hi : i < rows) : sampleCycle s k j t =
    .ok (if t = 47 then puts s k j 48 0 (.fill slot ((j.nums ++ [vqRow (getCore s k) j book 8 i]).map (BitVec.ofNat 1024)) 32 32 ty) else s)
      { j with nums := j.nums ++ [vqRow (getCore s k) j book 8 i] } := by
  have hti : t - 16 = i := by omega
  rw [sampleCycle_vq hkind, vqCycle]
  simp only [Bool.false_eq_true, if_false]
  rw [if_neg (show ¬ (1 ≤ t ∧ t ≤ rowsOf 256) by rw [rowsOf]; omega), if_pos (show 16 ≤ t ∧ t < 16 + rows by omega), hti]
  by_cases hlast : t = 47
  · rw [if_pos hlast, if_pos (show t + 1 = 48 by omega)]
    rfl
  · rw [if_neg hlast, if_neg (show ¬ t + 1 = 48 by omega)]

end

-- Expanded tiles (R207) --------------------------------------------------------------------------------------------------------------------------------

section
variable {s : State} {k : Nat} {j : Job} {slot y dst rows cols rdim cdim i e t : Nat} {tup : List Nat} {d : BitVec 512} {sp : Bool}

/-- An element of the tile is a forced zero. -/
abbrev ForcedZero (d : BitVec 512) (tup : List Nat) (rdim cdim cols p : Nat) : Prop := (canon d (expandIndex tup rdim cdim cols p)).2.2.1 = true

theorem requestCycle_expand (hkind : j.kind = .expand slot y 0 dst rows cols tup rdim cdim d sp) :
    requestCycle s k j t = expandRequest s k j rows cols tup rdim cdim d t := by rw [requestCycle, hkind]

theorem expand_asks_nothing (hkind : j.kind = .expand slot y 0 dst rows cols tup rdim cdim d sp) (hzero : ForcedZero d tup rdim cdim cols t) :
    requestCycle s k j t = .ok s j := by
  rw [requestCycle_expand hkind, expandRequest]
  refine if_neg ?_
  rintro ⟨-, -, hnonzero⟩
  exact absurd (hzero.symm.trans hnonzero) (by simp)

theorem requests_expand (hkind : j.kind = .expand slot y 0 dst rows cols tup rdim cdim d sp) (hspad : symSpad d = false) (ht : t < rows * cols)
    (hzero : ¬ ForcedZero d tup rdim cdim cols t) :
    requests s k j t (symBase d + (canon d (expandIndex tup rdim cdim cols t)).1 * symSize d) (symSize d) (symSize d) 3 t [1] fun key u =>
      .ok (puts u k j (t + 1279) t (.memRead key (symSize d) (.job j.stream j.seq (symSize d * t)))) j :=
  requests_of_request ((requestCycle_expand hkind).trans (if_pos ⟨hspad, ht, Bool.eq_false_iff.2 hzero⟩))

/-- The command after the element that it samples in the cycle. -/
def withSample (s : State) (k : Nat) (j : Job) (rows cols : Nat) (tup : List Nat) (rdim cdim : Nat) (d : BitVec 512) (t e : Nat) : Job :=
  if symSpad d = true ∧ t = e + 1 ∧ e < rows * cols ∧ ¬ ForcedZero d tup rdim cdim cols e then
    withBytes s k j (symSize d * e) (symBase d + (canon d (expandIndex tup rdim cdim cols e)).1 * symSize d) (symSize d)
  else j

theorem withSample_buf : { j with buf := (withSample s k j rows cols tup rdim cdim d t e).buf } = withSample s k j rows cols tup rdim cdim d t e := by
  unfold withSample
  split <;> rfl

theorem sampleCycle_expand (hkind : j.kind = .expand slot y 0 dst rows cols tup rdim cdim d sp) (ht : t = e + 1) :
    sampleCycle s k j t = expandOut s k (withSample s k j rows cols tup rdim cdim d t e) slot dst rows cols tup rdim cdim d sp t := by
  have hcycle : sampleCycle s k j t = expandCycle s k j slot dst rows cols tup rdim cdim d sp t := by rw [sampleCycle, hkind]
  subst ht
  rw [hcycle, expandCycle, Nat.add_sub_cancel]
  refine congrArg (fun v => expandOut s k v slot dst rows cols tup rdim cdim d sp (e + 1)) (if_congr ?_ rfl rfl)
  simp only [Bool.and_eq_true, decide_eq_true_eq, Bool.not_eq_true', ForcedZero, Bool.not_eq_true]
  constructor
  · rintro ⟨⟨⟨hspad, -⟩, he⟩, hzero⟩
    exact ⟨hspad, trivial, by omega, hzero⟩
  · rintro ⟨hspad, -, he, hzero⟩
    exact ⟨⟨⟨hspad, by omega⟩, by omega⟩, hzero⟩

/-- A row is placed in the cycles that R207 names. -/
theorem expandPlaces_iff {q : Nat} (hcols : 1 ≤ cols) : expandPlaces t q rows cols = true ↔ ∃ r, r < rows ∧ t = q + (r + 1) * cols := by
  simp only [expandPlaces, Bool.and_eq_true, decide_eq_true_eq, beq_iff_eq]
  constructor
  · rintro ⟨⟨hq, hmod⟩, hdiv⟩
    have hwhole := Nat.div_add_mod (t - q) cols
    have hpos : 1 ≤ (t - q) / cols := (Nat.one_le_div_iff hcols).2 (by omega)
    refine ⟨(t - q) / cols - 1, by omega, ?_⟩
    rw [Nat.sub_add_cancel hpos, Nat.mul_comm]
    omega
  · rintro ⟨r, hr, rfl⟩
    rw [Nat.add_sub_cancel_left, Nat.mul_mod_left, Nat.mul_div_cancel _ hcols]
    have hle : cols ≤ (r + 1) * cols := Nat.le_mul_of_pos_left cols (Nat.succ_pos r)
    omega

/-- A row of the tile (R75, R207). -/
theorem expandRow_eq (j : Job) (d : BitVec 512) (tup : List Nat) (rdim cdim cols r : Nat) : expandRow j d tup rdim cdim cols r =
    (List.range cols).map fun q => expanded d (expandIndex tup rdim cdim cols (r * cols + q)) (Memory.readNat j.buf (symSize d * (r * cols + q)) (symSize d)) :=
  rfl

theorem expandOut_nothing (hcols : 1 ≤ cols) (h : ∀ r, r < rows → t ≠ expandQ (symSpad d) + (r + 1) * cols) :
    expandOut s k j slot dst rows cols tup rdim cdim d sp t = .ok s j := by
  rw [expandOut]
  refine if_neg ?_
  rw [expandPlaces_iff hcols]
  rintro ⟨r, hr, ht⟩
  exact h r hr ht

theorem expandOut_places (hcols : 1 ≤ cols) (hi : i < rows) (ht : t = expandQ (symSpad d) + (i + 1) * cols) {now : Job}
    (hnow : { j with buf := now.buf } = now) :
    expandOut s k now slot dst rows cols tup rdim cdim d sp t =
      if sp = true then
        .ok (putsFlags (puts s k j (t + 1 + spanOf j.run cpiSt (blkSt (dst / 2 ^ 18 % 8))) (2 * i)
            (.spad (dst + 128 * i) (symSize d * cols) (2 ^ (symSize d * cols) - 1)
              (packLanes (8 * symSize d) ((expandRow now d tup rdim cdim cols i).map Prod.fst)) j.lc))
          k j (t + 1 + spanOf j.run cpiSt (blkSt (dst / 2 ^ 18 % 8))) (2 * i + 1) .cp (orFlags (expandRow now d tup rdim cdim cols i))) now
      else if i + 1 = rows then
        .ok (putsFlags (puts s k j (expandQ (symSpad d) + 16 + rows * cols) 0
            (.fill slot (((List.range rows).map (expandRow now d tup rdim cdim cols)).map fun r =>
              BitVec.ofNat 1024 (packLanes (8 * symSize d) (r.map Prod.fst))) rows cols (symTy d)))
          k j (expandQ (symSpad d) + 16 + rows * cols) 1 .cp (orFlags ((List.range rows).map (expandRow now d tup rdim cdim cols)).flatten)) now
      else .ok s now := by
  have hrow : (t - expandQ (symSpad d)) / cols - 1 = i := by
    rw [ht, Nat.add_sub_cancel_left, Nat.mul_div_cancel _ hcols, Nat.add_sub_cancel]
  generalize now.buf = b at hnow
  subst hnow
  rw [expandOut]
  refine (if_pos ((expandPlaces_iff hcols).2 ⟨i, hi, ht⟩)).trans ?_
  rw [hrow]
  rfl

/-- A row of the tile lands in scratchpad. -/
theorem expand_spad_row (hkind : j.kind = .expand slot y 0 dst rows cols tup rdim cdim d true) (hcols : 1 ≤ cols) (ht : t = e + 1)
    (hplace : t = expandQ (symSpad d) + (i + 1) * cols) (hi : i < rows) {now : Job} (hnow : withSample s k j rows cols tup rdim cdim d t e = now) :
    sampleCycle s k j t =
      .ok (putsFlags (puts s k j (t + 1 + spanOf j.run cpiSt (blkSt (dst / 2 ^ 18 % 8))) (2 * i)
          (.spad (dst + 128 * i) (symSize d * cols) (2 ^ (symSize d * cols) - 1)
            (packLanes (8 * symSize d) ((expandRow now d tup rdim cdim cols i).map Prod.fst)) j.lc))
        k j (t + 1 + spanOf j.run cpiSt (blkSt (dst / 2 ^ 18 % 8))) (2 * i + 1) .cp (orFlags (expandRow now d tup rdim cdim cols i))) now := by
  subst hnow
  exact (sampleCycle_expand hkind ht).trans ((expandOut_places hcols hi hplace withSample_buf).trans (if_pos rfl))

/-- A row of the tile but the last waits for its slot. -/
theorem expand_slot_row (hkind : j.kind = .expand slot y 0 dst rows cols tup rdim cdim d false) (hcols : 1 ≤ cols) (ht : t = e + 1)
    (hplace : t = expandQ (symSpad d) + (i + 1) * cols) (hi : i + 1 < rows) :
    sampleCycle s k j t = .ok s (withSample s k j rows cols tup rdim cdim d t e) :=
  (sampleCycle_expand hkind ht).trans
    ((expandOut_places hcols (by omega) hplace withSample_buf).trans ((if_neg (by simp)).trans (if_neg (by omega))))

/-- The last row of the tile fills its slot. -/
theorem expand_fills_slot (hkind : j.kind = .expand slot y 0 dst rows cols tup rdim cdim d false) (hcols : 1 ≤ cols) (ht : t = e + 1)
    (hplace : t = expandQ (symSpad d) + (i + 1) * cols) (hi : i + 1 = rows) {now : Job}
    (hnow : withSample s k j rows cols tup rdim cdim d t e = now) : sampleCycle s k j t =
      .ok (putsFlags (puts s k j (expandQ (symSpad d) + 16 + rows * cols) 0
          (.fill slot ((List.range rows).map fun r =>
            BitVec.ofNat 1024 (packLanes (8 * symSize d) ((expandRow now d tup rdim cdim cols r).map Prod.fst))) rows cols (symTy d)))
        k j (expandQ (symSpad d) + 16 + rows * cols) 1 .cp (orFlags ((List.range rows).map (expandRow now d tup rdim cdim cols)).flatten)) now := by
  subst hnow
  refine (sampleCycle_expand hkind ht).trans ((expandOut_places hcols (by omega) hplace withSample_buf).trans ((if_neg (by simp)).trans ?_))
  rw [if_pos hi, List.map_map]
  rfl

end

-- Folds (R208) -------------------------------------------------------------------------------------------------------------------------------------------

section
variable {s : State} {k : Nat} {j : Job} {tile y rows cols row0 col0 rdim cdim i t : Nat} {tup : List Nat} {d : BitVec 512} {tag : BitVec 2}

theorem sampleCycle_fold (hkind : j.kind = .fold tile y rows cols row0 col0 tup rdim cdim d tag) :
    sampleCycle s k j t = foldCycle s k j tile y rows cols row0 col0 tup rdim cdim d tag t := by rw [sampleCycle, hkind]

/-- The members of a fold set no flags of their own. -/
theorem foldMembers_plain (j : Job) (d : BitVec 512) (tup : List Nat) (rdim cdim row0 col0 rows cols : Nat) :
    (foldMembers j d tup rdim cdim row0 col0 rows cols).map (fun m => (m, (0 : Flags))) =
      (List.range (rows * cols)).map fun p => ((tileIndex tup rdim cdim row0 col0 (p / cols) (p % cols),
        Memory.readNat j.buf (128 * (p / cols) + symSize d * (p % cols)) (symSize d)), 0) := List.map_map

theorem fold_groups (hkind : j.kind = .fold tile y rows cols row0 col0 tup rdim cdim d tag) :
    storesGroup s k j y d (tagImplies d tag rdim cdim row0 col0)
      ((List.range (rows * cols)).map fun p => ((tileIndex tup rdim cdim row0 col0 (p / cols) (p % cols),
        Memory.readNat j.buf (128 * (p / cols) + symSize d * (p % cols)) (symSize d)), 0)) (foldLand d rows)
      fun u v => sampleCycle s k j rows = .ok u v := by
  rw [← foldMembers_plain]
  refine storesGroup_of_groupStore ?_
  rw [sampleCycle_fold hkind, foldCycle, if_neg (lt_irrefl rows), if_pos rfl]

end

/-- Settles O34: rows are kept one a cycle, and what they make up is placed side by side; the expanded tile and the fold go through the same
orbit maps as the gathers and scatters through an entry. -/
theorem fillExpansionAndFoldCycles : Obligations.FillExpansionAndFoldCycles := by
  intro s k j t i e
  refine ⟨fun kind num src stride rows cols size ty mem hkind => ⟨?_, fun ht hrows => ?_⟩,
    fun slot src dst rows ty sp book hkind => ⟨vq_reads_row hkind rfl, ?_, ?_⟩,
    fun slot y dst rows cols tup rdim cdim d sp hkind hcols => ⟨?_, fun ht hnone => ?_, fun ht hplace hi => ⟨?_, ?_, ?_⟩⟩,
    fun tile y rows cols row0 col0 tup rdim cdim d tag hkind => ⟨fun ht => ?_, fun ht => ?_, fun it hspad ht hit => ?_⟩⟩
  · rintro rfl ht hi hlast
    exact fill_reads_row hkind ht hi hlast
  · exact (fill_lands hkind ht hrows).trans (by rw [fillEffect_eq]; rfl)
  · rintro rfl ht hi hread
    exact ⟨_, fun q hq => placedSum_part (bookEntry_lt _ j book 16 i) hq, vq_spad_row hkind ht hi hread⟩
  · rintro rfl ht hi
    exact ⟨_, vqRow_lt _ j book i, fun q hq => placedSum_part (bookEntry_lt _ j book 8 i) hq, vq_slot_row hkind ht hi⟩
  · rintro hspad ht rfl
    exact ⟨expand_asks_nothing hkind, requests_expand hkind hspad ht⟩
  · exact (sampleCycle_expand hkind ht).trans (expandOut_nothing hcols hnone)
  · rintro rfl
    exact expand_spad_row hkind hcols ht hplace hi rfl
  · rintro rfl hrows
    exact expand_slot_row hkind hcols ht hplace hrows
  · rintro rfl hrows
    exact expand_fills_slot hkind hcols ht hplace hrows rfl
  · exact (sampleCycle_fold hkind).trans (if_pos ht)
  · subst ht
    exact fold_groups hkind
  · exact requestItems_requests (by rw [requestCycle, hkind]; rfl) hspad ht hit

end Sys2Proof.Proofs
end

