-- ==== Sys2Proof/Proofs/VectorArithmetic.lean ====
section
/-! PROOF. Vector arithmetic and the immediate forms (R219 to R228): the lanes of each command. -/

namespace Sys2Proof.Proofs

open Sys2Proof Sys2Proof.Machine Sys2Proof.Claims Sys2Proof.Laws

-- Integers (R226, R227) ------------------------------------------------------------------------------------------------------------------------------

theorem intOf_eq_laneInt {t : Ty} {c : Nat} (hc : c < 2 ^ Ty.bits t) : intOf t c = laneInt t c := by
  rw [intOf, Nat.mod_eq_of_lt hc, laneInt]
  by_cases hsigned : Ty.isSigned t = true
  · by_cases htop : 2 ^ (Ty.bits t - 1) ≤ c
    · simp [hsigned, htop, Nat.not_lt.2 htop, asSigned]
    · simp [hsigned, htop, Nat.not_le.1 htop, asSigned]
  · simp [hsigned]

theorem two_pow_bits (t : Ty) : 2 ^ Ty.bits t = 2 * 2 ^ (Ty.bits t - 1) := by cases t <;> rfl

/-- An integer lane lies in its type's range. -/
theorem laneInt_bounds {t : Ty} {c : Nat} (hc : c < 2 ^ Ty.bits t) : Ty.intMin t ≤ laneInt t c ∧ laneInt t c ≤ Ty.intMax t := by
  have hfull : (2 : Int) ^ Ty.bits t = 2 * 2 ^ (Ty.bits t - 1) := by exact_mod_cast two_pow_bits t
  have hhalf : ((2 ^ (Ty.bits t - 1) : Nat) : Int) = 2 ^ (Ty.bits t - 1) := by push_cast; rfl
  rw [two_pow_bits] at hc
  rw [laneInt, Ty.intMin, Ty.intMax, hfull, ← hhalf]
  by_cases hsigned : Ty.isSigned t = true
  · simp only [hsigned, true_and, if_true]
    split <;> omega
  · simp only [hsigned, false_and, if_false, Bool.false_eq_true]
    omega

theorem intCode_of_lt {w n : Nat} (hn : n < 2 ^ w) : intCode w n = n := by
  have hcast : ((n : Int) % 2 ^ w) = ((n % 2 ^ w : Nat) : Int) := by push_cast; rfl
  rw [intCode, hcast, Nat.mod_eq_of_lt hn]
  rfl

/-- A magnitude clamps at the type's largest value (R228). -/
theorem clampInt_natAbs {t : Ty} {c : Nat} (hc : c < 2 ^ Ty.bits t) : clampInt t ((laneInt t c).natAbs : Int) =
    if (laneInt t c).natAbs < 2 ^ (Ty.bits t - 1) ∨ Ty.isSigned t = false then ((laneInt t c).natAbs, 0)
    else (2 ^ (Ty.bits t - 1) - 1, fSAT) := by
  have hfull : (2 : Int) ^ Ty.bits t = 2 * 2 ^ (Ty.bits t - 1) := by exact_mod_cast two_pow_bits t
  have hhalf : (2 : Int) ^ (Ty.bits t - 1) = ((2 ^ (Ty.bits t - 1) : Nat) : Int) := by push_cast; rfl
  have hpos : 0 < 2 ^ (Ty.bits t - 1) := Nat.two_pow_pos _
  have hbits := two_pow_bits t
  obtain ⟨hlo, hhi⟩ := laneInt_bounds hc
  rw [clampInt]
  rw [Ty.intMin, hhalf] at hlo ⊢
  rw [Ty.intMax, hfull, hhalf] at hhi ⊢
  by_cases hsigned : Ty.isSigned t = true
  · simp only [hsigned, if_true] at hlo hhi ⊢
    by_cases hfit : (laneInt t c).natAbs < 2 ^ (Ty.bits t - 1)
    · rw [if_neg (by omega), if_neg (by omega), if_pos (.inl hfit), intCode_of_lt (by omega)]
    · have htop : ((2 ^ (Ty.bits t - 1) : Nat) : Int) - 1 = ((2 ^ (Ty.bits t - 1) - 1 : Nat) : Int) := by omega
      rw [if_neg (by omega), if_pos (by omega), if_neg (by simp [hfit]), htop, intCode_of_lt (by omega)]
  · simp only [hsigned, if_false, Bool.false_eq_true] at hlo hhi ⊢
    rw [if_neg (by omega), if_neg (by omega), if_pos (.inr trivial), intCode_of_lt (by omega)]

-- One lane (R219, R227, R228) --------------------------------------------------------------------------------------------------------------------------

section
variable {t : Ty} {dA dB a b c : Nat} {rm : Rm} (ha : a < 2 ^ Ty.bits t)
include ha

theorem absLane_eq : absLane dA dB t rm a = if Ty.isFloat t then encodeNum (fmtOf t dB) rm (absNum (decodeNum (fmtOf t dA) a)) else
    (if (laneInt t a).natAbs < 2 ^ (Ty.bits t - 1) ∨ Ty.isSigned t = false then ((laneInt t a).natAbs, 0)
     else (2 ^ (Ty.bits t - 1) - 1, fSAT)) := by
  rw [absLane, intOf_eq_laneInt ha, clampInt_natAbs ha]
  rfl

variable (hb : b < 2 ^ Ty.bits t)
include hb

theorem addLane_eq : addLane dA dB t rm a b =
    if Ty.isFloat t then encodeNum (fmtOf t dB) rm (Machine.Num.add rm (decodeNum (fmtOf t dA) a) (decodeNum (fmtOf t dA) b))
    else laneWrap t (laneInt t a + laneInt t b) := by
  rw [addLane, intOf_eq_laneInt ha, intOf_eq_laneInt hb]
  rfl

theorem subLane_eq : subLane dA dB t rm a b =
    if Ty.isFloat t then encodeNum (fmtOf t dB) rm (Machine.Num.add rm (decodeNum (fmtOf t dA) a) (decodeNum (fmtOf t dA) b).neg)
    else laneWrap t (laneInt t a - laneInt t b) := by
  rw [subLane, intOf_eq_laneInt ha, intOf_eq_laneInt hb]
  rfl

theorem mulLane_eq : mulLane dA dB t rm a b =
    if Ty.isFloat t then encodeNum (fmtOf t dB) rm ((decodeNum (fmtOf t dA) a).mul (decodeNum (fmtOf t dA) b))
    else laneWrap t (laneInt t a * laneInt t b) := by
  rw [mulLane, intOf_eq_laneInt ha, intOf_eq_laneInt hb]
  rfl

theorem minMaxLane_eq (mx : Bool) : minMaxLane mx dA dB t rm a b =
    minMaxOf mx t (decodeNum (fmtOf t dA)) (encodeNum (fmtOf t dB) rm) a b := by
  rw [minMaxLane, minMaxOf, intOf_eq_laneInt ha, intOf_eq_laneInt hb]
  refine if_congr Iff.rfl ?floats ?integers
  case floats =>
    have hpick : pickNum mx (laneNum t dA a) (laneNum t dA b) = (pickFloat mx (decodeNum (fmtOf t dA) a) (decodeNum (fmtOf t dA) b),
        if (decodeNum (fmtOf t dA) a).isSig || (decodeNum (fmtOf t dA) b).isSig then fINV else 0) := by
      rw [laneNum, laneNum]
      rcases decodeNum (fmtOf t dA) a <;> rcases decodeNum (fmtOf t dA) b <;> rfl
    rw [hpick]
    rfl
  case integers =>
    refine congrArg (fun v : Int => ((v % 2 ^ Ty.bits t).toNat, (0 : Flags))) (if_congr Iff.rfl ?_ ?_)
    · split <;> omega
    · split <;> omega

variable (hc : c < 2 ^ Ty.bits t)
include hc

theorem fmaLane_eq_add : fmaLane false dA dB t rm a b c =
    if Ty.isFloat t then encodeNum (fmtOf t dB) rm
      (Machine.Num.add rm ((decodeNum (fmtOf t dA) a).mul (decodeNum (fmtOf t dA) b)) (decodeNum (fmtOf t dA) c))
    else laneWrap t (laneInt t a * laneInt t b + laneInt t c) := by
  rw [fmaLane, intOf_eq_laneInt ha, intOf_eq_laneInt hb, intOf_eq_laneInt hc]
  rfl

theorem fmaLane_eq_sub : fmaLane true dA dB t rm a b c =
    if Ty.isFloat t then encodeNum (fmtOf t dB) rm
      (Machine.Num.add rm ((decodeNum (fmtOf t dA) a).mul (decodeNum (fmtOf t dA) b)) (decodeNum (fmtOf t dA) c).neg)
    else laneWrap t (laneInt t a * laneInt t b - laneInt t c) := by
  rw [fmaLane, intOf_eq_laneInt ha, intOf_eq_laneInt hb, intOf_eq_laneInt hc]
  rfl

end

-- Shapes of command ------------------------------------------------------------------------------------------------------------------------------------

/-- The results of a lane-wise command matter where its own checks hold. -/
theorem laneWise_congr {s : State} {i : Instr} {fmt many : Bool} {vd : VReg} {srcs : List VReg} {p : Prd} {z : Bool} {t : Ty}
    {own : List (Prop × Nat)} {delay : Nat} {f g : Nat → Nat × Flags} (h : laneWise s i fmt many vd srcs p z t own delay f)
    (hfg : (∀ x ∈ own, x.1) → ∀ e, f e = g e) : laneWise s i fmt many vd srcs p z t own delay g := by
  obtain ⟨hfaults, heffect⟩ := h
  refine ⟨hfaults, fun hall => ?_⟩
  obtain rfl : f = g := funext (hfg fun x hx => hall x (List.mem_append_right _ hx))
  exact heffect hall

theorem laneWise_arith2_of {s : State} {i : Instr} {o : VOps} {delay : Nat} {run : Nat → Nat → Nat → Nat → Nat × Flags} {f : Nat → Nat → Nat × Flags}
    (hexec : exec i s = arith2 o delay run s)
    (hf : ∀ {a b}, a < 2 ^ Ty.bits o.ty → b < 2 ^ Ty.bits o.ty → run (formatA s) (formatB s) a b = f a b) :
    laneWise s i (o.ty == .nf) true o.vd [o.va, o.vb] o.prd o.z o.ty [] delay
      (fun e => f (elem s o.ty o.va.toNat e) (elem s o.ty o.vb.toNat e)) :=
  laneWise_congr (laneWise_arith2 hexec) fun _ _ => hf (elem_lt s _ _ _) (elem_lt s _ _ _)

theorem laneWise_arith3_of {s : State} {i : Instr} {o : VOps} {delay : Nat} {run : Nat → Nat → Nat → Nat → Nat → Nat × Flags}
    {f : Nat → Nat → Nat → Nat × Flags} (hexec : exec i s = arith3 o delay run s)
    (hf : ∀ {a b c}, a < 2 ^ Ty.bits o.ty → b < 2 ^ Ty.bits o.ty → c < 2 ^ Ty.bits o.ty → run (formatA s) (formatB s) a b c = f a b c) :
    laneWise s i (o.ty == .nf) true o.vd [o.va, o.vb] o.prd o.z o.ty [] delay
      (fun e => f (elem s o.ty o.va.toNat e) (elem s o.ty o.vb.toNat e) (elem s o.ty o.vd.toNat e)) :=
  laneWise_of_veLanes hexec .nil fun e => by
    rw [descA_cur, descB_cur, ← hf (elem_lt s _ _ _) (elem_lt s _ _ _) (elem_lt s _ _ _)]
    exact ⟨rfl, rfl⟩

theorem laneWise_arith1_of {s : State} {i : Instr} {q : VOps1} {delay : Nat} {run : Nat → Nat → Nat → Nat × Flags} {f : Nat → Nat × Flags}
    (hexec : exec i s = arith1 q delay run s) (hf : ∀ {a}, a < 2 ^ Ty.bits q.ty → run (formatA s) (formatB s) a = f a) :
    laneWise s i (q.ty == .nf) true q.vd [q.va] q.prd q.z q.ty [] delay (fun e => f (elem s q.ty q.va.toNat e)) :=
  laneWise_congr (laneWise_arith1 hexec) fun _ _ => hf (elem_lt s _ _ _)

/-- Settles O35: each command is a lane-wise operation, its integer lanes read as they stand. -/
theorem vectorArithmetic : Obligations.VectorArithmetic := by
  intro s o q rm
  refine ⟨laneWise_arith2_of (run := fun dA dB a b => addLane dA dB o.ty rm a b) rfl addLane_eq,
    laneWise_arith2_of (run := fun dA dB a b => subLane dA dB o.ty rm a b) rfl subLane_eq,
    laneWise_arith2_of (run := fun dA dB a b => mulLane dA dB o.ty rm a b) rfl mulLane_eq,
    laneWise_arith3_of (run := fun dA dB a b c => fmaLane false dA dB o.ty rm a b c) rfl fmaLane_eq_add,
    laneWise_arith3_of (run := fun dA dB a b c => fmaLane true dA dB o.ty rm a b c) rfl fmaLane_eq_sub,
    ⟨laneWise_arith2_of (run := fun dA dB a b => minMaxLane false dA dB o.ty rm a b) rfl fun ha hb => minMaxLane_eq ha hb false,
      laneWise_arith2_of (run := fun dA dB a b => minMaxLane true dA dB o.ty rm a b) rfl fun ha hb => minMaxLane_eq ha hb true⟩,
    laneWise_arith1_of (run := fun dA dB a => negLane dA dB q.ty rm a) rfl fun _ => rfl,
    laneWise_arith1_of (run := fun dA dB a => absLane dA dB q.ty rm a) rfl absLane_eq, ?_⟩
  exact laneWise_of_veLanes (show execVmov q s = _ from rfl) .nil fun _ => ⟨rfl, rfl⟩

-- Immediates (R225) ------------------------------------------------------------------------------------------------------------------------------------

theorem immTypeOk_iff (t : Ty) : immTypeOk t = true ↔ immediateType t := by
  cases t <;> simp [immTypeOk, immediateType]

theorem immLane_eq (t : Ty) (imm : BitVec 16) (j : Nat) : immLane t imm j = immediate t imm j := by
  have himm := imm.isLt
  cases t
  case nf =>
    obtain h | h := Nat.mod_two_eq_zero_or_one j
    · simp [immLane, immediate, h]
    · simp only [immLane, immediate, h, if_neg (show ¬ (1 : Nat) = 0 by omega)]
      omega
  all_goals rfl

theorem immediate_lt {t : Ty} (ht : immediateType t) (imm : BitVec 16) (j : Nat) : immediate t imm j < 2 ^ Ty.bits t := by
  obtain ⟨-, -, hb1⟩ := ht
  have himm := imm.isLt
  cases t
  case b1 => exact absurd rfl hb1
  all_goals
    simp only [immediate, Ty.bits]
    omega

section
variable {s : State} {i : Instr} {o : VImm} {delay : Nat} {fmt : Bool}

/-- An immediate form is a lane-wise operation of its row and its immediate, whose type the last check allows. -/
theorem laneWise_imm {run : CoreState → Nat → Nat → Nat × Flags} {lane f : Nat → Nat → Nat × Flags}
    (hexec : exec i s = veLanes s o.vd o.prd o.z o.ty fmt true [] [(immTypeOk o.ty, fEncoding)] delay fun c e =>
      run c (elemAt c o.ty o.vd.toNat e) (immLane o.ty o.imm (e % Ty.lanes o.ty)))
    (hlane : ∀ a b, SameLane o.ty (run (cur s) a b) (lane a b))
    (hf : ∀ {a b}, a < 2 ^ Ty.bits o.ty → b < 2 ^ Ty.bits o.ty → lane a b = f a b) :
    laneWise s i fmt true o.vd [] o.prd o.z o.ty [(immediateType o.ty, 0x01)] delay (fun e =>
      f (elem s o.ty o.vd.toNat e) (immediate o.ty o.imm (e % Ty.lanes o.ty))) := by
  refine laneWise_congr (laneWise_of_veLanes hexec (.cons (.of_iff (immTypeOk_iff o.ty)) .nil) fun _ => hlane _ _) fun hown e => ?_
  have htype : immediateType o.ty := hown (immediateType o.ty, 0x01) (List.mem_singleton.2 rfl)
  rw [immLane_eq]
  exact hf (elem_lt s _ _ _) (immediate_lt htype _ _)

theorem laneWise_arithImm {run : Nat → Nat → Nat → Nat → Nat × Flags} {f : Nat → Nat → Nat × Flags} (hexec : exec i s = arithImm o delay run s)
    (hf : ∀ {a b}, a < 2 ^ Ty.bits o.ty → b < 2 ^ Ty.bits o.ty → run (formatA s) (formatB s) a b = f a b) :
    laneWise s i (o.ty == .nf) true o.vd [] o.prd o.z o.ty [(immediateType o.ty, 0x01)] delay (fun e =>
      f (elem s o.ty o.vd.toNat e) (immediate o.ty o.imm (e % Ty.lanes o.ty))) :=
  laneWise_imm (run := fun c => run (descA c) (descB c)) hexec (fun a b => by rw [descA_cur, descB_cur]; exact ⟨rfl, rfl⟩) hf

theorem laneWise_bitsImm {run : Nat → Nat → Nat} (f : Nat → Nat → Nat) (hexec : exec i s = bitsImm o run s)
    (hf : ∀ a b, run a b % 2 ^ Ty.bits o.ty = f a b % 2 ^ Ty.bits o.ty) :
    laneWise s i false true o.vd [] o.prd o.z o.ty [(immediateType o.ty, 0x01)] 2 (fun e =>
      (f (elem s o.ty o.vd.toNat e) (immediate o.ty o.imm (e % Ty.lanes o.ty)), 0)) :=
  laneWise_imm (run := fun _ a b => (run a b, 0)) (lane := fun a b => (f a b, 0)) (f := fun a b => (f a b, 0)) hexec
    (fun a b => ⟨hf a b, rfl⟩) fun _ _ => rfl

end

/-- Settles O36: an immediate form is its command of two sources, with the broadcast immediate in the second's place. -/
theorem vectorImmediates : Obligations.VectorImmediates := by
  intro s o rm
  refine ⟨laneWise_arithImm (run := fun dA dB a b => addLane dA dB o.ty rm a b) rfl addLane_eq,
    laneWise_arithImm (run := fun dA dB a b => mulLane dA dB o.ty rm a b) rfl mulLane_eq,
    laneWise_arithImm (run := fun dA dB a b => minMaxLane false dA dB o.ty rm a b) rfl fun ha hb => minMaxLane_eq ha hb false,
    laneWise_arithImm (run := fun dA dB a b => minMaxLane true dA dB o.ty rm a b) rfl fun ha hb => minMaxLane_eq ha hb true,
    laneWise_bitsImm (fun a b => a &&& b) rfl fun _ _ => rfl,
    laneWise_bitsImm (fun a b => a ||| b) rfl fun _ _ => rfl, laneWise_bitsImm (fun a b => a ^^^ b) rfl fun _ _ => rfl,
    laneWise_bitsImm (fun a b => if b < Ty.bits o.ty then a * 2 ^ b else 0) rfl fun _ _ => shlLane_mod _ _ _,
    laneWise_bitsImm (fun a b => if b < Ty.bits o.ty then a / 2 ^ b else 0) rfl fun _ _ => rfl, ?sar,
    laneWise_bitsImm (fun _ b => b) rfl fun _ _ => rfl⟩
  case sar =>
    exact laneWise_bitsImm (fun a b => ((if 2 ^ (Ty.bits o.ty - 1) ≤ a then (a : Int) - 2 ^ Ty.bits o.ty else a) /
      2 ^ (min b (Ty.bits o.ty)) % 2 ^ Ty.bits o.ty).toNat) rfl fun a b => congrArg (· % 2 ^ Ty.bits o.ty) (sarLane_eq _ a b)

end Sys2Proof.Proofs
end

