-- ==== Sys2Proof/Proofs/VectorConversions.lean ====
section
/-! PROOF. Conversions, comparisons and selection (R231 to R234). -/

namespace Sys2Proof.Proofs

open Sys2Proof Sys2Proof.Machine Sys2Proof.Claims Sys2Proof.Laws

-- Conversions (R231, R232) -----------------------------------------------------------------------------------------------------------------------------

/-- An integer brought into a type's range, with the flags of a clamp and of a value that fits. -/
def clampTo (t : Ty) (v : Int) (fl lim : Flags) : Nat × Flags :=
  if v < Ty.intMin t then ((Ty.intMin t % 2 ^ Ty.bits t).toNat, lim)
  else if Ty.intMax t < v then ((Ty.intMax t % 2 ^ Ty.bits t).toNat, lim) else ((laneWrap t v).1, fl)

theorem clampInt_eq (t : Ty) (v : Int) : clampInt t v = clampTo t v 0 fSAT := rfl

/-- A floating value as an integer of a type (R33, R232). -/
theorem numToInt_fin (t : Ty) (rm : Rm) (u : Bool) (m : Nat) (e : Int) : numToInt t rm (.fin u m e) =
    clampTo t (if u then -((roundRat rm u m 1 e).1 : Int) else (roundRat rm u m 1 e).1) (if (roundRat rm u m 1 e).2 then fINX else 0) (fSAT + fINX) := by
  rw [numToInt]
  dsimp only
  generalize (if u then -((roundRat rm u m 1 e).1 : Int) else (roundRat rm u m 1 e).1) = v
  rw [clampInt_eq, clampTo, clampTo]
  split
  · rfl
  · split <;> rfl

theorem intMin_le_intMax (t : Ty) : Ty.intMin t ≤ Ty.intMax t := by cases t <;> decide

theorem numToInt_inf (t : Ty) (rm : Rm) (u : Bool) : numToInt t rm (.inf u) =
    clampTo t (if u then Ty.intMin t - 1 else Ty.intMax t + 1) 0 (fSAT + fINX) := by
  have hle := intMin_le_intMax t
  rw [clampTo]
  cases u
  · simp only [Bool.false_eq_true, if_false]
    rw [if_neg (by omega), if_pos (by omega)]
    rfl
  · simp only [if_true]
    rw [if_pos (by omega)]
    rfl

/-- What a lane converts to: code `c` of type `src` into type `dst`, `d24` the draw of stochastic rounding. -/
def converted (A B : Nat) (src dst : Ty) (rm : Rm) (d24 c : Nat) : Nat × Flags :=
  let x := if Ty.isFloat src then decodeNum (fmtOf src A) c else numOfInt (laneInt src c)
  if Ty.isFloat dst then (if rm = .rs then roundStoch (fmtOf dst B) x d24 else encodeNum (fmtOf dst B) rm x)
  else if Ty.isFloat src then (match x with
    | .nan _ => (0, fINV)
    | .inf u => clampTo dst (if u then Ty.intMin dst - 1 else Ty.intMax dst + 1) 0 (fSAT + fINX)
    | .fin u m e =>
      let r := roundRat rm u m 1 e
      clampTo dst (if u then -(r.1 : Int) else r.1) (if r.2 then fINX else 0) (fSAT + fINX))
  else clampTo dst (laneInt src c) 0 fSAT

theorem cvtLane_eq (A B : Nat) (src dst : Ty) (rm : Rm) (d24 : Nat) {c : Nat} (hc : c < 2 ^ Ty.bits src) :
    cvtLane A B src dst rm d24 c = converted A B src dst rm d24 c := by
  rw [cvtLane, converted, intOf_eq_laneInt hc]
  by_cases hsrc : Ty.isFloat src = true <;> by_cases hdst : Ty.isFloat dst = true
  · simp only [hsrc, hdst, if_true]
    rfl
  · simp only [hsrc, hdst, if_true, if_false, Bool.false_eq_true]
    rw [laneNum]
    rcases decodeNum (fmtOf src A) c with _ | u | ⟨u, m, e⟩
    · rfl
    · exact numToInt_inf dst rm u
    · exact numToInt_fin dst rm u m e
  · simp only [hsrc, hdst, if_true, if_false, Bool.false_eq_true]
    rfl
  · simp only [hsrc, hdst, if_false, Bool.false_eq_true]
    rfl

/-- A command of one row passes the check of its group only with one row. -/
theorem oneGroup {s : State} {fmt : Bool} {p : Prd} {t : Ty} {rows : List VReg} {own : List (Prop × Nat)}
    (hall : ∀ x ∈ vectorChecks s fmt false p t rows own, x.1) : groupOf s p t = 1 := by
  have h : false = true ∨ groupOf s p t = 1 := hall (_, 0x01) (.tail _ (.tail _ (.tail _ (.head _))))
  simpa using h

theorem groupEffects_one {t : Ty} {vals : List (Option Nat)} (hlen : vals.length = Ty.lanes t) (r : Nat) :
    groupEffects t vals r 1 = rowEffects t r vals := by
  simp [groupEffects, List.take_of_length_le hlen.le]

section
variable {s : State} {q : VOps1} {src : Ty} {part : BitVec 3} {rm : Rm}

/-- What lands in a lane of a conversion: its code and flags. -/
def cvtAt (s : State) (q : VOps1) (src : Ty) (rm : Rm) (j i : Nat) : Nat × Flags :=
  converted (formatA s) (formatB s) src q.ty rm (draw (cur s).ve.seed.toNat (cur s).pid s.ctx.seq j / 256)
    ((Sparse.get 0 (cur s).rows q.va.toNat).toNat / 2 ^ (Ty.bits src * i) % 2 ^ Ty.bits src)

/-- A lane of a conversion: what is written, and the result whose flags are raised. -/
def cvtOut (s : State) (q : VOps1) (src : Ty) (part : Nat) (rm : Rm) (j : Nat) : Option Nat × Option (Nat × Flags) :=
  match cvtSource src q.ty part j with
  | none => (none, none)
  | some i => if activeAt s q.prd q.ty j = true then (some (cvtAt s q src rm j i).1, some (cvtAt s q src rm j i))
    else (if q.z then some 0 else none, none)

/-- What a conversion writes into a lane. -/
def cvtWrites (s : State) (q : VOps1) (src : Ty) (part : Nat) (rm : Rm) (j : Nat) : Option Nat :=
  match cvtSource src q.ty part j with
  | none => none
  | some i => if activeAt s q.prd q.ty j = true then some (cvtAt s q src rm j i).1 else if q.z = true then some 0 else none

theorem cvtOut_fst (s : State) (q : VOps1) (src : Ty) (part : Nat) (rm : Rm) (j : Nat) :
    (cvtOut s q src part rm j).1 = cvtWrites s q src part rm j := by
  rw [cvtOut, cvtWrites]
  rcases cvtSource src q.ty part j with _ | i
  · rfl
  · by_cases hact : activeAt s q.prd q.ty j = true <;> simp [hact]

theorem predNow_one {p : Prd} {t : Ty} (hpred : (predicateOf (cur s) p t).isSome = true) (hgroup : groupOf s p t = 1) :
    predNow s p t = ⟨1, (List.range (Ty.lanes t)).map (activeAt s p t)⟩ := by
  rw [predNow_eq hpred, hgroup, Nat.one_mul]

theorem any_predNow_one {p : Prd} {t : Ty} (hpred : (predicateOf (cur s) p t).isSome = true) (hgroup : groupOf s p t = 1) :
    (predNow s p t).any = anyActive s p t := by
  rw [predNow_one hpred hgroup, anyActive, hgroup, Nat.one_mul, VPred.any, any_map_id_range]

end

/-- A row and the flags of its results, as effects. -/
theorem postLanes_eq (s : State) (delay r : Nat) (t : Ty) {out : List (Option Nat × Option (Nat × Flags))} {g : Nat → Option Nat × Option (Nat × Flags)}
    (hout : out = (List.range (Ty.lanes t)).map g) :
    postFlags (postRow s delay r t (out.map Prod.fst)) delay veSt .ve (orFlags (out.filterMap Prod.snd)) =
      putEffects s delay (groupEffects t ((List.range (Ty.lanes t)).map fun j => (g j).1) r 1 ++
        flagEffects (orFlags ((List.range (Ty.lanes t)).filterMap fun j => (g j).2))) := by
  subst hout
  rw [postFlags_eq, postRow_eq, List.map_map, List.filterMap_map, groupEffects_one (by simp), putEffects_append]
  rfl

theorem vcvt_landsLanes {s : State} {q : VOps1} {src : Ty} {part : BitVec 3} {rm : Rm}
    (hgroup : groupOf s q.prd q.ty = 1) {u : State} (hexec : exec (.vcvt q src part rm) s = .next u)
    (hu : u = if anyActive s q.prd q.ty = true then
        putEffects s 4 (groupEffects q.ty ((List.range (Ty.lanes q.ty)).map fun j => (cvtOut s q src part.toNat rm j).1) q.vd.toNat 1 ++
          flagEffects (orFlags ((List.range (Ty.lanes q.ty)).filterMap fun j => (cvtOut s q src part.toNat rm j).2)))
      else s) :
    landsLanes s (.vcvt q src part rm) 4 q.vd.toNat 1 q.ty
      (fun j => if anyActive s q.prd q.ty = true then cvtWrites s q src part.toNat rm j else none)
      (fun b => ∃ j i, j < Ty.lanes q.ty ∧ cvtSource src q.ty part.toNat j = some i ∧ activeAt s q.prd q.ty j = true ∧
        (cvtAt s q src rm j i).2.testBit b = true) := by
  rw [hu] at hexec
  split at hexec
  case isTrue hany =>
    refine landsLanes_of_group hexec (fun e he => ?_) fun b => ?_
    · rw [Nat.one_mul] at he
      simp [he, hany, cvtOut_fst]
    · rw [testBit_orFlags]
      simp only [List.mem_filterMap, List.mem_range]
      constructor
      · rintro ⟨x, ⟨j, hj, hx⟩, hb⟩
        rw [cvtOut] at hx
        rcases hsource : cvtSource src q.ty part.toNat j with _ | i
        · rw [hsource] at hx
          cases hx
        · by_cases hact : activeAt s q.prd q.ty j = true
          · simp only [hsource, hact, if_true, Option.some.injEq] at hx
            exact ⟨j, i, hj, hsource, hact, hx ▸ hb⟩
          · simp [hsource, hact] at hx
      · rintro ⟨j, i, hj, hsource, hact, hb⟩
        exact ⟨cvtAt s q src rm j i, ⟨j, hj, by simp [cvtOut, hsource, hact]⟩, hb⟩
  case isFalse hnone =>
    refine landsLanes_nothing hexec (fun e _ => if_neg hnone) ?_
    rintro b ⟨j, i, hj, -, hact, -⟩
    refine hnone (List.any_eq_true.2 ⟨j, List.mem_range.2 ?_, hact⟩)
    rwa [hgroup, Nat.one_mul]

theorem vcvt_unlessFault (s : State) (q : VOps1) (src : Ty) (part : BitVec 3) (rm : Rm) :
    unlessFault s (.vcvt q src part rm) (vectorChecks s (q.ty == .nf || src == .nf) false q.prd q.ty [q.vd, q.va]
      [(part.toNat < cvtParts src q.ty, 0x01)])
      (landsLanes s (.vcvt q src part rm) 4 q.vd.toNat 1 q.ty
        (fun j => if anyActive s q.prd q.ty = true then cvtWrites s q src part.toNat rm j else none)
        (fun b => ∃ j i, j < Ty.lanes q.ty ∧ cvtSource src q.ty part.toNat j = some i ∧ activeAt s q.prd q.ty j = true ∧
          (cvtAt s q src rm j i).2.testBit b = true)) := by
  refine unlessFault_of_checked (show execVcvt q src part rm s = _ by unfold execVcvt; exact rfl)
    (firstFault_predChecks s q.prd q.ty false ([q.vd, q.va].map BitVec.toNat) _ _)
    (decides_vectorChecks _ false q.prd q.ty [q.vd, q.va] (.cons (.of_iff decide_eq_true_iff) .nil)) fun hall hgo => ?_
  have hpred := predicate_of_vectorChecks hall
  have hgroup := oneGroup hall
  refine vcvt_landsLanes hgroup hgo ?_
  dsimp only
  rw [any_predNow_one hpred hgroup, predNow_one hpred hgroup]
  refine if_congr Iff.rfl (postLanes_eq s 4 _ _ (List.map_congr_left fun j hj => ?_)) rfl
  have hact : ((List.range (Ty.lanes q.ty)).map (activeAt s q.prd q.ty)).getD j false = activeAt s q.prd q.ty j := by
    simp [List.getD_eq_getElem?_getD, List.mem_range.1 hj]
  have hlane (k : Nat) : cvtLane (descA (cur s)) (descB (cur s)) src q.ty rm (draw (cur s).ve.seed.toNat (cur s).pid s.ctx.seq j / 256)
      (laneAt (Ty.bits src) (getRow (cur s) q.va.toNat) k) = cvtAt s q src rm j k := by
    rw [descA_cur, descB_cur]
    exact cvtLane_eq _ _ _ _ _ _ (Nat.mod_lt _ (Nat.two_pow_pos _))
  rw [cvtOut]
  dsimp only
  rw [hact]
  rcases cvtSource src q.ty part.toNat j with _ | k
  · rfl
  · simp only [hlane]

-- Comparisons (R233) -------------------------------------------------------------------------------------------------------------------------------------

theorem cmp_numOfInt (a b : Int) : (numOfInt a).cmp (numOfInt b) = if a < b then -1 else if b < a then 1 else 0 := by
  have hint (x : Int) : Machine.Num.toIntAt 0 (.fin (x < 0) x.natAbs 0) = x := by
    simp only [Machine.Num.toIntAt, sub_zero, Int.toNat_zero, pow_zero, mul_one, decide_eq_true_eq]
    split <;> omega
  simp only [numOfInt, Machine.Num.cmp, min_self, hint]

/-- Whether a comparison holds between two codes, with its invalid flag. -/
def holdsAt (A : Nat) (cc : Cond) (t : Ty) (a b : Nat) : Bool × Flags :=
  if Ty.isFloat t then
    let x := decodeNum (fmtOf t A) a
    let y := decodeNum (fmtOf t A) b
    let un := x.isNan || y.isNan
    let c := x.cmp y
    let ordered := cc = .lt ∨ cc = .le ∨ cc = .gt ∨ cc = .ge
    ((match cc with
      | .eq => !un && c == 0 | .ne => un || c != 0 | .lt => !un && c == -1 | .le => !un && c != 1 | .gt => !un && c == 1
      | .ge => !un && c != -1 | .un => un | .or => !un),
     if (ordered ∧ un = true) ∨ (x.isSig || y.isSig) = true then fINV else 0)
  else ((match cc with
      | .eq => decide (laneInt t a = laneInt t b) | .ne => decide (laneInt t a ≠ laneInt t b)
      | .lt => decide (laneInt t a < laneInt t b) | .le => decide (laneInt t a ≤ laneInt t b)
      | .gt => decide (laneInt t b < laneInt t a) | .ge => decide (laneInt t b ≤ laneInt t a) | .un => false | .or => true), 0)

theorem isNan_of_isSig {x : Machine.Num} (h : x.isSig = true) : x.isNan = true := by
  obtain _ | _ | _ := x
  · rfl
  · cases h
  · cases h

theorem cmpLane_eq {A a b : Nat} {t : Ty} (cc : Cond) (ha : a < 2 ^ Ty.bits t) (hb : b < 2 ^ Ty.bits t) : cmpLane A t cc a b = holdsAt A cc t a b := by
  unfold cmpLane holdsAt
  rw [intOf_eq_laneInt ha, intOf_eq_laneInt hb]
  refine if_congr Iff.rfl ?floats ?integers
  case floats =>
    rw [laneNum, laneNum]
    generalize decodeNum (fmtOf t A) a = x
    generalize decodeNum (fmtOf t A) b = y
    have hsig : x.isSig = true ∨ y.isSig = true → x.isNan = true ∨ y.isNan = true := Or.imp isNan_of_isSig isNan_of_isSig
    have hordered : (if x.isNan = true ∨ y.isNan = true then fINV else 0) =
        if (x.isNan = true ∨ y.isNan = true) ∨ x.isSig = true ∨ y.isSig = true then fINV else 0 := if_congr (by tauto) rfl rfl
    cases cc <;> simp [condNum, hordered]
  case integers =>
    have hnan (z : Int) : (numOfInt z).isNan = false := rfl
    have hsig (z : Int) : (numOfInt z).isSig = false := rfl
    obtain h | h | h := lt_trichotomy (laneInt t a) (laneInt t b)
    · cases cc <;> simp [condNum, cmp_numOfInt, hnan, hsig, h, h.not_gt, h.le, h.ne]
    · cases cc <;> simp [condNum, cmp_numOfInt, hnan, hsig, h]
    · cases cc <;> simp [condNum, cmp_numOfInt, hnan, hsig, h, h.not_gt, h.le, h.ne']

-- Mask bits -------------------------------------------------------------------------------------------------------------------------------------------------

/-- Bit `b` of bits packed into a mask. -/
theorem getLsbD_packBits (l : List Nat) {b : Nat} (hb : b < 128) : (BitVec.ofNat 128 (packLanes 1 l)).getLsbD b = decide (l[b]?.getD 0 % 2 = 1) := by
  have h := packLanes_lane 1 l b
  rw [Nat.one_mul, pow_one] at h
  rw [BitVec.getLsbD_ofNat, decide_eq_true hb, Bool.true_and, Nat.testBit_eq_decide_div_mod_eq, h]

/-- What an effect puts into bit `b` of a mask, as `maskPuts` reads it. -/
def maskPut (m b : Nat) : Effect → Option Bool
  | .mask q en v => if q = m ∧ en.getLsbD b = true then some (v.getLsbD b) else none
  | _ => none

theorem maskPuts_map_flightOf (s : State) (delay : Nat) (l : List Effect) (m b : Nat) :
    maskPuts (l.map (flightOf s delay veSt)) m b = l.filterMap (maskPut m b) := by
  rw [maskPuts, List.filterMap_map]
  rfl

/-- The enables and the bits of a comparison's mask. -/
def cmpEnables (L : Nat) (z : Bool) (act : Nat → Bool) : List Nat := (List.range 128).map fun e => if L ≤ e ∨ z = true ∨ act e = true then 1 else 0

def cmpBits (L : Nat) (act : Nat → Bool) (f : Nat → Bool × Flags) : List Nat :=
  (List.range L).map fun e => if act e = true ∧ (f e).1 = true then 1 else 0

/-- The effects of a comparison: its mask bits, and the flags of its active lanes. -/
def cmpEffects (md L : Nat) (z : Bool) (act : Nat → Bool) (f : Nat → Bool × Flags) : List Effect :=
  .mask md (BitVec.ofNat 128 (packLanes 1 (cmpEnables L z act))) (BitVec.ofNat 128 (packLanes 1 (cmpBits L act f))) ::
    flagEffects (orFlags (((List.range L).filter act).map fun e => (0, (f e).2)))

theorem postCmp_eq (s : State) (md : Nat) (t : Ty) (z : Bool) (act : Nat → Bool) (f : Nat → Bool × Flags) :
    postCmp s md t z ⟨1, (List.range (Ty.lanes t)).map act⟩ f =
      if (List.range (Ty.lanes t)).any act = true then putEffects s 2 (cmpEffects md (Ty.lanes t) z act f) else s := by
  have hgetD {e : Nat} (he : e < Ty.lanes t) : ((List.range (Ty.lanes t)).map act).getD e false = act e := by
    simp [List.getD_eq_getElem?_getD, he]
  have hout : (List.range (Ty.lanes t)).map (fun e => if ((List.range (Ty.lanes t)).map act).getD e false = true then some (f e) else none) =
      (List.range (Ty.lanes t)).map (fun e => if act e = true then some (f e) else none) :=
    List.map_congr_left fun e he => by rw [hgetD (List.mem_range.1 he)]
  have hen : (List.range 128).map (fun e => if e ≥ Ty.lanes t ∨ z = true ∨ ((List.range (Ty.lanes t)).map act).getD e false = true then 1 else 0) =
      cmpEnables (Ty.lanes t) z act := by
    refine List.map_congr_left fun e _ => if_congr ?_ rfl rfl
    by_cases he : Ty.lanes t ≤ e
    · simp [he]
    · rw [hgetD (Nat.not_le.1 he)]
  rw [postCmp]
  simp only [VPred.any, any_map_id_range, hout, hen]
  refine if_congr Iff.rfl ?_ rfl
  rw [postFlags_eq, cmpEffects, putEffects_cons, List.map_map, List.filterMap_map]
  refine congrArg₂ (fun v l => putEffects (vePost s 2 (.mask md (BitVec.ofNat 128 (packLanes 1 (cmpEnables (Ty.lanes t) z act)))
    (BitVec.ofNat 128 (packLanes 1 v)))) 2 (flagEffects (orFlags l))) (List.map_congr_left fun e _ => ?bits) ?flags
  case bits => cases h : act e <;> simp [h]
  case flags =>
    rw [← List.filterMap_eq_map, ← List.filterMap_eq_map, ← List.filterMap_eq_filter, List.filterMap_filterMap, List.filterMap_filterMap]
    refine List.filterMap_congr fun e _ => ?_
    cases h : act e <;> simp [h, Option.guard]

theorem maskPut_cmpEffects {md L b : Nat} {z : Bool} {act : Nat → Bool} {f : Nat → Bool × Flags} (hb : b < 128) :
    (cmpEffects md L z act f).filterMap (maskPut md b) =
      if L ≤ b then [false] else if act b = true then [(f b).1] else if z = true then [false] else [] := by
  have hflags : (flagEffects (orFlags (((List.range L).filter act).map fun e => (0, (f e).2)))).filterMap (maskPut md b) = [] :=
    List.filterMap_eq_nil_iff.2 fun x hx => by rw [(mem_flagEffects.1 hx).1]; rfl
  have hen : (BitVec.ofNat 128 (packLanes 1 (cmpEnables L z act))).getLsbD b = decide (L ≤ b ∨ z = true ∨ act b = true) := by
    rw [getLsbD_packBits _ hb, cmpEnables]
    simp only [List.getElem?_map, List.getElem?_range hb, Option.map_some, Option.getD_some]
    split <;> simp [*]
  have hbit : (BitVec.ofNat 128 (packLanes 1 (cmpBits L act f))).getLsbD b = decide (b < L ∧ act b = true ∧ (f b).1 = true) := by
    rw [getLsbD_packBits _ hb, cmpBits, List.getElem?_map]
    by_cases hlane : b < L
    · simp only [List.getElem?_range hlane, Option.map_some, Option.getD_some, hlane, true_and]
      split <;> simp [*]
    · simp [hlane]
  rw [cmpEffects, List.filterMap_cons, hflags, maskPut]
  simp only [true_and, hen, hbit, decide_eq_true_eq]
  by_cases hlane : L ≤ b
  · simp [hlane, Nat.not_lt.2 hlane]
  · simp only [hlane, Nat.not_le.1 hlane, false_or, if_false, true_and]
    cases act b <;> cases z <;> simp

/-- What a comparison's command posts, once its checks hold. -/
theorem compares_of_postCmp {s : State} {i : Instr} {md : Nat} {t : Ty} {z : Bool} {p : Prd} {f : Nat → Bool × Flags}
    (hpred : (predicateOf (cur s) p t).isSome = true) (hgroup : groupOf s p t = 1) (hexec : exec i s = .next (postCmp s md t z (predNow s p t) f)) :
    ∃ l, exec i s = .next (putAll s l) ∧
      (∀ x ∈ l, x = flightOf s 2 veSt x.eff ∧ ((∃ en v, x.eff = .mask md en v) ∨ ∃ v, x.eff = .flags .ve v)) ∧
      (∀ b, b < 128 → maskPuts l md b = if anyActive s p t = true then
        (if Ty.lanes t ≤ b then [false] else if activeAt s p t b = true then [(f b).1] else if z = true then [false] else []) else []) ∧
      (∀ b, raisesFlag l .ve b ↔ ∃ e, e < Ty.lanes t ∧ activeAt s p t e = true ∧ (f e).2.testBit b = true) := by
  have hany : (List.range (Ty.lanes t)).any (activeAt s p t) = anyActive s p t := by rw [anyActive, hgroup, Nat.one_mul]
  rw [predNow_one hpred hgroup, postCmp_eq, hany] at hexec
  cases hactive : anyActive s p t with
  | false =>
    rw [hactive] at hexec
    refine ⟨[], hexec, by simp, fun b _ => by simp [maskPuts], fun b => iff_of_false (by simp [raisesFlag]) ?_⟩
    rintro ⟨e, he, hact, -⟩
    rw [← hany, List.any_eq_false] at hactive
    exact hactive e (List.mem_range.2 he) hact
  | true =>
    rw [hactive, if_pos rfl] at hexec
    refine ⟨_, hexec, fun x hx => ?_, fun b hb => ?_, fun b => ?_⟩
    · obtain ⟨e, he, rfl⟩ := List.mem_map.1 hx
      refine ⟨rfl, ?_⟩
      obtain rfl | he := List.mem_cons.1 he
      · exact .inl ⟨_, _, rfl⟩
      · exact .inr ⟨_, (mem_flagEffects.1 he).1⟩
    · rw [maskPuts_map_flightOf, maskPut_cmpEffects hb, if_pos rfl]
    · rw [raisesFlag_map_flightOf]
      constructor
      · rintro ⟨v, hv, hb⟩
        obtain hv | hv := List.mem_cons.1 hv
        · cases hv
        · obtain ⟨hv, -⟩ := mem_flagEffects.1 hv
          cases hv
          obtain ⟨x, hx, hb⟩ := (testBit_orFlags _ b).1 hb
          obtain ⟨e, he, rfl⟩ := List.mem_map.1 hx
          obtain ⟨he, hact⟩ := List.mem_filter.1 he
          exact ⟨e, List.mem_range.1 he, hact, hb⟩
      · rintro ⟨e, he, hact, hb⟩
        have hor := (testBit_orFlags (((List.range (Ty.lanes t)).filter (activeAt s p t)).map fun e => (0, (f e).2)) b).2
          ⟨_, List.mem_map.2 ⟨e, List.mem_filter.2 ⟨List.mem_range.2 he, hact⟩, rfl⟩, hb⟩
        refine ⟨_, List.mem_cons_of_mem _ (mem_flagEffects.2 ⟨rfl, ?_⟩), hor⟩
        intro hzero
        rw [hzero] at hor
        simp at hor

/-- A comparison: its checks, then its mask bits. -/
theorem compares_of_checked {s : State} {i : Instr} {md : Nat} {rows : List VReg} {p : Prd} {z : Bool} {t : Ty} {ownRun : List (Bool × Nat)}
    {own : List (Prop × Nat)} {run hold : Nat → Bool × Flags}
    (hexec : exec i s = checked s (fmtChecks (cur s) (t == .nf) ++ predChecks (cur s) p t false (rows.map BitVec.toNat) ++ ownRun)
      (fun s' => postCmp s' md t z (predNow s' p t) run))
    (hown : List.Forall₂ Decides ownRun own) (hrun : (∀ x ∈ own, x.1) → run = hold) :
    unlessFault s i (vectorChecks s (t == .nf) false p t rows own)
      (∃ l, exec i s = .next (putAll s l) ∧
        (∀ x ∈ l, x = flightOf s 2 veSt x.eff ∧ ((∃ en v, x.eff = .mask md en v) ∨ ∃ v, x.eff = .flags .ve v)) ∧
        (∀ b, b < 128 → maskPuts l md b = if anyActive s p t = true then
          (if Ty.lanes t ≤ b then [false] else if activeAt s p t b = true then [(hold b).1] else if z = true then [false] else []) else []) ∧
        (∀ b, raisesFlag l .ve b ↔ ∃ e, e < Ty.lanes t ∧ activeAt s p t e = true ∧ (hold e).2.testBit b = true)) := by
  refine unlessFault_of_checked hexec (firstFault_predChecks s p t false (rows.map BitVec.toNat) _ _)
    (decides_vectorChecks _ false p t rows hown) fun hall hgo => ?_
  obtain rfl : run = hold := hrun fun x hx => hall x (List.mem_append_right _ hx)
  exact compares_of_postCmp (predicate_of_vectorChecks hall) (oneGroup hall) hgo

/-- A selection (R234). -/
theorem vsel_landsLanes (s : State) (vd va vb : VReg) (m : BitVec 4) (ty : Ty) : landsLanes s (.vsel vd va vb m ty) 2 vd.toNat 1 ty
    (fun e => if s.ctx.active = true then
      some (if (Sparse.get 0 (cur s).masks m.toNat).getLsbD e = true then elem s ty va.toNat e else elem s ty vb.toNat e) else none)
    (fun _ => False) := by
  have hexec : exec (.vsel vd va vb m ty) s = .next (if s.ctx.active then postRow s 2 vd.toNat ty ((List.range (Ty.lanes ty)).map fun e =>
    some (if (Sparse.get 0 (cur s).masks m.toNat).getLsbD e = true then elem s ty va.toNat e else elem s ty vb.toNat e)) else s) := rfl
  cases hactive : s.ctx.active with
  | false =>
    rw [hactive] at hexec
    exact landsLanes_nothing hexec (fun _ _ => rfl) fun _ => id
  | true =>
    rw [hactive, if_pos rfl, postRow_eq, rowEffects_eq_group (by simp)] at hexec
    refine landsLanes_of_group hexec (fun e he => congrArg _ ?_) fun b => by simp
    rw [Nat.one_mul] at he
    simp [he]

/-- Settles O39: a conversion writes the lanes that PART names, a comparison the bits of its mask. -/
theorem vectorConvertCompareSelect : Obligations.VectorConvertCompareSelect := by
  intro s q src part rm md va vb vd prd z ty cc m o
  refine ⟨?cvt, ?cmp, ?cmpImm, vsel_landsLanes s vd va vb m ty⟩
  case cvt => exact vcvt_unlessFault s q src part rm
  case cmp =>
    refine compares_of_checked (rows := [va, vb]) (ownRun := []) (run := fun e => cmpLane (descA (cur s)) ty cc (elemAt (cur s) ty va.toNat e) (elemAt (cur s) ty vb.toNat e))
      (show execVcmp md va vb prd z ty cc s = _ by unfold execVcmp; rw [List.append_nil]; rfl) .nil fun _ => funext fun e => ?_
    rw [descA_cur]
    exact cmpLane_eq cc (elem_lt s _ _ _) (elem_lt s _ _ _)
  case cmpImm =>
    refine compares_of_checked (rows := [o.vd]) (show execVcmpImm o cc s = _ from rfl) (.cons (.of_iff (immTypeOk_iff o.ty)) .nil) fun hown => funext fun e => ?_
    have htype : immediateType o.ty := hown (immediateType o.ty, 0x01) (List.mem_singleton.2 rfl)
    rw [descA_cur, immLane_eq]
    exact cmpLane_eq cc (elem_lt s _ _ _) (immediate_lt htype _ _)

end Sys2Proof.Proofs
end

