-- ==== Sys2Proof/Proofs/RowBytes.lean ====
section
/-! PROOF. The bytes of rows: masks of enabled bytes, merged rows, lanes (R218, R221), and the stop record of a schedule-miss. -/

namespace Sys2Proof.Proofs

open Sys2Proof Sys2Proof.Machine Sys2Proof.Claims Sys2Proof.Laws

-- Bytes ------------------------------------------------------------------------------------------------------------------------------------------------

/-- Byte `i` of a number. -/
abbrev byteAt (x i : Nat) : Nat := x / 256 ^ i % 256

theorem testBit_byteAt (x i j : Nat) : (byteAt x i).testBit j = (decide (j < 8) && x.testBit (8 * i + j)) := by
  rw [byteAt, show (256 : Nat) = 2 ^ 8 from rfl, ← pow_mul, Nat.testBit_mod_two_pow, Nat.testBit_div_two_pow, Nat.add_comm]

theorem byteAt_eq_iff {x y i : Nat} : byteAt x i = byteAt y i ↔ ∀ j, j < 8 → x.testBit (8 * i + j) = y.testBit (8 * i + j) := by
  constructor
  · intro h j hj
    have hbit := congrArg (fun v => v.testBit j) h
    simpa only [testBit_byteAt, hj, decide_true, Bool.true_and] using hbit
  · intro h
    refine Nat.eq_of_testBit_eq fun j => ?_
    rw [testBit_byteAt, testBit_byteAt]
    by_cases hj : j < 8
    · rw [h j hj]
    · simp [hj]

/-- A mask of enabled bytes, bit by bit. -/
theorem testBit_spreadFrom : ∀ (n en b : Nat), (spreadFrom en n).testBit b = (decide (b < 8 * n) && en.testBit (b / 8))
  | 0, en, b => by simp [spreadFrom]
  | n + 1, en, b => by
    have hsplit : spreadFrom en (n + 1) = 2 ^ 8 * spreadFrom (en / 2) n + (if en % 2 = 1 then 255 else 0) := Nat.add_comm _ _
    have hbyte : (if en % 2 = 1 then 255 else 0) < 2 ^ 8 := by split <;> decide
    rw [hsplit, Nat.testBit_two_pow_mul_add _ hbyte]
    by_cases hb : b < 8
    · have hall : (255 : Nat).testBit b = true := by
        have h255 := Nat.testBit_two_pow_sub_one 8 b
        simpa [hb] using h255
      rw [if_pos hb, Nat.div_eq_of_lt hb, Nat.testBit_zero, decide_eq_true (show b < 8 * (n + 1) by omega), Bool.true_and]
      split <;> simp [*]
    · have hnext : b / 8 = (b - 8) / 8 + 1 := by omega
      rw [if_neg hb, testBit_spreadFrom n, hnext, Nat.testBit_succ]
      exact congrArg (· && _) (decide_eq_decide.2 (by omega))

theorem getLsbD_byteMask (en : BitVec 128) {b : Nat} (hb : b < 1024) : (byteMask en).getLsbD b = en.getLsbD (b / 8) := by
  rw [byteMask, BitVec.getLsbD_ofNat, testBit_spreadFrom, decide_eq_true hb]
  rfl

section
variable (x y : Row) (en : BitVec 128) {i : Nat} (hi : i < 128)
include hi

/-- The enabled bytes of a row. -/
theorem byteAt_and_byteMask : byteAt (x &&& byteMask en).toNat i = if en.getLsbD i = true then byteAt x.toNat i else 0 := by
  refine Nat.eq_of_testBit_eq fun j => ?_
  rw [testBit_byteAt]
  by_cases hj : j < 8
  · have hbit : (x &&& byteMask en).toNat.testBit (8 * i + j) = (x.toNat.testBit (8 * i + j) && en.getLsbD i) := by
      change (x &&& byteMask en).getLsbD (8 * i + j) = _
      rw [BitVec.getLsbD_and, getLsbD_byteMask en (by omega), show (8 * i + j) / 8 = i by omega]
      rfl
    rw [hbit]
    cases en.getLsbD i <;> simp [testBit_byteAt, hj]
  · have hnone : ∀ v, (byteAt v i).testBit j = false := fun v => by rw [testBit_byteAt]; simp [hj]
    split <;> simp [hj, hnone]

theorem byteAt_and_not_byteMask : byteAt (x &&& ~~~byteMask en).toNat i = if en.getLsbD i = true then 0 else byteAt x.toNat i := by
  have hnot : (x &&& ~~~byteMask en) = x &&& byteMask (~~~en) := by
    refine BitVec.eq_of_getLsbD_eq fun b hb => ?_
    rw [BitVec.getLsbD_and, BitVec.getLsbD_and, BitVec.getLsbD_not, getLsbD_byteMask en hb, getLsbD_byteMask _ hb, BitVec.getLsbD_not,
      decide_eq_true hb, decide_eq_true (show b / 8 < 128 by omega)]
  rw [hnot, byteAt_and_byteMask x _ hi, BitVec.getLsbD_not, decide_eq_true hi, Bool.true_and]
  cases en.getLsbD i <;> rfl

/-- A merged row takes the enabled bytes of the new one. -/
theorem byteAt_mergeRow : byteAt (mergeRow x y en).toNat i = if en.getLsbD i = true then byteAt y.toNat i else byteAt x.toNat i := by
  have hsum : byteAt (mergeRow x y en).toNat i = byteAt (x &&& ~~~byteMask en).toNat i ||| byteAt (y &&& byteMask en).toNat i := by
    refine Nat.eq_of_testBit_eq fun j => ?_
    rw [Nat.testBit_or, testBit_byteAt, testBit_byteAt, testBit_byteAt, mergeRow, BitVec.toNat_or, Nat.testBit_or]
    cases decide (j < 8) <;> simp only [Bool.true_and, Bool.false_and, Bool.or_false]
  rw [hsum, byteAt_and_not_byteMask x en hi, byteAt_and_byteMask y en hi]
  split <;> simp

end

theorem byteAt_readNat (m : Memory) {n i : Nat} (a : Nat) (hi : i < n) : byteAt (Memory.readNat m a n) i = (Memory.read m (a + i)).toNat := by
  refine Nat.eq_of_testBit_eq fun j => ?_
  rw [testBit_byteAt]
  by_cases hj : j < 8
  · rw [testBit_readNat m n a i j hi hj, decide_eq_true hj, Bool.true_and]
    rfl
  · have hlt : (Memory.read m (a + i)).toNat < 2 ^ j := (Memory.read m (a + i)).isLt.trans_le (Nat.pow_le_pow_right Nat.two_pos (Nat.not_lt.1 hj))
    rw [Nat.testBit_lt_two_pow hlt]
    simp [hj]

/-- A row of scratchpad. -/
theorem byteAt_spadRow (c : CoreState) (a : Nat) {i : Nat} (hi : i < 128) : byteAt (spadRow c a).toNat i = (Memory.read c.spad (a + i)).toNat := by
  have hlt := readNat_lt c.spad a 128
  rw [show 8 * 128 = 1024 from rfl] at hlt
  rw [spadRow, BitVec.toNat_ofNat, Nat.mod_eq_of_lt hlt, byteAt_readNat c.spad a hi]

-- Lanes of one row (R220, R221) ------------------------------------------------------------------------------------------------------------------------

theorem lane_of_byte_lt (t : Ty) {i : Nat} (hi : i < 128) : i / Ty.size t < Ty.lanes t := by
  rw [Nat.div_lt_iff_lt_mul (size_pos t), Nat.mul_comm, size_mul_lanes]
  exact hi

/-- The byte enables of the active lanes. -/
theorem testBit_predBytes (t : Ty) (act : Nat → Bool) (g : Nat) {i : Nat} (hi : i < 128) :
    (predBytes t ⟨g, (List.range (Ty.lanes t)).map act⟩).testBit i = act (i / Ty.size t) := by
  have hlane := laneEnables_lane (Ty.size t) (((List.range (Ty.lanes t)).map act).map fun b => if b then some 0 else none) (i / Ty.size t)
  have hpart : (predBytes t ⟨g, (List.range (Ty.lanes t)).map act⟩).testBit i =
      (laneEnables (Ty.size t) (((List.range (Ty.lanes t)).map act).map fun b => if b then some 0 else none) /
        2 ^ (Ty.size t * (i / Ty.size t)) % 2 ^ Ty.size t).testBit (i % Ty.size t) := by
    rw [Nat.testBit_mod_two_pow, Nat.testBit_div_two_pow, Nat.mod_add_div, decide_eq_true (Nat.mod_lt _ (size_pos t)), Bool.true_and]
    rfl
  rw [hpart, hlane]
  simp only [List.getElem?_map, List.getElem?_range (lane_of_byte_lt t hi), Option.map_some, Option.getD_some]
  cases act (i / Ty.size t)
  · simp
  · simp [Nat.testBit_two_pow_sub_one, Nat.mod_lt _ (size_pos t)]

theorem predBytes_lt (t : Ty) (act : Nat → Bool) (g : Nat) : predBytes t ⟨g, (List.range (Ty.lanes t)).map act⟩ < 2 ^ 128 := by
  rw [predBytes, laneEnables_eq_packLanes]
  refine (packLanes_lt _ _).trans_eq ?_
  simp [size_mul_lanes]

theorem getLsbD_predBytes (t : Ty) (act : Nat → Bool) (g : Nat) {i : Nat} (hi : i < 128) :
    (BitVec.ofNat 128 (predBytes t ⟨g, (List.range (Ty.lanes t)).map act⟩)).getLsbD i = act (i / Ty.size t) := by
  rw [BitVec.getLsbD_ofNat, decide_eq_true hi, Bool.true_and, testBit_predBytes t act g hi]

-- Stops (R313, R318) -------------------------------------------------------------------------------------------------------------------------------------

/-- The faulting core's stop record, where the core is its own partner. -/
theorem getCore_stoppedCores_self {s : State} {k : Nat} {d : Domain} {st : Stream} {code cause : Nat} {detail : List Word} (hself : partnerOf d k = some k) :
    getCore (stoppedCores s k d st code cause detail 0 0 0) k =
      { partnerCore { getCore s k with stop := some (joinStop (getCore s k) (stoppedBefore (getCore s k) d) st code cause detail 0 0 0) } d st with
        repaired := accessOf st detail 0 :: (getCore s k).repaired } := by
  have h1 := getCore_modCore s k (fun c => { c with stop := some (joinStop c (stoppedBefore c d) st code cause detail 0 0 0) }) (ne_blank_of_stop rfl)
  have h2 (u : State) := getCore_modCore u k (fun c => { c with stop := some (joinStop c (stoppedBefore c d) st 0 0 [] 0 0 0) }) (ne_blank_of_stop rfl)
  unfold stoppedCores
  rw [hself]
  dsimp only
  rw [getCore_modCore, h2, h1]
  · rfl
  · rw [h2]
    exact ne_blank_of_stop rfl

/-- A partner's stop leaves the code and the cause of a fault that is there. -/
theorem joinStop_again {c : CoreState} {later later' : Bool} {st : Stream} {code cause : Nat} {detail : List Word} (hcode : code ≠ 0)
    (hstop : c.stop = none) : (joinStop { c with stop := some (joinStop c later st code cause detail 0 0 0) } later' st 0 0 [] 0 0 0).code = code ∧
      (joinStop { c with stop := some (joinStop c later st code cause detail 0 0 0) } later' st 0 0 [] 0 0 0).cause = cause := by
  rw [joinStop_first hstop]
  cases later'
  · simp [joinStop, hcode]
  · simp [joinStop]

/-- A first fault of a core is the one that its stop record names. -/
theorem stop_takeFault (s : State) (k : Nat) (st : Stream) (station evt : Nat) {code : Nat} (cause : Nat) (detail : List Word) (hcode : code ≠ 0)
    (hstop : (getCore s k).stop = none) :
    ∃ y, (getCore (takeFault s k st station evt code cause detail) k).stop = some y ∧ y.code = code ∧ y.cause = cause := by
  have hfirst (later : Bool) := joinStop_first hstop later st code cause detail 0 0 0
  unfold takeFault
  cases hd : domOf s k with
  | none =>
    unfold takeFaultFull
    rw [hd]
    exact ⟨_, congrArg CoreState.stop (getCore_modCore s k (fun c => { c with stop := some (joinStop c false st code cause detail 0 0 0) })
      (ne_blank_of_stop rfl)), by rw [hfirst], by rw [hfirst]⟩
  | some d =>
    obtain ⟨ds, hds⟩ := takeFaultFull_rest st station evt code cause detail 0 0 0 hd
    have hcore : getCore (takeFaultFull s k st station evt code cause detail 0 0 0) k =
        getCore (stoppedCores s k d st code cause detail 0 0 0) k := by
      rw [hds]
      rfl
    rw [hcore]
    by_cases hself : partnerOf d k = some k
    · rw [getCore_stoppedCores_self hself]
      exact ⟨_, rfl, joinStop_again hcode hstop⟩
    · rw [getCore_stoppedCores st code cause detail 0 0 0 hself]
      exact ⟨_, rfl, by rw [hfirst], by rw [hfirst]⟩

end Sys2Proof.Proofs
end

