-- ==== Sys2Proof/Proofs/RingMemory.lean ====
section
/-! PROOF. The ring-memory commands of the vector engine (R245, R247, R248) at their issue, and what a planned command does in a cycle
(R14, R17, R18, R111, R263). -/

namespace Sys2Proof.Proofs

open Sys2Proof Sys2Proof.Machine Sys2Proof.Claims Sys2Proof.Laws

-- Checks -----------------------------------------------------------------------------------------------------------------------------------------------

/-- A command of one row without a format word: its checks, then its effect on one predicate's row of lanes. -/
theorem unlessFault_of_rowChecks {s : State} {i : Instr} {vd : VReg} {p : Prd} {t : Ty} {ownRun : List (Bool × Nat)} {own : List (Prop × Nat)}
    {f : State → State} {q : Prop} (hexec : exec i s = checked s (predChecks (cur s) p t false [vd.toNat] ++ ownRun) f)
    (hown : List.Forall₂ Decides ownRun own)
    (hq : (∀ x ∈ own, x.1) → predNow s p t = ⟨1, (List.range (Ty.lanes t)).map (activeAt s p t)⟩ → (predNow s p t).any = anyActive s p t →
      exec i s = .next (f s) → q) :
    unlessFault s i (vectorChecks s false false p t [vd] own) q := by
  refine unlessFault_of_checked hexec ?_ (decides_vectorChecks false false p t [vd] hown) fun hall hgo => ?_
  · exact firstFault_predChecks s p t false [vd.toNat] [] ownRun
  · have hpred := predicate_of_vectorChecks hall
    have hgroup := oneGroup hall
    exact hq (fun x hx => hall x (List.mem_append_right _ hx)) (predNow_one hpred hgroup) (any_predNow_one hpred hgroup) hgo

theorem rowOffsetOk_iff (a : Nat) : rowOffsetOk a = true ↔ a < 2 ^ 18 ∧ a % 128 = 0 := by
  rw [rowOffsetOk, Bool.and_eq_true, decide_eq_true_eq, beq_iff_eq]

-- VLD and VST (R245) --------------------------------------------------------------------------------------------------------------------------------------

theorem vld_unlessFault (s : State) (o : VMem) :
    unlessFault s (.vld o) (vectorChecks s false false o.prd o.ty [o.vd] [((rd s o.sa).toNat < 2 ^ 18 ∧ (rd s o.sa).toNat % 128 = 0, 0x08)])
      (∃ en zero : BitVec 128, (∀ i, i < 128 → en.getLsbD i = activeAt s o.prd o.ty (i / Ty.size o.ty) ∧
          zero.getLsbD i = (anyActive s o.prd o.ty && o.z && !activeAt s o.prd o.ty (i / Ty.size o.ty))) ∧
        exec (.vld o) s = .next (begins s (progress s (.plan ((if anyActive s o.prd o.ty = true then
            [(1, .rowIn (o.blk.val * 2 ^ 18 + (rd s o.sa).toNat) o.vd.toNat en zero (3 + spanOf o.run.toNat (blkSt o.blk.val) veSt))] else []) ++
          [(1, .read o.blk.val (o.blk.val * 2 ^ 18 + (rd s o.sa).toNat)),
           (2, .place (blkSt o.blk.val) (spanOf o.run.toNat (blkSt o.blk.val) veSt) .last),
           (2 + spanOf o.run.toNat (blkSt o.blk.val) veSt, .tap veSt)])) veSt o.run.toNat 20 none))) := by
  refine unlessFault_of_rowChecks (show execVld o s = _ by unfold execVld; exact rfl) (.cons (.of_iff (rowOffsetOk_iff _)) .nil)
    fun _ hpred hany hgo => ?_
  dsimp only at hgo
  rw [hany, hpred] at hgo
  refine ⟨_, _, fun i hi => ⟨getLsbD_predBytes _ _ _ hi, ?_⟩, hgo⟩
  have hen := getLsbD_predBytes o.ty (activeAt s o.prd o.ty) 1 hi
  rw [BitVec.getLsbD_and, BitVec.getLsbD_not, hen, decide_eq_true hi, moveBytes, ← hpred, hany]
  cases anyActive s o.prd o.ty
  · simp
  · cases o.z
    · rw [if_pos rfl, if_neg (by simp), hpred, hen]
      simp
    · rw [if_pos rfl, if_pos rfl, BitVec.getLsbD_ofNat, Nat.testBit_two_pow_sub_one]
      simp [hi]

/-- The issuing core has one more command in progress. -/
theorem cur_begins (s : State) (j : Job) : cur (begins s j) = { cur s with jobs := (cur s).jobs ++ [j] } :=
  getCore_modCore s s.ctx.core _ (jobs_ne_blank _ j)

theorem vst_unlessFault (s : State) (o : VMem) {a wp : Nat} (ha : o.blk.val * 2 ^ 18 + (rd s o.sa).toNat = a)
    (hwp : spanOf o.run.toNat veSt (blkSt o.blk.val) = wp) {j : Job}
    (hj : progress s (.plan [(1, .place veSt wp .last), (2 + wp, .write o.blk.val)]) veSt o.run.toNat 20 none = j) :
    unlessFault s (.vst o) (vectorChecks s false false o.prd o.ty [o.vd]
        [((rd s o.sa).toNat < 2 ^ 18 ∧ (rd s o.sa).toNat % 128 = 0, 0x08), (¬ shut s a 128, 0x08)])
      (if anyActive s o.prd o.ty = true then
        ∃ en v, exec (.vst o) s = .next (posts (begins s j) (2 + wp) veSt (.spad a 128 en v none)) ∧
          (∀ i, i < 128 → en.testBit i = (o.z || activeAt s o.prd o.ty (i / Ty.size o.ty))) ∧ v < 2 ^ 1024 ∧
          ∀ i, i < 128 → byteAt v i = if activeAt s o.prd o.ty (i / Ty.size o.ty) = true then byteAt (Sparse.get 0 (cur s).rows o.vd.toNat).toNat i else 0
        else exec (.vst o) s = .next (begins s j)) := by
  subst ha hwp
  refine unlessFault_of_rowChecks (show execVst o s = _ by unfold execVst; exact rfl)
    (.cons (.of_iff (rowOffsetOk_iff _)) (.cons (.of_iff (notOpen_iff _ _ _)) .nil)) fun _ hpred hany hgo => ?_
  dsimp only at hgo
  rw [startJob_eq_begins, hj, cur_begins, hany] at hgo
  split
  case isTrue hactive =>
    rw [if_pos hactive, hpred] at hgo
    refine ⟨_, _, hgo, fun i hi => ?_, ?_, fun i hi => ?_⟩
    · rw [moveBytes, ← hpred, hany, if_pos hactive, hpred]
      cases o.z
      · exact testBit_predBytes _ _ _ hi
      · rw [if_pos rfl, Nat.testBit_two_pow_sub_one, decide_eq_true hi, Bool.true_or]
    · exact (getRow (cur s) o.vd.toNat &&& _).isLt
    · exact (byteAt_and_byteMask _ _ hi).trans (by rw [getLsbD_predBytes _ _ _ hi]; rfl)
  case isFalse hidle =>
    rw [if_neg hidle] at hgo
    exact hgo

-- VCST (R247, R248) ----------------------------------------------------------------------------------------------------------------------------------------

/-- The live elements of a row. -/
theorem activeElems_eq (s : State) (p : Prd) (t : Ty) (vd g : Nat) (c : CoreState) (hrows : c.rows = (cur s).rows) :
    activeElems c ⟨g, (List.range (Ty.lanes t)).map (activeAt s p t)⟩ t vd =
      ((List.range (Ty.lanes t)).filter (activeAt s p t)).map (elem s t vd) := by
  rw [activeElems, List.length_map, List.length_range]
  refine congrArg₂ List.map ?_ (List.filter_congr fun e he => ?_)
  · funext e
    rw [elemAt, getRow, hrows]
    rfl
  · simp [List.getD_eq_getElem?_getD, List.mem_range.1 he]

section
variable {q : Word} {ptr fin w vb n : Nat}

theorem vcstOk_iff (s : State) (hptr : q.toNat % 2 ^ 21 = ptr) (hfin : q.toNat / 2 ^ 21 % 2 ^ 21 = fin) :
    vcstOk (cur s) q vb w = true ↔ ptr / 2 ^ 18 = vb ∧ fin / 2 ^ 18 = vb ∧ ptr ≤ fin ∧ ptr % w = 0 ∧ fin % w = 0 ∧ ¬ shut s ptr (fin - ptr) := by
  have hp : qpPtr q = ptr := by rw [← hptr, qpPtr, bits, pow_zero, Nat.div_one]
  have he : qpEnd q = fin := hfin
  simp only [vcstOk, hp, he, Bool.and_eq_true, beq_iff_eq, decide_eq_true_eq, notOpen_iff, blkOf, and_assoc]
  have hptr8 : ptr / 2 ^ 18 % 8 = ptr / 2 ^ 18 := by omega
  have hfin8 : fin / 2 ^ 18 % 8 = fin / 2 ^ 18 := by omega
  rw [hptr8, hfin8]

/-- The queue pointer that VCST leaves, field by field. -/
theorem vcst_pointer {ovf : Bool} (hptr : ptr + n * w < 2 ^ 21) (hfin : fin < 2 ^ 21) (hn : n < 2 ^ 8) {p : Word}
    (hp : toWord ((if ovf then 2 ^ 63 else 0) + n * 2 ^ 42 + fin * 2 ^ 21 + (ptr + n * w)) = p) :
    p.toNat % 2 ^ 21 = ptr + n * w ∧ p.toNat / 2 ^ 21 % 2 ^ 21 = fin ∧ p.toNat / 2 ^ 42 % 2 ^ 8 = n ∧ p.toNat / 2 ^ 50 % 2 ^ 13 = 0 ∧
      p.getLsbD 63 = ovf := by
  subst hp
  generalize ptr + n * w = x at *
  have hval : (toWord ((if ovf then 2 ^ 63 else 0) + n * 2 ^ 42 + fin * 2 ^ 21 + x)).toNat =
      (if ovf then 2 ^ 63 else 0) + n * 2 ^ 42 + fin * 2 ^ 21 + x := by
    rw [toWord, BitVec.toNat_ofNat]
    refine Nat.mod_eq_of_lt ?_
    split <;> omega
  have hbit : (toWord ((if ovf then 2 ^ 63 else 0) + n * 2 ^ 42 + fin * 2 ^ 21 + x)).getLsbD 63 =
      decide (((if ovf then 2 ^ 63 else 0) + n * 2 ^ 42 + fin * 2 ^ 21 + x) / 2 ^ 63 % 2 = 1) := by
    rw [← Nat.testBit_eq_decide_div_mod_eq, ← BitVec.testBit_toNat, hval]
  rw [hbit, hval]
  cases ovf
  · simp only [Bool.false_eq_true, if_false]
    refine ⟨by omega, by omega, by omega, by omega, decide_eq_false (by omega)⟩
  · simp only [if_true]
    refine ⟨by omega, by omega, by omega, by omega, decide_eq_true (by omega)⟩

end

theorem eight_mul_size (t : Ty) : 8 * Ty.size t = Ty.bits t := by cases t <;> rfl

theorem vcst_unlessFault (s : State) (vd : VReg) (blk : Blk) (run : Run) (prd : Prd) (z : Bool) (ty : Ty) (qp : BitVec 2) {q : Word}
    (hq : Sparse.get 0 (cur s).qps qp.toNat = q) {ptr fin sp : Nat} (hptr : q.toNat % 2 ^ 21 = ptr) (hfin : q.toNat / 2 ^ 21 % 2 ^ 21 = fin)
    (hsp : spanOf run.toNat veSt (blkSt blk.val) = sp) {j : Job}
    (hj : progress s (.plan [(3, .place veSt sp .last), (4 + sp, .write blk.val)]) veSt run.toNat 20 none = j) {live : List Nat}
    (hlive : ((List.range (Ty.lanes ty)).filter (activeAt s prd ty)).map (elem s ty vd.toNat) = live) {n : Nat}
    (hn : min live.length ((fin - ptr) / Ty.size ty) = n) :
    unlessFault s (.vcst vd blk run prd z ty qp) (vectorChecks s false false prd ty [vd]
        [(ptr / 2 ^ 18 = blk.val ∧ fin / 2 ^ 18 = blk.val ∧ ptr ≤ fin ∧ ptr % Ty.size ty = 0 ∧ fin % Ty.size ty = 0 ∧ ¬ shut s ptr (fin - ptr), 0x08)])
      (if anyActive s prd ty = true then
        ∃ p v, exec (.vcst vd blk run prd z ty qp) s =
            .next (posts (posts (begins s j) 3 veSt (.qp qp.toNat p)) (4 + sp) veSt (.spad ptr 128 (2 ^ (n * Ty.size ty) - 1) v none)) ∧
          p.toNat % 2 ^ 21 = ptr + n * Ty.size ty ∧ p.toNat / 2 ^ 21 % 2 ^ 21 = fin ∧ p.toNat / 2 ^ 42 % 2 ^ 8 = n ∧
          p.toNat / 2 ^ 50 % 2 ^ 13 = 0 ∧
          (p.getLsbD 63 = true ↔ q.toNat / 2 ^ 63 % 2 = 1 ∨ n < live.length) ∧
          (∀ e, e < n → v / 2 ^ (8 * Ty.size ty * e) % 2 ^ (8 * Ty.size ty) = live.getD e 0)
        else exec (.vcst vd blk run prd z ty qp) s = .next (begins s j)) := by
  subst hsp
  refine unlessFault_of_rowChecks (show execVcst vd blk run prd z ty qp s = _ by unfold execVcst; exact rfl)
    (.cons (.of_iff (by rw [hq]; exact vcstOk_iff s hptr hfin)) .nil) fun hown hpred hany hgo => ?_
  have hbounds : ptr / 2 ^ 18 = blk.val ∧ fin / 2 ^ 18 = blk.val ∧ ptr ≤ fin ∧ ptr % Ty.size ty = 0 ∧ fin % Ty.size ty = 0 ∧ ¬ shut s ptr (fin - ptr) :=
    hown _ (List.mem_singleton.2 rfl)
  obtain ⟨-, -, hle, -⟩ := hbounds
  have hp : qpPtr q = ptr := by rw [← hptr, qpPtr, bits, pow_zero, Nat.div_one]
  have he : qpEnd q = fin := hfin
  dsimp only at hgo
  rw [hq, startJob_eq_begins, hj, hany, hp, he] at hgo
  split
  case isTrue hactive =>
    have hlen : live.length ≤ 128 := by
      rw [← hlive, List.length_map]
      refine (List.length_filter_le _ _).trans ?_
      rw [List.length_range]
      cases ty <;> decide
    have hfit : n * Ty.size ty ≤ fin - ptr := (Nat.mul_le_mul_right _ (hn ▸ Nat.min_le_right _ _)).trans (Nat.div_mul_le_self _ _)
    have hfin' : fin < 2 ^ 21 := hfin ▸ Nat.mod_lt _ (Nat.two_pow_pos 21)
    have hnlen : n ≤ live.length := hn ▸ Nat.min_le_left _ _
    rw [if_pos hactive, hpred, activeElems_eq s prd ty vd.toNat 1 _ (by rw [cur_begins]), hlive, hn] at hgo
    obtain ⟨hx, hf, hcount, hzero, hovf⟩ := vcst_pointer (ovf := q.getLsbD 63 || decide (n < live.length)) (show ptr + n * Ty.size ty < 2 ^ 21 by omega) hfin'
      (show n < 2 ^ 8 by omega) rfl
    refine ⟨_, _, hgo, hx, hf, hcount, hzero, ?_, fun e hen => ?_⟩
    · have hbit : q.getLsbD 63 = decide (q.toNat / 2 ^ 63 % 2 = 1) := by rw [← Nat.testBit_eq_decide_div_mod_eq, BitVec.testBit_toNat]
      rw [hovf, Bool.or_eq_true, hbit, decide_eq_true_eq, decide_eq_true_eq]
    · have helem : live.getD e 0 < 2 ^ Ty.bits ty := by
        rw [← hlive, List.getD_eq_getElem _ _ (by rw [hlive]; omega), List.getElem_map]
        exact elem_lt s ty _ _
      rw [eight_mul_size, packLanes_lane, List.getElem?_take_of_lt hen, ← List.getD_eq_getElem?_getD, Nat.mod_eq_of_lt helem]
  case isFalse hidle =>
    rw [if_neg hidle] at hgo
    exact hgo

-- A planned command's cycle (R14, R17, R18, R111) ------------------------------------------------------------------------------------------------------------

/-- A fault of the cycle stops the core with the code of a schedule-miss. -/
def StopsWith (u : State) (k cause : Nat) : Prop := ∃ y, (getCore u k).stop = some y ∧ y.code = 0x02 ∧ y.cause = cause

section
variable {s : State} {k : Nat} {j : Job} (hstop : (getCore s k).stop = none)

theorem StopsWith.modCore {u : State} {cause : Nat} {f : CoreState → CoreState} (h : StopsWith u k cause) (hf : ∀ c, (f c).stop = c.stop) :
    StopsWith (modCore u k f) k cause := by
  obtain ⟨y, hy, hcode, hcause⟩ := h
  have hkeep : (f (getCore u k)).stop = some y := (hf _).trans hy
  exact ⟨y, by rw [getCore_modCore _ _ _ (ne_blank_of_stop hkeep), hkeep], hcode, hcause⟩

theorem stop_countEvent (c : CoreState) (ev : Nat) (st : Stream) (n : Nat) : (countEvent c ev st n).stop = c.stop := by
  unfold countEvent
  split <;> rfl

include hstop

theorem conflict_stops (cause : Nat) (st : Stream) (seq issue evt : Nat) : StopsWith (conflict s k j cause st seq issue evt) k cause := by
  unfold conflict
  dsimp only
  split
  · exact stop_takeFault s k _ _ _ cause _ (by decide) hstop
  · exact stop_takeFault s k _ _ _ cause _ (by decide) hstop

theorem tapEmpty_stops : StopsWith (tapEmpty s k j) k 2 := stop_takeFault s k _ _ _ 2 _ (by decide) hstop

theorem portMet_stops {l : List PortUse} {b : Nat} (h : ∃ v ∈ l, v.block = b) : StopsWith (portMet s k j l b) k 3 := by
  obtain ⟨v, hv, hb⟩ := h
  obtain ⟨u, hu⟩ := Option.isSome_iff_exists.1 (List.find?_isSome.2 ⟨v, hv, beq_iff_eq.2 hb⟩ : (l.find? fun u => u.block == b).isSome = true)
  rw [portMet, hu]
  exact conflict_stops hstop 3 _ _ _ _

omit hstop

theorem portMet_none {l : List PortUse} {b : Nat} (h : ∀ v ∈ l, v.block ≠ b) : portMet s k j l b = s := by
  rw [portMet, List.find?_eq_none.2 fun v hv => by simpa using h v hv]

/-- A value stands at a station of the command's runner. -/
def Taken (s : State) (k : Nat) (j : Job) (st : Nat) : Prop := ∃ v ∈ (getCore s k).runners, v.run = j.run ∧ v.station = st

theorem tapped_isSome_iff {st : Nat} : (tapped (getCore s k) j.run st fun _ => true).isSome = true ↔ Taken s k j st := by
  rw [tapped, List.find?_isSome]
  simp only [Bool.and_true, Bool.and_eq_true, beq_iff_eq, Taken]

theorem tapped_none {st : Nat} (h : ¬ Taken s k j st) : tapped (getCore s k) j.run st (fun _ => true) = none := by
  rw [← Option.isNone_iff_eq_none, ← Option.not_isSome, Bool.not_eq_true', Bool.eq_false_iff]
  exact mt tapped_isSome_iff.1 h

include hstop

theorem raiseMet_stops {st : Nat} (h : Taken s k j st) : StopsWith (raiseMet s k j (tapped (getCore s k) j.run st fun _ => true)) k 1 := by
  obtain ⟨v, hv⟩ := Option.isSome_iff_exists.1 (tapped_isSome_iff.2 h)
  rw [hv]
  exact conflict_stops hstop 1 _ _ _ _

theorem place_stops {t src span : Nat} {leg : Leg} (h : Taken s k j src) : StopsWith (doStatic s k j t (.place src span leg)) k 1 :=
  (raiseMet_stops hstop h).modCore fun _ => stop_countEvent _ _ _ _

theorem placeRow_stops {t src span : Nat} {row : Option Row} (h : Taken s k j src) : StopsWith (doStatic s k j t (.placeRow src span row)) k 1 :=
  (raiseMet_stops hstop h).modCore fun _ => stop_countEvent _ _ _ _

theorem read_stops {t b a : Nat} (h : ∃ v ∈ (getCore s k).portReads, v.block = b) : StopsWith (doStatic s k j t (.read b a)) k 3 :=
  (portMet_stops hstop h).modCore fun _ => rfl

theorem write_stops {t b : Nat} (h : ∃ v ∈ (getCore s k).portWrites, v.block = b) : StopsWith (doStatic s k j t (.write b)) k 3 :=
  (portMet_stops hstop h).modCore fun _ => rfl

theorem tap_stops {t st : Nat} (h : ¬ Taken s k j st) : StopsWith (doStatic s k j t (.tap st)) k 2 := by
  rw [doStatic, if_neg (mt tapped_isSome_iff.1 h)]
  exact tapEmpty_stops hstop

omit hstop

theorem doStatic_read {t b a : Nat} (h : ∀ v ∈ (getCore s k).portReads, v.block ≠ b) : doStatic s k j t (.read b a) =
    modCore s k fun c => { c with portReads := portUse j b (if j.active = true then some (spadRow (getCore s k) (a / 128 * 128)) else none) :: c.portReads } := by
  rw [doStatic, portMet_none h]

theorem doStatic_write {t b : Nat} (h : ∀ v ∈ (getCore s k).portWrites, v.block ≠ b) :
    doStatic s k j t (.write b) = modCore s k fun c => { c with portWrites := portUse j b none :: c.portWrites } := by
  rw [doStatic, portMet_none h]

theorem doStatic_place {t src span : Nat} {leg : Leg} (h : ¬ Taken s k j src) : doStatic s k j t (.place src span leg) =
    modCore s k fun c => putOnRunner c j src span none leg (placedRow (getCore s k) j t src span) := by
  rw [doStatic, tapped_none h]
  rfl

theorem doStatic_placeRow {t src span : Nat} {row : Option Row} (h : ¬ Taken s k j src) : doStatic s k j t (.placeRow src span row) =
    modCore s k fun c => putOnRunner c j src span none .last (if j.active = true then row else none) := by
  rw [doStatic, tapped_none h]
  rfl

theorem doStatic_tap {t st : Nat} (h : Taken s k j st) : doStatic s k j t (.tap st) = s := by
  rw [doStatic, if_pos (tapped_isSome_iff.2 h)]

/-- A block places the row that it read for the command in the cycle before. -/
theorem placedRow_of_block {ops : List (Nat × Micro)} (hkind : j.kind = .plan ops) (hactive : j.active = true) {t src span : Nat} (hsrc : src % 2 = 1)
    {u : PortUse} (hrows : (getCore s k).readRows = [u]) (hst : u.stream = j.stream) (hseq : u.seq = j.seq) (hblock : u.block = src / 2) :
    placedRow (getCore s k) j t src span = u.row := by
  rw [placedRow, if_neg (by simp [hactive]), if_pos hsrc, hkind]
  simp [blockRow, hrows, hst, hseq, hblock]

/-- The operations of a plan that read or take a row. -/
def takesRow (x : Micro) : Bool := match x with | .rowIn .. | .rowOut .. => true | _ => false

theorem planOp_of_not_takes {x : Micro} (h : takesRow x = false) (u : State) : planOp u k j x = u := by
  cases x
  case rowIn => cases h
  case rowOut => cases h
  all_goals rfl

theorem foldl_planOp (l : List Micro) (u : State) : l.foldl (fun u x => planOp u k j x) u = (l.filter takesRow).foldl (fun u x => planOp u k j x) u := by
  induction l generalizing u with
  | nil => rfl
  | cons x l ih =>
    rw [List.foldl_cons, List.filter_cons]
    cases h : takesRow x with
    | false => rw [planOp_of_not_takes h, ih, if_neg (by simp)]
    | true => rw [if_pos rfl, List.foldl_cons, ih]

/-- The operations that a plan names for a cycle. -/
theorem opsAt_eq (ops : List (Nat × Micro)) (t : Nat) : ops.filter (fun x => x.1 == t) = ops.filter fun x => x.1 = t :=
  List.filter_congr fun _ _ => Bool.eq_iff_iff.2 (by simp)

/-- A planned command's samples of a cycle. -/
theorem sampleCycle_plan {ops : List (Nat × Micro)} (hkind : j.kind = .plan ops) (t : Nat) : sampleCycle s k j t =
    .ok ((((ops.filter fun x => x.1 = t).map Prod.snd).filter takesRow).foldl (fun u x => planOp u k j x) s) j := by
  have hcycle : sampleCycle s k j t = planCycle s k j ops t := by rw [sampleCycle, hkind]
  rw [hcycle, planCycle, opsAt_eq, ← foldl_planOp, List.foldl_map]

end

/-- Settles O42: the three commands at their issue, then each operation of a plan by itself. -/
theorem ringMemoryCommands : Obligations.RingMemoryCommands := by
  intro s o vd blk run prd z ty qp
  refine ⟨vld_unlessFault s o, vst_unlessFault s o rfl rfl rfl, vcst_unlessFault s vd blk run prd z ty qp rfl rfl rfl rfl rfl rfl rfl,
    fun k p ops t hkind => ⟨fun ht => ?cycle, fun b a => ⟨doStatic_read, fun h hstop => read_stops hstop h⟩,
      fun b => ⟨doStatic_write, fun h hstop => write_stops hstop h⟩,
      fun src span leg => ⟨fun h => ⟨_, doStatic_place h, fun hidle => ?idle, fun hactive hsrc u hrows hst hseq hblock => ?row⟩,
        fun h hstop => place_stops hstop h⟩,
      fun src span row => ⟨doStatic_placeRow, fun h hstop => placeRow_stops hstop h⟩,
      fun st => ⟨doStatic_tap, fun h hstop => tap_stops hstop h⟩,
      fun hnone => ?none, fun a r en zero land hone => ?rowIn, fun r a land hone => ?rowOut⟩⟩
  case cycle =>
    have hops : staticOps p t = (ops.filter fun x => x.1 == t).map Prod.snd := by rw [staticOps, hkind]
    rw [staticCycle, ht, hops, opsAt_eq]
  case idle => rw [placedRow, if_pos hidle]
  case row => exact placedRow_of_block hkind hactive hsrc hrows hst hseq hblock
  case none =>
    rw [sampleCycle_plan hkind, show List.filter takesRow _ = [] from hnone]
    rfl
  case rowIn =>
    refine ⟨spadRow (getCore s k) a &&& ~~~byteMask zero, ?_, fun i hi => ?_⟩
    · rw [sampleCycle_plan hkind, show List.filter takesRow _ = [.rowIn a r en zero land] from hone]
      rfl
    · refine (byteAt_and_not_byteMask _ zero hi).trans ?_
      rw [byteAt_spadRow _ _ hi]
  case rowOut =>
    rw [sampleCycle_plan hkind, show List.filter takesRow _ = [.rowOut r a land] from hone]
    rfl

end Sys2Proof.Proofs
end

