-- ==== Sys2Proof/Proofs/OrbitRing.lean ====
section
/-! PROOF. The orbit forms of VLD and VST (R246). -/

namespace Sys2Proof.Proofs

open Sys2Proof Sys2Proof.Machine Sys2Proof.Claims Sys2Proof.Laws

theorem map_filter_eq_filterMap {α β : Type} (l : List α) (p : α → Bool) (g : α → β) :
    (l.filter p).map g = l.filterMap fun a => if p a = true then some (g a) else none := by
  rw [← List.filterMap_eq_map, ← List.filterMap_eq_filter, List.filterMap_filterMap]
  refine List.filterMap_congr fun a _ => ?_
  cases h : p a <;> simp [h, Option.guard]

section
variable {s : State} {o : VMem} {y : BitVec 4}

-- Checks -------------------------------------------------------------------------------------------------------------------------------------------------

/-- The linear indices of the active lanes lie within the extents. -/
def IndicesIn (s : State) (o : VMem) (y : BitVec 4) : Prop :=
  ∀ j, j < Ty.lanes o.ty → activeAt s o.prd o.ty j = true → (unlinear (getSy (cur s) y.toNat).desc ((rd s o.sa).toNat + j)).isSome = true

def indicesIn (s : State) (o : VMem) (y : BitVec 4) : Bool :=
  (List.range (Ty.lanes o.ty)).all fun j => !activeAt s o.prd o.ty j || (unlinear (getSy (cur s) y.toNat).desc ((rd s o.sa).toNat + j)).isSome

theorem indicesIn_iff : indicesIn s o y = true ↔ IndicesIn s o y := by
  simp only [indicesIn, IndicesIn, List.all_eq_true, List.mem_range, Bool.or_eq_true, Bool.not_eq_true']
  refine forall₂_congr fun j _ => ?_
  cases activeAt s o.prd o.ty j <;> simp

/-- The checks of an orbit command as they are stated, before a store's own and the type's. -/
def orbitChecks (s : State) (o : VMem) (y : BitVec 4) : List (Prop × Nat) :=
  ((getSy (cur s) y.toNat).valid = true, 0x01) :: vectorChecks s false false o.prd o.ty [o.vd]
    [(o.z = false, 0x01), (symSpad (getSy (cur s) y.toNat).desc = true ∧ symBase (getSy (cur s) y.toNat).desc / 2 ^ 18 % 8 = o.blk.val, 0x08),
     (IndicesIn s o y, 0x08)]

/-- The same as the model runs them. -/
def orbitRun (s : State) (o : VMem) (y : BitVec 4) : List (Bool × Nat) :=
  ((getSy (cur s) y.toNat).valid, 0x01) :: (fmtChecks (cur s) false ++ [((predicateOf (cur s) o.prd o.ty).isSome, fEncoding),
      (false || groupOf s o.prd o.ty == 1, fEncoding), (([o.vd].map BitVec.toNat).all (fun r => r + groupOf s o.prd o.ty ≤ 512), fEncoding)] ++
    [(!o.z, fEncoding), (symSpad (getSy (cur s) y.toNat).desc && blkOf (symBase (getSy (cur s) y.toNat).desc) == o.blk.val, fPermission),
     (indicesIn s o y, fPermission)])

theorem decides_orbitChecks : List.Forall₂ Decides (orbitRun s o y) (orbitChecks s o y) := by
  refine .cons (.of_iff Iff.rfl) (decides_vectorChecks false false o.prd o.ty [o.vd] (.cons (.of_iff ?_) (.cons (.of_iff ?_) (.cons (.of_iff indicesIn_iff) .nil))))
  · simp
  · rw [Bool.and_eq_true, beq_iff_eq, blkOf]

/-- The linear index of each active lane plus one. -/
def indicesOf (s : State) (o : VMem) : List Nat :=
  (List.range (Ty.lanes o.ty)).map fun j => if activeAt s o.prd o.ty j = true then (rd s o.sa).toNat + j + 1 else 0

theorem laneIndices_eq (h : predNow s o.prd o.ty = ⟨1, (List.range (Ty.lanes o.ty)).map (activeAt s o.prd o.ty)⟩) :
    laneIndices (predNow s o.prd o.ty) (rdN s o.sa) = indicesOf s o := by
  rw [h, laneIndices, List.length_map, List.length_range]
  refine List.map_congr_left fun e he => if_congr ?_ rfl rfl
  simp [List.getD_eq_getElem?_getD, List.mem_range.1 he]

/-- An index of the list stands for no lane, or lies within the extents. -/
def lanePlaced (d : BitVec 512) (i : Nat) : Bool := match i with | 0 => true | i + 1 => (unlinear d i).isSome

theorem all_indicesOf : (indicesOf s o).all (lanePlaced (getSy (cur s) y.toNat).desc) = indicesIn s o y := by
  rw [indicesOf, indicesIn, List.all_map]
  refine congrArg (List.all _) (funext fun j => ?_)
  rw [Function.comp_apply]
  cases activeAt s o.prd o.ty j <;> rfl

/-- The checks of an orbit command decide as stated: the indices are looked at where a predicate of one row is there. -/
theorem firstFault_orbit (more : List (Bool × Nat)) :
    firstFault ([((getSy (cur s) y.toNat).valid, fEncoding)] ++ predChecks (cur s) o.prd o.ty false [o.vd.toNat] ++
      [(!o.z, fEncoding), (symSpad (getSy (cur s) y.toNat).desc && blkOf (symBase (getSy (cur s) y.toNat).desc) == o.blk.val, fPermission),
       ((laneIndices (predNow s o.prd o.ty) (rdN s o.sa)).all (lanePlaced (getSy (cur s) y.toNat).desc), fPermission)] ++ more) =
      firstFault (orbitRun s o y ++ more) := by
  rw [List.append_assoc, firstFault_predChecks]
  by_cases hone : (predicateOf (cur s) o.prd o.ty).isSome = true ∧ groupOf s o.prd o.ty = 1
  · obtain ⟨hpred, hgroup⟩ := hone
    rw [laneIndices_eq (predNow_one hpred hgroup), all_indicesOf]
    rfl
  · have hstop : (predicateOf (cur s) o.prd o.ty).isSome = false ∨ (groupOf s o.prd o.ty == 1) = false := by
      rw [beq_eq_false_iff_ne, ← Bool.not_eq_true]
      tauto
    obtain h | h := hstop <;> simp [orbitRun, firstFault, fmtChecks, fEncoding, h]

theorem orbFault_eq (more : List (Bool × Nat)) : orbFault s o y more =
    match firstFault (orbitRun s o y ++ more) with
    | some code => some (code, [])
    | none => syFault s y o.ty := by
  rw [← firstFault_orbit]
  rfl

/-- The first check that fails takes the fault. -/
theorem orbFault_of_first_fails {before after : List (Prop × Nat)} {p : Prop} {code : Nat} (hsplit : orbitChecks s o y = before ++ (p, code) :: after)
    (hbefore : ∀ x ∈ before, x.1) (hp : ¬ p) (more : List (Bool × Nat)) : orbFault s o y more = some (code, []) := by
  rw [orbFault_eq, firstFault_append, firstFault_of_first_fails hbefore hp (hsplit ▸ decides_orbitChecks)]

theorem orbFault_of_all_hold (hall : ∀ x ∈ orbitChecks s o y, x.1) (more : List (Bool × Nat)) : orbFault s o y more =
    match firstFault more with
    | some code => some (code, [])
    | none => syFault s y o.ty := by
  rw [orbFault_eq, firstFault_append, firstFault_of_all_hold decides_orbitChecks hall]

theorem exec_vldOrb_faults {code : Nat} {detail : List Word} (h : orbFault s o y [] = some (code, detail)) :
    exec (.vldOrb o y) s = .next (faults s code 0 detail) := by
  change execVldOrb o y s = _
  rw [execVldOrb, h] <;> rfl

theorem exec_vstOrb_faults {code : Nat} {detail : List Word} (h : orbFault s o y [(slotsFree s o y, fPermission)] = some (code, detail)) :
    exec (.vstOrb o y) s = .next (faults s code 0 detail) := by
  change execVstOrb o y s = _
  rw [execVstOrb, h] <;> rfl

variable (hall : ∀ x ∈ orbitChecks s o y, x.1)
include hall

theorem orbit_valid : (getSy (cur s) y.toNat).valid = true := hall (_, 0x01) (.head _)

theorem orbit_predNow : predNow s o.prd o.ty = ⟨1, (List.range (Ty.lanes o.ty)).map (activeAt s o.prd o.ty)⟩ ∧
    (predNow s o.prd o.ty).any = anyActive s o.prd o.ty := by
  have hvector : ∀ x ∈ vectorChecks s false false o.prd o.ty [o.vd] [(o.z = false, 0x01), (symSpad (getSy (cur s) y.toNat).desc = true ∧
      symBase (getSy (cur s) y.toNat).desc / 2 ^ 18 % 8 = o.blk.val, 0x08), (IndicesIn s o y, 0x08)], x.1 := fun x hx => hall x (.tail _ hx)
  have hpred := predicate_of_vectorChecks hvector
  have hgroup := oneGroup hvector
  exact ⟨predNow_one hpred hgroup, any_predNow_one hpred hgroup⟩

/-- The members of an orbit store: the active lanes, each with its index. -/
def orbitMembers (s : State) (o : VMem) (d : BitVec 512) : List Member :=
  ((List.range (Ty.lanes o.ty)).filter (activeAt s o.prd o.ty)).map fun j => ((unlinear d ((rd s o.sa).toNat + j)).getD [], elem s o.ty o.vd.toNat j)

theorem laneMembers_eq (d : BitVec 512) : laneMembers s o d (predNow s o.prd o.ty) = orbitMembers s o d := by
  rw [(orbit_predNow hall).1, laneMembers, orbitMembers, List.length_map, List.length_range, map_filter_eq_filterMap]
  refine List.filterMap_congr fun e he => ?_
  have hlane := List.mem_range.1 he
  have hact : ((List.range (Ty.lanes o.ty)).map (activeAt s o.prd o.ty)).getD e false = activeAt s o.prd o.ty e := by
    simp [List.getD_eq_getElem?_getD, hlane]
  have helem : laneAt (Ty.bits o.ty) (getRow (cur s) o.vd.toNat) e = elem s o.ty o.vd.toNat e := by
    rw [elem, Nat.div_eq_of_lt hlane, Nat.mod_eq_of_lt hlane]
    rfl
  rw [hact, helem]
  rfl

/-- No representative of the store lies in an open receive window. -/
def OrbitsFree (s : State) (o : VMem) (d : BitVec 512) : Prop := ∀ q ∈ ranksOf d (orbitMembers s o d), ¬ shut s (slotAddr d q) (symSize d)

theorem slotsFree_iff : slotsFree s o y = true ↔ OrbitsFree s o (getSy (cur s) y.toNat).desc := by
  rw [slotsFree, laneMembers_eq hall, Bool.not_eq_true', List.any_eq_false, OrbitsFree]
  exact forall₂_congr fun q _ => not_congr (inOpenWindow_iff_shut _ _ _)

theorem vst_window_faults (hfree : ¬ OrbitsFree s o (getSy (cur s) y.toNat).desc) : exec (.vstOrb o y) s = .next (faults s 0x08 0 []) := by
  have hslots := Bool.eq_false_iff.2 (mt (slotsFree_iff hall).1 hfree)
  refine exec_vstOrb_faults ?_
  rw [orbFault_of_all_hold hall, hslots] <;> rfl

theorem orbit_type_faults (ht : symTy (getSy (cur s) y.toNat).desc ≠ o.ty) : exec (.vldOrb o y) s = .next (faults s 0x0B 0 (typeDetail s y)) ∧
    (OrbitsFree s o (getSy (cur s) y.toNat).desc → exec (.vstOrb o y) s = .next (faults s 0x0B 0 (typeDetail s y))) := by
  have htype := syFault_type (orbit_valid hall) ht
  refine ⟨exec_vldOrb_faults ?_, fun hfree => exec_vstOrb_faults ?_⟩
  · rw [orbFault_of_all_hold hall, ← htype] <;> rfl
  · rw [orbFault_of_all_hold hall, (slotsFree_iff hall).2 hfree, ← htype] <;> rfl

-- Effects ------------------------------------------------------------------------------------------------------------------------------------------------

/-- The row that an orbit store places. -/
def orbitRow (s : State) (o : VMem) : Option Row :=
  if anyActive s o.prd o.ty = true then some (BitVec.ofNat 1024 (storeRow (cur s) o.ty ⟨1, (List.range (Ty.lanes o.ty)).map (activeAt s o.prd o.ty)⟩ o.vd.toNat))
  else none

theorem orbitRow_eq : (if (predNow s o.prd o.ty).any = true then some (BitVec.ofNat 1024 (storeRow (cur s) o.ty (predNow s o.prd o.ty) o.vd.toNat))
    else none) = orbitRow s o := by
  obtain ⟨hpred, hany⟩ := orbit_predNow hall
  rw [hany, hpred, orbitRow]

variable (ht : symTy (getSy (cur s) y.toNat).desc = o.ty)
include ht

theorem vldOrb_begins : ∃ en : BitVec 128, (∀ i, i < 128 → en.getLsbD i = activeAt s o.prd o.ty (i / Ty.size o.ty)) ∧
    exec (.vldOrb o y) s = .next (begins s (progress s (.vldSy o.vd.toNat y.toNat (getSy (cur s) y.toNat).desc en 0 (indicesOf s o) o.ty) veSt
      o.run.toNat 40 none)) := by
  obtain ⟨hpred, -⟩ := orbit_predNow hall
  have hnone : orbFault s o y [] = none := by rw [orbFault_of_all_hold hall, ← syFault_none (orbit_valid hall) ht] <;> rfl
  refine ⟨BitVec.ofNat 128 (predBytes o.ty (predNow s o.prd o.ty)), fun i hi => by rw [hpred, getLsbD_predBytes _ _ _ hi], ?_⟩
  change execVldOrb o y s = _
  rw [execVldOrb, hnone, ← laneIndices_eq hpred] <;> rfl

variable (hfree : OrbitsFree s o (getSy (cur s) y.toNat).desc)
include hfree

/-- The command that places the row of an orbit store. -/
def orbitPlan (s : State) (o : VMem) : State :=
  begins s (progress s (.plan [(1, .placeRow veSt (spanOf o.run.toNat veSt (blkSt o.blk.val)) (orbitRow s o)),
    (18 + spanOf o.run.toNat veSt (blkSt o.blk.val), .write o.blk.val)]) veSt o.run.toNat 40 none)

theorem orbFault_vst_none : orbFault s o y [(slotsFree s o y, fPermission)] = none := by
  rw [orbFault_of_all_hold hall, (slotsFree_iff hall).2 hfree, ← syFault_none (orbit_valid hall) ht] <;> rfl

theorem vstOrb_violation {f : SymFault} (hfold : foldStore (getSy (cur s) y.toNat).desc false (orbitMembers s o (getSy (cur s) y.toNat).desc) = .error f) :
    exec (.vstOrb o y) s = .next (posts (orbitPlan s o) (18 + spanOf o.run.toNat veSt (blkSt o.blk.val)) veSt
      (.raise f.code 0 (symDetail y.toNat 0 s.ctx.seq f ++ [packTuple (f.two.getD []) 0, packTuple (f.two.getD []) 4]) 0)) := by
  change execVstOrb o y s = _
  rw [execVstOrb, orbFault_vst_none hall ht hfree]
  dsimp only
  rw [laneMembers_eq hall, orbitRow_eq hall, hfold]
  rfl

theorem vstOrb_stores {items : List FoldItem} {forced : Bool}
    (hfold : foldStore (getSy (cur s) y.toNat).desc false (orbitMembers s o (getSy (cur s) y.toNat).desc) = .ok (items, forced)) {land : Nat}
    (hland : 18 + spanOf o.run.toNat veSt (blkSt o.blk.val) = land) {z : Nat} (hz : symSize (getSy (cur s) y.toNat).desc = z) :
    exec (.vstOrb o y) s = .next (putEffects (orbitPlan s o) land (items.map (fun i => .spad i.pos z (2 ^ z - 1) i.val none) ++
      (if forced = true then [.symForce] else []) ++ flagEffects (orFlags (items.map fun i => (0, i.fl))))) := by
  have hspads (l : List FoldItem) (u : State) : l.foldl (fun u i => vePost u land (.spad i.pos z (2 ^ z - 1) i.val none)) u =
      putEffects u land (l.map fun i => .spad i.pos z (2 ^ z - 1) i.val none) := by
    induction l generalizing u with
    | nil => rfl
    | cons i l ih => rw [List.foldl_cons, ih, List.map_cons, putEffects_cons]
  have hforced (u : State) : (if forced = true then vePost u land .symForce else u) =
      putEffects u land (if forced = true then [.symForce] else []) := by
    cases forced <;> rfl
  have hflags : items.foldl (fun a i => a ||| i.fl) 0 = orFlags (items.map fun i => (0, i.fl)) := by rw [orFlags, List.foldl_map]
  change execVstOrb o y s = _
  rw [execVstOrb, orbFault_vst_none hall ht hfree]
  dsimp only
  rw [laneMembers_eq hall, orbitRow_eq hall, hfold]
  dsimp only
  rw [hland, hz, startJob_eq_begins, hspads, hforced, hflags, postFlags_eq, ← putEffects_append, ← putEffects_append, orbitPlan, hland,
    List.append_assoc]

end

/-- Effects in flight, as a claim lists them. -/
theorem putEffects_eq_postsAll (s : State) (delay : Nat) (l : List Effect) : putEffects s delay l = postsAll s (l.map fun e => (delay, veSt, e)) := by
  rw [putEffects, putAll, postsAll, List.foldl_map, List.foldl_map]

theorem flagEffects_raise (v : Flags) (land b : Nat) :
    (∃ x ∈ (flagEffects v).map fun e => (land, veSt, e), ∃ u : Flags, x.2.2 = .flags .ve u ∧ u.testBit b = true) ↔ v.testBit b = true := by
  constructor
  · rintro ⟨x, hx, u, hu, hb⟩
    obtain ⟨e, he, rfl⟩ := List.mem_map.1 hx
    obtain ⟨he, -⟩ := mem_flagEffects.1 he
    cases he.symm.trans hu
    exact hb
  · intro hb
    refine ⟨_, List.mem_map.2 ⟨_, mem_flagEffects.2 ⟨rfl, ?_⟩, rfl⟩, v, rfl, hb⟩
    rintro rfl
    simp at hb

-- Cycles ---------------------------------------------------------------------------------------------------------------------------------------------------

section
variable {s : State} {k : Nat} {d : BitVec 512} {idx : List Nat} {ty : Ty}

/-- What an orbit load gathers into a lane: its index, plus one, is `i`; 0 stands for no lane. -/
def gathered (s : State) (k : Nat) (d : BitVec 512) (i : Nat) : Nat × Flags :=
  if i = 0 then (0, 0)
  else expanded d ((unlinear d (i - 1)).getD []) (Memory.readNat (getCore s k).spad (symBase d + (canon d ((unlinear d (i - 1)).getD [])).1 * symSize d) (symSize d))

theorem gathered_lane (hlen : idx.length = Ty.lanes ty) {l : Nat} (hl : l < Ty.lanes ty) :
    (BitVec.ofNat 1024 (packLanes (Ty.bits ty) ((idx.map (gathered s k d)).map Prod.fst))).toNat / 2 ^ (Ty.bits ty * l) % 2 ^ Ty.bits ty =
      (gathered s k d (idx.getD l 0)).1 % 2 ^ Ty.bits ty := by
  rw [toNat_packLanes (by simp [hlen]), packLanes_lane]
  simp [List.getD_eq_getElem?_getD, hlen ▸ hl]

theorem gathered_flags (hlen : idx.length = Ty.lanes ty) (b : Nat) : (orFlags (idx.map (gathered s k d))).testBit b = true ↔
    ∃ l, l < Ty.lanes ty ∧ idx.getD l 0 ≠ 0 ∧ (gathered s k d (idx.getD l 0)).2.testBit b = true := by
  simp only [testBit_orFlags, List.mem_map]
  simp only [List.mem_iff_getElem]
  constructor
  · rintro ⟨_, ⟨_, ⟨l, hl, rfl⟩, rfl⟩, hb⟩
    rw [← List.getD_eq_getElem _ 0] at hb
    refine ⟨l, hlen ▸ hl, fun hzero => ?_, hb⟩
    rw [hzero] at hb
    simp [gathered] at hb
  · rintro ⟨l, hl, -, hb⟩
    rw [List.getD_eq_getElem _ 0 (hlen ▸ hl)] at hb
    exact ⟨_, ⟨_, ⟨l, hlen ▸ hl, rfl⟩, rfl⟩, hb⟩

theorem gathered_of_ne {i : Nat} (hi : i ≠ 0) : gathered s k d i = expanded d ((unlinear d (i - 1)).getD [])
    (Memory.readNat (getCore s k).spad (symBase d + (canon d ((unlinear d (i - 1)).getD [])).1 * symSize d) (symSize d)) := if_neg hi

end

section
variable {s : State} {k : Nat} {j : Job} {v y : Nat} {d : BitVec 512} {en : BitVec 128} {q : Nat} {idx : List Nat} {ty : Ty} {t : Nat}
  (hkind : j.kind = .vldSy v y d en q idx ty)
include hkind

theorem sampleCycle_vldSy : sampleCycle s k j t = vldSyCycle s k j v d en idx ty t := by rw [sampleCycle, hkind]

/-- The row of gathered lanes lands with its flags. -/
def landsRow (s : State) (k : Nat) (j : Job) (land v : Nat) (en : BitVec 128) (w : Nat) (vals : List (Nat × Flags)) : State :=
  putsFlags (puts s k j land 0 (.row v en (BitVec.ofNat 1024 (packLanes w (vals.map Prod.fst))) .plain)) k j land 1 .ve (orFlags vals)

theorem vldSy_gathers (hen : en ≠ 0) : sampleCycle s k j 17 =
    .ok (landsRow s k j (19 + spanOf j.run (blkSt (blkOf (symBase d))) veSt) v en (Ty.bits ty) (idx.map (gathered s k d))) j := by
  have hgathers : vldSyCycle s k j v d en idx ty 17 = .ok (landsRow s k j (19 + spanOf j.run (blkSt (blkOf (symBase d))) veSt) v en (Ty.bits ty)
      (idx.map _)) j := if_pos ⟨rfl, hen⟩
  rw [sampleCycle_vldSy hkind, hgathers]
  congr 3
  funext i
  cases i with
  | zero => rfl
  | succ i => rfl

theorem vldSy_waits (h : t ≠ 17 ∨ en = 0) : sampleCycle s k j t = .ok s j := by
  rw [sampleCycle_vldSy hkind, vldSyCycle]
  exact if_neg (by tauto)

end

/-- Settles O43: the checks in their order, the row that a store places, and the lanes that a load gathers. -/
theorem orbitRingMemoryCommands : Obligations.OrbitRingMemoryCommands := by
  intro s o y
  refine ⟨fun l r p c hsplit hbefore hp => ⟨?_, ?_⟩, fun hall => vst_window_faults hall, fun hall ht => orbit_type_faults hall ht,
    fun hall ht => ⟨vldOrb_begins hall ht, fun hfree => ⟨orbitRow s o, fun hidle => ?_, fun hany => ?_, fun f hfold => vstOrb_violation hall ht hfree hfold,
      fun items forced hfold => ?_⟩⟩, fun k j v ye D en q idx ty t hkind hty hlen => ⟨vldSy_waits hkind, fun h17 hen => ?_⟩⟩
  · exact exec_vldOrb_faults (orbFault_of_first_fails hsplit hbefore hp [])
  · exact exec_vstOrb_faults (orbFault_of_first_fails hsplit hbefore hp _)
  · rw [orbitRow, hidle, if_neg (by simp)]
  · refine ⟨_, by rw [orbitRow, if_pos hany], fun i hi => ?_⟩
    rw [storeRow, BitVec.ofNat_toNat, BitVec.setWidth_eq]
    exact (byteAt_and_byteMask _ _ hi).trans (by rw [getLsbD_predBytes _ _ _ hi]; rfl)
  · refine ⟨(flagEffects (orFlags (items.map fun i => (0, i.fl)))).map fun e => (18 + spanOf o.run.toNat veSt (blkSt o.blk.val), veSt, e), ?_, ?_, ?_⟩
    · rw [vstOrb_stores hall ht hfree hfold rfl rfl, putEffects_eq_postsAll, List.map_append, List.map_append, List.map_map]
      cases forced <;> rfl
    · intro x hx
      obtain ⟨e, he, rfl⟩ := List.mem_map.1 hx
      exact ⟨_, by rw [(mem_flagEffects.1 he).1]; rfl⟩
    · intro b
      rw [flagEffects_raise, testBit_orFlags]
      simp
  · subst h17
    refine ⟨_, _, vldSy_gathers hkind hen, ?_, ?_⟩
    · intro l hl
      refine (gathered_lane hlen hl).trans ?_
      by_cases hzero : idx.getD l 0 = 0
      · rw [if_pos hzero, hzero, gathered, if_pos rfl, Nat.zero_mod]
      · rw [if_neg hzero, gathered_of_ne hzero]
    · intro f
      refine (gathered_flags hlen f).trans (exists_congr fun l => and_congr_right fun _ => and_congr_right fun hne => ?_)
      rw [gathered_of_ne hne]

end Sys2Proof.Proofs
end

