-- ==== Sys2Proof/Proofs/TileCommands.lean ====
section
/-! PROOF. Slots, tile moves and tile products of the contraction engine at their issue (R250 to R263). -/

namespace Sys2Proof.Proofs

open Sys2Proof Sys2Proof.Machine Sys2Proof.Claims Sys2Proof.Laws

-- Slots and tiles (R250, R261, R262) -------------------------------------------------------------------------------------------------------------------

/-- Entries put in flight one after another. -/
theorem foldl_posts_eq {α : Type} (delay station : Nat) (e : α → Effect) (l : List α) (s : State) :
    l.foldl (fun s i => addFlight s s.ctx.core (flightOf s delay station (e i))) s = postsAll s (l.map fun i => (delay, station, e i)) := by
  have hfrom (u : State) (hcore : u.ctx.core = s.ctx.core) (hflight : flightOf u = flightOf s) :
      l.foldl (fun s i => addFlight s s.ctx.core (flightOf s delay station (e i))) u =
        l.foldl (fun u i => addFlight u s.ctx.core (flightOf s delay station (e i))) u := by
    induction l generalizing u with
    | nil => rfl
    | cons i l ih =>
      rw [List.foldl_cons, List.foldl_cons, ih (addFlight u u.ctx.core _) hcore ((flightOf_addFlight u _).trans hflight), hcore, hflight]
  rw [hfrom s rfl rfl, postsAll, List.foldl_map]

theorem postTile_eq (s : State) (delay t : Nat) (ev : TagEvent) (f : Nat → Row) :
    postTile s delay t ev f = postsAll s ((List.range 32).map fun i => (delay, ceSt, .row (32 * t + i) (BitVec.allOnes 128) (f i) ev)) :=
  foldl_posts_eq delay ceSt (fun i => .row (32 * t + i) allBytes (f i) ev) (List.range 32) s

/-- A lane of a transposed row. -/
theorem trnRow_lane (c : CoreState) (ts i : Nat) {j : Nat} (hj : j < 32) :
    (trnRow c ts i).toNat / 2 ^ (32 * j) % 2 ^ 32 = (Sparse.get 0 c.rows (32 * ts + j)).toNat / 2 ^ (32 * i) % 2 ^ 32 := by
  have hlt : packLanes 32 ((List.range 32).map fun j => laneAt 32 (getRow c (32 * ts + j)) i) < 2 ^ 1024 := by
    have h := packLanes_lt 32 ((List.range 32).map fun j => laneAt 32 (getRow c (32 * ts + j)) i)
    rwa [List.length_map, List.length_range, show 32 * 32 = 1024 from rfl] at h
  rw [trnRow, BitVec.toNat_ofNat, Nat.mod_eq_of_lt hlt, packLanes_lane, List.getElem?_map, List.getElem?_range hj]
  exact Nat.mod_mod _ _

theorem checked_one_passes {s : State} {b : Bool} {code : Nat} {f : State → State} (h : b = true) : checked s [(b, code)] f = .next (f s) := by
  subst h
  rfl

theorem checked_one_fails {s : State} {b : Bool} {code : Nat} {f : State → State} (h : b = false) :
    checked s [(b, code)] f = .next (faults s code 0 []) := by
  subst h
  rfl

/-- An effect that an idle command does not have. -/
theorem whenActive {s u : State} {i : Instr} (h : exec i s = .next (if s.ctx.active then u else s)) :
    (s.ctx.active = true → exec i s = .next u) ∧ (s.ctx.active = false → exec i s = .next s) := by
  constructor <;> intro hactive <;> simp [h, hactive]

theorem tileMove_iff (a : Nat) : (decide (a < 2 ^ 18) && a % 128 == 0 && decide (a + 4096 ≤ 2 ^ 18)) = true ↔ a % 128 = 0 ∧ a + 4096 ≤ 2 ^ 18 := by
  rw [Bool.and_eq_true, Bool.and_eq_true, decide_eq_true_eq, beq_iff_eq, decide_eq_true_eq]
  constructor
  · rintro ⟨⟨-, hmod⟩, hroom⟩
    exact ⟨hmod, hroom⟩
  · rintro ⟨hmod, hroom⟩
    exact ⟨⟨by omega, hmod⟩, hroom⟩

/-- Settles O44: the state of a slot, the rows of a tile, and the plan of a move. -/
theorem slotAndTileCommands : Obligations.SlotAndTileCommands := by
  intro s ca td ts sr blk run
  refine ⟨fun hfree => whenActive (checked_one_passes (by simpa using hfree)), fun hheld => checked_one_fails (by simpa using hheld),
    fun hheld => whenActive (checked_one_passes (by simpa using hheld)), fun hfree => checked_one_fails (by simpa using hfree), ?zero,
    ⟨trnRow (cur s) ts.toNat, ?turn, fun i j _ hj => trnRow_lane _ _ _ hj⟩, ?load, ?store⟩
  case zero =>
    rw [← postTile_eq]
    exact whenActive rfl
  case turn =>
    rw [← postTile_eq]
    exact whenActive rfl
  case load =>
    exact unlessFault_of_checked (show execMlda td sr blk run s = _ by unfold execMlda; exact rfl) rfl (.cons (.of_iff (tileMove_iff _)) .nil) fun _ hgo => hgo
  case store =>
    exact unlessFault_of_checked (show execMsta td sr blk run s = _ by unfold execMsta; exact rfl) rfl
      (.cons (.of_iff (tileMove_iff _)) (.cons (.of_iff (notOpen_iff _ _ _)) .nil)) fun _ hgo => hgo

-- Operands of a product (R39, R80, R252, R253) ---------------------------------------------------------------------------------------------------------------

/-- A read mode that turns its operand, and one that negates it. -/
abbrev Turned (m : ReadMode) : Prop := m = .t ∨ m = .x
abbrev Negated (m : ReadMode) : Prop := m = .g ∨ m = .x

theorem modeT_iff (m : ReadMode) : modeT m = true ↔ Turned m := by cases m <;> simp [modeT, Turned]

theorem modeNeg_iff (m : ReadMode) : modeNeg m = true ↔ Negated m := by cases m <;> simp [modeNeg, Negated]

def rowsIn (sl : Slot) (m : ReadMode) : Nat := if Turned m then sl.cols else sl.rows

def colsIn (sl : Slot) (m : ReadMode) : Nat := if Turned m then sl.rows else sl.cols

theorem effRows_eq (sl : Slot) (m : ReadMode) : effRows sl m = rowsIn sl m := if_congr (modeT_iff m) rfl rfl

theorem effCols_eq (sl : Slot) (m : ReadMode) : effCols sl m = colsIn sl m := if_congr (modeT_iff m) rfl rfl

/-- The code of element (i, k) of a slot. -/
def codeIn (c : CoreState) (ty : Ty) (n : Nat) (m : ReadMode) (i k : Nat) : Nat :=
  (Sparse.get 0 c.cruc (32 * n + if Turned m then k else i)).toNat / 2 ^ (Ty.bits ty * if Turned m then i else k) % 2 ^ Ty.bits ty

/-- Its exact value. -/
def elemIn (c : CoreState) (ty : Ty) (n d : Nat) (m : ReadMode) (i k : Nat) : Machine.Num :=
  let x := if Ty.isFloat ty then (decodeNum (fmtOf ty d) (codeIn c ty n m i k)).scale (if ty = .nf then nfScale d else 0)
    else numOfInt (laneInt ty (codeIn c ty n m i k))
  if Negated m then x.neg else x

theorem slotCode_eq (c : CoreState) (ty : Ty) (n : Nat) (m : ReadMode) (i k : Nat) : slotCode c n ty m i k = codeIn c ty n m i k := by
  rw [slotCode, codeIn]
  by_cases h : Turned m
  · simp only [(modeT_iff m).2 h, if_true, if_pos h]
    rfl
  · simp only [Bool.eq_false_iff.2 (mt (modeT_iff m).1 h), Bool.false_eq_true, if_false, if_neg h]
    rfl

theorem slotNum_eq (c : CoreState) (ty : Ty) (n d : Nat) (m : ReadMode) (i k : Nat) : slotNum c n ty d m i k = elemIn c ty n d m i k := by
  have hlt : codeIn c ty n m i k < 2 ^ Ty.bits ty := Nat.mod_lt _ (Nat.two_pow_pos _)
  rw [slotNum, elemIn, slotCode_eq, intOf_eq_laneInt hlt]
  exact if_congr (modeNeg_iff m) rfl rfl

section
variable (c : CoreState) (o : MmaOps)

/-- The rows and columns of operand A, and its elements: over two slots in the f64 class. -/
def rowsA : Nat :=
  if o.ty = .f64 then 16 + rowsIn (getSlot c (o.ca.toNat + 1)) o.rma else rowsIn (getSlot c o.ca.toNat) o.rma

def colsA : Nat := colsIn (getSlot c o.ca.toNat) o.rma

def elemA (d i k : Nat) : Machine.Num :=
  if o.ty = .f64 ∧ 16 ≤ i then elemIn c o.ty (o.ca.toNat + 1) d o.rma (i - 16) k else elemIn c o.ty o.ca.toNat d o.rma i k

theorem viewA_eq (d : Nat) : viewA c o d = (rowsA c o, colsA c o, elemA c o d) := by
  rw [viewA, rowsA, colsA]
  dsimp only
  by_cases h64 : o.ty = .f64
  · rw [if_pos h64, if_pos h64, effRows_eq, effCols_eq]
    refine congrArg (fun f => (_, _, f)) (funext fun i => funext fun k => ?_)
    rw [elemA, slotNum_eq, slotNum_eq]
    by_cases hi : i < 16
    · rw [if_pos hi, if_neg (by omega)]
    · rw [if_neg hi, if_pos ⟨h64, by omega⟩]
  · rw [if_neg h64, if_neg h64, effRows_eq, effCols_eq]
    refine congrArg (fun f => (_, _, f)) (funext fun i => funext fun k => ?_)
    rw [elemA, if_neg fun h => h64 h.1, slotNum_eq]

/-- The class's largest k. -/
def kMax (t : Ty) : Nat := if t = .nf ∨ t = .i8 ∨ t = .n8 then 64 else if t = .f32 ∨ t = .f64 then 16 else 32

theorem classK_eq (t : Ty) : classK t = kMax t := by cases t <;> rfl

theorem classCols_eq (t : Ty) : classCols t = if t = .f64 then 16 else 32 := by cases t <;> rfl

/-- The slots that a product reads are full. -/
def SlotsFull : Prop := (getSlot c o.ca.toNat).st = .full ∧ (getSlot c o.cb.toNat).st = .full ∧
  (o.ty = .f64 → (getSlot c (o.ca.toNat + 1)).st = .full)

theorem slotsFull_iff : slotsFull c o = true ↔ SlotsFull c o := by
  simp only [slotsFull, SlotsFull, Bool.and_eq_true, Bool.or_eq_true, beq_iff_eq, bne_iff_ne, ne_eq, and_assoc, ← imp_iff_not_or]

/-- Their shapes fit (R254). -/
def ShapesFit (keep : Nat) : Prop := (getSlot c o.ca.toNat).ty = o.ty ∧ (getSlot c o.cb.toNat).ty = o.ty ∧ rowsA c o ≤ 32 ∧ colsA c o ≤ kMax o.ty ∧
  rowsIn (getSlot c o.cb.toNat) o.rmb ≤ kMax o.ty ∧ colsIn (getSlot c o.cb.toNat) o.rmb ≤ (if o.ty = .f64 then 16 else 32) ∧
  colsA c o * 8 = rowsIn (getSlot c o.cb.toNat) o.rmb * keep ∧ (keep ≠ 8 → rowsIn (getSlot c o.cb.toNat) o.rmb % 8 = 0) ∧
  (o.ty = .f64 → (getSlot c (o.ca.toNat + 1)).ty = .f64 ∧ rowsIn (getSlot c o.ca.toNat) o.rma = 16 ∧
    colsIn (getSlot c (o.ca.toNat + 1)) o.rma = colsA c o)

theorem shapesOk_iff (keep : Nat) : shapesOk c o keep = true ↔ ShapesFit c o keep := by
  have hf64 (p : Prop) : (o.ty = .f64 → (getSlot c (o.ca.toNat + 1)).ty = o.ty ∧ p) ↔ (o.ty = .f64 → (getSlot c (o.ca.toNat + 1)).ty = .f64 ∧ p) :=
    forall_congr' fun h => by rw [h]
  simp only [shapesOk, ShapesFit, viewA_eq, effRows_eq, effCols_eq, classK_eq, classCols_eq, Bool.and_eq_true, Bool.or_eq_true, beq_iff_eq,
    bne_iff_ne, ne_eq, decide_eq_true_eq, and_assoc, or_iff_not_imp_left, not_not, hf64]
  exact Iff.rfl

end

-- The tile commands (R149, R255, R256, R258 to R260) ----------------------------------------------------------------------------------------------------------

/-- The checks that come before the format word is taken. -/
def WordTaken (s : State) (o : MmaOps) (own : Prop) : Prop :=
  (cur s).fq ≠ [] ∧ (o.ty = .nf → nfValid (formatA s) = true ∧ nfValid (formatB s) = true) ∧ own

theorem popChecks_empty {s : State} (o : MmaOps) (own : List (Bool × Nat)) (h : (cur s).fq = []) :
    firstFault (popChecks (cur s) o.ty ++ own) = some 0x05 := by
  rw [popChecks, h]
  rfl

section
variable {s : State} {o : MmaOps} {own : Prop} {b : Bool}

/-- The checks in their order: the queue, and then the words and the command's own condition, which raise the same fault. -/
theorem popChecks_decide (hown : b = true ↔ own) :
    List.Forall₂ Decides (popChecks (cur s) o.ty ++ [(b, 0x01)])
      [((cur s).fq ≠ [], 0x05), (o.ty = .nf → nfValid (formatA s) = true ∧ nfValid (formatB s) = true, 0x01), (own, 0x01)] := by
  refine .cons (.of_iff ?queue) (.cons (.of_iff ?words) (.cons (.of_iff hown) .nil))
  case queue => cases (cur s).fq <;> simp
  case words => simp only [Bool.or_eq_true, bne_iff_ne, ne_eq, Bool.and_eq_true, ← imp_iff_not_or, descA_cur, descB_cur]

theorem popChecks_passed (hown : b = true ↔ own) (h : WordTaken s o own) : firstFault (popChecks (cur s) o.ty ++ [(b, 0x01)]) = none := by
  obtain ⟨hfq, hnf, hpass⟩ := h
  refine firstFault_of_all_hold (popChecks_decide hown) ?_
  simpa [hfq, hpass] using hnf

theorem popChecks_refused (hown : b = true ↔ own) (hfq : (cur s).fq ≠ []) (h : ¬ WordTaken s o own) :
    firstFault (popChecks (cur s) o.ty ++ [(b, 0x01)]) = some 0x01 := by
  by_cases hnf : o.ty = .nf → nfValid (formatA s) = true ∧ nfValid (formatB s) = true
  · have hpass : ¬ own := fun hpass => h ⟨hfq, hnf, hpass⟩
    exact firstFault_of_first_fails (before := [_, _]) (by simpa [hfq] using hnf) hpass (popChecks_decide hown)
  · exact firstFault_of_first_fails (before := [_]) (by simp [hfq]) hnf (popChecks_decide hown)

end

/-- What a tile command samples 8 cycles after its issue. -/
def mmaEffect (s : State) (o : MmaOps) (sel : Nat → List Nat) (tag : BitVec 2) : Effect :=
  .mmaAcc o.td.toNat o.ty o.sat ((List.range (rowsA (cur s) o)).map fun i => (List.range (colsA (cur s) o)).map (elemA (cur s) o (formatA s) i))
    ((List.range (colsIn (getSlot (cur s) o.cb.toNat) o.rmb)).map fun j =>
      (List.range (rowsIn (getSlot (cur s) o.cb.toNat) o.rmb)).map fun k => elemIn (cur s) o.ty o.cb.toNat (formatB s) o.rmb k j)
    ((List.range (rowsA (cur s) o)).map sel) tag

theorem startMma_eq (s t : State) (o : MmaOps) (sel : Nat → List Nat) (tag : BitVec 2) :
    startMma t o (cur s) sel tag = posts t 8 ceSt (mmaEffect s o sel tag) := by
  simp only [startMma, mmaEffect, viewA_eq, effRows_eq, effCols_eq, slotNum_eq, descA_cur, descB_cur]
  rfl

/-- The clauses of a tile command with its own condition. -/
def TileClauses (s : State) (o : MmaOps) (i : Instr) (own : Prop) (keep : Nat) (sel : Nat → List Nat) (tag : BitVec 2) : Prop :=
  ((cur s).fq = [] → exec i s = .next (faults s 0x05 0 [])) ∧
  ((cur s).fq ≠ [] → ¬ WordTaken s o own → exec i s = .next (faults s 0x01 0 [])) ∧
  (WordTaken s o own → s.ctx.active = true → ¬ SlotsFull (cur s) o → exec i s = .next (faults s 0x02 4 [])) ∧
  (WordTaken s o own → s.ctx.active = true → SlotsFull (cur s) o → ¬ ShapesFit (cur s) o keep → exec i s = .next (faults s 0x04 0 [])) ∧
  (WordTaken s o own → s.ctx.active = true → SlotsFull (cur s) o → ShapesFit (cur s) o keep →
    exec i s = .next (posts (popWord s) 8 ceSt (mmaEffect s o sel tag))) ∧
  (WordTaken s o own → s.ctx.active = false → exec i s = .next (popWord s))

theorem tileClauses_of_tileCommand {s : State} {o : MmaOps} {i : Instr} {own : Prop} {b : Bool} {keep : Nat} {sel : CoreState → Nat → List Nat}
    {tag : BitVec 2} (hexec : exec i s = tileCommand s o [(b, 0x01)] keep sel tag) (hown : b = true ↔ own) :
    TileClauses s o i own keep (sel (cur s)) tag := by
  rw [TileClauses, hexec]
  have hfull := slotsFull_iff (cur s) o
  have hshape := shapesOk_iff (cur s) o keep
  have hrun (h : WordTaken s o own) : tileCommand s o [(b, 0x01)] keep sel tag =
      if s.ctx.active ∧ slotsFull (cur s) o = false then .next (faults s 0x02 4 [])
      else if s.ctx.active ∧ shapesOk (cur s) o keep = false then .next (faults s 0x04 0 [])
      else .next (if s.ctx.active then startMma (popWord s) o (cur s) (sel (cur s)) tag else popWord s) := by
    rw [tileCommand]
    simp only [popChecks_passed hown h]
    rfl
  refine ⟨fun hfq => ?_, fun hfq hno => ?_, fun h hact hno => ?_, fun h hact hf hno => ?_, fun h hact hf hs => ?_, fun h hact => ?_⟩
  · rw [tileCommand]
    simp only [popChecks_empty o _ hfq]
    rfl
  · rw [tileCommand]
    simp only [popChecks_refused hown hfq hno]
    rfl
  · rw [hrun h, if_pos ⟨hact, Bool.eq_false_iff.2 (mt hfull.1 hno)⟩]
  · rw [hrun h, if_neg (by simp [hfull.2 hf]), if_pos ⟨hact, Bool.eq_false_iff.2 (mt hshape.1 hno)⟩]
  · rw [hrun h, if_neg (by simp [hfull.2 hf]), if_neg (by simp [hshape.2 hs]), if_pos hact, startMma_eq]
  · rw [hrun h, if_neg (by simp [hact]), if_neg (by simp [hact]), if_neg (by simp [hact])]

/-- The own condition of a product: of the f64 class only. -/
abbrev MmaOwn (o : MmaOps) : Prop := o.ty = .f64 → o.ca.toNat ≠ 31 ∧ ¬ Turned o.rma ∧ o.cb.toNat ≠ o.ca.toNat ∧ o.cb.toNat ≠ o.ca.toNat + 1

theorem f64Check_iff (o : MmaOps) :
    (o.ty != .f64 || (o.ca != 31 && !modeT o.rma && o.cb != o.ca && o.cb.toNat != o.ca.toNat + 1)) = true ↔ MmaOwn o := by
  have h31 : o.ca = 31 ↔ o.ca.toNat = 31 := BitVec.toNat_inj.symm
  have hsame : o.cb = o.ca ↔ o.cb.toNat = o.ca.toNat := BitVec.toNat_inj.symm
  simp only [MmaOwn, Bool.or_eq_true, bne_iff_ne, ne_eq, Bool.and_eq_true, Bool.not_eq_true', Bool.eq_false_iff, modeT_iff, h31, hsame,
    and_assoc, ← imp_iff_not_or]

/-- The own condition of a sparse product. -/
abbrev MmasOwn (o : MmaOps) : Prop := o.ty ≠ .f32 ∧ o.ty ≠ .f64 ∧ ¬ Turned o.rma

theorem mmasCheck_iff (o : MmaOps) : (o.ty != .f32 && o.ty != .f64 && !modeT o.rma) = true ↔ MmasOwn o := by
  simp only [MmasOwn, bne_iff_ne, ne_eq, Bool.and_eq_true, Bool.not_eq_true', Bool.eq_false_iff, modeT_iff, and_assoc]

theorem tileClauses_mma (s : State) (o : MmaOps) :
    TileClauses s o (.mma o) (MmaOwn o) 8 (fun _ => List.range (colsA (cur s) o)) (productTag o.ca o.cb o.rma o.rmb) := by
  have h := tileClauses_of_tileCommand (i := .mma o) (keep := 8) (sel := fun c _ => List.range (viewA c o 0).2.1)
    (tag := productTag o.ca o.cb o.rma o.rmb) (show execMma o s = _ by unfold execMma; exact rfl) (f64Check_iff o)
  simpa only [viewA_eq] using h

/-- The rows of B that a sparse product takes. -/
def keptRows (s : State) (o : MmaOps) (pm n i : Nat) : List Nat :=
  (List.range (colsA (cur s) o)).map fun q => 8 * (q / n) + patIdx (cur s) pm i q

theorem tileClauses_mmas (s : State) (o : MmaOps) (pm : BitVec 3) (keep4 : Bool) :
    TileClauses s o (.mmas o pm keep4) (MmasOwn o) (if keep4 = true then 4 else 2) (keptRows s o pm.toNat (if keep4 = true then 4 else 2)) 0 := by
  have h := tileClauses_of_tileCommand (i := .mmas o pm keep4) (keep := if keep4 = true then 4 else 2)
    (sel := fun c i => (List.range (viewA c o 0).2.1).map fun q => 8 * (q / if keep4 = true then 4 else 2) + patIdx c pm.toNat i q)
    (tag := 0) (show execMmas o pm keep4 s = _ by unfold execMmas; exact rfl) (mmasCheck_iff o)
  simp only [viewA_eq] at h
  exact h

/-- Settles O45: one rule for a tile command with its own condition, its rows of B and its tag. -/
theorem tileProductCommands : Obligations.TileProductCommands := by
  intro s o pm keep4
  exact ⟨tileClauses_mma s o, tileClauses_mmas s o pm keep4⟩

end Sys2Proof.Proofs
end

