-- ==== Sys2Proof/Proofs/TileSamples.lean ====
section
/-! PROOF. The samples of the contraction engine: what an accumulator takes up (R50, R51, R256), and that a code of f32 and of f64 fits
its lane. -/

namespace Sys2Proof.Proofs

open Sys2Proof Sys2Proof.Machine Sys2Proof.Claims Sys2Proof.Laws

-- Codes of the standard formats ---------------------------------------------------------------------------------------------------------------------------

theorem roundQuot_le (odd : Nat → Bool) (rm : Rm) (neg : Bool) {n d b : Nat} (h : n < b * d) : (roundQuot odd rm neg n d).1 ≤ b := by
  have hq : n / d < b := Nat.div_lt_of_lt_mul (by rwa [Nat.mul_comm])
  rw [roundQuot]
  dsimp only
  split <;> omega

/-- A number rounded to a grid at or above its leading bit less `m` has `m + 1` bits, or is the next power of two. -/
theorem roundRatBy_le (odd : Nat → Bool) (rm : Rm) (neg : Bool) {n m : Nat} (s : Int) (h : n.log2 + s ≤ m) :
    (roundRatBy odd rm neg n 1 s).1 ≤ 2 ^ (m + 1) := by
  rw [roundRatBy_eq_roundQuot]
  refine roundQuot_le odd rm neg ?_
  calc n * 2 ^ s.toNat < 2 ^ (n.log2 + 1) * 2 ^ s.toNat := Nat.mul_lt_mul_of_pos_right Nat.lt_log2_self (Nat.two_pow_pos _)
    _ = 2 ^ (n.log2 + 1 + s.toNat) := (pow_add ..).symm
    _ ≤ 2 ^ (m + 1 + (-s).toNat) := Nat.pow_le_pow_right (by decide) (by omega)
    _ = 2 ^ (m + 1) * 2 ^ (-s).toNat := pow_add ..

/-- A format of R28: a sign, exponents, a hidden bit and IEEE specials. -/
structure Standard (f : Fmt) : Prop where
  sgn : f.sgn = true
  spec : f.spec = 2
  exponents : f.ebits ≠ 0
  wid : f.wid = f.ebits + f.mbits + 1
  frac : 1 ≤ f.mbits
  top : f.magOf (f.topCode / 2 ^ f.mbits) (f.topCode % 2 ^ f.mbits) = (2 ^ (f.mbits + 1) - 1, (f.eTop : Int) - 1 - f.bias - f.mbits)

theorem standard_f32 : Standard fmtF32 := ⟨rfl, rfl, by decide, rfl, by decide, rfl⟩

theorem standard_f64 : Standard fmtF64 := ⟨rfl, rfl, by decide, rfl, by decide, rfl⟩

theorem eTop_mul (f : Fmt) : (f.eTop + 1) * 2 ^ f.mbits = 2 ^ (f.ebits + f.mbits) := by
  rw [Fmt.eTop, Nat.sub_add_cancel (Nat.two_pow_pos _), pow_add]

theorem infCode_lt (f : Fmt) : f.eTop * 2 ^ f.mbits < (f.eTop + 1) * 2 ^ f.mbits := Nat.mul_lt_mul_of_pos_right (Nat.lt_succ_self _) (Nat.two_pow_pos _)

section
variable {f : Fmt} (hf : Standard f)
include hf

/-- A magnitude's code with its sign fits the width. -/
theorem Standard.sign_fits {c : Nat} (neg : Bool) (hc : c < (f.eTop + 1) * 2 ^ f.mbits) : c + f.signCode neg < 2 ^ f.wid := by
  rw [eTop_mul] at hc
  have hsign : f.signCode neg ≤ 2 ^ (f.ebits + f.mbits) := by
    rw [Fmt.signCode, hf.wid]
    split
    · exact le_rfl
    · exact Nat.zero_le _
  rw [hf.wid, Nat.pow_succ]
  omega

/-- The code of a magnitude `M` on the grid of exponent field `E` that does not exceed the largest finite one. -/
theorem Standard.code_lt {M E : Nat} (hround : M ≤ 2 ^ (f.mbits + 1))
    (htop : magGt M ((E : Int) - f.bias - f.mbits) (2 ^ (f.mbits + 1) - 1) ((f.eTop : Int) - 1 - f.bias - f.mbits) = false) :
    (if M < 2 ^ f.mbits then M else E * 2 ^ f.mbits + (M - 2 ^ f.mbits)) < (f.eTop + 1) * 2 ^ f.mbits := by
  have hpow : 2 ^ (f.mbits + 1) = 2 * 2 ^ f.mbits := by rw [Nat.pow_succ, Nat.mul_comm]
  have hone : 1 ≤ f.eTop := by
    have : 2 ^ 1 ≤ 2 ^ f.ebits := Nat.pow_le_pow_right (by decide) (Nat.pos_of_ne_zero hf.exponents)
    rw [Fmt.eTop]
    omega
  split
  · next hsmall => exact hsmall.trans_le (Nat.le_mul_of_pos_left _ (Nat.succ_pos _))
  · next hbig =>
    rw [magGt, decide_eq_false_iff_not, not_lt] at htop
    obtain hlt | heq | hgt := lt_trichotomy (E + 1) f.eTop
    · calc E * 2 ^ f.mbits + (M - 2 ^ f.mbits) ≤ E * 2 ^ f.mbits + 2 ^ f.mbits := by omega
        _ = (E + 1) * 2 ^ f.mbits := (Nat.succ_mul ..).symm
        _ < (f.eTop + 1) * 2 ^ f.mbits := Nat.mul_lt_mul_of_pos_right (by omega) (Nat.two_pow_pos _)
    · have hsame : (E : Int) - f.bias - f.mbits = (f.eTop : Int) - 1 - f.bias - f.mbits := by omega
      rw [hsame, min_self, sub_self] at htop
      simp only [Int.toNat_zero, pow_zero, mul_one] at htop
      calc E * 2 ^ f.mbits + (M - 2 ^ f.mbits) ≤ E * 2 ^ f.mbits + 2 ^ f.mbits := by omega
        _ = (E + 1) * 2 ^ f.mbits := (Nat.succ_mul ..).symm
        _ < (f.eTop + 1) * 2 ^ f.mbits := Nat.mul_lt_mul_of_pos_right (by omega) (Nat.two_pow_pos _)
    · exfalso
      have hmin : min ((E : Int) - f.bias - f.mbits) ((f.eTop : Int) - 1 - f.bias - f.mbits) = (f.eTop : Int) - 1 - f.bias - f.mbits := min_eq_right (by omega)
      rw [hmin, sub_self] at htop
      simp only [Int.toNat_zero, pow_zero, mul_one] at htop
      have htwo : 2 ^ 1 ≤ 2 ^ ((E : Int) - f.bias - f.mbits - ((f.eTop : Int) - 1 - f.bias - f.mbits)).toNat :=
        Nat.pow_le_pow_right (by decide) (by omega)
      have hle : 2 ^ f.mbits * 2 ≤ 2 ^ (f.mbits + 1) - 1 := (Nat.mul_le_mul (Nat.not_lt.1 hbig) htwo).trans htop
      have hpos : 0 < 2 ^ f.mbits := Nat.two_pow_pos _
      omega

theorem Standard.topCode_lt : f.topCode < (f.eTop + 1) * 2 ^ f.mbits := by
  have hpos : 0 < 2 ^ f.mbits := Nat.two_pow_pos _
  have htop : f.topCode = f.eTop * 2 ^ f.mbits - 1 := by simp only [Fmt.topCode, hf.spec]
  rw [htop, Nat.succ_mul]
  omega

theorem Standard.roundInto_lt (neg : Bool) (n : Nat) (s : Int) : (roundInto f .rne neg n 1 s).1 < 2 ^ f.wid := by
  by_cases hn : n = 0
  · rw [roundInto, if_pos hn, if_neg hf.exponents]
    have := hf.sign_fits neg (c := 0) (Nat.mul_pos (Nat.succ_pos _) (Nat.two_pow_pos _))
    rwa [Nat.zero_add] at this
  unfold roundInto
  rw [if_neg hn, if_neg hf.exponents, hf.top, hf.sgn]
  simp only [Bool.not_true, Bool.and_false, Bool.false_eq_true, if_false]
  split
  · rw [Fmt.overflow, if_pos hf.spec]
    exact hf.sign_fits neg (infCode_lt f)
  · next hle =>
    refine hf.sign_fits neg ?_
    generalize hq : max (ilog2Rat n 1 + s) (1 - f.bias) - f.mbits = q at hle
    have hfield : ((q + f.mbits + f.bias).toNat : Int) - f.bias - f.mbits = q := by omega
    refine hf.code_lt (roundRatBy_le _ _ _ _ ?_) ?_
    · rw [ilog2Rat_one hn] at hq
      omega
    · rw [hfield]
      exact Bool.eq_false_iff.2 hle

theorem Standard.encodeNum_lt (x : Machine.Num) : (encodeNum f .rne x).1 < 2 ^ f.wid := by
  cases x with
  | fin neg m e => exact hf.roundInto_lt neg m e
  | inf neg =>
    rw [encodeNum, hf.sgn, if_neg (by simp), if_pos hf.spec]
    exact hf.sign_fits neg (infCode_lt f)
  | nan sig =>
    have hquiet : f.nanCode = f.eTop * 2 ^ f.mbits + 2 ^ (f.mbits - 1) := by simp only [Fmt.nanCode, hf.spec]
    have hhalf : 2 ^ (f.mbits - 1) < 2 ^ f.mbits := Nat.pow_lt_pow_right (by decide) (Nat.sub_one_lt (Nat.ne_of_gt hf.frac))
    have := hf.sign_fits false (c := f.nanCode) (by rw [hquiet, Nat.succ_mul]; omega)
    exact this

end

-- What an accumulator takes up (R50, R51) -------------------------------------------------------------------------------------------------------------------

theorem summable_standard {f : Fmt} (hf : Standard f) (l : List Machine.Num) : Summable f l :=
  ⟨fun h => absurd (hf.spec.symm.trans h) (by decide), fun h => absurd h hf.exponents⟩

theorem encodeNum_sum {f : Fmt} (hf : Standard f) (x : Machine.Num) (l : List Machine.Num) :
    encodeNum f .rne (sumNum false (x :: l)) = sumInto f (x :: l) :=
  encodeNum_sumNum (List.cons_ne_nil _ _) (summable_standard hf _)

theorem sumInto_lt {f : Fmt} (hf : Standard f) (x : Machine.Num) (l : List Machine.Num) : (sumInto f (x :: l)).1 < 2 ^ f.wid :=
  encodeNum_sum hf x l ▸ hf.encodeNum_lt _

/-- The integer that an accumulator holds after one product. -/
def addTo (sat : Bool) (a : Int × Flags) (p : Machine.Num) : Int × Flags :=
  let v := a.1 + Num.toIntAt 0 p
  if sat = false then ((v + 2 ^ 31) % 2 ^ 32 - 2 ^ 31, a.2)
  else if v < -(2 ^ 31) then (-(2 ^ 31), a.2 ||| fSAT)
  else if 2 ^ 31 - 1 < v then (2 ^ 31 - 1, a.2 ||| fSAT)
  else (v, a.2)

theorem intOf_eq_of_range {v : Int} (hlo : -(2 ^ 31) ≤ v) (hhi : v ≤ 2 ^ 31 - 1) : intOf .i32 (intCode 32 v) = v := by
  simp only [intOf, intCode, asSigned, Ty.isSigned, Ty.bits, if_true]
  omega

theorem intOf_intCode (v : Int) : intOf .i32 (intCode 32 v) = (v + 2 ^ 31) % 2 ^ 32 - 2 ^ 31 := by
  simp only [intOf, intCode, asSigned, Ty.isSigned, Ty.bits, if_true]
  omega

theorem addTo_eq (sat : Bool) (a : Int × Flags) (p : Machine.Num) :
    (if sat then (intOf .i32 (clampInt .i32 (a.1 + Num.toIntAt 0 p)).1, a.2 ||| (clampInt .i32 (a.1 + Num.toIntAt 0 p)).2)
      else (intOf .i32 (intCode 32 (a.1 + Num.toIntAt 0 p)), a.2)) = addTo sat a p := by
  generalize hv : a.1 + Num.toIntAt 0 p = v
  have hmin : Ty.intMin .i32 = -(2 ^ 31) := rfl
  have hmax : Ty.intMax .i32 = 2 ^ 31 - 1 := rfl
  have hbits : Ty.bits .i32 = 32 := rfl
  rw [addTo, hv, clampInt, hmin, hmax, hbits]
  cases sat with
  | false => rw [if_neg (by decide), if_pos rfl, intOf_intCode]
  | true =>
    rw [if_pos rfl, if_neg (Bool.noConfusion : ¬ true = false)]
    by_cases hlow : v < -(2 ^ 31)
    · rw [if_pos hlow, if_pos hlow, intOf_eq_of_range le_rfl (by decide)]
    · rw [if_neg hlow, if_neg hlow]
      by_cases hhigh : 2 ^ 31 - 1 < v
      · rw [if_pos hhigh, if_pos hhigh, intOf_eq_of_range (by decide) le_rfl]
      · rw [if_neg hhigh, if_neg hhigh, intOf_eq_of_range (not_lt.1 hlow) (not_lt.1 hhigh), Nat.or_zero]

/-- The width of an accumulator's element (R50). -/
abbrev accBits (ty : Ty) : Nat := if ty = .f64 then 64 else 32

/-- An f32 accumulator after one group of four products. -/
def addGroup (l : List Machine.Num) (a : Nat × Flags) (g : Nat) : Nat × Flags :=
  if (l.drop (4 * g)).take 4 = [] then a
  else ((sumInto fmtF32 (decodeNum fmtF32 a.1 :: (l.drop (4 * g)).take 4)).1,
    a.2 ||| (sumInto fmtF32 (decodeNum fmtF32 a.1 :: (l.drop (4 * g)).take 4)).2)

/-- An f64 accumulator after one product. -/
def addOne (a : Nat × Flags) (p : Machine.Num) : Nat × Flags :=
  ((sumInto fmtF64 [decodeNum fmtF64 a.1, p]).1, a.2 ||| (sumInto fmtF64 [decodeNum fmtF64 a.1, p]).2)

theorem accumulate_f32 (sat : Bool) (acc : Nat) (l : List Machine.Num) : accumulate .f32 sat acc l = (List.range 4).foldl (addGroup l) (acc, 0) := rfl

theorem accumulate_f64 (sat : Bool) (acc : Nat) (l : List Machine.Num) : accumulate .f64 sat acc l = l.foldl addOne (acc, 0) := rfl

/-- The products of an integer class. -/
def addInts (sat : Bool) (acc : Nat) (l : List Machine.Num) : Nat × Flags :=
  (((l.foldl (addTo sat) (laneInt .i32 acc, 0)).1 % 2 ^ 32).toNat, (l.foldl (addTo sat) (laneInt .i32 acc, 0)).2)

theorem updateAcc_eq (ty : Ty) (sat : Bool) {acc : Nat} (hacc : acc < 2 ^ accBits ty) (ps : List (Machine.Num × Machine.Num)) :
    updateAcc ty sat acc ps = accumulate ty sat acc (ps.map fun p => p.1.mul p.2) := by
  generalize hl : ps.map (fun p => p.1.mul p.2) = l
  have hints (h : acc < 2 ^ 32) : (let r := l.foldl (fun (a : Int × Flags) p =>
      let v := a.1 + Num.toIntAt 0 p
      if sat then (let cl := clampInt .i32 v; (intOf .i32 cl.1, a.2 ||| cl.2)) else (intOf .i32 (intCode 32 v), a.2)) (intOf .i32 acc, 0)
      (intCode 32 r.1, r.2)) = addInts sat acc l := by
    rw [addInts, intOf_eq_laneInt (t := .i32) h, List.foldl_ext _ (addTo sat) _ fun a p _ => addTo_eq sat a p]
    rfl
  unfold updateAcc
  rw [hl]
  cases ty with
  | f16 | bf16 | nf => exact encodeNum_sum standard_f32 _ _
  | f32 =>
    rw [accumulate_f32]
    refine List.foldl_ext _ _ _ fun a g _ => ?_
    dsimp only
    rw [addGroup, encodeNum_sum standard_f32]
    exact if_congr List.isEmpty_iff rfl rfl
  | f64 =>
    rw [accumulate_f64]
    refine List.foldl_ext _ _ _ fun a p _ => ?_
    rw [addOne, encodeNum_sum standard_f64]
  | i64 | i32 | i16 | i8 | n64 | n32 | n16 | n8 | b1 => exact hints hacc

theorem accumulate_lt (ty : Ty) (sat : Bool) {acc : Nat} (hacc : acc < 2 ^ accBits ty) (l : List Machine.Num) :
    (accumulate ty sat acc l).1 < 2 ^ accBits ty := by
  have hints : (addInts sat acc l).1 < 2 ^ 32 := by
    rw [addInts]
    omega
  cases ty with
  | f16 | bf16 | nf => exact sumInto_lt standard_f32 _ _
  | f32 =>
    rw [accumulate_f32]
    refine List.foldlRecOn (motive := fun a : Nat × Flags => a.1 < 2 ^ 32) _ _ hacc fun a ha g _ => ?_
    rw [addGroup]
    split
    · exact ha
    · exact sumInto_lt standard_f32 _ _
  | f64 =>
    rw [accumulate_f64]
    exact List.foldlRecOn (motive := fun a : Nat × Flags => a.1 < 2 ^ 64) _ _ hacc fun a _ p _ => sumInto_lt standard_f64 _ _
  | i64 | i32 | i16 | i8 | n64 | n32 | n16 | n8 | b1 => exact hints

-- The sample of a tile command (R256) ---------------------------------------------------------------------------------------------------------------------------

/-- What the products of row i and column j make of the accumulator's element. -/
def accElem (c : CoreState) (t : Nat) (ty : Ty) (sat : Bool) (a b : List (List Machine.Num)) (sel : List (List Nat)) (i j : Nat) : Nat × Flags :=
  accumulate ty sat ((getRow c (32 * t + i)).toNat / 2 ^ (accBits ty * j) % 2 ^ accBits ty)
    ((List.range (a.getD i []).length).map fun q =>
      ((a.getD i []).getD q (.fin false 0 0)).mul ((b.getD j []).getD ((sel.getD i []).getD q 0) (.fin false 0 0)))

/-- A row of elements. -/
def accRow (c : CoreState) (t : Nat) (ty : Ty) (sat : Bool) (a b : List (List Machine.Num)) (sel : List (List Nat)) (i : Nat) : List (Nat × Flags) :=
  (List.range b.length).map (accElem c t ty sat a b sel i)

theorem updateAcc_lane (c : CoreState) (t : Nat) (ty : Ty) (sat : Bool) (a b : List (List Machine.Num)) (sel : List (List Nat)) (i j : Nat) :
    updateAcc ty sat (laneAt (accBits ty) (getRow c (32 * t + i)) j) ((List.range (a.getD i []).length).map fun q =>
      ((a.getD i []).getD q (.fin false 0 0), (b.getD j []).getD ((sel.getD i []).getD q 0) (.fin false 0 0))) =
      accElem c t ty sat a b sel i j := by
  rw [laneAt, updateAcc_eq ty sat (Nat.mod_lt _ (Nat.two_pow_pos _)), List.map_map]
  rfl

theorem accRow_length (c : CoreState) (t : Nat) (ty : Ty) (sat : Bool) (a b : List (List Machine.Num)) (sel : List (List Nat)) (i : Nat) :
    (accRow c t ty sat a b sel i).length = b.length := by rw [accRow, List.length_map, List.length_range]

/-- The row that an accumulator row becomes, and its elements. -/
def accBytes (c : CoreState) (t : Nat) (ty : Ty) (sat : Bool) (a b : List (List Machine.Num)) (sel : List (List Nat)) (i : Nat) : Row :=
  BitVec.ofNat 1024 (packLanes (accBits ty) ((accRow c t ty sat a b sel i).map Prod.fst))

theorem accBytes_lane (c : CoreState) (t : Nat) (ty : Ty) (sat : Bool) (a b : List (List Machine.Num)) (sel : List (List Nat)) (i : Nat) {j : Nat}
    (hb : accBits ty * b.length ≤ 1024) (hj : j < b.length) :
    (accBytes c t ty sat a b sel i).toNat / 2 ^ (accBits ty * j) % 2 ^ accBits ty = (accElem c t ty sat a b sel i j).1 := by
  have hlt : packLanes (accBits ty) ((accRow c t ty sat a b sel i).map Prod.fst) < 2 ^ 1024 := by
    refine (packLanes_lt _ _).trans_le (Nat.pow_le_pow_right (by decide) ?_)
    rwa [List.length_map, accRow_length]
  rw [accBytes, BitVec.toNat_ofNat, Nat.mod_eq_of_lt hlt, packLanes_lane, accRow, List.map_map, List.getElem?_map, List.getElem?_range hj]
  exact Nat.mod_eq_of_lt (accumulate_lt ty sat (Nat.mod_lt _ (Nat.two_pow_pos _)) _)

/-- The effect of a row of elements. -/
def packedEffect (t : Nat) (ty : Ty) (tag : BitVec 2) (elems : List (Nat × Flags)) (i : Nat) : Effect :=
  .row (32 * t + i) (BitVec.ofNat 128 (2 ^ (accBits ty / 8 * elems.length) - 1)) (BitVec.ofNat 1024 (packLanes (accBits ty) (elems.map Prod.fst)))
    (.prod tag)

/-- The row that lands, as an entry's effect. -/
def accEffect (c : CoreState) (t : Nat) (ty : Ty) (sat : Bool) (a b : List (List Machine.Num)) (sel : List (List Nat)) (tag : BitVec 2) (i : Nat) : Effect :=
  .row (32 * t + i) (BitVec.ofNat 128 (2 ^ (accBits ty / 8 * b.length) - 1)) (accBytes c t ty sat a b sel i) (.prod tag)

/-- The flags that the elements raise. -/
def accFlags (c : CoreState) (t : Nat) (ty : Ty) (sat : Bool) (a b : List (List Machine.Num)) (sel : List (List Nat)) : Flags :=
  orFlags (((List.range a.length).map (accRow c t ty sat a b sel)).flatten)

theorem testBit_accFlags (c : CoreState) (t : Nat) (ty : Ty) (sat : Bool) (a b : List (List Machine.Num)) (sel : List (List Nat)) (n : Nat) :
    (accFlags c t ty sat a b sel).testBit n = true ↔
      ∃ i j, i < a.length ∧ j < b.length ∧ (accElem c t ty sat a b sel i j).2.testBit n = true := by
  simp only [accFlags, testBit_orFlags, List.mem_flatten, List.mem_map, List.mem_range, accRow]
  constructor
  · rintro ⟨x, ⟨_, ⟨i, hi, rfl⟩, hx⟩, hn⟩
    obtain ⟨j, hj, rfl⟩ := List.mem_map.1 hx
    exact ⟨i, j, hi, List.mem_range.1 hj, hn⟩
  · rintro ⟨i, j, hi, hj, hn⟩
    exact ⟨_, ⟨_, ⟨i, hi, rfl⟩, List.mem_map.2 ⟨j, List.mem_range.2 hj, rfl⟩⟩, hn⟩

/-- The rows and the flags that a sample puts in flight. -/
theorem sampleMma_eq {s : State} {k t : Nat} {ty : Ty} {sat : Bool} {f : Flight} {a b : List (List Machine.Num)} {sel : List (List Nat)}
    {tag : BitVec 2} (heff : f.eff = .mmaAcc t ty sat a b sel tag) :
    sampleMma s k f =
      let s' := (List.range a.length).foldl (fun u i =>
        addFlight u k { f with at' := f.at' + 32, sub := i, eff := accEffect (getCore s k) t ty sat a b sel tag i }) s
      if accFlags (getCore s k) t ty sat a b sel = 0 then s'
      else addFlight s' k { f with at' := f.at' + 32, sub := 32, eff := .flags .ce (accFlags (getCore s k) t ty sat a b sel) } := by
  unfold sampleMma
  rw [heff]
  dsimp only
  simp only [updateAcc_lane]
  let rows := (List.range a.length).map (accRow (getCore s k) t ty sat a b sel)
  have hrow {i : Nat} (hi : i ∈ List.range a.length) : rows.getD i [] = accRow (getCore s k) t ty sat a b sel i := by
    rw [List.getD_eq_getElem?_getD, List.getElem?_map, List.getElem?_range (List.mem_range.1 hi)]
    rfl
  have hrows : (List.range a.length).foldl (fun u i => addFlight u k { f with at' := f.at' + 32, sub := i, eff := packedEffect t ty tag (rows.getD i []) i }) s =
      (List.range a.length).foldl (fun u i =>
        addFlight u k { f with at' := f.at' + 32, sub := i, eff := accEffect (getCore s k) t ty sat a b sel tag i }) s := by
    refine List.foldl_ext _ _ _ fun u i hi => ?_
    rw [hrow hi, packedEffect, accRow_length]
    rfl
  exact congrArg (fun u => if accFlags (getCore s k) t ty sat a b sel = 0 then u
    else addFlight u k { f with at' := f.at' + 32, sub := 32, eff := .flags .ce (accFlags (getCore s k) t ty sat a b sel) }) hrows

/-- Settles O46: the model's update of an element is the accumulation of its products, whose code fits the element's lane. -/
theorem tileSamplesAccumulate : Obligations.TileSamplesAccumulate := by
  intro s k t ty sat f a b sel tag w heff ha hb
  refine ⟨accBytes (getCore s k) t ty sat a b sel, fun i j => (accElem (getCore s k) t ty sat a b sel i j).2,
    accFlags (getCore s k) t ty sat a b sel, sampleMma_eq heff, testBit_accFlags _ _ _ _ _ _ _, fun i j _ hj => ?_⟩
  exact Prod.ext (accBytes_lane _ _ _ _ _ _ _ _ hb hj) rfl

end Sys2Proof.Proofs
end

