-- ==== Sys2Proof/Proofs/OrbitContractions.lean ====
section
/-! PROOF. OCON and OCONP at their issue (R264 to R267, R356). -/

namespace Sys2Proof.Proofs

open Sys2Proof Sys2Proof.Machine Sys2Proof.Claims Sys2Proof.Laws

theorem cellAt_of_requestOutcome {s : State} {x : Nat} (h : requestOutcome s x 64 64 6 [3] = none) : CellAt x := by
  by_contra hno
  rw [requestOutcome, if_neg fun hx => hno ⟨hx.2, hx.1⟩] at h
  exact Option.some_ne_none _ h

/-- The cell of an OCONP: the request fails. -/
theorem withOconCell_fails {s : State} {x : Nat} {f : Nat → State → State} {y : Failure} (h : requestOutcome s x 64 64 6 [3] = some y) :
    withOconCell s x f = .next (faults y.seen y.code 0 y.detail) := by
  have hl := lookupNow_watchNow_is s x 64 6 [3]
  rw [requestOutcome] at h
  by_cases hform : CellAt x
  · rw [if_pos ⟨hform.2, hform.1⟩] at h
    refine (if_pos hform).trans ?_
    dsimp only
    cases ha : accessOutcome s x [3] with
    | stops code sec =>
      rw [ha] at h hl
      obtain rfl := Option.some_inj.1 h
      rw [show lookupNow (watchNow s x 64 6) x [pAT] = _ from hl] <;> rfl
    | reaches key => simp [ha] at h
    | nowhere => simp [ha] at h
  · rw [if_neg fun hx => hform ⟨hx.2, hx.1⟩] at h
    obtain rfl := Option.some_inj.1 h
    exact if_neg hform

/-- It goes on with the key of the cell that it reaches. -/
theorem withOconCell_reaches {s : State} {x key : Nat} (f : Nat → State → State) (hnot : requestOutcome s x 64 64 6 [3] = none)
    (h : accessOutcome s x [3] = .reaches key) : withOconCell s x f = .next (f key (requestNow (watched s x 64 6) ceSt)) := by
  have hl := lookupNow_watchNow_is s x 64 6 [3]
  rw [h] at hl
  obtain ⟨e, he⟩ := hl
  refine (if_pos (cellAt_of_requestOutcome hnot)).trans ?_
  dsimp only
  rw [show lookupNow (watchNow s x 64 6) x [pAT] = _ from he] <;> rfl

/-- There is no physical address. -/
theorem withOconCell_nowhere {s : State} {x : Nat} (f : Nat → State → State) (hnot : requestOutcome s x 64 64 6 [3] = none)
    (h : accessOutcome s x [3] = .nowhere) : withOconCell s x f = .next { watched s x 64 6 with dead := true } := by
  have hl := lookupNow_watchNow_is s x 64 6 [3]
  rw [h] at hl
  refine (if_pos (cellAt_of_requestOutcome hnot)).trans ?_
  dsimp only
  rw [show lookupNow (watchNow s x 64 6) x [pAT] = _ from hl] <;> rfl

section
variable (s : State) (row : VReg) (ya yb : BitVec 4) (sr : SReg) (t : Ty)

/-- What the entries must meet, in this order (R264). -/
def WalkLegal : Prop := t ≠ .b1 ∧ (getSy (cur s) ya.toNat).valid = true ∧ (getSy (cur s) yb.toNat).valid = true
def WalkTyped : Prop := symTy (getSy (cur s) ya.toNat).desc = t ∧ symTy (getSy (cur s) yb.toNat).desc = t
def WalkFits : Prop := symMatch (getSy (cur s) ya.toNat).desc (getSy (cur s) yb.toNat).desc = true

/-- The finding of a symmetry-claim. -/
def walkFinding (find : Nat) : List Word := symDetail ya.toNat yb.toNat s.ctx.seq ⟨0x0B, find, 0, [], none⟩

theorem oconFault_illegal (h : ¬ WalkLegal s ya yb t) : oconFault s ya yb t = some (0x01, []) := by
  refine if_pos ?_
  rw [WalkLegal, not_and_or, not_and_or, not_not, Bool.not_eq_true, Bool.not_eq_true] at h
  exact h

theorem oconFault_legal (h : WalkLegal s ya yb t) : oconFault s ya yb t =
    if symTy (getSy (cur s) ya.toNat).desc ≠ t ∨ symTy (getSy (cur s) yb.toNat).desc ≠ t then some (0x0B, walkFinding s ya yb 3)
    else if symMatch (getSy (cur s) ya.toNat).desc (getSy (cur s) yb.toNat).desc = false then some (0x0B, walkFinding s ya yb 2) else none := by
  refine if_neg ?_
  obtain ⟨hty, ha, hb⟩ := h
  simp [hty, ha, hb]

theorem oconFault_untyped (h : WalkLegal s ya yb t) (hty : ¬ WalkTyped s ya yb t) : oconFault s ya yb t = some (0x0B, walkFinding s ya yb 3) :=
  (oconFault_legal s ya yb t h).trans (if_pos (not_and_or.1 hty))

theorem oconFault_unfit (h : WalkLegal s ya yb t) (hty : WalkTyped s ya yb t) (hfit : ¬ WalkFits s ya yb) :
    oconFault s ya yb t = some (0x0B, walkFinding s ya yb 2) :=
  (oconFault_legal s ya yb t h).trans ((if_neg fun hno => not_and_or.2 hno hty).trans (if_pos (Bool.eq_false_iff.2 hfit)))

theorem oconFault_none (h : WalkLegal s ya yb t) (hty : WalkTyped s ya yb t) (hfit : WalkFits s ya yb) : oconFault s ya yb t = none :=
  (oconFault_legal s ya yb t h).trans ((if_neg fun hno => not_and_or.2 hno hty).trans (if_neg (Bool.not_eq_false _ ▸ hfit)))

/-- The feature bit of OCONP. -/
abbrev FeatureOn : Prop := (Sparse.get 0 (getPkg s (pkgOf s.ctx.core)).featActive (partOfCore s s.ctx.core + 1)).getLsbD 4 = true

theorem feature_not_off (h : FeatureOn s) : ¬ featOn s s.ctx.core (partOfCore s s.ctx.core) 4 = false := fun hoff =>
  Bool.false_ne_true (hoff.symm.trans h)

/-- The result cycle of a walk (R265, R266). -/
def walkLast (a b : BitVec 512) : Nat :=
  if orbitCount a b ≠ 0 ∧ (symSpad a = false ∨ symSpad b = false) then 1328 + orbitCount a b else 48 + orbitCount a b

theorem walkMem_iff (a b : BitVec 512) : walkMem a b = true ↔ symSpad a = false ∨ symSpad b = false := by
  rw [walkMem, Bool.or_eq_true, Bool.not_eq_true', Bool.not_eq_true']

theorem walkResult_eq (a b : BitVec 512) : walkResult a b = walkLast a b := by
  rw [walkResult, walkLast]
  by_cases h : orbitCount a b ≠ 0 ∧ (symSpad a = false ∨ symSpad b = false)
  · rw [if_pos h, if_neg (by simp [h.1, (walkMem_iff a b).2 h.2])]
  · have hno : orbitCount a b = 0 ∨ walkMem a b = false := by
      rw [not_and_or, not_not, ← walkMem_iff, Bool.not_eq_true] at h
      exact h
    rw [if_neg h, if_pos hno]

/-- A walk begins in a state `u`. -/
def walks (u : State) (r cell : Option Nat) : State :=
  begins u (progress u (.walk ya.toNat yb.toNat (getSy (cur s) ya.toNat).desc (getSy (cur s) yb.toNat).desc r cell t) ceSt 0
    (walkLast (getSy (cur s) ya.toNat).desc (getSy (cur s) yb.toNat).desc) none)

theorem ocon_faults {code : Nat} {d : List Word} (h : oconFault s ya yb t = some (code, d)) :
    exec (.ocon row ya yb t) s = .next (faults s code 0 d) ∧ (FeatureOn s → exec (.oconp ya yb sr t) s = .next (faults s code 0 d)) := by
  refine ⟨(show execOcon row ya yb t s = _ from ?_), fun hon => (show execOconp ya yb sr t s = _ from ?_)⟩
  · unfold execOcon
    rw [h] <;> rfl
  · unfold execOconp
    dsimp only
    rw [if_neg (feature_not_off s hon), h] <;> rfl

theorem ocon_starts (h : oconFault s ya yb t = none) : exec (.ocon row ya yb t) s = .next (walks s ya yb t s (some row.toNat) none) := by
  change execOcon row ya yb t s = _
  unfold execOcon
  dsimp only
  rw [h, walkResult_eq] <;> rfl

theorem oconp_featureless (hon : ¬ FeatureOn s) : exec (.oconp ya yb sr t) s = .next (faults s 0x01 0 []) := by
  change execOconp ya yb sr t s = _
  unfold execOconp
  exact if_pos (Bool.eq_false_iff.2 hon)

theorem oconp_starts (hon : FeatureOn s) (h : oconFault s ya yb t = none) : exec (.oconp ya yb sr t) s =
    if s.ctx.active then withOconCell s (rd s sr).toNat fun key u => walks s ya yb t u none (some key)
    else .next (walks s ya yb t s none none) := by
  change execOconp ya yb sr t s = _
  unfold execOconp
  dsimp only
  rw [if_neg (feature_not_off s hon), h, walkResult_eq] <;> rfl

end

/-- Settles O47: the fault of the entries first, then the cell's request. -/
theorem orbitContractionsStart : Obligations.OrbitContractionsStart := by
  intro s row ya yb sr t
  refine ⟨oconp_featureless s ya yb sr t, fun h => ocon_faults s row ya yb sr t (oconFault_illegal s ya yb t h),
    fun h hty => ocon_faults s row ya yb sr t (oconFault_untyped s ya yb t h hty),
    fun h hty hfit => ocon_faults s row ya yb sr t (oconFault_unfit s ya yb t h hty hfit), fun h hty hfit => ?_⟩
  have hnone := oconFault_none s ya yb t h hty hfit
  have hactive (hon : FeatureOn s) (ha : s.ctx.active = true) := (oconp_starts s ya yb sr t hon hnone).trans (if_pos ha)
  exact ⟨ocon_starts s row ya yb t hnone, fun hon ha => (oconp_starts s ya yb sr t hon hnone).trans (if_neg (by simp [ha])),
    fun hon ha => ⟨fun y hy => (hactive hon ha).trans (withOconCell_fails hy), fun hno =>
      ⟨fun key hkey => (hactive hon ha).trans (withOconCell_reaches _ hno hkey), fun hdead => (hactive hon ha).trans (withOconCell_nowhere _ hno hdead)⟩⟩⟩

end Sys2Proof.Proofs
end

