-- ==== Sys2Proof/Proofs/Walks.lean ====
section
/-! PROOF. A walk over two matching arrays (R76 to R79, R264 to R267): its requests, its samples, and the exact sum with which it ends. -/

namespace Sys2Proof.Proofs

open Sys2Proof Sys2Proof.Machine Sys2Proof.Claims Sys2Proof.Laws

-- The exact sum of a walk (R78) ----------------------------------------------------------------------------------------------------------------------------

/-- The least exponent of terms, none above 0, and their sum in units of it. -/
def leastExponent (l : List Machine.Num) : Int := (l.map termExponent).foldl min 0

def exactTotal (l : List Machine.Num) : Int := (l.map (Num.toIntAt (leastExponent l))).sum

/-- The exact finite sum: none where the terms cancel, else a number in units of a power of two that one of the terms has. -/
theorem finSum_exactTotal {l : List Machine.Num} (hfin : ∀ x ∈ l, ∃ n m q, x = .fin n m q) :
    exactTotal l = 0 ∧ finSum l = none ∨ ∃ (v e : Int), v ≠ 0 ∧ leastExponent l ≤ e ∧ exactTotal l = v * 2 ^ (e - leastExponent l).toNat ∧
      finSum l = some (.fin (v < 0) v.natAbs e) ∧ ∃ n m, Machine.Num.fin n m e ∈ l := by
  have hmin : ∀ n m q, Machine.Num.fin n m q ∈ l → leastExponent l ≤ q := fun n m q hx =>
    (foldl_min_le (l.map termExponent) 0).2 _ (List.mem_map_of_mem (f := termExponent) hx)
  cases hexp : minExp l with
  | none =>
    refine .inl ⟨List.sum_eq_zero fun y hy => ?_, by rw [finSum, hexp]⟩
    obtain ⟨x, hx, rfl⟩ := List.mem_map.1 hy
    obtain ⟨n, m, q, rfl⟩ := hfin x hx
    exact toIntAt_of_isZero _ (beq_iff_eq.2 (eq_zero_of_minExp_none hexp n m q hx))
  | some e =>
    obtain ⟨n, m, hmem⟩ := minExp_mem hexp
    have hle := hmin n m e hmem
    have hshift : exactTotal l = (l.map (Num.toIntAt e)).sum * 2 ^ (e - leastExponent l).toNat := sum_toIntAt_shift hle (minExp_le hexp)
    have hsum : finSum l = if (l.map (Num.toIntAt e)).sum = 0 then none
        else some (.fin ((l.map (Num.toIntAt e)).sum < 0) (l.map (Num.toIntAt e)).sum.natAbs e) := by
      rw [finSum, hexp]
      dsimp only
      rw [foldl_add_eq_sum]
    by_cases h0 : (l.map (Num.toIntAt e)).sum = 0
    · exact .inl ⟨by rw [hshift, h0, Int.zero_mul], by rw [hsum, if_pos h0]⟩
    · exact .inr ⟨_, e, h0, hle, hshift, by rw [hsum, if_neg h0], n, m, hmem⟩

/-- The model's sum of a walk's terms. -/
def termSum (l : List Machine.Num) : Machine.Num :=
  match sumNum false l with
  | .nan _ => invalidNum
  | .fin _ 0 _ => .fin false 0 0
  | x => x

theorem up_iff (l : List Machine.Num) : (l.any fun x => x.isInf && !x.isNeg) = true ↔ Machine.Num.inf false ∈ l := by
  rw [List.any_eq_true]
  refine ⟨?_, fun h => ⟨_, h, rfl⟩⟩
  rintro ⟨x, hx, h⟩
  cases x <;> simp_all [Num.isInf, Num.isNeg]

theorem down_iff (l : List Machine.Num) : (l.any fun x => x.isInf && x.isNeg) = true ↔ Machine.Num.inf true ∈ l := by
  rw [List.any_eq_true]
  refine ⟨?_, fun h => ⟨_, h, rfl⟩⟩
  rintro ⟨x, hx, h⟩
  cases x <;> simp_all [Num.isInf, Num.isNeg]

section
variable {l : List Machine.Num}

theorem termSum_invalid (h : l.any Num.isNan = true ∨ (Machine.Num.inf false ∈ l ∧ Machine.Num.inf true ∈ l)) : termSum l = .nan true := by
  rw [termSum, sumNum]
  by_cases hnan : l.any Num.isNan = true
  · rw [if_pos hnan] <;> rfl
  · obtain ⟨hup, hdown⟩ := h.resolve_left hnan
    rw [if_neg hnan, (up_iff l).2 hup, (down_iff l).2 hdown] <;> rfl

theorem termSum_up (hnan : l.any Num.isNan = false) (hup : Machine.Num.inf false ∈ l) (hdown : Machine.Num.inf true ∉ l) : termSum l = .inf false := by
  rw [termSum, sumNum, hnan, (up_iff l).2 hup, Bool.eq_false_iff.2 (mt (down_iff l).1 hdown)] <;> rfl

theorem termSum_down (hnan : l.any Num.isNan = false) (hup : Machine.Num.inf false ∉ l) (hdown : Machine.Num.inf true ∈ l) : termSum l = .inf true := by
  rw [termSum, sumNum, hnan, Bool.eq_false_iff.2 (mt (up_iff l).1 hup), (down_iff l).2 hdown] <;> rfl

theorem finite_of_no_special (hnan : l.any Num.isNan = false) (hup : Machine.Num.inf false ∉ l) (hdown : Machine.Num.inf true ∉ l) :
    ∀ x ∈ l, ∃ n m q, x = .fin n m q := fun x hx => by
  cases x with
  | fin n m q => exact ⟨n, m, q, rfl⟩
  | inf n => cases n <;> contradiction
  | nan n => exact absurd (hnan.symm.trans (List.any_eq_true.2 ⟨_, hx, rfl⟩)) Bool.false_ne_true

theorem termSum_finite (hnan : l.any Num.isNan = false) (hup : Machine.Num.inf false ∉ l) (hdown : Machine.Num.inf true ∉ l) :
    exactTotal l = 0 ∧ termSum l = .fin false 0 0 ∨ ∃ (v e : Int), v ≠ 0 ∧ leastExponent l ≤ e ∧
      exactTotal l = v * 2 ^ (e - leastExponent l).toNat ∧ termSum l = .fin (v < 0) v.natAbs e ∧ ∃ n m, Machine.Num.fin n m e ∈ l := by
  have hsum : sumNum false l = match finSum l with
      | some x => x
      | none => if !l.isEmpty && l.all (fun x => x.isZero && x.isNeg) then .fin true 0 0 else .fin false 0 0 := by
    rw [sumNum, hnan, Bool.eq_false_iff.2 (mt (up_iff l).1 hup), Bool.eq_false_iff.2 (mt (down_iff l).1 hdown)] <;> rfl
  obtain ⟨h0, hnone⟩ | ⟨v, e, hv, hle, htotal, hsome, hmem⟩ := finSum_exactTotal (finite_of_no_special hnan hup hdown)
  · refine .inl ⟨h0, ?_⟩
    rw [termSum, hsum, hnone]
    dsimp only
    cases !l.isEmpty && l.all fun x => x.isZero && x.isNeg <;> rfl
  · refine .inr ⟨v, e, hv, hle, htotal, ?_, hmem⟩
    obtain ⟨m, hm⟩ := Nat.exists_eq_succ_of_ne_zero (Int.natAbs_ne_zero.2 hv)
    rw [termSum, hsum, hsome, hm] <;> rfl

/-- The sum of terms without specials, rounded into a standard format. -/
theorem encode_termSum_finite {f : Fmt} (hf : Standard f) (hnan : l.any Num.isNan = false) (hup : Machine.Num.inf false ∉ l)
    (hdown : Machine.Num.inf true ∉ l) : encodeNum f .rne (termSum l) =
      if exactTotal l = 0 then (0, 0) else roundInto f .rne (exactTotal l < 0) (exactTotal l).natAbs 1 (leastExponent l) := by
  obtain ⟨h0, hsum⟩ | ⟨v, e, hv, hle, htotal, hsum, -⟩ := termSum_finite hnan hup hdown
  · rw [hsum, if_pos h0, encodeNum, roundInto, if_pos rfl, if_neg hf.exponents] <;> rfl
  · have hpow : (0 : Int) < 2 ^ (e - leastExponent l).toNat := by positivity
    have hne : exactTotal l ≠ 0 := by rw [htotal]; exact Int.mul_ne_zero hv hpow.ne'
    have hsign : decide (exactTotal l < 0) = decide (v < 0) := decide_eq_decide.2 (by rw [htotal, mul_neg_iff]; simp [hpow, not_lt.2 hpow.le])
    have habs : (exactTotal l).natAbs = v.natAbs * 2 ^ (e - leastExponent l).toNat := by
      rw [htotal, Int.natAbs_mul, Int.natAbs_pow] <;> rfl
    have hexact : leastExponent l + ((e - leastExponent l).toNat : Int) = e := by omega
    rw [hsum, if_neg hne, encodeNum, hsign, habs, roundInto_shift, hexact]

/-- The sum of integers is the integer. -/
theorem termSum_integers (hint : ∀ x ∈ l, ∃ n m, x = .fin n m 0) :
    leastExponent l = 0 ∧ ∃ n m e, termSum l = .fin n m e ∧ (if n then -(m : Int) else (m : Int)) = exactTotal l := by
  have hzero : ∀ y ∈ l.map termExponent, y = 0 := fun y hy => by
    obtain ⟨x, hx, rfl⟩ := List.mem_map.1 hy
    obtain ⟨n, m, rfl⟩ := hint x hx
    rfl
  have hleast : leastExponent l = 0 := by
    rw [leastExponent]
    exact List.foldlRecOn (motive := fun a : Int => a = 0) _ _ rfl fun a ha b hb => by rw [ha, hzero b hb]; rfl
  have hspecial (x : Machine.Num) (hx : ∀ n m, x ≠ .fin n m 0) : x ∉ l := fun hmem => by
    obtain ⟨n, m, h⟩ := hint x hmem
    exact hx n m h
  have hnan : l.any Num.isNan = false := Bool.eq_false_iff.2 fun h => by
    obtain ⟨x, hx, hxn⟩ := List.any_eq_true.1 h
    obtain ⟨n, m, rfl⟩ := hint x hx
    exact Bool.noConfusion hxn
  refine ⟨hleast, ?_⟩
  obtain ⟨h0, hsum⟩ | ⟨v, e, -, -, htotal, hsum, n, m, hmem⟩ :=
    termSum_finite hnan (hspecial _ fun _ _ => Machine.Num.noConfusion) (hspecial _ fun _ _ => Machine.Num.noConfusion)
  · exact ⟨_, _, _, hsum, by simp [h0]⟩
  · obtain ⟨_, _, hone⟩ := hint _ hmem
    have he : e = 0 := by injection hone
    refine ⟨_, _, _, hsum, ?_⟩
    have hvalue : (if decide (v < 0) then -(v.natAbs : Int) else (v.natAbs : Int)) = v := by
      by_cases hneg : v < 0
      · rw [if_pos (decide_eq_true hneg)]
        omega
      · rw [if_neg (by simpa using hneg)]
        omega
    rw [hvalue, htotal, hleast, he]
    exact (Int.mul_one v).symm

end

-- A walk in a cycle (R265 to R267) --------------------------------------------------------------------------------------------------------------------------------

section
variable {s : State} {k : Nat} {j : Job} {ya yb : Nat} {a b : BitVec 512} {row cell : Option Nat} {ty : Ty} {t i : Nat}

/-- The cycle of the first sample. -/
def walkFirst (a b : BitVec 512) : Nat := if symSpad a = false ∨ symSpad b = false then 1304 else 24

theorem walkFirst_eq (a b : BitVec 512) : (if walkMem a b then 1304 else 24) = walkFirst a b := if_congr (walkMem_iff a b) rfl rfl

theorem walkFirst_ends (a b : BitVec 512) (hn : orbitCount a b ≠ 0) : walkLast a b = walkFirst a b + 24 + orbitCount a b := by
  rw [walkLast, walkFirst]
  by_cases hmem : symSpad a = false ∨ symSpad b = false
  · rw [if_pos ⟨hn, hmem⟩, if_pos hmem]
  · rw [if_neg fun h => hmem h.2, if_neg hmem]

theorem walkEnd_before (s : State) (k : Nat) (j : Job) (row cell : Option Nat) (ty : Ty) (h : t + 1 ≠ walkLast a b) :
    walkEnd s k j a b row cell ty t = s := by
  rw [← walkResult_eq] at h
  unfold walkEnd
  cases row with
  | some r => exact if_neg h
  | none => cases cell with
    | some key => exact if_neg h
    | none => rfl

theorem walkCycle_sample (ht : t = walkFirst a b + i) (hi : i < orbitCount a b) : walkCycle s k j a b row cell ty t =
    .ok (modCore s k fun c => countEvent c 5 j.stream 1) { j with nums := walkRep s k j b i 8 :: walkRep s k j a i 0 :: j.nums } := by
  have hpos : t ≠ 0 := by
    rw [ht, walkFirst]
    split <;> omega
  have hlast := walkFirst_ends a b (by omega)
  rw [walkCycle, walkFirst_eq, if_neg hpos]
  dsimp only
  rw [if_pos ⟨by omega, by omega⟩]
  dsimp only
  rw [walkEnd_before _ _ _ _ _ _ (by omega), ht, Nat.add_sub_cancel_left]

theorem walkCycle_end (ht : t + 1 = walkLast a b) : walkCycle s k j a b row cell ty t = .ok (walkEnd s k j a b row cell ty t) j := by
  have hpos : t ≠ 0 := by
    rw [walkLast] at ht
    split at ht <;> omega
  have hafter : ¬ (walkFirst a b ≤ t ∧ t < walkFirst a b + orbitCount a b) := fun h => by
    have := walkFirst_ends a b (by omega)
    omega
  rw [walkCycle, walkFirst_eq, if_neg hpos]
  dsimp only
  rw [if_neg hafter]

/-- The request for the second array's orbit. -/
def secondRequest (k : Nat) (b : BitVec 512) (i : Nat) (u : State) (j : Job) : JobRes :=
  if symSpad b = true then .ok u { j with made := 0 }
  else request u k { j with made := 1 } (slotAddr b i) (symSize b) (symSize b) [1] 5 i fun key u =>
    .ok (puts u k { j with made := 1 } (1304 + i) (2 * i + 1) (.memRead key (symSize b) (.job j.stream j.seq (16 * i + 8)))) { j with made := 0 }

/-- The requests of an orbit: of the first array, then of the second. -/
theorem walkRequest_orbit (hmem : symSpad a = false ∨ symSpad b = false) (ht : t = 25 + i) (hi : i < orbitCount a b) :
    walkRequest s k j a b t =
      if symSpad a = true ∨ 0 < j.made then secondRequest k b i s j
      else request s k j (slotAddr a i) (symSize a) (symSize a) [1] 5 i fun key u =>
        secondRequest k b i (puts u k j (1304 + i) (2 * i) (.memRead key (symSize a) (.job j.stream j.seq (16 * i)))) j := by
  have hcond : walkMem a b = true ∧ 25 ≤ t ∧ t < 25 + orbitCount a b := ⟨(walkMem_iff a b).2 hmem, by omega, by omega⟩
  have hsub : t - 25 = i := by omega
  have hsecond (u : State) (j : Job) : (if symSpad b = true ∨ 8 / 8 < 1 then (.ok u { j with made := 0 } : JobRes)
      else request u k { j with made := 1 } (slotAddr b i) (symSize b) (symSize b) [1] 5 i fun key u =>
        .ok (puts u k { j with made := 1 } (1304 + i) (2 * i + 8 / 8) (.memRead key (symSize b) (.job j.stream j.seq (16 * i + 8)))) { j with made := 0 }) =
      secondRequest k b i u j := if_congr (by simp) rfl rfl
  rw [walkRequest]
  dsimp only
  rw [if_pos hcond, hsub]
  refine if_congr (by simp) (hsecond s j) (congrArg (request s k j (slotAddr a i) (symSize a) (symSize a) [1] 5 i) ?_)
  exact funext fun key => funext fun u => hsecond _ j

/-- Where the orbit's representative lies. -/
theorem walkRep_eq (s : State) (k : Nat) (j : Job) (d : BitVec 512) (i p : Nat) : walkRep s k j d i p =
    if symSpad d = true then Memory.readNat (getCore s k).spad (symBase d + i * symSize d) (symSize d)
    else Memory.readNat j.buf (16 * i + p) (symSize d) := rfl

/-- The terms of a walk over representatives. -/
def walkTerms (a b : BitVec 512) (reps : List (Nat × Nat)) : List Machine.Num :=
  (List.range reps.length).map fun q =>
    (Machine.Num.fin false (orbitWeight a q) 0).mul ((symNum a (reps.getD q (0, 0)).1).mul (symNum b (reps.getD q (0, 0)).2))

theorem walkSum_go (a b : BitVec 512) : ∀ (reps : List (Nat × Nat)) (q : Nat), walkSum.go a b (reps.flatMap fun p => [p.1, p.2]) q =
    (List.range reps.length).map fun r => (orbitWeight a (q + r), symNum a (reps.getD r (0, 0)).1, symNum b (reps.getD r (0, 0)).2)
  | [], _ => rfl
  | p :: reps, q => by
    rw [List.flatMap_cons, List.length_cons, List.range_succ_eq_map, List.map_cons, List.map_map]
    refine congrArg (List.cons _) ((walkSum_go a b reps (q + 1)).trans (List.map_congr_left fun r _ => ?_))
    rw [Function.comp_apply, Nat.add_assoc, Nat.add_comm 1 r] <;> rfl

theorem walkSum_eq {reps : List (Nat × Nat)} (h : j.nums = (reps.flatMap fun p => [p.1, p.2]).reverse) :
    walkSum j a b = termSum (walkTerms a b reps) := by
  rw [walkSum, h, List.reverse_reverse, walkSum_go, orbitSum, termSum, List.map_map, walkTerms]
  simp only [Nat.zero_add]
  rfl

theorem symTy_of_symMatch (h : symMatch a b = true) : symTy b = symTy a := by
  have hcode : symTyCode a = symTyCode b := by
    simp only [symMatch, Bool.and_eq_true, beq_iff_eq] at h
    exact h.1.1.2
  rw [symTy, symTy, hcode]

/-- An element as an exact value (R78). -/
def repValue (ty : Ty) (d : BitVec 512) (c : Nat) : Machine.Num :=
  if Ty.isFloat ty = false then Machine.Num.fin (decide (laneInt ty c < 0)) (laneInt ty c).natAbs 0
  else if ty = .nf then (decodeNum (fmtOf ty (symNf d)) c).scale (nfScale (symNf d)) else decodeNum (fmtOf ty 0) c

theorem symNum_eq {d : BitVec 512} (hty : symTy d = ty) {c : Nat} (hc : c < 2 ^ Ty.bits ty) : symNum d c = repValue ty d c := by
  rw [symNum, repValue, hty, intOf_eq_laneInt hc]
  cases ty <;> rfl

/-- The terms as the statement has them. -/
theorem walkTerms_eq {reps : List (Nat × Nat)} (ha : symTy a = ty) (hb : symTy b = ty) (hreps : ∀ p ∈ reps, p.1 < 2 ^ Ty.bits ty ∧ p.2 < 2 ^ Ty.bits ty) :
    walkTerms a b reps = (List.range reps.length).map fun q =>
      (Machine.Num.fin false (orbitWeight a q) 0).mul ((repValue ty a (reps.getD q (0, 0)).1).mul (repValue ty b (reps.getD q (0, 0)).2)) := by
  refine List.map_congr_left fun q hq => ?_
  have hmem : reps.getD q (0, 0) ∈ reps := by
    rw [List.getD_eq_getElem _ _ (List.mem_range.1 hq)]
    exact List.getElem_mem _
  obtain ⟨h1, h2⟩ := hreps _ hmem
  rw [symNum_eq ha h1, symNum_eq hb h2]

/-- The terms of an integer type are integers. -/
theorem walkTerms_integers {reps : List (Nat × Nat)} (hint : Ty.isFloat ty = false) (ha : symTy a = ty) (hb : symTy b = ty) :
    ∀ x ∈ walkTerms a b reps, ∃ n m, x = .fin n m 0 := by
  rintro x hx
  obtain ⟨q, -, rfl⟩ := List.mem_map.1 hx
  have hnum (d : BitVec 512) (hd : symTy d = ty) (c : Nat) : symNum d c = numOfInt (intOf ty c) := by
    rw [symNum, hd, if_neg (by simp [hint])]
  rw [hnum a ha, hnum b hb]
  exact ⟨_, _, rfl⟩

end

-- The result (R266, R267) --------------------------------------------------------------------------------------------------------------------------------------

/-- The format of a floating result, and whether the result has 8 bytes. -/
def resultFmt (ty : Ty) : Fmt := if ty = .f64 then fmtF64 else fmtF32

theorem standard_resultFmt (ty : Ty) : Standard (resultFmt ty) := by
  rw [resultFmt]
  split
  · exact standard_f64
  · exact standard_f32

abbrev WideResult (ty : Ty) : Prop := ty = .f64 ∨ Ty.isFloat ty = false

/-- The integer that a sum of integers is. -/
def intSum (x : Machine.Num) : Int := match x with | .fin n m _ => (if n then -(m : Int) else (m : Int)) | _ => 0

/-- The code that lands, with its flags. -/
def resultCode (ty : Ty) (x : Machine.Num) : Nat × Flags :=
  if Ty.isFloat ty = true then encodeNum (resultFmt ty) .rne x else clampInt (if Ty.isSigned ty then .i64 else .n64) (intSum x)

theorem orbitResult_eq (ty : Ty) (x : Machine.Num) :
    orbitResult ty x = ((resultCode ty x).1, if WideResult ty then 8 else 4, (resultCode ty x).2) := by
  unfold orbitResult resultCode resultFmt
  by_cases hfloat : Ty.isFloat ty = true
  · rw [if_pos hfloat, if_pos hfloat]
    by_cases h64 : ty = .f64
    · rw [if_pos h64, if_pos h64, if_pos (.inl h64)]
    · rw [if_neg h64, if_neg h64, if_neg (by simp [h64, hfloat])]
  · have hwide : WideResult ty := .inr (Bool.eq_false_iff.2 hfloat)
    rw [if_neg hfloat, if_neg hfloat, if_pos hwide] <;> rfl

/-- An infinity in a standard format raises nothing. -/
theorem encodeNum_inf {f : Fmt} (hf : Standard f) (neg : Bool) : encodeNum f .rne (.inf neg) = ((encodeNum f .rne (.inf neg)).1, 0) := by
  rw [encodeNum, hf.sgn, if_neg (by simp), if_pos hf.spec]

section
variable {ty : Ty} {l : List Machine.Num} (hint : Ty.isFloat ty = false → ∀ x ∈ l, ∃ n m, x = .fin n m 0)
include hint

/-- A sum with a special is one of a floating type. -/
theorem isFloat_of_special {x : Machine.Num} (hx : x ∈ l) (hspecial : ∀ n m, x ≠ .fin n m 0) : Ty.isFloat ty = true := by
  by_contra hno
  obtain ⟨n, m, h⟩ := hint (Bool.eq_false_iff.2 hno) x hx
  exact hspecial n m h

theorem resultCode_invalid (h : l.any Num.isNan = true ∨ (Machine.Num.inf false ∈ l ∧ Machine.Num.inf true ∈ l)) :
    resultCode ty (termSum l) = ((resultFmt ty).nanCode, fINV) := by
  have hfloat : Ty.isFloat ty = true := by
    obtain hnan | ⟨hup, -⟩ := h
    · obtain ⟨x, hx, hxn⟩ := List.any_eq_true.1 hnan
      refine isFloat_of_special hint hx ?_
      rintro n m rfl
      exact Bool.noConfusion hxn
    · exact isFloat_of_special hint hup fun _ _ => Machine.Num.noConfusion
  rw [resultCode, if_pos hfloat, termSum_invalid h, encodeNum]
  rfl

theorem resultCode_up (hnan : l.any Num.isNan = false) (hup : Machine.Num.inf false ∈ l) (hdown : Machine.Num.inf true ∉ l) :
    resultCode ty (termSum l) = ((encodeNum (resultFmt ty) .rne (.inf false)).1, 0) := by
  rw [resultCode, if_pos (isFloat_of_special hint hup fun _ _ => Machine.Num.noConfusion), termSum_up hnan hup hdown]
  exact encodeNum_inf (standard_resultFmt ty) false

theorem resultCode_down (hnan : l.any Num.isNan = false) (hup : Machine.Num.inf false ∉ l) (hdown : Machine.Num.inf true ∈ l) :
    resultCode ty (termSum l) = ((encodeNum (resultFmt ty) .rne (.inf true)).1, 0) := by
  rw [resultCode, if_pos (isFloat_of_special hint hdown fun _ _ => Machine.Num.noConfusion), termSum_down hnan hup hdown]
  exact encodeNum_inf (standard_resultFmt ty) true

theorem resultCode_int (hfloat : Ty.isFloat ty = false) :
    resultCode ty (termSum l) = clampInt (if Ty.isSigned ty then .i64 else .n64) (exactTotal l) := by
  obtain ⟨-, n, m, e, hsum, hvalue⟩ := termSum_integers (hint hfloat)
  rw [resultCode, if_neg (by simp [hfloat]), hsum, ← hvalue]
  rfl

end

/-- A wide integer clamped (R266): below, above, inside. -/
theorem clampInt_wide (signed : Bool) (v : Int) :
    let lo : Int := if signed then -(2 ^ 63) else 0
    let hi : Int := if signed then 2 ^ 63 - 1 else 2 ^ 64 - 1
    clampInt (if signed then .i64 else .n64) v =
      if v < lo then ((lo % 2 ^ 64).toNat, fSAT) else if hi < v then (hi.toNat, fSAT) else ((v % 2 ^ 64).toNat, 0) := by
  cases signed <;> rfl

/-- A walk's result lands: its code in 8 bytes or in 4, and its flags. -/
def landsResult (s : State) (k : Nat) (j : Job) (finish r : Nat) (ty : Ty) (x : Nat × Flags) : State :=
  putsFlags (puts s k j finish 0 (.row r (if WideResult ty then 255 else 15) (BitVec.ofNat 1024 x.1) .plain)) k j finish 1 .ce x.2

section
variable {s : State} {k : Nat} {j : Job} {a b : BitVec 512} {ty : Ty} {t : Nat} {reps : List (Nat × Nat)} (ht : t + 1 = walkLast a b)
  (hnums : j.nums = (reps.flatMap fun p => [p.1, p.2]).reverse)
include ht hnums

theorem walkEnd_row (r : Nat) (cell : Option Nat) : walkEnd s k j a b (some r) cell ty t =
    landsResult s k j (walkLast a b) r ty (resultCode ty (termSum (walkTerms a b reps))) := by
  have hbytes : BitVec.ofNat 128 (2 ^ (if WideResult ty then 8 else 4) - 1) = if WideResult ty then 255 else 15 := by
    split <;> rfl
  unfold walkEnd
  dsimp only
  rw [walkResult_eq, if_pos ht, walkSum_eq hnums, orbitResult_eq]
  dsimp only
  rw [hbytes] <;> rfl

theorem walkEnd_cell (key : Nat) : walkEnd s k j a b none (some key) ty t =
    puts s k j (walkLast a b + 1280) 0 (.cellSum key ty (termSum (walkTerms a b reps))) := by
  unfold walkEnd
  dsimp only
  rw [walkResult_eq, if_pos ht, walkSum_eq hnums] <;> rfl

end

/-- What the exact sum is that reaches a cell. -/
theorem termSum_exact {l : List Machine.Num} :
    ((l.any Num.isNan = true ∨ (Machine.Num.inf false ∈ l ∧ Machine.Num.inf true ∈ l)) → (termSum l).isNan = true) ∧
    (l.any Num.isNan = false → ¬ (Machine.Num.inf false ∈ l ∧ Machine.Num.inf true ∈ l) →
      (Machine.Num.inf false ∈ l → termSum l = .inf false) ∧ (Machine.Num.inf true ∈ l → termSum l = .inf true) ∧
      (Machine.Num.inf false ∉ l → Machine.Num.inf true ∉ l → ∃ neg m e, termSum l = .fin neg m e ∧ (exactTotal l = 0 → m = 0) ∧
        leastExponent l ≤ e ∧ exactTotal l = Num.toIntAt (leastExponent l) (termSum l))) := by
  refine ⟨fun h => by rw [termSum_invalid h]; rfl, fun hnan hboth => ⟨fun hup => termSum_up hnan hup fun hdown => hboth ⟨hup, hdown⟩,
    fun hdown => termSum_down hnan (fun hup => hboth ⟨hup, hdown⟩) hdown, fun hup hdown => ?_⟩⟩
  obtain ⟨h0, hsum⟩ | ⟨v, e, hv, hle, htotal, hsum, -⟩ := termSum_finite hnan hup hdown
  · refine ⟨_, _, _, hsum, fun _ => rfl, (foldl_min_le _ 0).1, ?_⟩
    rw [h0, hsum]
    simp [Num.toIntAt]
  · have hpow : (2 : Int) ^ (e - leastExponent l).toNat ≠ 0 := by positivity
    refine ⟨_, _, _, hsum, fun h0 => absurd (htotal.symm.trans h0) (Int.mul_ne_zero hv hpow), hle, ?_⟩
    rw [hsum, Num.toIntAt, htotal]
    push_cast
    by_cases hneg : v < 0
    · rw [if_pos (decide_eq_true hneg), abs_of_neg hneg]
      ring
    · rw [if_neg (by simpa using hneg), abs_of_nonneg (not_lt.1 hneg)]

theorem requestCycle_walk {j : Job} {ya yb : Nat} {a b : BitVec 512} {row cell : Option Nat} {ty : Ty} (hkind : j.kind = .walk ya yb a b row cell ty)
    (s : State) (k t : Nat) : requestCycle s k j t = walkRequest s k j a b t := by rw [requestCycle, hkind]

/-- Settles O49: the requests and the sample of an orbit, and the exact sum with which the walk ends. -/
theorem walksSumTheirOrbits : Obligations.WalksSumTheirOrbits := by
  intro s k j ya yb a b row cell ty t i hva hvb hmatch hty hkind n mem first finish rep value
  have hsample : sampleCycle s k j t = walkCycle s k j a b row cell ty t := by rw [sampleCycle, hkind]
  refine ⟨fun ht hi => ?requests, fun ht hi => hsample.trans (walkCycle_sample ht hi), fun reps ht hlen hreps hnums => ?finish⟩
  case requests =>
    intro asked
    have hspads {d : BitVec 512} (h : symSpad d = true) : ¬ symSpad d = false := by simp [h]
    refine ⟨fun ha hmade => requests_of_request ?first, fun ha hb => requestsAt_of_request ⟨rfl, rfl, rfl, rfl, rfl⟩ ?second, fun hb =>
      ⟨fun ha => (requestCycle_walk hkind s k t).trans (if_neg fun h => ?none), fun ha hmade => ?last⟩⟩
    case first =>
      have hagain (u : State) : requestCycle u k asked t = secondRequest k b i u j :=
        (requestCycle_walk (j := asked) hkind u k t).trans ((walkRequest_orbit (.inl ha) ht hi).trans (if_pos (.inr Nat.one_pos)))
      refine (requestCycle_walk hkind s k t).trans ((walkRequest_orbit (.inl ha) ht hi).trans ((if_neg ?_).trans ?_))
      · simp [ha, hmade]
      · exact congrArg (request s k j (slotAddr a i) (symSize a) (symSize a) [1] 5 i) (funext fun key => funext fun u => (hagain _).symm)
    case second =>
      refine (requestCycle_walk hkind s k t).trans ((walkRequest_orbit (.inr hb) ht hi).trans ((if_pos ?_).trans (if_neg (by simp [hb]))))
      exact ha.imp_right fun hmade => by omega
    case none => exact absurd ((walkMem_iff a b).1 h.1) (by simp [ha, hb])
    case last =>
      exact (requestCycle_walk hkind s k t).trans ((walkRequest_orbit (.inl ha) ht hi).trans ((if_pos (.inr (by omega))).trans (if_pos hb)))
  case finish =>
    have hterms : walkTerms a b reps = _ := walkTerms_eq hty ((symTy_of_symMatch hmatch).trans hty) hreps
    rw [hlen] at hterms
    have hint (hfloat : Ty.isFloat ty = false) := walkTerms_integers (reps := reps) hfloat hty ((symTy_of_symMatch hmatch).trans hty)
    intro terms up down least total wide land f
    have hland (r : Nat) (code : Nat) (fl : Flags) (hrow : row = some r) (hcode : resultCode ty (termSum (walkTerms a b reps)) = (code, fl)) :
        land r code fl := by
      subst hrow
      refine hsample.trans ((walkCycle_end ht).trans ?_)
      rw [walkEnd_row ht hnums, hcode] <;> rfl
    have hl : terms = walkTerms a b reps := hterms.symm
    clear_value terms
    subst hl
    have hstd := standard_resultFmt ty
    refine ⟨fun r hrow => ⟨fun h => hland r _ _ hrow (resultCode_invalid hint h), fun hnan hup hdown => hland r _ _ hrow (resultCode_up hint hnan hup hdown),
      fun hnan hdown hup => hland r _ _ hrow (resultCode_down hint hnan hup hdown), fun hnan hup hdown => ⟨fun hfloat h0 => ?zero, fun hfloat hne => ?rounded,
      fun hfloat => ?integer⟩⟩, fun key hrow hcell => ⟨termSum (walkTerms a b reps), ?sum, termSum_exact⟩⟩
    case zero =>
      refine hland r _ _ hrow ((if_pos hfloat).trans ((encode_termSum_finite hstd hnan hup hdown).trans (if_pos h0)))
    case rounded =>
      exact hland r _ _ hrow ((if_pos hfloat).trans ((encode_termSum_finite hstd hnan hup hdown).trans (if_neg hne)))
    case integer =>
      intro lo hi
      have hcode := (resultCode_int hint hfloat).trans (clampInt_wide (Ty.isSigned ty) (exactTotal (walkTerms a b reps)))
      by_cases hlow : total < lo
      · rw [if_pos hlow]
        exact hland r _ _ hrow (hcode.trans (if_pos hlow))
      · rw [if_neg hlow]
        by_cases hhigh : hi < total
        · rw [if_pos hhigh]
          exact hland r _ _ hrow (hcode.trans ((if_neg hlow).trans (if_pos hhigh)))
        · rw [if_neg hhigh]
          exact hland r _ _ hrow (hcode.trans ((if_neg hlow).trans (if_neg hhigh)))
    case sum =>
      subst hrow hcell
      exact hsample.trans ((walkCycle_end ht).trans (congrArg (JobRes.ok · j) (walkEnd_cell ht hnums key)))

end Sys2Proof.Proofs
end

