-- ==== Sys2Proof/Proofs/OrbitRanks.lean ====
section
/-! PROOF. The blocks of symmetric storage (R73, R76): binomials, sorted tuples with the parity of their inversions, ranks, and the
weights of orbits, for which a rank is unranked. -/

namespace Sys2Proof.Proofs

open Sys2Proof Sys2Proof.Machine Sys2Proof.Claims Sys2Proof.Laws

-- Numbers ------------------------------------------------------------------------------------------------------------------------------------------

theorem chooseN_eq_choose (n : Nat) : ∀ k, chooseN n k = n.choose k
  | 0 => (Nat.choose_zero_right n).symm
  | k + 1 => by
    rw [chooseN, chooseN_eq_choose n k]
    split
    · next hle => exact (Nat.choose_eq_zero_of_lt (Nat.lt_succ_of_le hle)).symm
    · rw [← Nat.choose_succ_right_eq, Nat.mul_div_cancel _ (Nat.succ_pos k)]

theorem factN_eq_factorial : ∀ n, factN n = n.factorial
  | 0 => rfl
  | n + 1 => by rw [factN, factN_eq_factorial n, Nat.factorial_succ]

-- Sorted tuples (R73) ----------------------------------------------------------------------------------------------------------------------------------

/-- Sorted upwards, repeats allowed. -/
abbrev Upward (l : List Nat) : Prop := l.Pairwise (· ≤ ·)

/-- How many members of a list lie below `x`. -/
def below (x : Nat) (l : List Nat) : Nat := (l.filter (· < x)).length

theorem insCount_perm (x : Nat) : ∀ l, (insCount x l).1.Perm (x :: l)
  | [] => .refl _
  | y :: r => by
    rw [insCount]
    split
    · exact ((insCount_perm x r).cons y).trans (.swap x y r)
    · exact .refl _

theorem insCount_upward {x : Nat} : ∀ {l}, Upward l → Upward (insCount x l).1 ∧ (insCount x l).2 = below x l
  | [], _ => ⟨List.pairwise_singleton _ _, rfl⟩
  | y :: r, h => by
    obtain ⟨hy, hr⟩ := List.pairwise_cons.1 h
    obtain ⟨hup, hcount⟩ := insCount_upward (x := x) hr
    rw [insCount]
    by_cases hlt : y < x
    · rw [if_pos hlt]
      refine ⟨List.pairwise_cons.2 ⟨fun z hz => ?_, hup⟩, ?_⟩
      · obtain rfl | hz := List.mem_cons.1 ((insCount_perm x r).subset hz)
        · exact hlt.le
        · exact hy z hz
      · rw [below, List.filter_cons_of_pos (by simpa using hlt), List.length_cons]
        exact congrArg (· + 1) hcount
    · rw [if_neg hlt]
      have hnone : ∀ z ∈ y :: r, ¬ z < x := fun z hz => by
        obtain rfl | hz := List.mem_cons.1 hz
        · exact hlt
        · have := hy z hz
          omega
      refine ⟨List.pairwise_cons.2 ⟨fun z hz => Nat.not_lt.1 (hnone z hz), h⟩, ?_⟩
      rw [below, List.filter_eq_nil_iff.2 fun z hz => by simpa using hnone z hz]
      rfl

theorem sortParity_perm : ∀ l, (sortParity l).1.Perm l
  | [] => .refl _
  | x :: r => by
    rw [sortParity]
    exact (insCount_perm x _).trans ((sortParity_perm r).cons x)

/-- The inversions of a tuple: each member with the later ones below it. -/
def inversionsOf : List Nat → Nat
  | [] => 0
  | x :: r => below x r + inversionsOf r

theorem below_perm {l l' : List Nat} (x : Nat) (h : l.Perm l') : below x l = below x l' := (h.filter _).length_eq

theorem sortParity_upward : ∀ l, Upward (sortParity l).1 ∧ (sortParity l).2 = inversionsOf l % 2
  | [] => ⟨List.Pairwise.nil, rfl⟩
  | x :: r => by
    obtain ⟨hup, hpar⟩ := sortParity_upward r
    obtain ⟨hins, hcount⟩ := insCount_upward (x := x) hup
    rw [sortParity]
    refine ⟨hins, ?_⟩
    dsimp only
    rw [hcount, hpar, below_perm x (sortParity_perm r), inversionsOf]
    omega

/-- A tuple's sorted form is the only upward list of its members. -/
theorem sortParity_eq {l z : List Nat} (hz : z.Perm l) (hup : Upward z) : (sortParity l).1 = z :=
  List.Perm.eq_of_pairwise' (sortParity_upward l).1 hup ((sortParity_perm l).trans hz.symm)

theorem below_eq_sum (x : Nat) : ∀ r : List Nat, below x r = ((List.range r.length).map fun p => if r.getD p 0 < x then 1 else 0).sum
  | [] => rfl
  | y :: r => by
    rw [List.length_cons, List.range_succ_eq_map, List.map_cons, List.map_map, List.sum_cons, List.getD_cons_zero, below, List.filter_cons]
    have ih := below_eq_sum x r
    rw [below] at ih
    by_cases hy : y < x
    · rw [if_pos (decide_eq_true hy), if_pos hy, List.length_cons, ih, Nat.add_comm]
      rfl
    · rw [if_neg (by simpa using hy), if_neg hy, ih, Nat.zero_add]
      rfl

/-- The members before a place that exceed a number. -/
def exceeding (y : List Nat) (v p : Nat) : Nat := ((List.range p).filter fun q => decide (v < y.getD q 0)).length

theorem exceeding_cons (x v : Nat) (r : List Nat) (p : Nat) : exceeding (x :: r) v (p + 1) = (if v < x then 1 else 0) + exceeding r v p := by
  have hrest : (List.map Nat.succ (List.range p)).filter (fun q => decide (v < (x :: r).getD q 0)) =
      ((List.range p).filter fun q => decide (v < r.getD q 0)).map Nat.succ := List.filter_map
  rw [exceeding, List.range_succ_eq_map, List.filter_cons, hrest, exceeding, List.getD_cons_zero]
  by_cases hv : v < x
  · rw [if_pos (decide_eq_true hv), if_pos hv, List.length_cons, List.length_map, Nat.add_comm]
  · rw [if_neg (by simpa using hv), if_neg hv, List.length_map, Nat.zero_add]

/-- The inversions, counted by places. -/
theorem inversionsOf_eq_sum : ∀ y : List Nat, inversionsOf y = ((List.range y.length).map fun p => exceeding y (y.getD p 0) p).sum
  | [] => rfl
  | x :: r => by
    have hshift : (List.map ((fun p => exceeding (x :: r) ((x :: r).getD p 0) p) ∘ Nat.succ) (List.range r.length)).sum =
        below x r + inversionsOf r := by
      rw [below_eq_sum, inversionsOf_eq_sum r, ← List.sum_map_add]
      exact congrArg List.sum (List.map_congr_left fun p _ => exceeding_cons x (r.getD p 0) r p)
    rw [List.length_cons, List.range_succ_eq_map, List.map_cons, List.map_map, List.sum_cons, hshift]
    exact (Nat.zero_add _).symm

theorem hasRepeat_eq : ∀ l : List Nat, hasRepeat l = decide (¬ l.Nodup)
  | [] => rfl
  | x :: r => by
    rw [hasRepeat, hasRepeat_eq r]
    by_cases hx : x ∈ r <;> simp [hx]

/-- The rank of an upward tuple, as a sum. -/
theorem rankFrom_eq_sum (shift : Nat) : ∀ (m : Nat) (z : List Nat), rankFrom shift m z =
    ((List.range z.length).map fun i => (z.getD i 0 + shift * (m + i)).choose (m + i + 1)).sum
  | _, [] => rfl
  | m, z :: r => by
    rw [rankFrom, chooseN_eq_choose, rankFrom_eq_sum shift (m + 1) r, List.length_cons, List.range_succ_eq_map, List.map_cons, List.map_map,
      List.sum_cons]
    refine congrArg₂ (· + ·) rfl (congrArg List.sum (List.map_congr_left fun i _ => ?_))
    rw [Function.comp_apply, show m + 1 + i = m + (i + 1) by omega]
    rfl

-- Blocks of a valid descriptor (R69, R73) ------------------------------------------------------------------------------------------------------------------------

/-- What R69 asks of a block. -/
structure BlockOk (d : BitVec 512) (b : SymBlk) : Prop where
  arity : b.kind = 1 ∧ 2 ≤ b.arity ∨ b.kind = 2 ∧ 2 ≤ b.arity ∨ b.kind = 3 ∧ b.arity = 2 ∨ b.kind = 4 ∧ b.arity = 1
  dims : b.dims.length = b.arity
  ext : ∀ i ∈ b.dims, i < symRank d ∧ symExt d i = blkN d b

theorem blockOk_of_valid {d : BitVec 512} (hv : symValid d = true) {b : SymBlk} (hb : b ∈ symBlks d) : BlockOk d b := by
  rw [symBlks, List.mem_map] at hb
  obtain ⟨q, hq, rfl⟩ := hb
  simp only [symValid, Bool.and_eq_true, List.all_eq_true, List.mem_range] at hv
  obtain ⟨⟨⟨⟨⟨-, hblks⟩, -⟩, -⟩, -⟩, -⟩ := hv
  have hok := hblks q (by rw [List.mem_range] at hq; omega)
  simp only [blkValid, Bool.and_eq_true, List.all_eq_true, decide_eq_true_eq, beq_iff_eq] at hok
  obtain ⟨⟨⟨⟨⟨⟨⟨-, -⟩, harity⟩, -⟩, -⟩, hdims⟩, -⟩, -⟩ := hok
  have hcases : (symBlk d q).kind = 1 ∧ 2 ≤ (symBlk d q).arity ∧ (symBlk d q).arity ≤ 4 ∨ (symBlk d q).kind = 2 ∧ 2 ≤ (symBlk d q).arity ∧ (symBlk d q).arity ≤ 4 ∨
      (symBlk d q).kind = 3 ∧ (symBlk d q).arity = 2 ∨ (symBlk d q).kind = 4 ∧ (symBlk d q).arity = 1 := by
    split at harity <;> simp_all
  refine ⟨by omega, ?_, hdims⟩
  rw [show (symBlk d q).dims.length = min (symBlk d q).arity 4 by simp [symBlk]]
  omega

/-- A block's part of an index, and an index inside the extents. -/
def tupleOf (b : SymBlk) (x : List Nat) : List Nat := b.dims.map fun i => x.getD i 0

theorem tupleOf_length {d : BitVec 512} {b : SymBlk} (hb : BlockOk d b) (x : List Nat) : (tupleOf b x).length = b.arity := by
  rw [tupleOf, List.length_map, hb.dims]

theorem tupleOf_lt {d : BitVec 512} {b : SymBlk} (hb : BlockOk d b) {x : List Nat} (hx : inExtents d x = true) : ∀ v ∈ tupleOf b x, v < blkN d b := by
  intro v hv
  obtain ⟨i, hi, rfl⟩ := List.mem_map.1 hv
  obtain ⟨hrank, hext⟩ := hb.ext i hi
  rw [inExtents, List.all_eq_true] at hx
  exact hext ▸ of_decide_eq_true (hx i (List.mem_range.2 hrank))

theorem tupleOf_get {d : BitVec 512} {b : SymBlk} (hb : BlockOk d b) {x : List Nat} (hx : inExtents d x = true) {p : Nat} (hp : p < b.arity) :
    (tupleOf b x).getD p 0 < blkN d b := by
  rw [List.getD_eq_getElem _ _ (by rwa [tupleOf_length hb])]
  exact tupleOf_lt hb hx _ (List.getElem_mem _)

section
variable {d : BitVec 512} {b : SymBlk} {x : List Nat}

theorem blkSlots_eq (hb : BlockOk d b) : blkSlots d b =
    if b.kind = 1 then (blkN d b + b.arity - 1).choose b.arity else if b.kind = 2 then (blkN d b).choose b.arity
    else if b.kind = 3 then blkN d b else if b.sigma = 1 then blkN d b / 2 else (blkN d b + 1) / 2 := by
  unfold blkSlots
  obtain ⟨hk, -⟩ | ⟨hk, -⟩ | ⟨hk, -⟩ | ⟨hk, -⟩ := hb.arity <;> rw [hk] <;> simp [chooseN_eq_choose]

theorem blockRank_sym (hb : BlockOk d b) (hk : b.kind = 1) {z : List Nat} (hz : z.Perm (tupleOf b x)) (hup : Upward z) : blockRank d b x =
    (((List.range b.arity).map fun m => (z.getD m 0 + m).choose (m + 1)).sum, (blkN d b + b.arity - 1).choose b.arity, false, false, tupleOf b x == z) := by
  have hlen : z.length = b.arity := hz.length_eq.trans (tupleOf_length hb x)
  unfold blockRank
  rw [hk]
  dsimp only
  rw [show (sortParity (b.dims.map fun i => x.getD i 0)).1 = z from sortParity_eq hz hup, rankFrom_eq_sum, hlen, blkSlots_eq hb, if_pos hk]
  simp only [Nat.zero_add, Nat.one_mul]
  rfl

/-- The inversions of a block's tuple. -/
def blockInversions (b : SymBlk) (x : List Nat) : Nat := ((List.range b.arity).map fun p => exceeding (tupleOf b x) ((tupleOf b x).getD p 0) p).sum

theorem blockRank_asym (hb : BlockOk d b) (hk : b.kind = 2) {z : List Nat} (hz : z.Perm (tupleOf b x)) (hup : Upward z) : blockRank d b x =
    (((List.range b.arity).map fun m => (z.getD m 0).choose (m + 1)).sum, (blkN d b).choose b.arity, decide (blockInversions b x % 2 = 1),
      decide (¬ (tupleOf b x).Nodup), tupleOf b x == z) := by
  have hlen : z.length = b.arity := hz.length_eq.trans (tupleOf_length hb x)
  have hpar : (sortParity (tupleOf b x)).2 = blockInversions b x % 2 := by
    rw [(sortParity_upward _).2, inversionsOf_eq_sum, tupleOf_length hb, blockInversions]
  unfold blockRank
  rw [hk]
  change (rankFrom 0 0 (sortParity (tupleOf b x)).1, blkSlots d b, (sortParity (tupleOf b x)).2 == 1, hasRepeat (tupleOf b x),
    tupleOf b x == (sortParity (tupleOf b x)).1) = _
  rw [sortParity_eq hz hup, rankFrom_eq_sum, hlen, blkSlots_eq hb, if_neg (by omega), if_pos hk, hpar, hasRepeat_eq]
  simp only [Nat.zero_add, Nat.zero_mul, Nat.add_zero]
  rfl

theorem blockRank_shift (hb : BlockOk d b) (hx : inExtents d x = true) (hk : b.kind = 3) : blockRank d b x =
    (((((tupleOf b x).getD 1 0 : Nat) : Int) - (tupleOf b x).getD 0 0) % blkN d b |>.toNat, blkN d b, false, false, (tupleOf b x).getD 0 0 == 0) := by
  have h0 := tupleOf_get hb hx (p := 0) (by obtain h | h | h | h := hb.arity <;> omega)
  unfold blockRank
  rw [hk]
  change (((tupleOf b x).getD 1 0 + blkN d b - (tupleOf b x).getD 0 0) % blkN d b, blkSlots d b, false, false, (tupleOf b x).getD 0 0 == 0) = _
  rw [blkSlots_eq hb, if_neg (by omega), if_neg (by omega), if_pos hk]
  refine congrArg (fun r => (r, _, _, _, _)) ?_
  generalize (tupleOf b x).getD 1 0 = v at *
  generalize (tupleOf b x).getD 0 0 = w at *
  have hcast : ((v : Int) - w) % (blkN d b) = (((v + blkN d b - w : Nat)) : Int) % (blkN d b) := by
    rw [show ((v + blkN d b - w : Nat) : Int) = (v : Int) - w + blkN d b by omega, Int.add_emod_right]
  rw [hcast, ← Int.natCast_emod, Int.toNat_natCast]

theorem blockRank_reflection (hb : BlockOk d b) (hk : b.kind = 4) : blockRank d b x =
    (min ((tupleOf b x).getD 0 0) (blkN d b - 1 - (tupleOf b x).getD 0 0), if b.sigma = 1 then blkN d b / 2 else (blkN d b + 1) / 2,
      decide (b.sigma = 1 ∧ blkN d b - 1 - (tupleOf b x).getD 0 0 < (tupleOf b x).getD 0 0),
      decide (b.sigma = 1 ∧ (tupleOf b x).getD 0 0 = blkN d b - 1 - (tupleOf b x).getD 0 0),
      decide ((tupleOf b x).getD 0 0 ≤ blkN d b - 1 - (tupleOf b x).getD 0 0)) := by
  unfold blockRank
  rw [hk]
  change (min ((tupleOf b x).getD 0 0) (blkN d b - 1 - (tupleOf b x).getD 0 0), blkSlots d b,
    b.sigma == 1 && decide ((tupleOf b x).getD 0 0 > blkN d b - 1 - (tupleOf b x).getD 0 0),
    b.sigma == 1 && ((tupleOf b x).getD 0 0 == blkN d b - 1 - (tupleOf b x).getD 0 0), _) = _
  rw [blkSlots_eq hb, if_neg (by omega), if_neg (by omega), if_neg (by omega)]
  refine Prod.ext rfl (Prod.ext rfl (Prod.ext ?_ (Prod.ext ?_ rfl)))
  · rw [Bool.eq_iff_iff, Bool.and_eq_true, beq_iff_eq, decide_eq_true_eq, decide_eq_true_eq]
  · rw [Bool.eq_iff_iff, Bool.and_eq_true, beq_iff_eq, beq_iff_eq, decide_eq_true_eq]

end

-- Canon (R73) -----------------------------------------------------------------------------------------------------------------------------------------------------

/-- What a block gives: its rank, its slots, its character, whether it forces zero, whether its tuple is its representative. -/
abbrev BlockPart := Nat × Nat × Bool × Bool × Bool

/-- The blocks' ranks as one number, block 0 its highest digit. -/
def digitsOf (ps : List BlockPart) : Nat := ps.foldl (fun a p => a * p.2.1 + p.1) 0

def negatives (ps : List BlockPart) : Nat := (ps.filter fun p => p.2.2.1).length

/-- One block's step of Canon. -/
def canonStep (a : Nat × Bool × Bool × Bool) (p : BlockPart) : Nat × Bool × Bool × Bool :=
  (a.1 * p.2.1 + p.1, a.2.1 != p.2.2.1, a.2.2.1 || p.2.2.2.1, a.2.2.2 && p.2.2.2.2)

theorem foldl_canonStep (ps : List BlockPart) (a : Nat × Bool × Bool × Bool) : ps.foldl canonStep a =
    (ps.foldl (fun a p => a * p.2.1 + p.1) a.1, a.2.1 != decide (negatives ps % 2 = 1), a.2.2.1 || ps.any (fun p => p.2.2.2.1),
      a.2.2.2 && ps.all (fun p => p.2.2.2.2)) := by
  induction ps generalizing a with
  | nil => simp [negatives]
  | cons p ps ih =>
    have hneg : (a.2.1 != decide (negatives (p :: ps) % 2 = 1)) = ((a.2.1 != p.2.2.1) != decide (negatives ps % 2 = 1)) := by
      rw [negatives, List.filter_cons]
      cases p.2.2.1 with
      | false =>
        rw [if_neg Bool.false_ne_true, Bool.bne_false]
        rfl
      | true =>
        have hodd : decide ((negatives ps + 1) % 2 = 1) = !decide (negatives ps % 2 = 1) := by
          rw [← decide_not, decide_eq_decide]
          omega
        rw [if_pos rfl, List.length_cons, show (ps.filter fun p => p.2.2.1).length = negatives ps from rfl, hodd]
        cases a.2.1 <;> cases decide (negatives ps % 2 = 1) <;> rfl
    rw [List.foldl_cons, ih, hneg, List.foldl_cons, List.any_cons, List.all_cons, ← Bool.or_assoc, ← Bool.and_assoc]
    rfl

/-- The parts that an index's blocks give. -/
def blockParts (d : BitVec 512) (x : List Nat) : List BlockPart := (symBlks d).map fun b => blockRank d b x

/-- The free dimensions go on from the blocks' digits, innermost last. -/
def freeFrom (d : BitVec 512) (x : List Nat) (a : Nat) : Nat := (freeDims d).foldl (fun a q => a * symExt d q + x.getD q 0) a

theorem canon_eq (d : BitVec 512) (x : List Nat) : canon d x =
    (if (blockParts d x).any (fun p => p.2.2.2.1) then 0 else freeFrom d x (digitsOf (blockParts d x)),
      !(blockParts d x).any (fun p => p.2.2.2.1) && decide (negatives (blockParts d x) % 2 = 1),
      (blockParts d x).any (fun p => p.2.2.2.1), (blockParts d x).all (fun p => p.2.2.2.2)) := by
  have hfold : (symBlks d).foldl (fun a b => canonStep a (blockRank d b x)) (0, false, false, true) =
      (digitsOf (blockParts d x), decide (negatives (blockParts d x) % 2 = 1), (blockParts d x).any (fun p => p.2.2.2.1),
        (blockParts d x).all (fun p => p.2.2.2.2)) := by
    have h := foldl_canonStep (blockParts d x) (0, false, false, true)
    rw [blockParts, List.foldl_map] at h
    rw [h, Bool.false_bne, Bool.false_or, Bool.true_and]
    rfl
  have hcanon : canon d x = (fun r : Nat × Bool × Bool × Bool => if r.2.2.1 then (0, false, true, r.2.2.2) else
      (freeFrom d x r.1, r.2.1, false, r.2.2.2)) ((symBlks d).foldl (fun a b => canonStep a (blockRank d b x)) (0, false, false, true)) := rfl
  rw [hcanon, hfold]
  dsimp only
  cases (blockParts d x).any fun p => p.2.2.2.1 <;> rfl

-- Ranks of decreasing lists (R73) --------------------------------------------------------------------------------------------------------------------------------------

/-- The rank of a strictly decreasing list in the combinatorial number system. -/
def combRank : List Nat → Nat
  | [] => 0
  | c :: r => c.choose (r.length + 1) + combRank r

theorem combRank_lt {b : Nat} : ∀ {w : List Nat}, w.Pairwise (· > ·) → (∀ c ∈ w, c < b) → combRank w < b.choose w.length
  | [], _, _ => by simp [combRank]
  | c :: r, hw, hb => by
    obtain ⟨hc, hr⟩ := List.pairwise_cons.1 hw
    calc combRank (c :: r) < c.choose (r.length + 1) + c.choose r.length := Nat.add_lt_add_left (combRank_lt hr hc) _
      _ = (c + 1).choose (r.length + 1) := by rw [Nat.choose_succ_succ', Nat.add_comm]
      _ ≤ b.choose (r.length + 1) := Nat.choose_le_choose _ (hb c List.mem_cons_self)

/-- The largest number whose binomial does not exceed a rank. -/
theorem unrankTop_eq {m r c : Nat} (hlow : c.choose m ≤ r) (hhigh : r < (c + 1).choose m) : ∀ {n : Nat}, c ≤ n → unrankTop m r n = c
  | 0, h => (Nat.le_zero.1 h).symm
  | n + 1, h => by
    rw [unrankTop, chooseN_eq_choose]
    obtain rfl | hlt := Nat.eq_or_lt_of_le h
    · exact if_pos hlow
    · rw [if_neg (Nat.not_le.2 (hhigh.trans_le (Nat.choose_le_choose m hlt)))]
      exact unrankTop_eq hlow hhigh (Nat.le_of_lt_succ hlt)

/-- A decreasing list made strict: each member moved up by how many follow it. -/
def spread : List Nat → List Nat
  | [] => []
  | x :: r => (x + r.length) :: spread r

theorem spread_length : ∀ v, (spread v).length = v.length
  | [] => rfl
  | _ :: r => congrArg (· + 1) (spread_length r)

theorem spread_lt {b : Nat} : ∀ {v : List Nat}, (∀ x ∈ v, x < b) → ∀ c ∈ spread v, c < b + (v.length - 1)
  | _ :: r, hv, c, hc => by
    obtain ⟨hx, hr⟩ := List.forall_mem_cons.1 hv
    rw [List.length_cons, Nat.add_sub_cancel]
    obtain rfl | hc := List.mem_cons.1 hc
    · omega
    · exact (spread_lt hr c hc).trans_le (by omega)

theorem spread_decreasing : ∀ {v : List Nat}, v.Pairwise (· ≥ ·) → (spread v).Pairwise (· > ·)
  | [], _ => .nil
  | x :: r, hv => by
    obtain ⟨hx, hr⟩ := List.pairwise_cons.1 hv
    refine List.pairwise_cons.2 ⟨fun c hc => ?_, spread_decreasing hr⟩
    have hbound := spread_lt (b := x + 1) (fun y hy => Nat.lt_succ_of_le (hx y hy)) c hc
    have hpos : 0 < r.length := List.length_pos_of_ne_nil fun h => by simp [h, spread] at hc
    omega

/-- Unranking finds the list (R76). -/
theorem unrankSym_combRank {b : Nat} : ∀ {v : List Nat}, v.Pairwise (· ≥ ·) → (∀ c ∈ spread v, c ≤ b) → unrankSym b v.length (combRank (spread v)) = v
  | [], _, _ => rfl
  | x :: r, hv, hb => by
    obtain ⟨-, hr⟩ := List.pairwise_cons.1 hv
    obtain ⟨htop, hrest⟩ := List.forall_mem_cons.1 hb
    have hstrict := spread_decreasing hv
    have hlow : (x + r.length).choose (r.length + 1) ≤ combRank (spread (x :: r)) := by
      rw [spread, combRank, spread_length]
      exact Nat.le_add_right _ _
    have hhigh : combRank (spread (x :: r)) < (x + r.length + 1).choose (r.length + 1) := by
      have h := combRank_lt hstrict (b := x + r.length + 1) fun c hc => by
        obtain rfl | hc := List.mem_cons.1 hc
        · exact Nat.lt_succ_self _
        · exact Nat.lt_succ_of_lt ((List.pairwise_cons.1 hstrict).1 c hc)
      rwa [spread_length] at h
    rw [List.length_cons, unrankSym, unrankTop_eq hlow hhigh htop]
    rw [chooseN_eq_choose, spread, combRank, spread_length, Nat.add_sub_cancel_left, Nat.add_sub_cancel, unrankSym_combRank hr hrest]

/-- The rank of an upward tuple is that of its reverse, made strict for SYM. -/
theorem rankFrom_append (shift m : Nat) (z : List Nat) (x : Nat) :
    rankFrom shift m (z ++ [x]) = rankFrom shift m z + (x + shift * (m + z.length)).choose (m + z.length + 1) := by
  induction z generalizing m with
  | nil => simp [rankFrom, chooseN_eq_choose]
  | cons y z ih =>
    rw [List.cons_append, rankFrom, rankFrom, ih, List.length_cons, show m + 1 + z.length = m + (z.length + 1) by omega]
    exact (Nat.add_assoc ..).symm

theorem rankFrom_sym (z : List Nat) : rankFrom 1 0 z = combRank (spread z.reverse) := by
  induction z using List.reverseRecOn with
  | nil => rfl
  | append_singleton z x ih =>
    rw [rankFrom_append, List.reverse_append, ih, List.reverse_singleton, List.singleton_append, spread, combRank, spread_length, List.length_reverse]
    simp only [Nat.zero_add, Nat.one_mul]
    omega

theorem rankFrom_asym (z : List Nat) : rankFrom 0 0 z = combRank z.reverse := by
  induction z using List.reverseRecOn with
  | nil => rfl
  | append_singleton z x ih =>
    rw [rankFrom_append, List.reverse_append, ih, List.reverse_singleton, List.singleton_append, combRank, List.length_reverse]
    simp only [Nat.zero_add, Nat.zero_mul, Nat.add_zero]
    omega

-- Weights (R76) -----------------------------------------------------------------------------------------------------------------------------------------------------------

/-- The product of the factorials of the members' counts. -/
def countProd (y : List Nat) : Nat := (y.dedup.map fun v => (y.count v).factorial).prod

theorem countProd_eq (y : List Nat) : countProd y = ∏ v ∈ y.toFinset, (y.count v).factorial := by
  rw [countProd, ← List.prod_toFinset _ y.nodup_dedup]
  exact Finset.prod_congr (Finset.ext fun v => by simp) fun _ _ => rfl

theorem countProd_perm {y z : List Nat} (h : y.Perm z) : countProd y = countProd z := by
  rw [countProd_eq, countProd_eq, List.toFinset_eq_of_perm _ _ h]
  exact Finset.prod_congr rfl fun v _ => by rw [h.count_eq]

/-- Repeats of a decreasing list, with `n` more of its first member before it. -/
theorem repeatProd_eq : ∀ {r : List Nat} {x : Nat} (n : Nat), (x :: r).Pairwise (· ≥ ·) →
    repeatProd n (x :: r) = ∏ v ∈ (x :: r).toFinset, ((x :: r).count v + if v = x then n else 0).factorial
  | [], x, n, _ => by simp [repeatProd, factN_eq_factorial, Nat.add_comm]
  | y :: r, x, n, h => by
    obtain ⟨hx, hr⟩ := List.pairwise_cons.1 h
    rw [repeatProd]
    by_cases hxy : x = y
    · subst hxy
      rw [if_pos rfl, repeatProd_eq (n + 1) hr]
      refine Finset.prod_congr (by simp) fun v _ => congrArg Nat.factorial ?_
      rw [List.count_cons (a := v) (b := x) (l := x :: r)]
      by_cases hv : v = x
      · subst hv
        simp
        omega
      · simp [hv, Ne.symm hv]
    · have hnot : x ∉ y :: r := fun hmem => by
        have hle : x ≤ y := by
          obtain rfl | hmem := List.mem_cons.1 hmem
          · exact le_rfl
          · exact (List.pairwise_cons.1 hr).1 x hmem
        exact hxy (le_antisymm hle (hx y List.mem_cons_self))
      have hone : (x :: y :: r).count x + n = n + 1 := by
        rw [List.count_cons_self, List.count_eq_zero.2 hnot]
        omega
      rw [if_neg hxy, repeatProd_eq 0 hr, List.toFinset_cons (a := x), Finset.prod_insert (by simpa using hnot), if_pos rfl, hone, factN_eq_factorial]
      refine congrArg₂ (· * ·) rfl (Finset.prod_congr rfl fun v hv => congrArg Nat.factorial ?_)
      have hne : v ≠ x := fun h => hnot (by simpa [h] using hv)
      rw [List.count_cons_of_ne hne.symm, if_neg hne, ite_self]

theorem repeatProd_countProd {v : List Nat} (hv : v.Pairwise (· ≥ ·)) (hne : v ≠ []) : repeatProd 0 v = countProd v := by
  obtain ⟨x, r, rfl⟩ := List.exists_cons_of_ne_nil hne
  rw [repeatProd_eq 0 hv, countProd_eq]
  simp only [ite_self, Nat.add_zero]

/-- The multiplicity of a block (R76). -/
def multiplicity (d : BitVec 512) (b : SymBlk) (x : List Nat) : Nat :=
  if b.kind = 1 then b.arity.factorial / countProd (tupleOf b x)
  else if b.kind = 2 then b.arity.factorial else if b.kind = 3 then blkN d b else if 2 * (tupleOf b x).getD 0 0 + 1 = blkN d b then 1 else 2

/-- A block that forces no zero: its rank is below its slots, and its weight at that rank is its multiplicity. -/
structure BlockWeighs (d : BitVec 512) (b : SymBlk) (x : List Nat) : Prop where
  slots : (blockRank d b x).2.1 = blkSlots d b
  lt : (blockRank d b x).1 < blkSlots d b
  weight : blkWeight d b (blockRank d b x).1 = multiplicity d b x

theorem blockRank_slots (d : BitVec 512) (b : SymBlk) (x : List Nat) : (blockRank d b x).2.1 = blkSlots d b := by
  unfold blockRank
  dsimp only
  split <;> rfl

section
variable {d : BitVec 512} {b : SymBlk} {x : List Nat} (hb : BlockOk d b) (hx : inExtents d x = true)
include hb hx

theorem blockWeighs_sym (hk : b.kind = 1) : BlockWeighs d b x := by
  obtain ⟨hup, -⟩ := sortParity_upward (tupleOf b x)
  have hperm := sortParity_perm (tupleOf b x)
  generalize hz : (sortParity (tupleOf b x)).1 = z at hup hperm
  have hdown : z.reverse.Pairwise (· ≥ ·) := List.pairwise_reverse.2 hup
  have hlen : z.reverse.length = b.arity := by rw [List.length_reverse, hperm.length_eq, tupleOf_length hb]
  have hlt : ∀ v ∈ z.reverse, v < blkN d b := fun v hv => tupleOf_lt hb hx v (hperm.subset (List.mem_reverse.1 hv))
  have hne : z.reverse ≠ [] := fun h => by
    rw [h, List.length_nil] at hlen
    obtain h | h | h | h := hb.arity <;> omega
  have hrank : (blockRank d b x).1 = combRank (spread z.reverse) := by
    unfold blockRank
    rw [hk, ← rankFrom_sym, ← hz]
    rfl
  have hbound (c : Nat) (hc : c ∈ spread z.reverse) : c < blkN d b + (b.arity - 1) := hlen ▸ spread_lt hlt c hc
  have hpos : 0 < b.arity := hlen ▸ List.length_pos_of_ne_nil hne
  refine ⟨blockRank_slots d b x, ?_, ?_⟩
  · rw [hrank, blkSlots_eq hb, if_pos hk]
    have h := combRank_lt (spread_decreasing hdown) hbound
    rwa [spread_length, hlen, ← Nat.add_sub_assoc hpos] at h
  · rw [hrank, multiplicity, if_pos hk]
    have hun := unrankSym_combRank (b := blkN d b + b.arity) hdown fun c hc => by
      have := hbound c hc
      omega
    rw [hlen] at hun
    unfold blkWeight
    rw [hk]
    dsimp only
    rw [hun, repeatProd_countProd hdown hne, factN_eq_factorial, countProd_perm ((List.reverse_perm z).trans hperm)] <;> rfl

theorem blockWeighs_asym (hk : b.kind = 2) (hnodup : (tupleOf b x).Nodup) : BlockWeighs d b x := by
  obtain ⟨hup, -⟩ := sortParity_upward (tupleOf b x)
  have hperm := sortParity_perm (tupleOf b x)
  generalize hz : (sortParity (tupleOf b x)).1 = z at hup hperm
  have hstrict : z.reverse.Pairwise (· > ·) := by
    refine List.pairwise_reverse.2 (List.Pairwise.imp (fun h => Nat.lt_of_le_of_ne h.1 h.2) (List.Pairwise.and hup ?_))
    exact hperm.nodup_iff.2 hnodup
  have hrank : (blockRank d b x).1 = combRank z.reverse := by
    unfold blockRank
    rw [hk, ← rankFrom_asym, ← hz]
    rfl
  refine ⟨blockRank_slots d b x, ?_, ?_⟩
  · rw [hrank, blkSlots_eq hb, if_neg (by omega), if_pos hk]
    have h := combRank_lt hstrict (b := blkN d b) fun v hv => tupleOf_lt hb hx v (hperm.subset (List.mem_reverse.1 hv))
    rwa [List.length_reverse, hperm.length_eq, tupleOf_length hb] at h
  · rw [multiplicity, if_neg (by omega), if_pos hk, ← factN_eq_factorial]
    unfold blkWeight
    rw [hk] <;> rfl

theorem blockWeighs_shift (hk : b.kind = 3) : BlockWeighs d b x := by
  have h0 := tupleOf_get hb hx (p := 0) (by obtain h | h | h | h := hb.arity <;> omega)
  refine ⟨blockRank_slots d b x, ?_, ?_⟩
  · rw [blkSlots_eq hb, if_neg (by omega), if_neg (by omega), if_pos hk, blockRank_shift hb hx hk]
    dsimp only
    have := Int.emod_lt_of_pos ((((tupleOf b x).getD 1 0 : Nat) : Int) - (tupleOf b x).getD 0 0) (b := blkN d b) (by omega)
    omega
  · rw [multiplicity, if_neg (by omega), if_neg (by omega), if_pos hk]
    unfold blkWeight
    rw [hk] <;> rfl

theorem blockWeighs_reflection (hk : b.kind = 4) (hfree : ¬ (b.sigma = 1 ∧ (tupleOf b x).getD 0 0 = blkN d b - 1 - (tupleOf b x).getD 0 0)) :
    BlockWeighs d b x := by
  have h0 := tupleOf_get hb hx (p := 0) (by obtain h | h | h | h := hb.arity <;> omega)
  refine ⟨blockRank_slots d b x, ?_, ?_⟩
  · rw [blkSlots_eq hb, if_neg (by omega), if_neg (by omega), if_neg (by omega), blockRank_reflection hb hk]
    dsimp only
    split <;> omega
  · rw [multiplicity, if_neg (by omega), if_neg (by omega), if_neg (by omega), blockRank_reflection hb hk]
    unfold blkWeight
    rw [hk]
    exact if_congr (by omega) rfl rfl

theorem blockWeighs_of_free (hfree : (blockRank d b x).2.2.2.1 = false) : BlockWeighs d b x := by
  obtain ⟨hk, -⟩ | ⟨hk, -⟩ | ⟨hk, -⟩ | ⟨hk, -⟩ := hb.arity
  · exact blockWeighs_sym hb hx hk
  · rw [blockRank_asym hb hk (sortParity_perm _) (sortParity_upward _).1] at hfree
    exact blockWeighs_asym hb hx hk (by simpa using hfree)
  · exact blockWeighs_shift hb hx hk
  · rw [blockRank_reflection hb hk] at hfree
    exact blockWeighs_reflection hb hx hk (of_decide_eq_false hfree)

end

-- The weight of an orbit (R76) ---------------------------------------------------------------------------------------------------------------------------------------------------

/-- The extents of the free dimensions, multiplied. -/
def denseCount (d : BitVec 512) : Nat := ((freeDims d).map (symExt d)).foldl (· * ·) 1

theorem foldl_mul (l : List Nat) (a : Nat) : l.foldl (· * ·) a = a * l.prod := by
  induction l generalizing a with
  | nil => simp
  | cons x l ih => rw [List.foldl_cons, ih, List.prod_cons, Nat.mul_assoc]

/-- The free dimensions are the low digits of a slot. -/
theorem mixed_digits (f g : Nat → Nat) : ∀ (l : List Nat) (a : Nat), (∀ q ∈ l, g q < f q) →
    ∃ r, r < (l.map f).prod ∧ l.foldl (fun a q => a * f q + g q) a = a * (l.map f).prod + r
  | [], a, _ => ⟨0, Nat.one_pos, by simp⟩
  | q :: l, a, h => by
    obtain ⟨hq, hl⟩ := List.forall_mem_cons.1 h
    obtain ⟨r, hr, heq⟩ := mixed_digits f g l (a * f q + g q) hl
    refine ⟨g q * (l.map f).prod + r, ?_, ?_⟩
    · rw [List.map_cons, List.prod_cons]
      calc g q * (l.map f).prod + r < g q * (l.map f).prod + (l.map f).prod := Nat.add_lt_add_left hr _
        _ = (g q + 1) * (l.map f).prod := (Nat.succ_mul ..).symm
        _ ≤ f q * (l.map f).prod := Nat.mul_le_mul_right _ hq
    · rw [List.foldl_cons, heq, List.map_cons, List.prod_cons]
      ring

theorem freeFrom_div {d : BitVec 512} {x : List Nat} (hx : inExtents d x = true) (a : Nat) : freeFrom d x a / denseCount d = a := by
  have hlt : ∀ q ∈ freeDims d, x.getD q 0 < symExt d q := fun q hq => by
    rw [inExtents, List.all_eq_true] at hx
    exact of_decide_eq_true (hx q (List.mem_filter.1 hq).1)
  obtain ⟨r, hr, heq⟩ := mixed_digits (symExt d) (fun q => x.getD q 0) (freeDims d) a hlt
  rw [freeFrom, heq, denseCount, foldl_mul, Nat.one_mul, Nat.add_comm, Nat.add_mul_div_right _ _ (Nat.zero_lt_of_lt hr), Nat.div_eq_of_lt hr,
    Nat.zero_add]

/-- One block's digit taken off, its weight multiplied in. -/
def weightStep (d : BitVec 512) (b : SymBlk) (a : Nat × Nat) : Nat × Nat := (a.1 / blkSlots d b, a.2 * blkWeight d b (a.1 % blkSlots d b))

theorem foldr_weightStep {d : BitVec 512} {x : List Nat} (bs : List SymBlk) (h : ∀ b ∈ bs, BlockWeighs d b x) (w : Nat) :
    (bs.foldr (weightStep d) (digitsOf (bs.map fun b => blockRank d b x), w)).2 = w * (bs.map fun b => multiplicity d b x).prod := by
  induction bs using List.reverseRecOn generalizing w with
  | nil => simp
  | append_singleton bs b ih =>
    obtain ⟨hslots, hlt, hweight⟩ := h b (by simp)
    have hdigits : digitsOf ((bs ++ [b]).map fun b => blockRank d b x) =
        digitsOf (bs.map fun b => blockRank d b x) * blkSlots d b + (blockRank d b x).1 := by
      rw [digitsOf, List.map_append, List.foldl_append, ← hslots]
      rfl
    have hstep : weightStep d b (digitsOf ((bs ++ [b]).map fun b => blockRank d b x), w) =
        (digitsOf (bs.map fun b => blockRank d b x), w * multiplicity d b x) := by
      rw [weightStep, hdigits, Nat.mul_comm _ (blkSlots d b)]
      dsimp only
      rw [Nat.mul_add_div (Nat.zero_lt_of_lt hlt), Nat.div_eq_of_lt hlt, Nat.add_zero, Nat.mul_add_mod, Nat.mod_eq_of_lt hlt, hweight]
    rw [List.foldr_append, List.foldr_cons, List.foldr_nil, hstep, ih fun b hb => h b (by simp [hb]), List.map_append, List.prod_append,
      List.map_singleton, List.prod_singleton, Nat.mul_assoc, Nat.mul_comm (multiplicity d b x)]

/-- The weight of an orbit is the product of its blocks' multiplicities. -/
theorem orbitWeight_canon {d : BitVec 512} {x : List Nat} (hv : symValid d = true) (hx : inExtents d x = true) (hfree : (canon d x).2.2.1 = false) :
    orbitWeight d (canon d x).1 = ((symBlks d).map fun b => multiplicity d b x).prod := by
  have hnone : (blockParts d x).any (fun p => p.2.2.2.1) = false := by
    rw [canon_eq] at hfree
    exact hfree
  have hblocks : ∀ b ∈ symBlks d, BlockWeighs d b x := fun b hb => by
    refine blockWeighs_of_free (blockOk_of_valid hv hb) hx ?_
    rw [List.any_eq_false] at hnone
    exact Bool.eq_false_iff.2 (hnone _ (List.mem_map_of_mem (f := fun b => blockRank d b x) hb))
  have hslot : (canon d x).1 = freeFrom d x (digitsOf (blockParts d x)) := by
    rw [canon_eq]
    dsimp only
    rw [hnone, if_neg Bool.false_ne_true]
  have h := foldr_weightStep (symBlks d) hblocks 1
  rw [Nat.one_mul] at h
  rw [hslot]
  change ((symBlks d).foldr (weightStep d) (freeFrom d x (digitsOf (blockParts d x)) / denseCount d, 1)).2 = _
  rw [freeFrom_div hx]
  exact h

theorem orbitCount_eq (d e : BitVec 512) [Decidable (∀ b, b < symNblk d → (symBlk d b).kind = (symBlk e b).kind ∧ (symBlk d b).sigma = (symBlk e b).sigma)] :
    orbitCount d e = if ∀ b, b < symNblk d → (symBlk d b).kind = (symBlk e b).kind ∧ (symBlk d b).sigma = (symBlk e b).sigma then slotCount d else 0 := by
  refine if_congr ?_ rfl rfl
  simp only [List.all_eq_true, List.mem_range, Bool.and_eq_true, beq_iff_eq]

end Sys2Proof.Proofs
end

