-- ==== Sys2Proof/Proofs/GroupedStores.lean ====
section
/-! PROOF. Grouped stores (R83 to R86): the ranks they touch, what is written for each, and the violations. -/

namespace Sys2Proof.Proofs

open Sys2Proof Sys2Proof.Machine Sys2Proof.Claims Sys2Proof.Laws

-- A quotient rounded (R84) --------------------------------------------------------------------------------------------------------------------------------

theorem roundRatBy_quot (odd : Nat → Bool) (rm : Rm) (neg : Bool) (n d : Nat) (s : Int) :
    roundRatBy odd rm neg n d s = roundQuot odd rm neg (n * 2 ^ s.toNat) (d * 2 ^ (-s).toNat) := by
  rw [roundRatBy, roundQuot]
  by_cases hs : s ≥ 0
  · simp [hs, Int.toNat_of_nonpos (Int.neg_nonpos_of_nonneg hs)]
  · simp [hs, Int.toNat_of_nonpos (Int.le_of_lt (Int.not_le.1 hs))]

theorem roundRatBy_shift_quot (odd : Nat → Bool) (rm : Rm) (neg : Bool) (n d k : Nat) (s : Int) :
    roundRatBy odd rm neg (n * 2 ^ k) d s = roundRatBy odd rm neg n d (s + k) := by
  rw [roundRatBy_quot, roundRatBy_quot]
  have hn : n * 2 ^ k * 2 ^ s.toNat = n * 2 ^ (s + k).toNat * 2 ^ (k + s.toNat - (s + k).toNat) := by
    rw [Nat.mul_assoc, Nat.mul_assoc, ← Nat.pow_add, ← Nat.pow_add]
    congr 2
    omega
  have hd : d * 2 ^ (-s).toNat = d * 2 ^ (-(s + k)).toNat * 2 ^ (k + s.toNat - (s + k).toNat) := by
    rw [Nat.mul_assoc, ← Nat.pow_add]
    congr 2
    omega
  rw [hn, hd, roundQuot_scale _ _ _ _ _ (Nat.two_pow_pos _)]

theorem ilog2Rat_eq (n d : Nat) : ilog2Rat n d =
    if n * 2 ^ (-((n.log2 : Int) - d.log2)).toNat < d * 2 ^ ((n.log2 : Int) - d.log2).toNat then (n.log2 : Int) - d.log2 - 1 else (n.log2 : Int) - d.log2 := by
  rw [ilog2Rat]
  generalize (n.log2 : Int) - d.log2 = k
  refine if_congr ?_ rfl rfl
  by_cases hk : k ≥ 0
  · rw [if_pos hk, Int.toNat_of_nonpos (Int.neg_nonpos_of_nonneg hk), pow_zero, Nat.mul_one]
  · rw [if_neg hk, Int.toNat_of_nonpos (Int.le_of_lt (Int.not_le.1 hk)), pow_zero, Nat.mul_one]

theorem ilog2Rat_shift {n : Nat} (hn : n ≠ 0) (d k : Nat) : ilog2Rat (n * 2 ^ k) d = ilog2Rat n d + k := by
  rw [ilog2Rat_eq, ilog2Rat_eq, log2_mul_two_pow hn]
  generalize hK : (n.log2 : Int) - d.log2 = K
  have hK' : ((n.log2 + k : Nat) : Int) - d.log2 = K + k := by omega
  rw [hK']
  have hleft : n * 2 ^ k * 2 ^ (-(K + k)).toNat = n * 2 ^ (-K).toNat * 2 ^ ((K + k).toNat - K.toNat) := by
    rw [Nat.mul_assoc, Nat.mul_assoc, ← Nat.pow_add, ← Nat.pow_add]
    congr 2
    omega
  have hright : d * 2 ^ (K + k).toNat = d * 2 ^ K.toNat * 2 ^ ((K + k).toNat - K.toNat) := by
    rw [Nat.mul_assoc, ← Nat.pow_add]
    congr 2
    omega
  rw [hleft, hright]
  by_cases hlt : n * 2 ^ (-K).toNat < d * 2 ^ K.toNat
  · rw [if_pos hlt, if_pos (Nat.mul_lt_mul_of_pos_right hlt (Nat.two_pow_pos _))]
    omega
  · rw [if_neg hlt, if_neg fun h => hlt (Nat.lt_of_mul_lt_mul_right h)]

/-- Rounding a quotient takes the number, not its form. -/
theorem roundInto_shift_quot (f : Fmt) (rm : Rm) (neg : Bool) (n d k : Nat) (s : Int) :
    roundInto f rm neg (n * 2 ^ k) d s = roundInto f rm neg n d (s + k) := by
  by_cases hn : n = 0
  · subst hn
    rw [Nat.zero_mul, roundInto, roundInto, if_pos rfl, if_pos rfl]
  have hn' : n * 2 ^ k ≠ 0 := Nat.mul_ne_zero hn (Nat.two_pow_pos k).ne'
  have hbias : s + k + f.bias = s + f.bias + k := by ring
  have hlog : ilog2Rat (n * 2 ^ k) d + s = ilog2Rat n d + (s + k) := by
    rw [ilog2Rat_shift hn]
    ring
  have hq : ∀ x : Int, s + k - x = s - x + k := fun x => by ring
  have hwide : ∀ x : Int, s - x + k + f.mbits = s - x + f.mbits + k := fun x => by ring
  unfold roundInto
  rw [if_neg hn, if_neg hn']
  simp only [roundRat, hlog, hbias, hq, hwide, roundRatBy_shift_quot _ rm neg n d k]

/-- A quotient rounded to the nearest integer, a tie to the even one. -/
theorem roundRat_nearest (neg : Bool) (n : Nat) {d : Nat} (hd : 0 < d) :
    2 * (((roundRat .rne neg n d 0).1 : Int) * d - n).natAbs ≤ d ∧
      (2 * (((roundRat .rne neg n d 0).1 : Int) * d - n).natAbs = d → (roundRat .rne neg n d 0).1 % 2 = 0) := by
  have hrem := Nat.mod_lt n hd
  have hdiv : (n : Int) = d * (n / d : Nat) + (n % d : Nat) := by exact_mod_cast (Nat.div_add_mod n d).symm
  have hround : (roundRat .rne neg n d 0).1 = if 2 * (n % d) > d ∨ 2 * (n % d) = d ∧ n / d % 2 = 1 then n / d + 1 else n / d := by
    rw [roundRat, roundRatBy_quot, roundQuot]
    simp [stepUp]
  rw [hround]
  generalize n / d = q at *
  generalize n % d = r at *
  split
  · next h =>
    have hgap : ((q + 1 : Nat) : Int) * d - n = d - r := by rw [hdiv]; push_cast; ring
    rw [hgap]
    omega
  · next h =>
    have hgap : (q : Int) * d - n = -r := by rw [hdiv]; ring
    rw [hgap]
    omega

-- The members of a store (R83) --------------------------------------------------------------------------------------------------------------------------------

section
variable (d : BitVec 512)

/-- A member's index is forced to zero; else its orbit's rank; the code that it writes. -/
def forcedAt (m : Member) : Bool := (canon d m.1).2.2.1
def rankAt (m : Member) : Nat := (canon d m.1).1
def codeAt (m : Member) : Nat :=
  if (canon d m.1).2.1 then (negCode (symTy d) (symNf d) m.2).1 else m.2 % 2 ^ codeBits (symTy d) (symNf d)

theorem signAdjust_fst (m : Member) : (signAdjust d m).1 = codeAt d m := by
  rw [signAdjust, signCode, codeAt]
  split <;> rfl

/-- A nonzero write to a forced zero. -/
def spoils (m : Member) : Bool := forcedAt d m && !isZeroCode d m.2

/-- The members that write an orbit. -/
def writers (ms : List Member) (r : Nat) : List Member := ms.filter fun m => !forcedAt d m && rankAt d m == r

end

-- The ranks (R83) --------------------------------------------------------------------------------------------------------------------------------------------------

theorem mem_insRank (x y : Nat) : ∀ l, y ∈ insRank x l ↔ y = x ∨ y ∈ l
  | [] => by simp [insRank]
  | z :: r => by
    rw [insRank]
    split
    · simp
    · split
      · next h => simp [h]
      · rw [List.mem_cons, mem_insRank x y r, List.mem_cons]
        tauto

theorem insRank_increasing (x : Nat) : ∀ {l : List Nat}, l.Pairwise (· < ·) → (insRank x l).Pairwise (· < ·)
  | [], _ => List.pairwise_singleton _ _
  | z :: r, h => by
    obtain ⟨hz, hr⟩ := List.pairwise_cons.1 h
    rw [insRank]
    split
    · next hlt =>
      refine List.pairwise_cons.2 ⟨fun y hy => ?_, h⟩
      obtain rfl | hy := List.mem_cons.1 hy
      · exact hlt
      · exact hlt.trans (hz y hy)
    · next hge =>
      split
      · exact h
      · next hne =>
        refine List.pairwise_cons.2 ⟨fun y hy => ?_, insRank_increasing x hr⟩
        obtain rfl | hy := (mem_insRank x y r).1 hy
        · omega
        · exact hz y hy

theorem ranksOf_eq (d : BitVec 512) (ms : List Member) : ranksOf d ms =
    ms.foldl (fun a m => if forcedAt d m then a else insRank (rankAt d m) a) [] := rfl

theorem ranksOf_increasing (d : BitVec 512) (ms : List Member) : (ranksOf d ms).Pairwise (· < ·) := by
  rw [ranksOf_eq]
  refine List.foldlRecOn (motive := fun a : List Nat => a.Pairwise (· < ·)) _ _ .nil fun a ha m _ => ?_
  split
  · exact ha
  · exact insRank_increasing _ ha

theorem mem_ranksOf (d : BitVec 512) (ms : List Member) (r : Nat) : r ∈ ranksOf d ms ↔ writers d ms r ≠ [] := by
  have hfold (l : List Member) (a : List Nat) : r ∈ l.foldl (fun a m => if forcedAt d m then a else insRank (rankAt d m) a) a ↔
      r ∈ a ∨ ∃ m ∈ l, forcedAt d m = false ∧ rankAt d m = r := by
    induction l generalizing a with
    | nil => simp
    | cons m l ih =>
      rw [List.foldl_cons, ih]
      cases hm : forcedAt d m with
      | true => simp [hm]
      | false =>
        rw [if_neg Bool.false_ne_true, mem_insRank]
        simp only [List.mem_cons, exists_eq_or_imp, hm]
        tauto
  rw [ranksOf_eq, hfold, writers, ne_eq, List.filter_eq_nil_iff]
  simp

-- One orbit's write (R84) ----------------------------------------------------------------------------------------------------------------------------------------------

section
variable {d : BitVec 512} {implies : Bool} {r : Nat} {w : List Member}

/-- The member that decides an orbit's code: at the canonical position, else the first. -/
def deciding (d : BitVec 512) (w : List Member) : Member :=
  match w.find? fun m => (canon d m.1).2.2.2 with
  | some m => m
  | none => w.getD 0 ([], 0)

theorem deciding_mem (hw : w ≠ []) : deciding d w ∈ w := by
  obtain ⟨x, l, rfl⟩ := List.exists_cons_of_ne_nil hw
  unfold deciding
  cases hfind : (x :: l).find? fun m => (canon d m.1).2.2.2 with
  | some m => exact List.mem_of_find?_eq_some hfind
  | none => exact List.mem_cons_self

/-- Two members of an orbit are in conflict. -/
def Clash (d : BitVec 512) (implies : Bool) (w : List Member) : Prop :=
  symMode d = 0 ∧ implies = false ∧ 2 ≤ w.length ∨ symMode d = 2 ∧ ∃ m ∈ w, ∃ m' ∈ w, codeAt d m ≠ codeAt d m'

theorem orbitWrite_canon (h0 : symMode d = 0) (himp : implies = false) (hw : 2 ≤ w.length) :
    orbitWrite d implies r w = .error ⟨0x0B, 0, r, (w.getD 0 ([], 0)).1, some (w.getD 1 ([], 0)).1⟩ := by
  unfold orbitWrite
  rw [h0]
  exact if_pos ⟨hw, by simp [himp]⟩

theorem symMode_lt (d : BitVec 512) : symMode d < 4 := Nat.mod_lt _ (by decide)

/-- The code at a place of the adjusted members. -/
theorem adjusted_getD {i : Nat} (hi : i < w.length) : ((w.map (signAdjust d)).getD i (0, 0)).1 = codeAt d (w.getD i ([], 0)) := by
  rw [List.getD_eq_getElem _ _ (by rwa [List.length_map]), List.getElem_map, signAdjust_fst, List.getD_eq_getElem _ _ hi]

/-- The first of the members whose code is not the first one's. -/
def firstDiffers (d : BitVec 512) (w : List Member) : Option Nat :=
  (List.range (w.map (signAdjust d)).length).find? fun i => ((w.map (signAdjust d)).getD i (0, 0)).1 != ((w.map (signAdjust d)).headD (0, 0)).1

theorem orbitWrite_check (h2 : symMode d = 2) {i : Nat} (hi : firstDiffers d w = some i) :
    orbitWrite d implies r w = .error ⟨0x0A, 0, r, (w.getD 0 ([], 0)).1, some (w.getD i ([], 0)).1⟩ := by
  unfold orbitWrite
  rw [h2]
  change (match firstDiffers d w with | some i => _ | none => _) = _
  rw [hi]

theorem firstDiffers_none (h : ∀ m ∈ w, ∀ m' ∈ w, codeAt d m = codeAt d m') : firstDiffers d w = none := by
  refine List.find?_eq_none.2 fun i hi => ?_
  rw [List.mem_range, List.length_map] at hi
  have hfirst : ((w.map (signAdjust d)).headD (0, 0)).1 = codeAt d (w.getD 0 ([], 0)) := by
    rw [← adjusted_getD (Nat.zero_lt_of_lt hi)]
    cases w <;> rfl
  have hmem {q : Nat} (hq : q < w.length) : w.getD q ([], 0) ∈ w := by
    rw [List.getD_eq_getElem _ _ hq]
    exact List.getElem_mem _
  rw [adjusted_getD hi, hfirst, h _ (hmem hi) _ (hmem (Nat.zero_lt_of_lt hi))]
  simp

theorem firstDiffers_some {i : Nat} (hi : i < w.length) (hne : codeAt d (w.getD i ([], 0)) ≠ codeAt d (w.getD 0 ([], 0)))
    (hbefore : ∀ q, q < i → codeAt d (w.getD q ([], 0)) = codeAt d (w.getD 0 ([], 0))) : firstDiffers d w = some i := by
  have hfirst : ((w.map (signAdjust d)).headD (0, 0)).1 = codeAt d (w.getD 0 ([], 0)) := by
    rw [← adjusted_getD (Nat.zero_lt_of_lt hi)]
    cases w <;> rfl
  rw [firstDiffers, List.length_map, List.find?_range_eq_some]
  refine ⟨?_, List.mem_range.2 hi, fun q hq => ?_⟩
  · rw [adjusted_getD hi, hfirst]
    simpa using hne
  · rw [adjusted_getD (hq.trans hi), hfirst, hbefore q hq]
    simp

/-- An orbit without a conflict has its representative. -/
theorem orbitWrite_ok (hw : w ≠ []) (hclash : ¬ Clash d implies w) : ∃ it, orbitWrite d implies r w = .ok it ∧ it.rank = r ∧ it.pos = slotAddr d r ∧
    (symMode d ≠ 1 → it.val = codeAt d (deciding d w)) ∧ (symMode d = 1 → it.val = (meanOf d (w.map (codeAt d))).1) := by
  have hcanonical : (match w.find? fun m : Member => (canon d m.1).2.2.2 with
      | some m => signAdjust d m
      | none => (w.map (signAdjust d)).headD (0, 0)).1 = codeAt d (deciding d w) := by
    unfold deciding
    cases w.find? fun m => (canon d m.1).2.2.2 with
    | some m => exact signAdjust_fst d m
    | none =>
      obtain ⟨x, l, rfl⟩ := List.exists_cons_of_ne_nil hw
      exact signAdjust_fst d x
  have hmode := symMode_lt d
  unfold orbitWrite
  match hm : symMode d with
  | 0 =>
    have hno : ¬ (2 ≤ w.length ∧ (!implies) = true) := fun h => hclash (.inl ⟨hm, by simpa using h.2, h.1⟩)
    dsimp only
    rw [if_neg hno]
    exact ⟨_, rfl, rfl, rfl, fun _ => hcanonical, fun h => absurd h (by decide)⟩
  | 1 =>
    refine ⟨_, rfl, rfl, rfl, fun h => absurd rfl h, fun _ => ?_⟩
    dsimp only
    rw [List.map_map, show Prod.fst ∘ signAdjust d = codeAt d from funext (signAdjust_fst d)]
  | 2 =>
    have hsame : ∀ m ∈ w, ∀ m' ∈ w, codeAt d m = codeAt d m' := fun m hmem m' hmem' => by
      by_contra hne
      exact hclash (.inr ⟨hm, m, hmem, m', hmem', hne⟩)
    have hnone := firstDiffers_none hsame
    rw [firstDiffers] at hnone
    dsimp only
    rw [hnone]
    refine ⟨_, rfl, rfl, rfl, fun _ => ?_, fun h => absurd h (by decide)⟩
    obtain ⟨x, l, rfl⟩ := List.exists_cons_of_ne_nil hw
    exact (signAdjust_fst d x).trans (hsame _ List.mem_cons_self _ (deciding_mem hw))
  | 3 => exact ⟨_, rfl, rfl, rfl, fun _ => hcanonical, fun h => absurd h (by decide)⟩
  | n + 4 => omega

end

-- Means (R84) -------------------------------------------------------------------------------------------------------------------------------------------------------------

section
variable {d : BitVec 512}

/-- A valid descriptor's type is floating or integer. -/
theorem codeAt_lt (hint : Ty.isFloat (symTy d) = false) (m : Member) : codeAt d m < 2 ^ Ty.bits (symTy d) := by
  have hcode (x : Int) : intCode (Ty.bits (symTy d)) x < 2 ^ Ty.bits (symTy d) := by
    have hpos : (0 : Int) < 2 ^ Ty.bits (symTy d) := by positivity
    have hlt := Int.emod_lt_of_pos x hpos
    rw [intCode]
    zify
    rw [Int.toNat_of_nonneg (Int.emod_nonneg x hpos.ne')]
    exact hlt
  have hnf : symTy d ≠ .nf := fun h => by simp [h, Ty.isFloat] at hint
  rw [codeAt]
  split
  · rw [negCode, if_neg (by simp [hint]), clampInt]
    split
    · exact hcode _
    · split
      · exact hcode _
      · exact hcode _
  · rw [codeBits, if_neg hnf]
    exact Nat.mod_lt _ (Nat.two_pow_pos _)

/-- The mean of integers: the nearest, a tie to the even one. -/
theorem meanOf_int (hint : Ty.isFloat (symTy d) = false) {w : List Member} (hw : w ≠ []) : ∃ q : Int,
    (meanOf d (w.map (codeAt d))).1 = (q % 2 ^ Ty.bits (symTy d)).toNat ∧
    2 * (q * w.length - (w.map fun m => laneInt (symTy d) (codeAt d m)).sum).natAbs ≤ w.length ∧
    (2 * (q * w.length - (w.map fun m => laneInt (symTy d) (codeAt d m)).sum).natAbs = w.length → q % 2 = 0) := by
  have hsum : ((w.map (codeAt d)).map (intOf (symTy d))).foldl (· + ·) 0 = (w.map fun m => laneInt (symTy d) (codeAt d m)).sum := by
    rw [foldl_add_eq_sum, List.map_map]
    exact congrArg List.sum (List.map_congr_left fun m _ => intOf_eq_laneInt (codeAt_lt hint m))
  generalize (w.map fun m => laneInt (symTy d) (codeAt d m)).sum = total at *
  obtain ⟨hnear, heven⟩ := roundRat_nearest (decide (total < 0)) total.natAbs (List.length_pos_of_ne_nil hw)
  have hmean : (meanOf d (w.map (codeAt d))).1 = intCode (Ty.bits (symTy d))
      (if total < 0 then -((roundRat .rne (decide (total < 0)) total.natAbs w.length 0).1 : Int)
        else (roundRat .rne (decide (total < 0)) total.natAbs w.length 0).1) := by
    rw [meanOf, if_neg (by simp [hint])]
    dsimp only
    rw [hsum, List.length_map]
  refine ⟨_, hmean, ?_⟩
  generalize (roundRat .rne (decide (total < 0)) total.natAbs w.length 0).1 = q at *
  by_cases hneg : total < 0
  · have hgap : -(q : Int) * w.length - total = -(q * w.length - total.natAbs) := by
      rw [show (total.natAbs : Int) = -total by omega]
      ring
    rw [if_pos hneg, hgap, Int.natAbs_neg]
    exact ⟨hnear, fun h => by have := heven h; omega⟩
  · have hgap : (q : Int) * w.length - total = q * w.length - total.natAbs := by
      rw [show (total.natAbs : Int) = total by omega]
    rw [if_neg hneg, hgap]
    exact ⟨hnear, fun h => by have := heven h; omega⟩

/-- The mean of floating values. -/
def floatMean (f : Fmt) (xs : List Machine.Num) : Nat × Flags :=
  match sumNum false xs with
  | .nan _ => encodeNum f .rne invalidNum
  | .fin n m e => if m = 0 then encodeNum f .rne (.fin n 0 0) else roundInto f .rne n m xs.length e
  | x => encodeNum f .rne x

theorem meanOf_float (hfloat : Ty.isFloat (symTy d) = true) (w : List Member) :
    meanOf d (w.map (codeAt d)) = floatMean (fmtOf (symTy d) (symNf d)) (w.map fun m => decodeNum (fmtOf (symTy d) (symNf d)) (codeAt d m)) := by
  rw [meanOf, if_pos hfloat, floatMean]
  dsimp only
  rw [List.map_map, List.length_map, List.length_map]
  rfl

end

section
variable {f : Fmt} {xs : List Machine.Num}

theorem floatMean_invalid (h : xs.any Num.isNan = true ∨ (Machine.Num.inf false ∈ xs ∧ Machine.Num.inf true ∈ xs)) :
    floatMean f xs = encodeNum f .rne (.nan true) := by
  rw [floatMean, sumNum]
  by_cases hnan : xs.any Num.isNan = true
  · rw [if_pos hnan] <;> rfl
  · obtain ⟨hup, hdown⟩ := h.resolve_left hnan
    rw [if_neg hnan, (up_iff xs).2 hup, (down_iff xs).2 hdown] <;> rfl

theorem floatMean_up (hnan : xs.any Num.isNan = false) (hup : Machine.Num.inf false ∈ xs) (hdown : Machine.Num.inf true ∉ xs) :
    floatMean f xs = encodeNum f .rne (.inf false) := by
  rw [floatMean, sumNum, hnan, (up_iff xs).2 hup, Bool.eq_false_iff.2 (mt (down_iff xs).1 hdown)] <;> rfl

theorem floatMean_down (hnan : xs.any Num.isNan = false) (hup : Machine.Num.inf false ∉ xs) (hdown : Machine.Num.inf true ∈ xs) :
    floatMean f xs = encodeNum f .rne (.inf true) := by
  rw [floatMean, sumNum, hnan, Bool.eq_false_iff.2 (mt (up_iff xs).1 hup), (down_iff xs).2 hdown] <;> rfl

theorem floatMean_finite (hne : xs ≠ []) (hnan : xs.any Num.isNan = false) (hup : Machine.Num.inf false ∉ xs) (hdown : Machine.Num.inf true ∉ xs) :
    floatMean f xs = if exactTotal xs = 0 then encodeNum f .rne (.fin (xs.all Num.isNeg) 0 0)
      else roundInto f .rne (exactTotal xs < 0) (exactTotal xs).natAbs xs.length (leastExponent xs) := by
  have hfin := finite_of_no_special hnan hup hdown
  have hsum : sumNum false xs = match finSum xs with
      | some x => x
      | none => if !xs.isEmpty && xs.all (fun x => x.isZero && x.isNeg) then .fin true 0 0 else .fin false 0 0 := by
    rw [sumNum, hnan, Bool.eq_false_iff.2 (mt (up_iff xs).1 hup), Bool.eq_false_iff.2 (mt (down_iff xs).1 hdown)] <;> rfl
  obtain ⟨h0, hnone⟩ | ⟨v, e, hv, hle, htotal, hsome, -⟩ := finSum_exactTotal hfin
  · have hsign : (!xs.isEmpty && xs.all fun x => x.isZero && x.isNeg) = xs.all Num.isNeg := by
      rw [List.isEmpty_eq_false_iff.2 hne, Bool.not_false, Bool.true_and, Bool.eq_iff_iff, List.all_eq_true, List.all_eq_true]
      refine ⟨fun h x hx => (Bool.and_eq_true_iff.1 (h x hx)).2, fun h x hx => Bool.and_eq_true_iff.2 ⟨?_, h x hx⟩⟩
      obtain ⟨n, m, q, rfl⟩ := hfin x hx
      refine isZero_of_toIntAt ((sum_of_nonpos ?_).2 h0 _ (List.mem_map_of_mem hx))
      intro y hy
      obtain ⟨z, hz, rfl⟩ := List.mem_map.1 hy
      exact toIntAt_nonpos _ (h z hz)
    rw [if_pos h0, floatMean, hsum, hnone, hsign]
    cases xs.all Num.isNeg <;> rfl
  · have hpow : (0 : Int) < 2 ^ (e - leastExponent xs).toNat := by positivity
    have hne' : exactTotal xs ≠ 0 := by rw [htotal]; exact Int.mul_ne_zero hv hpow.ne'
    have hsign : decide (exactTotal xs < 0) = decide (v < 0) := decide_eq_decide.2 (by rw [htotal, mul_neg_iff]; simp [hpow, not_lt.2 hpow.le])
    have habs : (exactTotal xs).natAbs = v.natAbs * 2 ^ (e - leastExponent xs).toNat := by
      rw [htotal, Int.natAbs_mul, Int.natAbs_pow] <;> rfl
    have hexact : leastExponent xs + ((e - leastExponent xs).toNat : Int) = e := by omega
    rw [if_neg hne', floatMean, hsum, hsome, hsign, habs, roundInto_shift_quot, hexact]
    exact if_neg (Int.natAbs_ne_zero.2 hv)

end

-- The store (R85, R86) --------------------------------------------------------------------------------------------------------------------------------------------------------

section
variable {d : BitVec 512} {implies : Bool} {ms : List Member}

theorem orbitWrites_error {e : SymFault} {r : Nat} {after : List Nat} : ∀ {before : List Nat},
    (∀ q ∈ before, ∃ it, orbitWrite d implies q (writers d ms q) = .ok it) → orbitWrite d implies r (writers d ms r) = .error e →
      orbitWrites d implies ms (before ++ r :: after) = .error e
  | [], _, h => by
    rw [List.nil_append, orbitWrites]
    change (match orbitWrite d implies r (writers d ms r) with | .error e => _ | .ok x => _) = _
    rw [h]
  | q :: before, hok, h => by
    obtain ⟨⟨it, hit⟩, hrest⟩ := List.forall_mem_cons.1 hok
    rw [List.cons_append, orbitWrites]
    change (match orbitWrite d implies q (writers d ms q) with | .error e => _ | .ok x => _) = _
    rw [hit]
    dsimp only
    rw [orbitWrites_error hrest h]

theorem orbitWrites_ok : ∀ {l : List Nat}, (∀ q ∈ l, ∃ it, orbitWrite d implies q (writers d ms q) = .ok it) →
    ∃ items, orbitWrites d implies ms l = .ok items ∧ List.Forall₂ (fun q it => orbitWrite d implies q (writers d ms q) = .ok it) l items
  | [], _ => ⟨[], rfl, .nil⟩
  | q :: l, hok => by
    obtain ⟨⟨it, hit⟩, hrest⟩ := List.forall_mem_cons.1 hok
    obtain ⟨items, hitems, hall⟩ := orbitWrites_ok hrest
    refine ⟨it :: items, ?_, .cons hit hall⟩
    rw [orbitWrites]
    change (match orbitWrite d implies q (writers d ms q) with | .error e => _ | .ok x => _) = _
    rw [hit]
    dsimp only
    rw [hitems]

/-- A nonzero write to a forced zero comes first. -/
theorem foldStore_spoiled (hmode : symMode d ≠ 3) {m : Member} (hm : ms.find? (spoils d) = some m) :
    foldStore d implies ms = .error ⟨0x0A, 1, 0, m.1, none⟩ := by
  have hhead : (ms.filter (spoils d)).head? = some m := (List.head?_filter ..).trans hm
  obtain ⟨rest, hfilter⟩ : ∃ rest, ms.filter (spoils d) = m :: rest := by
    cases hf : ms.filter (spoils d) with
    | nil => simp [hf] at hhead
    | cons x rest =>
      rw [hf, List.head?_cons, Option.some_inj] at hhead
      exact ⟨rest, by rw [hhead]⟩
  unfold foldStore
  dsimp only
  rw [show (ms.filter fun m => (canon d m.1).2.2.1 && !isZeroCode d m.2) = m :: rest from hfilter, beq_eq_false_iff_ne.2 hmode]

/-- Else the orbits are written in rank order. -/
theorem foldStore_writes (h : symMode d = 3 ∨ ∀ m ∈ ms, forcedAt d m = true → isZeroCode d m.2 = true) : foldStore d implies ms =
    match orbitWrites d implies ms (ranksOf d ms) with
    | .error e => .error e
    | .ok l => .ok (l, ms.any (spoils d)) := by
  have hany : (!(ms.filter (spoils d)).isEmpty) = ms.any (spoils d) := by
    rw [Bool.eq_iff_iff, Bool.not_eq_true', List.isEmpty_eq_false_iff, ne_eq, List.filter_eq_nil_iff, List.any_eq_true]
    simp
  have hnone : symMode d ≠ 3 → ms.filter (spoils d) = [] := fun hmode => by
    refine List.filter_eq_nil_iff.2 fun m hm => ?_
    rw [spoils]
    cases hf : forcedAt d m with
    | false => simp
    | true => simp [h.resolve_left hmode m hm hf]
  rw [← hany]
  unfold foldStore
  dsimp only
  rw [show (ms.filter fun m => (canon d m.1).2.2.1 && !isZeroCode d m.2) = ms.filter (spoils d) from rfl]
  by_cases hmode : symMode d = 3
  · rw [hmode]
    cases ms.filter (spoils d) <;> rfl
  · rw [hnone hmode] <;> rfl

theorem writers_ne_nil_of_clash {r : Nat} (h : Clash d implies (writers d ms r)) : writers d ms r ≠ [] := by
  rintro hnil
  rw [hnil] at h
  obtain ⟨-, -, hlen⟩ | ⟨-, m, hm, -⟩ := h
  · simp at hlen
  · exact List.not_mem_nil hm

/-- The lowest rank with a conflict decides. -/
theorem foldStore_clash (h : symMode d = 3 ∨ ∀ m ∈ ms, forcedAt d m = true → isZeroCode d m.2 = true) {r : Nat} {e : SymFault}
    (hr : Clash d implies (writers d ms r)) (hlow : ∀ q, q < r → ¬ Clash d implies (writers d ms q))
    (he : orbitWrite d implies r (writers d ms r) = .error e) : foldStore d implies ms = .error e := by
  have hmem := (mem_ranksOf d ms r).2 (writers_ne_nil_of_clash hr)
  obtain ⟨before, after, hranks⟩ := List.append_of_mem hmem
  have hbefore : ∀ q ∈ before, q < r := fun q hq => by
    have hincr := ranksOf_increasing d ms
    rw [hranks] at hincr
    exact (List.pairwise_append.1 hincr).2.2 q hq r List.mem_cons_self
  have hok : ∀ q ∈ before, ∃ it, orbitWrite d implies q (writers d ms q) = .ok it := fun q hq => by
    have hq' : q ∈ ranksOf d ms := by
      rw [hranks]
      exact List.mem_append_left _ hq
    obtain ⟨it, hit, -⟩ := orbitWrite_ok ((mem_ranksOf d ms q).1 hq') (hlow q (hbefore q hq))
    exact ⟨it, hit⟩
  rw [foldStore_writes h, hranks, orbitWrites_error hok he]

/-- What an item of a store says of its orbit. -/
structure Represents (d : BitVec 512) (ms : List Member) (it : FoldItem) : Prop where
  touched : writers d ms it.rank ≠ []
  pos : it.pos = slotAddr d it.rank
  val : symMode d ≠ 1 → it.val = codeAt d (deciding d (writers d ms it.rank))
  mean : symMode d = 1 → it.val = (meanOf d ((writers d ms it.rank).map (codeAt d))).1

/-- Without a conflict every touched orbit has its representative, in rank order. -/
theorem foldStore_ok (h : symMode d = 3 ∨ ∀ m ∈ ms, forcedAt d m = true → isZeroCode d m.2 = true)
    (hno : ∀ r, ¬ Clash d implies (writers d ms r)) : ∃ items, foldStore d implies ms = .ok (items, ms.any (spoils d)) ∧
      items.map FoldItem.rank = ranksOf d ms ∧ ∀ it ∈ items, Represents d ms it := by
  have hok (q : Nat) (hq : q ∈ ranksOf d ms) := orbitWrite_ok (r := q) ((mem_ranksOf d ms q).1 hq) (hno q)
  obtain ⟨items, hitems, hall⟩ := orbitWrites_ok fun q hq => (hok q hq).imp fun it hit => hit.1
  have hitem : List.Forall₂ (fun it q => it.rank = q ∧ Represents d ms it) items (ranksOf d ms) := by
    refine (List.Forall₂.imp ?_ ((List.forall₂_and_left _ _).2 ⟨fun q hq => And.intro hq (hok q hq), hall⟩)).flip
    rintro q it ⟨⟨hq, it', hit', hrank, hpos, hval, hmean⟩, hit⟩
    obtain rfl : it' = it := Except.ok.inj (hit'.symm.trans hit)
    subst hrank
    exact ⟨rfl, (mem_ranksOf d ms _).1 hq, hpos, hval, hmean⟩
  refine ⟨items, by rw [foldStore_writes h, hitems], ?_, ?_⟩
  · exact List.forall₂_eq_eq_eq ▸ List.forall₂_map_left_iff.2 (hitem.imp fun it q hit => hit.1)
  · exact ((List.forall₂_and_left _ _).1 (hitem.imp fun it q hit => (And.intro hit.2 trivial : Represents d ms it ∧ True))).1

end

/-- Settles O48: the blocks' ranks and weights, and the store of an orbit's members. -/
theorem symmetricStorage : Obligations.SymmetricStorage := by
  intro d x hv hx tupleOf
  refine ⟨fun b hb => ?blocks, canon_eq d x, orbitWeight_canon hv hx, fun e => orbitCount_eq d e, fun implies ms hms => ?store⟩
  case blocks =>
    have hok := blockOk_of_valid hv hb
    exact ⟨fun z hk hperm hup => blockRank_sym hok hk hperm hup, fun z hk hperm hup => blockRank_asym hok hk hperm hup,
      fun hk => blockRank_shift hok hx hk, fun hk => blockRank_reflection hok hk⟩
  case store =>
    intro forced zero u W index clash
    refine ⟨fun m hmode hm => foldStore_spoiled hmode hm, fun h => ⟨fun r hr hlow => ⟨fun h0 => ?canon, fun h2 i hi hne hsame => ?check⟩, fun hno => ?ok⟩⟩
    case canon =>
      obtain ⟨-, himp, hlen⟩ | ⟨h2, -⟩ := hr
      · exact foldStore_clash h (.inl ⟨h0, himp, hlen⟩) hlow (orbitWrite_canon h0 himp hlen)
      · exact absurd (h0.symm.trans h2) (by decide)
    case check => exact foldStore_clash h hr hlow (orbitWrite_check h2 (firstDiffers_some hi hne hsame))
    case ok =>
      obtain ⟨items, hitems, hranks, hall⟩ := foldStore_ok h hno
      refine ⟨items, hitems, hranks ▸ ranksOf_increasing d ms, fun r => hranks ▸ mem_ranksOf d ms r, fun it hit => ?item⟩
      obtain ⟨htouched, hpos, hval, hmean⟩ := hall it hit
      refine ⟨hpos, hval, fun h1 hint => ?ints, fun h1 hfloat => ?floats⟩
      case ints =>
        obtain ⟨q, hq, hnear, heven⟩ := meanOf_int hint htouched
        exact ⟨q, (hmean h1).trans hq, hnear, heven⟩
      case floats =>
        intro f xs up down least total
        have hval : it.val = (floatMean f xs).1 := (hmean h1).trans (congrArg Prod.fst (meanOf_float hfloat _))
        have hne : xs ≠ [] := mt List.map_eq_nil_iff.1 htouched
        have hlen : xs.length = (W it.rank).length := List.length_map ..
        refine ⟨fun hinv => hval.trans (congrArg Prod.fst (floatMean_invalid hinv)), fun hnan hboth => ⟨fun hup => ?up, fun hdown => ?down, fun hup hdown => ?finite⟩⟩
        case up => exact hval.trans (congrArg Prod.fst (floatMean_up hnan hup fun hdown => hboth ⟨hup, hdown⟩))
        case down => exact hval.trans (congrArg Prod.fst (floatMean_down hnan (fun hup => hboth ⟨hup, hdown⟩) hdown))
        case finite =>
          refine hval.trans ((congrArg Prod.fst (floatMean_finite hne hnan hup hdown)).trans ?_)
          rw [hlen]
          by_cases h0 : total = 0
          · rw [if_pos h0]
            exact congrArg Prod.fst (if_pos h0)
          · rw [if_neg h0]
            exact congrArg Prod.fst (if_neg h0)

end Sys2Proof.Proofs
end

