-- ==== Sys2Proof/Proofs/FetchUnit.lean ====
section
/-! PROOF. The fetch of a stream's next command (R23, R24, R96). -/

namespace Sys2Proof.Proofs

open Sys2Proof Sys2Proof.Machine Sys2Proof.Claims Sys2Proof.Laws

section
variable {s : State} {k : Nat} {st : Stream}

/-- The core runs the present cycle of its domain. -/
abbrev RunsCycle (s : State) (k : Nat) : Prop := ∃ d, domOf s k = some d ∧ d.cycling = true ∧ liveIn s d k = true

theorem cyclesNow_iff : cyclesNow s k = true ↔ RunsCycle s k := by
  unfold cyclesNow RunsCycle
  cases domOf s k with
  | none => simp
  | some d => simp

theorem commandFetch_idle (h : cyclesNow s k = false ∨ fetchOne s k st = none) : exec (.commandFetch k st) s = .next s := by
  change execCommandFetch k st s = _
  unfold execCommandFetch
  cases hc : cyclesNow s k with
  | false => rfl
  | true =>
    rw [if_pos rfl, h.resolve_left (by simp [hc])]

theorem commandFetch_fetches {t : State} (hc : cyclesNow s k = true) (h : fetchOne s k st = some t) :
    exec (.commandFetch k st) s = .next { t with agenda := .ev (.commandFetch k st) :: t.agenda } := by
  change execCommandFetch k st s = _
  unfold execCommandFetch
  rw [if_pos hc, h]

/-- The WAIT byte of a command's words (R96). -/
def waitByte (ws : List Word) : Nat := (ws.getD 0 0).toNat / 2 ^ 56 % 256

/-- The words of the next command as a scratchpad holds them. -/
abbrev nextWords (s : State) (k : Nat) (st : Stream) (m : Memory) : List Word :=
  readCommand m (getStream (getCore s k) st) st (getStream (getCore s k) st).fetchIdx

/-- The issue cycle that they give after the previous command. -/
abbrev nextCycle (s : State) (k : Nat) (st : Stream) (ws : List Word) : Nat := (getStream (getCore s k) st).fetchPrev + waitByte ws

/-- Words that give a cycle by their WAIT byte are due in the cycles from 16 before it on. -/
theorem dueAt_wait {x : StreamSt} {ws : List Word} (hwait : waitByte ws ≤ 0xFB) (hbr : x.brMin ≤ x.fetchPrev + waitByte ws) (f : Int) :
    dueAt s k x ws f = if ((x.fetchPrev + waitByte ws : Nat) : Int) ≤ f + 16 then some (x.fetchPrev + waitByte ws, none) else none := by
  have hat : waitOf x.fetchPrev ws = .at' (x.fetchPrev + waitByte ws) := if_pos hwait
  unfold dueAt
  dsimp only
  rw [hat]
  simp only [if_neg (Nat.not_lt.2 hbr)]
  exact if_congr decide_eq_true_iff rfl rfl

/-- No word of an earlier cycle brings another command in (R24). -/
abbrev NoOtherWords (s : State) (k : Nat) (st : Stream) : Prop :=
  ∀ i m, i < 16 → (getCore s k).spadPast[i]? = some m → nextWords s k st m = nextWords s k st (getCore s k).spad ∨
    (waitByte (nextWords s k st m) ≤ 0xFB ∧ (getStream (getCore s k) st).brMin ≤ nextCycle s k st (nextWords s k st m) ∧
      (getCore s k).dcc + 16 < nextCycle s k st (nextWords s k st m) + 1 + i)

/-- The words of a cycle that the fetch unit looks at are the present ones, or are not due in it. -/
theorem words_or_not_due (hno : NoOtherWords s k st) {f : Int} (hlow : (getCore s k).dcc - 16 ≤ f) (hhigh : f ≤ (getCore s k).dcc) :
    nextWords s k st (spadAt (getCore s k) f) = nextWords s k st (getCore s k).spad ∨
      dueAt s k (getStream (getCore s k) st) (nextWords s k st (spadAt (getCore s k) f)) f = none := by
  unfold spadAt
  by_cases hnow : ((getCore s k).dcc : Int) ≤ f
  · rw [if_pos hnow]
    exact .inl rfl
  rw [if_neg hnow]
  generalize hi : (((getCore s k).dcc : Int) - 1 - f).toNat = i
  have hpast {q : Nat} {m : Memory} (hq : q ≤ i) (hm : (getCore s k).spadPast[q]? = some m) :
      nextWords s k st m = nextWords s k st (getCore s k).spad ∨ dueAt s k (getStream (getCore s k) st) (nextWords s k st m) f = none := by
    refine (hno q m (by omega) hm).imp_right fun ⟨hwait, hbr, hlate⟩ => ?_
    have hcycle : nextCycle s k st (nextWords s k st m) = (getStream (getCore s k) st).fetchPrev + waitByte (nextWords s k st m) := rfl
    rw [dueAt_wait hwait hbr, if_neg (by omega)]
  cases hm : (getCore s k).spadPast[i]? with
  | some m => exact hpast le_rfl hm
  | none =>
    cases hlast : (getCore s k).spadPast with
    | nil => exact .inl rfl
    | cons m0 l =>
      have hlen : (getCore s k).spadPast.length ≤ i := List.getElem?_eq_none_iff.1 hm
      have hget : (getCore s k).spadPast[l.length]? = some (List.getLastD (m0 :: l) (getCore s k).spad) := by
        rw [hlast, List.getLastD_eq_getLast?, List.getLast?_eq_getElem?]
        simp
      rw [hlast, List.length_cons] at hlen
      exact hpast (by omega) hget

/-- The cycles that the fetch unit looks at (R24). -/
theorem mem_fetchCycles (c : CoreState) (x : StreamSt) (f : Int) : f ∈ fetchCycles c x ↔ (c.dcc - 16 ≤ f ∧ f ≤ c.dcc) ∧ (x.fetchPrev : Int) - 16 ≤ f := by
  rw [fetchCycles, List.mem_filter, List.mem_map, decide_eq_true_eq]
  refine and_congr ⟨?_, fun ⟨hlow, hhigh⟩ => ⟨(f - (c.dcc - 16)).toNat, List.mem_range.2 ?_, ?_⟩⟩ Iff.rfl
  · rintro ⟨i, hi, rfl⟩
    have := List.mem_range.1 hi
    rw [Config.fetchLead] at *
    omega
  · rw [Config.fetchLead]
    omega
  · rw [Config.fetchLead]
    omega

section
variable (hno : NoOtherWords s k st) (hwait : waitByte (nextWords s k st (getCore s k).spad) ≤ 0xFB)
  (hbr : (getStream (getCore s k) st).brMin ≤ nextCycle s k st (nextWords s k st (getCore s k).spad))
include hno hwait hbr

/-- What a cycle that is looked at brings: the present words where they are due, else nothing. -/
theorem look_eq {f : Int} (hlow : (getCore s k).dcc - 16 ≤ f) (hhigh : f ≤ (getCore s k).dcc) {y : List Word × Nat × Option (Nat × Nat)}
    (hy : (dueAt s k (getStream (getCore s k) st) (nextWords s k st (spadAt (getCore s k) f)) f).map
      (fun r => (nextWords s k st (spadAt (getCore s k) f), max r.1 (getCore s k).dcc, r.2)) = some y) :
    nextCycle s k st (nextWords s k st (getCore s k).spad) ≤ f + 16 ∧ y = (nextWords s k st (getCore s k).spad,
      max (nextCycle s k st (nextWords s k st (getCore s k).spad)) (getCore s k).dcc, none) := by
  obtain hsame | hnone := words_or_not_due hno hlow hhigh
  · rw [hsame, dueAt_wait hwait hbr] at hy
    split at hy
    · next hdue => exact ⟨hdue, (Option.some_inj.1 hy).symm⟩
    · exact absurd hy (by simp)
  · rw [hnone] at hy
    exact absurd hy (by simp)

theorem fetchDue_early (hearly : (getCore s k).dcc + 16 < nextCycle s k st (nextWords s k st (getCore s k).spad)) :
    fetchDue s k (getStream (getCore s k) st) st = none := by
  refine List.findSome?_eq_none_iff.2 fun f hf => ?_
  obtain ⟨⟨hlow, hhigh⟩, -⟩ := (mem_fetchCycles _ _ f).1 hf
  refine Option.eq_none_iff_forall_ne_some.2 fun y hy => ?_
  obtain ⟨hdue, -⟩ := look_eq hno hwait hbr hlow hhigh hy
  omega

theorem fetchDue_due (hdue : nextCycle s k st (nextWords s k st (getCore s k).spad) ≤ (getCore s k).dcc + 16) :
    fetchDue s k (getStream (getCore s k) st) st = some (nextWords s k st (getCore s k).spad,
      max (nextCycle s k st (nextWords s k st (getCore s k).spad)) (getCore s k).dcc, none) := by
  have hcycle : nextCycle s k st (nextWords s k st (getCore s k).spad) =
      (getStream (getCore s k) st).fetchPrev + waitByte (nextWords s k st (getCore s k).spad) := rfl
  have hnow : ((getCore s k).dcc : Int) ∈ fetchCycles (getCore s k) (getStream (getCore s k) st) := (mem_fetchCycles _ _ _).2 (by omega)
  have hspad : spadAt (getCore s k) (getCore s k).dcc = (getCore s k).spad := if_pos le_rfl
  have hsome : fetchDue s k (getStream (getCore s k) st) st ≠ none := fun hnone => by
    have h := List.findSome?_eq_none_iff.1 hnone _ hnow
    dsimp only at h
    rw [hspad, dueAt_wait hwait hbr, if_pos (by omega)] at h
    exact Option.some_ne_none _ h
  obtain ⟨y, hy⟩ := Option.ne_none_iff_exists'.1 hsome
  obtain ⟨f, hf, hlook⟩ := List.exists_of_findSome?_eq_some hy
  obtain ⟨⟨hlow, hhigh⟩, -⟩ := (mem_fetchCycles _ _ f).1 hf
  rw [hy, (look_eq hno hwait hbr hlow hhigh hlook).2]

end

/-- The fetch unit's next place is four fields of the stream. -/
theorem fetchNext_eq (x : StreamSt) (next : Nat) (i : Option Instr) : ∃ idx hold calls loops,
    fetchNext x next i = { x with fetchIdx := idx, fetchHold := hold, fetchCalls := calls, fetchLoops := loops } := by
  cases i with
  | none => exact ⟨_, _, _, _, rfl⟩
  | some i =>
    cases i with
    | ret =>
      unfold fetchNext
      dsimp only
      split <;> exact ⟨_, _, _, _, rfl⟩
    | lend id =>
      unfold fetchNext
      dsimp only
      split
      · exact ⟨_, _, _, _, rfl⟩
      · split <;> exact ⟨_, _, _, _, rfl⟩
    | _ => exact ⟨_, _, _, _, rfl⟩

theorem fetchNext_keeps (x : StreamSt) (next : Nat) (i : Option Instr) : (fetchNext x next i).fetched = x.fetched ∧
    (fetchNext x next i).fetchPrev = x.fetchPrev ∧ (fetchNext x next i).fetchPtr = x.fetchPtr ∧ (fetchNext x next i).seq = x.seq ∧
    (fetchNext x next i).nextIdx = x.nextIdx ∧ (fetchNext x next i).loops = x.loops := by
  obtain ⟨idx, hold, calls, loops, h⟩ := fetchNext_eq x next i
  rw [h]
  exact ⟨rfl, rfl, rfl, rfl, rfl, rfl⟩

theorem fetchOne_none (h : (getStream (getCore s k) st).ended = true ∨ (getStream (getCore s k) st).fetchHold = true) : fetchOne s k st = none := by
  refine if_pos ?_
  rw [Bool.or_eq_true]
  exact h

theorem fetchOne_of_fetchDue_none (h : fetchDue s k (getStream (getCore s k) st) st = none) : fetchOne s k st = none := by
  unfold fetchOne
  dsimp only
  rw [h]
  exact ite_self _

/-- A command fetched: its place, its words and its issue cycle. -/
def fetchedCommand (s : State) (k : Nat) (st : Stream) (ws : List Word) (n : Nat) : Fetched :=
  ⟨(getStream (getCore s k) st).fetchIdx, ws, ((getStream (getCore s k) st).fetchIdx + ws.length) % ringLen (getStream (getCore s k) st).ring, n, none⟩

/-- The stream with the command fetched. -/
def withFetched (s : State) (k : Nat) (st : Stream) (ws : List Word) (n : Nat) : StreamSt :=
  { getStream (getCore s k) st with
    fetched := (getStream (getCore s k) st).fetched ++ [fetchedCommand s k st ws n]
    fetchPrev := n
    brMin := 0
    fetchPtr := (fetchedCommand s k st ws n).next }

/-- The stream `y` is that of `s` with the command of words `ws` and issue cycle `n` fetched. -/
def HasFetched (s : State) (k : Nat) (st : Stream) (ws : List Word) (n : Nat) (y : StreamSt) : Prop :=
  y.fetched = (getStream (getCore s k) st).fetched ++ [fetchedCommand s k st ws n] ∧ y.fetchPrev = n ∧
    y.fetchPtr = (fetchedCommand s k st ws n).next ∧ y.seq = (getStream (getCore s k) st).seq ∧
    y.nextIdx = (getStream (getCore s k) st).nextIdx ∧ y.loops = (getStream (getCore s k) st).loops

theorem fetchOne_of_fetchDue {ws : List Word} {n : Nat} (hend : (getStream (getCore s k) st).ended = false)
    (hhold : (getStream (getCore s k) st).fetchHold = false) (h : fetchDue s k (getStream (getCore s k) st) st = some (ws, n, none)) :
    ∃ x : StreamSt, fetchOne s k st = some (setCore s k (setStream (getCore s k) st x)) ∧
      HasFetched s k st ws n x := by
  have hgo : ¬ ((getStream (getCore s k) st).ended || (getStream (getCore s k) st).fetchHold) = true := by simp [hend, hhold]
  refine ⟨_, ?_, fetchNext_keeps (withFetched s k st ws n) (fetchedCommand s k st ws n).next (decoded st ws)⟩
  unfold fetchOne
  dsimp only
  rw [if_neg hgo, h]
  rfl

/-- A stream that has fetched something is none of a blank core. -/
theorem setStream_ne_blank (c : CoreState) (st : Stream) {x : StreamSt} (hx : x.fetched ≠ []) : setStream c st x ≠ {} := fun h => by
  have hget := getStream_setStream_same c st x
  rw [h] at hget
  refine hx ?_
  rw [← hget]
  cases st <;> rfl

/-- A stream that is due fetches its command. -/
theorem commandFetch_due (hend : (getStream (getCore s k) st).ended = false) (hhold : (getStream (getCore s k) st).fetchHold = false)
    (hruns : RunsCycle s k) (hno : NoOtherWords s k st) (hwait : waitByte (nextWords s k st (getCore s k).spad) ≤ 0xFB)
    (hbr : (getStream (getCore s k) st).brMin ≤ nextCycle s k st (nextWords s k st (getCore s k).spad))
    (hdue : nextCycle s k st (nextWords s k st (getCore s k).spad) ≤ (getCore s k).dcc + 16) {n : Nat}
    (hn : n = max (nextCycle s k st (nextWords s k st (getCore s k).spad)) (getCore s k).dcc) :
    ∃ t : State, exec (.commandFetch k st) s = .next t ∧ t.agenda = .ev (.commandFetch k st) :: s.agenda ∧ t.mem = s.mem ∧
      HasFetched s k st (nextWords s k st (getCore s k).spad) n (getStream (getCore t k) st) := by
  subst hn
  obtain ⟨x, hone, hfetched⟩ := fetchOne_of_fetchDue hend hhold (fetchDue_due hno hwait hbr hdue)
  have hcore : getCore (setCore s k (setStream (getCore s k) st x)) k = setStream (getCore s k) st x :=
    getCore_setCore s k _ (setStream_ne_blank _ _ (by rw [hfetched.1]; simp))
  refine ⟨_, commandFetch_fetches (cyclesNow_iff.2 hruns) hone, rfl, rfl, ?_⟩
  have hget : getStream (getCore { setCore s k (setStream (getCore s k) st x) with agenda := .ev (.commandFetch k st) :: s.agenda } k) st = x :=
    (congrArg (getStream · st) hcore).trans (getStream_setStream_same _ _ _)
  exact (congrArg (HasFetched s k st _ _) hget).mpr hfetched

end

end Sys2Proof.Proofs
end

