-- ==== Sys2Proof/Proofs/KeptCores.lean ====
section
/-! PROOF. What a core and a domain keep while other operations of a cycle run. -/

namespace Sys2Proof.Proofs

open Sys2Proof Sys2Proof.Machine Sys2Proof.Claims Sys2Proof.Laws

section
variable {P Q : CoreState → Prop} {q k : Nat} {s : State}

/-- The tables are tidy, and core `q` has the property `P`. -/
structure CoreHas (P : CoreState → Prop) (q : Nat) (s : State) : Prop where
  tidy : Tidy s
  holds : P (getCore s q)

theorem getCore_sameCores {s t : State} (h : t.cores = s.cores) (k : Nat) : getCore t k = getCore s k := by
  rw [getCore, h]
  rfl

/-- What leaves the cores alone keeps the property. -/
theorem CoreHas.sameCores (h : CoreHas P q s) {t : State} (hcores : t.cores = s.cores) (ht : Tidy t) : CoreHas P q t :=
  ⟨ht, by rw [getCore_sameCores hcores]; exact h.holds⟩

theorem CoreHas.imp (h : CoreHas P q s) (hPQ : ∀ c, P c → Q c) : CoreHas Q q s := ⟨h.tidy, hPQ _ h.holds⟩

/-- A change of the core itself takes one property to another. -/
theorem CoreHas.ofSetCore {c : CoreState} (h : Tidy s) (hc : TidyCore c) (hQ : Q c) : CoreHas Q q (setCore s q c) :=
  ⟨tidy_setCore h hc, by rw [getCore_setCore_wf _ _ _ h.cores]; exact hQ⟩

theorem CoreHas.modOwn (h : CoreHas P q s) {f : CoreState → CoreState} (ht : ∀ c, TidyCore c → TidyCore (f c)) (hf : ∀ c, P c → Q (f c)) :
    CoreHas Q q (modCore s q f) := .ofSetCore h.tidy (ht _ (h.tidy.core q)) (hf _ h.holds)

theorem CoreHas.setOther (h : CoreHas P q s) (hq : q ≠ k) {c : CoreState} (hc : TidyCore c) : CoreHas P q (setCore s k c) :=
  ⟨tidy_setCore h.tidy hc, by rw [getCore_setCore_ne _ _ hq]; exact h.holds⟩

theorem CoreHas.modOther (h : CoreHas P q s) (hq : q ≠ k) {f : CoreState → CoreState} (ht : ∀ c, TidyCore c → TidyCore (f c)) :
    CoreHas P q (modCore s k f) := h.setOther hq (ht _ (h.tidy.core k))

theorem CoreHas.modAny (h : CoreHas P q s) {f : CoreState → CoreState} (ht : ∀ c, TidyCore c → TidyCore (f c)) (hf : ∀ c, P c → P (f c)) :
    CoreHas P q (modCore s k f) := by
  by_cases hq : q = k
  · subst hq
    exact h.modOwn ht hf
  · exact h.modOther hq ht

theorem CoreHas.foldl {α : Type} {f : State → α → State} {l : List α} (h : CoreHas P q s)
    (hf : ∀ t, ∀ a ∈ l, CoreHas P q t → CoreHas P q (f t a)) : CoreHas P q (l.foldl f s) := by
  induction l generalizing s with
  | nil => exact h
  | cons a r ih => exact ih (hf s a List.mem_cons_self h) fun t b hb => hf t b (List.mem_cons_of_mem _ hb)

/-- Where the core's own turn comes once, the property changes there. -/
theorem CoreHas.foldOnce {f : State → Nat → State} {l : List Nat} (h : CoreHas P q s) (hone : l.count q = 1)
    (hP : ∀ t k, k ≠ q → CoreHas P q t → CoreHas P q (f t k)) (hQ : ∀ t k, k ≠ q → CoreHas Q q t → CoreHas Q q (f t k))
    (hown : ∀ t, CoreHas P q t → CoreHas Q q (f t q)) : CoreHas Q q (l.foldl f s) := by
  induction l generalizing s with
  | nil => exact absurd hone (by simp)
  | cons k r ih =>
    by_cases hk : k = q
    · subst hk
      rw [List.count_cons_self] at hone
      have hnone : k ∉ r := List.count_eq_zero.1 (by omega)
      exact (hown s h).foldl fun t a ha => hQ t a fun e => hnone (e ▸ ha)
    · rw [List.count_cons_of_ne hk] at hone
      exact ih (hP s k hk h) hone

-- Faults (R313) --------------------------------------------------------------------------------------------------------------------------------

variable (st : Stream) (station evt code cause : Nat) (detail : List Word) (prog : Nat) (w23 w24 : Word)

/-- A property that neither a stop of the pair partner nor the note of a repaired access touches. -/
structure KeptBesideFaults (P : CoreState → Prop) : Prop where
  partner : ∀ c later st, P c → P { c with stop := some (joinStop c later st 0 0 [] 0 0 0) }
  repaired : ∀ c l, P c → P { c with repaired := l }

/-- A property that no stop touches. -/
structure KeptByFaults (P : CoreState → Prop) : Prop extends KeptBesideFaults P where
  stop : ∀ c later st code cause detail prog w23 w24, P c → P { c with stop := some (joinStop c later st code cause detail prog w23 w24) }

/-- Beyond its cores a fault changes nothing that a core holds. -/
theorem takeFaultFull_cores {d : Domain} (hd : domOf s k = some d) : (takeFaultFull s k st station evt code cause detail prog w23 w24).cores =
    (stoppedCores s k d st code cause detail prog w23 w24).cores := by
  obtain ⟨ds, h⟩ := takeFaultFull_rest (s := s) st station evt code cause detail prog w23 w24 hd
  rw [h]

theorem CoreHas.stopPartner (hP : KeptBesideFaults P) (h : CoreHas P q s) (d : Domain) (later : CoreState → Bool) :
    CoreHas P q (match partnerOf d k with
      | some p => modCore s p (fun c => { c with stop := some (joinStop c (later c) st 0 0 [] 0 0 0) })
      | none => s) := by
  cases partnerOf d k with
  | none => exact h
  | some p => exact h.modAny (fun _ hc => ⟨hc.form⟩) fun c => hP.partner c _ _

/-- The fault of another core. -/
theorem CoreHas.faultElsewhere (hP : KeptBesideFaults P) (h : CoreHas P q s) (hq : q ≠ k) :
    CoreHas P q (takeFaultFull s k st station evt code cause detail prog w23 w24) := by
  cases hd : domOf s k with
  | none =>
    rw [takeFaultFull, hd]
    exact h.modOther hq fun _ hc => ⟨hc.form⟩
  | some d =>
    have h1 := (CoreHas.stopPartner st hP (h.modOther hq (f := fun c => { c with stop := some (joinStop c (stoppedBefore c d) st code cause detail prog w23 w24) })
      fun _ hc => ⟨hc.form⟩) (k := k) d (stoppedBefore · d)).modOther hq (f := fun c => { c with repaired := accessOf st detail prog :: c.repaired }) fun _ hc => ⟨hc.form⟩
    exact CoreHas.sameCores h1 (takeFaultFull_cores st station evt code cause detail prog w23 w24 hd) (tidy_takeFaultFull h.tidy)

/-- The fault of the core itself. -/
theorem CoreHas.faultOwn (hQ : KeptBesideFaults Q) (h : CoreHas P q s)
    (hstop : ∀ c later, P c → Q { c with stop := some (joinStop c later st code cause detail prog w23 w24) }) :
    CoreHas Q q (takeFaultFull s q st station evt code cause detail prog w23 w24) := by
  cases hd : domOf s q with
  | none =>
    rw [takeFaultFull, hd]
    exact h.modOwn (fun _ hc => ⟨hc.form⟩) fun c => hstop c _
  | some d =>
    have h1 := (CoreHas.stopPartner st hQ (h.modOwn (f := fun c => { c with stop := some (joinStop c (stoppedBefore c d) st code cause detail prog w23 w24) })
      (fun _ hc => ⟨hc.form⟩) fun c => hstop c _) (k := q) d (stoppedBefore · d)).modOwn (f := fun c => { c with repaired := accessOf st detail prog :: c.repaired })
      (fun _ hc => ⟨hc.form⟩) fun c => hQ.repaired c _
    exact CoreHas.sameCores h1 (takeFaultFull_cores st station evt code cause detail prog w23 w24 hd) (tidy_takeFaultFull h.tidy)

/-- The fault of any core. -/
theorem CoreHas.faultAny (hP : KeptByFaults P) (h : CoreHas P q s) :
    CoreHas P q (takeFaultFull s k st station evt code cause detail prog w23 w24) := by
  by_cases hq : q = k
  · subst hq
    exact h.faultOwn st station evt code cause detail prog w23 w24 hP.toKeptBesideFaults fun c later => hP.stop c later _ _ _ _ _ _ _
  · exact h.faultElsewhere st station evt code cause detail prog w23 w24 hP.toKeptBesideFaults hq

end

-- Domains ------------------------------------------------------------------------------------------------------------------------------------------

section
variable {P : Domain → Prop} {s : State} {pid : Nat}

/-- The domain of a pour has the property `P`. -/
abbrev DomHas (P : Domain → Prop) (pid : Nat) (s : State) : Prop := ∃ d, findDom s pid = some d ∧ P d

theorem DomHas.modDom (h : DomHas P pid s) (p : Nat) {f : Domain → Domain} (hpid : ∀ d, (f d).pid = d.pid) (hf : ∀ d, P d → P (f d)) :
    DomHas P pid (modDom s p f) := by
  obtain ⟨d, hd, hP⟩ := h
  by_cases hp : pid = p
  · subst hp
    exact ⟨f d, by rw [findDom_modDom _ _ _ hpid, hd]; rfl, hf d hP⟩
  · exact ⟨d, by rw [findDom_modDom_ne _ _ hpid hp]; exact hd, hP⟩

theorem DomHas.foldl {α : Type} {f : State → α → State} {l : List α} (h : DomHas P pid s)
    (hf : ∀ t a, DomHas P pid t → DomHas P pid (f t a)) : DomHas P pid (l.foldl f s) := foldl_keeps (DomHas P pid) f hf l s h

/-- What leaves the domains alone keeps the property. -/
theorem DomHas.sameDomains (h : DomHas P pid s) {t : State} (ht : t.domains = s.domains) : DomHas P pid t := by
  obtain ⟨d, hd, hP⟩ := h
  exact ⟨d, by rw [findDom, ht]; exact hd, hP⟩

/-- A property that no hold and no fault touches. -/
structure KeptByHolds (P : Domain → Prop) : Prop where
  cause : ∀ d l f b, P d → P { d with causes := l, freeze := f, framed := b }
  doomed : ∀ d, P d → P { d with doomed := true }

theorem DomHas.raiseCause (hP : KeptByHolds P) (h : DomHas P pid s) (p : Nat) (c : Cause) : DomHas P pid (raiseCause s p c) := by
  refine DomHas.modDom h p (fun d => ?_) fun d hd => ?_
  · split <;> rfl
  · split
    · exact hP.cause d _ d.freeze _ hd
    · exact hP.cause d _ d.freeze _ hd
    · exact hP.cause d _ _ d.framed hd

theorem DomHas.takeFaultFull (hP : KeptByHolds P) (h : DomHas P pid s) (k : Nat) (st : Stream) (station evt code cause : Nat)
    (detail : List Word) (prog : Nat) (w23 w24 : Word) :
    DomHas P pid (takeFaultFull s k st station evt code cause detail prog w23 w24) := by
  cases hd : domOf s k with
  | none =>
    rw [Machine.takeFaultFull, hd]
    exact h.sameDomains rfl
  | some d =>
    have h1 : DomHas P pid (stoppedCores s k d st code cause detail prog w23 w24) := by
      obtain ⟨cs, hcs⟩ := stoppedCores_rest (s := s) (k := k) (d := d) st code cause detail prog w23 w24
      exact h.sameDomains (by rw [hcs])
    rw [takeFaultFull_eq st station evt code cause detail prog w23 w24 hd]
    dsimp only
    generalize stoppedCores s k d st code cause detail prog w23 w24 = t at h1
    have h2 : ∀ (b : Prop) [Decidable b] (c : Cause), DomHas P pid (if b then t else Machine.raiseCause t d.pid c) := fun b _ c => by
      split
      · exact h1
      · exact h1.raiseCause hP _ _
    split
    · exact h2 _ _
    · exact (h2 _ _).modDom _ (fun _ => rfl) hP.doomed

end

end Sys2Proof.Proofs
end

