-- ==== Sys2Proof/Proofs/FetchAndAdvance.lean ====
section
/-! PROOF. The end of a domain's cycle (R93, R149, R313): queues, pairs, debug stops, causes, and the advance. -/

namespace Sys2Proof.Proofs

open Sys2Proof Sys2Proof.Machine Sys2Proof.Claims Sys2Proof.Laws

section
variable {P : CoreState → Prop} {q : Nat} {s : State} {d : Domain}

/-- A property that neither trace records nor debug stops touch. -/
structure KeptByDebug (P : CoreState → Prop) : Prop where
  trace : ∀ c l, P c → P { c with trace := l }
  stops : ∀ c a b, P c → P { c with stopReq := a, stopTaken := b }

/-- A property that an entry in flight does not touch. -/
abbrev KeptByFlights (P : CoreState → Prop) : Prop := ∀ c l m, P c → P { c with inflight := l, leaving := m }

theorem CoreHas.traceRecord (hP : KeptByDebug P) (h : CoreHas P q s) (k : Nat) (ws : List Word) : CoreHas P q (traceRecord s k ws) := by
  have ht : Tidy (Machine.traceRecord s k ws) := tidy_traceRecord h.tidy
  unfold Machine.traceRecord at ht ⊢
  dsimp only at ht ⊢
  split
  · exact h.modAny (f := fun c => { c with trace := c.trace ++ [ws] }) (fun _ hc => ⟨hc.form⟩) fun c => hP.trace c _
  · rename_i hfull
    rw [if_neg hfull] at ht
    split
    · rename_i b hb
      rw [hb] at ht
      exact h.sameCores (by rw [hubWrite_eq]) ht
    · exact h

theorem CoreHas.insertRecord (hP : KeptByDebug P) (h : CoreHas P q s) (k pos : Nat) (r : List Word) : CoreHas P q (insertRecord s k pos r) := by
  unfold Machine.insertRecord
  dsimp only
  have hset : ∀ l : List (List Word), CoreHas P q (setCore s k { getCore s k with trace := l }) := fun l =>
    h.modAny (f := fun c => { c with trace := l }) (fun _ hc => ⟨hc.form⟩) fun c => hP.trace c _
  split
  · exact hset _
  · exact (hset _).traceRecord hP _ _

theorem CoreHas.raiseCause (h : CoreHas P q s) (p : Nat) (c : Cause) : CoreHas P q (raiseCause s p c) :=
  h.sameCores rfl (tidy_raiseCause h.tidy)

theorem CoreHas.takeLateStop (hP : KeptByDebug P) (h : CoreHas P q s) (k : Nat) : CoreHas P q (takeLateStop s d k) := by
  unfold Machine.takeLateStop
  dsimp only
  split
  · refine h.foldl fun t x _ ht => ?_
    exact ((ht.insertRecord hP k _ _).raiseCause _ _).modAny (fun _ hc => ⟨hc.form⟩) fun c => hP.stops c c.stopReq true
  · exact h

theorem CoreHas.settleStops (hP : KeptByDebug P) (h : CoreHas P q s) : CoreHas P q (settleStops s d) := by
  unfold Machine.settleStops
  have h1 : CoreHas P q (d.all.foldl (fun s k => Machine.takeLateStop s d k) s) := h.foldl fun t k _ ht => ht.takeLateStop hP k
  have h2 := h1.foldl (f := fun s k => modCore s k (fun c => { c with stopReq := c.stopReq && !c.stopTaken, stopTaken := false }))
    (l := d.all) fun t k _ ht => ht.modAny (fun _ hc => ⟨hc.form⟩) fun c => hP.stops c _ _
  exact h2.sameCores rfl (tidy_modDom h2.tidy)

theorem acquire_cores (s : State) (k lc : Nat) : (acquire s k lc).cores = s.cores := by
  unfold acquire
  dsimp only
  split <;> rfl

theorem clearCauses_cores (s : State) (pid : Nat) : (clearCauses s pid).cores = s.cores := by
  change (clearMet s pid).cores = s.cores
  unfold clearMet
  split
  · rfl
  · dsimp only
    split
    · rfl
    · exact foldl_keeps (fun t : State => t.cores = s.cores) _ (fun t c ht => (acquire_cores t c.core c.lc).trans ht) _ _ rfl

theorem CoreHas.clearCauses (h : CoreHas P q s) (pid : Nat) : CoreHas P q (clearCauses s pid) :=
  h.sameCores (clearCauses_cores s pid) (tidy_clearCauses h.tidy)

theorem CoreHas.addFlight (hP : KeptByFlights P) (h : CoreHas P q s) (k : Nat) (f : Flight) : CoreHas P q (addFlight s k f) :=
  h.modAny (f := fun c => { c with inflight := c.inflight ++ [f], leaving := if isOutward f.eff then c.leaving ++ [f] else c.leaving })
    (fun _ hc => ⟨hc.form⟩) fun c => hP c _ _

theorem CoreHas.suppress (hP : KeptByFlights P) (h : CoreHas P q s) (a b : Nat) (f : Flight) : CoreHas P q (suppress s d a b f) := by
  have hdrop : ∀ {t : State} (k : Nat) (p : Flight → Bool), CoreHas P q t →
      CoreHas P q (modCore t k fun c => { c with inflight := c.inflight.filter p }) := fun k p ht =>
    ht.modAny (fun _ hc => ⟨hc.form⟩) fun c => hP c _ c.leaving
  have h2 := hdrop b (fun g => !(samePlace f g && isOutward g.eff)) (hdrop a (fun g => !(samePlace f g && isOutward g.eff)) h)
  unfold Machine.suppress
  dsimp only
  split
  · split
    · split
      · exact h2.foldl fun t k _ ht => hdrop k _ ht
      · exact h2
    · exact h2
  · exact h2.sameCores rfl h2.tidy.lit
  · exact h2.sameCores rfl h2.tidy.lit
  · exact h2

theorem CoreHas.pairFault (hF : KeptByFaults P) (hP : KeptByFlights P) (h : CoreHas P q s) (k : Nat) (f : Flight) (other : List Flight) :
    CoreHas P q (pairFault s k f other) := by
  unfold Machine.pairFault
  dsimp only
  exact CoreHas.faultAny _ _ _ _ _ _ _ _ _ hF ((h.addFlight hP _ _).addFlight hP _ _)

theorem CoreHas.comparePairs (hF : KeptByFaults P) (hP : d.pairs ≠ [] → KeptByFlights P) (h : CoreHas P q s) :
    CoreHas P q (comparePairs s d) := by
  refine h.foldl fun t x hx ht => ?_
  have hflight := hP (List.ne_nil_of_mem hx)
  split
  · exact ht.foldl fun u f _ hu => (hu.suppress hflight _ _ _).pairFault hF hflight _ _ _
  · exact ht

theorem CoreHas.checkWaits (hF : KeptByFaults P) (h : CoreHas P q s) : CoreHas P q (checkWaits s d) := by
  unfold Machine.checkWaits
  dsimp only
  split
  · split
    · exact CoreHas.faultAny _ _ _ _ _ _ _ _ _ hF h
    · exact h
  · exact h

theorem CoreHas.checkQueue_ne (hF : KeptBesideFaults P) (h : CoreHas P q s) {k : Nat} (hk : k ≠ q) : CoreHas P q (checkQueue s k) := by
  unfold Machine.checkQueue
  dsimp only
  split
  · exact h
  · exact CoreHas.faultElsewhere _ _ _ _ _ _ _ _ _ hF (h.setOther hk.symm ⟨(h.tidy.core k).form⟩) hk.symm

end

-- Domains ------------------------------------------------------------------------------------------------------------------------------------------

section
variable {P : Domain → Prop} {pid : Nat} {s : State} {d : Domain}

/-- A property that no hold touches, whatever clears it. -/
structure KeptByClearing (P : Domain → Prop) : Prop extends KeptByHolds P where
  clear : ∀ d n l, P d → P { d with lastClear := n, causes := l }
  debug : ∀ d a b, P d → P { d with debugReq := a, debugTaken := b }

theorem DomHas.checkQueue (hP : KeptByHolds P) (h : DomHas P pid s) (k : Nat) : DomHas P pid (checkQueue s k) := by
  unfold Machine.checkQueue
  dsimp only
  split
  · exact h
  · exact DomHas.takeFaultFull hP (h.sameDomains (t := setCore s k _) rfl) _ _ _ _ _ _ _ _ _ _

theorem DomHas.checkWaits (hP : KeptByHolds P) (h : DomHas P pid s) : DomHas P pid (checkWaits s d) := by
  unfold Machine.checkWaits
  dsimp only
  split
  · split
    · exact h.takeFaultFull hP _ _ _ _ _ _ _ _ _ _
    · exact h
  · exact h

theorem dropBeat_domains (s : State) (d : Domain) (rel rcore : Nat) (j : Job) (i : Nat) : (dropBeat s d rel rcore j i).domains = s.domains := by
  unfold dropBeat
  exact foldl_keeps (fun t : State => t.domains = s.domains) _ (by intro t q ht; exact ht) _ _ rfl

theorem suppress_domains (s : State) (d : Domain) (a b : Nat) (f : Flight) : (suppress s d a b f).domains = s.domains := by
  unfold suppress
  dsimp only
  split
  · split
    · split
      · exact dropBeat_domains _ _ _ _ _ _
      · rfl
    · rfl
  · rfl
  · rfl
  · rfl

theorem DomHas.pairFault (hP : KeptByHolds P) (h : DomHas P pid s) (k : Nat) (f : Flight) (other : List Flight) :
    DomHas P pid (pairFault s k f other) := by
  unfold Machine.pairFault
  dsimp only
  exact DomHas.takeFaultFull hP (h.sameDomains (t := addFlight (addFlight s k _) k _) rfl) _ _ _ _ _ _ _ _ _ _

theorem DomHas.comparePairs (hP : KeptByHolds P) (h : DomHas P pid s) : DomHas P pid (comparePairs s d) := by
  refine h.foldl fun t x ht => ?_
  split
  · exact ht.foldl fun u f hu => (hu.sameDomains (suppress_domains _ _ _ _ _)).pairFault hP _ _ _
  · exact ht

theorem insertRecord_domains (s : State) (k pos : Nat) (r : List Word) : (insertRecord s k pos r).domains = s.domains := by
  unfold insertRecord
  dsimp only
  split
  · rfl
  · unfold traceRecord
    dsimp only
    split
    · rfl
    · split
      · rw [hubWrite_eq]
        rfl
      · rfl

theorem DomHas.settleStops (hP : KeptByClearing P) (h : DomHas P pid s) : DomHas P pid (settleStops s d) := by
  unfold Machine.settleStops
  have h1 : DomHas P pid (d.all.foldl (fun s k => takeLateStop s d k) s) := h.foldl fun t k ht => by
    unfold takeLateStop
    dsimp only
    split
    · refine ht.foldl fun u x hu => ?_
      exact ((hu.sameDomains (insertRecord_domains _ _ _ _)).raiseCause hP.toKeptByHolds _ _).sameDomains rfl
    · exact ht
  have h2 : DomHas P pid (d.all.foldl (fun s k => modCore s k (fun c => { c with stopReq := c.stopReq && !c.stopTaken, stopTaken := false }))
      (d.all.foldl (fun s k => takeLateStop s d k) s)) := h1.foldl fun t k ht => ht.sameDomains rfl
  exact h2.modDom _ (fun _ => rfl) fun d => hP.debug d _ _

theorem acquire_domains (s : State) (k lc : Nat) : (acquire s k lc).domains = s.domains := by
  unfold acquire
  dsimp only
  split <;> rfl

theorem DomHas.clearMet (hP : KeptByClearing P) (h : DomHas P pid s) (p : Nat) : DomHas P pid (clearMet s p) := by
  unfold Machine.clearMet
  split
  · exact h
  · dsimp only
    split
    · exact h
    · refine DomHas.foldl ?_ fun t c ht => ht.sameDomains (acquire_domains _ _ _)
      exact DomHas.modDom h p (fun _ => rfl) fun d => hP.clear d _ _

theorem clearOverrun_pid (d : Domain) (clock : Nat) : (clearOverrun d clock).pid = d.pid := by
  unfold clearOverrun
  split <;> rfl

theorem DomHas.clearCauses (hP : KeptByClearing P) (h : DomHas P pid s) (p : Nat) : DomHas P pid (clearCauses s p) := by
  refine (h.clearMet hP p).modDom p (fun d => clearOverrun_pid d _) fun d hd => ?_
  unfold clearOverrun
  split
  · exact hP.clear d _ _ hd
  · exact hd

theorem keptByClearing_dcc (n : Nat) : KeptByClearing (fun d => d.dcc = n) := ⟨⟨fun _ _ _ _ h => h, fun _ h => h⟩, fun _ _ _ h => h, fun _ _ _ h => h⟩

end

-- The advance --------------------------------------------------------------------------------------------------------------------------------------

section
variable {q : Nat} {s : State} {d : Domain}

theorem endCore_stop (c : CoreState) : (endCore c).stop = c.stop := by
  unfold endCore
  dsimp only
  split <;> rfl

theorem endCore_dcc (c : CoreState) : (endCore c).dcc = if c.stop = none then c.dcc + 1 else c.dcc := by
  unfold endCore
  dsimp only
  cases h : c.stop with
  | none =>
    rw [if_neg (by simp [orderRecords]), if_pos rfl]
    rfl
  | some x =>
    rw [if_pos (by simp [orderRecords]), if_neg (by simp)]
    rfl

theorem endCore_fq (c : CoreState) : (endCore c).fq = c.fq := by
  unfold endCore
  dsimp only
  split <;> rfl

theorem endCore_sregs (c : CoreState) : (endCore c).sregs = c.sregs := by
  unfold endCore
  dsimp only
  split <;> rfl

theorem endCore_inflight (c : CoreState) : (endCore c).inflight = c.inflight := by
  unfold endCore
  dsimp only
  split <;> rfl

/-- A core that has stopped on the overflow of its format queue (R149). -/
def StoppedByQueue (c : CoreState) : Prop := ∃ y, c.stop = some y ∧ y.code = 0x06 ∧ y.stream = .cc

/-- What the end of a cycle keeps of the core `a` up to its advance. -/
structure SameRun (pairs : List (Nat × Nat)) (a c : CoreState) : Prop where
  dcc : c.dcc = a.dcc
  sregs : c.sregs = a.sregs
  inflight : pairs = [] → c.inflight = a.inflight

/-- Before its queue is looked at, a core that no fault has stopped may have stopped with its pair partner alone. -/
structure BeforeQueue (pairs : List (Nat × Nat)) (a c : CoreState) : Prop extends SameRun pairs a c where
  fq : c.fq = a.fq
  stop : a.stop = none → ∀ y, c.stop = some y → y.code = 0

/-- After it the queue has 16 words at most, and has stopped the core if it had more. -/
structure AfterQueue (pairs : List (Nat × Nat)) (a c : CoreState) : Prop extends SameRun pairs a c where
  fq : c.fq = a.fq.take 16
  longer : 16 < a.fq.length → c.stop ≠ none ∧ (a.stop = none → StoppedByQueue c)

theorem joinStop_code_zero {c : CoreState} (h : ∀ y, c.stop = some y → y.code = 0) (later : Bool) (st : Stream) :
    (joinStop c later st 0 0 [] 0 0 0).code = 0 := by
  cases hc : c.stop with
  | none => rw [joinStop_first hc]
  | some p =>
    have hp := h p hc
    unfold joinStop
    rw [hc]
    dsimp only
    cases later with
    | true => simp [hp]
    | false => simp [hp]

/-- An overflow is the fault of a core that has stopped with its partner alone, or not at all. -/
theorem joinStop_queue {c : CoreState} (h : ∀ y, c.stop = some y → y.code = 0) (later : Bool) (detail : List Word) :
    (joinStop c later .cc fFqOver 0 detail 0 0 0).code = 0x06 ∧ (joinStop c later .cc fFqOver 0 detail 0 0 0).stream = .cc := by
  cases hc : c.stop with
  | none =>
    rw [joinStop_first hc]
    exact ⟨rfl, rfl⟩
  | some p =>
    have hp := h p hc
    unfold joinStop
    rw [hc]
    dsimp only
    cases later with
    | true =>
      rw [if_pos rfl, if_pos ⟨by decide, .inl hp⟩]
      exact ⟨rfl, rfl⟩
    | false =>
      rw [if_neg (by decide), if_pos (.inl hp)]
      exact ⟨rfl, rfl⟩

/-- No later fault takes the place of an overflow: the stream cc comes first (R147). -/
theorem stoppedByQueue_joinStop {c : CoreState} (h : StoppedByQueue c) (later : Bool) (st : Stream) (code cause : Nat) (detail : List Word)
    (prog : Nat) (w23 w24 : Word) : StoppedByQueue { c with stop := some (joinStop c later st code cause detail prog w23 w24) } := by
  obtain ⟨y, hy, hcode, hst⟩ := h
  refine ⟨_, rfl, ?_⟩
  unfold joinStop
  rw [hy]
  dsimp only
  cases later with
  | true =>
    rw [if_pos rfl, if_neg (by rw [hcode]; simp [isDeferred, fRangeMiss, fResidency])]
    exact ⟨hcode, hst⟩
  | false =>
    rw [if_neg (by decide), if_neg (by rw [hcode, hst]; simp [Stream.code])]
    exact ⟨hcode, hst⟩

theorem keptBesideFaults_beforeQueue (pairs : List (Nat × Nat)) (a : CoreState) : KeptBesideFaults (BeforeQueue pairs a) where
  partner c later st h := ⟨⟨h.dcc, h.sregs, h.inflight⟩, h.fq, fun ha y hy => by
    obtain rfl := Option.some.inj hy
    exact joinStop_code_zero (h.stop ha) later st⟩
  repaired c l h := ⟨⟨h.dcc, h.sregs, h.inflight⟩, h.fq, h.stop⟩

theorem keptByFaults_afterQueue (pairs : List (Nat × Nat)) (a : CoreState) : KeptByFaults (AfterQueue pairs a) where
  partner c later st h := ⟨⟨h.dcc, h.sregs, h.inflight⟩, h.fq, fun hq => ⟨by simp, fun ha =>
    stoppedByQueue_joinStop ((h.longer hq).2 ha) later st 0 0 [] 0 0 0⟩⟩
  repaired c l h := ⟨⟨h.dcc, h.sregs, h.inflight⟩, h.fq, h.longer⟩
  stop c later st code cause detail prog w23 w24 h := ⟨⟨h.dcc, h.sregs, h.inflight⟩, h.fq, fun hq => ⟨by simp, fun ha =>
    stoppedByQueue_joinStop ((h.longer hq).2 ha) later st code cause detail prog w23 w24⟩⟩

theorem keptByDebug_afterQueue (pairs : List (Nat × Nat)) (a : CoreState) : KeptByDebug (AfterQueue pairs a) where
  trace _ _ h := ⟨⟨h.dcc, h.sregs, h.inflight⟩, h.fq, h.longer⟩
  stops _ _ _ h := ⟨⟨h.dcc, h.sregs, h.inflight⟩, h.fq, h.longer⟩

/-- A core's own turn: its queue is cut, and a longer one stops it. -/
theorem CoreHas.checkQueue_own {pairs : List (Nat × Nat)} {a : CoreState} (h : CoreHas (BeforeQueue pairs a) q s) :
    CoreHas (AfterQueue pairs a) q (checkQueue s q) := by
  unfold Machine.checkQueue
  dsimp only
  have hfq := h.holds.fq
  split
  · rename_i hlen
    refine h.imp fun c hc => ?_
    rw [hfq] at hlen
    exact ⟨hc.toSameRun, by rw [hc.fq, List.take_of_length_le hlen], fun hq => absurd hq (Nat.not_lt.2 hlen)⟩
  · have hcut : CoreHas (fun c => SameRun pairs a c ∧ c.fq = a.fq.take 16 ∧ (a.stop = none → ∀ y, c.stop = some y → y.code = 0)) q
        (setCore s q { getCore s q with fq := (getCore s q).fq.take 16 }) :=
      .ofSetCore h.tidy ⟨(h.tidy.core q).form⟩
        ⟨⟨h.holds.dcc, h.holds.sregs, h.holds.inflight⟩, congrArg (List.take 16) hfq, h.holds.stop⟩
    refine CoreHas.faultOwn _ _ _ _ _ _ _ _ _ (keptByFaults_afterQueue pairs a).toKeptBesideFaults hcut ?_
    rintro c later ⟨hrun, hc, hstop⟩
    exact ⟨⟨hrun.dcc, hrun.sregs, hrun.inflight⟩, hc, fun _ => ⟨by simp, fun ha => ⟨_, rfl, joinStop_queue (hstop ha) later _⟩⟩⟩

/-- What the advance leaves of the core `a`. -/
structure Advanced (pairs : List (Nat × Nat)) (a c : CoreState) : Prop where
  dcc : c.dcc = if c.stop = none then a.dcc + 1 else a.dcc
  fq : c.fq = a.fq.take 16
  longer : 16 < a.fq.length → c.stop ≠ none ∧ (a.stop = none → StoppedByQueue c)
  inflight : pairs = [] → c.inflight = a.inflight
  sregs : c.sregs = a.sregs

theorem AfterQueue.endCore {pairs : List (Nat × Nat)} {a c : CoreState} (h : AfterQueue pairs a c) : Advanced pairs a (endCore c) where
  dcc := by rw [endCore_dcc, endCore_stop, h.dcc]
  fq := (endCore_fq c).trans h.fq
  longer hq := by
    unfold StoppedByQueue
    rw [endCore_stop]
    exact h.longer hq
  inflight hp := (endCore_inflight c).trans (h.inflight hp)
  sregs := (endCore_sregs c).trans h.sregs

/-- A core of the domain that runs its cycle advances. -/
theorem advanceDomain_core (ht : Tidy s) (hone : d.all.count q = 1) (hlive : liveIn s d q = true) :
    Advanced d.pairs (getCore s q) (getCore (advanceDomain s d) q) := by
  have hcount : (d.all.filter fun k => liveIn s d k).count q = 1 := by rw [List.count_filter hlive, hone]
  have hstart : CoreHas (BeforeQueue d.pairs (getCore s q)) q s := ⟨ht, ⟨rfl, rfl, fun _ => rfl⟩, rfl, fun ha y hy => by rw [ha] at hy; cases hy⟩
  have hfault := keptByFaults_afterQueue d.pairs (getCore s q)
  have hqueue : CoreHas (AfterQueue d.pairs (getCore s q)) q ((d.all.filter fun k => liveIn s d k).foldl checkQueue s) :=
    hstart.foldOnce hcount (fun t k hk hc => hc.checkQueue_ne (keptBesideFaults_beforeQueue _ _) hk)
      (fun t k hk hc => hc.checkQueue_ne hfault.toKeptBesideFaults hk) fun t hc => hc.checkQueue_own
  have hpairs := hqueue.comparePairs (d := d) hfault fun hne c l m h => ⟨⟨h.dcc, h.sregs, fun hp => absurd hp hne⟩, h.fq, h.longer⟩
  have hcleared := (((hpairs.checkWaits (d := d) hfault).settleStops (d := d) (keptByDebug_afterQueue _ _)).clearCauses d.pid)
  have hend := hcleared.foldOnce (Q := Advanced d.pairs (getCore s q)) (f := fun s k => modCore s k endCore) hcount
    (fun t k hk hc => hc.modOther hk.symm fun _ => tidyCore_endCore) (fun t k hk hc => hc.modOther hk.symm fun _ => tidyCore_endCore)
    fun t hc => hc.modOwn (fun _ => tidyCore_endCore) fun c => AfterQueue.endCore
  exact hend.holds

/-- No other core's counter moves. -/
theorem advanceDomain_dcc_of_notMem (ht : Tidy s) (hq : q ∉ d.all) : (getCore (advanceDomain s d) q).dcc = (getCore s q).dcc := by
  have hnot : ∀ k ∈ d.all.filter fun k => liveIn s d k, k ≠ q := fun k hk e => hq (e ▸ (List.mem_filter.1 hk).1)
  have hfault : KeptByFaults (fun c => c.dcc = (getCore s q).dcc) := ⟨⟨fun _ _ _ h => h, fun _ _ h => h⟩, fun _ _ _ _ _ _ _ _ _ h => h⟩
  have hqueue : CoreHas (fun c => c.dcc = (getCore s q).dcc) q ((d.all.filter fun k => liveIn s d k).foldl checkQueue s) :=
    CoreHas.foldl ⟨ht, rfl⟩ fun t k hk hc => hc.checkQueue_ne hfault.toKeptBesideFaults (hnot k hk)
  have hpairs := hqueue.comparePairs (d := d) hfault fun _ _ _ _ h => h
  have hcleared := ((hpairs.checkWaits (d := d) hfault).settleStops (d := d) ⟨fun _ _ h => h, fun _ _ _ h => h⟩).clearCauses d.pid
  exact (hcleared.foldl fun t k hk hc => hc.modOther (hnot k hk).symm fun _ => tidyCore_endCore).holds

/-- The domain's counter advances. -/
theorem advanceDomain_domain {pid : Nat} (hd : findDom s pid = some d) : DomHas (fun e => e.dcc = d.dcc + 1) pid (advanceDomain s d) := by
  have hP := keptByClearing_dcc d.dcc
  have hpid := findDom_pid hd
  have h0 : DomHas (fun e => e.dcc = d.dcc) pid s := ⟨d, hd, rfl⟩
  have h1 : DomHas (fun e => e.dcc = d.dcc) pid ((d.all.filter fun k => liveIn s d k).foldl checkQueue s) :=
    h0.foldl fun t k h => h.checkQueue hP.toKeptByHolds k
  have h2 := ((((h1.comparePairs (d := d) hP.toKeptByHolds).checkWaits (d := d) hP.toKeptByHolds).settleStops (d := d) hP).clearCauses hP d.pid)
  obtain ⟨e, he, hdcc⟩ := h2.foldl (f := fun s k => modCore s k endCore) (l := d.all.filter fun k => liveIn s d k) fun t k h => h.sameDomains rfl
  have hfind : ∀ (t : State) (f : Domain → Domain), (∀ d, (f d).pid = d.pid) → findDom t pid = some e → findDom (modDom t d.pid f) pid = some (f e) :=
    fun t f hf he => by rw [hpid, findDom_modDom _ _ _ hf, he]; rfl
  exact ⟨_, hfind _ _ (fun _ => rfl) he, congrArg (· + 1) hdcc⟩

end

/-- Settles O52: the fetch of a stream, and the advance of its domain. -/
theorem fetchAndAdvance : Obligations.FetchAndAdvance := by
  unfold Obligations.FetchAndAdvance
  intro s k st
  dsimp only
  refine ⟨fun h => ?_, fun hend hhold hruns hno hwait hbr => ⟨fun hearly => ?_, fun hdue => ?_⟩, fun pid d ht hd hcyc => ?_⟩
  · rcases h with h | h | h
    · exact commandFetch_idle (.inr (fetchOne_none (.inl h)))
    · exact commandFetch_idle (.inr (fetchOne_none (.inr h)))
    · exact commandFetch_idle (.inl (Bool.eq_false_iff.2 fun hc => by
        obtain ⟨d, hd, hcl⟩ := cyclesNow_iff.1 hc
        exact h d hd hcl))
  · exact commandFetch_idle (.inr (fetchOne_of_fetchDue_none (fetchDue_early hno hwait hbr hearly)))
  · obtain ⟨t, hexec, hagenda, hmem, h1, h2, h3, h4, h5, h6⟩ := commandFetch_due hend hhold hruns hno hwait hbr hdue rfl
    exact ⟨t, hexec, hagenda, hmem, h1, h2, h3, h4, h5, h6⟩
  · obtain ⟨e, he, hdcc⟩ := advanceDomain_domain hd
    refine ⟨advanceDomain s d, e, ?_, he, hdcc, fun q hone hlive => ?_, fun q hq => advanceDomain_dcc_of_notMem ⟨ht⟩ hq⟩
    · change execDccAdvance pid s = _
      rw [execDccAdvance, inCycle, hd]
      dsimp only
      rw [if_pos hcyc]
    · have h := advanceDomain_core ⟨ht⟩ hone hlive
      exact ⟨h.dcc, h.fq, h.longer, h.inflight, h.sregs⟩

end Sys2Proof.Proofs
end

