-- ==== Sys2Proof/Proofs/HubRequests.lean ====
section
/-! PROOF. What reaches the hub and a core's table of ranges (R177, R178, R277, R300, R301). -/

namespace Sys2Proof.Proofs

open Sys2Proof Sys2Proof.Machine Sys2Proof.Claims Sys2Proof.Laws

section
variable {s : State} {k : Nat} {d : Domain}

/-- A core's part of a cycle that it runs. -/
theorem coreCycle_runs (hd : findDom s (getCore s k).pid = some d) (hcyc : d.cycling = true) (hlive : liveIn s d k = true)
    (f : State → Domain → State) : coreCycle s k f = .next (f s d) := by
  rw [coreCycle, inCycle, hd]
  dsimp only
  rw [if_pos hcyc, if_pos hlive]

/-- The core with the entries of a kind that fall due taken out of its queue. -/
abbrev coreBeside (c : CoreState) (cyc : Nat) (p : Effect → Bool) : CoreState := { c with inflight := stays c cyc p }

/-- One request, once it is taken out of the queue. -/
theorem hubRequests_one {p : Effect → Bool} {f : Flight} (hprim : primaryOf d k = k) (hdue : (dueOf (getCore s k) d.dcc p).1 = [f]) :
    hubRequests s d k p = hubRequest (setCore s k (coreBeside (getCore s k) d.dcc p)) k f := by
  have hrest : (dueOf (getCore s k) d.dcc p).2 = coreBeside (getCore s k) d.dcc p := rfl
  unfold hubRequests
  dsimp only
  rw [if_pos hprim, hdue, hrest, List.foldl_cons, List.foldl_nil]

theorem domOf_setCore (ht : Tidy s) {c : CoreState} (hpid : c.pid = (getCore s k).pid) : domOf (setCore s k c) k = domOf s k := by
  unfold domOf
  rw [getCore_setCore_wf _ _ _ ht.cores, hpid]
  rfl

-- Moulds (R178, R300) --------------------------------------------------------------------------------------------------------------------------

/-- A mould written reads back, where it is no empty one. -/
theorem getMould_modPkg (s : State) (pkg no : Nat) {m : List Word} (hm : m ≠ []) (n : Nat) :
    getMould (modPkg s pkg fun p => { p with moulds := Sparse.set [] p.moulds no m }) pkg n = if n = no then m else getMould s pkg n := by
  have hget : Sparse.get [] (Sparse.set [] (getPkg s pkg).moulds no m) no = m := get_set_same _ _ _ _ hm
  have hne : { getPkg s pkg with moulds := Sparse.set [] (getPkg s pkg).moulds no m } ≠ ({} : Pkg) := fun h => by
    have hnil := congrArg Pkg.moulds h
    dsimp only at hnil
    rw [hnil] at hget
    exact hm hget.symm
  unfold getMould modPkg
  rw [getPkg_setPkg _ _ _ hne]
  dsimp only
  split
  · rename_i h
    rw [h, hget]
  · rename_i h
    exact get_set_ne _ _ _ h

-- The pool (R177, R301) ------------------------------------------------------------------------------------------------------------------------

/-- A pool entry that a pour waits in. -/
abbrev EntryTaken (p : Part) (e : Nat) : Prop := ∃ a ∈ p.pool, a.entry = e

theorem entryTaken_iff (p : Part) (e : Nat) : (p.pool.any fun a => a.entry == e) = true ↔ EntryTaken p e := by
  simp only [List.any_eq_true, beq_iff_eq]

theorem freeEntry_none {p : Part} (h : ∀ e, e < 64 → EntryTaken p e) : freeEntry p = none := by
  refine List.find?_eq_none.2 fun e he => ?_
  rw [(entryTaken_iff p e).2 (h e (List.mem_range.1 he))]
  decide

/-- The lowest free entry (log 91). -/
theorem freeEntry_lowest {p : Part} {e : Nat} (he : e < 64) (hfree : ¬ EntryTaken p e) (hlow : ∀ q, q < e → EntryTaken p q) :
    freeEntry p = some e := by
  unfold freeEntry
  rw [show (64 : Nat) = e + (64 - e) by omega, List.range_add, List.find?_append, List.find?_eq_none.2, Option.none_or,
    show 64 - e = 63 - e + 1 by omega, List.range_succ_eq_map, List.map_cons, List.find?_cons_of_pos]
  · rfl
  · rw [Nat.add_zero, Bool.eq_false_iff.2 (mt (entryTaken_iff p e).1 hfree)]
    rfl
  · intro q hq
    rw [(entryTaken_iff p q).2 (hlow q (List.mem_range.1 hq))]
    decide

theorem armMould_foreign {pkg part no : Nat} (h : mouldOwned (getMould s pkg no) part = false) : armMould s pkg part no = (s, 2) := if_pos h

theorem armMould_full {pkg part no : Nat} (h : mouldOwned (getMould s pkg no) part = true)
    (hfull : (getPart s pkg part).arming = false ∨ freeEntry (getPart s pkg part) = none) : armMould s pkg part no = (s, 1) := by
  unfold armMould
  dsimp only
  rw [if_neg (by simp [h])]
  split
  · rfl
  · rename_i harm
    rw [hfull.resolve_left harm]

theorem armMould_arms {pkg part no e : Nat} (h : mouldOwned (getMould s pkg no) part = true) (harm : (getPart s pkg part).arming = true)
    (hfree : freeEntry (getPart s pkg part) = some e) :
    armMould s pkg part no = (poolAdd s pkg part no e (getMould s pkg no), toWord (e * 2 ^ 8)) := by
  unfold armMould
  dsimp only
  rw [if_neg (by simp [h]), if_neg (by simp [harm]), hfree]

/-- A partition written reads back, where it is not blank. -/
theorem getPart_modPart (s : State) (pkg part : Nat) {f : Part → Part} (hf : f (getPart s pkg part) ≠ {}) :
    getPart (modPart s pkg part f) pkg part = f (getPart s pkg part) := by
  have hget : Sparse.get {} (Sparse.set {} (getPkg s pkg).parts part (f (getPart s pkg part))) part = f (getPart s pkg part) :=
    get_set_same _ _ _ _ hf
  have hne : { getPkg s pkg with parts := Sparse.set {} (getPkg s pkg).parts part (f (getPart s pkg part)) } ≠ ({} : Pkg) := fun h => by
    have hnil : Sparse.set {} (getPkg s pkg).parts part (f (getPart s pkg part)) = [] := congrArg Pkg.parts h
    rw [hnil] at hget
    exact hf hget.symm
  exact (congrArg (fun p : Pkg => Sparse.get {} p.parts part) (getPkg_setPkg s pkg _ hne)).trans hget

/-- The pour that an arm lets wait in the pool of a partition. -/
def armed (clock : Nat) (p : Part) (pkg part no e : Nat) (m : List Word) : Armed :=
  { pid := pourKey pkg (nextPid p part), part := part, mouldNo := no, mould := m, entry := e, since := clock }

theorem getPart_poolAdd (s : State) (pkg part no e : Nat) (m : List Word) : getPart (poolAdd s pkg part no e m) pkg part =
    { getPart s pkg part with
      arms := (getPart s pkg part).arms + 1
      pool := (getPart s pkg part).pool ++ [armed s.clock (getPart s pkg part) pkg part no e m] } := by
  refine getPart_modPart s pkg part (f := fun p => { p with arms := p.arms + 1, pool := p.pool ++ [armed s.clock p pkg part no e m] }) fun h => ?_
  exact List.append_ne_nil_of_right_ne_nil _ (List.cons_ne_nil _ _) (congrArg Part.pool h)

/-- The answer of an arm. -/
theorem hubRequest_arm (hd : domOf s k = some d) (hpart : partnerOf d k = none) {f : Flight} {r : SReg} {no : Nat} (hf : f.eff = .arm r no)
    {t : State} {v : Word} (harm : armMould s (pkgOf k) d.part no = (t, v)) (htd : domOf t k = some d) :
    hubRequest s k f = addFlight t k { f with eff := .sreg r v } := by
  unfold hubRequest
  rw [hf]
  dsimp only
  rw [show ownPart s k = d.part by rw [ownPart, hd], harm]
  dsimp only
  rw [htd]
  dsimp only
  rw [addBoth, bothOf, hpart]
  rfl

-- Range changes (R277) -------------------------------------------------------------------------------------------------------------------------

/-- RINV as the address that it names, RRES and RRET as the change that they make. -/
def rinvOf (f : Flight) : Option (Nat × Nat) := match f.eff with | .rinv x a => some (x, a) | _ => none
def rresOf (f : Flight) : Option (Nat × Nat × Word × Bool) := match f.eff with | .rres x a m z => some (x, a, m, z) | _ => none
def rretOf (f : Flight) : Option (Nat × Nat × Word) := match f.eff with | .rret x a o => some (x, a, o) | _ => none

/-- The entry at `a` of the ASID `x`. -/
abbrev Named (e : RangeEntry) (x a : Nat) : Prop := e.ctl.toNat % 2 = 1 ∧ e.ctl.toNat / 2 ^ 8 % 2 ^ 12 = x ∧ e.base.toNat = a

/-- What RRES and RRET make of an entry. -/
def resChange (e : RangeEntry) (x : Nat × Nat × Word × Bool) : RangeEntry :=
  if Named e x.1 x.2.1 then { e with res := if x.2.2.2 then e.res &&& ~~~x.2.2.1 else e.res ||| x.2.2.1 } else e
def retChange (e : RangeEntry) (x : Nat × Nat × Word) : RangeEntry := if Named e x.1 x.2.1 then { e with off := x.2.2 } else e

theorem named_iff (e : RangeEntry) (x a : Nat) : (e.valid ∧ e.asid = x ∧ e.base.toNat = a) ↔ Named e x a := by
  simp only [RangeEntry.valid, RangeEntry.asid, bits, beq_iff_eq, pow_zero, Nat.div_one, pow_one]

theorem resEdit_eq (x a : Nat) (m : Word) (z : Bool) (e : RangeEntry) : resEdit x a m z e = resChange e (x, a, m, z) := if_congr (named_iff e x a) rfl rfl

theorem retEdit_eq (x a : Nat) (o : Word) (e : RangeEntry) : retEdit x a o e = retChange e (x, a, o) := if_congr (named_iff e x a) rfl rfl

/-- The RINVs of a cycle take away the entries that hold an address they name. -/
theorem applyReach_rinvs (l : List Flight) (hl : ∀ f ∈ l, isRinv f.eff = true) (c : CoreState) : (l.foldl (fun c f => applyReach c f.eff) c).ranges =
    c.ranges.filter fun p => !(l.filterMap rinvOf).any fun x => p.2.holds x.1 x.2 := by
  induction l generalizing c with
  | nil => simp
  | cons f r ih =>
    obtain ⟨x, a, hf⟩ : ∃ x a, f.eff = .rinv x a := by
      have h := hl f List.mem_cons_self
      cases he : f.eff with
      | rinv x a => exact ⟨x, a, rfl⟩
      | _ => rw [he] at h; cases h
    have hof : rinvOf f = some (x, a) := by rw [rinvOf, hf]
    rw [List.foldl_cons, ih (fun g hg => hl g (List.mem_cons_of_mem _ hg)), List.filterMap_cons_some hof]
    change ((applyReach c f.eff).ranges).filter _ = _
    rw [hf]
    simp only [applyReach, List.filter_filter, List.any_cons, Bool.not_or, Bool.and_comm]

/-- The RRESs of a cycle change every entry in their order. -/
theorem applyReach_rress (l : List Flight) (hl : ∀ f ∈ l, isRres f.eff = true) (c : CoreState) : (l.foldl (fun c f => applyReach c f.eff) c).ranges =
    c.ranges.map fun p => (p.1, (l.filterMap rresOf).foldl resChange p.2) := by
  induction l generalizing c with
  | nil => simp
  | cons f r ih =>
    obtain ⟨x, a, m, z, hf⟩ : ∃ x a m z, f.eff = .rres x a m z := by
      have h := hl f List.mem_cons_self
      cases he : f.eff with
      | rres x a m z => exact ⟨x, a, m, z, rfl⟩
      | _ => rw [he] at h; cases h
    have hof : rresOf f = some (x, a, m, z) := by rw [rresOf, hf]
    rw [List.foldl_cons, ih (fun g hg => hl g (List.mem_cons_of_mem _ hg)), List.filterMap_cons_some hof, hf]
    simp only [applyReach, editTable, List.map_map, resEdit_eq, List.foldl_cons, Function.comp_def]

/-- The RRETs of a cycle likewise. -/
theorem applyReach_rrets (l : List Flight) (hl : ∀ f ∈ l, isRret f.eff = true) (c : CoreState) : (l.foldl (fun c f => applyReach c f.eff) c).ranges =
    c.ranges.map fun p => (p.1, (l.filterMap rretOf).foldl retChange p.2) := by
  induction l generalizing c with
  | nil => simp
  | cons f r ih =>
    obtain ⟨x, a, o, hf⟩ : ∃ x a o, f.eff = .rret x a o := by
      have h := hl f List.mem_cons_self
      cases he : f.eff with
      | rret x a o => exact ⟨x, a, o, rfl⟩
      | _ => rw [he] at h; cases h
    have hof : rretOf f = some (x, a, o) := by rw [rretOf, hf]
    rw [List.foldl_cons, ih (fun g hg => hl g (List.mem_cons_of_mem _ hg)), List.filterMap_cons_some hof, hf]
    simp only [applyReach, editTable, List.map_map, retEdit_eq, List.foldl_cons, Function.comp_def]

theorem mem_insFlight {f g : Flight} {l : List Flight} (h : g ∈ insFlight f l) : g = f ∨ g ∈ l := by
  induction l with
  | nil => exact .inl (List.mem_singleton.1 h)
  | cons a r ih =>
    unfold insFlight at h
    split at h
    · exact List.mem_cons.1 h
    · rcases List.mem_cons.1 h with rfl | h
      · exact .inr List.mem_cons_self
      · exact (ih h).imp_right (List.mem_cons_of_mem _)

theorem mem_sortFlights {g : Flight} {l : List Flight} (h : g ∈ sortFlights l) : g ∈ l := by
  induction l with
  | nil => exact h
  | cons a r ih => exact List.mem_cons.2 ((mem_insFlight h).imp_right ih)

theorem dueOf_kind {c : CoreState} {cyc : Nat} {p : Effect → Bool} : ∀ f ∈ (dueOf c cyc p).1, p f.eff = true := fun _ hf =>
  (Bool.and_eq_true_iff.1 (List.mem_filter.1 (mem_sortFlights hf)).2).2

/-- Entries of another kind taken out do not count. -/
theorem dueOf_beside {c : CoreState} {cyc : Nat} {p q : Effect → Bool} (h : ∀ e, p e = true → q e = false) :
    (dueOf (coreBeside c cyc q) cyc p).1 = (dueOf c cyc p).1 := by
  unfold dueOf
  dsimp only
  rw [stays, List.filter_filter]
  congr 1
  refine List.filter_congr fun f _ => ?_
  cases hp : p f.eff with
  | false => simp
  | true => simp [h _ hp]

theorem not_isRinv_of_isRres {e : Effect} (h : isRres e = true) : isRinv e = false := by
  cases e with
  | rres => rfl
  | _ => cases h

theorem not_of_isRret {e : Effect} (h : isRret e = true) : isRinv e = false ∧ isRres e = false := by
  cases e with
  | rret => exact ⟨rfl, rfl⟩
  | _ => cases h

/-- The table of a core once the changes of the cycle have reached it. -/
theorem reachRanges_ranges (ht : Tidy s) : (getCore (reachRanges s k) k).ranges =
    ((getCore s k).ranges.filter fun p => !((dueOf (getCore s k) (getCore s k).dcc isRinv).1.filterMap rinvOf).any fun x => p.2.holds x.1 x.2).map
      fun p => (p.1, ((dueOf (getCore s k) (getCore s k).dcc isRret).1.filterMap rretOf).foldl retChange
        (((dueOf (getCore s k) (getCore s k).dcc isRres).1.filterMap rresOf).foldl resChange p.2)) := by
  have hres : (dueOf (coreBeside (getCore s k) (getCore s k).dcc isRinv) (getCore s k).dcc isRres).1 = (dueOf (getCore s k) (getCore s k).dcc isRres).1 :=
    dueOf_beside fun _ => not_isRinv_of_isRres
  have hret : (dueOf (coreBeside (coreBeside (getCore s k) (getCore s k).dcc isRinv) (getCore s k).dcc isRres) (getCore s k).dcc isRret).1 =
      (dueOf (getCore s k) (getCore s k).dcc isRret).1 :=
    (dueOf_beside fun _ h => (not_of_isRret h).2).trans (dueOf_beside fun _ h => (not_of_isRret h).1)
  have hreach : reachRanges s k = setCore s k (((dueOf (getCore s k) (getCore s k).dcc isRinv).1 ++
      (dueOf (coreBeside (getCore s k) (getCore s k).dcc isRinv) (getCore s k).dcc isRres).1 ++
      (dueOf (coreBeside (coreBeside (getCore s k) (getCore s k).dcc isRinv) (getCore s k).dcc isRres) (getCore s k).dcc isRret).1).foldl
        (fun c f => applyReach c f.eff)
        (coreBeside (coreBeside (coreBeside (getCore s k) (getCore s k).dcc isRinv) (getCore s k).dcc isRres) (getCore s k).dcc isRret)) := rfl
  rw [hreach, getCore_setCore_wf _ _ _ ht.cores, hres, hret, List.foldl_append, List.foldl_append, applyReach_rrets _ dueOf_kind,
    applyReach_rress _ dueOf_kind, applyReach_rinvs _ dueOf_kind, List.map_map]
  rfl

theorem noteMoved_rest (s : State) (k : Nat) : (noteMoved s k).cores = s.cores ∧ (noteMoved s k).mem = s.mem := by
  refine foldl_keeps (fun t : State => t.cores = s.cores ∧ t.mem = s.mem) _ (fun t f h => ?_) _ _ ⟨rfl, rfl⟩
  split
  · split <;> exact h
  · exact h

end

/-- Settles O53: what a core's requests do at the hub, and the range changes that reach it. -/
theorem requestsReachTheHub : Obligations.RequestsReachTheHub := by
  unfold Obligations.RequestsReachTheHub
  intro s k d hform hd hcyc hlive hsys
  have ht : Tidy s := ⟨hform⟩
  dsimp only
  have hnot : ¬ isSystemCore k = true := by rw [hsys]; decide
  have hcore : ∀ p : Effect → Bool, getCore (setCore s k (coreBeside (getCore s k) d.dcc p)) k = coreBeside (getCore s k) d.dcc p := fun p =>
    getCore_setCore_wf _ _ _ ht.cores
  refine ⟨fun f no n v hprim hdue hf hm => ?_, fun f r no hprim hpart hdue hf => ?_, ?_⟩
  · have hexec : exec (.mpatLanding k) s = .next (modPkg (setCore s k (coreBeside (getCore s k) d.dcc isMpat)) (pkgOf k) fun p =>
        { p with moulds := Sparse.set [] p.moulds no (setParam (Sparse.get [] p.moulds no) n v) }) := by
      change execMpatLanding k s = _
      rw [execMpatLanding, if_neg hnot, coreCycle_runs hd hcyc hlive, hubRequests_one hprim hdue, hubRequest, hf]
    have hset : setParam (getMould s (pkgOf k) no) n v ≠ [] := by
      rw [setParam, ne_eq, List.set_eq_nil_iff]
      exact hm
    have hget := getMould_modPkg (setCore s k (coreBeside (getCore s k) d.dcc isMpat)) (pkgOf k) no hset
    refine ⟨_, hexec, (hget no).trans (if_pos rfl), fun m hne => (hget m).trans (if_neg hne), ?_, rfl⟩
    rw [getCore_sameCores (modPkg_cores _ _ _), hcore]
  · have hdom : domOf (setCore s k (coreBeside (getCore s k) d.dcc isArm)) k = some d := (domOf_setCore ht (c := coreBeside (getCore s k) d.dcc isArm) rfl).trans hd
    have hexec : ∀ (t : State) (v : Word), armMould (setCore s k (coreBeside (getCore s k) d.dcc isArm)) (pkgOf k) d.part no = (t, v) →
        domOf t k = some d → exec (.armPoolArrival k) s = .next (addFlight t k { f with eff := .sreg r v }) := fun t v harm htd => by
      change execArmPoolArrival k s = _
      rw [execArmPoolArrival, if_neg hnot, coreCycle_runs hd hcyc hlive, hubRequests_one hprim hdue, hubRequest_arm hdom hpart hf harm htd]
    have hflight : ∀ (t : State) (v : Word), t.cores = (setCore s k (coreBeside (getCore s k) d.dcc isArm)).cores →
        (getCore (addFlight t k { f with eff := .sreg r v }) k).inflight = stays (getCore s k) d.dcc isArm ++ [{ f with eff := .sreg r v }] :=
      fun t v hcores => by
        rw [getCore_addFlight]
        rw [(getCore_sameCores hcores k).trans (hcore isArm)]
    have hown := mouldOwned_iff (getMould s (pkgOf k) no) d.part
    refine ⟨fun hno => ?_, fun hyes hfull => ?_, fun e hyes harm he hfree hlow => ?_⟩
    · exact ⟨_, ⟨hexec _ _ (armMould_foreign (Bool.eq_false_iff.2 (mt hown.1 hno))) hdom, hflight _ _ rfl, rfl, rfl⟩, rfl⟩
    · exact ⟨_, ⟨hexec _ _ (armMould_full (hown.2 hyes) (hfull.imp_right freeEntry_none)) hdom, hflight _ _ rfl, rfl, rfl⟩, rfl⟩
    · refine ⟨_, ⟨hexec _ _ (armMould_arms (hown.2 hyes) harm (freeEntry_lowest he hfree hlow)) hdom, hflight _ _ rfl, rfl, rfl⟩, ?_, ?_⟩
      · exact congrArg Part.arms (getPart_poolAdd (setCore s k (coreBeside (getCore s k) d.dcc isArm)) (pkgOf k) d.part no e (getMould s (pkgOf k) no))
      · exact ⟨armed s.clock (getPart s (pkgOf k) d.part) (pkgOf k) d.part no e (getMould s (pkgOf k) no),
          congrArg Part.pool (getPart_poolAdd (setCore s k (coreBeside (getCore s k) d.dcc isArm)) (pkgOf k) d.part no e (getMould s (pkgOf k) no)),
          rfl, rfl, rfl, rfl, rfl⟩
  · obtain ⟨hcores, hmem⟩ := noteMoved_rest s k
    have hsame : getCore (noteMoved s k) k = getCore s k := getCore_sameCores hcores k
    have hr := reachRanges_ranges (s := noteMoved s k) (k := k) (tidy_noteMoved ht)
    rw [hsame] at hr
    exact ⟨reachRanges (noteMoved s k) k, coreCycle_runs hd hcyc hlive _, hmem, hr⟩

end Sys2Proof.Proofs
end

