-- ==== Sys2Proof/Proofs/HoldsAndStops.lean ====
section
/-! PROOF. Holds, slack points, the end of a pour, and scheduler stops (R103 to R113, R299, R308, R313, R316). -/

namespace Sys2Proof.Proofs

open Sys2Proof Sys2Proof.Machine Sys2Proof.Claims Sys2Proof.Laws

-- The end of a pour (R309, R313, R316) ---------------------------------------------------------------------------------------------------------

section
variable {P : Domain → Prop} {pid k : Nat} {s : State} {d e : Domain}

theorem faultLog_domains (s : State) (pkg part rcb : Nat) (ws : List Word) : (faultLog s pkg part rcb ws).domains = s.domains := by
  unfold faultLog
  split
  · rfl
  · dsimp only
    split
    · rw [hubWrite_eq]
    · rw [hubWrite_eq]
      rfl

theorem writeFrame_domains (s : State) (d : Domain) (f k : Nat) (copy : Bool) : (writeFrame s d f k copy).domains = s.domains := by
  unfold writeFrame
  dsimp only
  split
  · unfold writeSlot
    split
    · rw [hubWrite_eq]
      exact faultLog_domains _ _ _ _ _
    · exact faultLog_domains _ _ _ _ _
  · exact faultLog_domains _ _ _ _ _

theorem DomHas.writeFrames (hP : ∀ d b, P d → P { d with framed := b }) (h : DomHas P pid s) : DomHas P pid (writeFrames s d) := by
  unfold Machine.writeFrames
  refine DomHas.modDom (DomHas.foldl (DomHas.foldl h fun t k ht => ?_) fun t k ht => ?_) _ (fun _ => rfl) fun d => hP d true
  · exact ht.sameDomains rfl
  · exact ht.sameDomains (writeFrame_domains _ _ _ _ _)

theorem DomHas.killFaultDomain (hP : ∀ d w, P d → P { d with schedStop := w }) (h : DomHas P pid s) : DomHas P pid (killFaultDomain s d) := by
  unfold Machine.killFaultDomain
  dsimp only
  split
  · exact h
  · refine DomHas.foldl h fun t x ht => ?_
    have hone : ∀ (b : Prop) [Decidable b], DomHas P pid (if b then requestKill t x.pid 0 else t) := fun b _ => by
      split
      · exact DomHas.modDom ht _ (fun _ => rfl) fun d => hP d _
      · exact ht
    exact hone _

theorem findDom_removeDomain (s : State) (pid : Nat) : findDom (removeDomain s pid) pid = none := by
  unfold removeDomain
  cases h : findDom s pid with
  | none => exact h
  | some d =>
    refine List.find?_eq_none.2 fun e he => ?_
    have := (List.mem_filter.1 he).2
    simpa using this

/-- The cores of a pour that is no more run none. -/
theorem getCore_removeDomain_pid (ht : Tidy s) (he : findDom s pid = some e) (hk : k ∈ e.all) : (getCore (removeDomain s pid) k).pid = 0 := by
  have hidle : ∀ (l : List Nat) (t : State), Tidy t → (k ∈ l ∨ (getCore t k).pid = 0) →
      CoreHas (fun c => c.pid = 0) k (l.foldl (fun s k => modCore s k idleCore) t) := by
    intro l
    induction l with
    | nil => exact fun t ht h => ⟨ht, h.resolve_left (by simp)⟩
    | cons a r ih =>
      intro t ht h
      have htidy : Tidy (modCore t a idleCore) := tidy_modCore ht fun _ => tidyCore_idleCore
      have hget : ∀ q, getCore (modCore t q idleCore) q = idleCore (getCore t q) := fun q => getCore_setCore_wf _ _ _ ht.cores
      refine ih _ htidy ?_
      by_cases hak : k = a
      · subst hak
        exact .inr (by rw [hget]; rfl)
      · exact (h.imp_left fun h => (List.mem_cons.1 h).resolve_left hak).imp_right fun h => by rw [getCore_modCore_ne _ _ hak]; exact h
  unfold removeDomain
  rw [he]
  exact (hidle e.all (finishPuts s e) (tidy_finishPuts ht) (.inl hk)).holds

theorem findDom_endFaulted (s : State) (d : Domain) : findDom (endFaulted s d) d.pid = none := findDom_removeDomain _ _

theorem getCore_endFaulted_pid (ht : Tidy s) (hd : findDom s d.pid = some d) (hk : k ∈ d.all) : (getCore (endFaulted s d) k).pid = 0 := by
  have h : DomHas (fun e => e.all = d.all) d.pid s := ⟨d, hd, rfl⟩
  obtain ⟨e, he, hall⟩ := (h.writeFrames (d := d) fun _ _ h => h).killFaultDomain (d := d) fun _ _ h => h
  exact getCore_removeDomain_pid (tidy_killFaultDomain (tidy_writeFrames ht)) he (by rw [hall]; exact hk)

end

-- The freeze (R105, R106) ----------------------------------------------------------------------------------------------------------------------

section
variable {pid : Nat} {s : State} {d : Domain}

/-- The domain frozen. -/
def frozen (d : Domain) (clock : Nat) : Domain := { d with status := .held, freeze := some d.dcc, heldAt := clock, framed := false }

theorem findDom_freezeDomain (hd : findDom s d.pid = some d) : findDom (freezeDomain s d) d.pid = some (frozen d s.clock) := by
  rw [freezeDomain, findDom_modDom s d.pid (fun d : Domain => { d with status := .held, freeze := some d.dcc, heldAt := s.clock, framed := false })
    fun _ => rfl, hd]
  rfl

/-- At the announced cycle a domain freezes, and does what a frozen domain does. -/
theorem holdEffect_freezes (hd : findDom s d.pid = some d) (hrun : d.status = .run) (hat : effectOf d = some d.dcc)
    (hkeep : keepCheckpoint (freezeDomain s d) d = freezeDomain s d) :
    exec (.holdEffect d.pid) s = .next (atFreeze (freezeDomain s d) (frozen d s.clock)) := by
  change execHoldEffect d.pid s = _
  unfold execHoldEffect
  rw [hd]
  dsimp only
  rw [hrun]
  dsimp only
  rw [if_pos hat, hkeep, findDom_freezeDomain hd]

theorem keepCheckpoint_none {t : State} (h : d.schedStop = none) : keepCheckpoint t d = t := by
  unfold keepCheckpoint
  rw [h]

theorem keepCheckpoint_doomed {t : State} (h : d.doomed = true) : keepCheckpoint t d = t := by
  unfold keepCheckpoint
  rw [if_pos h]
  split <;> rfl

theorem atFreeze_quiet (hdoom : d.doomed = false) (hstop : d.schedStop = none) (hcores : ∀ k ∈ d.all, (getCore s k).stop = none) :
    atFreeze s d = s := by
  have hany : (d.all.any fun k => (getCore s k).stop.isSome) = false := by
    refine List.any_eq_false.2 fun k hk => ?_
    rw [hcores k hk]
    decide
  unfold atFreeze
  rw [if_neg (by simp [hdoom])]
  dsimp only
  rw [hstop]
  dsimp only
  rw [if_neg (show ¬ stopsDomain d = true by simp [stopsDomain, hstop]), hany, Bool.and_false, if_neg (by decide)]

-- What clears (R103) ---------------------------------------------------------------------------------------------------------------------------

/-- The causes that clear in this local clock. -/
abbrev clearing (s : State) (d : Domain) : List Cause := d.causes.filter (fun c => !c.cleared && (clearedBy s c).isSome)

/-- A cause after it. -/
def clearedCause (s : State) (c : Cause) : Cause :=
  match clearedBy s c with
  | some g => if c.cleared then c else { c with cleared := true, agent := g }
  | none => c

/-- The domain after it. -/
def clearedNow (s : State) (d : Domain) : Domain :=
  if (clearing s d).isEmpty then d else { d with lastClear := s.clock, causes := d.causes.map (clearedCause s) }

theorem acquires_rest {α : Type} (l : List α) (f g : α → Nat) (s : State) :
    ∃ cl, l.foldl (fun s c => acquire s (f c) (g c)) s = { s with clocks := cl } := by
  induction l generalizing s with
  | nil => exact ⟨_, rfl⟩
  | cons c r ih =>
    obtain ⟨cl, hcl⟩ := acquire_rest s (f c) (g c)
    rw [List.foldl_cons, hcl]
    obtain ⟨cl', h⟩ := ih { s with clocks := cl }
    exact ⟨cl', h⟩

theorem clearMet_eq (hd : findDom s pid = some d) :
    ∃ ds cl, clearMet s pid = { s with domains := ds, clocks := cl } ∧ findDom (clearMet s pid) pid = some (clearedNow s d) := by
  unfold clearMet
  rw [hd]
  dsimp only
  by_cases hnew : (clearing s d).isEmpty = true
  · rw [if_pos hnew, clearedNow, if_pos hnew]
    exact ⟨s.domains, s.clocks, rfl, hd⟩
  · rw [if_neg hnew, clearedNow, if_neg hnew]
    have hmod := findDom_modDom s pid (fun d => { d with lastClear := s.clock, causes := d.causes.map (clearedCause s) }) fun _ => rfl
    rw [hd] at hmod
    obtain ⟨cl, hcl⟩ := acquires_rest ((clearing s d).filter fun c => c.code == 1) Cause.core Cause.lc
      (modDom s pid fun d => { d with lastClear := s.clock, causes := d.causes.map (clearedCause s) })
    exact ⟨_, cl, hcl, (congrArg (findDom · pid) hcl).trans hmod⟩

theorem clearCauses_eq (hd : findDom s pid = some d) : ∃ ds cl, clearCauses s pid = { s with domains := ds, clocks := cl } ∧
    findDom (clearCauses s pid) pid = some (clearOverrun (clearedNow s d) s.clock) := by
  obtain ⟨ds, cl, heq, hfind⟩ := clearMet_eq hd
  have hclock : (clearMet s pid).clock = s.clock := by rw [heq]
  have hmod := findDom_modDom (clearMet s pid) pid (fun d => clearOverrun d (clearMet s pid).clock) fun d => clearOverrun_pid d _
  rw [hfind] at hmod
  refine ⟨(modDom { s with domains := ds, clocks := cl } pid fun d => clearOverrun d s.clock).domains, cl, ?_, hmod.trans (by rw [hclock]; rfl)⟩
  change modDom (clearMet s pid) pid _ = _
  rw [heq]
  rfl

/-- Where every cause has cleared, none clears now. -/
theorem clearedNow_all (h : ∀ c ∈ d.causes, c.cleared = true) (clock : Nat) : clearOverrun (clearedNow s d) clock = d := by
  have hnone : clearing s d = [] := List.filter_eq_nil_iff.2 fun c hc => by simp [h c hc]
  have hoverrun : (d.causes.any fun c => c.code == 4 && !c.cleared) = false := List.any_eq_false.2 fun c hc => by simp [h c hc]
  rw [clearedNow, hnone, if_pos List.isEmpty_nil, clearOverrun, hoverrun, Bool.false_and, if_neg (by decide)]

/-- A cause that has not cleared, and is no overrun, stays. -/
theorem uncleared_clearCauses {c : Cause} (hc : c ∈ d.causes) (hopen : c.cleared = false) (hcode : c.code ≠ 4) (hmet : clearedBy s c = none)
    (clock : Nat) : c ∈ (clearOverrun (clearedNow s d) clock).causes := by
  have hmem : c ∈ (clearedNow s d).causes := by
    unfold clearedNow
    split
    · exact hc
    · exact List.mem_map.2 ⟨c, hc, by rw [clearedCause, hmet]⟩
  have hall : ((clearedNow s d).causes.all fun c => c.code == 4 || c.cleared) = false :=
    List.all_eq_false.2 ⟨c, hmem, by simp [hcode, hopen]⟩
  rw [clearOverrun, hall, Bool.and_false, if_neg (by decide)]
  exact hmem

/-- The local clock in which a cause cleared last is the old one or the present. -/
theorem lastClear_clearCauses (clock : Nat) (hclock : clock = s.clock) : (clearOverrun (clearedNow s d) clock).lastClear = d.lastClear ∨
    (clearOverrun (clearedNow s d) clock).lastClear = s.clock := by
  subst hclock
  unfold clearOverrun
  split
  · exact .inr rfl
  · unfold clearedNow
    split
    · exact .inl rfl
    · exact .inr rfl

/-- What clears touches nothing but causes and their clock. -/
theorem clearCauses_same (clock : Nat) : (clearOverrun (clearedNow s d) clock).dcc = d.dcc ∧ (clearOverrun (clearedNow s d) clock).cores = d.cores ∧
    (clearOverrun (clearedNow s d) clock).h = d.h ∧ (clearOverrun (clearedNow s d) clock).status = d.status := by
  unfold clearOverrun clearedNow
  split <;> split <;> exact ⟨rfl, rfl, rfl, rfl⟩

-- Slack points (R94, R112 to R114) -------------------------------------------------------------------------------------------------------------

/-- The slack points that a domain has spent and declared. -/
abbrev slackPoints (s : State) (d : Domain) : List (Nat × Nat) := d.slackPts ++ declared s d

theorem reachSlack_none (h : d.dcc < d.slackDone ∨ ∀ x ∈ slackPoints s d, x.1 ≠ d.dcc) : reachSlack s d = s := by
  unfold reachSlack
  split
  · rfl
  · rename_i hdone
    rw [List.find?_eq_none.2]
    exact fun x hx => by simpa using h.resolve_left hdone x hx

theorem reachSlack_spends {n : Nat} {r : List (Nat × Nat)} (hdone : d.slackDone ≤ d.dcc) (h : d.slackPts = (d.dcc, n) :: r) :
    reachSlack s d = spendSlack s d n := by
  unfold reachSlack
  rw [if_neg (Nat.not_lt.2 hdone), h, List.cons_append, List.find?_cons_of_pos (by simp)]

/-- The status of a domain that has spent a slack point of allowance `n`. -/
abbrev slackStatus (d : Domain) (n : Nat) : Status := if d.span = 2 ∧ n / 2 ≠ 0 then .slack (n / 2 - 1) else .run

/-- What holds and slack leave of a domain. -/
structure SameDomain (d e : Domain) : Prop where
  dcc : e.dcc = d.dcc
  cores : e.cores = d.cores
  h : e.h = d.h

theorem SameDomain.trans {f : Domain} (h : SameDomain d f) {e : Domain} (g : SameDomain f e) : SameDomain d e :=
  ⟨g.dcc.trans h.dcc, g.cores.trans h.cores, g.h.trans h.h⟩

/-- A domain at its slack point. -/
structure AtSlack (d e : Domain) : Prop extends SameDomain d e where
  slackDone : e.slackDone = d.dcc + 1
  status : e.status = .run

theorem keptByHolds_atSlack (d : Domain) : KeptByHolds (AtSlack d) where
  cause _ _ _ _ h := ⟨⟨h.dcc, h.cores, h.h⟩, h.slackDone, h.status⟩
  doomed _ h := ⟨⟨h.dcc, h.cores, h.h⟩, h.slackDone, h.status⟩

theorem waitLog_domains (s : State) (k part eff clk pid lc : Nat) (c : Cause) : (waitLog s k part eff clk pid lc c).domains = s.domains := by
  obtain ⟨m, h⟩ := waitLog_rest s k part eff clk pid lc c
  rw [h]

theorem DomHas.packageSlack {P : Domain → Prop} {pid : Nat} {t : State} (hP : KeptByHolds P) (h : DomHas P pid t) (n pkg : Nat) :
    DomHas P pid (packageSlack t d n pkg) := by
  have hraise : ∀ (b : Prop) [Decidable b] (c : Cause), DomHas P pid (if b then Machine.raiseCause t d.pid c else t) := fun b _ c => by
    split
    · exact h.raiseCause hP _ _
    · exact h
  unfold Machine.packageSlack
  dsimp only
  split
  · exact hraise _ _
  · exact (hraise _ _).sameDomains (waitLog_domains _ _ _ _ _ _ _ _)

/-- A domain that reaches a slack point. -/
theorem spendSlack_domain (hd : findDom s d.pid = some d) (hrun : d.status = .run) (n : Nat) :
    DomHas (fun e => SameDomain d e ∧ e.slackDone = d.dcc + 1 ∧ e.status = slackStatus d n) d.pid (spendSlack s d n) := by
  have hP := keptByHolds_atSlack d
  have h1 : DomHas (AtSlack d) d.pid (modDom s d.pid fun d => { d with slackDone := d.dcc + 1 }) := by
    refine ⟨{ d with slackDone := d.dcc + 1 }, ?_, ⟨⟨rfl, rfl, rfl⟩, rfl, hrun⟩⟩
    rw [findDom_modDom s d.pid (fun d : Domain => { d with slackDone := d.dcc + 1 }) fun _ => rfl, hd]
    rfl
  have h2 : ∀ o : Option Nat, DomHas (AtSlack d) d.pid (match o with
      | some k => takeFault (modDom s d.pid fun d => { d with slackDone := d.dcc + 1 }) k .cc ccSt 0 fSchedule 10 []
      | none => modDom s d.pid fun d => { d with slackDone := d.dcc + 1 }) := fun o => by
    cases o with
    | none => exact h1
    | some k => exact h1.takeFaultFull hP _ _ _ _ _ _ _ _ _ _
  have hstays : ∀ {e}, ¬ (d.span = 2 ∧ n / 2 ≠ 0) → AtSlack d e → SameDomain d e ∧ e.slackDone = d.dcc + 1 ∧ e.status = slackStatus d n :=
    fun hno h => ⟨h.toSameDomain, h.slackDone, by rw [slackStatus, if_neg hno]; exact h.status⟩
  have hset : ∀ {t : State} {e : Domain}, findDom t d.pid = some e →
      findDom (modDom t d.pid fun d => { d with status := .slack (n / 2 - 1) }) d.pid = some { e with status := .slack (n / 2 - 1) } := fun he => by
    rw [findDom_modDom _ _ (fun d : Domain => { d with status := .slack (n / 2 - 1) }) fun _ => rfl, he]
    rfl
  unfold spendSlack
  dsimp only
  split
  · rename_i hspan
    obtain ⟨e, he, hat⟩ := h2 _
    exact ⟨e, he, hstays (fun h => hspan h.1) hat⟩
  · rename_i hspan
    have h3 := (h2 (if d.slackPts.contains (d.dcc, n) = true then none else
      (d.all.filter fun k => liveIn (modDom s d.pid fun d => { d with slackDone := d.dcc + 1 }) d k &&
        (getCore (modDom s d.pid fun d => { d with slackDone := d.dcc + 1 }) k).stop.isNone).find?
          fun k => !(getCore (modDom s d.pid fun d => { d with slackDone := d.dcc + 1 }) k).slackPts.contains (d.dcc, n))).foldl
      (f := fun s p => packageSlack s d n p) (l := d.pkgs) fun t p ht => ht.packageSlack hP n p
    obtain ⟨e, he, hat⟩ := h3
    split
    · rename_i hn
      exact ⟨e, he, hstays (fun h => h.2 hn) hat⟩
    · rename_i hn
      refine ⟨{ e with status := .slack (n / 2 - 1) }, ?_, ⟨hat.dcc, hat.cores, hat.h⟩, hat.slackDone, (if_pos ⟨not_not.1 hspan, hn⟩).symm⟩
      exact hset he

/-- Whatever slack point it reaches, a running domain keeps its counter, its cores and H. -/
theorem reachSlack_same (hd : findDom s d.pid = some d) (hrun : d.status = .run) : DomHas (SameDomain d) d.pid (reachSlack s d) := by
  unfold reachSlack
  split
  · exact ⟨d, hd, rfl, rfl, rfl⟩
  · split
    · obtain ⟨e, he, hsame, -⟩ := spendSlack_domain hd hrun _
      exact ⟨e, he, hsame⟩
    · exact ⟨d, hd, rfl, rfl, rfl⟩

theorem slackPoint_run (hd : findDom s d.pid = some d) (hrun : d.status = .run) : exec (.slackPoint d.pid) s = .next (reachSlack s d) := by
  change execSlackPoint d.pid s = _
  unfold execSlackPoint
  rw [hd]
  dsimp only
  rw [hrun]

-- The release (R108, R109) ---------------------------------------------------------------------------------------------------------------------

/-- The domain released. -/
def released (d : Domain) (clk : Nat) : Domain :=
  { d with status := .run, freeze := none, stopAt := none, causes := [], framed := false
           holdClocks := d.holdClocks + (if d.causes.isEmpty then 0 else clk)
           lead := if d.causes.any (fun c => c.code == 4) then [] else d.lead }

theorem findDom_releaseDomain (hd : findDom s d.pid = some d) : findDom (releaseDomain s d) d.pid = some (released d (s.clock - d.heldAt)) := by
  have hlog : DomHas (fun e => e = d) d.pid ((d.causes.foldr insCause []).foldl (fun t c =>
      waitLog t c.core d.part d.dcc (s.clock - d.heldAt) d.pid (if c.code = 1 then c.lc else 0) c) s) :=
    DomHas.foldl ⟨d, hd, rfl⟩ fun t c ht => ht.sameDomains (waitLog_domains _ _ _ _ _ _ _ _)
  obtain ⟨e, he, rfl⟩ := hlog.foldl (f := fun s k => modCore s k fun c => { c with repaired := [] }) (l := d.all) fun t k ht => ht.sameDomains rfl
  exact (findDom_modDom _ e.pid (fun d : Domain => released d (s.clock - e.heldAt)) fun _ => rfl).trans (congrArg (Option.map _) he)

/-- The release leaves the slack points that the cores have declared. -/
theorem declared_releaseDomain (ht : Tidy s) (e : Domain) (hall : e.all = d.all) : declared (releaseDomain s d) e = declared s d := by
  have hslack : ∀ q, (getCore (releaseDomain s d) q).slackPts = (getCore s q).slackPts := by
    intro q
    have hlog : CoreHas (fun c => c.slackPts = (getCore s q).slackPts) q ((d.causes.foldr insCause []).foldl (fun t c =>
        waitLog t c.core d.part d.dcc (s.clock - d.heldAt) d.pid (if c.code = 1 then c.lc else 0) c) s) :=
      CoreHas.foldl ⟨ht, rfl⟩ fun t c _ ht => by
        refine ht.sameCores ?_ (tidy_waitLog ht.tidy)
        obtain ⟨m, h⟩ := waitLog_rest t c.core d.part d.dcc (s.clock - d.heldAt) d.pid (if c.code = 1 then c.lc else 0) c
        rw [h]
    exact (hlog.foldl (f := fun s k => modCore s k fun c => { c with repaired := [] }) (l := d.all) fun t k _ ht =>
      ht.modAny (fun _ hc => ⟨hc.form⟩) fun _ h => h).holds
  unfold declared
  rw [hall]
  exact congrArg (List.flatMap · d.all) (funext hslack)

theorem holdRelease_waits {e : Domain} (he : findDom (clearCauses s pid) pid = some e) (hno : mayRelease (clearCauses s pid) e = false) :
    exec (.holdRelease pid) s = .next (clearCauses s pid) := by
  change execHoldRelease pid s = _
  unfold execHoldRelease
  dsimp only
  rw [he]
  dsimp only
  rw [if_neg (by rw [hno]; decide)]

theorem holdRelease_releases {e f : Domain} (he : findDom (clearCauses s pid) pid = some e) (hyes : mayRelease (clearCauses s pid) e = true)
    (hf : findDom (releaseDomain (clearCauses s pid) e) pid = some f) :
    exec (.holdRelease pid) s = .next (reachSlack (releaseDomain (clearCauses s pid) e) f) := by
  change execHoldRelease pid s = _
  unfold execHoldRelease
  dsimp only
  rw [he]
  dsimp only
  rw [if_pos hyes, hf]

theorem not_mayRelease_of_cause {c : Cause} (hc : c ∈ d.causes) (hopen : c.cleared = false) : mayRelease s d = false := by
  have hall : (d.causes.all fun c => c.cleared) = false := List.all_eq_false.2 ⟨c, hc, by simp [hopen]⟩
  simp [mayRelease, hall]

theorem not_mayRelease_of_clock (h : s.clock < d.lastClear + d.h) : mayRelease s d = false := by
  simp only [mayRelease, Bool.and_eq_false_iff, decide_eq_false_iff_not, Nat.not_le]
  exact .inr h

theorem mayRelease_of_cleared (hheld : d.status = .held) (hcauses : ∀ c ∈ d.causes, c.cleared = true) (hdoom : d.doomed = false)
    (hstop : d.schedStop = none) (hcores : ∀ k ∈ d.all, (getCore s k).stop = none) (hclock : d.lastClear + d.h ≤ s.clock) :
    mayRelease s d = true := by
  have hstops : stopsDomain d = false := by rw [stopsDomain, hstop]
  simp only [mayRelease, hheld, hdoom, hstops, Bool.and_eq_true, List.all_eq_true, beq_self_eq_true, Bool.not_false, decide_eq_true_eq,
    true_and, and_true]
  exact ⟨⟨hcauses, fun k hk => by rw [hcores k hk]; rfl⟩, hclock⟩

-- Scheduler stops (R306, R308) -----------------------------------------------------------------------------------------------------------------

/-- The block that held a token has none left. -/
abbrev TokenGone (s : State) (tok : Nat) : Prop := ∃ key, tok = key + 1 ∧ (Memory.word s.mem (key + 8)).toNat % 256 = 0

theorem tokenGone_iff (w : StopWhy) : tokenGone s w = true ↔ TokenGone s (tokenOf (some w)) := by
  unfold tokenGone TokenGone
  cases tokenOf (some w) with
  | zero => exact ⟨fun h => (by cases h), fun ⟨_, h, _⟩ => (by cases h)⟩
  | succ key =>
    rw [beq_iff_eq, bits_low]
    exact ⟨fun h => ⟨key, rfl, h⟩, fun ⟨_, h, hz⟩ => by rw [Nat.succ.inj h]; exact hz⟩

/-- The stop's cycle has come near enough to be announced. -/
abbrev stopDue (d : Domain) : StopWhy → Bool
  | .checkpoint _ p _ => decide (p ≤ d.dcc + d.h)
  | .kill _ => true

theorem schedulerStop_waits {w : StopWhy} (hd : findDom s pid = some d) (hw : d.schedStop = some w) (hdue : stopDue d w = false) :
    exec (.schedulerStop pid) s = .next s := by
  change execSchedulerStop pid s = _
  unfold execSchedulerStop
  rw [hd]
  dsimp only
  rw [hw]
  exact congrArg _ (if_pos (.inr (.inr hdue)))

theorem schedulerStop_announces {w : StopWhy} (hd : findDom s pid = some d) (hrun : d.status = .run) (hat : d.stopAt = none)
    (hw : d.schedStop = some w) (hdue : stopDue d w = true) (htok : ¬ TokenGone s (tokenOf (some w))) :
    ∃ (t : State) (e : Domain), exec (.schedulerStop pid) s = .next t ∧ findDom t pid = some e ∧ (e.dcc = d.dcc ∧ e.cores = d.cores ∧ e.h = d.h) ∧
      e.stopAt = some (d.dcc + d.h) ∧ t.cores = s.cores := by
  refine ⟨modDom s pid fun d => { d with stopAt := some (d.dcc + d.h) }, { d with stopAt := some (d.dcc + d.h) }, ?_, ?_, ⟨rfl, rfl, rfl⟩, rfl, rfl⟩
  · change execSchedulerStop pid s = _
    unfold execSchedulerStop
    rw [hd]
    dsimp only
    rw [hw]
    refine congrArg _ ((if_neg ?_).trans (if_neg ((tokenGone_iff w).not.2 htok)))
    rintro (h | h | h)
    · exact h hrun
    · rw [hat] at h
      cases h
    · exact Bool.noConfusion (h.symm.trans hdue)
  · rw [findDom_modDom s pid (fun d : Domain => { d with stopAt := some (d.dcc + d.h) }) fun _ => rfl, hd]
    rfl

/-- A stop whose token is gone is a drain. -/
theorem schedulerStop_drains {w : StopWhy} (hd : findDom s d.pid = some d) (hrun : d.status = .run) (hat : d.stopAt = none)
    (hw : d.schedStop = some w) (hdue : stopDue d w = true) (htok : TokenGone s (tokenOf (some w))) :
    ∃ (t : State) (e : Domain), exec (.schedulerStop d.pid) s = .next t ∧ findDom t d.pid = some e ∧
      (e.dcc = d.dcc ∧ e.cores = d.cores ∧ e.h = d.h) ∧ e.stopAt = none ∧ e.schedStop = none ∧ e.drain = true := by
  refine ⟨drainVictim s d, { d with schedStop := none, stopAt := none, drain := true, drainMarked := d.drain && d.drainMarked }, ?_, ?_,
    ⟨rfl, rfl, rfl⟩, rfl, rfl, rfl⟩
  · change execSchedulerStop d.pid s = _
    unfold execSchedulerStop
    rw [hd]
    dsimp only
    rw [hw]
    refine congrArg _ ((if_neg ?_).trans (if_pos ((tokenGone_iff w).2 htok)))
    rintro (h | h | h)
    · exact h hrun
    · rw [hat] at h
      cases h
    · exact Bool.noConfusion (h.symm.trans hdue)
  · rw [drainVictim, findDom_modDom s d.pid (fun d : Domain =>
      { d with schedStop := none, stopAt := none, drain := true, drainMarked := d.drain && d.drainMarked }) fun _ => rfl, hd]
    rfl

-- The hold budget (R299) -----------------------------------------------------------------------------------------------------------------------

theorem holdClocksNow_held (hheld : d.status = .held) (hc : d.causes ≠ []) : holdClocksNow s d = d.holdClocks + (s.clock - d.heldAt + 1) := by
  unfold holdClocksNow
  rw [if_pos (by simp [hheld, hc])]

theorem holdBudget_within (hd : findDom s pid = some d) (h : holdClocksNow s d ≤ holdBudget s d) :
    exec (.holdBudgetExceeded pid) s = .next s := by
  change execHoldBudgetExceeded pid s = _
  unfold execHoldBudgetExceeded
  rw [hd]
  dsimp only
  split
  · rfl
  · rw [if_neg fun hb => absurd hb.2 (Nat.not_lt.2 h)]

theorem holdBudget_exceeded (hd : findDom s pid = some d) (hheld : d.status = .held) (hc : d.causes ≠ [])
    (h : holdBudget s d < holdClocksNow s d) : ∃ t : State, exec (.holdBudgetExceeded pid) s = .next t ∧ findDom t pid = none := by
  obtain ⟨c, r, hcr⟩ := List.exists_cons_of_ne_nil hc
  obtain ⟨e, he, -⟩ := DomHas.takeFaultFull (P := fun _ => True) ⟨fun _ _ _ _ _ => trivial, fun _ _ => trivial⟩ ⟨d, hd, trivial⟩ c.core c.stream
    c.station c.evt fHoldBudget 0 [] 0 0 0
  refine ⟨endFaulted (takeFaultFull s c.core c.stream c.station c.evt fHoldBudget 0 [] 0 0 0) e, ?_, findDom_pid he ▸ findDom_endFaulted _ e⟩
  change execHoldBudgetExceeded pid s = _
  unfold execHoldBudgetExceeded
  rw [hd]
  dsimp only
  rw [hcr]
  dsimp only
  rw [if_pos ⟨.inl hheld, h⟩, takeFault, he]

end

/-- Settles O54: holds, slack points and scheduler stops of a domain. -/
theorem holdsAndStops : Obligations.HoldsAndStops := by
  unfold Obligations.HoldsAndStops
  intro s pid d hform hd
  have ht : Tidy s := ⟨hform⟩
  obtain rfl := findDom_pid hd
  dsimp only
  refine ⟨fun hrun hat => ?_, fun hrun hat hdoom hstop hcores => ?_, fun hrun hat hdoom => ?_,
    fun hheld hdoom hstop hcores hcauses hclock => ?_, fun hheld hwait => ?_, fun hheld hc => ⟨fun h => ?_, fun h => ?_⟩, fun n hn => ?_,
    fun hrun hpoints => ?_, fun n r hrun hdone hpts => ?_,
    fun hrun hat => ⟨fun tok hw htok => ?_, fun tok hw htok => ?_, fun i p tok hw => ⟨fun hp => ?_, fun hp htok => ?_⟩⟩⟩
  · change execHoldEffect d.pid s = _
    unfold execHoldEffect
    rw [hd]
    dsimp only
    rw [hrun]
    exact congrArg _ (if_neg hat)
  · have hquiet : atFreeze (freezeDomain s d) (frozen d s.clock) = freezeDomain s d := atFreeze_quiet hdoom hstop hcores
    exact ⟨freezeDomain s d, frozen d s.clock, (holdEffect_freezes hd hrun hat (keepCheckpoint_none hstop)).trans (by rw [hquiet]),
      findDom_freezeDomain hd, ⟨rfl, rfl, rfl⟩, rfl, rfl, rfl, rfl, rfl, rfl⟩
  · have hend : atFreeze (freezeDomain s d) (frozen d s.clock) = endFaulted (freezeDomain s d) (frozen d s.clock) := if_pos hdoom
    refine ⟨endFaulted (freezeDomain s d) (frozen d s.clock), (holdEffect_freezes hd hrun hat (keepCheckpoint_doomed hdoom)).trans (by rw [hend]),
      findDom_endFaulted _ (frozen d s.clock), fun k hk => ?_⟩
    exact getCore_endFaulted_pid (d := frozen d s.clock) (tidy_freezeDomain ht) (findDom_freezeDomain hd) hk
  · obtain ⟨ds, cl, heq, hfind⟩ := clearCauses_eq hd
    rw [clearedNow_all hcauses] at hfind
    have hcl : (clearCauses s d.pid).clock = s.clock ∧ (clearCauses s d.pid).cores = s.cores := by rw [heq]; exact ⟨rfl, rfl⟩
    obtain ⟨hclk, hcs⟩ := hcl
    have hmay : mayRelease (clearCauses s d.pid) d = true :=
      mayRelease_of_cleared hheld hcauses hdoom hstop (fun k hk => by rw [getCore_sameCores hcs]; exact hcores k hk) (by rw [hclk]; exact hclock)
    have hrel := findDom_releaseDomain hfind
    have hexec := holdRelease_releases hfind hmay hrel
    rw [hclk] at hrel hexec
    have hdeclared : declared (releaseDomain (clearCauses s d.pid) d) (released d (s.clock - d.heldAt)) = declared s d := by
      refine (declared_releaseDomain (d := d) (tidy_clearCauses ht) _ rfl).trans ?_
      exact congrArg (List.flatMap · d.all) (funext fun k => by rw [getCore_sameCores hcs])
    by_cases hpoint : ∃ n r, d.slackDone ≤ d.dcc ∧ d.slackPts = (d.dcc, n) :: r
    · obtain ⟨n, r, hdone, hpts⟩ := hpoint
      obtain ⟨e, he, hsame, hdone', hstatus⟩ := spendSlack_domain (d := released d (s.clock - d.heldAt)) hrel rfl n
      have hspends : reachSlack (releaseDomain (clearCauses s d.pid) d) (released d (s.clock - d.heldAt)) =
          spendSlack (releaseDomain (clearCauses s d.pid) d) (released d (s.clock - d.heldAt)) n := reachSlack_spends hdone hpts
      refine ⟨_, e, hexec.trans (by rw [hspends]), he, ⟨hsame.dcc, hsame.cores, hsame.h⟩, fun hno => ?_, fun m q _ hm => ?_⟩
      · refine absurd hno ?_
        rintro (hlt | hall)
        · exact absurd hdone (Nat.not_le.2 hlt)
        · exact hall (d.dcc, n) (by rw [hpts]; exact List.mem_append_left _ List.mem_cons_self) rfl
      · rw [hpts] at hm
        rw [hstatus, show m = n from congrArg (fun l : List (Nat × Nat) => (l.headD (0, 0)).2) hm.symm]
        rfl
    · by_cases hno : d.dcc < d.slackDone ∨ ∀ x ∈ slackPoints s d, x.1 ≠ d.dcc
      · have hnone : reachSlack (releaseDomain (clearCauses s d.pid) d) (released d (s.clock - d.heldAt)) = releaseDomain (clearCauses s d.pid) d := by
          refine reachSlack_none (hno.imp_right fun h x hx => h x ?_)
          rw [slackPoints, hdeclared] at hx
          exact hx
        exact ⟨_, _, hexec.trans (by rw [hnone]), hrel, ⟨rfl, rfl, rfl⟩, fun _ => ⟨rfl, rfl, rfl⟩,
          fun n r h1 h2 => absurd ⟨n, r, h1, h2⟩ hpoint⟩
      · obtain ⟨e, he, hsame⟩ := reachSlack_same (d := released d (s.clock - d.heldAt)) hrel rfl
        exact ⟨_, e, hexec, he, ⟨hsame.dcc, hsame.cores, hsame.h⟩, fun h => absurd h hno, fun n r h1 h2 => absurd ⟨n, r, h1, h2⟩ hpoint⟩
  · obtain ⟨ds, cl, heq, hfind⟩ := clearCauses_eq hd
    obtain ⟨h1, h2, h3, h4⟩ := clearCauses_same (s := s) (d := d) s.clock
    have hno : mayRelease (clearCauses s d.pid) (clearOverrun (clearedNow s d) s.clock) = false := by
      rcases hwait with ⟨c, hc, hopen, hcode, hmet⟩ | ⟨hpos, hlt⟩
      · exact not_mayRelease_of_cause (uncleared_clearCauses hc hopen hcode hmet s.clock) hopen
      · refine not_mayRelease_of_clock ?_
        rw [h3, show (clearCauses s d.pid).clock = s.clock by rw [heq]]
        rcases lastClear_clearCauses (s := s) (d := d) s.clock rfl with h | h
        · rw [h]
          exact hlt
        · rw [h]
          omega
    exact ⟨_, _, holdRelease_waits hfind hno, hfind, ⟨h1, h2, h3⟩, h4.trans hheld, by rw [heq]⟩
  · exact holdBudget_within hd (by rw [holdClocksNow_held hheld hc]; exact h)
  · exact holdBudget_exceeded hd hheld hc (by rw [holdClocksNow_held hheld hc]; exact h)
  · have hmod : ∀ st : Status, findDom (modDom s d.pid fun d => { d with status := st }) d.pid = some { d with status := st } := fun st => by
      rw [findDom_modDom s d.pid (fun d : Domain => { d with status := st }) fun _ => rfl, hd]
      rfl
    cases n with
    | zero =>
      refine ⟨_, _, ?_, hmod .run, ⟨rfl, rfl, rfl⟩, rfl, rfl⟩
      change execSlackPoint d.pid s = _
      unfold execSlackPoint
      rw [hd]
      dsimp only
      rw [hn]
    | succ m =>
      refine ⟨_, _, ?_, hmod (.slack m), ⟨rfl, rfl, rfl⟩, rfl, rfl⟩
      change execSlackPoint d.pid s = _
      unfold execSlackPoint
      rw [hd]
      dsimp only
      rw [hn]
  · rw [slackPoint_run hd hrun, reachSlack_none (.inr hpoints)]
  · obtain ⟨e, he, hsame, hdone', hstatus⟩ := spendSlack_domain hd hrun n
    exact ⟨_, e, by rw [slackPoint_run hd hrun, reachSlack_spends hdone hpts], he, ⟨hsame.dcc, hsame.cores, hsame.h⟩, hdone', hstatus⟩
  · exact schedulerStop_announces hd hrun hat hw rfl htok
  · exact schedulerStop_drains hd hrun hat hw rfl htok
  · exact schedulerStop_waits hd hw (decide_eq_false (Nat.not_le.2 hp))
  · exact schedulerStop_announces hd hrun hat hw (decide_eq_true hp) htok

end Sys2Proof.Proofs
end

