-- ==== Sys2Proof/Proofs/SystemCore.lean ====
section
/-! PROOF. The commands of system cores (R191, R278, R357): calls and returns, and the changes of ranges in lists and tables. -/

namespace Sys2Proof.Proofs

open Sys2Proof Sys2Proof.Machine Sys2Proof.Claims Sys2Proof.Laws

-- Words of memory (R2) -------------------------------------------------------------------------------------------------------------------------

section
variable (m : Memory)

theorem readNat_add : ∀ (n a k : Nat), Memory.readNat m a (n + k) = Memory.readNat m a n + 256 ^ n * Memory.readNat m (a + n) k
  | 0, a, k => by simp [Memory.readNat]
  | n + 1, a, k => by
    rw [show n + 1 + k = n + k + 1 by omega, Memory.readNat, readNat_add n (a + 1) k, Memory.readNat, pow_succ',
      show a + 1 + n = a + (n + 1) by omega]
    ring

/-- A run of a run. -/
theorem readNat_window {n j l : Nat} (a : Nat) (h : j + l ≤ n) : Memory.readNat m a n / 256 ^ j % 256 ^ l = Memory.readNat m (a + j) l := by
  obtain ⟨r, rfl⟩ := Nat.exists_eq_add_of_le h
  have h8 : ∀ n : Nat, (256 : Nat) ^ n = 2 ^ (8 * n) := fun n => by rw [pow_mul]; rfl
  have hlow : Memory.readNat m a j < 256 ^ j := by rw [h8]; exact readNat_lt m a j
  have hmid : Memory.readNat m (a + j) l < 256 ^ l := by rw [h8]; exact readNat_lt m (a + j) l
  rw [Nat.add_assoc, readNat_add, readNat_add, Nat.add_mul_div_left _ _ (by positivity), Nat.div_eq_of_lt hlow, Nat.zero_add,
    Nat.add_mul_mod_self_left, Nat.mod_eq_of_lt hmid]

/-- What a write leaves in its run. -/
theorem readNat_writeNat : ∀ (n : Nat) (m : Memory) (a v : Nat), Memory.wf m = true →
    Memory.readNat (Memory.writeNat m a n v) a n = v % 256 ^ n
  | 0, m, a, v, _ => by rw [pow_zero, Nat.mod_one]; rfl
  | n + 1, m, a, v, hw => by
    have hfirst : Memory.read (Memory.writeNat m a (n + 1) v) a = BitVec.ofNat 8 v := by
      simpa using read_writeNat (n + 1) m a v 0 hw (Nat.succ_pos n)
    rw [Memory.readNat, hfirst, Memory.writeNat, readNat_writeNat n _ _ _ (wf_write m a _ hw), BitVec.toNat_ofNat, pow_succ' 256 n]
    exact (Nat.mod_mul ..).symm

theorem word_toNat (a : Nat) : (Memory.word m a).toNat = Memory.readNat m a 8 := by
  rw [Memory.word, toWord, BitVec.toNat_ofNat, Nat.mod_eq_of_lt (readNat_lt m a 8)]

theorem toNat_ofNat_readNat (a n : Nat) : (BitVec.ofNat (8 * n) (Memory.readNat m a n)).toNat = Memory.readNat m a n := by
  rw [BitVec.toNat_ofNat, Nat.mod_eq_of_lt (readNat_lt m a n)]

/-- Words that agree have the same bytes. -/
theorem read_of_word {m' : Memory} {a : Nat} (h : Memory.word m' a = Memory.word m a) {j : Nat} (hj : j < 8) :
    Memory.read m' (a + j) = Memory.read m (a + j) := by
  have hn : Memory.readNat m' a 8 = Memory.readNat m a 8 := by rw [← word_toNat, h, word_toNat]
  refine BitVec.eq_of_toNat_eq ?_
  rw [← byteAt_readNat m' a hj, ← byteAt_readNat m a hj, hn]

end

-- The image of an entry (R270) -----------------------------------------------------------------------------------------------------------------

/-- The words of an entry. -/
abbrev entryWords (e : RangeEntry) : List Word := [e.base, e.limit, e.off, e.ctl, e.res, e.wmask, e.wbm, e.lidx]

/-- Digit `i` of a number given by its words. -/
theorem digit_of_words : ∀ (l : List Word) (i : Nat), l.foldr (fun w a => w.toNat + 2 ^ 64 * a) 0 / (2 ^ 64) ^ i % 2 ^ 64 = (l.getD i 0).toNat
  | [], i => by simp
  | w :: r, 0 => by
    rw [pow_zero, Nat.div_one, List.foldr_cons, Nat.add_mul_mod_self_left, Nat.mod_eq_of_lt w.isLt]
    rfl
  | w :: r, i + 1 => by
    rw [pow_succ' (2 ^ 64) i, ← Nat.div_div_eq_div_mul, List.foldr_cons, Nat.add_mul_div_left _ _ (by positivity), Nat.div_eq_of_lt w.isLt, Nat.zero_add]
    exact digit_of_words r i

theorem words_lt : ∀ l : List Word, l.foldr (fun w a => w.toNat + 2 ^ 64 * a) 0 < (2 ^ 64) ^ l.length
  | [] => by simp
  | w :: r => by
    have h := words_lt r
    have hw := w.isLt
    rw [List.foldr_cons, List.length_cons, pow_succ' (2 ^ 64) r.length]
    calc w.toNat + 2 ^ 64 * r.foldr (fun w a => w.toNat + 2 ^ 64 * a) 0
        < 2 ^ 64 * (r.foldr (fun w a => w.toNat + 2 ^ 64 * a) 0 + 1) := by rw [Nat.mul_add]; omega
      _ ≤ 2 ^ 64 * (2 ^ 64) ^ r.length := Nat.mul_le_mul_left _ h

theorem pow_256_8 (i : Nat) : (256 : Nat) ^ (8 * i) = (2 ^ 64) ^ i := by
  rw [pow_mul]
  rfl

/-- The words that an image leaves in its slot. -/
theorem word_entryImage {m : Memory} (hw : Memory.wf m = true) (key : Nat) (e : RangeEntry) {i : Nat} (hi : i < 8) :
    Memory.word (Memory.writeNat m key 64 (entryImage e)) (key + 8 * i) = (entryWords e).getD i 0 := by
  have hlt : entryImage e < 256 ^ 64 := by
    have h := words_lt (entryWords e)
    rw [← pow_256_8] at h
    exact h
  refine BitVec.eq_of_toNat_eq ?_
  rw [word_toNat, ← readNat_window (n := 64) _ _ (by omega), readNat_writeNat 64 _ _ _ hw, Nat.mod_eq_of_lt hlt, pow_256_8]
  exact digit_of_words (entryWords e) i

/-- The words of the entry that a slot holds. -/
theorem entryOf_word (m : Memory) (key : Nat) {i : Nat} (hi : i < 8) :
    (entryWords (entryOf (BitVec.ofNat 512 (Memory.readNat m key 64)))).getD i 0 = Memory.word m (key + 8 * i) := by
  have himage : (BitVec.ofNat 512 (Memory.readNat m key 64)).toNat = Memory.readNat m key 64 := toNat_ofNat_readNat m key 64
  have hword : ∀ n, n < 8 → toWord (bits (BitVec.ofNat 512 (Memory.readNat m key 64)).toNat (64 * n) 64) = Memory.word m (key + 8 * n) := fun n hn => by
    rw [himage, Memory.word, bits, ← readNat_window (n := 64) m key (by omega), pow_256_8, pow_mul]
    rfl
  have hi' : i = 0 ∨ i = 1 ∨ i = 2 ∨ i = 3 ∨ i = 4 ∨ i = 5 ∨ i = 6 ∨ i = 7 := by omega
  rcases hi' with rfl | rfl | rfl | rfl | rfl | rfl | rfl | rfl
  · exact hword 0 (by decide)
  · exact hword 1 (by decide)
  · exact hword 2 (by decide)
  · exact hword 3 (by decide)
  · exact hword 4 (by decide)
  · exact hword 5 (by decide)
  · exact hword 6 (by decide)
  · exact hword 7 (by decide)

/-- An edit that sets one word of an entry. -/
structure SetsWord (f : RangeEntry → RangeEntry) (n : Nat) (v : Word → Word) : Prop where
  lt : n < 8
  same : ∀ e, (entryWords (f e)).getD n 0 = v ((entryWords e).getD n 0)
  other : ∀ e i, i < 8 → i ≠ n → (entryWords (f e)).getD i 0 = (entryWords e).getD i 0

/-- An entry edited in its slot: the word set, and every other byte as it was. -/
theorem slotEdit {m : Memory} (hw : Memory.wf m = true) (key : Nat) {f : RangeEntry → RangeEntry} {n : Nat} {v : Word → Word} (hf : SetsWord f n v) :
    let m' := Memory.writeNat m key 64 (entryImage (f (entryOf (BitVec.ofNat 512 (Memory.readNat m key 64)))))
    Memory.word m' (key + 8 * n) = v (Memory.word m (key + 8 * n)) ∧
      ∀ x, x < key + 8 * n ∨ key + 8 * n + 8 ≤ x → Memory.read m' x = Memory.read m x := by
  dsimp only
  refine ⟨?_, fun x hx => ?_⟩
  · rw [word_entryImage hw key _ hf.lt, hf.same, entryOf_word m key hf.lt]
  · by_cases hout : x < key ∨ key + 64 ≤ x
    · exact read_writeNat_out _ _ _ _ _ hout
    · have hlt := hf.lt
      have hword : Memory.word (Memory.writeNat m key 64 (entryImage (f (entryOf (BitVec.ofNat 512 (Memory.readNat m key 64))))))
          (key + 8 * ((x - key) / 8)) = Memory.word m (key + 8 * ((x - key) / 8)) := by
        rw [word_entryImage hw key _ (show (x - key) / 8 < 8 by omega), hf.other _ _ (by omega) (by omega), entryOf_word m key (by omega)]
      have h := read_of_word m hword (j := (x - key) % 8) (by omega)
      rw [show key + 8 * ((x - key) / 8) + (x - key) % 8 = x by omega] at h
      exact h

-- Lists (R275) -------------------------------------------------------------------------------------------------------------------------------------

section
variable {s : State} {asid base : Nat} {f : RangeEntry → RangeEntry}

theorem editList_rest (s : State) (pkg asid base : Nat) (f : RangeEntry → RangeEntry) : ∃ m, editList s pkg asid base f = { s with mem := m } := by
  unfold editList
  split
  · exact ⟨s.mem, rfl⟩
  · split
    · exact ⟨s.mem, rfl⟩
    · exact ⟨_, hubWrite_eq _ _⟩

theorem editLists_rest (s : State) (asid base : Nat) (f : RangeEntry → RangeEntry) : ∃ m, editLists s asid base f = { s with mem := m } := by
  refine foldl_keeps (fun t : State => ∃ m, t = { s with mem := m }) _ (fun t p h => ?_) _ _ ⟨s.mem, rfl⟩
  obtain ⟨m, rfl⟩ := h
  obtain ⟨m', h'⟩ := editList_rest { s with mem := m } p asid base f
  exact ⟨m', h'⟩

/-- The range with an ASID and base. -/
theorem isRange_iff (e : RangeEntry) : (e.valid && e.asid == asid && e.base.toNat == base) = true ↔ Named e asid base := by
  rw [Bool.and_eq_true, Bool.and_eq_true, beq_iff_eq, beq_iff_eq, and_assoc]
  exact named_iff e asid base

theorem reachedPkgs_alone (hpkgs : s.pkgs.map Prod.fst = [pkgOf s.ctx.core]) : reachedPkgs s asid = [pkgOf s.ctx.core] := by
  unfold reachedPkgs
  rw [hpkgs]
  simp

/-- The table of one package is that package. -/
theorem getPkg_alone {pkg : Nat} (hpkgs : s.pkgs.map Prod.fst = [pkg]) : s.pkgs = [(pkg, getPkg s pkg)] := by
  obtain ⟨x, hx, hk⟩ := List.map_eq_singleton_iff.1 hpkgs
  subst hk
  have hget : getPkg s x.1 = x.2 := by
    rw [getPkg, hx]
    exact if_pos rfl
  rw [hget, hx]

/-- With no range on the move the hub writes one place. -/
theorem hubWrite_still {pkg : Nat} (hpkgs : s.pkgs.map Prod.fst = [pkg]) (hstill : (getPkg s pkg).compactions = []) (m : Memory) :
    hubWrite s m = { s with mem := m } := by
  refine if_pos ?_
  rw [getPkg_alone hpkgs]
  simp [hstill]

/-- The slot found holds the range. -/
theorem findSlot_named {pkg i key : Nat} (hfind : findSlot s pkg asid base = some i) (hslot : listSlot s pkg asid i = some key) :
    Named (entryOf (BitVec.ofNat 512 (Memory.readNat s.mem key 64))) asid base := by
  unfold findSlot at hfind
  have h := List.find?_some hfind
  dsimp only at h
  rw [hslot] at h
  exact (isRange_iff _).1 h

/-- In a group of one package, where nothing moves, the list's entry alone is edited: its word, and no other byte. -/
theorem editLists_alone (ht : Tidy s) (hpkgs : s.pkgs.map Prod.fst = [pkgOf s.ctx.core]) (hstill : (getPkg s (pkgOf s.ctx.core)).compactions = [])
    {g : RangeEntry → RangeEntry} (hfg : ∀ e, Named e asid base → f e = g e) {n : Nat} {v : Word → Word} (hg : SetsWord g n v) :
    (findSlot s (pkgOf s.ctx.core) asid base = none → (editLists s asid base f).mem = s.mem) ∧
    ∀ i key, findSlot s (pkgOf s.ctx.core) asid base = some i → listSlot s (pkgOf s.ctx.core) asid i = some key →
      Memory.word (editLists s asid base f).mem (key + 8 * n) = v (Memory.word s.mem (key + 8 * n)) ∧
        ∀ x, x < key + 8 * n ∨ key + 8 * n + 8 ≤ x → Memory.read (editLists s asid base f).mem x = Memory.read s.mem x := by
  have hone : editLists s asid base f = editList s (pkgOf s.ctx.core) asid base f := by
    rw [editLists, reachedPkgs_alone hpkgs, List.foldl_cons, List.foldl_nil]
  rw [hone]
  refine ⟨fun hnone => ?_, fun i key hfind hslot => ?_⟩
  · unfold editList
    rw [hnone]
  · have hnamed : Named (entryOf (BitVec.ofNat 512 (Memory.readNat s.mem key 64))) asid base := by
      have h := List.find?_some hfind
      dsimp only at h
      rw [hslot] at h
      dsimp only at h
      rw [isRange_iff] at h
      exact h
    have hedit : (editList s (pkgOf s.ctx.core) asid base f).mem =
        Memory.writeNat s.mem key 64 (entryImage (g (entryOf (BitVec.ofNat 512 (Memory.readNat s.mem key 64))))) := by
      unfold editList
      rw [hfind]
      dsimp only
      rw [hslot]
      dsimp only
      rw [hubWrite_still hpkgs hstill, hfg _ hnamed]
    have hword := slotEdit ht.mem key hg
    dsimp only at hword
    rw [hedit]
    exact hword

theorem setsWord_res (v : Word → Word) : SetsWord (fun e => { e with res := v e.res }) 4 v where
  lt := by decide
  same _ := rfl
  other e i hi hne := by
    have : i = 0 ∨ i = 1 ∨ i = 2 ∨ i = 3 ∨ i = 5 ∨ i = 6 ∨ i = 7 := by omega
    rcases this with rfl | rfl | rfl | rfl | rfl | rfl | rfl <;> rfl

theorem setsWord_off (w : Word) : SetsWord (fun e => { e with off := w }) 2 (fun _ => w) where
  lt := by decide
  same _ := rfl
  other e i hi hne := by
    have : i = 0 ∨ i = 1 ∨ i = 3 ∨ i = 4 ∨ i = 5 ∨ i = 6 ∨ i = 7 := by omega
    rcases this with rfl | rfl | rfl | rfl | rfl | rfl | rfl <;> rfl

end

-- Tables (R277) --------------------------------------------------------------------------------------------------------------------------------

section
variable {s : State} {asid : Nat} {e : Effect} {f : RangeEntry → RangeEntry}

/-- The change on its way to a core that runs a pour. -/
abbrev reachFlight (s : State) (e : Effect) (k : Nat) : Flight :=
  { flightOf s 0 ccSt e with at' := (getCore s k).dcc + reachDelay e (pkgOf k == pkgOf s.ctx.core), cmp := false }

/-- A core that the change reaches. -/
def reachedCore (s : State) (e : Effect) (f : RangeEntry → RangeEntry) (k : Nat) (c : CoreState) : CoreState :=
  match domOf s k with
  | some _ => { c with inflight := c.inflight ++ [reachFlight s e k] }
  | none => editTable f c

theorem tidyCore_reachedCore {k : Nat} {c : CoreState} (h : TidyCore c) : TidyCore (reachedCore s e f k c) := by
  unfold reachedCore
  split
  · exact ⟨h.form⟩
  · exact ⟨h.form⟩

theorem reachedCore_dcc (k : Nat) (c : CoreState) : (reachedCore s e f k c).dcc = c.dcc ∧ (reachedCore s e f k c).pid = c.pid := by
  unfold reachedCore
  split <;> exact ⟨rfl, rfl⟩

/-- The domains and the mirrors are as they were. -/
structure SameMirrors (s t : State) : Prop where
  tidy : Tidy t
  domains : t.domains = s.domains
  ctx : t.ctx = s.ctx
  core : ∀ q, (getCore t q).dcc = (getCore s q).dcc ∧ (getCore t q).pid = (getCore s q).pid

theorem SameMirrors.step {t : State} (h : SameMirrors s t) (k : Nat) : SameMirrors s (modCore t k (reachedCore s e f k)) where
  tidy := tidy_modCore h.tidy fun _ => tidyCore_reachedCore
  domains := h.domains
  ctx := h.ctx
  core q := by
    by_cases hq : q = k
    · subst hq
      rw [show getCore (modCore t q (reachedCore s e f q)) q = reachedCore s e f q (getCore t q) from getCore_setCore_wf _ _ _ h.tidy.cores]
      obtain ⟨h1, h2⟩ := reachedCore_dcc (s := s) (e := e) (f := f) q (getCore t q)
      exact ⟨h1.trans (h.core q).1, h2.trans (h.core q).2⟩
    · rw [getCore_modCore_ne _ _ hq]
      exact h.core q

theorem SameMirrors.domOf {t : State} (h : SameMirrors s t) (k : Nat) : domOf t k = domOf s k := by
  unfold Machine.domOf findDom
  rw [(h.core k).2, h.domains]

theorem SameMirrors.reachFlight {t : State} (h : SameMirrors s t) (k : Nat) : reachFlight t e k = reachFlight s e k := by
  have hcur : (cur t).dcc = (cur s).dcc := by rw [cur, cur, h.ctx]; exact (h.core _).1
  unfold Proofs.reachFlight flightOf
  rw [hcur, h.ctx, (h.core k).1]

/-- What one core's turn does. -/
theorem reachStep {t : State} (h : SameMirrors s t) (hout : isOutward e = false) (k : Nat) :
    (match Machine.domOf t k with
      | some _ => addFlight t k (Proofs.reachFlight t e k)
      | none => modCore t k (editTable f)) = modCore t k (reachedCore s e f k) := by
  rw [h.domOf, h.reachFlight]
  have hcase : ∀ o : Option Domain, (match o with
      | some _ => addFlight t k (Proofs.reachFlight s e k)
      | none => modCore t k (editTable f)) = modCore t k fun c => match o with
      | some _ => { c with inflight := c.inflight ++ [Proofs.reachFlight s e k] }
      | none => editTable f c := fun o => by
    cases o with
    | none => rfl
    | some d =>
      unfold addFlight
      rw [show isOutward (Proofs.reachFlight s e k).eff = false from hout]
      rfl
  exact hcase _

theorem reachAll_eq (ht : Tidy s) (hout : isOutward e = false) : reachAll s asid e (editTable f) =
    ((reachedPkgs s asid).flatMap (computeCores s)).foldl (fun t k => modCore t k (reachedCore s e f k)) s := by
  have hfold : ∀ (l : List Nat) (t : State), SameMirrors s t → l.foldl (fun t k => match domOf t k with
      | some _ => addFlight t k (reachFlight t e k)
      | none => modCore t k (editTable f)) t = l.foldl (fun t k => modCore t k (reachedCore s e f k)) t := by
    intro l
    induction l with
    | nil => exact fun _ _ => rfl
    | cons k r ih =>
      intro t h
      rw [List.foldl_cons, List.foldl_cons, reachStep h hout]
      exact ih _ (h.step k)
  exact hfold _ s ⟨ht, rfl, rfl, fun _ => ⟨rfl, rfl⟩⟩

/-- Cores changed one by one, each once. -/
theorem getCore_foldMod {g : Nat → CoreState → CoreState} (hg : ∀ k c, TidyCore c → TidyCore (g k c)) :
    ∀ (l : List Nat), l.Nodup → ∀ t : State, Tidy t → ∀ q,
      getCore (l.foldl (fun t k => modCore t k (g k)) t) q = if q ∈ l then g q (getCore t q) else getCore t q := by
  intro l
  induction l with
  | nil => exact fun _ t _ q => by simp
  | cons k r ih =>
    intro hl t ht q
    obtain ⟨hk, hr⟩ := List.nodup_cons.1 hl
    rw [List.foldl_cons, ih hr _ (tidy_modCore ht (hg k))]
    by_cases hq : q = k
    · subst hq
      rw [if_neg hk, if_pos List.mem_cons_self]
      exact getCore_setCore_wf _ _ _ ht.cores
    · rw [getCore_modCore_ne _ _ hq]
      simp only [List.mem_cons, hq, false_or]

end

-- The cores that a change reaches --------------------------------------------------------------------------------------------------------------

section
variable {s : State} {asid base : Nat}

theorem keys_increasing {α : Type} [DecidableEq α] (d : α) : ∀ (m : Sparse α) (lo : Nat), Sparse.wfFrom d lo m = true →
    (m.map Prod.fst).Pairwise (· < ·) ∧ ∀ k ∈ m.map Prod.fst, lo ≤ k
  | [], _, _ => ⟨.nil, fun _ h => (by simp at h)⟩
  | (k, v) :: r, lo, h => by
    simp only [Sparse.wfFrom, Bool.and_eq_true, decide_eq_true_eq] at h
    obtain ⟨⟨hlo, -⟩, hr⟩ := h
    obtain ⟨h1, h2⟩ := keys_increasing d r (k + 1) hr
    refine ⟨List.pairwise_cons.2 ⟨fun q hq => h2 q hq, h1⟩, fun q hq => ?_⟩
    rcases List.mem_cons.1 hq with rfl | hq
    · exact hlo
    · exact hlo.trans ((Nat.le_succ k).trans (h2 q hq))

theorem get_of_notMem {α : Type} (d : α) : ∀ (m : Sparse α) (k : Nat), k ∉ m.map Prod.fst → Sparse.get d m k = d
  | [], _, _ => rfl
  | (a, v) :: r, k, h => by
    rw [List.map_cons, List.mem_cons, not_or] at h
    exact (if_neg h.1).trans (get_of_notMem d r k h.2)

/-- A core that a change reaches, whether the table lists it or not. -/
abbrev Reached (s : State) (asid q : Nat) : Prop := q % 1024 < 640 ∧
  (q / 1024 = pkgOf s.ctx.core ∨
    (q / 1024 ∈ s.pkgs.map Prod.fst ∧ foreignAsid s (q / 1024) (ownPart s s.ctx.core) asid = false))

theorem mem_reachedPkgs (p : Nat) : p ∈ reachedPkgs s asid ↔
    p = pkgOf s.ctx.core ∨ (p ∈ s.pkgs.map Prod.fst ∧ foreignAsid s p (ownPart s s.ctx.core) asid = false) := by
  unfold reachedPkgs
  rw [List.mem_cons, List.mem_filter, Bool.and_eq_true, bne_iff_ne, Bool.not_eq_true']
  constructor
  · rintro (h | ⟨h1, -, h2⟩)
    · exact .inl h
    · exact .inr ⟨h1, h2⟩
  · rintro (h | ⟨h1, h2⟩)
    · exact .inl h
    · by_cases h : p = pkgOf s.ctx.core
      · exact .inl h
      · exact .inr ⟨h1, h, h2⟩

theorem mem_computeCores (p q : Nat) : q ∈ computeCores s p ↔ q ∈ s.cores.map Prod.fst ∧ q / 1024 = p ∧ q % 1024 < 640 := by
  simp only [computeCores, List.mem_filter, Bool.and_eq_true, decide_eq_true_eq]
  exact Iff.rfl

theorem mem_reachedCores (q : Nat) : q ∈ (reachedPkgs s asid).flatMap (computeCores s) ↔ q ∈ s.cores.map Prod.fst ∧ Reached s asid q := by
  rw [List.mem_flatMap]
  constructor
  · rintro ⟨p, hp, hq⟩
    obtain ⟨h1, rfl, h2⟩ := (mem_computeCores p q).1 hq
    exact ⟨h1, h2, (mem_reachedPkgs _).1 hp⟩
  · rintro ⟨h1, h2, h3⟩
    exact ⟨q / 1024, (mem_reachedPkgs _).2 h3, (mem_computeCores _ q).2 ⟨h1, rfl, h2⟩⟩

theorem nodup_reachedCores (ht : Tidy s) (hn : (s.pkgs.map Prod.fst).Nodup) : ((reachedPkgs s asid).flatMap (computeCores s)).Nodup := by
  have hcores : (s.cores.map Prod.fst).Nodup := ((keys_increasing {} s.cores 0 ht.cores).1).imp fun h => Nat.ne_of_lt h
  refine List.nodup_flatMap.2 ⟨fun p _ => hcores.filter _, ?_⟩
  have hpkgs : (reachedPkgs s asid).Nodup := by
    refine List.nodup_cons.2 ⟨fun h => ?_, hn.filter _⟩
    have := (List.mem_filter.1 h).2
    simp at this
  refine hpkgs.imp fun hab q ha hb => hab ?_
  rw [← ((mem_computeCores _ q).1 ha).2.1, ← ((mem_computeCores _ q).1 hb).2.1]

/-- The table of a core that a change reaches at once. -/
theorem getCore_reachAll (ht : Tidy s) (hn : (s.pkgs.map Prod.fst).Nodup) {e : Effect} (hout : isOutward e = false) (f : RangeEntry → RangeEntry)
    (q : Nat) : getCore (reachAll s asid e (editTable f)) q =
      if q ∈ s.cores.map Prod.fst ∧ Reached s asid q then reachedCore s e f q (getCore s q) else getCore s q := by
  rw [reachAll_eq ht hout, getCore_foldMod (fun _ _ => tidyCore_reachedCore) _ (nodup_reachedCores ht hn) s ht q]
  exact if_congr (mem_reachedCores q) rfl rfl

theorem reachAll_rest (ht : Tidy s) {e : Effect} (hout : isOutward e = false) (f : RangeEntry → RangeEntry) :
    (reachAll s asid e (editTable f)).domains = s.domains ∧ (reachAll s asid e (editTable f)).mem = s.mem := by
  rw [reachAll_eq ht hout]
  exact foldl_keeps (fun t : State => t.domains = s.domains ∧ t.mem = s.mem) _ (by intro t k h; exact h) _ _ ⟨rfl, rfl⟩

/-- What an edit of a range does to lists and tables (R191). -/
structure Edits (s t : State) (asid base : Nat) (e : Effect) (g : RangeEntry → RangeEntry) (n : Nat) (v : Word → Word) (near far : Nat) : Prop where
  domains : t.domains = s.domains
  other : ∀ q, ¬ Reached s asid q → getCore t q = getCore s q
  idle : ∀ q, Reached s asid q → domOf s q = none →
    getCore t q = { getCore s q with ranges := (getCore s q).ranges.map (fun p => (p.1, if Named p.2 asid base then g p.2 else p.2)) }
  running : ∀ q d, Reached s asid q → q ∈ s.cores.map Prod.fst → domOf s q = some d →
    getCore t q = { getCore s q with inflight := (getCore s q).inflight ++
      [{ flightOf s 0 ccSt e with at' := (getCore s q).dcc + (if q / 1024 = pkgOf s.ctx.core then near else far), cmp := false }] }
  lists : s.pkgs.map Prod.fst = [pkgOf s.ctx.core] → (getPkg s (pkgOf s.ctx.core)).compactions = [] →
    (findSlot s (pkgOf s.ctx.core) asid base = none → t.mem = s.mem) ∧
    ∀ i key, findSlot s (pkgOf s.ctx.core) asid base = some i → listSlot s (pkgOf s.ctx.core) asid i = some key →
      Memory.word t.mem (key + 8 * n) = v (Memory.word s.mem (key + 8 * n)) ∧
        ∀ x, x < key + 8 * n ∨ key + 8 * n + 8 ≤ x → Memory.read t.mem x = Memory.read s.mem x

theorem edits_reachAll (ht : Tidy s) (hn : (s.pkgs.map Prod.fst).Nodup) {e : Effect} (hout : isOutward e = false) {f g : RangeEntry → RangeEntry}
    (hf : ∀ x, f x = if Named x asid base then g x else x) {n : Nat} {v : Word → Word} (hg : SetsWord g n v) {near far : Nat}
    (hnear : reachDelay e true = near) (hfar : reachDelay e false = far) :
    Edits s (reachAll (editLists s asid base f) asid e (editTable f)) asid base e g n v near far := by
  obtain ⟨m, hm⟩ := editLists_rest s asid base f
  have hlists : Tidy (editLists s asid base f) := tidy_editLists ht
  have hcore : ∀ q, getCore (reachAll (editLists s asid base f) asid e (editTable f)) q =
      if q ∈ s.cores.map Prod.fst ∧ Reached s asid q then reachedCore s e f q (getCore s q) else getCore s q := fun q => by
    rw [getCore_reachAll hlists (by rw [hm]; exact hn) hout f q, hm]
    rfl
  obtain ⟨hdomains, hmem⟩ := reachAll_rest (asid := asid) hlists hout f
  refine ⟨hdomains.trans (by rw [hm]), fun q hq => ?_, fun q hq hnone => ?_, fun q d hq hmemq hsome => ?_, fun hpkgs hstill => ?_⟩
  · rw [hcore, if_neg fun h => hq h.2]
  · have hfun : (fun p : Nat × RangeEntry => (p.1, f p.2)) = fun p => (p.1, if Named p.2 asid base then g p.2 else p.2) :=
      funext fun p => by rw [hf]
    rw [hcore]
    by_cases hmemq : q ∈ s.cores.map Prod.fst
    · rw [if_pos ⟨hmemq, hq⟩, reachedCore, hnone]
      exact congrArg (fun l => { getCore s q with ranges := l }) (congrArg (List.map · (getCore s q).ranges) hfun)
    · rw [if_neg fun h => hmemq h.1, show getCore s q = {} from get_of_notMem _ _ _ hmemq]
      rfl
  · have hdelay : reachDelay e (pkgOf q == pkgOf s.ctx.core) = if q / 1024 = pkgOf s.ctx.core then near else far := by
      by_cases h : pkgOf q = pkgOf s.ctx.core
      · rw [show (pkgOf q == pkgOf s.ctx.core) = true from beq_iff_eq.2 h, hnear]
        exact (if_pos h).symm
      · rw [show (pkgOf q == pkgOf s.ctx.core) = false from beq_eq_false_iff_ne.2 h, hfar]
        exact (if_neg h).symm
    rw [hcore, if_pos ⟨hmemq, hq⟩, reachedCore, hsome]
    dsimp only
    rw [reachFlight, hdelay]
  · rw [hmem]
    exact editLists_alone ht hpkgs hstill (fun x hx => (hf x).trans (if_pos hx)) hg

theorem resEdit_named (m : Word) (z : Bool) (x : RangeEntry) : resEdit asid base m z x =
    if Named x asid base then { x with res := if z then x.res &&& ~~~m else x.res ||| m } else x := resEdit_eq asid base m z x

theorem retEdit_named (o : Word) (x : RangeEntry) : retEdit asid base o x = if Named x asid base then { x with off := o } else x :=
  retEdit_eq asid base o x

-- The commands (R191) --------------------------------------------------------------------------------------------------------------------------

theorem sysOnly_runs (hsys : s.ctx.sys = true) (f : State → State) : sysOnly s f = .next (f s) := by rw [sysOnly, if_pos hsys]

theorem ownAsid_refuses (h : foreignAsid s (pkgOf s.ctx.core) (ownPart s s.ctx.core) asid ≠ false) (f : State → State) : ownAsid s asid f = s :=
  if_pos (Bool.eq_true_of_not_eq_false h)

theorem ownAsid_runs (h : foreignAsid s (pkgOf s.ctx.core) (ownPart s s.ctx.core) asid = false) (f : State → State) : ownAsid s asid f = f s :=
  if_neg (by rw [h]; decide)

theorem systemEvent_rest (s : State) (k : Nat) (e : Option (Nat × Nat × List Byte)) : ∃ pkgs, systemEvent s k e = { s with pkgs := pkgs } := by
  unfold systemEvent
  split
  · unfold extendMeas
    dsimp only
    split
    · exact ⟨_, rfl⟩
    · exact ⟨_, rfl⟩
  · exact ⟨s.pkgs, rfl⟩

/-- A range moved onto another partition's memory (R357). -/
theorem foreignMap_iff (off : Nat) : foreignMap s asid base off = true ↔ ∃ q ∈ reachedPkgs s asid, ∃ e ∈ rangeBackings s q asid base,
    foreignRun s q (ownPart s s.ctx.core) ((base + off) % 2 ^ 64) (e.limit.toNat - e.base.toNat) = true := by
  simp only [foreignMap, List.any_eq_true]

/-- A core of a running pour that holds the range with PIN pins it (R278). -/
theorem pinnedThere_of_held {q : Nat} {p : Nat × RangeEntry} (hq : q ∈ s.cores.map Prod.fst) (hcore : q % 1024 < 640) (hpkg : q / 1024 = pkgOf s.ctx.core)
    (hd : (domOf s q).isSome = true) (hp : p ∈ (getCore s q).ranges) (hnamed : Named p.2 asid base) (hpin : p.2.ctl.toNat / 2 ^ 6 % 2 = 1) :
    pinnedThere s asid base = true := by
  refine List.any_eq_true.2 ⟨pkgOf s.ctx.core, (mem_reachedPkgs _).2 (.inl rfl), ?_⟩
  refine Bool.or_eq_true_iff.2 (.inl (List.any_eq_true.2 ⟨q, (mem_computeCores _ q).2 ⟨hq, hpkg, hcore⟩, ?_⟩))
  refine Bool.and_eq_true_iff.2 ⟨hd, Bool.or_eq_true_iff.2 (.inl (List.any_eq_true.2 ⟨p, hp, ?_⟩))⟩
  exact Bool.and_eq_true_iff.2 ⟨(isRange_iff _).2 hnamed, beq_iff_eq.2 hpin⟩

theorem eret_eq (hsys : s.ctx.sys = true) : exec .eret s = .next (modCur s leaveHypervisor) := by
  change execEret s = _
  rw [execEret, sysOnly_runs hsys]

/-- The state in which the hypervisor has been entered. -/
def hypervisorEntered (s : State) (n : BitVec 16) : State :=
  { modCur s (fun c => enterHypervisor c s.ctx.next (Config.freeWord s.free).toNat n) with free := s.free + 1 }

theorem hvcall_eq (n : BitVec 16) (hsys : s.ctx.sys = true) : exec (.hvcall n) s =
    .next (systemEvent (hypervisorEntered s n) s.ctx.core (Config.hvEvent n.toNat (cur s).sregs)) := by
  change execHvcall n s = _
  rw [execHvcall, sysOnly_runs hsys]
  rfl

/-- What RRES, its clear form and RRET come to, once the core may execute them. -/
theorem rres_eq (a b : SReg) (x : BitVec 12) (hsys : s.ctx.sys = true) : exec (.rres a b x) s = .next (ownAsid s x.toNat fun s =>
    reachAll (editLists s x.toNat (rdN s a) (resEdit x.toNat (rdN s a) (rd s b) false)) x.toNat (.rres x.toNat (rdN s a) (rd s b) false)
      (editTable (resEdit x.toNat (rdN s a) (rd s b) false))) := by
  change execRres a b x s = _
  rw [execRres, sysOnly_runs hsys]

theorem rresClear_eq (a b : SReg) (x : BitVec 12) (hsys : s.ctx.sys = true) : exec (.rresClear a b x) s = .next (ownAsid s x.toNat fun s =>
    if pinnedThere s x.toNat (rdN s a) then refuse s (pkgOf s.ctx.core) x.toNat (rdN s a)
    else reachAll (editLists s x.toNat (rdN s a) (resEdit x.toNat (rdN s a) (rd s b) true)) x.toNat (.rres x.toNat (rdN s a) (rd s b) true)
      (editTable (resEdit x.toNat (rdN s a) (rd s b) true))) := by
  change execRresClear a b x s = _
  rw [execRresClear, sysOnly_runs hsys]

theorem rret_eq (a b : SReg) (x : BitVec 12) (hsys : s.ctx.sys = true) : exec (.rret a b x) s = .next (ownAsid s x.toNat fun s =>
    if foreignMap s x.toNat (rdN s a) (rdN s b) then s
    else if pinnedThere s x.toNat (rdN s a) then refuse s (pkgOf s.ctx.core) x.toNat (rdN s a)
    else markMoved (reachAll (editLists s x.toNat (rdN s a) (retEdit x.toNat (rdN s a) (rd s b))) x.toNat (.rret x.toNat (rdN s a) (rd s b))
      (editTable (retEdit x.toNat (rdN s a) (rd s b)))) (pkgOf s.ctx.core) x.toNat (rdN s a)) := by
  change execRret a b x s = _
  rw [execRret, sysOnly_runs hsys]

end

/-- Settles O23: the commands of a system core. -/
theorem systemCoreCommands : Obligations.SystemCoreCommands := by
  unfold Obligations.SystemCoreCommands
  intro s a b n asid hsys hpid hform
  have ht : Tidy s := ⟨hform⟩
  dsimp only
  have hcur : ∀ f : CoreState → CoreState, cur (modCur s f) = f (cur s) := fun f => getCore_setCore_wf _ _ _ ht.cores
  have hunpinned : pinnedThere s asid.toNat (rd s a).toNat = false → ¬ pinnedThere s asid.toNat (rdN s a) = true := fun h => Bool.eq_false_iff.1 h
  have hmap : foreignMap s asid.toNat (rdN s a) (rdN s b) = true ↔ _ := foreignMap_iff (rdN s b)
  refine ⟨?_, ?_, fun hno => ?_, fun hmine hn => ?_, fun hmine habroad => ?_, fun hmine hn hpin => ?_, fun hmine habroad hn hpin => ?_,
    fun hmine hpin => ?_, fun q p hq hcore hpkg hd hp hnamed hbit => pinnedThere_of_held hq hcore hpkg hd hp hnamed hbit⟩
  · refine ⟨_, eret_eq hsys, ?_⟩
    rw [hcur]
    exact ⟨rfl, rfl, rfl, rfl, rfl⟩
  · obtain ⟨pkgs, hp⟩ := systemEvent_rest (hypervisorEntered s n) s.ctx.core (Config.hvEvent n.toNat (cur s).sregs)
    have hcore : cur (hypervisorEntered s n) = enterHypervisor (cur s) s.ctx.next (Config.freeWord s.free).toNat n :=
      hcur fun c => enterHypervisor c s.ctx.next (Config.freeWord s.free).toNat n
    have hsame : cur { hypervisorEntered s n with pkgs := pkgs } = cur (hypervisorEntered s n) := rfl
    refine ⟨_, (hvcall_eq n hsys).trans (by rw [hp]), ?_⟩
    rw [hsame, hcore]
    exact ⟨rfl, rfl, rfl, rfl, rfl, rfl, rfl⟩
  · rw [rres_eq a b asid hsys, rresClear_eq a b asid hsys, rret_eq a b asid hsys, ownAsid_refuses hno, ownAsid_refuses hno, ownAsid_refuses hno]
    exact ⟨rfl, rfl, rfl⟩
  · rw [rres_eq a b asid hsys, ownAsid_runs hmine]
    have h := edits_reachAll (asid := asid.toNat) (base := rdN s a) (e := .rres asid.toNat (rdN s a) (rd s b) false) ht hn rfl (resEdit_named (rd s b) false)
      (setsWord_res fun w => w ||| rd s b) rfl rfl
    exact ⟨_, rfl, h.domains, h.other, h.idle, h.running, h.lists⟩
  · rw [rret_eq a b asid hsys, ownAsid_runs hmine, if_pos (hmap.2 habroad)]
  · rw [rresClear_eq a b asid hsys, ownAsid_runs hmine, if_neg (hunpinned hpin)]
    have h := edits_reachAll (asid := asid.toNat) (base := rdN s a) (e := .rres asid.toNat (rdN s a) (rd s b) true) ht hn rfl (resEdit_named (rd s b) true)
      (setsWord_res fun w => w &&& ~~~rd s b) rfl rfl
    exact ⟨_, rfl, h.domains, h.other, h.idle, h.running, h.lists⟩
  · rw [rret_eq a b asid hsys, ownAsid_runs hmine, if_neg (mt hmap.1 habroad), if_neg (hunpinned hpin)]
    have h := edits_reachAll (asid := asid.toNat) (base := rdN s a) (e := .rret asid.toNat (rdN s a) (rd s b)) ht hn rfl (retEdit_named (rd s b)) (setsWord_off (rd s b)) rfl rfl
    exact ⟨_, rfl, h.domains, h.other, h.idle, h.running, h.lists⟩
  · rw [rresClear_eq a b asid hsys, ownAsid_runs hmine, if_pos (show pinnedThere s asid.toNat (rdN s a) = true from hpin)]
    refine ⟨rfl, fun habroad => ?_⟩
    rw [rret_eq a b asid hsys, ownAsid_runs hmine, if_neg (mt hmap.1 habroad),
      if_pos (show pinnedThere s asid.toNat (rdN s a) = true from hpin)]
    rfl

end Sys2Proof.Proofs
end

