-- ==== Sys2Proof/Proofs/Landings.lean ====
section
/-! PROOF. The landings of a core's cycle (R25, R82, R100, R101, R164, R284), on a core without a pair partner. -/

namespace Sys2Proof.Proofs

open Sys2Proof Sys2Proof.Machine Sys2Proof.Claims Sys2Proof.Laws

-- One entry on its core ------------------------------------------------------------------------------------------------------------------------

section
variable {s : State} {k : Nat} {f : Flight} (g : Stream → Agent)

/-- The scratchpad with a run written, and the note of the write. -/
def spadWritten (c : CoreState) (f : Flight) (a n en v : Nat) : CoreState :=
  { c with spad := Memory.writeMasked c.spad a en v n, wrote := ⟨a, en, none, f.station, f.issue, f.seq⟩ :: c.wrote }

theorem tidyCore_spadWritten {c : CoreState} (h : TidyCore c) (f : Flight) (a n en v : Nat) : TidyCore (spadWritten c f a n en v) :=
  ⟨(h.setSpad (wf_writeMasked n c.spad a en v h.wfSpad)).form⟩

/-- The landing counter that a command names takes the bytes. -/
def counted (c : CoreState) (lc : Option Nat) (n : Nat) (agent : Agent) : CoreState :=
  match lc with
  | none => c
  | some l => setLc c l ((getLc c l).add n agent)

/-- The core once a plain entry has landed; `g` gives the agents of its streams. -/
def landed (c : CoreState) (f : Flight) : CoreState :=
  match f.eff with
  | .sreg r v => sput c r v
  | .spad a n en v lc => counted (spadWritten c f a n en v) lc (countOnes en n) (g f.stream)
  | .row r en v _ => setRow c r (mergeRow (getRow c r) v en)
  | .mask m en v => { c with masks := Sparse.set 0 c.masks m ((getMask c m &&& ~~~en) ||| (v &&& en)) }
  | .kpred n v => { c with kpreds := Sparse.set {} c.kpreds n v }
  | .qp q v => { c with qps := Sparse.set 0 c.qps q (qpMask v) }
  | .slotSt n st => { c with slots := Sparse.set {} c.slots n { getSlot c n with st := st } }
  | .pmRows p vals => { c with pm := putRows c.pm (8 * p) vals }
  | .cbRows p vals => { c with cb := putRows c.cb (16 * p) vals }
  | .fqAppend v => { c with fq := c.fq ++ [v], fqSeq := f.seq, fqEvt := f.evt }
  | .lcset l t => setLc c l ((getLc c l).reset t (g .cc))
  | .sysreg n v => sysWrite c n v
  | .flags e v => stickFlags c e v
  | .symForce => { c with symForce := true }
  | .watchAdd a => { c with watch := watchPut c.watch (watchHashes a) }
  | .watchClr => { c with watch := 0 }
  | _ => c

theorem tidyCore_counted {c : CoreState} (h : TidyCore c) (lc : Option Nat) (n : Nat) (agent : Agent) : TidyCore (counted c lc n agent) := by
  cases lc with
  | none => exact h
  | some l => exact tidyCore_setLc h

theorem tidyCore_landed {c : CoreState} (h : TidyCore c) (f : Flight) : TidyCore (landed g c f) := by
  unfold landed
  cases f.eff with
  | sreg => exact tidyCore_sput h
  | spad a n en v lc => exact tidyCore_counted (tidyCore_spadWritten h f a n en v) lc (countOnes en n) (g f.stream)
  | row => exact tidyCore_setRow h
  | mask => exact h.setMasks (wf_set0 h.wfMasks)
  | kpred => exact h.setKpreds (wf_set0 h.wfKpreds)
  | qp => exact h.setQps (wf_set0 h.wfQps)
  | slotSt => exact h.setSlots (wf_set0 h.wfSlots)
  | pmRows => exact h.setPm (wf_putRows _ _ _ h.wfPm)
  | cbRows => exact h.setCb (wf_putRows _ _ _ h.wfCb)
  | fqAppend => exact ⟨h.form⟩
  | lcset => exact tidyCore_setLc h
  | sysreg => exact tidyCore_sysWrite h
  | flags => exact tidyCore_stickFlags h
  | symForce => exact ⟨h.form⟩
  | watchAdd => exact ⟨h.form⟩
  | watchClr => exact ⟨h.form⟩
  | _ => exact h

/-- Two states that differ in one core, and in what its counters have counted. -/
structure OnCore (s : State) (k : Nat) (c : CoreState) (t : State) : Prop where
  tidy : Tidy t
  core : getCore t k = c
  other : ∀ q, q ≠ k → getCore t q = getCore s q
  mem : t.mem = s.mem
  domains : t.domains = s.domains
  pkgs : t.pkgs = s.pkgs

theorem onCore_refl (ht : Tidy s) : OnCore s k (getCore s k) s := ⟨ht, rfl, fun _ _ => rfl, rfl, rfl, rfl⟩

theorem OnCore.modCore {c : CoreState} {t : State} (h : OnCore s k c t) {e : CoreState → CoreState} (he : ∀ c, TidyCore c → TidyCore (e c)) :
    OnCore s k (e c) (modCore t k e) where
  tidy := tidy_modCore h.tidy he
  core := (getCore_setCore_wf t k (e (getCore t k)) h.tidy.cores).trans (congrArg e h.core)
  other q hq := by rw [getCore_modCore_ne _ _ hq, h.other q hq]
  mem := h.mem
  domains := h.domains
  pkgs := h.pkgs

theorem OnCore.setCore {c : CoreState} {t : State} (h : OnCore s k c t) {e : CoreState} (he : TidyCore e) : OnCore s k e (setCore t k e) :=
  h.modCore fun _ _ => he

/-- The agents of a core's streams are as they were. -/
theorem OnCore.agent {c : CoreState} {t : State} (h : OnCore s k c t) (hpid : c.pid = (getCore s k).pid) (st : Stream) :
    coreAgent t k st = coreAgent s k st := by
  unfold coreAgent
  rw [h.core, hpid, getPkg, h.pkgs]
  rfl

theorem landed_pid (c : CoreState) (f : Flight) : (landed g c f).pid = c.pid := by
  unfold landed
  cases f.eff with
  | sreg => exact sput_pid _ _ _
  | spad _ _ _ _ lc => cases lc <;> rfl
  | sysreg n v =>
    unfold sysWrite
    dsimp only
    split <;> rfl
  | flags e v => cases e <;> rfl
  | _ => rfl

/-- An entry that puts a value in its destination changes its core alone. -/
theorem OnCore.applyLocal {c : CoreState} {t : State} (h : OnCore s k c t) (hpid : c.pid = (getCore s k).pid) (f : Flight)
    (hplain : plainLanding f.eff = true) : OnCore s k (landed (coreAgent s k) c f) (applyLocal t k f) := by
  unfold Machine.applyLocal landed
  cases hf : f.eff with
  | sreg => exact h.modCore fun c hc => tidyCore_sput hc
  | spad a n en v lc =>
    have hw := h.modCore (e := fun c => spadWritten c f a n en v) fun c hc => tidyCore_spadWritten hc f a n en v
    cases lc with
    | none => exact hw
    | some l =>
      rw [← hw.agent hpid]
      exact hw.modCore (e := fun c => counted c (some l) (countOnes en n) (coreAgent (Machine.modCore t k fun c => spadWritten c f a n en v) k f.stream))
        fun c hc => tidyCore_counted hc _ _ _
  | row r en v ev => exact h.modCore (e := fun c => setRow c r (mergeRow (getRow c r) v en)) fun c hc => tidyCore_setRow hc
  | mask m en v =>
    exact h.modCore (e := fun c => { c with masks := Sparse.set 0 c.masks m ((getMask c m &&& ~~~en) ||| (v &&& en)) })
      fun c hc => hc.setMasks (wf_set0 hc.wfMasks)
  | kpred n v => exact h.modCore (e := fun c => { c with kpreds := Sparse.set {} c.kpreds n v }) fun c hc => hc.setKpreds (wf_set0 hc.wfKpreds)
  | qp q v => exact h.modCore (e := fun c => { c with qps := Sparse.set 0 c.qps q (qpMask v) }) fun c hc => hc.setQps (wf_set0 hc.wfQps)
  | slotSt n st =>
    exact h.modCore (e := fun c => { c with slots := Sparse.set {} c.slots n { getSlot c n with st := st } })
      fun c hc => hc.setSlots (wf_set0 hc.wfSlots)
  | pmRows p vals => exact h.modCore (e := fun c => { c with pm := putRows c.pm (8 * p) vals }) fun c hc => hc.setPm (wf_putRows _ _ _ hc.wfPm)
  | cbRows p vals => exact h.modCore (e := fun c => { c with cb := putRows c.cb (16 * p) vals }) fun c hc => hc.setCb (wf_putRows _ _ _ hc.wfCb)
  | fqAppend v => exact h.modCore (e := fun c => { c with fq := c.fq ++ [v], fqSeq := f.seq, fqEvt := f.evt }) fun c hc => ⟨hc.form⟩
  | lcset l x =>
    rw [← h.agent hpid .cc]
    have hcounted : OnCore s k c { t with counted := t.counted.filter (fun x => !(x.1 = k && x.2.1 = l)) } :=
      ⟨h.tidy.lit, h.core, h.other, h.mem, h.domains, h.pkgs⟩
    exact hcounted.modCore (e := fun c => setLc c l ((getLc c l).reset x (coreAgent t k .cc))) fun c hc => tidyCore_setLc hc
  | sysreg => exact h.modCore fun c hc => tidyCore_sysWrite hc
  | flags => exact h.modCore fun c hc => tidyCore_stickFlags hc
  | symForce => exact h.modCore (e := fun c => { c with symForce := true }) fun c hc => ⟨hc.form⟩
  | watchAdd a => exact h.modCore (e := fun c => { c with watch := watchPut c.watch (watchHashes a) }) fun c hc => ⟨hc.form⟩
  | watchClr => exact h.modCore (e := fun c => { c with watch := 0 }) fun c hc => ⟨hc.form⟩
  | yload => rw [hf] at hplain; cases hplain
  | rload => rw [hf] at hplain; cases hplain
  | rsplit => rw [hf] at hplain; cases hplain
  | rmerge => rw [hf] at hplain; cases hplain
  | raise => rw [hf] at hplain; cases hplain
  | _ => exact h

theorem OnCore.applyLocals (l : List Flight) (hplain : ∀ f ∈ l, plainLanding f.eff = true) : ∀ {c : CoreState} {t : State}, OnCore s k c t →
    c.pid = (getCore s k).pid → OnCore s k (l.foldl (landed (coreAgent s k)) c) (l.foldl (fun t f => Machine.applyLocal t k f) t) := by
  induction l with
  | nil => exact fun h _ => h
  | cons f r ih =>
    intro c t h hpid
    exact ih (fun x hx => hplain x (List.mem_cons_of_mem _ hx)) (h.applyLocal hpid f (hplain f List.mem_cons_self))
      ((landed_pid _ _ _).trans hpid)

end

-- A cycle without a pair partner (R100) --------------------------------------------------------------------------------------------------------

section
variable {s : State} {k : Nat} {d : Domain}

/-- The entries of the cycle that a receive window keeps out (R216), and those that land. -/
def keptOut (s : State) (k : Nat) : List Flight := (dueNow s k).filter (windowHit (getCore s k))
def landing (s : State) (k : Nat) : List Flight := (dueNow s k).filter fun f => !((keptOut s k).any (sameStore f))

/-- The core as the landings find it: the due entries are out of its queue, and the tiles have their tags. -/
def beforeLandings (c : CoreState) (l : List Flight) : CoreState := { coreBeside c c.dcc isLocal with tags := tagsAfter c l }

theorem tidyCore_beforeLandings {c : CoreState} (h : TidyCore c) (l : List Flight) : TidyCore (beforeLandings c l) :=
  ⟨((tidyCore_dueOf (cyc := c.dcc) (p := isLocal) h).setTags (wf_tagsAfter h)).form⟩

/-- The core's cycle as its clock runs it. -/
theorem resultLanding_alone (hd : findDom s (getCore s k).pid = some d) (hcyc : d.cycling = true) (hlive : liveIn s d k = true)
    (hpart : partnerOf d k = none) : exec (.resultLanding k) s = .next (landResults s k none) := by
  refine (coreCycle_runs hd hcyc hlive _).trans ?_
  rw [withPair, hpart]

/-- The state once the entries that land have landed. -/
def afterLandings (s : State) (k : Nat) : State :=
  let t := (landing s k).foldl (fun t f => applyLocal t k f) (setCore s k (beforeLandings (getCore s k) (landing s k)))
  if anyCollision (landing s k) then modCore t k (fun c => { c with collision := true }) else t

theorem landResults_alone (s : State) (k : Nat) : landResults s k none =
    (keptOut s k).foldl (fun t f => lateFault t k f fPermission 0 [] 0) (afterLandings s k) := by
  unfold landResults
  dsimp only
  simp only [Bool.not_false, List.filter_true, List.filter_false, List.foldl_nil]
  rfl

/-- Where no window keeps an entry out, all that fall due land. -/
theorem landing_all (h : ∀ f ∈ dueNow s k, windowHit (getCore s k) f = false) : keptOut s k = [] ∧ landing s k = dueNow s k := by
  have hnone : keptOut s k = [] := List.filter_eq_nil_iff.2 fun f hf => by rw [h f hf]; decide
  refine ⟨hnone, ?_⟩
  unfold landing
  rw [hnone]
  exact List.filter_eq_self.2 fun _ _ => rfl

/-- The core once the entries `l` have landed, and whether two of them collided (R101). -/
def coreLanded (s : State) (k : Nat) (l : List Flight) : CoreState :=
  l.foldl (landed (coreAgent s k)) (beforeLandings (getCore s k) l)

/-- Plain entries change their core alone. -/
theorem afterLandings_plain (ht : Tidy s) (hplain : ∀ f ∈ landing s k, plainLanding f.eff = true) :
    OnCore s k { coreLanded s k (landing s k) with
      collision := (coreLanded s k (landing s k)).collision || anyCollision (landing s k) } (afterLandings s k) := by
  have hall := ((onCore_refl ht).setCore (tidyCore_beforeLandings (ht.core k) (landing s k))).applyLocals (landing s k) hplain rfl
  unfold afterLandings
  dsimp only
  cases hany : anyCollision (landing s k) with
  | true =>
    rw [if_pos rfl, Bool.or_true]
    exact hall.modCore (e := fun c => { c with collision := true }) fun c hc => ⟨hc.form⟩
  | false =>
    rw [if_neg (by decide), Bool.or_false]
    exact hall

end

-- What each destination holds ------------------------------------------------------------------------------------------------------------------

section
variable {g : Stream → Agent}

/-- A cycle's landings seen from one place: each entry that reaches it updates it. -/
theorem foldl_landed_place {β γ : Type} (obs : CoreState → β) (val : Flight → Option γ) (upd : β → γ → β)
    (hstep : ∀ c f, TidyCore c → obs (landed g c f) = ((val f).map (upd (obs c))).getD (obs c)) (l : List Flight) :
    ∀ {c : CoreState}, TidyCore c → obs (l.foldl (landed g) c) = (l.filterMap val).foldl upd (obs c) := by
  induction l with
  | nil => exact fun _ => rfl
  | cons f r ih =>
    intro c hc
    rw [List.foldl_cons, ih (tidyCore_landed g hc f), hstep c f hc, List.filterMap_cons]
    cases val f with
    | none => rfl
    | some v => rfl

theorem lastOr_eq {β : Type} (l : List β) : ∀ x : β, l.foldl (fun _ y => y) x = lastOr x l := by
  induction l with
  | nil => exact fun _ => rfl
  | cons y r ih =>
    intro x
    rw [List.foldl_cons, ih, lastOr, lastOr, List.getLast?_cons, Option.getD_some]

/-- A place that holds the last value that reached it. -/
theorem foldl_landed_last {β : Type} (obs : CoreState → β) (val : Flight → Option β)
    (hstep : ∀ c f, TidyCore c → obs (landed g c f) = (val f).getD (obs c)) (l : List Flight) {c : CoreState} (hc : TidyCore c) :
    obs (l.foldl (landed g) c) = lastOr (obs c) (l.filterMap val) := by
  rw [foldl_landed_place obs val (fun _ y => y) (fun c f hc => ?_) l hc, lastOr_eq]
  rw [hstep c f hc]
  cases val f <;> rfl

/-- What no entry reaches is as it was. -/
theorem foldl_landed_same {β : Type} (obs : CoreState → β) {l : List Flight} (hstep : ∀ c, ∀ f ∈ l, obs (landed g c f) = obs c) (c : CoreState) :
    obs (l.foldl (landed g) c) = obs c := by
  induction l generalizing c with
  | nil => rfl
  | cons f r ih =>
    rw [List.foldl_cons, ih (fun c x hx => hstep c x (List.mem_cons_of_mem _ hx)), hstep c f List.mem_cons_self]

theorem wfSregs_of_tidy {c : CoreState} (h : TidyCore c) : Sparse.wfFrom 0 0 c.sregs = true := ((tidyCore_iff c).1 h).2.1
theorem wfRows_of_tidy {c : CoreState} (h : TidyCore c) : Sparse.wfFrom 0 0 c.rows = true := ((tidyCore_iff c).1 h).2.2.1

/-- A table of which one place is written. -/
theorem get_set_eq {α : Type} [DecidableEq α] (d : α) {m : Sparse α} (hm : Sparse.wfFrom d 0 m = true) (a b : Nat) (v : α) :
    Sparse.get d (Sparse.set d m a v) b = if a = b then v else Sparse.get d m b := by
  split
  · rename_i h
    subst h
    exact get_set_wf d v m hm
  · rename_i h
    exact get_set_ne d v m fun e => h e.symm

theorem landed_sget {c : CoreState} (hc : TidyCore c) (f : Flight) {r : SReg} (hr : r ≠ 0) :
    sget (landed g c f) r = (regOf f.eff r).getD (sget c r) := by
  unfold landed regOf
  cases f.eff with
  | sreg q v =>
    dsimp only
    by_cases hq : q = r
    · subst hq
      rw [if_pos rfl]
      exact sget_sput c q v hr (wfSregs_of_tidy hc)
    · rw [if_neg hq]
      exact sget_sput_ne c v fun e => hq e.symm
  | spad _ _ _ _ lc => cases lc <;> rfl
  | sysreg n v =>
    dsimp only
    unfold sysWrite
    split <;> rfl
  | flags e v => cases e <;> rfl
  | _ => rfl

theorem landed_getRow {c : CoreState} (hc : TidyCore c) (f : Flight) (r : Nat) :
    getRow (landed g c f) r = ((rowOf f.eff r).map fun x => mergeRow (getRow c r) x.2 x.1).getD (getRow c r) := by
  unfold landed rowOf
  cases f.eff with
  | row q en v ev =>
    dsimp only
    unfold setRow
    rw [show getRow { c with rows := Sparse.set 0 c.rows q (mergeRow (getRow c q) v en) } r =
      if q = r then mergeRow (getRow c q) v en else getRow c r from get_set_eq 0 (wfRows_of_tidy hc) q r _]
    split
    · rename_i h
      rw [h]
      rfl
    · rfl
  | sreg q v =>
    dsimp only
    rw [getRow, sput_rows]
    rfl
  | spad _ _ _ _ lc => cases lc <;> rfl
  | sysreg n v =>
    dsimp only
    unfold sysWrite
    split <;> rfl
  | flags e v => cases e <;> rfl
  | _ => rfl

/-- The bytes of a masked write. -/
theorem read_writeMasked_ite {m : Memory} (hm : Memory.wf m = true) (b n en v a : Nat) : Memory.read (Memory.writeMasked m b en v n) a =
    if b ≤ a ∧ a < b + n ∧ en / 2 ^ (a - b) % 2 = 1 then BitVec.ofNat 8 (v / 256 ^ (a - b)) else Memory.read m a := by
  rw [read_writeMasked_eq hm, maskedByte]
  split <;> rfl

theorem landed_spad {c : CoreState} (hc : TidyCore c) (f : Flight) (a : Nat) :
    Memory.read (landed g c f).spad a = (spadByteOf f.eff a).getD (Memory.read c.spad a) := by
  unfold landed spadByteOf
  cases f.eff with
  | spad b n en v lc =>
    have hspad : (counted (spadWritten c f b n en v) lc (countOnes en n) (g f.stream)).spad = Memory.writeMasked c.spad b en v n := by
      cases lc <;> rfl
    dsimp only
    rw [hspad, read_writeMasked_ite hc.wfSpad]
    split <;> rfl
  | sreg q v =>
    dsimp only
    rw [sput_spad]
    rfl
  | sysreg n v =>
    dsimp only
    unfold sysWrite
    split <;> rfl
  | flags e v => cases e <;> rfl
  | _ => rfl

theorem landed_mask {c : CoreState} (hc : TidyCore c) (f : Flight) (m b : Nat) :
    (Sparse.get 0 (landed g c f).masks m).getLsbD b = (maskBitOf f.eff m b).getD ((Sparse.get 0 c.masks m).getLsbD b) := by
  unfold landed maskBitOf
  cases f.eff with
  | mask q en v =>
    dsimp only
    rw [get_set_eq 0 hc.wfMasks]
    by_cases hq : q = m
    · subst hq
      rw [if_pos rfl, BitVec.getLsbD_or, BitVec.getLsbD_and, BitVec.getLsbD_and, BitVec.getLsbD_not, getMask]
      by_cases hb : b < 128
      · cases hen : en.getLsbD b with
        | true => simp [hb]
        | false => simp [hb]
      · rw [BitVec.getLsbD_of_ge en b (Nat.not_lt.1 hb), BitVec.getLsbD_of_ge _ b (Nat.not_lt.1 hb)]
        simp
    · rw [if_neg hq, if_neg fun h => hq h.1]
      rfl
  | spad _ _ _ _ lc => cases lc <;> rfl
  | sreg q v =>
    dsimp only
    rw [sput_masks]
    rfl
  | sysreg n v =>
    dsimp only
    unfold sysWrite
    split <;> rfl
  | flags e v => cases e <;> rfl
  | _ => rfl

theorem landed_kpred {c : CoreState} (hc : TidyCore c) (f : Flight) (n : Nat) :
    Sparse.get {} (landed g c f).kpreds n = (kpredOf f.eff n).getD (Sparse.get {} c.kpreds n) := by
  unfold landed kpredOf
  cases f.eff with
  | kpred q v =>
    dsimp only
    rw [get_set_eq ({} : KPred) hc.wfKpreds]
    split <;> rfl
  | spad _ _ _ _ lc => cases lc <;> rfl
  | sreg q v =>
    dsimp only
    rw [sput_kpreds]
    rfl
  | sysreg n v =>
    dsimp only
    unfold sysWrite
    split <;> rfl
  | flags e v => cases e <;> rfl
  | _ => rfl

theorem qpMask_toNat (v : Word) : (qpMask v).toNat = v.toNat % 2 ^ 50 + v.toNat / 2 ^ 63 * 2 ^ 63 := by
  have hv := v.isLt
  have hhigh : v.toNat / 2 ^ 63 % 2 ^ 1 = v.toNat / 2 ^ 63 := Nat.mod_eq_of_lt (by omega)
  have hlow : v.toNat % 2 ^ 50 < 2 ^ 50 := Nat.mod_lt _ (by decide)
  rw [qpMask, toWord, BitVec.toNat_ofNat, bits_low, bits, hhigh, Nat.mod_eq_of_lt (by omega), Nat.add_comm]

theorem landed_qp {c : CoreState} (hc : TidyCore c) (f : Flight) (n : Nat) :
    Sparse.get 0 (landed g c f).qps n = ((qpOf f.eff n).map qpMask).getD (Sparse.get 0 c.qps n) := by
  unfold landed qpOf
  cases f.eff with
  | qp q v =>
    dsimp only
    rw [get_set_eq 0 hc.wfQps]
    split <;> rfl
  | spad _ _ _ _ lc => cases lc <;> rfl
  | sreg q v =>
    dsimp only
    rw [sput_qps]
    rfl
  | sysreg n v =>
    dsimp only
    unfold sysWrite
    split <;> rfl
  | flags e v => cases e <;> rfl
  | _ => rfl

theorem landed_qp_toNat {c : CoreState} (hc : TidyCore c) (f : Flight) (n : Nat) : (Sparse.get 0 (landed g c f).qps n).toNat =
    ((qpOf f.eff n).map fun v => v.toNat % 2 ^ 50 + v.toNat / 2 ^ 63 * 2 ^ 63).getD (Sparse.get 0 c.qps n).toNat := by
  rw [landed_qp hc f n]
  cases qpOf f.eff n with
  | none => rw [Option.map_none, Option.map_none, Option.getD_none, Option.getD_none]
  | some v => rw [Option.map_some, Option.map_some, Option.getD_some, Option.getD_some, qpMask_toNat]

theorem landed_slot {c : CoreState} (hc : TidyCore c) (f : Flight) (n : Nat) :
    getSlot (landed g c f) n = ((slotStOf f.eff n).map fun st => { getSlot c n with st := st }).getD (getSlot c n) := by
  unfold landed slotStOf
  cases f.eff with
  | slotSt q st =>
    dsimp only
    rw [show getSlot { c with slots := Sparse.set {} c.slots q { getSlot c q with st := st } } n =
      if q = n then { getSlot c q with st := st } else getSlot c n from get_set_eq ({} : Slot) hc.wfSlots q n _]
    split
    · rename_i h
      rw [h]
      rfl
    · rfl
  | spad _ _ _ _ lc => cases lc <;> rfl
  | sreg q v =>
    dsimp only
    rw [getSlot, sput_slots]
    rfl
  | sysreg n v =>
    dsimp only
    unfold sysWrite
    split <;> rfl
  | flags e v => cases e <;> rfl
  | _ => rfl

theorem get_putRows : ∀ (l : List Row) {m : Sparse Row} (_ : Sparse.wfFrom 0 0 m = true) (a r : Nat),
    Sparse.get 0 (putRows m a l) r = (if a ≤ r then l[r - a]? else none).getD (Sparse.get 0 m r)
  | [], m, _, a, r => by
    rw [putRows]
    split <;> simp
  | v :: l, m, hm, a, r => by
    rw [putRows, get_putRows l (wf_set0 hm), get_set_eq 0 hm]
    by_cases h1 : a + 1 ≤ r
    · rw [if_pos h1, if_neg (show a ≠ r by omega), if_pos (show a ≤ r by omega), show r - a = r - (a + 1) + 1 by omega, List.getElem?_cons_succ]
    · rw [if_neg h1]
      by_cases h2 : a = r
      · subst h2
        simp
      · rw [if_neg h2, if_neg (show ¬ a ≤ r by omega)]

theorem landed_pm {c : CoreState} (hc : TidyCore c) (f : Flight) (r : Nat) :
    Sparse.get 0 (landed g c f).pm r = (pmRowOf f.eff r).getD (Sparse.get 0 c.pm r) := by
  unfold landed pmRowOf
  cases f.eff with
  | pmRows p l => exact get_putRows l hc.wfPm (8 * p) r
  | spad _ _ _ _ lc => cases lc <;> rfl
  | sreg q v =>
    dsimp only
    rw [sput_pm]
    rfl
  | sysreg n v =>
    dsimp only
    unfold sysWrite
    split <;> rfl
  | flags e v => cases e <;> rfl
  | _ => rfl

theorem landed_cb {c : CoreState} (hc : TidyCore c) (f : Flight) (r : Nat) :
    Sparse.get 0 (landed g c f).cb r = (cbRowOf f.eff r).getD (Sparse.get 0 c.cb r) := by
  unfold landed cbRowOf
  cases f.eff with
  | cbRows p l => exact get_putRows l hc.wfCb (16 * p) r
  | spad _ _ _ _ lc => cases lc <;> rfl
  | sreg q v =>
    dsimp only
    rw [sput_cb]
    rfl
  | sysreg n v =>
    dsimp only
    unfold sysWrite
    split <;> rfl
  | flags e v => cases e <;> rfl
  | _ => rfl

theorem landed_fq (c : CoreState) (f : Flight) : (landed g c f).fq = ((pushOf f.eff).map fun v => c.fq ++ [v]).getD c.fq := by
  unfold landed pushOf
  cases f.eff with
  | spad _ _ _ _ lc => cases lc <;> rfl
  | sreg q v =>
    dsimp only
    rw [sput_fq]
    rfl
  | sysreg n v =>
    dsimp only
    unfold sysWrite
    split <;> rfl
  | flags e v => cases e <;> rfl
  | _ => rfl

theorem landed_dcc (c : CoreState) (f : Flight) : (landed g c f).dcc = c.dcc := by
  unfold landed
  cases f.eff with
  | spad _ _ _ _ lc => cases lc <;> rfl
  | sreg q v => exact sput_dcc _ _ _
  | sysreg n v =>
    dsimp only
    unfold sysWrite
    split <;> rfl
  | flags e v => cases e <;> rfl
  | _ => rfl

/-- The flags of an engine. -/
def flagsOf (c : CoreState) : Stream → BitVec 5
  | .ce => c.flagsCE
  | .ve => c.flagsVE
  | .cp => c.flagsCP
  | .cc => 0

theorem flagsOf_stickFlags_ne (c : CoreState) (v : Nat) {x e : Stream} (h : x ≠ e) : flagsOf (stickFlags c x v) e = flagsOf c e := by
  cases x <;> cases e <;> simp_all [flagsOf, stickFlags]

/-- A flag that an entry raises stays raised, where no SYSWR lands. -/
theorem landed_flags (c : CoreState) (f : Flight) (hsys : writesSys f.eff = false) {e : Stream} (he : e ≠ .cc) {b : Nat} (hb : b < 5) :
    (flagsOf (landed g c f) e).getLsbD b = true ↔ (flagsOf c e).getLsbD b = true ∨ raises f.eff e b := by
  have hsame : ∀ {c' : CoreState}, flagsOf c' e = flagsOf c e → (∀ v, f.eff ≠ .flags e v) →
      ((flagsOf c' e).getLsbD b = true ↔ (flagsOf c e).getLsbD b = true ∨ raises f.eff e b) := fun h hno => by
    rw [h]
    exact ⟨.inl, fun h => h.resolve_right fun ⟨v, hv, _⟩ => hno v hv⟩
  unfold landed
  cases hf : f.eff with
  | flags x v =>
    rw [hf] at hsame
    by_cases hx : x = e
    · subst hx
      have hor : flagsOf (stickFlags c x v) x = flagsOf c x ||| BitVec.ofNat 5 v := by
        cases x with
        | cc => exact absurd rfl he
        | _ => rfl
      dsimp only
      rw [hor, BitVec.getLsbD_or, BitVec.getLsbD_ofNat, Bool.or_eq_true, decide_eq_true hb, Bool.true_and]
      refine or_congr Iff.rfl ⟨fun h => ⟨v, rfl, h⟩, fun ⟨w, hw, h⟩ => ?_⟩
      cases hw
      exact h
    · refine hsame ?_ fun w hw => ?_
      · exact flagsOf_stickFlags_ne c v hx
      · cases hw
        exact hx rfl
  | sysreg n v => rw [hf] at hsys; cases hsys
  | spad _ _ _ _ lc =>
    rw [hf] at hsame
    refine hsame ?_ fun _ h => nomatch h
    cases lc <;> cases e <;> rfl
  | sreg q v =>
    rw [hf] at hsame
    refine hsame ?_ fun _ h => nomatch h
    cases e with
    | ce => exact sput_flagsCE _ _ _
    | ve => exact sput_flagsVE _ _ _
    | cp => exact sput_flagsCP _ _ _
    | cc => rfl
  | _ =>
    rw [hf] at hsame
    refine hsame ?_ fun _ h => nomatch h
    cases e <;> rfl

theorem foldl_landed_flags {e : Stream} (he : e ≠ .cc) {b : Nat} (hb : b < 5) (l : List Flight) (hsys : ∀ f ∈ l, writesSys f.eff = false) :
    ∀ c : CoreState, (flagsOf (l.foldl (landed g) c) e).getLsbD b = true ↔ (flagsOf c e).getLsbD b = true ∨ ∃ f ∈ l, raises f.eff e b := by
  induction l with
  | nil => simp
  | cons f r ih =>
    intro c
    rw [List.foldl_cons, ih (fun x hx => hsys x (List.mem_cons_of_mem _ hx)), landed_flags c f (hsys f List.mem_cons_self) he hb]
    simp only [List.mem_cons, exists_eq_or_imp, or_assoc]

theorem foldl_append_one {α : Type} (l a : List α) : l.foldl (fun q v => q ++ [v]) a = a ++ l := by
  induction l generalizing a with
  | nil => simp
  | cons x r ih => rw [List.foldl_cons, ih, List.append_assoc]; rfl

/-- Slot states in their order: the last one stays. -/
theorem foldl_slotSt (l : List SlotSt) (x : Slot) : l.foldl (fun x st => { x with st := st }) x = { x with st := lastOr x.st l } := by
  induction l generalizing x with
  | nil => rfl
  | cons y r ih =>
    rw [List.foldl_cons, ih, ← lastOr_eq, ← lastOr_eq]
    rfl

end

/-- Settles O11: every destination of a cycle's landings. -/
theorem resultsLandInTheirDestinations : Obligations.ResultsLandInTheirDestinations := by
  unfold Obligations.ResultsLandInTheirDestinations
  intro s k d hform hd hcyc hlive hpart hplain hwindow
  have ht : Tidy s := ⟨hform⟩
  obtain ⟨hkept, hland⟩ := landing_all hwindow
  have hon := afterLandings_plain ht (by rw [hland]; exact hplain)
  rw [hland] at hon
  have hc : TidyCore (beforeLandings (getCore s k) (dueNow s k)) := tidyCore_beforeLandings (ht.core k) (dueNow s k)
  refine ⟨afterLandings s k, (resultLanding_alone hd hcyc hlive hpart).trans (by rw [landResults_alone, hkept]; rfl), ?_⟩
  rw [hon.core]
  refine ⟨fun r hr => ?_, rfl, fun r => ?_, fun a => ?_, fun m b => ?_, fun n => ?_, fun n => ?_, fun n => ?_, fun r => ?_, fun r => ?_,
    fun hsys b hb => ⟨?_, ?_, ?_⟩, ?_, ?_, hon.mem, hon.domains, hon.other⟩
  · exact foldl_landed_last (sget · r) (fun f => regOf f.eff r) (fun c f hc => landed_sget hc f hr) _ hc
  · exact foldl_landed_place (getRow · r) (fun f => rowOf f.eff r) (fun a x => mergeRow a x.2 x.1) (fun c f hc => landed_getRow hc f r) _ hc
  · exact foldl_landed_last (Memory.read ·.spad a) (fun f => spadByteOf f.eff a) (fun c f hc => landed_spad hc f a) _ hc
  · exact foldl_landed_last (fun c => (Sparse.get 0 c.masks m).getLsbD b) (fun f => maskBitOf f.eff m b) (fun c f hc => landed_mask hc f m b) _ hc
  · exact foldl_landed_last (Sparse.get {} ·.kpreds n) (fun f => kpredOf f.eff n) (fun c f hc => landed_kpred hc f n) _ hc
  · exact foldl_landed_last (fun c => (Sparse.get 0 c.qps n).toNat)
      (fun f => (qpOf f.eff n).map fun v => v.toNat % 2 ^ 50 + v.toNat / 2 ^ 63 * 2 ^ 63) (fun c f hc => landed_qp_toNat hc f n) _ hc
  · exact (foldl_landed_place (getSlot · n) (fun f => slotStOf f.eff n) (fun x st => { x with st := st }) (fun c f hc => landed_slot hc f n) _ hc).trans
      (foldl_slotSt _ _)
  · exact foldl_landed_last (Sparse.get 0 ·.pm r) (fun f => pmRowOf f.eff r) (fun c f hc => landed_pm hc f r) _ hc
  · exact foldl_landed_last (Sparse.get 0 ·.cb r) (fun f => cbRowOf f.eff r) (fun c f hc => landed_cb hc f r) _ hc
  · exact foldl_landed_flags (e := .ce) (by decide) hb _ hsys _
  · exact foldl_landed_flags (e := .ve) (by decide) hb _ hsys _
  · exact foldl_landed_flags (e := .cp) (by decide) hb _ hsys _
  · exact (foldl_landed_place CoreState.fq (fun f => pushOf f.eff) (fun q v => q ++ [v]) (fun c f _ => landed_fq c f) _ hc).trans
      (foldl_append_one _ _)
  · exact foldl_landed_same CoreState.dcc (fun c f _ => landed_dcc c f) _

-- Collisions and tags (R82, R101) --------------------------------------------------------------------------------------------------------------

/-- Two entries of different commands that meet. -/
def clashing (f g : Flight) : Bool := effMeet f.eff g.eff && !(f.stream == g.stream && f.seq == g.seq)

theorem clashing_iff (f g : Flight) : clashing f g = true ↔ effMeet f.eff g.eff = true ∧ ¬ (f.stream = g.stream ∧ f.seq = g.seq) := by
  rw [clashing, Bool.and_eq_true, Bool.not_eq_true', ← Bool.not_eq_true, Bool.and_eq_true, beq_iff_eq, beq_iff_eq]

theorem anyCollision_eq_false_iff (l : List Flight) : anyCollision l = false ↔ l.Pairwise fun f g => clashing f g = false := by
  induction l with
  | nil => exact ⟨fun _ => .nil, fun _ => rfl⟩
  | cons f r ih =>
    rw [List.pairwise_cons, ← ih, anyCollision, Bool.or_eq_false_iff, List.any_eq_false]
    refine and_congr (forall₂_congr fun g _ => ?_) Iff.rfl
    rw [Bool.not_eq_true]
    exact Iff.rfl

theorem anyCollision_iff (l : List Flight) : anyCollision l = true ↔ ∃ i j, ∃ (hi : i < l.length) (hj : j < l.length), i < j ∧
    effMeet (l[i]'hi).eff (l[j]'hj).eff = true ∧ ¬ ((l[i]'hi).stream = (l[j]'hj).stream ∧ (l[i]'hi).seq = (l[j]'hj).seq) := by
  rw [← Bool.not_eq_false, anyCollision_eq_false_iff, List.pairwise_iff_getElem]
  simp only [not_forall, Bool.not_eq_false, clashing_iff, exists_prop]

theorem landed_collision {g : Stream → Agent} (c : CoreState) (f : Flight) (hsys : ∀ n v, f.eff ≠ .sysreg n v) :
    (landed g c f).collision = c.collision := by
  unfold landed
  cases hf : f.eff with
  | spad _ _ _ _ lc => cases lc <;> rfl
  | sreg q v => exact sput_collision _ _ _
  | sysreg n v => exact absurd hf (hsys n v)
  | flags e v => cases e <;> rfl
  | _ => rfl

theorem landed_tags {g : Stream → Agent} (c : CoreState) (f : Flight) : (landed g c f).tags = c.tags := by
  unfold landed
  cases f.eff with
  | spad _ _ _ _ lc => cases lc <;> rfl
  | sreg q v => exact sput_tags _ _ _
  | sysreg n v =>
    dsimp only
    unfold sysWrite
    split <;> rfl
  | flags e v => cases e <;> rfl
  | _ => rfl

/-- One tile's tag after a cycle's events. -/
def tagOnce (l : List Flight) (m : Sparse (BitVec 2)) (t : Nat) : Sparse (BitVec 2) :=
  if (tileEvents l t).isEmpty then m else Sparse.set 2 m t (tagAfter (Sparse.get 2 m t) (tileEvents l t))

theorem wf_tagOnce {m : Sparse (BitVec 2)} (h : Sparse.wfFrom 2 0 m = true) (l : List Flight) (t : Nat) :
    Sparse.wfFrom 2 0 (tagOnce l m t) = true := by
  unfold tagOnce
  split
  · exact h
  · exact wf_set0 h

theorem get_tagOnce {m : Sparse (BitVec 2)} (h : Sparse.wfFrom 2 0 m = true) (l : List Flight) (t n : Nat) :
    Sparse.get 2 (tagOnce l m t) n = if t = n ∧ tileEvents l n ≠ [] then tagAfter (Sparse.get 2 m n) (tileEvents l n) else Sparse.get 2 m n := by
  unfold tagOnce
  by_cases htn : t = n
  · subst htn
    cases htile : tileEvents l t with
    | nil => simp
    | cons e r => simpa using get_set_wf _ _ _ h
  · rw [if_neg (show ¬ (t = n ∧ _) from fun e => htn e.1)]
    split
    · rfl
    · exact get_set_ne _ _ _ fun e => htn e.symm

/-- Each tile of a list without repetition takes its own events, and no other. -/
theorem get_foldl_tagOnce (l : List Flight) (n : Nat) : ∀ (ts : List Nat) {m : Sparse (BitVec 2)}, ts.Nodup → Sparse.wfFrom 2 0 m = true →
    Sparse.get 2 (ts.foldl (tagOnce l) m) n =
      if n ∈ ts ∧ tileEvents l n ≠ [] then tagAfter (Sparse.get 2 m n) (tileEvents l n) else Sparse.get 2 m n
  | [], _, _, _ => by simp
  | t :: ts, m, hnodup, hm => by
    obtain ⟨hnot, hrest⟩ := List.nodup_cons.1 hnodup
    rw [List.foldl_cons, get_foldl_tagOnce l n ts hrest (wf_tagOnce hm l t), get_tagOnce hm]
    by_cases htn : t = n
    · subst htn
      simp [hnot]
    · simp [htn, Ne.symm htn]

theorem get_tagsAfter {c : CoreState} (hc : TidyCore c) (l : List Flight) (n : Nat) : Sparse.get 2 (tagsAfter c l) n =
    if n < 16 ∧ tileEvents l n ≠ [] then tagAfter (Sparse.get 2 c.tags n) (tileEvents l n) else Sparse.get 2 c.tags n := by
  have h := get_foldl_tagOnce l n (List.range 16) List.nodup_range hc.wfTags
  simp only [List.mem_range] at h
  exact h

/-- Settles O12: the flag by the pairs of the entries, each tag by its tile's rows. -/
theorem landingsSetCollisionAndTags : Obligations.LandingsSetCollisionAndTags := by
  unfold Obligations.LandingsSetCollisionAndTags
  intro s k d hform hd hcyc hlive hpart hplain hwindow hsys
  have ht : Tidy s := ⟨hform⟩
  obtain ⟨hkept, hland⟩ := landing_all hwindow
  have hon := afterLandings_plain ht (by rw [hland]; exact hplain)
  rw [hland] at hon
  have hcoll : (coreLanded s k (dueNow s k)).collision = (getCore s k).collision :=
    foldl_landed_same CoreState.collision (fun c f hf => landed_collision c f (hsys f hf)) _
  have htags : (coreLanded s k (dueNow s k)).tags = tagsAfter (getCore s k) (dueNow s k) :=
    foldl_landed_same CoreState.tags (fun c f _ => landed_tags c f) _
  refine ⟨afterLandings s k, (resultLanding_alone hd hcyc hlive hpart).trans (by rw [landResults_alone, hkept]; rfl), ?_⟩
  rw [hon.core]
  dsimp only
  rw [hcoll, htags, Bool.or_eq_true]
  refine ⟨or_congr Iff.rfl (anyCollision_iff _), fun n hn hev => ?_, fun n hev => ?_⟩
  · rw [get_tagsAfter (ht.core k), if_pos ⟨hn, hev⟩]
  · rw [get_tagsAfter (ht.core k), if_neg fun h => h.2 hev]

end Sys2Proof.Proofs
end

