-- ==== Sys2Proof/Proofs/SystemLandings.lean ====
section
/-! PROOF. The landing of one entry: registers, flags, pointers, counters and the watch filter (R179, R182, R183, R185, R247, R280). -/

namespace Sys2Proof.Proofs

open Sys2Proof Sys2Proof.Machine Sys2Proof.Claims Sys2Proof.Laws

-- Device memory is not touched ---------------------------------------------------------------------------------------------------------------

section
variable {s : State} {k : Nat}

theorem stoppedCores_mem (s : State) (k : Nat) (d : Domain) (st : Stream) (code cause : Nat) (detail : List Word) (prog : Nat) (w23 w24 : Word) :
    (stoppedCores s k d st code cause detail prog w23 w24).mem = s.mem := by
  unfold stoppedCores
  cases partnerOf d k <;> rfl

theorem takeFaultFull_mem (s : State) (k : Nat) (st : Stream) (station evt code cause : Nat) (detail : List Word) (prog : Nat) (w23 w24 : Word) :
    (takeFaultFull s k st station evt code cause detail prog w23 w24).mem = s.mem := by
  cases hd : domOf s k with
  | none => rw [takeFaultFull, hd]; rfl
  | some d =>
    obtain ⟨domains, h⟩ := takeFaultFull_rest (st := st) (station := station) (evt := evt) (code := code) (cause := cause) (detail := detail)
      (prog := prog) (w23 := w23) (w24 := w24) hd
    rw [h]
    exact stoppedCores_mem s k d st code cause detail prog w23 w24

theorem lateFault_mem (s : State) (k : Nat) (f : Flight) (code cause : Nat) (detail : List Word) (prog : Nat) :
    (lateFault s k f code cause detail prog).mem = s.mem := takeFaultFull_mem ..

theorem listWrite_mem (s : State) (k : Nat) (f : Flight) (slot : Nat) (e : RangeEntry) (sub : Nat) : (listWrite s k f slot e sub).mem = s.mem := by
  unfold listWrite
  split <;> rfl

theorem applyLocal_mem (s : State) (k : Nat) (f : Flight) : (applyLocal s k f).mem = s.mem := by
  unfold applyLocal
  cases f.eff with
  | spad _ _ _ _ lc => cases lc <;> rfl
  | yload =>
    dsimp only
    split
    · rfl
    · exact lateFault_mem ..
  | rload =>
    dsimp only
    split
    · exact lateFault_mem ..
    · rfl
  | rsplit => exact (listWrite_mem ..).trans (listWrite_mem ..)
  | rmerge => exact (listWrite_mem ..).trans (listWrite_mem ..)
  | raise => exact takeFaultFull_mem ..
  | _ => rfl

theorem afterLandings_mem (s : State) (k : Nat) : (afterLandings s k).mem = s.mem := by
  have hall := foldl_keeps (fun t : State => t.mem = s.mem) (fun t f => applyLocal t k f)
    (by intro t f h; exact (applyLocal_mem t k f).trans h) (landing s k) (setCore s k (beforeLandings (getCore s k) (landing s k))) rfl
  unfold afterLandings
  dsimp only
  split
  · exact hall
  · exact hall

theorem landResults_mem (s : State) (k : Nat) : (landResults s k none).mem = s.mem := by
  rw [landResults_alone]
  exact foldl_keeps (fun t : State => t.mem = s.mem) (fun t f => lateFault t k f fPermission 0 [] 0)
    (by intro t f h; exact (lateFault_mem t k f fPermission 0 [] 0).trans h) _ _ (afterLandings_mem s k)

end

-- One entry that falls due alone ---------------------------------------------------------------------------------------------------------------

section
variable {s : State} {k : Nat} {f : Flight}

/-- The core once a plain entry has landed that is all that falls due. -/
def landedAlone (s : State) (k : Nat) (f : Flight) : CoreState := landed (coreAgent s k) (beforeLandings (getCore s k) [f]) f

/-- Entries of other destinations than scratchpad meet no receive window. -/
theorem landResults_single (ht : Tidy s) (hdue : dueNow s k = [f]) (hplain : plainLanding f.eff = true) (hwin : windowHit (getCore s k) f = false) :
    OnCore s k (landedAlone s k f) (landResults s k none) := by
  obtain ⟨hkept, hland⟩ := landing_all (s := s) (k := k) (by rw [hdue]; intro x hx; rwa [List.mem_singleton.1 hx])
  have hon := afterLandings_plain ht (by rw [hland, hdue]; intro x hx; rwa [List.mem_singleton.1 hx])
  rw [hland, hdue, show anyCollision [f] = false from rfl, Bool.or_false] at hon
  rw [landResults_alone, hkept]
  exact hon

theorem wfLcs_of_tidy {c : CoreState} (h : TidyCore c) : Sparse.wfFrom {} 0 c.lcs = true := ((tidyCore_iff c).1 h).2.2.2.2.2.2.2.2.2.1

theorem getLsbD_iff_div (v : Word) (i : Nat) : v.getLsbD i = true ↔ v.toNat / 2 ^ i % 2 = 1 := by
  rw [← BitVec.testBit_toNat, Nat.testBit_eq_decide_div_mod_eq, decide_eq_true_iff]

theorem getLsbD_watchPut {h : Nat} (hh : h < 16384) (l : List Nat) : ∀ w : BitVec 16384, (watchPut w l).getLsbD h = true ↔ w.getLsbD h = true ∨ h ∈ l := by
  induction l with
  | nil => intro w; simp [watchPut]
  | cons x r ih =>
    intro w
    have hone : (BitVec.ofNat 16384 (2 ^ x)).getLsbD h = decide (h = x) := by
      rw [BitVec.getLsbD_ofNat, Nat.testBit_two_pow, decide_eq_true hh, Bool.true_and, decide_eq_decide]
      exact eq_comm
    rw [show watchPut w (x :: r) = watchPut (w ||| BitVec.ofNat 16384 (2 ^ x)) r from rfl, ih, BitVec.getLsbD_or, hone, Bool.or_eq_true,
      decide_eq_true_iff, List.mem_cons, or_assoc]

/-- The three hashes of an address (R280). -/
theorem watchHashes_eq (a : Nat) : watchHashes a =
    [a / 2 ^ 8 % 2 ^ 49 % 2 ^ 14 ^^^ a / 2 ^ 8 % 2 ^ 49 / 2 ^ 28 % 2 ^ 14, a / 2 ^ 8 % 2 ^ 49 / 2 ^ 14 % 2 ^ 14 ^^^ a / 2 ^ 8 % 2 ^ 49 / 2 ^ 42,
      (a / 2 ^ 8 % 2 ^ 49 % 2 ^ 14 + a / 2 ^ 8 % 2 ^ 49 / 2 ^ 14 % 2 ^ 14 + a / 2 ^ 8 % 2 ^ 49 / 2 ^ 28 % 2 ^ 14) % 2 ^ 14] := by
  have htop : a / 2 ^ 8 % 2 ^ 49 / 2 ^ 42 % 2 ^ 7 = a / 2 ^ 8 % 2 ^ 49 / 2 ^ 42 := Nat.mod_eq_of_lt (by omega)
  simp only [watchHashes, bits, htop, Nat.pow_zero, Nat.div_one]

end

/-- Settles O18: each entry's landing on its core. -/
theorem systemStateLandings : Obligations.SystemStateLandings := by
  unfold Obligations.SystemStateLandings
  intro s k d f hform hd hcyc hlive hpart hdue
  have ht : Tidy s := ⟨hform⟩
  have hc : TidyCore (beforeLandings (getCore s k) [f]) := tidyCore_beforeLandings (ht.core k) [f]
  refine ⟨landResults s k none, resultLanding_alone hd hcyc hlive hpart, ?_⟩
  dsimp only
  have hone : ∀ {e : Effect}, f.eff = e → plainLanding e = true → (∀ a n en v lc, e ≠ .spad a n en v lc) →
      getCore (landResults s k none) k = landed (coreAgent s k) (beforeLandings (getCore s k) [f]) f := fun {e} he hplain hno =>
    (landResults_single ht hdue (he ▸ hplain) (by
      rw [windowHit, he]
      cases e with
      | spad a n en v lc => exact absurd rfl (hno a n en v lc)
      | _ => rfl)).core
  refine ⟨fun v hf => ?_, fun v hf => ?_, fun v hf => ?_, fun v hf => ?_, fun v hf => ?_, fun v hf => ?_, fun v hf => ?_, fun v hf => ?_,
    fun v hf => ?_, fun v hf => ?_, fun v hf => ?_, fun q v hf => ?_, fun l v hf => ?_, fun a hf h hh => ?_, fun hf => ?_, landResults_mem s k⟩ <;>
    rw [hone hf rfl (fun _ _ _ _ _ h => nomatch h), landed, hf]
  case refine_1 => exact ⟨rfl, rfl⟩
  case refine_2 => exact ⟨rfl, rfl⟩
  case refine_3 => exact ⟨rfl, rfl⟩
  case refine_4 => exact ⟨rfl, rfl⟩
  case refine_5 => exact ⟨BitVec.toNat_ofNat _ _, rfl⟩
  case refine_6 => exact ⟨BitVec.toNat_ofNat _ _, rfl⟩
  case refine_7 => exact ⟨BitVec.toNat_ofNat _ _, rfl⟩
  case refine_8 => exact ⟨by rw [← Nat.div_one v.toNat]; exact getLsbD_iff_div v 0, getLsbD_iff_div v 1⟩
  case refine_9 => exact ⟨rfl, rfl, rfl⟩
  case refine_10 => exact ⟨rfl, rfl, rfl⟩
  case refine_11 => exact ⟨rfl, rfl, rfl⟩
  case refine_12 =>
    refine ⟨?_, fun p hp => get_set_ne 0 _ _ hp⟩
    dsimp only
    rw [get_set_wf 0 _ _ hc.wfQps, qpMask_toNat]
  case refine_13 =>
    have hwf : Sparse.wfFrom {} 0 (beforeLandings (getCore s k) [f]).lcs = true := wfLcs_of_tidy hc
    dsimp only
    rw [show getLc (setLc (beforeLandings (getCore s k) [f]) l ((getLc (beforeLandings (getCore s k) [f]) l).reset v (coreAgent s k .cc))) l =
      (getLc (getCore s k) l).reset v (coreAgent s k .cc) from get_set_wf _ _ _ hwf]
    refine ⟨?_, ?_, ?_, ?_, fun m hm => get_set_ne _ _ _ hm⟩ <;> unfold LCtr.reset <;> split <;> rfl
  case refine_14 =>
    dsimp only
    rw [getLsbD_watchPut hh, watchHashes_eq]
    simp only [List.mem_cons, List.not_mem_nil, or_false]
    rfl

end Sys2Proof.Proofs
end

