-- ==== Sys2Proof/Proofs/TableEdits.lean ====
section
/-! PROOF. The edits of a core's tables: RLOAD, RSPLIT, RMERGE, RINV and YLOAD at issue, and their landings (R187 to R190, R270 to R276). -/

namespace Sys2Proof.Proofs

open Sys2Proof Sys2Proof.Machine Sys2Proof.Claims Sys2Proof.Laws

-- The sectors of an entry (R272) -----------------------------------------------------------------------------------------------------------------

/-- Address `a` lies in the range, and in its sector `i`. -/
def Lies (e : RangeEntry) (a : Nat) : Prop := e.base.toNat ≤ a ∧ a < e.limit.toNat
def InSector (e : RangeEntry) (i a : Nat) : Prop := Lies e a ∧ e.sector a = i

/-- A sector is an interval of the range. -/
theorem inSector_iff (e : RangeEntry) (i a : Nat) : InSector e i a ↔
    e.base.toNat + i * e.sigma ≤ a ∧ a < min (e.base.toNat + i * e.sigma + e.sigma) e.limit.toNat := by
  have hsigma : e.limit.toNat ≤ e.base.toNat ∨ 0 < e.sigma := by unfold RangeEntry.sigma; omega
  unfold InSector Lies RangeEntry.sector
  constructor
  · rintro ⟨⟨hlo, hhi⟩, rfl⟩
    have hpos : 0 < e.sigma := by omega
    have h1 := Nat.div_mul_le_self (a - e.base.toNat) e.sigma
    have h2 := Nat.lt_div_mul_add (a := a - e.base.toNat) hpos
    omega
  · rintro ⟨hlo, hhi⟩
    refine ⟨by omega, ?_⟩
    refine Nat.div_eq_of_lt_le (by omega) ?_
    rw [Nat.succ_mul]
    omega

theorem sector_lt {e : RangeEntry} {a : Nat} (h : Lies e a) : e.sector a < 64 := by
  obtain ⟨hlo, hhi⟩ := h
  unfold RangeEntry.sector
  refine Nat.div_lt_of_lt_mul ?_
  unfold RangeEntry.sigma
  omega

/-- The bits of the old sectors that meet sector `k` of a new entry. -/
def meetingBits (new : RangeEntry) (olds : List RangeEntry) (k : Nat) (f : RangeEntry → Nat → Bool) : List Bool :=
  olds.flatMap fun o => (List.range 64).filterMap fun j =>
    if o.base.toNat + j * o.sigma < min (o.base.toNat + j * o.sigma + o.sigma) o.limit.toNat ∧
      new.base.toNat + k * new.sigma < min (o.base.toNat + j * o.sigma + o.sigma) o.limit.toNat ∧
      o.base.toNat + j * o.sigma < min (new.base.toNat + k * new.sigma + new.sigma) new.limit.toNat ∧
      new.base.toNat + k * new.sigma < min (new.base.toNat + k * new.sigma + new.sigma) new.limit.toNat then some (f o j) else none

theorem mem_meetingBits (new : RangeEntry) (olds : List RangeEntry) (k : Nat) (f : RangeEntry → Nat → Bool) (b : Bool) :
    b ∈ meetingBits new olds k f ↔ ∃ o ∈ olds, ∃ a, InSector new k a ∧ Lies o a ∧ f o (o.sector a) = b := by
  simp only [meetingBits, List.mem_flatMap, List.mem_filterMap, List.mem_range, Option.ite_none_right_eq_some, Option.some.injEq]
  refine exists_congr fun o => and_congr Iff.rfl ⟨?_, ?_⟩
  · rintro ⟨j, hj, ⟨h1, h2, h3, h4⟩, hb⟩
    have hin : InSector o j (max (o.base.toNat + j * o.sigma) (new.base.toNat + k * new.sigma)) := (inSector_iff ..).2 (by omega)
    exact ⟨_, (inSector_iff ..).2 (by omega), hin.1, by rw [hin.2]; exact hb⟩
  · rintro ⟨a, hnew, hlies, hb⟩
    have hold := (inSector_iff o (o.sector a) a).1 ⟨hlies, rfl⟩
    have hnew := (inSector_iff ..).1 hnew
    exact ⟨o.sector a, sector_lt hlies, by omega, hb⟩

/-- A number by its bits. -/
def packed (n : Nat) (g : Nat → Bool) : Nat := (List.range n).foldl (fun a k => if g k then a + 2 ^ k else a) 0

theorem packed_succ (n : Nat) (g : Nat → Bool) : packed (n + 1) g = if g n then packed n g + 2 ^ n else packed n g := by
  rw [packed, List.range_succ, List.foldl_append, List.foldl_cons, List.foldl_nil]
  rfl

theorem packed_lt (g : Nat → Bool) : ∀ n, packed n g < 2 ^ n
  | 0 => by simp [packed]
  | n + 1 => by
    have h := packed_lt g n
    rw [packed_succ, pow_succ]
    split <;> omega

theorem testBit_packed (g : Nat → Bool) (i : Nat) : ∀ n, i < n → (packed n g).testBit i = g i
  | n + 1, h => by
    rw [packed_succ]
    by_cases hi : i = n
    · subst hi
      have hno : (packed i g).testBit i = false := Nat.testBit_lt_two_pow (packed_lt g i)
      split
      · rename_i hg
        rw [Nat.add_comm, Nat.testBit_two_pow_add_eq, hno, hg]
        rfl
      · rename_i hg
        rw [hno, eq_false_of_ne_true hg]
    · have ih := testBit_packed g i n (by omega)
      split
      · rw [Nat.add_comm, Nat.testBit_two_pow_add_gt (by omega), ih]
      · exact ih

theorem reSector_eq (new : RangeEntry) (olds : List RangeEntry) : reSector new olds = { new with
    res := toWord (packed 64 fun k => if (meetingBits new olds k fun o j => bits o.res.toNat j 1 == 1).isEmpty then false
      else (meetingBits new olds k fun o j => bits o.res.toNat j 1 == 1).all id)
    wmask := toWord (packed 64 fun k => if (meetingBits new olds k fun o j => bits o.wmask.toNat j 1 == 1).isEmpty then false
      else (meetingBits new olds k fun o j => bits o.wmask.toNat j 1 == 1).any id) } := rfl

theorem getLsbD_packed (g : Nat → Bool) {i : Nat} (hi : i < 64) : (toWord (packed 64 g)).getLsbD i = g i := by
  rw [toWord, BitVec.getLsbD_ofNat, decide_eq_true hi, Bool.true_and, testBit_packed g i 64 hi]

theorem bits_one_iff (w : Word) (j : Nat) : (bits w.toNat j 1 == 1) = w.getLsbD j := by
  rw [Bool.eq_iff_iff, beq_iff_eq, getLsbD_iff_div]
  exact Iff.rfl

/-- A sector of the new entry is resident where all its bytes were, and watched where some were. -/
structure Sectors (q : RangeEntry) (resident watched : Nat → Prop) : Prop where
  res : ∀ i, i < 64 → (q.res.getLsbD i = true ↔ (∃ a, InSector q i a) ∧ ∀ a, InSector q i a → resident a)
  wmask : ∀ i, i < 64 → (q.wmask.getLsbD i = true ↔ ∃ a, InSector q i a ∧ watched a)

theorem Sectors.stated {q : RangeEntry} {resident watched : Nat → Prop} (h : Sectors q resident watched) (i : Nat) (hi : i < 64) :
    (q.res.getLsbD i = true ↔ (∃ a, Lies q a ∧ q.sector a = i) ∧ ∀ a, Lies q a → q.sector a = i → resident a) ∧
    (q.wmask.getLsbD i = true ↔ ∃ a, Lies q a ∧ q.sector a = i ∧ watched a) :=
  ⟨(h.res i hi).trans (and_congr Iff.rfl (forall_congr' fun _ => and_imp)), (h.wmask i hi).trans (exists_congr fun _ => and_assoc)⟩

theorem reSector_sectors {new : RangeEntry} {olds : List RangeEntry} {old : (RangeEntry → Word) → Nat → Prop}
    (hcover : ∀ a, Lies new a → ∃ o ∈ olds, Lies o a)
    (hold : ∀ w, ∀ o ∈ olds, ∀ a, Lies o a → (old w a ↔ (w o).getLsbD (o.sector a) = true)) :
    Sectors (reSector new olds) (old (·.res)) (old (·.wmask)) := by
  rw [reSector_eq]
  constructor
  · intro i hi
    dsimp only
    rw [getLsbD_packed _ hi]
    have hempty : (meetingBits new olds i fun o j => bits o.res.toNat j 1 == 1).isEmpty = true ↔ ¬ ∃ a, InSector new i a := by
      rw [List.isEmpty_iff, List.eq_nil_iff_forall_not_mem]
      constructor
      · rintro h ⟨a, ha⟩
        obtain ⟨o, ho, hlies⟩ := hcover a ha.1
        exact h _ ((mem_meetingBits ..).2 ⟨o, ho, a, ha, hlies, rfl⟩)
      · rintro h b hb
        obtain ⟨_, _, a, ha, _⟩ := (mem_meetingBits ..).1 hb
        exact h ⟨a, ha⟩
    by_cases hin : ∃ a, InSector new i a
    · rw [if_neg (mt hempty.1 (not_not.2 hin)), List.all_eq_true]
      refine (Iff.trans ?_ (and_iff_right hin).symm)
      constructor
      · intro h a ha
        obtain ⟨o, ho, hlies⟩ := hcover a ha.1
        refine (hold (·.res) o ho a hlies).2 ?_
        rw [← bits_one_iff]
        exact h _ ((mem_meetingBits ..).2 ⟨o, ho, a, ha, hlies, rfl⟩)
      · intro h b hb
        obtain ⟨o, ho, a, ha, hlies, rfl⟩ := (mem_meetingBits ..).1 hb
        exact (bits_one_iff ..).trans ((hold (·.res) o ho a hlies).1 (h a ha))
    · rw [if_pos (hempty.2 hin)]
      exact ⟨fun h => (nomatch h), fun h => absurd h.1 hin⟩
  · intro i hi
    dsimp only
    rw [getLsbD_packed _ hi]
    have hany : (if (meetingBits new olds i fun o j => bits o.wmask.toNat j 1 == 1).isEmpty then false
        else (meetingBits new olds i fun o j => bits o.wmask.toNat j 1 == 1).any id) =
        (meetingBits new olds i fun o j => bits o.wmask.toNat j 1 == 1).any id := by
      split
      · rename_i h
        rw [List.isEmpty_iff.1 h]
        rfl
      · rfl
    rw [hany, List.any_eq_true]
    constructor
    · rintro ⟨b, hb, hid⟩
      obtain ⟨o, ho, a, ha, hlies, rfl⟩ := (mem_meetingBits ..).1 hb
      exact ⟨a, ha, (hold (·.wmask) o ho a hlies).2 ((bits_one_iff ..).symm.trans hid)⟩
    · rintro ⟨a, ha, hw⟩
      obtain ⟨o, ho, hlies⟩ := hcover a ha.1
      exact ⟨_, (mem_meetingBits ..).2 ⟨o, ho, a, ha, hlies, rfl⟩, (bits_one_iff ..).trans ((hold (·.wmask) o ho a hlies).1 hw)⟩

/-- A part of one entry has the entry's sectors. -/
theorem part_sectors {e new : RangeEntry} (hcover : ∀ a, Lies new a → Lies e a) :
    Sectors (reSector new [e]) (fun a => e.res.getLsbD (e.sector a) = true) (fun a => e.wmask.getLsbD (e.sector a) = true) :=
  reSector_sectors (old := fun w a => (w e).getLsbD (e.sector a) = true) (fun a ha => ⟨e, List.mem_singleton.2 rfl, hcover a ha⟩)
    fun w o ho a _ => by rw [List.mem_singleton.1 ho]

/-- Two adjoining entries joined have the sectors of both. -/
theorem joined_sectors {e g : RangeEntry} (hadj : g.base = e.limit) : Sectors (reSector { e with limit := g.limit } [e, g])
    (fun a => if a < e.limit.toNat then e.res.getLsbD (e.sector a) = true else g.res.getLsbD (g.sector a) = true)
    (fun a => if a < e.limit.toNat then e.wmask.getLsbD (e.sector a) = true else g.wmask.getLsbD (g.sector a) = true) := by
  refine reSector_sectors
    (old := fun w a => if a < e.limit.toNat then (w e).getLsbD (e.sector a) = true else (w g).getLsbD (g.sector a) = true) (fun a ha => ?_)
    fun w o ho a hlies => ?_
  · by_cases hlt : a < e.limit.toNat
    · exact ⟨e, List.mem_cons_self, ha.1, hlt⟩
    · exact ⟨g, List.mem_cons_of_mem _ List.mem_cons_self, by rw [hadj]; exact Nat.not_lt.1 hlt, ha.2⟩
  · rcases List.mem_pair.1 ho with rfl | rfl
    · rw [if_pos hlies.2]
    · have hle : ¬ a < e.limit.toNat := Nat.not_lt.2 (hadj ▸ hlies.1)
      rw [if_neg hle]

-- The checks of an image (R187, R271) -----------------------------------------------------------------------------------------------------------

theorem mem_cutRange (x y : Nat × Nat) (a : Nat) : (∃ p ∈ cutRange x y, p.1 ≤ a ∧ a < p.2) ↔ (x.1 ≤ a ∧ a < x.2) ∧ ¬ (y.1 ≤ a ∧ a < y.2) := by
  simp only [cutRange, List.mem_filter, List.mem_cons, List.not_mem_nil, or_false, decide_eq_true_eq]
  constructor
  · rintro ⟨p, ⟨rfl | rfl, hp⟩, ha⟩
    · dsimp only at ha; omega
    · dsimp only at ha; omega
  · rintro ⟨hx, hy⟩
    by_cases h : a < y.1
    · exact ⟨_, ⟨.inl rfl, by dsimp only; omega⟩, by dsimp only; omega⟩
    · exact ⟨_, ⟨.inr rfl, by dsimp only; omega⟩, by dsimp only; omega⟩

/-- What the cuts leave is what no extent holds. -/
theorem mem_cutAll (a : Nat) : ∀ (ms : List (Nat × Nat)) (l : List (Nat × Nat)),
    (∃ p ∈ ms.foldl (fun l m => l.flatMap fun x => cutRange x m) l, p.1 ≤ a ∧ a < p.2) ↔
      (∃ p ∈ l, p.1 ≤ a ∧ a < p.2) ∧ ∀ m ∈ ms, ¬ (m.1 ≤ a ∧ a < m.2)
  | [], l => by simp
  | m :: ms, l => by
    have hone : (∃ p ∈ l.flatMap (fun x => cutRange x m), p.1 ≤ a ∧ a < p.2) ↔ (∃ p ∈ l, p.1 ≤ a ∧ a < p.2) ∧ ¬ (m.1 ≤ a ∧ a < m.2) := by
      constructor
      · rintro ⟨p, hp, ha⟩
        obtain ⟨x, hx, hpx⟩ := List.mem_flatMap.1 hp
        obtain ⟨h1, h2⟩ := (mem_cutRange x m a).1 ⟨p, hpx, ha⟩
        exact ⟨⟨x, hx, h1⟩, h2⟩
      · rintro ⟨⟨x, hx, h1⟩, h2⟩
        obtain ⟨p, hp, ha⟩ := (mem_cutRange x m a).2 ⟨h1, h2⟩
        exact ⟨p, List.mem_flatMap.2 ⟨x, hx, hp⟩, ha⟩
    rw [List.foldl_cons, mem_cutAll a ms, hone, List.forall_mem_cons, and_assoc]

/-- Every piece that the cuts leave holds an address. -/
theorem cutAll_pos : ∀ (ms : List (Nat × Nat)) (l : List (Nat × Nat)), (∀ p ∈ l, p.1 < p.2) →
    ∀ p ∈ ms.foldl (fun l m => l.flatMap fun x => cutRange x m) l, p.1 < p.2
  | [], _, h => h
  | m :: ms, l, _ => cutAll_pos ms _ fun p hp => by
    obtain ⟨x, _, hpx⟩ := List.mem_flatMap.1 hp
    exact of_decide_eq_true (List.mem_filter.1 hpx).2

theorem extentOk_iff (p : Part) {e : RangeEntry} (hpos : e.base.toNat < e.limit.toNat) : extentOk p e = true ↔
    (e.base.toNat + e.off.toNat) % 2 ^ 64 + (e.limit.toNat - e.base.toNat) ≤ 2 ^ 39 ∧
      ∀ a, Lies e a → ∃ m ∈ p.mem, m.1 ≤ (a + e.off.toNat) % 2 ^ 64 ∧ (a + e.off.toNat) % 2 ^ 64 < m.2 := by
  unfold extentOk
  dsimp only
  rw [Bool.and_eq_true, decide_eq_true_iff]
  refine and_congr_right fun hbelow => ?_
  have hplace : ∀ a, Lies e a → (a + e.off.toNat) % 2 ^ 64 = (e.base.toNat + e.off.toNat) % 2 ^ 64 + (a - e.base.toNat) := by
    rintro a ⟨h1, h2⟩
    omega
  rw [List.isEmpty_iff, List.eq_nil_iff_forall_not_mem]
  constructor
  · intro h a ha
    by_contra hno
    push Not at hno
    rw [hplace a ha] at hno
    obtain ⟨q, hq, _⟩ := (mem_cutAll ((e.base.toNat + e.off.toNat) % 2 ^ 64 + (a - e.base.toNat)) p.mem _).2
      ⟨⟨((e.base.toNat + e.off.toNat) % 2 ^ 64, (e.base.toNat + e.off.toNat) % 2 ^ 64 + (e.limit.toNat - e.base.toNat)),
        List.mem_singleton.2 rfl, Nat.le_add_right _ _, by have h1 := ha.1; have h2 := ha.2; dsimp only; omega⟩, fun m hm hin => absurd (hno m hm hin.1) (by omega)⟩
    exact h q hq
  · intro h q hq
    have hqpos := cutAll_pos p.mem _ (by intro x hx; rw [List.mem_singleton.1 hx]; dsimp only; omega) q hq
    obtain ⟨⟨x, hx, hin⟩, hno⟩ := (mem_cutAll q.1 p.mem _).1 ⟨q, hq, le_rfl, hqpos⟩
    rw [List.mem_singleton.1 hx] at hin
    dsimp only at hin
    have hlies : Lies e (e.base.toNat + (q.1 - (e.base.toNat + e.off.toNat) % 2 ^ 64)) := by unfold Lies; omega
    obtain ⟨m, hm, hmin⟩ := h _ hlies
    rw [hplace _ hlies] at hmin
    exact hno m hm (by omega)

/-- An image that is no descriptor of a range: a reserved bit, a watch that is not on, bounds out of order. -/
def BadImage (e : RangeEntry) (watchOk : Bool) : Prop :=
  2 ^ 20 ≤ e.ctl.toNat ∨ e.ctl.toNat / 2 ^ 7 % 2 = 1 ∨ 2 ^ 12 ≤ e.lidx.toNat ∨ (e.ctl.toNat / 2 ^ 5 % 2 = 1 ∧ watchOk = false) ∨
    (e.ctl.toNat % 2 = 1 ∧ ¬ (e.base.toNat % 256 = 0 ∧ e.limit.toNat % 256 = 0 ∧ e.off.toNat % 256 = 0 ∧ e.base.toNat < e.limit.toNat ∧
      e.limit.toNat ≤ 2 ^ 57))

theorem valid_iff (e : RangeEntry) : e.valid = true ↔ e.ctl.toNat % 2 = 1 := by
  rw [RangeEntry.valid, beq_iff_eq, bits_low]
  exact Iff.rfl

theorem imageValid_iff (e : RangeEntry) : imageValid e = true ↔ e.ctl.toNat < 2 ^ 20 ∧ e.ctl.toNat / 2 ^ 7 % 2 = 0 ∧ e.lidx.toNat < 2 ^ 12 ∧
    (e.ctl.toNat % 2 = 1 → e.base.toNat % 256 = 0 ∧ e.limit.toNat % 256 = 0 ∧ e.off.toNat % 256 = 0 ∧ e.base.toNat < e.limit.toNat ∧
      e.limit.toNat ≤ 2 ^ 57) := by
  have hctl := e.ctl.isLt
  have hlidx := e.lidx.isLt
  have h1 : bits e.ctl.toNat 20 44 = 0 ↔ e.ctl.toNat < 2 ^ 20 := by unfold bits; omega
  have h2 : bits e.lidx.toNat 12 52 = 0 ↔ e.lidx.toNat < 2 ^ 12 := by unfold bits; omega
  simp only [imageValid, Bool.and_eq_true, Bool.or_eq_true, Bool.not_eq_true', beq_iff_eq, decide_eq_true_eq, h1, h2, and_assoc,
    ← Bool.not_eq_true, valid_iff, ← imp_iff_not_or]
  refine and_congr Iff.rfl (and_congr Iff.rfl (and_congr Iff.rfl (imp_congr_right fun _ => ?_)))
  omega

theorem badImage_iff (e : RangeEntry) (watchOk : Bool) :
    imageValid e = false ∨ (bits e.ctl.toNat 5 1 = 1 ∧ watchOk = false) ↔ BadImage e watchOk := by
  have h7 := Nat.mod_two_eq_zero_or_one (e.ctl.toNat / 2 ^ 7)
  rw [← Bool.not_eq_true, imageValid_iff, show bits e.ctl.toNat 5 1 = e.ctl.toNat / 2 ^ 5 % 2 from rfl, BadImage]
  by_cases hwatch : e.ctl.toNat / 2 ^ 5 % 2 = 1 ∧ watchOk = false
  · exact ⟨fun _ => .inr (.inr (.inr (.inl hwatch))), fun _ => .inr hwatch⟩
  · simp only [hwatch, or_false, false_or]
    by_cases hvalid : e.ctl.toNat % 2 = 1
    · simp only [hvalid, true_and, true_implies]
      omega
    · simp only [hvalid, false_and, or_false, false_implies, and_true]
      omega

theorem base_lt_of_good {e : RangeEntry} {watchOk : Bool} (h : ¬ BadImage e watchOk) (hv : e.ctl.toNat % 2 = 1) :
    e.base.toNat < e.limit.toNat := by
  by_contra hno
  exact h (.inr (.inr (.inr (.inr ⟨hv, fun ⟨_, _, _, hlt, _⟩ => hno hlt⟩))))

/-- No other valid entry of the ASID meets the range. -/
def ClearOf (t : Sparse RangeEntry) (n asid : Nat) (e : RangeEntry) : Prop :=
  ∀ x ∈ t, x.1 ≠ n → x.2.ctl.toNat % 2 = 1 → x.2.ctl.toNat / 2 ^ 8 % 2 ^ 12 = asid →
    ¬ (x.2.base.toNat < e.limit.toNat ∧ e.base.toNat < x.2.limit.toNat)

theorem overlap_iff (t : Sparse RangeEntry) (n : Nat) (e : RangeEntry) : (t.any fun x => x.1 ≠ n && x.2.valid && x.2.asid == e.asid &&
    x.2.base.toNat < e.limit.toNat && e.base.toNat < x.2.limit.toNat) = true ↔ ¬ ClearOf t n e.asid e := by
  have hasid : ∀ q : RangeEntry, q.ctl.toNat / 2 ^ 8 % 2 ^ 12 = q.asid := fun _ => rfl
  simp only [List.any_eq_true, Bool.and_eq_true, decide_eq_true_eq, beq_iff_eq, valid_iff, ClearOf, hasid, not_forall, not_not, exists_prop,
    and_assoc]

/-- RLOAD's check decides: an image that is none, an invalid one, a valid one that fits and one that does not. -/
theorem rloadFault_bad {t : Sparse RangeEntry} {n asid : Nat} {p : Part} {watchOk : Bool} {e : RangeEntry} (h : BadImage e watchOk) :
    rloadFault t n asid p watchOk e = some fEncoding := if_pos ((badImage_iff e watchOk).2 h)

theorem rloadFault_invalid {t : Sparse RangeEntry} {n asid : Nat} {p : Part} {watchOk : Bool} {e : RangeEntry} (h : ¬ BadImage e watchOk)
    (hv : ¬ e.ctl.toNat % 2 = 1) : rloadFault t n asid p watchOk e = none :=
  (if_neg (mt (badImage_iff e watchOk).1 h)).trans (if_pos (Bool.eq_false_iff.2 (mt (valid_iff e).1 hv)))

theorem rloadFault_fits {t : Sparse RangeEntry} {n asid : Nat} {p : Part} {watchOk : Bool} {e : RangeEntry} (h : ¬ BadImage e watchOk)
    (hv : e.ctl.toNat % 2 = 1) (hasid : e.asid = asid) (hext : extentOk p e = true) (hclear : ClearOf t n asid e) :
    rloadFault t n asid p watchOk e = none := by
  refine (if_neg (mt (badImage_iff e watchOk).1 h)).trans ((if_neg (by rw [(valid_iff e).2 hv]; decide)).trans (if_neg ?_))
  rw [overlap_iff, hasid, hext]
  rintro (h | h | h)
  · exact h rfl
  · exact nomatch h
  · exact h hclear

theorem rloadFault_unfit {t : Sparse RangeEntry} {n asid : Nat} {p : Part} {watchOk : Bool} {e : RangeEntry} (h : ¬ BadImage e watchOk)
    (hv : e.ctl.toNat % 2 = 1) (hno : e.asid ≠ asid ∨ ¬ extentOk p e = true ∨ ¬ ClearOf t n e.asid e) :
    rloadFault t n asid p watchOk e = some fPermission := by
  refine (if_neg (mt (badImage_iff e watchOk).1 h)).trans ((if_neg (by rw [(valid_iff e).2 hv]; decide)).trans (if_pos ?_))
  rwa [overlap_iff, ← Bool.not_eq_true]

-- The image of an entry and its words (R270) ----------------------------------------------------------------------------------------------------------

theorem entry_ext {x y : RangeEntry} (h : ∀ i, i < 8 → (entryWords x).getD i 0 = (entryWords y).getD i 0) : x = y := by
  cases x
  cases y
  rw [RangeEntry.mk.injEq]
  exact ⟨h 0 (by decide), h 1 (by decide), h 2 (by decide), h 3 (by decide), h 4 (by decide), h 5 (by decide), h 6 (by decide), h 7 (by decide)⟩

theorem entryOf_entryImage (e : RangeEntry) : entryOf (BitVec.ofNat 512 (entryImage e)) = e := by
  have hwf : Memory.wf ([] : Memory) = true := rfl
  have hlt : entryImage e < 256 ^ 64 := by
    have h := words_lt (entryWords e)
    rw [← pow_256_8] at h
    exact h
  have hread : Memory.readNat (Memory.writeNat [] 0 64 (entryImage e)) 0 64 = entryImage e := by
    rw [readNat_writeNat 64 _ _ _ hwf, Nat.mod_eq_of_lt hlt]
  refine entry_ext fun i hi => ?_
  have h := entryOf_word (Memory.writeNat [] 0 64 (entryImage e)) 0 hi
  rw [hread] at h
  exact h.trans (word_entryImage hwf 0 e hi)

/-- A sample of an image takes its 64 bytes as they stand (R187, R190). -/
theorem sampleLocal_image (s : State) (k : Nat) (f : Flight) {n a : Nat} (hf : f.eff = .yloadRead n a ∨ f.eff = .rloadRead n a) :
    sampleLocal s k f = addFlight s k { f with
      at' := f.at' + 1
      eff := if f.eff = .yloadRead n a then .yload n (BitVec.ofNat 512 (Memory.readNat (getCore s k).spad a 64))
        else .rload n (BitVec.ofNat 512 (Memory.readNat (getCore s k).spad a 64)) } := by
  unfold sampleLocal
  rcases hf with hf | hf
  · rw [hf, if_pos rfl]
  · rw [hf, if_neg fun h => nomatch h]

-- Issue (R187 to R190) ---------------------------------------------------------------------------------------------------------------------------

theorem splits_iff (c : CoreState) (n m x : Nat) : rsplitOk c n m x = true ↔ x % 256 = 0 ∧ (getRange c n).base.toNat < x ∧
    x < (getRange c n).limit.toNat ∧ ¬ (getRange c m).ctl.toNat % 2 = 1 ∧ (getRange c n).ctl.toNat % 2 = 1 := by
  simp only [rsplitOk, Bool.and_eq_true, beq_iff_eq, decide_eq_true_eq, Bool.not_eq_true', ← Bool.not_eq_true, valid_iff, and_assoc]

theorem merges_iff (c : CoreState) (n m : Nat) : rmergeOk c n m = true ↔
    (getRange c n).ctl.toNat % 2 = 1 ∧ (getRange c m).ctl.toNat % 2 = 1 ∧ (getRange c m).base = (getRange c n).limit ∧
    (getRange c n).ctl.toNat / 2 ^ 8 % 2 ^ 12 = (getRange c m).ctl.toNat / 2 ^ 8 % 2 ^ 12 ∧ (getRange c n).off = (getRange c m).off ∧
    (getRange c n).ctl.toNat / 2 % 2 ^ 6 = (getRange c m).ctl.toNat / 2 % 2 ^ 6 := by
  simp only [rmergeOk, Bool.and_eq_true, beq_iff_eq, valid_iff, and_assoc]
  exact Iff.rfl

/-- Each core of a list without repetition has the entry behind its own. -/
theorem addFlights_each (f : Flight) (hout : isOutward f.eff = false) : ∀ (l : List Nat) (s : State), l.Nodup →
    (∀ k, k ∉ l → getCore (l.foldl (fun t k => addFlight t k f) s) k = getCore s k) ∧
    (∀ k ∈ l, getCore (l.foldl (fun t k => addFlight t k f) s) k = { getCore s k with inflight := (getCore s k).inflight ++ [f] })
  | [], s, _ => ⟨fun _ _ => rfl, fun _ h => nomatch h⟩
  | q :: r, s, hl => by
    obtain ⟨hq, hr⟩ := List.nodup_cons.1 hl
    obtain ⟨hother, heach⟩ := addFlights_each f hout r (addFlight s q f) hr
    have hne : ∀ {k}, k ≠ q → getCore (addFlight s q f) k = getCore s k := fun h => getCore_modCore_ne _ _ h
    have hself : getCore (addFlight s q f) q = { getCore s q with inflight := (getCore s q).inflight ++ [f] } := by
      rw [getCore_addFlight, hout]
      rfl
    refine ⟨fun k hk => ?_, fun k hk => ?_⟩
    · rw [List.mem_cons, not_or] at hk
      exact (hother k hk.2).trans (hne hk.1)
    · by_cases hkq : k = q
      · subst hkq
        exact (hother k hq).trans hself
      · have h := heach k ((List.mem_cons.1 hk).resolve_left hkq)
        rw [hne hkq] at h
        exact h

theorem getCore_addFlight_dcc (s : State) (k q : Nat) (f : Flight) : (getCore (addFlight s k f) q).dcc = (getCore s q).dcc := by
  by_cases h : q = k
  · rw [h, getCore_addFlight]
  · rw [getCore_addFlight_ne s f h]

/-- The issue that entries name is the same after entries have been put in flight. -/
theorem addFlights_issued {s : State} (at' n : Nat) (e : Effect) : ∀ (l : List Nat) {t : State}, t.ctx = s.ctx → (cur t).dcc = (cur s).dcc →
    l.foldl (fun t k => addFlight t k { flightOf t 0 ccSt e with at' := at' }) t =
      l.foldl (fun t k => addFlight t k { flightOf s n ccSt e with at' := at' }) t
  | [], _, _, _ => rfl
  | q :: r, t, hctx, hdcc => by
    have hone : { flightOf t 0 ccSt e with at' := at' } = { flightOf s n ccSt e with at' := at' } := by
      unfold flightOf
      rw [hctx, hdcc]
    rw [List.foldl_cons, List.foldl_cons, hone]
    refine addFlights_issued at' n e r hctx (Eq.trans ?_ hdcc)
    exact getCore_addFlight_dcc t q t.ctx.core _

/-- RINV reaches every core of its running domain, in one cycle. -/
theorem rinv_reaches {s : State} {d : Domain} {a : SReg} (hactive : s.ctx.active = true) (hd : domOf s s.ctx.core = some d) (hrun : d.status = .run) :
    exec (.rinv a) s = .next (d.all.foldl (fun t k => addFlight t k { flightOf s (if d.span = 2 then 560 else 96) ccSt (.rinv d.asid (rdN s a)) with
      at' := (cur s).dcc + (if d.span = 2 then 560 else 96) }) s) := by
  change execRinv a s = _
  unfold execRinv
  dsimp only
  rw [if_neg (by rw [hactive]; decide), hd]
  dsimp only
  rw [if_neg (by rw [hrun]; exact fun h => nomatch h.1), asidOfCore, hd]
  exact congrArg _ (addFlights_issued _ _ _ d.all rfl rfl)

-- Landing ------------------------------------------------------------------------------------------------------------------------------------------

section
variable {s : State} {k : Nat} {d : Domain} {f : Flight}

/-- The state in which the one entry of a cycle lands. -/
def beforeOne (s : State) (k : Nat) (f : Flight) : State := setCore s k (beforeLandings (getCore s k) [f])

theorem onCore_beforeOne (ht : Tidy s) : OnCore s k (beforeLandings (getCore s k) [f]) (beforeOne s k f) :=
  (onCore_refl ht).setCore (tidyCore_beforeLandings (ht.core k) [f])

theorem landResults_one (hdue : dueNow s k = [f]) (hwin : windowHit (getCore s k) f = false) :
    landResults s k none = applyLocal (beforeOne s k f) k f := by
  obtain ⟨hkept, hland⟩ := landing_all (s := s) (k := k) (by rw [hdue]; intro x hx; rwa [List.mem_singleton.1 hx])
  rw [landResults_alone, hkept, List.foldl_nil, afterLandings, hland, hdue]
  rfl

/-- A core that takes a fault in its cycle keeps all but its stop record. -/
theorem lateFault_core {t : State} (hd : domOf t k = some d) (hpart : partnerOf d k = none) (code : Nat) :
    ∃ x repaired, getCore (lateFault t k f code 0 [] 0) k = { getCore t k with stop := some x, repaired := repaired } ∧
      ((getCore t k).stop = none → x.code = code) := by
  obtain ⟨domains, h⟩ := takeFaultFull_rest (s := t) (k := k) (st := f.stream) (station := f.station) (evt := f.evt) (code := code) (cause := 0)
    (detail := [toWord f.seq, 0, 0, 0]) (prog := 0) (w23 := 0) (w24 := 0) hd
  have hcore : getCore (lateFault t k f code 0 [] 0) k = faultedCore (getCore t k) d f.stream code 0 [toWord f.seq, 0, 0, 0] 0 0 0 := by
    have hne : partnerOf d k ≠ some k := by rw [hpart]; exact fun h => nomatch h
    rw [lateFault, List.isEmpty_nil, if_pos rfl, h]
    exact getCore_stoppedCores f.stream code 0 _ 0 0 0 hne
  refine ⟨_, _, hcore, fun hstop => ?_⟩
  rw [joinStop_first hstop]

/-- The image of an entry on its way into the ASID's list (R188, R276). -/
def listed (s : State) (k : Nat) (f : Flight) (slot sub : Nat) (e : RangeEntry) : List Flight :=
  match Sparse.get 0 (getPkg s (pkgOf k)).lists (asidOfCore s k) with
  | 0 => []
  | b + 1 => [{ f with at' := f.issue + 1280, sub := sub, eff :=
                .memWrite (pkgOf k * 2 ^ 39 + b + 64 * (slot % 4096)) 64 (2 ^ 64 - 1) (entryImage e) none }]

/-- A core with more entries in flight that leave it. -/
def sending (c : CoreState) (l : List Flight) : CoreState := { c with inflight := c.inflight ++ l, leaving := c.leaving ++ l }

theorem OnCore.asid {c : CoreState} {t : State} (h : OnCore s k c t) (hpid : c.pid = (getCore s k).pid) : asidOfCore t k = asidOfCore s k := by
  unfold asidOfCore domOf findDom
  rw [h.core, hpid, h.domains]

theorem OnCore.domOf {c : CoreState} {t : State} (h : OnCore s k c t) (hpid : c.pid = (getCore s k).pid) : domOf t k = domOf s k := by
  unfold Machine.domOf findDom
  rw [h.core, hpid, h.domains]

theorem OnCore.listWrite {c : CoreState} {t : State} (h : OnCore s k c t) (hpid : c.pid = (getCore s k).pid) (slot : Nat) (e : RangeEntry) (sub : Nat) :
    OnCore s k (sending c (listed s k f slot sub e)) (listWrite t k f slot e sub) := by
  unfold Machine.listWrite listSlot listed
  rw [h.asid hpid, show getPkg t (pkgOf k) = getPkg s (pkgOf k) by unfold getPkg; rw [h.pkgs]]
  cases Sparse.get 0 (getPkg s (pkgOf k)).lists (asidOfCore s k) with
  | zero =>
    rw [sending, List.append_nil, List.append_nil]
    exact h
  | succ b => exact h.modCore (e := fun c => sending c [_]) fun c hc => ⟨hc.form⟩

/-- Two entries of a table are written. -/
theorem get_setRanges {c : CoreState} (hc : Sparse.wfFrom {} 0 c.ranges = true) {n m : Nat} (hnm : n ≠ m) (x y : RangeEntry) :
    getRange (setRange (setRange c n x) m y) n = x ∧ getRange (setRange (setRange c n x) m y) m = y ∧
      ∀ q, q ∉ [n, m] → getRange (setRange (setRange c n x) m y) q = getRange c q := by
  refine ⟨?_, get_set_wf _ _ _ (wf_set0 hc), fun q hq => ?_⟩
  · exact (get_set_ne _ _ _ hnm).trans (get_set_wf _ _ _ hc)
  · rw [List.mem_cons, List.mem_singleton, not_or] at hq
    exact (get_set_ne _ _ _ hq.2).trans (get_set_ne _ _ _ hq.1)

end

theorem exec_rsplit (s : State) (a b : SReg) (n : BitVec 6) : exec (.rsplit a b n) s =
    checked s [(rsplitOk (cur s) n.toNat ((rd s b).toNat % 2 ^ 6) (rdN s a), fPermission)]
      fun t => ccPost t 1 (.rsplit n.toNat ((rd s b).toNat % 2 ^ 6) (rd t a) ((rdN t b) / 2 ^ 16 % 2 ^ 12)) := by
  rw [← bits_low]
  rfl

theorem exec_rmerge (s : State) (a : SReg) (n : BitVec 6) : exec (.rmerge a n) s =
    checked s [(rmergeOk (cur s) n.toNat ((rd s a).toNat % 2 ^ 6), fPermission)]
      fun t => ccPost t 1 (.rmerge n.toNat ((rd s a).toNat % 2 ^ 6)) := by
  rw [← bits_low]
  rfl

section
variable {s : State} {k : Nat} {d : Domain} {f : Flight}

/-- How an entry that falls due alone lands in a core of a running domain: as `applyLocal` has it. -/
structure LandsAlone (s : State) (k : Nat) (d : Domain) (f : Flight) : Prop where
  tidy : Tidy s
  dom : domOf s k = some d
  alone : partnerOf d k = none
  due : dueNow s k = [f]

/-- A fault at a landing: the tables are as they were. -/
theorem LandsAlone.faults (h : LandsAlone s k d f) (hwin : windowHit (getCore s k) f = false) {code : Nat}
    (happly : applyLocal (beforeOne s k f) k f = lateFault (beforeOne s k f) k f code 0 [] 0) :
    (getCore (landResults s k none) k).ranges = (getCore s k).ranges ∧ (getCore (landResults s k none) k).sy = (getCore s k).sy ∧
      ∃ x, (getCore (landResults s k none) k).stop = some x ∧ ((getCore s k).stop = none → x.code = code) := by
  have hon := onCore_beforeOne (k := k) (f := f) h.tidy
  obtain ⟨x, repaired, hcore, hcode⟩ := lateFault_core (f := f) ((hon.domOf rfl).trans h.dom) h.alone code
  rw [landResults_one h.due hwin, happly, hcore, hon.core]
  rw [hon.core] at hcode
  exact ⟨rfl, rfl, x, rfl, hcode⟩

/-- The core after the edit of a table in a cycle of its own. -/
theorem LandsAlone.edits (h : LandsAlone s k d f) (hwin : windowHit (getCore s k) f = false) {e : CoreState → CoreState}
    (he : ∀ c, TidyCore c → TidyCore (e c)) (happly : applyLocal (beforeOne s k f) k f = modCore (beforeOne s k f) k e) :
    getCore (landResults s k none) k = e (beforeLandings (getCore s k) [f]) := by
  rw [landResults_one h.due hwin, happly]
  exact ((onCore_beforeOne h.tidy).modCore he).core

theorem LandsAlone.yload (h : LandsAlone s k d f) {y : Nat} {im : BitVec 512} (hf : f.eff = .yload y im) :
    (symValid im = true → Sparse.get {} (getCore (landResults s k none) k).sy y = ⟨true, im⟩ ∧
      (∀ z, z ≠ y → Sparse.get {} (getCore (landResults s k none) k).sy z = Sparse.get {} (getCore s k).sy z) ∧
      (getCore (landResults s k none) k).stop = (getCore s k).stop) ∧
    (symValid im = false → (getCore (landResults s k none) k).sy = (getCore s k).sy ∧
      ∃ x, (getCore (landResults s k none) k).stop = some x ∧ ((getCore s k).stop = none → x.code = 0x01)) := by
  have hwin : windowHit (getCore s k) f = false := by rw [windowHit, hf]
  constructor
  · intro hv
    rw [h.edits hwin (e := fun c => { c with sy := Sparse.set {} c.sy y ⟨true, im⟩ }) (fun c hc => hc.setSy (wf_set0 hc.wfSy))
      (by rw [applyLocal, hf]; exact if_pos hv)]
    exact ⟨get_set_wf _ _ _ (h.tidy.core k).wfSy, fun z hz => get_set_ne _ _ _ hz, rfl⟩
  · intro hv
    exact (h.faults hwin (code := fEncoding) (by rw [applyLocal, hf]; exact if_neg (by rw [hv]; decide))).2

/-- RLOAD's check, as its landing finds the table and the domain. -/
def rloadAt (s : State) (k n : Nat) (e : RangeEntry) : Option Nat :=
  rloadFault (getCore s k).ranges n (asidOfCore s k) (getPart s (pkgOf k) (partOfCore s k)) (featOn s k (partOfCore s k) 1) e

theorem LandsAlone.applyRload (h : LandsAlone s k d f) {n : Nat} {im : BitVec 512} (hf : f.eff = .rload n im) :
    applyLocal (beforeOne s k f) k f = match rloadAt s k n (entryOf im) with
      | some code => lateFault (beforeOne s k f) k f code 0 [] 0
      | none => modCore (beforeOne s k f) k (fun c => setRange c n (if (entryOf im).valid then entryOf im else {})) := by
  have hon := onCore_beforeOne (k := k) (f := f) h.tidy
  have hpart : partOfCore (beforeOne s k f) k = partOfCore s k := by unfold partOfCore; rw [hon.domOf rfl]
  rw [applyLocal, hf]
  dsimp only
  rw [hpart, hon.asid rfl, hon.core]
  rfl

theorem LandsAlone.rloadFaults (h : LandsAlone s k d f) {n code : Nat} {im : BitVec 512} (hf : f.eff = .rload n im)
    (hcheck : rloadAt s k n (entryOf im) = some code) : (getCore (landResults s k none) k).ranges = (getCore s k).ranges ∧
      ∃ x, (getCore (landResults s k none) k).stop = some x ∧ ((getCore s k).stop = none → x.code = code) := by
  have hwin : windowHit (getCore s k) f = false := by rw [windowHit, hf]
  obtain ⟨hranges, _, hstop⟩ := h.faults hwin (code := code) (by rw [h.applyRload hf, hcheck])
  exact ⟨hranges, hstop⟩

theorem LandsAlone.rloadLands (h : LandsAlone s k d f) {n : Nat} {im : BitVec 512} (hf : f.eff = .rload n im)
    (hwf : Sparse.wfFrom {} 0 (getCore s k).ranges = true) (hcheck : rloadAt s k n (entryOf im) = none) :
    Sparse.get {} (getCore (landResults s k none) k).ranges n = (if (entryOf im).valid then entryOf im else {}) ∧
      (∀ m, m ∉ [n] → Sparse.get {} (getCore (landResults s k none) k).ranges m = Sparse.get {} (getCore s k).ranges m) ∧
      (getCore (landResults s k none) k).stop = (getCore s k).stop := by
  have hwin : windowHit (getCore s k) f = false := by rw [windowHit, hf]
  rw [h.edits hwin (e := fun c => setRange c n (if (entryOf im).valid then entryOf im else {})) (fun c hc => ⟨hc.form⟩)
    (by rw [h.applyRload hf, hcheck])]
  exact ⟨get_set_wf _ _ _ hwf, fun m hm => get_set_ne _ _ _ (by simpa using hm), rfl⟩

/-- The entries that a split and a merge leave. -/
def splitLow (s : State) (k n : Nat) (x : Word) : RangeEntry := reSector { getRange (getCore s k) n with limit := x } [getRange (getCore s k) n]
def splitHigh (s : State) (k n : Nat) (x : Word) (slot : Nat) : RangeEntry :=
  reSector { getRange (getCore s k) n with base := x, lidx := toWord slot } [getRange (getCore s k) n]
def joined (s : State) (k n m : Nat) : RangeEntry :=
  reSector { getRange (getCore s k) n with limit := (getRange (getCore s k) m).limit } [getRange (getCore s k) n, getRange (getCore s k) m]

/-- A core of which two entries are written, and whose images are sent. -/
theorem sending_rewritten {n m : Nat} (hnm : n ≠ m) (l l' : List Flight) (x y : RangeEntry) {c : CoreState}
    (hc : Sparse.wfFrom {} 0 c.ranges = true) :
    Sparse.get {} (sending (sending (setRange (setRange c n x) m y) l) l').ranges n = x ∧
      Sparse.get {} (sending (sending (setRange (setRange c n x) m y) l) l').ranges m = y ∧
      (∀ q, q ∉ [n, m] → Sparse.get {} (sending (sending (setRange (setRange c n x) m y) l) l').ranges q = Sparse.get {} c.ranges q) ∧
      (sending (sending (setRange (setRange c n x) m y) l) l').inflight = c.inflight ++ (l ++ l') ∧
      (sending (sending (setRange (setRange c n x) m y) l) l').stop = c.stop := by
  obtain ⟨hn, hm, hothers⟩ := get_setRanges hc hnm x y
  exact ⟨hn, hm, hothers, List.append_assoc _ _ _, rfl⟩

/-- Two entries of the table written, and their images on their way into the list. -/
theorem LandsAlone.rewritten (h : LandsAlone s k d f) (hwf : Sparse.wfFrom {} 0 (getCore s k).ranges = true) {n m : Nat} (hnm : n ≠ m)
    (hwin : windowHit (getCore s k) f = false) {slot slot' : Nat} {x y : RangeEntry} (happly : applyLocal (beforeOne s k f) k f =
      listWrite (listWrite (modCore (beforeOne s k f) k fun c => setRange (setRange c n x) m y) k f slot x 0) k f slot' y 1) :
    Sparse.get {} (getCore (landResults s k none) k).ranges n = x ∧ Sparse.get {} (getCore (landResults s k none) k).ranges m = y ∧
      (∀ q, q ∉ [n, m] → Sparse.get {} (getCore (landResults s k none) k).ranges q = Sparse.get {} (getCore s k).ranges q) ∧
      (getCore (landResults s k none) k).inflight =
        stays (getCore s k) (getCore s k).dcc isLocal ++ (listed s k f slot 0 x ++ listed s k f slot' 1 y) ∧
      (getCore (landResults s k none) k).stop = (getCore s k).stop := by
  have hon := (onCore_beforeOne (k := k) (f := f) h.tidy).modCore (e := fun c => setRange (setRange c n x) m y) fun c hc => ⟨hc.form⟩
  have hcore := ((hon.listWrite (f := f) rfl slot x 0).listWrite (f := f) rfl slot' y 1).core
  rw [landResults_one h.due hwin, happly, hcore]
  exact sending_rewritten hnm _ _ x y hwf

end

/-- Settles O22: each command's issue, its image, and each entry's landing. -/
theorem tableEditCommands : Obligations.TableEditCommands := by
  unfold Obligations.TableEditCommands
  refine ⟨fun s a b n y hactive => ?_, entryOf_entryImage, fun s k f n a _ hf => ?_, fun s k d f hform hd hcyc hlive hpart hdue hranges => ?_⟩
  · dsimp only
    refine ⟨fun h => ⟨?_, ?_⟩, fun h => ⟨?_, ?_⟩, fun h => ?_, fun h => ?_, fun h => ?_, fun h => ?_, fun d hd hrun hnodup => ?_⟩
    · exact checked_posts hactive (spadWordOk_iff _ 64) fPermission 7 (fun t => .rloadRead n.toNat (rdN t a)) h
    · exact checked_posts hactive (spadWordOk_iff _ 64) fPermission 7 (fun t => .yloadRead y.toNat (rdN t a)) h
    · exact checked_faults (spadWordOk_iff _ 64) fPermission _ h
    · exact checked_faults (spadWordOk_iff _ 64) fPermission _ h
    · rw [exec_rsplit]
      exact checked_posts hactive (splits_iff ..) fPermission 1
        (fun t => .rsplit n.toNat ((rd s b).toNat % 2 ^ 6) (rd t a) ((rdN t b) / 2 ^ 16 % 2 ^ 12)) h
    · rw [exec_rsplit]
      exact checked_faults (splits_iff ..) fPermission _ h
    · rw [exec_rmerge]
      exact checked_posts hactive (merges_iff ..) fPermission 1 (fun _ => .rmerge n.toNat ((rd s a).toNat % 2 ^ 6)) h
    · rw [exec_rmerge]
      exact checked_faults (merges_iff ..) fPermission _ h
    · obtain ⟨hother, heach⟩ := addFlights_each { flightOf s (if d.span = 2 then 560 else 96) ccSt (.rinv d.asid (rdN s a)) with
        at' := (cur s).dcc + (if d.span = 2 then 560 else 96) } rfl d.all s hnodup
      exact ⟨_, rinv_reaches hactive hd hrun, foldl_keeps (fun t : State => t.mem = s.mem) _ (by intro t k h; exact h) _ _ rfl,
        foldl_keeps (fun t : State => t.domains = s.domains) _ (by intro t k h; exact h) _ _ rfl, hother, heach⟩
  · refine ⟨BitVec.ofNat 512 (Memory.readNat (getCore s k).spad a 64), sampleLocal_image s k f hf, fun i hi => ?_⟩
    rw [toNat_ofNat_readNat (getCore s k).spad a 64]
    exact byteAt_readNat _ _ hi
  · have ht : Tidy s := ⟨hform⟩
    have h : LandsAlone s k d f := ⟨ht, hd, hpart, hdue⟩
    have hdcc : (getCore s k).dcc = d.dcc := by
      rw [liveIn, Bool.and_eq_true, beq_iff_eq] at hlive
      exact hlive.1
    refine ⟨landResults s k none, resultLanding_alone hd hcyc hlive hpart, ?_⟩
    dsimp only
    refine ⟨fun y im hf => ?_, fun n im hf => ?_, fun n m x slot hf hnm hlo hhi hslot => ?_, fun n m hf hnm he hadj hg => ?_, landResults_mem s k⟩
    · exact h.yload hf
    · refine ⟨fun hbad => ?_, fun hok hv => ?_, fun hok hv hfit => ?_, fun hok hv hno => ?_, fun hok hv hno => ?_⟩
      · exact h.rloadFaults hf (rloadFault_bad hbad)
      · have := h.rloadLands hf hranges (rloadFault_invalid hok hv)
        rwa [if_neg (mt (valid_iff _).1 hv)] at this
      · obtain ⟨hasid, hinside, hbelow, hclear⟩ := hfit
        have := h.rloadLands hf hranges (rloadFault_fits hok hv hasid ((extentOk_iff _ (base_lt_of_good hok hv)).2 ⟨hbelow, hinside⟩) hclear)
        rwa [if_pos ((valid_iff _).2 hv)] at this
      · refine h.rloadFaults hf (rloadFault_unfit hok hv ?_)
        rw [extentOk_iff _ (base_lt_of_good hok hv), not_and_or]
        exact hno.imp_right fun h => .inl h.symm
      · refine h.rloadFaults hf (rloadFault_unfit hok hv ?_)
        by_cases hasid : (entryOf im).asid = asidOfCore s k
        · exact .inr (.inr (hasid ▸ hno))
        · exact .inl hasid
    · obtain ⟨hlow, hhigh, hothers, hflight, hstop⟩ := h.rewritten hranges hnm (by rw [windowHit, hf]) (x := splitLow s k n x)
        (y := splitHigh s k n x slot) (by rw [applyLocal, hf, (onCore_beforeOne (k := k) (f := f) ht).core]; rfl)
      rw [hlow, hhigh]
      refine ⟨rfl, rfl, rfl, rfl, rfl, ?_, fun q hq => ?_, hothers, hdcc ▸ hflight, hstop⟩
      · exact (BitVec.toNat_ofNat _ _).trans (Nat.mod_eq_of_lt (by omega))
      · have hcover : ∀ a, Lies q a → Lies (getRange (getCore s k) n) a := by
          rcases List.mem_pair.1 hq with rfl | rfl
          · exact fun a ha => ⟨ha.1, ha.2.trans hhi⟩
          · exact fun a ha => ⟨hlo.le.trans ha.1, ha.2⟩
        rcases List.mem_pair.1 hq with rfl | rfl
        · exact ⟨rfl, rfl, rfl, (part_sectors hcover).stated⟩
        · exact ⟨rfl, rfl, rfl, (part_sectors hcover).stated⟩
    · obtain ⟨hnew, hgone, hothers, hflight, hstop⟩ := h.rewritten hranges hnm (by rw [windowHit, hf]) (x := joined s k n m) (y := {})
        (by rw [applyLocal, hf, (onCore_beforeOne (k := k) (f := f) ht).core]; rfl)
      rw [hnew]
      exact ⟨rfl, rfl, rfl, rfl, rfl, rfl, (joined_sectors hadj).stated, hgone, hothers, hdcc ▸ hflight, hstop⟩

end Sys2Proof.Proofs
end

