-- ==== Sys2Proof/Proofs/Beats.lean ====
section
/-! PROOF. Beats of timed exchange and receive windows (R214 to R217, R284). -/

namespace Sys2Proof.Proofs

open Sys2Proof Sys2Proof.Machine Sys2Proof.Claims Sys2Proof.Laws

-- Masks of a 128-byte run -------------------------------------------------------------------------------------------------------------------------

theorem countOnes_packed (g : Nat → Bool) (n : Nat) : countOnes (packed n g) n = (List.range n).countP g := by
  have hbits : ∀ (n a : Nat), countOnes a n = (List.range n).countP fun i => a.testBit i := by
    intro n
    induction n with
    | zero => exact fun _ => rfl
    | succ n ih =>
      intro a
      have hlow : a % 2 = if a.testBit 0 then 1 else 0 := by
        rw [Nat.testBit_zero]
        rcases Nat.mod_two_eq_zero_or_one a with h | h <;> simp [h]
      rw [countOnes, ih, List.range_succ_eq_map, List.countP_cons, List.countP_map, Nat.add_comm, hlow]
      refine congrArg (· + _) (congrArg (List.countP · _) (funext fun i => ?_))
      rw [Function.comp_apply, ← Nat.testBit_succ]
  rw [hbits]
  refine List.countP_congr fun i hi => ?_
  rw [testBit_packed g i n (List.mem_range.1 hi)]

/-- Byte `a + i` lies in [lo, lo + len). -/
def insideAt (a lo len i : Nat) : Bool := decide (lo ≤ a + i ∧ a + i < lo + len)

theorem insideMask_eq (a lo len : Nat) : insideMask a lo len = packed 128 (insideAt a lo len) := by
  unfold insideMask packed insideAt
  simp only [decide_eq_true_eq]

theorem insideMask_lt (a lo len : Nat) : insideMask a lo len < 2 ^ 128 := insideMask_eq a lo len ▸ packed_lt _ _

theorem testBit_insideMask (a lo len : Nat) {i : Nat} (hi : i < 128) :
    (insideMask a lo len).testBit i = true ↔ lo ≤ a + i ∧ a + i < lo + len := by
  rw [insideMask_eq, testBit_packed _ i 128 hi, insideAt, decide_eq_true_iff]

theorem countP_interval (a lo hi : Nat) : ∀ n, (List.range n).countP (fun i => decide (lo ≤ a + i ∧ a + i < hi)) = min (a + n) hi - max a lo
  | 0 => by simp
  | n + 1 => by
    rw [List.range_succ, List.countP_append, countP_interval a lo hi n, List.countP_singleton]
    split
    · rename_i h
      rw [decide_eq_true_iff] at h
      omega
    · rename_i h
      rw [decide_eq_true_iff] at h
      omega

/-- The count of a beat's bytes in a window. -/
theorem countOnes_insideMask (a lo len : Nat) : countOnes (insideMask a lo len) 128 = min (a + 128) (lo + len) - max a lo := by
  rw [insideMask_eq, countOnes_packed]
  exact countP_interval a lo (lo + len) 128

theorem insideMask_all {a lo len : Nat} (h1 : lo ≤ a) (h2 : a + 128 ≤ lo + len) : insideMask a lo len = 2 ^ 128 - 1 := by
  refine Nat.eq_of_testBit_eq fun i => ?_
  rw [Nat.testBit_two_pow_sub_one]
  by_cases hi : i < 128
  · rw [decide_eq_true hi, testBit_insideMask a lo len hi]
    omega
  · rw [decide_eq_false hi]
    exact Nat.testBit_lt_two_pow ((insideMask_lt a lo len).trans_le (Nat.pow_le_pow_right Nat.two_pos (Nat.not_lt.1 hi)))

/-- The bytes of the run that a mask leaves out. -/
theorem testBit_rest (m : Nat) {i : Nat} (hi : i < 128) : ((2 ^ 128 - 1) ^^^ m).testBit i = !m.testBit i := by
  rw [Nat.testBit_xor, Nat.testBit_two_pow_sub_one, decide_eq_true hi, Bool.true_xor]

theorem wroteMask_nil (a : Nat) : wroteMask [] a = 0 := by
  have h : ∀ l : List Nat, l.foldl (fun m i => if ([] : List Wrote).any (fun w => w.a ≤ a + i && bits w.en (a + i - w.a) 1 == 1) then m + 2 ^ i else m) 0 = 0 := by
    intro l
    induction l with
    | nil => rfl
    | cons x r ih => exact ih
  exact h _

theorem metBy_nil (d : Domain) (k a plain : Nat) : metBy d k a plain [] = [] := rfl

-- A beat (R216, R217) --------------------------------------------------------------------------------------------------------------------------------

section
variable {s : State} {k : Nat} {d : Domain} {f : Flight} {a sender run : Nat} {v : Row}

/-- The core as a beat finds it. -/
def beforeBeats (c : CoreState) : CoreState := coreBeside c c.dcc isBeat

theorem tidyCore_beforeBeats {c : CoreState} (h : TidyCore c) : TidyCore (beforeBeats c) := tidyCore_dueOf (cyc := c.dcc) (p := isBeat) h

theorem exec_beat (hd : findDom s (getCore s k).pid = some d) (hcyc : d.cycling = true) (hlive : liveIn s d k = true)
    (hdue : (dueOf (getCore s k) (getCore s k).dcc isBeat).1 = [f]) :
    exec (.beatLanding k) s = .next (applyBeat (setCore s k (beforeBeats (getCore s k))) d k f) := by
  refine (coreCycle_runs hd hcyc hlive _).trans ?_
  change Host.Outcome.next (((dueOf (getCore s k) (getCore s k).dcc isBeat).1.foldr insBeat []).foldl (fun t f => applyBeat t d k f)
    (setCore s k (beforeBeats (getCore s k)))) = _
  rw [hdue]
  rfl

/-- The windows that a beat meets, and the count that each takes (R216). -/
def countedWins (c : CoreState) (a : Nat) : List RWin :=
  c.rwins.map fun w => if (windowsOf c a).contains w then { w with count := w.count + countOnes (insideMask a w.addr w.len) 128 } else w

/-- The core with the beat counted. -/
def counting (c : CoreState) (a : Nat) : CoreState := { c with rwins := countedWins c a }

/-- The core with the beat's bytes outside the reducing windows written. -/
def beatWritten (c : CoreState) (a : Nat) (v : Row) (en : Nat) (l : List Wrote) : CoreState :=
  { c with spad := Memory.writeMasked c.spad a en v.toNat 128, wrote := l }

theorem windowsOf_eq (c : CoreState) (a : Nat) : windowsOf c a = c.rwins.filter fun w =>
    decide (w.opens ≤ c.dcc ∧ c.dcc ≤ w.closes ∧ 0 < w.len ∧ a < w.addr + w.len ∧ w.addr < a + 128) := by
  refine List.filter_congr fun w _ => ?_
  rw [Bool.eq_iff_iff]
  simp only [runsMeet, Bool.and_eq_true, decide_eq_true_eq]
  omega

/-- A beat that meets no reducing window, in a cycle without other writes. -/
theorem applyBeat_plain {u : State} (hf : f.eff = .beat a v sender run) (hroom : ∀ w ∈ windowsOf (getCore u k) a,
    w.count + countOnes (insideMask a w.addr w.len) 128 ≤ w.expect) (hplain : ∀ w ∈ windowsOf (getCore u k) a, w.red = none)
    (hquiet : (getCore u k).wrote = []) : ∃ l, applyBeat u d k f =
      setCore u k (beatWritten (counting (getCore u k) a) a v (2 ^ 128 - 1) l) := by
  have hreds : (windowsOf (getCore u k) a).filter (fun w => w.red.isSome) = [] := List.filter_eq_nil_iff.2 fun w hw => by rw [hplain w hw]; decide
  have hover : ¬ ((windowsOf (getCore u k) a).any fun w => w.expect < w.count + countOnes (insideMask a w.addr w.len) 128) = true := by
    rw [List.any_eq_true]
    rintro ⟨w, hw, h⟩
    exact absurd (hroom w hw) (Nat.not_le.2 (of_decide_eq_true h))
  unfold applyBeat
  rw [hf]
  dsimp only
  rw [if_neg hover, hreds, hquiet, List.filter_nil, wroteMask_nil, Nat.zero_and, List.foldl_nil, List.foldl_nil, Nat.xor_zero, Nat.xor_zero,
    metBy_nil]
  exact ⟨_, rfl⟩

/-- A beat that meets one window, which reduces: where other writes of the cycle meet none of its bytes outside the window. -/
theorem applyBeat_reduce {u : State} {w : RWin} {ty : Ty} (hf : f.eff = .beat a v sender run) (hws : windowsOf (getCore u k) a = [w])
    (hred : w.red = some ty) (hroom : w.count + countOnes (insideMask a w.addr w.len) 128 ≤ w.expect)
    (hquiet : insideMask a w.addr w.len = 2 ^ 128 - 1 ∨ (getCore u k).wrote = []) : ∃ l, applyBeat u d k f =
      setCore u k (beatWritten (reduceBeat (counting (getCore u k) a) ty a v (insideMask a w.addr w.len)) a v
        ((2 ^ 128 - 1) ^^^ insideMask a w.addr w.len) l) := by
  have hover : ¬ ((windowsOf (getCore u k) a).any fun w => w.expect < w.count + countOnes (insideMask a w.addr w.len) 128) = true := by
    rw [hws, List.any_cons, List.any_nil, Bool.or_false, decide_eq_true_iff]
    exact Nat.not_lt.2 hroom
  have hreds : (windowsOf (getCore u k) a).filter (fun w => w.red.isSome) = [w] := by
    rw [hws]
    exact List.filter_eq_self.2 fun x hx => by rw [List.mem_singleton.1 hx, hred]; rfl
  unfold applyBeat
  rw [hf]
  dsimp only
  unfold counting beatWritten
  rw [if_neg hover, hreds, List.foldl_cons, List.foldl_nil, List.foldl_cons, List.foldl_nil, Nat.zero_or, hred]
  dsimp only
  rcases hquiet with hall | hquiet
  · have hnone : metBy d k a 0 (getCore u k).wrote = [] := by
      unfold metBy
      rw [List.filter_eq_nil_iff.2, List.map_nil]
      intro x _
      rw [Nat.and_zero]
      decide
    rw [hall, Nat.xor_self, Nat.and_zero, Nat.xor_self, hnone]
    exact ⟨_, rfl⟩
  · rw [hquiet, List.filter_nil, wroteMask_nil, Nat.zero_and, Nat.xor_zero, metBy_nil]
    exact ⟨_, rfl⟩

end

-- Bytes and elements of a scratchpad --------------------------------------------------------------------------------------------------------------------

theorem readNat_congr {m m' : Memory} : ∀ (n a : Nat), (∀ i, i < n → Memory.read m (a + i) = Memory.read m' (a + i)) →
    Memory.readNat m a n = Memory.readNat m' a n
  | 0, _, _ => rfl
  | n + 1, a, h => by
    have hhead := h 0 (by omega)
    rw [Nat.add_zero] at hhead
    have htail : ∀ i, i < n → Memory.read m (a + 1 + i) = Memory.read m' (a + 1 + i) := fun i hi => by
      rw [show a + 1 + i = a + (i + 1) by omega]
      exact h (i + 1) (by omega)
    rw [Memory.readNat, Memory.readNat, hhead, readNat_congr n (a + 1) htail]

theorem readNat_of_bytes {m : Memory} {n a x : Nat} (h : ∀ i, i < n → Memory.read m (a + i) = BitVec.ofNat 8 (x / 256 ^ i)) :
    Memory.readNat m a n = x % 256 ^ n := by
  have hwf : Memory.wf ([] : Memory) = true := rfl
  rw [← readNat_writeNat n [] a x hwf]
  exact readNat_congr n a fun i hi => (h i hi).trans (read_writeNat n [] a x i hwf hi).symm

theorem pow_256 (n : Nat) : (256 : Nat) ^ n = 2 ^ (8 * n) := by
  rw [pow_mul]
  rfl

/-- Every element is of whole bytes, of which a row holds 128. -/
theorem size_cases (ty : Ty) : (Ty.size ty = 1 ∨ Ty.size ty = 2 ∨ Ty.size ty = 4 ∨ Ty.size ty = 8) ∧ Ty.bits ty = 8 * Ty.size ty ∧
    Ty.size ty * Ty.lanes ty = 128 ∧ 128 / Ty.size ty = Ty.lanes ty := by cases ty <;> decide

-- Reductions (R217) -----------------------------------------------------------------------------------------------------------------------------------

section
variable {c : CoreState} {ty : Ty} {a mask : Nat} {v : Row}

/-- What element `e` of the buffer becomes. -/
def reducedAt (c : CoreState) (ty : Ty) (a : Nat) (v : Row) (e : Nat) : Nat × Flags :=
  reduceElem ty (Memory.readNat c.spad (a + Ty.size ty * e) (Ty.size ty)) (v.toNat / 2 ^ (Ty.bits ty * e) % 2 ^ Ty.bits ty)

/-- The element's first byte is in the mask. -/
def reducesAt (ty : Ty) (mask e : Nat) : Bool := mask.testBit (Ty.size ty * e)

/-- The core once the first `m` elements of a beat have been reduced into its buffer. -/
structure Reduced (c : CoreState) (ty : Ty) (a : Nat) (v : Row) (mask m : Nat) (c' : CoreState) : Prop where
  rest : c' = { c with spad := c'.spad, flagsCP := c'.flagsCP }
  wf : Memory.wf c'.spad = true
  elem : ∀ e, e < m → Memory.readNat c'.spad (a + Ty.size ty * e) (Ty.size ty) =
    if reducesAt ty mask e = true then (reducedAt c ty a v e).1 else Memory.readNat c.spad (a + Ty.size ty * e) (Ty.size ty)
  out : ∀ x, x < a ∨ a + Ty.size ty * m ≤ x → Memory.read c'.spad x = Memory.read c.spad x
  flags : ∀ i, i < 5 → (c'.flagsCP.getLsbD i = true ↔
    c.flagsCP.getLsbD i = true ∨ ∃ e, e < m ∧ reducesAt ty mask e = true ∧ (reducedAt c ty a v e).2.testBit i = true)

/-- One element's reduction. -/
def reduceOne (ty : Ty) (a : Nat) (v : Row) (mask : Nat) (c : CoreState) (e : Nat) : CoreState :=
  if bits mask (Ty.size ty * e) 1 = 1 then
    stickFlags { c with spad := Memory.writeNat c.spad (a + Ty.size ty * e) (Ty.size ty) (reducedAt c ty a v e).1 } .cp (reducedAt c ty a v e).2
  else c

theorem reduceBeat_eq (c : CoreState) (ty : Ty) (a : Nat) (v : Row) (mask : Nat) :
    reduceBeat c ty a v mask = (List.range (128 / Ty.size ty)).foldl (reduceOne ty a v mask) c := rfl

theorem reducesAt_iff (ty : Ty) (mask e : Nat) : reducesAt ty mask e = true ↔ bits mask (Ty.size ty * e) 1 = 1 := by
  rw [reducesAt, Nat.testBit_eq_decide_div_mod_eq, decide_eq_true_iff]
  exact Iff.rfl

theorem Reduced.next {m : Nat} {c' : CoreState} (h : Reduced c ty a v mask m c') (hlt : (reducedAt c ty a v m).1 < 256 ^ Ty.size ty) :
    Reduced c ty a v mask (m + 1) (reduceOne ty a v mask c' m) := by
  have hsize : 0 < Ty.size ty := by rcases (size_cases ty).1 with h | h | h | h <;> omega
  have hnext : Ty.size ty * (m + 1) = Ty.size ty * m + Ty.size ty := Nat.mul_succ _ _
  have hsame : reducedAt c' ty a v m = reducedAt c ty a v m := by
    unfold reducedAt
    rw [readNat_congr _ _ fun i _ => h.out _ (.inr (by omega))]
  have hbefore : ∀ e, e < m → Ty.size ty * e + Ty.size ty ≤ Ty.size ty * m := fun e he => by
    rw [← Nat.mul_succ]
    exact Nat.mul_le_mul_left _ he
  unfold reduceOne
  by_cases hon : bits mask (Ty.size ty * m) 1 = 1
  · have hreduces := (reducesAt_iff ty mask m).2 hon
    rw [if_pos hon, hsame]
    refine ⟨?_, wf_writeNat _ _ _ _ h.wf, fun e he => ?_, fun x hx => ?_, fun i hi => ?_⟩
    · rw [h.rest]
      rfl
    · by_cases hem : e = m
      · subst hem
        rw [if_pos hreduces, stickFlags, readNat_writeNat _ _ _ _ h.wf, Nat.mod_eq_of_lt hlt]
      · have hbelow := hbefore e (by omega)
        rw [← h.elem e (by omega)]
        exact readNat_congr _ _ fun i hi => read_writeNat_out _ _ _ _ _ (.inl (by omega))
    · rw [← h.out x (by omega)]
      exact read_writeNat_out _ _ _ _ _ (by omega)
    · have hor : (stickFlags { c' with spad := Memory.writeNat c'.spad (a + Ty.size ty * m) (Ty.size ty) (reducedAt c ty a v m).1 } .cp
          (reducedAt c ty a v m).2).flagsCP = c'.flagsCP ||| BitVec.ofNat 5 (reducedAt c ty a v m).2 := rfl
      rw [hor, BitVec.getLsbD_or, BitVec.getLsbD_ofNat, Bool.or_eq_true, decide_eq_true hi, Bool.true_and, h.flags i hi, or_assoc]
      refine or_congr Iff.rfl ⟨?_, ?_⟩
      · rintro (⟨e, he, hrest⟩ | hbit)
        · exact ⟨e, by omega, hrest⟩
        · exact ⟨m, by omega, hreduces, hbit⟩
      · rintro ⟨e, he, hrest, hbit⟩
        by_cases hem : e = m
        · exact .inr (hem ▸ hbit)
        · exact .inl ⟨e, by omega, hrest, hbit⟩
  · have hno : ¬ reducesAt ty mask m = true := mt (reducesAt_iff ty mask m).1 hon
    rw [if_neg hon]
    refine ⟨h.rest, h.wf, fun e he => ?_, fun x hx => h.out x (by omega), fun i hi => (h.flags i hi).trans (or_congr Iff.rfl ⟨?_, ?_⟩)⟩
    · by_cases hem : e = m
      · subst hem
        rw [if_neg hno]
        exact readNat_congr _ _ fun i _ => h.out _ (.inr (by omega))
      · exact h.elem e (by omega)
    · rintro ⟨e, he, hrest⟩
      exact ⟨e, by omega, hrest⟩
    · rintro ⟨e, he, hrest⟩
      refine ⟨e, ?_, hrest⟩
      by_contra hem
      exact hno ((show e = m by omega) ▸ hrest.1)

theorem reduced_reduceBeat (hwf : Memory.wf c.spad = true) (hlt : ∀ e, (reducedAt c ty a v e).1 < 256 ^ Ty.size ty) :
    Reduced c ty a v mask (Ty.lanes ty) (reduceBeat c ty a v mask) := by
  have hall : ∀ m, Reduced c ty a v mask m ((List.range m).foldl (reduceOne ty a v mask) c) := by
    intro m
    induction m with
    | zero => exact ⟨rfl, hwf, fun e he => absurd he (Nat.not_lt_zero e), fun _ _ => rfl, fun i _ => ⟨.inl, fun h => h.resolve_right fun ⟨_, he, _⟩ => absurd he (Nat.not_lt_zero _)⟩⟩
    | succ m ih =>
      rw [List.range_succ, List.foldl_append, List.foldl_cons, List.foldl_nil]
      exact ih.next (hlt m)
  rw [reduceBeat_eq, (size_cases ty).2.2.2]
  exact hall _

/-- A floating element is rounded once from the exact sum, an integer one wraps. -/
theorem reduceElem_float (hfl : Ty.isFloat ty = true) (hnf : ty ≠ .nf) (x y : Nat) :
    reduceElem ty x y = sumInto (fmtOf ty 0) [decodeNum (fmtOf ty 0) x, decodeNum (fmtOf ty 0) y] ∧ (reduceElem ty x y).1 < 256 ^ Ty.size ty := by
  have hstd : Standard (fmtOf ty 0) ∧ (fmtOf ty 0).wid = 8 * Ty.size ty := by
    cases ty with
    | f64 => exact ⟨standard_f64, rfl⟩
    | f32 => exact ⟨standard_f32, rfl⟩
    | f16 => exact ⟨⟨rfl, rfl, by decide, rfl, by decide, rfl⟩, rfl⟩
    | bf16 => exact ⟨⟨rfl, rfl, by decide, rfl, by decide, rfl⟩, rfl⟩
    | nf => exact absurd rfl hnf
    | _ => cases hfl
  have heq : reduceElem ty x y = sumInto (fmtOf ty 0) [decodeNum (fmtOf ty 0) x, decodeNum (fmtOf ty 0) y] := by
    unfold reduceElem
    rw [if_pos hfl]
    exact encodeNum_sum hstd.1 _ _
  refine ⟨heq, ?_⟩
  rw [heq, pow_256, ← hstd.2]
  exact sumInto_lt hstd.1 _ _

theorem reduceElem_int (hfl : Ty.isFloat ty = false) (x y : Nat) :
    reduceElem ty x y = ((x + y) % 2 ^ Ty.bits ty, 0) ∧ (reduceElem ty x y).1 < 256 ^ Ty.size ty := by
  have heq : reduceElem ty x y = ((x + y) % 2 ^ Ty.bits ty, 0) := if_neg (by rw [hfl]; decide)
  refine ⟨heq, ?_⟩
  rw [heq, pow_256, ← (size_cases ty).2.1]
  exact Nat.mod_lt _ (by positivity)

/-- The core once a beat has landed that meets one reducing window. -/
def beatReduced (c : CoreState) (ty : Ty) (a : Nat) (v : Row) (mask : Nat) (l : List Wrote) : CoreState :=
  beatWritten (reduceBeat c ty a v mask) a v ((2 ^ 128 - 1) ^^^ mask) l

theorem tidyCore_beatReduced (hc : TidyCore c) (l : List Wrote) : TidyCore (beatReduced c ty a v mask l) :=
  ⟨((tidyCore_reduceBeat hc).setSpad (wf_writeMasked _ _ _ _ _ (tidyCore_reduceBeat hc).wfSpad)).form⟩

/-- The elements inside the window are reduced, those outside are written: a mask that holds each element whole or not at all. -/
theorem beatReduced_elem (hwf : Memory.wf c.spad = true) (hlt : ∀ e, (reducedAt c ty a v e).1 < 256 ^ Ty.size ty) (l : List Wrote) {e : Nat}
    (he : e < Ty.lanes ty) (hwhole : ∀ i, i < Ty.size ty → mask.testBit (Ty.size ty * e + i) = reducesAt ty mask e) :
    Memory.readNat (beatReduced c ty a v mask l).spad (a + Ty.size ty * e) (Ty.size ty) =
      if reducesAt ty mask e = true then (reducedAt c ty a v e).1 else v.toNat / 2 ^ (Ty.bits ty * e) % 2 ^ Ty.bits ty := by
  have hred := reduced_reduceBeat (mask := mask) hwf hlt
  obtain ⟨_, hbits, hrow, _⟩ := size_cases ty
  have hlast : Ty.size ty * e + Ty.size ty ≤ 128 := by
    rw [← hrow, ← Nat.mul_succ]
    exact Nat.mul_le_mul_left _ he
  have hbyte : ∀ i, i < Ty.size ty → Memory.read (beatReduced c ty a v mask l).spad (a + Ty.size ty * e + i) =
      if reducesAt ty mask e = true then Memory.read (reduceBeat c ty a v mask).spad (a + Ty.size ty * e + i)
      else BitVec.ofNat 8 (v.toNat / 256 ^ (Ty.size ty * e + i)) := fun i hi => by
    have hplace : a + Ty.size ty * e + i - a = Ty.size ty * e + i := by omega
    have hbit : ((2 ^ 128 - 1) ^^^ mask) / 2 ^ (Ty.size ty * e + i) % 2 = 1 ↔ ¬ reducesAt ty mask e = true := by
      rw [← hwhole i hi, ← decide_eq_true_iff (p := _ / _ % 2 = 1), ← Nat.testBit_eq_decide_div_mod_eq, testBit_rest mask (by omega),
        Bool.not_eq_true', Bool.not_eq_true]
    unfold beatReduced beatWritten
    dsimp only
    rw [read_writeMasked_ite hred.wf, hplace]
    by_cases hon : reducesAt ty mask e = true
    · rw [if_pos hon, if_neg fun h => hbit.1 h.2.2 hon]
    · rw [if_neg hon, if_pos ⟨by omega, by omega, hbit.2 hon⟩]
  by_cases hon : reducesAt ty mask e = true
  · rw [if_pos hon, readNat_congr _ _ fun i hi => (hbyte i hi).trans (if_pos hon), hred.elem e he, if_pos hon]
  · rw [if_neg hon, hbits, ← pow_256, show 2 ^ (8 * Ty.size ty * e) = 256 ^ (Ty.size ty * e) by rw [pow_256, Nat.mul_assoc]]
    refine readNat_of_bytes fun i hi => (hbyte i hi).trans ((if_neg hon).trans ?_)
    rw [pow_add, Nat.div_div_eq_div_mul]

theorem beatReduced_out (hwf : Memory.wf c.spad = true) (hlt : ∀ e, (reducedAt c ty a v e).1 < 256 ^ Ty.size ty) (l : List Wrote) {x : Nat}
    (hx : x < a ∨ a + 128 ≤ x) : Memory.read (beatReduced c ty a v mask l).spad x = Memory.read c.spad x := by
  have hred := reduced_reduceBeat (mask := mask) hwf hlt
  obtain ⟨_, _, hrow, _⟩ := size_cases ty
  rw [← hred.out x (by rw [hrow]; exact hx)]
  exact read_writeMasked_out _ _ _ _ _ _ (hx.elim .inl fun h => .inr (.inl h))

theorem beatReduced_flags (hwf : Memory.wf c.spad = true) (hlt : ∀ e, (reducedAt c ty a v e).1 < 256 ^ Ty.size ty) (l : List Wrote) {i : Nat}
    (hi : i < 5) : (beatReduced c ty a v mask l).flagsCP.getLsbD i = true ↔
      c.flagsCP.getLsbD i = true ∨ ∃ e, e < Ty.lanes ty ∧ reducesAt ty mask e = true ∧ (reducedAt c ty a v e).2.testBit i = true :=
  (reduced_reduceBeat (mask := mask) hwf hlt).flags i hi

/-- Beyond scratchpad and flags the beat leaves the core. -/
theorem beatReduced_rest (hwf : Memory.wf c.spad = true) (hlt : ∀ e, (reducedAt c ty a v e).1 < 256 ^ Ty.size ty) (l : List Wrote) :
    (beatReduced c ty a v mask l).rwins = c.rwins ∧ (beatReduced c ty a v mask l).collision = c.collision := by
  have hrest := (reduced_reduceBeat (mask := mask) hwf hlt).rest
  have hwins : (reduceBeat c ty a v mask).rwins = c.rwins := by rw [hrest]
  have hcollision : (reduceBeat c ty a v mask).collision = c.collision := by rw [hrest]
  exact ⟨hwins, hcollision⟩

end

-- Faults in a row (R313) --------------------------------------------------------------------------------------------------------------------------------

/-- The stop record names a fault of the cycle. -/
def StopNames (code cause cyc : Nat) (c : CoreState) : Prop := ∃ p, c.stop = some p ∧ p.code = code ∧ p.cause = cause ∧ p.cycle = cyc

/-- No fault of another code stands, as the cycle finds the core. -/
def StopFree (code cause cyc : Nat) (c : CoreState) : Prop := (c.stop = none ∧ c.dcc = cyc) ∨ StopNames code cause cyc c

theorem joinStop_names {code cause cyc : Nat} {c : CoreState} (h : StopFree code cause cyc c) (later : Bool) (st : Stream)
    (detail : List Word) (prog : Nat) (w23 w24 : Word) : (joinStop c later st code cause detail prog w23 w24).code = code ∧
      (joinStop c later st code cause detail prog w23 w24).cause = cause ∧ (joinStop c later st code cause detail prog w23 w24).cycle = cyc := by
  rcases h with ⟨hnone, hcyc⟩ | ⟨p, hp, h1, h2, h3⟩
  · rw [joinStop_first hnone]
    exact ⟨rfl, rfl, hcyc⟩
  · cases later with
    | true =>
      rw [joinStop_later hp]
      split
      · exact ⟨rfl, rfl, h3⟩
      · exact ⟨h1, h2, h3⟩
    | false =>
      rw [joinStop, hp]
      dsimp only
      rw [if_neg (by decide)]
      split
      · exact ⟨rfl, rfl, h3⟩
      · exact ⟨h1, h2, h3⟩

theorem keptBesideFaults_stopNames {code cause cyc : Nat} (hcode : code ≠ 0) : KeptBesideFaults (StopNames code cause cyc) where
  partner c later st h := by
    obtain ⟨p, hp, h1, h2, h3⟩ := h
    refine ⟨_, rfl, ?_⟩
    cases later with
    | true =>
      rw [joinStop_later hp, if_neg fun h => h.1 rfl]
      exact ⟨h1, h2, h3⟩
    | false =>
      rw [joinStop, hp]
      dsimp only
      rw [if_neg (by decide), if_neg (by rw [h1]; exact fun h => h.elim hcode fun h => h.1 rfl)]
      exact ⟨h1, h2, h3⟩
  repaired _ _ h := h

/-- A fault of one code after another: the record names the code. -/
theorem CoreHas.faultNames {code cause cyc : Nat} {q : Nat} {s : State} (hcode : code ≠ 0) (h : CoreHas (StopFree code cause cyc) q s) (st : Stream)
    (station evt : Nat) (detail : List Word) (prog : Nat) (w23 w24 : Word) :
    CoreHas (StopNames code cause cyc) q (takeFaultFull s q st station evt code cause detail prog w23 w24) :=
  h.faultOwn st station evt code cause detail prog w23 w24 (keptBesideFaults_stopNames hcode)
    fun _ later hc => ⟨_, rfl, joinStop_names hc later st detail prog w23 w24⟩

/-- Some fault stands. -/
theorem CoreHas.faultStands {q : Nat} {s : State} (h : Tidy s) (st : Stream) (station evt code cause : Nat) (detail : List Word) (prog : Nat) (w23 w24 : Word) :
    CoreHas (fun c => c.stop ≠ none) q (takeFaultFull s q st station evt code cause detail prog w23 w24) :=
  CoreHas.faultOwn (P := fun _ => True) st station evt code cause detail prog w23 w24
    ⟨fun _ _ _ _ h => (nomatch h), fun _ _ h => h⟩ ⟨h, trivial⟩ fun _ _ _ => fun h => nomatch h

/-- What a fault does not touch. -/
def SameBuffers (c c' : CoreState) : Prop := c'.spad = c.spad ∧ c'.rwins = c.rwins

theorem keptByFaults_sameBuffers (c : CoreState) : KeptByFaults (SameBuffers c) where
  partner _ _ _ h := h
  repaired _ _ h := h
  stop _ _ _ _ _ _ _ _ _ h := h

-- Windows that close (R215) ----------------------------------------------------------------------------------------------------------------------------

section
variable {s : State} {k : Nat}

/-- The state without the windows that close, before their faults. -/
def closedWins (c : CoreState) : CoreState := { c with rwins := c.rwins.filter fun w => w.closes != c.dcc }

/-- The windows that close without their full arrival. -/
def shortWins (c : CoreState) : List RWin := (c.rwins.filter fun w => w.closes == c.dcc).filter fun w => w.count < w.expect

theorem mem_shortWins (c : CoreState) (w : RWin) : w ∈ shortWins c ↔ w ∈ c.rwins ∧ w.closes = c.dcc ∧ w.count < w.expect := by
  rw [shortWins, List.mem_filter, List.mem_filter, beq_iff_eq, decide_eq_true_iff, and_assoc]

theorem closeWindows_eq (s : State) (k : Nat) : closeWindows s k = (shortWins (getCore s k)).foldl
    (fun t w => takeFault t k w.stream cpiSt w.evt fSchedule 5 [toWord w.seq]) (setCore s k (closedWins (getCore s k))) := rfl

theorem closeWindows_buffers (ht : Tidy s) : CoreHas (SameBuffers (closedWins (getCore s k))) k (closeWindows s k) := by
  rw [closeWindows_eq]
  refine CoreHas.foldl (.ofSetCore ht ⟨(ht.core k).form⟩ ⟨rfl, rfl⟩) fun t w _ h => ?_
  exact h.faultAny _ _ _ _ _ _ _ _ _ (keptByFaults_sameBuffers _)

theorem closeWindows_mem (s : State) (k : Nat) : (closeWindows s k).mem = s.mem := by
  rw [closeWindows_eq]
  exact foldl_keeps (fun t : State => t.mem = s.mem) _ (by intro t w h; exact (takeFaultFull_mem ..).trans h) _ _ rfl

/-- Where some window closes short, its fault stands. -/
theorem closeWindows_short (ht : Tidy s) (hstop : (getCore s k).stop = none) (hshort : shortWins (getCore s k) ≠ []) :
    CoreHas (StopNames fSchedule 5 (getCore s k).dcc) k (closeWindows s k) := by
  rw [closeWindows_eq]
  cases hl : shortWins (getCore s k) with
  | nil => exact absurd hl hshort
  | cons w r =>
    rw [List.foldl_cons]
    have h0 : CoreHas (StopFree fSchedule 5 (getCore s k).dcc) k (setCore s k (closedWins (getCore s k))) :=
      .ofSetCore ht ⟨(ht.core k).form⟩ (.inl ⟨hstop, rfl⟩)
    refine CoreHas.foldl (h0.faultNames (by decide) ..) fun t w _ h => ?_
    exact (h.imp fun _ => .inr).faultNames (by decide) ..

end

-- Local writes that meet a window (R216) --------------------------------------------------------------------------------------------------------------------

theorem bits_ne_zero_iff (x j len : Nat) : bits x j len ≠ 0 ↔ ∃ i, j ≤ i ∧ i < j + len ∧ x.testBit i = true := by
  have hbit : ∀ i, (bits x j len).testBit i = (decide (i < len) && x.testBit (j + i)) := fun i => by
    rw [bits, Nat.testBit_mod_two_pow, Nat.testBit_div_two_pow, Nat.add_comm]
  constructor
  · intro h
    by_contra hno
    push Not at hno
    refine h (Nat.eq_of_testBit_eq fun i => ?_)
    rw [hbit, Nat.zero_testBit, Bool.and_eq_false_iff, decide_eq_false_iff_not]
    by_cases hi : i < len
    · exact .inr (Bool.eq_false_iff.2 (hno (j + i) (by omega) (by omega)))
    · exact .inl hi
  · rintro ⟨i, h1, h2, h3⟩ h0
    have := hbit (i - j)
    rw [h0, Nat.zero_testBit, decide_eq_true (by omega), Bool.true_and, show j + (i - j) = i by omega, h3] at this
    cases this

theorem bytesMeet_iff (a n en b m : Nat) : bytesMeet a n en b m = true ↔ ∃ i, i < n ∧ en.testBit i = true ∧ b ≤ a + i ∧ a + i < b + m := by
  unfold bytesMeet
  dsimp only
  rw [Bool.and_eq_true, decide_eq_true_iff, bne_iff_ne, bits_ne_zero_iff]
  constructor
  · rintro ⟨h, i, h1, h2, hi⟩
    exact ⟨i, by omega, hi, by omega, by omega⟩
  · rintro ⟨i, hi, hbit, h1, h2⟩
    exact ⟨by omega, i, by omega, by omega, hbit⟩

theorem windowHit_iff (c : CoreState) {f : Flight} {x n en v : Nat} {lc : Option Nat} (hf : f.eff = .spad x n en v lc) :
    windowHit c f = true ↔ ∃ w ∈ c.rwins, f.issue < w.opens ∧ w.opens ≤ c.dcc ∧ c.dcc ≤ w.closes ∧
      ∃ i, i < n ∧ en.testBit i = true ∧ w.addr ≤ x + i ∧ x + i < w.addr + w.len := by
  rw [windowHit, hf]
  simp only [List.any_eq_true, Bool.and_eq_true, decide_eq_true_eq, bytesMeet_iff, and_assoc]

section
variable {g : Stream → Agent}

theorem landed_rwins (c : CoreState) (f : Flight) : (landed g c f).rwins = c.rwins := by
  unfold landed
  cases f.eff with
  | spad _ _ _ _ lc => cases lc <;> rfl
  | sreg q v => exact sput_rwins _ _ _
  | sysreg n v =>
    dsimp only
    unfold sysWrite
    split <;> rfl
  | flags e v => cases e <;> rfl
  | _ => rfl

theorem landed_stop (c : CoreState) (f : Flight) : (landed g c f).stop = c.stop := by
  unfold landed
  cases f.eff with
  | spad _ _ _ _ lc => cases lc <;> rfl
  | sreg q v => exact sput_stop _ _ _
  | sysreg n v =>
    dsimp only
    unfold sysWrite
    split <;> rfl
  | flags e v => cases e <;> rfl
  | _ => rfl

end

/-- The stop record names the stream. -/
def StopOf (st : Stream) (c : CoreState) : Prop := ∃ p, c.stop = some p ∧ p.code ≠ 0 ∧ p.stream = st

theorem keptBesideFaults_stopOf (st : Stream) : KeptBesideFaults (StopOf st) where
  partner c later st h := by
    obtain ⟨p, hp, hcode, hst⟩ := h
    refine ⟨_, rfl, ?_⟩
    cases later with
    | true =>
      rw [joinStop_later hp, if_neg fun h => h.1 rfl]
      exact ⟨hcode, hst⟩
    | false =>
      rw [joinStop, hp]
      dsimp only
      rw [if_neg (by decide), if_neg fun h => h.elim hcode fun h => h.1 rfl]
      exact ⟨hcode, hst⟩
  repaired _ _ h := h

section
variable {s : State} {k : Nat}

/-- The state once the entries that a window keeps out have raised their faults. -/
theorem landResults_buffers (ht : Tidy s) (hplain : ∀ f ∈ dueNow s k, plainLanding f.eff = true) :
    CoreHas (SameBuffers (coreLanded s k (landing s k))) k (landResults s k none) := by
  have hon := afterLandings_plain ht fun f hf => hplain f (List.mem_of_mem_filter hf)
  rw [landResults_alone]
  refine CoreHas.foldl ⟨hon.tidy, ?_⟩ fun t f _ h => ?_
  · rw [hon.core]
    exact ⟨rfl, rfl⟩
  · exact h.faultAny _ _ _ _ _ _ _ _ _ (keptByFaults_sameBuffers _)

/-- A window that keeps entries out stops the core. -/
theorem landResults_stands (ht : Tidy s) (hplain : ∀ f ∈ dueNow s k, plainLanding f.eff = true) (hkept : keptOut s k ≠ []) :
    CoreHas (fun c => c.stop ≠ none) k (landResults s k none) := by
  have hon := afterLandings_plain ht fun f hf => hplain f (List.mem_of_mem_filter hf)
  rw [landResults_alone]
  cases hl : keptOut s k with
  | nil => exact absurd hl hkept
  | cons f r =>
    rw [List.foldl_cons]
    refine CoreHas.foldl (.faultStands hon.tidy _ _ _ _ _ _ _ _ _) fun t f _ h => ?_
    exact .faultStands h.tidy _ _ _ _ _ _ _ _ _

/-- The core as the faults find it has the stop that it had. -/
theorem afterLandings_free (ht : Tidy s) (hplain : ∀ f ∈ dueNow s k, plainLanding f.eff = true) (hstop : (getCore s k).stop = none) :
    CoreHas (fun c => c.stop = none ∧ c.dcc = (getCore s k).dcc) k (afterLandings s k) := by
  have hon := afterLandings_plain ht fun f hf => hplain f (List.mem_of_mem_filter hf)
  refine ⟨hon.tidy, ?_⟩
  rw [hon.core]
  exact ⟨(foldl_landed_same CoreState.stop (fun c f _ => landed_stop c f) _).trans hstop, foldl_landed_same CoreState.dcc (fun c f _ => landed_dcc c f) _⟩

theorem landResults_names (ht : Tidy s) (hplain : ∀ f ∈ dueNow s k, plainLanding f.eff = true) (hkept : keptOut s k ≠ [])
    (hstop : (getCore s k).stop = none) : CoreHas (StopNames fPermission 0 (getCore s k).dcc) k (landResults s k none) := by
  have hfree := afterLandings_free ht hplain hstop
  rw [landResults_alone]
  cases hl : keptOut s k with
  | nil => exact absurd hl hkept
  | cons f r =>
    rw [List.foldl_cons]
    refine CoreHas.foldl ((hfree.imp fun _ => .inl).faultNames (by decide) _ _ _ _ _ _ _) fun t f _ h => ?_
    exact (h.imp fun _ => .inr).faultNames (by decide) _ _ _ _ _ _ _

theorem landResults_stream (ht : Tidy s) (hplain : ∀ f ∈ dueNow s k, plainLanding f.eff = true) {f : Flight} (hkept : keptOut s k = [f])
    (hstop : (getCore s k).stop = none) : CoreHas (StopOf f.stream) k (landResults s k none) := by
  have hfree := afterLandings_free ht hplain hstop
  rw [landResults_alone, hkept, List.foldl_cons, List.foldl_nil]
  refine hfree.faultOwn _ _ _ _ _ _ _ _ _ (keptBesideFaults_stopOf _) fun c later h => ⟨_, rfl, ?_⟩
  rw [joinStop_first h.1]
  exact ⟨show fPermission ≠ 0 by decide, rfl⟩

theorem landing_eq_kept (s : State) (k : Nat) : landing s k = (dueNow s k).filter fun f =>
    !((dueNow s k).filter (windowHit (getCore s k))).any (fun g => f.stream == g.stream && f.seq == g.seq &&
      (match f.eff with | .spad .. => true | _ => false)) := by
  refine List.filter_congr fun f _ => congrArg (! ·) (congrArg (List.any _ ·) (funext fun g => ?_))
  rw [sameStore]
  cases f.eff <;> simp [Bool.and_comm]

end

-- The beat on its core -------------------------------------------------------------------------------------------------------------------------------------------

section
variable {s : State} {k : Nat} {d : Domain} {f : Flight} {a sender run : Nat} {v : Row}

/-- The windows that a beat from `a` meets. -/
def metWins (c : CoreState) (a : Nat) : List RWin := c.rwins.filter fun w =>
  decide (w.opens ≤ c.dcc ∧ c.dcc ≤ w.closes ∧ 0 < w.len ∧ a < w.addr + w.len ∧ w.addr < a + 128)

/-- The bytes of a beat that lie in a window. -/
def insideOf (a : Nat) (w : RWin) : Nat := min (a + 128) (w.addr + w.len) - max a w.addr

theorem countedWins_none {c : CoreState} (h : metWins c a = []) : countedWins c a = c.rwins := by
  unfold countedWins
  rw [windowsOf_eq]
  change (c.rwins.map fun w => if (metWins c a).contains w then _ else w) = _
  rw [h]
  exact List.map_id _

theorem countedWins_one {c : CoreState} {w : RWin} (h : metWins c a = [w]) :
    countedWins c a = c.rwins.map fun u => if u = w then { u with count := u.count + insideOf a w } else u := by
  unfold countedWins
  rw [windowsOf_eq]
  change (c.rwins.map fun u => if (metWins c a).contains u then _ else u) = _
  rw [h]
  refine List.map_congr_left fun u _ => ?_
  by_cases hu : u = w
  · subst hu
    rw [if_pos (by simp), if_pos rfl, countOnes_insideMask]
    rfl
  · rw [if_neg (by simpa using hu), if_neg hu]

/-- A row written whole. -/
theorem read_wholeRow {m : Memory} (hm : Memory.wf m = true) (x : Nat) : Memory.read (Memory.writeMasked m a (2 ^ 128 - 1) v.toNat 128) x =
    if a ≤ x ∧ x < a + 128 then BitVec.ofNat 8 (v.toNat / 256 ^ (x - a)) else Memory.read m x := by
  rw [read_writeMasked_ite hm]
  refine if_congr (and_congr_right fun h1 => and_iff_left_of_imp fun h2 => ?_) rfl rfl
  have hbit : (2 ^ 128 - 1).testBit (x - a) = true := by
    rw [Nat.testBit_two_pow_sub_one, decide_eq_true_iff]
    omega
  rwa [Nat.testBit_eq_decide_div_mod_eq, decide_eq_true_iff] at hbit

/-- A beat is all that lands, on a core that runs its cycle. -/
structure BeatLands (s : State) (k : Nat) (d : Domain) (f : Flight) (a sender run : Nat) (v : Row) : Prop where
  tidy : Tidy s
  runs : exec (.beatLanding k) s = .next (applyBeat (setCore s k (beforeBeats (getCore s k))) d k f)
  eff : f.eff = .beat a v sender run

theorem BeatLands.core (h : BeatLands s k d f a sender run v) : getCore (setCore s k (beforeBeats (getCore s k))) k = beforeBeats (getCore s k) :=
  getCore_setCore_wf _ _ _ h.tidy.cores

theorem BeatLands.plain (h : BeatLands s k d f a sender run v) (hquiet : (getCore s k).wrote = [])
    (hroom : ∀ w ∈ metWins (getCore s k) a, w.count + insideOf a w ≤ w.expect) (hplain : ∀ w ∈ metWins (getCore s k) a, w.red = none) :
    ∃ t : State, exec (.beatLanding k) s = .next t ∧ (getCore t k).collision = (getCore s k).collision ∧ (getCore t k).stop = (getCore s k).stop ∧
      t.mem = s.mem ∧ (∀ x, Memory.read (getCore t k).spad x =
        if a ≤ x ∧ x < a + 128 then BitVec.ofNat 8 (v.toNat / 256 ^ (x - a)) else Memory.read (getCore s k).spad x) ∧
      (getCore t k).rwins = countedWins (getCore s k) a := by
  have hws : windowsOf (getCore (setCore s k (beforeBeats (getCore s k))) k) a = metWins (getCore s k) a := by rw [h.core]; exact windowsOf_eq _ _
  obtain ⟨l, happly⟩ := applyBeat_plain (u := setCore s k (beforeBeats (getCore s k))) (k := k) (d := d) h.eff
    (by rw [hws]; intro w hw; rw [countOnes_insideMask]; exact hroom w hw) (by rw [hws]; exact hplain) (by rw [h.core]; exact hquiet)
  rw [h.core] at happly
  refine ⟨_, h.runs.trans (congrArg _ happly), ?_⟩
  rw [getCore_setCore_wf _ _ _ (tidy_setCore h.tidy (tidyCore_beforeBeats (h.tidy.core k))).cores]
  dsimp only [beatWritten, counting]
  refine ⟨rfl, rfl, rfl, fun x => ?_, rfl⟩
  exact read_wholeRow (h.tidy.core k).wfSpad x

theorem BeatLands.floods (h : BeatLands s k d f a sender run v) (hover : ∃ w ∈ metWins (getCore s k) a, w.expect < w.count + insideOf a w) :
    ∃ t x, exec (.beatLanding k) s = .next t ∧ (getCore t k).spad = (getCore s k).spad ∧ (getCore t k).rwins = (getCore s k).rwins ∧
      (getCore t k).stop = some x ∧ ((getCore s k).stop = none → x.code = 0x02 ∧ x.cause = 5) := by
  have ht : Tidy (setCore s k (beforeBeats (getCore s k))) := tidy_setCore h.tidy (tidyCore_beforeBeats (h.tidy.core k))
  have hws : windowsOf (getCore (setCore s k (beforeBeats (getCore s k))) k) a = metWins (getCore s k) a := by rw [h.core]; exact windowsOf_eq _ _
  have happly : applyBeat (setCore s k (beforeBeats (getCore s k))) d k f =
      takeFault (setCore s k (beforeBeats (getCore s k))) k .cp f.station f.evt fSchedule 5 [toWord f.seq] := by
    obtain ⟨w, hw, hlt⟩ := hover
    unfold applyBeat
    rw [h.eff]
    refine if_pos (List.any_eq_true.2 ⟨w, by rw [hws]; exact hw, ?_⟩)
    rw [countOnes_insideMask]
    exact decide_eq_true hlt
  have hbuf : CoreHas (SameBuffers (getCore s k)) k (takeFault (setCore s k (beforeBeats (getCore s k))) k .cp f.station f.evt fSchedule 5 [toWord f.seq]) :=
    CoreHas.faultAny _ _ _ _ _ _ _ _ _ (keptByFaults_sameBuffers _) ⟨ht, by rw [h.core]; exact ⟨rfl, rfl⟩⟩
  obtain ⟨x, hx⟩ := Option.ne_none_iff_exists'.1 (CoreHas.faultStands (q := k) ht .cp f.station f.evt fSchedule 5 [toWord f.seq] 0 0 0).holds
  refine ⟨_, x, h.runs.trans (congrArg _ happly), hbuf.holds.1, hbuf.holds.2, hx, fun hstop => ?_⟩
  obtain ⟨y, hy, hcode, hcause⟩ := stop_takeFault (setCore s k (beforeBeats (getCore s k))) k .cp f.station f.evt (code := fSchedule) 5 [toWord f.seq]
    (by decide) (by rw [h.core]; exact hstop)
  cases hx.symm.trans hy
  exact ⟨hcode, hcause⟩

/-- An aligned element lies in an aligned window whole or not at all. -/
theorem whole_iff {ty : Ty} {w : RWin} (ha : a % Ty.size ty = 0) (hw : w.addr % Ty.size ty = 0) (hlen : w.len % Ty.size ty = 0) (e : Nat) {i : Nat}
    (hi : i < Ty.size ty) : (w.addr ≤ a + (Ty.size ty * e + i) ∧ a + (Ty.size ty * e + i) < w.addr + w.len) ↔
      (w.addr ≤ a + Ty.size ty * e ∧ a + Ty.size ty * e < w.addr + w.len) := by
  rcases (size_cases ty).1 with h | h | h | h <;> rw [h] at ha hw hlen hi ⊢ <;> omega

theorem insideOf_all {w : RWin} (hlo : w.addr ≤ a) (hhi : a + 128 ≤ w.addr + w.len) : insideOf a w = 128 := by
  unfold insideOf
  omega

/-- What an element of a reducing window becomes: its format's exact sum rounded once, or its integers' wrapping sum. -/
def sumOf (ty : Ty) (old new : Nat) : Nat × Flags :=
  if Ty.isFloat ty = true then sumInto (fmtOf ty 0) [decodeNum (fmtOf ty 0) old, decodeNum (fmtOf ty 0) new] else ((old + new) % 2 ^ Ty.bits ty, 0)

theorem reduceElem_eq {ty : Ty} (hnf : ty ≠ .nf) (x y : Nat) : reduceElem ty x y = sumOf ty x y ∧ (reduceElem ty x y).1 < 256 ^ Ty.size ty := by
  unfold sumOf
  cases hfl : Ty.isFloat ty with
  | true => exact ⟨(reduceElem_float hfl hnf x y).1, (reduceElem_float hfl hnf x y).2⟩
  | false => exact ⟨(reduceElem_int hfl x y).1, (reduceElem_int hfl x y).2⟩

/-- A beat that meets one reducing window. -/
structure BeatSums (c c' : CoreState) (ty : Ty) (a : Nat) (v : Row) (w : RWin) (within : Nat → Prop) : Prop where
  collision : c'.collision = c.collision
  inner : ∀ e, e < Ty.lanes ty → within e → Memory.readNat c'.spad (a + Ty.size ty * e) (Ty.size ty) =
    (sumOf ty (Memory.readNat c.spad (a + Ty.size ty * e) (Ty.size ty)) (v.toNat / 2 ^ (Ty.bits ty * e) % 2 ^ Ty.bits ty)).1
  outer : ∀ e, e < Ty.lanes ty → ¬ within e → Memory.readNat c'.spad (a + Ty.size ty * e) (Ty.size ty) = v.toNat / 2 ^ (Ty.bits ty * e) % 2 ^ Ty.bits ty
  out : ∀ x, x < a ∨ a + 128 ≤ x → Memory.read c'.spad x = Memory.read c.spad x
  flags : ∀ i, i < 5 → (c'.flagsCP.getLsbD i = true ↔ c.flagsCP.getLsbD i = true ∨ ∃ e, e < Ty.lanes ty ∧ within e ∧
    (sumOf ty (Memory.readNat c.spad (a + Ty.size ty * e) (Ty.size ty)) (v.toNat / 2 ^ (Ty.bits ty * e) % 2 ^ Ty.bits ty)).2.testBit i = true)
  wins : c'.rwins = c.rwins.map fun u => if u = w then { u with count := u.count + insideOf a w } else u

theorem elem_fits {ty : Ty} {e i : Nat} (he : e < Ty.lanes ty) (hi : i < Ty.size ty) : Ty.size ty * e + i < 128 := by
  have hle : Ty.size ty * (e + 1) ≤ Ty.size ty * Ty.lanes ty := Nat.mul_le_mul_left _ he
  rw [(size_cases ty).2.2.1, Nat.mul_succ] at hle
  omega

theorem BeatLands.reduces (h : BeatLands s k d f a sender run v) {w : RWin} {ty : Ty} {within : Nat → Prop} (hnf : ty ≠ .nf)
    (hws : metWins (getCore s k) a = [w]) (hred : w.red = some ty) (hroom : w.count + insideOf a w ≤ w.expect)
    (hquiet : (w.addr ≤ a ∧ a + 128 ≤ w.addr + w.len) ∨ (getCore s k).wrote = [])
    (hwhole : ∀ e, e < Ty.lanes ty → ∀ i, i < Ty.size ty → (w.addr ≤ a + (Ty.size ty * e + i) ∧ a + (Ty.size ty * e + i) < w.addr + w.len ↔ within e)) :
    ∃ t : State, exec (.beatLanding k) s = .next t ∧ BeatSums (getCore s k) (getCore t k) ty a v w within := by
  have hwindows : windowsOf (getCore (setCore s k (beforeBeats (getCore s k))) k) a = [w] := by
    rw [h.core, ← hws]
    exact windowsOf_eq _ _
  obtain ⟨l, happly⟩ := applyBeat_reduce (u := setCore s k (beforeBeats (getCore s k))) (k := k) (d := d) h.eff hwindows hred
    (by rw [countOnes_insideMask]; exact hroom)
    (hquiet.imp (fun h => insideMask_all h.1 h.2) fun hq => by rw [h.core]; exact hq)
  rw [h.core] at happly
  have hwf : Memory.wf (getCore s k).spad = true := (h.tidy.core k).wfSpad
  have hlt : ∀ e, (reducedAt (counting (beforeBeats (getCore s k)) a) ty a v e).1 < 256 ^ Ty.size ty :=
    fun e => (reduceElem_eq hnf _ _).2
  have hsize : 0 < Ty.size ty := by rcases (size_cases ty).1 with h | h | h | h <;> omega
  have hbit : ∀ e, e < Ty.lanes ty → ∀ i, i < Ty.size ty → ((insideMask a w.addr w.len).testBit (Ty.size ty * e + i) = true ↔ within e) :=
    fun e he i hi => (testBit_insideMask _ _ _ (elem_fits he hi)).trans (hwhole e he i hi)
  have hin : ∀ e, e < Ty.lanes ty → (reducesAt ty (insideMask a w.addr w.len) e = true ↔ within e) := fun e he => hbit e he 0 hsize
  have hsame : ∀ e, e < Ty.lanes ty → ∀ i, i < Ty.size ty → (insideMask a w.addr w.len).testBit (Ty.size ty * e + i) =
      reducesAt ty (insideMask a w.addr w.len) e := fun e he i hi => Bool.eq_iff_iff.2 ((hbit e he i hi).trans (hin e he).symm)
  refine ⟨_, h.runs.trans (congrArg _ happly), ?_⟩
  rw [getCore_setCore_wf _ _ _ (tidy_setCore h.tidy (tidyCore_beforeBeats (h.tidy.core k))).cores]
  obtain ⟨hrwins, hcollision⟩ := beatReduced_rest (c := counting (beforeBeats (getCore s k)) a) (mask := insideMask a w.addr w.len) hwf hlt l
  refine ⟨hcollision, fun e he hw => ?_, fun e he hw => ?_, fun x hx => beatReduced_out (c := counting (beforeBeats (getCore s k)) a) hwf hlt l hx, fun i hi => ?_, hrwins.trans (countedWins_one hws)⟩
  · refine (beatReduced_elem (c := counting (beforeBeats (getCore s k)) a) hwf hlt l he (hsame e he)).trans ((if_pos ((hin e he).2 hw)).trans ?_)
    exact congrArg Prod.fst (reduceElem_eq hnf _ _).1
  · exact (beatReduced_elem (c := counting (beforeBeats (getCore s k)) a) hwf hlt l he (hsame e he)).trans (if_neg (mt (hin e he).1 hw))
  · refine (beatReduced_flags (c := counting (beforeBeats (getCore s k)) a) hwf hlt l hi).trans (or_congr Iff.rfl (exists_congr fun e => and_congr_right fun he => and_congr (hin e he) ?_))
    rw [← (reduceElem_eq hnf _ _).1]
    exact Iff.rfl

theorem BeatLands.reducesAll (h : BeatLands s k d f a sender run v) {w : RWin} {ty : Ty} (hnf : ty ≠ .nf) (hws : metWins (getCore s k) a = [w])
    (hred : w.red = some ty) (hlo : w.addr ≤ a) (hhi : a + 128 ≤ w.addr + w.len) (hroom : w.count + 128 ≤ w.expect) :
    ∃ t : State, exec (.beatLanding k) s = .next t ∧ BeatSums (getCore s k) (getCore t k) ty a v w fun _ => True := by
  refine h.reduces hnf hws hred (by rw [insideOf_all hlo hhi]; exact hroom) (.inl ⟨hlo, hhi⟩) fun e he i hi => iff_of_true ?_ trivial
  have hfits := elem_fits he hi
  omega

end

/-- Settles O51: each beat by the windows that it meets, the writes that a window keeps out, and the windows that close. -/
theorem beatsAndReceiveWindows : Obligations.BeatsAndReceiveWindows := by
  unfold Obligations.BeatsAndReceiveWindows
  intro s k d hform hd hcyc hlive
  have ht : Tidy s := ⟨hform⟩
  dsimp only
  refine ⟨fun f a v sender run hdue hf => ?_, fun f x n en v lc hf => windowHit_iff _ hf, fun hpart hplain hhits => ?_, ?_⟩
  · have h : BeatLands s k d f a sender run v := ⟨ht, exec_beat hd hcyc hlive hdue, hf⟩
    refine ⟨fun hws hquiet => ?_, fun hover => h.floods hover, fun w ty hws hred hfl hlo hhi hroom => ?_, fun w ty hws hred hfl hnf hlo hhi hroom => ?_,
      fun w hws hred hquiet hroom => ?_, fun w ty hws hred hnf _ hquiet hroom ha hw hlen => ?_⟩
    · obtain ⟨t, hrun, hcollision, _, hmem, hspad, hwins⟩ := h.plain hquiet (by rw [show metWins _ _ = [] from hws]; exact fun _ h => nomatch h)
        (by rw [show metWins _ _ = [] from hws]; exact fun _ h => nomatch h)
      exact ⟨t, hrun, hcollision, hwins.trans (countedWins_none hws), hmem, hspad⟩
    · have hnf : ty ≠ .nf := fun h => by rw [h] at hfl; cases hfl
      obtain ⟨t, hrun, hsums⟩ := h.reducesAll hnf hws hred hlo hhi hroom
      refine ⟨t, hrun, hsums.collision, fun e he => ?_, hsums.out, insideOf_all hlo hhi ▸ hsums.wins⟩
      rw [hsums.inner e he trivial, sumOf, if_neg (by rw [hfl]; decide)]
    · obtain ⟨t, hrun, hsums⟩ := h.reducesAll hnf hws hred hlo hhi hroom
      have hsum : ∀ x y, sumOf ty x y = sumInto (fmtOf ty 0) [decodeNum (fmtOf ty 0) x, decodeNum (fmtOf ty 0) y] := fun x y => if_pos hfl
      refine ⟨t, hrun, hsums.collision, fun e he => ?_, hsums.out, fun i hi => (hsums.flags i hi).trans ?_, insideOf_all hlo hhi ▸ hsums.wins⟩
      · rw [hsums.inner e he trivial, hsum]
      · simp only [hsum, true_and]
    · obtain ⟨t, hrun, hcollision, hstop, hmem, hspad, hwins⟩ := h.plain hquiet
        (by rw [show metWins _ _ = [w] from hws]; intro u hu; rw [List.mem_singleton.1 hu]; exact hroom)
        (by rw [show metWins _ _ = [w] from hws]; intro u hu; rw [List.mem_singleton.1 hu]; exact hred)
      exact ⟨t, hrun, hcollision, hstop, hmem, hspad, hwins.trans (countedWins_one hws)⟩
    · obtain ⟨t, hrun, hsums⟩ := h.reduces hnf hws hred hroom (.inr hquiet) (fun e _ i hi => whole_iff ha hw hlen e hi)
      exact ⟨t, hrun, hsums.collision, fun e he => ⟨hsums.inner e he, hsums.outer e he⟩, hsums.out, hsums.flags, hsums.wins⟩
  · have hbuf := landResults_buffers ht hplain
    have hstands := landResults_stands ht hplain hhits
    obtain ⟨y, hy⟩ := Option.ne_none_iff_exists'.1 hstands.holds
    refine ⟨landResults s k none, y, resultLanding_alone hd hcyc hlive hpart, hy, fun hstop => ?_, fun f hone hstop => ?_, ?_, landResults_mem s k, fun a => ?_⟩
    · obtain ⟨p, hp, hcode, _, hcyc⟩ := (landResults_names ht hplain hhits hstop).holds
      cases hy.symm.trans hp
      exact ⟨hcode, hcyc⟩
    · obtain ⟨p, hp, _, hst⟩ := (landResults_stream ht hplain hone hstop).holds
      cases hy.symm.trans hp
      exact hst
    · rw [hbuf.holds.2]
      exact foldl_landed_same CoreState.rwins (fun c f _ => landed_rwins c f) _
    · rw [hbuf.holds.1]
      exact (foldl_landed_last (Memory.read ·.spad a) (fun f => spadByteOf f.eff a) (fun c f hc => landed_spad hc f a) _
        (tidyCore_beforeLandings (ht.core k) _)).trans
        (congrArg (fun l : List Flight => lastOr (Memory.read (getCore s k).spad a) (l.filterMap fun f : Flight => spadByteOf f.eff a)) (landing_eq_kept s k))
  · have hbuf := closeWindows_buffers (k := k) ht
    refine ⟨closeWindows s k, coreCycle_runs hd hcyc hlive _, ?_, hbuf.holds.1, closeWindows_mem s k, fun hfull => ?_, fun hstop hshort => ?_⟩
    · rw [hbuf.holds.2]
      refine List.filter_congr fun w _ => ?_
      rw [Bool.eq_iff_iff, bne_iff_ne, decide_eq_true_iff]
    · have hnone : shortWins (getCore s k) = [] := List.eq_nil_iff_forall_not_mem.2 fun w hw => by
        obtain ⟨h1, h2, h3⟩ := (mem_shortWins ..).1 hw
        exact absurd (hfull w h1 h2) (Nat.not_le.2 h3)
      rw [closeWindows_eq, hnone, List.foldl_nil, getCore_setCore_wf _ _ _ ht.cores]
      exact ⟨rfl, rfl⟩
    · obtain ⟨w, h1, h2, h3⟩ := hshort
      obtain ⟨p, hp, hcode, hcause, _⟩ := (closeWindows_short ht hstop (List.ne_nil_of_mem ((mem_shortWins ..).2 ⟨h1, h2, h3⟩))).holds
      exact ⟨p, hp, hcode, hcause⟩

end Sys2Proof.Proofs
end

