-- ==== Sys2Proof/Proofs/MemorySide.lean ====
section
/-! PROOF. The memory side of a domain's cycle: writes, samples, atomics, sum cells and fills (R53 to R56, R170, R171, R203, R209 to R211, R283). -/

namespace Sys2Proof.Proofs

open Sys2Proof Sys2Proof.Machine Sys2Proof.Claims Sys2Proof.Laws

-- What falls due on the cores of a domain --------------------------------------------------------------------------------------------------------

section
variable {s : State} {d : Domain} {p : Effect → Bool}

/-- Some cores have had their due entries taken out. -/
structure DueTaken (s : State) (d : Domain) (p : Effect → Bool) (t : State) : Prop where
  tidy : Tidy t
  rest : ∃ cores, t = { s with cores := cores }
  each : ∀ q, getCore t q = getCore s q ∨ getCore t q = coreBeside (getCore s q) d.dcc p

theorem coreBeside_twice (c : CoreState) (cyc : Nat) (p : Effect → Bool) : coreBeside (coreBeside c cyc p) cyc p = coreBeside c cyc p := by
  have h : stays (coreBeside c cyc p) cyc p = stays c cyc p := by
    refine (List.filter_filter ..).trans ?_
    simp only [Bool.and_self]
    rfl
  rw [coreBeside, h]

theorem dueTaken_refl (ht : Tidy s) : DueTaken s d p s := ⟨ht, ⟨s.cores, rfl⟩, fun _ => .inl rfl⟩

/-- A core whose due entries are taken out. -/
def takeCore (t : State) (d : Domain) (p : Effect → Bool) (q : Nat) : State := setCore t q (coreBeside (getCore t q) d.dcc p)

theorem DueTaken.core {t : State} (h : DueTaken s d p t) (q : Nat) : getCore (takeCore t d p q) q = coreBeside (getCore s q) d.dcc p := by
  rw [takeCore, getCore_setCore_wf _ _ _ h.tidy.cores]
  rcases h.each q with hq | hq
  · rw [hq]
  · rw [hq, coreBeside_twice]

theorem DueTaken.take {t : State} (h : DueTaken s d p t) (q : Nat) : DueTaken s d p (takeCore t d p q) where
  tidy := tidy_setCore h.tidy (tidyCore_dueOf (cyc := d.dcc) (p := p) (h.tidy.core q))
  rest := by
    obtain ⟨cores, rfl⟩ := h.rest
    exact ⟨_, rfl⟩
  each r := by
    by_cases hr : r = q
    · exact .inr (hr ▸ h.core q)
    · rw [takeCore, getCore_setCore_ne _ _ hr]
      exact h.each r

theorem DueTaken.keeps {t : State} (h : DueTaken s d p t) (q : Nat) {k : Nat} (hk : getCore t k = coreBeside (getCore s k) d.dcc p) :
    getCore (takeCore t d p q) k = coreBeside (getCore s k) d.dcc p := by
  by_cases hkq : k = q
  · exact hkq ▸ h.core k
  · rw [takeCore, getCore_setCore_ne _ _ hkq, hk]

/-- What has been taken out, with the cores that it was taken from. -/
structure TakenList (s : State) (d : Domain) (p : Effect → Bool) (a : List (Nat × Flight) × State) : Prop where
  taken : DueTaken s d p a.2
  from' : ∀ x ∈ a.1, getCore a.2 x.1 = coreBeside (getCore s x.1) d.dcc p ∧ p x.2.eff = true

theorem TakenList.step {a : List (Nat × Flight) × State} (h : TakenList s d p a) (k : Nat) :
    TakenList s d p (a.1 ++ (takeDue a.2 d k p).1.map (fun f => (k, f)), (takeDue a.2 d k p).2) := by
  unfold takeDue
  by_cases hpid : (getCore a.2 k).pid = d.pid
  · have hone := h.taken.take k
    have hnew : ∀ x ∈ ((dueOf (getCore a.2 k) d.dcc p).1.map fun f => (k, f)), x.1 = k ∧ p x.2.eff = true := fun x hx => by
      obtain ⟨f, hf, rfl⟩ := List.mem_map.1 hx
      exact ⟨rfl, dueOf_kind f hf⟩
    rw [if_pos hpid]
    cases hq : partnerOf d k with
    | none =>
      refine ⟨hone, fun x hx => ?_⟩
      rcases List.mem_append.1 hx with hx | hx
      · exact ⟨h.taken.keeps k (h.from' x hx).1, (h.from' x hx).2⟩
      · obtain ⟨hk, hp⟩ := hnew x hx
        exact ⟨by rw [hk]; exact h.taken.core k, hp⟩
    | some q =>
      refine ⟨hone.take q, fun x hx => ?_⟩
      rcases List.mem_append.1 hx with hx | hx
      · exact ⟨hone.keeps q (h.taken.keeps k (h.from' x hx).1), (h.from' x hx).2⟩
      · obtain ⟨hk, hp⟩ := hnew x hx
        exact ⟨by rw [hk]; exact hone.keeps q (h.taken.core k), hp⟩
  · rw [if_neg hpid]
    exact ⟨h.taken, fun x hx => h.from' x (by simpa using hx)⟩

theorem takenList (ht : Tidy s) : TakenList s d p (takeDueAll s d p) := by
  unfold takeDueAll
  exact foldl_keeps (TakenList s d p) _ (by intro a k h; exact h.step k) d.cores ([], s) ⟨dueTaken_refl ht, fun _ h => nomatch h⟩

end

-- One entry at the memory side ------------------------------------------------------------------------------------------------------------------------

section
variable {s : State} {d : Domain} {k : Nat} {f : Flight}

theorem countDone_rest (s : State) (k : Nat) (st : Stream) (lc : Option Nat) (n : Nat) : ∃ cores, countDone s k st lc n = { s with cores := cores } := by
  cases lc with
  | none => exact ⟨s.cores, rfl⟩
  | some l => exact ⟨_, rfl⟩

theorem useSample_rest (s : State) (k : Nat) (f : Flight) (n v : Nat) (u : Then) : ∃ cores, useSample s k f n v u = { s with cores := cores } := by
  unfold useSample
  cases u with
  | spadSy =>
    dsimp only
    split <;> exact ⟨_, rfl⟩
  | _ => exact ⟨_, rfl⟩

/-- What the memory side's answer brings is a matter of the core alone. -/
theorem ownSide_rest (s : State) (k : Nat) (f : Flight) (v : Nat) : ∃ cores, ownSide s k f v = { s with cores := cores } := by
  unfold ownSide
  cases f.eff with
  | memWrite _ n en _ lc =>
    dsimp only
    split
    · obtain ⟨cores, h⟩ := countDone_rest (modCore s k fun c => { c with collision := true }) k f.stream lc (countOnes en n)
      exact ⟨cores, h⟩
    · exact countDone_rest ..
  | atomStore =>
    dsimp only
    split
    · exact ⟨_, rfl⟩
    · exact ⟨s.cores, rfl⟩
  | memRead => exact useSample_rest ..
  | cellRead =>
    dsimp only
    split <;> exact ⟨_, rfl⟩
  | atom => exact ⟨_, rfl⟩
  | cellAdd => exact ⟨_, rfl⟩
  | cellSum => exact ⟨_, rfl⟩
  | _ => exact ⟨s.cores, rfl⟩

theorem foldl_rest {α : Type} {g : State → α → State} (hg : ∀ s a, ∃ cores, g s a = { s with cores := cores }) (l : List α) (s : State) :
    ∃ cores, l.foldl g s = { s with cores := cores } := by
  induction l generalizing s with
  | nil => exact ⟨s.cores, rfl⟩
  | cons a r ih =>
    obtain ⟨c1, h1⟩ := hg s a
    obtain ⟨c2, h2⟩ := ih (g s a)
    exact ⟨c2, by rw [List.foldl_cons, h2, h1]⟩

/-- Beyond the cores an entry does what its memory side does, once (log 64). -/
theorem settle_rest (s : State) (d : Domain) (k : Nat) (f : Flight) (clash : Nat) :
    ∃ cores, settle s d k f clash = { (if f.got = none then (memSide s k f).1 else s) with cores := cores } := by
  unfold settle
  cases f.got with
  | some v => exact foldl_rest (fun s q => ownSide_rest s q f _) _ _
  | none =>
    dsimp only
    rw [if_pos rfl]
    split
    · exact foldl_rest (fun s q => ownSide_rest s q f _) _ _
    · exact foldl_rest (fun s q => ⟨_, rfl⟩) _ _

theorem settle_mem (s : State) (d : Domain) (k : Nat) (f : Flight) (clash : Nat) :
    (settle s d k f clash).mem = if f.got = none then (memSide s k f).1.mem else s.mem := by
  obtain ⟨cores, h⟩ := settle_rest s d k f clash
  rw [h]
  dsimp only
  split <;> rfl

/-- An entry of a core without a pair partner that runs its cycle. -/
theorem settle_alone (hpart : partnerOf d k = none) (hgot : f.got = none) (hlive : (getCore (memSide s k f).1 k).dcc = d.dcc) :
    settle s d k f 0 = ownSide (memSide s k f).1 k f (memSide s k f).2 := by
  unfold settle
  rw [hgot]
  dsimp only
  rw [if_pos hlive, bothOf, hpart, Option.toList_none, List.foldl_cons, List.foldl_nil, Nat.add_zero]

end

-- Writes (R283, R284) -----------------------------------------------------------------------------------------------------------------------------------

section
variable {s : State} {d : Domain}

theorem storedAt_congr {s t : State} (h : t.pkgs = s.pkgs) (e : Effect) (a : Nat) : storedAt t e a = storedAt s e a := by
  unfold storedAt
  simp only [mirrorKeys_congr h]

theorem memSide_write_rest (s : State) (k : Nat) {f : Flight} (hf : isMemWrite f.eff = true) :
    (memSide s k f).1.cores = s.cores ∧ (memSide s k f).1.pkgs = s.pkgs ∧ (memSide s k f).2 = 0 := by
  unfold memSide
  cases he : f.eff with
  | memWrite => exact ⟨rfl, rfl, rfl⟩
  | atomStore =>
    dsimp only
    rw [storeAtom, he]
    exact ⟨rfl, rfl, rfl⟩
  | _ =>
    rw [he] at hf
    cases hf

theorem read_memSide_write (hs : Memory.wf s.mem = true) (k : Nat) {f : Flight} (hf : isMemWrite f.eff = true) (a : Nat) :
    Memory.read (memSide s k f).1.mem a = lastOr (Memory.read s.mem a) (storedAt s f.eff a) := by
  unfold memSide
  cases he : f.eff with
  | memWrite key n en v lc => exact read_memStore hs key n en v a lc
  | atomStore key v clock =>
    dsimp only
    rw [storeAtom, he]
    exact read_memStore hs key 8 255 v.toNat a none
  | _ =>
    rw [he] at hf
    cases hf

theorem lastOr_append {α : Type} (x : α) (l r : List α) : lastOr x (l ++ r) = lastOr (lastOr x l) r := by
  induction l generalizing x with
  | nil => rfl
  | cons y l ih => rw [List.cons_append, lastOr_cons, lastOr_cons, ih]

/-- The state as the writes of a cycle leave it. -/
def landWrites (u : State) (d : Domain) (hit : List Nat) (l : List (Nat × Flight)) : State :=
  l.foldl (fun s x => settle s d x.1 x.2 (if hit.contains x.1 then 1 else 0)) u

theorem landMemWrites_eq (s : State) (d : Domain) : landMemWrites s d =
    landWrites (takeDueAll s d isMemWrite).2 d (clashCores (takeDueAll s d isMemWrite).1) (takeDueAll s d isMemWrite).1 := rfl

theorem settle_write_pkgs (s : State) (d : Domain) (k : Nat) {f : Flight} (hf : isMemWrite f.eff = true) (clash : Nat) :
    (settle s d k f clash).pkgs = s.pkgs := by
  obtain ⟨cores, h⟩ := settle_rest s d k f clash
  rw [h]
  dsimp only
  split
  · exact (memSide_write_rest s k hf).2.1
  · rfl

/-- After the writes of a cycle each byte is what the last of them put there, or as it was. -/
theorem read_landWrites (d : Domain) (hit : List Nat) (a : Nat) : ∀ (l : List (Nat × Flight)) (u : State), Tidy u →
    (∀ x ∈ l, isMemWrite x.2.eff = true) → Memory.read (landWrites u d hit l).mem a =
      lastOr (Memory.read u.mem a) ((l.filter fun x => x.2.got == none).flatMap fun x => storedAt u x.2.eff a)
  | [], _, _, _ => rfl
  | x :: r, u, hu, hl => by
    have hx := hl x List.mem_cons_self
    have hpkgs := settle_write_pkgs u d x.1 hx (if hit.contains x.1 then 1 else 0)
    have ih := read_landWrites d hit a r (settle u d x.1 x.2 (if hit.contains x.1 then 1 else 0)) (tidy_settle hu) fun y hy => hl y (List.mem_cons_of_mem _ hy)
    simp only [storedAt_congr hpkgs] at ih
    rw [landWrites, List.foldl_cons, ← landWrites, ih, settle_mem]
    cases hgot : x.2.got with
    | none =>
      rw [if_pos rfl, read_memSide_write hu.mem _ hx, List.filter_cons_of_pos (by rw [hgot]; rfl), List.flatMap_cons, lastOr_append]
    | some v => rw [if_neg (fun h => nomatch h), List.filter_cons_of_neg (by rw [hgot]; exact fun h => nomatch h)]

/-- Two entries that clash name their cores. -/
theorem mem_clashCores : ∀ (l : List (Nat × Flight)) (i j : Nat) (hi : i < l.length) (hj : j < l.length), i < j →
    memClash (l[i]'hi) (l[j]'hj) = true → (l[i]'hi).1 ∈ clashCores l ∧ (l[j]'hj).1 ∈ clashCores l
  | x :: r, 0, j + 1, _, hj, _, h => by
    have hmem : r[j]'(Nat.lt_of_succ_lt_succ hj) ∈ r.filter (memClash x) := List.mem_filter.2 ⟨List.getElem_mem _, h⟩
    unfold clashCores
    exact ⟨List.mem_append_left _ (List.mem_flatMap.2 ⟨_, hmem, List.mem_cons_self⟩),
      List.mem_append_left _ (List.mem_flatMap.2 ⟨_, hmem, List.mem_cons_of_mem _ List.mem_cons_self⟩)⟩
  | x :: r, i + 1, j + 1, hi, hj, hij, h => by
    obtain ⟨h1, h2⟩ := mem_clashCores r i j (Nat.lt_of_succ_lt_succ hi) (Nat.lt_of_succ_lt_succ hj) (Nat.lt_of_succ_lt_succ hij) h
    unfold clashCores
    exact ⟨List.mem_append_right _ h1, List.mem_append_right _ h2⟩

/-- What a write's landing leaves of a core: all but its flag, its counters and its queue. -/
structure KeptByWrites (P : CoreState → Prop) : Prop where
  collision : ∀ c, P c → P { c with collision := true }
  counter : ∀ c l x, P c → P (setLc c l x)
  queue : ∀ c l, P c → P { c with inflight := l }

theorem keptByWrites_dcc (cyc : Nat) : KeptByWrites fun c => c.dcc = cyc := ⟨fun _ h => h, fun _ _ _ h => h, fun _ _ h => h⟩
theorem keptByWrites_collision : KeptByWrites fun c => c.collision = true := ⟨fun _ _ => rfl, fun _ _ _ h => h, fun _ _ h => h⟩

theorem CoreHas.countDone {P : CoreState → Prop} (hP : KeptByWrites P) {q k : Nat} {u : State} (h : CoreHas P q u) (st : Stream) (lc : Option Nat) (n : Nat) :
    CoreHas P q (countDone u k st lc n) := by
  cases lc with
  | none => exact h
  | some l => exact h.modAny (f := fun c => setLc c l _) (fun _ hc => tidyCore_setLc hc) fun c => hP.counter c l _

theorem CoreHas.ownWrite {P : CoreState → Prop} (hP : KeptByWrites P) {q k : Nat} {u : State} (h : CoreHas P q u) {f : Flight}
    (hf : isMemWrite f.eff = true) (v : Nat) : CoreHas P q (ownSide u k f v) := by
  have hflag : CoreHas P q (if v = 1 then modCore u k (fun c => { c with collision := true }) else u) := by
    split
    · exact h.modAny (fun _ hc => ⟨hc.form⟩) hP.collision
    · exact h
  unfold ownSide
  cases he : f.eff with
  | memWrite => exact hflag.countDone hP ..
  | atomStore => exact hflag
  | _ =>
    rw [he] at hf
    cases hf

theorem CoreHas.memSideWrite {P : CoreState → Prop} {q : Nat} {u : State} (h : CoreHas P q u) (k : Nat) {f : Flight} (hf : isMemWrite f.eff = true) :
    CoreHas P q (memSide u k f).1 := h.sameCores (memSide_write_rest u k hf).1 (tidy_memSide h.tidy)

theorem CoreHas.settleWrite {P : CoreState → Prop} (hP : KeptByWrites P) {q : Nat} {u : State} (h : CoreHas P q u) (k : Nat) {f : Flight}
    (hf : isMemWrite f.eff = true) (clash : Nat) : CoreHas P q (settle u d k f clash) := by
  unfold settle
  cases f.got with
  | some v => exact h.foldl fun t k _ h => h.ownWrite hP hf _
  | none =>
    dsimp only
    have hmem := h.memSideWrite k hf
    split
    · exact hmem.foldl fun t k _ h => h.ownWrite hP hf _
    · exact hmem.foldl fun t k _ h => h.modAny (fun _ hc => ⟨hc.form⟩) fun c => hP.queue c _

/-- A write that took part in a collision flags its core. -/
theorem CoreHas.settleClash {k : Nat} {u : State} (h : CoreHas (fun c => c.dcc = d.dcc) k u) {f : Flight} (hf : isMemWrite f.eff = true)
    (hgot : f.got = none) : CoreHas (fun c => c.collision = true) k (settle u d k f 1) := by
  have hmem := h.memSideWrite k hf
  have hown : CoreHas (fun c => c.collision = true) k (ownSide (memSide u k f).1 k f 1) := by
    have hflag : CoreHas (fun c => c.collision = true) k (modCore (memSide u k f).1 k fun c => { c with collision := true }) :=
      hmem.modOwn (fun _ hc => ⟨hc.form⟩) fun _ _ => rfl
    unfold ownSide
    cases he : f.eff with
    | memWrite => exact hflag.countDone keptByWrites_collision ..
    | atomStore => exact hflag
    | _ =>
      rw [he] at hf
      cases hf
  unfold settle
  rw [hgot]
  dsimp only
  rw [if_pos hmem.holds, (memSide_write_rest u k hf).2.2, Nat.zero_add, bothOf, List.foldl_cons]
  exact hown.foldl fun t k _ h => h.ownWrite keptByWrites_collision hf _

/-- Each core of a collision that runs its cycle is flagged. -/
theorem collision_landWrites {u : State} (hu : Tidy u) {hit : List Nat} {l : List (Nat × Flight)} (hl : ∀ x ∈ l, isMemWrite x.2.eff = true)
    {x : Nat × Flight} (hx : x ∈ l) (hhit : x.1 ∈ hit) (hgot : x.2.got = none) (hlive : (getCore u x.1).dcc = d.dcc) :
    (getCore (landWrites u d hit l) x.1).collision = true := by
  obtain ⟨l1, l2, rfl⟩ := List.append_of_mem hx
  have hcyc : CoreHas (fun c => c.dcc = d.dcc) x.1 (landWrites u d hit l1) :=
    CoreHas.foldl ⟨hu, hlive⟩ fun t y hy h => h.settleWrite (keptByWrites_dcc _) y.1 (hl y (List.mem_append_left _ hy)) _
  have hflag : CoreHas (fun c => c.collision = true) x.1 (settle (landWrites u d hit l1) d x.1 x.2 (if hit.contains x.1 then 1 else 0)) := by
    rw [if_pos (List.contains_iff_mem.2 hhit)]
    exact hcyc.settleClash (hl x hx) hgot
  unfold landWrites
  rw [List.foldl_append, List.foldl_cons]
  exact (CoreHas.foldl hflag fun t y hy h =>
    h.settleWrite keptByWrites_collision y.1 (hl y (List.mem_append_right _ (List.mem_cons_of_mem _ hy))) _).holds

end

-- An entry that falls due alone ---------------------------------------------------------------------------------------------------------------------------

section
variable {s : State} {pid : Nat} {d : Domain} {p : Effect → Bool} {k : Nat} {f : Flight}

theorem inCycle_runs (hd : findDom s pid = some d) (hcyc : d.cycling = true) (g : State → Domain → State) : inCycle s pid g = g s d := by
  rw [inCycle, hd]
  exact if_pos hcyc

/-- One entry of a kind is all that falls due in the domain. -/
structure DueAlone (s : State) (d : Domain) (p : Effect → Bool) (k : Nat) (f : Flight) : Prop where
  tidy : Tidy s
  due : (takeDueAll s d p).1 = [(k, f)]
  got : f.got = none

/-- The state without it. -/
def withoutDue (s : State) (d : Domain) (p : Effect → Bool) : State := (takeDueAll s d p).2

theorem DueAlone.taken (h : DueAlone s d p k f) : DueTaken s d p (withoutDue s d p) := (takenList h.tidy).taken

theorem DueAlone.core (h : DueAlone s d p k f) : getCore (withoutDue s d p) k = coreBeside (getCore s k) d.dcc p :=
  ((takenList h.tidy).from' (k, f) (by rw [h.due]; exact List.mem_cons_self)).1

theorem DueAlone.rest (h : DueAlone s d p k f) : ∃ cores, withoutDue s d p = { s with cores := cores } := h.taken.rest

/-- The memory side samples the entry, whose granule holds no error. -/
theorem DueAlone.sampled (h : DueAlone s d p k f) (hgood : ∀ u : State, u.badMem = s.badMem → badRead u f = none) :
    sampleDue s d p = settle (withoutDue s d p) d k f 0 := by
  obtain ⟨cores, hrest⟩ := h.rest
  change (takeDueAll s d p).1.foldl (fun s x => match badRead s x.2 with
    | some key => memoryError s x.1 x.2 key
    | none => settle s d x.1 x.2 0) (withoutDue s d p) = _
  rw [h.due, List.foldl_cons, List.foldl_nil, hgood _ (by rw [hrest])]

theorem DueAlone.live (h : DueAlone s d p k f) (hlive : liveIn s d k = true) : (getCore (withoutDue s d p) k).dcc = d.dcc := by
  rw [liveIn, Bool.and_eq_true, beq_iff_eq] at hlive
  rw [h.core]
  exact hlive.1

end

-- Samples (R102, R283) --------------------------------------------------------------------------------------------------------------------------------------

section
variable {s : State} {d : Domain} {k : Nat} {f : Flight} {key n : Nat} {u : Then}

/-- The landing of sampled bytes, one cycle on. -/
def sampled (f : Flight) (sub : Nat) (e : Effect) : Flight := { f with at' := f.at' + 1, sub := f.sub + sub, eff := e, got := some 0 }

theorem DueAlone.memRead (h : DueAlone s d isMemSample k f) (hpart : partnerOf d k = none) (hlive : liveIn s d k = true)
    (hf : f.eff = .memRead key n u) (hgood : s.badMem.contains (key / 64) = false) :
    ∃ t : State, t.mem = s.mem ∧ getCore t k = coreBeside (getCore s k) d.dcc isMemSample ∧
      sampleMemory s d = useSample t k f n (Memory.readNat s.mem key n) u := by
  obtain ⟨cores, hrest⟩ := h.rest
  have hmem : memSide (withoutDue s d isMemSample) k f =
      (noteRead (withoutDue s d isMemSample) (.core k) key n, Memory.readNat s.mem key n) := by
    rw [memSide, hf]
    dsimp only [memLoad]
    rw [hrest]
  have hcore : getCore (noteRead (withoutDue s d isMemSample) (.core k) key n) k = getCore (withoutDue s d isMemSample) k :=
    getCore_sameCores rfl k
  refine ⟨noteRead (withoutDue s d isMemSample) (.core k) key n, by rw [hrest]; rfl, hcore.trans h.core, ?_⟩
  refine (h.sampled fun w hw => by rw [badRead, hf]; dsimp only; rw [hw, hgood]; rfl).trans ?_
  rw [settle_alone hpart h.got (by rw [hmem, hcore]; exact h.live hlive), hmem, ownSide, hf]

theorem inflight_addFlight (t : State) (k : Nat) (f : Flight) : (getCore (addFlight t k f) k).inflight = (getCore t k).inflight ++ [f] := by
  rw [getCore_addFlight]

end

-- Atomics (R170, R171, R294) -----------------------------------------------------------------------------------------------------------------------------------

section
variable {s u : State} {d : Domain} {k key : Nat} {f : Flight}

/-- An atomic's store that is still to reach the word. -/
def Pending (s : State) (key : Nat) (g : Flight) (v : Word) : Prop := g.got = none ∧ ∃ b ∈ mirrorKeys s key, ∃ clock, g.eff = .atomStore b v clock

theorem storePending_iff (s : State) (key : Nat) (g : Flight) : storePending s key g = true ↔ ∃ v, Pending s key g v := by
  have hstores : ∀ b, storesWord b g = true ↔ ∃ v clock, g.eff = .atomStore b v clock := fun b => by
    unfold storesWord
    cases g.eff with
    | atomStore a v clock =>
      simp only [beq_iff_eq, Effect.atomStore.injEq]
      exact ⟨fun h => ⟨v, clock, h, rfl, rfl⟩, fun ⟨_, _, h, _⟩ => h⟩
    | _ => exact ⟨fun h => (nomatch h), fun ⟨_, _, h⟩ => (nomatch h)⟩
  simp only [storePending, Bool.and_eq_true, Option.isNone_iff_eq_none, List.any_eq_true, hstores]
  exact ⟨fun ⟨hgot, b, hb, v, clock, he⟩ => ⟨v, hgot, b, hb, clock, he⟩, fun ⟨v, hgot, b, hb, clock, he⟩ => ⟨hgot, b, hb, v, clock, he⟩⟩

theorem storePending_congr {s t : State} (h : t.pkgs = s.pkgs) (key : Nat) : storePending t key = storePending s key := by
  funext g
  rw [storePending, storePending, mirrorKeys_congr h]

/-- What an atomic's sample leaves: its store in flight, the answer being the old word. -/
theorem memSide_atom {r : SReg} {op : AtomOp} (hf : f.eff = .atom key r op) : ∃ (t : State) (clock : List Nat),
    t.cores = (atomWord u (.core k) key).2.cores ∧ t.mem = (atomWord u (.core k) key).2.mem ∧
    memSide u k f = (addFlight t k { f with at' := f.at' + 1, eff := .atomStore key (atomNew op (atomWord u (.core k) key).1) clock },
      (atomWord u (.core k) key).1.toNat) := by
  rcases hw : atomWord u (.core k) key with ⟨old, w⟩
  rw [memSide, hf]
  dsimp only [atomSample]
  rw [hw]
  refine ⟨_, _, ?_, ?_, rfl⟩
  · rfl
  · rfl

/-- What an atomic brings: its store, and its old word in the register. -/
def brings (f : Flight) (key : Nat) (r : SReg) (op : AtomOp) (old : Word) (clock : List Nat) : List Flight :=
  [{ f with at' := f.at' + 1, eff := .atomStore key (atomNew op old) clock }, { f with at' := f.at' + 1, eff := .sreg r old, got := some 0 }]

theorem DueAlone.atom (h : DueAlone s d isAtom k f) (hpart : partnerOf d k = none) {r : SReg} {op : AtomOp} (hf : f.eff = .atom key r op)
    (hgood : s.badMem.contains (key / 64) = false)
    (hlive : (getCore (atomWord (withoutDue s d isAtom) (.core k) key).2 k).dcc = d.dcc) : ∃ (t : State) (clock : List Nat),
    landAtoms s d = t ∧ t.mem = (atomWord (withoutDue s d isAtom) (.core k) key).2.mem ∧
    (getCore t k).inflight = (getCore (atomWord (withoutDue s d isAtom) (.core k) key).2 k).inflight ++
      brings f key r op (atomWord (withoutDue s d isAtom) (.core k) key).1 clock ∧
    ∀ q g, g ∈ (getCore (atomWord (withoutDue s d isAtom) (.core k) key).2 q).inflight → g ∈ (getCore t q).inflight := by
  obtain ⟨t, clock, hcores, hmem, hside⟩ := memSide_atom (u := withoutDue s d isAtom) (k := k) hf
  have hsame : ∀ q, getCore t q = getCore (atomWord (withoutDue s d isAtom) (.core k) key).2 q := getCore_sameCores hcores
  have hland : landAtoms s d = ownSide (memSide (withoutDue s d isAtom) k f).1 k f (memSide (withoutDue s d isAtom) k f).2 := by
    refine (h.sampled fun w hw => by rw [badRead, hf]; dsimp only; rw [hw, hgood]; rfl).trans (settle_alone hpart h.got ?_)
    rw [hside, getCore_addFlight, hsame]
    exact hlive
  rw [hside, ownSide, hf] at hland
  refine ⟨_, clock, hland, hmem, ?_, fun q g hg => ?_⟩
  · rw [inflight_addFlight, inflight_addFlight, hsame, List.append_assoc, toWord, BitVec.ofNat_toNat, BitVec.setWidth_eq]
    rfl
  · have hkeep : ∀ (w : State) (e : Flight), g ∈ (getCore w q).inflight → g ∈ (getCore (addFlight w k e) q).inflight := fun w e hw => by
      by_cases hq : q = k
      · rw [hq, inflight_addFlight]
        exact List.mem_append_left _ (hq ▸ hw)
      · rw [getCore_addFlight_ne _ _ hq]
        exact hw
    exact hkeep _ _ (hkeep _ _ (by rw [hsame]; exact hg))

theorem get_of_mem {α : Type} [DecidableEq α] (dflt : α) : ∀ {m : Sparse α} {lo : Nat}, Sparse.wfFrom dflt lo m = true →
    ∀ x ∈ m, lo ≤ x.1 ∧ Sparse.get dflt m x.1 = x.2
  | (a, v) :: r, lo, hw, x, hx => by
    simp only [Sparse.wfFrom, Bool.and_eq_true, decide_eq_true_eq] at hw
    obtain ⟨⟨hlo, _⟩, hr⟩ := hw
    rcases List.mem_cons.1 hx with rfl | hx
    · exact ⟨hlo, if_pos rfl⟩
    · obtain ⟨hle, hget⟩ := get_of_mem dflt hr x hx
      have hne : x.1 ≠ a := by omega
      exact ⟨by omega, (if_neg hne).trans hget⟩

/-- Every core of the table is the core that its number reads. -/
theorem getCore_of_mem (ht : Tidy u) {x : Nat × CoreState} (hx : x ∈ u.cores) : getCore u x.1 = x.2 := (get_of_mem ({} : CoreState) ht.cores x hx).2

theorem mem_of_inflight (ht : Tidy u) {q : Nat} {g : Flight} (hg : g ∈ (getCore u q).inflight) : (q, getCore u q) ∈ u.cores := by
  by_cases hq : q ∈ u.cores.map Prod.fst
  · obtain ⟨x, hx, rfl⟩ := List.mem_map.1 hq
    rw [getCore_of_mem ht hx]
    exact hx
  · have hempty : getCore u q = {} := get_of_notMem ({} : CoreState) u.cores q hq
    rw [hempty] at hg
    cases hg

/-- An entry that is still in flight was so before the due ones were taken out. -/
theorem DueTaken.mem_inflight {p : Effect → Bool} (h : DueTaken s d p u) {q : Nat} {g : Flight} (hg : g ∈ (getCore u q).inflight) :
    g ∈ (getCore s q).inflight := by
  rcases h.each q with hq | hq
  · rwa [hq] at hg
  · rw [hq] at hg
    exact List.mem_of_mem_filter hg

/-- An entry of another kind stays in flight. -/
theorem DueTaken.stays_inflight {p : Effect → Bool} (h : DueTaken s d p u) {q : Nat} {g : Flight} (hg : g ∈ (getCore s q).inflight)
    (hp : p g.eff = false) : g ∈ (getCore u q).inflight := by
  rcases h.each q with hq | hq
  · rwa [hq]
  · rw [hq]
    exact List.mem_filter.2 ⟨hg, by rw [hp, Bool.and_false]; rfl⟩

/-- The cores on which an atomic's store on the word is pending. -/
def pendingCores (u : State) (key : Nat) : List Nat := (u.cores.filter fun x => x.2.inflight.any (storePending u key)).map Prod.fst

theorem mem_pendingCores (ht : Tidy u) (q : Nat) : q ∈ pendingCores u key ↔ ∃ g ∈ (getCore u q).inflight, storePending u key g = true := by
  simp only [pendingCores, List.mem_map, List.mem_filter, List.any_eq_true]
  constructor
  · rintro ⟨x, ⟨hx, g, hg, hp⟩, rfl⟩
    exact ⟨g, by rwa [getCore_of_mem ht hx], hp⟩
  · rintro ⟨g, hg, hp⟩
    exact ⟨_, ⟨mem_of_inflight ht hg, g, hg, hp⟩, rfl⟩

theorem nodup_pendingCores (ht : Tidy u) : (pendingCores u key).Nodup := by
  have hall : (u.cores.map Prod.fst).Nodup := (keys_increasing ({} : CoreState) u.cores 0 ht.cores).1.imp fun h => Nat.ne_of_lt h
  exact hall.sublist (List.filter_sublist.map _)

theorem atomWord_eq (u : State) (p : Party) (key : Nat) : atomWord u p key =
    (toWord (memLoad ((pendingCores u key).foldl (fun s k => landHeld s k key) u) key 8),
      noteRead ((pendingCores u key).foldl (fun s k => landHeld s k key) u) p key 8) := rfl

theorem eq_singleton_of_nodup {α : Type} {l : List α} {a : α} (hn : l.Nodup) (hall : ∀ x ∈ l, x = a) (ha : a ∈ l) : l = [a] := by
  cases l with
  | nil => cases ha
  | cons b r =>
    obtain rfl := hall b List.mem_cons_self
    cases r with
    | nil => rfl
    | cons c r =>
      obtain rfl := hall c (List.mem_cons_of_mem _ List.mem_cons_self)
      exact absurd List.mem_cons_self (List.nodup_cons.1 hn).1

/-- The pending stores of one word, all alike, leave its value in memory. -/
theorem foldl_storeAtom (hmirror : mirrorKeys u key = [key]) (q : Nat) (v : Word) : ∀ (l : List Flight) {t : State}, t.pkgs = u.pkgs →
    Memory.wf t.mem = true → (∀ g ∈ l, ∃ clock, g.eff = .atomStore key v clock) →
    (l.foldl (fun s f => storeAtom s q f) t).cores = t.cores ∧
    (∀ a, Memory.read (l.foldl (fun s f => storeAtom s q f) t).mem a = if l ≠ [] ∧ key ≤ a ∧ a < key + 8 then BitVec.ofNat 8 (v.toNat / 256 ^ (a - key))
      else Memory.read t.mem a)
  | [], _, _, _, _ => ⟨rfl, fun a => (if_neg fun h => h.1 rfl).symm⟩
  | g :: r, t, hpkgs, hwf, hl => by
    obtain ⟨clock, hg⟩ := hl g List.mem_cons_self
    have hkeys : mirrorKeys t key = [key] := (mirrorKeys_congr hpkgs key).trans hmirror
    have hmem : (storeAtom t q g).mem = Memory.writeMasked t.mem key 255 v.toNat 8 := by
      rw [storeAtom, hg]
      dsimp only [tagBytes, memStore]
      rw [hkeys, List.foldl_cons, List.foldl_nil]
    have hcores : (storeAtom t q g).cores = t.cores := by rw [storeAtom, hg]; rfl
    have hsame : (storeAtom t q g).pkgs = u.pkgs := by rw [← hpkgs, storeAtom, hg]; rfl
    have hread : ∀ a, Memory.read (storeAtom t q g).mem a =
        if key ≤ a ∧ a < key + 8 then BitVec.ofNat 8 (v.toNat / 256 ^ (a - key)) else Memory.read t.mem a := fun a => by
      have hbits : ∀ i, i < 8 → 255 / 2 ^ i % 2 = 1 := by decide
      rw [hmem, read_writeMasked_ite hwf]
      exact if_congr (and_congr_right fun h1 => and_iff_left_of_imp fun h2 => hbits _ (by omega)) rfl rfl
    obtain ⟨ihcores, ihread⟩ := foldl_storeAtom hmirror q v r hsame (by rw [hmem]; exact wf_writeMasked _ _ _ _ _ hwf) fun x hx => hl x (List.mem_cons_of_mem _ hx)
    refine ⟨ihcores.trans hcores, fun a => ?_⟩
    rw [List.foldl_cons, ihread, hread]
    by_cases ha : key ≤ a ∧ a < key + 8
    · rw [if_pos ha, ite_self, if_pos ⟨List.cons_ne_nil _ _, ha⟩]
    · rw [if_neg ha, if_neg fun h => ha h.2, if_neg fun h => ha h.2]

/-- A core whose pending stores on the word have been served. -/
def served (u : State) (key : Nat) (c : CoreState) : CoreState :=
  { c with inflight := c.inflight.map fun f => if storePending u key f then { f with got := some 0 } else f }

/-- The one pending store on a word reaches it. -/
theorem landHeld_one (ht : Tidy u) (hmirror : mirrorKeys u key = [key]) {q : Nat} {g : Flight} {v : Word} (hg : g ∈ (getCore u q).inflight)
    (hp : Pending u key g v) (honly : ∀ h ∈ (getCore u q).inflight, storePending u key h = true → h = g) :
    (∀ a, Memory.read (landHeld u q key).mem a = if key ≤ a ∧ a < key + 8 then BitVec.ofNat 8 (v.toNat / 256 ^ (a - key)) else Memory.read u.mem a) ∧
      getCore (landHeld u q key) q = served u key (getCore u q) ∧ ∀ r, r ≠ q → getCore (landHeld u q key) r = getCore u r := by
  have hpend : storePending u key g = true := (storePending_iff u key g).2 ⟨v, hp⟩
  have hall : ∀ x ∈ (getCore u q).inflight.filter (storePending u key), ∃ clock, x.eff = .atomStore key v clock := fun x hx => by
    obtain ⟨hx, hxp⟩ := List.mem_filter.1 hx
    obtain ⟨_, b, hb, clock, he⟩ := hp
    rw [hmirror, List.mem_singleton] at hb
    exact ⟨clock, by rw [honly x hx hxp, he, hb]⟩
  have hsome : (getCore u q).inflight.filter (storePending u key) ≠ [] := List.ne_nil_of_mem (List.mem_filter.2 ⟨hg, hpend⟩)
  obtain ⟨hcores, hread⟩ := foldl_storeAtom hmirror q v ((getCore u q).inflight.filter (storePending u key))
    (t := modCore u q (served u key)) rfl ht.mem hall
  have hcore : ∀ r, getCore (landHeld u q key) r = getCore (modCore u q (served u key)) r := getCore_sameCores hcores
  refine ⟨fun a => (hread a).trans (if_congr (and_iff_right hsome) rfl rfl), ?_, fun r hr => ?_⟩
  · rw [hcore]
    exact getCore_setCore_wf _ _ _ ht.cores
  · rw [hcore, getCore_modCore_ne _ _ hr]

end

-- Cells (R53 to R56) ------------------------------------------------------------------------------------------------------------------------------------------

/-- A quotient is exact where nothing is left. -/
theorem roundRat_exact_iff (neg : Bool) (n : Nat) {D : Nat} (hD : 0 < D) : (roundRat .rne neg n D 0).1 * D = n ↔ n % D = 0 := by
  constructor
  · intro h
    rw [← h, Nat.mul_mod_left]
  · intro h
    have hround : (roundRat .rne neg n D 0).1 = n / D := by
      rw [roundRat, roundRatBy_quot, roundQuot, Int.toNat_zero, Int.neg_zero, Int.toNat_zero, Nat.pow_zero, Nat.mul_one, Nat.mul_one, h, stepUp]
      have h2 : (2 * 0 == D) = false := by rw [beq_eq_false_iff_ne]; omega
      rw [h2]
      simp
    rw [hround]
    exact Nat.div_mul_cancel (Nat.dvd_of_mod_eq_zero h)

section
variable {s : State} {d : Domain} {k key : Nat} {f : Flight}

/-- Memory and cells are as the memory side of the one entry leaves them. -/
theorem DueAlone.store {p : Effect → Bool} (h : DueAlone s d p k f) :
    (settle (withoutDue s d p) d k f 0).mem = (memSide (withoutDue s d p) k f).1.mem ∧
      (settle (withoutDue s d p) d k f 0).cells = (memSide (withoutDue s d p) k f).1.cells := by
  obtain ⟨cores, hs⟩ := settle_rest (withoutDue s d p) d k f 0
  rw [if_pos h.got] at hs
  exact ⟨by rw [hs], by rw [hs]⟩

theorem landCells_eq {p : Effect → Bool} (h : DueAlone s d p k f) :
    (takeDueAll s d p).1.foldl (fun s x => settle s d x.1 x.2 0) (takeDueAll s d p).2 = settle (withoutDue s d p) d k f 0 := by
  rw [h.due]
  rfl

/-- A cell's initialisation (R209). -/
theorem DueAlone.cellInit (h : DueAlone s d isCellInit k f) {g : Int} (hf : f.eff = .cellInit key g) (hmirror : mirrorKeys s key = [key]) :
    getCell (landCellInits s d) key = ⟨g, 0⟩ ∧ (landCellInits s d).mem = Memory.writeMasked s.mem key (2 ^ 64 - 1) 0 64 := by
  obtain ⟨hmem, hcells⟩ := h.store
  obtain ⟨cores', hwithout⟩ := h.rest
  have hland : landCellInits s d = settle (withoutDue s d isCellInit) d k f 0 := landCells_eq h
  have hkeys : ∀ t : State, t.pkgs = s.pkgs → mirrorKeys t key = [key] := fun t ht => (mirrorKeys_congr ht key).trans hmirror
  have hside : (memSide (withoutDue s d isCellInit) k f).1.cells = Sparse.set {} s.cells key ⟨g, 0⟩ ∧
      (memSide (withoutDue s d isCellInit) k f).1.mem = Memory.writeMasked s.mem key (2 ^ 64 - 1) 0 64 := by
    rw [memSide, hf, hwithout]
    dsimp only [cellKeys]
    rw [hkeys { s with cores := cores' } rfl, List.foldl_cons, List.foldl_nil, noteWrite_cells, noteWrite_mem, memStore_cells]
    refine ⟨rfl, ?_⟩
    dsimp only [memStore]
    rw [hkeys (setCell { s with cores := cores' } key ⟨g, 0⟩) rfl, List.foldl_cons, List.foldl_nil]
    dsimp only [setCell]
  refine ⟨?_, (congrArg State.mem hland).trans (hmem.trans hside.2)⟩
  rw [getCell, hland, hcells, hside.1]
  exact get_set_wf _ _ _ ((tidy_iff s).1 h.tidy).2.1

/-- An add to a cell at the memory side: a contribution, or the error. -/
theorem DueAlone.cellAdd (h : DueAlone s d isCellAdd k f) {ty : Ty} {v : Nat} (hf : f.eff = .cellAdd key ty v) (hmirror : mirrorKeys s key = [key])
    {x : Machine.Num} (hx : (if Ty.isFloat ty then decodeNum (fmtOf ty 0) v else numOfInt (intOf ty v)) = x) :
    (∀ z, (cellContribution ty (getCell s key).grid x).1 = some z →
      (landCellAdds s d).mem = Memory.writeNat s.mem key 64 (((Memory.readNat s.mem key 64 : Int) + z) % 2 ^ 512).toNat) ∧
    ((cellContribution ty (getCell s key).grid x).1 = none → (landCellAdds s d).mem = s.mem ∧
      getCell (landCellAdds s d) key = { getCell s key with err := 1 }) := by
  obtain ⟨hmem, hcells⟩ := h.store
  obtain ⟨cores', hwithout⟩ := h.rest
  have hland : landCellAdds s d = settle (withoutDue s d isCellAdd) d k f 0 := landCells_eq h
  have hcell : getCell (withoutDue s d isCellAdd) key = getCell s key := by rw [hwithout]; rfl
  have hkeys : cellKeys (noteWrite (withoutDue s d isCellAdd) (.core k) key 64) key = [key] := by
    rw [cellKeys, hwithout]
    exact (mirrorKeys_congr rfl key).trans hmirror
  have hside : (memSide (withoutDue s d isCellAdd) k f).1 =
      addToCell (noteWrite (withoutDue s d isCellAdd) (.core k) key 64) key (cellContribution ty (getCell s key).grid x).1 := by
    rw [memSide, hf]
    dsimp only
    rw [hx, hcell]
  have hnoted : (noteWrite (withoutDue s d isCellAdd) (.core k) key 64).mem = s.mem ∧
      (noteWrite (withoutDue s d isCellAdd) (.core k) key 64).cells = s.cells := by
    rw [noteWrite_mem, noteWrite_cells, hwithout]
    exact ⟨rfl, rfl⟩
  constructor
  · intro z hz
    rw [hland, hmem, hside, hz, addToCell, hkeys, List.foldl_cons, List.foldl_nil]
    dsimp only
    rw [hnoted.1]
  · intro hnone
    rw [getCell, hland, hmem, hcells, hside, hnone, addToCell, hkeys, List.foldl_cons, List.foldl_nil]
    dsimp only [setCell, getCell]
    rw [hnoted.1, hnoted.2]
    exact ⟨rfl, get_set_wf _ _ _ ((tidy_iff s).1 h.tidy).2.1⟩

/-- The contribution of an integer (R54). -/
theorem cellContribution_int {ty : Ty} (hfl : Ty.isFloat ty = false) (grid x : Int) : (cellContribution ty grid (numOfInt x)).1 = some (x * 2 ^ 149) := by
  have hne : ty ≠ .f64 := fun h => by rw [h] at hfl; cases hfl
  have hexp : ((0 : Int) - -149).toNat = 149 := rfl
  rw [numOfInt, cellContribution]
  dsimp only
  rw [if_neg hne, Num.toIntAt, hexp]
  by_cases hneg : x < 0
  · rw [if_pos (decide_eq_true hneg)]
    push_cast
    rw [abs_of_neg hneg, neg_mul, neg_neg]
  · rw [if_neg (by simpa using hneg)]
    push_cast
    rw [abs_of_nonneg (not_lt.1 hneg)]

end

-- Cells read (R56, R211) -----------------------------------------------------------------------------------------------------------------------------------------

section
variable {s : State} {d : Domain} {k key : Nat} {f : Flight}

theorem DueAlone.cellRead (h : DueAlone s d isMemSample k f) (hpart : partnerOf d k = none) (hlive : liveIn s d k = true) {ty : Ty} {raw : Bool} {a run : Nat}
    (hf : f.eff = .cellRead key ty raw a run) (hgood : s.badMem.contains (key / 64) = false) :
    ∃ t : State, t.mem = s.mem ∧ getCore t k = coreBeside (getCore s k) d.dcc isMemSample ∧
      sampleMemory s d = ownSide t k f (Memory.readNat s.mem key 64 + (getCell s key).err.toNat * 2 ^ 512) := by
  obtain ⟨cores, hrest⟩ := h.rest
  have hmem : memSide (withoutDue s d isMemSample) k f =
      (noteRead (withoutDue s d isMemSample) (.core k) key 64, Memory.readNat s.mem key 64 + (getCell s key).err.toNat * 2 ^ 512) := by
    rw [memSide, hf]
    dsimp only [getCell]
    rw [hrest]
  have hcore : getCore (noteRead (withoutDue s d isMemSample) (.core k) key 64) k = getCore (withoutDue s d isMemSample) k :=
    getCore_sameCores rfl k
  refine ⟨noteRead (withoutDue s d isMemSample) (.core k) key 64, by rw [hrest]; rfl, hcore.trans h.core, ?_⟩
  refine (h.sampled fun w hw => by rw [badRead, hf]; dsimp only; rw [hw, hgood]; rfl).trans ?_
  rw [settle_alone hpart h.got (by rw [hmem, hcore]; exact h.live hlive), hmem]

/-- The two's complement value of a cell's 512 bits. -/
def cellInt (i : Nat) : Int := if i < 2 ^ 511 then (i : Int) else (i : Int) - 2 ^ 512

theorem cellNum_eq (i : Nat) : cellNum i = .fin (decide (cellInt i < 0)) (cellInt i).natAbs (-149) := by
  rw [cellNum, cellInt]

/-- A cell as a floating value: rounded once. -/
theorem cellConvert_float {ty : Ty} (hty : ty ≠ .i64) (i : Nat) : cellConvert ty i =
    if cellInt i = 0 then (0, 0) else roundInto (fmtOf ty 0) .rne (cellInt i < 0) (cellInt i).natAbs 1 (-149) := by
  rw [cellConvert, if_neg hty, cellNum_eq]
  by_cases h0 : cellInt i = 0
  · rw [if_pos h0, h0]
    rfl
  · rw [if_neg h0]
    have hne := Int.natAbs_ne_zero.2 h0
    cases hm : (cellInt i).natAbs with
    | zero => exact absurd hm hne
    | succ m => rfl

/-- A multiple of 2^-149 as an integer: the nearest, a tie to the even one, clamped. -/
theorem numToInt_cell (V : Int) : ∃ q : Int, 2 * (q * 2 ^ 149 - V).natAbs ≤ 2 ^ 149 ∧ (2 * (q * 2 ^ 149 - V).natAbs = 2 ^ 149 → q % 2 = 0) ∧
    numToInt .i64 .rne (.fin (decide (V < 0)) V.natAbs (-149)) = if q < -(2 ^ 63) then (2 ^ 63, fSAT + fINX)
      else if 2 ^ 63 ≤ q then (2 ^ 63 - 1, fSAT + fINX) else ((q % 2 ^ 64).toNat, if q * 2 ^ 149 = V then 0 else fINX) := by
  have hround : roundRat .rne (decide (V < 0)) V.natAbs 1 (-149) = roundRat .rne (decide (V < 0)) V.natAbs (2 ^ 149) 0 := by
    rw [roundRat, roundRat, roundRatBy_quot, roundRatBy_quot]
    rfl
  have hconvert := numToInt_fin .i64 .rne (decide (V < 0)) V.natAbs (-149)
  have hD : 0 < 2 ^ 149 := by positivity
  obtain ⟨hnear, htie⟩ := roundRat_nearest (decide (V < 0)) V.natAbs hD
  have hexact := roundRat_exact_iff (decide (V < 0)) V.natAbs hD
  have hflag : (roundRat .rne (decide (V < 0)) V.natAbs (2 ^ 149) 0).2 = (V.natAbs % 2 ^ 149 != 0) := by
    rw [roundRat, roundRatBy_quot, roundQuot, Int.toNat_zero, Int.neg_zero, Int.toNat_zero, Nat.pow_zero, Nat.mul_one, Nat.mul_one]
  rw [hround] at hconvert
  generalize hr : roundRat .rne (decide (V < 0)) V.natAbs (2 ^ 149) 0 = r at *
  have hcast : (((2 ^ 149 : Nat) : Int)) = 2 ^ 149 := by push_cast
  rw [hcast] at hnear htie
  have hgap : ∀ q : Int, q = (if decide (V < 0) then -(r.1 : Int) else r.1) → (q * 2 ^ 149 - V).natAbs = ((r.1 : Int) * 2 ^ 149 - V.natAbs).natAbs := by
    rintro q rfl
    by_cases hneg : V < 0
    · rw [if_pos (decide_eq_true hneg), Int.ofNat_natAbs_of_nonpos hneg.le, ← Int.natAbs_neg]
      congr 1
      ring
    · rw [if_neg (by simpa using hneg), Int.natAbs_of_nonneg (not_lt.1 hneg)]
  have hzero : (if decide (V < 0) then -(r.1 : Int) else r.1) * 2 ^ 149 = V ↔ V.natAbs % 2 ^ 149 = 0 := by
    rw [← hexact, ← sub_eq_zero, ← Int.natAbs_eq_zero, hgap _ rfl, Int.natAbs_eq_zero, sub_eq_zero]
    exact_mod_cast Iff.rfl
  refine ⟨if decide (V < 0) then -(r.1 : Int) else r.1, ?_, ?_, ?_⟩
  · rw [hgap _ rfl]
    exact hnear
  · rw [hgap _ rfl]
    intro h
    have := htie h
    split <;> omega
  · rw [hconvert]
    generalize (if decide (V < 0) then -(r.1 : Int) else r.1) = q at *
    rw [clampTo, hflag]
    have hmin : Ty.intMin .i64 = -(2 ^ 63) := rfl
    have hmax : Ty.intMax .i64 = 2 ^ 63 - 1 := rfl
    rw [hmin, hmax]
    refine if_congr Iff.rfl rfl ?_
    refine if_congr (by omega) rfl ?_
    by_cases hz : V.natAbs % 2 ^ 149 = 0
    · rw [if_pos (hzero.2 hz), hz]
      rfl
    · rw [if_neg (mt hzero.1 hz), if_pos (bne_iff_ne.2 hz)]
      rfl

/-- A cell as an integer. -/
theorem cellConvert_int (i : Nat) : ∃ q : Int, 2 * (q * 2 ^ 149 - cellInt i).natAbs ≤ 2 ^ 149 ∧
    (2 * (q * 2 ^ 149 - cellInt i).natAbs = 2 ^ 149 → q % 2 = 0) ∧
    cellConvert .i64 i = if q < -(2 ^ 63) then (2 ^ 63, fSAT + fINX) else if 2 ^ 63 ≤ q then (2 ^ 63 - 1, fSAT + fINX)
      else ((q % 2 ^ 64).toNat, if q * 2 ^ 149 = cellInt i then 0 else fINX) := by
  obtain ⟨q, hnear, htie, hq⟩ := numToInt_cell (cellInt i)
  refine ⟨q, hnear, htie, ?_⟩
  rw [cellConvert, if_pos rfl, cellNum_eq]
  exact hq

end

-- Fills (R203, R251) --------------------------------------------------------------------------------------------------------------------------------------------

section
variable {s : State} {d : Domain} {k : Nat} {f : Flight}

/-- One fill on a core without a pair partner. -/
theorem exec_fill (hd : findDom s (getCore s k).pid = some d) (hcyc : d.cycling = true) (hlive : liveIn s d k = true) (hpart : partnerOf d k = none)
    (hdue : (dueOf (getCore s k) (getCore s k).dcc isFill).1 = [f]) :
    exec (.fillLanding k) s = .next (applyFill (setCore s k (coreBeside (getCore s k) (getCore s k).dcc isFill)) k f) := by
  refine (coreCycle_runs hd hcyc hlive _).trans ?_
  rw [withPair, hpart]
  dsimp only
  unfold landFills
  change Host.Outcome.next (((dueOf (getCore s k) (getCore s k).dcc isFill).1.filter (fun _ => false)).foldl _
    (((dueOf (getCore s k) (getCore s k).dcc isFill).1.filter (fun _ => true)).foldl _ (setCore s k (coreBeside (getCore s k) (getCore s k).dcc isFill)))) = _
  rw [List.filter_false, List.filter_true, hdue]
  rfl

/-- A fill that finds its slot CLAIMED makes it FULL, its rows whole. -/
theorem applyFill_claimed {t : State} (ht : Tidy t) {n rows cols : Nat} {vals : List Row} {ty : Ty} (hf : f.eff = .fill n vals rows cols ty)
    (hst : (getSlot (getCore t k) n).st = .claimed) : getSlot (getCore (applyFill t k f) k) n = ⟨.full, rows, cols, ty⟩ ∧
      ∀ r, Sparse.get 0 (getCore (applyFill t k f) k).cruc r =
        (if 32 * n ≤ r then vals[r - 32 * n]? else none).getD (Sparse.get 0 (getCore t k).cruc r) := by
  have hc := ht.core k
  rw [applyFill, hf]
  dsimp only
  rw [if_pos hst, modCore, getCore_setCore_wf _ _ _ ht.cores]
  exact ⟨get_set_wf _ _ _ hc.wfSlots, get_putRows vals hc.wfCruc (32 * n)⟩

/-- A fill that does not raises crucible-state. -/
theorem applyFill_other {t : State} (hd : domOf t k = some d) (hpart : partnerOf d k = none) {n rows cols : Nat} {vals : List Row} {ty : Ty}
    (hf : f.eff = .fill n vals rows cols ty) (hst : (getSlot (getCore t k) n).st ≠ .claimed) : ∃ x repaired,
      getCore (applyFill t k f) k = { getCore t k with stop := some x, repaired := repaired } ∧ ((getCore t k).stop = none → x.code = 3) := by
  rw [applyFill, hf]
  dsimp only
  rw [if_neg hst]
  exact lateFault_core hd hpart fCrucible

end

-- The clauses of O50 ----------------------------------------------------------------------------------------------------------------------------------------------

section
variable {s : State} {d : Domain} {k key : Nat} {f : Flight}

theorem writesLand (ht : Tidy s) (a : Nat) : Memory.read (landMemWrites s d).mem a = lastOr (Memory.read s.mem a)
    (((takeDueAll s d isMemWrite).1.filter fun x => x.2.got == none).flatMap fun x => storedAt s x.2.eff a) := by
  obtain ⟨htaken, hfrom⟩ := takenList (d := d) (p := isMemWrite) ht
  obtain ⟨cores, hrest⟩ := htaken.rest
  rw [landMemWrites_eq, read_landWrites d _ a _ _ htaken.tidy fun x hx => (hfrom x hx).2, hrest]
  rfl

theorem writesCollide (ht : Tidy s) {i j : Nat} (h1 : i < (takeDueAll s d isMemWrite).1.length) (h2 : j < (takeDueAll s d isMemWrite).1.length)
    (hij : i < j) (hclash : memClash ((takeDueAll s d isMemWrite).1[i]'h1) ((takeDueAll s d isMemWrite).1[j]'h2) = true)
    {x : Nat × Flight} (hx : x ∈ [(takeDueAll s d isMemWrite).1[i]'h1, (takeDueAll s d isMemWrite).1[j]'h2]) (hgot : x.2.got = none)
    (hlive : liveIn s d x.1 = true) : (getCore (landMemWrites s d) x.1).collision = true := by
  obtain ⟨htaken, hfrom⟩ := takenList (d := d) (p := isMemWrite) ht
  obtain ⟨hi, hj⟩ := mem_clashCores _ i j h1 h2 hij hclash
  have hmem : x ∈ (takeDueAll s d isMemWrite).1 ∧ x.1 ∈ clashCores (takeDueAll s d isMemWrite).1 := by
    rcases List.mem_cons.1 hx with rfl | hx
    · exact ⟨List.getElem_mem _, hi⟩
    · rw [List.mem_singleton.1 hx]
      exact ⟨List.getElem_mem _, hj⟩
  rw [liveIn, Bool.and_eq_true, beq_iff_eq] at hlive
  rw [landMemWrites_eq]
  exact collision_landWrites htaken.tidy (fun y hy => (hfrom y hy).2) hmem.1 hmem.2 hgot (by rw [(hfrom x hmem.1).1]; exact hlive.1)

/-- The bytes of a number read from memory. -/
theorem byte_readNat (m : Memory) : ∀ (n a i : Nat), i < n → Memory.readNat m a n / 256 ^ i % 256 = (Memory.read m (a + i)).toNat
  | n + 1, a, 0, _ => by
    have hb := (Memory.read m a).isLt
    rw [Memory.readNat]
    simp only [pow_zero, Nat.div_one, Nat.add_zero]
    omega
  | n + 1, a, i + 1, h => by
    have hb := (Memory.read m a).isLt
    rw [Memory.readNat, pow_succ', ← Nat.div_div_eq_div_mul]
    have hdiv : ((Memory.read m a).toNat + 256 * Memory.readNat m (a + 1) n) / 256 = Memory.readNat m (a + 1) n := by omega
    rw [hdiv, byte_readNat m n (a + 1) i (Nat.lt_of_succ_lt_succ h), Nat.add_assoc, Nat.add_comm 1 i]

/-- What a sample of an element under a character lands. -/
theorem inflight_signed (t : State) {n v a nf : Nat} {lc : Option Nat} {neg : Bool} {ty : Ty} :
    (getCore (useSample t k f n v (.spadSy a lc neg ty nf)) k).inflight = (getCore t k).inflight ++
      ({ f with at' := f.at' + 1, eff := .spad a n (2 ^ n - 1) (signCode neg ty nf v).1 lc, got := some 0 } ::
        (if (signCode neg ty nf v).2 = 0 then []
         else [{ f with at' := f.at' + 1, sub := f.sub + 1, eff := .flags .cp (signCode neg ty nf v).2, got := some 0 }])) := by
  unfold useSample
  dsimp only
  split
  · rw [inflight_addFlight]
  · rw [inflight_addFlight, inflight_addFlight, List.append_assoc]
    rfl

/-- What a cell's sample lands. -/
theorem inflight_cellRead (t : State) {ty : Ty} {raw : Bool} {a run v : Nat} (hf : f.eff = .cellRead key ty raw a run) (fl : Nat × Flags)
    (hfl : cellConvert ty (v % 2 ^ 512) = fl) :
    (getCore (ownSide t k f v) k).inflight = (getCore t k).inflight ++ ((if raw = true then [(0, Effect.spad a 80 (2 ^ 80 - 1) v none)]
      else (0, .spad a 16 (2 ^ 16 - 1) (fl.1 % 2 ^ 64 + v / 2 ^ 512 * 2 ^ 64) none) :: (if fl.2 = 0 then [] else [(1, .flags .cp fl.2)])).map fun x =>
        { f with at' := f.at' + 2 + spanOf run cpiSt (2 * (a / 2 ^ 18 % 8) + 1), sub := f.sub + x.1, eff := x.2, got := some 0 }) := by
  have hblk : blkSt (blkOf a) = 2 * (a / 2 ^ 18 % 8) + 1 := rfl
  unfold ownSide
  rw [hf]
  dsimp only
  rw [hfl, hblk]
  cases raw with
  | true =>
    rw [if_pos (.inl rfl), inflight_addFlight]
    rfl
  | false =>
    by_cases h0 : fl.2 = 0
    · rw [if_pos (.inr h0), inflight_addFlight, if_pos h0]
      rfl
    · rw [if_neg (by simpa using h0), inflight_addFlight, inflight_addFlight, if_neg h0, List.append_assoc]
      rfl

/-- With no store pending on its word an atomic takes the word as it is. -/
theorem DueAlone.atomFree (h : DueAlone s d isAtom k f) (hpart : partnerOf d k = none) (hlive : liveIn s d k = true) {r : SReg} {op : AtomOp}
    (hf : f.eff = .atom key r op) (hgood : s.badMem.contains (key / 64) = false)
    (hnone : ∀ x ∈ s.cores, ∀ g ∈ x.2.inflight, ∀ v, ¬ Pending s key g v) : ∃ clock, (landAtoms s d).mem = s.mem ∧
      (getCore (landAtoms s d) k).inflight = stays (getCore s k) d.dcc isAtom ++ brings f key r op (toWord (Memory.readNat s.mem key 8)) clock := by
  obtain ⟨cores, hrest⟩ := h.rest
  have hpend : pendingCores (withoutDue s d isAtom) key = [] := by
    refine List.eq_nil_iff_forall_not_mem.2 fun q hq => ?_
    obtain ⟨g, hg, hp⟩ := (mem_pendingCores h.taken.tidy q).1 hq
    rw [storePending_congr (by rw [hrest])] at hp
    obtain ⟨v, hv⟩ := (storePending_iff s key g).1 hp
    have hmem := h.taken.mem_inflight hg
    exact hnone _ (mem_of_inflight h.tidy hmem) g hmem v hv
  have hword := atomWord_eq (withoutDue s d isAtom) (.core k) key
  rw [hpend, List.foldl_nil] at hword
  have hcore : getCore (atomWord (withoutDue s d isAtom) (.core k) key).2 k = coreBeside (getCore s k) d.dcc isAtom := by
    rw [hword]
    exact (getCore_sameCores rfl k).trans h.core
  have hmem : (withoutDue s d isAtom).mem = s.mem := by rw [hrest]
  obtain ⟨t, clock, rfl, hmemt, hfl, _⟩ := h.atom hpart hf hgood (by rw [hcore]; exact (congrArg _ h.core.symm).trans (h.live hlive))
  refine ⟨clock, ?_, ?_⟩
  · rw [hmemt, hword, noteRead_mem, hmem]
  · rw [hfl, hcore, hword, memLoad, hmem, coreBeside]

/-- The one pending store on its word reaches it before the atomic does. -/
theorem DueAlone.atomStores (h : DueAlone s d isAtom k f) (hpart : partnerOf d k = none) (hlive : liveIn s d k = true) {r : SReg} {op : AtomOp}
    (hf : f.eff = .atom key r op) (hgood : s.badMem.contains (key / 64) = false) (hmirror : mirrorKeys s key = [key]) {q : Nat} {g : Flight} {v : Word}
    (hg : g ∈ (getCore s q).inflight) (hp : Pending s key g v)
    (honly : ∀ x ∈ s.cores, ∀ e ∈ x.2.inflight, ∀ u, Pending s key e u → x.1 = q ∧ e = g) : ∃ clock,
    Memory.readNat (landAtoms s d).mem key 8 = v.toNat ∧ { g with got := some 0 } ∈ (getCore (landAtoms s d) q).inflight ∧
      (∀ a, a < key ∨ key + 8 ≤ a → Memory.read (landAtoms s d).mem a = Memory.read s.mem a) ∧
      ∀ e ∈ brings f key r op v clock, e ∈ (getCore (landAtoms s d) k).inflight := by
  obtain ⟨cores, hrest⟩ := h.rest
  have hpkgs : (withoutDue s d isAtom).pkgs = s.pkgs := by rw [hrest]
  have hmem : (withoutDue s d isAtom).mem = s.mem := by rw [hrest]
  have hkeys := (mirrorKeys_congr hpkgs key).trans hmirror
  have halone : ∀ r, ∀ e ∈ (getCore (withoutDue s d isAtom) r).inflight, storePending (withoutDue s d isAtom) key e = true → r = q ∧ e = g := by
    intro r e he hpe
    rw [storePending_congr hpkgs] at hpe
    obtain ⟨u, hu⟩ := (storePending_iff s key e).1 hpe
    have he' := h.taken.mem_inflight he
    exact honly _ (mem_of_inflight h.tidy he') e he' u hu
  have hg' : g ∈ (getCore (withoutDue s d isAtom) q).inflight := by
    obtain ⟨_, b, _, clock, he⟩ := hp
    exact h.taken.stays_inflight hg (by rw [he]; rfl)
  have hp' : Pending (withoutDue s d isAtom) key g v := by
    rw [Pending, mirrorKeys_congr hpkgs]
    exact hp
  have hpend : pendingCores (withoutDue s d isAtom) key = [q] := by
    refine eq_singleton_of_nodup (nodup_pendingCores h.taken.tidy) (fun r hr => ?_) ?_
    · obtain ⟨e, he, hpe⟩ := (mem_pendingCores h.taken.tidy r).1 hr
      exact (halone r e he hpe).1
    · exact (mem_pendingCores h.taken.tidy q).2 ⟨g, hg', (storePending_iff _ key g).2 ⟨v, hp'⟩⟩
  have hword := atomWord_eq (withoutDue s d isAtom) (.core k) key
  rw [hpend, List.foldl_cons, List.foldl_nil] at hword
  obtain ⟨hread, hserved, hothers⟩ := landHeld_one h.taken.tidy hkeys hg' hp' fun e he hpe => (halone q e he hpe).2
  have hafter : ∀ r, getCore (atomWord (withoutDue s d isAtom) (.core k) key).2 r = getCore (landHeld (withoutDue s d isAtom) q key) r := fun r => by
    rw [hword]
    exact getCore_sameCores rfl r
  have hcyc : (getCore (atomWord (withoutDue s d isAtom) (.core k) key).2 k).dcc = d.dcc := by
    rw [hafter]
    by_cases hkq : k = q
    · subst hkq
      rw [hserved]
      exact h.live hlive
    · rw [hothers k hkq]
      exact h.live hlive
  have hbytes : ∀ i, i < 8 → Memory.read (landHeld (withoutDue s d isAtom) q key).mem (key + i) = BitVec.ofNat 8 (v.toNat / 256 ^ i) := fun i hi => by
    rw [hread, if_pos (by omega), Nat.add_sub_cancel_left]
  have hvalue : Memory.readNat (landHeld (withoutDue s d isAtom) q key).mem key 8 = v.toNat :=
    (readNat_of_bytes hbytes).trans (Nat.mod_eq_of_lt (by rw [pow_256]; exact v.isLt))
  have hold : (atomWord (withoutDue s d isAtom) (.core k) key).1 = v := by
    rw [hword, memLoad, hvalue, toWord, BitVec.ofNat_toNat, BitVec.setWidth_eq]
  obtain ⟨t, clock, rfl, hmemt, hfl, hkept⟩ := h.atom hpart hf hgood hcyc
  rw [hword, noteRead_mem] at hmemt
  refine ⟨clock, by rw [hmemt, hvalue], hkept q _ ?_, fun a ha => ?_, fun e he => ?_⟩
  · rw [hafter, hserved]
    exact List.mem_map.2 ⟨g, hg', if_pos ((storePending_iff _ key g).2 ⟨v, hp'⟩)⟩
  · rw [hmemt, hread, if_neg (by omega), hmem]
  · rw [hfl, hold]
    exact List.mem_append_right _ he

theorem toNat_mod_256 (x : Int) : (((x % 2 ^ 512).toNat % 256 ^ 64 : Nat) : Int) = x % 2 ^ 512 := by
  have hpow : (256 : Nat) ^ 64 = 2 ^ 512 := pow_256 64
  have hpos : (0 : Int) < 2 ^ 512 := by positivity
  have hlow := Int.emod_nonneg x hpos.ne'
  have hhigh := Int.emod_lt_of_pos x hpos
  have hcast : ((2 ^ 512 : Nat) : Int) = 2 ^ 512 := Nat.cast_pow 2 512
  have hlt : (x % 2 ^ 512).toNat < 2 ^ 512 := by rw [← Int.ofNat_lt, Int.toNat_of_nonneg hlow, hcast]; exact hhigh
  rw [hpow, Nat.mod_eq_of_lt hlt, Int.toNat_of_nonneg hlow]

/-- Settles O50: an entry that falls due alone is served by the memory side once; what its answer brings is a matter of its core. -/
theorem memoryEvents : Obligations.MemoryEvents := by
  unfold Obligations.MemoryEvents
  intro s pid d htidy hd hcyc
  have ht : Tidy s := ⟨htidy⟩
  refine ⟨⟨landMemWrites s d, ?_, ?_, ?_⟩, ?_, ?_, ?_, ?_, ?_, ?_⟩
  · exact congrArg Host.Outcome.next (inCycle_runs hd hcyc _)
  · exact writesLand ht
  · intro i j h1 h2 hij hclash x hx hgot hlive
    exact writesCollide ht h1 h2 hij hclash hx hgot hlive
  · intro k f key n u hdue hpart hlive hgot hf hgood
    obtain ⟨t, hmem, hcore, hland⟩ := DueAlone.memRead ⟨ht, hdue, hgot⟩ hpart hlive hf hgood
    obtain ⟨cores, hrest⟩ := useSample_rest t k f n (Memory.readNat s.mem key n) u
    have hqueue : (getCore t k).inflight = stays (getCore s k) d.dcc isMemSample := by rw [hcore, coreBeside]
    refine ⟨sampleMemory s d, congrArg Host.Outcome.next (inCycle_runs hd hcyc _), by rw [hland, hrest]; exact hmem, ?_⟩
    rw [hland]
    refine ⟨fun i hi => byte_readNat _ _ _ _ hi, ?_, ?_, ?_⟩
    · rintro r rfl
      rw [useSample, inflight_addFlight, hqueue]
    · rintro a lc rfl
      rw [useSample, inflight_addFlight, hqueue]
    · rintro a lc neg ty nf rfl
      rw [inflight_signed, hqueue]
      exact rfl
  · intro k f key r op hdue hpart hlive hgot hf hgood
    refine ⟨fun hnone => ?_, fun q g v hg hp hmirror honly => ?_⟩
    · obtain ⟨clock, hmem, hfl⟩ := DueAlone.atomFree ⟨ht, hdue, hgot⟩ hpart hlive hf hgood hnone
      exact ⟨landAtoms s d, clock, congrArg Host.Outcome.next (inCycle_runs hd hcyc _), hmem, hfl⟩
    · obtain ⟨clock, hword, hserved, hrest, hbrings⟩ := DueAlone.atomStores ⟨ht, hdue, hgot⟩ hpart hlive hf hgood hmirror hg hp honly
      exact ⟨landAtoms s d, clock, congrArg Host.Outcome.next (inCycle_runs hd hcyc _), hword, hserved, hrest, hbrings⟩
  · intro k f key ty raw a run hdue hpart hlive hgot hf hgood
    obtain ⟨t, hmem, hcore, hland⟩ := DueAlone.cellRead ⟨ht, hdue, hgot⟩ hpart hlive hf hgood
    obtain ⟨cores, hrest⟩ := ownSide_rest t k f (Memory.readNat s.mem key 64 + (getCell s key).err.toNat * 2 ^ 512)
    have hqueue : (getCore t k).inflight = stays (getCore s k) d.dcc isMemSample := by rw [hcore, coreBeside]
    have hI : Memory.readNat s.mem key 64 < 2 ^ 512 := readNat_lt s.mem key 64
    have hmod : (Memory.readNat s.mem key 64 + (getCell s key).err.toNat * 2 ^ 512) % 2 ^ 512 = Memory.readNat s.mem key 64 := by
      rw [Nat.add_mul_mod_self_right, Nat.mod_eq_of_lt hI]
    have hdiv : (Memory.readNat s.mem key 64 + (getCell s key).err.toNat * 2 ^ 512) / 2 ^ 512 = (getCell s key).err.toNat := by
      rw [Nat.add_mul_div_right _ _ (Nat.two_pow_pos 512), Nat.div_eq_of_lt hI, Nat.zero_add]
    refine ⟨sampleMemory s d, congrArg Host.Outcome.next (inCycle_runs hd hcyc _), by rw [hland, hrest]; exact hmem, ?_⟩
    have hlands := inflight_cellRead (k := k) t hf (cellConvert ty (Memory.readNat s.mem key 64)) (by rw [hmod])
    rw [hqueue, hdiv, ← hland] at hlands
    refine ⟨fun hraw => ?_, fun hraw => ⟨(cellConvert ty (Memory.readNat s.mem key 64)).1, (cellConvert ty (Memory.readNat s.mem key 64)).2, ?_, ?_, ?_⟩⟩
    · rw [if_pos hraw] at hlands
      exact hlands
    · rw [if_neg (by rw [hraw]; decide)] at hlands
      exact hlands
    · intro hty
      have hconvert := cellConvert_float hty (Memory.readNat s.mem key 64)
      unfold cellInt at hconvert
      exact hconvert
    · rintro rfl
      have hconvert := cellConvert_int (Memory.readNat s.mem key 64)
      unfold cellInt at hconvert
      obtain ⟨q, hnear, htie, hq⟩ := hconvert
      refine ⟨q, hnear, htie, ?_⟩
      rw [← hq]
  · intro k f key g hdue hgot hf hmirror
    obtain ⟨hcell, hmem⟩ := DueAlone.cellInit ⟨ht, hdue, hgot⟩ hf hmirror
    refine ⟨landCellInits s d, congrArg Host.Outcome.next (inCycle_runs hd hcyc _), by rw [hcell], by rw [hcell], fun i hi => ?_, fun a ha => ?_⟩
    · have hbit : (2 ^ 64 - 1) / 2 ^ i % 2 = 1 := by
        have := Nat.testBit_two_pow_sub_one 64 i
        rw [Nat.testBit_eq_decide_div_mod_eq] at this
        simpa [hi] using this
      rw [hmem, read_writeMasked_ite ht.mem, if_pos (by rw [Nat.add_sub_cancel_left]; omega), Nat.zero_div]
      rfl
    · rw [hmem, read_writeMasked_ite ht.mem, if_neg (by omega)]
  · intro k f key ty v hdue hgot hf hmirror
    refine ⟨fun hfl hv => ?_, fun hfl hnan => ?_⟩
    · have hadd := (DueAlone.cellAdd ⟨ht, hdue, hgot⟩ hf hmirror (if_neg (by rw [hfl]; decide))).1 _ (cellContribution_int hfl _ _)
      refine ⟨landCellAdds s d, congrArg Host.Outcome.next (inCycle_runs hd hcyc _), ?_, fun a ha => by rw [hadd]; exact read_writeNat_out _ _ _ _ _ ha⟩
      rw [hadd, readNat_writeNat _ _ _ _ ht.mem, intOf_eq_laneInt hv]
      exact toNat_mod_256 _
    · have hadd := (DueAlone.cellAdd ⟨ht, hdue, hgot⟩ hf hmirror (if_pos hfl)).2 (by
        cases hx : decodeNum (fmtOf ty 0) v with
        | nan => rfl
        | _ => rw [hx] at hnan; cases hnan)
      exact ⟨landCellAdds s d, congrArg Host.Outcome.next (inCycle_runs hd hcyc _), hadd.1, by rw [hadd.2], by rw [hadd.2]⟩
  · intro k f n vals rows cols ty hpid hlive hpart hdue hf
    have hdcc : (getCore s k).dcc = d.dcc := by
      rw [liveIn, Bool.and_eq_true, beq_iff_eq] at hlive
      exact hlive.1
    have hdue' : (dueOf (getCore s k) (getCore s k).dcc isFill).1 = [f] := by rw [hdcc]; exact hdue
    have hexec := exec_fill (by rw [hpid]; exact hd) hcyc hlive hpart hdue'
    have hkept : Tidy (setCore s k (coreBeside (getCore s k) (getCore s k).dcc isFill)) := tidy_setCore ht (tidyCore_dueOf (ht.core k))
    have hcore : getCore (setCore s k (coreBeside (getCore s k) (getCore s k).dcc isFill)) k = coreBeside (getCore s k) (getCore s k).dcc isFill :=
      getCore_setCore_wf _ _ _ ht.cores
    refine ⟨fun hst => ?_, fun hst => ?_⟩
    · obtain ⟨hslot, hcruc⟩ := applyFill_claimed hkept hf (by rw [hcore]; exact hst)
      refine ⟨_, hexec, hslot, fun i hi => ?_, fun r hr => ?_⟩
      · rw [hcruc, if_pos (Nat.le_add_right _ _), Nat.add_sub_cancel_left, List.getElem?_eq_getElem hi, List.getD_eq_getElem _ _ hi, Option.getD_some]
      · rw [hcruc, hcore]
        by_cases hlow : 32 * n ≤ r
        · rw [if_pos hlow, List.getElem?_eq_none (by omega)]
          rfl
        · rw [if_neg hlow]
          rfl
    · have hdom : domOf (setCore s k (coreBeside (getCore s k) (getCore s k).dcc isFill)) k = some d := by
        rw [domOf_setCore (c := coreBeside (getCore s k) (getCore s k).dcc isFill) ht rfl, domOf, hpid]
        exact hd
      obtain ⟨x, repaired, hafter, hcode⟩ := applyFill_other hdom hpart hf (by rw [hcore]; exact hst)
      refine ⟨_, x, hexec, ?_, ?_, by rw [hafter], fun hstop => hcode (by rw [hcore]; exact hstop)⟩
      · rw [hafter, hcore, coreBeside]
      · rw [hafter, hcore, coreBeside]

end

end Sys2Proof.Proofs
end

