-- ==== Sys2Proof/Proofs/Fabric.lean ====
section
/-! PROOF. Faults of the fabric on a core that a fault has stopped already (R313, R320, R329). -/

namespace Sys2Proof.Proofs

open Sys2Proof Sys2Proof.Machine Sys2Proof.Claims Sys2Proof.Laws

-- A core that has stopped raises no second hold --------------------------------------------------------------------------------------------------

/-- A core of pour 1 that a stopping fault has stopped. -/
def stoppedCore : CoreState := { pid := 1, stop := some ⟨0, fEncoding, .cc, [0, 0, 0, 0], 0, [], 0, 0, 0⟩ }

/-- Its pour, in group span, which no hold with cause 6 is announced for. -/
def unheldPour : Domain :=
  { pid := 1, part := 0, asid := 0, mouldNo := 0, mould := [], cores := [0], span := 2, pkgs := [0], h := 0 }

def unheldState : State := { domains := [unheldPour], cores := [(0, stoppedCore)] }

theorem tidy_unheldState : tidy unheldState = true := by decide

/-- An uncorrectable flit dooms the pour, but raises no cause: the core has stopped with a code of its own. -/
theorem flit_unheldState : ∃ u, exec (.flitUncorrectable 0 0) unheldState = .next u ∧ findDom u 1 = some { unheldPour with doomed := true } :=
  ⟨_, rfl, rfl⟩

/-- Refutes O55: where the core of the pour has stopped with a code already and no cause stands, a link's fault raises none (R313), so that the
pour's causes hold no cause 6. -/
theorem not_fabricEvents : ¬ Obligations.FabricEvents := by
  unfold Obligations.FabricEvents
  intro h
  obtain ⟨_, ⟨⟨u, hu, _, _, hall⟩, _⟩, _⟩ := h unheldState 0 0 0 0 false tidy_unheldState
  obtain ⟨t, ht, hdom⟩ := flit_unheldState
  obtain rfl : t = u := Host.Outcome.next.inj (ht.symm.trans hu)
  obtain ⟨k, hk, _, _, _, hstops⟩ := hall unheldPour List.mem_cons_self (by decide) ⟨0, by decide, by decide⟩
  obtain rfl : k = 0 := by simpa [Domain.all, unheldPour] using hk
  obtain ⟨e, he, _, hcause⟩ := hstops rfl rfl
  obtain rfl : { unheldPour with doomed := true } = e := Option.some.inj (hdom.symm.trans he)
  exact absurd hcause (by decide)

end Sys2Proof.Proofs
end

