-- ==== Sys2Proof/Proofs/Scheduling.lean ====
section
/-! PROOF. Scheduling rounds: waiting pours, places, admission and reservation (R303, R306). -/

namespace Sys2Proof.Proofs

open Sys2Proof Sys2Proof.Machine Sys2Proof.Claims Sys2Proof.Laws

-- Decisions about victims change domains alone (R306) ------------------------------------------------------------------------------------------

section
variable {s t : State}

/-- Nothing but the domains differs. -/
def SameBesideDomains (s t : State) : Prop := ∃ domains, t = { s with domains := domains }

theorem SameBesideDomains.refl (s : State) : SameBesideDomains s s := ⟨s.domains, rfl⟩

theorem SameBesideDomains.trans {u : State} (h : SameBesideDomains s t) (g : SameBesideDomains t u) : SameBesideDomains s u := by
  obtain ⟨d, rfl⟩ := h
  obtain ⟨e, rfl⟩ := g
  exact ⟨e, rfl⟩

theorem SameBesideDomains.foldl {α : Type} {g : State → α → State} (hg : ∀ t a, SameBesideDomains t (g t a)) (l : List α) (s : State) :
    SameBesideDomains s (l.foldl g s) :=
  foldl_keeps (SameBesideDomains s) _ (by intro t a h; exact h.trans (hg t a)) l s (.refl s)

theorem SameBesideDomains.ite {u : State} {p : Prop} [Decidable p] (h : SameBesideDomains s t) (g : SameBesideDomains s u) :
    SameBesideDomains s (if p then t else u) := by
  split
  · exact h
  · exact g

theorem sameBesideDomains_modDom (s : State) (p : Nat) (f : Domain → Domain) : SameBesideDomains s (modDom s p f) := ⟨_, rfl⟩

theorem sameBesideDomains_decideVictim (s : State) (h : Armed) (prio : Nat) (d : Domain) : SameBesideDomains s (decideVictim s h prio d) := by
  have hstop : ∀ (t : State) (w : Option StopWhy), SameBesideDomains s t → SameBesideDomains s (stopVictim t d w) :=
    fun t w ht => ht.trans (sameBesideDomains_modDom ..)
  have hdrain : ∀ t : State, SameBesideDomains s t → SameBesideDomains s (drainVictim t d) := fun t ht => ht.trans (sameBesideDomains_modDom ..)
  have hmod : ∀ (t : State) (f : Domain → Domain), SameBesideDomains s t → SameBesideDomains s (modDom t d.pid f) :=
    fun t f ht => ht.trans (sameBesideDomains_modDom ..)
  have hs := SameBesideDomains.refl s
  unfold decideVictim
  refine hs.ite ?_
  exact .ite (.ite (hmod _ _ hs) (hstop _ _ (hmod _ _ hs))) (.ite (hdrain _ (hmod _ _ hs))
    (.ite (hstop _ _ (hmod _ _ (hmod _ _ hs))) (.ite (hstop _ _ (hmod _ _ (hmod _ _ hs))) (hdrain _ (hmod _ _ hs)))))

theorem sameBesideDomains_preempt (s : State) (pkg : Nat) (h : Armed) (prio : Nat) : SameBesideDomains s (preempt s pkg h prio) :=
  .foldl (fun t d => sameBesideDomains_decideVictim t h prio d) _ s

theorem sameBesideDomains_cancelDecision (s : State) (d : Domain) : SameBesideDomains s (cancelDecision s d) := by
  unfold cancelDecision
  split
  · refine (sameBesideDomains_modDom s d.pid _).trans (.foldl (fun t h => ?_) _ _)
    cases findDom t d.pid with
    | none => exact .refl t
    | some e => exact sameBesideDomains_decideVictim ..
  · exact .refl s

theorem sameBesideDomains_cancelDecisions (s : State) : SameBesideDomains s (cancelDecisions s) := .foldl sameBesideDomains_cancelDecision _ s

theorem SameBesideDomains.findArmed (h : SameBesideDomains s t) (pkg pid : Nat) : findArmed t pkg pid = findArmed s pkg pid := by
  obtain ⟨d, rfl⟩ := h
  rfl

end

-- Waiting pours ------------------------------------------------------------------------------------------------------------------------------------

section
variable {s : State} {pkg q pid : Nat} {a b : Armed}

theorem getPkg_modPkg {f : Pkg → Pkg} (hf : f (getPkg s pkg) ≠ {}) : getPkg (modPkg s pkg f) pkg = f (getPkg s pkg) := getPkg_setPkg _ _ _ hf

theorem getPkg_modPkg_ne {f : Pkg → Pkg} (h : q ≠ pkg) : getPkg (modPkg s pkg f) q = getPkg s q := getPkg_setPkg_ne _ _ h

theorem mem_of_findArmed (h : findArmed s pkg pid = some a) : a ∈ armedOn s pkg ∧ a.pid = pid :=
  ⟨List.mem_of_find?_eq_some h, by simpa using List.find?_some h⟩

/-- The armed pours of a package's record. -/
def poolsOf (p : Pkg) : List Armed := p.parts.flatMap (fun x => x.2.pool) ++ p.waiting

theorem ne_empty_of_pool {p : Pkg} (h : a ∈ poolsOf p) : p ≠ {} := fun hp => by
  rw [hp] at h
  cases h

/-- A change of a package that leaves its armed pours. -/
theorem findArmed_modPkg {f : Pkg → Pkg} (hf : ∀ p, poolsOf (f p) = poolsOf p) (h : findArmed s q pid = some a) :
    findArmed (modPkg s pkg f) q pid = some a := by
  by_cases hq : q = pkg
  · subst hq
    have hne : f (getPkg s q) ≠ {} := ne_empty_of_pool (a := a) (by rw [hf]; exact (mem_of_findArmed h).1)
    unfold findArmed armedOn
    rw [getPkg_modPkg hne]
    exact (congrArg (List.find? _) (hf (getPkg s q))).trans h
  · unfold findArmed armedOn
    rw [getPkg_modPkg_ne hq]
    exact h

/-- A change of one armed pour. -/
def changeArmed (pid : Nat) (f : Armed → Armed) (a : Armed) : Armed := if a.pid = pid then f a else a

theorem findArmed_modArmed {f : Armed → Armed} (hf : ∀ a, (f a).pid = a.pid) {r : Nat} (h : findArmed s q r = some a) :
    findArmed (modArmed s pkg pid f) q r = some (if q = pkg then changeArmed pid f a else a) := by
  by_cases hq : q = pkg
  · subst hq
    have hpools : ∀ p : Pkg, poolsOf { p with parts := p.parts.map (fun x => (x.1, { x.2 with pool := x.2.pool.map (changeArmed pid f) }))
                                              waiting := p.waiting.map (changeArmed pid f) } = (poolsOf p).map (changeArmed pid f) := fun p => by
      simp only [poolsOf, List.map_append, List.map_flatMap, List.flatMap_map]
    have hkey : ((fun x : Armed => x.pid == r) ∘ changeArmed pid f) = fun x => x.pid == r := funext fun x => by
      rw [Function.comp, changeArmed]
      split
      · rw [hf]
      · rfl
    have hne : _ ≠ ({} : Pkg) := ne_empty_of_pool (a := changeArmed pid f a)
      (p := { getPkg s q with parts := (getPkg s q).parts.map (fun x => (x.1, { x.2 with pool := x.2.pool.map (changeArmed pid f) }))
                              waiting := (getPkg s q).waiting.map (changeArmed pid f) })
      (by rw [hpools]; exact List.mem_map_of_mem (mem_of_findArmed h).1)
    rw [if_pos rfl]
    unfold findArmed armedOn modArmed
    rw [getPkg_modPkg hne]
    refine (congrArg (List.find? _) (hpools (getPkg s q))).trans ?_
    rw [List.find?_map, hkey]
    exact congrArg (Option.map _) h
  · rw [if_neg hq]
    unfold findArmed armedOn modArmed
    rw [getPkg_modPkg_ne hq]
    exact h

theorem findArmed_reserveIn {r : Nat} {cores : List Nat} (h : findArmed s q r = some b) (hr : r ≠ a.pid) :
    findArmed (reserveIn s pkg a cores) q r = some b := by
  have hsame : ∀ f, changeArmed a.pid f b = b := fun f => if_neg (by rw [(mem_of_findArmed h).2]; exact hr)
  rw [reserveIn, findArmed_modArmed (by intro x; rfl) h, hsame, ite_self]

/-- A pour on whose home package some cores are reserved for it. -/
theorem findArmed_reserveIn_own {cores : List Nat} (h : findArmed s (homeOf a.pid) a.pid = some b) :
    findArmed (reserveIn s pkg a cores) (homeOf a.pid) a.pid = some { b with cores := b.cores.filter (fun k => pkgOf k != pkg) ++ cores } := by
  rw [reserveIn, findArmed_modArmed (by intro x; rfl) h, if_pos rfl, changeArmed, if_pos (mem_of_findArmed h).2]

/-- An admitted pour, and another pour than the former head, keep what they have. -/
theorem findArmed_unreserve {r : Nat} (h : findArmed s q r = some b) (hkeep : r ≠ pid ∨ (q = homeOf r ∧ b.admitted = true)) :
    findArmed (unreserve s pkg pid) q r = some b := by
  unfold unreserve
  cases ha : findArmed s (homeOf pid) pid with
  | none => exact h
  | some a =>
    dsimp only
    split
    · exact h
    · rename_i hno
      refine findArmed_reserveIn h fun hr => ?_
      rw [(mem_of_findArmed ha).2] at hr
      subst hr
      obtain ⟨rfl, hadm⟩ := hkeep.resolve_left fun h => h rfl
      obtain rfl := Option.some.inj (ha.symm.trans h)
      rw [hadm] at hno
      exact hno rfl

end

-- The end of a round without a head (R303) ---------------------------------------------------------------------------------------------------------

section
variable {s u : State} {pkg die : Nat}

/-- What follows the walk of a round that leaves no head. -/
def roundEnd (s : State) (pkg die : Nat) (u : State) : State :=
  let old := Sparse.get (0, 0) (getPkg s pkg).heads die
  let others := (List.range 4).any (fun q => q != die && (Sparse.get (0, 0) (getPkg u pkg).heads q).1 == old.1)
  cancelDecisions (modPkg (if old.1 ≠ 0 ∧ others = false then unreserve u pkg old.1 else u) pkg
    fun p => { p with heads := Sparse.set (0, 0) p.heads die (0, 0) })

theorem round_noHead (h : (ranking s pkg die).foldl (walkOne pkg die) (s, none) = (u, none)) :
    exec (.schedulingRound pkg die) s = .next (roundEnd s pkg die u) := by
  change execSchedulingRound pkg die s = _
  unfold execSchedulingRound
  dsimp only
  rw [h]
  rfl

/-- Nothing but packages and domains differs. -/
def SameBesidePkgs (s t : State) : Prop := ∃ pkgs domains, t = { s with pkgs := pkgs, domains := domains }

theorem sameBesidePkgs_unreserve (s : State) (pkg pid : Nat) : SameBesidePkgs s (unreserve s pkg pid) := by
  unfold unreserve
  split
  · exact ⟨_, _, rfl⟩
  · split
    · exact ⟨_, _, rfl⟩
    · exact ⟨_, _, rfl⟩

theorem sameBesidePkgs_roundEnd (s : State) (pkg die : Nat) (u : State) : SameBesidePkgs u (roundEnd s pkg die u) := by
  unfold roundEnd
  dsimp only
  obtain ⟨d, hd⟩ := sameBesideDomains_cancelDecisions (modPkg
    (if (Sparse.get (0, 0) (getPkg s pkg).heads die).1 ≠ 0 ∧ ((List.range 4).any (fun q => q != die &&
      (Sparse.get (0, 0) (getPkg u pkg).heads q).1 == (Sparse.get (0, 0) (getPkg s pkg).heads die).1)) = false
      then unreserve u pkg (Sparse.get (0, 0) (getPkg s pkg).heads die).1 else u) pkg fun p => { p with heads := Sparse.set (0, 0) p.heads die (0, 0) })
  rw [hd]
  split
  · obtain ⟨p, e, h⟩ := sameBesidePkgs_unreserve u pkg (Sparse.get (0, 0) (getPkg s pkg).heads die).1
    rw [h]
    exact ⟨_, _, rfl⟩
  · exact ⟨_, _, rfl⟩

theorem findArmed_roundEnd {q r : Nat} {b : Armed} (h : findArmed u q r = some b)
    (hkeep : r ≠ (Sparse.get (0, 0) (getPkg s pkg).heads die).1 ∨ (q = homeOf r ∧ b.admitted = true)) :
    findArmed (roundEnd s pkg die u) q r = some b := by
  unfold roundEnd
  rw [(sameBesideDomains_cancelDecisions _).findArmed]
  refine findArmed_modPkg (by intro p; rfl) ?_
  split
  · exact findArmed_unreserve h hkeep
  · exact h

end

-- One waiting pour (R303) ------------------------------------------------------------------------------------------------------------------------------

section
variable {s : State} {pkg die prio : Nat} {a : Armed}

/-- A pour whose cores are free, and that fits, is admitted. -/
theorem walkOne_admits {cores : List Nat} (hfind : findArmed s (homeOf a.pid) a.pid = some a) (harm : (getPart s (homeOf a.pid) a.part).arming = true)
    (hstart : startDoomed s a = false) (hspan : mSpan a.mould ≠ 2) (hplace : placeFree s pkg die a = some cores) (hfits : fits s a cores = true) :
    walkOne pkg die (s, none) (prio, a) = (admitOn s a cores, none) := by
  unfold walkOne
  dsimp only
  rw [hfind, Option.getD_some, harm, if_neg (by decide), hstart, if_neg (by decide), if_neg hspan, hplace]
  dsimp only
  rw [if_pos hfits]

/-- A group-span pour has its cores in a member package reserved. -/
theorem walkOne_reserves {mine : List Nat} (hfind : findArmed s (homeOf a.pid) a.pid = some a) (hhome : homeOf a.pid ≠ pkg)
    (harm : (getPart s (homeOf a.pid) a.part).arming = true) (hstart : startDoomed s a = false) (hspan : mSpan a.mould = 2)
    (hready : readyIn s a pkg = false) (hplace : placeFree s pkg die a = some mine) (hfits : fitsDies s (armedHolder s a mine) = true) :
    walkOne pkg die (s, none) (prio, a) = (reserveIn s pkg a mine, none) := by
  unfold walkOne walkGroup
  dsimp only
  rw [hfind, Option.getD_some, harm, if_neg (by decide), hstart, if_neg (by decide), if_pos hspan, hready, if_neg (by decide), hplace]
  dsimp only
  rw [hfits, if_neg (by decide), findArmed_reserveIn_own hfind]
  dsimp only [Option.getD_some]
  rw [if_pos (.inl hhome.symm)]

end

-- Places (R303) -------------------------------------------------------------------------------------------------------------------------------------------

section

theorem insNat_perm (x : Nat) : ∀ l : List Nat, (insNat x l).Perm (x :: l)
  | [] => .refl _
  | y :: r => by
    rw [insNat]
    split
    · exact .refl _
    · exact ((insNat_perm x r).cons y).trans (.swap x y r)

/-- Sorting a list keeps its members. -/
theorem foldr_insNat_perm : ∀ l : List Nat, (l.foldr insNat []).Perm l
  | [] => .refl _
  | x :: r => (insNat_perm x _).trans ((foldr_insNat_perm r).cons x)

theorem mem_mate {x y : Nat} {l : List Nat} (h : mate x l = some y) : y ∈ l := by
  unfold mate at h
  cases hfind : l.find? (fun y => dieOf y != dieOf x) with
  | some z =>
    rw [hfind] at h
    obtain rfl := Option.some.inj h
    exact List.mem_of_find?_eq_some hfind
  | none =>
    rw [hfind] at h
    exact List.mem_of_head? h

/-- The pairs out of a list are as many as asked, of its members. -/
theorem pickPairs_spec : ∀ (n : Nat) (l : List Nat) (ps : List (Nat × Nat)), pickPairs n l = some ps →
    ps.length = n ∧ ∀ p ∈ ps, p.1 ∈ l ∧ p.2 ∈ l
  | 0, l, ps, h => by
    rw [pickPairs] at h
    obtain rfl := Option.some.inj h
    exact ⟨rfl, fun _ h => nomatch h⟩
  | n + 1, [], ps, h => nomatch h
  | n + 1, x :: r, ps, h => by
    rw [pickPairs, Option.bind_eq_some_iff] at h
    obtain ⟨y, hy, h⟩ := h
    obtain ⟨qs, hqs, rfl⟩ := Option.map_eq_some_iff.1 h
    obtain ⟨hlen, hmem⟩ := pickPairs_spec n _ qs hqs
    have hyr : y ∈ x :: r := List.mem_cons_of_mem _ (mem_mate hy)
    refine ⟨congrArg Nat.succ hlen, fun p hp => ?_⟩
    rcases List.mem_cons.1 hp with rfl | hp
    · dsimp only
      constructor
      · rcases min_choice x y with h | h <;> rw [h]
        · exact List.mem_cons_self
        · exact hyr
      · rcases max_choice x y with h | h <;> rw [h]
        · exact List.mem_cons_self
        · exact hyr
    · exact (hmem p hp).imp (fun h => List.mem_cons_of_mem _ (List.mem_of_mem_erase h)) fun h => List.mem_cons_of_mem _ (List.mem_of_mem_erase h)

/-- The cores that a pour of die span takes out of a list: as many as it needs, of its members. -/
theorem pickCores_spec {m : List Word} {l cores : List Nat} (hspan : mSpan m = 0) (h : pickCores m l = some cores) :
    cores.length = mNeed m ∧ ∀ k ∈ cores, k ∈ l := by
  have hspan1 : mSpan m ≠ 1 := by omega
  unfold pickCores at h
  unfold mNeed
  cases hp : mPair m with
  | true =>
    rw [hp, if_pos rfl, Option.bind_eq_some_iff] at h
    obtain ⟨ps, hps, h⟩ := h
    obtain ⟨hlen, hmem⟩ := pickPairs_spec _ _ _ hps
    dsimp only at h
    rw [if_neg fun h => hspan1 h.1] at h
    obtain rfl := Option.some.inj h
    refine ⟨?_, fun k hk => ?_⟩
    · rw [if_pos rfl, List.length_flatMap]
      simp only [List.length_cons, List.length_nil, List.map_const', List.sum_replicate, hlen, smul_eq_mul]
      omega
    · obtain ⟨p, hp, hk⟩ := List.mem_flatMap.1 hk
      simp only [List.mem_cons, List.not_mem_nil, or_false] at hk
      rcases hk with rfl | rfl
      · exact (hmem p hp).1
      · exact (hmem p hp).2
  | false =>
    rw [hp, if_neg (by decide), if_neg hspan1] at h
    split at h
    · cases h
    · rename_i hlong
      obtain rfl := Option.some.inj h
      exact ⟨by rw [List.length_take, if_neg (by decide)]; omega, fun k hk => List.mem_of_mem_take hk⟩

theorem mem_freeCores {s : State} {pid pkg part k : Nat} (h : k ∈ freeCores s pid pkg part) :
    (getCore s k).pid = 0 ∧ ∃ n ∈ (getPart s pkg part).cores, k = pkg * 1024 + n := by
  obtain ⟨hmem, hfree⟩ := List.mem_filter.1 h
  obtain ⟨n, hn, rfl⟩ := List.mem_map.1 ((foldr_insNat_perm _).mem_iff.1 hmem)
  refine ⟨?_, n, hn, rfl⟩
  simp only [Bool.and_eq_true, beq_iff_eq, bne_eq_false_iff_eq] at hfree
  exact hfree.2

/-- The place of a die-span pour: free cores of its partition on that die, as many as it needs. -/
theorem placeFree_die {s : State} {pkg die : Nat} {a : Armed} {cores : List Nat} (hspan : mSpan a.mould = 0) (h : placeFree s pkg die a = some cores) :
    cores.length = mNeed a.mould ∧ ∀ k ∈ cores, (getCore s k).pid = 0 ∧ dieOf k = die ∧ ∃ n ∈ (getPart s pkg a.part).cores, k = pkg * 1024 + n := by
  unfold placeFree place at h
  rw [if_pos hspan] at h
  obtain ⟨l, hl, rfl⟩ := Option.map_eq_some_iff.1 h
  obtain ⟨hlen, hmem⟩ := pickCores_spec hspan hl
  refine ⟨(foldr_insNat_perm l).length_eq.trans hlen, fun k hk => ?_⟩
  obtain ⟨hfree, hdie⟩ := List.mem_filter.1 (hmem k ((foldr_insNat_perm l).mem_iff.1 hk))
  obtain ⟨hpid, hn⟩ := mem_freeCores hfree
  exact ⟨hpid, by simpa using hdie, hn⟩

end

-- Priority aging (R303) ------------------------------------------------------------------------------------------------------------------------------------

section
variable {s : State} {pkg pid : Nat} {a : Armed}

/-- A die's head as aging leaves it. -/
def agedHead (pid prio : Nat) (h : Nat × Nat) : Nat × Nat := if h.1 = pid ∧ h.2 < prio then (pid, prio) else h

/-- One die's head under aging. -/
def ageDie (pkg pid : Nat) (a : Armed) (prio : Nat) (s : State) (die : Nat) : State :=
  let h := Sparse.get (0, 0) (getPkg s pkg).heads die
  if h.1 = pid ∧ h.2 < prio then
    preempt (modPkg s pkg (fun p => { p with heads := Sparse.set (0, 0) p.heads die (pid, prio) })) pkg a prio
  else s

theorem ageDie_spec (t : State) (prio die : Nat) : (ageDie pkg pid a prio t die).cores = t.cores ∧ (ageDie pkg pid a prio t die).mem = t.mem ∧
    ∀ q, Sparse.get (0, 0) (getPkg (ageDie pkg pid a prio t die) pkg).heads q =
      if q = die then agedHead pid prio (Sparse.get (0, 0) (getPkg t pkg).heads q) else Sparse.get (0, 0) (getPkg t pkg).heads q := by
  unfold ageDie agedHead
  dsimp only
  split
  · rename_i hrise
    obtain ⟨domains, h⟩ := sameBesideDomains_preempt (modPkg t pkg fun p => { p with heads := Sparse.set (0, 0) p.heads die (pid, prio) }) pkg a prio
    have hset : (pid, prio) ≠ (0, 0) := fun h => by
      have := congrArg Prod.snd h
      simp only at this
      omega
    have hget : Sparse.get (0, 0) (Sparse.set (0, 0) (getPkg t pkg).heads die (pid, prio)) die = (pid, prio) := get_set_same _ _ _ _ hset
    have hne : { getPkg t pkg with heads := Sparse.set (0, 0) (getPkg t pkg).heads die (pid, prio) } ≠ ({} : Pkg) := fun h => by
      have hheads : Sparse.set (0, 0) (getPkg t pkg).heads die (pid, prio) = [] := congrArg Pkg.heads h
      rw [hheads] at hget
      exact hset hget.symm
    have hpkg := getPkg_modPkg (s := t) (pkg := pkg) (f := fun p => { p with heads := Sparse.set (0, 0) p.heads die (pid, prio) }) hne
    rw [h]
    refine ⟨rfl, rfl, fun q => ?_⟩
    change Sparse.get (0, 0) (getPkg (modPkg t pkg fun p => { p with heads := Sparse.set (0, 0) p.heads die (pid, prio) }) pkg).heads q = _
    rw [hpkg]
    by_cases hq : q = die
    · subst hq
      rw [if_pos rfl, if_pos hrise]
      exact hget
    · rw [if_neg hq]
      exact get_set_ne _ _ _ hq
  · rename_i hno
    refine ⟨rfl, rfl, fun q => ?_⟩
    split
    · rename_i hq
      subst hq
      exact (if_neg hno).symm
    · rfl

theorem ageDies_spec (prio : Nat) : ∀ (l : List Nat) (t : State), l.Nodup → (l.foldl (ageDie pkg pid a prio) t).cores = t.cores ∧
    (l.foldl (ageDie pkg pid a prio) t).mem = t.mem ∧ ∀ q, Sparse.get (0, 0) (getPkg (l.foldl (ageDie pkg pid a prio) t) pkg).heads q =
      if q ∈ l then agedHead pid prio (Sparse.get (0, 0) (getPkg t pkg).heads q) else Sparse.get (0, 0) (getPkg t pkg).heads q
  | [], t, _ => ⟨rfl, rfl, fun q => (if_neg (List.not_mem_nil)).symm⟩
  | die :: r, t, hnd => by
    obtain ⟨hdie, hr⟩ := List.nodup_cons.1 hnd
    obtain ⟨hcores, hmem, hheads⟩ := ageDie_spec (pkg := pkg) (pid := pid) (a := a) t prio die
    obtain ⟨ihcores, ihmem, ihheads⟩ := ageDies_spec prio r (ageDie pkg pid a prio t die) hr
    refine ⟨ihcores.trans hcores, ihmem.trans hmem, fun q => (ihheads q).trans ?_⟩
    rw [hheads]
    by_cases hq : q = die
    · subst hq
      rw [if_neg hdie, if_pos rfl, if_pos List.mem_cons_self]
    · rw [if_neg hq]
      exact if_congr (by simp [hq]) rfl rfl

theorem exec_priorityAging (ha : findArmed s (homeOf pid) pid = some a) :
    exec (.priorityAging pkg pid) s = .next ((List.range 4).foldl (ageDie pkg pid a (effPriority s a)) s) := by
  change execPriorityAging pkg pid s = _
  unfold execPriorityAging
  rw [ha]
  rfl

end

end Sys2Proof.Proofs
end

