-- ==== Sys2Proof/Proofs/PourLife.lean ====
section
/-! PROOF. The life of a pour: start, end, kill, checkpoint and restore (R27, R94, R301 to R304, R308 to R312). -/

namespace Sys2Proof.Proofs

open Sys2Proof Sys2Proof.Machine Sys2Proof.Claims Sys2Proof.Laws

-- What the pour's records and its entry change -----------------------------------------------------------------------------------------------------

section
variable {s : State}

theorem faultLog_rest (s : State) (pkg part rcb : Nat) (ws : List Word) : ∃ mem pkgs, faultLog s pkg part rcb ws = { s with mem := mem, pkgs := pkgs } := by
  unfold faultLog
  split
  · exact ⟨_, _, rfl⟩
  · dsimp only
    split
    · rw [hubWrite_eq]
      exact ⟨_, _, rfl⟩
    · rw [hubWrite_eq]
      exact ⟨_, _, rfl⟩

theorem traceRecord_rest (s : State) (k : Nat) (ws : List Word) : ∃ cores mem, traceRecord s k ws = { s with cores := cores, mem := mem } := by
  unfold traceRecord
  dsimp only
  split
  · exact ⟨_, _, rfl⟩
  · split
    · rw [hubWrite_eq]
      exact ⟨_, _, rfl⟩
    · exact ⟨_, _, rfl⟩

theorem insertRecord_rest (s : State) (k pos : Nat) (r : List Word) : ∃ cores mem, insertRecord s k pos r = { s with cores := cores, mem := mem } := by
  unfold insertRecord
  dsimp only
  split
  · exact ⟨_, _, rfl⟩
  · obtain ⟨cores, mem, h⟩ := traceRecord_rest (setCore s k { getCore s k with trace := _ }) k _
    rw [h]
    exact ⟨_, _, rfl⟩

theorem pourRecord_rest (s : State) (kind : Nat) (d : Domain) (dcc k : Nat) : ∃ cores mem, pourRecord s kind d dcc k = { s with cores := cores, mem := mem } := by
  unfold pourRecord
  split
  · exact insertRecord_rest ..
  · exact ⟨_, _, rfl⟩

theorem refillPool_rest (s : State) (pkg part : Nat) : ∃ pkgs, refillPool s pkg part = { s with pkgs := pkgs } := by
  unfold refillPool
  refine foldl_keeps (fun t => ∃ pkgs, t = { s with pkgs := pkgs }) _ ?_ _ _ ⟨s.pkgs, rfl⟩
  rintro t b ⟨pkgs, rfl⟩
  dsimp only
  split
  · split
    · exact ⟨_, rfl⟩
    · exact ⟨_, rfl⟩
  · exact ⟨_, rfl⟩

theorem dropArmed_rest (s : State) (pkg : Nat) (a : Armed) : ∃ pkgs, dropArmed s pkg a = { s with pkgs := pkgs } := by
  unfold dropArmed
  dsimp only
  obtain ⟨pkgs, h⟩ := refillPool_rest (modPkg s pkg fun p =>
    { p with parts := p.parts.map (fun x => (x.1, { x.2 with pool := x.2.pool.filter fun x => x.pid != a.pid }))
             waiting := p.waiting.filter fun x => x.pid != a.pid }) pkg a.part
  rw [h]
  exact ⟨_, rfl⟩

theorem failStart_rest (s : State) (pkg : Nat) (a : Armed) (code : Nat) : ∃ mem pkgs, failStart s pkg a code = { s with mem := mem, pkgs := pkgs } := by
  have hdrop : ∀ t : State, (∃ mem pkgs, t = { s with mem := mem, pkgs := pkgs }) → ∃ mem pkgs, dropArmed t pkg a = { s with mem := mem, pkgs := pkgs } := by
    rintro t ⟨mem, pkgs, rfl⟩
    obtain ⟨p, h⟩ := dropArmed_rest { s with mem := mem, pkgs := pkgs } pkg a
    exact ⟨mem, p, h⟩
  unfold failStart
  refine hdrop _ ?_
  split
  · exact faultLog_rest ..
  · exact ⟨_, _, rfl⟩

end

-- The image of a core (R304) ------------------------------------------------------------------------------------------------------------------------------

section
variable {m : List Word}

/-- One parameter word written to scratchpad. -/
def putParam (m : List Word) (mem : Memory) (i : Nat) : Memory :=
  let a := bits (mouldWord m 6) 0 21 + 8 * i
  if a + 8 ≤ 6 * 2 ^ 18 then Memory.writeNat mem a 8 (mouldWord m (8 + i)) else mem

theorem wf_putParam {mem : Memory} (h : Memory.wf mem = true) (i : Nat) : Memory.wf (putParam m mem i) = true := by
  unfold putParam
  dsimp only
  split
  · exact wf_writeNat _ _ _ _ h
  · exact h

theorem readNat_params {n i : Nat} (hin : i < n) (hfit : bits (mouldWord m 6) 0 21 + 8 * n ≤ 6 * 2 ^ 18) {mem : Memory} (hm : Memory.wf mem = true) :
    Memory.readNat ((List.range n).foldl (putParam m) mem) (bits (mouldWord m 6) 0 21 + 8 * i) 8 = mouldWord m (8 + i) := by
  induction n with
  | zero => exact absurd hin (Nat.not_lt_zero _)
  | succ n ih =>
    have hwf : Memory.wf ((List.range n).foldl (putParam m) mem) = true :=
      foldl_keeps (fun m => Memory.wf m = true) _ (by intro b i hb; exact wf_putParam hb i) _ _ hm
    have hword : mouldWord m (8 + i) < 256 ^ 8 := by
      rw [pow_256]
      exact (m.getD (8 + i) 0).isLt
    rw [List.range_succ, List.foldl_append, List.foldl_cons, List.foldl_nil]
    generalize (List.range n).foldl (putParam m) mem = base at *
    rw [putParam, if_pos (by omega)]
    by_cases hi : i = n
    · subst hi
      rw [readNat_writeNat _ _ _ _ hwf, Nat.mod_eq_of_lt hword]
    · rw [← ih (by omega) (by omega)]
      exact readNat_congr _ _ fun j hj => read_writeNat_out _ _ _ _ _ (by omega)

/-- The parameter words of a mould stand at PADDR. -/
theorem readNat_loadSpad {bytes : List (Nat × Byte)} {n i : Nat} (hfit : mouldWord m 6 % 2 ^ 21 + 128 ≤ 6 * 2 ^ 18) (hi : i < 16) (hn : i < n) :
    Memory.readNat (loadSpad bytes n m) (mouldWord m 6 % 2 ^ 21 + 8 * i) 8 = mouldWord m (8 + i) := by
  have haddr : bits (mouldWord m 6) 0 21 = mouldWord m 6 % 2 ^ 21 := by rw [bits, pow_zero, Nat.div_one]
  rw [← haddr] at hfit ⊢
  exact readNat_params (by omega) (by omega)
    (foldl_keeps (fun m => Memory.wf m = true) _ (by intro b x hb; exact wf_write _ _ _ hb) _ _ (by decide))

end

-- The start of a pour (R304) ---------------------------------------------------------------------------------------------------------------------------------

section
variable {s : State} {pkg pid k : Nat} {a : Armed} {images : List Config.CoreImage}

/-- A core just loaded, but for its trace and debug stops. -/
def Loaded (watch : BitVec 16384) (pid : Nat) (im : Config.CoreImage) (m : List Word) (c : CoreState) : Prop :=
  ∃ old ranges l b1 b2, old.watch = watch ∧ c = { loadCore old pid im m ranges with trace := l, stopReq := b1, stopTaken := b2 }

theorem keptByDebug_loaded (watch : BitVec 16384) (pid : Nat) (im : Config.CoreImage) (m : List Word) : KeptByDebug (Loaded watch pid im m) where
  trace := by
    rintro c l ⟨old, ranges, l', b1, b2, hw, rfl⟩
    exact ⟨old, ranges, l, b1, b2, hw, rfl⟩
  stops := by
    rintro c b1 b2 ⟨old, ranges, l, b1', b2', hw, rfl⟩
    exact ⟨old, ranges, l, b1, b2, hw, rfl⟩

theorem loaded_watch {watch : BitVec 16384} {im : Config.CoreImage} {m : List Word} {c : CoreState} (h : Loaded watch pid im m c) : c.watch = watch := by
  obtain ⟨old, _, _, _, _, hw, rfl⟩ := h
  exact hw

/-- The image that a pour's start gives a core. -/
def imageOf (d : Domain) (images : List Config.CoreImage) (k : Nat) : Config.CoreImage := images.getD (relOf d k) ⟨[], [], [], [], [], [], 0⟩

/-- A core of a starting pour loads. -/
def startCore (d : Domain) (m : List Word) (images : List Config.CoreImage) (s : State) (k : Nat) : State :=
  setCore s k (loadCore (getCore s k) d.pid (imageOf d images k) m (startTable s k d.asid))

theorem startCores_loaded {d : Domain} {m : List Word} {w : BitVec 16384} : ∀ (l : List Nat) (t : State), Tidy t → (getCore t k).watch = w →
    (k ∈ l ∨ Loaded w d.pid (imageOf d images k) m (getCore t k)) → CoreHas (Loaded w d.pid (imageOf d images k) m) k (l.foldl (startCore d m images) t)
  | [], t, ht, _, h => ⟨ht, h.resolve_left (List.not_mem_nil)⟩
  | x :: r, t, ht, hw, h => by
    have htidy : Tidy (startCore d m images t x) := tidy_setCore ht tidyCore_loadCore
    by_cases hx : k = x
    · subst hx
      have hload : Loaded w d.pid (imageOf d images k) m (getCore (startCore d m images t k) k) := by
        rw [startCore, getCore_setCore_wf _ _ _ ht.cores]
        exact ⟨getCore t k, startTable t k d.asid, (getCore t k).trace, false, false, hw, rfl⟩
      exact startCores_loaded r _ htidy (loaded_watch hload) (.inr hload)
    · have hsame : getCore (startCore d m images t x) k = getCore t k := getCore_setCore_ne _ _ hx
      exact startCores_loaded r _ htidy (by rw [hsame]; exact hw) (by rw [hsame]; exact h.imp_left fun h => (List.mem_cons.1 h).resolve_left hx)

theorem startCores_rest {d : Domain} {m : List Word} (l : List Nat) (s : State) : ∃ cores, l.foldl (startCore d m images) s = { s with cores := cores } :=
  foldl_rest (fun _ _ => ⟨_, rfl⟩) l s

/-- A starting pour as its records and thermal causes find it. -/
def started (s : State) (d : Domain) (m : List Word) (images : List Config.CoreImage) : State :=
  (d.pkgs.filter (fun p => (getPkg (d.all.foldl (fun s k => pourRecord s 6 d 0 k)
      { d.all.foldl (startCore d m images) s with domains := (d.all.foldl (startCore d m images) s).domains ++ [d] }) p).thermal)).foldl
    (fun s p => raiseCause s d.pid ⟨3, coreIn d p, ccSt, .cc, 0, 0, { kind := 7 }, false⟩)
    (d.all.foldl (fun s k => pourRecord s 6 d 0 k)
      { d.all.foldl (startCore d m images) s with domains := (d.all.foldl (startCore d m images) s).domains ++ [d] })

theorem beginPour_eq (s : State) (pkg : Nat) (a : Armed) (images : List Config.CoreImage) :
    beginPour s pkg a images = dropArmed (started s (newDomain s pkg a) a.mould images) pkg a := rfl

/-- A domain of a new pour stands, whatever causes are raised on it. -/
def StandsFor (d : Domain) (t : State) : Prop := ∃ e ∈ t.domains, e.pid = d.pid ∧ e.dcc = d.dcc ∧ e.cores = d.cores ∧ e.pairs = d.pairs ∧ e.mould = d.mould ∧ e.h = d.h

theorem StandsFor.raiseCause {d : Domain} {t : State} (h : StandsFor d t) (p : Nat) (c : Cause) : StandsFor d (raiseCause t p c) := by
  obtain ⟨e, he, hsame⟩ := h
  refine ⟨_, List.mem_map_of_mem he, ?_⟩
  split
  · dsimp only
    split <;> exact hsame
  · exact hsame

theorem pourRecords_rest (kind : Nat) (d : Domain) (dcc : Nat) (l : List Nat) (s : State) :
    ∃ cores mem, l.foldl (fun s k => pourRecord s kind d dcc k) s = { s with cores := cores, mem := mem } := by
  refine foldl_keeps (fun t => ∃ cores mem, t = { s with cores := cores, mem := mem }) _ ?_ _ _ ⟨s.cores, s.mem, rfl⟩
  rintro t k ⟨cores, mem, rfl⟩
  obtain ⟨c2, m2, h⟩ := pourRecord_rest { s with cores := cores, mem := mem } kind d dcc k
  exact ⟨c2, m2, h⟩

theorem CoreHas.pourRecords {P : CoreState → Prop} (hP : KeptByDebug P) {t : State} (h : CoreHas P k t) (kind : Nat) (d : Domain) (dcc : Nat)
    (l : List Nat) : CoreHas P k (l.foldl (fun s k => pourRecord s kind d dcc k) t) := by
  refine h.foldl fun u q _ hu => ?_
  unfold pourRecord
  split
  · exact CoreHas.insertRecord hP hu ..
  · exact hu

theorem raiseCauses_clock {α : Type} (g : α → Nat × Cause) (l : List α) (s : State) : (l.foldl (fun s x => raiseCause s (g x).1 (g x).2) s).clock = s.clock :=
  foldl_keeps (fun t => t.clock = s.clock) _ (by intro t x h; exact h) l s rfl

theorem started_core (ht : Tidy s) (d : Domain) (m : List Word) (hk : k ∈ d.all) :
    CoreHas (Loaded (getCore s k).watch d.pid (imageOf d images k) m) k (started s d m images) := by
  have hload := startCores_loaded (images := images) (d := d) (m := m) d.all s ht rfl (.inl hk)
  have hnew : CoreHas (Loaded (getCore s k).watch d.pid (imageOf d images k) m) k
      { d.all.foldl (startCore d m images) s with domains := (d.all.foldl (startCore d m images) s).domains ++ [d] } :=
    hload.sameCores rfl ⟨hload.tidy.form⟩
  exact (CoreHas.pourRecords (keptByDebug_loaded _ _ _ _) hnew 6 d 0 d.all).foldl fun t p _ h => h.raiseCause _ _

theorem started_domain (s : State) (d : Domain) (m : List Word) (images : List Config.CoreImage) :
    StandsFor d (started s d m images) ∧ (started s d m images).clock = s.clock := by
  obtain ⟨cores, hcores⟩ := startCores_rest (images := images) (d := d) (m := m) d.all s
  obtain ⟨c2, m2, hrec⟩ := pourRecords_rest 6 d 0 d.all { d.all.foldl (startCore d m images) s with domains := (d.all.foldl (startCore d m images) s).domains ++ [d] }
  unfold started
  rw [hrec, hcores]
  constructor
  · refine foldl_keeps (StandsFor d) _ (by intro t p h; exact h.raiseCause _ _) _ _ ?_
    exact ⟨d, List.mem_append_right _ List.mem_cons_self, rfl, rfl, rfl, rfl, rfl, rfl⟩
  · exact raiseCauses_clock (fun p => (d.pid, ⟨3, coreIn d p, ccSt, .cc, 0, 0, { kind := 7 }, false⟩)) _ _

/-- The image that a mould names. -/
def imageFor (s : State) (pkg : Nat) (a : Armed) : Option (List Config.CoreImage) := Config.pourImage s.mem (pkg * 2 ^ 39 + mouldWord a.mould 2 % 2 ^ 39)

theorem exec_pourStart_fails (ha : findArmed s pkg pid = some a) (hadm : a.admitted = true) (hfresh : a.restore = none) {code : Nat}
    (hfault : startFault s pkg a (imageFor s pkg a) = some code) : exec (.pourStart pkg pid) s = .next (failStart s pkg a code) := by
  unfold imageFor at hfault
  change execPourStart pkg pid s = _
  unfold execPourStart
  rw [ha]
  dsimp only
  rw [hadm, hfresh, if_neg (by decide), hfault]

theorem exec_pourStart_begins (ha : findArmed s pkg pid = some a) (hadm : a.admitted = true) (hfresh : a.restore = none)
    {images : List Config.CoreImage} (himage : imageFor s pkg a = some images) (hfault : startFault s pkg a (imageFor s pkg a) = none) :
    exec (.pourStart pkg pid) s = .next (beginPour s pkg a images) := by
  unfold imageFor at hfault himage
  change execPourStart pkg pid s = _
  unfold execPourStart
  rw [ha]
  dsimp only
  rw [hadm, hfresh, if_neg (by decide), hfault, himage]
  rfl

end

-- The end of a pour (R302, R309) ------------------------------------------------------------------------------------------------------------------------------

section
variable {s : State} {pid : Nat} {d : Domain}

/-- The pour is no more: no domain has its identifier, and its cores run none. -/
def Gone (pid : Nat) (d : Domain) (t : State) : Prop := findDom t pid = none ∧ ∀ k ∈ d.all, (getCore t k).pid = 0

theorem gone_removeDomain (ht : Tidy s) (hd : findDom s pid = some d) : Gone pid d (removeDomain s pid) :=
  ⟨findDom_removeDomain s pid, fun _ hk => getCore_removeDomain_pid ht hd hk⟩

theorem Gone.same {t u : State} (h : Gone pid d t) (hdomains : u.domains = t.domains) (hcores : u.cores = t.cores) : Gone pid d u := by
  refine ⟨?_, fun k hk => by rw [getCore_sameCores hcores]; exact h.2 k hk⟩
  unfold findDom
  rw [hdomains]
  exact h.1

theorem armSuccessor_rest (s : State) (d : Domain) (no : Nat) : ∃ mem pkgs, armSuccessor s d no = { s with mem := mem, pkgs := pkgs } := by
  have harm : ∃ mem pkgs, (armMould s d.home d.part no).1 = { s with mem := mem, pkgs := pkgs } := by
    unfold armMould
    dsimp only
    split
    · exact ⟨_, _, rfl⟩
    · split
      · exact ⟨_, _, rfl⟩
      · split
        · exact ⟨_, _, rfl⟩
        · exact ⟨_, _, rfl⟩
  unfold armSuccessor
  dsimp only
  split
  · exact faultLog_rest ..
  · split
    · exact harm
    · split
      · exact ⟨_, _, rfl⟩
      · exact faultLog_rest ..

theorem armSuccessors_rest (d : Domain) (l : List Nat) (s : State) :
    ∃ mem pkgs, l.foldl (fun s no => armSuccessor s d no) s = { s with mem := mem, pkgs := pkgs } := by
  refine foldl_keeps (fun t => ∃ mem pkgs, t = { s with mem := mem, pkgs := pkgs }) _ ?_ _ _ ⟨s.mem, s.pkgs, rfl⟩
  rintro t no ⟨mem, pkgs, rfl⟩
  obtain ⟨m2, p2, h⟩ := armSuccessor_rest { s with mem := mem, pkgs := pkgs } d no
  exact ⟨m2, p2, h⟩

/-- A pour that has run to its end is no more. -/
theorem exec_pourEnd (ht : Tidy s) (hd : findDom s pid = some d) (hrun : d.status = .run) (hdone : ∀ k ∈ d.all, coreDone (getCore s k) = true) :
    ∃ t, exec (.pourEnd pid) s = .next t ∧ Gone pid d t := by
  change ∃ t, execPourEnd pid s = .next t ∧ _
  unfold execPourEnd
  rw [hd]
  dsimp only
  rw [if_pos ⟨hrun, List.all_eq_true.2 hdone⟩]
  obtain ⟨cores, mem, hrec⟩ := pourRecords_rest 7 d (d.dcc - 1) d.all s
  have htidy : Tidy (d.all.foldl (fun s k => pourRecord s 7 d (d.dcc - 1) k) s) := tidy_foldl (fun s k h => tidy_pourRecord h) ht
  have hfind : findDom (d.all.foldl (fun s k => pourRecord s 7 d (d.dcc - 1) k) s) pid = some d := by
    rw [hrec]
    exact hd
  obtain ⟨m2, p2, hsucc⟩ := armSuccessors_rest d (successors d.mould) (removeDomain (d.all.foldl (fun s k => pourRecord s 7 d (d.dcc - 1) k) s) pid)
  refine ⟨_, rfl, ?_⟩
  rw [hsucc]
  exact (gone_removeDomain htidy hfind).same rfl rfl

theorem exec_pourEnd_waits (hd : findDom s pid = some d) (hno : ¬ (d.status = .run ∧ ∀ k ∈ d.all, coreDone (getCore s k) = true)) :
    exec (.pourEnd pid) s = .next s := by
  change execPourEnd pid s = _
  unfold execPourEnd
  rw [hd]
  dsimp only
  rw [if_neg fun h => hno ⟨h.1, List.all_eq_true.1 h.2⟩]

theorem spendToken_rest (s : State) (d : Domain) : ∃ mem, spendToken s d = { s with mem := mem } := by
  unfold spendToken
  split
  · exact ⟨_, rfl⟩
  · dsimp only
    split
    · exact ⟨_, rfl⟩
    · rw [hubWrite_eq]
      exact ⟨_, rfl⟩

/-- A kill ends a frozen pour. -/
theorem exec_pourKill (ht : Tidy s) (hd : findDom s pid = some d) {tok : Nat} (hkill : d.schedStop = some (.kill tok)) (hheld : d.status = .held) :
    ∃ t, exec (.pourKill pid) s = .next t ∧ Gone pid d t := by
  change ∃ t, execPourKill pid s = .next t ∧ _
  unfold execPourKill
  rw [hd]
  dsimp only
  rw [hkill]
  dsimp only
  rw [if_pos (.inl hheld)]
  refine ⟨_, rfl, gone_removeDomain (tidy_faultLog (tidy_spendToken ht)) ?_⟩
  obtain ⟨mem, hspend⟩ := spendToken_rest s d
  unfold findDom
  rw [faultLog_domains, hspend]
  exact hd

theorem exec_pourKill_waits (hd : findDom s pid = some d) {tok : Nat} (hkill : d.schedStop = some (.kill tok)) (hrun : d.status = .run) :
    exec (.pourKill pid) s = .next s := by
  change execPourKill pid s = _
  unfold execPourKill
  rw [hd]
  dsimp only
  rw [hkill]
  dsimp only
  rw [if_neg (by rw [hrun]; decide)]

end

-- Checkpoint (R310, R311) --------------------------------------------------------------------------------------------------------------------------------------

section
variable {s : State} {pid : Nat} {d : Domain}

theorem saveHeader_rest (s : State) (d : Domain) (area rtt : Nat) : ∃ mem, saveHeader s d area rtt = { s with mem := mem } := by
  unfold saveHeader
  rw [hubWrite_eq]
  exact ⟨_, rfl⟩

theorem saveSlots_rest (d : Domain) (area : Nat) (l : List Nat) (s : State) :
    ∃ mem free, l.foldl (fun s k => saveSlot s d area k) s = { s with mem := mem, free := free } := by
  refine foldl_keeps (fun t => ∃ mem free, t = { s with mem := mem, free := free }) _ ?_ _ _ ⟨s.mem, s.free, rfl⟩
  rintro t k ⟨mem, free, rfl⟩
  unfold saveSlot
  rw [hubWrite_eq]
  exact ⟨_, _, rfl⟩

theorem removeDomain_pkgs (s : State) (pid : Nat) : (removeDomain s pid).pkgs = s.pkgs ∧ (removeDomain s pid).saved = s.saved := by
  unfold removeDomain
  split
  · exact ⟨rfl, rfl⟩
  · rename_i d _
    obtain ⟨cores, h⟩ := foldl_rest (g := fun s k => modCore s k idleCore) (fun _ _ => ⟨_, rfl⟩) d.all (finishPuts s d)
    dsimp only
    rw [h]
    exact ⟨rfl, rfl⟩

/-- A pour joins the waiting list. -/
def addWaiting (a : Armed) (p : Pkg) : Pkg := { p with waiting := p.waiting ++ [a] }

/-- What is kept of a pour beside the bytes of its checkpoint. -/
def savedOf (s : State) (d : Domain) (pid : Nat) : Saved :=
  ⟨ckptArea s d d.home, pid, d, (List.range d.cores.length).map (fun i => (i, savedCore (getCore s (d.cores.getD i 0)))), false⟩

/-- A checkpointed pour as it waits for its restore. -/
def waitingOf (s : State) (d : Domain) (pid since : Nat) : Armed :=
  { pid := pid, part := d.part, mouldNo := d.mouldNo, mould := d.mould, entry := 64, since := since, floor := d.priority
    restore := some (ckptArea s d d.home) }

/-- The state once a checkpointed pour has joined the waiting list. -/
def rejoined (s : State) (d : Domain) (pid : Nat) (t : State) : State := modPkg t d.home (addWaiting (waitingOf s d pid t.clock))

theorem tidy_keepSaved (ht : Tidy s) {t : State} (h : Tidy t) : Tidy { t with saved := keepSaved s.saved (savedOf s d pid) } := by
  refine h.setSaved fun v hv => ?_
  rcases List.mem_cons.1 hv with rfl | hv
  · refine List.all_eq_true.2 fun x hx => ?_
    obtain ⟨i, -, rfl⟩ := List.mem_map.1 hx
    exact (tidyCore_savedCore (ht.core _)).form
  · obtain ⟨x, hx, rfl⟩ := List.mem_map.1 hv
    have hform := ht.saved x (List.mem_of_mem_filter hx)
    split <;> exact hform

/-- A checkpoint saves a frozen pour, which is then no more, and waits again. -/
theorem exec_checkpointSave (ht : Tidy s) (hd : findDom s pid = some d) {i p tok : Nat} (hckpt : d.schedStop = some (.checkpoint i p tok))
    (hheld : d.status = .held) (hstop : d.stopAt ≠ none) (hsound : d.doomed = false) (hquiet : transfersPending s d = false)
    (hrepaired : awaitsRepair s d = false) : ∃ t, exec (.checkpointSave pid) s = .next t ∧ Gone pid d t ∧
      t.saved = keepSaved s.saved (savedOf s d pid) ∧ ∃ since l, (getPkg t d.home).waiting = l ++ [waitingOf s d pid since] := by
  change ∃ t, execCheckpointSave pid s = .next t ∧ _
  unfold execCheckpointSave
  rw [hd]
  dsimp only
  rw [hckpt]
  dsimp only
  have hgo : ¬ (d.status ≠ .held ∨ d.stopAt.isNone = true ∨ d.doomed = true ∨ transfersPending s d = true ∨ awaitsRepair s d = true) := by
    rw [hheld, hsound, hquiet, hrepaired]
    simpa using hstop
  rw [if_neg hgo]
  obtain ⟨mem, hhead⟩ := saveHeader_rest s d (ckptArea s d d.home) i
  obtain ⟨m2, free, hslots⟩ := saveSlots_rest d (ckptArea s d d.home) d.cores (saveHeader s d (ckptArea s d d.home) i)
  have hslotted : Tidy (d.cores.foldl (fun t k => saveSlot t d (ckptArea s d d.home) k) (saveHeader s d (ckptArea s d d.home) i)) :=
    tidy_foldl (fun t k h => tidy_saveSlot h) (tidy_saveHeader ht)
  rw [hslots, hhead] at hslotted ⊢
  dsimp only at hslotted ⊢
  have hkept : Tidy { s with mem := m2, free := free, saved := keepSaved s.saved (savedOf s d pid) } := tidy_keepSaved ht hslotted
  obtain ⟨m3, pkgs, hlog⟩ := faultLog_rest { s with mem := m2, free := free, saved := keepSaved s.saved (savedOf s d pid) } d.home d.part d.region
    (logRecord { s with mem := m2, free := free, saved := keepSaved s.saved (savedOf s d pid) } 4 0 d.home 0 pid d.asid d.mouldNo [] (d.freeze.getD d.dcc))
  have htidy := tidy_faultLog (pkg := d.home) (part := d.part) (rcb := d.region)
    (ws := logRecord { s with mem := m2, free := free, saved := keepSaved s.saved (savedOf s d pid) } 4 0 d.home 0 pid d.asid d.mouldNo [] (d.freeze.getD d.dcc)) hkept
  rw [hlog] at htidy
  obtain ⟨hpkgs, hsaved⟩ := removeDomain_pkgs { s with mem := m3, free := free, saved := keepSaved s.saved (savedOf s d pid), pkgs := pkgs } pid
  refine ⟨rejoined s d pid (removeDomain { s with mem := m3, free := free, saved := keepSaved s.saved (savedOf s d pid), pkgs := pkgs } pid),
    congrArg (fun t => Host.Outcome.next (rejoined s d pid (removeDomain t pid))) hlog, (gone_removeDomain htidy hd).same rfl rfl, hsaved, _, _,
    congrArg Pkg.waiting (getPkg_modPkg (f := addWaiting (waitingOf s d pid _)) ?_)⟩
  exact ne_empty_of_pool (a := waitingOf s d pid _) (List.mem_append_right _ (List.mem_append_right _ List.mem_cons_self))

end

-- Restore (R312) --------------------------------------------------------------------------------------------------------------------------------------------------

section
variable {s : State} {pkg pid k : Nat} {a : Armed}

/-- A window of memory moved to zero. -/
theorem read_shifted (slot n x : Nat) (hx : x < n) : ∀ m : Memory,
    Memory.read ((m.filter (fun y => decide (slot ≤ y.1 ∧ y.1 < slot + n))).map (fun y => (y.1 - slot, y.2))) x = Memory.read m (slot + x)
  | [] => rfl
  | (b, v) :: r => by
    have ih := read_shifted slot n x hx r
    unfold Memory.read at ih ⊢
    by_cases hin : slot ≤ b ∧ b < slot + n
    · rw [List.filter_cons_of_pos (by simpa using hin), List.map_cons, Sparse.get, Sparse.get, ih]
      exact if_congr (by omega) rfl rfl
    · rw [List.filter_cons_of_neg (by simpa using hin), ih, Sparse.get, if_neg (by omega)]

/-- A core that a slot's bytes have brought back: its scratchpad and its mirror of the DCC. -/
def BroughtBack (m : Memory) (slot : Nat) (c : CoreState) : Prop :=
  c.dcc = (Memory.word m (slot + 0x1A4010)).toNat ∧ ∀ x, x < 0x180000 → Memory.read c.spad x = Memory.read m (slot + x)

theorem broughtBack_restoreCore (m : Memory) (slot : Nat) (old : CoreState) (d0 d : Domain) (c : CoreState) (ranges : Sparse RangeEntry) :
    BroughtBack m slot (restoreCore m slot old d0 d c ranges) := ⟨rfl, fun x hx => read_shifted slot 0x180000 x hx m⟩

/-- The core that a checkpoint kept. -/
def keptCore (v : Saved) (d : Domain) (k : Nat) : CoreState := ((v.cores.find? (fun x => x.1 == relOf d k)).map Prod.snd).getD {}

/-- A core is brought back from its slot. -/
def bringBack (v : Saved) (area : Nat) (d : Domain) (s : State) (k : Nat) : State :=
  setCore s k (restoreCore s.mem (slotAt area (relOf d k)) (getCore s k) v.dom d (keptCore v d k) (startTable s k d.asid))

theorem tidyCore_keptCore {v : Saved} (hv : ∀ x ∈ v.cores, tidyCore x.2 = true) (d : Domain) (k : Nat) : TidyCore (keptCore v d k) := by
  unfold keptCore
  cases h : v.cores.find? (fun x => x.1 == relOf d k) with
  | none => exact TidyCore.empty
  | some x => exact ⟨hv x (List.mem_of_find?_eq_some h)⟩

theorem bringBack_all {v : Saved} (hv : ∀ x ∈ v.cores, tidyCore x.2 = true) {area : Nat} {d : Domain} {m : Memory} :
    ∀ (l : List Nat) (t : State), Tidy t → t.mem = m → (k ∈ l ∨ BroughtBack m (slotAt area (relOf d k)) (getCore t k)) →
      BroughtBack m (slotAt area (relOf d k)) (getCore (l.foldl (bringBack v area d) t) k)
  | [], _, _, _, h => h.resolve_left (List.not_mem_nil)
  | x :: r, t, ht, hm, h => by
    have htidy : Tidy (bringBack v area d t x) := tidy_setCore ht (tidyCore_restoreCore ht.mem (tidyCore_keptCore hv d x))
    refine bringBack_all hv r _ htidy hm ?_
    by_cases hx : k = x
    · subst hx
      refine .inr ?_
      rw [bringBack, getCore_setCore_wf _ _ _ ht.cores, hm]
      exact broughtBack_restoreCore ..
    · rw [bringBack, getCore_setCore_ne _ _ hx]
      exact h.imp_left fun h => (List.mem_cons.1 h).resolve_left hx

/-- The records of checkpoints once one of them is restored. -/
def markRestored (pid : Nat) (v : Saved) (l : List Saved) : List Saved := l.map (fun x => if x.pid = pid ∧ x.f = v.f then { x with restored := true } else x)

theorem tidy_markRestored (ht : Tidy s) (v : Saved) : Tidy { s with saved := markRestored pid v s.saved } :=
  ht.setSaved fun x hx => by
    obtain ⟨y, hy, rfl⟩ := List.mem_map.1 hx
    have hform := ht.saved y hy
    split <;> exact hform

/-- A state whose cores are brought back takes the restored domain in. -/
def revived (a : Armed) (v : Saved) (n : Domain) (area : Nat) (t : State) : State :=
  let d := restoredDomain t a v n (Memory.word t.mem (area + 16)).toNat (Memory.word t.mem (area + 40)).toNat
  { t with domains := t.domains ++ [{ d with slackDone := d.freeze.getD 0 }] }

/-- A restore brings a pour back, held at the cycle that its area's header gives. -/
theorem exec_pourRestore (ht : Tidy s) (ha : findArmed s pkg pid = some a) (hadm : a.admitted = true) {area : Nat} (harea : a.restore = some area)
    {v : Saved} (hv : savedAt s area = some v) (hpid : v.pid = pid) (hcores : a.cores.length = mPkgs a.mould * mNeed a.mould) :
    ∃ t, exec (.pourRestore pkg pid) s = .next t ∧ t.mem = s.mem ∧
      (∃ e ∈ t.domains, e.pid = pid ∧ e.freeze = some (Memory.word s.mem (area + 16)).toNat ∧ e.holdClocks = v.dom.holdClocks ∧ e.heldAt = s.clock ∧
        (e.status = .held ∨ e.status = .catchUp)) ∧
      ∀ k ∈ (newDomain s pkg a).all, BroughtBack s.mem (slotAt area (relOf (newDomain s pkg a) k)) (getCore t k) := by
  have hstored : ∀ x ∈ v.cores, tidyCore x.2 = true := List.all_eq_true.1 (ht.saved v (List.mem_of_find?_eq_some hv))
  have hall : ∀ k ∈ (newDomain s pkg a).all, BroughtBack s.mem (slotAt area (relOf (newDomain s pkg a) k))
      (getCore ((newDomain s pkg a).all.foldl (bringBack v area (newDomain s pkg a)) { s with saved := markRestored pid v s.saved }) k) :=
    fun k hk => bringBack_all hstored _ _ (tidy_markRestored ht v) rfl (.inl hk)
  obtain ⟨cores, hrest⟩ := foldl_rest (g := bringBack v area (newDomain s pkg a)) (fun _ _ => ⟨_, rfl⟩) (newDomain s pkg a).all
    { s with saved := markRestored pid v s.saved }
  change ∃ t, execPourRestore pkg pid s = .next t ∧ _
  unfold execPourRestore
  rw [ha]
  dsimp only
  rw [hadm, if_neg (by decide), harea]
  dsimp only
  rw [hv]
  dsimp only
  rw [if_neg (by rw [hpid, hcores]; simp)]
  refine ⟨dropArmed (revived a v (newDomain s pkg a) area ((newDomain s pkg a).all.foldl (bringBack v area (newDomain s pkg a))
    { s with saved := markRestored pid v s.saved })) pkg a, rfl, ?_⟩
  rw [hrest] at hall ⊢
  obtain ⟨pkgs, hdrop⟩ := dropArmed_rest (revived a v (newDomain s pkg a) area { s with saved := markRestored pid v s.saved, cores := cores }) pkg a
  rw [hdrop]
  refine ⟨rfl, ⟨_, List.mem_append_right _ List.mem_cons_self, (mem_of_findArmed ha).2, rfl, rfl, rfl, ?_⟩, hall⟩
  dsimp only [restoredDomain]
  split
  · exact .inr rfl
  · exact .inl rfl

end

-- The clauses together ----------------------------------------------------------------------------------------------------------------------------------------------

/-- A checkpoint's record stands first; a record of another pour and another area stays as it is. -/
theorem mem_keepSaved {l : List Saved} {v x : Saved} (hx : x ∈ l) (hpid : x.pid ≠ v.pid) (harea : x.area ≠ v.area) :
    ∃ r, keepSaved l v = v :: r ∧ x ∈ r :=
  ⟨_, rfl, List.mem_map.2 ⟨x, List.mem_filter.2 ⟨hx, by simp [hpid]⟩, if_neg harea⟩⟩

/-- Settles O56: a round's walk changes packages, domains and the agenda alone; a start and a restore load every core of the new domain; an
end, a kill and a checkpoint free the cores. -/
theorem schedulingEvents : Obligations.SchedulingEvents := by
  unfold Obligations.SchedulingEvents
  intro s pkg die pid htidy
  have ht : Tidy s := ⟨htidy⟩
  refine ⟨?_, ?_, ?_, ?_, ?_, ?_, ?_, ?_, ?_⟩
  · intro prio a cores hrank hfind hhome harm hstart hspan hplace hfits
    subst hhome
    have hwalk : (ranking s (homeOf a.pid) die).foldl (walkOne (homeOf a.pid) die) (s, none) = (admitOn s a cores, none) := by
      rw [hrank, List.foldl_cons, List.foldl_nil, walkOne_admits hfind harm hstart hspan hplace hfits]
    have hafter : findArmed (admitOn s a cores) (homeOf a.pid) a.pid = some { a with cores := cores, admitted := true } := by
      refine (findArmed_modArmed (f := fun a => { a with cores := cores, admitted := true }) (by intro x; rfl) hfind).trans ?_
      rw [if_pos rfl, changeArmed, if_pos rfl]
    obtain ⟨pkgs, domains, hrest⟩ := sameBesidePkgs_roundEnd s (homeOf a.pid) die (admitOn s a cores)
    refine ⟨_, round_noHead hwalk, by rw [hrest]; rfl, by rw [hrest]; rfl, by rw [hrest]; rfl, _, findArmed_roundEnd hafter (.inr ⟨rfl, rfl⟩), rfl, rfl, rfl⟩
  · intro prio a mine hrank hfind hhome harm hstart hspan hready hplace hfits hhead
    have hwalk : (ranking s pkg die).foldl (walkOne pkg die) (s, none) = (reserveIn s pkg a mine, none) := by
      rw [hrank, List.foldl_cons, List.foldl_nil, walkOne_reserves hfind hhome harm hstart hspan hready hplace hfits]
    obtain ⟨pkgs, domains, hrest⟩ := sameBesidePkgs_roundEnd s pkg die (reserveIn s pkg a mine)
    exact ⟨_, _, round_noHead hwalk, by rw [hrest]; rfl, by rw [hrest]; rfl, findArmed_roundEnd (findArmed_reserveIn_own hfind) (.inl hhead.symm), rfl, rfl⟩
  · intro a cores hspan hplace
    exact placeFree_die hspan hplace
  · intro hrank
    have hwalk : (ranking s pkg die).foldl (walkOne pkg die) (s, none) = (s, none) := by rw [hrank, List.foldl_nil]
    obtain ⟨pkgs, domains, hrest⟩ := sameBesidePkgs_roundEnd s pkg die s
    exact ⟨_, round_noHead hwalk, by rw [hrest], by rw [hrest], by rw [hrest]⟩
  · intro a hfind
    obtain ⟨hcores, hmem, hheads⟩ := ageDies_spec (pkg := pkg) (pid := pid) (a := a) (effPriority s a) (List.range 4) s (List.nodup_range)
    refine ⟨_, exec_priorityAging hfind, hcores, hmem, fun q hq => ?_⟩
    rw [hheads, if_pos (List.mem_range.2 hq)]
    rfl
  · intro a hfind hno
    constructor
    · change execPourStart pkg pid s = _
      unfold execPourStart
      rw [hfind]
      exact congrArg Host.Outcome.next (if_pos (.inl hno))
    · change execPourRestore pkg pid s = _
      unfold execPourRestore
      rw [hfind]
      exact congrArg Host.Outcome.next (if_pos hno)
  · intro a hfind hadm hfresh
    refine ⟨fun l himage hfault => ?_, fun code hfault => ?_⟩
    · obtain ⟨hstands, hclock⟩ := started_domain s (newDomain s pkg a) a.mould l
      obtain ⟨pkgs, hdrop⟩ := dropArmed_rest (started s (newDomain s pkg a) a.mould l) pkg a
      refine ⟨_, exec_pourStart_begins hfind hadm hfresh himage hfault, ?_⟩
      rw [beginPour_eq, hdrop]
      refine ⟨hclock, hstands, fun k hk => ?_⟩
      obtain ⟨old, ranges, trace, b1, b2, hwatch, hcore⟩ := (started_core (images := l) (m := a.mould) ht (newDomain s pkg a) hk).holds
      have hget : getCore { started s (newDomain s pkg a) a.mould l with pkgs := pkgs } k =
          { loadCore old (newDomain s pkg a).pid (imageOf (newDomain s pkg a) l k) a.mould ranges with trace := trace, stopReq := b1, stopTaken := b2 } := hcore
      rw [hget]
      refine ⟨rfl, rfl, rfl, rfl, rfl, rfl, rfl, rfl, rfl, rfl, rfl, rfl, rfl, rfl, rfl, rfl, rfl, rfl, rfl, rfl, rfl, rfl, hwatch, fun hfit i hi hn => ?_⟩
      exact readNat_loadSpad hfit hi hn
    · obtain ⟨mem, pkgs, hfail⟩ := failStart_rest s pkg a code
      exact ⟨_, exec_pourStart_fails hfind hadm hfresh hfault, by rw [hfail], by rw [hfail]⟩
  · intro d hd
    refine ⟨fun hdone => exec_pourEnd ht hd hdone.1 hdone.2, exec_pourEnd_waits hd, fun tok hkill =>
      ⟨exec_pourKill ht hd hkill, exec_pourKill_waits hd hkill⟩, fun i p tok hckpt hheld hstop hsound hquiet hwhole => ?_⟩
    have hrepaired : awaitsRepair s d = false := by
      rcases hwhole with hsave | hnone
      · rw [awaitsRepair, hsave]
        rfl
      · rw [awaitsRepair, List.any_eq_false.2 fun k hk => by rw [hnone k hk]; decide, Bool.and_false]
    obtain ⟨t, hexec, hgone, hsaved, since, l, hwaiting⟩ := exec_checkpointSave ht hd hckpt hheld hstop hsound hquiet hrepaired
    refine ⟨t, hexec, hgone, ⟨savedOf s d pid, _, hsaved, rfl, rfl, rfl, rfl, fun x hx hpid harea => ?_, fun n hn => ?_⟩,
      waitingOf s d pid since, l, hwaiting, rfl, rfl, rfl, rfl⟩
    · obtain ⟨r, hr, hxr⟩ := mem_keepSaved (v := savedOf s d pid) hx hpid harea
      exact (List.cons.inj hr).2 ▸ hxr
    · have hlen : n < ((List.range d.cores.length).map fun i => (i, savedCore (getCore s (d.cores.getD i 0)))).length := by
        rw [List.length_map, List.length_range]
        exact hn
      dsimp only [savedOf]
      rw [List.getD_eq_getElem _ _ hlen, List.getElem_map, List.getElem_range]
      rfl
  · intro a area v hfind hadm harea hv hpid hcores
    exact exec_pourRestore ht hfind hadm harea hv hpid hcores

end Sys2Proof.Proofs
end

