-- ==== Sys2Proof/Proofs/Transfers.lean ====
section
/-! PROOF. Host DMA on a table of packages that names one package twice (R355). -/

namespace Sys2Proof.Proofs

open Sys2Proof Sys2Proof.Machine Sys2Proof.Claims Sys2Proof.Laws

-- A table of packages that is not in canonical form -----------------------------------------------------------------------------------------------

/-- A started device-to-host transfer of 64 bytes, whose address no range holds. -/
def strayDma : Dma :=
  { id := 0, pkg := 0, fn := 1, haddr := 0, daddr := 0, toHost := true, spad := false, cnt := false, core := 0, lc := 0, len := 64, asid := 0, started := true }

/-- Package 0 stands twice in the table, each time with nothing but the transfer. -/
def twicePackage : State := { pkgs := [(0, { dma := [strayDma] }), (0, { dma := [strayDma] })] }

theorem tidy_twicePackage : tidy twicePackage = true := by decide

theorem unitAt_twicePackage : unitAt twicePackage 0 0 0 1 = .stops 0x07 0 := by decide

theorem findDma_twicePackage : findDma twicePackage 0 = some strayDma := by decide

theorem mem_twicePackage : strayDma ∈ (getPkg twicePackage strayDma.pkg).dma := by decide

theorem dmaReport_twicePackage (detail : List Word) : dmaReport twicePackage strayDma fRangeMiss detail = twicePackage := by
  have hlog : ∀ ws, faultLog twicePackage 0 0 0 ws = twicePackage := fun ws => by
    rw [faultLog, show effRcb twicePackage.mem 0 9 8 0 = none by decide]
  unfold dmaReport
  rw [show domOf twicePackage strayDma.core = none by decide]
  exact hlog (logRecord twicePackage 2 fRangeMiss (pkgOf strayDma.core) (numOf strayDma.core) (getCore twicePackage strayDma.core).pid strayDma.asid 0 detail)

/-- The failing unit takes the transfer away; what is left of the first entry is the default, and the second one appears. -/
theorem unit_twicePackage : ∃ u, exec (.hostDmaUnit 0) twicePackage = .next u ∧ (getPkg u 0).dma = [strayDma] := by
  have hfail : dmaUnit twicePackage strayDma = dropDma twicePackage strayDma := by
    have hpour : dmaPour twicePackage strayDma = none := rfl
    have hcheck : unitCheck twicePackage 0 0 0 pRD = .fail fRangeMiss := by decide
    unfold dmaUnit
    rw [hpour]
    change dmaMemUnit twicePackage strayDma = _
    unfold dmaMemUnit
    dsimp only
    rw [show unitCheck twicePackage strayDma.pkg strayDma.asid (strayDma.daddr + strayDma.done) (if strayDma.toHost then pRD else pWR) =
      .fail fRangeMiss from hcheck]
    dsimp only
    rw [dmaReport_twicePackage]
  refine ⟨dropDma twicePackage strayDma, ?_, by decide +kernel⟩
  change execHostDmaUnit 0 twicePackage = _
  unfold execHostDmaUnit
  rw [findDma_twicePackage]
  dsimp only
  rw [if_neg (by decide), hfail]

/-- Refutes O57: the canonical form that `tidy` asks for leaves the table of packages out. Where it names package 0 twice, a unit of host DMA
that fails its check takes the transfer out of the first entry alone, and the second one still holds it. -/
theorem not_transfers : ¬ Obligations.Transfers := by
  unfold Obligations.Transfers
  intro h
  obtain ⟨_, _, _, _, _, _, hdma, _⟩ := h twicePackage 0 tidy_twicePackage
  obtain ⟨_, _, _, _, hunit, _⟩ := hdma strayDma findDma_twicePackage mem_twicePackage
  obtain ⟨u, hu, _, _, hgone, _⟩ := (hunit rfl rfl rfl rfl).2 0x07 0 unitAt_twicePackage
  obtain ⟨t, ht, hleft⟩ := unit_twicePackage
  obtain rfl : t = u := Host.Outcome.next.inj (ht.symm.trans hu)
  exact hgone (.inr rfl) strayDma (by rw [show strayDma.pkg = 0 from rfl, hleft]; exact List.mem_cons_self) rfl

end Sys2Proof.Proofs
end

