-- ==== Sys2Proof/Proofs/Mailbox.lean ====
section
/-! PROOF. The commands of a partition's mailbox (R357, R358). -/

namespace Sys2Proof.Proofs

open Sys2Proof Sys2Proof.Machine Sys2Proof.Claims Sys2Proof.Laws

-- A record and its status (R354, R358) ---------------------------------------------------------------------------------------------------------------

section
variable {s t : State} {pkg part : Nat} {f : State → State × Word}

/-- The partition with its status word. -/
def answered (t : State) (pkg part v : Nat) : State := modPart t pkg part (fun p => { p with status := v })

theorem mailbox_unconfigured (h : (getPart s pkg part).configured = false) : mailbox s pkg part f = .next s :=
  congrArg Host.Outcome.next (if_neg (by rw [h]; decide))

theorem mailbox_answers (h : (getPart s pkg part).configured = true) {v : Word} (hf : f s = (t, v)) :
    mailbox s pkg part f = .next (answered t pkg part v.toNat) := by
  unfold mailbox
  rw [if_pos h, hf]
  rfl

theorem ne_empty_of_configured {p : Part} (h : p.configured = true) : p ≠ {} := fun hp => by
  rw [hp] at h
  cases h

theorem parts_ne_nil (h : (getPart s pkg part).configured = true) : (getPkg s pkg).parts ≠ [] := fun hnil => by
  rw [getPart, hnil] at h
  cases h

theorem getPart_answered (h : (getPart t pkg part).configured = true) (v : Nat) :
    getPart (answered t pkg part v) pkg part = { getPart t pkg part with status := v } :=
  getPart_modPart t pkg part (f := fun p => { p with status := v }) (ne_empty_of_configured (p := { getPart t pkg part with status := v }) h)

/-- What the package's record holds beside its partitions. -/
theorem getPkg_answered (h : (getPart t pkg part).configured = true) (v : Nat) :
    ∃ parts, getPkg (answered t pkg part v) pkg = { getPkg t pkg with parts := parts } := by
  have hne : { getPart t pkg part with status := v } ≠ ({} : Part) := ne_empty_of_configured h
  have hget : Sparse.get {} (Sparse.set {} (getPkg t pkg).parts part { getPart t pkg part with status := v }) part = { getPart t pkg part with status := v } :=
    get_set_same _ _ _ _ hne
  have hparts : { getPkg t pkg with parts := Sparse.set {} (getPkg t pkg).parts part { getPart t pkg part with status := v } } ≠ ({} : Pkg) := fun hp => by
    have hnil : Sparse.set {} (getPkg t pkg).parts part { getPart t pkg part with status := v } = [] := congrArg Pkg.parts hp
    rw [hnil] at hget
    exact hne hget.symm
  exact ⟨_, getPkg_setPkg t pkg _ hparts⟩

/-- A change of the package that leaves its partitions. -/
theorem getPkg_keepsParts (h : (getPart s pkg part).configured = true) {g : Pkg → Pkg} (hg : ∀ p, (g p).parts = p.parts) :
    getPkg (modPkg s pkg g) pkg = g (getPkg s pkg) :=
  getPkg_modPkg fun hp => parts_ne_nil h (by rw [← hg, hp])

theorem getPart_keepsParts (h : (getPart s pkg part).configured = true) {g : Pkg → Pkg} (hg : ∀ p, (g p).parts = p.parts) :
    getPart (modPkg s pkg g) pkg part = getPart s pkg part := by
  rw [getPart, getPkg_keepsParts h hg, hg]
  rfl

end

-- Single fields of words -----------------------------------------------------------------------------------------------------------------------------------

theorem bits_top (w : Word) (i n : Nat) (h : i + n = 64) : bits w.toNat i n = w.toNat / 2 ^ i := by
  rw [bits, Nat.mod_eq_of_lt]
  rw [Nat.div_lt_iff_lt_mul (Nat.two_pow_pos i), ← pow_add, Nat.add_comm, h]
  exact w.isLt

theorem bits_top_zero (w : Word) (i n : Nat) (h : i + n = 64) : bits w.toNat i n = 0 ↔ w.toNat < 2 ^ i := by
  rw [bits_top w i n h, Nat.div_eq_zero_iff]
  have := Nat.two_pow_pos i
  omega

-- The usable point of a pour (R306) ------------------------------------------------------------------------------------------------------------------------

section
variable {s : State} {d : Domain}

/-- The walk over the table of restart points finds the first late enough. -/
theorem usableRtt_go_spec (base : Nat) : ∀ (n i j p r : Nat), usableRtt.go s d base n i = some (j, p, r) →
    p = (Memory.word s.mem (base + 16 * j)).toNat ∧ d.dcc + d.h ≤ p ∧ i ≤ j ∧ j < i + n ∧
      ∀ q, i ≤ q → q < j → (Memory.word s.mem (base + 16 * q)).toNat < d.dcc + d.h
  | 0, i, j, p, r, h => nomatch h
  | n + 1, i, j, p, r, h => by
    rw [usableRtt.go] at h
    split at h
    · rename_i hlate
      obtain ⟨rfl, rfl, -⟩ : i = j ∧ (Memory.word s.mem (base + 16 * i)).toNat = p ∧ _ = r := by simpa using h
      exact ⟨rfl, hlate, le_rfl, by omega, fun q hq hqj => by omega⟩
    · rename_i hearly
      obtain ⟨hp, hlate, hle, hlt, hbefore⟩ := usableRtt_go_spec base n (i + 1) j p r h
      refine ⟨hp, hlate, by omega, by omega, fun q hq hqj => ?_⟩
      by_cases hqi : q = i
      · subst hqi
        omega
      · exact hbefore q (by omega) hqj

theorem usableRtt_spec {i p r : Nat} (h : usableRtt s d = some (i, p, r)) :
    p = (Memory.word s.mem (d.home * 2 ^ 39 + mouldWord d.mould 4 % 2 ^ 39 + 16 * i)).toNat ∧ d.dcc + d.h ≤ p ∧ i < mouldWord d.mould 5 % 2 ^ 16 ∧
      ∀ j, j < i → (Memory.word s.mem (d.home * 2 ^ 39 + mouldWord d.mould 4 % 2 ^ 39 + 16 * j)).toNat < d.dcc + d.h := by
  unfold usableRtt at h
  dsimp only at h
  split at h
  · cases h
  · obtain ⟨hp, hlate, -, hlt, hbefore⟩ := usableRtt_go_spec _ _ _ _ _ _ h
    rw [bits_low, Nat.zero_add] at hlt
    exact ⟨hp, hlate, hlt, fun j hj => hbefore j (Nat.zero_le j) hj⟩

end

-- Resume (R314, R326) ----------------------------------------------------------------------------------------------------------------------------------------

section
variable {s : State} {d : Domain} {k : Nat}

theorem foldl_min_bounds : ∀ (l : List Nat) (a : Nat), l.foldl min a ≤ a ∧ ∀ x ∈ l, l.foldl min a ≤ x
  | [], a => ⟨le_rfl, fun _ h => nomatch h⟩
  | y :: r, a => by
    obtain ⟨ha, hr⟩ := foldl_min_bounds r (min a y)
    rw [List.foldl_cons]
    refine ⟨by omega, fun x hx => ?_⟩
    rcases List.mem_cons.1 hx with rfl | hx
    · omega
    · exact hr x hx

/-- The cycle at which catch-up begins. -/
def firstStop (s : State) (d : Domain) : Nat := (d.all.filterMap (fun k => (getCore s k).stop.map Stop.cycle)).foldl min d.dcc

theorem firstStop_le (s : State) (d : Domain) : firstStop s d ≤ d.dcc ∧ ∀ k ∈ d.all, ∀ x, (getCore s k).stop = some x → firstStop s d ≤ x.cycle := by
  obtain ⟨h1, h2⟩ := foldl_min_bounds (d.all.filterMap (fun k => (getCore s k).stop.map Stop.cycle)) d.dcc
  exact ⟨h1, fun k hk x hx => h2 _ (List.mem_filterMap.2 ⟨k, hk, by rw [hx]; rfl⟩)⟩

/-- A domain that catches up. -/
def caughtUp (clock first : Nat) (agent : Agent) (d : Domain) : Domain :=
  { d with status := .catchUp, dcc := first, lastClear := clock
           causes := d.causes.map (fun c => if c.code = 6 then { c with cleared := true, agent := agent } else c) }

/-- The cores' stops are taken away. -/
def unstopped (s : State) (l : List Nat) : State := l.foldl (fun s k => modCore s k (fun c => { c with stop := none })) s

theorem unstopped_rest (s : State) (l : List Nat) : ∃ cores, unstopped s l = { s with cores := cores } := foldl_rest (fun _ _ => ⟨_, rfl⟩) l s

theorem unstopped_core : ∀ (l : List Nat) (t : State), Tidy t → (k ∈ l ∨ (getCore t k).stop = none) → (getCore (unstopped t l) k).stop = none
  | [], _, _, h => h.resolve_left (List.not_mem_nil)
  | x :: r, t, ht, h => by
    refine unstopped_core r _ (tidy_modCore ht fun _ hc => ⟨hc.form⟩) ?_
    by_cases hx : k = x
    · subst hx
      exact .inr (congrArg CoreState.stop (getCore_setCore_wf _ _ _ ht.cores))
    · rw [getCore_modCore_ne _ _ hx]
      exact h.imp_left fun h => (List.mem_cons.1 h).resolve_left hx

theorem beginCatchUp_eq {pid : Nat} (hd : findDom s pid = some d) (agent : Agent) :
    beginCatchUp s pid agent = modDom (unstopped s d.all) pid (caughtUp s.clock (firstStop s d) agent) := by
  obtain ⟨cores, hrest⟩ := unstopped_rest s d.all
  have hclock : (unstopped s d.all).clock = s.clock := by rw [hrest]
  unfold beginCatchUp
  rw [hd, ← hclock]
  rfl

theorem beginCatchUp_spec (ht : Tidy s) {pid : Nat} (hd : findDom s pid = some d) (agent : Agent) :
    findDom (beginCatchUp s pid agent) pid = some (caughtUp s.clock (firstStop s d) agent d) ∧
      (∀ k ∈ d.all, (getCore (beginCatchUp s pid agent) k).stop = none) ∧
      (beginCatchUp s pid agent).mem = s.mem ∧ (beginCatchUp s pid agent).pkgs = s.pkgs := by
  obtain ⟨cores, hrest⟩ := unstopped_rest s d.all
  have hfind : findDom (unstopped s d.all) pid = some d := by
    rw [hrest]
    exact hd
  rw [beginCatchUp_eq hd]
  refine ⟨?_, fun k hk => unstopped_core d.all s ht (.inl hk), by rw [modDom_mem, hrest], by rw [modDom_pkgs, hrest]⟩
  rw [findDom_modDom _ _ _ (by intro e; rfl), hfind, Option.map_some]

/-- The causes of a domain that catches up. -/
theorem caughtUp_causes (clock first : Nat) (agent : Agent) (d : Domain) :
    (∀ c ∈ (caughtUp clock first agent d).causes, c.code = 6 → c.cleared = true ∧ c.agent = agent) ∧
      (caughtUp clock first agent d).causes.filter (fun c => c.code != 6) = d.causes.filter (fun c => c.code != 6) := by
  constructor
  · intro c hc h6
    obtain ⟨x, _, rfl⟩ := List.mem_map.1 hc
    by_cases hx : x.code = 6
    · rw [if_pos hx]
      exact ⟨rfl, rfl⟩
    · rw [if_neg hx] at h6
      exact absurd h6 hx
  · unfold caughtUp
    dsimp only
    induction d.causes with
    | nil => rfl
    | cons x r ih =>
      rw [List.map_cons]
      by_cases hx : x.code = 6
      · rw [if_pos hx, List.filter_cons_of_neg (by simp [hx]), List.filter_cons_of_neg (by simp [hx]), ih]
      · rw [if_neg hx, List.filter_cons_of_pos (by simp [hx]), List.filter_cons_of_pos (by simp [hx]), ih]

end

-- The thermal monitor (R103, R366) -----------------------------------------------------------------------------------------------------------------------------

section
variable {s : State} {d : Domain} {pkg : Nat}

/-- Some sensor of a package is above a temperature. -/
theorem anyAbove_iff (s : State) (pkg t : Nat) : anyAbove s pkg t = true ↔ ∃ x ∈ (getPkg s pkg).sensors, t < x.2 := by
  simp only [anyAbove, List.any_eq_true, decide_eq_true_eq]

/-- A domain with an open cause 3, at the cycle given. -/
def Heated (cyc : Nat) (d : Domain) : Prop := d.dcc = cyc ∧ d.causes.any (fun x => x.code == 3 && !x.cleared) = true

theorem any_addCause_code {l : List Cause} {c : Cause} {code : Nat} (hc : c.cleared = false)
    (h : c.code = code ∨ l.any (fun x => x.code == code && !x.cleared) = true) : (addCause l c).any (fun x => x.code == code && !x.cleared) = true := by
  rcases h with h | h
  · obtain ⟨x, hx, hs⟩ := List.any_eq_true.1 (any_addCause l hc)
    refine List.any_eq_true.2 ⟨x, hx, ?_⟩
    simp only [sameCause, Bool.and_eq_true, beq_iff_eq] at hs ⊢
    exact ⟨hs.1.1.1.1.trans h, hs.2⟩
  · obtain ⟨x, hx, hs⟩ := List.any_eq_true.1 h
    simp only [Bool.and_eq_true, beq_iff_eq] at hs
    rw [addCause]
    split
    · refine List.any_eq_true.2 ⟨_, List.mem_map.2 ⟨x, hx, rfl⟩, ?_⟩
      split
      · simp [hs.1]
      · simp [hs.1, hs.2]
    · exact List.any_eq_true.2 ⟨x, List.mem_append_left _ hx, by simp [hs.1, hs.2]⟩

/-- A cause raised on a domain leaves its cycle, and its own code open. -/
theorem raisedCause_heated {cyc : Nat} {c : Cause} (hcode : c.code = 3) (hopen : c.cleared = false) {s : State} {pid : Nat}
    (h : DomHas (fun e => e.dcc = cyc) pid s) : DomHas (Heated cyc) pid (raiseCause s pid c) := by
  obtain ⟨e, he, hcyc⟩ := h
  refine ⟨_, by rw [raiseCause, findDom_modDom _ _ _ (by intro d; split <;> rfl), he, Option.map_some], ?_⟩
  split
  · exact ⟨hcyc, any_addCause_code hopen (.inl hcode)⟩
  · exact ⟨hcyc, any_addCause_code hopen (.inl hcode)⟩
  · exact ⟨hcyc, any_addCause_code hopen (.inl hcode)⟩

theorem raisedCause_stays {cyc : Nat} {c : Cause} (hcode : c.code = 3) (hopen : c.cleared = false) {s : State} {pid : Nat} (p : Nat)
    (h : DomHas (Heated cyc) pid s) : DomHas (Heated cyc) pid (raiseCause s p c) := by
  by_cases hp : p = pid
  · subst hp
    exact raisedCause_heated hcode hopen (h.imp fun _ he => ⟨he.1, he.2.1⟩)
  · obtain ⟨e, he, hheat⟩ := h
    exact ⟨e, by rw [raiseCause, findDom_modDom_ne _ _ (by intro d; split <;> rfl) (Ne.symm hp)]; exact he, hheat⟩

/-- The thermal cause of a domain. -/
def thermalCause (pkg : Nat) (d : Domain) : Cause := ⟨3, coreIn d pkg, ccSt, .cc, 0, 0, { kind := 7 }, false⟩

theorem raiseThermal_heats (hd : findDom s d.pid = some d) (hin : pkg ∈ d.pkgs) : DomHas (Heated d.dcc) d.pid (raiseThermal s pkg) := by
  have hmem : d ∈ s.domains.filter (fun d => d.pkgs.contains pkg) :=
    List.mem_filter.2 ⟨List.mem_of_find?_eq_some hd, List.contains_iff_mem.2 hin⟩
  obtain ⟨l1, l2, hsplit⟩ := List.append_of_mem hmem
  unfold raiseThermal
  rw [hsplit, List.foldl_append, List.foldl_cons]
  refine foldl_keeps (DomHas (Heated d.dcc) d.pid) _ (by intro t e h; exact raisedCause_stays (c := thermalCause pkg e) rfl rfl _ h) _ _ ?_
  refine raisedCause_heated (c := thermalCause pkg d) rfl rfl ?_
  refine foldl_keeps (DomHas (fun e => e.dcc = d.dcc) d.pid) _ ?_ _ _ ⟨d, hd, rfl⟩
  intro t e h
  exact DomHas.raiseCause (P := fun e => e.dcc = d.dcc) ⟨fun _ _ _ _ h => h, fun _ h => h⟩ h _ (thermalCause pkg e)

theorem raiseThermal_rest (s : State) (pkg : Nat) : ∃ domains, raiseThermal s pkg = { modPkg s pkg (fun p => { p with thermal := true }) with domains := domains } :=
  SameBesideDomains.foldl (fun _ _ => sameBesideDomains_modDom ..) _ _

end

-- Windows (R292) ------------------------------------------------------------------------------------------------------------------------------------------------

section
variable {s : State} {pkg : Nat}

/-- The target partition offers the range that a window names. -/
def Exported (s : State) (pkg : Nat) (r : List Word) : Prop :=
  ∃ t q : Nat, packageAt s pkg ((r.getD 2 0).toNat / 2 ^ 12 % 2 ^ 8) = some t ∧ asidOwner s t ((r.getD 2 0).toNat % 2 ^ 12) = some q ∧
    ((r.getD 0 0).toNat % 2 ^ 57, (r.getD 1 0).toNat % 2 ^ 40, (r.getD 2 0).toNat % 2 ^ 12) ∈ Sparse.get [] (getPkg s t).exports q

theorem exported_iff (s : State) (pkg : Nat) (r : List Word) : Exported s pkg r ↔
    (match packageAt s pkg (bits (r.getD 2 0).toNat 12 8) with
     | none => false
     | some t =>
       match asidOwner s t (bits (r.getD 2 0).toNat 0 12) with
       | none => false
       | some q => (Sparse.get [] (getPkg s t).exports q).contains (bits (r.getD 0 0).toNat 0 57, bits (r.getD 1 0).toNat 0 40, bits (r.getD 2 0).toNat 0 12))
      = true := by
  unfold Exported
  rw [bits_low, bits_low, bits_low, bits]
  cases packageAt s pkg ((r.getD 2 0).toNat / 2 ^ 12 % 2 ^ 8) with
  | none => exact ⟨fun ⟨_, _, h, _⟩ => (nomatch h), fun h => (nomatch h)⟩
  | some t =>
    cases hq : asidOwner s t ((r.getD 2 0).toNat % 2 ^ 12) with
    | none =>
      refine ⟨?_, fun h => ?_⟩
      · rintro ⟨t', q, ht, hq', _⟩
        obtain rfl := Option.some.inj ht
        rw [hq] at hq'
        cases hq'
      · dsimp only at h
        rw [hq] at h
        cases h
    | some q =>
      refine ⟨?_, fun h => ⟨t, q, rfl, hq, ?_⟩⟩
      · rintro ⟨t', q', ht, hq', hmem⟩
        obtain rfl := Option.some.inj ht
        obtain rfl := Option.some.inj (hq.symm.trans hq')
        dsimp only
        rw [hq]
        exact List.contains_iff_mem.2 hmem
      · dsimp only at h
        rw [hq] at h
        exact List.contains_iff_mem.1 h

theorem windowValid_iff (s : State) (pkg : Nat) (r : List Word) : windowValid s pkg r = true ↔
    (r.getD 0 0).toNat < 2 ^ 57 ∧ (r.getD 0 0).toNat % 64 = 0 ∧ (r.getD 1 0).toNat < 2 ^ 40 ∧ (r.getD 1 0).toNat % 64 = 0 ∧
      (r.getD 2 0).toNat / 2 ^ 36 % 2 ^ 27 = 0 ∧ (r.getD 3 0).toNat = 0 ∧ Exported s pkg r := by
  rw [exported_iff, ← bits_top_zero _ 57 7 rfl, ← bits_top_zero _ 40 24 rfl]
  unfold windowValid
  simp only [Bool.and_eq_true, beq_iff_eq]
  rw [bits_low _ 57, bits_low _ 40, bits]
  have h57 : ∀ x : Nat, x % 2 ^ 57 % 64 = x % 64 := fun x => by omega
  have h40 : ∀ x : Nat, x % 2 ^ 40 % 64 = x % 64 := fun x => by omega
  rw [h57, h40]
  tauto

end

-- The records ---------------------------------------------------------------------------------------------------------------------------------------------------

/-- A mould that a partition owns. -/
abbrev OwnedMould (m : List Word) (part : Nat) : Prop := (m.getD 0 0).toNat / 2 ^ 63 = 1 ∧ (m.getD 0 0).toNat / 2 ^ 56 % 2 ^ 4 = part

theorem ownedMould_iff (m : List Word) (part : Nat) : mouldOwned m part = true ↔ OwnedMould m part := by
  unfold mouldOwned
  dsimp only
  rw [Bool.and_eq_true, beq_iff_eq, beq_iff_eq, bits_top _ 63 1 rfl]

section
variable {s : State} {pkg part : Nat} (h : (getPart s pkg part).configured = true)
include h

/-- What a BUILD is refused for. -/
abbrev BuildRefused (s : State) (pkg part no : Nat) (m old : List Word) : Prop :=
  4096 ≤ no ∨ (m.getD 0 0).toNat / 2 ^ 56 % 2 ^ 4 ≠ part ∨ (old.getD 0 0).toNat / 2 ^ 63 = 1 ∧ (old.getD 0 0).toNat / 2 ^ 56 % 2 ^ 4 ≠ part ∨
    foreignAsid s pkg part ((m.getD 0 0).toNat / 2 ^ 24 % 2 ^ 12) = true ∨ (∃ n ∈ [1, 2], foreignAddr s pkg part ((m.getD n 0).toNat % 2 ^ 39) = true) ∨
    (m.getD 4 0 ≠ 0 ∧ foreignAddr s pkg part ((m.getD 4 0).toNat % 2 ^ 39) = true)

omit h in
theorem buildRefused_iff (s : State) (pkg part no : Nat) (m old : List Word) : BuildRefused s pkg part no m old ↔
    (4096 ≤ no ∨ bits (mouldWord m 0) 56 4 ≠ part ∨ (bits (mouldWord old 0) 63 1 = 1 ∧ bits (mouldWord old 0) 56 4 ≠ part) ∨
      foreignAsid s pkg part (mAsid m) ∨ foreignAddr s pkg part (mRegion m) ∨
      foreignAddr s pkg part (mouldWord m 2 % 2 ^ 39) ∨ (mouldWord m 4 ≠ 0 ∧ foreignAddr s pkg part (mouldWord m 4 % 2 ^ 39))) := by
  have h4 : mouldWord m 4 ≠ 0 ↔ m.getD 4 0 ≠ 0 := by rw [mouldWord, Ne, Ne, ← BitVec.toNat_inj]; rfl
  rw [h4, mRegion, mAsid, bits_low, mouldWord, mouldWord, bits_top _ 63 1 rfl]
  unfold BuildRefused
  simp only [List.mem_cons, List.not_mem_nil, or_false, exists_eq_or_imp, exists_eq_left, or_assoc]
  rfl

theorem build_refused {no : Nat} {rec : List Word} (hbad : BuildRefused s pkg part no (recordWords 32 rec) (getMould s pkg no)) :
    exec (.build pkg part no rec) s = .next (answered s pkg part 1) := by
  change execBuild pkg part no rec s = _
  refine mailbox_answers (v := 1) h ?_
  exact if_pos ((buildRefused_iff ..).1 hbad)

theorem build_keeps {no : Nat} {rec : List Word} (hok : ¬ BuildRefused s pkg part no (recordWords 32 rec) (getMould s pkg no)) :
    exec (.build pkg part no rec) s =
      .next (answered (modPkg s pkg fun q => { q with moulds := Sparse.set [] q.moulds no (recordWords 32 rec) }) pkg part 0) := by
  change execBuild pkg part no rec s = _
  refine mailbox_answers (v := 0) h ?_
  exact if_neg (mt (buildRefused_iff ..).2 hok)

-- ARMX

theorem armx_answers {no : Nat} {t : State} {v : Word} (harm : armMould s pkg part no = (t, v)) :
    exec (.armx pkg part no) s = .next (answered t pkg part v.toNat) := by
  change execArmx pkg part no s = _
  exact mailbox_answers h harm

theorem armx_arms {no e : Nat} (hown : OwnedMould (getMould s pkg no) part) (harm : (getPart s pkg part).arming = true) (he : e < 64)
    (hfree : ¬ EntryTaken (getPart s pkg part) e) (hlow : ∀ x, x < e → EntryTaken (getPart s pkg part) x) :
    ∃ t, exec (.armx pkg part no) s = .next t ∧
      getPart t pkg part = { getPart s pkg part with
        arms := (getPart s pkg part).arms + 1
        status := e * 2 ^ 8
        pool := (getPart s pkg part).pool ++ [armed s.clock (getPart s pkg part) pkg part no e (getMould s pkg no)] } ∧
      t.domains = s.domains ∧ t.cores = s.cores ∧ t.mem = s.mem := by
  have hpool := getPart_poolAdd s pkg part no e (getMould s pkg no)
  refine ⟨_, armx_answers h (armMould_arms ((ownedMould_iff _ _).2 hown) harm (freeEntry_lowest he hfree hlow)), ?_, rfl, rfl, rfl⟩
  rw [getPart_answered (by rw [hpool]; exact h), hpool, show (toWord (e * 2 ^ 8)).toNat = e * 2 ^ 8 from Nat.mod_eq_of_lt (by omega)]

-- KILL, CKPT and RESUME

omit h in
theorem partDom_of {pid : Nat} {d : Domain} (hd : findDom s (pourKey pkg pid) = some d) (hp : d.part = part) : partDom s pkg part pid = some d := by
  rw [partDom, hd]
  exact if_pos hp

omit h in
theorem partDom_none {pid : Nat} (hno : ∀ d, ¬ (findDom s (pourKey pkg pid) = some d ∧ d.part = part)) : partDom s pkg part pid = none := by
  rw [partDom]
  split
  · rename_i d hd
    exact if_neg fun hp => hno d ⟨hd, hp⟩
  · rfl

omit h in
theorem partArmed_of {pid : Nat} {a : Armed} (ha : findArmed s pkg (pourKey pkg pid) = some a) (hp : a.part = part) : partArmed s pkg part pid = some a := by
  rw [partArmed, ha]
  exact if_pos hp

omit h in
theorem partArmed_none {pid : Nat} (hno : ∀ a, findArmed s pkg (pourKey pkg pid) = some a → a.part ≠ part) : partArmed s pkg part pid = none := by
  rw [partArmed]
  split
  · rename_i a ha
    exact if_neg (hno a ha)
  · rfl

theorem kill_running {pid : Nat} {d : Domain} (hd : partDom s pkg part pid = some d) :
    exec (.kill pkg part pid) s = .next (answered (requestKill s d.pid 0) pkg part 0) := by
  change execKill pkg part pid s = _
  refine mailbox_answers (v := 0) h ?_
  rw [hd]

theorem kill_waiting {pid : Nat} {a : Armed} (hd : partDom s pkg part pid = none) (ha : partArmed s pkg part pid = some a) :
    ∃ t, exec (.kill pkg part pid) s = .next (answered t pkg part 0) ∧ t.domains = s.domains ∧ t.cores = s.cores := by
  obtain ⟨mem, pkgs, hlog⟩ := faultLog_rest s pkg part (mRegion a.mould) (logRecord s 3 0 pkg 0 a.pid (mAsid a.mould) a.mouldNo [])
  obtain ⟨pkgs', hdrop⟩ := dropArmed_rest (faultLog s pkg part (mRegion a.mould) (logRecord s 3 0 pkg 0 a.pid (mAsid a.mould) a.mouldNo [])) pkg a
  refine ⟨dropArmed (faultLog s pkg part (mRegion a.mould) (logRecord s 3 0 pkg 0 a.pid (mAsid a.mould) a.mouldNo [])) pkg a,
    ?_, by rw [hdrop, hlog], by rw [hdrop, hlog]⟩
  change execKill pkg part pid s = _
  refine mailbox_answers (v := 0) h ?_
  rw [hd, ha]

theorem kill_none {pid : Nat} (hd : partDom s pkg part pid = none) (ha : partArmed s pkg part pid = none) :
    exec (.kill pkg part pid) s = .next (answered s pkg part 1) := by
  change execKill pkg part pid s = _
  refine mailbox_answers (v := 1) h ?_
  rw [hd, ha]

/-- A CKPT as the word that a frozen pour is saved so (log 74). -/
abbrev AsksSave (s : State) (d : Domain) : Prop :=
  d.status = .held ∧ d.stopAt ≠ none ∧ d.saveNow = false ∧ (∃ k ∈ d.all, (getCore s k).stop ≠ none) ∧ ∃ i q tok, d.schedStop = some (.checkpoint i q tok)

omit h in
theorem anyStopped_iff (s : State) (d : Domain) : d.all.any (fun k => (getCore s k).stop.isSome) = true ↔ ∃ k ∈ d.all, (getCore s k).stop ≠ none := by
  simp only [List.any_eq_true, Option.isSome_iff_ne_none]

omit h in
theorem asksSave_iff (s : State) (d : Domain) : AsksSave s d ↔
    (d.status == .held && d.stopAt.isSome && awaitsRepair s d && (match d.schedStop with | some (.checkpoint ..) => true | _ => false)) = true := by
  unfold AsksSave awaitsRepair
  rw [← anyStopped_iff, ← Option.isSome_iff_ne_none]
  simp only [Bool.and_eq_true, beq_iff_eq, Bool.not_eq_true']
  have hword : (∃ i q tok, d.schedStop = some (.checkpoint i q tok)) ↔ (match d.schedStop with | some (.checkpoint ..) => true | _ => false) = true := by
    constructor
    · rintro ⟨i, q, tok, hs⟩
      rw [hs]
    · intro hm
      split at hm
      · rename_i i q tok hs
        exact ⟨i, q, tok, hs⟩
      · cases hm
  rw [hword]
  tauto

theorem ckpt_none {pid : Nat} (hd : partDom s pkg part pid = none) : exec (.ckpt pkg part pid) s = .next (answered s pkg part 1) := by
  change execCkpt pkg part pid s = _
  refine mailbox_answers (v := 1) h ?_
  rw [hd]

section
variable {pid : Nat} {d : Domain} (hd : partDom s pkg part pid = some d)
include hd

theorem ckpt_saves (hasks : AsksSave s d) :
    exec (.ckpt pkg part pid) s = .next (answered (modDom s d.pid fun d => { d with saveNow := true }) pkg part 0) := by
  change execCkpt pkg part pid s = _
  refine mailbox_answers (v := 0) h ?_
  rw [hd]
  exact if_pos ((asksSave_iff s d).1 hasks)

theorem ckpt_busy (hasks : ¬ AsksSave s d) (hstop : d.schedStop ≠ none) : exec (.ckpt pkg part pid) s = .next (answered s pkg part 2) := by
  change execCkpt pkg part pid s = _
  refine mailbox_answers (v := 2) h ?_
  rw [hd]
  exact (if_neg (mt (asksSave_iff s d).2 hasks)).trans (if_pos (Option.isSome_iff_ne_none.2 hstop))

omit h hd in
theorem not_asksSave (hstop : d.schedStop = none) : ¬ AsksSave s d := fun ⟨_, _, _, _, _, _, _, hs⟩ => by
  rw [hstop] at hs
  cases hs

theorem ckpt_refused (hstop : d.schedStop = none) (hno : (d.mould.getD 0 0).toNat / 2 ^ 62 % 2 = 0 ∨ usableRtt s d = none) :
    exec (.ckpt pkg part pid) s = .next (answered s pkg part 1) := by
  change execCkpt pkg part pid s = _
  refine mailbox_answers (v := 1) h ?_
  rw [hd]
  refine (if_neg (mt (asksSave_iff s d).2 (not_asksSave hstop))).trans ((if_neg (by rw [hstop]; decide)).trans ?_)
  split
  · rfl
  · rename_i hckp
    rw [hno.resolve_left hckp]

theorem ckpt_decides {i q r : Nat} (hstop : d.schedStop = none) (hckp : (d.mould.getD 0 0).toNat / 2 ^ 62 % 2 = 1) (hrtt : usableRtt s d = some (i, q, r)) :
    exec (.ckpt pkg part pid) s = .next (answered (modDom s d.pid fun d => { d with schedStop := some (.checkpoint i q 0) }) pkg part 0) := by
  change execCkpt pkg part pid s = _
  refine mailbox_answers (v := 0) h ?_
  rw [hd]
  refine (if_neg (mt (asksSave_iff s d).2 (not_asksSave hstop))).trans ((if_neg (by rw [hstop]; decide)).trans ?_)
  rw [if_neg (by rw [show bits (mouldWord d.mould 0) 62 1 = 1 from hckp]; decide), hrtt]

/-- A pour that a deferred fault has stopped, frozen and not doomed. -/
abbrev Resumable (s : State) (d : Domain) : Prop :=
  (d.status = .held ∨ d.status = .catchUp) ∧ d.doomed = false ∧ ∃ k ∈ d.all, (getCore s k).stop ≠ none

theorem resume_refused (hno : ¬ Resumable s d) : exec (.resume pkg part pid) s = .next (answered s pkg part 1) := by
  change execResume pkg part pid s = _
  refine mailbox_answers (v := 1) h ?_
  rw [hd]
  exact if_neg (by rw [anyStopped_iff]; exact hno)

theorem resume_begins (hok : Resumable s d) :
    exec (.resume pkg part pid) s = .next (answered (beginCatchUp s d.pid (systemAgent s pkg part)) pkg part 0) := by
  change execResume pkg part pid s = _
  refine mailbox_answers (v := 0) h ?_
  rw [hd]
  exact if_pos (by rw [anyStopped_iff]; exact hok)

end

theorem resume_none {pid : Nat} (hd : partDom s pkg part pid = none) : exec (.resume pkg part pid) s = .next (answered s pkg part 1) := by
  change execResume pkg part pid s = _
  refine mailbox_answers (v := 1) h ?_
  rw [hd]

-- RESTORE

omit h in
theorem savedAt_spec {area : Nat} {v : Saved} (hv : savedAt s area = some v) : v ∈ s.saved ∧ v.area / 2 ^ 39 = area / 2 ^ 39 ∧
    v.pid % 2 ^ 64 = (Memory.word s.mem area).toNat ∧ v.f % 2 ^ 64 = (Memory.word s.mem (area + 16)).toNat := by
  have hp := List.find?_some hv
  simp only [Bool.and_eq_true, beq_iff_eq] at hp
  exact ⟨List.mem_of_find?_eq_some hv, hp.1.1, hp.1.2, hp.2⟩

/-- The pour that a saved one waits as. -/
def restoring (s : State) (part key : Nat) (v : Saved) : Armed :=
  { pid := v.pid, part := part, mouldNo := v.dom.mouldNo, mould := v.dom.mould, entry := 64, since := s.clock
    floor := v.dom.priority, restore := some key }

theorem restore_none {area : Nat} (hv : savedAt s (pkg * 2 ^ 39 + area % 2 ^ 39) = none) : exec (.restore pkg part area) s = .next (answered s pkg part 1) := by
  change execRestore pkg part area s = _
  refine mailbox_answers (v := 1) h ?_
  dsimp only
  rw [hv]

/-- What a RESTORE of a saved pour is refused for. -/
abbrev RestoreRefused (s : State) (pkg part area : Nat) (v : Saved) : Prop :=
  foreignAddr s pkg part (area % 2 ^ 39) = true ∨ v.dom.part ≠ part ∨ findDom s v.pid ≠ none ∨ findArmed s pkg v.pid ≠ none

theorem restore_refused {area : Nat} {v : Saved} (hv : savedAt s (pkg * 2 ^ 39 + area % 2 ^ 39) = some v) (hno : RestoreRefused s pkg part area v) :
    exec (.restore pkg part area) s = .next (answered s pkg part 1) := by
  change execRestore pkg part area s = _
  refine mailbox_answers (v := 1) h ?_
  dsimp only
  rw [hv]
  exact if_pos (by rw [Option.isSome_iff_ne_none, Option.isSome_iff_ne_none]; exact hno)

theorem restore_waits {area : Nat} {v : Saved} (hv : savedAt s (pkg * 2 ^ 39 + area % 2 ^ 39) = some v) (hok : ¬ RestoreRefused s pkg part area v) :
    exec (.restore pkg part area) s =
      .next (answered (modPkg s pkg fun q => { q with waiting := q.waiting ++ [restoring s part (pkg * 2 ^ 39 + area % 2 ^ 39) v] }) pkg part 0) := by
  change execRestore pkg part area s = _
  refine mailbox_answers (v := 0) h ?_
  dsimp only
  rw [hv]
  exact if_neg (by rw [Option.isSome_iff_ne_none, Option.isSome_iff_ne_none]; exact hok)

-- RINGS and WINDOW

/-- What RINGS is refused for. -/
abbrev RingsRefused (s : State) (pkg part die a b : Nat) : Prop :=
  4 ≤ die ∨ 2 ^ 39 ≤ a ∨ 2 ^ 39 ≤ b ∨ foreignAddr s pkg part a = true ∨ foreignAddr s pkg part b = true

theorem rings_refused {die a b : Nat} (hbad : RingsRefused s pkg part die a b) : exec (.rings pkg part die a b) s = .next (answered s pkg part 1) := by
  change execRings pkg part die a b s = _
  refine mailbox_answers (v := 1) h ?_
  exact if_pos hbad

theorem rings_placed {die a b : Nat} (hok : ¬ RingsRefused s pkg part die a b) : exec (.rings pkg part die a b) s =
    .next (answered (modPart s pkg part fun q => { q with
      traceRings := Sparse.set 0 q.traceRings die (a + 1)
      waitRings := Sparse.set 0 q.waitRings die (b + 1) }) pkg part 0) := by
  change execRings pkg part die a b s = _
  refine mailbox_answers (v := 0) h ?_
  exact if_neg hok

/-- The window written, or cleared. -/
def windowPut (s : State) (pkg part w : Nat) (v : List Word) : State := modPkg s pkg fun q => { q with windows := Sparse.set [] q.windows (part * 256 + w) v }

theorem window_beyond {w : Nat} {rec : List Word} (hw : 256 ≤ w) : exec (.window pkg part w rec) s = .next (answered s pkg part 1) := by
  change execWindow pkg part w rec s = _
  refine mailbox_answers (v := 1) h ?_
  exact if_pos hw

section
variable {w : Nat} {rec : List Word} (hw : w < 256)
include hw

theorem window_clears (hv : ((recordWords 4 rec).getD 2 0).toNat < 2 ^ 63) :
    exec (.window pkg part w rec) s = .next (answered (windowPut s pkg part w []) pkg part 0) := by
  change execWindow pkg part w rec s = _
  refine mailbox_answers (v := 0) h ?_
  exact (if_neg (by omega)).trans (if_pos ((bits_top_zero _ 63 1 rfl).2 hv))

theorem window_registers (hv : 2 ^ 63 ≤ ((recordWords 4 rec).getD 2 0).toNat) (hok : windowValid s pkg (recordWords 4 rec) = true) :
    exec (.window pkg part w rec) s = .next (answered (windowPut s pkg part w (recordWords 4 rec)) pkg part 0) := by
  change execWindow pkg part w rec s = _
  refine mailbox_answers (v := 0) h ?_
  exact (if_neg (by omega)).trans ((if_neg (by rw [bits_top_zero _ 63 1 rfl]; omega)).trans (if_pos hok))

theorem window_refused (hv : 2 ^ 63 ≤ ((recordWords 4 rec).getD 2 0).toNat) (hno : ¬ windowValid s pkg (recordWords 4 rec) = true) :
    exec (.window pkg part w rec) s = .next (answered (windowPut s pkg part w []) pkg part 1) := by
  change execWindow pkg part w rec s = _
  refine mailbox_answers (v := 1) h ?_
  exact (if_neg (by omega)).trans ((if_neg (by rw [bits_top_zero _ 63 1 rfl]; omega)).trans (if_neg hno))

end

-- POLICY

/-- The package's record with a value of POLICY kept. -/
def policyKept (die field : Nat) (value : Word) (p : Pkg) : Pkg :=
  { p with policies := (die, field, value) :: p.policies.filter (fun x => !(x.1 == die && x.2.1 == field))
           powerBudget := if field = 0 then value.toNat else p.powerBudget
           emergency := if field = 2 ^ 39 + 1 then value.toNat else p.emergency
           power := if field = 0 then p.power else Sparse.set 0 p.power (field - 1) value.toNat }

theorem policy_refused {die field : Nat} {value : Word} (hf : field ≠ 0) (hno : foreignAddr s pkg part (field - 1) = true) :
    exec (.policy pkg part die field value) s = .next (answered s pkg part 1) := by
  change execPolicy pkg part die field value s = _
  refine mailbox_answers (v := 1) h ?_
  exact if_pos ⟨hf, hno⟩

theorem policy_keeps {die field : Nat} {value : Word} (hok : field = 0 ∨ foreignAddr s pkg part (field - 1) = false) :
    exec (.policy pkg part die field value) s = .next (answered (if field = 2 ^ 39 + 1 then thermalCheck (modPkg s pkg (policyKept die field value)) pkg
      else modPkg s pkg (policyKept die field value)) pkg part 0) := by
  change execPolicy pkg part die field value s = _
  refine mailbox_answers (v := 0) h ?_
  refine (if_neg ?_).trans ?_
  · rintro ⟨hf, hno⟩
    rw [hok.resolve_left hf] at hno
    cases hno
  · cases field with
    | zero => rfl
    | succ n => rfl

/-- What the monitor's comparison leaves and makes. -/
theorem thermalCheck_spec : ∃ th : Bool, getPkg (thermalCheck s pkg) pkg = { getPkg s pkg with thermal := th } ∧
    (th = true ↔ ((getPkg s pkg).thermal = false ∧ anyAbove s pkg (getPkg s pkg).emergency = true) ∨
      ((getPkg s pkg).thermal = true ∧ anyAbove s pkg ((getPkg s pkg).emergency - 5) = true)) ∧
    (thermalCheck s pkg).cores = s.cores ∧ (thermalCheck s pkg).mem = s.mem ∧
    ((getPkg s pkg).thermal = true ∨ ¬ anyAbove s pkg (getPkg s pkg).emergency = true → (thermalCheck s pkg).domains = s.domains) := by
  have hset : ∀ th : Bool, getPkg (modPkg s pkg fun p => { p with thermal := th }) pkg = { getPkg s pkg with thermal := th } :=
    fun th => getPkg_keepsParts (g := fun p => { p with thermal := th }) h (fun _ => rfl)
  unfold thermalCheck
  dsimp only
  split
  · rename_i hup
    obtain ⟨domains, hr⟩ := raiseThermal_rest s pkg
    refine ⟨true, ?_, ⟨fun _ => .inl hup, fun _ => rfl⟩, by rw [hr]; rfl, by rw [hr]; rfl, fun hno => ?_⟩
    · rw [hr]
      exact hset true
    · rw [hup.1, hup.2] at hno
      exact absurd hno (by decide)
  · rename_i hup
    split
    · rename_i hdown
      refine ⟨false, hset false, ⟨fun hf => (nomatch hf), fun hth => ?_⟩, rfl, rfl, fun _ => rfl⟩
      rw [hdown.1, hdown.2] at hth
      exact absurd hth (by simp)
    · rename_i hdown
      refine ⟨(getPkg s pkg).thermal, rfl, ⟨fun hth => .inr ⟨hth, ?_⟩, fun hth => ?_⟩, rfl, rfl, fun _ => rfl⟩
      · exact Bool.eq_true_of_not_eq_false fun hcool => hdown ⟨hth, hcool⟩
      · exact (hth.resolve_left hup).1

omit h in
theorem thermalCheck_heats {d : Domain} (hth : (getPkg s pkg).thermal = false) (hup : anyAbove s pkg (getPkg s pkg).emergency = true)
    (hd : findDom s d.pid = some d) (hin : pkg ∈ d.pkgs) : DomHas (Heated d.dcc) d.pid (thermalCheck s pkg) := by
  unfold thermalCheck
  dsimp only
  rw [if_pos ⟨hth, hup⟩]
  exact raiseThermal_heats hd hin

-- REPAIR

omit h in
theorem coreHeld_iff (s : State) (k : Nat) : coreHeld s k = true ↔ (getCore s k).pid ≠ 0 ∨ k ∈ reservedCores s 0 := by
  rw [coreHeld, Bool.or_eq_true, bne_iff_ne, List.contains_iff_mem]

/-- A core of the partition on the die. -/
abbrev Repairable (s : State) (pkg part die core : Nat) : Prop := core < 640 ∧ core / 160 = die ∧ core ∈ (getPart s pkg part).cores

omit h in
theorem repairable_iff (s : State) (pkg part die core : Nat) : Repairable s pkg part die core ↔
    ¬ (640 ≤ core ∨ core / 160 ≠ die ∨ (getPart s pkg part).cores.contains core = false) := by
  rw [Repairable, ← List.contains_iff_mem, not_or, not_or, not_le, not_not, Bool.not_eq_false]

section
variable {die core : Nat}

theorem repair_foreign (hno : ¬ Repairable s pkg part die core) : exec (.repair pkg part die core) s = .next (answered s pkg part 1) := by
  change execRepair pkg part die core s = _
  refine mailbox_answers (v := 1) h ?_
  exact if_pos (not_not.1 (mt (repairable_iff ..).2 hno))

theorem repair_busy (hmine : Repairable s pkg part die core) (hheld : coreHeld s (pkg * 1024 + core) = true) :
    exec (.repair pkg part die core) s = .next (answered s pkg part 2) := by
  change execRepair pkg part die core s = _
  refine mailbox_answers (v := 2) h ?_
  exact (if_neg ((repairable_iff ..).1 hmine)).trans (if_pos hheld)

theorem repair_without (hmine : Repairable s pkg part die core) (hheld : ¬ coreHeld s (pkg * 1024 + core) = true)
    (hused : 8 ≤ Sparse.get 0 (getPkg s pkg).sparesUsed die) : exec (.repair pkg part die core) s = .next (answered s pkg part 1) := by
  change execRepair pkg part die core s = _
  refine mailbox_answers (v := 1) h ?_
  exact (if_neg ((repairable_iff ..).1 hmine)).trans ((if_neg hheld).trans (if_pos hused))

/-- The package's record once a spare has taken a core's number. -/
def spareTaken (die core : Nat) (p : Pkg) : Pkg :=
  { p with sparesUsed := Sparse.set 0 p.sparesUsed die (Sparse.get 0 p.sparesUsed die + 1), failedCores := p.failedCores ++ [core] }

theorem repair_takes (hmine : Repairable s pkg part die core) (hheld : ¬ coreHeld s (pkg * 1024 + core) = true)
    (hused : Sparse.get 0 (getPkg s pkg).sparesUsed die < 8) :
    exec (.repair pkg part die core) s = .next (answered (modPkg (setCore s (pkg * 1024 + core) {}) pkg (spareTaken die core)) pkg part 0) := by
  change execRepair pkg part die core s = _
  refine mailbox_answers (v := 0) h ?_
  exact (if_neg ((repairable_iff ..).1 hmine)).trans ((if_neg hheld).trans (if_neg (by omega)))

end

-- TLOAD

/-- A core that a deferred fault has stopped, not for good (R314). -/
abbrev DeferredStop (c : CoreState) : Prop :=
  ∃ x : Stop, c.stop = some x ∧ isDeferred x.code = true ∧
    c.repaired.count (Stream.code x.stream, (x.detail.getD 2 0).toNat, x.prog, (x.detail.getD 0 0).toNat) ≤ 1

omit h in
theorem deferredStop_iff (c : CoreState) : deferredStop c = true ↔ DeferredStop c := by
  unfold deferredStop
  split
  · rename_i x hx
    rw [Bool.and_eq_true, decide_eq_true_eq]
    refine ⟨fun hd => ⟨x, hx, hd⟩, ?_⟩
    rintro ⟨y, hy, hd⟩
    obtain rfl := Option.some.inj (hx.symm.trans hy)
    exact hd
  · rename_i hx
    refine ⟨fun hf => (nomatch hf), ?_⟩
    rintro ⟨y, hy, _⟩
    rw [hx] at hy
    cases hy

omit h in
theorem memberCore_stopped {d : Domain} {core q : Nat} (hq : q ∈ d.all) (hnum : numOf q = core) (hstop : (getCore s q).stop ≠ none) :
    memberCore s d core ∈ d.all ∧ numOf (memberCore s d core) = core ∧ (getCore s (memberCore s d core)).stop ≠ none := by
  have hmem : q ∈ d.all.filter (fun k => numOf k == core) := List.mem_filter.2 ⟨hq, by rw [hnum]; exact beq_self_eq_true core⟩
  unfold memberCore
  cases hk : (d.all.filter (fun k => numOf k == core)).find? (fun k => (getCore s k).stop.isSome) with
  | none => exact absurd (Option.isSome_iff_ne_none.2 hstop) (List.find?_eq_none.1 hk q hmem)
  | some k =>
    obtain ⟨hall, hn⟩ := List.mem_filter.1 (List.mem_of_find?_eq_some hk)
    exact ⟨hall, beq_iff_eq.1 hn, Option.isSome_iff_ne_none.1 (List.find?_some (p := fun k => (getCore s k).stop.isSome) hk)⟩

/-- The entry of a core's table written. -/
def entryPut (n : Nat) (e : RangeEntry) (s : State) (q : Nat) : State := modCore s q fun c => setRange c n (if e.valid then e else {})

section
variable {n : Nat} {e : RangeEntry}

omit h in
theorem tidy_entryPut (ht : Tidy s) (q : Nat) : Tidy (entryPut n e s q) := tidy_modCore ht fun _ hc => ⟨hc.form⟩

omit h in
/-- The table of every core that is named holds the entry. -/
theorem entryPut_each (ht : Tidy s) (l : List Nat) {q : Nat} (hw : Sparse.wfFrom {} 0 (getCore s q).ranges = true)
    (hq : q ∈ l ∨ Sparse.get {} (getCore s q).ranges n = (if e.valid = true then e else {})) :
    Sparse.get {} (getCore (l.foldl (entryPut n e) s) q).ranges n = (if e.valid = true then e else {}) := by
  induction l generalizing s with
  | nil => exact hq.resolve_left List.not_mem_nil
  | cons x r ih =>
    rw [List.foldl_cons]
    by_cases hx : q = x
    · subst hx
      have hcore : getCore (entryPut n e s q) q = setRange (getCore s q) n (if e.valid = true then e else {}) := getCore_setCore_wf _ _ _ ht.cores
      refine ih (tidy_entryPut ht q) ?_ (.inr ?_)
      · rw [hcore]
        exact wf_set0 hw
      · rw [hcore]
        exact get_set_wf _ _ _ hw
    · have hcore : getCore (entryPut n e s x) q = getCore s q := getCore_modCore_ne _ _ hx
      exact ih (tidy_entryPut ht x) (by rw [hcore]; exact hw) (by rw [hcore]; exact hq.imp_left fun hm => (List.mem_cons.1 hm).resolve_left hx)

omit h in
theorem entryPut_other (s : State) (l : List Nat) {q : Nat} (hq : q ∉ l) : getCore (l.foldl (entryPut n e) s) q = getCore s q := by
  induction l generalizing s with
  | nil => rfl
  | cons x r ih =>
    rw [List.foldl_cons, ih _ fun hm => hq (List.mem_cons_of_mem _ hm)]
    exact getCore_modCore_ne _ _ fun hx => hq (hx ▸ List.mem_cons_self)

omit h in
theorem entryPut_rest (s : State) (l : List Nat) : ∃ cores, l.foldl (entryPut n e) s = { s with cores := cores } := foldl_rest (fun _ _ => ⟨_, rfl⟩) l s

end

section
variable {pid core n : Nat} {image : List Word} {d : Domain} (hd : partDom s pkg part pid = some d)
include hd

/-- TLOAD is taken. -/
abbrev TloadTaken (s : State) (part n : Nat) (d : Domain) (k : Nat) (e : RangeEntry) : Prop :=
  k ∈ d.all ∧ DeferredStop (getCore s k) ∧ n < 64 ∧ rloadFault (getCore s k).ranges n d.asid (getPart s (pkgOf k) part) (featOn s k part 1) e = none

theorem tload_refused (hno : ¬ TloadTaken s part n d (memberCore s d core) (entryOf (Machine.imageOf image))) :
    exec (.tload pkg part pid core n image) s = .next (answered s pkg part 1) := by
  change execTload pkg part pid core n image s = _
  refine mailbox_answers (v := 1) h ?_
  rw [hd]
  dsimp only
  split
  · rfl
  · rename_i hok
    rw [not_or, not_or, not_le, Bool.not_eq_false, Bool.not_eq_false, List.contains_iff_mem, deferredStop_iff] at hok
    split
    · rfl
    · rename_i hfault
      exact absurd ⟨hok.1, hok.2.1, hok.2.2, hfault⟩ hno

theorem tload_writes (hok : TloadTaken s part n d (memberCore s d core) (entryOf (Machine.imageOf image))) :
    exec (.tload pkg part pid core n image) s =
      .next (answered ((bothOf d (memberCore s d core)).foldl (entryPut n (entryOf (Machine.imageOf image))) s) pkg part 0) := by
  obtain ⟨hmem, hstop, hn, hfault⟩ := hok
  change execTload pkg part pid core n image s = _
  refine mailbox_answers (v := 0) h ?_
  rw [hd]
  dsimp only
  rw [if_neg, hfault, bothOf]
  · cases partnerOf d (memberCore s d core) with
    | none => rfl
    | some q => rfl
  · rw [not_or, not_or, not_le, Bool.not_eq_false, Bool.not_eq_false, List.contains_iff_mem, deferredStop_iff]
    exact ⟨hmem, hstop, hn⟩

end

end

-- The commands of a configured partition ---------------------------------------------------------------------------------------------------------------------

section
variable {s : State} {pkg part : Nat}

theorem unconfigured_ignores (h : (getPart s pkg part).configured = false) (no : Nat) (rec : List Word) (area die a b : Nat) (v : Word) (pid core n : Nat) :
    ∀ i ∈ [Instr.build pkg part no rec, .armx pkg part no, .kill pkg part pid, .ckpt pkg part pid, .resume pkg part pid, .restore pkg part area,
      .rings pkg part die a b, .window pkg part n rec, .policy pkg part die n v, .repair pkg part die core, .tload pkg part pid core n rec],
      exec i s = .next s := by
  simp only [List.mem_cons, List.not_mem_nil, or_false]
  rintro i (rfl | rfl | rfl | rfl | rfl | rfl | rfl | rfl | rfl | rfl | rfl) <;> (unfold exec; exact mailbox_unconfigured h)

variable (h : (getPart s pkg part).configured = true)
include h

theorem resume_spec (ht : Tidy s) {pid : Nat} {d : Domain} (hfind : findDom s (pourKey pkg pid) = some d) (hp : d.part = part) (hok : Resumable s d) :
    ∃ (u : State) (e : Domain), exec (.resume pkg part pid) s = .next u ∧ (getPart u pkg part).status = 0 ∧
      findDom u d.pid = some e ∧ e.status = .catchUp ∧ e.dcc ≤ d.dcc ∧
      (∀ c ∈ e.causes, c.code = 6 → c.cleared = true ∧ c.agent.kind = 5 ∧ (s.ctx.sys = true → c.agent.core = numOf s.ctx.core)) ∧
      (∀ k ∈ d.all, (getCore u k).stop = none ∧ ∀ x : Stop, (getCore s k).stop = some x → e.dcc ≤ x.cycle) ∧
      e.causes.filter (fun c => c.code != 6) = d.causes.filter (fun c => c.code != 6) ∧ u.mem = s.mem := by
  have hpid : findDom s d.pid = some d := by
    have hkey : d.pid = pourKey pkg pid := beq_iff_eq.1 (List.find?_some (p := fun e : Domain => e.pid == pourKey pkg pid) hfind)
    rw [hkey]
    exact hfind
  obtain ⟨hdom, hstops, hmem, hpkgs⟩ := beginCatchUp_spec ht hpid (systemAgent s pkg part)
  obtain ⟨hopen, hother⟩ := caughtUp_causes s.clock (firstStop s d) (systemAgent s pkg part) d
  obtain ⟨hdcc, hcores⟩ := firstStop_le s d
  have hconf : (getPart (beginCatchUp s d.pid (systemAgent s pkg part)) pkg part).configured = true := by
    rw [getPart, getPkg, hpkgs]
    exact h
  refine ⟨_, _, resume_begins h (partDom_of hfind hp) hok, by rw [getPart_answered hconf], hdom, rfl, hdcc, fun c hc h6 => ?_,
    fun k hk => ⟨hstops k hk, hcores k hk⟩, hother, hmem⟩
  obtain ⟨hclear, hagent⟩ := hopen c hc h6
  refine ⟨hclear, by rw [hagent]; rfl, fun hsys => ?_⟩
  rw [hagent]
  exact if_pos hsys

theorem policy_spec {die field : Nat} {value : Word} (hok : field = 0 ∨ foreignAddr s pkg part (field - 1) = false)
    (hw : Sparse.wfFrom 0 0 (getPkg s pkg).power = true) :
    ∃ u : State, exec (.policy pkg part die field value) s = .next u ∧ (getPart u pkg part).status = 0 ∧
      (getPkg u pkg).emergency = (if field = 2 ^ 39 + 1 then value.toNat else (getPkg s pkg).emergency) ∧
      (∀ n, Sparse.get 0 (getPkg u pkg).power n = if field = n + 1 then value.toNat else Sparse.get 0 (getPkg s pkg).power n) ∧
      (die, field, value) ∈ (getPkg u pkg).policies ∧ (getPkg u pkg).powerBudget = (if field = 0 then value.toNat else (getPkg s pkg).powerBudget) ∧
      u.cores = s.cores ∧ u.mem = s.mem ∧
      (field ≠ 2 ^ 39 + 1 ∨ (getPkg s pkg).thermal = true ∨ ¬ (∃ x ∈ (getPkg s pkg).sensors, value.toNat < x.2) → u.domains = s.domains) ∧
      (field ≠ 2 ^ 39 + 1 → (getPkg u pkg).thermal = (getPkg s pkg).thermal) ∧
      (field = 2 ^ 39 + 1 → ((getPkg u pkg).thermal = true ↔ ((getPkg s pkg).thermal = false ∧ ∃ x ∈ (getPkg s pkg).sensors, value.toNat < x.2) ∨
          ((getPkg s pkg).thermal = true ∧ ∃ x ∈ (getPkg s pkg).sensors, value.toNat - 5 < x.2)) ∧
        ((getPkg s pkg).thermal = false → (∃ x ∈ (getPkg s pkg).sensors, value.toNat < x.2) → ∀ d, findDom s d.pid = some d → pkg ∈ d.pkgs → d.status = .run →
          ∃ e, findDom u d.pid = some e ∧ e.dcc = d.dcc ∧ e.causes.any (fun x => x.code == 3 && !x.cleared) = true)) := by
  have hpkg : getPkg (modPkg s pkg (policyKept die field value)) pkg = policyKept die field value (getPkg s pkg) :=
    getPkg_keepsParts h fun _ => rfl
  have hconf : (getPart (modPkg s pkg (policyKept die field value)) pkg part).configured = true := by
    rw [getPart_keepsParts (g := policyKept die field value) h fun _ => rfl]
    exact h
  have hpower : ∀ n, Sparse.get 0 (policyKept die field value (getPkg s pkg)).power n =
      if field = n + 1 then value.toNat else Sparse.get 0 (getPkg s pkg).power n := fun n => by
    unfold policyKept
    dsimp only
    cases field with
    | zero => rfl
    | succ m =>
      rw [if_neg (Nat.succ_ne_zero m), Nat.add_sub_cancel, get_set_eq 0 hw]
      exact if_congr (by omega) rfl rfl
  have hkept : (die, field, value) ∈ (policyKept die field value (getPkg s pkg)).policies := List.mem_cons_self
  refine ⟨_, policy_keeps h hok, ?_⟩
  by_cases hf : field = 2 ^ 39 + 1
  · rw [if_pos hf]
    obtain ⟨th, hget, hth, hcores, hmem, hdoms⟩ := thermalCheck_spec (s := modPkg s pkg (policyKept die field value)) hconf
    have hconf' : (getPart (thermalCheck (modPkg s pkg (policyKept die field value)) pkg) pkg part).configured = true := by
      rw [getPart, hget]
      exact hconf
    obtain ⟨parts, hans⟩ := getPkg_answered hconf' 0
    have hemergency : (policyKept die field value (getPkg s pkg)).emergency = value.toNat := if_pos hf
    rw [anyAbove_iff, anyAbove_iff, hpkg, hemergency] at hth
    rw [anyAbove_iff, hpkg, hemergency] at hdoms
    rw [hans, hget, hpkg]
    refine ⟨by rw [getPart_answered hconf'], rfl, hpower, hkept, rfl, hcores, hmem, fun hno => hdoms (hno.resolve_left (not_not_intro hf)), fun hno => absurd hf hno,
      fun _ => ⟨hth, fun hcool hup d hd hin _ => ?_⟩⟩
    refine thermalCheck_heats (s := modPkg s pkg (policyKept die field value)) (by rw [hpkg]; exact hcool) ?_ hd hin
    rw [anyAbove_iff, hpkg, hemergency]
    exact hup
  · rw [if_neg hf]
    obtain ⟨parts, hans⟩ := getPkg_answered hconf 0
    rw [hans, hpkg]
    exact ⟨by rw [getPart_answered hconf], rfl, hpower, hkept, rfl, rfl, rfl, fun _ => rfl, fun _ => rfl, fun hyes => absurd hyes hf⟩

theorem repair_spec (ht : Tidy s) {die core : Nat} (hmine : Repairable s pkg part die core) (hheld : ¬ coreHeld s (pkg * 1024 + core) = true)
    (hused : Sparse.get 0 (getPkg s pkg).sparesUsed die < 8) :
    ∃ u : State, exec (.repair pkg part die core) s = .next u ∧ (getPart u pkg part).status = 0 ∧ getCore u (pkg * 1024 + core) = {} ∧
      (∀ (q : Nat), q ≠ pkg * 1024 + core → getCore u q = getCore s q) ∧
      (getPkg u pkg).sparesUsed = Sparse.set 0 (getPkg s pkg).sparesUsed die (Sparse.get 0 (getPkg s pkg).sparesUsed die + 1) ∧
      core ∈ (getPkg u pkg).failedCores ∧ u.mem = s.mem ∧ u.domains = s.domains := by
  have hpkg : getPkg (modPkg (setCore s (pkg * 1024 + core) {}) pkg (spareTaken die core)) pkg = spareTaken die core (getPkg s pkg) :=
    getPkg_keepsParts (s := setCore s (pkg * 1024 + core) {}) h fun _ => rfl
  have hconf : (getPart (modPkg (setCore s (pkg * 1024 + core) {}) pkg (spareTaken die core)) pkg part).configured = true := by
    rw [getPart_keepsParts (s := setCore s (pkg * 1024 + core) {}) (g := spareTaken die core) h fun _ => rfl]
    exact h
  obtain ⟨parts, hans⟩ := getPkg_answered hconf 0
  refine ⟨_, repair_takes h hmine hheld hused, by rw [getPart_answered hconf], getCore_setCore_wf s _ {} ht.cores,
    fun q hq => getCore_setCore_ne s {} hq, ?_, ?_, rfl, rfl⟩
  · rw [hans, hpkg]
    rfl
  · rw [hans, hpkg]
    exact List.mem_append_right _ List.mem_cons_self

theorem tload_spec (ht : Tidy s) {pid core n : Nat} {image : List Word} {d : Domain} (hd : partDom s pkg part pid = some d)
    (hok : TloadTaken s part n d (memberCore s d core) (entryOf (Machine.imageOf image))) :
    ∃ u : State, exec (.tload pkg part pid core n image) s = .next u ∧ (getPart u pkg part).status = 0 ∧
      (∀ (q : Nat), q = memberCore s d core ∨ partnerOf d (memberCore s d core) = some q → Sparse.wfFrom {} 0 (getCore s q).ranges = true →
        Sparse.get {} (getCore u q).ranges n = (if (entryOf (Machine.imageOf image)).valid = true then entryOf (Machine.imageOf image) else {})) ∧
      (∀ (q : Nat), q ≠ memberCore s d core → partnerOf d (memberCore s d core) ≠ some q → getCore u q = getCore s q) ∧ u.mem = s.mem ∧
      u.domains = s.domains := by
  obtain ⟨cores, hrest⟩ := entryPut_rest (n := n) (e := entryOf (Machine.imageOf image)) s (bothOf d (memberCore s d core))
  have hconf : (getPart ((bothOf d (memberCore s d core)).foldl (entryPut n (entryOf (Machine.imageOf image))) s) pkg part).configured = true := by
    rw [hrest]
    exact h
  have hboth : ∀ q, q ∈ bothOf d (memberCore s d core) ↔ q = memberCore s d core ∨ partnerOf d (memberCore s d core) = some q := fun q => by
    rw [bothOf, List.mem_cons, Option.mem_toList]
  refine ⟨_, tload_writes h hd hok, by rw [getPart_answered hconf], fun q hq hw => ?_, fun q hk hpart => ?_, ?_, ?_⟩
  · exact entryPut_each ht _ hw (.inl ((hboth q).2 hq))
  · exact entryPut_other s _ fun hm => ((hboth q).1 hm).elim hk hpart
  · rw [hrest]
    rfl
  · rw [hrest]
    rfl

end

/-- Settles O58: each record by its command's lemma. -/
theorem mailboxCommands : Obligations.MailboxCommands := by
  unfold Obligations.MailboxCommands
  intro s pkg part
  dsimp only
  refine ⟨unconfigured_ignores, fun h => ⟨?_, ?_, ?_, ?_, ?_, ?_, ?_, ?_, ?_, ?_, ?_⟩⟩
  · exact fun no rec => ⟨build_refused h, build_keeps h⟩
  · refine fun no => ⟨fun hno => ?_, fun hown hfull => ?_, fun e hown harm he hfree hlow => ?_⟩
    · exact armx_answers h (armMould_foreign (Bool.eq_false_iff.2 (mt (ownedMould_iff _ _).1 hno)))
    · exact armx_answers h (armMould_full ((ownedMould_iff _ _).2 hown) (hfull.imp_right freeEntry_none))
    · obtain ⟨u, hu, hpart, hdoms, hcores, hmem⟩ := armx_arms h hown harm he (fun ⟨a, ha, hae⟩ => hfree a ha hae) hlow
      exact ⟨u, _, hu, by rw [hpart], by rw [hpart], rfl, rfl, rfl, rfl, rfl, rfl, by rw [hpart], hdoms, hcores, hmem⟩
  · rintro pid d ⟨hfind, hp⟩
    have hd := partDom_of hfind hp
    refine ⟨kill_running h hd, ⟨ckpt_saves h hd, ckpt_busy h hd⟩, ckpt_refused h hd, fun i q r => ckpt_decides h hd, fun i q r => usableRtt_spec,
      resume_refused h hd, fun hok ht => resume_spec h ⟨ht⟩ hfind hp hok⟩
  · intro pid hno
    have hd := partDom_none hno
    refine ⟨ckpt_none h hd, resume_none h hd, fun a ha hp => kill_waiting h hd (partArmed_of ha hp), fun hnot => kill_none h hd (partArmed_none hnot)⟩
  · refine fun area => ⟨fun v hv => ?_, fun v hv => ⟨restore_refused h hv, fun hmine hp hrun hwait => ?_⟩, restore_none h⟩
    · obtain ⟨hmem, harea, hpid, hf⟩ := savedAt_spec hv
      exact ⟨hmem, by omega, hpid, hf⟩
    · refine ⟨restoring s part _ v, rfl, rfl, rfl, rfl, rfl, rfl, rfl, restore_waits h hv ?_⟩
      rw [RestoreRefused, hmine, hp, hrun, hwait]
      simp
  · exact fun die a b => ⟨rings_refused h, rings_placed h⟩
  · intro w rec
    refine ⟨window_beyond h, window_clears h, fun hw hv hgood => window_registers h hw hv ((windowValid_iff ..).2 ?_),
      fun hw hv hbad => window_refused h hw hv (mt (windowValid_iff ..).1 ?_)⟩
    · obtain ⟨h0, h0m, h1, h1m, h2, h3, hexp⟩ := hgood
      exact ⟨h0, h0m, h1, h1m, h2, h3, hexp⟩
    · exact hbad
  · exact fun die field value => policy_refused h
  · exact fun die field value => policy_spec h
  · refine fun die core => ⟨repair_foreign h, fun hmine hheld => ?_, fun hmine hheld => ?_, fun hmine hheld hused ht => ?_⟩
    · exact repair_busy h hmine ((coreHeld_iff ..).2 hheld)
    · exact repair_without h hmine (mt (coreHeld_iff ..).1 hheld)
    · exact repair_spec h ⟨ht⟩ hmine (mt (coreHeld_iff ..).1 hheld) hused
  · rintro pid core n image d ⟨hfind, hp⟩
    have hd := partDom_of hfind hp
    exact ⟨fun ⟨q, hq, hnum, hstop⟩ => memberCore_stopped hq hnum hstop, tload_refused h hd, fun hok ht => tload_spec h ⟨ht⟩ hd hok⟩

end Sys2Proof.Proofs
end

