-- ==== Sys2Proof/Proofs/Service.lean ====
section
/-! PROOF. Features, management space, boot, measurement, lifecycle, attestation and update (R350, R356, R359 to R367). -/

namespace Sys2Proof.Proofs

open Sys2Proof Sys2Proof.Machine Sys2Proof.Claims Sys2Proof.Laws

-- Packages in canonical form -----------------------------------------------------------------------------------------------------------------------------------

/-- The table of packages is in canonical form. -/
abbrev PkgsWf (s : State) : Prop := Sparse.wfFrom {} 0 s.pkgs = true

theorem pkgsWf_modPkg {s : State} (hw : PkgsWf s) (pkg : Nat) (f : Pkg → Pkg) : PkgsWf (modPkg s pkg f) := wf_set0 hw

theorem getPkg_modPkg_wf {s : State} (hw : PkgsWf s) (pkg : Nat) (f : Pkg → Pkg) : getPkg (modPkg s pkg f) pkg = f (getPkg s pkg) :=
  getPkg_setPkg_wf s pkg _ hw

-- Features (R354, R356) ----------------------------------------------------------------------------------------------------------------------------------------

section
variable {s : State} {pkg fn : Nat}

theorem hasBar_iff (s : State) (pkg fn : Nat) : hasBar s pkg fn = true ↔ ¬ (17 ≤ fn ∨ fn ≠ 0 ∧ (getPart s pkg (fn - 1)).configured = false) := by
  rw [hasBar, Bool.or_eq_true, Bool.and_eq_true, beq_iff_eq, decide_eq_true_eq, not_or, not_and, Bool.not_eq_false, not_le]
  constructor
  · rintro (h | ⟨h1, h2⟩)
    · exact ⟨by omega, fun hno => absurd h hno⟩
    · exact ⟨by omega, fun _ => h2⟩
  · rintro ⟨h1, h2⟩
    by_cases h : fn = 0
    · exact .inl h
    · exact .inr ⟨by omega, h2 h⟩

theorem hasBar_of (h : fn ≠ 0 → fn < 17 ∧ (getPart s pkg (fn - 1)).configured = true) : hasBar s pkg fn = true :=
  (hasBar_iff s pkg fn).2 fun hno => by
    by_cases h0 : fn = 0
    · subst h0
      exact hno.elim (by omega) fun hf => hf.1 rfl
    · obtain ⟨h1, h2⟩ := h h0
      rw [h2] at hno
      exact hno.elim (by omega) fun hf => (nomatch hf.2)

/-- A pour of a partition is armed or running. -/
theorem partBusy_iff (s : State) (pkg part : Nat) : partBusy s pkg part = true ↔
    (getPart s pkg part).pool ≠ [] ∨ (∃ a ∈ (getPkg s pkg).waiting, a.part = part) ∨ ∃ d ∈ s.domains, d.home = pkg ∧ d.part = part := by
  rw [partBusy, Bool.or_eq_true, Bool.or_eq_true, Bool.not_eq_true', List.isEmpty_eq_false_iff, or_assoc]
  simp only [List.any_eq_true, Bool.and_eq_true, beq_iff_eq]

theorem featCommit_off (h : ¬ hasBar s pkg fn = true) (accept : BitVec 256) : exec (.featCommit pkg fn accept) s = .next s :=
  congrArg Host.Outcome.next (if_neg h)

section
variable (hw : PkgsWf s) (hbar : hasBar s pkg fn = true)
include hw

/-- FEAT_ACCEPT does not tell whether a pour is armed or runs. -/
theorem partBusy_setAccept (v : BitVec 256) (part : Nat) : partBusy (setAccept s pkg fn v) pkg part = partBusy s pkg part := by
  unfold partBusy getPart setAccept
  rw [getPkg_modPkg_wf hw]
  rfl

include hbar

theorem featCommit_ignored (h0 : fn ≠ 0) (hbusy : partBusy s pkg (fn - 1) = true) (accept : BitVec 256) :
    exec (.featCommit pkg fn accept) s = .next (setAccept s pkg fn accept) := by
  change execFeatCommit pkg fn accept s = _
  rw [execFeatCommit, if_pos hbar, commitFeat, partBusy_setAccept hw, if_pos ⟨h0, hbusy⟩]

theorem featCommit_commits (hbusy : ¬ (fn ≠ 0 ∧ partBusy s pkg (fn - 1) = true)) (ha : Sparse.wfFrom 0 0 (getPkg s pkg).featActive = true)
    (hc : Sparse.wfFrom 0 0 (getPkg s pkg).featAccept = true) (accept : BitVec 256) : ∃ u, exec (.featCommit pkg fn accept) s = .next u ∧
      Sparse.get 0 (getPkg u pkg).featActive fn = accept &&& Sparse.get 0 (getPkg s pkg).featOffer fn ∧
      (∀ g, g ≠ fn → Sparse.get 0 (getPkg u pkg).featActive g = Sparse.get 0 (getPkg s pkg).featActive g) ∧ u.cores = s.cores ∧
      u.domains = s.domains := by
  have hexec : exec (.featCommit pkg fn accept) s = .next (modPkg (setAccept s pkg fn accept) pkg fun p =>
      { p with featActive := Sparse.set 0 p.featActive fn (Sparse.get 0 p.featAccept fn &&& Sparse.get 0 p.featOffer fn) }) := by
    change execFeatCommit pkg fn accept s = _
    rw [execFeatCommit, if_pos hbar, commitFeat, partBusy_setAccept hw, if_neg hbusy]
  have hset : PkgsWf (setAccept s pkg fn accept) := pkgsWf_modPkg hw pkg _
  refine ⟨_, hexec, ?_, fun g hg => ?_, rfl, rfl⟩
  · rw [getPkg_modPkg_wf hset, setAccept, getPkg_modPkg_wf hw]
    dsimp only
    rw [get_set_wf _ _ _ hc]
    exact get_set_wf _ _ _ ha
  · rw [getPkg_modPkg_wf hset, setAccept, getPkg_modPkg_wf hw]
    exact get_set_ne _ _ _ hg

end

end

-- Management space (R328, R350, R356; log 14) ------------------------------------------------------------------------------------------------------------------

section
variable {s : State} {pkg : Nat}

/-- A word of a function's copy of a feature register. -/
theorem mgmtReg_feat {fn r w : Nat} (hr : r < 3) (hw : w < 4) : mgmtReg (2 ^ 41 * fn + 8 * w + (0x100 + 0x20 * r)) = .feat fn r w := by
  have hmod : (2 ^ 41 * fn + 8 * w + (0x100 + 0x20 * r)) % 2 ^ 41 = 8 * w + (0x100 + 0x20 * r) := by omega
  have hdiv : (2 ^ 41 * fn + 8 * w + (0x100 + 0x20 * r)) / 2 ^ 41 = fn := by omega
  have hreg : (8 * w + (0x100 + 0x20 * r) - 0x100) / 0x20 = r := by omega
  have hword : (8 * w + (0x100 + 0x20 * r) - 0x100) % 0x20 / 8 = w := by omega
  unfold mgmtReg
  dsimp only
  rw [if_neg (by omega), if_neg, if_neg (by omega), featReg]
  · rw [hmod, hdiv, hreg, hword, if_pos (by omega)]
  · unfold Config.coresPerPackage
    omega

theorem mgmtReg_selector {c n : Nat} (hc : c < 640) (hn : n < 8) : mgmtReg (0x80000 + 0x80 * c + 0x40 + 8 * n) = .selector c n := by
  unfold mgmtReg Config.coresPerPackage
  dsimp only
  rw [if_neg (by omega), if_pos (by omega), if_neg (by omega), show (0x80000 + 0x80 * c + 0x40 + 8 * n - 0x80000) / 0x80 = c by omega,
    show ((0x80000 + 0x80 * c + 0x40 + 8 * n - 0x80000) % 0x80 - 0x40) / 8 = n by omega]

theorem mgmtReg_counter {c n : Nat} (hc : c < 640) (hn : n < 8) : mgmtReg (0x80000 + 0x80 * c + 8 * n) = .counter c n := by
  unfold mgmtReg Config.coresPerPackage
  dsimp only
  rw [if_neg (by omega), if_pos (by omega), if_pos (by omega), show (0x80000 + 0x80 * c + 8 * n - 0x80000) / 0x80 = c by omega,
    show (0x80000 + 0x80 * c + 8 * n - 0x80000) % 0x80 / 8 = n by omega]

theorem mgmtReg_link {l w : Nat} (hl : l < 32) (hw : w < 8) : mgmtReg (0x40000 + 0x40 * l + 8 * w) = .link l w := by
  unfold mgmtReg Config.coresPerPackage
  dsimp only
  rw [if_neg (by omega), if_neg (by omega), if_pos (by omega), show (0x40000 + 0x40 * l + 8 * w - 0x40000) / 0x40 = l by omega,
    show (0x40000 + 0x40 * l + 8 * w - 0x40000) % 0x40 / 8 = w by omega]

/-- An address of device memory behind a function's BAR. -/
theorem mgmtReg_memory {fn pa : Nat} (hpa : pa < 2 ^ 39) (h8 : pa % 8 = 0) : mgmtReg (2 ^ 41 * fn + 2 ^ 39 + pa) = .none := by
  have hmod : (2 ^ 41 * fn + 2 ^ 39 + pa) % 2 ^ 41 = 2 ^ 39 + pa := by omega
  unfold mgmtReg
  dsimp only
  rw [if_neg (by omega), if_neg, if_neg (by omega), featReg]
  · rw [hmod, if_neg (by omega)]
  · unfold Config.coresPerPackage
    omega

/-- One of a function's three feature registers. -/
def featOf (p : Pkg) (fn r : Nat) : BitVec 256 :=
  if r = 0 then Sparse.get 0 p.featOffer fn else if r = 1 then Sparse.get 0 p.featAccept fn else Sparse.get 0 p.featActive fn

theorem managementRead_feat {fn w r : Nat} (hbar : hasBar s pkg fn = true) (hr : r < 3) (hw : w < 4) :
    (managementRead s pkg (2 ^ 41 * fn + 8 * w + (0x100 + 0x20 * r))).toNat = (featOf (getPkg s pkg) fn r).toNat / 2 ^ (64 * w) % 2 ^ 64 := by
  have hread : managementRead s pkg (2 ^ 41 * fn + 8 * w + (0x100 + 0x20 * r)) = toWord (bits (featOf (getPkg s pkg) fn r).toNat (64 * w) 64) := by
    unfold managementRead
    rw [mgmtReg_feat hr hw]
    dsimp only
    rw [if_pos hbar]
    interval_cases r <;> rfl
  rw [hread]
  exact Nat.mod_eq_of_lt (Nat.mod_lt _ (Nat.two_pow_pos 64))

/-- A word of a number replaced. -/
theorem testBit_replace {x k v : Nat} (hv : v < 2 ^ 64) (i : Nat) : (x - x / 2 ^ k % 2 ^ 64 * 2 ^ k + v * 2 ^ k).testBit i =
    if i < k ∨ k + 64 ≤ i then x.testBit i else v.testBit (i - k) := by
  have hsplit : x = 2 ^ k * (2 ^ 64 * (x / 2 ^ k / 2 ^ 64) + x / 2 ^ k % 2 ^ 64) + x % 2 ^ k := by
    rw [Nat.div_add_mod, Nat.div_add_mod]
  have hnew : x - x / 2 ^ k % 2 ^ 64 * 2 ^ k + v * 2 ^ k = 2 ^ k * (2 ^ 64 * (x / 2 ^ k / 2 ^ 64) + v) + x % 2 ^ k := by
    conv_lhs => lhs; lhs; rw [hsplit]
    rw [Nat.mul_add, Nat.mul_add, Nat.mul_comm (2 ^ k) (x / 2 ^ k % 2 ^ 64), Nat.mul_comm v]
    omega
  have hlow : x % 2 ^ k < 2 ^ k := Nat.mod_lt _ (Nat.two_pow_pos k)
  rw [hnew, Nat.testBit_two_pow_mul_add _ hlow, Nat.testBit_two_pow_mul_add _ hv, Nat.testBit_mod_two_pow, Nat.testBit_div_two_pow, Nat.testBit_div_two_pow]
  by_cases h1 : i < k
  · rw [if_pos h1, if_pos (.inl h1), decide_eq_true h1, Bool.true_and]
  · rw [if_neg h1]
    by_cases h2 : k + 64 ≤ i
    · rw [if_neg (by omega), if_pos (.inr h2), show i - k - 64 + 64 + k = i by omega]
    · rw [if_pos (by omega), if_neg (by omega)]

theorem accept_write {fn w : Nat} (hbar : hasBar s pkg fn = true) (hw : w < 3) (v : Word) : ∃ x : BitVec 256,
    exec (.managementRegisterWrite pkg (2 ^ 41 * fn + 8 * w + 0x120) v) s =
      .next (modPkg s pkg fun q => { q with featAccept := Sparse.set 0 q.featAccept fn x }) ∧
    ∀ i, i < 256 → x.getLsbD i = if i / 64 = w then v.getLsbD (i % 64) else (Sparse.get 0 (getPkg s pkg).featAccept fn).getLsbD i := by
  refine ⟨BitVec.ofNat 256 ((Sparse.get 0 (getPkg s pkg).featAccept fn).toNat - bits (Sparse.get 0 (getPkg s pkg).featAccept fn).toNat (64 * w) 64 * 2 ^ (64 * w) +
    v.toNat * 2 ^ (64 * w)), ?_, fun i hi => ?_⟩
  · have hwrite : exec (.managementRegisterWrite pkg (2 ^ 41 * fn + 8 * w + 0x120) v) s = .next (writeAccept s pkg fn w v) := by
      change execManagementRegisterWrite pkg _ v s = _
      rw [execManagementRegisterWrite, mgmtReg_feat (r := 1) (by omega) (by omega)]
      rfl
    rw [hwrite, writeAccept, if_pos hbar]
    exact congrArg Host.Outcome.next (if_neg (by omega))
  · rw [BitVec.getLsbD_ofNat, decide_eq_true hi, Bool.true_and]
    refine (testBit_replace v.isLt i).trans ?_
    by_cases h : i / 64 = w
    · rw [if_neg (by omega), if_pos h, show i - 64 * w = i % 64 by omega]
      rfl
    · rw [if_pos (by omega), if_neg h]
      rfl

/-- A read-only register of the management space. -/
theorem registerWrite_ignored {a : Nat} (hreg : (∀ c n, mgmtReg a ≠ .selector c n) ∧ ∀ fn w, mgmtReg a ≠ .feat fn 1 w) (hlow : a % 2 ^ 41 < 2 ^ 39)
    (v : Word) : exec (.managementRegisterWrite pkg a v) s = .next s := by
  change execManagementRegisterWrite pkg a v s = _
  unfold execManagementRegisterWrite
  split
  · rename_i c n h
    exact absurd h (hreg.1 c n)
  · rename_i fn w h
    exact absurd h (hreg.2 fn w)
  · dsimp only
    rw [if_neg fun hno => absurd hno.1 (by omega)]

theorem selector_write {c n : Nat} (hc : c < 640) (hn : n < 8) (v : Word) : exec (.managementRegisterWrite pkg (0x80000 + 0x80 * c + 0x40 + 8 * n) v) s =
    .next (modCore s (pkg * 1024 + c) fun x => { x with evsel := Sparse.set 0 x.evsel n (v &&& 0x7FF) }) := by
  change execManagementRegisterWrite pkg _ v s = _
  rw [execManagementRegisterWrite, mgmtReg_selector hc hn]

theorem counter_registers {c n : Nat} (hc : c < 640) (hn : n < 8) (v : Word) :
    exec (.managementRegisterWrite pkg (0x80000 + 0x80 * c + 8 * n) v) s = .next s ∧
      managementRead s pkg (0x80000 + 0x80 * c + 8 * n) = Sparse.get 0 (getCore s (pkg * 1024 + c)).evcnt n ∧
      managementRead s pkg (0x80000 + 0x80 * c + 0x40 + 8 * n) = Sparse.get 0 (getCore s (pkg * 1024 + c)).evsel n := by
  refine ⟨registerWrite_ignored ?_ (by omega) v, ?_, ?_⟩
  · rw [mgmtReg_counter hc hn]
    exact ⟨fun _ _ h => (nomatch h), fun _ _ h => (nomatch h)⟩
  · rw [managementRead, mgmtReg_counter hc hn]
  · rw [managementRead, mgmtReg_selector hc hn]

-- Device memory behind a BAR (R357)

theorem memory_write {fn pa : Nat} (hpa : pa < 2 ^ 39) (h8 : pa % 8 = 0) (v : Word) :
    exec (.managementRegisterWrite pkg (2 ^ 41 * fn + 2 ^ 39 + pa) v) s = .next (if hostReaches s pkg fn pa then
      noteWrite (memStore (mergeSeen s (.host pkg fn) (fun _ => true)) (pkg * 2 ^ 39 + pa) 8 255 v.toNat) (.host pkg fn) (pkg * 2 ^ 39 + pa) 8 else s) := by
  change execManagementRegisterWrite pkg _ v s = _
  unfold execManagementRegisterWrite
  rw [mgmtReg_memory hpa h8]
  dsimp only
  rw [show (2 ^ 41 * fn + 2 ^ 39 + pa) % 2 ^ 41 - 2 ^ 39 = pa by omega, show (2 ^ 41 * fn + 2 ^ 39 + pa) / 2 ^ 41 = fn by omega]
  exact congrArg Host.Outcome.next (if_congr (and_iff_right (by omega)) rfl rfl)

theorem hostReaches_barred {fn pa : Nat} (hpa : pa < 2 ^ 39) (h8 : pa % 8 = 0) (hbar : hasBar s pkg fn = true) :
    hostReaches s pkg fn pa = true ↔ fn = 0 ∨ foreignAddr s pkg (fn - 1) pa = false := by
  rw [hostReaches, decide_eq_true hpa, hbar, h8]
  simp only [Bool.true_and, beq_self_eq_true, Bool.or_eq_true, Bool.not_eq_true', beq_iff_eq]

theorem memory_write_reaches {fn pa : Nat} (hpa : pa < 2 ^ 39) (h8 : pa % 8 = 0) (hbar : hasBar s pkg fn = true)
    (hown : fn = 0 ∨ foreignAddr s pkg (fn - 1) pa = false) (hm : Memory.wf s.mem = true) (v : Word) : ∃ u : State,
    exec (.managementRegisterWrite pkg (2 ^ 41 * fn + 2 ^ 39 + pa) v) s = .next u ∧ u.cores = s.cores ∧ u.domains = s.domains ∧
      ∀ a, Memory.read u.mem a = lastOr (Memory.read s.mem a) (storedAt s (.memWrite (pkg * 2 ^ 39 + pa) 8 255 v.toNat none) a) := by
  obtain ⟨clocks, hmerge⟩ := mergeSeen_rest s (.host pkg fn) (fun _ => true)
  refine ⟨_, (memory_write hpa h8 v).trans (congrArg Host.Outcome.next (if_pos ((hostReaches_barred hpa h8 hbar).2 hown))), ?_, ?_, fun a => ?_⟩
  · rw [hmerge]
    rfl
  · rw [hmerge]
    rfl
  · rw [noteWrite_mem, hmerge]
    exact read_memStore (s := { s with seen := _, clocks := clocks }) hm _ 8 255 v.toNat a none

theorem memory_write_foreign {fn pa : Nat} (hpa : pa < 2 ^ 39) (h8 : pa % 8 = 0) (hbar : hasBar s pkg fn = true) (h0 : fn ≠ 0)
    (hno : foreignAddr s pkg (fn - 1) pa = true) (v : Word) : exec (.managementRegisterWrite pkg (2 ^ 41 * fn + 2 ^ 39 + pa) v) s = .next s := by
  rw [memory_write hpa h8, if_neg]
  rw [hostReaches_barred hpa h8 hbar, hno]
  exact fun h => h.elim h0 Bool.noConfusion

-- Links (R328)

/-- A word of a link's block. -/
def linkWord (L : Link) (w : Nat) : Word := match w with | 0 => linkStatus L | 1 => L.lcor | 2 => L.lunc | 3 => L.lswp | _ => 0

theorem link_read {l w : Nat} (hl : l < 32) (hw : w < 8) :
    managementRead s pkg (0x40000 + 0x40 * l + 8 * w) = linkWord (getLink s pkg l) w := by
  rw [managementRead, mgmtReg_link hl hw]
  rfl

theorem linkStatus_fields (L : Link) : (linkStatus L).toNat % 2 ^ 3 = L.state.toNat ∧ (linkStatus L).toNat / 2 ^ 3 % 2 = (if L.pcbh = true then 1 else 0) ∧
    (linkStatus L).toNat / 2 ^ 8 % 2 ^ 8 = L.spare.toNat ∧ (linkStatus L).toNat / 2 ^ 16 % 2 ^ 8 = L.lmap.toNat ∧
    (linkStatus L).toNat / 2 ^ 24 % 2 ^ 8 = L.pos.toNat := by
  have hstate := L.state.isLt
  have hspare := L.spare.isLt
  have hlmap := L.lmap.isLt
  have hpos := L.pos.isLt
  have hflag : (if L.pcbh = true then 8 else 0) = 8 * (if L.pcbh = true then 1 else 0) ∧ (if L.pcbh = true then 1 else 0) < 2 := by
    cases L.pcbh <;> decide
  have hword : (linkStatus L).toNat = L.pos.toNat * 2 ^ 24 + L.lmap.toNat * 2 ^ 16 + L.spare.toNat * 2 ^ 8 + 8 * (if L.pcbh = true then 1 else 0) +
      L.state.toNat := by
    rw [← hflag.1, linkStatus, toWord, BitVec.toNat_ofNat, Nat.mod_eq_of_lt]
    rw [hflag.1]
    omega
  rw [hword]
  obtain ⟨-, hb⟩ := hflag
  generalize (if L.pcbh = true then 1 else 0) = b at *
  omega

end

-- Measurement (R360) ---------------------------------------------------------------------------------------------------------------------------------------------

section
variable {s : State} {pkg : Nat}

/-- The security block can extend a register in this local clock. -/
abbrev MeasFree (s : State) (p : Pkg) : Prop := p.measQueue = [] ∧ p.measAt ≠ s.clock + 1

/-- A register extended in this local clock. -/
def measured (clock n : Nat) (e : List Byte) (p : Pkg) : Pkg :=
  { p with meas := Sparse.set 0 p.meas n (extended (Sparse.get 0 p.meas n) e), measAt := clock + 1 }

/-- An event that waits for its local clock. -/
def queuedMeas (n : Nat) (e : List Byte) (p : Pkg) : Pkg := { p with measQueue := p.measQueue ++ [(n, e)] }

theorem extendMeas_free (h : MeasFree s (getPkg s pkg)) (n type part version : Nat) (dig : List Byte) :
    extendMeas s pkg n type part version dig = modPkg s pkg (measured s.clock n (measEvent type part version dig)) :=
  if_neg fun hno => hno.elim h.2 (absurd h.1)

theorem extendMeas_waits (h : ¬ MeasFree s (getPkg s pkg)) (n type part version : Nat) (dig : List Byte) :
    extendMeas s pkg n type part version dig = modPkg s pkg (queuedMeas n (measEvent type part version dig)) :=
  if_pos <| by
    by_cases hat : (getPkg s pkg).measAt = s.clock + 1
    · exact .inl hat
    · exact .inr fun hq => h ⟨hq, hat⟩

/-- What an extension changes. -/
theorem extendMeas_rest (s : State) (pkg n type part version : Nat) (dig : List Byte) :
    ∃ f : Pkg → Pkg, extendMeas s pkg n type part version dig = modPkg s pkg f ∧ ∀ p, ∃ meas at' queue, f p = { p with meas := meas, measAt := at', measQueue := queue } := by
  by_cases h : MeasFree s (getPkg s pkg)
  · exact ⟨_, extendMeas_free h .., fun p => ⟨_, _, _, rfl⟩⟩
  · exact ⟨_, extendMeas_waits h .., fun p => ⟨_, _, _, rfl⟩⟩

/-- An event reaches its register, or its place in the queue. -/
theorem extendMeas_reaches (hw : PkgsWf s) (n type part version : Nat) (dig : List Byte) :
    (MeasFree s (getPkg s pkg) → (getPkg (extendMeas s pkg n type part version dig) pkg).meas =
        Sparse.set 0 (getPkg s pkg).meas n (extended (Sparse.get 0 (getPkg s pkg).meas n) (measEvent type part version dig)) ∧
      (getPkg (extendMeas s pkg n type part version dig) pkg).measQueue = []) ∧
    (¬ MeasFree s (getPkg s pkg) → (getPkg (extendMeas s pkg n type part version dig) pkg).meas = (getPkg s pkg).meas ∧
      (getPkg (extendMeas s pkg n type part version dig) pkg).measQueue = (getPkg s pkg).measQueue ++ [(n, measEvent type part version dig)]) := by
  refine ⟨fun h => ?_, fun h => ?_⟩
  · rw [extendMeas_free h, getPkg_modPkg_wf hw]
    exact ⟨rfl, h.1⟩
  · rw [extendMeas_waits h, getPkg_modPkg_wf hw]
    exact ⟨rfl, rfl⟩

/-- The queue's oldest event extended, and the port opened behind MEAS15. -/
def measTaken (clock n : Nat) (e : List Byte) (r : List (Nat × List Byte)) (p : Pkg) : Pkg :=
  { measured clock n e p with
    measQueue := r
    portOpen := p.portOpen || (p.portDue && n == 15)
    portDue := p.portDue && n != 15 }

theorem measNext_takes (hw : PkgsWf s) {n : Nat} {e : List Byte} {r : List (Nat × List Byte)} (hq : (getPkg s pkg).measQueue = (n, e) :: r)
    (hat : (getPkg s pkg).measAt ≠ s.clock + 1) :
    getPkg (measNext s pkg) pkg = measTaken s.clock n e r (getPkg s pkg) ∧ (measNext s pkg).cores = s.cores := by
  have hnow : getPkg (measNow s pkg n e) pkg = measured s.clock n e (getPkg s pkg) := getPkg_modPkg_wf hw pkg _
  have hwf : PkgsWf (measNow s pkg n e) := pkgsWf_modPkg hw pkg _
  unfold measNext
  rw [hq]
  dsimp only
  rw [if_neg hat]
  refine ⟨?_, rfl⟩
  rw [getPkg_modPkg_wf hwf, hnow]
  rfl

theorem measNext_none (hq : (getPkg s pkg).measQueue = []) : measNext s pkg = s := by
  unfold measNext
  rw [hq]

theorem measNext_waits (hat : (getPkg s pkg).measAt = s.clock + 1) : measNext s pkg = s := by
  unfold measNext
  split
  · exact if_pos hat
  · rfl

/-- The lifecycle state is none of the measurement's. -/
theorem measNext_lifecycle (hw : PkgsWf s) : (getPkg (measNext s pkg) pkg).lifecycle = (getPkg s pkg).lifecycle := by
  by_cases hat : (getPkg s pkg).measAt = s.clock + 1
  · rw [measNext_waits hat]
  · cases hq : (getPkg s pkg).measQueue with
    | nil => rw [measNext_none hq]
    | cons x r =>
      rw [(measNext_takes (e := x.2) hw hq hat).1]
      rfl

theorem secureStep_idle (h : (getPkg s pkg).unlocking = none) : secureStep s pkg = measNext s pkg := by
  rw [secureStep, h]

theorem secureStep_unlocks {token : List Word} (h : (getPkg s pkg).unlocking = some token) :
    secureStep s pkg = measNext (finishUnlock s pkg token) pkg := by
  rw [secureStep, h]

theorem secure_extends (hw : PkgsWf s) (hidle : (getPkg s pkg).unlocking = none) {n : Nat} {e : List Byte} {r : List (Nat × List Byte)}
    (hq : (getPkg s pkg).measQueue = (n, e) :: r) (hat : (getPkg s pkg).measAt ≠ s.clock + 1) : ∃ u, act (.secure pkg) s = .next u ∧
      (getPkg u pkg).meas = Sparse.set 0 (getPkg s pkg).meas n (extended (Sparse.get 0 (getPkg s pkg).meas n) e) ∧
      (getPkg u pkg).measQueue = r ∧
      ((getPkg u pkg).portOpen = true ↔ (getPkg s pkg).portOpen = true ∨ ((getPkg s pkg).portDue = true ∧ n = 15)) ∧ u.cores = s.cores := by
  obtain ⟨hpkg, hcores⟩ := measNext_takes hw hq hat
  refine ⟨_, congrArg Host.Outcome.next (secureStep_idle hidle), by rw [hpkg]; rfl, by rw [hpkg]; rfl, ?_, hcores⟩
  rw [hpkg]
  simp only [measTaken, Bool.or_eq_true, Bool.and_eq_true, beq_iff_eq]

end

-- Boot (R359, R360) ----------------------------------------------------------------------------------------------------------------------------------------------

section
variable {s : State} {pkg : Nat} {img : BootImage}

/-- The package as its hub comes out of reset. -/
def fused (img : BootImage) (p : Pkg) : Pkg :=
  { p with meas := [], measAt := 0, measQueue := [], unlocking := none, portDue := false, unlockFails := 0, bootStage := 0
           rootDigest := if p.rootDigest = 0 then img.fusedDigest else p.rootDigest }

theorem fuseRead_eq (s : State) (pkg : Nat) (img : BootImage) : fuseRead s pkg img = modPkg s pkg (fused img) := rfl

/-- A signature that the root key holds good. -/
abbrev SignedBy (root : BitVec 512) (image : List Byte) (signature : Nat) : Prop := Config.rsaVerify root.toNat (digest image) signature = true

/-- The hub of a package that boots, its hypervisor verified and measured. -/
def booted (s : State) (pkg : Nat) (img : BootImage) : State :=
  modPkg (extendMeas (extendMeas (fuseRead s pkg img) pkg 0 1 0 img.hyperVersion (sha512 img.hyper)) pkg 1 2 0 img.hyperVersion (sha512 img.config)) pkg
    fun p => { p with hubReset := false, hyperVersion := img.hyperVersion, featOffer := Sparse.set 0 p.featOffer 0 0x1F }

/-- The package's record then. -/
def bootedPkg (clock : Nat) (img : BootImage) (p : Pkg) : Pkg :=
  let q := queuedMeas 1 (measEvent 2 0 img.hyperVersion (sha512 img.config)) (measured clock 0 (measEvent 1 0 img.hyperVersion (sha512 img.hyper)) (fused img p))
  { q with hubReset := false, hyperVersion := img.hyperVersion, featOffer := Sparse.set 0 q.featOffer 0 0x1F }

theorem boot_retired (h : (getPkg s pkg).lifecycle = .retired) : exec (.boot pkg img) s = .next s :=
  congrArg Host.Outcome.next (if_pos h)

section
variable (hw : PkgsWf s)
include hw

theorem getPkg_fuseRead : getPkg (fuseRead s pkg img) pkg = fused img (getPkg s pkg) := getPkg_modPkg_wf hw pkg _

theorem booted_pkg : PkgsWf (booted s pkg img) ∧ getPkg (booted s pkg img) pkg = bootedPkg s.clock img (getPkg s pkg) ∧
    (booted s pkg img).domains = s.domains := by
  have hfuse := getPkg_fuseRead (img := img) (pkg := pkg) hw
  have hwf0 : PkgsWf (fuseRead s pkg img) := pkgsWf_modPkg hw pkg _
  have hfree : MeasFree (fuseRead s pkg img) (getPkg (fuseRead s pkg img) pkg) := by
    rw [hfuse]
    exact ⟨rfl, Nat.noConfusion⟩
  have hfirst := extendMeas_free hfree 0 1 0 img.hyperVersion (sha512 img.hyper)
  have hwf1 := pkgsWf_modPkg hwf0 pkg (measured s.clock 0 (measEvent 1 0 img.hyperVersion (sha512 img.hyper)))
  have hpkg1 := getPkg_modPkg_wf hwf0 pkg (measured s.clock 0 (measEvent 1 0 img.hyperVersion (sha512 img.hyper)))
  have hbusy : ¬ MeasFree (modPkg (fuseRead s pkg img) pkg (measured s.clock 0 (measEvent 1 0 img.hyperVersion (sha512 img.hyper))))
      (getPkg (modPkg (fuseRead s pkg img) pkg (measured s.clock 0 (measEvent 1 0 img.hyperVersion (sha512 img.hyper)))) pkg) := by
    rw [hpkg1]
    exact fun h => h.2 rfl
  have hsecond := extendMeas_waits hbusy 1 2 0 img.hyperVersion (sha512 img.config)
  have hwf2 := pkgsWf_modPkg hwf1 pkg (queuedMeas 1 (measEvent 2 0 img.hyperVersion (sha512 img.config)))
  unfold booted
  rw [show extendMeas (fuseRead s pkg img) pkg 0 1 0 img.hyperVersion (sha512 img.hyper) =
    modPkg (fuseRead s pkg img) pkg (measured s.clock 0 (measEvent 1 0 img.hyperVersion (sha512 img.hyper))) from hfirst, hsecond]
  refine ⟨pkgsWf_modPkg hwf2 pkg _, ?_, rfl⟩
  rw [getPkg_modPkg_wf hwf2, getPkg_modPkg_wf hwf1, hpkg1, hfuse]
  rfl

variable (hreset : (getPkg s pkg).hubReset = true) (hlife : (getPkg s pkg).lifecycle ≠ .retired)
include hreset hlife

theorem boot_failsRoot (hroot : BitVec.ofNat 512 (digest img.rootKey) ≠ (fused img (getPkg s pkg)).rootDigest) :
    exec (.boot pkg img) s = .next (bootFails (fuseRead s pkg img) pkg 1) := by
  change execBoot pkg img s = _
  unfold execBoot
  dsimp only
  rw [if_neg hlife, if_pos hreset, getPkg_fuseRead hw, if_pos hroot]

theorem boot_failsHyper (hroot : BitVec.ofNat 512 (digest img.rootKey) = (fused img (getPkg s pkg)).rootDigest)
    (hsig : ¬ SignedBy (fused img (getPkg s pkg)).rootDigest img.hyper img.hyperSig) :
    exec (.boot pkg img) s = .next (bootFails (fuseRead s pkg img) pkg 2) := by
  change execBoot pkg img s = _
  unfold execBoot
  dsimp only
  rw [if_neg hlife, if_pos hreset, signedByRoot, getPkg_fuseRead hw, if_neg (not_not_intro hroot), if_pos (Bool.eq_false_iff.2 hsig)]

theorem boot_runs (hroot : BitVec.ofNat 512 (digest img.rootKey) = (fused img (getPkg s pkg)).rootDigest)
    (hsig : SignedBy (fused img (getPkg s pkg)).rootDigest img.hyper img.hyperSig) :
    exec (.boot pkg img) s = .next ((img.parts.filter fun b => decide (b.no < 16)).foldl (bootPart pkg) (booted s pkg img)) := by
  change execBoot pkg img s = _
  unfold execBoot
  dsimp only
  rw [if_neg hlife, if_pos hreset, signedByRoot, getPkg_fuseRead hw, if_neg (not_not_intro hroot), if_neg (by rw [hsig]; decide)]
  rfl

end

theorem bootFails_spec (hw : PkgsWf s) (hreset : (getPkg s pkg).hubReset = true) (stage : Nat) :
    (getPkg (bootFails (fuseRead s pkg img) pkg stage) pkg).hubReset = true ∧ (getPkg (bootFails (fuseRead s pkg img) pkg stage) pkg).meas = [] ∧
      (getPkg (bootFails (fuseRead s pkg img) pkg stage) pkg).parts = (getPkg s pkg).parts ∧
      (getPkg (bootFails (fuseRead s pkg img) pkg stage) pkg).bootStage = stage := by
  have hwf : PkgsWf (fuseRead s pkg img) := pkgsWf_modPkg hw pkg _
  rw [bootFails, getPkg_modPkg_wf hwf, getPkg_fuseRead hw]
  exact ⟨hreset, rfl, rfl, rfl⟩

-- A partition's image

section
variable {b : BootPart}

/-- A partition as the configuration gives it. -/
def bootedPart (b : BootPart) (started : Bool) (key : Word) : Part :=
  { configured := true, started := started, arming := started, cores := b.cores, sysCores := b.sysCores, mem := b.mem, asids := b.asids, root := b.root
    linkShare := b.linkShare, version := b.version, key := key }

theorem configurePart_pkg (hw : PkgsWf s) (started : Bool) : PkgsWf (configurePart s pkg b started) ∧
    (configurePart s pkg b started).domains = s.domains ∧
    ∃ parts lists exports offer, getPkg (configurePart s pkg b started) pkg =
        { getPkg s pkg with parts := parts, lists := lists, exports := exports, featOffer := offer } ∧
      Sparse.get {} parts b.no = bootedPart b started (getPart s pkg b.no).key := by
  refine ⟨pkgsWf_modPkg hw pkg _, rfl, _, _, _, _, getPkg_modPkg_wf hw pkg _, get_set_same _ _ _ _ fun h => ?_⟩
  exact Bool.noConfusion (congrArg Part.configured h)

theorem extended_zero (e : List Byte) : extended 0 e = BitVec.ofNat 512 (digest (littleBytes 64 0 ++ e)) := by
  rw [extended, show (0 : BitVec 512).toNat = 0 from BitVec.toNat_zero]

/-- What the hub's boot keeps while its partitions start. -/
structure HubBooted (img : BootImage) (p : Pkg) : Prop where
  runs : p.hubReset = false
  stage : p.bootStage = 0
  fails : p.unlockFails = 0
  first : Sparse.get 0 p.meas 0 = extended 0 (measEvent 1 0 img.hyperVersion (sha512 img.hyper))
  second : p.measQueue.head? = some (1, measEvent 2 0 img.hyperVersion (sha512 img.config))

theorem HubBooted.waits {t : State} {p : Pkg} (h : HubBooted img p) : ¬ MeasFree t p := fun hf => by
  have hsecond := h.second
  rw [hf.1] at hsecond
  cases hsecond

theorem hubBooted_bootedPkg (clock : Nat) (img : BootImage) (p : Pkg) : HubBooted img (bootedPkg clock img p) where
  runs := rfl
  stage := rfl
  fails := rfl
  first := by
    unfold bootedPkg queuedMeas measured fused
    dsimp only
    rw [get_set_wf 0 _ _ (lo := 0) rfl, Sparse.get]
  second := rfl

section
variable (hw : PkgsWf s) (hb : HubBooted img (getPkg s pkg))
include hw hb

omit hw in
theorem bootPart_signed (hsig : SignedBy (getPkg s pkg).rootDigest b.image b.signature) :
    bootPart pkg s b = configurePart (modPkg s pkg (queuedMeas 2 (measEvent 3 b.no b.version (sha512 b.image)))) pkg b true := by
  rw [bootPart, signedByRoot, if_pos hsig, extendMeas_waits hb.waits]

omit hw hb in
theorem bootPart_unsigned (hsig : ¬ SignedBy (getPkg s pkg).rootDigest b.image b.signature) : bootPart pkg s b = configurePart s pkg b false := by
  rw [bootPart, signedByRoot, if_neg hsig]

omit hw in
theorem hubBooted_queued (n : Nat) (e : List Byte) : HubBooted img (queuedMeas n e (getPkg s pkg)) where
  runs := hb.runs
  stage := hb.stage
  fails := hb.fails
  first := hb.first
  second := by
    rw [queuedMeas, List.head?_append, hb.second]
    rfl

omit hb in
theorem configurePart_keeps (hb : HubBooted img (getPkg s pkg)) (started : Bool) : HubBooted img (getPkg (configurePart s pkg b started) pkg) := by
  obtain ⟨-, -, parts, lists, exports, offer, hpkg, -⟩ := configurePart_pkg (pkg := pkg) (b := b) hw started
  rw [hpkg]
  exact ⟨hb.runs, hb.stage, hb.fails, hb.first, hb.second⟩

theorem bootPart_keeps : PkgsWf (bootPart pkg s b) ∧ HubBooted img (getPkg (bootPart pkg s b) pkg) ∧ (bootPart pkg s b).domains = s.domains := by
  by_cases hsig : SignedBy (getPkg s pkg).rootDigest b.image b.signature
  · rw [bootPart_signed hb hsig]
    have hwf := pkgsWf_modPkg hw pkg (queuedMeas 2 (measEvent 3 b.no b.version (sha512 b.image)))
    refine ⟨(configurePart_pkg hwf true).1, configurePart_keeps hwf ?_ true, (configurePart_pkg hwf true).2.1⟩
    rw [getPkg_modPkg_wf hw]
    exact hubBooted_queued hb _ _
  · rw [bootPart_unsigned hsig]
    exact ⟨(configurePart_pkg hw false).1, configurePart_keeps hw hb false, (configurePart_pkg hw false).2.1⟩

/-- A partition image, started or not. -/
theorem bootPart_spec : ∃ started : Bool, (started = true ↔ SignedBy (getPkg s pkg).rootDigest b.image b.signature) ∧
    getPart (bootPart pkg s b) pkg b.no = bootedPart b started (getPart s pkg b.no).key ∧
    (getPkg (bootPart pkg s b) pkg).measQueue = (getPkg s pkg).measQueue ++ (if started = true then [(2, measEvent 3 b.no b.version (sha512 b.image))] else []) := by
  by_cases hsig : SignedBy (getPkg s pkg).rootDigest b.image b.signature
  · have hwf := pkgsWf_modPkg hw pkg (queuedMeas 2 (measEvent 3 b.no b.version (sha512 b.image)))
    obtain ⟨-, -, parts, lists, exports, offer, hpkg, hpart⟩ := configurePart_pkg (pkg := pkg) (b := b) hwf true
    refine ⟨true, iff_of_true rfl hsig, ?_, ?_⟩
    · rw [bootPart_signed hb hsig, getPart, hpkg]
      refine hpart.trans (congrArg (bootedPart b true) ?_)
      rw [getPart, getPkg_modPkg_wf hw]
      rfl
    · rw [bootPart_signed hb hsig, hpkg, getPkg_modPkg_wf hw]
      rfl
  · obtain ⟨-, -, parts, lists, exports, offer, hpkg, hpart⟩ := configurePart_pkg (pkg := pkg) (b := b) hw false
    refine ⟨false, iff_of_false Bool.noConfusion hsig, ?_, ?_⟩
    · rw [bootPart_unsigned hsig, getPart, hpkg]
      exact hpart
    · rw [bootPart_unsigned hsig, hpkg]
      exact (List.append_nil _).symm

end

theorem bootParts_keep (l : List BootPart) {s : State} (hw : PkgsWf s) (hb : HubBooted img (getPkg s pkg)) :
    HubBooted img (getPkg (l.foldl (bootPart pkg) s) pkg) ∧ (l.foldl (bootPart pkg) s).domains = s.domains := by
  induction l generalizing s with
  | nil => exact ⟨hb, rfl⟩
  | cons b r ih =>
    obtain ⟨hw', hb', hdoms⟩ := bootPart_keeps (b := b) hw hb
    obtain ⟨h1, h2⟩ := ih hw' hb'
    exact ⟨h1, h2.trans hdoms⟩

end

theorem bootedPkg_queue (clock : Nat) (img : BootImage) (p : Pkg) :
    (bootedPkg clock img p).measQueue = [(1, measEvent 2 0 img.hyperVersion (sha512 img.config))] := rfl

theorem bootedPkg_parts (clock : Nat) (img : BootImage) (p : Pkg) : (bootedPkg clock img p).parts = p.parts := by
  unfold bootedPkg queuedMeas measured fused
  dsimp only

/-- The boot of a package whose hypervisor is signed. -/
theorem boot_spec (hw : PkgsWf s) (hreset : (getPkg s pkg).hubReset = true) (hlife : (getPkg s pkg).lifecycle ≠ .retired)
    (hroot : BitVec.ofNat 512 (digest img.rootKey) = (fused img (getPkg s pkg)).rootDigest)
    (hsig : SignedBy (fused img (getPkg s pkg)).rootDigest img.hyper img.hyperSig) : ∃ u, exec (.boot pkg img) s = .next u ∧
      HubBooted img (getPkg u pkg) ∧ u.domains = s.domains ∧
      ∀ b, img.parts = [b] → (16 ≤ b.no → (getPkg u pkg).parts = (getPkg s pkg).parts ∧ (getPkg u pkg).measQueue.drop 1 = []) ∧
        (b.no < 16 → ∃ (started : Bool) (key : Word), (started = true ↔ SignedBy (fused img (getPkg s pkg)).rootDigest b.image b.signature) ∧
          getPart u pkg b.no = bootedPart b started key ∧
          (getPkg u pkg).measQueue.drop 1 = (if started = true then [(2, measEvent 3 b.no b.version (sha512 b.image))] else [])) := by
  obtain ⟨hwf, hpkg, hdoms⟩ := booted_pkg (img := img) (pkg := pkg) hw
  have hb : HubBooted img (getPkg (booted s pkg img) pkg) := by
    rw [hpkg]
    exact hubBooted_bootedPkg ..
  obtain ⟨hkept, hdoms'⟩ := bootParts_keep (img.parts.filter fun b => decide (b.no < 16)) hwf hb
  refine ⟨_, boot_runs hw hreset hlife hroot hsig, hkept, hdoms'.trans hdoms, fun b hone => ⟨fun hno => ?_, fun hno => ?_⟩⟩
  · rw [hone, List.filter_cons_of_neg (by simpa using hno), List.filter_nil, List.foldl_nil, hpkg]
    exact ⟨bootedPkg_parts .., by rw [bootedPkg_queue, List.drop_one, List.tail_cons]⟩
  · rw [hone, List.filter_cons_of_pos (by simpa using hno), List.filter_nil, List.foldl_cons, List.foldl_nil]
    obtain ⟨started, hstarted, hpart, hqueue⟩ := bootPart_spec (b := b) hwf hb
    refine ⟨started, _, ?_, hpart, ?_⟩
    · rw [hstarted, hpkg]
      rfl
    · rw [hqueue, hpkg, bootedPkg_queue, List.singleton_append, List.drop_one, List.tail_cons]

end

-- Reset (R361; log 76) ---------------------------------------------------------------------------------------------------------------------------------------------

section
variable {s t : State} {pkg : Nat}

/-- The states differ in cores, domains and transfers alone. -/
def SameBesideRuns (s t : State) : Prop := ∃ cores domains xfers, t = { s with cores := cores, domains := domains, xfers := xfers }

theorem SameBesideRuns.trans {u : State} (h : SameBesideRuns s t) (g : SameBesideRuns t u) : SameBesideRuns s u := by
  obtain ⟨c, d, x, rfl⟩ := h
  obtain ⟨c', d', x', rfl⟩ := g
  exact ⟨c', d', x', rfl⟩

theorem sameBesideRuns_removeDomain (s : State) (pid : Nat) : SameBesideRuns s (removeDomain s pid) := by
  unfold removeDomain
  split
  · exact ⟨_, _, _, rfl⟩
  · rename_i d _
    obtain ⟨cores, h⟩ := foldl_rest (g := fun s k => modCore s k idleCore) (fun _ _ => ⟨_, rfl⟩) d.all (finishPuts s d)
    dsimp only
    rw [h]
    exact ⟨_, _, _, rfl⟩

theorem sameBesideRuns_takeFault (s : State) (k : Nat) (st : Stream) (station evt code cause : Nat) (detail : List Word) :
    SameBesideRuns s (takeFault s k st station evt code cause detail) := by
  unfold takeFault
  cases hd : domOf s k with
  | none =>
    unfold takeFaultFull
    rw [hd]
    exact ⟨_, _, _, rfl⟩
  | some d =>
    obtain ⟨domains, h⟩ := takeFaultFull_rest st station evt code cause detail 0 0 0 hd
    obtain ⟨cores, hc⟩ := stoppedCores_rest (s := s) (k := k) (d := d) (st := st) (code := code) (cause := cause) (detail := detail) (prog := 0) (w23 := 0) (w24 := 0)
    rw [h, hc]
    exact ⟨_, _, _, rfl⟩

theorem findDom_modDom_none {pid : Nat} (h : findDom s pid = none) (p : Nat) (f : Domain → Domain) (hf : ∀ d, (f d).pid = d.pid) :
    findDom (modDom s p f) pid = none := by
  by_cases hp : pid = p
  · subst hp
    rw [findDom_modDom _ _ _ hf, h]
    rfl
  · rw [findDom_modDom_ne _ _ hf hp, h]

theorem findDom_takeFault_none {pid : Nat} (h : findDom s pid = none) (k : Nat) (st : Stream) (station evt code cause : Nat) (detail : List Word) :
    findDom (takeFault s k st station evt code cause detail) pid = none := by
  unfold takeFault
  cases hd : domOf s k with
  | none =>
    unfold takeFaultFull
    rw [hd]
    exact h
  | some d =>
    obtain ⟨cores, hc⟩ := stoppedCores_rest (s := s) (k := k) (d := d) (st := st) (code := code) (cause := cause) (detail := detail) (prog := 0) (w23 := 0) (w24 := 0)
    have hcores : findDom (stoppedCores s k d st code cause detail 0 0 0) pid = none := by
      rw [hc]
      exact h
    rw [takeFaultFull_eq st station evt code cause detail 0 0 0 hd]
    dsimp only
    have hraise : findDom (if ((getCore s k).stop.map Stop.code).getD 0 ≠ 0 then stoppedCores s k d st code cause detail 0 0 0
        else raiseCause (stoppedCores s k d st code cause detail 0 0 0) d.pid ⟨6, k, station, st, evt, 0, {}, false⟩) pid = none := by
      split
      · exact hcores
      · exact findDom_modDom_none hcores _ _ (by intro d; split <;> rfl)
    split
    · exact hraise
    · exact findDom_modDom_none hraise _ _ (by intro d; rfl)

theorem findDom_removeDomain_none {pid : Nat} (h : findDom s pid = none) (p : Nat) : findDom (removeDomain s p) pid = none := by
  unfold removeDomain
  split
  · exact h
  · rename_i d _
    obtain ⟨cores, hc⟩ := foldl_rest (g := fun s k => modCore s k idleCore) (fun _ _ => ⟨_, rfl⟩) d.all (finishPuts s d)
    dsimp only
    rw [hc]
    exact List.find?_eq_none.2 fun e he => List.find?_eq_none.1 h e (List.mem_filter.1 he).1

theorem sameBesideRuns_tripPour (s : State) (pkg : Nat) (d : Domain) : SameBesideRuns s (tripPour s pkg d) := by
  unfold tripPour
  split
  · exact ⟨_, _, _, rfl⟩
  · split
    · exact sameBesideRuns_removeDomain ..
    · exact sameBesideRuns_takeFault ..

theorem findDom_tripPour_none {pid : Nat} (h : findDom s pid = none) (pkg : Nat) (d : Domain) : findDom (tripPour s pkg d) pid = none := by
  unfold tripPour
  split
  · exact h
  · split
    · exact findDom_removeDomain_none h _
    · exact findDom_takeFault_none h ..

/-- A pour that lies in the package alone ends with its power. -/
theorem findDom_tripPour_alone {d : Domain} (hin : pkg ∈ d.pkgs) (halone : ∀ k ∈ d.all, pkgOf k = pkg) : findDom (tripPour s pkg d) d.pid = none := by
  unfold tripPour
  rw [if_neg (by rw [List.contains_iff_mem.2 hin]; decide), List.find?_eq_none.2 fun k hk => by simp [halone k hk]]
  exact findDom_removeDomain ..

theorem sameBesideRuns_trips (l : List Domain) (s : State) (pkg : Nat) : SameBesideRuns s (l.foldl (fun s d => tripPour s pkg d) s) :=
  foldl_keeps (SameBesideRuns s) _ (by intro t d h; exact h.trans (sameBesideRuns_tripPour ..)) l s ⟨_, _, _, rfl⟩

theorem findDom_trips (s : State) {d : Domain} {l : List Domain} (hd : d ∈ l) (hin : pkg ∈ d.pkgs) (halone : ∀ k ∈ d.all, pkgOf k = pkg) :
    findDom (l.foldl (fun s d => tripPour s pkg d) s) d.pid = none := by
  obtain ⟨l1, l2, rfl⟩ := List.append_of_mem hd
  rw [List.foldl_append, List.foldl_cons]
  exact foldl_keeps (fun t => findDom t d.pid = none) _ (by intro t e h; exact findDom_tripPour_none h ..) l2 _ (findDom_tripPour_alone hin halone)

/-- The package's record after a reset. -/
def resetPkg (p : Pkg) : Pkg :=
  { ({} : Pkg) with
    lifecycle := p.lifecycle, deviceId := p.deviceId, rootDigest := p.rootDigest, portOpen := portOf p.lifecycle
    parts := p.parts.map (fun x => (x.1, { ({} : Part) with key := x.2.key }))
    sparesUsed := p.sparesUsed, failedCores := p.failedCores, chansUsed := p.chansUsed }

theorem losePower_pkgs (s : State) (pkg : Nat) : (losePower s pkg).pkgs = (modPkg s pkg fun p => { p with poweredOff := true }).pkgs ∧
    (losePower s pkg).mem = s.mem := by
  obtain ⟨cores, domains, xfers, h⟩ := sameBesideRuns_trips s.domains s pkg
  unfold losePower
  rw [h]
  exact ⟨rfl, rfl⟩

theorem getPkg_resetPackage (hw : PkgsWf s) : getPkg (resetPackage s pkg) pkg = resetPkg (getPkg s pkg) ∧ (resetPackage s pkg).mem = s.mem := by
  obtain ⟨hpkgs, hmem⟩ := losePower_pkgs s pkg
  have hwf : Sparse.wfFrom {} 0 (losePower s pkg).pkgs = true := by
    rw [hpkgs]
    exact pkgsWf_modPkg hw pkg _
  have hpkg : Sparse.get {} (losePower s pkg).pkgs pkg = { getPkg s pkg with poweredOff := true } := by
    rw [hpkgs]
    exact getPkg_modPkg_wf hw pkg _
  exact ⟨(get_set_wf _ _ _ hwf).trans ((congrArg resetPkg hpkg).trans rfl), hmem⟩

theorem findDom_resetPackage {d : Domain} (hd : d ∈ s.domains) (hin : pkg ∈ d.pkgs) (halone : ∀ k ∈ d.all, pkgOf k = pkg) :
    findDom (resetPackage s pkg) d.pid = none := findDom_trips s hd hin halone

/-- Entries that a test of their keys takes away. -/
theorem get_filter_key {α : Type} (d : α) (m : Sparse α) (f : Nat → Bool) (a : Nat) :
    Sparse.get d (m.filter fun x => f x.1) a = if f a = true then Sparse.get d m a else d := by
  induction m with
  | nil => exact (ite_self d).symm
  | cons x r ih =>
    obtain ⟨k, v⟩ := x
    by_cases hk : f k = true
    · rw [List.filter_cons_of_pos (p := fun x : Nat × α => f x.1) hk, Sparse.get, Sparse.get, ih]
      by_cases ha : a = k
      · subst ha
        rw [if_pos rfl, if_pos hk, if_pos rfl]
      · rw [if_neg ha, if_neg ha]
    · rw [List.filter_cons_of_neg (p := fun x : Nat × α => f x.1) hk, ih, Sparse.get]
      by_cases ha : a = k
      · subst ha
        rw [if_neg hk, if_neg hk]
      · rw [if_neg ha]

theorem getCore_resetPackage (s : State) {pkg k : Nat} (hk : pkgOf k = pkg) : getCore (resetPackage s pkg) k = {} := by
  refine (get_filter_key ({} : CoreState) _ (fun x => pkgOf x != pkg) k).trans (if_neg ?_)
  rw [hk]
  simp

theorem boot_resets (hw : PkgsWf s) (hrun : (getPkg s pkg).hubReset = false) (hlife : (getPkg s pkg).lifecycle ≠ .retired) (img : BootImage) :
    exec (.boot pkg img) s = exec (.boot pkg img) (resetPackage s pkg) := by
  have hpkg := (getPkg_resetPackage (pkg := pkg) hw).1
  change execBoot pkg img s = execBoot pkg img (resetPackage s pkg)
  unfold execBoot
  rw [if_neg hlife, if_neg (show ¬ (getPkg (resetPackage s pkg) pkg).lifecycle = .retired by rw [hpkg]; exact hlife), hrun,
    show (getPkg (resetPackage s pkg) pkg).hubReset = true by rw [hpkg]; rfl]
  rfl

end

-- Tokens (R361) ----------------------------------------------------------------------------------------------------------------------------------------------------

section
variable {s : State} {pkg : Nat} {token : List Word}

/-- The number of a state that a token can name. -/
def tokenState (l : Lifecycle) : Nat := match l with | .provisioned => 1 | .deployed => 2 | _ => 0

/-- A token with its words and its signature right. -/
abbrev TokenGood (p : Pkg) (token : List Word) (signature : Nat) : Prop :=
  token.length = 16 ∧ (token.getD 0 0).toNat = 0x44454255474B0001 ∧ (token.getD 1 0).toNat + 2 ^ 64 * (token.getD 2 0).toNat = p.deviceId.toNat ∧
    tokenState p.lifecycle ≠ 0 ∧ (token.getD 3 0).toNat = tokenState p.lifecycle ∧ (∀ n, 4 ≤ n → n < 16 → (token.getD n 0).toNat = 0) ∧
    SignedBy p.rootDigest (token.flatMap fun x => littleBytes 8 x.toNat) signature

theorem reservedWords_iff (hlen : token.length = 16) : (∀ x ∈ token.drop 4, x = 0) ↔ ∀ n, 4 ≤ n → n < 16 → (token.getD n 0).toNat = 0 := by
  constructor
  · intro h n h4 h16
    have hget : token.getD n 0 = token[n] := List.getD_eq_getElem _ _ (by omega)
    rw [hget, h token[n] (List.mem_iff_getElem.2 ⟨n - 4, by rw [List.length_drop]; omega, by rw [List.getElem_drop]; congr 1; omega⟩)]
    rfl
  · intro h x hx
    obtain ⟨i, hi, rfl⟩ := List.mem_iff_getElem.1 hx
    rw [List.length_drop] at hi
    have hn := h (4 + i) (by omega) (by omega)
    rw [List.getD_eq_getElem _ _ (by omega)] at hn
    rw [List.getElem_drop]
    exact BitVec.eq_of_toNat_eq hn

theorem lifecycle_code (l : Lifecycle) (n : Nat) : (n = Lifecycle.code l ∧ (n = 1 ∨ n = 2)) ↔ (tokenState l ≠ 0 ∧ n = tokenState l) := by
  cases l <;> simp only [Lifecycle.code, tokenState] <;> omega

theorem tokenOk_iff (s : State) (pkg : Nat) (token : List Word) (signature : Nat) :
    tokenOk s pkg token signature = true ↔ TokenGood (getPkg s pkg) token signature := by
  unfold tokenOk
  simp only [Bool.and_eq_true, beq_iff_eq, Bool.or_eq_true, List.all_eq_true]
  have hcode := lifecycle_code (getPkg s pkg).lifecycle (token.getD 3 0).toNat
  constructor
  · rintro ⟨⟨⟨⟨⟨⟨hlen, h0⟩, hdev⟩, h3⟩, h12⟩, hres⟩, hsig⟩
    obtain ⟨hne, heq⟩ := hcode.1 ⟨h3, h12⟩
    exact ⟨hlen, h0, hdev, hne, heq, (reservedWords_iff hlen).1 hres, hsig⟩
  · rintro ⟨hlen, h0, hdev, hne, heq, hres, hsig⟩
    obtain ⟨h3, h12⟩ := hcode.2 ⟨hne, heq⟩
    exact ⟨⟨⟨⟨⟨⟨hlen, h0⟩, hdev⟩, h3⟩, h12⟩, (reservedWords_iff hlen).2 hres⟩, hsig⟩

section
variable {signature : Nat} (hidle : (getPkg s pkg).unlocking = none)
include hidle

theorem token_unread (h : 16 ≤ (getPkg s pkg).unlockFails) : exec (.unlockToken pkg token signature) s = .next s := by
  change execUnlockToken pkg token signature s = _
  unfold execUnlockToken
  rw [hidle]
  exact congrArg Host.Outcome.next (if_pos h)

theorem token_counted (h : (getPkg s pkg).unlockFails < 16) (hbad : ¬ TokenGood (getPkg s pkg) token signature) :
    exec (.unlockToken pkg token signature) s = .next (modPkg s pkg fun q => { q with unlockFails := q.unlockFails + 1 }) := by
  change execUnlockToken pkg token signature s = _
  unfold execUnlockToken
  rw [hidle]
  exact congrArg Host.Outcome.next ((if_neg (not_le.2 h)).trans (if_neg (mt (tokenOk_iff ..).1 hbad)))

theorem token_accepted (h : (getPkg s pkg).unlockFails < 16) (hgood : TokenGood (getPkg s pkg) token signature) :
    exec (.unlockToken pkg token signature) s = .next (modPkg (wipeKeys s pkg) pkg fun p => { p with unlocking := some token }) := by
  change execUnlockToken pkg token signature s = _
  unfold execUnlockToken
  rw [hidle]
  exact congrArg Host.Outcome.next ((if_neg (not_le.2 h)).trans (if_pos ((tokenOk_iff ..).2 hgood)))

end

/-- The tenant keys wiped. -/
def wiped (p : Pkg) : Pkg := { p with parts := p.parts.map (fun x => (x.1, { x.2 with key := 0 })) }

theorem getPkg_wipeKeys (hw : PkgsWf s) : PkgsWf (wipeKeys s pkg) ∧ getPkg (wipeKeys s pkg) pkg = wiped (getPkg s pkg) :=
  ⟨pkgsWf_modPkg hw pkg _, getPkg_modPkg_wf hw pkg _⟩

theorem wiped_keys (p : Pkg) : ∀ x ∈ (wiped p).parts, x.2.key = 0 := fun x hx => by
  obtain ⟨y, _, rfl⟩ := List.mem_map.1 hx
  rfl

theorem token_wipes (hw : PkgsWf s) {signature : Nat} (hidle : (getPkg s pkg).unlocking = none) (h : (getPkg s pkg).unlockFails < 16)
    (hgood : TokenGood (getPkg s pkg) token signature) : ∃ u, exec (.unlockToken pkg token signature) s = .next u ∧
      (getPkg u pkg).lifecycle = (getPkg s pkg).lifecycle ∧ (getPkg u pkg).portOpen = (getPkg s pkg).portOpen ∧
      (∀ x ∈ (getPkg u pkg).parts, x.2.key = 0) ∧ (getPkg u pkg).unlocking = some token ∧ (getPkg u pkg).meas = (getPkg s pkg).meas ∧
      u.cores = s.cores := by
  obtain ⟨hwf, hpkg⟩ := getPkg_wipeKeys (pkg := pkg) hw
  refine ⟨_, token_accepted hidle h hgood, ?_⟩
  rw [getPkg_modPkg_wf hwf, hpkg]
  exact ⟨rfl, rfl, wiped_keys _, rfl, rfl, rfl⟩

-- The second step of an unlock

/-- The fuse of an unlock. -/
def fusedUnlock (p : Pkg) : Pkg := { p with lifecycle := if p.lifecycle = .retired then .retired else .debugUnlocked }

/-- The port after an unlock. -/
def unlockDone (p : Pkg) : Pkg := { p with unlocking := none, portOpen := p.portOpen || p.measQueue.isEmpty, portDue := !p.measQueue.isEmpty }

/-- With its event waiting the port does not open yet. -/
theorem unlockDone_queued (n : Nat) (e : List Byte) (p : Pkg) :
    (unlockDone (queuedMeas n e p)).portOpen = p.portOpen ∧ (unlockDone (queuedMeas n e p)).portDue = true := by
  have hempty : (p.measQueue ++ [(n, e)]).isEmpty = false := List.isEmpty_eq_false_iff.2 (List.append_ne_nil_of_right_ne_nil _ (List.cons_ne_nil _ _))
  unfold unlockDone queuedMeas
  dsimp only
  rw [hempty]
  exact ⟨Bool.or_false _, rfl⟩

/-- The record of an unlock. -/
abbrev unlockEvent (token : List Word) : List Byte := measEvent 7 0 0 (sha512 (token.flatMap fun x => littleBytes 8 x.toNat))

theorem finishUnlock_eq (s : State) (pkg : Nat) (token : List Word) : finishUnlock s pkg token =
    modPkg (extendMeas (modPkg s pkg fusedUnlock) pkg 15 7 0 0 (sha512 (tokenBytes token))) pkg unlockDone := rfl

theorem finishUnlock_cores (s : State) (pkg : Nat) (token : List Word) :
    (finishUnlock s pkg token).cores = s.cores ∧ (finishUnlock s pkg token).clock = s.clock := by
  rw [finishUnlock_eq]
  obtain ⟨f, hf, -⟩ := extendMeas_rest (modPkg s pkg fusedUnlock) pkg 15 7 0 0 (sha512 (tokenBytes token))
  rw [hf]
  exact ⟨rfl, rfl⟩

section
variable (hw : PkgsWf s)
include hw

theorem measFree_fusedUnlock : MeasFree (modPkg s pkg fusedUnlock) (getPkg (modPkg s pkg fusedUnlock) pkg) ↔ MeasFree s (getPkg s pkg) := by
  rw [getPkg_modPkg_wf hw]
  rfl

theorem getPkg_finishUnlock : PkgsWf (finishUnlock s pkg token) ∧
    (MeasFree s (getPkg s pkg) → getPkg (finishUnlock s pkg token) pkg = unlockDone (measured s.clock 15 (unlockEvent token) (fusedUnlock (getPkg s pkg)))) ∧
    (¬ MeasFree s (getPkg s pkg) → getPkg (finishUnlock s pkg token) pkg = unlockDone (queuedMeas 15 (unlockEvent token) (fusedUnlock (getPkg s pkg)))) := by
  have hwf := pkgsWf_modPkg hw pkg fusedUnlock
  have hpkg := getPkg_modPkg_wf hw pkg fusedUnlock
  obtain ⟨f, hf, -⟩ := extendMeas_rest (modPkg s pkg fusedUnlock) pkg 15 7 0 0 (sha512 (tokenBytes token))
  have hwf' : PkgsWf (extendMeas (modPkg s pkg fusedUnlock) pkg 15 7 0 0 (sha512 (tokenBytes token))) := by
    rw [hf]
    exact pkgsWf_modPkg hwf pkg f
  refine ⟨pkgsWf_modPkg hwf' pkg _, fun h => ?_, fun h => ?_⟩
  · rw [finishUnlock_eq, getPkg_modPkg_wf hwf', extendMeas_free ((measFree_fusedUnlock hw).2 h), getPkg_modPkg_wf hwf, hpkg]
    rfl
  · rw [finishUnlock_eq, getPkg_modPkg_wf hwf', extendMeas_waits (mt (measFree_fusedUnlock hw).1 h), getPkg_modPkg_wf hwf, hpkg]
    rfl

variable (hacting : (getPkg s pkg).unlocking = some token)
include hacting

theorem unlock_free (h : MeasFree s (getPkg s pkg)) : secureStep s pkg = finishUnlock s pkg token ∧
    getPkg (finishUnlock s pkg token) pkg = unlockDone (measured s.clock 15 (unlockEvent token) (fusedUnlock (getPkg s pkg))) := by
  have hpkg := (getPkg_finishUnlock (token := token) hw).2.1 h
  refine ⟨?_, hpkg⟩
  rw [secureStep_unlocks hacting, measNext_none]
  rw [hpkg]
  exact h.1

theorem unlock_later (h : (getPkg s pkg).measAt = s.clock + 1) : secureStep s pkg = finishUnlock s pkg token ∧
    getPkg (finishUnlock s pkg token) pkg = unlockDone (queuedMeas 15 (unlockEvent token) (fusedUnlock (getPkg s pkg))) := by
  have hpkg := (getPkg_finishUnlock (token := token) hw).2.2 fun hf => hf.2 h
  refine ⟨?_, hpkg⟩
  rw [secureStep_unlocks hacting, measNext_waits]
  rw [hpkg, (finishUnlock_cores s pkg token).2]
  exact h

theorem unlock_behind {n : Nat} {e : List Byte} {r : List (Nat × List Byte)} (hat : (getPkg s pkg).measAt ≠ s.clock + 1)
    (hq : (getPkg s pkg).measQueue = (n, e) :: r) : getPkg (secureStep s pkg) pkg =
      measTaken s.clock n e (r ++ [(15, unlockEvent token)]) (unlockDone (queuedMeas 15 (unlockEvent token) (fusedUnlock (getPkg s pkg)))) ∧
      (secureStep s pkg).cores = s.cores := by
  obtain ⟨hwf, -, hwait⟩ := getPkg_finishUnlock (pkg := pkg) (token := token) hw
  have hpkg := hwait fun hf => by
    rw [hf.1] at hq
    cases hq
  obtain ⟨hcores, hclock⟩ := finishUnlock_cores s pkg token
  have hqueue : (getPkg (finishUnlock s pkg token) pkg).measQueue = (n, e) :: (r ++ [(15, unlockEvent token)]) := by
    rw [hpkg]
    exact congrArg (· ++ [(15, unlockEvent token)]) hq
  have hat' : (getPkg (finishUnlock s pkg token) pkg).measAt ≠ (finishUnlock s pkg token).clock + 1 := by
    rw [hpkg, hclock]
    exact hat
  obtain ⟨h1, h2⟩ := measNext_takes hwf hqueue hat'
  rw [secureStep_unlocks hacting]
  exact ⟨by rw [h1, hclock, hpkg], h2.trans hcores⟩

/-- What every second step of an unlock does. -/
theorem unlock_step : (getPkg (secureStep s pkg) pkg).lifecycle = (if (getPkg s pkg).lifecycle = .retired then .retired else .debugUnlocked) ∧
    (getPkg (secureStep s pkg) pkg).unlocking = none ∧ (secureStep s pkg).cores = s.cores := by
  obtain ⟨hcores, -⟩ := finishUnlock_cores s pkg token
  by_cases hat : (getPkg s pkg).measAt = s.clock + 1
  · obtain ⟨h1, h2⟩ := unlock_later hw hacting hat
    rw [h1, h2]
    exact ⟨rfl, rfl, hcores⟩
  · cases hq : (getPkg s pkg).measQueue with
    | nil =>
      obtain ⟨h1, h2⟩ := unlock_free hw hacting ⟨hq, hat⟩
      rw [h1, h2]
      exact ⟨rfl, rfl, hcores⟩
    | cons x r =>
      obtain ⟨h1, h2⟩ := unlock_behind (e := x.2) hw hacting hat hq
      rw [h1]
      exact ⟨rfl, rfl, h2⟩

end

end

-- Retirement, attestation and lifecycle (R361, R362) ------------------------------------------------------------------------------------------------------------

section
variable {s : State} {pkg : Nat} (hw : PkgsWf s)
include hw

theorem retire_spec : ∃ u, exec (.retire pkg) s = .next u ∧ (getPkg u pkg).lifecycle = .retired ∧ (getPkg u pkg).portOpen = true ∧
    (∀ x ∈ (getPkg u pkg).parts, x.2.key = 0) ∧ (∀ img, exec (.boot pkg img) u = .next u) ∧
    ∀ v, act (.secure pkg) u = .next v → (getPkg v pkg).lifecycle = .retired := by
  obtain ⟨hwf, hpkg⟩ := getPkg_wipeKeys (pkg := pkg) hw
  have hget : getPkg (modPkg (wipeKeys s pkg) pkg fun p => { p with lifecycle := .retired, portOpen := true, unlocking := none, portDue := false }) pkg =
      { wiped (getPkg s pkg) with lifecycle := .retired, portOpen := true, unlocking := none, portDue := false } := by
    rw [getPkg_modPkg_wf hwf, hpkg]
  have hwf' := pkgsWf_modPkg hwf pkg fun p => { p with lifecycle := .retired, portOpen := true, unlocking := none, portDue := false }
  have hlife : (getPkg (modPkg (wipeKeys s pkg) pkg fun p => { p with lifecycle := .retired, portOpen := true, unlocking := none, portDue := false }) pkg).lifecycle =
      .retired := by rw [hget]
  refine ⟨_, rfl, hlife, by rw [hget], by rw [hget]; exact wiped_keys _, fun img => boot_retired hlife, fun v hv => ?_⟩
  obtain rfl := Host.Outcome.next.inj hv
  rw [secureStep_idle (by rw [hget]), measNext_lifecycle hwf', hlife]

theorem spdm_spec (rsa sha : Bool) : ∃ u, exec (.spdmRequest pkg rsa sha) s = .next u ∧ u.cores = s.cores ∧ u.domains = s.domains ∧
    ((rsa = false ∨ sha = false ∨ (getPkg s pkg).lifecycle = .retired) → (getPkg u pkg).spdmError = true) ∧
    (rsa = true → sha = true → (getPkg s pkg).lifecycle ≠ .retired → (getPkg u pkg).report = reportBlocks (getPkg s pkg) ∧
      (getPkg u pkg).reportSig = Config.deviceSign (digest ((reportBlocks (getPkg s pkg)).flatMap (littleBytes 64)))) := by
  refine ⟨_, rfl, rfl, rfl, fun h => ?_, fun h1 h2 h3 => ?_⟩
  · rw [getPkg_modPkg_wf hw, if_neg]
    rw [Bool.and_eq_true, Bool.and_eq_true, bne_iff_ne]
    rintro ⟨⟨h1, h2⟩, h3⟩
    rw [h1, h2] at h
    simp [h3] at h
  · rw [getPkg_modPkg_wf hw, if_pos]
    · exact ⟨rfl, rfl⟩
    · rw [Bool.and_eq_true, Bool.and_eq_true, bne_iff_ne]
      exact ⟨⟨h1, h2⟩, h3⟩

theorem closePort_spec (l : Lifecycle) : (getPkg (closePort s pkg l) pkg).lifecycle = l ∧ (getPkg (closePort s pkg l) pkg).portOpen = false ∧
    (∀ x ∈ (getPkg (closePort s pkg l) pkg).parts, x.2.debug = false) ∧ (closePort s pkg l).cores = s.cores := by
  rw [closePort, getPkg_modPkg_wf hw]
  refine ⟨rfl, rfl, fun x hx => ?_, rfl⟩
  obtain ⟨y, _, rfl⟩ := List.mem_map.1 hx
  rfl

omit hw in
theorem tenantKey_takes (hidle : (getPkg s pkg).unlocking = none) (hlife : (getPkg s pkg).lifecycle = .provisioned ∨ (getPkg s pkg).lifecycle = .deployed)
    (part : Nat) (key : Word) : exec (.tenantKeyProvision pkg part key) s = .next (modPart s pkg part fun q => { q with key := key }) := by
  change execTenantKeyProvision pkg part key s = _
  unfold execTenantKeyProvision
  rw [hidle]
  rcases hlife with h | h <;> rw [h]

omit hw in
theorem tenantKey_refused (h : (getPkg s pkg).unlocking ≠ none ∨ ((getPkg s pkg).lifecycle ≠ .provisioned ∧ (getPkg s pkg).lifecycle ≠ .deployed))
    (part : Nat) (key : Word) : exec (.tenantKeyProvision pkg part key) s = .next s := by
  change execTenantKeyProvision pkg part key s = _
  unfold execTenantKeyProvision
  split
  · rename_i hl hu
    exact (h.elim (fun hn => hn hu) fun hn => hn.1 hl).elim
  · rename_i hl hu
    exact (h.elim (fun hn => hn hu) fun hn => hn.2 hl).elim
  · rfl

-- Updates (R364, R367) ----------------------------------------------------------------------------------------------------------------------------------------------

omit hw in
theorem hypervisorUpdate_ignored {version : Nat} {image : List Byte} {signature : Nat} (h : ¬ SignedBy (getPkg s pkg).rootDigest image signature) :
    exec (.hypervisorUpdate pkg version image signature) s = .next s := congrArg Host.Outcome.next (if_neg h)

/-- An event reaches the security block. -/
abbrev MeasReaches (s : State) (p q : Pkg) (n : Nat) (e : List Byte) : Prop :=
  (MeasFree s p → q.meas = Sparse.set 0 p.meas n (extended (Sparse.get 0 p.meas n) e) ∧ q.measQueue = []) ∧
    (¬ MeasFree s p → q.meas = p.meas ∧ q.measQueue = p.measQueue ++ [(n, e)])

theorem hypervisorUpdate_spec {version : Nat} {image : List Byte} {signature : Nat} (h : SignedBy (getPkg s pkg).rootDigest image signature) : ∃ u,
    exec (.hypervisorUpdate pkg version image signature) s = .next u ∧
      MeasReaches s (getPkg s pkg) (getPkg u pkg) 4 (measEvent 5 0 version (sha512 image)) ∧ (getPkg u pkg).hyperVersion = version ∧
      u.cores = s.cores ∧ u.domains = s.domains := by
  obtain ⟨f, hf, -⟩ := extendMeas_rest s pkg 4 5 0 version (sha512 image)
  have hreach := extendMeas_reaches (pkg := pkg) hw 4 5 0 version (sha512 image)
  have hwf : PkgsWf (extendMeas s pkg 4 5 0 version (sha512 image)) := by
    rw [hf]
    exact pkgsWf_modPkg hw pkg f
  refine ⟨_, congrArg Host.Outcome.next (if_pos h), ?_, ?_, ?_, ?_⟩
  · rw [getPkg_modPkg_wf hwf]
    exact hreach
  · rw [getPkg_modPkg_wf hwf]
  · rw [hf]
    rfl
  · rw [hf]
    rfl

end

section
variable {s : State} {pkg part version : Nat} {image : List Byte} {signature : Nat}

/-- Arming stops. -/
def disarmed (s : State) (pkg part : Nat) : State := modPart s pkg part fun p => { p with arming := false }

section
variable (hw : PkgsWf s) (hconf : (getPart s pkg part).configured = true)
include hconf

theorem getPart_disarmed : getPart (disarmed s pkg part) pkg part = { getPart s pkg part with arming := false } :=
  getPart_modPart s pkg part (f := fun p => { p with arming := false }) (ne_empty_of_configured (p := { getPart s pkg part with arming := false }) hconf)

theorem getPart_unstarted : (getPart (modPart (disarmed s pkg part) pkg part fun p => { p with started := false }) pkg part).started = false ∧
    (getPart (modPart (disarmed s pkg part) pkg part fun p => { p with started := false }) pkg part).arming = false := by
  have hget := getPart_modPart (disarmed s pkg part) pkg part (f := fun p => { p with started := false })
    (ne_empty_of_configured (p := { getPart (disarmed s pkg part) pkg part with started := false }) (by rw [getPart_disarmed hconf]; exact hconf))
  rw [hget, getPart_disarmed hconf]
  exact ⟨rfl, rfl⟩

/-- A pour of the partition runs. -/
abbrev PartRuns (s : State) (pkg part : Nat) : Prop := ∃ d ∈ s.domains, d.home = pkg ∧ d.part = part

omit hconf in
theorem partRuns_iff (s : State) (pkg part : Nat) : s.domains.any (fun d => d.home == pkg && d.part == part) = true ↔ PartRuns s pkg part := by
  simp only [List.any_eq_true, Bool.and_eq_true, beq_iff_eq]

theorem configured_disarmed : ¬ (getPart (disarmed s pkg part) pkg part).configured = false := by
  rw [getPart_disarmed hconf]
  exact Bool.eq_false_iff.not.2 (not_not_intro hconf)

theorem partitionUpdate_later (hrun : PartRuns s pkg part) : exec (.partitionUpdate pkg part version image signature) s =
    .next { disarmed s pkg part with
      inputs := s.inputs ++ [⟨s.clock + 1, none, .partitionUpdate pkg part version image signature⟩] } :=
  congrArg Host.Outcome.next ((if_neg (configured_disarmed hconf)).trans (if_pos ((partRuns_iff s pkg part).2 hrun)))

include hw

omit hconf in
theorem getPkg_disarmed : PkgsWf (disarmed s pkg part) ∧ ∃ parts, getPkg (disarmed s pkg part) pkg = { getPkg s pkg with parts := parts } :=
  ⟨pkgsWf_modPkg hw pkg _, _, getPkg_modPkg_wf hw pkg _⟩

theorem partitionUpdate_fails (hrun : ¬ PartRuns s pkg part) (hsig : ¬ SignedBy (getPkg s pkg).rootDigest image signature) :
    exec (.partitionUpdate pkg part version image signature) s = .next (modPart (disarmed s pkg part) pkg part fun p => { p with started := false }) := by
  obtain ⟨-, parts, hpkg⟩ := getPkg_disarmed (pkg := pkg) (part := part) hw
  refine congrArg Host.Outcome.next ((if_neg (configured_disarmed hconf)).trans ((if_neg (mt (partRuns_iff s pkg part).1 hrun)).trans (if_neg ?_)))
  change ¬ SignedBy (getPkg (disarmed s pkg part) pkg).rootDigest image signature
  rw [hpkg]
  exact hsig

theorem partitionUpdate_restarts (hrun : ¬ PartRuns s pkg part) (hsig : SignedBy (getPkg s pkg).rootDigest image signature) :
    exec (.partitionUpdate pkg part version image signature) s =
      .next (restartPart (clearWindows (extendMeas (disarmed s pkg part) pkg 3 4 part version (sha512 image)) pkg part) pkg part version) := by
  obtain ⟨-, parts, hpkg⟩ := getPkg_disarmed (pkg := pkg) (part := part) hw
  refine congrArg Host.Outcome.next ((if_neg (configured_disarmed hconf)).trans ((if_neg (mt (partRuns_iff s pkg part).1 hrun)).trans (if_pos ?_)))
  change SignedBy (getPkg (disarmed s pkg part) pkg).rootDigest image signature
  rw [hpkg]
  exact hsig

end

-- The restart

/-- A change of every record of a table that leaves the blank one. -/
theorem get_map_value {α : Type} (d : α) (m : Sparse α) (f : Nat → α → α) (a : Nat) (hf : f a d = d) :
    Sparse.get d (m.map fun x => (x.1, f x.1 x.2)) a = f a (Sparse.get d m a) := by
  induction m with
  | nil => exact hf.symm
  | cons x r ih =>
    rw [List.map_cons, Sparse.get, Sparse.get, ih]
    by_cases ha : a = x.1
    · subst ha
      rw [if_pos rfl, if_pos rfl]
    · rw [if_neg ha, if_neg ha]

/-- The windows that a restart leaves in a package. -/
def keptWindows (s : State) (pkg part q : Nat) (p : Pkg) : Pkg :=
  { p with windows := p.windows.filter (fun w => !((q == pkg && w.1 / 256 == part) || targets s q w.2 pkg part)) }

theorem clearWindows_none (h : s.xfers = []) : clearWindows s pkg part = { s with pkgs := s.pkgs.map fun x => (x.1, keptWindows s pkg part x.1 x.2) } := by
  cases s
  dsimp only at h
  subst h
  rfl

theorem getPkg_clearWindows (h : s.xfers = []) : getPkg (clearWindows s pkg part) pkg = keptWindows s pkg part pkg (getPkg s pkg) := by
  rw [clearWindows_none h]
  exact get_map_value {} s.pkgs (keptWindows s pkg part) pkg rfl

theorem keptWindows_own (s : State) (pkg part : Nat) (p : Pkg) : ∀ w ∈ (keptWindows s pkg part pkg p).windows, w.1 / 256 ≠ part := fun w hw hpart => by
  have hkept := (List.mem_filter.1 hw).2
  rw [hpart, beq_self_eq_true, beq_self_eq_true] at hkept
  cases hkept

theorem getPkg_modPart {f : Part → Part} (hf : f (getPart s pkg part) ≠ {}) :
    ∃ parts, getPkg (modPart s pkg part f) pkg = { getPkg s pkg with parts := parts } := by
  have hget : Sparse.get {} (Sparse.set {} (getPkg s pkg).parts part (f (getPart s pkg part))) part = f (getPart s pkg part) := get_set_same _ _ _ _ hf
  have hparts : { getPkg s pkg with parts := Sparse.set {} (getPkg s pkg).parts part (f (getPart s pkg part)) } ≠ ({} : Pkg) := fun hp => by
    have hnil : Sparse.set {} (getPkg s pkg).parts part (f (getPart s pkg part)) = [] := congrArg Pkg.parts hp
    rw [hnil] at hget
    exact hf hget.symm
  exact ⟨_, getPkg_setPkg s pkg _ hparts⟩

/-- A partition on its new image. -/
def restarted (version : Nat) (p : Part) : Part := { p with pool := [], backlog := [], arming := true, started := true, version := version }

theorem restartPart_domains (s : State) (pkg part version : Nat) : (restartPart s pkg part version).domains = s.domains := rfl
theorem restartPart_cores (s : State) (pkg part version : Nat) : (restartPart s pkg part version).cores = s.cores := rfl
theorem restartPart_mem (s : State) (pkg part version : Nat) : (restartPart s pkg part version).mem = s.mem := rfl

/-- A partition that starts again, in a package whose record is known. -/
theorem restartPart_spec (hconf : (getPart s pkg part).configured = true) :
    getPart (restartPart s pkg part version) pkg part = restarted version (getPart s pkg part) ∧
      ∃ parts, getPkg (restartPart s pkg part version) pkg =
        { getPkg s pkg with parts := parts, waiting := (getPkg s pkg).waiting.filter fun a => a.part != part } := by
  have hblank : restarted version (getPart s pkg part) ≠ {} := ne_empty_of_configured (p := restarted version (getPart s pkg part)) hconf
  have hpart := getPart_modPart s pkg part (f := restarted version) hblank
  obtain ⟨parts, hpkg⟩ := getPkg_modPart (s := s) (pkg := pkg) (part := part) (f := restarted version) hblank
  have hconf' : (getPart (modPart s pkg part (restarted version)) pkg part).configured = true := by
    rw [hpart]
    exact hconf
  refine ⟨(getPart_keepsParts hconf' (g := fun p => { p with waiting := p.waiting.filter fun a => a.part != part }) fun _ => rfl).trans hpart, parts, ?_⟩
  refine (getPkg_keepsParts hconf' (g := fun p => { p with waiting := p.waiting.filter fun a => a.part != part }) fun _ => rfl).trans ?_
  rw [hpkg]

theorem partitionUpdate_spec (hw : PkgsWf s) (hconf : (getPart s pkg part).configured = true) (hrun : ¬ PartRuns s pkg part)
    (hsig : SignedBy (getPkg s pkg).rootDigest image signature) (hx : s.xfers = []) : ∃ u,
    exec (.partitionUpdate pkg part version image signature) s = .next u ∧ (getPart u pkg part).started = true ∧ (getPart u pkg part).arming = true ∧
      (getPart u pkg part).pool = [] ∧ (getPart u pkg part).version = version ∧
      MeasReaches s (getPkg s pkg) (getPkg u pkg) 3 (measEvent 4 part version (sha512 image)) ∧ (∀ a ∈ (getPkg u pkg).waiting, a.part ≠ part) ∧
      (∀ w ∈ (getPkg u pkg).windows, w.1 / 256 ≠ part) ∧ u.domains = s.domains ∧ u.cores = s.cores ∧ u.mem = s.mem := by
  obtain ⟨hwf, parts, hpkg⟩ := getPkg_disarmed (pkg := pkg) (part := part) hw
  obtain ⟨f, hf, hrest⟩ := extendMeas_rest (disarmed s pkg part) pkg 3 4 part version (sha512 image)
  have hreach := extendMeas_reaches (pkg := pkg) hwf 3 4 part version (sha512 image)
  have hmeas : getPkg (extendMeas (disarmed s pkg part) pkg 3 4 part version (sha512 image)) pkg = f (getPkg (disarmed s pkg part) pkg) := by
    rw [hf, getPkg_modPkg_wf hwf]
  have hxfers : (extendMeas (disarmed s pkg part) pkg 3 4 part version (sha512 image)).xfers = [] := by
    rw [hf]
    exact hx
  have hclear := getPkg_clearWindows (pkg := pkg) (part := part) hxfers
  have hconf' : (getPart (clearWindows (extendMeas (disarmed s pkg part) pkg 3 4 part version (sha512 image)) pkg part) pkg part).configured = true := by
    obtain ⟨_, _, _, hfp⟩ := hrest (getPkg (disarmed s pkg part) pkg)
    rw [getPart, hclear, hmeas, hfp]
    exact Bool.eq_true_of_not_eq_false (configured_disarmed hconf)
  obtain ⟨hpart, parts', hfinal⟩ := restartPart_spec (version := version) hconf'
  have hstate : clearWindows (extendMeas (disarmed s pkg part) pkg 3 4 part version (sha512 image)) pkg part =
      { s with pkgs := (clearWindows (extendMeas (disarmed s pkg part) pkg 3 4 part version (sha512 image)) pkg part).pkgs } := by
    rw [clearWindows_none hxfers, hf]
    rfl
  refine ⟨_, partitionUpdate_restarts hw hconf hrun hsig, by rw [hpart]; rfl, by rw [hpart]; rfl, by rw [hpart]; rfl, by rw [hpart]; rfl, ?_, ?_, ?_, ?_, ?_, ?_⟩
  · rw [hfinal, hclear]
    rw [hpkg] at hreach
    exact hreach
  · rw [hfinal]
    exact fun a ha => by simpa using (List.mem_filter.1 ha).2
  · rw [hfinal, hclear]
    exact keptWindows_own _ _ _ _
  · rw [restartPart_domains, hstate]
  · rw [restartPart_cores, hstate]
  · rw [restartPart_mem, hstate]

end

/-- Settles O59: each command of service by its own lemma. -/
theorem serviceEvents : Obligations.ServiceEvents := by
  unfold Obligations.ServiceEvents
  intro s pkg hw
  dsimp only
  refine ⟨fun fn accept => ⟨fun hoff => ?_, fun hon hbusy => ?_, fun hon hbusy ha hc => ?_⟩, fun fn w v hw4 hfn => ?_, fun c n v hc hn => selector_write hc hn v,
    fun c n v hc hn => counter_registers hc hn v, fun fn pa v hpa h8 hfn => ?_, fun l hl => ?_, fun img => ⟨boot_retired, fun hrun hlife => ?_, fun hreset hlife => ⟨?_, ?_⟩⟩,
    fun n e r hidle hq hat => secure_extends hw hidle hq hat, fun token signature => ⟨token_unread, fun hidle h hbad => ?_, fun hidle h hgood => ?_, fun hacting => ?_⟩,
    retire_spec hw, spdm_spec hw, fun version image signature => ⟨hypervisorUpdate_ignored, hypervisorUpdate_spec hw⟩,
    fun part version image signature hconf => ⟨fun hrun => ?_, fun hrun hsig => ?_, partitionUpdate_spec hw hconf⟩, ?_, closePort_spec hw,
    fun part key => ⟨fun hidle hlife => tenantKey_takes hidle hlife part key, fun h => tenantKey_refused (.inl h) part key,
      fun h1 h2 => tenantKey_refused (.inr ⟨h1, h2⟩) part key⟩⟩
  · exact featCommit_off (mt (hasBar_iff ..).1 (not_not_intro hoff)) accept
  · exact featCommit_ignored hw ((hasBar_iff ..).2 hon) hbusy.1 ((partBusy_iff ..).2 hbusy.2) accept
  · exact featCommit_commits hw ((hasBar_iff ..).2 hon) (fun hno => hbusy ⟨hno.1, (partBusy_iff ..).1 hno.2⟩) ha hc accept
  · have hbar := hasBar_of hfn
    refine ⟨managementRead_feat (r := 0) hbar (by omega) hw4, managementRead_feat (r := 1) hbar (by omega) hw4, managementRead_feat (r := 2) hbar (by omega) hw4,
      registerWrite_ignored ?_ (by omega) v, registerWrite_ignored ?_ (by omega) v, fun hw3 => accept_write hbar hw3 v⟩
    · rw [mgmtReg_feat (r := 0) (by omega) hw4]
      exact ⟨fun _ _ h => (nomatch h), fun _ _ h => (nomatch h)⟩
    · rw [mgmtReg_feat (r := 2) (by omega) hw4]
      exact ⟨fun _ _ h => (nomatch h), fun _ _ h => (nomatch h)⟩
  · have hbar := hasBar_of fun h0 => hfn.resolve_left h0
    exact ⟨fun h0 hno => memory_write_foreign hpa h8 hbar h0 hno v, fun hown hm => memory_write_reaches hpa h8 hbar hown hm v⟩
  · have hread := link_read (s := s) (pkg := pkg) (w := 0) hl (by omega)
    exact ⟨link_read (w := 1) hl (by omega), link_read (w := 2) hl (by omega), link_read (w := 3) hl (by omega), by
      rw [show 0x40000 + 0x40 * l = 0x40000 + 0x40 * l + 8 * 0 by omega, hread]
      exact linkStatus_fields _⟩
  · obtain ⟨hpkg, hmem⟩ := getPkg_resetPackage (pkg := pkg) hw
    refine ⟨boot_resets hw hrun hlife img, ?_, ?_, ?_, ?_, fun k hk => getCore_resetPackage s hk, fun d hd halone hin => findDom_resetPackage hd hin halone, hmem⟩
    all_goals rw [hpkg]; rfl
  · rintro hbad
    by_cases hroot : BitVec.ofNat 512 (digest img.rootKey) = (fused img (getPkg s pkg)).rootDigest
    · obtain ⟨h1, h2, h3, h4⟩ := bootFails_spec (img := img) hw hreset 2
      exact ⟨_, boot_failsHyper hw hreset hlife hroot (hbad.resolve_left (not_not_intro hroot)), h1, h2, h3, h4.trans (if_neg (not_not_intro hroot)).symm⟩
    · obtain ⟨h1, h2, h3, h4⟩ := bootFails_spec (img := img) hw hreset 1
      exact ⟨_, boot_failsRoot hw hreset hlife hroot, h1, h2, h3, h4.trans (if_pos hroot).symm⟩
  · intro hroot hsig
    obtain ⟨u, hu, hb, hdoms, hparts⟩ := boot_spec hw hreset hlife hroot hsig
    refine ⟨u, hu, hb.runs, hb.stage, hb.fails, hdoms, hb.first.trans (extended_zero _), hb.second, fun b hone => ⟨(hparts b hone).1, fun hno => ?_⟩⟩
    obtain ⟨started, key, hstarted, hpart, hqueue⟩ := (hparts b hone).2 hno
    rw [hpart]
    refine ⟨rfl, rfl, rfl, rfl, rfl, rfl, fun hsig => ?_, fun hsig => ?_⟩
    · obtain rfl := hstarted.2 hsig
      exact ⟨rfl, rfl, hqueue⟩
    · obtain rfl := Bool.eq_false_iff.2 (mt hstarted.1 hsig)
      exact ⟨rfl, rfl, hqueue⟩
  · exact token_counted hidle h fun hgood => hbad hgood
  · exact token_wipes hw hidle h hgood
  · obtain ⟨hlife, hnone, hcores⟩ := unlock_step hw hacting
    refine ⟨_, rfl, hlife, hnone, hcores, fun hfree => ?_, fun hat => ?_, fun n e r hat hq hn => ?_⟩
    · obtain ⟨h1, h2⟩ := unlock_free hw hacting hfree
      rw [h1, h2]
      exact ⟨rfl, hfree.1, by rw [unlockDone, show (measured s.clock 15 (unlockEvent token) (fusedUnlock (getPkg s pkg))).measQueue = [] from hfree.1]; exact Bool.or_true _⟩
    · obtain ⟨h1, h2⟩ := unlock_later hw hacting hat
      rw [h1, h2]
      obtain ⟨hopen, hdue⟩ := unlockDone_queued 15 (unlockEvent token) (fusedUnlock (getPkg s pkg))
      exact ⟨rfl, rfl, hopen, hdue⟩
    · obtain ⟨h1, -⟩ := unlock_behind hw hacting hat hq
      rw [h1]
      obtain ⟨hopen, hdue⟩ := unlockDone_queued 15 (unlockEvent token) (fusedUnlock (getPkg s pkg))
      refine ⟨rfl, rfl, ?_, ?_⟩
      · rw [measTaken, hopen, hdue, beq_false_of_ne hn]
        exact Bool.or_false _
      · rw [measTaken, hdue]
        exact bne_iff_ne.2 hn
  · exact ⟨_, partitionUpdate_later hconf hrun, congrArg Part.arming (getPart_disarmed hconf), rfl, List.mem_append_right _ List.mem_cons_self⟩
  · obtain ⟨hstarted, harming⟩ := getPart_unstarted hconf
    exact ⟨_, partitionUpdate_fails hw hconf hrun hsig, hstarted, harming, rfl⟩
  · change execLifecycleFuseAdvance pkg s = _
    unfold execLifecycleFuseAdvance
    cases (getPkg s pkg).lifecycle <;> rfl

end Sys2Proof.Proofs
end

