-- ==== Sys2Proof/Proofs/Records.lean ====
section
/-! PROOF. Trace records, the rings that they go to, and what the hub writes (R279 to R282, R322, R341 to R348). -/

namespace Sys2Proof.Proofs

open Sys2Proof Sys2Proof.Machine Sys2Proof.Claims Sys2Proof.Laws

-- Words in memory --------------------------------------------------------------------------------------------------------------------------------------------------

theorem read_writeNat_ite {m : Memory} (hm : Memory.wf m = true) (b n v a : Nat) : Memory.read (Memory.writeNat m b n v) a =
    if b ≤ a ∧ a < b + n then BitVec.ofNat 8 (v / 256 ^ (a - b)) else Memory.read m a := by
  split
  · rename_i h
    obtain ⟨i, rfl⟩ := Nat.exists_eq_add_of_le h.1
    rw [read_writeNat n m b v i hm (by omega), Nat.add_sub_cancel_left]
  · exact read_writeNat_out n m b v a (by omega)

/-- Words written one after another. -/
def putWords (m : Memory) (b : Nat) (ws : List Word) (n : Nat) : Memory :=
  (List.range n).foldl (fun m i => Memory.writeNat m (b + 8 * i) 8 (ws.getD i 0).toNat) m

theorem putWords_succ (m : Memory) (b : Nat) (ws : List Word) (n : Nat) :
    putWords m b ws (n + 1) = Memory.writeNat (putWords m b ws n) (b + 8 * n) 8 (ws.getD n 0).toNat := by
  rw [putWords, List.range_succ, List.foldl_append]
  rfl

theorem wf_putWords {m : Memory} (hm : Memory.wf m = true) (b : Nat) (ws : List Word) : ∀ n, Memory.wf (putWords m b ws n) = true
  | 0 => hm
  | n + 1 => by
    rw [putWords_succ]
    exact wf_writeNat _ _ _ _ (wf_putWords hm b ws n)

theorem read_putWords {m : Memory} (hm : Memory.wf m = true) (b : Nat) (ws : List Word) (a : Nat) : ∀ n, Memory.read (putWords m b ws n) a =
    if b ≤ a ∧ a < b + 8 * n then BitVec.ofNat 8 ((ws.getD ((a - b) / 8) 0).toNat / 256 ^ ((a - b) % 8)) else Memory.read m a
  | 0 => (if_neg (by omega)).symm
  | n + 1 => by
    rw [putWords_succ, read_writeNat_ite (wf_putWords hm b ws n), read_putWords hm b ws a n]
    by_cases hlast : b + 8 * n ≤ a ∧ a < b + 8 * n + 8
    · rw [if_pos hlast, if_pos (by omega), show (a - b) / 8 = n by omega, show (a - b) % 8 = a - (b + 8 * n) by omega]
    · rw [if_neg hlast]
      exact if_congr (by omega) rfl rfl

-- Rings (R322, R341) ------------------------------------------------------------------------------------------------------------------------------------------------

/-- A ring that takes no record. -/
abbrev RingFull (m : Memory) (base : Nat) : Prop :=
  (Memory.word m (base + 16)).toNat = 0 ∨ (Memory.word m (base + 16)).toNat ≤ (Memory.word m base).toNat - (Memory.word m (base + 8)).toNat

/-- A record of `n` words in its ring, or counted. -/
def recordPut (m : Memory) (base n : Nat) (ws : List Word) : Memory :=
  if RingFull m base then Memory.writeNat m (base + 24) 8 ((Memory.word m (base + 24)).toNat + 1)
  else Memory.writeNat (putWords m (base + 64 + 8 * n * ((Memory.word m base).toNat % (Memory.word m (base + 16)).toNat)) ws n) base 8
    ((Memory.word m base).toNat + 1)

/-- A ring after a record. Irreducible, so that no elaboration evaluates the ring's words. -/
@[irreducible] def RecordTaken (m : Memory) (base n : Nat) (ws : List Word) (m' : Memory) : Prop := ringTakes m base n ws (Memory.read m')

theorem recordTaken_eq (m : Memory) (base n : Nat) (ws : List Word) (m' : Memory) :
    ringTakes m base n ws (Memory.read m') = RecordTaken m base n ws m' := by
  rw [RecordTaken]

theorem recordTaken_full {m m' : Memory} {base : Nat} (hfull : RingFull m base) {n : Nat} {ws : List Word}
    (hf : ∀ a, Memory.read m' a =
      if base + 24 ≤ a ∧ a < base + 32 then BitVec.ofNat 8 (((Memory.word m (base + 24)).toNat + 1) / 256 ^ (a - base - 24)) else Memory.read m a) :
    RecordTaken m base n ws m' := by
  rw [RecordTaken]
  unfold ringTakes
  simp only [Nat.mul_zero, Nat.mul_one, Nat.add_zero, Nat.reduceMul]
  rw [if_pos hfull]
  exact hf

theorem recordTaken_room {m m' : Memory} {base : Nat} (hroom : ¬ RingFull m base) {n : Nat} {ws : List Word}
    (hf : ∀ a, Memory.read m' a = if base ≤ a ∧ a < base + 8 then BitVec.ofNat 8 (((Memory.word m base).toNat + 1) / 256 ^ (a - base))
      else if base + 64 + 8 * n * ((Memory.word m base).toNat % (Memory.word m (base + 16)).toNat) ≤ a ∧
          a < base + 64 + 8 * n * ((Memory.word m base).toNat % (Memory.word m (base + 16)).toNat) + 8 * n then
        BitVec.ofNat 8 ((ws.getD ((a - (base + 64 + 8 * n * ((Memory.word m base).toNat % (Memory.word m (base + 16)).toNat))) / 8) 0).toNat /
          256 ^ ((a - (base + 64 + 8 * n * ((Memory.word m base).toNat % (Memory.word m (base + 16)).toNat))) % 8)) else Memory.read m a) :
    RecordTaken m base n ws m' := by
  rw [RecordTaken]
  unfold ringTakes
  simp only [Nat.mul_zero, Nat.mul_one, Nat.add_zero, Nat.reduceMul]
  rw [if_neg hroom]
  exact hf

theorem read_recordPut_full {m : Memory} (hm : Memory.wf m = true) {base : Nat} (hfull : RingFull m base) (n : Nat) (ws : List Word) (a : Nat) :
    Memory.read (recordPut m base n ws) a =
      if base + 24 ≤ a ∧ a < base + 32 then BitVec.ofNat 8 (((Memory.word m (base + 24)).toNat + 1) / 256 ^ (a - base - 24)) else Memory.read m a := by
  rw [recordPut, if_pos hfull, read_writeNat_ite hm, Nat.sub_sub]

theorem read_recordPut_room {m : Memory} (hm : Memory.wf m = true) {base : Nat} (hroom : ¬ RingFull m base) (n : Nat) (ws : List Word) (a : Nat) :
    Memory.read (recordPut m base n ws) a = if base ≤ a ∧ a < base + 8 then BitVec.ofNat 8 (((Memory.word m base).toNat + 1) / 256 ^ (a - base))
      else if base + 64 + 8 * n * ((Memory.word m base).toNat % (Memory.word m (base + 16)).toNat) ≤ a ∧
          a < base + 64 + 8 * n * ((Memory.word m base).toNat % (Memory.word m (base + 16)).toNat) + 8 * n then
        BitVec.ofNat 8 ((ws.getD ((a - (base + 64 + 8 * n * ((Memory.word m base).toNat % (Memory.word m (base + 16)).toNat))) / 8) 0).toNat /
          256 ^ ((a - (base + 64 + 8 * n * ((Memory.word m base).toNat % (Memory.word m (base + 16)).toNat))) % 8)) else Memory.read m a := by
  rw [recordPut, if_neg hroom, read_writeNat_ite (wf_putWords hm _ _ _), read_putWords hm]

theorem recordTaken_recordPut {m : Memory} (hm : Memory.wf m = true) (base n : Nat) (ws : List Word) : RecordTaken m base n ws (recordPut m base n ws) := by
  rcases Classical.em (RingFull m base) with h | h
  · exact recordTaken_full h (read_recordPut_full hm h n ws)
  · exact recordTaken_room h (read_recordPut_room hm h n ws)

theorem ringPut_eq (m : Memory) (base : Nat) {ws : List Word} (h : ws.length = 4) : ringPut m base ws = recordPut m base 4 ws := by
  unfold ringPut recordPut putWords
  dsimp only
  rw [h]

theorem waitLog_put (s : State) (k part eff clk pid lc base : Nat) (c : Cause) (h : ringBase s k part true (dieOf k) = some base) :
    waitLog s k part eff clk pid lc c = hubWrite s (ringPut s.mem base [toWord eff,
      toWord (c.code * 2 ^ 56 + Stream.code c.stream * 2 ^ 54 + c.evt * 2 ^ 48 + (getPkg s (pkgOf k)).pos * 2 ^ 40 + numOf k * 2 ^ 30 + lc),
      toWord ((pid % 2 ^ 24) * 2 ^ 40 + clk % 2 ^ 40),
      toWord (c.agent.kind * 2 ^ 60 + c.agent.pkg * 2 ^ 52 + c.agent.core * 2 ^ 42 + c.agent.stream * 2 ^ 40 + c.agent.idx * 2 ^ 32 +
        c.agent.pid % 2 ^ 24)]) := by
  rw [waitLog, h]

section
variable {s : State} {pkg part rcb r : Nat} {ws : List Word}

/-- The base of a region's fault log. -/
def logBase (s : State) (pkg r : Nat) : Nat := pkg * 2 ^ 39 + (Memory.word s.mem (pkg * 2 ^ 39 + r + 48)).toNat % 2 ^ 39

theorem faultLog_full (hr : effRcb s.mem pkg 9 8 rcb = some r) (hfull : RingFull s.mem (logBase s pkg r)) :
    faultLog s pkg part rcb ws = hubWrite s (recordPut s.mem (logBase s pkg r) 32 ws) := by
  rw [faultLog, hr, recordPut, if_pos hfull]
  exact if_pos hfull

theorem faultLog_put (hr : effRcb s.mem pkg 9 8 rcb = some r) (hroom : ¬ RingFull s.mem (logBase s pkg r)) :
    faultLog s pkg part rcb ws = modPart (hubWrite s (recordPut s.mem (logBase s pkg r) 32 ws)) pkg part fun p => { p with interrupts := p.interrupts + 1 } := by
  rw [faultLog, hr, recordPut, if_neg hroom]
  exact if_neg hroom

theorem hubWrite_pkgs (s : State) (m : Memory) : (hubWrite s m).pkgs = s.pkgs := by rw [hubWrite_eq]

theorem modPart_hubWrite_pkgs (s : State) (m : Memory) (pkg part : Nat) (f : Part → Part) : (modPart (hubWrite s m) pkg part f).pkgs = (modPart s pkg part f).pkgs := by
  rw [hubWrite_eq]
  rfl

theorem faultLog_mem (hr : effRcb s.mem pkg 9 8 rcb = some r) :
    (faultLog s pkg part rcb ws).mem = (hubWrite s (recordPut s.mem (logBase s pkg r) 32 ws)).mem := by
  rcases Classical.em (RingFull s.mem (logBase s pkg r)) with hfull | hroom
  · rw [faultLog_full hr hfull]
  · rw [faultLog_put hr hroom]
    rfl

theorem faultLog_takes (hm : Memory.wf s.mem = true) (hr : effRcb s.mem pkg 9 8 rcb = some r) :
    ∃ m, RecordTaken s.mem (logBase s pkg r) 32 ws m ∧ (faultLog s pkg part rcb ws).mem = (hubWrite s m).mem :=
  ⟨_, recordTaken_recordPut hm _ 32 ws, faultLog_mem hr⟩

theorem faultLog_beside (hr : effRcb s.mem pkg 9 8 rcb = some r) :
    (faultLog s pkg part rcb ws).cores = s.cores ∧ (faultLog s pkg part rcb ws).domains = s.domains ∧
      (RingFull s.mem (logBase s pkg r) → (faultLog s pkg part rcb ws).pkgs = s.pkgs) ∧
      (¬ RingFull s.mem (logBase s pkg r) → (faultLog s pkg part rcb ws).pkgs = (modPart s pkg part fun p => { p with interrupts := p.interrupts + 1 }).pkgs) := by
  obtain ⟨mem, pkgs, hrest⟩ := faultLog_rest s pkg part rcb ws
  refine ⟨by rw [hrest], by rw [hrest], fun hfull => ?_, fun hroom => ?_⟩
  · rw [faultLog_full hr hfull, hubWrite_pkgs]
  · rw [faultLog_put hr hroom, modPart_hubWrite_pkgs]

end

-- What the hub writes (R279) -------------------------------------------------------------------------------------------------------------------------------------------

section
variable {s : State} {m : Memory}

theorem hubWrite_alone (h : ∀ p ∈ s.pkgs, p.2.compactions = []) : hubWrite s m = { s with mem := m } :=
  if_pos (List.all_eq_true.2 fun p hp => List.isEmpty_iff.2 (h p hp))

theorem mirrorKeys_self (s : State) (a : Nat) : a ∈ mirrorKeys s a := by
  unfold mirrorKeys
  refine foldl_keeps (fun l => a ∈ l) _ ?_ _ _ List.mem_cons_self
  intro l c h
  split
  · exact List.mem_append_left _ h
  · split
    · exact List.mem_append_left _ h
    · exact h

theorem get_blank_or_mem {α : Type} (d : α) (l : Sparse α) (a : Nat) : Sparse.get d l a = d ∨ (a, Sparse.get d l a) ∈ l := by
  induction l with
  | nil => exact .inl rfl
  | cons x r ih =>
    rw [Sparse.get]
    by_cases ha : a = x.1
    · subst ha
      rw [if_pos rfl]
      exact .inr List.mem_cons_self
    · rw [if_neg ha]
      exact ih.imp_right (List.mem_cons_of_mem _)

/-- Without a move a write reaches its own address alone. -/
theorem mirrorKeys_alone (h : ∀ p ∈ s.pkgs, p.2.compactions = []) (a : Nat) : mirrorKeys s a = [a] := by
  have hnone : (getPkg s (a / 2 ^ 39)).compactions = [] := by
    rcases get_blank_or_mem ({} : Pkg) s.pkgs (a / 2 ^ 39) with hblank | hmem
    · rw [getPkg, hblank]
    · exact h _ hmem
  unfold mirrorKeys
  dsimp only
  rw [hnone, List.foldl_nil]

/-- One value written to several addresses. -/
def writeAll (m : Memory) (l : List Nat) (v : Byte) : Memory := l.foldl (fun m b => Memory.write m b v) m

theorem wf_writeAll (hm : Memory.wf m = true) (l : List Nat) (v : Byte) : Memory.wf (writeAll m l v) = true :=
  foldl_keeps (fun m => Memory.wf m = true) _ (by intro m b h; exact wf_write m b v h) l m hm

theorem read_writeAll_out {l : List Nat} {b : Nat} (v : Byte) (hb : b ∉ l) : Memory.read (writeAll m l v) b = Memory.read m b := by
  induction l generalizing m with
  | nil => rfl
  | cons x r ih =>
    refine (ih fun h => hb (List.mem_cons_of_mem _ h)).trans (read_write_ne _ _ _ _ fun h => hb (h ▸ List.mem_cons_self))

theorem read_writeAll (hm : Memory.wf m = true) {l : List Nat} {b : Nat} (v : Byte) (hb : b ∈ l ∨ Memory.read m b = v) : Memory.read (writeAll m l v) b = v := by
  induction l generalizing m with
  | nil => exact hb.resolve_left List.not_mem_nil
  | cons x r ih =>
    refine ih (wf_write _ _ _ hm) ?_
    by_cases hx : b = x
    · subst hx
      exact .inr (read_write _ _ _ hm)
    · exact hb.imp (fun h => (List.mem_cons.1 h).resolve_left hx) fun h => (read_write_ne _ _ _ _ hx).trans h

/-- The bytes at some addresses of `m` written to every backing. -/
def mirrored (s : State) (m : Memory) (l : List Nat) (mm : Memory) : Memory := l.foldl (fun mm a => writeAll mm (mirrorKeys s a) (Memory.read m a)) mm

theorem read_mirrored_out {l : List Nat} {b : Nat} (hb : ∀ x ∈ l, b ∉ mirrorKeys s x) (mm : Memory) :
    Memory.read (mirrored s m l mm) b = Memory.read mm b := by
  induction l generalizing mm with
  | nil => rfl
  | cons x r ih =>
    exact (ih (fun y hy => hb y (List.mem_cons_of_mem _ hy)) _).trans (read_writeAll_out _ (hb x List.mem_cons_self))

theorem read_mirrored {a b : Nat} (hb : b ∈ mirrorKeys s a) {l : List Nat} (honly : ∀ x ∈ l, x ≠ a → b ∉ mirrorKeys s x) {mm : Memory}
    (hmm : Memory.wf mm = true) (ha : a ∈ l ∨ Memory.read mm b = Memory.read m a) : Memory.read (mirrored s m l mm) b = Memory.read m a := by
  induction l generalizing mm with
  | nil => exact ha.resolve_left List.not_mem_nil
  | cons x r ih =>
    refine ih (fun y hy => honly y (List.mem_cons_of_mem _ hy)) (wf_writeAll hmm _ _) ?_
    by_cases hx : x = a
    · subst hx
      exact .inr (read_writeAll hmm _ (.inl hb))
    · refine ha.imp (fun h => (List.mem_cons.1 h).resolve_left fun e => hx e.symm) fun h => ?_
      exact (read_writeAll_out _ (honly x List.mem_cons_self hx)).trans h

theorem mem_changedKeys {m0 : Memory} {a : Nat} : a ∈ changedKeys m0 m ↔ Memory.read m a ≠ Memory.read m0 a := by
  have hblank : ∀ (n : Memory), a ∉ n.map Prod.fst → Memory.read n a = Memory.blank := by
    intro n hn
    unfold Memory.read
    induction n with
    | nil => rfl
    | cons x r ih =>
      rw [List.map_cons, List.mem_cons, not_or] at hn
      exact (if_neg hn.1).trans (ih hn.2)
  rw [changedKeys, List.mem_filter, decide_eq_true_eq, and_iff_right_iff_imp]
  intro hne
  by_contra hout
  rw [List.mem_append, not_or] at hout
  exact hne ((hblank _ hout.2).trans (hblank _ hout.1).symm)

theorem hubWrite_cases (s : State) (m : Memory) : ((∀ p ∈ s.pkgs, p.2.compactions = []) ∧ hubWrite s m = { s with mem := m }) ∨
    hubWrite s m = { s with mem := mirrored s m (changedKeys s.mem m) m } := by
  by_cases h : (s.pkgs.all fun p => p.2.compactions.isEmpty) = true
  · exact .inl ⟨fun p hp => List.isEmpty_iff.1 (List.all_eq_true.1 h p hp), if_pos h⟩
  · exact .inr (if_neg h)

theorem hubWrite_keeps {a : Nat} (h : ∀ b, a ∈ mirrorKeys s b → Memory.read m b = Memory.read s.mem b) :
    Memory.read (hubWrite s m).mem a = Memory.read s.mem a := by
  have hself := h a (mirrorKeys_self s a)
  rcases hubWrite_cases s m with ⟨-, hw⟩ | hw
  · rw [hw]
    exact hself
  · rw [hw]
    exact (read_mirrored_out (fun x hx hin => mem_changedKeys.1 hx (h x hin)) m).trans hself

theorem hubWrite_mirrors (hm : Memory.wf m = true) {a b : Nat} (hb : b ∈ mirrorKeys s a) (hne : Memory.read m a ≠ Memory.read s.mem a)
    (honly : ∀ x, x ≠ a → b ∈ mirrorKeys s x → Memory.read m x = Memory.read s.mem x) : Memory.read (hubWrite s m).mem b = Memory.read m a := by
  rcases hubWrite_cases s m with ⟨halone, hw⟩ | hw
  · rw [mirrorKeys_alone halone, List.mem_singleton] at hb
    rw [hw, hb]
  · rw [hw]
    exact read_mirrored hb (fun x hx hxa hin => mem_changedKeys.1 hx (honly x hxa hin)) hm (.inl (mem_changedKeys.2 hne))

end

-- A core's trace buffer (R342, R344) ------------------------------------------------------------------------------------------------------------------------------

section
variable {s : State} {k : Nat}

/-- Two writes of one place of a table in canonical form. -/
theorem set_set_wf {α : Type} [DecidableEq α] (d : α) {m : Sparse α} (hm : Sparse.wfFrom d 0 m = true) (a : Nat) (u v : α) :
    Sparse.set d (Sparse.set d m a u) a v = Sparse.set d m a v := by
  refine wf_ext d _ _ (wf_set0 (wf_set0 hm)) (wf_set0 hm) fun b => ?_
  rw [get_set_eq d (wf_set0 hm), get_set_eq d hm, get_set_eq d hm]
  split <;> rfl

theorem set_get_wf {α : Type} [DecidableEq α] (d : α) {m : Sparse α} (hm : Sparse.wfFrom d 0 m = true) (a : Nat) :
    Sparse.set d m a (Sparse.get d m a) = m := by
  refine wf_ext d _ _ (wf_set0 hm) hm fun b => ?_
  rw [get_set_eq d hm]
  split
  · rename_i h
    rw [h]
  · rfl

/-- Records behind a core's, and its stop request. -/
def traced (s : State) (k : Nat) (l : List (List Word)) (stop : Bool) : State :=
  modCore s k fun c => { c with trace := c.trace ++ l, stopReq := stop }

theorem traced_nil (ht : Tidy s) : traced s k [] (getCore s k).stopReq = s := by
  unfold traced modCore setCore
  dsimp only
  rw [List.append_nil]
  exact congrArg (fun cores => { s with cores := cores }) (set_get_wf ({} : CoreState) ht.cores k)

theorem getCore_traced (ht : Tidy s) (l : List (List Word)) (stop : Bool) :
    getCore (traced s k l stop) k = { getCore s k with trace := (getCore s k).trace ++ l, stopReq := stop } := getCore_setCore_wf _ _ _ ht.cores

/-- Records and a stop request leave all that a record names. -/
theorem afterWatch_traced (ht : Tidy s) (l : List (List Word)) (stop : Bool) : AfterWatch s (traced s k l stop) := by
  refine ⟨⟨_, _, rfl⟩, fun q => ?_⟩
  by_cases hq : q = k
  · subst hq
    exact ⟨_, _, getCore_traced ht l stop⟩
  · exact ⟨_, _, getCore_setCore_ne s _ hq⟩

theorem setCore_traced (ht : Tidy s) (l : List (List Word)) (stop : Bool) (f : CoreState → CoreState) :
    modCore (traced s k l stop) k f = modCore s k fun c => f { c with trace := c.trace ++ l, stopReq := stop } := by
  unfold modCore
  rw [getCore_traced ht]
  exact congrArg (fun cores => { s with cores := cores }) (set_set_wf ({} : CoreState) ht.cores k _ _)

theorem traceRecord_traced (ht : Tidy s) (l : List (List Word)) (stop : Bool) (ws : List Word) (hroom : (getCore s k).trace.length + l.length < 64) :
    traceRecord (traced s k l stop) k ws = traced s k (l ++ [ws]) stop := by
  have hlen : (getCore (traced s k l stop) k).trace.length < 64 := by
    rw [getCore_traced ht]
    exact (List.length_append ..).trans_lt hroom
  refine (if_pos hlen).trans ((setCore_traced ht l stop fun c => { c with trace := c.trace ++ [ws] }).trans ?_)
  unfold traced
  simp only [List.append_assoc]

theorem stopReq_traced (ht : Tidy s) (l : List (List Word)) (stop : Bool) :
    modCore (traced s k l stop) k (fun c => { c with stopReq := true }) = traced s k l true := setCore_traced ht l stop _

theorem commandRecord_traced (ht : Tidy s) (l : List (List Word)) (stop : Bool) (kind : Nat) (st : Stream) (evt ring seq : Nat) (w : Word) :
    commandRecord (traced s k l stop) k kind st evt ring seq w = commandRecord s k kind st evt ring seq w := by
  unfold commandRecord
  rw [(afterWatch_traced ht l stop).asidOfCore, getCore_traced ht]
  rfl

theorem debugAsked_traced (ht : Tidy s) (l : List (List Word)) (stop : Bool) :
    traceCtl (traced s k l stop) k = traceCtl s k ∧ partOfCore (traced s k l stop) k = partOfCore s k := by
  have hdom : domOf (traced s k l stop) k = domOf s k := by
    unfold domOf
    rw [getCore_traced ht]
    rfl
  have hpart : partOfCore (traced s k l stop) k = partOfCore s k := by rw [partOfCore, partOfCore, hdom]
  refine ⟨?_, hpart⟩
  unfold traceCtl
  rw [hpart]
  rfl

theorem commandRecord_eq (s : State) (k kind : Nat) (st : Stream) (evt ring seq w : Nat) :
    commandRecord s k kind st evt ring seq (toWord w) = recordOf s k kind st evt ring seq w := rfl

-- The watch test (R280 to R282, R345)

/-- The records of an access that meets the filters. -/
def watchRecords (nat com : Bool) (r2 r3 : List Word) : List (List Word) := (if nat then [r2] else []) ++ if com then [r3] else []

/-- Does the access meet the compatibility watch? -/
def compatNow (s : State) (k x n : Nat) : Bool :=
  match findRange (getCore s k).ranges (asidOfCore s k) x with
  | some (_, e) => compatHit e x n
  | none => false

/-- A record where a filter is met. -/
def recordIf (k kind : Nat) (st : Stream) (evt ring seq w : Nat) (p : Bool) (u : State) : State :=
  if p then traceRecord u k (commandRecord u k kind st evt ring seq (toWord w)) else u

/-- The stop that a hit asks for. -/
def stopIf (k : Nat) (p : Bool) (u : State) : State :=
  if p && bits (traceCtl u k) 1 1 == 1 && (getPart u (pkgOf k) (partOfCore u k)).debug then modCore u k fun c => { c with stopReq := true } else u

theorem watchTest_steps (s : State) (k : Nat) (st : Stream) (evt ring seq x n kind : Nat) : watchTest s k st evt ring seq x n kind =
    stopIf k (nativeHit (getCore s k) x || compatNow s k x n)
      (recordIf k 3 st evt ring seq (kind * 2 ^ 60 + x) (compatNow s k x n)
        (recordIf k 2 st evt ring seq (kind * 2 ^ 60 + x) (nativeHit (getCore s k) x) s)) := rfl

theorem recordIf_traced (ht : Tidy s) (l : List (List Word)) (stop : Bool) (kind : Nat) (st : Stream) (evt ring seq w : Nat) (p : Bool)
    (hroom : (getCore s k).trace.length + l.length < 64) : recordIf k kind st evt ring seq w p (traced s k l stop) =
      traced s k (l ++ if p then [recordOf s k kind st evt ring seq w] else []) stop := by
  cases p with
  | false =>
    rw [if_neg Bool.false_ne_true, List.append_nil]
    rfl
  | true =>
    rw [if_pos rfl, recordIf, if_pos rfl, commandRecord_traced ht, commandRecord_eq]
    exact traceRecord_traced ht l stop _ hroom

theorem stopIf_traced (ht : Tidy s) (l : List (List Word)) (stop p : Bool) : stopIf k p (traced s k l stop) = traced s k l
    (if p && bits (traceCtl s k) 1 1 == 1 && (getPart s (pkgOf k) (partOfCore s k)).debug then true else stop) := by
  obtain ⟨hctl, hpart⟩ := debugAsked_traced (k := k) ht l stop
  unfold stopIf
  rw [hctl, hpart, show getPart (traced s k l stop) (pkgOf k) (partOfCore s k) = getPart s (pkgOf k) (partOfCore s k) from rfl, stopReq_traced ht]
  split <;> rfl

theorem watchTest_eq (ht : Tidy s) (hroom : (getCore s k).trace.length + 2 ≤ 64) (st : Stream) (evt ring seq x n kind : Nat) :
    watchTest s k st evt ring seq x n kind = traced s k (watchRecords (nativeHit (getCore s k) x) (compatNow s k x n)
        (recordOf s k 2 st evt ring seq (kind * 2 ^ 60 + x)) (recordOf s k 3 st evt ring seq (kind * 2 ^ 60 + x)))
      (if (nativeHit (getCore s k) x || compatNow s k x n) && bits (traceCtl s k) 1 1 == 1 && (getPart s (pkgOf k) (partOfCore s k)).debug then true
        else (getCore s k).stopReq) := by
  have hfirst := recordIf_traced (k := k) ht [] (getCore s k).stopReq 2 st evt ring seq (kind * 2 ^ 60 + x) (nativeHit (getCore s k) x)
    (by rw [List.length_nil]; omega)
  rw [traced_nil ht, List.nil_append] at hfirst
  have hlen : (if nativeHit (getCore s k) x = true then [recordOf s k 2 st evt ring seq (kind * 2 ^ 60 + x)] else []).length ≤ 1 := by
    split <;> simp
  rw [watchTest_steps, hfirst, recordIf_traced (s := s) (k := k) ht _ _ _ _ _ _ _ _ _ (by omega), stopIf_traced ht]
  rfl

theorem nativeHit_iff (c : CoreState) {x : Nat} (hx : x < 2 ^ 57) : nativeHit c x = true ↔
    c.watch.getLsbD (x / 2 ^ 8 % 2 ^ 14 ^^^ x / 2 ^ 8 / 2 ^ 28 % 2 ^ 14) = true ∧
      c.watch.getLsbD (x / 2 ^ 8 / 2 ^ 14 % 2 ^ 14 ^^^ x / 2 ^ 8 / 2 ^ 42 % 2 ^ 7) = true ∧
      c.watch.getLsbD ((x / 2 ^ 8 % 2 ^ 14 + x / 2 ^ 8 / 2 ^ 14 % 2 ^ 14 + x / 2 ^ 8 / 2 ^ 28 % 2 ^ 14) % 2 ^ 14) = true := by
  have hg : x / 2 ^ 8 % 2 ^ 49 = x / 2 ^ 8 := Nat.mod_eq_of_lt (by omega)
  have htop : x / 2 ^ 8 / 2 ^ 42 % 2 ^ 7 = x / 2 ^ 8 / 2 ^ 42 := Nat.mod_eq_of_lt (by omega)
  rw [nativeHit, watchHashes_eq, hg, htop, List.all_cons, List.all_cons, List.all_cons, List.all_nil, Bool.and_true, Bool.and_eq_true, Bool.and_eq_true]

/-- A watch of a range entry that an access meets (R281). -/
abbrev Watches (e : RangeEntry) (x n : Nat) : Prop := e.ctl.toNat / 2 ^ 5 % 2 = 1 ∧
  e.wmask.toNat / 2 ^ ((x - e.base.toNat) / (256 * ((e.limit.toNat - e.base.toNat + 16383) / 16384))) % 2 = 1 ∧
  ∃ u, u < 64 ∧ e.wbm.toNat / 2 ^ u % 2 = 1 ∧ 0 < n ∧ x % 256 < 4 * u + 4 ∧ 4 * u < x % 256 + n

theorem compatHit_iff (e : RangeEntry) (x n : Nat) : compatHit e x n = true ↔ Watches e x n := by
  unfold compatHit Watches
  simp only [Bool.and_eq_true, beq_iff_eq, List.any_eq_true, List.mem_range, runsMeet, decide_eq_true_eq, and_assoc]
  refine and_congr Iff.rfl (and_congr Iff.rfl (exists_congr fun u => and_congr Iff.rfl (and_congr Iff.rfl ?_)))
  omega

/-- The range entry that an access matches watches it. -/
abbrev CompatWatched (s : State) (k x n : Nat) : Prop :=
  match (getCore s k).ranges.find? (fun p => decide (p.2.ctl.toNat % 2 = 1 ∧ p.2.ctl.toNat / 2 ^ 8 % 2 ^ 12 = asidOfCore s k ∧
      p.2.base.toNat ≤ x ∧ x < p.2.limit.toNat)) with
  | some p => Watches p.2 x n
  | none => False

theorem compatNow_iff (s : State) (k x n : Nat) : compatNow s k x n = true ↔ CompatWatched s k x n := by
  have hfind : findRange (getCore s k).ranges (asidOfCore s k) x = (getCore s k).ranges.find? (fun p => decide (p.2.ctl.toNat % 2 = 1 ∧
      p.2.ctl.toNat / 2 ^ 8 % 2 ^ 12 = asidOfCore s k ∧ p.2.base.toNat ≤ x ∧ x < p.2.limit.toNat)) := by
    unfold findRange
    congr 1
    funext p
    rw [Bool.eq_iff_iff, holds_iff, decide_eq_true_eq]
  unfold compatNow CompatWatched
  rw [hfind]
  split
  · rename_i p e he
    rw [he]
    exact compatHit_iff e x n
  · rename_i he
    rw [he]
    exact iff_of_false Bool.noConfusion id

theorem stopAsked_iff (nat com debug : Bool) (ctl : Nat) : ((nat || com) && bits ctl 1 1 == 1 && debug) = true ↔
    (nat = true ∨ com = true) ∧ ctl / 2 % 2 = 1 ∧ debug = true := by
  rw [Bool.and_eq_true, Bool.and_eq_true, Bool.or_eq_true, beq_iff_eq, and_assoc]
  rfl

-- The record of a command (R342, R343)

theorem insertRecord_room {pos : Nat} {r : List Word} (h : (getCore s k).trace.length < 64) :
    insertRecord s k pos r = modCore s k fun c => { c with trace := c.trace.take pos ++ r :: c.trace.drop pos } := by
  have hlen : ((getCore s k).trace.take pos ++ r :: (getCore s k).trace.drop pos).length ≤ 64 := by
    rw [List.length_append, List.length_cons, List.length_take, List.length_drop]
    omega
  unfold insertRecord
  dsimp only
  rw [List.drop_eq_nil_of_le hlen]
  rfl

theorem issueRecords_plain (hibd : s.ctx.hdr.ibd = false) (pos : Nat) (loops : Word) : issueRecords s pos loops =
    if s.ctx.hdr.trc && bits (traceCtl s s.ctx.core) 0 1 == 1 then insertRecord s s.ctx.core pos (loopRecord s 0x01 loops) else s := by
  unfold issueRecords
  rw [hibd]
  rfl

theorem traceOn_iff (s : State) : (s.ctx.hdr.trc && bits (traceCtl s s.ctx.core) 0 1 == 1) = true ↔
    s.ctx.hdr.trc = true ∧ traceCtl s s.ctx.core % 2 = 1 := by
  rw [Bool.and_eq_true, beq_iff_eq, bits_low, pow_one]

theorem loopRecord_eq (s : State) (loops : Word) : loopRecord s 0x01 loops =
    recordOf s s.ctx.core 1 s.ctx.stream s.ctx.hdr.evt.toNat (ringAddr (curStream s).ring s.ctx.idx) s.ctx.seq loops.toNat := by
  have hw : toWord loops.toNat = loops := BitVec.ofNat_toNat .. |>.trans (BitVec.setWidth_eq _)
  unfold loopRecord recordOf commandRecord
  rw [hw]
  rfl

theorem traceRecord_full {base : Nat} {ws : List Word} (h : 64 ≤ (getCore s k).trace.length)
    (hbase : ringBase s k (partOfCore s k) false (dieOf k) = some base) :
    traceRecord s k ws = hubWrite s (Memory.writeNat s.mem (base + 24) 8 ((Memory.word s.mem (base + 24)).toNat + 1)) := by
  unfold traceRecord
  dsimp only
  rw [if_neg (by omega), hbase]

end

/-- Settles O60: each record by its own lemma. -/
theorem recordsReachTheirRings : Obligations.RecordsReachTheirRings := by
  unfold Obligations.RecordsReachTheirRings
  simp only [recordTaken_eq]
  refine ⟨?_, ?_, ?_, ?_, ?_, ?_, ?_⟩
  · intro s k st evt ring seq x n kind hx _ hroom htidy
    have ht : Tidy s := ⟨htidy⟩
    have hnat := nativeHit_iff (getCore s k) hx
    have hcom := compatNow_iff s k x n
    refine ⟨_, _, watchTest_eq ht hroom st evt ring seq x n kind, fun hn hc => ?_, fun hn hc => ?_, fun hn hc => ?_, fun hn hc => ?_, fun hasks => ?_, fun hasks => ?_⟩
    · rw [hnat.2 hn, hcom.2 hc]
      rfl
    · rw [hnat.2 hn, Bool.eq_false_iff.2 (mt hcom.1 hc)]
      rfl
    · rw [Bool.eq_false_iff.2 (mt hnat.1 hn), hcom.2 hc]
      rfl
    · rw [Bool.eq_false_iff.2 (mt hnat.1 hn), Bool.eq_false_iff.2 (mt hcom.1 hc)]
      rfl
    · exact if_pos ((stopAsked_iff ..).2 ⟨hasks.1.imp hnat.2 hcom.2, hasks.2⟩)
    · exact if_neg fun hyes => hasks (((stopAsked_iff ..).1 hyes).imp_left (Or.imp hnat.1 hcom.1))
  · intro m base ws hm h4
    rw [ringPut_eq m base h4]
    exact recordTaken_recordPut hm base 4 ws
  · intro s pkg part rcb r ws hm hr
    exact ⟨faultLog_takes hm hr, faultLog_beside hr⟩
  · exact fun s k part eff clk pid lc base c => waitLog_put s k part eff clk pid lc base c
  · intro s pos loops hibd hroom
    refine ⟨fun hon => ?_, fun hoff => ?_⟩
    · rw [issueRecords_plain hibd, if_pos ((traceOn_iff s).2 hon), insertRecord_room hroom, loopRecord_eq]
      rfl
    · rw [issueRecords_plain hibd, if_neg (mt (traceOn_iff s).1 hoff)]
  · exact fun s k base ws => traceRecord_full
  · exact fun s m => ⟨hubWrite_alone, ⟨_, hubWrite_eq s m⟩, fun a => hubWrite_keeps, fun a b hm => hubWrite_mirrors hm⟩

end Sys2Proof.Proofs
end
